-- ==== Sys2Proof/Word.lean ====
section
/-!
DEFINITION. Word types of the VM-1664 model and their plainest arithmetic (00_scope.md, Conventions).
-/
namespace Sys2Proof

/-- One byte of a memory, a record or a message. -/
abbrev Byte := BitVec 8

/-- One register: every register is 64 bits wide (R9). -/
abbrev Word := BitVec 64

/-- A sparse canonical table: pairs of a key and an entry, keys strictly rising. -/
abbrev Table (α : Type) := List (Nat × α)

namespace Word

/-- The field of `w` that starts at bit `lo` and is `n` bits wide, as a number. -/
def field (w : Word) (lo n : Nat) : Nat := (w.toNat >>> lo) % 2 ^ n

/-- Bit `i` of `w`. -/
def bit (w : Word) (i : Nat) : Bool := w.toNat.testBit i

/-- `w` with the `n` bits from bit `lo` replaced by the low `n` bits of `v`. -/
def setField (w : Word) (lo n v : Nat) : Word :=
  let mask : Nat := (2 ^ n - 1) <<< lo
  (w &&& ~~~ BitVec.ofNat 64 mask) ||| BitVec.ofNat 64 ((v % 2 ^ n) <<< lo)

/-- A word with the value `v` in the `n` bits from bit `lo`. -/
def put (lo n v : Nat) : Word := BitVec.ofNat 64 ((v % 2 ^ n) <<< lo)

end Word

/-- The 1-bit number of a truth value. -/
def b2n (b : Bool) : Nat := if b then 1 else 0

end Sys2Proof
end

