-- ==== Sys2Proof/Syntax.lean ====
section
/-!
DEFINITION. The commands of the block: one constructor of `Instr` per row of spec/opcode_table.json.
What reaches the device from outside its own logic (a converter's noise, a parity hit, a measured energy, the verdict of a
signature engine, the content of an image in memory) is an operand of the command that brings it (log 3).
-/
namespace Sys2Proof

/-! ### Places -/

/-- A Zhokai die, 0 to 15 (R17). -/
abbrev DieId := Fin 16
/-- A Gustad hub, 0 to 3 (R17). -/
abbrev HubId := Fin 4
/-- An HBM4 stack, 0 to 7 (R17). -/
abbrev StackId := Fin 8
/-- A Kyrok port, 0 to 15 (R17). -/
abbrev PortId := Fin 16
/-- An intake window, 0 to 15. -/
abbrev WinId := Fin 16
/-- A physical mould of a croft: 16 in service and 2 reserves as delivered. -/
abbrev PhysMould := Fin 18
/-- A logical mould slot of a croft. -/
abbrev LogMould := Fin 16
/-- A lease-held granary slice. -/
abbrev SliceId := Fin 64

/-- A physical croft: die, row 0 to 31 and physical column 0 to 33 (R39). -/
structure CroftAt where
  die : DieId
  row : Fin 32
  col : Fin 34
  deriving DecidableEq, Repr

/-! ### Codes -/

/-- The device-wide error codes (R549). -/
inductive Code where
  | length | format | auth | busy | locked | role | state | sequence | duplicate | budget | generationGone | epoch
  | unfilled | undrained | timeout | poison | parity | suspect | stale | empty | fenced | cancelled | reset | widenStorm
  deriving DecidableEq, Repr

/-- The number of a code (R549). -/
def Code.num : Code → Nat
  | .length => 1 | .format => 2 | .auth => 3 | .busy => 4 | .locked => 5 | .role => 6 | .state => 7 | .sequence => 8
  | .duplicate => 9 | .budget => 10 | .generationGone => 11 | .epoch => 12 | .unfilled => 13 | .undrained => 14
  | .timeout => 15 | .poison => 16 | .parity => 17 | .suspect => 18 | .stale => 19 | .empty => 20 | .fenced => 21
  | .cancelled => 22 | .reset => 23 | .widenStorm => 24

/-- The causes that mark a step for re-run (R587). -/
inductive Cause where
  | parity | format | unfilled | epoch | fenced | timeout | reset | suspect
  deriving DecidableEq, Repr

/-! ### Arithmetic operands -/

/-- Deviation of one conversion from its exact value (R6, R146, R179: results are not bit-exact): pass of the window (interval 0
to 3), line, noise in codes, and the line's gain residual in 1/10,000 and offset residual in eighths of a code. -/
structure Noise where
  pass : Nat
  line : Nat
  delta : Int
  gain : Int := 0
  offset : Int := 0
  deriving DecidableEq, Repr

/-- A forward evaluation window (R51, R61): the croft, the logical mould, the step and lane it serves, the active row set,
and the activation pad row that holds the code of mould row 0. -/
structure WindowIn where
  croft : CroftAt
  mould : LogMould
  step : Nat
  firstRow : Nat
  rows : Nat
  actRow : Nat
  noise : List Noise
  deriving DecidableEq, Repr

/-- A transposed window (R69, R70): the activation pad row that holds the 256 column codes and the transposed span. -/
structure TransposedIn where
  croft : CroftAt
  mould : LogMould
  step : Nat
  actRow : Nat
  spanT : Nat
  noise : List Noise
  deriving DecidableEq, Repr

/-- A partial sum of another croft (R161): output column, the sending croft and the wide accumulator there. -/
structure PartialSum where
  column : Nat
  croft : CroftAt
  acc : Nat
  deriving DecidableEq, Repr

/-- One exact product at D8 (R170, R172): output column, byte of the activation pad that holds the A8 code, byte of the weight
store that holds the D8 weight. -/
structure D8Term where
  column : Nat
  act : Nat
  weight : Nat
  deriving DecidableEq, Repr

/-- An embedding row (R171): store byte of its first weight, and ω of each element. -/
structure EmbedIn where
  weight : Nat
  omega : List (Nat × BitVec 16)
  deriving DecidableEq, Repr

/-- One product of an adapter's up matrix (R172): output column, rank element, store byte of the weight. -/
structure UpTerm where
  column : Nat
  rank : Nat
  weight : Nat
  deriving DecidableEq, Repr

/-- The adapter beside a projection (R172): down matrix with ω of each rank element, up matrix with ω of each column. -/
structure AdapterIn where
  down : List D8Term
  downOmega : List (Nat × BitVec 16)
  up : List UpTerm
  upOmega : List (Nat × BitVec 16)
  deriving DecidableEq, Repr

/-- The part of a vector that one croft has rescaled: its outputs `first` to `first + count - 1`. -/
structure VectorPart where
  croft : CroftAt
  first : Nat
  count : Nat
  deriving DecidableEq, Repr

/-- The part of a gradient that one croft has rescaled: output and column scale ω of each element. -/
structure GradientPart where
  croft : CroftAt
  omega : List (Nat × BitVec 16)
  deriving DecidableEq, Repr

/-- How the scale of a staged vector comes about: fixed or reduced mode (R155), or the gradient of a mould-placed layer (R175). -/
inductive SigmaMode where
  | fixed (sigma : BitVec 16)
  | reduced (k : BitVec 16) (parts : List VectorPart)
  | gradient (parts : List GradientPart)
  deriving DecidableEq, Repr

/-- Staging (R156): outputs `first` to `first + count - 1` become A8 codes from activation pad row `row` on. -/
structure StageIn where
  mode : SigmaMode
  first : Nat
  count : Nat
  row : Nat
  deriving DecidableEq, Repr

/-- The rescale of the last promotion (R158, R172, R176): the activation pad row whose vector's σ it takes, ω of each column (of a row
of a transposed run: one), the adapter's contribution, and the staging of the outputs for the next layer. -/
structure RescaleIn where
  sigmaRow : Nat
  omega : List (Nat × BitVec 16)
  adapter : Option AdapterIn
  stage : Option StageIn
  deriving DecidableEq, Repr

/-- A factor of an outer product (R177): a rank element of the contraction, or an A8 code of the activation pad with its scale. -/
inductive Factor where
  | contracted (rank : Nat)
  | staged (act : Nat)
  deriving DecidableEq, Repr

/-- One outer product of a token, added to the binary32 sum at a store byte (R177). -/
structure OuterTerm where
  sum : Nat
  a : Factor
  b : Factor
  deriving DecidableEq, Repr

/-- A token's share of the adapter gradients (R177): contractions through the up matrix, then outer products. -/
structure GradientIn where
  context : Nat
  contraction : List D8Term
  terms : List OuterTerm
  deriving DecidableEq, Repr

/-- The promotion of a run (R159, R160, R176): up to 16 logical moulds of one croft, forward or transposed, the wide accumulator of
output 0, and the span; then what the croft program schedules after it on the same accumulators. -/
structure PromotionIn where
  croft : CroftAt
  run : List LogMould
  transposed : Bool
  acc : Nat
  span : Nat
  partials : List PartialSum
  d8 : List D8Term
  embed : Option EmbedIn
  rescale : Option RescaleIn
  gradient : Option GradientIn
  deriving DecidableEq, Repr

/-- One adapter weight updated at the end of a micro-batch (R178): its line and byte, the store byte of its gradient sum (R177), and
its column scale. -/
structure UpdateItem where
  croft : CroftAt
  line : Fin 1024
  byte : Fin 256
  gradient : Nat
  omega : BitVec 16
  deriving DecidableEq, Repr

/-- The probe's readings of one logical column (R131): for each of the 32 vectors of the cast probe set, the codes of its two
applications. -/
structure ColumnProbe where
  column : Fin 262
  readings : List (Int × Int)
  deriving DecidableEq, Repr

/-- A pack vector's pass under probe (R131, R495): entry of the pack, second application, and the codes of the logical columns whose
result departs from the ideal one. -/
structure PackPass where
  entry : Nat
  again : Bool
  codes : List (Nat × Int)
  deriving DecidableEq, Repr

/-- The end of a row group's pulse-and-verify rounds (R76, R77): the mould's span (R55), the row group's image of 8,448 bytes as it was
streamed (R48; a byte that is not listed is zero), and the physical columns with a cell still outside its band after 48 rounds. -/
structure RowGroupIn where
  croft : CroftAt
  mould : PhysMould
  span : Nat
  image : List (Fin 8448 × BitVec 8)
  failed : List (Fin 278)
  poisoned : Bool
  deriving DecidableEq, Repr

/-- Statistics of a column under the cast probe set, in codes at 8-bit scale (log 48). -/
structure ColumnStat where
  column : Fin 262
  mean : Int
  spread : Int
  deriving DecidableEq, Repr

/-- Coefficients of one bank (R101, R102), terms in their encodings; sparse tables hold the converters away from neutral. -/
structure CoefSet where
  gk : Table Nat := []
  ok : Table Int := []
  gr : Table Nat := []
  or : Table Int := []
  g45 : Int := 0
  o45 : Int := 0
  thetaG : Nat := 0
  tG : Nat := 0
  /-- the code that a gain entry which is not listed has: neutral, or zero in a store that has been zero-filled (R217) -/
  base : Nat := 128
  deriving DecidableEq, Repr, Inhabited

/-- One reference sample of a gauging run (R107, R109): sum of the applied codes, even minus odd row sum, the corrected
readings of REF0 to REF3, the latched temperature and its time. -/
structure RefSample where
  sx : Int
  sOdd : Int
  ref : List Rat
  theta : Int
  time : Nat
  deriving DecidableEq, Repr

/-- A gauging run (R107): reference samples, readings of converter passes at the two levels, sums of squares, the temperature latched
at its first sample (R114) and the time of its last (R112). -/
structure GaugeRun where
  samples : List RefSample := []
  colLow : List (List (Nat × Int)) := []
  colHigh : List (List (Nat × Int)) := []
  rowLow : List (List (Nat × Int)) := []
  rowHigh : List (List (Nat × Int)) := []
  squares : Table Rat := []
  firstTheta : Option Int := none
  lastTime : Nat := 0
  deriving DecidableEq, Repr

/-- The quick gauging check of one mould (R398), measured once the die's diodes have been read (R397): the two runs of each attempt in order, and the columns' readings under the cast probe
set. -/
structure QuickCheck where
  croft : CroftAt
  mould : PhysMould
  attempts : List (GaugeRun × GaugeRun)
  columns : List ColumnProbe
  deriving DecidableEq, Repr

/-- The close of a cast (R76 to R79, R88): spares that failed in spare casting, columns that failed the closing verify,
the statistics of the characterise phase and the first set it gives (R115; its temperature and time are the croft's own),
and the cast date host software supplied. -/
structure CastCloseIn where
  croft : CroftAt
  mould : PhysMould
  spareFailed : List (Fin 16)
  verifyFailed : List (Fin 278)
  stats : List ColumnStat
  firstSet : CoefSet
  castDate : Nat
  deriving DecidableEq, Repr

/-! ### Croft and die memory operands -/

/-- Where a scheduled read found a parity error (R204). -/
inductive ParityPlace where
  | actPad (croft : CroftAt) (row : Fin 256) (word : Fin 64)
  | psPad (croft : CroftAt) (row : Fin 128) (word : Fin 64)
  | granary (die : DieId) (slice : SliceId) (row : Fin 2048) (word : Fin 64)
  deriving DecidableEq, Repr

/-- The holder of a lease (R484): of a slice the reeve or a DMA channel of the die's hub (R258, R261), of every other resource one hub
control core. -/
inductive Holder where
  | reeve
  | dma (channel : Nat)
  | core (c : Fin 16)
  deriving DecidableEq, Repr

/-- A leased resource (R484). -/
inductive Leased where
  | slice (die : DieId) (slice : SliceId)
  | engine (hub : HubId) (engine : Fin 64)
  | channel (hub : HubId) (channel : Nat)
  | tableLock (hub : HubId)
  | commonsLock
  deriving DecidableEq, Repr

/-- A direction of a router's link. -/
inductive LinkDir where
  | north | south | east | west | local
  deriving DecidableEq, Repr

/-! ### Pattern images (R234) -/

/-- A window a croft program schedules (section 0x0003): logical croft, mould, stage, active rows and delivery time. -/
structure WindowPlan where
  row : Fin 32
  lcol : Fin 32
  mould : LogMould
  stage : Nat
  firstRow : Nat
  rows : Nat
  deliverNs : Nat
  /-- smithy cycles reserved for stand-in columns and for riser residuals (R136) -/
  standins : Nat := 8
  residuals : Nat := 32
  deriving DecidableEq, Repr

/-- The pattern-region image of a logical croft (section 0x0004): its length and its lines. -/
structure RegionImage where
  row : Fin 32
  lcol : Fin 32
  bytes : Nat
  lines : List (Nat × BitVec 8)
  deriving DecidableEq, Repr

/-- The hot rows of a logical mould (section 0x0005), and the store byte from which the pattern region holds their W4 copies, 128 bytes
each, in the order of the rows (R120, R186). -/
structure HotRows where
  row : Fin 32
  lcol : Fin 32
  mould : LogMould
  rows : List Nat
  copies : Nat
  deriving DecidableEq, Repr

/-- A scheduled buffer (section 0x0006): cycles of its writes, each with the data's origin outside the croft, and of its reads. -/
structure BufferPlan where
  writes : List (Nat × Bool)
  reads : List Nat
  deriving DecidableEq, Repr

/-- Rows and lines that hold a lane's state at a stage (section 0x0007). -/
structure LaneRows where
  lane : Nat
  stage : Nat
  row : Fin 32
  lcol : Fin 32
  act : List Nat
  ps : List Nat
  lines : List Nat
  gran : List (Nat × Nat)
  deriving DecidableEq, Repr

/-- An owned range of granary rows of a slice (section 0x0008, R192). -/
structure OwnedRange where
  slice : SliceId
  first : Nat
  last : Nat
  deriving DecidableEq, Repr

/-- An attention exchange (R296): its send cycle and return cycle, ns after the bell that opens the round. -/
structure ExchangePlan where
  stage : Nat
  layer : Nat
  sendNs : Nat
  returnNs : Nat
  deriving DecidableEq, Repr

/-- A place a scheduled transfer reads or writes: one row of a pad of a logical croft, one granary row, or one column line of a
granary block (R181, R190, R233). -/
inductive RowPlace where
  | act (row : Fin 32) (lcol : Fin 32) (pad : Nat)
  | ps (row : Fin 32) (lcol : Fin 32) (pad : Nat)
  | gran (slice : SliceId) (row : Nat)
  | column (slice : SliceId) (block : Nat) (elem : Nat)
  deriving DecidableEq, Repr

/-- A scheduled transfer of one row or column line on the die (R180, R228): the FCLK cycle in which it has arrived. -/
structure TransferPlan where
  cycle : Nat
  src : RowPlace
  dst : RowPlace
  deriving DecidableEq, Repr

/-- A cross-die transfer (section 0x0009): the die module that carries it (R418), the other die, whether this die sends it, its place
here and there, send time and length. -/
structure CrossPlan where
  module : Nat
  peer : Nat
  sends : Bool
  place : RowPlace
  far : RowPlace
  sendNs : Nat
  bytes : Nat
  deriving DecidableEq, Repr

/-- A crossbar connection (section 0x0002, R229): FCLK cycle, row-end port, slice port, direction, access kind (R190). -/
structure CrossbarPlan where
  cycle : Nat
  port : Nat
  slice : Nat
  toSlice : Bool
  column : Bool
  deriving DecidableEq, Repr

/-- A scheduled flit at a router output (section 0x0001): FCLK cycle, physical position, output port and the input that drives it
(0 north, 1 south, 2 east, 3 west, 4 local). -/
structure FlitPlan where
  cycle : Nat
  row : Nat
  col : Nat
  port : Nat
  input : Nat := 4
  deriving DecidableEq, Repr

/-- A run of a croft program and its promotion (section 0x0003, R159, R160): the moulds it sums, the wide accumulator of output 0, and
the time of the promotion after the bell. -/
structure RunPlan where
  row : Fin 32
  lcol : Fin 32
  stage : Nat
  moulds : List LogMould
  acc : Nat
  promoteNs : Nat
  deriving DecidableEq, Repr

/-- A staging of a croft program (R156): first activation row, element count, and which scale of section 0x000B it takes. -/
structure StagePlan where
  row : Fin 32
  lcol : Fin 32
  stage : Nat
  first : Nat
  count : Nat
  scale : Nat
  deriving DecidableEq, Repr

/-- The part of a vector that a logical croft produces: its outputs `first` to `first + count - 1` (R155). -/
structure VectorPlan where
  row : Fin 32
  lcol : Fin 32
  first : Nat
  count : Nat
  deriving DecidableEq, Repr

/-- σ of a staged vector (section 0x000B, R155): fixed, or reduced with its constant k over the parts that its crofts produce. -/
inductive ScalePlan where
  | fixed (sigma : BitVec 16)
  | reduced (k : BitVec 16) (parts : List VectorPlan)
  deriving DecidableEq, Repr

/-- The span of a logical mould (section 0x000B). -/
structure SpanPlan where
  row : Fin 32
  lcol : Fin 32
  mould : LogMould
  span : Nat
  deriving DecidableEq, Repr

/-- ω of the output columns that a logical croft sums from a wide accumulator on (section 0x000B, R157, R158). -/
structure OmegaPlan where
  row : Fin 32
  lcol : Fin 32
  acc : Nat
  omega : List (Nat × BitVec 16)
  deriving DecidableEq, Repr

/-- Store lines of a logical croft that are assigned to tempering jobs (R219, R220): adapter lines and gradient lines. -/
structure JobPlan where
  row : Fin 32
  lcol : Fin 32
  lines : List Nat
  deriving DecidableEq, Repr

/-- A directory entry of the header (R234). -/
structure SectionRef where
  kind : Nat
  offset : Nat
  length : Nat
  deriving DecidableEq, Repr

/-- The part of the model that a pattern's dies run in role 4 (R25). -/
inductive PackagePart where
  | prefill | generation
  deriving DecidableEq, Repr, Inhabited

/-- The pattern image as it lies in memory: header (R234) and sections. -/
structure PatternImage where
  formatVersion : Nat
  dieRevision : Nat
  role : Nat
  memMode : Nat
  dieIndex : Nat
  firstStage : Nat
  stageCount : Nat
  lanes : Nat
  cycles : Nat
  quench : Nat
  minBell : Nat
  detourHops : Nat
  slack : Nat
  sectionCount : Nat
  generation : Nat
  ingotDigest : Nat
  imageDigest : Nat
  /-- the engine address from which the image was read, and its length -/
  base : Nat := 0
  size : Nat := 0
  /-- the directory: type, offset and length of each section -/
  sections : List SectionRef
  windows : List WindowPlan
  regions : List RegionImage
  hot : List HotRows
  buffers : List BufferPlan
  laneMap : List LaneRows
  owned : List OwnedRange
  powerAct : BitVec 4
  powerPs : BitVec 2
  powerGran : List (Nat × BitVec 8)
  flits : List FlitPlan
  crossbar : List CrossbarPlan
  /-- the transfers that flits and connections carry, by cycle -/
  transfers : List TransferPlan
  /-- section 0x0009 -/
  crossDie : List CrossPlan
  /-- of section 0x0003, beside the windows -/
  runs : List RunPlan
  staging : List StagePlan
  /-- of section 0x000B: scales of staged vectors, spans of moulds, ω of output columns -/
  scales : List ScalePlan
  spans : List SpanPlan := []
  omegas : List OmegaPlan := []
  /-- the assumed A8 share (section 0x000A), binary32 -/
  a8Share : BitVec 32
  /-- send time of each cross-die transfer, ns after the bell -/
  sendsNs : List Nat
  exchanges : List ExchangePlan
  /-- energy of one lane-step of each stage at 0, 15, 30, 45, 60, 75, 90 and 105 °C, nJ -/
  predictions : List (List Nat)
  leakNj : Nat
  /-- spans of the moulds that are summed into one output column (R157) -/
  spanGroups : List (List Nat)
  /-- column scales of the row blocks of one output column (R157) -/
  omegaGroups : List (List (BitVec 16))
  /-- physical crofts the pattern must not use (section 0x000C) -/
  blocked : List (Nat × Nat)
  /-- the largest number of open rows per slice the hub may assign to sessions (R219) -/
  openRows : Nat
  /-- store lines of each logical croft that are assigned to tempering jobs -/
  jobLines : List JobPlan
  /-- the part of a role 4 package that the pattern serves (R25; log 44) -/
  part : PackagePart
  deriving DecidableEq, Repr, Inhabited

/-- A pattern image that a pattern table names (R332): die, engine address, length in 4 KiB units, image. -/
structure PatternRef where
  die : Nat
  base : Nat
  len4k : Nat
  image : PatternImage
  deriving DecidableEq, Repr

/-! ### Attention operands -/

/-- A staged key or value head vector (R153): scale byte and codes. -/
structure HeadVec where
  scale : Nat
  codes : List Int
  deriving DecidableEq, Repr

/-- A staged query (R268): the key-value head it attends with, position, scale and codes. -/
structure Query where
  head : Nat
  position : Nat
  sigma : BitVec 16
  codes : List Int
  deriving DecidableEq, Repr

/-- A query head vector as the smithy has computed it, and the pad row that takes its output (R268, R283). -/
structure QueryIn where
  head : Nat
  position : Nat
  /-- 128 binary32 elements -/
  elements : List (BitVec 32)
  out : RowPlace
  deriving DecidableEq, Repr

/-- New key and value of one position and key-value head. -/
structure NewKV where
  head : Nat
  position : Nat
  /-- binary32 elements, which the smithy encodes under R153 -/
  key : List (BitVec 32)
  value : List (BitVec 32)
  deriving DecidableEq, Repr

/-- The data of an attention exchange (R296). -/
structure ExchangeIn where
  step : Nat
  /-- the die that sends the exchange and takes its outputs -/
  die : DieId
  layer : Nat
  tau : BitVec 16
  queries : List QueryIn
  kv : List NewKV
  deriving DecidableEq, Repr

/-- An online-softmax partial state (R278); `none` stands for a maximum of minus infinity. -/
structure SoftState where
  m : Option (BitVec 32)
  l : BitVec 32
  acc : List (BitVec 32)
  poison : Bool
  deriving DecidableEq, Repr

/-- One page of a remote request (R316). -/
structure RemotePage where
  page : Nat
  keyFirst : Nat
  keyCount : Nat
  firstPosition : Nat
  deriving DecidableEq, Repr

/-- A remote attention request as it arrives at a store package (R316). -/
structure AttnReqIn where
  hub : HubId
  tag : Nat
  source : Nat
  storeEpoch : Nat
  layer : Nat
  head : Nat
  kv8 : Bool
  tau : BitVec 16
  window : Nat
  floor : Nat
  queries : List Query
  pages : List RemotePage
  /-- the hub can queue the request (R319) -/
  canQueue : Bool
  deriving DecidableEq, Repr

/-! ### Commands of the intake windows (R332) -/

/-- The header of a command: sequence number, cookie, and whether a reserved byte is not zero. -/
structure CmdHead where
  seq : Nat
  cookie : Nat
  reservedSet : Bool
  deriving DecidableEq, Repr

structure OpenBody where
  context : Nat
  tenant : Nat
  cls : Nat
  kvFormat : Nat
  share : Nat
  outRing : Nat
  capacity : Nat
  temperature : BitVec 16
  topK : Nat
  seed : Nat
  stopAddr : Nat
  deriving DecidableEq, Repr

structure PromptBody where
  context : Nat
  flags : Nat
  adapter : Nat
  tokenCount : Nat
  tokenAddr : Nat
  floor : Nat
  deadline : Nat
  deriving DecidableEq, Repr

structure GenerateBody where
  context : Nat
  adapter : Nat
  maxNew : Nat
  floor : Nat
  deadline : Nat
  deriving DecidableEq, Repr

structure DraftBody where
  context : Nat
  adapter : Nat
  draftCount : Nat
  draftAddr : Nat
  floor : Nat
  deadline : Nat
  deriving DecidableEq, Repr

structure AdapterLoadBody where
  handle : Nat
  length : Nat
  imageAddr : Nat
  deriving DecidableEq, Repr

structure IngotStageBody where
  generation : Nat
  ingotAddr : Nat
  ingotLen : Nat
  patternTable : Nat
  deriving DecidableEq, Repr

structure MigrateOutBody where
  context : Nat
  package : Nat
  tag : Nat
  deriving DecidableEq, Repr

structure MigrateInBody where
  context : Nat
  package : Nat
  tag : Nat
  outRing : Nat
  deriving DecidableEq, Repr

structure TemperBody where
  context : Nat
  handle : Nat
  tenant : Nat
  cls : Nat
  microBatches : Nat
  dataAddr : Nat
  batch : Nat
  dataLen : Nat
  rate : BitVec 32
  seed : Nat
  interval : Nat
  deriving DecidableEq, Repr

/-- A decoded command body; `unknown` is an opcode outside the table of R332. -/
inductive Body where
  | openS (b : OpenBody)
  | prompt (b : PromptBody)
  | generate (b : GenerateBody)
  | draft (b : DraftBody)
  | stop (context : Nat)
  | cancel (context : Nat)
  | close (context : Nat)
  | adapterLoad (b : AdapterLoadBody)
  | adapterDrop (handle : Nat)
  | ingotStage (b : IngotStageBody)
  | genSwitch (generation : Nat)
  | migrateOut (b : MigrateOutBody)
  | migrateIn (b : MigrateInBody)
  | temper (b : TemperBody)
  | unknown (opcode : Nat)
  deriving DecidableEq, Repr

/-! ### Images the lockhouse verifies -/

/-- One layer of a model's shape: `none` for a global layer, `some w` for a sliding window of `w` tokens. -/
structure ModelShape where
  layers : List (Option Nat)
  kvHeads : Nat
  /-- query heads that share a key-value head -/
  group : Nat := 1
  deriving DecidableEq, Repr, Inhabited

/-- The decrypted body of an ingot as R150 reads it: W4 weights, D8 weights, ω values and the spans of the moulds. -/
structure IngotBody where
  w4 : List (BitVec 4)
  d8 : List (BitVec 8)
  omegas : List (BitVec 16)
  spans : List Nat
  deriving DecidableEq, Repr

/-- What the lockhouse finds in the body of an ingot, whose layout the spec leaves to the compiler (log 3): its values, the shape of
the model, and the pattern image of each die that the pattern table names. Header, signature and wraps lie in memory (R522). -/
structure IngotImage where
  body : IngotBody
  shape : ModelShape
  patterns : List PatternRef
  deriving DecidableEq, Repr

/-- What the lockhouse finds in the body of an adapter image (R527): it modifies a key or value projection; the projections it modifies
exist in the base with matching shapes. -/
structure AdapterImage where
  modifiesKV : Bool
  shapesMatch : Bool
  deriving DecidableEq, Repr

/-- One entry of a probe pack (R492). -/
structure PackEntry where
  moulds : BitVec 18
  castsMin : Nat
  castsMax : Nat
  tempMin : Nat
  tempMax : Nat
  rowMin : Nat
  rowMax : Nat
  witTol : Nat
  refTol : Nat
  /-- 1,024 unsigned 4-bit codes in row order, two per byte -/
  vector : List (BitVec 8)
  deriving DecidableEq, Repr, Inhabited

/-- The doorbell of a firmware bundle (R411, R516): its engine address and length; with it, what the self-tests of the start found
(R255, R397, R476, R489, R569). -/
structure Bundle where
  addr : Nat
  length : Nat
  /-- crofts that fail their start self-test, routers that fail theirs (R255) -/
  badCrofts : List CroftAt
  badRouters : List CroftAt
  /-- stacks that failed training or self-test, with the failed start step (R476) -/
  badStacks : List (StackId × Nat)
  /-- rows that fail the cold-start march or retention test (R569) -/
  badRows : List ParityPlace
  /-- what the quick gauging check measures (R397, R398) -/
  quick : List QuickCheck
  /-- verdict CLEAR of the start probe of a mould that left service (R489) -/
  clearMoulds : List (CroftAt × PhysMould)
  deriving DecidableEq, Repr

/-- The certificate chain of a request of kind 1: X.509 certificates, whose bytes R512 leaves to RFC 5280. A report takes nothing
from here. -/
structure ReportIn where
  bytes : List (BitVec 8)
  deriving DecidableEq, Repr

/-! ### Link operands -/

/-- A UCIe module of the package: a steward module or a die-side module. -/
inductive ModuleAt where
  | steward (h : HubId)
  | die (d : DieId) (m : Fin 2)
  deriving DecidableEq, Repr

/-- A header unit of 64 bytes (R413), byte 0 lowest. -/
structure UnitHead where
  header : BitVec 512
  deriving DecidableEq, Repr

/-- `n` bytes of a header from byte `o` on, little-endian (R413). -/
def UnitHead.bytes (u : UnitHead) (o n : Nat) : Nat := u.header.toNat / 2 ^ (8 * o) % 2 ^ (8 * n)

/-- Byte 0 (R414). -/
def UnitHead.kind (u : UnitHead) : Nat := u.bytes 0 1
/-- Flag [0] of byte 1: the data unit that follows is poisoned. -/
def UnitHead.poison (u : UnitHead) : Bool := (u.bytes 1 1).testBit 0
/-- Flag [1] of byte 1. -/
def UnitHead.posted (u : UnitHead) : Bool := (u.bytes 1 1).testBit 1
/-- Bytes 2–3: the requester's tag. -/
def UnitHead.tag (u : UnitHead) : Nat := u.bytes 2 2
/-- Byte 4: 0–3 a steward module, 0x10 + h hub h, 0x20 + d die d. -/
def UnitHead.source (u : UnitHead) : Nat := u.bytes 4 1
/-- Byte 5, encoded as the source. -/
def UnitHead.destination (u : UnitHead) : Nat := u.bytes 5 1
/-- Byte 6, of responses. -/
def UnitHead.status (u : UnitHead) : Nat := u.bytes 6 1
/-- Bytes 8–13: the 48-bit engine address. -/
def UnitHead.addr (u : UnitHead) : Nat := u.bytes 8 6
/-- Bytes 16–23: WR8 data, RSP data of RD8, or the body of INTR and CRD. -/
def UnitHead.inline (u : UnitHead) : Word := BitVec.ofNat 64 (u.bytes 16 8)
/-- Bytes 24–27: the lease epoch of a leased access. -/
def UnitHead.epoch (u : UnitHead) : Nat := u.bytes 24 4
/-- A byte or bit of the header that is sent as zero is not. -/
def UnitHead.reservedSet (u : UnitHead) : Bool :=
  u.bytes 1 1 / 4 != 0 || u.bytes 7 1 != 0 || u.bytes 14 2 != 0 || u.bytes 28 36 != 0

/-- The header of a unit from its fields. -/
def UnitHead.make (kind tag addr : Nat) (flags : Nat := 0) (source : Nat := 0) (destination : Nat := 0) (status : Nat := 0)
    (inline : Word := 0) (epoch : Nat := 0) : UnitHead :=
  ⟨BitVec.ofNat 512 (kind % 2 ^ 8 + 2 ^ 8 * (flags % 2 ^ 8) + 2 ^ 16 * (tag % 2 ^ 16) + 2 ^ 32 * (source % 2 ^ 8) +
    2 ^ 40 * (destination % 2 ^ 8) + 2 ^ 48 * (status % 2 ^ 8) + 2 ^ 64 * (addr % 2 ^ 48) + 2 ^ 128 * inline.toNat + 2 ^ 192 * (epoch % 2 ^ 32))⟩

/-- The end of a module that sends a unit: the hub's, or the steward's or die's at the far end (R415). -/
inductive ModuleEnd where
  | hub | far
  deriving DecidableEq, Repr

/-- A module that needed redundant lanes when it trained, or could not train with all 64 lanes (R407): failing lanes in each direction. -/
structure Training where
  module : ModuleAt
  txFailed : Nat
  rxFailed : Nat
  deriving DecidableEq, Repr

/-- A Kyrok flit that carries message bytes (R430): its VL, its kind (1 START, 2 MIDDLE, 3 END, 4 ONLY) and its payload bytes 0 to 248. -/
structure Flit where
  vl : Bool
  kind : Nat
  payload : List (BitVec 8)
  deriving DecidableEq, Repr

/-- A Kyrok flit on its way (R430, R431): its header byte and its 249 payload bytes as they were sent, and the bytes of its 256 whose symbols
arrive in error (the check symbols are no operand: the spec names no field and no generator of RS(128,125), log 3). `replay` says that
the far sender's replay begins with this flit (R432). -/
structure FlitIn where
  port : PortId
  header : BitVec 8
  payload : List (BitVec 8)
  errors : List (Fin 256)
  replay : Bool
  deriving DecidableEq, Repr

/-- A CTRL flit (R430): its bytes 1 to 16. -/
structure CtrlFlit where
  port : PortId
  bytes : List (BitVec 8)
  deriving DecidableEq, Repr

/-- What a join message carries (R443): the sender's number, its report, its X448 key share, whether Aeldoern's certificate covers the
report's identity key and that key the message (an X.509 chain, log 3); a reply also brings the domain key wrapped under the shared
secret, and the members of the domain. -/
structure JoinReport where
  package : Fin 256
  certified : Bool
  report : List (BitVec 8)
  share : List (BitVec 8)
  wrapped : List (BitVec 8) := []
  members : List (Fin 256) := []
  deriving DecidableEq, Repr

/-- A session as a migration manifest carries it (R447). -/
structure Manifest where
  source : Fin 256
  /-- the session's entry on the source -/
  context : Nat
  tag : Nat
  generation : Nat
  kvTag : Nat
  tenant : Nat
  cls : Nat
  kv8 : Bool
  pub : Bool
  capacity : Nat
  temperature : BitVec 16
  topK : Nat
  seed : Nat
  floor : Nat
  committed : Nat
  pendingToken : Option Nat
  /-- the adapter tag of its first turn, whether turns of another tag followed (R309), and whether references were lost (R358) -/
  firstTag : Option Nat
  mixed : Bool
  remoteLost : Bool
  endTokens : List Nat
  stopSeqs : List (List Nat)
  tokenLog : List Nat
  /-- page table: index, package, low 16 bits of its store epoch, page; the source's own pages name the source (R447) -/
  table : List (Nat × Nat × Nat × Nat)
  deriving DecidableEq, Repr

/-- A step as its outputs reach the commit unit: at each position of the step the model's output distribution, one binary32 value per
token of the vocabulary (R327). -/
structure StepOut where
  step : Nat
  outputs : List (List (BitVec 32))
  deriving DecidableEq, Repr

/-- What reaches the hubs at a bell besides their own state. -/
structure BellIn where
  outs : List StepOut
  selfCheckFailed : List CroftAt
  /-- what the quick gauging check of R26 measures, when a role change at this bell asks for it -/
  quick : List QuickCheck
  deriving DecidableEq, Repr

/-! ### The commands -/

/-- One constructor per row of the opcode table; each docstring names the row's rule. -/
inductive Instr where
  /-- R349 -/ | bell (b : BellIn)
  /-- R220 -/ | quenchInterval (die : DieId)
  /-- R61 -/ | forwardWindow (w : WindowIn)
  /-- R64 -/ | windowDelivery (croft : CroftAt) (mould : LogMould)
  /-- R160 -/ | runPromotion (p : PromotionIn)
  /-- R72 -/ | transposedWindow (w : TransposedIn)
  /-- R178 -/ | microBatchUpdate (context : Nat) (items : List UpdateItem) (nextOffset : Nat)
  /-- R498 -/ | checkpointDone (context : Nat)
  /-- R133 -/ | probeVerdict (croft : CroftAt) (mould : PhysMould) (columns : List ColumnProbe) (packs : List PackPass)
  /-- R134 -/ | standinCopyArrive (croft : CroftAt) (mould : PhysMould) (column : Fin 262) (copy : List (Nat × Int)) (poisoned : Bool)
  /-- R108 -/ | gaugeConverterPass (croft : CroftAt) (mould : PhysMould) (rowConverters high : Bool) (readings : List (Nat × Int))
  /-- R109 -/ | gaugeRunEnd (croft : CroftAt) (mould : PhysMould)
  /-- R77 -/ | castRowGroupEnd (g : RowGroupIn)
  /-- R88 -/ | castClose (c : CastCloseIn)
  /-- R204 -/ | padParityError (place : ParityPlace) (step : Nat)
  /-- R212 -/ | storeParityError (croft : CroftAt) (line : Fin 1024) (word : Fin 32) (step : Nat)
  /-- R230 -/ | flitParityError (router : CroftAt) (link : LinkDir) (step : Nat)
  /-- R483 -/ | footpathParityError (router : CroftAt) (link : LinkDir)
  /-- R252 -/ | detourFit (die : DieId) (row : Fin 32)
  /-- R247 -/ | mark (croft : CroftAt)
  /-- R248 -/ | barrier (die : DieId) (number : Nat) (members : List CroftAt) (member : CroftAt)
  /-- R196 -/ | narrowRead (die : DieId) (addr len epoch : Nat) (requester : Holder) (parityError : Bool)
  /-- R197; `context` is the session or job for which hub firmware writes the row, when it writes for one -/ | narrowWrite (die : DieId) (addr epoch : Nat) (data : List (BitVec 8)) (requester : Holder) (context : Option Nat)
  /-- R197 -/ | gatherWriteback (die : DieId) (entry : Fin 4)
  /-- R258 -/ | leaseRequest (resource : Leased) (holder : Holder) (termUs : Nat)
  /-- R258 -/ | leaseRenewal (resource : Leased) (holder : Holder) (termUs : Nat)
  /-- R259 -/ | leaseRelease (resource : Leased) (holder : Holder)
  /-- R259 -/ | leaseExpiry (resource : Leased)
  /-- R296 -/ | attnExchangeArrival (x : ExchangeIn)
  /-- R295 -/ | kvWriteAck (step layer : Nat)
  /-- R278 -/ | descriptorRun (hub : HubId) (engine : Fin 64)
  /-- R281 -/ | partialMerge (hub : HubId) (qset : Nat)
  /-- R298 -/ | releaseTime (hub : HubId) (qset : Nat)
  /-- R316 -/ | attnReq (r : AttnReqIn)
  /-- R317 -/ | attnRsp (hub : HubId) (tag status : Nat) (partials : List SoftState)
  /-- R319 -/ | attnBusy (hub : HubId) (tag : Nat)
  /-- R320 -/ | leaseRenew (source : Fin 256) (storeEpoch : Nat) (pages : List Nat)
  /-- R320 -/ | remoteRenewTimer (store : Fin 256)
  /-- R320 -/ | remoteRefExpiry (holder : Fin 256)
  /-- R307 -/ | commonsLookup (context : Nat)
  /-- R312 -/ | commonsEvict
  /-- R338 -/ | openSession (w : WinId) (h : CmdHead) (b : OpenBody)
  /-- R324 -/ | prompt (w : WinId) (h : CmdHead) (b : PromptBody)
  /-- R325 -/ | generate (w : WinId) (h : CmdHead) (b : GenerateBody)
  /-- R325 -/ | draft (w : WinId) (h : CmdHead) (b : DraftBody)
  /-- R355 -/ | stop (w : WinId) (h : CmdHead) (context : Nat)
  /-- R356 -/ | cancel (w : WinId) (h : CmdHead) (context : Nat)
  /-- R358 -/ | close (w : WinId) (h : CmdHead) (context : Nat)
  /-- R360 -/ | adapterLoad (w : WinId) (h : CmdHead) (b : AdapterLoadBody)
  /-- R360 -/ | adapterVerified (handle : Nat) (image : AdapterImage)
  /-- R360 -/ | adapterDrop (w : WinId) (h : CmdHead) (handle : Nat)
  /-- R363 -/ | ingotStage (w : WinId) (h : CmdHead) (b : IngotStageBody)
  /-- R524 -/ | ingotStageVerified (image : IngotImage)
  /-- R364 -/ | genSwitch (w : WinId) (h : CmdHead) (generation : Nat)
  /-- R366 -/ | migrateOut (w : WinId) (h : CmdHead) (b : MigrateOutBody)
  /-- R366 -/ | migrateIn (w : WinId) (h : CmdHead) (b : MigrateInBody)
  /-- R334 -/ | temper (w : WinId) (h : CmdHead) (b : TemperBody)
  /-- R336; ring 0 is the response ring, ring n + 1 is output ring n -/ | respRelease (w : WinId) (ring : Fin 9) (v : Word)
  /-- R335 -/ | respCfg (w : WinId) (ring : Fin 9) (v : Word)
  /-- R348 -/ | nextSeq (w : WinId) (v : Word)
  /-- R22 -/ | sysRole (v : Word)
  /-- R241 -/ | bellNs (v : Word)
  /-- R558 -/ | partSize (v : Word)
  /-- R401 -/ | dormantEnter (v : Word)
  /-- R401 -/ | dormancyAck
  /-- R570 -/ | warmReset (v : Word)
  /-- R570 -/ | warmResetReady
  /-- R494 -/ | packLoadGo (v : Word)
  /-- R493 -/ | packLoadClear (v : Word)
  /-- R200 -/ | memMode (die : DieId) (v : Word)
  /-- R236 -/ | patLoadGo (die : DieId) (v : Word) (image : PatternImage)
  /-- R240 -/ | patLoadUnload (die : DieId) (v : Word)
  /-- R238; `epoch` is the one the load's messages carry -/ | loadComplete (die : DieId) (epoch : Nat)
  /-- R256 -/ | fenceReq (die : DieId) (v : Word)
  /-- R504 -/ | recastMould (die : DieId) (v : Word)
  /-- R503 -/ | recastAll (die : DieId) (v : Word)
  /-- R555 -/ | gaugeForce (die : DieId) (v : Word)
  /-- R556 -/ | histSel (die : DieId) (v : Word)
  /-- R259 -/ | leaseRevoke (die : DieId) (v : Word)
  /-- R350 -/ | tenantBudget (tenant : Fin 4096) (v : Word)
  /-- R382 -/ | classLimit (v : Word)
  /-- R554 -/ | debtClear (v : Word)
  /-- R391 -/ | senseApply (conv : Fin 20) (v : Word)
  /-- R392 -/ | senseUrgent (conv : Fin 20) (v : Word)
  /-- R394 -/ | ringCfg (conv : Fin 20) (v : Word)
  /-- R395 -/ | ringRd (conv : Fin 20) (v : Word)
  /-- R314 -/ | commonsPool (v : Word)
  /-- R454 -/ | stackStage (stack : StackId) (n : Fin 4) (v : Word)
  /-- R472 -/ | stackInject (stack : StackId) (v : Word)
  /-- R519 -/ | fuseRollback (v : Word)
  /-- R530 -/ | lockAttest (hub : HubId) (v : Word)
  /-- R531 -/ | attestReportDone (r : ReportIn)
  /-- R538 -/ | ownerTransfer (hub : HubId) (v : Word)
  /-- R538 -/ | pubWrite (hub : HubId) (v : Word)
  /-- R538 -/ | pubRevoke (hub : HubId) (v : Word)
  /-- R542 -/ | debugAuth (hub : HubId) (v : Word)
  /-- R538 -/ | tokenBurnDone
  /-- R443 -/ | domainJoin (hub : HubId) (v : Word)
  /-- R541 -/ | domainLeave (hub : HubId) (v : Word)
  /-- R576; pins 0 to 7 are digital, 8 and 9 analogue -/ | tmuxSelect (pin : Fin 10) (v : Word)
  /-- R547; the page by its engine address -/ | errStatusClear (page : Nat) (v : Word)
  /-- R559 -/ | intrFifoRead (tag : Nat)
  /-- R11 -/ | registerWrite (phys : Nat) (width : Nat) (v : Word)
  /-- R414 -/ | rd8 (u : UnitHead)
  /-- R414 -/ | wr8 (u : UnitHead)
  /-- R414 -/ | rd64 (u : UnitHead)
  /-- R414 -/ | wr64 (u : UnitHead) (data : List (BitVec 8))
  /-- R414 -/ | pw64 (u : UnitHead) (data : List (BitVec 8))
  /-- R414 -/ | rsp (module : HubId) (u : UnitHead)
  /-- R417 -/ | rspd (module : HubId) (u : UnitHead) (data : List (BitVec 8))
  /-- R559 -/ | intr (hub : HubId) (identity : BitVec 16)
  /-- R421 -/ | snoop (hub : HubId) (line : Nat) (forWrite : Bool)
  /-- R421 -/ | snoopRsp (hub : HubId) (line : Nat) (dirty : Option (List (BitVec 8)))
  /-- R415 -/ | crd (mod : ModuleAt) (sender : ModuleEnd) (nonPosted posted : Nat)
  /-- R418; `entry` is the transfer of section 0x0009 whose slot the unit takes, `offset` the place of its data in it -/ | xfer (mod : ModuleAt) (step entry offset : Nat) (parityBad : Bool)
  /-- R416 -/ | completionTimeout (module : HubId) (tag : Nat)
  /-- R408; with the tags of the non-posted requests and of the responses that the retrain lost (R410) -/ | ucieRetrain (mod : ModuleAt) (txFailed rxFailed : Nat) (lostRequests lostResponses : List Nat)
  /-- R517 -/ | bootDoorbell (b : Bundle)
  /-- R431 -/ | kyrokFlitReceive (f : FlitIn)
  /-- R432 -/ | kyrokCtrlFlit (f : CtrlFlit)
  /-- R432 -/ | ctrlFlitSend (port : PortId)
  /-- R429 -/ | laneRetire (port : PortId) (lane : Fin 8)
  /-- R437; `originated`: a message of this package to `destination` leaves, else the one that has arrived first at the port on the VL goes on -/ | kyrokForward (port : PortId) (originated : Bool) (destination : Fin 256) (vl : Bool)
  /-- R442 -/ | kyrokAuthDiscard (port : PortId) (vl : Bool)
  /-- R443 -/ | joinHello (port : PortId) (r : JoinReport)
  /-- R443 -/ | joinReply (r : JoinReport) (keyEpoch : Nat)
  /-- R444 -/ | domain (newMember : Option (Fin 256)) (leaver : Option (Fin 256)) (newKey : Option (List (BitVec 8) × Nat))
  /-- R443 -/ | joinTimeout
  /-- R444 -/ | keyEpochSwitch
  /-- R439 -/ | kyrokBarrier (number : Nat) (release : Bool) (source : Fin 256)
  /-- R446 -/ | rreadReq (source : Fin 256) (tag storeEpoch page first len : Nat)
  /-- R446 -/ | rreadRsp (port : PortId) (source : Fin 256) (tag status : Nat) (data : List (BitVec 8)) (poison : Bool)
  /-- R445 -/ | rreadTimeout (tag : Nat)
  /-- R447 -/ | migManifest (m : Manifest)
  /-- R447 -/ | migConfirm (context tag : Nat)
  /-- R447 -/ | migAbort (context tag : Nat) (code : Code)
  /-- R367 -/ | migrationTimeout (context : Nat)
  /-- R462 -/ | blankPage (stack : StackId) (page : Nat)
  /-- R469 -/ | sweepLine (stack : StackId)
  /-- R471 -/ | sweepLapAlarm (stack : StackId)
  /-- R478 -/ | stackFault (stack : StackId)
  /-- R481 -/ | hubFault (hub : HubId)
  /-- R467; the stack of the poisoned line and its number in the firmware area; `none` is the reeve of the die, else a core of the stack's hub -/ | coreFetchPoison (stack : StackId) (die : DieId) (core : Option (Fin 16)) (line : Nat)
  /-- R468 -/ | dmaPoisonHalt (hub : HubId) (channel : Nat) (sourcePage sourceAddr : Nat) (step : Nat)
  /-- R373 -/ | tallyWindowEnd (measuredNj : Nat)
  /-- R390 -/ | sensorConversion (conv : Fin 20) (value : BitVec 16)
  /-- R393 -/ | urgentResult (conv : Fin 20) (value : BitVec 16)
  /-- R34 -/ | timeAlign (skew : List Int) (reeveSkew : List Int)
  /-- R505 -/ | serviceStateEval
  /-- R566 -/ | pfailWarning (lowNs : Nat)
  /-- R567 -/ | rstFall (marksWritten : Bool)
  /-- R569 -/ | start (lowNs : Nat) (pcieRc entropyOk : Bool) (trained : List Training)
  /-- R564 -/ | railLoss (standbyLost : Bool)
  /-- R403 -/ | railsRemoved (standbyKept : Bool)
  /-- R403 -/ | wake (lowNs : Nat)
  /-- R230 -/ | slotTableParityError (router : CroftAt)
  /-- R443 -/ | kyrokPortTrained (port : PortId) (lanes : Nat) (peerPackage : Fin 256) (peerPort : PortId)
  deriving DecidableEq, Repr

end Sys2Proof
end

