-- ==== Sys2Proof/Machine/Hash.lean ====
section
/-!
DEFINITION. SHAKE256 (FIPS 202), which the spec names wherever it hashes: chained hashes (R304), keys and digests (R444, R511, R516, R521 to
R523). The sponge's 1,600 bits are one number: lane x of plane y is its bits 320 y + 64 x to 320 y + 64 x + 63, so bytes stand in it
little-endian and every step but the lane walk works on whole planes.
-/
namespace Sys2Proof.Machine

/-- A number of `w` bits turned left by `n`. -/
def turned (w n v : Nat) : Nat := (v <<< n ||| v >>> (w - n)) % 2 ^ w

/-- `v` written once in each of the five places of `w` bits. -/
def fivefold (w v : Nat) : Nat := (List.range 5).foldl (fun r i => r ||| v <<< (w * i)) 0

/-- A plane whose five lanes are each turned left by one bit. -/
def lanesTurned (p : Nat) : Nat :=
  ((p &&& fivefold 64 (2 ^ 63 - 1)) <<< 1) ||| ((p >>> 63) &&& fivefold 64 1)

/-- Plane `y`. -/
def plane (a y : Nat) : Nat := (a >>> (320 * y)) % 2 ^ 320

/-- Each lane takes up the parities of the columns on its left and, turned by one bit, on its right. -/
def mixParity (a : Nat) : Nat :=
  let sum := (List.range 5).foldl (fun s y => s ^^^ plane a y) 0
  a ^^^ fivefold 320 (turned 320 64 sum ^^^ lanesTurned (turned 320 256 sum))

/-- Where the lane walk stands: its place, the lanes put down so far. -/
structure LaneWalk where
  x : Nat := 1
  y : Nat := 0
  put : Nat

/-- Stop `t` of the walk: the lane found there is turned by the `t + 1`st triangular number and put down at the next stop. -/
def LaneWalk.step (a : Nat) (w : LaneWalk) (t : Nat) : LaneWalk :=
  let y' := (2 * w.x + 3 * w.y) % 5
  let lane := (a >>> (320 * w.y + 64 * w.x)) % 2 ^ 64
  { x := w.y, y := y', put := w.put ||| turned 64 ((t + 1) * (t + 2) / 2 % 64) lane <<< (320 * y' + 64 * w.y) }

/-- All lanes but the one at the origin move along the walk. -/
def moveLanes (a : Nat) : Nat := ((List.range 24).foldl (LaneWalk.step a) { put := a % 2 ^ 64 }).put

/-- Each bit of a plane is flipped where the next bit of its row is 0 and the one after it 1. -/
def bendPlane (p : Nat) : Nat := p ^^^ ((turned 320 256 p ^^^ (2 ^ 320 - 1)) &&& turned 320 192 p)

def bendRows (a : Nat) : Nat := (List.range 5).foldl (fun r y => r ||| bendPlane (plane a y) <<< (320 * y)) 0

/-- The shift register that yields the round constants: one step over x⁸ + x⁶ + x⁵ + x⁴ + 1. -/
def constantStep (r : Nat) : Nat := if r < 128 then 2 * r else (2 * r) ^^^ 0x171

/-- The register's next seven bits, each at a place one below a power of two, and the register after them. -/
def constantBits (r : Nat) : Nat × Nat :=
  (List.range 7).foldl (fun s j => (s.1 ||| (s.2 % 2) <<< (2 ^ j - 1), constantStep s.2)) (0, r)

/-- `n` rounds of the permutation, with the constants' register at `r`. -/
def spongeRounds : Nat → Nat → Nat → Nat
  | 0, _, a => a
  | n + 1, r, a => spongeRounds n (constantBits r).2 (bendRows (moveLanes (mixParity a)) ^^^ (constantBits r).1)

/-- The permutation of 24 rounds. -/
def permuted (a : Nat) : Nat := spongeRounds 24 1 a

/-- The number of a byte list, lowest byte first. -/
def bytesNat (bs : List Nat) : Nat := bs.foldr (fun b v => b + 256 * v) 0

/-- The little-endian number of a byte list, and the `n` bytes of a number. -/
def natOf (bs : List Nat) : Nat := bs.foldr (fun b v => b + 256 * v) 0
def bytesOf (n v : Nat) : List Nat := (List.range n).map fun i => v / 256 ^ i % 256

/-- Absorb `n` blocks of 136 bytes. -/
def soak : Nat → Nat → List Nat → Nat
  | 0, a, _ => a
  | n + 1, a, bs => soak n (permuted (a ^^^ bytesNat (bs.take 136))) (bs.drop 136)

/-- What follows a message to fill its last block: the bits of an extendable output, zeros, and the closing bit. -/
def soakFill (len : Nat) : List Nat :=
  let room := 136 - len % 136
  (List.range room).map fun i => (if i = 0 then 0x1F else 0) + (if i + 1 = room then 0x80 else 0)

/-- Read `n` blocks of 136 bytes. -/
def wring : Nat → Nat → List Nat
  | 0, _ => []
  | n + 1, a => (List.range 136).map (fun i => (a >>> (8 * i)) % 256) ++ wring n (permuted a)

/-- The first `n` bytes of SHAKE256 of a message, bytes as numbers. -/
def shake256 (bs : List Nat) (n : Nat) : List Nat :=
  (wring ((n + 135) / 136) (soak (bs.length / 136 + 1) 0 (bs ++ soakFill bs.length))).take n

end Sys2Proof.Machine
end

