-- ==== Sys2Proof/Machine/Cipher.lean ====
section
/-!
DEFINITION. AES-256 (FIPS 197) and its Galois/Counter mode (SP 800-38D), which wrap content keys (R523) and protect Kyrok messages
(R441). Bytes are numbers below 256.
-/
namespace Sys2Proof.Machine

/-! ### The block cipher -/

/-- The substitution table, byte `x` in bits 8x to 8x + 7. -/
def aesTable : Nat :=
  0x16bb54b00f2d99416842e6bf0d89a18cdf2855cee9871e9b948ed9691198f8e19e1dc186b95735610ef6034866b53e708a8bbd4b1f74dde8c6b4a61c2e2578ba08ae7a65eaf4566ca94ed58d6d37c8e779e4959162acd3c25c2406490a3a32e0db0b5ede14b8ee4688902a22dc4f816073195d643d7ea7c41744975fec130ccdd2f3ff1021dab6bcf5389d928f40a351a89f3c507f02f94585334d43fbaaefd0cf584c4a39becb6a5bb1fc20ed00d153842fe329b3d63b52a05a6e1b1a2c830975b227ebe28012079a059618c323c7041531d871f1e5a534ccf73f362693fdb7c072a49cafa2d4adf04759fa7dc982ca76abd7fe2b670130c56f6bf27b777c63

def subByte (x : Nat) : Nat := (aesTable >>> (8 * x)) % 256

/-- Twice a byte in the field of the cipher. -/
def xtime (x : Nat) : Nat := if x < 128 then 2 * x else (2 * x) ^^^ 0x11B

def xorBytes (a b : List Nat) : List Nat := List.zipWith (· ^^^ ·) a b

/-- The next word of the key schedule, from the words before it, newest first; `i` is its number. -/
def nextKeyWord (i : Nat) (ws : List (List Nat)) : List Nat :=
  let t := ws.headD []
  let u :=
    if i % 8 = 0 then
      let r := (t.drop 1 ++ t.take 1).map subByte
      xorBytes r [2 ^ (i / 8 - 1), 0, 0, 0]
    else if i % 8 = 4 then t.map subByte else t
  xorBytes (ws.getD 7 []) u

/-- `n` bytes at a time. -/
def chunks (k : Nat) : Nat → List Nat → List (List Nat)
  | 0, _ => []
  | n + 1, l => l.take k :: chunks k n (l.drop k)

/-- The 60 words of the key schedule, in order. -/
def keyWords (key : List Nat) : List (List Nat) :=
  ((List.range 52).foldl (fun ws i => nextKeyWord (i + 8) ws :: ws) (chunks 4 8 key).reverse).reverse

/-- The round keys of a 32-byte key. -/
def roundKeys (key : List Nat) : List (List Nat) := chunks 16 15 (keyWords key).flatten

/-- Row i of every column moves i columns to the left. -/
def shiftRows (s : List Nat) : List Nat := (List.range 16).map fun i => s.getD ((i + 4 * (i % 4)) % 16) 0

/-- One column of the mixing step. -/
def mixColumn (c : List Nat) : List Nat :=
  let a := fun i => c.getD (i % 4) 0
  (List.range 4).map fun i => xtime (a i) ^^^ xtime (a (i + 1)) ^^^ a (i + 1) ^^^ a (i + 2) ^^^ a (i + 3)

def mixColumns (s : List Nat) : List Nat := (chunks 4 4 s).flatMap mixColumn

/-- One block under the round keys. -/
def aesRounds : List (List Nat) → List Nat → List Nat
  | [], s => s
  | [k], s => xorBytes (shiftRows (s.map subByte)) k
  | k :: ks, s => aesRounds ks (xorBytes (mixColumns (shiftRows (s.map subByte))) k)

/-- AES-256 of a 16-byte block. -/
def aesBlock (ks : List (List Nat)) (b : List Nat) : List Nat :=
  match ks with
  | [] => b
  | k :: rest => aesRounds rest (xorBytes b k)

/-! ### Counter mode -/

/-- Big-endian number of a byte list, and the 16 bytes of a number. -/
def beNat (bs : List Nat) : Nat := bs.foldl (fun v b => 256 * v + b) 0
def beBytes (n v : Nat) : List Nat := (List.range n).map fun i => v / 256 ^ (n - 1 - i) % 256

/-- The counter block after `c`: its last 32 bits rise by one. -/
def nextCounter (c : Nat) : Nat := c / 2 ^ 32 * 2 ^ 32 + (c + 1) % 2 ^ 32

/-- Encrypt or decrypt `n` blocks from counter block `c` on. -/
def counterMode (ks : List (List Nat)) : Nat → Nat → List Nat → List Nat
  | 0, _, _ => []
  | n + 1, c, data => xorBytes (data.take 16) (aesBlock ks (beBytes 16 c)) ++ counterMode ks n (nextCounter c) (data.drop 16)

/-! ### The Galois field hash -/

/-- Product of two blocks: bit by bit of the first, from its most significant. -/
def gfMul (x y : Nat) : Nat :=
  ((List.range 128).foldl (fun (a : Nat × Nat) i =>
    (if x.testBit (127 - i) then a.1 ^^^ a.2 else a.1,
     if a.2 % 2 = 1 then (a.2 / 2) ^^^ (0xE1 * 2 ^ 120) else a.2 / 2)) (0, y)).1

def padBlock (bs : List Nat) : List Nat := bs ++ List.replicate ((16 - bs.length % 16) % 16) 0

def ghash (h : Nat) (data : List Nat) : Nat :=
  (chunks 16 (data.length / 16) data).foldl (fun y b => gfMul (y ^^^ beNat b) h) 0

/-- The tag of a ciphertext with its authenticated data, under a 12-byte nonce. -/
def gcmTag (key nonce aad cipher : List Nat) : List Nat :=
  let ks := roundKeys key
  let h := beNat (aesBlock ks (List.replicate 16 0))
  let s := ghash h (padBlock aad ++ padBlock cipher ++ beBytes 8 (8 * aad.length) ++ beBytes 8 (8 * cipher.length))
  xorBytes (beBytes 16 s) (aesBlock ks (nonce ++ [0, 0, 0, 1]))

/-- What a ciphertext opens to, when its tag holds. -/
def gcmOpen (key nonce aad cipher tag : List Nat) : Option (List Nat) :=
  if gcmTag key nonce aad cipher = tag then
    some (counterMode (roundKeys key) ((cipher.length + 15) / 16) (beNat (nonce ++ [0, 0, 0, 2])) cipher)
  else none

/-! ### The inverse cipher and XTS (R455) -/

/-- The byte that the substitution table takes to `y`. -/
def unsubByte (y : Nat) : Nat := ((List.range 256).find? fun x => subByte x == y).getD 0

/-- Row i of every column moves i columns to the right. -/
def unshiftRows (s : List Nat) : List Nat := (List.range 16).map fun i => s.getD ((i + 12 * (i % 4)) % 16) 0

/-- One column of the inverse mixing step: 14, 11, 13 and 9 times its bytes. -/
def unmixColumn (c : List Nat) : List Nat :=
  let two := fun i => xtime (c.getD (i % 4) 0)
  let four := fun i => xtime (two i)
  let eight := fun i => xtime (four i)
  let one := fun i => c.getD (i % 4) 0
  (List.range 4).map fun i =>
    (eight i ^^^ four i ^^^ two i) ^^^ (eight (i + 1) ^^^ two (i + 1) ^^^ one (i + 1)) ^^^ (eight (i + 2) ^^^ four (i + 2) ^^^ one (i + 2)) ^^^
      (eight (i + 3) ^^^ one (i + 3))

def unmixColumns (s : List Nat) : List Nat := (chunks 4 4 s).flatMap unmixColumn

/-- The rounds of the inverse cipher, under the round keys from the last but one down. -/
def unaesRounds : List (List Nat) → List Nat → List Nat
  | [], s => s
  | [k], s => xorBytes ((unshiftRows s).map unsubByte) k
  | k :: ks, s => unaesRounds ks (unmixColumns (xorBytes ((unshiftRows s).map unsubByte) k))

/-- The block that AES-256 takes to a 16-byte block. -/
def unaesBlock (ks : List (List Nat)) (b : List Nat) : List Nat :=
  match ks.reverse with
  | [] => b
  | k :: rest => unaesRounds rest (xorBytes b k)

/-- The tweak of the next block: twice the value in the field, the bytes little-endian. -/
def nextTweak (t : Nat) : Nat := if t < 2 ^ 127 then 2 * t else (2 * t % 2 ^ 128) ^^^ 0x87

/-- The blocks of a data unit in ascending byte order under its tweak. -/
def xtsBlocks (f : List Nat → List Nat) : Nat → Nat → List Nat → List Nat
  | 0, _, _ => []
  | n + 1, t, data => xorBytes (f (xorBytes (data.take 16) (bytesOf 16 t))) (bytesOf 16 t) ++ xtsBlocks f n (nextTweak t) (data.drop 16)

/-- The first tweak of data unit `a`, a 128-bit little-endian number, under the second half of the key. -/
def xtsTweak (key : List Nat) (a : Nat) : Nat := natOf (aesBlock (roundKeys (key.drop 32)) (bytesOf 16 a))

/-- AES-256-XTS of a 64-byte line with a 64-byte key, and its inverse. -/
def xtsSeal (key : List Nat) (a : Nat) (line : List Nat) : List Nat := xtsBlocks (aesBlock (roundKeys (key.take 32))) 4 (xtsTweak key a) line
def xtsOpen (key : List Nat) (a : Nat) (line : List Nat) : List Nat := xtsBlocks (unaesBlock (roundKeys (key.take 32))) 4 (xtsTweak key a) line

/-! ### The code of a stored line (R458, R460) -/

/-- Product in GF(2^8) on the polynomial x^8 + x^4 + x^3 + x^2 + 1. -/
def field256 (a b : Nat) : Nat :=
  ((List.range 8).foldl (fun (p : Nat × Nat) i =>
    (if b.testBit i then p.1 ^^^ p.2 else p.1, if p.2 < 128 then 2 * p.2 else (2 * p.2) ^^^ 0x11D)) (0, a)).1

/-- The generator with the roots α^0 to α^7, highest coefficient left out, from x^7 down. -/
def lineGenerator : List Nat :=
  ((List.range 8).foldl (fun (a : List Nat × Nat) _ =>
    (List.zipWith (· ^^^ ·) (a.1 ++ [0]) (0 :: a.1.map (field256 a.2)), field256 a.2 2)) ([1], 1)).1.drop 1

/-- The 8 check symbols of a line's 64 data symbols: symbol 0 has the highest power, in the data and in the check symbols. DESIGN CHOICE, log 117. -/
def lineCheck (data : List Nat) : List Nat :=
  data.foldl (fun r d =>
    let q := r.headD 0 ^^^ d
    List.zipWith (fun a g => a ^^^ field256 q g) (r.drop 1 ++ [0]) lineGenerator) (List.replicate 8 0)

end Sys2Proof.Machine
end

