-- ==== Sys2Proof/Machine/Curve.lean ====
section
/-!
DEFINITION. X448 (RFC 7748) and Ed448 (RFC 8032), with which ingots are unwrapped (R523), images and tokens signed (R521) and reports
certified (R534). Bytes are numbers below 256, little-endian where they stand for a number.
-/
namespace Sys2Proof.Machine

/-! ### The field -/

/-- The prime of the field. -/
def prime448 : Nat := 2 ^ 448 - 2 ^ 224 - 1

def mulF (a b : Nat) : Nat := a * b % prime448
def addF (a b : Nat) : Nat := (a + b) % prime448
def subF (a b : Nat) : Nat := (a + prime448 - b) % prime448

/-- `b` to the power of the low `n` bits of `e`. -/
def powF (b e n : Nat) : Nat :=
  (List.range n).foldl (fun a i => let q := mulF a a; if e.testBit (n - 1 - i) then mulF q b else q) 1

def invF (a : Nat) : Nat := powF a (prime448 - 2) 448

/-! ### X448 -/

/-- The two points of the ladder. -/
structure Ladder where
  x2 : Nat
  z2 : Nat
  x3 : Nat
  z3 : Nat

def Ladder.swap (l : Ladder) (c : Bool) : Ladder := if c then ⟨l.x3, l.z3, l.x2, l.z2⟩ else l

/-- One step of the ladder. -/
def Ladder.step (u : Nat) (l : Ladder) : Ladder :=
  let a := addF l.x2 l.z2
  let b := subF l.x2 l.z2
  let aa := mulF a a
  let bb := mulF b b
  let e := subF aa bb
  let da := mulF (subF l.x3 l.z3) a
  let cb := mulF (addF l.x3 l.z3) b
  let p := addF da cb
  let m := subF da cb
  ⟨mulF aa bb, mulF e (addF aa (mulF 39081 e)), mulF p p, mulF u (mulF m m)⟩

/-- X448 of a scalar and a u coordinate, 56 bytes each. -/
def x448 (scalar u : List Nat) : List Nat :=
  let k := natOf scalar % 2 ^ 448 / 4 * 4 ||| 2 ^ 447
  let x := natOf u % prime448
  let l := (List.range 448).foldl (fun (l : Ladder) i =>
    let b := k.testBit (447 - i)
    ((l.swap b).step x).swap b) ⟨1, 0, x, 1⟩
  bytesOf 56 (mulF l.x2 (invF l.z2))

/-- The public key of an X448 secret. -/
def x448Public (scalar : List Nat) : List Nat := x448 scalar (5 :: List.replicate 55 0)

/-! ### Ed448 -/

/-- The order of the base point. -/
def order448 : Nat := 2 ^ 446 - 13818066809895115352007386748515426880336692474882178609894547503885

/-- The curve constant, −39081. -/
def curveD : Nat := prime448 - 39081

/-- A point in projective coordinates. -/
structure EdPoint where
  x : Nat
  y : Nat
  z : Nat
  deriving DecidableEq, Repr

def edBase : EdPoint :=
  ⟨0x4f1970c66bed0ded221d15a622bf36da9e146570470f1767ea6de324a3d3a46412ae1af72ab66511433b80e18b00938e2626a82bc70cc05e,
   0x693f46716eb6bc248876203756c9c7624bea73736ca3984087789c1e05a0c2d73ad3ff1ce67c39c4fdbd132c4ed7c8ad9808795bf230fa14, 1⟩

def EdPoint.add (p q : EdPoint) : EdPoint :=
  let a := mulF p.z q.z
  let b := mulF a a
  let c := mulF p.x q.x
  let d := mulF p.y q.y
  let e := mulF curveD (mulF c d)
  let f := subF b e
  let g := addF b e
  let h := mulF (addF p.x p.y) (addF q.x q.y)
  ⟨mulF a (mulF f (subF (subF h c) d)), mulF a (mulF g (subF d c)), mulF f g⟩

/-- The low 456 bits of `k` times a point. -/
def EdPoint.times (p : EdPoint) (k : Nat) : EdPoint :=
  (List.range 456).foldl (fun (q : EdPoint) i =>
    let d := q.add q
    if k.testBit (455 - i) then d.add p else d) ⟨0, 1, 1⟩

/-- Four times a point. -/
def EdPoint.four (p : EdPoint) : EdPoint := (p.add p).add (p.add p)

/-- The same point, whatever its coordinates. -/
def EdPoint.same (p q : EdPoint) : Bool := mulF p.x q.z == mulF q.x p.z && mulF p.y q.z == mulF q.y p.z

/-- The 57 bytes of a point. -/
def EdPoint.bytes (p : EdPoint) : List Nat :=
  let w := invF p.z
  bytesOf 57 (mulF p.y w + (mulF p.x w % 2) * 2 ^ 455)

/-- The point that 57 bytes stand for. -/
def edDecode (bs : List Nat) : Option EdPoint :=
  let v := natOf bs
  let y := v % 2 ^ 455
  let u := subF (mulF y y) 1
  let w := subF (mulF curveD (mulF y y)) 1
  let u3w := mulF (mulF u (mulF u u)) w
  let x := mulF u3w (powF (mulF u3w (mulF u (mulF u (mulF w w)))) ((prime448 - 3) / 4) 448)
  if bs.length ≠ 57 ∨ prime448 ≤ y ∨ mulF w (mulF x x) ≠ u ∨ (x = 0 ∧ v.testBit 455 = true) then none
  else some ⟨if x % 2 = (v / 2 ^ 455) % 2 then x else prime448 - x, y, 1⟩

/-- ASCII bytes. -/
def ascii (s : List Char) : List Nat := s.map Char.toNat

/-- The prefix of every hash of a signature with context `c`. -/
def edPrefix (c : List Nat) : List Nat := ascii ['S', 'i', 'g', 'E', 'd', '4', '4', '8'] ++ [0, c.length] ++ c

/-- The scalar and the nonce prefix of a secret key. -/
def edSecret (key : List Nat) : Nat × List Nat :=
  let h := shake256 key 114
  (natOf (h.take 56) / 4 * 4 ||| 2 ^ 447, h.drop 57)

/-- The public key of a 57-byte secret key. -/
def edPublic (key : List Nat) : List Nat := (edBase.times (edSecret key).1).bytes

/-- Pure Ed448 signature of a message with a context. -/
def edSign (key ctx msg : List Nat) : List Nat :=
  let s := edSecret key
  let pub := edPublic key
  let r := natOf (shake256 (edPrefix ctx ++ s.2 ++ msg) 114) % order448
  let rb := (edBase.times r).bytes
  let k := natOf (shake256 (edPrefix ctx ++ rb ++ pub ++ msg) 114) % order448
  rb ++ bytesOf 57 ((r + k * s.1) % order448)

/-- A 114-byte signature verifies. -/
def edVerify (pub ctx msg sig : List Nat) : Bool :=
  let s := natOf (sig.drop 57)
  match edDecode pub, edDecode (sig.take 57) with
  | some a, some r =>
    let k := natOf (shake256 (edPrefix ctx ++ sig.take 57 ++ pub ++ msg) 114) % order448
    decide (sig.length = 114) && decide (s < order448) &&
      (edBase.times s).four.same (r.add (a.times k)).four
  | _, _ => false

end Sys2Proof.Machine
end

