-- ==== Sys2Proof/Config.lean ====
section
/-!
DEFINITION. What one VM-1664 fixes (counts, sizes, bounds stated by the spec) and the free values the spec leaves open.
A free value has no body, so nothing can be proved about the number it stands for.
-/
namespace Sys2Proof.Config

/-- The `n`-th token sampled where the commit unit received no sample with the bell (R327; log 4). -/
opaque freeToken : Nat → Nat

/-- How the device draws among the candidate tokens of a position (R327 fixes only what it depends on; log 4): temperature, seed, position,
and the candidates' output values, largest first. -/
opaque sampleIndex : BitVec 16 → Nat → Nat → List (BitVec 32) → Nat

/-- Temperature table of the die revision (R104): gain factor at an entry, in 1/32768; the firmware that holds it is not
part of the spec (log 8). Normalised so that the value at 45 °C is 1 where it is used (R104). -/
opaque gainTable : Nat → Int

/-- Temperature table of the die revision (R104): offset at an entry, in 1/256 code (log 8). -/
opaque offsetTable : Nat → Int

/-- The ratio of R118 for a column whose baseline ratio is zero, where the quotient names no value (log 16). -/
opaque openRatio : Nat → Rat

/-- A converter gain of R109 whose two levels read alike, where the quotient names no value (log 16). -/
opaque openGain : Nat → Rat

/-- The two bytes in which a croft keeps an entry of the column baseline, whose encoding R184 does not give (log 56). -/
opaque baselineCode : Rat → BitVec 16

/-- Byte `i` of the 64-byte key that the lockhouse has drawn for a key slot (R455, R511, R513; log 9): slot, version, `i`. -/
opaque stackKey : Nat → Nat → Nat → BitVec 8

/-- The stack row that holds a line: the manual numbers stack rows (R472, R473) and does not say how lines lie in them (log 17).
Argument: stack byte ÷ 64. -/
opaque stackRow : Nat → Nat

/-- Outcome of decoding a line with seven or more symbols in error (R459; log 10): 0 uncorrectable, 1 blank, 2 poisoned,
other values clean data. -/
opaque overrunDecode : Nat → Nat

/-- The control core that is granted the lease of a hub's engine (R266; log 42). -/
opaque leaseCore : Nat → Nat → BitVec 4

/-- The term in µs for which the hub scheduler grants an engine's lease to a core that did not ask for it by a command (R258
leaves the term to the request; log 42). -/
opaque leaseTerm : Nat → Nat → BitVec 16

/-- What a decoder makes of a Kyrok codeword with three or more symbols in error (R431: it may be miscorrected): nothing it can correct, or
another flit, by its header byte and payload (log 99). Argument: the draw. -/
opaque miscorrectedFlit : Nat → Option (BitVec 8 × List (BitVec 8))

/-- The check symbols of a Kyrok codeword (R430; log 3). -/
opaque checkSymbols : List (BitVec 8) → Nat → BitVec 8

/-- The byte a miscorrected line delivers at an offset (R459; log 10). -/
opaque miscorrected : Nat → BitVec 8

/-- The `n`-th value the lockhouse's random bit generator draws (R510; log 11). -/
opaque randomWord : Nat → BitVec 64

/-- The image that lies at an engine address, where a register access that starts a load carries none of its own (log 28):
arguments are the stack bytes that are listed, and the address. -/
opaque patternAt : List (Nat × BitVec 8) → Nat → PatternImage

/-- The word a croft's logical coordinate stands for in the seed of R178, whose encoding the spec does not give (log 29). -/
opaque coordinateWord : Nat → BitVec 32

/-- A quotient of R109 whose denominator is zero (a fit, or a mould gain of zero), which the quotient leaves open (log 16). -/
opaque openFit : Nat → Rat

/-- Digest of a trained adapter image, which no command carries (R528; log 31). -/
opaque trainedDigest : Nat → Nat

/-- Whether a fuse burn that power failed in took effect (R539: the fuses hold either setting; log 35). -/
opaque burnTook : Nat → Bool

/-- The key epoch of a domain that its root has just formed (R443, R444 give no first value; log 37). -/
opaque firstEpoch : Nat

/-- Whether a stack's post-package repair finds a resource for a row (R474; log 38): stack, row. -/
opaque repairFits : Nat → Nat → Bool

/-- Repair rows a stack reports as remaining once `used` have been used (R474; log 38): stack, used. -/
opaque repairRows : Nat → Nat → Nat

/-- Stack-local pages that hold a line of a stack row (R474; log 17). -/
opaque rowPages : Nat → List Nat

/-! ### Sizes and bounds of the spec -/

/-- Pages of one stack (R449). -/
def stackPages : Nat := 2097152
/-- Bytes of one stack, 2^37 (R455). -/
def stackBytes : Nat := 137438953472
/-- First page of a stack above the key-value pool (R449). -/
def poolEnd : Nat := 2087680
/-- Bytes of a page (R286). -/
def pageBytes : Nat := 65536
/-- Castings a die carries at once (R81). -/
def castPerDie : Nat := 512
/-- Full casts a mould endures (R91). -/
def maxCasts : Nat := 10000
/-- Steps in flight per package (R351). -/
def maxSteps : Nat := 4096
/-- Intake queue length (R329). -/
def intakeQueue : Nat := 256
/-- Commands of a window that may await outcomes (R340). -/
def maxAwaiting : Nat := 16384
/-- Commands queued per session (R340). -/
def maxQueued : Nat := 8
/-- Tally window in ns (R368). -/
def tallyNs : Nat := 10000
/-- Interrupt queue length (R559). -/
def intrQueue : Nat := 256

end Sys2Proof.Config
end

