-- ==== Sys2Proof/Machine/State.lean ====
section
/-!
DEFINITION. The state of the package as plain data, and the state a cold reset leaves. Replicated units are sparse tables
keyed by their number: an entry that is not listed stands for the unit's reset state.
-/
namespace Sys2Proof.Machine

/-- A byte memory: pairs of an address and a byte, addresses rising, no entry equal to zero (what an unlisted byte reads). -/
abbrev Memory := List Host.Cell

/-- Why the block stops. -/
inductive Fault where
  /-- Raised by a command whose operands break a limit the spec puts on what can occur at all (an active row set outside
  R51, a transposed span outside R70): no such event exists on the hardware, so stopping is safe. -/
  | noSuchEvent
  deriving DecidableEq, Repr

/-- Why a command is turned away. -/
inductive Refusal where
  /-- Raised by an arm of `exec` whose command has no meaning in the model yet; safe. -/
  | notModelled (mnemonic : String)
  deriving DecidableEq, Repr

/-! ### Time and package -/

/-- Device time (R29 to R35): the counter of hub 0, the time of the next bell, and how far the copies of hubs 1 to 3 and of
the 16 reeves stand from it. -/
structure Clock where
  time : Nat := 0
  nextBell : Nat := 1500
  /-- the bell that opened the round in progress -/
  lastBell : Nat := 0
  skew : List Int := []
  reeveSkew : List Int := []
  deriving DecidableEq, Repr

/-- Where the package stands between power-off and service (R401 to R404, R562, R566 to R570). -/
inductive Phase where
  /-- no rails, or only the standby rail without a wake comparator armed -/
  | off
  /-- RST_N low, rails stable -/
  | inReset
  /-- steps 3 to 5 of a start: waiting for the firmware bundle -/
  | starting
  /-- hubs have reported ready -/
  | service
  /-- between an accepted SYS.WARM_RESET and the ready report -/
  | warmReset
  /-- dormancy requested, SLEEP_ACK_N still high -/
  | entering
  /-- SLEEP_ACK_N low, rails still up -/
  | sleepAck
  /-- only the wake comparator is powered -/
  | dormant
  /-- a power-fail warning has counted -/
  | powerFail
  /-- THERMTRIP_N low, clocks stopped -/
  | tripped
  deriving DecidableEq, Repr

/-- An ingot whose content key the lockhouse holds (R524, R525), with the staging region bytes it was read from. -/
structure IngotRec where
  generation : Nat
  digest : Nat
  kvTag : Nat
  vocab : Nat
  publisher : Nat
  shape : ModelShape
  patterns : List PatternRef
  addr : Nat
  len : Nat
  /-- the content key that the lockhouse keeps (R524, R525) -/
  contentKey : List Nat := []
  deriving DecidableEq, Repr

/-- Progress of an accepted GEN_SWITCH (R365). -/
inductive SwitchPhase where
  | waiting | casting | loading | loaded
  deriving DecidableEq, Repr

/-- An accepted GEN_SWITCH awaiting its outcome. -/
structure Switch where
  window : Nat
  seq : Nat
  cookie : Nat
  generation : Nat
  phase : SwitchPhase
  /-- dies whose pattern is still to be loaded -/
  toLoad : List Nat
  deriving DecidableEq, Repr

/-- An accepted INGOT_STAGE in verification (R363). -/
structure Staging where
  window : Nat
  seq : Nat
  cookie : Nat
  generation : Nat
  addr : Nat
  len : Nat
  table : Nat
  deriving DecidableEq, Repr

/-- Generations of the package (R363 to R365, R582). -/
structure Generations where
  inService : Option IngotRec := none
  staged : Option IngotRec := none
  /-- ingots in verification, oldest first -/
  staging : List Staging := []
  switch : Option Switch := none
  /-- the code with which steps of the generation in service fail after a failed load (R365) -/
  loadFailed : Option Code := none
  /-- a cast of the switch read its image poisoned (R466); the switch fails at the next bell -/
  castPoison : Bool := false
  deriving DecidableEq, Repr

/-- Aeldoern's Ed448 public keys in the boot ROM (R509), as little-endian numbers; their values are open, zero in State.reset.
DESIGN CHOICE, log 34. -/
structure BootRom where
  firmware : Nat := 0
  pack : Nat := 0
  ownerRoot : Nat := 0
  debug : Nat := 0
  deriving DecidableEq, Repr

/-- An installed probe pack (R493 to R496). -/
structure Pack where
  version : Nat
  entries : List PackEntry
  deriving DecidableEq, Repr

/-- The package as a whole. -/
structure Package where
  phase : Phase := .inReset
  /-- converters stop after their current conversion, on the way into dormancy (R401) -/
  halting : Bool := false
  /-- the start in progress or last made is a wake (R569) -/
  wake : Bool := false
  /-- die revision and grade that SYS.ID reports (R2, R546): the spec gives no number of a revision and leaves the grade to the part;
  the modelled package carries revision 1 and grade CG. DESIGN CHOICE, log 13. -/
  dieRevision : Nat := 1
  gradeES : Bool := false
  rom : BootRom := {}
  role : Nat := 0
  rolePending : Option Nat := none
  /-- the bell period in force; SYS.BELL_NS holds the value written -/
  bellNs : Nat := 1500
  timeBase : Nat := 0
  partGib : Nat := 4
  gen : Generations := {}
  pack : Option Pack := none
  packPending : Option Pack := none
  packVersion : Nat := 0
  packClear : Bool := false
  hubFaulty : List Nat := []
  /-- lands: RST_N low, SLEEP_ACK_N low, PWRREQ_N low, THERMTRIP_N low, the PCIE_RC strap -/
  rstLow : Bool := true
  sleepAckLow : Bool := false
  pwrreqLow : Bool := false
  thermtripLow : Bool := false
  wakeLow : Bool := false
  pcieEndpoint : Bool := false
  deriving DecidableEq, Repr

/-! ### Dies and crofts -/

/-- Mould state codes of the mould record. -/
inductive MouldState where
  | blank | casting | cast | failed | retired
  deriving DecidableEq, Repr

/-- Terms derived from one run (R109). -/
structure RunTerms where
  gk : Table Rat := []
  ok : Table Rat := []
  gr : Table Rat := []
  or : Table Rat := []
  g45 : Rat := 0
  o45 : Rat := 0
  theta : Rat := 0
  imbalance : Rat := 0
  parity : Rat := 0
  lastTime : Nat := 0
  /-- mean square of u of each data column and, at key 256, of REF1 -/
  squares : Table Rat := []
  deriving DecidableEq, Repr

/-- Gauging state of a mould (R106 to R114). -/
structure Gauging where
  active : Bool := false
  run : GaugeRun := {}
  first : Option RunTerms := none
  rejects : Nat := 0
  /-- the column baseline (R115, R118); `none` until recorded -/
  baseline : Option (Table Rat) := none
  /-- g_45 of the mould's cast set (R119) -/
  castG45 : Int := 0
  deriving DecidableEq, Repr

/-- A cast in progress on a mould (R76). -/
structure Cast where
  /-- row groups programmed so far, 0 to 16 -/
  groups : Nat := 0
  /-- a full cast, or the cast of spare columns only (R85) -/
  full : Bool := true
  /-- spares being cast in a spare-column cast -/
  spares : List Nat := []
  /-- physical columns that failed in the programming phase -/
  failed : List Nat := []
  generation : Nat := 0
  deriving DecidableEq, Repr

/-- A column under digital stand-in (R134 to R138): logical column, slot of the store, whether the copy has arrived, the
copy as (row, weight), and whether its spare has closed. -/
structure StandIn where
  column : Nat
  slot : Nat
  live : Bool := false
  copy : List (Nat × Int) := []
  spareReady : Bool := false
  /-- the slot was in parity error: the hub fetches the copy again (R212) -/
  refetch : Bool := false
  deriving DecidableEq, Repr

/-- A probe in progress (R130, R131): the steps tied to it, the pack in force when it began (R494), and whether its verdict
has come while stand-ins are still on their way (R132). -/
structure Probe where
  tied : List Nat := []
  started : Nat := 0
  pack : Option Pack := none
  decided : Bool := false
  deriving DecidableEq, Repr

/-- A forward window's result between its passes and its promotion (R61, R64, R160): per logical data column the corrected value in
eighths and its saturated mark; the narrow part (A4 columns) is kept apart. -/
structure OpenWindow where
  step : Nat := 0
  a8 : Bool := false
  /-- span of the mould that runs it -/
  span : Nat := 64
  /-- A8 codes of the active rows, by mould row -/
  codes : Table Int := []
  narrow : Table Int := []
  wide : Table Int := []
  marks : List Nat := []
  /-- columns under stand-in when the window opened: value and saturated mark (R135) -/
  stood : List (Nat × Int × Bool) := []
  delivered : Bool := false
  deriving DecidableEq, Repr

/-- The row results of a transposed window (R105, R176): value of each row in eighths of a code of its span, saturated rows. -/
structure RowResult where
  span : Nat := 64
  a8 : Bool := false
  values : Table Int := []
  marks : List Nat := []
  deriving DecidableEq, Repr

/-- A physical mould: its record (02, Cast records) and its working state in the croft. -/
structure Mould where
  state : MouldState := .blank
  slot : Option Nat := none
  castCount : Nat := 0
  generation : Nat := 0
  failed : List Nat := []
  recastDue : Bool := false
  /-- spare number to the logical column it holds -/
  spareMap : Table Nat := []
  /-- logical column to (mean, spread), in codes at 8-bit scale (log 48) -/
  stats : List (Nat × Int × Int) := []
  /-- cast weights: 1024 × logical data column + row -/
  weights : Table Int := []
  /-- witness row sums: 1024 × half + row -/
  witness : Table Int := []
  span : Nat := 64
  /-- halves whose witness was cast from a stand-in copy (R127) -/
  roundedWitness : List Nat := []
  /-- active coefficient bank (R185) -/
  bank : Bool := false
  bank0 : CoefSet := {}
  bank1 : CoefSet := {}
  /-- the pending bank is to become active at the next bell (R112) -/
  pendingSet : Bool := false
  /-- the set latched for the round (R103) -/
  latched : CoefSet := {}
  /-- the set was neutralised and the mould is gauged next (R212) -/
  neutralised : Bool := false
  gauging : Gauging := {}
  standins : List StandIn := []
  probe : Option Probe := none
  /-- times of CLEAR and UNLOCATED verdicts (R139) -/
  verdicts : List Nat := []
  cast : Option Cast := none
  /-- a mould that left service and was CLEAR at a start's probe: a reserve behind the BLANK ones (R489) -/
  reserveOk : Bool := false
  /-- reference columns located and waiting for their spare (R133) -/
  refPending : List Nat := []
  /-- of those, the ones whose spare has closed its cast -/
  refReady : List Nat := []
  /-- a full cast waits for a bell at which R81, R83 and R380 allow it -/
  castWaiting : Bool := false
  /-- spares whose spare-column cast waits likewise (R85) -/
  spareWaiting : List Nat := []
  /-- that cast restores service (R380) -/
  castRestores : Bool := false
  deriving DecidableEq, Repr

/-- Service of a physical croft (CROFT.COORD). -/
inductive Service where
  | inService | spare | fenced | outOfService
  deriving DecidableEq, Repr

/-- A watched row and the time of its first error (R207). -/
structure Watch where
  row : Nat
  time : Nat
  deriving DecidableEq, Repr

/-- A physical croft. -/
structure Croft where
  moulds : Table Mould := []
  /-- croft record: ingot digest, generation, cast date, version (02, Croft record layout) -/
  digest : Nat := 0
  generation : Nat := 0
  castDate : Nat := 0xFFFFFFFFFFFFFFFF
  recordVersion : Nat := 0
  /-- `none` is the default service of the position (R227) -/
  service : Option Service := none
  /-- logical column held by a spare croft -/
  spareColumn : Option Nat := none
  /-- temperature latched for the round (R103), 1/64 °C -/
  theta : Int := 0
  lfsr : BitVec 32 := 0
  actPad : Memory := []
  psPad : Memory := []
  store : Memory := []
  /-- forward windows by logical slot, from their opening to their promotion (R61, R160) -/
  windows : Table OpenWindow := []
  /-- row results of transposed windows by logical slot, until their promotion (R72, R176) -/
  rowResults : Table RowResult := []
  /-- σ of the staged vector in each activation pad row (R156) -/
  sigmas : Table (BitVec 16) := []
  /-- wide accumulators of the partial-sum pad that carry a saturated mark (R162, R163) -/
  satMarks : List Nat := []
  /-- the span of what has entered the accumulators of an output vector, by the accumulator of output 0 (R157, R158) -/
  accSpans : Table Nat := []
  /-- rescaled outputs y_c of the last promotion (R158) -/
  outputs : Table (BitVec 32) := []
  watchAct : List Watch := []
  watchPs : List Watch := []
  /-- detect mode: times of the bells at which pad errors marked steps (R210) -/
  parityBells : List Nat := []
  /-- errors in pattern-region lines: (line, time) (R212) -/
  lineErrors : List (Nat × Nat) := []
  /-- flit errors and footpath errors by link: (link, time) (R230, R483) -/
  flitErrors : List (Nat × Nat) := []
  footErrors : List (Nat × Nat) := []
  routerFault : Bool := false
  routerErrors : Nat := 0
  /-- gauging order set by GAUGE.FORCE, head first -/
  forced : List Nat := []
  /-- logical moulds whose in-place recast is queued, in turn order (R504) -/
  recasts : List Nat := []
  /-- logical moulds out of service with a reserve under way or being recast in place; steps that use them are held -/
  held : List Nat := []
  /-- injection and ejection have stopped: the croft was fenced before the last bell (R250) -/
  stopped : Bool := false
  /-- words of the pads that are in parity error, as physical byte address ÷ 8 (R204, R208) -/
  actBad : List Nat := []
  psBad : List Nat := []
  /-- marks gathered in the round, and whether the round's MARK message has gone (R247) -/
  gathered : List (Nat × Cause) := []
  markSent : Bool := false
  /-- a parity error hit the temperature table at this time; it is reloaded within 20 µs (R212) -/
  tableLostAt : Option Nat := none
  deriving DecidableEq, Repr

/-- A slice lease (R258 to R261). -/
structure Lease where
  held : Bool := false
  holder : Holder := .reeve
  epoch : BitVec 32 := 0
  ends : Nat := 0
  deriving DecidableEq, Repr

/-- An entry of the gather buffer (R194 to R197): slice-row number, bytes written (offset and byte), time of the last write. -/
structure GatherEntry where
  row : Nat
  bytes : List (Nat × BitVec 8)
  last : Nat
  deriving DecidableEq, Repr

/-- A spare croft being brought into service in a row (R251). -/
structure SpareJob where
  row : Nat
  column : Nat
  spare : Nat
  fenced : Nat
  /-- what the detour run decided: `none` while it runs (R252) -/
  patchFits : Option Bool := none
  /-- the patch is being written (R588) -/
  writing : Bool := false
  /-- the casts of its 16 logical moulds have been asked for (R251) -/
  castAsked : Bool := false
  /-- the bell after the fence has withdrawn and held the steps that use the coordinate (R253) -/
  announced : Bool := false
  deriving DecidableEq, Repr

/-- What a narrow requester received last (R194 to R197, R211, R258): a code or data, and whether the data is poisoned. -/
structure Reply where
  code : Option Code := none
  data : List (BitVec 8) := []
  poison : Bool := false
  deriving DecidableEq, Repr

/-- A barrier of a die (R248). -/
structure BarrierState where
  members : List Nat
  arrived : List Nat := []
  released : Bool := false
  deriving DecidableEq, Repr

/-- A die. -/
structure Die where
  /-- moulds that the quick gauging check has still to cover, and what it has measured (R397, R398) -/
  quickDue : List (Nat × Nat) := []
  quickIn : List QuickCheck := []
  pattern : Option PatternImage := none
  /-- the pattern the degraded pattern took the place of (R254) -/
  lost : Option PatternImage := none
  loading : Option PatternImage := none
  /-- the load is one of a GEN_SWITCH -/
  loadingSwitch : Bool := false
  /-- the load has completed and the pattern runs from the next bell -/
  loadDone : Bool := false
  unloadAsked : Bool := false
  /-- the unload was accepted after the go of the load in progress (R240) -/
  unloadLoad : Bool := false
  degraded : Bool := false
  /-- no fault has put the die on the degraded pattern since the load in progress passed its checks (R254) -/
  loadClean : Bool := true
  /-- the last pattern that ran, whose lane map the quench still uses once it is unloaded (R220) -/
  lastPattern : Option PatternImage := none
  /-- coordinates whose detour patch is in force: row, logical column, spare croft (R238, R252) -/
  patches : List (Nat × Nat × Nat) := []
  /-- device time up to which the scheduled transfers of the round have been made (R180, R228) -/
  ranTo : Nat := 0
  /-- data units of the cross-die transfers that are coming in: entry of section 0x0009, and the 64-byte parts that have arrived (R412, R418) -/
  xfers : Table (List (Nat × List (BitVec 8))) := []
  /-- memory mode in force: map mode when true (DIE.MEM_MODE.mode) -/
  mapMode : Bool := true
  mapLocked : Bool := false
  fieldMapped : Bool := false
  powerAct : BitVec 4 := 0
  powerPs : BitVec 2 := 0
  powerGran : Table (BitVec 8) := []
  granary : Memory := []
  /-- die record area: pad maps, 8 × (64 × row + column) + entry, and granary maps, 64 × slice + entry, to failing rows -/
  padMap : Table Nat := []
  granMap : Table Nat := []
  /-- header of the record area: test date, rows mapped at test (R202; log 2) -/
  testDate : Nat := 0
  testRows : Nat := 0
  /-- words of the granary that are in parity error, as physical byte address ÷ 8 (R204, R208) -/
  granBad : List Nat := []
  /-- σ of the staged vector that a granary row holds (R156): 2,048 × slice + row -/
  granSigmas : Table (BitVec 16) := []
  /-- map-outs whose entry is written and whose copy takes effect at the next bell: (croft, entry) and granary entries -/
  padMapPending : List (Nat × Nat) := []
  granMapPending : List Nat := []
  /-- watch lists of the slices (R207): slice, and the watched row -/
  granWatch : List (Nat × Watch) := []
  granParityBells : List (Nat × Nat × Nat) := []
  refusedRows : List Nat := []
  gather : List GatherEntry := []
  reply : Reply := {}
  leases : Table Lease := []
  spareJobs : List SpareJob := []
  barriers : Table BarrierState := []
  epoch : BitVec 32 := 0
  /-- rows with open rows assigned to a context: (context, granary row number) -/
  openRows : List (Nat × Nat) := []
  /-- lanes released at the last bell, as (lane, stage on this die), to be quenched at the end of the round -/
  quenchLanes : List (Nat × Nat) := []
  quenchContexts : List Nat := []
  /-- adapter and gradient lines of released tempering jobs: (croft, line) -/
  quenchLines : List (Nat × Nat) := []
  quenchCrofts : List Nat := []
  /-- abandoned casts, by croft, logical slot and whether it streamed through the casting area: their row-group rows are zeroed in the
  interval (R222) -/
  quenchCasts : List (Nat × Nat × Bool) := []
  quenchAll : Bool := false
  /-- steps marked in the round by footpath errors at its end -/
  footMarked : Bool := false
  /-- gauging age limit latched at the bell (R117) -/
  staleAge : Nat := 0xEA60
  /-- riser histogram selection in force (R556) -/
  histSel : Word := 0
  deriving DecidableEq, Repr

/-! ### Serving -/

/-- The stop record of a session (R333). -/
structure StopRec where
  endTokens : List Nat := []
  seqs : List (List Nat) := []
  deriving DecidableEq, Repr

/-- A record of a ring (R337). -/
structure Record where
  kind : Nat
  code : Nat := 0
  flags : Nat := 0
  detail : Nat := 0
  cookie : Nat := 0
  /-- bytes 16 to 23 as one number -/
  head : Nat := 0
  time : Nat := 0
  /-- bytes 32 to 63: (offset, length, value) -/
  body : List (Nat × Nat × Nat) := []
  deriving DecidableEq, Repr

/-- An accepted session command awaiting its outcome (R342, R345). -/
structure Queued where
  window : Nat
  seq : Nat
  cookie : Nat
  body : Body
  generation : Nat
  tokens : List Nat := []
  accepted : Nat := 0
  /-- its outcome record, decided and waiting for every earlier outcome (R345) -/
  out : Option Record := none
  /-- a STOP or CANCEL that has acted (R345) -/
  acted : Bool := false
  deriving DecidableEq, Repr

/-- The kind of a turn. -/
inductive TurnKind where
  | prompt | generate | draft
  deriving DecidableEq, Repr

/-- The turn in progress of a session (R322). -/
structure Turn where
  kind : TurnKind
  window : Nat
  seq : Nat
  cookie : Nat
  adapter : Nat := 0xFFFF
  image : Option Nat := none
  tokens : List Nat := []
  total : Nat := 0
  maxNew : Option Nat := none
  deadline : Option Nat := none
  floor : Option Nat := none
  lookup : Bool := false
  shareable : Bool := false
  started : Bool := false
  /-- position of its first input token -/
  startAt : Nat := 0
  /-- the floor it named awaits the bell after its first step's commit (R359) -/
  floorDue : Bool := false
  walkDone : Bool := true
  hits : Nat := 0
  shared : Nat := 0
  delivered : Nat := 0
  tail : List Nat := []
  /-- SUSPECT, STALE and EMPTY flags of the steps it has delivered (R145, R354) -/
  flags : Nat := 0
  deriving DecidableEq, Repr

/-- A withdrawn step that waits to be re-admitted (R141, R204, R253): the bell that withdrew it, the first bell at which it may
be re-admitted, and its number, to which probes are tied. -/
structure Rerun where
  markedAt : Nat
  readyAt : Nat
  step : Nat
  deriving DecidableEq, Repr

/-- State of a context entry (SESS.STATE). -/
inductive EntryState where
  | free | openS | leaving | job | awaitingIn
  deriving DecidableEq, Repr

/-- A croft's part of a checkpoint (R497): its register of R178 and its adapter bytes (store address and byte). -/
structure CroftCkpt where
  croft : Nat
  lfsr : BitVec 32
  bytes : List (Nat × BitVec 8)
  deriving DecidableEq, Repr

/-- A checkpoint slot (R497): what its pages hold, two state pages and the weight pages. -/
structure CkptSlot where
  sequence : Nat := 0
  microBatch : Nat := 0
  dataOffset : Nat := 0
  crofts : List CroftCkpt := []
  pages : List Nat := []
  deriving DecidableEq, Repr

/-- A tempering job (R334, R497 to R501). -/
structure Job where
  handle : Nat
  microBatches : Nat
  batch : Nat
  rate : BitVec 32
  interval : Nat
  dataAddr : Nat := 0
  dataLen : Nat := 0
  seed : Nat := 0
  crofts : List Nat := []
  done : Nat := 0
  dataOffset : Nat := 0
  /-- a checkpoint copy is in progress; the next update waits -/
  copying : Bool := false
  slot0 : CkptSlot := {}
  slot1 : CkptSlot := {}
  sequence : Nat := 0
  restarts : Nat := 0
  lastCause : Option Code := none
  /-- restarts from the newest checkpoint reload at this bell (R500) -/
  restartAt : Option Nat := none
  /-- store lines that hold the job's adapter: (croft, line) -/
  lines : List (Nat × Nat) := []
  /-- store lines that hold its gradient sums: (croft, line) (R177, R220) -/
  gradLines : List (Nat × Nat) := []
  /-- the image of its handle that it holds from its first admission to its outcome (R334, R361) -/
  image : Option Nat := none
  /-- its outcome is decided; the entry is released in action 4 of a bell (R349) -/
  ended : Bool := false
  /-- a warm reset has come: the job restarts at the first bell after it (R347, R499) -/
  resetDue : Bool := false
  deriving DecidableEq, Repr

/-- A page-table entry (R293), by its kind; `unused` is kind 3. -/
inductive Pte where
  | empty
  | page (p : Nat)
  | remote (package : Nat) (refEpoch : Nat) (p : Nat)
  | unused
  deriving DecidableEq, Repr

/-- A context entry in use. -/
structure Session where
  st : EntryState := .free
  window : Nat := 0
  tenant : Nat := 0
  cls : Nat := 0
  kv8 : Bool := false
  pub : Bool := false
  outRing : Nat := 0
  capacity : Nat := 0
  temperature : BitVec 16 := 0
  topK : Nat := 0
  seed : Nat := 0
  stop : StopRec := {}
  committed : Nat := 0
  tentative : Nat := 0
  pending : Option Nat := none
  generation : Nat := 0
  kvTag : Nat := 0
  floor : Nat := 0
  queue : List Queued := []
  turn : Option Turn := none
  rerun : Option Rerun := none
  /-- time since which its next step has been ready (R351) -/
  readySince : Nat := 0
  /-- its next step was held at admission (R140, R253, R500) -/
  holdEnded : Bool := false
  tokenLog : List Nat := []
  /-- page table: entry number to page (R292) -/
  table : Table Pte := []
  rootPage : Nat := 0
  /-- pages that hold the token log, and the table pages under a directory by directory entry -/
  logPages : List Nat := []
  tablePages : Table Nat := []
  /-- pages reserved at the admission of the last committed step, to be freed at the next bell (R302) -/
  toFree : List Nat := []
  /-- the floor of the turn whose first step has committed; global pages below it are freed at the next bell (R359) -/
  floorRaised : Option Nat := none
  /-- every lane it has held: die, lane, stage on the die (R220) -/
  lanesHeld : List (Nat × Nat × Nat) := []
  /-- a CANCEL of class P waits for its PROMPT step (R356) -/
  cancelP : Bool := false
  held : List Record := []
  firstTag : Option Nat := none
  mixed : Bool := false
  remoteLost : Bool := false
  delivered : Nat := 0
  openedAt : Nat := 0
  opened : Bool := false
  job : Option Job := none
  /-- CANCEL accepted, applied at the first bell (R356), waiting for a PROMPT step of class P -/
  cancelling : Bool := false
  /-- migration in progress: partner package, tag, time of acceptance -/
  migration : Option (Nat × Nat × Nat) := none
  /-- the session's entry on the source of its migration, once its manifest has come -/
  partner : Nat := 0
  confirmed : Bool := false
  /-- the migration has failed with this code; its command is answered at the next bell (R34, R349, R367) -/
  migFailed : Option Code := none
  /-- ranges of slots of an adopted prefix that are still to come from another package (R308) -/
  copies : Nat := 0
  /-- the session's hub became faulty; its mirror ends the session at the next bell (R347, R349) -/
  fenceDue : Bool := false
  /-- acceptance made a change that the SESS page shows from the next bell (R553) -/
  changed : Bool := false
  deriving DecidableEq, Repr

/-- What a step is for. -/
inductive StepKind where
  | promptPart | promptLast | generate | draft | temper
  deriving DecidableEq, Repr

/-- A step in flight (R322, R351). -/
structure Step where
  id : Nat
  context : Nat
  kind : StepKind
  first : Nat
  tokens : List Nat := []
  count : Nat
  /-- dies of its pipeline copy with their stage counts -/
  dies : List (Nat × Nat) := []
  stage : Nat := 0
  total : Nat := 1
  marks : List Cause := []
  rerun : Bool := false
  suspect : Bool := false
  stale : Bool := false
  empty : Bool := false
  /-- a failure that is not a re-run mark: POISON, EPOCH, FENCED (R276, R320, R254) -/
  failed : Option Code := none
  /-- probes that marked it: (croft number, physical mould) -/
  probes : List (Nat × Nat) := []
  /-- tally charges: window and nJ (R375, R376) -/
  charges : List (Nat × Rat) := []
  /-- pages entered in the table at its admission -/
  newPages : List (Nat × Nat) := []
  /-- query-set records that its exchanges take in the attention scratch area (R297) -/
  records : Nat := 0
  reservedSlots : Nat := 0
  lane : Nat := 0
  admitted : Nat := 0
  /-- crofts whose window of this step disagreed in its re-run (R142): croft number and physical mould -/
  disagreed : List (Nat × Nat) := []
  deriving DecidableEq, Repr

/-- A ring of a window (R335, R336). -/
structure Ring where
  cfg : Word := 0
  produced : Nat := 0
  released : Nat := 0
  /-- slots reserved by steps in flight (R339) -/
  reserved : Nat := 0
  deriving DecidableEq, Repr

/-- The intake journal of a window (R344, R451): the entries of commands without an outcome: seq, body and progress, in the primary copy and in
the mirror. The progress is the number of positions or micro-batches that the command has committed. DESIGN CHOICE, log 103: its form. -/
structure Journal where
  primary : List (Nat × Body × Nat) := []
  mirror : List (Nat × Body × Nat) := []
  deriving DecidableEq, Repr

/-- An intake window. -/
structure Window where
  queue : List (CmdHead × Body) := []
  nextSeq : Nat := 0
  spent : Bool := false
  decided : Bool := false
  /-- seq of the last accepted command, as the mark cells would take it -/
  accepted : Option Nat := none
  lastAccepted : Nat := 0
  markValid : Bool := false
  markNone : Bool := false
  rings : Table Ring := []
  heldOutcomes : List Record := []
  /-- records of released sessions that wait for a slot of an output ring: ring number and record (R339) -/
  heldOut : List (Nat × Record) := []
  /-- refused writes counted in a warm reset, recorded at ready: seq, cookie -/
  refusedLater : List (Nat × Nat) := []
  awaiting : Nat := 0
  journal : Journal := {}
  deriving DecidableEq, Repr

/-- Non-volatile mark cells of a hub (R348). -/
structure Marks where
  written : Bool := false
  valid : Bool := false
  /-- window number to the seq of its last accepted command -/
  seqs : Table (Option Nat) := []
  deriving DecidableEq, Repr

/-- A tenant (R350). -/
structure Tenant where
  budget : Word := 0x0010100000000000
  /-- BUDGET as written, in force from the next bell -/
  next : Option Word := none
  balance : Int := 0
  remainder : Nat := 0
  keyed : Bool := false
  deriving DecidableEq, Repr

/-- A verified adapter image (R360, R361, R527, R528). -/
structure AdapterRec where
  id : Nat
  handle : Nat
  digest : Nat
  baseDigest : Nat
  tenant : Nat
  rank : Nat
  publisher : Nat
  bytes : Nat := 0
  tempered : Bool := false
  modifiesKV : Bool := false
  slot : Option Nat := none
  bound : Nat := 0
  /-- pool pages that hold its body (R527) -/
  pages : List Nat := []
  deriving DecidableEq, Repr

/-- An accepted ADAPTER_LOAD or ADAPTER_DROP awaiting its outcome. -/
structure AdapterCmd where
  window : Nat
  seq : Nat
  cookie : Nat
  handle : Nat
  addr : Nat := 0
  len : Nat := 0
  drop : Bool := false
  /-- verified image, to be mapped at the next bell -/
  image : Option Nat := none
  deriving DecidableEq, Repr

/-- Serving: windows, contexts, steps, tenants and adapters. -/
structure Serving where
  windows : Table Window := []
  marks : Table Marks := []
  sessions : Table Session := []
  steps : List Step := []
  nextStep : Nat := 0
  tenants : Table Tenant := []
  images : List AdapterRec := []
  nextImage : Nat := 0
  /-- handle to image -/
  handles : Table Nat := []
  adapterCmds : List AdapterCmd := []
  /-- trained images whose handles action 6 of the bell maps: handle and image (R334, R349) -/
  trained : List (Nat × Nat) := []
  /-- publisher slots whose revocation takes effect at the next bell (R529) -/
  revoked : List Nat := []
  /-- a debug quench is due at the next bell (R542) -/
  debugScope : Option Nat := none
  deriving DecidableEq, Repr

/-! ### Attention -/

/-- An attention descriptor (R272). -/
structure Descriptor where
  seq : Nat
  context : Nat
  layer : Nat
  kv8 : Bool
  head : Nat
  queryCount : Nat
  keyFirst : Nat
  keyCount : Nat
  partIndex : Nat
  firstPosition : Nat
  qset : Nat
  tau : BitVec 16
  window : Nat
  floor : Nat
  epoch : Nat
  page : Nat
  deriving DecidableEq, Repr

/-- An attention engine (R266, R272 to R275): its lease, its queue slots of 64 bytes by slot number, and the answer of its last slot
read. -/
structure Engine where
  lease : Lease := {}
  slots : Table (List (BitVec 8)) := []
  produced : Nat := 0
  expected : Nat := 0
  halted : Bool := false
  slotRead : Reply := {}
  deriving DecidableEq, Repr

/-- A query-set record with its partials (R272, R281). -/
structure QSet where
  step : Nat := 0
  layer : Nat := 0
  queries : List Query := []
  /-- the die and the pad row of each query's output (R283) -/
  die : Nat := 0
  outs : List RowPlace := []
  partials : Nat := 0
  arrived : Table (List SoftState) := []
  merged : Nat := 0
  running : List SoftState := []
  /-- output vectors, with the EMPTY mark of each query (R282) -/
  outputs : Option (List (List (BitVec 32) × Bool)) := none
  released : Bool := false
  poison : Bool := false
  /-- descriptors of this set that wait for the acknowledgement of the new key-value writes (R295) -/
  waiting : List (Nat × Descriptor) := []
  deriving DecidableEq, Repr

/-- A remote attention request (R316 to R318). -/
structure RemoteReq where
  tag : Nat
  package : Nat
  qset : Nat
  part : Nat
  timedOut : Bool := false
  deriving DecidableEq, Repr

/-- Attention resources of a hub. -/
structure HubAttn where
  engines : Table Engine := []
  qsets : Table QSet := []
  remote : List RemoteReq := []
  nextTag : Nat := 0
  coresHalted : List Nat := []
  /-- leases of the DMA channels and of the page-table lock (R468, R484) -/
  dmaLeases : Table Lease := []
  lockLease : Lease := {}
  /-- the page-table lock ended by a fault of its holder: whoever takes it next rebuilds the tables (R485) -/
  lockFault : Bool := false
  /-- what the hub scheduler answered last to a control core that asked for a lease (R258, R484) -/
  grant : Reply := {}
  deriving DecidableEq, Repr

/-- The root of a commons chain (R303). -/
structure Root where
  kvTag : Nat
  kv8 : Bool
  scope : Nat
  adapterTag : Nat
  deriving DecidableEq, Repr

/-- A commons node (R305). -/
structure Node where
  hash : BitVec 64
  parent : Option Nat
  /-- next node in the same bucket -/
  next : Option Nat
  depth : Nat
  children : Nat
  prefixTable : Nat
  lastUse : Nat
  root : Root
  tokens : List Nat
  deriving DecidableEq, Repr

/-- A prefix table (R309): its length in positions, and its entries by (layer × H + head, block of T positions). -/
structure PrefixTable where
  length : Nat
  entries : List ((Nat × Nat) × Pte)
  deriving DecidableEq, Repr

/-- References another package holds on pages of this one (R320): page to the time of its last renewal. -/
structure RemoteRef where
  package : Nat
  pages : Table Nat := []
  deriving DecidableEq, Repr

/-- Attention, the page pool and the commons. -/
structure Storage where
  hubs : Table HubAttn := []
  /-- reference count of each allocated page (R310) -/
  refs : Table Nat := []
  /-- the stack of each hub from which it allocates next: second stack when listed as 1 (R287) -/
  turn : Table Nat := []
  nodes : Table Node := []
  /-- first node of each hash bucket (R305) -/
  buckets : Table Nat := []
  prefixes : Table PrefixTable := []
  /-- pool pages given to nodes (R314) -/
  nodePages : List Nat := []
  /-- COMMONS.POOL as written, in force from the next bell -/
  commonsNext : Option Nat := none
  /-- lease of the commons lock (R312, R484) -/
  commonsLease : Lease := {}
  storeEpoch : Nat := 0
  /-- references held by other packages on this one -/
  served : List RemoteRef := []
  deriving DecidableEq, Repr

/-! ### Stacks -/

/-- What is stored beside the bytes of a line (R458 to R460): no marker, the poison marker, the blank marker. -/
inductive Marker where
  | clean | poison | blank
  deriving DecidableEq, Repr

/-- Code state of a stored line: marker, data symbols 0 to 7 that are in error (bit i for symbol i), key index and key version
it was written under. -/
structure LineCode where
  marker : Marker := .blank
  flips : BitVec 8 := 0
  key : Nat := 1
  version : Nat := 0
  deriving DecidableEq, Repr

/-- An HBM4 stack and its sweep. -/
structure StackSt where
  out : Bool := false
  failedStep : Nat := 0
  /-- staging regions: region number to (first page, pages) -/
  staging : Table (Nat × Nat) := []
  stageReady : List Nat := []
  /-- unclean pages as intervals of stack-local pages, both ends included -/
  unclean : List (Nat × Nat) := []
  repair : List Nat := []
  repairUsed : Nat := 0
  repairLeft : Nat := 0
  rowsRetired : Nat := 0
  withheld : List Nat := []
  sweepPos : Nat := 0
  lapStart : Nat := 0
  lapAlarmed : Bool := false
  laps : Nat := 0
  lastMs : Nat := 0xFFFFFF
  /-- lines corrected by the sweep in the last lap and in this one -/
  correctedLast : List Nat := []
  correctedNow : List Nat := []
  droppedWrites : Nat := 0
  deriving DecidableEq, Repr

/-- Stack memory: bytes keyed by stack number × 2^37 + stack byte, and the code of each line, keyed by address ÷ 64. -/
structure Stacks where
  mem : Memory := []
  lines : Table LineCode := []
  units : Table StackSt := []
  deriving DecidableEq, Repr

/-! ### Tally, sensors, links, lockhouse, steward -/

/-- The tally (R368 to R388). -/
structure Tally where
  step : Nat := 0
  /-- forward windows opened in the current tally window, and those that were A8 (R173) -/
  forward : Nat := 0
  a8 : Nat := 0
  /-- array and smithy energy of the operations of the current tally window at 45 °C, fJ (R67, R68, R73, R124, R137, R171) -/
  arrayFj : Nat := 0
  gross : Nat := 14000000
  unpred : Rat := 0
  debt : Rat := 0
  lastM : Nat := 0
  allow : Rat := 0
  window : Nat := 0
  ledger : Table Rat := []
  limits : Nat × Nat × Nat := (90, 80, 70)
  limitsNext : Option (Nat × Nat × Nat) := none
  debtClear : Bool := false
  storm : Bool := false
  stormQuiet : Nat := 0
  cool : Nat := 0
  /-- the highest diode result that was the latest of its input at any time in the current window, 1/64 °C (R387) -/
  hotSeen : Int := -32768
  staleConv : List Nat := []
  energyNj : Nat := 0
  /-- moulds that have been casting in the current tally window, and the leakage charged in it so far (R377) -/
  castSeen : Nat := 0
  leakNj : Nat := 0
  deriving DecidableEq, Repr

/-- An urgent request (R392): its input, whether the tally asks for it to confirm a result, and whether that result was one of
112.0 °C or more (R568). -/
structure Urgent where
  input : Nat
  confirm : Bool := false
  trip : Bool := false
  deriving DecidableEq, Repr

/-- A sensor converter (R390 to R396). -/
structure Converter where
  /-- active table: (input, ring) of each entry -/
  active : List (Nat × Bool) := (List.range 48).map fun i => (i, false)
  position : Nat := 0
  /-- an apply waits for the end of the current conversion (R391) -/
  applied : Bool := false
  /-- urgent requests not yet taken, oldest first (R392) -/
  urgent : List Urgent := []
  /-- the urgent conversion in progress -/
  running : Option Urgent := none
  /-- the sequence conversion in progress runs in low-power mode (R396) -/
  lowPower : Bool := false
  /-- no sequence conversion is in progress or abandoned: the sequence is stopped (R391) -/
  stopped : Bool := false
  ringWr : Nat := 0
  ringRd : Nat := 0
  /-- records in the ring by slot -/
  ring : Table Word := []
  /-- device time of the latest result of each input -/
  latestAt : Table Nat := []
  /-- the watermark condition as last seen (R395): it holds at reset, when both counts and the watermark are zero -/
  watermark : Bool := true
  deriving DecidableEq, Repr

/-- A UCIe module (R406 to R416): credits that its far end, the steward's or the die's, holds for the hub, and that the hub holds for it (R415). -/
structure UModule where
  state : Nat := 0
  width : Nat := 0
  retrains : Nat := 0
  repairedTx : Nat := 0
  repairedRx : Nat := 0
  npCredits : Nat := 256
  pCredits : Nat := 128
  hubNp : Nat := 256
  hubP : Nat := 128
  /-- out of service after the training of the start (R506) -/
  startFailed : Bool := false
  deriving DecidableEq, Repr

/-- A completion (R414, R417): status, data, poison flag. -/
structure Answer where
  status : Nat := 0
  data : List (BitVec 8) := []
  poison : Bool := false
  deriving DecidableEq, Repr

/-- A non-posted request outstanding at a steward module (R416): when it was sent, what the device answered, whether the requester has timed
it out, and whether the request or its response was lost in a retrain (R410). -/
structure Outstanding where
  module : Nat
  tag : Nat
  answer : Answer := {}
  timedOut : Bool := false
  sentAt : Nat := 0
  lost : Bool := false
  deriving DecidableEq, Repr

/-- The completion a steward module's requester received last: module, tag, answer. -/
structure Delivered where
  module : Nat
  tag : Nat
  answer : Answer
  deriving DecidableEq, Repr

/-- A Kyrok port (R428 to R434, R443). -/
structure Port where
  state : Nat := 0
  lanes : List Nat := []
  retired : List Nat := []
  peerPort : Nat := 0
  peerPackage : Nat := 0
  /-- flits sent and not acknowledged, oldest first, with their numbers -/
  kept : List (Flit × Nat) := []
  sent : Nat := 0
  acked : Nat := 0
  received : Nat := 0
  discarding : Bool := false
  nakDue : Bool := false
  creditsVl0 : Nat := 224
  creditsVl1 : Nat := 32
  /-- credits and flits received that wait to be acknowledged -/
  owedVl0 : Nat := 0
  owedVl1 : Nat := 0
  unacked : Nat := 0
  laneCorrected : Table Nat := []
  outOfService : Bool := true
  /-- fewer than six lanes trained: out of service after the training of the start (R428, R506) -/
  startFailed : Bool := false
  /-- flits of each VL that wait to be sent -/
  queueVl0 : List Flit := []
  queueVl1 : List Flit := []
  /-- flits received of messages that are still to be taken (R433) -/
  inbox : List Flit := []
  /-- since when something has waited to be acknowledged (R432) -/
  waitSince : Option Nat := none
  /-- bytes 1 to 16 of the CTRL flit last sent (R430) -/
  ctrlSent : List (BitVec 8) := []
  deriving DecidableEq, Repr

/-- An outstanding remote read (R445). -/
structure RRead where
  tag : Nat
  package : Nat
  port : Nat
  page : Nat
  first : Nat
  len : Nat := Config.pageBytes
  dest : Nat
  sent : Nat
  /-- the hub that asks (R445) -/
  hub : Nat := 0
  /-- RREAD_TO of the port as it stood at the sending, ns (R448) -/
  limit : Nat := 0
  context : Nat
  epoch : Nat
  deriving DecidableEq, Repr

/-- A message the package owes another package or answers it with: destination, type and the numbers of its body. -/
structure OutMsg where
  destination : Nat
  type : Nat
  body : List Nat := []
  poison : Bool := false
  data : List (BitVec 8) := []
  deriving DecidableEq, Repr

/-- Links: UCIe, the steward's outstanding accesses and Kyrok. -/
structure Links where
  modules : Table UModule := []
  outstanding : List Outstanding := []
  delivered : Option Delivered := none
  /-- the response to the last register write of any width: steward module and status (R9) -/
  response : Option (Nat × Nat) := none
  /-- steward accesses held through a warm reset (R570) -/
  heldAccesses : List Instr := []
  /-- snoops not yet answered: hub, line (package-wide address ÷ 64), for a write -/
  snoops : List (Nat × Nat × Bool) := []
  /-- partition lines dirty in a steward cache -/
  dirtyLines : Table (List (BitVec 8)) := []
  ports : Table Port := []
  /-- the message accepted last: port, header and decrypted body and payload (R441, R442) -/
  opened : Option (Nat × List Nat) := none
  /-- non-volatile lane record: port × 8 + lane, to retirements -/
  laneRetirements : Table Nat := []
  outbox : List OutMsg := []
  rreads : List RRead := []
  /-- next tag of each hub's remote reads (R445) -/
  nextRread : Table Nat := []
  /-- last counter accepted: (source, VL, epoch) to counter -/
  lastCounter : List (Nat × Bool × Nat × Nat) := []
  /-- last counter sent: (destination, VL, epoch) to counter -/
  sentCounter : List (Nat × Bool × Nat × Nat) := []
  /-- manifests received, with their time, until the MIGRATE_IN of the same source and tag is accepted (R366, R367) -/
  manifests : List (Manifest × Nat) := []
  /-- pending migrations on the target side, keyed by context: pages still to fetch -/
  fetching : Table Nat := []
  kyrokBarriers : List (Nat × Nat × Bool) := []
  deriving DecidableEq, Repr

/-- A token whose burn is in progress (R538). -/
structure Burn where
  kind : Nat
  slot : Nat := 0
  key : Nat := 0
  owner : Nat := 0
  scope : Nat := 0
  deriving DecidableEq, Repr

/-- The fuses of hub 0 (R509, R535). -/
structure Fuses where
  /-- calibration of each sensor input, converter × 48 + input (R389; log 104) -/
  sensorCal : Table Int := []
  /-- 512 random bits that Aeldoern writes at test (R509); the value is open, zero in State.reset. DESIGN CHOICE, log 34. -/
  deviceSecret : BitVec 512 := 0
  rollback : Nat := 0
  ownerUsed : Nat := 0
  ownerDigest : Nat := 0
  debugUsed : Nat := 0
  /-- publisher slot to its key -/
  publishers : Table Nat := []
  pubRevoked : List Nat := []
  deriving DecidableEq, Repr

/-- An attestation request (R530, R531): kind, package-wide address and length of the buffer, and the report as the snapshot found
it, without its alias block and signature. -/
structure AttestReq where
  chain : Bool
  addr : Nat
  len : Nat
  snap : Option (List (BitVec 8)) := none
  deriving DecidableEq, Repr

/-- A 4 KiB block of a firmware image in the firmware area (R517): its offset, its length and its 256-bit digest. -/
structure FwBlock where
  at_ : Nat
  length : Nat
  digest : List Nat
  deriving DecidableEq, Repr

/-- The primary lockhouse (R508 to R544). -/
structure Lockhouse where
  fuses : Fuses := {}
  nonce : Word := 0
  draws : Nat := 0
  /-- the entropy source has passed its start health test (R510) -/
  entropyOk : Bool := false
  fwVerified : Bool := false
  ready : Bool := false
  lastCode : Nat := 0
  debugOpen : Bool := false
  debugScope : Nat := 0
  securityVersion : Nat := 0
  firmwareDigest : Nat := 0
  /-- lockhouse SRAM: the digest of every 4 KiB block of the images in the firmware area (R517) -/
  blocks : List FwBlock := []
  burn : Option Burn := none
  /-- an attestation request in progress -/
  attest : Option AttestReq := none
  /-- stack key slots: key index to version (R513) -/
  keys : Table Nat := []
  keyDraws : Nat := 0
  /-- image digest recorded for each loaded pattern (R239): die to digest -/
  patternDigests : Table Nat := []
  /-- domain: 0 not joined, 1 joining, 2 member, 3 root, 4 leaving (LOCK.DOMAIN_STATUS) -/
  domainState : Nat := 0
  keyEpoch : Nat := 0
  /-- the epoch before it, still accepted, and its key (R444) -/
  oldEpoch : Option Nat := none
  oldKey : Nat := 0
  /-- when the present epoch began (R444) -/
  epochAt : Nat := 0
  domainKey : Nat := 0
  members : List Nat := []
  /-- this package's X448 secret of the join in progress, and the secret it shares with each package it has joined with (R443) -/
  joinSecret : List Nat := []
  shared : Table (List Nat) := []
  /-- join started at this time -/
  joinAt : Nat := 0
  deriving DecidableEq, Repr

/-- The steward's interrupt queue (R559) and the interrupts raised on its harts: (hart, number). -/
structure Steward where
  fifo : List (BitVec 16) := []
  raised : List (Nat × Nat) := []
  deriving DecidableEq, Repr

/-! ### The whole -/

/-- The state of the block. `pending` is the queue of commands that wait; `fresh` counts the free values drawn so far and
is the model's own field (log 4). -/
structure State where
  pending : List Instr := []
  fresh : Nat := 0
  clock : Clock := {}
  /-- the register file: engine address to value; a register not listed holds its reset value -/
  regs : Table Word := []
  pkg : Package := {}
  dies : Table Die := []
  crofts : Table Croft := []
  serve : Serving := {}
  store : Storage := {}
  hbm : Stacks := {}
  tally : Tally := {}
  sense : Table Converter := []
  links : Links := {}
  lock : Lockhouse := {}
  stew : Steward := {}
  deriving DecidableEq, Repr

/-- The machine right after reset: the package as a fall of RST_N leaves it (R562, R567), every register at the value of its
Reset column and every record as delivered (log 1, log 2). -/
def State.reset : State := {}

end Sys2Proof.Machine
end

