-- ==== Sys2Proof/Machine/Ops.lean ====
section
/-!
DEFINITION. The named operations over tables, memories and units that every meaning uses.
-/
namespace Sys2Proof

/-- The number of a physical croft: 2,048 × die + 64 × row + column (R546). -/
def CroftAt.num (c : CroftAt) : Nat := 2048 * c.die.val + 64 * c.row.val + c.col.val

/-- The UCIE page number of a module: steward module h is h, die d module m is 4 + 2d + m (R546). -/
def ModuleAt.num : ModuleAt → Nat
  | .steward h => h.val
  | .die d m => 4 + 2 * d.val + m.val

end Sys2Proof

namespace Sys2Proof.Machine

/-! ### Sparse canonical tables -/

/-- The entry of key `k`, or `d k` when the table does not list it. -/
def tget {α : Type} (d : Nat → α) : Table α → Nat → α
  | [], k => d k
  | (j, v) :: m, k => if k = j then v else tget d m k

/-- A table without the entry of `k`. -/
def tdrop {α : Type} (m : Table α) (k : Nat) : Table α := m.filter (fun e => e.1 != k)

/-- A table with one more entry, before the first key above it. -/
def tinsert {α : Type} : Table α → Nat → α → Table α
  | [], k, v => [(k, v)]
  | (j, w) :: m, k, v => if k < j then (k, v) :: (j, w) :: m else (j, w) :: tinsert m k v

/-- `m` with the entry of `k` set to `v`; an entry equal to the default is not listed. -/
def tput {α : Type} [DecidableEq α] (d : Nat → α) (m : Table α) (k : Nat) (v : α) : Table α :=
  if v = d k then tdrop m k else tinsert (tdrop m k) k v

/-- The canonical form: keys strictly rising and no entry equal to the default. -/
def twf {α : Type} [DecidableEq α] (d : Nat → α) : Table α → Bool
  | [] => true
  | [(j, v)] => v ≠ d j
  | (j, v) :: (j', v') :: m => v ≠ d j && j < j' && twf d ((j', v') :: m)

/-- Apply `f` to the entry of `k`. -/
def tmod {α : Type} [DecidableEq α] (d : Nat → α) (m : Table α) (k : Nat) (f : α → α) : Table α :=
  tput d m k (f (tget d m k))

/-- A table mapped entry by entry, in canonical form. -/
def tmap {α : Type} [DecidableEq α] (d : Nat → α) (f : Nat → α → α) (t : Table α) : Table α :=
  t.foldr (fun e a => tput d a e.1 (f e.1 e.2)) []

/-- The entry of `k` when the table lists one. -/
def tfind {α : Type} (m : Table α) (k : Nat) : Option α := (m.find? (fun e => e.1 == k)).map (·.2)

/-- Put an entry in a table of optional units (no default): the old entry of `k`, if any, is replaced. -/
def tset {α : Type} (m : Table α) (k : Nat) (v : α) : Table α := tinsert (tdrop m k) k v

/-! ### Byte memories -/

/-- The byte at `a`; an unlisted byte reads zero (R216, R288; log 5). -/
def Memory.get (m : Memory) (a : Nat) : Byte := tget (fun _ => 0) m a

/-- Write one byte. -/
def Memory.set (m : Memory) (a : Nat) (b : Byte) : Memory := tput (fun _ => 0) m a b

/-- The canonical form of a memory. -/
def Memory.wf (m : Memory) : Bool := twf (fun _ => (0 : Byte)) m

/-- Write bytes from `a` upward. -/
def Memory.setBytes (m : Memory) (a : Nat) : List Byte → Memory
  | [] => m
  | b :: bs => Memory.setBytes (m.set a b) (a + 1) bs

/-- The `n` bytes from `a`. -/
def Memory.getBytes (m : Memory) (a n : Nat) : List Byte := (List.range n).map fun i => m.get (a + i)

/-- Zero the `n` bytes from `a`: the listed bytes of the range are dropped. -/
def Memory.clear (m : Memory) (a n : Nat) : Memory := m.filter fun c => c.1 < a || a + n ≤ c.1

/-- Little-endian number of a byte list. -/
def leNat : List Byte → Nat
  | [] => 0
  | b :: bs => b.toNat + 256 * leNat bs

/-- The `n` little-endian bytes of a number. -/
def leBytes : Nat → Nat → List Byte
  | 0, _ => []
  | n + 1, v => BitVec.ofNat 8 v :: leBytes n (v / 256)

/-- The little-endian number in the `n` bytes from `a`. -/
def Memory.getLe (m : Memory) (a n : Nat) : Nat := leNat (m.getBytes a n)

/-- Write the `n` little-endian bytes of `v` from `a`. -/
def Memory.setLe (m : Memory) (a n v : Nat) : Memory := m.setBytes a (leBytes n v)

/-- Two's complement value of an `n`-bit number. -/
def toSigned (n v : Nat) : Int := if v < 2 ^ (n - 1) then (v : Int) else (v : Int) - (2 ^ n : Nat)

/-- The `n`-bit two's complement number of a value. -/
def ofSigned (n : Nat) (v : Int) : Nat := (v % (2 ^ n : Nat)).toNat

/-- The signed byte at `a`. -/
def Memory.getS8 (m : Memory) (a : Nat) : Int := toSigned 8 (m.get a).toNat

/-! ### Units -/

/-- Die, row and physical column of a croft number. -/
def croftDie (n : Nat) : Nat := n / 2048
def croftRow (n : Nat) : Nat := n / 64 % 32
def croftCol (n : Nat) : Nat := n % 64

def State.die (s : State) (d : Nat) : Die := tget (fun _ => {}) s.dies d
def State.setDie (s : State) (d : Nat) (x : Die) : State := { s with dies := tput (fun _ => {}) s.dies d x }
def State.modDie (s : State) (d : Nat) (f : Die → Die) : State := s.setDie d (f (s.die d))

def State.croft (s : State) (n : Nat) : Croft := tget (fun _ => {}) s.crofts n
def State.setCroft (s : State) (n : Nat) (x : Croft) : State := { s with crofts := tput (fun _ => {}) s.crofts n x }
def State.modCroft (s : State) (n : Nat) (f : Croft → Croft) : State := s.setCroft n (f (s.croft n))

/-- The record of a mould nobody has cast: physical moulds 0 to 15 hold the logical slots 0 to 15, and moulds 16 and 17 are
the two reserves as delivered (02, Record area of a croft; log 2). -/
def freshMould (m : Nat) : Mould := { slot := if m < 16 then some m else none }

def Croft.mould (c : Croft) (m : Nat) : Mould := tget freshMould c.moulds m
def Croft.setMould (c : Croft) (m : Nat) (x : Mould) : Croft := { c with moulds := tput freshMould c.moulds m x }
def Croft.modMould (c : Croft) (m : Nat) (f : Mould → Mould) : Croft := c.setMould m (f (c.mould m))

def State.mould (s : State) (c m : Nat) : Mould := (s.croft c).mould m
def State.modMould (s : State) (c m : Nat) (f : Mould → Mould) : State := s.modCroft c fun x => x.modMould m f

/-- The physical mould that holds a logical slot of a croft. -/
def Croft.holding (c : Croft) (slot : Nat) : Option Nat :=
  (List.range 18).find? fun m => (c.mould m).slot == some slot

def State.win (s : State) (w : Nat) : Window := tget (fun _ => {}) s.serve.windows w
def State.setWin (s : State) (w : Nat) (x : Window) : State :=
  { s with serve := { s.serve with windows := tput (fun _ => {}) s.serve.windows w x } }
def State.modWin (s : State) (w : Nat) (f : Window → Window) : State := s.setWin w (f (s.win w))

def Window.ring (w : Window) (n : Nat) : Ring := tget (fun _ => {}) w.rings n
def Window.setRing (w : Window) (n : Nat) (r : Ring) : Window := { w with rings := tput (fun _ => {}) w.rings n r }

def State.sess (s : State) (x : Nat) : Session := tget (fun _ => {}) s.serve.sessions x
def State.setSess (s : State) (x : Nat) (v : Session) : State :=
  { s with serve := { s.serve with sessions := tput (fun _ => {}) s.serve.sessions x v } }
def State.modSess (s : State) (x : Nat) (f : Session → Session) : State := s.setSess x (f (s.sess x))

def State.tenant (s : State) (t : Nat) : Tenant := tget (fun _ => {}) s.serve.tenants t
def State.modTenant (s : State) (t : Nat) (f : Tenant → Tenant) : State :=
  { s with serve := { s.serve with tenants := tmod (fun _ => {}) s.serve.tenants t f } }

def State.hub (s : State) (h : Nat) : HubAttn := tget (fun _ => {}) s.store.hubs h
def State.modHub (s : State) (h : Nat) (f : HubAttn → HubAttn) : State :=
  { s with store := { s.store with hubs := tmod (fun _ => {}) s.store.hubs h f } }

def HubAttn.engine (h : HubAttn) (e : Nat) : Engine := tget (fun _ => {}) h.engines e
def HubAttn.modEngine (h : HubAttn) (e : Nat) (f : Engine → Engine) : HubAttn :=
  { h with engines := tmod (fun _ => {}) h.engines e f }
def HubAttn.qset (h : HubAttn) (q : Nat) : QSet := tget (fun _ => {}) h.qsets q
def HubAttn.modQset (h : HubAttn) (q : Nat) (f : QSet → QSet) : HubAttn :=
  { h with qsets := tmod (fun _ => {}) h.qsets q f }

def State.stack (s : State) (k : Nat) : StackSt := tget (fun _ => {}) s.hbm.units k
def State.modStack (s : State) (k : Nat) (f : StackSt → StackSt) : State :=
  { s with hbm := { s.hbm with units := tmod (fun _ => {}) s.hbm.units k f } }

def State.conv (s : State) (n : Nat) : Converter := tget (fun _ => {}) s.sense n
def State.modConv (s : State) (n : Nat) (f : Converter → Converter) : State :=
  { s with sense := tmod (fun _ => {}) s.sense n f }

def State.port (s : State) (p : Nat) : Port := tget (fun _ => {}) s.links.ports p
/-- Flits of each VL that wait to be sent. -/
def Port.waitVl0 (x : Port) : Nat := x.queueVl0.length
def Port.waitVl1 (x : Port) : Nat := x.queueVl1.length
def State.modPort (s : State) (p : Nat) (f : Port → Port) : State :=
  { s with links := { s.links with ports := tmod (fun _ => {}) s.links.ports p f } }

def State.umod (s : State) (n : Nat) : UModule := tget (fun _ => {}) s.links.modules n
def State.modUmod (s : State) (n : Nat) (f : UModule → UModule) : State :=
  { s with links := { s.links with modules := tmod (fun _ => {}) s.links.modules n f } }

/-! ### Time -/

/-- Device time reaches `t`, unless it is already later: the counter never goes back (R32). -/
def State.advanceTo (s : State) (t : Nat) : State := { s with clock := { s.clock with time := max s.clock.time t } }

/-- The copy of device time that hub `h` holds (R34): within 2 ns of hub 0's counter. -/
def State.hubTime (s : State) (h : Nat) : Nat :=
  if h = 0 then s.clock.time
  else ((s.clock.time : Int) + max (-2) (min 2 ((s.clock.skew[h - 1]?).getD 0))).toNat

/-- The time a reeve reads (R35): within 20 ns of hub 0's counter. -/
def State.reeveTime (s : State) (d : Nat) : Nat :=
  ((s.clock.time : Int) + max (-20) (min 20 ((s.clock.reeveSkew[d]?).getD 0))).toNat

/-- Draw a free value: the counter of free values moves on (log 4). -/
def State.tick (s : State) : State := { s with fresh := s.fresh + 1 }

/-- The clocks of hubs and dies run and register accesses are answered (R402, R586): not before a start, once SLEEP_ACK_N is low, after a
power-fail warning's end, or at THERMTRIP_N. -/
def Phase.answers : Phase → Bool
  | .starting => true
  | .service => true
  | .entering => true
  | .powerFail => true
  | _ => false

def State.answers (s : State) : Bool := s.pkg.phase.answers

/-! ### Rows of a pad (R183, R208) -/

/-- Key of entry `e` of croft `n` in its die's pad maps: entries 0 to 3 are the activation pad's, 4 to 7 the partial-sum pad's (R202). -/
def padMapKey (n e : Nat) : Nat := 8 * (n % 2048) + e

/-- The physical row that a usable pad row is held in: a mapped row lies in its spare row once its copy has taken effect, and in the newest
of them when a spare of its own has failed (R183, R208). -/
def Die.padRow (x : Die) (n : Nat) (ps : Bool) (row : Nat) : Nat :=
  if x.mapMode = false ∨ x.padMap = [] then row
  else match [3, 2, 1, 0].find? fun e =>
      let i := if ps then e + 4 else e
      tfind x.padMap (padMapKey n i) == some row && !decide ((n, i) ∈ x.padMapPending) with
    | some e => (if ps then 124 else 252) + e
    | none => row

/-- The address within a pad of a byte that a program names by usable row. -/
def Die.padAt (x : Die) (n : Nat) (ps : Bool) (a : Nat) : Nat := 512 * x.padRow n ps (a / 512) + a % 512

/-- Usable rows of a pad (R183): the spare rows are reached only through the row map. -/
def Die.padRows (x : Die) (ps : Bool) : Nat := if x.mapMode then (if ps then 124 else 252) else (if ps then 128 else 256)

/-- A program's byte address lies in a usable row of the pad. -/
def Die.padHas (x : Die) (ps : Bool) (a : Nat) : Bool := decide (a / 512 < x.padRows ps)

/-- A physical byte of a pad lies among `len` bytes from usable address `a`. -/
def Die.inPad (x : Die) (n : Nat) (ps : Bool) (a len p : Nat) : Bool :=
  (List.range (len / 512 + 2)).any fun i =>
    let row := a / 512 + i
    let at_ := 512 * row + p % 512
    x.padRow n ps row == p / 512 && decide (a ≤ at_) && decide (at_ < a + len)

/-- A pad's memory with `len` bytes from usable address `a` zeroed. -/
def Die.clearPad (x : Die) (n : Nat) (ps : Bool) (m : Memory) (a len : Nat) : Memory := m.filter fun e => !x.inPad n ps a len e.1

/-- Words in parity error, with those among `len` bytes from usable address `a` rewritten with correct parity (R223). -/
def Die.clearBad (x : Die) (n : Nat) (ps : Bool) (bad : List Nat) (a len : Nat) : List Nat := bad.filter fun w => !x.inPad n ps a len (8 * w)

/-- Write a list of (offset, byte) pairs into a pad from usable address `a`. -/
def Die.writePad (x : Die) (n : Nat) (ps : Bool) (m : Memory) (a : Nat) (bytes : List (Nat × Byte)) : Memory :=
  bytes.foldl (fun k e => Memory.set k (x.padAt n ps (a + e.1)) e.2) m

/-- A byte of the activation pad as the smithy, the router and the crossbar read it; no row that is not usable answers (R183). -/
def State.actByte (s : State) (n a : Nat) : Byte :=
  let x := s.die (croftDie n)
  if x.padHas false a then (s.croft n).actPad.get (x.padAt n false a) else 0

/-- The A8 code at a byte of the activation pad. -/
def State.actCode (s : State) (n a : Nat) : Int := toSigned 8 (s.actByte n a).toNat

/-- Write a byte of the activation pad in a usable row (R183). -/
def State.setAct (s : State) (n a : Nat) (b : Byte) : State :=
  let at_ := (s.die (croftDie n)).padAt n false a
  if (s.die (croftDie n)).padHas false a then s.modCroft n fun c => { c with actPad := c.actPad.set at_ b, actBad := c.actBad.filter fun w => w != at_ / 8 } else s

/-! ### Steps -/

def State.findStep (s : State) (id : Nat) : Option Step := s.serve.steps.find? (fun x => x.id == id)

def State.modStep (s : State) (id : Nat) (f : Step → Step) : State :=
  { s with serve := { s.serve with steps := s.serve.steps.map fun x => if x.id = id then f x else x } }

def State.mapSteps (s : State) (f : Step → Step) : State := { s with serve := { s.serve with steps := s.serve.steps.map f } }

def State.mapImages (s : State) (f : AdapterRec → AdapterRec) : State :=
  { s with serve := { s.serve with images := s.serve.images.map f } }

/-- Add a cause to the marks of a step (R587); a cause already there is kept once. -/
def Step.addMark (x : Step) (c : Cause) : Step :=
  if c ∈ x.marks then x else { x with marks := x.marks ++ [c] }

/-- Mark a step for re-run with a cause (R204, R587). -/
def State.markStep (s : State) (id : Nat) (c : Cause) : State := s.modStep id fun x => x.addMark c

/-- Fail a step at the next bell with a code that admits no re-run (R276, R320); the first code stands. -/
def State.failStep (s : State) (id : Nat) (c : Code) : State :=
  s.modStep id fun x => { x with failed := some (x.failed.getD c) }

/-- Steps in flight that still have a stage to run on die `d`: stages of a pipeline copy run in the order of its dies. -/
def Step.usesDie (x : Step) (d : Nat) : Bool :=
  let rec go : List (Nat × Nat) → Nat → Bool
    | [], _ => false
    | (e, n) :: rest, base => (e == d && decide (x.stage < base + n)) || go rest (base + n)
  go x.dies 0

/-- The step as it stands once the stage that it runs now has ended (R242); a tempering step runs every stage until its micro-batch ends. -/
def Step.next (x : Step) : Step := if x.kind = .temper then x else { x with stage := x.stage + 1 }

/-- The die and the stage within it that a step runs now. -/
def Step.place (x : Step) : Option (Nat × Nat) :=
  if .reset ∈ x.marks then none else
  let rec go : List (Nat × Nat) → Nat → Option (Nat × Nat)
    | [], _ => none
    | (e, n) :: rest, k => if k < n then some (e, k) else go rest (k - n)
  go x.dies x.stage

/-- A step of context `x` in flight. -/
def State.stepOf (s : State) (x : Nat) : Option Step := s.serve.steps.find? (fun y => y.context == x)

/-- Any step in flight on die `d`. -/
def State.stepOnDie (s : State) (d : Nat) : Bool := s.serve.steps.any fun x => x.usesDie d

end Sys2Proof.Machine
end

