-- ==== Sys2Proof/Machine/Regs.lean ====
section
/-!
DEFINITION. The address map (R36 to R40), the page layouts (R545 to R559) and what each access code does (R11).
-/
namespace Sys2Proof.Machine

/-! ### Pages -/

/-- A register page: its block and instance (R37, R546). -/
inductive Page where
  | sys | tally | fuse | tmux | stew | commons
  | lock (h : Nat) | sense (n : Nat) | attn (h : Nat) | kvmap (h : Nat) | stack (k : Nat) | sweep (k : Nat)
  | ucie (n : Nat) | kyrok (p : Nat) | intake (w : Nat) | adapt (a : Nat) | tenant (t : Nat) | sess (x : Nat)
  | die (d : Nat) | gauge (d : Nat) | riser (d : Nat) | pad (d : Nat) | gran (d : Nat) | foot (d : Nat)
  | croft (n : Nat)
  deriving DecidableEq, Repr

/-- The page type code (R546). -/
def Page.code : Page → Nat
  | .sys => 0x01 | .tally => 0x02 | .sense _ => 0x03 | .kyrok _ => 0x04 | .ucie _ => 0x05 | .stack _ => 0x06
  | .sweep _ => 0x07 | .lock _ => 0x08 | .fuse => 0x09 | .intake _ => 0x0A | .sess _ => 0x0B | .tenant _ => 0x0C
  | .adapt _ => 0x0D | .attn _ => 0x0E | .kvmap _ => 0x0F | .commons => 0x10 | .die _ => 0x11 | .croft _ => 0x12
  | .gauge _ => 0x13 | .riser _ => 0x14 | .pad _ => 0x15 | .gran _ => 0x16 | .foot _ => 0x17 | .tmux => 0x18
  | .stew => 0x19

/-- The instance number of the ID register (R546). -/
def Page.instanceNo : Page → Nat
  | .lock h | .attn h | .kvmap h => h
  | .sense n | .ucie n | .croft n => n
  | .stack k | .sweep k => k
  | .kyrok p => p
  | .intake w => w
  | .adapt a => a
  | .tenant t => t
  | .sess x => x
  | .die d | .gauge d | .riser d | .pad d | .gran d | .foot d => d
  | _ => 0

def dieBase (d : Nat) : Nat := 0x20000000 + d * 0x1000000

/-- The engine address of a page (R36, R37). -/
def Page.base : Page → Nat
  | .sys => 0x0000 | .tally => 0x1000 | .fuse => 0x2000 | .tmux => 0x3000 | .stew => 0x4000 | .commons => 0x5000
  | .lock h => (8 + h) * 0x1000
  | .sense n => if n < 16 then dieBase n + 0x1000 else (12 + (n - 16)) * 0x1000
  | .attn h => (16 + h) * 0x1000
  | .kvmap h => (20 + h) * 0x1000
  | .stack k => (24 + k) * 0x1000
  | .sweep k => (32 + k) * 0x1000
  | .ucie n => if n < 4 then (40 + n) * 0x1000 else dieBase ((n - 4) / 2) + (8 + (n - 4) % 2) * 0x1000
  | .kyrok p => (48 + p) * 0x1000
  | .intake w => (64 + w) * 0x1000
  | .adapt a => (128 + a) * 0x1000
  | .tenant t => 0x1000000 + t * 0x1000
  | .sess x => 0x10000000 + x * 0x1000
  | .die d => dieBase d
  | .gauge d => dieBase d + 0x2000
  | .riser d => dieBase d + 0x3000
  | .pad d => dieBase d + 0x4000
  | .gran d => dieBase d + 0x5000
  | .foot d => dieBase d + 0x6000
  | .croft n => dieBase (n / 2048) + (256 + n % 2048) * 0x1000

/-- The page in a slot of the package region. -/
def packageSlot (i : Nat) : Option Page :=
  match i with
  | 0 => some .sys | 1 => some .tally | 2 => some .fuse | 3 => some .tmux | 4 => some .stew | 5 => some .commons
  | _ =>
    if 8 ≤ i ∧ i < 12 then some (.lock (i - 8))
    else if 12 ≤ i ∧ i < 16 then some (.sense (16 + (i - 12)))
    else if 16 ≤ i ∧ i < 20 then some (.attn (i - 16))
    else if 20 ≤ i ∧ i < 24 then some (.kvmap (i - 20))
    else if 24 ≤ i ∧ i < 32 then some (.stack (i - 24))
    else if 32 ≤ i ∧ i < 40 then some (.sweep (i - 32))
    else if 40 ≤ i ∧ i < 44 then some (.ucie (i - 40))
    else if 48 ≤ i ∧ i < 64 then some (.kyrok (i - 48))
    else if 64 ≤ i ∧ i < 80 then some (.intake (i - 64))
    else if 128 ≤ i ∧ i < 192 then some (.adapt (i - 128))
    else none

/-- The page in a slot of a die window; a CROFT slot whose column is 34 to 63 names no page (R38). -/
def dieSlot (d i : Nat) : Option Page :=
  match i with
  | 0 => some (.die d) | 1 => some (.sense d) | 2 => some (.gauge d) | 3 => some (.riser d) | 4 => some (.pad d)
  | 5 => some (.gran d) | 6 => some (.foot d) | 8 => some (.ucie (4 + 2 * d)) | 9 => some (.ucie (5 + 2 * d))
  | _ => if 256 ≤ i ∧ i < 2304 ∧ (i - 256) % 64 < 34 then some (.croft (2048 * d + (i - 256))) else none

/-- What an engine address names (R36, R38). -/
inductive Target where
  | reg (p : Page) (off : Nat)
  /-- a slot that names no page, with the page whose ERR_ADDR logs it -/
  | noPage (logger : Page)
  /-- a byte of a stack: stack number and stack byte -/
  | aperture (k b : Nat)
  | outside
  deriving DecidableEq, Repr

def target (a : Nat) : Target :=
  if a < 0x1000000 then
    match packageSlot (a / 0x1000) with
    | some p => .reg p (a % 0x1000)
    | none => .noPage .sys
  else if a < 0x2000000 then .reg (.tenant ((a - 0x1000000) / 0x1000)) (a % 0x1000)
  else if a < 0x10000000 then .outside
  else if a < 0x20000000 then .reg (.sess ((a - 0x10000000) / 0x1000)) (a % 0x1000)
  else if a < 0x30000000 then
    let d := (a - 0x20000000) / 0x1000000
    match dieSlot d (a % 0x1000000 / 0x1000) with
    | some p => .reg p (a % 0x1000)
    | none => .noPage (.die d)
  else if a < 0x10000000000 then .outside
  else if a < 0x20000000000 then .aperture ((a - 0x10000000000) / 0x2000000000) ((a - 0x10000000000) % 0x2000000000)
  else .outside

/-- The engine address of a stack byte (R45). -/
def apertureAddr (k b : Nat) : Nat := 0x10000000000 + k * 0x2000000000 + b

/-- The hub that an address belongs to, less session pages, which follow their session (R40). -/
def Page.hubOf : Page → Nat
  | .lock h | .attn h | .kvmap h => h
  | .sense n => if n < 16 then n / 4 else n - 16
  | .ucie n => if n < 4 then n else (n - 4) / 2 / 4
  | .stack k | .sweep k => k / 2
  | .kyrok p => p / 4
  | .intake w => w / 4
  | .die d | .gauge d | .riser d | .pad d | .gran d | .foot d => d / 4
  | .croft n => n / 2048 / 4
  | _ => 0

/-- The stack and stack byte of a byte of the steward partition (R452). -/
def partitionByte (x : Nat) : Nat × Nat := (x / 4096 % 8, x / 32768 * 4096 + x % 4096)

/-- What a steward physical address names (R420): a byte of main memory or of the engine address space, by its engine address, or nothing
of the engine. -/
inductive StewardTarget where
  | memory (a : Nat)
  | engine (a : Nat)
  | none
  deriving DecidableEq, Repr

/-! ### Layouts -/

/-- Access codes (R11). -/
inductive Access where
  | rw | ro | w1c | wo | rc | otw | cw
  deriving DecidableEq, Repr

/-- A field of a register: low bit, width, access code, reset value. -/
structure Field where
  lo : Nat
  width : Nat
  acc : Access
  reset : Nat := 0
  deriving DecidableEq, Repr

/-- A run of `count` registers of one layout, 8 bytes apart from `off`. Bits in no field are reserved (R14). -/
structure RegRun where
  off : Nat
  count : Nat
  fields : List Field
  deriving DecidableEq, Repr

def rwWhole : List Field := [⟨0, 64, .rw, 0⟩]
def roWhole : List Field := [⟨0, 64, .ro, 0⟩]
def roAll (reset : Nat) : List Field := [⟨0, 64, .ro, reset⟩]

/-- The common header (R545) but for CTL, which some pages define. -/
def headerRegs (ctl : List Field) : List RegRun :=
  [⟨0x000, 2, roWhole⟩, ⟨0x010, 1, ctl⟩, ⟨0x018, 1, roWhole⟩,
   ⟨0x020, 1, [⟨63, 1, .wo, 0⟩, ⟨32, 8, .ro, 0⟩, ⟨0, 32, .ro, 0⟩]⟩,
   ⟨0x028, 2, roWhole⟩, ⟨0x038, 1, [⟨1, 24, .rw, 0⟩]⟩, ⟨0x040, 3, roWhole⟩]

def cfgFields : List Field := [⟨6, 42, .rw, 0⟩, ⟨0, 4, .rw, 0⟩]
def routeFields : List Field :=
  (List.range 4).flatMap fun k =>
    [⟨16 * k + 15, 1, .rw, 0⟩, ⟨16 * k + 8, 4, .rw, 0⟩, ⟨16 * k + 7, 1, .rw, 0⟩, ⟨16 * k, 4, .rw, 0⟩]
/-- SEQ_n (R390): the shadow table starts as the active one does, inputs 0 to 47 in order with ring 0. DESIGN CHOICE, log entry 36. -/
def seqFields (n : Nat) : List Field :=
  (List.range 4).flatMap fun k => [⟨16 * k + 7, 1, .rw, 0⟩, ⟨16 * k, 6, .rw, if n < 12 then 4 * n + k else 0⟩]
def tmuxFields : List Field := [⟨63, 1, .rw, 0⟩, ⟨0, 8, .rw, 0⟩]

/-- The CTL fields of a page (R391, R470). -/
def ctlFields : Page → List Field
  | .sense _ => [⟨4, 7, .rw, 0x30⟩, ⟨2, 1, .wo, 0⟩, ⟨1, 1, .rw, 0⟩, ⟨0, 1, .rw, 1⟩]
  | .sweep _ => [⟨24, 24, .rw, 0x2710⟩, ⟨8, 8, .rw, 0x10⟩, ⟨0, 1, .rw, 1⟩]
  | _ => []

/-- The block registers of a page (14_registers.md). -/
def blockRegs : Page → List RegRun
  | .sys =>
    [⟨0x100, 1, [⟨0, 3, .rw, 0⟩]⟩, ⟨0x108, 2, roWhole⟩, ⟨0x118, 1, [⟨0, 14, .rw, 1500⟩]⟩,
     ⟨0x120, 1, [⟨0, 4, .rw, 4⟩]⟩, ⟨0x128, 1, [⟨0, 1, .wo, 0⟩]⟩,
     ⟨0x130, 1, [⟨48, 16, .rw, 0⟩, ⟨12, 36, .rw, 0⟩, ⟨1, 1, .wo, 0⟩, ⟨0, 1, .wo, 0⟩]⟩, ⟨0x138, 1, roWhole⟩,
     ⟨0x140, 1, [⟨0, 1, .wo, 0⟩]⟩]
  | .tally =>
    [⟨0x100, 1, [⟨0, 16, .rw, 0x578⟩]⟩, ⟨0x108, 1, [⟨16, 8, .rw, 0x46⟩, ⟨8, 8, .rw, 0x50⟩, ⟨0, 8, .rw, 0x5A⟩]⟩,
     ⟨0x110, 1, [⟨0, 7, .rw, 0x32⟩]⟩, ⟨0x118, 1, [⟨0, 1, .wo, 0⟩]⟩, ⟨0x120, 5, roWhole⟩, ⟨0x148, 6, roWhole⟩]
  | .fuse => [⟨0x100, 1, [⟨0, 8, .cw, 0⟩]⟩, ⟨0x108, 1, roAll 0x0080840000000000⟩, ⟨0x110, 4, roWhole⟩]
  | .tmux => [⟨0x100, 8, tmuxFields⟩, ⟨0x140, 2, tmuxFields⟩]
  | .stew =>
    [⟨0x100, 5, [⟨63, 1, .rw, 0⟩, ⟨48, 4, .rw, 0⟩, ⟨0, 11, .rw, 0⟩]⟩,
     ⟨0x140, 1, [⟨63, 1, .rc, 0⟩, ⟨0, 16, .rc, 0⟩]⟩, ⟨0x148, 1, roWhole⟩]
  | .commons => [⟨0x100, 1, [⟨31, 1, .rw, 0⟩, ⟨0, 24, .rw, 0⟩]⟩, ⟨0x108, 5, roWhole⟩, ⟨0x130, 2, roWhole⟩]
  | .lock _ =>
    [⟨0x100, 1, [⟨62, 2, .rw, 0⟩, ⟨48, 14, .rw, 0⟩, ⟨12, 36, .rw, 0⟩, ⟨0, 1, .wo, 0⟩]⟩, ⟨0x108, 1, roWhole⟩,
     ⟨0x110, 1, [⟨48, 16, .rw, 0⟩, ⟨6, 42, .rw, 0⟩, ⟨0, 1, .wo, 0⟩]⟩, ⟨0x118, 1, roWhole⟩,
     ⟨0x120, 1, [⟨25, 1, .wo, 0⟩, ⟨24, 1, .wo, 0⟩, ⟨16, 8, .rw, 0⟩, ⟨8, 8, .rw, 0⟩, ⟨0, 8, .rw, 0⟩]⟩,
     ⟨0x128, 2, roWhole⟩]
  | .sense _ =>
    ((List.range 16).map fun n => ⟨0x100 + 8 * n, 1, seqFields n⟩) ++ [⟨0x180, 1, [⟨0, 6, .wo, 0⟩]⟩,
     ⟨0x188, 1, [⟨28, 4, .rw, 0⟩, ⟨3, 21, .rw, 0⟩, ⟨0, 1, .rw, 0⟩]⟩, ⟨0x190, 1, roWhole⟩, ⟨0x198, 1, rwWhole⟩,
     ⟨0x1A0, 1, [⟨0, 13, .rw, 0⟩]⟩, ⟨0x1A8, 4, roWhole⟩, ⟨0x200, 48, roWhole⟩]
  | .attn _ => [⟨0x100, 10, roWhole⟩, ⟨0x200, 64, roAll 0x300⟩]
  | .kvmap _ => [⟨0x100, 1, roWhole⟩, ⟨0x108, 1, [⟨0, 24, .rw, 0x4000⟩]⟩, ⟨0x110, 3, roWhole⟩]
  | .stack _ =>
    [⟨0x100, 4, [⟨63, 1, .rw, 0⟩, ⟨32, 24, .rw, 0⟩, ⟨0, 21, .rw, 0⟩]⟩,
     ⟨0x120, 1, [⟨6, 42, .wo, 0⟩, ⟨4, 1, .wo, 0⟩, ⟨0, 4, .wo, 0⟩]⟩, ⟨0x128, 8, roWhole⟩, ⟨0x200, 64, roWhole⟩]
  | .sweep _ => [⟨0x100, 1, roAll 0xFFFFFF0000⟩, ⟨0x108, 1, roWhole⟩, ⟨0x110, 4, roWhole⟩]
  | .ucie _ => [⟨0x100, 3, roWhole⟩]
  | .kyrok p =>
    [⟨0x100, 1, roWhole⟩, ⟨0x108, 1, [⟨0, 20, .rw, 0xC8⟩]⟩, ⟨0x110, 5, roWhole⟩, ⟨0x400, 64, routeFields⟩] ++
      (if p = 0 then [⟨0x600, 64, routeFields⟩] else [])
  | .intake _ =>
    [⟨0x100, 1, rwWhole⟩, ⟨0x108, 1, roWhole⟩, ⟨0x110, 1, cfgFields⟩, ⟨0x118, 1, rwWhole⟩, ⟨0x120, 2, roWhole⟩,
     ⟨0x140, 8, cfgFields⟩, ⟨0x180, 8, rwWhole⟩, ⟨0x1C0, 8, roWhole⟩, ⟨0x200, 4, roWhole⟩]
  | .adapt _ => [⟨0x100, 2, roWhole⟩, ⟨0x110, 8, roWhole⟩]
  | .tenant _ =>
    [⟨0x100, 1, [⟨63, 1, .rw, 0⟩, ⟨48, 8, .rw, 0x10⟩, ⟨40, 8, .rw, 0x10⟩, ⟨20, 20, .rw, 0⟩, ⟨0, 20, .rw, 0⟩]⟩,
     ⟨0x108, 4, roWhole⟩]
  | .sess _ => [⟨0x100, 10, roWhole⟩]
  | .die _ =>
    [⟨0x100, 1, [⟨1, 2, .ro, 0⟩, ⟨0, 1, .rw, 1⟩]⟩,
     ⟨0x108, 1, [⟨48, 16, .rw, 0⟩, ⟨12, 36, .rw, 0⟩, ⟨1, 1, .wo, 0⟩, ⟨0, 1, .wo, 0⟩]⟩,
     ⟨0x110, 1, [⟨8, 5, .wo, 0⟩, ⟨0, 6, .wo, 0⟩]⟩,
     ⟨0x118, 1, [⟨16, 6, .wo, 0⟩, ⟨8, 5, .wo, 0⟩, ⟨4, 1, .wo, 0⟩, ⟨0, 4, .wo, 0⟩]⟩, ⟨0x120, 1, roWhole⟩,
     ⟨0x200, 32, roWhole⟩]
  | .gauge _ =>
    [⟨0x100, 1, [⟨0, 20, .rw, 0xEA60⟩]⟩, ⟨0x108, 1, [⟨16, 5, .wo, 0⟩, ⟨8, 6, .wo, 0⟩, ⟨0, 5, .wo, 0⟩]⟩,
     ⟨0x110, 6, roWhole⟩]
  | .riser _ =>
    [⟨0x100, 1, [⟨63, 1, .rw, 0⟩, ⟨16, 5, .rw, 0⟩, ⟨8, 5, .rw, 0⟩, ⟨0, 4, .rw, 0⟩]⟩, ⟨0x108, 3, roWhole⟩,
     ⟨0x200, 64, roWhole⟩]
  | .pad _ => [⟨0x100, 6, roWhole⟩]
  | .gran _ => [⟨0x100, 1, [⟨0, 6, .wo, 0⟩]⟩, ⟨0x108, 8, roWhole⟩, ⟨0x200, 64, roWhole⟩]
  | .foot _ => [⟨0x100, 4, roWhole⟩]
  | .croft _ => [⟨0x100, 17, roWhole⟩, ⟨0x190, 18, roWhole⟩, ⟨0x220, 17, roWhole⟩]

def pageRegs (p : Page) : List RegRun := headerRegs (ctlFields p) ++ blockRegs p

/-- The fields of the register at an offset of a page, when the page defines one there (R10). -/
def regFields (p : Page) (off : Nat) : Option (List Field) :=
  if off % 8 ≠ 0 then none
  else (pageRegs p).findSome? fun r => if r.off ≤ off ∧ off < r.off + 8 * r.count then some r.fields else none

/-- The count of block registers of a page (CAPS, R545). -/
def blockCount (p : Page) : Nat := ((blockRegs p).map (·.count)).foldl (· + ·) 0

/-- Reset value of a layout. -/
def fieldsReset (fs : List Field) : Word := fs.foldl (fun w f => w ||| Word.put f.lo f.width f.reset) 0

/-- Reset value of the register at an engine address. -/
def regReset (a : Nat) : Word :=
  match target a with
  | .reg p off => match regFields p off with
    | some fs => fieldsReset fs
    | none => 0
  | _ => 0

/-- The stored value of a register. -/
def State.regAt (s : State) (a : Nat) : Word := tget regReset s.regs a
def State.reg (s : State) (p : Page) (off : Nat) : Word := s.regAt (p.base + off)

/-- The hub that answers a page (R40): a session page belongs to the session's owning hub, which its STATE names, and to hub 0 while
the page shows a free entry (R552, R553). -/
def State.hubOfPage (s : State) (p : Page) : Nat :=
  match p with
  | .sess _ =>
    let v := s.reg p 0x100
    if v.field 60 4 = 0 then 0 else v.field 56 4 / 4
  | _ => p.hubOf

/-- The module through which the steward sends an access (R40, R420): that of the hub that owns the address, or of hub 0, whose SYS page
logs it, where no page and no stack owns it. -/
def State.moduleOf (s : State) (a : Nat) : Nat :=
  match target a with
  | .reg p _ => s.hubOfPage p
  | .noPage p => s.hubOfPage p
  | .aperture k _ => k / 2
  | .outside => 0

/-- The two engine regions of the steward's physical address space (R420, R452). -/
def State.stewardTarget (s : State) (phys : Nat) : StewardTarget :=
  if 0x80000000 ≤ phys ∧ phys < 0x80000000 + 8 * s.pkg.partGib * 2 ^ 30 then
    let b := partitionByte (phys - 0x80000000)
    .memory (apertureAddr b.1 b.2)
  else if 0x0080000000000000 ≤ phys ∧ phys < 0x0080000000000000 + 2 ^ 48 then .engine (phys - 0x0080000000000000)
  else .none

/-- The hardware sets a register. -/
def State.setReg (s : State) (p : Page) (off : Nat) (v : Word) : State :=
  { s with regs := tput regReset s.regs (p.base + off) v }

/-- The value a write leaves in one field (R11): RW sets, W1C clears the bits written as 1, every other code keeps the
field (what WO, OTW and CW fields do beyond it is the register's own behaviour). -/
def fieldWrite (old v : Word) (f : Field) : Word :=
  match f.acc with
  | .rw | .cw => old.setField f.lo f.width (v.field f.lo f.width)
  | .w1c => old.setField f.lo f.width (old.field f.lo f.width &&& (2 ^ f.width - 1 - v.field f.lo f.width))
  | .otw => if old.field f.lo f.width = f.reset then old.setField f.lo f.width (v.field f.lo f.width) else old
  | _ => old

/-- The value a write leaves in a register, field by field; reserved bits are ignored (R14). -/
def fieldsWrite (fs : List Field) (old v : Word) : Word := fs.foldl (fun w f => fieldWrite w v f) old

/-- The value a read returns, field by field: WO and reserved fields read zero (R11, R14). -/
def fieldsRead (fs : List Field) (w : Word) : Word :=
  fs.foldl (fun r f => if f.acc = .wo then r else r ||| Word.put f.lo f.width (w.field f.lo f.width)) 0

/-- The fields of a layout that a write may name, as `v` gives them. -/
def State.storeFields (s : State) (p : Page) (off : Nat) (v : Word) : State :=
  match regFields p off with
  | some fs => s.setReg p off (fieldsWrite fs (s.reg p off) v)
  | none => s

/-- A counter adds `n` and stops at all ones (R148, R550). -/
def satAdd (w : Word) (n : Nat) : Word := BitVec.ofNat 64 (min (w.toNat + n) (2 ^ 64 - 1))

def State.bump (s : State) (p : Page) (off n : Nat) : State := s.setReg p off (satAdd (s.reg p off) n)

end Sys2Proof.Machine
end

