-- ==== Sys2Proof/Machine/Flags.lean ====
section
/-!
DEFINITION. Error records (R545 to R549), interrupts to the steward (R559) and counters.
-/
namespace Sys2Proof.Machine

/-- The time a page's hub or reeve writes into its registers (R34, R35). -/
def State.pageTime (s : State) (p : Page) : Nat :=
  match p with
  | .die d | .gauge d | .riser d | .pad d | .gran d | .foot d => s.reeveTime d
  | .sense n => if n < 16 then s.reeveTime n else s.hubTime (n - 16)
  | .ucie n => if n < 4 then s.hubTime n else s.reeveTime ((n - 4) / 2)
  | .croft n => s.reeveTime (n / 2048)
  | _ => s.hubTime (s.hubOfPage p)

/-- An INTR with this identity reaches the steward (R559). -/
def State.raiseIntr (s : State) (id : Nat) : State :=
  let route := s.reg .stew (0x100 + 8 * (id / 0x1000 - 1))
  if route.bit 63 = false then s
  else
    let entry := (route.field 48 4, route.field 0 11)
    let raised := if entry ∈ s.stew.raised then s.stew.raised else s.stew.raised ++ [entry]
    let i : BitVec 16 := BitVec.ofNat 16 id
    if i ∈ s.stew.fifo then { s with stew := { s.stew with raised := raised } }
    else if s.stew.fifo.length < Config.intrQueue then
      { s with stew := { fifo := s.stew.fifo ++ [i], raised := raised } }
    else { s with
      stew := { s.stew with raised := raised }
      regs := tput regReset s.regs (Page.stew.base + 0x148) (satAdd (s.reg .stew 0x148) 1) }

/-- ERR_STATUS with its first code and count. -/
def errStatus (code count : Nat) : Word := Word.put 32 8 code ||| Word.put 0 32 count

/-- ERR_SRC: the agent's kind and index, and whether a register access caused the error. -/
def errSrc (reg : Bool) (kind index : Nat) : Word :=
  Word.put 24 1 (b2n reg) ||| Word.put 16 8 kind ||| Word.put 0 16 index

/-- Record an error in a page: the first error sets the code, the address, the source and the stamp and raises the page's
error interrupt unless the code is masked; a later one only counts (R547, R548, R559). -/
def State.logError (s : State) (p : Page) (c : Code) (addr kind index : Nat) (reg : Bool := false) : State :=
  let st := s.reg p 0x020
  if st.field 32 8 = 0 then
    let s1 := (((s.setReg p 0x020 (errStatus c.num 1)).setReg p 0x028 (BitVec.ofNat 64 addr)).setReg p 0x030
      (errSrc reg kind index)).setReg p 0x050 (BitVec.ofNat 64 (s.pageTime p))
    if (s.reg p 0x038).bit c.num then s1 else s1.raiseIntr (0x3000 + p.code)
  else s.setReg p 0x020 (errStatus (st.field 32 8) (min (st.field 0 32 + 1) 0xFFFFFFFF))

/-- A hardware event of the block itself: kind 0. -/
def State.logEvent (s : State) (p : Page) (c : Code) (addr : Nat) : State := s.logError p c addr 0 0

/-- A register access to the page through steward module `m` is refused or names no register (R9, R10, R548). -/
def State.logAccess (s : State) (p : Page) (c : Code) (addr m : Nat) : State := s.logError p c (addr % 2 ^ 48) 1 m true

/-- Clear the page's error record (R547). -/
def State.clearError (s : State) (p : Page) : State :=
  (((s.setReg p 0x020 0).setReg p 0x028 0).setReg p 0x030 0).setReg p 0x050 0

/-- The address word of a pad or store error (R548): memory, row, column, pad row or line, word. -/
def padAddr (mem row col line word : Nat) : Nat :=
  mem * 2 ^ 62 + row * 2 ^ 56 + col * 2 ^ 48 + line * 2 ^ 32 + word

/-- Count one event in a CROFT register. -/
def State.bumpCroft (s : State) (n off : Nat) (k : Nat := 1) : State := s.bump (.croft n) off k

end Sys2Proof.Machine
end

