-- ==== Sys2Proof/Machine/Messages.lean ====
section
/-!
DEFINITION. Kyrok messages as they leave: bytes and encryption (R435, R441, R444), flits and what a port sends when (R430, R432 to R434),
routes (R437, R443), and remote reads (R445).
-/
namespace Sys2Proof.Machine

/-! ### Bytes -/

/-- Bytes as numbers, and numbers as bytes. -/
def nums (b : List (BitVec 8)) : List Nat := b.map (·.toNat)
def bits8 (b : List Nat) : List (BitVec 8) := b.map (BitVec.ofNat 8)

/-- The `n` bytes from byte `o`. -/
def slice (b : List Nat) (o n : Nat) : List Nat := (b.drop o).take n

/-- The little-endian number in the `n` bytes from byte `o`. -/
def fieldAt (b : List Nat) (o n : Nat) : Nat := natOf (slice b o n)

/-- The first `n` of some bytes, zeros behind them. -/
def padded (n : Nat) (b : List Nat) : List Nat := b.take n ++ List.replicate (n - b.length) 0

/-! ### Message bytes -/

/-- VL of a message type (R435). -/
def typeVl1 (type : Nat) : Bool := decide (type ∈ [0x03, 0x04, 0x05, 0x08, 0x09, 0x0A, 0x0B])

/-- A message of a join, which no pair key protects and which a port that has not joined carries (R443). -/
def joinType (type : Nat) : Bool := type == 0x10 || type == 0x11

/-- Bytes that the numbers of a body take, in the order in which R435 lists them; every other number follows in the payload with 4.
DESIGN CHOICE, log 100: the table gives the fields and no widths. -/
def bodyWidths : Nat → List Nat
  | 0x01 => [4, 1, 4, 2, 1, 1, 2, 4, 4, 2, 2]
  | 0x02 => [4, 1]
  | 0x03 => [4]
  | 0x04 => [4]
  | 0x05 => [4, 4, 4, 4, 4]
  | 0x06 => [4, 1]
  | 0x08 => [4, 4]
  | 0x09 => [4, 4, 1]
  | 0x0A => [4, 1]
  | 0x0B => [1, 4, 4]
  | _ => [4, 4, 4]

/-- Numbers as bytes of the widths given, and the numbers left over. -/
def layOut : List Nat → List Nat → List Nat × List Nat
  | w :: ws, v :: vs => let r := layOut ws vs; (bytesOf w v ++ r.1, r.2)
  | _, vs => ([], vs)

/-- The 32 body bytes and the payload of a message. -/
def OutMsg.bytes (m : OutMsg) : List Nat × List Nat :=
  let r := layOut (bodyWidths m.type) m.body
  (padded 32 r.1, r.2.flatMap (bytesOf 4) ++ nums m.data)

/-- Header bytes 0 to 15 (R435). -/
def messageHead (type : Nat) (poison : Bool) (length dest source counter : Nat) : List Nat :=
  [type, b2n (typeVl1 type) + 2 * b2n poison] ++ bytesOf 3 length ++ [0, dest % 256, source % 256] ++ bytesOf 8 counter

/-- The nonce of a message, from its header (R441): source, destination, VL, a zero byte, and the counter. -/
def messageNonce (head : List Nat) : List Nat :=
  [fieldAt head 7 1, fieldAt head 6 1, fieldAt head 1 1 % 2, 0] ++ slice head 8 8

/-- The tag of a message under a pair key (R441): header bytes 0 to 15 are authenticated, bytes 16 to 47 and the payload encrypted. -/
def messageTag (key bytes : List Nat) : List Nat :=
  gcmTag key (messageNonce bytes) (bytes.take 16) (slice bytes 16 32 ++ bytes.drop 64)

/-- Encrypt or decrypt the body and the payload of a message: the key stream is the same both ways. -/
def messageStream (key head data : List Nat) : List Nat :=
  counterMode (roundKeys key) ((data.length + 15) / 16) (beNat (messageNonce head ++ [0, 0, 0, 2])) data

/-- A message under a pair key (R441): header, encrypted body, tag, encrypted payload. -/
def sealMessage (key head body payload : List Nat) : List Nat :=
  let c := messageStream key head (body ++ payload)
  head ++ c.take 32 ++ gcmTag key (messageNonce head) head c ++ c.drop 32

/-- A message whose tag has held, decrypted: header, body, the tag's bytes, payload (R441). -/
def unsealMessage (key bytes : List Nat) : List Nat :=
  let c := messageStream key bytes (slice bytes 16 32 ++ bytes.drop 64)
  bytes.take 16 ++ c.take 32 ++ slice bytes 48 16 ++ c.drop 32

/-- The pair key of a source and a destination (R444): the key takes 32 bytes, the epoch 4 and each package number one (log 12). -/
def pairKey (k e a b : Nat) : List Nat := shake256 (ascii ['K', 'Y', 'R', 'O', 'K'] ++ bytesOf 32 k ++ [a, b] ++ bytesOf 4 e) 32

/-! ### Flits -/

/-- The flits of a message (R430): 249 bytes each, the last one padded with zeros. -/
def flitsOf (vl : Bool) (bytes : List Nat) : List Flit :=
  let n := max 1 ((bytes.length + 248) / 249)
  (List.range n).map fun i => {
    vl := vl, kind := if n = 1 then 4 else if i = 0 then 1 else if i + 1 = n then 3 else 2
    payload := bits8 (padded 249 (slice bytes (249 * i) 249)) }

/-- The header byte of a flit, and its 256 bytes with the check symbols of both codewords (R430). -/
def flitHeader (f : Flit) : BitVec 8 := BitVec.ofNat 8 (128 * b2n f.vl + 16 * f.kind)
def flitWire (f : Flit) : List (BitVec 8) :=
  let a := flitHeader f :: f.payload.take 124
  let b := (f.payload.drop 124).take 125
  a ++ (List.range 3).map (Config.checkSymbols a) ++ b ++ (List.range 3).map (Config.checkSymbols b)

/-- The lane of a flit's byte: b mod w of the lanes in service, in their order (R430). -/
def Port.laneOf (x : Port) (b : Nat) : Nat := (x.lanes[b % x.lanes.length]?).getD 0

/-- Bytes 1 to 16 of the CTRL flit that a port sends (R430): the count of flits received, NAK, and the credits it returns, twice. -/
def Port.ctrlBytes (x : Port) : List (BitVec 8) :=
  let half := leBytes 4 x.received ++ leBytes 1 (b2n x.nakDue) ++ leBytes 2 x.owedVl0 ++ leBytes 1 x.owedVl1
  half ++ half

/-- A CTRL flit is due (R432): 16 flits or credits wait, 64 ns have passed since any of them began to wait, or a NAK is due. -/
def Port.ctrlDue (x : Port) (now : Nat) : Bool :=
  x.nakDue || decide (16 ≤ x.unacked) || decide (16 ≤ x.owedVl0 + x.owedVl1) || x.waitSince.any fun t => decide (t + 64 ≤ now)

/-- Send a CTRL flit: what waited is told. -/
def Port.sendCtrl (x : Port) : Port :=
  { x with ctrlSent := x.ctrlBytes, unacked := 0, owedVl0 := 0, owedVl1 := 0, nakDue := false, waitSince := none }

/-- Take waiting flits of one VL into the window of 128 kept flits, as far as credits reach (R432, R434). -/
def Port.take (x : Port) (vl : Bool) : Port :=
  let q := if vl then x.queueVl1 else x.queueVl0
  let k := min q.length (min (if vl then x.creditsVl1 else x.creditsVl0) (128 - x.kept.length))
  let y := { x with kept := x.kept ++ ((q.take k).zipIdx.map fun (e : Flit × Nat) => (e.1, x.sent + e.2)), sent := x.sent + k }
  if vl then { y with creditsVl1 := y.creditsVl1 - k, queueVl1 := q.drop k }
  else { y with creditsVl0 := y.creditsVl0 - k, queueVl0 := q.drop k }

/-- Send what waits, VL1 first, then a due CTRL flit, then VL0 (R433). -/
def Port.pump (now : Nat) (x : Port) : Port :=
  let y := x.take true
  let z := if y.ctrlDue now then y.sendCtrl else y
  z.take false

/-- Flits of one message wait at a port and go as far as they can. -/
def Port.push (now : Nat) (l : List Flit) (x : Port) : Port :=
  Port.pump now { x with queueVl0 := x.queueVl0 ++ l.filter (!·.vl), queueVl1 := x.queueVl1 ++ l.filter (·.vl) }

/-- The port carries flits: trained, and with at least six lanes (R428). -/
def Port.alive (x : Port) : Bool := !x.outOfService && decide (2 ≤ x.state)

/-! ### Routes -/

/-- This package's domain number and its root's (R541). -/
def State.ownNumber (s : State) : Nat := (s.reg (.lock 0) 0x120).field 0 8
def State.rootNumber (s : State) : Nat := (s.reg (.lock 0) 0x120).field 8 8

/-- A route entry: primary and alternate port, where they are routes (R557). -/
def routeEntry (w : Word) (k : Nat) : Option Nat × Option Nat :=
  (if w.bit (16 * k + 15) then some (w.field (16 * k + 8) 4) else none, if w.bit (16 * k + 7) then some (w.field (16 * k) 4) else none)

/-- A port carries messages of a type: those of the domain once it has joined, those of a join as soon as it has trained (R443). -/
def State.portCarries (s : State) (join : Bool) (p : Nat) : Bool :=
  ((s.port p).state == 3 || (join && (s.port p).state == 2)) && !(s.port p).outOfService

/-- A port carries messages of the domain. -/
def State.portInService (s : State) (p : Nat) : Bool := s.portCarries false p

/-- The primary port of an entry while it is in service, else the alternate (R437). -/
def State.routeFor (s : State) (join : Bool) (w : Word) (dest : Nat) : Option Nat :=
  let e := routeEntry w (dest % 4)
  match e.1.filter (s.portCarries join ·) with
  | some p => some p
  | none => e.2.filter (s.portCarries join ·)

/-- The route of a message of the domain. -/
def State.routePort (s : State) (w : Word) (dest : Nat) : Option Nat := s.routeFor false w dest

/-- The word of the route table for messages that this package originates, and the port by which such a message leaves (R437). -/
def State.originWord (s : State) (dest : Nat) : Word := s.reg (.kyrok 0) (0x600 + 8 * (dest / 4))
def State.originPort (s : State) (dest : Nat) : Option Nat := s.routePort (s.originWord dest) dest

/-! ### Sending -/

/-- The next counter of a destination and VL under a key epoch: it starts at 1 and rises by one per message (R441). -/
def countSent : List (Nat × Bool × Nat × Nat) → Nat → Bool → Nat → List (Nat × Bool × Nat × Nat)
  | [], d, v, e => [(d, v, e, 1)]
  | (d', v', e', n) :: l, d, v, e => if d' = d ∧ v' = v ∧ e' = e then (d', v', e', n + 1) :: l else (d', v', e', n) :: countSent l d v e

/-- The counter of a destination, a VL and an epoch. -/
def counterOf (l : List (Nat × Bool × Nat × Nat)) (d : Nat) (v : Bool) (e : Nat) : Nat :=
  ((l.find? fun c => c.1 == d && c.2.1 == v && c.2.2.1 == e).map (·.2.2.2)).getD 0

/-- A message of this package joins the outbox; it leaves by KYROK_FORWARD. -/
def State.send (s : State) (m : OutMsg) : State := { s with links := { s.links with outbox := s.links.outbox ++ [m] } }

/-- The bytes of a message of this package with its counter (R435, R441): under the pair key of the present epoch; a message of a join is in
clear, since no pair key holds yet. DEDUCED, log 100. -/
def State.wire (s : State) (m : OutMsg) (counter : Nat) : List Nat :=
  let b := m.bytes
  let head := messageHead m.type m.poison b.2.length m.destination s.ownNumber counter
  if joinType m.type then head ++ b.1 ++ List.replicate 16 0 ++ b.2
  else sealMessage (pairKey s.lock.domainKey s.lock.keyEpoch s.ownNumber m.destination) head b.1 b.2

/-- A message leaves: it takes its counter, is encrypted, and its flits wait at the port of its route; with no port in service it is
discarded and counted (R437, R441). -/
def State.depart (s : State) (m : OutMsg) : State :=
  let vl := typeVl1 m.type
  let c := countSent s.links.sentCounter m.destination vl s.lock.keyEpoch
  match s.routeFor (joinType m.type) (s.originWord m.destination) m.destination with
  | none => s.bump (.kyrok 0) 0x130 1
  | some q =>
    let t : State := { s with links := { s.links with sentCounter := c } }
    t.modPort q (Port.push s.clock.time (flitsOf vl (s.wire m (counterOf c m.destination vl s.lock.keyEpoch))))

/-! ### Remote reads -/

/-- The next tag of a hub's remote reads; the first tag of each hub leaves those of the others alone. DESIGN CHOICE, log 101. -/
def State.nextRread (s : State) (h : Nat) : Nat := tget (fun k => k * 2 ^ 30) s.links.nextRread h

/-- Send RREAD_REQ with the next tag of the hub that owns the session; RREAD_TO of the port is that of the sending (R445, R448). -/
def State.readRemote (s : State) (package storeEpoch page first len dest context : Nat) : State :=
  let h := (s.sess context).window / 4
  let tag := s.nextRread h
  let p := (s.originPort package).getD 0
  let r : RRead := {
    tag := tag, package := package, port := p, page := page, first := first, len := len, dest := dest, hub := h
    limit := 1000 * (s.reg (.kyrok p) 0x108).field 0 20, sent := s.clock.time, context := context, epoch := storeEpoch }
  ({ s with links := { s.links with
      rreads := s.links.rreads ++ [r], nextRread := tput (fun k => k * 2 ^ 30) s.links.nextRread h ((tag + 1) % 2 ^ 32) } } : State).send
    { destination := package, type := 0x05, body := [tag, storeEpoch, page, first, len] }

/-- Page capacity T (R286). -/
def slotsPerPage (kv8 : Bool) : Nat := if kv8 then 252 else 504
/-- Bytes of one key or value slot. -/
def slotBytes (kv8 : Bool) : Nat := if kv8 then 128 else 64

/-- The slots below `slots` of a remote page are read into a page of this package, range by range as a page holds them (R286, R308, R445):
scales and codes of keys, then of values. -/
def State.fetchSlots (s : State) (x package storeEpoch src dest slots : Nat) : State :=
  let kv8 := (s.sess x).kv8
  let t := slotsPerPage kv8
  let w := slotBytes kv8
  let ranges := [(16, slots), (16 + t, slots), (1024, slots * w), (33280, slots * w)]
  (ranges.foldl (fun (u : State) e => u.readRemote package storeEpoch src e.1 e.2 dest x) s).modSess x fun y =>
    { y with copies := y.copies + ranges.length }

end Sys2Proof.Machine
end

