-- ==== Sys2Proof/Machine/Numeric.lean ====
section
/-!
DEFINITION. Integer rounding (R100), clamping, binary16 and binary32 arithmetic (R154), and the encoding of key and value
head vectors (R153).
-/
namespace Sys2Proof.Machine

/-- Round to the nearest integer, ties away from zero (R100). -/
def roundHA (r : Rat) : Int := if 0 ≤ r then (r + 1 / 2).floor else -(-r + 1 / 2).floor

/-- `min(max(v, -b), b)`. -/
def clampSym (b v : Int) : Int := min (max v (-b)) b

def clampTo (lo hi v : Int) : Int := min (max v lo) hi

/-- A power of two with any integer exponent. -/
def pow2 (e : Int) : Rat := if 0 ≤ e then (2 ^ e.toNat : Nat) else 1 / ((2 ^ (-e).toNat : Nat) : Rat)

/-- `floor(log2 r)` of a positive rational. -/
def log2Floor (r : Rat) : Int :=
  let e : Int := (Nat.log2 r.num.toNat : Int) - (Nat.log2 r.den : Int)
  if pow2 e ≤ r then e else e - 1

/-- `ceil(log2 r)` of a positive rational. -/
def log2Ceil (r : Rat) : Int := if pow2 (log2Floor r) = r then log2Floor r else log2Floor r + 1

/-- A decoded floating-point value: sign and magnitude, an infinity, or no number (IEEE 754). -/
inductive Fl where
  | num (neg : Bool) (mag : Rat)
  | inf (neg : Bool)
  | nan
  deriving DecidableEq, Repr

/-- Widths of a binary format. -/
structure Fmt where
  exp : Nat
  frac : Nat

def f16 : Fmt := ⟨5, 10⟩
def f32 : Fmt := ⟨8, 23⟩

def Fmt.bias (f : Fmt) : Int := 2 ^ (f.exp - 1) - 1

/-- Value of an encoding (R149). -/
def Fmt.decode (f : Fmt) (b : Nat) : Fl :=
  let m := b % 2 ^ f.frac
  let e := b / 2 ^ f.frac % 2 ^ f.exp
  let neg := b / 2 ^ (f.frac + f.exp) % 2 = 1
  if e = 2 ^ f.exp - 1 then (if m = 0 then .inf neg else .nan)
  else if e = 0 then .num neg (m * pow2 (1 - f.bias - f.frac))
  else .num neg ((2 ^ f.frac + m : Nat) * pow2 (e - f.bias - f.frac))

def signBit (f : Fmt) (neg : Bool) : Nat := b2n neg * 2 ^ (f.frac + f.exp)

/-- Round a number to the nearest integer, ties to even. -/
def roundEven (r : Rat) : Int :=
  let n := r.floor
  let d := r - n
  if d < 1 / 2 then n else if 1 / 2 < d then n + 1 else if n % 2 = 0 then n else n + 1

/-- Encoding of a value: round to nearest, ties to even, with the exponent range of the format, and a subnormal result flushed to zero
with its sign kept (R154). -/
def Fmt.encode (f : Fmt) : Fl → Nat
  | .nan => (2 ^ f.exp - 1) * 2 ^ f.frac + 2 ^ (f.frac - 1)
  | .inf neg => signBit f neg + (2 ^ f.exp - 1) * 2 ^ f.frac
  | .num neg r =>
    if r = 0 then signBit f neg
    else
      let e0 := max (log2Floor r) (1 - f.bias)
      let q0 := roundEven (r / pow2 (e0 - f.frac))
      let carry := q0 = 2 ^ (f.frac + 1)
      let e := if carry then e0 + 1 else e0
      let q := if carry then 2 ^ f.frac else q0.toNat
      if q < 2 ^ f.frac then signBit f neg
      else if f.bias < e then signBit f neg + (2 ^ f.exp - 1) * 2 ^ f.frac
      else signBit f neg + (e + f.bias).toNat * 2 ^ f.frac + (q - 2 ^ f.frac)

/-- Signed rational of a finite value. -/
def Fl.rat : Fl → Rat
  | .num neg r => if neg then -r else r
  | _ => 0

def Fl.ofRat (r : Rat) : Fl := if r < 0 then .num true (-r) else .num false r

def Fl.neg : Fl → Fl
  | .num s r => .num (!s) r
  | .inf s => .inf (!s)
  | .nan => .nan

def Fl.isNeg : Fl → Bool
  | .num s _ => s
  | .inf s => s
  | .nan => false

def Fl.mul (a b : Fl) : Fl :=
  match a, b with
  | .num s x, .num t y => .num (s != t) (x * y)
  | .inf s, .num t y => if y = 0 then .nan else .inf (s != t)
  | .num s x, .inf t => if x = 0 then .nan else .inf (s != t)
  | .inf s, .inf t => .inf (s != t)
  | _, _ => .nan

def Fl.div (a b : Fl) : Fl :=
  match a, b with
  | .num s x, .num t y =>
    if y = 0 then (if x = 0 then .nan else .inf (s != t)) else .num (s != t) (x / y)
  | .inf s, .num t _ => .inf (s != t)
  | .num s _, .inf t => .num (s != t) 0
  | _, _ => .nan

def Fl.add (a b : Fl) : Fl :=
  match a, b with
  | .num s x, .num t y =>
    if s = t then .num s (x + y)
    else if x = y then .num false 0
    else if y < x then .num s (x - y) else .num t (y - x)
  | .inf s, .inf t => if s = t then .inf s else .nan
  | .inf s, .num _ _ => .inf s
  | .num _ _, .inf t => .inf t
  | _, _ => .nan

/-- `a < b` as IEEE 754 orders numbers. -/
def Fl.lt (a b : Fl) : Bool :=
  match a, b with
  | .num _ _, .num _ _ => a.rat < b.rat
  | .inf s, .inf t => s && !t
  | .inf s, .num _ _ => s
  | .num _ _, .inf t => !t
  | _, _ => false

/-- A binary32 word. -/
abbrev B32 := BitVec 32

def F32.dec (a : B32) : Fl := f32.decode a.toNat
def F32.enc (x : Fl) : B32 := BitVec.ofNat 32 (f32.encode x)
def F32.mul (a b : B32) : B32 := F32.enc (Fl.mul (F32.dec a) (F32.dec b))
def F32.add (a b : B32) : B32 := F32.enc (Fl.add (F32.dec a) (F32.dec b))
def F32.sub (a b : B32) : B32 := F32.enc (Fl.add (F32.dec a) (F32.dec b).neg)
def F32.div (a b : B32) : B32 := F32.enc (Fl.div (F32.dec a) (F32.dec b))
def F32.lt (a b : B32) : Bool := Fl.lt (F32.dec a) (F32.dec b)
def F32.max (a b : B32) : B32 := if F32.lt a b then b else a
def F32.ofInt (v : Int) : B32 := F32.enc (Fl.ofRat v)
/-- binary32 of a binary16 word: exact. -/
def F32.of16 (a : BitVec 16) : B32 := F32.enc (f16.decode a.toNat)
/-- binary16 of a binary32 word. -/
def F16.of32 (a : B32) : BitVec 16 := BitVec.ofNat 16 (f16.encode (F32.dec a))
def F16.dec (a : BitVec 16) : Fl := f16.decode a.toNat

/-- A binary16 word that is positive, normal and finite (R150). -/
def F16.isPositiveNormal (a : BitVec 16) : Bool :=
  a.toNat / 2 ^ 15 == 0 && decide (0 < a.toNat / 2 ^ 10 % 32) && decide (a.toNat / 2 ^ 10 % 32 < 31)

/-- 2^256, the unit of the fixed-point exponential. -/
def expOne : Int := (2 : Int) ^ 256

/-- Terms of the exponential series of `y`, in the fixed-point unit. -/
def expSeries (y : Int) : Nat → Nat → Int → Int → Int
  | 0, _, _, acc => acc
  | n + 1, k, term, acc => let next := term * y / (expOne * (k : Int)); expSeries y n (k + 1) next (acc + next)

/-- e^r for |r| of at most 104, to more than 100 bits: the series of r ÷ 256, squared eight times. -/
def expRat (r : Rat) : Rat :=
  let y := (r / 256 * (expOne : Rat)).floor
  let v := expSeries y 60 1 expOne expOne
  ((List.range 8).foldl (fun a _ => a * a / expOne) v : Int) / (expOne : Rat)

/-- Exponential in binary32: the exact value rounded under R154 (R278, R281). DEDUCED, log 7. -/
def F32.exp (a : B32) : B32 :=
  match F32.dec a with
  | .num _ r' =>
    let r := (Fl.rat (F32.dec a))
    if r' = 0 then F32.ofInt 1 else if 104 < r then F32.enc (.inf false) else if r < -104 then F32.ofInt 0
    else F32.enc (.num false (expRat r))
  | .inf neg => if neg then F32.ofInt 0 else F32.enc (.inf false)
  | .nan => F32.enc .nan

/-- Square root of a rational, exact or within half a unit of its 40th bit, which decides every rounding to binary32. -/
def sqrtRat (r : Rat) : Rat :=
  let k : Int := 40 - log2Floor r / 2
  let scaled := r * pow2 (2 * k)
  let n := Nat.sqrt scaled.floor.toNat
  (if ((n * n : Nat) : Rat) = scaled then (n : Rat) else (n : Rat) + 1 / 2) * pow2 (-k)

/-- Square root in binary32 (R154, R155). -/
def F32.sqrt (a : B32) : B32 :=
  match F32.dec a with
  | .num neg r => if r = 0 then a else if neg then F32.enc .nan else F32.enc (.num false (sqrtRat r))
  | .inf neg => if neg then F32.enc .nan else a
  | .nan => a

/-! ### Packed codes (R149) -/

/-- W4 code `i` of packed bytes given by address: the value of even index lies in bits [3:0]. -/
def nibbleAt (byte : Nat → BitVec 8) (i : Nat) : Nat := (byte (i / 2)).toNat / 16 ^ (i % 2) % 16

/-- The signed value of a 4-bit code. -/
def signed4 (v : Nat) : Int := toSigned 4 v

/-- Pack 4-bit codes two per byte. -/
def packNibbles : List Int → List (BitVec 8)
  | [] => []
  | [a] => [BitVec.ofNat 8 (ofSigned 4 a)]
  | a :: b :: rest => BitVec.ofNat 8 (ofSigned 4 a + 16 * ofSigned 4 b) :: packNibbles rest

/-- `2^(e-127)`: the scale a scale byte names (R149). -/
def scaleOf (e : Nat) : Rat := pow2 ((e : Int) - 127)

/-- A key or value head vector as the smithy writes it (R153). -/
def encodeHead (kv8 : Bool) (xs : List B32) : HeadVec :=
  let vals := xs.map fun x => (F32.dec x).rat
  let m := vals.foldl (fun a v => max a (if v < 0 then -v else v)) 0
  let lim : Int := if kv8 then 127 else 7
  if m = 0 then { scale := 0, codes := xs.map fun _ => 0 }
  else
    let e := clampTo 1 254 (127 + log2Ceil (m / lim))
    { scale := e.toNat, codes := vals.map fun v => clampSym lim (roundHA (v / scaleOf e.toNat)) }

/-- The code of a staged element (R156) before it is held within -128 and +127. -/
def stageCode (sigma : BitVec 16) (x : B32) : Int := roundHA ((F32.dec x).rat / (F16.dec sigma).rat)

end Sys2Proof.Machine
end

