-- ==== Sys2Proof/Machine/Correction.lean ====
section
/-!
DEFINITION. The arithmetic of one mould pass: columns and spares, conversion (R53, R55), correction (R98 to R105), the
witness comparison (R125 to R128), widening (R164), riser and stand-in terms (R121 to R124, R135, R166).
-/
namespace Sys2Proof
open Sys2Proof.Machine

/-! ### Coefficients (R101) -/

def CoefSet.gainK (c : CoefSet) (k : Nat) : Rat := ((896 + tget (fun _ => c.base) c.gk k : Nat) : Rat) / 1024
def CoefSet.offK (c : CoefSet) (k : Nat) : Rat := ((tget (fun _ => 0) c.ok k : Int) : Rat) / 16
def CoefSet.gainR (c : CoefSet) (k : Nat) : Rat := ((896 + tget (fun _ => c.base) c.gr k : Nat) : Rat) / 1024
def CoefSet.offR (c : CoefSet) (k : Nat) : Rat := ((tget (fun _ => 0) c.or k : Int) : Rat) / 16
def CoefSet.gain45 (c : CoefSet) : Rat := 1 + (c.g45 : Rat) / 32768
def CoefSet.off45 (c : CoefSet) : Rat := (c.o45 : Rat) / 256

/-- A table of codes held within a range; a code at its neutral value is not listed. -/
def holdCodes (neutral lo hi : Int) (t : Table Int) : Table Int :=
  t.foldl (fun a e => tput (fun _ => neutral) a e.1 (clampTo lo hi e.2)) []

/-- A set as the smithy weight store can hold it: every term in its encoding (R101). -/
def CoefSet.held (c : CoefSet) : CoefSet :=
  let gains := fun (t : Table Nat) => (holdCodes 128 0 255 (t.map fun e => (e.1, (e.2 : Int)))).map fun e => (e.1, e.2.toNat)
  { gk := gains c.gk, ok := holdCodes 0 (-128) 127 c.ok, gr := gains c.gr, or := holdCodes 0 (-128) 127 c.or
    g45 := clampTo (-32768) 32767 c.g45, o45 := clampTo (-32768) 32767 c.o45
    thetaG := min 65535 c.thetaG, tG := min (2 ^ 64 - 1) c.tG }

end Sys2Proof

namespace Sys2Proof.Machine

/-! ### Columns -/

/-- A spare that holds no logical column and has not failed. -/
def Mould.spareFree (m : Mould) (i : Nat) : Bool := (tfind m.spareMap i).isNone && !decide (262 + i ∈ m.failed)

/-- Free spare columns, lowest first. -/
def Mould.freeSpares (m : Mould) : List Nat := (List.range 16).filter m.spareFree

/-- The physical column that holds logical column `c` (R46): its own, or the first spare assigned to it, that has not
failed; a pending spare (R584) serves only once the column before it is marked failed. -/
def Mould.holder (m : Mould) (c : Nat) : Nat :=
  if c ∉ m.failed then c
  else match (List.range 16).find? fun i => tfind m.spareMap i == some c && !decide (262 + i ∈ m.failed) with
    | some i => 262 + i
    | none => c

/-- The physical column that the newest spare assigned to logical column `c` replaces, until it is marked failed (R488, R584). -/
def Mould.replaced (m : Mould) (c : Nat) : Option Nat :=
  if c ∉ m.failed then some c
  else match (List.range 16).filter fun i => tfind m.spareMap i == some c && !decide (262 + i ∈ m.failed) with
    | i :: _ :: _ => some (262 + i)
    | _ => none

/-- Mark the columns that the spares of some logical columns replace. -/
def Mould.markReplaced (m : Mould) (cols : List Nat) : Mould :=
  cols.foldl (fun (x : Mould) c => match x.replaced c with
    | some p => { x with failed := x.failed ++ [p] }
    | none => x) m

/-- The logical column a physical column holds, if it holds one. -/
def Mould.logicalOf (m : Mould) (p : Nat) : Option Nat :=
  if p < 262 then (if p ∈ m.failed then none else some p)
  else if p ∈ m.failed then none else tfind m.spareMap (p - 262)

/-- Weight of logical column `c` in row `r`, in cell levels (R47 to R49): a witness is its row sum divided by 128, or that
value rounded to a whole level when the witness was cast from a stand-in copy (R138). -/
def Mould.weight (m : Mould) (c r : Nat) : Rat :=
  if c < 256 then (tget (fun _ => 0) m.weights (1024 * c + r) : Int)
  else if c < 258 then
    let w : Rat := (tget (fun _ => 0) m.witness (1024 * (c - 256) + r) : Int) / 128
    if c - 256 ∈ m.roundedWitness then (roundHA w : Rat) else w
  else if c = 258 then 0
  else if c = 259 then 7
  else if c = 260 then -7
  else if r % 2 = 0 then 7 else -7

/-! ### Conversion -/

/-- An active row set of R51. -/
def activeOk (first rows : Nat) : Bool :=
  first % 64 == 0 && rows % 64 == 0 && decide (64 ≤ rows) && decide (first + rows ≤ 1024)

/-- Conversion resolution by active rows (R53). -/
def resolution (rows : Nat) : Nat := if rows ≤ 64 then 6 else if rows ≤ 256 then 7 else 8

/-- The bound of a code of `b` bits. -/
def codeBound (b : Nat) : Int := 2 ^ (b - 1) - 1

/-- The code of a dot product `d` at resolution `b` and span `s` (R55), with the deviation the conversion shows (R6). -/
def convert (b s : Nat) (d : Rat) (dev : Int) : Int :=
  clampSym (codeBound b) (roundHA (d * (2 ^ (b - 1) : Nat) / s) + dev)

/-- A span a mould may have (R55), or a transposed pass (R70): a power of two from 64 to 65,536. -/
def spanOk (v : Nat) : Bool := decide (64 ≤ v) && decide (v ≤ 65536) && 2 ^ Nat.log2 v == v

/-- The span a cast writes: the one the ingot gives (R55), which R150 has checked. -/
def legalSpan (v : Nat) : Nat := 2 ^ max 6 (min 16 (Nat.log2 v))

/-- Exact dot product of applied codes with logical column `c`. -/
def Mould.dot (m : Mould) (codes : List (Nat × Int)) (c : Nat) : Rat :=
  codes.foldl (fun a e => a + e.2 * m.weight c e.1) 0

/-! ### Temperature -/

/-- Linear interpolation of a temperature table between its 53 entries, 2 °C apart, at a temperature in 1/64 °C; the last line
is extended (R104). -/
def tableAt (t : Nat → Int) (theta : Rat) : Rat :=
  let i := min (theta / 128).floor.toNat 51
  (t i : Rat) + ((t (i + 1) - t i : Int) : Rat) * (theta / 128 - i)

/-- An entry of the table as a croft holds it: normalised by the middle of the entries at 44 and 46 °C, and a 16-bit code (R101, R104). -/
def tableCode (t : Nat → Int) (i : Nat) : Int := clampTo (-32768) 32767 (t i - (t 22 + t 23) / 2)

/-- g_t(θ): the die revision's table, 1 at 45 °C (R104; log 8), within the range of its code (R101). -/
def gainT (theta : Rat) : Rat :=
  if theta = 2880 then 1 else 1 + max (-1) (min (32767 / 32768) (tableAt (tableCode Config.gainTable) theta / 32768))
/-- o_t(θ): the die revision's table, 0 at 45 °C (R104; log 8), within the range of its code (R101). -/
def offT (theta : Rat) : Rat :=
  if theta = 2880 then 0 else max (-128) (min (32767 / 256) (tableAt (tableCode Config.offsetTable) theta / 256))

/-! ### The analogue result -/

/-- Noise of a line in a pass; a line that is not listed shows none. -/
def noiseOf (noise : List Noise) (k line : Nat) : Noise :=
  (noise.find? fun x => x.pass == k && x.line == line).getD ⟨k, line, 0, 0, 0⟩

/-- The residuals of a line (R146, R179): within ±0.8 % and 2 eighths in every pass while the window is not stale and θ lies from 20 to
105 °C; within ±1.3 % from 0 to 20 °C; unbounded elsewhere. -/
def lineResiduals (z : Noise) (theta : Int) (bounded : Bool) : Int × Int :=
  if bounded ∧ 0 ≤ theta ∧ theta ≤ 6720 then (clampSym (if 1280 ≤ theta then 80 else 130) z.gain, clampSym 2 z.offset)
  else (z.gain, z.offset)

/-- What a line presents to its converter, in codes at resolution `b`: the result that the terms in use correct to the exact value
`e` (eighths of a code), off by the line's residuals. This is how raw gain and offset depend on temperature and age. -/
def rawCode (gain off : Rat) (b : Nat) (e : Rat) (r : Int × Int) : Rat :=
  ((e * (1 + (r.1 : Rat) / 10000) + r.2) / gain + off) / (2 ^ (8 - b) : Nat)

/-- Terms of a column: 8 × g_45 × g_t × g_k, and the offset in codes at 8-bit scale (R98). -/
def Mould.columnGain (m : Mould) (theta : Int) (c : Nat) : Rat := 8 * m.latched.gain45 * gainT theta * m.latched.gainK (m.holder c)
def Mould.columnOffset (m : Mould) (theta : Int) (c : Nat) : Rat :=
  (m.latched.off45 + offT theta) / m.latched.gainK (m.holder c) + m.latched.offK (m.holder c)

/-- One pass: codes q of the 262 logical columns (R55), each off its nominal code by what the line presents and by its noise. -/
def Mould.pass (m : Mould) (theta : Int) (bounded : Bool) (b span : Nat) (codes : List (Nat × Int)) (noise : List Noise) (k : Nat) :
    List Int :=
  (List.range 262).map fun c =>
    let d := m.dot codes c
    let z := noiseOf noise k c
    let raw := rawCode (m.columnGain theta c) (m.columnOffset theta c) b (d * 1024 / span) (lineResiduals z theta bounded)
    convert b span d (roundHA raw - roundHA (d * (2 ^ (b - 1) : Nat) / span) + z.delta)

/-- A result that reached either bound (R56). -/
def saturated (b : Nat) (q : Int) : Bool := q == codeBound b || q == -codeBound b

/-! ### Correction -/

/-- q at 8-bit scale (R98). -/
def scale8 (b : Nat) (q : Int) : Int := q * 2 ^ (8 - b)

/-- u of R98: the result with its converter's terms. -/
def Mould.gained (m : Mould) (b c : Nat) (q : Int) : Rat :=
  m.latched.gainK (m.holder c) * ((scale8 b q : Rat) - m.latched.offK (m.holder c))

/-- The corrected value of a column result, in eighths of a code (R98, R99, R100). -/
def Mould.correct (m : Mould) (theta : Int) (b c : Nat) (q : Int) : Int :=
  if saturated b q then 8 * scale8 b q
  else clampSym 2047
    (roundHA (8 * m.latched.gain45 * gainT theta * (m.gained b c q - m.latched.off45 - offT theta)))

/-- The corrected value of a row result of a transposed pass (R105): row converter r mod 256. -/
def Mould.correctRow (m : Mould) (theta : Int) (r : Nat) (q : Int) : Int :=
  clampSym 2047
    (roundHA (8 * m.latched.gain45 * gainT theta * m.latched.gainR (r % 256) * ((q : Rat) - m.latched.offR (r % 256))))

/-! ### Witness -/

/-- T(b, θ) in eighths of a code (R126). -/
def tolerance (b : Nat) (theta : Int) : Nat :=
  let band := if theta ≤ 2880 then 0 else if theta ≤ 4160 then 1 else if theta ≤ 5440 then 2 else 3
  let row : List Nat := if b = 8 then [16, 17, 19, 20] else if b = 7 then [26, 27, 28, 29] else [48, 48, 49, 50]
  (row[band]?).getD 0

/-- m_h in eighths of a code: the mean of a half's 128 data columns (R125). -/
def halfMean (b : Nat) (qs : List Int) (h : Nat) : Int :=
  roundHA (((((List.range 128).foldl (fun a i => a + scale8 b ((qs[i + 128 * h]?).getD 0)) 0 : Int) : Rat) * 8) / 128)

/-- delta_h in eighths of a code (R125). -/
def Mould.witnessDelta (m : Mould) (b : Nat) (qs : List Int) (h : Nat) : Int :=
  let dh : Rat := m.latched.offK (m.holder (256 + h)) -
    ((List.range 128).foldl (fun a i => a + m.latched.offK (m.holder (i + 128 * h))) (0 : Rat)) / 128
  8 * scale8 b ((qs[256 + h]?).getD 0) - halfMean b qs h - roundHA (8 * dh)

/-- Outcome of one half's comparison. -/
inductive Witness where
  | agree | disagree | skipSaturated | skipStandin
  deriving DecidableEq, Repr

/-- The comparison of half `h` in one pass (R57, R125 to R128). `stood` lists the columns under stand-in. A half that stand-in
excludes is counted there, since the results of stood-in columns are not used. The means are held in eighths of a code, the unit
the comparator works in, and the bound is exact. DEDUCED, log 15. -/
def Mould.witnessHalf (m : Mould) (theta : Int) (b : Nat) (unsigned : Bool) (stood : List Nat) (codes : List (Nat × Int))
    (qs : List Int) (h : Nat) : Witness :=
  let cols := (List.range 128).map (· + 128 * h)
  let q := fun (c : Nat) => (qs[c]?).getD 0
  if stood.any fun c => c == 256 + h || (decide (c < 256) && c / 128 == h) then .skipStandin
  else if saturated b (q (256 + h)) || cols.any fun c => saturated b (q c) then .skipSaturated
  else
    let delta := m.witnessDelta b qs h
    let sumAbs : Nat := codes.foldl (fun a e => a + e.2.natAbs) 0
    let extra : Rat := if h ∈ m.roundedWitness then ((8 * sumAbs * (if unsigned then 32 else 64) : Nat) : Rat) / m.span else 0
    if (tolerance b theta : Rat) + extra + ((halfMean b qs h).natAbs : Rat) / 64 < (delta.natAbs : Rat) then .disagree else .agree

/-- Both halves of a pass. -/
def Mould.witnesses (m : Mould) (theta : Int) (b : Nat) (unsigned : Bool) (stood : List Nat) (codes : List (Nat × Int))
    (qs : List Int) : List Witness :=
  [m.witnessHalf theta b unsigned stood codes qs 0, m.witnessHalf theta b unsigned stood codes qs 1]

/-! ### Widening, riser, stand-in -/

/-- Why a window is A8 (R122, R164; the two counters of the RISER page). -/
inductive Rung where
  | a4
  | a8Cold
  | a8Overflow
  deriving DecidableEq, Repr

/-- The choice of R164 over the codes of the active rows. -/
def choose (hot : List Nat) (codes : List (Nat × Int)) : Rung :=
  if codes.any fun e => (decide (e.2 < -8) || decide (7 < e.2)) && !decide (e.1 ∈ hot) then .a8Cold
  else if 32 < (codes.filter fun e => decide (e.2 < -8) || decide (7 < e.2)).length then .a8Overflow
  else .a4

/-- The clipped code a mould row receives (R121). -/
def clip4 (v : Int) : Int := clampTo (-8) 7 v

/-- Residuals of the hot rows (R121): row and residual, zeros left out. -/
def residuals (codes : List (Nat × Int)) : List (Nat × Int) :=
  (codes.map fun e => (e.1, e.2 - clip4 e.2)).filter fun e => e.2 ≠ 0

/-- High and low nibble of an A8 code (R152). -/
def high4 (v : Int) : Int := v / 16
def low4 (v : Int) : Int := v % 16

/-- Weight of column `c` in the hot-row copy at store byte `at_`. -/
def hotWeight (store : Memory) (at_ c : Nat) : Int := signed4 (nibbleAt (fun i => store.get (at_ + i)) c)

/-- The riser's contribution to column `c`, in eighths (R123): `copies` gives the store byte of each hot row's copy. -/
def riserTerm (store : Memory) (copies : List (Nat × Nat)) (span : Nat) (res : List (Nat × Int)) (c : Nat) : Int :=
  roundHA ((((res.foldl (fun a e => a + e.2 * (match copies.find? fun k => k.1 == e.1 with
    | some k => hotWeight store k.2 c
    | none => 0)) 0) * 1024 : Int) : Rat) / span)

/-- The stand-in value of one pass (R135, R166): the exact dot product with the copy at 1,024 ÷ s eighths, or 512 ÷ s for
the low pass of an A8 window, held within ±1,016. -/
def standinValue (copy : List (Nat × Int)) (span scale : Nat) (codes : List (Nat × Int)) : Int :=
  let d : Int := codes.foldl (fun a e => a + e.2 * ((copy.find? fun x => x.1 == e.1).map (·.2)).getD 0) 0
  clampSym 1016 (roundHA (((d * scale : Int) : Rat) / span))

/-- Energy of one forward pass at 45 °C, fJ (R67). -/
def passEnergy (rows : Nat) : Nat :=
  rows * 256 * 21 + (if rows ≤ 64 then 550000 else if rows ≤ 256 then 900000 else 1500000)

end Sys2Proof.Machine
end

