-- ==== Sys2Proof/Machine/Service.lean ====
section
/-!
DEFINITION. What happens to crofts and moulds in service, whichever command brings it about: coordinates (R227, R257), fencing
(R250 to R256), the degraded pattern (R254), leaving service and reserves (R79, R80, R139, R489), probes (R130), the opening of
a cast (R76, R91) and marks of steps (R142, R587).
-/
namespace Sys2Proof.Machine

/-! ### Coordinates -/

/-- Physical column of logical column `j` under the default map (R227). -/
def physColumn (j : Nat) : Nat := if j < 8 then j else if j < 24 then j + 1 else j + 2

/-- Physical columns 8 and 25 hold the spares (R227). -/
def isSpareColumn (p : Nat) : Bool := p == 8 || p == 25

/-- Logical column of a physical column under the default map. -/
def logicalColumn (p : Nat) : Nat := if p < 8 then p else if p < 25 then p - 1 else p - 2

/-- Service of a croft: a spare position is a free spare until something else is recorded, every other position is out of
service until R90 holds for it. -/
def State.service (s : State) (n : Nat) : Service :=
  match (s.croft n).service with
  | some x => x
  | none => if isSpareColumn (croftCol n) then .spare else .outOfService

/-- The logical column a croft holds, or held when it was fenced. -/
def State.columnOf (s : State) (n : Nat) : Option Nat :=
  if isSpareColumn (croftCol n) then (s.croft n).spareColumn else some (logicalColumn (croftCol n))

/-- A spare croft holds logical column `j`: it took the coordinate and has not been fenced since, in service or not (R251, R583). -/
def State.holdsColumn (s : State) (n j : Nat) : Bool :=
  (s.croft n).spareColumn == some j && (s.service n == .inService || s.service n == .outOfService)

/-- The physical croft that holds logical column `j` of a die's row under the current coordinate map. -/
def State.physOf (s : State) (d row j : Nat) : Nat :=
  let at_ := fun p => 2048 * d + 64 * row + p
  if s.holdsColumn (at_ 8) j then at_ 8 else if s.holdsColumn (at_ 25) j then at_ 25 else at_ (physColumn j)

/-- Crofts of a die that the model lists. -/
def State.croftsOf (s : State) (d : Nat) : List Nat := (s.crofts.map (·.1)).filter fun n => croftDie n == d

/-- Free spares of a row: sound spare crofts that hold and await no coordinate. -/
def State.freeSpareCrofts (s : State) (d row : Nat) : List Nat :=
  ([8, 25].map fun p => 2048 * d + 64 * row + p).filter fun n =>
    s.service n == .spare && !(s.die d).spareJobs.any fun j => j.spare == n

/-- The pads and store of a croft are powered: not those of a spare that holds and awaits no coordinate, nor those of a fenced croft once
its rows have been zeroed (R217, R250). -/
def State.croftPowered (s : State) (n : Nat) : Bool :=
  match s.service n with
  | .spare => (s.die (croftDie n)).spareJobs.any fun j => j.spare == n
  | .fenced => decide (n ∈ (s.die (croftDie n)).quenchCrofts)
  | _ => true

/-- The spare R251 takes for a fenced physical column: the nearer one, spare A on a tie. -/
def nearerSpare (free : List Nat) (p : Nat) : Option Nat :=
  match free with
  | [a, b] =>
    let dist := fun n => ((croftCol n : Int) - p).natAbs
    if dist b < dist a then some b else some a
  | [a] => some a
  | _ => none

/-! ### The pattern region of a store (R186, R238, R251) -/

/-- The pattern-region image of a logical croft is written into a store. -/
def Croft.writeRegion (c : Croft) (p : PatternImage) (row col : Nat) : Croft :=
  match p.regions.find? fun r => r.row.val == row && r.lcol.val == col with
  | some r => { c with store := r.lines.foldl (fun m e => Memory.set m (0x18000 + e.1) e.2) (Memory.clear c.store 0x18000 r.bytes) }
  | none => c

/-- The W4 copy of a row's 256 data weights (R120). -/
def Mould.rowCopy (m : Mould) (row : Nat) : List Byte :=
  packNibbles ((List.range 256).map fun c => tget (fun _ => 0) m.weights (1024 * c + row))

/-- The hot-row copies of a logical croft, of the weights that `src` holds in each logical mould that a test picks, are written behind one
another where the pattern region has them (R120, R186, R187). -/
def Croft.writeHot (c : Croft) (p : PatternImage) (row col : Nat) (src : Croft) (slots : Nat → Bool := fun _ => true) : Croft :=
  (p.hot.filter fun h => h.row.val == row && h.lcol.val == col && slots h.mould.val).foldl (fun (k : Croft) h =>
    match src.holding h.mould.val with
    | none => k
    | some m => { k with store := (h.rows.zipIdx).foldl (fun st e =>
        Memory.setBytes st (h.copies + 128 * e.2) ((src.mould m).rowCopy e.1)) k.store }) c

/-- The hot-row copies of a logical croft as another croft's store has them (R251). -/
def Croft.copyHot (c : Croft) (p : PatternImage) (row col : Nat) (src : Croft) : Croft :=
  (p.hot.filter fun h => h.row.val == row && h.lcol.val == col).foldl (fun (k : Croft) h =>
    { k with store := Memory.setBytes k.store h.copies ((List.range (128 * h.rows.length)).map fun i => Memory.get src.store (h.copies + i)) }) c

/-- A coefficient set in a store that reads zero (R217). -/
def zeroSet : CoefSet := { base := 0 }

/-- What a zero-filled weight store holds of a mould: zero sets and no baseline (R184, R217). -/
def Mould.zeroStore (m : Mould) : Mould :=
  { m with bank0 := zeroSet, bank1 := zeroSet, pendingSet := false, gauging := { m.gauging with baseline := none } }

/-- Pads and store powered and zero-filled, the coefficient sets and baselines in the store among it (R184, R217). -/
def Croft.zeroFilled (c : Croft) : Croft :=
  { (List.range 18).foldl (fun (k : Croft) m => k.modMould m Mould.zeroStore) c with actPad := [], psPad := [], actBad := [], psBad := [], satMarks := [], accSpans := [], outputs := [], sigmas := [], store := [], windows := [], rowResults := [] }

/-! ### Fences -/

/-- The die goes on the degraded pattern (R254); its pattern is unloaded at the next bell, and a load in progress was not checked against
the fault. -/
def State.degrade (s : State) (d : Nat) : State := s.modDie d fun x => { x with degraded := true, loadClean := false }

/-- No cast goes on, or is to begin, in a croft whose pads and store lose their power; a mould of a full cast stays CASTING (R88, R250). -/
def Croft.endCasts (c : Croft) : Croft :=
  { c with recasts := [], moulds := tmap freshMould (fun _ m => { m with cast := none, castWaiting := false, spareWaiting := [] }) c.moulds }

/-- The reeve fences a croft (R250). A fenced spare that holds no coordinate only leaves the stock (R256). -/
def State.fenceOnly (s : State) (n : Nat) : State :=
  ((s.modCroft n fun c => { c.endCasts with service := some .fenced }).modDie (croftDie n) fun x =>
    { x with quenchCrofts := x.quenchCrofts ++ [n], spareJobs := x.spareJobs.filter fun j => j.spare != n }).logEvent
      (.croft n) .fenced (Page.croft n).base

/-- The coordinate of a fenced croft goes to a spare of its row, which is powered, zero-filled and given its pattern region before its
casts (R251); without a free spare the die is degraded (R254). -/
def State.takeCoordinate (s : State) (n col : Nat) : State :=
  let d := croftDie n
  let row := croftRow n
  match nearerSpare (s.freeSpareCrofts d row) (croftCol n) with
  | none => s.degrade d
  | some p =>
    let job : SpareJob := { row := row, column := col, spare := p, fenced := n }
    let src := s.croft n
    (s.modCroft p fun c => match (s.die d).pattern with
      | some q => (c.zeroFilled.writeRegion q row col).copyHot q row col src
      | none => c.zeroFilled).modDie d fun x => { x with spareJobs := x.spareJobs ++ [job] }

/-- The logical columns that are left without a croft when a croft is fenced: its own, or one that it was being brought in for. -/
def State.orphaned (s : State) (n : Nat) : List Nat :=
  match (if isSpareColumn (croftCol n) then (s.croft n).spareColumn else some (logicalColumn (croftCol n))) with
  | some c => [c]
  | none => ((s.die (croftDie n)).spareJobs.filter fun j => j.spare == n).map (·.column)

/-- The reeve fences a croft and gives its coordinate to a spare of its row (R250, R251). -/
def State.fence (s : State) (n : Nat) : State :=
  if s.service n = .fenced then s
  else (s.orphaned n).foldl (fun (t : State) c => t.takeCoordinate n c) (s.fenceOnly n)

/-- A router fault fences its croft and puts the die on the degraded pattern (R254). -/
def State.routerFault (s : State) (n : Nat) : State :=
  ((s.modCroft n fun c => { c with routerFault := true }).fence n).degrade (croftDie n)

/-- Temperature of a croft's row as its diode last gave it, 1/64 °C (R103). -/
def State.rowTemp (s : State) (n : Nat) : Int :=
  toSigned 16 ((s.reg (.sense (croftDie n)) (0x200 + 8 * croftRow n)).field 0 16)

/-! ### Probes and marks -/

/-- A croft gathers a mark of the round for its MARK message (R247). -/
def State.gatherMark (s : State) (n step : Nat) (c : Cause) : State :=
  s.modCroft n fun k => if (step, c) ∈ k.gathered then k else { k with gathered := k.gathered ++ [(step, c)] }

/-- Start a probe of a mould, or tie the step to the one that runs (R130). -/
def State.startProbe (s : State) (n m : Nat) (step : Option Nat) : State :=
  s.modMould n m fun x =>
    match x.probe with
    | some p => { x with probe := some { p with tied := p.tied ++ step.toList } }
    | none => { x with probe := some { tied := step.toList, started := s.reeveTime (croftDie n), pack := s.pkg.pack } }

/-- Mark a step SUSPECT for a croft's mould: a first run is marked for re-run, a re-run is delivered with the flag (R130,
R142). The croft counts each step it marks once. -/
def State.markSuspect (s : State) (step n : Nat) (m : Option Nat) : State :=
  match s.findStep step with
  | none => s
  | some x =>
    let counted := (if x.disagreed.any fun e => e.1 == n then s else s.bumpCroft n 0x108).gatherMark n step .suspect
    counted.modStep step fun y =>
      let y1 := { y with disagreed := y.disagreed ++ [(n, m.getD 18)] }
      if y.rerun then { y1 with suspect := true } else y1.addMark .suspect

/-- Mark every step in flight on a die. -/
def State.markDie (s : State) (d : Nat) (c : Cause) : State :=
  { s with serve := { s.serve with steps := s.serve.steps.map fun x => if x.usesDie d then x.addMark c else x } }

/-! ### Moulds leaving service -/

/-- A reserve of a croft: a BLANK mould that holds no slot, and behind those a mould that was CLEAR at a start (R489). Which of several
takes the slot is not stated (R79, R86): the lowest physical number does. DESIGN CHOICE, log 45. -/
def Croft.reserve (c : Croft) : Option Nat :=
  let free := (List.range 18).filter fun m => (c.mould m).slot.isNone
  match free.find? fun m => (c.mould m).state == .blank with
  | some m => some m
  | none => free.find? fun m => (c.mould m).state == .cast && (c.mould m).reserveOk

/-- Map a reserve into a logical slot; its cast waits for a bell that allows it (R79, R86). With none left the croft is
fenced (R80). -/
def State.mapReserve (s : State) (n slot : Nat) : State :=
  match (s.croft n).reserve with
  | some m => s.modMould n m fun x => { x with slot := some slot, castWaiting := true, castRestores := true, reserveOk := false }
  | none => s.fence n

/-- A slot is out of service: admission holds every step that schedules a window on it (R140). -/
def State.holdSlot (s : State) (n slot : Nat) : State :=
  s.modCroft n fun c => if slot ∈ c.held then c else { c with held := c.held ++ [slot] }

/-- A forward window of a slot that has not been delivered when its mould leaves service delivers zero and marks its step SUSPECT
(R140). -/
def State.dropWindow (s : State) (n slot : Nat) : State :=
  match tfind (s.croft n).windows slot with
  | some w => if w.delivered then s else (s.modCroft n fun c => { c with windows := tdrop c.windows slot }).markSuspect w.step n none
  | none => s

/-- Stand-in slots that no stand-in uses are zero (R222). -/
def Croft.clearSlots (c : Croft) : Croft :=
  { c with store := c.store.filter fun e => decide (e.1 < 0x10000) || decide (0x14000 ≤ e.1) ||
      c.moulds.any fun m => m.2.standins.any fun x => x.slot == (e.1 - 0x10000) / 512 }

/-- A logical mould leaves service (R139): written RETIRED when its spare columns are spent, else kept CAST without a slot
(R489); a reserve takes the slot. -/
def State.leaveService (s : State) (n slot : Nat) (retired : Bool) : State :=
  match (s.croft n).holding slot with
  | none => s
  | some m =>
    ((((s.dropWindow n slot).modMould n m fun x => { x with
        slot := none, probe := none, gauging := {}, standins := [], refPending := [], refReady := [], spareWaiting := [],
        castWaiting := false, state := if retired then .retired else x.state }).modCroft n (·.clearSlots)).holdSlot n slot).mapReserve n slot

/-- Write a mould RETIRED or FAILED and let a reserve take its slot (R79, R91): it is never cast again, its waiting spares included. -/
def State.spendMould (s : State) (n m : Nat) (st : MouldState) : State :=
  let slot := (s.mould n m).slot
  let s1 := (s.modMould n m fun x => { x with
    state := st, slot := none, cast := none, castWaiting := false, standins := [], refPending := [], refReady := [], spareWaiting := []
    gauging := {}, probe := none }).modCroft n (·.clearSlots)
  match slot with
  | some k => (s1.holdSlot n k).mapReserve n k
  | none => s1

/-! ### Casting -/

/-- Moulds casting on a die (R81). -/
def State.castingOn (s : State) (d : Nat) : Nat :=
  ((s.croftsOf d).map fun n => ((s.croft n).moulds.filter fun e => e.2.cast.isSome).length).foldl (· + ·) 0

/-- Moulds casting in a croft. -/
def Croft.casting (c : Croft) : Nat := (c.moulds.filter fun e => e.2.cast.isSome).length

/-- Junction temperature of a die: its hottest diode result, 1/64 °C (inputs 0 to 31, R389). -/
def State.junction (s : State) (d : Nat) : Int :=
  (List.range 32).foldl (fun a i => max a (toSigned 16 ((s.reg (.sense d) (0x200 + 8 * i)).field 0 16))) (-32768)

/-- The generation whose ingot the package casts from, when it holds one (R525, R582). -/
def State.castGen (s : State) : Option Nat :=
  match s.pkg.gen.switch with
  | some w => if w.phase = .waiting then s.pkg.gen.inService.map (·.generation) else some w.generation
  | none => s.pkg.gen.inService.map (·.generation)

/-- Role, temperature, die limit and croft limit of R74, R81 and R83 let a mould of this croft start casting; a fenced croft casts none
(R250). -/
def State.mayCast (s : State) (n : Nat) : Bool :=
  s.pkg.role != 3 && s.service n != .fenced && decide (s.junction (croftDie n) ≤ 6080) && decide (s.castingOn (croftDie n) < Config.castPerDie) &&
    decide ((s.croft n).casting < (if s.service n = .inService then 1 else 16))

/-- The Open and Erase phases of a full cast (R76, R88): state CASTING and the incremented cast count come first; a mould
whose endurance is spent is written RETIRED instead (R91). -/
def State.openCast (s : State) (n m gen : Nat) : State :=
  if (s.mould n m).castCount < Config.maxCasts then
    s.modMould n m fun x => { x with
      state := .casting, castCount := x.castCount + 1, generation := gen, weights := [], witness := [],
      cast := some { generation := gen }, castWaiting := false, gauging := {}, probe := none }
  else s.spendMould n m .retired

/-- A spare-column cast opens (R85); it consumes no cast count (R92). -/
def State.openSpareCast (s : State) (n m : Nat) (spares : List Nat) : State :=
  s.modMould n m fun x => { x with cast := some { full := false, spares := spares, generation := x.generation }, spareWaiting := [] }

/-- Spares wait to be cast: action 9 of a bell starts every cast (R85, R380). -/
def State.wantSpares (s : State) (n m : Nat) (spares : List Nat) : State :=
  if spares = [] then s
  else s.modMould n m fun x => { x with spareWaiting := x.spareWaiting ++ spares, castRestores := true }

/-- What a cast that is cut short has staged, in the casting area or the image buffer as its croft serves now, is to be zeroed in the next
quench interval (R222). -/
def State.noteCast (s : State) (n m : Nat) : State :=
  if (s.mould n m).cast.isSome then
    let e := (n, ((s.mould n m).slot).getD 0, s.service n == .inService)
    s.modDie (croftDie n) fun x => { x with quenchCasts := if e ∈ x.quenchCasts then x.quenchCasts else x.quenchCasts ++ [e] }
  else s

/-- Every cast of the package is noted so. -/
def State.noteCasts (s : State) : State :=
  s.crofts.foldl (fun (t : State) e => e.2.moulds.foldl (fun (u : State) m => u.noteCast e.1 m.1) t) s

/-- A cast is abandoned: a mould of a full cast stays CASTING (R88). -/
def State.abandonCast (s : State) (n m : Nat) : State :=
  if (s.mould n m).cast.isSome then (s.noteCast n m).modMould n m fun x => { x with cast := none } else s

/-- Casting stops after the current pulse (R401, R566). -/
def State.stopCasts (s : State) : State :=
  s.crofts.foldl (fun (t : State) e => e.2.moulds.foldl (fun (u : State) m => u.abandonCast e.1 m.1) t) s

end Sys2Proof.Machine
end

