-- ==== Sys2Proof/Machine/StackMem.lean ====
section
/-!
DEFINITION. Stack memory: lines, codes, poison, keys and blanking (chapter 11), and the page pool (R287, R310, R449, R463).
An address here is package-wide: stack number × 2^37 + stack byte (R455), so page p starts at p × 65,536 (R287).
-/
namespace Sys2Proof.Machine

/-! ### Key classes (R456, R513) -/

def keyDevice : Nat := 0
def keyPlatform : Nat := 1
def keyPublic : Nat := 2
def keyTenant (t : Nat) : Nat := 0x100 + t
def keySession (x : Nat) : Nat := 0x10000 + x

/-- The version of a key slot: it changes whenever the lockhouse writes a fresh key (R514, R515). -/
def State.keyVersion (s : State) (key : Nat) : Nat := tget (fun _ => 0) s.lock.keys key

/-- The lockhouse overwrites a key slot with a fresh key (R514). -/
def State.renewKey (s : State) (key : Nat) : State :=
  { s with lock := { s.lock with
    keys := tput (fun _ => 0) s.lock.keys key (s.lock.keyDraws + 1), keyDraws := s.lock.keyDraws + 1 } }

/-! ### Pages -/

/-- The page of an address, its stack, and its number within the stack. -/
def pageOf (a : Nat) : Nat := a / Config.pageBytes
def stackOfPage (p : Nat) : Nat := p / Config.stackPages
def localPage (p : Nat) : Nat := p % Config.stackPages
def stackOf (a : Nat) : Nat := a / Config.stackBytes

/-- A number lies in one of a list of closed intervals. -/
def inIntervals (l : List (Nat × Nat)) (x : Nat) : Bool := l.any fun e => decide (e.1 ≤ x) && decide (x ≤ e.2)

/-- Take one number out of a list of closed intervals. -/
def cutInterval (l : List (Nat × Nat)) (x : Nat) : List (Nat × Nat) :=
  l.flatMap fun e =>
    if e.1 ≤ x ∧ x ≤ e.2 then
      (if e.1 < x then [(e.1, x - 1)] else []) ++ (if x < e.2 then [(x + 1, e.2)] else [])
    else [e]

/-- A page whose unclean bit is set (R462). -/
def State.unclean (s : State) (p : Nat) : Bool := inIntervals (s.stack (stackOfPage p)).unclean (localPage p)

/-- Mark a page unclean (R462). -/
def State.markUnclean (s : State) (p : Nat) : State :=
  if s.unclean p then s
  else s.modStack (stackOfPage p) fun k => { k with unclean := k.unclean ++ [(localPage p, localPage p)] }

/-! ### Lines -/

def State.lineCode (s : State) (l : Nat) : LineCode := tget (fun _ => {}) s.hbm.lines l
def State.setLineCode (s : State) (l : Nat) (c : LineCode) : State :=
  { s with hbm := { s.hbm with lines := tput (fun _ => {}) s.hbm.lines l c } }

/-- The engine address of a package-wide address (R45, R452). -/
def engineAddr (a : Nat) : Nat := apertureAddr (stackOf a) (a % Config.stackBytes)

/-- A row enters the repair list of its stack once, unless the list is full, when the refusal is counted (R473). -/
def State.listRow (s : State) (l : Nat) : State :=
  let k := l / 2147483648
  let row := Config.stackRow (l % 2147483648)
  if row ∈ (s.stack k).repair then s
  else if (s.stack k).repair.length < 64 then s.modStack k fun x => { x with repair := x.repair ++ [row] }
  else s.logEvent (.stack k) .busy (engineAddr (64 * l))

/-- Poison a line that decoded as uncorrectable: the marker goes over the check symbols, the data symbols stay; the line's
address is logged with POISON (R465). -/
def State.poisonLine (s : State) (l : Nat) : State :=
  let k := l / 2147483648
  let c := s.lineCode l
  (((s.setLineCode l { c with marker := .poison, flips := 0 }).bump (.stack k) 0x140 1).logEvent (.stack k) .poison
    (engineAddr (64 * l))).listRow l

/-- Symbols in error. -/
def LineCode.errors (c : LineCode) : Nat := ((List.range 8).filter fun i => c.flips.toNat.testBit i).length

/-- What decoding a line finds (R459, R460). -/
inductive Decoded where
  | data | corrected (n : Nat) | blank | poisoned | uncorrectable | miscorrected
  deriving DecidableEq, Repr

/-- Decode a line by its marker and its symbols in error; with seven or more the outcome is open (log 10). -/
def LineCode.decode (c : LineCode) (draw : Nat) : Decoded :=
  if c.errors ≤ 2 then
    match c.marker with
    | .blank => .blank
    | .poison => .poisoned
    | .clean => if c.errors = 0 then .data else .corrected c.errors
  else if c.errors ≤ 6 then .uncorrectable
  else match Config.overrunDecode draw with
    | 0 => .uncorrectable
    | 1 => .blank
    | 2 => .poisoned
    | _ => .miscorrected

/-- What a read of a line delivers. -/
structure LineData where
  bytes : List (BitVec 8)
  poison : Bool
  deriving DecidableEq, Repr

def zeroLine : List (BitVec 8) := List.replicate 64 0

/-- The key of a slot in a version. -/
def slotKey (key version : Nat) : List Nat := (List.range 64).map fun i => (Config.stackKey key version i).toNat

/-- The data symbols of line `l` as they are stored: the line's bytes under AES-256-XTS, with the key it was written under and its package-wide
address as the tweak (R455). The model keeps the bytes of a line as they were before the cipher, which its own key gives back. -/
def State.cipherLine (s : State) (l : Nat) : List Nat :=
  let c := s.lineCode l
  xtsSeal (slotKey c.key c.version) (64 * l) ((Memory.getBytes s.hbm.mem (64 * l) 64).map (·.toNat))

/-- The markers, byte 0 for check symbol 0 (R460). -/
def Marker.bytes : Marker → List Nat
  | .clean => List.replicate 8 0
  | .poison => [0xA5, 0xA5, 0x5A, 0x5A, 0xC3, 0xC3, 0x3C, 0x3C]
  | .blank => [0x0F, 0x0F, 0xF0, 0xF0, 0x69, 0x69, 0x96, 0x96]

/-- The check symbols of line `l` as they were stored last: those of the ciphertext, with the marker (R458, R460). -/
def State.checkLine (s : State) (l : Nat) : List Nat := xorBytes (lineCheck (s.cipherLine l)) (s.lineCode l).marker.bytes

/-- What a line decrypts to under key `key`: the bytes written, or unrelated bytes under another key or another version (R455, R457). -/
def State.decrypted (s : State) (l key : Nat) : List (BitVec 8) :=
  let c := s.lineCode l
  if c.key = key ∧ c.version = s.keyVersion key then Memory.getBytes s.hbm.mem (64 * l) 64
  else (xtsOpen (slotKey key (s.keyVersion key)) (64 * l) (s.cipherLine l)).map (BitVec.ofNat 8)

/-- Read line `l` under key index `key` (R457 to R465, R478). -/
def State.readLine (s : State) (l key : Nat) : State × LineData :=
  let k := l / 2147483648
  if (s.stack k).out then (s.bump (.stack k) 0x148 1, ⟨s.decrypted l key, true⟩)
  else if s.unclean (pageOf (64 * l)) then (s, ⟨zeroLine, false⟩)
  else
    let t := if 7 ≤ (s.lineCode l).errors then s.tick else s
    match (s.lineCode l).decode s.fresh with
    | .data => (t, ⟨s.decrypted l key, false⟩)
    | .corrected n => (t.bump (.stack k) (if n = 1 then 0x130 else 0x138) 1, ⟨s.decrypted l key, false⟩)
    | .blank => (t, ⟨zeroLine, false⟩)
    | .poisoned => (t.bump (.stack k) 0x148 1, ⟨s.decrypted l key, true⟩)
    | .uncorrectable => ((t.poisonLine l).bump (.stack k) 0x148 1, ⟨s.decrypted l key, true⟩)
    | .miscorrected => (t, ⟨(List.range 64).map fun i => Config.miscorrected (64 * l + i), false⟩)

/-- Write a whole line: a fresh codeword without a marker, or with the poison marker when the data is poisoned (R461, R466);
nothing reaches an unclean page (R462), and a stack out of service drops and counts the write (R478). -/
def State.writeLine (s : State) (l key : Nat) (bytes : List (BitVec 8)) (poison : Bool) : State :=
  let k := l / 2147483648
  if (s.stack k).out then s.modStack k fun x => { x with droppedWrites := x.droppedWrites + 1 }
  else if s.unclean (pageOf (64 * l)) then s
  else
    let s1 : State := { s with hbm := { s.hbm with mem := Memory.setBytes s.hbm.mem (64 * l) (bytes.take 64) } }
    s1.setLineCode l { marker := if poison then .poison else .clean, flips := 0, key := key, version := s.keyVersion key }

/-- Write part of a line from byte `o` (R461): read, merge, write back. A poisoned line stays poisoned and the write is
counted; a blank one merges from zeros; an uncorrectable one is poisoned first. -/
def State.writePart (s : State) (l o key : Nat) (bytes : List (BitVec 8)) : State :=
  let k := l / 2147483648
  if (s.stack k).out then s.modStack k fun x => { x with droppedWrites := x.droppedWrites + 1 }
  else if s.unclean (pageOf (64 * l)) then s
  else
    let merge := fun (old : List (BitVec 8)) => (List.range 64).map fun i =>
      if o ≤ i ∧ i < o + bytes.length then (bytes[i - o]?).getD 0 else (old[i]?).getD 0
    let t := if 7 ≤ (s.lineCode l).errors then s.tick else s
    let keep := fun (u : State) =>
      (u.writeLine l key (merge (s.decrypted l key)) true).bump (.stack k) 0x150 1
    match (s.lineCode l).decode s.fresh with
    | .data => t.writeLine l key (merge (s.decrypted l key)) false
    | .corrected _ => t.writeLine l key (merge (s.decrypted l key)) false
    | .blank => t.writeLine l key (merge zeroLine) false
    | .poisoned => keep t
    | .uncorrectable => keep (t.poisonLine l)
    | .miscorrected => t.writeLine l key (merge ((List.range 64).map fun i => Config.miscorrected (64 * l + i))) false

/-- Read `n` bytes from an address, line by line in ascending order. -/
def State.readBytes (s : State) (a n key : Nat) : State × LineData :=
  let first := a / 64
  let count := if n = 0 then 0 else (a + n - 1) / 64 - first + 1
  let all := (List.range count).foldl (fun (acc : State × LineData) i =>
    let r := acc.1.readLine (first + i) key
    (r.1, ⟨acc.2.bytes ++ r.2.bytes, acc.2.poison || r.2.poison⟩)) (s, ⟨[], false⟩)
  (all.1, ⟨(all.2.bytes.drop (a % 64)).take n, all.2.poison⟩)

/-- Write bytes from an address: whole lines whole, parts as partial writes. -/
def State.writeBytes (s : State) (a key : Nat) (bytes : List (BitVec 8)) : State :=
  let first := a / 64
  let count := if bytes = [] then 0 else (a + bytes.length - 1) / 64 - first + 1
  (List.range count).foldl (fun (t : State) i =>
    let l := first + i
    let lo := if i = 0 then a % 64 else 0
    let skip := if i = 0 then 0 else 64 * i - a % 64
    let part := (bytes.drop skip).take (64 - lo)
    if part.length = 64 then t.writeLine l key part false else t.writePart l lo key part) s

/-- Write bytes over a list of pages, and read all bytes of one. -/
def State.writePages (s : State) (pages : List Nat) (key : Nat) (bytes : List (BitVec 8)) : State :=
  (pages.zipIdx).foldl (fun (t : State) e =>
    t.writeBytes (e.1 * Config.pageBytes) key ((bytes.drop (Config.pageBytes * e.2)).take Config.pageBytes)) s
def State.readPages (s : State) (pages : List Nat) (key : Nat) : State × LineData :=
  pages.foldl (fun (a : State × LineData) p =>
    let r := a.1.readBytes (p * Config.pageBytes) Config.pageBytes key
    (r.1, ⟨a.2.bytes ++ r.2.bytes, a.2.poison || r.2.poison⟩)) (s, ⟨[], false⟩)

/-- Blank a page: the blank marker goes into every line, which removes any poison, and the unclean bit clears (R462, R464). -/
def State.blankPage (s : State) (p : Nat) : State :=
  let k := stackOfPage p
  let s1 : State := { s with hbm := { s.hbm with
    mem := Memory.clear s.hbm.mem (p * Config.pageBytes) Config.pageBytes
    lines := s.hbm.lines.filter fun e => e.1 / 1024 != p } }
  (s1.modStack k fun x => { x with unclean := cutInterval x.unclean (localPage p) }).bump (.stack k) 0x160 1

/-! ### Staging regions and the steward partition -/

/-- Pages of one stack that the steward partition takes (R449). -/
def State.partPages (s : State) : Nat := 16384 * s.pkg.partGib

/-- An access to the stack aperture is allowed (R19, R45): in the steward partition or a declared staging region. -/
def State.apertureOk (s : State) (k b : Nat) : Bool :=
  let p := b / Config.pageBytes
  decide (p < s.partPages) || ((s.stack k).staging.any fun e => decide (e.2.1 ≤ p) && decide (p < e.2.1 + e.2.2))

/-- The package-wide address of an engine address in the aperture, with its run length: how many bytes of the same region
follow it in its stack. -/
def State.regionRun (s : State) (a : Nat) : Option (Nat × Nat) :=
  match target a with
  | .aperture k b =>
    let p := b / Config.pageBytes
    if p < s.partPages then some (k * Config.stackBytes + b, s.partPages * Config.pageBytes - b)
    else match (s.stack k).staging.find? fun e => decide (e.2.1 ≤ p) && decide (p < e.2.1 + e.2.2) with
      | some e => some (k * Config.stackBytes + b, (e.2.1 + e.2.2) * Config.pageBytes - b)
      | none => none
  | _ => none

/-- A range of engine addresses lies wholly in one region the device accepts (R19): AUTH for a base outside, LENGTH for a range
that runs past its region's end. -/
def State.checkRange (s : State) (a len : Nat) : Option Code :=
  match s.regionRun a with
  | none => some .auth
  | some (_, run) => if len ≤ run then none else some .length

/-- A line of a range of engine addresses reads poisoned (R466). -/
def State.poisonIn (s : State) (a bytes : Nat) : Bool :=
  (List.range ((bytes + 63) / 64)).any fun i => (s.lineCode ((a - 2 ^ 40) / 64 + i)).marker == .poison

/-! ### The intake journals (R344, R449, R451) -/

/-- The stack of the primary copy of a window's journal, and that of its mirror. -/
def journalStack (w : Nat) : Nat := 2 * (w / 4) + w % 2
def journalMirror (w : Nat) : Nat := 2 * ((w / 4 + 1) % 4) + w % 2

/-- The 32 pages of a copy within its stack's journal area: the two primary copies of the stack lie below the two mirrors, lower window
first (R449; the order is open. DESIGN CHOICE, log 60). -/
def journalPages (w : Nat) (mirror : Bool) : Nat × Nat := (2088704 + 64 * b2n mirror + 32 * (w % 4 / 2), 32)

/-- Change a window's journal: both copies, less one whose stack is out of service (R344, R478). -/
def State.putJournal (s : State) (w : Nat) (f : List (Nat × Body × Nat) → List (Nat × Body × Nat)) (j : Journal) : Journal :=
  { primary := if (s.stack (journalStack w)).out then j.primary else f j.primary
    mirror := if (s.stack (journalMirror w)).out then j.mirror else f j.mirror }

/-- The journal as it is read: from the primary copy, or from the mirror when the primary's stack is out of service (R451, R478). -/
def State.journalOf (s : State) (w : Nat) : List (Nat × Body × Nat) :=
  let j := (tget (fun _ => {}) s.serve.windows w : Window).journal
  if (s.stack (journalStack w)).out then j.mirror else j.primary

/-! ### Areas that a hub's two stacks hold alike (R449, R450) -/

/-- First stack-local page of the firmware area and of the count tables. -/
def firmwarePage : Nat := 2087680
def countPage : Nat := 2088832

/-- The other stack of a hub, which holds the mirror copy. -/
def otherStack (k : Nat) : Nat := 2 * (k / 2) + (1 - k % 2)

/-- Byte `i` of the count tables of hub `h`, as both of its stacks hold it: 16 bits for each page of its stacks in turn (R310, R449, R450). -/
def State.countByte (s : State) (h i : Nat) : BitVec 8 :=
  BitVec.ofNat 8 ((tfind s.store.refs (2 * h * Config.stackPages + i / 2)).getD 0 / 256 ^ (i % 2))

/-- The line of the count tables on stack `k` that holds the count of page `p` of its hub. -/
def countLine (k p : Nat) : Nat := (k * Config.stackBytes + 65536 * countPage + 2 * (p % (2 * Config.stackPages))) / 64

/-- A read of this line delivers poison. -/
def State.readsPoison (s : State) (l : Nat) : Bool :=
  (s.stack (l / 2147483648)).out || (s.lineCode l).marker == .poison || decide (3 ≤ (s.lineCode l).errors)

/-- The stack that serves a read of a page's count: the page's own, or the other one when that read is poisoned; with both poisoned the case
lies outside R347 (R450, R466). -/
def State.countServer (s : State) (p : Nat) : Option Nat :=
  [stackOfPage p, otherStack (stackOfPage p)].find? fun k => !s.readsPoison (countLine k p)

/-- Bytes of the firmware area from offset `o` on are written on both stacks of every hub (R450, R517). -/
def State.writeFirmware (s : State) (o : Nat) (bytes : List (BitVec 8)) : State :=
  (List.range 8).foldl (fun (t : State) k => t.writeBytes (k * Config.stackBytes + 65536 * firmwarePage + o) keyDevice bytes) s

/-- Bytes of a stack's firmware area. -/
def State.readFirmware (s : State) (k o n : Nat) : State × LineData :=
  s.readBytes (k * Config.stackBytes + 65536 * firmwarePage + o) n keyDevice

/-! ### The page pool -/

/-- Insert by start. -/
def insertInterval (x : Nat × Nat) : List (Nat × Nat) → List (Nat × Nat)
  | [] => [x]
  | y :: ys => if x.1 ≤ y.1 then x :: y :: ys else y :: insertInterval x ys

def sortIntervals : List (Nat × Nat) → List (Nat × Nat)
  | [] => []
  | x :: xs => insertInterval x (sortIntervals xs)

/-- Numbers from `lo` to `hi` (excluded) that a list of intervals, sorted by start, covers. -/
def coverage : Nat → Nat → List (Nat × Nat) → Nat
  | _, _, [] => 0
  | lo, hi, (a, b) :: xs =>
    let from_ := max lo a
    let to_ := min hi (b + 1)
    if from_ < to_ then (to_ - from_) + coverage to_ hi xs else coverage lo hi xs

/-- What a stack's pool span has that is not free and clean: staging regions, unclean pages, allocated and withheld pages. -/
def State.takenIn (s : State) (k : Nat) : List (Nat × Nat) :=
  let x := s.stack k
  x.unclean ++ (x.staging.map fun e => (e.2.1, e.2.1 + e.2.2 - 1)) ++ x.withheld.map (fun p => (p, p)) ++
    ((s.store.refs.map (·.1)).filter fun p => stackOfPage p == k).map fun p => (localPage p, localPage p)

/-- Free and clean pages of a stack's pool (R463). -/
def State.freeIn (s : State) (k : Nat) : Nat :=
  if (s.stack k).out then 0
  else (Config.poolEnd - s.partPages) - coverage s.partPages Config.poolEnd (sortIntervals (s.takenIn k))

/-- Take the pages `a` to `b` out of a list of closed intervals. -/
def cutRange (l : List (Nat × Nat)) (a b : Nat) : List (Nat × Nat) :=
  l.flatMap fun e =>
    if b < e.1 ∨ e.2 < a then [e]
    else (if e.1 < a then [(e.1, a - 1)] else []) ++ (if b < e.2 then [(b + 1, e.2)] else [])

/-- The pool pages of a stack: its pool span less declared staging regions (R449). -/
def State.poolSpan (s : State) (k : Nat) : List (Nat × Nat) :=
  (s.stack k).staging.foldl (fun l e => cutRange l e.2.1 (e.2.1 + e.2.2 - 1)) [(s.partPages, Config.poolEnd - 1)]

/-- KVMAP.POOL_FREE of a hub (R287, R321). -/
def State.poolFree (s : State) (h : Nat) : Nat := s.freeIn (2 * h) + s.freeIn (2 * h + 1)

/-- The first page at or above `p` that no interval, sorted by start, covers. -/
def firstGap : Nat → List (Nat × Nat) → Nat
  | p, [] => p
  | p, (a, b) :: xs => if p < a then p else firstGap (max p (b + 1)) xs

/-- The lowest free page of a stack. -/
def State.pageIn (s : State) (k : Nat) : Option Nat :=
  if (s.stack k).out then none
  else
    let p := firstGap s.partPages (sortIntervals (s.takenIn k))
    if p < Config.poolEnd then some (k * Config.stackPages + p) else none

/-- Allocate a page from a hub's pool with one reference; the hub alternates between its two stacks (R287, R310). -/
def State.allocPage (s : State) (h : Nat) : State × Option Nat :=
  let first := 2 * h + tget (fun _ => 0) s.store.turn h % 2
  let other := 2 * h + (1 - tget (fun _ => 0) s.store.turn h % 2)
  let pick := match s.pageIn first with
    | some p => some p
    | none => s.pageIn other
  match pick with
  | none => (s, none)
  | some p =>
    ({ s with store := { s.store with
      refs := tset s.store.refs p 1, turn := tput (fun _ => 0) s.store.turn h (1 - (stackOfPage p - 2 * h)) } }, some p)

/-- References to a page. -/
def State.refsOf (s : State) (p : Nat) : Nat := (tfind s.store.refs p).getD 0

/-- Take one more reference; a count never passes 65,534 (R308, R310). -/
def State.addRef (s : State) (p : Nat) : State :=
  { s with store := { s.store with refs := tset s.store.refs p (min 65534 (s.refsOf p + 1)) } }

/-- Release a reference; at zero the page returns to the pool, unclean (R288, R310, R462). -/
def State.dropRef (s : State) (p : Nat) : State :=
  if 1 < s.refsOf p then { s with store := { s.store with refs := tset s.store.refs p (s.refsOf p - 1) } }
  else if s.refsOf p = 1 then
    (({ s with store := { s.store with refs := tdrop s.store.refs p } } : State)).markUnclean p
  else s

def State.dropRefs (s : State) (ps : List Nat) : State := ps.foldl (fun (t : State) p => t.dropRef p) s

/-- Allocate `n` pages, or none at all. -/
def State.allocPages (s : State) (h n : Nat) : Option (State × List Nat) :=
  (List.range n).foldl (fun (acc : Option (State × List Nat)) _ =>
    acc.bind fun a => match a.1.allocPage h with
      | (t, some p) => some (t, a.2 ++ [p])
      | (_, none) => none) (some (s, []))

end Sys2Proof.Machine
end

