-- ==== Sys2Proof/Machine/Paging.lean ====
section
/-!
DEFINITION. Key-value pages, page tables and the commons (R286 to R293, R299 to R314).
-/
namespace Sys2Proof

/-- Window of a layer, when it has one. -/
def ModelShape.windowOf (m : ModelShape) (layer : Nat) : Option Nat := (m.layers[layer]?).getD none

/-- Every (layer, head) of a model. -/
def ModelShape.layerHeads (m : ModelShape) : List (Nat × Nat) :=
  (List.range m.layers.length).flatMap fun l => (List.range m.kvHeads).map fun h => (l, h)

end Sys2Proof

namespace Sys2Proof.Machine


def ceilDiv (a b : Nat) : Nat := (a + b - 1) / b

/-- Ring pages of a window layer (R290). -/
def ringPages (w t : Nat) : Nat := ceilDiv (w + t + 15) t

/-- The hub that owns a session: the hub of its window (R552). -/
def State.ownerHub (s : State) (x : Nat) : Nat := (s.sess x).window / 4

/-- The ingot a session is pinned to: that of its generation, else one with an equal kv_tag (R364). -/
def State.sessIngot (s : State) (x : Nat) : Option IngotRec :=
  let y := s.sess x
  let held := s.pkg.gen.inService.toList ++ s.pkg.gen.staged.toList
  match held.find? fun r => r.generation == y.generation with
  | some r => if s.pkg.gen.inService.isSome then some r else none
  | none => held.find? fun r => s.pkg.gen.inService.isSome && r.kvTag == y.kvTag

def State.sessShape (s : State) (x : Nat) : ModelShape := ((s.sessIngot x).map (·.shape)).getD { layers := [], kvHeads := 0 }

/-- The entry that holds the block of T positions number `e` in a layer (R289, R290). -/
def entryOfBlock (window : Option Nat) (t e : Nat) : Nat :=
  match window with
  | none => e
  | some w => e % ringPages w t

/-- Index of a page-table entry (R292). -/
def tableIndex (heads ecap layer head j : Nat) : Nat := (layer * heads + head) * ecap + j

/-- The table index of block `e` of a session's layer and head. -/
def State.blockIndex (s : State) (x layer head e : Nat) : Nat :=
  let ss := s.sess x
  let t := slotsPerPage ss.kv8
  let m := s.sessShape x
  tableIndex m.kvHeads (ceilDiv ss.capacity t) layer head (entryOfBlock (m.windowOf layer) t e)

def Session.pte (x : Session) (i : Nat) : Pte := tget (fun _ => .empty) x.table i
def Session.setPte (x : Session) (i : Nat) (e : Pte) : Session := { x with table := tput (fun _ => .empty) x.table i e }

/-- The entry holds no page: empty, or of the kind that is not used (R293). -/
def Pte.isEmpty : Pte → Bool
  | .empty => true
  | .unused => true
  | _ => false

/-- The 8-byte word of an entry (R293). -/
def Pte.word : Pte → Word
  | .empty => 0
  | .page p => Word.put 62 2 1 ||| Word.put 0 24 p
  | .remote k e p => Word.put 62 2 2 ||| Word.put 48 8 k ||| Word.put 32 16 e ||| Word.put 0 24 p
  | .unused => Word.put 62 2 3

/-- Entries of a session's table; with more than 8,192 the root is a directory page (R293). -/
def State.tableEntries (s : State) (x : Nat) : Nat :=
  let ss := s.sess x
  let m := s.sessShape x
  m.layers.length * m.kvHeads * ceilDiv ss.capacity (slotsPerPage ss.kv8)

def State.hasDirectory (s : State) (x : Nat) : Bool := decide (8192 < s.tableEntries x)

/-- Where entry `i` of a session's table lies: in its single table page, or in the page that the directory names (R293). -/
def State.pteAddr (s : State) (x i : Nat) : Option Nat :=
  if s.hasDirectory x then (tfind (s.sess x).tablePages (i / 8192)).map fun p => p * Config.pageBytes + 8 * (i % 8192)
  else some ((s.sess x).rootPage * Config.pageBytes + 8 * i)

/-- Make an entry of a session's table: the walker's copy, and its word in the table page under the session's key (R293, R456). -/
def State.enterPte (s : State) (x i : Nat) (e : Pte) : State :=
  let t := s.modSess x fun y => y.setPte i e
  match s.pteAddr x i with
  | some a => t.writeBytes a (keySession x) (leBytes 8 e.word.toNat)
  | none => t

/-- Table pages that a directory takes: entry `k` names the page of entries 8,192 × k to 8,192 × k + 8,191, and the entries that the table
holds there already get their words (R293). A directory entry is the word of a local page. DESIGN CHOICE, log 58. -/
def State.enterTables (s : State) (x : Nat) (l : List (Nat × Nat)) : State :=
  l.foldl (fun (t : State) e =>
    let t1 := (t.modSess x fun y => { y with tablePages := tset y.tablePages e.1 e.2 }).writeBytes
      ((s.sess x).rootPage * Config.pageBytes + 8 * e.1) (keySession x) (leBytes 8 (Pte.page e.2).word.toNat)
    ((s.sess x).table.filter fun k => k.1 / 8192 == e.1).foldl (fun (u : State) k =>
      u.writeBytes (e.2 * Config.pageBytes + 8 * (k.1 % 8192)) (keySession x) (leBytes 8 k.2.word.toNat)) t1) s

/-- Key index of a session's key-value pages (R303, R456). -/
def Session.kvKey (x : Session) : Nat := if x.pub then keyPublic else keyTenant x.tenant

/-- Package-wide addresses within a page (R286). -/
def scaleAddr (p slot t : Nat) (value : Bool) : Nat := p * Config.pageBytes + 16 + slot + (if value then t else 0)
def codeAddr (p slot bytes : Nat) (value : Bool) : Nat :=
  p * Config.pageBytes + (if value then 33280 else 1024) + slot * bytes

/-- The head of a page (R286). -/
def headBytes (kv8 : Bool) (head layer kvTag : Nat) : List (BitVec 8) :=
  [BitVec.ofNat 8 (b2n kv8), BitVec.ofNat 8 head, BitVec.ofNat 8 layer, 0] ++ leBytes 4 kvTag ++ List.replicate 8 0

/-- Codes packed for a slot (R149): two to a byte in KV4, low nibble first, one per byte in KV8. -/
def packCodes (kv8 : Bool) (codes : List Int) : List (BitVec 8) :=
  let at_ := fun (i : Nat) => (codes[i]?).getD 0
  if kv8 then (List.range 128).map fun i => BitVec.ofInt 8 (at_ i)
  else (List.range 64).map fun i => BitVec.ofNat 8 (ofSigned 4 (at_ (2 * i)) + 16 * ofSigned 4 (at_ (2 * i + 1)))

def unpackCodes (kv8 : Bool) (bytes : List (BitVec 8)) : List Int :=
  if kv8 then bytes.map fun b => toSigned 8 b.toNat
  else bytes.flatMap fun b => [toSigned 4 (b.toNat % 16), toSigned 4 (b.toNat / 16)]

/-- Allocate a key-value page and write its head (R288). -/
def State.newKvPage (s : State) (x layer head : Nat) : State × Option Nat :=
  let ss := s.sess x
  let tag := ss.kvTag
  match s.allocPage (s.ownerHub x) with
  | (t, none) => (t, none)
  | (t, some p) => (t.writeBytes (p * Config.pageBytes) ss.kvKey (headBytes ss.kv8 head layer tag), some p)

/-- The page a write of a position goes to. A ring entry whose page others share, or a remote one, gets a fresh page and its
own reference is released (R291, R315); without a page in the pool nothing is written, so that no shared page ever is (R311). -/
def State.pageForWrite (s : State) (x layer head pos : Nat) : State × Option Nat :=
  let ss := s.sess x
  let i := s.blockIndex x layer head (pos / slotsPerPage ss.kv8)
  let fresh := fun (t : State) (count : Bool) =>
    match t.newKvPage x layer head with
    | (u, none) => (u, none)
    | (u, some p) =>
      let v := (match ss.pte i with
        | .page q => u.dropRef q
        | _ => u).enterPte x i (.page p)
      (if count then v.bump (.kvmap (v.ownerHub x)) 0x120 1 else v, some p)
  match ss.pte i with
  | .page p => if 1 < s.refsOf p then fresh s true else (s, some p)
  | .remote _ _ _ => fresh s true
  | _ => fresh s false

/-- Write the new key and value of a position (R295). -/
def State.writeKv (s : State) (x layer : Nat) (k : NewKV) : State :=
  match s.pageForWrite x layer k.head k.position with
  | (t, none) => t
  | (t, some p) =>
    let ss := t.sess x
    let cap := slotsPerPage ss.kv8
    let w := slotBytes ss.kv8
    let slot := k.position % cap
    let kv := encodeHead ss.kv8 k.key
    let vv := encodeHead ss.kv8 k.value
    (((t.writeBytes (scaleAddr p slot cap false) ss.kvKey [BitVec.ofNat 8 kv.scale]).writeBytes
      (scaleAddr p slot cap true) ss.kvKey [BitVec.ofNat 8 vv.scale]).writeBytes
      (codeAddr p slot w false) ss.kvKey (packCodes ss.kv8 kv.codes)).writeBytes
      (codeAddr p slot w true) ss.kvKey (packCodes ss.kv8 vv.codes)

/-! ### Reserving and rolling back pages -/

/-- Table indexes that positions `first` to `first + n - 1` reach, each once, with their layer and head; a step may pass a ring entry
twice (R290, R299). -/
def State.reached (s : State) (x first n : Nat) : List (Nat × Nat × Nat) :=
  let t := slotsPerPage (s.sess x).kv8
  let blocks := if n = 0 then [] else (List.range ((first + n - 1) / t - first / t + 1)).map (· + first / t)
  (s.sessShape x).layerHeads.flatMap fun lh => (blocks.map fun e => (lh.1, lh.2, s.blockIndex x lh.1 lh.2 e)).eraseDups

/-- Indexes among them that hold no page yet (R299). -/
def State.missing (s : State) (x first n : Nat) : List (Nat × Nat × Nat) :=
  (s.reached x first n).filter fun e => ((s.sess x).pte e.2.2).isEmpty

/-- Entries that positions reach and whose page a write may not change: shared or remote ones, which take a fresh page (R291, R315). -/
def State.toRefresh (s : State) (x first n : Nat) : Nat :=
  ((s.reached x first n).filter fun e => match (s.sess x).pte e.2.2 with
    | .page p => decide (1 < s.refsOf p)
    | .remote _ _ _ => true
    | _ => false).length

/-- Fresh pages that the steps in flight of a hub's sessions may still take (R291). -/
def State.owedPages (s : State) (h : Nat) : Nat :=
  ((s.serve.steps.filter fun y => s.ownerHub y.context == h).map fun y => s.toRefresh y.context y.first y.tokens.length).foldl (· + ·) 0

/-- Directory entries that lack a table page for these entries and those the table holds (R293). -/
def State.missingTables (s : State) (x : Nat) (idx : List Nat) : List Nat :=
  if s.hasDirectory x then
    ((idx ++ (s.sess x).table.map (·.1)).map (· / 8192)).eraseDups.filter fun k => (tfind (s.sess x).tablePages k).isNone
  else []

/-- Reserve and enter the pages of a step's positions (R299): the state, the new entries (index, page), or nothing when the pool
lacks a page, the fresh pages of R291 counted too (R297). -/
def State.reservePages (s : State) (x first n : Nat) : Option (State × List (Nat × Nat)) :=
  let miss := s.missing x first n
  let tables := s.missingTables x (miss.map (·.2.2))
  if s.poolFree (s.ownerHub x) < miss.length + tables.length + s.toRefresh x first n + s.owedPages (s.ownerHub x) then none
  else (s.allocPages (s.ownerHub x) tables.length).bind fun a =>
    miss.foldl (fun (acc : Option (State × List (Nat × Nat))) e =>
      acc.bind fun b => match b.1.newKvPage x e.1 e.2.1 with
        | (t, some p) => some (t.enterPte x e.2.2 (.page p), b.2 ++ [(e.2.2, p)])
        | (_, none) => none) (some (a.1.enterTables x (tables.zip a.2), []))

/-- Table indexes that hold a committed position of a session. -/
def State.holdsCommitted (s : State) (x i : Nat) : Bool :=
  let ss := s.sess x
  let t := slotsPerPage ss.kv8
  let m := s.sessShape x
  let ecap := ceilDiv ss.capacity t
  let lh := i / max ecap 1
  let j := i % max ecap 1
  let layer := lh / max m.kvHeads 1
  if ss.committed = 0 then false
  else
    let last := (ss.committed - 1) / t
    match m.windowOf layer with
    | none => decide (j ≤ last)
    | some w => (List.range (ringPages w t)).any fun k => decide (k ≤ last) && (last - k) % ringPages w t == j

/-- Free the pages `due`, reserved at the admission of a step that has committed, that hold no committed position and that no later step
reserved, be it in flight or itself committed at this bell (R302). -/
def State.freeRolledBack (s : State) (x : Nat) (due : List Nat) : State :=
  let keep := ((s.serve.steps.filter fun y => y.context == x).flatMap (·.newPages)).map (·.1) ++ (s.sess x).toFree
  (due.filter fun i => !(s.holdsCommitted x i) && !decide (i ∈ keep)).foldl (fun (t : State) i => match (t.sess x).pte i with
    | .page p => ((t.dropRef p).enterPte x i .empty).bump (.kvmap (t.ownerHub x)) 0x118 1
    | _ => t) s

/-- Free the global pages that lie wholly below the floor of a turn whose first step has committed (R359). -/
def State.freeBelowFloor (s : State) (x floor : Nat) : State :=
  let ss := s.sess x
  let t := slotsPerPage ss.kv8
  let m := s.sessShape x
  let due := m.layerHeads.flatMap fun lh => if (m.windowOf lh.1).isNone
    then (List.range (min (floor / t) (ceilDiv ss.capacity t))).map fun e => s.blockIndex x lh.1 lh.2 e else []
  due.foldl (fun (u : State) i => match (u.sess x).pte i with
    | .page p => (u.dropRef p).enterPte x i .empty
    | .remote _ _ _ => u.enterPte x i .empty
    | _ => u) s

/-- Every page a session holds: key-value pages, token log, root and table pages. -/
def State.dropSessionPages (s : State) (x : Nat) : State :=
  let ss := s.sess x
  let kv := ss.table.filterMap fun e => match e.2 with | .page p => some p | _ => none
  let ck := match ss.job with
    | some j => j.slot0.pages ++ j.slot1.pages
    | none => []
  s.dropRefs (kv ++ ss.logPages ++ ss.tablePages.map (·.2) ++ (if ss.opened ∧ ss.job = none then [ss.rootPage] else []) ++ ck)

/-! ### The commons -/

/-- The 24 bytes of a root (R303). -/
def Root.bytes (r : Root) : List (BitVec 8) :=
  leBytes 4 r.kvTag ++ leBytes 1 (b2n r.kv8) ++ [0] ++ leBytes 2 r.scope ++ leBytes 16 r.adapterTag

/-- The first 8 bytes of the SHAKE256 of a message, little-endian. -/
def hash64 (bs : List (BitVec 8)) : BitVec 64 := BitVec.ofNat 64 (leNat ((shake256 (bs.map BitVec.toNat) 8).map (BitVec.ofNat 8)))

/-- h_0 of the chained hash (R304). -/
def rootHash (r : Root) : BitVec 64 := hash64 r.bytes

/-- h_k of a block whose parent's hash is given (R304). -/
def blockHash (parent : BitVec 64) (tokens : List Nat) : BitVec 64 := hash64 (leBytes 8 parent.toNat ++ tokens.flatMap (leBytes 4))

/-- The k-th block of 16 tokens. -/
def blockTokens (tokens : List Nat) (k : Nat) : List Nat := (tokens.drop (16 * (k - 1))).take 16

/-- A node is confirmed for a block (R306). -/
def Node.confirms (n : Node) (h : BitVec 64) (tokens : List Nat) (r : Root) (parent : Option Nat) : Bool :=
  n.hash == h && n.tokens == tokens && n.root == r && n.parent == parent

/-- Nodes the node pages can hold (R314). -/
def Storage.nodeRoom (c : Storage) : Nat := 512 * c.nodePages.length

/-- The bucket of a hash: its low bits, as many buckets as the pages hold nodes, rounded down to a power of two (R305). -/
def Storage.bucketOf (c : Storage) (h : BitVec 64) : Nat := h.toNat % 2 ^ Nat.log2 c.nodeRoom

/-- Nodes from one on along `next`. -/
def followChain (nodes : Table Node) : Nat → Option Nat → List (Nat × Node)
  | 0, _ => []
  | _, none => []
  | n + 1, some i => match tfind nodes i with
    | none => []
    | some x => (i, x) :: followChain nodes n x.next

/-- The chain of a hash's bucket (R305, R306). -/
def Storage.chain (c : Storage) (h : BitVec 64) : List (Nat × Node) :=
  followChain c.nodes c.nodes.length (tfind c.buckets (c.bucketOf h))

/-- Walk the tree block by block (R306, R307): confirmed nodes, hash matches that failed, fuel of the blocks left. -/
def walkBlocks (c : Storage) (r : Root) (tokens : List Nat) :
    Nat → Nat → BitVec 64 → Option Nat → List Nat × Nat
  | 0, _, _, _ => ([], 0)
  | fuel + 1, k, h, parent =>
    let bt := blockTokens tokens k
    if bt.length < 16 then ([], 0)
    else
      let hk := blockHash h bt
      let same := (c.chain hk).filter fun e => e.2.hash == hk
      let collisions := (same.filter fun e => !e.2.confirms hk bt r parent).length
      match same.find? fun e => e.2.confirms hk bt r parent with
      | none => ([], collisions)
      | some e =>
        let rest := walkBlocks c r tokens fuel (k + 1) hk (some e.1)
        (e.1 :: rest.1, collisions + rest.2)

/-- The 128 bytes of a node (R305). -/
def Node.image (n : Node) : List (BitVec 8) :=
  leBytes 8 n.hash.toNat ++ leBytes 4 (n.parent.getD 0xFFFFFFFF) ++ leBytes 4 (n.next.getD 0xFFFFFFFF) ++ leBytes 2 n.depth ++
    leBytes 2 0 ++ leBytes 4 n.children ++ leBytes 4 n.prefixTable ++ leBytes 4 0 ++ leBytes 8 n.lastUse ++ leBytes 4 n.root.kvTag ++
    leBytes 1 (b2n n.root.kv8) ++ leBytes 1 0 ++ leBytes 2 n.root.scope ++ leBytes 16 n.root.adapterTag ++
    (List.range 16).flatMap fun i => leBytes 4 ((n.tokens[i]?).getD 0)

/-- Where a node lies: 512 nodes to a node page (R314). -/
def Storage.nodeAddr (c : Storage) (i : Nat) : Option Nat :=
  (c.nodePages[i / 512]?).map fun p => p * Config.pageBytes + 128 * (i % 512)

/-- Write a node: the hub's copy, and its image in the node pages under the device key (R305, R456). -/
def State.setNode (s : State) (i : Nat) (n : Node) : State :=
  let t : State := { s with store := { s.store with nodes := tset s.store.nodes i n } }
  match s.store.nodeAddr i with
  | some a => t.writeBytes a keyDevice n.image
  | none => t

/-- Change a node that exists. -/
def State.modNode (s : State) (i : Nat) (f : Node → Node) : State :=
  match tfind s.store.nodes i with
  | some n => s.setNode i (f n)
  | none => s

/-- The adapter tag of a turn's image (R303): its digest when it modifies a key or value projection. -/
def State.adapterTag (s : State) (image : Option Nat) : Nat :=
  match image.bind fun i => s.serve.images.find? fun a => a.id == i with
  | some a => if a.modifiesKV then a.digest % 2 ^ 128 else 0
  | none => 0

/-- The image of a turn: the one it has bound, before its first step the one its handle maps to (R361, R362). -/
def State.turnImage (s : State) (t : Turn) : Option Nat :=
  if t.started then t.image else if t.adapter = 0xFFFF then none else tfind s.serve.handles t.adapter

/-- The root of a session under an adapter tag (R303). -/
def State.rootOf (s : State) (x tag : Nat) : Root :=
  let ss := s.sess x
  { kvTag := ss.kvTag, kv8 := ss.kv8, scope := if ss.pub then 0xFFFF else ss.tenant, adapterTag := tag }

/-- COMMONS_LOOKUP (R307): the walk of an accepted prefill turn with lookup on an empty session; the turn becomes eligible and
knows its shared length. -/
def execCommonsLookup (context : Nat) (s : State) : Host.Outcome State Fault Refusal :=
  let ss := s.sess context
  match ss.turn with
  | none => .next s
  | some t =>
    if t.walkDone then .next s
    else
      let walk := walkBlocks s.store (s.rootOf context (s.adapterTag (s.turnImage t))) t.tokens (t.tokens.length / 16) 1
        (rootHash (s.rootOf context (s.adapterTag (s.turnImage t)))) none
      let now := s.hubTime 0
      let shared := 16 * min walk.1.length ((t.tokens.length - 1) / 16)
      let s1 := s.modSess context fun y => { y with readySince := s.hubTime (s.ownerHub context), turn := some { t with walkDone := true, hits := walk.1.length, shared := shared } }
      let s2 := walk.1.foldl (fun (u : State) i => u.modNode i fun n => { n with lastUse := now }) s1
      .next (((s2.bump .commons 0x108 1).bump .commons 0x110 walk.1.length).bump .commons 0x118 walk.2)

/-- Copy the slots below `slots` of a key-value page into another (R308, R309); a poisoned line stays poisoned in the copy
(R466). -/
def State.copyPage (s : State) (src dst slots srcKey dstKey : Nat) (kv8 : Bool) : State :=
  let t := slotsPerPage kv8
  let w := slotBytes kv8
  let copy := fun (u : State) (o n : Nat) =>
    let r := u.readBytes (src * Config.pageBytes + o) n srcKey
    let v := r.1.writeBytes (dst * Config.pageBytes + o) dstKey r.2.bytes
    if r.2.poison then
      (List.range (ceilDiv n 64 + 1)).foldl (fun (z : State) i =>
        let l := (src * Config.pageBytes + o) / 64 + i
        if (z.lineCode l).marker = .poison ∧ 64 * i < n then
          let d := (dst * Config.pageBytes + o) / 64 + i
          z.setLineCode d { z.lineCode d with marker := .poison }
        else z) v
    else v
  let s1 := copy s 0 (16 + slots)
  let s2 := copy s1 (16 + t) slots
  let s3 := copy s2 1024 (slots * w)
  copy s3 33280 (slots * w)

/-- The slots below `slots` of a page hold a poisoned line, which a copy of them finds (R313, R466). -/
def State.poisonedSlots (s : State) (p slots key : Nat) (kv8 : Bool) : Bool :=
  let w := slotBytes kv8
  [(0, 16 + slots), (16 + slotsPerPage kv8, slots), (1024, slots * w), (33280, slots * w)].any fun r =>
    (s.readBytes (p * Config.pageBytes + r.1) r.2 key).2.poison

/-- Blocks wholly below `len` whose pages a layer still holds while its positions reach up to length `c`: a ring entry holds the last of its
blocks that was reached (R289, R290, R308, R309). -/
def wholeBlocks (window : Option Nat) (t len c : Nat) : List Nat :=
  match window with
  | none => List.range (len / t)
  | some w => (List.range (len / t)).filter fun e => decide ((c - 1) / t < e + ringPages w t)

/-- Share a local page, or copy it whole where its count would pass 65,534 (R308 to R310); nothing when the pool has no page for the
copy. -/
def State.sharePage (s : State) (x layer head p : Nat) : State × Option Nat :=
  if s.refsOf p < 65534 then (s.addRef p, some p)
  else
    let ss := s.sess x
    match s.newKvPage x layer head with
    | (t, some r) => (t.copyPage p r (slotsPerPage ss.kv8) ss.kvKey ss.kvKey ss.kv8, some r)
    | (t, none) => (t, none)

/-- The local pages a prefix table references. -/
def PrefixTable.pages (t : PrefixTable) : List Nat := t.entries.filterMap fun e => match e.2 with
  | .page p => some p
  | _ => none

/-- Drop one reference of a prefix table's pages when no node names it any longer (R312). -/
def State.dropPrefix (s : State) (i : Nat) : State :=
  if s.store.nodes.any fun e => e.2.prefixTable == i then s
  else match tfind s.store.prefixes i with
    | none => s
    | some pt =>
      let s1 := s.dropRefs pt.pages
      { s1 with store := { s1.store with prefixes := tdrop s1.store.prefixes i } }

/-- Put a node at the head of its bucket's chain. DESIGN CHOICE, log 58: the place in the chain. -/
def State.linkNode (s : State) (i : Nat) (n : Node) : State :=
  let b := s.store.bucketOf n.hash
  let t := s.setNode i { n with next := tfind s.store.buckets b }
  { t with store := { t.store with buckets := tset t.store.buckets b i } }

/-- Take a node out of its bucket's chain. -/
def State.unlinkNode (s : State) (i : Nat) (n : Node) : State :=
  let b := s.store.bucketOf n.hash
  if tfind s.store.buckets b = some i then
    { s with store := { s.store with buckets := match n.next with
      | some k => tset s.store.buckets b k
      | none => tdrop s.store.buckets b } }
  else match (s.store.chain n.hash).find? fun e => e.2.next == some i with
    | some e => s.setNode e.1 { e.2 with next := n.next }
    | none => s

/-- Evict one node (R312): it leaves its chain, its parent has one child less, and its prefix table goes with its last node. -/
def State.evictNode (s : State) (i : Nat) : State :=
  match tfind s.store.nodes i with
  | none => s
  | some n =>
    let t := s.unlinkNode i n
    let s1 : State := { t with store := { t.store with nodes := tdrop t.store.nodes i } }
    let s2 := match n.parent with
      | some p => s1.modNode p fun k => { k with children := k.children - 1 }
      | none => s1
    (s2.dropPrefix n.prefixTable).bump .commons 0x128 1

/-- The childless node that was used longest ago (R312). -/
def State.oldestLeaf (s : State) : Option Nat :=
  ((s.store.nodes.filter fun e => e.2.children == 0).foldl (fun best e => match best with
    | none => some e
    | some b => if e.2.lastUse < b.2.lastUse then some e else best) none).map (·.1)

/-- The node pages are full, or a hub's free pages have fallen below POOL_LOW (R312). -/
def State.evictDue (s : State) : Bool :=
  (decide (s.store.nodeRoom ≤ s.store.nodes.length) && decide (0 < s.store.nodes.length)) ||
    (List.range 4).any fun h => decide (s.poolFree h < (s.reg (.kvmap h) 0x108).field 0 24)

/-- COMMONS_EVICT (R312): while eviction is due, the oldest childless node goes. -/
def execCommonsEvict (s : State) : Host.Outcome State Fault Refusal :=
  if s.evictDue then
    match s.oldestLeaf with
    | some i => .next (s.evictNode i)
    | none => .next s
  else .next s

/-- A poisoned page that a prefix table references evicts every node that names the table and their descendants (R313). -/
def State.evictPoisoned (s : State) (page : Nat) : State :=
  let tables := (s.store.prefixes.filter fun e => e.2.entries.any fun k => k.2 == .page page).map (·.1)
  let direct := (s.store.nodes.filter fun e => decide (e.2.prefixTable ∈ tables)).map (·.1)
  let grow := fun (l : List Nat) => (s.store.nodes.filter fun e => match e.2.parent with
    | some p => decide (p ∈ l) || decide (e.1 ∈ l)
    | none => decide (e.1 ∈ l)).map (·.1)
  let all := (List.range s.store.nodes.length).foldl (fun l _ => (l ++ grow l).eraseDups) direct
  -- deepest first, so that every node is childless when it goes
  (all.reverse ++ all).foldl (fun (t : State) i => t.evictNode i) s

/-- PREFIX_ADOPT (R308): entries of pages wholly below P are shared, the slots below P of the page that holds P come into a private page, and
the committed length becomes P. Remote entries of the table are taken over as they are (R315, R320); from a remote page that holds P the slots
are read over Kyrok (R445), and the step waits for them. Poison that the copy finds evicts its nodes (R313). -/
def State.adoptPrefix (s : State) (x node p : Nat) : State :=
  let ss := s.sess x
  let t := slotsPerPage ss.kv8
  let m := s.sessShape x
  match (tfind s.store.nodes node).bind fun n => tfind s.store.prefixes n.prefixTable with
  | none => s
  | some pt =>
    let find := fun (lh : Nat × Nat) e => ((pt.entries.find? fun k => k.1 == (lh.1 * m.kvHeads + lh.2, e)).map (·.2)).getD .empty
    let index := fun (lh : Nat × Nat) e => s.blockIndex x lh.1 lh.2 e
    let s1 := m.layerHeads.foldl (fun (u : State) lh =>
      let u1 := (wholeBlocks (m.windowOf lh.1) t p p).foldl (fun (v : State) e =>
        match find lh e with
        | .page q => match v.sharePage x lh.1 lh.2 q with
          | (z, some r) => z.enterPte x (index lh e) (.page r)
          | (z, none) => z
        | .remote k ep q => v.enterPte x (index lh e) (.remote k ep q)
        | _ => v) u
      if p % t = 0 then u1
      else match find lh (p / t) with
      | .page q => match u1.newKvPage x lh.1 lh.2 with
        | (z, some r) => (z.copyPage q r (p % t) ss.kvKey ss.kvKey ss.kv8).enterPte x (index lh (p / t)) (.page r)
        | (z, none) => z
      | .remote k ep q => match u1.newKvPage x lh.1 lh.2 with
        | (z, some r) => (z.fetchSlots x k ep q r (p % t)).enterPte x (index lh (p / t)) (.page r)
        | (z, none) => z
      | _ => u1) s
    let found := m.layerHeads.filterMap fun lh => match find lh (p / t) with
      | .page q => if decide (p % t ≠ 0) && s.poisonedSlots q (p % t) ss.kvKey ss.kv8 then some q else none
      | _ => none
    (found.foldl (fun (u : State) q => u.evictPoisoned q) s1).modSess x fun y => { y with committed := p, tentative := p }

/-- Evict until `n` more nodes have room (R312). -/
def State.makeRoom (s : State) (n : Nat) : State :=
  (List.range n).foldl (fun (t : State) _ =>
    if t.store.nodeRoom < t.store.nodes.length + n then
      match t.oldestLeaf with
      | some i => t.evictNode i
      | none => t
    else t) s

/-- The lowest number that a table does not list. -/
def freeIndex {α : Type} (t : Table α) : Nat := ((List.range (t.length + 1)).find? fun i => (tfind t i).isNone).getD t.length

/-- The blocks of a session's prefix that are confirmed already: nodes, and the hash of the last (R306, R309). -/
def State.haveBlocks (s : State) (x tag : Nat) : List Nat × BitVec 64 :=
  let ss := s.sess x
  let r := s.rootOf x tag
  let nodes := (walkBlocks s.store r ss.tokenLog (ss.committed / 16) 1 (rootHash r) none).1
  (nodes, (nodes.getLast?.bind fun i => (tfind s.store.nodes i).map (·.hash)).getD (rootHash r))

/-- The entries of a prefix table of length `len` (R309): every page wholly below it, shared where it is local and named as it is where
it is remote, and a private copy of the page that holds `len`. Nothing where the pool has no page, or where a page to be copied lies on
another package. DESIGN CHOICE, log 58: no insert then. -/
def State.prefixEntries (s : State) (x len : Nat) : Option (State × List ((Nat × Nat) × Pte)) :=
  let ss := s.sess x
  let t := slotsPerPage ss.kv8
  let m := s.sessShape x
  let add := fun (acc : Option (State × List ((Nat × Nat) × Pte))) (k : Nat × Nat) (f : State → State × Option Pte) =>
    acc.bind fun a => match f a.1 with
      | (z, some e) => some (z, a.2 ++ [(k, e)])
      | (_, none) => none
  m.layerHeads.foldl (fun acc lh =>
    let row := lh.1 * m.kvHeads + lh.2
    let whole := (wholeBlocks (m.windowOf lh.1) t len ss.committed).foldl (fun acc e =>
      match ss.pte (s.blockIndex x lh.1 lh.2 e) with
      | .page p => add acc (row, e) fun z => ((z.sharePage x lh.1 lh.2 p).1, (z.sharePage x lh.1 lh.2 p).2.map .page)
      | .remote k ep p => add acc (row, e) fun z => (z, some (.remote k ep p))
      | _ => acc) acc
    if len % t = 0 then whole
    else match ss.pte (s.blockIndex x lh.1 lh.2 (len / t)) with
      | .page q => add whole (row, len / t) fun z => match z.newKvPage x lh.1 lh.2 with
        | (u, some p) => (u.copyPage q p (len % t) ss.kvKey ss.kvKey ss.kv8, some (.page p))
        | (u, none) => (u, none)
      | .remote _ _ _ => none
      | _ => whole) (some (s, []))

/-- COMMONS_INSERT (R309): nodes for the blocks that are not confirmed yet, and one prefix table for them; room is made first, for as
many nodes as are to be created (R312). Nodes whose table took a poisoned line into its private copy go at once (R313). -/
def State.insertPrefix (s0 : State) (x tag : Nat) : State :=
  let ss := s0.sess x
  let len := 16 * (ss.committed / 16)
  if ss.mixed then s0.bump .commons 0x138 1
  else if s0.store.nodeRoom = 0 then s0
  else
    let s := s0.makeRoom (len / 16 - (s0.haveBlocks x tag).1.length)
    let have_ := s.haveBlocks x tag
    let new_ := len / 16 - have_.1.length
    if new_ = 0 ∨ s.store.nodeRoom < s.store.nodes.length + new_ then s
    else match s.prefixEntries x len with
      | none => s
      | some r =>
        let pid := freeIndex r.1.store.prefixes
        let s1 : State := { r.1 with store := { r.1.store with prefixes := tset r.1.store.prefixes pid { length := len, entries := r.2 } } }
        let chain := (List.range new_).foldl (fun (a : State × BitVec 64 × Option Nat) i =>
          let k := have_.1.length + 1 + i
          let bt := blockTokens ss.tokenLog k
          let hk := blockHash a.2.1 bt
          let n := freeIndex a.1.store.nodes
          let t := match a.2.2 with
            | some p => a.1.modNode p fun y => { y with children := y.children + 1 }
            | none => a.1
          (t.linkNode n {
            hash := hk, parent := a.2.2, next := none, depth := k, children := 0, prefixTable := pid, lastUse := s0.hubTime 0
            root := s0.rootOf x tag, tokens := bt }, hk, some n)) (s1, have_.2, have_.1.getLast?)
        let copies := r.2.filterMap fun e => match e.2 with
          | .page p => if decide (len % slotsPerPage ss.kv8 ≠ 0) && e.1.2 == len / slotsPerPage ss.kv8 &&
              r.1.poisonedSlots p (len % slotsPerPage ss.kv8) ss.kvKey ss.kv8 then some p else none
          | _ => none
        copies.foldl (fun (t : State) p => t.evictPoisoned p) (chain.1.bump .commons 0x120 new_)

end Sys2Proof.Machine
end

