-- ==== Sys2Proof/Machine/Detour.lean ====
section
/-!
DEFINITION. Detour patches (R252): the reeve's run of a row's slot tables with the patch of a coordinate that a spare takes. Which patched flit
goes first where two want one output in one cycle, and that an outbound flit goes on along its route with the lateness it has at the fenced
position, the spec leaves open: DESIGN CHOICE, log 112.
-/
namespace Sys2Proof.Machine

def LinkDir.num : LinkDir → Nat
  | .north => 0 | .south => 1 | .east => 2 | .west => 3 | .local => 4

/-- The run so far: outputs taken (cycle, column, direction), waits in detour buffers (column, direction, first cycle, cycle in which it is
free again), and the latest arrival after its nominal one. -/
structure DetourLoad where
  taken : List (Nat × Nat × Nat) := []
  waits : List (Nat × Nat × Nat × Nat) := []
  late : Nat := 0
  deriving DecidableEq, Repr

/-- The direction of a row's link from one column towards another. -/
def rowDir (a b : Nat) : Nat := if a < b then LinkDir.num .east else LinkDir.num .west

/-- The columns that a flit leaves on its way along the row. -/
def rowPath (a b : Nat) : List Nat := if a < b then (List.range (b - a)).map (a + ·) else (List.range (a - b)).map (a - ·)

/-- The first cycle from `t` on, at most `window` later, in which an output carries neither a scheduled nor a patched flit. -/
def DetourLoad.free (l : DetourLoad) (col dir t window : Nat) : Option Nat :=
  ((List.range (window + 1)).map (t + ·)).find? fun c => !decide ((c, col, dir) ∈ l.taken)

/-- One patched flit takes the extension along the row: 2 cycles a hop (R228), and a wait in the detour buffer where its output is not free; one
that finds no free cycle within the allowance is later than it. -/
def DetourLoad.send (l : DetourLoad) (start dst nominal window : Nat) : DetourLoad :=
  let dir := rowDir start dst
  let r := (rowPath start dst).foldl (fun (a : DetourLoad × Nat) col =>
    match a.1.free col dir a.2 window with
    | some c => ({ a.1 with
        taken := (c, col, dir) :: a.1.taken
        waits := if c = a.2 then a.1.waits else (col, dir, a.2, c) :: a.1.waits }, c + 2)
    | none => (a.1, a.2 + window + 1)) (l, nominal)
  { r.1 with late := max r.1.late (r.2 - nominal) }

/-- Flits that one detour buffer holds at once, at most. -/
def DetourLoad.buffered (l : DetourLoad) : Nat :=
  (l.waits.map fun w => (l.waits.filter fun v =>
    v.1 == w.1 && v.2.1 == w.2.1 && decide (v.2.2.1 ≤ w.2.2.1) && decide (w.2.2.1 < v.2.2.2)).length).foldl max 0

/-- The reeve's run of a row with the patch of the coordinate of a fenced position (R252): a flit that ends there goes on to the spare, and one
that begins there begins at the spare. -/
def detourRun (p : PatternImage) (row fenced spare : Nat) : DetourLoad :=
  let mine := p.flits.filter fun f => f.row == row
  let start : DetourLoad := { taken := (mine.filter fun f => f.port == 2 || f.port == 3).map fun f => (f.cycle, f.col, f.port) }
  let ends := mine.filter fun f => f.col == fenced && (f.port == 4 || f.input == 4)
  ends.foldl (fun l f => if f.port = 4 then l.send fenced spare f.cycle (2 * p.detourHops) else l.send spare fenced f.cycle (2 * p.detourHops)) start

/-- The patch fits (R252): no patched flit more than 2 × A cycles late, and no detour buffer above 4 flits. -/
def detourFits (p : PatternImage) (row fenced spare : Nat) : Bool :=
  let r := detourRun p row fenced spare
  decide (r.late ≤ 2 * p.detourHops) && decide (r.buffered ≤ 4)

/-- A detour patch of a die is being written (R588). -/
def Die.patchBusy (x : Die) : Bool := x.spareJobs.any (·.writing)

end Sys2Proof.Machine
end

