-- ==== Sys2Proof/Machine/Windows.lean ====
section
/-!
DEFINITION. Evaluation: FORWARD_WINDOW, WINDOW_DELIVERY, RUN_PROMOTION, TRANSPOSED_WINDOW, MICRO_BATCH_UPDATE (chapters 02 to 04).
-/
namespace Sys2Proof.Machine

/-- Codes in the activation pad from a pad row on: (index, code) of the indices `first` to `first + count - 1`, zeros left out. -/
def State.actCodes (s : State) (n padRow first count : Nat) : List (Nat × Int) :=
  ((List.range count).map fun i => (first + i, s.actCode n (512 * padRow + first + i))).filter fun e => e.2 ≠ 0

/-- Hot rows that the die's pattern names for a logical mould, with the store byte of each row's copy (R120, R187). -/
def State.hotRows (s : State) (n slot : Nat) : List (Nat × Nat) :=
  match (s.die (croftDie n)).pattern, s.columnOf n with
  | some p, some j =>
    match p.hot.find? fun h => h.row.val == croftRow n && h.lcol.val == j && h.mould.val == slot with
    | some h => h.rows.zipIdx.map fun e => (e.1, h.copies + 128 * e.2)
    | none => []
  | _, _ => []

/-- A window opened in the round is stale (R116; R212 for a lost temperature table). -/
def State.isStale (s : State) (n : Nat) (m : Mould) : Bool :=
  let c := s.croft n
  let age := (s.die (croftDie n)).staleAge
  c.tableLostAt.isSome || decide (192 < (c.theta - m.latched.thetaG).natAbs) ||
    (age != 0xFFFFF && decide (m.latched.tG + age * 1000000 < s.clock.lastBell))

/-- A stale window: its step carries the flag, croft and die count it (R116, R148). -/
def State.countStale (s : State) (n step : Nat) : State :=
  ((s.modStep step fun x => { x with stale := true }).bumpCroft n 0x150).bump (.gauge (croftDie n)) 0x138 1

/-- Energy drawn by the array and the smithies. -/
def State.spend (s : State) (fj : Nat) : State := { s with tally := { s.tally with arrayFj := s.tally.arrayFj + fj } }

/-- The codes of a pass under R151 or R152. -/
def mapCodes (f : Int → Int) (codes : List (Nat × Int)) : List (Nat × Int) :=
  (codes.map fun e => (e.1, f e.2)).filter fun e => e.2 ≠ 0

/-- What one scheduled pass gives: its codes and witness outcomes, and those of its repeat where one ran (R61, R63, R129). -/
structure PassOut where
  first : List Int
  w1 : List Witness
  final : List Int
  w2 : List Witness
  repeated : Bool
  deriving DecidableEq, Repr

/-- One scheduled pass with its repeat. No repeat is made while the mould is under probe (R130). -/
def passWithRepeat (m : Mould) (theta : Int) (fresh : Bool) (b span : Nat) (unsigned : Bool) (stood : List Nat)
    (codes : List (Nat × Int)) (noise : List Noise) (k : Nat) : PassOut :=
  let q := m.pass theta fresh b span codes noise k
  let w := m.witnesses theta b unsigned stood codes q
  if w.contains .disagree && m.probe.isNone then
    let q' := m.pass theta fresh b span codes noise (k + 2)
    ⟨q, w, q', m.witnesses theta b unsigned stood codes q', true⟩
  else ⟨q, w, q, w, false⟩

/-- Count the skips of the comparisons made (R57, R128). -/
def State.countSkips (s : State) (n : Nat) (ws : List Witness) : State :=
  (s.bumpCroft n 0x110 (ws.count .skipSaturated)).bumpCroft n 0x118 (ws.count .skipStandin)

/-- What follows the witness decisions of one pass (R129, R130, R142): a transient is counted; a disagreement that persists
marks the step, ties it to a probe, and in a re-run enters SUSPECT in the croft and takes the mould out of service. -/
def State.afterPass (s : State) (n slot m step : Nat) (p : PassOut) : State :=
  let s1 := if p.repeated then (s.countSkips n p.w1).countSkips n p.w2 else s.countSkips n p.w1
  if p.w2.contains .disagree then
    let rerun := ((s1.findStep step).map (·.rerun)).getD false
    let s2 := s1.markSuspect step n (some m)
    if (s2.croft n).holding slot ≠ some m then s2  -- the high pass has taken the mould out of service
    else
      let s3 := s2.startProbe n m (some step)
      if rerun then (s3.logError (.croft n) .suspect (Page.croft n).base 5 n).leaveService n slot false else s3
  else if p.repeated then s1.bumpCroft n 0x100 1 else s1

/-- One reference sample of a scheduled signed pass (R107): at least 256 active rows, |sx| of 64 or more, no reference
column saturated; a pass that a witness disagreement follows gives none, and no repeat does. Its u takes the converter terms of the active set,
not those that the run itself derives. DESIGN CHOICE, log 106 (R109). -/
def Mould.sample (m : Mould) (theta : Int) (time b rows : Nat) (codes : List (Nat × Int)) (p : PassOut) : Option RefSample :=
  let sx : Int := codes.foldl (fun a e => a + e.2) 0
  let odd : Int := codes.foldl (fun a e => if e.1 % 2 = 0 then a + e.2 else a - e.2) 0
  let at_ := fun (c : Nat) => (p.first[c]?).getD 0
  if rows < 256 ∨ sx.natAbs < 64 ∨ p.w1.contains .disagree = true ∨
      ([258, 259, 260, 261].any fun c => saturated b (at_ c)) = true then none
  else some { sx := sx, sOdd := odd, ref := [258, 259, 260, 261].map fun c => m.gained b c (at_ c), theta := theta, time := time }

/-- A run takes a sample at a temperature and a time (R112, R114). -/
def GaugeRun.touch (r : GaugeRun) (theta : Int) (time : Nat) : GaugeRun :=
  { r with firstTheta := some (r.firstTheta.getD theta), lastTime := time }

/-- Add a reference sample to the run of a mould that is being gauged; a run under probe pauses, and a run whose mould waits
for a reference spare takes none (R107, R114, R133). -/
def Mould.addSample (m : Mould) (b : Nat) (q : List Int) (x : Option RefSample) : Mould :=
  match x with
  | some r =>
    if m.gauging.active ∧ m.probe = none ∧ m.refPending = [] ∧ m.gauging.run.samples.length < 512 then
      let squares := ((List.range 256).map fun c => (c, m.gained b c ((q[c]?).getD 0))) ++
        [(256, m.gained b 259 ((q[259]?).getD 0)), (257, m.gained b 261 ((q[261]?).getD 0))]
      let run := GaugeRun.touch m.gauging.run r.theta r.time
      { m with gauging := { m.gauging with run := { run with
          samples := run.samples ++ [r],
          squares := squares.map fun e => (e.1, (tfind run.squares e.1).getD 0 + e.2 * e.2) } } }
    else m
  | none => m

/-- The window of a slot whose mould is out of service: zero for every column, the step marked SUSPECT (R140). -/
def State.zeroWindow (s : State) (n slot step : Nat) : State :=
  (s.modCroft n fun c => { c with windows := tdrop c.windows slot }).markSuspect step n none

/-- The stand-in values of a window (R135, R166): column, value, saturated. -/
def Mould.standinValues (m : Mould) (stood : List Nat) (a8 : Bool) (codes : List (Nat × Int)) : List (Nat × Int × Bool) :=
  (m.standins.filter fun e => decide (e.column ∈ stood) && decide (e.column < 256)).map fun e =>
    if a8 then
      let h := standinValue e.copy m.span 1024 (mapCodes high4 codes)
      let l := standinValue e.copy m.span 512 (mapCodes low4 codes)
      (e.column, 16 * h + 2 * l, h.natAbs == 1016 || l.natAbs == 1016)
    else
      let v := standinValue e.copy m.span 1024 (mapCodes clip4 codes)
      (e.column, v, v.natAbs == 1016)

/-- The two passes of a window: the pass of an A4 window or the high pass of an A8 one, and the low pass (R61, R151, R152, R165). -/
def State.windowPasses (s : State) (w : WindowIn) (m : Nat) (a8 : Bool) (codes : List (Nat × Int)) : PassOut × PassOut :=
  let c := s.croft w.croft.num
  let x := c.mould m
  let b := resolution w.rows
  let stood : List Nat := (x.standins.filter (·.live)).map (·.column)
  let fresh := !s.isStale w.croft.num x
  (passWithRepeat x c.theta fresh b x.span false stood (mapCodes (if a8 then high4 else clip4) codes) w.noise 0,
    passWithRepeat x c.theta fresh b (2 * x.span) true stood (mapCodes low4 codes) w.noise 1)

/-- The result of a window (R98, R99, R159, R165): corrected values of the columns that are not under stand-in, A4 values kept apart. -/
def State.windowResult (s : State) (w : WindowIn) (m : Nat) (a8 : Bool) (codes : List (Nat × Int)) (p : PassOut × PassOut) : OpenWindow :=
  let c := s.croft w.croft.num
  let x := c.mould m
  let b := resolution w.rows
  let stood : List Nat := (x.standins.filter (·.live)).map (·.column)
  let q0 := fun k => (p.1.final[k]?).getD 0
  let q1 := fun k => (p.2.final[k]?).getD 0
  let v0 := fun k => x.correct c.theta b k (q0 k)
  let v1 := fun k => x.correct c.theta b k (q1 k)
  let free := (List.range 256).filter fun k => !decide (k ∈ stood)
  { step := w.step, a8 := a8, span := x.span, codes := codes, stood := x.standinValues stood a8 codes
    narrow := if a8 then [] else (free.map fun k => (k, v0 k)).filter fun e => e.2 ≠ 0
    wide := if a8 then (free.map fun k => (k, 16 * v0 k + 2 * v1 k)).filter fun e => e.2 ≠ 0 else []
    marks := free.filter fun k => saturated b (q0 k) || (a8 && saturated b (q1 k)) }

/-- Saturated column results of the passes of a window, repeats and what they replace included (R56). -/
def satCount (b : Nat) (a8 : Bool) (p : PassOut × PassOut) : Nat :=
  let count := fun (q : List Int) => (q.filter fun v => saturated b v).length
  let both := fun (x : PassOut) => count x.first + (if x.repeated then count x.final else 0)
  both p.1 + (if a8 then both p.2 else 0)

/-- The hot-row histogram counts a selected mould's residuals (R556). -/
def State.countHistogram (s : State) (n slot : Nat) (hot : List (Nat × Nat)) (res : List (Nat × Int)) : State :=
  let d := croftDie n
  let sel := (s.die d).histSel
  if sel.bit 63 && (s.reg (.riser d) 0x100).bit 63 && sel.field 16 5 == croftRow n && s.columnOf n == some (sel.field 8 5) &&
      sel.field 0 4 == slot then
    res.foldl (fun (t : State) e => match hot.findIdx? fun h => h.1 == e.1 with
      | some i => t.bump (.riser d) (0x200 + 8 * i) 1
      | none => t) s
  else s

/-- Energy of a forward window, fJ (R67, R68, R124, R137). -/
def windowEnergy (rows stood residuals : Nat) (a8 : Bool) (p : PassOut × PassOut) : Nat :=
  (1 + b2n a8 + b2n p.1.repeated + b2n (a8 && p.2.repeated)) * passEnergy rows + 40000 * residuals + 160000 * stood

/-- A forward window on a mould in service. -/
def State.openWindow (s : State) (w : WindowIn) (m : Nat) : State :=
  let n := w.croft.num
  let slot := w.mould.val
  let x := (s.croft n).mould m
  let d := croftDie n
  let b := resolution w.rows
  let codes := s.actCodes n w.actRow w.firstRow w.rows
  let hot := s.hotRows n slot
  let rung := choose (hot.map (·.1)) codes
  let a8 := rung != .a4
  let p := s.windowPasses w m a8 codes
  let res := if a8 then [] else residuals codes
  let sampled := x.addSample b p.1.first
    (x.sample (s.croft n).theta (s.reeveTime d) b w.rows (mapCodes (if a8 then high4 else clip4) codes) p.1)
  let s1 := s.modCroft n fun c =>
    { c.setMould m sampled with windows := tset c.windows slot (s.windowResult w m a8 codes p) }
  let s2 := { s1 with tally := { s1.tally with forward := s1.tally.forward + 1, a8 := s1.tally.a8 + b2n a8 } }
  let s3 := s2.spend (windowEnergy w.rows (x.standins.filter (·.live)).length res.length a8 p)
  let s4 := ((s3.bumpCroft n 0x168 (b2n a8)).bumpCroft n 0x158 res.length).bump (.riser d) 0x108 res.length
  let s5 := (s4.bump (.riser d) 0x110 (b2n (rung == .a8Overflow))).bump (.riser d) 0x118 (b2n (rung == .a8Cold))
  let s6 := (s5.countHistogram n slot hot res).bumpCroft n 0x178 (satCount b a8 p)
  let s7 := if s.isStale n x then s6.countStale n w.step else s6
  let s8 := s7.afterPass n slot m w.step p.1
  if a8 then s8.afterPass n slot m w.step p.2 else s8

/-- A logical slot is served: its mould is CAST, in service, and no full cast runs on it (R84, R86, R140). -/
def Croft.serves (c : Croft) (slot m : Nat) : Bool :=
  (c.mould m).state == .cast && (c.mould m).cast.all (fun k => !k.full) && !decide (slot ∈ c.held)

/-- FORWARD_WINDOW (R61): the rung is chosen, the passes run with their repeats, and the witness decisions take effect. A croft whose
fence has stopped its injection runs no window (R250). -/
def execForwardWindow (w : WindowIn) (s : State) : Host.Outcome State Fault Refusal :=
  if activeOk w.firstRow w.rows = false then .fault .noSuchEvent
  else
    let c := s.croft w.croft.num
    match c.holding w.mould.val with
    | none => .next (s.zeroWindow w.croft.num w.mould.val w.step)
    | some m =>
      if c.stopped then .next s
      else if c.serves w.mould.val m then .next (s.openWindow w m) else .next (s.zeroWindow w.croft.num w.mould.val w.step)

/-- Add a value to a table of sums. -/
def addTo (t : Table Int) (k : Nat) (v : Int) : Table Int := tput (fun _ => 0) t k (tget (fun _ => 0) t k + v)

/-- The final result of a window reaches accumulation, with the values of its columns under stand-in (R64, R135). -/
def OpenWindow.deliver (w : OpenWindow) : OpenWindow :=
  if w.delivered then w
  else { w with
    delivered := true
    wide := w.stood.foldl (fun t e => addTo t e.1 e.2.1) w.wide
    marks := w.marks ++ (w.stood.filter (·.2.2)).map (·.1) }

/-- WINDOW_DELIVERY (R64). -/
def execWindowDelivery (croft : CroftAt) (mould : LogMould) (s : State) : Host.Outcome State Fault Refusal :=
  .next (s.modCroft croft.num fun c => match tfind c.windows mould.val with
    | some w => { c with windows := tset c.windows mould.val w.deliver }
    | none => c)

/-! ### Accumulation -/

/-- Wide accumulators of a partial-sum pad (R161): 128 of 4 bytes in each of its usable rows (R183). -/
def State.hasAcc (s : State) (n a : Nat) : Bool := (s.die (croftDie n)).padHas true (4 * a)

/-- Address of wide accumulator `a` in the partial-sum pad, through the row map (R161, R183). -/
def State.accAddr (s : State) (n a : Nat) : Nat := (s.die (croftDie n)).padAt n true (4 * a)

/-- A wide accumulator's value. -/
def State.acc (s : State) (n a : Nat) : Int := toSigned 32 ((s.croft n).psPad.getLe (s.accAddr n a) 4)

/-- Add to a wide accumulator: held within ±(2^31 - 1), with the saturated mark at either bound or when the added value
carries one (R162, R163). -/
def State.accAdd (s : State) (n a : Nat) (v : Int) (mark : Bool) : State :=
  if s.hasAcc n a = false then s
  else
    let sum := s.acc n a + v
    let r := clampSym (2 ^ 31 - 1) sum
    let at_ := s.accAddr n a
    s.modCroft n fun c => { c with
      psPad := c.psPad.setLe at_ 4 (ofSigned 32 r), psBad := c.psBad.filter fun w => w != at_ / 8
      satMarks := if (mark || r != sum) && !decide (a ∈ c.satMarks) then c.satMarks ++ [a] else c.satMarks }

/-- What a promotion adds to one output (R160): the run total of the narrow adder (R159), and what joins it there. -/
structure RunSum where
  total : Int := 0
  joins : Int := 0
  mark : Bool := false
  deriving DecidableEq, Repr

/-- The windows of a run that have been delivered. -/
def Croft.runWindows (c : Croft) (run : List LogMould) : List (Nat × OpenWindow) :=
  run.filterMap fun k => match tfind c.windows k.val with
    | some w => if w.delivered then some (k.val, w) else none
    | none => none

/-- One column of a run: narrow values, riser terms, stand-in and A8 values (R123, R159, R160, R163). -/
def State.runColumn (s : State) (n : Nat) (ws : List (Nat × OpenWindow)) (col : Nat) : RunSum :=
  ws.foldl (fun a e =>
    let riser := if e.2.a8 then 0 else riserTerm (s.croft n).store (s.hotRows n e.1) e.2.span (residuals e.2.codes) col
    { total := a.total + tget (fun _ => 0) e.2.narrow col
      joins := a.joins + riser + tget (fun _ => 0) e.2.wide col
      mark := a.mark || decide (col ∈ e.2.marks) }) {}

/-- The transposed results of a run (R176). -/
def Croft.runRows (c : Croft) (run : List LogMould) : List RowResult := run.filterMap fun k => tfind c.rowResults k.val

/-- Moulds summed share one span (R157, R176). -/
def oneSpan : List Nat → Bool
  | [] => true
  | a :: l => l.all fun b => b == a

/-- The span S of what a promotion adds: that of its moulds, 1,024 for a layer placed at D8 (R157, R170, R176). -/
def State.runSpan (s : State) (n : Nat) (p : PromotionIn) : Option Nat :=
  if p.transposed then ((s.croft n).runRows p.run).head?.map (·.span)
  else if p.d8 ≠ [] then some 1024
  else ((s.croft n).runWindows p.run).head?.map fun e => e.2.span

/-- The accumulators take over the span of what is added (R157, R158). -/
def State.noteSpan (s : State) (n : Nat) (p : PromotionIn) : State :=
  match s.runSpan n p with
  | some v => s.modCroft n fun c => { c with accSpans := tset c.accSpans p.acc v }
  | none => s

/-- One row of a transposed run (R176): A4 values in the narrow adder, A8 values join at the promotion. -/
def rowSum (rs : List RowResult) (row : Nat) : RunSum :=
  rs.foldl (fun a r =>
    let v := tget (fun _ => 0) r.values row
    { total := if r.a8 then a.total else a.total + v
      joins := if r.a8 then a.joins + v else a.joins
      mark := a.mark || decide (row ∈ r.marks) }) {}

/-- A run enters the wide accumulators, one integer addition to each output (R160); its results are used up. -/
def State.promoteRun (s : State) (n : Nat) (p : PromotionIn) : State :=
  let c := s.croft n
  let ws := c.runWindows p.run
  let rs := c.runRows p.run
  let s1 := (List.range (if p.transposed then 1024 else 256)).foldl (fun (t : State) i =>
    let r := if p.transposed then rowSum rs i else s.runColumn n ws i
    if r.total + r.joins = 0 ∧ r.mark = false then t else t.accAdd n (p.acc + i) (r.total + r.joins) r.mark) s
  s1.modCroft n fun c => if p.transposed then { c with rowResults := p.run.foldl (fun t k => tdrop t k.val) c.rowResults }
    else { c with windows := ws.foldl (fun t e => tdrop t e.1) c.windows }

/-- A wide accumulator starts again from zero, without a mark, for the next vector: once it has been rescaled, and in the croft that sent it
as a partial sum once it is sent. DESIGN CHOICE, log 109 (R160, R161). -/
def State.accClear (s : State) (n a : Nat) : State :=
  if s.hasAcc n a = false then s
  else
    let at_ := s.accAddr n a
    s.modCroft n fun c => { c with psPad := c.psPad.setLe at_ 4 0, satMarks := c.satMarks.filter fun b => b != a }

/-- Partial sums of other crofts: their wide accumulators, as 32-bit values with their marks (R161, R163). -/
def State.addPartials (s : State) (n acc : Nat) (ps : List PartialSum) : State :=
  ps.foldl (fun (t : State) e =>
    (t.accAdd n (acc + e.column) (t.acc e.croft.num e.acc) (decide (e.acc ∈ (t.croft e.croft.num).satMarks))).accClear e.croft.num e.acc) s

/-- The D8 weight at a byte of the weight store (R149, R170). -/
def Croft.weight8 (c : Croft) (a : Nat) : Int := c.store.getS8 a

/-- An exact product of an A8 code and a D8 weight (R170). -/
def State.product (s : State) (n : Nat) (e : D8Term) : Int := s.actCode n e.act * (s.croft n).weight8 e.weight

/-- Energy of D8 multiply-accumulates, fJ (R171). -/
def macEnergy (k : Nat) : Nat := 180 * k

/-- Exact products of a digitally placed layer enter the wide accumulators directly (R170, R171). -/
def State.addProducts (s : State) (n acc : Nat) (ts : List D8Term) : State :=
  (ts.foldl (fun (t : State) e => t.accAdd n (acc + e.column) (s.product n e) false) s).spend (macEnergy ts.length)

/-- f of a rescale: σ × ω × S ÷ 1,024, in binary32 (R158). -/
def rescaleFactor (sigma omega : BitVec 16) (span : Nat) : B32 :=
  F32.div (F32.mul (F32.mul (F32.of16 sigma) (F32.of16 omega)) (F32.ofInt span)) (F32.ofInt 1024)

/-- y of a rescale (R158). -/
def rescaleOne (sigma omega : BitVec 16) (span : Nat) (a : Int) : B32 := F32.mul (F32.ofInt a) (rescaleFactor sigma omega span)

/-- σ of the vector staged in an activation pad row (R156). -/
def Croft.sigmaOf (c : Croft) (row : Nat) : BitVec 16 := tget (fun _ => 0) c.sigmas row

/-! ### Scales (R155, R156, R175) -/

/-- The bounds of R155: 2^-14 for zero or a subnormal, 65,504 for anything above it. -/
def boundSigma (v : BitVec 16) : BitVec 16 :=
  if v.toNat % 2 ^ 15 < 2 ^ 10 then 0x0400#16 else if 0x7BFF < v.toNat % 2 ^ 15 then 0x7BFF#16 else v

/-- Sum of squares in binary32, in the order in which the pattern lists the producing crofts' parts, each part by rising output.
DESIGN CHOICE, log 108 (R155). -/
def sumSquares (xs : List B32) : B32 := xs.foldl (fun a x => F32.add a (F32.mul x x)) (F32.ofInt 0)

/-- Reduced mode: σ is k × √(mean of x²), in binary32, rounded to binary16 (R155). -/
def reducedSigma (k : BitVec 16) (xs : List B32) : BitVec 16 :=
  boundSigma (F16.of32 (F32.mul (F32.of16 k) (F32.sqrt (F32.div (sumSquares xs) (F32.ofInt xs.length)))))

/-- The largest magnitude of a vector. -/
def peakOf (xs : List B32) : Rat := xs.foldl (fun a x => let v := (F32.dec x).rat; max a (if v < 0 then -v else v)) 0

/-- The smallest positive normal binary16 value that is at least `r` (R175, R268), 2^-14 for zero; 65,504 where none is large enough. -/
def ceil16 (r : Rat) : BitVec 16 :=
  if r ≤ pow2 (-14) then 0x0400#16
  else
    let v := f16.encode (.num false r)
    if 0x7BFF ≤ v then 0x7BFF#16
    else if (f16.decode v).rat < r then BitVec.ofNat 16 (v + 1) else BitVec.ofNat 16 v

/-- An output that the last promotion rescaled. -/
def Croft.output (c : Croft) (i : Nat) : B32 := (tfind c.outputs i).getD 0

/-- A gradient's outputs times their column scales, in binary32 (R175). -/
def State.scaledGradient (s : State) (g : GradientPart) : List (Nat × B32) :=
  g.omega.map fun e => (e.1, F32.mul ((s.croft g.croft.num).output e.1) (F32.of16 e.2))

/-- The scale of a vector under its mode. -/
def State.sigmaFor (s : State) : SigmaMode → BitVec 16
  | .fixed v => boundSigma v
  | .reduced k parts => reducedSigma k (parts.flatMap fun p => (List.range p.count).map fun i => (s.croft p.croft.num).output (p.first + i))
  | .gradient parts => ceil16 (peakOf ((parts.flatMap s.scaledGradient).map (·.2)) / 127)

/-- The elements a croft stages: its outputs, or its part of a gradient times ω (R156, R175). -/
def State.stagedElement (s : State) (n : Nat) (mode : SigmaMode) (i : Nat) : B32 :=
  match mode with
  | .gradient parts =>
    match parts.find? fun g => g.croft.num == n with
    | some g => (tfind (s.scaledGradient g) i).getD 0
    | none => (s.croft n).output i
  | _ => (s.croft n).output i

/-- The scale that the loaded pattern gives the vector staged in an activation row of a croft (section 0x000B, R155). -/
def State.plannedScale (s : State) (n : Nat) (g : StageIn) : Option ScalePlan :=
  match (s.die (croftDie n)).pattern, s.columnOf n with
  | some p, some j =>
    (p.staging.find? fun q => q.row.val == croftRow n && q.lcol.val == j && q.first == g.row && q.count == g.count).bind fun q =>
      p.scales[q.scale]?
  | _, _ => none

/-- σ of a staging (R155, R175): a gradient's own, else the mode and constants that the pattern sets for the layer input. What the command
gives stands only where no pattern plans the staging. DESIGN CHOICE, log 108. -/
def State.stageSigma (s : State) (n : Nat) (g : StageIn) : BitVec 16 :=
  match g.mode, s.plannedScale n g with
  | .gradient parts, _ => s.sigmaFor (.gradient parts)
  | _, some (.fixed v) => boundSigma v
  | _, some (.reduced k parts) => reducedSigma k (parts.flatMap fun q => (List.range q.count).map fun i =>
      (s.croft (s.physOf (croftDie n) q.row.val q.lcol.val)).output (q.first + i))
  | m, none => s.sigmaFor m

/-- Stage outputs as A8 codes with their σ; every element at a bound counts in ACT_CLIPS, one that rounds to the bound itself included
(R156). DESIGN CHOICE, log 108. -/
def State.stage (s : State) (n : Nat) (g : StageIn) : State :=
  let sigma := s.stageSigma n g
  let codes := (List.range g.count).map fun i => clampTo (-128) 127 (stageCode sigma (s.stagedElement n g.mode (g.first + i)))
  let s1 := (codes.zipIdx).foldl (fun (t : State) e => t.setAct n (512 * g.row + e.2) (BitVec.ofInt 8 e.1)) s
  let s2 := s1.modCroft n fun c => { c with
    sigmas := (List.range ((g.count + 511) / 512)).foldl (fun t i => tset t (g.row + i) sigma) c.sigmas }
  s2.bumpCroft n 0x170 (codes.filter fun v => v == -128 || v == 127).length

/-! ### Adapters (R172) -/

/-- Exact sum of products for one output, held as a wide accumulator is (R162). -/
def heldSum (vs : List Int) : Int := vs.foldl (fun a v => clampSym (2 ^ 31 - 1) (a + v)) 0

/-- The rank vector of an adapter (R172, steps 1 to 3): its A8 codes and its σ. -/
def State.rankVector (s : State) (n : Nat) (sigma : BitVec 16) (a : AdapterIn) : List (Nat × Int) × BitVec 16 :=
  let z := a.downOmega.map fun e =>
    (e.1, rescaleOne sigma e.2 1024 (heldSum ((a.down.filter fun t => t.column == e.1).map fun t => s.product n t)))
  let sg := reducedSigma 0x3C00#16 (z.map (·.2))
  (z.map fun e => (e.1, clampTo (-128) 127 (stageCode sg e.2)), sg)

/-- The adapter's contribution to output `col` (R172, step 4). -/
def State.adapterTerm (s : State) (n : Nat) (a : AdapterIn) (r : List (Nat × Int) × BitVec 16) (col : Nat) : Option B32 :=
  (tfind a.upOmega col).map fun omega =>
    rescaleOne r.2 omega 1024 (heldSum ((a.up.filter fun t => t.column == col).map fun t =>
      (tfind r.1 t.rank).getD 0 * (s.croft n).weight8 t.weight))

/-- ω of an output column: as the loaded pattern gives it (section 0x000B), else as the command brings it; a row of a transposed run has
none, so one (R157, R158, R176). -/
def State.omegaOf (s : State) (n : Nat) (p : PromotionIn) (e : Nat × BitVec 16) : BitVec 16 :=
  if p.transposed then 0x3C00#16
  else match (s.die (croftDie n)).pattern, s.columnOf n with
    | some q, some j =>
      ((q.omegas.find? fun o => o.row.val == croftRow n && o.lcol.val == j && o.acc == p.acc).bind fun o => tfind o.omega e.1).getD e.2
    | _, _ => e.2

/-- The last promotion rescales its outputs at the span of what entered the accumulators, adds the adapter's contribution and drops the
marks; the accumulators start again (R158, R163, R172, R176). -/
def State.rescale (s : State) (n : Nat) (p : PromotionIn) (r : RescaleIn) : State :=
  let sigma := (s.croft n).sigmaOf r.sigmaRow
  let span := (tfind (s.croft n).accSpans p.acc).getD p.span
  let rank := r.adapter.map fun a => (a, s.rankVector n sigma a)
  let outs := r.omega.map fun e =>
    let y := rescaleOne sigma (s.omegaOf n p e) span (s.acc n (p.acc + e.1))
    (p.acc + e.1, match rank.bind fun k => s.adapterTerm n k.1 k.2 e.1 with
      | some v => F32.add y v
      | none => y)
  let clips := match rank with
    | some k => (k.2.1.filter fun e => e.2 == -128 || e.2 == 127).length
    | none => 0
  let macs := match r.adapter with
    | some a => a.down.length + a.up.length
    | none => 0
  let s1 := outs.foldl (fun (t : State) e => t.accClear n e.1) (s.modCroft n fun c => { c with
    outputs := outs.foldl (fun t e => tset t e.1 e.2) c.outputs, accSpans := tdrop c.accSpans p.acc })
  let s2 := (s1.spend (macEnergy macs)).bumpCroft n 0x170 clips
  match r.stage with
  | none => s2
  | some g => s2.stage n g

/-- An embedding row (R170, R171): y of each element is its weight times ω, and each byte read is charged. -/
def State.embed (s : State) (n acc : Nat) (e : EmbedIn) : State :=
  let outs := e.omega.zipIdx.map fun k =>
    (acc + k.1.1, F32.mul (F32.ofInt ((s.croft n).weight8 (e.weight + k.2))) (F32.of16 k.1.2))
  (s.modCroft n fun c => { c with outputs := outs.foldl (fun t k => tset t k.1 k.2) c.outputs }).spend (2000 * e.omega.length)

/-! ### Adapter gradients (R177) -/

/-- The binary32 sum at a byte of the weight store. -/
def Croft.sum32 (c : Croft) (a : Nat) : B32 := BitVec.ofNat 32 (c.store.getLe a 4)

/-- Write a binary32 sum; the store has 256 KiB. -/
def Croft.setSum32 (c : Croft) (a : Nat) (v : B32) : Croft := if a + 4 ≤ 262144 then { c with store := c.store.setLe a 4 v.toNat } else c

/-- The contractions of a token through the up matrix: wide sums rescaled with the σ of the staged gradient (R175, R177). -/
def State.contractions (s : State) (n : Nat) (ts : List D8Term) : List (Nat × B32) :=
  ((ts.map (·.column)).eraseDups).map fun j =>
    let mine := ts.filter fun t => t.column == j
    let sigma := match mine with
      | t :: _ => (s.croft n).sigmaOf (t.act / 512)
      | [] => 0
    (j, rescaleOne sigma 0x3C00#16 1024 (heldSum (mine.map fun t => s.product n t)))

/-- The value of a factor of an outer product, in binary32. -/
def State.factor (s : State) (n : Nat) (cs : List (Nat × B32)) : Factor → B32
  | .contracted r => (tfind cs r).getD 0
  | .staged a => F32.mul (F32.ofInt (s.actCode n a)) (F32.of16 ((s.croft n).sigmaOf (a / 512)))

/-- Store lines become gradient lines of a job (R177, R220). -/
def Job.addGradLines (j : Job) (n : Nat) (at_ : List Nat) : Job :=
  { j with gradLines := at_.foldl (fun l a => if (n, a / 256) ∈ l then l else l ++ [(n, a / 256)]) j.gradLines }

/-- The job's step is in flight: what a withdrawn step would have added or updated is not committed (R221, R500). -/
def State.temperRuns (s : State) (context : Nat) : Bool :=
  s.serve.steps.any fun st => st.context == context && st.kind == .temper

/-- A token's outer products are added to the micro-batch's sums (R177). -/
def State.addGradients (s : State) (n : Nat) (g : GradientIn) : State :=
  if s.temperRuns g.context = false then s
  else
  let cs := s.contractions n g.contraction
  ((s.modCroft n fun c => g.terms.foldl (fun (k : Croft) e =>
    k.setSum32 e.sum (F32.add (k.sum32 e.sum) (F32.mul (s.factor n cs e.a) (s.factor n cs e.b)))) c).spend
      (macEnergy g.contraction.length)).modSess g.context fun x => { x with job := x.job.map fun j => j.addGradLines n (g.terms.map (·.sum)) }

/-- RUN_PROMOTION (R160): the run enters the wide accumulators, then the partial sums of other crofts (R161) and the products of
digitally placed layers (R170, R171); the last promotion rescales (R158, R172) and stages (R156), and a tempering job's token adds
its gradients (R177). Transposed results of several spans are no run: all moulds summed must share theirs (R176). -/
def execRunPromotion (p : PromotionIn) (s : State) : Host.Outcome State Fault Refusal :=
  let n := p.croft.num
  if p.transposed && !oneSpan (((s.croft n).runRows p.run).map (·.span)) then .fault .noSuchEvent
  else
    let s1 := (((s.noteSpan n p).promoteRun n p).addPartials n p.acc p.partials).addProducts n p.acc p.d8
    let s2 := match p.embed with
      | some e => s1.embed n p.acc e
      | none => s1
    let s3 := match p.rescale with
      | some r => s2.rescale n p r
      | none => s2
    .next (match p.gradient with
      | some g => s3.addGradients n g
      | none => s3)

/-! ### Transposed evaluation and tempering updates -/

/-- Dot product of column codes with row `r`: data columns through the column map, columns under stand-in left out (R69,
R71). -/
def Mould.rowDot (m : Mould) (codes : List (Nat × Int)) (stood : List Nat) (r : Nat) : Rat :=
  codes.foldl (fun a e => if e.1 ∈ stood then a else a + e.2 * m.weight e.1 r) 0

/-- What the stood-in columns add to row `r` digitally (R71, R135, R166), and whether one of them is at its bound. -/
def Mould.standinRow (m : Mould) (codes : List (Nat × Int)) (spanT scale r : Nat) : Int × Bool :=
  (m.standins.filter fun e => e.live && decide (e.column < 256)).foldl (fun a e =>
    let code := ((codes.find? fun k => k.1 == e.column).map (·.2)).getD 0
    let w := ((e.copy.find? fun k => k.1 == r).map (·.2)).getD 0
    let v := clampSym 1016 (roundHA (((code * w * scale : Int) : Rat) / spanT))
    (a.1 + v, a.2 || v.natAbs == 1016)) (0, false)

/-- One row of a transposed pass: its corrected value with the stood-in columns' part, and its saturated mark (R69, R105, R135). -/
def Mould.transposedRow (m : Mould) (theta : Int) (codes : List (Nat × Int)) (stood : List Nat) (span spanT scale : Nat)
    (z : Noise) (r : Nat) : Int × Bool :=
  let d := m.rowDot codes stood r
  let raw := rawCode (8 * m.latched.gain45 * gainT theta * m.latched.gainR (r % 256)) (m.latched.offR (r % 256)) 8 (d * 1024 / span)
    (z.gain, z.offset)
  let q := convert 8 span d (roundHA raw - roundHA (d * 128 / span) + z.delta)
  let v := m.standinRow codes spanT scale r
  (m.correctRow theta r q + v.1, saturated 8 q || v.2)

/-- Codes and rung of a transposed evaluation (R176): A8 when a code lies outside -8 to +7. -/
def transposedA8 (codes : List (Nat × Int)) : Bool := codes.any fun e => decide (e.2 < -8) || decide (7 < e.2)

/-- Every row of a transposed evaluation (R69 to R72, R176). -/
def Mould.transposedResult (m : Mould) (theta : Int) (codes : List (Nat × Int)) (spanT : Nat) (noise : List Noise) : RowResult :=
  let a8 := transposedA8 codes
  let stood := (m.standins.filter (·.live)).map (·.column)
  let hi := if a8 then mapCodes high4 codes else codes
  let lo := mapCodes low4 codes
  let row := fun r =>
    let h := m.transposedRow theta hi stood spanT spanT 1024 (noiseOf noise 0 r) r
    if a8 then
      let l := m.transposedRow theta lo stood (2 * spanT) spanT 512 (noiseOf noise 1 r) r
      (16 * h.1 + 2 * l.1, h.2 || l.2)
    else h
  let rows := (List.range 1024).map fun r => (r, row r)
  { span := spanT, a8 := a8, values := (rows.map fun e => (e.1, e.2.1)).filter fun e => e.2 ≠ 0
    marks := (rows.filter (·.2.2)).map (·.1) }

/-- A transposed window on a mould out of service delivers zero for every row; it marks no step (R144). -/
def State.zeroRows (s : State) (n slot : Nat) : State := s.modCroft n fun c => { c with rowResults := tdrop c.rowResults slot }

/-- A transposed window on a mould in service (R69 to R73, R116, R137). -/
def State.openTransposed (s : State) (t : TransposedIn) (m : Nat) : State :=
  let n := t.croft.num
  let x := (s.croft n).mould m
  let codes := s.actCodes n t.actRow 0 256
  let r := x.transposedResult (s.croft n).theta codes t.spanT t.noise
  let s1 := (s.modCroft n fun c => { c with rowResults := tset c.rowResults t.mould.val r }).spend
    ((1 + b2n r.a8) * 11000000 + 160000 * (x.standins.filter (·.live)).length)
  if s.isStale n x then s1.countStale n t.step else s1

/-- TRANSPOSED_WINDOW (R69 to R73): every row's corrected value. -/
def execTransposedWindow (t : TransposedIn) (s : State) : Host.Outcome State Fault Refusal :=
  if spanOk t.spanT = false then .fault .noSuchEvent
  else
    match (s.croft t.croft.num).holding t.mould.val with
    | none => .next (s.zeroRows t.croft.num t.mould.val)
    | some m =>
      if (s.croft t.croft.num).stopped then .next s
      else if (s.croft t.croft.num).serves t.mould.val m then .next (s.openTransposed t m) else .next (s.zeroRows t.croft.num t.mould.val)

/-- One step of the register of R178, x^32 + x^22 + x^2 + x + 1: the register shifts towards its high bit, and the exclusive or of bits
31, 21, 1 and 0 enters at bit 0. The polynomial fixes neither form nor order of the bits. DESIGN CHOICE, log 29. -/
def lfsrStep (v : BitVec 32) : BitVec 32 :=
  let n := v.toNat
  let bit := b2n (n.testBit 31 != (n.testBit 21 != (n.testBit 1 != n.testBit 0)))
  BitVec.ofNat 32 (2 * n + bit)

/-- Sixteen steps. -/
def lfsrAdvance (v : BitVec 32) : BitVec 32 := (List.range 16).foldl (fun a _ => lfsrStep a) v

/-- The update of one adapter weight (R178): floor(w - λ × gradient ÷ ω + u), held within -127 and +127. -/
def updateWeight (rate gradient : B32) (omega : BitVec 16) (u : Nat) (w : Int) : Int :=
  let delta := F32.div (F32.mul (F32.enc (F32.dec rate).neg) gradient) (F32.of16 omega)
  clampSym 127 (((w : Rat) + (F32.dec delta).rat + (u : Rat) / 65536).floor)

/-- One update in its croft: the register advances 16 steps and u is then its low 16 bits (R178). Which bits, and that the register advances
before they are taken, is the model's choice. DESIGN CHOICE, log 29. -/
def Croft.update (c : Croft) (rate : B32) (i : UpdateItem) : Croft :=
  let r := lfsrAdvance c.lfsr
  let a := 256 * i.line.val + i.byte.val
  let w := updateWeight rate (c.sum32 i.gradient) i.omega (r.toNat % 65536) (Memory.getS8 c.store a)
  { c with lfsr := r, store := Memory.set c.store a (BitVec.ofInt 8 w) }

/-- A croft's first update of a job seeds its register with the job's seed XOR its logical coordinate (R178; log 29). -/
def State.seedCroft (s : State) (j : Job) (n : Nat) : State :=
  if n ∈ j.crofts then s
  else
    let at_ := 1024 * croftDie n + 32 * croftRow n + (s.columnOf n).getD 0
    s.modCroft n fun c => { c with lfsr := BitVec.ofNat 32 j.seed ^^^ Config.coordinateWord at_ }

/-- A checkpoint slot that is complete takes the contents a line had before the job first updated it (R497). -/
def CkptSlot.addLine (k : CkptSlot) (c : Croft) (n line : Nat) : CkptSlot :=
  if k.sequence = 0 then k
  else
    let bytes := c.store.filter fun e => e.1 / 256 == line
    { k with crofts :=
        if k.crofts.any fun e => e.croft == n then
          k.crofts.map fun e => if e.croft = n then { e with bytes := e.bytes ++ bytes } else e
        else k.crofts ++ [{ croft := n, lfsr := c.lfsr, bytes := bytes }] }

/-- A line becomes one of the job's. -/
def Job.addLine (j : Job) (c : Croft) (n line : Nat) : Job :=
  if (n, line) ∈ j.lines then j
  else { j with
    lines := j.lines ++ [(n, line)], crofts := if n ∈ j.crofts then j.crofts else j.crofts ++ [n]
    slot0 := j.slot0.addLine c n line, slot1 := j.slot1.addLine c n line }

/-- One update of a job. -/
def updateOne (a : State × Job) (i : UpdateItem) : State × Job :=
  let n := i.croft.num
  let s1 := a.1.seedCroft a.2 n
  (s1.modCroft n fun c => c.update a.2.rate i, (a.2.addLine (s1.croft n) n i.line.val).addGradLines n [i.gradient])

/-- The sums of a micro-batch start again from zero after its update (R177). -/
def clearSums (items : List UpdateItem) (a : State × Job) : State × Job :=
  (items.foldl (fun (t : State) i => t.modCroft i.croft.num fun c => c.setSum32 i.gradient 0) a.1, a.2)

/-- MICRO_BATCH_UPDATE (R178): every adapter weight of the job is updated and the micro-batch counts; a checkpoint starts
after a count that is a multiple of the interval, and while one is being copied the next update waits (R498). -/
def execMicroBatchUpdate (context : Nat) (items : List UpdateItem) (nextOffset : Nat) (s : State) : Host.Outcome State Fault Refusal :=
  match (s.sess context).job with
  | none => .next s
  | some j =>
    if s.temperRuns context = false then .next s
    else if j.copying ∨ (j.microBatches ≠ 0xFFFFFFFF ∧ j.microBatches ≤ j.done) then .next s
    else
      let r := clearSums items (items.foldl updateOne (s, j))
      let done := j.done + 1
      let due := j.interval ≠ 0xFFFFFFFF ∧ done % j.interval = 0
      .next (r.1.modSess context fun x => { x with job := some { r.2 with done := done, dataOffset := nextOffset, copying := due } })

end Sys2Proof.Machine
end

