-- ==== Sys2Proof/Machine/Gauging.lean ====
section
/-!
DEFINITION. The correction path between windows: PROBE_VERDICT, STANDIN_COPY_ARRIVE, GAUGE_CONVERTER_PASS, GAUGE_RUN_END
(chapter 03), and the order in which a croft gauges its moulds.
-/
namespace Sys2Proof.Machine

/-! ### Probes -/

def sumR (l : List Rat) : Rat := l.foldl (· + ·) 0
def meanR (l : List Rat) : Rat := sumR l / l.length
def absR (x : Rat) : Rat := if x < 0 then -x else x

/-- A column's result under one vector: the mean of its two applications, corrected with the active set, in codes at 8-bit scale
(R131). -/
def Mould.probeValue (m : Mould) (theta : Int) (c : Nat) (r : Int × Int) : Rat :=
  ((m.correct theta 8 c r.1 + m.correct theta 8 c r.2 : Int) : Rat) / 16

/-- The spread of a column's results over the vectors: the largest less the smallest. DESIGN CHOICE, log 48. -/
def spreadR : List Rat → Rat
  | [] => 0
  | x :: xs => xs.foldl max x - xs.foldl min x

/-- A column is located (R131): its mean is off by more than 1.0 + |cast mean| ÷ 32, or its spread lies outside 3/4 to 4/3 of the cast
spread; the cast record is in codes (log 48). -/
def offRecord (mean spread : Rat) (cast : Int × Int) : Bool :=
  decide (1 + absR cast.1 / 32 < absR (mean - cast.1)) || decide (spread * 4 < (cast.2 : Rat) * 3) ||
    decide ((cast.2 : Rat) * 4 < spread * 3)

/-- The record of a column's mean and spread under the cast probe set. -/
def Mould.castStat (m : Mould) (c : Nat) : Int × Int := (tfind m.stats c).getD (0, 0)

/-- The columns a probe locates, of every kind (R131); a column without readings stands where its record has it. -/
def Mould.located (m : Mould) (theta : Int) (cols : List ColumnProbe) : List Nat :=
  (cols.filter fun e =>
    let vs := e.readings.map (m.probeValue theta e.column.val)
    offRecord (meanR vs) (spreadR vs) (m.castStat e.column.val)).map (·.column.val)

/-- Of those, the columns that nothing is under way for yet: neither stood in nor waiting for a reference spare. -/
def Mould.newlyLocated (m : Mould) (cols : List Nat) : List Nat :=
  cols.filter fun c => !(m.standins.any fun x => x.column == c) && !decide (c ∈ m.refPending)

/-- An entry of a pack applies to a mould under probe (R495). -/
def PackEntry.applies (e : PackEntry) (x : Mould) (n m : Nat) (theta : Int) : Bool :=
  e.moulds.toNat.testBit m && decide (e.castsMin ≤ x.castCount) && decide (x.castCount ≤ e.castsMax) &&
    decide ((e.tempMin : Int) ≤ theta / 64) && decide (theta / 64 ≤ e.tempMax) &&
    decide (e.rowMin ≤ croftRow n) && decide (croftRow n ≤ e.rowMax)

/-- The vectors of a pack that a probe applies, with their entry index: the first 64 that apply (R495). -/
def packVectors (p : Option Pack) (x : Mould) (n m : Nat) (theta : Int) : List (Nat × PackEntry) :=
  match p with
  | none => []
  | some k => ((k.entries.zipIdx.map fun e => (e.2, e.1)).filter fun e => PackEntry.applies e.2 x n m theta).take 64

/-- The unsigned codes of a pack vector, by row, zeros left out (R492). -/
def packCodesOf (v : List (BitVec 8)) : List (Nat × Int) :=
  ((List.range 1024).map fun r => (r, (nibbleAt (fun i => (v[i]?).getD 0) r : Int))).filter fun e => e.2 ≠ 0

/-- The codes of one pass of a pack vector, 8 bits and span 2s (R131): a column that is not listed converts its exact dot product. -/
def Mould.packPass (m : Mould) (codes : List (Nat × Int)) (shown : List (Nat × Int)) : List Int :=
  (List.range 262).map fun c => (tfind shown c).getD (convert 8 (2 * m.span) (m.dot codes c) 0)

/-- The checks of one pass that fail (R131, R495): 0 and 1 the halves' witness identities against wit_tol, 2 to 5 the reference columns
against their target; a half that the comparator would skip is not judged. DEDUCED, log 48. -/
def Mould.packFails (m : Mould) (theta : Int) (e : PackEntry) (qs : List Int) (codes : List (Nat × Int)) : List Nat :=
  let stood : List Nat := m.standins.map (·.column)
  let skips := fun h => (stood.any fun c => c == 256 + h || (decide (c < 256) && c / 128 == h)) ||
    saturated 8 ((qs[256 + h]?).getD 0) || (List.range 128).any fun i => saturated 8 ((qs[i + 128 * h]?).getD 0)
  let target := fun c => clampSym 127 (roundHA (m.dot codes c * 64 / m.span))
  ([0, 1].filter fun h => !skips h && decide (e.witTol < (m.witnessDelta 8 qs h).natAbs)) ++
    [2, 3, 4, 5].filter fun k => decide (e.refTol < (m.correct theta 8 (256 + k) ((qs[256 + k]?).getD 0) - 8 * target (256 + k)).natAbs)

/-- The entry whose check failed in both passes, the first such one in entry order (R131, R496; log 48). -/
def Mould.packFail (m : Mould) (theta : Int) (vectors : List (Nat × PackEntry)) (passes : List PackPass) : Option Nat :=
  (vectors.find? fun v =>
    let codes := packCodesOf v.2.vector
    let shown := fun again => (passes.filter fun p => p.entry == v.1 && p.again == again).flatMap (·.codes)
    let fails := fun again => m.packFails theta v.2 (m.packPass codes (shown again)) codes
    (passes.any fun p => p.entry == v.1) && (fails false).any fun k => decide (k ∈ fails true)).map (·.1)

/-- The vectors pass through the croft's probe area, 8 at a time; those of the last group stay there (R184, R495). -/
def Croft.probeArea (c : Croft) (vectors : List (Nat × PackEntry)) : Croft :=
  { c with store := (vectors.zipIdx).foldl (fun m e =>
      Memory.setBytes (Memory.clear m (0x17000 + 512 * (e.2 % 8)) 512) (0x17000 + 512 * (e.2 % 8)) (e.1.2.vector.take 512)) c.store }

/-- Three CLEAR or UNLOCATED verdicts within 10 s take the mould out of service (R139). -/
def State.countVerdict (s : State) (n m : Nat) : State :=
  let now := s.reeveTime (croftDie n)
  let recent := ((s.mould n m).verdicts.filter fun t => decide (now ≤ t + 10000000000)) ++ [now]
  let s1 := s.modMould n m fun x => { x with verdicts := recent, probe := none }
  match (s.mould n m).slot with
  | some k => if 3 ≤ recent.length then s1.leaveService n k false else s1
  | none => s1

/-- Stand-in slots of a croft in use, copies under way included (R136). -/
def Croft.standinCount (c : Croft) : Nat := (c.moulds.map fun e => e.2.standins.length).foldl (· + ·) 0

/-- Columns under stand-in now (R134, R148): those whose copy has arrived. -/
def Croft.standinNow (c : Croft) : Nat := (c.moulds.map fun e => (e.2.standins.filter (·.live)).length).foldl (· + ·) 0

/-- Stand-in slots of the store that are free. -/
def Croft.freeSlots (c : Croft) : List Nat :=
  (List.range 32).filter fun i => !(c.moulds.any fun e => e.2.standins.any fun x => x.slot == i)

/-- A run is discarded and started again (R114). -/
def Mould.restartRun (m : Mould) : Mould := { m with gauging := { m.gauging with run := {} } }

/-- A mould whose verdict it cannot act on leaves service (R139). -/
def State.dropMould (s : State) (n m : Nat) (retired : Bool) : State :=
  match (s.mould n m).slot with
  | some k => s.leaveService n k retired
  | none => s.modMould n m fun x => { x with probe := none }

/-- Action on LOCATED (R133, R139): each column gets a spare; data and witness columns are stood in as well. Without a free
spare the mould leaves service RETIRED; without stand-in capacity, or while debug is open (R543), it leaves service and keeps state CAST. -/
def State.locate (s : State) (n m : Nat) (cols : List Nat) : State :=
  let c := s.croft n
  let x := c.mould m
  let stand := cols.filter fun k => decide (k < 258)
  let refs := cols.filter fun k => decide (258 ≤ k)
  let spares := x.freeSpares
  if spares.length < cols.length then s.dropMould n m true
  else if s.lock.debugOpen ∧ stand ≠ [] then s.dropMould n m false
  else if 8 < x.standins.length + stand.length ∨ 32 < c.standinCount + stand.length then s.dropMould n m false
  else
    let standins := (stand.zip c.freeSlots).map fun e => ({ column := e.1, slot := e.2 } : StandIn)
    let s1 := s.modMould n m fun y =>
      let y1 : Mould := { y with
        spareMap := (spares.zip cols).foldl (fun t e => tset t e.1 e.2) y.spareMap
        standins := y.standins ++ standins
        refPending := y.refPending ++ refs
        probe := if stand = [] then none else y.probe.map fun p => { p with decided := true } }
      if cols = [] then y1 else y1.restartRun
    if stand = [] then s1.wantSpares n m ((spares.zip cols).map (·.1)) else s1

/-- The verdict of a probe (R131, R133, R496). -/
def State.verdict (s : State) (n m : Nat) (cols : List Nat) (packFail : Option Nat) : State :=
  if cols ≠ [] then (s.bumpCroft n 0x130 cols.length).locate n m ((s.mould n m).newlyLocated cols)
  else match packFail with
    | some i =>
      let last := Word.put 0 12 i ||| Word.put 16 5 m ||| Word.put 24 6 (croftCol n) ||| Word.put 32 5 (croftRow n)
      ((s.bumpCroft n 0x128).setReg (.die (croftDie n)) 0x120 last).countVerdict n m
    | none => (s.bumpCroft n 0x120).countVerdict n m

/-- PROBE_VERDICT (R131 to R133): the columns' readings and the pack's passes are judged, and the croft acts on the verdict. -/
def execProbeVerdict (croft : CroftAt) (mould : PhysMould) (columns : List ColumnProbe) (packs : List PackPass)
    (s : State) : Host.Outcome State Fault Refusal :=
  let n := croft.num
  let m := mould.val
  let x := s.mould n m
  match x.probe with
  | none => .next s
  | some p =>
    if p.decided then .next s
    else
      let theta := (s.croft n).theta
      let vectors := packVectors p.pack x n m theta
      let s0 := (s.spend ((64 + 2 * vectors.length) * passEnergy 1024)).modCroft n fun c => c.probeArea vectors
      .next (s0.verdict n m (x.located theta columns) (x.packFail theta vectors packs))

/-- Spares assigned to the columns of a mould that wait for them: not ready, nor being cast, nor waiting for their cast. -/
def Mould.pendingSpares (m : Mould) : List Nat :=
  (List.range 16).filter fun i => !decide (262 + i ∈ m.failed) && !decide (i ∈ m.spareWaiting) &&
    !(m.cast.any fun k => decide (i ∈ k.spares)) &&
    match tfind m.spareMap i with
    | some c => (m.standins.any fun e => e.column == c && !e.spareReady) || (decide (c ∈ m.refPending) && !decide (c ∈ m.refReady))
    | none => false

/-- The copy a stand-in slot holds (R134): a data column's W4 weights, or a witness's targets rounded to whole levels, within
-7 and +7; `shown` gives the weights, or the witness's row sums, by row. -/
def standinCopy (column : Nat) (shown : List (Nat × Int)) : List (Nat × Int) :=
  (shown.filter fun e => decide (e.1 < 1024)).map fun e =>
    (e.1, if column < 256 then clampSym 7 e.2 else clampSym 7 (roundHA ((e.2 : Rat) / 128)))

/-- The 512 bytes of a stand-in slot: 1,024 signed 4-bit values in row order (R134, R184). -/
def copyBytes (copy : List (Nat × Int)) : List (BitVec 8) := packNibbles ((List.range 1024).map fun r => (tfind copy r).getD 0)

/-- Write a slot of the smithy weight store. -/
def Croft.writeSlot (c : Croft) (slot : Nat) (copy : List (Nat × Int)) : Croft :=
  { c with store := Memory.setBytes c.store (0x10000 + 512 * slot) (copyBytes copy) }

/-- STANDIN_COPY_ARRIVE (R134; no copy is fetched before the ingot is held, R582): the copy is live from the next window, and a gauging run of
the mould starts again (R114); with the last copy the probe ends (R132) and the spares begin casting (R85). A poisoned copy, or one that open debug keeps in cipher, makes no stand-in and the mould leaves service (R466, R543). -/
def execStandinCopyArrive (croft : CroftAt) (mould : PhysMould) (column : Fin 262) (copy : List (Nat × Int))
    (poisoned : Bool) (s : State) : Host.Outcome State Fault Refusal :=
  let n := croft.num
  let m := mould.val
  let x := s.mould n m
  match x.standins.find? fun e => e.column == column.val && (!e.live || e.refetch) with
  | none => .next s
  | some st =>
    if s.castGen = none then .next s
    else if poisoned ∨ s.lock.debugOpen then .next (s.dropMould n m false)
    else
      let held := standinCopy column.val copy
      let y0 : Mould := { x with standins := x.standins.map fun e =>
        if e.column = column.val then { e with live := true, refetch := false, copy := held } else e }
      let y := if st.live then y0 else y0.restartRun
      let done := y.standins.all (·.live)
      let s1 := s.modCroft n fun c => (c.setMould m (if done then
        { y with probe := if (y.probe.map (·.decided)).getD false then none else y.probe } else y)).writeSlot st.slot held
      .next (if done then s1.wantSpares n m y.pendingSpares else s1)

/-! ### Gauging -/

/-- The active coefficient set. -/
def Mould.activeSet (m : Mould) : CoefSet := if m.bank then m.bank1 else m.bank0

/-- Write the set of the bank that is not active (R185). -/
def Mould.setPending (m : Mould) (c : CoefSet) : Mould :=
  if m.bank then { m with bank0 := c, pendingSet := true } else { m with bank1 := c, pendingSet := true }

/-- Write the active set in place. -/
def Mould.setActive (m : Mould) (c : CoefSet) : Mould := if m.bank then { m with bank1 := c } else { m with bank0 := c }

/-- A mould the croft may gauge: in service. -/
def Croft.gaugeable (c : Croft) (m : Nat) : Bool :=
  let x := c.mould m
  x.state == .cast && (match x.slot with | some k => !decide (k ∈ c.held) | none => false) && x.cast.all fun k => !k.full

/-- The mould whose active set is oldest (R106). -/
def Croft.oldest (c : Croft) : Option Nat :=
  ((List.range 18).filter c.gaugeable).foldl (fun best m =>
    match best with
    | none => some m
    | some b => if (c.mould m).activeSet.tG < (c.mould b).activeSet.tG then some m else best) none

/-- The mould a new attempt takes: a neutralised one first (R212), then those moved ahead (R555), then the oldest. -/
def Croft.nextGauged (c : Croft) : Option Nat :=
  match (List.range 18).find? fun m => c.gaugeable m && (c.mould m).neutralised with
  | some m => some m
  | none => match c.forced.find? c.gaugeable with
    | some m => some m
    | none => c.oldest

/-- Begin an attempt when none runs: on the mould that is next at that instant, the end of the attempt before it or a converter pass
(R106). DESIGN CHOICE, log 47. -/
def Croft.pickGauged (c : Croft) : Croft :=
  if c.moulds.any fun e => e.2.gauging.active then c
  else match c.nextGauged with
    | none => c
    | some m =>
      { c.modMould m fun x => { x with gauging := { x.gauging with active := true, run := {}, first := none } } with
        forced := c.forced.filter fun k => k != m }

/-- Energy of one converter pass, fJ (R107). -/
def converterEnergy (rowConverters : Bool) : Nat := if rowConverters then 1600000 else 1500000

/-- A run takes the readings of a converter pass, when it still needs them (R107). -/
def GaugeRun.addPass (r : GaugeRun) (rowConverters high : Bool) (readings : List (Nat × Int)) (theta : Int) (time : Nat) : GaugeRun :=
  let r1 := GaugeRun.touch r theta time
  match rowConverters, high with
  | true, true => if r.rowHigh.length < 4 then { r1 with rowHigh := r.rowHigh ++ [readings] } else r
  | true, false => if r.rowLow.length < 4 then { r1 with rowLow := r.rowLow ++ [readings] } else r
  | false, true => if r.colHigh.length < 8 then { r1 with colHigh := r.colHigh ++ [readings] } else r
  | false, false => if r.colLow.length < 8 then { r1 with colLow := r.colLow ++ [readings] } else r

/-- A mould's run takes a converter pass while it runs (R114). -/
def Mould.addPass (m : Mould) (rowConverters high : Bool) (readings : List (Nat × Int)) (theta : Int) (time : Nat) : Mould :=
  if m.gauging.active ∧ m.probe = none then
    { m with gauging := { m.gauging with run := GaugeRun.addPass m.gauging.run rowConverters high readings theta time } }
  else m

/-- GAUGE_CONVERTER_PASS (R107, R108): the readings of one pass at one of the two internal levels, in 1/16 code. -/
def execGaugeConverterPass (croft : CroftAt) (mould : PhysMould) (rowConverters high : Bool) (readings : List (Nat × Int))
    (s : State) : Host.Outcome State Fault Refusal :=
  let n := croft.num
  .next ((s.modCroft n fun c => (c.pickGauged).modMould mould.val fun m =>
    m.addPass rowConverters high readings c.theta (s.reeveTime (croftDie n))).spend (converterEnergy rowConverters))

/-- All samples of a run are there (R107). -/
def GaugeRun.complete (r : GaugeRun) : Bool :=
  r.samples.length == 512 && r.colLow.length == 8 && r.colHigh.length == 8 && r.rowLow.length == 4 && r.rowHigh.length == 4

/-- Mean reading of a converter at a level, in codes; a converter the readings leave out stands at the level itself. -/
def meanReading (rs : List (List (Nat × Int))) (k : Nat) (level : Int) : Rat :=
  meanR (rs.map fun r => (((tfind r k).getD (16 * level) : Int) : Rat) / 16)

/-- Gain and offset of a converter (R109). -/
def converterTerms (lo hi : List (List (Nat × Int))) (k : Nat) : Rat × Rat :=
  let a := meanReading lo k (-96)
  let b := meanReading hi k 96
  (if b - a = 0 then Config.openGain k else 192 / (b - a), (b + a) / 2)

/-- A quotient of R109; by zero it names no value and is free (log 16). -/
def quot (which : Nat) (x y : Rat) : Rat := if y = 0 then Config.openFit which else x / y

/-- Fit of an ideal line to a measured one: Σ e × (x - o) ÷ Σ (x - o)². -/
def fit (which : Nat) (es : List (Rat × Rat)) (o : Rat) : Rat :=
  quot which (sumR (es.map fun e => e.1 * (e.2 - o))) (sumR (es.map fun e => (e.2 - o) * (e.2 - o)))

/-- The terms of a run (R109), with the span its passes ran under. -/
def deriveTerms (m : Mould) (r : GaugeRun) (span : Nat := m.span) : RunTerms :=
  let cols := (r.colLow ++ r.colHigh).flatMap fun x => x.map (·.1)
  let rows := (r.rowLow ++ r.rowHigh).flatMap fun x => x.map (·.1)
  let tab := fun (ks : List Nat) (f : Nat → Rat) => ks.foldl (fun t k => tset t k (f k)) ([] : Table Rat)
  let ref := fun (x : RefSample) i => (x.ref[i]?).getD (0 : Rat)
  let ideal := fun (v : Int) => (7 * v * 128 : Int) / (span : Rat)
  let om := meanR (r.samples.map fun x => ref x 0)
  let gp := fit 0 (r.samples.map fun x => (ideal x.sx, ref x 1)) om
  let gn := fit 1 (r.samples.map fun x => (-(ideal x.sx), ref x 2)) om
  let g3 := fit 2 (r.samples.map fun x => (ideal x.sOdd, ref x 3)) om
  let gm := (gp + gn) / 2
  let theta := meanR (r.samples.map fun x => (x.theta : Rat))
  { gk := tab cols fun k => (converterTerms r.colLow r.colHigh k).1
    ok := tab cols fun k => (converterTerms r.colLow r.colHigh k).2
    gr := tab rows fun k => (converterTerms r.rowLow r.rowHigh k).1
    or := tab rows fun k => (converterTerms r.rowLow r.rowHigh k).2
    g45 := gm / gainT theta, o45 := om - offT theta, theta := theta
    imbalance := quot 3 (gp - gn) gm, parity := quot 4 g3 gm - 1
    lastTime := r.lastTime
    squares := r.squares.map fun e => (e.1, e.2 / 512) }

/-- A health limit is passed (R110). -/
def RunTerms.unhealthy (t : RunTerms) : Bool := decide (1 / 50 < absR t.imbalance) || decide (1 / 50 < absR t.parity)

/-- Two runs agree (R111). -/
def RunTerms.agree (a b : RunTerms) : Bool :=
  let pair := fun (x y : Table Rat) (dflt lim : Rat) =>
    ((x ++ y).map (·.1)).all fun k => decide (absR ((tfind x k).getD dflt - (tfind y k).getD dflt) ≤ lim)
  pair a.gk b.gk 1 (1 / 512) && pair a.ok b.ok 0 (1 / 4) && pair a.gr b.gr 1 (1 / 512) && pair a.or b.or 0 (1 / 4) &&
    decide (absR (a.g45 - b.g45) ≤ 1 / 1000) && decide (absR (a.o45 - b.o45) ≤ 1 / 8) &&
    decide (absR (a.theta - b.theta) ≤ 64)

/-- Gain encodings of R101. -/
def gainCode (g : Rat) : Nat := (clampTo 0 255 (roundHA ((g - 1) * 1024) + 128)).toNat
def offCode (o : Rat) : Int := clampTo (-128) 127 (roundHA (o * 16))

/-- The set two agreeing runs give (R112): the mean of the two, each term rounded to its encoding. -/
def RunTerms.meanSet (a b : RunTerms) : CoefSet :=
  let ks := fun (x y : Table Rat) => (x ++ y).map (·.1)
  let mean := fun (x y : Table Rat) (dflt : Rat) k => ((tfind x k).getD dflt + (tfind y k).getD dflt) / 2
  { gk := (ks a.gk b.gk).foldl (fun t k => tput (fun _ => 128) t k (gainCode (mean a.gk b.gk 1 k))) []
    ok := (ks a.ok b.ok).foldl (fun t k => tput (fun _ => 0) t k (offCode (mean a.ok b.ok 0 k))) []
    gr := (ks a.gr b.gr).foldl (fun t k => tput (fun _ => 128) t k (gainCode (mean a.gr b.gr 1 k))) []
    or := (ks a.or b.or).foldl (fun t k => tput (fun _ => 0) t k (offCode (mean a.or b.or 0 k))) []
    g45 := clampTo (-32768) 32767 (roundHA (((a.g45 + b.g45) / 2 - 1) * 32768))
    o45 := clampTo (-32768) 32767 (roundHA ((a.o45 + b.o45) / 2 * 256))
    thetaG := (clampTo 0 65535 (roundHA ((a.theta + b.theta) / 2))).toNat
    tG := b.lastTime }

/-- Ratios of screening: mean square of each data column, of REF1 and of REF3 over that of REF1 (R118; the column baseline keeps all 258, R184,
and log 56 says what the last two hold). The two runs' mean squares are added, which
weighs their samples alike. DESIGN CHOICE, log 52. -/
def RunTerms.ratios (a b : RunTerms) : Table Rat :=
  let sq := fun k => (tfind a.squares k).getD 0 + (tfind b.squares k).getD 0
  (List.range 258).map fun c => (c, if sq 256 = 0 then Config.openRatio c else sq c / sq 256)

/-- A column outside 1/16 to 16 of its baseline (R118). -/
def screenTrips (base now : Table Rat) : Bool :=
  (List.range 256).any fun c =>
    let b := (tfind base c).getD 0
    let rho := if b = 0 then Config.openRatio c else (tfind now c).getD 0 / b
    decide (rho < 1 / 16) || decide (16 < rho)

/-- g_45 of a set has left the cast set's by more than 6 % (R119). -/
def drifted (now atCast : Int) : Bool :=
  decide (6 * absR (1 + (atCast : Rat) / 32768) / 100 < absR (((now - atCast : Int) : Rat) / 32768))

/-- The attempt on a mould ends; the croft takes its next mould (R106). -/
def State.endAttempt (s : State) (n m : Nat) : State :=
  s.modCroft n fun c => (c.modMould m fun x => { x with gauging := { x.gauging with active := false, run := {}, first := none } }).pickGauged

/-- Screening or the health limits start a probe of the mould; SCREEN_TRIPS counts it when none runs already (R110, R118, R148). -/
def State.screenProbe (s : State) (n m : Nat) : State :=
  (if (s.mould n m).probe.isSome then s else s.bumpCroft n 0x160).startProbe n m none

/-- Accept an attempt (R112): pending set, counts, baseline or screening (R115, R118), recast_due (R119). -/
def State.acceptAttempt (s : State) (n m : Nat) (a b : RunTerms) : State :=
  let x := s.mould n m
  let set := a.meanSet b
  let ratios := a.ratios b
  let trips := match x.gauging.baseline with
    | none => false
    | some base => screenTrips base ratios
  let s1 := s.modMould n m fun y => { y.setPending set with
    neutralised := false
    recastDue := y.recastDue || drifted set.g45 y.gauging.castG45
    gauging := { y.gauging with rejects := 0, baseline := some (y.gauging.baseline.getD ratios) } }
  let s2 := ((s1.bumpCroft n 0x140).bump (.gauge (croftDie n)) 0x120 1).endAttempt n m
  if trips then s2.screenProbe n m else s2

/-- Reject an attempt (R113): a new one begins on the same mould, after a probe when it is the fourth in a row. The count of rejects in a
row starts again with that probe. DESIGN CHOICE, log 51. -/
def State.rejectAttempt (s : State) (n m : Nat) : State :=
  let fourth := (s.mould n m).gauging.rejects = 3
  let s1 := s.modMould n m fun y => { y with gauging := { y.gauging with
    run := {}, first := none, rejects := if fourth then 0 else y.gauging.rejects + 1 } }
  let s2 := (s1.bumpCroft n 0x148).bump (.gauge (croftDie n)) 0x128 1
  if fourth then s2.startProbe n m none else s2

/-- GAUGE_RUN_END (R109 to R113): the terms of a complete run; the second run of an attempt accepts or rejects it. -/
def execGaugeRunEnd (croft : CroftAt) (mould : PhysMould) (s : State) : Host.Outcome State Fault Refusal :=
  let n := croft.num
  let m := mould.val
  let x := s.mould n m
  if x.gauging.active = false ∨ GaugeRun.complete x.gauging.run = false then .next s
  else
    let t := deriveTerms x x.gauging.run
    if t.unhealthy then
      .next ((s.endAttempt n m).screenProbe n m)
    else match x.gauging.first with
      | none => .next (s.modMould n m fun y => { y with gauging := { y.gauging with run := {}, first := some t } })
      | some a => .next (if a.agree t then s.acceptAttempt n m a t else s.rejectAttempt n m)

/-! ### The quick gauging check (R397 to R400) -/

/-- Energy of one attempt of the quick check, fJ (R400). -/
def quickEnergy : Nat := 2 * (16 * converterEnergy false + 8 * converterEnergy true + 32 * passEnergy 1024)

/-- A set becomes a mould's active set at once; R119 applies to it (R398). -/
def Mould.takeSet (m : Mould) (set : CoefSet) : Mould :=
  { m.setActive set with
    latched := set, neutralised := false, pendingSet := false, recastDue := m.recastDue || drifted set.g45 m.gauging.castG45 }

/-- A run of the quick check is whole: 16 converter passes, 8 row-converter passes and 32 vectors (R398). -/
def quickRun (r : GaugeRun) : Bool :=
  r.samples.length == 32 && r.colLow.length == 8 && r.colHigh.length == 8 && r.rowLow.length == 4 && r.rowHigh.length == 4

/-- The attempts on one mould (R398, R399): the first whose runs agree gives its set; four rejected ones take the mould out of service. The
terms come from unsigned passes with span 2 × s. The second part says whether the check has ended on the mould; it has not where the attempts
measured so far run out. Its attempts count in QUICK_REJECTS alone. DESIGN CHOICE, log 105: not in GAUGE_ACCEPT or GAUGE_REJECT (R148). -/
def State.quickAttempts (s : State) (n m : Nat) : List (GaugeRun × GaugeRun) → Nat → State × Bool
  | [], _ => (s, false)
  | (a, b) :: rest, rejected =>
    if (quickRun a && quickRun b) = false then (s, false)
    else
      let x := s.mould n m
      let ta := deriveTerms x a (2 * x.span)
      let tb := deriveTerms x b (2 * x.span)
      let s1 := s.spend quickEnergy
      if ta.agree tb then (s1.modMould n m fun x => x.takeSet (ta.meanSet tb), true)
      else
        let s2 := s1.bump (.gauge (croftDie n)) 0x130 1
        if 3 ≤ rejected then (s2.dropMould n m false, true) else s2.quickAttempts n m rest (rejected + 1)

/-- The check of one mould: its attempts, then its columns against their records (R398). -/
def State.quickOne (s : State) (n m : Nat) (q : QuickCheck) : State × Bool :=
  let r := s.quickAttempts n m q.attempts 0
  let s1 := r.1
  let x := s1.mould n m
  let cols := x.located (s1.croft n).theta q.columns
  if r.2 = false ∨ cols = [] ∨ x.slot = none then r
  else ((s1.bumpCroft n 0x130 cols.length).locate n m (x.newlyLocated cols), true)

/-- Go on with the quick check of a die: it needs a diode result for every croft row, and covers each mould once (R397). -/
def State.runQuick (s : State) (d : Nat) : State :=
  let x := s.die d
  if x.quickDue.isEmpty ∨ (List.range 32).any (fun i => (tfind (s.conv d).latestAt i).isNone) = true then s
  else
    let due := x.quickDue.filter fun e => (s.mould e.1 e.2).state == .cast && (s.mould e.1 e.2).slot.isSome
    let r := due.foldl (fun (a : State × List (Nat × Nat)) e =>
      match x.quickIn.find? fun q => q.croft.num == e.1 && q.mould.val == e.2 with
      | none => (a.1, a.2 ++ [e])
      | some q =>
        let o := a.1.quickOne e.1 e.2 q
        (o.1, if o.2 then a.2 else a.2 ++ [e])) (s, [])
    r.1.modDie d fun y => { y with quickDue := r.2, quickIn := [] }

/-- A croft whose moulds may be in service: powered, and neither fenced nor a spare (R217, R397). -/
def State.inUse (s : State) (n : Nat) : Bool := s.croftPowered n && (s.service n == .inService || s.service n == .outOfService)

/-- The quick check begins on every mould in service, with what it measures; no step is admitted to a die before it has ended there (R397). -/
def State.quickCheck (s : State) (qs : List QuickCheck) : State :=
  (List.range 16).foldl (fun (t : State) d =>
    let due := (t.croftsOf d).flatMap fun n => (t.croft n).moulds.filterMap fun m =>
      if m.2.state = .cast ∧ m.2.slot.isSome ∧ t.inUse n = true then some (n, m.1) else none
    (t.modDie d fun x => { x with quickDue := due, quickIn := qs.filter fun q => croftDie q.croft.num == d }).runQuick d) s

end Sys2Proof.Machine
end

