-- ==== Sys2Proof/Machine/Casting.lean ====
section
/-!
DEFINITION. Casting: CAST_ROW_GROUP_END and CAST_CLOSE (R76 to R92, R583, R584), and the columns and records a close settles.
-/
namespace Sys2Proof.Machine

/-- Mark a failed physical column and move the logical column it held to a free spare (R78); `none` when no spare is free (R79). -/
def Mould.moveColumn (m : Mould) (p : Nat) : Option Mould :=
  if p ∈ m.failed then some m
  else
    let m1 := { m with failed := m.failed ++ [p] }
    match m.logicalOf p with
    | none => some m1
    | some c => match m1.freeSpares with
      | [] => none
      | i :: _ => some { m1 with spareMap := tset m1.spareMap i c }

/-- Move every failed column, in the order given. -/
def Mould.moveColumns (m : Mould) : List Nat → Option Mould
  | [] => some m
  | p :: ps => (m.moveColumn p).bind fun m' => m'.moveColumns ps

/-- Logical columns with a pending spare (R584): one whose entry names a column that is not yet marked failed. -/
def Mould.pendingColumns (m : Mould) : List Nat :=
  (m.spareMap.filterMap fun e => if 262 + e.1 ∈ m.failed ∨ m.replaced e.2 = none then none else some e.2).eraseDups

/-- A full cast has cast every pending spare with the mould: the columns before them are marked failed (R87, R488, R584). A column that had a
pending spare and fails itself in the full cast has got a second spare by then, which holds it, and the first counts as failed. DESIGN CHOICE,
log 107: R87 does not say which of the two holds the column. -/
def Mould.settlePending (m : Mould) : Mould :=
  { m.markReplaced m.pendingColumns with standins := [], refPending := [], refReady := [], spareWaiting := [] }

/-- The columns of a mould's pending spares are marked failed and treated as located by a probe: those of a CAST mould in a slot are stood in
from fresh copies, and their spares are cast again (R133, R584). -/
def State.resumeMould (s : State) (n m : Nat) : State :=
  let x := s.mould n m
  let cols := x.pendingColumns
  if cols.isEmpty then s
  else if x.state = .cast ∧ x.slot.isSome then
    let stand := cols.filter fun k => decide (k < 258)
    let refs := cols.filter fun k => decide (258 ≤ k)
    let standins := (stand.zip (s.croft n).freeSlots).map fun z => ({ column := z.1, slot := z.2 } : StandIn)
    s.modMould n m fun z =>
      let y := z.markReplaced cols
      { y with
        standins := standins, refPending := refs, castRestores := true
        spareWaiting := if stand.isEmpty then (List.range 16).filter fun i => (tfind y.spareMap i).any fun c => decide (c ∈ refs) && y.holder c == 262 + i
          else [] }
  else s.modMould n m fun z => z.markReplaced cols

/-- After a loss of the stand-in copies (R20, R584). -/
def State.resumeSpares (s : State) : State :=
  s.crofts.foldl (fun (t : State) e => e.2.moulds.foldl (fun (u : State) m => u.resumeMould e.1 m.1) t) s

/-! ### The image of a row group (R48, R81) -/

/-- The byte of a row group's image. -/
def RowGroupIn.byte (g : RowGroupIn) (i : Nat) : BitVec 8 := ((g.image.find? fun e => e.1.val == i).map (·.2)).getD 0

/-- The two data weights of byte `e.1` of the image of row group `k`: 128 bytes per row, even column in the low half (R47, R149). -/
def imageWeights (k : Nat) (e : Fin 8448 × BitVec 8) : List (Nat × Int) :=
  let row := 64 * k + e.1.val / 128
  let col := 2 * (e.1.val % 128)
  [(1024 * col + row, clampSym 7 (signed4 (e.2.toNat % 16))), (1024 * (col + 1) + row, clampSym 7 (signed4 (e.2.toNat / 16)))]

/-- The witness row sums of the image of row group `k` (R48): 16-bit signed values behind the data weights, half A first. -/
def imageSums (k : Nat) (g : RowGroupIn) : List (Nat × Int) :=
  (List.range 128).map fun i =>
    let v := (RowGroupIn.byte g (8192 + 2 * i)).toNat + 256 * (RowGroupIn.byte g (8193 + 2 * i)).toNat
    (1024 * (i % 2) + 64 * k + i / 2, clampSym 896 (toSigned 16 v))

/-- Bytes of the activation pad that the image buffer uses before it goes on in the partial-sum pad (R81, R183). -/
def Die.bufferSplit (x : Die) : Nat := if x.mapMode then 129024 else 131072

/-- A row group's image lies in the casting area of a croft in service, else in the image buffer of its pads (R81, R184): slot k's
8,448 bytes lie from 8,448 × k. DESIGN CHOICE, log 53. -/
def State.stageImage (s : State) (n slot : Nat) (bytes : List (Nat × BitVec 8)) : State :=
  if s.service n = .inService then
    s.modCroft n fun c => { c with
      store := bytes.foldl (fun m e => Memory.set m (0x14000 + e.1) e.2) (Memory.clear c.store 0x14000 8448) }
  else
    let x := s.die (croftDie n)
    let a := 8448 * slot
    let cut := x.bufferSplit - a
    s.modCroft n fun c => { c with
      actPad := x.writePad n false (x.clearPad n false c.actPad a (min 8448 cut)) a (bytes.filter fun e => decide (e.1 < cut))
      psPad := x.writePad n true (if cut < 8448 then x.clearPad n true c.psPad (a + cut - x.bufferSplit) (8448 - cut) else c.psPad)
        (a - x.bufferSplit) ((bytes.filter fun e => decide (cut ≤ e.1)).map fun e => (e.1 - cut, e.2)) }

/-- CAST_ROW_GROUP_END (R76, R77, R81): one 64-row group has been streamed in and programmed; columns with a cell still outside its
band fail. An image that reads poisoned stops the mould, which stays CASTING, and fails the switch (R466). -/
def execCastRowGroupEnd (g : RowGroupIn) (s : State) : Host.Outcome State Fault Refusal :=
  let n := g.croft.num
  let m := g.mould.val
  match (s.mould n m).cast with
  | none => .next s
  | some k =>
    if k.full = false ∨ 16 ≤ k.groups then .next s
    else if g.poisoned then
      let s1 := s.abandonCast n m
      .next { s1 with pkg := { s1.pkg with gen := { s1.pkg.gen with castPoison := s1.pkg.gen.switch.isSome } } }
    else
      let data := g.image.filter fun e => decide (e.1.val < 8192)
      let s1 := s.stageImage n (((s.mould n m).slot).getD 0) (g.image.map fun e => (e.1.val, e.2))
      .next (s1.modMould n m fun x => { x with
        span := legalSpan g.span
        weights := (data.flatMap (imageWeights k.groups)).foldl (fun t e => tput (fun _ => 0) t e.1 e.2) x.weights
        witness := (imageSums k.groups g).foldl (fun t e => tput (fun _ => 0) t e.1 e.2) x.witness
        cast := some { k with groups := k.groups + 1, failed := k.failed ++ (g.failed.map (·.val)) } })

/-- The ingot of a generation the package holds. -/
def State.ingotOf (s : State) (g : Nat) : Option IngotRec :=
  match s.pkg.gen.inService with
  | some r => if r.generation = g then some r else match s.pkg.gen.staged with
    | some q => if q.generation = g then some q else none
    | none => none
  | none => match s.pkg.gen.staged with
    | some q => if q.generation = g then some q else none
    | none => none

/-- Each of the 16 slots is held by a mould in state CAST with this generation (R89, R90). -/
def Croft.wholeAt (c : Croft) (g : Nat) : Bool :=
  (List.range 16).all fun k => match c.holding k with
    | some m => (c.mould m).state == .cast && (c.mould m).generation == g
    | none => false

/-- The croft record is written once the croft is whole in the generation (R89); a croft that was out of service under R90
serves again. -/
def State.writeCroftRecord (s : State) (n g castDate : Nat) : State :=
  let c := s.croft n
  if c.wholeAt g = false ∨ (c.generation = g ∧ c.recordVersion = 1 ∧ s.service n ≠ .outOfService) then s
  else s.modCroft n fun c => { c with
    digest := ((s.ingotOf g).map (·.digest)).getD c.digest, generation := g, castDate := castDate, recordVersion := 1,
    service := if s.service n = .outOfService then some .inService else c.service }

/-- The mould record of a full cast that closes (R76, R88, R115): statistics, first active set, and CAST written last. -/
def State.closedMould (s : State) (c : CastCloseIn) (g : Nat) (x : Mould) : Mould :=
  let set : CoefSet := { c.firstSet.held with
    thetaG := (max 0 (s.rowTemp c.croft.num)).toNat, tG := s.reeveTime c.croft.die.val }
  { x.settlePending.setActive set with
    stats := c.stats.map fun e => (e.column.val, clampTo (-128) 127 e.mean, clampTo 0 255 e.spread)
    recastDue := false, roundedWitness := [], pendingSet := false, neutralised := false,
    gauging := { castG45 := c.firstSet.held.g45 }, generation := g, cast := none, verdicts := [], state := .cast }

/-- The close of a spare-column cast (R85): spares that closed are ready for the next bell; one that failed is replaced by
another free spare, or the mould leaves service (R139). -/
def State.closeSpares (s : State) (n m : Nat) (k : Cast) (bad : List Nat) : State :=
  let x := s.mould n m
  let good := k.spares.filter fun i => !decide (i ∈ bad)
  let cols := good.filterMap fun i => tfind x.spareMap i
  let x1 : Mould := { x with
    cast := none
    standins := x.standins.map fun e => if e.column ∈ cols then { e with spareReady := true } else e
    refReady := x.refReady ++ x.refPending.filter fun c => decide (c ∈ cols) }
  let lost := (k.spares.filter fun i => decide (i ∈ bad)).filterMap fun i => (tfind x.spareMap i).map fun c => (i, c)
  let x2 : Mould := { x1 with failed := x1.failed ++ lost.map (fun e => 262 + e.1) }
  let free := x2.freeSpares
  let s1 := s.modMould n m fun _ => { x2 with
    spareMap := (free.zip (lost.map (·.2))).foldl (fun t e => tset t e.1 e.2) x2.spareMap }
  if free.length < lost.length then
    match x.slot with
    | some slot => s1.leaveService n slot true
    | none => s1
  else s1.wantSpares n m ((free.zip lost).map (·.1))

/-- The hot-row copies of the logical mould that a cast has filled are written from its weights (R120): a pattern that was loaded before the
cast closed found none. -/
def State.rewriteHot (s : State) (n m : Nat) : State :=
  match (s.die (croftDie n)).pattern, s.columnOf n, (s.mould n m).slot with
  | some p, some j, some k => s.modCroft n fun c => c.writeHot p (croftRow n) j c (· == k)
  | _, _, _ => s

/-- CAST_CLOSE (R76 to R79, R88, R89): failed columns move to spares, the record closes with CAST last, and the croft record
follows when the croft is whole; a mould without enough spares is written FAILED and a reserve takes its slot. A column that fails the
closing verify, after spare casting, moves to a free spare as the others do, and the mould closes. DESIGN CHOICE, log 49. -/
def execCastClose (c : CastCloseIn) (s : State) : Host.Outcome State Fault Refusal :=
  let n := c.croft.num
  let m := c.mould.val
  let x := s.mould n m
  match x.cast with
  | none => .next s
  | some k =>
    let spareBad := c.spareFailed.map (·.val)
    let verifyBad := c.verifyFailed.map (·.val)
    if k.full then
      if k.groups < 16 then .next s
      else match x.moveColumns (k.failed ++ spareBad.map (262 + ·) ++ verifyBad) with
        | some y =>
          .next (((s.modMould n m fun _ => s.closedMould c k.generation y).rewriteHot n m).writeCroftRecord n k.generation c.castDate)
        | none =>
          let bad := (k.failed ++ spareBad.map (262 + ·) ++ verifyBad).filter fun p => !decide (p ∈ x.failed)
          .next ((s.modMould n m fun z => { z with failed := x.failed ++ bad }).spendMould n m .failed)
    else .next (s.closeSpares n m k (spareBad ++ (verifyBad.filter fun p => decide (262 ≤ p)).map (· - 262)))

/-! ### Power -/

/-- A mould's record and array (02, Cast records), all that lasts without power; a cast that was cut short, or a reserve's cast that had not
begun, waits (R583). -/
def Mould.dark (m : Mould) (spareCroft : Bool) : Mould :=
  let wait := m.slot.isSome && (m.state == .casting || (m.castWaiting && m.castRestores && !spareCroft))
  { state := m.state, slot := m.slot, castCount := m.castCount, generation := m.generation, failed := m.failed, recastDue := m.recastDue
    spareMap := m.spareMap, stats := m.stats, weights := m.weights, witness := m.witness, span := m.span
    roundedWitness := m.roundedWitness, gauging := { castG45 := m.gauging.castG45 }, castWaiting := wait, castRestores := wait }

/-- A mould of a croft that is power-gated (R20): as without power, but what the reeve and hub 0 hold of it stays. -/
def Mould.gated (m : Mould) : Mould :=
  { m.dark false with
    castWaiting := m.castWaiting || (m.state == .casting && m.slot.isSome), castRestores := m.castRestores
    verdicts := m.verdicts, reserveOk := m.reserveOk }

/-- A croft that is power-gated: pads and weight store lose their contents (R20). -/
def Croft.gated (c : Croft) : Croft := { c.zeroFilled with moulds := tmap freshMould (fun _ m => m.gated) c.moulds, tableLostAt := none }

def Croft.dark (c : Croft) (n : Nat) : Croft :=
  { moulds := tmap freshMould (fun _ m => m.dark (isSpareColumn (croftCol n))) c.moulds
    digest := c.digest, generation := c.generation, castDate := c.castDate, recordVersion := c.recordVersion }

/-! ### Records (02, Cast records) -/

def stateCode : MouldState → Nat
  | .blank => 0 | .casting => 1 | .cast => 2 | .failed => 3 | .retired => 4

/-- The mould record, 1,024 bytes (rows 2 + 2m and 3 + 2m of a croft's record area). -/
def Mould.recordByte (m : Mould) (i : Nat) : BitVec 8 :=
  if i = 0 then BitVec.ofNat 8 (stateCode m.state)
  else if i = 1 then BitVec.ofNat 8 (m.slot.getD 0xFF)
  else if i < 4 then BitVec.ofNat 8 (m.castCount / 256 ^ (i - 2))
  else if i < 8 then BitVec.ofNat 8 (m.generation / 256 ^ (i - 4))
  else if i < 43 then
    (List.range 8).foldl (fun b k => if 8 * (i - 8) + k ∈ m.failed then b ||| BitVec.ofNat 8 (2 ^ k) else b) 0
  else if i = 43 then BitVec.ofNat 8 (b2n m.recastDue)
  else if i < 76 then BitVec.ofNat 8 ((((tfind m.spareMap ((i - 44) / 2)).getD 0xFFFF)) / 256 ^ (i % 2))
  else if i < 600 then
    let c := m.castStat ((i - 76) / 2)
    BitVec.ofNat 8 (if i % 2 = 0 then ofSigned 8 c.1 else c.2.toNat)
  else 0

/-- The croft record, 512 bytes (row 0 of a croft's record area). -/
def Croft.recordByte (c : Croft) (i : Nat) : BitVec 8 :=
  if i < 64 then BitVec.ofNat 8 (c.digest / 256 ^ i)
  else if i < 68 then BitVec.ofNat 8 (c.generation / 256 ^ (i - 64))
  else if i < 76 then BitVec.ofNat 8 (c.castDate / 256 ^ (i - 68))
  else if i < 78 then BitVec.ofNat 8 (c.recordVersion / 256 ^ (i - 76))
  else 0

end Sys2Proof.Machine
end

