-- ==== Sys2Proof/Machine/Layout.lean ====
section
/-!
DEFINITION. Where the spec places a croft's structured contents in its smithy weight store (R184) and a die's row maps in its die
record area (R202). The model keeps them as fields; these are the bytes they are.
-/
namespace Sys2Proof

/-- Byte `i` of a coefficient set of 1,280 bytes (R184). -/
def CoefSet.byte (c : CoefSet) (i : Nat) : BitVec 8 :=
  if i < 278 then BitVec.ofNat 8 (Machine.tget (fun _ => c.base) c.gk i)
  else if i < 556 then BitVec.ofNat 8 (Machine.ofSigned 8 (Machine.tget (fun _ => 0) c.ok (i - 278)))
  else if i < 812 then BitVec.ofNat 8 (Machine.tget (fun _ => c.base) c.gr (i - 556))
  else if i < 1068 then BitVec.ofNat 8 (Machine.ofSigned 8 (Machine.tget (fun _ => 0) c.or (i - 812)))
  else if i < 1070 then BitVec.ofNat 8 (Machine.ofSigned 16 c.g45 / 256 ^ (i - 1068))
  else if i < 1072 then BitVec.ofNat 8 (Machine.ofSigned 16 c.o45 / 256 ^ (i - 1070))
  else if i < 1074 then BitVec.ofNat 8 (c.thetaG / 256 ^ (i - 1072))
  else if 1080 ≤ i ∧ i < 1088 then BitVec.ofNat 8 (c.tG / 256 ^ (i - 1080))
  else 0

end Sys2Proof

namespace Sys2Proof.Machine

/-- Byte `i` of the temperature table: 53 entries of g_t, then o_t, each 2 bytes (R104, R184; log 8). -/
def temperatureByte (i : Nat) : BitVec 8 :=
  let v := tableCode (if i % 4 < 2 then Config.gainTable else Config.offsetTable) (i / 4)
  if i < 212 then BitVec.ofNat 8 (ofSigned 16 v / 256 ^ (i % 2)) else 0

/-- Byte `i` of a mould's column baseline: data columns 0 to 255, REF1, REF3 (R115, R118, R184); zero before the first attempt accepted
after a full cast. The encoding is open (log 56). -/
def Mould.baselineByte (m : Mould) (i : Nat) : BitVec 8 :=
  match m.gauging.baseline with
  | none => 0
  | some b => if i < 516 then BitVec.ofNat 8 ((Config.baselineCode (tget (fun _ => 0) b (i / 2))).toNat / 256 ^ (i % 2)) else 0

/-- Byte `a` of a croft's smithy weight store, every region at its offset (R184). -/
def State.storeByte (s : State) (n a : Nat) : BitVec 8 :=
  let c := s.croft n
  if a < 0xB400 then
    let m := c.mould (a / 2560)
    (if a / 1280 % 2 = 0 then m.bank0 else m.bank1).byte (a % 1280)
  else if a < 0xB500 then temperatureByte (a - 0xB400)
  else if a < 0xC000 then 0
  else if a < 0x10000 then
    match c.holding ((a - 0xC000) / 1024) with
    | some m => (c.mould m).baselineByte ((a - 0xC000) % 1024)
    | none => 0
  else c.store.get a

/-- Index of a physical croft among the 1,088 of its die: 34 per row. -/
def padMapIndex (n : Nat) : Nat := 34 * croftRow n + croftCol n

/-- Byte `i` of the die record area of 64 rows of 512 bytes (R202). The header's places are open: version, test date and count lie one
behind the other. DESIGN CHOICE, log 56. -/
def Die.recordByte (x : Die) (i : Nat) : BitVec 8 :=
  if i < 2 then BitVec.ofNat 8 (1 / 256 ^ i)
  else if i < 10 then BitVec.ofNat 8 (x.testDate / 256 ^ (i - 2))
  else if i < 12 then BitVec.ofNat 8 (x.testRows / 256 ^ (i - 10))
  else if i < 512 then 0
  else if i < 512 + 8704 then
    let k := i - 512
    BitVec.ofNat 8 ((tfind x.padMap (padMapKey (64 * (k / 8 / 34) + k / 8 % 34) (k % 8))).getD 0xFF)
  else if i < 18 * 512 then 0
  else if i < 34 * 512 then
    let k := i - 18 * 512
    BitVec.ofNat 8 ((tfind x.granMap (k / 2)).getD 0xFFFF / 256 ^ (k % 2))
  else 0

end Sys2Proof.Machine
end

