-- ==== Sys2Proof/Machine/Stores.lean ====
section
/-!
DEFINITION. The memories of crofts and dies (chapter 05) and the events of the die fabric (chapter 06): parity errors, narrow
accesses, leases, footpath messages, the quench interval.
-/
namespace Sys2Proof.Machine

/-! ### Watch lists and map-outs -/

/-- 7 days, 1 s and 1 ms in ns. -/
def sevenDays : Nat := 604800000000000
def oneSecond : Nat := 1000000000
def oneMs : Nat := 1000000

/-- A watch list after an error in a row it does not hold: entries older than 7 days go, and the oldest goes when the list is
full (R207). -/
def watchAdd (l : List Watch) (size row now : Nat) : List Watch :=
  let fresh := l.filter fun w => decide (now ≤ w.time + sevenDays)
  (if size ≤ fresh.length then fresh.drop (fresh.length + 1 - size) else fresh) ++ [{ row := row, time := now }]

/-- The row is watched. -/
def watched (l : List Watch) (row now : Nat) : Bool := l.any fun w => w.row == row && decide (now ≤ w.time + sevenDays)

/-- A free entry of a croft's pad map: entries 0 to 3 serve the activation pad, 4 to 7 the partial-sum pad (R202). -/
def Die.freePadEntry (d : Die) (n : Nat) (ps : Bool) : Option Nat :=
  (if ps then [4, 5, 6, 7] else [0, 1, 2, 3]).find? fun e => (tfind d.padMap (padMapKey n e)).isNone

/-- A free entry of a slice's granary map (R202). -/
def Die.freeGranEntry (d : Die) (slice : Nat) : Option Nat :=
  (List.range 64).find? fun e => (tfind d.granMap (64 * slice + e)).isNone

/-- Mark a step for re-run after an error; a step that the mark is new to counts (R226). -/
def State.markAndCount (s : State) (step : Nat) (c : Cause) (p : Page) (off : Nat) : State :=
  match s.findStep step with
  | some x => if c ∈ x.marks then s else (s.markStep step c).bump p off 1
  | none => s

/-- The step that an error names is in flight, so that the error marks it. -/
def State.marks (s : State) (step : Nat) : Bool := (s.findStep step).isSome

/-- A pad row fails again in map mode (R207 to R209): it is mapped out, or without a free spare its croft is fenced. -/
def State.padSecond (s : State) (n : Nat) (ps : Bool) (row : Nat) : State :=
  let s2 := s.bump (.pad (croftDie n)) 0x118 1
  match (s.die (croftDie n)).freePadEntry n ps with
  | some e =>
    let drop := fun (l : List Watch) => l.filter fun w => w.row != row
    ((s2.bump (.pad (croftDie n)) 0x120 1).modCroft n fun c =>
      if ps then { c with watchPs := drop c.watchPs } else { c with watchAct := drop c.watchAct }).modDie (croftDie n) fun x => { x with
        padMap := tset x.padMap (padMapKey n e) row, padMapPending := x.padMapPending ++ [(n, e)]
        mapLocked := true, fieldMapped := true }
  | none => s2.fence n

/-- A parity error in a pad row (R204, R207, R209, R210, R213). -/
def State.padError (s : State) (n : Nat) (ps : Bool) (row word step : Nat) : State :=
  let d := croftDie n
  let now := s.reeveTime d
  let at_ := 64 * (s.die d).padRow n ps row + word
  let s1 := ((((s.logError (.pad d) .parity (padAddr (b2n ps) (croftRow n) (croftCol n) row word) 5 n).bump
    (.pad d) 0x100 1).markAndCount step .parity (.pad d) 0x110).gatherMark n step .parity).modCroft n fun c =>
      if ps then { c with psBad := at_ :: c.psBad.filter fun w => w != at_ } else { c with actBad := at_ :: c.actBad.filter fun w => w != at_ }
  if (s.die d).mapMode then
    let list := if ps then (s.croft n).watchPs else (s.croft n).watchAct
    let put := fun (t : State) (l : List Watch) =>
      t.modCroft n fun c => if ps then { c with watchPs := l } else { c with watchAct := l }
    if watched list row now then s1.padSecond n ps row
    else put s1 (watchAdd list 2 row now)
  else if s.marks step = false then s1
  else
    let bells := ((s.croft n).parityBells.filter fun t => decide (s.clock.nextBell ≤ t + oneSecond))
    let bells' := if s.clock.nextBell ∈ bells then bells else bells ++ [s.clock.nextBell]
    let s2 := s1.modCroft n fun c => { c with parityBells := bells' }
    if 3 ≤ bells'.length then s2.fence n else s2

/-! ### The granary's rows and banks (R188 to R191, R208) -/

/-- The row, numbered over the die, that a slice-row is held in: a mapped row lies in its newest spare once the copy has taken effect
(R208). -/
def Die.granRow (x : Die) (slice row : Nat) : Nat :=
  if x.mapMode = false ∨ x.granMap = [] then 2048 * slice + row
  else match (List.range 64).reverse.find? fun e =>
      tfind x.granMap (64 * slice + e) == some row && !decide (64 * slice + e ∈ x.granMapPending) with
    | some e => 2048 * slice + 1984 + e
    | none => 2048 * slice + row

/-- Where the granary holds the byte at a granary address. -/
def Die.granAt (x : Die) (a : Nat) : Nat := 512 * x.granRow (a / 2 ^ 20) (a / 512 % 2048) + a % 512

/-- The byte at a granary address (R188). -/
def Die.granByte (x : Die) (a : Nat) : BitVec 8 := Memory.get x.granary (x.granAt a)

/-- Write the byte at a granary address; a word that is rewritten is no longer in error. -/
def Die.setGran (x : Die) (a : Nat) (b : BitVec 8) : Die :=
  { x with granary := Memory.set x.granary (x.granAt a) b, granBad := x.granBad.filter fun w => w != x.granAt a / 8 }

/-- Bank of element `e` of row `a` (R189). -/
def bankOf (a e : Nat) : Nat := (a % 16 + e) % 16

/-- The element of row `a` that bank `k` holds. -/
def elementIn (a k : Nat) : Nat := (k + 16 - a % 16) % 16

/-- The 32 bytes of bank `k` for row `a` of a slice: a mapped row keeps the rotation of the row it replaces (R189, R208). -/
def Die.bankRead (x : Die) (slice a k : Nat) : List (BitVec 8) :=
  (List.range 32).map fun i => x.granByte (2 ^ 20 * slice + 512 * a + 32 * elementIn a k + i)

/-- A row access: the 16 elements of one row, rotated into element order (R190, R191). -/
def Die.rowAccess (x : Die) (slice a : Nat) : List (BitVec 8) := (List.range 16).flatMap fun e => x.bankRead slice a (bankOf a e)

/-- A column access: element `e` of the 16 rows of a block, rotated into row order (R190, R191). -/
def Die.columnAccess (x : Die) (slice block e : Nat) : List (BitVec 8) :=
  (List.range 16).flatMap fun i => x.bankRead slice (16 * block + i) (bankOf (16 * block + i) e)

/-- Write a whole row. -/
def Die.writeRow (x : Die) (slice a : Nat) (bytes : List (BitVec 8)) : Die :=
  (bytes.take 512).zipIdx.foldl (fun (y : Die) e => y.setGran (2 ^ 20 * slice + 512 * a + e.2) e.1) x

/-- Write a column line. -/
def Die.writeColumn (x : Die) (slice block e : Nat) (bytes : List (BitVec 8)) : Die :=
  (bytes.take 512).zipIdx.foldl (fun (y : Die) b => y.setGran (2 ^ 20 * slice + 512 * (16 * block + b.2 / 32) + 32 * e + b.2 % 32) b.1) x

/-- Zero a slice-row with correct parity (R223). -/
def Die.clearRow (x : Die) (slice a : Nat) : Die :=
  let r := x.granRow slice a
  { x with granary := Memory.clear x.granary (512 * r) 512, granBad := x.granBad.filter fun w => w / 64 != r }

/-- Refuse a die's work for granary rows (R209, R210). -/
def State.refuseRows (s : State) (d : Nat) (rows : List Nat) : State :=
  (s.modDie d fun x => { x with refusedRows := (x.refusedRows ++ rows).eraseDups }).degrade d

/-- A granary row fails again in map mode (R207 to R209). -/
def State.granSecond (s : State) (d slice row : Nat) : State :=
  let s2 := s.bump (.gran d) 0x118 1
  match (s.die d).freeGranEntry slice with
  | some e => (s2.bump (.gran d) 0x120 1).modDie d fun x => { x with
      granWatch := x.granWatch.filter fun w => !(w.1 == slice && w.2.row == row)
      granMap := tset x.granMap (64 * slice + e) row, granMapPending := x.granMapPending ++ [64 * slice + e]
      mapLocked := true, fieldMapped := true }
  | none => s2.refuseRows d [2048 * slice + row]

/-- A parity error in a granary row that a scheduled read found (R204, R207, R209, R210, R213). -/
def State.granError (s : State) (d slice row word step : Nat) : State :=
  let now := s.reeveTime d
  let at_ := 64 * (s.die d).granRow slice row + word
  let s1 := (((s.logError (.gran d) .parity (slice * 2 ^ 20 + row * 512 + word * 8) 4 d).bump (.gran d) 0x108 1).markAndCount
    step .parity (.gran d) 0x110).modDie d fun x => { x with granBad := at_ :: x.granBad.filter fun w => w != at_ }
  if (s.die d).mapMode then
    let list := ((s.die d).granWatch.filter fun e => e.1 == slice).map (·.2)
    let put := fun (t : State) (l : List Watch) => t.modDie d fun x => { x with
      granWatch := (x.granWatch.filter fun e => e.1 != slice) ++ l.map fun w => (slice, w) }
    if watched list row now then s1.granSecond d slice row
    else put s1 (watchAdd list 16 row now)
  else if s.marks step = false then s1
  else
    let old := (s.die d).granParityBells.filter fun e => decide (s.clock.nextBell ≤ e.2.1 + oneSecond)
    let all := old ++ [(slice, s.clock.nextBell, row)]
    let mine := all.filter fun e => e.1 == slice
    let s2 := s1.modDie d fun x => { x with granParityBells := all }
    if 3 ≤ (mine.map (·.2.1)).eraseDups.length then s2.refuseRows d (mine.map fun e => 2048 * slice + e.2.2) else s2

/-- PAD_PARITY_ERROR (R204). -/
def execPadParityError (place : ParityPlace) (step : Nat) (s : State) : Host.Outcome State Fault Refusal :=
  match place with
  | .actPad c row word => .next (s.padError c.num false row.val word.val step)
  | .psPad c row word => .next (s.padError c.num true row.val word.val step)
  | .granary d slice row word => .next (s.granError d.val slice.val row.val word.val step)

/-! ### Smithy weight store -/

/-- A set with the terms of the 8 bytes from `o` at their neutral value, and θ_g all ones (R212; layout of R184). -/
def neutralise (c : CoefSet) (o : Nat) : CoefSet :=
  (List.range 8).foldl (fun a i =>
    let b := o + i
    if b < 278 then { a with gk := tput (fun _ => a.base) a.gk b 128 }
    else if b < 556 then { a with ok := tdrop a.ok (b - 278) }
    else if b < 812 then { a with gr := tput (fun _ => a.base) a.gr (b - 556) 128 }
    else if b < 1068 then { a with or := tdrop a.or (b - 812) }
    else if b < 1070 then { a with g45 := 0 }
    else if b < 1072 then { a with o45 := 0 }
    else a) { c with thetaG := 0xFFFF }

/-- An error in a coefficient set: the active one is neutralised and its mould gauged next, a pending one costs its attempt. -/
def State.setError (s : State) (n m : Nat) (bank1 : Bool) (o : Nat) : State :=
  let x := s.mould n m
  if x.bank = bank1 then
    let c := neutralise x.activeSet o
    s.modMould n m fun y => { y.setActive c with latched := neutralise y.latched o, neutralised := true }
  else if x.pendingSet then (s.modMould n m fun y => { y with pendingSet := false }).rejectAttempt n m
  else s

/-- The 256-byte line of the pattern region as the pattern image has it. -/
def State.imageLine (s : State) (n line : Nat) : Option (List (Nat × BitVec 8)) :=
  match (s.die (croftDie n)).pattern, s.columnOf n with
  | some p, some j =>
    if s.poisonIn p.base p.size then none
    else some (((p.regions.find? fun r => r.row.val == croftRow n && r.lcol.val == j).map fun r =>
      r.lines.filter fun e => e.1 / 256 == line - 384).getD [])
  | _, _ => some []

/-- An error in a line of the pattern region: the step is marked, the line is rewritten from the image, three errors in one
line within 1 s fence the croft, as does an image that reads poisoned (R212, R466). -/
def State.regionError (s : State) (n line step : Nat) : State :=
  let d := croftDie n
  let now := s.reeveTime d
  let old := (s.croft n).lineErrors.filter fun e => decide (now ≤ e.2 + oneSecond)
  let s1 := ((s.markAndCount step .parity (.pad d) 0x110).gatherMark n step .parity).modCroft n fun c => { c with lineErrors := old ++ [(line, now)] }
  if 2 ≤ (old.filter fun e => e.1 == line).length then s1.fence n
  else match s.imageLine n line with
    | none => s1.fence n
    | some bytes => s1.modCroft n fun c =>
        let c1 : Croft := { c with
          store := bytes.foldl (fun m e => Memory.set m (0x18000 + e.1) e.2) (Memory.clear c.store (256 * line) 256) }
        match (s.die d).pattern, s.columnOf n with
        | some p, some j => c1.writeHot p (croftRow n) j c1
        | _, _ => c1

/-- STORE_PARITY_ERROR (R212, R213): by the region of the line and word. -/
def execStoreParityError (croft : CroftAt) (line : Fin 1024) (word : Fin 32) (step : Nat) (s : State) :
    Host.Outcome State Fault Refusal :=
  let n := croft.num
  let d := croft.die.val
  let o := 256 * line.val + 8 * word.val
  let s1 := (s.logError (.pad d) .parity (padAddr 2 (croftRow n) (croftCol n) line.val word.val) 5 n).bump (.pad d) 0x108 1
  if o < 0xB400 then .next (s1.setError n (o / 1280 / 2) (o / 1280 % 2 == 1) (o % 1280))
  else if o < 0xB500 then .next (s1.modCroft n fun c => { c with tableLostAt := some (s.reeveTime d) })
  else if o < 0xC000 then .next s1
  else if o < 0x10000 then
    match (s.croft n).holding ((o - 0xC000) / 1024) with
    | some m => .next (s1.modMould n m fun x => { x with gauging := { x.gauging with baseline := none } })
    | none => .next s1
  else if o < 0x14000 then
    let slot := (o - 0x10000) / 512
    .next ((s1.markAndCount step .parity (.pad d) 0x110).modCroft n fun c => { c with
      moulds := c.moulds.map fun e => (e.1, { e.2 with standins := e.2.standins.map fun x =>
        if x.slot = slot ∧ x.live = true then { x with refetch := true } else x }) })
  else if o < 0x18000 then .next s1
  else .next (s1.regionError n line.val step)

/-! ### Flits, routers, footpath -/

/-- Errors of a link within 1 ms of now. -/
def recentErrors (l : List (Nat × Nat)) (now : Nat) : List (Nat × Nat) := l.filter fun e => decide (now ≤ e.2 + oneMs)

/-- FLIT_PARITY_ERROR (R230): the step is marked, the router counts, and a second error on the link within 1 ms is a router
fault. -/
def execFlitParityError (router : CroftAt) (link : LinkDir) (step : Nat) (s : State) : Host.Outcome State Fault Refusal :=
  let n := router.num
  let now := s.reeveTime router.die.val
  let old := recentErrors (s.croft n).flitErrors now
  let s1 := (s.markStep step .parity).modCroft n fun c => { c with
    routerErrors := c.routerErrors + 1, flitErrors := old ++ [(LinkDir.num link, now)] }
  .next ((if old.any fun e => e.1 == LinkDir.num link then s1.routerFault n else s1).gatherMark n step .parity)

/-- SLOT_TABLE_PARITY_ERROR (R230): a router fault. -/
def execSlotTableParityError (router : CroftAt) (s : State) : Host.Outcome State Fault Refusal := .next (s.routerFault router.num)

/-- FOOTPATH_PARITY_ERROR (R483): the message is discarded; every step in flight on the die is marked at the bell that ends
the round; a second error on the link within 1 ms is a router fault. -/
def execFootpathParityError (router : CroftAt) (link : LinkDir) (s : State) : Host.Outcome State Fault Refusal :=
  let n := router.num
  let d := router.die.val
  let now := s.reeveTime d
  let old := recentErrors (s.croft n).footErrors now
  let s1 := ((s.bump (.foot d) 0x110 1).modDie d fun x => { x with footMarked := true }).modCroft n fun c =>
    { c with footErrors := old ++ [(LinkDir.num link, now)] }
  .next (if old.any fun e => e.1 == LinkDir.num link then s1.routerFault n else s1)

/-- The reeve writes the patch of a row that fits; where it does not fit, the spare goes back to the stock and the die is degraded (R252,
R254). -/
def State.patchDecided (s : State) (d row : Nat) (fits : Bool) : State :=
  let due := fun (j : SpareJob) => j.row == row && j.patchFits.isNone
  if fits then
    s.modDie d fun x => { x with spareJobs := x.spareJobs.map fun j => if due j then { j with patchFits := some true, writing := true } else j }
  else
    let gone := (s.die d).spareJobs.filter due
    let s1 := gone.foldl (fun (t : State) j => t.modCroft j.spare fun c => { c with
      moulds := tmap freshMould (fun _ m => { m with castWaiting := false }) c.moulds }) s
    (s1.modDie d fun x => { x with spareJobs := x.spareJobs.filter fun j => !due j }).degrade d

/-- The reeve's run of the slot tables with the row's patches: those of the spares being brought in fit, and the die has a pattern to patch
or nothing to patch (R252). -/
def State.rowFits (s : State) (d row : Nat) : Bool :=
  (s.die d).pattern.all fun p => ((s.die d).spareJobs.filter fun j => j.row == row && j.patchFits.isNone).all fun j =>
    detourFits p row (physColumn j.column) (croftCol j.spare)

/-- DETOUR_FIT (R252, R254): the reeve's run of the slot tables decides whether the row's patch fits: no flit later than 2 × A
cycles and no detour buffer above 4 flits; a patch that does not fit degrades the die. -/
def execDetourFit (die : DieId) (row : Fin 32) (s : State) : Host.Outcome State Fault Refusal :=
  let d := die.val
  if (s.die d).spareJobs.any fun j => j.row == row.val && j.patchFits.isNone then
    .next (s.patchDecided d row.val (s.rowFits d row.val))
  else .next s

/-- A mark that a croft has gathered reaches the hub, and the step carries it. -/
def State.takeMark (s : State) (n : Nat) (k : Nat × Cause) : State :=
  match k.2 with
  | .suspect => s.markSuspect k.1 n none
  | c => s.markStep k.1 c

/-- The MARK message of a croft (R246, R247): one for a round, which names each lane that the croft has marked in it. A croft without marks
sends none; marks that come after it went in the round are gathered with it. The model enters a mark in its step when it is raised, and
R243 has it there before the bell. DESIGN CHOICE, log 113. -/
def State.sendMark (s : State) (n : Nat) : State :=
  let c := s.croft n
  if c.gathered.isEmpty then s
  else
    let s1 := (c.gathered.foldl (fun (t : State) k => t.takeMark n k) s).modCroft n fun c => { c with markSent := true }
    if c.markSent then s1 else s1.bump (.foot (croftDie n)) 0x100 1

/-- MARK (R247): the croft's gathered marks reach the reeve. -/
def execMark (croft : CroftAt) (s : State) : Host.Outcome State Fault Refusal := .next (s.sendMark croft.num)

/-- BARRIER (R247, R248): an arrival, behind the member's MARK message if that is still outstanding; the reeve releases the barrier when the
last member's arrival reaches it. -/
def execBarrier (die : DieId) (number : Nat) (members : List CroftAt) (member : CroftAt) (s0 : State) :
    Host.Outcome State Fault Refusal :=
  let d := die.val
  let s := if (s0.croft member.num).markSent then s0 else s0.sendMark member.num
  let all := (members.map (·.num)).eraseDups
  let arrived := match tfind (s.die d).barriers number with
    | some b => if b.released then [] else b.arrived
    | none => []
  let arrived' := if member.num ∈ arrived ∨ member.num ∉ all then arrived else arrived ++ [member.num]
  let released := all.all fun n => decide (n ∈ arrived')
  let s1 := s.modDie d fun x => { x with
    barriers := tset x.barriers number { members := all, arrived := arrived', released := released } }
  let s2 := s1.bump (.foot d) 0x100 (1 + (if released then all.length else 0))
  .next (if released then s2.bump (.foot d) 0x118 1 else s2)

/-! ### Gather buffer -/

/-- Lengths and alignments of R194. -/
def narrowOk (addr len : Nat) : Bool := decide (len ∈ [8, 16, 32, 64, 128, 256, 512]) && addr % len == 0

/-- A granary slice-row is powered (R214, R215): group row ÷ 256 of the slice's mask; in map mode its spare rows whenever any group is. -/
def Die.powered (x : Die) (slice row : Nat) : Bool :=
  let mask := tget (fun _ => (0 : BitVec 8)) x.powerGran slice
  if x.mapMode = true ∧ 1984 ≤ row then mask != 0 else mask.toNat.testBit (row / 256)

/-- A pad row of the die's crofts is powered (R214, R215): 64 rows per group, the spare rows whenever any group is. -/
def Die.padPowered (x : Die) (ps : Bool) (row : Nat) : Bool :=
  if ps then (if x.mapMode = true ∧ 124 ≤ row then x.powerPs != 0 else x.powerPs.toNat.testBit (row / 64))
  else if x.mapMode = true ∧ 252 ≤ row then x.powerAct != 0 else x.powerAct.toNat.testBit (row / 64)

/-- The loaded pattern owns a row (R192). -/
def Die.owned (x : Die) (slice row : Nat) : Bool :=
  match x.pattern with
  | some p => p.owned.any fun o => o.slice.val == slice && decide (o.first ≤ row) && decide (row ≤ o.last)
  | none => false

def Die.lease (x : Die) (slice : Nat) : Lease := tget (fun _ => {}) x.leases slice
def Die.modLease (x : Die) (slice : Nat) (f : Lease → Lease) : Die := { x with leases := tmod (fun _ => {}) x.leases slice f }

/-- Why the gather buffer refuses an access (R188, R194, R195). -/
def Die.narrowRefusal (x : Die) (addr len epoch : Nat) : Option Code :=
  let slice := addr / 2 ^ 20
  let row := addr / 512 % 2048
  if narrowOk addr len = false ∨ 2 ^ 26 ≤ addr ∨ (x.mapMode = true ∧ 1983 < row) then some .length
  else if x.owned slice row then some .auth
  else if x.powered slice row = false then some .auth
  else if (x.lease slice).epoch.toNat ≠ epoch then some .epoch
  else if 2048 * slice + row ∈ x.refusedRows then some .auth
  else none

def holderSrc (d : Nat) : Holder → Nat × Nat
  | .reeve => (4, d)
  | .dma c => (3, c)
  | .core c => (2, c.val)

/-- Answer a narrow requester. -/
def State.reply (s : State) (d : Nat) (r : Reply) : State := s.modDie d fun x => { x with reply := r }

/-- Refuse a narrow access: an error response, logged in the GRAN page (R195). -/
def State.refuseNarrow (s : State) (d addr : Nat) (c : Code) (h : Holder) : State :=
  (s.logError (.gran d) c addr (holderSrc d h).1 (holderSrc d h).2).reply d { code := some c }

/-- The entry of a slice-row in the gather buffer. -/
def Die.entryOf (x : Die) (row : Nat) : Option GatherEntry := x.gather.find? fun e => e.row == row

/-- The newest byte of a granary address: an entry's, else the row's (R196). -/
def Die.narrowByte (x : Die) (a : Nat) : BitVec 8 :=
  match (x.entryOf (a / 512)).bind fun e => tfind e.bytes (a % 512) with
  | some b => b
  | none => x.granByte a

/-- Write an entry back to its row (R197). -/
def Die.writeBack (x : Die) (e : GatherEntry) : Die :=
  { e.bytes.foldl (fun (y : Die) b => y.setGran (512 * e.row + b.1) b.2) x with gather := x.gather.filter fun k => k.row != e.row }

/-- Write an entry back and count a partial one (R197, R226). -/
def State.writeBack (s : State) (d : Nat) (e : GatherEntry) : State :=
  let s1 := s.modDie d fun x => x.writeBack e
  if e.bytes.length < 512 then s1.bump (.gran d) 0x140 1 else s1

/-- NARROW_READ (R194 to R196, R211). -/
def execNarrowRead (die : DieId) (addr len epoch : Nat) (requester : Holder) (parityError : Bool) (s : State) :
    Host.Outcome State Fault Refusal :=
  let d := die.val
  let x := s.die d
  match x.narrowRefusal addr len epoch with
  | some c => .next (s.refuseNarrow d addr c requester)
  | none =>
    let data := (List.range len).map fun i => x.narrowByte (addr + i)
    let whole := match x.entryOf (addr / 512) with
      | some e => (List.range len).all fun i => (tfind e.bytes ((addr + i) % 512)).isSome
      | none => false
    if parityError ∧ whole = false then
      let s1 := ((s.logError (.gran d) .parity addr (holderSrc d requester).1 (holderSrc d requester).2).bump (.gran d) 0x108 1)
      .next (s1.reply d { code := some .parity, data := if requester = .reeve then [] else data, poison := requester ≠ .reeve })
    else .next ((s.bump (.gran d) 0x130 1).reply d { data := data })

/-- Hub firmware assigns an open row to the session or job it writes it for (R219, R220). DESIGN CHOICE, log 54. -/
def Die.assignRow (x : Die) (row : Nat) : Option Nat → Die
  | none => x
  | some c => if (c, row) ∈ x.openRows then x else { x with openRows := x.openRows ++ [(c, row)] }

/-- NARROW_WRITE (R194, R195, R197). -/
def execNarrowWrite (die : DieId) (addr epoch : Nat) (data : List (BitVec 8)) (requester : Holder) (context : Option Nat) (s : State) :
    Host.Outcome State Fault Refusal :=
  let d := die.val
  let x := s.die d
  match x.narrowRefusal addr data.length epoch with
  | some c => .next (s.refuseNarrow d addr c requester)
  | none =>
    let row := addr / 512
    let s0 := ((s.bump (.gran d) 0x138 1).reply d {}).modDie d fun y => y.assignRow row context
    if data.length = 512 then
      let s1 := match x.entryOf row with
        | some e => s0.writeBack d e
        | none => s0
      .next (s1.modDie d fun y => y.writeRow (addr / 2 ^ 20) (addr / 512 % 2048) data)
    else
      let fresh := (x.entryOf row).isNone
      -- a fifth row takes the place of the oldest entry
      let s1 := if fresh ∧ 4 ≤ x.gather.length then
        match x.gather with
        | e :: _ => s0.writeBack d e
        | [] => s0
        else s0
      let old := ((x.entryOf row).map (·.bytes)).getD []
      let bytes := (List.range data.length).foldl (fun m i => tset m ((addr + i) % 512) ((data[i]?).getD 0)) old
      let entry : GatherEntry := { row := row, bytes := bytes, last := s.reeveTime d }
      let s2 := s1.modDie d fun y => { y with gather :=
        if fresh then y.gather ++ [entry] else y.gather.map fun k => if k.row = row then entry else k }
      .next (if bytes.length = 512 then s2.writeBack d entry else s2)

/-- GATHER_WRITEBACK (R197): 128 ns after its last write an entry goes back to its row. -/
def execGatherWriteback (die : DieId) (entry : Fin 4) (s : State) : Host.Outcome State Fault Refusal :=
  match (s.die die.val).gather[entry.val]? with
  | some e => .next (if e.last + 128 ≤ s.reeveTime die.val then s.writeBack die.val e else s)
  | none => .next s

/-! ### Leases -/

/-- A lease ends, whatever the cause: the epoch goes up by one, modulo 2^32 (R259). -/
def Lease.finish (l : Lease) : Lease := if l.held then { l with held := false, epoch := l.epoch + 1, ends := 0 } else l

/-- The slice leases that a hub's DMA channels hold end with their holder's fault (R259, R468, R485): of one channel, or of every one. -/
def State.revokeDma (s : State) (h : Nat) (channels : Option (List Nat)) : State :=
  (List.range 4).foldl (fun (t : State) i => t.modDie (4 * h + i) fun x => { x with leases := x.leases.map fun e =>
    match e.2.holder with
    | .dma c => if channels.all fun l => decide (c ∈ l) then (e.1, e.2.finish) else e
    | _ => e }) s

/-- A write to GRAN.LEASE_REVOKE (R259) ends the named slice's lease; REVOKE is an urgent message. -/
def State.writeLeaseRevoke (s : State) (d : Nat) (v : Word) : State :=
  (s.modDie d fun x => x.modLease (v.field 0 6) Lease.finish).bump (.foot d) 0x100 1

/-! ### Scheduled transfers (R156, R180, R181, R182, R190, R228, R244) -/

/-- Rows of a pad zeroed with correct parity. -/
def Croft.clearAct (c : Croft) (row : Nat) : Croft :=
  { c with actPad := Memory.clear c.actPad (512 * row) 512, actBad := c.actBad.filter fun w => w / 64 != row }

def Croft.clearPs (c : Croft) (phys row : Nat) : Croft :=
  { c with
    psPad := Memory.clear c.psPad (512 * phys) 512, psBad := c.psBad.filter fun w => w / 64 != phys
    satMarks := c.satMarks.filter fun a => a / 128 != row
    accSpans := c.accSpans.filter fun e => e.1 / 128 != row }

/-- The 512 bytes of a usable pad row, through the row map (R183). -/
def State.readPadRow (s : State) (n : Nat) (ps : Bool) (p : Nat) : List (BitVec 8) :=
  let x := s.die (croftDie n)
  if p < x.padRows ps then
    Memory.getBytes (if ps then (s.croft n).psPad else (s.croft n).actPad) (x.padAt n ps (512 * p)) 512
  else []

/-- Usable rows of a slice (R188): the spare rows are reached only through the row map. -/
def Die.granRows (x : Die) : Nat := if x.mapMode then 1984 else 2048

/-- A place that a scheduled transfer reaches: a usable pad row, or a row or a block of rows that the pattern owns in a slice (R181, R183,
R188, R190, R192). -/
def Die.reaches (x : Die) : RowPlace → Bool
  | .act _ _ p => decide (p < x.padRows false)
  | .ps _ _ p => decide (p < x.padRows true)
  | .gran k a => decide (a < x.granRows) && x.owned k.val a
  | .column k b e => decide (e < 16) && (List.range 16).all fun i => decide (16 * b + i < x.granRows) && x.owned k.val (16 * b + i)

/-- The 512 bytes of a place, through the coordinate map and the row maps. -/
def State.readPlace (s : State) (d : Nat) : RowPlace → List (BitVec 8)
  | .act r j p => s.readPadRow (s.physOf d r.val j.val) false p
  | .ps r j p => s.readPadRow (s.physOf d r.val j.val) true p
  | .gran k a => (s.die d).rowAccess k.val a
  | .column k b e => (s.die d).columnAccess k.val b e

/-- σ of the vector staged in a place. The rows of a block that column lines read and write carry one σ (R155): that of its first row.
DESIGN CHOICE, log 108. -/
def State.placeSigma (s : State) (d : Nat) : RowPlace → BitVec 16
  | .act r j p => (s.croft (s.physOf d r.val j.val)).sigmaOf p
  | .gran k a => tget (fun _ => 0) (s.die d).granSigmas (2048 * k.val + a)
  | .column k b _ => tget (fun _ => 0) (s.die d).granSigmas (2048 * k.val + 16 * b)
  | .ps _ _ _ => 0

/-- Write a pad row with its σ (activation pad), or with the saturated marks of its accumulators (partial-sum pad). -/
def State.writePadRow (s : State) (n : Nat) (ps : Bool) (row : Nat) (bytes : List (BitVec 8)) (sigma : BitVec 16) : State :=
  let p := (s.die (croftDie n)).padRow n ps row
  s.modCroft n fun c =>
    if ps then { c.clearPs p row with psPad := Memory.setBytes (c.clearPs p row).psPad (512 * p) (bytes.take 512) }
    else { c.clearAct p with actPad := Memory.setBytes (c.clearAct p).actPad (512 * p) (bytes.take 512)
                             sigmas := tput (fun _ => 0) c.sigmas row sigma }

/-- Write a place; a pad outside its rows has none. -/
def State.writePlace (s : State) (d : Nat) (at_ : RowPlace) (bytes : List (BitVec 8)) (sigma : BitVec 16) : State :=
  match at_ with
  | .act r j p => if p < (s.die d).padRows false then s.writePadRow (s.physOf d r.val j.val) false p bytes sigma else s
  | .ps r j p => if p < (s.die d).padRows true then s.writePadRow (s.physOf d r.val j.val) true p bytes 0 else s
  | .gran k a => s.modDie d fun x => { x.writeRow k.val a bytes with granSigmas := tput (fun _ => 0) x.granSigmas (2048 * k.val + a) sigma }
  | .column k b e => s.modDie d fun x => { x.writeColumn k.val b e bytes with
      granSigmas := (List.range 16).foldl (fun t i => tput (fun _ => 0) t (2048 * k.val + 16 * b + i) sigma) x.granSigmas }

/-- A place whose croft has stopped takes and gives nothing (R250). -/
def State.placeStopped (s : State) (d : Nat) : RowPlace → Bool
  | .act r j _ => (s.croft (s.physOf d r.val j.val)).stopped
  | .ps r j _ => (s.croft (s.physOf d r.val j.val)).stopped
  | _ => false

/-- Accumulators of a partial-sum row that carry a saturated mark, by their place in the row. -/
def State.rowMarks (s : State) (d : Nat) : RowPlace → List Nat
  | .ps r j p => ((s.croft (s.physOf d r.val j.val)).satMarks.filter fun a => a / 128 == p).map (· % 128)
  | _ => []

/-- A saturated mark stays with a sum that moves from pad to pad (R163). -/
def State.carryMarks (s : State) (d : Nat) (at_ : RowPlace) (marks : List Nat) : State :=
  match at_ with
  | .ps r j p => s.modCroft (s.physOf d r.val j.val) fun c => { c with satMarks := c.satMarks ++ marks.map (128 * p + ·) }
  | _ => s

/-- A place of a die that takes and gives scheduled data now (R192, R250). -/
def State.placeServes (s : State) (d : Nat) (p : RowPlace) : Bool := !s.placeStopped d p && (s.die d).reaches p

/-- One scheduled transfer: what it moves is read as it was before the transfers of its cycle (R182). -/
def State.transfer (s before : State) (d : Nat) (t : TransferPlan) : State :=
  if (s.placeServes d t.src && s.placeServes d t.dst) = false then s
  else (s.writePlace d t.dst (before.readPlace d t.src) (before.placeSigma d t.src)).carryMarks d t.dst (before.rowMarks d t.src)

/-- Transfers by rising cycle, those of one cycle in the pattern's order. -/
def byCycle (l : List TransferPlan) : List TransferPlan := (l.foldl (fun m t => tinsert m t.cycle t) []).map (·.2)

/-- Transfers that have fallen due are made cycle by cycle; the reads of a cycle come before its writes (R182). -/
def State.transferAll (s : State) (d : Nat) (l : List TransferPlan) : State :=
  ((byCycle l).foldl (fun (a : State × State × Nat) k =>
    let before := if k.cycle = a.2.2 then a.2.1 else a.1
    (a.1.transfer before d k, before, k.cycle)) (s, s, 0)).1

/-- Device time at which a scheduled transfer of the round has arrived: the schedule begins 32 ns after the bell (R242). -/
def State.transferTime (s : State) (t : TransferPlan) : Nat := s.clock.lastBell + 32 + t.cycle / 2

/-- The scheduled transfers of a die that fall due up to a time are made (R228). The table has no command for them: they are made as time passes. DESIGN CHOICE, log 55. -/
def State.transfersTo (s : State) (d now : Nat) : State :=
  let x := s.die d
  match x.pattern with
  | none => s
  | some p =>
    if now ≤ x.ranTo then s
    else
      let due := p.transfers.filter fun t => decide (x.ranTo < s.transferTime t) && decide (s.transferTime t ≤ now)
      (s.transferAll d due).modDie d fun y => { y with ranTo := now }

/-- The schedule of a round has ended on a die (R242). -/
def State.finishTransfers (s : State) (d : Nat) : State :=
  match (s.die d).pattern with
  | none => s
  | some p => s.transfersTo d (s.clock.lastBell + 32 + p.cycles / 2)

/-- On every die. -/
def State.allTransfers (s : State) (now : Nat) : State := (List.range 16).foldl (fun (t : State) d => t.transfersTo d now) s

/-! ### Quench -/

/-- Rows a quench zeroes on one die: pad rows and store lines as (croft, memory, row), granary rows. -/
structure QuenchSet where
  act : List (Nat × Nat) := []
  ps : List (Nat × Nat) := []
  lines : List (Nat × Nat) := []
  gran : List Nat := []
  deriving DecidableEq, Repr

/-- The pattern whose lane map the quench uses: the one that runs, else the last that ran. -/
def Die.ranPattern (x : Die) : Option PatternImage :=
  match x.pattern with
  | some p => some p
  | none => x.lastPattern

/-- The rows of the lanes, open rows and job lines that are due, usable rows all of them (R183, R188, R218, R220). -/
def State.quenchSet (s : State) (d : Nat) : QuenchSet :=
  let x := s.die d
  let maps : List LaneRows := match x.ranPattern with
    | some p => p.laneMap.filter fun (e : LaneRows) => x.quenchAll || decide ((e.lane, e.stage) ∈ x.quenchLanes)
    | none => []
  let at_ := fun (e : LaneRows) => s.physOf d e.row.val e.lcol.val
  let opened := x.openRows.filter fun e => x.quenchAll || decide (e.1 ∈ x.quenchContexts)
  let below := fun (k : Nat) (l : List Nat) => l.filter fun r => decide (r < k)
  { act := (maps.flatMap fun e => (below (x.padRows false) e.act).map fun r => (at_ e, r)).eraseDups
    ps := (maps.flatMap fun e => (below (x.padRows true) e.ps).map fun r => (at_ e, r)).eraseDups
    lines := ((maps.flatMap fun e => (below 1024 e.lines).map fun r => (at_ e, r)) ++ x.quenchLines).eraseDups
    gran := ((maps.flatMap fun (e : LaneRows) => (e.gran.filter fun g => decide (g.2 < x.granRows)).map fun (g : Nat × Nat) => 2048 * g.1 + g.2) ++
      opened.map (·.2)).eraseDups }

/-- Zero the set, drop gather entries of quenched rows without writing them back (R198), count the rows (R226). -/
def State.applyQuench (s : State) (d : Nat) (q : QuenchSet) : State :=
  let x := s.die d
  let s1 := q.act.foldl (fun (t : State) e => t.modCroft e.1 fun c => c.clearAct (x.padRow e.1 false e.2)) s
  let s2 := q.ps.foldl (fun (t : State) e => t.modCroft e.1 fun c => c.clearPs (x.padRow e.1 true e.2) e.2) s1
  let s3 := q.lines.foldl (fun (t : State) e => t.modCroft e.1 fun c => { c with store := Memory.clear c.store (256 * e.2) 256 }) s2
  let s4 := s3.modDie d fun x => { q.gran.foldl (fun (y : Die) r => y.clearRow (r / 2048) (r % 2048)) x with
    gather := x.gather.filter fun e => !decide (e.row ∈ q.gran)
    openRows := x.openRows.filter fun e => !(x.quenchAll || decide (e.1 ∈ x.quenchContexts)) }
  (s4.bump (.pad d) 0x128 (q.act.length + q.ps.length + q.lines.length)).bump (.gran d) 0x128 q.gran.length

/-- The rows and lines that an abandoned cast has staged row groups in (R81, R184, R222): 33 store lines of the casting area, or the pad rows
that the slot's part of the image buffer touches, by croft, memory and row. -/
def castRows (e : Nat × Nat × Bool) : List (Nat × Bool × Nat) :=
  if e.2.2 then (List.range 33).map fun i => (e.1, true, i)
  else (List.range ((8448 * e.2.1 + 8447) / 512 - 8448 * e.2.1 / 512 + 1)).map fun i => (e.1, false, 8448 * e.2.1 / 512 + i)

/-- What an abandoned cast has staged is zeroed with correct parity (R222, R223): in the casting area where it streamed through that, else
the slot's part of the image buffer. -/
def State.quenchCast (s : State) (n slot : Nat) (area : Bool) : State :=
  if area then s.modCroft n fun c => { c with store := Memory.clear c.store 0x14000 8448 }
  else
    let x := s.die (croftDie n)
    let a := 8448 * slot
    let cut := x.bufferSplit - a
    let ps := fun (c : Croft) => if cut < 8448 then
        { c with psPad := x.clearPad n true c.psPad (a + cut - x.bufferSplit) (8448 - cut)
                 psBad := x.clearBad n true c.psBad (a + cut - x.bufferSplit) (8448 - cut) }
      else c
    s.modCroft n fun c => ps { c with
      actPad := x.clearPad n false c.actPad a (min 8448 cut), actBad := x.clearBad n false c.actBad a (min 8448 cut) }

/-- Abandoned casts are quenched, and every row is counted once (R222, R226). -/
def State.quenchCasts (s : State) (d : Nat) (l : List (Nat × Nat × Bool)) : State :=
  (l.foldl (fun (t : State) e => t.quenchCast e.1 e.2.1 e.2.2) s).bump (.pad d) 0x128 ((l.flatMap castRows).eraseDups).length

/-- Rows and lines of one croft: its usable pad rows and its store lines (R183). -/
def Die.croftRows (x : Die) : Nat := if x.mapMode then 252 + 124 + 1024 else 256 + 128 + 1024

/-- A fenced croft's rows are zeroed, and its pads and store lose their power (R250). -/
def State.quenchCroft (s : State) (n : Nat) : State :=
  (s.modCroft n fun c => c.zeroFilled).bump (.pad (croftDie n)) 0x128 (s.die (croftDie n)).croftRows

/-- QUENCH_INTERVAL (R220 to R223, R250): the round's scheduled transfers have been made; released lanes, contexts and jobs, abandoned
casts and fenced crofts are zeroed. -/
def execQuenchInterval (die : DieId) (s : State) : Host.Outcome State Fault Refusal :=
  let d := die.val
  let s0 := s.finishTransfers d
  let x := s0.die d
  let s1 := s0.applyQuench d (s0.quenchSet d)
  let s2 := s1.quenchCasts d x.quenchCasts
  let s3 := x.quenchCrofts.foldl (fun (t : State) n => t.quenchCroft n) s2
  .next (s3.modDie d fun y => { y with
    quenchLanes := [], quenchContexts := [], quenchLines := [], quenchCrofts := [], quenchCasts := [], quenchAll := false })

end Sys2Proof.Machine
end

