-- ==== Sys2Proof/Machine/Attention.lean ====
section
/-!
DEFINITION. Attention (R262 to R285, R294 to R298) and attend-at-store (R315 to R320): exchanges, descriptors, engines, the
merge unit and remote requests.
-/
namespace Sys2Proof.Machine

/-! ### Scores and the online softmax -/

/-- A key with its value as an engine reads them: position, scale bytes and codes. -/
structure KeyVal where
  pos : Nat
  kScale : Nat
  kCodes : List Int
  vScale : Nat
  vCodes : List Int
  deriving DecidableEq, Repr

/-- Flushes and clipped scores of a run (R269, R280). -/
structure SoftCount where
  flushes : Nat := 0
  clips : Nat := 0
  deriving DecidableEq, Repr

def SoftCount.add (a b : SoftCount) : SoftCount := ⟨a.flushes + b.flushes, a.clips + b.clips⟩

def dotInt (a b : List Int) : Int := (List.zipWith (· * ·) a b).foldl (· + ·) 0

/-- The score of a query and a key, as a binary16 value in binary32, and whether it was held at ±65,504 (R269). -/
def score (q : Query) (tau : BitVec 16) (k : KeyVal) : B32 × Nat :=
  if k.kScale = 0 then (F32.ofInt 0, 0)
  else
    let p := F32.mul (F32.mul (F32.mul (F32.ofInt (dotInt q.codes k.kCodes)) (F32.of16 q.sigma))
      (F32.enc (Fl.ofRat (scaleOf k.kScale)))) (F32.of16 tau)
    match F16.dec (F16.of32 p) with
    | .inf neg => (F32.ofInt (if neg then -65504 else 65504), 1)
    | x => (F32.enc x, 0)

/-- A decoded value element (R270). -/
def valueOf (k : KeyVal) (c : Int) : B32 := if k.vScale = 0 then F32.ofInt 0 else F32.enc (Fl.ofRat (c * scaleOf k.vScale))

/-- A product with its flush (R280): both factors differ from zero and the product is zero. -/
def mulFlush (a b : B32) : B32 × Nat :=
  let p := F32.mul a b
  let zero := fun (x : B32) => match F32.dec x with
    | .num _ r => decide (r = 0)
    | _ => false
  (p, if zero p && !zero a && !zero b then 1 else 0)

/-- An exponential with its flush (R280): the exponential of a number is never zero, so a zero is a flushed result. -/
def expFlush (a : B32) : B32 × Nat :=
  let e := F32.exp a
  match F32.dec a with
  | .num _ _ => (e, if e = 0 then 1 else 0)
  | _ => (e, 0)

/-- Every element times a factor. -/
def scaleVec (v : List B32) (f : B32) : List B32 × Nat :=
  let r := v.map fun x => mulFlush x f
  (r.map (·.1), r.foldl (fun n x => n + x.2) 0)

/-- The state before any key (R278). -/
def SoftState.start : SoftState := { m := none, l := F32.ofInt 0, acc := List.replicate 128 (F32.ofInt 0), poison := false }

/-- Lowest position a query admits (R271). -/
def lowBound (window floor pos : Nat) : Nat := if window = 0 then floor else max floor (pos + 1 - window)

/-- Key j is admissible for a query (R271). -/
def admissible (window floor : Nat) (q : Query) (pos : Nat) : Bool :=
  decide (lowBound window floor q.position ≤ pos) && decide (pos ≤ q.position)

/-- One key's contribution (R278). -/
def softKey (a : SoftState × SoftCount) (k : KeyVal) (s m : B32) : SoftState × SoftCount :=
  let p := expFlush (F32.sub s m)
  let prods := k.vCodes.map fun c => mulFlush p.1 (valueOf k c)
  ({ a.1 with l := F32.add a.1.l p.1, acc := List.zipWith (fun x y => F32.add x y.1) a.1.acc prods },
    a.2.add ⟨p.2 + prods.foldl (fun n x => n + x.2) 0, 0⟩)

/-- One block of up to 64 slots for one query (R278, R279). -/
def softBlock (q : Query) (tau : BitVec 16) (window floor : Nat) (a : SoftState × SoftCount) (block : List KeyVal) :
    SoftState × SoftCount :=
  let adm := block.filter fun k => admissible window floor q k.pos
  match adm.map fun k => (k, score q tau k) with
  | [] => a
  | first :: rest =>
    let b := rest.foldl (fun m x => F32.max m x.2.1) first.2.1
    let a1 := (a.1, a.2.add ⟨0, (first :: rest).foldl (fun n x => n + x.2.2) 0⟩)
    let a2 := match a1.1.m with
      | none => ({ a1.1 with m := some b }, a1.2)
      | some m =>
        if F32.lt m b then
          let f := expFlush (F32.sub m b)
          let l := mulFlush a1.1.l f.1
          let v := scaleVec a1.1.acc f.1
          ({ a1.1 with m := some b, l := l.1, acc := v.1 }, a1.2.add ⟨f.2 + l.2 + v.2, 0⟩)
        else a1
    let m := a2.1.m.getD b
    (first :: rest).foldl (fun (x : SoftState × SoftCount) e => softKey x e.1 e.2.1 m) a2

/-- Runs of 64. -/
def blocksOf {α : Type} : Nat → List α → List (List α)
  | 0, _ => []
  | n + 1, l => if l.isEmpty then [] else l.take 64 :: blocksOf n (l.drop 64)

/-- The partial state of one query over the keys of a descriptor (R278). -/
def softRun (q : Query) (tau : BitVec 16) (window floor : Nat) (keys : List KeyVal) : SoftState × SoftCount :=
  (blocksOf (keys.length / 64 + 1) keys).foldl (softBlock q tau window floor) (SoftState.start, {})

/-- merge(a, b) (R281), poison kept from either side. -/
def softMerge (a b : SoftState) : SoftState × SoftCount :=
  let p := a.poison || b.poison
  match a.m, b.m with
  | _, none => ({ a with poison := p }, {})
  | none, some _ => ({ b with poison := p }, {})
  | some x, some y =>
    let m := F32.max x y
    let fa := expFlush (F32.sub x m)
    let fb := expFlush (F32.sub y m)
    let la := mulFlush a.l fa.1
    let lb := mulFlush b.l fb.1
    let va := scaleVec a.acc fa.1
    let vb := scaleVec b.acc fb.1
    ({ m := some m, l := F32.add la.1 lb.1, acc := List.zipWith F32.add va.1 vb.1, poison := p },
      ⟨fa.2 + fb.2 + la.2 + lb.2 + va.2 + vb.2, 0⟩)

/-- The output of a query and its EMPTY mark (R282): the zero vector where no key was admitted. -/
def SoftState.output (x : SoftState) : List B32 × Bool :=
  match x.m with
  | none => (List.replicate 128 (F32.ofInt 0), true)
  | some _ => (x.acc.map fun v => F32.div v x.l, false)

/-- The smithy stages a query head vector (R268): σ_q is the smallest binary16 value that is at least max|x| ÷ 127, 2^−14 for a zero
vector, and the codes are those of R156, held to −128 to +127 as they are there. -/
def stageQuery (q : QueryIn) : Query :=
  let sigma := ceil16 (peakOf q.elements / 127)
  { head := q.head, position := q.position, sigma := sigma, codes := q.elements.map fun x => max (-128) (min 127 (stageCode sigma x)) }

/-! ### Descriptors (R272) -/

/-- The 64 bytes of a descriptor. -/
def Descriptor.bytes (d : Descriptor) : List (BitVec 8) :=
  leBytes 8 d.seq ++ leBytes 2 d.context ++ leBytes 1 d.layer ++ leBytes 1 (d.head % 16 + 16 * b2n d.kv8) ++ leBytes 1 d.queryCount ++
    leBytes 1 0 ++ leBytes 2 d.keyFirst ++ leBytes 2 d.keyCount ++ leBytes 2 d.partIndex ++ leBytes 4 d.firstPosition ++ leBytes 2 d.qset ++
    leBytes 2 0 ++ leBytes 2 d.tau.toNat ++ leBytes 2 d.window ++ leBytes 4 d.floor ++ leBytes 4 d.epoch ++ leBytes 3 d.page ++ leBytes 21 0

/-- What an engine reads from the 64 bytes of a slot. -/
def Descriptor.ofBytes (b : List (BitVec 8)) : Descriptor :=
  let n := fun (o k : Nat) => leNat ((b.drop o).take k)
  { seq := n 0 8, context := n 8 2, layer := n 10 1, kv8 := n 11 1 / 16 % 2 == 1, head := n 11 1 % 16, queryCount := n 12 1, keyFirst := n 14 2
    keyCount := n 16 2, partIndex := n 18 2, firstPosition := n 20 4, qset := n 24 2, tau := BitVec.ofNat 16 (n 28 2), window := n 30 2
    floor := n 32 4, epoch := n 36 4, page := n 40 3 }

/-- Limits of the descriptor table (R272), lower code first. -/
def Descriptor.check (d : Descriptor) : Option Code :=
  let cap := slotsPerPage d.kv8
  if d.queryCount = 0 ∨ 32 < d.queryCount then some .length
  else if d.keyCount = 0 ∨ cap ≤ d.keyFirst ∨ cap < d.keyFirst + d.keyCount then some .length
  else if 1023 < d.partIndex then some .length
  else if !F16.isPositiveNormal d.tau then some .format
  else none

/-! ### Engines -/

/-- Hub SRAM offset of a queue slot (R274, R548; log 20). -/
def slotAddr (e slot : Nat) : Nat := 4096 * e + 64 * slot

/-- A refusal or abandonment of an engine (R277). -/
def State.attnError (s : State) (h e slot : Nat) (c : Code) : State := s.logError (.attn h) c (slotAddr e slot) 6 (64 * h + e)

/-- The engine a control core gives the next descriptor to: the shortest queue, lowest number first (log 20). -/
def HubAttn.pick (h : HubAttn) : Nat :=
  (List.range 64).foldl (fun b e => if (h.engine e).slots.length < (h.engine b).slots.length then e else b) 0

/-- The live control core that is granted an engine's lease (R266, R484; log 42). -/
def HubAttn.leaseCore (x : HubAttn) (h e : Nat) : Fin 16 :=
  let c : Fin 16 := (Config.leaseCore h e).toFin
  if c.val ∈ x.coresHalted then ((List.finRange 16).find? fun k => decide (k.val ∉ x.coresHalted)).getD 0 else c

/-- The engine's lease is granted again where nobody holds it, and a halted queue is restarted under the next epoch, before its next use
(R266, R275). The term is the free value of log 42. -/
def State.readyEngine (s : State) (h e : Nat) : State :=
  let now := s.hubTime h
  let core := (s.hub h).leaseCore h e
  s.modHub h fun x => x.modEngine e fun y =>
    let z := if y.halted then { y with lease := { y.lease with epoch := y.lease.epoch + 1 }, slots := [], expected := y.produced, halted := false }
      else y
    if z.lease.held then z
    else { z with lease := { z.lease with held := true, holder := .core core, ends := now + 1000 * (Config.leaseTerm h e).toNat } }

/-- Write a descriptor into an engine's queue (R272, R274): a slot not yet drained keeps its contents. -/
def State.issue (s0 : State) (h : Nat) (d : Descriptor) : State :=
  let e := (s0.hub h).pick
  let s := s0.readyEngine h e
  let g := (s.hub h).engine e
  if (tfind g.slots (g.produced % 64)).isSome then s.attnError h e (g.produced % 64) .undrained
  else s.modHub h fun x => x.modEngine e fun y =>
    { y with
      slots := tset y.slots (y.produced % 64) { d with seq := y.produced, epoch := y.lease.epoch.toNat }.bytes, produced := y.produced + 1 }

/-- The step a descriptor works for. -/
def State.stepOfDesc (s : State) (d : Descriptor) : Nat := ((s.hub (s.ownerHub d.context)).qset d.qset).step

/-- Each step with a descriptor in an engine's queue is marked (R275, R485). -/
def State.markQueue (s : State) (h e : Nat) (c : Cause) : State :=
  ((s.hub h).engine e).slots.foldl (fun (t : State) d => t.markStep (t.stepOfDesc (Descriptor.ofBytes d.2)) c) s

/-- An engine's lease ends: its epoch rises, its queue is emptied, and each step with a descriptor in it is marked (R259, R266, R485). -/
def State.endEngine (s : State) (h e : Nat) : State :=
  (s.markQueue h e .epoch).modHub h fun x => x.modEngine e fun y =>
    { y with lease := y.lease.finish, slots := [], expected := y.produced, halted := false }

/-! ### Query sets -/

/-- A record is named by a descriptor that an engine still holds for a session of hub `h`, or by a remote request that has not timed out. -/
def State.qsetNamed (s : State) (h q : Nat) : Bool :=
  ((s.hub h).remote.any fun r => r.qset == q && !r.timedOut) ||
    (List.range 4).any fun k => (s.hub k).engines.any fun e => e.2.slots.any fun b =>
      let d := Descriptor.ofBytes b.2
      d.qset == q && s.ownerHub d.context == h

/-- The lowest query-set record not in use: not listed, or released with nothing on its way to it, so that no partial of an earlier set ever
enters a later one (R285, R318). Admission keeps within the 65,536 records (R272, R297). -/
def State.freeQset (s : State) (h : Nat) : Nat :=
  (((List.range ((s.hub h).qsets.length + 1)).find? fun q => match tfind (s.hub h).qsets q with
    | none => true
    | some x => x.released && !s.qsetNamed h q).getD (s.hub h).qsets.length) % 65536

/-- The final step of a query set (R282, R283): outputs, EMPTY marks, and the poison of R276. -/
def State.finishSet (s : State) (h q : Nat) : State :=
  let x := (s.hub h).qset q
  let outs := x.running.map SoftState.output
  let empties := (outs.filter (·.2)).length
  let s1 := s.modHub h fun y => y.modQset q fun z => { z with outputs := some outs, poison := x.running.any (·.poison) }
  let s2 := if empties = 0 then s1 else (s1.modStep x.step fun y => { y with empty := true }).bump (.attn h) 0x120 empties
  if x.running.any (·.poison) then s2.failStep x.step .poison else s2

/-- A piece of a walk: a local page, or an unbroken run of remote pages of one package (R294). -/
inductive WalkItem where
  | page (p first count pos : Nat)
  | remote (package epoch : Nat) (pages : List RemotePage)
  deriving DecidableEq, Repr

/-- Append an entry to a walk; remote pages of one package and epoch that follow each other make one run. -/
def addItem (l : List WalkItem) (i : WalkItem) : List WalkItem :=
  match i, l.getLast? with
  | .remote p e ps, some (.remote p' e' qs) => if p = p' ∧ e = e' then l.dropLast ++ [.remote p e (qs ++ ps)] else l ++ [i]
  | _, _ => l ++ [i]

/-- The page walk of a step's layer and key-value head for one batch of queries (R289, R290, R294). -/
def State.walk (s : State) (x layer head : Nat) (qs : List Query) : List WalkItem :=
  let ss := s.sess x
  let t := slotsPerPage ss.kv8
  let w := ((s.sessShape x).windowOf layer).getD 0
  let lows := qs.map fun q => lowBound w ss.floor q.position
  let lo := lows.foldl min (lows.headD 0)
  let hi := (qs.map (·.position)).foldl max 0
  if hi < lo then []
  else
    (List.range (hi / t - lo / t + 1)).foldl (fun l i =>
      let e := lo / t + i
      let first := max lo (e * t)
      let last := min hi (e * t + t - 1)
      if !(qs.any fun q => decide (lowBound w ss.floor q.position ≤ last) && decide (first ≤ q.position)) then l
      else match ss.pte (s.blockIndex x layer head e) with
        | .page p => addItem l (.page p (first % t) (last - first + 1) first)
        | .remote pk ep p => addItem l (.remote pk ep [⟨p, first % t, last - first + 1, first⟩])
        | _ => l) []

/-- Entries of the kind that is not used which a walk meets are counted in KVMAP.ERR_STATUS (R293). DESIGN CHOICE, log 58: with
FORMAT, at the entry's place in the table page. -/
def State.walkErrors (s : State) (x layer head : Nat) : State :=
  let lo := tableIndex (s.sessShape x).kvHeads (ceilDiv (s.sess x).capacity (slotsPerPage (s.sess x).kv8)) layer head 0
  let hi := tableIndex (s.sessShape x).kvHeads (ceilDiv (s.sess x).capacity (slotsPerPage (s.sess x).kv8)) layer (head + 1) 0
  ((s.sess x).table.filter fun e => e.2 == .unused && decide (lo ≤ e.1) && decide (e.1 < hi)).foldl (fun (t : State) e =>
    t.logEvent (.kvmap (s.ownerHub x)) .format (engineAddr ((s.pteAddr x e.1).getD 0))) s

/-- Query batches of up to 32 (R262). -/
def batches {α : Type} : Nat → List α → List (List α)
  | 0, _ => []
  | n + 1, l => if l.isEmpty then [] else l.take 32 :: batches n (l.drop 32)

/-- Numbers of a remote request's body (R316): tag, source package, store epoch and the rest of the header, then queries and pages. -/
def requestBody (tag source epoch layer head : Nat) (kv8 : Bool) (tau : BitVec 16) (window floor : Nat) (qs : List Query)
    (pages : List RemotePage) : List Nat :=
  [tag, source, epoch, layer, head, b2n kv8, tau.toNat, window, floor, qs.length, pages.length] ++
    qs.flatMap (fun q => q.position :: q.sigma.toNat :: q.codes.map (fun c => ofSigned 8 c)) ++
    pages.flatMap fun p => [p.page, p.keyFirst, p.keyCount, p.firstPosition]

/-- One query set of an exchange (R294, R295, R316): its record, its descriptors (those that read a position the step writes wait
for the acknowledgement) and its remote requests. -/
def State.openSet (s0 : State) (h x : Nat) (e : ExchangeIn) (head : Nat) (ins : List QueryIn) : State :=
  let s := s0.walkErrors x e.layer head
  let ss := s.sess x
  let w := ((s.sessShape x).windowOf e.layer).getD 0
  let qs := ins.map stageQuery
  let items := s.walk x e.layer head qs
  let q := s.freeQset h
  let set : QSet := {
    step := e.step, layer := e.layer, queries := qs, die := e.die.val, outs := ins.map (·.out), partials := items.length
    running := qs.map fun _ => SoftState.start }
  let s1 := s.modHub h fun y => { y with qsets := tset y.qsets q set }
  let s2 := (items.zipIdx).foldl (fun (t : State) it =>
    match it.1 with
    | .page p first count pos =>
      let d : Descriptor := {
        seq := 0, context := x, layer := e.layer, kv8 := ss.kv8, head := head, queryCount := qs.length,
        keyFirst := first, keyCount := count, partIndex := it.2, firstPosition := pos, qset := q, tau := e.tau, window := w,
        floor := ss.floor, epoch := 0, page := p }
      let eh := stackOfPage p / 2
      if e.kv.any fun k => k.head == head && decide (pos ≤ k.position) && decide (k.position < pos + count)
      then t.modHub h fun y => y.modQset q fun z => { z with waiting := z.waiting ++ [(eh, d)] }
      else t.issue eh d
    | .remote pk ep pages =>
      let tag := (t.hub h).nextTag
      let t1 := t.modHub h fun y => { y with
        remote := y.remote ++ [{ tag := tag, package := pk, qset := q, part := it.2 }], nextTag := (tag + 1) % 2 ^ 32 }
      t1.send { destination := pk, type := 0x01, body := requestBody tag s.ownNumber ep e.layer head ss.kv8 e.tau w ss.floor qs pages }) s1
  if items.isEmpty then s2.finishSet h q else s2

/-- ATTN_EXCHANGE_ARRIVAL (R294 to R296): the step's keys and values are written, and each key-value head's queries become query
sets. Data of a step that is no longer in flight goes nowhere. -/
def execAttnExchangeArrival (x : ExchangeIn) (s : State) : Host.Outcome State Fault Refusal :=
  match s.findStep x.step with
  | none => .next s
  | some st =>
    let c := st.context
    let h := s.ownerHub c
    let s1 := x.kv.foldl (fun (t : State) k => t.writeKv c x.layer k) s
    .next ((List.range (s.sessShape c).kvHeads).foldl (fun (t : State) head =>
      let qs := x.queries.filter fun q => q.head == head
      (batches (qs.length / 32 + 1) qs).foldl (fun (u : State) b => u.openSet h c x head b) t) s1)

/-- KV_WRITE_ACK (R295): the descriptors that waited for a step's writes in a layer are issued. -/
def execKvWriteAck (step layer : Nat) (s : State) : Host.Outcome State Fault Refusal :=
  .next ((List.range 4).foldl (fun (t : State) h =>
    (t.hub h).qsets.foldl (fun (u : State) e =>
      if e.2.step = step ∧ e.2.layer = layer ∧ !e.2.released then
        let v := u.modHub h fun y => y.modQset e.1 fun z => { z with waiting := [] }
        e.2.waiting.foldl (fun (z : State) d => z.issue d.1 d.2) v
      else u) t) s)

/-! ### Running a descriptor -/

/-- Read a descriptor's keys and values from its page under a key class, with the poison of any line read (R262, R276). -/
def State.readKeys (s : State) (d : Descriptor) (key : Nat) : State × List KeyVal × Bool :=
  let t := slotsPerPage d.kv8
  let w := slotBytes d.kv8
  let ks := s.readBytes (scaleAddr d.page d.keyFirst t false) d.keyCount key
  let vs := ks.1.readBytes (scaleAddr d.page d.keyFirst t true) d.keyCount key
  let kc := vs.1.readBytes (codeAddr d.page d.keyFirst w false) (d.keyCount * w) key
  let vc := kc.1.readBytes (codeAddr d.page d.keyFirst w true) (d.keyCount * w) key
  let keys := (List.range d.keyCount).map fun i =>
    { pos := d.firstPosition + i
      kScale := ((ks.2.bytes[i]?).getD 0).toNat
      kCodes := unpackCodes d.kv8 ((kc.2.bytes.drop (i * w)).take w)
      vScale := ((vs.2.bytes[i]?).getD 0).toNat
      vCodes := unpackCodes d.kv8 ((vc.2.bytes.drop (i * w)).take w) : KeyVal }
  (vc.1, keys, ks.2.poison || vs.2.poison || kc.2.poison || vc.2.poison)

/-- The page's head agrees with the descriptor (R273). -/
def headAgrees (bytes : List (BitVec 8)) (d : Descriptor) : Bool :=
  bytes.take 3 == [BitVec.ofNat 8 (b2n d.kv8), BitVec.ofNat 8 d.head, BitVec.ofNat 8 d.layer]

/-- Process a descriptor at hub `h` (R262 to R280): nothing when the page's head disagrees, else its partial states. -/
def State.processDesc (s : State) (h : Nat) (d : Descriptor) (qs : List Query) (key : Nat) : State × Option (List SoftState) :=
  let hd := s.readBytes (d.page * Config.pageBytes) 16 key
  if !headAgrees hd.2.bytes d then (hd.1, none)
  else
    let r := hd.1.readKeys d key
    let poison := hd.2.poison || r.2.2
    let parts := qs.map fun q => softRun q d.tau d.window d.floor r.2.1
    let cnt := parts.foldl (fun (a : SoftCount) p => a.add p.2) {}
    let s1 := if poison then r.1.evictPoisoned d.page else r.1
    let s2 := (((s1.bump (.attn h) 0x100 1).bump (.attn h) 0x108 d.keyCount).bump (.attn h) 0x110 cnt.clips).bump
      (.attn h) 0x118 cnt.flushes
    (s2.spend (500000 + 800 * (2 * d.keyCount * slotBytes d.kv8)), some (parts.map fun p => { p.1 with poison := poison }))

/-- DESCRIPTOR_RUN (R262 to R280): the engine reads the slot it expects. A slot with another tag answers poisoned data with UNFILLED and
halts the queue, whose steps are marked; the control core restarts a halted queue under the next epoch (R275). -/
def execDescriptorRun (hub : HubId) (engine : Fin 64) (s : State) : Host.Outcome State Fault Refusal :=
  let h := hub.val
  let e := engine.val
  let g := (s.hub h).engine e
  let slot := g.expected % 64
  let stored := (tfind g.slots slot).getD (List.replicate 64 0)
  let d := Descriptor.ofBytes stored
  if g.halted then .next (s.readyEngine h e)
  else if (tfind g.slots slot).isNone ∨ d.seq ≠ g.expected % 2 ^ 64 then
    .next (((s.attnError h e slot .unfilled).markQueue h e .unfilled).modHub h fun x => x.modEngine e fun y =>
      { y with halted := true, slotRead := { code := some .unfilled, data := stored, poison := true } })
  else
    let s1 := s.modHub h fun x => x.modEngine e fun y =>
      { y with slots := tdrop y.slots slot, expected := y.expected + 1, slotRead := { data := stored } }
    if d.epoch ≠ g.lease.epoch.toNat then .next (s1.attnError h e slot .epoch)
    else match d.check with
      | some c => .next (s1.attnError h e slot c)
      | none =>
        let o := s.ownerHub d.context
        let set := (s.hub o).qset d.qset
        let r := s1.processDesc h d (set.queries.take d.queryCount) (s.sess d.context).kvKey
        match r.2 with
        | none => .next ((r.1.attnError h e slot .format).markStep set.step .format)
        | some parts => .next (r.1.modHub o fun y => y.modQset d.qset fun z => { z with arrived := tset z.arrived d.partIndex parts })

/-- PARTIAL_MERGE (R281 to R283): the next partial in order is folded in; the last one gives the outputs. -/
def execPartialMerge (hub : HubId) (qset : Nat) (s : State) : Host.Outcome State Fault Refusal :=
  let h := hub.val
  let x := (s.hub h).qset qset
  if x.outputs.isSome ∨ x.released then .next s
  else match tfind x.arrived x.merged with
    | none => .next s
    | some parts =>
      let m := if x.merged = 0 then parts.map fun p => (p, ({} : SoftCount)) else List.zipWith softMerge x.running parts
      let s1 := s.modHub h fun y => y.modQset qset fun z =>
        { z with running := m.map (·.1), merged := x.merged + 1, arrived := tdrop z.arrived x.merged }
      let s2 := s1.bump (.attn h) 0x118 (m.foldl (fun n p => n + p.2.flushes) 0)
      .next (if x.merged + 1 = x.partials then s2.finishSet h qset else s2)

/-- The outputs of a set go to the die: one 512-byte pad row of 128 binary32 elements per query (R283, R298). -/
def State.sendOutputs (s : State) (d : Nat) (rows : List RowPlace) (outs : List (List B32)) : State :=
  (List.zip rows outs).foldl (fun (t : State) e => t.writePlace d e.1 (e.2.flatMap fun v => leBytes 4 v.toNat) 0) s

/-- Unanswered remote requests of a set time out and are counted (R318). -/
def State.timeoutSet (s : State) (h q : Nat) : State :=
  let n := ((s.hub h).remote.filter fun r => r.qset == q && !r.timedOut).length
  if n = 0 then s
  else (s.modHub h fun y => { y with remote := y.remote.map fun r => if r.qset = q then { r with timedOut := true } else r }).bump (.attn h) 0x138 n

/-- RELEASE_TIME (R298, R318): the outputs of a complete set reach the die's pads; a set that is not complete sends zeros, its step is
marked, and its unanswered remote requests time out, those of a set whose step has been withdrawn among them; the record is free again. -/
def execReleaseTime (hub : HubId) (qset : Nat) (s : State) : Host.Outcome State Fault Refusal :=
  let h := hub.val
  match tfind (s.hub h).qsets qset with
  | none => .next s
  | some x =>
    if x.released then .next (s.timeoutSet h qset)
    else match x.outputs with
      | some outs => .next ((s.modHub h fun y => y.modQset qset fun z => { z with released := true }).sendOutputs x.die x.outs (outs.map (·.1)))
      | none =>
        let zeros := x.queries.map fun _ => List.replicate 128 (F32.ofInt 0)
        let s1 := (s.modHub h fun y => y.modQset qset fun z => { z with
          released := true, outputs := some (zeros.map fun v => (v, false)), waiting := [] }).timeoutSet h qset
        .next (((s1.markStep x.step .timeout).bump (.attn h) 0x128 1).sendOutputs x.die x.outs zeros)

/-! ### Attend-at-store -/

/-- Bytes of one partial state (R316): m, l and the accumulator in binary32. -/
def softBytes (x : SoftState) : List (BitVec 8) :=
  leBytes 4 (match x.m with
    | none => 0xFF800000
    | some m => m.toNat) ++ leBytes 4 x.l.toNat ++ x.acc.flatMap fun v => leBytes 4 v.toNat

/-- The key class a stored page was written under. -/
def State.pageKey (s : State) (p : Nat) : Nat := (s.lineCode (p * 1024)).key

/-- ATTN_REQ (R316, R319, R320), the store epoch compared in the 16 bits that an entry keeps (R293): a store hub serves a request, or answers BUSY, EPOCH or, in another role, ROLE (R20). -/
def execAttnReq (r : AttnReqIn) (s : State) : Host.Outcome State Fault Refusal :=
  let reply := fun (c : Code) => s.send { destination := r.source, type := 0x02, body := [r.tag, c.num] }
  if r.storeEpoch % 65536 ≠ s.store.storeEpoch % 65536 then .next (reply .epoch)
  else if s.pkg.role ≠ 3 then .next (reply .role)
  else if !r.canQueue then .next (s.send { destination := r.source, type := 0x03, body := [r.tag] })
  else
    let desc := fun (p : RemotePage) (i : Nat) =>
      ({ seq := 0, context := 0, layer := r.layer, kv8 := r.kv8, head := r.head, queryCount := r.queries.length,
         keyFirst := p.keyFirst, keyCount := p.keyCount, partIndex := i, firstPosition := p.firstPosition, qset := 0, tau := r.tau,
         window := r.window, floor := r.floor, epoch := 0, page := p.page } : Descriptor)
    let run := (r.pages.zipIdx).foldl (fun (a : State × Option (List (List SoftState))) p =>
      let d := desc p.1 p.2
      let h := stackOfPage d.page % 8 / 2
      match d.check with
      | some c => (a.1.attnError h 0 0 c, none)
      | none =>
        let o := a.1.processDesc h d r.queries (a.1.pageKey d.page)
        match o.2 with
        | none => (o.1.attnError h 0 0 .format, none)
        | some parts => (o.1, a.2.map fun l => l ++ [parts])) (s, some [])
    match run.2 with
    | none => .next run.1
    | some [] => .next run.1
    | some (first :: rest) =>
      let merged := rest.foldl (fun (a : List SoftState × Nat) p =>
        let m := List.zipWith softMerge a.1 p
        (m.map (·.1), a.2 + m.foldl (fun n x => n + x.2.flushes) 0)) (first, 0)
      let s1 := (run.1.bump (.attn r.hub.val) 0x118 merged.2).bump (.attn r.hub.val) 0x148 1
      .next (s1.send {
        destination := r.source, type := 0x02, body := [r.tag, 0]
        poison := merged.1.any (·.poison), data := merged.1.flatMap softBytes })

/-- A remote request times out (R318, R319). -/
def State.timeoutRemote (s : State) (h tag : Nat) : State :=
  match (s.hub h).remote.find? fun r => r.tag == tag && !r.timedOut with
  | none => s
  | some _ => (s.modHub h fun y => { y with remote := y.remote.map fun r => if r.tag = tag then { r with timedOut := true } else r }).bump
      (.attn h) 0x138 1

/-- The references of a session on a store package are lost (R320, R358): its entries there become empty. -/
def State.loseRemote (s : State) (x package : Nat) : State :=
  let gone := (s.sess x).table.filter fun e => match e.2 with
    | .remote p _ _ => p == package
    | _ => false
  (gone.foldl (fun (t : State) e => t.enterPte x e.1 .empty) s).modSess x fun y => { y with remoteLost := true }

/-- ATTN_RSP (R317, R318, R320): a response in time goes to its place in the merge order; a late one is discarded and counted; an
EPOCH answer fails the step, and the session's entries on that store package become empty. -/
def execAttnRsp (hub : HubId) (tag status : Nat) (partials : List SoftState) (s : State) : Host.Outcome State Fault Refusal :=
  let h := hub.val
  let gone := fun (t : State) => t.modHub h fun y => { y with remote := y.remote.filter fun r => r.tag != tag }
  match (s.hub h).remote.find? fun r => r.tag == tag with
  | none => .next (s.bump (.attn h) 0x140 1)
  | some r =>
    if r.timedOut then .next ((gone s).bump (.attn h) 0x140 1)
    else
      let x := (s.hub h).qset r.qset
      if status = Code.epoch.num then
        let s1 := (gone s).failStep x.step .epoch
        match s.findStep x.step with
        | none => .next s1
        | some st => .next (s1.loseRemote st.context r.package)
      else if status ≠ 0 then .next (s.timeoutRemote h tag)
      else .next ((gone s).modHub h fun y => y.modQset r.qset fun z => { z with arrived := tset z.arrived r.part partials })

/-- ATTN_BUSY (R319): treated as a timeout. -/
def execAttnBusy (hub : HubId) (tag : Nat) (s : State) : Host.Outcome State Fault Refusal := .next (s.timeoutRemote hub.val tag)

/-- The references of another package. -/
def State.servedBy (s : State) (p : Nat) : Table Nat := ((s.store.served.find? fun r => r.package == p).map (·.pages)).getD []

def State.setServed (s : State) (p : Nat) (t : Table Nat) : State :=
  let rest := s.store.served.filter fun r => r.package != p
  { s with store := { s.store with served := if t.isEmpty then rest else rest ++ [{ package := p, pages := t }] } }

/-- LEASE_RENEW (R320) at the store package: a renewal under the current store epoch renews each page it names; a page not yet
listed for that package is referenced from now on (log 21). -/
def execLeaseRenew (source : Fin 256) (storeEpoch : Nat) (pages : List Nat) (s : State) : Host.Outcome State Fault Refusal :=
  if storeEpoch % 65536 ≠ s.store.storeEpoch % 65536 then .next s
  else .next (pages.foldl (fun (t : State) p =>
    let have_ := t.servedBy source.val
    let fresh := (tfind have_ p).isNone
    let t1 := if fresh then t.addRef p else t
    if t.refsOf p = 0 ∨ (fresh ∧ t.refsOf p = 65534) then t else t1.setServed source.val (tset have_ p t.clock.time)) s)

/-- The epoch and the page of an entry on one store package. -/
def Pte.on (package : Nat) : Pte → Option (Nat × Nat)
  | .remote p ep q => if p = package then some (ep, q) else none
  | _ => none

/-- Remote pages of one store package, with the epoch of their reference, that session tables and prefix tables name. -/
def State.remotePages (s : State) (package : Nat) : List (Nat × Nat) :=
  ((s.serve.sessions.flatMap fun e => e.2.table.filterMap fun x => x.2.on package) ++
    s.store.prefixes.flatMap fun e => e.2.entries.filterMap fun x => x.2.on package).eraseDups

/-- Groups of 46 pages (R435). -/
def groups46 : Nat → List Nat → List (List Nat)
  | 0, _ => []
  | n + 1, l => if l.isEmpty then [] else l.take 46 :: groups46 n (l.drop 46)

/-- REMOTE_RENEW_TIMER (R320): every reference on the store package is renewed, up to 46 pages to a message. -/
def execRemoteRenewTimer (store : Fin 256) (s : State) : Host.Outcome State Fault Refusal :=
  let all := s.remotePages store.val
  let epochs := (all.map (·.1)).eraseDups
  .next (epochs.foldl (fun (t : State) ep =>
    let ps := (all.filter fun e => e.1 == ep).map (·.2)
    (groups46 (ps.length / 46 + 1) ps).foldl (fun (u : State) g =>
      u.send { destination := store.val, type := 0x04, body := ep :: g }) t) s)

/-- REMOTE_REF_EXPIRY (R320): the references of a package that went 30 ms without renewal are released. -/
def execRemoteRefExpiry (holder : Fin 256) (s : State) : Host.Outcome State Fault Refusal :=
  let all := s.servedBy holder.val
  let due := all.filter fun e => decide (e.2 + 30000000 ≤ s.clock.time)
  .next ((s.dropRefs (due.map (·.1))).setServed holder.val (all.filter fun e => decide (s.clock.time < e.2 + 30000000)))

end Sys2Proof.Machine
end

