-- ==== Sys2Proof/Machine/Operands.lean ====
section
/-!
DEFINITION. The operand forms of a 64-byte command (R328, R332) and of a stop record (R333), and reads and writes of host memory
by a hub (R19, R421).
-/
namespace Sys2Proof.Machine

/-! ### Host memory -/

/-- Bytes of host memory as a hub reads them: a line that is dirty in a steward cache comes from there (R421). -/
def State.hostRead (s : State) (addr n : Nat) : State × LineData :=
  match s.regionRun addr with
  | none => (s, ⟨List.replicate n 0, false⟩)
  | some (a, _) =>
    let r := s.readBytes a n keyPlatform
    let newer := (List.range n).map fun i =>
      match tfind s.links.dirtyLines ((a + i) / 64) with
      | some bytes => (bytes[(a + i) % 64]?).getD 0
      | none => (r.2.bytes[i]?).getD 0
    (r.1, ⟨newer, r.2.poison⟩)

/-- A hub writes one whole line of host memory; the steward's copy is invalidated first (R421, R423). -/
def State.hostWriteLine (s : State) (addr : Nat) (bytes : List (BitVec 8)) : State :=
  match s.regionRun addr with
  | none => s
  | some (a, _) =>
    ({ s with links := { s.links with dirtyLines := tdrop s.links.dirtyLines (a / 64) } } : State).writeLine (a / 64) keyPlatform
      bytes false

/-- A token array (R332): 4 bytes a token. -/
def State.readTokens (s : State) (addr count : Nat) : State × List Nat × Bool :=
  let r := s.hostRead addr (4 * count)
  (r.1, (List.range count).map fun i => leNat ((r.2.bytes.drop (4 * i)).take 4), r.2.poison)

/-! ### Commands -/

/-- The little-endian number in bytes `o` to `o + n - 1`. -/
def le (b : List (BitVec 8)) (o n : Nat) : Nat := leNat ((b.drop o).take n)

/-- Every byte outside the listed ranges (offset, length) from byte 16 on, and bytes 9 to 11, is zero (R332). -/
def restZero (b : List (BitVec 8)) (used : List (Nat × Nat)) : Bool :=
  (List.range 64).all fun i =>
    if i < 9 ∨ (12 ≤ i ∧ i < 16) ∨ used.any (fun u => decide (u.1 ≤ i) && decide (i < u.1 + u.2)) then true
    else ((b[i]?).getD 0) == 0

/-- The body of a command and the byte ranges it uses (R332). -/
def parseBody (b : List (BitVec 8)) : Body × List (Nat × Nat) :=
  match le b 8 1 with
  | 0x01 => (.openS {
      context := le b 16 2, tenant := le b 18 2, cls := le b 20 1, kvFormat := le b 21 1, share := le b 22 1
      outRing := le b 23 1, capacity := le b 24 4, temperature := BitVec.ofNat 16 (le b 28 2), topK := le b 30 2
      seed := le b 32 8, stopAddr := le b 40 6 }, [(16, 30)])
  | 0x02 => (.prompt {
      context := le b 16 2, flags := le b 18 1, adapter := le b 20 2, tokenCount := le b 24 4, tokenAddr := le b 28 6
      floor := le b 36 4, deadline := le b 40 8 }, [(16, 3), (20, 2), (24, 10), (36, 12)])
  | 0x03 => (.generate {
      context := le b 16 2, adapter := le b 20 2, maxNew := le b 24 4, floor := le b 36 4, deadline := le b 40 8 },
      [(16, 2), (20, 2), (24, 4), (36, 12)])
  | 0x04 => (.draft {
      context := le b 16 2, adapter := le b 20 2, draftCount := le b 24 1, draftAddr := le b 28 6, floor := le b 36 4
      deadline := le b 40 8 }, [(16, 2), (20, 2), (24, 1), (28, 6), (36, 12)])
  | 0x05 => (.stop (le b 16 2), [(16, 2)])
  | 0x06 => (.cancel (le b 16 2), [(16, 2)])
  | 0x07 => (.close (le b 16 2), [(16, 2)])
  | 0x08 => (.adapterLoad { handle := le b 16 2, length := le b 24 4, imageAddr := le b 28 6 }, [(16, 2), (24, 10)])
  | 0x09 => (.adapterDrop (le b 16 2), [(16, 2)])
  | 0x0A => (.ingotStage {
      generation := le b 16 4, ingotAddr := le b 24 6, ingotLen := le b 32 8, patternTable := le b 40 6 },
      [(16, 4), (24, 6), (32, 14)])
  | 0x0B => (.genSwitch (le b 16 4), [(16, 4)])
  | 0x0C => (.migrateOut { context := le b 16 2, package := le b 18 2, tag := le b 20 4 }, [(16, 8)])
  | 0x0D => (.migrateIn { context := le b 16 2, package := le b 18 2, tag := le b 20 4, outRing := le b 24 1 }, [(16, 9)])
  | 0x0E => (.temper {
      context := le b 16 2, handle := le b 18 2, tenant := le b 20 2, cls := le b 22 1, microBatches := le b 24 4
      dataAddr := le b 28 6, batch := le b 34 2, dataLen := le b 36 4, rate := BitVec.ofNat 32 (le b 40 4)
      seed := le b 44 4, interval := le b 48 4 }, [(16, 7), (24, 28)])
  | o => (.unknown o, [(16, 48)])

/-- A 64-byte write to the command port, decoded (R328, R332). -/
def parseCommand (b : List (BitVec 8)) : CmdHead × Body :=
  let p := parseBody b
  ({ seq := le b 0 8, cookie := le b 12 4, reservedSet := !restZero b p.2 }, p.1)

/-- Stop record (R333): its code, or its fields. Entries beyond the counts are ignored. -/
def parseStop (vocab : Nat) (b : List (BitVec 8)) : Except Code StopRec :=
  let ec := le b 0 1
  let sc := le b 1 1
  let ends := (List.range ec).map fun i => le b (64 + 4 * i) 4
  let lens := (List.range sc).map fun i => le b (128 + 72 * i) 1
  let seqs := (List.range sc).map fun i => (List.range (le b (128 + 72 * i) 1)).map fun k => le b (136 + 72 * i + 4 * k) 4
  let zero := fun o n => (List.range n).all fun i => ((b[o + i]?).getD 0) == 0
  if 16 < ec ∨ 8 < sc ∨ !zero 2 62 ∨ !((List.range sc).all fun i => zero (129 + 72 * i) 7) then .error .format
  else if lens.any fun n => n == 0 || decide (16 < n) then .error .length
  else if (ends ++ seqs.flatten).any fun t => decide (vocab ≤ t) then .error .format
  else .ok { endTokens := ends, seqs := seqs }

end Sys2Proof.Machine
end

