-- ==== Sys2Proof/Machine/Records.lean ====
section
/-!
DEFINITION. Records and rings (R335 to R339), and what a window reports of commands that never became commands (R328).
-/
namespace Sys2Proof.Machine

/-! ### Rings -/

/-- Records a ring holds (R335). -/
def Ring.size (r : Ring) : Nat := 2 ^ (6 + r.cfg.field 0 4)
def Ring.base (r : Ring) : Nat := 64 * r.cfg.field 6 42

/-- A released slot that no step has reserved (R336, R339). -/
def Ring.free (r : Ring) : Bool := decide (r.produced + r.reserved < r.released)

/-- Bytes 32 to 63 of a record. -/
def Record.bodyBytes (r : Record) : List (BitVec 8) :=
  (List.range 32).map fun i =>
    match r.body.find? fun e => decide (e.1 ≤ 32 + i) && decide (32 + i < e.1 + e.2.1) with
    | some e => BitVec.ofNat 8 (e.2.2 / 2 ^ (8 * (32 + i - e.1)))
    | none => 0

/-- The 64 bytes of record `k` (R337). -/
def Record.bytes (r : Record) (k : Nat) : List (BitVec 8) :=
  leBytes 8 k ++ [BitVec.ofNat 8 r.kind, BitVec.ofNat 8 r.code, BitVec.ofNat 8 r.flags, BitVec.ofNat 8 r.detail] ++
    leBytes 4 r.cookie ++ leBytes 8 r.head ++ leBytes 8 r.time ++ r.bodyBytes

/-- The counter of the INTAKE page that counts a record kind. -/
def kindCounter (k : Nat) : Option Nat :=
  if k = 1 then some 0x200 else if k = 2 then some 0x208 else if k = 3 then some 0x210 else none

/-- Write the next record of ring `n` of window `w` (R336, R423, R559); ring 0 is the response ring. -/
def State.writeRecord (s : State) (w n : Nat) (r : Record) : State :=
  let g := (s.win w).ring n
  let s1 := s.hostWriteLine (g.base + 64 * (g.produced % g.size)) (r.bytes (g.produced + 1))
  let s2 := s1.modWin w fun x => x.setRing n { x.ring n with produced := g.produced + 1 }
  let s3 := match kindCounter r.kind with
    | some o => s2.bump (.intake w) o 1
    | none => s2
  s3.raiseIntr (0x1000 + 16 * w + n)

/-- Released slots of the response ring that hold no record yet. -/
def State.respFree (s : State) (w : Nat) : Bool := ((s.win w).ring 0).free

/-- Write held outcomes while the response ring has released slots (R330). -/
def State.flushResp (s : State) (w : Nat) : Nat → State
  | 0 => s
  | n + 1 =>
    match (s.win w).heldOutcomes with
    | [] => s
    | r :: rest =>
      if s.respFree w then ((s.modWin w fun x => { x with heldOutcomes := rest }).writeRecord w 0 r).flushResp w n else s

/-- The outcome of a package command (R330, R338): a DONE or FAILED record in its window's response ring, held in hub SRAM when no
released slot is free. -/
def State.packageOutcome (s : State) (w seq cookie : Nat) (code : Option Code) (value : Nat) : State :=
  let r : Record := {
    kind := if code.isSome then 0x05 else 0x04, code := (code.map Code.num).getD 0, cookie := cookie, head := seq
    time := s.hubTime (w / 4), body := [(32, 4, value)] }
  let s1 := s.modWin w fun x => { x with awaiting := x.awaiting - 1, journal := s.putJournal w (·.filter fun j => j.1 != seq) x.journal }
  if (s1.win w).heldOutcomes.isEmpty ∧ s1.respFree w then s1.writeRecord w 0 r
  else s1.modWin w fun x => { x with heldOutcomes := x.heldOutcomes ++ [r] }

/-- next_seq as records and NEXT_SEQ show it (R331). -/
def Window.shownSeq (w : Window) : Nat := if w.spent then 2 ^ 64 - 1 else w.nextSeq

/-- A refused write to the command port (R328): the error record with the port's offset, the count, and a record when a released
slot is free. -/
def State.refuseWrite (s : State) (w : Nat) (h : CmdHead) (c : Code) : State :=
  let s1 := (s.logError (.intake w) c 0x800 9 w).bump (.intake w) 0x218 1
  if s1.respFree w then s1.writeRecord w 0 {
    kind := 0x06, code := c.num, cookie := h.cookie, head := h.seq, time := s1.hubTime (w / 4)
    body := [(32, 8, (s1.win w).shownSeq)] }
  else s1

/-! ### Output rings -/

/-- Bytes 16 to 23 of an output-ring record: context and position. -/
def outHead (context position : Nat) : Nat := context + position % 2 ^ 32 * 2 ^ 32

/-- Write a record of a session to its output ring, or hold it behind those it holds (R338, R339). -/
def State.emit (s : State) (x : Nat) (r : Record) : State :=
  let ss := s.sess x
  if ss.held.isEmpty ∧ ((s.win ss.window).ring (ss.outRing + 1)).free then s.writeRecord ss.window (ss.outRing + 1) r
  else s.modSess x fun y => { y with held := y.held ++ [r] }

/-- Write what a session holds at the bell of `now`, while its ring has released slots (R337, R339). -/
def State.flushHeld (s : State) (x now : Nat) : Nat → State
  | 0 => s
  | n + 1 =>
    let ss := s.sess x
    match ss.held with
    | [] => s
    | r :: rest =>
      if ((s.win ss.window).ring (ss.outRing + 1)).free then
        ((s.modSess x fun y => { y with held := rest }).writeRecord ss.window (ss.outRing + 1) { r with time := now }).flushHeld x now n
      else s

/-- Write what released sessions left behind in a window (R337, R339) at the bell of `now`, in order within each ring. -/
def State.flushOut (s : State) (now w : Nat) : State :=
  (s.win w).heldOut.foldl (fun (t : State) e =>
    if ((t.win w).ring e.1).free ∧ !((t.win w).heldOut.any fun f => f.1 == e.1) then t.writeRecord w e.1 { e.2 with time := now }
    else t.modWin w fun x => { x with heldOut := x.heldOut ++ [e] }) (s.modWin w fun x => { x with heldOut := [] })

end Sys2Proof.Machine
end

