-- ==== Sys2Proof/Machine/Intake.lean ====
section
/-!
DEFINITION. Intake: acceptance of commands (R328 to R334, R340 to R345, R348) and the commands of the windows.
-/
namespace Sys2Proof.Machine

/-! ### Facts about a body -/

/-- The context a command names; `none` for a package command. -/
def bodyContext : Body → Option Nat
  | .openS b => some b.context
  | .prompt b => some b.context
  | .generate b => some b.context
  | .draft b => some b.context
  | .stop c => some c
  | .cancel c => some c
  | .close c => some c
  | .adapterLoad _ => none
  | .adapterDrop _ => none
  | .ingotStage _ => none
  | .genSwitch _ => none
  | .migrateOut b => some b.context
  | .migrateIn b => some b.context
  | .temper b => some b.context
  | .unknown _ => none

/-- Address and length of each buffer a command names (R19, R332). -/
def bodySpans : Body → List (Nat × Nat)
  | .openS b => if b.stopAddr = 0 then [] else [(b.stopAddr, 704)]
  | .prompt b => [(b.tokenAddr, 4 * b.tokenCount)]
  | .draft b => [(b.draftAddr, 4 * b.draftCount)]
  | .adapterLoad b => [(b.imageAddr, b.length)]
  | .ingotStage b => [(b.ingotAddr, b.ingotLen), (b.patternTable, 128)]
  | .temper b => [(b.dataAddr, b.dataLen)]
  | _ => []

def allOnes32 : Nat := 0xFFFFFFFF

/-- Check 3 (R332, R340): known opcode, reserved bytes zero, enumerated fields in range. -/
def formatOk : Body → Bool
  | .openS b => decide (b.cls ≤ 3) && decide (b.kvFormat ≤ 1) && decide (b.share ≤ 1) &&
      (b.temperature == 0 || F16.isPositiveNormal b.temperature)
  | .prompt b => decide (b.flags ≤ 3)
  | .ingotStage b => decide (b.generation ≠ 0) && decide (b.generation ≠ allOnes32)
  | .temper b => decide (b.cls ≤ 3) && decide (b.rate.toNat / 2 ^ 31 = 0) && decide (0 < b.rate.toNat / 2 ^ 23 % 256) &&
      decide (b.rate.toNat / 2 ^ 23 % 256 < 255)
  | .unknown _ => false
  | _ => true

def adapterOk (a : Nat) : Bool := decide (a ≤ 4095) || decide (a = 0xFFFF)

/-- Check 4, ranges (R332). -/
def State.lengthOk (s : State) : Body → Bool
  | .openS b => decide (b.tenant ≤ 4095) && decide (b.outRing ≤ 7) && decide (1 ≤ b.capacity) && decide (b.capacity ≤ 258048) &&
      decide (b.stopAddr % 64 = 0)
  | .prompt b => adapterOk b.adapter && decide (1 ≤ b.tokenCount) && decide (b.tokenCount ≠ allOnes32) &&
      (decide ((s.sess b.context).st = .free) || decide (b.tokenCount ≤ (s.sess b.context).capacity))
  | .generate b => adapterOk b.adapter && decide (b.maxNew ≠ 0)
  | .draft b => adapterOk b.adapter && decide (1 ≤ b.draftCount) && decide (b.draftCount ≤ 15)
  | .adapterLoad b => decide (b.handle ≤ 4095) && decide (1 ≤ b.length) && decide (b.length ≤ 268435456)
  | .adapterDrop h => decide (h ≤ 4095)
  | .ingotStage b => decide (b.ingotLen ≠ 0) && decide (b.ingotLen ≠ 2 ^ 64 - 1)
  | .migrateOut b => decide (b.package ≤ 255)
  | .migrateIn b => decide (b.package ≤ 255) && decide (b.outRing ≤ 7)
  | .temper b => decide (b.handle ≤ 4095) && decide (b.tenant ≤ 4095) && decide (b.microBatches ≠ 0) && decide (1 ≤ b.batch) &&
      decide (b.batch ≤ 256) && decide (b.dataLen ≠ 0) && decide (b.dataLen ≠ allOnes32) && decide (b.interval ≠ 0)
  | _ => true

/-- An address lies in a declared staging region. -/
def State.inStaging (s : State) (a : Nat) : Bool :=
  match target a with
  | .aperture k b =>
    let p := b / Config.pageBytes
    !decide (p < s.partPages) && (s.stack k).staging.any fun e => decide (e.2.1 ≤ p) && decide (p < e.2.1 + e.2.2)
  | _ => false

/-- Check 5 (R19): every buffer starts in a region; an ingot in a staging region. -/
def State.authOk (s : State) (b : Body) : Bool :=
  ((bodySpans b).all fun e => (s.regionRun e.1).isSome) && match b with
    | .ingotStage i => s.inStaging i.ingotAddr
    | _ => true

/-- Check 6 (R323, R340). -/
def State.stateOk (s : State) (w : Nat) (b : Body) : Bool :=
  let session := fun (c : Nat) => decide ((s.sess c).st = .openS) && decide ((s.sess c).window = w)
  let token := fun (c : Nat) => (s.sess c).pending.isSome || (s.sess c).queue.any fun q => q.out.isNone && match q.body with
    | .prompt _ => true
    | _ => false
  match b with
  | .openS b => decide ((s.sess b.context).st = .free)
  | .migrateIn b => decide ((s.sess b.context).st = .free)
  | .temper b => decide ((s.sess b.context).st = .free)
  | .prompt b => session b.context
  | .generate b => session b.context && token b.context
  | .draft b => session b.context && token b.context
  | .stop c => session c
  | .cancel c => session c || (decide ((s.sess c).st = .job) && decide ((s.sess c).window = w) && !(s.sess c).cancelling)
  | .close c => session c
  | .migrateOut b => session b.context
  | .genSwitch g => s.pkg.gen.switch.isNone && (s.pkg.gen.staged.map (·.generation)) == some g
  | .ingotStage _ => s.pkg.gen.switch.isNone
  | _ => true

/-- Check 7 (R20, R23, R74). -/
def State.roleOk (s : State) (b : Body) : Bool :=
  let r := s.pkg.role
  match b with
  | .openS _ => decide (r = 1 ∨ r = 2 ∨ r = 4)
  | .prompt _ => decide (r = 1 ∨ r = 2 ∨ r = 4)
  | .migrateIn _ => decide (r = 1 ∨ r = 2 ∨ r = 4)
  | .generate _ => decide (r = 2 ∨ r = 4)
  | .draft _ => decide (r = 2 ∨ r = 4)
  | .temper _ => decide (r = 2 ∨ r = 4)
  | .genSwitch _ => decide (r ≠ 3)
  | _ => true

/-- The generation that new sessions are pinned to (R364): the one an accepted GEN_SWITCH names, else the one in service. -/
def State.targetIngot (s : State) : Option IngotRec :=
  match s.pkg.gen.switch with
  | some w => s.pkg.gen.staged.filter fun r => r.generation == w.generation
  | none => s.pkg.gen.inService

/-- Check 8 (R364, R582): the ingot a command is pinned to, `none` for a command that is pinned to none. -/
def State.pinOf (s : State) (b : Body) : Except Code (Option IngotRec) :=
  let fresh : Except Code (Option IngotRec) := match s.targetIngot with
    | some t => .ok (some t)
    | none => .error .generationGone
  let pinned := fun (c : Nat) => match s.targetIngot with
    | none => (Except.error .generationGone : Except Code (Option IngotRec))
    | some t => if (s.sess c).generation = t.generation ∨ (s.sess c).kvTag = t.kvTag then .ok (some t) else .error .generationGone
  match b with
  | .openS _ => fresh
  | .migrateIn _ => fresh
  | .temper _ => fresh
  | .prompt b => pinned b.context
  | .generate b => pinned b.context
  | .draft b => pinned b.context
  | .migrateOut b => pinned b.context
  | _ => .ok none

/-- What acceptance copies into the session (R333). -/
structure Contents where
  tokens : List Nat := []
  stop : StopRec := {}
  deriving DecidableEq, Repr

/-- The contents part of check 8 (R333): arrays and stop record are read and checked; a poisoned read refuses (R466; log 24). -/
def State.readContents (s : State) (b : Body) (vocab : Nat) : State × Except Code Contents :=
  let array := fun (addr n : Nat) =>
    let r := s.readTokens addr n
    (r.1, if r.2.2 then (Except.error .poison : Except Code Contents)
      else if r.2.1.any fun t => decide (vocab ≤ t) then .error .format else .ok { tokens := r.2.1 })
  match b with
  | .prompt b => array b.tokenAddr b.tokenCount
  | .draft b => array b.draftAddr b.draftCount
  | .openS b =>
    if b.stopAddr = 0 then (s, .ok {})
    else
      let r := s.hostRead b.stopAddr 704
      (r.1, if r.2.poison then .error .poison else (parseStop vocab r.2.bytes).map fun x => { stop := x })
  | _ => (s, .ok {})

/-- Check 9 (R350). -/
def State.budgetOk (s : State) : Body → Bool
  | .openS b => (s.tenant b.tenant).budget.bit 63
  | .temper b => (s.tenant b.tenant).budget.bit 63
  | _ => true

/-- Pages of a session's token log (R340). -/
def logPageCount (capacity : Nat) : Nat := ceilDiv (4 * capacity) Config.pageBytes

/-- Pages of one checkpoint slot of a handle's image (R497). -/
def State.slotPages (s : State) (handle : Nat) : Nat :=
  2 + match (tfind s.serve.handles handle).bind fun i => s.serve.images.find? fun a => a.id == i with
    | some a => ceilDiv a.bytes Config.pageBytes
    | none => 0

/-- Check 10 (R340, R497). -/
def State.busyOk (s : State) (w : Nat) (b : Body) : Bool :=
  decide ((s.win w).awaiting < Config.maxAwaiting) && match b with
    | .openS b => decide (logPageCount b.capacity + 1 ≤ s.poolFree (w / 4))
    | .migrateIn _ => decide (1 ≤ s.poolFree (w / 4))
    | .temper b => decide (2 * s.slotPages b.handle ≤ s.poolFree (w / 4))
    | b => match bodyContext b with
      | some c => decide ((((s.sess c).queue.filter fun q => q.out.isNone).length) < Config.maxQueued)
      | none => true

/-- Checks 3 to 10 in order (R340): the first that fails, or the ingot the command is pinned to and its contents. -/
def State.check (s : State) (w : Nat) (h : CmdHead) (b : Body) : State × Except Code (Option IngotRec × Contents) :=
  if h.reservedSet ∨ formatOk b = false then (s, .error .format)
  else if s.lengthOk b = false ∨ ((bodySpans b).any fun e => s.checkRange e.1 e.2 == some .length) then (s, .error .length)
  else if s.authOk b = false then (s, .error .auth)
  else if s.stateOk w b = false then (s, .error .state)
  else if s.roleOk b = false then (s, .error .role)
  else match s.pinOf b with
    | .error c => (s, .error c)
    | .ok pin =>
      let r := s.readContents b ((pin.map (·.vocab)).getD 0)
      match r.2 with
      | .error c => (r.1, .error c)
      | .ok cont =>
        if s.budgetOk b = false then (r.1, .error .budget)
        else if s.busyOk w b = false then (r.1, .error .busy)
        else (r.1, .ok (pin, cont))

/-! ### Effects of acceptance -/

/-- The turn of a session's oldest command, when that is a PROMPT, GENERATE or DRAFT whose turn has come (R345). -/
def State.startHead (s : State) (x : Nat) : State :=
  let ss := s.sess x
  match ss.turn, ss.queue with
  | none, q :: _ =>
    if q.out.isSome then s
    else
      let optional := fun (v m : Nat) => if v = m then none else some v
      let turn : Option Turn := match q.body with
        | .prompt b => some {
            kind := .prompt, window := q.window, seq := q.seq, cookie := q.cookie, adapter := b.adapter, tokens := q.tokens
            deadline := optional b.deadline (2 ^ 64 - 1), floor := optional b.floor allOnes32
            lookup := b.flags % 2 = 1, shareable := b.flags / 2 % 2 = 1
            walkDone := !decide (b.flags % 2 = 1 ∧ ss.committed = 0) }
        | .generate b => some {
            kind := .generate, window := q.window, seq := q.seq, cookie := q.cookie, adapter := b.adapter
            maxNew := optional b.maxNew allOnes32, deadline := optional b.deadline (2 ^ 64 - 1)
            floor := optional b.floor allOnes32 }
        | .draft b => some {
            kind := .draft, window := q.window, seq := q.seq, cookie := q.cookie, adapter := b.adapter, tokens := q.tokens
            deadline := optional b.deadline (2 ^ 64 - 1), floor := optional b.floor allOnes32 }
        | _ => none
      match turn with
      | some t => s.modSess x fun y => { y with turn := some t, readySince := s.clock.time }
      | none => s
  | _, _ => s

/-- A session command joins its session's queue (R342, R345). -/
def State.enqueue (s : State) (x : Nat) (q : Queued) : State := (s.modSess x fun y => { y with queue := y.queue ++ [q], changed := true }).startHead x

/-- Pin a session to the generation of its command (R364). -/
def State.repin (s : State) (x : Nat) (pin : Option IngotRec) : State :=
  match pin with
  | some r => s.modSess x fun y => { y with generation := r.generation, kvTag := r.kvTag }
  | none => s

/-- Two checkpoint slots of a job (R497). -/
def State.takeSlots (s : State) (w n : Nat) : State × List Nat × List Nat :=
  match s.allocPages (w / 4) (2 * n) with
  | some a => (a.1, a.2.take n, a.2.drop n)
  | none => (s, [], [])

/-- Change what the package knows of generations. -/
def State.modGen (s : State) (f : Generations → Generations) : State := { s with pkg := { s.pkg with gen := f s.pkg.gen } }

/-- An adapter command awaits its outcome. -/
def State.addAdapterCmd (s : State) (c : AdapterCmd) : State :=
  { s with serve := { s.serve with adapterCmds := s.serve.adapterCmds ++ [c] } }

/-- What an accepted command does (R333, R334, R338, R342, R360, R363, R364, R366). -/
def State.accept (s : State) (w : Nat) (h : CmdHead) (b : Body) (pin : Option IngotRec) (cont : Contents) : State :=
  let q : Queued := {
    window := w, seq := h.seq, cookie := h.cookie, body := b, generation := (pin.map (·.generation)).getD 0
    tokens := cont.tokens, accepted := s.clock.time }
  match b with
  | .openS b =>
    match s.allocPages (w / 4) (logPageCount b.capacity + 1) with
    | none => s
    | some a =>
      let ss : Session := {
        st := .openS, window := w, tenant := b.tenant, cls := b.cls, kv8 := b.kvFormat = 1
        pub := b.share = 1 ∧ (s.reg .commons 0x100).bit 31, outRing := b.outRing, capacity := b.capacity
        temperature := b.temperature, topK := b.topK, seed := b.seed, stop := cont.stop
        generation := (pin.map (·.generation)).getD 0, kvTag := (pin.map (·.kvTag)).getD 0
        rootPage := a.2.headD 0, logPages := a.2.drop 1, openedAt := s.clock.time, opened := true }
      ((a.1.setSess b.context ss).renewKey (keySession b.context)).enqueue b.context q
  | .prompt b => (s.repin b.context pin).enqueue b.context q
  | .generate b => (s.repin b.context pin).enqueue b.context q
  | .draft b => (s.repin b.context pin).enqueue b.context q
  | .stop c => s.enqueue c q
  | .cancel c =>
    (s.modSess c fun y => { y with st := if y.st = .job then .job else .leaving, cancelling := true }).enqueue c q
  | .close c => (s.modSess c fun y => { y with st := .leaving }).enqueue c q
  | .migrateOut b => ((s.repin b.context pin).modSess b.context fun y => { y with st := .leaving }).enqueue b.context q
  | .migrateIn b =>
    match s.allocPages (w / 4) 1 with
    | none => s
    | some a =>
      let ss : Session := {
        st := .awaitingIn, window := w, outRing := b.outRing, rootPage := a.2.headD 0, openedAt := s.clock.time, opened := true
        generation := (pin.map (·.generation)).getD 0, kvTag := (pin.map (·.kvTag)).getD 0
        migration := some (b.package, b.tag, s.clock.time) }
      ((a.1.setSess b.context ss).renewKey (keySession b.context)).enqueue b.context q
  | .temper b =>
    let a := s.takeSlots w (s.slotPages b.handle)
    let job : Job := {
      handle := b.handle, microBatches := b.microBatches, batch := b.batch, rate := b.rate, interval := b.interval
      dataAddr := b.dataAddr, dataLen := b.dataLen, seed := b.seed
      slot0 := { pages := a.2.1 }, slot1 := { pages := a.2.2 }, copying := true }
    let ss : Session := {
      st := .job, window := w, tenant := b.tenant, cls := b.cls, openedAt := s.clock.time, opened := true, readySince := s.hubTime (w / 4)
      generation := (pin.map (·.generation)).getD 0, kvTag := (pin.map (·.kvTag)).getD 0, job := some job }
    ((a.1.setSess b.context ss).renewKey (keySession b.context)).enqueue b.context q
  | .adapterLoad b => s.addAdapterCmd { window := w, seq := h.seq, cookie := h.cookie, handle := b.handle, addr := b.imageAddr, len := b.length }
  | .adapterDrop hd => s.addAdapterCmd { window := w, seq := h.seq, cookie := h.cookie, handle := hd, drop := true }
  | .ingotStage b => s.modGen fun g => { g with staging := g.staging ++
      [⟨w, h.seq, h.cookie, b.generation, b.ingotAddr, b.ingotLen, b.patternTable⟩] }
  | .genSwitch n => s.modGen fun g => { g with switch := some ⟨w, h.seq, h.cookie, n, .waiting, []⟩ }
  | .unknown _ => s

/-- The mark cells of a hub are no longer current once it accepts a command (R348, R566). -/
def State.clearMarks (s : State) (h : Nat) : State :=
  { s with serve := { s.serve with marks := tmod (fun _ => {}) s.serve.marks h fun m => { m with valid := false } } }

/-! ### Decisions -/

/-- A command decided under checks 3 to 10 consumes its seq; the last number spends the window (R331, R341). -/
def State.consume (s : State) (w : Nat) : State :=
  s.modWin w fun x => { x with
    decided := true, spent := decide (2 ^ 64 - 1 ≤ x.nextSeq), nextSeq := min (x.nextSeq + 1) (2 ^ 64 - 1) }

/-- A record of the response ring about a decision. -/
def State.decision (s : State) (w : Nat) (h : CmdHead) (kind : Nat) (code : Nat) (body : List (Nat × Nat × Nat)) : State :=
  s.writeRecord w 0 { kind := kind, code := code, cookie := h.cookie, head := h.seq, time := s.hubTime (w / 4), body := body }

/-- The generation that an ACCEPT record names (R337, R364): the one that check 8 chose; for STOP, CANCEL and CLOSE, which pass that
check as they are, their session's; 0 for a package command. DEDUCED, log entry 43. -/
def State.pinnedTo (s : State) (b : Body) (pin : Option IngotRec) : Nat :=
  match b, pin with
  | .stop c, none => (s.sess c).generation
  | .cancel c, none => (s.sess c).generation
  | .close c, none => (s.sess c).generation
  | _, _ => (pin.map (·.generation)).getD 0

/-- Decide one command (R340 to R342): DUPLICATE, REJECT or ACCEPT. -/
def State.decideOne (s : State) (w : Nat) (h : CmdHead) (b : Body) : State :=
  let x := s.win w
  if x.spent ∨ h.seq < x.nextSeq then s.decision w h 0x03 0 [(32, 8, x.shownSeq)]
  else if x.nextSeq < h.seq then s.decision w h 0x02 Code.sequence.num [(32, 8, x.shownSeq)]
  else
    let r := s.check w h b
    let s1 := r.1.consume w
    match r.2 with
    | .error c => s1.decision w h 0x02 c.num [(32, 8, (s1.win w).shownSeq)]
    | .ok (pin, cont) =>
      let s2 := (s1.modWin w fun y => { y with
        accepted := some h.seq, awaiting := y.awaiting + 1, journal := s1.putJournal w (· ++ [(h.seq, b, 0)]) y.journal }).clearMarks (w / 4)
      let s3 := s2.decision w h 0x01 0 [(32, 2, (bodyContext b).getD 0xFFFF), (36, 4, s.pinnedTo b pin)]
      s3.accept w h b pin cont

/-- Decide what waits in the intake queue while the response ring has released slots (R330). -/
def State.decideAll (s : State) (w : Nat) : Nat → State
  | 0 => s
  | n + 1 =>
    let s1 := s.flushResp w (s.win w).heldOutcomes.length
    if (s1.win w).heldOutcomes.isEmpty ∧ s1.respFree w then
      match (s1.win w).queue with
      | [] => s1
      | (h, b) :: rest => ((s1.modWin w fun x => { x with queue := rest }).decideOne w h b).decideAll w n
    else s1

/-- Resume a window (R330). -/
def State.pump (s : State) (w : Nat) : State := s.decideAll w ((s.win w).queue.length + 1)

/-- A posted 64-byte write to a window's command port (R328, R329, R331): refused BUSY while intake is halted (R401, R542, R566, R570),
LOCKED when the window is spent, UNDRAINED when the queue is full; of a faulty hub no trace (R347). -/
def State.submit (s : State) (w : Nat) (h : CmdHead) (b : Body) : State :=
  if w / 4 ∈ s.pkg.hubFaulty then s
  else match s.pkg.phase with
    | .service =>
      if s.serve.debugScope.isSome ∨ s.lock.burn.any (fun b => b.kind == 4) then s.refuseWrite w h .busy
      else if (s.win w).spent then s.refuseWrite w h .locked
      else if Config.intakeQueue ≤ (s.win w).queue.length then s.refuseWrite w h .undrained
      else (s.modWin w fun x => { x with queue := x.queue ++ [(h, b)] }).pump w
    | .warmReset => s.modWin w fun x => { x with refusedLater := x.refusedLater ++ [(h.seq, h.cookie)] }
    | .entering => s.refuseWrite w h .busy
    | .sleepAck => s.refuseWrite w h .busy
    | .powerFail => s.refuseWrite w h .busy
    | .starting => s.refuseWrite w h .busy
    | _ => s

def execOpenSession (w : WinId) (h : CmdHead) (b : OpenBody) (s : State) : Host.Outcome State Fault Refusal :=
  .next (s.submit w.val h (.openS b))
def execPrompt (w : WinId) (h : CmdHead) (b : PromptBody) (s : State) : Host.Outcome State Fault Refusal :=
  .next (s.submit w.val h (.prompt b))
def execGenerate (w : WinId) (h : CmdHead) (b : GenerateBody) (s : State) : Host.Outcome State Fault Refusal :=
  .next (s.submit w.val h (.generate b))
def execDraft (w : WinId) (h : CmdHead) (b : DraftBody) (s : State) : Host.Outcome State Fault Refusal :=
  .next (s.submit w.val h (.draft b))
def execStop (w : WinId) (h : CmdHead) (context : Nat) (s : State) : Host.Outcome State Fault Refusal :=
  .next (s.submit w.val h (.stop context))
def execCancel (w : WinId) (h : CmdHead) (context : Nat) (s : State) : Host.Outcome State Fault Refusal :=
  .next (s.submit w.val h (.cancel context))
def execClose (w : WinId) (h : CmdHead) (context : Nat) (s : State) : Host.Outcome State Fault Refusal :=
  .next (s.submit w.val h (.close context))
def execAdapterLoad (w : WinId) (h : CmdHead) (b : AdapterLoadBody) (s : State) : Host.Outcome State Fault Refusal :=
  .next (s.submit w.val h (.adapterLoad b))
def execAdapterDrop (w : WinId) (h : CmdHead) (handle : Nat) (s : State) : Host.Outcome State Fault Refusal :=
  .next (s.submit w.val h (.adapterDrop handle))
def execIngotStage (w : WinId) (h : CmdHead) (b : IngotStageBody) (s : State) : Host.Outcome State Fault Refusal :=
  .next (s.submit w.val h (.ingotStage b))
def execGenSwitch (w : WinId) (h : CmdHead) (generation : Nat) (s : State) : Host.Outcome State Fault Refusal :=
  .next (s.submit w.val h (.genSwitch generation))
def execMigrateOut (w : WinId) (h : CmdHead) (b : MigrateOutBody) (s : State) : Host.Outcome State Fault Refusal :=
  .next (s.submit w.val h (.migrateOut b))
def execMigrateIn (w : WinId) (h : CmdHead) (b : MigrateInBody) (s : State) : Host.Outcome State Fault Refusal :=
  .next (s.submit w.val h (.migrateIn b))
def execTemper (w : WinId) (h : CmdHead) (b : TemperBody) (s : State) : Host.Outcome State Fault Refusal :=
  .next (s.submit w.val h (.temper b))

end Sys2Proof.Machine
end

