-- ==== Sys2Proof/Machine/Access.lean ====
section
/-!
DEFINITION. How a register write reaches the device (R9 to R14, R41, R570, R586): held in a warm reset, without effect where no
clock runs, refused with a code that the page logs.
-/
namespace Sys2Proof.Machine

/-- What a register write answers: the state and the status of its response, 0 or a code (R41). -/
abbrev Written := State × Nat

def ok (s : State) : Written := (s, 0)

/-- A write that is refused leaves the register and logs the access in its page (R548). -/
def State.refuse (s : State) (p : Page) (off : Nat) (c : Code) : Written := (s.logAccess p c (p.base + off) (s.hubOfPage p), c.num)

/-- A plain RW register: its fields take the write's values (R11). -/
def State.storeReg (s : State) (p : Page) (off : Nat) (v : Word) : Written := ok (s.storeFields p off v)

/-- A steward access: it takes effect where clocks run and hubs answer; in a warm reset the adapter holds it (R570); where the
package is stopped nothing happens (R586). -/
def State.access (s : State) (i : Instr) (f : State → State) : Host.Outcome State Fault Refusal :=
  if s.answers then .next (f s)
  else if s.pkg.phase = .warmReset then .next { s with links := { s.links with heldAccesses := s.links.heldAccesses ++ [i] } }
  else .next s

end Sys2Proof.Machine
end

