-- ==== Sys2Proof/Machine/Patterns.lean ====
section
/-!
DEFINITION. Patterns and the control registers of a die: loading and unloading (R200, R201, R214 to R216, R234 to R240), memory
mode (R199, R200), fences (R256), recasts (R503, R504), gauging order (R555), histogram selection (R556).
-/
namespace Sys2Proof.Machine

/-! ### What a pattern uses -/

/-- The logical croft of a place in a pad. -/
def placeCroft : RowPlace → Option (Nat × Nat)
  | .act r j _ => some (r.val, j.val)
  | .ps r j _ => some (r.val, j.val)
  | .gran _ _ => none
  | .column _ _ _ => none

/-- Logical crofts a pattern uses in any of its sections, as (row, logical column). -/
def patternCrofts (p : PatternImage) : List (Nat × Nat) :=
  ((p.windows.map fun w => (w.row.val, w.lcol.val)) ++ (p.regions.map fun r => (r.row.val, r.lcol.val)) ++
    (p.hot.map fun h => (h.row.val, h.lcol.val)) ++ (p.laneMap.map fun e => (e.row.val, e.lcol.val)) ++
    (p.runs.map fun r => (r.row.val, r.lcol.val)) ++ (p.staging.map fun g => (g.row.val, g.lcol.val)) ++
    (p.transfers.flatMap fun t => (placeCroft t.src).toList ++ (placeCroft t.dst).toList) ++
    (p.crossDie.filterMap fun c => placeCroft c.place) ++ p.jobLines.map fun j => (j.row.val, j.lcol.val)).eraseDups

/-- Physical crofts that hold them on a die now. -/
def State.usedCrofts (s : State) (d : Nat) (p : PatternImage) : List Nat :=
  (patternCrofts p).map fun e => s.physOf d e.1 e.2

/-! ### The header (R234) -/

/-- The header fields and the directory as they lie in memory from address `a`, over an image whose sections are given. -/
def headerAt (m : Memory) (a : Nat) (p : PatternImage) : PatternImage :=
  let get := fun (o n : Nat) => Memory.getLe m (a + o) n
  { p with
    formatVersion := get 0 4, dieRevision := get 4 2, role := get 6 1, memMode := get 7 1, dieIndex := get 8 2, firstStage := get 10 2
    stageCount := get 12 2, lanes := get 14 2, cycles := get 16 4, quench := get 20 2, minBell := get 22 2, detourHops := get 24 1
    slack := get 25 1, sectionCount := get 26 2, generation := get 28 4, ingotDigest := get 32 64, imageDigest := get 96 64
    sections := ((List.range 245).map fun i =>
      (⟨get (164 + 16 * i) 2, get (168 + 16 * i) 6, get (174 + 16 * i) 6⟩ : SectionRef)).filter fun e => decide (e.length ≠ 0) }

/-- The pattern image that lies at an engine address of the stack aperture: its header is decoded; its sections are those that the command
brings, else open (log 28). -/
def State.patternIn (s : State) (a len4k : Nat) (sections : Option PatternImage := none) : PatternImage :=
  { headerAt s.hbm.mem (a - 2 ^ 40) (sections.getD (Config.patternAt s.hbm.mem a)) with base := a, size := 4096 * len4k }

/-- The image that a write of DIE.PAT_LOAD names (R235). -/
def State.patternNamed (s : State) (v : Word) (sections : Option PatternImage := none) : PatternImage :=
  s.patternIn (v.field 12 36 * 4096) (v.field 48 16) sections

/-- The digest of an image over its whole length, its digest field read as zero (R234), as a number. -/
def State.imageDigestAt (s : State) (a bytes : Nat) : Nat :=
  natOf (shake256 ((List.range bytes).map fun i =>
    if 96 ≤ i ∧ i < 160 then 0 else (s.hbm.mem.get (a - 2 ^ 40 + i)).toNat) 64)

/-! ### The checks of a load (R236) -/

/-- The coordinates that a spare holds, whose detour patches a load applies (R238). -/
def State.mapPatches (s : State) (d : Nat) : List (Nat × Nat × Nat) :=
  (s.croftsOf d).filterMap fun n => if s.service n = .inService then
    (s.croft n).spareColumn.map fun j => (croftRow n, j, n) else none

def countIn (l : List (Nat × Nat)) (lo n : Nat) : Nat := (((l.map (·.1)).filter fun c => decide (lo ≤ c) && decide (c < lo + n)).eraseDups).length

/-- Check 4 (R236). -/
def headerOk (p : PatternImage) (d : Nat) : Bool :=
  p.formatVersion == 1 && p.dieIndex == d && decide (1 ≤ p.stageCount) && decide (p.stageCount ≤ 1024) && decide (1 ≤ p.lanes) &&
    decide (p.lanes ≤ 64) && decide (p.detourHops ≤ 16) && decide (p.slack ∈ [4, 8, 16]) && decide (1 ≤ p.sectionCount) &&
    decide (p.sectionCount ≤ 245)

/-- Check 10 (R242 to R244, R296): times in ns, those with fractions in eighths. -/
def timesOk (p : PatternImage) (bellNs : Nat) : Bool :=
  decide (p.minBell ≤ bellNs) && decide (8 * 52 + 4 * p.cycles + 5 * p.quench ≤ 8 * bellNs) &&
    (p.windows.all fun w => decide (w.deliverNs + 240 ≤ bellNs)) && (p.sendsNs.all fun t => decide (t + 130 ≤ bellNs)) &&
    (p.crossDie.all fun c => !c.sends || decide (c.sendNs + 130 ≤ bellNs)) &&
    p.exchanges.all fun e => decide (e.sendNs + 120 + 200 + 100 ≤ e.returnNs)

/-- Check 11 (R193, R229, R231): no two flits on one output in one cycle, a free cycle in every slack period of an east or west
output, one connection per port, and a side slot in every 32 cycles of a slice. -/
def scheduleOk (p : PatternImage) : Bool :=
  let output := fun (f : FlitPlan) => (f.row, f.col, f.port)
  let outs := (p.flits.map output).eraseDups
  let at_ := fun o => (p.flits.filter fun f => output f == o).map fun f => (f.cycle, 0)
  let noShare := decide ((p.flits.map fun f => (f.cycle, output f)).eraseDups.length = p.flits.length)
  let slackOk := outs.all fun o => !(o.2.2 == LinkDir.num .east || o.2.2 == LinkDir.num .west) ||
    (List.range (p.cycles / p.slack + 1)).all fun k => decide (countIn (at_ o) (k * p.slack) p.slack < p.slack)
  let crossOk := decide ((p.crossbar.map fun c => (c.cycle, c.port)).eraseDups.length = p.crossbar.length) &&
    decide ((p.crossbar.map fun c => (c.cycle, c.slice)).eraseDups.length = p.crossbar.length)
  let slices := (p.crossbar.map fun c => c.slice).eraseDups
  let sideOk := slices.all fun sl =>
    let cyc := (p.crossbar.filter fun c => c.slice == sl).map fun c => (c.cycle, 0)
    cyc.all fun c => decide (countIn cyc c.1 32 < 32)
  noShare && slackOk && crossOk && sideOk

/-- Buffer liveness (R237): a read comes before a write of the round begins to land, or after it has landed (2 × A cycles later when its data
come from another croft). A read before every write of its round takes what an earlier round wrote (R244). -/
def bufferOk (a : Nat) (b : BufferPlan) : Bool :=
  let late := fun (w : Nat × Bool) => w.1 + (if w.2 then 2 * a else 0)
  b.reads.all fun r => b.writes.all fun w => decide (r < w.1) || decide (late w < r)

/-- A place of lane state: kind, croft or slice, row. -/
def lanePlaces (e : LaneRows) : List (Nat × Nat × Nat) :=
  let c := 64 * e.row.val + e.lcol.val
  e.act.map (fun r => (0, c, r)) ++ e.ps.map (fun r => (1, c, r)) ++ e.lines.map (fun r => (2, c, r)) ++
    e.gran.map fun g => (3, g.1, g.2)

/-- Store lines of a logical croft that tempering jobs have (R219). -/
def jobLinesOf (p : PatternImage) (c : Nat) : Nat :=
  ((p.jobLines.filter fun j => 64 * j.row.val + j.lcol.val == c).map fun j => j.lines.length).foldl (· + ·) 0

/-- Lanes share no row (R218), and the quench interval holds every lane, the lines of tempering jobs and the open rows (R219). -/
def lanesOk (p : PatternImage) : Bool :=
  let all := p.laneMap.flatMap fun e => (lanePlaces e).map fun x => (x, e.lane)
  let apart := all.all fun a => all.all fun b => !(a.1 == b.1) || a.2 == b.2
  let places := (all.map (·.1)).eraseDups
  let rows := fun (kind c : Nat) => (places.filter fun x => x.1 == kind && x.2.1 == c).length
  let each := fun (kind : Nat) (ok : Nat → Bool) => ((places.filter fun x => x.1 == kind).map fun x => x.2.1).eraseDups.all ok
  let lines := fun (c : Nat) => decide (rows 2 c + jobLinesOf p c ≤ p.quench)
  apart && decide (p.quench ≤ 256) && each 0 (fun c => decide (rows 0 c ≤ p.quench)) && each 1 (fun c => decide (rows 1 c ≤ p.quench)) &&
    each 2 lines && (p.jobLines.all fun j => lines (64 * j.row.val + j.lcol.val)) &&
    each 3 (fun c => decide (4 * (rows 3 c + p.openRows) ≤ 5 * p.quench)) && decide (4 * p.openRows ≤ 5 * p.quench)

def allEqual {α : Type} [DecidableEq α] (l : List α) : Bool :=
  match l with
  | [] => true
  | x :: xs => xs.all fun y => decide (y = x)

/-- The moulds that a run of the programs sums share one span (R157). -/
def runSpansOk (p : PatternImage) : Bool :=
  p.runs.all fun r => allEqual (p.spans.filterMap fun e =>
    if e.row = r.row ∧ e.lcol = r.lcol ∧ e.mould ∈ r.moulds then some e.span else none)

/-- Check 12. -/
def contentsOk (p : PatternImage) : Bool :=
  (p.buffers.all (bufferOk p.detourHops)) && lanesOk p && (p.spanGroups.all allEqual) && runSpansOk p && p.omegaGroups.all allEqual

/-- Check 13 (R209, R252, R254). That a pattern which does not declare a faulty router's position blocked is refused here, with FENCED, is the
model's choice: the words of the check do not name the case. DESIGN CHOICE, log 114. -/
def State.positionsOk (s : State) (d : Nat) (p : PatternImage) : Bool :=
  let used := s.usedCrofts d p
  let blocked := fun (n : Nat) => decide ((croftRow n, croftCol n) ∈ p.blocked)
  (used.all fun n => s.service n == .inService && !blocked n) &&
    (p.flits.all fun f => !decide ((f.row, f.col) ∈ p.blocked)) &&
    ((s.croftsOf d).all fun n => !(s.croft n).routerFault || blocked n) && (s.mapPatches d).all (fun e => detourFits p e.1 (physColumn e.2.1) (croftCol e.2.2)) &&
    (s.die d).refusedRows.all fun r => !p.owned.any fun o =>
      o.slice.val == r / 2048 && decide (o.first ≤ r % 2048) && decide (r % 2048 ≤ o.last)

/-- Hot rows of a logical croft. -/
def hotRowsOf (p : PatternImage) (row col : Nat) : Nat :=
  ((p.hot.filter fun h => h.row.val == row && h.lcol.val == col).map fun h => h.rows.length).foldl (· + ·) 0

/-- Check 9: every section lies within the image, and the pattern region of every croft holds its image and its hot-row copies, of at most
64 rows a mould (R120, R186). The code for more hot rows than a mould may have is the model's choice. DESIGN CHOICE, log 57. -/
def regionsOk (p : PatternImage) (bytes : Nat) : Bool :=
  (p.sections.all fun e => decide (e.offset + e.length ≤ bytes)) &&
    (p.regions.all fun r => decide (r.bytes + 128 * hotRowsOf p r.row.val r.lcol.val ≤ 163840)) &&
    p.hot.all fun h => decide (h.rows.length ≤ 64) && decide (128 * hotRowsOf p h.row.val h.lcol.val ≤ 163840) &&
      decide (0x18000 ≤ h.copies) && decide (h.copies + 128 * h.rows.length ≤ 0x40000)

/-- Checks 2 to 7 and 9 to 12 of R236, those an ingot's patterns pass when it is staged (R363); check 2 by base and length. -/
def State.imageChecks (s : State) (d : Nat) (p : PatternImage) (base len4k : Nat) (records : Bool) : Option Code :=
  let bytes := 4096 * len4k
  if s.checkRange base (max bytes 1) = some .auth then some .auth
  else if len4k = 0 ∨ s.checkRange base bytes = some .length then some .length
  else if s.poisonIn base bytes then some .poison
  else if s.imageDigestAt base bytes ≠ p.imageDigest ∨ headerOk p d = false then some .format
  else if p.dieRevision ≠ s.pkg.dieRevision then some .auth
  else if p.role ≠ s.pkg.role ∨ ¬(p.role = 1 ∨ p.role = 2 ∨ p.role = 4) then some .role
  else if p.memMode ≠ b2n (s.die d).mapMode then some .format
  else if records ∧ !((s.usedCrofts d p).all fun n => (s.croft n).digest == p.ingotDigest && (s.croft n).generation == p.generation)
    then some .auth
  else if regionsOk p bytes = false then some .length
  else if timesOk p s.pkg.bellNs = false ∨ scheduleOk p = false ∨ contentsOk p = false then some .format
  else none

/-- The checks of R236 in order. -/
def State.loadCheck (s : State) (d : Nat) (p : PatternImage) (base len4k : Nat) : Option Code :=
  let x := s.die d
  if s.stepOnDie d ∨ x.patchBusy ∨ !x.spareJobs.isEmpty ∨ x.loading.isSome then some .busy
  else match s.imageChecks d p base len4k true with
    | some c => some c
    | none => if s.positionsOk d p then none else some .fenced

/-! ### Loading -/

/-- Every slice lease of a die ends (R238, R259). -/
def Die.revokeAll (x : Die) : Die := { x with leases := x.leases.map fun e => (e.1, e.2.finish) }

/-- A load that has passed its checks begins (R238): leases end and DIE.EPOCH rises. -/
def State.beginLoad (s : State) (d : Nat) (p : PatternImage) (ofSwitch : Bool) : State :=
  s.modDie d fun x => { x.revokeAll with
    loading := some p, loadingSwitch := ofSwitch, loadDone := false, loadClean := true, unloadLoad := false, epoch := x.epoch + 1 }

/-- Pads powered down, or powered up and zero-filled (R200, R216): no row keeps its contents. -/
def Croft.clearPads (c : Croft) : Croft := { c with actPad := [], psPad := [], actBad := [], psBad := [], satMarks := [], accSpans := [], sigmas := [] }

/-- The granary powered down, or powered up and zero-filled. -/
def Die.clearGranary (x : Die) : Die := { x with granary := [], granBad := [], granSigmas := [], gather := [], openRows := [] }

/-- The pattern region and hot-row copies of one logical croft are written (R238). -/
def State.loadRegion (s : State) (d : Nat) (p : PatternImage) (at_ : Nat × Nat) : State :=
  s.modCroft (s.physOf d at_.1 at_.2) fun c => (c.writeRegion p at_.1 at_.2).writeHot p at_.1 at_.2 c

/-- Lanes a session held on a die hold nothing once every row of the die is zero. -/
def Session.dropLanes (x : Session) (d : Nat) : Session := { x with lanesHeld := x.lanesHeld.filter fun e => e.1 != d }

/-- LOAD_COMPLETE (R216, R238): every group the pattern names reads zero, the pattern-region images and hot rows are in the weight
stores, the detour patches of the current map are applied, and the pattern runs from the next bell. Messages that carry another epoch than
DIE.EPOCH are refused, so that a load they belong to completes nothing. -/
def execLoadComplete (die : DieId) (epoch : Nat) (s : State) : Host.Outcome State Fault Refusal :=
  let d := die.val
  match (s.die d).loading with
  | none => .next s
  | some p =>
    if (s.die d).epoch.toNat ≠ epoch then .next s
    else
      let s1 := (s.croftsOf d).foldl (fun (t : State) n => t.modCroft n Croft.clearPads) s
      let s2 := (patternCrofts p).foldl (fun (t : State) e => t.loadRegion d p e) s1
      let s3 : State := { s2 with serve := { s2.serve with
        sessions := tmap (fun _ => {}) (fun _ x => x.dropLanes d) s2.serve.sessions } }
      .next (s3.modDie d fun x => { x.clearGranary with
        powerAct := p.powerAct, powerPs := p.powerPs
        powerGran := p.powerGran.foldl (fun t e => tput (fun _ => 0) t e.1 e.2) []
        patches := s.mapPatches d, loadDone := true })

/-- Write DIE.PAT_LOAD (R235, R236, R240): a write with go and unload both set, or an unload with a step on the die, is refused; the
reeve enters the code of a failed check in the die's error record (R236, R588). -/
def State.writePatLoad (s : State) (d : Nat) (v : Word) (image : PatternImage) : Written :=
  let go := v.bit 0
  let unload := v.bit 1
  let s1 := s.storeFields (.die d) 0x108 v
  if go ∧ unload then s.refuse (.die d) 0x108 .format
  else if go then
    match s.loadCheck d image (v.field 12 36 * 4096) (v.field 48 16) with
    | some c => ok (s1.logError (.die d) c ((Page.die d).base + 0x108) 4 d)
    | none => ok (s1.beginLoad d image false)
  else if unload then
    if s.stepOnDie d then s.refuse (.die d) 0x108 .busy
    else ok (s1.modDie d fun x => { x with unloadAsked := true, unloadLoad := x.loading.isSome })
  else ok s1

/-- PAT_LOAD_GO (R235): header, directory and digest are those that lie in memory; the command brings what the sections say. -/
def execPatLoadGo (die : DieId) (v : Word) (image : PatternImage) (s : State) : Host.Outcome State Fault Refusal :=
  s.access (.patLoadGo die v image) fun t => (t.writePatLoad die.val v (t.patternNamed v (some image))).1

def execPatLoadUnload (die : DieId) (v : Word) (s : State) : Host.Outcome State Fault Refusal :=
  s.access (.patLoadUnload die v) fun t =>
    (t.writePatLoad die.val v (t.patternNamed v)).1

/-! ### Memory mode -/

/-- Write DIE.MEM_MODE (R199, R200): an accepted write powers every pad and granary row down. -/
def State.writeMemMode (s : State) (d : Nat) (v : Word) : Written :=
  let x := s.die d
  if x.pattern.isSome ∨ x.loading.isSome then s.refuse (.die d) 0x100 .busy
  else if v.bit 0 = false ∧ x.mapLocked then s.refuse (.die d) 0x100 .locked
  else
    let s1 := (s.croftsOf d).foldl (fun (t : State) n => t.modCroft n Croft.clearPads) s
    ok ((s1.storeFields (.die d) 0x100 v).modDie d fun y => { y.clearGranary with
      mapMode := v.bit 0, powerAct := 0, powerPs := 0, powerGran := [] })

def execMemMode (die : DieId) (v : Word) (s : State) : Host.Outcome State Fault Refusal :=
  s.access (.memMode die v) fun t => (t.writeMemMode die.val v).1

/-! ### Fences, recasts, gauging order, histogram -/

/-- Write DIE.FENCE_REQ (R256). -/
def State.writeFenceReq (s : State) (d : Nat) (v : Word) : Written :=
  if 33 < v.field 0 6 then s.refuse (.die d) 0x110 .length
  else ok (s.fence (2048 * d + 64 * v.field 8 5 + v.field 0 6))

def execFenceReq (die : DieId) (v : Word) (s : State) : Host.Outcome State Fault Refusal :=
  s.access (.fenceReq die v) fun t => (t.writeFenceReq die.val v).1

/-- A croft has a cast in progress or queued (R504). -/
def Croft.castBusy (c : Croft) : Bool :=
  !c.recasts.isEmpty || c.moulds.any fun e => e.2.cast.isSome || e.2.castWaiting || !e.2.spareWaiting.isEmpty

/-- Logical moulds of a croft whose recast_due bit is set, in ascending order. -/
def Croft.dueMoulds (c : Croft) : List Nat :=
  (List.range 16).filter fun k => match c.holding k with
    | some m => (c.mould m).recastDue
    | none => false

/-- Write DIE.RECAST_REQ (R74, R503, R504). The order of ROLE and STATE is the model's choice. DESIGN CHOICE, log 57. -/
def State.writeRecastReq (s : State) (d : Nat) (v : Word) : Written :=
  let n := 2048 * d + 64 * v.field 8 5 + v.field 16 6
  if 33 < v.field 16 6 then s.refuse (.die d) 0x118 .length
  else if s.pkg.role = 3 then s.refuse (.die d) 0x118 .role
  else if s.service n ≠ .inService then s.refuse (.die d) 0x118 .state
  else if (s.croft n).castBusy then s.refuse (.die d) 0x118 .busy
  else ok (s.modCroft n fun c => { c with recasts := if v.bit 4 then c.dueMoulds else [v.field 0 4] })

def execRecastMould (die : DieId) (v : Word) (s : State) : Host.Outcome State Fault Refusal :=
  s.access (.recastMould die v) fun t => (t.writeRecastReq die.val v).1
def execRecastAll (die : DieId) (v : Word) (s : State) : Host.Outcome State Fault Refusal :=
  s.access (.recastAll die v) fun t => (t.writeRecastReq die.val (v ||| 16)).1

/-- Write GAUGE.FORCE (R555): the mould goes to the head of its croft's gauging order. -/
def State.writeGaugeForce (s : State) (d : Nat) (v : Word) : Written :=
  let n := 2048 * d + 64 * v.field 16 5 + v.field 8 6
  let m := v.field 0 5
  if 33 < v.field 8 6 ∨ 17 < m then s.refuse (.gauge d) 0x108 .length
  else if s.service n ≠ .inService ∨ (s.mould n m).slot.isNone ∨ (s.mould n m).state ≠ .cast then s.refuse (.gauge d) 0x108 .state
  else ok (s.modCroft n fun c => { c with forced := m :: c.forced.filter fun k => k != m })

def execGaugeForce (die : DieId) (v : Word) (s : State) : Host.Outcome State Fault Refusal :=
  s.access (.gaugeForce die v) fun t => (t.writeGaugeForce die.val v).1

/-- RISER.HIST_SEL takes effect at the next bell (R556). -/
def execHistSel (die : DieId) (v : Word) (s : State) : Host.Outcome State Fault Refusal :=
  s.access (.histSel die v) fun t => t.storeFields (.riser die.val) 0x100 v

def execLeaseRevoke (die : DieId) (v : Word) (s : State) : Host.Outcome State Fault Refusal :=
  s.access (.leaseRevoke die v) fun t => t.writeLeaseRevoke die.val v

end Sys2Proof.Machine
end

