-- ==== Sys2Proof/Machine/Ledger.lean ====
section
/-!
DEFINITION. What admission weighs (chapters 08 and 09): pipeline copies and their holds, the engine cycles of R297, and the tally's
ledger with the charges of steps, patterns and casts.
-/
namespace Sys2Proof.Machine

/-! ### Pipeline copies -/

/-- A pipeline copy: its dies with their stage counts in stage order, whether one of them is on the degraded pattern, and in the mixed
role the part it belongs to (R25). -/
structure Copy where
  dies : List (Nat × Nat)
  down : Bool
  part : PackagePart := .generation
  deriving DecidableEq, Repr

/-- The pattern that gives a die its place in a copy: the loaded one, or the one the degraded pattern displaced (R254). -/
def Die.placed (x : Die) : Option PatternImage := if x.degraded then (match x.pattern with | some p => some p | none => x.lost) else x.pattern

/-- A die's place: die, first stage, stage count, degraded, part of a mixed package. -/
structure Piece where
  die : Nat
  first : Nat
  count : Nat
  down : Bool
  part : PackagePart
  deriving DecidableEq, Repr

def State.pieces (s : State) : List Piece :=
  (List.range 16).filterMap fun d => ((s.die d).placed).map fun p => ⟨d, p.firstStage, p.stageCount, (s.die d).degraded, p.part⟩

/-- Dies of one part that continue a copy from stage `total` on, lowest unused die first; outside the mixed role the parts are one. -/
def chainFrom (ps : List Piece) (part : Option PackagePart) : Nat → List Nat → Nat → List Piece
  | 0, _, _ => []
  | fuel + 1, used, total =>
    match ps.find? fun p => p.first == total && decide (p.die ∉ used) && decide (0 < p.count) && part.all fun k => p.part == k with
    | none => []
    | some p => p :: chainFrom ps part fuel (p.die :: used) (total + p.count)

def pieceStages (ps : List Piece) : Nat := (ps.map (·.count)).foldl (· + ·) 0

/-- The copies of the package (log 25): chains of dies from stage 0 on; a chain that stops short of the last stage misses a die and is no
copy. In the mixed role a copy lies in one part, to whose last stage it runs, and there is none unless each part holds its own (R25; log 44). -/
def State.copies (s : State) : List Copy :=
  let ps := s.pieces
  let mixed := s.pkg.role == 4
  let most := fun (k : Option PackagePart) =>
    ((ps.filter fun p => !mixed || k == some p.part).map fun p => p.first + p.count).foldl max 0
  let all := (ps.filter fun p => p.first == 0).foldl (fun (acc : List (List Piece) × List Nat) p =>
    if p.die ∈ acc.2 then acc
    else
      let c := p :: chainFrom ps (if mixed then some p.part else none) 16 (p.die :: acc.2) p.count
      (acc.1 ++ [c], acc.2 ++ c.map (·.die))) ([], [])
  let found := (all.1.filter fun c => pieceStages c == most (c.head?.map (·.part))).map fun c =>
    (⟨c.map fun p => (p.die, p.count), c.any (·.down), (c.head?.map (·.part)).getD .generation⟩ : Copy)
  if mixed && !((found.any fun c => c.part == .prefill) && found.any fun c => c.part == .generation) then [] else found

def Copy.stages (c : Copy) : Nat := (c.dies.map (·.2)).foldl (· + ·) 0

/-- Lanes of the pattern that holds a copy's first stage. -/
def State.lanesOf (s : State) (c : Copy) : Nat :=
  ((c.dies.head?.bind fun e => (s.die e.1).pattern).map (·.lanes)).getD 0

/-- A window of the pattern lies on a logical mould that is out of service (R140, R504). -/
def State.heldWindow (s : State) (d : Nat) (p : PatternImage) : Bool :=
  p.windows.any fun w => decide (w.mould.val ∈ (s.croft (s.physOf d w.row.val w.lcol.val)).held)

/-- The pattern uses a coordinate whose spare is not live yet (R253). -/
def State.heldCoordinate (s : State) (d : Nat) (p : PatternImage) : Bool :=
  let used := patternCrofts p
  (s.die d).spareJobs.any fun j => j.announced && decide ((j.row, j.column) ∈ used)

/-- A croft that the pattern uses is out of service under R90 (R583). -/
def State.heldCroft (s : State) (d : Nat) (p : PatternImage) : Bool :=
  (s.usedCrofts d p).any fun n => s.service n == .outOfService

/-- A stand-in copy that the pattern's crofts use is being fetched again (R212): a re-run waits for it. -/
def State.refetching (s : State) (c : Copy) : Bool :=
  c.dies.any fun e => match (s.die e.1).pattern with
    | some p => (s.usedCrofts e.1 p).any fun n => (s.croft n).moulds.any fun m => m.2.standins.any (·.refetch)
    | none => false

/-- Steps of a copy are held at admission (R140, R253, R504, R583), and while the quick gauging check of a die has not ended (R397). -/
def State.copyHeld (s : State) (c : Copy) : Bool :=
  c.dies.any fun e => match (s.die e.1).pattern with
    | some p => s.heldWindow e.1 p || s.heldCoordinate e.1 p || s.heldCroft e.1 p || !(s.die e.1).quickDue.isEmpty
    | none => true

/-! ### Engine cycles (R264, R297) -/

/-- Descriptors of a walk: hub, cycles, keys. -/
def descriptorCost (kv8 : Bool) (items : List WalkItem) (queries : Nat) : List (Nat × Nat × Nat) :=
  items.filterMap fun i => match i with
    | .page p _ n _ => some (stackOfPage p / 2, 16 + (if kv8 then 2 else 1) * n + 8 * ceilDiv n 64 + 2 * queries, n)
    | .remote _ _ _ => none

/-- The queries of a step in one key-value head, as the walk sees them. -/
def stepQueries (head group : Nat) (positions : List Nat) : List Query :=
  positions.flatMap fun p => List.replicate group { head := head, position := p, sigma := 0, codes := [] }

/-- Descriptors of queries at the given positions in one layer. -/
def State.layerDescriptors (s : State) (x layer : Nat) (positions : List Nat) : List (Nat × Nat × Nat) :=
  let m := s.sessShape x
  (List.range m.kvHeads).flatMap fun h =>
    let qs := stepQueries h m.group positions
    (batches (qs.length / 32 + 1) qs).flatMap fun b => descriptorCost (s.sess x).kv8 (s.walk x layer h b) b.length

/-- What a step adds to each exchange: die, stage, layer, hub, cycles, and the limit of the exchange (7/8 of 64 × HCLK cycles at
1.2 GHz). -/
structure Load where
  key : Nat × Nat × Nat × Nat
  cycles : Nat
  limit : Nat
  deriving DecidableEq, Repr

def State.exchangeLoads (s : State) (x first count : Nat) (c : Copy) : List Load :=
  c.dies.flatMap fun e => match (s.die e.1).pattern with
    | none => []
    | some p => p.exchanges.flatMap fun ex =>
      let ds := s.layerDescriptors x ex.layer ((List.range count).map (first + ·))
      let span := (ex.returnNs - 100) - (ex.sendNs + 120)
      (List.range 4).filterMap fun h =>
        let cyc := ((ds.filter fun d => d.1 == h).map (·.2.1)).foldl (· + ·) 0
        if cyc = 0 then none else some ⟨(e.1, ex.stage, ex.layer, h), cyc, 56 * (span * 6 / 5)⟩

/-- Query-set records of one layer of a step: one per key-value head and batch of 32 queries (R262, R272). -/
def State.layerRecords (s : State) (x count : Nat) : Nat :=
  let m := s.sessShape x
  m.kvHeads * ceilDiv (count * m.group) 32

/-- Records that a step's exchanges take at once: those of the stage that has the most exchanges. A record of the 1 GiB scratch area goes
back at its release time (R297). DESIGN CHOICE, log 59. -/
def State.stepRecords (s : State) (x count : Nat) (c : Copy) : Nat :=
  (c.dies.map fun e => match (s.die e.1).pattern with
    | none => 0
    | some p => ((List.range p.stageCount).map fun k => (p.exchanges.filter fun ex => ex.stage == k).length).foldl max 0).foldl max 0 *
      s.layerRecords x count

/-- The scratch area holds the records of a step beside those of the hub's steps in flight: 65,536 numbers (R272, R297). -/
def State.recordsFit (s : State) (h n : Nat) : Bool :=
  decide (((s.serve.steps.filter fun y => s.ownerHub y.context == h).map (·.records)).foldl (· + ·) 0 + n ≤ 65536)

/-- The step's cycles fit beside those of steps admitted to the same exchanges at this bell. -/
def loadsFit (have_ new_ : List Load) : Bool :=
  new_.all fun l => decide (((have_.filter fun k => k.key == l.key).map (·.cycles)).foldl (· + ·) 0 + l.cycles ≤ l.limit)

/-! ### Charges -/

/-- Linear interpolation of a stage's predictions (R375): entries at 0, 15, …, 105 °C, θ in 1/64 °C. -/
def interpolate (l : List Nat) (theta : Int) : Rat :=
  let at_ := fun (i : Nat) => (((l[i]?).getD 0 : Nat) : Rat)
  if theta ≤ 0 then at_ 0
  else if 6720 ≤ theta then at_ 7
  else
    let i := (theta / 960).toNat
    at_ i + (at_ (i + 1) - at_ i) * ((theta - 960 * (i : Int) : Int) : Rat) / 960

/-- Predicted energy of each stage of a copy, nJ (R375). -/
def State.stageEnergies (s : State) (c : Copy) : List Rat :=
  c.dies.flatMap fun e => match (s.die e.1).pattern with
    | none => List.replicate e.2 0
    | some p => (List.range e.2).map fun k => interpolate ((p.predictions[k]?).getD []) (s.junction e.1)

/-- The attention charge of a step of `count` positions, nJ (R265, R376): its descriptors and the codes they read are counted from the
committed length, so each of its queries is taken to read what the last committed position would. -/
def State.attentionCharge (s : State) (x count : Nat) : Rat :=
  let w := slotBytes (s.sess x).kv8
  let c := (s.sess x).committed
  let ds := if c = 0 then []
    else (List.range (s.sessShape x).layers.length).flatMap fun l => s.layerDescriptors x l (List.replicate count (c - 1))
  (ds.map fun d => (1 / 2 + (2 * d.2.2 * w : Nat) * 8 / 10000 : Rat)).foldl (· + ·) 0

/-- The tally window of a device time (R368). -/
def windowOfTime (t : Nat) : Nat := t / Config.tallyNs

/-- Sum amounts that fall in one window. -/
def addCharge (l : List (Nat × Rat)) (w : Nat) (e : Rat) : List (Nat × Rat) :=
  match l with
  | [] => [(w, e)]
  | (v, a) :: r => if v = w then (v, a + e) :: r else (v, a) :: addCharge r w e

/-- Charges of a step admitted at `now` (R375, R376): one per round, into the window of the bell that opens the round. -/
def State.stepCharges (s : State) (c : Copy) (attention : Rat) (now : Nat) : List (Nat × Rat) :=
  let es := s.stageEnergies c
  let share := attention / (max es.length 1 : Nat)
  (es.zipIdx).foldl (fun l e => addCharge l (windowOfTime (now + e.2 * s.pkg.bellNs)) (e.1 + share)) []

/-- Leakage of the loaded patterns per round, nJ (R377). -/
def State.leakPerRound (s : State) : Nat :=
  ((List.range 16).map fun d => ((s.die d).pattern.map (·.leakNj)).getD 0).foldl (· + ·) 0

/-- Moulds casting in the package. -/
def State.castingAll (s : State) : Nat :=
  (s.crofts.map fun e => e.2.casting).foldl (· + ·) 0

/-- Bells after `now` that fall in window `w`. -/
def bellsAfter (now p w : Nat) : Nat :=
  let hi := Config.tallyNs * (w + 1)
  let lo := Config.tallyNs * w
  if p = 0 then 0 else (hi - 1 - now) / p - (lo - 1 - now) / p

/-- The ledger entry of a window, fixed charges included (R374, R377). -/
def State.ledgerEntry (s : State) (now w : Nat) : Rat :=
  let base := tget (fun _ => 0) s.tally.ledger w
  let bells := s.leakPerRound * bellsAfter now s.pkg.bellNs w
  if w = windowOfTime now then base + (s.tally.leakNj + bells + 180 * s.tally.castSeen : Nat)
  else base + (bells + 180 * s.castingAll : Nat)

/-- TALLY.CAP in W (R369). -/
def State.capWatts (s : State) : Nat :=
  let v := (s.reg .tally 0x100).field 0 16
  if v = 0xFFFF then 1400 else v

/-- The gross allowance of a window that starts now, nJ (R371, R372). -/
def State.grossAllowance (s : State) : Nat :=
  let f := if s.tally.step = 0 then 4 else if s.tally.step = 1 then 3 else 1
  s.capWatts * 10000 * f / 4

/-- Enter charges in the ledger. -/
def State.charge (s : State) (l : List (Nat × Rat)) : State :=
  { s with tally := { s.tally with
    ledger := l.foldl (fun t e => tput (fun _ => 0) t e.1 (tget (fun _ => 0) t e.1 + e.2)) s.tally.ledger } }

/-- Remove a step's charges from every window that has not begun (R378). -/
def State.discharge (s : State) (now : Nat) (l : List (Nat × Rat)) : State :=
  s.charge ((l.filter fun e => decide (now < Config.tallyNs * e.1)).map fun e => (e.1, -e.2))

/-- The share of S open to a class, in percent (R381). -/
def State.classShare (s : State) (cls : Nat) : Nat :=
  match cls with
  | 1 => s.tally.limits.1
  | 2 => s.tally.limits.2.1
  | 3 => s.tally.limits.2.2
  | _ => 100

/-- A candidate's charges fit (R381). -/
def State.chargesFit (s : State) (now share : Nat) (l : List (Nat × Rat)) : Bool :=
  l.all fun e => decide (s.ledgerEntry now e.1 + e.2 ≤ s.tally.allow * share / 100)

/-- One more mould may cast under S in each of the `windows` windows that its cast touches (R380). -/
def State.castFits (s : State) (now windows : Nat) : Bool :=
  (List.range windows).all fun i => decide (s.ledgerEntry now (windowOfTime now + i) + 180 ≤ s.tally.allow)

end Sys2Proof.Machine
end

