-- ==== Sys2Proof/Machine/Turns.lean ====
section
/-!
DEFINITION. How work ends (chapter 08): outcome records, withdrawal, failure, commit of steps, restart of tempering jobs, and the
release of a session.
-/
namespace Sys2Proof.Machine

/-! ### Outcomes -/

/-- The outcome record of a session command (R337): kind 0x11 DONE or 0x12 FAILED; position and time are set when it is written. -/
def outcomeOf (q : Queued) (kind code detail flags tokens : Nat) (more : List (Nat × Nat × Nat)) : Record :=
  { kind := kind, code := code, flags := flags, detail := detail, cookie := q.cookie, body := [(32, 8, q.seq), (40, 4, tokens)] ++ more }

def doneOf (q : Queued) (reason : Nat) : Record := outcomeOf q 0x11 0 reason 0 0 []
def failedOf (q : Queued) (c : Code) (tokens : Nat) : Record := outcomeOf q 0x12 c.num 0 0 tokens []

/-- Decide the outcome of the command with this seq (R343: once only). -/
def State.setOut (s : State) (x seq : Nat) (f : Queued → Record) : State :=
  s.modSess x fun y => { y with queue := y.queue.map fun q => if q.seq = seq ∧ q.out = none then { q with out := some (f q) } else q }

/-- Write the outcomes at the front of a session's queue, in acceptance order, and begin the next turn (R338, R345). -/
def State.flushOuts (s : State) (x now : Nat) : Nat → State
  | 0 => s
  | n + 1 =>
    let ss := s.sess x
    match ss.queue with
    | [] => s
    | q :: rest => match q.out with
      | none => s.startHead x
      | some r =>
        let s1 := s.modSess x fun y => { y with queue := rest }
        let s2 := s1.modWin q.window fun w =>
          { w with awaiting := w.awaiting - 1, journal := s1.putJournal q.window (·.filter fun j => j.1 != q.seq) w.journal }
        (s2.emit x { r with head := outHead x ss.committed, time := now }).flushOuts x now n

def State.flushSession (s : State) (x now : Nat) : State := s.flushOuts x now ((s.sess x).queue.length + 1)

/-! ### Steps leave flight -/

/-- The query sets of a step are released; partials that still arrive for it go nowhere. -/
def State.dropSets (s : State) (step : Nat) : State :=
  (List.range 4).foldl (fun (t : State) h => t.modHub h fun y => { y with
    qsets := y.qsets.map fun e => if e.2.step = step ∧ !e.2.released then (e.1, { e.2 with released := true, waiting := [] }) else e }) s

/-- Return the slots a step reserved in its output ring (R339). -/
def State.unreserve (s : State) (x n : Nat) : State :=
  let ss := s.sess x
  s.modWin ss.window fun w => w.setRing (ss.outRing + 1) { w.ring (ss.outRing + 1) with reserved := (w.ring (ss.outRing + 1)).reserved - n }

/-- A step leaves flight: its sets, its ring slots, and its place in the list. -/
def State.leaveFlight (s : State) (x : Nat) (st : Step) : State :=
  let s1 := (s.dropSets st.id).unreserve x st.reservedSlots
  { s1 with serve := { s1.serve with steps := s1.serve.steps.filter fun y => y.id != st.id } }

/-- Lanes are to be quenched at the end of the round (R220, R221): die, lane, stage on the die. -/
def State.quenchLanesOf (s : State) (lanes : List (Nat × Nat × Nat)) : State :=
  (List.range 16).foldl (fun (t : State) d =>
    let mine : List (Nat × Nat) := (lanes.filter fun e => e.1 == d).map (·.2)
    if mine.isEmpty then t
    else t.modDie d fun y => { y with quenchLanes := (y.quenchLanes ++ mine).eraseDups }) s

/-- The open rows and job lines of a session or job are to be quenched at the end of the round (R220). -/
def State.quenchRowsOf (s : State) (x : Nat) (lines : List (Nat × Nat)) : State :=
  (List.range 16).foldl (fun (t : State) d =>
    let mine := lines.filter fun e => croftDie e.1 == d
    let opened := (t.die d).openRows.any fun e => e.1 == x
    if mine.isEmpty ∧ !opened then t
    else t.modDie d fun y => { y with
      quenchLines := y.quenchLines ++ mine
      quenchContexts := if opened then y.quenchContexts ++ [x] else y.quenchContexts }) s

/-- The lanes a step holds: its lane at every stage of its copy. -/
def stepLanes (dies : List (Nat × Nat)) (lane : Nat) : List (Nat × Nat × Nat) :=
  dies.flatMap fun e => (List.range e.2).map fun k => (e.1, lane, k)

/-- A step is withdrawn or ends early: charges of windows not begun go (R378), its tentative positions are rolled back, its pages are due
at the next bell (R141, R301, R302), and its lane is zeroed at the end of the round (R221). -/
def State.dropStep (s : State) (x now : Nat) : State :=
  match s.stepOf x with
  | none => s
  | some st =>
    (((s.leaveFlight x st).discharge now st.charges).quenchLanesOf (stepLanes st.dies st.lane)).modSess x fun y =>
      { y with tentative := y.committed, toFree := y.toFree ++ st.newPages.map (·.1) }

/-- The first code a failing re-run carries (R587). -/
def failCode (marks : List Cause) : Option Code :=
  if .parity ∈ marks then some .parity else if .format ∈ marks then some .format
  else if .unfilled ∈ marks then some .unfilled else if .epoch ∈ marks then some .epoch
  else if .fenced ∈ marks then some .fenced else if .timeout ∈ marks then some .timeout
  else if .reset ∈ marks then some .reset else none

/-- The first bell at which a withdrawn step may be re-admitted: the bell after the withdrawal for a mark of R204, R230, R273,
R275 and R298, no wait for FENCED and SUSPECT, which the hold and the probes decide, nor after a warm reset, whose steps are
re-admitted from the first bell on (R141, R205, R253, R347, R570). -/
def readyAfter (marks : List Cause) (now : Nat) : Nat :=
  if .reset ∈ marks then now
  else if marks.any fun c => c == .parity || c == .format || c == .unfilled || c == .epoch || c == .timeout then now + 1 else now

/-- Withdraw a first run; it waits to be re-admitted. The gradient sums that a withdrawn step of a job has added to are zeroed, so that
nothing of it is committed (R221). -/
def State.withdraw (s : State) (st : Step) (now : Nat) : State :=
  ((s.dropStep st.context now).quenchRowsOf st.context (((s.sess st.context).job.map (·.gradLines)).getD [])).modSess st.context fun y =>
    { y with rerun := some ⟨now, readyAfter st.marks now, st.id⟩ }

/-- The generation a context's work belongs to: that of the command whose turn runs, which keeps the one it was accepted under (R364), else
the session's. -/
def State.workGeneration (s : State) (x : Nat) : Nat :=
  let y := s.sess x
  ((y.turn.bind fun t => y.queue.find? fun q => q.seq == t.seq).map (·.generation)).getD y.generation

/-- The ingot of that generation. -/
def State.workIngot (s : State) (x : Nat) : Option IngotRec :=
  (s.pkg.gen.inService.toList ++ s.pkg.gen.staged.toList).find? fun r => r.generation == s.workGeneration x

/-! ### Turns end -/

/-- An outcome releases the image its turn has bound (R361). -/
def State.unbind (s : State) (image : Option Nat) : State :=
  match image with
  | none => s
  | some i => s.mapImages fun a => if a.id = i then { a with bound := a.bound - 1 } else a

/-- End the turn in progress with an outcome; its step must have left flight before. -/
def State.endTurn (s : State) (x : Nat) (kind code detail flags : Nat) (more : List (Nat × Nat × Nat)) : State :=
  match (s.sess x).turn with
  | none => s
  | some t =>
    ((s.unbind t.image).setOut x t.seq fun q => outcomeOf q kind code detail flags t.delivered more).modSess x fun y =>
      { y with turn := none, rerun := none, holdEnded := false }

def State.failTurn (s : State) (x : Nat) (c : Code) : State := s.endTurn x 0x12 c.num 0 0 []

/-- Give every open command of a session that stands before the one with this seq a FAILED record. -/
def State.failBefore (s : State) (x seq : Nat) (c : Code) : State :=
  let ss := s.sess x
  let tokens := fun (q : Queued) => match ss.turn with
    | some t => if t.seq = q.seq then t.delivered else 0
    | none => 0
  let before := ss.queue.takeWhile fun q => q.seq != seq
  before.foldl (fun (t : State) q => t.setOut x q.seq fun q => failedOf q c (tokens q)) s

/-! ### Release -/

/-- The store lines that a tempering job has (R219, R220): adapter and gradient lines that it has touched, and those that the patterns of its
dies assign to such jobs and no other job has touched. DESIGN CHOICE for lines that several jobs could have, log 111. -/
def State.jobLines (s : State) (x : Nat) (j : Job) : List (Nat × Nat) :=
  let dies := (((s.sess x).lanesHeld.map (·.1)) ++ j.crofts.map croftDie).eraseDups
  let others := s.serve.sessions.flatMap fun e => if e.1 = x then [] else (e.2.job.map fun k => k.lines ++ k.gradLines).getD []
  let planned := dies.flatMap fun d => ((s.die d).ranPattern.map fun p => p.jobLines.flatMap fun q =>
    q.lines.map fun l => (s.physOf d q.row.val q.lcol.val, l)).getD []
  (j.lines ++ j.gradLines ++ planned.filter fun e => !decide (e ∈ others)).eraseDups

/-- Release a session or job (R220, R349, R514): records it still holds stay with its window, its pages are dropped by reference
count, every lane it has held, its open rows and its adapter and gradient lines are due for quenching, its key is retired and its entry is
free. -/
def State.release (s : State) (x : Nat) : State :=
  let ss := s.sess x
  let s1 := ((s.unbind (ss.turn.bind (·.image))).unbind (ss.job.bind (·.image))).modWin ss.window fun w => { w with heldOut := w.heldOut ++ ss.held.map fun r => (ss.outRing + 1, r) }
  let lines := match ss.job with
    | some j => s.jobLines x j
    | none => []
  let s2 := (s1.quenchLanesOf ss.lanesHeld).quenchRowsOf x lines
  ((s2.dropSessionPages x).renewKey (keySession x)).setSess x {}

/-! ### Tempering jobs -/

/-- End a job with an outcome; its entry is released in action 4 of a bell (R349), where a CANCEL that waits behind the outcome is
answered (R343, R345). -/
def State.endJob (s : State) (x now : Nat) (kind code detail : Nat) : State :=
  let s1 := (((s.dropStep x now).unbind ((s.sess x).job.bind (·.image)))).modSess x fun y => { y with
    rerun := none, holdEnded := false
    job := y.job.map fun j => { j with ended := true, image := none, resetDue := false, restartAt := none } }
  let s2 := match ((s1.sess x).queue.find? fun q => match q.body with
      | .temper _ => true
      | _ => false) with
    | some q => s1.setOut x q.seq fun q => outcomeOf q kind code detail 0 0 []
    | none => s1
  s2.flushSession x now

/-- Release the entry of a job whose outcome is written: what was accepted behind it, a CANCEL, ends with it (R343, R356). -/
def State.releaseEnded (s : State) (x now : Nat) : State :=
  let s1 := (s.sess x).queue.foldl (fun (t : State) q => t.setOut x q.seq fun q => match q.body with
    | .cancel _ => doneOf q 7
    | _ => failedOf q .cancelled 0) s
  (s1.flushSession x now).release x

/-- Order crofts by logical coordinate. -/
def State.logicalOrder (s : State) (l : List CroftCkpt) : List CroftCkpt :=
  let at_ := fun (e : CroftCkpt) => 1024 * croftDie e.croft + 32 * croftRow e.croft + (s.columnOf e.croft).getD 0
  l.foldl (fun (acc : List CroftCkpt) e => acc.takeWhile (fun f => at_ f ≤ at_ e) ++ e :: acc.dropWhile (fun f => at_ f ≤ at_ e)) []

/-- The digest of a slot's pages (R497): bytes 128 onward of the state pages and every weight page. -/
def ckptDigest (pages : List (BitVec 8)) : List Nat := shake256 (nums (pages.drop 128)) 64

/-- Hub DMA writes a checkpoint into its slot (R497, R498): the registers of R178 in logical order from byte 128 on, the adapter lines in the
weight pages, and last the digest and the sequence. The order of the lines is the model's choice, DESIGN CHOICE, log 120. -/
def State.writeCkpt (s : State) (key : Nat) (k : CkptSlot) (lines : List (Nat × Nat)) : State :=
  let weights := lines.flatMap fun e => Memory.getBytes (s.croft e.1).store (256 * e.2) 256
  let s1 := (s.writePages (k.pages.drop 2) key weights).writePages (k.pages.take 2) key
    (List.replicate 128 0 ++ (s.logicalOrder k.crofts).flatMap fun e => leBytes 4 e.lfsr.toNat)
  let r := s1.readPages k.pages key
  r.1.writePages (k.pages.take 2) key (leBytes 8 k.sequence ++ leBytes 4 k.microBatch ++ leBytes 4 0 ++ leBytes 8 k.dataOffset ++
    leBytes 4 k.crofts.length ++ leBytes 36 0 ++ bits8 (ckptDigest r.2.bytes))

/-- A slot that a restart may take (R500): complete, not poisoned, and its digest verifies. -/
def State.checkCkpt (s : State) (key : Nat) (k : CkptSlot) : State × Bool :=
  if k.sequence = 0 then (s, false)
  else
    let r := s.readPages k.pages key
    (r.1, !r.2.poison && fieldAt (nums r.2.bytes) 0 8 == k.sequence && slice (nums r.2.bytes) 64 64 == ckptDigest r.2.bytes)

/-- The slot a restart takes (R500): the one with the higher sequence, or the other where that one is not usable. -/
def State.usableCkpt (s : State) (key : Nat) (j : Job) : State × Option CkptSlot :=
  let first := if j.slot0.sequence < j.slot1.sequence then j.slot1 else j.slot0
  let other := if j.slot0.sequence < j.slot1.sequence then j.slot0 else j.slot1
  let r := s.checkCkpt key first
  if r.2 then (r.1, some first)
  else
    let q := r.1.checkCkpt key other
    (q.1, if q.2 then some other else none)

/-- CHECKPOINT_DONE (R497, R498): the adapter lines and register states of the job's crofts are in the slot that does not hold the
newest complete checkpoint, under its tenant's key, and its digest and sequence are written last. -/
def execCheckpointDone (context : Nat) (s : State) : Host.Outcome State Fault Refusal :=
  match (s.sess context).job with
  | none => .next s
  | some j =>
    if j.copying = false then .next s
    else
      let crofts := j.crofts.map fun n =>
        let lines := j.lines.filter fun e => e.1 == n
        ({ croft := n, lfsr := (s.croft n).lfsr
           bytes := (s.croft n).store.filter fun c => lines.any fun e => c.1 / 256 == e.2 } : CroftCkpt)
      let into1 := decide (j.slot1.sequence ≤ j.slot0.sequence) && decide (0 < j.slot0.sequence)
      let fill := fun (k : CkptSlot) => { k with
        sequence := j.sequence + 1, microBatch := j.done, dataOffset := j.dataOffset, crofts := crofts }
      let t := s.writeCkpt (keyTenant (s.sess context).tenant) (fill (if into1 then j.slot1 else j.slot0)) j.lines
      .next (t.modSess context fun x => { x with
        readySince := if j.sequence = 0 then s.hubTime (x.window / 4) else x.readySince
        job := some { j with
        copying := false, sequence := j.sequence + 1, restarts := 0
        slot0 := if into1 then j.slot0 else fill j.slot0, slot1 := if into1 then fill j.slot1 else j.slot1 } })

/-- Reload a checkpoint's adapter lines and register states (R500). -/
def State.reload (s : State) (j : Job) (k : CkptSlot) : State :=
  let s1 := j.lines.foldl (fun (t : State) e => t.modCroft e.1 fun c => { c with store := Memory.clear c.store (256 * e.2) 256 }) s
  k.crofts.foldl (fun (t : State) e => t.modCroft e.croft fun c => { c with
    lfsr := e.lfsr, store := e.bytes.foldl (fun m b => Memory.set m b.1 b.2) c.store }) s1

/-- Restart a job from its newest usable checkpoint (R499 to R501): lanes quenched, state reloaded, re-admitted as a step whose
hold has ended; POISON without a checkpoint, the last cause once it has restarted four times from one checkpoint. -/
def State.restartJob (s : State) (x now : Nat) (c : Code) : State :=
  match (s.sess x).job with
  | none => s
  | some j =>
    if j.ended then s
    else
      let r := s.usableCkpt (keyTenant (s.sess x).tenant) j
      match r.2 with
      | none => r.1.endJob x now 0x12 Code.poison.num 0
      | some k =>
      if 4 ≤ j.restarts then r.1.endJob x now 0x12 c.num 0
      else
        let ss := s.sess x
        let s1 := r.1.dropStep x now
        let s2 := (s1.quenchLanesOf ss.lanesHeld).quenchRowsOf x j.gradLines
        (s2.reload j k).modSess x fun y => { y with
          rerun := none, holdEnded := true, readySince := now
          job := some { j with
            done := k.microBatch, dataOffset := k.dataOffset, copying := false, resetDue := false, restarts := j.restarts + 1, lastCause := some c
            restartAt := some now } }

/-- A step fails (R206, R254, R276, R320): its turn ends with FAILED, or its job restarts. -/
def State.failWork (s : State) (st : Step) (now : Nat) (c : Code) : State :=
  let x := st.context
  if (s.sess x).job.isSome then s.restartJob x now c
  else ((s.dropStep x now).failTurn x c).flushSession x now

/-! ### Commit -/

/-- What a run of delivered tokens comes to (R352, R353): the tokens delivered, the end reason, and the tail for stop sequences.
`k` counts delivered tokens of the step, `d` those of the turn. -/
def deliver (stop : StopRec) (maxNew : Option Nat) (cap c : Nat) : List Nat → Nat → Nat → List Nat → List Nat × Option Nat × List Nat
  | tail, _, _, [] => ([], none, tail)
  | tail, k, d, t :: rest =>
    let tail' := tail ++ [t]
    let reason : Option Nat :=
      if t ∈ stop.endTokens then some 1
      else if stop.seqs.any fun q => q.isSuffixOf tail' then some 2
      else if maxNew.any fun m => decide (m ≤ d + 1) then some 3
      else if cap ≤ c + k + 1 then some 4
      else none
    match reason with
    | some r => ([t], some r, tail')
    | none =>
      let more := deliver stop maxNew cap c tail' (k + 1) (d + 1) rest
      (t :: more.1, more.2)

/-- The token with the highest value, the lowest number among equals (R327). -/
def greedy : List B32 → Nat
  | [] => 0
  | x :: xs =>
    ((xs.zipIdx 1).foldl (fun (a : B32 × Nat) e => if F32.lt a.1 e.1 then e else a) (x, 0)).2

/-- Insert a token behind those of at least its value. -/
def insertToken (e : B32 × Nat) : List (B32 × Nat) → List (B32 × Nat)
  | [] => [e]
  | f :: l => if F32.lt f.1 e.1 then e :: f :: l else f :: insertToken e l

/-- The candidates of a sample: the top_k tokens by value, the whole vocabulary for 0 and 0xFFFF (R332). -/
def sampleTokens (topK : Nat) (l : List B32) : List (B32 × Nat) :=
  (l.zipIdx.foldl (fun a e => insertToken e a) []).take (if topK = 0 ∨ topK = 0xFFFF then l.length else topK)

/-- The token sampled from the output at a position (R327): greedy at temperature 0, else drawn among the candidates by a function of the
output, the temperature, the seed and the position alone. -/
def sampleOf (y : Session) (position : Nat) (l : List B32) : Nat :=
  if y.temperature = 0 then greedy l
  else
    let c := sampleTokens y.topK l
    (c.getD (Config.sampleIndex y.temperature y.seed position (c.map (·.1)) % c.length) (0, 0)).2

/-- The sample at a position of a step (R327): from the model's output that came with the bell, else a free value (log 4). -/
def State.sampleAt (s : State) (b : BellIn) (st : Step) (i : Nat) : State × Nat :=
  match (b.outs.find? fun o => o.step == st.id).bind fun o => o.outputs[i]? with
  | some l => (s, sampleOf (s.sess st.context) (st.first + i + 1) l)
  | none => (s.tick, Config.freeToken s.fresh)

/-- Samples at the first `n` positions. -/
def State.samples (s : State) (b : BellIn) (st : Step) (n : Nat) : State × List Nat :=
  (List.range n).foldl (fun (a : State × List Nat) i =>
    let r := a.1.sampleAt b st i
    (r.1, a.2 ++ [r.2])) (s, [])

/-- Length of the common start of two lists: drafts that the model's samples confirm (R301). -/
def agreeing : List Nat → List Nat → Nat
  | a :: as, b :: bs => if a = b then agreeing as bs + 1 else 0
  | _, _ => 0

/-- Charge a tenant (R350, R351): an unlimited refill keeps the balance at burst × 16. -/
def State.chargeTenant (s : State) (t amount : Nat) : State :=
  s.modTenant t fun y =>
    if y.budget.field 0 20 = 0xFFFFF then { y with balance := 16 * (y.budget.field 20 20 : Nat) }
    else { y with balance := max (-(2 ^ 31)) (y.balance - amount) }

/-- Flags byte of a step (R337). -/
def Step.flagByte (x : Step) : Nat := b2n x.suspect + 2 * b2n x.stale + 4 * b2n x.empty

/-- TOKENS records of up to 8 tokens (R354); the first token stands at `pos`. -/
def State.emitTokens (s : State) (x cookie flags now pos : Nat) : Nat → List Nat → State
  | 0, _ => s
  | n + 1, l =>
    if l.isEmpty then s
    else
      let part := l.take 8
      (s.emit x {
        kind := 0x10, flags := flags, detail := part.length, cookie := cookie, head := outHead x pos, time := now
        body := (part.zipIdx).map fun e => (32 + 4 * e.2, 4, e.1) }).emitTokens x cookie flags now (pos + 8) n (l.drop 8)

/-- The journal takes the progress of the command at the head of a session's queue (R344; DESIGN CHOICE of its form, log 103). -/
def State.noteProgress (s : State) (x n : Nat) : State :=
  match (s.sess x).queue with
  | [] => s
  | q :: _ => s.modWin q.window fun w => { w with
      journal := s.putJournal q.window (·.map fun e => if e.1 = q.seq then (e.1, e.2.1, e.2.2 + n) else e) w.journal }

/-- Positions up to `c` are committed: length, token log, adapter tag, and the command's progress (R301, R309, R344). -/
def State.commitTo (s : State) (x : Nat) (st : Step) (j tag : Nat) : State :=
  (s.noteProgress x j).modSess x fun y => { y with
    committed := st.first + j, tentative := st.first + j
    toFree := y.toFree ++ st.newPages.map (·.1)
    tokenLog := y.tokenLog.take st.first ++ st.tokens.take j
    firstTag := some (y.firstTag.getD tag), mixed := y.mixed || (y.firstTag.getD tag != tag) }

/-- A floor that a turn named frees pages at the bell after its first step's commit (R359). -/
def State.floorCommitted (s : State) (x : Nat) (t : Turn) : State :=
  if t.floorDue then s.modSess x fun y => { y with floorRaised := t.floor, turn := y.turn.map fun u => { u with floorDue := false } } else s

/-- Commit of a step of a PROMPT turn (R324): every position; the last step samples the pending token and ends the turn. In a
cancelled session of class P the token is dropped and the turn's record is left to the release (R356). -/
def State.commitPrompt (s : State) (b : BellIn) (st : Step) (t : Turn) (now : Nat) : State :=
  let x := st.context
  let ss := s.sess x
  let tag := s.adapterTag t.image
  let took := st.count - b2n ss.pending.isSome
  let rest := t.tokens.drop took
  let s1 := ((s.commitTo x st st.count tag).modSess x fun y => { y with
    pending := none, readySince := now
    turn := some { t with tokens := rest, flags := t.flags ||| st.flagByte } }).floorCommitted x t
  let s2 := if t.shareable then s1.insertPrefix x tag else s1
  if ss.cancelP then s2.unbind t.image |>.modSess x fun y => { y with turn := none }
  else if st.kind = .promptLast then
    let r := s2.sampleAt b st (st.count - 1)
    ((r.1.modSess x fun y => { y with pending := some r.2 }).endTurn x 0x11 0 7 (t.flags ||| st.flagByte)
      [(44, 4, t.shared), (48, 4, r.2)]).flushSession x now
  else s2

/-- Commit of a GENERATE or DRAFT step (R301, R325, R326, R352 to R354). -/
def State.commitTokens (s : State) (b : BellIn) (st : Step) (t : Turn) (now : Nat) : State :=
  let x := st.context
  let ss := s.sess x
  let r := s.samples b st st.count
  let a := if t.kind = .draft then agreeing r.2 (st.tokens.drop 1) else 0
  let out := deliver ss.stop t.maxNew ss.capacity st.first t.tail 0 t.delivered (r.2.take (a + 1))
  let j := out.1.length
  let w := ((r.1.tenant ss.tenant).budget).field 48 8
  let s1 := ((r.1.commitTo x st j (s.adapterTag t.image)).modSess x fun y => { y with
    pending := out.1.getLast?, delivered := y.delivered + j, readySince := now
    turn := some { t with delivered := t.delivered + j, tail := out.2.2.drop (out.2.2.length - 16) } }).floorCommitted x t
  let s2 := ((s1.chargeTenant ss.tenant (j * w)).bump (.tenant ss.tenant) 0x118 j).emitTokens x t.cookie st.flagByte now
    (st.first + 1) j out.1
  let more := if t.kind = .draft then [(52, 1, a)] else []
  match out.2.1 with
  | some reason => (s2.endTurn x 0x11 0 reason st.flagByte more).flushSession x now
  | none => if t.kind = .draft then (s2.endTurn x 0x11 0 7 st.flagByte more).flushSession x now else s2

/-- The lowest free resident slot (R360). -/
def State.freeSlot (s : State) : Option Nat :=
  (List.range 64).find? fun a => !s.serve.images.any fun x => x.slot == some a

/-- The trained image of a job that has run its last micro-batch (R334, R528): it takes a free resident slot when one exists and stays
streamed otherwise, and action 6 maps the handle to it (R349, R360). Which pages hold its body is not stated: pages of the owning hub's pool,
none of its own when the pool is spent. DESIGN CHOICE, log 98. -/
def State.trainImage (s : State) (x : Nat) (j : Job) : State :=
  match j.image.bind fun i => s.serve.images.find? fun a => a.id == i with
  | none => s
  | some old =>
    let (s1, pages) := (s.allocPages (s.ownerHub x) old.pages.length).getD (s, [])
    let img : AdapterRec := { old with
      id := s1.serve.nextImage, digest := Config.trainedDigest s1.fresh, tenant := (s1.sess x).tenant, tempered := true, bound := 0
      slot := s1.freeSlot, pages := pages }
    let s2 := s1.tick
    { s2 with serve := { s2.serve with
      images := s2.serve.images ++ [img], nextImage := img.id + 1, trained := s2.serve.trained ++ [(j.handle, img.id)] } }

/-- A tempering step ends with its micro-batch (R334): SUSPECT restarts the job (R144), the last micro-batch ends it. -/
def State.commitTemper (s : State) (st : Step) (now : Nat) : State :=
  let x := st.context
  match (s.sess x).job with
  | none => s
  | some j =>
    if st.suspect then s.restartJob x now .suspect
    else if j.microBatches ≠ 0xFFFFFFFF ∧ j.microBatches ≤ j.done then
      (s.trainImage x j).endJob x now 0x11 0 7
    else (s.noteProgress x 1).modSess x fun y => { y with readySince := now }

/-- Commit one step (action 2 of R349). -/
def State.commitStep (s : State) (b : BellIn) (st : Step) (now : Nat) : State :=
  let s1 := s.leaveFlight st.context st
  match st.kind, (s1.sess st.context).turn with
  | .temper, _ => s1.commitTemper st now
  | .promptPart, some t => s1.commitPrompt b st t now
  | .promptLast, some t => s1.commitPrompt b st t now
  | .generate, some t => s1.commitTokens b st t now
  | .draft, some t => s1.commitTokens b st t now
  | _, none => s1

end Sys2Proof.Machine
end

