-- ==== Sys2Proof/Machine/Round.lean ====
section
/-!
DEFINITION. What the dies do at a bell (R242, R250 to R254): marks of the closing round, changes of the bell interval, moulds that
enter and leave service, and the casts the tally lets start (R380).
-/
namespace Sys2Proof.Machine

/-! ### Marks of the closing round -/

/-- First stage of a step on a die of its copy. -/
def stageBase : List (Nat × Nat) → Nat → Nat → Option (Nat × Nat)
  | [], _, _ => none
  | (e, n) :: rest, d, base => if e = d then some (base, n) else stageBase rest d (base + n)

/-- Stages whose program uses a logical croft: its windows, on one mould when one is named, or its runs, stagings and lane rows as well. -/
def stagesUsing (p : PatternImage) (row col : Nat) (mould : Option Nat) : List Nat :=
  let windows := (p.windows.filter fun w => w.row.val == row && w.lcol.val == col && mould.all fun m => w.mould.val == m).map (·.stage)
  if mould.isSome then windows
  else windows ++ ((p.runs.filter fun r => r.row.val == row && r.lcol.val == col).map (·.stage)) ++
    ((p.staging.filter fun g => g.row.val == row && g.lcol.val == col).map (·.stage)) ++
    (p.laneMap.filter fun e => e.row.val == row && e.lcol.val == col).map (·.stage)

/-- A stage that the step runs now or later on die `d` uses the logical croft, and the mould when one is named. -/
def State.stepUses (s : State) (st : Step) (d row col : Nat) (mould : Option Nat) : Bool :=
  match stageBase st.dies d 0, (s.die d).pattern with
  | some (base, n), some p =>
    decide (st.stage < base + n) && (stagesUsing p row col mould).any fun k => decide (k < n) && decide (st.stage ≤ base + k)
  | _, _ => false

/-- Steps that ran on a die whose footpath failed in the round are marked (R483). -/
def State.footpathMarks (s : State) (d : Nat) : State :=
  if (s.die d).footMarked then
    (s.mapSteps fun x => if (x.place.map (·.1)) = some d then x.addMark .parity else x).modDie d fun y =>
      { y with footMarked := false }
  else s

/-- The bell after a fence: steps whose remaining stages use the coordinate are marked, and admission holds from now on (R253);
steps with a stage left on a die that goes on the degraded pattern fail (R254). The stage that ends with the closing round remains to no
step. -/
def State.fenceMarks (s : State) (d : Nat) : State :=
  let x := s.die d
  let jobs := x.spareJobs.filter fun j => !j.announced
  let uses := fun (st : Step) => jobs.any fun j => s.stepUses st.next d j.row j.column none
  let gone := x.degraded && x.pattern.isSome
  if jobs.isEmpty ∧ gone = false then s
  else
    (s.mapSteps fun st =>
      let st1 := if uses st then st.addMark .fenced else st
      if gone && st.next.usesDie d then { st1 with failed := some (st1.failed.getD .fenced) } else st1).modDie d fun y =>
      { y with spareJobs := y.spareJobs.map fun j => { j with announced := true } }

/-- Marks that the bell itself finds. -/
def State.bellMarks (s : State) : State := (List.range 16).foldl (fun (t : State) d => (t.footpathMarks d).fenceMarks d) s

/-! ### The bell interval -/

/-- The weights of a spare that was cast from a stand-in copy (R85, R138): a witness keeps the copy's whole levels. -/
def Mould.castCopy (m : Mould) (e : StandIn) : Mould :=
  if e.column < 256 then
    { m with weights := (List.range 1024).foldl (fun t r =>
        tput (fun _ => 0) t (1024 * e.column + r) ((tfind e.copy r).getD 0)) m.weights }
  else if e.column < 258 then
    { m with witness := (List.range 1024).foldl (fun t r =>
        tput (fun _ => 0) t (1024 * (e.column - 256) + r) (128 * (tfind e.copy r).getD 0)) m.witness }
  else m

/-- Spares that have closed their cast enter service with the weights of the copies they were cast from: the columns before them are
marked failed and their stand-ins end (R85, R138, R488). -/
def Mould.enterSpares (m : Mould) : Mould :=
  let ended := m.standins.filter (·.spareReady)
  let cols := ended.map (·.column) ++ m.refReady
  if cols.isEmpty then m
  else
    let witnesses : List Nat := (ended.map (·.column)).filter fun c => decide (256 ≤ c ∧ c < 258)
    let k := ended.foldl Mould.castCopy (m.markReplaced cols)
    ({ k with
      standins := m.standins.filter fun e => !e.spareReady
      refPending := m.refPending.filter fun c => !decide (c ∈ m.refReady)
      refReady := []
      roundedWitness := (m.roundedWitness ++ witnesses.map (· - 256)).eraseDups
      : Mould }).restartRun

/-- A mould at a bell (R112, R185, R103): the pending set becomes active, closed spares serve, the active set is latched, and a run
whose temperature has moved more than 1 °C is discarded (R114). -/
def Mould.atBell (m : Mould) (theta : Int) : Mould :=
  let m1 := if m.pendingSet then { m with bank := !m.bank, pendingSet := false, neutralised := false } else m
  let m2 := m1.enterSpares
  let m3 : Mould := { m2 with latched := m2.activeSet }
  match m3.gauging.run.firstTheta with
  | some t => if 64 < (theta - t).natAbs then m3.restartRun else m3
  | none => m3

/-- Slots whose mould is CAST again return to service (R86, R504). -/
def Croft.releaseHeld (c : Croft) : Croft :=
  { c with held := c.held.filter fun k => match c.holding k with
    | some m =>
      let x := c.mould m
      !(x.state == .cast && x.cast.isNone && !x.castWaiting) || c.recasts.head? == some k
    | none => true }

/-- A croft at a bell: slots of ended stand-ins are zero (R222), a fenced croft takes and gives nothing from now on (R250), and the round's
marks are gathered afresh (R247). -/
def Croft.atBell (c : Croft) (theta : Int) (now : Nat) : Croft :=
  { (c.moulds.foldl (fun (a : Croft) e => a.modMould e.1 fun m => m.atBell theta) c).clearSlots.releaseHeld with
    theta := theta
    stopped := decide (c.service = some .fenced)
    gathered := [], markSent := false
    tableLostAt := c.tableLostAt.filter fun t => decide (now < t + 20000) }

/-- Copy one 512-byte row of a memory; its words keep their parity, so that a word in error stays in error (R208). -/
def copyRow (m : Memory) (bad : List Nat) (src dst : Nat) : Memory × List Nat :=
  (Memory.setBytes (Memory.clear m (512 * dst) 512) (512 * dst) (Memory.getBytes m (512 * src) 512),
    (bad.filter fun w => w / 64 != dst) ++ (bad.filter fun w => w / 64 == src).map fun w => 64 * dst + w % 64)

/-- A pad row's map-out takes effect: the spare takes its contents (R208). -/
def Croft.mapPadRow (c : Croft) (ps : Bool) (src dst : Nat) : Croft :=
  if ps then let r := copyRow c.psPad c.psBad src dst; { c with psPad := r.1, psBad := r.2 }
  else let r := copyRow c.actPad c.actBad src dst; { c with actPad := r.1, actBad := r.2 }

/-- The map-outs of a die that take effect at a bell: each copies from where the failing row is held until then (R208). -/
def State.mapRows (s : State) (d : Nat) : State :=
  let x := s.die d
  if x.padMapPending.isEmpty ∧ x.granMapPending.isEmpty then s
  else
    let s1 := x.padMapPending.foldl (fun (t : State) e => match tfind x.padMap (padMapKey e.1 e.2) with
      | some row => t.modCroft e.1 fun c => c.mapPadRow (decide (4 ≤ e.2)) (x.padRow e.1 (decide (4 ≤ e.2)) row) (if e.2 < 4 then 252 + e.2 else 120 + e.2)
      | none => t) s
    s1.modDie d fun y =>
      let r := x.granMapPending.foldl (fun (a : Memory × List Nat) e => match tfind x.granMap e with
        | some row => copyRow a.1 a.2 (x.granRow (e / 64) row) (2048 * (e / 64) + 1984 + e % 64)
        | none => a) (y.granary, y.granBad)
      { y with granary := r.1, granBad := r.2, padMapPending := [], granMapPending := [] }

/-- A spare croft whose casts have closed and whose patch fits goes live: the coordinate map changes and the patch takes effect (R251,
R253). Its pads and store were powered, zero-filled and loaded when it took the coordinate. -/
def State.spareLive (s : State) (d : Nat) (j : SpareJob) : State :=
  let c := s.croft j.spare
  let ready := match s.castGen with
    | some g => c.recordVersion == 1 && c.generation == g && c.wholeAt g && !(c.moulds.any fun m => m.2.castWaiting || m.2.cast.isSome)
    | none => false
  if j.patchFits = some true ∧ j.castAsked = true ∧ ready = true then
    (s.modCroft j.spare fun k => { k with service := some .inService, spareColumn := some j.column }).modDie d fun x =>
      let jobs := x.spareJobs.filter fun k => k.spare != j.spare
      { x with
        spareJobs := jobs
        patches := (x.patches.filter fun e => !(e.1 == j.row && e.2.1 == j.column)) ++ [(j.row, j.column, j.spare)] }
  else s

/-- The pattern leaves the die; its lane map still says what the quench zeroes (R220). -/
def Die.dropPattern (x : Die) : Die :=
  { x with pattern := none, unloadAsked := false, unloadLoad := false, lastPattern := x.ranPattern }

/-- The degraded pattern takes the place of the die's pattern (R254). -/
def Die.degradePattern (x : Die) : Die :=
  { x.dropPattern with degraded := true, lost := match x.pattern with | some p => some p | none => x.lost }

/-- Positions of a die that a pattern must declare blocked to end the degraded pattern (R254): faulty routers, and fenced crofts whose
coordinate no other croft holds. -/
def State.faultyPositions (s : State) (d : Nat) : List Nat :=
  (s.croftsOf d).filter fun n => (s.croft n).routerFault ||
    (s.service n == .fenced && (s.columnOf n).any fun j => s.service (s.physOf d (croftRow n) j) == .fenced)

/-- A pattern that loads ends the degraded pattern of its die: it declares the faulty positions blocked, and both die modules run at x64
(R254, R409). -/
def State.endsDegraded (s : State) (d : Nat) (p : PatternImage) : Bool :=
  ((s.faultyPositions d).all fun n => decide ((croftRow n, croftCol n) ∈ p.blocked)) &&
    [0, 1].all fun m => (s.umod (4 + 2 * d + m)).width == 64

/-- Patterns at a bell (R238, R240, R254): a finished load runs, unless an unload that was accepted after its go takes effect, or a fault
has come since its checks or the pattern does not end the degraded one (`ends`), either of which keeps the die on the degraded pattern; an
unload and the degraded pattern take effect. -/
def Die.patternAtBell (x : Die) (ends : Bool) : Die :=
  match x.loading with
  | some p =>
    if x.loadDone then
      let y : Die := { x with pattern := some p, loading := none, loadDone := false, lastPattern := x.ranPattern }
      if x.loadClean = false ∨ (x.degraded = true ∧ ends = false) then y.degradePattern
      else if x.unloadAsked ∧ x.unloadLoad then { y.dropPattern with degraded := false, lost := none }
      else { y with degraded := false, lost := none, unloadAsked := false, unloadLoad := false }
    else if x.degraded then x.degradePattern
    else if x.unloadAsked then x.dropPattern else x
  | none =>
    if x.degraded then x.degradePattern
    else if x.unloadAsked then x.dropPattern else x

/-- RISER.HIST_SEL takes effect and clears the histogram (R556). -/
def State.latchHist (s : State) (d : Nat) : State :=
  let v := s.reg (.riser d) 0x100
  if (s.die d).histSel = v then s
  else ((List.range 64).foldl (fun (t : State) i => t.setReg (.riser d) (0x200 + 8 * i) 0) s).modDie d fun x => { x with histSel := v }

/-- The image digest of a loaded pattern is recorded (R239). -/
def State.recordPattern (s : State) (d : Nat) : State :=
  { s with lock := { s.lock with patternDigests := match (s.die d).pattern with
    | some p => tset s.lock.patternDigests d p.imageDigest
    | none => tdrop s.lock.patternDigests d } }

/-- A die at a bell (R242): the map-out copies come first. -/
def State.dieAtBell (s : State) (now d : Nat) : State :=
  let x := s.die d
  let hostLoad := x.loadDone && !x.loadingSwitch
  let ends := x.loading.all fun p => s.endsDegraded d p
  let s1 := ((s.mapRows d).modDie d fun y => { y.patternAtBell ends with
    ranTo := now, xfers := [], staleAge := (s.reg (.gauge d) 0x100).field 0 20 }).latchHist d
  let s2 := (s1.croftsOf d).foldl (fun (t : State) n => t.modCroft n fun c => c.atBell (t.rowTemp n) now) s1
  let s3 := x.spareJobs.foldl (fun (t : State) j => t.spareLive d j) s2
  let s4 := if x.loadDone then s3.recordPattern d else s3
  if hostLoad then s4.modGen fun g => { g with loadFailed := none } else s4

/-- Every die in turn; then the smithies' self-checks fence their crofts (R249). -/
def State.diesAtBell (s : State) (now : Nat) (failed : List CroftAt) : State :=
  failed.foldl (fun (t : State) c => t.fence c.num) ((List.range 16).foldl (fun (t : State) d => t.dieAtBell now d) s)

/-! ### Casts -/

/-- A mould of a spare croft that is being brought in waits for its cast, whatever it holds (R251, R255). -/
def State.spareCast (s : State) (p k : Nat) : State :=
  match (s.croft p).holding k with
  | some m => s.modMould p m fun y => if y.cast.isSome then y else { y with castWaiting := true, castRestores := true }
  | none => s

/-- A spare croft that is being brought in casts its 16 logical moulds, once (R251). -/
def State.spareCasts (s : State) (d : Nat) : State :=
  if s.castGen = none then s
  else
    let jobs := (s.die d).spareJobs.filter fun j => !j.castAsked
    if jobs.isEmpty then s
    else (jobs.foldl (fun (t : State) j => (List.range 16).foldl (fun (u : State) k => u.spareCast j.spare k) t) s).modDie d fun x =>
      { x with spareJobs := x.spareJobs.map fun j => { j with castAsked := true } }

/-- The turn of a recast in place (R504): the slot is held from this bell; the mould leaves service and waits for its cast at the
first bell at which no step in flight uses it. -/
def State.recastTurn (s : State) (n : Nat) : State :=
  let c := s.croft n
  match c.recasts with
  | [] => s
  | k :: rest =>
    if c.moulds.any fun e => e.2.cast.isSome || e.2.castWaiting then s
    else
      let s1 := s.holdSlot n k
      let col := (s.columnOf n).getD 32
      if s1.serve.steps.any fun st => s1.stepUses st (croftDie n) (croftRow n) col (some k) then s1
      else match (s1.croft n).holding k with
        | some m => (s1.modMould n m fun x => { x with castWaiting := true, castRestores := false }).modCroft n fun c => { c with recasts := rest }
        | none => s1.modCroft n fun c => { c with recasts := rest }

/-- A cast that waits: croft, mould, whether it restores service, and the spares of a spare-column cast. -/
structure WantedCast where
  croft : Nat
  mould : Nat
  restores : Bool
  spares : List Nat
  deriving DecidableEq, Repr

/-- Casts that wait, those that restore service first (R380); among casts of one priority the spec gives no order: croft by croft, in the
order of their moulds. DESIGN CHOICE, log 46. -/
def State.wantedCasts (s : State) : List WantedCast :=
  let all := s.crofts.flatMap fun e => e.2.moulds.filterMap fun m =>
    if m.2.cast.isSome then none
    else if m.2.castWaiting then some (⟨e.1, m.1, m.2.castRestores, []⟩ : WantedCast)
    else if !m.2.spareWaiting.isEmpty then some ⟨e.1, m.1, true, m.2.spareWaiting⟩
    else none
  (all.filter (·.restores)) ++ all.filter fun w => !w.restores

/-- Tally windows that a cast touches at most: 3.46 ms through the casting area (R86), 440 µs for spare columns (R85). -/
def castWindows (spares : List Nat) : Nat := if spares.isEmpty then 347 else 45

/-- Start one cast where R81, R83 and R380 allow it; one that was cut short waits for the ingot of its own generation, or for a
recast (R583). -/
def State.tryCast (s : State) (now g : Nat) (w : WantedCast) : State :=
  let x := s.mould w.croft w.mould
  let other := decide (x.state = .casting ∧ x.generation ≠ g) && !(s.pkg.gen.switch.any fun v => v.phase == .casting)
  if other = false ∧ s.mayCast w.croft = true ∧ s.castFits now (castWindows w.spares) = true then
    let s1 := if w.spares.isEmpty then s.openCast w.croft w.mould g else s.openSpareCast w.croft w.mould w.spares
    if (s1.mould w.croft w.mould).cast.isSome then { s1 with tally := { s1.tally with castSeen := s1.tally.castSeen + 1 } } else s1
  else s

/-- Casts of a bell (action 9 of R349): none without the ingot (R582), none while debug is open (R543), none while the package
enters dormancy or loses power. -/
def State.startCasts (s : State) (now : Nat) : State :=
  let s1 := (List.range 16).foldl (fun (t : State) d => t.spareCasts d) s
  let s2 := (s1.crofts.map (·.1)).foldl (fun (t : State) n => t.recastTurn n) s1
  match s2.castGen with
  | none => s2
  | some g => if s2.pkg.phase = .service ∧ s2.lock.debugOpen = false then s2.wantedCasts.foldl (fun (t : State) w => t.tryCast now g w) s2 else s2

end Sys2Proof.Machine
end

