-- ==== Sys2Proof/Machine/Admission.lean ====
section
/-!
DEFINITION. Admission (R297, R339, R351, R354, R358 to R362, R379 to R384): what a ready session would run next, the tests it must
pass, and its admission.
-/
namespace Sys2Proof.Machine

/-! ### Turns that fail before their first step -/

/-- The deadline a command names (R332). -/
def bodyDeadline : Body → Option Nat
  | .prompt b => if b.deadline = 2 ^ 64 - 1 then none else some b.deadline
  | .generate b => if b.deadline = 2 ^ 64 - 1 then none else some b.deadline
  | .draft b => if b.deadline = 2 ^ 64 - 1 then none else some b.deadline
  | _ => none

/-- Why the turn at the head of a session's queue fails when it would begin (R323, R354, R358, R359). -/
def State.turnFault (s : State) (x : Nat) : Option Code :=
  let ss := s.sess x
  match ss.turn with
  | none => none
  | some t =>
    if t.started then none
    else if ss.remoteLost then some .epoch
    else if t.kind ≠ .prompt ∧ ss.pending = none then some .state
    else if t.floor.any fun f => decide (f < ss.floor) then some .format
    else
      let need := match t.kind with
        | .prompt => t.tokens.length + b2n ss.pending.isSome
        | .generate => 1
        | .draft => t.tokens.length + 1
      if ss.capacity < ss.committed + need then some .length else none

/-- Fail turns that cannot begin, one after another (R345). -/
def State.preflight (s : State) (x now : Nat) : Nat → State
  | 0 => s
  | n + 1 => match s.turnFault x with
    | some c => ((s.failTurn x c).flushSession x now).preflight x now n
    | none => s

/-! ### Candidates -/

/-- A candidate of action 10, with its place in the order of R351 and R383. -/
structure Candidate where
  context : Nat
  rerun : Bool
  key : List Nat
  deriving DecidableEq, Repr

/-- Lexicographic order of keys. -/
def keyLe : List Nat → List Nat → Bool
  | [], _ => true
  | _ :: _, [] => false
  | a :: as, b :: bs => if a = b then keyLe as bs else decide (a < b)

def insertCandidate (c : Candidate) : List Candidate → List Candidate
  | [] => [c]
  | d :: l => if keyLe c.key d.key then c :: d :: l else d :: insertCandidate c l

/-- A probe is tied to a step (R141). -/
def State.probing (s : State) (step : Nat) : Bool :=
  s.crofts.any fun e => e.2.moulds.any fun m => m.2.probe.any fun p => decide (step ∈ p.tied)

/-- Work of a session that is ready for a step: a turn whose lookup has ended, with no copies of its prefix under way (R308), or a tempering job that has written its first checkpoint,
has micro-batches left and no outcome yet (R334, R498, R500). -/
def Session.hasWork (y : Session) (now : Nat) : Bool :=
  match y.job with
  | some j => !j.ended && decide (0 < j.sequence) && !y.cancelling && decide (j.restartAt.all fun t => decide (t < now)) &&
      (j.microBatches == 0xFFFFFFFF || decide (j.done < j.microBatches))
  | none => (y.turn.any fun t => t.walkDone) && y.copies == 0 && (!y.cancelling || y.cancelP)

/-- The candidate of a context at a bell. -/
def State.candidate (s : State) (x now : Nat) : Option Candidate :=
  let y := s.sess x
  let hub := y.window / 4
  if y.hasWork now = false ∨ (s.stepOf x).isSome ∨ hub ∈ s.pkg.hubFaulty then none
  else match y.rerun with
    | some r => if r.readyAt ≤ now ∧ s.probing r.step = false then some ⟨x, true, [0, r.markedAt, hub, x]⟩ else none
    | none =>
      if y.holdEnded then some ⟨x, false, [1, y.readySince, hub, x]⟩
      else some ⟨x, false, [2, y.cls, y.readySince, hub, x]⟩

def State.candidates (s : State) (now : Nat) : List Candidate :=
  (s.serve.sessions.filterMap fun e => s.candidate e.1 now).foldl (fun l c => insertCandidate c l) []

/-! ### The step a candidate would run -/

/-- What a step would be: kind, first position, input tokens. -/
structure StepPlan where
  kind : StepKind
  first : Nat
  tokens : List Nat
  deriving DecidableEq, Repr

/-- Inputs of the next step: the pending token first (R323), then tokens of the command; a PROMPT step takes up to 512 positions, 16
in the generation role (R23, R324). -/
def State.planStep (s : State) (x : Nat) : Option StepPlan :=
  let y := s.sess x
  match y.job with
  | some j => some ⟨.temper, j.done, []⟩
  | none => y.turn.map fun t =>
    let all := y.pending.toList ++ t.tokens
    match t.kind with
    | .prompt =>
      let part := all.take (if s.pkg.role = 2 then 16 else 512)
      ⟨if part.length = all.length then .promptLast else .promptPart, y.committed, part⟩
    | .generate => ⟨.generate, y.committed, y.pending.toList⟩
    | .draft => ⟨.draft, y.committed, all⟩

/-- Adoption of the shared prefix at the admission of a turn's first step (R307, R308). -/
def State.adopt (s : State) (x : Nat) : State :=
  let y := s.sess x
  match y.turn with
  | none => s
  | some t =>
    if t.started ∨ t.lookup = false ∨ t.shared = 0 ∨ y.committed ≠ 0 then s
    else
      let root := s.rootOf x (s.adapterTag (s.turnImage t))
      let nodes := (walkBlocks s.store root t.tokens (t.shared / 16) 1 (rootHash root) none).1
      let p := 16 * nodes.length
      match nodes.getLast? with
      | none => s.modSess x fun z => { z with turn := some { t with shared := 0 } }
      | some n => (s.adoptPrefix x n p).modSess x fun z => { z with
          tokenLog := t.tokens.take p, firstTag := some (s.adapterTag (s.turnImage t))
          turn := some { t with shared := p, tokens := t.tokens.drop p } }

/-- The image a turn's first step would bind (R361): `none` without an adapter, else the image or the code the turn fails with. A tempering
job binds the image of its handle in the same way and keeps it to its outcome (R334). DEDUCED, log 98. -/
def State.bindImage (s : State) (x : Nat) : Except Code (Option AdapterRec) :=
  let y := s.sess x
  match y.turn with
  | none => match y.job with
    | some j =>
      match (match j.image with | some i => some i | none => tfind s.serve.handles j.handle).bind fun i =>
          s.serve.images.find? fun a => a.id == i with
      | none => .error .state
      | some a => .ok (some a)
    | none => .ok none
  | some t =>
    if t.adapter = 0xFFFF then .ok none
    else
      match (s.turnImage t).bind fun i => s.serve.images.find? fun a => a.id == i with
      | none => .error .state
      | some a =>
        if t.started then .ok (some a)
        else if a.tenant ≠ y.tenant then .error .auth
        else if (s.workIngot x).all fun g => g.digest != a.baseDigest then .error .auth
        else .ok (some a)

/-! ### Tests -/

/-- The tenant's balance is spent (R350, R351). -/
def State.short (s : State) (t : Nat) : Bool :=
  let y := s.tenant t
  y.budget.field 0 20 != 0xFFFFF && decide (y.balance ≤ 0)

/-- What R364 and R365 say of a session's generation: go on, wait, or fail. -/
inductive GenVerdict where
  | go | wait | fail (c : Code)
  deriving DecidableEq, Repr

def State.genVerdict (s : State) (x : Nat) : GenVerdict :=
  let g := s.workGeneration x
  match s.pkg.gen.inService with
  | none => .wait
  | some r =>
    if r.generation = g then
      match s.pkg.gen.loadFailed with
      | some c => .fail c
      | none => .go
    else if s.pkg.gen.switch.any fun w => w.generation == g then .wait
    else .fail .generationGone

/-- Progress of admission at one bell. -/
structure Adm where
  s : State
  /-- steps admitted at this bell on each copy, by its first die -/
  lanes : Table Nat := []
  loads : List Load := []
  streamed : Nat := 0
  stop : Bool := false
  deriving DecidableEq, Repr

def copyKey (c : Copy) : Nat := (c.dies.head?.map (·.1)).getD 16

/-- The work of a candidate fails at admission. -/
def State.failAdmission (s : State) (x now : Nat) (c : Code) : State :=
  if (s.sess x).job.isSome then s.endJob x now 0x12 c.num 0 else (s.failTurn x c).flushSession x now

/-- Three released slots that nobody has reserved, and no held record (R339). -/
def State.outputFree (s : State) (x : Nat) : Bool :=
  let y := s.sess x
  let g := (s.win y.window).ring (y.outRing + 1)
  y.held.isEmpty && decide (g.produced + g.reserved + 3 ≤ g.released)

/-- The floor that a turn names holds from its first step on (R359). -/
def State.newFloor (s : State) (x : Nat) : State :=
  match (s.sess x).turn with
  | some t => if t.started then s else s.modSess x fun y => { y with floor := t.floor.getD y.floor }
  | none => s

/-- Admit: the step enters flight (R299, R351, R361). -/
def State.enter (s : State) (x now lane : Nat) (c : Copy) (p : StepPlan) (rerun : Bool) (image : Option AdapterRec)
    (charges : List (Nat × Rat)) (records : Nat) : State :=
  let y := s.sess x
  let pages := if p.tokens.isEmpty then [] else
    ((s.reached x p.first p.tokens.length).filter fun e => !s.holdsCommitted x e.2.2).map fun e => (e.2.2, 0)
  let st : Step := {
    id := s.serve.nextStep, context := x, kind := p.kind, first := p.first, tokens := p.tokens, count := p.tokens.length
    dies := c.dies, total := c.stages, rerun := rerun, charges := charges, newPages := pages, records := records, reservedSlots := 3, lane := lane
    admitted := now }
  let bindNow := (y.turn.any fun t => !t.started) || y.job.any fun j => j.image.isNone
  let s1 := if bindNow then s.mapImages fun a => if (image.map (·.id)) = some a.id then { a with bound := a.bound + 1 } else a
    else s
  let s2 := (s1.modWin y.window fun w => w.setRing (y.outRing + 1) { w.ring (y.outRing + 1) with
      reserved := (w.ring (y.outRing + 1)).reserved + 3 }).charge charges
  let s3 : State := { s2 with serve := { s2.serve with steps := s2.serve.steps ++ [st], nextStep := st.id + 1 } }
  let s4 := s3.modSess x fun z => { z with
    tentative := if p.kind = .temper then z.tentative else p.first + p.tokens.length
    lanesHeld := (z.lanesHeld ++ stepLanes c.dies lane).eraseDups, rerun := none, holdEnded := false
    job := z.job.map fun j => { j with restartAt := none, image := if j.image.isSome then j.image else image.map (·.id) }
    turn := z.turn.map fun t => { t with
      started := true, image := if t.started then t.image else image.map (·.id)
      startAt := if t.started then t.startAt else p.first, floorDue := t.floorDue || (!t.started && t.floor.isSome) } }
  if rerun ∨ !(p.kind == .promptPart || p.kind == .promptLast) then s4
  else
    let n := p.tokens.length - b2n y.pending.isSome
    (s4.chargeTenant y.tenant (n * ((s.tenant y.tenant).budget).field 40 8)).bump (.tenant y.tenant) 0x110 n

/-- The last tests of a candidate that has a lane: an adoption whose copies come from another package is kept and waited for (R308), engine capacity and pages (R297), the output ring (R339), and the tally (R381 to
R383), whose refusal ends admission. -/
def Adm.tryCopy (a : Adm) (now : Nat) (k : Candidate) (c : Copy) (image : Option AdapterRec) : Adm :=
  let x := k.context
  let h := a.s.ownerHub x
  let s0 := a.s.adopt x
  let s1 := s0.newFloor x
  if 0 < (s0.sess x).copies then { a with s := s0 }
  else match s1.planStep x with
  | none => a
  | some p =>
    match s1.reservePages x p.first p.tokens.length with
    | none => { a with s := a.s.bump (.kvmap h) 0x110 1 }
    | some (s2, _) =>
      let records := if p.tokens.isEmpty then 0 else s2.stepRecords x p.tokens.length c
      let loads := if p.tokens.isEmpty then [] else s2.exchangeLoads x p.first p.tokens.length c
      if a.s.recordsFit h records = false then { a with s := a.s.bump (.kvmap h) 0x110 1 }
      else if loadsFit a.loads loads = false then { a with s := a.s.bump (.attn h) 0x130 1 }
      else if a.s.outputFree x = false then a
      else
        let attention := if p.tokens.isEmpty then 0 else s2.attentionCharge x p.tokens.length
        let charges := s2.stepCharges c attention now
        let share := if k.rerun then 100 else a.s.classShare (a.s.sess x).cls
        if a.s.chargesFit now share charges = false then { a with s := a.s.bump .tally 0x150 1, stop := true }
        else
          let lane := tget (fun _ => 0) a.lanes (copyKey c)
          { s := s2.enter x now lane c p k.rerun image charges records
            lanes := tput (fun _ => 0) a.lanes (copyKey c) (lane + 1), loads := a.loads ++ loads
            streamed := a.streamed + b2n (image.any fun i => i.slot.isNone), stop := false }

/-- The part of a mixed package that runs a session's next step (R20, R25): prompt steps in the prefill part, all others in the generation
part. -/
def State.partOf (s : State) (x : Nat) : PackagePart :=
  match (s.sess x).turn with
  | some t => if t.kind = .prompt then .prefill else .generation
  | none => .generation

/-- One candidate (R351). -/
def Adm.try (now : Nat) (copies : List Copy) (a : Adm) (k : Candidate) : Adm :=
  let s := a.s
  let x := k.context
  let y := s.sess x
  if a.stop ∨ Config.maxSteps ≤ s.serve.steps.length then a
  else if s.tally.step = 2 ∧ y.cls ≠ 0 then a
  else if k.rerun = false ∧ s.short y.tenant = true then a
  else match s.genVerdict x with
    | .wait => a
    | .fail c => { a with s := s.failAdmission x now c }
    | .go =>
      let mine := copies.filter fun c => s.pkg.role != 4 || c.part == s.partOf x
      let up := mine.filter fun c => !c.down
      let free := up.filter fun c => !s.copyHeld c && !(k.rerun && s.refetching c)
      if copies.isEmpty then a
      else if up.isEmpty then { a with s := s.failAdmission x now .fenced }
      else if free.isEmpty then { a with s := s.modSess x fun z => { z with holdEnded := true } }
      else match free.find? fun c => decide (tget (fun _ => 0) a.lanes (copyKey c) < s.lanesOf c) with
        | none => a
        | some c =>
          match s.bindImage x with
          | .error e => { a with s := s.failAdmission x now e }
          | .ok image =>
            if (image.any fun i => i.slot.isNone) ∧ 4 ≤ a.streamed then a
            else a.tryCopy now k c image

/-- Action 10 (R351): nothing is admitted while the package enters dormancy or loses power, nor with hub 0 faulty (R482). -/
def State.admission (s : State) (now : Nat) : State :=
  if s.pkg.phase ≠ .service ∨ 0 ∈ s.pkg.hubFaulty then s
  else
    let s1 := (s.serve.sessions.map (·.1)).foldl (fun (t : State) x =>
      if (t.stepOf x).isSome ∨ ((t.sess x).turn.any fun u => u.walkDone) = false ∨ t.genVerdict x = .wait then t
      else t.preflight x now 9) s
    ((s1.candidates now).foldl (Adm.try now s1.copies) { s := s1 }).s

end Sys2Proof.Machine
end

