-- ==== Sys2Proof/Machine/Keys.lean ====
section
/-!
DEFINITION. The keys that the lockhouse derives (R509, R511, R444) and the signed and wrapped objects it reads from memory: ingots and
adapter images (R521 to R524, R527), fuse tokens (R537), probe packs (R492) and firmware bundles (R516). Multi-byte fields are
little-endian (R2).
-/
namespace Sys2Proof.Machine

/-- Every byte of a range is zero. -/
def zeroAt (b : List Nat) (o n : Nat) : Bool := (slice b o n).all fun x => x == 0

/-! ### Derived keys (R511) -/

/-- A string of this chapter: "VELMAS-" and what follows it. -/
def velmas (s : List Char) : List Nat := ascii (['V', 'E', 'L', 'M', 'A', 'S', '-'] ++ s)

/-- The device secret as bytes, lowest first (log 34). -/
def Fuses.secretBytes (f : Fuses) : List Nat := bytesOf 64 f.deviceSecret.toNat

/-- The identity key and its public key. -/
def Fuses.identityKey (f : Fuses) : List Nat := shake256 (velmas ['I', 'D'] ++ f.secretBytes) 57
def Fuses.identityPublic (f : Fuses) : List Nat := edPublic f.identityKey

/-- The ingot key and its public key. -/
def Fuses.ingotKey (f : Fuses) : List Nat := shake256 (velmas ['W', 'R', 'A', 'P'] ++ f.secretBytes) 56
def Fuses.ingotPublic (f : Fuses) : List Nat := x448Public f.ingotKey

/-- The alias key of a firmware digest: another firmware has another key (R534). -/
def Fuses.aliasKey (f : Fuses) (firmwareDigest : Nat) : List Nat :=
  shake256 (velmas ['A', 'L', 'I', 'A', 'S'] ++ f.secretBytes ++ bytesOf 64 firmwareDigest) 57

/-- The digest that names this device in tokens; its first 8 bytes are the hint of a wrap (R523, R537). -/
def Fuses.deviceDigest (f : Fuses) : List Nat := shake256 f.identityPublic 64

/-! ### Signatures (R521) -/

/-- A signature by a key over the digest of a region, under the context of its kind. -/
def signed (key : Nat) (kind : List Char) (region sig : List Nat) : Bool := edVerify (bytesOf 57 key) (velmas kind) (shake256 region 64) sig

/-! ### Ingots and adapter images (R522, R527) -/

/-- An image as it lies in memory: its first 384 bytes, its wraps, its encrypted body, and whether a line of it reads poisoned. -/
structure RawImage where
  head : List Nat
  wraps : List Nat
  body : List Nat
  poison : Bool
  deriving DecidableEq, Repr

def RawImage.dieRevision (i : RawImage) : Nat := fieldAt i.head 4 2
def RawImage.kvTag (i : RawImage) : Nat := fieldAt i.head 8 4
def RawImage.publisher (i : RawImage) : Nat := fieldAt i.head 12 1
def RawImage.bodyLength (i : RawImage) : Nat := fieldAt i.head 16 8
def RawImage.wrapCount (i : RawImage) : Nat := fieldAt i.head 40 2
def RawImage.vocab (i : RawImage) : Nat := fieldAt i.head 44 4
def RawImage.signature (i : RawImage) : List Nat := slice i.head 256 114
/-- Adapter images: the ingot digest of the base model, the tenant and the rank (R527). -/
def RawImage.baseDigest (i : RawImage) : Nat := fieldAt i.head 112 64
def RawImage.tenant (i : RawImage) : Nat := fieldAt i.head 176 2
def RawImage.rank (i : RawImage) : Nat := fieldAt i.head 178 1
/-- The ingot digest (R522). -/
def RawImage.digest (i : RawImage) : Nat := natOf (shake256 (i.head.take 256) 64)

/-- Where the body lies: the next 4 KiB boundary after the wraps (R522). -/
def bodyOffset (wraps : Nat) : Nat := (384 + 128 * wraps + 4095) / 4096 * 4096

/-- Order 1 of R524: the length given is that of the image. -/
def RawImage.lengthOk (i : RawImage) (len : Nat) : Bool := len == bodyOffset i.wrapCount + i.bodyLength

/-- Read an image of `len` bytes at an engine address; its body only where its length is right. -/
def State.readImage (s : State) (addr len : Nat) : State × RawImage :=
  let h := s.hostRead addr 384
  let head := nums h.2.bytes
  let w := h.1.hostRead (addr + 384) (128 * fieldAt head 40 2)
  let i : RawImage := { head := head, wraps := nums w.2.bytes, body := [], poison := h.2.poison || w.2.poison }
  if i.lengthOk len then
    let b := w.1.hostRead (addr + bodyOffset i.wrapCount) i.bodyLength
    (b.1, { i with body := nums b.2.bytes, poison := i.poison || b.2.poison })
  else (w.1, i)

/-- R523: the first wrap with this device's hint; Z by X448; the key-encryption key; and the content key that GCM opens under a zero
nonce, with the header as authenticated data. -/
def Fuses.unwrap (f : Fuses) (i : RawImage) : Option (List Nat) :=
  match (chunks 128 i.wrapCount i.wraps).find? fun w => w.take 8 == f.deviceDigest.take 8 with
  | none => none
  | some w =>
    let eph := slice w 16 56
    let z := x448 f.ingotKey eph
    let kek := shake256 (velmas ['W', 'R', 'A', 'P'] ++ z ++ eph ++ f.ingotPublic) 32
    gcmOpen kek (List.replicate 12 0) (i.head.take 256) (slice w 72 32) (slice w 104 16)

/-- A publisher slot is written and not revoked; a revocation counts from the bell after its burn (R524, R529). -/
def State.publisherOk (s : State) (slot : Nat) : Bool :=
  (tfind s.lock.fuses.publishers slot).isSome && (!decide (slot ∈ s.lock.fuses.pubRevoked) || decide (slot ∈ s.serve.revoked))

/-- Orders 2 to 5 of R524: publisher, signature, body digest and die revision. -/
def State.imageAuthentic (s : State) (kind : List Char) (i : RawImage) : Bool :=
  s.publisherOk i.publisher &&
    signed ((tfind s.lock.fuses.publishers i.publisher).getD 0) kind (i.head.take 256) i.signature &&
    shake256 i.body 64 == slice i.head 48 64 && i.dieRevision == s.pkg.dieRevision

/-! ### Fuse tokens (R537) -/

/-- A fuse token as it lies in memory. -/
structure Token where
  kind : Nat
  format : Nat
  nonce : Nat
  device : List Nat
  sequence : Nat
  ownerKey : List Nat
  /-- bytes 0 to 255, which the signatures cover -/
  region : List Nat
  signature1 : List Nat
  signature2 : List Nat
  deriving DecidableEq, Repr

/-- The fields of the body by kind: the new owner's digest; a publisher slot and key; the scope of a debug authorisation. -/
def Token.newOwner (t : Token) : Nat := fieldAt t.region 152 32
def Token.slot (t : Token) : Nat := fieldAt t.region 152 1
def Token.publisherKey (t : Token) : Nat := fieldAt t.region 153 57
def Token.scope (t : Token) : Nat := fieldAt t.region 152 1

/-- Bytes of the body that a kind uses. -/
def tokenBodyBytes (kind : Nat) : Nat := if kind = 1 then 32 else if kind = 2 then 58 else 1

/-- Reserved bytes, and those of the body that the kind does not use, are zero. -/
def Token.reservedZero (t : Token) : Bool :=
  zeroAt t.region 81 7 && zeroAt t.region 145 7 && zeroAt t.region (152 + tokenBodyBytes t.kind) (104 - tokenBodyBytes t.kind)

def parseToken (b : List Nat) : Token :=
  { kind := fieldAt b 0 4, format := fieldAt b 4 4, nonce := fieldAt b 8 8, device := slice b 16 64, sequence := fieldAt b 80 1
    ownerKey := slice b 88 57, region := b.take 256, signature1 := slice b 256 114, signature2 := slice b 370 114 }

/-- Read the token at an engine address. -/
def State.readToken (s : State) (addr len : Nat) : State × Token :=
  let r := s.hostRead addr len
  (r.1, parseToken (nums r.2.bytes))

/-! ### Probe packs (R492) -/

/-- A probe pack image as it lies in memory. -/
structure PackImage where
  format : Nat
  version : Nat
  dieRevision : Nat
  entryCount : Nat
  reservedZero : Bool
  entries : List PackEntry
  /-- what the signature covers -/
  region : List Nat
  signature : List Nat
  deriving DecidableEq, Repr

/-- Bytes of an image of `n` entries. -/
def packBytes (n : Nat) : Nat := 256 + 576 * n + 114

def parsePackEntry (b : List Nat) : PackEntry :=
  { moulds := BitVec.ofNat 18 (fieldAt b 0 4), castsMin := fieldAt b 4 2, castsMax := fieldAt b 6 2, tempMin := fieldAt b 8 1
    tempMax := fieldAt b 9 1, rowMin := fieldAt b 10 1, rowMax := fieldAt b 11 1, witTol := fieldAt b 12 2, refTol := fieldAt b 14 2
    vector := bits8 (slice b 64 512) }

def parsePack (b : List Nat) : PackImage :=
  let n := fieldAt b 10 2
  let entries := chunks 576 n (b.drop 256)
  { format := fieldAt b 0 4, version := fieldAt b 4 4, dieRevision := fieldAt b 8 2, entryCount := n
    reservedZero := zeroAt b 12 4 && zeroAt b 24 232 && entries.all fun e => decide (fieldAt e 0 4 < 2 ^ 18) && zeroAt e 16 48
    entries := entries.map parsePackEntry, region := b.take (256 + 576 * n), signature := slice b (256 + 576 * n) 114 }

/-- Read the pack at an engine address: as many bytes as its entry count sizes it. -/
def State.readPack (s : State) (addr : Nat) : State × PackImage :=
  let h := s.hostRead addr 256
  let r := h.1.hostRead addr (packBytes (fieldAt (nums h.2.bytes) 10 2))
  (r.1, parsePack (nums r.2.bytes))

/-! ### Firmware bundles (R516) -/

/-- One of the three images of a bundle: type, length, offset from the base, digest. -/
structure FwImage where
  type : Nat
  length : Nat
  offset : Nat
  digest : List Nat
  deriving DecidableEq, Repr

/-- A bundle header and the signature at the bundle's end. -/
structure FwHead where
  bytes : List Nat
  signature : List Nat
  deriving DecidableEq, Repr

def FwHead.securityVersion (h : FwHead) : Nat := fieldAt h.bytes 4 4
def FwHead.dieRevision (h : FwHead) : Nat := fieldAt h.bytes 8 2
/-- The firmware digest: that of header bytes 0 to 511. -/
def FwHead.digest (h : FwHead) : Nat := natOf (shake256 h.bytes 64)

def FwHead.images (h : FwHead) : List FwImage :=
  (chunks 80 3 (h.bytes.drop 64)).map fun e =>
    { type := fieldAt e 0 1, length := fieldAt e 4 4, offset := fieldAt e 8 8, digest := slice e 16 64 }

/-- Bytes that the header and the images of a bundle reach, with the signature behind them. -/
def FwHead.needed (h : FwHead) : Nat := (h.images.map fun i => i.offset + i.length).foldl max 512 + 114

/-- The header is well formed: format, reserved bytes, each image once and of 1 B to 16 MiB, a security version of at most 128. -/
def FwHead.wellFormed (h : FwHead) (dieRevision : Nat) : Bool :=
  fieldAt h.bytes 0 4 == 1 && h.dieRevision == dieRevision && decide (h.securityVersion ≤ 128) && zeroAt h.bytes 10 54 &&
    zeroAt h.bytes 304 208 && (chunks 80 3 (h.bytes.drop 64)).all (fun e => zeroAt e 1 3) &&
    [1, 2, 3].all (fun k => h.images.any fun i => i.type == k) &&
    h.images.all fun i => decide (1 ≤ i.length) && decide (i.length ≤ 2 ^ 24)

/-- Read the header of a bundle of `len` bytes at an engine address, with the last 114 bytes of the bundle. -/
def State.readBundle (s : State) (addr len : Nat) : State × FwHead :=
  let h := s.hostRead addr 512
  let g := h.1.hostRead (addr + len - 114) 114
  (g.1, { bytes := nums h.2.bytes, signature := nums g.2.bytes })

/-- Read the images: each matches its digest (R517, order 5). -/
def State.bundleImages (s : State) (addr : Nat) (h : FwHead) : State × Bool :=
  h.images.foldl (fun (a : State × Bool) i =>
    let r := a.1.hostRead (addr + i.offset) i.length
    (r.1, a.2 && shake256 (nums r.2.bytes) 64 == i.digest)) (s, true)

/-- Where an image lies in the firmware area (R449): hub cores first, reeves from 16 MiB on; the lockhouse keeps its own. DESIGN CHOICE,
log 117. -/
def FwImage.place (i : FwImage) : Option Nat := if i.type = 2 then some 0 else if i.type = 3 then some (2 ^ 24) else none

/-- The images are copied into the firmware area of every hub, and a 256-bit digest of each of their 4 KiB blocks is recorded (R517, order 5). -/
def State.copyImages (s : State) (addr : Nat) (h : FwHead) : State :=
  h.images.foldl (fun (t : State) i =>
    match i.place with
    | none => t
    | some o =>
      let r := t.hostRead (addr + i.offset) i.length
      let blocks := (List.range ((i.length + 4095) / 4096)).map fun k =>
        let b := (nums r.2.bytes).drop (4096 * k) |>.take 4096
        ({ at_ := o + 4096 * k, length := b.length, digest := shake256 b 32 } : FwBlock)
      let u := r.1.writeFirmware o r.2.bytes
      { u with lock := { u.lock with blocks := (u.lock.blocks.filter fun b => b.at_ / 2 ^ 24 != o / 2 ^ 24) ++ blocks } }) s

/-- A copy of a block on stack `k` reads without poison and matches its digest (R467, R520). -/
def State.blockHolds (s : State) (k : Nat) (b : FwBlock) : Bool :=
  let r := s.readFirmware k b.at_ b.length
  !r.2.poison && shake256 (nums r.2.bytes) 32 == b.digest

/-- The firmware area of every hub holds every block, in the hub's lower stack or in the mirror copy (R520). -/
def State.firmwareHolds (s : State) : Bool :=
  s.lock.blocks.all fun b => (List.range 4).all fun h => s.blockHolds (2 * h) b || s.blockHolds (2 * h + 1) b

end Sys2Proof.Machine
end

