-- ==== Sys2Proof/Machine/Views.lean ====
section
/-!
DEFINITION. What a read of a register returns (R10, R11, R545 to R558): registers that show a piece of state are computed from
it, every other register is the register file's value.
-/
namespace Sys2Proof.Machine

/-! ### Headers -/

/-- Blocks have completed their start once the hubs have reported ready (R404). -/
def Phase.ready : Phase → Bool
  | .service => true
  | .entering => true
  | .powerFail => true
  | _ => false

/-- The block of a page is out of service (STATUS.fault, R545). -/
def State.pageFault (s : State) (p : Page) : Bool :=
  match p with
  | .croft n => s.service n == .fenced
  | .stack k => (s.stack k).out
  | .sweep k => (s.stack k).out
  | .kyrok q => (s.port q).outOfService
  | .ucie n => (s.umod n).state == 0
  | p => decide (s.hubOfPage p ∈ s.pkg.hubFaulty)

/-- SENSE.STATUS.watermark: the ring holds at least RING_WM unread records (R395; log 36). -/
def State.watermarkMet (s : State) (n : Nat) : Bool :=
  decide ((s.conv n).ringRd + (s.reg (.sense n) 0x1A0).field 0 13 ≤ (s.conv n).ringWr)

/-- STATUS.block (R550, R554, R588 and the maps). -/
def State.statusBlock (s : State) : Page → Nat
  | .intake w => b2n (s.win w).markValid + 2 * b2n (s.win w).markNone + 4 * b2n (s.win w).spent
  | .sense n => b2n (s.watermarkMet n)
  | .stack k => ((s.stack k).stageReady.map fun i => 2 ^ i).foldl (· + ·) 0 + 256 * (s.stack k).failedStep
  | .die d =>
    let x := s.die d
    b2n x.pattern.isSome + 2 * b2n ((x.loading.isSome && !x.loadDone) || x.patchBusy) + 4 * b2n x.degraded
  | _ => 0

def State.statusView (s : State) (p : Page) : Word :=
  Word.put 63 1 (b2n s.pkg.phase.ready) ||| Word.put 62 1 (b2n (s.pageFault p)) ||| Word.put 0 62 (s.statusBlock p)

/-- ID (R546). -/
def State.idView (s : State) (p : Page) : Word :=
  Word.put 56 8 p.code ||| Word.put 40 16 p.instanceNo ||| Word.put 32 8 1 ||| Word.put 16 16 s.pkg.dieRevision |||
    Word.put 8 8 (b2n s.pkg.gradeES)

def State.epochView (s : State) : Page → Word
  | .die d => Word.put 0 32 (s.die d).epoch.toNat
  | .kvmap h => Word.put 0 32 (s.hub h).lockLease.epoch.toNat
  | .commons => Word.put 0 32 s.store.commonsLease.epoch.toNat
  | _ => 0

/-! ### LIFE (R490, R491) -/

def maxOf (l : List Nat) : Nat := l.foldl max 0
def minOf (top : Nat) (l : List Nat) : Nat := l.foldl min top
def sumOf (l : List Nat) : Nat := l.foldl (· + ·) 0

/-- Free spare columns of a mould. -/
def Mould.sparesFree (m : Mould) : Nat := ((List.range 16).filter m.spareFree).length

/-- Reserve moulds available to a croft: those with no slot that R79 or R489 lets take one. -/
def Croft.reservesLeft (c : Croft) : Nat :=
  ((List.range 18).filter fun m => (c.mould m).slot.isNone &&
    ((c.mould m).state == .blank || ((c.mould m).state == .cast && (c.mould m).reserveOk))).length

/-- Moulds in service: holding a slot that is not out of service. -/
def Croft.serving (c : Croft) : List Nat :=
  (List.range 18).filter fun m => match (c.mould m).slot with
    | some k => !decide (k ∈ c.held) && (c.mould m).state == .cast
    | none => false

def Croft.maxCasts (c : Croft) : Nat :=
  maxOf ((c.moulds.filter fun e => e.2.state == .cast || e.2.state == .casting).map fun e => e.2.castCount)

/-- Logical slots whose mould is due for a recast. -/
def Croft.dueSlots (c : Croft) : List Nat :=
  (List.range 16).filter fun k => match c.holding k with
    | some m => (c.mould m).recastDue
    | none => false

/-- Field entries of a croft's pad maps: act, then ps. -/
def Die.padUsed (x : Die) (n : Nat) (ps : Bool) : Nat :=
  ((if ps then [4, 5, 6, 7] else [0, 1, 2, 3]).filter fun e => (tfind x.padMap (padMapKey n e)).isSome).length

def State.croftLife (s : State) (n : Nat) : Word :=
  let c := s.croft n
  let x := s.die (croftDie n)
  let left := fun (ps : Bool) => if x.mapMode then 4 - x.padUsed n ps else 0
  Word.put 50 14 c.maxCasts ||| Word.put 41 9 (sumOf (c.moulds.map fun e => e.2.spareMap.length)) |||
    Word.put 36 5 (minOf 16 (c.serving.map fun m => (c.mould m).sparesFree)) ||| Word.put 34 2 (min 2 c.reservesLeft) |||
    Word.put 31 3 (left false) ||| Word.put 28 3 (left true) ||| Word.put 12 16 (sumOf (c.dueSlots.map fun k => 2 ^ k)) |||
    Word.put 0 1 (b2n (s.service n == .fenced))

/-- Granary map entries of a slice. -/
def Die.granUsed (x : Die) (slice : Nat) : Nat := (x.granMap.filter fun e => e.1 / 64 == slice).length

def State.spareCroftsLeft (s : State) (d : Nat) : Nat := sumOf ((List.range 32).map fun r => (s.freeSpareCrofts d r).length)

/-- LIFE of the DIE page (R491). A croft that is out of service under R90 is in no field of it, and no other field of the page names it.
DESIGN CHOICE, log 50. -/
def State.dieLife (s : State) (d : Nat) : Word :=
  let cs := s.croftsOf d
  let x := s.die d
  Word.put 53 11 (cs.filter fun n => s.service n == .fenced).length ||| Word.put 46 7 (s.spareCroftsLeft d) |||
    Word.put 32 14 (maxOf (cs.map fun n => (s.croft n).maxCasts)) |||
    Word.put 25 7 (if x.mapMode then minOf 64 ((List.range 64).map fun k => 64 - x.granUsed k) else 0) |||
    Word.put 12 13 x.granMap.length ||| Word.put 0 12 (min 4095 (sumOf (cs.map fun n => (s.croft n).dueSlots.length)))

def State.lifeView (s : State) (p : Page) : Word :=
  match p with
  | .croft n => s.croftLife n
  | .die d => s.dieLife d
  | .pad d => Word.put 32 32 (s.die d).padMap.length ||| Word.put 0 32 (8 * 1088 - (s.die d).padMap.length)
  | .gran d => Word.put 32 32 (s.die d).granMap.length ||| Word.put 0 32 (64 * 64 - (s.die d).granMap.length)
  | .stack k =>
    let x := s.stack k
    Word.put 48 16 (min 65535 x.repairUsed) ||| Word.put 32 16 (min 65535 x.repairLeft) |||
      Word.put 16 16 (min 65535 x.rowsRetired) ||| Word.put 0 16 (min 65535 x.withheld.length)
  | .ucie n =>
    let x := s.umod n
    Word.put 12 4 x.repairedTx ||| Word.put 8 4 (4 - x.repairedTx) ||| Word.put 4 4 x.repairedRx ||| Word.put 0 4 (4 - x.repairedRx)
  | .kyrok q =>
    let x := s.port q
    Word.put 8 4 (if x.outOfService then 0 else x.lanes.length - 6) ||| Word.put 0 8 (sumOf (x.retired.map fun i => 2 ^ i))
  | .sys => s.reg .sys 0x040
  | _ => 0

/-! ### Crofts and dies -/

def serviceCode : Service → Nat
  | .inService => 0 | .spare => 1 | .fenced => 2 | .outOfService => 3

def State.coordView (s : State) (n : Nat) : Word :=
  Word.put 32 2 (serviceCode (s.service n)) |||
    Word.put 24 5 (if s.service n = .inService then (s.columnOf n).getD 0 else 0) |||
    Word.put 16 5 (croftRow n) ||| Word.put 0 6 (croftCol n)

def State.mouldView (s : State) (n m : Nat) : Word :=
  let x := s.mould n m
  Word.put 50 14 x.castCount ||| Word.put 40 8 (x.slot.getD 0xFF) ||| Word.put 32 8 (stateCode x.state) |||
    Word.put 16 5 x.sparesFree ||| Word.put 8 4 x.standins.length ||| Word.put 2 1 (b2n x.probe.isSome) |||
    Word.put 1 1 (b2n x.gauging.active) ||| Word.put 0 1 (b2n x.bank)

/-- Routers on a walk along a row, then along a column, both ends included. -/
def span (a b : Nat) : List Nat := (List.range (max a b - min a b + 1)).map fun i => min a b + i

def State.routersOk (s : State) (d row c0 c1 : Nat) (col : Option (Nat × Nat)) : Bool :=
  !((span c0 c1).any fun c => (s.croft (2048 * d + 64 * row + c)).routerFault) &&
    match col with
    | some (c, r1) => !(span row r1).any fun r => (s.croft (2048 * d + 64 * r + c)).routerFault
    | none => true

/-- Entry of a distance: hops and latency, 5 + 2 × hops + 4 cycles (R228, R245). -/
def distEntry (hops : Nat) (reachable : Bool) : Nat := hops * 512 + (if reachable then 2 * hops + 9 else 0x1FF)

/-- An entry of CROFT.DIST (R245); the hops of an unreachable destination are those of its first path (log 33). -/
def State.distOf (s : State) (n i : Nat) : Nat :=
  let d := croftDie n
  let r := croftRow n
  let c := croftCol n
  if i < 64 then
    let near := if c ≤ 16 then 0 else 33
    let hops := fun e => max c e - min c e
    if s.routersOk d r c near none then distEntry (hops near) true
    else if s.routersOk d r c (33 - near) none then distEntry (hops (33 - near)) true
    else distEntry (hops near) false
  else if i < 66 then
    let (mr, mc) := if i = 64 then (0, 16) else (31, 17)
    distEntry ((max c mc - min c mc) + (max r mr - min r mr)) (s.routersOk d r c mc (some (mc, mr)))
  else 0

def State.distView (s : State) (n k : Nat) : Word :=
  (List.range 4).foldl (fun w i => w ||| Word.put (16 * i) 16 (s.distOf n (4 * k + i))) 0

/-- The mould in service whose active set is oldest on a die: time, and its position as GAUGE.FORCE lays it out. -/
def State.oldestSet (s : State) (d : Nat) : Option (Nat × Word) :=
  (s.croftsOf d).foldl (fun best n =>
    if s.service n ≠ .inService then best
    else match (s.croft n).oldest with
      | none => best
      | some m =>
        let t := ((s.croft n).mould m).activeSet.tG
        let e := (t, Word.put 16 5 (croftRow n) ||| Word.put 8 6 (croftCol n) ||| Word.put 0 5 m)
        match best with
        | some b => if t < b.1 then some e else best
        | none => some e) none

def State.coordMapView (s : State) (d r : Nat) : Word :=
  let at_ := fun c => 2048 * d + 64 * r + c
  let held := fun c => (s.croft (at_ c)).spareColumn.any fun j => s.holdsColumn (at_ c) j
  let col := fun c => if held c then ((s.croft (at_ c)).spareColumn).getD 0 else 0
  Word.put 12 34 (sumOf (((List.range 34).filter fun c => s.service (at_ c) == .fenced).map fun c => 2 ^ c)) |||
    Word.put 11 1 (b2n (held 25)) ||| Word.put 6 5 (col 25) ||| Word.put 5 1 (b2n (held 8)) ||| Word.put 0 5 (col 8)

def State.leaseView (s : State) (d k : Nat) : Word :=
  let l := (s.die d).lease k
  Word.put 56 2 (b2n l.held) |||
    Word.put 40 16 (if l.held then (match l.holder with | .dma c => 0x8000 + c | _ => 0) else 0) |||
    Word.put 0 32 l.epoch.toNat

/-! ### Attention, stacks, links, lockhouse -/

def State.engineView (s : State) (h e : Nat) : Word :=
  let x := (s.hub h).engine e
  let state := if x.halted then 2 else if !x.lease.held then 3 else if x.slots.isEmpty then 0 else 1
  let core := match x.lease.holder with
    | .core c => c.val
    | _ => 0
  Word.put 32 32 x.lease.epoch.toNat ||| Word.put 24 4 core ||| Word.put 16 8 x.slots.length ||| Word.put 8 2 state

/-- A digital selection code that stands for a level of this state (R576); none for codes that stand for pulses, and for the sampled
PFAIL_N and the quench interval, which pass within a command. -/
def State.signalLevel (s : State) (code : Nat) : Option Bool :=
  let h := (code - 0x10) / 16
  let engines := fun (p : Engine → Bool) => (s.hub h).engines.any fun e => p e.2
  if code = 0x03 then some (s.clock.time.testBit 10)
  else if code = 0x05 then some (decide (1 ≤ s.tally.step))
  else if code = 0x06 then some (decide (2 ≤ s.tally.step))
  else if code = 0x07 then some s.tally.storm
  else if 0x10 ≤ code ∧ code < 0x50 ∧ code % 16 = 2 then some (engines fun e => !e.halted && e.lease.held && !e.slots.isEmpty)
  else if 0x10 ≤ code ∧ code < 0x50 ∧ code % 16 = 3 then some (engines (·.halted))
  else if 0x80 ≤ code ∧ code % 8 = 4 then
    some ((s.croftsOf ((code - 0x80) / 8)).any fun n => (s.croft n).moulds.any fun m => m.2.probe.isSome)
  else none

/-- The level on digital test pin `i` (R575): low while its en is 0. -/
def State.digitalPin (s : State) (i : Fin 8) : Option Bool :=
  let w := s.reg .tmux (0x100 + 8 * i.val)
  if w.bit 63 then s.signalLevel (w.field 0 8) else some false

/-- Unclean pages of a stack. -/
def StackSt.uncleanPages (x : StackSt) : Nat := coverage 0 Config.stackPages (sortIntervals x.unclean)

def State.linkView (s : State) (n : Nat) : Word :=
  let x := s.umod n
  Word.put 24 8 (min 255 x.retrains) ||| Word.put 20 4 (x.repairedTx + x.repairedRx) ||| Word.put 8 8 x.width ||| Word.put 0 4 x.state

def State.portView (s : State) (p : Nat) : Word :=
  let x := s.port p
  Word.put 32 8 (sumOf (x.retired.map fun i => 2 ^ i)) ||| Word.put 24 8 (sumOf (x.lanes.map fun i => 2 ^ i)) |||
    Word.put 20 4 x.lanes.length ||| Word.put 16 4 x.state ||| Word.put 8 8 x.peerPort ||| Word.put 0 8 x.peerPackage

/-- A token, attestation or domain request is in progress (R538, R544). -/
def State.lockBusy (s : State) : Bool :=
  s.lock.burn.isSome || s.serve.debugScope.isSome || s.lock.attest.isSome || s.lock.domainState == 1 || s.lock.domainState == 4

/-- LOCK.STATE (R544). -/
def State.lockView (s : State) : Word :=
  let l := s.lock
  Word.put 32 8 (if l.debugOpen then l.debugScope else 0) ||| Word.put 16 8 l.lastCode ||| Word.put 4 1 (b2n s.lockBusy) |||
    Word.put 3 1 (b2n l.debugOpen) ||| Word.put 2 1 (b2n (decide (0 < l.fuses.ownerUsed))) |||
    Word.put 1 1 (b2n l.fwVerified) ||| Word.put 0 1 (b2n l.ready)

def State.domainView (s : State) : Word :=
  Word.put 32 32 s.lock.keyEpoch ||| Word.put 16 9 s.lock.members.length ||| Word.put 0 4 s.lock.domainState

/-- FUSE.COUNTS (R540). -/
def Fuses.counts (f : Fuses) : Word :=
  Word.put 48 8 (128 - f.rollback) ||| Word.put 44 4 (8 - f.ownerUsed) ||| Word.put 40 4 (4 - f.debugUsed) |||
    Word.put 16 16 (sumOf (f.pubRevoked.map fun i => 2 ^ i)) ||| Word.put 0 16 (sumOf (f.publishers.map fun e => 2 ^ e.1))

/-- The 64-bit part `n` of a digest held as a little-endian number. -/
def digestPart (v n : Nat) : Word := BitVec.ofNat 64 (v / 2 ^ (64 * n))

/-- The image that holds a resident slot (R360). -/
def State.residentAt (s : State) (a : Nat) : Option AdapterRec := s.serve.images.find? fun x => x.slot == some a

/-- Entries in use by a tenant. -/
def State.tenantEntries (s : State) (t : Nat) : Nat :=
  (s.serve.sessions.filter fun e => e.2.st != .free && e.2.st != .awaitingIn && e.2.tenant == t).length

def floorWord (r : Rat) : Word := BitVec.ofNat 64 r.floor.toNat

/-- SYS.PACK_STATUS (R496). -/
def State.packView (s : State) : Word :=
  match s.pkg.pack with
  | some p => Word.put 32 16 p.entries.length ||| Word.put 0 32 p.version
  | none => 0

/-! ### Block registers that show state -/

/-- The hottest of the latest diode results of all converters, with its converter, lowest number first (R386, R405). -/
def State.hottest (s : State) : Option (Int × Nat) :=
  s.sense.foldl (fun (best : Option (Int × Nat)) e => (e.2.latestAt.filter fun l => decide (l.1 < 32)).foldl (fun b l =>
    let v := toSigned 16 ((s.reg (.sense e.1) (0x200 + 8 * l.1)).field 0 16)
    match b with
    | some x => if x.1 < v then some (v, e.1) else b
    | none => some (v, e.1)) best) none

/-- TALLY.THERM (R405). -/
def State.thermView (s : State) : Word :=
  Word.put 0 2 s.tally.step ||| (match s.hottest with
    | some x => Word.put 16 16 (ofSigned 16 x.1) ||| Word.put 32 8 x.2
    | none => 0)

def State.blockView (s : State) (p : Page) (off : Nat) : Word :=
  let stored := s.reg p off
  match p with
  | .sys => match off with
    | 0x100 => Word.put 0 3 s.pkg.role
    | 0x108 => BitVec.ofNat 64 (s.hubTime 0)
    | 0x110 => BitVec.ofNat 64 s.pkg.timeBase
    | 0x138 => s.packView
    | _ => stored
  | .tally => match off with
    | 0x120 => floorWord s.tally.allow
    | 0x128 => floorWord s.tally.debt
    | 0x130 => BitVec.ofNat 64 s.tally.lastM
    | 0x138 => floorWord s.tally.unpred
    | 0x140 => s.thermView
    | _ => stored
  | .sense n => match off with
    | 0x190 => BitVec.ofNat 64 (s.conv n).ringWr
    | 0x198 => BitVec.ofNat 64 (s.conv n).ringRd
    | _ => stored
  | .croft n =>
    if off = 0x138 then BitVec.ofNat 64 (s.croft n).standinNow
    else if off = 0x180 then s.coordView n
    else if 0x190 ≤ off ∧ off < 0x220 then s.mouldView n ((off - 0x190) / 8)
    else if 0x220 ≤ off then s.distView n ((off - 0x220) / 8)
    else stored
  | .gauge d => match off with
    | 0x110 => BitVec.ofNat 64 (((s.oldestSet d).map (·.1)).getD 0)
    | 0x118 => ((s.oldestSet d).map (·.2)).getD 0
    | _ => stored
  | .attn h => if 0x200 ≤ off then s.engineView h ((off - 0x200) / 8) else stored
  | .kvmap h => if off = 0x100 then BitVec.ofNat 64 (s.poolFree h) else stored
  | .commons => if off = 0x130 then BitVec.ofNat 64 s.store.nodes.length else stored
  | .stack k =>
    if off = 0x128 then BitVec.ofNat 64 (s.stack k).uncleanPages
    else if 0x200 ≤ off then
      match (s.stack k).repair[(off - 0x200) / 8]? with
      | some row => Word.put 63 1 1 ||| Word.put 0 32 row
      | none => 0
    else stored
  | .sweep k => match off with
    | 0x100 => Word.put 16 24 (s.stack k).lastMs ||| Word.put 0 16 (min 0xFFFF (s.stack k).laps)
    | 0x108 => BitVec.ofNat 64 (s.stack k).sweepPos
    | 0x128 => BitVec.ofNat 64 (s.stack k).sweepPos
    | _ => stored
  | .ucie n => if off = 0x100 then s.linkView n else stored
  | .kyrok q => if off = 0x100 then s.portView q else stored
  | .lock h =>
    if h ≠ 0 then 0
    else match off with
      | 0x118 => s.lock.nonce
      | 0x128 => s.domainView
      | 0x130 => s.lockView
      | _ => stored
  | .fuse =>
    match off with
    | 0x100 => BitVec.ofNat 64 s.lock.fuses.rollback
    | 0x108 => s.lock.fuses.counts
    | _ => digestPart s.lock.fuses.ownerDigest ((off - 0x110) / 8)
  | .die d =>
    if off = 0x100 then
      Word.put 2 1 (b2n (s.die d).fieldMapped) ||| Word.put 1 1 (b2n (s.die d).mapLocked) ||| Word.put 0 1 (b2n (s.die d).mapMode)
    else if 0x200 ≤ off then s.coordMapView d ((off - 0x200) / 8)
    else stored
  | .gran d => if 0x200 ≤ off then s.leaseView d ((off - 0x200) / 8) else stored
  | .tenant t => match off with
    | 0x100 => (s.tenant t).next.getD (s.tenant t).budget
    | 0x108 => Word.put 0 32 (ofSigned 32 (s.tenant t).balance)
    | 0x120 => BitVec.ofNat 64 (s.tenantEntries t)
    | _ => stored
  | .adapt a =>
    match s.residentAt a with
    | none => 0
    | some x => match off with
      | 0x100 => Word.put 63 1 1 ||| Word.put 32 16 x.handle ||| Word.put 16 12 x.tenant ||| Word.put 0 8 x.rank
      | 0x108 => BitVec.ofNat 64 x.bound
      | _ => digestPart x.digest ((off - 0x110) / 8)
  | .intake w =>
    let x := s.win w
    if off = 0x100 then BitVec.ofNat 64 x.shownSeq
    else if off = 0x108 then BitVec.ofNat 64 x.lastAccepted
    else if off = 0x110 then (x.ring 0).cfg
    else if off = 0x118 then BitVec.ofNat 64 (x.ring 0).released
    else if off = 0x120 then BitVec.ofNat 64 (x.ring 0).produced
    else if off = 0x128 then Word.put 32 15 x.awaiting ||| Word.put 0 9 x.queue.length
    else if 0x140 ≤ off ∧ off < 0x180 then (x.ring ((off - 0x140) / 8 + 1)).cfg
    else if 0x180 ≤ off ∧ off < 0x1C0 then BitVec.ofNat 64 (x.ring ((off - 0x180) / 8 + 1)).released
    else if 0x1C0 ≤ off ∧ off < 0x200 then BitVec.ofNat 64 (x.ring ((off - 0x1C0) / 8 + 1)).produced
    else stored
  | .stew =>
    if off = 0x140 then
      match s.stew.fifo with
      | i :: _ => Word.put 63 1 1 ||| Word.put 0 16 i.toNat
      | [] => 0
    else stored
  | _ => stored

/-- The value a page shows at an offset it defines. -/
def State.regView (s : State) (p : Page) (off : Nat) (fs : List Field) : Word :=
  match off with
  | 0x000 => s.idView p
  | 0x008 => BitVec.ofNat 64 (blockCount p)
  | 0x018 => s.statusView p
  | 0x040 => s.lifeView p
  | 0x048 => s.epochView p
  | _ =>
    if off < 0x100 then fieldsRead fs (s.reg p off)
    else fieldsRead fs (s.blockView p off)

/-- A read of a register: INTR_FIFO loses the entry it returns (R11, R559). -/
def State.readReg (s : State) (p : Page) (off : Nat) (fs : List Field) : State × Word :=
  let v := s.regView p off fs
  if p = .stew ∧ off = 0x140 then ({ s with stew := { s.stew with fifo := s.stew.fifo.drop 1 } }, v) else (s, v)

/-! ### What is read beside the steward modules (R411, R427) -/

/-- A read of a module's UCIE page over its sideband, at either end: what the register shows (R411). -/
def State.sidebandRead (s : State) (mod : ModuleAt) (off : Nat) : Option Word :=
  (regFields (.ucie mod.num) off).map fun fs => s.regView (.ucie mod.num) off fs

/-- Hub 0's boot status in steps 3 and 4 of a start (R411, R517): it waits for a doorbell; what else the status says the spec leaves open. -/
def State.bootWaits (s : State) : Bool := s.pkg.phase == .starting && !s.lock.fwVerified

/-- The I3C target answers from step 5 of a start until entry to dormancy begins (R427). -/
def State.i3cAnswers (s : State) : Bool :=
  match s.pkg.phase with
  | .starting | .service | .warmReset | .powerFail => true
  | _ => false

/-- The readings of the PLDM sensors: TALLY.THERM and TALLY.LAST_M (R427). -/
def State.pldmSensors (s : State) : Word × Word := (s.thermView, BitVec.ofNat 64 s.tally.lastM)

end Sys2Proof.Machine
end

