-- ==== Sys2Proof/Machine/Trust.lean ====
section
/-!
DEFINITION. The primary lockhouse (chapter 13): verification of ingots and adapter images, attestation, fuse tokens, the rollback
count and the domain (chapter 10, Domain join).
-/
namespace Sys2Proof.Machine

/-! ### Adapters (R360, R527) -/

/-- The first failing check of an adapter image; a poisoned read comes before them (R466), an encrypted body fails while debug is
open (R543). -/
def State.adapterFault (s : State) (len : Nat) (r : RawImage) (i : AdapterImage) : Option Code :=
  if r.poison then some .poison
  else if r.lengthOk len = false then some .length
  else if s.imageAuthentic ['A', 'D', 'A', 'P', 'T', 'E', 'R'] r = false ∨
      (r.wrapCount ≠ 0 ∧ ((s.lock.fuses.unwrap r).isNone ∨ s.lock.debugOpen)) then some .auth
  else if r.rank = 0 ∨ 64 < r.rank ∨ 4095 < r.tenant ∨ i.shapesMatch = false then some .format
  else none

/-- A package command that waited leaves the list of adapter commands. -/
def State.dropAdapterCmd (s : State) (c : AdapterCmd) : State :=
  { s with serve := { s.serve with adapterCmds := s.serve.adapterCmds.filter fun d => !(d.window == c.window && d.seq == c.seq) } }

/-- The body of an image in clear (R522, R527): line i of 64 bytes uses the counter blocks iv + 4i to iv + 4i + 3. -/
def Fuses.clearBody (f : Fuses) (i : RawImage) : List Nat :=
  match (if i.wrapCount = 0 then none else f.unwrap i) with
  | none => i.body
  | some key =>
    let ks := roundKeys key
    let iv := beNat (slice i.head 24 16)
    (chunks 16 (i.body.length / 16) i.body).zipIdx.flatMap fun e => xorBytes e.1 (aesBlock ks (beBytes 16 ((iv + e.2) % 2 ^ 128)))

/-- ADAPTER_VERIFIED (R360, R527): the oldest ADAPTER_LOAD of the handle that has not been verified ends with the first failing
code, or its body is written to pages of its tenant's key class and its image waits for the next bell. -/
def execAdapterVerified (handle : Nat) (image : AdapterImage) (s : State) : Host.Outcome State Fault Refusal :=
  match s.serve.adapterCmds.find? fun c => c.handle == handle && !c.drop && c.image.isNone with
  | none => .next s
  | some c =>
    let r := s.readImage c.addr c.len
    let s1 := r.1
    match s1.adapterFault c.len r.2 image with
    | some code => .next ((s1.dropAdapterCmd c).packageOutcome c.window c.seq c.cookie (some code) handle)
    | none =>
      match s1.allocPages (c.window / 4) (ceilDiv r.2.bodyLength Config.pageBytes) with
      | none => .next ((s1.dropAdapterCmd c).packageOutcome c.window c.seq c.cookie (some .busy) handle)
      | some a =>
        let id := s.serve.nextImage
        let x : AdapterRec := {
          id := id, handle := handle, digest := r.2.digest, baseDigest := r.2.baseDigest, tenant := r.2.tenant
          rank := r.2.rank, publisher := r.2.publisher, bytes := r.2.bodyLength, modifiesKV := image.modifiesKV
          slot := s.freeSlot, pages := a.2 }
        let s2 := a.1.writePages a.2 (keyTenant r.2.tenant) (bits8 (s.lock.fuses.clearBody r.2))
        .next { s2 with serve := { a.1.serve with
          images := a.1.serve.images ++ [x], nextImage := id + 1
          adapterCmds := a.1.serve.adapterCmds.map fun d =>
            if d.window = c.window ∧ d.seq = c.seq then { d with image := some id } else d } }

/-! ### Ingots (R363, R524) -/

/-- What a pattern table names (R332): 16 entries of 8 bytes, one per die, an address and a length; the header of each image is what lies in
memory, over the sections that the lockhouse finds there. -/
def State.patternTable (s : State) (table : Nat) (found : List PatternRef) : List PatternRef :=
  let b := nums (s.hostRead table 128).2.bytes
  (List.range 16).filterMap fun d =>
    let a := fieldAt b (8 * d) 6
    let n := fieldAt b (8 * d + 6) 2
    if a = 0 ∧ n = 0 then none
    else some ⟨d, a, n, s.patternIn a n ((found.find? fun r => r.die == d).map (·.image))⟩

/-- The pattern table's images under checks 2 to 7 and 9 to 12 of R236; a table that names none fails with FORMAT (R363). -/
def State.patternsFault (s : State) (table : Nat) (found : List PatternRef) : Option Code :=
  let l := s.patternTable table found
  if l.isEmpty then some .format else l.findSome? fun r => s.imageChecks r.die r.image r.base r.len4k false

/-- The rules of R150: no W4 weight of 0b1000, no D8 weight of 0x80, every ω positive, normal and finite, every span a power of two
from 64 to 65,536, and the vocabulary in its range. -/
def bodyOk (vocab : Nat) (b : IngotBody) : Bool :=
  b.w4.all (fun w => w != 8) && b.d8.all (fun w => w != 0x80) &&
    b.omegas.all (fun w => decide (0x0400 ≤ w.toNat) && decide (w.toNat < 0x7C00)) &&
    b.spans.all (fun n => decide (n ∈ [64, 128, 256, 512, 1024, 2048, 4096, 8192, 16384, 32768, 65536])) &&
    decide (2 ≤ vocab) && decide (vocab ≤ 16777216)

/-- The first failing check of an ingot (R524); a poisoned read comes before them (R466). -/
def State.ingotFault (s : State) (len : Nat) (r : RawImage) (i : IngotImage) (table : Nat) : Option Code :=
  if r.poison ∨ (s.hostRead table 128).2.poison = true then some .poison
  else if r.lengthOk len = false then some .length
  else if s.imageAuthentic ['I', 'N', 'G', 'O', 'T'] r = false ∨ (s.lock.fuses.unwrap r).isNone ∨ s.lock.debugOpen then some .auth
  else if bodyOk r.vocab i.body = false then some .format
  else s.patternsFault table i.patterns

/-- The resident generation (R582): croft records of crofts in service name this generation and ingot. -/
def State.resident (s : State) (g digest : Nat) : Bool :=
  s.crofts.any fun e => s.service e.1 == .inService && e.2.recordVersion == 1 && e.2.generation == g && e.2.digest == digest

/-- INGOT_STAGE_VERIFIED (R363, R524, R525): the oldest ingot in verification fails with its first code, or its content key is kept
and it is the staged ingot in the place of an earlier one, or the generation in service again when no ingot is held for the resident
generation (R582). While a switch is pending the lockhouse holds the two keys it may hold, and the verification waits for its end.
DESIGN CHOICE, log 102. -/
def execIngotStageVerified (image : IngotImage) (s : State) : Host.Outcome State Fault Refusal :=
  match s.pkg.gen.staging with
  | [] => .next s
  | g :: rest =>
    if s.pkg.gen.switch.isSome then .next s else
    let raw := s.readImage g.addr g.len
    let s1 := raw.1.modGen fun x => { x with staging := rest }
    match raw.1.ingotFault g.len raw.2 image g.table with
    | some c => .next (s1.packageOutcome g.window g.seq g.cookie (some c) g.generation)
    | none =>
      let r : IngotRec := {
        generation := g.generation, digest := raw.2.digest, kvTag := raw.2.kvTag, vocab := raw.2.vocab
        publisher := raw.2.publisher, shape := image.shape, patterns := raw.1.patternTable g.table image.patterns, addr := g.addr, len := g.len
        contentKey := (s.lock.fuses.unwrap raw.2).getD [] }
      let s2 := s1.modGen fun x =>
        if x.inService.isNone ∧ s.resident g.generation raw.2.digest then { x with inService := some r } else { x with staged := some r }
      .next (s2.packageOutcome g.window g.seq g.cookie none g.generation)

/-! ### Attestation (R530 to R534) -/

/-- A range of engine addresses lies within the steward partition. -/
def State.inPartition (s : State) (a len : Nat) : Bool :=
  match target a with
  | .aperture _ b => decide (b + len ≤ s.partPages * Config.pageBytes)
  | _ => false

/-- A refusal of the lockhouse: logged as an access, and last_code takes its number (R538, R544). -/
def State.lockRefuse (s : State) (off : Nat) (c : Code) : Written :=
  ({ s with lock := { s.lock with lastCode := c.num } } : State).refuse (.lock 0) off c

/-- Write LOCK.ATTEST (R508, R530). -/
def State.writeAttest (s : State) (h : Nat) (v : Word) : Written :=
  let len := v.field 48 14 * 4096
  let addr := v.field 12 36 * 4096
  if h ≠ 0 then s.refuse (.lock h) 0x100 .auth
  else if v.bit 0 = false then s.storeReg (.lock 0) 0x100 v
  else if len = 0 then s.lockRefuse 0x100 .length
  else if 1 < v.field 62 2 then s.lockRefuse 0x100 .format
  else if s.inPartition addr len = false then s.lockRefuse 0x100 .auth
  else if s.lockBusy then s.lockRefuse 0x100 .busy
  else
    let s1 := (s.storeFields (.lock 0) 0x100 v).setReg (.lock 0) 0x108 ((s.reg (.lock 0) 0x108).setField 63 1 0)
    ok { s1 with lock := { s1.lock with attest := some { chain := v.bit 62, addr := addr, len := len } } }

def execLockAttest (hub : HubId) (v : Word) (s : State) : Host.Outcome State Fault Refusal :=
  s.access (.lockAttest hub v) fun t => (t.writeAttest hub.val v).1

def zeros (n : Nat) : List (BitVec 8) := List.replicate n 0

/-- Pattern entries of a report, in die order (R239, R533). -/
def State.patternEntries (s : State) : List (List (BitVec 8)) :=
  (List.range 16).filterMap fun d => (s.die d).pattern.map fun p =>
    leBytes 2 d ++ zeros 2 ++ leBytes 4 p.generation ++ leBytes 64 ((tfind s.lock.patternDigests d).getD p.imageDigest)

/-- Generation entries, in service first. -/
def State.generationEntries (s : State) : List (List (BitVec 8)) :=
  let entry := fun (state : Nat) (r : IngotRec) =>
    leBytes 4 r.generation ++ leBytes 1 state ++ leBytes 1 r.publisher ++ zeros 2 ++ leBytes 4 r.kvTag ++ zeros 4 ++ leBytes 64 r.digest
  (s.pkg.gen.inService.map (entry 0)).toList ++ (s.pkg.gen.staged.map (entry 1)).toList

/-- Adapter entries, in handle order. -/
def State.adapterEntries (s : State) : List (List (BitVec 8)) :=
  s.serve.handles.filterMap fun e => (s.serve.images.find? fun x => x.id == e.2).map fun x =>
    leBytes 2 e.1 ++ leBytes 2 x.tenant ++ leBytes 1 (b2n x.tempered) ++ leBytes 1 (b2n x.slot.isNone) ++
      leBytes 1 (if x.tempered then 0xFF else x.publisher) ++ zeros 5 ++ leBytes 64 x.digest ++ zeros 4

/-- The fixed part and the entries of a report (R532, R533): everything that precedes the alias block. -/
def State.reportBody (s : State) (now : Nat) (nonce : List (BitVec 8)) : List (BitVec 8) :=
  let f := s.lock.fuses
  let pe := s.patternEntries
  let ge := s.generationEntries
  let ae := s.adapterEntries
  let entries := pe.flatten ++ ge.flatten ++ ae.flatten
  let life := fun (p : Page) => leBytes 8 (s.lifeView p).toNat
  leBytes 4 1 ++ leBytes 4 (1024 + entries.length + 192 + 114) ++ leBytes 2 s.pkg.dieRevision ++ leBytes 1 (b2n s.pkg.gradeES) ++
    leBytes 1 (b2n s.lock.debugOpen + 2 * b2n (decide (0 < f.ownerUsed))) ++ leBytes 4 s.pkg.timeBase ++ leBytes 8 now ++ nonce ++
    bits8 f.identityPublic ++ leBytes 1 s.pkg.role ++ zeros 2 ++ leBytes 4 s.lock.securityVersion ++
    leBytes 64 s.lock.firmwareDigest ++ leBytes 1 f.rollback ++ leBytes 1 f.ownerUsed ++ leBytes 1 f.debugUsed ++ zeros 1 ++
    leBytes 2 (sumOf (f.publishers.map fun e => 2 ^ e.1)) ++ leBytes 2 (sumOf (f.pubRevoked.map fun i => 2 ^ i)) ++
    leBytes 32 f.ownerDigest ++ leBytes 4 (s.packView.field 0 32) ++ zeros 4 ++ life .sys ++
    (List.range 16).flatMap (fun d => life (.die d)) ++ (List.range 8).flatMap (fun k => life (.stack k)) ++
    (List.range 16).flatMap (fun p => life (.kyrok p)) ++ (List.range 4).flatMap (fun n => life (.ucie n)) ++
    leBytes 2 pe.length ++ leBytes 2 ge.length ++ leBytes 4 ae.length ++ zeros 392 ++ entries

/-- The snapshot at the end of the first bell after go (R531), with the caller's nonce from the buffer's first 64 bytes. -/
def State.snapAttest (s : State) (now : Nat) : State :=
  match s.lock.attest with
  | some a =>
    if a.snap.isSome then s
    else
      let r := s.hostRead a.addr 64
      { r.1 with lock := { r.1.lock with attest := some { a with
        snap := some (if a.chain then [] else r.1.reportBody now r.2.bytes) } } }
  | none => s

/-- A hub writes bytes of host memory line by line; what a steward cache holds of a line is taken first (R421). -/
def State.hostWrite (s : State) (addr : Nat) (bytes : List (BitVec 8)) : State :=
  let first := addr / 64
  let count := if bytes.isEmpty then 0 else (addr + bytes.length - 1) / 64 - first + 1
  (List.range count).foldl (fun (t : State) i =>
    let base := 64 * (first + i)
    let old := t.hostRead base 64
    let line := (List.range 64).map fun k =>
      if addr ≤ base + k ∧ base + k < addr + bytes.length then (bytes[base + k - addr]?).getD 0 else (old.2.bytes[k]?).getD 0
    old.1.hostWriteLine base line) s

/-- What the identity key signs in an alias block: the alias key, the firmware digest and the time base, whose 4 bytes are those of the
report (R534). The context is that of reports. DESIGN CHOICE, log 34. -/
def aliasRegion (pub digest timeBase : List Nat) : List Nat := shake256 (pub ++ digest ++ timeBase) 64

/-- The context of reports and alias blocks (R521). -/
def attestContext : List Nat := velmas ['A', 'T', 'T', 'E', 'S', 'T']

/-- The alias block (R534): alias public key, 7 reserved bytes, a signature by the identity key, 14 reserved bytes. -/
def State.aliasBlock (s : State) : List Nat :=
  let f := s.lock.fuses
  let pub := edPublic (f.aliasKey s.lock.firmwareDigest)
  pub ++ List.replicate 7 0 ++
    edSign f.identityKey attestContext (aliasRegion pub (bytesOf 64 s.lock.firmwareDigest) (bytesOf 4 s.pkg.timeBase)) ++
    List.replicate 14 0

/-- The report: what the snapshot holds, the alias block, and a signature by the alias key over everything before it (R532). -/
def State.signReport (s : State) (body : List (BitVec 8)) : List (BitVec 8) :=
  let front := nums body ++ s.aliasBlock
  bits8 (front ++ edSign (s.lock.fuses.aliasKey s.lock.firmwareDigest) attestContext (shake256 front 64))

/-- The links of a report that lie in it (R534): the alias block under the identity key, and the signature under the alias key. -/
def reportVerifies (report : List Nat) : Bool :=
  let n := report.length - 306
  let alias_ := slice report n 57
  let identity := slice report 88 57
  decide (1024 + 306 ≤ report.length) &&
    edVerify identity attestContext (aliasRegion alias_ (slice report 152 64) (slice report 12 4)) (slice report (n + 64) 114) &&
    edVerify alias_ attestContext (shake256 (report.take (n + 192)) 64) (slice report (n + 192) 114)

/-- ATTEST_REPORT_DONE (R531): the signed report, or the certificate chain, goes behind the nonce; an output that does not fit ends with
LENGTH. -/
def execAttestReportDone (r : ReportIn) (s : State) : Host.Outcome State Fault Refusal :=
  match s.lock.attest with
  | none => .next s
  | some a => match a.snap with
    | none => .next s
    | some body =>
      let out := if a.chain then r.bytes else s.signReport body
      let s1 : State := { s with lock := { s.lock with attest := none } }
      let done := fun (t : State) (c n : Nat) =>
        (t.setReg (.lock 0) 0x108 (Word.put 63 1 1 ||| Word.put 48 8 c ||| Word.put 0 32 n)).raiseIntr 0x4000
      if a.len < 64 + out.length then
        .next (done { s1 with lock := { s1.lock with lastCode := Code.length.num } } Code.length.num out.length)
      else .next (done (s1.hostWrite (a.addr + 64) out) 0 out.length)

/-! ### Fuse tokens (R535 to R540) -/

/-- Check 3 of R538: length by kind and owner state, format, reserved bytes; a publisher slot is 0 to 15 and a scope has four bits. -/
def State.tokenFormatOk (s : State) (t : Token) (len : Nat) : Bool :=
  decide (1 ≤ t.kind) && decide (t.kind ≤ 4) && decide (len = if t.kind = 4 ∧ 0 < s.lock.fuses.ownerUsed then 484 else 370) &&
    decide (t.format = 1) && t.reservedZero && (!decide (t.kind = 2 ∨ t.kind = 3) || decide (t.slot < 16)) &&
    (!decide (t.kind = 4) || decide (t.scope < 16))

/-- Check 4: device, nonce and sequence. -/
def State.tokenFresh (s : State) (t : Token) : Bool :=
  let want := if t.kind = 1 then s.lock.fuses.ownerUsed else if t.kind = 4 then s.lock.fuses.debugUsed else 0
  t.device == s.lock.fuses.deviceDigest && t.nonce == s.lock.nonce.toNat && t.sequence == want

/-- Check 5: the owner key, where the token needs the owner, hashes to the owner digest, and every signature verifies (R537). -/
def State.tokenSigned (s : State) (t : Token) (len : Nat) : Bool :=
  let owned := decide (0 < s.lock.fuses.ownerUsed)
  let ownerNeeded := decide (t.kind = 2 ∨ t.kind = 3) || owned
  let ownerOk := owned && natOf (shake256 t.ownerKey 32) == s.lock.fuses.ownerDigest
  let key1 := if t.kind = 4 then s.pkg.rom.debug else if ownerNeeded then natOf t.ownerKey else s.pkg.rom.ownerRoot
  (!ownerNeeded || ownerOk) && signed key1 ['T', 'O', 'K', 'E', 'N'] t.region t.signature1 &&
    (decide (len = 370) || signed (natOf t.ownerKey) ['T', 'O', 'K', 'E', 'N'] t.region t.signature2)

def State.contextsInUse (s : State) : Bool := s.serve.sessions.any fun e => e.2.st != .free

/-- Check 6: the state of the setting. -/
def State.tokenStateOk (s : State) (t : Token) : Bool :=
  match t.kind with
  | 2 => (tfind s.lock.fuses.publishers t.slot).isNone
  | 3 => (tfind s.lock.fuses.publishers t.slot).isSome && !decide (t.slot ∈ s.lock.fuses.pubRevoked)
  | 4 => decide (s.pkg.role = 0) && !s.contextsInUse
  | _ => true

/-- Check 7: the count of the setting. -/
def State.tokenCountOk (s : State) (t : Token) : Bool :=
  match t.kind with
  | 1 => decide (s.lock.fuses.ownerUsed < 8)
  | 4 => decide (s.lock.fuses.debugUsed < 4)
  | _ => true

/-- The checks of R538 in order, after the length that R536 asks at go. -/
def State.tokenFault (s : State) (addr len : Nat) (t : Token) : Option Code :=
  if len ≠ 370 ∧ len ≠ 484 then some .length
  else if s.lockBusy then some .busy
  else if s.inPartition addr len = false then some .auth
  else if s.tokenFormatOk t len = false then some .format
  else if s.tokenFresh t = false ∨ s.tokenSigned t len = false then some .auth
  else if s.tokenStateOk t = false then some .state
  else if s.tokenCountOk t = false then some .locked
  else none

/-- The refusals that come before the token is read. -/
def State.tokenUnread (s : State) (addr len : Nat) : Bool :=
  !(decide (len = 370) || decide (len = 484)) || s.lockBusy || !s.inPartition addr len

/-- Write LOCK.TOKEN_LOAD (R508, R536, R538): an accepted token's burn begins. -/
def State.writeToken (s : State) (h : Nat) (v : Word) : Written :=
  if h ≠ 0 then s.refuse (.lock h) 0x110 .auth
  else if v.bit 0 = false then s.storeReg (.lock 0) 0x110 v
  else
    let r := s.readToken (v.field 6 42 * 64) (v.field 48 16)
    let t := r.2
    match s.tokenFault (v.field 6 42 * 64) (v.field 48 16) t with
    | some c => (if s.tokenUnread (v.field 6 42 * 64) (v.field 48 16) then s else r.1).lockRefuse 0x110 c
    | none =>
      let s1 := r.1.storeFields (.lock 0) 0x110 v
      ok { s1 with lock := { s1.lock with
        burn := some { kind := t.kind, slot := t.slot, key := t.publisherKey, owner := t.newOwner, scope := t.scope } } }

def execOwnerTransfer (hub : HubId) (v : Word) (s : State) : Host.Outcome State Fault Refusal :=
  s.access (.ownerTransfer hub v) fun u => (u.writeToken hub.val v).1
def execPubWrite (hub : HubId) (v : Word) (s : State) : Host.Outcome State Fault Refusal :=
  s.access (.pubWrite hub v) fun u => (u.writeToken hub.val v).1
def execPubRevoke (hub : HubId) (v : Word) (s : State) : Host.Outcome State Fault Refusal :=
  s.access (.pubRevoke hub v) fun u => (u.writeToken hub.val v).1
def execDebugAuth (hub : HubId) (v : Word) (s : State) : Host.Outcome State Fault Refusal :=
  s.access (.debugAuth hub v) fun u => (u.writeToken hub.val v).1

/-- The setting that a token burns (R535). -/
def Fuses.burn (f : Fuses) (b : Burn) : Fuses :=
  match b.kind with
  | 1 => { f with ownerUsed := f.ownerUsed + 1, ownerDigest := b.owner }
  | 2 => { f with publishers := tset f.publishers b.slot b.key }
  | 3 => { f with pubRevoked := f.pubRevoked ++ [b.slot] }
  | 4 => { f with debugUsed := f.debugUsed + 1 }
  | _ => f

/-- Draw LOCK.NONCE (R510, R537). -/
def State.drawNonce (s : State) : State :=
  { s with lock := { s.lock with nonce := Config.randomWord s.lock.draws, draws := s.lock.draws + 1 } }

/-- TOKEN_BURN_DONE (R529, R538, R542): the fuses hold the new setting and the nonce is renewed; a revocation and an opening of
debug act at the next bell. DEDUCED, log 121: the bell after the burn. -/
def execTokenBurnDone (s : State) : Host.Outcome State Fault Refusal :=
  match s.lock.burn with
  | none => .next s
  | some b =>
    let s1 : State := { s with
      lock := { s.lock with fuses := s.lock.fuses.burn b, burn := none }
      serve := { s.serve with
        revoked := if b.kind = 3 then s.serve.revoked ++ [b.slot] else s.serve.revoked
        debugScope := if b.kind = 4 then some b.scope else s.serve.debugScope } }
    .next (s1.drawNonce.raiseIntr 0x4001)

/-- Write FUSE.ROLLBACK (R519). -/
def State.writeRollback (s : State) (v : Word) : Written :=
  let n := s.lock.fuses.rollback
  if 128 ≤ n then s.refuse .fuse 0x100 .locked
  else if v.field 0 8 ≠ n + 1 ∨ s.lock.securityVersion < v.field 0 8 then s.refuse .fuse 0x100 .auth
  else ok { s with lock := { s.lock with fuses := { s.lock.fuses with rollback := n + 1 } } }

def execFuseRollback (v : Word) (s : State) : Host.Outcome State Fault Refusal :=
  s.access (.fuseRollback v) fun t => (t.writeRollback v).1

/-! ### The domain (R443, R444, R541) -/

/-- A trained port whose far package is a member comes into service once this package is in the domain, and leaves it otherwise
(R443). -/
def State.settlePorts (s : State) : State :=
  (List.range 16).foldl (fun (t : State) p => t.modPort p fun x =>
    let joined := decide (2 ≤ t.lock.domainState) && decide (t.lock.domainState ≤ 3) && decide (x.peerPackage ∈ t.lock.members)
    if x.state = 2 ∧ joined then { x with state := 3 } else if x.state = 3 ∧ !joined then { x with state := 2 } else x) s

def State.setDomain (s : State) (f : Lockhouse → Lockhouse) : State := ({ s with lock := f s.lock } : State).settlePorts

/-- Bytes of `n` random words of the lockhouse's generator (R510). -/
def Lockhouse.drawBytes (l : Lockhouse) (n : Nat) : List Nat × Lockhouse :=
  ((List.range n).flatMap fun i => bytesOf 8 (Config.randomWord (l.draws + i)).toNat, { l with draws := l.draws + n })

/-- A fresh domain key of the root (R444, R510): 256 bits. -/
def State.drawDomainKey (s : State) : State :=
  let d := s.lock.drawBytes 4
  { s with lock := { d.2 with domainKey := natOf d.1 } }

/-- A new domain key and epoch: both epochs are accepted for 10 ms (R444). -/
def Lockhouse.newKey (l : Lockhouse) (k : Nat × Nat) (now : Nat) : Lockhouse :=
  { l with domainKey := k.1, keyEpoch := k.2, oldEpoch := some l.keyEpoch, oldKey := l.domainKey, epochAt := now }

/-- The domain key wrapped under a secret that two packages share (R443, R444), and opened again: AES-256-GCM under a zero nonce, with a key
by SHAKE256 from the secret. DESIGN CHOICE, log 37: the form of the wrap, which the spec does not give. -/
def wrapKey (z : List Nat) (key : Nat) : List Nat :=
  let kek := shake256 (ascii ['K', 'Y', 'R', 'O', 'K'] ++ z) 32
  let c := counterMode (roundKeys kek) 2 (beNat (List.replicate 15 0 ++ [2])) (bytesOf 32 key)
  c ++ gcmTag kek (List.replicate 12 0) [] c
def openKey (z wrapped : List Nat) : Option Nat :=
  (gcmOpen (shake256 (ascii ['K', 'Y', 'R', 'O', 'K'] ++ z) 32) (List.replicate 12 0) [] (wrapped.take 32) (wrapped.drop 32)).map natOf

/-- Payload of a join message (R443): the report as it stands, the X448 share of a secret, both signed with the identity key of this device, a
wrapped key, and the members of the domain. DESIGN CHOICE, log 37: their order, and that a reply carries the members. -/
def State.joinData (s : State) (secret wrapped members : List Nat) : List (BitVec 8) :=
  let front := nums (s.signReport (s.reportBody s.clock.time (zeros 64))) ++ x448Public secret
  bits8 (front ++ edSign s.lock.fuses.identityKey attestContext (shake256 front 64) ++ wrapped ++ members)

/-- Send DOMAIN to every other member (R443, R444): a kind, and the numbers of the notice; a new key goes to each wrapped for it. -/
def State.tellMembers (s : State) (body : List Nat) (key : Option Nat := none) : State :=
  (s.lock.members.filter fun m => m != s.ownNumber).foldl (fun (t : State) m => t.send {
    destination := m, type := 0x0B, body := body
    data := match key with
      | some k => bits8 (wrapKey ((tfind s.lock.shared m).getD []) k)
      | none => [] }) s

/-- The root sends a new domain key, wrapped for each member that remains, and a new epoch (R444). -/
def State.rekey (s : State) (notice : List Nat) : State :=
  let u := s.drawDomainKey
  let e := (s.lock.keyEpoch + 1) % 2 ^ 32
  let v : State := { u with lock := { (s.lock.newKey (u.lock.domainKey, e) s.clock.time) with draws := u.lock.draws } }
  v.tellMembers ([3, e] ++ notice) (some u.lock.domainKey)

/-- Write LOCK.DOMAIN (R508, R541): join starts R443; on the root it founds the domain, and once that stands it asks for a new key (R444: host
software asks; DESIGN CHOICE, log 37: in this way); leave acts at the next bell. -/
def State.writeDomain (s : State) (h : Nat) (v : Word) : Written :=
  if h ≠ 0 then s.refuse (.lock h) 0x120 .auth
  else if 128 < v.field 16 8 then s.lockRefuse 0x120 .length
  else if v.bit 24 = true ∧ (s.lock.domainState = 1 ∨ s.lock.domainState = 4) then s.lockRefuse 0x120 .busy
  else
    let s1 := s.storeFields (.lock 0) 0x120 v
    let s2 := if v.bit 24 = false then s1
      else if v.field 0 8 = v.field 8 8 then
        if s.lock.domainState = 3 then s1.rekey [] else
        s1.drawDomainKey.setDomain fun l => { l with
          domainState := 3, members := [v.field 0 8], shared := [], keyEpoch := Config.firstEpoch % 2 ^ 32 }
      else
        let d := s1.lock.drawBytes 7
        ({ s1 with lock := { d.2 with domainState := 1, joinAt := s1.clock.time, joinSecret := d.1 } } : State).send
          { destination := v.field 8 8, type := 0x10, body := [v.field 0 8], data := s1.joinData d.1 [] [] }
    ok (if v.bit 25 then { s2 with lock := { s2.lock with domainState := 4 } } else s2)

def execDomainJoin (hub : HubId) (v : Word) (s : State) : Host.Outcome State Fault Refusal :=
  s.access (.domainJoin hub v) fun t => (t.writeDomain hub.val v).1
def execDomainLeave (hub : HubId) (v : Word) (s : State) : Host.Outcome State Fault Refusal :=
  s.access (.domainLeave hub v) fun t => (t.writeDomain hub.val v).1

/-- Leaving the domain at a bell: the root is told, under the key that still holds, and keys and members are forgotten (R444, R541). -/
def State.leaveAtBell (s : State) : State :=
  if s.lock.domainState ≠ 4 then s
  else
    let s1 := s.depart { destination := s.rootNumber, type := 0x0B, body := [2, s.ownNumber] }
    (s1.setDomain fun l => { l with
      domainState := 0, members := [], domainKey := 0, keyEpoch := 0, oldEpoch := none, oldKey := 0, shared := [] }).raiseIntr 0x4002

/-- A report meets the domain's policy (R443, R541, R543): it verifies, carries this owner's digest, debug is closed and the firmware is
recent enough. -/
def State.admits (s : State) (r : JoinReport) : Bool :=
  let b := nums r.report
  r.certified && reportVerifies b && decide (fieldAt b 224 32 = s.lock.fuses.ownerDigest) && !(fieldAt b 11 1).testBit 0 &&
    decide ((s.reg (.lock 0) 0x120).field 16 8 ≤ fieldAt b 148 4)

/-- An AUTH of a join (R443). -/
def State.joinFailed (s : State) (index : Nat) : State :=
  ({ s with lock := { s.lock with lastCode := Code.auth.num } } : State).logError (.lock 0) .auth 0 8 index

/-- JOIN_HELLO (R443, R541) at the root: a report that meets the policy is answered with the wrapped key, and the new member is
announced. -/
def execJoinHello (port : PortId) (r : JoinReport) (s : State) : Host.Outcome State Fault Refusal :=
  if s.lock.domainState ≠ 3 ∨ (s.port port.val).state < 2 then .next s
  else if s.admits r = false then .next (s.joinFailed r.package.val)
  else
    let d := s.lock.drawBytes 7
    let z := x448 d.1 (nums r.share)
    let all := if r.package.val ∈ s.lock.members then s.lock.members else s.lock.members ++ [r.package.val]
    let s1 := ({ s with lock := d.2 } : State).send {
      destination := r.package.val, type := 0x11, body := [s.ownNumber, s.lock.keyEpoch]
      data := s.joinData d.1 (wrapKey z s.lock.domainKey) all }
    let s2 := s1.tellMembers [1, r.package.val]
    .next (s2.setDomain fun l => { l with members := all, shared := tset l.shared r.package.val z })

/-- The secret that this package shares with the sender of a reply (R443). -/
def Lockhouse.joinZ (l : Lockhouse) (r : JoinReport) : List Nat := x448 l.joinSecret (nums r.share)

/-- JOIN_REPLY (R443): the joiner makes the same checks, opens the wrapped domain key and takes the domain's members; a reply that fails ends
the join with AUTH. -/
def execJoinReply (r : JoinReport) (keyEpoch : Nat) (s : State) : Host.Outcome State Fault Refusal :=
  if s.lock.domainState ≠ 1 then .next s
  else match (if s.admits r then openKey (s.lock.joinZ r) (nums r.wrapped) else none) with
    | none => .next (((s.joinFailed r.package.val).setDomain fun l => { l with domainState := 0 }).raiseIntr 0x4002)
    | some k => .next ((s.setDomain fun l => { l with
        domainState := 2, domainKey := k, keyEpoch := keyEpoch, oldEpoch := none, oldKey := 0, joinSecret := []
        shared := [(r.package.val, s.lock.joinZ r)]
        members := (r.package.val :: s.ownNumber :: r.members.map (·.val)).eraseDups }).raiseIntr 0x4002)

/-- DOMAIN (R443, R444): a new member, a member that left, a new key, wrapped under the secret shared with the root. The root answers a leave
with a new key and epoch for those that remain; a key that does not open is logged with AUTH. -/
def execDomain (newMember leaver : Option (Fin 256)) (newKey : Option (List (BitVec 8) × Nat)) (s : State) : Host.Outcome State Fault Refusal :=
  if s.lock.domainState ≠ 2 ∧ s.lock.domainState ≠ 3 then .next s
  else
    let s1 := match newMember with
      | some m => s.setDomain fun l => { l with members := if m.val ∈ l.members then l.members else l.members ++ [m.val] }
      | none => s
    let s2 := match leaver with
      | some m =>
        let t := s1.setDomain fun l => { l with members := l.members.filter fun k => k != m.val }
        if s.lock.domainState = 3 then t.rekey [m.val] else t
      | none => s1
    .next (match newKey with
      | some k =>
        if s.lock.domainState ≠ 2 then s2
        else match openKey ((tfind s.lock.shared s.rootNumber).getD []) (nums k.1) with
          | some v => { s2 with lock := s2.lock.newKey (v, k.2) s.clock.time }
          | none => s2.joinFailed s.rootNumber
      | none => s2)

/-- JOIN_TIMEOUT (R443): a join that has not completed within 20 ms reports AUTH. -/
def execJoinTimeout (s : State) : Host.Outcome State Fault Refusal :=
  if s.lock.domainState = 1 ∧ s.lock.joinAt + 20000000 ≤ s.clock.time then
    .next (((s.joinFailed s.rootNumber).setDomain fun l => { l with domainState := 0 }).raiseIntr 0x4002)
  else .next s

/-- KEY_EPOCH_SWITCH (R444): after 10 ms only the new epoch is accepted. -/
def execKeyEpochSwitch (s : State) : Host.Outcome State Fault Refusal :=
  if s.clock.time < s.lock.epochAt + 10000000 then .next s
  else .next { s with lock := { s.lock with oldEpoch := none, oldKey := 0 } }

end Sys2Proof.Machine
end

