-- ==== Sys2Proof/Machine/Migration.lean ====
section
/-!
DEFINITION. Remote reads (R445, R446) and migration (R366, R367, R447).
-/
namespace Sys2Proof.Machine

/-! ### The source -/

/-- The page table of a session as its manifest carries it (R447): index, package, low half of the store epoch, page. -/
def State.manifestTable (s : State) (x : Nat) : List Nat :=
  (s.sess x).table.flatMap fun e => match e.2 with
    | .empty => []
    | .page p => [e.1, s.ownNumber, s.store.storeEpoch % 65536, p]
    | .remote k ep p => [e.1, k, ep % 65536, p]
    | .unused => []

/-- MIG_MANIFEST (R447): the session's whole state, the adapter tag that R309 holds its commons to, and whether references were lost (R358),
among them; scalars, then each list behind its length. DESIGN CHOICE, log 100: the order, which R435 leaves open. -/
def State.sendManifest (s : State) (x package tag : Nat) : State :=
  let y := s.sess x
  let table := s.manifestTable x
  let tag1 := y.firstTag.getD 0
  let nums : List Nat := [y.generation, y.kvTag, y.tenant, y.cls, b2n y.kv8, b2n y.pub, y.capacity, y.temperature.toNat, y.topK,
    y.seed % 2 ^ 32, y.seed / 2 ^ 32, y.floor, y.committed, b2n y.pending.isSome, y.pending.getD 0, b2n y.mixed, b2n y.remoteLost,
    b2n y.firstTag.isSome] ++ (List.range 16).map fun i => tag1 / 2 ^ (32 * i) % 2 ^ 32
  s.send { destination := package, type := 0x07
           body := [x, tag, table.length / 4] ++ nums ++ y.stop.endTokens.length :: y.stop.endTokens ++
             y.stop.seqs.length :: (y.stop.seqs.flatMap fun q => q.length :: q) ++ y.tokenLog.length :: y.tokenLog ++ table }

/-! ### Ends of a migration -/

/-- The migration of a session fails (R367): no more of it is fetched, and its command is answered at the next bell (R34, R349). -/
def State.failMigration (s : State) (x : Nat) (c : Code) : State :=
  ({ s with links := { s.links with
    fetching := tdrop s.links.fetching x, rreads := s.links.rreads.filter fun r => r.context != x } } : State).modSess x fun y =>
      { y with migration := none, confirmed := false, migFailed := some c }

/-- Tell the partner with MIG_ABORT, then fail here. -/
def State.abortMigration (s : State) (x : Nat) (c : Code) : State :=
  match (s.sess x).migration with
  | none => s
  | some (pk, tag, _) =>
    (s.send { destination := pk, type := 0x09
              body := [if (s.sess x).st = .awaitingIn then (s.sess x).partner else x, tag, c.num] }).failMigration x c

/-- Action 4 answers a failed migration (R349, R367): the target's entry is released, the source's session stays. -/
def State.failedMigration (s : State) (x now : Nat) : State :=
  match (s.sess x).migFailed with
  | none => s
  | some c =>
    let due := (s.sess x).queue.filter fun q => q.out.isNone && match q.body with
      | .migrateOut _ => true
      | .migrateIn _ => true
      | _ => false
    let s1 := (due.foldl (fun (t : State) q => t.setOut x q.seq fun q => failedOf q c 0) s).modSess x fun y => { y with migFailed := none }
    if (s.sess x).st = .awaitingIn then (s1.flushSession x now).release x
    else (s1.modSess x fun y => { y with st := if y.st = .leaving then .openS else y.st }).flushSession x now

/-! ### The target -/

/-- One entry of a manifest's table: the source's own pages are fetched into pages of this package, every other remote entry keeps its
store package; a page that this package holds for the session itself is local. -/
def State.takeEntry (s : State) (x : Nat) (m : Manifest) (e : Nat × Nat × Nat × Nat) : State × Bool :=
  if e.2.1 = m.source.val then
    match s.allocPage (s.ownerHub x) with
    | (t, none) => (t, false)
    | (t, some p) =>
      let u := (t.enterPte x e.1 (.page p)).readRemote e.2.1 e.2.2.1 e.2.2.2 0 Config.pageBytes p x
      ({ u with links := { u.links with fetching := tset u.links.fetching x ((tfind u.links.fetching x).getD 0 + 1) } }, true)
  else if e.2.1 = s.ownNumber then ((s.addRef e.2.2.2).enterPte x e.1 (.page e.2.2.2), true)
  else (s.enterPte x e.1 (.remote e.2.1 e.2.2.1 e.2.2.2), true)

/-- A manifest meets its MIGRATE_IN (R366, R367, R447): a target that holds neither the generation nor one with its kv_tag, in service or
staged under an accepted switch, fails both sides with GENERATION_GONE; a
pool that cannot supply the pages fails them with BUSY. -/
def State.receiveManifest (s : State) (x : Nat) (m : Manifest) : State :=
  let s0 := s.modSess x fun y => { y with partner := m.context }
  let held := s.pkg.gen.inService.toList ++ s.targetIngot.toList
  if held.all fun r => r.generation != m.generation && r.kvTag != m.kvTag then s0.abortMigration x .generationGone
  else match s0.allocPages (s0.ownerHub x) (logPageCount m.capacity) with
    | none => s0.abortMigration x .busy
    | some a =>
      let s1 := a.1.modSess x fun y => { y with
        tenant := m.tenant, cls := m.cls, kv8 := m.kv8, pub := m.pub, capacity := m.capacity, temperature := m.temperature
        topK := m.topK, seed := m.seed, stop := { endTokens := m.endTokens, seqs := m.stopSeqs }, committed := m.committed
        tentative := m.committed, pending := m.pendingToken, generation := m.generation, kvTag := m.kvTag, floor := m.floor
        tokenLog := m.tokenLog, firstTag := m.firstTag, mixed := m.mixed, remoteLost := m.remoteLost, logPages := a.2 }
      let s2 : State := { s1 with links := { s1.links with fetching := tset s1.links.fetching x 0 } }
      let ks := s2.missingTables x (m.table.map (·.1))
      match s2.allocPages (s2.ownerHub x) ks.length with
      | none => s2.abortMigration x .busy
      | some b =>
        let s3 := b.1.enterTables x (ks.zip b.2)
        let r := m.table.foldl (fun (acc : State × Bool) e => if acc.2 then acc.1.takeEntry x m e else acc) (s3, true)
        if r.2 then r.1 else r.1.abortMigration x .busy

/-- A manifest that waits for this entry's MIGRATE_IN, if one has come within 100 ms. -/
def State.takeManifest (s : State) (x : Nat) : State :=
  let ss := s.sess x
  match ss.st, ss.migration, tfind s.links.fetching x with
  | .awaitingIn, some (pk, tag, _), none =>
    match s.links.manifests.find? fun e => e.1.source.val == pk && e.1.tag == tag && decide (s.clock.time < e.2 + 100000000) with
    | some e => ({ s with links := { s.links with manifests := s.links.manifests.erase e } } : State).receiveManifest x e.1
    | none => s
  | _, _, _ => s

/-- The target takes a session over once its last page has arrived, and confirms (R366, R447). -/
def State.takeOver (s : State) (x now : Nat) : State :=
  let ss := s.sess x
  match ss.st, tfind s.links.fetching x, ss.migration with
  | .awaitingIn, some 0, some (pk, tag, _) =>
    let s1 : State := { s with links := { s.links with fetching := tdrop s.links.fetching x } }
    let s2 := (s1.modSess x fun y => { y with st := .openS, migration := none }).send
      { destination := pk, type := 0x08, body := [ss.partner, tag] }
    match ss.queue with
    | q :: _ => (s2.setOut x q.seq fun q => doneOf q 7).flushSession x now
    | [] => s2
  | _, _, _ => s

/-! ### Commands -/

/-- RREAD_REQ (R320, R446): a request under another store epoch is answered with EPOCH, a length of 0 or beyond the page with LENGTH;
otherwise the bytes go back, poisoned when a line of them is; poison found in a shared page evicts its nodes (R313). The epoch is compared in
the 16 bits that an entry keeps (R293). -/
def execRreadReq (source : Fin 256) (tag storeEpoch page first len : Nat) (s : State) : Host.Outcome State Fault Refusal :=
  let reply := fun (t : State) (c : Nat) (data : List (BitVec 8)) (poison : Bool) =>
    t.send { destination := source.val, type := 0x06, body := [tag, c], data := data, poison := poison }
  if storeEpoch % 65536 ≠ s.store.storeEpoch % 65536 then .next (reply s Code.epoch.num [] false)
  else if len = 0 ∨ Config.pageBytes < first + len ∨ 8 * Config.stackPages ≤ page then .next (reply s Code.length.num [] false)
  else
    let r := s.readBytes (page * Config.pageBytes + first) len (s.pageKey page)
    .next (reply (if r.2.poison then r.1.evictPoisoned page else r.1) (if r.2.poison then Code.poison.num else 0) r.2.bytes r.2.poison)

/-- Write fetched bytes into a page; poisoned data lands poisoned, on every line that it reaches (R417, R446). -/
def State.storeFetched (s : State) (a key : Nat) (data : List (BitVec 8)) (poison : Bool) : State :=
  let t := s.writeBytes a key data
  if poison then
    (List.range ((a % 64 + data.length + 63) / 64)).foldl (fun (u : State) i =>
      u.setLineCode (a / 64 + i) { u.lineCode (a / 64 + i) with marker := .poison }) t
  else t

/-- One range of an adopted prefix has come, or its package has refused it (R308, R320). -/
def State.endCopy (s : State) (x : Nat) : State := s.modSess x fun y => { y with copies := y.copies - 1 }

/-- RREAD_RSP (R446): matched by source and tag; one that matches nothing, or that comes after its request's timeout, is discarded and
counted. What it brings is written, poisoned when it is; a failed read, and poison (R466), fail a migration; EPOCH loses the references
that an adopted prefix has on that package (R320, R358). -/
def execRreadRsp (port : PortId) (source : Fin 256) (tag status : Nat) (data : List (BitVec 8)) (poison : Bool) (s : State) :
    Host.Outcome State Fault Refusal :=
  match s.links.rreads.find? fun r => r.package == source.val && r.tag == tag with
  | none => .next (s.bump (.kyrok port.val) 0x118 1)
  | some r =>
    let bad := poison || status == Code.poison.num
    if r.sent + r.limit < s.clock.time then .next (s.bump (.kyrok port.val) 0x118 1)
    else
      let s1 : State := { s with links := { s.links with rreads := s.links.rreads.erase r } }
      let moving := tfind s.links.fetching r.context
      if status = 0 ∨ status = Code.poison.num then
        let s2 := s1.storeFetched (r.dest * Config.pageBytes + r.first) (s.sess r.context).kvKey data bad
        .next (match moving with
          | some n =>
            if bad then s2.abortMigration r.context .poison
            else { s2 with links := { s2.links with fetching := tset s2.links.fetching r.context (n - 1) } }
          | none => s2.endCopy r.context)
      else match moving with
        | some _ => .next (s1.abortMigration r.context (if status = Code.epoch.num then .epoch else .length))
        | none => .next ((s1.loseRemote r.context r.package).endCopy r.context)

/-- A read times out once the cycle of its RREAD_TO is past (R445, R446): it is issued again with a new tag, while the 100 ms of its
migration last (R447), for a prefix as long as its turn waits (DEDUCED, log 101); a migration whose 100 ms are over fails with TIMEOUT. -/
def execRreadTimeout (tag : Nat) (s : State) : Host.Outcome State Fault Refusal :=
  match s.links.rreads.find? fun r => r.tag == tag with
  | none => .next s
  | some r =>
    if s.clock.time ≤ r.sent + r.limit then .next s
    else
      let s1 : State := { s with links := { s.links with rreads := s.links.rreads.erase r } }
      let again := s1.readRemote r.package r.epoch r.page r.first r.len r.dest r.context
      match (s.sess r.context).migration with
      | some (_, _, at_) => .next (if s.clock.time < at_ + 100000000 then again else s1.abortMigration r.context .timeout)
      | none => .next (if 0 < (s.sess r.context).copies then again else s1)

/-- MIG_MANIFEST (R447): taken by the MIGRATE_IN of the same source and tag, or kept for one that is still to come (R367). -/
def execMigManifest (m : Manifest) (s : State) : Host.Outcome State Fault Refusal :=
  let t : State := { s with links := { s.links with
    manifests := (s.links.manifests.filter fun e => decide (s.clock.time < e.2 + 100000000)) ++ [(m, s.clock.time)] } }
  .next ((s.serve.sessions.map (·.1)).foldl (fun (u : State) x => u.takeManifest x) t)

/-- MIG_CONFIRM (R447): the source releases the session at its next bell. -/
def execMigConfirm (context tag : Nat) (s : State) : Host.Outcome State Fault Refusal :=
  match (s.sess context).st, (s.sess context).migration with
  | .leaving, some (_, t, _) => .next (if t = tag then s.modSess context fun y => { y with confirmed := true } else s)
  | _, _ => .next s

/-- MIG_ABORT (R447): the migration of this tag fails here with the code; the body names the session's entry on the source. -/
def execMigAbort (context tag : Nat) (code : Code) (s : State) : Host.Outcome State Fault Refusal :=
  match s.serve.sessions.find? fun e => (e.2.migration.any fun m => m.2.1 == tag) &&
      ((e.2.st == .leaving && e.1 == context) || (e.2.st == .awaitingIn && (e.2.partner == context || (tfind s.links.fetching e.1).isNone))) with
  | some e => .next (s.failMigration e.1 code)
  | none => .next s

/-- MIGRATION_TIMEOUT (R367): 100 ms have passed. -/
def execMigrationTimeout (context : Nat) (s : State) : Host.Outcome State Fault Refusal :=
  match (s.sess context).migration with
  | some (_, _, at_) =>
    if at_ + 100000000 ≤ s.clock.time ∧ (s.sess context).confirmed = false then .next (s.abortMigration context .timeout)
    else .next s
  | none => .next s

end Sys2Proof.Machine
end

