-- ==== Sys2Proof/Machine/Bell.lean ====
section
/-!
DEFINITION. BELL (R241, R242, R349): the ten actions in their order, and what takes effect at the next bell elsewhere.
-/
namespace Sys2Proof.Machine

/-! ### Settings that take effect at a bell -/

/-- The crofts are power-gated on entering the store role (R20): pads, weight stores and what their smithies hold lose their contents; the
cast moulds, the records and the granary stay, and casts are cut short. -/
def State.gateCrofts (s : State) : State :=
  { s.stopCasts with crofts := tmap (fun _ => {}) (fun _ c => c.gated) s.stopCasts.crofts }

/-- A role change (R20, R22, R24, R26): patterns of the previous role are unloaded; leaving the store role for one in which moulds are
evaluated checks the gauging of every mould first. -/
def State.roleAtBell (s : State) (b : BellIn) : State :=
  match s.pkg.rolePending with
  | none => s
  | some r =>
    let s1 : State := { s with pkg := { s.pkg with role := r, rolePending := none } }
    if r = s.pkg.role then s1
    else
      let s2 := (List.range 16).foldl (fun (t : State) d => t.modDie d fun x =>
        { x.dropPattern with lost := none, loading := none, loadDone := false }) s1
      if r = 3 then (List.range 16).foldl (fun (t : State) d => t.modDie d fun x => { x with quickDue := [], quickIn := [] }) s2.gateCrofts
      else if s.pkg.role ≠ 3 then s2
      else if r = 1 ∨ r = 2 ∨ r = 4 then s2.resumeSpares.quickCheck b.quick else s2.resumeSpares

/-- The commons takes or returns node pages (R314). -/
def State.commonsAtBell (s : State) : State :=
  match s.store.commonsNext with
  | none => s
  | some n =>
    let s1 : State := (s.dropRefs s.store.nodePages)
    let r := (List.range n).foldl (fun (a : State × List Nat) i => match a.1.allocPage (i % 4) with
      | (t, some p) => (t, a.2 ++ [p])
      | (t, none) => (t, a.2)) (s1, [])
    { r.1 with store := { r.1.store with nodePages := r.2, buckets := [], commonsNext := none } }

/-- Unmap the handles whose image a test picks (R529, R542). -/
def State.unmapHandles (s : State) (f : AdapterRec → Bool) : State :=
  { s with serve := { s.serve with handles := s.serve.handles.filter fun e =>
      !(s.serve.images.any fun a => a.id == e.2 && f a) } }

/-- A switch ends (R365, R525). -/
def State.endSwitch (s : State) (w : Switch) (c : Option Code) (f : Generations → Generations) : State :=
  (s.modGen fun g => f { g with switch := none, castPoison := false }).packageOutcome w.window w.seq w.cookie c w.generation

/-- Revoked publisher slots take effect (R529). A switch to a revoked ingot that has begun to cast leaves no generation in service, as one that
an opening of debug ends does. DESIGN CHOICE, log 119. -/
def State.revokeAtBell (s : State) : State :=
  if s.serve.revoked.isEmpty then s
  else
    let gone := fun (p : Nat) => decide (p ∈ s.serve.revoked)
    let staged : Bool := s.pkg.gen.staged.any (fun (r : IngotRec) => gone r.publisher)
    let s1 := match s.pkg.gen.switch with
      | some w => if staged && (s.pkg.gen.staged.any fun (r : IngotRec) => r.generation == w.generation) then
          s.endSwitch w (some .auth) fun g => if w.phase = SwitchPhase.waiting then g else { g with inService := none }
        else s
      | none => s
    let s2 := if staged then s1.modGen fun g => { g with staged := none } else s1
    let s3 := s2.unmapHandles fun a => gone a.publisher
    { s3 with serve := { s3.serve with revoked := [] } }

/-- The rows that a quench of the whole package zeroes on a die count (R226, R542): the usable pad rows and the lines from the stand-in slots
on of every croft that has power, and the granary rows. -/
def State.countPackageQuench (s : State) (d : Nat) : State :=
  let x := s.die d
  let spares := (List.range 32).flatMap fun r => [8, 25].map fun c => 2048 * d + 64 * r + c
  let dark := ((spares ++ s.croftsOf d).eraseDups.filter fun n => s.croftPowered n = false).length
  (s.bump (.pad d) 0x128 ((1088 - dark) * (x.croftRows - 256))).bump (.gran d) 0x128 (64 * x.granRows)

/-- The whole-package quench of an opened debug authorisation (R542; DEDUCED, log 121: its bell is the first after the burn);
moulds that need a stand-in leave service, and casts in progress read no more of the ingot (R543). -/
def State.debugAtBell (s : State) : State :=
  match s.serve.debugScope with
  | none => s
  | some scope =>
    let s0 := (List.range 16).foldl (fun (t : State) d => t.countPackageQuench d) s
    let s1 := (s.crofts.map (·.1)).foldl (fun (t : State) n => t.modCroft n fun c => { c with
      actPad := [], psPad := [], actBad := [], psBad := [], satMarks := [], accSpans := [], sigmas := [], outputs := [], windows := [], rowResults := []
      store := c.store.filter fun e => decide (e.1 < 0x10000) }) s0.stopCasts
    let needy := s1.crofts.flatMap fun e => e.2.moulds.filterMap fun m =>
      if m.2.standins.isEmpty then none else m.2.slot.map fun k => (e.1, k)
    let s1' := needy.foldl (fun (t : State) e => t.leaveService e.1 e.2 false) s1
    let s2 := (List.range 16).foldl (fun (t : State) d => t.modDie d Die.clearGranary) s1'
    let keys := s2.lock.keys.filter fun e => decide (e.1 ∈ [keyDevice, keyPlatform])
    let used := (s2.lock.keys.map (·.1)).filter fun k => !decide (k ∈ [keyDevice, keyPlatform])
    let s3 := (keyPublic :: used).eraseDups.foldl (fun (t : State) k => t.renewKey k)
      { s2 with lock := { s2.lock with keys := keys } }
    let s3' := s3.store.prefixes.foldl (fun (t : State) e => t.dropPrefix e.1)
      { s3 with store := { s3.store with nodes := [] } }
    let s4 := (List.range 8).foldl (fun (t : State) k => t.modStack k fun x => { x with unclean := x.unclean ++ t.poolSpan k }) s3'
    let s5 := s4.unmapHandles fun _ => true
    { s5 with
      serve := { s5.serve with debugScope := none }
      store := { s5.store with nodes := [], buckets := [], prefixes := [] }
      lock := { s5.lock with debugOpen := true, debugScope := scope } }

/-- Package settings that take effect at the next bell (R314, R382, R493, R494). -/
def State.packageAtBell (s : State) (b : BellIn) : State :=
  let s1 := s.roleAtBell b
  let s2 : State := { s1 with
    pkg := { s1.pkg with
      pack := if s1.pkg.packClear then none else match s1.pkg.packPending with | some p => some p | none => s1.pkg.pack
      packPending := none, packClear := false }
    tally := { s1.tally with limits := s1.tally.limitsNext.getD s1.tally.limits, limitsNext := none } }
  s2.commonsAtBell.revokeAtBell.debugAtBell.leaveAtBell

/-! ### Actions 1 to 3 -/

/-- The deadline of a context's turn lets it commit (R357). -/
def State.inTime (s : State) (x now : Nat) : Bool := (s.sess x).turn.all fun t => t.deadline.all fun d => decide (now ≤ d)

/-- The mirror hub answers every command of a session that has no outcome with FAILED FENCED, and releases the session (R347). -/
def State.fenceSession (s : State) (x now : Nat) : State :=
  let s1 := s.dropStep x now
  let tokens := fun (q : Queued) => match (s1.sess x).turn with
    | some t => if t.seq = q.seq then t.delivered else 0
    | none => 0
  let s2 := (s1.sess x).queue.foldl (fun (t : State) q => t.setOut x q.seq fun q => failedOf q .fenced (tokens q)) s1
  (s2.flushSession x now).release x

/-- One step in action 1: a marked step is withdrawn, failed or, for a re-run with a SUSPECT mark alone, kept (R141, R142, R206, R587); a
re-run whose deadline has passed is left to action 3, which ends it (R143, R206, R587). -/
def State.judgeStep (s : State) (now : Nat) (st : Step) : State :=
  if (s.findStep st.id).isNone then s
  else match st.failed with
    | some c => s.failWork st now c
    | none =>
      if st.marks.isEmpty then s
      else if st.rerun then
        if s.inTime st.context now = false then s
        else match failCode st.marks with
          | some c => s.failWork st now c
          | none => s.modStep st.id fun x => { x with marks := [], suspect := true }
      else s.withdraw st now

/-- Action 1 (R347, R349, R499): sessions of a faulty hub end, jobs that a warm reset met restart, and every marked step is judged. -/
def State.action1 (s : State) (now : Nat) : State :=
  let fenced := (s.serve.sessions.filter fun e => e.2.fenceDue).map (·.1)
  let s1 := fenced.foldl (fun (t : State) x => t.fenceSession x now) s
  let jobs := (s1.serve.sessions.filter fun e => e.2.job.any (·.resetDue)).map (·.1)
  let s2 := jobs.foldl (fun (t : State) x => t.restartJob x now .reset) s1
  s2.serve.steps.foldl (fun (t : State) st => t.judgeStep now st) s2

/-- A step's last stage has ended; a tempering step ends with its micro-batch. -/
def State.stepEnded (s : State) (st : Step) : Bool :=
  if st.kind = .temper then (s.sess st.context).job.any fun j => decide (st.first < j.done) else decide (st.total ≤ st.stage + 1)

/-- Action 2: commits, in order of admission; then every step still in flight moves to its next stage (R244). -/
def State.action2 (s : State) (b : BellIn) (now : Nat) : State :=
  (s.serve.steps.foldl (fun (t : State) st =>
    if t.stepEnded st ∧ t.inTime st.context now = true then t.commitStep b st now else t) s).mapSteps Step.next

/-- Action 3: turns whose deadline has passed, begun or not (R357). -/
def State.deadlineOf (s : State) (x now : Nat) : State :=
  let ss := s.sess x
  let late := ss.queue.filter fun q => q.out.isNone && (bodyDeadline q.body).any fun d => decide (d < now)
  if late.isEmpty then s
  else (late.foldl (fun (t : State) q =>
    let gen := match q.body with
      | .generate _ => true
      | _ => false
    match (t.sess x).turn.filter fun u => u.seq == q.seq with
    | some u =>
      if gen then (t.dropStep x now).endTurn x 0x11 0 5 u.flags []
      else (t.dropStep x now).failTurn x .timeout
    | none => t.setOut x q.seq fun q => if gen then doneOf q 5 else failedOf q .timeout 0) s).flushSession x now

/-! ### Action 4 -/

/-- An OPEN receives its DONE at the first bell after its acceptance (R338). -/
def State.openDone (s : State) (x now : Nat) : State :=
  match (s.sess x).queue with
  | q :: _ => match q.body, q.out with
    | .openS _, none => (s.setOut x q.seq fun q => doneOf q 7).flushSession x now
    | _, _ => s
  | [] => s

/-- STOP ends the GENERATE and DRAFT turns accepted before it (R355). -/
def State.stopOne (s : State) (x now : Nat) (stop : Queued) : State :=
  let before := (s.sess x).queue.takeWhile fun q => q.seq != stop.seq
  let due := before.filter fun q => q.out.isNone && match q.body with
    | .generate _ => true
    | .draft _ => true
    | _ => false
  let s1 := due.foldl (fun (t : State) q =>
    match (t.sess x).turn.filter fun u => u.seq == q.seq with
    | some u => (t.dropStep x now).endTurn x 0x11 0 6 u.flags []
    | none => t.setOut x q.seq fun q => doneOf q 6) s
  s1.modSess x fun y => { y with queue := y.queue.map fun q =>
    if q.seq = stop.seq then { q with out := some (doneOf q 7), acted := true } else q }

def State.stops (s : State) (x now : Nat) : State :=
  let due := (s.sess x).queue.filter fun q => q.out.isNone && match q.body with
    | .stop _ => true
    | _ => false
  if due.isEmpty then s else (due.foldl (fun (t : State) q => t.stopOne x now q) s).flushSession x now

/-- A PROMPT step of the session is in flight. -/
def State.promptInFlight (s : State) (x : Nat) : Bool :=
  (s.stepOf x).any fun st => st.kind == .promptPart || st.kind == .promptLast

/-- CANCEL (R356): class P waits for the PROMPT step; otherwise every earlier command fails with CANCELLED and the session or job is
released. -/
def State.cancelOne (s : State) (x now : Nat) : State :=
  let ss := s.sess x
  match ss.queue.find? fun q => match q.body with
      | .cancel _ => true
      | _ => false with
  | none => s
  | some q =>
    let wait := s.promptInFlight x || (ss.cancelP && ss.rerun.isSome)
    if wait then s.modSess x fun y => { y with cancelP := true }
    else
      let s1 := ((s.dropStep x now).failBefore x q.seq .cancelled).setOut x q.seq fun q => doneOf q 7
      (s1.flushSession x now).release x

/-- What stands at the head of a session's queue and needs no step: CLOSE (R358), MIGRATE_OUT (R366). -/
def State.headOne (s : State) (x now : Nat) : State :=
  match (s.sess x).queue with
  | [] => s
  | q :: _ =>
    if q.out.isSome then s
    else match q.body with
      | .close _ => ((s.setOut x q.seq fun q => doneOf q 7).flushSession x now).release x
      | .migrateOut b =>
        if (s.sess x).confirmed then ((s.setOut x q.seq fun q => doneOf q 7).flushSession x now).release x
        else if (s.sess x).migration.isSome then s
        else (s.sendManifest x b.package b.tag).modSess x fun y => { y with migration := some (b.package, b.tag, now) }
      | _ => s

/-- A job whose outcome is written is released (R349). -/
def State.endedJob (s : State) (x now : Nat) : State := if (s.sess x).job.any (·.ended) then s.releaseEnded x now else s

/-- Action 4 for one session. -/
def State.controls (s : State) (x now : Nat) : State :=
  let s1 := ((s.endedJob x now).openDone x now).stops x now
  let s2 := if (s1.sess x).cancelling then s1.cancelOne x now else s1
  (((s2.failedMigration x now).headOne x now).takeManifest x).takeOver x now

/-! ### Actions 5 to 9 -/

/-- What the last bell left to free: context, table indexes, the floor of a turn whose first step has committed (R302, R359). -/
def State.dueFrees (s : State) : List (Nat × List Nat × Option Nat) :=
  (s.serve.sessions.filter fun e => !e.2.toFree.isEmpty || e.2.floorRaised.isSome).map fun e => (e.1, e.2.toFree, e.2.floorRaised)

def State.clearFrees (s : State) (due : List (Nat × List Nat × Option Nat)) : State :=
  due.foldl (fun (t : State) e => t.modSess e.1 fun y => { y with toFree := [], floorRaised := none }) s

/-- Action 5. -/
def State.action5 (s : State) (due : List (Nat × List Nat × Option Nat)) : State :=
  due.foldl (fun (t : State) e =>
    if (t.sess e.1).st = .free then t
    else
      let t1 := t.freeRolledBack e.1 e.2.1
      match e.2.2 with
      | some f => t1.freeBelowFloor e.1 f
      | none => t1) s

/-- Action 6 (R334, R360, R361): verified loads and trained images are mapped, drops unmapped, and images neither mapped nor bound are
freed. -/
def State.action6 (s : State) : State :=
  let ready := s.serve.adapterCmds.filter fun c => c.drop || c.image.isSome
  let s1 : State := { s with serve := { s.serve with adapterCmds := s.serve.adapterCmds.filter fun c => !(c.drop || c.image.isSome) } }
  let s2 := ready.foldl (fun (t : State) c =>
    let h := match c.image with
      | some i => tset t.serve.handles c.handle i
      | none => tdrop t.serve.handles c.handle
    ({ t with serve := { t.serve with handles := h } } : State).packageOutcome c.window c.seq c.cookie none c.handle) s1
  let s2 : State := { s2 with serve := { s2.serve with
    handles := s2.serve.trained.foldl (fun h e => tset h e.1 e.2) s2.serve.handles, trained := [] } }
  let keep := fun (a : AdapterRec) => decide (0 < a.bound) || (s2.serve.handles.any fun e => e.2 == a.id) ||
    (s2.serve.adapterCmds.any fun c => c.image == some a.id)
  let gone := (s2.serve.images.filter fun a => !keep a).flatMap (·.pages)
  ({ s2 with serve := { s2.serve with images := s2.serve.images.filter keep } } : State).dropRefs gone

/-- Patterns of the generation a switch brings in. -/
def State.switchPatterns (s : State) : List PatternRef := (s.pkg.gen.staged.map (·.patterns)).getD []

/-- A croft that is recast (R365, log 32): every logical slot waits for a full cast, after the casts, probes and stand-ins it has are given up;
the columns of its pending spares are marked when the casts close (R584). -/
def State.recastCroft (s : State) (n : Nat) : State :=
  let s1 := (s.croft n).moulds.foldl (fun (t : State) e => t.abandonCast n e.1) s
  s1.modCroft n fun c =>
    ({ (List.range 16).foldl (fun (a : Croft) k => match a.holding k with
      | some m => a.modMould m fun x => { x with
          castWaiting := true, castRestores := false, probe := none, standins := [], refPending := [], refReady := [], spareWaiting := [] }
      | none => a) c with service := some .outOfService } : Croft).clearSlots

/-- The recast begins (R365): each croft that a named die's pattern uses is recast, and the patterns of dies that the table does not name
are unloaded, one that is being loaded there included. -/
def State.beginRecast (s : State) : State :=
  let ps := s.switchPatterns
  let used := (ps.flatMap fun r => s.usedCrofts r.die r.image).eraseDups
  let s1 := used.foldl (fun (t : State) n => t.recastCroft n) s
  (List.range 16).foldl (fun (t : State) d =>
    if ps.any fun r => r.die == d then t else t.modDie d fun x => { x.dropPattern with lost := none, loading := none, loadDone := false }) s1

/-- Work of an older generation is left: a step in flight, or an accepted turn (R365). -/
def State.oldWork (s : State) (g : Nat) : Bool :=
  s.serve.steps.any (fun st => s.workGeneration st.context != g) ||
    s.serve.sessions.any fun e => e.2.queue.any fun q => q.out.isNone && q.generation != g && match q.body with
      | .prompt _ => true
      | .generate _ => true
      | .draft _ => true
      | _ => false

/-- Load the pattern of each named die (R365): the first load that fails names the switch's code. -/
def State.loadAll (s : State) : List PatternRef → State × Option Code
  | [] => (s, none)
  | r :: rest => match s.loadCheck r.die r.image r.base r.len4k with
    | some c => (s, some c)
    | none => (s.beginLoad r.die r.image true).loadAll rest

/-- Action 7 (R365). -/
def State.action7 (s : State) : State :=
  match s.pkg.gen.switch with
  | none => s
  | some w =>
    let ps := s.switchPatterns
    if s.lock.debugOpen ∧ (w.phase = .waiting ∨ w.phase = .casting) then
      s.endSwitch w (some .auth) fun g => if w.phase = .casting then { g with inService := none } else g
    else match w.phase with
    | .waiting =>
      if s.oldWork w.generation then s
      else s.beginRecast.modGen fun g => { g with switch := some { w with phase := .casting } }
    | .casting =>
      if s.pkg.gen.castPoison then s.endSwitch w (some .poison) fun g => { g with inService := none }
      else if (ps.flatMap fun r => s.usedCrofts r.die r.image).all fun n => (s.croft n).generation == w.generation && (s.croft n).wholeAt w.generation
      then
        let r := s.loadAll ps
        match r.2 with
        | some c => r.1.endSwitch w (some c) fun g => { g with inService := g.staged, staged := none, loadFailed := some c }
        | none => r.1.modGen fun g => { g with switch := some { w with phase := .loading, toLoad := ps.map (·.die) } }
      else s
    | .loading =>
      if w.toLoad.all fun d => (s.die d).loading.isNone then
        s.endSwitch w none fun g => { g with inService := g.staged, staged := none, loadFailed := none }
      else s
    | .loaded => s

/-- Action 8 (R350): a written BUDGET comes into force; every balance is refilled and held at its cap. -/
def Tenant.refill (t : Tenant) (bellNs : Nat) : Tenant :=
  let b := t.next.getD t.budget
  let cap : Int := 16 * (b.field 20 20 : Nat)
  let bal := if b.bit 63 ∧ t.budget.bit 63 = false then cap else t.balance
  let n := b.field 0 20
  if n = 0xFFFFF then { t with budget := b, next := none, balance := cap }
  else
    let num := n * 16 * bellNs + t.remainder
    { t with budget := b, next := none, balance := min cap (bal + (num / 1000000 : Nat)), remainder := num % 1000000 }

def State.action8 (s : State) : State :=
  { s with serve := { s.serve with
    tenants := tmap (fun _ => {}) (fun _ t => t.refill s.pkg.bellNs) s.serve.tenants } }

/-- Action 9 (R379, R380, R482): S for the round, then the casts it carries. -/
def State.action9 (s : State) (now : Nat) : State :=
  let t := s.tally
  let allow := if 0 ∈ s.pkg.hubFaulty then 0 else max 0 ((t.gross : Rat) - t.unpred - t.debt)
  ({ s with tally := { t with allow := allow } } : State).startCasts now

/-! ### After the actions -/

/-- Lanes that a step in flight occupies at this stage are not quenched: another session holds them by now (R220). DESIGN CHOICE, log 111. -/
def State.keepLanes (s : State) : State :=
  (List.range 16).foldl (fun (t : State) d =>
    if (t.die d).quenchLanes.isEmpty then t
    else t.modDie d fun x => { x with quenchLanes := x.quenchLanes.filter fun e =>
      !(t.serve.steps.any fun st => st.place == some (d, e.2) && st.lane == e.1) }) s

/-- SESS.STATE. -/
def State.sessState (s : State) (x : Nat) : Word :=
  let y := s.sess x
  let code := match y.st with
    | .free => 0 | .openS => 1 | .leaving => 2 | .job => 3 | .awaitingIn => 4
  Word.put 60 4 code ||| Word.put 56 4 y.window ||| Word.put 46 1 (b2n y.pub) ||| Word.put 45 1 (b2n y.kv8) |||
    Word.put 42 3 y.outRing ||| Word.put 40 2 y.cls ||| Word.put 24 12 y.tenant |||
    Word.put 16 4 (y.queue.filter fun q => q.out.isNone).length ||| Word.put 1 1 (b2n !y.held.isEmpty) |||
    Word.put 0 1 (b2n (s.stepOf x).isSome)

/-- The SESS block registers of an entry (R552), 0x100 to 0x140. -/
def State.sessRegs (s : State) (x : Nat) : List Word :=
  let y := s.sess x
  if y.st = .free then List.replicate 9 0
  else
    let bound := match y.turn with
      | some t => if t.image.isSome then t.adapter else 0xFFFF
      | none => 0xFFFF
    [s.sessState x, Word.put 32 32 y.tentative ||| Word.put 0 32 y.committed,
      Word.put 63 1 (b2n y.pending.isSome) ||| Word.put 0 32 (y.pending.getD 0),
      Word.put 32 32 y.generation ||| Word.put 0 16 bound, Word.put 0 32 y.floor, Word.put 0 32 y.capacity,
      BitVec.ofNat 64 ((y.turn.bind (·.deadline)).getD (2 ^ 64 - 1)),
      Word.put 63 1 (b2n (s.hasDirectory x)) ||| Word.put 0 24 y.rootPage, BitVec.ofNat 64 y.delivered]

/-- The page of an entry takes what has changed, with the bell's time (R553). -/
def State.snapshot (s : State) (now : Nat) (old : List Nat) : State :=
  (old ++ s.serve.sessions.map (·.1)).eraseDups.foldl (fun (t : State) x =>
    let new_ := t.sessRegs x
    let changed := (new_.zipIdx).any fun e => t.reg (.sess x) (0x100 + 8 * e.2) != e.1
    if changed then
      ((new_.zipIdx).foldl (fun (u : State) e => u.setReg (.sess x) (0x100 + 8 * e.2) e.1) t).setReg (.sess x) 0x148
        (if (t.sess x).st = .free then 0 else BitVec.ofNat 64 now)
    else t) s

/-- Over every context in use. -/
def State.eachSession (s : State) (f : State → Nat → State) : State := (s.serve.sessions.map (·.1)).foldl f s

/-- Outcomes held in hub SRAM go to the slots released since (R337, R339): those of released sessions first. -/
def State.writeHeld (s : State) (now : Nat) : State :=
  ((List.range 16).foldl (fun (t : State) w => t.flushOut now w) s).eachSession fun t x => t.flushHeld x now (t.sess x).held.length

/-- Device time reaches the bell, which opens a round of the period written to SYS.BELL_NS (R241). -/
def State.ringBell (s : State) (now : Nat) : State :=
  let s1 := (s.advanceTo now).allTransfers now
  { s1 with clock := { s1.clock with lastBell := now }, pkg := { s1.pkg with bellNs := (s1.reg .sys 0x118).field 0 14 } }

def State.scheduleBell (s : State) (now : Nat) : State := { s with clock := { s.clock with nextBell := now + s.pkg.bellNs } }

/-- Leakage of the round that opens enters the current tally window (R377). -/
def State.chargeLeak (s : State) : State := { s with tally := { s.tally with leakNj := s.tally.leakNj + s.leakPerRound } }

/-- The bell of device time `now`. -/
def State.bellAt (s : State) (b : BellIn) (now : Nat) : State :=
  let due := s.dueFrees
  let old := s.serve.sessions.map (·.1)
  let s0 := (((s.ringBell now).clearFrees due).bellMarks.diesAtBell now b.selfCheckFailed).packageAtBell b
  let s2 := ((s0.writeHeld now).action1 now).action2 b now
  let s3 := s2.eachSession fun t x => t.deadlineOf x now
  let s4 := s3.eachSession fun t x => t.controls x now
  let s8 := (s4.action5 due).action6.action7.action8
  let s10 := ((s8.chargeLeak).action9 now).admission now
  (((s10.keepLanes).snapshot now old).snapAttest now).scheduleBell now

/-- BELL (R349): the bells ring while the package serves, and while it enters dormancy or waits out a power-fail warning; on the way into
dormancy casts stop and converters end their current conversion (R401). -/
def execBell (b : BellIn) (s : State) : Host.Outcome State Fault Refusal :=
  if s.pkg.phase = .service ∨ s.pkg.phase = .entering ∨ s.pkg.phase = .powerFail then
    let t := if s.pkg.phase = .service then s else s.stopCasts
    .next ((if s.pkg.phase = .entering then { t with pkg := { t.pkg with halting := true } } else t).bellAt b s.clock.nextBell)
  else .next s

end Sys2Proof.Machine
end

