-- ==== Sys2Proof/Machine/Controls.lean ====
section
/-!
DEFINITION. Registers whose write does more than store its fields (R11): windows, package settings, tally, sensors, storage,
test multiplexers; and the write of any register.
-/
namespace Sys2Proof.Machine

/-! ### Intake windows (R335, R336, R348) -/

/-- The ring is in use: the response ring by queued, waiting or held outcomes, an output ring by a session of the window or by
records that wait for it. -/
def State.ringInUse (s : State) (w n : Nat) : Bool :=
  let x := s.win w
  if n = 0 then !x.queue.isEmpty || decide (0 < x.awaiting) || !x.heldOutcomes.isEmpty
  else (s.serve.sessions.any fun e => e.2.st != .free && e.2.window == w && e.2.outRing + 1 == n) || x.heldOut.any fun e => e.1 == n

/-- Offset of a ring's CFG and RELEASE registers. -/
def cfgOff (n : Nat) : Nat := if n = 0 then 0x110 else 0x140 + 8 * (n - 1)
def releaseOff (n : Nat) : Nat := if n = 0 then 0x118 else 0x180 + 8 * (n - 1)

/-- Write RESP_CFG or OUT_CFG_n (R335): an accepted write sets the produced and released counts to zero. -/
def State.writeCfg (s : State) (w n : Nat) (v : Word) : Written :=
  let cfg := fieldsWrite cfgFields 0 v
  let g : Ring := { cfg := cfg }
  if 10 < v.field 0 4 then s.refuse (.intake w) (cfgOff n) .length
  else if s.inPartition g.base (64 * g.size) = false then s.refuse (.intake w) (cfgOff n) .auth
  else if s.ringInUse w n then s.refuse (.intake w) (cfgOff n) .busy
  else ok (s.modWin w fun x => x.setRing n g)

def execRespCfg (w : WinId) (ring : Fin 9) (v : Word) (s : State) : Host.Outcome State Fault Refusal :=
  s.access (.respCfg w ring v) fun t => (t.writeCfg w.val ring.val v).1

/-- Decisions that waited for the response ring go on once slots are released (R330); what waits for an output ring is written at the
next bell (R337, R339). -/
def State.resumeRing (s : State) (w n : Nat) : State := if n = 0 then s.pump w else s

/-- Write RESP_RELEASE or OUT_RELEASE_n (R336, R551). -/
def State.writeRelease (s : State) (w n : Nat) (v : Word) : Written :=
  let g := (s.win w).ring n
  if g.produced + g.size < v.toNat then s.refuse (.intake w) (releaseOff n) .unfilled
  else if v.toNat < g.released then s.refuse (.intake w) (releaseOff n) .length
  else ok ((s.modWin w fun x => x.setRing n { x.ring n with released := v.toNat }).resumeRing w n)

def execRespRelease (w : WinId) (ring : Fin 9) (v : Word) (s : State) : Host.Outcome State Fault Refusal :=
  s.access (.respRelease w ring v) fun t => (t.writeRelease w.val ring.val v).1

/-- Write NEXT_SEQ (R331, R348). -/
def State.writeNextSeq (s : State) (w : Nat) (v : Word) : Written :=
  if (s.win w).decided ∧ (s.win w).spent = false then s.refuse (.intake w) 0x100 .busy
  else ok (s.modWin w fun x => { x with nextSeq := v.toNat, spent := false })

def execNextSeq (w : WinId) (v : Word) (s : State) : Host.Outcome State Fault Refusal :=
  s.access (.nextSeq w v) fun t => (t.writeNextSeq w.val v).1

/-! ### SYS -/

/-- Write SYS.ROLE (R22). -/
def State.writeRole (s : State) (v : Word) : Written :=
  if 4 < v.field 0 3 then s.refuse .sys 0x100 .format
  else if !s.serve.steps.isEmpty ∨ s.contextsInUse ∨ s.pkg.gen.switch.isSome then s.refuse .sys 0x100 .busy
  else ok { s with pkg := { s.pkg with rolePending := some (v.field 0 3) } }

def execSysRole (v : Word) (s : State) : Host.Outcome State Fault Refusal := s.access (.sysRole v) fun t => (t.writeRole v).1

/-- Write SYS.BELL_NS (R241). -/
def State.writeBellNs (s : State) (v : Word) : Written :=
  let p := v.field 0 14
  if p < 1000 ∨ 16000 < p then s.refuse .sys 0x118 .length
  else if !s.serve.steps.isEmpty then s.refuse .sys 0x118 .busy
  else if (List.range 16).any fun d => (s.die d).pattern.any fun i => decide (p < i.minBell) then s.refuse .sys 0x118 .format
  else s.storeReg .sys 0x118 v

def execBellNs (v : Word) (s : State) : Host.Outcome State Fault Refusal := s.access (.bellNs v) fun t => (t.writeBellNs v).1

/-- Write SYS.PART_SIZE (R558): kept in hub 0's mark cells for the next cold start or wake. -/
def State.writePartSize (s : State) (v : Word) : Written :=
  let n := v.field 0 4
  if n = 0 ∨ 8 < n then s.refuse .sys 0x120 .length
  else if s.pkg.role ≠ 0 then s.refuse .sys 0x120 .busy
  else s.storeReg .sys 0x120 v

def execPartSize (v : Word) (s : State) : Host.Outcome State Fault Refusal := s.access (.partSize v) fun t => (t.writePartSize v).1

/-- An entry of a probe pack in range (R492). -/
def packEntryOk (e : PackEntry) : Bool :=
  decide (e.castsMin ≤ e.castsMax) && decide (e.castsMax ≤ 10000) && decide (e.tempMin ≤ 105) && decide (e.tempMax ≤ 105) &&
    decide (e.rowMin ≤ 31) && decide (e.rowMax ≤ 31) && decide (1 ≤ e.witTol) && decide (e.witTol ≤ 65535) &&
    decide (1 ≤ e.refTol) && decide (e.refTol ≤ 65535)

/-- The checks of R494 in order, with the length that R493 asks at go before the region it gives; `i` is the image at the base. -/
def State.packFault (s : State) (base len4k : Nat) (i : PackImage) : Option Code :=
  let bytes := 4096 * len4k
  if s.pkg.packPending.isSome then some .busy
  else if len4k = 0 ∨ 577 < len4k then some .length
  else if s.checkRange base bytes ≠ none then some .auth
  else if bytes < packBytes i.entryCount then some .length
  else if signed s.pkg.rom.pack ['P', 'A', 'C', 'K'] i.region i.signature = false ∨ i.version < s.pkg.packVersion then some .auth
  else if i.format ≠ 1 ∨ i.dieRevision ≠ s.pkg.dieRevision ∨ i.reservedZero = false ∨ i.entryCount = 0 ∨ 4096 < i.entryCount ∨
      !(i.entries.all packEntryOk) then some .format
  else none

/-- The refusals that come before the pack is read. -/
def State.packUnread (s : State) (base len4k : Nat) : Bool :=
  s.pkg.packPending.isSome || decide (len4k = 0) || decide (577 < len4k) || s.checkRange base (4096 * len4k) != none

/-- An accepted pack is copied into the firmware area of each hub (R494), from 32 MiB on. DESIGN CHOICE, log 117. -/
def State.copyPack (s : State) (i : PackImage) : State := s.writeFirmware (2 ^ 25) (bits8 (i.region ++ i.signature))

/-- Write SYS.PACK_LOAD (R493, R494). -/
def State.writePackLoad (s : State) (v : Word) : Written :=
  if v.bit 0 ∧ v.bit 1 then s.refuse .sys 0x130 .format
  else if v.bit 0 then
    let r := s.readPack (v.field 12 36 * 4096)
    match s.packFault (v.field 12 36 * 4096) (v.field 48 16) r.2 with
    | some c => (if s.packUnread (v.field 12 36 * 4096) (v.field 48 16) then s else r.1).refuse .sys 0x130 c
    | none =>
      let t := (r.1.copyPack r.2).storeFields .sys 0x130 v
      ok { t with pkg := { t.pkg with
        packPending := some { version := r.2.version, entries := r.2.entries }, packVersion := r.2.version, packClear := false } }
  else
    let t := s.storeFields .sys 0x130 v
    ok (if v.bit 1 then { t with pkg := { t.pkg with packClear := true, packPending := none } } else t)

def execPackLoadGo (v : Word) (s : State) : Host.Outcome State Fault Refusal :=
  s.access (.packLoadGo v) fun t => (t.writePackLoad v).1
def execPackLoadClear (v : Word) (s : State) : Host.Outcome State Fault Refusal :=
  s.access (.packLoadClear v) fun t => (t.writePackLoad v).1

/-! ### Tenants and tally -/

/-- Write TENANT.BUDGET (R350, R511): in force from the next bell; the first enable after a start draws the tenant's key. -/
def State.writeBudget (s : State) (t : Nat) (v : Word) : Written :=
  let x := s.tenant t
  let w := fieldsWrite ((regFields (.tenant t) 0x100).getD []) (x.next.getD x.budget) v
  let s1 := if w.bit 63 ∧ x.keyed = false then s.renewKey (keyTenant t) else s
  ok (s1.modTenant t fun y => { y with next := some w, keyed := y.keyed || w.bit 63 })

def execTenantBudget (tenant : Fin 4096) (v : Word) (s : State) : Host.Outcome State Fault Refusal :=
  s.access (.tenantBudget tenant v) fun t => (t.writeBudget tenant.val v).1

/-- Write TALLY.CLASS_LIMIT (R382). -/
def State.writeClassLimit (s : State) (v : Word) : Written :=
  let l1 := v.field 0 8
  let l2 := v.field 8 8
  let l3 := v.field 16 8
  if 100 < l1 ∨ 100 < l2 ∨ 100 < l3 then s.refuse .tally 0x108 .length
  else if l1 < l2 ∨ l2 < l3 then s.refuse .tally 0x108 .format
  else
    let t := s.storeFields .tally 0x108 v
    ok { t with tally := { t.tally with limitsNext := some (l1, l2, l3) } }

def execClassLimit (v : Word) (s : State) : Host.Outcome State Fault Refusal := s.access (.classLimit v) fun t => (t.writeClassLimit v).1

/-- Write TALLY.DEBT_CLEAR (R554): acts after the next reconciliation. -/
def State.writeDebtClear (s : State) (v : Word) : Written :=
  ok (if v.bit 0 then { s with tally := { s.tally with debtClear := true } } else s)

def execDebtClear (v : Word) (s : State) : Host.Outcome State Fault Refusal := s.access (.debtClear v) fun t => (t.writeDebtClear v).1

/-- Write TALLY.CAP (R369). -/
def State.writeCap (s : State) (v : Word) : Written :=
  let c := v.field 0 16
  if c < 200 ∨ (1400 < c ∧ c ≠ 0xFFFF) then s.refuse .tally 0x100 .length else s.storeReg .tally 0x100 v

/-! ### Sensor converters (R390 to R396) -/

/-- The shadow table's first `n` entries: (input, ring). -/
def State.shadow (s : State) (c n : Nat) : List (Nat × Bool) :=
  (List.range n).map fun i =>
    let w := s.reg (.sense c) (0x100 + 8 * (i / 4))
    (w.field (16 * (i % 4)) 6, w.bit (16 * (i % 4) + 7))

/-- The watermark condition after a change of the ring, and its interrupt when it rises (R395, R559). -/
def State.noteWatermark (s : State) (c : Nat) : State :=
  let now := s.watermarkMet c
  let rose := now && !(s.conv c).watermark
  let t := s.modConv c fun x => { x with watermark := now }
  if rose then t.raiseIntr (0x2000 + c) else t

/-- A conversion has ended, or none is in progress: an applied table becomes active and the sequence goes on unless run is 0, in the
mode that low_power selects (R391, R396). -/
def State.startSequence (s : State) (c : Nat) : State :=
  let ctl := s.reg (.sense c) 0x010
  s.modConv c fun x =>
    let y := if x.applied then { x with active := s.shadow c (ctl.field 4 7), position := 0, applied := false } else x
    { y with stopped := !ctl.bit 0, lowPower := ctl.bit 1 }

/-- Write SENSE.CTL (R391, R396): apply waits for the end of the conversion in progress, and the shadow is copied then. -/
def State.writeSenseCtl (s : State) (c : Nat) (v : Word) : Written :=
  let n := v.field 4 7
  let table := s.shadow c n
  if n = 0 ∨ 64 < n then s.refuse (.sense c) 0x010 .length
  else if v.bit 2 = true ∧ !((List.range 32).all fun i => table.any fun e => e.1 == i) then s.refuse (.sense c) 0x010 .format
  else
    let t := s.storeFields (.sense c) 0x010 v
    let u := if v.bit 2 then t.modConv c (fun (x : Converter) => { x with applied := true }) else t
    ok (if (u.conv c).stopped = true ∧ (u.conv c).running.isNone then u.startSequence c else u)

def execSenseApply (conv : Fin 20) (v : Word) (s : State) : Host.Outcome State Fault Refusal :=
  s.access (.senseApply conv v) fun t => (t.writeSenseCtl conv.val v).1

/-- Write SEQ_n (R390). -/
def State.writeSeq (s : State) (c off : Nat) (v : Word) : Written :=
  if (List.range 4).any fun k => decide (47 < v.field (16 * k) 6) then s.refuse (.sense c) off .length
  else s.storeReg (.sense c) off v

/-- The converter takes the oldest urgent request when no urgent conversion runs (R393): it abandons the sequence conversion. -/
def Converter.takeUrgent (x : Converter) : Converter :=
  match x.running, x.urgent with
  | none, r :: rest => { x with running := some r, urgent := rest }
  | _, _ => x

/-- Write SENSE.URGENT (R392): at most four requests of software wait; every refused request is counted (R405). -/
def State.writeUrgent (s : State) (c : Nat) (v : Word) : Written :=
  let i := v.field 0 6
  if 47 < i then (s.bump (.sense c) 0x1B8 1).refuse (.sense c) 0x180 .length
  else if 4 ≤ ((s.conv c).urgent.filter fun e => !e.confirm).length then (s.bump (.sense c) 0x1B8 1).refuse (.sense c) 0x180 .busy
  else ok (s.modConv c fun x => ({ x with urgent := x.urgent ++ [{ input := i }] } : Converter).takeUrgent)

def execSenseUrgent (conv : Fin 20) (v : Word) (s : State) : Host.Outcome State Fault Refusal :=
  s.access (.senseUrgent conv v) fun t => (t.writeUrgent conv.val v).1

/-- Write SENSE.RING_CFG (R394). -/
def State.writeRingCfg (s : State) (c : Nat) (v : Word) : Written :=
  let l := v.field 28 4
  if 12 < l ∨ (8 * v.field 3 21) % (8 * 2 ^ (4 + l)) ≠ 0 then s.refuse (.sense c) 0x188 .length
  else ok (((s.storeFields (.sense c) 0x188 v).modConv c fun x => { x with ringWr := 0, ringRd := 0, ring := [] }).noteWatermark c)

def execRingCfg (conv : Fin 20) (v : Word) (s : State) : Host.Outcome State Fault Refusal :=
  s.access (.ringCfg conv v) fun t => (t.writeRingCfg conv.val v).1

/-- Write SENSE.RING_RD (R395). -/
def State.writeRingRd (s : State) (c : Nat) (v : Word) : Written :=
  if (s.conv c).ringWr < v.toNat then s.refuse (.sense c) 0x198 .unfilled
  else if v.toNat < (s.conv c).ringRd then s.refuse (.sense c) 0x198 .length
  else ok ((s.modConv c fun x => { x with ringRd := v.toNat }).noteWatermark c)

def execRingRd (conv : Fin 20) (v : Word) (s : State) : Host.Outcome State Fault Refusal :=
  s.access (.ringRd conv v) fun t => (t.writeRingRd conv.val v).1

/-! ### Storage -/

/-- Pool pages of the package, less declared staging regions (R449). -/
def State.poolPages (s : State) : Nat := sumOf ((List.range 8).map fun k => sumOf ((s.poolSpan k).map fun e => e.2 + 1 - e.1))

/-- Write COMMONS.POOL (R314): node_pages from the next bell. -/
def State.writePool (s : State) (v : Word) : Written :=
  let n := v.field 0 24
  if s.poolPages < 4 * n then s.refuse .commons 0x100 .length
  else if !s.store.nodes.isEmpty then s.refuse .commons 0x100 .busy
  else
    let t := s.storeFields .commons 0x100 v
    ok { t with store := { t.store with commonsNext := some n } }

def execCommonsPool (v : Word) (s : State) : Host.Outcome State Fault Refusal := s.access (.commonsPool v) fun t => (t.writePool v).1

/-- An accepted command, or an ingot that counts as named by one, names an address in pages `f` to `f + n` of a stack (R454, R526). -/
def State.regionNamed (s : State) (k f n : Nat) : Bool :=
  let lo := apertureAddr k (f * Config.pageBytes)
  let hi := apertureAddr k ((f + n) * Config.pageBytes)
  let hits := fun (e : Nat × Nat) => decide (e.1 < hi) && decide (lo < e.1 + max e.2 1)
  let journal := (List.range 16).flatMap fun w => (s.journalOf w).flatMap fun j => bodySpans j.2.1
  let ingots := (s.pkg.gen.inService.toList ++ s.pkg.gen.staged.toList).map fun r => (r.addr, r.len)
  (journal ++ ingots).any hits

/-- Why a write of STAGE_n is refused: LENGTH, AUTH, BUSY, STATE in this order (R453, R454). -/
def State.stageFault (s : State) (k n : Nat) (v : Word) : Option Code :=
  let first := v.field 0 21
  let pages := v.field 32 24
  let cur := tfind (s.stack k).staging n
  let valid := v.bit 63
  if (valid ∧ pages = 0) ∨ Config.poolEnd < first + pages then some .length
  else if valid ∧ (first < s.partPages ∨ (s.stack k).staging.any fun e =>
      e.1 != n && decide (first < e.2.1 + e.2.2) && decide (e.2.1 < first + pages)) then some .auth
  else if valid ∧ s.store.refs.any (fun e => stackOfPage e.1 == k && decide (first ≤ localPage e.1) && decide (localPage e.1 < first + pages))
    then some .busy
  else match cur with
    | some c => if valid then (if c = (first, pages) then none else some .state)
      else if s.regionNamed k c.1 c.2 then some .busy else none
    | none => none

/-- Write STACK.STAGE_n (R453, R454): a declared region's pages are blanked before it is usable, a withdrawn region's pages go back
to the pool unclean. -/
def State.writeStage (s : State) (k n : Nat) (v : Word) : Written :=
  match s.stageFault k n v with
  | some c => s.refuse (.stack k) (0x100 + 8 * n) c
  | none =>
    let t := s.storeFields (.stack k) (0x100 + 8 * n) v
    let region := (v.field 0 21, v.field 32 24)
    match tfind (s.stack k).staging n, v.bit 63 with
    | none, true => ok (t.modStack k fun x => { x with
        staging := tset x.staging n region, unclean := x.unclean ++ [(region.1, region.1 + region.2 - 1)] })
    | some c, false => ok (t.modStack k fun x => { x with
        staging := tdrop x.staging n, stageReady := x.stageReady.filter fun i => i != n
        unclean := x.unclean ++ [(c.1, c.1 + c.2 - 1)] })
    | _, _ => ok t

def execStackStage (stack : StackId) (n : Fin 4) (v : Word) (s : State) : Host.Outcome State Fault Refusal :=
  s.access (.stackStage stack n v) fun t => (t.writeStage stack.val n.val v).1

/-- Write STACK.INJECT (R472): go flips the low bit of data symbols 0 to n − 1 of the stored line. -/
def State.writeInject (s : State) (k : Nat) (v : Word) : Written :=
  let n := v.field 0 4
  let addr := v.field 6 42 * 64
  if n = 0 ∨ 8 < n then s.refuse (.stack k) 0x120 .length
  else match target addr with
    | .aperture j b =>
      if j ≠ k ∨ s.apertureOk j b = false then s.refuse (.stack k) 0x120 .auth
      else if v.bit 4 = false then ok s
      else
        let l := (k * Config.stackBytes + b) / 64
        let c := s.lineCode l
        ok (s.setLineCode l { c with flips := c.flips ^^^ BitVec.ofNat 8 (2 ^ n - 1) })
    | _ => s.refuse (.stack k) 0x120 .auth

def execStackInject (stack : StackId) (v : Word) (s : State) : Host.Outcome State Fault Refusal :=
  s.access (.stackInject stack v) fun t => (t.writeInject stack.val v).1

/-! ### Kyrok, test multiplexers, error records -/

/-- Write KYROK.RREAD_TO (R448). -/
def State.writeRreadTo (s : State) (p : Nat) (v : Word) : Written :=
  if v.field 0 20 = 0 then s.refuse (.kyrok p) 0x108 .length else s.storeReg (.kyrok p) 0x108 v

/-- Digital selection codes (R576). -/
def digitalCode (c : Nat) : Bool :=
  (decide (1 ≤ c) && decide (c ≤ 8)) || (decide (0x10 ≤ c) && decide (c < 0x50) && decide (c % 16 ≤ 7)) || decide (0x80 ≤ c)

def tmuxOff (pin : Nat) : Nat := if pin < 8 then 0x100 + 8 * pin else 0x140 + 8 * (pin - 8)

/-- Write TMUX.DSEL_i or ASEL_j (R543, R576, R578); pins 8 and 9 are analogue. -/
def State.writeTmux (s : State) (pin : Nat) (v : Word) : Written :=
  let code := v.field 0 8
  let other := s.reg .tmux (tmuxOff (if pin = 8 then 9 else 8))
  let scope := s.lock.debugScope.testBit (if pin < 8 then 0 else 1)
  if v.bit 63 = false then s.storeReg .tmux (tmuxOff pin) v
  else if s.lock.debugOpen = false ∨ scope = false then s.refuse .tmux (tmuxOff pin) .auth
  else if pin < 8 ∧ digitalCode code = false then s.refuse .tmux (tmuxOff pin) .format
  else if 8 ≤ pin ∧ other.bit 63 = true ∧ other.field 4 4 = v.field 4 4 ∧ other.field 0 8 ≠ code then
    s.refuse .tmux (tmuxOff pin) .busy
  else s.storeReg .tmux (tmuxOff pin) v

def execTmuxSelect (pin : Fin 10) (v : Word) (s : State) : Host.Outcome State Fault Refusal :=
  s.access (.tmuxSelect pin v) fun t => (t.writeTmux pin.val v).1

/-- Write ERR_STATUS (R547). -/
def State.writeErrStatus (s : State) (p : Page) (v : Word) : Written := ok (if v.bit 63 then s.clearError p else s)

def execErrStatusClear (page : Nat) (v : Word) (s : State) : Host.Outcome State Fault Refusal :=
  s.access (.errStatusClear page v) fun t => match target page with
    | .reg p _ => (t.writeErrStatus p v).1
    | _ => t

end Sys2Proof.Machine
end

