-- ==== Sys2Proof/Machine/Kyrok.lean ====
section
/-!
DEFINITION. Kyrok ports (R428 to R444): flits, acknowledgement and replay, lanes, forwarding, message checks and barriers.
-/
namespace Sys2Proof.Machine

/-! ### Receiving -/

/-- Symbols in error of a flit's two codewords (R430): bytes 0 to 127 and 128 to 255. -/
def errorsIn (f : FlitIn) (second : Bool) : List (Fin 256) := f.errors.eraseDups.filter fun b => decide (128 ≤ b.val) == second

/-- What the decoder makes of a flit (R431): one symbol in error per codeword is corrected, two are detected, and more are either detected
or miscorrected into another flit, which the spec leaves open: a free value. DESIGN CHOICE, log 99. -/
def decodeFlit (f : FlitIn) (draw : Nat) : Option Flit :=
  let read := fun (h : BitVec 8) (p : List (BitVec 8)) => ({ vl := h.toNat.testBit 7, kind := h.toNat / 16 % 8, payload := p } : Flit)
  let a := (errorsIn f false).length
  let b := (errorsIn f true).length
  if a = 2 ∨ b = 2 then none
  else if a ≤ 1 ∧ b ≤ 1 then some (read f.header f.payload)
  else (Config.miscorrectedFlit draw).map fun e => read e.1 (bits8 (padded 249 (nums e.2)))

/-- The lanes whose single errors the receiver corrects and counts (R431). -/
def correctedLanes (f : FlitIn) (x : Port) : List Nat :=
  if (errorsIn f false).length ≤ 1 ∧ (errorsIn f true).length ≤ 1 then f.errors.eraseDups.map fun b => x.laneOf b.val else []

/-- KYROK_FLIT_RECEIVE (R431 to R433): single errors are corrected and counted by lane; a flit that cannot be corrected is discarded, and
every later one until the replay. A flit of a message waits in the port's inbox, from which each VL is put together apart; a CTRL flit that
falls due is sent. -/
def execKyrokFlitReceive (f : FlitIn) (s : State) : Host.Outcome State Fault Refusal :=
  let p := f.port.val
  let x := s.port p
  if x.alive = false ∨ (x.discarding = true ∧ f.replay = false) then .next s
  else match decodeFlit f s.fresh with
    | none => .next (s.tick.modPort p fun y => { y with discarding := true, nakDue := true })
    | some g =>
      let lanes := correctedLanes f x
      let s1 := (s.tick.bump (.kyrok p) 0x120 lanes.length).modPort p fun y => { y with
        discarding := false
        laneCorrected := lanes.foldl (fun t l => tput (fun _ => 0) t l (tget (fun _ => 0) t l + 1)) y.laneCorrected }
      if g.kind = 0 ∨ 5 ≤ g.kind then .next s1
      else .next (s1.modPort p fun y => Port.pump s.clock.time { y with
        received := y.received + 1, unacked := y.unacked + 1, waitSince := y.waitSince.or (some s.clock.time), inbox := y.inbox ++ [g]
        owedVl0 := y.owedVl0 + b2n !g.vl, owedVl1 := y.owedVl1 + b2n g.vl })

/-- The fields of a CTRL flit (R430): flits received in order, NAK, credits; and whether its two copies agree (R431). -/
def CtrlFlit.field (f : CtrlFlit) (o n : Nat) : Nat := fieldAt (nums f.bytes) (o - 1) n
def CtrlFlit.copiesAgree (f : CtrlFlit) : Bool := f.bytes.length == 16 && f.bytes.take 8 == f.bytes.drop 8

/-- KYROK_CTRL_FLIT (R430 to R434): the count acknowledges kept flits and credits come back; with NAK every flit that is not counted is
sent again. A flit whose copies differ is ignored, and every flit is discarded while a replay is awaited. -/
def execKyrokCtrlFlit (f : CtrlFlit) (s : State) : Host.Outcome State Fault Refusal :=
  let p := f.port.val
  let x := s.port p
  if x.alive = false ∨ x.discarding = true ∨ CtrlFlit.copiesAgree f = false then .next s
  else
    let step := (CtrlFlit.field f 1 4 + 2 ^ 32 - x.acked % 2 ^ 32) % 2 ^ 32
    let acked := if x.acked + step ≤ x.sent then x.acked + step else x.acked
    let y := { x with
      acked := acked, kept := x.kept.filter fun e => decide (acked ≤ e.2)
      creditsVl0 := min 224 (x.creditsVl0 + CtrlFlit.field f 6 2), creditsVl1 := min 32 (x.creditsVl1 + CtrlFlit.field f 8 1) }
    let s1 := s.modPort p fun _ => Port.pump s.clock.time y
    .next (if CtrlFlit.field f 5 1 % 2 = 1 ∧ y.kept.isEmpty = false then s1.bump (.kyrok p) 0x128 1 else s1)

/-- CTRL_FLIT_SEND (R432): a CTRL flit that is due is sent, with the counts and credits that wait, and NAK when one is due. -/
def execCtrlFlitSend (port : PortId) (s : State) : Host.Outcome State Fault Refusal :=
  let x := s.port port.val
  if x.alive = true ∧ x.ctrlDue s.clock.time = true then .next (s.modPort port.val fun y => y.sendCtrl)
  else .next s

/-! ### Lanes and training -/

/-- LANE_RETIRE (R428, R429): the retirement is recorded, the port retrains at the smaller width and replays what was not acknowledged;
with fewer than six lanes it is out of service. -/
def execLaneRetire (port : PortId) (lane : Fin 8) (s : State) : Host.Outcome State Fault Refusal :=
  let p := port.val
  let x := s.port p
  if lane.val ∉ x.lanes then .next s
  else
    let lanes := x.lanes.filter fun l => l != lane.val
    let key := 8 * p + lane.val
    let s1 : State := { s with links := { s.links with
      laneRetirements := tput (fun _ => 0) s.links.laneRetirements key (tget (fun _ => 0) s.links.laneRetirements key + 1) } }
    let s2 := s1.modPort p fun y => { y with
      lanes := lanes, retired := y.retired ++ [lane.val], discarding := false, nakDue := false
      state := if lanes.length < 6 then 0 else y.state, outOfService := decide (lanes.length < 6) }
    .next (if x.kept.isEmpty ∨ lanes.length < 6 then s2 else s2.bump (.kyrok p) 0x128 1)

/-- KYROK_PORT_TRAINED (R429, R443): lanes that trained come into service, but none that has been retired twice; the port carries
only join messages until this package and the far one are members. `lanes` has a bit for each lane that trained. -/
def execKyrokPortTrained (port : PortId) (lanes : Nat) (peerPackage : Fin 256) (peerPort : PortId) (s : State) :
    Host.Outcome State Fault Refusal :=
  if s.answers = false then .next s
  else
    let p := port.val
    let retirements := fun (l : Nat) => tget (fun _ => 0) s.links.laneRetirements (8 * p + l)
    let up := (List.range 8).filter fun l => lanes.testBit l && decide (retirements l < 2)
    let s1 := s.modPort p fun _ => {
      state := if up.length < 6 then 0 else 2, lanes := up
      retired := (List.range 8).filter fun l => decide (0 < retirements l) && !decide (l ∈ up)
      peerPort := peerPort.val, peerPackage := peerPackage.val, outOfService := decide (up.length < 6)
      startFailed := decide (up.length < 6) }
    .next s1.settlePorts

/-! ### Messages -/

/-- The first message of the outbox to a destination on a VL leaves it. -/
def dropMsg (dest : Nat) (vl : Bool) : List OutMsg → List OutMsg
  | [] => []
  | m :: l => if m.destination = dest ∧ typeVl1 m.type = vl then l else m :: dropMsg dest vl l

/-- The flits of the message that has come first on a VL, through its last (R433). -/
def throughEnd : List Flit → Option (List Flit)
  | [] => none
  | f :: l => if f.kind = 3 ∨ f.kind = 4 then some [f] else (throughEnd l).map (f :: ·)
def Port.firstMessage (x : Port) (vl : Bool) : Option (List Flit) := throughEnd (x.inbox.filter fun f => f.vl == vl)

/-- The inbox without the first `n` flits of a VL. -/
def dropFlits (vl : Bool) : Nat → List Flit → List Flit
  | 0, l => l
  | _ + 1, [] => []
  | n + 1, f :: l => if f.vl = vl then dropFlits vl n l else f :: dropFlits vl (n + 1) l

/-- The bytes of a message (R430, R435): what its flits carry, cut to its header and its length. -/
def flitBytes (l : List Flit) : List Nat := l.flatMap fun f => nums f.payload
def messageBytes (l : List Flit) : List Nat := (flitBytes l).take (64 + fieldAt (flitBytes l) 2 3)

/-- A message whose length runs past its last flit, and a VL1 message longer than one flit (R435). -/
def badLength (l : List Flit) (vl : Bool) : Bool :=
  decide (249 * l.length < 64 + fieldAt (flitBytes l) 2 3) || (vl && decide (1 < l.length))

/-- A discard under AUTH (R442, R443). -/
def State.authDiscard (s : State) (p src : Nat) : State := (s.bump (.kyrok p) 0x110 1).logError (.kyrok p) .auth src 8 src

/-- The message leaves a port's inbox. -/
def State.takeMessage (s : State) (p : Nat) (vl : Bool) (l : List Flit) : State :=
  s.modPort p fun y => { y with inbox := dropFlits vl l.length y.inbox }

/-- KYROK_FORWARD (R430, R435, R437, R443, R557): a message that this package originates is encrypted and leaves. One that has arrived for
another package goes on as it is, flit by flit, by its entry's primary port, or the alternate while the primary is out of service; with
neither it is discarded and counted, and one with a wrong length is discarded with LENGTH. At a port that has not joined, only join messages
pass. A message for this package stays for KYROK_AUTH_DISCARD. -/
def execKyrokForward (port : PortId) (originated : Bool) (destination : Fin 256) (vl : Bool) (s : State) : Host.Outcome State Fault Refusal :=
  if originated then
    match s.links.outbox.find? fun m => m.destination == destination.val && typeVl1 m.type == vl with
    | none => .next s
    | some m => .next (({ s with links := { s.links with outbox := dropMsg destination.val vl s.links.outbox } } : State).depart m)
  else
    let p := port.val
    match (s.port p).firstMessage vl with
    | none => .next s
    | some l =>
      let b := flitBytes l
      let d := fieldAt b 6 1
      if d = s.ownNumber then .next s
      else
        let t := s.takeMessage p vl l
        if badLength l vl then .next (t.logError (.kyrok p) .length 0 0 0)
        else if (s.port p).state = 2 ∧ joinType (fieldAt b 0 1) = false then .next (t.authDiscard p (fieldAt b 7 1))
        else match s.routeFor (joinType (fieldAt b 0 1)) (s.reg (.kyrok p) (0x400 + 8 * (d / 4))) d with
          | some q => .next (t.modPort q (Port.push s.clock.time l))
          | none => .next (t.bump (.kyrok p) 0x130 1)

/-- The last counter accepted from a source on a VL under an epoch. -/
def lastAcceptedCounter (l : List (Nat × Bool × Nat × Nat)) (src : Nat) (vl : Bool) (e : Nat) : Nat :=
  ((l.find? fun c => c.1 == src && c.2.1 == vl && c.2.2.1 == e).map (·.2.2.2)).getD 0

/-- The key epochs a member accepts, with the domain key of each: the present one, and the one before it for 10 ms (R444). -/
def Lockhouse.epochs (l : Lockhouse) (now : Nat) : List (Nat × Nat) :=
  (l.keyEpoch, l.domainKey) :: (match l.oldEpoch with
    | some e => if now < l.epochAt + 10000000 then [(e, l.oldKey)] else []
    | none => [])

/-- The epoch under which a message's tag holds, with its domain key, if any (R442). -/
def Lockhouse.messageEpoch (l : Lockhouse) (now : Nat) (bytes : List Nat) : Option (Nat × Nat) :=
  (l.epochs now).find? fun e => messageTag (pairKey e.2 e.1 (fieldAt bytes 7 1) (fieldAt bytes 6 1)) bytes == slice bytes 48 16

/-- A message is accepted: what it says, decrypted, is what the port has opened last. -/
def State.openMessage (s : State) (p : Nat) (b : List Nat) : State := { s with links := { s.links with opened := some (p, b) } }

/-- KYROK_AUTH_DISCARD (R435, R441 to R444): a message for this package. One with a wrong length is discarded with LENGTH, one whose flag names
another VL than its flits with FORMAT (DESIGN CHOICE, log 100). One whose tag holds under no accepted epoch, whose counter is not above the last,
or that is no join message at a port that has not joined, is discarded, counted and logged with AUTH. Any other is accepted: its counter is
kept, and its body and payload are decrypted; a join message is in clear. -/
def execKyrokAuthDiscard (port : PortId) (vl : Bool) (s : State) : Host.Outcome State Fault Refusal :=
  let p := port.val
  match (s.port p).firstMessage vl with
  | none => .next s
  | some l =>
    let b := messageBytes l
    let src := fieldAt b 7 1
    let counter := fieldAt b 8 8
    if fieldAt b 6 1 ≠ s.ownNumber then .next s
    else
      let t := s.takeMessage p vl l
      if badLength l vl then .next (t.logError (.kyrok p) .length 0 0 0)
      else if (fieldAt b 1 1).testBit 0 ≠ vl then .next (t.logError (.kyrok p) .format 0 0 0)
      else if joinType (fieldAt b 0 1) then .next (t.openMessage p b)
      else match s.lock.messageEpoch s.clock.time b with
        | none => .next (t.authDiscard p src)
        | some e =>
          if counter ≤ lastAcceptedCounter s.links.lastCounter src vl e.1 ∨ (s.port p).state = 2 then .next (t.authDiscard p src)
          else
            let rest := s.links.lastCounter.filter fun c => !(c.1 == src && c.2.1 == vl && c.2.2.1 == e.1)
            let u : State := { t with links := { t.links with lastCounter := rest ++ [(src, vl, e.1, counter)] } }
            .next (u.openMessage p (unsealMessage (pairKey e.2 e.1 src (fieldAt b 6 1)) b))

/-- BARRIER (R435, R439): an arrival or a release reaches the package, which holds it under its number and source. -/
def execKyrokBarrier (number : Nat) (release : Bool) (source : Fin 256) (s : State) : Host.Outcome State Fault Refusal :=
  let e := (number, source.val, release)
  if e ∈ s.links.kyrokBarriers then .next s
  else .next { s with links := { s.links with kyrokBarriers := s.links.kyrokBarriers ++ [e] } }

end Sys2Proof.Machine
end

