-- ==== Sys2Proof/Machine/Leases.lean ====
section
/-!
DEFINITION. Leases (R258 to R260, R266, R468, R484 to R486): one set of rules for slices, attention engines, DMA channels and locks.
-/
namespace Sys2Proof.Machine

/-! ### A lease -/

def State.leaseOf (s : State) : Leased → Lease
  | .slice d k => (s.die d.val).lease k.val
  | .engine h e => ((s.hub h.val).engine e.val).lease
  | .channel h c => tget (fun _ => {}) (s.hub h.val).dmaLeases c
  | .tableLock h => (s.hub h.val).lockLease
  | .commonsLock => s.store.commonsLease

def State.modLeaseOf (s : State) (r : Leased) (f : Lease → Lease) : State :=
  match r with
  | .slice d k => s.modDie d.val fun x => x.modLease k.val f
  | .engine h e => s.modHub h.val fun x => x.modEngine e.val fun y => { y with lease := f y.lease }
  | .channel h c => s.modHub h.val fun x => { x with dmaLeases := tmod (fun _ => {}) x.dmaLeases c f }
  | .tableLock h => s.modHub h.val fun x => { x with lockLease := f x.lockLease }
  | .commonsLock => { s with store := { s.store with commonsLease := f s.store.commonsLease } }

/-- The clock of a resource's grantor: the reeve's, or the hub scheduler's (R484). -/
def State.grantorTime (s : State) : Leased → Nat
  | .slice d _ => s.reeveTime d.val
  | .engine h _ => s.hubTime h.val
  | .channel h _ => s.hubTime h.val
  | .tableLock h => s.hubTime h.val
  | .commonsLock => s.hubTime 0

/-- Term of a lease in µs (R258, R484): 1 to 65,535, and 1 to 1,000 for a lock. -/
def termOk (r : Leased) (t : Nat) : Bool :=
  decide (1 ≤ t) && decide (t ≤ match r with
    | .tableLock _ => 1000
    | .commonsLock => 1000
    | _ => 65535)

/-- The grantor answers: with the epoch, or with a code. -/
def State.answerLease (s : State) (r : Leased) (a : Reply) : State :=
  match r with
  | .slice d _ => s.reply d.val a
  | .engine h _ => s.modHub h.val fun x => { x with grant := a }
  | .channel h _ => s.modHub h.val fun x => { x with grant := a }
  | .tableLock h => s.modHub h.val fun x => { x with grant := a }
  | .commonsLock => s.modHub 0 fun x => { x with grant := a }

/-- A refusal; one of an engine's lease is entered in ATTN.ERR_STATUS (R266, R277), at the engine's first slot (log 42). -/
def State.refuseLease (s : State) (r : Leased) (c : Code) : State :=
  let t := match r with
    | .engine h e => s.attnError h.val e.val 0 c
    | _ => s
  t.answerLease r { code := some c }

/-- Messages of the footpath: a request or a renewal and its answer, or a release (R256); control cores reach their scheduler without
it. -/
def State.leaseTraffic (s : State) (r : Leased) (n : Nat) : State :=
  match r with
  | .slice d _ => s.bump (.foot d.val) 0x108 n
  | _ => s

/-- A lease ends, whatever the cause, and what its holder leaves behind is settled (R259, R485). -/
def State.endLease (s : State) (r : Leased) : State :=
  if (s.leaseOf r).held = false then s
  else match r with
    | .engine h e => s.endEngine h.val e.val
    | _ => s.modLeaseOf r Lease.finish

/-- A lease ends by expiry or revocation, which is a fault of its holder (R484, R485). -/
def State.endFaulty (s : State) (r : Leased) : State :=
  match r with
  | .tableLock h => (s.endLease r).modHub h.val fun x => { x with lockFault := x.lockFault || (s.leaseOf r).held }
  | _ => s.endLease r

/-- The new holder of a page-table lock whose last holder failed rebuilds the tentative entries of the hub's tables from the committed length
(R301, R485): what only the faulty holder had entered is freed at the next bell, with the pages of rolled back positions (R302). -/
def State.rebuildTables (s : State) (r : Leased) : State :=
  match r with
  | .tableLock h =>
    if (s.hub h.val).lockFault = false then s
    else
      let mine := (s.serve.sessions.filter fun e => e.2.st == .openS && s.ownerHub e.1 == h.val).map (·.1)
      (mine.foldl (fun (t : State) x => t.modSess x fun y => { y with
        tentative := if (s.stepOf x).isSome then y.tentative else y.committed
        toFree := y.toFree ++ (y.table.map (·.1)).filter fun i => !decide (i ∈ y.toFree) }) s).modHub h.val fun x => { x with lockFault := false }
  | _ => s

/-! ### Commands -/

/-- LEASE_REQUEST (R258): a free resource is granted with its current epoch, a held one is refused with BUSY. A term out of range is refused
with LENGTH, in a renewal too. DESIGN CHOICE, log 118: the spec gives the range and no code. -/
def execLeaseRequest (resource : Leased) (holder : Holder) (termUs : Nat) (s : State) : Host.Outcome State Fault Refusal :=
  let l := s.leaseOf resource
  let s0 := s.leaseTraffic resource 2
  if termOk resource termUs = false then .next (s0.refuseLease resource .length)
  else if l.held then .next (s0.refuseLease resource .busy)
  else .next (((s0.rebuildTables resource).modLeaseOf resource fun k =>
    { k with held := true, holder := holder, ends := s.grantorTime resource + 1000 * termUs }).answerLease resource
      { data := leBytes 4 l.epoch.toNat })

/-- LEASE_RENEWAL (R258): before the term ends the holder keeps its epoch and gets a new term; anyone else learns that the
lease is not theirs by EPOCH (R486). -/
def execLeaseRenewal (resource : Leased) (holder : Holder) (termUs : Nat) (s : State) : Host.Outcome State Fault Refusal :=
  let l := s.leaseOf resource
  let s0 := s.leaseTraffic resource 2
  if termOk resource termUs = false then .next (s0.refuseLease resource .length)
  else if l.held = true ∧ l.holder = holder ∧ s.grantorTime resource < l.ends then
    .next ((s0.modLeaseOf resource fun k => { k with ends := s.grantorTime resource + 1000 * termUs }).answerLease resource
      { data := leBytes 4 l.epoch.toNat })
  else .next (s0.refuseLease resource .epoch)

/-- LEASE_RELEASE (R259): the holder's release ends the lease. -/
def execLeaseRelease (resource : Leased) (holder : Holder) (s : State) : Host.Outcome State Fault Refusal :=
  let l := s.leaseOf resource
  let s0 := s.leaseTraffic resource 1
  if l.held = true ∧ l.holder = holder then .next (s0.endLease resource) else .next (s0.refuseLease resource .epoch)

/-- LEASE_EXPIRY (R259): a term that has ended without renewal ends the lease. -/
def execLeaseExpiry (resource : Leased) (s : State) : Host.Outcome State Fault Refusal :=
  let l := s.leaseOf resource
  if l.held = true ∧ l.ends ≤ s.grantorTime resource then .next (s.endFaulty resource) else .next s

/-- A DMA channel is restarted, by whoever holds it, under its next lease epoch (R468). -/
def State.restartChannel (s : State) (h : HubId) (c : Nat) : State :=
  s.modLeaseOf (.channel h c) fun l => { l with epoch := l.epoch + 1 }

/-- The resources of a hub that a control core holds (R484). -/
def State.leasesOf (s : State) (h : HubId) (core : Fin 16) : List Leased :=
  let x := s.hub h.val
  let all : List Leased := (List.finRange 64).map (Leased.engine h) ++ x.dmaLeases.map (fun e => Leased.channel h e.1) ++
    [Leased.tableLock h] ++ (if h.val = 0 then [Leased.commonsLock] else [])
  all.filter fun r => (s.leaseOf r).held && (s.leaseOf r).holder == .core core

/-- A halted core's leases are revoked (R259, R266, R484, R485), and with its channels' leases the slice leases they hold. -/
def State.haltCore (s : State) (h : HubId) (core : Fin 16) : State :=
  let mine := s.leasesOf h core
  let channels := mine.filterMap fun r => match r with
    | .channel _ c => some c
    | _ => none
  let s1 := mine.foldl (fun (t : State) r => t.endFaulty r) s
  (s1.revokeDma h.val (some channels)).modHub h.val fun x => { x with
    coresHalted := if core.val ∈ x.coresHalted then x.coresHalted else x.coresHalted ++ [core.val] }

end Sys2Proof.Machine
end

