-- ==== Sys2Proof/Machine/Power.lean ====
section
/-!
DEFINITION. Power: dormancy (R401 to R404), mark cells (R348, R566, R567), the loss of state when the package stops (R403, R564,
R568, R582, R586), starts (R474, R475, R517 to R520, R569), service states (R505, R506) and the beginning of a warm reset (R570).
-/
namespace Sys2Proof.Machine

/-! ### Mark cells -/

/-- Every hub writes its mark cells and sets them valid (R348, R566). -/
def State.writeMarks (s : State) : State :=
  { s with serve := { s.serve with marks := (List.range 4).foldl (fun t h =>
    tput (fun _ => {}) t h {
      written := true, valid := true
      seqs := (List.range 4).foldl (fun l i => tset l (4 * h + i) (s.win (4 * h + i)).accepted) [] }) s.serve.marks } }

/-- A window as a start finds it in its hub's mark cells (R331, R348). -/
def Marks.window (m : Marks) (w : Nat) : Window :=
  let seq := (tfind m.seqs w).getD none
  { accepted := seq, lastAccepted := seq.getD 0, markValid := m.valid, markNone := m.written && seq.isNone
    spent := seq == some (2 ^ 64 - 1)
    nextSeq := if m.valid then (match seq with | some q => min (q + 1) (2 ^ 64 - 1) | none => 0) else 0 }

/-! ### What the package keeps without power -/

/-- The die record area (R202). -/
def Die.dark (x : Die) : Die :=
  { padMap := x.padMap, granMap := x.granMap, mapLocked := x.mapLocked || !x.padMap.isEmpty || !x.granMap.isEmpty
    fieldMapped := x.fieldMapped, testDate := x.testDate, testRows := x.testRows }

/-- Repair records of a stack (R473, R474). -/
def StackSt.dark (x : StackSt) : StackSt :=
  { repair := x.repair, repairUsed := x.repairUsed, repairLeft := x.repairLeft, rowsRetired := x.rowsRetired, withheld := x.withheld }

/-- The package without clocks (R403, R564, R568, R582, R586): the array layer, records, fuses, mark cells and lane records are kept,
everything else is lost. The store epoch, which each start increments (R320), is kept as well. A burn that power failed in left the old setting or the new one (R539, log 35). -/
def State.dark (s : State) (ph : Phase) : State :=
  { pending := s.pending
    fresh := s.fresh + b2n s.lock.burn.isSome
    regs := tput regReset [] (Page.sys.base + 0x120) (s.reg .sys 0x120)
    pkg := {
      phase := ph, dieRevision := s.pkg.dieRevision, gradeES := s.pkg.gradeES, rom := s.pkg.rom, timeBase := s.pkg.timeBase, partGib := s.pkg.partGib
      rstLow := s.pkg.rstLow, sleepAckLow := s.pkg.sleepAckLow, pwrreqLow := s.pkg.pwrreqLow, thermtripLow := s.pkg.thermtripLow
      wakeLow := s.pkg.wakeLow, pcieEndpoint := s.pkg.pcieEndpoint }
    dies := tmap (fun _ => {}) (fun _ x => x.dark) s.dies
    crofts := tmap (fun _ => {}) (fun n c => c.dark n) s.crofts
    serve := { marks := s.serve.marks }
    store := { storeEpoch := s.store.storeEpoch }
    hbm := { units := tmap (fun _ => {}) (fun _ x => x.dark) s.hbm.units }
    links := { laneRetirements := s.links.laneRetirements }
    lock := {
      fuses := (match s.lock.burn with
        | some b => if Config.burnTook s.fresh then s.lock.fuses.burn b else s.lock.fuses
        | none => s.lock.fuses)
      draws := s.lock.draws, keyDraws := s.lock.keyDraws } }

/-- Commands that no window has decided are dropped (R585). -/
def State.dropUndecided (s : State) : State :=
  (List.range 16).foldl (fun (t : State) w => t.modWin w fun x => { x with queue := [] }) s

/-! ### Dormancy -/

/-- Why entry to dormancy is refused (R401). -/
def State.dormantBusy (s : State) : Bool :=
  s.contextsInUse || ((List.range 16).any fun d => (s.die d).loading.isSome || (s.die d).unloadAsked) || s.pkg.rolePending.isSome ||
    !s.pkg.gen.staging.isEmpty || s.pkg.gen.switch.isSome || !s.serve.adapterCmds.isEmpty

/-- Write SYS.DORMANT (R401); no entry begins before the package serves, or once it stops serving. -/
def State.writeDormant (s : State) (v : Word) : Written :=
  if v.bit 0 = false then ok s
  else if s.dormantBusy ∨ s.pkg.phase ≠ .service then s.refuse .sys 0x128 .busy
  else ok { s.dropUndecided with pkg := { s.pkg with phase := .entering } }

def execDormantEnter (v : Word) (s : State) : Host.Outcome State Fault Refusal :=
  s.access (.dormantEnter v) fun t => (t.writeDormant v).1

/-- DORMANCY_ACK (R401): casts have stopped, the marks are written, and the package drives SLEEP_ACK_N low. -/
def execDormancyAck (s : State) : Host.Outcome State Fault Refusal :=
  if s.pkg.phase = .entering then
    let t := s.stopCasts.writeMarks
    .next { t with pkg := { t.pkg with phase := .sleepAck, sleepAckLow := true } }
  else .next s

/-- The comparator requests power: PWRREQ_N falls and SLEEP_ACK_N is released (R403). -/
def State.requestPower (s : State) : State := { s with pkg := { s.pkg with pwrreqLow := true, sleepAckLow := false } }

/-- RAILS_REMOVED (R402, R403): after SLEEP_ACK_N the package is dormant while the standby rail stays, and requests power at once when
WAKE_N is already low; at any other time the package is off. Marks of a counted power-fail warning have been written (R566). -/
def execRailsRemoved (standbyKept : Bool) (s : State) : Host.Outcome State Fault Refusal :=
  if s.pkg.phase = .sleepAck ∧ standbyKept = true then
    let t := s.dark .dormant
    .next (if s.pkg.wakeLow then t.requestPower else t)
  else if s.pkg.phase = .dormant ∧ standbyKept = true then .next s
  else
    let t := (if s.pkg.phase = .powerFail then s.writeMarks else s).dark .off
    .next (if standbyKept then { t with pkg := { t.pkg with wakeLow := false } }
      else { t with pkg := { t.pkg with wakeLow := false, sleepAckLow := false, pwrreqLow := false, thermtripLow := false } })

/-- RAIL_LOSS (R564, R586): an uncontrolled loss stops the package; without the standby rail its outputs are released too. -/
def execRailLoss (standbyLost : Bool) (s : State) : Host.Outcome State Fault Refusal :=
  if s.pkg.phase = .dormant ∧ standbyLost = false then .next s
  else
    let t := (if s.pkg.phase = .powerFail then s.writeMarks else s).dark .off
    .next (if standbyLost then { t with pkg := { t.pkg with wakeLow := false, sleepAckLow := false, pwrreqLow := false, thermtripLow := false } }
      else { t with pkg := { t.pkg with wakeLow := false } })

/-- WAKE_N (R402, R403): low for 10 µs in the dormant state requests power; before the rails are removed only the level counts, which is that
of the command in every powered state. -/
def execWake (lowNs : Nat) (s : State) : Host.Outcome State Fault Refusal :=
  match s.pkg.phase with
  | .dormant => .next (if 10000 ≤ lowNs then s.requestPower else s)
  | .sleepAck | .entering | .service | .warmReset | .starting => .next { s with pkg := { s.pkg with wakeLow := decide (0 < lowNs) } }
  | _ => .next s

/-! ### Power failure and reset -/

/-- PFAIL_WARNING (R566, R585): a level of 1 µs counts once clocks run; admission, intake and casting stop and the package does not
resume. The marks are written before the rails go, or as RST_N_FALL says (R567). -/
def execPfailWarning (lowNs : Nat) (s : State) : Host.Outcome State Fault Refusal :=
  if 1000 ≤ lowNs ∧ s.pkg.phase ∈ [.starting, .service, .warmReset, .entering] then
    let t := s.dropUndecided.stopCasts
    .next { t with pkg := { t.pkg with phase := .powerFail } }
  else .next s

/-- RST_N_FALL (R402, R567, R586): the state is lost; marks are written only when their writing under a counted warning completed
before. With the rails down only the land's level changes. -/
def execRstFall (marksWritten : Bool) (s : State) : Host.Outcome State Fault Refusal :=
  match s.pkg.phase with
  | .off => .next { s with pkg := { s.pkg with rstLow := true } }
  | .dormant => .next { s with pkg := { s.pkg with rstLow := true, sleepAckLow := false } }
  | .tripped => .next { s with pkg := { s.pkg with rstLow := true } }
  | ph =>
    let t := (if ph = .powerFail ∧ marksWritten = true then s.writeMarks else s).dark .inReset
    .next { t with pkg := { t.pkg with rstLow := true, sleepAckLow := false, wakeLow := false } }

/-! ### Starts -/

/-- A stack in step 4 of a start (R474, R475): listed rows are repaired or retired, and the pool is unclean. -/
def StackSt.started (x : StackSt) (k partPages : Nat) : StackSt :=
  let fits := x.repair.filter fun r => Config.repairFits k r
  let rest := x.repair.filter fun r => !Config.repairFits k r
  { repairUsed := x.repairUsed + fits.length
    repairLeft := Config.repairRows k (x.repairUsed + fits.length)
    rowsRetired := x.rowsRetired + rest.length
    withheld := (x.withheld ++ rest.flatMap Config.rowPages).eraseDups
    unclean := [(partPages, Config.poolEnd - 1)] }

/-- A module trains (R407, R408): failing lanes take free redundant lanes, 4 in each direction; with more of them a steward module runs at x32
and a die module is out of service, which puts its die on the degraded pattern (R409). -/
def State.trainModule (s : State) (t : Training) : State :=
  let x := s.umod t.module.num
  let tx := x.repairedTx + t.txFailed
  let rx := x.repairedRx + t.rxFailed
  let fits := decide (tx ≤ 4) && decide (rx ≤ 4)
  let s1 := s.modUmod t.module.num fun y => { y with
    repairedTx := min 4 tx, repairedRx := min 4 rx
    state := if fits then 2 else (match t.module with | .steward _ => 4 | .die _ _ => 0)
    width := if fits then 64 else (match t.module with | .steward _ => 32 | .die _ _ => 0)
    startFailed := !fits && (match t.module with | .steward _ => false | .die _ _ => true) }
  match t.module with
  | .steward _ => s1
  | .die d _ => if fits then s1 else s1.degrade d.val

/-- Every module trains at a start; those that no entry lists train with all 64 lanes (R407). -/
def State.trainModules (s : State) (l : List Training) : State := l.foldl (fun (t : State) e => t.trainModule e) s

/-- Steps 3 to 5 of a start (R404, R569): device time starts, windows take the marks, stacks start, modules train, the stack keys and
the nonce are drawn (R475, R510, R511, R517). -/
def State.begin (s : State) (wake pcieRc entropyOk : Bool) (trained : List Training) : State :=
  let s0 := s.dark .starting
  let part := (s0.reg .sys 0x120).field 0 4
  let s1 : State := { s0 with
    pkg := { s0.pkg with
      wake := wake, timeBase := s0.pkg.timeBase + 1, partGib := part, pcieEndpoint := pcieRc
      rstLow := false, sleepAckLow := false, pwrreqLow := false, wakeLow := false }
    hbm := { units := (List.range 8).foldl (fun t k =>
      tput (fun _ => {}) t k ((s0.stack k).started k (16384 * part))) [] }
    store := { storeEpoch := s0.store.storeEpoch + 1 }
    lock := { s0.lock with entropyOk := entropyOk }
    links := { s0.links with modules := (List.range 36).foldl (fun t n => tput (fun _ => {}) t n { state := 2, width := 64 }) [] } }
  let s2 := (List.range 16).foldl (fun (t : State) w =>
    t.setWin w ((tget (fun _ => {}) s0.serve.marks (w / 4) : Marks).window w)) s1
  (([keyDevice, keyPlatform, keyPublic].foldl (fun (t : State) k => t.renewKey k) s2).drawNonce).trainModules trained

/-- START (R407, R510, R562, R569): a rising edge of RST_N after a low of 1 µs; it is a wake when the comparator requested the power. Every
module trains, those listed with failing lanes, and the entropy source is tested. After a shorter low the package stays in reset. -/
def execStart (lowNs : Nat) (pcieRc entropyOk : Bool) (trained : List Training) (s : State) : Host.Outcome State Fault Refusal :=
  if s.pkg.phase ∈ [.inReset, .off, .dormant] ∧ s.pkg.rstLow = true then
    if 1000 ≤ lowNs then .next (s.begin (s.pkg.phase == .dormant && s.pkg.pwrreqLow) pcieRc entropyOk trained)
    else
      let t := s.dark .inReset
      .next { t with pkg := { t.pkg with rstLow := false, wakeLow := false } }
  else .next s

/-- The code of a bundle that the boot ROM refuses (R517 to R519): the length first, since nothing of a bundle that runs past it can
be verified. -/
def State.bundleFault (s : State) (h : FwHead) (len : Nat) (imagesOk : Bool) : Option Code :=
  if len < h.needed then some .length
  else if signed s.pkg.rom.firmware ['F', 'W'] h.bytes h.signature = false then some .auth
  else if h.wellFormed s.pkg.dieRevision = false then some .format
  else if h.securityVersion < s.lock.fuses.rollback ∨ imagesOk = false then some .auth
  else none

/-- A row that fails the march or retention test is handled as a second parity error (R569). -/
def State.badRow (s : State) (p : ParityPlace) : State :=
  match p with
  | .actPad c row _ => s.padSecond c.num false row.val
  | .psPad c row _ => s.padSecond c.num true row.val
  | .granary d slice row _ => s.granSecond d.val slice.val row.val

/-- Crofts take service as their records allow (R90); spare positions stay spares. -/
def State.placeCrofts (s : State) : State :=
  s.crofts.foldl (fun (t : State) e =>
    if !isSpareColumn (croftCol e.1) ∧ e.2.recordVersion = 1 ∧ e.2.wholeAt e.2.generation = true then
      t.modCroft e.1 fun c => { c with service := some .inService }
    else t) s

/-- The start probe of moulds that left service (R489): CLEAR makes a reserve, anything else retires the mould. -/
def State.probeLeft (s : State) (clear : List (Nat × Nat)) : State :=
  s.crofts.foldl (fun (t : State) e => e.2.moulds.foldl (fun (u : State) m =>
    if m.2.state = .cast ∧ m.2.slot = none then
      u.modMould e.1 m.1 fun x => if (e.1, m.1) ∈ clear then { x with reserveOk := true } else { x with state := .retired }
    else u) t) s

/-- A slot without a holder takes a reserve (R79, R255); a spare croft casts its moulds only once it takes a coordinate (R251). -/
def State.fillSlot (s : State) (n k : Nat) : State :=
  match (s.croft n).holding k, (s.croft n).reserve with
  | none, some m =>
    if isSpareColumn (croftCol n) then s.modMould n m fun x => { x with slot := some k, reserveOk := false }
    else (s.holdSlot n k).mapReserve n k
  | _, _ => s

/-- Every slot of every croft. -/
def State.fillSlots (s : State) : State :=
  s.crofts.foldl (fun (t : State) e => (List.range 16).foldl (fun (u : State) k => u.fillSlot e.1 k) t) s

/-- Crofts with a logical slot that no castable mould can hold, spare crofts among them (R255). -/
def State.slotless (s : State) : List Nat :=
  (s.crofts.map (·.1)).filter fun n => (List.range 16).any fun k => ((s.croft n).holding k).isNone

/-- A croft that fails its start self-test is fenced; a router that fails puts its die on the degraded pattern as well (R254, R255). -/
def State.startFence (s : State) (router : Bool) (n : Nat) : State :=
  let s1 := if s.service n = .fenced then s else s.fenceOnly n
  if router then (s1.modCroft n fun c => { c with routerFault := true }).degrade (croftDie n) else s1

/-- The coordinate map of a start (R255): the fenced crofts of each row, in order of rising physical column, are given spares. -/
def State.mapAfresh (s : State) : State :=
  let s1 := (List.range 16).foldl (fun (t : State) d => t.modDie d fun x => { x with spareJobs := [] }) s
  let fenced := (s1.crofts.map (·.1)).filter fun n => s1.service n == .fenced && !isSpareColumn (croftCol n)
  fenced.foldl (fun (t : State) n => t.takeCoordinate n (logicalColumn (croftCol n))) s1

/-- No pattern is loaded at a start: the detours of a new coordinate map fit (R252, R255). -/
def State.fitPatches (s : State) : State :=
  (List.range 16).foldl (fun (t : State) d => if (t.die d).spareJobs.isEmpty then t else t.modDie d fun x =>
    { x with spareJobs := x.spareJobs.map fun j => { j with patchFits := some true } }) s

/-- Declared regions without an unclean page are ready (R454). -/
def StackSt.noteReady (x : StackSt) : StackSt :=
  { x with stageReady := x.staging.foldl (fun l e =>
      if e.1 ∉ l ∧ !(x.unclean.any fun i => decide (i.1 < e.2.1 + e.2.2) && decide (e.2.1 ≤ i.2)) then l ++ [e.1] else l) x.stageReady }

/-- The blanking engine has cleaned the pool when a start ends (R475; log 39); regions declared meanwhile are ready (R454). -/
def State.cleanPool (s : State) : State :=
  (List.range 8).foldl (fun (t : State) k =>
    (t.bump (.stack k) 0x160 (sumOf (((t.stack k).unclean).map fun e => e.2 + 1 - e.1))).modStack k fun x => StackSt.noteReady { x with unclean := [] }) s

/-! ### Service states -/

/-- Rows of a slice that are still free to spare. -/
def Die.granLeft (x : Die) (slice : Nat) : Nat := 64 - x.granUsed slice

/-- State of a die: 0 NORMAL, 1 WATCH, 2 WITHDRAW (R506). -/
def State.dieState (s : State) (d : Nat) : Nat :=
  let x := s.die d
  let mine := s.croftsOf d
  let serving := mine.filter fun n => s.service n == .inService
  let uncovered := mine.filter fun n => s.service n == .fenced && (match s.columnOf n with
    | some c => s.physOf d (croftRow n) c == n || s.service (s.physOf d (croftRow n) c) != .inService
    | none => false) && !x.spareJobs.any fun j => j.fenced == n
  let bare := serving.filter fun n => (s.croft n).reservesLeft == 0
  let slices := List.range 64
  let modules := [0, 1].map fun m => s.umod (4 + 2 * d + m)
  if 8 ≤ uncovered.length ∨ 32 ≤ bare.length ∨ (x.mapMode = true ∧ slices.any fun i => x.granLeft i == 0) ∨ !x.refusedRows.isEmpty ∨
      modules.any fun u => u.startFailed then 2
  else if (mine.any fun n => !(s.croft n).dueSlots.isEmpty || decide (9000 ≤ (s.croft n).maxCasts)) ∨
      ((List.range 32).any fun r => (s.freeSpareCrofts d r).isEmpty) ∨ !bare.isEmpty ∨
      (x.mapMode = true ∧ slices.any fun i => decide (x.granLeft i ≤ 16)) ∨
      modules.any fun u => u.repairedTx == 4 || u.repairedRx == 4 then 1
  else 0

/-- State of the package: 0 NORMAL, 1 WATCH, 2 RETIRE (R506). -/
def State.packageState (s : State) (dies : List Nat) : Nat :=
  let hbms := (List.range 8).map fun k => s.stack k
  let ports := (List.range 16).map fun p => s.port p
  let pool := fun (k : Nat) => sumOf ((s.poolSpan k).map fun e => e.2 + 1 - e.1)
  if 3 ≤ (dies.filter fun v => v == 2).length ∨ (hbms.any (·.out)) ∨
      ((List.range 8).any fun k => decide (pool k < 100 * (s.stack k).withheld.length)) ∨
      ports.any fun p => p.startFailed then 2
  else if (dies.any fun v => v != 0) ∨ (hbms.any fun x => decide (x.repairLeft < 8)) ∨ (ports.any fun p => !p.outOfService && p.lanes.length == 6) ∨
      (List.range 4).any fun m => (s.umod m).state == 4 then 1
  else 0

/-- Hub 0 writes SYS.LIFE; a change raises its interrupt (R505, R559). -/
def State.evalService (s : State) : State :=
  let dies := (List.range 16).map fun d => s.dieState d
  let v := (dies.zipIdx).foldl (fun w e => w ||| Word.put (2 * e.2) 2 e.1) (Word.put 32 2 (s.packageState dies))
  if s.reg .sys 0x040 = v then s else (s.setReg .sys 0x040 v).raiseIntr 0x5000

/-- SERVICE_STATE_EVAL (R505). -/
def execServiceStateEval (s : State) : Host.Outcome State Fault Refusal :=
  if s.pkg.phase.ready ∧ s.pkg.hubFaulty.contains 0 = false then .next s.evalService else .next s

/-! ### The end of a start -/

/-- The next bell lies after the present (R241). -/
def State.alignBell (s : State) : State :=
  if s.clock.time < s.clock.nextBell then s
  else { s with clock := { s.clock with nextBell := (s.clock.time / s.pkg.bellNs + 1) * s.pkg.bellNs } }

/-- The hubs report ready: the tally runs in the current window, under the allowance that the cap and the step now give (R369, R372, R404,
R581). -/
def State.reportReady (s : State) : State :=
  ({ s with
    pkg := { s.pkg with phase := .service }
    tally := { s.tally with window := windowOfTime s.clock.time, gross := s.grossAllowance } } : State).alignBell

/-- Steps 6 to 9 of a start (R255, R397 to R399, R489, R569, R584): every croft that fails is fenced first, then the coordinate map is
built. -/
def State.finishStart (s : State) (b : Bundle) : State :=
  let s1 := if s.pkg.wake then s else b.badRows.foldl (fun (t : State) p => t.badRow p) s
  let s2 := (s1.placeCrofts.probeLeft (b.clearMoulds.map fun e => (e.1.num, e.2.val))).fillSlots
  let routers := b.badRouters.map CroftAt.num
  let bad := ((b.badCrofts.map CroftAt.num) ++ routers ++ s2.slotless).eraseDups
  let s3 := (bad.foldl (fun (t : State) n => t.startFence (decide (n ∈ routers)) n) s2).mapAfresh
  (((s3.resumeSpares.fitPatches).quickCheck b.quick).cleanPool).reportReady.evalService

/-! ### Time -/

/-- TIME_ALIGN (R34, R35). -/
def execTimeAlign (skew reeveSkew : List Int) (s : State) : Host.Outcome State Fault Refusal :=
  .next { s with clock := { s.clock with skew := skew, reeveSkew := reeveSkew } }

/-! ### Warm reset -/

/-- What a warm reset does to a mould (R15, R570, R583, R584): casts start again and a run in progress is given up; a probe stays under way. -/
def Mould.warm (m : Mould) : Mould :=
  let cut := match m.cast with
    | some k => if k.full then { m with cast := none, castWaiting := true }
      else { m with cast := none, spareWaiting := m.spareWaiting ++ k.spares }
    | none => m
  cut.restartRun

/-- What it does to a croft (R90, R225): pads read zero, and a croft that is no longer whole is out of service until its casts close. -/
def Croft.warm (c : Croft) : Croft :=
  let c1 : Croft := { c.clearPads with
    moulds := tmap freshMould (fun _ m => m.warm) c.moulds, outputs := [], windows := [], rowResults := [], gathered := [], markSent := false
    tableLostAt := none }
  if c.service = some .inService ∧ !(c.recordVersion == 1 && c1.wholeAt c.generation) then { c1 with service := some .outOfService } else c1

/-- What it does to a die (R198, R225, R238): the gather buffer and granary are cleared, an incomplete load is given up and leaves
no pattern. -/
def Die.warm (x : Die) : Die :=
  let y : Die := { x with
    granary := [], granBad := [], granSigmas := [], gather := [], barriers := [], reply := {}, footMarked := false }
  if x.loading.isSome ∧ x.loadDone = false then { y.dropPattern with lost := none, loading := none, loadingSwitch := false } else y

/-- Query sets and remote requests of the withdrawn steps end and the cores restart (R347, R520); every field of the engines stays (R15). -/
def HubAttn.warm (h : HubAttn) : HubAttn := { h with qsets := [], remote := [], coresHalted := [] }

/-- Loads of a switch that the reset gave up are made again after its casts (R238, R365). -/
def Switch.warm (w : Switch) (lost : Bool) : Switch := if w.phase = .loading ∧ lost = true then { w with phase := .casting } else w

/-- Write SYS.WARM_RESET (R570): refused with BUSY unless the package serves. -/
def State.writeWarmReset (s : State) (v : Word) : Written :=
  if v.bit 0 = false then ok s
  else if s.pkg.phase ≠ .service then s.refuse .sys 0x140 .busy
  else
    let lost := (List.range 16).any fun d => (s.die d).loading.isSome && !(s.die d).loadDone
    let s0 := s.noteCasts.dropUndecided.mapSteps fun st => { st with marks := (st.addMark .reset).marks, charges := [] }
    let s1 := (s0.serve.sessions.filter fun e => e.2.job.isSome).foldl (fun (t : State) e => t.modSess e.1 fun y => { y with
      job := y.job.map fun j => { j with resetDue := !j.ended } }) s0
    ok { s1 with
      pkg := { s1.pkg with
        phase := .warmReset, hubFaulty := []
        gen := { s1.pkg.gen with switch := s1.pkg.gen.switch.map fun w => w.warm lost } }
      dies := tmap (fun _ => {}) (fun _ x => x.warm) s1.dies
      crofts := tmap (fun _ => {}) (fun _ c => c.warm) s1.crofts
      store := { s1.store with hubs := tmap (fun _ => {}) (fun _ h => h.warm) s1.store.hubs, storeEpoch := s1.store.storeEpoch + 1 }
      lock := { s1.lock with ready := false }
      tally := { s1.tally with
        forward := 0, a8 := 0, arrayFj := 0, unpred := 0, ledger := [], castSeen := 0, leakNj := 0 }
      regs := s1.regs.filter fun e => !(decide (0x3100 ≤ e.1) && decide (e.1 < 0x3150)) }

/-- WARM_RESET (R570): a second write before the hubs report ready is refused with BUSY. -/
def execWarmReset (v : Word) (s : State) : Host.Outcome State Fault Refusal :=
  if s.pkg.phase = .warmReset then .next (s.writeWarmReset v).1
  else s.access (.warmReset v) fun t => (t.writeWarmReset v).1

end Sys2Proof.Machine
end

