-- ==== Sys2Proof/Machine/Units.lean ====
section
/-!
DEFINITION. Transaction units at the steward modules (R9, R10, R36, R38, R45, R328, R413 to R417), snoops, interrupts and credits
(R415, R421, R424), and the modules themselves (R407 to R410, R418).
-/
namespace Sys2Proof.Machine

/-! ### The write and the read of any register -/

/-- Write a register of a page at an offset it defines: its own behaviour, or its fields' access codes (R11). The images that a go
bit needs lie in memory (log 28). -/
def State.writeReg (s : State) (p : Page) (off : Nat) (v : Word) : Written :=
  let plain := s.storeReg p off v
  if off = 0x020 then s.writeErrStatus p v
  else if off < 0x100 then
    match p, off with
    | .sense c, 0x010 => s.writeSenseCtl c v
    | _, _ => plain
  else match p with
    | .sys => match off with
      | 0x100 => s.writeRole v
      | 0x118 => s.writeBellNs v
      | 0x120 => s.writePartSize v
      | 0x128 => s.writeDormant v
      | 0x130 => s.writePackLoad v
      | 0x140 => s.writeWarmReset v
      | _ => plain
    | .tally => match off with
      | 0x100 => s.writeCap v
      | 0x108 => s.writeClassLimit v
      | 0x118 => s.writeDebtClear v
      | _ => plain
    | .fuse => if off = 0x100 then s.writeRollback v else plain
    | .tmux => s.writeTmux (if off < 0x140 then (off - 0x100) / 8 else 8 + (off - 0x140) / 8) v
    | .commons => if off = 0x100 then s.writePool v else plain
    | .lock h => match off with
      | 0x100 => s.writeAttest h v
      | 0x110 => s.writeToken h v
      | 0x120 => s.writeDomain h v
      | _ => if h = 0 then plain else s.refuse (.lock h) off .auth
    | .sense c =>
      if off < 0x180 then s.writeSeq c off v
      else match off with
        | 0x180 => s.writeUrgent c v
        | 0x188 => s.writeRingCfg c v
        | 0x198 => s.writeRingRd c v
        | 0x1A0 => ok ((s.storeFields p off v).noteWatermark c)
        | _ => plain
    | .stack k =>
      if off < 0x120 then s.writeStage k ((off - 0x100) / 8) v
      else if off = 0x120 then s.writeInject k v
      else plain
    | .kyrok q => if off = 0x108 then s.writeRreadTo q v else plain
    | .intake w =>
      if off = 0x100 then s.writeNextSeq w v
      else if off = 0x110 then s.writeCfg w 0 v
      else if off = 0x118 then s.writeRelease w 0 v
      else if 0x140 ≤ off ∧ off < 0x180 then s.writeCfg w ((off - 0x140) / 8 + 1) v
      else if 0x180 ≤ off ∧ off < 0x1C0 then s.writeRelease w ((off - 0x180) / 8 + 1) v
      else plain
    | .tenant t => if off = 0x100 then s.writeBudget t v else plain
    | .die d => match off with
      | 0x100 => s.writeMemMode d v
      | 0x108 => s.writePatLoad d v (s.patternNamed v)
      | 0x110 => s.writeFenceReq d v
      | 0x118 => s.writeRecastReq d v
      | _ => plain
    | .gauge d => if off = 0x108 then s.writeGaugeForce d v else plain
    | .gran d => if off = 0x100 then ok (s.writeLeaseRevoke d v) else plain
    | _ => plain

/-- An offset of the command port (R328). -/
def isPort (p : Page) (off : Nat) : Bool :=
  match p with
  | .intake _ => decide (0x800 ≤ off) && decide (off < 0x840)
  | _ => false

/-- The page whose error record takes an access to an address that names no register (R36, R38, R45). -/
def loggerOf (a : Nat) : Page :=
  match target a with
  | .reg p _ => p
  | .noPage p => p
  | .aperture k _ => .stack k
  | .outside => .sys

/-- An access through steward module `m` that is refused: logged in the page its address names. Only an access to a page sets
reg_access; one that reaches no page is logged in another's record as the steward module's error (R36, R38, R45, R548). -/
def State.refuseAt (s : State) (m a : Nat) (c : Code) : State :=
  match target a with
  | .reg p _ => s.logAccess p c a m
  | _ => s.logError (loggerOf a) c (a % 2 ^ 48) 1 m

/-- An 8-byte access that reaches no register: LENGTH for a width or alignment other than R9 asks, for the stack aperture and for a
command port; AUTH elsewhere (R9, R10, R36, R38, R328, R414). -/
def regAccessFault (a width : Nat) : Option Code :=
  match target a with
  | .reg p off =>
    if width ≠ 8 ∨ a % 8 ≠ 0 ∨ isPort p off then some .length
    else if (regFields p off).isNone then some .auth else none
  | .noPage _ => if width ≠ 8 ∨ a % 8 ≠ 0 then some .length else some .auth
  | .aperture _ _ => some .length
  | .outside => some .auth

/-- ERR_SRC names the steward module of a refused write (R548). -/
def State.sourceModule (s t : State) (p : Page) (m : Nat) : State :=
  if (s.reg p 0x020).field 32 8 = 0 ∧ (t.reg p 0x020).field 32 8 ≠ 0 then t.setReg p 0x030 (errSrc true 1 m) else t

/-- Write an address through steward module `m`: the state and the status of the response. -/
def State.busWrite (s : State) (m a width : Nat) (v : Word) : Written :=
  match regAccessFault a width with
  | some c => (s.refuseAt m a c, c.num)
  | none => match target a with
    | .reg p off =>
      let r := s.writeReg p off v
      if r.2 = 0 then r else (s.sourceModule r.1 p m, r.2)
    | _ => ok s

/-- Read an address through steward module `m` (R10: a refused read returns zero data). -/
def State.busRead (s : State) (m a width : Nat) : State × Nat × Word :=
  match regAccessFault a width with
  | some c => (s.refuseAt m a c, c.num, 0)
  | none => match target a with
    | .reg p off =>
      let r := s.readReg p off ((regFields p off).getD [])
      (r.1, 0, r.2)
    | _ => (s, 0, 0)

/-- The line number of an aperture address. -/
def lineOf (a : Nat) : Nat :=
  match target a with
  | .aperture k b => (k * Config.stackBytes + b) / 64
  | _ => 0

/-- A byte that a steward core stores in main memory: its line is dirty in a steward cache from then on (R420, R421). A store to a
poisoned line traps, and STEW.ERR_ADDR logs its address (R466). -/
def State.coreStore (s : State) (a : Nat) (b : BitVec 8) : State :=
  let r := s.hostRead (a - a % 64) 64
  if r.2.poison then r.1.logError .stew .poison (a % 2 ^ 48) 1 0
  else { r.1 with links := { r.1.links with dirtyLines := tset r.1.links.dirtyLines (lineOf a) (r.2.bytes.set (a % 64) b) } }

/-- REGISTER_WRITE (R9 to R14, R420): a steward core writes at a steward physical address. In the engine region an access of another width
or alignment is answered LENGTH and writes nothing; in main memory the bytes are stored; elsewhere nothing of the engine lies. -/
def execRegisterWrite (phys width : Nat) (v : Word) (s : State) : Host.Outcome State Fault Refusal :=
  s.access (.registerWrite phys width v) fun t =>
    match t.stewardTarget phys with
    | .engine a =>
      let r := t.busWrite (t.moduleOf a) a width v
      { r.1 with links := { r.1.links with response := some (t.moduleOf a, r.2) } }
    | .memory _ => (List.range width).foldl (fun (u : State) i =>
        match u.stewardTarget (phys + i) with
        | .memory a => u.coreStore a (BitVec.ofNat 8 (v.field (8 * i) 8))
        | _ => u) t
    | .none => t

/-! ### Requests -/

/-- A request that arrives without a credit is discarded, counted and logged (R415). -/
def State.takeCredit (s : State) (m a : Nat) (posted : Bool) : State × Bool :=
  let x := s.umod m
  if (if posted then x.pCredits else x.npCredits) = 0 then
    ((s.bump (.ucie m) 0x110 1).logError (.ucie m) .busy (a % 2 ^ 48) 1 m, false)
  else (s.modUmod m fun y => if posted then { y with pCredits := y.pCredits - 1 } else { y with npCredits := y.npCredits - 1 }, true)

/-- The device answers a non-posted request. -/
def State.answer (s : State) (m tag : Nat) (a : Answer) : State :=
  { s with links := { s.links with outstanding := s.links.outstanding ++ [{ module := m, tag := tag, answer := a, sentAt := s.hubTime m }] } }

/-- A non-posted unit, at the module of the hub that owns its address (R420): held in a warm reset, discarded without a credit, answered LENGTH for a tag above 255 and FORMAT for reserved
bytes that are set (R413, R415, R570). -/
def State.request (s : State) (i : Instr) (u : UnitHead) (f : Nat → State → State × Answer) : Host.Outcome State Fault Refusal :=
  s.access i fun t =>
    let m := t.moduleOf u.addr
    let c := t.takeCredit m u.addr false
    if c.2 = false then c.1
    else if 255 < u.tag then c.1.answer m u.tag { status := Code.length.num }
    else if u.reservedSet then c.1.answer m u.tag { status := Code.format.num }
    else
      let r := f m c.1
      r.1.answer m u.tag r.2

/-- RD8 (R41, R414). -/
def execRd8 (u : UnitHead) (s : State) : Host.Outcome State Fault Refusal :=
  s.request (.rd8 u) u fun m t =>
    let r := t.busRead m u.addr 8
    (r.1, { status := r.2.1, data := leBytes 8 r.2.2.toNat })

/-- WR8 (R41, R414). -/
def execWr8 (u : UnitHead) (s : State) : Host.Outcome State Fault Refusal :=
  s.request (.wr8 u) u fun m t =>
    let r := t.busWrite m u.addr 8 u.inline
    (r.1, { status := r.2 })

/-- INTR_FIFO_READ (R11, R559): a read of STEW.INTR_FIFO. -/
def execIntrFifoRead (tag : Nat) (s : State) : Host.Outcome State Fault Refusal :=
  let u := UnitHead.make 0x01 tag (Page.stew.base + 0x140)
  s.request (.intrFifoRead tag) u fun m t =>
    let r := t.busRead m u.addr 8
    (r.1, { status := r.2.1, data := leBytes 8 r.2.2.toNat })

/-- Why a 64-byte access reaches no line (R36, R45, R414). -/
def State.lineFault (s : State) (a : Nat) : Option Code :=
  match target a with
  | .aperture k b => if a % 64 ≠ 0 then some .length else if s.apertureOk k b then none else some .auth
  | .reg _ _ => some .length
  | .noPage _ => if a % 64 ≠ 0 then some .length else some .auth
  | .outside => if a % 64 ≠ 0 then some .length else some .auth

/-- RD64 (R45, R414, R417). -/
def execRd64 (u : UnitHead) (s : State) : Host.Outcome State Fault Refusal :=
  s.request (.rd64 u) u fun m t =>
    match t.lineFault u.addr with
    | some c => (t.refuseAt m u.addr c, { status := c.num })
    | none =>
      let r := t.readLine (lineOf u.addr) keyPlatform
      (r.1, { status := if r.2.poison then Code.poison.num else 0, data := r.2.bytes, poison := r.2.poison })

/-- A steward's write of a line: its own dirty copy of the line, if any, is the one that the write replaces. -/
def State.stewardWrite (s : State) (l : Nat) (data : List (BitVec 8)) (poison : Bool) : State :=
  ({ s with links := { s.links with dirtyLines := tdrop s.links.dirtyLines l } } : State).writeLine l keyPlatform ((data ++ zeroLine).take 64) poison

/-- WR64 (R45, R414, R417). -/
def execWr64 (u : UnitHead) (data : List (BitVec 8)) (s : State) : Host.Outcome State Fault Refusal :=
  s.request (.wr64 u data) u fun m t =>
    match t.lineFault u.addr with
    | some c => (t.refuseAt m u.addr c, { status := c.num })
    | none => (t.stewardWrite (lineOf u.addr) data u.poison, {})

/-- A posted write that reaches the device: a command for a window, a line, or a drop that is logged; a refused write
to a window of a faulty hub leaves no trace (R328, R347, R414). -/
def State.post (s : State) (m a : Nat) (data : List (BitVec 8)) (poison : Bool) : State :=
  match target a with
  | .reg (.intake w) off =>
    let c := parseCommand ((data ++ zeroLine).take 64)
    if off = 0x800 then s.submit w c.1 c.2
    else if isPort (.intake w) off then if w / 4 ∈ s.pkg.hubFaulty then s else s.refuseWrite w c.1 .length
    else s.refuseAt m a .length
  | _ => match s.lineFault a with
    | some c => s.refuseAt m a c
    | none => s.stewardWrite (lineOf a) data poison

/-- A posted write to the port of a window whose hub is in a warm reset is counted there; any other is held by the adapter (R570). -/
def State.toPort (a : Nat) : Bool :=
  match target a with
  | .reg (.intake _) off => off == 0x800
  | _ => false

/-- PW64 (R328, R413 to R415). -/
def execPw64 (u : UnitHead) (data : List (BitVec 8)) (s : State) : Host.Outcome State Fault Refusal :=
  let run := fun (t : State) =>
    let m := t.moduleOf u.addr
    let c := t.takeCredit m u.addr true
    if c.2 = false ∨ 255 < u.tag ∨ u.reservedSet = true then c.1 else c.1.post m u.addr data u.poison
  if s.pkg.phase = .warmReset ∧ State.toPort u.addr = true then .next (run s) else s.access (.pw64 u data) run

/-! ### Completions -/

/-- The time after which a requester's adapter gives a non-posted request up (R416), in ns. -/
def completionTime : Nat := 50000

/-- Take the oldest request outstanding with a module and tag whose response has not been lost. -/
def takeOutstanding : List Outstanding → Nat → Nat → Option (Outstanding × List Outstanding)
  | [], _, _ => none
  | o :: l, m, t => if o.module = m ∧ o.tag = t ∧ o.lost = false then some (o, l) else (takeOutstanding l m t).map fun r => (r.1, o :: r.2)

/-- A completion arrives: delivered to its request, in the cycle of the timeout at the latest, or discarded and counted when the request has
timed out (R416). A request whose time has passed and whose timeout is still to be reported stays, without a response to come. -/
def State.complete (s : State) (m tag : Nat) (a : Answer) : State :=
  match takeOutstanding s.links.outstanding m tag with
  | none => s.bump (.ucie m) 0x108 1
  | some (o, rest) =>
    let with_ := fun (l : List Outstanding) => ({ s with links := { s.links with outstanding := l } } : State)
    if o.timedOut then (with_ rest).bump (.ucie m) 0x108 1
    else if o.sentAt + completionTime < s.hubTime m then (with_ (rest ++ [{ o with lost := true }])).bump (.ucie m) 0x108 1
    else { with_ rest with links := { (with_ rest).links with delivered := some { module := m, tag := tag, answer := a } } }

/-- RSP (R414, R416). -/
def execRsp (module : HubId) (u : UnitHead) (s : State) : Host.Outcome State Fault Refusal :=
  .next (s.complete module.val u.tag { status := u.status, data := leBytes 8 u.inline.toNat })

/-- RSPD (R416, R417). -/
def execRspd (module : HubId) (u : UnitHead) (data : List (BitVec 8)) (s : State) : Host.Outcome State Fault Refusal :=
  .next (s.complete module.val u.tag { status := u.status, data := data, poison := u.poison })

/-- A request that its requester's adapter gives up now (R416). -/
def Outstanding.expires (o : Outstanding) (m t now : Nat) : Bool :=
  o.module == m && o.tag == t && !o.timedOut && decide (o.sentAt + completionTime ≤ now)

/-- Time out the oldest such request. One whose response is still to come waits for it, to discard it; one whose response is lost is
forgotten (R410, R416). -/
def timeOutFirst : List Outstanding → Nat → Nat → Nat → List Outstanding
  | [], _, _, _ => []
  | o :: l, m, t, now =>
    if o.expires m t now then (if o.lost then l else { o with timedOut := true } :: l) else o :: timeOutFirst l m t now

/-- COMPLETION_TIMEOUT (R416): 50 µs after it was sent, the requester completes its request with TIMEOUT; suspended in a warm reset (R570). -/
def execCompletionTimeout (module : HubId) (tag : Nat) (s : State) : Host.Outcome State Fault Refusal :=
  let m := module.val
  if s.pkg.phase = .warmReset then .next s
  else if s.links.outstanding.any fun o => o.expires m tag (s.hubTime m) then
    .next { s with links := { s.links with
      outstanding := timeOutFirst s.links.outstanding m tag (s.hubTime m)
      delivered := some { module := m, tag := tag, answer := { status := Code.timeout.num } } } }
  else .next s

/-- CRD (R415): credits come back to the end that did not send the unit, never more than were given. -/
def execCrd (mod : ModuleAt) (sender : ModuleEnd) (nonPosted posted : Nat) (s : State) : Host.Outcome State Fault Refusal :=
  .next (s.modUmod mod.num fun x => match sender with
    | .hub => { x with npCredits := min 256 (x.npCredits + nonPosted), pCredits := min 128 (x.pCredits + posted) }
    | .far => { x with hubNp := min 256 (x.hubNp + nonPosted), hubP := min 128 (x.hubP + posted) })

/-! ### Interrupts and snoops -/

/-- INTR (R424, R559). -/
def execIntr (hub : HubId) (identity : BitVec 16) (s : State) : Host.Outcome State Fault Refusal :=
  if hub.val ∈ s.pkg.hubFaulty then .next s else .next (s.raiseIntr identity.toNat)

/-- A line of the steward partition, by its package-wide address ÷ 64. -/
def State.partitionLine (s : State) (l : Nat) : Bool :=
  decide (64 * l % Config.stackBytes / Config.pageBytes < s.partPages) && decide (64 * l / Config.stackBytes < 8)

/-- SNOOP (R415, R421): a hub that holds a credit for it asks over its own steward module; the steward looks the line up, and invalidates it
before a write. -/
def execSnoop (hub : HubId) (line : Nat) (forWrite : Bool) (s : State) : Host.Outcome State Fault Refusal :=
  if s.partitionLine line ∧ 0 < (s.umod hub.val).hubNp then
    .next (({ s with links := { s.links with snoops := s.links.snoops ++ [(hub.val, line, forWrite)] } } : State).modUmod hub.val fun x =>
      { x with hubNp := x.hubNp - 1 })
  else .next s

/-- SNOOP_RSP (R421): for a read the data of a dirty line comes from here; a line invalidated before a write leaves its data in
memory, under the write that follows. -/
def execSnoopRsp (hub : HubId) (line : Nat) (dirty : Option (List (BitVec 8))) (s : State) : Host.Outcome State Fault Refusal :=
  match s.links.snoops.find? fun e => e.1 == hub.val && e.2.1 == line with
  | none => .next s
  | some e =>
    let t : State := { s with links := { s.links with
      snoops := s.links.snoops.erase e, dirtyLines := tdrop s.links.dirtyLines line } }
    match dirty with
    | none => .next t
    | some data =>
      if e.2.2 then .next (t.writeLine line keyPlatform ((data ++ zeroLine).take 64) false)
      else .next { t with links := { t.links with dirtyLines := tset t.links.dirtyLines line ((data ++ zeroLine).take 64) } }

/-! ### Modules -/

/-- The cross-die transfer of section 0x0009 that a die receives as its entry `k` over one of its modules (R418). -/
def PatternImage.receives (p : PatternImage) (k m : Nat) : Option CrossPlan := (p.crossDie[k]?).filter fun c => !c.sends && c.module == m

/-- Bytes of one data unit (R412). -/
def unitBytes : Nat := 64

/-- A 64-byte part of the row or column line that a transfer's other die sends, as that die holds it (R244, R418). -/
def State.sentPart (s : State) (c : CrossPlan) (o : Nat) : List (BitVec 8) := ((s.readPlace c.peer c.far).drop o).take unitBytes

/-- A data unit of a transfer arrives at a die. With the last one the whole row or line is written at once (R181), with the σ of the vector and
the saturated marks of the accumulators that it carries (R156, R163). -/
def State.takeUnit (s : State) (d k o : Nat) (c : CrossPlan) : State :=
  let old := (tfind (s.die d).xfers k).getD []
  let parts := (o / unitBytes, s.sentPart c o) :: old.filter fun e => e.1 != o / unitBytes
  if parts.length < c.bytes / unitBytes then s.modDie d fun x => { x with xfers := tset x.xfers k parts }
  else
    let row := (List.range 512).map fun i => (((tfind parts (i / unitBytes)).getD [])[i % unitBytes]?).getD 0
    ((s.modDie d fun x => { x with xfers := tdrop x.xfers k }).writePlace d c.place row (s.placeSigma c.peer c.far)).carryMarks d c.place
      (s.rowMarks c.peer c.far)

/-- XFER (R244, R412, R418, R419): a data unit of a scheduled transfer, in the slot that the receiving die's pattern gives it: entry of section
0x0009, module of the die, 64-byte part. What it carries is read at the die that sends it; a bad parity word marks the step for re-run. A unit
that no slot is planned for carries nothing. The data of attention exchanges come with the commands of the exchange. DESIGN CHOICE, log 115. -/
def execXfer (mod : ModuleAt) (step entry offset : Nat) (parityBad : Bool) (s : State) : Host.Outcome State Fault Refusal :=
  match mod with
  | .die d m =>
    let s1 := match (s.die d.val).pattern.bind fun p => PatternImage.receives p entry m.val with
      | some c =>
        if offset % unitBytes = 0 ∧ offset + unitBytes ≤ c.bytes ∧ c.bytes ≤ 512 ∧ s.placeServes d.val c.place = true ∧
            s.placeServes c.peer c.far = true then s.takeUnit d.val entry offset c
        else s
      | none => s
    .next (if parityBad then s1.markStep step .parity else s1)
  | .steward _ => .next s

/-- Requests and responses that a retrain of a steward module has lost (R410): each ends in its requester's completion timeout. -/
def State.loseUnits (s : State) (m : Nat) (requests responses : List Nat) : State :=
  let kept : List Outstanding := s.links.outstanding.map fun o => if o.module = m ∧ o.tag ∈ responses then { o with lost := true } else o
  let gone : List Outstanding := requests.map (fun t => { module := m, tag := t, sentAt := s.hubTime m, lost := true })
  { s with links := { s.links with outstanding := kept ++ gone } }

/-- UCIE_RETRAIN (R407 to R410): failing lanes take free redundant lanes; with more failing lanes than those, a steward module runs
at x32 and a die module is out of service, which puts its die on the degraded pattern. Flits that the adapter has not acknowledged are lost. -/
def execUcieRetrain (mod : ModuleAt) (txFailed rxFailed : Nat) (lostRequests lostResponses : List Nat) (s : State) :
    Host.Outcome State Fault Refusal :=
  let s1 := (s.trainModule ⟨mod, txFailed, rxFailed⟩).modUmod mod.num fun y => { y with retrains := min 255 (y.retrains + 1) }
  match mod with
  | .steward m => .next (s1.loseUnits m.val lostRequests lostResponses)
  | .die _ _ => .next s1

end Sys2Proof.Machine
end

