-- ==== Sys2Proof/Machine/Restart.lean ====
section
/-!
DEFINITION. How the package comes into service: WARM_RESET_READY (R205, R328, R347, R570, R581), with the steward accesses that the
reset held, and BOOT_DOORBELL (R517 to R520).
-/
namespace Sys2Proof.Machine

/-- The meaning of a steward access. -/
def runHeld (i : Instr) (s : State) : Host.Outcome State Fault Refusal :=
  match i with
  | .respCfg w r v => execRespCfg w r v s
  | .respRelease w r v => execRespRelease w r v s
  | .nextSeq w v => execNextSeq w v s
  | .sysRole v => execSysRole v s
  | .bellNs v => execBellNs v s
  | .partSize v => execPartSize v s
  | .packLoadGo v => execPackLoadGo v s
  | .packLoadClear v => execPackLoadClear v s
  | .tenantBudget t v => execTenantBudget t v s
  | .classLimit v => execClassLimit v s
  | .debtClear v => execDebtClear v s
  | .senseApply c v => execSenseApply c v s
  | .senseUrgent c v => execSenseUrgent c v s
  | .ringCfg c v => execRingCfg c v s
  | .ringRd c v => execRingRd c v s
  | .commonsPool v => execCommonsPool v s
  | .stackStage k n v => execStackStage k n v s
  | .stackInject k v => execStackInject k v s
  | .tmuxSelect p v => execTmuxSelect p v s
  | .errStatusClear p v => execErrStatusClear p v s
  | .patLoadGo d v i => execPatLoadGo d v i s
  | .patLoadUnload d v => execPatLoadUnload d v s
  | .memMode d v => execMemMode d v s
  | .fenceReq d v => execFenceReq d v s
  | .recastMould d v => execRecastMould d v s
  | .recastAll d v => execRecastAll d v s
  | .gaugeForce d v => execGaugeForce d v s
  | .histSel d v => execHistSel d v s
  | .leaseRevoke d v => execLeaseRevoke d v s
  | .dormantEnter v => execDormantEnter v s
  | .warmReset v => execWarmReset v s
  | .lockAttest h v => execLockAttest h v s
  | .ownerTransfer h v => execOwnerTransfer h v s
  | .pubWrite h v => execPubWrite h v s
  | .pubRevoke h v => execPubRevoke h v s
  | .debugAuth h v => execDebugAuth h v s
  | .fuseRollback v => execFuseRollback v s
  | .domainJoin h v => execDomainJoin h v s
  | .domainLeave h v => execDomainLeave h v s
  | .registerWrite a n v => execRegisterWrite a n v s
  | .rd8 u => execRd8 u s
  | .wr8 u => execWr8 u s
  | .intrFifoRead t => execIntrFifoRead t s
  | .rd64 u => execRd64 u s
  | .wr64 u d => execWr64 u d s
  | .pw64 u d => execPw64 u d s
  | _ => .next s

/-- Held accesses complete once the stacks have left self-refresh, while the hubs are not ready yet (R570). -/
def State.runAllHeld (s : State) : State :=
  let t : State := { s with
    pkg := { s.pkg with phase := .starting }
    links := { s.links with heldAccesses := [] } }
  s.links.heldAccesses.foldl (fun (u : State) i => match runHeld i u with
    | .next v => v
    | _ => u) t

/-- Writes that reached an intake port in the reset are counted and recorded (R328, R570). -/
def State.recordRefused (s : State) : State :=
  (List.range 16).foldl (fun (t : State) w =>
    (t.win w).refusedLater.foldl (fun (u : State) e => u.refuseWrite w { seq := e.1, cookie := e.2, reservedSet := false } .busy)
      (t.modWin w fun x => { x with refusedLater := [] })) s

/-- The hubs report ready after a warm reset; what was in flight is withdrawn at the first bell (R347, R570). -/
def State.finishWarm (s : State) : State :=
  let s1 := s.runAllHeld
  let s2 : State := { s1 with lock := { s1.lock with ready := true } }
  s2.reportReady.recordRefused

/-- WARM_RESET_READY (R520, R570): the hubs report ready once every block of the firmware area has passed its check; when one fails in both
copies, the package waits for a doorbell. -/
def execWarmResetReady (s : State) : Host.Outcome State Fault Refusal :=
  if s.pkg.phase = .warmReset ∧ s.firmwareHolds = true then .next s.finishWarm else .next s

/-- BOOT_DOORBELL (R476, R517 to R519): a bundle that fails a check leaves the boot ROM waiting; one that passes starts the cores,
and with every stack in service and a sound entropy source (R510) the package comes up. After a warm reset whose firmware area failed its check, the package waits
likewise (R520). -/
def execBootDoorbell (b : Bundle) (s : State) : Host.Outcome State Fault Refusal :=
  if s.pkg.phase ≠ .starting ∧ s.pkg.phase ≠ .warmReset then .next s
  else
    let r := s.readBundle b.addr b.length
    let m := r.1.bundleImages b.addr r.2
    match m.1.bundleFault r.2 b.length m.2 with
    | some c => .next { m.1 with lock := { m.1.lock with lastCode := c.num } }
    | none =>
      let copied := m.1.copyImages b.addr r.2
      let s1 : State := { copied with lock := { copied.lock with
        fwVerified := true, ready := true, securityVersion := r.2.securityVersion, firmwareDigest := r.2.digest } }
      if s.pkg.phase = .warmReset then .next s1.finishWarm
      else
        let s2 := b.badStacks.foldl (fun (t : State) e => t.modStack e.1.val fun x => { x with out := true, failedStep := e.2 }) s1
        .next (if ((List.range 8).any fun k => (s2.stack k).out) || !s2.lock.entropyOk then s2 else s2.finishStart b)

end Sys2Proof.Machine
end

