-- ==== Sys2Proof/Machine/StackEvents.lean ====
section
/-!
DEFINITION. What stacks and hubs do on their own and how they fail: blanking (R462 to R464), the sweep (R469 to R471), stack and hub
faults (R478, R481, R482), and poison that a core or a DMA channel meets (R467, R468).
-/
namespace Sys2Proof.Machine

/-! ### Blanking -/

/-- BLANK_PAGE (R462): stack-local page `page` of a stack in service is blanked and its unclean bit cleared; a clean page has nothing to
blank. -/
def execBlankPage (stack : StackId) (page : Nat) (s : State) : Host.Outcome State Fault Refusal :=
  let p := stack.val * Config.stackPages + page
  if page < Config.stackPages ∧ (s.stack stack.val).out = false ∧ s.unclean p = true then
    .next ((s.blankPage p).modStack stack.val StackSt.noteReady)
  else .next s

/-! ### The sweep -/

/-- The sweep is not stopped: en and share set, and the stack in service (R470, R478). -/
def State.sweeping (s : State) (k : Nat) : Bool :=
  let ctl := s.reg (.sweep k) 0x010
  ctl.bit 0 && decide (0 < ctl.field 8 8) && !(s.stack k).out && s.answers

/-- A corrected line joins the lines this lap corrected; its row enters the repair list when the last lap corrected it too (R473). -/
def State.noteCorrected (s : State) (k l : Nat) : State :=
  let t := s.modStack k fun x => { x with correctedNow := if l ∈ x.correctedNow then x.correctedNow else x.correctedNow ++ [l] }
  if l ∈ (s.stack k).correctedLast then t.listRow l else t

/-- What the sweep does to a line it has read (R313, R465, R469): it writes corrections back, poisons an uncorrectable line, which evicts the
prefixes that reference its page, and leaves blank and poisoned lines, but for symbols in error. -/
def State.sweepAt (s : State) (k l : Nat) : State :=
  let c := s.lineCode l
  let s1 := s.bump (.sweep k) 0x110 1
  let s2 := if 7 ≤ c.errors then s1.tick else s1
  let fixed := fun (t : State) =>
    ((t.setLineCode l { c with flips := 0 }).bump (.sweep k) 0x118 1).noteCorrected k l
  match c.decode s.fresh with
  | .corrected _ => fixed s2
  | .uncorrectable => (s2.poisonLine l).evictPoisoned (l / 1024)
  | _ => s2

/-- The sweep moves to the next line; past the last one the lap ends (R470, R471). -/
def State.sweepNext (s : State) (k : Nat) : State :=
  s.modStack k fun x =>
    let pos := x.sweepPos + 64
    if pos < Config.stackBytes then { x with sweepPos := pos }
    else
      { x with
        sweepPos := 0, laps := min 0xFFFF (x.laps + 1), lastMs := min 0xFFFFFF ((s.clock.time - x.lapStart) / 1000000)
        lapStart := s.clock.time, lapAlarmed := false, correctedLast := x.correctedNow, correctedNow := [] }

/-- SWEEP_LINE (R469 to R471): the line at SWEEP.POS is checked, unless its page is unclean. -/
def execSweepLine (stack : StackId) (s : State) : Host.Outcome State Fault Refusal :=
  let k := stack.val
  if s.sweeping k = false then .next s
  else
    let a := k * Config.stackBytes + (s.stack k).sweepPos
    .next ((if s.unclean (pageOf a) then s else s.sweepAt k (a / 64)).sweepNext k)

/-- limit_ms of a stack's sweep (R470): 0 turns the alarm off, all ones mean 16,777,214 ms. -/
def State.lapLimit (s : State) (k : Nat) : Option Nat :=
  let v := (s.reg (.sweep k) 0x010).field 24 24
  if v = 0 then none else some (min v 16777214)

/-- SWEEP_LAP_ALARM (R471): a lap in progress that has passed limit_ms enters TIMEOUT once. -/
def execSweepLapAlarm (stack : StackId) (s : State) : Host.Outcome State Fault Refusal :=
  let k := stack.val
  match s.lapLimit k with
  | none => .next s
  | some ms =>
    if s.answers = true ∧ (s.stack k).lapAlarmed = false ∧ (s.stack k).lapStart + 1000000 * ms < s.clock.time then
      .next ((s.modStack k fun x => { x with lapAlarmed := true }).logEvent (.sweep k) .timeout (Page.sweep k).base)
    else .next s

/-! ### Faults -/

/-- STACK_FAULT (R478): from now on reads deliver poison, writes are dropped and counted, and the pool takes no page of the stack. -/
def execStackFault (stack : StackId) (s : State) : Host.Outcome State Fault Refusal :=
  if s.answers = true then .next (s.modStack stack.val fun x => { x with out := true }) else .next s

/-- A hub is faulty (R259, R347, R481, R482, R585): commands not yet decided are dropped, its sessions end at the next bell, its windows
refuse writes, and the slice leases of its DMA channels end. -/
def State.faultHub (s : State) (h : Nat) : State :=
  let s1 : State := { s with pkg := { s.pkg with hubFaulty := s.pkg.hubFaulty ++ [h] } }
  let s2 := (List.range 4).foldl (fun (t : State) i => t.modWin (4 * h + i) fun w => { w with queue := [] }) s1
  let mine := (s2.serve.sessions.filter fun e => e.2.st != .free && s2.ownerHub e.1 == h).map (·.1)
  mine.foldl (fun (t : State) x => t.modSess x fun y => { y with fenceDue := true }) (s2.revokeDma h none)

/-- HUB_FAULT (R481). -/
def execHubFault (hub : HubId) (s : State) : Host.Outcome State Fault Refusal :=
  if s.pkg.phase.ready = true ∧ hub.val ∉ s.pkg.hubFaulty then .next (s.faultHub hub.val) else .next s

/-- The hub of a stack (R40). -/
def hubOfStack (k : StackId) : HubId := ⟨k.val / 2, by omega⟩

/-- The mirror copy of line `line` of the firmware area serves a core of stack `k`: it reads without poison, and its block, where one is
recorded, matches its digest (R450, R467). -/
def State.mirrorServes (s : State) (k line : Nat) : Bool :=
  let m := otherStack k
  !s.readsPoison ((m * Config.stackBytes + 65536 * firmwarePage) / 64 + line) &&
    (s.lock.blocks.filter fun b => decide (b.at_ ≤ 64 * line) && decide (64 * line < b.at_ + b.length)).all (s.blockHolds m)

/-- CORE_FETCH_POISON (R467, R479): the boot ROM fetches line `line` of the firmware area from the other stack of the hub and checks it; when
that fails too, a hub core halts and loses its leases, and a reeve's die goes on the degraded pattern. -/
def execCoreFetchPoison (stack : StackId) (die : DieId) (core : Option (Fin 16)) (line : Nat) (s : State) :
    Host.Outcome State Fault Refusal :=
  let k := stack.val
  if s.answers = false then .next s
  else
    let s1 := s.bump (.stack k) 0x148 1
    if s.mirrorServes k line then .next (s1.bump (.stack (otherStack k)) 0x158 1)
    else
      let s2 := s1.bump (.stack (otherStack k)) 0x148 1
      match core with
      | some c => .next (s2.haltCore (hubOfStack stack) c)
      | none => .next (s2.degrade die.val)

/-- DMA_POISON_HALT (R468): the channel's holder receives POISON, the source address is logged in the page that owns the source, the
step of the transfer fails with POISON, the slice leases it holds end (R259), and firmware restarts the channel under the next lease epoch. -/
def execDmaPoisonHalt (hub : HubId) (channel : Nat) (sourcePage sourceAddr : Nat) (step : Nat) (s : State) :
    Host.Outcome State Fault Refusal :=
  if s.answers = false then .next s
  else
    let s1 := match target sourcePage with
      | .reg p _ => s.logError p .poison sourceAddr 3 channel
      | _ => s
    let s2 := match target sourcePage with
      | .reg (.stack k) _ => s1.bump (.stack k) 0x148 1
      | _ => s1
    .next (((s2.failStep step .poison).revokeDma hub.val (some [channel])).restartChannel hub channel)

end Sys2Proof.Machine
end

