-- ==== Sys2Proof/Machine/Sensors.lean ====
section
/-!
DEFINITION. The sensor converters (R389 to R396), the thermal step and THERMTRIP_N (R386 to R388, R568), and the end of a tally window
(R173, R368 to R374, R377, R581).
-/
namespace Sys2Proof.Machine

/-- Converters run from the third step of a start until the package stops or has entered dormancy (R401, R402, R404, R569). -/
def Phase.converts : Phase → Bool
  | .off | .inReset | .dormant | .tripped | .sleepAck => false
  | _ => true

/-- The sensor record (R394). -/
def sensorRecord (time input : Nat) (urgent lowPower : Bool) (value : BitVec 16) : Word :=
  Word.put 24 40 time ||| Word.put 18 6 input ||| Word.put 17 1 (b2n urgent) ||| Word.put 16 1 (b2n lowPower) ||| Word.put 0 16 value.toNat

/-- Write a record to the converter's ring, or count it as dropped when the ring is full (R395). -/
def State.ringRecord (s : State) (c : Nat) (w : Word) : State :=
  let x := s.conv c
  let size := 2 ^ (4 + (s.reg (.sense c) 0x188).field 28 4)
  if x.ringRd + size ≤ x.ringWr then s.bump (.sense c) 0x1C0 1
  else (s.modConv c fun y => { y with ring := tset y.ring (x.ringWr % size) w, ringWr := x.ringWr + 1 }).noteWatermark c

/-- The value of a conversion after the calibration of its input (R389): the fuses hold an offset for each input, and a tap result comes in
codes of 0.5 mV. DESIGN CHOICE, log 104: that the calibration is an offset, and zero where nothing is fused. -/
def State.calibrated (s : State) (c input : Nat) (raw : BitVec 16) : BitVec 16 :=
  let o := tget (fun _ => 0) s.lock.fuses.sensorCal (48 * c + input)
  if input < 32 then BitVec.ofNat 16 (ofSigned 16 (clampTo (-32768) 32767 (toSigned 16 raw.toNat + o)))
  else BitVec.ofNat 16 ((clampTo 0 65535 (raw.toNat + o)).toNat / 16 * 16)

/-- Latch a result (R393 to R395): LATEST_n is written and the result counted; the ring takes it when it is enabled and the entry asks
for it, or the conversion was urgent. A quick gauging check that waited for the die's diodes goes on (R397). -/
def State.latchResult (s : State) (c input : Nat) (urgent ring lowPower : Bool) (value : BitVec 16) : State :=
  let time := s.pageTime (.sense c)
  let w := sensorRecord time input urgent lowPower value
  let s1 := ((s.setReg (.sense c) (0x200 + 8 * input) w).bump (.sense c) 0x1A8 1).modConv c fun x =>
    { x with latestAt := tset x.latestAt input s.clock.time }
  let s2 := if input < 32 then { s1 with tally := { s1.tally with hotSeen := max s1.tally.hotSeen (toSigned 16 value.toNat) } } else s1
  let s3 := if (s.reg (.sense c) 0x188).bit 0 = true ∧ (urgent || ring) = true then s2.ringRecord c w else s2
  if c < 16 then s3.runQuick c else s3

/-- The threshold of a thermal step, 1/64 °C (R386). -/
def stepThreshold (step : Nat) : Int := if step = 1 then 6080 else 6720

/-- A diode result that reaches the threshold of a step above the current one, or 112.0 °C, makes the tally request a confirming
conversion (R386, R392, R568). -/
def State.watchResult (s : State) (c input : Nat) (value : BitVec 16) : State :=
  let v := toSigned 16 value.toNat
  let trip := decide (7168 ≤ v)
  let rise := decide (s.tally.step < 2) && decide (stepThreshold (s.tally.step + 1) ≤ v)
  if 32 ≤ input ∨ (trip || rise) = false then s
  else s.modConv c fun x =>
    ({ x with urgent := x.urgent ++ [{ input := input, confirm := true, trip := trip }] } : Converter).takeUrgent

/-- The thermal step rises to `n`; its span of cool windows begins anew (R386 to R388). -/
def State.raiseStep (s : State) (n : Nat) : State :=
  if n ≤ s.tally.step then s
  else ({ s with tally := { s.tally with step := n, cool := 0 } } : State).bump .tally 0x160 1

/-- A confirming result decides the rise (R386). -/
def State.confirmResult (s : State) (value : BitVec 16) : State :=
  let v := toSigned 16 value.toNat
  if 6720 ≤ v then s.raiseStep 2
  else if 6080 ≤ v ∧ s.tally.step = 0 then s.raiseStep 1
  else s

/-- SENSOR_CONVERSION (R389 to R391): the sequence conversion in progress latches `value`, calibrated, for its entry; the next begins, unless
converters stop for dormancy (R401). An urgent conversion in progress has abandoned it (R393). -/
def execSensorConversion (conv : Fin 20) (value : BitVec 16) (s : State) : Host.Outcome State Fault Refusal :=
  let c := conv.val
  let x := s.conv c
  if s.pkg.phase.converts = false ∨ x.stopped = true ∨ x.running.isSome then .next s
  else
    let e := (x.active[x.position]?).getD (0, false)
    let v := s.calibrated c e.1 value
    let s1 := (s.latchResult c e.1 false e.2 x.lowPower v).modConv c fun y => { y with position := (y.position + 1) % max 1 y.active.length }
    .next ((if s.pkg.halting then s1.modConv c fun y => { y with stopped := true } else s1.startSequence c).watchResult c e.1 v)

/-- What follows an urgent conversion (R391, R393): the next queued request, else the abandoned entry or the next one; nothing once converters
stop for dormancy (R401). -/
def State.endUrgent (s : State) (c : Nat) : State :=
  let t := s.modConv c fun x => ({ x with running := none } : Converter).takeUrgent
  if s.pkg.halting then t.modConv c fun x => { x with running := none, stopped := true }
  else if (t.conv c).running.isSome then t else t.startSequence c

/-- URGENT_RESULT (R386, R389, R393, R568): the urgent conversion latches `value`, calibrated; a confirming one decides the thermal step, and confirms a
result of 112.0 °C or more by another, which drives THERMTRIP_N low and stops the clocks. -/
def execUrgentResult (conv : Fin 20) (value : BitVec 16) (s : State) : Host.Outcome State Fault Refusal :=
  let c := conv.val
  match (s.conv c).running with
  | none => .next s
  | some u =>
    if s.pkg.phase.converts = false then .next s
    else
      let v := s.calibrated c u.input value
      let s1 := (s.latchResult c u.input true true false v).bump (.sense c) 0x1B0 1
      let s2 := if u.confirm then s1.confirmResult v else s1
      let hot := decide (7168 ≤ toSigned 16 v.toNat)
      if (u.confirm && u.trip && hot) = true then
        let t := s2.dark .tripped
        .next { t with pkg := { t.pkg with thermtripLow := true, sleepAckLow := false, wakeLow := false } }
      else
        let s3 := s2.endUrgent c
        .next (if u.confirm = false ∨ hot = true then s3.watchResult c u.input v else s3)

/-! ### The end of a tally window -/

/-- A converter whose oldest latest diode result is more than 1 ms old (R388). -/
def Converter.stale (x : Converter) (now : Nat) : Bool :=
  (List.range 32).any fun i => decide ((tfind x.latestAt i).getD 0 + 1000000 < now)

/-- The heat rules at the end of a window (R387, R388). -/
def State.heatWindow (s : State) (now : Nat) : State :=
  let old := (List.range 20).filter fun c => (s.conv c).stale now
  let s1 : State := { s with tally := { s.tally with staleConv := old } }
  let s2 := if old.isEmpty then s1 else s1.bump .tally 0x168 1
  let s3 := if !old.isEmpty ∧ s2.tally.step = 0 then s2.raiseStep 1 else s2
  let t := s3.tally
  if t.step = 0 then s3
  else
    let cool := decide (t.hotSeen < stepThreshold t.step - 192) && !(t.step == 1 && !old.isEmpty)
    let n := if cool then t.cool + 1 else 0
    if n < 10 then { s3 with tally := { t with cool := n } }
    else { s3 with tally := { t with cool := 0, step := t.step - 1 } }

/-- The A8 share of a window decides a widening storm (R173). A window without any forward window has no share: it declares no storm and
counts as one below storm_pct ÷ 2. DESIGN CHOICE, log 110. -/
def State.stormWindow (s : State) : State :=
  let t := s.tally
  let pct := min 100 ((s.reg .tally 0x110).field 0 7)
  if t.storm = false then
    if 0 < pct ∧ pct * t.forward ≤ 100 * t.a8 ∧ 0 < t.a8 then
      (({ s with tally := { t with storm := true, stormQuiet := 0 } } : State).bump .tally 0x170 1).logEvent .tally .widenStorm Page.tally.base
    else s
  else
    let quiet := if t.forward = 0 then decide (0 < pct) else decide (200 * t.a8 < pct * t.forward)
    let n := if quiet then t.stormQuiet + 1 else 0
    if n < 10 then { s with tally := { t with stormQuiet := n } }
    else { s with tally := { t with storm := false, stormQuiet := 0 } }

/-- Reconcile the window that ends with its measured energy (R373, R374, R377, R405, R554). -/
def State.reconcile (s : State) (m : Nat) : State :=
  let t := s.tally
  let p : Rat := tget (fun _ => 0) t.ledger t.window + (t.leakNj + 180 * t.castSeen : Nat)
  let debt := min (max 0 (t.debt + (m : Rat) - (t.gross : Rat))) (10 * (t.gross : Rat))
  let s1 : State := { s with tally := { t with
    unpred := max 0 ((m : Rat) - p), debt := if t.debtClear then 0 else debt, debtClear := false, lastM := m
    energyNj := t.energyNj + m, ledger := tput (fun _ => 0) t.ledger t.window 0 } }
  let s2 := s1.bump .tally 0x148 ((t.energyNj + m) / 1000 - t.energyNj / 1000)
  if t.gross < m then s2.bump .tally 0x158 1 else s2

/-- The hottest diode result as a window begins: the latest results of fresh converters, and 95.0 °C for each stale one (R387, R388). -/
def State.hotSeed (s : State) : Int :=
  (List.range 20).foldl (fun v c =>
    if c ∈ s.tally.staleConv then max v 6080
    else ((s.conv c).latestAt.filter fun l => decide (l.1 < 32)).foldl (fun u l =>
      max u (toSigned 16 ((s.reg (.sense c) (0x200 + 8 * l.1)).field 0 16))) v) (-32768)

/-- The next window begins (R368, R372, R377, R387). -/
def State.nextWindow (s : State) : State :=
  { s with tally := { s.tally with
    window := s.tally.window + 1, gross := s.grossAllowance, forward := 0, a8 := 0, arrayFj := 0
    castSeen := s.castingAll, leakNj := 0, hotSeen := s.hotSeed } }

/-- TALLY_WINDOW_END (R368, R373, R581): device time reaches the end of the current window; while the hubs are not ready the tally
reconciles nothing. -/
def execTallyWindowEnd (measuredNj : Nat) (s : State) : Host.Outcome State Fault Refusal :=
  if s.pkg.phase.ready = false then .next s
  else
    let now := Config.tallyNs * (s.tally.window + 1)
    .next (((s.advanceTo now).reconcile measuredNj).heatWindow now).stormWindow.nextWindow

end Sys2Proof.Machine
end

