-- ==== Sys2Proof/Machine/Dispatch.lean ====
section
/-! DEFINITION. The one dispatch: what each command does to everything but the queue. -/
namespace Sys2Proof.Machine
open Sys2Proof

def exec (i : Instr) (s : State) : Host.Outcome State Fault Refusal :=
  match i with
  | .bell b => Sys2Proof.Machine.execBell b s
  | .quenchInterval die => Sys2Proof.Machine.execQuenchInterval die s
  | .forwardWindow w => Sys2Proof.Machine.execForwardWindow w s
  | .windowDelivery croft mould => Sys2Proof.Machine.execWindowDelivery croft mould s
  | .runPromotion p => Sys2Proof.Machine.execRunPromotion p s
  | .transposedWindow w => Sys2Proof.Machine.execTransposedWindow w s
  | .microBatchUpdate context items nextOffset => Sys2Proof.Machine.execMicroBatchUpdate context items nextOffset s
  | .checkpointDone context => Sys2Proof.Machine.execCheckpointDone context s
  | .probeVerdict croft mould columns packs => Sys2Proof.Machine.execProbeVerdict croft mould columns packs s
  | .standinCopyArrive croft mould column copy poisoned => Sys2Proof.Machine.execStandinCopyArrive croft mould column copy poisoned s
  | .gaugeConverterPass croft mould rowConverters high readings => Sys2Proof.Machine.execGaugeConverterPass croft mould rowConverters high readings s
  | .gaugeRunEnd croft mould => Sys2Proof.Machine.execGaugeRunEnd croft mould s
  | .castRowGroupEnd g => Sys2Proof.Machine.execCastRowGroupEnd g s
  | .castClose c => Sys2Proof.Machine.execCastClose c s
  | .padParityError place step => Sys2Proof.Machine.execPadParityError place step s
  | .storeParityError croft line word step => Sys2Proof.Machine.execStoreParityError croft line word step s
  | .flitParityError router link step => Sys2Proof.Machine.execFlitParityError router link step s
  | .footpathParityError router link => Sys2Proof.Machine.execFootpathParityError router link s
  | .detourFit die row => Sys2Proof.Machine.execDetourFit die row s
  | .mark croft => Sys2Proof.Machine.execMark croft s
  | .barrier die number members member => Sys2Proof.Machine.execBarrier die number members member s
  | .narrowRead die addr len epoch requester parityError => Sys2Proof.Machine.execNarrowRead die addr len epoch requester parityError s
  | .narrowWrite die addr epoch data requester context => Sys2Proof.Machine.execNarrowWrite die addr epoch data requester context s
  | .gatherWriteback die entry => Sys2Proof.Machine.execGatherWriteback die entry s
  | .leaseRequest resource holder termUs => Sys2Proof.Machine.execLeaseRequest resource holder termUs s
  | .leaseRenewal resource holder termUs => Sys2Proof.Machine.execLeaseRenewal resource holder termUs s
  | .leaseRelease resource holder => Sys2Proof.Machine.execLeaseRelease resource holder s
  | .leaseExpiry resource => Sys2Proof.Machine.execLeaseExpiry resource s
  | .attnExchangeArrival x => Sys2Proof.Machine.execAttnExchangeArrival x s
  | .kvWriteAck step layer => Sys2Proof.Machine.execKvWriteAck step layer s
  | .descriptorRun hub engine => Sys2Proof.Machine.execDescriptorRun hub engine s
  | .partialMerge hub qset => Sys2Proof.Machine.execPartialMerge hub qset s
  | .releaseTime hub qset => Sys2Proof.Machine.execReleaseTime hub qset s
  | .attnReq r => Sys2Proof.Machine.execAttnReq r s
  | .attnRsp hub tag status partials => Sys2Proof.Machine.execAttnRsp hub tag status partials s
  | .attnBusy hub tag => Sys2Proof.Machine.execAttnBusy hub tag s
  | .leaseRenew source storeEpoch pages => Sys2Proof.Machine.execLeaseRenew source storeEpoch pages s
  | .remoteRenewTimer store => Sys2Proof.Machine.execRemoteRenewTimer store s
  | .remoteRefExpiry holder => Sys2Proof.Machine.execRemoteRefExpiry holder s
  | .commonsLookup context => Sys2Proof.Machine.execCommonsLookup context s
  | .commonsEvict => Sys2Proof.Machine.execCommonsEvict s
  | .openSession w h b => Sys2Proof.Machine.execOpenSession w h b s
  | .prompt w h b => Sys2Proof.Machine.execPrompt w h b s
  | .generate w h b => Sys2Proof.Machine.execGenerate w h b s
  | .draft w h b => Sys2Proof.Machine.execDraft w h b s
  | .stop w h context => Sys2Proof.Machine.execStop w h context s
  | .cancel w h context => Sys2Proof.Machine.execCancel w h context s
  | .close w h context => Sys2Proof.Machine.execClose w h context s
  | .adapterLoad w h b => Sys2Proof.Machine.execAdapterLoad w h b s
  | .adapterVerified handle image => Sys2Proof.Machine.execAdapterVerified handle image s
  | .adapterDrop w h handle => Sys2Proof.Machine.execAdapterDrop w h handle s
  | .ingotStage w h b => Sys2Proof.Machine.execIngotStage w h b s
  | .ingotStageVerified image => Sys2Proof.Machine.execIngotStageVerified image s
  | .genSwitch w h generation => Sys2Proof.Machine.execGenSwitch w h generation s
  | .migrateOut w h b => Sys2Proof.Machine.execMigrateOut w h b s
  | .migrateIn w h b => Sys2Proof.Machine.execMigrateIn w h b s
  | .temper w h b => Sys2Proof.Machine.execTemper w h b s
  | .respRelease w ring v => Sys2Proof.Machine.execRespRelease w ring v s
  | .respCfg w ring v => Sys2Proof.Machine.execRespCfg w ring v s
  | .nextSeq w v => Sys2Proof.Machine.execNextSeq w v s
  | .sysRole v => Sys2Proof.Machine.execSysRole v s
  | .bellNs v => Sys2Proof.Machine.execBellNs v s
  | .partSize v => Sys2Proof.Machine.execPartSize v s
  | .dormantEnter v => Sys2Proof.Machine.execDormantEnter v s
  | .dormancyAck => Sys2Proof.Machine.execDormancyAck s
  | .warmReset v => Sys2Proof.Machine.execWarmReset v s
  | .warmResetReady => Sys2Proof.Machine.execWarmResetReady s
  | .packLoadGo v => Sys2Proof.Machine.execPackLoadGo v s
  | .packLoadClear v => Sys2Proof.Machine.execPackLoadClear v s
  | .memMode die v => Sys2Proof.Machine.execMemMode die v s
  | .patLoadGo die v image => Sys2Proof.Machine.execPatLoadGo die v image s
  | .patLoadUnload die v => Sys2Proof.Machine.execPatLoadUnload die v s
  | .loadComplete die epoch => Sys2Proof.Machine.execLoadComplete die epoch s
  | .fenceReq die v => Sys2Proof.Machine.execFenceReq die v s
  | .recastMould die v => Sys2Proof.Machine.execRecastMould die v s
  | .recastAll die v => Sys2Proof.Machine.execRecastAll die v s
  | .gaugeForce die v => Sys2Proof.Machine.execGaugeForce die v s
  | .histSel die v => Sys2Proof.Machine.execHistSel die v s
  | .leaseRevoke die v => Sys2Proof.Machine.execLeaseRevoke die v s
  | .tenantBudget tenant v => Sys2Proof.Machine.execTenantBudget tenant v s
  | .classLimit v => Sys2Proof.Machine.execClassLimit v s
  | .debtClear v => Sys2Proof.Machine.execDebtClear v s
  | .senseApply conv v => Sys2Proof.Machine.execSenseApply conv v s
  | .senseUrgent conv v => Sys2Proof.Machine.execSenseUrgent conv v s
  | .ringCfg conv v => Sys2Proof.Machine.execRingCfg conv v s
  | .ringRd conv v => Sys2Proof.Machine.execRingRd conv v s
  | .commonsPool v => Sys2Proof.Machine.execCommonsPool v s
  | .stackStage stack n v => Sys2Proof.Machine.execStackStage stack n v s
  | .stackInject stack v => Sys2Proof.Machine.execStackInject stack v s
  | .fuseRollback v => Sys2Proof.Machine.execFuseRollback v s
  | .lockAttest hub v => Sys2Proof.Machine.execLockAttest hub v s
  | .attestReportDone r => Sys2Proof.Machine.execAttestReportDone r s
  | .ownerTransfer hub v => Sys2Proof.Machine.execOwnerTransfer hub v s
  | .pubWrite hub v => Sys2Proof.Machine.execPubWrite hub v s
  | .pubRevoke hub v => Sys2Proof.Machine.execPubRevoke hub v s
  | .debugAuth hub v => Sys2Proof.Machine.execDebugAuth hub v s
  | .tokenBurnDone => Sys2Proof.Machine.execTokenBurnDone s
  | .domainJoin hub v => Sys2Proof.Machine.execDomainJoin hub v s
  | .domainLeave hub v => Sys2Proof.Machine.execDomainLeave hub v s
  | .tmuxSelect pin v => Sys2Proof.Machine.execTmuxSelect pin v s
  | .errStatusClear page v => Sys2Proof.Machine.execErrStatusClear page v s
  | .intrFifoRead tag => Sys2Proof.Machine.execIntrFifoRead tag s
  | .registerWrite phys width v => Sys2Proof.Machine.execRegisterWrite phys width v s
  | .rd8 u => Sys2Proof.Machine.execRd8 u s
  | .wr8 u => Sys2Proof.Machine.execWr8 u s
  | .rd64 u => Sys2Proof.Machine.execRd64 u s
  | .wr64 u data => Sys2Proof.Machine.execWr64 u data s
  | .pw64 u data => Sys2Proof.Machine.execPw64 u data s
  | .rsp module u => Sys2Proof.Machine.execRsp module u s
  | .rspd module u data => Sys2Proof.Machine.execRspd module u data s
  | .intr hub identity => Sys2Proof.Machine.execIntr hub identity s
  | .snoop hub line forWrite => Sys2Proof.Machine.execSnoop hub line forWrite s
  | .snoopRsp hub line dirty => Sys2Proof.Machine.execSnoopRsp hub line dirty s
  | .crd mod sender nonPosted posted => Sys2Proof.Machine.execCrd mod sender nonPosted posted s
  | .xfer mod step entry offset parityBad => Sys2Proof.Machine.execXfer mod step entry offset parityBad s
  | .completionTimeout module tag => Sys2Proof.Machine.execCompletionTimeout module tag s
  | .ucieRetrain mod txFailed rxFailed lostRequests lostResponses => Sys2Proof.Machine.execUcieRetrain mod txFailed rxFailed lostRequests lostResponses s
  | .bootDoorbell b => Sys2Proof.Machine.execBootDoorbell b s
  | .kyrokFlitReceive f => Sys2Proof.Machine.execKyrokFlitReceive f s
  | .kyrokCtrlFlit f => Sys2Proof.Machine.execKyrokCtrlFlit f s
  | .ctrlFlitSend port => Sys2Proof.Machine.execCtrlFlitSend port s
  | .laneRetire port lane => Sys2Proof.Machine.execLaneRetire port lane s
  | .kyrokForward port originated destination vl => Sys2Proof.Machine.execKyrokForward port originated destination vl s
  | .kyrokAuthDiscard port vl => Sys2Proof.Machine.execKyrokAuthDiscard port vl s
  | .joinHello port r => Sys2Proof.Machine.execJoinHello port r s
  | .joinReply r keyEpoch => Sys2Proof.Machine.execJoinReply r keyEpoch s
  | .domain newMember leaver newKey => Sys2Proof.Machine.execDomain newMember leaver newKey s
  | .joinTimeout => Sys2Proof.Machine.execJoinTimeout s
  | .keyEpochSwitch => Sys2Proof.Machine.execKeyEpochSwitch s
  | .kyrokBarrier number release source => Sys2Proof.Machine.execKyrokBarrier number release source s
  | .rreadReq source tag storeEpoch page first len => Sys2Proof.Machine.execRreadReq source tag storeEpoch page first len s
  | .rreadRsp port source tag status data poison => Sys2Proof.Machine.execRreadRsp port source tag status data poison s
  | .rreadTimeout tag => Sys2Proof.Machine.execRreadTimeout tag s
  | .migManifest m => Sys2Proof.Machine.execMigManifest m s
  | .migConfirm context tag => Sys2Proof.Machine.execMigConfirm context tag s
  | .migAbort context tag code => Sys2Proof.Machine.execMigAbort context tag code s
  | .migrationTimeout context => Sys2Proof.Machine.execMigrationTimeout context s
  | .blankPage stack page => Sys2Proof.Machine.execBlankPage stack page s
  | .sweepLine stack => Sys2Proof.Machine.execSweepLine stack s
  | .sweepLapAlarm stack => Sys2Proof.Machine.execSweepLapAlarm stack s
  | .stackFault stack => Sys2Proof.Machine.execStackFault stack s
  | .hubFault hub => Sys2Proof.Machine.execHubFault hub s
  | .coreFetchPoison stack die core line => Sys2Proof.Machine.execCoreFetchPoison stack die core line s
  | .dmaPoisonHalt hub channel sourcePage sourceAddr step => Sys2Proof.Machine.execDmaPoisonHalt hub channel sourcePage sourceAddr step s
  | .tallyWindowEnd measuredNj => Sys2Proof.Machine.execTallyWindowEnd measuredNj s
  | .sensorConversion conv value => Sys2Proof.Machine.execSensorConversion conv value s
  | .urgentResult conv value => Sys2Proof.Machine.execUrgentResult conv value s
  | .timeAlign skew reeveSkew => Sys2Proof.Machine.execTimeAlign skew reeveSkew s
  | .serviceStateEval => Sys2Proof.Machine.execServiceStateEval s
  | .pfailWarning lowNs => Sys2Proof.Machine.execPfailWarning lowNs s
  | .rstFall marksWritten => Sys2Proof.Machine.execRstFall marksWritten s
  | .start lowNs pcieRc entropyOk trained => Sys2Proof.Machine.execStart lowNs pcieRc entropyOk trained s
  | .railLoss standbyLost => Sys2Proof.Machine.execRailLoss standbyLost s
  | .railsRemoved standbyKept => Sys2Proof.Machine.execRailsRemoved standbyKept s
  | .wake lowNs => Sys2Proof.Machine.execWake lowNs s
  | .slotTableParityError router => Sys2Proof.Machine.execSlotTableParityError router s
  | .kyrokPortTrained port lanes peerPackage peerPort => Sys2Proof.Machine.execKyrokPortTrained port lanes peerPackage peerPort s

end Sys2Proof.Machine
end

