-- ==== Sys2Proof/Machine/Step.lean ====
section
/-!
DEFINITION. One step of the block: the command at the front of the queue takes effect; with nothing waiting the block idles
and device time counts one nanosecond (R29; log 6).
-/
namespace Sys2Proof.Machine

/-- The device time counter runs: while hubs answer, and through a warm reset (R32, R586). -/
def State.counting (s : State) : Bool := s.answers || s.pkg.phase == .warmReset

/-- The block with nothing to do: one nanosecond of device time, while its counter runs (R29, R32; log 6), and the scheduled transfers
that fall due in it (R228; log 55). -/
def State.idle (s : State) : State := if s.counting then (s.advanceTo (s.clock.time + 1)).allTransfers (s.clock.time + 1) else s

/-- One step. -/
def step (s : State) : Host.Outcome State Fault Refusal :=
  match s.pending with
  | [] => .next s.idle
  | c :: rest => exec c { s with pending := rest }

/-- The state with the command a table word spells put at the front of its queue; no row of the table gives bits, so no word
spells one. -/
def State.withFetchWord (s : State) (nbits w : Nat) : State :=
  match decodeTableWord nbits w with
  | some c => { s with pending := c :: s.pending }
  | none => s

end Sys2Proof.Machine
end

