-- ==== Sys2Proof/Safety.lean ====
section
/-!
DEFINITION. What statements about the block mean by a refused write, by a plain register write, by fuses within their counts, by a
gather buffer in order, by a stop that keeps what is not volatile, and by what acceptance does in an intake window.
-/
namespace Sys2Proof.Machine

/-- `t` differs from `s` in the register file alone, and there at no other address than those listed. -/
def OnlyRegs (s t : State) (addrs : List Nat) : Prop :=
  t = { s with regs := t.regs } ∧ ∀ a, a ∉ addrs → t.regAt a = s.regAt a

/-- The four registers of a page's error record, and the count of interrupts that found no room (R545, R548, R559). -/
def errorRegs (p : Page) : List Nat := [p.base + 0x020, p.base + 0x028, p.base + 0x030, p.base + 0x050, 0x4148]

/-- `t` is `s` with one more error in the record of page `p`: its first error sets the code, later ones only count, and nothing but
the record and the steward's interrupts moves (R547, R548). -/
def LoggedIn (s t : State) (p : Page) (c : Code) : Prop :=
  t = { s with regs := t.regs, stew := t.stew } ∧ (∀ a, a ∉ errorRegs p → t.regAt a = s.regAt a) ∧
  (if (s.reg p 0x020).field 32 8 = 0 then (t.reg p 0x020).field 32 8 = c.num ∧ (t.reg p 0x020).field 0 32 = 1
   else (t.reg p 0x020).field 32 8 = (s.reg p 0x020).field 32 8 ∧
     (t.reg p 0x020).field 0 32 = min ((s.reg p 0x020).field 0 32 + 1) 0xFFFFFFFF)

/-- `c` at state `s` is refused: the block goes on, and the error record of page `p` takes code `e` (R41, R548). -/
def Refused (c : Instr) (s : State) (p : Page) (e : Code) : Prop := ∃ t, exec c s = .next t ∧ LoggedIn s t p e

/-- `s` with one non-posted credit of steward module `m` taken (R415). -/
def State.lessCredit (s : State) (m : Nat) : State := s.modUmod m fun y => { y with npCredits := y.npCredits - 1 }

/-- `t` holds one more completion than `s`: the answer `a` to the request `u`, at the module that owns its address, with the time of its hub (R414, R416, R420). -/
def Answered (s t : State) (u : UnitHead) (a : Answer) : Prop :=
  t.links.outstanding = s.links.outstanding ++ [{ module := s.moduleOf u.addr, tag := u.tag, answer := a, sentAt := s.hubTime (s.moduleOf u.addr) }]

/-- The line at package-wide address `a` holds `data` in `t`, under `key` and with the poison marker when it is poisoned; every other
byte and every other line's code is that of `s` (R461). -/
def LineWritten (s t : State) (a key : Nat) (data : List (BitVec 8)) (poison : Bool) : Prop :=
  (∀ i, i < 64 → t.hbm.mem.get (a + i) = (data[i]?).getD 0) ∧
  (∀ x, x < a ∨ a + 64 ≤ x → t.hbm.mem.get x = s.hbm.mem.get x) ∧
  t.lineCode (a / 64) = { marker := if poison then .poison else .clean, flips := 0, key := key, version := s.keyVersion key } ∧
  ∀ l, l ≠ a / 64 → t.lineCode l = s.lineCode l

/-- Array and record of mould `b` are those of `a`: what a mould keeps without power (R403, R583). -/
def Mould.SameRecord (a b : Mould) : Prop :=
  b.weights = a.weights ∧ b.witness = a.witness ∧ b.state = a.state ∧ b.slot = a.slot ∧ b.castCount = a.castCount ∧
  b.generation = a.generation ∧ b.failed = a.failed ∧ b.recastDue = a.recastDue ∧ b.spareMap = a.spareMap ∧ b.stats = a.stats ∧
  b.span = a.span

/-- `t` is `s` after its clocks or its power went: the array layer, the records, the lane records and fuses outside a burn are those of
`s`; registers, serving, memories, patterns and the tally are as a reset leaves them (R403, R564, R586). What happens to the mark cells
is not said here. -/
def Stopped (s t : State) : Prop :=
  (∀ n m, (s.mould n m).SameRecord (t.mould n m) ∧ (t.mould n m).cast = none ∧ (t.mould n m).standins = []) ∧
  (∀ n, (t.croft n).windows = [] ∧ (t.croft n).digest = (s.croft n).digest ∧ (t.croft n).generation = (s.croft n).generation ∧
    (t.croft n).castDate = (s.croft n).castDate ∧ (t.croft n).recordVersion = (s.croft n).recordVersion ∧
    (t.croft n).actPad = [] ∧ (t.croft n).psPad = [] ∧ (t.croft n).store = []) ∧
  (∀ d, (t.die d).padMap = (s.die d).padMap ∧ (t.die d).granMap = (s.die d).granMap ∧ (t.die d).pattern = none ∧
    (t.die d).granary = []) ∧
  t.pkg.timeBase = s.pkg.timeBase ∧ t.store.storeEpoch = s.store.storeEpoch ∧
  t.links.laneRetirements = s.links.laneRetirements ∧ (s.lock.burn = none → t.lock.fuses = s.lock.fuses) ∧
  t.pkg.role = 0 ∧ t.pkg.gen = {} ∧ t.serve = { marks := t.serve.marks } ∧ t.hbm.mem = [] ∧ t.hbm.lines = [] ∧ t.tally = {} ∧
  t.sense = [] ∧ t.stew = {} ∧ t.pending = s.pending ∧
  t.reg .sys 0x120 = s.reg .sys 0x120 ∧ ∀ a, a ≠ Page.sys.base + 0x120 → t.regAt a = regReset a

/-- Every hub's mark cells of `t` are valid and hold the last accepted sequence number of each window of `s` (R348, R566). -/
def MarksTaken (s t : State) : Prop :=
  ∀ w, w < 16 → ∃ m : Marks, tget (fun _ => ({} : Marks)) t.serve.marks (w / 4) = m ∧ m.valid = true ∧
    tfind m.seqs w = some (s.win w).accepted

/-- Fuse counts within what the fuse block has: 128 rollback steps, 8 owner settings, 4 debug openings (R519, R535), also after the
burn in progress. -/
def State.fusesOk (s : State) : Prop :=
  s.lock.fuses.rollback ≤ 128 ∧ s.lock.fuses.ownerUsed ≤ 8 ∧ s.lock.fuses.debugUsed ≤ 4 ∧
  ∀ b, s.lock.burn = some b → (b.kind = 1 → s.lock.fuses.ownerUsed < 8) ∧ (b.kind = 4 → s.lock.fuses.debugUsed < 4)

/-- Fuses of `t` hold every setting that those of `s` hold: fuses are burnt and never restored (R509). -/
def Fuses.keeps (s t : Fuses) : Prop :=
  s.rollback ≤ t.rollback ∧ s.ownerUsed ≤ t.ownerUsed ∧ s.debugUsed ≤ t.debugUsed ∧ (∀ i ∈ s.pubRevoked, i ∈ t.pubRevoked) ∧
  ∀ i, (tfind s.publishers i).isSome → (tfind t.publishers i).isSome

/-- The gather buffer of a die holds at most one entry for a slice-row, and an entry at most one byte for each offset of its row (R197). -/
def Die.gatherOk (x : Die) : Prop :=
  (x.gather.map (·.row)).Nodup ∧ ∀ e ∈ x.gather, (e.bytes.map (·.1)).Nodup ∧ ∀ b ∈ e.bytes, b.1 < 512

/-- The last answer of a resource's grantor: of a slice the reeve, of any other the hub's scheduler (R258, R484). -/
def State.leaseAnswer (s : State) : Leased → Reply
  | .slice d _ => (s.die d.val).reply
  | .engine h _ => (s.hub h.val).grant
  | .channel h _ => (s.hub h.val).grant
  | .tableLock h => (s.hub h.val).grant
  | .commonsLock => (s.hub 0).grant

/-- The window, head and body that a command of the intake windows writes to its port (R328, R332). -/
def intakeOf : Instr → Option (Nat × CmdHead × Body)
  | .openSession w h b => some (w.val, h, .openS b)
  | .prompt w h b => some (w.val, h, .prompt b)
  | .generate w h b => some (w.val, h, .generate b)
  | .draft w h b => some (w.val, h, .draft b)
  | .stop w h x => some (w.val, h, .stop x)
  | .cancel w h x => some (w.val, h, .cancel x)
  | .close w h x => some (w.val, h, .close x)
  | .adapterLoad w h b => some (w.val, h, .adapterLoad b)
  | .adapterDrop w h x => some (w.val, h, .adapterDrop x)
  | .ingotStage w h b => some (w.val, h, .ingotStage b)
  | .genSwitch w h g => some (w.val, h, .genSwitch g)
  | .migrateOut w h b => some (w.val, h, .migrateOut b)
  | .migrateIn w h b => some (w.val, h, .migrateIn b)
  | .temper w h b => some (w.val, h, .temper b)
  | _ => none

/-- The port of window `w` takes a write as a command: the package serves, its hub is not faulty, no debug opening is under way
(R347, R401, R542, R566, R570). -/
def State.portOpen (s : State) (w : Nat) : Prop :=
  s.pkg.phase = .service ∧ w / 4 ∉ s.pkg.hubFaulty ∧ s.serve.debugScope = none ∧ s.lock.burn.any (fun b => b.kind == 4) = false

/-- A command written to window `w` is decided at once: the port is open, the window is not spent, nothing waits ahead and the response
ring has a released slot (R329, R330). -/
def State.intakeOpen (s : State) (w : Nat) : Prop :=
  s.portOpen w ∧ (s.win w).spent = false ∧ (s.win w).queue = [] ∧ (s.win w).heldOutcomes = [] ∧ s.respFree w = true

/-- `s` once a command has entered window `w`'s queue and been taken from it. -/
def State.arrived (s : State) (w : Nat) (h : CmdHead) (b : Body) : State :=
  (s.modWin w fun x => { x with queue := x.queue ++ [(h, b)] }).modWin w fun x => { x with queue := [] }

/-- A command passes every check of R340, one after another: form, lengths, regions, state, role, the generation that pins it (`pin`),
its contents (`cont`), budget and room. -/
def State.passes (s : State) (w : Nat) (h : CmdHead) (b : Body) (pin : Option IngotRec) (cont : Contents) : Prop :=
  h.reservedSet = false ∧ formatOk b = true ∧
  s.lengthOk b = true ∧ (∀ e ∈ bodySpans b, s.checkRange e.1 e.2 ≠ some .length) ∧
  s.authOk b = true ∧ s.stateOk w b = true ∧ s.roleOk b = true ∧
  s.pinOf b = .ok pin ∧ (s.readContents b ((pin.map (·.vocab)).getD 0)).2 = .ok cont ∧
  s.budgetOk b = true ∧ s.busyOk w b = true

/-- A command with the expected number that passes every check of R340 as it is taken from the queue. -/
def State.accepts (s : State) (w : Nat) (h : CmdHead) (b : Body) (pin : Option IngotRec) (cont : Contents) : Prop :=
  s.intakeOpen w ∧ h.seq = (s.win w).nextSeq ∧ (s.arrived w h b).passes w h b pin cont

/-- From `s` to `t` window `w` has written one record to its response ring and nothing else of its rings has moved. -/
def OneRecord (s t : State) (w : Nat) : Prop :=
  ((t.win w).ring 0).produced = ((s.win w).ring 0).produced + 1 ∧ ((t.win w).ring 0).released = ((s.win w).ring 0).released ∧
  ((t.win w).ring 0).cfg = ((s.win w).ring 0).cfg ∧ (∀ n, n ≠ 0 → (t.win w).ring n = (s.win w).ring n) ∧ ∀ k, k ≠ w → t.win k = s.win k

/-- What acceptance of a command does in its window: it consumes its number, is journalled and awaits its outcome; one ACCEPT record is
written, and the hub's marks are no longer current (R331, R341, R342, R348). -/
def Accepted (s t : State) (w : Nat) (h : CmdHead) (b : Body) : Prop :=
  t.win w = { s.win w with
    decided := true, spent := decide (2 ^ 64 - 1 ≤ h.seq), nextSeq := min (h.seq + 1) (2 ^ 64 - 1), accepted := some h.seq,
    awaiting := (s.win w).awaiting + 1, journal := s.putJournal w (· ++ [(h.seq, b, 0)]) (s.win w).journal,
    rings := (t.win w).rings } ∧
  OneRecord s t w ∧ (tget (fun _ => ({} : Marks)) t.serve.marks (w / 4)).valid = false

/-- An accepted command of window `w` waits at the end of the queue of context `x`; no other context changes (R345). -/
def Joined (s t : State) (w : Nat) (h : CmdHead) (b : Body) (cont : Contents) (x : Nat) : Prop :=
  (∃ q, (t.sess x).queue = (s.sess x).queue ++ [q] ∧ q.window = w ∧ q.seq = h.seq ∧ q.cookie = h.cookie ∧ q.body = b ∧ q.out = none ∧
    q.tokens = cont.tokens) ∧ ∀ k, k ≠ x → t.sess k = s.sess k

end Sys2Proof.Machine
end

