-- ==== Sys2Proof/Certificates/Slice0/Obligations.lean ====
section
/-!
DEFINITION. The statements about the block, one `def Obligations.<Name> : Prop` each (OBLIGATIONS.json says which rules they state).
-/

open Sys2Proof Sys2Proof.Machine

/-- A step takes the command at the front of the queue and runs it with the queue's rest; with an empty queue a block whose device time counts
lets it count one nanosecond, with the scheduled transfers that fall due in it, of which a package without patterns has none, and any other
block stays as it is (R29, R32, R228; the idle step is the model's choice, logs 6 and 55). -/
def Obligations.StepRunsFrontCommand : Prop :=
  ∀ (s : State) (c : Instr) (rest : List Instr),
    (s.pending = c :: rest → step s = exec c { s with pending := rest }) ∧
    (s.pending = [] → s.counting = true →
      step s = .next ((s.advanceTo (s.clock.time + 1)).allTransfers (s.clock.time + 1)) ∧
      ((∀ d < 16, (s.die d).pattern = none) → step s = .next { s with clock := { s.clock with time := s.clock.time + 1 } })) ∧
    (s.pending = [] → s.counting = false → step s = .next s)

/-- The block right after reset: no command waits, the package is in reset with RST_N low, registers hold the values of their Reset columns,
no context, pattern or generation is in use, and the array is as delivered (chapters 01, 06, 08, 09, 14, 15; that moulds and fuses are as
delivered is the model's choice, log 2). -/
def Obligations.ResetState : Prop :=
  State.reset.pending = [] ∧ State.reset.pkg.phase = .inReset ∧ State.reset.pkg.rstLow = true ∧ State.reset.pkg.role = 0 ∧
  (State.reset.reg .sys 0x118).field 0 14 = 1500 ∧ (State.reset.reg .sys 0x120).field 0 4 = 4 ∧
  (State.reset.reg .tally 0x108).field 0 8 = 0x5A ∧ (State.reset.reg .tally 0x108).field 8 8 = 0x50 ∧
  (State.reset.reg .tally 0x108).field 16 8 = 0x46 ∧
  (∀ a, State.reset.regAt a = regReset a) ∧ (∀ x, (State.reset.sess x).st = .free) ∧ (∀ d, (State.reset.die d).pattern = none) ∧
  (∀ n m, (State.reset.mould n m).state = .blank ∧ (State.reset.mould n m).castCount = 0) ∧
  (∀ a, State.reset.hbm.mem.get a = 0) ∧ State.reset.pkg.gen.inService = none ∧ State.reset.fusesOk ∧ ∀ d, (State.reset.die d).gatherOk

/-- The effect of a command never reaches the queue of waiting commands: it ends in a state with the same queue, or in a fault or a refusal. -/
def Obligations.CommandsLeaveTheQueue : Prop :=
  ∀ (c : Instr) (s t : State), exec c s = .next t → t.pending = s.pending

/-- Every step keeps the fuse counts within what the fuse block has (128 rollback steps, 8 owner settings and 4 debug openings, also after the
burn in progress), and fuses are burnt and never restored: after the step they hold each setting they held before (R509, R519, R535). -/
def Obligations.FusesStayWithinTheirCounts : Prop :=
  ∀ s t : State, s.fusesOk → step s = .next t → t.fusesOk ∧ s.lock.fuses.keeps t.lock.fuses

/-- Every step keeps each die's gather buffer in order: at most one entry for a slice-row, and in an entry at most one byte for each offset of
its row (R197). -/
def Obligations.GatherBuffersStayInOrder : Prop :=
  ∀ s t : State, (∀ d, (s.die d).gatherOk) → step s = .next t → ∀ d, (t.die d).gatherOk

/-- Memory in canonical form: writing bytes, clearing a range and writing a line keep the form; a byte read back is the byte last written to
it, and every other byte reads as before (R461, R464). -/
def Obligations.MemoryReadsBackWhatIsWritten : Prop :=
  (∀ (m : Memory) (a : Nat) (bs : List Byte), m.wf = true → (m.setBytes a bs).wf = true ∧ (m.clear a bs.length).wf = true) ∧
  (∀ (m : Memory) (a b : Nat) (bs : List Byte), (m.setBytes a bs).get b = if b < a then m.get b else (bs[b - a]?).getD (m.get b)) ∧
  (∀ (m : Memory) (a n b : Nat), (m.clear a n).get b = if a ≤ b ∧ b < a + n then 0 else m.get b) ∧
  (∀ (s : State) (l key : Nat) (bs : List Byte), bs.length = 64 → (s.stack (l / 2147483648)).out = false →
    s.unclean (pageOf (64 * l)) = false →
    ((s.writeLine l key bs false).readLine l key).2 = ⟨bs, false⟩ ∧
    (∀ x, x < 64 * l ∨ 64 * l + 64 ≤ x → (s.writeLine l key bs false).hbm.mem.get x = s.hbm.mem.get x) ∧
    (s.hbm.mem.wf = true → (s.writeLine l key bs false).hbm.mem.wf = true))

/-- SYS.ROLE: a write of a code from 5 to 7 is refused with FORMAT, and one of a defined code with BUSY while a step is in flight, an entry of
the context table is in use or a GEN_SWITCH awaits its outcome; a refused write leaves the role; any other waits for the next bell, which
brings it into force (R22). -/
def Obligations.RoleWaitsForTheBell : Prop :=
  ∀ (s : State) (v : Word),
    (s.answers = true → v.field 0 3 ≤ 4 → s.serve.steps = [] → s.contextsInUse = false → s.pkg.gen.switch = none →
      exec (.sysRole v) s = .next { s with pkg := { s.pkg with rolePending := some (v.field 0 3) } }) ∧
    (s.answers = true → 4 < v.field 0 3 → Refused (.sysRole v) s .sys .format) ∧
    (s.answers = true → v.field 0 3 ≤ 4 → s.serve.steps ≠ [] ∨ s.contextsInUse = true ∨ s.pkg.gen.switch ≠ none →
      Refused (.sysRole v) s .sys .busy) ∧
    (∀ b, s.pkg.phase = .service ∨ s.pkg.phase = .entering ∨ s.pkg.phase = .powerFail →
      ∃ t, exec (.bell b) s = .next t ∧ t.pkg.role = s.pkg.rolePending.getD s.pkg.role ∧ t.pkg.rolePending = none)

/-- SYS.BELL_NS holds P in [13:0] and resets to 1,500; values outside 1,000 to 16,000 are refused with LENGTH, a write while any step is in
flight with BUSY, a value below the min_bell_ns of a loaded pattern with FORMAT; an accepted value takes effect at the next bell (R241). -/
def Obligations.BellPeriodIsChecked : Prop :=
  (State.reset.reg .sys 0x118).field 0 14 = 1500 ∧
  ∀ (s : State) (v : Word),
    (s.answers = true → 1000 ≤ v.field 0 14 → v.field 0 14 ≤ 16000 → s.serve.steps = [] →
      (∀ d < 16, ∀ i ∈ (s.die d).pattern, i.minBell ≤ v.field 0 14) →
      ∃ t, exec (.bellNs v) s = .next t ∧ OnlyRegs s t [Page.sys.base + 0x118] ∧ (t.reg .sys 0x118).field 0 14 = v.field 0 14) ∧
    (s.answers = true → v.field 0 14 < 1000 ∨ 16000 < v.field 0 14 → Refused (.bellNs v) s .sys .length) ∧
    (s.answers = true → 1000 ≤ v.field 0 14 → v.field 0 14 ≤ 16000 → s.serve.steps ≠ [] → Refused (.bellNs v) s .sys .busy) ∧
    (s.answers = true → 1000 ≤ v.field 0 14 → v.field 0 14 ≤ 16000 → s.serve.steps = [] →
      (∃ d, d < 16 ∧ ∃ i ∈ (s.die d).pattern, v.field 0 14 < i.minBell) → Refused (.bellNs v) s .sys .format) ∧
    (∀ b, s.pkg.phase = .service ∨ s.pkg.phase = .entering ∨ s.pkg.phase = .powerFail →
      ∃ t, exec (.bell b) s = .next t ∧ t.pkg.bellNs = (s.reg .sys 0x118).field 0 14 ∧
        t.clock.nextBell = s.clock.nextBell + t.pkg.bellNs)

/-- SYS.PART_SIZE lies in hub 0's mark cells: a write of 0 or 9 to 15 is refused with LENGTH whatever the role, one of 1 to 8 with BUSY unless
SYS.ROLE is 0; an accepted write changes the register alone, which is kept when the package stops, and the next cold start or wake takes
its value (R558). -/
def Obligations.PartSizeWaitsForTheNextStart : Prop :=
  ∀ (s : State) (v : Word) (ns : Nat) (b e : Bool) (l : List Training),
    (s.answers = true → 1 ≤ v.field 0 4 → v.field 0 4 ≤ 8 → s.pkg.role = 0 →
      ∃ t, exec (.partSize v) s = .next t ∧ OnlyRegs s t [Page.sys.base + 0x120] ∧ (t.reg .sys 0x120).field 0 4 = v.field 0 4) ∧
    (s.answers = true → v.field 0 4 = 0 ∨ 8 < v.field 0 4 → Refused (.partSize v) s .sys .length) ∧
    (s.answers = true → 1 ≤ v.field 0 4 → v.field 0 4 ≤ 8 → s.pkg.role ≠ 0 → Refused (.partSize v) s .sys .busy) ∧
    (s.pkg.phase ∉ [.off, .dormant, .tripped] →
      ∃ t, exec (.rstFall b) s = .next t ∧ t.reg .sys 0x120 = s.reg .sys 0x120 ∧ t.pkg.partGib = s.pkg.partGib) ∧
    (s.pkg.phase = .sleepAck →
      ∃ t, exec (.railsRemoved true) s = .next t ∧ t.reg .sys 0x120 = s.reg .sys 0x120 ∧ t.pkg.partGib = s.pkg.partGib) ∧
    (∃ t, exec (.railLoss true) s = .next t ∧ t.reg .sys 0x120 = s.reg .sys 0x120 ∧ t.pkg.partGib = s.pkg.partGib) ∧
    (s.pkg.phase ∈ [.inReset, .off, .dormant] → s.pkg.rstLow = true → 1000 ≤ ns →
      ∃ t, exec (.start ns b e l) s = .next t ∧ t.pkg.partGib = (s.reg .sys 0x120).field 0 4 ∧ t.reg .sys 0x120 = s.reg .sys 0x120)

/-- FUSE.ROLLBACK and the boot ROM: the boot ROM refuses a bundle whose security_version is below the fused count; a write must name count + 1
and no more than the running bundle's security_version, and burns one step; any other is refused with AUTH, and at 128 every write with
LOCKED (R519). -/
def Obligations.RollbackBurnsOneStep : Prop :=
  ∀ (s : State) (v : Word),
    (s.answers = true → s.lock.fuses.rollback < 128 → v.field 0 8 = s.lock.fuses.rollback + 1 → v.field 0 8 ≤ s.lock.securityVersion →
      ∃ t, exec (.fuseRollback v) s = .next t ∧ t.lock.fuses.rollback = s.lock.fuses.rollback + 1 ∧
        t = { s with lock := { s.lock with fuses := { s.lock.fuses with rollback := t.lock.fuses.rollback } } }) ∧
    (s.answers = true → s.lock.fuses.rollback < 128 → v.field 0 8 ≠ s.lock.fuses.rollback + 1 ∨ s.lock.securityVersion < v.field 0 8 →
      Refused (.fuseRollback v) s .fuse .auth) ∧
    (s.answers = true → 128 ≤ s.lock.fuses.rollback → Refused (.fuseRollback v) s .fuse .locked) ∧
    (∀ b : Bundle, s.pkg.phase = .starting → (s.readBundle b.addr b.length).2.securityVersion < s.lock.fuses.rollback →
      ∃ t, exec (.bootDoorbell b) s = .next t ∧ t.pkg.phase = .starting ∧ t.lock.lastCode ≠ 0 ∧
        t.lock = { s.lock with lastCode := t.lock.lastCode })

/-- The end of a tally window: with m the measured energy and p the window's ledger entry (its fixed charges for leakage and casts included),
unpred is m - p, at least 0, and debt is debt + m - g_w, at least 0 and at most 10 g_w, or 0 when a clear was written; the gross allowance
of the window that starts is the cap in W times 10,000 times 1, 3/4 or 1/4 by the thermal step as they stand then; and device time has
reached the window's end (R372, R373). -/
def Obligations.TallyWindowReconciles : Prop :=
  ∀ (s : State) (m : Nat), s.pkg.phase.ready = true →
    ∃ t, exec (.tallyWindowEnd m) s = .next t ∧
      t.tally.debt = (if s.tally.debtClear then 0
        else min (max 0 (s.tally.debt + m - s.tally.gross)) (10 * s.tally.gross)) ∧
      t.tally.unpred = max 0 ((m : Rat) - (tget (fun _ => 0) s.tally.ledger s.tally.window + (s.tally.leakNj + 180 * s.tally.castSeen : Nat))) ∧
      t.tally.lastM = m ∧ t.tally.window = s.tally.window + 1 ∧ t.tally.debtClear = false ∧
      (t.tally.step = 0 → t.tally.gross = s.capWatts * 10000) ∧
      (t.tally.step = 1 → t.tally.gross = s.capWatts * 10000 * 3 / 4) ∧
      (2 ≤ t.tally.step → t.tally.gross = s.capWatts * 10000 / 4) ∧
      (t.tally.step ≤ s.tally.step + 1 ∧ s.tally.step ≤ t.tally.step + 1) ∧
      t.clock.time = max s.clock.time (10000 * (s.tally.window + 1)) ∧
      t = { s with regs := t.regs, stew := t.stew, tally := t.tally, clock := { s.clock with time := t.clock.time } }

/-- The steward's interrupt queue: an INTR whose group is enabled enters the queue of 256 identities and raises the group's interrupt on its
target hart; one already in the queue is not entered again, and with the queue full it is counted in INTR_LOST instead; a read of
INTR_FIFO returns the oldest identity and removes that one alone, and zero when the queue is empty (R559). -/
def Obligations.InterruptsQueueAndAreRead : Prop :=
  ∀ (s : State) (m : HubId) (id : BitVec 16) (tag g : Nat), g = id.toNat / 0x1000 - 1 →
    (m.val ∉ s.pkg.hubFaulty → (s.reg .stew (0x100 + 8 * g)).bit 63 = true → id ∉ s.stew.fifo → s.stew.fifo.length < 256 →
      ∃ t, exec (.intr m id) s = .next t ∧ t.stew.fifo = s.stew.fifo ++ [id] ∧
        ((s.reg .stew (0x100 + 8 * g)).field 48 4, (s.reg .stew (0x100 + 8 * g)).field 0 11) ∈ t.stew.raised ∧
        t = { s with stew := t.stew }) ∧
    (m.val ∉ s.pkg.hubFaulty → (s.reg .stew (0x100 + 8 * g)).bit 63 = true → id ∈ s.stew.fifo →
      ∃ t, exec (.intr m id) s = .next t ∧ t.stew.fifo = s.stew.fifo ∧ t = { s with stew := t.stew }) ∧
    (m.val ∉ s.pkg.hubFaulty → (s.reg .stew (0x100 + 8 * g)).bit 63 = true → id ∉ s.stew.fifo → 256 ≤ s.stew.fifo.length →
      ∃ t, exec (.intr m id) s = .next t ∧ t.stew.fifo = s.stew.fifo ∧ t.reg .stew 0x148 = satAdd (s.reg .stew 0x148) 1) ∧
    (m.val ∉ s.pkg.hubFaulty → (s.reg .stew (0x100 + 8 * g)).bit 63 = false → exec (.intr m id) s = .next s) ∧
    (s.answers = true → 0 < (s.umod 0).npCredits → tag ≤ 255 →
      ∃ t, exec (.intrFifoRead tag) s = .next t ∧ t.stew.fifo = s.stew.fifo.tail ∧ t.stew.raised = s.stew.raised ∧
        (∀ i rest, s.stew.fifo = i :: rest → t.links.outstanding = s.links.outstanding ++
          [{ module := 0, tag := tag, answer := { data := leBytes 8 (2 ^ 63 + i.toNat) }, sentAt := s.clock.time }]) ∧
        (s.stew.fifo = [] → t.links.outstanding = s.links.outstanding ++
          [{ module := 0, tag := tag, answer := { data := leBytes 8 0 }, sentAt := s.clock.time }]) ∧
        t = { s with stew := t.stew, links := { s.links with modules := t.links.modules, outstanding := t.links.outstanding } })

/-- TIME_ALIGN sets how far the copies stand, whatever it is asked to set: no hub's copy is more than 2 ns and no reeve's more than 20 ns away
from the counter of hub 0, which it leaves as it is (R34, R35). START and BOOT_DOORBELL: a rising RST_N after 1 us low begins a start with
device time at zero, one more start counted, every window as the marks give it and the role 0; the boot ROM refuses a bundle with a code
and goes on waiting, and a good bundle with every stack in service and a sound entropy source brings the hubs up (R21, R32, R33, R331, R348,
R404, R510, R517, R562, R569). -/
def Obligations.TimeAndStarts : Prop :=
  (∀ (s : State) (a b : List Int),
     ∃ t, exec (.timeAlign a b) s = .next t ∧ t.clock.time = s.clock.time ∧ t = { s with clock := { s.clock with skew := a, reeveSkew := b } } ∧
       (∀ h, s.clock.time ≤ t.hubTime h + 2 ∧ t.hubTime h ≤ s.clock.time + 2) ∧
       (∀ d, s.clock.time ≤ t.reeveTime d + 20 ∧ t.reeveTime d ≤ s.clock.time + 20)) ∧
  (∀ (s : State) (ns : Nat) (rc sound : Bool) (l : List Training) (b : Bundle),
     (s.pkg.phase ∈ [.inReset, .off, .dormant] → s.pkg.rstLow = true → 1000 ≤ ns → ∃ t, exec (.start ns rc sound l) s = .next t ∧
       t.pkg.phase = .starting ∧ t.clock.time = 0 ∧ t.pkg.timeBase = s.pkg.timeBase + 1 ∧ t.pkg.role = 0 ∧ t.pkg.pcieEndpoint = rc ∧
       t.pkg.rstLow = false ∧ (t.pkg.wake = true ↔ s.pkg.phase = .dormant ∧ s.pkg.pwrreqLow = true) ∧
       t.pkg.partGib = (s.reg .sys 0x120).field 0 4 ∧ t.store.storeEpoch = s.store.storeEpoch + 1 ∧ t.lock.entropyOk = sound ∧
       (∀ n m, (s.mould n m).SameRecord (t.mould n m)) ∧ t.serve.sessions = [] ∧ t.serve.steps = [] ∧ t.hbm.mem = [] ∧
       (s.lock.burn = none → t.lock.fuses = s.lock.fuses) ∧
       (∀ w, w < 16 → t.win w = (tget (fun _ => ({} : Marks)) s.serve.marks (w / 4)).window w)) ∧
     (s.pkg.phase ∈ [.inReset, .off, .dormant] → s.pkg.rstLow = true → ns < 1000 → ∃ t, exec (.start ns rc sound l) s = .next t ∧
       t.pkg.phase = .inReset ∧ t.pkg.rstLow = false ∧ Stopped s t) ∧
     (s.pkg.phase = .starting → ∀ h, h = (s.readBundle b.addr b.length).2 →
       ∀ m, m = (s.readBundle b.addr b.length).1.bundleImages b.addr h →
       (b.length < h.needed → exec (.bootDoorbell b) s = .next { m.1 with lock := { m.1.lock with lastCode := Code.length.num } }) ∧
       (h.needed ≤ b.length → signed s.pkg.rom.firmware ['F', 'W'] h.bytes h.signature = false →
         exec (.bootDoorbell b) s = .next { m.1 with lock := { m.1.lock with lastCode := Code.auth.num } }) ∧
       (h.needed ≤ b.length → signed s.pkg.rom.firmware ['F', 'W'] h.bytes h.signature = true →
         (h.wellFormed s.pkg.dieRevision = false →
           exec (.bootDoorbell b) s = .next { m.1 with lock := { m.1.lock with lastCode := Code.format.num } }) ∧
         (h.wellFormed s.pkg.dieRevision = true → h.securityVersion < s.lock.fuses.rollback ∨ m.2 = false →
           exec (.bootDoorbell b) s = .next { m.1 with lock := { m.1.lock with lastCode := Code.auth.num } }) ∧
         (h.wellFormed s.pkg.dieRevision = true → s.lock.fuses.rollback ≤ h.securityVersion → m.2 = true →
           ∀ c, c = m.1.copyImages b.addr h →
           ((∃ k < 8, (c.stack k).out = true) ∨ c.lock.entropyOk = false → ∃ t, exec (.bootDoorbell b) s = .next t ∧ t.pkg.phase = .starting ∧
             t.lock.fwVerified = true ∧ t.lock.securityVersion = h.securityVersion ∧
             t = { c with lock := t.lock, hbm := { c.hbm with units := t.hbm.units } }) ∧
           (b.badStacks = [] → (∀ k < 8, (c.stack k).out = false) → c.lock.entropyOk = true → ∃ t, exec (.bootDoorbell b) s = .next t ∧
             t.pkg.phase = .service ∧ t.lock.fwVerified = true ∧ t.lock.ready = true ∧ t.lock.securityVersion = h.securityVersion ∧
             t.lock.firmwareDigest = h.digest ∧ (∀ k < 8, (t.stack k).unclean = []) ∧
             t.tally.window = windowOfTime s.clock.time)))) ∧
     (s.pkg.phase ≠ .starting → s.pkg.phase ≠ .warmReset → exec (.bootDoorbell b) s = .next s))

/-- SYS.PACK_LOAD: a go whose pack, read from memory, passes every check of a probe pack installs it as pending, one that fails a check is
refused with that check's code, a clear is remembered for the next bell and drops a pending pack, and a write of both is refused with FORMAT;
nothing but the reading of the pack, its copy in the firmware areas, the register and the installation itself moves (R493, R494). TENANT.BUDGET, TALLY.CLASS_LIMIT and TALLY.DEBT_CLEAR:
what is written waits for the bell or the reconciliation that brings it into force, with the tenant's budget, the limits in force and the
debt as they were until then (R350, R382, R554); the first enable of a tenant draws its key (R511). -/
def Obligations.PackAndBudgetWrites : Prop :=
  (∀ (s : State) (v : Word), s.answers = true →
     (v.bit 0 = true → v.bit 1 = false →
       s.packFault (v.field 12 36 * 4096) (v.field 48 16) (s.readPack (v.field 12 36 * 4096)).2 = none →
       ∃ t, exec (.packLoadGo v) s = .next t ∧
         t.pkg.packPending = some {
           version := (s.readPack (v.field 12 36 * 4096)).2.version, entries := (s.readPack (v.field 12 36 * 4096)).2.entries } ∧
         t.pkg.packVersion = (s.readPack (v.field 12 36 * 4096)).2.version ∧
         t.pkg.packClear = false ∧ t.pkg.pack = s.pkg.pack ∧
         (∀ c, c = (s.readPack (v.field 12 36 * 4096)).1.copyPack (s.readPack (v.field 12 36 * 4096)).2 →
           t = { c with regs := t.regs, pkg := t.pkg } ∧ ∀ a, a ≠ Page.sys.base + 0x130 → t.regAt a = c.regAt a)) ∧
     (∀ e, v.bit 0 = true → v.bit 1 = false →
       s.packFault (v.field 12 36 * 4096) (v.field 48 16) (s.readPack (v.field 12 36 * 4096)).2 = some e →
       ∃ t, exec (.packLoadGo v) s = .next t ∧
         LoggedIn (if s.packUnread (v.field 12 36 * 4096) (v.field 48 16) = true then s else (s.readPack (v.field 12 36 * 4096)).1) t .sys e) ∧
     (v.bit 0 = true → v.bit 1 = true → Refused (.packLoadGo v) s .sys .format ∧ Refused (.packLoadClear v) s .sys .format) ∧
     (v.bit 0 = false → v.bit 1 = true →
       ∃ t, exec (.packLoadClear v) s = .next t ∧ t.pkg.packClear = true ∧ t.pkg.packPending = none ∧
         t.pkg.pack = s.pkg.pack ∧ t = { s with regs := t.regs, pkg := t.pkg } ∧
         (∀ a, a ≠ Page.sys.base + 0x130 → t.regAt a = s.regAt a))) ∧
  (∀ (s : State) (tn : Fin 4096) (v : Word), s.answers = true →
     (∃ t, exec (.tenantBudget tn v) s = .next t ∧
       (t.tenant tn.val).budget = (s.tenant tn.val).budget ∧ (t.tenant tn.val).balance = (s.tenant tn.val).balance ∧
       (∃ w, (t.tenant tn.val).next = some w ∧ w.bit 63 = v.bit 63 ∧ w.field 48 8 = v.field 48 8 ∧ w.field 40 8 = v.field 40 8 ∧
         w.field 20 20 = v.field 20 20 ∧ w.field 0 20 = v.field 0 20) ∧
       (∀ k, k ≠ tn.val → t.tenant k = s.tenant k) ∧
       (v.bit 63 = false ∨ (s.tenant tn.val).keyed = true → t.lock = s.lock) ∧
       (v.bit 63 = true → (s.tenant tn.val).keyed = false → t.lock = (s.renewKey (keyTenant tn.val)).lock) ∧
       (t.tenant tn.val).keyed = ((s.tenant tn.val).keyed || v.bit 63) ∧
       t = { s with serve := { s.serve with tenants := t.serve.tenants }, lock := t.lock }) ∧
     (v.field 0 8 ≤ 100 → v.field 8 8 ≤ v.field 0 8 → v.field 16 8 ≤ v.field 8 8 →
       ∃ t, exec (.classLimit v) s = .next t ∧ t.tally.limitsNext = some (v.field 0 8, v.field 8 8, v.field 16 8) ∧
         t = { s with regs := t.regs, tally := { s.tally with limitsNext := t.tally.limitsNext } } ∧
         (t.reg .tally 0x108).field 0 8 = v.field 0 8 ∧ (t.reg .tally 0x108).field 8 8 = v.field 8 8 ∧
         (t.reg .tally 0x108).field 16 8 = v.field 16 8 ∧
         (∀ a, a ≠ Page.tally.base + 0x108 → t.regAt a = s.regAt a)) ∧
     (100 < v.field 0 8 ∨ 100 < v.field 8 8 ∨ 100 < v.field 16 8 → Refused (.classLimit v) s .tally .length) ∧
     (v.field 0 8 ≤ 100 → v.field 8 8 ≤ 100 → v.field 16 8 ≤ 100 → v.field 0 8 < v.field 8 8 ∨ v.field 8 8 < v.field 16 8 →
       Refused (.classLimit v) s .tally .format) ∧
     (v.bit 0 = true → exec (.debtClear v) s = .next { s with tally := { s.tally with debtClear := true } }) ∧
     (v.bit 0 = false → exec (.debtClear v) s = .next s))

/-- SENSE.CTL, URGENT, RING_CFG and RING_RD of a converter: an accepted apply waits for the end of the conversion in progress, and on a
stopped converter its table is active at once; an urgent request joins the queue behind those not yet taken, and the ring's setting and read count take the written values; what the rules refuse
is refused with their code, and every refused urgent request is counted (R391, R392, R394, R395, R405). -/
def Obligations.SensorWritesTakeEffect : Prop :=
  ∀ (s : State) (c : Fin 20) (v : Word), s.answers = true →
    (1 ≤ v.field 4 7 → v.field 4 7 ≤ 64 → v.bit 2 = true → (∀ i < 32, ∃ e ∈ s.shadow c.val (v.field 4 7), e.1 = i) →
      ∃ t, exec (.senseApply c v) s = .next t ∧
        ((s.conv c.val).stopped = false ∨ (s.conv c.val).running.isSome = true →
          t.conv c.val = { s.conv c.val with applied := true }) ∧
        ((s.conv c.val).stopped = true → (s.conv c.val).running = none →
          t.conv c.val = { s.conv c.val with
            applied := false, active := s.shadow c.val (v.field 4 7), position := 0, stopped := !v.bit 0, lowPower := v.bit 1 }) ∧
        (∀ k, k ≠ c.val → t.conv k = s.conv k) ∧ t = { s with regs := t.regs, sense := t.sense } ∧
        (∀ a, a ≠ (Page.sense c.val).base + 0x010 → t.regAt a = s.regAt a)) ∧
    (v.field 4 7 = 0 ∨ 64 < v.field 4 7 → Refused (.senseApply c v) s (.sense c.val) .length) ∧
    (1 ≤ v.field 4 7 → v.field 4 7 ≤ 64 → v.bit 2 = true → (∃ i < 32, ∀ e ∈ s.shadow c.val (v.field 4 7), e.1 ≠ i) →
      Refused (.senseApply c v) s (.sense c.val) .format) ∧
    (v.field 0 6 ≤ 47 → ((s.conv c.val).urgent.filter fun e => !e.confirm).length < 4 →
      ∃ t, exec (.senseUrgent c v) s = .next t ∧ (t.conv c.val).running.isSome = true ∧
        (t.conv c.val).running.toList ++ (t.conv c.val).urgent =
          (s.conv c.val).running.toList ++ (s.conv c.val).urgent ++ [{ input := v.field 0 6 }] ∧
        (∀ k, k ≠ c.val → t.conv k = s.conv k) ∧ t = { s with sense := t.sense }) ∧
    (47 < v.field 0 6 →
      ∃ t, exec (.senseUrgent c v) s = .next t ∧ LoggedIn (s.bump (.sense c.val) 0x1B8 1) t (.sense c.val) .length) ∧
    (v.field 0 6 ≤ 47 → 4 ≤ ((s.conv c.val).urgent.filter fun e => !e.confirm).length →
      ∃ t, exec (.senseUrgent c v) s = .next t ∧ LoggedIn (s.bump (.sense c.val) 0x1B8 1) t (.sense c.val) .busy) ∧
    (v.field 28 4 ≤ 12 → (8 * v.field 3 21) % (8 * 2 ^ (4 + v.field 28 4)) = 0 →
      ∃ t, exec (.ringCfg c v) s = .next t ∧ (t.conv c.val).ringWr = 0 ∧ (t.conv c.val).ringRd = 0 ∧ (t.conv c.val).ring = [] ∧
        (t.reg (.sense c.val) 0x188).field 28 4 = v.field 28 4 ∧ (t.reg (.sense c.val) 0x188).field 3 21 = v.field 3 21 ∧
        (t.reg (.sense c.val) 0x188).bit 0 = v.bit 0 ∧ (∀ k, k ≠ c.val → t.conv k = s.conv k) ∧
        t = { s with regs := t.regs, sense := t.sense, stew := t.stew }) ∧
    (12 < v.field 28 4 ∨ (8 * v.field 3 21) % (8 * 2 ^ (4 + v.field 28 4)) ≠ 0 →
      Refused (.ringCfg c v) s (.sense c.val) .length) ∧
    ((s.conv c.val).ringRd ≤ v.toNat → v.toNat ≤ (s.conv c.val).ringWr →
      ∃ t, exec (.ringRd c v) s = .next t ∧ (t.conv c.val).ringRd = v.toNat ∧ (t.conv c.val).ringWr = (s.conv c.val).ringWr ∧
        (t.conv c.val).ring = (s.conv c.val).ring ∧ (∀ k, k ≠ c.val → t.conv k = s.conv k) ∧
        t = { s with regs := t.regs, sense := t.sense, stew := t.stew }) ∧
    ((s.conv c.val).ringWr < v.toNat → Refused (.ringRd c v) s (.sense c.val) .unfilled) ∧
    (v.toNat ≤ (s.conv c.val).ringWr → v.toNat < (s.conv c.val).ringRd → Refused (.ringRd c v) s (.sense c.val) .length)

/-- A conversion latches its result: LATEST_n holds the value, calibrated for its input, with the input and the urgent bit, and the conversion
is counted; an urgent result of the tally's own request decides the thermal step or drives THERMTRIP_N low (R386, R389, R390, R393, R568).
A result that a quick gauging check of the die waits for lets that check go on, and the conversion ends all the same (R397). -/
def Obligations.ConversionsLatchTheirResult : Prop :=
  ∀ (s : State) (c : Fin 20) (x : BitVec 16), s.pkg.phase.converts = true →
    (∀ e v, (s.conv c.val).active[(s.conv c.val).position]? = some e → e.1 < 48 → (s.conv c.val).stopped = false →
      (s.conv c.val).running = none → v = s.calibrated c.val e.1 x →
      (∃ t, exec (.sensorConversion c x) s = .next t ∧ t.clock = s.clock) ∧
      ((s.die c.val).quickDue = [] → ∃ t, exec (.sensorConversion c x) s = .next t ∧
        (t.reg (.sense c.val) (0x200 + 8 * e.1)).field 0 16 = v.toNat ∧ (t.reg (.sense c.val) (0x200 + 8 * e.1)).field 18 6 = e.1 ∧
        (t.reg (.sense c.val) (0x200 + 8 * e.1)).field 17 1 = 0 ∧
        t.reg (.sense c.val) 0x1A8 = satAdd (s.reg (.sense c.val) 0x1A8) 1 ∧
        (∀ i, i ≠ e.1 → i < 48 → t.reg (.sense c.val) (0x200 + 8 * i) = s.reg (.sense c.val) (0x200 + 8 * i)) ∧
        (∀ k, k ≠ c.val → t.conv k = s.conv k) ∧
        t = { s with regs := t.regs, sense := t.sense, stew := t.stew, tally := { s.tally with hotSeen := t.tally.hotSeen } })) ∧
    (∀ u v, (s.conv c.val).running = some u → u.input < 48 → v = s.calibrated c.val u.input x →
      ¬(u.confirm = true ∧ u.trip = true ∧ 7168 ≤ toSigned 16 v.toNat) →
      (∃ t, exec (.urgentResult c x) s = .next t ∧ t.clock = s.clock) ∧
      ((s.die c.val).quickDue = [] → ∃ t, exec (.urgentResult c x) s = .next t ∧
        (t.reg (.sense c.val) (0x200 + 8 * u.input)).field 0 16 = v.toNat ∧
        (t.reg (.sense c.val) (0x200 + 8 * u.input)).field 17 1 = 1 ∧
        t.reg (.sense c.val) 0x1B0 = satAdd (s.reg (.sense c.val) 0x1B0) 1 ∧
        (u.confirm = false → t.tally.step = s.tally.step) ∧
        (u.confirm = true → 6720 ≤ toSigned 16 v.toNat → t.tally.step = max s.tally.step 2) ∧
        (u.confirm = true → 6080 ≤ toSigned 16 v.toNat → toSigned 16 v.toNat < 6720 → t.tally.step = max s.tally.step 1) ∧
        (u.confirm = true → toSigned 16 v.toNat < 7168 → s.pkg.halting = false →
          (t.conv c.val).running = (s.conv c.val).urgent.head? ∧ (t.conv c.val).urgent = (s.conv c.val).urgent.tail) ∧
        (∀ k, k ≠ c.val → t.conv k = s.conv k) ∧
        t = { s with regs := t.regs, sense := t.sense, stew := t.stew, tally := t.tally })) ∧
    (∀ u v, (s.conv c.val).running = some u → v = s.calibrated c.val u.input x → u.confirm = true → u.trip = true →
      7168 ≤ toSigned 16 v.toNat →
      ∃ t, exec (.urgentResult c x) s = .next t ∧ t.pkg.phase = .tripped ∧ t.pkg.thermtripLow = true ∧
        ((s.die c.val).quickDue = [] → t.serve.marks = s.serve.marks ∧ t.links.laneRetirements = s.links.laneRetirements))

/-- COMMONS.POOL, STACK.STAGE_n and STACK.INJECT: an accepted pool size waits for the next bell; a region that is declared is taken out of the
pool and blanked before it is ready, one that is withdrawn goes back unclean; an injection inverts the low bits of the first data symbols
of one stored line and of nothing else (R314, R453, R454, R472). -/
def Obligations.StorageWritesTakeEffect : Prop :=
  ∀ (s : State) (k : StackId) (n : Fin 4) (v : Word), s.answers = true →
    (4 * v.field 0 24 ≤ s.poolPages → s.store.nodes = [] →
      ∃ t, exec (.commonsPool v) s = .next t ∧ t.store.commonsNext = some (v.field 0 24) ∧ t.store.nodePages = s.store.nodePages ∧
        t = { s with regs := t.regs, store := { s.store with commonsNext := t.store.commonsNext } }) ∧
    (s.poolPages < 4 * v.field 0 24 → Refused (.commonsPool v) s .commons .length) ∧
    (4 * v.field 0 24 ≤ s.poolPages → s.store.nodes ≠ [] → Refused (.commonsPool v) s .commons .busy) ∧
    (v.bit 63 = true → s.stageFault k.val n.val v = none → tfind (s.stack k.val).staging n.val = none →
      ∃ t, exec (.stackStage k n v) s = .next t ∧
        tfind (t.stack k.val).staging n.val = some (v.field 0 21, v.field 32 24) ∧
        (∀ p, v.field 0 21 ≤ p → p < v.field 0 21 + v.field 32 24 → inIntervals (t.stack k.val).unclean p = true) ∧
        (t.stack k.val).stageReady = (s.stack k.val).stageReady ∧ (∀ j, j ≠ k.val → t.stack j = s.stack j) ∧
        t = { s with regs := t.regs, hbm := { s.hbm with units := t.hbm.units } }) ∧
    (∀ c, v.bit 63 = false → s.stageFault k.val n.val v = none → tfind (s.stack k.val).staging n.val = some c → 0 < c.2 →
      ∃ t, exec (.stackStage k n v) s = .next t ∧ tfind (t.stack k.val).staging n.val = none ∧ n.val ∉ (t.stack k.val).stageReady ∧
        (∀ p, c.1 ≤ p → p < c.1 + c.2 → inIntervals (t.stack k.val).unclean p = true) ∧ (∀ j, j ≠ k.val → t.stack j = s.stack j) ∧
        t = { s with regs := t.regs, hbm := { s.hbm with units := t.hbm.units } }) ∧
    (∀ c, s.stageFault k.val n.val v = none → tfind (s.stack k.val).staging n.val = some c → v.bit 63 = true →
      ∃ t, exec (.stackStage k n v) s = .next t ∧ t = { s with regs := t.regs }) ∧
    (s.stageFault k.val n.val v = none → tfind (s.stack k.val).staging n.val = none → v.bit 63 = false →
      ∃ t, exec (.stackStage k n v) s = .next t ∧ t = { s with regs := t.regs }) ∧
    (∀ e, s.stageFault k.val n.val v = some e → Refused (.stackStage k n v) s (.stack k.val) e) ∧
    (∀ b, 1 ≤ v.field 0 4 → v.field 0 4 ≤ 8 → v.bit 4 = true → target (v.field 6 42 * 64) = .aperture k.val b →
      s.apertureOk k.val b = true →
      ∃ t, exec (.stackInject k v) s = .next t ∧
        (∀ i, (t.lineCode ((k.val * Config.stackBytes + b) / 64)).flips.getLsbD i =
          ((s.lineCode ((k.val * Config.stackBytes + b) / 64)).flips.getLsbD i ^^ decide (i < v.field 0 4))) ∧
        (t.lineCode ((k.val * Config.stackBytes + b) / 64)).marker = (s.lineCode ((k.val * Config.stackBytes + b) / 64)).marker ∧
        (∀ l, l ≠ (k.val * Config.stackBytes + b) / 64 → t.lineCode l = s.lineCode l) ∧
        t = { s with hbm := { s.hbm with lines := t.hbm.lines } }) ∧
    (∀ b, 1 ≤ v.field 0 4 → v.field 0 4 ≤ 8 → v.bit 4 = false → target (v.field 6 42 * 64) = .aperture k.val b →
      s.apertureOk k.val b = true → exec (.stackInject k v) s = .next s) ∧
    (v.field 0 4 = 0 ∨ 8 < v.field 0 4 → Refused (.stackInject k v) s (.stack k.val) .length) ∧
    (1 ≤ v.field 0 4 → v.field 0 4 ≤ 8 → (∀ b, target (v.field 6 42 * 64) = .aperture k.val b → s.apertureOk k.val b = false) →
      Refused (.stackInject k v) s (.stack k.val) .auth)

/-- Blanking (R462, R464): every byte of an unclean page of a stack in service is zero afterwards, its lines decode as blank, whatever they
held, the page is no longer unclean, and no other page's bytes or lines change. The sweep (R465, R469 to R471): a line with one or two
symbols in error and no marker is written back corrected, an uncorrectable line is poisoned, any other line keeps its code; the position
moves on by a line and, past the last one, the lap counts; no byte changes, unless an uncorrectable line lies in a page that a prefix table
references, whose nodes go (R313). -/
def Obligations.BlankingAndSweeping : Prop :=
  (∀ (s : State) (k : StackId) (page : Nat),
     (page < Config.stackPages → (s.stack k.val).out = false → s.unclean (k.val * Config.stackPages + page) = true →
       ∃ t, exec (.blankPage k page) s = .next t ∧
         (∀ i < 65536, t.hbm.mem.get ((k.val * Config.stackPages + page) * 65536 + i) = 0) ∧
         (∀ i < 1024, ∀ d, (t.lineCode ((k.val * Config.stackPages + page) * 1024 + i)).decode d = .blank) ∧
         t.unclean (k.val * Config.stackPages + page) = false ∧
         (∀ a, a / 65536 ≠ k.val * Config.stackPages + page → t.hbm.mem.get a = s.hbm.mem.get a) ∧
         (∀ l, l / 1024 ≠ k.val * Config.stackPages + page → t.lineCode l = s.lineCode l) ∧
         (∀ p, p ≠ k.val * Config.stackPages + page → t.unclean p = s.unclean p) ∧
         t = { s with regs := t.regs, hbm := t.hbm }) ∧
     (Config.stackPages ≤ page ∨ (s.stack k.val).out = true ∨ s.unclean (k.val * Config.stackPages + page) = false → exec (.blankPage k page) s = .next s)) ∧
  (∀ (s : State) (k : StackId) (l : Nat), l = (k.val * Config.stackBytes + (s.stack k.val).sweepPos) / 64 →
     (s.sweeping k.val = true →
       ∃ t, exec (.sweepLine k) s = .next t ∧
         (s.unclean (pageOf (k.val * Config.stackBytes + (s.stack k.val).sweepPos)) = true → t.lineCode l = s.lineCode l) ∧
         (s.unclean (pageOf (k.val * Config.stackBytes + (s.stack k.val).sweepPos)) = false →
           ((s.lineCode l).errors ≤ 2 → (s.lineCode l).marker = .clean → t.lineCode l = { s.lineCode l with flips := 0 }) ∧
           ((s.lineCode l).errors ≤ 2 → (s.lineCode l).marker ≠ .clean → t.lineCode l = s.lineCode l) ∧
           (3 ≤ (s.lineCode l).errors → (s.lineCode l).errors ≤ 6 →
             ∀ i n p, tfind s.store.nodes i = some n → tfind s.store.prefixes n.prefixTable = some p →
               (∃ e ∈ p.entries, e.2 = .page (l / 1024)) → tfind t.store.nodes i = none)) ∧
         ((s.lineCode l).errors ≤ 2 ∨ (∀ p ∈ s.store.prefixes, ∀ e ∈ p.2.entries, e.2 ≠ .page (l / 1024)) →
           (∀ j, j ≠ l → t.lineCode j = s.lineCode j) ∧
           (s.unclean (pageOf (k.val * Config.stackBytes + (s.stack k.val).sweepPos)) = false →
             3 ≤ (s.lineCode l).errors → (s.lineCode l).errors ≤ 6 → (t.lineCode l).marker = .poison) ∧
           t = { s with fresh := t.fresh, regs := t.regs, stew := t.stew, hbm := { t.hbm with mem := s.hbm.mem } }) ∧
         ((s.stack k.val).sweepPos + 64 < Config.stackBytes →
           (t.stack k.val).sweepPos = (s.stack k.val).sweepPos + 64 ∧ (t.stack k.val).laps = (s.stack k.val).laps) ∧
         (Config.stackBytes ≤ (s.stack k.val).sweepPos + 64 →
           (t.stack k.val).sweepPos = 0 ∧ (t.stack k.val).laps = min 0xFFFF ((s.stack k.val).laps + 1))) ∧
     (s.sweeping k.val = false → exec (.sweepLine k) s = .next s))

/-- A lap that passes limit_ms enters TIMEOUT once (R470, R471); a failed stack delivers poison and drops writes (R478); a hub that fails
drops the commands no window has decided, has each session of its own end at the next bell and ends the slice leases of its DMA channels
(R259, R347, R481, R585). Poison that an agent meets (R259, R467, R468, R484, R485): a control core whose code cannot be fetched from either stack of its hub
halts, and every lease it holds ends under a raised epoch, with the slice leases of the channels it held; a reeve whose code cannot be
fetched puts its die on the degraded pattern; a DMA channel that meets poison restarts under the next epoch, its slice leases end, and its
step fails with POISON; a poisoned fetch that the other stack can serve changes nothing but the counts. -/
def Obligations.AlarmsFaultsAndPoison : Prop :=
  (∀ (s : State), s.answers = true →
     (∀ (k : StackId) ms, s.lapLimit k.val = some ms → (s.stack k.val).lapAlarmed = false →
       (s.stack k.val).lapStart + 1000000 * ms < s.clock.time →
       ∃ t, exec (.sweepLapAlarm k) s = .next t ∧ (t.stack k.val).lapAlarmed = true ∧
         LoggedIn (s.modStack k.val fun x => { x with lapAlarmed := true }) t (.sweep k.val) .timeout ∧
         exec (.sweepLapAlarm k) t = .next t) ∧
     (∀ k : StackId, s.lapLimit k.val = none → exec (.sweepLapAlarm k) s = .next s) ∧
     (∀ k : StackId, ∃ t, exec (.stackFault k) s = .next t ∧ (t.stack k.val).out = true ∧ (∀ j, j ≠ k.val → t.stack j = s.stack j) ∧
       (∀ l key, l / 2147483648 = k.val → (t.readLine l key).2.poison = true) ∧
       (∀ l key bytes p, l / 2147483648 = k.val → (t.writeLine l key bytes p).hbm.mem = t.hbm.mem) ∧
       t.freeIn k.val = 0 ∧ t = { s with hbm := { s.hbm with units := t.hbm.units } }) ∧
     (∀ h : HubId, s.pkg.phase.ready = true → h.val ∉ s.pkg.hubFaulty →
       ∃ t, exec (.hubFault h) s = .next t ∧ t.pkg.hubFaulty = s.pkg.hubFaulty ++ [h.val] ∧
         (∀ x, (s.sess x).st ≠ .free → s.ownerHub x = h.val → t.sess x = { s.sess x with fenceDue := true }) ∧
         (∀ x, (s.sess x).st = .free ∨ s.ownerHub x ≠ h.val → t.sess x = s.sess x) ∧
         (∀ i < 4, (t.win (4 * h.val + i)).queue = []) ∧ (∀ w, w / 4 ≠ h.val → t.win w = s.win w) ∧
         (∀ (d : DieId) (j : SliceId) n, d.val / 4 = h.val → (s.leaseOf (.slice d j)).holder = .dma n → (t.leaseOf (.slice d j)).held = false)) ∧
     (∀ h : HubId, h.val ∈ s.pkg.hubFaulty → exec (.hubFault h) s = .next s)) ∧
  (∀ (s : State) (k : StackId) (d : DieId), s.answers = true →
     (∀ core line, s.mirrorServes k.val line = true → ∃ t, exec (.coreFetchPoison k d core line) s = .next t ∧ t = { s with regs := t.regs } ∧
       t.reg (.stack k.val) 0x148 = satAdd (s.reg (.stack k.val) 0x148) 1 ∧
       t.reg (.stack (2 * (k.val / 2) + (1 - k.val % 2))) 0x158 = satAdd (s.reg (.stack (2 * (k.val / 2) + (1 - k.val % 2))) 0x158) 1) ∧
     (∀ (c : Fin 16) line, s.mirrorServes k.val line = false → ∃ t, exec (.coreFetchPoison k d (some c) line) s = .next t ∧
       c.val ∈ (t.hub (k.val / 2)).coresHalted ∧
       (∀ r ∈ s.leasesOf (hubOfStack k) c, (t.leaseOf r).held = false ∧ (t.leaseOf r).epoch = (s.leaseOf r).epoch + 1) ∧
       (∀ n, Leased.channel (hubOfStack k) n ∈ s.leasesOf (hubOfStack k) c → ∀ (e : DieId) (j : SliceId), e.val / 4 = k.val / 2 →
         (s.leaseOf (.slice e j)).holder = .dma n → (t.leaseOf (.slice e j)).held = false)) ∧
     (∀ line, s.mirrorServes k.val line = false → ∃ t, exec (.coreFetchPoison k d none line) s = .next t ∧ (t.die d.val).degraded = true) ∧
     (∀ (h : HubId) ch page addr step, ∃ t, exec (.dmaPoisonHalt h ch page addr step) s = .next t ∧
       (t.leaseOf (.channel h ch)).epoch = (s.leaseOf (.channel h ch)).epoch + 1 ∧
       (∀ (e : DieId) (j : SliceId), e.val / 4 = h.val → (s.leaseOf (.slice e j)).holder = .dma ch → (t.leaseOf (.slice e j)).held = false) ∧
       (∀ y ∈ t.serve.steps, y.id = step → y.failed.isSome = true) ∧
       t = { s with
         regs := t.regs, stew := t.stew, serve := { s.serve with steps := t.serve.steps }
         store := { s.store with hubs := t.store.hubs }, dies := t.dies }))

/-- Fuse tokens (R508, R535, R536, R538): a token that passes every check begins the burn of its own kind with its own contents and changes no
fuse; the first check that fails refuses it, burns nothing, leaves the nonce, and its code is in last_code and in the page's error record;
hubs 1 to 3 refuse with AUTH. The order of the checks (R537, R538): a busy lockhouse, a token outside the steward partition, a bad format,
another device, nonce or sequence, a bad signature, a setting in the wrong state and a spent count are found in this order, each with its
code; an ownership token of a device without an owner needs the owner root's signature, a publisher token the owner's key, and a debug
token the debug key's signature. -/
def Obligations.TokensBeginTheirBurnInOrder : Prop :=
  (∀ (s : State) (v : Word), s.answers = true → v.bit 0 = true →
     (∀ c ∈ [Instr.ownerTransfer 0 v, .pubWrite 0 v, .pubRevoke 0 v, .debugAuth 0 v],
       (s.tokenFault (v.field 6 42 * 64) (v.field 48 16) (s.readToken (v.field 6 42 * 64) (v.field 48 16)).2 = none →
         ∃ t, exec c s = .next t ∧
           (∀ k, k = (s.readToken (v.field 6 42 * 64) (v.field 48 16)).2 → t.lock.burn = some {
             kind := k.kind, slot := k.slot, key := k.publisherKey, owner := k.newOwner, scope := k.scope }) ∧
           t = { (s.readToken (v.field 6 42 * 64) (v.field 48 16)).1 with regs := t.regs, lock := { s.lock with burn := t.lock.burn } } ∧
           ∀ a, a ≠ (Page.lock 0).base + 0x110 → t.regAt a = (s.readToken (v.field 6 42 * 64) (v.field 48 16)).1.regAt a) ∧
       (∀ e, s.tokenFault (v.field 6 42 * 64) (v.field 48 16) (s.readToken (v.field 6 42 * 64) (v.field 48 16)).2 = some e →
         ∃ t, exec c s = .next t ∧ t.lock = { s.lock with lastCode := e.num } ∧
           LoggedIn { (if s.tokenUnread (v.field 6 42 * 64) (v.field 48 16) = true then s
               else (s.readToken (v.field 6 42 * 64) (v.field 48 16)).1) with lock := t.lock } t (.lock 0) e)) ∧
     (∀ h : HubId, h ≠ 0 → Refused (.ownerTransfer h v) s (.lock h.val) .auth ∧ Refused (.pubWrite h v) s (.lock h.val) .auth ∧
       Refused (.pubRevoke h v) s (.lock h.val) .auth ∧ Refused (.debugAuth h v) s (.lock h.val) .auth)) ∧
  (∀ (s : State) (a n : Nat) (k : Token), n = 370 ∨ n = 484 →
     (s.lockBusy = true → s.tokenFault a n k = some .busy) ∧
     (s.lockBusy = false → s.inPartition a n = false → s.tokenFault a n k = some .auth) ∧
     (s.lockBusy = false → s.inPartition a n = true → (k.format ≠ 1 ∨ k.reservedZero = false ∨
         (k.kind ≠ 4 ∨ s.lock.fuses.ownerUsed = 0) ∧ n = 484 ∨ k.kind = 4 ∧ 0 < s.lock.fuses.ownerUsed ∧ n = 370) →
       s.tokenFault a n k = some .format) ∧
     (s.lockBusy = false → s.inPartition a n = true → s.tokenFormatOk k n = true →
       (k.device ≠ s.lock.fuses.deviceDigest ∨ k.nonce ≠ s.lock.nonce.toNat ∨
         k.kind = 1 ∧ k.sequence ≠ s.lock.fuses.ownerUsed ∨ k.kind = 4 ∧ k.sequence ≠ s.lock.fuses.debugUsed ∨
         k.kind = 1 ∧ s.lock.fuses.ownerUsed = 0 ∧ signed s.pkg.rom.ownerRoot ['T', 'O', 'K', 'E', 'N'] k.region k.signature1 = false ∨
         (k.kind = 2 ∨ k.kind = 3) ∧ natOf (shake256 k.ownerKey 32) ≠ s.lock.fuses.ownerDigest ∨
         (k.kind = 2 ∨ k.kind = 3) ∧ signed (natOf k.ownerKey) ['T', 'O', 'K', 'E', 'N'] k.region k.signature1 = false ∨
         k.kind = 4 ∧ signed s.pkg.rom.debug ['T', 'O', 'K', 'E', 'N'] k.region k.signature1 = false ∨
         n = 484 ∧ signed (natOf k.ownerKey) ['T', 'O', 'K', 'E', 'N'] k.region k.signature2 = false) →
       s.tokenFault a n k = some .auth) ∧
     (s.lockBusy = false → s.inPartition a n = true → s.tokenFormatOk k n = true → s.tokenFresh k = true → s.tokenSigned k n = true →
       (k.kind = 2 → (tfind s.lock.fuses.publishers k.slot).isSome = true → s.tokenFault a n k = some .state) ∧
       (k.kind = 3 → (tfind s.lock.fuses.publishers k.slot).isSome = false ∨ k.slot ∈ s.lock.fuses.pubRevoked →
         s.tokenFault a n k = some .state) ∧
       (k.kind = 4 → s.pkg.role ≠ 0 ∨ s.contextsInUse = true → s.tokenFault a n k = some .state) ∧
       (k.kind = 1 → 8 ≤ s.lock.fuses.ownerUsed → s.tokenFault a n k = some .locked) ∧
       (k.kind = 4 → s.pkg.role = 0 → s.contextsInUse = false → 4 ≤ s.lock.fuses.debugUsed → s.tokenFault a n k = some .locked) ∧
       (k.kind = 1 → s.lock.fuses.ownerUsed < 8 → s.tokenFault a n k = none)))

/-- The end of a burn (R529, R535, R537, R538): the fuses hold the burn's own setting and every old one, and no other setting moves; the nonce
is a fresh random word; a revoked slot and an opening of debug are noted for the next bell; nothing but the lockhouse's interrupt follows,
and with no burn in progress nothing happens. -/
def Obligations.BurnDoneSetsTheFuses : Prop :=
  ∀ (s : State),
    (∀ b, s.lock.burn = some b →
      ∃ t, exec .tokenBurnDone s = .next t ∧ Fuses.keeps s.lock.fuses t.lock.fuses ∧
        (b.kind = 1 → t.lock.fuses = { s.lock.fuses with ownerUsed := s.lock.fuses.ownerUsed + 1, ownerDigest := b.owner }) ∧
        (b.kind = 2 → t.lock.fuses = { s.lock.fuses with publishers := t.lock.fuses.publishers } ∧
          ∀ i, tfind t.lock.fuses.publishers i = if i = b.slot then some b.key else tfind s.lock.fuses.publishers i) ∧
        (b.kind = 3 → t.lock.fuses = { s.lock.fuses with pubRevoked := t.lock.fuses.pubRevoked } ∧
          ∀ i, i ∈ t.lock.fuses.pubRevoked ↔ i = b.slot ∨ i ∈ s.lock.fuses.pubRevoked) ∧
        (b.kind = 4 → t.lock.fuses = { s.lock.fuses with debugUsed := s.lock.fuses.debugUsed + 1 }) ∧
        (b.kind = 0 ∨ 4 < b.kind → t.lock.fuses = s.lock.fuses) ∧
        (∀ i, i ∈ t.serve.revoked ↔ (b.kind = 3 ∧ i = b.slot) ∨ i ∈ s.serve.revoked) ∧
        t.serve.debugScope = (if b.kind = 4 then some b.scope else s.serve.debugScope) ∧
        t.lock = { s.lock with
          fuses := t.lock.fuses, burn := none, nonce := Config.randomWord s.lock.draws, draws := s.lock.draws + 1 } ∧
        t = { s with
          regs := t.regs, stew := t.stew, lock := t.lock
          serve := { s.serve with revoked := t.serve.revoked, debugScope := t.serve.debugScope } }) ∧
    (s.lock.burn = none → exec .tokenBurnDone s = .next s)

/-- LOCK.ATTEST and the end of a report (R530, R531): an accepted request waits for its snapshot, and its report, signed by the alias key, or
the certificate chain, when it fits, lies behind the caller's nonce in the steward partition with its length in LOCK.ATTEST_STATUS; one
that does not fit ends with LENGTH and writes nothing. -/
def Obligations.AttestationWritesItsReport : Prop :=
  ∀ (s : State) (v : Word) (r : ReportIn),
    (s.answers = true → v.bit 0 = true → v.field 48 14 ≠ 0 → v.field 62 2 ≤ 1 → s.inPartition (v.field 12 36 * 4096) (v.field 48 14 * 4096) = true →
      s.lockBusy = false →
      ∃ t, exec (.lockAttest 0 v) s = .next t ∧
        t.lock.attest = some { chain := v.bit 62, addr := v.field 12 36 * 4096, len := v.field 48 14 * 4096 } ∧
        (t.reg (.lock 0) 0x108).bit 63 = false ∧ t = { s with regs := t.regs, lock := { s.lock with attest := t.lock.attest } }) ∧
    (s.answers = true → ∀ h : HubId, h ≠ 0 → Refused (.lockAttest h v) s (.lock h.val) .auth) ∧
    (∀ a body out, s.lock.attest = some a → a.snap = some body → out = (if a.chain then r.bytes else s.signReport body) →
      64 + out.length ≤ a.len →
      ∃ t, exec (.attestReportDone r) s = .next t ∧ t.lock.attest = none ∧ t.hbm = (s.hostWrite (a.addr + 64) out).hbm ∧
        (t.reg (.lock 0) 0x108).field 63 1 = 1 ∧ (t.reg (.lock 0) 0x108).field 48 8 = 0 ∧
        (t.reg (.lock 0) 0x108).field 0 32 = out.length % 2 ^ 32) ∧
    (∀ a body out, s.lock.attest = some a → a.snap = some body → out = (if a.chain then r.bytes else s.signReport body) →
      a.len < 64 + out.length →
      ∃ t, exec (.attestReportDone r) s = .next t ∧ t.lock.attest = none ∧ t.lock.lastCode = Code.length.num ∧
        (t.reg (.lock 0) 0x108).field 48 8 = Code.length.num ∧ t.hbm = s.hbm ∧
        t = { s with regs := t.regs, stew := t.stew, lock := { s.lock with attest := none, lastCode := t.lock.lastCode } }) ∧
    (s.lock.attest = none → exec (.attestReportDone r) s = .next s)

/-- LOCK.DOMAIN (R443, R444, R508, R541): join at the root founds the domain with a random key of its own, and once that stands it makes a new key
under the next epoch (that host software asks for one in this way is the model's choice, log 37); join elsewhere sends JOIN_HELLO to the
root, with a fresh share and this package's report, and starts the 20 ms; leave is remembered for the next bell; a min_security above 128
is refused with LENGTH, a join while one is in progress with BUSY, and hubs 1 to 3 refuse with AUTH. -/
def Obligations.DomainRegisterStartsJoinAndLeave : Prop :=
  ∀ (s : State) (v : Word), s.answers = true →
    (v.field 16 8 ≤ 128 → v.bit 24 = true → v.bit 25 = false → v.field 0 8 ≠ v.field 8 8 →
      s.lock.domainState ≠ 1 → s.lock.domainState ≠ 4 →
      ∃ t m, exec (.domainJoin 0 v) s = .next t ∧ t.links.outbox = s.links.outbox ++ [m] ∧
        m.destination = v.field 8 8 ∧ m.type = 0x10 ∧ m.body = [v.field 0 8] ∧
        m.data = ({ s with regs := t.regs } : State).joinData (s.lock.drawBytes 7).1 [] [] ∧
        t.lock = { s.lock with
          domainState := 1, joinAt := s.clock.time, joinSecret := (s.lock.drawBytes 7).1, draws := s.lock.draws + 7 } ∧
        t = { s with regs := t.regs, lock := t.lock, links := { s.links with outbox := t.links.outbox } }) ∧
    (v.field 16 8 ≤ 128 → v.bit 24 = true → v.bit 25 = false → v.field 0 8 = v.field 8 8 →
      s.lock.domainState ≠ 1 → s.lock.domainState ≠ 3 → s.lock.domainState ≠ 4 →
      ∃ t, exec (.domainJoin 0 v) s = .next t ∧ t.lock = { s.lock with
          domainState := 3, members := [v.field 0 8], shared := [], keyEpoch := Config.firstEpoch % 2 ^ 32
          domainKey := natOf (s.lock.drawBytes 4).1, draws := s.lock.draws + 4 } ∧
        t = { s with regs := t.regs, lock := t.lock, links := { s.links with ports := t.links.ports } }) ∧
    (v.field 16 8 ≤ 128 → v.bit 24 = true → v.bit 25 = false → v.field 0 8 = v.field 8 8 → s.lock.domainState = 3 →
      ∃ t, exec (.domainJoin 0 v) s = .next t ∧ t.lock = { s.lock with
          domainKey := natOf (s.lock.drawBytes 4).1, keyEpoch := (s.lock.keyEpoch + 1) % 2 ^ 32, oldEpoch := some s.lock.keyEpoch
          oldKey := s.lock.domainKey, epochAt := s.clock.time, draws := s.lock.draws + 4 } ∧
        t = { s with regs := t.regs, lock := t.lock, links := { s.links with outbox := t.links.outbox } }) ∧
    (v.field 16 8 ≤ 128 → v.bit 24 = false → v.bit 25 = true →
      ∃ t, exec (.domainLeave 0 v) s = .next t ∧ t.lock.domainState = 4 ∧
        t = { s with regs := t.regs, lock := { s.lock with domainState := 4 } }) ∧
    (128 < v.field 16 8 → ∃ t, exec (.domainJoin 0 v) s = .next t ∧ t.lock.lastCode = Code.length.num ∧
      t.lock.domainState = s.lock.domainState) ∧
    (v.field 16 8 ≤ 128 → v.bit 24 = true → s.lock.domainState = 1 ∨ s.lock.domainState = 4 →
      ∃ t, exec (.domainJoin 0 v) s = .next t ∧ t.lock.lastCode = Code.busy.num ∧ t.lock.domainState = s.lock.domainState) ∧
    (∀ h : HubId, h ≠ 0 → Refused (.domainJoin h v) s (.lock h.val) .auth ∧ Refused (.domainLeave h v) s (.lock h.val) .auth)

/-- Joining (R443, R541, R543): a report meets the policy when Aeldoern's certificate covers it, its links verify, it names this owner, debug
is closed in it, and its security version reaches min_security. A root answers such a report with its own, a share, and the key wrapped
under the secret that the two shares make, and makes the package a member; the joiner opens the key once the root's report meets the policy
and takes the members that the reply names; any other report, and a key that does not open, is logged with AUTH and ends a join; and a
join that has not completed within 20 ms ends with AUTH. Membership and key epochs (R444): a new member joins the list, one that leaves
goes from it, and the root then makes a new random key under the next epoch; a member opens the root's new key and accepts the old epoch
beside it, under the old key; the switch ends that once 10 ms are over, and not before. -/
def Obligations.JoiningAndMembership : Prop :=
  (∀ (s : State) (p : PortId) (r : JoinReport) (ep : Nat),
     (r.certified = true → reportVerifies (nums r.report) = true → fieldAt (nums r.report) 224 32 = s.lock.fuses.ownerDigest →
       (fieldAt (nums r.report) 11 1).testBit 0 = false → (s.reg (.lock 0) 0x120).field 16 8 ≤ fieldAt (nums r.report) 148 4 →
       (s.lock.domainState = 3 → 2 ≤ (s.port p.val).state → ∀ z, z = x448 (s.lock.drawBytes 7).1 (nums r.share) →
         ∃ t m, exec (.joinHello p r) s = .next t ∧ m ∈ t.links.outbox ∧ m.destination = r.package.val ∧ m.type = 0x11 ∧
           m.body = [s.ownNumber, s.lock.keyEpoch] ∧
           m.data = ({ s with lock := (s.lock.drawBytes 7).2 } : State).joinData (s.lock.drawBytes 7).1 (wrapKey z s.lock.domainKey) t.lock.members ∧
           (∀ o ∈ s.links.outbox, o ∈ t.links.outbox) ∧
           (∀ i, i ∈ t.lock.members ↔ i = r.package.val ∨ i ∈ s.lock.members) ∧
           t.lock = { s.lock with
             members := t.lock.members, shared := tset s.lock.shared r.package.val z, draws := s.lock.draws + 7 } ∧
           t = { s with lock := t.lock, links := { s.links with outbox := t.links.outbox, ports := t.links.ports } }) ∧
       (s.lock.domainState = 1 → ∀ z, z = x448 s.lock.joinSecret (nums r.share) →
         (∀ k, openKey z (nums r.wrapped) = some k →
           ∃ t, exec (.joinReply r ep) s = .next t ∧
             (∀ i, i ∈ t.lock.members ↔ i = r.package.val ∨ i = s.ownNumber ∨ ∃ m ∈ r.members, m.val = i) ∧
             t.lock = { s.lock with
               domainState := 2, domainKey := k, keyEpoch := ep, oldEpoch := none, oldKey := 0, joinSecret := []
               shared := [(r.package.val, z)], members := t.lock.members } ∧
             t = { s with regs := t.regs, stew := t.stew, lock := t.lock, links := { s.links with ports := t.links.ports } }) ∧
         (openKey z (nums r.wrapped) = none →
           ∃ t, exec (.joinReply r ep) s = .next t ∧ t.lock.domainState = 0 ∧ t.lock.domainKey = s.lock.domainKey ∧
             t.lock.lastCode = Code.auth.num))) ∧
     (r.certified = false ∨ reportVerifies (nums r.report) = false ∨ fieldAt (nums r.report) 224 32 ≠ s.lock.fuses.ownerDigest ∨
         (fieldAt (nums r.report) 11 1).testBit 0 = true ∨ fieldAt (nums r.report) 148 4 < (s.reg (.lock 0) 0x120).field 16 8 →
       (s.lock.domainState = 3 → 2 ≤ (s.port p.val).state →
         ∃ t, exec (.joinHello p r) s = .next t ∧ t.lock = { s.lock with lastCode := Code.auth.num } ∧
           LoggedIn { s with lock := t.lock } t (.lock 0) .auth) ∧
       (s.lock.domainState = 1 →
         ∃ t, exec (.joinReply r ep) s = .next t ∧ t.lock.domainState = 0 ∧ t.lock.domainKey = s.lock.domainKey ∧
           t.lock.lastCode = Code.auth.num)) ∧
     (s.lock.domainState ≠ 3 ∨ (s.port p.val).state < 2 → exec (.joinHello p r) s = .next s) ∧
     (s.lock.domainState ≠ 1 → exec (.joinReply r ep) s = .next s) ∧
     (s.lock.domainState = 1 → s.lock.joinAt + 20000000 ≤ s.clock.time →
       ∃ t, exec .joinTimeout s = .next t ∧ t.lock = { s.lock with domainState := 0, lastCode := Code.auth.num } ∧
         t = { s with regs := t.regs, stew := t.stew, lock := t.lock, links := { s.links with ports := t.links.ports } }) ∧
     (s.lock.domainState ≠ 1 ∨ s.clock.time < s.lock.joinAt + 20000000 → exec .joinTimeout s = .next s)) ∧
  (∀ (s : State) (m : Fin 256) (k : List (BitVec 8) × Nat),
     (s.lock.domainState = 2 ∨ s.lock.domainState = 3 →
       (∃ t, exec (.domain (some m) none none) s = .next t ∧ (∀ i, i ∈ t.lock.members ↔ i = m.val ∨ i ∈ s.lock.members) ∧
         t.lock = { s.lock with members := t.lock.members } ∧
         t = { s with lock := t.lock, links := { s.links with ports := t.links.ports } }) ∧
       (∃ t, exec (.domain none (some m) none) s = .next t ∧
         (∀ i, i ∈ t.lock.members ↔ i ≠ m.val ∧ i ∈ s.lock.members) ∧
         (s.lock.domainState = 3 → t.lock = { s.lock with
           members := t.lock.members, domainKey := natOf (s.lock.drawBytes 4).1, keyEpoch := (s.lock.keyEpoch + 1) % 2 ^ 32
           oldEpoch := some s.lock.keyEpoch, oldKey := s.lock.domainKey, epochAt := s.clock.time, draws := s.lock.draws + 4 }) ∧
         (s.lock.domainState = 2 → t.lock = { s.lock with members := t.lock.members }) ∧
         t = { s with lock := t.lock, links := { s.links with ports := t.links.ports, outbox := t.links.outbox } })) ∧
     (s.lock.domainState = 2 →
       (∀ d, openKey ((tfind s.lock.shared s.rootNumber).getD []) (nums k.1) = some d →
         exec (.domain none none (some k)) s = .next { s with lock := { s.lock with
           domainKey := d, keyEpoch := k.2, oldEpoch := some s.lock.keyEpoch, oldKey := s.lock.domainKey, epochAt := s.clock.time } }) ∧
       (openKey ((tfind s.lock.shared s.rootNumber).getD []) (nums k.1) = none →
         ∃ t, exec (.domain none none (some k)) s = .next t ∧ t.lock = { s.lock with lastCode := Code.auth.num } ∧
           LoggedIn { s with lock := t.lock } t (.lock 0) .auth)) ∧
     (s.lock.domainState ≠ 2 → s.lock.domainState ≠ 3 → ∀ a b c, exec (.domain a b c) s = .next s) ∧
     (s.lock.epochAt + 10000000 ≤ s.clock.time →
       exec .keyEpochSwitch s = .next { s with lock := { s.lock with oldEpoch := none, oldKey := 0 } }) ∧
     (s.clock.time < s.lock.epochAt + 10000000 → exec .keyEpochSwitch s = .next s))

/-- A received flit (R430 to R433): its type is in bits 4 to 6 of its header and its VL in bit 7; one symbol in error in a codeword is corrected
and counted by the lane of its byte; unless the flit is idle or control it waits in the port's inbox, to be acknowledged and credited: by a
CTRL flit at once when NAK is due or 16 flits wait, else later. Two symbols in error in a codeword make the port discard until the far
sender's replay begins, and NAK is due. CTRL_FLIT_SEND sends what is due (R432): the count received, NAK and the credits, twice, and
clears what it reports; nothing that is not due is sent. A control flit that arrives (R430, R432, R434): with two equal copies, its count
in bytes 1 to 4 acknowledges kept flits up to those sent, and the credits in bytes 6 to 8 come back up to 224 and 32; what waits is sent
only while credits and the window of 128 unacknowledged flits allow it; with NAK, flits that are not counted are sent again. One whose
copies differ, or that comes before an awaited replay, is ignored. -/
def Obligations.FlitsAtAPort : Prop :=
  (∀ (s : State) (f : FlitIn) (x : Port), x = s.port f.port.val →
     (x.alive = true → x.discarding = false ∨ f.replay = true → f.errors = [] →
       1 ≤ f.header.toNat / 16 % 8 → f.header.toNat / 16 % 8 ≤ 4 →
       ∃ t, exec (.kyrokFlitReceive f) s = .next t ∧ (t.port f.port.val).received = x.received + 1 ∧
         (t.port f.port.val).discarding = false ∧
         (t.port f.port.val).inbox =
           x.inbox ++ [{ vl := f.header.toNat.testBit 7, kind := f.header.toNat / 16 % 8, payload := f.payload }] ∧
         (x.nakDue = false → x.unacked < 15 → x.owedVl0 + x.owedVl1 < 15 → (∀ t0, x.waitSince = some t0 → s.clock.time < t0 + 64) →
           (t.port f.port.val).unacked = x.unacked + 1 ∧
           (t.port f.port.val).owedVl0 = x.owedVl0 + b2n (!f.header.toNat.testBit 7) ∧
           (t.port f.port.val).owedVl1 = x.owedVl1 + b2n (f.header.toNat.testBit 7)) ∧
         (x.nakDue = true ∨ 15 ≤ x.unacked →
           (t.port f.port.val).unacked = 0 ∧ (t.port f.port.val).owedVl0 = 0 ∧ (t.port f.port.val).owedVl1 = 0 ∧
           (t.port f.port.val).nakDue = false ∧ (t.port f.port.val).ctrlSent.take 4 = leBytes 4 (x.received + 1)) ∧
         (∀ q, q ≠ f.port.val → t.port q = s.port q) ∧
         t = { s with fresh := s.fresh + 1, regs := t.regs, links := { s.links with ports := t.links.ports } }) ∧
     (x.alive = true → x.discarding = false ∨ f.replay = true → ∀ b, f.errors = [b] →
       ∃ t, exec (.kyrokFlitReceive f) s = .next t ∧
         tget (fun _ => 0) (t.port f.port.val).laneCorrected (x.laneOf b.val) = tget (fun _ => 0) x.laneCorrected (x.laneOf b.val) + 1 ∧
         t.reg (.kyrok f.port.val) 0x120 = satAdd (s.reg (.kyrok f.port.val) 0x120) 1 ∧
         (f.header.toNat / 16 % 8 = 0 ∨ 5 ≤ f.header.toNat / 16 % 8 →
           (t.port f.port.val).received = x.received ∧ (t.port f.port.val).inbox = x.inbox) ∧
         (1 ≤ f.header.toNat / 16 % 8 → f.header.toNat / 16 % 8 ≤ 4 → (t.port f.port.val).received = x.received + 1)) ∧
     (x.alive = true → x.discarding = false ∨ f.replay = true → ∀ a b, f.errors = [a, b] → a ≠ b → (128 ≤ a.val ↔ 128 ≤ b.val) →
       ∃ t, exec (.kyrokFlitReceive f) s = .next t ∧ t.port f.port.val = { x with discarding := true, nakDue := true } ∧
         (∀ q, q ≠ f.port.val → t.port q = s.port q) ∧ t = { s with fresh := s.fresh + 1, links := { s.links with ports := t.links.ports } }) ∧
     (x.alive = false ∨ (x.discarding = true ∧ f.replay = false) → exec (.kyrokFlitReceive f) s = .next s)) ∧
  (∀ (s : State) (p : PortId) (x : Port), x = s.port p.val →
     (x.alive = true → x.nakDue = true ∨ 16 ≤ x.unacked ∨ 16 ≤ x.owedVl0 + x.owedVl1 ∨ (∃ t0, x.waitSince = some t0 ∧ t0 + 64 ≤ s.clock.time) →
       ∃ t, exec (.ctrlFlitSend p) s = .next t ∧ (t.port p.val).ctrlSent.drop 8 = (t.port p.val).ctrlSent.take 8 ∧
         (t.port p.val).ctrlSent.take 8 = leBytes 4 x.received ++ leBytes 1 (b2n x.nakDue) ++ leBytes 2 x.owedVl0 ++ leBytes 1 x.owedVl1 ∧
         t.port p.val = { x with
           ctrlSent := (t.port p.val).ctrlSent, unacked := 0, owedVl0 := 0, owedVl1 := 0, nakDue := false, waitSince := none } ∧
         (∀ q, q ≠ p.val → t.port q = s.port q) ∧ t = { s with links := { s.links with ports := t.links.ports } }) ∧
     (x.alive = false ∨ (x.nakDue = false ∧ x.unacked < 16 ∧ x.owedVl0 + x.owedVl1 < 16 ∧ ∀ t0, x.waitSince = some t0 → s.clock.time < t0 + 64) →
       exec (.ctrlFlitSend p) s = .next s)) ∧
  (∀ (s : State) (f : CtrlFlit) (count vl0 vl1 : Nat) (nak : Bool),
     count < 2 ^ 32 → vl0 < 2 ^ 16 → vl1 < 2 ^ 8 →
     (f.bytes = leBytes 4 count ++ leBytes 1 (b2n nak) ++ leBytes 2 vl0 ++ leBytes 1 vl1 ++
         (leBytes 4 count ++ leBytes 1 (b2n nak) ++ leBytes 2 vl0 ++ leBytes 1 vl1) → (s.port f.port.val).alive = true →
       (s.port f.port.val).discarding = false →
       ((s.port f.port.val).waitVl0 = 0 → (s.port f.port.val).waitVl1 = 0 → (s.port f.port.val).acked ≤ count →
         count ≤ (s.port f.port.val).sent →
         ∃ t, exec (.kyrokCtrlFlit f) s = .next t ∧ (t.port f.port.val).acked = count ∧
           (t.port f.port.val).kept = (s.port f.port.val).kept.filter (fun e => decide (count ≤ e.2)) ∧
           (t.port f.port.val).creditsVl0 = min 224 ((s.port f.port.val).creditsVl0 + vl0) ∧
           (t.port f.port.val).creditsVl1 = min 32 ((s.port f.port.val).creditsVl1 + vl1) ∧
           (t.port f.port.val).sent = (s.port f.port.val).sent ∧
           (nak = false ∨ (t.port f.port.val).kept = [] → t.reg (.kyrok f.port.val) 0x128 = s.reg (.kyrok f.port.val) 0x128) ∧
           (nak = true → (t.port f.port.val).kept ≠ [] →
             t.reg (.kyrok f.port.val) 0x128 = satAdd (s.reg (.kyrok f.port.val) 0x128) 1) ∧
           (∀ q, q ≠ f.port.val → t.port q = s.port q)) ∧
       ((s.port f.port.val).kept.length ≤ 128 →
         ∃ t, exec (.kyrokCtrlFlit f) s = .next t ∧ (t.port f.port.val).kept.length ≤ 128 ∧
           (t.port f.port.val).creditsVl0 ≤ 224 ∧ (t.port f.port.val).creditsVl1 ≤ 32 ∧
           t = { s with regs := t.regs, links := { s.links with ports := t.links.ports } })) ∧
     ((s.port f.port.val).alive = false ∨ (s.port f.port.val).discarding = true ∨ f.bytes.take 8 ≠ f.bytes.drop 8 →
       exec (.kyrokCtrlFlit f) s = .next s))

/-- Lanes and ports (R428, R429, R443): a retired lane is recorded and leaves the width, and what was not acknowledged is replayed; with fewer
than six lanes the port is out of service; training brings in the lanes that trained and have not been retired twice, and the port serves
the domain when this package and the far one are members of it, and a join otherwise. -/
def Obligations.LanesRetireAndPortsTrain : Prop :=
  ∀ (s : State) (p : PortId) (lane : Fin 8) (n : Nat) (peer : Fin 256) (far : PortId),
    (lane.val ∈ (s.port p.val).lanes →
      ∃ t, exec (.laneRetire p lane) s = .next t ∧ lane.val ∉ (t.port p.val).lanes ∧
        (∀ l ∈ (s.port p.val).lanes, l ≠ lane.val → l ∈ (t.port p.val).lanes) ∧
        tget (fun _ => 0) t.links.laneRetirements (8 * p.val + lane.val) =
          tget (fun _ => 0) s.links.laneRetirements (8 * p.val + lane.val) + 1 ∧
        ((t.port p.val).outOfService = true ↔ (t.port p.val).lanes.length < 6) ∧ (∀ q, q ≠ p.val → t.port q = s.port q) ∧
        (6 ≤ (t.port p.val).lanes.length → (s.port p.val).kept ≠ [] →
          t.reg (.kyrok p.val) 0x128 = satAdd (s.reg (.kyrok p.val) 0x128) 1) ∧
        t = { s with regs := t.regs, links := { s.links with ports := t.links.ports, laneRetirements := t.links.laneRetirements } }) ∧
    (lane.val ∉ (s.port p.val).lanes → exec (.laneRetire p lane) s = .next s) ∧
    (s.answers = true →
      ∃ t, exec (.kyrokPortTrained p n peer far) s = .next t ∧
        (∀ l < 8, l ∈ (t.port p.val).lanes ↔
          n.testBit l = true ∧ tget (fun _ => 0) s.links.laneRetirements (8 * p.val + l) < 2) ∧
        (t.port p.val).peerPackage = peer.val ∧ (t.port p.val).peerPort = far.val ∧
        ((t.port p.val).outOfService = true ↔ (t.port p.val).lanes.length < 6) ∧
        ((t.port p.val).startFailed = true ↔ (t.port p.val).lanes.length < 6) ∧
        ((t.port p.val).lanes.length < 6 → (t.port p.val).state = 0) ∧
        (6 ≤ (t.port p.val).lanes.length → (t.port p.val).state =
          if 2 ≤ s.lock.domainState ∧ s.lock.domainState ≤ 3 ∧ peer.val ∈ s.lock.members then 3 else 2) ∧
        t = { s with links := { s.links with ports := t.links.ports } }) ∧
    (s.answers = false → exec (.kyrokPortTrained p n peer far) s = .next s)

/-- Messages at a port (R430, R433, R435, R437, R439, R441 to R444): of a message for this package that has come through its last flit, one whose tag
holds under the pair key of an accepted epoch, and whose counter is above the last, is accepted and decrypted, and keeps its counter; one whose
tag holds under none, whose counter is not above the last, or that comes before the port has joined, is discarded, counted and logged with
AUTH; one whose length runs past its flits, and a long VL1 message, with LENGTH; a join message is opened in clear. A message for another
package goes on, flit by flit, by its route, and with none is discarded and counted; one that this package originates takes its counter, is
encrypted and leaves in flits of 249 bytes; a barrier is held under its number and source. (That a flag of another VL is refused with
FORMAT is the model's choice, log 100.) -/
def Obligations.MessagesAreCheckedAndRouted : Prop :=
  (∀ (s : State) (p : PortId) (vl : Bool) (l : List Flit) (b : List Nat) (u : State),
     (s.port p.val).firstMessage vl = some l → b = messageBytes l → fieldAt b 6 1 = s.ownNumber → u = s.takeMessage p.val vl l →
     (badLength l vl = true → ∃ t, exec (.kyrokAuthDiscard p vl) s = .next t ∧ LoggedIn u t (.kyrok p.val) .length) ∧
     (badLength l vl = false → (fieldAt b 1 1).testBit 0 ≠ vl →
       ∃ t, exec (.kyrokAuthDiscard p vl) s = .next t ∧ LoggedIn u t (.kyrok p.val) .format) ∧
     (badLength l vl = false → (fieldAt b 1 1).testBit 0 = vl → joinType (fieldAt b 0 1) = true →
       exec (.kyrokAuthDiscard p vl) s = .next { u with links := { u.links with opened := some (p.val, b) } }) ∧
     (badLength l vl = false → (fieldAt b 1 1).testBit 0 = vl → joinType (fieldAt b 0 1) = false → ∀ src, src = fieldAt b 7 1 →
       (∀ e k, (e = s.lock.keyEpoch ∧ k = s.lock.domainKey) ∨ (s.lock.oldEpoch = some e ∧ k = s.lock.oldKey ∧
           s.clock.time < s.lock.epochAt + 10000000 ∧
           messageTag (pairKey s.lock.domainKey s.lock.keyEpoch src s.ownNumber) b ≠ slice b 48 16) →
         messageTag (pairKey k e src s.ownNumber) b = slice b 48 16 →
         (lastAcceptedCounter s.links.lastCounter src vl e < fieldAt b 8 8 → (s.port p.val).state ≠ 2 →
           ∃ t, exec (.kyrokAuthDiscard p vl) s = .next t ∧ lastAcceptedCounter t.links.lastCounter src vl e = fieldAt b 8 8 ∧
             (∀ src' x' e', (src', x', e') ≠ (src, vl, e) →
               lastAcceptedCounter t.links.lastCounter src' x' e' = lastAcceptedCounter s.links.lastCounter src' x' e') ∧
             t.links.opened = some (p.val, unsealMessage (pairKey k e src s.ownNumber) b) ∧
             t = { u with links := { u.links with lastCounter := t.links.lastCounter, opened := t.links.opened } }) ∧
         (fieldAt b 8 8 ≤ lastAcceptedCounter s.links.lastCounter src vl e ∨ (s.port p.val).state = 2 →
           ∃ t, exec (.kyrokAuthDiscard p vl) s = .next t ∧ LoggedIn (u.bump (.kyrok p.val) 0x110 1) t (.kyrok p.val) .auth)) ∧
       (messageTag (pairKey s.lock.domainKey s.lock.keyEpoch src s.ownNumber) b ≠ slice b 48 16 →
         (∀ e, s.lock.oldEpoch = some e → s.lock.epochAt + 10000000 ≤ s.clock.time ∨
           messageTag (pairKey s.lock.oldKey e src s.ownNumber) b ≠ slice b 48 16) →
         ∃ t, exec (.kyrokAuthDiscard p vl) s = .next t ∧ LoggedIn (u.bump (.kyrok p.val) 0x110 1) t (.kyrok p.val) .auth))) ∧
  (∀ (s : State) (p : PortId) (vl : Bool) (d : Fin 256) (l : List Flit) (b : List Nat) (u : State),
     (s.port p.val).firstMessage vl = some l → b = flitBytes l → u = s.takeMessage p.val vl l →
     (fieldAt b 6 1 = s.ownNumber → exec (.kyrokForward p false d vl) s = .next s) ∧
     (fieldAt b 6 1 ≠ s.ownNumber → badLength l vl = true →
       ∃ t, exec (.kyrokForward p false d vl) s = .next t ∧ LoggedIn u t (.kyrok p.val) .length) ∧
     (fieldAt b 6 1 ≠ s.ownNumber → badLength l vl = false → (s.port p.val).state = 2 → joinType (fieldAt b 0 1) = false →
       ∃ t, exec (.kyrokForward p false d vl) s = .next t ∧ LoggedIn (u.bump (.kyrok p.val) 0x110 1) t (.kyrok p.val) .auth) ∧
     (fieldAt b 6 1 ≠ s.ownNumber → badLength l vl = false → (s.port p.val).state ≠ 2 ∨ joinType (fieldAt b 0 1) = true →
       ∀ r, r = s.routeFor (joinType (fieldAt b 0 1)) (s.reg (.kyrok p.val) (0x400 + 8 * (fieldAt b 6 1 / 4))) (fieldAt b 6 1) →
       (r = none → exec (.kyrokForward p false d vl) s = .next (u.bump (.kyrok p.val) 0x130 1)) ∧
       (∀ q, r = some q →
         ∃ t, exec (.kyrokForward p false d vl) s = .next t ∧
           (t.port q).sent + (t.port q).waitVl0 + (t.port q).waitVl1 =
             (s.port q).sent + (s.port q).waitVl0 + (s.port q).waitVl1 + l.length ∧
           (∀ i, i ≠ q → i ≠ p.val → t.port i = s.port i) ∧ t = { s with links := { s.links with ports := t.links.ports } }))) ∧
  (∀ (s : State) (p : PortId) (vl : Bool) (d : Fin 256),
     ((s.port p.val).firstMessage vl = none →
       exec (.kyrokForward p false d vl) s = .next s ∧ exec (.kyrokAuthDiscard p vl) s = .next s) ∧
     ((∀ m ∈ s.links.outbox, ¬(m.destination = d.val ∧ typeVl1 m.type = vl)) → exec (.kyrokForward p true d vl) s = .next s) ∧
     (∀ m, s.links.outbox.find? (fun m => m.destination == d.val && typeVl1 m.type == vl) = some m →
       (s.routeFor (joinType m.type) (s.originWord d.val) d.val = none →
         ∃ t, exec (.kyrokForward p true d vl) s = .next t ∧ t.links.outbox = dropMsg d.val vl s.links.outbox ∧
           t.reg (.kyrok 0) 0x130 = satAdd (s.reg (.kyrok 0) 0x130) 1 ∧
           t = { s with regs := t.regs, links := { s.links with outbox := t.links.outbox } }) ∧
       (∀ q, s.routeFor (joinType m.type) (s.originWord d.val) d.val = some q →
         ∃ t, exec (.kyrokForward p true d vl) s = .next t ∧ t.links.outbox = dropMsg d.val vl s.links.outbox ∧
           t.links.sentCounter = countSent s.links.sentCounter d.val vl s.lock.keyEpoch ∧
           t.port q = Port.push s.clock.time (flitsOf vl (s.wire m (counterOf t.links.sentCounter d.val vl s.lock.keyEpoch))) (s.port q) ∧
           (∀ i, i ≠ q → t.port i = s.port i) ∧
           t = { s with links := { s.links with
             ports := t.links.ports, outbox := t.links.outbox, sentCounter := t.links.sentCounter } }))) ∧
  (∀ (s : State) (bn : Nat) (rel : Bool) (d : Fin 256),
     ∃ t, exec (.kyrokBarrier bn rel d) s = .next t ∧ (bn, d.val, rel) ∈ t.links.kyrokBarriers ∧
       (∀ e ∈ s.links.kyrokBarriers, e ∈ t.links.kyrokBarriers) ∧
       t = { s with links := { s.links with kyrokBarriers := t.links.kyrokBarriers } })

/-- A remote read (R293, R446): the bytes asked for go back when the request names the present store epoch, in the 16 bits that an entry keeps, and
lies within a page, poisoned when a line of them is; another store epoch is answered with EPOCH, a length of 0 or beyond the page with
LENGTH. A read that a timeout of RREAD_TO fails is issued again with the next tag of its hub while its migration's 100 ms last, and fails
the migration with TIMEOUT once they are over (R445, R447, R448). RREAD_RSP (R446): a response that matches no outstanding read by source
and tag, or that comes after its timeout, is discarded and counted; one that brings data in time writes it to the page it was asked for,
and that read is no longer outstanding; poison and EPOCH fail a migration. -/
def Obligations.RemoteReads : Prop :=
  (∀ (s : State) (src : Fin 256) (tag ep page first len : Nat),
     (ep % 65536 = s.store.storeEpoch % 65536 → 0 < len → first + len ≤ 65536 → page < 8 * Config.stackPages →
       ∃ t m, exec (.rreadReq src tag ep page first len) s = .next t ∧ t.links.outbox = s.links.outbox ++ [m] ∧
         m.destination = src.val ∧ m.type = 0x06 ∧
         m.body = [tag, if m.poison then Code.poison.num else 0] ∧
         (m.data, m.poison) = ((s.readBytes (page * 65536 + first) len (s.pageKey page)).2.bytes,
           (s.readBytes (page * 65536 + first) len (s.pageKey page)).2.poison) ∧
         t.serve = s.serve ∧ t.lock = s.lock ∧ t.clock = s.clock ∧
         (m.poison = false → t.hbm.mem = s.hbm.mem ∧ t.store = s.store)) ∧
     (ep % 65536 ≠ s.store.storeEpoch % 65536 →
       ∃ t, exec (.rreadReq src tag ep page first len) s = .next t ∧
         t.links.outbox = s.links.outbox ++ [{ destination := src.val, type := 0x06, body := [tag, Code.epoch.num] }] ∧
         t = { s with links := { s.links with outbox := t.links.outbox } }) ∧
     (ep % 65536 = s.store.storeEpoch % 65536 → len = 0 ∨ 65536 < first + len ∨ 8 * Config.stackPages ≤ page →
       ∃ t, exec (.rreadReq src tag ep page first len) s = .next t ∧
         t.links.outbox = s.links.outbox ++ [{ destination := src.val, type := 0x06, body := [tag, Code.length.num] }] ∧
         t = { s with links := { s.links with outbox := t.links.outbox } }) ∧
     (∀ r pk mt at_, s.links.rreads = [r] → r.tag = tag → (s.sess r.context).migration = some (pk, mt, at_) → r.sent + r.limit < s.clock.time →
       (s.clock.time < at_ + 100000000 →
         ∃ t r', exec (.rreadTimeout tag) s = .next t ∧ t.links.rreads = [r'] ∧ r'.tag = s.nextRread ((s.sess r.context).window / 4) ∧
           r'.page = r.page ∧ r'.package = r.package ∧ r'.context = r.context ∧ r'.sent = s.clock.time ∧ r'.dest = r.dest ∧
           r'.limit = 1000 * (s.reg (.kyrok ((s.originPort r.package).getD 0)) 0x108).field 0 20 ∧
           t.links.outbox = s.links.outbox ++ [{
             destination := r.package, type := 0x05, body := [r'.tag, r.epoch, r.page, r.first, r.len] }] ∧
           t = { s with links := t.links }) ∧
       (at_ + 100000000 ≤ s.clock.time →
         ∃ t, exec (.rreadTimeout tag) s = .next t ∧ t.links.rreads = [] ∧ (t.sess r.context).migFailed = some .timeout)) ∧
     (∀ r, s.links.rreads.find? (fun x => x.tag == tag) = some r → s.clock.time ≤ r.sent + r.limit → exec (.rreadTimeout tag) s = .next s)) ∧
  (∀ (s : State) (p : PortId) (src : Fin 256) (tag : Nat) (data : List (BitVec 8)),
     ((∀ r ∈ s.links.rreads, ¬(r.package = src.val ∧ r.tag = tag)) → ∀ st poison,
       exec (.rreadRsp p src tag st data poison) s = .next (s.bump (.kyrok p.val) 0x118 1)) ∧
     (∀ r, s.links.rreads.find? (fun x => x.package == src.val && x.tag == tag) = some r →
       (r.sent + r.limit < s.clock.time → ∀ st poison,
         exec (.rreadRsp p src tag st data poison) s = .next (s.bump (.kyrok p.val) 0x118 1)) ∧
       (s.clock.time ≤ r.sent + r.limit → r.first = 0 → data.length = 65536 →
         (s.stack (stackOfPage r.dest)).out = false → s.unclean r.dest = false →
         ∃ t, exec (.rreadRsp p src tag 0 data false) s = .next t ∧
           (∀ i < 65536, t.hbm.mem.get (r.dest * 65536 + i) = data.getD i 0) ∧
           (∀ a, a / 65536 ≠ r.dest → t.hbm.mem.get a = s.hbm.mem.get a) ∧
           t.links.rreads = s.links.rreads.erase r ∧
           (∀ n, tfind s.links.fetching r.context = some n →
             tfind t.links.fetching r.context = some (n - 1) ∧ t = { s with hbm := t.hbm, links := t.links }) ∧
           (tfind s.links.fetching r.context = none → (t.sess r.context).copies = (s.sess r.context).copies - 1 ∧
             t = { s with hbm := t.hbm, links := t.links, serve := { s.serve with sessions := t.serve.sessions } })) ∧
       (s.clock.time ≤ r.sent + r.limit → ∀ n, tfind s.links.fetching r.context = some n → (s.sess r.context).migration.isSome = true →
         (∃ t, exec (.rreadRsp p src tag 0 data true) s = .next t ∧ (t.sess r.context).migFailed = some .poison) ∧
         (∃ t, exec (.rreadRsp p src tag Code.epoch.num data false) s = .next t ∧ (t.sess r.context).migFailed = some .epoch))))

/-- Migration (R366, R367, R447): a manifest waits for the MIGRATE_IN of its source and tag, or is taken by it: the target's entry becomes the
source's session, its tokens, shape and position with it; without the generation or its kv_tag both sides fail with GENERATION_GONE. The
confirmation of its tag lets the source release the session at its next bell; an abort, and 100 ms without an end, fail it here, the latter
with an abort to the partner; at action 4 of the next bell (R349) a failed migration leaves the source's session open and releases the
target's entry. -/
def Obligations.MigrationEndsOnBothSides : Prop :=
  ∀ (s : State) (m : Manifest) (x tag : Nat) (c : Code),
    ((∀ e ∈ s.serve.sessions, (s.sess e.1).st ≠ .awaitingIn) →
      ∃ t, exec (.migManifest m) s = .next t ∧ (m, s.clock.time) ∈ t.links.manifests ∧
        (∀ e ∈ s.links.manifests, s.clock.time < e.2 + 100000000 → e ∈ t.links.manifests) ∧
        t = { s with links := { s.links with manifests := t.links.manifests } }) ∧
    (∀ v r at_, s.serve.sessions = [(x, v)] → v.st = .awaitingIn → v.migration = some (m.source.val, m.tag, at_) →
      s.links.fetching = [] → s.links.manifests = [] → s.pkg.gen.switch = none → s.pkg.gen.inService = some r →
      (r.generation = m.generation ∨ r.kvTag = m.kvTag → m.table = [] → v.tablePages = [] → v.table = [] →
        (s.allocPages (s.ownerHub x) (logPageCount m.capacity)).isSome = true →
        ∃ t, exec (.migManifest m) s = .next t ∧ (t.sess x).st = .awaitingIn ∧ (t.sess x).committed = m.committed ∧
          (t.sess x).tokenLog = m.tokenLog ∧ (t.sess x).capacity = m.capacity ∧ (t.sess x).tenant = m.tenant ∧ (t.sess x).cls = m.cls ∧
          (t.sess x).pending = m.pendingToken ∧ (t.sess x).stop.endTokens = m.endTokens ∧ (t.sess x).stop.seqs = m.stopSeqs ∧
          (t.sess x).generation = m.generation ∧ (t.sess x).kvTag = m.kvTag ∧ (t.sess x).partner = m.context ∧
          (t.sess x).firstTag = m.firstTag ∧ (t.sess x).mixed = m.mixed ∧ (t.sess x).remoteLost = m.remoteLost ∧
          tfind t.links.fetching x = some 0 ∧ (∀ y, y ≠ x → t.sess y = s.sess y)) ∧
      (r.generation ≠ m.generation → r.kvTag ≠ m.kvTag →
        ∃ t, exec (.migManifest m) s = .next t ∧ (t.sess x).migFailed = some .generationGone ∧ (t.sess x).migration = none ∧
          { destination := m.source.val, type := 0x09, body := [m.context, m.tag, Code.generationGone.num] } ∈ t.links.outbox)) ∧
    (∀ pk at_, (s.sess x).st = .leaving → (s.sess x).migration = some (pk, tag, at_) →
      ∃ t, exec (.migConfirm x tag) s = .next t ∧ (t.sess x).confirmed = true ∧ (∀ y, y ≠ x → t.sess y = s.sess y) ∧
        t = { s with serve := { s.serve with sessions := t.serve.sessions } }) ∧
    (∀ v, s.serve.sessions = [(x, v)] → (∃ pk at_, v.migration = some (pk, tag, at_)) →
      (v.st = .leaving →
        ∃ t, exec (.migAbort x tag c) s = .next t ∧ t.sess x = { v with migration := none, confirmed := false, migFailed := some c } ∧
          t.links.outbox = s.links.outbox) ∧
      (v.st = .awaitingIn →
        ∃ t, exec (.migAbort v.partner tag c) s = .next t ∧
          t.sess x = { v with migration := none, confirmed := false, migFailed := some c } ∧ tfind t.links.fetching x = none)) ∧
    (∀ v pk mt at_, s.serve.sessions = [(x, v)] → v.confirmed = false → v.migration = some (pk, mt, at_) → at_ + 100000000 ≤ s.clock.time →
      ∃ t, exec (.migrationTimeout x) s = .next t ∧ t.sess x = { v with migration := none, confirmed := false, migFailed := some .timeout } ∧
        t.links.outbox = s.links.outbox ++ [{
          destination := pk, type := 0x09, body := [if v.st = .awaitingIn then v.partner else x, mt, Code.timeout.num] }]) ∧
    (∀ v now, s.serve.sessions = [(x, v)] → v.migFailed = some c →
      (v.st = .leaving → (∃ q, v.queue = [q] ∧ ∃ b, q.body = .migrateOut b) →
        ((s.failedMigration x now).sess x).st = .openS ∧ ((s.failedMigration x now).sess x).migFailed = none ∧
        ((s.failedMigration x now).sess x).committed = v.committed ∧ ((s.failedMigration x now).sess x).tokenLog = v.tokenLog ∧
        ((s.failedMigration x now).sess x).table = v.table) ∧
      (v.st = .awaitingIn → (∃ q, v.queue = [q] ∧ ∃ b, q.body = .migrateIn b) → ((s.failedMigration x now).sess x).st = .free)) ∧
    (∀ pk mt at_, (s.sess x).migration = some (pk, mt, at_) → s.clock.time < at_ + 100000000 →
      exec (.migrationTimeout x) s = .next s)

/-- DIE.MEM_MODE, GAUGE.FORCE, RISER.HIST_SEL and GRAN.LEASE_REVOKE: a memory mode powers the die's pads and granary down, a forced mould goes
to the head of its croft's order, and a revoked lease ends with its epoch one higher; other writes are refused (R199, R200, R259, R555,
R556). -/
def Obligations.DieRegistersTakeTheirWrites : Prop :=
  ∀ (s : State) (d : DieId) (v : Word), s.answers = true →
    ((s.die d.val).pattern = none → (s.die d.val).loading = none → v.bit 0 = true ∨ (s.die d.val).mapLocked = false →
      ∃ t, exec (.memMode d v) s = .next t ∧ (t.die d.val).mapMode = v.bit 0 ∧ (t.die d.val).granary = [] ∧
        (t.die d.val).gather = [] ∧ (t.die d.val).powerAct = 0 ∧ (t.die d.val).powerPs = 0 ∧ (t.die d.val).powerGran = [] ∧
        (∀ n ∈ s.croftsOf d.val, (t.croft n).actPad = [] ∧ (t.croft n).psPad = [] ∧ (t.croft n).store = (s.croft n).store) ∧
        (t.reg (.die d.val) 0x100).bit 0 = v.bit 0 ∧ (∀ k, k ≠ d.val → t.die k = s.die k) ∧
        t = { s with regs := t.regs, dies := t.dies, crofts := t.crofts }) ∧
    ((s.die d.val).pattern.isSome = true ∨ (s.die d.val).loading.isSome = true → Refused (.memMode d v) s (.die d.val) .busy) ∧
    ((s.die d.val).pattern = none → (s.die d.val).loading = none → v.bit 0 = false → (s.die d.val).mapLocked = true →
      Refused (.memMode d v) s (.die d.val) .locked) ∧
    (∀ n, n = 2048 * d.val + 64 * v.field 16 5 + v.field 8 6 → v.field 8 6 ≤ 33 → v.field 0 5 ≤ 17 →
      (s.service n = .inService → (s.mould n (v.field 0 5)).slot ≠ none → (s.mould n (v.field 0 5)).state = .cast →
        ∃ t, exec (.gaugeForce d v) s = .next t ∧ (t.croft n).forced.head? = some (v.field 0 5) ∧
          (∀ k, k ≠ v.field 0 5 → (k ∈ (t.croft n).forced ↔ k ∈ (s.croft n).forced)) ∧
          (∀ k, k ≠ n → t.croft k = s.croft k) ∧ t = { s with crofts := t.crofts }) ∧
      (s.service n ≠ .inService ∨ (s.mould n (v.field 0 5)).slot = none ∨ (s.mould n (v.field 0 5)).state ≠ .cast →
        Refused (.gaugeForce d v) s (.gauge d.val) .state)) ∧
    (33 < v.field 8 6 ∨ 17 < v.field 0 5 → Refused (.gaugeForce d v) s (.gauge d.val) .length) ∧
    (∃ t, exec (.histSel d v) s = .next t ∧ OnlyRegs s t [(Page.riser d.val).base + 0x100] ∧
      (t.reg (.riser d.val) 0x100).bit 63 = v.bit 63 ∧ (t.reg (.riser d.val) 0x100).field 16 5 = v.field 16 5 ∧
      (t.reg (.riser d.val) 0x100).field 8 5 = v.field 8 5 ∧ (t.reg (.riser d.val) 0x100).field 0 4 = v.field 0 4) ∧
    (∃ t, exec (.leaseRevoke d v) s = .next t ∧ ((t.die d.val).lease (v.field 0 6)).held = false ∧
      ((t.die d.val).lease (v.field 0 6)).epoch =
        (if ((s.die d.val).lease (v.field 0 6)).held then ((s.die d.val).lease (v.field 0 6)).epoch + 1
         else ((s.die d.val).lease (v.field 0 6)).epoch) ∧
      (∀ k, k ≠ v.field 0 6 → (t.die d.val).lease k = (s.die d.val).lease k) ∧ (∀ k, k ≠ d.val → t.die k = s.die k) ∧
      t = { s with regs := t.regs, dies := t.dies } ∧
      t.reg (.foot d.val) 0x100 = satAdd (s.reg (.foot d.val) 0x100) 1 ∧
      (∀ a, a ≠ (Page.foot d.val).base + 0x100 → t.regAt a = s.regAt a))

/-- TMUX.DSEL_i and ASEL_j take a selection only with the debug unlock of their scope; an analogue selection that the other pin's column
conflicts with is BUSY; ERR_STATUS.clear empties a page's error record (R543, R547, R576, R578). -/
def Obligations.TestPinsAndErrorRecords : Prop :=
  ∀ (s : State) (pin : Fin 10) (v : Word), s.answers = true →
    (v.bit 63 = false ∨
      (s.lock.debugOpen = true ∧ s.lock.debugScope.testBit (if pin.val < 8 then 0 else 1) = true ∧
        (pin.val < 8 → digitalCode (v.field 0 8) = true) ∧
        (8 ≤ pin.val → (s.reg .tmux (tmuxOff (if pin.val = 8 then 9 else 8))).bit 63 = false ∨
          (s.reg .tmux (tmuxOff (if pin.val = 8 then 9 else 8))).field 4 4 ≠ v.field 4 4 ∨
          (s.reg .tmux (tmuxOff (if pin.val = 8 then 9 else 8))).field 0 8 = v.field 0 8)) →
      ∃ t, exec (.tmuxSelect pin v) s = .next t ∧ OnlyRegs s t [Page.tmux.base + tmuxOff pin.val] ∧
        (t.reg .tmux (tmuxOff pin.val)).bit 63 = v.bit 63 ∧ (t.reg .tmux (tmuxOff pin.val)).field 0 8 = v.field 0 8) ∧
    (v.bit 63 = true → s.lock.debugOpen = false ∨ s.lock.debugScope.testBit (if pin.val < 8 then 0 else 1) = false →
      Refused (.tmuxSelect pin v) s .tmux .auth) ∧
    (v.bit 63 = true → s.lock.debugOpen = true → s.lock.debugScope.testBit 0 = true → pin.val < 8 → digitalCode (v.field 0 8) = false →
      Refused (.tmuxSelect pin v) s .tmux .format) ∧
    (v.bit 63 = true → s.lock.debugOpen = true → s.lock.debugScope.testBit 1 = true → 8 ≤ pin.val →
      (s.reg .tmux (tmuxOff (if pin.val = 8 then 9 else 8))).bit 63 = true →
      (s.reg .tmux (tmuxOff (if pin.val = 8 then 9 else 8))).field 4 4 = v.field 4 4 →
      (s.reg .tmux (tmuxOff (if pin.val = 8 then 9 else 8))).field 0 8 ≠ v.field 0 8 → Refused (.tmuxSelect pin v) s .tmux .busy) ∧
    (∀ (page : Nat) (p : Page) (off : Nat), target page = .reg p off →
      (v.bit 63 = true → ∃ t, exec (.errStatusClear page v) s = .next t ∧
        t.reg p 0x020 = 0 ∧ t.reg p 0x028 = 0 ∧ t.reg p 0x030 = 0 ∧ t.reg p 0x050 = 0 ∧
        OnlyRegs s t [p.base + 0x020, p.base + 0x028, p.base + 0x030, p.base + 0x050]) ∧
      (v.bit 63 = false → exec (.errStatusClear page v) s = .next s))

/-- REGISTER_WRITE, RD8 and WR8: the steward's engine region starts at physical 0x0080_0000_0000_0000 (R420); an 8-byte access reaches exactly
the registers of the pages, an access of another width or alignment is answered LENGTH and one that names no register AUTH, both leave the
registers, and a request takes a credit of the module of the hub that owns the address (R9, R10, R11, R41, R415, R420). A write of one
byte in main memory makes its line dirty in a steward cache and no byte of the stacks moves (R420, R421). -/
def Obligations.RegisterUnitsAnswer : Prop :=
  ∀ (s : State) (u : UnitHead) (v : Word) (width phys : Nat) (p : Page) (off : Nat), s.answers = true →
    (s.pkg.partGib ≤ 16 → ∀ a, a < 2 ^ 48 → s.stewardTarget (0x0080000000000000 + a) = .engine a) ∧
    (s.stewardTarget phys = .none → exec (.registerWrite phys width v) s = .next s) ∧
    (∀ a, s.stewardTarget phys = .memory a → (s.hostRead (a - a % 64) 64).2.poison = false →
      ∃ t, exec (.registerWrite phys 1 v) s = .next t ∧
        tfind t.links.dirtyLines (lineOf a) = some ((s.hostRead (a - a % 64) 64).2.bytes.set (a % 64) (BitVec.ofNat 8 (v.field 0 8))) ∧
        (∀ l, l ≠ lineOf a → tfind t.links.dirtyLines l = tfind s.links.dirtyLines l) ∧ t.hbm.mem = s.hbm.mem) ∧
    (target u.addr = .reg p off →
      (s.stewardTarget phys = .engine u.addr →
        (u.addr % 8 = 0 → isPort p off = false → (regFields p off).isSome = true → (s.writeReg p off v).2 = 0 →
          exec (.registerWrite phys 8 v) s = .next { (s.writeReg p off v).1 with
            links := { (s.writeReg p off v).1.links with response := some (s.moduleOf u.addr, 0) } }) ∧
        (∀ h, h < 4 → u.addr = (Page.kvmap h).base + 0x108 → ∃ t, exec (.registerWrite phys 8 v) s = .next t ∧
          OnlyRegs { s with links := t.links } t [u.addr] ∧ (t.regAt u.addr).field 0 24 = v.field 0 24) ∧
        (width ≠ 8 ∨ u.addr % 8 ≠ 0 ∨ isPort p off = true → ∃ t, exec (.registerWrite phys width v) s = .next t ∧
          t.links = { s.links with response := some (s.moduleOf u.addr, Code.length.num) } ∧
          LoggedIn { s with links := t.links } t p .length) ∧
        (u.addr % 8 = 0 → isPort p off = false → regFields p off = none → ∃ t, exec (.registerWrite phys 8 v) s = .next t ∧
          t.links = { s.links with response := some (s.moduleOf u.addr, Code.auth.num) } ∧
          LoggedIn { s with links := t.links } t p .auth)) ∧
      (0 < (s.umod (s.moduleOf u.addr)).npCredits → u.tag ≤ 255 → u.reservedSet = false →
        (∀ fs, u.addr % 8 = 0 → isPort p off = false → regFields p off = some fs →
          (∃ t, exec (.rd8 u) s = .next t ∧ t.umod (s.moduleOf u.addr) = (s.lessCredit (s.moduleOf u.addr)).umod (s.moduleOf u.addr) ∧
            Answered s t u { data := leBytes 8 ((s.lessCredit (s.moduleOf u.addr)).regView p off fs).toNat } ∧
            t = { s with stew := t.stew, links := { s.links with modules := t.links.modules, outstanding := t.links.outstanding } } ∧
            (p ≠ .stew → t.stew = s.stew)) ∧
          (∀ r, r = (s.lessCredit (s.moduleOf u.addr)).writeReg p off u.inline → r.2 = 0 → ∃ t, exec (.wr8 u) s = .next t ∧
            t = { r.1 with links := t.links } ∧ t.links.outstanding = r.1.links.outstanding ++
              [{ module := s.moduleOf u.addr, tag := u.tag, answer := {}, sentAt := r.1.hubTime (s.moduleOf u.addr) }])) ∧
        (u.addr % 8 = 0 → isPort p off = false → regFields p off = none →
          (∃ t, exec (.rd8 u) s = .next t ∧ Answered s t u { status := Code.auth.num, data := leBytes 8 0 }) ∧
          (∃ t, exec (.wr8 u) s = .next t ∧ Answered s t u { status := Code.auth.num }))))

/-- WR64, PW64 and RD64 at a line of an open region: the line's 64 bytes take the data under the platform key, with the poison marker when the
header says so, and a steward cache's own copy of it goes; no other byte of stack memory moves, and a read of a clean line under that key
returns its bytes (R45, R414, R417, R421, R456, R461). -/
def Obligations.LineUnitsReadAndWriteLines : Prop :=
  ∀ (s : State) (u : UnitHead) (data : List (BitVec 8)) (k b : Nat), s.answers = true →
    target u.addr = .aperture k b → b % 64 = 0 → s.apertureOk k b = true → (s.stack k).out = false →
    s.unclean ((k * Config.stackBytes + b) / 65536) = false → data.length = 64 → u.tag ≤ 255 → u.reservedSet = false →
    (0 < (s.umod (s.moduleOf u.addr)).npCredits → ∃ t, exec (.wr64 u data) s = .next t ∧ Answered s t u {} ∧
      LineWritten s t (k * Config.stackBytes + b) keyPlatform data u.poison ∧
      t = { s with hbm := { s.hbm with mem := t.hbm.mem, lines := t.hbm.lines },
                   links := { s.links with
                     modules := t.links.modules, outstanding := t.links.outstanding
                     dirtyLines := tdrop s.links.dirtyLines ((k * Config.stackBytes + b) / 64) } }) ∧
    (0 < (s.umod (s.moduleOf u.addr)).pCredits → ∃ t, exec (.pw64 u data) s = .next t ∧
      LineWritten s t (k * Config.stackBytes + b) keyPlatform data u.poison ∧
      t = { s with hbm := { s.hbm with mem := t.hbm.mem, lines := t.hbm.lines },
                   links := { s.links with
                     modules := t.links.modules, dirtyLines := tdrop s.links.dirtyLines ((k * Config.stackBytes + b) / 64) } }) ∧
    (0 < (s.umod (s.moduleOf u.addr)).npCredits → ∀ c, c = s.lineCode ((k * Config.stackBytes + b) / 64) → c.flips = 0 → c.key = keyPlatform →
      c.version = s.keyVersion keyPlatform →
      (c.marker = .clean → ∃ t, exec (.rd64 u) s = .next t ∧
        Answered s t u { data := s.hbm.mem.getBytes (k * Config.stackBytes + b) 64 } ∧
        t = { s with links := { s.links with modules := t.links.modules, outstanding := t.links.outstanding } }) ∧
      (c.marker = .blank → ∃ t, exec (.rd64 u) s = .next t ∧ Answered s t u { data := zeroLine } ∧
        t = { s with links := { s.links with modules := t.links.modules, outstanding := t.links.outstanding } }) ∧
      (c.marker = .poison → ∃ t, exec (.rd64 u) s = .next t ∧
        Answered s t u { status := Code.poison.num, data := s.hbm.mem.getBytes (k * Config.stackBytes + b) 64, poison := true } ∧
        t.reg (.stack k) 0x148 = satAdd (s.reg (.stack k) 0x148) 1))

/-- RSP, RSPD, COMPLETION_TIMEOUT and CRD: a completion within 50 us reaches the oldest request of its tag that still awaits one; one that comes
later, or that answers no request, is discarded and counted; a request that is 50 us old completes with TIMEOUT, and not before; credits come
back to the end that did not send them and never exceed what was given (R415, R416, R417). -/
def Obligations.CompletionsAndCredits : Prop :=
  (∀ (s : State) (m : HubId) (u : UnitHead) (data : List (BitVec 8)),
    (∀ o rest, takeOutstanding s.links.outstanding m.val u.tag = some (o, rest) →
      (o.timedOut = false → s.hubTime m.val ≤ o.sentAt + 50000 →
        exec (.rsp m u) s = .next { s with links := { s.links with
          outstanding := rest
          delivered := some { module := m.val, tag := u.tag, answer := { status := u.status, data := leBytes 8 u.inline.toNat } } } } ∧
        exec (.rspd m u data) s = .next { s with links := { s.links with
          outstanding := rest
          delivered := some { module := m.val, tag := u.tag, answer := { status := u.status, data := data, poison := u.poison } } } }) ∧
      (o.timedOut = true ∨ o.sentAt + 50000 < s.hubTime m.val →
        ∃ t, exec (.rsp m u) s = .next t ∧ exec (.rspd m u data) s = .next t ∧ t.links.delivered = s.links.delivered ∧
          t.links.outstanding = (if o.timedOut = true then rest else rest ++ [{ o with lost := true }]) ∧
          t.reg (.ucie m.val) 0x108 = satAdd (s.reg (.ucie m.val) 0x108) 1 ∧
          OnlyRegs { s with links := t.links } t [(Page.ucie m.val).base + 0x108])) ∧
    ((∀ o ∈ s.links.outstanding, ¬(o.module = m.val ∧ o.tag = u.tag ∧ o.lost = false)) →
      ∃ t, exec (.rsp m u) s = .next t ∧ exec (.rspd m u data) s = .next t ∧
        OnlyRegs s t [(Page.ucie m.val).base + 0x108] ∧ t.reg (.ucie m.val) 0x108 = satAdd (s.reg (.ucie m.val) 0x108) 1)) ∧
  (∀ (s : State) (m : HubId) (tag : Nat),
    (s.pkg.phase ≠ .warmReset →
      (∃ o ∈ s.links.outstanding, o.module = m.val ∧ o.tag = tag ∧ o.timedOut = false ∧ o.sentAt + 50000 ≤ s.hubTime m.val) →
      ∃ t, exec (.completionTimeout m tag) s = .next t ∧
        t.links.delivered = some { module := m.val, tag := tag, answer := { status := Code.timeout.num } } ∧
        ((∀ o ∈ s.links.outstanding, o.lost = false) → t.links.outstanding.length = s.links.outstanding.length ∧
          (t.links.outstanding.filter (·.timedOut)).length = (s.links.outstanding.filter (·.timedOut)).length + 1) ∧
        ((∀ o ∈ s.links.outstanding, o.lost = true) → t.links.outstanding.length + 1 = s.links.outstanding.length) ∧
        t = { s with links := { s.links with outstanding := t.links.outstanding, delivered := t.links.delivered } }) ∧
    (s.pkg.phase = .warmReset ∨ (∀ o ∈ s.links.outstanding, o.module = m.val → o.tag = tag → o.timedOut = false →
        s.hubTime m.val < o.sentAt + 50000) →
      exec (.completionTimeout m tag) s = .next s)) ∧
  (∀ (s : State) (e : ModuleAt) (np p : Nat),
    (∃ t, exec (.crd e .hub np p) s = .next t ∧ t.umod e.num = { s.umod e.num with
        npCredits := min 256 ((s.umod e.num).npCredits + np), pCredits := min 128 ((s.umod e.num).pCredits + p) } ∧
      (∀ k, k ≠ e.num → t.umod k = s.umod k) ∧ t = { s with links := { s.links with modules := t.links.modules } }) ∧
    (∃ t, exec (.crd e .far np p) s = .next t ∧ t.umod e.num = { s.umod e.num with
        hubNp := min 256 ((s.umod e.num).hubNp + np), hubP := min 128 ((s.umod e.num).hubP + p) } ∧
      (∀ k, k ≠ e.num → t.umod k = s.umod k) ∧ t = { s with links := { s.links with modules := t.links.modules } }))

/-- SNOOP, SNOOP_RSP, XFER and UCIE_RETRAIN: a snoop of a partition line takes one of its hub's credits and waits for its response; dirty data
reaches a reader, and memory before a write; the data units of a step transfer, in the slots that the receiving die's pattern plans, are
gathered, and with the last of them the place reads as the row or column line of the sending die, with its scale; a bad parity word marks the
step; and a retrain keeps x64 while redundant lanes last, with lost requests and responses left to their timeout (R156, R181, R244, R407 to
R410, R415, R418, R421). -/
def Obligations.SnoopsTransfersRetrains : Prop :=
  (∀ (s : State) (h : HubId) (line : Nat) (w : Bool) (data : List (BitVec 8)),
    (s.partitionLine line = true → 0 < (s.umod h.val).hubNp → ∃ t, exec (.snoop h line w) s = .next t ∧
      t.links.snoops = s.links.snoops ++ [(h.val, line, w)] ∧ t.umod h.val = { s.umod h.val with hubNp := (s.umod h.val).hubNp - 1 } ∧
      (∀ k, k ≠ h.val → t.umod k = s.umod k) ∧
      t = { s with links := { s.links with snoops := t.links.snoops, modules := t.links.modules } }) ∧
    (s.partitionLine line = false ∨ (s.umod h.val).hubNp = 0 → exec (.snoop h line w) s = .next s) ∧
    ((∃ q ∈ s.links.snoops, q.1 = h.val ∧ q.2.1 = line) → ∃ q, q ∈ s.links.snoops ∧ q.1 = h.val ∧ q.2.1 = line ∧
      (∃ t, exec (.snoopRsp h line none) s = .next t ∧ t.links.snoops = s.links.snoops.erase q ∧
        tfind t.links.dirtyLines line = none ∧
        t = { s with links := { s.links with snoops := t.links.snoops, dirtyLines := t.links.dirtyLines } }) ∧
      (q.2.2 = false → data.length = 64 → ∃ t, exec (.snoopRsp h line (some data)) s = .next t ∧
        tfind t.links.dirtyLines line = some data ∧ (∀ k, k ≠ line → tfind t.links.dirtyLines k = tfind s.links.dirtyLines k) ∧
        t = { s with links := { s.links with snoops := t.links.snoops, dirtyLines := t.links.dirtyLines } }) ∧
      (q.2.2 = true → data.length = 64 → (s.stack (64 * line / Config.stackBytes)).out = false → s.unclean (64 * line / 65536) = false →
        ∃ t, exec (.snoopRsp h line (some data)) s = .next t ∧ LineWritten s t (64 * line) keyPlatform data false))) ∧
  (∀ (s : State) (d : DieId) (m : Fin 2) (step entry off : Nat) (x : PatternImage) (c : CrossPlan),
    (s.die d.val).pattern = some x → x.crossDie[entry]? = some c → c.sends = false → c.module = m.val →
    off % 64 = 0 → off + 64 ≤ c.bytes → c.bytes ≤ 512 → s.placeServes d.val c.place = true → s.placeServes c.peer c.far = true →
    ∀ parts, parts = (off / 64, s.sentPart c off) :: ((tfind (s.die d.val).xfers entry).getD []).filter (fun e => e.1 != off / 64) →
      (parts.length < c.bytes / 64 →
        ∃ t, exec (.xfer (.die d m) step entry off false) s = .next t ∧ tfind (t.die d.val).xfers entry = some parts ∧
          (∀ k, k ≠ entry → tfind (t.die d.val).xfers k = tfind (s.die d.val).xfers k) ∧ (∀ n, n ≠ d.val → t.die n = s.die n) ∧
          t = { s with dies := t.dies } ∧
          exec (.xfer (.die d m) step entry off true) s = .next (t.markStep step .parity)) ∧
      (c.bytes / 64 ≤ parts.length →
        ∃ t, exec (.xfer (.die d m) step entry off false) s = .next t ∧ tfind (t.die d.val).xfers entry = none ∧
          t.readPlace d.val c.place = (List.range 512).map (fun i => (((tfind parts (i / 64)).getD [])[i % 64]?).getD 0) ∧
          ((∀ r j k, c.place ≠ .ps r j k) → t.placeSigma d.val c.place = s.placeSigma c.peer c.far) ∧
          (∀ n, n ≠ d.val → t.die n = s.die n) ∧ (∀ n, croftDie n ≠ d.val → t.croft n = s.croft n) ∧
          ((∃ k a, c.place = .gran k a) ∨ (∃ k b e, c.place = .column k b e) → t = { s with dies := t.dies }) ∧
          (∀ r j k, c.place = .act r j k ∨ c.place = .ps r j k →
            ∀ n, n ≠ s.physOf d.val r.val j.val → t.croft n = s.croft n) ∧
          t = { s with crofts := t.crofts, dies := t.dies } ∧
          exec (.xfer (.die d m) step entry off true) s = .next (t.markStep step .parity))) ∧
  (∀ (s : State) (step entry off : Nat),
    (∀ (d : DieId) m, (s.die d.val).pattern = none ∨ off % 64 ≠ 0 →
      exec (.xfer (.die d m) step entry off true) s = .next (s.markStep step .parity) ∧
      exec (.xfer (.die d m) step entry off false) s = .next s) ∧
    (∀ m b, exec (.xfer (.steward m) step entry off b) s = .next s)) ∧
  (∀ (s : State) (e : ModuleAt) (tx rx : Nat) (rq rp : List Nat),
    ∃ t, exec (.ucieRetrain e tx rx rq rp) s = .next t ∧
      (t.umod e.num).retrains = min 255 ((s.umod e.num).retrains + 1) ∧
      (t.umod e.num).repairedTx = min 4 ((s.umod e.num).repairedTx + tx) ∧
      (t.umod e.num).repairedRx = min 4 ((s.umod e.num).repairedRx + rx) ∧
      ((s.umod e.num).repairedTx + tx ≤ 4 → (s.umod e.num).repairedRx + rx ≤ 4 →
        (t.umod e.num).state = 2 ∧ (t.umod e.num).width = 64 ∧
        t = { s with links := { s.links with modules := t.links.modules, outstanding := t.links.outstanding } }) ∧
      (4 < (s.umod e.num).repairedTx + tx ∨ 4 < (s.umod e.num).repairedRx + rx →
        (∀ m, e = .steward m → (t.umod e.num).state = 4 ∧ (t.umod e.num).width = 32) ∧
        (∀ d m, e = .die d m → (t.umod e.num).state = 0 ∧ (t.umod e.num).width = 0 ∧ (t.die d.val).degraded = true)) ∧
      (∀ m, e = .steward m →
        (∀ o ∈ s.links.outstanding, (o.module = m.val ∧ o.tag ∈ rp → { o with lost := true } ∈ t.links.outstanding) ∧
          (¬(o.module = m.val ∧ o.tag ∈ rp) → o ∈ t.links.outstanding)) ∧
        (∀ g ∈ rq, { module := m.val, tag := g, sentAt := s.hubTime m.val, lost := true } ∈ t.links.outstanding)) ∧
      (∀ d m, e = .die d m → t.links.outstanding = s.links.outstanding) ∧
      (∀ k, k ≠ e.num → t.umod k = s.umod k))

/-- RST_N_FALL, RAIL_LOSS and RAILS_REMOVED: the array layer, records, fuses, mark cells and lane records stay and everything else goes; the
marks are written when a counted warning came before; after SLEEP_ACK_N the package is dormant and asks for power at once when WAKE_N is
already low (R402, R403, R564, R566, R567). -/
def Obligations.StopsKeepTheNonVolatileState : Prop :=
  ∀ (s : State) (b : Bool),
    (s.pkg.phase ∉ [.off, .dormant, .tripped] → ∃ t, exec (.rstFall b) s = .next t ∧ Stopped s t ∧ t.pkg.phase = .inReset ∧
      t.pkg.rstLow = true ∧ t.pkg.sleepAckLow = false ∧
      (s.pkg.phase = .powerFail → b = true → MarksTaken s t) ∧
      (s.pkg.phase ≠ .powerFail ∨ b = false → t.serve.marks = s.serve.marks)) ∧
    (s.pkg.phase ∈ [.off, .tripped] → exec (.rstFall b) s = .next { s with pkg := { s.pkg with rstLow := true } }) ∧
    (s.pkg.phase = .dormant → exec (.rstFall b) s = .next { s with pkg := { s.pkg with rstLow := true, sleepAckLow := false } }) ∧
    (s.pkg.phase ≠ .dormant ∨ b = true → ∃ t, exec (.railLoss b) s = .next t ∧ Stopped s t ∧ t.pkg.phase = .off ∧
      (s.pkg.phase = .powerFail → MarksTaken s t) ∧ (s.pkg.phase ≠ .powerFail → t.serve.marks = s.serve.marks) ∧
      (b = true → t.pkg.sleepAckLow = false ∧ t.pkg.pwrreqLow = false ∧ t.pkg.thermtripLow = false) ∧
      (b = false → t.pkg.thermtripLow = s.pkg.thermtripLow)) ∧
    (s.pkg.phase = .sleepAck → ∃ t, exec (.railsRemoved true) s = .next t ∧ Stopped s t ∧ t.pkg.phase = .dormant ∧
      t.serve.marks = s.serve.marks ∧ (s.pkg.wakeLow = true → t.pkg.pwrreqLow = true ∧ t.pkg.sleepAckLow = false) ∧
      (s.pkg.wakeLow = false → t.pkg.pwrreqLow = s.pkg.pwrreqLow ∧ t.pkg.sleepAckLow = s.pkg.sleepAckLow)) ∧
    (s.pkg.phase ∉ [.sleepAck, .dormant] ∨ b = false → ∃ t, exec (.railsRemoved b) s = .next t ∧ Stopped s t ∧ t.pkg.phase = .off ∧
      (s.pkg.phase = .powerFail → MarksTaken s t) ∧ (s.pkg.phase ≠ .powerFail → t.serve.marks = s.serve.marks))

/-- Dormancy and power failing: entry drops undecided commands, is refused with BUSY while work is in hand or the package does not serve, and
ends with the casts stopped, the marks written and SLEEP_ACK_N low; WAKE_N low for 10 us requests power of a dormant package, and before
the rails are removed its level is kept; a warning of 1 us drops undecided commands, stops the casts and leaves the package power-failing,
a shorter one has no effect (R401, R402, R403, R566, R585). -/
def Obligations.DormancyAndPowerFailing : Prop :=
  ∀ (s : State) (v : Word) (ns : Nat),
    (s.pkg.phase = .service → v.bit 0 = true → s.dormantBusy = false → ∃ t, exec (.dormantEnter v) s = .next t ∧
      t.pkg = { s.pkg with phase := .entering } ∧ (∀ w, w < 16 → t.win w = { s.win w with queue := [] }) ∧
      t = { s with pkg := t.pkg, serve := { s.serve with windows := t.serve.windows } }) ∧
    (s.pkg.phase = .service → v.bit 0 = true → s.dormantBusy = true → Refused (.dormantEnter v) s .sys .busy) ∧
    (s.pkg.phase ∈ [.starting, .entering, .powerFail] → v.bit 0 = true → Refused (.dormantEnter v) s .sys .busy) ∧
    (s.pkg.phase = .entering → ∃ t, exec .dormancyAck s = .next t ∧ t.pkg = { s.pkg with phase := .sleepAck, sleepAckLow := true } ∧
      MarksTaken s t ∧ (∀ n m, (t.mould n m).cast = none ∧ (s.mould n m).SameRecord (t.mould n m)) ∧
      (∀ d, t.die d = { s.die d with quenchCasts := (t.die d).quenchCasts }) ∧
      t = { s with pkg := t.pkg, crofts := t.crofts, dies := t.dies, serve := { s.serve with marks := t.serve.marks } }) ∧
    (s.pkg.phase ≠ .entering → exec .dormancyAck s = .next s) ∧
    (s.pkg.phase = .dormant → 10000 ≤ ns →
      exec (.wake ns) s = .next { s with pkg := { s.pkg with pwrreqLow := true, sleepAckLow := false } }) ∧
    (s.pkg.phase = .dormant → ns < 10000 → exec (.wake ns) s = .next s) ∧
    (s.pkg.phase ∈ [.starting, .service, .warmReset, .entering, .sleepAck] →
      exec (.wake ns) s = .next { s with pkg := { s.pkg with wakeLow := decide (0 < ns) } }) ∧
    (s.pkg.phase ∈ [.starting, .service, .warmReset, .entering] → 1000 ≤ ns → ∃ t, exec (.pfailWarning ns) s = .next t ∧
      t.pkg = { s.pkg with phase := .powerFail } ∧ (∀ w, w < 16 → t.win w = { s.win w with queue := [] }) ∧
      (∀ n m, (t.mould n m).cast = none ∧ (s.mould n m).SameRecord (t.mould n m)) ∧
      (∀ d, t.die d = { s.die d with quenchCasts := (t.die d).quenchCasts }) ∧
      t = { s with pkg := t.pkg, crofts := t.crofts, dies := t.dies, serve := { s.serve with windows := t.serve.windows } }) ∧
    (ns < 1000 → exec (.pfailWarning ns) s = .next s)

/-- In a warm reset a steward access waits in the adapter in the order it came and reaches no register; where no clock runs it has no effect
at all (R570, R586). A warm reset drops undecided commands, marks every step RESET, clears pads, granary and gather buffers, keeps stores,
loaded patterns, sessions and leases, and raises the store epoch; it is refused with BUSY outside service; the ready report returns the
package to service once the firmware area holds; every second SYS.LIFE takes the states of the dies and of the package (R198, R225,
R320, R505, R506, R520, R570, R585). -/
def Obligations.WarmResetAndItsAccesses : Prop :=
  (∀ (s : State) (v : Word) (d : DieId) (w : WinId) (n : Fin 9),
     (s.pkg.phase = .warmReset →
       exec (.sysRole v) s = .next { s with links := { s.links with heldAccesses := s.links.heldAccesses ++ [.sysRole v] } } ∧
       exec (.memMode d v) s = .next { s with links := { s.links with heldAccesses := s.links.heldAccesses ++ [.memMode d v] } } ∧
       exec (.nextSeq w v) s = .next { s with links := { s.links with heldAccesses := s.links.heldAccesses ++ [.nextSeq w v] } } ∧
       exec (.respRelease w n v) s = .next { s with links := { s.links with heldAccesses := s.links.heldAccesses ++ [.respRelease w n v] } }) ∧
     (s.pkg.phase ∈ [.sleepAck, .dormant, .off, .inReset, .tripped] →
       exec (.sysRole v) s = .next s ∧ exec (.memMode d v) s = .next s ∧ exec (.nextSeq w v) s = .next s ∧
       exec (.respRelease w n v) s = .next s)) ∧
  (∀ (s : State) (v : Word),
     (s.pkg.phase = .service → v.bit 0 = true → ∃ t, exec (.warmReset v) s = .next t ∧ t.pkg.phase = .warmReset ∧
       t.store.storeEpoch = s.store.storeEpoch + 1 ∧
       (∀ x, t.sess x = { s.sess x with job := (s.sess x).job.map fun j => { j with resetDue := !j.ended } }) ∧
       (∀ w, w < 16 → t.win w = { s.win w with queue := [] }) ∧ t.serve.steps.length = s.serve.steps.length ∧
       (∀ x ∈ t.serve.steps, Cause.reset ∈ x.marks) ∧
       (∀ n, (t.croft n).actPad = [] ∧ (t.croft n).psPad = [] ∧ (t.croft n).store = (s.croft n).store) ∧
       (∀ d, (t.die d).granary = [] ∧ (t.die d).gather = [] ∧ (t.die d).leases = (s.die d).leases ∧
         (t.die d).mapMode = (s.die d).mapMode ∧
         ((s.die d).loading = none → (t.die d).pattern = (s.die d).pattern) ∧
         ((s.die d).loading.isSome = true → (s.die d).loadDone = false → (t.die d).pattern = none ∧ (t.die d).loading = none)) ∧
       t.hbm = s.hbm ∧ t.lock = { s.lock with ready := false } ∧ t.clock = s.clock) ∧
     (s.pkg.phase ∈ [.starting, .entering, .powerFail, .warmReset] → v.bit 0 = true → Refused (.warmReset v) s .sys .busy) ∧
     (s.pkg.phase = .warmReset → s.firmwareHolds = true → ∃ t, exec .warmResetReady s = .next t ∧ t.pkg.phase = .service ∧
       t.lock.ready = true) ∧
     (s.pkg.phase ≠ .warmReset ∨ s.firmwareHolds = false → exec .warmResetReady s = .next s) ∧
     (s.pkg.phase.ready = true → 0 ∉ s.pkg.hubFaulty → ∃ t, exec .serviceStateEval s = .next t ∧
       t = { s with regs := t.regs, stew := t.stew } ∧ (∀ d < 16, (t.reg .sys 0x040).field (2 * d) 2 = s.dieState d) ∧
       (t.reg .sys 0x040).field 32 2 = s.packageState ((List.range 16).map fun d => s.dieState d) ∧
       (∀ a, a ≠ Page.sys.base + 0x040 → a ≠ Page.stew.base + 0x148 → t.regAt a = s.regAt a)))

/-- Parity errors: an error that a scheduled read finds is logged and counted and marks the step for re-run; in map mode its row goes on the
watch list and a second error of a watched row maps it out, or without a spare row fences the croft, or refuses the granary row and
degrades the die; a coefficient word falls to its neutral value, a baseline is dropped, the temperature table is lost for its time, a
stand-in slot is fetched again, and a line of the pattern region is written again from the image (R204, R207, R208, R209, R210, R212). -/
def Obligations.ParityErrorsMarkAndMapOut : Prop :=
  ∀ (s : State) (c : CroftAt) (row : Fin 256) (word : Fin 64) (line : Fin 1024) (w32 : Fin 32) (step : Nat) (d : DieId)
    (slice : SliceId) (g : Fin 2048),
    (∃ t, exec (.padParityError (.actPad c row word) step) s = .next t ∧
      ((s.findStep step).isSome = true → ∀ x, t.findStep step = some x → Cause.parity ∈ x.marks) ∧
      ((s.reg (.pad c.die.val) 0x020).field 32 8 = 0 → (t.reg (.pad c.die.val) 0x020).field 32 8 = Code.parity.num) ∧
      ((s.die c.die.val).mapMode = true → watched (s.croft c.num).watchAct row.val (s.reeveTime c.die.val) = false →
        (t.croft c.num).watchAct = watchAdd (s.croft c.num).watchAct 2 row.val (s.reeveTime c.die.val) ∧
        t.dies = s.dies ∧ (∀ k, k ≠ c.num → t.croft k = s.croft k)) ∧
      ((s.die c.die.val).mapMode = true → watched (s.croft c.num).watchAct row.val (s.reeveTime c.die.val) = true →
        (∀ e, (s.die c.die.val).freePadEntry c.num false = some e →
          tfind (t.die c.die.val).padMap (padMapKey c.num e) = some row.val ∧ (t.die c.die.val).mapLocked = true ∧
          (∀ v ∈ (t.croft c.num).watchAct, v.row ≠ row.val)) ∧
        ((s.die c.die.val).freePadEntry c.num false = none → t.service c.num = .fenced))) ∧
    (∀ prow : Fin 128, ∃ t, exec (.padParityError (.psPad c prow word) step) s = .next t ∧
      ((s.findStep step).isSome = true → ∀ x, t.findStep step = some x → Cause.parity ∈ x.marks) ∧
      t.reg (.pad c.die.val) 0x100 = satAdd (s.reg (.pad c.die.val) 0x100) 1 ∧
      ((s.die c.die.val).mapMode = true → watched (s.croft c.num).watchPs prow.val (s.reeveTime c.die.val) = true →
        (∀ e, (s.die c.die.val).freePadEntry c.num true = some e → tfind (t.die c.die.val).padMap (padMapKey c.num e) = some prow.val) ∧
        ((s.die c.die.val).freePadEntry c.num true = none → t.service c.num = .fenced))) ∧
    (∃ t, exec (.padParityError (.granary d slice g word) step) s = .next t ∧
      ((s.findStep step).isSome = true → ∀ x, t.findStep step = some x → Cause.parity ∈ x.marks) ∧
      ((s.die d.val).mapMode = true →
        watched (((s.die d.val).granWatch.filter fun e => e.1 == slice.val).map (·.2)) g.val (s.reeveTime d.val) = true →
        (∀ e, (s.die d.val).freeGranEntry slice.val = some e →
          tfind (t.die d.val).granMap (64 * slice.val + e) = some g.val ∧ (t.die d.val).mapLocked = true) ∧
        ((s.die d.val).freeGranEntry slice.val = none →
          2048 * slice.val + g.val ∈ (t.die d.val).refusedRows ∧ (t.die d.val).degraded = true))) ∧
    (256 * line.val + 8 * w32.val < 0xB400 →
      ∃ t, exec (.storeParityError c line w32 step) s = .next t ∧
        ((s.mould c.num ((256 * line.val + 8 * w32.val) / 1280 / 2)).bank =
            ((256 * line.val + 8 * w32.val) / 1280 % 2 == 1) →
          (t.mould c.num ((256 * line.val + 8 * w32.val) / 1280 / 2)).neutralised = true ∧
          (t.mould c.num ((256 * line.val + 8 * w32.val) / 1280 / 2)).activeSet =
            neutralise (s.mould c.num ((256 * line.val + 8 * w32.val) / 1280 / 2)).activeSet ((256 * line.val + 8 * w32.val) % 1280)) ∧
        t.serve = s.serve) ∧
    (0xC000 ≤ 256 * line.val + 8 * w32.val → 256 * line.val + 8 * w32.val < 0x10000 →
      ∀ m, (s.croft c.num).holding ((256 * line.val + 8 * w32.val - 0xC000) / 1024) = some m →
      ∃ t, exec (.storeParityError c line w32 step) s = .next t ∧ (t.mould c.num m).gauging.baseline = none ∧ t.serve = s.serve) ∧
    (0xB400 ≤ 256 * line.val + 8 * w32.val → 256 * line.val + 8 * w32.val < 0xB500 →
      ∃ t, exec (.storeParityError c line w32 step) s = .next t ∧ (t.croft c.num).tableLostAt = some (s.reeveTime c.die.val) ∧
        t.serve = s.serve) ∧
    (0x10000 ≤ 256 * line.val + 8 * w32.val → 256 * line.val + 8 * w32.val < 0x14000 →
      ∃ t, exec (.storeParityError c line w32 step) s = .next t ∧
        ((s.findStep step).isSome = true → ∀ x, t.findStep step = some x → Cause.parity ∈ x.marks) ∧
        ∀ m, ∀ e ∈ (t.mould c.num m).standins, e.slot = (256 * line.val + 8 * w32.val - 0x10000) / 512 → e.live = true →
          e.refetch = true) ∧
    (0x18000 ≤ 256 * line.val + 8 * w32.val → (s.die c.die.val).pattern = none → (s.croft c.num).lineErrors = [] →
      ∃ t, exec (.storeParityError c line w32 step) s = .next t ∧
        ((s.findStep step).isSome = true → ∀ x, t.findStep step = some x → Cause.parity ∈ x.marks) ∧
        (∀ a, a / 256 = line.val → (t.croft c.num).store.get a = 0) ∧
        (∀ a, a / 256 ≠ line.val → (t.croft c.num).store.get a = (s.croft c.num).store.get a)) ∧
    (0xB500 ≤ 256 * line.val + 8 * w32.val ∧ 256 * line.val + 8 * w32.val < 0xC000 ∨
        0x14000 ≤ 256 * line.val + 8 * w32.val ∧ 256 * line.val + 8 * w32.val < 0x18000 →
      ∃ t, exec (.storeParityError c line w32 step) s = .next t ∧ t.reg (.pad c.die.val) 0x108 = satAdd (s.reg (.pad c.die.val) 0x108) 1 ∧
        t.serve = s.serve ∧ t.crofts = s.crofts)

/-- Flits and messages in error: a flit error marks its step, a footpath error marks the die's steps at the end of the round, and a second
error on a link within 1 ms, or any slot-table error, is a router fault, which fences the croft and degrades the die (R230, R254, R483).
DETOUR_FIT, MARK and BARRIER: a patch fits when no patched flit is later than twice the detour hops and no detour buffer holds more than 4,
else its spare goes back to the stock and the die is degraded; a mark message marks each lane that its croft has marked in the round, and
it counts once a round; a barrier is released when the last of its members has arrived, each behind its mark message (R246, R247, R248,
R252, R254). -/
def Obligations.LinkErrorsDetoursMarks : Prop :=
  (∀ (s : State) (r : CroftAt) (link : LinkDir) (step : Nat),
     (∃ t, exec (.flitParityError r link step) s = .next t ∧
       ((s.findStep step).isSome = true → ∀ x, t.findStep step = some x → Cause.parity ∈ x.marks) ∧
       (t.croft r.num).routerErrors = (s.croft r.num).routerErrors + 1 ∧
       ((∃ e ∈ (s.croft r.num).flitErrors, e.1 = LinkDir.num link ∧ s.reeveTime r.die.val ≤ e.2 + 1000000) →
         (t.croft r.num).routerFault = true ∧ t.service r.num = .fenced ∧ (t.die r.die.val).degraded = true) ∧
       ((∀ e ∈ (s.croft r.num).flitErrors, ¬(e.1 = LinkDir.num link ∧ s.reeveTime r.die.val ≤ e.2 + 1000000)) →
         t.dies = s.dies ∧ t.service r.num = s.service r.num)) ∧
     (∃ t, exec (.footpathParityError r link) s = .next t ∧ (t.die r.die.val).footMarked = true ∧
       t.reg (.foot r.die.val) 0x110 = satAdd (s.reg (.foot r.die.val) 0x110) 1 ∧ t.serve = s.serve ∧
       ((∃ e ∈ (s.croft r.num).footErrors, e.1 = LinkDir.num link ∧ s.reeveTime r.die.val ≤ e.2 + 1000000) →
         t.service r.num = .fenced ∧ (t.die r.die.val).degraded = true) ∧
       ((∀ e ∈ (s.croft r.num).footErrors, ¬(e.1 = LinkDir.num link ∧ s.reeveTime r.die.val ≤ e.2 + 1000000)) →
         t.service r.num = s.service r.num ∧ (t.die r.die.val).degraded = (s.die r.die.val).degraded)) ∧
     (∃ t, exec (.slotTableParityError r) s = .next t ∧ (t.croft r.num).routerFault = true ∧ t.service r.num = .fenced ∧
       (t.die r.die.val).degraded = true ∧ t.serve = s.serve)) ∧
  (∀ (s : State) (d : DieId) (row : Fin 32) (c : CroftAt) (n : Nat) (ms : List CroftAt) (m : CroftAt),
     ((∃ j ∈ (s.die d.val).spareJobs, j.row = row.val ∧ j.patchFits = none) →
       ((∀ p, (s.die d.val).pattern = some p → ∀ j ∈ (s.die d.val).spareJobs, j.row = row.val → j.patchFits = none →
           (detourRun p row (physColumn j.column) (croftCol j.spare)).late ≤ 2 * p.detourHops ∧
           (detourRun p row (physColumn j.column) (croftCol j.spare)).buffered ≤ 4) →
         ∃ t, exec (.detourFit d row) s = .next t ∧ (∀ e, e ≠ d.val → t.die e = s.die e) ∧ t = { s with dies := t.dies } ∧
           (∀ j ∈ (t.die d.val).spareJobs, j.row = row.val → j.patchFits ≠ none) ∧
           (t.die d.val).spareJobs.length = (s.die d.val).spareJobs.length ∧ (t.die d.val).patchBusy = true ∧
           (t.die d.val).degraded = (s.die d.val).degraded) ∧
       ((∃ p, (s.die d.val).pattern = some p ∧ ∃ j ∈ (s.die d.val).spareJobs, j.row = row.val ∧ j.patchFits = none ∧
           (2 * p.detourHops < (detourRun p row (physColumn j.column) (croftCol j.spare)).late ∨
             4 < (detourRun p row (physColumn j.column) (croftCol j.spare)).buffered)) →
         ∃ t, exec (.detourFit d row) s = .next t ∧ (t.die d.val).degraded = true ∧
           (∀ j ∈ (t.die d.val).spareJobs, j ∈ (s.die d.val).spareJobs ∧ ¬(j.row = row.val ∧ j.patchFits = none)) ∧
           (∀ j ∈ (s.die d.val).spareJobs, j.row ≠ row.val ∨ j.patchFits ≠ none → j ∈ (t.die d.val).spareJobs) ∧
           (∀ e, e ≠ d.val → t.die e = s.die e) ∧ t = { s with dies := t.dies, crofts := t.crofts })) ∧
     ((∀ j ∈ (s.die d.val).spareJobs, ¬(j.row = row.val ∧ j.patchFits = none)) → exec (.detourFit d row) s = .next s) ∧
     ((s.croft c.num).gathered = [] → exec (.mark c) s = .next s) ∧
     ((s.croft c.num).gathered ≠ [] → ∃ t, exec (.mark c) s = .next t ∧
       (∀ x ∈ s.serve.steps, (∀ k ∈ (s.croft c.num).gathered, k.1 ≠ x.id) → x ∈ t.serve.steps) ∧
       (∀ k ∈ (s.croft c.num).gathered, (k.2 ≠ .suspect → ∀ x ∈ t.serve.steps, x.id = k.1 → k.2 ∈ x.marks) ∧
         (k.2 = .suspect → ∀ y ∈ t.serve.steps, y.id = k.1 →
           (y.rerun = false → Cause.suspect ∈ y.marks) ∧ (y.rerun = true → y.suspect = true))) ∧
       t.serve.steps.length = s.serve.steps.length ∧ (t.croft c.num).markSent = true ∧
       t.reg (.foot c.die.val) 0x100 =
         (if (s.croft c.num).markSent then s.reg (.foot c.die.val) 0x100 else satAdd (s.reg (.foot c.die.val) 0x100) 1) ∧
       t = { s with regs := t.regs, crofts := t.crofts, serve := { s.serve with steps := t.serve.steps } }) ∧
     (m ∈ ms → ∀ u, (if (s.croft m.num).markSent = true then u = s else exec (.mark m) s = .next u) →
       ∃ t b, exec (.barrier d n ms m) s = .next t ∧ tfind (t.die d.val).barriers n = some b ∧ m.num ∈ b.arrived ∧
         (∀ o, tfind (s.die d.val).barriers n = some o → o.released = false → ∀ x ∈ o.arrived, x ∈ b.arrived) ∧
         (∀ o, tfind (s.die d.val).barriers n = some o → o.released = true → b.arrived = [m.num]) ∧
         (b.released = true ↔ ∀ x ∈ ms, x.num ∈ b.arrived) ∧ (∀ q, q ≠ n → tfind (t.die d.val).barriers q = tfind (s.die d.val).barriers q) ∧
         (∀ e, e ≠ d.val → t.die e = s.die e) ∧ t = { u with regs := t.regs, dies := t.dies }))

/-- NARROW_READ, NARROW_WRITE and GATHER_WRITEBACK: an access that is to be refused answers its code and moves no byte; a read returns the
newest bytes, those that the gather buffer holds ahead of the row, and one that meets a parity error answers PARITY; a written byte is the
newest from then on and every other byte reads as before, and a write-back moves an entry into its row without changing what a read
returns; in map mode the last two are said of the usable rows (R188, R194, R195, R196, R197, R211). -/
def Obligations.NarrowAccessesSeeTheNewestBytes : Prop :=
  ∀ (s : State) (d : DieId) (a len epoch : Nat) (h : Holder) (o : Option Nat) (data : List (BitVec 8)) (i : Fin 4),
    ((s.die d.val).narrowRefusal a len epoch = none → ∃ t, exec (.narrowRead d a len epoch h false) s = .next t ∧
      (t.die d.val).reply = { data := ((List.range len).map fun j => (s.die d.val).narrowByte (a + j)) } ∧
      t.reg (.gran d.val) 0x130 = satAdd (s.reg (.gran d.val) 0x130) 1 ∧
      (∀ x, (t.die d.val).narrowByte x = (s.die d.val).narrowByte x) ∧ (∀ e, e ≠ d.val → t.die e = s.die e) ∧
      t = { s with regs := t.regs, dies := t.dies }) ∧
    ((s.die d.val).narrowRefusal a len epoch = none → (s.die d.val).entryOf (a / 512) = none →
      ∃ t, exec (.narrowRead d a len epoch h true) s = .next t ∧ (t.die d.val).reply.code = some .parity ∧
        (h = .reeve → (t.die d.val).reply.data = []) ∧ (h ≠ .reeve → (t.die d.val).reply.poison = true) ∧
        (∀ x, (t.die d.val).narrowByte x = (s.die d.val).narrowByte x)) ∧
    (∀ c, (s.die d.val).narrowRefusal a len epoch = some c → ∃ t, exec (.narrowRead d a len epoch h false) s = .next t ∧
      (t.die d.val).reply = { code := some c } ∧ (∀ x, (t.die d.val).narrowByte x = (s.die d.val).narrowByte x)) ∧
    ((s.die d.val).narrowRefusal a data.length epoch = none → ∃ t, exec (.narrowWrite d a epoch data h o) s = .next t ∧
      (t.die d.val).reply.code = none ∧
      ((s.die d.val).gatherOk → (t.die d.val).gatherOk) ∧
      ((s.die d.val).gatherOk → ((s.die d.val).mapMode = true → ∀ e ∈ (s.die d.val).gather, e.row % 2048 < 1984) →
        (∀ j, j < data.length → (t.die d.val).narrowByte (a + j) = data.getD j 0) ∧
        ∀ x, x < a ∨ a + data.length ≤ x → (s.die d.val).mapMode = false ∨ x / 512 % 2048 < 1984 →
          (t.die d.val).narrowByte x = (s.die d.val).narrowByte x) ∧
      (∀ c, o = some c → (c, a / 512) ∈ (t.die d.val).openRows) ∧ (o = none → (t.die d.val).openRows = (s.die d.val).openRows) ∧
      (∀ e, e ≠ d.val → t.die e = s.die e) ∧ t = { s with regs := t.regs, dies := t.dies }) ∧
    (∀ c, (s.die d.val).narrowRefusal a data.length epoch = some c → ∃ t, exec (.narrowWrite d a epoch data h o) s = .next t ∧
      (t.die d.val).reply = { code := some c } ∧ (∀ x, (t.die d.val).narrowByte x = (s.die d.val).narrowByte x)) ∧
    (∀ e, (s.die d.val).gather[i.val]? = some e → e.last + 128 ≤ s.reeveTime d.val →
      ∃ t, exec (.gatherWriteback d i) s = .next t ∧ (∀ k ∈ (t.die d.val).gather, k.row ≠ e.row) ∧
        (t.die d.val).granary =
          e.bytes.foldl (fun m b => Memory.set m ((s.die d.val).granAt (512 * e.row + b.1)) b.2) (s.die d.val).granary ∧
        ((s.die d.val).gatherOk → ((s.die d.val).mapMode = true → e.row % 2048 < 1984) →
          ∀ x, (s.die d.val).mapMode = false ∨ x / 512 % 2048 < 1984 →
            (t.die d.val).narrowByte x = (s.die d.val).narrowByte x) ∧
        (∀ k, k ≠ d.val → t.die k = s.die k) ∧ t = { s with regs := t.regs, dies := t.dies }) ∧
    (∀ e, (s.die d.val).gather[i.val]? = some e → s.reeveTime d.val < e.last + 128 → exec (.gatherWriteback d i) s = .next s)

/-- Leases of slices, attention engines, DMA channels and locks: a free resource is granted with its current epoch and a held one is refused
with BUSY; the holder renews within the term and keeps the epoch, and anyone else learns EPOCH; a release by the holder and the end of a
term end the lease and raise its epoch; the next holder of a table lock whose term ran out rebuilds the tentative entries of the tables
(R258, R259, R266, R484, R485, R486). A term outside 1 to 65,535 us, of a lock 1 to 1,000, is refused: its code LENGTH is the model's choice,
log 118. -/
def Obligations.SliceLeasesAreGrantedAndEnd : Prop :=
  ∀ (s : State) (r : Leased) (h : Holder) (us : Nat),
    (us = 0 ∨ 65535 < us ∨ (1000 < us ∧ ((∃ b, r = .tableLock b) ∨ r = .commonsLock)) →
      (∃ t, exec (.leaseRequest r h us) s = .next t ∧ t.leaseAnswer r = { code := some .length } ∧ ∀ q, t.leaseOf q = s.leaseOf q) ∧
      (∃ t, exec (.leaseRenewal r h us) s = .next t ∧ t.leaseAnswer r = { code := some .length } ∧ ∀ q, t.leaseOf q = s.leaseOf q)) ∧
    (1 ≤ us → us ≤ 65535 → us ≤ 1000 ∨ ((∀ b, r ≠ .tableLock b) ∧ r ≠ .commonsLock) →
      ((s.leaseOf r).held = false → ∃ t, exec (.leaseRequest r h us) s = .next t ∧
        t.leaseOf r = { s.leaseOf r with held := true, holder := h, ends := s.grantorTime r + 1000 * us } ∧
        t.leaseAnswer r = { data := leBytes 4 (s.leaseOf r).epoch.toNat } ∧ (∀ q, q ≠ r → t.leaseOf q = s.leaseOf q) ∧
        ((∀ b, r = .tableLock b → (s.hub b.val).lockFault = false) →
          t = { s with regs := t.regs, dies := t.dies, store := t.store }) ∧
        (∀ b, r = .tableLock b → (s.hub b.val).lockFault = true → (t.hub b.val).lockFault = false ∧
          (∀ x, (s.sess x).st = .openS → s.ownerHub x = b.val → s.stepOf x = none → (t.sess x).tentative = (s.sess x).committed) ∧
          t = { s with store := t.store, serve := { s.serve with sessions := t.serve.sessions } })) ∧
      ((s.leaseOf r).held = true → ∃ t, exec (.leaseRequest r h us) s = .next t ∧ t.leaseAnswer r = { code := some .busy } ∧
        ∀ q, t.leaseOf q = s.leaseOf q) ∧
      ((s.leaseOf r).held = true → (s.leaseOf r).holder = h → s.grantorTime r < (s.leaseOf r).ends →
        ∃ t, exec (.leaseRenewal r h us) s = .next t ∧
        t.leaseOf r = { s.leaseOf r with ends := s.grantorTime r + 1000 * us } ∧
        t.leaseAnswer r = { data := leBytes 4 (s.leaseOf r).epoch.toNat } ∧ (∀ q, q ≠ r → t.leaseOf q = s.leaseOf q) ∧
        t = { s with regs := t.regs, dies := t.dies, store := t.store }) ∧
      ((s.leaseOf r).held = false ∨ (s.leaseOf r).holder ≠ h ∨ (s.leaseOf r).ends ≤ s.grantorTime r →
        ∃ t, exec (.leaseRenewal r h us) s = .next t ∧ t.leaseAnswer r = { code := some .epoch } ∧ ∀ q, t.leaseOf q = s.leaseOf q)) ∧
    ((s.leaseOf r).held = true → (s.leaseOf r).holder = h → ∃ t, exec (.leaseRelease r h) s = .next t ∧
      t.leaseOf r = { s.leaseOf r with held := false, epoch := (s.leaseOf r).epoch + 1, ends := 0 } ∧
      (∀ q, q ≠ r → t.leaseOf q = s.leaseOf q) ∧
      ((∀ b e, r ≠ .engine b e) → t = { s with regs := t.regs, dies := t.dies, store := t.store }) ∧
      (∀ b e, r = .engine b e → ((t.hub b.val).engine e.val).slots = [])) ∧
    ((s.leaseOf r).held = true → (s.leaseOf r).ends ≤ s.grantorTime r → ∃ t, exec (.leaseExpiry r) s = .next t ∧
      t.leaseOf r = { s.leaseOf r with held := false, epoch := (s.leaseOf r).epoch + 1, ends := 0 } ∧
      (∀ q, q ≠ r → t.leaseOf q = s.leaseOf q) ∧
      ((∀ b e, r ≠ .engine b e) → t = { s with dies := t.dies, store := t.store }) ∧
      (∀ b, r = .tableLock b → (t.hub b.val).lockFault = true) ∧
      (∀ b e, r = .engine b e → ((t.hub b.val).engine e.val).slots = [])) ∧
    ((s.leaseOf r).held = false ∨ s.grantorTime r < (s.leaseOf r).ends → exec (.leaseExpiry r) s = .next s)

/-- FORWARD_WINDOW and WINDOW_DELIVERY: a window on a mould in service leaves its corrected results, A4 or A8 as the ladder chooses, and is
counted with its energy; the raw codes are the conversions of the exact sums, off by what the line shows; a disagreement of the witness
that persists in a re-run takes the mould out of service, drops the window and enters SUSPECT; on a slot out of service a window reads
zero and marks its step SUSPECT; a croft that has stopped runs none; an active row set that no service window can have is no event at
all; delivery adds the stood-in columns, once (R51, R55, R61, R64, R68, R98, R130, R135, R140, R142, R146, R165, R173, R250). -/
def Obligations.ForwardWindowsEvaluateAndDeliver : Prop :=
  ∀ (s : State) (w : WindowIn) (n : Nat) (slot : Nat), n = w.croft.num → slot = w.mould.val →
    (activeOk w.firstRow w.rows = false → exec (.forwardWindow w) s = .fault .noSuchEvent) ∧
    (∀ m, activeOk w.firstRow w.rows = true → (s.croft n).holding slot = some m → (s.croft n).stopped = false →
      (s.mould n m).state = .cast → (∀ k, (s.mould n m).cast = some k → k.full = false) → slot ∉ (s.croft n).held →
      ∀ codes a8 p leaves, codes = s.actCodes n w.actRow w.firstRow w.rows →
        a8 = decide (choose ((s.hotRows n slot).map (·.1)) codes ≠ .a4) → p = s.windowPasses w m a8 codes →
        leaves = (((s.findStep w.step).any fun x => x.rerun) && (p.1.w2.contains .disagree || (a8 && p.2.w2.contains .disagree))) →
      ∃ t, exec (.forwardWindow w) s = .next t ∧
        (leaves = true → tfind (t.croft n).windows slot = none ∧ ∀ x, t.findStep w.step = some x → x.suspect = true) ∧
        (leaves = false → ∃ win, tfind (t.croft n).windows slot = some win ∧ win.step = w.step ∧
          win.delivered = false ∧ win.codes = codes ∧ win.span = (s.mould n m).span ∧ win.a8 = a8 ∧
          (a8 = false → win.wide = [] ∧ ∀ col < 256, col ∉ ((s.mould n m).standins.filter (·.live)).map (·.column) →
            tget (fun _ => 0) win.narrow col =
              (s.mould n m).correct (s.croft n).theta (resolution w.rows) col (p.1.final.getD col 0)) ∧
          (a8 = true → win.narrow = [] ∧ ∀ col < 256, col ∉ ((s.mould n m).standins.filter (·.live)).map (·.column) →
            tget (fun _ => 0) win.wide col =
              16 * (s.mould n m).correct (s.croft n).theta (resolution w.rows) col (p.1.final.getD col 0) +
              2 * (s.mould n m).correct (s.croft n).theta (resolution w.rows) col (p.2.final.getD col 0))) ∧
        (∀ c < 262, ∀ e, e = mapCodes (if a8 then high4 else clip4) codes → p.1.first.getD c 0 =
          convert (resolution w.rows) (s.mould n m).span ((s.mould n m).dot e c)
            (roundHA (rawCode ((s.mould n m).columnGain (s.croft n).theta c) ((s.mould n m).columnOffset (s.croft n).theta c)
                (resolution w.rows) ((s.mould n m).dot e c * 1024 / (s.mould n m).span)
                (lineResiduals (noiseOf w.noise 0 c) (s.croft n).theta (!s.isStale n (s.mould n m)))) -
              roundHA ((s.mould n m).dot e c * (2 ^ (resolution w.rows - 1) : Nat) / (s.mould n m).span) +
              (noiseOf w.noise 0 c).delta)) ∧
        t.tally.arrayFj = s.tally.arrayFj + windowEnergy w.rows ((s.mould n m).standins.filter (·.live)).length
          (if a8 then [] else residuals codes).length a8 p ∧
        (s.isStale n (s.mould n m) = true → ∀ x, t.findStep w.step = some x → x.stale = true) ∧
        t.tally.forward = s.tally.forward + 1 ∧ t.tally.a8 = s.tally.a8 + (if a8 then 1 else 0)) ∧
    (activeOk w.firstRow w.rows = true → (s.croft n).holding slot = none ∨
        ((s.croft n).stopped = false ∧ ∀ m, (s.croft n).holding slot = some m → (s.croft n).serves slot m = false) →
      ∃ t, exec (.forwardWindow w) s = .next t ∧ tfind (t.croft n).windows slot = none ∧
        (∀ x, s.findStep w.step = some x → x.rerun = false → ∀ y, t.findStep w.step = some y → Cause.suspect ∈ y.marks) ∧
        (∀ x, s.findStep w.step = some x → x.rerun = true → ∀ y, t.findStep w.step = some y → y.suspect = true) ∧
        t.tally = s.tally) ∧
    (activeOk w.firstRow w.rows = true → ((s.croft n).holding slot).isSome = true → (s.croft n).stopped = true →
      exec (.forwardWindow w) s = .next s) ∧
    (∀ win, tfind (s.croft n).windows slot = some win →
      ∃ t win', exec (.windowDelivery w.croft w.mould) s = .next t ∧ tfind (t.croft n).windows slot = some win' ∧ win'.delivered = true ∧
        win'.codes = win.codes ∧ win'.narrow = win.narrow ∧ (win.delivered = true → win' = win) ∧
        (∀ col, (∀ e ∈ win.stood, e.1 ≠ col) → tget (fun _ => 0) win'.wide col = tget (fun _ => 0) win.wide col) ∧
        (win.delivered = false → (win.stood.map (·.1)).Nodup → ∀ e ∈ win.stood,
          tget (fun _ => 0) win'.wide e.1 = tget (fun _ => 0) win.wide e.1 + e.2.1) ∧
        (∀ k, k ≠ slot → tfind (t.croft n).windows k = tfind (s.croft n).windows k) ∧
        (∀ k, k ≠ n → t.croft k = s.croft k) ∧ t = { s with crofts := t.crofts })

/-- RUN_PROMOTION: delivered windows enter the wide accumulators once, one addition to each output, saturating at plus and minus 2^31 - 1; a
transposed run enters row by row, and results of two spans are no run; partial sums of other crofts and exact products of digitally
placed layers, of span 1,024, are added; the last promotion writes its rescaled outputs, at the span of what was added and the column
scale of the pattern, one for a transposed run, and stages them as A8 codes with their scale; an embedding row is read out; and a token's
outer products are added to its gradient sums while its step is in flight (R155, R156, R158, R159, R160, R162, R170, R171, R176, R177,
R221). That a rescaled or sent accumulator starts again from zero is the model's choice, log 109. -/
def Obligations.PromotionsAccumulateAndRescale : Prop :=
  ∀ (s : State) (c : CroftAt) (n : Nat) (slot other : LogMould) (a sp : Nat) (e : PartialSum) (d : D8Term) (row : Nat)
    (w16 sg : BitVec 16) (tr : Bool),
    n = c.num →
    (∀ win, tfind (s.croft n).windows slot.val = some win → win.delivered = true →
      ∃ t, exec (.runPromotion ⟨c, [slot], false, a, sp, [], [], none, none, none⟩) s = .next t ∧
        (∀ col < 256, s.hasAcc n (a + col) = true → ∀ v, v = tget (fun _ => 0) win.narrow col + tget (fun _ => 0) win.wide col +
            (if win.a8 then 0 else riserTerm (s.croft n).store (s.hotRows n slot.val) win.span (residuals win.codes) col) →
          (v ≠ 0 ∨ col ∈ win.marks) → t.acc n (a + col) = clampSym (2 ^ 31 - 1) (s.acc n (a + col) + v)) ∧
        (∀ col, 256 ≤ col → s.hasAcc n (a + col) = true → t.acc n (a + col) = s.acc n (a + col)) ∧
        tfind (t.croft n).accSpans a = some win.span ∧
        tfind (t.croft n).windows slot.val = none ∧ (∀ k, k ≠ n → t.croft k = s.croft k) ∧ t = { s with crofts := t.crofts }) ∧
    (∀ r, tfind (s.croft n).rowResults slot.val = some r →
      ∃ t, exec (.runPromotion ⟨c, [slot], true, a, sp, [], [], none, none, none⟩) s = .next t ∧
        (∀ i < 1024, s.hasAcc n (a + i) = true → tget (fun _ => 0) r.values i ≠ 0 →
          t.acc n (a + i) = clampSym (2 ^ 31 - 1) (s.acc n (a + i) + tget (fun _ => 0) r.values i)) ∧
        tfind (t.croft n).accSpans a = some r.span ∧
        tfind (t.croft n).rowResults slot.val = none ∧ (∀ k, k ≠ n → t.croft k = s.croft k) ∧ t = { s with crofts := t.crofts }) ∧
    (∀ r q, tfind (s.croft n).rowResults slot.val = some r → tfind (s.croft n).rowResults other.val = some q → r.span ≠ q.span →
      exec (.runPromotion ⟨c, [slot, other], true, a, sp, [], [], none, none, none⟩) s = .fault .noSuchEvent) ∧
    (s.hasAcc n (a + e.column) = true → e.croft.num ≠ n ∨ e.acc ≠ a + e.column →
      ∃ t, exec (.runPromotion ⟨c, [], false, a, sp, [e], [], none, none, none⟩) s = .next t ∧
        t.acc n (a + e.column) = clampSym (2 ^ 31 - 1) (s.acc n (a + e.column) + s.acc e.croft.num e.acc) ∧
        (e.acc ∈ (s.croft e.croft.num).satMarks → a + e.column ∈ (t.croft n).satMarks) ∧
        (s.hasAcc e.croft.num e.acc = true → t.acc e.croft.num e.acc = 0 ∧ e.acc ∉ (t.croft e.croft.num).satMarks) ∧
        (∀ k j, s.hasAcc k j = true → ¬(k = n ∧ j = a + e.column) → ¬(k = e.croft.num ∧ j = e.acc) → t.acc k j = s.acc k j) ∧
        (∀ k, k ≠ n → k ≠ e.croft.num → t.croft k = s.croft k) ∧ t = { s with crofts := t.crofts }) ∧
    (s.hasAcc n (a + d.column) = true →
      ∃ t, exec (.runPromotion ⟨c, [], false, a, sp, [], [d], none, none, none⟩) s = .next t ∧
        t.acc n (a + d.column) = clampSym (2 ^ 31 - 1)
          (s.acc n (a + d.column) + s.actCode n d.act * (s.croft n).store.getS8 d.weight) ∧
        tfind (t.croft n).accSpans a = some 1024 ∧
        t.tally = { s.tally with arrayFj := s.tally.arrayFj + 180 }) ∧
    (∀ p, p = PromotionIn.mk c [] tr a sp [] [] none (some ⟨row, [(0, w16)], none, none⟩) none →
      ∃ t, exec (.runPromotion p) s = .next t ∧
        tfind (t.croft n).outputs a = some (F32.mul (F32.ofInt (s.acc n a)) (F32.div (F32.mul (F32.mul
          (F32.of16 ((s.croft n).sigmaOf row)) (F32.of16 (s.omegaOf n p (0, w16))))
          (F32.ofInt ((tfind (s.croft n).accSpans a).getD sp))) (F32.ofInt 1024))) ∧
        (tr = true → s.omegaOf n p (0, w16) = 0x3C00#16) ∧
        (tr = false → (s.die (croftDie n)).pattern = none → s.omegaOf n p (0, w16) = w16) ∧
        (s.hasAcc n a = true → t.acc n a = 0 ∧ a ∉ (t.croft n).satMarks) ∧
        (∀ k, k ≠ a → s.hasAcc n k = true → t.acc n k = s.acc n k) ∧ (∀ k, k ≠ n → t.croft k = s.croft k)) ∧
    (row < (s.die (croftDie n)).padRows false → ∀ g sigma, g = StageIn.mk (.fixed sg) a 1 row → sigma = s.stageSigma n g →
      (s.plannedScale n g = none → sigma = boundSigma sg) ∧ (∀ v, s.plannedScale n g = some (.fixed v) → sigma = boundSigma v) ∧
      ∃ t, exec (.runPromotion ⟨c, [], false, a, sp, [], [], none, some ⟨row, [], none, some g⟩, none⟩) s = .next t ∧
        t.actCode n (512 * row) = clampTo (-128) 127 (stageCode sigma (((tfind (s.croft n).outputs a).getD 0))) ∧
        (t.croft n).sigmaOf row = sigma ∧ (∀ k, k ≠ n → t.croft k = s.croft k)) ∧
    (∃ t, exec (.runPromotion ⟨c, [], false, a, sp, [], [], some ⟨d.weight, [(0, w16)]⟩, none, none⟩) s = .next t ∧
      tfind (t.croft n).outputs a = some (F32.mul (F32.ofInt ((s.croft n).store.getS8 d.weight)) (F32.of16 w16)) ∧
      t.tally = { s.tally with arrayFj := s.tally.arrayFj + 2000 }) ∧
    (∀ x j, (s.sess x).job = some j → a + 4 ≤ 262144 →
      ∃ t, exec (.runPromotion ⟨c, [], false, 0, sp, [], [], none, none, some ⟨x, [], [⟨a, .staged d.act, .staged d.act⟩]⟩⟩) s = .next t ∧
        (∀ k, k ≠ n → t.croft k = s.croft k) ∧
        (s.temperRuns x = false → (t.croft n).store = (s.croft n).store ∧ t.serve = s.serve) ∧
        (s.temperRuns x = true → (∃ j', (t.sess x).job = some j' ∧ (n, a / 256) ∈ j'.gradLines) ∧
          ∀ f, f = F32.mul (F32.ofInt (s.actCode n d.act)) (F32.of16 ((s.croft n).sigmaOf (d.act / 512))) →
            BitVec.ofNat 32 ((t.croft n).store.getLe a 4) =
              F32.add (BitVec.ofNat 32 ((s.croft n).store.getLe a 4)) (F32.mul f f)))

/-- TRANSPOSED_WINDOW, MICRO_BATCH_UPDATE and CHECKPOINT_DONE: every row takes its corrected value, in two passes when a code needs them, and
the window's energy is drawn, 160 pJ of it for each live stand-in, but a slot out of service gives zero and marks no step; an update writes the rounded and limited weight from
its gradient sum, which starts again at zero, steps the croft's register and counts the micro-batch, a due checkpoint holds the next
update back, and a finished checkpoint copies the job's lines and registers into the slot that does not hold the newest one (R69, R70,
R137, R144, R176 to R178, R497, R498). -/
def Obligations.TransposedWindowsAndUpdates : Prop :=
  ∀ (s : State) (w : TransposedIn) (n slot : Nat) (x : Nat) (i : UpdateItem) (off : Nat), n = w.croft.num → slot = w.mould.val →
    (spanOk w.spanT = false → exec (.transposedWindow w) s = .fault .noSuchEvent) ∧
    (∀ m, spanOk w.spanT = true → (s.croft n).holding slot = some m → (s.croft n).stopped = false → (s.mould n m).state = .cast →
      (∀ k, (s.mould n m).cast = some k → k.full = false) → slot ∉ (s.croft n).held →
      ∃ t r, exec (.transposedWindow w) s = .next t ∧ tfind (t.croft n).rowResults slot = some r ∧ r.span = w.spanT ∧
        (r.a8 = true ↔ ∃ e ∈ s.actCodes n w.actRow 0 256, e.2 < -8 ∨ 7 < e.2) ∧
        (∀ q, q = (fun codes k sp sc y => (s.mould n m).transposedRow (s.croft n).theta codes
            (((s.mould n m).standins.filter (·.live)).map (·.column)) sp w.spanT sc (noiseOf w.noise k y) y) →
          ∀ y < 1024, tget (fun _ => 0) r.values y =
            if r.a8 then 16 * (q (mapCodes high4 (s.actCodes n w.actRow 0 256)) 0 w.spanT 1024 y).1 +
              2 * (q (mapCodes low4 (s.actCodes n w.actRow 0 256)) 1 (2 * w.spanT) 512 y).1
            else (q (s.actCodes n w.actRow 0 256) 0 w.spanT 1024 y).1) ∧
        t.tally = { s.tally with arrayFj := s.tally.arrayFj + ((if r.a8 then 22000000 else 11000000) +
          160000 * ((s.mould n m).standins.filter (·.live)).length) }) ∧
    (spanOk w.spanT = true → (s.croft n).holding slot = none ∨
        ((s.croft n).stopped = false ∧ ∀ m, (s.croft n).holding slot = some m → (s.croft n).serves slot m = false) →
      ∃ t, exec (.transposedWindow w) s = .next t ∧ tfind (t.croft n).rowResults slot = none ∧ t = { s with crofts := t.crofts }) ∧
    (∀ j, (s.sess x).job = some j → s.temperRuns x = true → j.copying = false → j.microBatches = 0xFFFFFFFF ∨ j.done < j.microBatches →
      ∀ a, a = 256 * i.line.val + i.byte.val → i.gradient + 4 ≤ 262144 → a < i.gradient ∨ i.gradient + 4 ≤ a →
      ∀ r, r = (if i.croft.num ∈ j.crofts then (s.croft i.croft.num).lfsr else BitVec.ofNat 32 j.seed ^^^ Config.coordinateWord
          (1024 * croftDie i.croft.num + 32 * croftRow i.croft.num + (s.columnOf i.croft.num).getD 0)) →
      ∃ t j', exec (.microBatchUpdate x [i] off) s = .next t ∧ (t.sess x).job = some j' ∧
        j'.done = j.done + 1 ∧ j'.dataOffset = off ∧
        (j'.copying = true ↔ j.interval ≠ 0xFFFFFFFF ∧ (j.done + 1) % j.interval = 0) ∧
        (t.croft i.croft.num).lfsr = lfsrAdvance r ∧
        Memory.getS8 (t.croft i.croft.num).store a =
          updateWeight j.rate (BitVec.ofNat 32 ((s.croft i.croft.num).store.getLe i.gradient 4)) i.omega
            ((lfsrAdvance r).toNat % 65536) (Memory.getS8 (s.croft i.croft.num).store a) ∧
        (t.croft i.croft.num).store.getLe i.gradient 4 = 0 ∧ (i.croft.num, i.line.val) ∈ j'.lines ∧
        (∀ b, b ≠ a → b < i.gradient ∨ i.gradient + 4 ≤ b → (t.croft i.croft.num).store.get b = (s.croft i.croft.num).store.get b) ∧
        (∀ k, k ≠ i.croft.num → t.croft k = s.croft k) ∧ (∀ k, k ≠ x → t.sess k = s.sess k) ∧
        t = { s with crofts := t.crofts, serve := { s.serve with sessions := t.serve.sessions } }) ∧
    (∀ j, (s.sess x).job = some j → j.copying = true → exec (.microBatchUpdate x [i] off) s = .next s) ∧
    (∀ j, (s.sess x).job = some j → j.copying = true → ∃ t j', exec (.checkpointDone x) s = .next t ∧ (t.sess x).job = some j' ∧
      j'.copying = false ∧ j'.sequence = j.sequence + 1 ∧
      (∃ k, (k = j'.slot0 ∧ j'.slot1 = j.slot1 ∨ k = j'.slot1 ∧ j'.slot0 = j.slot0) ∧ k.sequence = j.sequence + 1 ∧
        k.microBatch = j.done ∧ k.dataOffset = j.dataOffset ∧ k.crofts.map (·.croft) = j.crofts ∧
        ∀ e ∈ k.crofts, e.lfsr = (s.croft e.croft).lfsr ∧
          ∀ c ∈ (s.croft e.croft).store, c ∈ e.bytes ↔ (e.croft, c.1 / 256) ∈ j.lines) ∧
      (j.slot1.sequence < j.slot0.sequence → j'.slot0 = j.slot0) ∧ (j.slot0.sequence < j.slot1.sequence → j'.slot1 = j.slot1) ∧
      (∀ k, k ≠ x → t.sess k = s.sess k) ∧
      t = { s with regs := t.regs, hbm := t.hbm, stew := t.stew, fresh := t.fresh, serve := { s.serve with sessions := t.serve.sessions } }) ∧
    ((s.sess x).job = none → exec (.checkpointDone x) s = .next s ∧ exec (.microBatchUpdate x [i] off) s = .next s)

/-- PROBE_VERDICT and STANDIN_COPY_ARRIVE: a CLEAR or UNLOCATED verdict is counted and ends the probe, and the third within 10 s takes the
mould out of service; a LOCATED one gives each new column a spare and stands data and witness columns in, or without a spare retires the
mould; an arrived copy is in its slot and live, a gauging run begun before it starts again, and a poisoned one takes the mould out of
service (R114, R131, R133, R134, R139, R466, R495). -/
def Obligations.ProbesDecideAndStandInsGoLive : Prop :=
  ∀ (s : State) (c : CroftAt) (m : PhysMould) (cols : List ColumnProbe) (packs : List PackPass) (i : Nat) (col : Fin 262)
    (copy : List (Nat × Int)) (p : Probe),
    ((s.mould c.num m.val).probe = some p → p.decided = false →
      (∃ t, exec (.probeVerdict c m [] []) s = .next t ∧ t.reg (.croft c.num) 0x120 = satAdd (s.reg (.croft c.num) 0x120) 1 ∧
        t.reg (.croft c.num) 0x128 = s.reg (.croft c.num) 0x128 ∧ t.reg (.croft c.num) 0x130 = s.reg (.croft c.num) 0x130) ∧
      ((s.mould c.num m.val).located (s.croft c.num).theta cols = [] →
        (∃ t, exec (.probeVerdict c m cols packs) s = .next t ∧
          t.reg (.croft c.num) 0x130 = s.reg (.croft c.num) 0x130 ∧ ∀ k, (s.mould c.num m.val).slot = some k →
            (((s.mould c.num m.val).verdicts.filter fun x => decide (s.reeveTime c.die.val ≤ x + 10000000000)).length < 2 →
              (t.mould c.num m.val).probe = none ∧ (t.mould c.num m.val).slot = some k ∧ (t.croft c.num).held = (s.croft c.num).held) ∧
            (2 ≤ ((s.mould c.num m.val).verdicts.filter fun x => decide (s.reeveTime c.die.val ≤ x + 10000000000)).length →
              (s.croft c.num).holding k = some m.val → k ∈ (t.croft c.num).held)) ∧
        ((s.mould c.num m.val).packFail (s.croft c.num).theta
            (packVectors p.pack (s.mould c.num m.val) c.num m.val (s.croft c.num).theta) packs = some i → i < 4096 →
          ∃ t, exec (.probeVerdict c m cols packs) s = .next t ∧ t.reg (.croft c.num) 0x128 = satAdd (s.reg (.croft c.num) 0x128) 1 ∧
            t.reg (.croft c.num) 0x120 = s.reg (.croft c.num) 0x120 ∧
            (t.reg (.die c.die.val) 0x120).field 0 12 = i ∧ (t.reg (.die c.die.val) 0x120).field 16 5 = m.val)) ∧
      ((s.mould c.num m.val).located (s.croft c.num).theta cols ≠ [] →
        ∃ t, exec (.probeVerdict c m cols packs) s = .next t ∧
          t.reg (.croft c.num) 0x130 =
            satAdd (s.reg (.croft c.num) 0x130) ((s.mould c.num m.val).located (s.croft c.num).theta cols).length ∧
          ∀ new, new = (s.mould c.num m.val).newlyLocated ((s.mould c.num m.val).located (s.croft c.num).theta cols) →
            (new.length ≤ (s.mould c.num m.val).freeSpares.length → s.lock.debugOpen = false →
              (s.mould c.num m.val).standins.length + (new.filter fun k => decide (k < 258)).length ≤ 8 →
              (s.croft c.num).standinCount + (new.filter fun k => decide (k < 258)).length ≤ 32 →
              (∀ k ∈ new, ∃ j ∈ (s.mould c.num m.val).freeSpares, tfind (t.mould c.num m.val).spareMap j = some k) ∧
              (∀ k ∈ new, k < 258 → ∃ e ∈ (t.mould c.num m.val).standins, e.column = k ∧ e.live = false) ∧
              (t.mould c.num m.val).slot = (s.mould c.num m.val).slot) ∧
            ((s.mould c.num m.val).freeSpares.length < new.length → ∀ k,
              (s.croft c.num).holding k = some m.val → (s.mould c.num m.val).slot = some k →
              (t.mould c.num m.val).state = .retired ∧ k ∈ (t.croft c.num).held))) ∧
    (∀ e, ((s.mould c.num m.val).standins.find? fun e => e.column == col.val && (!e.live || e.refetch)) = some e → s.castGen ≠ none →
      (s.lock.debugOpen = false → ∃ t, exec (.standinCopyArrive c m col copy false) s = .next t ∧
        (∀ x ∈ (t.mould c.num m.val).standins, x.column = col.val →
          x.live = true ∧ x.refetch = false ∧ x.copy = standinCopy col.val copy) ∧
        (∀ x ∈ (s.mould c.num m.val).standins, x.column ≠ col.val → x ∈ (t.mould c.num m.val).standins) ∧
        (e.live = false → (t.mould c.num m.val).gauging.run = {}) ∧
        (t.mould c.num m.val).standins.map (·.column) = (s.mould c.num m.val).standins.map (·.column) ∧
        (t.croft c.num).store = Memory.setBytes (s.croft c.num).store (0x10000 + 512 * e.slot) (copyBytes (standinCopy col.val copy)) ∧
        ((∀ x ∈ (s.mould c.num m.val).standins, x.live = true ∨ x.column = col.val) → (s.mould c.num m.val).probe.map (·.decided) = some true →
          (t.mould c.num m.val).probe = none) ∧
        (∀ k, k ≠ c.num → t.croft k = s.croft k) ∧ t = { s with crofts := t.crofts }) ∧
      (∀ k, (s.croft c.num).holding k = some m.val → (s.mould c.num m.val).slot = some k →
        ∃ t, exec (.standinCopyArrive c m col copy true) s = .next t ∧ k ∈ (t.croft c.num).held ∧
          (t.mould c.num m.val).standins = [] ∧ (t.mould c.num m.val).state = (s.mould c.num m.val).state))

/-- GAUGE_CONVERTER_PASS and GAUGE_RUN_END: readings join the run at their level until it has its passes, and a croft that gauges nothing
begins with the mould that is next; the first healthy run of an attempt is kept, a second that agrees leaves the mean of both as the
pending set, one that does not costs an attempt, the fourth in a row starting a probe, and an unhealthy one ends the attempt with a probe
(R106, R107, R108, R109, R110, R111, R112, R113; log 47 and log 51 for when the next mould is picked and the reject count restarts). -/
def Obligations.GaugingRunsAcceptOrReject : Prop :=
  ∀ (s : State) (c : CroftAt) (m : PhysMould) (high : Bool) (rd : List (Nat × Int)),
    ((s.mould c.num m.val).gauging.active = true → (s.mould c.num m.val).probe = none →
      (∃ t, exec (.gaugeConverterPass c m false high rd) s = .next t ∧
        (high = false → (s.mould c.num m.val).gauging.run.colLow.length < 8 →
          (t.mould c.num m.val).gauging.run = { (s.mould c.num m.val).gauging.run with
            colLow := (s.mould c.num m.val).gauging.run.colLow ++ [rd], lastTime := s.reeveTime c.die.val
            firstTheta := some ((s.mould c.num m.val).gauging.run.firstTheta.getD (s.croft c.num).theta) }) ∧
        (high = true → (s.mould c.num m.val).gauging.run.colHigh.length < 8 →
          (t.mould c.num m.val).gauging.run = { (s.mould c.num m.val).gauging.run with
            colHigh := (s.mould c.num m.val).gauging.run.colHigh ++ [rd], lastTime := s.reeveTime c.die.val
            firstTheta := some ((s.mould c.num m.val).gauging.run.firstTheta.getD (s.croft c.num).theta) }) ∧
        t.tally = { s.tally with arrayFj := s.tally.arrayFj + 1500000 } ∧ (∀ k, k ≠ c.num → t.croft k = s.croft k) ∧
        t = { s with crofts := t.crofts, tally := t.tally }) ∧
      (∃ t, exec (.gaugeConverterPass c m true high rd) s = .next t ∧
        (high = true → (s.mould c.num m.val).gauging.run.rowHigh.length < 4 →
          (t.mould c.num m.val).gauging.run = { (s.mould c.num m.val).gauging.run with
            rowHigh := (s.mould c.num m.val).gauging.run.rowHigh ++ [rd], lastTime := s.reeveTime c.die.val
            firstTheta := some ((s.mould c.num m.val).gauging.run.firstTheta.getD (s.croft c.num).theta) }) ∧
        (high = false → (s.mould c.num m.val).gauging.run.rowLow.length < 4 →
          (t.mould c.num m.val).gauging.run = { (s.mould c.num m.val).gauging.run with
            rowLow := (s.mould c.num m.val).gauging.run.rowLow ++ [rd], lastTime := s.reeveTime c.die.val
            firstTheta := some ((s.mould c.num m.val).gauging.run.firstTheta.getD (s.croft c.num).theta) }) ∧
        t.tally = { s.tally with arrayFj := s.tally.arrayFj + 1600000 })) ∧
    ((∀ e ∈ (s.croft c.num).moulds, e.2.gauging.active = false) → (s.croft c.num).nextGauged = some m.val →
      (s.mould c.num m.val).probe = none →
      ∃ t, exec (.gaugeConverterPass c m false true rd) s = .next t ∧ (t.mould c.num m.val).gauging.active = true ∧
        (t.mould c.num m.val).gauging.first = none ∧
        (t.mould c.num m.val).gauging.run =
          { colHigh := [rd], lastTime := s.reeveTime c.die.val, firstTheta := some (s.croft c.num).theta }) ∧
    ((s.mould c.num m.val).gauging.active = true → GaugeRun.complete (s.mould c.num m.val).gauging.run = true →
      (deriveTerms (s.mould c.num m.val) (s.mould c.num m.val).gauging.run).unhealthy = false →
      ((s.mould c.num m.val).gauging.first = none → ∃ t, exec (.gaugeRunEnd c m) s = .next t ∧
        (t.mould c.num m.val).gauging.first = some (deriveTerms (s.mould c.num m.val) (s.mould c.num m.val).gauging.run) ∧
        (t.mould c.num m.val).gauging.run = {} ∧ t = { s with crofts := t.crofts }) ∧
      (∀ a, (s.mould c.num m.val).gauging.first = some a →
        a.agree (deriveTerms (s.mould c.num m.val) (s.mould c.num m.val).gauging.run) = true →
        ∃ t, exec (.gaugeRunEnd c m) s = .next t ∧ (t.mould c.num m.val).pendingSet = true ∧
          (t.mould c.num m.val).bank = (s.mould c.num m.val).bank ∧
          (if (s.mould c.num m.val).bank then (t.mould c.num m.val).bank0 else (t.mould c.num m.val).bank1) =
            a.meanSet (deriveTerms (s.mould c.num m.val) (s.mould c.num m.val).gauging.run) ∧
          (t.mould c.num m.val).gauging.rejects = 0 ∧ (t.mould c.num m.val).gauging.first = none ∧
          (t.mould c.num m.val).gauging.run = {} ∧ t.reg (.croft c.num) 0x140 = satAdd (s.reg (.croft c.num) 0x140) 1 ∧
          t.reg (.gauge c.die.val) 0x120 = satAdd (s.reg (.gauge c.die.val) 0x120) 1) ∧
      (∀ a, (s.mould c.num m.val).gauging.first = some a →
        a.agree (deriveTerms (s.mould c.num m.val) (s.mould c.num m.val).gauging.run) = false →
        ∃ t, exec (.gaugeRunEnd c m) s = .next t ∧ (t.mould c.num m.val).pendingSet = (s.mould c.num m.val).pendingSet ∧
          (t.mould c.num m.val).gauging.active = true ∧ (t.mould c.num m.val).gauging.run = {} ∧
          (t.mould c.num m.val).gauging.first = none ∧ t.reg (.croft c.num) 0x148 = satAdd (s.reg (.croft c.num) 0x148) 1 ∧
          t.reg (.gauge c.die.val) 0x128 = satAdd (s.reg (.gauge c.die.val) 0x128) 1 ∧
          ((s.mould c.num m.val).gauging.rejects = 3 → (t.mould c.num m.val).gauging.rejects = 0 ∧
            (t.mould c.num m.val).probe.isSome = true) ∧
          ((s.mould c.num m.val).gauging.rejects ≠ 3 →
            (t.mould c.num m.val).gauging.rejects = (s.mould c.num m.val).gauging.rejects + 1 ∧
            (t.mould c.num m.val).probe = (s.mould c.num m.val).probe))) ∧
    ((s.mould c.num m.val).gauging.active = true → GaugeRun.complete (s.mould c.num m.val).gauging.run = true →
      (deriveTerms (s.mould c.num m.val) (s.mould c.num m.val).gauging.run).unhealthy = true →
      ∃ t, exec (.gaugeRunEnd c m) s = .next t ∧ (t.mould c.num m.val).probe.isSome = true ∧
        (t.mould c.num m.val).gauging.first = none ∧ (t.mould c.num m.val).gauging.run = {} ∧
        (t.mould c.num m.val).pendingSet = (s.mould c.num m.val).pendingSet ∧
        t.reg (.croft c.num) 0x160 =
          (if (s.mould c.num m.val).probe.isSome then s.reg (.croft c.num) 0x160 else satAdd (s.reg (.croft c.num) 0x160) 1))

/-- CAST_ROW_GROUP_END and CAST_CLOSE: a row group writes the weights and witness sums of its 64 rows and no other, a poisoned image stops the
mould in state CASTING; a full cast closes CAST in its generation when every failed column has a spare, and FAILED when one has none; a
spare-column cast makes its spares ready (R47, R48, R55, R76, R77, R78, R79, R85, R88, R466; log 49 for a column that fails the closing
verify). -/
def Obligations.CastsProgramAndClose : Prop :=
  ∀ (s : State) (g : RowGroupIn) (x : CastCloseIn),
    (∀ k, (s.mould g.croft.num g.mould.val).cast = some k → k.full = true → k.groups < 16 → g.poisoned = false →
      ∃ t, exec (.castRowGroupEnd g) s = .next t ∧
        (t.mould g.croft.num g.mould.val).cast = some { k with groups := k.groups + 1, failed := k.failed ++ g.failed.map (·.val) } ∧
        (∀ j : Fin 11, g.span = 2 ^ (6 + j.val) → (t.mould g.croft.num g.mould.val).span = g.span) ∧
        (∀ a, a % 1024 / 64 ≠ k.groups → tget (fun _ => 0) (t.mould g.croft.num g.mould.val).weights a =
          tget (fun _ => 0) (s.mould g.croft.num g.mould.val).weights a) ∧
        ((g.image.map fun e => e.1).Nodup → ∀ e ∈ g.image, e.1.val < 8192 →
          tget (fun _ => 0) (t.mould g.croft.num g.mould.val).weights (2048 * (e.1.val % 128) + 64 * k.groups + e.1.val / 128) =
            clampSym 7 (signed4 (e.2.toNat % 16)) ∧
          tget (fun _ => 0) (t.mould g.croft.num g.mould.val).weights (2048 * (e.1.val % 128) + 1024 + 64 * k.groups + e.1.val / 128) =
            clampSym 7 (signed4 (e.2.toNat / 16))) ∧
        (∀ (r : Fin 64) (h : Fin 2),
          tget (fun _ => 0) (t.mould g.croft.num g.mould.val).witness (1024 * h.val + 64 * k.groups + r.val) =
            clampSym 896 (toSigned 16 ((RowGroupIn.byte g (8192 + 4 * r.val + 2 * h.val)).toNat +
              256 * (RowGroupIn.byte g (8193 + 4 * r.val + 2 * h.val)).toNat))) ∧
        (∀ n, n ≠ g.croft.num → t.croft n = s.croft n) ∧ t = { s with crofts := t.crofts }) ∧
    (∀ k, (s.mould g.croft.num g.mould.val).cast = some k → k.full = true → k.groups < 16 → g.poisoned = true →
      ∃ t, exec (.castRowGroupEnd g) s = .next t ∧ (t.mould g.croft.num g.mould.val).cast = none ∧
        (t.mould g.croft.num g.mould.val).state = (s.mould g.croft.num g.mould.val).state ∧
        (t.mould g.croft.num g.mould.val).weights = (s.mould g.croft.num g.mould.val).weights ∧
        (g.croft.num, ((s.mould g.croft.num g.mould.val).slot).getD 0, s.service g.croft.num == .inService) ∈
          (t.die (croftDie g.croft.num)).quenchCasts ∧
        (t.pkg.gen.castPoison = true ↔ s.pkg.gen.switch.isSome = true)) ∧
    (∀ k y, (s.mould x.croft.num x.mould.val).cast = some k → k.full = true → k.groups = 16 →
      (s.mould x.croft.num x.mould.val).moveColumns
        (k.failed ++ (x.spareFailed.map (·.val)).map (262 + ·) ++ x.verifyFailed.map (·.val)) = some y →
      ∃ t, exec (.castClose x) s = .next t ∧ (t.mould x.croft.num x.mould.val).state = .cast ∧
        (t.mould x.croft.num x.mould.val).cast = none ∧ (t.mould x.croft.num x.mould.val).generation = k.generation ∧
        (t.mould x.croft.num x.mould.val).spareMap = y.spareMap ∧ (t.mould x.croft.num x.mould.val).standins = [] ∧
        (∀ p ∈ k.failed ++ (x.spareFailed.map (·.val)).map (262 + ·) ++ x.verifyFailed.map (·.val),
          p ∈ (t.mould x.croft.num x.mould.val).failed) ∧
        (t.mould x.croft.num x.mould.val).activeSet =
          { x.firstSet.held with thetaG := (max 0 (s.rowTemp x.croft.num)).toNat, tG := s.reeveTime x.croft.die.val } ∧
        (t.mould x.croft.num x.mould.val).gauging = { castG45 := x.firstSet.held.g45 } ∧
        (t.mould x.croft.num x.mould.val).weights = (s.mould x.croft.num x.mould.val).weights ∧
        (∀ n, n ≠ x.croft.num → t.croft n = s.croft n) ∧ t = { s with crofts := t.crofts }) ∧
    (∀ k, (s.mould x.croft.num x.mould.val).cast = some k → k.full = true → k.groups = 16 →
      (s.mould x.croft.num x.mould.val).moveColumns
        (k.failed ++ (x.spareFailed.map (·.val)).map (262 + ·) ++ x.verifyFailed.map (·.val)) = none →
      ∃ t, exec (.castClose x) s = .next t ∧ (t.mould x.croft.num x.mould.val).state = .failed ∧
        (t.mould x.croft.num x.mould.val).cast = none ∧
        (∀ p ∈ k.failed ++ (x.spareFailed.map (·.val)).map (262 + ·) ++ x.verifyFailed.map (·.val),
          p ∈ (t.mould x.croft.num x.mould.val).failed) ∧
        (∀ q, (s.mould x.croft.num x.mould.val).slot = some q → q ∈ (t.croft x.croft.num).held)) ∧
    (∀ k, (s.mould x.croft.num x.mould.val).cast = some k → k.full = false → x.spareFailed = [] → x.verifyFailed = [] →
      ∃ t, exec (.castClose x) s = .next t ∧ (t.mould x.croft.num x.mould.val).cast = none ∧
        (∀ e ∈ (t.mould x.croft.num x.mould.val).standins,
          (∃ i ∈ k.spares, tfind (s.mould x.croft.num x.mould.val).spareMap i = some e.column) → e.spareReady = true) ∧
        (t.mould x.croft.num x.mould.val).spareMap = (s.mould x.croft.num x.mould.val).spareMap ∧
        (∀ n, n ≠ x.croft.num → t.croft n = s.croft n) ∧ t = { s with crofts := t.crofts })

/-- ATTN_EXCHANGE_ARRIVAL and KV_WRITE_ACK: a new key and value reach the slot of their position; an exchange opens a query set per batch of
queries, staged, with one partial for each piece of its page walk, a walk over no key leaves every query EMPTY, a local page's descriptor
goes to the shortest queue of its hub, and after an acknowledgement no descriptor of the step's layer waits (R268, R272, R274, R283, R294,
R295; log 20 for the choice among engines). -/
def Obligations.ExchangesOpenQuerySets : Prop :=
  ∀ (s : State) (x : ExchangeIn) (st : Step) (h q : Nat) (kv : NewKV),
    (s.findStep x.step = none → exec (.attnExchangeArrival x) s = .next s) ∧
    (s.findStep x.step = some st → h = s.ownerHub st.context → q = s.freeQset h →
      x.kv = [] → (s.sessShape st.context).kvHeads = 1 → (∀ y ∈ x.queries, y.head = 0) → x.queries ≠ [] → x.queries.length ≤ 32 →
      ∃ t, exec (.attnExchangeArrival x) s = .next t ∧ ((t.hub h).qset q).step = x.step ∧ ((t.hub h).qset q).layer = x.layer ∧
        ((t.hub h).qset q).queries = x.queries.map stageQuery ∧ ((t.hub h).qset q).outs = x.queries.map (·.out) ∧
        ((t.hub h).qset q).die = x.die.val ∧
        ((t.hub h).qset q).partials = (s.walk st.context x.layer 0 (x.queries.map stageQuery)).length ∧
        (s.walk st.context x.layer 0 (x.queries.map stageQuery) = [] →
          ((t.hub h).qset q).outputs = some (x.queries.map fun _ => (List.replicate 128 (F32.ofInt 0), true)) ∧
          t.reg (.attn h) 0x120 = satAdd (s.reg (.attn h) 0x120) x.queries.length ∧
          ∀ y, t.findStep x.step = some y → y.empty = true) ∧
        (∀ p f n pos, s.walk st.context x.layer 0 (x.queries.map stageQuery) = [.page p f n pos] →
          ∀ e, e = (s.hub (stackOfPage p / 2)).pick → ∀ g, g = (s.hub (stackOfPage p / 2)).engine e → g.halted = false →
          tfind g.slots (g.produced % 64) = none →
          tfind ((t.hub (stackOfPage p / 2)).engine e).slots (g.produced % 64) = some (Descriptor.bytes {
            seq := g.produced, context := st.context, layer := x.layer, kv8 := (s.sess st.context).kv8, head := 0
            queryCount := x.queries.length, keyFirst := f, keyCount := n, partIndex := 0, firstPosition := pos, qset := q, tau := x.tau
            window := ((s.sessShape st.context).windowOf x.layer).getD 0, floor := (s.sess st.context).floor
            epoch := g.lease.epoch.toNat, page := p }) ∧
          ((t.hub (stackOfPage p / 2)).engine e).produced = g.produced + 1 ∧ ((t.hub (stackOfPage p / 2)).engine e).lease.held = true)) ∧
    (s.findStep x.step = some st → x.kv = [kv] → x.queries = [] →
      ∀ p, (s.sess st.context).pte (s.blockIndex st.context x.layer kv.head (kv.position / slotsPerPage (s.sess st.context).kv8)) = .page p →
      s.refsOf p ≤ 1 →
      exec (.attnExchangeArrival x) s = .next ((((s.writeBytes
        (scaleAddr p (kv.position % slotsPerPage (s.sess st.context).kv8) (slotsPerPage (s.sess st.context).kv8) false)
          (s.sess st.context).kvKey [BitVec.ofNat 8 (encodeHead (s.sess st.context).kv8 kv.key).scale]).writeBytes
        (scaleAddr p (kv.position % slotsPerPage (s.sess st.context).kv8) (slotsPerPage (s.sess st.context).kv8) true)
          (s.sess st.context).kvKey [BitVec.ofNat 8 (encodeHead (s.sess st.context).kv8 kv.value).scale]).writeBytes
        (codeAddr p (kv.position % slotsPerPage (s.sess st.context).kv8) (slotBytes (s.sess st.context).kv8) false)
          (s.sess st.context).kvKey (packCodes (s.sess st.context).kv8 (encodeHead (s.sess st.context).kv8 kv.key).codes)).writeBytes
        (codeAddr p (kv.position % slotsPerPage (s.sess st.context).kv8) (slotBytes (s.sess st.context).kv8) true)
          (s.sess st.context).kvKey (packCodes (s.sess st.context).kv8 (encodeHead (s.sess st.context).kv8 kv.value).codes))) ∧
    (∃ t, exec (.kvWriteAck x.step x.layer) s = .next t ∧
      (∀ k q', k < 4 → ((s.hub k).qset q').step = x.step → ((s.hub k).qset q').layer = x.layer → ((s.hub k).qset q').released = false →
        ((t.hub k).qset q').waiting = []) ∧
      t = { s with regs := t.regs, stew := t.stew, store := { s.store with hubs := t.store.hubs } })

/-- DESCRIPTOR_RUN, PARTIAL_MERGE and RELEASE_TIME: an unfilled slot answers UNFILLED, marks the steps of its queue and halts it; a halted
queue restarts under a new epoch; a descriptor of another epoch or with a field out of its limits is refused and drained, a good one
delivers its partial to its place; partials merge in order and the last one gives the outputs; at its release time a complete set sends
its outputs to the die, and an incomplete one zeros, with its step marked and its remote requests timed out, as are those of a set
already released (R272 to R283, R298, R318; log 42 for when a halted queue restarts). -/
def Obligations.EnginesRunMergeAndRelease : Prop :=
  ∀ (s : State) (hub : HubId) (e : Fin 64) (g : Engine) (b : List (BitVec 8)) (d : Descriptor) (q : Nat) (x : QSet),
    g = (s.hub hub.val).engine e.val → d = Descriptor.ofBytes b →
    (g.halted = true → ∃ t, exec (.descriptorRun hub e) s = .next t ∧ ((t.hub hub.val).engine e.val).halted = false ∧
      ((t.hub hub.val).engine e.val).slots = [] ∧ ((t.hub hub.val).engine e.val).expected = g.produced ∧
      ((t.hub hub.val).engine e.val).lease.epoch = g.lease.epoch + 1 ∧ (∀ k, k ≠ hub.val → t.hub k = s.hub k) ∧
      t = { s with store := { s.store with hubs := t.store.hubs } }) ∧
    (g.halted = false → tfind g.slots (g.expected % 64) = none → ∃ t, exec (.descriptorRun hub e) s = .next t ∧
      (t.hub hub.val).engine e.val = { g with
        halted := true, slotRead := { code := some .unfilled, data := List.replicate 64 0, poison := true } } ∧
      (∀ y ∈ t.serve.steps, ∀ z ∈ g.slots, s.stepOfDesc (Descriptor.ofBytes z.2) = y.id → Cause.unfilled ∈ y.marks) ∧
      ((s.reg (.attn hub.val) 0x020).field 32 8 = 0 → (t.reg (.attn hub.val) 0x020).field 32 8 = Code.unfilled.num)) ∧
    (g.halted = false → tfind g.slots (g.expected % 64) = some b → d.seq = g.expected % 2 ^ 64 →
      (d.epoch ≠ g.lease.epoch.toNat → ∃ t, exec (.descriptorRun hub e) s = .next t ∧
        tfind ((t.hub hub.val).engine e.val).slots (g.expected % 64) = none ∧ ((t.hub hub.val).engine e.val).expected = g.expected + 1 ∧
        ((s.reg (.attn hub.val) 0x020).field 32 8 = 0 → (t.reg (.attn hub.val) 0x020).field 32 8 = Code.epoch.num)) ∧
      (∀ c, d.epoch = g.lease.epoch.toNat → d.check = some c → ∃ t, exec (.descriptorRun hub e) s = .next t ∧
        ((t.hub hub.val).engine e.val).expected = g.expected + 1 ∧
        ((s.reg (.attn hub.val) 0x020).field 32 8 = 0 → (t.reg (.attn hub.val) 0x020).field 32 8 = c.num)) ∧
      (d.epoch = g.lease.epoch.toNat → 1 ≤ d.queryCount → d.queryCount ≤ 32 → 1 ≤ d.keyCount →
        d.keyFirst + d.keyCount ≤ slotsPerPage d.kv8 → d.partIndex ≤ 1023 → F16.isPositiveNormal d.tau = true →
        headAgrees (s.readBytes (d.page * Config.pageBytes) 16 (s.sess d.context).kvKey).2.bytes d = true →
        ∀ keys, keys = ((s.readBytes (d.page * Config.pageBytes) 16 (s.sess d.context).kvKey).1.readKeys d (s.sess d.context).kvKey).2.1 →
        ∃ t, exec (.descriptorRun hub e) s = .next t ∧
          (tfind ((t.hub (s.ownerHub d.context)).qset d.qset).arrived d.partIndex).map (fun l => l.map fun y => (y.m, y.l, y.acc)) =
            some ((((s.hub (s.ownerHub d.context)).qset d.qset).queries.take d.queryCount).map fun y =>
              ((softRun y d.tau d.window d.floor keys).1.m, (softRun y d.tau d.window d.floor keys).1.l,
                (softRun y d.tau d.window d.floor keys).1.acc)) ∧
          t.reg (.attn hub.val) 0x100 = satAdd (s.reg (.attn hub.val) 0x100) 1 ∧
          t.reg (.attn hub.val) 0x108 = satAdd (s.reg (.attn hub.val) 0x108) d.keyCount ∧
          ((t.hub hub.val).engine e.val).expected = g.expected + 1)) ∧
    (tfind (s.hub hub.val).qsets q = some x → x.outputs = none → x.released = false → ∀ parts, tfind x.arrived x.merged = some parts →
      ∃ t, exec (.partialMerge hub q) s = .next t ∧ ((t.hub hub.val).qset q).merged = x.merged + 1 ∧
        (x.merged = 0 → ((t.hub hub.val).qset q).running = parts) ∧
        (x.merged ≠ 0 → ((t.hub hub.val).qset q).running = (List.zipWith softMerge x.running parts).map (·.1)) ∧
        (x.merged + 1 ≠ x.partials → ((t.hub hub.val).qset q).outputs = none) ∧
        (x.merged + 1 = x.partials → ((t.hub hub.val).qset q).outputs = some (((t.hub hub.val).qset q).running.map SoftState.output)) ∧
        (∀ k, k ≠ q → (t.hub hub.val).qset k = (s.hub hub.val).qset k) ∧ (∀ k, k ≠ hub.val → t.hub k = s.hub k)) ∧
    (tfind (s.hub hub.val).qsets q = some x → x.released = false →
      (∀ outs, x.outputs = some outs → ∃ t, exec (.releaseTime hub q) s = .next t ∧ (t.hub hub.val).qset q = { x with released := true } ∧
        (∀ k, k ≠ hub.val → t.hub k = s.hub k) ∧ t.crofts = (s.sendOutputs x.die x.outs (outs.map (·.1))).crofts ∧
        t = { s with store := { s.store with hubs := t.store.hubs }, crofts := t.crofts, dies := t.dies }) ∧
      (x.outputs = none → ∃ t, exec (.releaseTime hub q) s = .next t ∧ ((t.hub hub.val).qset q).released = true ∧
        ((t.hub hub.val).qset q).outputs = some (x.queries.map fun _ => (List.replicate 128 (F32.ofInt 0), false)) ∧
        (∀ y ∈ t.serve.steps, y.id = x.step → Cause.timeout ∈ y.marks) ∧
        t.reg (.attn hub.val) 0x128 = satAdd (s.reg (.attn hub.val) 0x128) 1 ∧
        (∀ r ∈ (t.hub hub.val).remote, r.qset = q → r.timedOut = true))) ∧
    (tfind (s.hub hub.val).qsets q = some x → x.released = true → ∃ t, exec (.releaseTime hub q) s = .next t ∧
      (∀ r ∈ (t.hub hub.val).remote, r.qset = q → r.timedOut = true) ∧ (∀ k, (t.hub hub.val).qset k = (s.hub hub.val).qset k) ∧
      t = { s with regs := t.regs, store := { s.store with hubs := t.store.hubs } })

/-- ATTN_REQ, ATTN_RSP and ATTN_BUSY: a store package serves a request with its merged partials or answers BUSY, ROLE or EPOCH; a response in
time takes its place in the merge order, a late one is discarded and counted, and an EPOCH answer fails the step and empties the session's
entries there, and any other refusal is treated as a timeout (R20, R316, R317, R318, R319, R320; log 22 for the answer ROLE). -/
def Obligations.RemoteAttentionIsServedAndAnswered : Prop :=
  ∀ (s : State) (r : AttnReqIn) (hub : HubId) (tag : Nat) (ps : List SoftState) (m : RemoteReq),
    (r.storeEpoch % 65536 ≠ s.store.storeEpoch % 65536 → ∃ t, exec (.attnReq r) s = .next t ∧
      t.links.outbox = s.links.outbox ++ [{ destination := r.source, type := 0x02, body := [r.tag, Code.epoch.num] }] ∧
      t = { s with links := { s.links with outbox := t.links.outbox } }) ∧
    (r.storeEpoch % 65536 = s.store.storeEpoch % 65536 → s.pkg.role ≠ 3 → ∃ t, exec (.attnReq r) s = .next t ∧
      t.links.outbox = s.links.outbox ++ [{ destination := r.source, type := 0x02, body := [r.tag, Code.role.num] }]) ∧
    (r.storeEpoch % 65536 = s.store.storeEpoch % 65536 → s.pkg.role = 3 → r.canQueue = false → ∃ t, exec (.attnReq r) s = .next t ∧
      t.links.outbox = s.links.outbox ++ [{ destination := r.source, type := 0x03, body := [r.tag] }]) ∧
    (∀ p d, r.storeEpoch % 65536 = s.store.storeEpoch % 65536 → s.pkg.role = 3 → r.canQueue = true → r.pages = [p] →
      1 ≤ r.queries.length → r.queries.length ≤ 32 → 1 ≤ p.keyCount → p.keyFirst + p.keyCount ≤ slotsPerPage r.kv8 →
      F16.isPositiveNormal r.tau = true →
      d = Descriptor.mk 0 0 r.layer r.kv8 r.head r.queries.length p.keyFirst p.keyCount 0 p.firstPosition 0 r.tau r.window r.floor 0
        p.page →
      headAgrees (s.readBytes (p.page * Config.pageBytes) 16 (s.pageKey p.page)).2.bytes d = true →
      ∀ keys, keys = ((s.readBytes (p.page * Config.pageBytes) 16 (s.pageKey p.page)).1.readKeys d (s.pageKey p.page)).2.1 →
      ∃ t, exec (.attnReq r) s = .next t ∧
        (t.links.outbox.drop s.links.outbox.length).map (fun y => (y.destination, y.type, y.body, y.data)) =
          [(r.source, 0x02, [r.tag, 0], r.queries.flatMap fun y => softBytes (softRun y r.tau r.window r.floor keys).1)] ∧
        t.reg (.attn r.hub.val) 0x148 = satAdd (s.reg (.attn r.hub.val) 0x148) 1) ∧
    ((∀ y ∈ (s.hub hub.val).remote, y.tag ≠ tag) → (∃ t, exec (.attnRsp hub tag 0 ps) s = .next t ∧
      OnlyRegs s t [(Page.attn hub.val).base + 0x140] ∧ t.reg (.attn hub.val) 0x140 = satAdd (s.reg (.attn hub.val) 0x140) 1) ∧
      exec (.attnBusy hub tag) s = .next s) ∧
    ((s.hub hub.val).remote.find? (fun y => y.tag == tag) = some m → m.timedOut = true →
      ∃ t, exec (.attnRsp hub tag 0 ps) s = .next t ∧ t.reg (.attn hub.val) 0x140 = satAdd (s.reg (.attn hub.val) 0x140) 1 ∧
        (∀ y ∈ (t.hub hub.val).remote, y.tag ≠ tag) ∧ (∀ k, (t.hub hub.val).qset k = (s.hub hub.val).qset k)) ∧
    ((s.hub hub.val).remote.find? (fun y => y.tag == tag) = some m → m.timedOut = false →
      (∃ t, exec (.attnRsp hub tag 0 ps) s = .next t ∧ tfind ((t.hub hub.val).qset m.qset).arrived m.part = some ps ∧
        (∀ y ∈ (t.hub hub.val).remote, y.tag ≠ tag) ∧ (∀ k, k ≠ hub.val → t.hub k = s.hub k) ∧
        t = { s with store := { s.store with hubs := t.store.hubs } }) ∧
      (∀ st, s.findStep ((s.hub hub.val).qset m.qset).step = some st → ∃ t, exec (.attnRsp hub tag Code.epoch.num ps) s = .next t ∧
        (∀ y, t.findStep st.id = some y → y.failed = some (st.failed.getD .epoch)) ∧
        (t.sess st.context).remoteLost = true ∧ (∀ i pk ep p, (i, Pte.remote pk ep p) ∈ (t.sess st.context).table → pk ≠ m.package)) ∧
      (∀ code, code ≠ 0 → code ≠ Code.epoch.num → ∃ t, exec (.attnRsp hub tag code ps) s = .next t ∧
        (∀ y ∈ (t.hub hub.val).remote, y.tag = tag → y.timedOut = true) ∧
        t.reg (.attn hub.val) 0x138 = satAdd (s.reg (.attn hub.val) 0x138) 1) ∧
      (∃ t, exec (.attnBusy hub tag) s = .next t ∧ (∀ y ∈ (t.hub hub.val).remote, y.tag = tag → y.timedOut = true) ∧
        t.reg (.attn hub.val) 0x138 = satAdd (s.reg (.attn hub.val) 0x138) 1 ∧
        t = { s with regs := t.regs, store := { s.store with hubs := t.store.hubs } }))

/-- LEASE_RENEW, REMOTE_RENEW_TIMER and REMOTE_REF_EXPIRY: a renewal under the current store epoch takes or renews the reference of each page
it names, every remote page a session or a prefix table names is renewed in messages of up to 46, and references that went 30 ms without
renewal are released (R320, R435; log 21 for the first renewal). COMMONS_LOOKUP and COMMONS_EVICT: the walk of a turn gives its hits and
the length it shares, whole blocks short of its last token, and is counted; an eviction that is due takes the childless node used longest
ago and no other (R307, R312). -/
def Obligations.RemoteReferencesAndCommons : Prop :=
  (∀ (s : State) (k : Fin 256) (ep : Nat) (pages : List Nat),
     (ep % 65536 ≠ s.store.storeEpoch % 65536 → exec (.leaseRenew k ep pages) s = .next s) ∧
     (ep % 65536 = s.store.storeEpoch % 65536 → ∃ t, exec (.leaseRenew k ep pages) s = .next t ∧
       (∀ p ∈ pages, s.refsOf p ≠ 0 → s.refsOf p < 65534 →
         tfind (t.servedBy k.val) p = some s.clock.time ∧ (tfind (s.servedBy k.val) p = none → t.refsOf p = s.refsOf p + 1) ∧
         ((tfind (s.servedBy k.val) p).isSome = true → t.refsOf p = s.refsOf p)) ∧
       (∀ p ∈ pages, s.refsOf p = 0 → tfind (t.servedBy k.val) p = tfind (s.servedBy k.val) p) ∧
       (∀ j, j ∉ pages → tfind (t.servedBy k.val) j = tfind (s.servedBy k.val) j ∧ t.refsOf j = s.refsOf j) ∧
       t = { s with store := { s.store with refs := t.store.refs, served := t.store.served } }) ∧
     (∃ t l, exec (.remoteRenewTimer k) s = .next t ∧ t.links.outbox = s.links.outbox ++ l ∧
       (∀ e ∈ s.remotePages k.val, ∃ m ∈ l, m.destination = k.val ∧ m.type = 0x04 ∧ ∃ g, m.body = e.1 :: g ∧ e.2 ∈ g) ∧
       (∀ m ∈ l, m.body.length ≤ 47) ∧ t = { s with links := { s.links with outbox := t.links.outbox } }) ∧
     (∃ t, exec (.remoteRefExpiry k) s = .next t ∧
       t.servedBy k.val = (s.servedBy k.val).filter (fun e => decide (s.clock.time < e.2 + 30000000)) ∧
       (((s.servedBy k.val).map (·.1)).Nodup → ∀ e ∈ s.servedBy k.val, e.2 + 30000000 ≤ s.clock.time →
         t.refsOf e.1 = s.refsOf e.1 - 1) ∧
       (∀ j, (∀ e ∈ s.servedBy k.val, e.1 = j → s.clock.time < e.2 + 30000000) → t.refsOf j = s.refsOf j))) ∧
  (∀ (s : State) (x : Nat) (t0 : Turn) (hits : List Nat × Nat) (i : Nat) (n : Node),
     ((s.sess x).turn = some t0 → t0.walkDone = false →
       hits = walkBlocks s.store (s.rootOf x (s.adapterTag (s.turnImage t0))) t0.tokens (t0.tokens.length / 16) 1
         (rootHash (s.rootOf x (s.adapterTag (s.turnImage t0)))) none →
       ∃ t, exec (.commonsLookup x) s = .next t ∧
         (t.sess x).turn = some { t0 with walkDone := true, hits := hits.1.length, shared := 16 * min hits.1.length ((t0.tokens.length - 1) / 16) } ∧
         t.reg .commons 0x108 = satAdd (s.reg .commons 0x108) 1 ∧ t.reg .commons 0x110 = satAdd (s.reg .commons 0x110) hits.1.length ∧
         t.reg .commons 0x118 = satAdd (s.reg .commons 0x118) hits.2 ∧
         (∀ j m, tfind t.store.nodes j = some m → j ∈ hits.1 → m.lastUse = s.hubTime 0) ∧ (∀ k, k ≠ x → t.sess k = s.sess k)) ∧
     (s.evictDue = true → tfind s.store.nodes i = some n → n.children = 0 →
       (∀ e ∈ s.store.nodes, e.1 ≠ i → e.2.children = 0 → n.lastUse < e.2.lastUse) →
       ∃ t, exec .commonsEvict s = .next t ∧ tfind t.store.nodes i = none ∧
         (∀ j, j ≠ i → (tfind t.store.nodes j).isSome = (tfind s.store.nodes j).isSome) ∧
         t.reg .commons 0x128 = satAdd (s.reg .commons 0x128) 1) ∧
     (s.evictDue = false → exec .commonsEvict s = .next s))

/-- PROMPT, GENERATE, DRAFT, STOP, CANCEL, CLOSE and MIGRATE_OUT: a command that passes the checks consumes its number, awaits its outcome and
joins its session's queue, where it begins at once when nothing is ahead; CANCEL, CLOSE and MIGRATE_OUT take the session out of use (R341,
R342, R345, R356, R358, R364, R366). -/
def Obligations.SessionCommandsJoinTheirQueue : Prop :=
  ∀ (s : State) (w : WinId) (h : CmdHead) (pin : Option IngotRec) (cont : Contents),
    (∀ b : PromptBody, s.accepts w.val h (.prompt b) pin cont → ∃ t, exec (.prompt w h b) s = .next t ∧
      Accepted s t w.val h (.prompt b) ∧ Joined s t w.val h (.prompt b) cont b.context ∧
      (∀ r, pin = some r → (t.sess b.context).generation = r.generation) ∧ (t.sess b.context).st = .openS ∧
      ((s.sess b.context).turn = none → (s.sess b.context).queue = [] → ∃ u, (t.sess b.context).turn = some u ∧ u.kind = .prompt ∧
        u.seq = h.seq ∧ u.tokens = cont.tokens ∧ u.started = false) ∧
      (∀ u, (s.sess b.context).turn = some u → (t.sess b.context).turn = some u) ∧ t.pending = s.pending) ∧
    (∀ b : GenerateBody, s.accepts w.val h (.generate b) pin cont → ∃ t, exec (.generate w h b) s = .next t ∧
      Accepted s t w.val h (.generate b) ∧ Joined s t w.val h (.generate b) cont b.context ∧ (t.sess b.context).st = .openS ∧
      ((s.sess b.context).turn = none → (s.sess b.context).queue = [] → ∃ u, (t.sess b.context).turn = some u ∧ u.kind = .generate ∧
        u.seq = h.seq ∧ u.started = false)) ∧
    (∀ b : DraftBody, s.accepts w.val h (.draft b) pin cont → ∃ t, exec (.draft w h b) s = .next t ∧
      Accepted s t w.val h (.draft b) ∧ Joined s t w.val h (.draft b) cont b.context ∧ (t.sess b.context).st = .openS ∧
      ((s.sess b.context).turn = none → (s.sess b.context).queue = [] → ∃ u, (t.sess b.context).turn = some u ∧ u.kind = .draft ∧
        u.seq = h.seq ∧ u.tokens = cont.tokens ∧ u.started = false)) ∧
    (∀ x, s.accepts w.val h (.stop x) pin cont → ∃ t, exec (.stop w h x) s = .next t ∧
      Accepted s t w.val h (.stop x) ∧ Joined s t w.val h (.stop x) cont x ∧ (t.sess x).st = .openS ∧
      ((s.sess x).turn ≠ none ∨ (s.sess x).queue = [] → (t.sess x).turn = (s.sess x).turn)) ∧
    (∀ x, s.accepts w.val h (.cancel x) pin cont → ∃ t, exec (.cancel w h x) s = .next t ∧
      Accepted s t w.val h (.cancel x) ∧ Joined s t w.val h (.cancel x) cont x ∧ (t.sess x).cancelling = true ∧
      ((s.sess x).st = .job → (t.sess x).st = .job) ∧ ((s.sess x).st ≠ .job → (t.sess x).st = .leaving)) ∧
    (∀ x, s.accepts w.val h (.close x) pin cont → ∃ t, exec (.close w h x) s = .next t ∧
      Accepted s t w.val h (.close x) ∧ Joined s t w.val h (.close x) cont x ∧ (t.sess x).st = .leaving) ∧
    (∀ b : MigrateOutBody, s.accepts w.val h (.migrateOut b) pin cont → ∃ t, exec (.migrateOut w h b) s = .next t ∧
      Accepted s t w.val h (.migrateOut b) ∧ Joined s t w.val h (.migrateOut b) cont b.context ∧ (t.sess b.context).st = .leaving)

/-- OPEN, MIGRATE_IN and TEMPER: a command that passes the checks takes the free entry it names, with the fields it gives, pinned to the
generation the checks found, under a fresh session key (R338, R340, R364, R366, R497, R514). -/
def Obligations.OpeningsTakeTheirEntry : Prop :=
  ∀ (s : State) (w : WinId) (h : CmdHead) (pin : Option IngotRec) (cont : Contents),
    (∀ b : OpenBody, s.accepts w.val h (.openS b) pin cont → ∃ t, exec (.openSession w h b) s = .next t ∧
      Accepted s t w.val h (.openS b) ∧ (t.sess b.context).st = .openS ∧ (t.sess b.context).window = w.val ∧
      (t.sess b.context).tenant = b.tenant ∧ (t.sess b.context).cls = b.cls ∧ (t.sess b.context).capacity = b.capacity ∧
      (t.sess b.context).outRing = b.outRing ∧ (t.sess b.context).temperature = b.temperature ∧
      (t.sess b.context).topK = b.topK ∧ (t.sess b.context).seed = b.seed ∧ (t.sess b.context).stop = cont.stop ∧
      (t.sess b.context).committed = 0 ∧ (t.sess b.context).logPages.length = logPageCount b.capacity ∧
      (∀ r, pin = some r → (t.sess b.context).generation = r.generation) ∧
      (∃ q, (t.sess b.context).queue = [q] ∧ q.seq = h.seq ∧ q.body = .openS b) ∧
      t.lock.keyDraws = s.lock.keyDraws + 1 ∧ t.keyVersion (keySession b.context) = s.lock.keyDraws + 1 ∧
      (∀ k, k ≠ b.context → t.sess k = s.sess k)) ∧
    (∀ b : MigrateInBody, s.accepts w.val h (.migrateIn b) pin cont → ∃ t, exec (.migrateIn w h b) s = .next t ∧
      Accepted s t w.val h (.migrateIn b) ∧ (t.sess b.context).st = .awaitingIn ∧ (t.sess b.context).window = w.val ∧
      (t.sess b.context).outRing = b.outRing ∧ (t.sess b.context).migration = some (b.package, b.tag, s.clock.time) ∧
      (∃ q, (t.sess b.context).queue = [q] ∧ q.seq = h.seq ∧ q.body = .migrateIn b) ∧
      t.keyVersion (keySession b.context) = s.lock.keyDraws + 1 ∧ (∀ k, k ≠ b.context → t.sess k = s.sess k)) ∧
    (∀ b : TemperBody, s.accepts w.val h (.temper b) pin cont → ∃ t j, exec (.temper w h b) s = .next t ∧
      Accepted s t w.val h (.temper b) ∧ (t.sess b.context).st = .job ∧ (t.sess b.context).job = some j ∧
      j.handle = b.handle ∧ j.microBatches = b.microBatches ∧ j.batch = b.batch ∧ j.rate = b.rate ∧ j.interval = b.interval ∧
      j.seed = b.seed ∧ j.done = 0 ∧ j.slot0.pages.length = s.slotPages b.handle ∧ j.slot1.pages.length = s.slotPages b.handle ∧
      (t.sess b.context).tenant = b.tenant ∧ (t.sess b.context).cls = b.cls ∧
      t.keyVersion (keySession b.context) = s.lock.keyDraws + 1 ∧ (∀ k, k ≠ b.context → t.sess k = s.sess k))

/-- ADAPTER_LOAD, ADAPTER_DROP, INGOT_STAGE and GEN_SWITCH: a command that passes the checks waits as a package command, and no context
changes (R342, R360, R363, R365). ADAPTER_VERIFIED and INGOT_STAGE_VERIFIED: the image is read from memory, and the first failing check
ends the oldest command with its code: POISON for a poisoned line, LENGTH, AUTH, FORMAT, then that of a pattern of the ingot's table; an
adapter that passes has its image in the pool, BUSY when the pool is short, and an ingot that passes is staged with its content key, or is
the resident generation's again (R150, R360, R363, R466, R524, R525, R527, R543, R582; log 24 for POISON before the others). While a switch is
pending the verification of an ingot waits, which is the model's choice, log 102. -/
def Obligations.PackageCommandsAndVerifications : Prop :=
  (∀ (s : State) (w : WinId) (h : CmdHead) (pin : Option IngotRec) (cont : Contents),
     (∀ b : AdapterLoadBody, s.accepts w.val h (.adapterLoad b) pin cont → ∃ t, exec (.adapterLoad w h b) s = .next t ∧
       Accepted s t w.val h (.adapterLoad b) ∧ t.serve.sessions = s.serve.sessions ∧ t.pkg = s.pkg ∧
       ∃ c, t.serve.adapterCmds = s.serve.adapterCmds ++ [c] ∧ c.window = w.val ∧ c.seq = h.seq ∧ c.handle = b.handle ∧
         c.addr = b.imageAddr ∧ c.len = b.length ∧ c.drop = false ∧ c.image = none) ∧
     (∀ x, s.accepts w.val h (.adapterDrop x) pin cont → ∃ t, exec (.adapterDrop w h x) s = .next t ∧
       Accepted s t w.val h (.adapterDrop x) ∧ t.serve.sessions = s.serve.sessions ∧ t.pkg = s.pkg ∧
       ∃ c, t.serve.adapterCmds = s.serve.adapterCmds ++ [c] ∧ c.window = w.val ∧ c.seq = h.seq ∧ c.handle = x ∧ c.drop = true) ∧
     (∀ b : IngotStageBody, s.accepts w.val h (.ingotStage b) pin cont → ∃ t, exec (.ingotStage w h b) s = .next t ∧
       Accepted s t w.val h (.ingotStage b) ∧ t.serve.sessions = s.serve.sessions ∧ t.serve.adapterCmds = s.serve.adapterCmds ∧
       t.pkg = { s.pkg with gen := t.pkg.gen } ∧ t.pkg.gen = { s.pkg.gen with staging := t.pkg.gen.staging } ∧
       ∃ g, t.pkg.gen.staging = s.pkg.gen.staging ++ [g] ∧ g.window = w.val ∧ g.seq = h.seq ∧ g.generation = b.generation ∧
         g.addr = b.ingotAddr ∧ g.len = b.ingotLen ∧ g.table = b.patternTable) ∧
     (∀ g, s.accepts w.val h (.genSwitch g) pin cont → ∃ t x, exec (.genSwitch w h g) s = .next t ∧
       Accepted s t w.val h (.genSwitch g) ∧ t.serve.sessions = s.serve.sessions ∧ t.serve.adapterCmds = s.serve.adapterCmds ∧
       t.pkg = { s.pkg with gen := { s.pkg.gen with switch := some x } } ∧ x.window = w.val ∧ x.seq = h.seq ∧ x.generation = g ∧
       x.phase = .waiting)) ∧
  (∀ (s : State) (hd : Nat) (i : AdapterImage) (g : IngotImage),
     (∀ c, (s.serve.adapterCmds.find? fun c => c.handle == hd && !c.drop && c.image.isNone) = some c →
       ∀ r, r = (s.readImage c.addr c.len).2 →
       ((r.poison = true ∨ r.lengthOk c.len = false ∨ s.imageAuthentic ['A', 'D', 'A', 'P', 'T', 'E', 'R'] r = false ∨
           (r.wrapCount ≠ 0 ∧ (s.lock.fuses.unwrap r = none ∨ s.lock.debugOpen = true)) ∨ r.rank = 0 ∨ 64 < r.rank ∨ 4095 < r.tenant ∨
           i.shapesMatch = false ∨ s.poolFree (c.window / 4) < ceilDiv r.bodyLength Config.pageBytes) →
         ∃ t, exec (.adapterVerified hd i) s = .next t ∧
           t.serve.adapterCmds = s.serve.adapterCmds.filter (fun d => !(d.window == c.window && d.seq == c.seq)) ∧
           (t.win c.window).awaiting = (s.win c.window).awaiting - 1 ∧
           (t.win c.window).journal = s.putJournal c.window (·.filter fun j => j.1 != c.seq) (s.win c.window).journal ∧
           ((s.win c.window).heldOutcomes = [] → s.respFree c.window = true →
             ((t.win c.window).ring 0).produced = ((s.win c.window).ring 0).produced + 1) ∧
           (s.respFree c.window = false → ∃ o, (t.win c.window).heldOutcomes = (s.win c.window).heldOutcomes ++ [o] ∧ o.kind = 0x05 ∧
             o.code = (if r.poison = true then Code.poison.num else if r.lengthOk c.len = false then Code.length.num
               else if s.imageAuthentic ['A', 'D', 'A', 'P', 'T', 'E', 'R'] r = false ∨
                 (r.wrapCount ≠ 0 ∧ (s.lock.fuses.unwrap r = none ∨ s.lock.debugOpen = true)) then Code.auth.num
               else if r.rank = 0 ∨ 64 < r.rank ∨ 4095 < r.tenant ∨ i.shapesMatch = false then Code.format.num else Code.busy.num)) ∧
           t.serve.images = s.serve.images ∧ t.serve.handles = s.serve.handles) ∧
       (r.poison = false → r.lengthOk c.len = true → s.imageAuthentic ['A', 'D', 'A', 'P', 'T', 'E', 'R'] r = true →
         (r.wrapCount = 0 ∨ (s.lock.fuses.unwrap r).isSome = true ∧ s.lock.debugOpen = false) → 1 ≤ r.rank → r.rank ≤ 64 →
         r.tenant ≤ 4095 → i.shapesMatch = true → ceilDiv r.bodyLength Config.pageBytes ≤ s.poolFree (c.window / 4) →
         ∃ t x, exec (.adapterVerified hd i) s = .next t ∧ t.serve.images = s.serve.images ++ [x] ∧ x.id = s.serve.nextImage ∧
           x.handle = hd ∧ x.digest = r.digest ∧ x.baseDigest = r.baseDigest ∧ x.tenant = r.tenant ∧ x.rank = r.rank ∧
           x.modifiesKV = i.modifiesKV ∧ x.pages.length = ceilDiv r.bodyLength Config.pageBytes ∧ x.bound = 0 ∧
           t.serve.handles = s.serve.handles ∧ t.serve.windows = s.serve.windows ∧
           (∀ d ∈ t.serve.adapterCmds, d.window = c.window → d.seq = c.seq → d.image = some x.id))) ∧
     (s.pkg.gen.switch.isSome = true → exec (.ingotStageVerified g) s = .next s) ∧
     (∀ c rest, s.pkg.gen.staging = c :: rest → s.pkg.gen.switch = none →
       ∀ u r l, u = (s.readImage c.addr c.len).1 → r = (s.readImage c.addr c.len).2 → l = u.patternTable c.table g.patterns →
       ((r.poison = true ∨ (u.hostRead c.table 128).2.poison = true ∨ r.lengthOk c.len = false ∨
           s.imageAuthentic ['I', 'N', 'G', 'O', 'T'] r = false ∨ s.lock.fuses.unwrap r = none ∨ s.lock.debugOpen = true ∨
           bodyOk r.vocab g.body = false ∨ l = [] ∨ ∃ e ∈ l, u.imageChecks e.die e.image e.base e.len4k false ≠ none) →
         ∃ t, exec (.ingotStageVerified g) s = .next t ∧ t.pkg.gen = { s.pkg.gen with staging := rest } ∧
           (t.win c.window).awaiting = (s.win c.window).awaiting - 1 ∧
           (s.respFree c.window = false → ∃ o, (t.win c.window).heldOutcomes = (s.win c.window).heldOutcomes ++ [o] ∧ o.kind = 0x05 ∧
             o.code = (if r.poison = true ∨ (u.hostRead c.table 128).2.poison = true then Code.poison.num
               else if r.lengthOk c.len = false then Code.length.num
               else if s.imageAuthentic ['I', 'N', 'G', 'O', 'T'] r = false ∨ s.lock.fuses.unwrap r = none ∨ s.lock.debugOpen = true
               then Code.auth.num
               else if bodyOk r.vocab g.body = false ∨ l = [] then Code.format.num
               else ((l.findSome? fun e => u.imageChecks e.die e.image e.base e.len4k false).getD .format).num))) ∧
       (r.poison = false → (u.hostRead c.table 128).2.poison = false → r.lengthOk c.len = true →
         s.imageAuthentic ['I', 'N', 'G', 'O', 'T'] r = true → s.lock.debugOpen = false → bodyOk r.vocab g.body = true → l ≠ [] →
         (∀ e ∈ l, u.imageChecks e.die e.image e.base e.len4k false = none) → ∀ key, s.lock.fuses.unwrap r = some key →
         (s.pkg.gen.inService.isSome = true ∨ s.resident c.generation r.digest = false →
           ∃ t x, exec (.ingotStageVerified g) s = .next t ∧ t.pkg.gen = { s.pkg.gen with staging := rest, staged := some x } ∧
             x.generation = c.generation ∧ x.digest = r.digest ∧ x.kvTag = r.kvTag ∧ x.vocab = r.vocab ∧ x.patterns = l ∧
             x.contentKey = key ∧ (t.win c.window).awaiting = (s.win c.window).awaiting - 1) ∧
         (s.pkg.gen.inService = none → s.resident c.generation r.digest = true →
           ∃ t x, exec (.ingotStageVerified g) s = .next t ∧ t.pkg.gen = { s.pkg.gen with staging := rest, inService := some x } ∧
             x.generation = c.generation ∧ x.digest = r.digest ∧ x.contentKey = key))))
/-- Every command of an intake window: a write is refused BUSY while a debug opening is under way, LOCKED at a spent window and UNDRAINED at a
full queue; without a released slot it waits undecided; a number below next_seq is a DUPLICATE, one above it and a failed check are a
REJECT, of which only the record, and for the failed check the number, remain (R328, R329, R330, R331, R340, R341). -/
def Obligations.IntakeRefusesHoldsAndRejects : Prop :=
  ∀ (s : State) (c : Instr) (w : Nat) (h : CmdHead) (b : Body), intakeOf c = some (w, h, b) →
    s.pkg.phase = .service → w / 4 ∉ s.pkg.hubFaulty →
    (∀ e, s.serve.debugScope.isSome = true ∧ e = Code.busy ∨
        s.portOpen w ∧ (s.win w).spent = true ∧ e = Code.locked ∨
        s.portOpen w ∧ (s.win w).spent = false ∧ 256 ≤ (s.win w).queue.length ∧ e = Code.undrained →
      ∃ t, exec c s = .next t ∧ t.reg (.intake w) 0x218 = satAdd (s.reg (.intake w) 0x218) 1 ∧
        (t.win w).queue = (s.win w).queue ∧ (t.win w).nextSeq = (s.win w).nextSeq ∧ t.serve.sessions = s.serve.sessions ∧
        (((s.reg (.intake w) 0x020).field 32 8 = 0 → (t.reg (.intake w) 0x020).field 32 8 = e.num)) ∧
        (s.respFree w = true → OneRecord s t w) ∧ (s.respFree w = false → t.serve = s.serve)) ∧
    (s.portOpen w → (s.win w).spent = false → (s.win w).queue.length < 256 → (s.win w).heldOutcomes = [] → s.respFree w = false →
      ∃ t, exec c s = .next t ∧ t.win w = { s.win w with queue := (s.win w).queue ++ [(h, b)] } ∧ (∀ k, k ≠ w → t.win k = s.win k) ∧
        t = { s with serve := { s.serve with windows := t.serve.windows } }) ∧
    (s.intakeOpen w → h.seq ≠ (s.win w).nextSeq → ∃ t, exec c s = .next t ∧ OneRecord s t w ∧
      t.win w = { s.win w with rings := (t.win w).rings } ∧ t.serve = { s.serve with windows := t.serve.windows } ∧
      t.reg (.intake w) (if h.seq < (s.win w).nextSeq then 0x210 else 0x208) =
        satAdd (s.reg (.intake w) (if h.seq < (s.win w).nextSeq then 0x210 else 0x208)) 1) ∧
    (∀ e, s.intakeOpen w → h.seq = (s.win w).nextSeq → ((s.arrived w h b).check w h b).2 = .error e →
      ∃ t, exec c s = .next t ∧ OneRecord s t w ∧
        t.win w = { s.win w with
          decided := true, spent := decide (2 ^ 64 - 1 ≤ h.seq), nextSeq := min (h.seq + 1) (2 ^ 64 - 1), rings := (t.win w).rings } ∧
        t.serve = { s.serve with windows := t.serve.windows } ∧ t.pkg = s.pkg ∧ t.store = s.store)

/-- RESP_CFG, RESP_RELEASE and NEXT_SEQ: a ring is configured only within the partition and while unused, and then counts from zero; its
released count takes what is written unless that falls or passes a slot not yet written; next_seq is written until the window has decided
a command, and again once it is spent (R331, R335, R336, R348). -/
def Obligations.RingAndSequenceRegisters : Prop :=
  ∀ (s : State) (w : WinId) (n : Fin 9) (v : Word), s.answers = true →
    (v.field 0 4 ≤ 10 → s.inPartition (64 * v.field 6 42) (64 * 2 ^ (6 + v.field 0 4)) = true → s.ringInUse w.val n.val = false →
      ∃ t, exec (.respCfg w n v) s = .next t ∧ ((t.win w.val).ring n.val).size = 2 ^ (6 + v.field 0 4) ∧
        ((t.win w.val).ring n.val).base = 64 * v.field 6 42 ∧ ((t.win w.val).ring n.val).produced = 0 ∧
        ((t.win w.val).ring n.val).released = 0 ∧ (∀ k, k ≠ n.val → (t.win w.val).ring k = (s.win w.val).ring k) ∧
        t.win w.val = { s.win w.val with rings := (t.win w.val).rings } ∧ (∀ k, k ≠ w.val → t.win k = s.win k) ∧
        t = { s with serve := { s.serve with windows := t.serve.windows } }) ∧
    (10 < v.field 0 4 → Refused (.respCfg w n v) s (.intake w.val) .length) ∧
    (v.field 0 4 ≤ 10 → s.inPartition (64 * v.field 6 42) (64 * 2 ^ (6 + v.field 0 4)) = false →
      Refused (.respCfg w n v) s (.intake w.val) .auth) ∧
    (v.field 0 4 ≤ 10 → s.inPartition (64 * v.field 6 42) (64 * 2 ^ (6 + v.field 0 4)) = true → s.ringInUse w.val n.val = true →
      Refused (.respCfg w n v) s (.intake w.val) .busy) ∧
    (((s.win w.val).ring n.val).released ≤ v.toNat →
      v.toNat ≤ ((s.win w.val).ring n.val).produced + ((s.win w.val).ring n.val).size →
      (n.val ≠ 0 ∨ ((s.win w.val).queue = [] ∧ (s.win w.val).heldOutcomes = [])) →
      ∃ t, exec (.respRelease w n v) s = .next t ∧ ((t.win w.val).ring n.val) = { (s.win w.val).ring n.val with released := v.toNat } ∧
        (∀ k, k ≠ n.val → (t.win w.val).ring k = (s.win w.val).ring k) ∧
        t.win w.val = { s.win w.val with rings := (t.win w.val).rings } ∧ (∀ k, k ≠ w.val → t.win k = s.win k) ∧
        t = { s with serve := { s.serve with windows := t.serve.windows } }) ∧
    (((s.win w.val).ring n.val).produced + ((s.win w.val).ring n.val).size < v.toNat →
      Refused (.respRelease w n v) s (.intake w.val) .unfilled) ∧
    (v.toNat ≤ ((s.win w.val).ring n.val).produced + ((s.win w.val).ring n.val).size →
      v.toNat < ((s.win w.val).ring n.val).released → Refused (.respRelease w n v) s (.intake w.val) .length) ∧
    ((s.win w.val).decided = false ∨ (s.win w.val).spent = true →
      ∃ t, exec (.nextSeq w v) s = .next t ∧ t.win w.val = { s.win w.val with nextSeq := v.toNat, spent := false } ∧
        (∀ k, k ≠ w.val → t.win k = s.win k) ∧ t = { s with serve := { s.serve with windows := t.serve.windows } }) ∧
    ((s.win w.val).decided = true → (s.win w.val).spent = false → Refused (.nextSeq w v) s (.intake w.val) .busy)

/-- DIE.PAT_LOAD and LOAD_COMPLETE: a load that passes every check ends the die's leases, raises DIE.EPOCH and waits for its completion, after
which pads and granary read zero and the regions are written; a load that fails a check is logged, an unload under a step and a write of
both bits are refused, and a completion under another epoch has no effect (R216, R234, R235, R236, R238, R240). -/
def Obligations.PatternLoadsAreCheckedAndComplete : Prop :=
  ∀ (s : State) (d : DieId) (v : Word) (i p : PatternImage), p = s.patternNamed v (some i) →
    (s.answers = true →
      (v.bit 0 = true → v.bit 1 = false →
        s.stepOnDie d.val = false → (s.die d.val).patchBusy = false → (s.die d.val).spareJobs = [] → (s.die d.val).loading = none →
        v.field 48 16 ≠ 0 → s.checkRange (v.field 12 36 * 4096) (4096 * v.field 48 16) = none →
        s.poisonIn (v.field 12 36 * 4096) (4096 * v.field 48 16) = false →
        s.imageDigestAt (v.field 12 36 * 4096) (4096 * v.field 48 16) = p.imageDigest → headerOk p d.val = true →
        p.dieRevision = s.pkg.dieRevision → p.role = s.pkg.role → s.pkg.role = 1 ∨ s.pkg.role = 2 ∨ s.pkg.role = 4 →
        p.memMode = b2n (s.die d.val).mapMode →
        (∀ n ∈ s.usedCrofts d.val p, (s.croft n).digest = p.ingotDigest ∧ (s.croft n).generation = p.generation) →
        regionsOk p (4096 * v.field 48 16) = true → timesOk p s.pkg.bellNs = true → scheduleOk p = true → contentsOk p = true →
        s.positionsOk d.val p = true →
        ∃ t, exec (.patLoadGo d v i) s = .next t ∧ (t.die d.val).loading = some p ∧ (t.die d.val).loadDone = false ∧
          (t.die d.val).epoch = (s.die d.val).epoch + 1 ∧ (t.die d.val).pattern = (s.die d.val).pattern ∧
          (∀ k, ((t.die d.val).lease k).held = false) ∧
          (∀ e, e ≠ d.val → t.die e = s.die e) ∧ t = { s with regs := t.regs, dies := t.dies } ∧
          (∀ a, a ≠ (Page.die d.val).base + 0x108 → t.regAt a = s.regAt a)) ∧
      (∀ e, v.bit 0 = true → v.bit 1 = false → s.loadCheck d.val p (v.field 12 36 * 4096) (v.field 48 16) = some e →
        ∃ t, exec (.patLoadGo d v i) s = .next t ∧ LoggedIn (s.storeFields (.die d.val) 0x108 v) t (.die d.val) e) ∧
      (v.bit 0 = true → v.bit 1 = true →
        Refused (.patLoadGo d v i) s (.die d.val) .format ∧ Refused (.patLoadUnload d v) s (.die d.val) .format) ∧
      (v.bit 0 = false → v.bit 1 = true → s.stepOnDie d.val = true → Refused (.patLoadUnload d v) s (.die d.val) .busy) ∧
      (v.bit 0 = false → v.bit 1 = true → s.stepOnDie d.val = false →
        ∃ t, exec (.patLoadUnload d v) s = .next t ∧
          t.die d.val = { s.die d.val with unloadAsked := true, unloadLoad := (s.die d.val).loading.isSome } ∧
          (∀ e, e ≠ d.val → t.die e = s.die e) ∧ t = { s with regs := t.regs, dies := t.dies })) ∧
    (∀ p, (s.die d.val).loading = some p →
      (∃ t, exec (.loadComplete d (s.die d.val).epoch.toNat) s = .next t ∧ (t.die d.val).loadDone = true ∧
        (t.die d.val).loading = some p ∧ (t.die d.val).powerAct = p.powerAct ∧ (t.die d.val).powerPs = p.powerPs ∧
        (∀ b, (t.die d.val).granary.get b = 0) ∧
        (∀ n, croftDie n = d.val → ∀ b, (t.croft n).actPad.get b = 0 ∧ (t.croft n).psPad.get b = 0) ∧
        ((∀ h ∈ p.hot, 0x18000 ≤ h.copies) → ∀ n b, b < 0x18000 → (t.croft n).store.get b = (s.croft n).store.get b) ∧
        (∀ r, p.hot = [] → p.regions = [r] → (r.lines.map (·.1)).Nodup → ∀ e ∈ r.lines,
          (t.croft (s.physOf d.val r.row.val r.lcol.val)).store.get (0x18000 + e.1) = e.2) ∧
        (∀ n, croftDie n ≠ d.val → t.croft n = s.croft n) ∧ (∀ x, t.sess x = (s.sess x).dropLanes d.val) ∧
        (∀ e, e ≠ d.val → t.die e = s.die e) ∧
        t = { s with dies := t.dies, crofts := t.crofts, serve := { s.serve with sessions := t.serve.sessions } }) ∧
      (∀ e, e ≠ (s.die d.val).epoch.toNat → exec (.loadComplete d e) s = .next s)) ∧
    (∀ e, (s.die d.val).loading = none → exec (.loadComplete d e) s = .next s)

/-- DIE.FENCE_REQ, DIE.RECAST_REQ and QUENCH_INTERVAL: a croft is fenced, its casts end, and the coordinate it held passes to the nearer free
spare, whose pads and store are empty, or the die is degraded; a spare that holds none only leaves the stock; a recast in place queues the named mould or every mould that is due; a quench zeroes the rows of
what was released and leaves every other croft alone (R74, R217, R220, R223, R250, R251, R254, R256, R503, R504; log 57 for ROLE before
STATE). -/
def Obligations.FencesRecastsQuench : Prop :=
  ∀ (s : State) (d : DieId) (v : Word),
    (s.answers = true →
      (33 < v.field 0 6 → Refused (.fenceReq d v) s (.die d.val) .length) ∧
      (∀ n, v.field 0 6 ≤ 33 → n = 2048 * d.val + 64 * v.field 8 5 + v.field 0 6 → s.service n = .fenced →
        exec (.fenceReq d v) s = .next s) ∧
      (∀ n col free, v.field 0 6 ≤ 33 → n = 2048 * d.val + 64 * v.field 8 5 + v.field 0 6 → s.service n ≠ .fenced →
        (isSpareColumn (v.field 0 6) = false ∧ col = logicalColumn (v.field 0 6)) ∨
          (isSpareColumn (v.field 0 6) = true ∧ (s.croft n).spareColumn = some col) →
        free = (s.freeSpareCrofts d.val (v.field 8 5)).filter (fun k => k != n) →
        ∃ t, exec (.fenceReq d v) s = .next t ∧ t.croft n = { (s.croft n).endCasts with service := some .fenced } ∧
          n ∈ (t.die d.val).quenchCrofts ∧ (∀ e, e ≠ d.val → t.die e = s.die e) ∧
          (∀ p, nearerSpare free (v.field 0 6) = some p →
            (∃ j ∈ (t.die d.val).spareJobs, j.row = v.field 8 5 ∧ j.column = col ∧ j.spare = p ∧ j.fenced = n) ∧
            (t.croft p).actPad = [] ∧ (t.croft p).psPad = [] ∧
            ((s.die d.val).pattern = none → (t.croft p).store = []) ∧ (∀ k, k ≠ n → k ≠ p → t.croft k = s.croft k)) ∧
          (nearerSpare free (v.field 0 6) = none → (t.die d.val).degraded = true ∧ ∀ k, k ≠ n → t.croft k = s.croft k) ∧
          t = { s with regs := t.regs, stew := t.stew, dies := t.dies, crofts := t.crofts }) ∧
      (∀ n, v.field 0 6 ≤ 33 → n = 2048 * d.val + 64 * v.field 8 5 + v.field 0 6 → s.service n ≠ .fenced →
        isSpareColumn (v.field 0 6) = true → (s.croft n).spareColumn = none → (∀ j ∈ (s.die d.val).spareJobs, j.spare ≠ n) →
        ∃ t, exec (.fenceReq d v) s = .next t ∧ t.croft n = { (s.croft n).endCasts with service := some .fenced } ∧
          (t.die d.val).degraded = (s.die d.val).degraded ∧ (t.die d.val).spareJobs = (s.die d.val).spareJobs ∧
          (∀ k, k ≠ n → t.croft k = s.croft k) ∧ t = { s with regs := t.regs, stew := t.stew, dies := t.dies, crofts := t.crofts }) ∧
      (33 < v.field 16 6 → Refused (.recastMould d v) s (.die d.val) .length ∧ Refused (.recastAll d v) s (.die d.val) .length) ∧
      (∀ n, v.field 16 6 ≤ 33 → n = 2048 * d.val + 64 * v.field 8 5 + v.field 16 6 →
        (s.pkg.role = 3 → Refused (.recastMould d v) s (.die d.val) .role ∧ Refused (.recastAll d v) s (.die d.val) .role) ∧
        (s.pkg.role ≠ 3 → s.service n ≠ .inService →
          Refused (.recastMould d v) s (.die d.val) .state ∧ Refused (.recastAll d v) s (.die d.val) .state) ∧
        (s.pkg.role ≠ 3 → s.service n = .inService → (s.croft n).castBusy = true →
          Refused (.recastMould d v) s (.die d.val) .busy ∧ Refused (.recastAll d v) s (.die d.val) .busy) ∧
        (s.pkg.role ≠ 3 → s.service n = .inService → (s.croft n).castBusy = false →
          exec (.recastAll d v) s = .next (s.modCroft n fun c => { c with recasts := c.dueMoulds }) ∧
          (v.bit 4 = false → exec (.recastMould d v) s = .next (s.modCroft n fun c => { c with recasts := [v.field 0 4] }))))) ∧
    (∀ u, u = s.finishTransfers d.val →
      ∃ t, exec (.quenchInterval d) s = .next t ∧
        (∀ e ∈ (u.quenchSet d.val).act, ∀ i, i < 512 → (t.croft e.1).actPad.get (512 * (u.die d.val).padRow e.1 false e.2 + i) = 0) ∧
        (∀ e ∈ (u.quenchSet d.val).ps, ∀ i, i < 512 → (t.croft e.1).psPad.get (512 * (u.die d.val).padRow e.1 true e.2 + i) = 0) ∧
        (∀ e ∈ (u.quenchSet d.val).lines, ∀ i, i < 256 → (t.croft e.1).store.get (256 * e.2 + i) = 0) ∧
        (∀ r ∈ (u.quenchSet d.val).gran, ∀ i, i < 512 → (t.die d.val).granByte (512 * r + i) = 0) ∧
        (∀ n ∈ (u.die d.val).quenchCrofts, ∀ b, (t.croft n).actPad.get b = 0 ∧ (t.croft n).psPad.get b = 0 ∧ (t.croft n).store.get b = 0) ∧
        (∀ n, (∀ e ∈ (u.quenchSet d.val).act, e.1 ≠ n) → (∀ e ∈ (u.quenchSet d.val).ps, e.1 ≠ n) →
          (∀ e ∈ (u.quenchSet d.val).lines, e.1 ≠ n) → n ∉ (u.die d.val).quenchCrofts → n ∉ (u.die d.val).quenchCasts.map (·.1) →
          t.croft n = u.croft n) ∧
        (∀ b, (∀ r ∈ (u.quenchSet d.val).gran, (u.die d.val).granRow (r / 2048) (r % 2048) ≠ b / 512) →
          (t.die d.val).granary.get b = (u.die d.val).granary.get b) ∧
        (t.die d.val).quenchLanes = [] ∧ (t.die d.val).quenchCrofts = [] ∧ (t.die d.val).quenchCasts = [] ∧
        (t.die d.val).quenchAll = false ∧ (∀ e, e ≠ d.val → t.die e = u.die e) ∧
        t = { u with regs := t.regs, dies := t.dies, crofts := t.crofts })

/-- BELL: a bell rings only while bells ring; it reaches the time of the next bell, opens a round of the period in SYS.BELL_NS, brings role,
probe pack and class limits into force, and with no context in use refills every tenant's balance (R22, R241, R349, R350, R382, R494). -/
def Obligations.BellOpensTheRound : Prop :=
  ∀ (s : State) (b : BellIn),
    (s.pkg.phase ≠ .service → s.pkg.phase ≠ .entering → s.pkg.phase ≠ .powerFail → exec (.bell b) s = .next s) ∧
    (s.pkg.phase = .service ∨ s.pkg.phase = .entering ∨ s.pkg.phase = .powerFail →
      ∃ t, exec (.bell b) s = .next t ∧ t.clock.lastBell = s.clock.nextBell ∧ t.clock.time = max s.clock.time s.clock.nextBell ∧
        t.pkg.bellNs = (s.reg .sys 0x118).field 0 14 ∧ t.clock.nextBell = s.clock.nextBell + t.pkg.bellNs ∧
        t.pkg.role = s.pkg.rolePending.getD s.pkg.role ∧ t.pkg.rolePending = none ∧
        t.pkg.pack = (if s.pkg.packClear then none else s.pkg.packPending.or s.pkg.pack) ∧ t.pkg.packPending = none ∧
        t.pkg.packClear = false ∧ t.tally.limits = s.tally.limitsNext.getD s.tally.limits ∧ t.tally.limitsNext = none ∧
        t.pkg.phase = s.pkg.phase ∧ t.pending = s.pending ∧
        (s.serve.sessions = [] → s.serve.steps = [] → ∀ k, t.tenant k = (s.tenant k).refill t.pkg.bellNs))
end

