-- ==== Sys2Proof/Laws/Tables.lean ====
section
/-!
SUPPORT. Laws of sparse tables and byte memories: a read after a write to the same key gives the value written, every other key
reads as before, and every operation keeps the canonical form.
-/
namespace Sys2Proof.Machine

variable {α : Type}

@[simp] theorem tget_nil (d : Nat → α) (k : Nat) : tget d [] k = d k := rfl

theorem tget_cons (d : Nat → α) (j k : Nat) (v : α) (m : Table α) :
    tget d ((j, v) :: m) k = if k = j then v else tget d m k := rfl

theorem tget_tdrop (d : Nat → α) (m : Table α) (k j : Nat) : tget d (tdrop m k) j = if j = k then d k else tget d m j := by
  induction m with
  | nil => by_cases h : j = k <;> simp [tdrop, h]
  | cons e m ih =>
    obtain ⟨i, w⟩ := e
    simp only [tdrop] at ih ⊢
    by_cases hi : i = k
    · subst hi
      simp only [List.filter_cons, bne_self_eq_false, Bool.false_eq_true, if_false, ih, tget_cons]
      by_cases hj : j = i <;> simp [hj]
    · have : (i != k) = true := by simpa using hi
      simp only [List.filter_cons, this, if_true, tget_cons, ih]
      by_cases hj : j = i
      · subst hj; simp [hi]
      · simp [hj]

theorem tget_tinsert (d : Nat → α) (m : Table α) (k j : Nat) (v : α) (h : ∀ e ∈ m, e.1 ≠ k) :
    tget d (tinsert m k v) j = if j = k then v else tget d m j := by
  induction m with
  | nil => simp [tinsert, tget_cons]
  | cons e m ih =>
    obtain ⟨i, w⟩ := e
    have hi : i ≠ k := h (i, w) (by simp)
    simp only [tinsert]
    split
    · simp [tget_cons]
    · rw [tget_cons, ih fun e he => h e (by simp [he]), tget_cons]
      by_cases hj : j = i
      · subst hj; simp [hi]
      · simp [hj]

theorem tdrop_ne (m : Table α) (k : Nat) : ∀ e ∈ tdrop m k, e.1 ≠ k := by
  intro e he
  simpa [tdrop] using (List.mem_filter.1 he).2

/-- Read after write. -/
theorem tget_tput [DecidableEq α] (d : Nat → α) (m : Table α) (k j : Nat) (v : α) :
    tget d (tput d m k v) j = if j = k then v else tget d m j := by
  unfold tput
  split
  · rename_i h; rw [tget_tdrop, h]
  · rw [tget_tinsert _ _ _ _ _ (tdrop_ne m k), tget_tdrop]
    by_cases hj : j = k <;> simp [hj]

@[simp] theorem tget_tput_self [DecidableEq α] (d : Nat → α) (m : Table α) (k : Nat) (v : α) : tget d (tput d m k v) k = v := by
  simp [tget_tput]

theorem tget_tput_ne [DecidableEq α] (d : Nat → α) (m : Table α) {k j : Nat} (v : α) (h : j ≠ k) :
    tget d (tput d m k v) j = tget d m j := by
  simp [tget_tput, h]

theorem tget_tmod [DecidableEq α] (d : Nat → α) (m : Table α) (k j : Nat) (f : α → α) :
    tget d (tmod d m k f) j = if j = k then f (tget d m k) else tget d m j := tget_tput d m k j _

@[simp] theorem tget_tmod_self [DecidableEq α] (d : Nat → α) (m : Table α) (k : Nat) (f : α → α) :
    tget d (tmod d m k f) k = f (tget d m k) := by simp [tget_tmod]

/-! ### Tables without a default -/

@[simp] theorem tfind_nil (k : Nat) : tfind ([] : Table α) k = none := rfl

theorem tfind_cons (j k : Nat) (v : α) (m : Table α) : tfind ((j, v) :: m) k = if j = k then some v else tfind m k := by
  by_cases h : j = k <;> simp [tfind, h]

theorem tfind_tdrop (m : Table α) (k j : Nat) : tfind (tdrop m k) j = if j = k then none else tfind m j := by
  induction m with
  | nil => simp [tdrop]
  | cons e m ih =>
    obtain ⟨i, w⟩ := e
    simp only [tdrop] at ih ⊢
    by_cases hi : i = k
    · subst hi
      simp only [List.filter_cons, bne_self_eq_false, Bool.false_eq_true, if_false, ih, tfind_cons]
      by_cases hj : j = i
      · simp [hj]
      · simp [hj, Ne.symm hj]
    · have : (i != k) = true := by simpa using hi
      simp only [List.filter_cons, this, if_true, tfind_cons, ih]
      by_cases hj : i = j
      · subst hj; simp [hi]
      · simp [hj]

theorem tfind_tinsert (m : Table α) (k j : Nat) (v : α) (h : ∀ e ∈ m, e.1 ≠ k) :
    tfind (tinsert m k v) j = if j = k then some v else tfind m j := by
  induction m with
  | nil =>
    by_cases hj : j = k
    · simp [tinsert, tfind_cons, hj]
    · simp [tinsert, tfind_cons, hj, Ne.symm hj]
  | cons e m ih =>
    obtain ⟨i, w⟩ := e
    have hi : i ≠ k := h (i, w) (by simp)
    simp only [tinsert]
    split
    · by_cases hj : j = k
      · simp [tfind_cons, hj]
      · simp [tfind_cons, hj, Ne.symm hj]
    · rw [tfind_cons, ih fun e he => h e (by simp [he]), tfind_cons]
      by_cases hj : i = j
      · subst hj; simp [hi]
      · simp [hj]

theorem tfind_tset (m : Table α) (k j : Nat) (v : α) : tfind (tset m k v) j = if j = k then some v else tfind m j := by
  unfold tset
  rw [tfind_tinsert _ _ _ _ (tdrop_ne m k), tfind_tdrop]
  by_cases hj : j = k <;> simp [hj]

@[simp] theorem tfind_tset_self (m : Table α) (k : Nat) (v : α) : tfind (tset m k v) k = some v := by simp [tfind_tset]

/-! ### The canonical form -/

/-- Keys strictly rising and no entry equal to the default, as a property of the list. -/
theorem twf_iff [DecidableEq α] (d : Nat → α) (m : Table α) :
    twf d m = true ↔ m.Pairwise (fun a b => a.1 < b.1) ∧ ∀ e ∈ m, e.2 ≠ d e.1 := by
  induction m with
  | nil => simp [twf]
  | cons e m ih =>
    obtain ⟨i, w⟩ := e
    cases m with
    | nil => simp [twf]
    | cons e' m =>
      obtain ⟨i', w'⟩ := e'
      simp only [twf, Bool.and_eq_true, decide_eq_true_eq] at ih ⊢
      rw [ih]
      constructor
      · rintro ⟨⟨h1, h2⟩, h3, h4⟩
        refine ⟨?_, ?_⟩
        · rw [List.pairwise_cons]
          refine ⟨?_, h3⟩
          intro a ha
          rcases List.mem_cons.1 ha with rfl | ha
          · exact h2
          · exact Nat.lt_trans h2 ((List.pairwise_cons.1 h3).1 a ha)
        · intro a ha
          rcases List.mem_cons.1 ha with rfl | ha
          · exact h1
          · exact h4 a ha
      · rintro ⟨h1, h2⟩
        rw [List.pairwise_cons] at h1
        exact ⟨⟨h2 (i, w) (by simp), h1.1 (i', w') (by simp)⟩, h1.2, fun e he => h2 e (by simp [he])⟩

theorem mem_tinsert (m : Table α) (k : Nat) (v : α) (e : Nat × α) : e ∈ tinsert m k v ↔ e = (k, v) ∨ e ∈ m := by
  induction m with
  | nil => simp [tinsert]
  | cons x m ih =>
    obtain ⟨i, w⟩ := x
    simp only [tinsert]
    split
    · simp
    · simp only [List.mem_cons, ih]; tauto

theorem pairwise_tinsert (m : Table α) (k : Nat) (v : α) (h : m.Pairwise fun a b => a.1 < b.1) (hk : ∀ e ∈ m, e.1 ≠ k) :
    (tinsert m k v).Pairwise fun a b => a.1 < b.1 := by
  induction m with
  | nil => simp [tinsert]
  | cons x m ih =>
    obtain ⟨i, w⟩ := x
    rw [List.pairwise_cons] at h
    have hi : i ≠ k := hk (i, w) (by simp)
    simp only [tinsert]
    split
    · rename_i hlt
      refine List.pairwise_cons.2 ⟨?_, List.pairwise_cons.2 h⟩
      intro a ha
      rcases List.mem_cons.1 ha with rfl | ha
      · exact hlt
      · exact Nat.lt_trans hlt (h.1 a ha)
    · rename_i hlt
      refine List.pairwise_cons.2 ⟨?_, ih h.2 fun e he => hk e (by simp [he])⟩
      intro a ha
      rcases (mem_tinsert m k v a).1 ha with rfl | ha
      · simp only; omega
      · exact h.1 a ha

/-- A write keeps the canonical form. -/
theorem twf_tput [DecidableEq α] (d : Nat → α) (m : Table α) (k : Nat) (v : α) (h : twf d m = true) :
    twf d (tput d m k v) = true := by
  rw [twf_iff] at h ⊢
  have hd : (tdrop m k).Pairwise (fun a b => a.1 < b.1) := h.1.filter _
  have he : ∀ e ∈ tdrop m k, e.2 ≠ d e.1 := fun e he => h.2 e (List.mem_filter.1 he).1
  unfold tput
  split
  · exact ⟨hd, he⟩
  · rename_i hv
    refine ⟨pairwise_tinsert _ _ _ hd (tdrop_ne m k), ?_⟩
    intro e hm
    rcases (mem_tinsert _ _ _ e).1 hm with rfl | hm
    · exact hv
    · exact he e hm

theorem twf_filter [DecidableEq α] (d : Nat → α) (m : Table α) (f : Nat × α → Bool) (h : twf d m = true) :
    twf d (m.filter f) = true := by
  rw [twf_iff] at h ⊢
  exact ⟨h.1.filter _, fun e he => h.2 e (List.mem_filter.1 he).1⟩

/-! ### Byte memories -/

theorem Memory.get_set (m : Memory) (a b : Nat) (v : Byte) : (m.set a v).get b = if b = a then v else m.get b :=
  tget_tput _ _ _ _ _

theorem Memory.wf_set (m : Memory) (a : Nat) (v : Byte) (h : m.wf = true) : (m.set a v).wf = true := twf_tput _ _ _ _ h

theorem Memory.wf_setBytes (m : Memory) (a : Nat) (bs : List Byte) (h : m.wf = true) : (m.setBytes a bs).wf = true := by
  induction bs generalizing m a with
  | nil => exact h
  | cons b bs ih => exact ih _ _ (Memory.wf_set m a b h)

theorem Memory.wf_setLe (m : Memory) (a n v : Nat) (h : m.wf = true) : (m.setLe a n v).wf = true := Memory.wf_setBytes m a _ h

theorem Memory.wf_clear (m : Memory) (a n : Nat) (h : m.wf = true) : (m.clear a n).wf = true := twf_filter _ _ _ h

/-- Bytes outside a run of writes read as before. -/
theorem Memory.get_setBytes_out (m : Memory) (a b : Nat) (bs : List Byte) (h : b < a ∨ a + bs.length ≤ b) :
    (m.setBytes a bs).get b = m.get b := by
  induction bs generalizing m a with
  | nil => rfl
  | cons c bs ih =>
    simp only [Memory.setBytes, List.length_cons] at h ⊢
    rw [ih _ _ (by omega), Memory.get_set]
    have : b ≠ a := by omega
    simp [this]

/-- Bytes inside a run of writes read what was written. -/
theorem Memory.get_setBytes_in (m : Memory) (a i : Nat) (bs : List Byte) (h : i < bs.length) :
    (m.setBytes a bs).get (a + i) = bs[i] := by
  induction bs generalizing m a i with
  | nil => simp at h
  | cons c bs ih =>
    simp only [Memory.setBytes]
    cases i with
    | zero => rw [Memory.get_setBytes_out _ _ _ _ (by omega), Memory.get_set]; simp
    | succ i =>
      have := ih (m.set a c) (a + 1) i (by simpa using h)
      rw [show a + (i + 1) = a + 1 + i by omega, this]; rfl

theorem Memory.get_clear (m : Memory) (a n b : Nat) : (m.clear a n).get b = if a ≤ b ∧ b < a + n then 0 else m.get b := by
  unfold Memory.get
  induction m with
  | nil => simp [Memory.clear]
  | cons e m ih =>
    obtain ⟨i, w⟩ := e
    simp only [Memory.clear] at ih ⊢
    rw [List.filter_cons]
    split
    · rename_i hc
      rw [tget_cons, tget_cons, ih]
      by_cases hb : b = i
      · subst hb; simp at hc; simp; omega
      · simp [hb]
    · rename_i hc
      rw [ih, tget_cons]
      by_cases hb : b = i
      · subst hb; simp at hc; simp [hc]
      · simp [hb]

theorem Memory.wf_reset : Memory.wf [] = true := rfl

end Sys2Proof.Machine
end

