-- ==== Sys2Proof/Laws/State.lean ====
section
/-!
SUPPORT. What each update of a unit does to each field of State, so that no proof unfolds a record update: the field it writes, read
back, and every other field, unchanged.
-/
namespace Sys2Proof.Machine

variable (s : State)

/-! ### setDie -/

@[simp] theorem State.setDie_pending (d : Nat) (x : Die) : (s.setDie d x).pending = s.pending := rfl
@[simp] theorem State.setDie_fresh (d : Nat) (x : Die) : (s.setDie d x).fresh = s.fresh := rfl
@[simp] theorem State.setDie_clock (d : Nat) (x : Die) : (s.setDie d x).clock = s.clock := rfl
@[simp] theorem State.setDie_regs (d : Nat) (x : Die) : (s.setDie d x).regs = s.regs := rfl
@[simp] theorem State.setDie_pkg (d : Nat) (x : Die) : (s.setDie d x).pkg = s.pkg := rfl
@[simp] theorem State.setDie_crofts (d : Nat) (x : Die) : (s.setDie d x).crofts = s.crofts := rfl
@[simp] theorem State.setDie_serve (d : Nat) (x : Die) : (s.setDie d x).serve = s.serve := rfl
@[simp] theorem State.setDie_store (d : Nat) (x : Die) : (s.setDie d x).store = s.store := rfl
@[simp] theorem State.setDie_hbm (d : Nat) (x : Die) : (s.setDie d x).hbm = s.hbm := rfl
@[simp] theorem State.setDie_tally (d : Nat) (x : Die) : (s.setDie d x).tally = s.tally := rfl
@[simp] theorem State.setDie_sense (d : Nat) (x : Die) : (s.setDie d x).sense = s.sense := rfl
@[simp] theorem State.setDie_links (d : Nat) (x : Die) : (s.setDie d x).links = s.links := rfl
@[simp] theorem State.setDie_lock (d : Nat) (x : Die) : (s.setDie d x).lock = s.lock := rfl
@[simp] theorem State.setDie_stew (d : Nat) (x : Die) : (s.setDie d x).stew = s.stew := rfl

/-! ### modDie -/

@[simp] theorem State.modDie_pending (d : Nat) (f : Die → Die) : (s.modDie d f).pending = s.pending := rfl
@[simp] theorem State.modDie_fresh (d : Nat) (f : Die → Die) : (s.modDie d f).fresh = s.fresh := rfl
@[simp] theorem State.modDie_clock (d : Nat) (f : Die → Die) : (s.modDie d f).clock = s.clock := rfl
@[simp] theorem State.modDie_regs (d : Nat) (f : Die → Die) : (s.modDie d f).regs = s.regs := rfl
@[simp] theorem State.modDie_pkg (d : Nat) (f : Die → Die) : (s.modDie d f).pkg = s.pkg := rfl
@[simp] theorem State.modDie_crofts (d : Nat) (f : Die → Die) : (s.modDie d f).crofts = s.crofts := rfl
@[simp] theorem State.modDie_serve (d : Nat) (f : Die → Die) : (s.modDie d f).serve = s.serve := rfl
@[simp] theorem State.modDie_store (d : Nat) (f : Die → Die) : (s.modDie d f).store = s.store := rfl
@[simp] theorem State.modDie_hbm (d : Nat) (f : Die → Die) : (s.modDie d f).hbm = s.hbm := rfl
@[simp] theorem State.modDie_tally (d : Nat) (f : Die → Die) : (s.modDie d f).tally = s.tally := rfl
@[simp] theorem State.modDie_sense (d : Nat) (f : Die → Die) : (s.modDie d f).sense = s.sense := rfl
@[simp] theorem State.modDie_links (d : Nat) (f : Die → Die) : (s.modDie d f).links = s.links := rfl
@[simp] theorem State.modDie_lock (d : Nat) (f : Die → Die) : (s.modDie d f).lock = s.lock := rfl
@[simp] theorem State.modDie_stew (d : Nat) (f : Die → Die) : (s.modDie d f).stew = s.stew := rfl

/-! ### setCroft -/

@[simp] theorem State.setCroft_pending (n : Nat) (x : Croft) : (s.setCroft n x).pending = s.pending := rfl
@[simp] theorem State.setCroft_fresh (n : Nat) (x : Croft) : (s.setCroft n x).fresh = s.fresh := rfl
@[simp] theorem State.setCroft_clock (n : Nat) (x : Croft) : (s.setCroft n x).clock = s.clock := rfl
@[simp] theorem State.setCroft_regs (n : Nat) (x : Croft) : (s.setCroft n x).regs = s.regs := rfl
@[simp] theorem State.setCroft_pkg (n : Nat) (x : Croft) : (s.setCroft n x).pkg = s.pkg := rfl
@[simp] theorem State.setCroft_dies (n : Nat) (x : Croft) : (s.setCroft n x).dies = s.dies := rfl
@[simp] theorem State.setCroft_serve (n : Nat) (x : Croft) : (s.setCroft n x).serve = s.serve := rfl
@[simp] theorem State.setCroft_store (n : Nat) (x : Croft) : (s.setCroft n x).store = s.store := rfl
@[simp] theorem State.setCroft_hbm (n : Nat) (x : Croft) : (s.setCroft n x).hbm = s.hbm := rfl
@[simp] theorem State.setCroft_tally (n : Nat) (x : Croft) : (s.setCroft n x).tally = s.tally := rfl
@[simp] theorem State.setCroft_sense (n : Nat) (x : Croft) : (s.setCroft n x).sense = s.sense := rfl
@[simp] theorem State.setCroft_links (n : Nat) (x : Croft) : (s.setCroft n x).links = s.links := rfl
@[simp] theorem State.setCroft_lock (n : Nat) (x : Croft) : (s.setCroft n x).lock = s.lock := rfl
@[simp] theorem State.setCroft_stew (n : Nat) (x : Croft) : (s.setCroft n x).stew = s.stew := rfl

/-! ### modCroft -/

@[simp] theorem State.modCroft_pending (n : Nat) (f : Croft → Croft) : (s.modCroft n f).pending = s.pending := rfl
@[simp] theorem State.modCroft_fresh (n : Nat) (f : Croft → Croft) : (s.modCroft n f).fresh = s.fresh := rfl
@[simp] theorem State.modCroft_clock (n : Nat) (f : Croft → Croft) : (s.modCroft n f).clock = s.clock := rfl
@[simp] theorem State.modCroft_regs (n : Nat) (f : Croft → Croft) : (s.modCroft n f).regs = s.regs := rfl
@[simp] theorem State.modCroft_pkg (n : Nat) (f : Croft → Croft) : (s.modCroft n f).pkg = s.pkg := rfl
@[simp] theorem State.modCroft_dies (n : Nat) (f : Croft → Croft) : (s.modCroft n f).dies = s.dies := rfl
@[simp] theorem State.modCroft_serve (n : Nat) (f : Croft → Croft) : (s.modCroft n f).serve = s.serve := rfl
@[simp] theorem State.modCroft_store (n : Nat) (f : Croft → Croft) : (s.modCroft n f).store = s.store := rfl
@[simp] theorem State.modCroft_hbm (n : Nat) (f : Croft → Croft) : (s.modCroft n f).hbm = s.hbm := rfl
@[simp] theorem State.modCroft_tally (n : Nat) (f : Croft → Croft) : (s.modCroft n f).tally = s.tally := rfl
@[simp] theorem State.modCroft_sense (n : Nat) (f : Croft → Croft) : (s.modCroft n f).sense = s.sense := rfl
@[simp] theorem State.modCroft_links (n : Nat) (f : Croft → Croft) : (s.modCroft n f).links = s.links := rfl
@[simp] theorem State.modCroft_lock (n : Nat) (f : Croft → Croft) : (s.modCroft n f).lock = s.lock := rfl
@[simp] theorem State.modCroft_stew (n : Nat) (f : Croft → Croft) : (s.modCroft n f).stew = s.stew := rfl

/-! ### modMould -/

@[simp] theorem State.modMould_pending (n m : Nat) (f : Mould → Mould) : (s.modMould n m f).pending = s.pending := rfl
@[simp] theorem State.modMould_fresh (n m : Nat) (f : Mould → Mould) : (s.modMould n m f).fresh = s.fresh := rfl
@[simp] theorem State.modMould_clock (n m : Nat) (f : Mould → Mould) : (s.modMould n m f).clock = s.clock := rfl
@[simp] theorem State.modMould_regs (n m : Nat) (f : Mould → Mould) : (s.modMould n m f).regs = s.regs := rfl
@[simp] theorem State.modMould_pkg (n m : Nat) (f : Mould → Mould) : (s.modMould n m f).pkg = s.pkg := rfl
@[simp] theorem State.modMould_dies (n m : Nat) (f : Mould → Mould) : (s.modMould n m f).dies = s.dies := rfl
@[simp] theorem State.modMould_serve (n m : Nat) (f : Mould → Mould) : (s.modMould n m f).serve = s.serve := rfl
@[simp] theorem State.modMould_store (n m : Nat) (f : Mould → Mould) : (s.modMould n m f).store = s.store := rfl
@[simp] theorem State.modMould_hbm (n m : Nat) (f : Mould → Mould) : (s.modMould n m f).hbm = s.hbm := rfl
@[simp] theorem State.modMould_tally (n m : Nat) (f : Mould → Mould) : (s.modMould n m f).tally = s.tally := rfl
@[simp] theorem State.modMould_sense (n m : Nat) (f : Mould → Mould) : (s.modMould n m f).sense = s.sense := rfl
@[simp] theorem State.modMould_links (n m : Nat) (f : Mould → Mould) : (s.modMould n m f).links = s.links := rfl
@[simp] theorem State.modMould_lock (n m : Nat) (f : Mould → Mould) : (s.modMould n m f).lock = s.lock := rfl
@[simp] theorem State.modMould_stew (n m : Nat) (f : Mould → Mould) : (s.modMould n m f).stew = s.stew := rfl

/-! ### setWin -/

@[simp] theorem State.setWin_pending (w : Nat) (x : Window) : (s.setWin w x).pending = s.pending := rfl
@[simp] theorem State.setWin_fresh (w : Nat) (x : Window) : (s.setWin w x).fresh = s.fresh := rfl
@[simp] theorem State.setWin_clock (w : Nat) (x : Window) : (s.setWin w x).clock = s.clock := rfl
@[simp] theorem State.setWin_regs (w : Nat) (x : Window) : (s.setWin w x).regs = s.regs := rfl
@[simp] theorem State.setWin_pkg (w : Nat) (x : Window) : (s.setWin w x).pkg = s.pkg := rfl
@[simp] theorem State.setWin_dies (w : Nat) (x : Window) : (s.setWin w x).dies = s.dies := rfl
@[simp] theorem State.setWin_crofts (w : Nat) (x : Window) : (s.setWin w x).crofts = s.crofts := rfl
@[simp] theorem State.setWin_store (w : Nat) (x : Window) : (s.setWin w x).store = s.store := rfl
@[simp] theorem State.setWin_hbm (w : Nat) (x : Window) : (s.setWin w x).hbm = s.hbm := rfl
@[simp] theorem State.setWin_tally (w : Nat) (x : Window) : (s.setWin w x).tally = s.tally := rfl
@[simp] theorem State.setWin_sense (w : Nat) (x : Window) : (s.setWin w x).sense = s.sense := rfl
@[simp] theorem State.setWin_links (w : Nat) (x : Window) : (s.setWin w x).links = s.links := rfl
@[simp] theorem State.setWin_lock (w : Nat) (x : Window) : (s.setWin w x).lock = s.lock := rfl
@[simp] theorem State.setWin_stew (w : Nat) (x : Window) : (s.setWin w x).stew = s.stew := rfl
@[simp] theorem State.setWin_serve_marks (w : Nat) (x : Window) : (s.setWin w x).serve.marks = s.serve.marks := rfl
@[simp] theorem State.setWin_serve_sessions (w : Nat) (x : Window) : (s.setWin w x).serve.sessions = s.serve.sessions := rfl
@[simp] theorem State.setWin_serve_steps (w : Nat) (x : Window) : (s.setWin w x).serve.steps = s.serve.steps := rfl
@[simp] theorem State.setWin_serve_nextStep (w : Nat) (x : Window) : (s.setWin w x).serve.nextStep = s.serve.nextStep := rfl
@[simp] theorem State.setWin_serve_tenants (w : Nat) (x : Window) : (s.setWin w x).serve.tenants = s.serve.tenants := rfl
@[simp] theorem State.setWin_serve_images (w : Nat) (x : Window) : (s.setWin w x).serve.images = s.serve.images := rfl
@[simp] theorem State.setWin_serve_nextImage (w : Nat) (x : Window) : (s.setWin w x).serve.nextImage = s.serve.nextImage := rfl
@[simp] theorem State.setWin_serve_handles (w : Nat) (x : Window) : (s.setWin w x).serve.handles = s.serve.handles := rfl
@[simp] theorem State.setWin_serve_adapterCmds (w : Nat) (x : Window) : (s.setWin w x).serve.adapterCmds = s.serve.adapterCmds := rfl
@[simp] theorem State.setWin_serve_trained (w : Nat) (x : Window) : (s.setWin w x).serve.trained = s.serve.trained := rfl
@[simp] theorem State.setWin_serve_revoked (w : Nat) (x : Window) : (s.setWin w x).serve.revoked = s.serve.revoked := rfl
@[simp] theorem State.setWin_serve_debugScope (w : Nat) (x : Window) : (s.setWin w x).serve.debugScope = s.serve.debugScope := rfl

/-! ### modWin -/

@[simp] theorem State.modWin_pending (w : Nat) (f : Window → Window) : (s.modWin w f).pending = s.pending := rfl
@[simp] theorem State.modWin_fresh (w : Nat) (f : Window → Window) : (s.modWin w f).fresh = s.fresh := rfl
@[simp] theorem State.modWin_clock (w : Nat) (f : Window → Window) : (s.modWin w f).clock = s.clock := rfl
@[simp] theorem State.modWin_regs (w : Nat) (f : Window → Window) : (s.modWin w f).regs = s.regs := rfl
@[simp] theorem State.modWin_pkg (w : Nat) (f : Window → Window) : (s.modWin w f).pkg = s.pkg := rfl
@[simp] theorem State.modWin_dies (w : Nat) (f : Window → Window) : (s.modWin w f).dies = s.dies := rfl
@[simp] theorem State.modWin_crofts (w : Nat) (f : Window → Window) : (s.modWin w f).crofts = s.crofts := rfl
@[simp] theorem State.modWin_store (w : Nat) (f : Window → Window) : (s.modWin w f).store = s.store := rfl
@[simp] theorem State.modWin_hbm (w : Nat) (f : Window → Window) : (s.modWin w f).hbm = s.hbm := rfl
@[simp] theorem State.modWin_tally (w : Nat) (f : Window → Window) : (s.modWin w f).tally = s.tally := rfl
@[simp] theorem State.modWin_sense (w : Nat) (f : Window → Window) : (s.modWin w f).sense = s.sense := rfl
@[simp] theorem State.modWin_links (w : Nat) (f : Window → Window) : (s.modWin w f).links = s.links := rfl
@[simp] theorem State.modWin_lock (w : Nat) (f : Window → Window) : (s.modWin w f).lock = s.lock := rfl
@[simp] theorem State.modWin_stew (w : Nat) (f : Window → Window) : (s.modWin w f).stew = s.stew := rfl
@[simp] theorem State.modWin_serve_marks (w : Nat) (f : Window → Window) : (s.modWin w f).serve.marks = s.serve.marks := rfl
@[simp] theorem State.modWin_serve_sessions (w : Nat) (f : Window → Window) : (s.modWin w f).serve.sessions = s.serve.sessions := rfl
@[simp] theorem State.modWin_serve_steps (w : Nat) (f : Window → Window) : (s.modWin w f).serve.steps = s.serve.steps := rfl
@[simp] theorem State.modWin_serve_nextStep (w : Nat) (f : Window → Window) : (s.modWin w f).serve.nextStep = s.serve.nextStep := rfl
@[simp] theorem State.modWin_serve_tenants (w : Nat) (f : Window → Window) : (s.modWin w f).serve.tenants = s.serve.tenants := rfl
@[simp] theorem State.modWin_serve_images (w : Nat) (f : Window → Window) : (s.modWin w f).serve.images = s.serve.images := rfl
@[simp] theorem State.modWin_serve_nextImage (w : Nat) (f : Window → Window) : (s.modWin w f).serve.nextImage = s.serve.nextImage := rfl
@[simp] theorem State.modWin_serve_handles (w : Nat) (f : Window → Window) : (s.modWin w f).serve.handles = s.serve.handles := rfl
@[simp] theorem State.modWin_serve_adapterCmds (w : Nat) (f : Window → Window) : (s.modWin w f).serve.adapterCmds = s.serve.adapterCmds := rfl
@[simp] theorem State.modWin_serve_trained (w : Nat) (f : Window → Window) : (s.modWin w f).serve.trained = s.serve.trained := rfl
@[simp] theorem State.modWin_serve_revoked (w : Nat) (f : Window → Window) : (s.modWin w f).serve.revoked = s.serve.revoked := rfl
@[simp] theorem State.modWin_serve_debugScope (w : Nat) (f : Window → Window) : (s.modWin w f).serve.debugScope = s.serve.debugScope := rfl

/-! ### setSess -/

@[simp] theorem State.setSess_pending (x : Nat) (v : Session) : (s.setSess x v).pending = s.pending := rfl
@[simp] theorem State.setSess_fresh (x : Nat) (v : Session) : (s.setSess x v).fresh = s.fresh := rfl
@[simp] theorem State.setSess_clock (x : Nat) (v : Session) : (s.setSess x v).clock = s.clock := rfl
@[simp] theorem State.setSess_regs (x : Nat) (v : Session) : (s.setSess x v).regs = s.regs := rfl
@[simp] theorem State.setSess_pkg (x : Nat) (v : Session) : (s.setSess x v).pkg = s.pkg := rfl
@[simp] theorem State.setSess_dies (x : Nat) (v : Session) : (s.setSess x v).dies = s.dies := rfl
@[simp] theorem State.setSess_crofts (x : Nat) (v : Session) : (s.setSess x v).crofts = s.crofts := rfl
@[simp] theorem State.setSess_store (x : Nat) (v : Session) : (s.setSess x v).store = s.store := rfl
@[simp] theorem State.setSess_hbm (x : Nat) (v : Session) : (s.setSess x v).hbm = s.hbm := rfl
@[simp] theorem State.setSess_tally (x : Nat) (v : Session) : (s.setSess x v).tally = s.tally := rfl
@[simp] theorem State.setSess_sense (x : Nat) (v : Session) : (s.setSess x v).sense = s.sense := rfl
@[simp] theorem State.setSess_links (x : Nat) (v : Session) : (s.setSess x v).links = s.links := rfl
@[simp] theorem State.setSess_lock (x : Nat) (v : Session) : (s.setSess x v).lock = s.lock := rfl
@[simp] theorem State.setSess_stew (x : Nat) (v : Session) : (s.setSess x v).stew = s.stew := rfl
@[simp] theorem State.setSess_serve_windows (x : Nat) (v : Session) : (s.setSess x v).serve.windows = s.serve.windows := rfl
@[simp] theorem State.setSess_serve_marks (x : Nat) (v : Session) : (s.setSess x v).serve.marks = s.serve.marks := rfl
@[simp] theorem State.setSess_serve_steps (x : Nat) (v : Session) : (s.setSess x v).serve.steps = s.serve.steps := rfl
@[simp] theorem State.setSess_serve_nextStep (x : Nat) (v : Session) : (s.setSess x v).serve.nextStep = s.serve.nextStep := rfl
@[simp] theorem State.setSess_serve_tenants (x : Nat) (v : Session) : (s.setSess x v).serve.tenants = s.serve.tenants := rfl
@[simp] theorem State.setSess_serve_images (x : Nat) (v : Session) : (s.setSess x v).serve.images = s.serve.images := rfl
@[simp] theorem State.setSess_serve_nextImage (x : Nat) (v : Session) : (s.setSess x v).serve.nextImage = s.serve.nextImage := rfl
@[simp] theorem State.setSess_serve_handles (x : Nat) (v : Session) : (s.setSess x v).serve.handles = s.serve.handles := rfl
@[simp] theorem State.setSess_serve_adapterCmds (x : Nat) (v : Session) : (s.setSess x v).serve.adapterCmds = s.serve.adapterCmds := rfl
@[simp] theorem State.setSess_serve_trained (x : Nat) (v : Session) : (s.setSess x v).serve.trained = s.serve.trained := rfl
@[simp] theorem State.setSess_serve_revoked (x : Nat) (v : Session) : (s.setSess x v).serve.revoked = s.serve.revoked := rfl
@[simp] theorem State.setSess_serve_debugScope (x : Nat) (v : Session) : (s.setSess x v).serve.debugScope = s.serve.debugScope := rfl

/-! ### modSess -/

@[simp] theorem State.modSess_pending (x : Nat) (f : Session → Session) : (s.modSess x f).pending = s.pending := rfl
@[simp] theorem State.modSess_fresh (x : Nat) (f : Session → Session) : (s.modSess x f).fresh = s.fresh := rfl
@[simp] theorem State.modSess_clock (x : Nat) (f : Session → Session) : (s.modSess x f).clock = s.clock := rfl
@[simp] theorem State.modSess_regs (x : Nat) (f : Session → Session) : (s.modSess x f).regs = s.regs := rfl
@[simp] theorem State.modSess_pkg (x : Nat) (f : Session → Session) : (s.modSess x f).pkg = s.pkg := rfl
@[simp] theorem State.modSess_dies (x : Nat) (f : Session → Session) : (s.modSess x f).dies = s.dies := rfl
@[simp] theorem State.modSess_crofts (x : Nat) (f : Session → Session) : (s.modSess x f).crofts = s.crofts := rfl
@[simp] theorem State.modSess_store (x : Nat) (f : Session → Session) : (s.modSess x f).store = s.store := rfl
@[simp] theorem State.modSess_hbm (x : Nat) (f : Session → Session) : (s.modSess x f).hbm = s.hbm := rfl
@[simp] theorem State.modSess_tally (x : Nat) (f : Session → Session) : (s.modSess x f).tally = s.tally := rfl
@[simp] theorem State.modSess_sense (x : Nat) (f : Session → Session) : (s.modSess x f).sense = s.sense := rfl
@[simp] theorem State.modSess_links (x : Nat) (f : Session → Session) : (s.modSess x f).links = s.links := rfl
@[simp] theorem State.modSess_lock (x : Nat) (f : Session → Session) : (s.modSess x f).lock = s.lock := rfl
@[simp] theorem State.modSess_stew (x : Nat) (f : Session → Session) : (s.modSess x f).stew = s.stew := rfl
@[simp] theorem State.modSess_serve_windows (x : Nat) (f : Session → Session) : (s.modSess x f).serve.windows = s.serve.windows := rfl
@[simp] theorem State.modSess_serve_marks (x : Nat) (f : Session → Session) : (s.modSess x f).serve.marks = s.serve.marks := rfl
@[simp] theorem State.modSess_serve_steps (x : Nat) (f : Session → Session) : (s.modSess x f).serve.steps = s.serve.steps := rfl
@[simp] theorem State.modSess_serve_nextStep (x : Nat) (f : Session → Session) : (s.modSess x f).serve.nextStep = s.serve.nextStep := rfl
@[simp] theorem State.modSess_serve_tenants (x : Nat) (f : Session → Session) : (s.modSess x f).serve.tenants = s.serve.tenants := rfl
@[simp] theorem State.modSess_serve_images (x : Nat) (f : Session → Session) : (s.modSess x f).serve.images = s.serve.images := rfl
@[simp] theorem State.modSess_serve_nextImage (x : Nat) (f : Session → Session) : (s.modSess x f).serve.nextImage = s.serve.nextImage := rfl
@[simp] theorem State.modSess_serve_handles (x : Nat) (f : Session → Session) : (s.modSess x f).serve.handles = s.serve.handles := rfl
@[simp] theorem State.modSess_serve_adapterCmds (x : Nat) (f : Session → Session) : (s.modSess x f).serve.adapterCmds = s.serve.adapterCmds := rfl
@[simp] theorem State.modSess_serve_trained (x : Nat) (f : Session → Session) : (s.modSess x f).serve.trained = s.serve.trained := rfl
@[simp] theorem State.modSess_serve_revoked (x : Nat) (f : Session → Session) : (s.modSess x f).serve.revoked = s.serve.revoked := rfl
@[simp] theorem State.modSess_serve_debugScope (x : Nat) (f : Session → Session) : (s.modSess x f).serve.debugScope = s.serve.debugScope := rfl

/-! ### modTenant -/

@[simp] theorem State.modTenant_pending (t : Nat) (f : Tenant → Tenant) : (s.modTenant t f).pending = s.pending := rfl
@[simp] theorem State.modTenant_fresh (t : Nat) (f : Tenant → Tenant) : (s.modTenant t f).fresh = s.fresh := rfl
@[simp] theorem State.modTenant_clock (t : Nat) (f : Tenant → Tenant) : (s.modTenant t f).clock = s.clock := rfl
@[simp] theorem State.modTenant_regs (t : Nat) (f : Tenant → Tenant) : (s.modTenant t f).regs = s.regs := rfl
@[simp] theorem State.modTenant_pkg (t : Nat) (f : Tenant → Tenant) : (s.modTenant t f).pkg = s.pkg := rfl
@[simp] theorem State.modTenant_dies (t : Nat) (f : Tenant → Tenant) : (s.modTenant t f).dies = s.dies := rfl
@[simp] theorem State.modTenant_crofts (t : Nat) (f : Tenant → Tenant) : (s.modTenant t f).crofts = s.crofts := rfl
@[simp] theorem State.modTenant_store (t : Nat) (f : Tenant → Tenant) : (s.modTenant t f).store = s.store := rfl
@[simp] theorem State.modTenant_hbm (t : Nat) (f : Tenant → Tenant) : (s.modTenant t f).hbm = s.hbm := rfl
@[simp] theorem State.modTenant_tally (t : Nat) (f : Tenant → Tenant) : (s.modTenant t f).tally = s.tally := rfl
@[simp] theorem State.modTenant_sense (t : Nat) (f : Tenant → Tenant) : (s.modTenant t f).sense = s.sense := rfl
@[simp] theorem State.modTenant_links (t : Nat) (f : Tenant → Tenant) : (s.modTenant t f).links = s.links := rfl
@[simp] theorem State.modTenant_lock (t : Nat) (f : Tenant → Tenant) : (s.modTenant t f).lock = s.lock := rfl
@[simp] theorem State.modTenant_stew (t : Nat) (f : Tenant → Tenant) : (s.modTenant t f).stew = s.stew := rfl
@[simp] theorem State.modTenant_serve_windows (t : Nat) (f : Tenant → Tenant) : (s.modTenant t f).serve.windows = s.serve.windows := rfl
@[simp] theorem State.modTenant_serve_marks (t : Nat) (f : Tenant → Tenant) : (s.modTenant t f).serve.marks = s.serve.marks := rfl
@[simp] theorem State.modTenant_serve_sessions (t : Nat) (f : Tenant → Tenant) : (s.modTenant t f).serve.sessions = s.serve.sessions := rfl
@[simp] theorem State.modTenant_serve_steps (t : Nat) (f : Tenant → Tenant) : (s.modTenant t f).serve.steps = s.serve.steps := rfl
@[simp] theorem State.modTenant_serve_nextStep (t : Nat) (f : Tenant → Tenant) : (s.modTenant t f).serve.nextStep = s.serve.nextStep := rfl
@[simp] theorem State.modTenant_serve_images (t : Nat) (f : Tenant → Tenant) : (s.modTenant t f).serve.images = s.serve.images := rfl
@[simp] theorem State.modTenant_serve_nextImage (t : Nat) (f : Tenant → Tenant) : (s.modTenant t f).serve.nextImage = s.serve.nextImage := rfl
@[simp] theorem State.modTenant_serve_handles (t : Nat) (f : Tenant → Tenant) : (s.modTenant t f).serve.handles = s.serve.handles := rfl
@[simp] theorem State.modTenant_serve_adapterCmds (t : Nat) (f : Tenant → Tenant) : (s.modTenant t f).serve.adapterCmds = s.serve.adapterCmds := rfl
@[simp] theorem State.modTenant_serve_trained (t : Nat) (f : Tenant → Tenant) : (s.modTenant t f).serve.trained = s.serve.trained := rfl
@[simp] theorem State.modTenant_serve_revoked (t : Nat) (f : Tenant → Tenant) : (s.modTenant t f).serve.revoked = s.serve.revoked := rfl
@[simp] theorem State.modTenant_serve_debugScope (t : Nat) (f : Tenant → Tenant) : (s.modTenant t f).serve.debugScope = s.serve.debugScope := rfl

/-! ### modStep -/

@[simp] theorem State.modStep_pending (i : Nat) (f : Step → Step) : (s.modStep i f).pending = s.pending := rfl
@[simp] theorem State.modStep_fresh (i : Nat) (f : Step → Step) : (s.modStep i f).fresh = s.fresh := rfl
@[simp] theorem State.modStep_clock (i : Nat) (f : Step → Step) : (s.modStep i f).clock = s.clock := rfl
@[simp] theorem State.modStep_regs (i : Nat) (f : Step → Step) : (s.modStep i f).regs = s.regs := rfl
@[simp] theorem State.modStep_pkg (i : Nat) (f : Step → Step) : (s.modStep i f).pkg = s.pkg := rfl
@[simp] theorem State.modStep_dies (i : Nat) (f : Step → Step) : (s.modStep i f).dies = s.dies := rfl
@[simp] theorem State.modStep_crofts (i : Nat) (f : Step → Step) : (s.modStep i f).crofts = s.crofts := rfl
@[simp] theorem State.modStep_store (i : Nat) (f : Step → Step) : (s.modStep i f).store = s.store := rfl
@[simp] theorem State.modStep_hbm (i : Nat) (f : Step → Step) : (s.modStep i f).hbm = s.hbm := rfl
@[simp] theorem State.modStep_tally (i : Nat) (f : Step → Step) : (s.modStep i f).tally = s.tally := rfl
@[simp] theorem State.modStep_sense (i : Nat) (f : Step → Step) : (s.modStep i f).sense = s.sense := rfl
@[simp] theorem State.modStep_links (i : Nat) (f : Step → Step) : (s.modStep i f).links = s.links := rfl
@[simp] theorem State.modStep_lock (i : Nat) (f : Step → Step) : (s.modStep i f).lock = s.lock := rfl
@[simp] theorem State.modStep_stew (i : Nat) (f : Step → Step) : (s.modStep i f).stew = s.stew := rfl
@[simp] theorem State.modStep_serve_windows (i : Nat) (f : Step → Step) : (s.modStep i f).serve.windows = s.serve.windows := rfl
@[simp] theorem State.modStep_serve_marks (i : Nat) (f : Step → Step) : (s.modStep i f).serve.marks = s.serve.marks := rfl
@[simp] theorem State.modStep_serve_sessions (i : Nat) (f : Step → Step) : (s.modStep i f).serve.sessions = s.serve.sessions := rfl
@[simp] theorem State.modStep_serve_nextStep (i : Nat) (f : Step → Step) : (s.modStep i f).serve.nextStep = s.serve.nextStep := rfl
@[simp] theorem State.modStep_serve_tenants (i : Nat) (f : Step → Step) : (s.modStep i f).serve.tenants = s.serve.tenants := rfl
@[simp] theorem State.modStep_serve_images (i : Nat) (f : Step → Step) : (s.modStep i f).serve.images = s.serve.images := rfl
@[simp] theorem State.modStep_serve_nextImage (i : Nat) (f : Step → Step) : (s.modStep i f).serve.nextImage = s.serve.nextImage := rfl
@[simp] theorem State.modStep_serve_handles (i : Nat) (f : Step → Step) : (s.modStep i f).serve.handles = s.serve.handles := rfl
@[simp] theorem State.modStep_serve_adapterCmds (i : Nat) (f : Step → Step) : (s.modStep i f).serve.adapterCmds = s.serve.adapterCmds := rfl
@[simp] theorem State.modStep_serve_trained (i : Nat) (f : Step → Step) : (s.modStep i f).serve.trained = s.serve.trained := rfl
@[simp] theorem State.modStep_serve_revoked (i : Nat) (f : Step → Step) : (s.modStep i f).serve.revoked = s.serve.revoked := rfl
@[simp] theorem State.modStep_serve_debugScope (i : Nat) (f : Step → Step) : (s.modStep i f).serve.debugScope = s.serve.debugScope := rfl

/-! ### modHub -/

@[simp] theorem State.modHub_pending (h : Nat) (f : HubAttn → HubAttn) : (s.modHub h f).pending = s.pending := rfl
@[simp] theorem State.modHub_fresh (h : Nat) (f : HubAttn → HubAttn) : (s.modHub h f).fresh = s.fresh := rfl
@[simp] theorem State.modHub_clock (h : Nat) (f : HubAttn → HubAttn) : (s.modHub h f).clock = s.clock := rfl
@[simp] theorem State.modHub_regs (h : Nat) (f : HubAttn → HubAttn) : (s.modHub h f).regs = s.regs := rfl
@[simp] theorem State.modHub_pkg (h : Nat) (f : HubAttn → HubAttn) : (s.modHub h f).pkg = s.pkg := rfl
@[simp] theorem State.modHub_dies (h : Nat) (f : HubAttn → HubAttn) : (s.modHub h f).dies = s.dies := rfl
@[simp] theorem State.modHub_crofts (h : Nat) (f : HubAttn → HubAttn) : (s.modHub h f).crofts = s.crofts := rfl
@[simp] theorem State.modHub_serve (h : Nat) (f : HubAttn → HubAttn) : (s.modHub h f).serve = s.serve := rfl
@[simp] theorem State.modHub_hbm (h : Nat) (f : HubAttn → HubAttn) : (s.modHub h f).hbm = s.hbm := rfl
@[simp] theorem State.modHub_tally (h : Nat) (f : HubAttn → HubAttn) : (s.modHub h f).tally = s.tally := rfl
@[simp] theorem State.modHub_sense (h : Nat) (f : HubAttn → HubAttn) : (s.modHub h f).sense = s.sense := rfl
@[simp] theorem State.modHub_links (h : Nat) (f : HubAttn → HubAttn) : (s.modHub h f).links = s.links := rfl
@[simp] theorem State.modHub_lock (h : Nat) (f : HubAttn → HubAttn) : (s.modHub h f).lock = s.lock := rfl
@[simp] theorem State.modHub_stew (h : Nat) (f : HubAttn → HubAttn) : (s.modHub h f).stew = s.stew := rfl
@[simp] theorem State.modHub_store_refs (h : Nat) (f : HubAttn → HubAttn) : (s.modHub h f).store.refs = s.store.refs := rfl
@[simp] theorem State.modHub_store_turn (h : Nat) (f : HubAttn → HubAttn) : (s.modHub h f).store.turn = s.store.turn := rfl
@[simp] theorem State.modHub_store_nodes (h : Nat) (f : HubAttn → HubAttn) : (s.modHub h f).store.nodes = s.store.nodes := rfl
@[simp] theorem State.modHub_store_buckets (h : Nat) (f : HubAttn → HubAttn) : (s.modHub h f).store.buckets = s.store.buckets := rfl
@[simp] theorem State.modHub_store_prefixes (h : Nat) (f : HubAttn → HubAttn) : (s.modHub h f).store.prefixes = s.store.prefixes := rfl
@[simp] theorem State.modHub_store_nodePages (h : Nat) (f : HubAttn → HubAttn) : (s.modHub h f).store.nodePages = s.store.nodePages := rfl
@[simp] theorem State.modHub_store_commonsNext (h : Nat) (f : HubAttn → HubAttn) : (s.modHub h f).store.commonsNext = s.store.commonsNext := rfl
@[simp] theorem State.modHub_store_commonsLease (h : Nat) (f : HubAttn → HubAttn) : (s.modHub h f).store.commonsLease = s.store.commonsLease := rfl
@[simp] theorem State.modHub_store_storeEpoch (h : Nat) (f : HubAttn → HubAttn) : (s.modHub h f).store.storeEpoch = s.store.storeEpoch := rfl
@[simp] theorem State.modHub_store_served (h : Nat) (f : HubAttn → HubAttn) : (s.modHub h f).store.served = s.store.served := rfl

/-! ### modStack -/

@[simp] theorem State.modStack_pending (k : Nat) (f : StackSt → StackSt) : (s.modStack k f).pending = s.pending := rfl
@[simp] theorem State.modStack_fresh (k : Nat) (f : StackSt → StackSt) : (s.modStack k f).fresh = s.fresh := rfl
@[simp] theorem State.modStack_clock (k : Nat) (f : StackSt → StackSt) : (s.modStack k f).clock = s.clock := rfl
@[simp] theorem State.modStack_regs (k : Nat) (f : StackSt → StackSt) : (s.modStack k f).regs = s.regs := rfl
@[simp] theorem State.modStack_pkg (k : Nat) (f : StackSt → StackSt) : (s.modStack k f).pkg = s.pkg := rfl
@[simp] theorem State.modStack_dies (k : Nat) (f : StackSt → StackSt) : (s.modStack k f).dies = s.dies := rfl
@[simp] theorem State.modStack_crofts (k : Nat) (f : StackSt → StackSt) : (s.modStack k f).crofts = s.crofts := rfl
@[simp] theorem State.modStack_serve (k : Nat) (f : StackSt → StackSt) : (s.modStack k f).serve = s.serve := rfl
@[simp] theorem State.modStack_store (k : Nat) (f : StackSt → StackSt) : (s.modStack k f).store = s.store := rfl
@[simp] theorem State.modStack_tally (k : Nat) (f : StackSt → StackSt) : (s.modStack k f).tally = s.tally := rfl
@[simp] theorem State.modStack_sense (k : Nat) (f : StackSt → StackSt) : (s.modStack k f).sense = s.sense := rfl
@[simp] theorem State.modStack_links (k : Nat) (f : StackSt → StackSt) : (s.modStack k f).links = s.links := rfl
@[simp] theorem State.modStack_lock (k : Nat) (f : StackSt → StackSt) : (s.modStack k f).lock = s.lock := rfl
@[simp] theorem State.modStack_stew (k : Nat) (f : StackSt → StackSt) : (s.modStack k f).stew = s.stew := rfl
@[simp] theorem State.modStack_hbm_mem (k : Nat) (f : StackSt → StackSt) : (s.modStack k f).hbm.mem = s.hbm.mem := rfl
@[simp] theorem State.modStack_hbm_lines (k : Nat) (f : StackSt → StackSt) : (s.modStack k f).hbm.lines = s.hbm.lines := rfl

/-! ### modConv -/

@[simp] theorem State.modConv_pending (c : Nat) (f : Converter → Converter) : (s.modConv c f).pending = s.pending := rfl
@[simp] theorem State.modConv_fresh (c : Nat) (f : Converter → Converter) : (s.modConv c f).fresh = s.fresh := rfl
@[simp] theorem State.modConv_clock (c : Nat) (f : Converter → Converter) : (s.modConv c f).clock = s.clock := rfl
@[simp] theorem State.modConv_regs (c : Nat) (f : Converter → Converter) : (s.modConv c f).regs = s.regs := rfl
@[simp] theorem State.modConv_pkg (c : Nat) (f : Converter → Converter) : (s.modConv c f).pkg = s.pkg := rfl
@[simp] theorem State.modConv_dies (c : Nat) (f : Converter → Converter) : (s.modConv c f).dies = s.dies := rfl
@[simp] theorem State.modConv_crofts (c : Nat) (f : Converter → Converter) : (s.modConv c f).crofts = s.crofts := rfl
@[simp] theorem State.modConv_serve (c : Nat) (f : Converter → Converter) : (s.modConv c f).serve = s.serve := rfl
@[simp] theorem State.modConv_store (c : Nat) (f : Converter → Converter) : (s.modConv c f).store = s.store := rfl
@[simp] theorem State.modConv_hbm (c : Nat) (f : Converter → Converter) : (s.modConv c f).hbm = s.hbm := rfl
@[simp] theorem State.modConv_tally (c : Nat) (f : Converter → Converter) : (s.modConv c f).tally = s.tally := rfl
@[simp] theorem State.modConv_links (c : Nat) (f : Converter → Converter) : (s.modConv c f).links = s.links := rfl
@[simp] theorem State.modConv_lock (c : Nat) (f : Converter → Converter) : (s.modConv c f).lock = s.lock := rfl
@[simp] theorem State.modConv_stew (c : Nat) (f : Converter → Converter) : (s.modConv c f).stew = s.stew := rfl

/-! ### modPort -/

@[simp] theorem State.modPort_pending (p : Nat) (f : Port → Port) : (s.modPort p f).pending = s.pending := rfl
@[simp] theorem State.modPort_fresh (p : Nat) (f : Port → Port) : (s.modPort p f).fresh = s.fresh := rfl
@[simp] theorem State.modPort_clock (p : Nat) (f : Port → Port) : (s.modPort p f).clock = s.clock := rfl
@[simp] theorem State.modPort_regs (p : Nat) (f : Port → Port) : (s.modPort p f).regs = s.regs := rfl
@[simp] theorem State.modPort_pkg (p : Nat) (f : Port → Port) : (s.modPort p f).pkg = s.pkg := rfl
@[simp] theorem State.modPort_dies (p : Nat) (f : Port → Port) : (s.modPort p f).dies = s.dies := rfl
@[simp] theorem State.modPort_crofts (p : Nat) (f : Port → Port) : (s.modPort p f).crofts = s.crofts := rfl
@[simp] theorem State.modPort_serve (p : Nat) (f : Port → Port) : (s.modPort p f).serve = s.serve := rfl
@[simp] theorem State.modPort_store (p : Nat) (f : Port → Port) : (s.modPort p f).store = s.store := rfl
@[simp] theorem State.modPort_hbm (p : Nat) (f : Port → Port) : (s.modPort p f).hbm = s.hbm := rfl
@[simp] theorem State.modPort_tally (p : Nat) (f : Port → Port) : (s.modPort p f).tally = s.tally := rfl
@[simp] theorem State.modPort_sense (p : Nat) (f : Port → Port) : (s.modPort p f).sense = s.sense := rfl
@[simp] theorem State.modPort_lock (p : Nat) (f : Port → Port) : (s.modPort p f).lock = s.lock := rfl
@[simp] theorem State.modPort_stew (p : Nat) (f : Port → Port) : (s.modPort p f).stew = s.stew := rfl
@[simp] theorem State.modPort_links_modules (p : Nat) (f : Port → Port) : (s.modPort p f).links.modules = s.links.modules := rfl
@[simp] theorem State.modPort_links_outstanding (p : Nat) (f : Port → Port) : (s.modPort p f).links.outstanding = s.links.outstanding := rfl
@[simp] theorem State.modPort_links_delivered (p : Nat) (f : Port → Port) : (s.modPort p f).links.delivered = s.links.delivered := rfl
@[simp] theorem State.modPort_links_response (p : Nat) (f : Port → Port) : (s.modPort p f).links.response = s.links.response := rfl
@[simp] theorem State.modPort_links_heldAccesses (p : Nat) (f : Port → Port) : (s.modPort p f).links.heldAccesses = s.links.heldAccesses := rfl
@[simp] theorem State.modPort_links_snoops (p : Nat) (f : Port → Port) : (s.modPort p f).links.snoops = s.links.snoops := rfl
@[simp] theorem State.modPort_links_dirtyLines (p : Nat) (f : Port → Port) : (s.modPort p f).links.dirtyLines = s.links.dirtyLines := rfl
@[simp] theorem State.modPort_links_opened (p : Nat) (f : Port → Port) : (s.modPort p f).links.opened = s.links.opened := rfl
@[simp] theorem State.modPort_links_laneRetirements (p : Nat) (f : Port → Port) : (s.modPort p f).links.laneRetirements = s.links.laneRetirements := rfl
@[simp] theorem State.modPort_links_outbox (p : Nat) (f : Port → Port) : (s.modPort p f).links.outbox = s.links.outbox := rfl
@[simp] theorem State.modPort_links_rreads (p : Nat) (f : Port → Port) : (s.modPort p f).links.rreads = s.links.rreads := rfl
@[simp] theorem State.modPort_links_nextRread (p : Nat) (f : Port → Port) : (s.modPort p f).links.nextRread = s.links.nextRread := rfl
@[simp] theorem State.modPort_links_lastCounter (p : Nat) (f : Port → Port) : (s.modPort p f).links.lastCounter = s.links.lastCounter := rfl
@[simp] theorem State.modPort_links_sentCounter (p : Nat) (f : Port → Port) : (s.modPort p f).links.sentCounter = s.links.sentCounter := rfl
@[simp] theorem State.modPort_links_manifests (p : Nat) (f : Port → Port) : (s.modPort p f).links.manifests = s.links.manifests := rfl
@[simp] theorem State.modPort_links_fetching (p : Nat) (f : Port → Port) : (s.modPort p f).links.fetching = s.links.fetching := rfl
@[simp] theorem State.modPort_links_kyrokBarriers (p : Nat) (f : Port → Port) : (s.modPort p f).links.kyrokBarriers = s.links.kyrokBarriers := rfl

/-! ### modUmod -/

@[simp] theorem State.modUmod_pending (n : Nat) (f : UModule → UModule) : (s.modUmod n f).pending = s.pending := rfl
@[simp] theorem State.modUmod_fresh (n : Nat) (f : UModule → UModule) : (s.modUmod n f).fresh = s.fresh := rfl
@[simp] theorem State.modUmod_clock (n : Nat) (f : UModule → UModule) : (s.modUmod n f).clock = s.clock := rfl
@[simp] theorem State.modUmod_regs (n : Nat) (f : UModule → UModule) : (s.modUmod n f).regs = s.regs := rfl
@[simp] theorem State.modUmod_pkg (n : Nat) (f : UModule → UModule) : (s.modUmod n f).pkg = s.pkg := rfl
@[simp] theorem State.modUmod_dies (n : Nat) (f : UModule → UModule) : (s.modUmod n f).dies = s.dies := rfl
@[simp] theorem State.modUmod_crofts (n : Nat) (f : UModule → UModule) : (s.modUmod n f).crofts = s.crofts := rfl
@[simp] theorem State.modUmod_serve (n : Nat) (f : UModule → UModule) : (s.modUmod n f).serve = s.serve := rfl
@[simp] theorem State.modUmod_store (n : Nat) (f : UModule → UModule) : (s.modUmod n f).store = s.store := rfl
@[simp] theorem State.modUmod_hbm (n : Nat) (f : UModule → UModule) : (s.modUmod n f).hbm = s.hbm := rfl
@[simp] theorem State.modUmod_tally (n : Nat) (f : UModule → UModule) : (s.modUmod n f).tally = s.tally := rfl
@[simp] theorem State.modUmod_sense (n : Nat) (f : UModule → UModule) : (s.modUmod n f).sense = s.sense := rfl
@[simp] theorem State.modUmod_lock (n : Nat) (f : UModule → UModule) : (s.modUmod n f).lock = s.lock := rfl
@[simp] theorem State.modUmod_stew (n : Nat) (f : UModule → UModule) : (s.modUmod n f).stew = s.stew := rfl
@[simp] theorem State.modUmod_links_outstanding (n : Nat) (f : UModule → UModule) : (s.modUmod n f).links.outstanding = s.links.outstanding := rfl
@[simp] theorem State.modUmod_links_delivered (n : Nat) (f : UModule → UModule) : (s.modUmod n f).links.delivered = s.links.delivered := rfl
@[simp] theorem State.modUmod_links_response (n : Nat) (f : UModule → UModule) : (s.modUmod n f).links.response = s.links.response := rfl
@[simp] theorem State.modUmod_links_heldAccesses (n : Nat) (f : UModule → UModule) : (s.modUmod n f).links.heldAccesses = s.links.heldAccesses := rfl
@[simp] theorem State.modUmod_links_snoops (n : Nat) (f : UModule → UModule) : (s.modUmod n f).links.snoops = s.links.snoops := rfl
@[simp] theorem State.modUmod_links_dirtyLines (n : Nat) (f : UModule → UModule) : (s.modUmod n f).links.dirtyLines = s.links.dirtyLines := rfl
@[simp] theorem State.modUmod_links_ports (n : Nat) (f : UModule → UModule) : (s.modUmod n f).links.ports = s.links.ports := rfl
@[simp] theorem State.modUmod_links_opened (n : Nat) (f : UModule → UModule) : (s.modUmod n f).links.opened = s.links.opened := rfl
@[simp] theorem State.modUmod_links_laneRetirements (n : Nat) (f : UModule → UModule) : (s.modUmod n f).links.laneRetirements = s.links.laneRetirements := rfl
@[simp] theorem State.modUmod_links_outbox (n : Nat) (f : UModule → UModule) : (s.modUmod n f).links.outbox = s.links.outbox := rfl
@[simp] theorem State.modUmod_links_rreads (n : Nat) (f : UModule → UModule) : (s.modUmod n f).links.rreads = s.links.rreads := rfl
@[simp] theorem State.modUmod_links_nextRread (n : Nat) (f : UModule → UModule) : (s.modUmod n f).links.nextRread = s.links.nextRread := rfl
@[simp] theorem State.modUmod_links_lastCounter (n : Nat) (f : UModule → UModule) : (s.modUmod n f).links.lastCounter = s.links.lastCounter := rfl
@[simp] theorem State.modUmod_links_sentCounter (n : Nat) (f : UModule → UModule) : (s.modUmod n f).links.sentCounter = s.links.sentCounter := rfl
@[simp] theorem State.modUmod_links_manifests (n : Nat) (f : UModule → UModule) : (s.modUmod n f).links.manifests = s.links.manifests := rfl
@[simp] theorem State.modUmod_links_fetching (n : Nat) (f : UModule → UModule) : (s.modUmod n f).links.fetching = s.links.fetching := rfl
@[simp] theorem State.modUmod_links_kyrokBarriers (n : Nat) (f : UModule → UModule) : (s.modUmod n f).links.kyrokBarriers = s.links.kyrokBarriers := rfl

/-! ### setReg -/

@[simp] theorem State.setReg_pending (p : Page) (o : Nat) (v : Word) : (s.setReg p o v).pending = s.pending := rfl
@[simp] theorem State.setReg_fresh (p : Page) (o : Nat) (v : Word) : (s.setReg p o v).fresh = s.fresh := rfl
@[simp] theorem State.setReg_clock (p : Page) (o : Nat) (v : Word) : (s.setReg p o v).clock = s.clock := rfl
@[simp] theorem State.setReg_pkg (p : Page) (o : Nat) (v : Word) : (s.setReg p o v).pkg = s.pkg := rfl
@[simp] theorem State.setReg_dies (p : Page) (o : Nat) (v : Word) : (s.setReg p o v).dies = s.dies := rfl
@[simp] theorem State.setReg_crofts (p : Page) (o : Nat) (v : Word) : (s.setReg p o v).crofts = s.crofts := rfl
@[simp] theorem State.setReg_serve (p : Page) (o : Nat) (v : Word) : (s.setReg p o v).serve = s.serve := rfl
@[simp] theorem State.setReg_store (p : Page) (o : Nat) (v : Word) : (s.setReg p o v).store = s.store := rfl
@[simp] theorem State.setReg_hbm (p : Page) (o : Nat) (v : Word) : (s.setReg p o v).hbm = s.hbm := rfl
@[simp] theorem State.setReg_tally (p : Page) (o : Nat) (v : Word) : (s.setReg p o v).tally = s.tally := rfl
@[simp] theorem State.setReg_sense (p : Page) (o : Nat) (v : Word) : (s.setReg p o v).sense = s.sense := rfl
@[simp] theorem State.setReg_links (p : Page) (o : Nat) (v : Word) : (s.setReg p o v).links = s.links := rfl
@[simp] theorem State.setReg_lock (p : Page) (o : Nat) (v : Word) : (s.setReg p o v).lock = s.lock := rfl
@[simp] theorem State.setReg_stew (p : Page) (o : Nat) (v : Word) : (s.setReg p o v).stew = s.stew := rfl

/-! ### bump -/

@[simp] theorem State.bump_pending (p : Page) (o n : Nat) : (s.bump p o n).pending = s.pending := rfl
@[simp] theorem State.bump_fresh (p : Page) (o n : Nat) : (s.bump p o n).fresh = s.fresh := rfl
@[simp] theorem State.bump_clock (p : Page) (o n : Nat) : (s.bump p o n).clock = s.clock := rfl
@[simp] theorem State.bump_pkg (p : Page) (o n : Nat) : (s.bump p o n).pkg = s.pkg := rfl
@[simp] theorem State.bump_dies (p : Page) (o n : Nat) : (s.bump p o n).dies = s.dies := rfl
@[simp] theorem State.bump_crofts (p : Page) (o n : Nat) : (s.bump p o n).crofts = s.crofts := rfl
@[simp] theorem State.bump_serve (p : Page) (o n : Nat) : (s.bump p o n).serve = s.serve := rfl
@[simp] theorem State.bump_store (p : Page) (o n : Nat) : (s.bump p o n).store = s.store := rfl
@[simp] theorem State.bump_hbm (p : Page) (o n : Nat) : (s.bump p o n).hbm = s.hbm := rfl
@[simp] theorem State.bump_tally (p : Page) (o n : Nat) : (s.bump p o n).tally = s.tally := rfl
@[simp] theorem State.bump_sense (p : Page) (o n : Nat) : (s.bump p o n).sense = s.sense := rfl
@[simp] theorem State.bump_links (p : Page) (o n : Nat) : (s.bump p o n).links = s.links := rfl
@[simp] theorem State.bump_lock (p : Page) (o n : Nat) : (s.bump p o n).lock = s.lock := rfl
@[simp] theorem State.bump_stew (p : Page) (o n : Nat) : (s.bump p o n).stew = s.stew := rfl

/-! ### advanceTo -/

@[simp] theorem State.advanceTo_pending (t : Nat) : (s.advanceTo t).pending = s.pending := rfl
@[simp] theorem State.advanceTo_fresh (t : Nat) : (s.advanceTo t).fresh = s.fresh := rfl
@[simp] theorem State.advanceTo_regs (t : Nat) : (s.advanceTo t).regs = s.regs := rfl
@[simp] theorem State.advanceTo_pkg (t : Nat) : (s.advanceTo t).pkg = s.pkg := rfl
@[simp] theorem State.advanceTo_dies (t : Nat) : (s.advanceTo t).dies = s.dies := rfl
@[simp] theorem State.advanceTo_crofts (t : Nat) : (s.advanceTo t).crofts = s.crofts := rfl
@[simp] theorem State.advanceTo_serve (t : Nat) : (s.advanceTo t).serve = s.serve := rfl
@[simp] theorem State.advanceTo_store (t : Nat) : (s.advanceTo t).store = s.store := rfl
@[simp] theorem State.advanceTo_hbm (t : Nat) : (s.advanceTo t).hbm = s.hbm := rfl
@[simp] theorem State.advanceTo_tally (t : Nat) : (s.advanceTo t).tally = s.tally := rfl
@[simp] theorem State.advanceTo_sense (t : Nat) : (s.advanceTo t).sense = s.sense := rfl
@[simp] theorem State.advanceTo_links (t : Nat) : (s.advanceTo t).links = s.links := rfl
@[simp] theorem State.advanceTo_lock (t : Nat) : (s.advanceTo t).lock = s.lock := rfl
@[simp] theorem State.advanceTo_stew (t : Nat) : (s.advanceTo t).stew = s.stew := rfl

/-! ### tick -/

@[simp] theorem State.tick_pending  : (s.tick ).pending = s.pending := rfl
@[simp] theorem State.tick_clock  : (s.tick ).clock = s.clock := rfl
@[simp] theorem State.tick_regs  : (s.tick ).regs = s.regs := rfl
@[simp] theorem State.tick_pkg  : (s.tick ).pkg = s.pkg := rfl
@[simp] theorem State.tick_dies  : (s.tick ).dies = s.dies := rfl
@[simp] theorem State.tick_crofts  : (s.tick ).crofts = s.crofts := rfl
@[simp] theorem State.tick_serve  : (s.tick ).serve = s.serve := rfl
@[simp] theorem State.tick_store  : (s.tick ).store = s.store := rfl
@[simp] theorem State.tick_hbm  : (s.tick ).hbm = s.hbm := rfl
@[simp] theorem State.tick_tally  : (s.tick ).tally = s.tally := rfl
@[simp] theorem State.tick_sense  : (s.tick ).sense = s.sense := rfl
@[simp] theorem State.tick_links  : (s.tick ).links = s.links := rfl
@[simp] theorem State.tick_lock  : (s.tick ).lock = s.lock := rfl
@[simp] theorem State.tick_stew  : (s.tick ).stew = s.stew := rfl

/-! ### Reading a unit back -/

theorem State.die_modDie (k j : Nat) (f : Die → Die) : (s.modDie k f).die j = if j = k then f (s.die k) else s.die j :=
  tget_tput _ _ _ _ _
@[simp] theorem State.die_modDie_self (k : Nat) (f : Die → Die) : (s.modDie k f).die k = f (s.die k) := by simp [State.die_modDie]
theorem State.die_modDie_ne {k j : Nat} (f : Die → Die) (h : j ≠ k) : (s.modDie k f).die j = s.die j := by simp [State.die_modDie, h]

theorem State.croft_modCroft (k j : Nat) (f : Croft → Croft) : (s.modCroft k f).croft j = if j = k then f (s.croft k) else s.croft j :=
  tget_tput _ _ _ _ _
@[simp] theorem State.croft_modCroft_self (k : Nat) (f : Croft → Croft) : (s.modCroft k f).croft k = f (s.croft k) := by simp [State.croft_modCroft]
theorem State.croft_modCroft_ne {k j : Nat} (f : Croft → Croft) (h : j ≠ k) : (s.modCroft k f).croft j = s.croft j := by simp [State.croft_modCroft, h]

theorem State.win_modWin (k j : Nat) (f : Window → Window) : (s.modWin k f).win j = if j = k then f (s.win k) else s.win j :=
  tget_tput _ _ _ _ _
@[simp] theorem State.win_modWin_self (k : Nat) (f : Window → Window) : (s.modWin k f).win k = f (s.win k) := by simp [State.win_modWin]
theorem State.win_modWin_ne {k j : Nat} (f : Window → Window) (h : j ≠ k) : (s.modWin k f).win j = s.win j := by simp [State.win_modWin, h]

theorem State.sess_modSess (k j : Nat) (f : Session → Session) : (s.modSess k f).sess j = if j = k then f (s.sess k) else s.sess j :=
  tget_tput _ _ _ _ _
@[simp] theorem State.sess_modSess_self (k : Nat) (f : Session → Session) : (s.modSess k f).sess k = f (s.sess k) := by simp [State.sess_modSess]
theorem State.sess_modSess_ne {k j : Nat} (f : Session → Session) (h : j ≠ k) : (s.modSess k f).sess j = s.sess j := by simp [State.sess_modSess, h]

theorem State.tenant_modTenant (k j : Nat) (f : Tenant → Tenant) : (s.modTenant k f).tenant j = if j = k then f (s.tenant k) else s.tenant j :=
  tget_tput _ _ _ _ _
@[simp] theorem State.tenant_modTenant_self (k : Nat) (f : Tenant → Tenant) : (s.modTenant k f).tenant k = f (s.tenant k) := by simp [State.tenant_modTenant]
theorem State.tenant_modTenant_ne {k j : Nat} (f : Tenant → Tenant) (h : j ≠ k) : (s.modTenant k f).tenant j = s.tenant j := by simp [State.tenant_modTenant, h]

theorem State.hub_modHub (k j : Nat) (f : HubAttn → HubAttn) : (s.modHub k f).hub j = if j = k then f (s.hub k) else s.hub j :=
  tget_tput _ _ _ _ _
@[simp] theorem State.hub_modHub_self (k : Nat) (f : HubAttn → HubAttn) : (s.modHub k f).hub k = f (s.hub k) := by simp [State.hub_modHub]
theorem State.hub_modHub_ne {k j : Nat} (f : HubAttn → HubAttn) (h : j ≠ k) : (s.modHub k f).hub j = s.hub j := by simp [State.hub_modHub, h]

theorem State.stack_modStack (k j : Nat) (f : StackSt → StackSt) : (s.modStack k f).stack j = if j = k then f (s.stack k) else s.stack j :=
  tget_tput _ _ _ _ _
@[simp] theorem State.stack_modStack_self (k : Nat) (f : StackSt → StackSt) : (s.modStack k f).stack k = f (s.stack k) := by simp [State.stack_modStack]
theorem State.stack_modStack_ne {k j : Nat} (f : StackSt → StackSt) (h : j ≠ k) : (s.modStack k f).stack j = s.stack j := by simp [State.stack_modStack, h]

theorem State.conv_modConv (k j : Nat) (f : Converter → Converter) : (s.modConv k f).conv j = if j = k then f (s.conv k) else s.conv j :=
  tget_tput _ _ _ _ _
@[simp] theorem State.conv_modConv_self (k : Nat) (f : Converter → Converter) : (s.modConv k f).conv k = f (s.conv k) := by simp [State.conv_modConv]
theorem State.conv_modConv_ne {k j : Nat} (f : Converter → Converter) (h : j ≠ k) : (s.modConv k f).conv j = s.conv j := by simp [State.conv_modConv, h]

theorem State.port_modPort (k j : Nat) (f : Port → Port) : (s.modPort k f).port j = if j = k then f (s.port k) else s.port j :=
  tget_tput _ _ _ _ _
@[simp] theorem State.port_modPort_self (k : Nat) (f : Port → Port) : (s.modPort k f).port k = f (s.port k) := by simp [State.port_modPort]
theorem State.port_modPort_ne {k j : Nat} (f : Port → Port) (h : j ≠ k) : (s.modPort k f).port j = s.port j := by simp [State.port_modPort, h]

theorem State.umod_modUmod (k j : Nat) (f : UModule → UModule) : (s.modUmod k f).umod j = if j = k then f (s.umod k) else s.umod j :=
  tget_tput _ _ _ _ _
@[simp] theorem State.umod_modUmod_self (k : Nat) (f : UModule → UModule) : (s.modUmod k f).umod k = f (s.umod k) := by simp [State.umod_modUmod]
theorem State.umod_modUmod_ne {k j : Nat} (f : UModule → UModule) (h : j ≠ k) : (s.modUmod k f).umod j = s.umod j := by simp [State.umod_modUmod, h]

theorem State.die_setDie (k j : Nat) (x : Die) : (s.setDie k x).die j = if j = k then x else s.die j := tget_tput _ _ _ _ _
@[simp] theorem State.die_setDie_self (k : Nat) (x : Die) : (s.setDie k x).die k = x := by simp [State.die_setDie]

theorem State.croft_setCroft (k j : Nat) (x : Croft) : (s.setCroft k x).croft j = if j = k then x else s.croft j := tget_tput _ _ _ _ _
@[simp] theorem State.croft_setCroft_self (k : Nat) (x : Croft) : (s.setCroft k x).croft k = x := by simp [State.croft_setCroft]

theorem State.win_setWin (k j : Nat) (x : Window) : (s.setWin k x).win j = if j = k then x else s.win j := tget_tput _ _ _ _ _
@[simp] theorem State.win_setWin_self (k : Nat) (x : Window) : (s.setWin k x).win k = x := by simp [State.win_setWin]

theorem State.sess_setSess (k j : Nat) (x : Session) : (s.setSess k x).sess j = if j = k then x else s.sess j := tget_tput _ _ _ _ _
@[simp] theorem State.sess_setSess_self (k : Nat) (x : Session) : (s.setSess k x).sess k = x := by simp [State.sess_setSess]

theorem Croft.mould_modMould (c : Croft) (k j : Nat) (f : Mould → Mould) :
    (c.modMould k f).mould j = if j = k then f (c.mould k) else c.mould j := tget_tput _ _ _ _ _

@[simp] theorem Croft.mould_modMould_self (c : Croft) (k : Nat) (f : Mould → Mould) : (c.modMould k f).mould k = f (c.mould k) := by
  simp [Croft.mould_modMould]

theorem State.mould_modMould (n m i j : Nat) (f : Mould → Mould) :
    (s.modMould n m f).mould i j = if i = n ∧ j = m then f (s.mould n m) else s.mould i j := by
  unfold State.mould State.modMould
  rw [State.croft_modCroft]
  by_cases hi : i = n
  · subst hi
    by_cases hj : j = m <;> simp [Croft.mould_modMould, hj]
  · simp [hi]

@[simp] theorem State.mould_modMould_self (n m : Nat) (f : Mould → Mould) : (s.modMould n m f).mould n m = f (s.mould n m) := by
  simp [State.mould_modMould]

theorem HubAttn.engine_modEngine (h : HubAttn) (k j : Nat) (f : Engine → Engine) :
    (h.modEngine k f).engine j = if j = k then f (h.engine k) else h.engine j := tget_tput _ _ _ _ _

theorem HubAttn.qset_modQset (h : HubAttn) (k j : Nat) (f : QSet → QSet) :
    (h.modQset k f).qset j = if j = k then f (h.qset k) else h.qset j := tget_tput _ _ _ _ _

theorem Window.ring_setRing (w : Window) (k j : Nat) (r : Ring) : (w.setRing k r).ring j = if j = k then r else w.ring j :=
  tget_tput _ _ _ _ _

@[simp] theorem Window.ring_setRing_self (w : Window) (k : Nat) (r : Ring) : (w.setRing k r).ring k = r := by simp [Window.ring_setRing]

/-! ### The register file -/

theorem State.regAt_setReg (p : Page) (o a : Nat) (v : Word) :
    (s.setReg p o v).regAt a = if a = p.base + o then v else s.regAt a := tget_tput _ _ _ _ _

@[simp] theorem State.reg_setReg_self (p : Page) (o : Nat) (v : Word) : (s.setReg p o v).reg p o = v := by
  simp [State.reg, State.regAt_setReg]

theorem State.reg_setReg_ne (p q : Page) (o o' : Nat) (v : Word) (h : q.base + o' ≠ p.base + o) :
    (s.setReg p o v).reg q o' = s.reg q o' := by
  simp [State.reg, State.regAt_setReg, h]

@[simp] theorem State.reg_setReg_off (p : Page) (o o' : Nat) (v : Word) (h : o' ≠ o) : (s.setReg p o v).reg p o' = s.reg p o' :=
  s.reg_setReg_ne p p o o' v (by omega)

theorem State.regAt_bump (p : Page) (o n a : Nat) :
    (s.bump p o n).regAt a = if a = p.base + o then satAdd (s.reg p o) n else s.regAt a := s.regAt_setReg p o a _

@[simp] theorem State.setDie_reg (d : Nat) (x : Die) (p' : Page) (o' : Nat) : (s.setDie d x).reg p' o' = s.reg p' o' := rfl
@[simp] theorem State.setDie_regAt (d : Nat) (x : Die) (a' : Nat) : (s.setDie d x).regAt a' = s.regAt a' := rfl
@[simp] theorem State.modDie_reg (d : Nat) (f : Die → Die) (p' : Page) (o' : Nat) : (s.modDie d f).reg p' o' = s.reg p' o' := rfl
@[simp] theorem State.modDie_regAt (d : Nat) (f : Die → Die) (a' : Nat) : (s.modDie d f).regAt a' = s.regAt a' := rfl
@[simp] theorem State.setCroft_reg (n : Nat) (x : Croft) (p' : Page) (o' : Nat) : (s.setCroft n x).reg p' o' = s.reg p' o' := rfl
@[simp] theorem State.setCroft_regAt (n : Nat) (x : Croft) (a' : Nat) : (s.setCroft n x).regAt a' = s.regAt a' := rfl
@[simp] theorem State.modCroft_reg (n : Nat) (f : Croft → Croft) (p' : Page) (o' : Nat) : (s.modCroft n f).reg p' o' = s.reg p' o' := rfl
@[simp] theorem State.modCroft_regAt (n : Nat) (f : Croft → Croft) (a' : Nat) : (s.modCroft n f).regAt a' = s.regAt a' := rfl
@[simp] theorem State.modMould_reg (n m : Nat) (f : Mould → Mould) (p' : Page) (o' : Nat) : (s.modMould n m f).reg p' o' = s.reg p' o' := rfl
@[simp] theorem State.modMould_regAt (n m : Nat) (f : Mould → Mould) (a' : Nat) : (s.modMould n m f).regAt a' = s.regAt a' := rfl
@[simp] theorem State.setWin_reg (w : Nat) (x : Window) (p' : Page) (o' : Nat) : (s.setWin w x).reg p' o' = s.reg p' o' := rfl
@[simp] theorem State.setWin_regAt (w : Nat) (x : Window) (a' : Nat) : (s.setWin w x).regAt a' = s.regAt a' := rfl
@[simp] theorem State.modWin_reg (w : Nat) (f : Window → Window) (p' : Page) (o' : Nat) : (s.modWin w f).reg p' o' = s.reg p' o' := rfl
@[simp] theorem State.modWin_regAt (w : Nat) (f : Window → Window) (a' : Nat) : (s.modWin w f).regAt a' = s.regAt a' := rfl
@[simp] theorem State.setSess_reg (x : Nat) (v : Session) (p' : Page) (o' : Nat) : (s.setSess x v).reg p' o' = s.reg p' o' := rfl
@[simp] theorem State.setSess_regAt (x : Nat) (v : Session) (a' : Nat) : (s.setSess x v).regAt a' = s.regAt a' := rfl
@[simp] theorem State.modSess_reg (x : Nat) (f : Session → Session) (p' : Page) (o' : Nat) : (s.modSess x f).reg p' o' = s.reg p' o' := rfl
@[simp] theorem State.modSess_regAt (x : Nat) (f : Session → Session) (a' : Nat) : (s.modSess x f).regAt a' = s.regAt a' := rfl
@[simp] theorem State.modTenant_reg (t : Nat) (f : Tenant → Tenant) (p' : Page) (o' : Nat) : (s.modTenant t f).reg p' o' = s.reg p' o' := rfl
@[simp] theorem State.modTenant_regAt (t : Nat) (f : Tenant → Tenant) (a' : Nat) : (s.modTenant t f).regAt a' = s.regAt a' := rfl
@[simp] theorem State.modStep_reg (i : Nat) (f : Step → Step) (p' : Page) (o' : Nat) : (s.modStep i f).reg p' o' = s.reg p' o' := rfl
@[simp] theorem State.modStep_regAt (i : Nat) (f : Step → Step) (a' : Nat) : (s.modStep i f).regAt a' = s.regAt a' := rfl
@[simp] theorem State.modHub_reg (h : Nat) (f : HubAttn → HubAttn) (p' : Page) (o' : Nat) : (s.modHub h f).reg p' o' = s.reg p' o' := rfl
@[simp] theorem State.modHub_regAt (h : Nat) (f : HubAttn → HubAttn) (a' : Nat) : (s.modHub h f).regAt a' = s.regAt a' := rfl
@[simp] theorem State.modStack_reg (k : Nat) (f : StackSt → StackSt) (p' : Page) (o' : Nat) : (s.modStack k f).reg p' o' = s.reg p' o' := rfl
@[simp] theorem State.modStack_regAt (k : Nat) (f : StackSt → StackSt) (a' : Nat) : (s.modStack k f).regAt a' = s.regAt a' := rfl
@[simp] theorem State.modConv_reg (c : Nat) (f : Converter → Converter) (p' : Page) (o' : Nat) : (s.modConv c f).reg p' o' = s.reg p' o' := rfl
@[simp] theorem State.modConv_regAt (c : Nat) (f : Converter → Converter) (a' : Nat) : (s.modConv c f).regAt a' = s.regAt a' := rfl
@[simp] theorem State.modPort_reg (p : Nat) (f : Port → Port) (p' : Page) (o' : Nat) : (s.modPort p f).reg p' o' = s.reg p' o' := rfl
@[simp] theorem State.modPort_regAt (p : Nat) (f : Port → Port) (a' : Nat) : (s.modPort p f).regAt a' = s.regAt a' := rfl
@[simp] theorem State.modUmod_reg (n : Nat) (f : UModule → UModule) (p' : Page) (o' : Nat) : (s.modUmod n f).reg p' o' = s.reg p' o' := rfl
@[simp] theorem State.modUmod_regAt (n : Nat) (f : UModule → UModule) (a' : Nat) : (s.modUmod n f).regAt a' = s.regAt a' := rfl
@[simp] theorem State.advanceTo_reg (t : Nat) (p' : Page) (o' : Nat) : (s.advanceTo t).reg p' o' = s.reg p' o' := rfl
@[simp] theorem State.advanceTo_regAt (t : Nat) (a' : Nat) : (s.advanceTo t).regAt a' = s.regAt a' := rfl
@[simp] theorem State.tick_reg  (p' : Page) (o' : Nat) : (s.tick ).reg p' o' = s.reg p' o' := rfl
@[simp] theorem State.tick_regAt  (a' : Nat) : (s.tick ).regAt a' = s.regAt a' := rfl

/-! ### Units of other kinds -/

@[simp] theorem State.setDie_croft (d : Nat) (x : Die) (j : Nat) : (s.setDie d x).croft j = s.croft j := rfl
@[simp] theorem State.setDie_win (d : Nat) (x : Die) (j : Nat) : (s.setDie d x).win j = s.win j := rfl
@[simp] theorem State.setDie_sess (d : Nat) (x : Die) (j : Nat) : (s.setDie d x).sess j = s.sess j := rfl
@[simp] theorem State.setDie_tenant (d : Nat) (x : Die) (j : Nat) : (s.setDie d x).tenant j = s.tenant j := rfl
@[simp] theorem State.setDie_hub (d : Nat) (x : Die) (j : Nat) : (s.setDie d x).hub j = s.hub j := rfl
@[simp] theorem State.setDie_stack (d : Nat) (x : Die) (j : Nat) : (s.setDie d x).stack j = s.stack j := rfl
@[simp] theorem State.setDie_conv (d : Nat) (x : Die) (j : Nat) : (s.setDie d x).conv j = s.conv j := rfl
@[simp] theorem State.setDie_port (d : Nat) (x : Die) (j : Nat) : (s.setDie d x).port j = s.port j := rfl
@[simp] theorem State.setDie_umod (d : Nat) (x : Die) (j : Nat) : (s.setDie d x).umod j = s.umod j := rfl
@[simp] theorem State.modDie_croft (d : Nat) (f : Die → Die) (j : Nat) : (s.modDie d f).croft j = s.croft j := rfl
@[simp] theorem State.modDie_win (d : Nat) (f : Die → Die) (j : Nat) : (s.modDie d f).win j = s.win j := rfl
@[simp] theorem State.modDie_sess (d : Nat) (f : Die → Die) (j : Nat) : (s.modDie d f).sess j = s.sess j := rfl
@[simp] theorem State.modDie_tenant (d : Nat) (f : Die → Die) (j : Nat) : (s.modDie d f).tenant j = s.tenant j := rfl
@[simp] theorem State.modDie_hub (d : Nat) (f : Die → Die) (j : Nat) : (s.modDie d f).hub j = s.hub j := rfl
@[simp] theorem State.modDie_stack (d : Nat) (f : Die → Die) (j : Nat) : (s.modDie d f).stack j = s.stack j := rfl
@[simp] theorem State.modDie_conv (d : Nat) (f : Die → Die) (j : Nat) : (s.modDie d f).conv j = s.conv j := rfl
@[simp] theorem State.modDie_port (d : Nat) (f : Die → Die) (j : Nat) : (s.modDie d f).port j = s.port j := rfl
@[simp] theorem State.modDie_umod (d : Nat) (f : Die → Die) (j : Nat) : (s.modDie d f).umod j = s.umod j := rfl
@[simp] theorem State.setCroft_die (n : Nat) (x : Croft) (j : Nat) : (s.setCroft n x).die j = s.die j := rfl
@[simp] theorem State.setCroft_win (n : Nat) (x : Croft) (j : Nat) : (s.setCroft n x).win j = s.win j := rfl
@[simp] theorem State.setCroft_sess (n : Nat) (x : Croft) (j : Nat) : (s.setCroft n x).sess j = s.sess j := rfl
@[simp] theorem State.setCroft_tenant (n : Nat) (x : Croft) (j : Nat) : (s.setCroft n x).tenant j = s.tenant j := rfl
@[simp] theorem State.setCroft_hub (n : Nat) (x : Croft) (j : Nat) : (s.setCroft n x).hub j = s.hub j := rfl
@[simp] theorem State.setCroft_stack (n : Nat) (x : Croft) (j : Nat) : (s.setCroft n x).stack j = s.stack j := rfl
@[simp] theorem State.setCroft_conv (n : Nat) (x : Croft) (j : Nat) : (s.setCroft n x).conv j = s.conv j := rfl
@[simp] theorem State.setCroft_port (n : Nat) (x : Croft) (j : Nat) : (s.setCroft n x).port j = s.port j := rfl
@[simp] theorem State.setCroft_umod (n : Nat) (x : Croft) (j : Nat) : (s.setCroft n x).umod j = s.umod j := rfl
@[simp] theorem State.modCroft_die (n : Nat) (f : Croft → Croft) (j : Nat) : (s.modCroft n f).die j = s.die j := rfl
@[simp] theorem State.modCroft_win (n : Nat) (f : Croft → Croft) (j : Nat) : (s.modCroft n f).win j = s.win j := rfl
@[simp] theorem State.modCroft_sess (n : Nat) (f : Croft → Croft) (j : Nat) : (s.modCroft n f).sess j = s.sess j := rfl
@[simp] theorem State.modCroft_tenant (n : Nat) (f : Croft → Croft) (j : Nat) : (s.modCroft n f).tenant j = s.tenant j := rfl
@[simp] theorem State.modCroft_hub (n : Nat) (f : Croft → Croft) (j : Nat) : (s.modCroft n f).hub j = s.hub j := rfl
@[simp] theorem State.modCroft_stack (n : Nat) (f : Croft → Croft) (j : Nat) : (s.modCroft n f).stack j = s.stack j := rfl
@[simp] theorem State.modCroft_conv (n : Nat) (f : Croft → Croft) (j : Nat) : (s.modCroft n f).conv j = s.conv j := rfl
@[simp] theorem State.modCroft_port (n : Nat) (f : Croft → Croft) (j : Nat) : (s.modCroft n f).port j = s.port j := rfl
@[simp] theorem State.modCroft_umod (n : Nat) (f : Croft → Croft) (j : Nat) : (s.modCroft n f).umod j = s.umod j := rfl
@[simp] theorem State.modMould_die (n m : Nat) (f : Mould → Mould) (j : Nat) : (s.modMould n m f).die j = s.die j := rfl
@[simp] theorem State.modMould_win (n m : Nat) (f : Mould → Mould) (j : Nat) : (s.modMould n m f).win j = s.win j := rfl
@[simp] theorem State.modMould_sess (n m : Nat) (f : Mould → Mould) (j : Nat) : (s.modMould n m f).sess j = s.sess j := rfl
@[simp] theorem State.modMould_tenant (n m : Nat) (f : Mould → Mould) (j : Nat) : (s.modMould n m f).tenant j = s.tenant j := rfl
@[simp] theorem State.modMould_hub (n m : Nat) (f : Mould → Mould) (j : Nat) : (s.modMould n m f).hub j = s.hub j := rfl
@[simp] theorem State.modMould_stack (n m : Nat) (f : Mould → Mould) (j : Nat) : (s.modMould n m f).stack j = s.stack j := rfl
@[simp] theorem State.modMould_conv (n m : Nat) (f : Mould → Mould) (j : Nat) : (s.modMould n m f).conv j = s.conv j := rfl
@[simp] theorem State.modMould_port (n m : Nat) (f : Mould → Mould) (j : Nat) : (s.modMould n m f).port j = s.port j := rfl
@[simp] theorem State.modMould_umod (n m : Nat) (f : Mould → Mould) (j : Nat) : (s.modMould n m f).umod j = s.umod j := rfl
@[simp] theorem State.setWin_die (w : Nat) (x : Window) (j : Nat) : (s.setWin w x).die j = s.die j := rfl
@[simp] theorem State.setWin_croft (w : Nat) (x : Window) (j : Nat) : (s.setWin w x).croft j = s.croft j := rfl
@[simp] theorem State.setWin_sess (w : Nat) (x : Window) (j : Nat) : (s.setWin w x).sess j = s.sess j := rfl
@[simp] theorem State.setWin_tenant (w : Nat) (x : Window) (j : Nat) : (s.setWin w x).tenant j = s.tenant j := rfl
@[simp] theorem State.setWin_hub (w : Nat) (x : Window) (j : Nat) : (s.setWin w x).hub j = s.hub j := rfl
@[simp] theorem State.setWin_stack (w : Nat) (x : Window) (j : Nat) : (s.setWin w x).stack j = s.stack j := rfl
@[simp] theorem State.setWin_conv (w : Nat) (x : Window) (j : Nat) : (s.setWin w x).conv j = s.conv j := rfl
@[simp] theorem State.setWin_port (w : Nat) (x : Window) (j : Nat) : (s.setWin w x).port j = s.port j := rfl
@[simp] theorem State.setWin_umod (w : Nat) (x : Window) (j : Nat) : (s.setWin w x).umod j = s.umod j := rfl
@[simp] theorem State.modWin_die (w : Nat) (f : Window → Window) (j : Nat) : (s.modWin w f).die j = s.die j := rfl
@[simp] theorem State.modWin_croft (w : Nat) (f : Window → Window) (j : Nat) : (s.modWin w f).croft j = s.croft j := rfl
@[simp] theorem State.modWin_sess (w : Nat) (f : Window → Window) (j : Nat) : (s.modWin w f).sess j = s.sess j := rfl
@[simp] theorem State.modWin_tenant (w : Nat) (f : Window → Window) (j : Nat) : (s.modWin w f).tenant j = s.tenant j := rfl
@[simp] theorem State.modWin_hub (w : Nat) (f : Window → Window) (j : Nat) : (s.modWin w f).hub j = s.hub j := rfl
@[simp] theorem State.modWin_stack (w : Nat) (f : Window → Window) (j : Nat) : (s.modWin w f).stack j = s.stack j := rfl
@[simp] theorem State.modWin_conv (w : Nat) (f : Window → Window) (j : Nat) : (s.modWin w f).conv j = s.conv j := rfl
@[simp] theorem State.modWin_port (w : Nat) (f : Window → Window) (j : Nat) : (s.modWin w f).port j = s.port j := rfl
@[simp] theorem State.modWin_umod (w : Nat) (f : Window → Window) (j : Nat) : (s.modWin w f).umod j = s.umod j := rfl
@[simp] theorem State.setSess_die (x : Nat) (v : Session) (j : Nat) : (s.setSess x v).die j = s.die j := rfl
@[simp] theorem State.setSess_croft (x : Nat) (v : Session) (j : Nat) : (s.setSess x v).croft j = s.croft j := rfl
@[simp] theorem State.setSess_win (x : Nat) (v : Session) (j : Nat) : (s.setSess x v).win j = s.win j := rfl
@[simp] theorem State.setSess_tenant (x : Nat) (v : Session) (j : Nat) : (s.setSess x v).tenant j = s.tenant j := rfl
@[simp] theorem State.setSess_hub (x : Nat) (v : Session) (j : Nat) : (s.setSess x v).hub j = s.hub j := rfl
@[simp] theorem State.setSess_stack (x : Nat) (v : Session) (j : Nat) : (s.setSess x v).stack j = s.stack j := rfl
@[simp] theorem State.setSess_conv (x : Nat) (v : Session) (j : Nat) : (s.setSess x v).conv j = s.conv j := rfl
@[simp] theorem State.setSess_port (x : Nat) (v : Session) (j : Nat) : (s.setSess x v).port j = s.port j := rfl
@[simp] theorem State.setSess_umod (x : Nat) (v : Session) (j : Nat) : (s.setSess x v).umod j = s.umod j := rfl
@[simp] theorem State.modSess_die (x : Nat) (f : Session → Session) (j : Nat) : (s.modSess x f).die j = s.die j := rfl
@[simp] theorem State.modSess_croft (x : Nat) (f : Session → Session) (j : Nat) : (s.modSess x f).croft j = s.croft j := rfl
@[simp] theorem State.modSess_win (x : Nat) (f : Session → Session) (j : Nat) : (s.modSess x f).win j = s.win j := rfl
@[simp] theorem State.modSess_tenant (x : Nat) (f : Session → Session) (j : Nat) : (s.modSess x f).tenant j = s.tenant j := rfl
@[simp] theorem State.modSess_hub (x : Nat) (f : Session → Session) (j : Nat) : (s.modSess x f).hub j = s.hub j := rfl
@[simp] theorem State.modSess_stack (x : Nat) (f : Session → Session) (j : Nat) : (s.modSess x f).stack j = s.stack j := rfl
@[simp] theorem State.modSess_conv (x : Nat) (f : Session → Session) (j : Nat) : (s.modSess x f).conv j = s.conv j := rfl
@[simp] theorem State.modSess_port (x : Nat) (f : Session → Session) (j : Nat) : (s.modSess x f).port j = s.port j := rfl
@[simp] theorem State.modSess_umod (x : Nat) (f : Session → Session) (j : Nat) : (s.modSess x f).umod j = s.umod j := rfl
@[simp] theorem State.modTenant_die (t : Nat) (f : Tenant → Tenant) (j : Nat) : (s.modTenant t f).die j = s.die j := rfl
@[simp] theorem State.modTenant_croft (t : Nat) (f : Tenant → Tenant) (j : Nat) : (s.modTenant t f).croft j = s.croft j := rfl
@[simp] theorem State.modTenant_win (t : Nat) (f : Tenant → Tenant) (j : Nat) : (s.modTenant t f).win j = s.win j := rfl
@[simp] theorem State.modTenant_sess (t : Nat) (f : Tenant → Tenant) (j : Nat) : (s.modTenant t f).sess j = s.sess j := rfl
@[simp] theorem State.modTenant_hub (t : Nat) (f : Tenant → Tenant) (j : Nat) : (s.modTenant t f).hub j = s.hub j := rfl
@[simp] theorem State.modTenant_stack (t : Nat) (f : Tenant → Tenant) (j : Nat) : (s.modTenant t f).stack j = s.stack j := rfl
@[simp] theorem State.modTenant_conv (t : Nat) (f : Tenant → Tenant) (j : Nat) : (s.modTenant t f).conv j = s.conv j := rfl
@[simp] theorem State.modTenant_port (t : Nat) (f : Tenant → Tenant) (j : Nat) : (s.modTenant t f).port j = s.port j := rfl
@[simp] theorem State.modTenant_umod (t : Nat) (f : Tenant → Tenant) (j : Nat) : (s.modTenant t f).umod j = s.umod j := rfl
@[simp] theorem State.modStep_die (i : Nat) (f : Step → Step) (j : Nat) : (s.modStep i f).die j = s.die j := rfl
@[simp] theorem State.modStep_croft (i : Nat) (f : Step → Step) (j : Nat) : (s.modStep i f).croft j = s.croft j := rfl
@[simp] theorem State.modStep_win (i : Nat) (f : Step → Step) (j : Nat) : (s.modStep i f).win j = s.win j := rfl
@[simp] theorem State.modStep_sess (i : Nat) (f : Step → Step) (j : Nat) : (s.modStep i f).sess j = s.sess j := rfl
@[simp] theorem State.modStep_tenant (i : Nat) (f : Step → Step) (j : Nat) : (s.modStep i f).tenant j = s.tenant j := rfl
@[simp] theorem State.modStep_hub (i : Nat) (f : Step → Step) (j : Nat) : (s.modStep i f).hub j = s.hub j := rfl
@[simp] theorem State.modStep_stack (i : Nat) (f : Step → Step) (j : Nat) : (s.modStep i f).stack j = s.stack j := rfl
@[simp] theorem State.modStep_conv (i : Nat) (f : Step → Step) (j : Nat) : (s.modStep i f).conv j = s.conv j := rfl
@[simp] theorem State.modStep_port (i : Nat) (f : Step → Step) (j : Nat) : (s.modStep i f).port j = s.port j := rfl
@[simp] theorem State.modStep_umod (i : Nat) (f : Step → Step) (j : Nat) : (s.modStep i f).umod j = s.umod j := rfl
@[simp] theorem State.modHub_die (h : Nat) (f : HubAttn → HubAttn) (j : Nat) : (s.modHub h f).die j = s.die j := rfl
@[simp] theorem State.modHub_croft (h : Nat) (f : HubAttn → HubAttn) (j : Nat) : (s.modHub h f).croft j = s.croft j := rfl
@[simp] theorem State.modHub_win (h : Nat) (f : HubAttn → HubAttn) (j : Nat) : (s.modHub h f).win j = s.win j := rfl
@[simp] theorem State.modHub_sess (h : Nat) (f : HubAttn → HubAttn) (j : Nat) : (s.modHub h f).sess j = s.sess j := rfl
@[simp] theorem State.modHub_tenant (h : Nat) (f : HubAttn → HubAttn) (j : Nat) : (s.modHub h f).tenant j = s.tenant j := rfl
@[simp] theorem State.modHub_stack (h : Nat) (f : HubAttn → HubAttn) (j : Nat) : (s.modHub h f).stack j = s.stack j := rfl
@[simp] theorem State.modHub_conv (h : Nat) (f : HubAttn → HubAttn) (j : Nat) : (s.modHub h f).conv j = s.conv j := rfl
@[simp] theorem State.modHub_port (h : Nat) (f : HubAttn → HubAttn) (j : Nat) : (s.modHub h f).port j = s.port j := rfl
@[simp] theorem State.modHub_umod (h : Nat) (f : HubAttn → HubAttn) (j : Nat) : (s.modHub h f).umod j = s.umod j := rfl
@[simp] theorem State.modStack_die (k : Nat) (f : StackSt → StackSt) (j : Nat) : (s.modStack k f).die j = s.die j := rfl
@[simp] theorem State.modStack_croft (k : Nat) (f : StackSt → StackSt) (j : Nat) : (s.modStack k f).croft j = s.croft j := rfl
@[simp] theorem State.modStack_win (k : Nat) (f : StackSt → StackSt) (j : Nat) : (s.modStack k f).win j = s.win j := rfl
@[simp] theorem State.modStack_sess (k : Nat) (f : StackSt → StackSt) (j : Nat) : (s.modStack k f).sess j = s.sess j := rfl
@[simp] theorem State.modStack_tenant (k : Nat) (f : StackSt → StackSt) (j : Nat) : (s.modStack k f).tenant j = s.tenant j := rfl
@[simp] theorem State.modStack_hub (k : Nat) (f : StackSt → StackSt) (j : Nat) : (s.modStack k f).hub j = s.hub j := rfl
@[simp] theorem State.modStack_conv (k : Nat) (f : StackSt → StackSt) (j : Nat) : (s.modStack k f).conv j = s.conv j := rfl
@[simp] theorem State.modStack_port (k : Nat) (f : StackSt → StackSt) (j : Nat) : (s.modStack k f).port j = s.port j := rfl
@[simp] theorem State.modStack_umod (k : Nat) (f : StackSt → StackSt) (j : Nat) : (s.modStack k f).umod j = s.umod j := rfl
@[simp] theorem State.modConv_die (c : Nat) (f : Converter → Converter) (j : Nat) : (s.modConv c f).die j = s.die j := rfl
@[simp] theorem State.modConv_croft (c : Nat) (f : Converter → Converter) (j : Nat) : (s.modConv c f).croft j = s.croft j := rfl
@[simp] theorem State.modConv_win (c : Nat) (f : Converter → Converter) (j : Nat) : (s.modConv c f).win j = s.win j := rfl
@[simp] theorem State.modConv_sess (c : Nat) (f : Converter → Converter) (j : Nat) : (s.modConv c f).sess j = s.sess j := rfl
@[simp] theorem State.modConv_tenant (c : Nat) (f : Converter → Converter) (j : Nat) : (s.modConv c f).tenant j = s.tenant j := rfl
@[simp] theorem State.modConv_hub (c : Nat) (f : Converter → Converter) (j : Nat) : (s.modConv c f).hub j = s.hub j := rfl
@[simp] theorem State.modConv_stack (c : Nat) (f : Converter → Converter) (j : Nat) : (s.modConv c f).stack j = s.stack j := rfl
@[simp] theorem State.modConv_port (c : Nat) (f : Converter → Converter) (j : Nat) : (s.modConv c f).port j = s.port j := rfl
@[simp] theorem State.modConv_umod (c : Nat) (f : Converter → Converter) (j : Nat) : (s.modConv c f).umod j = s.umod j := rfl
@[simp] theorem State.modPort_die (p : Nat) (f : Port → Port) (j : Nat) : (s.modPort p f).die j = s.die j := rfl
@[simp] theorem State.modPort_croft (p : Nat) (f : Port → Port) (j : Nat) : (s.modPort p f).croft j = s.croft j := rfl
@[simp] theorem State.modPort_win (p : Nat) (f : Port → Port) (j : Nat) : (s.modPort p f).win j = s.win j := rfl
@[simp] theorem State.modPort_sess (p : Nat) (f : Port → Port) (j : Nat) : (s.modPort p f).sess j = s.sess j := rfl
@[simp] theorem State.modPort_tenant (p : Nat) (f : Port → Port) (j : Nat) : (s.modPort p f).tenant j = s.tenant j := rfl
@[simp] theorem State.modPort_hub (p : Nat) (f : Port → Port) (j : Nat) : (s.modPort p f).hub j = s.hub j := rfl
@[simp] theorem State.modPort_stack (p : Nat) (f : Port → Port) (j : Nat) : (s.modPort p f).stack j = s.stack j := rfl
@[simp] theorem State.modPort_conv (p : Nat) (f : Port → Port) (j : Nat) : (s.modPort p f).conv j = s.conv j := rfl
@[simp] theorem State.modPort_umod (p : Nat) (f : Port → Port) (j : Nat) : (s.modPort p f).umod j = s.umod j := rfl
@[simp] theorem State.modUmod_die (n : Nat) (f : UModule → UModule) (j : Nat) : (s.modUmod n f).die j = s.die j := rfl
@[simp] theorem State.modUmod_croft (n : Nat) (f : UModule → UModule) (j : Nat) : (s.modUmod n f).croft j = s.croft j := rfl
@[simp] theorem State.modUmod_win (n : Nat) (f : UModule → UModule) (j : Nat) : (s.modUmod n f).win j = s.win j := rfl
@[simp] theorem State.modUmod_sess (n : Nat) (f : UModule → UModule) (j : Nat) : (s.modUmod n f).sess j = s.sess j := rfl
@[simp] theorem State.modUmod_tenant (n : Nat) (f : UModule → UModule) (j : Nat) : (s.modUmod n f).tenant j = s.tenant j := rfl
@[simp] theorem State.modUmod_hub (n : Nat) (f : UModule → UModule) (j : Nat) : (s.modUmod n f).hub j = s.hub j := rfl
@[simp] theorem State.modUmod_stack (n : Nat) (f : UModule → UModule) (j : Nat) : (s.modUmod n f).stack j = s.stack j := rfl
@[simp] theorem State.modUmod_conv (n : Nat) (f : UModule → UModule) (j : Nat) : (s.modUmod n f).conv j = s.conv j := rfl
@[simp] theorem State.modUmod_port (n : Nat) (f : UModule → UModule) (j : Nat) : (s.modUmod n f).port j = s.port j := rfl
@[simp] theorem State.setReg_die (p : Page) (o : Nat) (v : Word) (j : Nat) : (s.setReg p o v).die j = s.die j := rfl
@[simp] theorem State.setReg_croft (p : Page) (o : Nat) (v : Word) (j : Nat) : (s.setReg p o v).croft j = s.croft j := rfl
@[simp] theorem State.setReg_win (p : Page) (o : Nat) (v : Word) (j : Nat) : (s.setReg p o v).win j = s.win j := rfl
@[simp] theorem State.setReg_sess (p : Page) (o : Nat) (v : Word) (j : Nat) : (s.setReg p o v).sess j = s.sess j := rfl
@[simp] theorem State.setReg_tenant (p : Page) (o : Nat) (v : Word) (j : Nat) : (s.setReg p o v).tenant j = s.tenant j := rfl
@[simp] theorem State.setReg_hub (p : Page) (o : Nat) (v : Word) (j : Nat) : (s.setReg p o v).hub j = s.hub j := rfl
@[simp] theorem State.setReg_stack (p : Page) (o : Nat) (v : Word) (j : Nat) : (s.setReg p o v).stack j = s.stack j := rfl
@[simp] theorem State.setReg_conv (p : Page) (o : Nat) (v : Word) (j : Nat) : (s.setReg p o v).conv j = s.conv j := rfl
@[simp] theorem State.setReg_port (p : Page) (o : Nat) (v : Word) (j : Nat) : (s.setReg p o v).port j = s.port j := rfl
@[simp] theorem State.setReg_umod (p : Page) (o : Nat) (v : Word) (j : Nat) : (s.setReg p o v).umod j = s.umod j := rfl
@[simp] theorem State.bump_die (p : Page) (o n : Nat) (j : Nat) : (s.bump p o n).die j = s.die j := rfl
@[simp] theorem State.bump_croft (p : Page) (o n : Nat) (j : Nat) : (s.bump p o n).croft j = s.croft j := rfl
@[simp] theorem State.bump_win (p : Page) (o n : Nat) (j : Nat) : (s.bump p o n).win j = s.win j := rfl
@[simp] theorem State.bump_sess (p : Page) (o n : Nat) (j : Nat) : (s.bump p o n).sess j = s.sess j := rfl
@[simp] theorem State.bump_tenant (p : Page) (o n : Nat) (j : Nat) : (s.bump p o n).tenant j = s.tenant j := rfl
@[simp] theorem State.bump_hub (p : Page) (o n : Nat) (j : Nat) : (s.bump p o n).hub j = s.hub j := rfl
@[simp] theorem State.bump_stack (p : Page) (o n : Nat) (j : Nat) : (s.bump p o n).stack j = s.stack j := rfl
@[simp] theorem State.bump_conv (p : Page) (o n : Nat) (j : Nat) : (s.bump p o n).conv j = s.conv j := rfl
@[simp] theorem State.bump_port (p : Page) (o n : Nat) (j : Nat) : (s.bump p o n).port j = s.port j := rfl
@[simp] theorem State.bump_umod (p : Page) (o n : Nat) (j : Nat) : (s.bump p o n).umod j = s.umod j := rfl
@[simp] theorem State.advanceTo_die (t : Nat) (j : Nat) : (s.advanceTo t).die j = s.die j := rfl
@[simp] theorem State.advanceTo_croft (t : Nat) (j : Nat) : (s.advanceTo t).croft j = s.croft j := rfl
@[simp] theorem State.advanceTo_win (t : Nat) (j : Nat) : (s.advanceTo t).win j = s.win j := rfl
@[simp] theorem State.advanceTo_sess (t : Nat) (j : Nat) : (s.advanceTo t).sess j = s.sess j := rfl
@[simp] theorem State.advanceTo_tenant (t : Nat) (j : Nat) : (s.advanceTo t).tenant j = s.tenant j := rfl
@[simp] theorem State.advanceTo_hub (t : Nat) (j : Nat) : (s.advanceTo t).hub j = s.hub j := rfl
@[simp] theorem State.advanceTo_stack (t : Nat) (j : Nat) : (s.advanceTo t).stack j = s.stack j := rfl
@[simp] theorem State.advanceTo_conv (t : Nat) (j : Nat) : (s.advanceTo t).conv j = s.conv j := rfl
@[simp] theorem State.advanceTo_port (t : Nat) (j : Nat) : (s.advanceTo t).port j = s.port j := rfl
@[simp] theorem State.advanceTo_umod (t : Nat) (j : Nat) : (s.advanceTo t).umod j = s.umod j := rfl
@[simp] theorem State.tick_die  (j : Nat) : (s.tick ).die j = s.die j := rfl
@[simp] theorem State.tick_croft  (j : Nat) : (s.tick ).croft j = s.croft j := rfl
@[simp] theorem State.tick_win  (j : Nat) : (s.tick ).win j = s.win j := rfl
@[simp] theorem State.tick_sess  (j : Nat) : (s.tick ).sess j = s.sess j := rfl
@[simp] theorem State.tick_tenant  (j : Nat) : (s.tick ).tenant j = s.tenant j := rfl
@[simp] theorem State.tick_hub  (j : Nat) : (s.tick ).hub j = s.hub j := rfl
@[simp] theorem State.tick_stack  (j : Nat) : (s.tick ).stack j = s.stack j := rfl
@[simp] theorem State.tick_conv  (j : Nat) : (s.tick ).conv j = s.conv j := rfl
@[simp] theorem State.tick_port  (j : Nat) : (s.tick ).port j = s.port j := rfl
@[simp] theorem State.tick_umod  (j : Nat) : (s.tick ).umod j = s.umod j := rfl

end Sys2Proof.Machine
end

