-- ==== Sys2Proof/Laws/Memory.lean ====
section
/-!
SUPPORT. What reads and writes of stack memory and host memory can do: they touch registers, interrupts, free values, stack memory and
the steward's dirty lines, and never the pool or the service of a stack.
-/
namespace Sys2Proof.Machine

/-- From `s` to `t` only memory, its error records and the steward's dirty lines have moved. -/
structure MemStep (s t : State) : Prop where
  pending : t.pending = s.pending
  clock : t.clock = s.clock
  pkg : t.pkg = s.pkg
  dies : t.dies = s.dies
  crofts : t.crofts = s.crofts
  serve : t.serve = s.serve
  store : t.store = s.store
  tally : t.tally = s.tally
  sense : t.sense = s.sense
  lock : t.lock = s.lock
  links : t.links = { s.links with dirtyLines := t.links.dirtyLines }
  out : ∀ k, (t.stack k).out = (s.stack k).out
  unclean : ∀ k, (t.stack k).unclean = (s.stack k).unclean
  staging : ∀ k, (t.stack k).staging = (s.stack k).staging
  withheld : ∀ k, (t.stack k).withheld = (s.stack k).withheld

theorem MemStep.refl (s : State) : MemStep s s :=
  ⟨rfl, rfl, rfl, rfl, rfl, rfl, rfl, rfl, rfl, rfl, rfl, fun _ => rfl, fun _ => rfl, fun _ => rfl, fun _ => rfl⟩

theorem MemStep.trans {s t u : State} (a : MemStep s t) (b : MemStep t u) : MemStep s u where
  pending := b.pending.trans a.pending
  clock := b.clock.trans a.clock
  pkg := b.pkg.trans a.pkg
  dies := b.dies.trans a.dies
  crofts := b.crofts.trans a.crofts
  serve := b.serve.trans a.serve
  store := b.store.trans a.store
  tally := b.tally.trans a.tally
  sense := b.sense.trans a.sense
  lock := b.lock.trans a.lock
  links := by rw [b.links, a.links]
  out k := (b.out k).trans (a.out k)
  unclean k := (b.unclean k).trans (a.unclean k)
  staging k := (b.staging k).trans (a.staging k)
  withheld k := (b.withheld k).trans (a.withheld k)

/-- The same as one equation. -/
theorem MemStep.eq {s t : State} (h : MemStep s t) :
    t = { s with regs := t.regs, stew := t.stew, fresh := t.fresh, hbm := t.hbm, links := { s.links with dirtyLines := t.links.dirtyLines } } := by
  obtain ⟨h1, h2, h3, h4, h5, h6, h7, h8, h9, h10, h11, -, -, -, -⟩ := h
  cases s; cases t
  rw [State.mk.injEq]
  exact ⟨h1, rfl, h2, rfl, h3, h4, h5, h6, h7, rfl, h8, h9, h11, h10, rfl⟩

/-- Registers, interrupts and the counter of free values. -/
theorem MemStep.of_regs {s t : State} (h : t = { s with regs := t.regs, stew := t.stew, fresh := t.fresh }) : MemStep s t := by
  rw [h]
  exact ⟨rfl, rfl, rfl, rfl, rfl, rfl, rfl, rfl, rfl, rfl, rfl, fun _ => rfl, fun _ => rfl, fun _ => rfl, fun _ => rfl⟩

theorem MemStep.ite {c : Prop} [Decidable c] {s a b : State} (ha : MemStep s a) (hb : MemStep s b) : MemStep s (if c then a else b) := by
  split <;> assumption

theorem MemStep.foldl {α : Type} (f : State → α → State) (l : List α) (s : State) (h : ∀ t x, MemStep t (f t x)) :
    MemStep s (l.foldl f s) := by
  induction l generalizing s with
  | nil => exact .refl s
  | cons x l ih => exact (h s x).trans (ih _)

/-! ### Error records and counters -/

theorem State.setReg_mem (s : State) (p : Page) (o : Nat) (v : Word) : MemStep s (s.setReg p o v) := .of_regs rfl
theorem State.bump_mem (s : State) (p : Page) (o n : Nat) : MemStep s (s.bump p o n) := .of_regs rfl
theorem State.tick_mem (s : State) : MemStep s s.tick := .of_regs rfl

theorem State.raiseIntr_mem (s : State) (id : Nat) : MemStep s (s.raiseIntr id) := by
  unfold State.raiseIntr
  dsimp only
  repeat' split
  all_goals exact .of_regs rfl

theorem State.logError_mem (s : State) (p : Page) (c : Code) (a k i : Nat) (r : Bool) : MemStep s (s.logError p c a k i r) := by
  unfold State.logError
  dsimp only
  have h : MemStep s ((((s.setReg p 0x020 (errStatus c.num 1)).setReg p 0x028 (BitVec.ofNat 64 a)).setReg p 0x030
      (errSrc r k i)).setReg p 0x050 (BitVec.ofNat 64 (s.pageTime p))) :=
    (((s.setReg_mem _ _ _).trans (State.setReg_mem _ _ _ _)).trans (State.setReg_mem _ _ _ _)).trans (State.setReg_mem _ _ _ _)
  split
  · split
    · exact h
    · exact h.trans (State.raiseIntr_mem _ _)
  · exact s.setReg_mem _ _ _

theorem State.logEvent_mem (s : State) (p : Page) (c : Code) (a : Nat) : MemStep s (s.logEvent p c a) := State.logError_mem _ _ _ _ _ _ _

/-! ### Lines -/

theorem State.setLineCode_mem (s : State) (l : Nat) (c : LineCode) : MemStep s (s.setLineCode l c) :=
  ⟨rfl, rfl, rfl, rfl, rfl, rfl, rfl, rfl, rfl, rfl, rfl, fun _ => rfl, fun _ => rfl, fun _ => rfl, fun _ => rfl⟩

/-- Bookkeeping of a stack that leaves its pool and its service alone. -/
theorem State.modStack_mem (s : State) (k : Nat) (f : StackSt → StackSt)
    (h : ∀ x, (f x).out = x.out ∧ (f x).unclean = x.unclean ∧ (f x).staging = x.staging ∧ (f x).withheld = x.withheld) :
    MemStep s (s.modStack k f) := by
  have e (j : Nat) : (s.modStack k f).stack j = if j = k then f (s.stack k) else s.stack j := by
    simp only [State.modStack, State.stack, tget_tmod]
  refine ⟨rfl, rfl, rfl, rfl, rfl, rfl, rfl, rfl, rfl, rfl, rfl, ?_, ?_, ?_, ?_⟩ <;>
  · intro j
    rw [e j]
    split
    · subst_vars
      simp [h]
    · rfl

theorem State.listRow_mem (s : State) (l : Nat) : MemStep s (s.listRow l) := by
  unfold State.listRow
  dsimp only
  repeat' split
  · exact .refl _
  · exact s.modStack_mem _ _ fun _ => ⟨rfl, rfl, rfl, rfl⟩
  · exact s.logEvent_mem _ _ _

theorem State.poisonLine_mem (s : State) (l : Nat) : MemStep s (s.poisonLine l) :=
  (((s.setLineCode_mem _ _).trans (State.bump_mem _ _ _ _)).trans (State.logEvent_mem _ _ _ _)).trans (State.listRow_mem _ _)

theorem State.readLine_mem (s : State) (l key : Nat) : MemStep s (s.readLine l key).1 := by
  unfold State.readLine
  dsimp only
  split
  · exact s.bump_mem _ _ _
  split
  · exact .refl _
  · have ht : MemStep s (if 7 ≤ (s.lineCode l).errors then s.tick else s) := .ite s.tick_mem (.refl s)
    split
    · exact ht
    · exact ht.trans (State.bump_mem _ _ _ _)
    · exact ht
    · exact ht.trans (State.bump_mem _ _ _ _)
    · exact (ht.trans (State.poisonLine_mem _ _)).trans (State.bump_mem _ _ _ _)
    · exact ht

theorem State.writeLine_mem (s : State) (l key : Nat) (bs : List (BitVec 8)) (p : Bool) : MemStep s (s.writeLine l key bs p) := by
  unfold State.writeLine
  dsimp only
  split
  · exact s.modStack_mem _ _ fun _ => ⟨rfl, rfl, rfl, rfl⟩
  split
  · exact .refl _
  · exact ⟨rfl, rfl, rfl, rfl, rfl, rfl, rfl, rfl, rfl, rfl, rfl, fun _ => rfl, fun _ => rfl, fun _ => rfl, fun _ => rfl⟩

theorem State.writePart_mem (s : State) (l o key : Nat) (bs : List (BitVec 8)) : MemStep s (s.writePart l o key bs) := by
  unfold State.writePart
  dsimp only
  split
  · exact s.modStack_mem _ _ fun _ => ⟨rfl, rfl, rfl, rfl⟩
  split
  · exact .refl _
  · have ht : MemStep s (if 7 ≤ (s.lineCode l).errors then s.tick else s) := .ite s.tick_mem (.refl s)
    split
    · exact ht.trans (State.writeLine_mem _ _ _ _ _)
    · exact ht.trans (State.writeLine_mem _ _ _ _ _)
    · exact ht.trans (State.writeLine_mem _ _ _ _ _)
    · exact (ht.trans (State.writeLine_mem _ _ _ _ _)).trans (State.bump_mem _ _ _ _)
    · exact ((ht.trans (State.poisonLine_mem _ _)).trans (State.writeLine_mem _ _ _ _ _)).trans (State.bump_mem _ _ _ _)
    · exact ht.trans (State.writeLine_mem _ _ _ _ _)

theorem State.readBytes_mem (s : State) (a n key : Nat) : MemStep s (s.readBytes a n key).1 := by
  unfold State.readBytes
  dsimp only
  have h (l : List Nat) (x : State × LineData) : MemStep x.1 (l.foldl (fun (acc : State × LineData) i =>
      ((acc.1.readLine (a / 64 + i) key).1, (⟨acc.2.bytes ++ (acc.1.readLine (a / 64 + i) key).2.bytes,
        acc.2.poison || (acc.1.readLine (a / 64 + i) key).2.poison⟩ : LineData))) x).1 := by
    induction l generalizing x with
    | nil => exact .refl _
    | cons i l ih =>
      rw [List.foldl_cons]
      have e := ih ((x.1.readLine (a / 64 + i) key).1, ⟨x.2.bytes ++ (x.1.readLine (a / 64 + i) key).2.bytes,
        x.2.poison || (x.1.readLine (a / 64 + i) key).2.poison⟩)
      exact MemStep.trans (State.readLine_mem x.1 (a / 64 + i) key) e
  exact h _ (s, ⟨[], false⟩)

theorem State.writeBytes_mem (s : State) (a key : Nat) (bs : List (BitVec 8)) : MemStep s (s.writeBytes a key bs) := by
  unfold State.writeBytes
  exact .foldl _ _ _ fun t i => by
    dsimp only
    exact .ite (State.writeLine_mem _ _ _ _ _) (State.writePart_mem _ _ _ _ _)

/-! ### Host memory -/

theorem State.hostRead_mem (s : State) (a n : Nat) : MemStep s (s.hostRead a n).1 := by
  unfold State.hostRead
  split
  · exact .refl _
  · exact s.readBytes_mem _ _ _

theorem State.hostWriteLine_mem (s : State) (a : Nat) (bs : List (BitVec 8)) : MemStep s (s.hostWriteLine a bs) := by
  unfold State.hostWriteLine
  split
  · exact .refl _
  · exact MemStep.trans (t := { s with links := { s.links with dirtyLines := tdrop s.links.dirtyLines _ } })
      ⟨rfl, rfl, rfl, rfl, rfl, rfl, rfl, rfl, rfl, rfl, rfl, fun _ => rfl, fun _ => rfl, fun _ => rfl, fun _ => rfl⟩
      (State.writeLine_mem _ _ _ _ _)

theorem State.readTokens_mem (s : State) (a n : Nat) : MemStep s (s.readTokens a n).1 := s.hostRead_mem _ _

/-- The checks of a command read memory and change nothing else. -/
theorem State.readContents_mem (s : State) (b : Body) (v : Nat) : MemStep s (s.readContents b v).1 := by
  unfold State.readContents
  dsimp only
  repeat' split
  all_goals first
    | exact s.readTokens_mem _ _
    | exact s.hostRead_mem _ _
    | exact .refl _

theorem State.check_mem (s : State) (w : Nat) (h : CmdHead) (b : Body) : MemStep s (s.check w h b).1 := by
  unfold State.check
  dsimp only
  repeat' split
  all_goals first
    | exact .refl _
    | exact s.readContents_mem _ _

/-! ### Records -/

/-- The window that a record leaves: its ring has produced one more (R336). -/
theorem State.writeRecord_win (s : State) (w n : Nat) (r : Record) (k : Nat) :
    (s.writeRecord w n r).win k =
      if k = w then (s.win w).setRing n { (s.win w).ring n with produced := ((s.win w).ring n).produced + 1 } else s.win k := by
  unfold State.writeRecord
  dsimp only
  rw [State.win, (State.raiseIntr_mem _ _).serve]
  cases kindCounter r.kind <;>
    simp only [State.bump_serve, State.modWin, State.setWin, State.win, tget_tput, (State.hostWriteLine_mem _ _ _).serve]

end Sys2Proof.Machine
end

