-- ==== Sys2Proof/Laws/Intake.lean ====
section
/-!
SUPPORT. Intake: what a queue entry, a page allocation and an accepted command do, and what a write to a command port comes to when the
command is decided at once.
-/
namespace Sys2Proof.Machine

/-! ### Pages -/

theorem State.allocPage_spec (s : State) (h : Nat) :
    (s.allocPage h).1 = { s with store := { s.store with refs := (s.allocPage h).1.store.refs, turn := (s.allocPage h).1.store.turn } } := by
  unfold State.allocPage
  dsimp only
  repeat' split
  all_goals rfl

/-- An allocation takes that many pages and moves only reference counts and the hub's turn. -/
theorem State.allocPages_spec {s : State} {h n : Nat} {r : State × List Nat} (e : s.allocPages h n = some r) :
    r.2.length = n ∧ r.1 = { s with store := { s.store with refs := r.1.store.refs, turn := r.1.store.turn } } := by
  unfold State.allocPages at e
  induction n generalizing r with
  | zero => obtain rfl := Option.some.inj e; exact ⟨rfl, rfl⟩
  | succ n ih =>
    rw [List.range_succ, List.foldl_append, List.foldl_cons, List.foldl_nil] at e
    obtain ⟨a, ha, hr⟩ := Option.bind_eq_some_iff.mp e
    obtain ⟨h1, h2⟩ := ih ha
    have h3 := a.1.allocPage_spec h
    rcases hp : a.1.allocPage h with ⟨t, o⟩
    rw [hp] at hr h3
    cases o with
    | none => cases hr
    | some p =>
      obtain rfl := Option.some.inj hr
      refine ⟨by simp [h1], ?_⟩
      dsimp only at h3 ⊢
      rw [h3, h2]

/-! ### Queues -/

theorem State.sess_renewKey (s : State) (k y : Nat) : (s.renewKey k).sess y = s.sess y := rfl

/-- The head of a queue takes its turn, and nothing else moves (R345). -/
theorem State.startHead_sess (s : State) (x y : Nat) :
    ∃ u r, (s.startHead x).sess y = if y = x then { s.sess x with turn := u, readySince := r } else s.sess y := by
  have keep (t : State) (h : t = s) : ∃ u r, t.sess y = if y = x then { s.sess x with turn := u, readySince := r } else s.sess y :=
    ⟨(s.sess x).turn, (s.sess x).readySince, by subst h; split <;> simp_all⟩
  unfold State.startHead
  dsimp only
  split
  · split
    · exact keep _ rfl
    split
    · exact ⟨_, _, State.sess_modSess _ _ _ _⟩
    · exact keep _ rfl
  · exact keep _ rfl

theorem State.startHead_turn (s : State) (x : Nat) (u : Turn) (h : (s.sess x).turn = some u) : s.startHead x = s := by
  unfold State.startHead
  dsimp only
  rw [h]

theorem State.startHead_serve (s : State) (x : Nat) :
    (s.startHead x).serve = { s.serve with sessions := (s.startHead x).serve.sessions } := by
  unfold State.startHead
  dsimp only
  repeat' split
  all_goals rfl

theorem State.startHead_rest (s : State) (x : Nat) : s.startHead x = { s with serve := (s.startHead x).serve } := by
  unfold State.startHead
  dsimp only
  repeat' split
  all_goals rfl

/-- A command joins the end of its session's queue; only its turn may begin at once. -/
theorem State.enqueue_sess (s : State) (x y : Nat) (q : Queued) :
    ∃ u r, (s.enqueue x q).sess y =
      if y = x then { s.sess x with queue := (s.sess x).queue ++ [q], changed := true, turn := u, readySince := r } else s.sess y := by
  obtain ⟨u, r, h⟩ := State.startHead_sess (s.modSess x fun y => { y with queue := y.queue ++ [q], changed := true }) x y
  refine ⟨u, r, h.trans ?_⟩
  simp only [State.sess_modSess]
  split <;> simp

theorem State.enqueue_serve (s : State) (x : Nat) (q : Queued) :
    (s.enqueue x q).serve = { s.serve with sessions := (s.enqueue x q).serve.sessions } :=
  (State.startHead_serve _ x).trans rfl

theorem State.enqueue_rest (s : State) (x : Nat) (q : Queued) : s.enqueue x q = { s with serve := (s.enqueue x q).serve } :=
  (State.startHead_rest _ x).trans rfl

/-- A turn that has begun stays as it is. -/
theorem State.enqueue_turn (s : State) (x : Nat) (q : Queued) (u : Turn) (h : (s.sess x).turn = some u) :
    ((s.enqueue x q).sess x).turn = some u := by
  unfold State.enqueue
  rw [State.startHead_turn _ _ u] <;> simp [h]

theorem State.repin_serve (s : State) (x : Nat) (p : Option IngotRec) :
    (s.repin x p).serve = { s.serve with sessions := (s.repin x p).serve.sessions } := by
  cases p <;> rfl

theorem State.repin_sess (s : State) (x y : Nat) (p : Option IngotRec) :
    (s.repin x p).sess y = if y = x then
      { s.sess x with
        generation := (p.map (·.generation)).getD (s.sess x).generation, kvTag := (p.map (·.kvTag)).getD (s.sess x).kvTag }
      else s.sess y := by
  cases p with
  | none => simp [State.repin]; intro h; rw [h]
  | some r => simp [State.repin, State.sess_modSess]

/-- The effects of acceptance leave windows and mark cells alone. -/
theorem State.accept_serve (s : State) (w : Nat) (h : CmdHead) (b : Body) (p : Option IngotRec) (c : Contents) :
    (s.accept w h b p c).serve =
      { s.serve with sessions := (s.accept w h b p c).serve.sessions, adapterCmds := (s.accept w h b p c).serve.adapterCmds } := by
  cases b with
  | openS b =>
    unfold State.accept
    dsimp only
    split
    · rfl
    · rename_i a ha
      rw [State.enqueue_serve]
      have e := (State.allocPages_spec ha).2
      simp only [State.renewKey, State.setSess]
      rw [e]
  | prompt b => unfold State.accept; dsimp only; rw [State.enqueue_serve, State.repin_serve]
  | generate b => unfold State.accept; dsimp only; rw [State.enqueue_serve, State.repin_serve]
  | draft b => unfold State.accept; dsimp only; rw [State.enqueue_serve, State.repin_serve]
  | stop x => unfold State.accept; dsimp only; rw [State.enqueue_serve]
  | cancel x => unfold State.accept; dsimp only; rw [State.enqueue_serve]; rfl
  | close x => unfold State.accept; dsimp only; rw [State.enqueue_serve]; rfl
  | adapterLoad b => rfl
  | adapterDrop b => rfl
  | ingotStage b => rfl
  | genSwitch g => rfl
  | migrateOut b =>
    unfold State.accept
    dsimp only
    rw [State.enqueue_serve]
    simp only [State.modSess, State.setSess]
    rw [State.repin_serve]
  | migrateIn b =>
    unfold State.accept
    dsimp only
    split
    · rfl
    · rename_i a ha
      rw [State.enqueue_serve]
      have e := (State.allocPages_spec ha).2
      simp only [State.renewKey, State.setSess]
      rw [e]
  | temper b =>
    unfold State.accept State.takeSlots
    dsimp only
    rw [State.enqueue_serve]
    simp only [State.renewKey, State.setSess]
    split
    · rename_i a ha
      have e := (State.allocPages_spec ha).2
      rw [e]
    · rfl
  | unknown o => rfl

theorem State.accept_win (s : State) (w : Nat) (h : CmdHead) (b : Body) (p : Option IngotRec) (c : Contents) (k : Nat) :
    (s.accept w h b p c).win k = s.win k := by
  rw [State.win, State.accept_serve]
  rfl

/-! ### A command that is decided at once -/

theorem State.arrived_win (s : State) (w : Nat) (h : CmdHead) (b : Body) (k : Nat) (e : (s.win w).queue = []) :
    (s.arrived w h b).win k = s.win k := by
  unfold State.arrived
  rw [State.win_modWin, State.win_modWin, State.win_modWin]
  split
  · subst_vars
    simp only [↓reduceIte]
    rw [← e]
  · rfl

/-- The state in which an accepted command takes effect: its number is consumed, it is journalled, its ACCEPT record is written. -/
def State.journalled (s : State) (w : Nat) (h : CmdHead) (b : Body) (pin : Option IngotRec) : State :=
  let s1 := ((s.arrived w h b).check w h b).1.consume w
  let s2 := (s1.modWin w fun y => { y with
    accepted := some h.seq, awaiting := y.awaiting + 1, journal := s1.putJournal w (· ++ [(h.seq, b, 0)]) y.journal }).clearMarks (w / 4)
  s2.decision w h 0x01 0 [(32, 2, (bodyContext b).getD 0xFFFF), (36, 4, (s.arrived w h b).pinnedTo b pin)]

/-- Which copies of a journal are written depends on nothing but which stacks are in service (R344). -/
theorem State.putJournal_of_out {s t : State} (h : ∀ k, (t.stack k).out = (s.stack k).out) (w : Nat)
    (f : List (Nat × Body × Nat) → List (Nat × Body × Nat)) (j : Journal) : t.putJournal w f j = s.putJournal w f j := by
  unfold State.putJournal
  rw [h, h]

theorem State.win_clearMarks (s : State) (n k : Nat) : (s.clearMarks n).win k = s.win k := rfl

/-- The window of a journalled command (R331, R342). -/
theorem State.journalled_win (s : State) (w : Nat) (h : CmdHead) (b : Body) (pin : Option IngotRec) (k : Nat)
    (e : (s.win w).queue = []) (hn : h.seq = (s.win w).nextSeq) :
    (s.journalled w h b pin).win k = if k = w then
      ({ s.win w with
        decided := true, spent := decide (2 ^ 64 - 1 ≤ h.seq), nextSeq := min (h.seq + 1) (2 ^ 64 - 1), accepted := some h.seq,
        awaiting := (s.win w).awaiting + 1, journal := s.putJournal w (· ++ [(h.seq, b, 0)]) (s.win w).journal } : Window).setRing 0
          { (s.win w).ring 0 with produced := ((s.win w).ring 0).produced + 1 }
      else s.win k := by
  have hc (j : Nat) : (((s.arrived w h b).check w h b).1).win j = s.win j := by
    rw [State.win, (State.check_mem _ _ _ _).serve]
    exact State.arrived_win s w h b j e
  have hj (g : Window → Window) (f : List (Nat × Body × Nat) → List (Nat × Body × Nat)) (j : Journal) :
      ((((s.arrived w h b).check w h b).1).modWin w g).putJournal w f j = s.putJournal w f j :=
    State.putJournal_of_out (s := s) (fun k => (State.check_mem (s.arrived w h b) w h b).out k) w f j
  unfold State.journalled State.decision State.consume
  dsimp only
  rw [State.writeRecord_win]
  simp only [State.win_clearMarks, State.win_modWin, hc, hn, hj, ↓reduceIte]
  split <;> rfl

theorem State.respFree_of_win {s t : State} {w : Nat} (h : t.win w = s.win w) : t.respFree w = s.respFree w := by
  unfold State.respFree
  rw [h]

/-- Once nothing waits and nothing is held, intake is idle. -/
theorem State.decideAll_idle (s : State) (w n : Nat) (hq : (s.win w).queue = []) (hh : (s.win w).heldOutcomes = []) :
    s.decideAll w n = s := by
  cases n with
  | zero => rfl
  | succ n =>
    unfold State.decideAll
    simp only [hh, List.length_nil, State.flushResp, hq]
    split <;> rfl

/-- A write that intake decides at once comes to its decision on the command (R328, R330). -/
theorem State.submit_open {s : State} {w : Nat} (h : CmdHead) (b : Body) (o : s.intakeOpen w)
    (hq : (((s.arrived w h b).decideOne w h b).win w).queue = []) (hh : (((s.arrived w h b).decideOne w h b).win w).heldOutcomes = []) :
    s.submit w h b = (s.arrived w h b).decideOne w h b := by
  obtain ⟨⟨h1, h2, h3, h4⟩, h5, h6, h7, h8⟩ := o
  have hw : (s.modWin w fun x => { x with queue := x.queue ++ [(h, b)] }).win w = { s.win w with queue := [(h, b)] } := by
    rw [State.win_modWin, if_pos rfl, h6]
    rfl
  have hf : (s.modWin w fun x => { x with queue := x.queue ++ [(h, b)] }).respFree w = true := by
    unfold State.respFree at h8 ⊢
    rw [hw]
    exact h8
  have hs : s.submit w h b = (s.modWin w fun x => { x with queue := x.queue ++ [(h, b)] }).pump w := by
    unfold State.submit
    rw [if_neg h2, h1]
    simp only [h3, h4, h5, h6, Option.isSome_none, Bool.false_eq_true, or_self, ↓reduceIte, List.length_nil]
    rfl
  rw [hs, State.pump, hw]
  show State.decideAll _ w 2 = _
  unfold State.decideAll
  simp only [hw, h7, List.length_nil, State.flushResp, List.isEmpty_nil, hf, and_self, ↓reduceIte]
  exact State.decideAll_idle _ _ _ hq hh

/-- A command that passes each check of R340 passes them all. -/
theorem State.passes_check {s : State} {w : Nat} {h : CmdHead} {b : Body} {pin : Option IngotRec} {cont : Contents}
    (a : s.passes w h b pin cont) : (s.check w h b).2 = .ok (pin, cont) := by
  obtain ⟨h1, h2, h3, h4, h5, h6, h7, h8, h9, h10, h11⟩ := a
  have h4' : ((bodySpans b).any fun e => s.checkRange e.1 e.2 == some .length) = false := by simpa using h4
  simp [State.check, h1, h2, h3, h4', h5, h6, h7, h8, h9, h10, h11]

/-- An accepted command takes effect where it has been journalled (R342). -/
theorem State.submit_accepts {s : State} {w : Nat} {h : CmdHead} {b : Body} {pin : Option IngotRec} {cont : Contents}
    (a : s.accepts w h b pin cont) : s.submit w h b = (s.journalled w h b pin).accept w h b pin cont := by
  obtain ⟨o, hn, hc⟩ := a
  have e : (s.arrived w h b).decideOne w h b = (s.journalled w h b pin).accept w h b pin cont := by
    unfold State.decideOne
    dsimp only
    rw [State.arrived_win s w h b w o.2.2.1, o.2.1, ← hn, State.passes_check hc, if_neg (by simp), if_neg (lt_irrefl _)]
    unfold State.journalled
    rfl
  have hw := State.journalled_win s w h b pin w o.2.2.1 hn
  rw [if_pos rfl] at hw
  rw [State.submit_open h b o, e]
  · rw [e, State.accept_win, hw]
    exact o.2.2.1
  · rw [e, State.accept_win, hw]
    exact o.2.2.2.1

/-! ### What else records move -/

/-- From `s` to `t` memory, registers, windows and mark cells may have moved, but no context, no setting and no page of a pool. -/
structure RecordStep (s t : State) : Prop where
  mem : MemStep { s with serve := t.serve } t
  serve : t.serve = { s.serve with windows := t.serve.windows, marks := t.serve.marks }

theorem RecordStep.of_mem {s t : State} (h : MemStep s t) : RecordStep s t where
  mem := by rw [h.serve]; exact h
  serve := by rw [h.serve]

theorem MemStep.with_serve {s t : State} (v : Serving) (h : MemStep s t) : MemStep { s with serve := v } { t with serve := v } :=
  ⟨h.pending, h.clock, h.pkg, h.dies, h.crofts, rfl, h.store, h.tally, h.sense, h.lock, h.links, h.out, h.unclean, h.staging, h.withheld⟩

theorem RecordStep.trans {s t u : State} (a : RecordStep s t) (b : RecordStep t u) : RecordStep s u where
  mem := (a.mem.with_serve u.serve).trans b.mem
  serve := by rw [b.serve, a.serve]

theorem RecordStep.setWin (s : State) (w : Nat) (x : Window) : RecordStep s (s.setWin w x) := ⟨.refl _, rfl⟩
theorem RecordStep.modWin (s : State) (w : Nat) (f : Window → Window) : RecordStep s (s.modWin w f) := ⟨.refl _, rfl⟩
theorem RecordStep.clearMarks (s : State) (n : Nat) : RecordStep s (s.clearMarks n) := ⟨.refl _, rfl⟩

theorem RecordStep.writeRecord (s : State) (w n : Nat) (r : Record) : RecordStep s (s.writeRecord w n r) := by
  unfold State.writeRecord
  dsimp only
  have h (t : State) : RecordStep t (match kindCounter r.kind with
      | some o => t.bump (.intake w) o 1
      | none => t) := by
    split
    · exact .of_mem (State.bump_mem _ _ _ _)
    · exact .of_mem (.refl _)
  exact (((RecordStep.of_mem (s.hostWriteLine_mem _ _)).trans (.modWin _ _ _)).trans (h _)).trans (.of_mem (State.raiseIntr_mem _ _))

/-- What precedes the effects of an accepted command moves memory, windows and mark cells alone. -/
theorem State.journalled_step (s : State) (w : Nat) (h : CmdHead) (b : Body) (pin : Option IngotRec) :
    RecordStep s (s.journalled w h b pin) := by
  have h1 : RecordStep s (s.arrived w h b) := (RecordStep.modWin _ _ _).trans (.modWin _ _ _)
  unfold State.journalled State.decision State.consume
  dsimp only
  refine RecordStep.trans ?_ (RecordStep.writeRecord _ _ _ _)
  refine RecordStep.trans ?_ (RecordStep.clearMarks _ _)
  refine RecordStep.trans ?_ (RecordStep.modWin _ _ _)
  refine RecordStep.trans ?_ (RecordStep.modWin _ _ _)
  exact h1.trans (.of_mem (State.check_mem _ _ _ _))

theorem RecordStep.sess {s t : State} (h : RecordStep s t) (x : Nat) : t.sess x = s.sess x := by
  rw [State.sess, h.serve]
  rfl

theorem RecordStep.poolFree {s t : State} (h : RecordStep s t) (n : Nat) : t.poolFree n = s.poolFree n := by
  have e (k : Nat) : t.freeIn k = s.freeIn k := by
    have h1 := h.mem.out k
    have h2 := h.mem.unclean k
    have h3 := h.mem.staging k
    have h4 := h.mem.withheld k
    unfold State.freeIn State.takenIn State.partPages
    dsimp only
    rw [h1, h2, h3, h4, h.mem.store, h.mem.pkg]
    rfl
  unfold State.poolFree
  rw [e, e]

end Sys2Proof.Machine
end

