-- ==== Sys2Proof/Laws/Pool.lean ====
section
/-!
SUPPORT. The page pool: a hub whose pool counts enough free pages can allocate them (R287, R340, R463).
-/
namespace Sys2Proof.Machine

theorem mem_insertInterval (x e : Nat × Nat) (l : List (Nat × Nat)) : e ∈ insertInterval x l ↔ e = x ∨ e ∈ l := by
  induction l with
  | nil => simp [insertInterval]
  | cons y l ih =>
    unfold insertInterval
    split
    · simp
    · simp only [List.mem_cons, ih]
      tauto

theorem mem_sortIntervals (e : Nat × Nat) (l : List (Nat × Nat)) : e ∈ sortIntervals l ↔ e ∈ l := by
  induction l with
  | nil => simp [sortIntervals]
  | cons y l ih => simp [sortIntervals, mem_insertInterval, ih]

theorem sorted_insertInterval (x : Nat × Nat) (l : List (Nat × Nat)) (h : l.Pairwise fun a b => a.1 ≤ b.1) :
    (insertInterval x l).Pairwise fun a b => a.1 ≤ b.1 := by
  induction l with
  | nil => simp [insertInterval]
  | cons y l ih =>
    obtain ⟨h1, h2⟩ := List.pairwise_cons.mp h
    unfold insertInterval
    split
    · rename_i hx
      refine List.pairwise_cons.mpr ⟨fun z hz => ?_, h⟩
      rcases List.mem_cons.mp hz with rfl | hz
      · exact hx
      · exact le_trans hx (h1 z hz)
    · rename_i hx
      refine List.pairwise_cons.mpr ⟨fun z hz => ?_, ih h2⟩
      rcases (mem_insertInterval _ _ _).mp hz with rfl | hz
      · omega
      · exact h1 z hz

theorem sorted_sortIntervals (l : List (Nat × Nat)) : (sortIntervals l).Pairwise fun a b => a.1 ≤ b.1 := by
  induction l with
  | nil => exact .nil
  | cons y l ih => exact sorted_insertInterval y _ ih

/-- Numbers from `lo` to below `hi` that some interval covers. -/
def coveredSet (lo hi : Nat) (l : List (Nat × Nat)) : Finset Nat := (Finset.Ico lo hi).filter fun x => inIntervals l x = true

/-- Coverage counts the numbers that the intervals cover. -/
theorem coverage_card (l : List (Nat × Nat)) (lo hi : Nat) (h : l.Pairwise fun a b => a.1 ≤ b.1) :
    coverage lo hi l = (coveredSet lo hi l).card := by
  induction l generalizing lo with
  | nil => simp [coverage, coveredSet, inIntervals]
  | cons y l ih =>
    obtain ⟨a, b⟩ := y
    obtain ⟨h1, h2⟩ := List.pairwise_cons.mp h
    unfold coverage
    dsimp only
    have hcons (x : Nat) : inIntervals ((a, b) :: l) x = true ↔ (a ≤ x ∧ x ≤ b) ∨ inIntervals l x = true := by
      simp [inIntervals]
    split
    · rename_i hlt
      rw [ih _ h2]
      have hd : coveredSet lo hi ((a, b) :: l) = Finset.Ico (max lo a) (min hi (b + 1)) ∪ coveredSet (min hi (b + 1)) hi l := by
        ext x
        simp only [coveredSet, Finset.mem_filter, Finset.mem_Ico, Finset.mem_union, hcons]
        constructor
        · rintro ⟨⟨hx1, hx2⟩, ⟨hx3, hx4⟩ | hx⟩
          · left; omega
          · by_cases hb : x ≤ b
            · left
              simp only [inIntervals, List.any_eq_true, Bool.and_eq_true, decide_eq_true_eq] at hx
              obtain ⟨e, he, hx3, hx4⟩ := hx
              have := h1 e he
              dsimp only at this
              omega
            · right; refine ⟨⟨by omega, hx2⟩, hx⟩
        · rintro (hx | ⟨hx, hy⟩)
          · refine ⟨by omega, .inl (by omega)⟩
          · refine ⟨by omega, .inr hy⟩
      rw [hd, Finset.card_union_of_disjoint]
      · simp
      · rw [Finset.disjoint_left]
        intro x hx hy
        simp only [coveredSet, Finset.mem_filter, Finset.mem_Ico] at hx hy
        omega
    · rename_i hlt
      rw [ih _ h2]
      congr 1
      ext x
      simp only [coveredSet, Finset.mem_filter, Finset.mem_Ico, hcons]
      constructor
      · rintro ⟨hx, hy⟩; exact ⟨hx, .inr hy⟩
      · rintro ⟨hx, hy | hy⟩
        · omega
        · exact ⟨hx, hy⟩

/-- The first gap is the lowest number at or above the start that no interval covers. -/
theorem firstGap_spec (l : List (Nat × Nat)) (p : Nat) (h : l.Pairwise fun a b => a.1 ≤ b.1) :
    p ≤ firstGap p l ∧ inIntervals l (firstGap p l) = false ∧ ∀ x, p ≤ x → x < firstGap p l → inIntervals l x = true := by
  induction l generalizing p with
  | nil => exact ⟨le_refl _, rfl, fun x h1 h2 => absurd h2 (by unfold firstGap; omega)⟩
  | cons y l ih =>
    obtain ⟨a, b⟩ := y
    obtain ⟨h1, h2⟩ := List.pairwise_cons.mp h
    unfold firstGap
    split
    · rename_i hp
      refine ⟨le_refl _, ?_, fun x h1 h2 => by omega⟩
      simp only [inIntervals, List.any_cons, List.any_eq_false, Bool.or_eq_false_iff, Bool.and_eq_false_iff, decide_eq_false_iff_not,
        Bool.and_eq_true, decide_eq_true_eq, not_and]
      refine ⟨.inl (by omega), fun e he h3 => ?_⟩
      have := h1 e he
      dsimp only at this
      omega
    · rename_i hp
      obtain ⟨i1, i2, i3⟩ := ih (max p (b + 1)) h2
      refine ⟨by omega, ?_, fun x h3 h4 => ?_⟩
      · simp only [inIntervals, List.any_cons, Bool.or_eq_false_iff, Bool.and_eq_false_iff, decide_eq_false_iff_not]
        exact ⟨.inr (by omega), i2⟩
      · simp only [inIntervals, List.any_cons, Bool.or_eq_true, Bool.and_eq_true, decide_eq_true_eq]
        by_cases hb : x ≤ b
        · exact .inl (by omega)
        · exact .inr (i3 x (by omega) h4)

theorem inIntervals_sort (l : List (Nat × Nat)) (x : Nat) : inIntervals (sortIntervals l) x = inIntervals l x := by
  rw [Bool.eq_iff_iff]
  simp only [inIntervals, List.any_eq_true, mem_sortIntervals]

/-- Free pages of a stack's pool. -/
def State.freeNumbers (s : State) (k : Nat) : Finset Nat :=
  if (s.stack k).out then ∅ else (Finset.Ico s.partPages Config.poolEnd).filter fun p => inIntervals (s.takenIn k) p = false

theorem State.freeIn_card (s : State) (k : Nat) : s.freeIn k = (s.freeNumbers k).card := by
  unfold State.freeIn State.freeNumbers
  split
  · simp
  · rw [coverage_card _ _ _ (sorted_sortIntervals _)]
    have h := Finset.card_filter_add_card_filter_not (s := Finset.Ico s.partPages Config.poolEnd) fun p => inIntervals (s.takenIn k) p = true
    simp only [Nat.card_Ico] at h
    have e : coveredSet s.partPages Config.poolEnd (sortIntervals (s.takenIn k)) =
        (Finset.Ico s.partPages Config.poolEnd).filter fun p => inIntervals (s.takenIn k) p = true := by
      unfold coveredSet
      simp only [inIntervals_sort]
    rw [e]
    simp only [Bool.not_eq_true] at h
    omega

/-- The page that a stack gives is one of its free pages, and it gives one whenever there is one. -/
theorem State.pageIn_spec (s : State) (k : Nat) :
    match s.pageIn k with
    | some p => ∃ q ∈ s.freeNumbers k, p = k * Config.stackPages + q
    | none => s.freeNumbers k = ∅ := by
  obtain ⟨h1, h2, h3⟩ := firstGap_spec (sortIntervals (s.takenIn k)) s.partPages (sorted_sortIntervals _)
  unfold State.pageIn State.freeNumbers
  cases ho : (s.stack k).out
  · simp only [Bool.false_eq_true, ↓reduceIte]
    split
    · rename_i hp
      split at hp
      · rename_i hlt
        obtain rfl := Option.some.inj hp
        refine ⟨_, ?_, rfl⟩
        rw [inIntervals_sort] at h2
        simp [h1, hlt, h2]
      · cases hp
    · rename_i hp
      split at hp
      · cases hp
      · rename_i hlt
        ext x
        simp only [Finset.mem_filter, Finset.mem_Ico, Finset.notMem_empty, iff_false, not_and, Bool.not_eq_false]
        rintro ⟨h4, h5⟩
        rw [← inIntervals_sort]
        exact h3 x h4 (by omega)
  · simp

theorem mem_tdrop_keys {α : Type} (m : Table α) (k j : Nat) : j ∈ (tdrop m k).map (·.1) ↔ j ≠ k ∧ j ∈ m.map (·.1) := by
  simp only [tdrop, List.mem_map, List.mem_filter, bne_iff_ne, ne_eq]
  constructor
  · rintro ⟨e, ⟨h1, h2⟩, rfl⟩
    exact ⟨h2, e, h1, rfl⟩
  · rintro ⟨h1, e, h2, rfl⟩
    exact ⟨e, ⟨h2, h1⟩, rfl⟩

theorem mem_tset_keys {α : Type} (m : Table α) (k j : Nat) (v : α) : j ∈ (tset m k v).map (·.1) ↔ j = k ∨ j ∈ m.map (·.1) := by
  unfold tset
  have h : j ∈ (tinsert (tdrop m k) k v).map (·.1) ↔ j = k ∨ j ∈ (tdrop m k).map (·.1) := by
    simp only [List.mem_map, mem_tinsert]
    constructor
    · rintro ⟨e, rfl | h, rfl⟩
      · exact .inl rfl
      · exact .inr ⟨e, h, rfl⟩
    · rintro (rfl | ⟨e, h, rfl⟩)
      · exact ⟨_, .inl rfl, rfl⟩
      · exact ⟨e, .inr h, rfl⟩
  rw [h, mem_tdrop_keys]
  by_cases hj : j = k <;> simp [hj]

theorem inIntervals_append (a b : List (Nat × Nat)) (x : Nat) : inIntervals (a ++ b) x = (inIntervals a x || inIntervals b x) := by
  simp [inIntervals]

/-- A page of stack `k` that holds a reference. -/
theorem inIntervals_refs (r : Table Nat) (k x : Nat) :
    inIntervals (((r.map (·.1)).filter fun p => stackOfPage p == k).map fun p => (localPage p, localPage p)) x = true ↔
      ∃ p ∈ r.map (·.1), stackOfPage p = k ∧ localPage p = x := by
  simp only [inIntervals, List.any_eq_true, Bool.and_eq_true, decide_eq_true_eq, List.mem_map, List.mem_filter, beq_iff_eq]
  constructor
  · rintro ⟨_, ⟨p, ⟨h1, h2⟩, rfl⟩, h3, h4⟩
    exact ⟨p, h1, h2, by dsimp only at h3 h4; omega⟩
  · rintro ⟨p, h1, h2, rfl⟩
    exact ⟨_, ⟨p, ⟨h1, h2⟩, rfl⟩, le_refl _, le_refl _⟩

/-- An allocation takes one free page of one of the hub's two stacks, and fails only when both are out of pages. -/
theorem State.allocPage_free (s : State) (h : Nat) :
    match s.allocPage h with
    | (t, some _) => t.poolFree h + 1 = s.poolFree h
    | (_, none) => s.poolFree h = 0 := by
  have key (k p : Nat) (hk : s.pageIn k = some p) (turn : Table Nat) (j : Nat) :
      ({ s with store := { s.store with refs := tset s.store.refs p 1, turn := turn } } : State).freeIn j =
        if j = k then s.freeIn k - 1 else s.freeIn j := by
    have hp := s.pageIn_spec k
    rw [hk] at hp
    obtain ⟨q, hq, rfl⟩ := hp
    have hq2 : q < Config.stackPages := by
      unfold State.freeNumbers at hq
      split at hq
      · simp at hq
      · simp only [Finset.mem_filter, Finset.mem_Ico] at hq
        exact lt_trans hq.1.2 (by decide)
    have e1 : stackOfPage (k * Config.stackPages + q) = k := by
      unfold stackOfPage
      rw [Nat.mul_comm, Nat.mul_add_div (by decide), Nat.div_eq_of_lt hq2]
      rfl
    have e2 : localPage (k * Config.stackPages + q) = q := by
      unfold localPage
      rw [Nat.mul_comm, Nat.mul_add_mod, Nat.mod_eq_of_lt hq2]
    have e3 (x : Nat) : inIntervals (State.takenIn { s with store := { s.store with
          refs := tset s.store.refs (k * Config.stackPages + q) 1, turn := turn } } j) x =
        (inIntervals (s.takenIn j) x || (decide (j = k) && decide (x = q))) := by
      rw [Bool.eq_iff_iff]
      unfold State.takenIn
      dsimp only
      simp only [inIntervals_append, Bool.or_eq_true, inIntervals_refs, mem_tset_keys, Bool.and_eq_true, decide_eq_true_eq]
      constructor
      · rintro (h | ⟨p, rfl | hp, h1, h2⟩)
        · exact .inl (.inl h)
        · exact .inr ⟨h1.symm.trans e1, h2.symm.trans e2⟩
        · exact .inl (.inr ⟨p, hp, h1, h2⟩)
      · rintro ((h | ⟨p, hp, h1, h2⟩) | ⟨rfl, rfl⟩)
        · exact .inl h
        · exact .inr ⟨p, .inr hp, h1, h2⟩
        · exact .inr ⟨_, .inl rfl, e1, e2⟩
    rw [State.freeIn_card]
    have e4 : State.freeNumbers { s with store := { s.store with
        refs := tset s.store.refs (k * Config.stackPages + q) 1, turn := turn } } j =
        if j = k then (s.freeNumbers k).erase q else s.freeNumbers j := by
      unfold State.freeNumbers
      by_cases hj : j = k
      · subst hj
        rw [if_pos rfl]
        have e5 : (({ s with store := { s.store with refs := tset s.store.refs (j * Config.stackPages + q) 1, turn := turn } } : State).stack j).out =
          (s.stack j).out := rfl
        have e6 : State.partPages { s with store := { s.store with refs := tset s.store.refs (j * Config.stackPages + q) 1, turn := turn } } =
          s.partPages := rfl
        rw [e5, e6]
        split
        · simp
        · ext x
          simp only [Finset.mem_filter, e3, decide_true, Bool.true_and, Bool.or_eq_false_iff, decide_eq_false_iff_not, Finset.mem_erase]
          tauto
      · rw [if_neg hj]
        simp only [e3, hj, decide_false, Bool.false_and, Bool.or_false]
        rfl
    rw [e4]
    split
    · rw [Finset.card_erase_of_mem hq, State.freeIn_card]
    · rw [State.freeIn_card]
  have pos (k p : Nat) (hk : s.pageIn k = some p) : 0 < s.freeIn k := by
    have hp := s.pageIn_spec k
    rw [hk] at hp
    obtain ⟨q, hq, -⟩ := hp
    rw [State.freeIn_card]
    exact Finset.card_pos.mpr ⟨q, hq⟩
  have zero (k : Nat) (hk : s.pageIn k = none) : s.freeIn k = 0 := by
    have hp := s.pageIn_spec k
    rw [hk] at hp
    rw [State.freeIn_card, hp]
    rfl
  have hm : tget (fun _ => 0) s.store.turn h % 2 < 2 := Nat.mod_lt _ (by decide)
  unfold State.allocPage
  dsimp only
  generalize tget (fun _ => 0) s.store.turn h % 2 = m at hm
  cases h1 : s.pageIn (2 * h + m) with
  | some p =>
    have k1 := pos _ _ h1
    dsimp only
    unfold State.poolFree
    rw [key _ p h1, key _ p h1]
    clear key pos zero
    obtain rfl | rfl : m = 0 ∨ m = 1 := by omega
    · rw [if_pos (by omega), if_neg (by omega)]
      simp only [Nat.add_zero] at k1 ⊢
      omega
    · rw [if_neg (by omega), if_pos rfl]
      omega
  | none =>
    cases h2 : s.pageIn (2 * h + (1 - m)) with
    | some p =>
      have k1 := pos _ _ h2
      dsimp only
      unfold State.poolFree
      rw [key _ p h2, key _ p h2]
      clear key pos zero
      obtain rfl | rfl : m = 0 ∨ m = 1 := by omega
      · rw [if_neg (by omega), if_pos rfl]
        rw [Nat.sub_zero] at k1 ⊢
        omega
      · rw [if_pos (by omega), if_neg (by omega)]
        simp only [Nat.sub_self, Nat.add_zero] at k1 ⊢
        omega
    | none =>
      have z1 := zero _ h1
      have z2 := zero _ h2
      dsimp only
      unfold State.poolFree
      obtain rfl | rfl : m = 0 ∨ m = 1 := by omega
      · rw [Nat.add_zero] at z1
        rw [Nat.sub_zero] at z2
        omega
      · rw [Nat.sub_self, Nat.add_zero] at z2
        omega

/-- A hub whose pool counts `n` free pages can allocate them (R340). -/
theorem State.allocPages_some (s : State) (h n : Nat) (hn : n ≤ s.poolFree h) : ∃ r, s.allocPages h n = some r := by
  suffices H : ∃ r, s.allocPages h n = some r ∧ r.1.poolFree h + n = s.poolFree h from H.imp fun _ h => h.1
  unfold State.allocPages
  induction n with
  | zero => exact ⟨_, rfl, rfl⟩
  | succ n ih =>
    obtain ⟨a, ha, hf⟩ := ih (by omega)
    rw [List.range_succ, List.foldl_append, List.foldl_cons, List.foldl_nil, ha]
    have h1 := a.1.allocPage_free h
    rcases hp : a.1.allocPage h with ⟨t, o⟩
    rw [hp] at h1
    cases o with
    | none => dsimp only at h1; omega
    | some p =>
      dsimp only at h1
      refine ⟨(t, a.2 ++ [p]), ?_, ?_⟩
      · dsimp only [Option.bind_some]
        rw [hp]
      · dsimp only
        omega

end Sys2Proof.Machine
end

