-- ==== Sys2Proof/Laws/Accept.lean ====
section
/-!
SUPPORT. What the checks of R340 ensure of a command that passes them, and what an accepted command leaves behind.
-/
namespace Sys2Proof.Machine

theorem State.arrived_sess (s : State) (w : Nat) (h : CmdHead) (b : Body) (x : Nat) : (s.arrived w h b).sess x = s.sess x := rfl

/-- What the checks found still holds where the command takes effect. -/
theorem State.accepts_check {s : State} {w : Nat} {h : CmdHead} {b : Body} {pin : Option IngotRec} {cont : Contents}
    (a : s.accepts w h b pin cont) :
    formatOk b = true ∧ (s.arrived w h b).stateOk w b = true ∧ (s.arrived w h b).busyOk w b = true := by
  obtain ⟨-, h1, -, -, -, h2, -, -, -, -, h3⟩ := a.2.2
  exact ⟨h1, h2, h3⟩

/-- The entry of an accepted session command is open to its window. -/
theorem State.accepts_prompt {s : State} {w : Nat} {h : CmdHead} {b : PromptBody} {pin : Option IngotRec} {cont : Contents}
    (a : s.accepts w h (.prompt b) pin cont) : (s.sess b.context).st = .openS := by
  have h2 := (State.accepts_check a).2.1
  simp only [State.stateOk, State.arrived_sess, Bool.and_eq_true] at h2
  exact of_decide_eq_true h2.1

theorem State.accepts_generate {s : State} {w : Nat} {h : CmdHead} {b : GenerateBody} {pin : Option IngotRec} {cont : Contents}
    (a : s.accepts w h (.generate b) pin cont) : (s.sess b.context).st = .openS := by
  have h2 := (State.accepts_check a).2.1
  simp only [State.stateOk, State.arrived_sess, Bool.and_eq_true] at h2
  exact of_decide_eq_true h2.1.1

theorem State.accepts_draft {s : State} {w : Nat} {h : CmdHead} {b : DraftBody} {pin : Option IngotRec} {cont : Contents}
    (a : s.accepts w h (.draft b) pin cont) : (s.sess b.context).st = .openS := by
  have h2 := (State.accepts_check a).2.1
  simp only [State.stateOk, State.arrived_sess, Bool.and_eq_true] at h2
  exact of_decide_eq_true h2.1.1

theorem State.accepts_stop {s : State} {w : Nat} {h : CmdHead} {x : Nat} {pin : Option IngotRec} {cont : Contents}
    (a : s.accepts w h (.stop x) pin cont) : (s.sess x).st = .openS := by
  have h2 := (State.accepts_check a).2.1
  simp only [State.stateOk, State.arrived_sess, Bool.and_eq_true] at h2
  exact of_decide_eq_true h2.1

/-- The pool holds what an OPEN needs, where it takes effect. -/
theorem State.accepts_open {s : State} {w : Nat} {h : CmdHead} {b : OpenBody} {pin : Option IngotRec} {cont : Contents}
    (a : s.accepts w h (.openS b) pin cont) :
    ∃ r, (s.journalled w h (.openS b) pin).allocPages (w / 4) (logPageCount b.capacity + 1) = some r := by
  apply State.allocPages_some
  have h3 := (State.accepts_check a).2.2
  simp only [State.busyOk, Bool.and_eq_true, decide_eq_true_eq] at h3
  rw [(State.journalled_step _ _ _ _ _).poolFree]
  exact h3.2

theorem State.accepts_migrateIn {s : State} {w : Nat} {h : CmdHead} {b : MigrateInBody} {pin : Option IngotRec} {cont : Contents}
    (a : s.accepts w h (.migrateIn b) pin cont) :
    ∃ r, (s.journalled w h (.migrateIn b) pin).allocPages (w / 4) 1 = some r := by
  apply State.allocPages_some
  have h3 := (State.accepts_check a).2.2
  simp only [State.busyOk, Bool.and_eq_true, decide_eq_true_eq] at h3
  rw [(State.journalled_step _ _ _ _ _).poolFree]
  exact h3.2

theorem State.accepts_temper {s : State} {w : Nat} {h : CmdHead} {b : TemperBody} {pin : Option IngotRec} {cont : Contents}
    (a : s.accepts w h (.temper b) pin cont) :
    ∃ r, (s.journalled w h (.temper b) pin).allocPages (w / 4) (2 * s.slotPages b.handle) = some r := by
  apply State.allocPages_some
  have h3 := (State.accepts_check a).2.2
  simp only [State.busyOk, Bool.and_eq_true, decide_eq_true_eq] at h3
  rw [(State.journalled_step _ _ _ _ _).poolFree]
  exact h3.2

/-- What every accepted command does in its window (R331, R342, R348). -/
theorem State.accepts_accepted {s : State} {w : Nat} {h : CmdHead} {b : Body} {pin : Option IngotRec} {cont : Contents}
    (a : s.accepts w h b pin cont) : Accepted s (s.submit w h b) w h b := by
  have hw (k : Nat) := (State.accept_win (s.journalled w h b pin) w h b pin cont k).trans
    (State.journalled_win s w h b pin k a.1.2.2.1 a.2.1)
  have hr (x : Window) (n : Nat) (g : Ring) : (x.setRing 0 g).ring n = if n = 0 then g else x.ring n := by
    simp only [Window.setRing, Window.ring, tget_tput]
  have h0 := hw w
  rw [if_pos rfl] at h0
  rw [State.submit_accepts a]
  refine ⟨?_, ⟨?_, ?_, ?_, ?_, ?_⟩, ?_⟩
  · rw [h0]
    rfl
  · rw [h0, hr, if_pos rfl]
  · rw [h0, hr, if_pos rfl]
  · rw [h0, hr, if_pos rfl]
  · intro n hn
    rw [h0, hr, if_neg hn]
    rfl
  · intro k hk
    rw [hw k, if_neg hk]
  · rw [State.accept_serve]
    have hm (t : State) (n : Nat) (r : Record) : (t.writeRecord w n r).serve.marks = t.serve.marks := by
      unfold State.writeRecord
      dsimp only
      rw [(State.raiseIntr_mem _ _).serve]
      cases kindCounter r.kind <;> simp [(State.hostWriteLine_mem _ _ _).serve]
    unfold State.journalled State.decision
    dsimp only
    rw [hm]
    simp [State.clearMarks]

end Sys2Proof.Machine
end

