-- ==== Sys2Proof/Laws/Words.lean ====
section
/-!
SUPPORT. Fields of a word: reading back a field that was set, and fields that a write does not touch.
-/
namespace Sys2Proof

theorem Word.field_testBit (w : Word) (lo n i : Nat) : (w.field lo n).testBit i = (decide (i < n) && w.toNat.testBit (lo + i)) := by
  simp [Word.field, Nat.testBit_mod_two_pow, Nat.testBit_shiftRight]

theorem Word.toNat_testBit_ge (w : Word) {i : Nat} (h : 64 ≤ i) : w.toNat.testBit i = false :=
  Nat.testBit_lt_two_pow (lt_of_lt_of_le w.isLt (Nat.pow_le_pow_right (by norm_num) h))

theorem Word.setField_testBit (w : Word) (lo n v i : Nat) :
    (w.setField lo n v).toNat.testBit i = (decide (i < 64) && if lo ≤ i ∧ i < lo + n then v.testBit (i - lo) else w.toNat.testBit i) := by
  by_cases hi : i < 64
  · simp only [Word.setField, BitVec.toNat_or, BitVec.toNat_and, BitVec.toNat_not, BitVec.toNat_ofNat, Nat.testBit_or, Nat.testBit_and]
    have hn : (2 ^ 64 - 1 - (2 ^ n - 1) <<< lo % 2 ^ 64).testBit i = !decide (lo ≤ i ∧ i < lo + n) := by
      have hlt : (2 ^ n - 1) <<< lo % 2 ^ 64 < 2 ^ 64 := Nat.mod_lt _ (by positivity)
      rw [show 2 ^ 64 - 1 - (2 ^ n - 1) <<< lo % 2 ^ 64 = 2 ^ 64 - ((2 ^ n - 1) <<< lo % 2 ^ 64 + 1) by omega,
        Nat.testBit_two_pow_sub_succ hlt]
      simp only [hi, decide_true, Bool.true_and, Nat.testBit_mod_two_pow, Nat.testBit_shiftLeft, Nat.testBit_two_pow_sub_one]
      by_cases h1 : lo ≤ i <;> simp [h1]
      constructor <;> omega
    rw [hn]
    simp only [hi, decide_true, Bool.true_and, Nat.testBit_mod_two_pow, Nat.testBit_shiftLeft]
    by_cases h1 : lo ≤ i <;> by_cases h2 : i < lo + n <;> simp [h1, h2]
    · intro h; omega
    · intro h; omega
  · simp [hi, Word.toNat_testBit_ge _ (Nat.le_of_not_lt hi)]

/-- A field that was set reads what was put there, as far as the word reaches. -/
theorem Word.field_setField (w : Word) (lo n v : Nat) (h : lo + n ≤ 64) : (w.setField lo n v).field lo n = v % 2 ^ n := by
  apply Nat.eq_of_testBit_eq
  intro i
  rw [Word.field_testBit, Word.setField_testBit, Nat.testBit_mod_two_pow]
  by_cases hi : i < n
  · simp [hi]
    omega
  · simp [hi]

/-- A field apart from the one that was set reads as before. -/
theorem Word.field_setField_ne (w : Word) (lo n v lo' n' : Nat) (h : lo' + n' ≤ lo ∨ lo + n ≤ lo') (h' : lo' + n' ≤ 64) :
    (w.setField lo n v).field lo' n' = w.field lo' n' := by
  apply Nat.eq_of_testBit_eq
  intro i
  rw [Word.field_testBit, Word.field_testBit, Word.setField_testBit]
  by_cases hi : i < n'
  · have h1 : ¬ (lo ≤ lo' + i ∧ lo' + i < lo + n) := by omega
    simp [hi, h1]
    intro h2
    omega
  · simp [hi]

theorem Word.bit_eq_field (w : Word) (i : Nat) : w.bit i = (w.field i 1).testBit 0 := by
  rw [Word.field_testBit]
  simp [Word.bit]

theorem Word.field_lt (w : Word) (lo n : Nat) : w.field lo n < 2 ^ n := Nat.mod_lt _ (by positivity)

theorem Word.field_mod (w : Word) (lo n : Nat) : w.field lo n % 2 ^ n = w.field lo n := Nat.mod_eq_of_lt (Word.field_lt w lo n)

/-- A field of a word made by `put`. -/
theorem Word.field_put (lo n v : Nat) (h : lo + n ≤ 64) : (Word.put lo n v).field lo n = v % 2 ^ n := by
  apply Nat.eq_of_testBit_eq
  intro i
  rw [Word.field_testBit]
  simp only [Word.put, BitVec.toNat_ofNat, Nat.testBit_mod_two_pow, Nat.testBit_shiftLeft]
  by_cases hi : i < n
  · have : lo + i < 64 := by omega
    simp [hi, this]
  · simp [hi]

end Sys2Proof
end

