-- ==== Sys2Proof/Laws/Access.lean ====
section
/-!
SUPPORT. What the shared operations of register accesses do: raising an interrupt, recording an error, refusing a write, storing a
plain register, and how a steward access reaches the device.
-/
namespace Sys2Proof.Machine

/-- Raising an interrupt moves the steward's queue and, at its end, the count of STEW.INTR_LOST alone (R559). -/
theorem State.raiseIntr_frame (s : State) (id : Nat) :
    ∃ r st, s.raiseIntr id = { s with regs := r, stew := st } ∧ ∀ a, a ≠ 0x4148 → tget regReset r a = s.regAt a := by
  unfold State.raiseIntr
  dsimp only
  split
  · exact ⟨s.regs, s.stew, rfl, fun _ _ => rfl⟩
  · split
    · exact ⟨s.regs, _, rfl, fun _ _ => rfl⟩
    · split
      · exact ⟨s.regs, _, rfl, fun _ _ => rfl⟩
      · exact ⟨_, _, rfl, fun a ha => tget_tput_ne _ _ _ ha⟩

/-- What recording an error does (R547, R548). -/
theorem State.logError_logged (s : State) (p : Page) (c : Code) (addr kind index : Nat) (reg : Bool) (hp : p.base + 0x020 ≠ 0x4148) :
    LoggedIn s (s.logError p c addr kind index reg) p c := by
  have hc : c.num < 2 ^ 8 := by cases c <;> decide
  unfold State.logError
  dsimp only
  split
  · rename_i h0
    generalize hu : ((((s.setReg p 0x020 (errStatus c.num 1)).setReg p 0x028 (BitVec.ofNat 64 addr)).setReg p 0x030
        (errSrc reg kind index)).setReg p 0x050 (BitVec.ofNat 64 (s.pageTime p))) = u
    have h2 : ∀ a, a ∉ errorRegs p → u.regAt a = s.regAt a := by
      intro a ha
      simp only [errorRegs, List.mem_cons, List.not_mem_nil, or_false, not_or] at ha
      simp [← hu, State.regAt_setReg, ha]
    have h3 : u.regAt (p.base + 0x020) = errStatus c.num 1 := by
      simp [← hu, State.regAt_setReg]
    obtain ⟨rg, h1⟩ : ∃ rg, u = { s with regs := rg } := ⟨u.regs, by subst hu; rfl⟩
    clear hu
    subst h1
    have hf : (errStatus c.num 1).field 32 8 = c.num ∧ (errStatus c.num 1).field 0 32 = 1 := by
      constructor <;> (cases c <;> decide)
    split
    · refine ⟨rfl, h2, ?_⟩
      have h5 : ({ s with regs := rg } : State).reg p 0x020 = errStatus c.num 1 := h3
      rw [if_pos h0, h5]
      exact hf
    · obtain ⟨r, st, e, hr⟩ := State.raiseIntr_frame { s with regs := rg } (0x3000 + p.code)
      refine ⟨by rw [e], fun a ha => ?_, ?_⟩
      · rw [e]
        exact (hr a (by simp [errorRegs] at ha; exact ha.2.2.2.2)).trans (h2 a ha)
      · have h4 : ({ s with regs := r, stew := st } : State).reg p 0x020 = errStatus c.num 1 := (hr (p.base + 0x020) hp).trans h3
        rw [if_pos h0, e]
        exact (congrArg (fun w : Word => w.field 32 8 = c.num ∧ w.field 0 32 = 1) h4).mpr hf
  · rename_i h0
    refine ⟨rfl, fun a ha => ?_, ?_⟩
    · simp only [errorRegs, List.mem_cons, List.not_mem_nil, or_false, not_or] at ha
      rw [State.regAt_setReg, if_neg ha.1]
    · rw [if_neg h0, State.reg_setReg_self]
      have h1 := Word.field_lt (s.reg p 0x020) 32 8
      have h2 : ∀ a b : Nat, a < 2 ^ 8 → b < 2 ^ 32 → (errStatus a b).field 32 8 = a ∧ (errStatus a b).field 0 32 = b := by
        intro a b ha hb
        have e : (errStatus a b).toNat = a * 2 ^ 32 + b := by
          have hb' : b < 4294967296 := hb
          have ha' : a < 256 := ha
          simp only [errStatus, Word.put, BitVec.toNat_or, BitVec.toNat_ofNat, Nat.shiftLeft_eq, Nat.mod_eq_of_lt hb, Nat.mod_eq_of_lt ha]
          rw [Nat.mod_eq_of_lt (show a * 2 ^ 32 < 2 ^ 64 by omega), Nat.pow_zero, Nat.mul_one, Nat.mod_eq_of_lt (show b < 2 ^ 64 by omega),
            Nat.mul_comm a, ← Nat.two_pow_add_eq_or_of_lt hb]
        constructor
        · rw [Word.field, e, Nat.shiftRight_eq_div_pow]
          have ha' : a < 256 := ha
          have hb' : b < 4294967296 := hb
          omega
        · rw [Word.field, e]
          have hb' : b < 4294967296 := hb
          simp
          omega
      exact h2 _ _ h1 (by omega)

/-- No page's error status register is the interrupt count (R545). -/
theorem base_ne_lost (p : Page) (h : p.base % 0x1000 = 0) : p.base + 0x020 ≠ 0x4148 := by omega

/-- Every page begins at a multiple of 4 KiB (R36). -/
theorem base_aligned (p : Page) : p.base % 0x1000 = 0 := by
  cases p <;> simp [Page.base, dieBase] <;> (try split) <;> omega

/-- What refusing a write does: the access is logged in its page and its response carries the code (R41, R548). -/
theorem State.refuse_logged (s : State) (p : Page) (off : Nat) (c : Code) :
    LoggedIn s (s.refuse p off c).1 p c ∧ (s.refuse p off c).2 = c.num :=
  ⟨s.logError_logged p c _ _ _ _ (base_ne_lost p (base_aligned p)), rfl⟩

/-- What a plain register write does: its own register takes the written fields, and nothing else moves (R11). -/
theorem State.storeReg_only (s : State) (p : Page) (off : Nat) (v : Word) (fs : List Field) (h : regFields p off = some fs) :
    OnlyRegs s (s.storeReg p off v).1 [p.base + off] ∧ (s.storeReg p off v).1.reg p off = fieldsWrite fs (s.reg p off) v := by
  have e : (s.storeReg p off v).1 = s.setReg p off (fieldsWrite fs (s.reg p off) v) := by
    simp [State.storeReg, ok, State.storeFields, h]
  rw [e]
  refine ⟨⟨rfl, fun a ha => ?_⟩, by simp⟩
  rw [State.regAt_setReg, if_neg (by simpa using ha)]

/-- A steward access where hubs answer takes effect at once (R586). -/
theorem State.access_answers (s : State) (i : Instr) (f : State → State) (h : s.answers = true) : s.access i f = .next (f s) := by
  simp [State.access, h]

/-- A steward access in a warm reset waits in the adapter (R570). -/
theorem State.access_held (s : State) (i : Instr) (f : State → State) (h : s.pkg.phase = .warmReset) :
    s.access i f = .next { s with links := { s.links with heldAccesses := s.links.heldAccesses ++ [i] } } := by
  simp [State.access, State.answers, h, Phase.answers]

end Sys2Proof.Machine
end

