-- ==== Sys2Proof/Laws/Bell.lean ====
section
/-!
SUPPORT. What the actions of a bell leave alone: the settings that take effect before them. One lemma per operation.
-/

set_option linter.unusedTactic false
set_option linter.unreachableTactic false

namespace Sys2Proof.Machine

/-- What a bell brings into force before its actions. -/
def State.beat (s : State) : Clock × (Nat × Option Nat × Option Pack × Option Pack × Bool × Nat × Phase) × (Nat × Nat × Nat) × Option (Nat × Nat × Nat) :=
  (s.clock, (s.pkg.role, s.pkg.rolePending, s.pkg.pack, s.pkg.packPending, s.pkg.packClear, s.pkg.bellNs, s.pkg.phase), s.tally.limits, s.tally.limitsNext)

@[simp] theorem State.beat_mk (a : List Instr) (b : Nat) (c : Clock) (d : Table Word) (e : Package) (f : Table Die) (g : Table Croft)
    (h : Serving) (i : Storage) (j : Stacks) (k : Tally) (l : Table Converter) (m : Links) (n : Lockhouse) (o : Steward) :
    (State.mk a b c d e f g h i j k l m n o).beat = (c, (e.role, e.rolePending, e.pack, e.packPending, e.packClear, e.bellNs, e.phase), k.limits, k.limitsNext) := (fun _ => rfl) ()

@[simp] theorem State.beat_fold (s : State) : (s.clock, (s.pkg.role, s.pkg.rolePending, s.pkg.pack, s.pkg.packPending, s.pkg.packClear, s.pkg.bellNs, s.pkg.phase), s.tally.limits, s.tally.limitsNext) = s.beat := (fun _ => rfl) ()

@[simp] theorem ite_beat {c : Prop} [Decidable c] (a b : State) : (if c then a else b).beat = if c then a.beat else b.beat :=
  apply_ite (fun s : State => s.beat) c a b

@[simp] theorem ite1_beat {c : Prop} [Decidable c] {α : Type} (a b : State × α) :
    (if c then a else b).1.beat = if c then a.1.beat else b.1.beat := apply_ite (fun s : State × α => s.1.beat) c a b

@[simp] theorem foldl_beat {α : Type} (f : State → α → State) (l : List α) (s : State) (h : ∀ t x, (f t x).beat = t.beat) :
    (l.foldl f s).beat = s.beat := by
  induction l generalizing s with
  | nil => rfl
  | cons x l ih => simp [ih, h]

theorem foldl1_beat {α β : Type} (f : State × β → α → State × β) (l : List α) (s : State × β)
    (h : ∀ t x, (f t x).1.beat = t.1.beat) : (l.foldl f s).1.beat = s.1.beat := by
  induction l generalizing s with
  | nil => rfl
  | cons x l ih => simp [ih, h]

theorem foldlO_beat {α β : Type} (f : State × β → α → Option (State × β)) (l : List α) (s : State × β)
    (h : ∀ t x r, f t x = some r → r.1.beat = t.1.beat) {r : State × β}
    (hr : l.foldl (fun (acc : Option (State × β)) x => acc.bind fun a => f a x) (some s) = some r) : r.1.beat = s.1.beat := by
  induction l generalizing s with
  | nil => cases hr; rfl
  | cons x l ih =>
    simp only [List.foldl_cons, Option.bind_some] at hr
    cases hx : f s x with
    | none =>
      rw [hx] at hr
      have hn : ∀ l : List α, l.foldl (fun (acc : Option (State × β)) x => acc.bind fun a => f a x) none = none := fun l => by
        induction l with
        | nil => rfl
        | cons y l ih => simpa using ih
      rw [hn] at hr
      cases hr
    | some u =>
      rw [hx] at hr
      exact (ih u hr).trans (h _ _ _ hx)

@[simp] theorem State.setDie_beat (s : State) (d : ℕ) (x : Die) : (State.setDie s d x).beat = s.beat := by
  simp [State.setDie]

@[simp] theorem State.modDie_beat (s : State) (d : ℕ) (f : Die → Die) : (State.modDie s d f).beat = s.beat := by
  simp [State.modDie]

@[simp] theorem State.setCroft_beat (s : State) (n : ℕ) (x : Croft) : (State.setCroft s n x).beat = s.beat := by
  simp [State.setCroft]

@[simp] theorem State.modCroft_beat (s : State) (n : ℕ) (f : Croft → Croft) : (State.modCroft s n f).beat = s.beat := by
  simp [State.modCroft]

@[simp] theorem State.modMould_beat (s : State) (c : ℕ) (m : ℕ) (f : Mould → Mould) : (State.modMould s c m f).beat = s.beat := by
  simp [State.modMould]

@[simp] theorem State.setWin_beat (s : State) (w : ℕ) (x : Window) : (State.setWin s w x).beat = s.beat := by
  simp [State.setWin]

@[simp] theorem State.modWin_beat (s : State) (w : ℕ) (f : Window → Window) : (State.modWin s w f).beat = s.beat := by
  simp [State.modWin]

@[simp] theorem State.setSess_beat (s : State) (x : ℕ) (v : Session) : (State.setSess s x v).beat = s.beat := by
  simp [State.setSess]

@[simp] theorem State.modSess_beat (s : State) (x : ℕ) (f : Session → Session) : (State.modSess s x f).beat = s.beat := by
  simp [State.modSess]

@[simp] theorem State.modTenant_beat (s : State) (t : ℕ) (f : Tenant → Tenant) : (State.modTenant s t f).beat = s.beat := by
  simp [State.modTenant]

@[simp] theorem State.modHub_beat (s : State) (h : ℕ) (f : HubAttn → HubAttn) : (State.modHub s h f).beat = s.beat := by
  simp [State.modHub]

@[simp] theorem State.modStack_beat (s : State) (k : ℕ) (f : StackSt → StackSt) : (State.modStack s k f).beat = s.beat := by
  simp [State.modStack]

@[simp] theorem State.modPort_beat (s : State) (p : ℕ) (f : Port → Port) : (State.modPort s p f).beat = s.beat := by
  simp [State.modPort]

@[simp] theorem State.tick_beat (s : State) : (State.tick s).beat = s.beat := by
  simp [State.tick]

@[simp] theorem State.modStep_beat (s : State) (id : ℕ) (f : Step → Step) : (State.modStep s id f).beat = s.beat := by
  simp [State.modStep]

@[simp] theorem State.mapSteps_beat (s : State) (f : Step → Step) : (State.mapSteps s f).beat = s.beat := by
  simp [State.mapSteps]

@[simp] theorem State.mapImages_beat (s : State) (f : AdapterRec → AdapterRec) : (State.mapImages s f).beat = s.beat := by
  simp [State.mapImages]

@[simp] theorem State.setReg_beat (s : State) (p : Page) (off : ℕ) (v : Word) : (State.setReg s p off v).beat = s.beat := by
  simp [State.setReg]

@[simp] theorem State.bump_beat (s : State) (p : Page) (off : ℕ) (n : ℕ) : (State.bump s p off n).beat = s.beat := by
  simp [State.bump]

@[simp] theorem State.raiseIntr_beat (s : State) (id : ℕ) : (State.raiseIntr s id).beat = s.beat := by
  simp [State.raiseIntr]

@[simp] theorem State.logError_beat (s : State) (p : Page) (c : Code) (addr : ℕ) (kind : ℕ) (index : ℕ) (reg : optParam Bool false) : (State.logError s p c addr kind index reg).beat = s.beat := by
  simp [State.logError]

@[simp] theorem State.logEvent_beat (s : State) (p : Page) (c : Code) (addr : ℕ) : (State.logEvent s p c addr).beat = s.beat := by
  simp [State.logEvent]

@[simp] theorem State.bumpCroft_beat (s : State) (n off : Nat) (k : Nat := 1) : (State.bumpCroft s n off k).beat = s.beat := by
  unfold State.bumpCroft
  repeat' first | (simp; done) | (intro _) | split | (rw [foldl_beat]) | (dsimp only) | (simp_all; done)

@[simp] theorem State.renewKey_beat (s : State) (key : ℕ) : (State.renewKey s key).beat = s.beat := by
  simp [State.renewKey]

@[simp] theorem State.markUnclean_beat (s : State) (p : ℕ) : (State.markUnclean s p).beat = s.beat := by
  simp [State.markUnclean]

@[simp] theorem State.setLineCode_beat (s : State) (l : ℕ) (c : LineCode) : (State.setLineCode s l c).beat = s.beat := by
  simp [State.setLineCode]

@[simp] theorem State.listRow_beat (s : State) (l : ℕ) : (State.listRow s l).beat = s.beat := by
  simp [State.listRow]

@[simp] theorem State.poisonLine_beat (s : State) (l : ℕ) : (State.poisonLine s l).beat = s.beat := by
  simp [State.poisonLine]

@[simp] theorem State.readLine_beat (s : State) (l : ℕ) (key : ℕ) : (State.readLine s l key).1.beat = s.beat := by
  unfold State.readLine
  repeat' first | (simp; done) | (intro _) | split | (rw [foldl_beat]) | (dsimp only) | (simp_all; done)

@[simp] theorem State.writeLine_beat (s : State) (l : ℕ) (key : ℕ) (bytes : List (BitVec 8)) (poison : Bool) : (State.writeLine s l key bytes poison).beat = s.beat := by
  simp [State.writeLine]

@[simp] theorem State.writePart_beat (s : State) (l : ℕ) (o : ℕ) (key : ℕ) (bytes : List (BitVec 8)) : (State.writePart s l o key bytes).beat = s.beat := by
  unfold State.writePart
  repeat' first | (simp; done) | (intro _) | split | (rw [foldl_beat]) | (dsimp only) | (simp_all; done)

@[simp] theorem State.readBytes_beat (s : State) (a n key : ℕ) : (s.readBytes a n key).1.beat = s.beat := by
  unfold State.readBytes
  exact foldl1_beat _ _ _ (fun t x => by simp)

@[simp] theorem State.writeBytes_beat (s : State) (a : ℕ) (key : ℕ) (bytes : List (BitVec 8)) : (State.writeBytes s a key bytes).beat = s.beat := by
  simp [State.writeBytes]

@[simp] theorem State.readPages_beat (s : State) (pages : List Nat) (key : Nat) : (State.readPages s pages key).1.beat = s.beat :=
  foldl1_beat _ _ _ (fun _ _ => by simp)

@[simp] theorem State.allocPage_beat (s : State) (h : ℕ) : (State.allocPage s h).1.beat = s.beat := by
  unfold State.allocPage
  repeat' first | (simp; done) | (intro _) | split | (rw [foldl_beat]) | (dsimp only) | (simp_all; done)

@[simp] theorem State.addRef_beat (s : State) (p : ℕ) : (State.addRef s p).beat = s.beat := by
  simp [State.addRef]

@[simp] theorem State.dropRef_beat (s : State) (p : ℕ) : (State.dropRef s p).beat = s.beat := by
  simp [State.dropRef]

@[simp] theorem State.dropRefs_beat (s : State) (ps : List ℕ) : (State.dropRefs s ps).beat = s.beat := by
  simp [State.dropRefs]

theorem State.allocPages_beat (s : State) (h n : ℕ) {r} (hr : s.allocPages h n = some r) : r.1.beat = s.beat := by
  refine foldlO_beat _ _ (s, []) (fun t x r hx => ?_) hr
  have h2 := State.allocPage_beat t.1 h
  split at hx <;> simp_all
  rw [← hx]; exact h2

@[simp] theorem State.degrade_beat (s : State) (d : ℕ) : (State.degrade s d).beat = s.beat := by
  simp [State.degrade]

@[simp] theorem State.fenceOnly_beat (s : State) (n : Nat) : (State.fenceOnly s n).beat = s.beat := by
  unfold State.fenceOnly
  repeat' first | (simp; done) | (intro _) | split | (rw [foldl_beat]) | (dsimp only) | (simp_all; done)

@[simp] theorem State.takeCoordinate_beat (s : State) (n col : Nat) : (State.takeCoordinate s n col).beat = s.beat := by
  unfold State.takeCoordinate
  repeat' first | (simp; done) | (intro _) | split | (rw [foldl_beat]) | (dsimp only) | (simp_all; done)

@[simp] theorem State.fence_beat (s : State) (n : ℕ) : (State.fence s n).beat = s.beat := by
  unfold State.fence
  repeat' first | (simp; done) | (intro _) | split | (rw [foldl_beat]) | (dsimp only) | (simp_all; done)

@[simp] theorem State.routerFault_beat (s : State) (n : ℕ) : (State.routerFault s n).beat = s.beat := by
  simp [State.routerFault]

@[simp] theorem State.gatherMark_beat (s : State) (n step : Nat) (c : Cause) : (State.gatherMark s n step c).beat = s.beat := by
  unfold State.gatherMark
  repeat' first | (simp; done) | (intro _) | split | (rw [foldl_beat]) | (dsimp only) | (simp_all; done)

@[simp] theorem State.markSuspect_beat (s : State) (step n : Nat) (m : Option Nat) : (State.markSuspect s step n m).beat = s.beat := by
  unfold State.markSuspect
  repeat' first | (simp; done) | (intro _) | split | (rw [foldl_beat]) | (dsimp only) | (simp_all; done)

@[simp] theorem State.mapReserve_beat (s : State) (n : ℕ) (slot : ℕ) : (State.mapReserve s n slot).beat = s.beat := by
  unfold State.mapReserve
  repeat' first | (simp; done) | (intro _) | split | (rw [foldl_beat]) | (dsimp only) | (simp_all; done)

@[simp] theorem State.holdSlot_beat (s : State) (n : ℕ) (slot : ℕ) : (State.holdSlot s n slot).beat = s.beat := by
  simp [State.holdSlot]

@[simp] theorem State.dropWindow_beat (s : State) (n slot : Nat) : (State.dropWindow s n slot).beat = s.beat := by
  unfold State.dropWindow
  repeat' first | (simp; done) | (intro _) | split | (rw [foldl_beat]) | (dsimp only) | (simp_all; done)

@[simp] theorem State.leaveService_beat (s : State) (n : ℕ) (slot : ℕ) (retired : Bool) : (State.leaveService s n slot retired).beat = s.beat := by
  unfold State.leaveService
  repeat' first | (simp; done) | (intro _) | split | (rw [foldl_beat]) | (dsimp only) | (simp_all; done)

@[simp] theorem State.spendMould_beat (s : State) (n : ℕ) (m : ℕ) (st : MouldState) : (State.spendMould s n m st).beat = s.beat := by
  unfold State.spendMould
  repeat' first | (simp; done) | (intro _) | split | (rw [foldl_beat]) | (dsimp only) | (simp_all; done)

@[simp] theorem State.openCast_beat (s : State) (n : ℕ) (m : ℕ) (gen : ℕ) : (State.openCast s n m gen).beat = s.beat := by
  simp [State.openCast]

@[simp] theorem State.openSpareCast_beat (s : State) (n : ℕ) (m : ℕ) (spares : List ℕ) : (State.openSpareCast s n m spares).beat = s.beat := by
  simp [State.openSpareCast]

@[simp] theorem State.wantSpares_beat (s : State) (n m : Nat) (spares : List Nat) : (State.wantSpares s n m spares).beat = s.beat := by
  unfold State.wantSpares
  repeat' first | (simp; done) | (intro _) | split | (rw [foldl_beat]) | (dsimp only) | (simp_all; done)

@[simp] theorem State.noteCast_beat (s : State) (n m : Nat) : (State.noteCast s n m).beat = s.beat := by
  unfold State.noteCast
  repeat' first | (simp; done) | (intro _) | split | (rw [foldl_beat]) | (dsimp only) | (simp_all; done)

@[simp] theorem State.abandonCast_beat (s : State) (n m : Nat) : (State.abandonCast s n m).beat = s.beat := by
  unfold State.abandonCast
  repeat' first | (simp; done) | (intro _) | split | (rw [foldl_beat]) | (dsimp only) | (simp_all; done)

@[simp] theorem State.stopCasts_beat (s : State) : (State.stopCasts s).beat = s.beat := by
  simp [State.stopCasts]

@[simp] theorem State.send_beat (s : State) (m : OutMsg) : (State.send s m).beat = s.beat := by
  simp [State.send]

@[simp] theorem State.depart_beat (s : State) (m : OutMsg) : (State.depart s m).beat = s.beat := by
  unfold State.depart
  repeat' first | (simp; done) | (intro _) | split | (rw [foldl_beat]) | (dsimp only) | (simp_all; done)

@[simp] theorem State.readRemote_beat (s : State) (package : ℕ) (storeEpoch : ℕ) (page : ℕ) (first : ℕ) (len : ℕ) (dest : ℕ) (context : ℕ) : (State.readRemote s package storeEpoch page first len dest context).beat = s.beat := by
  simp [State.readRemote]

@[simp] theorem State.fetchSlots_beat (s : State) (x package storeEpoch src dest slots : Nat) : (State.fetchSlots s x package storeEpoch src dest slots).beat = s.beat := by
  unfold State.fetchSlots
  repeat' first | (simp; done) | (intro _) | split | (rw [foldl_beat]) | (dsimp only) | (simp_all; done)

@[simp] theorem State.enterPte_beat (s : State) (x i : Nat) (e : Pte) : (State.enterPte s x i e).beat = s.beat := by
  unfold State.enterPte
  repeat' first | (simp; done) | (intro _) | split | (rw [foldl_beat]) | (dsimp only) | (simp_all; done)

@[simp] theorem State.enterTables_beat (s : State) (x : Nat) (l : List (Nat × Nat)) : (State.enterTables s x l).beat = s.beat := by
  unfold State.enterTables
  repeat' first | (simp; done) | (intro _) | split | (rw [foldl_beat]) | (dsimp only) | (simp_all; done)

@[simp] theorem State.newKvPage_beat (s : State) (x layer head : ℕ) : (s.newKvPage x layer head).1.beat = s.beat := by
  unfold State.newKvPage
  have h2 := State.allocPage_beat s (s.ownerHub x)
  dsimp only
  split <;> simp_all

theorem State.reservePages_beat (s : State) (x first n : ℕ) {r} (hr : s.reservePages x first n = some r) : r.1.beat = s.beat := by
  unfold State.reservePages at hr
  dsimp only at hr
  split at hr
  · cases hr
  · rw [Option.bind_eq_some_iff] at hr
    obtain ⟨a, ha, hr⟩ := hr
    have h1 := State.allocPages_beat _ _ _ ha
    refine (foldlO_beat _ _ _ (fun t e r hx => ?_) hr).trans (by simpa using h1)
    have h2 := State.newKvPage_beat t.1 x e.1 e.2.1
    split at hx <;> simp_all
    rw [← hx]; simpa using h2

@[simp] theorem State.freeRolledBack_beat (s : State) (x : Nat) (due : List Nat) : (State.freeRolledBack s x due).beat = s.beat := by
  unfold State.freeRolledBack
  repeat' first | (simp; done) | (intro _) | split | (rw [foldl_beat]) | (dsimp only) | (simp_all; done)

@[simp] theorem State.freeBelowFloor_beat (s : State) (x floor : Nat) : (State.freeBelowFloor s x floor).beat = s.beat := by
  unfold State.freeBelowFloor
  repeat' first | (simp; done) | (intro _) | split | (rw [foldl_beat]) | (dsimp only) | (simp_all; done)

@[simp] theorem State.dropSessionPages_beat (s : State) (x : ℕ) : (State.dropSessionPages s x).beat = s.beat := by
  simp [State.dropSessionPages]

@[simp] theorem State.setNode_beat (s : State) (i : Nat) (n : Node) : (State.setNode s i n).beat = s.beat := by
  unfold State.setNode
  repeat' first | (simp; done) | (intro _) | split | (rw [foldl_beat]) | (dsimp only) | (simp_all; done)

@[simp] theorem State.modNode_beat (s : State) (i : Nat) (f : Node → Node) : (State.modNode s i f).beat = s.beat := by
  unfold State.modNode
  repeat' first | (simp; done) | (intro _) | split | (rw [foldl_beat]) | (dsimp only) | (simp_all; done)

@[simp] theorem State.copyPage_beat (s : State) (src : ℕ) (dst : ℕ) (slots : ℕ) (srcKey : ℕ) (dstKey : ℕ) (kv8 : Bool) : (State.copyPage s src dst slots srcKey dstKey kv8).beat = s.beat := by
  simp [State.copyPage]

@[simp] theorem State.sharePage_beat (s : State) (x layer head p : ℕ) : (s.sharePage x layer head p).1.beat = s.beat := by
  unfold State.sharePage
  have h := State.newKvPage_beat s x layer head
  split
  · simp
  · split <;> simp_all

@[simp] theorem State.dropPrefix_beat (s : State) (i : ℕ) : (State.dropPrefix s i).beat = s.beat := by
  unfold State.dropPrefix
  repeat' first | (simp; done) | (intro _) | split | (rw [foldl_beat]) | (dsimp only) | (simp_all; done)

@[simp] theorem State.linkNode_beat (s : State) (i : Nat) (n : Node) : (State.linkNode s i n).beat = s.beat := by
  unfold State.linkNode
  repeat' first | (simp; done) | (intro _) | split | (rw [foldl_beat]) | (dsimp only) | (simp_all; done)

@[simp] theorem State.unlinkNode_beat (s : State) (i : Nat) (n : Node) : (State.unlinkNode s i n).beat = s.beat := by
  unfold State.unlinkNode
  repeat' first | (simp; done) | (intro _) | split | (rw [foldl_beat]) | (dsimp only) | (simp_all; done)

@[simp] theorem State.evictNode_beat (s : State) (i : ℕ) : (State.evictNode s i).beat = s.beat := by
  unfold State.evictNode
  repeat' first | (simp; done) | (intro _) | split | (rw [foldl_beat]) | (dsimp only) | (simp_all; done)

@[simp] theorem State.evictPoisoned_beat (s : State) (page : Nat) : (State.evictPoisoned s page).beat = s.beat := by
  unfold State.evictPoisoned
  repeat' first | (simp; done) | (intro _) | split | (rw [foldl_beat]) | (dsimp only) | (simp_all; done)

@[simp] theorem State.adoptPrefix_beat (s : State) (x node p : ℕ) : (s.adoptPrefix x node p).beat = s.beat := by
  unfold State.adoptPrefix
  dsimp only
  split
  · rfl
  · rw [State.modSess_beat, foldl_beat _ _ _ (fun t q => by simp), foldl_beat]
    intro u lh
    have share (v : State) (q i : ℕ) : (match v.sharePage x lh.1 lh.2 q with
        | (z, some r) => z.enterPte x i (.page r)
        | (z, none) => z).beat = v.beat := by
      have h := State.sharePage_beat v x lh.1 lh.2 q
      split <;> rename_i hz <;> rw [hz] at h <;> simpa using h
    have whole (f : ℕ → Pte) (g : ℕ → ℕ) (l : List ℕ) : (l.foldl (fun (v : State) e =>
        match f e with
        | .page q => match v.sharePage x lh.1 lh.2 q with
          | (z, some r) => z.enterPte x (g e) (.page r)
          | (z, none) => z
        | .remote k ep q => v.enterPte x (g e) (.remote k ep q)
        | _ => v) u).beat = u.beat := by
      refine foldl_beat _ l u fun v e => ?_
      split
      · exact share v _ _
      · simp
      · rfl
    split
    · exact whole _ _ _
    · split
      · split <;> rename_i hz
        all_goals
          have h := congrArg (fun (r : State × Option ℕ) => r.1.beat) hz
          simp only [State.newKvPage_beat] at h
          try rw [State.enterPte_beat, State.copyPage_beat]
          exact h.symm.trans (whole _ _ _)
      · split <;> rename_i hz
        all_goals
          have h := congrArg (fun (r : State × Option ℕ) => r.1.beat) hz
          simp only [State.newKvPage_beat] at h
          try rw [State.enterPte_beat, State.fetchSlots_beat]
          exact h.symm.trans (whole _ _ _)
      · exact whole _ _ _

@[simp] theorem State.makeRoom_beat (s : State) (n : ℕ) : (State.makeRoom s n).beat = s.beat := by
  unfold State.makeRoom
  repeat' first | (simp; done) | (intro _) | split | (rw [foldl_beat]) | (dsimp only) | (simp_all; done)

theorem foldlI_beat {α β : Type} (s : State) (f : Option (State × β) → α → Option (State × β)) (l : List α) (a : Option (State × β))
    (ha : ∀ r, a = some r → r.1.beat = s.beat)
    (h : ∀ b x, (∀ r, b = some r → r.1.beat = s.beat) → ∀ r, f b x = some r → r.1.beat = s.beat) :
    ∀ r, l.foldl f a = some r → r.1.beat = s.beat := by
  induction l generalizing a with
  | nil => exact ha
  | cons x l ih => exact ih _ (h a x ha)

theorem State.prefixEntries_beat (s : State) (x len : ℕ) {r} (hr : s.prefixEntries x len = some r) : r.1.beat = s.beat := by
  have hadd (acc : Option (State × List ((ℕ × ℕ) × Pte))) (k : ℕ × ℕ) (f : State → State × Option Pte)
      (hf : ∀ z, (f z).1.beat = z.beat) (ha : ∀ r, acc = some r → r.1.beat = s.beat) (r)
      (h : (acc.bind fun a => match f a.1 with
        | (z, some e) => some (z, a.2 ++ [(k, e)])
        | (_, none) => none) = some r) : r.1.beat = s.beat := by
    rw [Option.bind_eq_some_iff] at h
    obtain ⟨a, h1, h2⟩ := h
    have h3 := hf a.1
    split at h2
    · simp_all
      rw [← h2, h3]
    · cases h2
  refine foldlI_beat s _ _ _ (fun r h => by cases h; rfl) (fun b lh hb => ?_) r hr
  · have hw := foldlI_beat s (fun (acc : Option (State × List ((ℕ × ℕ) × Pte))) e =>
        match (s.sess x).pte (s.blockIndex x lh.1 lh.2 e) with
        | .page p => acc.bind fun a => match (((a.1.sharePage x lh.1 lh.2 p).1, (a.1.sharePage x lh.1 lh.2 p).2.map Pte.page) : State × Option Pte) with
          | (z, some w) => some (z, a.2 ++ [((lh.1 * (s.sessShape x).kvHeads + lh.2, e), w)])
          | (_, none) => none
        | .remote k ep p => acc.bind fun a => match ((a.1, some (Pte.remote k ep p)) : State × Option Pte) with
          | (z, some w) => some (z, a.2 ++ [((lh.1 * (s.sessShape x).kvHeads + lh.2, e), w)])
          | (_, none) => none
        | _ => acc) (wholeBlocks ((s.sessShape x).windowOf lh.1) (slotsPerPage (s.sess x).kv8) len (s.sess x).committed) b hb (fun c e hc => by
      dsimp only
      split
      · exact hadd c _ (fun z => ((z.sharePage x lh.1 lh.2 _).1, (z.sharePage x lh.1 lh.2 _).2.map .page)) (fun z => by simp) hc
      · exact hadd c _ (fun z => (z, some _)) (fun _ => rfl) hc
      · exact hc)
    intro r h
    dsimp only at h
    split at h
    · exact hw r h
    · split at h
      · refine hadd _ _ (fun z => match z.newKvPage x lh.1 lh.2 with
          | (u, some p) => (u.copyPage _ p (len % slotsPerPage (s.sess x).kv8) (s.sess x).kvKey (s.sess x).kvKey (s.sess x).kv8, some (Pte.page p))
          | (u, none) => (u, none)) (fun z => ?_) hw r h
        have h4 := State.newKvPage_beat z x lh.1 lh.2
        split <;> simp_all
      · cases h
      · exact hw r h

@[simp] theorem State.insertPrefix_beat (s : State) (x tag : ℕ) : (s.insertPrefix x tag).beat = s.beat := by
  unfold State.insertPrefix
  dsimp only
  split
  · simp
  · split
    · rfl
    · split
      · simp
      · split
        · simp
        · rename_i r hr
          have h := State.prefixEntries_beat _ _ _ hr
          rw [foldl_beat _ _ _ (fun t q => by simp), State.bump_beat, foldl1_beat]
          · simpa using h
          · intro a i
            dsimp only
            split <;> simp

@[simp] theorem State.spend_beat (s : State) (fj : Nat) : (State.spend s fj).beat = s.beat := by
  unfold State.spend
  repeat' first | (simp; done) | (intro _) | split | (rw [foldl_beat]) | (dsimp only) | (simp_all; done)

@[simp] theorem State.dropMould_beat (s : State) (n m : Nat) (retired : Bool) : (State.dropMould s n m retired).beat = s.beat := by
  unfold State.dropMould
  repeat' first | (simp; done) | (intro _) | split | (rw [foldl_beat]) | (dsimp only) | (simp_all; done)

@[simp] theorem State.locate_beat (s : State) (n m : Nat) (cols : List Nat) : (State.locate s n m cols).beat = s.beat := by
  unfold State.locate
  repeat' first | (simp; done) | (intro _) | split | (rw [foldl_beat]) | (dsimp only) | (simp_all; done)

@[simp] theorem State.quickAttempts_beat (s : State) (n m : ℕ) (l : List (GaugeRun × GaugeRun)) (k : ℕ) :
    (s.quickAttempts n m l k).1.beat = s.beat := by
  induction l generalizing s k with
  | nil => simp [State.quickAttempts]
  | cons a l ih =>
    unfold State.quickAttempts
    dsimp only
    split
    · simp
    · split
      · simp
      · split <;> simp [ih]

@[simp] theorem State.quickOne_beat (s : State) (n m : ℕ) (q : QuickCheck) : (s.quickOne n m q).1.beat = s.beat := by
  unfold State.quickOne
  dsimp only
  split <;> simp

@[simp] theorem State.runQuick_beat (s : State) (d : Nat) : (State.runQuick s d).beat = s.beat := by
  unfold State.runQuick
  dsimp only
  split
  · rfl
  · rw [State.modDie_beat, foldl1_beat]
    intro a e
    split <;> simp

@[simp] theorem State.quickCheck_beat (s : State) (qs : List QuickCheck) : (State.quickCheck s qs).beat = s.beat := by
  unfold State.quickCheck
  repeat' first | (simp; done) | (intro _) | split | (rw [foldl_beat]) | (dsimp only) | (simp_all; done)

@[simp] theorem State.quenchCast_beat (s : State) (n slot : Nat) (area : Bool) : (State.quenchCast s n slot area).beat = s.beat := by
  unfold State.quenchCast
  repeat' first | (simp; done) | (intro _) | split | (rw [foldl_beat]) | (dsimp only) | (simp_all; done)

@[simp] theorem State.quenchCasts_beat (s : State) (d : Nat) (l : List (Nat × Nat × Bool)) : (State.quenchCasts s d l).beat = s.beat := by
  unfold State.quenchCasts
  rw [State.bump_beat, foldl_beat]
  simp

@[simp] theorem State.hostRead_beat (s : State) (addr : ℕ) (n : ℕ) : (State.hostRead s addr n).1.beat = s.beat := by
  unfold State.hostRead
  repeat' first | (simp; done) | (intro _) | split | (rw [foldl_beat]) | (dsimp only) | (simp_all; done)

@[simp] theorem State.hostWriteLine_beat (s : State) (addr : ℕ) (bytes : List (BitVec 8)) : (State.hostWriteLine s addr bytes).beat = s.beat := by
  unfold State.hostWriteLine
  repeat' first | (simp; done) | (intro _) | split | (rw [foldl_beat]) | (dsimp only) | (simp_all; done)

@[simp] theorem State.writeRecord_beat (s : State) (w : ℕ) (n : ℕ) (r : Record) : (State.writeRecord s w n r).beat = s.beat := by
  unfold State.writeRecord
  repeat' first | (simp; done) | (intro _) | split | (rw [foldl_beat]) | (dsimp only) | (simp_all; done)

@[simp] theorem State.packageOutcome_beat (s : State) (w : ℕ) (seq : ℕ) (cookie : ℕ) (code : Option Code) (value : ℕ) : (State.packageOutcome s w seq cookie code value).beat = s.beat := by
  simp [State.packageOutcome]

@[simp] theorem State.emit_beat (s : State) (x : ℕ) (r : Record) : (State.emit s x r).beat = s.beat := by
  simp [State.emit]

@[simp] theorem State.flushHeld_beat (s : State) (x now n : ℕ) : (s.flushHeld x now n).beat = s.beat := by
  induction n generalizing s with
  | zero => rfl
  | succ n ih =>
    unfold State.flushHeld
    dsimp only
    split
    · rfl
    · split
      · simp [ih]
      · rfl

@[simp] theorem State.flushOut_beat (s : State) (now w : ℕ) : (s.flushOut now w).beat = s.beat := by
  simp [State.flushOut]

@[simp] theorem State.startHead_beat (s : State) (x : ℕ) : (State.startHead s x).beat = s.beat := by
  unfold State.startHead
  repeat' first | (simp; done) | (intro _) | split | (rw [foldl_beat]) | (dsimp only) | (simp_all; done)

@[simp] theorem State.modGen_beat (s : State) (f : Generations → Generations) : (State.modGen s f).beat = s.beat := by
  simp [State.modGen]

@[simp] theorem ok_beat (s : State) : (ok s).1.beat = s.beat := by
  simp [ok]

@[simp] theorem State.beginLoad_beat (s : State) (d : ℕ) (p : PatternImage) (ofSwitch : Bool) : (State.beginLoad s d p ofSwitch).beat = s.beat := by
  simp [State.beginLoad]

@[simp] theorem State.charge_beat (s : State) (l : List (ℕ × ℚ)) : (State.charge s l).beat = s.beat := by
  simp [State.charge]

@[simp] theorem State.discharge_beat (s : State) (now : ℕ) (l : List (ℕ × ℚ)) : (State.discharge s now l).beat = s.beat := by
  simp [State.discharge]

@[simp] theorem State.setOut_beat (s : State) (x : ℕ) (seq : ℕ) (f : Queued → Record) : (State.setOut s x seq f).beat = s.beat := by
  simp [State.setOut]

@[simp] theorem State.flushOuts_beat (s : State) (x now n : ℕ) : (s.flushOuts x now n).beat = s.beat := by
  induction n generalizing s with
  | zero => rfl
  | succ n ih =>
    unfold State.flushOuts
    dsimp only
    split
    · rfl
    · split
      · simp
      · simp [ih]

@[simp] theorem State.flushSession_beat (s : State) (x : ℕ) (now : ℕ) : (State.flushSession s x now).beat = s.beat := by
  simp [State.flushSession]

@[simp] theorem State.dropSets_beat (s : State) (step : ℕ) : (State.dropSets s step).beat = s.beat := by
  simp [State.dropSets]

@[simp] theorem State.unreserve_beat (s : State) (x : ℕ) (n : ℕ) : (State.unreserve s x n).beat = s.beat := by
  simp [State.unreserve]

@[simp] theorem State.leaveFlight_beat (s : State) (x : ℕ) (st : Step) : (State.leaveFlight s x st).beat = s.beat := by
  simp [State.leaveFlight]

@[simp] theorem State.quenchLanesOf_beat (s : State) (lanes : List (Nat × Nat × Nat)) : (State.quenchLanesOf s lanes).beat = s.beat := by
  unfold State.quenchLanesOf
  repeat' first | (simp; done) | (intro _) | split | (rw [foldl_beat]) | (dsimp only) | (simp_all; done)

@[simp] theorem State.quenchRowsOf_beat (s : State) (x : Nat) (lines : List (Nat × Nat)) : (State.quenchRowsOf s x lines).beat = s.beat := by
  unfold State.quenchRowsOf
  repeat' first | (simp; done) | (intro _) | split | (rw [foldl_beat]) | (dsimp only) | (simp_all; done)

@[simp] theorem State.dropStep_beat (s : State) (x : ℕ) (now : ℕ) : (State.dropStep s x now).beat = s.beat := by
  unfold State.dropStep
  repeat' first | (simp; done) | (intro _) | split | (rw [foldl_beat]) | (dsimp only) | (simp_all; done)

@[simp] theorem State.withdraw_beat (s : State) (st : Step) (now : ℕ) : (State.withdraw s st now).beat = s.beat := by
  simp [State.withdraw]

@[simp] theorem State.unbind_beat (s : State) (image : Option ℕ) : (State.unbind s image).beat = s.beat := by
  unfold State.unbind
  repeat' first | (simp; done) | (intro _) | split | (rw [foldl_beat]) | (dsimp only) | (simp_all; done)

@[simp] theorem State.endTurn_beat (s : State) (x : ℕ) (kind : ℕ) (code : ℕ) (detail : ℕ) (flags : ℕ) (more : List (ℕ × ℕ × ℕ)) : (State.endTurn s x kind code detail flags more).beat = s.beat := by
  unfold State.endTurn
  repeat' first | (simp; done) | (intro _) | split | (rw [foldl_beat]) | (dsimp only) | (simp_all; done)

@[simp] theorem State.failTurn_beat (s : State) (x : ℕ) (c : Code) : (State.failTurn s x c).beat = s.beat := by
  simp [State.failTurn]

@[simp] theorem State.failBefore_beat (s : State) (x : ℕ) (seq : ℕ) (c : Code) : (State.failBefore s x seq c).beat = s.beat := by
  simp [State.failBefore]

@[simp] theorem State.release_beat (s : State) (x : ℕ) : (State.release s x).beat = s.beat := by
  simp [State.release]

@[simp] theorem State.endJob_beat (s : State) (x : ℕ) (now : ℕ) (kind : ℕ) (code : ℕ) (detail : ℕ) : (State.endJob s x now kind code detail).beat = s.beat := by
  unfold State.endJob
  repeat' first | (simp; done) | (intro _) | split | (rw [foldl_beat]) | (dsimp only) | (simp_all; done)

@[simp] theorem State.releaseEnded_beat (s : State) (x now : Nat) : (State.releaseEnded s x now).beat = s.beat := by
  unfold State.releaseEnded
  repeat' first | (simp; done) | (intro _) | split | (rw [foldl_beat]) | (dsimp only) | (simp_all; done)

@[simp] theorem State.checkCkpt_beat (s : State) (key : Nat) (k : CkptSlot) : (State.checkCkpt s key k).1.beat = s.beat := by
  unfold State.checkCkpt
  repeat' first | (simp; done) | (intro _) | split | (rw [foldl_beat]) | (dsimp only) | (simp_all; done)

@[simp] theorem State.usableCkpt_beat (s : State) (key : Nat) (j : Job) : (State.usableCkpt s key j).1.beat = s.beat := by
  unfold State.usableCkpt
  repeat' first | (simp; done) | (intro _) | split | (rw [foldl_beat]) | (dsimp only) | (simp_all; done)

@[simp] theorem State.reload_beat (s : State) (j : Job) (k : CkptSlot) : (State.reload s j k).beat = s.beat := by
  simp [State.reload]

@[simp] theorem State.restartJob_beat (s : State) (x : ℕ) (now : ℕ) (c : Code) : (State.restartJob s x now c).beat = s.beat := by
  unfold State.restartJob
  repeat' first | (simp; done) | (intro _) | split | (rw [foldl_beat]) | (dsimp only) | (simp_all; done)

@[simp] theorem State.failWork_beat (s : State) (st : Step) (now : ℕ) (c : Code) : (State.failWork s st now c).beat = s.beat := by
  simp [State.failWork]

@[simp] theorem State.sampleAt_beat (s : State) (b : BellIn) (st : Step) (i : ℕ) : (State.sampleAt s b st i).1.beat = s.beat := by
  unfold State.sampleAt
  repeat' first | (simp; done) | (intro _) | split | (rw [foldl_beat]) | (dsimp only) | (simp_all; done)

@[simp] theorem State.samples_beat (s : State) (b : BellIn) (st : Step) (n : ℕ) : (s.samples b st n).1.beat = s.beat := by
  unfold State.samples
  exact foldl1_beat _ _ _ (fun t x => by simp)

@[simp] theorem State.chargeTenant_beat (s : State) (t : ℕ) (amount : ℕ) : (State.chargeTenant s t amount).beat = s.beat := by
  simp [State.chargeTenant]

@[simp] theorem State.emitTokens_beat (s : State) (x cookie flags now pos n : ℕ) (l : List ℕ) :
    (s.emitTokens x cookie flags now pos n l).beat = s.beat := by
  induction n generalizing s pos l with
  | zero => rfl
  | succ n ih =>
    unfold State.emitTokens
    dsimp only
    split
    · rfl
    · simp [ih]

@[simp] theorem State.noteProgress_beat (s : State) (x n : Nat) : (State.noteProgress s x n).beat = s.beat := by
  unfold State.noteProgress
  repeat' first | (simp; done) | (intro _) | split | (rw [foldl_beat]) | (dsimp only) | (simp_all; done)

@[simp] theorem State.commitTo_beat (s : State) (x : ℕ) (st : Step) (j : ℕ) (tag : ℕ) : (State.commitTo s x st j tag).beat = s.beat := by
  simp [State.commitTo]

@[simp] theorem State.floorCommitted_beat (s : State) (x : ℕ) (t : Turn) : (State.floorCommitted s x t).beat = s.beat := by
  simp [State.floorCommitted]

@[simp] theorem State.commitPrompt_beat (s : State) (b : BellIn) (st : Step) (t : Turn) (now : ℕ) : (State.commitPrompt s b st t now).beat = s.beat := by
  simp [State.commitPrompt]

@[simp] theorem State.commitTokens_beat (s : State) (b : BellIn) (st : Step) (t : Turn) (now : ℕ) : (State.commitTokens s b st t now).beat = s.beat := by
  unfold State.commitTokens
  repeat' first | (simp; done) | (intro _) | split | (rw [foldl_beat]) | (dsimp only) | (simp_all; done)

@[simp] theorem State.trainImage_beat (s : State) (x : Nat) (j : Job) : (State.trainImage s x j).beat = s.beat := by
  unfold State.trainImage
  split
  · rfl
  · rename_i old _
    dsimp only
    have h : ∀ n, ((s.allocPages (s.ownerHub x) n).getD (s, [])).1.beat = s.beat := fun n => by
      cases hr : s.allocPages (s.ownerHub x) n with
      | none => rfl
      | some r => exact State.allocPages_beat _ _ _ hr
    have h1 := h old.pages.length
    rw [← State.tick_beat] at h1
    exact h1

@[simp] theorem State.commitTemper_beat (s : State) (st : Step) (now : ℕ) : (State.commitTemper s st now).beat = s.beat := by
  unfold State.commitTemper
  repeat' first | (simp; done) | (intro _) | split | (rw [foldl_beat]) | (dsimp only) | (simp_all; done)

@[simp] theorem State.commitStep_beat (s : State) (b : BellIn) (st : Step) (now : ℕ) : (State.commitStep s b st now).beat = s.beat := by
  unfold State.commitStep
  repeat' first | (simp; done) | (intro _) | split | (rw [foldl_beat]) | (dsimp only) | (simp_all; done)

@[simp] theorem State.footpathMarks_beat (s : State) (d : ℕ) : (State.footpathMarks s d).beat = s.beat := by
  simp [State.footpathMarks]

@[simp] theorem State.fenceMarks_beat (s : State) (d : ℕ) : (State.fenceMarks s d).beat = s.beat := by
  simp [State.fenceMarks]

@[simp] theorem State.bellMarks_beat (s : State) : (State.bellMarks s).beat = s.beat := by
  simp [State.bellMarks]

@[simp] theorem State.mapRows_beat (s : State) (d : ℕ) : (s.mapRows d).beat = s.beat := by
  unfold State.mapRows
  dsimp only
  split
  · rfl
  · rw [State.modDie_beat, foldl_beat]
    intro t e
    split <;> simp

@[simp] theorem State.spareLive_beat (s : State) (d : ℕ) (j : SpareJob) : (State.spareLive s d j).beat = s.beat := by
  simp [State.spareLive]

@[simp] theorem State.latchHist_beat (s : State) (d : ℕ) : (State.latchHist s d).beat = s.beat := by
  simp [State.latchHist]

@[simp] theorem State.recordPattern_beat (s : State) (d : ℕ) : (State.recordPattern s d).beat = s.beat := by
  simp [State.recordPattern]

@[simp] theorem State.dieAtBell_beat (s : State) (now : ℕ) (d : ℕ) : (State.dieAtBell s now d).beat = s.beat := by
  simp [State.dieAtBell]

@[simp] theorem State.diesAtBell_beat (s : State) (now : ℕ) (failed : List CroftAt) : (State.diesAtBell s now failed).beat = s.beat := by
  simp [State.diesAtBell]

@[simp] theorem State.spareCast_beat (s : State) (p k : Nat) : (State.spareCast s p k).beat = s.beat := by
  unfold State.spareCast
  repeat' first | (simp; done) | (intro _) | split | (rw [foldl_beat]) | (dsimp only) | (simp_all; done)

@[simp] theorem State.spareCasts_beat (s : State) (d : ℕ) : (State.spareCasts s d).beat = s.beat := by
  unfold State.spareCasts
  repeat' first | (simp; done) | (intro _) | split | (rw [foldl_beat]) | (dsimp only) | (simp_all; done)

@[simp] theorem State.recastTurn_beat (s : State) (n : ℕ) : (State.recastTurn s n).beat = s.beat := by
  unfold State.recastTurn
  repeat' first | (simp; done) | (intro _) | split | (rw [foldl_beat]) | (dsimp only) | (simp_all; done)

@[simp] theorem State.tryCast_beat (s : State) (now : ℕ) (g : ℕ) (w : WantedCast) : (State.tryCast s now g w).beat = s.beat := by
  simp [State.tryCast]

@[simp] theorem State.startCasts_beat (s : State) (now : ℕ) : (State.startCasts s now).beat = s.beat := by
  unfold State.startCasts
  repeat' first | (simp; done) | (intro _) | split | (rw [foldl_beat]) | (dsimp only) | (simp_all; done)

@[simp] theorem State.preflight_beat (s : State) (x now n : ℕ) : (s.preflight x now n).beat = s.beat := by
  induction n generalizing s with
  | zero => rfl
  | succ n ih =>
    unfold State.preflight
    split
    · simp [ih]
    · rfl

@[simp] theorem State.adopt_beat (s : State) (x : ℕ) : (State.adopt s x).beat = s.beat := by
  unfold State.adopt
  repeat' first | (simp; done) | (intro _) | split | (rw [foldl_beat]) | (dsimp only) | (simp_all; done)

@[simp] theorem State.failAdmission_beat (s : State) (x : ℕ) (now : ℕ) (c : Code) : (State.failAdmission s x now c).beat = s.beat := by
  simp [State.failAdmission]

@[simp] theorem State.newFloor_beat (s : State) (x : Nat) : (State.newFloor s x).beat = s.beat := by
  unfold State.newFloor
  repeat' first | (simp; done) | (intro _) | split | (rw [foldl_beat]) | (dsimp only) | (simp_all; done)

@[simp] theorem State.enter_beat (s : State) (x now lane : Nat) (c : Copy) (p : StepPlan) (rerun : Bool) (image : Option AdapterRec) (charges : List (Nat × Rat)) (records : Nat) : (State.enter s x now lane c p rerun image charges records).beat = s.beat := by
  unfold State.enter
  repeat' first | (simp; done) | (intro _) | split | (rw [foldl_beat]) | (dsimp only) | (simp_all; done)

theorem Adm.tryCopy_beat (a : Adm) (now : ℕ) (k : Candidate) (c : Copy) (image : Option AdapterRec) :
    (a.tryCopy now k c image).s.beat = a.s.beat := by
  unfold Adm.tryCopy
  dsimp only
  split
  · exact State.adopt_beat _ _
  · split
    · rfl
    · split
      · simp
      · rename_i s2 l hr
        have h1 := State.reservePages_beat _ _ _ _ hr
        simp only [State.adopt_beat, State.newFloor_beat] at h1
        repeat' split
        all_goals first | rfl | (simp; done) | (simpa using h1)

theorem Adm.try_beat (now : ℕ) (copies : List Copy) (a : Adm) (k : Candidate) : (Adm.try now copies a k).s.beat = a.s.beat := by
  unfold Adm.try
  dsimp only
  repeat' split
  all_goals first | rfl | (simp; done) | exact Adm.tryCopy_beat _ _ _ _ _

@[simp] theorem State.admission_beat (s : State) (now : ℕ) : (s.admission now).beat = s.beat := by
  unfold State.admission
  dsimp only
  split
  · rfl
  · have h1 : ∀ (l : List Candidate) (a : Adm) (cs : List Copy), (l.foldl (Adm.try now cs) a).s.beat = a.s.beat := fun l => by
      induction l with
      | nil => intro a cs; rfl
      | cons x l ih => intro a cs; rw [List.foldl_cons, ih, Adm.try_beat]
    rw [h1]
    dsimp only
    rw [foldl_beat]
    intro t x
    split <;> simp

@[simp] theorem State.snapAttest_beat (s : State) (now : ℕ) : (State.snapAttest s now).beat = s.beat := by
  unfold State.snapAttest
  repeat' first | (simp; done) | (intro _) | split | (rw [foldl_beat]) | (dsimp only) | (simp_all; done)

@[simp] theorem State.settlePorts_beat (s : State) : (State.settlePorts s).beat = s.beat := by
  simp [State.settlePorts]

@[simp] theorem State.setDomain_beat (s : State) (f : Lockhouse → Lockhouse) :
    (s.setDomain f).beat = s.beat := by
  rw [← State.beat_fold, ← State.beat_fold]
  simp [State.setDomain]

@[simp] theorem State.leaveAtBell_beat (s : State) : (State.leaveAtBell s).beat = s.beat := by
  simp [State.leaveAtBell]

@[simp] theorem State.sendManifest_beat (s : State) (x : ℕ) (package : ℕ) (tag : ℕ) : (State.sendManifest s x package tag).beat = s.beat := by
  simp [State.sendManifest]

@[simp] theorem State.failMigration_beat (s : State) (x : Nat) (c : Code) : (State.failMigration s x c).beat = s.beat := by
  unfold State.failMigration
  repeat' first | (simp; done) | (intro _) | split | (rw [foldl_beat]) | (dsimp only) | (simp_all; done)

@[simp] theorem State.abortMigration_beat (s : State) (x : Nat) (c : Code) : (State.abortMigration s x c).beat = s.beat := by
  unfold State.abortMigration
  repeat' first | (simp; done) | (intro _) | split | (rw [foldl_beat]) | (dsimp only) | (simp_all; done)

@[simp] theorem State.failedMigration_beat (s : State) (x now : Nat) : (State.failedMigration s x now).beat = s.beat := by
  unfold State.failedMigration
  repeat' first | (simp; done) | (intro _) | split | (rw [foldl_beat]) | (dsimp only) | (simp_all; done)

@[simp] theorem State.takeEntry_beat (s : State) (x : ℕ) (m : Manifest) (e : ℕ × ℕ × ℕ × ℕ) :
    (s.takeEntry x m e).1.beat = s.beat := by
  unfold State.takeEntry
  have h2 := State.allocPage_beat s (s.ownerHub x)
  split
  · split <;> simp_all
  · split <;> simp

@[simp] theorem State.receiveManifest_beat (s : State) (x : Nat) (m : Manifest) : (State.receiveManifest s x m).beat = s.beat := by
  unfold State.receiveManifest
  dsimp only
  split
  · simp
  · split
    · simp
    · rename_i a ha
      have h1 : a.1.beat = s.beat := (State.allocPages_beat _ _ _ ha).trans (by simp)
      split
      · rw [State.abortMigration_beat]
        refine Eq.trans ?_ h1
        simp
      · rename_i b hb
        have h2 : b.1.beat = s.beat := by
          refine (State.allocPages_beat _ _ _ hb).trans (Eq.trans ?_ h1)
          simp
        have h3 : ∀ (l : List (ℕ × ℕ)) (t : List (Nat × Nat × Nat × Nat)),
            (t.foldl (fun (acc : State × Bool) e => if acc.2 then acc.1.takeEntry x m e else acc) (b.1.enterTables x l, true)).1.beat = s.beat := fun l t => by
          rw [foldl1_beat _ _ _ (fun a e => by split <;> simp)]
          simpa using h2
        split <;> simp [h3]

@[simp] theorem State.takeManifest_beat (s : State) (x : ℕ) : (State.takeManifest s x).beat = s.beat := by
  unfold State.takeManifest
  repeat' first | (simp; done) | (intro _) | split | (rw [foldl_beat]) | (dsimp only) | (simp_all; done)

@[simp] theorem State.takeOver_beat (s : State) (x : ℕ) (now : ℕ) : (State.takeOver s x now).beat = s.beat := by
  unfold State.takeOver
  repeat' first | (simp; done) | (intro _) | split | (rw [foldl_beat]) | (dsimp only) | (simp_all; done)

@[simp] theorem State.commonsAtBell_beat (s : State) : (s.commonsAtBell).beat = s.beat := by
  unfold State.commonsAtBell
  split
  · rfl
  · refine (foldl1_beat _ _ _ (fun t i => ?_)).trans (by simp)
    have h2 := State.allocPage_beat t.1 (i % 4)
    try dsimp only
    split <;> simp_all

@[simp] theorem State.unmapHandles_beat (s : State) (f : AdapterRec → Bool) : (State.unmapHandles s f).beat = s.beat := by
  simp [State.unmapHandles]

@[simp] theorem State.endSwitch_beat (s : State) (w : Switch) (c : Option Code) (f : Generations → Generations) : (State.endSwitch s w c f).beat = s.beat := by
  simp [State.endSwitch]

@[simp] theorem State.revokeAtBell_beat (s : State) : (State.revokeAtBell s).beat = s.beat := by
  unfold State.revokeAtBell
  repeat' first | (simp; done) | (intro _) | split | (rw [foldl_beat]) | (dsimp only) | (simp_all; done)

@[simp] theorem State.countPackageQuench_beat (s : State) (d : Nat) : (State.countPackageQuench s d).beat = s.beat := by
  unfold State.countPackageQuench
  repeat' first | (simp; done) | (intro _) | split | (rw [foldl_beat]) | (dsimp only) | (simp_all; done)

@[simp] theorem State.debugAtBell_beat (s : State) : (State.debugAtBell s).beat = s.beat := by
  unfold State.debugAtBell
  dsimp only
  (repeat' split) <;> simp_all

@[simp] theorem State.fenceSession_beat (s : State) (x now : Nat) : (State.fenceSession s x now).beat = s.beat := by
  unfold State.fenceSession
  repeat' first | (simp; done) | (intro _) | split | (rw [foldl_beat]) | (dsimp only) | (simp_all; done)

@[simp] theorem State.judgeStep_beat (s : State) (now : Nat) (st : Step) : (State.judgeStep s now st).beat = s.beat := by
  unfold State.judgeStep
  repeat' first | (simp; done) | (intro _) | split | (rw [foldl_beat]) | (dsimp only) | (simp_all; done)

@[simp] theorem State.action1_beat (s : State) (now : ℕ) : (State.action1 s now).beat = s.beat := by
  unfold State.action1
  repeat' first | (simp; done) | (intro _) | split | (rw [foldl_beat]) | (dsimp only) | (simp_all; done)

@[simp] theorem State.action2_beat (s : State) (b : BellIn) (now : ℕ) : (State.action2 s b now).beat = s.beat := by
  simp [State.action2]

@[simp] theorem State.deadlineOf_beat (s : State) (x now : ℕ) : (s.deadlineOf x now).beat = s.beat := by
  unfold State.deadlineOf
  dsimp only
  split
  · rfl
  · rw [State.flushSession_beat, foldl_beat]
    intro t q
    generalize (match q.body with
      | .generate _ => true
      | _ => false) = gen
    try dsimp only
    split
    · split <;> simp
    · simp

@[simp] theorem State.openDone_beat (s : State) (x : ℕ) (now : ℕ) : (State.openDone s x now).beat = s.beat := by
  unfold State.openDone
  repeat' first | (simp; done) | (intro _) | split | (rw [foldl_beat]) | (dsimp only) | (simp_all; done)

@[simp] theorem State.stopOne_beat (s : State) (x now : ℕ) (stop : Queued) : (s.stopOne x now stop).beat = s.beat := by
  unfold State.stopOne
  dsimp only
  rw [State.modSess_beat, foldl_beat]
  intro t q
  try dsimp only
  split <;> simp

@[simp] theorem State.stops_beat (s : State) (x : ℕ) (now : ℕ) : (State.stops s x now).beat = s.beat := by
  simp [State.stops]

@[simp] theorem State.cancelOne_beat (s : State) (x : ℕ) (now : ℕ) : (State.cancelOne s x now).beat = s.beat := by
  unfold State.cancelOne
  repeat' first | (simp; done) | (intro _) | split | (rw [foldl_beat]) | (dsimp only) | (simp_all; done)

@[simp] theorem State.headOne_beat (s : State) (x : ℕ) (now : ℕ) : (State.headOne s x now).beat = s.beat := by
  unfold State.headOne
  repeat' first | (simp; done) | (intro _) | split | (rw [foldl_beat]) | (dsimp only) | (simp_all; done)

@[simp] theorem State.endedJob_beat (s : State) (x now : Nat) : (State.endedJob s x now).beat = s.beat := by
  unfold State.endedJob
  repeat' first | (simp; done) | (intro _) | split | (rw [foldl_beat]) | (dsimp only) | (simp_all; done)

@[simp] theorem State.controls_beat (s : State) (x : ℕ) (now : ℕ) : (State.controls s x now).beat = s.beat := by
  simp [State.controls]

@[simp] theorem State.clearFrees_beat (s : State) (due : List (Nat × List Nat × Option Nat)) : (State.clearFrees s due).beat = s.beat := by
  unfold State.clearFrees
  repeat' first | (simp; done) | (intro _) | split | (rw [foldl_beat]) | (dsimp only) | (simp_all; done)

@[simp] theorem State.action5_beat (s : State) (due : List (Nat × List Nat × Option Nat)) : (State.action5 s due).beat = s.beat := by
  unfold State.action5
  repeat' first | (simp; done) | (intro _) | split | (rw [foldl_beat]) | (dsimp only) | (simp_all; done)

@[simp] theorem State.action6_beat (s : State) : (State.action6 s).beat = s.beat := by
  simp [State.action6]

@[simp] theorem State.recastCroft_beat (s : State) (n : Nat) : (State.recastCroft s n).beat = s.beat := by
  unfold State.recastCroft
  repeat' first | (simp; done) | (intro _) | split | (rw [foldl_beat]) | (dsimp only) | (simp_all; done)

@[simp] theorem State.beginRecast_beat (s : State) : (State.beginRecast s).beat = s.beat := by
  simp [State.beginRecast]

@[simp] theorem State.loadAll_beat (s : State) (l : List PatternRef) : (s.loadAll l).1.beat = s.beat := by
  induction l generalizing s with
  | nil => rfl
  | cons r rest ih =>
    unfold State.loadAll
    split
    · rfl
    · simp [ih]

@[simp] theorem State.action7_beat (s : State) : (State.action7 s).beat = s.beat := by
  unfold State.action7
  repeat' first | (simp; done) | (intro _) | split | (rw [foldl_beat]) | (dsimp only) | (simp_all; done)

@[simp] theorem State.action8_beat (s : State) : (State.action8 s).beat = s.beat := by
  simp [State.action8]

@[simp] theorem State.action9_beat (s : State) (now : ℕ) : (State.action9 s now).beat = s.beat := by
  simp [State.action9]

@[simp] theorem State.keepLanes_beat (s : State) : (State.keepLanes s).beat = s.beat := by
  simp [State.keepLanes]

@[simp] theorem State.snapshot_beat (s : State) (now : ℕ) (old : List ℕ) : (State.snapshot s now old).beat = s.beat := by
  simp [State.snapshot]

@[simp] theorem State.eachSession_beat (s : State) (f : State → ℕ → State) (h : ∀ t x, (f t x).beat = t.beat) :
    (s.eachSession f).beat = s.beat := foldl_beat f _ s h

@[simp] theorem State.writeHeld_beat (s : State) (now : ℕ) : (s.writeHeld now).beat = s.beat := by
  simp [State.writeHeld, State.eachSession]

@[simp] theorem State.chargeLeak_beat (s : State) : (State.chargeLeak s).beat = s.beat := by
  simp [State.chargeLeak]

end Sys2Proof.Machine
end

