-- ==== Sys2Proof/Laws/Calm.lean ====
section
/-!
SUPPORT. What the actions of a bell leave alone where no context is in use: sessions, the number of steps in flight and tenants. One
lemma per operation.
-/

set_option linter.unusedTactic false
set_option linter.unreachableTactic false

namespace Sys2Proof.Machine

/-- The sessions, how many steps are in flight, and the tenants. -/
def State.calm (s : State) : Table Session × Nat × Table Tenant := (s.serve.sessions, s.serve.steps.length, s.serve.tenants)

@[simp] theorem State.calm_mk (a : List Instr) (b : Nat) (c : Clock) (d : Table Word) (e : Package) (f : Table Die) (g : Table Croft)
    (h : Serving) (i : Storage) (j : Stacks) (k : Tally) (l : Table Converter) (m : Links) (n : Lockhouse) (o : Steward) :
    (State.mk a b c d e f g h i j k l m n o).calm = (h.sessions, h.steps.length, h.tenants) := (fun _ => rfl) ()

@[simp] theorem State.calm_fold (s : State) : (s.serve.sessions, s.serve.steps.length, s.serve.tenants) = s.calm := (fun _ => rfl) ()

@[simp] theorem ite_calm {c : Prop} [Decidable c] (a b : State) : (if c then a else b).calm = if c then a.calm else b.calm :=
  apply_ite (fun s : State => s.calm) c a b

@[simp] theorem ite1_calm {c : Prop} [Decidable c] {α : Type} (a b : State × α) :
    (if c then a else b).1.calm = if c then a.1.calm else b.1.calm := apply_ite (fun s : State × α => s.1.calm) c a b

@[simp] theorem foldl_calm {α : Type} (f : State → α → State) (l : List α) (s : State) (h : ∀ t x, (f t x).calm = t.calm) :
    (l.foldl f s).calm = s.calm := by
  induction l generalizing s with
  | nil => rfl
  | cons x l ih => simp [ih, h]

theorem foldl1_calm {α β : Type} (f : State × β → α → State × β) (l : List α) (s : State × β)
    (h : ∀ t x, (f t x).1.calm = t.1.calm) : (l.foldl f s).1.calm = s.1.calm := by
  induction l generalizing s with
  | nil => rfl
  | cons x l ih => simp [ih, h]

theorem foldlO_calm {α β : Type} (f : State × β → α → Option (State × β)) (l : List α) (s : State × β)
    (h : ∀ t x r, f t x = some r → r.1.calm = t.1.calm) {r : State × β}
    (hr : l.foldl (fun (acc : Option (State × β)) x => acc.bind fun a => f a x) (some s) = some r) : r.1.calm = s.1.calm := by
  induction l generalizing s with
  | nil => cases hr; rfl
  | cons x l ih =>
    simp only [List.foldl_cons, Option.bind_some] at hr
    cases hx : f s x with
    | none =>
      rw [hx] at hr
      have hn : ∀ l : List α, l.foldl (fun (acc : Option (State × β)) x => acc.bind fun a => f a x) none = none := fun l => by
        induction l with
        | nil => rfl
        | cons y l ih => simpa using ih
      rw [hn] at hr
      cases hr
    | some u =>
      rw [hx] at hr
      exact (ih u hr).trans (h _ _ _ hx)

@[simp] theorem State.setDie_calm (s : State) (d : ℕ) (x : Die) : (State.setDie s d x).calm = s.calm := by
  simp [State.setDie]

@[simp] theorem State.modDie_calm (s : State) (d : ℕ) (f : Die → Die) : (State.modDie s d f).calm = s.calm := by
  simp [State.modDie]

@[simp] theorem State.setCroft_calm (s : State) (n : ℕ) (x : Croft) : (State.setCroft s n x).calm = s.calm := by
  simp [State.setCroft]

@[simp] theorem State.modCroft_calm (s : State) (n : ℕ) (f : Croft → Croft) : (State.modCroft s n f).calm = s.calm := by
  simp [State.modCroft]

@[simp] theorem State.modMould_calm (s : State) (c : ℕ) (m : ℕ) (f : Mould → Mould) : (State.modMould s c m f).calm = s.calm := by
  simp [State.modMould]

@[simp] theorem State.setWin_calm (s : State) (w : ℕ) (x : Window) : (State.setWin s w x).calm = s.calm := by
  simp [State.setWin]

@[simp] theorem State.modWin_calm (s : State) (w : ℕ) (f : Window → Window) : (State.modWin s w f).calm = s.calm := by
  simp [State.modWin]

@[simp] theorem State.modStack_calm (s : State) (k : ℕ) (f : StackSt → StackSt) : (State.modStack s k f).calm = s.calm := by
  simp [State.modStack]

@[simp] theorem State.modPort_calm (s : State) (p : ℕ) (f : Port → Port) : (State.modPort s p f).calm = s.calm := by
  simp [State.modPort]

@[simp] theorem State.advanceTo_calm (s : State) (t : ℕ) : (State.advanceTo s t).calm = s.calm := by
  simp [State.advanceTo]

@[simp] theorem State.tick_calm (s : State) : (State.tick s).calm = s.calm := by
  simp [State.tick]

@[simp] theorem State.modStep_calm (s : State) (id : Nat) (f : Step → Step) : (State.modStep s id f).calm = s.calm := by
  unfold State.modStep
  repeat' first | (simp; done) | (intro _) | split | (rw [foldl_calm]) | (dsimp only) | (simp_all; done)

@[simp] theorem State.mapSteps_calm (s : State) (f : Step → Step) : (State.mapSteps s f).calm = s.calm := by
  simp [State.mapSteps]

@[simp] theorem State.setReg_calm (s : State) (p : Page) (off : ℕ) (v : Word) : (State.setReg s p off v).calm = s.calm := by
  simp [State.setReg]

@[simp] theorem State.bump_calm (s : State) (p : Page) (off : ℕ) (n : ℕ) : (State.bump s p off n).calm = s.calm := by
  simp [State.bump]

@[simp] theorem State.raiseIntr_calm (s : State) (id : ℕ) : (State.raiseIntr s id).calm = s.calm := by
  simp [State.raiseIntr]

@[simp] theorem State.logError_calm (s : State) (p : Page) (c : Code) (addr : ℕ) (kind : ℕ) (index : ℕ) (reg : optParam Bool false) : (State.logError s p c addr kind index reg).calm = s.calm := by
  simp [State.logError]

@[simp] theorem State.logEvent_calm (s : State) (p : Page) (c : Code) (addr : ℕ) : (State.logEvent s p c addr).calm = s.calm := by
  simp [State.logEvent]

@[simp] theorem State.bumpCroft_calm (s : State) (n off : Nat) (k : Nat := 1) : (State.bumpCroft s n off k).calm = s.calm := by
  unfold State.bumpCroft
  repeat' first | (simp; done) | (intro _) | split | (rw [foldl_calm]) | (dsimp only) | (simp_all; done)

@[simp] theorem State.renewKey_calm (s : State) (key : ℕ) : (State.renewKey s key).calm = s.calm := by
  simp [State.renewKey]

@[simp] theorem State.markUnclean_calm (s : State) (p : ℕ) : (State.markUnclean s p).calm = s.calm := by
  simp [State.markUnclean]

@[simp] theorem State.setLineCode_calm (s : State) (l : ℕ) (c : LineCode) : (State.setLineCode s l c).calm = s.calm := by
  simp [State.setLineCode]

@[simp] theorem State.listRow_calm (s : State) (l : ℕ) : (State.listRow s l).calm = s.calm := by
  simp [State.listRow]

@[simp] theorem State.poisonLine_calm (s : State) (l : ℕ) : (State.poisonLine s l).calm = s.calm := by
  simp [State.poisonLine]

@[simp] theorem State.readLine_calm (s : State) (l : ℕ) (key : ℕ) : (State.readLine s l key).1.calm = s.calm := by
  unfold State.readLine
  repeat' first | (simp; done) | (intro _) | split | (rw [foldl_calm]) | (dsimp only) | (simp_all; done)

@[simp] theorem State.writeLine_calm (s : State) (l : ℕ) (key : ℕ) (bytes : List (BitVec 8)) (poison : Bool) : (State.writeLine s l key bytes poison).calm = s.calm := by
  simp [State.writeLine]

@[simp] theorem State.readBytes_calm (s : State) (a n key : ℕ) : (s.readBytes a n key).1.calm = s.calm := by
  unfold State.readBytes
  exact foldl1_calm _ _ _ (fun t x => by simp)

@[simp] theorem State.allocPage_calm (s : State) (h : ℕ) : (State.allocPage s h).1.calm = s.calm := by
  unfold State.allocPage
  repeat' first | (simp; done) | (intro _) | split | (rw [foldl_calm]) | (dsimp only) | (simp_all; done)

@[simp] theorem State.dropRef_calm (s : State) (p : ℕ) : (State.dropRef s p).calm = s.calm := by
  simp [State.dropRef]

@[simp] theorem State.dropRefs_calm (s : State) (ps : List ℕ) : (State.dropRefs s ps).calm = s.calm := by
  simp [State.dropRefs]

@[simp] theorem State.degrade_calm (s : State) (d : ℕ) : (State.degrade s d).calm = s.calm := by
  simp [State.degrade]

@[simp] theorem State.fenceOnly_calm (s : State) (n : Nat) : (State.fenceOnly s n).calm = s.calm := by
  unfold State.fenceOnly
  repeat' first | (simp; done) | (intro _) | split | (rw [foldl_calm]) | (dsimp only) | (simp_all; done)

@[simp] theorem State.takeCoordinate_calm (s : State) (n col : Nat) : (State.takeCoordinate s n col).calm = s.calm := by
  unfold State.takeCoordinate
  repeat' first | (simp; done) | (intro _) | split | (rw [foldl_calm]) | (dsimp only) | (simp_all; done)

@[simp] theorem State.fence_calm (s : State) (n : ℕ) : (State.fence s n).calm = s.calm := by
  unfold State.fence
  repeat' first | (simp; done) | (intro _) | split | (rw [foldl_calm]) | (dsimp only) | (simp_all; done)

@[simp] theorem State.routerFault_calm (s : State) (n : ℕ) : (State.routerFault s n).calm = s.calm := by
  simp [State.routerFault]

@[simp] theorem State.gatherMark_calm (s : State) (n step : Nat) (c : Cause) : (State.gatherMark s n step c).calm = s.calm := by
  unfold State.gatherMark
  repeat' first | (simp; done) | (intro _) | split | (rw [foldl_calm]) | (dsimp only) | (simp_all; done)

@[simp] theorem State.markSuspect_calm (s : State) (step n : Nat) (m : Option Nat) : (State.markSuspect s step n m).calm = s.calm := by
  unfold State.markSuspect
  repeat' first | (simp; done) | (intro _) | split | (rw [foldl_calm]) | (dsimp only) | (simp_all; done)

@[simp] theorem State.mapReserve_calm (s : State) (n : ℕ) (slot : ℕ) : (State.mapReserve s n slot).calm = s.calm := by
  unfold State.mapReserve
  repeat' first | (simp; done) | (intro _) | split | (rw [foldl_calm]) | (dsimp only) | (simp_all; done)

@[simp] theorem State.holdSlot_calm (s : State) (n : ℕ) (slot : ℕ) : (State.holdSlot s n slot).calm = s.calm := by
  simp [State.holdSlot]

@[simp] theorem State.dropWindow_calm (s : State) (n slot : Nat) : (State.dropWindow s n slot).calm = s.calm := by
  unfold State.dropWindow
  repeat' first | (simp; done) | (intro _) | split | (rw [foldl_calm]) | (dsimp only) | (simp_all; done)

@[simp] theorem State.leaveService_calm (s : State) (n : ℕ) (slot : ℕ) (retired : Bool) : (State.leaveService s n slot retired).calm = s.calm := by
  unfold State.leaveService
  repeat' first | (simp; done) | (intro _) | split | (rw [foldl_calm]) | (dsimp only) | (simp_all; done)

@[simp] theorem State.spendMould_calm (s : State) (n : ℕ) (m : ℕ) (st : MouldState) : (State.spendMould s n m st).calm = s.calm := by
  unfold State.spendMould
  repeat' first | (simp; done) | (intro _) | split | (rw [foldl_calm]) | (dsimp only) | (simp_all; done)

@[simp] theorem State.openCast_calm (s : State) (n : ℕ) (m : ℕ) (gen : ℕ) : (State.openCast s n m gen).calm = s.calm := by
  simp [State.openCast]

@[simp] theorem State.openSpareCast_calm (s : State) (n : ℕ) (m : ℕ) (spares : List ℕ) : (State.openSpareCast s n m spares).calm = s.calm := by
  simp [State.openSpareCast]

@[simp] theorem State.wantSpares_calm (s : State) (n m : Nat) (spares : List Nat) : (State.wantSpares s n m spares).calm = s.calm := by
  unfold State.wantSpares
  repeat' first | (simp; done) | (intro _) | split | (rw [foldl_calm]) | (dsimp only) | (simp_all; done)

@[simp] theorem State.noteCast_calm (s : State) (n m : Nat) : (State.noteCast s n m).calm = s.calm := by
  unfold State.noteCast
  repeat' first | (simp; done) | (intro _) | split | (rw [foldl_calm]) | (dsimp only) | (simp_all; done)

@[simp] theorem State.abandonCast_calm (s : State) (n m : Nat) : (State.abandonCast s n m).calm = s.calm := by
  unfold State.abandonCast
  repeat' first | (simp; done) | (intro _) | split | (rw [foldl_calm]) | (dsimp only) | (simp_all; done)

@[simp] theorem State.stopCasts_calm (s : State) : (State.stopCasts s).calm = s.calm := by
  simp [State.stopCasts]

@[simp] theorem State.send_calm (s : State) (m : OutMsg) : (State.send s m).calm = s.calm := by
  simp [State.send]

@[simp] theorem State.depart_calm (s : State) (m : OutMsg) : (State.depart s m).calm = s.calm := by
  unfold State.depart
  repeat' first | (simp; done) | (intro _) | split | (rw [foldl_calm]) | (dsimp only) | (simp_all; done)

@[simp] theorem State.dropPrefix_calm (s : State) (i : ℕ) : (State.dropPrefix s i).calm = s.calm := by
  unfold State.dropPrefix
  repeat' first | (simp; done) | (intro _) | split | (rw [foldl_calm]) | (dsimp only) | (simp_all; done)

@[simp] theorem State.spend_calm (s : State) (fj : Nat) : (State.spend s fj).calm = s.calm := by
  unfold State.spend
  repeat' first | (simp; done) | (intro _) | split | (rw [foldl_calm]) | (dsimp only) | (simp_all; done)

@[simp] theorem State.dropMould_calm (s : State) (n m : Nat) (retired : Bool) : (State.dropMould s n m retired).calm = s.calm := by
  unfold State.dropMould
  repeat' first | (simp; done) | (intro _) | split | (rw [foldl_calm]) | (dsimp only) | (simp_all; done)

@[simp] theorem State.locate_calm (s : State) (n m : Nat) (cols : List Nat) : (State.locate s n m cols).calm = s.calm := by
  unfold State.locate
  repeat' first | (simp; done) | (intro _) | split | (rw [foldl_calm]) | (dsimp only) | (simp_all; done)

@[simp] theorem State.quickAttempts_calm (s : State) (n m : ℕ) (l : List (GaugeRun × GaugeRun)) (k : ℕ) :
    (s.quickAttempts n m l k).1.calm = s.calm := by
  induction l generalizing s k with
  | nil => simp [State.quickAttempts]
  | cons a l ih =>
    unfold State.quickAttempts
    dsimp only
    split
    · simp
    · split
      · simp
      · split <;> simp [ih]

@[simp] theorem State.quickOne_calm (s : State) (n m : ℕ) (q : QuickCheck) : (s.quickOne n m q).1.calm = s.calm := by
  unfold State.quickOne
  dsimp only
  split <;> simp

@[simp] theorem State.runQuick_calm (s : State) (d : Nat) : (State.runQuick s d).calm = s.calm := by
  unfold State.runQuick
  dsimp only
  split
  · rfl
  · rw [State.modDie_calm, foldl1_calm]
    intro a e
    split <;> simp

@[simp] theorem State.quickCheck_calm (s : State) (qs : List QuickCheck) : (State.quickCheck s qs).calm = s.calm := by
  unfold State.quickCheck
  repeat' first | (simp; done) | (intro _) | split | (rw [foldl_calm]) | (dsimp only) | (simp_all; done)

@[simp] theorem State.resumeMould_calm (s : State) (n m : Nat) : (State.resumeMould s n m).calm = s.calm := by
  unfold State.resumeMould
  repeat' first | (simp; done) | (intro _) | split | (rw [foldl_calm]) | (dsimp only) | (simp_all; done)

@[simp] theorem State.resumeSpares_calm (s : State) : (State.resumeSpares s).calm = s.calm := by
  unfold State.resumeSpares
  repeat' first | (simp; done) | (intro _) | split | (rw [foldl_calm]) | (dsimp only) | (simp_all; done)

@[simp] theorem State.writePadRow_calm (s : State) (n : Nat) (ps : Bool) (row : Nat) (bytes : List (BitVec 8)) (sigma : BitVec 16) : (State.writePadRow s n ps row bytes sigma).calm = s.calm := by
  unfold State.writePadRow
  repeat' first | (simp; done) | (intro _) | split | (rw [foldl_calm]) | (dsimp only) | (simp_all; done)

@[simp] theorem State.writePlace_calm (s : State) (d : Nat) (at_ : RowPlace) (bytes : List (BitVec 8)) (sigma : BitVec 16) : (State.writePlace s d at_ bytes sigma).calm = s.calm := by
  unfold State.writePlace
  repeat' first | (simp; done) | (intro _) | split | (rw [foldl_calm]) | (dsimp only) | (simp_all; done)

@[simp] theorem State.carryMarks_calm (s : State) (d : Nat) (at_ : RowPlace) (marks : List Nat) : (State.carryMarks s d at_ marks).calm = s.calm := by
  unfold State.carryMarks
  repeat' first | (simp; done) | (intro _) | split | (rw [foldl_calm]) | (dsimp only) | (simp_all; done)

@[simp] theorem State.transfer_calm (s before : State) (d : Nat) (t : TransferPlan) :
    (State.transfer s before d t).calm = s.calm := by
  unfold State.transfer
  split <;> simp

@[simp] theorem State.transferAll_calm (s : State) (d : Nat) (l : List TransferPlan) : (State.transferAll s d l).calm = s.calm := by
  unfold State.transferAll
  rw [foldl1_calm _ _ _ fun _ _ => by simp]

@[simp] theorem State.transfersTo_calm (s : State) (d now : Nat) : (State.transfersTo s d now).calm = s.calm := by
  unfold State.transfersTo
  repeat' first | (simp; done) | (intro _) | split | (rw [foldl_calm]) | (dsimp only) | (simp_all; done)

@[simp] theorem State.allTransfers_calm (s : State) (now : Nat) : (State.allTransfers s now).calm = s.calm := by
  unfold State.allTransfers
  repeat' first | (simp; done) | (intro _) | split | (rw [foldl_calm]) | (dsimp only) | (simp_all; done)

@[simp] theorem State.quenchCast_calm (s : State) (n slot : Nat) (area : Bool) : (State.quenchCast s n slot area).calm = s.calm := by
  unfold State.quenchCast
  repeat' first | (simp; done) | (intro _) | split | (rw [foldl_calm]) | (dsimp only) | (simp_all; done)

@[simp] theorem State.quenchCasts_calm (s : State) (d : Nat) (l : List (Nat × Nat × Bool)) : (State.quenchCasts s d l).calm = s.calm := by
  unfold State.quenchCasts
  rw [State.bump_calm, foldl_calm]
  simp

@[simp] theorem State.hostRead_calm (s : State) (addr : ℕ) (n : ℕ) : (State.hostRead s addr n).1.calm = s.calm := by
  unfold State.hostRead
  repeat' first | (simp; done) | (intro _) | split | (rw [foldl_calm]) | (dsimp only) | (simp_all; done)

@[simp] theorem State.hostWriteLine_calm (s : State) (addr : ℕ) (bytes : List (BitVec 8)) : (State.hostWriteLine s addr bytes).calm = s.calm := by
  unfold State.hostWriteLine
  repeat' first | (simp; done) | (intro _) | split | (rw [foldl_calm]) | (dsimp only) | (simp_all; done)

@[simp] theorem State.writeRecord_calm (s : State) (w : ℕ) (n : ℕ) (r : Record) : (State.writeRecord s w n r).calm = s.calm := by
  unfold State.writeRecord
  repeat' first | (simp; done) | (intro _) | split | (rw [foldl_calm]) | (dsimp only) | (simp_all; done)

@[simp] theorem State.packageOutcome_calm (s : State) (w : ℕ) (seq : ℕ) (cookie : ℕ) (code : Option Code) (value : ℕ) : (State.packageOutcome s w seq cookie code value).calm = s.calm := by
  simp [State.packageOutcome]

@[simp] theorem State.flushOut_calm (s : State) (now w : ℕ) : (s.flushOut now w).calm = s.calm := by
  simp [State.flushOut]

@[simp] theorem State.modGen_calm (s : State) (f : Generations → Generations) : (State.modGen s f).calm = s.calm := by
  simp [State.modGen]

@[simp] theorem State.beginLoad_calm (s : State) (d : ℕ) (p : PatternImage) (ofSwitch : Bool) : (State.beginLoad s d p ofSwitch).calm = s.calm := by
  simp [State.beginLoad]

@[simp] theorem State.sampleAt_calm (s : State) (b : BellIn) (st : Step) (i : ℕ) : (State.sampleAt s b st i).1.calm = s.calm := by
  unfold State.sampleAt
  repeat' first | (simp; done) | (intro _) | split | (rw [foldl_calm]) | (dsimp only) | (simp_all; done)

@[simp] theorem State.samples_calm (s : State) (b : BellIn) (st : Step) (n : ℕ) : (s.samples b st n).1.calm = s.calm := by
  unfold State.samples
  exact foldl1_calm _ _ _ (fun t x => by simp)

@[simp] theorem State.footpathMarks_calm (s : State) (d : ℕ) : (State.footpathMarks s d).calm = s.calm := by
  simp [State.footpathMarks]

@[simp] theorem State.fenceMarks_calm (s : State) (d : ℕ) : (State.fenceMarks s d).calm = s.calm := by
  simp [State.fenceMarks]

@[simp] theorem State.bellMarks_calm (s : State) : (State.bellMarks s).calm = s.calm := by
  simp [State.bellMarks]

@[simp] theorem State.mapRows_calm (s : State) (d : ℕ) : (s.mapRows d).calm = s.calm := by
  unfold State.mapRows
  dsimp only
  split
  · rfl
  · rw [State.modDie_calm, foldl_calm]
    intro t e
    split <;> simp

@[simp] theorem State.spareLive_calm (s : State) (d : ℕ) (j : SpareJob) : (State.spareLive s d j).calm = s.calm := by
  simp [State.spareLive]

@[simp] theorem State.latchHist_calm (s : State) (d : ℕ) : (State.latchHist s d).calm = s.calm := by
  simp [State.latchHist]

@[simp] theorem State.recordPattern_calm (s : State) (d : ℕ) : (State.recordPattern s d).calm = s.calm := by
  simp [State.recordPattern]

@[simp] theorem State.dieAtBell_calm (s : State) (now : ℕ) (d : ℕ) : (State.dieAtBell s now d).calm = s.calm := by
  simp [State.dieAtBell]

@[simp] theorem State.diesAtBell_calm (s : State) (now : ℕ) (failed : List CroftAt) : (State.diesAtBell s now failed).calm = s.calm := by
  simp [State.diesAtBell]

@[simp] theorem State.spareCast_calm (s : State) (p k : Nat) : (State.spareCast s p k).calm = s.calm := by
  unfold State.spareCast
  repeat' first | (simp; done) | (intro _) | split | (rw [foldl_calm]) | (dsimp only) | (simp_all; done)

@[simp] theorem State.spareCasts_calm (s : State) (d : ℕ) : (State.spareCasts s d).calm = s.calm := by
  unfold State.spareCasts
  repeat' first | (simp; done) | (intro _) | split | (rw [foldl_calm]) | (dsimp only) | (simp_all; done)

@[simp] theorem State.recastTurn_calm (s : State) (n : ℕ) : (State.recastTurn s n).calm = s.calm := by
  unfold State.recastTurn
  repeat' first | (simp; done) | (intro _) | split | (rw [foldl_calm]) | (dsimp only) | (simp_all; done)

@[simp] theorem State.tryCast_calm (s : State) (now : ℕ) (g : ℕ) (w : WantedCast) : (State.tryCast s now g w).calm = s.calm := by
  simp [State.tryCast]

@[simp] theorem State.startCasts_calm (s : State) (now : ℕ) : (State.startCasts s now).calm = s.calm := by
  unfold State.startCasts
  repeat' first | (simp; done) | (intro _) | split | (rw [foldl_calm]) | (dsimp only) | (simp_all; done)

@[simp] theorem State.snapAttest_calm (s : State) (now : ℕ) : (State.snapAttest s now).calm = s.calm := by
  unfold State.snapAttest
  repeat' first | (simp; done) | (intro _) | split | (rw [foldl_calm]) | (dsimp only) | (simp_all; done)

@[simp] theorem State.settlePorts_calm (s : State) : (State.settlePorts s).calm = s.calm := by
  simp [State.settlePorts]

@[simp] theorem State.setDomain_calm (s : State) (f : Lockhouse → Lockhouse) :
    (s.setDomain f).calm = s.calm := by
  rw [← State.calm_fold, ← State.calm_fold]
  simp [State.setDomain]

@[simp] theorem State.leaveAtBell_calm (s : State) : (State.leaveAtBell s).calm = s.calm := by
  simp [State.leaveAtBell]

@[simp] theorem State.gateCrofts_calm (s : State) : (State.gateCrofts s).calm = s.calm := by
  unfold State.gateCrofts
  repeat' first | (simp; done) | (intro _) | split | (rw [foldl_calm]) | (dsimp only) | (simp_all; done)

@[simp] theorem State.roleAtBell_calm (s : State) (b : BellIn) : (State.roleAtBell s b).calm = s.calm := by
  unfold State.roleAtBell
  repeat' first | (simp; done) | (intro _) | split | (rw [foldl_calm]) | (dsimp only) | (simp_all; done)

@[simp] theorem State.commonsAtBell_calm (s : State) : (s.commonsAtBell).calm = s.calm := by
  unfold State.commonsAtBell
  split
  · rfl
  · refine (foldl1_calm _ _ _ (fun t i => ?_)).trans (by simp)
    have h2 := State.allocPage_calm t.1 (i % 4)
    try dsimp only
    split <;> simp_all

@[simp] theorem State.unmapHandles_calm (s : State) (f : AdapterRec → Bool) : (State.unmapHandles s f).calm = s.calm := by
  simp [State.unmapHandles]

@[simp] theorem State.endSwitch_calm (s : State) (w : Switch) (c : Option Code) (f : Generations → Generations) : (State.endSwitch s w c f).calm = s.calm := by
  simp [State.endSwitch]

@[simp] theorem State.revokeAtBell_calm (s : State) : (State.revokeAtBell s).calm = s.calm := by
  unfold State.revokeAtBell
  repeat' first | (simp; done) | (intro _) | split | (rw [foldl_calm]) | (dsimp only) | (simp_all; done)

@[simp] theorem State.countPackageQuench_calm (s : State) (d : Nat) : (State.countPackageQuench s d).calm = s.calm := by
  unfold State.countPackageQuench
  repeat' first | (simp; done) | (intro _) | split | (rw [foldl_calm]) | (dsimp only) | (simp_all; done)

@[simp] theorem State.debugAtBell_calm (s : State) : (State.debugAtBell s).calm = s.calm := by
  unfold State.debugAtBell
  dsimp only
  (repeat' split) <;> simp_all

@[simp] theorem State.packageAtBell_calm (s : State) (b : BellIn) : (State.packageAtBell s b).calm = s.calm := by
  unfold State.packageAtBell
  repeat' first | (simp; done) | (intro _) | split | (rw [foldl_calm]) | (dsimp only) | (simp_all; done)

@[simp] theorem State.action6_calm (s : State) : (State.action6 s).calm = s.calm := by
  simp [State.action6]

@[simp] theorem State.recastCroft_calm (s : State) (n : Nat) : (State.recastCroft s n).calm = s.calm := by
  unfold State.recastCroft
  repeat' first | (simp; done) | (intro _) | split | (rw [foldl_calm]) | (dsimp only) | (simp_all; done)

@[simp] theorem State.beginRecast_calm (s : State) : (State.beginRecast s).calm = s.calm := by
  simp [State.beginRecast]

@[simp] theorem State.loadAll_calm (s : State) (l : List PatternRef) : (s.loadAll l).1.calm = s.calm := by
  induction l generalizing s with
  | nil => rfl
  | cons r rest ih =>
    unfold State.loadAll
    split
    · rfl
    · simp [ih]

@[simp] theorem State.action7_calm (s : State) : (State.action7 s).calm = s.calm := by
  unfold State.action7
  repeat' first | (simp; done) | (intro _) | split | (rw [foldl_calm]) | (dsimp only) | (simp_all; done)

@[simp] theorem State.action9_calm (s : State) (now : ℕ) : (State.action9 s now).calm = s.calm := by
  simp [State.action9]

@[simp] theorem State.keepLanes_calm (s : State) : (State.keepLanes s).calm = s.calm := by
  simp [State.keepLanes]

@[simp] theorem State.snapshot_calm (s : State) (now : ℕ) (old : List ℕ) : (State.snapshot s now old).calm = s.calm := by
  simp [State.snapshot]

@[simp] theorem State.ringBell_calm (s : State) (now : ℕ) : (State.ringBell s now).calm = s.calm := by
  simp [State.ringBell]

@[simp] theorem State.scheduleBell_calm (s : State) (now : ℕ) : (State.scheduleBell s now).calm = s.calm := by
  simp [State.scheduleBell]

@[simp] theorem State.chargeLeak_calm (s : State) : (State.chargeLeak s).calm = s.calm := by
  simp [State.chargeLeak]

/-- No session, nothing to do for each. -/
theorem State.eachSession_nil (s : State) (f : State → ℕ → State) (h : s.serve.sessions = []) : s.eachSession f = s := by
  simp [State.eachSession, h]

theorem State.sessions_of_calm {s t : State} (h : s.calm = t.calm) : s.serve.sessions = t.serve.sessions := congrArg Prod.fst h

/-- With no session there is nothing held but what released sessions left behind. -/
theorem State.writeHeld_calm (s : State) (now : ℕ) (h : s.serve.sessions = []) : (s.writeHeld now).calm = s.calm := by
  unfold State.writeHeld
  generalize e : (List.range 16).foldl (fun (t : State) w => t.flushOut now w) s = u
  have g : u.calm = s.calm := by
    rw [← e]
    exact foldl_calm _ _ _ fun t w => State.flushOut_calm t now w
  rw [State.eachSession_nil _ _ ((State.sessions_of_calm g).trans h), g]

end Sys2Proof.Machine
end

