-- ==== Sys2Proof/Laws/Seal.lean ====
section
/-!
SUPPORT. What no command but those of chapter 13, a start and the loss of power moves: the queue, the fuses and the burn in progress.
One lemma per operation and command.
-/

set_option linter.unusedTactic false
set_option linter.unreachableTactic false

namespace Sys2Proof.Machine

/-- What no command but a fuse or token command moves: the queue, the fuses and the burn in progress. -/
def State.seal (s : State) : List Instr × Fuses × Option Burn := (s.pending, s.lock.fuses, s.lock.burn)

@[simp] theorem State.seal_mk (a : List Instr) (b : Nat) (c : Clock) (d : Table Word) (e : Package) (f : Table Die) (g : Table Croft)
    (h : Serving) (i : Storage) (j : Stacks) (k : Tally) (l : Table Converter) (m : Links) (n : Lockhouse) (o : Steward) :
    (State.mk a b c d e f g h i j k l m n o).seal = (a, n.fuses, n.burn) := (fun _ => rfl) ()

@[simp] theorem State.seal_fold (s : State) : (s.pending, s.lock.fuses, s.lock.burn) = s.seal := (fun _ => rfl) ()

@[simp] theorem ite_seal {c : Prop} [Decidable c] (a b : State) : (if c then a else b).seal = if c then a.seal else b.seal :=
  apply_ite (fun s : State => s.seal) c a b

@[simp] theorem ite1_seal {c : Prop} [Decidable c] {α : Type} (a b : State × α) :
    (if c then a else b).1.seal = if c then a.1.seal else b.1.seal := apply_ite (fun s : State × α => s.1.seal) c a b

@[simp] theorem foldl_seal {α : Type} (f : State → α → State) (l : List α) (s : State) (h : ∀ t x, (f t x).seal = t.seal) :
    (l.foldl f s).seal = s.seal := by
  induction l generalizing s with
  | nil => rfl
  | cons x l ih => simp [ih, h]

theorem foldl1_seal {α β : Type} (f : State × β → α → State × β) (l : List α) (s : State × β)
    (h : ∀ t x, (f t x).1.seal = t.1.seal) : (l.foldl f s).1.seal = s.1.seal := by
  induction l generalizing s with
  | nil => rfl
  | cons x l ih => simp [ih, h]

theorem foldlO_seal {α β : Type} (f : State × β → α → Option (State × β)) (l : List α) (s : State × β)
    (h : ∀ t x r, f t x = some r → r.1.seal = t.1.seal) {r : State × β}
    (hr : l.foldl (fun (acc : Option (State × β)) x => acc.bind fun a => f a x) (some s) = some r) : r.1.seal = s.1.seal := by
  induction l generalizing s with
  | nil => cases hr; rfl
  | cons x l ih =>
    simp only [List.foldl_cons, Option.bind_some] at hr
    cases hx : f s x with
    | none =>
      rw [hx] at hr
      have hn : ∀ l : List α, l.foldl (fun (acc : Option (State × β)) x => acc.bind fun a => f a x) none = none := fun l => by
        induction l with
        | nil => rfl
        | cons y l ih => simpa using ih
      rw [hn] at hr
      cases hr
    | some u =>
      rw [hx] at hr
      exact (ih u hr).trans (h _ _ _ hx)

@[simp] theorem State.setDie_seal (s : State) (d : ℕ) (x : Die) : (State.setDie s d x).seal = s.seal := by
  simp [State.setDie]

@[simp] theorem State.modDie_seal (s : State) (d : ℕ) (f : Die → Die) : (State.modDie s d f).seal = s.seal := by
  simp [State.modDie]

@[simp] theorem State.setCroft_seal (s : State) (n : ℕ) (x : Croft) : (State.setCroft s n x).seal = s.seal := by
  simp [State.setCroft]

@[simp] theorem State.modCroft_seal (s : State) (n : ℕ) (f : Croft → Croft) : (State.modCroft s n f).seal = s.seal := by
  simp [State.modCroft]

@[simp] theorem State.modMould_seal (s : State) (c : ℕ) (m : ℕ) (f : Mould → Mould) : (State.modMould s c m f).seal = s.seal := by
  simp [State.modMould]

@[simp] theorem State.setWin_seal (s : State) (w : ℕ) (x : Window) : (State.setWin s w x).seal = s.seal := by
  simp [State.setWin]

@[simp] theorem State.modWin_seal (s : State) (w : ℕ) (f : Window → Window) : (State.modWin s w f).seal = s.seal := by
  simp [State.modWin]

@[simp] theorem State.setSess_seal (s : State) (x : ℕ) (v : Session) : (State.setSess s x v).seal = s.seal := by
  simp [State.setSess]

@[simp] theorem State.modSess_seal (s : State) (x : ℕ) (f : Session → Session) : (State.modSess s x f).seal = s.seal := by
  simp [State.modSess]

@[simp] theorem State.modTenant_seal (s : State) (t : ℕ) (f : Tenant → Tenant) : (State.modTenant s t f).seal = s.seal := by
  simp [State.modTenant]

@[simp] theorem State.modHub_seal (s : State) (h : ℕ) (f : HubAttn → HubAttn) : (State.modHub s h f).seal = s.seal := by
  simp [State.modHub]

@[simp] theorem State.modStack_seal (s : State) (k : ℕ) (f : StackSt → StackSt) : (State.modStack s k f).seal = s.seal := by
  simp [State.modStack]

@[simp] theorem State.modConv_seal (s : State) (n : ℕ) (f : Converter → Converter) : (State.modConv s n f).seal = s.seal := by
  simp [State.modConv]

@[simp] theorem State.modPort_seal (s : State) (p : ℕ) (f : Port → Port) : (State.modPort s p f).seal = s.seal := by
  simp [State.modPort]

@[simp] theorem State.modUmod_seal (s : State) (n : ℕ) (f : UModule → UModule) : (State.modUmod s n f).seal = s.seal := by
  simp [State.modUmod]

@[simp] theorem State.advanceTo_seal (s : State) (t : ℕ) : (State.advanceTo s t).seal = s.seal := by
  simp [State.advanceTo]

@[simp] theorem State.tick_seal (s : State) : (State.tick s).seal = s.seal := by
  simp [State.tick]

@[simp] theorem State.setAct_seal (s : State) (n a : Nat) (b : Byte) : (State.setAct s n a b).seal = s.seal := by
  unfold State.setAct
  repeat' first | (simp; done) | (intro _) | split | (rw [foldl_seal]) | (dsimp only) | (simp_all; done)

@[simp] theorem State.modStep_seal (s : State) (id : ℕ) (f : Step → Step) : (State.modStep s id f).seal = s.seal := by
  simp [State.modStep]

@[simp] theorem State.mapSteps_seal (s : State) (f : Step → Step) : (State.mapSteps s f).seal = s.seal := by
  simp [State.mapSteps]

@[simp] theorem State.mapImages_seal (s : State) (f : AdapterRec → AdapterRec) : (State.mapImages s f).seal = s.seal := by
  simp [State.mapImages]

@[simp] theorem State.markStep_seal (s : State) (id : ℕ) (c : Cause) : (State.markStep s id c).seal = s.seal := by
  simp [State.markStep]

@[simp] theorem State.failStep_seal (s : State) (id : ℕ) (c : Code) : (State.failStep s id c).seal = s.seal := by
  simp [State.failStep]

@[simp] theorem State.setReg_seal (s : State) (p : Page) (off : ℕ) (v : Word) : (State.setReg s p off v).seal = s.seal := by
  simp [State.setReg]

@[simp] theorem State.storeFields_seal (s : State) (p : Page) (off : ℕ) (v : Word) : (State.storeFields s p off v).seal = s.seal := by
  unfold State.storeFields
  repeat' first | (simp; done) | (intro _) | split | (rw [foldl_seal]) | (dsimp only) | (simp_all; done)

@[simp] theorem State.bump_seal (s : State) (p : Page) (off : ℕ) (n : ℕ) : (State.bump s p off n).seal = s.seal := by
  simp [State.bump]

@[simp] theorem State.raiseIntr_seal (s : State) (id : ℕ) : (State.raiseIntr s id).seal = s.seal := by
  simp [State.raiseIntr]

@[simp] theorem State.logError_seal (s : State) (p : Page) (c : Code) (addr : ℕ) (kind : ℕ) (index : ℕ) (reg : optParam Bool false) : (State.logError s p c addr kind index reg).seal = s.seal := by
  simp [State.logError]

@[simp] theorem State.logEvent_seal (s : State) (p : Page) (c : Code) (addr : ℕ) : (State.logEvent s p c addr).seal = s.seal := by
  simp [State.logEvent]

@[simp] theorem State.logAccess_seal (s : State) (p : Page) (c : Code) (addr : ℕ) (m : ℕ) : (State.logAccess s p c addr m).seal = s.seal := by
  simp [State.logAccess]

@[simp] theorem State.clearError_seal (s : State) (p : Page) : (State.clearError s p).seal = s.seal := by
  simp [State.clearError]

@[simp] theorem State.bumpCroft_seal (s : State) (n : ℕ) (off : ℕ) (k : optParam ℕ 1) : (State.bumpCroft s n off k).seal = s.seal := by
  simp [State.bumpCroft]

@[simp] theorem State.renewKey_seal (s : State) (key : ℕ) : (State.renewKey s key).seal = s.seal := by
  simp [State.renewKey]

@[simp] theorem State.markUnclean_seal (s : State) (p : ℕ) : (State.markUnclean s p).seal = s.seal := by
  simp [State.markUnclean]

@[simp] theorem State.setLineCode_seal (s : State) (l : ℕ) (c : LineCode) : (State.setLineCode s l c).seal = s.seal := by
  simp [State.setLineCode]

@[simp] theorem State.listRow_seal (s : State) (l : ℕ) : (State.listRow s l).seal = s.seal := by
  simp [State.listRow]

@[simp] theorem State.poisonLine_seal (s : State) (l : ℕ) : (State.poisonLine s l).seal = s.seal := by
  simp [State.poisonLine]

@[simp] theorem State.readLine_seal (s : State) (l : ℕ) (key : ℕ) : (State.readLine s l key).1.seal = s.seal := by
  unfold State.readLine
  repeat' first | (simp; done) | (intro _) | split | (rw [foldl_seal]) | (dsimp only) | (simp_all; done)

@[simp] theorem State.writeLine_seal (s : State) (l : ℕ) (key : ℕ) (bytes : List (BitVec 8)) (poison : Bool) : (State.writeLine s l key bytes poison).seal = s.seal := by
  simp [State.writeLine]

@[simp] theorem State.writePart_seal (s : State) (l : ℕ) (o : ℕ) (key : ℕ) (bytes : List (BitVec 8)) : (State.writePart s l o key bytes).seal = s.seal := by
  unfold State.writePart
  repeat' first | (simp; done) | (intro _) | split | (rw [foldl_seal]) | (dsimp only) | (simp_all; done)

@[simp] theorem State.readBytes_seal (s : State) (a n key : ℕ) : (s.readBytes a n key).1.seal = s.seal := by
  unfold State.readBytes
  exact foldl1_seal _ _ _ (fun t x => by simp)

@[simp] theorem State.writeBytes_seal (s : State) (a : ℕ) (key : ℕ) (bytes : List (BitVec 8)) : (State.writeBytes s a key bytes).seal = s.seal := by
  simp [State.writeBytes]

@[simp] theorem State.writePages_seal (s : State) (pages : List Nat) (key : Nat) (bytes : List (BitVec 8)) : (State.writePages s pages key bytes).seal = s.seal := by
  unfold State.writePages
  repeat' first | (simp; done) | (intro _) | split | (rw [foldl_seal]) | (dsimp only) | (simp_all; done)

@[simp] theorem State.readPages_seal (s : State) (pages : List Nat) (key : Nat) : (State.readPages s pages key).1.seal = s.seal :=
  foldl1_seal _ _ _ (fun _ _ => by simp)

@[simp] theorem State.blankPage_seal (s : State) (p : ℕ) : (State.blankPage s p).seal = s.seal := by
  simp [State.blankPage]

@[simp] theorem State.writeFirmware_seal (s : State) (o : Nat) (bytes : List (BitVec 8)) : (State.writeFirmware s o bytes).seal = s.seal := by
  unfold State.writeFirmware
  repeat' first | (simp; done) | (intro _) | split | (rw [foldl_seal]) | (dsimp only) | (simp_all; done)

@[simp] theorem State.allocPage_seal (s : State) (h : ℕ) : (State.allocPage s h).1.seal = s.seal := by
  unfold State.allocPage
  repeat' first | (simp; done) | (intro _) | split | (rw [foldl_seal]) | (dsimp only) | (simp_all; done)

@[simp] theorem State.addRef_seal (s : State) (p : ℕ) : (State.addRef s p).seal = s.seal := by
  simp [State.addRef]

@[simp] theorem State.dropRef_seal (s : State) (p : ℕ) : (State.dropRef s p).seal = s.seal := by
  simp [State.dropRef]

@[simp] theorem State.dropRefs_seal (s : State) (ps : List ℕ) : (State.dropRefs s ps).seal = s.seal := by
  simp [State.dropRefs]

theorem State.allocPages_seal (s : State) (h n : ℕ) {r} (hr : s.allocPages h n = some r) : r.1.seal = s.seal := by
  refine foldlO_seal _ _ (s, []) (fun t x r hx => ?_) hr
  have h2 := State.allocPage_seal t.1 h
  split at hx <;> simp_all
  rw [← hx]; exact h2

@[simp] theorem State.degrade_seal (s : State) (d : ℕ) : (State.degrade s d).seal = s.seal := by
  simp [State.degrade]

@[simp] theorem State.fenceOnly_seal (s : State) (n : Nat) : (State.fenceOnly s n).seal = s.seal := by
  unfold State.fenceOnly
  repeat' first | (simp; done) | (intro _) | split | (rw [foldl_seal]) | (dsimp only) | (simp_all; done)

@[simp] theorem State.takeCoordinate_seal (s : State) (n col : Nat) : (State.takeCoordinate s n col).seal = s.seal := by
  unfold State.takeCoordinate
  repeat' first | (simp; done) | (intro _) | split | (rw [foldl_seal]) | (dsimp only) | (simp_all; done)

@[simp] theorem State.fence_seal (s : State) (n : ℕ) : (State.fence s n).seal = s.seal := by
  unfold State.fence
  repeat' first | (simp; done) | (intro _) | split | (rw [foldl_seal]) | (dsimp only) | (simp_all; done)

@[simp] theorem State.routerFault_seal (s : State) (n : ℕ) : (State.routerFault s n).seal = s.seal := by
  simp [State.routerFault]

@[simp] theorem State.gatherMark_seal (s : State) (n step : Nat) (c : Cause) : (State.gatherMark s n step c).seal = s.seal := by
  unfold State.gatherMark
  repeat' first | (simp; done) | (intro _) | split | (rw [foldl_seal]) | (dsimp only) | (simp_all; done)

@[simp] theorem State.startProbe_seal (s : State) (n : ℕ) (m : ℕ) (step : Option ℕ) : (State.startProbe s n m step).seal = s.seal := by
  simp [State.startProbe]

@[simp] theorem State.markSuspect_seal (s : State) (step : ℕ) (n : ℕ) (m : Option ℕ) : (State.markSuspect s step n m).seal = s.seal := by
  unfold State.markSuspect
  repeat' first | (simp; done) | (intro _) | split | (rw [foldl_seal]) | (dsimp only) | (simp_all; done)

@[simp] theorem State.markDie_seal (s : State) (d : ℕ) (c : Cause) : (State.markDie s d c).seal = s.seal := by
  simp [State.markDie]

@[simp] theorem State.mapReserve_seal (s : State) (n : ℕ) (slot : ℕ) : (State.mapReserve s n slot).seal = s.seal := by
  unfold State.mapReserve
  repeat' first | (simp; done) | (intro _) | split | (rw [foldl_seal]) | (dsimp only) | (simp_all; done)

@[simp] theorem State.holdSlot_seal (s : State) (n : ℕ) (slot : ℕ) : (State.holdSlot s n slot).seal = s.seal := by
  simp [State.holdSlot]

@[simp] theorem State.dropWindow_seal (s : State) (n slot : Nat) : (State.dropWindow s n slot).seal = s.seal := by
  unfold State.dropWindow
  repeat' first | (simp; done) | (intro _) | split | (rw [foldl_seal]) | (dsimp only) | (simp_all; done)

@[simp] theorem State.leaveService_seal (s : State) (n : ℕ) (slot : ℕ) (retired : Bool) : (State.leaveService s n slot retired).seal = s.seal := by
  unfold State.leaveService
  repeat' first | (simp; done) | (intro _) | split | (rw [foldl_seal]) | (dsimp only) | (simp_all; done)

@[simp] theorem State.spendMould_seal (s : State) (n : ℕ) (m : ℕ) (st : MouldState) : (State.spendMould s n m st).seal = s.seal := by
  unfold State.spendMould
  repeat' first | (simp; done) | (intro _) | split | (rw [foldl_seal]) | (dsimp only) | (simp_all; done)

@[simp] theorem State.openCast_seal (s : State) (n : ℕ) (m : ℕ) (gen : ℕ) : (State.openCast s n m gen).seal = s.seal := by
  simp [State.openCast]

@[simp] theorem State.openSpareCast_seal (s : State) (n : ℕ) (m : ℕ) (spares : List ℕ) : (State.openSpareCast s n m spares).seal = s.seal := by
  simp [State.openSpareCast]

@[simp] theorem State.wantSpares_seal (s : State) (n : ℕ) (m : ℕ) (spares : List ℕ) : (State.wantSpares s n m spares).seal = s.seal := by
  simp [State.wantSpares]

@[simp] theorem State.noteCast_seal (s : State) (n m : Nat) : (State.noteCast s n m).seal = s.seal := by
  unfold State.noteCast
  repeat' first | (simp; done) | (intro _) | split | (rw [foldl_seal]) | (dsimp only) | (simp_all; done)

@[simp] theorem State.noteCasts_seal (s : State) : (State.noteCasts s).seal = s.seal := by
  unfold State.noteCasts
  repeat' first | (simp; done) | (intro _) | split | (rw [foldl_seal]) | (dsimp only) | (simp_all; done)

@[simp] theorem State.abandonCast_seal (s : State) (n m : Nat) : (State.abandonCast s n m).seal = s.seal := by
  unfold State.abandonCast
  repeat' first | (simp; done) | (intro _) | split | (rw [foldl_seal]) | (dsimp only) | (simp_all; done)

@[simp] theorem State.stopCasts_seal (s : State) : (State.stopCasts s).seal = s.seal := by
  simp [State.stopCasts]

@[simp] theorem State.send_seal (s : State) (m : OutMsg) : (State.send s m).seal = s.seal := by
  simp [State.send]

@[simp] theorem State.depart_seal (s : State) (m : OutMsg) : (State.depart s m).seal = s.seal := by
  unfold State.depart
  repeat' first | (simp; done) | (intro _) | split | (rw [foldl_seal]) | (dsimp only) | (simp_all; done)

@[simp] theorem State.readRemote_seal (s : State) (package : ℕ) (storeEpoch : ℕ) (page : ℕ) (first : ℕ) (len : ℕ) (dest : ℕ) (context : ℕ) : (State.readRemote s package storeEpoch page first len dest context).seal = s.seal := by
  simp [State.readRemote]

@[simp] theorem State.fetchSlots_seal (s : State) (x package storeEpoch src dest slots : Nat) : (State.fetchSlots s x package storeEpoch src dest slots).seal = s.seal := by
  unfold State.fetchSlots
  repeat' first | (simp; done) | (intro _) | split | (rw [foldl_seal]) | (dsimp only) | (simp_all; done)

@[simp] theorem State.enterPte_seal (s : State) (x i : Nat) (e : Pte) : (State.enterPte s x i e).seal = s.seal := by
  unfold State.enterPte
  repeat' first | (simp; done) | (intro _) | split | (rw [foldl_seal]) | (dsimp only) | (simp_all; done)

@[simp] theorem State.enterTables_seal (s : State) (x : Nat) (l : List (Nat × Nat)) : (State.enterTables s x l).seal = s.seal := by
  unfold State.enterTables
  repeat' first | (simp; done) | (intro _) | split | (rw [foldl_seal]) | (dsimp only) | (simp_all; done)

@[simp] theorem State.newKvPage_seal (s : State) (x layer head : ℕ) : (s.newKvPage x layer head).1.seal = s.seal := by
  unfold State.newKvPage
  have h2 := State.allocPage_seal s (s.ownerHub x)
  dsimp only
  split <;> simp_all

@[simp] theorem State.pageForWrite_seal (s : State) (x layer head pos : Nat) : (State.pageForWrite s x layer head pos).1.seal = s.seal := by
  have fresh (i : ℕ) (count : Bool) : (match s.newKvPage x layer head with
      | (u, none) => (u, none)
      | (u, some p) =>
        let v := (match (s.sess x).pte i with
          | .page q => u.dropRef q
          | _ => u).enterPte x i (.page p)
        ((if count then v.bump (.kvmap (v.ownerHub x)) 0x120 1 else v, some p) : State × Option ℕ)).1.seal = s.seal := by
    have h := State.newKvPage_seal s x layer head
    split
    · simp_all
    · rename_i u p hu
      rw [hu] at h
      dsimp only at h ⊢
      split <;> split <;> simp [h]
  unfold State.pageForWrite
  dsimp only
  split
  · split
    · exact fresh _ _
    · rfl
  · exact fresh _ _
  · exact fresh _ _

@[simp] theorem State.writeKv_seal (s : State) (x layer : ℕ) (k : NewKV) : (s.writeKv x layer k).seal = s.seal := by
  unfold State.writeKv
  have h2 := State.pageForWrite_seal s x layer k.head k.position
  split <;> simp_all

theorem State.reservePages_seal (s : State) (x first n : ℕ) {r} (hr : s.reservePages x first n = some r) : r.1.seal = s.seal := by
  unfold State.reservePages at hr
  dsimp only at hr
  split at hr
  · cases hr
  · rw [Option.bind_eq_some_iff] at hr
    obtain ⟨a, ha, hr⟩ := hr
    have h1 := State.allocPages_seal _ _ _ ha
    refine (foldlO_seal _ _ _ (fun t e r hx => ?_) hr).trans (by simpa using h1)
    have h2 := State.newKvPage_seal t.1 x e.1 e.2.1
    split at hx <;> simp_all
    rw [← hx]; simpa using h2

@[simp] theorem State.freeRolledBack_seal (s : State) (x : Nat) (due : List Nat) : (State.freeRolledBack s x due).seal = s.seal := by
  unfold State.freeRolledBack
  repeat' first | (simp; done) | (intro _) | split | (rw [foldl_seal]) | (dsimp only) | (simp_all; done)

@[simp] theorem State.freeBelowFloor_seal (s : State) (x floor : Nat) : (State.freeBelowFloor s x floor).seal = s.seal := by
  unfold State.freeBelowFloor
  repeat' first | (simp; done) | (intro _) | split | (rw [foldl_seal]) | (dsimp only) | (simp_all; done)

@[simp] theorem State.dropSessionPages_seal (s : State) (x : ℕ) : (State.dropSessionPages s x).seal = s.seal := by
  simp [State.dropSessionPages]

@[simp] theorem State.setNode_seal (s : State) (i : Nat) (n : Node) : (State.setNode s i n).seal = s.seal := by
  unfold State.setNode
  repeat' first | (simp; done) | (intro _) | split | (rw [foldl_seal]) | (dsimp only) | (simp_all; done)

@[simp] theorem State.modNode_seal (s : State) (i : Nat) (f : Node → Node) : (State.modNode s i f).seal = s.seal := by
  unfold State.modNode
  repeat' first | (simp; done) | (intro _) | split | (rw [foldl_seal]) | (dsimp only) | (simp_all; done)

theorem execCommonsLookup_seal (context : ℕ) (s : State) {post : State}
    (h : execCommonsLookup context s = .next post) : post.seal = s.seal := by
  unfold execCommonsLookup at h
  repeat' first | split at h | (dsimp only at h)
  all_goals first
    | (have h := Host.Outcome.next.inj h; rw [← h]; done)
    | (have h := Host.Outcome.next.inj h; rw [← h]; simp; done)
    | (have h := Host.Outcome.next.inj h; rw [← h]; repeat' first | (simp; done) | split | (dsimp only) | (intro _) | (rw [foldl_seal]))
    | cases h

@[simp] theorem State.copyPage_seal (s : State) (src : ℕ) (dst : ℕ) (slots : ℕ) (srcKey : ℕ) (dstKey : ℕ) (kv8 : Bool) : (State.copyPage s src dst slots srcKey dstKey kv8).seal = s.seal := by
  simp [State.copyPage]

@[simp] theorem State.sharePage_seal (s : State) (x layer head p : ℕ) : (s.sharePage x layer head p).1.seal = s.seal := by
  unfold State.sharePage
  have h := State.newKvPage_seal s x layer head
  split
  · simp
  · split <;> simp_all

@[simp] theorem State.dropPrefix_seal (s : State) (i : ℕ) : (State.dropPrefix s i).seal = s.seal := by
  unfold State.dropPrefix
  repeat' first | (simp; done) | (intro _) | split | (rw [foldl_seal]) | (dsimp only) | (simp_all; done)

@[simp] theorem State.linkNode_seal (s : State) (i : Nat) (n : Node) : (State.linkNode s i n).seal = s.seal := by
  unfold State.linkNode
  repeat' first | (simp; done) | (intro _) | split | (rw [foldl_seal]) | (dsimp only) | (simp_all; done)

@[simp] theorem State.unlinkNode_seal (s : State) (i : Nat) (n : Node) : (State.unlinkNode s i n).seal = s.seal := by
  unfold State.unlinkNode
  repeat' first | (simp; done) | (intro _) | split | (rw [foldl_seal]) | (dsimp only) | (simp_all; done)

@[simp] theorem State.evictNode_seal (s : State) (i : ℕ) : (State.evictNode s i).seal = s.seal := by
  unfold State.evictNode
  repeat' first | (simp; done) | (intro _) | split | (rw [foldl_seal]) | (dsimp only) | (simp_all; done)

theorem execCommonsEvict_seal (s : State) {post : State}
    (h : execCommonsEvict s = .next post) : post.seal = s.seal := by
  unfold execCommonsEvict at h
  repeat' first | split at h | (dsimp only at h)
  all_goals first
    | (have h := Host.Outcome.next.inj h; rw [← h]; done)
    | (have h := Host.Outcome.next.inj h; rw [← h]; simp; done)
    | (have h := Host.Outcome.next.inj h; rw [← h]; repeat' first | (simp; done) | split | (dsimp only) | (intro _) | (rw [foldl_seal]))
    | cases h

@[simp] theorem State.evictPoisoned_seal (s : State) (page : ℕ) : (State.evictPoisoned s page).seal = s.seal := by
  unfold State.evictPoisoned
  repeat' first | (simp; done) | (intro _) | split | (rw [foldl_seal]) | (dsimp only) | (simp_all; done)

@[simp] theorem State.adoptPrefix_seal (s : State) (x node p : ℕ) : (s.adoptPrefix x node p).seal = s.seal := by
  unfold State.adoptPrefix
  dsimp only
  split
  · rfl
  · rw [State.modSess_seal, foldl_seal _ _ _ (fun t q => by simp), foldl_seal]
    intro u lh
    have share (v : State) (q i : ℕ) : (match v.sharePage x lh.1 lh.2 q with
        | (z, some r) => z.enterPte x i (.page r)
        | (z, none) => z).seal = v.seal := by
      have h := State.sharePage_seal v x lh.1 lh.2 q
      split <;> rename_i hz <;> rw [hz] at h <;> simpa using h
    have whole (f : ℕ → Pte) (g : ℕ → ℕ) (l : List ℕ) : (l.foldl (fun (v : State) e =>
        match f e with
        | .page q => match v.sharePage x lh.1 lh.2 q with
          | (z, some r) => z.enterPte x (g e) (.page r)
          | (z, none) => z
        | .remote k ep q => v.enterPte x (g e) (.remote k ep q)
        | _ => v) u).seal = u.seal := by
      refine foldl_seal _ l u fun v e => ?_
      split
      · exact share v _ _
      · simp
      · rfl
    split
    · exact whole _ _ _
    · split
      · split <;> rename_i hz
        all_goals
          have h := congrArg (fun (r : State × Option ℕ) => r.1.seal) hz
          simp only [State.newKvPage_seal] at h
          try rw [State.enterPte_seal, State.copyPage_seal]
          exact h.symm.trans (whole _ _ _)
      · split <;> rename_i hz
        all_goals
          have h := congrArg (fun (r : State × Option ℕ) => r.1.seal) hz
          simp only [State.newKvPage_seal] at h
          try rw [State.enterPte_seal, State.fetchSlots_seal]
          exact h.symm.trans (whole _ _ _)
      · exact whole _ _ _

@[simp] theorem State.makeRoom_seal (s : State) (n : ℕ) : (State.makeRoom s n).seal = s.seal := by
  unfold State.makeRoom
  repeat' first | (simp; done) | (intro _) | split | (rw [foldl_seal]) | (dsimp only) | (simp_all; done)

theorem foldlI_seal {α β : Type} (s : State) (f : Option (State × β) → α → Option (State × β)) (l : List α) (a : Option (State × β))
    (ha : ∀ r, a = some r → r.1.seal = s.seal)
    (h : ∀ b x, (∀ r, b = some r → r.1.seal = s.seal) → ∀ r, f b x = some r → r.1.seal = s.seal) :
    ∀ r, l.foldl f a = some r → r.1.seal = s.seal := by
  induction l generalizing a with
  | nil => exact ha
  | cons x l ih => exact ih _ (h a x ha)

theorem State.prefixEntries_seal (s : State) (x len : ℕ) {r} (hr : s.prefixEntries x len = some r) : r.1.seal = s.seal := by
  have hadd (acc : Option (State × List ((ℕ × ℕ) × Pte))) (k : ℕ × ℕ) (f : State → State × Option Pte)
      (hf : ∀ z, (f z).1.seal = z.seal) (ha : ∀ r, acc = some r → r.1.seal = s.seal) (r)
      (h : (acc.bind fun a => match f a.1 with
        | (z, some e) => some (z, a.2 ++ [(k, e)])
        | (_, none) => none) = some r) : r.1.seal = s.seal := by
    rw [Option.bind_eq_some_iff] at h
    obtain ⟨a, h1, h2⟩ := h
    have h3 := hf a.1
    split at h2
    · simp_all
      rw [← h2, h3]
    · cases h2
  refine foldlI_seal s _ _ _ (fun r h => by cases h; rfl) (fun b lh hb => ?_) r hr
  · have hw := foldlI_seal s (fun (acc : Option (State × List ((ℕ × ℕ) × Pte))) e =>
        match (s.sess x).pte (s.blockIndex x lh.1 lh.2 e) with
        | .page p => acc.bind fun a => match (((a.1.sharePage x lh.1 lh.2 p).1, (a.1.sharePage x lh.1 lh.2 p).2.map Pte.page) : State × Option Pte) with
          | (z, some w) => some (z, a.2 ++ [((lh.1 * (s.sessShape x).kvHeads + lh.2, e), w)])
          | (_, none) => none
        | .remote k ep p => acc.bind fun a => match ((a.1, some (Pte.remote k ep p)) : State × Option Pte) with
          | (z, some w) => some (z, a.2 ++ [((lh.1 * (s.sessShape x).kvHeads + lh.2, e), w)])
          | (_, none) => none
        | _ => acc) (wholeBlocks ((s.sessShape x).windowOf lh.1) (slotsPerPage (s.sess x).kv8) len (s.sess x).committed) b hb (fun c e hc => by
      dsimp only
      split
      · exact hadd c _ (fun z => ((z.sharePage x lh.1 lh.2 _).1, (z.sharePage x lh.1 lh.2 _).2.map .page)) (fun z => by simp) hc
      · exact hadd c _ (fun z => (z, some _)) (fun _ => rfl) hc
      · exact hc)
    intro r h
    dsimp only at h
    split at h
    · exact hw r h
    · split at h
      · refine hadd _ _ (fun z => match z.newKvPage x lh.1 lh.2 with
          | (u, some p) => (u.copyPage _ p (len % slotsPerPage (s.sess x).kv8) (s.sess x).kvKey (s.sess x).kvKey (s.sess x).kv8, some (Pte.page p))
          | (u, none) => (u, none)) (fun z => ?_) hw r h
        have h4 := State.newKvPage_seal z x lh.1 lh.2
        split <;> simp_all
      · cases h
      · exact hw r h

@[simp] theorem State.insertPrefix_seal (s : State) (x tag : ℕ) : (s.insertPrefix x tag).seal = s.seal := by
  unfold State.insertPrefix
  dsimp only
  split
  · simp
  · split
    · rfl
    · split
      · simp
      · split
        · simp
        · rename_i r hr
          have h := State.prefixEntries_seal _ _ _ hr
          rw [foldl_seal _ _ _ (fun t q => by simp), State.bump_seal, foldl1_seal]
          · simpa using h
          · intro a i
            dsimp only
            split <;> simp

@[simp] theorem State.countStale_seal (s : State) (n : ℕ) (step : ℕ) : (State.countStale s n step).seal = s.seal := by
  simp [State.countStale]

@[simp] theorem State.spend_seal (s : State) (fj : ℕ) : (State.spend s fj).seal = s.seal := by
  simp [State.spend]

@[simp] theorem State.countSkips_seal (s : State) (n : ℕ) (ws : List Witness) : (State.countSkips s n ws).seal = s.seal := by
  simp [State.countSkips]

@[simp] theorem State.afterPass_seal (s : State) (n slot m step : Nat) (p : PassOut) : (State.afterPass s n slot m step p).seal = s.seal := by
  unfold State.afterPass
  repeat' first | (simp; done) | (intro _) | split | (rw [foldl_seal]) | (dsimp only) | (simp_all; done)

@[simp] theorem State.zeroWindow_seal (s : State) (n : ℕ) (slot : ℕ) (step : ℕ) : (State.zeroWindow s n slot step).seal = s.seal := by
  unfold State.zeroWindow
  repeat' first | (simp; done) | (intro _) | split | (rw [foldl_seal]) | (dsimp only) | (simp_all; done)

@[simp] theorem State.countHistogram_seal (s : State) (n slot : Nat) (hot : List (Nat × Nat)) (res : List (Nat × Int)) : (State.countHistogram s n slot hot res).seal = s.seal := by
  unfold State.countHistogram
  repeat' first | (simp; done) | (intro _) | split | (rw [foldl_seal]) | (dsimp only) | (simp_all; done)

@[simp] theorem State.openWindow_seal (s : State) (w : WindowIn) (m : Nat) : (State.openWindow s w m).seal = s.seal := by
  unfold State.openWindow
  repeat' first | (simp; done) | (intro _) | split | (rw [foldl_seal]) | (dsimp only) | (simp_all; done)

theorem execForwardWindow_seal (w : WindowIn) (s : State) {post : State}
    (h : execForwardWindow w s = .next post) : post.seal = s.seal := by
  unfold execForwardWindow at h
  repeat' first | split at h | (dsimp only at h)
  all_goals first
    | (have h := Host.Outcome.next.inj h; rw [← h]; done)
    | (have h := Host.Outcome.next.inj h; rw [← h]; simp; done)
    | (have h := Host.Outcome.next.inj h; rw [← h]; repeat' first | (simp; done) | split | (dsimp only) | (intro _) | (rw [foldl_seal]))
    | cases h

theorem execWindowDelivery_seal (croft : CroftAt) (mould : LogMould) (s : State) {post : State}
    (h : execWindowDelivery croft mould s = .next post) : post.seal = s.seal := by
  unfold execWindowDelivery at h
  repeat' first | split at h | (dsimp only at h)
  all_goals first
    | (have h := Host.Outcome.next.inj h; rw [← h]; done)
    | (have h := Host.Outcome.next.inj h; rw [← h]; simp; done)
    | (have h := Host.Outcome.next.inj h; rw [← h]; repeat' first | (simp; done) | split | (dsimp only) | (intro _) | (rw [foldl_seal]))
    | cases h

@[simp] theorem State.accAdd_seal (s : State) (n a : Nat) (v : Int) (mark : Bool) : (State.accAdd s n a v mark).seal = s.seal := by
  unfold State.accAdd
  repeat' first | (simp; done) | (intro _) | split | (rw [foldl_seal]) | (dsimp only) | (simp_all; done)

@[simp] theorem State.noteSpan_seal (s : State) (n : Nat) (p : PromotionIn) : (State.noteSpan s n p).seal = s.seal := by
  unfold State.noteSpan
  repeat' first | (simp; done) | (intro _) | split | (rw [foldl_seal]) | (dsimp only) | (simp_all; done)

@[simp] theorem State.promoteRun_seal (s : State) (n : Nat) (p : PromotionIn) : (State.promoteRun s n p).seal = s.seal := by
  unfold State.promoteRun
  repeat' first | (simp; done) | (intro _) | split | (rw [foldl_seal]) | (dsimp only) | (simp_all; done)

@[simp] theorem State.accClear_seal (s : State) (n a : Nat) : (State.accClear s n a).seal = s.seal := by
  unfold State.accClear
  repeat' first | (simp; done) | (intro _) | split | (rw [foldl_seal]) | (dsimp only) | (simp_all; done)

@[simp] theorem State.addPartials_seal (s : State) (n acc : Nat) (ps : List PartialSum) : (State.addPartials s n acc ps).seal = s.seal := by
  unfold State.addPartials
  repeat' first | (simp; done) | (intro _) | split | (rw [foldl_seal]) | (dsimp only) | (simp_all; done)

@[simp] theorem State.addProducts_seal (s : State) (n acc : Nat) (ts : List D8Term) : (State.addProducts s n acc ts).seal = s.seal := by
  unfold State.addProducts
  repeat' first | (simp; done) | (intro _) | split | (rw [foldl_seal]) | (dsimp only) | (simp_all; done)

@[simp] theorem State.stage_seal (s : State) (n : Nat) (g : StageIn) : (State.stage s n g).seal = s.seal := by
  unfold State.stage
  repeat' first | (simp; done) | (intro _) | split | (rw [foldl_seal]) | (dsimp only) | (simp_all; done)

@[simp] theorem State.rescale_seal (s : State) (n : Nat) (p : PromotionIn) (r : RescaleIn) : (State.rescale s n p r).seal = s.seal := by
  unfold State.rescale
  repeat' first | (simp; done) | (intro _) | split | (rw [foldl_seal]) | (dsimp only) | (simp_all; done)

@[simp] theorem State.embed_seal (s : State) (n acc : Nat) (e : EmbedIn) : (State.embed s n acc e).seal = s.seal := by
  unfold State.embed
  repeat' first | (simp; done) | (intro _) | split | (rw [foldl_seal]) | (dsimp only) | (simp_all; done)

@[simp] theorem State.addGradients_seal (s : State) (n : Nat) (g : GradientIn) : (State.addGradients s n g).seal = s.seal := by
  unfold State.addGradients
  repeat' first | (simp; done) | (intro _) | split | (rw [foldl_seal]) | (dsimp only) | (simp_all; done)

theorem execRunPromotion_seal (p : PromotionIn) (s : State) {post : State}
    (h : execRunPromotion p s = .next post) : post.seal = s.seal := by
  unfold execRunPromotion at h
  repeat' first | split at h | (dsimp only at h)
  all_goals first
    | (have h := Host.Outcome.next.inj h; rw [← h]; done)
    | (have h := Host.Outcome.next.inj h; rw [← h]; simp; done)
    | (have h := Host.Outcome.next.inj h; rw [← h]; repeat' first | (simp; done) | split | (dsimp only) | (intro _) | (rw [foldl_seal]))
    | cases h

@[simp] theorem State.zeroRows_seal (s : State) (n slot : Nat) : (State.zeroRows s n slot).seal = s.seal := by
  unfold State.zeroRows
  repeat' first | (simp; done) | (intro _) | split | (rw [foldl_seal]) | (dsimp only) | (simp_all; done)

@[simp] theorem State.openTransposed_seal (s : State) (t : TransposedIn) (m : Nat) : (State.openTransposed s t m).seal = s.seal := by
  unfold State.openTransposed
  repeat' first | (simp; done) | (intro _) | split | (rw [foldl_seal]) | (dsimp only) | (simp_all; done)

theorem execTransposedWindow_seal (t : TransposedIn) (s : State) {post : State}
    (h : execTransposedWindow t s = .next post) : post.seal = s.seal := by
  unfold execTransposedWindow at h
  repeat' first | split at h | (dsimp only at h)
  all_goals first
    | (have h := Host.Outcome.next.inj h; rw [← h]; done)
    | (have h := Host.Outcome.next.inj h; rw [← h]; simp; done)
    | (have h := Host.Outcome.next.inj h; rw [← h]; repeat' first | (simp; done) | split | (dsimp only) | (intro _) | (rw [foldl_seal]))
    | cases h

@[simp] theorem State.seedCroft_seal (s : State) (j : Job) (n : ℕ) : (State.seedCroft s j n).seal = s.seal := by
  simp [State.seedCroft]

@[simp] theorem updateOne_seal (a : State × Job) (i : UpdateItem) : (updateOne a i).1.seal = a.1.seal := by simp [updateOne]

theorem execMicroBatchUpdate_seal (context : ℕ) (items : List UpdateItem) (nextOffset : ℕ) (s : State) {post : State}
    (h : execMicroBatchUpdate context items nextOffset s = .next post) : post.seal = s.seal := by
  have h1 : ∀ j, (clearSums items (items.foldl updateOne (s, j))).1.seal = s.seal := fun j => by
    unfold clearSums
    first
      | (rw [foldl1_seal, foldl1_seal] <;> intro _ _ <;> simp <;> done)
      | (simp; rw [foldl1_seal]; intro _ _; simp)
  unfold execMicroBatchUpdate at h
  repeat' first | split at h | (dsimp only at h)
  all_goals
    have h := Host.Outcome.next.inj h
    rw [← h]
  all_goals simp [h1]

@[simp] theorem State.countVerdict_seal (s : State) (n : ℕ) (m : ℕ) : (State.countVerdict s n m).seal = s.seal := by
  unfold State.countVerdict
  repeat' first | (simp; done) | (intro _) | split | (rw [foldl_seal]) | (dsimp only) | (simp_all; done)

@[simp] theorem State.dropMould_seal (s : State) (n m : Nat) (retired : Bool) : (State.dropMould s n m retired).seal = s.seal := by
  unfold State.dropMould
  repeat' first | (simp; done) | (intro _) | split | (rw [foldl_seal]) | (dsimp only) | (simp_all; done)

@[simp] theorem State.locate_seal (s : State) (n : ℕ) (m : ℕ) (cols : List ℕ) : (State.locate s n m cols).seal = s.seal := by
  unfold State.locate
  repeat' first | (simp; done) | (intro _) | split | (rw [foldl_seal]) | (dsimp only) | (simp_all; done)

@[simp] theorem State.verdict_seal (s : State) (n m : Nat) (cols : List Nat) (packFail : Option Nat) : (State.verdict s n m cols packFail).seal = s.seal := by
  unfold State.verdict
  repeat' first | (simp; done) | (intro _) | split | (rw [foldl_seal]) | (dsimp only) | (simp_all; done)

theorem execProbeVerdict_seal (croft : CroftAt) (mould : PhysMould) (columns : List ColumnProbe) (packs : List PackPass) (s : State) {post : State}
    (h : execProbeVerdict croft mould columns packs s = .next post) : post.seal = s.seal := by
  unfold execProbeVerdict at h
  repeat' first | split at h | (dsimp only at h)
  all_goals first
    | (have h := Host.Outcome.next.inj h; rw [← h]; done)
    | (have h := Host.Outcome.next.inj h; rw [← h]; simp; done)
    | (have h := Host.Outcome.next.inj h; rw [← h]; repeat' first | (simp; done) | split | (dsimp only) | (intro _) | (rw [foldl_seal]))
    | cases h

theorem execStandinCopyArrive_seal (croft : CroftAt) (mould : PhysMould) (column : Fin 262) (copy : List (ℕ × ℤ)) (poisoned : Bool) (s : State) {post : State}
    (h : execStandinCopyArrive croft mould column copy poisoned s = .next post) : post.seal = s.seal := by
  unfold execStandinCopyArrive at h
  repeat' first | split at h | (dsimp only at h)
  all_goals first
    | (have h := Host.Outcome.next.inj h; rw [← h]; done)
    | (have h := Host.Outcome.next.inj h; rw [← h]; simp; done)
    | (have h := Host.Outcome.next.inj h; rw [← h]; repeat' first | (simp; done) | split | (dsimp only) | (intro _) | (rw [foldl_seal]))
    | cases h

theorem execGaugeConverterPass_seal (croft : CroftAt) (mould : PhysMould) (rowConverters : Bool) (high : Bool) (readings : List (ℕ × ℤ)) (s : State) {post : State}
    (h : execGaugeConverterPass croft mould rowConverters high readings s = .next post) : post.seal = s.seal := by
  have h := Host.Outcome.next.inj h
  rw [← h]
  simp

@[simp] theorem State.endAttempt_seal (s : State) (n : ℕ) (m : ℕ) : (State.endAttempt s n m).seal = s.seal := by
  simp [State.endAttempt]

@[simp] theorem State.screenProbe_seal (s : State) (n m : Nat) : (State.screenProbe s n m).seal = s.seal := by
  unfold State.screenProbe
  repeat' first | (simp; done) | (intro _) | split | (rw [foldl_seal]) | (dsimp only) | (simp_all; done)

@[simp] theorem State.acceptAttempt_seal (s : State) (n : ℕ) (m : ℕ) (a : RunTerms) (b : RunTerms) : (State.acceptAttempt s n m a b).seal = s.seal := by
  simp [State.acceptAttempt]

@[simp] theorem State.rejectAttempt_seal (s : State) (n : ℕ) (m : ℕ) : (State.rejectAttempt s n m).seal = s.seal := by
  simp [State.rejectAttempt]

theorem execGaugeRunEnd_seal (croft : CroftAt) (mould : PhysMould) (s : State) {post : State}
    (h : execGaugeRunEnd croft mould s = .next post) : post.seal = s.seal := by
  unfold execGaugeRunEnd at h
  repeat' first | split at h | (dsimp only at h)
  all_goals first
    | (have h := Host.Outcome.next.inj h; rw [← h]; done)
    | (have h := Host.Outcome.next.inj h; rw [← h]; simp; done)
    | (have h := Host.Outcome.next.inj h; rw [← h]; repeat' first | (simp; done) | split | (dsimp only) | (intro _) | (rw [foldl_seal]))
    | cases h

@[simp] theorem State.quickAttempts_seal (s : State) (n m : ℕ) (l : List (GaugeRun × GaugeRun)) (k : ℕ) :
    (s.quickAttempts n m l k).1.seal = s.seal := by
  induction l generalizing s k with
  | nil => simp [State.quickAttempts]
  | cons a l ih =>
    unfold State.quickAttempts
    dsimp only
    split
    · simp
    · split
      · simp
      · split <;> simp [ih]

@[simp] theorem State.quickOne_seal (s : State) (n m : ℕ) (q : QuickCheck) : (s.quickOne n m q).1.seal = s.seal := by
  unfold State.quickOne
  dsimp only
  split <;> simp

@[simp] theorem State.runQuick_seal (s : State) (d : Nat) : (State.runQuick s d).seal = s.seal := by
  unfold State.runQuick
  dsimp only
  split
  · rfl
  · rw [State.modDie_seal, foldl1_seal]
    intro a e
    split <;> simp

@[simp] theorem State.quickCheck_seal (s : State) (qs : List QuickCheck) : (State.quickCheck s qs).seal = s.seal := by
  unfold State.quickCheck
  repeat' first | (simp; done) | (intro _) | split | (rw [foldl_seal]) | (dsimp only) | (simp_all; done)

@[simp] theorem State.resumeMould_seal (s : State) (n m : Nat) : (State.resumeMould s n m).seal = s.seal := by
  unfold State.resumeMould
  repeat' first | (simp; done) | (intro _) | split | (rw [foldl_seal]) | (dsimp only) | (simp_all; done)

@[simp] theorem State.resumeSpares_seal (s : State) : (State.resumeSpares s).seal = s.seal := by
  simp [State.resumeSpares]

@[simp] theorem State.stageImage_seal (s : State) (n slot : Nat) (bytes : List (Nat × BitVec 8)) : (State.stageImage s n slot bytes).seal = s.seal := by
  unfold State.stageImage
  repeat' first | (simp; done) | (intro _) | split | (rw [foldl_seal]) | (dsimp only) | (simp_all; done)

theorem execCastRowGroupEnd_seal (g : RowGroupIn) (s : State) {post : State}
    (h : execCastRowGroupEnd g s = .next post) : post.seal = s.seal := by
  unfold execCastRowGroupEnd at h
  repeat' first | split at h | (dsimp only at h)
  all_goals first
    | (have h := Host.Outcome.next.inj h; rw [← h]; done)
    | (have h := Host.Outcome.next.inj h; rw [← h]; simp; done)
    | (have h := Host.Outcome.next.inj h; rw [← h]; repeat' first | (simp; done) | split | (dsimp only) | (intro _) | (rw [foldl_seal]))
    | cases h

@[simp] theorem State.writeCroftRecord_seal (s : State) (n : ℕ) (g : ℕ) (castDate : ℕ) : (State.writeCroftRecord s n g castDate).seal = s.seal := by
  simp [State.writeCroftRecord]

@[simp] theorem State.closeSpares_seal (s : State) (n : ℕ) (m : ℕ) (k : Cast) (bad : List ℕ) : (State.closeSpares s n m k bad).seal = s.seal := by
  unfold State.closeSpares
  repeat' first | (simp; done) | (intro _) | split | (rw [foldl_seal]) | (dsimp only) | (simp_all; done)

@[simp] theorem State.rewriteHot_seal (s : State) (n m : Nat) : (State.rewriteHot s n m).seal = s.seal := by
  unfold State.rewriteHot
  repeat' first | (simp; done) | (intro _) | split | (rw [foldl_seal]) | (dsimp only) | (simp_all; done)

theorem execCastClose_seal (c : CastCloseIn) (s : State) {post : State}
    (h : execCastClose c s = .next post) : post.seal = s.seal := by
  unfold execCastClose at h
  repeat' first | split at h | (dsimp only at h)
  all_goals first
    | (have h := Host.Outcome.next.inj h; rw [← h]; done)
    | (have h := Host.Outcome.next.inj h; rw [← h]; simp; done)
    | (have h := Host.Outcome.next.inj h; rw [← h]; repeat' first | (simp; done) | split | (dsimp only) | (intro _) | (rw [foldl_seal]))
    | cases h

@[simp] theorem State.markAndCount_seal (s : State) (step : ℕ) (c : Cause) (p : Page) (off : ℕ) : (State.markAndCount s step c p off).seal = s.seal := by
  unfold State.markAndCount
  repeat' first | (simp; done) | (intro _) | split | (rw [foldl_seal]) | (dsimp only) | (simp_all; done)

@[simp] theorem State.padSecond_seal (s : State) (n : ℕ) (ps : Bool) (row : ℕ) : (State.padSecond s n ps row).seal = s.seal := by
  unfold State.padSecond
  repeat' first | (simp; done) | (intro _) | split | (rw [foldl_seal]) | (dsimp only) | (simp_all; done)

@[simp] theorem State.padError_seal (s : State) (n : ℕ) (ps : Bool) (row : ℕ) (word : ℕ) (step : ℕ) : (State.padError s n ps row word step).seal = s.seal := by
  simp [State.padError]

@[simp] theorem State.refuseRows_seal (s : State) (d : ℕ) (rows : List ℕ) : (State.refuseRows s d rows).seal = s.seal := by
  simp [State.refuseRows]

@[simp] theorem State.granSecond_seal (s : State) (d : ℕ) (slice : ℕ) (row : ℕ) : (State.granSecond s d slice row).seal = s.seal := by
  unfold State.granSecond
  repeat' first | (simp; done) | (intro _) | split | (rw [foldl_seal]) | (dsimp only) | (simp_all; done)

@[simp] theorem State.granError_seal (s : State) (d : ℕ) (slice : ℕ) (row : ℕ) (word : ℕ) (step : ℕ) : (State.granError s d slice row word step).seal = s.seal := by
  simp [State.granError]

theorem execPadParityError_seal (place : ParityPlace) (step : ℕ) (s : State) {post : State}
    (h : execPadParityError place step s = .next post) : post.seal = s.seal := by
  unfold execPadParityError at h
  repeat' first | split at h | (dsimp only at h)
  all_goals first
    | (have h := Host.Outcome.next.inj h; rw [← h]; done)
    | (have h := Host.Outcome.next.inj h; rw [← h]; simp; done)
    | (have h := Host.Outcome.next.inj h; rw [← h]; repeat' first | (simp; done) | split | (dsimp only) | (intro _) | (rw [foldl_seal]))
    | cases h

@[simp] theorem State.setError_seal (s : State) (n : ℕ) (m : ℕ) (bank1 : Bool) (o : ℕ) : (State.setError s n m bank1 o).seal = s.seal := by
  simp [State.setError]

@[simp] theorem State.regionError_seal (s : State) (n : ℕ) (line : ℕ) (step : ℕ) : (State.regionError s n line step).seal = s.seal := by
  unfold State.regionError
  repeat' first | (simp; done) | (intro _) | split | (rw [foldl_seal]) | (dsimp only) | (simp_all; done)

theorem execStoreParityError_seal (croft : CroftAt) (line : Fin 1024) (word : Fin 32) (step : ℕ) (s : State) {post : State}
    (h : execStoreParityError croft line word step s = .next post) : post.seal = s.seal := by
  unfold execStoreParityError at h
  repeat' first | split at h | (dsimp only at h)
  all_goals first
    | (have h := Host.Outcome.next.inj h; rw [← h]; done)
    | (have h := Host.Outcome.next.inj h; rw [← h]; simp; done)
    | (have h := Host.Outcome.next.inj h; rw [← h]; repeat' first | (simp; done) | split | (dsimp only) | (intro _) | (rw [foldl_seal]))
    | cases h

theorem execFlitParityError_seal (router : CroftAt) (link : LinkDir) (step : ℕ) (s : State) {post : State}
    (h : execFlitParityError router link step s = .next post) : post.seal = s.seal := by
  have h := Host.Outcome.next.inj h
  rw [← h]
  simp

theorem execSlotTableParityError_seal (router : CroftAt) (s : State) {post : State}
    (h : execSlotTableParityError router s = .next post) : post.seal = s.seal := by
  have h := Host.Outcome.next.inj h
  rw [← h]
  simp

theorem execFootpathParityError_seal (router : CroftAt) (link : LinkDir) (s : State) {post : State}
    (h : execFootpathParityError router link s = .next post) : post.seal = s.seal := by
  have h := Host.Outcome.next.inj h
  rw [← h]
  simp

@[simp] theorem State.patchDecided_seal (s : State) (d row : Nat) (fits : Bool) : (State.patchDecided s d row fits).seal = s.seal := by
  unfold State.patchDecided
  repeat' first | (simp; done) | (intro _) | split | (rw [foldl_seal]) | (dsimp only) | (simp_all; done)

theorem execDetourFit_seal (die : DieId) (row : Fin 32) (s : State) {post : State}
    (h : execDetourFit die row s = .next post) : post.seal = s.seal := by
  unfold execDetourFit at h
  repeat' first | split at h | (dsimp only at h)
  all_goals first
    | (have h := Host.Outcome.next.inj h; rw [← h]; done)
    | (have h := Host.Outcome.next.inj h; rw [← h]; simp; done)
    | (have h := Host.Outcome.next.inj h; rw [← h]; repeat' first | (simp; done) | split | (dsimp only) | (intro _) | (rw [foldl_seal]))
    | cases h

@[simp] theorem State.takeMark_seal (s : State) (n : Nat) (k : Nat × Cause) : (State.takeMark s n k).seal = s.seal := by
  unfold State.takeMark
  repeat' first | (simp; done) | (intro _) | split | (rw [foldl_seal]) | (dsimp only) | (simp_all; done)

@[simp] theorem State.sendMark_seal (s : State) (n : Nat) : (State.sendMark s n).seal = s.seal := by
  unfold State.sendMark
  dsimp only
  have h : ((s.croft n).gathered.foldl (fun (t : State) k => t.takeMark n k) s).seal = s.seal := foldl_seal _ _ _ (fun _ _ => by simp)
  split
  · rfl
  · split <;> simp [h]

theorem execMark_seal (croft : CroftAt) (s : State) {post : State}
    (h : execMark croft s = .next post) : post.seal = s.seal := by
  unfold execMark at h
  repeat' first | split at h | (dsimp only at h)
  all_goals first
    | (have h := Host.Outcome.next.inj h; rw [← h]; done)
    | (have h := Host.Outcome.next.inj h; rw [← h]; simp; done)
    | (have h := Host.Outcome.next.inj h; rw [← h]; repeat' first | (simp; done) | split | (dsimp only) | (intro _) | (rw [foldl_seal]))
    | cases h

theorem execBarrier_seal (die : DieId) (number : ℕ) (members : List CroftAt) (member : CroftAt) (s : State) {post : State}
    (h : execBarrier die number members member s = .next post) : post.seal = s.seal := by
  have h := Host.Outcome.next.inj h
  rw [← h]
  simp

@[simp] theorem State.reply_seal (s : State) (d : ℕ) (r : Reply) : (State.reply s d r).seal = s.seal := by
  simp [State.reply]

@[simp] theorem State.refuseNarrow_seal (s : State) (d : ℕ) (addr : ℕ) (c : Code) (h : Holder) : (State.refuseNarrow s d addr c h).seal = s.seal := by
  simp [State.refuseNarrow]

@[simp] theorem State.writeBack_seal (s : State) (d : ℕ) (e : GatherEntry) : (State.writeBack s d e).seal = s.seal := by
  simp [State.writeBack]

theorem execNarrowRead_seal (die : DieId) (addr : ℕ) (len : ℕ) (epoch : ℕ) (requester : Holder) (parityError : Bool) (s : State) {post : State}
    (h : execNarrowRead die addr len epoch requester parityError s = .next post) : post.seal = s.seal := by
  unfold execNarrowRead at h
  repeat' first | split at h | (dsimp only at h)
  all_goals first
    | (have h := Host.Outcome.next.inj h; rw [← h]; done)
    | (have h := Host.Outcome.next.inj h; rw [← h]; simp; done)
    | (have h := Host.Outcome.next.inj h; rw [← h]; repeat' first | (simp; done) | split | (dsimp only) | (intro _) | (rw [foldl_seal]))
    | cases h

theorem execNarrowWrite_seal (die : DieId) (addr epoch : Nat) (data : List (BitVec 8)) (requester : Holder) (context : Option Nat) (s : State) {post : State}
    (h : execNarrowWrite die addr epoch data requester context s = .next post) : post.seal = s.seal := by
  unfold execNarrowWrite at h
  repeat' first | split at h | (dsimp only at h)
  all_goals first
    | (have h := Host.Outcome.next.inj h; rw [← h]; done)
    | (have h := Host.Outcome.next.inj h; rw [← h]; simp; done)
    | (have h := Host.Outcome.next.inj h; rw [← h]; repeat' first | (simp; done) | split | (dsimp only) | (intro _) | (rw [foldl_seal]))
    | cases h

theorem execGatherWriteback_seal (die : DieId) (entry : Fin 4) (s : State) {post : State}
    (h : execGatherWriteback die entry s = .next post) : post.seal = s.seal := by
  unfold execGatherWriteback at h
  repeat' first | split at h | (dsimp only at h)
  all_goals first
    | (have h := Host.Outcome.next.inj h; rw [← h]; done)
    | (have h := Host.Outcome.next.inj h; rw [← h]; simp; done)
    | (have h := Host.Outcome.next.inj h; rw [← h]; repeat' first | (simp; done) | split | (dsimp only) | (intro _) | (rw [foldl_seal]))
    | cases h

@[simp] theorem State.revokeDma_seal (s : State) (h : Nat) (channels : Option (List Nat)) : (State.revokeDma s h channels).seal = s.seal := by
  unfold State.revokeDma
  repeat' first | (simp; done) | (intro _) | split | (rw [foldl_seal]) | (dsimp only) | (simp_all; done)

@[simp] theorem State.writeLeaseRevoke_seal (s : State) (d : ℕ) (v : Word) : (State.writeLeaseRevoke s d v).seal = s.seal := by
  simp [State.writeLeaseRevoke]

@[simp] theorem State.writePadRow_seal (s : State) (n : Nat) (ps : Bool) (row : Nat) (bytes : List (BitVec 8)) (sigma : BitVec 16) : (State.writePadRow s n ps row bytes sigma).seal = s.seal := by
  unfold State.writePadRow
  repeat' first | (simp; done) | (intro _) | split | (rw [foldl_seal]) | (dsimp only) | (simp_all; done)

@[simp] theorem State.writePlace_seal (s : State) (d : Nat) (at_ : RowPlace) (bytes : List (BitVec 8)) (sigma : BitVec 16) : (State.writePlace s d at_ bytes sigma).seal = s.seal := by
  unfold State.writePlace
  repeat' first | (simp; done) | (intro _) | split | (rw [foldl_seal]) | (dsimp only) | (simp_all; done)

@[simp] theorem State.carryMarks_seal (s : State) (d : Nat) (at_ : RowPlace) (marks : List Nat) : (State.carryMarks s d at_ marks).seal = s.seal := by
  unfold State.carryMarks
  repeat' first | (simp; done) | (intro _) | split | (rw [foldl_seal]) | (dsimp only) | (simp_all; done)

@[simp] theorem State.transfer_seal (s before : State) (d : Nat) (t : TransferPlan) :
    (State.transfer s before d t).seal = s.seal := by
  unfold State.transfer
  split <;> simp

@[simp] theorem State.transferAll_seal (s : State) (d : Nat) (l : List TransferPlan) : (State.transferAll s d l).seal = s.seal := by
  unfold State.transferAll
  rw [foldl1_seal _ _ _ fun _ _ => by simp]

@[simp] theorem State.transfersTo_seal (s : State) (d now : Nat) : (State.transfersTo s d now).seal = s.seal := by
  unfold State.transfersTo
  repeat' first | (simp; done) | (intro _) | split | (rw [foldl_seal]) | (dsimp only) | (simp_all; done)

@[simp] theorem State.finishTransfers_seal (s : State) (d : Nat) : (State.finishTransfers s d).seal = s.seal := by
  unfold State.finishTransfers
  repeat' first | (simp; done) | (intro _) | split | (rw [foldl_seal]) | (dsimp only) | (simp_all; done)

@[simp] theorem State.allTransfers_seal (s : State) (now : Nat) : (State.allTransfers s now).seal = s.seal := by
  unfold State.allTransfers
  repeat' first | (simp; done) | (intro _) | split | (rw [foldl_seal]) | (dsimp only) | (simp_all; done)

@[simp] theorem State.applyQuench_seal (s : State) (d : ℕ) (q : QuenchSet) : (State.applyQuench s d q).seal = s.seal := by
  simp [State.applyQuench]

@[simp] theorem State.quenchCast_seal (s : State) (n slot : Nat) (area : Bool) : (State.quenchCast s n slot area).seal = s.seal := by
  unfold State.quenchCast
  repeat' first | (simp; done) | (intro _) | split | (rw [foldl_seal]) | (dsimp only) | (simp_all; done)

@[simp] theorem State.quenchCasts_seal (s : State) (d : Nat) (l : List (Nat × Nat × Bool)) : (State.quenchCasts s d l).seal = s.seal := by
  unfold State.quenchCasts
  rw [State.bump_seal, foldl_seal]
  simp

@[simp] theorem State.quenchCroft_seal (s : State) (n : Nat) : (State.quenchCroft s n).seal = s.seal := by
  unfold State.quenchCroft
  repeat' first | (simp; done) | (intro _) | split | (rw [foldl_seal]) | (dsimp only) | (simp_all; done)

theorem execQuenchInterval_seal (die : DieId) (s : State) {post : State}
    (h : execQuenchInterval die s = .next post) : post.seal = s.seal := by
  have h := Host.Outcome.next.inj h
  rw [← h]
  simp

@[simp] theorem State.attnError_seal (s : State) (h : ℕ) (e : ℕ) (slot : ℕ) (c : Code) : (State.attnError s h e slot c).seal = s.seal := by
  simp [State.attnError]

@[simp] theorem State.readyEngine_seal (s : State) (h e : Nat) : (State.readyEngine s h e).seal = s.seal := by
  unfold State.readyEngine
  repeat' first | (simp; done) | (intro _) | split | (rw [foldl_seal]) | (dsimp only) | (simp_all; done)

@[simp] theorem State.issue_seal (s : State) (h : ℕ) (d : Descriptor) : (State.issue s h d).seal = s.seal := by
  simp [State.issue]

@[simp] theorem State.markQueue_seal (s : State) (h e : Nat) (c : Cause) : (State.markQueue s h e c).seal = s.seal := by
  unfold State.markQueue
  repeat' first | (simp; done) | (intro _) | split | (rw [foldl_seal]) | (dsimp only) | (simp_all; done)

@[simp] theorem State.endEngine_seal (s : State) (h e : Nat) : (State.endEngine s h e).seal = s.seal := by
  unfold State.endEngine
  repeat' first | (simp; done) | (intro _) | split | (rw [foldl_seal]) | (dsimp only) | (simp_all; done)

@[simp] theorem State.finishSet_seal (s : State) (h : ℕ) (q : ℕ) : (State.finishSet s h q).seal = s.seal := by
  simp [State.finishSet]

@[simp] theorem State.walkErrors_seal (s : State) (x layer head : Nat) : (State.walkErrors s x layer head).seal = s.seal := by
  unfold State.walkErrors
  repeat' first | (simp; done) | (intro _) | split | (rw [foldl_seal]) | (dsimp only) | (simp_all; done)

@[simp] theorem State.openSet_seal (s : State) (h x : ℕ) (e : ExchangeIn) (head : ℕ) (ins : List QueryIn) :
    (s.openSet h x e head ins).seal = s.seal := by
  unfold State.openSet
  repeat' first | (simp; done) | (intro _) | split | (rw [foldl_seal]) | (dsimp only) | (simp_all; done)

theorem execAttnExchangeArrival_seal (x : ExchangeIn) (s : State) {post : State}
    (h : execAttnExchangeArrival x s = .next post) : post.seal = s.seal := by
  unfold execAttnExchangeArrival at h
  split at h
  · have h := Host.Outcome.next.inj h
    rw [← h]
  · have h := Host.Outcome.next.inj h
    rw [← h]
    dsimp only
    rw [foldl_seal, foldl_seal]
    · intros; simp
    · intro t head
      rw [foldl_seal]
      intros; simp

theorem execKvWriteAck_seal (step : ℕ) (layer : ℕ) (s : State) {post : State}
    (h : execKvWriteAck step layer s = .next post) : post.seal = s.seal := by
  unfold execKvWriteAck at h
  repeat' first | split at h | (dsimp only at h)
  all_goals first
    | (have h := Host.Outcome.next.inj h; rw [← h]; done)
    | (have h := Host.Outcome.next.inj h; rw [← h]; simp; done)
    | (have h := Host.Outcome.next.inj h; rw [← h]; repeat' first | (simp; done) | split | (dsimp only) | (intro _) | (rw [foldl_seal]))
    | cases h

@[simp] theorem State.readKeys_seal (s : State) (d : Descriptor) (key : ℕ) : (State.readKeys s d key).1.seal = s.seal := by
  simp [State.readKeys]

@[simp] theorem State.processDesc_seal (s : State) (h : ℕ) (d : Descriptor) (qs : List Query) (key : ℕ) : (State.processDesc s h d qs key).1.seal = s.seal := by
  simp [State.processDesc]

theorem execDescriptorRun_seal (hub : HubId) (engine : Fin 64) (s : State) {post : State}
    (h : execDescriptorRun hub engine s = .next post) : post.seal = s.seal := by
  unfold execDescriptorRun at h
  repeat' first | split at h | (dsimp only at h)
  all_goals first
    | (have h := Host.Outcome.next.inj h; rw [← h]; done)
    | (have h := Host.Outcome.next.inj h; rw [← h]; simp; done)
    | (have h := Host.Outcome.next.inj h; rw [← h]; repeat' first | (simp; done) | split | (dsimp only) | (intro _) | (rw [foldl_seal]))
    | cases h

theorem execPartialMerge_seal (hub : HubId) (qset : ℕ) (s : State) {post : State}
    (h : execPartialMerge hub qset s = .next post) : post.seal = s.seal := by
  unfold execPartialMerge at h
  repeat' first | split at h | (dsimp only at h)
  all_goals first
    | (have h := Host.Outcome.next.inj h; rw [← h]; done)
    | (have h := Host.Outcome.next.inj h; rw [← h]; simp; done)
    | (have h := Host.Outcome.next.inj h; rw [← h]; repeat' first | (simp; done) | split | (dsimp only) | (intro _) | (rw [foldl_seal]))
    | cases h

@[simp] theorem State.sendOutputs_seal (s : State) (d : Nat) (rows : List RowPlace) (outs : List (List B32)) : (State.sendOutputs s d rows outs).seal = s.seal := by
  unfold State.sendOutputs
  repeat' first | (simp; done) | (intro _) | split | (rw [foldl_seal]) | (dsimp only) | (simp_all; done)

@[simp] theorem State.timeoutSet_seal (s : State) (h q : Nat) : (State.timeoutSet s h q).seal = s.seal := by
  unfold State.timeoutSet
  repeat' first | (simp; done) | (intro _) | split | (rw [foldl_seal]) | (dsimp only) | (simp_all; done)

theorem execReleaseTime_seal (hub : HubId) (qset : ℕ) (s : State) {post : State}
    (h : execReleaseTime hub qset s = .next post) : post.seal = s.seal := by
  unfold execReleaseTime at h
  repeat' first | split at h | (dsimp only at h)
  all_goals first
    | (have h := Host.Outcome.next.inj h; rw [← h]; done)
    | (have h := Host.Outcome.next.inj h; rw [← h]; simp; done)
    | (have h := Host.Outcome.next.inj h; rw [← h]; repeat' first | (simp; done) | split | (dsimp only) | (intro _) | (rw [foldl_seal]))
    | cases h

theorem execAttnReq_seal (r : AttnReqIn) (s : State) {post : State} (h : execAttnReq r s = .next post) : post.seal = s.seal := by
  unfold execAttnReq at h
  split at h
  · have h := Host.Outcome.next.inj h
    rw [← h]
    simp
  · split at h
    · have h := Host.Outcome.next.inj h
      rw [← h]
      simp
    · split at h
      · have h := Host.Outcome.next.inj h
        rw [← h]
        simp
      · dsimp only at h
        split at h
        all_goals
          have h := Host.Outcome.next.inj h
          rw [← h]
          try simp only [State.send_seal, State.bump_seal]
          refine foldl1_seal _ _ _ (fun t x => ?_)
          try dsimp only
          split
          · simp
          · split <;> simp

@[simp] theorem State.timeoutRemote_seal (s : State) (h : ℕ) (tag : ℕ) : (State.timeoutRemote s h tag).seal = s.seal := by
  unfold State.timeoutRemote
  repeat' first | (simp; done) | (intro _) | split | (rw [foldl_seal]) | (dsimp only) | (simp_all; done)

@[simp] theorem State.loseRemote_seal (s : State) (x package : Nat) : (State.loseRemote s x package).seal = s.seal := by
  unfold State.loseRemote
  repeat' first | (simp; done) | (intro _) | split | (rw [foldl_seal]) | (dsimp only) | (simp_all; done)

theorem execAttnRsp_seal (hub : HubId) (tag : ℕ) (status : ℕ) (partials : List SoftState) (s : State) {post : State}
    (h : execAttnRsp hub tag status partials s = .next post) : post.seal = s.seal := by
  unfold execAttnRsp at h
  repeat' first | split at h | (dsimp only at h)
  all_goals first
    | (have h := Host.Outcome.next.inj h; rw [← h]; done)
    | (have h := Host.Outcome.next.inj h; rw [← h]; simp; done)
    | (have h := Host.Outcome.next.inj h; rw [← h]; repeat' first | (simp; done) | split | (dsimp only) | (intro _) | (rw [foldl_seal]))
    | cases h

theorem execAttnBusy_seal (hub : HubId) (tag : ℕ) (s : State) {post : State}
    (h : execAttnBusy hub tag s = .next post) : post.seal = s.seal := by
  have h := Host.Outcome.next.inj h
  rw [← h]
  simp

@[simp] theorem State.setServed_seal (s : State) (p : ℕ) (t : Table ℕ) : (State.setServed s p t).seal = s.seal := by
  simp [State.setServed]

theorem execLeaseRenew_seal (source : Fin 256) (storeEpoch : ℕ) (pages : List ℕ) (s : State) {post : State}
    (h : execLeaseRenew source storeEpoch pages s = .next post) : post.seal = s.seal := by
  unfold execLeaseRenew at h
  repeat' first | split at h | (dsimp only at h)
  all_goals first
    | (have h := Host.Outcome.next.inj h; rw [← h]; done)
    | (have h := Host.Outcome.next.inj h; rw [← h]; simp; done)
    | (have h := Host.Outcome.next.inj h; rw [← h]; repeat' first | (simp; done) | split | (dsimp only) | (intro _) | (rw [foldl_seal]))
    | cases h

theorem execRemoteRenewTimer_seal (store : Fin 256) (s : State) {post : State}
    (h : execRemoteRenewTimer store s = .next post) : post.seal = s.seal := by
  have h := Host.Outcome.next.inj h
  rw [← h]
  simp

theorem execRemoteRefExpiry_seal (holder : Fin 256) (s : State) {post : State}
    (h : execRemoteRefExpiry holder s = .next post) : post.seal = s.seal := by
  have h := Host.Outcome.next.inj h
  rw [← h]
  simp

@[simp] theorem State.hostRead_seal (s : State) (addr : ℕ) (n : ℕ) : (State.hostRead s addr n).1.seal = s.seal := by
  unfold State.hostRead
  repeat' first | (simp; done) | (intro _) | split | (rw [foldl_seal]) | (dsimp only) | (simp_all; done)

@[simp] theorem State.hostWriteLine_seal (s : State) (addr : ℕ) (bytes : List (BitVec 8)) : (State.hostWriteLine s addr bytes).seal = s.seal := by
  unfold State.hostWriteLine
  repeat' first | (simp; done) | (intro _) | split | (rw [foldl_seal]) | (dsimp only) | (simp_all; done)

@[simp] theorem State.readTokens_seal (s : State) (addr : ℕ) (count : ℕ) : (State.readTokens s addr count).1.seal = s.seal := by
  simp [State.readTokens]

@[simp] theorem State.writeRecord_seal (s : State) (w : ℕ) (n : ℕ) (r : Record) : (State.writeRecord s w n r).seal = s.seal := by
  unfold State.writeRecord
  repeat' first | (simp; done) | (intro _) | split | (rw [foldl_seal]) | (dsimp only) | (simp_all; done)

@[simp] theorem State.flushResp_seal (s : State) (w n : ℕ) : (s.flushResp w n).seal = s.seal := by
  induction n generalizing s with
  | zero => rfl
  | succ n ih =>
    unfold State.flushResp
    split
    · rfl
    · split
      · simp [ih]
      · rfl

@[simp] theorem State.packageOutcome_seal (s : State) (w : ℕ) (seq : ℕ) (cookie : ℕ) (code : Option Code) (value : ℕ) : (State.packageOutcome s w seq cookie code value).seal = s.seal := by
  simp [State.packageOutcome]

@[simp] theorem State.refuseWrite_seal (s : State) (w : ℕ) (h : CmdHead) (c : Code) : (State.refuseWrite s w h c).seal = s.seal := by
  simp [State.refuseWrite]

@[simp] theorem State.emit_seal (s : State) (x : ℕ) (r : Record) : (State.emit s x r).seal = s.seal := by
  simp [State.emit]

@[simp] theorem State.flushHeld_seal (s : State) (x now n : ℕ) : (s.flushHeld x now n).seal = s.seal := by
  induction n generalizing s with
  | zero => rfl
  | succ n ih =>
    unfold State.flushHeld
    dsimp only
    split
    · rfl
    · split
      · simp [ih]
      · rfl

@[simp] theorem State.flushOut_seal (s : State) (now w : ℕ) : (State.flushOut s now w).seal = s.seal := by
  simp [State.flushOut]

@[simp] theorem State.readContents_seal (s : State) (b : Body) (vocab : ℕ) : (State.readContents s b vocab).1.seal = s.seal := by
  unfold State.readContents
  repeat' first | (simp; done) | (intro _) | split | (rw [foldl_seal]) | (dsimp only) | (simp_all; done)

@[simp] theorem State.check_seal (s : State) (w : ℕ) (h : CmdHead) (b : Body) : (State.check s w h b).1.seal = s.seal := by
  unfold State.check
  repeat' first | (simp; done) | (intro _) | split | (rw [foldl_seal]) | (dsimp only) | (simp_all; done)

@[simp] theorem State.startHead_seal (s : State) (x : ℕ) : (State.startHead s x).seal = s.seal := by
  unfold State.startHead
  repeat' first | (simp; done) | (intro _) | split | (rw [foldl_seal]) | (dsimp only) | (simp_all; done)

@[simp] theorem State.enqueue_seal (s : State) (x : ℕ) (q : Queued) : (State.enqueue s x q).seal = s.seal := by
  simp [State.enqueue]

@[simp] theorem State.repin_seal (s : State) (x : ℕ) (pin : Option IngotRec) : (State.repin s x pin).seal = s.seal := by
  unfold State.repin
  repeat' first | (simp; done) | (intro _) | split | (rw [foldl_seal]) | (dsimp only) | (simp_all; done)

@[simp] theorem State.takeSlots_seal (s : State) (w n : ℕ) : (s.takeSlots w n).1.seal = s.seal := by
  unfold State.takeSlots
  split
  · rename_i a ha
    exact State.allocPages_seal _ _ _ ha
  · rfl

@[simp] theorem State.modGen_seal (s : State) (f : Generations → Generations) : (State.modGen s f).seal = s.seal := by
  simp [State.modGen]

@[simp] theorem State.addAdapterCmd_seal (s : State) (c : AdapterCmd) : (State.addAdapterCmd s c).seal = s.seal := by
  simp [State.addAdapterCmd]

@[simp] theorem State.accept_seal (s : State) (w : ℕ) (h : CmdHead) (b : Body) (pin : Option IngotRec) (cont : Contents) :
    (s.accept w h b pin cont).seal = s.seal := by
  unfold State.accept
  dsimp only
  split
  · split
    · rfl
    · rename_i a ha
      simpa using State.allocPages_seal _ _ _ ha
  all_goals first | (simp; done) | skip
  split
  · rfl
  · rename_i a ha
    simpa using State.allocPages_seal _ _ _ ha

@[simp] theorem State.clearMarks_seal (s : State) (h : ℕ) : (State.clearMarks s h).seal = s.seal := by
  simp [State.clearMarks]

@[simp] theorem State.consume_seal (s : State) (w : ℕ) : (State.consume s w).seal = s.seal := by
  simp [State.consume]

@[simp] theorem State.decision_seal (s : State) (w : ℕ) (h : CmdHead) (kind : ℕ) (code : ℕ) (body : List (ℕ × ℕ × ℕ)) : (State.decision s w h kind code body).seal = s.seal := by
  simp [State.decision]

@[simp] theorem State.decideOne_seal (s : State) (w : ℕ) (h : CmdHead) (b : Body) : (State.decideOne s w h b).seal = s.seal := by
  unfold State.decideOne
  repeat' first | (simp; done) | (intro _) | split | (rw [foldl_seal]) | (dsimp only) | (simp_all; done)

@[simp] theorem State.decideAll_seal (s : State) (w n : ℕ) : (s.decideAll w n).seal = s.seal := by
  induction n generalizing s with
  | zero => rfl
  | succ n ih =>
    unfold State.decideAll
    dsimp only
    split
    · split
      · simp
      · simp [ih]
    · simp

@[simp] theorem State.pump_seal (s : State) (w : ℕ) : (State.pump s w).seal = s.seal := by
  simp [State.pump]

@[simp] theorem State.submit_seal (s : State) (w : ℕ) (h : CmdHead) (b : Body) : (State.submit s w h b).seal = s.seal := by
  unfold State.submit
  repeat' first | (simp; done) | (intro _) | split | (rw [foldl_seal]) | (dsimp only) | (simp_all; done)

theorem execOpenSession_seal (w : WinId) (h : CmdHead) (b : OpenBody) (s : State) {post : State}
    (h : execOpenSession w h b s = .next post) : post.seal = s.seal := by
  have h := Host.Outcome.next.inj h
  rw [← h]
  simp

theorem execPrompt_seal (w : WinId) (h : CmdHead) (b : PromptBody) (s : State) {post : State}
    (h : execPrompt w h b s = .next post) : post.seal = s.seal := by
  have h := Host.Outcome.next.inj h
  rw [← h]
  simp

theorem execGenerate_seal (w : WinId) (h : CmdHead) (b : GenerateBody) (s : State) {post : State}
    (h : execGenerate w h b s = .next post) : post.seal = s.seal := by
  have h := Host.Outcome.next.inj h
  rw [← h]
  simp

theorem execDraft_seal (w : WinId) (h : CmdHead) (b : DraftBody) (s : State) {post : State}
    (h : execDraft w h b s = .next post) : post.seal = s.seal := by
  have h := Host.Outcome.next.inj h
  rw [← h]
  simp

theorem execStop_seal (w : WinId) (h : CmdHead) (context : ℕ) (s : State) {post : State}
    (h : execStop w h context s = .next post) : post.seal = s.seal := by
  have h := Host.Outcome.next.inj h
  rw [← h]
  simp

theorem execCancel_seal (w : WinId) (h : CmdHead) (context : ℕ) (s : State) {post : State}
    (h : execCancel w h context s = .next post) : post.seal = s.seal := by
  have h := Host.Outcome.next.inj h
  rw [← h]
  simp

theorem execClose_seal (w : WinId) (h : CmdHead) (context : ℕ) (s : State) {post : State}
    (h : execClose w h context s = .next post) : post.seal = s.seal := by
  have h := Host.Outcome.next.inj h
  rw [← h]
  simp

theorem execAdapterLoad_seal (w : WinId) (h : CmdHead) (b : AdapterLoadBody) (s : State) {post : State}
    (h : execAdapterLoad w h b s = .next post) : post.seal = s.seal := by
  have h := Host.Outcome.next.inj h
  rw [← h]
  simp

theorem execAdapterDrop_seal (w : WinId) (h : CmdHead) (handle : ℕ) (s : State) {post : State}
    (h : execAdapterDrop w h handle s = .next post) : post.seal = s.seal := by
  have h := Host.Outcome.next.inj h
  rw [← h]
  simp

theorem execIngotStage_seal (w : WinId) (h : CmdHead) (b : IngotStageBody) (s : State) {post : State}
    (h : execIngotStage w h b s = .next post) : post.seal = s.seal := by
  have h := Host.Outcome.next.inj h
  rw [← h]
  simp

theorem execGenSwitch_seal (w : WinId) (h : CmdHead) (generation : ℕ) (s : State) {post : State}
    (h : execGenSwitch w h generation s = .next post) : post.seal = s.seal := by
  have h := Host.Outcome.next.inj h
  rw [← h]
  simp

theorem execMigrateOut_seal (w : WinId) (h : CmdHead) (b : MigrateOutBody) (s : State) {post : State}
    (h : execMigrateOut w h b s = .next post) : post.seal = s.seal := by
  have h := Host.Outcome.next.inj h
  rw [← h]
  simp

theorem execMigrateIn_seal (w : WinId) (h : CmdHead) (b : MigrateInBody) (s : State) {post : State}
    (h : execMigrateIn w h b s = .next post) : post.seal = s.seal := by
  have h := Host.Outcome.next.inj h
  rw [← h]
  simp

theorem execTemper_seal (w : WinId) (h : CmdHead) (b : TemperBody) (s : State) {post : State}
    (h : execTemper w h b s = .next post) : post.seal = s.seal := by
  have h := Host.Outcome.next.inj h
  rw [← h]
  simp

@[simp] theorem ok_seal (s : State) : (ok s).1.seal = s.seal := by
  simp [ok]

@[simp] theorem State.refuse_seal (s : State) (p : Page) (off : ℕ) (c : Code) : (State.refuse s p off c).1.seal = s.seal := by
  simp [State.refuse]

@[simp] theorem State.storeReg_seal (s : State) (p : Page) (off : ℕ) (v : Word) : (State.storeReg s p off v).1.seal = s.seal := by
  simp [State.storeReg]

theorem State.access_seal (s : State) (i : Instr) (f : State → State) (hf : ∀ u, (f u).seal = u.seal) {post : State}
    (h : s.access i f = .next post) : post.seal = s.seal := by
  unfold State.access at h
  split at h
  · cases h; exact hf s
  · split at h <;> (cases h; rfl)

@[simp] theorem State.beginLoad_seal (s : State) (d : ℕ) (p : PatternImage) (ofSwitch : Bool) : (State.beginLoad s d p ofSwitch).seal = s.seal := by
  simp [State.beginLoad]

@[simp] theorem State.loadRegion_seal (s : State) (d : Nat) (p : PatternImage) (at_ : Nat × Nat) : (State.loadRegion s d p at_).seal = s.seal := by
  unfold State.loadRegion
  repeat' first | (simp; done) | (intro _) | split | (rw [foldl_seal]) | (dsimp only) | (simp_all; done)

theorem execLoadComplete_seal (die : DieId) (epoch : Nat) (s : State) {post : State}
    (h : execLoadComplete die epoch s = .next post) : post.seal = s.seal := by
  unfold execLoadComplete at h
  repeat' first | split at h | (dsimp only at h)
  all_goals first
    | (have h := Host.Outcome.next.inj h; rw [← h]; done)
    | (have h := Host.Outcome.next.inj h; rw [← h]; simp; done)
    | (have h := Host.Outcome.next.inj h; rw [← h]; repeat' first | (simp; done) | split | (dsimp only) | (intro _) | (rw [foldl_seal]))
    | cases h

@[simp] theorem State.writePatLoad_seal (s : State) (d : ℕ) (v : Word) (image : PatternImage) : (State.writePatLoad s d v image).1.seal = s.seal := by
  unfold State.writePatLoad
  repeat' first | (simp; done) | (intro _) | split | (rw [foldl_seal]) | (dsimp only) | (simp_all; done)

theorem execPatLoadGo_seal (die : DieId) (v : Word) (image : PatternImage) (s : State) {post : State}
    (h : execPatLoadGo die v image s = .next post) : post.seal = s.seal := by
  refine State.access_seal _ _ _ (fun u => ?_) h
  repeat' first | (simp; done) | split | (dsimp only)

theorem execPatLoadUnload_seal (die : DieId) (v : Word) (s : State) {post : State}
    (h : execPatLoadUnload die v s = .next post) : post.seal = s.seal := by
  refine State.access_seal _ _ _ (fun u => ?_) h
  repeat' first | (simp; done) | split | (dsimp only)

@[simp] theorem State.writeMemMode_seal (s : State) (d : ℕ) (v : Word) : (State.writeMemMode s d v).1.seal = s.seal := by
  simp [State.writeMemMode]

theorem execMemMode_seal (die : DieId) (v : Word) (s : State) {post : State}
    (h : execMemMode die v s = .next post) : post.seal = s.seal := by
  refine State.access_seal _ _ _ (fun u => ?_) h
  repeat' first | (simp; done) | split | (dsimp only)

@[simp] theorem State.writeFenceReq_seal (s : State) (d : ℕ) (v : Word) : (State.writeFenceReq s d v).1.seal = s.seal := by
  simp [State.writeFenceReq]

theorem execFenceReq_seal (die : DieId) (v : Word) (s : State) {post : State}
    (h : execFenceReq die v s = .next post) : post.seal = s.seal := by
  refine State.access_seal _ _ _ (fun u => ?_) h
  repeat' first | (simp; done) | split | (dsimp only)

@[simp] theorem State.writeRecastReq_seal (s : State) (d : ℕ) (v : Word) : (State.writeRecastReq s d v).1.seal = s.seal := by
  simp [State.writeRecastReq]

theorem execRecastMould_seal (die : DieId) (v : Word) (s : State) {post : State}
    (h : execRecastMould die v s = .next post) : post.seal = s.seal := by
  refine State.access_seal _ _ _ (fun u => ?_) h
  repeat' first | (simp; done) | split | (dsimp only)

theorem execRecastAll_seal (die : DieId) (v : Word) (s : State) {post : State}
    (h : execRecastAll die v s = .next post) : post.seal = s.seal := by
  refine State.access_seal _ _ _ (fun u => ?_) h
  repeat' first | (simp; done) | split | (dsimp only)

@[simp] theorem State.writeGaugeForce_seal (s : State) (d : ℕ) (v : Word) : (State.writeGaugeForce s d v).1.seal = s.seal := by
  simp [State.writeGaugeForce]

theorem execGaugeForce_seal (die : DieId) (v : Word) (s : State) {post : State}
    (h : execGaugeForce die v s = .next post) : post.seal = s.seal := by
  refine State.access_seal _ _ _ (fun u => ?_) h
  repeat' first | (simp; done) | split | (dsimp only)

theorem execHistSel_seal (die : DieId) (v : Word) (s : State) {post : State}
    (h : execHistSel die v s = .next post) : post.seal = s.seal := by
  refine State.access_seal _ _ _ (fun u => ?_) h
  repeat' first | (simp; done) | split | (dsimp only)

theorem execLeaseRevoke_seal (die : DieId) (v : Word) (s : State) {post : State}
    (h : execLeaseRevoke die v s = .next post) : post.seal = s.seal := by
  refine State.access_seal _ _ _ (fun u => ?_) h
  repeat' first | (simp; done) | split | (dsimp only)

@[simp] theorem State.charge_seal (s : State) (l : List (ℕ × ℚ)) : (State.charge s l).seal = s.seal := by
  simp [State.charge]

@[simp] theorem State.discharge_seal (s : State) (now : ℕ) (l : List (ℕ × ℚ)) : (State.discharge s now l).seal = s.seal := by
  simp [State.discharge]

@[simp] theorem State.setOut_seal (s : State) (x : ℕ) (seq : ℕ) (f : Queued → Record) : (State.setOut s x seq f).seal = s.seal := by
  simp [State.setOut]

@[simp] theorem State.flushOuts_seal (s : State) (x now n : ℕ) : (s.flushOuts x now n).seal = s.seal := by
  induction n generalizing s with
  | zero => rfl
  | succ n ih =>
    unfold State.flushOuts
    dsimp only
    split
    · rfl
    · split
      · simp
      · simp [ih]

@[simp] theorem State.flushSession_seal (s : State) (x : ℕ) (now : ℕ) : (State.flushSession s x now).seal = s.seal := by
  simp [State.flushSession]

@[simp] theorem State.dropSets_seal (s : State) (step : ℕ) : (State.dropSets s step).seal = s.seal := by
  simp [State.dropSets]

@[simp] theorem State.unreserve_seal (s : State) (x : ℕ) (n : ℕ) : (State.unreserve s x n).seal = s.seal := by
  simp [State.unreserve]

@[simp] theorem State.leaveFlight_seal (s : State) (x : ℕ) (st : Step) : (State.leaveFlight s x st).seal = s.seal := by
  simp [State.leaveFlight]

@[simp] theorem State.quenchLanesOf_seal (s : State) (lanes : List (Nat × Nat × Nat)) : (State.quenchLanesOf s lanes).seal = s.seal := by
  unfold State.quenchLanesOf
  repeat' first | (simp; done) | (intro _) | split | (rw [foldl_seal]) | (dsimp only) | (simp_all; done)

@[simp] theorem State.quenchRowsOf_seal (s : State) (x : Nat) (lines : List (Nat × Nat)) : (State.quenchRowsOf s x lines).seal = s.seal := by
  unfold State.quenchRowsOf
  repeat' first | (simp; done) | (intro _) | split | (rw [foldl_seal]) | (dsimp only) | (simp_all; done)

@[simp] theorem State.dropStep_seal (s : State) (x : ℕ) (now : ℕ) : (State.dropStep s x now).seal = s.seal := by
  unfold State.dropStep
  repeat' first | (simp; done) | (intro _) | split | (rw [foldl_seal]) | (dsimp only) | (simp_all; done)

@[simp] theorem State.withdraw_seal (s : State) (st : Step) (now : ℕ) : (State.withdraw s st now).seal = s.seal := by
  simp [State.withdraw]

@[simp] theorem State.unbind_seal (s : State) (image : Option ℕ) : (State.unbind s image).seal = s.seal := by
  unfold State.unbind
  repeat' first | (simp; done) | (intro _) | split | (rw [foldl_seal]) | (dsimp only) | (simp_all; done)

@[simp] theorem State.endTurn_seal (s : State) (x : ℕ) (kind : ℕ) (code : ℕ) (detail : ℕ) (flags : ℕ) (more : List (ℕ × ℕ × ℕ)) : (State.endTurn s x kind code detail flags more).seal = s.seal := by
  unfold State.endTurn
  repeat' first | (simp; done) | (intro _) | split | (rw [foldl_seal]) | (dsimp only) | (simp_all; done)

@[simp] theorem State.failTurn_seal (s : State) (x : ℕ) (c : Code) : (State.failTurn s x c).seal = s.seal := by
  simp [State.failTurn]

@[simp] theorem State.failBefore_seal (s : State) (x : ℕ) (seq : ℕ) (c : Code) : (State.failBefore s x seq c).seal = s.seal := by
  simp [State.failBefore]

@[simp] theorem State.release_seal (s : State) (x : ℕ) : (State.release s x).seal = s.seal := by
  simp [State.release]

@[simp] theorem State.endJob_seal (s : State) (x : ℕ) (now : ℕ) (kind : ℕ) (code : ℕ) (detail : ℕ) : (State.endJob s x now kind code detail).seal = s.seal := by
  unfold State.endJob
  repeat' first | (simp; done) | (intro _) | split | (rw [foldl_seal]) | (dsimp only) | (simp_all; done)

@[simp] theorem State.releaseEnded_seal (s : State) (x now : Nat) : (State.releaseEnded s x now).seal = s.seal := by
  unfold State.releaseEnded
  repeat' first | (simp; done) | (intro _) | split | (rw [foldl_seal]) | (dsimp only) | (simp_all; done)

@[simp] theorem State.writeCkpt_seal (s : State) (key : Nat) (k : CkptSlot) (lines : List (Nat × Nat)) : (State.writeCkpt s key k lines).seal = s.seal := by
  unfold State.writeCkpt
  repeat' first | (simp; done) | (intro _) | split | (rw [foldl_seal]) | (dsimp only) | (simp_all; done)

@[simp] theorem State.checkCkpt_seal (s : State) (key : Nat) (k : CkptSlot) : (State.checkCkpt s key k).1.seal = s.seal := by
  unfold State.checkCkpt
  repeat' first | (simp; done) | (intro _) | split | (rw [foldl_seal]) | (dsimp only) | (simp_all; done)

@[simp] theorem State.usableCkpt_seal (s : State) (key : Nat) (j : Job) : (State.usableCkpt s key j).1.seal = s.seal := by
  unfold State.usableCkpt
  repeat' first | (simp; done) | (intro _) | split | (rw [foldl_seal]) | (dsimp only) | (simp_all; done)

theorem execCheckpointDone_seal (context : ℕ) (s : State) {post : State}
    (h : execCheckpointDone context s = .next post) : post.seal = s.seal := by
  unfold execCheckpointDone at h
  repeat' first | split at h | (dsimp only at h)
  all_goals first
    | (have h := Host.Outcome.next.inj h; rw [← h]; done)
    | (have h := Host.Outcome.next.inj h; rw [← h]; simp; done)
    | (have h := Host.Outcome.next.inj h; rw [← h]; repeat' first | (simp; done) | split | (dsimp only) | (intro _) | (rw [foldl_seal]))
    | cases h

@[simp] theorem State.reload_seal (s : State) (j : Job) (k : CkptSlot) : (State.reload s j k).seal = s.seal := by
  simp [State.reload]

@[simp] theorem State.restartJob_seal (s : State) (x : ℕ) (now : ℕ) (c : Code) : (State.restartJob s x now c).seal = s.seal := by
  unfold State.restartJob
  repeat' first | (simp; done) | (intro _) | split | (rw [foldl_seal]) | (dsimp only) | (simp_all; done)

@[simp] theorem State.failWork_seal (s : State) (st : Step) (now : ℕ) (c : Code) : (State.failWork s st now c).seal = s.seal := by
  simp [State.failWork]

@[simp] theorem State.sampleAt_seal (s : State) (b : BellIn) (st : Step) (i : ℕ) : (State.sampleAt s b st i).1.seal = s.seal := by
  unfold State.sampleAt
  repeat' first | (simp; done) | (intro _) | split | (rw [foldl_seal]) | (dsimp only) | (simp_all; done)

@[simp] theorem State.samples_seal (s : State) (b : BellIn) (st : Step) (n : ℕ) : (s.samples b st n).1.seal = s.seal := by
  unfold State.samples
  exact foldl1_seal _ _ _ (fun t x => by simp)

@[simp] theorem State.chargeTenant_seal (s : State) (t : ℕ) (amount : ℕ) : (State.chargeTenant s t amount).seal = s.seal := by
  simp [State.chargeTenant]

@[simp] theorem State.emitTokens_seal (s : State) (x cookie flags now pos n : ℕ) (l : List ℕ) :
    (s.emitTokens x cookie flags now pos n l).seal = s.seal := by
  induction n generalizing s pos l with
  | zero => rfl
  | succ n ih =>
    unfold State.emitTokens
    dsimp only
    split
    · rfl
    · simp [ih]

@[simp] theorem State.noteProgress_seal (s : State) (x n : Nat) : (State.noteProgress s x n).seal = s.seal := by
  unfold State.noteProgress
  repeat' first | (simp; done) | (intro _) | split | (rw [foldl_seal]) | (dsimp only) | (simp_all; done)

@[simp] theorem State.commitTo_seal (s : State) (x : ℕ) (st : Step) (j : ℕ) (tag : ℕ) : (State.commitTo s x st j tag).seal = s.seal := by
  simp [State.commitTo]

@[simp] theorem State.floorCommitted_seal (s : State) (x : ℕ) (t : Turn) : (State.floorCommitted s x t).seal = s.seal := by
  simp [State.floorCommitted]

@[simp] theorem State.commitPrompt_seal (s : State) (b : BellIn) (st : Step) (t : Turn) (now : ℕ) : (State.commitPrompt s b st t now).seal = s.seal := by
  simp [State.commitPrompt]

@[simp] theorem State.commitTokens_seal (s : State) (b : BellIn) (st : Step) (t : Turn) (now : ℕ) : (State.commitTokens s b st t now).seal = s.seal := by
  unfold State.commitTokens
  repeat' first | (simp; done) | (intro _) | split | (rw [foldl_seal]) | (dsimp only) | (simp_all; done)

@[simp] theorem State.trainImage_seal (s : State) (x : Nat) (j : Job) : (State.trainImage s x j).seal = s.seal := by
  unfold State.trainImage
  split
  · rfl
  · rename_i old _
    dsimp only
    have h : ∀ n, ((s.allocPages (s.ownerHub x) n).getD (s, [])).1.seal = s.seal := fun n => by
      cases hr : s.allocPages (s.ownerHub x) n with
      | none => rfl
      | some r => exact State.allocPages_seal _ _ _ hr
    have h1 := h old.pages.length
    rw [← State.tick_seal] at h1
    exact h1

@[simp] theorem State.commitTemper_seal (s : State) (st : Step) (now : ℕ) : (State.commitTemper s st now).seal = s.seal := by
  unfold State.commitTemper
  repeat' first | (simp; done) | (intro _) | split | (rw [foldl_seal]) | (dsimp only) | (simp_all; done)

@[simp] theorem State.commitStep_seal (s : State) (b : BellIn) (st : Step) (now : ℕ) : (State.commitStep s b st now).seal = s.seal := by
  unfold State.commitStep
  repeat' first | (simp; done) | (intro _) | split | (rw [foldl_seal]) | (dsimp only) | (simp_all; done)

@[simp] theorem State.footpathMarks_seal (s : State) (d : ℕ) : (State.footpathMarks s d).seal = s.seal := by
  simp [State.footpathMarks]

@[simp] theorem State.fenceMarks_seal (s : State) (d : ℕ) : (State.fenceMarks s d).seal = s.seal := by
  simp [State.fenceMarks]

@[simp] theorem State.bellMarks_seal (s : State) : (State.bellMarks s).seal = s.seal := by
  simp [State.bellMarks]

@[simp] theorem State.mapRows_seal (s : State) (d : ℕ) : (s.mapRows d).seal = s.seal := by
  unfold State.mapRows
  dsimp only
  split
  · rfl
  · rw [State.modDie_seal, foldl_seal]
    intro t e
    split <;> simp

@[simp] theorem State.spareLive_seal (s : State) (d : ℕ) (j : SpareJob) : (State.spareLive s d j).seal = s.seal := by
  simp [State.spareLive]

@[simp] theorem State.latchHist_seal (s : State) (d : ℕ) : (State.latchHist s d).seal = s.seal := by
  simp [State.latchHist]

@[simp] theorem State.recordPattern_seal (s : State) (d : ℕ) : (State.recordPattern s d).seal = s.seal := by
  simp [State.recordPattern]

@[simp] theorem State.dieAtBell_seal (s : State) (now : ℕ) (d : ℕ) : (State.dieAtBell s now d).seal = s.seal := by
  simp [State.dieAtBell]

@[simp] theorem State.diesAtBell_seal (s : State) (now : ℕ) (failed : List CroftAt) : (State.diesAtBell s now failed).seal = s.seal := by
  simp [State.diesAtBell]

@[simp] theorem State.spareCast_seal (s : State) (p k : Nat) : (State.spareCast s p k).seal = s.seal := by
  unfold State.spareCast
  repeat' first | (simp; done) | (intro _) | split | (rw [foldl_seal]) | (dsimp only) | (simp_all; done)

@[simp] theorem State.spareCasts_seal (s : State) (d : ℕ) : (State.spareCasts s d).seal = s.seal := by
  unfold State.spareCasts
  repeat' first | (simp; done) | (intro _) | split | (rw [foldl_seal]) | (dsimp only) | (simp_all; done)

@[simp] theorem State.recastTurn_seal (s : State) (n : ℕ) : (State.recastTurn s n).seal = s.seal := by
  unfold State.recastTurn
  repeat' first | (simp; done) | (intro _) | split | (rw [foldl_seal]) | (dsimp only) | (simp_all; done)

@[simp] theorem State.tryCast_seal (s : State) (now : ℕ) (g : ℕ) (w : WantedCast) : (State.tryCast s now g w).seal = s.seal := by
  simp [State.tryCast]

@[simp] theorem State.startCasts_seal (s : State) (now : ℕ) : (State.startCasts s now).seal = s.seal := by
  unfold State.startCasts
  repeat' first | (simp; done) | (intro _) | split | (rw [foldl_seal]) | (dsimp only) | (simp_all; done)

@[simp] theorem State.preflight_seal (s : State) (x now n : ℕ) : (s.preflight x now n).seal = s.seal := by
  induction n generalizing s with
  | zero => rfl
  | succ n ih =>
    unfold State.preflight
    split
    · simp [ih]
    · rfl

@[simp] theorem State.adopt_seal (s : State) (x : ℕ) : (State.adopt s x).seal = s.seal := by
  unfold State.adopt
  repeat' first | (simp; done) | (intro _) | split | (rw [foldl_seal]) | (dsimp only) | (simp_all; done)

@[simp] theorem State.failAdmission_seal (s : State) (x : ℕ) (now : ℕ) (c : Code) : (State.failAdmission s x now c).seal = s.seal := by
  simp [State.failAdmission]

@[simp] theorem State.newFloor_seal (s : State) (x : Nat) : (State.newFloor s x).seal = s.seal := by
  unfold State.newFloor
  repeat' first | (simp; done) | (intro _) | split | (rw [foldl_seal]) | (dsimp only) | (simp_all; done)

@[simp] theorem State.enter_seal (s : State) (x now lane : Nat) (c : Copy) (p : StepPlan) (rerun : Bool) (image : Option AdapterRec) (charges : List (Nat × Rat)) (records : Nat) : (State.enter s x now lane c p rerun image charges records).seal = s.seal := by
  unfold State.enter
  repeat' first | (simp; done) | (intro _) | split | (rw [foldl_seal]) | (dsimp only) | (simp_all; done)

theorem Adm.tryCopy_seal (a : Adm) (now : ℕ) (k : Candidate) (c : Copy) (image : Option AdapterRec) :
    (a.tryCopy now k c image).s.seal = a.s.seal := by
  unfold Adm.tryCopy
  dsimp only
  split
  · exact State.adopt_seal _ _
  · split
    · rfl
    · split
      · simp
      · rename_i s2 l hr
        have h1 := State.reservePages_seal _ _ _ _ hr
        simp only [State.adopt_seal, State.newFloor_seal] at h1
        repeat' split
        all_goals first | rfl | (simp; done) | (simpa using h1)

theorem Adm.try_seal (now : ℕ) (copies : List Copy) (a : Adm) (k : Candidate) : (Adm.try now copies a k).s.seal = a.s.seal := by
  unfold Adm.try
  dsimp only
  repeat' split
  all_goals first | rfl | (simp; done) | exact Adm.tryCopy_seal _ _ _ _ _

@[simp] theorem State.admission_seal (s : State) (now : ℕ) : (s.admission now).seal = s.seal := by
  unfold State.admission
  dsimp only
  split
  · rfl
  · have h1 : ∀ (l : List Candidate) (a : Adm) (cs : List Copy), (l.foldl (Adm.try now cs) a).s.seal = a.s.seal := fun l => by
      induction l with
      | nil => intro a cs; rfl
      | cons x l ih => intro a cs; rw [List.foldl_cons, ih, Adm.try_seal]
    rw [h1]
    dsimp only
    rw [foldl_seal]
    intro t x
    split <;> simp

@[simp] theorem State.readReg_seal (s : State) (p : Page) (off : ℕ) (fs : List Field) : (State.readReg s p off fs).1.seal = s.seal := by
  simp [State.readReg]

@[simp] theorem State.readImage_seal (s : State) (addr len : Nat) : (State.readImage s addr len).1.seal = s.seal := by
  unfold State.readImage
  repeat' first | (simp; done) | (intro _) | split | (rw [foldl_seal]) | (dsimp only) | (simp_all; done)

@[simp] theorem State.readPack_seal (s : State) (addr : Nat) : (State.readPack s addr).1.seal = s.seal := by
  unfold State.readPack
  repeat' first | (simp; done) | (intro _) | split | (rw [foldl_seal]) | (dsimp only) | (simp_all; done)

@[simp] theorem State.dropAdapterCmd_seal (s : State) (c : AdapterCmd) : (State.dropAdapterCmd s c).seal = s.seal := by
  simp [State.dropAdapterCmd]

theorem execAdapterVerified_seal (handle : ℕ) (image : AdapterImage) (s : State) {post : State}
    (h : execAdapterVerified handle image s = .next post) : post.seal = s.seal := by
  unfold execAdapterVerified at h
  split at h
  · have h := Host.Outcome.next.inj h
    rw [← h]
  · dsimp only at h
    split at h
    · have h := Host.Outcome.next.inj h
      rw [← h]
      simp
    · split at h
      · have h := Host.Outcome.next.inj h
        rw [← h]
        simp
      · rename_i a ha
        have h := Host.Outcome.next.inj h
        rw [← h]
        simpa using State.allocPages_seal _ _ _ ha

theorem execIngotStageVerified_seal (image : IngotImage) (s : State) {post : State}
    (h : execIngotStageVerified image s = .next post) : post.seal = s.seal := by
  unfold execIngotStageVerified at h
  repeat' first | split at h | (dsimp only at h)
  all_goals first
    | (have h := Host.Outcome.next.inj h; rw [← h]; done)
    | (have h := Host.Outcome.next.inj h; rw [← h]; simp; done)
    | (have h := Host.Outcome.next.inj h; rw [← h]; repeat' first | (simp; done) | split | (dsimp only) | (intro _) | (rw [foldl_seal]))
    | cases h

@[simp] theorem State.lockRefuse_seal (s : State) (off : ℕ) (c : Code) : (State.lockRefuse s off c).1.seal = s.seal := by
  simp [State.lockRefuse]

@[simp] theorem State.writeAttest_seal (s : State) (h : ℕ) (v : Word) : (State.writeAttest s h v).1.seal = s.seal := by
  simp [State.writeAttest]

theorem execLockAttest_seal (hub : HubId) (v : Word) (s : State) {post : State}
    (h : execLockAttest hub v s = .next post) : post.seal = s.seal := by
  refine State.access_seal _ _ _ (fun u => ?_) h
  repeat' first | (simp; done) | split | (dsimp only)

@[simp] theorem State.snapAttest_seal (s : State) (now : ℕ) : (State.snapAttest s now).seal = s.seal := by
  unfold State.snapAttest
  repeat' first | (simp; done) | (intro _) | split | (rw [foldl_seal]) | (dsimp only) | (simp_all; done)

@[simp] theorem State.hostWrite_seal (s : State) (addr : ℕ) (bytes : List (BitVec 8)) : (State.hostWrite s addr bytes).seal = s.seal := by
  simp [State.hostWrite]

theorem execAttestReportDone_seal (r : ReportIn) (s : State) {post : State}
    (h : execAttestReportDone r s = .next post) : post.seal = s.seal := by
  unfold execAttestReportDone at h
  repeat' first | split at h | (dsimp only at h)
  all_goals first
    | (have h := Host.Outcome.next.inj h; rw [← h]; done)
    | (have h := Host.Outcome.next.inj h; rw [← h]; simp; done)
    | (have h := Host.Outcome.next.inj h; rw [← h]; repeat' first | (simp; done) | split | (dsimp only) | (intro _) | (rw [foldl_seal]))
    | cases h

@[simp] theorem State.drawNonce_seal (s : State) : (State.drawNonce s).seal = s.seal := by
  simp [State.drawNonce]

@[simp] theorem State.settlePorts_seal (s : State) : (State.settlePorts s).seal = s.seal := by
  simp [State.settlePorts]

@[simp] theorem State.setDomain_seal (s : State) (f : Lockhouse → Lockhouse) (hf : ∀ l, (f l).fuses = l.fuses ∧ (f l).burn = l.burn) :
    (s.setDomain f).seal = s.seal := by
  rw [← State.seal_fold, ← State.seal_fold]
  simp [State.setDomain, hf]

@[simp] theorem State.drawDomainKey_seal (s : State) : (State.drawDomainKey s).seal = s.seal := (fun _ => rfl) ()

@[simp] theorem State.tellMembers_seal (s : State) (body : List ℕ) (key : Option ℕ) : (State.tellMembers s body key).seal = s.seal := by
  simp [State.tellMembers]

@[simp] theorem State.rekey_seal (s : State) (notice : List Nat) : (State.rekey s notice).seal = s.seal := by
  unfold State.rekey
  dsimp only
  rw [State.tellMembers_seal]
  exact State.drawDomainKey_seal s

@[simp] theorem State.writeDomain_seal (s : State) (h : ℕ) (v : Word) : (State.writeDomain s h v).1.seal = s.seal := by
  have hj : ∀ (t : State) (l : Lockhouse) (m : OutMsg), l.fuses = t.lock.fuses → l.burn = t.lock.burn →
      (({ t with lock := l } : State).send m).seal = t.seal := fun t l m h1 h2 => by
    rw [State.send_seal, ← State.seal_fold, ← State.seal_fold]
    simp [h1, h2]
  unfold State.writeDomain ok
  dsimp only
  split
  · simp
  · split
    · simp
    · split
      · simp
      · split <;> split <;> try split
        all_goals try split
        all_goals first
          | (simp; done)
          | (refine (hj (s.storeFields (.lock 0) 0x120 v) _ _ ?_ ?_).trans (State.storeFields_seal _ _ _ _) <;> rfl)
          | (refine Eq.trans ?_ (State.storeFields_seal s (.lock 0) 0x120 v); refine Eq.trans ?_ (hj (s.storeFields (.lock 0) 0x120 v) _ _ ?_ ?_); rfl)

theorem execDomainJoin_seal (hub : HubId) (v : Word) (s : State) {post : State}
    (h : execDomainJoin hub v s = .next post) : post.seal = s.seal := by
  refine State.access_seal _ _ _ (fun u => ?_) h
  repeat' first | (simp; done) | split | (dsimp only)

theorem execDomainLeave_seal (hub : HubId) (v : Word) (s : State) {post : State}
    (h : execDomainLeave hub v s = .next post) : post.seal = s.seal := by
  refine State.access_seal _ _ _ (fun u => ?_) h
  repeat' first | (simp; done) | split | (dsimp only)

@[simp] theorem State.leaveAtBell_seal (s : State) : (State.leaveAtBell s).seal = s.seal := by
  simp [State.leaveAtBell]

@[simp] theorem State.joinFailed_seal (s : State) (index : ℕ) : (State.joinFailed s index).seal = s.seal := by
  simp [State.joinFailed]

theorem execJoinHello_seal (port : PortId) (r : JoinReport) (s : State) {post : State}
    (h : execJoinHello port r s = .next post) : post.seal = s.seal := by
  unfold execJoinHello at h
  repeat' first | split at h | (dsimp only at h)
  all_goals
    have h := Host.Outcome.next.inj h
    rw [← h]
  all_goals first
    | (rw [State.setDomain_seal _ _ (by simp), State.tellMembers_seal, State.send_seal]; rfl)
    | simp

theorem execJoinReply_seal (r : JoinReport) (keyEpoch : Nat) (s : State) {post : State}
    (h : execJoinReply r keyEpoch s = .next post) : post.seal = s.seal := by
  unfold execJoinReply at h
  repeat' first | split at h | (dsimp only at h)
  all_goals first
    | (have h := Host.Outcome.next.inj h; rw [← h]; done)
    | (have h := Host.Outcome.next.inj h; rw [← h]; simp; done)
    | (have h := Host.Outcome.next.inj h; rw [← h]; repeat' first | (simp; done) | split | (dsimp only) | (intro _) | (rw [foldl_seal]))
    | cases h

theorem execJoinTimeout_seal (s : State) {post : State}
    (h : execJoinTimeout s = .next post) : post.seal = s.seal := by
  unfold execJoinTimeout at h
  repeat' first | split at h | (dsimp only at h)
  all_goals first
    | (have h := Host.Outcome.next.inj h; rw [← h]; done)
    | (have h := Host.Outcome.next.inj h; rw [← h]; simp; done)
    | (have h := Host.Outcome.next.inj h; rw [← h]; repeat' first | (simp; done) | split | (dsimp only) | (intro _) | (rw [foldl_seal]))
    | cases h

theorem execKeyEpochSwitch_seal (s : State) {post : State}
    (h : execKeyEpochSwitch s = .next post) : post.seal = s.seal := by
  unfold execKeyEpochSwitch at h
  repeat' first | split at h | (dsimp only at h)
  all_goals first
    | (have h := Host.Outcome.next.inj h; rw [← h]; done)
    | (have h := Host.Outcome.next.inj h; rw [← h]; simp; done)
    | (have h := Host.Outcome.next.inj h; rw [← h]; repeat' first | (simp; done) | split | (dsimp only) | (intro _) | (rw [foldl_seal]))
    | cases h

@[simp] theorem State.sendManifest_seal (s : State) (x : ℕ) (package : ℕ) (tag : ℕ) : (State.sendManifest s x package tag).seal = s.seal := by
  simp [State.sendManifest]

@[simp] theorem State.failMigration_seal (s : State) (x : Nat) (c : Code) : (State.failMigration s x c).seal = s.seal := by
  unfold State.failMigration
  repeat' first | (simp; done) | (intro _) | split | (rw [foldl_seal]) | (dsimp only) | (simp_all; done)

@[simp] theorem State.abortMigration_seal (s : State) (x : Nat) (c : Code) : (State.abortMigration s x c).seal = s.seal := by
  unfold State.abortMigration
  repeat' first | (simp; done) | (intro _) | split | (rw [foldl_seal]) | (dsimp only) | (simp_all; done)

@[simp] theorem State.failedMigration_seal (s : State) (x now : Nat) : (State.failedMigration s x now).seal = s.seal := by
  unfold State.failedMigration
  repeat' first | (simp; done) | (intro _) | split | (rw [foldl_seal]) | (dsimp only) | (simp_all; done)

@[simp] theorem State.takeEntry_seal (s : State) (x : ℕ) (m : Manifest) (e : ℕ × ℕ × ℕ × ℕ) :
    (s.takeEntry x m e).1.seal = s.seal := by
  unfold State.takeEntry
  have h2 := State.allocPage_seal s (s.ownerHub x)
  split
  · split <;> simp_all
  · split <;> simp

@[simp] theorem State.receiveManifest_seal (s : State) (x : Nat) (m : Manifest) : (State.receiveManifest s x m).seal = s.seal := by
  unfold State.receiveManifest
  dsimp only
  split
  · simp
  · split
    · simp
    · rename_i a ha
      have h1 : a.1.seal = s.seal := (State.allocPages_seal _ _ _ ha).trans (by simp)
      split
      · rw [State.abortMigration_seal]
        refine Eq.trans ?_ h1
        simp
      · rename_i b hb
        have h2 : b.1.seal = s.seal := by
          refine (State.allocPages_seal _ _ _ hb).trans (Eq.trans ?_ h1)
          simp
        have h3 : ∀ (l : List (ℕ × ℕ)) (t : List (Nat × Nat × Nat × Nat)),
            (t.foldl (fun (acc : State × Bool) e => if acc.2 then acc.1.takeEntry x m e else acc) (b.1.enterTables x l, true)).1.seal = s.seal := fun l t => by
          rw [foldl1_seal _ _ _ (fun a e => by split <;> simp)]
          simpa using h2
        split <;> simp [h3]

@[simp] theorem State.takeManifest_seal (s : State) (x : ℕ) : (State.takeManifest s x).seal = s.seal := by
  unfold State.takeManifest
  repeat' first | (simp; done) | (intro _) | split | (rw [foldl_seal]) | (dsimp only) | (simp_all; done)

@[simp] theorem State.takeOver_seal (s : State) (x : ℕ) (now : ℕ) : (State.takeOver s x now).seal = s.seal := by
  unfold State.takeOver
  repeat' first | (simp; done) | (intro _) | split | (rw [foldl_seal]) | (dsimp only) | (simp_all; done)

theorem execRreadReq_seal (source : Fin 256) (tag : ℕ) (storeEpoch : ℕ) (page : ℕ) (first : ℕ) (len : ℕ) (s : State) {post : State}
    (h : execRreadReq source tag storeEpoch page first len s = .next post) : post.seal = s.seal := by
  unfold execRreadReq at h
  repeat' first | split at h | (dsimp only at h)
  all_goals first
    | (have h := Host.Outcome.next.inj h; rw [← h]; done)
    | (have h := Host.Outcome.next.inj h; rw [← h]; simp; done)
    | (have h := Host.Outcome.next.inj h; rw [← h]; repeat' first | (simp; done) | split | (dsimp only) | (intro _) | (rw [foldl_seal]))
    | cases h

@[simp] theorem State.storeFetched_seal (s : State) (a : ℕ) (key : ℕ) (data : List (BitVec 8)) (poison : Bool) : (State.storeFetched s a key data poison).seal = s.seal := by
  simp [State.storeFetched]

@[simp] theorem State.endCopy_seal (s : State) (x : Nat) : (State.endCopy s x).seal = s.seal := by
  unfold State.endCopy
  repeat' first | (simp; done) | (intro _) | split | (rw [foldl_seal]) | (dsimp only) | (simp_all; done)

theorem execRreadRsp_seal (port : PortId) (source : Fin 256) (tag status : Nat) (data : List (BitVec 8)) (poison : Bool) (s : State) {post : State}
    (h : execRreadRsp port source tag status data poison s = .next post) : post.seal = s.seal := by
  unfold execRreadRsp at h
  repeat' first | split at h | (dsimp only at h)
  all_goals first
    | (have h := Host.Outcome.next.inj h; rw [← h]; done)
    | (have h := Host.Outcome.next.inj h; rw [← h]; simp; done)
    | (have h := Host.Outcome.next.inj h; rw [← h]; repeat' first | (simp; done) | split | (dsimp only) | (intro _) | (rw [foldl_seal]))
    | cases h

theorem execRreadTimeout_seal (tag : Nat) (s : State) {post : State}
    (h : execRreadTimeout tag s = .next post) : post.seal = s.seal := by
  unfold execRreadTimeout at h
  repeat' first | split at h | (dsimp only at h)
  all_goals first
    | (have h := Host.Outcome.next.inj h; rw [← h]; done)
    | (have h := Host.Outcome.next.inj h; rw [← h]; simp; done)
    | (have h := Host.Outcome.next.inj h; rw [← h]; repeat' first | (simp; done) | split | (dsimp only) | (intro _) | (rw [foldl_seal]))
    | cases h

theorem execMigManifest_seal (m : Manifest) (s : State) {post : State}
    (h : execMigManifest m s = .next post) : post.seal = s.seal := by
  have h := Host.Outcome.next.inj h
  rw [← h]
  simp

theorem execMigConfirm_seal (context : ℕ) (tag : ℕ) (s : State) {post : State}
    (h : execMigConfirm context tag s = .next post) : post.seal = s.seal := by
  unfold execMigConfirm at h
  repeat' first | split at h | (dsimp only at h)
  all_goals first
    | (have h := Host.Outcome.next.inj h; rw [← h]; done)
    | (have h := Host.Outcome.next.inj h; rw [← h]; simp; done)
    | (have h := Host.Outcome.next.inj h; rw [← h]; repeat' first | (simp; done) | split | (dsimp only) | (intro _) | (rw [foldl_seal]))
    | cases h

theorem execMigAbort_seal (context tag : Nat) (code : Code) (s : State) {post : State}
    (h : execMigAbort context tag code s = .next post) : post.seal = s.seal := by
  unfold execMigAbort at h
  repeat' first | split at h | (dsimp only at h)
  all_goals first
    | (have h := Host.Outcome.next.inj h; rw [← h]; done)
    | (have h := Host.Outcome.next.inj h; rw [← h]; simp; done)
    | (have h := Host.Outcome.next.inj h; rw [← h]; repeat' first | (simp; done) | split | (dsimp only) | (intro _) | (rw [foldl_seal]))
    | cases h

theorem execMigrationTimeout_seal (context : Nat) (s : State) {post : State}
    (h : execMigrationTimeout context s = .next post) : post.seal = s.seal := by
  unfold execMigrationTimeout at h
  repeat' first | split at h | (dsimp only at h)
  all_goals first
    | (have h := Host.Outcome.next.inj h; rw [← h]; done)
    | (have h := Host.Outcome.next.inj h; rw [← h]; simp; done)
    | (have h := Host.Outcome.next.inj h; rw [← h]; repeat' first | (simp; done) | split | (dsimp only) | (intro _) | (rw [foldl_seal]))
    | cases h

@[simp] theorem State.gateCrofts_seal (s : State) : (State.gateCrofts s).seal = s.seal := by
  unfold State.gateCrofts
  repeat' first | (simp; done) | (intro _) | split | (rw [foldl_seal]) | (dsimp only) | (simp_all; done)

@[simp] theorem State.roleAtBell_seal (s : State) (b : BellIn) : (State.roleAtBell s b).seal = s.seal := by
  unfold State.roleAtBell
  repeat' first | (simp; done) | (intro _) | split | (rw [foldl_seal]) | (dsimp only) | (simp_all; done)

@[simp] theorem State.commonsAtBell_seal (s : State) : (s.commonsAtBell).seal = s.seal := by
  unfold State.commonsAtBell
  split
  · rfl
  · refine (foldl1_seal _ _ _ (fun t i => ?_)).trans (by simp)
    have h2 := State.allocPage_seal t.1 (i % 4)
    try dsimp only
    split <;> simp_all

@[simp] theorem State.unmapHandles_seal (s : State) (f : AdapterRec → Bool) : (State.unmapHandles s f).seal = s.seal := by
  simp [State.unmapHandles]

@[simp] theorem State.endSwitch_seal (s : State) (w : Switch) (c : Option Code) (f : Generations → Generations) : (State.endSwitch s w c f).seal = s.seal := by
  simp [State.endSwitch]

@[simp] theorem State.revokeAtBell_seal (s : State) : (State.revokeAtBell s).seal = s.seal := by
  unfold State.revokeAtBell
  repeat' first | (simp; done) | (intro _) | split | (rw [foldl_seal]) | (dsimp only) | (simp_all; done)

@[simp] theorem State.countPackageQuench_seal (s : State) (d : Nat) : (State.countPackageQuench s d).seal = s.seal := by
  unfold State.countPackageQuench
  repeat' first | (simp; done) | (intro _) | split | (rw [foldl_seal]) | (dsimp only) | (simp_all; done)

@[simp] theorem State.debugAtBell_seal (s : State) : (State.debugAtBell s).seal = s.seal := by
  unfold State.debugAtBell
  dsimp only
  (repeat' split) <;> simp_all

@[simp] theorem State.packageAtBell_seal (s : State) (b : BellIn) : (State.packageAtBell s b).seal = s.seal := by
  unfold State.packageAtBell
  repeat' first | (simp; done) | (intro _) | split | (rw [foldl_seal]) | (dsimp only) | (simp_all; done)

@[simp] theorem State.fenceSession_seal (s : State) (x now : Nat) : (State.fenceSession s x now).seal = s.seal := by
  unfold State.fenceSession
  repeat' first | (simp; done) | (intro _) | split | (rw [foldl_seal]) | (dsimp only) | (simp_all; done)

@[simp] theorem State.judgeStep_seal (s : State) (now : Nat) (st : Step) : (State.judgeStep s now st).seal = s.seal := by
  unfold State.judgeStep
  repeat' first | (simp; done) | (intro _) | split | (rw [foldl_seal]) | (dsimp only) | (simp_all; done)

@[simp] theorem State.action1_seal (s : State) (now : Nat) : (State.action1 s now).seal = s.seal := by
  unfold State.action1
  repeat' first | (simp; done) | (intro _) | split | (rw [foldl_seal]) | (dsimp only) | (simp_all; done)

@[simp] theorem State.action2_seal (s : State) (b : BellIn) (now : ℕ) : (State.action2 s b now).seal = s.seal := by
  simp [State.action2]

@[simp] theorem State.deadlineOf_seal (s : State) (x now : ℕ) : (s.deadlineOf x now).seal = s.seal := by
  unfold State.deadlineOf
  dsimp only
  split
  · rfl
  · rw [State.flushSession_seal, foldl_seal]
    intro t q
    generalize (match q.body with
      | .generate _ => true
      | _ => false) = gen
    try dsimp only
    split
    · split <;> simp
    · simp

@[simp] theorem State.openDone_seal (s : State) (x : ℕ) (now : ℕ) : (State.openDone s x now).seal = s.seal := by
  unfold State.openDone
  repeat' first | (simp; done) | (intro _) | split | (rw [foldl_seal]) | (dsimp only) | (simp_all; done)

@[simp] theorem State.stopOne_seal (s : State) (x now : ℕ) (stop : Queued) : (s.stopOne x now stop).seal = s.seal := by
  unfold State.stopOne
  dsimp only
  rw [State.modSess_seal, foldl_seal]
  intro t q
  try dsimp only
  split <;> simp

@[simp] theorem State.stops_seal (s : State) (x : ℕ) (now : ℕ) : (State.stops s x now).seal = s.seal := by
  simp [State.stops]

@[simp] theorem State.cancelOne_seal (s : State) (x : ℕ) (now : ℕ) : (State.cancelOne s x now).seal = s.seal := by
  unfold State.cancelOne
  repeat' first | (simp; done) | (intro _) | split | (rw [foldl_seal]) | (dsimp only) | (simp_all; done)

@[simp] theorem State.headOne_seal (s : State) (x : ℕ) (now : ℕ) : (State.headOne s x now).seal = s.seal := by
  unfold State.headOne
  repeat' first | (simp; done) | (intro _) | split | (rw [foldl_seal]) | (dsimp only) | (simp_all; done)

@[simp] theorem State.endedJob_seal (s : State) (x now : Nat) : (State.endedJob s x now).seal = s.seal := by
  unfold State.endedJob
  repeat' first | (simp; done) | (intro _) | split | (rw [foldl_seal]) | (dsimp only) | (simp_all; done)

@[simp] theorem State.controls_seal (s : State) (x : ℕ) (now : ℕ) : (State.controls s x now).seal = s.seal := by
  simp [State.controls]

@[simp] theorem State.clearFrees_seal (s : State) (due : List (Nat × List Nat × Option Nat)) : (State.clearFrees s due).seal = s.seal := by
  unfold State.clearFrees
  repeat' first | (simp; done) | (intro _) | split | (rw [foldl_seal]) | (dsimp only) | (simp_all; done)

@[simp] theorem State.action5_seal (s : State) (due : List (Nat × List Nat × Option Nat)) : (State.action5 s due).seal = s.seal := by
  unfold State.action5
  repeat' first | (simp; done) | (intro _) | split | (rw [foldl_seal]) | (dsimp only) | (simp_all; done)

@[simp] theorem State.action6_seal (s : State) : (State.action6 s).seal = s.seal := by
  simp [State.action6]

@[simp] theorem State.recastCroft_seal (s : State) (n : Nat) : (State.recastCroft s n).seal = s.seal := by
  unfold State.recastCroft
  repeat' first | (simp; done) | (intro _) | split | (rw [foldl_seal]) | (dsimp only) | (simp_all; done)

@[simp] theorem State.beginRecast_seal (s : State) : (State.beginRecast s).seal = s.seal := by
  simp [State.beginRecast]

@[simp] theorem State.loadAll_seal (s : State) (l : List PatternRef) : (s.loadAll l).1.seal = s.seal := by
  induction l generalizing s with
  | nil => rfl
  | cons r rest ih =>
    unfold State.loadAll
    split
    · rfl
    · simp [ih]

@[simp] theorem State.action7_seal (s : State) : (State.action7 s).seal = s.seal := by
  unfold State.action7
  repeat' first | (simp; done) | (intro _) | split | (rw [foldl_seal]) | (dsimp only) | (simp_all; done)

@[simp] theorem State.action8_seal (s : State) : (State.action8 s).seal = s.seal := by
  simp [State.action8]

@[simp] theorem State.action9_seal (s : State) (now : ℕ) : (State.action9 s now).seal = s.seal := by
  simp [State.action9]

@[simp] theorem State.keepLanes_seal (s : State) : (State.keepLanes s).seal = s.seal := by
  simp [State.keepLanes]

@[simp] theorem State.snapshot_seal (s : State) (now : ℕ) (old : List ℕ) : (State.snapshot s now old).seal = s.seal := by
  simp [State.snapshot]

@[simp] theorem State.eachSession_seal (s : State) (f : State → ℕ → State) (h : ∀ t x, (f t x).seal = t.seal) :
    (s.eachSession f).seal = s.seal := foldl_seal f _ s h

@[simp] theorem State.writeHeld_seal (s : State) (now : ℕ) : (s.writeHeld now).seal = s.seal := by
  simp [State.writeHeld, State.eachSession]

@[simp] theorem State.ringBell_seal (s : State) (now : ℕ) : (State.ringBell s now).seal = s.seal := by
  simp [State.ringBell]

@[simp] theorem State.scheduleBell_seal (s : State) (now : ℕ) : (State.scheduleBell s now).seal = s.seal := by
  simp [State.scheduleBell]

@[simp] theorem State.chargeLeak_seal (s : State) : (State.chargeLeak s).seal = s.seal := by
  simp [State.chargeLeak]

@[simp] theorem State.bellAt_seal (s : State) (b : BellIn) (now : Nat) : (State.bellAt s b now).seal = s.seal := by
  unfold State.bellAt
  repeat' first | (simp; done) | (intro _) | split | (rw [foldl_seal]) | (dsimp only) | (simp_all; done)

theorem execBell_seal (b : BellIn) (s : State) {post : State}
    (h : execBell b s = .next post) : post.seal = s.seal := by
  unfold execBell at h
  repeat' first | split at h | (dsimp only at h)
  all_goals first
    | (have h := Host.Outcome.next.inj h; rw [← h]; done)
    | (have h := Host.Outcome.next.inj h; rw [← h]; simp; done)
    | (have h := Host.Outcome.next.inj h; rw [← h]; repeat' first | (simp; done) | split | (dsimp only) | (intro _) | (rw [foldl_seal]))
    | cases h

@[simp] theorem State.writeCfg_seal (s : State) (w : ℕ) (n : ℕ) (v : Word) : (State.writeCfg s w n v).1.seal = s.seal := by
  simp [State.writeCfg]

theorem execRespCfg_seal (w : WinId) (ring : Fin 9) (v : Word) (s : State) {post : State}
    (h : execRespCfg w ring v s = .next post) : post.seal = s.seal := by
  refine State.access_seal _ _ _ (fun u => ?_) h
  repeat' first | (simp; done) | split | (dsimp only)

@[simp] theorem State.resumeRing_seal (s : State) (w : ℕ) (n : ℕ) : (State.resumeRing s w n).seal = s.seal := by
  simp [State.resumeRing]

@[simp] theorem State.writeRelease_seal (s : State) (w : ℕ) (n : ℕ) (v : Word) : (State.writeRelease s w n v).1.seal = s.seal := by
  simp [State.writeRelease]

theorem execRespRelease_seal (w : WinId) (ring : Fin 9) (v : Word) (s : State) {post : State}
    (h : execRespRelease w ring v s = .next post) : post.seal = s.seal := by
  refine State.access_seal _ _ _ (fun u => ?_) h
  repeat' first | (simp; done) | split | (dsimp only)

@[simp] theorem State.writeNextSeq_seal (s : State) (w : ℕ) (v : Word) : (State.writeNextSeq s w v).1.seal = s.seal := by
  simp [State.writeNextSeq]

theorem execNextSeq_seal (w : WinId) (v : Word) (s : State) {post : State}
    (h : execNextSeq w v s = .next post) : post.seal = s.seal := by
  refine State.access_seal _ _ _ (fun u => ?_) h
  repeat' first | (simp; done) | split | (dsimp only)

@[simp] theorem State.writeRole_seal (s : State) (v : Word) : (State.writeRole s v).1.seal = s.seal := by
  simp [State.writeRole]

theorem execSysRole_seal (v : Word) (s : State) {post : State}
    (h : execSysRole v s = .next post) : post.seal = s.seal := by
  refine State.access_seal _ _ _ (fun u => ?_) h
  repeat' first | (simp; done) | split | (dsimp only)

@[simp] theorem State.writeBellNs_seal (s : State) (v : Word) : (State.writeBellNs s v).1.seal = s.seal := by
  simp [State.writeBellNs]

theorem execBellNs_seal (v : Word) (s : State) {post : State}
    (h : execBellNs v s = .next post) : post.seal = s.seal := by
  refine State.access_seal _ _ _ (fun u => ?_) h
  repeat' first | (simp; done) | split | (dsimp only)

@[simp] theorem State.writePartSize_seal (s : State) (v : Word) : (State.writePartSize s v).1.seal = s.seal := by
  simp [State.writePartSize]

theorem execPartSize_seal (v : Word) (s : State) {post : State}
    (h : execPartSize v s = .next post) : post.seal = s.seal := by
  refine State.access_seal _ _ _ (fun u => ?_) h
  repeat' first | (simp; done) | split | (dsimp only)

@[simp] theorem State.copyPack_seal (s : State) (i : PackImage) : (State.copyPack s i).seal = s.seal := by
  unfold State.copyPack
  repeat' first | (simp; done) | (intro _) | split | (rw [foldl_seal]) | (dsimp only) | (simp_all; done)

@[simp] theorem State.writePackLoad_seal (s : State) (v : Word) : (s.writePackLoad v).1.seal = s.seal := by
  unfold State.writePackLoad ok
  dsimp only
  split
  · simp
  · split
    · split <;> simp
    · split <;> simp

theorem execPackLoadGo_seal (v : Word) (s : State) {post : State} (h : execPackLoadGo v s = .next post) : post.seal = s.seal :=
  State.access_seal _ _ _ (fun _ => by simp) h

theorem execPackLoadClear_seal (v : Word) (s : State) {post : State} (h : execPackLoadClear v s = .next post) : post.seal = s.seal :=
  State.access_seal _ _ _ (fun _ => by simp) h

@[simp] theorem State.writeBudget_seal (s : State) (t : ℕ) (v : Word) : (State.writeBudget s t v).1.seal = s.seal := by
  simp [State.writeBudget]

theorem execTenantBudget_seal (tenant : Fin 4096) (v : Word) (s : State) {post : State}
    (h : execTenantBudget tenant v s = .next post) : post.seal = s.seal := by
  refine State.access_seal _ _ _ (fun u => ?_) h
  repeat' first | (simp; done) | split | (dsimp only)

@[simp] theorem State.writeClassLimit_seal (s : State) (v : Word) : (State.writeClassLimit s v).1.seal = s.seal := by
  simp [State.writeClassLimit]

theorem execClassLimit_seal (v : Word) (s : State) {post : State}
    (h : execClassLimit v s = .next post) : post.seal = s.seal := by
  refine State.access_seal _ _ _ (fun u => ?_) h
  repeat' first | (simp; done) | split | (dsimp only)

@[simp] theorem State.writeDebtClear_seal (s : State) (v : Word) : (State.writeDebtClear s v).1.seal = s.seal := by
  simp [State.writeDebtClear]

theorem execDebtClear_seal (v : Word) (s : State) {post : State}
    (h : execDebtClear v s = .next post) : post.seal = s.seal := by
  refine State.access_seal _ _ _ (fun u => ?_) h
  repeat' first | (simp; done) | split | (dsimp only)

@[simp] theorem State.writeCap_seal (s : State) (v : Word) : (State.writeCap s v).1.seal = s.seal := by
  simp [State.writeCap]

@[simp] theorem State.noteWatermark_seal (s : State) (c : ℕ) : (State.noteWatermark s c).seal = s.seal := by
  simp [State.noteWatermark]

@[simp] theorem State.startSequence_seal (s : State) (c : ℕ) : (State.startSequence s c).seal = s.seal := by
  simp [State.startSequence]

@[simp] theorem State.writeSenseCtl_seal (s : State) (c : ℕ) (v : Word) : (State.writeSenseCtl s c v).1.seal = s.seal := by
  simp [State.writeSenseCtl]

theorem execSenseApply_seal (conv : Fin 20) (v : Word) (s : State) {post : State}
    (h : execSenseApply conv v s = .next post) : post.seal = s.seal := by
  refine State.access_seal _ _ _ (fun u => ?_) h
  repeat' first | (simp; done) | split | (dsimp only)

@[simp] theorem State.writeSeq_seal (s : State) (c : ℕ) (off : ℕ) (v : Word) : (State.writeSeq s c off v).1.seal = s.seal := by
  simp [State.writeSeq]

@[simp] theorem State.writeUrgent_seal (s : State) (c : ℕ) (v : Word) : (State.writeUrgent s c v).1.seal = s.seal := by
  simp [State.writeUrgent]

theorem execSenseUrgent_seal (conv : Fin 20) (v : Word) (s : State) {post : State}
    (h : execSenseUrgent conv v s = .next post) : post.seal = s.seal := by
  refine State.access_seal _ _ _ (fun u => ?_) h
  repeat' first | (simp; done) | split | (dsimp only)

@[simp] theorem State.writeRingCfg_seal (s : State) (c : ℕ) (v : Word) : (State.writeRingCfg s c v).1.seal = s.seal := by
  simp [State.writeRingCfg]

theorem execRingCfg_seal (conv : Fin 20) (v : Word) (s : State) {post : State}
    (h : execRingCfg conv v s = .next post) : post.seal = s.seal := by
  refine State.access_seal _ _ _ (fun u => ?_) h
  repeat' first | (simp; done) | split | (dsimp only)

@[simp] theorem State.writeRingRd_seal (s : State) (c : ℕ) (v : Word) : (State.writeRingRd s c v).1.seal = s.seal := by
  simp [State.writeRingRd]

theorem execRingRd_seal (conv : Fin 20) (v : Word) (s : State) {post : State}
    (h : execRingRd conv v s = .next post) : post.seal = s.seal := by
  refine State.access_seal _ _ _ (fun u => ?_) h
  repeat' first | (simp; done) | split | (dsimp only)

@[simp] theorem State.writePool_seal (s : State) (v : Word) : (State.writePool s v).1.seal = s.seal := by
  simp [State.writePool]

theorem execCommonsPool_seal (v : Word) (s : State) {post : State}
    (h : execCommonsPool v s = .next post) : post.seal = s.seal := by
  refine State.access_seal _ _ _ (fun u => ?_) h
  repeat' first | (simp; done) | split | (dsimp only)

@[simp] theorem State.writeStage_seal (s : State) (k : ℕ) (n : ℕ) (v : Word) : (State.writeStage s k n v).1.seal = s.seal := by
  unfold State.writeStage
  repeat' first | (simp; done) | (intro _) | split | (rw [foldl_seal]) | (dsimp only) | (simp_all; done)

theorem execStackStage_seal (stack : StackId) (n : Fin 4) (v : Word) (s : State) {post : State}
    (h : execStackStage stack n v s = .next post) : post.seal = s.seal := by
  refine State.access_seal _ _ _ (fun u => ?_) h
  repeat' first | (simp; done) | split | (dsimp only)

@[simp] theorem State.writeInject_seal (s : State) (k : ℕ) (v : Word) : (State.writeInject s k v).1.seal = s.seal := by
  unfold State.writeInject
  repeat' first | (simp; done) | (intro _) | split | (rw [foldl_seal]) | (dsimp only) | (simp_all; done)

theorem execStackInject_seal (stack : StackId) (v : Word) (s : State) {post : State}
    (h : execStackInject stack v s = .next post) : post.seal = s.seal := by
  refine State.access_seal _ _ _ (fun u => ?_) h
  repeat' first | (simp; done) | split | (dsimp only)

@[simp] theorem State.writeRreadTo_seal (s : State) (p : ℕ) (v : Word) : (State.writeRreadTo s p v).1.seal = s.seal := by
  simp [State.writeRreadTo]

@[simp] theorem State.writeTmux_seal (s : State) (pin : ℕ) (v : Word) : (State.writeTmux s pin v).1.seal = s.seal := by
  simp [State.writeTmux]

theorem execTmuxSelect_seal (pin : Fin 10) (v : Word) (s : State) {post : State}
    (h : execTmuxSelect pin v s = .next post) : post.seal = s.seal := by
  refine State.access_seal _ _ _ (fun u => ?_) h
  repeat' first | (simp; done) | split | (dsimp only)

@[simp] theorem State.writeErrStatus_seal (s : State) (p : Page) (v : Word) : (State.writeErrStatus s p v).1.seal = s.seal := by
  simp [State.writeErrStatus]

theorem execErrStatusClear_seal (page : ℕ) (v : Word) (s : State) {post : State}
    (h : execErrStatusClear page v s = .next post) : post.seal = s.seal := by
  refine State.access_seal _ _ _ (fun u => ?_) h
  repeat' first | (simp; done) | split | (dsimp only)

theorem execKyrokFlitReceive_seal (f : FlitIn) (s : State) {post : State}
    (h : execKyrokFlitReceive f s = .next post) : post.seal = s.seal := by
  unfold execKyrokFlitReceive at h
  repeat' first | split at h | (dsimp only at h)
  all_goals first
    | (have h := Host.Outcome.next.inj h; rw [← h]; done)
    | (have h := Host.Outcome.next.inj h; rw [← h]; simp; done)
    | (have h := Host.Outcome.next.inj h; rw [← h]; repeat' first | (simp; done) | split | (dsimp only) | (intro _) | (rw [foldl_seal]))
    | cases h

theorem execKyrokCtrlFlit_seal (f : CtrlFlit) (s : State) {post : State}
    (h : execKyrokCtrlFlit f s = .next post) : post.seal = s.seal := by
  unfold execKyrokCtrlFlit at h
  repeat' first | split at h | (dsimp only at h)
  all_goals first
    | (have h := Host.Outcome.next.inj h; rw [← h]; done)
    | (have h := Host.Outcome.next.inj h; rw [← h]; simp; done)
    | (have h := Host.Outcome.next.inj h; rw [← h]; repeat' first | (simp; done) | split | (dsimp only) | (intro _) | (rw [foldl_seal]))
    | cases h

theorem execCtrlFlitSend_seal (port : PortId) (s : State) {post : State}
    (h : execCtrlFlitSend port s = .next post) : post.seal = s.seal := by
  unfold execCtrlFlitSend at h
  repeat' first | split at h | (dsimp only at h)
  all_goals first
    | (have h := Host.Outcome.next.inj h; rw [← h]; done)
    | (have h := Host.Outcome.next.inj h; rw [← h]; simp; done)
    | (have h := Host.Outcome.next.inj h; rw [← h]; repeat' first | (simp; done) | split | (dsimp only) | (intro _) | (rw [foldl_seal]))
    | cases h

theorem execLaneRetire_seal (port : PortId) (lane : Fin 8) (s : State) {post : State}
    (h : execLaneRetire port lane s = .next post) : post.seal = s.seal := by
  unfold execLaneRetire at h
  repeat' first | split at h | (dsimp only at h)
  all_goals first
    | (have h := Host.Outcome.next.inj h; rw [← h]; done)
    | (have h := Host.Outcome.next.inj h; rw [← h]; simp; done)
    | (have h := Host.Outcome.next.inj h; rw [← h]; repeat' first | (simp; done) | split | (dsimp only) | (intro _) | (rw [foldl_seal]))
    | cases h

theorem execKyrokPortTrained_seal (port : PortId) (lanes : ℕ) (peerPackage : Fin 256) (peerPort : PortId) (s : State) {post : State}
    (h : execKyrokPortTrained port lanes peerPackage peerPort s = .next post) : post.seal = s.seal := by
  unfold execKyrokPortTrained at h
  repeat' first | split at h | (dsimp only at h)
  all_goals first
    | (have h := Host.Outcome.next.inj h; rw [← h]; done)
    | (have h := Host.Outcome.next.inj h; rw [← h]; simp; done)
    | (have h := Host.Outcome.next.inj h; rw [← h]; repeat' first | (simp; done) | split | (dsimp only) | (intro _) | (rw [foldl_seal]))
    | cases h

@[simp] theorem State.authDiscard_seal (s : State) (p src : Nat) : (State.authDiscard s p src).seal = s.seal := by
  unfold State.authDiscard
  repeat' first | (simp; done) | (intro _) | split | (rw [foldl_seal]) | (dsimp only) | (simp_all; done)

@[simp] theorem State.takeMessage_seal (s : State) (p : Nat) (vl : Bool) (l : List Flit) : (State.takeMessage s p vl l).seal = s.seal := by
  unfold State.takeMessage
  repeat' first | (simp; done) | (intro _) | split | (rw [foldl_seal]) | (dsimp only) | (simp_all; done)

theorem execKyrokForward_seal (port : PortId) (originated : Bool) (destination : Fin 256) (vl : Bool) (s : State) {post : State}
    (h : execKyrokForward port originated destination vl s = .next post) : post.seal = s.seal := by
  unfold execKyrokForward at h
  repeat' first | split at h | (dsimp only at h)
  all_goals first
    | (have h := Host.Outcome.next.inj h; rw [← h]; done)
    | (have h := Host.Outcome.next.inj h; rw [← h]; simp; done)
    | (have h := Host.Outcome.next.inj h; rw [← h]; repeat' first | (simp; done) | split | (dsimp only) | (intro _) | (rw [foldl_seal]))
    | cases h

@[simp] theorem State.openMessage_seal (s : State) (p : Nat) (b : List Nat) : (State.openMessage s p b).seal = s.seal := by
  unfold State.openMessage
  repeat' first | (simp; done) | (intro _) | split | (rw [foldl_seal]) | (dsimp only) | (simp_all; done)

theorem execKyrokAuthDiscard_seal (port : PortId) (vl : Bool) (s : State) {post : State}
    (h : execKyrokAuthDiscard port vl s = .next post) : post.seal = s.seal := by
  unfold execKyrokAuthDiscard at h
  repeat' first | split at h | (dsimp only at h)
  all_goals first
    | (have h := Host.Outcome.next.inj h; rw [← h]; done)
    | (have h := Host.Outcome.next.inj h; rw [← h]; simp; done)
    | (have h := Host.Outcome.next.inj h; rw [← h]; repeat' first | (simp; done) | split | (dsimp only) | (intro _) | (rw [foldl_seal]))
    | cases h

theorem execKyrokBarrier_seal (number : ℕ) (release : Bool) (source : Fin 256) (s : State) {post : State}
    (h : execKyrokBarrier number release source s = .next post) : post.seal = s.seal := by
  unfold execKyrokBarrier at h
  repeat' first | split at h | (dsimp only at h)
  all_goals first
    | (have h := Host.Outcome.next.inj h; rw [← h]; done)
    | (have h := Host.Outcome.next.inj h; rw [← h]; simp; done)
    | (have h := Host.Outcome.next.inj h; rw [← h]; repeat' first | (simp; done) | split | (dsimp only) | (intro _) | (rw [foldl_seal]))
    | cases h

@[simp] theorem State.modLeaseOf_seal (s : State) (r : Leased) (f : Lease → Lease) : (State.modLeaseOf s r f).seal = s.seal := by
  unfold State.modLeaseOf
  repeat' first | (simp; done) | (intro _) | split | (rw [foldl_seal]) | (dsimp only) | (simp_all; done)

@[simp] theorem State.answerLease_seal (s : State) (r : Leased) (a : Reply) : (State.answerLease s r a).seal = s.seal := by
  unfold State.answerLease
  repeat' first | (simp; done) | (intro _) | split | (rw [foldl_seal]) | (dsimp only) | (simp_all; done)

@[simp] theorem State.refuseLease_seal (s : State) (r : Leased) (c : Code) : (State.refuseLease s r c).seal = s.seal := by
  unfold State.refuseLease
  repeat' first | (simp; done) | (intro _) | split | (rw [foldl_seal]) | (dsimp only) | (simp_all; done)

@[simp] theorem State.leaseTraffic_seal (s : State) (r : Leased) (n : Nat) : (State.leaseTraffic s r n).seal = s.seal := by
  unfold State.leaseTraffic
  repeat' first | (simp; done) | (intro _) | split | (rw [foldl_seal]) | (dsimp only) | (simp_all; done)

@[simp] theorem State.endLease_seal (s : State) (r : Leased) : (State.endLease s r).seal = s.seal := by
  unfold State.endLease
  repeat' first | (simp; done) | (intro _) | split | (rw [foldl_seal]) | (dsimp only) | (simp_all; done)

@[simp] theorem State.endFaulty_seal (s : State) (r : Leased) : (State.endFaulty s r).seal = s.seal := by
  unfold State.endFaulty
  repeat' first | (simp; done) | (intro _) | split | (rw [foldl_seal]) | (dsimp only) | (simp_all; done)

@[simp] theorem State.rebuildTables_seal (s : State) (r : Leased) : (State.rebuildTables s r).seal = s.seal := by
  unfold State.rebuildTables
  repeat' first | (simp; done) | (intro _) | split | (rw [foldl_seal]) | (dsimp only) | (simp_all; done)

theorem execLeaseRequest_seal (resource : Leased) (holder : Holder) (termUs : Nat) (s : State) {post : State}
    (h : execLeaseRequest resource holder termUs s = .next post) : post.seal = s.seal := by
  unfold execLeaseRequest at h
  repeat' first | split at h | (dsimp only at h)
  all_goals first
    | (have h := Host.Outcome.next.inj h; rw [← h]; done)
    | (have h := Host.Outcome.next.inj h; rw [← h]; simp; done)
    | (have h := Host.Outcome.next.inj h; rw [← h]; repeat' first | (simp; done) | split | (dsimp only) | (intro _) | (rw [foldl_seal]))
    | cases h

theorem execLeaseRenewal_seal (resource : Leased) (holder : Holder) (termUs : Nat) (s : State) {post : State}
    (h : execLeaseRenewal resource holder termUs s = .next post) : post.seal = s.seal := by
  unfold execLeaseRenewal at h
  repeat' first | split at h | (dsimp only at h)
  all_goals first
    | (have h := Host.Outcome.next.inj h; rw [← h]; done)
    | (have h := Host.Outcome.next.inj h; rw [← h]; simp; done)
    | (have h := Host.Outcome.next.inj h; rw [← h]; repeat' first | (simp; done) | split | (dsimp only) | (intro _) | (rw [foldl_seal]))
    | cases h

theorem execLeaseRelease_seal (resource : Leased) (holder : Holder) (s : State) {post : State}
    (h : execLeaseRelease resource holder s = .next post) : post.seal = s.seal := by
  unfold execLeaseRelease at h
  repeat' first | split at h | (dsimp only at h)
  all_goals first
    | (have h := Host.Outcome.next.inj h; rw [← h]; done)
    | (have h := Host.Outcome.next.inj h; rw [← h]; simp; done)
    | (have h := Host.Outcome.next.inj h; rw [← h]; repeat' first | (simp; done) | split | (dsimp only) | (intro _) | (rw [foldl_seal]))
    | cases h

theorem execLeaseExpiry_seal (resource : Leased) (s : State) {post : State}
    (h : execLeaseExpiry resource s = .next post) : post.seal = s.seal := by
  unfold execLeaseExpiry at h
  repeat' first | split at h | (dsimp only at h)
  all_goals first
    | (have h := Host.Outcome.next.inj h; rw [← h]; done)
    | (have h := Host.Outcome.next.inj h; rw [← h]; simp; done)
    | (have h := Host.Outcome.next.inj h; rw [← h]; repeat' first | (simp; done) | split | (dsimp only) | (intro _) | (rw [foldl_seal]))
    | cases h

@[simp] theorem State.restartChannel_seal (s : State) (h : HubId) (c : Nat) : (State.restartChannel s h c).seal = s.seal := by
  unfold State.restartChannel
  repeat' first | (simp; done) | (intro _) | split | (rw [foldl_seal]) | (dsimp only) | (simp_all; done)

@[simp] theorem State.haltCore_seal (s : State) (h : HubId) (core : Fin 16) : (State.haltCore s h core).seal = s.seal := by
  unfold State.haltCore
  repeat' first | (simp; done) | (intro _) | split | (rw [foldl_seal]) | (dsimp only) | (simp_all; done)

@[simp] theorem State.writeMarks_seal (s : State) : (State.writeMarks s).seal = s.seal := by
  simp [State.writeMarks]

@[simp] theorem State.dropUndecided_seal (s : State) : (State.dropUndecided s).seal = s.seal := by
  simp [State.dropUndecided]

@[simp] theorem State.writeDormant_seal (s : State) (v : Word) : (State.writeDormant s v).1.seal = s.seal := by
  unfold State.writeDormant
  repeat' first | (simp; done) | (intro _) | split | (rw [foldl_seal]) | (dsimp only) | (simp_all; done)

theorem execDormantEnter_seal (v : Word) (s : State) {post : State}
    (h : execDormantEnter v s = .next post) : post.seal = s.seal := by
  refine State.access_seal _ _ _ (fun u => ?_) h
  repeat' first | (simp; done) | split | (dsimp only)

theorem execDormancyAck_seal (s : State) {post : State}
    (h : execDormancyAck s = .next post) : post.seal = s.seal := by
  unfold execDormancyAck at h
  repeat' first | split at h | (dsimp only at h)
  all_goals first
    | (have h := Host.Outcome.next.inj h; rw [← h]; done)
    | (have h := Host.Outcome.next.inj h; rw [← h]; simp; done)
    | (have h := Host.Outcome.next.inj h; rw [← h]; repeat' first | (simp; done) | split | (dsimp only) | (intro _) | (rw [foldl_seal]))
    | cases h

@[simp] theorem State.requestPower_seal (s : State) : (State.requestPower s).seal = s.seal := by
  simp [State.requestPower]

theorem execWake_seal (lowNs : ℕ) (s : State) {post : State}
    (h : execWake lowNs s = .next post) : post.seal = s.seal := by
  unfold execWake at h
  repeat' first | split at h | (dsimp only at h)
  all_goals first
    | (have h := Host.Outcome.next.inj h; rw [← h]; done)
    | (have h := Host.Outcome.next.inj h; rw [← h]; simp; done)
    | (have h := Host.Outcome.next.inj h; rw [← h]; repeat' first | (simp; done) | split | (dsimp only) | (intro _) | (rw [foldl_seal]))
    | cases h

theorem execPfailWarning_seal (lowNs : ℕ) (s : State) {post : State}
    (h : execPfailWarning lowNs s = .next post) : post.seal = s.seal := by
  unfold execPfailWarning at h
  repeat' first | split at h | (dsimp only at h)
  all_goals first
    | (have h := Host.Outcome.next.inj h; rw [← h]; done)
    | (have h := Host.Outcome.next.inj h; rw [← h]; simp; done)
    | (have h := Host.Outcome.next.inj h; rw [← h]; repeat' first | (simp; done) | split | (dsimp only) | (intro _) | (rw [foldl_seal]))
    | cases h

@[simp] theorem State.trainModule_seal (s : State) (t : Training) : (State.trainModule s t).seal = s.seal := by
  unfold State.trainModule
  repeat' first | (simp; done) | (intro _) | split | (rw [foldl_seal]) | (dsimp only) | (simp_all; done)

@[simp] theorem State.badRow_seal (s : State) (p : ParityPlace) : (State.badRow s p).seal = s.seal := by
  unfold State.badRow
  repeat' first | (simp; done) | (intro _) | split | (rw [foldl_seal]) | (dsimp only) | (simp_all; done)

@[simp] theorem State.placeCrofts_seal (s : State) : (State.placeCrofts s).seal = s.seal := by
  simp [State.placeCrofts]

@[simp] theorem State.probeLeft_seal (s : State) (clear : List (ℕ × ℕ)) : (State.probeLeft s clear).seal = s.seal := by
  simp [State.probeLeft]

@[simp] theorem State.fillSlot_seal (s : State) (n k : Nat) : (State.fillSlot s n k).seal = s.seal := by
  unfold State.fillSlot
  repeat' first | (simp; done) | (intro _) | split | (rw [foldl_seal]) | (dsimp only) | (simp_all; done)

@[simp] theorem State.fillSlots_seal (s : State) : (State.fillSlots s).seal = s.seal := by
  simp [State.fillSlots]

@[simp] theorem State.startFence_seal (s : State) (router : Bool) (n : Nat) : (State.startFence s router n).seal = s.seal := by
  unfold State.startFence
  repeat' first | (simp; done) | (intro _) | split | (rw [foldl_seal]) | (dsimp only) | (simp_all; done)

@[simp] theorem State.mapAfresh_seal (s : State) : (State.mapAfresh s).seal = s.seal := by
  unfold State.mapAfresh
  repeat' first | (simp; done) | (intro _) | split | (rw [foldl_seal]) | (dsimp only) | (simp_all; done)

@[simp] theorem State.fitPatches_seal (s : State) : (State.fitPatches s).seal = s.seal := by
  simp [State.fitPatches]

@[simp] theorem State.cleanPool_seal (s : State) : (State.cleanPool s).seal = s.seal := by
  simp [State.cleanPool]

@[simp] theorem State.evalService_seal (s : State) : (State.evalService s).seal = s.seal := by
  simp [State.evalService]

theorem execServiceStateEval_seal (s : State) {post : State}
    (h : execServiceStateEval s = .next post) : post.seal = s.seal := by
  unfold execServiceStateEval at h
  repeat' first | split at h | (dsimp only at h)
  all_goals first
    | (have h := Host.Outcome.next.inj h; rw [← h]; done)
    | (have h := Host.Outcome.next.inj h; rw [← h]; simp; done)
    | (have h := Host.Outcome.next.inj h; rw [← h]; repeat' first | (simp; done) | split | (dsimp only) | (intro _) | (rw [foldl_seal]))
    | cases h

@[simp] theorem State.alignBell_seal (s : State) : (State.alignBell s).seal = s.seal := by
  simp [State.alignBell]

@[simp] theorem State.reportReady_seal (s : State) : (State.reportReady s).seal = s.seal := by
  simp [State.reportReady]

@[simp] theorem State.finishStart_seal (s : State) (b : Bundle) : (State.finishStart s b).seal = s.seal := by
  unfold State.finishStart
  repeat' first | (simp; done) | (intro _) | split | (rw [foldl_seal]) | (dsimp only) | (simp_all; done)

theorem execTimeAlign_seal (skew : List ℤ) (reeveSkew : List ℤ) (s : State) {post : State}
    (h : execTimeAlign skew reeveSkew s = .next post) : post.seal = s.seal := by
  unfold execTimeAlign at h
  repeat' first | split at h | (dsimp only at h)
  all_goals first
    | (have h := Host.Outcome.next.inj h; rw [← h]; done)
    | (have h := Host.Outcome.next.inj h; rw [← h]; simp; done)
    | (have h := Host.Outcome.next.inj h; rw [← h]; repeat' first | (simp; done) | split | (dsimp only) | (intro _) | (rw [foldl_seal]))
    | cases h

@[simp] theorem State.writeWarmReset_seal (s : State) (v : Word) : (State.writeWarmReset s v).1.seal = s.seal := by
  unfold State.writeWarmReset
  repeat' first | (simp; done) | (intro _) | split | (rw [foldl_seal]) | (dsimp only) | (simp_all; done)

theorem execWarmReset_seal (v : Word) (s : State) {post : State} (h : execWarmReset v s = .next post) : post.seal = s.seal := by
  unfold execWarmReset at h
  split at h
  · have h := Host.Outcome.next.inj h
    rw [← h]
    simp
  · exact State.access_seal _ _ _ (fun u => by simp) h

@[simp] theorem State.refuseAt_seal (s : State) (m : ℕ) (a : ℕ) (c : Code) : (State.refuseAt s m a c).seal = s.seal := by
  unfold State.refuseAt
  split <;> simp

@[simp] theorem State.sourceModule_seal (s t : State) (p : Page) (m : ℕ) : (s.sourceModule t p m).seal = t.seal := by
  unfold State.sourceModule
  split <;> simp

@[simp] theorem State.busRead_seal (s : State) (m : ℕ) (a : ℕ) (width : ℕ) : (State.busRead s m a width).1.seal = s.seal := by
  unfold State.busRead
  repeat' first | (simp; done) | (intro _) | split | (rw [foldl_seal]) | (dsimp only) | (simp_all; done)

@[simp] theorem State.takeCredit_seal (s : State) (m : ℕ) (a : ℕ) (posted : Bool) : (State.takeCredit s m a posted).1.seal = s.seal := by
  simp [State.takeCredit]

@[simp] theorem State.answer_seal (s : State) (m tag : Nat) (a : Answer) : (State.answer s m tag a).seal = s.seal := by
  unfold State.answer
  repeat' first | (simp; done) | (intro _) | split | (rw [foldl_seal]) | (dsimp only) | (simp_all; done)

theorem State.request_seal (s : State) (i : Instr) (u : UnitHead) (f : ℕ → State → State × Answer)
    (hf : ∀ m v, (f m v).1.seal = v.seal) {post : State} (h : s.request i u f = .next post) : post.seal = s.seal := by
  refine State.access_seal _ _ _ (fun v => ?_) h
  dsimp only
  repeat' split
  all_goals simp [hf]

theorem execRd8_seal (u : UnitHead) (s : State) {post : State} (h : execRd8 u s = .next post) : post.seal = s.seal := by
  refine State.request_seal _ _ _ _ (fun m v => ?_) h
  try dsimp only
  repeat' split
  all_goals simp

theorem request_bus_seal (s : State) (i : Instr) (u : UnitHead) (n : Nat) (g : Word → List (BitVec 8)) {post : State}
    (h : s.request i u (fun m t => ((t.busRead m u.addr n).1,
      { status := (t.busRead m u.addr n).2.1, data := g (t.busRead m u.addr n).2.2 })) = .next post) : post.seal = s.seal :=
  State.request_seal _ _ _ _ (fun m v => State.busRead_seal v m _ n) h

theorem execIntrFifoRead_seal (tag : ℕ) (s : State) {post : State} (h : execIntrFifoRead tag s = .next post) : post.seal = s.seal :=
  request_bus_seal s (.intrFifoRead tag) (UnitHead.make 0x01 tag (Page.stew.base + 0x140)) 8 (fun w => leBytes 8 w.toNat) h

theorem execRd64_seal (u : UnitHead) (s : State) {post : State} (h : execRd64 u s = .next post) : post.seal = s.seal := by
  refine State.request_seal _ _ _ _ (fun m v => ?_) h
  try dsimp only
  repeat' split
  all_goals simp

@[simp] theorem State.stewardWrite_seal (s : State) (l : ℕ) (data : List (BitVec 8)) (poison : Bool) : (State.stewardWrite s l data poison).seal = s.seal := by
  simp [State.stewardWrite]

theorem execWr64_seal (u : UnitHead) (data : List (BitVec 8)) (s : State) {post : State} (h : execWr64 u data s = .next post) : post.seal = s.seal := by
  refine State.request_seal _ _ _ _ (fun m v => ?_) h
  repeat' split
  all_goals simp

@[simp] theorem State.post_seal (s : State) (m : ℕ) (a : ℕ) (data : List (BitVec 8)) (poison : Bool) : (State.post s m a data poison).seal = s.seal := by
  unfold State.post
  repeat' first | (simp; done) | (intro _) | split | (rw [foldl_seal]) | (dsimp only) | (simp_all; done)

theorem execPw64_seal (u : UnitHead) (data : List (BitVec 8)) (s : State) {post : State}
    (h : execPw64 u data s = .next post) : post.seal = s.seal := by
  have hr : ∀ t : State, (let m := t.moduleOf u.addr
      let c := t.takeCredit m u.addr true
      if c.2 = false ∨ 255 < u.tag ∨ u.reservedSet = true then c.1 else c.1.post m u.addr data u.poison).seal = t.seal := by
    intro t
    dsimp only
    split <;> simp
  unfold execPw64 at h
  dsimp only at h
  split at h
  · have h := Host.Outcome.next.inj h
    rw [← h]
    exact hr s
  · exact State.access_seal _ _ _ hr h

@[simp] theorem State.complete_seal (s : State) (m : ℕ) (tag : ℕ) (a : Answer) : (State.complete s m tag a).seal = s.seal := by
  unfold State.complete
  repeat' first | (simp; done) | (intro _) | split | (rw [foldl_seal]) | (dsimp only) | (simp_all; done)

theorem execRsp_seal (module : HubId) (u : UnitHead) (s : State) {post : State}
    (h : execRsp module u s = .next post) : post.seal = s.seal := by
  unfold execRsp at h
  repeat' first | split at h | (dsimp only at h)
  all_goals first
    | (have h := Host.Outcome.next.inj h; rw [← h]; done)
    | (have h := Host.Outcome.next.inj h; rw [← h]; simp; done)
    | (have h := Host.Outcome.next.inj h; rw [← h]; repeat' first | (simp; done) | split | (dsimp only) | (intro _) | (rw [foldl_seal]))
    | cases h

theorem execRspd_seal (module : HubId) (u : UnitHead) (data : List (BitVec 8)) (s : State) {post : State}
    (h : execRspd module u data s = .next post) : post.seal = s.seal := by
  unfold execRspd at h
  repeat' first | split at h | (dsimp only at h)
  all_goals first
    | (have h := Host.Outcome.next.inj h; rw [← h]; done)
    | (have h := Host.Outcome.next.inj h; rw [← h]; simp; done)
    | (have h := Host.Outcome.next.inj h; rw [← h]; repeat' first | (simp; done) | split | (dsimp only) | (intro _) | (rw [foldl_seal]))
    | cases h

theorem execCompletionTimeout_seal (module : HubId) (tag : ℕ) (s : State) {post : State}
    (h : execCompletionTimeout module tag s = .next post) : post.seal = s.seal := by
  unfold execCompletionTimeout at h
  repeat' first | split at h | (dsimp only at h)
  all_goals first
    | (have h := Host.Outcome.next.inj h; rw [← h]; done)
    | (have h := Host.Outcome.next.inj h; rw [← h]; simp; done)
    | (have h := Host.Outcome.next.inj h; rw [← h]; repeat' first | (simp; done) | split | (dsimp only) | (intro _) | (rw [foldl_seal]))
    | cases h

theorem execCrd_seal (mod : ModuleAt) (sender : ModuleEnd) (nonPosted posted : Nat) (s : State) {post : State}
    (h : execCrd mod sender nonPosted posted s = .next post) : post.seal = s.seal := by
  unfold execCrd at h
  repeat' first | split at h | (dsimp only at h)
  all_goals first
    | (have h := Host.Outcome.next.inj h; rw [← h]; done)
    | (have h := Host.Outcome.next.inj h; rw [← h]; simp; done)
    | (have h := Host.Outcome.next.inj h; rw [← h]; repeat' first | (simp; done) | split | (dsimp only) | (intro _) | (rw [foldl_seal]))
    | cases h

theorem execIntr_seal (hub : HubId) (identity : BitVec 16) (s : State) {post : State}
    (h : execIntr hub identity s = .next post) : post.seal = s.seal := by
  unfold execIntr at h
  repeat' first | split at h | (dsimp only at h)
  all_goals first
    | (have h := Host.Outcome.next.inj h; rw [← h]; done)
    | (have h := Host.Outcome.next.inj h; rw [← h]; simp; done)
    | (have h := Host.Outcome.next.inj h; rw [← h]; repeat' first | (simp; done) | split | (dsimp only) | (intro _) | (rw [foldl_seal]))
    | cases h

theorem execSnoop_seal (hub : HubId) (line : ℕ) (forWrite : Bool) (s : State) {post : State}
    (h : execSnoop hub line forWrite s = .next post) : post.seal = s.seal := by
  unfold execSnoop at h
  repeat' first | split at h | (dsimp only at h)
  all_goals first
    | (have h := Host.Outcome.next.inj h; rw [← h]; done)
    | (have h := Host.Outcome.next.inj h; rw [← h]; simp; done)
    | (have h := Host.Outcome.next.inj h; rw [← h]; repeat' first | (simp; done) | split | (dsimp only) | (intro _) | (rw [foldl_seal]))
    | cases h

theorem execSnoopRsp_seal (hub : HubId) (line : ℕ) (dirty : Option (List (BitVec 8))) (s : State) {post : State}
    (h : execSnoopRsp hub line dirty s = .next post) : post.seal = s.seal := by
  unfold execSnoopRsp at h
  repeat' first | split at h | (dsimp only at h)
  all_goals first
    | (have h := Host.Outcome.next.inj h; rw [← h]; done)
    | (have h := Host.Outcome.next.inj h; rw [← h]; simp; done)
    | (have h := Host.Outcome.next.inj h; rw [← h]; repeat' first | (simp; done) | split | (dsimp only) | (intro _) | (rw [foldl_seal]))
    | cases h

@[simp] theorem State.takeUnit_seal (s : State) (d k o : Nat) (c : CrossPlan) : (State.takeUnit s d k o c).seal = s.seal := by
  unfold State.takeUnit
  repeat' first | (simp; done) | (intro _) | split | (rw [foldl_seal]) | (dsimp only) | (simp_all; done)

theorem execXfer_seal (mod : ModuleAt) (step entry offset : Nat) (parityBad : Bool) (s : State) {post : State}
    (h : execXfer mod step entry offset parityBad s = .next post) : post.seal = s.seal := by
  unfold execXfer at h
  repeat' first | split at h | (dsimp only at h)
  all_goals first
    | (have h := Host.Outcome.next.inj h; rw [← h]; done)
    | (have h := Host.Outcome.next.inj h; rw [← h]; simp; done)
    | (have h := Host.Outcome.next.inj h; rw [← h]; repeat' first | (simp; done) | split | (dsimp only) | (intro _) | (rw [foldl_seal]))
    | cases h

@[simp] theorem State.loseUnits_seal (s : State) (m : Nat) (requests responses : List Nat) : (State.loseUnits s m requests responses).seal = s.seal := by
  unfold State.loseUnits
  repeat' first | (simp; done) | (intro _) | split | (rw [foldl_seal]) | (dsimp only) | (simp_all; done)

theorem execUcieRetrain_seal (mod : ModuleAt) (txFailed rxFailed : Nat) (lostRequests lostResponses : List Nat) (s : State) {post : State}
    (h : execUcieRetrain mod txFailed rxFailed lostRequests lostResponses s = .next post) : post.seal = s.seal := by
  unfold execUcieRetrain at h
  repeat' first | split at h | (dsimp only at h)
  all_goals first
    | (have h := Host.Outcome.next.inj h; rw [← h]; done)
    | (have h := Host.Outcome.next.inj h; rw [← h]; simp; done)
    | (have h := Host.Outcome.next.inj h; rw [← h]; repeat' first | (simp; done) | split | (dsimp only) | (intro _) | (rw [foldl_seal]))
    | cases h

@[simp] theorem State.recordRefused_seal (s : State) : (State.recordRefused s).seal = s.seal := by
  simp [State.recordRefused]

theorem execBlankPage_seal (stack : StackId) (page : ℕ) (s : State) {post : State}
    (h : execBlankPage stack page s = .next post) : post.seal = s.seal := by
  unfold execBlankPage at h
  repeat' first | split at h | (dsimp only at h)
  all_goals first
    | (have h := Host.Outcome.next.inj h; rw [← h]; done)
    | (have h := Host.Outcome.next.inj h; rw [← h]; simp; done)
    | (have h := Host.Outcome.next.inj h; rw [← h]; repeat' first | (simp; done) | split | (dsimp only) | (intro _) | (rw [foldl_seal]))
    | cases h

@[simp] theorem State.noteCorrected_seal (s : State) (k : ℕ) (l : ℕ) : (State.noteCorrected s k l).seal = s.seal := by
  simp [State.noteCorrected]

@[simp] theorem State.sweepAt_seal (s : State) (k : ℕ) (l : ℕ) : (State.sweepAt s k l).seal = s.seal := by
  unfold State.sweepAt
  repeat' first | (simp; done) | (intro _) | split | (rw [foldl_seal]) | (dsimp only) | (simp_all; done)

@[simp] theorem State.sweepNext_seal (s : State) (k : ℕ) : (State.sweepNext s k).seal = s.seal := by
  simp [State.sweepNext]

theorem execSweepLine_seal (stack : StackId) (s : State) {post : State}
    (h : execSweepLine stack s = .next post) : post.seal = s.seal := by
  unfold execSweepLine at h
  repeat' first | split at h | (dsimp only at h)
  all_goals first
    | (have h := Host.Outcome.next.inj h; rw [← h]; done)
    | (have h := Host.Outcome.next.inj h; rw [← h]; simp; done)
    | (have h := Host.Outcome.next.inj h; rw [← h]; repeat' first | (simp; done) | split | (dsimp only) | (intro _) | (rw [foldl_seal]))
    | cases h

theorem execSweepLapAlarm_seal (stack : StackId) (s : State) {post : State}
    (h : execSweepLapAlarm stack s = .next post) : post.seal = s.seal := by
  unfold execSweepLapAlarm at h
  repeat' first | split at h | (dsimp only at h)
  all_goals first
    | (have h := Host.Outcome.next.inj h; rw [← h]; done)
    | (have h := Host.Outcome.next.inj h; rw [← h]; simp; done)
    | (have h := Host.Outcome.next.inj h; rw [← h]; repeat' first | (simp; done) | split | (dsimp only) | (intro _) | (rw [foldl_seal]))
    | cases h

theorem execStackFault_seal (stack : StackId) (s : State) {post : State}
    (h : execStackFault stack s = .next post) : post.seal = s.seal := by
  unfold execStackFault at h
  repeat' first | split at h | (dsimp only at h)
  all_goals first
    | (have h := Host.Outcome.next.inj h; rw [← h]; done)
    | (have h := Host.Outcome.next.inj h; rw [← h]; simp; done)
    | (have h := Host.Outcome.next.inj h; rw [← h]; repeat' first | (simp; done) | split | (dsimp only) | (intro _) | (rw [foldl_seal]))
    | cases h

@[simp] theorem State.faultHub_seal (s : State) (h : ℕ) : (State.faultHub s h).seal = s.seal := by
  simp [State.faultHub]

theorem execHubFault_seal (hub : HubId) (s : State) {post : State}
    (h : execHubFault hub s = .next post) : post.seal = s.seal := by
  unfold execHubFault at h
  repeat' first | split at h | (dsimp only at h)
  all_goals first
    | (have h := Host.Outcome.next.inj h; rw [← h]; done)
    | (have h := Host.Outcome.next.inj h; rw [← h]; simp; done)
    | (have h := Host.Outcome.next.inj h; rw [← h]; repeat' first | (simp; done) | split | (dsimp only) | (intro _) | (rw [foldl_seal]))
    | cases h

theorem execCoreFetchPoison_seal (stack : StackId) (die : DieId) (core : Option (Fin 16)) (line : Nat) (s : State) {post : State}
    (h : execCoreFetchPoison stack die core line s = .next post) : post.seal = s.seal := by
  unfold execCoreFetchPoison at h
  repeat' first | split at h | (dsimp only at h)
  all_goals first
    | (have h := Host.Outcome.next.inj h; rw [← h]; done)
    | (have h := Host.Outcome.next.inj h; rw [← h]; simp; done)
    | (have h := Host.Outcome.next.inj h; rw [← h]; repeat' first | (simp; done) | split | (dsimp only) | (intro _) | (rw [foldl_seal]))
    | cases h

theorem execDmaPoisonHalt_seal (hub : HubId) (channel : ℕ) (sourcePage : ℕ) (sourceAddr : ℕ) (step : ℕ) (s : State) {post : State}
    (h : execDmaPoisonHalt hub channel sourcePage sourceAddr step s = .next post) : post.seal = s.seal := by
  unfold execDmaPoisonHalt at h
  repeat' first | split at h | (dsimp only at h)
  all_goals first
    | (have h := Host.Outcome.next.inj h; rw [← h]; done)
    | (have h := Host.Outcome.next.inj h; rw [← h]; simp; done)
    | (have h := Host.Outcome.next.inj h; rw [← h]; repeat' first | (simp; done) | split | (dsimp only) | (intro _) | (rw [foldl_seal]))
    | cases h

@[simp] theorem State.ringRecord_seal (s : State) (c : ℕ) (w : Word) : (State.ringRecord s c w).seal = s.seal := by
  simp [State.ringRecord]

@[simp] theorem State.latchResult_seal (s : State) (c : ℕ) (input : ℕ) (urgent : Bool) (ring : Bool) (lowPower : Bool) (value : BitVec 16) : (State.latchResult s c input urgent ring lowPower value).seal = s.seal := by
  simp [State.latchResult]

@[simp] theorem State.watchResult_seal (s : State) (c : ℕ) (input : ℕ) (value : BitVec 16) : (State.watchResult s c input value).seal = s.seal := by
  simp [State.watchResult]

@[simp] theorem State.raiseStep_seal (s : State) (n : ℕ) : (State.raiseStep s n).seal = s.seal := by
  simp [State.raiseStep]

@[simp] theorem State.confirmResult_seal (s : State) (value : BitVec 16) : (State.confirmResult s value).seal = s.seal := by
  simp [State.confirmResult]

theorem execSensorConversion_seal (conv : Fin 20) (value : BitVec 16) (s : State) {post : State}
    (h : execSensorConversion conv value s = .next post) : post.seal = s.seal := by
  unfold execSensorConversion at h
  repeat' first | split at h | (dsimp only at h)
  all_goals first
    | (have h := Host.Outcome.next.inj h; rw [← h]; done)
    | (have h := Host.Outcome.next.inj h; rw [← h]; simp; done)
    | (have h := Host.Outcome.next.inj h; rw [← h]; repeat' first | (simp; done) | split | (dsimp only) | (intro _) | (rw [foldl_seal]))
    | cases h

@[simp] theorem State.endUrgent_seal (s : State) (c : ℕ) : (State.endUrgent s c).seal = s.seal := by
  simp [State.endUrgent]

@[simp] theorem State.heatWindow_seal (s : State) (now : ℕ) : (State.heatWindow s now).seal = s.seal := by
  simp [State.heatWindow]

@[simp] theorem State.stormWindow_seal (s : State) : (State.stormWindow s).seal = s.seal := by
  simp [State.stormWindow]

@[simp] theorem State.reconcile_seal (s : State) (m : ℕ) : (State.reconcile s m).seal = s.seal := by
  simp [State.reconcile]

@[simp] theorem State.nextWindow_seal (s : State) : (State.nextWindow s).seal = s.seal := by
  simp [State.nextWindow]

theorem execTallyWindowEnd_seal (measuredNj : ℕ) (s : State) {post : State}
    (h : execTallyWindowEnd measuredNj s = .next post) : post.seal = s.seal := by
  unfold execTallyWindowEnd at h
  repeat' first | split at h | (dsimp only at h)
  all_goals first
    | (have h := Host.Outcome.next.inj h; rw [← h]; done)
    | (have h := Host.Outcome.next.inj h; rw [← h]; simp; done)
    | (have h := Host.Outcome.next.inj h; rw [← h]; repeat' first | (simp; done) | split | (dsimp only) | (intro _) | (rw [foldl_seal]))
    | cases h

end Sys2Proof.Machine
end

