-- ==== Sys2Proof/Laws/Fuses.lean ====
section
/-!
SUPPORT. What the commands do that move fuses or a burn: the queue stays, fuse counts stay within what the fuse block has, and no setting
is ever restored (R509, R519, R535).
-/
namespace Sys2Proof.Machine

theorem Fuses.keeps_refl (f : Fuses) : f.keeps f := ⟨le_refl _, le_refl _, le_refl _, fun _ h => h, fun _ h => h⟩

theorem Fuses.keeps_trans {f g h : Fuses} (a : f.keeps g) (b : g.keeps h) : f.keeps h :=
  ⟨le_trans a.1 b.1, le_trans a.2.1 b.2.1, le_trans a.2.2.1 b.2.2.1, fun i hi => b.2.2.2.1 i (a.2.2.2.1 i hi),
    fun i hi => b.2.2.2.2 i (a.2.2.2.2 i hi)⟩

/-- A burn adds its setting and keeps every other. -/
theorem Fuses.keeps_burn (f : Fuses) (b : Burn) : f.keeps (f.burn b) := by
  unfold Fuses.burn
  split
  · exact ⟨le_refl _, Nat.le_succ _, le_refl _, fun _ h => h, fun _ h => h⟩
  · refine ⟨le_refl _, le_refl _, le_refl _, fun _ h => h, fun i h => ?_⟩
    simp only [tfind_tset]
    split
    · rfl
    · exact h
  · exact ⟨le_refl _, le_refl _, le_refl _, fun _ h => List.mem_append_left _ h, fun _ h => h⟩
  · exact ⟨le_refl _, le_refl _, Nat.le_succ _, fun _ h => h, fun _ h => h⟩
  · exact f.keeps_refl

/-- From `s` to `t` the queue stays, and fuses within their counts stay within them and keep every setting. -/
def Grows (s t : State) : Prop := t.pending = s.pending ∧ (s.fusesOk → t.fusesOk ∧ s.lock.fuses.keeps t.lock.fuses)

theorem Grows.refl (s : State) : Grows s s := ⟨rfl, fun h => ⟨h, s.lock.fuses.keeps_refl⟩⟩

theorem Grows.trans {s t u : State} (a : Grows s t) (b : Grows t u) : Grows s u :=
  ⟨b.1.trans a.1, fun h => ⟨(b.2 (a.2 h).1).1, Fuses.keeps_trans (a.2 h).2 (b.2 (a.2 h).1).2⟩⟩

theorem State.pending_of_seal {s t : State} (h : t.seal = s.seal) : t.pending = s.pending := congrArg (·.1) h
theorem State.fuses_of_seal {s t : State} (h : t.seal = s.seal) : t.lock.fuses = s.lock.fuses := congrArg (·.2.1) h
theorem State.burn_of_seal {s t : State} (h : t.seal = s.seal) : t.lock.burn = s.lock.burn := congrArg (·.2.2) h

theorem Grows.of_seal {s t : State} (h : t.seal = s.seal) : Grows s t :=
  ⟨State.pending_of_seal h, fun hs => by
    have hf := State.fuses_of_seal h
    have hb := State.burn_of_seal h
    refine ⟨?_, hf ▸ s.lock.fuses.keeps_refl⟩
    unfold State.fusesOk at *
    rw [hf, hb]
    exact hs⟩

/-- The rest of a command may move anything that the seal does not hold. -/
theorem Grows.seal_right {s t u : State} (a : Grows s t) (h : u.seal = t.seal) : Grows s u := a.trans (.of_seal h)

theorem Grows.seal_left {s t u : State} (h : t.seal = s.seal) (a : Grows t u) : Grows s u := (Grows.of_seal h).trans a

theorem Grows.foldl {α : Type} (f : State → α → State) (l : List α) (s : State) (h : ∀ t x, Grows t (f t x)) : Grows s (l.foldl f s) := by
  induction l generalizing s with
  | nil => exact .refl s
  | cons x l ih => exact (h s x).trans (ih _)

theorem Grows.ite {c : Prop} [Decidable c] {s a b : State} (ha : Grows s a) (hb : Grows s b) : Grows s (if c then a else b) := by
  split <;> assumption

/-! ### Tokens and the rollback count -/

theorem State.lockBusy_burn {s : State} (h : s.lockBusy = false) : s.lock.burn = none := by
  unfold State.lockBusy at h
  cases hb : s.lock.burn <;> simp_all

/-- An accepted token begins its burn only where its setting has a count left (R538). -/
theorem State.tokenFault_count {s : State} {a n : Nat} {t : Token} (h : s.tokenFault a n t = none) :
    s.lock.burn = none ∧ s.tokenCountOk t = true := by
  unfold State.tokenFault at h
  repeat' split at h
  all_goals try cases h
  refine ⟨State.lockBusy_burn (by simp_all), by simp_all⟩

theorem State.writeToken_grows (s : State) (h : Nat) (v : Word) : Grows s (s.writeToken h v).1 := by
  have hr (a n : Nat) : (s.readToken a n).1.seal = s.seal := by simp [State.readToken]
  unfold State.writeToken
  split
  · exact .of_seal (by simp)
  split
  · exact .of_seal (by simp)
  cases hf : s.tokenFault (v.field 6 42 * 64) (v.field 48 16) (s.readToken (v.field 6 42 * 64) (v.field 48 16)).2 with
  | some c =>
    have h2 (u : State) (e : u.seal = s.seal) : (u.lockRefuse 0x110 c).1.seal = s.seal := by simpa [State.lockRefuse] using e
    simp only [hf]
    exact .of_seal (h2 _ (by split <;> simp [hr]))
  | none =>
    simp only [hf]
    obtain ⟨hb, hc⟩ := State.tokenFault_count hf
    have hs : ((s.readToken (v.field 6 42 * 64) (v.field 48 16)).1.storeFields (.lock 0) 0x110 v).seal = s.seal := by simp [hr]
    have h1 := State.fuses_of_seal hs
    refine ⟨(State.pending_of_seal hs : ((s.readToken (v.field 6 42 * 64) (v.field 48 16)).1.storeFields (.lock 0) 0x110 v).pending =
      s.pending), fun ok_ => ⟨?_, ?_⟩⟩
    · unfold State.fusesOk at *
      simp only [ok, h1]
      refine ⟨ok_.1, ok_.2.1, ok_.2.2.1, fun b e => ?_⟩
      obtain rfl := Option.some.inj e
      unfold State.tokenCountOk at hc
      refine ⟨fun e => ?_, fun e => ?_⟩ <;> simp only at e <;> simp_all
    · simp only [ok, h1]
      exact s.lock.fuses.keeps_refl

theorem State.writeRollback_grows (s : State) (v : Word) : Grows s (s.writeRollback v).1 := by
  unfold State.writeRollback
  dsimp only
  split
  · exact .of_seal (by simp)
  split
  · exact .of_seal (by simp)
  · refine ⟨rfl, fun h => ⟨?_, ⟨Nat.le_succ _, le_refl _, le_refl _, fun _ h => h, fun _ h => h⟩⟩⟩
    unfold State.fusesOk at *
    simp only [ok]
    exact ⟨by omega, h.2⟩

/-- What a burn in progress leaves in the fuses is within their counts (R535). -/
theorem State.burn_ok {s : State} {b : Burn} (h : s.fusesOk) (hb : s.lock.burn = some b) :
    (s.lock.fuses.burn b).rollback ≤ 128 ∧ (s.lock.fuses.burn b).ownerUsed ≤ 8 ∧ (s.lock.fuses.burn b).debugUsed ≤ 4 := by
  obtain ⟨h1, h2, h3, h4⟩ := h
  have h5 := h4 b hb
  unfold Fuses.burn
  split <;> rename_i e <;> simp_all

theorem State.dark_grows (s : State) (ph : Phase) : Grows s (s.dark ph) := by
  refine ⟨rfl, fun h => ?_⟩
  unfold State.fusesOk
  simp only [State.dark]
  cases hb : s.lock.burn with
  | none => exact ⟨⟨h.1, h.2.1, h.2.2.1, by simp⟩, s.lock.fuses.keeps_refl⟩
  | some b =>
    obtain ⟨h1, h2, h3⟩ := State.burn_ok h hb
    cases Config.burnTook s.fresh
    · exact ⟨⟨h.1, h.2.1, h.2.2.1, by simp⟩, s.lock.fuses.keeps_refl⟩
    · exact ⟨⟨h1, h2, h3, by simp⟩, s.lock.fuses.keeps_burn b⟩

theorem execTokenBurnDone_grows {s t : State} (h : execTokenBurnDone s = .next t) : Grows s t := by
  unfold execTokenBurnDone at h
  split at h
  · obtain rfl := Host.Outcome.next.inj h
    exact .refl _
  · rename_i b hb
    obtain rfl := Host.Outcome.next.inj h
    refine Grows.seal_right (t := { s with lock := { s.lock with fuses := s.lock.fuses.burn b, burn := none } }) ⟨rfl, fun h => ?_⟩ ?_
    · obtain ⟨h1, h2, h3⟩ := State.burn_ok h hb
      exact ⟨⟨h1, h2, h3, by simp⟩, s.lock.fuses.keeps_burn b⟩
    · simp

/-! ### Register accesses -/

theorem State.access_grows {s t : State} {i : Instr} {f : State → State} (h : s.access i f = .next t) (hf : Grows s (f s)) : Grows s t := by
  unfold State.access at h
  repeat' split at h
  all_goals obtain rfl := Host.Outcome.next.inj h
  · exact hf
  · exact ⟨rfl, fun h => ⟨h, s.lock.fuses.keeps_refl⟩⟩
  · exact .refl _

theorem execOwnerTransfer_grows {s t : State} {hub : HubId} {v : Word} (h : execOwnerTransfer hub v s = .next t) : Grows s t :=
  State.access_grows h (State.writeToken_grows _ _ _)
theorem execPubWrite_grows {s t : State} {hub : HubId} {v : Word} (h : execPubWrite hub v s = .next t) : Grows s t :=
  State.access_grows h (State.writeToken_grows _ _ _)
theorem execPubRevoke_grows {s t : State} {hub : HubId} {v : Word} (h : execPubRevoke hub v s = .next t) : Grows s t :=
  State.access_grows h (State.writeToken_grows _ _ _)
theorem execDebugAuth_grows {s t : State} {hub : HubId} {v : Word} (h : execDebugAuth hub v s = .next t) : Grows s t :=
  State.access_grows h (State.writeToken_grows _ _ _)
theorem execFuseRollback_grows {s t : State} {v : Word} (h : execFuseRollback v s = .next t) : Grows s t :=
  State.access_grows h (State.writeRollback_grows _ _)

theorem State.writeReg_grows (s : State) (p : Page) (off : Nat) (v : Word) : Grows s (s.writeReg p off v).1 := by
  unfold State.writeReg
  dsimp only
  repeat' first
    | (refine Grows.of_seal ?_; simp; done)
    | with_reducible exact State.writeToken_grows _ _ _
    | with_reducible exact State.writeRollback_grows _ _
    | split

theorem State.busWrite_grows (s : State) (m a width : Nat) (v : Word) : Grows s (s.busWrite m a width v).1 := by
  unfold State.busWrite
  split
  · exact .of_seal (by simp)
  split
  · rename_i p off _
    dsimp only
    split
    · exact State.writeReg_grows _ _ _ _
    · exact (State.writeReg_grows s p off v).seal_right (by simp)
  · exact .refl _

theorem State.coreStore_seal (s : State) (a : Nat) (b : BitVec 8) : (s.coreStore a b).seal = s.seal := by
  simp [State.coreStore]

theorem execRegisterWrite_grows {s t : State} {a n : Nat} {v : Word} (h : execRegisterWrite a n v s = .next t) : Grows s t := by
  refine State.access_grows h ?_
  dsimp only
  split
  · rename_i a _
    exact (State.busWrite_grows s (s.moduleOf a) a n v).seal_right (by simp)
  · refine Grows.foldl _ _ _ fun u i => ?_
    split
    · exact .of_seal (State.coreStore_seal _ _ _)
    · exact .refl _
  · exact .refl _

theorem execWr8_grows {s t : State} {u : UnitHead} (h : execWr8 u s = .next t) : Grows s t := by
  unfold execWr8 State.request at h
  refine State.access_grows h ?_
  dsimp only
  repeat' split
  · exact .of_seal (by simp)
  · exact .of_seal (by simp)
  · exact .of_seal (by simp)
  · refine Grows.seal_right (Grows.seal_left ?_
      (State.busWrite_grows (s.takeCredit (s.moduleOf u.addr) u.addr false).1 (s.moduleOf u.addr) u.addr 8 u.inline)) ?_
    · simp
    · simp

/-! ### Accesses that a warm reset held -/

theorem runHeld_grows {s t : State} (i : Instr) (h : runHeld i s = .next t) : Grows s t := by
  unfold runHeld at h
  split at h
  · exact .of_seal (execRespCfg_seal _ _ _ _ h)
  · exact .of_seal (execRespRelease_seal _ _ _ _ h)
  · exact .of_seal (execNextSeq_seal _ _ _ h)
  · exact .of_seal (execSysRole_seal _ _ h)
  · exact .of_seal (execBellNs_seal _ _ h)
  · exact .of_seal (execPartSize_seal _ _ h)
  · exact .of_seal (execPackLoadGo_seal _ _ h)
  · exact .of_seal (execPackLoadClear_seal _ _ h)
  · exact .of_seal (execTenantBudget_seal _ _ _ h)
  · exact .of_seal (execClassLimit_seal _ _ h)
  · exact .of_seal (execDebtClear_seal _ _ h)
  · exact .of_seal (execSenseApply_seal _ _ _ h)
  · exact .of_seal (execSenseUrgent_seal _ _ _ h)
  · exact .of_seal (execRingCfg_seal _ _ _ h)
  · exact .of_seal (execRingRd_seal _ _ _ h)
  · exact .of_seal (execCommonsPool_seal _ _ h)
  · exact .of_seal (execStackStage_seal _ _ _ _ h)
  · exact .of_seal (execStackInject_seal _ _ _ h)
  · exact .of_seal (execTmuxSelect_seal _ _ _ h)
  · exact .of_seal (execErrStatusClear_seal _ _ _ h)
  · exact .of_seal (execPatLoadGo_seal _ _ _ _ h)
  · exact .of_seal (execPatLoadUnload_seal _ _ _ h)
  · exact .of_seal (execMemMode_seal _ _ _ h)
  · exact .of_seal (execFenceReq_seal _ _ _ h)
  · exact .of_seal (execRecastMould_seal _ _ _ h)
  · exact .of_seal (execRecastAll_seal _ _ _ h)
  · exact .of_seal (execGaugeForce_seal _ _ _ h)
  · exact .of_seal (execHistSel_seal _ _ _ h)
  · exact .of_seal (execLeaseRevoke_seal _ _ _ h)
  · exact .of_seal (execDormantEnter_seal _ _ h)
  · exact .of_seal (execWarmReset_seal _ _ h)
  · exact .of_seal (execLockAttest_seal _ _ _ h)
  · exact execOwnerTransfer_grows h
  · exact execPubWrite_grows h
  · exact execPubRevoke_grows h
  · exact execDebugAuth_grows h
  · exact execFuseRollback_grows h
  · exact .of_seal (execDomainJoin_seal _ _ _ h)
  · exact .of_seal (execDomainLeave_seal _ _ _ h)
  · exact execRegisterWrite_grows h
  · exact .of_seal (execRd8_seal _ _ h)
  · exact execWr8_grows h
  · exact .of_seal (execIntrFifoRead_seal _ _ h)
  · exact .of_seal (execRd64_seal _ _ h)
  · exact .of_seal (execWr64_seal _ _ _ h)
  · exact .of_seal (execPw64_seal _ _ _ h)
  · obtain rfl := Host.Outcome.next.inj h
    exact .refl _

theorem State.runAllHeld_grows (s : State) : Grows s s.runAllHeld := by
  unfold State.runAllHeld
  refine Grows.seal_left (t := { s with pkg := { s.pkg with phase := .starting }, links := { s.links with heldAccesses := [] } }) (by simp) ?_
  refine Grows.foldl _ _ _ fun t x => ?_
  split
  · rename_i h
    exact runHeld_grows x h
  · exact .refl _

theorem State.finishWarm_grows (s : State) : Grows s s.finishWarm := by
  unfold State.finishWarm
  exact s.runAllHeld_grows.seal_right (by simp)

theorem execWarmResetReady_grows {s t : State} (h : execWarmResetReady s = .next t) : Grows s t := by
  unfold execWarmResetReady at h
  split at h <;> obtain rfl := Host.Outcome.next.inj h
  · exact s.finishWarm_grows
  · exact .refl _

@[simp] theorem State.readBundle_seal (s : State) (addr len : Nat) : (s.readBundle addr len).1.seal = s.seal := by
  simp [State.readBundle]

@[simp] theorem State.bundleImages_seal (s : State) (addr : Nat) (h : FwHead) : (s.bundleImages addr h).1.seal = s.seal := by
  unfold State.bundleImages
  rw [foldl1_seal]
  intro a i
  simp

@[simp] theorem State.copyImages_seal (s : State) (addr : Nat) (h : FwHead) : (s.copyImages addr h).seal = s.seal := by
  unfold State.copyImages
  repeat' first | (simp; done) | (intro _) | split | (rw [foldl_seal])

theorem execBootDoorbell_grows {s t : State} {b : Bundle} (h : execBootDoorbell b s = .next t) : Grows s t := by
  unfold execBootDoorbell at h
  dsimp only at h
  split at h
  · obtain rfl := Host.Outcome.next.inj h
    exact .refl _
  · refine Grows.seal_left (t := ((s.readBundle b.addr b.length).1.bundleImages b.addr (s.readBundle b.addr b.length).2).1) (by simp) ?_
    generalize ((s.readBundle b.addr b.length).1.bundleImages b.addr (s.readBundle b.addr b.length).2).1 = m at *
    repeat' split at h
    all_goals obtain rfl := Host.Outcome.next.inj h
    · exact .of_seal (by simp)
    · refine Grows.trans (.of_seal ?_) (State.finishWarm_grows _)
      simp
    · exact .of_seal (by simp)
    · exact .of_seal (by simp)

/-! ### The domain -/

@[simp] theorem Lockhouse.newKey_fuses (l : Lockhouse) (k : Nat × Nat) (now : Nat) : (l.newKey k now).fuses = l.fuses := rfl
@[simp] theorem Lockhouse.newKey_burn (l : Lockhouse) (k : Nat × Nat) (now : Nat) : (l.newKey k now).burn = l.burn := rfl

theorem execDomain_seal {s t : State} {m k : Option (Fin 256)} {n : Option (List (BitVec 8) × Nat)}
    (h : execDomain m k n s = .next t) : t.seal = s.seal := by
  have key (u : State) (c : Nat × Nat) (a : Nat) : ({ u with lock := u.lock.newKey c a } : State).seal = u.seal := (fun _ => rfl) ()
  unfold execDomain at h
  dsimp only at h
  split at h <;> obtain rfl := Host.Outcome.next.inj h
  · rfl
  · cases m <;> cases k <;> cases n <;> dsimp only <;> (repeat' split) <;> simp [key]

/-! ### Starts and the loss of power -/

@[simp] theorem State.trainModules_seal (s : State) (l : List Training) : (s.trainModules l).seal = s.seal := by
  simp [State.trainModules]

theorem State.begin_grows (s : State) (wake rc e : Bool) (l : List Training) : Grows s (s.begin wake rc e l) := by
  unfold State.begin
  exact (s.dark_grows .starting).seal_right (by simp)

theorem execStart_grows {s t : State} {n : Nat} {rc e : Bool} {l : List Training} (h : execStart n rc e l s = .next t) : Grows s t := by
  unfold execStart at h
  dsimp only at h
  repeat' split at h
  all_goals obtain rfl := Host.Outcome.next.inj h
  · exact s.begin_grows _ _ _ _
  · exact (s.dark_grows .inReset).seal_right (by simp)
  · exact .refl _

theorem execRailsRemoved_grows {s t : State} {k : Bool} (h : execRailsRemoved k s = .next t) : Grows s t := by
  unfold execRailsRemoved at h
  dsimp only at h
  split at h
  · obtain rfl := Host.Outcome.next.inj h
    refine (s.dark_grows .dormant).seal_right ?_
    split <;> simp
  split at h <;> obtain rfl := Host.Outcome.next.inj h
  · exact .refl _
  · refine Grows.seal_right (t := (if s.pkg.phase = .powerFail then s.writeMarks else s).dark .off)
      (Grows.seal_left (t := if s.pkg.phase = .powerFail then s.writeMarks else s) (by simp) (State.dark_grows _ _)) ?_
    split <;> simp

theorem execRailLoss_grows {s t : State} {k : Bool} (h : execRailLoss k s = .next t) : Grows s t := by
  unfold execRailLoss at h
  dsimp only at h
  split at h <;> obtain rfl := Host.Outcome.next.inj h
  · exact .refl _
  · refine Grows.seal_right (t := (if s.pkg.phase = .powerFail then s.writeMarks else s).dark .off)
      (Grows.seal_left (t := if s.pkg.phase = .powerFail then s.writeMarks else s) (by simp) (State.dark_grows _ _)) ?_
    split <;> simp

theorem execRstFall_grows {s t : State} {k : Bool} (h : execRstFall k s = .next t) : Grows s t := by
  unfold execRstFall at h
  dsimp only at h
  split at h <;> obtain rfl := Host.Outcome.next.inj h
  · exact .of_seal (by simp)
  · exact .of_seal (by simp)
  · exact .of_seal (by simp)
  · refine Grows.seal_right (t := (if s.pkg.phase = .powerFail ∧ k = true then s.writeMarks else s).dark .inReset)
      (Grows.seal_left (t := if s.pkg.phase = .powerFail ∧ k = true then s.writeMarks else s) (by simp) (State.dark_grows _ _)) ?_
    simp

/-- THERMTRIP_N: the clocks stop. -/
theorem State.tripped_grows {s u : State} (h : Grows s u) (p : Package) : Grows s { u.dark .tripped with pkg := p } :=
  h.trans ((u.dark_grows .tripped).seal_right (by simp))

theorem execUrgentResult_grows {s t : State} {c : Fin 20} {v : BitVec 16} (h : execUrgentResult c v s = .next t) : Grows s t := by
  unfold execUrgentResult at h
  dsimp only at h
  repeat' split at h
  all_goals obtain rfl := Host.Outcome.next.inj h
  all_goals first
    | exact .refl _
    | (refine Grows.of_seal ?_; simp; done)
    | (refine State.tripped_grows (.of_seal ?_) _; simp)

end Sys2Proof.Machine
end

