-- ==== Sys2Proof/WellFormed.lean ====
section
/-!
DEFINITION. Which commands are well formed: every number fits the field or the range that the manual gives its carrier. Nothing here
decides what a command does: a range that the device itself tests (R332, R340) is tested by its meaning.
-/
namespace Sys2Proof

/-- A number fits `n` bits. -/
def fits (n v : Nat) : Bool := decide (v < 2 ^ n)

/-- A signed number fits `n` bits in two's complement. -/
def fitsSigned (n : Nat) (v : Int) : Bool := decide (-(2 ^ (n - 1) : Int) ≤ v) && decide (v < (2 ^ (n - 1) : Int))

/-- A context entry number (R292, R332). -/
def contextOk (x : Nat) : Bool := fits 16 x

/-- The header of a command (R332): 8 bytes of seq, 4 of cookie. -/
def CmdHead.wf (h : CmdHead) : Bool := fits 64 h.seq && fits 32 h.cookie

def OpenBody.wf (b : OpenBody) : Bool :=
  fits 16 b.context && fits 16 b.tenant && fits 8 b.cls && fits 8 b.kvFormat && fits 8 b.share && fits 8 b.outRing &&
    fits 32 b.capacity && fits 16 b.topK && fits 64 b.seed && fits 48 b.stopAddr

def PromptBody.wf (b : PromptBody) : Bool :=
  fits 16 b.context && fits 8 b.flags && fits 16 b.adapter && fits 32 b.tokenCount && fits 48 b.tokenAddr && fits 32 b.floor &&
    fits 64 b.deadline

def GenerateBody.wf (b : GenerateBody) : Bool :=
  fits 16 b.context && fits 16 b.adapter && fits 32 b.maxNew && fits 32 b.floor && fits 64 b.deadline

def DraftBody.wf (b : DraftBody) : Bool :=
  fits 16 b.context && fits 16 b.adapter && fits 8 b.draftCount && fits 48 b.draftAddr && fits 32 b.floor && fits 64 b.deadline

def AdapterLoadBody.wf (b : AdapterLoadBody) : Bool := fits 16 b.handle && fits 32 b.length && fits 48 b.imageAddr

def IngotStageBody.wf (b : IngotStageBody) : Bool :=
  fits 32 b.generation && fits 48 b.ingotAddr && fits 64 b.ingotLen && fits 48 b.patternTable

def MigrateOutBody.wf (b : MigrateOutBody) : Bool := fits 16 b.context && fits 16 b.package && fits 32 b.tag

def MigrateInBody.wf (b : MigrateInBody) : Bool := fits 16 b.context && fits 16 b.package && fits 32 b.tag && fits 8 b.outRing

def TemperBody.wf (b : TemperBody) : Bool :=
  fits 16 b.context && fits 16 b.handle && fits 16 b.tenant && fits 8 b.cls && fits 32 b.microBatches && fits 48 b.dataAddr &&
    fits 16 b.batch && fits 32 b.dataLen && fits 32 b.seed && fits 32 b.interval

/-- An active row set (R51): whole groups of 64 consecutive rows. -/
def rowsOk (first rows : Nat) : Bool :=
  decide (first % 64 = 0) && decide (rows % 64 = 0) && decide (64 ≤ rows) && decide (first + rows ≤ 1024)

/-- A converter reading list: converters of a mould, and the number each reads in a converter pass (R108, R109). -/
def readingsOk (l : List (Nat × Int)) : Bool := l.all fun e => decide (e.1 < 278) && fitsSigned 16 e.2

/-- A span (R55, R70): a power of two from 64 to 65,536. -/
def spanRange (v : Nat) : Bool := decide (v ∈ [64, 128, 256, 512, 1024, 2048, 4096, 8192, 16384, 32768, 65536])

/-- The noise of a window (R146, R179): a pass of its interval and a line of its array. -/
def Noise.wf (n : Noise) : Bool := decide (n.pass < 4) && decide (n.line < 1024)

/-- A product at D8 (R170): an output column, a byte of the activation pad and a byte of the weight store. -/
def D8Term.wf (d : D8Term) : Bool := decide (d.column < 256) && decide (d.act < 131072) && decide (d.weight < 262144)

/-- A promotion (R159 to R161): at most 16 moulds, 256 wide accumulators of the partial-sum pad, a span, and products within the memories. -/
def PromotionIn.wf (p : PromotionIn) : Bool :=
  decide (p.run.length ≤ 16) && decide (p.acc + (if p.transposed then 1024 else 256) ≤ 16384) && spanRange p.span && (p.d8.all D8Term.wf) &&
    p.partials.all fun x => decide (x.column < 256) && decide (x.acc < 16384)

/-- An update (R178): the store byte of its gradient sum. -/
def UpdateItem.wf (u : UpdateItem) : Bool := decide (u.gradient + 4 ≤ 262144)

/-- A column's readings under the 32 vectors of the cast probe set (R131). -/
def ColumnProbe.wf (c : ColumnProbe) : Bool := decide (c.readings.length = 32)

/-- A set in its encodings (R101): gains in 8 unsigned bits, offsets in 8 signed bits, the mould's gain and offset in 16. -/
def CoefSet.wf (c : CoefSet) : Bool :=
  (c.gk.all fun e => fits 8 e.2) && (c.gr.all fun e => fits 8 e.2) && (c.ok.all fun e => fitsSigned 8 e.2) &&
    (c.or.all fun e => fitsSigned 8 e.2) && fitsSigned 16 c.g45 && fitsSigned 16 c.o45 && fits 16 c.thetaG && fits 64 c.tG

/-- The close of a cast (R88): a first set in its encodings, statistics in codes. -/
def CastCloseIn.wf (c : CastCloseIn) : Bool :=
  fits 64 c.castDate && c.firstSet.wf && c.stats.all fun k => fitsSigned 8 k.mean && decide (0 ≤ k.spread) && fitsSigned 9 k.spread

/-- The holder that a resource admits (R484): the reeve or a DMA channel for a slice, one hub control core for every other. -/
def Leased.admits (r : Leased) (h : Holder) : Bool :=
  match r, h with
  | .slice _ _, .core _ => false
  | .slice _ _, _ => true
  | _, .core _ => true
  | _, _ => false

/-- A term in µs (R484): 1 to 65,535, and at most 1,000 for the locks. -/
def Leased.termOk (r : Leased) (t : Nat) : Bool :=
  decide (1 ≤ t) && match r with
    | .tableLock _ => decide (t ≤ 1000)
    | .commonsLock => decide (t ≤ 1000)
    | _ => fits 16 t

/-- A 64-byte payload (R413). -/
def lineOk (l : List (BitVec 8)) : Bool := decide (l.length = 64)

/-- The header of a unit names its kind (R414). -/
def UnitHead.wf (u : UnitHead) (kind : Nat) : Bool := u.kind == kind

/-- A query of another package (R316): 128 A8 codes. -/
def Query.wf (q : Query) : Bool := decide (q.codes.length = 128) && q.codes.all (fitsSigned 8)

/-- An attention exchange (R268, R269): query head vectors of 128 elements. -/
def QueryIn.wf (q : QueryIn) : Bool := decide (q.elements.length = 128)
def NewKV.wf (k : NewKV) : Bool := decide (k.key.length = 128) && decide (k.value.length = 128)
def ExchangeIn.wf (e : ExchangeIn) : Bool := (e.queries.all QueryIn.wf) && (e.kv.all NewKV.wf)

/-- A remote request (R316): a 32-bit tag, its source one of 256 packages. -/
def AttnReqIn.wf (r : AttnReqIn) : Bool := fits 32 r.tag && fits 8 r.source && (r.queries.all Query.wf)

/-- A partial state (R278). -/
def SoftState.wf (x : SoftState) : Bool := decide (x.acc.length = 128)

/-- A manifest (R447): the ranges that OPEN gave its session. -/
def Manifest.wf (m : Manifest) : Bool :=
  fits 16 m.context && fits 32 m.tag && fits 12 m.tenant && fits 2 m.cls && decide (m.capacity ≤ 258048) && decide (m.committed ≤ m.capacity)

/-- The operands of a command fit their carriers. -/
def Instr.wf : Instr → Bool
  | .bell b => decide (b.outs.length ≤ 4096)
  | .quenchInterval _ => true
  | .forwardWindow w => rowsOk w.firstRow w.rows && decide (w.actRow < 256) && (w.noise.all Noise.wf)
  | .windowDelivery _ _ => true
  | .runPromotion p => p.wf
  | .transposedWindow w => decide (w.actRow < 256) && spanRange w.spanT && (w.noise.all Noise.wf)
  | .microBatchUpdate x l o => contextOk x && (l.all UpdateItem.wf) && fits 48 o
  | .checkpointDone x => contextOk x
  | .probeVerdict _ _ l p => (l.all ColumnProbe.wf) && p.all fun k => decide (k.entry < 4096)
  | .standinCopyArrive _ _ _ copy _ => copy.all fun e => decide (e.1 < 1024) && fitsSigned 11 e.2
  | .gaugeConverterPass _ _ _ _ l => readingsOk l
  | .gaugeRunEnd _ _ => true
  | .castRowGroupEnd g => spanRange g.span
  | .castClose c => c.wf
  | .padParityError _ _ => true
  | .storeParityError _ _ _ _ => true
  | .flitParityError _ _ _ => true
  | .footpathParityError _ _ => true
  | .detourFit _ _ => true
  | .mark _ => true
  | .barrier _ n _ _ => decide (n < 16)
  | .narrowRead _ a l e _ _ => fits 48 a && fits 16 l && fits 32 e
  | .narrowWrite _ a e d _ x => fits 48 a && fits 32 e && fits 16 d.length && (x.all contextOk)
  | .gatherWriteback _ _ => true
  | .leaseRequest r h t => r.admits h && r.termOk t
  | .leaseRenewal r h t => r.admits h && r.termOk t
  | .leaseRelease r h => r.admits h
  | .leaseExpiry _ => true
  | .attnExchangeArrival e => e.wf
  | .kvWriteAck _ _ => true
  | .descriptorRun _ _ => true
  | .partialMerge _ _ => true
  | .releaseTime _ _ => true
  | .attnReq r => r.wf
  | .attnRsp _ t _ ps => fits 32 t && (ps.all SoftState.wf)
  | .attnBusy _ t => fits 32 t
  | .leaseRenew _ _ ps => decide (ps.length ≤ 46)
  | .remoteRenewTimer _ => true
  | .remoteRefExpiry _ => true
  | .commonsLookup x => contextOk x
  | .commonsEvict => true
  | .openSession _ h b => h.wf && b.wf
  | .prompt _ h b => h.wf && b.wf
  | .generate _ h b => h.wf && b.wf
  | .draft _ h b => h.wf && b.wf
  | .stop _ h x => h.wf && contextOk x
  | .cancel _ h x => h.wf && contextOk x
  | .close _ h x => h.wf && contextOk x
  | .adapterLoad _ h b => h.wf && b.wf
  | .adapterVerified n _ => fits 12 n
  | .adapterDrop _ h n => h.wf && fits 16 n
  | .ingotStage _ h b => h.wf && b.wf
  | .ingotStageVerified _ => true
  | .genSwitch _ h g => h.wf && fits 32 g
  | .migrateOut _ h b => h.wf && b.wf
  | .migrateIn _ h b => h.wf && b.wf
  | .temper _ h b => h.wf && b.wf
  | .respRelease _ _ _ => true
  | .respCfg _ _ _ => true
  | .nextSeq _ _ => true
  | .sysRole _ => true
  | .bellNs _ => true
  | .partSize _ => true
  | .dormantEnter _ => true
  | .dormancyAck => true
  | .warmReset _ => true
  | .warmResetReady => true
  | .packLoadGo _ => true
  | .packLoadClear _ => true
  | .memMode _ _ => true
  | .patLoadGo _ _ _ => true
  | .patLoadUnload _ _ => true
  | .loadComplete _ e => fits 32 e
  | .fenceReq _ _ => true
  | .recastMould _ _ => true
  | .recastAll _ _ => true
  | .gaugeForce _ _ => true
  | .histSel _ _ => true
  | .leaseRevoke _ _ => true
  | .tenantBudget _ _ => true
  | .classLimit _ => true
  | .debtClear _ => true
  | .senseApply _ _ => true
  | .senseUrgent _ _ => true
  | .ringCfg _ _ => true
  | .ringRd _ _ => true
  | .commonsPool _ => true
  | .stackStage _ _ _ => true
  | .stackInject _ _ => true
  | .fuseRollback _ => true
  | .lockAttest _ _ => true
  | .attestReportDone _ => true
  | .ownerTransfer _ _ => true
  | .pubWrite _ _ => true
  | .pubRevoke _ _ => true
  | .debugAuth _ _ => true
  | .tokenBurnDone => true
  | .domainJoin _ _ => true
  | .domainLeave _ _ => true
  | .tmuxSelect _ _ => true
  | .errStatusClear a _ => fits 48 a
  | .intrFifoRead t => fits 16 t
  | .registerWrite a w _ => fits 56 a && decide (w ≤ 64)
  | .rd8 u => u.wf 0x01
  | .wr8 u => u.wf 0x02
  | .rd64 u => u.wf 0x03
  | .wr64 u d => u.wf 0x04 && lineOk d
  | .pw64 u d => u.wf 0x05 && lineOk d
  | .rsp _ u => u.wf 0x08
  | .rspd _ u d => u.wf 0x09 && lineOk d
  | .intr _ _ => true
  | .snoop _ l _ => decide (l < 2 ^ 34)
  | .snoopRsp _ l d => decide (l < 2 ^ 34) && (d.all lineOk)
  | .crd _ _ n p => fits 16 n && fits 16 p
  | .xfer _ _ k o _ => fits 16 k && fits 32 o
  | .completionTimeout _ t => fits 16 t
  | .ucieRetrain _ a b q p => decide (a ≤ 68) && decide (b ≤ 68) && (q.all (fits 16)) && p.all (fits 16)
  | .bootDoorbell b => fits 48 b.addr && fits 32 b.length
  | .kyrokFlitReceive f => decide (f.payload.length = 249)
  | .kyrokCtrlFlit f => decide (f.bytes.length = 16)
  | .ctrlFlitSend _ => true
  | .laneRetire _ _ => true
  | .kyrokForward _ _ _ _ => true
  | .kyrokAuthDiscard _ _ => true
  | .joinHello _ _ => true
  | .joinReply r _ => decide (r.share.length = 56) && decide (r.wrapped.length = 48)
  | .domain _ _ _ => true
  | .joinTimeout => true
  | .keyEpochSwitch => true
  | .kyrokBarrier _ _ _ => true
  | .rreadReq _ t _ _ _ _ => fits 32 t
  | .rreadRsp _ _ t c d _ => fits 32 t && fits 8 c && decide (d.length ≤ 65536)
  | .rreadTimeout t => fits 32 t
  | .migManifest m => m.wf
  | .migConfirm x _ => contextOk x
  | .migAbort x _ _ => contextOk x
  | .migrationTimeout x => contextOk x
  | .blankPage _ p => decide (p < 2097152)
  | .sweepLine _ => true
  | .sweepLapAlarm _ => true
  | .stackFault _ => true
  | .hubFault _ => true
  | .coreFetchPoison _ _ _ l => fits 20 l
  | .dmaPoisonHalt _ _ a b _ => fits 48 a && fits 48 b
  | .tallyWindowEnd _ => true
  | .sensorConversion _ _ => true
  | .urgentResult _ _ => true
  | .timeAlign a b => decide (a.length = 3) && decide (b.length = 16) && a.all fun x => decide (x.natAbs ≤ 2)
  | .serviceStateEval => true
  | .pfailWarning _ => true
  | .rstFall _ => true
  | .start _ _ _ l => l.all fun t => decide (t.txFailed ≤ 68) && decide (t.rxFailed ≤ 68)
  | .railLoss _ => true
  | .railsRemoved _ => true
  | .wake _ => true
  | .slotTableParityError _ => true
  | .kyrokPortTrained _ l _ _ => decide (l < 256)

end Sys2Proof
end

