-- ==== Sys2Proof/Tests/Slice0.lean ====
section
/-!
SUPPORT. Tests: ill-formed operands that the well-formedness check refuses, small steps with results taken from the manual, and for every
statement with hypotheses a concrete state and operands that meet them, clause by clause.
-/
open Sys2Proof Sys2Proof.Machine

namespace Sys2Proof.Tests

set_option Elab.async false

/-- The package in service, everything else as after reset. -/
def up : State := { pkg := { phase := .service, rstLow := false } }

/-- `up` in another phase. -/
def inPhase (p : Phase) : State := { up with pkg := { up.pkg with phase := p } }

/-- A pattern image whose fields are all zero but those that a test names. -/
def blankPattern : PatternImage := default

/-- A step in flight. -/
def aStep : Step := { id := 7, context := 0, kind := .generate, first := 0, count := 1, dies := [(0, 1)] }

/-- `up` with that step in flight. -/
def busy : State := { up with serve := { up.serve with steps := [aStep] } }

/-- An open session in context entry 0. -/
def aSession : Session := { st := .openS, capacity := 4096, openedAt := 1, opened := true }

/-- `up` with that session. -/
def serving : State := { up with serve := { up.serve with sessions := [(0, aSession)] } }

def c0 : CroftAt := { die := 0, row := 0, col := 0 }

/-! ### Bytes in memory, and the key that signs them -/

/-- `n` zero bytes. -/
def fill (n : Nat) : List (BitVec 8) := List.replicate n 0

/-- `s` with bytes in lines of a steward cache, from package-wide address `a` (R421). -/
def cached (s : State) (a : Nat) (b : List (BitVec 8)) : State :=
  { s with links := { s.links with dirtyLines :=
      ((chunks 64 ((b.length + 63) / 64) (nums b ++ List.replicate 63 0)).zipIdx).map fun l => (a / 64 + l.2, bits8 l.1) } }

/-- A package whose boot ROM holds the key 1, the curve's identity. -/
def keyed : State := { up with pkg := { up.pkg with rom := { firmware := 1, pack := 1, ownerRoot := 1, debug := 1 } } }

/-! ### A key and a signature that need no arithmetic -/

/-- The signature with R the identity and S zero, by the key whose point is the identity. -/
def idSig : List (BitVec 8) := 1 :: fill 113

def idPoint : EdPoint := ⟨0, 1, 1⟩

theorem idPoint_add : idPoint.add idPoint = idPoint := by decide +kernel

theorem idPoint_times (k : Nat) : idPoint.times k = idPoint := by
  unfold EdPoint.times
  generalize List.range 456 = l
  show l.foldl _ idPoint = idPoint
  induction l with
  | nil => rfl
  | cons i l ih => simp only [List.foldl_cons, idPoint_add, ite_self, ih]

theorem edBase_times_zero : edBase.times 0 = idPoint := by
  unfold EdPoint.times
  generalize List.range 456 = l
  show l.foldl _ idPoint = idPoint
  induction l with
  | nil => rfl
  | cons i l ih =>
    simp only [List.foldl_cons, idPoint_add, Nat.zero_testBit, Bool.false_eq_true, ↓reduceIte] at ih ⊢
    exact ih

theorem idKey_decodes : edDecode (bytesOf 57 1) = some idPoint := by decide +kernel

/-- Every message verifies under that key with that signature. -/
theorem idSig_verifies (ctx msg : List Nat) : edVerify (bytesOf 57 1) ctx msg (nums idSig) = true := by
  have h1 : (nums idSig).take 57 = bytesOf 57 1 := by decide +kernel
  have h2 : natOf ((nums idSig).drop 57) = 0 := by decide +kernel
  have h3 : (nums idSig).length = 114 := by decide +kernel
  have h4 : idPoint.four.same (idPoint.add idPoint).four = true := by decide +kernel
  have h5 : (0 < order448) := by decide +kernel
  simp only [edVerify, h1, h2, h3, idKey_decodes, edBase_times_zero, idPoint_times, h4, h5, decide_true, Bool.and_self]

theorem idSig_signed (kind : List Char) (region : List Nat) : signed 1 kind region (nums idSig) = true := idSig_verifies _ _

/-! ### The package's registers -/

def switching : State :=
  { up with pkg := { up.pkg with gen := {
    switch := some { window := 0, seq := 0, cookie := 0, generation := 2, phase := .waiting, toLoad := [] } } } }

theorem witness_RoleWaitsForTheBell :
    (up.answers = true ∧ (4 : Word).field 0 3 ≤ 4 ∧ up.serve.steps = [] ∧ up.contextsInUse = false ∧ up.pkg.gen.switch = none) ∧
    (up.answers = true ∧ 4 < (5 : Word).field 0 3) ∧ (busy.answers = true ∧ (4 : Word).field 0 3 ≤ 4 ∧ busy.serve.steps ≠ []) ∧
    (serving.answers = true ∧ (0 : Word).field 0 3 ≤ 4 ∧ serving.contextsInUse = true) ∧
    (switching.answers = true ∧ (4 : Word).field 0 3 ≤ 4 ∧ switching.pkg.gen.switch ≠ none) ∧
    up.pkg.phase = .service ∧ (inPhase .entering).pkg.phase = .entering ∧ (inPhase .powerFail).pkg.phase = .powerFail := by decide

/-- A pattern that needs a bell period of 1,001 ns is loaded on die 15. -/
def slowDie : State := { up with dies := [(15, { pattern := some { blankPattern with minBell := 1001 } })] }

theorem witness_BellPeriodIsChecked :
    (up.answers = true ∧ 1000 ≤ (1000 : Word).field 0 14 ∧ (16000 : Word).field 0 14 ≤ 16000 ∧ up.serve.steps = [] ∧
      (∀ d < 16, ∀ i ∈ (slowDie.die d).pattern, i.minBell ≤ (1001 : Word).field 0 14)) ∧
    ((999 : Word).field 0 14 < 1000 ∧ 16000 < (0x3FFF : Word).field 0 14) ∧
    (busy.answers = true ∧ 1000 ≤ (16000 : Word).field 0 14 ∧ busy.serve.steps ≠ []) ∧
    (slowDie.answers = true ∧ slowDie.serve.steps = [] ∧
      ∃ d, d < 16 ∧ ∃ i ∈ (slowDie.die d).pattern, (1000 : Word).field 0 14 < i.minBell) :=
  ⟨by decide, by decide, by decide, by decide, by decide, 15, by decide, _, rfl, by decide⟩

def inRole (r : Nat) : State := { up with pkg := { up.pkg with role := r } }

theorem witness_PartSizeWaitsForTheNextStart :
    (up.answers = true ∧ 1 ≤ (1 : Word).field 0 4 ∧ (8 : Word).field 0 4 ≤ 8 ∧ up.pkg.role = 0) ∧
    ((0 : Word).field 0 4 = 0 ∧ 8 < (9 : Word).field 0 4 ∧ 8 < (15 : Word).field 0 4) ∧
    ((inRole 1).answers = true ∧ 1 ≤ (8 : Word).field 0 4 ∧ (inRole 1).pkg.role ≠ 0) ∧
    up.pkg.phase ∉ [Phase.off, .dormant, .tripped] ∧ (inPhase .sleepAck).pkg.phase = .sleepAck ∧
    (State.reset.pkg.phase ∈ [Phase.inReset, .off, .dormant] ∧ State.reset.pkg.rstLow = true) := by decide

/-- A probe pack of one entry, version 3, signed by key 1. -/
def packBytes3 : List (BitVec 8) :=
  leBytes 11 0x100010000000300000001 ++ fill 245 ++ leBytes 16 0x10001000f001000000a000000000001 ++ fill 560 ++ idSig

/-- It lies at the first byte of stack 0's partition. -/
def packed : State := cached keyed 0 packBytes3

/-- PACK_LOAD with go, the pack at the first byte of stack 0's partition, 4 KiB long. -/
def packGo : Word := 0x0001_0100_0000_0001

theorem packed_fault : packed.packFault 0x10000000000 1 (packed.readPack 0x10000000000).2 = none := by
  have h1 : (packed.readPack 0x10000000000).2.signature = nums idSig := by decide +kernel
  have h2 : packed.pkg.rom.pack = 1 := by decide +kernel
  have h3 : packed.pkg.packPending.isSome = false ∧ packed.checkRange 0x10000000000 4096 = none ∧
    (packed.readPack 0x10000000000).2.version = 3 ∧ packed.pkg.packVersion = 0 ∧
    (packed.readPack 0x10000000000).2.format = 1 ∧ (packed.readPack 0x10000000000).2.dieRevision = packed.pkg.dieRevision ∧
    (packed.readPack 0x10000000000).2.reservedZero = true ∧ (packed.readPack 0x10000000000).2.entryCount = 1 ∧
    (packed.readPack 0x10000000000).2.entries.all packEntryOk = true := by decide +kernel
  obtain ⟨a, b, d, e, f, g, k, l, m⟩ := h3
  simp [State.packFault, packBytes, a, b, d, e, f, g, k, l, m, h1, h2, idSig_signed]

theorem witness_PackAndBudgetWrites :
    (packed.answers = true ∧ packGo.bit 0 = true ∧ packGo.bit 1 = false ∧
      packed.packFault (packGo.field 12 36 * 4096) (packGo.field 48 16) (packed.readPack (packGo.field 12 36 * 4096)).2 = none) ∧
    up.packFault 0x10000000000 0 (up.readPack 0x10000000000).2 = some .length ∧
    ((3 : Word).bit 0 = true ∧ (3 : Word).bit 1 = true) ∧ ((2 : Word).bit 0 = false ∧ (2 : Word).bit 1 = true) ∧
    (0x8000000000000000 : Word).bit 63 = true ∧
    ((0x646464 : Word).field 0 8 ≤ 100 ∧ (0x646464 : Word).field 8 8 ≤ (0x646464 : Word).field 0 8 ∧
      (0x646464 : Word).field 16 8 ≤ (0x646464 : Word).field 8 8) ∧ 100 < (0x65 : Word).field 0 8 ∧
    ((0x5064 : Word).field 8 8 ≤ 100 ∧ (0x505150 : Word).field 0 8 < (0x505150 : Word).field 8 8) ∧
    (1 : Word).bit 0 = true ∧ (0 : Word).bit 0 = false :=
  ⟨⟨by decide, by decide, by decide, packed_fault⟩, by decide +kernel, by decide, by decide, by decide, by decide, by decide, by decide, by decide,
    by decide⟩

/-! ### Sensors and the tally -/

/-- Converter 3 with a ring of 16 slots of which two are written and one is released, and four urgent requests waiting. -/
def sensing : State :=
  { up with sense := [(3, { ringWr := 2, ringRd := 1, running := some { input := 47 }
                            urgent := [{ input := 1 }, { input := 2 }, { input := 3 }, { input := 4 }] })] }

/-- Converter 3 converts an urgent request of the tally for a result of 112 °C or more. -/
def tripping : State := { up with sense := [(3, { running := some { input := 47, confirm := true, trip := true } })] }

/-- Converter 3's shadow table names inputs 0 to 47 in order. -/
def shadowed : State :=
  { up with regs := (List.range 12).map fun j =>
      ((Page.sense 3).base + 0x100 + 8 * j, BitVec.ofNat 64 (0x0003000200010000 + 4 * j * 0x0001000100010001)) }

/-- Converter 3 is stopped, with its shadow table filled. -/
def halted : State := { shadowed with sense := [(3, { stopped := true })] }

/-- APPLY of 48 entries, with run. -/
def applyAll : Word := 0x304

set_option maxRecDepth 20000 in
theorem witness_SensorWritesTakeEffect :
    (shadowed.answers = true ∧ 1 ≤ applyAll.field 4 7 ∧ applyAll.field 4 7 ≤ 64 ∧ applyAll.bit 2 = true ∧
      (∀ i < 32, ∃ e ∈ shadowed.shadow 3 (applyAll.field 4 7), e.1 = i) ∧ (shadowed.conv 3).stopped = false) ∧
    ((sensing.conv 3).running.isSome = true ∧ (halted.conv 3).stopped = true ∧ (halted.conv 3).running = none) ∧
    ((4 : Word).field 4 7 = 0 ∧ 64 < (0x414 : Word).field 4 7) ∧
    (1 ≤ (0x14 : Word).field 4 7 ∧ (0x14 : Word).bit 2 = true ∧ ∃ i < 32, ∀ e ∈ up.shadow 3 ((0x14 : Word).field 4 7), e.1 ≠ i) ∧
    ((47 : Word).field 0 6 ≤ 47 ∧ ((up.conv 3).urgent.filter fun e => !e.confirm).length < 4) ∧ 47 < (48 : Word).field 0 6 ∧
    (sensing.answers = true ∧ 4 ≤ ((sensing.conv 3).urgent.filter fun e => !e.confirm).length) ∧
    ((0xC0000001 : Word).field 28 4 ≤ 12 ∧ (8 * (0xC0000001 : Word).field 3 21) % (8 * 2 ^ (4 + (0xC0000001 : Word).field 28 4)) = 0) ∧
    (12 < (0xD0000000 : Word).field 28 4 ∧ (8 * (8 : Word).field 3 21) % (8 * 2 ^ (4 + (8 : Word).field 28 4)) ≠ 0) ∧
    ((sensing.conv 3).ringRd ≤ (2 : Word).toNat ∧ (2 : Word).toNat ≤ (sensing.conv 3).ringWr) ∧
    (sensing.conv 3).ringWr < (3 : Word).toNat ∧
    ((0 : Word).toNat ≤ (sensing.conv 3).ringWr ∧ (0 : Word).toNat < (sensing.conv 3).ringRd) := by decide

theorem witness_ConversionsLatchTheirResult :
    (up.pkg.phase.converts = true ∧ (up.conv 3).active[(up.conv 3).position]? = some (0, false) ∧ (up.conv 3).stopped = false ∧
      (up.conv 3).running = none ∧ up.calibrated 3 0 6080 = 6080 ∧ (up.die 3).quickDue = [] ∧ up.pkg.halting = false) ∧
    ((sensing.conv 3).running = some { input := 47 } ∧ ¬(false = true ∧ false = true ∧ 7168 ≤ toSigned 16 6720)) ∧
    (tripping.pkg.phase.converts = true ∧ (tripping.conv 3).running = some { input := 47, confirm := true, trip := true } ∧
      tripping.calibrated 3 47 7168 = 7168 ∧ 7168 ≤ toSigned 16 7168 ∧ tripping.calibrated 3 47 6720 = 6720 ∧ 6720 ≤ toSigned 16 6720 ∧
      tripping.calibrated 3 47 6704 = 6704 ∧ 6080 ≤ toSigned 16 6704 ∧ toSigned 16 6704 < 6720) := by decide

theorem witness_TallyWindowReconciles : up.pkg.phase.ready = true ∧ (inPhase .powerFail).pkg.phase.ready = true := by decide

/-! ### Stacks and storage -/

/-- Stack 2 with staging region 1 at pages 70,000 to 70,001, page 70,010 unclean, its sweep at the last line and past its limit. -/
def stacked : State :=
  { up with
    clock := { up.clock with time := 5000000000 }
    regs := [((Page.sweep 2).base + 0x010, 0x0000000400000101)]
    hbm := { lines := [((2 * Config.stackBytes + 70000 * 65536) / 64, { marker := .clean, flips := 0x7F })]
             units := [(2, { staging := [(1, (70000, 2))], unclean := [(70010, 70010)], sweepPos := 137438953408, lapStart := 0 })] } }

/-- INJECT of 8 symbols with go at byte 0 of stack 2's staging region. -/
def injectAt : Word := BitVec.ofNat 64 (0x10000000000 + 2 * 0x2000000000 + 70000 * 65536 + 24)

/-- `stacked` with a commons node. -/
def noded : State :=
  { stacked with store := { nodes := [(0, { hash := 1, parent := none, next := none, depth := 1, children := 0, prefixTable := 0, lastUse := 0
                                            root := { kvTag := 0, kv8 := false, scope := 0, adapterTag := 0 }, tokens := [] })] } }

set_option maxRecDepth 20000 in
theorem witness_StorageWritesTakeEffect :
    (up.answers = true ∧ 4 * (4 : Word).field 0 24 ≤ up.poolPages ∧ up.store.nodes = []) ∧
    up.poolPages < 4 * (0xFFFFFF : Word).field 0 24 ∧ (noded.answers = true ∧ 4 * (0 : Word).field 0 24 ≤ noded.poolPages ∧ noded.store.nodes ≠ []) ∧
    ((0x8000000100011180 : Word).bit 63 = true ∧ stacked.stageFault 2 0 0x8000000100011180 = none ∧
      tfind (stacked.stack 2).staging 0 = none) ∧
    ((0 : Word).bit 63 = false ∧ stacked.stageFault 2 1 0 = none ∧ tfind (stacked.stack 2).staging 1 = some (70000, 2)) ∧
    ((0x8000000200011170 : Word).bit 63 = true ∧ stacked.stageFault 2 1 0x8000000200011170 = none) ∧
    (stacked.stageFault 2 0 0 = none ∧ tfind (stacked.stack 2).staging 0 = none) ∧
    (stacked.stageFault 2 0 0x8000000000011180 = some .length ∧ stacked.stageFault 2 0 0x8000000100011171 = some .auth ∧
      stacked.stageFault 2 1 0x8000000100011170 = some .state) ∧
    (1 ≤ injectAt.field 0 4 ∧ injectAt.field 0 4 ≤ 8 ∧ injectAt.bit 4 = true ∧
      target (injectAt.field 6 42 * 64) = .aperture 2 (70000 * 65536) ∧ stacked.apertureOk 2 (70000 * 65536) = true) ∧
    (1 ≤ (injectAt - 23).field 0 4 ∧ (injectAt - 23).bit 4 = false ∧ target ((injectAt - 23).field 6 42 * 64) = .aperture 2 (70000 * 65536)) ∧
    ((0 : Word).field 0 4 = 0 ∧ 8 < (9 : Word).field 0 4) ∧ (target ((24 : Word).field 6 42 * 64) = .reg .sys 0) := by decide

/-- The sweep of stack 2 reads line 0 of its partition, stored with the marker and the symbols in error given. -/
def sweepingAt (m : Marker) (flips : BitVec 8) (dirty : Bool) : State :=
  { up with hbm := { lines := [(2 * Config.stackBytes / 64, { marker := m, flips := flips })]
                     units := [(2, { unclean := if dirty then [(0, 0)] else [] })] } }

/-- The sweep of stack 0 is disabled and has no limit. -/
def unswept : State := { up with regs := [((Page.sweep 0).base + 0x010, 0)] }

theorem witness_BlankingAndSweeping :
    (70010 < Config.stackPages ∧ (stacked.stack 2).out = false ∧ stacked.unclean (2 * Config.stackPages + 70010) = true) ∧
    (Config.stackPages ≤ 2097152 ∧ stacked.unclean (2 * Config.stackPages + 70011) = false) ∧
    (stacked.sweeping 2 = true ∧ stacked.unclean (pageOf (2 * Config.stackBytes + (stacked.stack 2).sweepPos)) = false ∧
      Config.stackBytes ≤ (stacked.stack 2).sweepPos + 64) ∧
    ((sweepingAt .clean 3 false).sweeping 2 = true ∧ ((sweepingAt .clean 3 false).lineCode (2 * Config.stackBytes / 64)).errors = 2 ∧
      (sweepingAt .clean 3 false).unclean (pageOf (2 * Config.stackBytes)) = false) ∧
    ((sweepingAt .poison 3 false).lineCode (2 * Config.stackBytes / 64)).marker ≠ .clean ∧
    ((sweepingAt .clean 7 false).lineCode (2 * Config.stackBytes / 64)).errors = 3 ∧
    ((sweepingAt .clean 63 false).lineCode (2 * Config.stackBytes / 64)).errors = 6 ∧
    (sweepingAt .clean 3 true).unclean (pageOf (2 * Config.stackBytes)) = true ∧ unswept.sweeping 0 = false := by decide

/-- A node of the commons names a prefix table with the page that the sweep of stack 2 reads, whose line is uncorrectable. -/
def nodedPoison : State :=
  { sweepingAt .clean 7 false with store := {
      nodes := [(0, { hash := 1, parent := none, next := none, depth := 1, children := 0, prefixTable := 4, lastUse := 0
                      root := { kvTag := 0, kv8 := false, scope := 0, adapterTag := 0 }, tokens := [] })]
      prefixes := [(4, { length := 16, entries := [((0, 0), .page (2 * Config.stackPages))] })] } }

theorem witness_SweepFindsPoisonInAPrefix :
    nodedPoison.sweeping 2 = true ∧ nodedPoison.unclean (pageOf (2 * Config.stackBytes)) = false ∧
    (nodedPoison.lineCode (2 * Config.stackBytes / 64)).errors = 3 ∧ (tfind nodedPoison.store.nodes 0).map (·.prefixTable) = some 4 ∧
    (tfind nodedPoison.store.prefixes 4).map (·.entries) = some [((0, 0), .page (2 * Config.stackBytes / 64 / 1024))] := by decide

def hubDown : State := { up with pkg := { up.pkg with hubFaulty := [2] } }

theorem witness_AlarmsFaultsAndPoison :
    (stacked.answers = true ∧ stacked.lapLimit 2 = some 1024 ∧ (stacked.stack 2).lapAlarmed = false ∧
      (stacked.stack 2).lapStart + 1000000 * 1024 < stacked.clock.time) ∧ unswept.lapLimit 0 = none ∧
    (up.pkg.phase.ready = true ∧ (2 : HubId).val ∉ up.pkg.hubFaulty) ∧ (2 : HubId).val ∈ hubDown.pkg.hubFaulty := by decide

/-- `up` with stack 3, which holds the mirror of stack 2, out of service. -/
def mirrorless : State := { up with hbm := { units := [(3, { out := true })] } }

/-- Core 3 of hub 1 holds engine 5, channel 2, which holds slice 1 of die 6, and the table lock. -/
def leasing : State :=
  { up with
    store := { up.store with hubs := [(1, {
      engines := [(5, { lease := { held := true, holder := .core 3, epoch := 7, ends := 9 } })]
      dmaLeases := [(2, { held := true, holder := .core 3, epoch := 4, ends := 9 })]
      lockLease := { held := true, holder := .core 3, epoch := 1, ends := 9 } })] }
    dies := [(6, { leases := [(1, { held := true, holder := .dma 2, epoch := 3, ends := 9 })] })] }

theorem witness_PoisonMeetsItsAgent :
    up.mirrorServes 2 5 = true ∧ mirrorless.mirrorServes 2 5 = false ∧
    Leased.channel (hubOfStack 2) 2 ∈ leasing.leasesOf (hubOfStack 2) 3 ∧ (leasing.leaseOf (.slice 6 1)).holder = .dma 2 := by decide

/-! ### The lockhouse -/

/-- The running bundle's security version is 1; one owner setting and publisher 3 are fused. -/
def fused : State :=
  { keyed with lock := { securityVersion := 1, fuses := {
      ownerUsed := 1, ownerDigest := natOf (shake256 (bytesOf 57 1) 32), publishers := [(3, 77)] } } }

def fullRollback : State := { up with lock := { securityVersion := 128, fuses := { rollback := 128 } } }

/-- A bundle of 4 KiB at byte 0 of stack 0's partition: all zeros in `up`. -/
def aBundle : Bundle :=
  { addr := 0x10000000000, length := 4096, badCrofts := [], badRouters := [], badStacks := [], badRows := [], quick := [], clearMoulds := [] }

def bootStale : State := cached { fullRollback with pkg := { fullRollback.pkg with phase := .starting } } 0 (fill 512)

theorem witness_RollbackBurnsOneStep :
    (fused.answers = true ∧ fused.lock.fuses.rollback < 128 ∧ (1 : Word).field 0 8 = fused.lock.fuses.rollback + 1 ∧
      (1 : Word).field 0 8 ≤ fused.lock.securityVersion) ∧
    ((2 : Word).field 0 8 ≠ fused.lock.fuses.rollback + 1 ∧ up.lock.securityVersion < (1 : Word).field 0 8) ∧
    (fullRollback.answers = true ∧ 128 ≤ fullRollback.lock.fuses.rollback) ∧
    (bootStale.pkg.phase = .starting ∧ (bootStale.readBundle aBundle.addr aBundle.length).2.securityVersion < bootStale.lock.fuses.rollback) := by decide +kernel

def burning (k : Nat) : State :=
  { up with lock := { fuses := { ownerUsed := 7, debugUsed := 3 }, burn := some { kind := k, slot := 15, key := 5, owner := 6, scope := 1 } } }

/-- A token that sets the owner digest to 55, signed by the owner root. -/
def ownerToken : List (BitVec 8) :=
  leBytes 5 0x100000001 ++ fill 11 ++ leBytes 64 0x5e7da69396cc75630480e82e0d38a94e08ed3580e5d4a45e913fb3c230c9dca0750036f01918e33713f08ec82f78a99ec9aff2a111a98c0f41130ea1af7b6036 ++ fill 72 ++ leBytes 1 0x37 ++ fill 103 ++ idSig

/-- A token that writes publisher slot 15 with key 78, signed by the owner. -/
def pubToken : List (BitVec 8) :=
  leBytes 5 0x100000002 ++ fill 11 ++ leBytes 64 0x5e7da69396cc75630480e82e0d38a94e08ed3580e5d4a45e913fb3c230c9dca0750036f01918e33713f08ec82f78a99ec9aff2a111a98c0f41130ea1af7b6036 ++ fill 8 ++ leBytes 1 0x1 ++ fill 63 ++ leBytes 2 0x4e0f ++ fill 102 ++ idSig

/-- A token that revokes publisher slot 3, signed by the owner. -/
def revokeToken : List (BitVec 8) :=
  leBytes 5 0x100000003 ++ fill 11 ++ leBytes 64 0x5e7da69396cc75630480e82e0d38a94e08ed3580e5d4a45e913fb3c230c9dca0750036f01918e33713f08ec82f78a99ec9aff2a111a98c0f41130ea1af7b6036 ++ fill 8 ++ leBytes 1 0x1 ++ fill 63 ++ leBytes 1 0x3 ++ fill 103 ++ idSig

/-- A token that opens debug with scope 1, signed by the debug key. -/
def debugToken : List (BitVec 8) :=
  leBytes 5 0x100000004 ++ fill 11 ++ leBytes 64 0x5e7da69396cc75630480e82e0d38a94e08ed3580e5d4a45e913fb3c230c9dca0750036f01918e33713f08ec82f78a99ec9aff2a111a98c0f41130ea1af7b6036 ++ fill 72 ++ leBytes 1 0x1 ++ fill 103 ++ idSig

/-- LOAD of 370 bytes at byte 0 of stack 0's partition, with go. -/
def tokenGo : Word := 0x0172_0100_0000_0001

/-- What the lockhouse answers to the token there. -/
def tokenAnswer (s : State) : Option Code := s.tokenFault 0x10000000000 370 (s.readToken 0x10000000000 370).2

set_option maxRecDepth 20000 in
theorem witness_TokensBeginTheirBurnInOrder :
    (up.answers = true ∧ tokenGo.bit 0 = true ∧ tokenGo.field 6 42 * 64 = 0x10000000000 ∧ tokenGo.field 48 16 = 370) ∧ (3 : HubId) ≠ 0 ∧
    ((burning 1).lockBusy = true ∧ tokenAnswer (burning 1) = some .busy) ∧
    (fused.lockBusy = false ∧ fused.inPartition 0 370 = false ∧ fused.inPartition 0x10000000000 484 = true) := by decide +kernel

/-- The digest that names a device whose secret is zero. -/
theorem device_digest : up.lock.fuses.deviceDigest = slice (nums ownerToken) 16 64 := by decide +kernel

/-- What a token with that digest and that signature meets: every check up to the signatures. -/
theorem token_signed (s : State) (k : Token) (h1 : k.signature1 = nums idSig) (h2 : s.pkg.rom.ownerRoot = 1) (h3 : s.pkg.rom.debug = 1)
    (h4 : k.kind = 1 ∧ s.lock.fuses.ownerUsed = 0 ∨ k.kind = 4 ∧ s.lock.fuses.ownerUsed = 0 ∨
      k.ownerKey = bytesOf 57 1 ∧ 0 < s.lock.fuses.ownerUsed ∧ natOf (shake256 k.ownerKey 32) = s.lock.fuses.ownerDigest) :
    s.tokenSigned k 370 = true := by
  have hk : natOf (bytesOf 57 1) = 1 := by decide
  unfold State.tokenSigned
  rcases h4 with ⟨a, b⟩ | ⟨a, b⟩ | ⟨a, b, c⟩
  · simp [h1, h2, a, b, idSig_signed]
  · simp [h1, h3, a, b, idSig_signed]
  · by_cases h : k.kind = 4 <;> simp [h1, h3, a, b, ← c, hk, h, idSig_signed]

/-- A token in memory passes every check, its signature among them. -/
theorem token_passes (s : State) (b : List (BitVec 8))
    (h1 : (s.readToken 0x10000000000 370).2 = parseToken (nums b)) (h2 : (parseToken (nums b)).signature1 = nums idSig)
    (h3 : s.pkg.rom.ownerRoot = 1 ∧ s.pkg.rom.debug = 1 ∧ s.lockBusy = false ∧ s.inPartition 0x10000000000 370 = true)
    (h4 : s.tokenFormatOk (parseToken (nums b)) 370 = true ∧ s.tokenFresh (parseToken (nums b)) = true ∧
      s.tokenStateOk (parseToken (nums b)) = true ∧ s.tokenCountOk (parseToken (nums b)) = true)
    (h5 : (parseToken (nums b)).kind = 1 ∧ s.lock.fuses.ownerUsed = 0 ∨ (parseToken (nums b)).kind = 4 ∧ s.lock.fuses.ownerUsed = 0 ∨
      (parseToken (nums b)).ownerKey = bytesOf 57 1 ∧ 0 < s.lock.fuses.ownerUsed ∧
        natOf (shake256 (parseToken (nums b)).ownerKey 32) = s.lock.fuses.ownerDigest) : tokenAnswer s = none := by
  have h := token_signed s _ h2 h3.1 h3.2.1 h5
  simp [tokenAnswer, State.tokenFault, h1, h, h3, h4]

/-- Whether a token names the device with secret zero and carries that signature. -/
theorem token_fields (b : List (BitVec 8)) (hb : b ∈ [ownerToken, pubToken, revokeToken, debugToken]) :
    (parseToken (nums b)).signature1 = nums idSig ∧ (parseToken (nums b)).device = slice (nums ownerToken) 16 64 ∧
    (parseToken (nums b)).nonce = 0 ∧ (parseToken (nums b)).sequence = 0 := by
  simp only [List.mem_cons, List.not_mem_nil, or_false] at hb
  rcases hb with rfl | rfl | rfl | rfl <;> decide +kernel

theorem token_fresh (s : State) (b : List (BitVec 8)) (hb : b ∈ [ownerToken, pubToken, revokeToken, debugToken])
    (h : s.lock.fuses.deviceSecret = 0 ∧ s.lock.nonce = 0)
    (h2 : (parseToken (nums b)).kind = 1 → s.lock.fuses.ownerUsed = 0) (h3 : (parseToken (nums b)).kind = 4 → s.lock.fuses.debugUsed = 0) :
    s.tokenFresh (parseToken (nums b)) = true := by
  obtain ⟨_, e1, e2, e3⟩ := token_fields b hb
  have e4 : s.lock.fuses.deviceDigest = up.lock.fuses.deviceDigest := by
    simp only [Fuses.deviceDigest, Fuses.identityPublic, Fuses.identityKey, Fuses.secretBytes, h.1]
    rfl
  simp only [State.tokenFresh, e1, e2, e3, e4, device_digest, h.2]
  split
  · rename_i k; simp [h2 k]
  · split
    · rename_i k; simp [h3 k]
    · simp

set_option maxRecDepth 20000 in
/-- Each kind of token passes every check where its signature stands. -/
theorem witness_TokensPass :
    tokenAnswer (cached keyed 0 ownerToken) = none ∧ tokenAnswer (cached fused 0 pubToken) = none ∧
    tokenAnswer (cached fused 0 revokeToken) = none ∧ tokenAnswer (cached keyed 0 debugToken) = none := by
  refine ⟨token_passes _ ownerToken (by decide +kernel) (by decide +kernel) (by decide +kernel) ⟨by decide +kernel, ?_, by decide +kernel, by decide +kernel⟩ (.inl (by decide +kernel)),
    token_passes _ pubToken (by decide +kernel) (by decide +kernel) (by decide +kernel) ⟨by decide +kernel, ?_, by decide +kernel, by decide +kernel⟩ (.inr (.inr ⟨by decide +kernel, by decide +kernel, ?_⟩)),
    token_passes _ revokeToken (by decide +kernel) (by decide +kernel) (by decide +kernel) ⟨by decide +kernel, ?_, by decide +kernel, by decide +kernel⟩ (.inr (.inr ⟨by decide +kernel, by decide +kernel, ?_⟩)),
    token_passes _ debugToken (by decide +kernel) (by decide +kernel) (by decide +kernel) ⟨by decide +kernel, ?_, by decide +kernel, by decide +kernel⟩ (.inr (.inl (by decide +kernel)))⟩
  · exact token_fresh _ _ (by simp) ⟨rfl, rfl⟩ (by decide +kernel) (by decide +kernel)
  · exact token_fresh _ _ (by simp) ⟨rfl, rfl⟩ (by decide +kernel) (by decide +kernel)
  · rw [show (parseToken (nums pubToken)).ownerKey = bytesOf 57 1 from by decide +kernel]; rfl
  · exact token_fresh _ _ (by simp) ⟨rfl, rfl⟩ (by decide +kernel) (by decide +kernel)
  · rw [show (parseToken (nums revokeToken)).ownerKey = bytesOf 57 1 from by decide +kernel]; rfl
  · exact token_fresh _ _ (by simp) ⟨rfl, rfl⟩ (by decide +kernel) (by decide +kernel)

/-- A used-up lockhouse: 8 owner settings, 4 debug openings, publisher slot 3 revoked. -/
def spent : State :=
  { fused with lock := { fused.lock with fuses := { fused.lock.fuses with ownerUsed := 8, debugUsed := 4, pubRevoked := [3] } } }

set_option maxRecDepth 20000 in
theorem witness_TokenCountsAndStates :
    8 ≤ spent.lock.fuses.ownerUsed ∧ 4 ≤ spent.lock.fuses.debugUsed ∧ spent.pkg.role = 0 ∧ spent.contextsInUse = false ∧
    (spent.tokenStateOk (parseToken (nums revokeToken)) = false ∧ spent.tokenFresh (parseToken (nums revokeToken)) = true ∧
      spent.tokenSigned (parseToken (nums revokeToken)) 370 = true ∧ spent.tokenFormatOk (parseToken (nums revokeToken)) 370 = true) ∧
    (fused.tokenStateOk { parseToken (nums pubToken) with region := parseToken (nums revokeToken) |>.region } = false) := by
  refine ⟨by decide, by decide, by decide, by decide, ⟨by decide +kernel, ?_, ?_, by decide +kernel⟩, by decide +kernel⟩
  · exact token_fresh _ _ (by simp) ⟨rfl, rfl⟩ (by decide +kernel) (by decide +kernel)
  · refine token_signed _ _ (by decide +kernel) rfl rfl (.inr (.inr ⟨by decide +kernel, by decide, ?_⟩))
    rw [show (parseToken (nums revokeToken)).ownerKey = bytesOf 57 1 from by decide +kernel]
    rfl

theorem witness_BurnDoneSetsTheFuses :
    ((burning 1).lock.burn = some { kind := 1, slot := 15, key := 5, owner := 6, scope := 1 } ∧ (burning 1).fusesOk) ∧
    (burning 2).lock.burn.isSome = true ∧ (burning 3).lock.burn.isSome = true ∧ (burning 4).lock.burn.isSome = true ∧ up.lock.burn = none :=
  ⟨⟨rfl, by decide, by decide, by decide, fun b h => by cases h; decide⟩, rfl, rfl, rfl, rfl⟩

/-- ATTEST of a report into the 4 KiB at byte 0 of stack 0's partition. -/
def attestGo : Word := 0x0001_0100_0000_0001

def attesting : State :=
  { up with lock := { up.lock with attest := some { chain := false, addr := 0x10000000000, len := 4096, snap := some [1, 2] } } }

set_option maxRecDepth 20000 in
theorem witness_AttestationWritesItsReport :
    (up.answers = true ∧ attestGo.bit 0 = true ∧ attestGo.field 48 14 ≠ 0 ∧ attestGo.field 62 2 ≤ 1 ∧
      up.inPartition (attestGo.field 12 36 * 4096) (attestGo.field 48 14 * 4096) = true ∧ up.lockBusy = false) ∧
    (1 : HubId) ≠ 0 ∧ attesting.lock.attest = some { chain := false, addr := 0x10000000000, len := 4096, snap := some [1, 2] } ∧
    64 + (attesting.signReport [1, 2]).length = 372 ∧
    up.lock.attest = none := by decide +kernel

/-- A certificate chain is asked for into 4 KiB. -/
def chaining : State :=
  { up with lock := { up.lock with attest := some { chain := true, addr := 0x10000000000, len := 4096, snap := some [] } } }

theorem witness_AttestationThatDoesNotFit :
    chaining.lock.attest = some { chain := true, addr := 0x10000000000, len := 4096, snap := some [] } ∧
    4096 < 64 + (List.replicate 4033 0).length := ⟨rfl, by rw [List.length_replicate]; decide⟩

/-! ### The domain and Kyrok -/

def domained (st : Nat) (time : Nat) : State :=
  { up with clock := { up.clock with time := time }
            lock := { domainState := st, keyEpoch := 4, oldEpoch := none, domainKey := 9, members := [0, 1], joinAt := 0 } }

theorem witness_DomainRegisterStartsJoinAndLeave :
    (up.answers = true ∧ (0x1800105 : Word).field 16 8 ≤ 128 ∧ (0x1800105 : Word).bit 24 = true ∧ (0x1800105 : Word).bit 25 = false ∧
      (0x1800105 : Word).field 0 8 ≠ (0x1800105 : Word).field 8 8 ∧ up.lock.domainState ≠ 1 ∧ up.lock.domainState ≠ 4) ∧
    ((0x1800505 : Word).field 0 8 = (0x1800505 : Word).field 8 8 ∧ (0x1800505 : Word).bit 24 = true ∧ up.lock.domainState ≠ 3) ∧
    (domained 3 0).lock.domainState = 3 ∧ ((0x2000000 : Word).bit 24 = false ∧ (0x2000000 : Word).bit 25 = true) ∧
    128 < (0x1810000 : Word).field 16 8 ∧ (domained 1 0).lock.domainState = 1 ∧ (domained 4 0).lock.domainState = 4 ∧ (3 : HubId) ≠ 0 := by
  decide

/-- A report whose two links verify: identity and alias key are the identity point. -/
def goodReport : JoinReport :=
  { package := 7, certified := true, share := fill 56, report := fill 88 ++ bits8 (bytesOf 57 1) ++ fill 879 ++ bits8 (bytesOf 57 1) ++ fill 7 ++ idSig ++ fill 14 ++ idSig }

theorem goodReport_parts :
    (nums goodReport.report).length = 1330 ∧ slice (nums goodReport.report) 1024 57 = bytesOf 57 1 ∧
    slice (nums goodReport.report) 88 57 = bytesOf 57 1 ∧ slice (nums goodReport.report) 1088 114 = nums idSig ∧
    slice (nums goodReport.report) 1216 114 = nums idSig := by decide +kernel

theorem goodReport_verifies : reportVerifies (nums goodReport.report) = true := by
  obtain ⟨h1, h2, h3, h4, h5⟩ := goodReport_parts
  simp only [reportVerifies, h1, h2, h3, h4, h5, idSig_verifies, Nat.reduceAdd, Nat.reduceSub, Nat.le_refl, decide_true, Bool.and_self]

/-- A flit of zeros. -/
def aFlitOf (vl : Bool) (kind : Nat) : Flit := { vl := vl, kind := kind, payload := fill 249 }

/-- Port 5 is trained at full width and in state `st`, port 6 likewise. -/
def porting (d st : Nat) : State :=
  { domained d 20000000 with links := { ports := [
    (5, { state := st, lanes := [0, 1, 2, 3, 4, 5, 6, 7], outOfService := false, sent := 3, kept := [(aFlitOf false 4, 0), (aFlitOf false 1, 1), (aFlitOf true 2, 2)]
          nakDue := false, unacked := 15, waitSince := some 19999936 }),
    (6, { state := 3, lanes := [0, 1, 2, 3, 4, 5], outOfService := false, discarding := true })] } }

theorem witness_JoinNeedsTheRootsPolicy :
    (goodReport.certified = true ∧ fieldAt (nums goodReport.report) 224 32 = (porting 3 2).lock.fuses.ownerDigest ∧
      (fieldAt (nums goodReport.report) 11 1).testBit 0 = false ∧
      ((porting 3 2).reg (.lock 0) 0x120).field 16 8 ≤ fieldAt (nums goodReport.report) 148 4) ∧
    ((porting 3 2).lock.domainState = 3 ∧ 2 ≤ ((porting 3 2).port 5).state) ∧
    ((porting 1 2).lock.domainState = 1 ∧ (porting 1 2).lock.joinAt + 20000000 ≤ (porting 1 2).clock.time) ∧
    ({ goodReport with certified := false }.certified = false ∧ ((porting 3 1).port 5).state < 2) ∧
    ((domained 1 19999999).clock.time < (domained 1 19999999).lock.joinAt + 20000000) ∧ (domained 0 0).lock.domainState ≠ 1 := by
  decide +kernel

/-- The key 9 wrapped under the secret that two zero shares make, and under no secret. -/
theorem witness_KeysOpen :
    openKey (x448 (domained 1 0).lock.joinSecret (nums goodReport.share)) (wrapKey (List.replicate 56 0) 9) = some 9 ∧
    openKey (x448 (domained 1 0).lock.joinSecret (nums goodReport.share)) [] = none ∧
    openKey ((tfind (domained 2 0).lock.shared (domained 2 0).rootNumber).getD []) (wrapKey [] 9) = some 9 ∧
    openKey ((tfind (domained 2 0).lock.shared (domained 2 0).rootNumber).getD []) [] = none := by decide +kernel

theorem witness_MembersAndKeyEpochsChange :
    (domained 2 0).lock.domainState = 2 ∧ (domained 3 0).lock.domainState = 3 ∧
    ((domained 0 0).lock.domainState ≠ 2 ∧ (domained 0 0).lock.domainState ≠ 3) ∧
    (domained 2 10000000).lock.epochAt + 10000000 ≤ (domained 2 10000000).clock.time ∧
    (domained 2 9999999).clock.time < (domained 2 9999999).lock.epochAt + 10000000 := by decide

/-- A flit for port 5 whose header gives type 4. -/
def aFlit : FlitIn := { port := 5, header := 0x40, payload := fill 249, errors := [], replay := false }

/-- Port 7 owes nothing but one flit, which came 63 ns ago. -/
def patient : State :=
  { porting 2 3 with links := { ports := [
    (7, { state := 3, outOfService := false, unacked := 1, owedVl0 := 1, waitSince := some 19999937 })] } }

theorem witness_FlitsAtAPort :
    (((porting 2 3).port 5).alive = true ∧ ((porting 2 3).port 5).discarding = false ∧
      1 ≤ aFlit.header.toNat / 16 % 8 ∧ aFlit.header.toNat / 16 % 8 ≤ 4 ∧ aFlit.errors = []) ∧
    { aFlit with errors := [7] }.errors = [7] ∧ (0x50 : BitVec 8).toNat / 16 % 8 = 5 ∧
    ({ aFlit with errors := [127, 128] }.errors = [127, 128] ∧ ((0 : Fin 256) ≠ 127 ∧ (128 ≤ (0 : Fin 256).val ↔ 128 ≤ (127 : Fin 256).val))) ∧
    ((up.port 5).alive = false ∧ ((porting 2 3).port 6).discarding = true ∧ aFlit.replay = false) ∧
    (15 ≤ ((porting 2 3).port 5).unacked ∧ (patient.port 7).nakDue = false ∧ (patient.port 7).unacked < 15 ∧
      (patient.port 7).owedVl0 + (patient.port 7).owedVl1 < 15 ∧ (patient.port 7).waitSince = some 19999937 ∧
      patient.clock.time < 19999937 + 64) ∧
    (((porting 2 3).port 5).waitSince = some 19999936 ∧ 19999936 + 64 ≤ (porting 2 3).clock.time) := by decide

/-- A CTRL flit for port 5 with its two copies. -/
def aCtrl (count : Nat) (nak : Bool) (vl0 vl1 : Nat) : CtrlFlit :=
  { port := 5, bytes := leBytes 4 count ++ leBytes 1 (b2n nak) ++ leBytes 2 vl0 ++ leBytes 1 vl1 ++
      (leBytes 4 count ++ leBytes 1 (b2n nak) ++ leBytes 2 vl0 ++ leBytes 1 vl1) }

theorem witness_ControlFlitAcknowledges :
    (((porting 2 3).port 5).alive = true ∧ ((porting 2 3).port 5).discarding = false ∧ ((porting 2 3).port 5).waitVl0 = 0 ∧ ((porting 2 3).port 5).waitVl1 = 0 ∧
      ((porting 2 3).port 5).acked ≤ 2 ∧ 2 ≤ ((porting 2 3).port 5).sent) ∧
    ((porting 2 3).port 5).kept.length ≤ 128 ∧
    ({ aCtrl 3 true 0 0 with bytes := 1 :: fill 15 }.bytes.take 8 ≠ { aCtrl 3 true 0 0 with bytes := 1 :: fill 15 }.bytes.drop 8) := by
  decide

theorem witness_LanesRetireAndPortsTrain :
    (7 : Fin 8).val ∈ ((porting 2 3).port 5).lanes ∧ (7 : Fin 8).val ∉ ((porting 2 3).port 6).lanes ∧ up.answers = true := by decide

/-- A short message of type `y` on VL1 from package 1 to package `dst`, with counter `n`, `len` bytes of payload by its header and a tag under
domain key `k` for epoch `e`. -/
def aMessage (y dst n len k e : Nat) : List Nat :=
  let b := [y, 1, len, 0, 0, 0, dst, 1] ++ bytesOf 8 n ++ List.replicate 48 0
  b.take 48 ++ messageTag (pairKey k e 1 0) b

/-- Message `b` has come in on VL `vl` of port 5. Port 5 routes package 1 by port 6; package 2 has no route; what this package sends to
package 1 leaves by port 6, and a message to each of them waits. Epoch 3 with key 8 went 5 ms ago. -/
def routed (vl : Bool) (b : List Nat) : State :=
  let x := porting 2 3
  { x with
    regs := [((Page.kyrok 0).base + 0x600, 0x86000000), ((Page.kyrok 5).base + 0x400, 0x86000000)]
    lock := { x.lock with oldEpoch := some 3, oldKey := 8, epochAt := 15000000 }
    links := {
      ports := [(5, { state := 3, outOfService := false, inbox := flitsOf vl b }), (6, { state := 3, outOfService := false })]
      outbox := [{ destination := 2, type := 3 }, { destination := 1, type := 3 }] } }

/-- The message that stands first at port 5. -/
def firstBytes (s : State) (vl : Bool) : Option (List Nat) := ((s.port 5).firstMessage vl).map messageBytes

/-- Good under the present epoch, good under the old one, and good under none; with the counter it had before. -/
theorem witness_MessagesAreChecked :
    (firstBytes (routed true (aMessage 1 0 3 0 9 4)) true = some (aMessage 1 0 3 0 9 4) ∧ fieldAt (aMessage 1 0 3 0 9 4) 6 1 = 0 ∧
      ((routed true (aMessage 1 0 3 0 9 4)).port 5).firstMessage true = some (flitsOf true (aMessage 1 0 3 0 9 4)) ∧
      badLength (flitsOf true (aMessage 1 0 3 0 9 4)) true = false ∧ (fieldAt (aMessage 1 0 3 0 9 4) 1 1).testBit 0 = true ∧
      joinType (fieldAt (aMessage 1 0 3 0 9 4) 0 1) = false ∧ fieldAt (aMessage 1 0 3 0 9 4) 7 1 = 1) ∧
    (messageTag (pairKey 9 4 1 0) (aMessage 1 0 3 0 9 4) = slice (aMessage 1 0 3 0 9 4) 48 16 ∧
      lastAcceptedCounter (routed true (aMessage 1 0 3 0 9 4)).links.lastCounter 1 true 4 < fieldAt (aMessage 1 0 3 0 9 4) 8 8) ∧
    (messageTag (pairKey 8 3 1 0) (aMessage 1 0 3 0 8 3) = slice (aMessage 1 0 3 0 8 3) 48 16 ∧
      messageTag (pairKey 9 4 1 0) (aMessage 1 0 3 0 8 3) ≠ slice (aMessage 1 0 3 0 8 3) 48 16) ∧
    (messageTag (pairKey 9 4 1 0) (aMessage 1 0 3 0 9 5) ≠ slice (aMessage 1 0 3 0 9 5) 48 16 ∧
      messageTag (pairKey 8 3 1 0) (aMessage 1 0 3 0 9 5) ≠ slice (aMessage 1 0 3 0 9 5) 48 16) ∧
    fieldAt (aMessage 1 0 0 0 9 4) 8 8 = 0 := by decide +kernel

/-- Too long for its flit, a flag of the other VL, a message of a join, and a port that has not joined. -/
theorem witness_MessagesAreRefused :
    badLength (flitsOf true (aMessage 1 0 3 186 9 4)) true = true ∧ badLength (flitsOf true (aMessage 1 0 3 185 9 4)) true = false ∧
    (fieldAt (aMessage 1 0 3 0 9 4) 1 1).testBit 0 ≠ false ∧ joinType (fieldAt (aMessage 0x10 0 3 0 9 4) 0 1) = true ∧
    ((porting 2 2).port 5).state = 2 := by decide +kernel

theorem witness_MessagesAreRouted :
    (fieldAt [1, 1, 0, 0, 0, 0, 2, 1] 6 1 ≠ (routed true []).ownNumber ∧ fieldAt [1, 1, 0, 0, 0, 0, 0, 1] 6 1 = (routed true []).ownNumber) ∧
    (routed true []).routeFor false ((routed true []).reg (.kyrok 5) (0x400 + 8 * (2 / 4))) 2 = none ∧
    (routed true []).routeFor false ((routed true []).reg (.kyrok 5) (0x400 + 8 * (1 / 4))) 1 = some 6 ∧
    (up.port 5).firstMessage true = none ∧ (∀ m ∈ (routed true []).links.outbox, ¬(m.destination = 0 ∧ typeVl1 m.type = true)) ∧
    (routed true []).links.outbox.find? (fun m => m.destination == 2 && typeVl1 m.type == true) = some { destination := 2, type := 3 } ∧
    (routed true []).routeFor (joinType 3) ((routed true []).originWord 2) 2 = none ∧
    (routed true []).links.outbox.find? (fun m => m.destination == 1 && typeVl1 m.type == true) = some { destination := 1, type := 3 } ∧
    (routed true []).routeFor (joinType 3) ((routed true []).originWord 1) 1 = some 6 := by decide

/-! ### Remote reads and migration -/

def aMigrateOut : Queued :=
  { window := 0, seq := 0, cookie := 0, body := .migrateOut { context := 0, package := 9, tag := 33 }, generation := 0 }

def leaving : Session := { aSession with st := .leaving, migration := some (9, 33, 0), queue := [aMigrateOut] }

def aRead : RRead :=
  { tag := 5, package := 9, port := 0, page := 100, first := 0, dest := 131072, sent := 0, limit := 5000000, context := 0, epoch := 0 }

/-- Context 0 migrates to package 9 under tag 33; read 5 of page 100 from package 9 is outstanding. -/
def reading (time : Nat) : State :=
  { up with
    clock := { up.clock with time := time }
    serve := { up.serve with sessions := [(0, leaving)] }
    links := { rreads := [aRead], nextRread := [(0, 6)], fetching := [(0, 3)] } }

theorem witness_RemoteReads :
    ((0 : Nat) = up.store.storeEpoch ∧ 0 < 1 ∧ 65535 + 1 ≤ 65536 ∧ 16777215 < 8 * Config.stackPages) ∧ 1 ≠ up.store.storeEpoch ∧
    ((reading 5000001).links.rreads = [aRead] ∧ ((reading 5000001).sess aRead.context).migration = some (9, 33, 0) ∧
      aRead.sent + aRead.limit < (reading 5000001).clock.time ∧ (reading 5000001).clock.time < 0 + 100000000) ∧
    0 + 100000000 ≤ (reading 100000000).clock.time ∧
    ((reading 5000000).clock.time ≤ aRead.sent + aRead.limit ∧ (reading 0).links.rreads.find? (fun x => x.tag == 5) = some aRead) ∧
    (∀ r ∈ (reading 0).links.rreads, ¬(r.package = 9 ∧ r.tag = 6)) ∧
    (reading 0).links.rreads.find? (fun x => x.package == 9 && x.tag == 5) = some aRead ∧ aRead.first = 0 ∧
    tfind (reading 0).links.fetching aRead.context = some 3 ∧
    tfind { reading 0 with links := { (reading 0).links with fetching := [] } }.links.fetching aRead.context = none ∧
    ((reading 0).stack (stackOfPage 131072)).out = false ∧ (reading 0).unclean 131072 = false := by decide

theorem witness_RemoteReadsPage : (List.replicate 65536 (1 : BitVec 8)).length = 65536 := List.length_replicate

/-- Entry 0 waits for the session that package 2 sends under tag 1; generation 3 is in service. -/
def awaiting : State :=
  { up with
    pkg := { up.pkg with gen := { inService := some { generation := 3, digest := 0, kvTag := 5, vocab := 2, publisher := 0, shape := { layers := [], kvHeads := 1 }, patterns := [], addr := 0, len := 0 } } }
    serve := { up.serve with sessions := [(0, { aSession with
      st := .awaitingIn, migration := some (2, 1, 0), partner := 5
      queue := [{ aMigrateOut with body := .migrateIn { context := 0, package := 2, tag := 1, outRing := 0 } }] })] } }

def aManifest : Manifest := {
  source := 2, context := 5, tag := 1, generation := 3, kvTag := 5, tenant := 4, cls := 1, kv8 := false, pub := false, capacity := 4096
  firstTag := none, mixed := false, remoteLost := false
  temperature := 0, topK := 0, seed := 0, floor := 0, committed := 2, pendingToken := some 9, endTokens := [7], stopSeqs := [[1, 2]]
  tokenLog := [8, 9], table := [] }

theorem witness_ManifestTaken :
    awaiting.serve.sessions.length = 1 ∧ (awaiting.sess 0).st = .awaitingIn ∧
    (awaiting.sess 0).migration = some (aManifest.source.val, aManifest.tag, 0) ∧ awaiting.links.fetching = [] ∧
    awaiting.links.manifests = [] ∧ awaiting.pkg.gen.switch = none ∧
    (∀ r, awaiting.pkg.gen.inService = some r → r.generation = aManifest.generation ∧ r.kvTag = 5 ∧ r.generation ≠ 4) ∧
    (awaiting.sess 0).tablePages = [] ∧ (awaiting.sess 0).table = [] ∧
    (awaiting.allocPages (awaiting.ownerHub 0) (logPageCount aManifest.capacity)).isSome = true := by decide +kernel

theorem witness_MigrationEndsOnBothSides :
    (∀ e ∈ up.serve.sessions, (up.sess e.1).st ≠ .awaitingIn) ∧ (((reading 0).sess 0).st = .leaving ∧ ((reading 0).sess 0).migration = some (9, 33, 0)) ∧
    ((reading 0).serve.sessions = [(0, leaving)] ∧ leaving.queue = [aMigrateOut] ∧
      aMigrateOut.body = .migrateOut { context := 0, package := 9, tag := 33 }) ∧
    ({ leaving with migFailed := some .timeout }.migFailed = some .timeout ∧ (awaiting.sess 0).queue.length = 1) ∧
    (leaving.confirmed = false ∧ 0 + 100000000 ≤ (reading 100000000).clock.time) ∧ (reading 99999999).clock.time < 0 + 100000000 := by
  decide

/-! ### Dies, test pins, units and interrupts -/

/-- Croft 2,048 serves with mould 17 cast as logical mould 0; die 2 runs a pattern, die 3 has its map mode locked. -/
def dieState : State :=
  { up with
    crofts := [(2048, { service := some .inService, moulds := [(17, { state := .cast, slot := some 0 })], actPad := [(3, 7)] })]
    dies := [(1, { leases := [(63, { held := true, epoch := 0xFFFFFFFF, ends := 10 })], granary := [(0, 1)] }),
             (2, { pattern := some blankPattern }), (3, { mapLocked := true, mapMode := true })] }

theorem witness_DieRegistersTakeTheirWrites :
    (dieState.answers = true ∧ (dieState.die 1).pattern = none ∧ (dieState.die 1).loading = none ∧ (dieState.die 1).mapLocked = false) ∧
    (dieState.die 2).pattern.isSome = true ∧ ((dieState.die 3).pattern = none ∧ (dieState.die 3).loading = none ∧ (0 : Word).bit 0 = false ∧
      (dieState.die 3).mapLocked = true) ∧
    (2048 = 2048 * (1 : DieId).val + 64 * (17 : Word).field 16 5 + (17 : Word).field 8 6 ∧ (17 : Word).field 8 6 ≤ 33 ∧
      (17 : Word).field 0 5 ≤ 17 ∧ dieState.service 2048 = .inService ∧ (dieState.mould 2048 17).slot ≠ none ∧
      (dieState.mould 2048 17).state = .cast) ∧
    (dieState.mould 2048 0).state ≠ .cast ∧ 33 < (0x2200 : Word).field 8 6 ∧ 17 < (18 : Word).field 0 5 := by decide

/-- The debug opening covers digital and analogue test pins; the other analogue pin shows line 9 of column 2. -/
def opened : State :=
  { up with lock := { debugOpen := true, debugScope := 3 }
            regs := [(Page.tmux.base + tmuxOff 9, 0x8000000000000029)] }

theorem witness_TestPinsAndErrorRecords :
    ((0 : Word).bit 63 = false ∧ up.answers = true) ∧
    (opened.answers = true ∧ (0x8000000000000000 : Word).bit 63 = true ∧ opened.lock.debugOpen = true ∧ opened.lock.debugScope.testBit 0 = true ∧
      digitalCode ((0x8000000000000057 : Word).field 0 8) = false ∧
      digitalCode ((0x8000000000000047 : Word).field 0 8) = true) ∧
    (opened.lock.debugScope.testBit 1 = true ∧ (opened.reg .tmux (tmuxOff 9)).bit 63 = true ∧
      (opened.reg .tmux (tmuxOff 9)).field 4 4 ≠ (0x8000000000000019 : Word).field 4 4) ∧
    ((opened.reg .tmux (tmuxOff 9)).field 4 4 = (0x8000000000000028 : Word).field 4 4 ∧
      (opened.reg .tmux (tmuxOff 9)).field 0 8 ≠ (0x8000000000000028 : Word).field 0 8) ∧
    up.lock.debugOpen = false ∧ digitalCode ((0x8000000000000009 : Word).field 0 8) = false ∧
    target ((Page.tally.base) + 0x020) = .reg .tally 0x020 := by decide

/-- The header of a request with tag 255. -/
def aUnit (addr : Nat) : UnitHead := UnitHead.make 0x01 255 addr

theorem witness_RegisterUnitsAnswer :
    (up.answers = true ∧ target (aUnit (Page.sys.base + 0x118)).addr = .reg .sys 0x118 ∧ (Page.sys.base + 0x118) % 8 = 0 ∧
      isPort .sys 0x118 = false ∧ (regFields .sys 0x118).isSome = true ∧ (up.writeReg .sys 0x118 1000).2 = 0 ∧
      0 < (up.umod (up.moduleOf (Page.sys.base + 0x118))).npCredits ∧ (aUnit (Page.sys.base + 0x118)).tag ≤ 255 ∧
      (aUnit (Page.sys.base + 0x118)).reservedSet = false ∧
      ((up.lessCredit 0).writeReg .sys 0x118 (UnitHead.make 0x03 255 (Page.sys.base + 0x118) (inline := 1000)).inline).2 = 0 ∧
      up.stewardTarget (0x0080000000000000 + (Page.sys.base + 0x118)) = .engine (Page.sys.base + 0x118)) ∧
    (up.stewardTarget 0x80000040 = .memory 0x10000000040 ∧ (up.hostRead 0x10000000040 64).2.poison = false ∧ up.stewardTarget 7 = .none) ∧
    (target ((Page.kvmap 3).base + 0x108) = .reg (.kvmap 3) 0x108) ∧ isPort (.intake 15) 0x800 = true ∧
    regFields .sys 0x1F8 = none := by decide +kernel

theorem witness_LineUnitsReadAndWriteLines :
    (up.answers = true ∧ target (aUnit 0x10000000040).addr = .aperture 0 64 ∧ up.apertureOk 0 64 = true ∧ (up.stack 0).out = false ∧
      up.unclean ((0 * Config.stackBytes + 64) / 65536) = false ∧ zeroLine.length = 64 ∧ (aUnit 0x10000000040).tag ≤ 255 ∧
      0 < (up.umod (up.moduleOf 0x10000000040)).npCredits ∧ 0 < (up.umod (up.moduleOf 0x10000000040)).pCredits) ∧
    ((up.lineCode 1).flips = 0 ∧ (up.lineCode 1).key = keyPlatform ∧ (up.lineCode 1).version = up.keyVersion keyPlatform ∧
      (up.lineCode 1).marker = .blank) ∧
    (up.setLineCode 1 { marker := .poison, flips := 0, key := keyPlatform, version := up.keyVersion keyPlatform }).apertureOk 0 64 = true ∧
    (aUnit 0x10000000040).reservedSet = false := by decide +kernel

/-- Module 3 waits for tag 255 since time 0, tag 0 has timed out, and the request with tag 9 was lost. -/
def waitingUnit (time : Nat) : State :=
  { up with clock := { up.clock with time := time }
            links := { outstanding := [{ module := 3, tag := 255 }, { module := 3, tag := 0, timedOut := true }, { module := 3, tag := 9, lost := true }] } }

theorem witness_CompletionsAndCredits :
    (takeOutstanding (waitingUnit 50000).links.outstanding 3 255 =
        some ({ module := 3, tag := 255 }, [{ module := 3, tag := 0, timedOut := true }, { module := 3, tag := 9, lost := true }]) ∧
      (waitingUnit 50000).hubTime 3 ≤ 0 + 50000 ∧ 0 + 50000 < (waitingUnit 50001).hubTime 3) ∧
    (takeOutstanding (waitingUnit 0).links.outstanding 3 0).map (fun r => r.1.timedOut) = some true ∧
    (∀ o ∈ (waitingUnit 0).links.outstanding, ¬(o.module = 3 ∧ o.tag = 9 ∧ o.lost = false)) ∧
    ((waitingUnit 50000).pkg.phase ≠ .warmReset ∧ ∃ o ∈ (waitingUnit 50000).links.outstanding,
      o.module = 3 ∧ o.tag = 255 ∧ o.timedOut = false ∧ o.sentAt + 50000 ≤ (waitingUnit 50000).hubTime 3) ∧
    (inPhase .warmReset).pkg.phase = .warmReset ∧
    (∀ o ∈ (waitingUnit 49999).links.outstanding, o.module = 3 → o.tag = 255 → o.timedOut = false →
      (waitingUnit 49999).hubTime 3 < o.sentAt + 50000) := by decide

/-- Group 1 of the steward's interrupts (converters) is enabled on hart 2, number 5, and identity 0x2003 waits. -/
def interrupting : State :=
  { up with regs := [(Page.stew.base + 0x108, 0x8002000000000005)], stew := { fifo := [0x2003, 0x2004] } }

theorem witness_InterruptsQueueAndAreRead :
    (0 ∉ interrupting.pkg.hubFaulty ∧ 1 = (0x2000 : BitVec 16).toNat / 0x1000 - 1 ∧ (interrupting.reg .stew (0x100 + 8 * 1)).bit 63 = true ∧
      0x2000 ∉ interrupting.stew.fifo ∧ interrupting.stew.fifo.length < 256) ∧
    0x2003 ∈ interrupting.stew.fifo ∧ (interrupting.reg .stew (0x100 + 8 * 0)).bit 63 = false ∧
    (interrupting.answers = true ∧ 0 < (interrupting.umod 0).npCredits ∧ 255 ≤ 255) ∧ up.stew.fifo = [] ∧
    256 ≤ (List.replicate 256 (0x3000 : BitVec 16)).length ∧ (0x2000 : BitVec 16) ∉ List.replicate 256 (0x3000 : BitVec 16) :=
  ⟨by decide, by decide, by decide, by decide, by decide, by rw [List.length_replicate], by rw [List.mem_replicate]; decide⟩

/-- Hub 1 has been asked for partition line 5 for a read and line 6 for a write. -/
def snooping : State := { up with links := { snoops := [(1, 5, false), (1, 6, true)] } }

/-- Die 5 receives from die 4 entry 0 of section 0x0009, of two data units, in an activation pad row, and entry 1, of one, in a granary row. -/
def receiving : State :=
  { up with dies := [(4, { pattern := some { blankPattern with owned := [{ slice := 1, first := 0, last := 2 }] } }),
                    (5, { pattern := some { blankPattern with owned := [{ slice := 2, first := 9, last := 9 }], crossDie := [
    { module := 1, peer := 4, sends := false, place := .act 1 2 3, far := .gran 1 2, sendNs := 0, bytes := 128 },
    { module := 1, peer := 4, sends := false, place := .gran 2 9, far := .act 1 2 3, sendNs := 0, bytes := 64 }] } })] }

theorem witness_Transfers :
    (receiving.die 5).pattern.isSome = true ∧ 64 % 64 = 0 ∧ 64 + 64 ≤ 128 ∧ 128 ≤ 512 ∧
    receiving.placeServes 5 (.act 1 2 3) = true ∧ receiving.placeServes 4 (.gran 1 2) = true ∧
    receiving.placeServes 5 (.gran 2 9) = true ∧ receiving.placeServes 4 (.act 1 2 3) = true ∧
    tfind (receiving.die 5).xfers 0 = none ∧ croftDie (receiving.physOf 5 1 2) = 5 ∧ (up.die 5).pattern = none := by decide

theorem witness_SnoopsTransfersRetrains :
    (snooping.partitionLine 5 = true ∧ 0 < (snooping.umod 1).hubNp ∧ snooping.partitionLine (2 ^ 40) = false) ∧ (∃ q ∈ snooping.links.snoops, q.1 = 1 ∧ q.2.1 = 5) ∧ zeroLine.length = 64 ∧
    ((snooping.stack (64 * 6 / Config.stackBytes)).out = false ∧ snooping.unclean (64 * 6 / 65536) = false) ∧
    ((snooping.umod 4).repairedTx + 4 ≤ 4 ∧ 4 < (snooping.umod 4).repairedRx + 5) := by decide

/-! ### Power, starts and resets -/

/-- Dormant with PWRREQ_N low: the start that follows is a wake. Marks of hub 3 hold the number of window 15's last command. -/
def asleep : State :=
  { pkg := { phase := .dormant, pwrreqLow := true }
    serve := { marks := [(3, { written := true, valid := true, seqs := [(15, some 41)] })] } }

theorem witness_StopsKeepTheNonVolatileState :
    up.pkg.phase ∉ [Phase.off, .dormant, .tripped] ∧ (inPhase .powerFail).pkg.phase = .powerFail ∧
    ((inPhase .off).pkg.phase ∈ [Phase.off, .tripped] ∧ (inPhase .tripped).pkg.phase ∈ [Phase.off, .tripped]) ∧ asleep.pkg.phase = .dormant ∧
    (up.pkg.phase ≠ .dormant) ∧ (inPhase .sleepAck).pkg.phase = .sleepAck ∧ up.pkg.phase ∉ [Phase.sleepAck, .dormant] := by decide

theorem witness_DormancyAndPowerFailing :
    (up.pkg.phase = .service ∧ (1 : Word).bit 0 = true ∧ up.dormantBusy = false ∧ serving.dormantBusy = true) ∧
    (inPhase .entering).pkg.phase = .entering ∧ (asleep.pkg.phase = .dormant ∧ 10000 ≤ 10000 ∧ 9999 < 10000) ∧
    ((inPhase .sleepAck).pkg.phase = .sleepAck ∧ 0 < 1) ∧
    (up.pkg.phase ∈ [Phase.starting, .service, .warmReset, .entering] ∧ 1000 ≤ 1000 ∧ 999 < 1000) := by decide

/-- One image entry of a bundle: image `k`, one zero byte at offset 512, with its digest. -/
def imageEntry (k : Nat) : List (BitVec 8) :=
  leBytes 1 k ++ fill 3 ++ leBytes 4 1 ++ leBytes 8 512 ++
  leBytes 64 0xb355836b94f4d11dc9ec7ad4cc9fb9b9749efa43993d8d6721c8a3a60165516c540d60b8f4366ea8f02e0430bf0bdee541cfeaddf636c6825807f755f81dd0b8

/-- A firmware bundle of 627 bytes whose signature verifies under the key 1. -/
def bundleBytes (version : Nat) : List (BitVec 8) :=
  leBytes 4 1 ++ leBytes 4 version ++ leBytes 2 1 ++ fill 54 ++ imageEntry 1 ++ imageEntry 2 ++ imageEntry 3 ++ fill 208 ++ fill 1 ++ idSig

/-- The boot ROM waits, and the bundle lies at the start of stack 0's partition; `rollback` is the fused count. -/
def booting (rollback : Nat) (b : List (BitVec 8)) : State :=
  cached { keyed with pkg := { keyed.pkg with phase := .starting }, lock := { keyed.lock with entropyOk := true, fuses := { rollback := rollback } } } 0 b

def goodBundle : Bundle :=
  { addr := 0x10000000000, length := 627, badCrofts := [], badRouters := [], badStacks := [], badRows := [], quick := [], clearMoulds := [] }

theorem witness_Starts :
    (State.reset.pkg.phase ∈ [Phase.inReset, .off, .dormant] ∧ State.reset.pkg.rstLow = true ∧ 1000 ≤ 1000 ∧ 999 < 1000) ∧
    (asleep.pkg.phase = .dormant ∧ asleep.pkg.pwrreqLow = true ∧ asleep.pkg.rstLow = true) ∧
    (up.pkg.phase ≠ .starting ∧ up.pkg.phase ≠ .warmReset) := by decide

set_option maxRecDepth 20000 in
/-- Once the images of the good bundle are copied every stack is in service and the entropy source is sound; a stack may be out. -/
theorem goodBundle_starts :
    let m := ((booting 127 (bundleBytes 127)).readBundle goodBundle.addr goodBundle.length)
    let c := (m.1.bundleImages goodBundle.addr m.2).1.copyImages goodBundle.addr m.2
    goodBundle.badStacks = [] ∧ (∀ k < 8, (c.stack k).out = false) ∧ c.lock.entropyOk = true ∧ (mirrorless.stack 3).out = true := by decide +kernel

set_option maxRecDepth 20000 in
theorem goodBundle_read :
    (booting 127 (bundleBytes 127)).pkg.phase = .starting ∧
    ((booting 127 (bundleBytes 127)).readBundle goodBundle.addr goodBundle.length).2.needed = 627 ∧
    ((booting 127 (bundleBytes 127)).readBundle goodBundle.addr goodBundle.length).2.signature = nums idSig ∧
    ((booting 127 (bundleBytes 127)).readBundle goodBundle.addr goodBundle.length).2.securityVersion = 127 ∧
    ((booting 127 (bundleBytes 127)).readBundle goodBundle.addr goodBundle.length).2.wellFormed 1 = true := by decide +kernel

set_option maxRecDepth 20000 in
theorem goodBundle_images :
    (((booting 127 (bundleBytes 127)).readBundle goodBundle.addr goodBundle.length).1.bundleImages goodBundle.addr
      ((booting 127 (bundleBytes 127)).readBundle goodBundle.addr goodBundle.length).2).2 = true := by decide +kernel

theorem goodBundle_signed (region : List Nat) :
    signed (booting 127 (bundleBytes 127)).pkg.rom.firmware ['F', 'W'] region (nums idSig) = true := idSig_signed _ _

/-- A header that is not well formed, a version below the fused count, and an unsigned header. -/
theorem witness_RefusedBundles :
    FwHead.wellFormed { bytes := [], signature := [] } 1 = false ∧ 127 < (booting 128 []).lock.fuses.rollback ∧
    signed 0 ['F', 'W'] [] [] = false := by decide +kernel

/-- In a warm reset with one access waiting. -/
def warming : State := { inPhase .warmReset with links := { heldAccesses := [.sysRole 1] } }

/-- The one block of firmware is on record with a digest that no copy has. -/
def firmwareLost : State := { inPhase .warmReset with lock := { blocks := [{ at_ := 0, length := 1, digest := [] }] } }

theorem witness_WarmResetAndItsAccesses :
    ((inPhase .warmReset).pkg.phase = .warmReset ∧ warming.pkg.phase = .warmReset ∧ State.reset.pkg.phase ∈ [Phase.off, .inReset, .dormant, .tripped]) ∧
    (up.pkg.phase = .service ∧ (1 : Word).bit 0 = true) ∧
    ((inPhase .starting).pkg.phase ∈ [Phase.starting, .entering, .sleepAck, .powerFail]) ∧ up.pkg.phase ≠ .warmReset ∧
    (up.pkg.phase.ready = true ∧ 0 ∉ up.pkg.hubFaulty) ∧ warming.firmwareHolds = true ∧ firmwareLost.firmwareHolds = false := by decide +kernel

/-! ### Memories and fabric of a die -/

/-- Croft 0 in service; row 255 of its activation pad and row 2,047 of slice 63 of its die are watched; a flit error and a footpath error of
its north link are 1 ms old; its mould 17 is cast as logical mould 15; its step is in flight. -/
def faulty : State :=
  { busy with
    clock := { busy.clock with time := 1000010 }
    crofts := [(0, { service := some .inService, watchAct := [{ row := 255, time := 5 }], flitErrors := [(0, 10)], footErrors := [(0, 10)]
                     moulds := [(15, { slot := none }),
                              (17, { state := .cast, slot := some 15, bank := true, gauging := { baseline := some [] } })] })]
    dies := [(0, { granWatch := [(63, { row := 2047, time := 5 })] })] }

/-- Its pad map is full. -/
def fullMap : State := { faulty with dies := [(0, { padMap := [(0, 1), (1, 2), (2, 3), (3, 4)] })] }

theorem witness_ParityErrorsMarkAndMapOut :
    ((faulty.findStep 7).isSome = true ∧ (faulty.reg (.pad 0) 0x020).field 32 8 = 0 ∧ (faulty.die 0).mapMode = true ∧
      watched (faulty.croft 0).watchAct 254 (faulty.reeveTime 0) = false) ∧
    (watched (faulty.croft 0).watchAct 255 (faulty.reeveTime 0) = true ∧ (faulty.die 0).freePadEntry 0 false = some 0) ∧
    (watched (fullMap.croft 0).watchAct 255 (fullMap.reeveTime 0) = true ∧ (fullMap.die 0).freePadEntry 0 false = none) ∧
    (watched (((faulty.die 0).granWatch.filter fun e => e.1 == 63).map (·.2)) 2047 (faulty.reeveTime 0) = true ∧
      (faulty.die 0).freeGranEntry 63 = some 0) ∧
    (256 * 179 + 8 * 31 < 0xB400 ∧ (faulty.mould 0 17).bank = ((256 * 179 + 8 * 31) / 1280 % 2 == 1)) ∧
    (0xB400 ≤ 256 * 180 ∧ 256 * 180 < 0xB500 ∧ 0x10000 ≤ 256 * 256 ∧ 256 * 256 < 0x14000 ∧ 0x18000 ≤ 256 * 400 ∧ 0xB500 ≤ 256 * 181 ∧
      0x14000 ≤ 256 * 320 ∧ 256 * 320 < 0x18000 ∧ (faulty.die 0).pattern = none ∧ (faulty.croft 0).lineErrors = []) ∧
    (watched (faulty.croft 0).watchPs 0 (faulty.reeveTime 0) = false ∧ (fullMap.die 0).freeGranEntry 63 = some 0) ∧
    (0xC000 ≤ 256 * 255 + 8 * 31 ∧ 256 * 255 + 8 * 31 < 0x10000 ∧ (faulty.croft 0).holding ((256 * 255 + 8 * 31 - 0xC000) / 1024) = some 17) := by
  decide

/-- A spare job of row 31 awaits its detour run under a pattern of 3 detour hops; barrier 9 has one of its members. -/
def detouring : State :=
  { busy with dies := [(0, { pattern := some { blankPattern with detourHops := 3 }
                             spareJobs := [{ row := 31, column := 0, spare := 16, fenced := 0 }]
                             barriers := [(9, { members := [0, 2048], arrived := [2048] })] })] }

/-- The same, where a flit ends at the fenced position, sixteen columns from the spare. -/
def detouringFar : State :=
  { busy with
    crofts := [(0, { gathered := [(7, .parity), (7, .suspect)] })]
    dies := [(0, { pattern := some { blankPattern with detourHops := 3, flits := [{ row := 31, col := physColumn 0, cycle := 5, port := 4, input := 2 }] }
                   spareJobs := [{ row := 31, column := 0, spare := 16, fenced := 0 }] })] }

theorem witness_LinkErrorsDetoursMarks :
    ((∃ e ∈ (faulty.croft 0).flitErrors, e.1 = LinkDir.num .north ∧ faulty.reeveTime 0 ≤ e.2 + 1000000) ∧
      (∀ e ∈ (faulty.croft 0).flitErrors, ¬(e.1 = LinkDir.num .local ∧ faulty.reeveTime 0 ≤ e.2 + 1000000))) ∧
    (∃ e ∈ (faulty.croft 0).footErrors, e.1 = LinkDir.num .north ∧ faulty.reeveTime 0 ≤ e.2 + 1000000) ∧
    (∃ j ∈ (detouring.die 0).spareJobs, j.row = 31 ∧ j.patchFits = none) ∧ (∀ j ∈ (detouring.die 0).spareJobs, ¬(j.row = 30 ∧ j.patchFits = none)) ∧
    Cause.parity ≠ .suspect ∧
    ((detouring.die 0).pattern.map fun p => detourFits p 31 (physColumn 0) (croftCol 16)) = some true ∧
    ((detouringFar.die 0).pattern.map fun p => decide (2 * p.detourHops < (detourRun p 31 (physColumn 0) (croftCol 16)).late)) = some true ∧
    (detouring.croft 0).gathered = [] ∧ ((detouringFar.croft 0).gathered = [(7, .parity), (7, .suspect)] ∧ (detouringFar.croft 0).markSent = false) ∧
    (c0 ∈ [c0, { c0 with die := 1 }] ∧ tfind (detouring.die 0).barriers 9 = some { members := [0, 2048], arrived := [2048] } ∧
      tfind (detouring.die 0).barriers 8 = none) := by decide

/-- All of slice 0 is powered; four rows are in the gather buffer, the oldest 128 ns old. -/
def gathered : State :=
  { up with
    clock := { up.clock with time := 128 }
    dies := [(0, { powerGran := [(0, 0xFF)], granary := [(8, 9)],
                   gather := [{ row := 0, bytes := [(8, 1), (511, 2)], last := 0 }, { row := 1, bytes := [(0, 3)], last := 1 },
                              { row := 2, bytes := [(0, 3)], last := 2 }, { row := 3, bytes := [(0, 3)], last := 3 }] })] }

/-- Row 0 of slice 0 lies in the slice's first spare row. -/
def mapped : State := gathered.modDie 0 fun x => { x with mapMode := true, granMap := [(0, 0)], openRows := [(4, 0)] }

theorem witness_NarrowAccessesSeeTheNewestBytes :
    (gathered.die 0).narrowRefusal 0 512 0 = none ∧ (gathered.die 0).entryOf 8 = none ∧ (gathered.die 0).narrowRefusal 4096 8 0 = none ∧
    (mapped.die 0).mapMode = true ∧ (∀ e ∈ (mapped.die 0).gather, e.row % 2048 < 1984) ∧ gathered.reeveTime 0 < 1 + 128 ∧ (gathered.die 0).narrowRefusal 504 8 0 = none ∧
    (gathered.die 0).narrowRefusal 4 8 0 = some .length ∧ (gathered.die 0).narrowRefusal 1048576 8 0 = some .auth ∧
    (gathered.die 0).narrowRefusal 0 8 1 = some .epoch ∧
    ((List.replicate 8 (0 : BitVec 8)).length = 8 ∧ (gathered.die 0).narrowRefusal 2048 8 0 = none) ∧
    ((gathered.die 0).gather[0]? = some { row := 0, bytes := [(8, 1), (511, 2)], last := 0 } ∧ 0 + 128 ≤ gathered.reeveTime 0) := by decide

theorem witness_GatherBuffersStayInOrder : (∀ d, (gathered.die d).gatherOk) ∧ ∃ t, step gathered = .next t := by
  refine ⟨fun d => ?_, _, rfl⟩
  cases d with
  | zero => exact ⟨by decide, by decide⟩
  | succ n => exact ⟨List.nodup_nil, nofun⟩

/-- Core 3 of hub 1 holds engine 5, DMA channel 2 and the table lock of its hub. -/
def leased : State :=
  { up with store := { up.store with hubs := [(1, {
      engines := [(5, { lease := { held := true, holder := .core 3, epoch := 7, ends := 9 }, slots := [], expected := 4, produced := 6 })]
      dmaLeases := [(2, { held := true, holder := .core 3, epoch := 4, ends := 9 })]
      lockLease := { held := true, holder := .core 3, epoch := 1, ends := 9 } })] } }

/-- The term of hub 1's table lock has run out; a session of its own is open. -/
def faultLock : State :=
  { up with serve := { up.serve with sessions := [(0, { aSession with window := 4 })] }, store := { up.store with hubs := [(1, { lockFault := true })] } }

theorem witness_SliceLeasesAreGrantedAndEnd :
    (dieState.leaseOf (.slice 1 0)).held = false ∧
    ((dieState.leaseOf (.slice 1 63)).held = true ∧ (dieState.leaseOf (.slice 1 63)).holder = .reeve ∧
      dieState.grantorTime (.slice 1 63) < (dieState.leaseOf (.slice 1 63)).ends) ∧
    ((leased.leaseOf (.engine 1 5)).held = true ∧ (leased.leaseOf (.tableLock 1)).held = true ∧ (leased.leaseOf .commonsLock).held = false ∧
      (leased.leaseOf (.channel 1 2)).holder = .core 3 ∧
      leased.grantorTime (.channel 1 2) < (leased.leaseOf (.channel 1 2)).ends) ∧
    ((leased.hub 1).lockFault = false ∧ (faultLock.hub 1).lockFault = true ∧ (faultLock.leaseOf (.tableLock 1)).held = false ∧
      (faultLock.sess 0).st = .openS ∧ faultLock.ownerHub 0 = 1 ∧ faultLock.stepOf 0 = none) ∧
    ({ dieState with clock := { dieState.clock with time := 10 } } : State).grantorTime (.slice 1 63) = 10 := by decide

/-! ### Windows, accumulation and tempering -/

/-- Croft 0 serves: mould 0 is cast as logical mould 0 with two weights, column 5 under a live stand-in; row 2 of the activation pad has
codes; the mould of logical slot 15 is held; a job in context 1 uses the croft and checkpoints after each micro-batch. -/
def working : State :=
  { up with
    crofts := [(0, { service := some .inService, held := [15], actPad := [(1024, 7), (1025, 0xF8), (1087, 100)]
                     sigmas := [(2, 0x3C00)], outputs := [(100, 0x40000000)], store := [(65792, 5), (65793, 0xFB), (65796, 0x80), (65797, 0x3F)]
                     moulds := [(0, { state := .cast, slot := some 0, weights := [(0, 7), (5125, -3)]
                                      standins := [{ column := 5, slot := 0, live := true, copy := [(1, -3)] }] })] })]
    serve := { up.serve with
      steps := [aStep, { aStep with id := 8, context := 2, rerun := true }, { aStep with id := 9, context := 1, kind := .temper }]
      sessions := [(1, { st := .job, opened := true, job := some {
        handle := 1, microBatches := 2, batch := 1, rate := 0x3F800000, interval := 1, crofts := [0] } })] } }

/-- `working` with no step in flight. -/
def idle : State := { working with serve := { working.serve with steps := [] } }

def copying : State :=
  { working with serve := { working.serve with sessions := [(1, { st := .job, opened := true, job := some {
      handle := 1, microBatches := 2, batch := 1, rate := 0x3F800000, interval := 1, crofts := [0], done := 1, copying := true, sequence := 1
      slot0 := { sequence := 1 }, lines := [(0, 257)] } })] } }

def aWindow : WindowIn := { croft := c0, mould := 0, step := 7, firstRow := 0, rows := 64, actRow := 2, noise := [] }

/-- `working` with a window of mould 0 between its passes and its delivery, or delivered, and a transposed result. -/
def windowed (d : Bool) : State :=
  working.modCroft 0 fun c => { c with
    windows := [(0, { step := 7, a8 := false, codes := [(0, 7), (1, -8)], narrow := [(0, 12), (255, -9)], stood := [(5, 24, false)]
                      delivered := d, marks := [255] })]
    rowResults := [(0, { span := 64, values := [(1023, -5)] })], satMarks := [3] }

def aSum : PartialSum := { column := 7, croft := c0, acc := 3 }
def aProduct : D8Term := { column := 4, act := 1024, weight := 65792 }

theorem witness_ForwardWindowsEvaluateAndDeliver :
    (activeOk 0 0 = false ∧ activeOk 960 128 = false) ∧
    (activeOk aWindow.firstRow aWindow.rows = true ∧ activeOk 960 64 = true ∧ (working.croft 0).holding 0 = some 0 ∧
      (working.croft 0).stopped = false ∧ (working.mould 0 0).state = .cast ∧ (working.mould 0 0).cast = none ∧ 0 ∉ (working.croft 0).held) ∧
    (((working.croft 0).holding 15).isSome = true ∧ 15 ∈ (working.croft 0).held ∧ (working.findStep 7).map (·.rerun) = some false ∧
      (working.findStep 8).map (·.rerun) = some true) ∧
    ((working.modCroft 0 fun c => { c with stopped := true }).croft 0).stopped = true ∧
    (tfind ((windowed false).croft 0).windows 0).map (·.delivered) = some false ∧
    (tfind ((windowed true).croft 0).windows 0).map (·.delivered) = some true := by decide

/-- The pattern of die 0 plans the scale of row 2 of croft 0's activation pad. -/
def scaled : State :=
  { working with dies := [(0, { pattern := some { blankPattern with
      staging := [{ row := 0, lcol := 0, stage := 0, first := 2, count := 1, scale := 0 }], scales := [.fixed 0x3C00] } })]
                 crofts := [(0, { working.croft 0 with rowResults := [(0, { span := 64 }), (1, { span := 128 })] })] }

theorem witness_PromotionsAccumulateAndRescale :
    (tfind ((windowed true).croft 0).windows 0).map (·.delivered) = some true ∧ (windowed true).hasAcc 0 (100 + 255) = true ∧
    (tfind ((windowed true).croft 0).rowResults 0).map (·.span) = some 64 ∧ (windowed true).hasAcc 0 (100 + aSum.column) = true ∧
    2 < ((windowed true).die (croftDie 0)).padRows false ∧
    ((tfind (scaled.croft 0).rowResults 0).map (·.span) = some 64 ∧ (tfind (scaled.croft 0).rowResults 1).map (·.span) = some 128) ∧
    (working.plannedScale 0 ⟨.fixed 0, 0, 1, 2⟩ = none ∧ scaled.plannedScale 0 ⟨.fixed 0, 0, 1, 2⟩ = some (.fixed 0x3C00)) ∧
    (up.sess 1).job = none ∧ idle.temperRuns 1 = false ∧ (idle.sess 1).job.isSome = true ∧ ((windowed true).sess 1).job.isSome = true ∧ 65796 + 4 ≤ 262144 := by decide

def anUpdate : UpdateItem := { croft := c0, line := 257, byte := 0, gradient := 65794, omega := 0x3C00 }

set_option maxRecDepth 20000 in
theorem witness_TransposedWindowsAndUpdates :
    (spanOk 63 = false ∧ spanOk 131072 = false) ∧
    (spanOk 64 = true ∧ spanOk 65536 = true ∧ (working.croft 0).holding 0 = some 0 ∧ (working.croft 0).stopped = false ∧
      (working.mould 0 0).state = .cast ∧ (working.mould 0 0).cast = none ∧ 0 ∉ (working.croft 0).held) ∧
    (((working.croft 0).holding 15).isSome = true ∧ 15 ∈ (working.croft 0).held) ∧
    ((working.sess 1).job.map (·.copying) = some false ∧ (working.sess 1).job.map (·.done) = some 0 ∧ 0 < 2 ∧
      working.temperRuns 1 = true ∧ anUpdate.gradient + 4 ≤ 262144 ∧ 256 * anUpdate.line.val + anUpdate.byte.val < anUpdate.gradient) ∧
    (copying.sess 1).job.map (·.copying) = some true ∧ (working.sess 0).job = none := by decide

/-! ### The correction path and casting -/

/-- A vector that applies code 15 in row 0, on every mould. -/
def anEntry : PackEntry :=
  { moulds := 0x3FFFF, castsMin := 0, castsMax := 10000, tempMin := 0, tempMax := 105, rowMin := 0, rowMax := 31, witTol := 8, refTol := 8
    vector := [0x0F] }

/-- Both passes of it show REF1 far off its target. -/
def offPasses : List PackPass := [{ entry := 0, again := false, codes := [(259, 100)] }, { entry := 0, again := true, codes := [(259, 100)] }]

/-- A probe of mould 0 of croft 0 with a pack of one vector; column 3's cast statistics are known; two verdicts are recent. -/
def probing (verdicts : List Nat) (spares : Table Nat) : State :=
  { up with
    pkg := { up.pkg with gen := { inService := some {
      generation := 1, digest := 0, kvTag := 0, vocab := 0, publisher := 0, shape := { layers := [], kvHeads := 1 }, patterns := [], addr := 0, len := 0 } } }
    crofts := [(0, { service := some .inService, theta := 2880
                     moulds := [(0, { state := .cast, slot := some 0, generation := 1, stats := [(3, 0, 16)], verdicts := verdicts
                                      probe := some { pack := some { version := 3, entries := [anEntry] } }, spareMap := spares })] })] }

def clearColumn : ColumnProbe := { column := 3, readings := [(8, 8), (-8, -8)] }
def badColumn : ColumnProbe := { column := 3, readings := [(120, 120), (-8, -8)] }

/-- All sixteen spares are taken. -/
def noSpares : Table Nat := (List.range 16).map fun i => (i, 100 + i)

/-- Column 9 of mould 0 waits for its stand-in copy. -/
def fetching : State := (probing [] []).modMould 0 0 fun x => { x with probe := none, standins := [{ column := 9, slot := 2 }] }

theorem witness_ProbesDecideAndStandInsGoLive :
    (((probing [0, 0] []).mould 0 0).probe.map (·.decided) = some false ∧
      ((probing [0, 0] []).mould 0 0).located ((probing [0, 0] []).croft 0).theta [clearColumn] = [] ∧
      ((probing [0, 0] []).mould 0 0).slot = some 0 ∧ ((probing [0, 0] []).croft 0).holding 0 = some 0 ∧
      2 ≤ (((probing [0, 0] []).mould 0 0).verdicts.filter fun x => decide ((probing [0, 0] []).reeveTime 0 ≤ x + 10000000000)).length ∧
      (((probing [0] []).mould 0 0).verdicts.filter fun x => decide ((probing [0] []).reeveTime 0 ≤ x + 10000000000)).length < 2) ∧
    (((probing [] []).mould 0 0).located 2880 [badColumn] = [3] ∧ ((probing [] []).mould 0 0).newlyLocated [3] = [3] ∧
      [3].length ≤ ((probing [] []).mould 0 0).freeSpares.length ∧
      (probing [] []).lock.debugOpen = false ∧ ((probing [] []).mould 0 0).standins.length + 1 ≤ 8 ∧ ((probing [] []).croft 0).standinCount + 1 ≤ 32) ∧
    (((probing [] noSpares).mould 0 0).freeSpares.length < [3].length ∧ ((probing [] noSpares).croft 0).holding 0 = some 0) ∧
    (fetching.castGen ≠ none ∧ fetching.lock.debugOpen = false ∧ (fetching.croft 0).holding 0 = some 0 ∧
      ((fetching.mould 0 0).standins.find? fun e => e.column == 9 && (!e.live || e.refetch)) = some { column := 9, slot := 2 }) := by
  decide +kernel

theorem witness_ProbesDecideAndStandInsGoLive_pack :
    ((probing [] []).mould 0 0).packFail 2880
      (packVectors (((probing [] []).mould 0 0).probe.bind (·.pack)) ((probing [] []).mould 0 0) 0 0 2880) offPasses = some 0 := by
  decide +kernel

/-- A complete and healthy gauging run at 45 °C: every reference reading is the ideal one. -/
def goodRun : GaugeRun :=
  { samples := List.replicate 512 { sx := 1, sOdd := 1, ref := [0, 14, -14, 14], theta := 2880, time := 9 }
    colLow := List.replicate 8 [], colHigh := List.replicate 8 [], rowLow := List.replicate 4 [], rowHigh := List.replicate 4 [] }

/-- Mould 0 of croft 0 is gauged: the run in progress, the first run of the attempt, and the rejects so far. -/
def gauging (r : GaugeRun) (a : Option RunTerms) (rejects : Nat) : State :=
  let g : Gauging := { active := true, run := r, first := a, rejects := rejects }
  { up with crofts := [(0, { service := some .inService, moulds := [(0, { state := .cast, slot := some 0, gauging := g })] })] }

/-- A run whose positive and negative references do not balance. -/
def badRun : GaugeRun :=
  { goodRun with samples := List.replicate 512 { sx := 1, sOdd := 1, ref := [0, 20, -14, 14], theta := 2880, time := 9 } }

/-- Mould 0 of croft 0 is in service and nothing is gauged. -/
def idleGauge : State := { up with crofts := [(0, { service := some .inService, moulds := [(0, { state := .cast, slot := some 0 })] })] }

/-- The terms of that run. -/
def goodTerms : RunTerms := deriveTerms {} goodRun

theorem goodRun_complete : GaugeRun.complete goodRun = true := by
  simp only [GaugeRun.complete, goodRun, List.length_replicate]; decide

theorem badRun_complete : GaugeRun.complete badRun = true := by
  simp only [GaugeRun.complete, badRun, goodRun, List.length_replicate]; decide

theorem agree_self (t : RunTerms) : t.agree t = true := by
  have h : absR 0 = 0 := by decide
  simp [RunTerms.agree, h]

set_option maxRecDepth 100000 in
theorem goodTerms_healthy : goodTerms.unhealthy = false := by decide +kernel

set_option maxRecDepth 100000 in
theorem badRun_unhealthy : (deriveTerms {} badRun).unhealthy = true := by decide +kernel

theorem far_disagrees : ({ goodTerms with gk := [(0, 5)] } : RunTerms).agree goodTerms = false := by decide +kernel

theorem witness_GaugingRunsAcceptOrReject :
    (((gauging {} none 0).mould 0 0).gauging.active = true ∧ ((gauging {} none 0).mould 0 0).probe = none ∧
      ((gauging {} none 0).mould 0 0).gauging.run.colLow.length < 8 ∧ ((gauging {} none 0).mould 0 0).gauging.run.rowHigh.length < 4) ∧
    ((∀ e ∈ (idleGauge.croft 0).moulds, e.2.gauging.active = false) ∧ (idleGauge.croft 0).nextGauged = some 0 ∧
      (idleGauge.mould 0 0).probe = none) := by decide

theorem witness_GaugingRunsAcceptOrReject_end :
    (((gauging goodRun none 0).mould 0 0).gauging.run = goodRun ∧ ((gauging goodRun none 0).mould 0 0).gauging.first = none ∧
      deriveTerms ((gauging goodRun none 0).mould 0 0) goodRun = goodTerms) ∧
    ((gauging goodRun (some goodTerms) 3).mould 0 0).gauging.first = some goodTerms ∧
    ((gauging goodRun (some { goodTerms with gk := [(0, 5)] }) 3).mould 0 0).gauging.rejects = 3 ∧
    (GaugeRun.complete goodRun = true ∧ goodTerms.unhealthy = false ∧ goodTerms.agree goodTerms = true ∧
      ({ goodTerms with gk := [(0, 5)] } : RunTerms).agree goodTerms = false) ∧
    (((gauging badRun none 0).mould 0 0).gauging.run = badRun ∧ GaugeRun.complete badRun = true ∧
      deriveTerms ((gauging badRun none 0).mould 0 0) badRun = deriveTerms {} badRun ∧ (deriveTerms {} badRun).unhealthy = true) :=
  ⟨⟨rfl, rfl, rfl⟩, rfl, rfl, ⟨goodRun_complete, goodTerms_healthy, agree_self _, far_disagrees⟩, rfl, badRun_complete, rfl, badRun_unhealthy⟩

/-- Mould 17 of croft 0 in a cast. -/
def casting (k : Cast) (spares : Table Nat) : State :=
  let x : Mould := { state := .casting, slot := some 0, cast := some k, spareMap := spares, standins := [{ column := 3, slot := 0 }] }
  { up with crofts := [(0, { service := some .inService, moulds := [(17, x)] })] }

def aRowGroup : RowGroupIn :=
  { croft := c0, mould := 17, span := 64, image := [(8191, 0x95), (8446, 0xF9), (8447, 0xFF)]
    failed := [277], poisoned := false }

def aClose : CastCloseIn :=
  { croft := c0, mould := 17, spareFailed := [15], verifyFailed := [0], stats := [], firstSet := { g45 := 3 }, castDate := 8 }

theorem witness_CastsProgramAndClose :
    (((casting { groups := 15 } []).mould 0 17).cast = some { groups := 15 } ∧ aRowGroup.poisoned = false ∧
      (aRowGroup.image.map fun e => e.1).Nodup ∧ aRowGroup.span = 2 ^ (6 + (0 : Fin 11).val)) ∧
    ((((casting { groups := 16 } []).mould 0 17).moveColumns ([277, 0] : List Nat)).isSome = true) ∧
    (((casting { groups := 16 } noSpares).mould 0 17).moveColumns ([277, 0] : List Nat) = none ∧
      ((casting { groups := 16 } noSpares).mould 0 17).slot = some 0) ∧
    (((casting { full := false, spares := [4] } [(4, 3)]).mould 0 17).cast = some { full := false, spares := [4] } ∧
      tfind ((casting { full := false, spares := [4] } [(4, 3)]).mould 0 17).spareMap 4 = some 3 ∧
      { aClose with spareFailed := [], verifyFailed := [] }.spareFailed = []) := by decide

/-! ### Attention, remote pages and the commons -/

def anIngot : IngotRec :=
  { generation := 1, digest := 5, kvTag := 6, vocab := 1000, publisher := 3, shape := { layers := [none], kvHeads := 1 }, patterns := []
    addr := 0x10000000000, len := 4096 }

def aQuery : Query := { head := 0, position := 0, sigma := 0x3F80, codes := List.replicate 128 0 }

/-- A query head vector that is zero: it is staged with the smallest scale. -/
def aQueryIn : QueryIn := { head := 0, position := 0, elements := List.replicate 128 0, out := .act 0 0 3 }

def aDescriptor : Descriptor :=
  { seq := 0, context := 0, layer := 0, kv8 := false, head := 0, queryCount := 1, keyFirst := 0, keyCount := 1, partIndex := 1, firstPosition := 0
    qset := 0, tau := 0x3C00, window := 0, floor := 0, epoch := 0, page := 131072 }

def aPartial : SoftState := { m := some 0, l := 0x3F800000, acc := [], poison := false }

/-- Context 0 attends over page 131,072; query set 0 waits for two partials, of which one has arrived, set 1 is merged; engine 5 holds a good
descriptor, engine 6 one of another epoch, engine 7 one with no key, engine 8 is halted; set 3
is released; request 4 of package 9 is outstanding and request 6 has timed out. -/
def attending (table : Table Pte) : State :=
  let open1 : Session := { aSession with generation := 1, table := table }
  let set0 : QSet := { step := 7, queries := [aQuery], partials := 2, arrived := [(0, [aPartial])] }
  let set1 : QSet := { step := 7, queries := [aQuery], partials := 1, merged := 1, running := [aPartial], outputs := some [([1], false)], outs := [.act 0 0 2] }
  let engines : Table Engine := [(5, { slots := [(0, aDescriptor.bytes)], produced := 1 }),
    (6, { slots := [(0, { aDescriptor with epoch := 1 }.bytes)], produced := 1 }),
    (7, { slots := [(0, { aDescriptor with keyCount := 0 }.bytes)], produced := 1 }), (8, { produced := 3, halted := true })]
  let hub0 : HubAttn := { engines := engines, qsets := [(0, set0), (1, set1), (3, { set1 with released := true })], remote := [{ tag := 4, package := 9, qset := 0, part := 1 },
    { tag := 6, package := 9, qset := 1, part := 0, timedOut := true }] }
  { busy with
    pkg := { busy.pkg with role := 3, gen := { inService := some anIngot } }
    serve := { busy.serve with sessions := [(0, open1)] }
    store := { hubs := [(0, hub0)], refs := [(131072, 1), (131073, 1)], served := [{ package := 9, pages := [(131072, 0)] }] } }

def anExchange : ExchangeIn := { step := 7, die := 0, layer := 0, tau := 0x3C00, queries := [aQueryIn], kv := [] }

def aNewKV : NewKV := { head := 0, position := 5, key := [0x3F800000], value := [] }

set_option maxRecDepth 20000 in
theorem witness_ExchangesOpenQuerySets :
    ((attending []).findStep 7 = some aStep ∧ (attending []).ownerHub 0 = 0 ∧ (attending []).freeQset 0 = 2 ∧
      ((attending []).sessShape 0).kvHeads = 1 ∧ (∀ y ∈ anExchange.queries, y.head = 0) ∧ anExchange.queries ≠ [] ∧
      anExchange.queries.length ≤ 32 ∧ anExchange.kv = []) ∧
    (up.findStep 7 = none ∧ { anExchange with kv := [aNewKV], queries := [] }.queries = []) ∧
    (((attending [(0, .page 131072)]).sess 0).pte ((attending [(0, .page 131072)]).blockIndex 0 0 0 (5 / slotsPerPage false)) = .page 131072 ∧
      (attending [(0, .page 131072)]).refsOf 131072 ≤ 1) := by decide +kernel

set_option maxRecDepth 20000 in
theorem witness_ExchangesOpenQuerySets_walk :
    (attending []).walk 0 0 0 ([aQueryIn].map stageQuery) = [] ∧
    ((attending [(0, .page 131072)]).walk 0 0 0 ([aQueryIn].map stageQuery) = [.page 131072 0 1 0] ∧
      (((attending [(0, .page 131072)]).hub 0).engine ((attending [(0, .page 131072)]).hub 0).pick).halted = false ∧
      tfind (((attending [(0, .page 131072)]).hub 0).engine ((attending [(0, .page 131072)]).hub 0).pick).slots 0 = none) := by decide +kernel

theorem witness_EnginesRunMergeAndRelease :
    (((attending []).hub 0).engine 8).halted = true ∧
    (tfind (((attending []).hub 0).engine 63).slots 0 = none ∧ (((attending []).hub 0).engine 63).halted = false) ∧
    ((tfind (((attending []).hub 0).engine 6).slots 0).map (fun b => (Descriptor.ofBytes b).epoch) = some 1 ∧
      1 ≠ (((attending []).hub 0).engine 6).lease.epoch.toNat) ∧
    ((tfind (((attending []).hub 0).engine 7).slots 0).map (fun b => (Descriptor.ofBytes b).check) = some (some .length)) ∧
    (((attending []).hub 0).engine 5).halted = false ∧
    (tfind (((attending []).hub 0).engine 5).slots 0 = some aDescriptor.bytes ∧ Descriptor.ofBytes aDescriptor.bytes = aDescriptor ∧
      aDescriptor.check = none ∧ aDescriptor.seq = 0 ∧ aDescriptor.epoch = (((attending []).hub 0).engine 5).lease.epoch.toNat) ∧
    ((tfind ((attending []).hub 0).qsets 0).map (·.outputs) = some none ∧ tfind (((attending []).hub 0).qset 0).arrived 0 = some [aPartial]) ∧
    (((attending []).hub 0).qset 1).outputs.isSome = true ∧ (((attending []).hub 0).qset 1).released = false ∧
    (tfind ((attending []).hub 0).qsets 3).map (·.released) = some true := by decide +kernel

theorem witness_EnginesDeliver :
    headAgrees ((attending []).readBytes (aDescriptor.page * Config.pageBytes) 16 ((attending []).sess 0).kvKey).2.bytes aDescriptor = true := by
  decide +kernel

def anAttnReq : AttnReqIn :=
  { hub := 0, tag := 3, source := 9, storeEpoch := 0, layer := 0, head := 0, kv8 := false, tau := 0x3C00, window := 0, floor := 0, queries := [aQuery]
    pages := [{ page := 131072, keyFirst := 0, keyCount := 504, firstPosition := 0 }], canQueue := true }

theorem witness_RemoteAttentionIsServedAndAnswered :
    (1 ≠ (attending []).store.storeEpoch % 65536 ∧ anAttnReq.storeEpoch % 65536 = (attending []).store.storeEpoch % 65536 ∧ up.pkg.role ≠ 3) ∧
    ((attending []).pkg.role = 3 ∧ { anAttnReq with canQueue := false }.canQueue = false) ∧
    (anAttnReq.canQueue = true ∧ anAttnReq.queries.length = 1 ∧ 0 + 504 ≤ slotsPerPage false ∧ F16.isPositiveNormal 0x3C00 = true) ∧
    (∀ y ∈ ((attending []).hub 0).remote, y.tag ≠ 5) ∧
    (((attending []).hub 0).remote.find? (fun y => y.tag == 6)).map (·.timedOut) = some true ∧
    (((attending []).hub 0).remote.find? (fun y => y.tag == 4) = some { tag := 4, package := 9, qset := 0, part := 1 } ∧
      (attending []).findStep (((attending []).hub 0).qset 0).step = some aStep) := by decide

theorem witness_RemoteAttentionDelivers :
    headAgrees ((attending []).readBytes (131072 * Config.pageBytes) 16 ((attending []).pageKey 131072)).2.bytes
      { aDescriptor with keyCount := 504, partIndex := 0 } = true := by decide +kernel

/-- A turn of 32 tokens waits for its walk; the commons holds one node without children and may hold none. -/
def walking : State :=
  let t0 : Turn := { kind := .prompt, window := 0, seq := 0, cookie := 0, tokens := List.replicate 32 1, walkDone := false, lookup := true }
  { noded with serve := { noded.serve with sessions := [(0, { aSession with turn := some t0 })] } }

theorem witness_RemoteReferencesAndCommons :
    (1 % 65536 ≠ (attending []).store.storeEpoch % 65536 ∧ 0 % 65536 = (attending []).store.storeEpoch % 65536 ∧ (attending []).refsOf 131072 ≠ 0 ∧
      (tfind ((attending []).servedBy 9) 131072).isSome = true ∧ tfind ((attending []).servedBy 9) 131073 = none ∧
      (attending []).refsOf 131073 ≠ 0) ∧
    (walking.sess 0).turn.map (·.walkDone) = some false ∧ (walking.evictDue = true ∧ (tfind walking.store.nodes 0).map (·.children) = some 0 ∧
      (∀ e ∈ walking.store.nodes, e.1 ≠ 0 → e.2.children = 0 → 0 < e.2.lastUse)) ∧ up.evictDue = false := by decide
/-! ### Intake -/

def cmdHead : CmdHead := { seq := 0, cookie := 9, reservedSet := false }

/-- The header of a pattern image for role 4 at engine address 0x10000020000, without its digest: one stage, one lane, a slack of 8, one section. -/
def headMem : Memory :=
  [(0x20000, 1), (0x20004, 1), (0x20006, 4), (0x20007, 1), (0x2000C, 1), (0x2000E, 1), (0x20019, 8), (0x2001A, 1)]

/-- The 4,096 bytes of that image with zeros where the digest stands. -/
def imageBytes : List Nat := (List.range 4096).map fun i => if 96 ≤ i ∧ i < 160 then 0 else (headMem.get (0x20000 + i)).toNat

/-- What SHAKE256 has soaked up after them, and the digest read from it: no test evaluates either. -/
def soaked : Nat := soak (imageBytes.length / 136 + 1) 0 (imageBytes ++ soakFill imageBytes.length)
def digestByte (i : Nat) : BitVec 8 := BitVec.ofNat 8 ((soaked >>> (8 * i)) % 256)

/-- The image in memory. -/
def patternMem : Memory := headMem ++
  [(0x20060, digestByte 0), (0x20061, digestByte 1), (0x20062, digestByte 2), (0x20063, digestByte 3), (0x20064, digestByte 4), (0x20065, digestByte 5), (0x20066, digestByte 6), (0x20067, digestByte 7)] ++
  [(0x20068, digestByte 8), (0x20069, digestByte 9), (0x2006A, digestByte 10), (0x2006B, digestByte 11), (0x2006C, digestByte 12), (0x2006D, digestByte 13), (0x2006E, digestByte 14), (0x2006F, digestByte 15)] ++
  [(0x20070, digestByte 16), (0x20071, digestByte 17), (0x20072, digestByte 18), (0x20073, digestByte 19), (0x20074, digestByte 20), (0x20075, digestByte 21), (0x20076, digestByte 22), (0x20077, digestByte 23)] ++
  [(0x20078, digestByte 24), (0x20079, digestByte 25), (0x2007A, digestByte 26), (0x2007B, digestByte 27), (0x2007C, digestByte 28), (0x2007D, digestByte 29), (0x2007E, digestByte 30), (0x2007F, digestByte 31)] ++
  [(0x20080, digestByte 32), (0x20081, digestByte 33), (0x20082, digestByte 34), (0x20083, digestByte 35), (0x20084, digestByte 36), (0x20085, digestByte 37), (0x20086, digestByte 38), (0x20087, digestByte 39)] ++
  [(0x20088, digestByte 40), (0x20089, digestByte 41), (0x2008A, digestByte 42), (0x2008B, digestByte 43), (0x2008C, digestByte 44), (0x2008D, digestByte 45), (0x2008E, digestByte 46), (0x2008F, digestByte 47)] ++
  [(0x20090, digestByte 48), (0x20091, digestByte 49), (0x20092, digestByte 50), (0x20093, digestByte 51), (0x20094, digestByte 52), (0x20095, digestByte 53), (0x20096, digestByte 54), (0x20097, digestByte 55)] ++
  [(0x20098, digestByte 56), (0x20099, digestByte 57), (0x2009A, digestByte 58), (0x2009B, digestByte 59), (0x2009C, digestByte 60), (0x2009D, digestByte 61), (0x2009E, digestByte 62), (0x2009F, digestByte 63)]

def aPattern : PatternImage :=
  { headerAt headMem 0x20000 blankPattern with imageDigest := natOf (shake256 imageBytes 64), base := 0x10000020000, size := 4096 }

theorem tget_other {α : Type} (z : Nat → α) (m l : Table α) (k : Nat) (h : ∀ e ∈ l, e.1 ≠ k) : tget z (m ++ l) k = tget z m k := by
  induction m with
  | nil =>
    induction l with
    | nil => rfl
    | cons e l ih =>
      obtain ⟨j, v⟩ := e
      have hj : k ≠ j := fun q => h (j, v) (List.mem_cons_self ..) q.symm
      have := ih fun e he => h e (List.mem_cons_of_mem _ he)
      simpa [tget, hj] using this
  | cons e m ih =>
    obtain ⟨j, v⟩ := e
    simp only [List.cons_append, tget, ih]

theorem patternMem_get (i : Nat) (h : i < 96 ∨ 160 ≤ i) : patternMem.get (0x20000 + i) = headMem.get (0x20000 + i) := by
  unfold patternMem Memory.get
  simp only [List.append_assoc]
  refine tget_other _ _ _ _ fun e he => ?_
  have hr : ∀ x ∈ List.map Prod.fst (patternMem.drop 8), 0x20060 ≤ x ∧ x < 0x200A0 := by decide +kernel
  have := hr e.1 (List.mem_map_of_mem he)
  omega

set_option maxRecDepth 20000 in
theorem patternMem_digest : patternMem.getLe 0x20060 64 = natOf (shake256 imageBytes 64) := by
  have h1 : patternMem.getBytes 0x20060 64 = (List.range 64).map digestByte := by
    refine List.map_congr_left fun i hi => ?_
    have := List.mem_range.mp hi
    interval_cases i <;> rfl
  have h2 : shake256 imageBytes 64 = (List.range 64).map fun i => (soaked >>> (8 * i)) % 256 := by
    have hr : (List.range 136).take 64 = List.range 64 := by decide +kernel
    have hl : (List.range 136).length = 136 := List.length_range
    have hw : shake256 imageBytes 64 =
        ((List.range 136).map (fun i => (soaked >>> (8 * i)) % 256) ++ wring 0 (permuted soaked)).take 64 := rfl
    rw [hw, List.take_append_of_le_length (by simp), ← List.map_take, hr]
  have h3 : ∀ l : List Nat, leNat (l.map digestByte) = natOf (l.map fun i => (soaked >>> (8 * i)) % 256) := by
    intro l
    induction l with
    | nil => rfl
    | cons a l ih =>
      have : (digestByte a).toNat = (soaked >>> (8 * a)) % 256 := by simp [digestByte]
      simp only [List.map_cons, leNat, natOf, List.foldr_cons, this, ih]
  rw [Memory.getLe, h1, h2, h3]

theorem image_digest {s : State} (h : s.hbm.mem = patternMem) : s.imageDigestAt 0x10000020000 4096 = aPattern.imageDigest := by
  have h1 : (List.range 4096).map (fun i => if 96 ≤ i ∧ i < 160 then 0 else (patternMem.get (0x20000 + i)).toNat) = imageBytes := by
    refine List.map_congr_left fun i _ => ?_
    by_cases q : 96 ≤ i ∧ i < 160
    · simp [q]
    · rw [if_neg q, if_neg q, patternMem_get i (by omega)]
  unfold State.imageDigestAt
  rw [h]
  exact congrArg (fun l => natOf (shake256 l 64)) h1

theorem getLe_outside (o n : Nat) (h : o + n ≤ 96 ∨ 160 ≤ o) : patternMem.getLe (0x20000 + o) n = headMem.getLe (0x20000 + o) n := by
  unfold Memory.getLe Memory.getBytes
  refine congrArg leNat (List.map_congr_left fun i hi => ?_)
  have := List.mem_range.mp hi
  rw [Nat.add_assoc]
  exact patternMem_get (o + i) (by omega)

theorem header_reads {s : State} (h : s.hbm.mem = patternMem) : s.patternIn 0x10000020000 1 (some blankPattern) = aPattern := by
  have k164 : ∀ i n, patternMem.getLe (0x20000 + (164 + 16 * i)) n = headMem.getLe (0x20000 + (164 + 16 * i)) n :=
    fun i n => getLe_outside _ n (.inr (by omega))
  have k168 : ∀ i n, patternMem.getLe (0x20000 + (168 + 16 * i)) n = headMem.getLe (0x20000 + (168 + 16 * i)) n :=
    fun i n => getLe_outside _ n (.inr (by omega))
  have k174 : ∀ i n, patternMem.getLe (0x20000 + (174 + 16 * i)) n = headMem.getLe (0x20000 + (174 + 16 * i)) n :=
    fun i n => getLe_outside _ n (.inr (by omega))
  have hd : patternMem.getLe (0x20000 + 96) 64 = natOf (shake256 imageBytes 64) := patternMem_digest
  unfold State.patternIn aPattern
  rw [h]
  show { headerAt patternMem 0x20000 blankPattern with base := 0x10000020000, size := 4096 } = _
  unfold headerAt
  simp only [hd, getLe_outside _ _ (.inl (by decide : 0 + 4 ≤ 96)), getLe_outside _ _ (.inl (by decide : 4 + 2 ≤ 96)),
    getLe_outside _ _ (.inl (by decide : 6 + 1 ≤ 96)), getLe_outside _ _ (.inl (by decide : 7 + 1 ≤ 96)),
    getLe_outside _ _ (.inl (by decide : 8 + 2 ≤ 96)), getLe_outside _ _ (.inl (by decide : 10 + 2 ≤ 96)),
    getLe_outside _ _ (.inl (by decide : 12 + 2 ≤ 96)), getLe_outside _ _ (.inl (by decide : 14 + 2 ≤ 96)),
    getLe_outside _ _ (.inl (by decide : 16 + 4 ≤ 96)), getLe_outside _ _ (.inl (by decide : 20 + 2 ≤ 96)),
    getLe_outside _ _ (.inl (by decide : 22 + 2 ≤ 96)), getLe_outside _ _ (.inl (by decide : 24 + 1 ≤ 96)),
    getLe_outside _ _ (.inl (by decide : 25 + 1 ≤ 96)), getLe_outside _ _ (.inl (by decide : 26 + 2 ≤ 96)),
    getLe_outside _ _ (.inl (by decide : 28 + 4 ≤ 96)), getLe_outside _ _ (.inl (by decide : 32 + 64 ≤ 96)),
    k164, k168, k174]

/-- Generation 1 is in service and generation 2 staged; window 0 has a response ring of 64 slots; tenant 5 has a budget; stack 0 has pages
70,000 and 70,001 staged; context 0 holds an open session with a pending token, context 1 a job. -/
def accepting : State :=
  let ring0 : Ring := { cfg := 0x0000010000000000, released := 64 }
  let open0 : Session := { aSession with generation := 1, pending := some 3 }
  let job1 : Session := { aSession with st := .job }
  { up with
    pkg := { up.pkg with role := 4, gen := { inService := some anIngot, staged := some { anIngot with generation := 2 } } }
    serve := { up.serve with windows := [(0, { rings := [(0, ring0)] })], sessions := [(0, open0), (1, job1)]
                             tenants := [(5, { budget := 0x8010100000000000 })] }
    hbm := { mem := patternMem, units := [(0, { staging := [(0, (70000, 2))] })] } }

/-- `accepting` while context 0's turn runs. -/
def busyTurn : State := accepting.modSess 0 fun x => { x with turn := some { kind := .generate, window := 0, seq := 0, cookie := 0 } }

/-- `accepting` with window 0 changed. -/
def windowOf (f : Window → Window) : State := accepting.modWin 0 f

def aPrompt : PromptBody := { context := 0, flags := 3, adapter := 0xFFFF, tokenCount := 2, tokenAddr := 0x10000000000, floor := 0, deadline := 2 ^ 64 - 1 }
def aGenerate : GenerateBody := { context := 0, adapter := 0xFFFF, maxNew := 4, floor := 0, deadline := 2 ^ 64 - 1 }
def aDraft : DraftBody := { context := 0, adapter := 0xFFFF, draftCount := 2, draftAddr := 0x10000000000, floor := 0, deadline := 2 ^ 64 - 1 }
def anOpen : OpenBody :=
  { context := 2, tenant := 5, cls := 1, kvFormat := 0, share := 1, outRing := 3, capacity := 4096, temperature := 0, topK := 1, seed := 8, stopAddr := 0 }
def aTemper : TemperBody :=
  { context := 2, handle := 6, tenant := 5, cls := 3, microBatches := 1, dataAddr := 0x10000000000, batch := 1, dataLen := 64, rate := 0x3F800000
    seed := 8, interval := 1 }

/-- `accepts` as a check to evaluate. -/
def passes (s : State) (w : Nat) (h : CmdHead) (b : Body) (pin : Option IngotRec) (cont : Contents) : Bool :=
  decide (s.pkg.phase = .service ∧ w / 4 ∉ s.pkg.hubFaulty ∧ s.serve.debugScope = none ∧ s.lock.burn.any (fun b => b.kind == 4) = false ∧
    (s.win w).spent = false ∧ (s.win w).queue = [] ∧ (s.win w).heldOutcomes = [] ∧ s.respFree w = true ∧ h.seq = (s.win w).nextSeq ∧
    h.reservedSet = false ∧ formatOk b = true ∧ (s.arrived w h b).lengthOk b = true ∧
    (∀ e ∈ bodySpans b, (s.arrived w h b).checkRange e.1 e.2 ≠ some .length) ∧ (s.arrived w h b).authOk b = true ∧
    (s.arrived w h b).stateOk w b = true ∧ (s.arrived w h b).roleOk b = true ∧ ((s.arrived w h b).pinOf b).toOption = some pin ∧
    ((s.arrived w h b).readContents b ((pin.map (·.vocab)).getD 0)).2.toOption = some cont ∧ (s.arrived w h b).budgetOk b = true ∧
    (s.arrived w h b).busyOk w b = true)

theorem ok_of_toOption {α : Type} {r : Except Code α} {a : α} (h : r.toOption = some a) : r = .ok a := by
  cases r with
  | error e => cases h
  | ok b => exact congrArg Except.ok (Option.some.inj h)

theorem accepts_of_passes {s : State} {w : Nat} {h : CmdHead} {b : Body} {pin : Option IngotRec} {cont : Contents}
    (hp : passes s w h b pin cont = true) : s.accepts w h b pin cont := by
  obtain ⟨h1, h2, h3, h4, h5, h6, h7, h8, h9, h10, h11, h12, h13, h14, h15, h16, h17, h18, h19, h20⟩ := of_decide_eq_true hp
  exact ⟨⟨⟨h1, h2, h3, h4⟩, h5, h6, h7, h8⟩, h9, h10, h11, h12, h13, h14, h15, h16, ok_of_toOption h17, ok_of_toOption h18, h19, h20⟩

set_option maxRecDepth 20000 in
theorem witness_SessionCommandsJoinTheirQueue :
    accepting.accepts 0 cmdHead (.prompt aPrompt) (some anIngot) { tokens := [0, 0] } ∧ (accepting.sess 0).turn = none ∧ (accepting.sess 0).queue = [] ∧
    (busyTurn.accepts 0 cmdHead (.prompt aPrompt) (some anIngot) { tokens := [0, 0] } ∧ (busyTurn.sess 0).turn ≠ none) ∧
    accepting.accepts 0 cmdHead (.generate aGenerate) (some anIngot) {} ∧ accepting.accepts 0 cmdHead (.draft aDraft) (some anIngot) { tokens := [0, 0] } ∧
    accepting.accepts 0 cmdHead (.stop 0) none {} ∧ (accepting.accepts 0 cmdHead (.cancel 0) none {} ∧ (accepting.sess 0).st ≠ .job) ∧
    (accepting.accepts 0 cmdHead (.cancel 1) none {} ∧ (accepting.sess 1).st = .job) ∧ accepting.accepts 0 cmdHead (.close 0) none {} ∧
    accepting.accepts 0 cmdHead (.migrateOut { context := 0, package := 3, tag := 1 }) (some anIngot) {} :=
  ⟨accepts_of_passes (by decide +kernel), by decide +kernel, by decide +kernel, ⟨accepts_of_passes (by decide +kernel), by decide +kernel⟩, accepts_of_passes (by decide +kernel),
    accepts_of_passes (by decide +kernel), accepts_of_passes (by decide +kernel), ⟨accepts_of_passes (by decide +kernel), by decide +kernel⟩,
    ⟨accepts_of_passes (by decide +kernel), by decide +kernel⟩, accepts_of_passes (by decide +kernel), accepts_of_passes (by decide +kernel)⟩

set_option maxRecDepth 20000 in
theorem witness_OpeningsTakeTheirEntry :
    accepting.accepts 0 cmdHead (.openS anOpen) (some anIngot) {} ∧
    accepting.accepts 0 cmdHead (.migrateIn { context := 2, package := 3, tag := 1, outRing := 7 }) (some anIngot) {} ∧
    accepting.accepts 0 cmdHead (.temper aTemper) (some anIngot) {} :=
  ⟨accepts_of_passes (by decide +kernel), accepts_of_passes (by decide +kernel), accepts_of_passes (by decide +kernel)⟩

def anAdapterImage : AdapterImage := { modifiesKV := false, shapesMatch := true }

/-- The SHAKE256 digest of an empty body. -/
def emptyDigest : List (BitVec 8) :=
  [70, 185, 221, 43, 11, 168, 141, 19, 35, 59, 63, 235, 116, 62, 235, 36, 63, 205, 82, 234, 98, 184, 27, 130, 181, 12, 39, 100, 110, 213, 118, 47] ++
  [215, 93, 196, 221, 216, 192, 242, 0, 203, 5, 1, 157, 103, 181, 146, 246, 252, 130, 28, 73, 71, 154, 180, 134, 64, 41, 46, 172, 179, 183, 196, 190]

/-- The first 384 bytes of an adapter image with an empty body and no wraps: tenant 5, rank 8. -/
def adapterHead : List (BitVec 8) :=
  fill 4 ++ [1, 0] ++ fill 42 ++ emptyDigest ++ fill 64 ++ [5, 0, 8] ++ fill 77 ++ idSig ++ fill 14

/-- An ingot image with an empty body and one wrap for the device whose secret is zero: kv_tag 6, vocabulary 1,000. -/
def ingotHead : List (BitVec 8) :=
  fill 4 ++ [1, 0, 0, 0, 6] ++ fill 31 ++ [1, 0, 0, 0, 0xE8, 3, 0, 0] ++ emptyDigest ++ fill 144 ++ idSig ++ fill 14 ++
    [54, 96, 123, 175, 161, 14, 19, 65] ++ fill 96 ++ [200, 21, 127, 76, 79, 79, 175, 159, 40, 98, 249, 163, 233, 199, 216, 134] ++ fill 8

def anIngotImage : IngotImage :=
  { body := { w4 := [7], d8 := [0x81], omegas := [0x3C00], spans := [64] }, shape := { layers := [none], kvHeads := 1 }
    patterns := [{ die := 0, base := 0x10000020000, len4k := 1, image := blankPattern }] }

/-- A pattern table that names the image for die 0. -/
def patternTableBytes : List (BitVec 8) := [0, 0, 2, 0, 0, 1, 1, 0] ++ fill 120

/-- What that table names. -/
def tablePatterns : List PatternRef := [{ die := 0, base := 0x10000020000, len4k := 1, image := aPattern }]

/-- `accepting` with publisher 0, whose key is the identity, a load of adapter 6 and an ingot in verification, their images in memory; a croft
record names generation 1. -/
def verifying (held : Bool) : State :=
  let load6 : AdapterCmd := { window := 0, seq := 4, cookie := 9, handle := 6, addr := 0x10000000000, len := 4096 }
  { accepting with
    pkg := { accepting.pkg with gen := { inService := if held then some anIngot else none, staging := [⟨0, 5, 9, 1, 0x10000010000, 4096, 0x10000030000⟩] } }
    crofts := [(0, { service := some .inService, recordVersion := 1, generation := 1, digest := natOf (shake256 ((nums ingotHead).take 256) 64) })]
    serve := { accepting.serve with adapterCmds := [load6] }
    lock := { accepting.lock with fuses := { accepting.lock.fuses with publishers := [(0, 1)] } }
    links := { accepting.links with
      dirtyLines := (cached up 0 adapterHead).links.dirtyLines ++ (cached up 0x10000 ingotHead).links.dirtyLines ++
        (cached up 0x30000 patternTableBytes).links.dirtyLines } }

set_option maxRecDepth 20000 in
theorem witness_PackageCommandsWaitForTheirOutcome :
    (accepting.accepts 0 cmdHead (.adapterLoad { handle := 6, length := 8192, imageAddr := 0x10000000000 }) none {} ∧
      accepting.accepts 0 cmdHead (.adapterDrop 6) none {} ∧
      accepting.accepts 0 cmdHead (.ingotStage { generation := 2, ingotAddr := 0x10000000000 + 70000 * 65536, ingotLen := 4096, patternTable := 0x10000000000 })
        none {} ∧
      accepting.accepts 0 cmdHead (.genSwitch 2) none {}) :=
  ⟨accepts_of_passes (by decide +kernel), accepts_of_passes (by decide +kernel), accepts_of_passes (by decide +kernel),
    accepts_of_passes (by decide +kernel)⟩

theorem raiseIntr_keeps (t : State) (i : Nat) : (t.raiseIntr i).hbm = t.hbm := by
  unfold State.raiseIntr
  dsimp only
  repeat' split
  all_goals rfl

theorem logEvent_keeps (t : State) (p : Page) (c : Code) (a : Nat) : (t.logEvent p c a).hbm = t.hbm := by
  unfold State.logEvent State.logError
  dsimp only
  repeat' split
  all_goals first | rfl | exact raiseIntr_keeps _ _

theorem readLine_keeps (s : State) (l key : Nat) : (s.readLine l key).1.hbm.mem = s.hbm.mem := by
  have hp (t : State) : (t.poisonLine l).hbm.mem = t.hbm.mem := by
    unfold State.poisonLine State.listRow
    dsimp only
    repeat' split
    all_goals first
      | rw [logEvent_keeps]; rfl
      | (show (State.logEvent _ _ _ _).hbm.mem = _; rw [logEvent_keeps]; rfl)
      | (rw [logEvent_keeps, logEvent_keeps]; rfl)
  have ht : (if 7 ≤ (s.lineCode l).errors then s.tick else s).hbm.mem = s.hbm.mem := by split <;> rfl
  unfold State.readLine
  dsimp only
  repeat' split
  all_goals first
    | rfl
    | exact ht
    | exact hp s.tick
    | exact hp s

theorem readLines_keep (l : List Nat) (key a : Nat) (x : State × LineData) :
    (l.foldl (fun (acc : State × LineData) i =>
      ((acc.1.readLine (a + i) key).1, (⟨acc.2.bytes ++ (acc.1.readLine (a + i) key).2.bytes,
        acc.2.poison || (acc.1.readLine (a + i) key).2.poison⟩ : LineData))) x).1.hbm.mem = x.1.hbm.mem := by
  induction l generalizing x with
  | nil => rfl
  | cons i l ih => exact (ih _).trans (readLine_keeps _ _ _)

theorem hostRead_keeps (s : State) (a n : Nat) : (s.hostRead a n).1.hbm.mem = s.hbm.mem := by
  unfold State.hostRead
  split
  · rfl
  · exact readLines_keep _ _ _ _

theorem verifying_mem : ((verifying false).readImage 0x10000010000 4096).1.hbm.mem = patternMem := by
  have h : (verifying false).hbm.mem = patternMem := rfl
  rw [← h]
  unfold State.readImage
  dsimp only
  split <;> simp only [hostRead_keeps]

theorem table_bytes : nums (((verifying false).readImage 0x10000010000 4096).1.hostRead 0x10000030000 128).2.bytes =
    [0, 0, 2, 0, 0, 1, 1, 0] ++ List.replicate 120 0 := by decide +kernel

theorem table_read : ((verifying false).readImage 0x10000010000 4096).1.patternTable 0x10000030000 anIngotImage.patterns = tablePatterns := by
  have e : ((verifying false).readImage 0x10000010000 4096).1.patternTable 0x10000030000 anIngotImage.patterns =
      [⟨0, 0x10000020000, 1, ((verifying false).readImage 0x10000010000 4096).1.patternIn 0x10000020000 1 (some blankPattern)⟩] := by
    unfold State.patternTable
    rw [table_bytes]
    rfl
  rw [e, header_reads verifying_mem]
  rfl

/-- `imageChecks` but for the digest. -/
theorem image_checks {s : State} (h : s.hbm.mem = patternMem) (h1 : s.checkRange 0x10000020000 4096 = none)
    (h2 : s.poisonIn 0x10000020000 4096 = false) (h3 : s.pkg.dieRevision = 1) (h4 : s.pkg.role = 4) (h5 : (s.die 0).mapMode = true)
    (h6 : s.pkg.bellNs = 1500) : s.imageChecks 0 aPattern 0x10000020000 1 false = none := by
  have k1 : headerOk aPattern 0 = true := by decide +kernel
  have k2 : regionsOk aPattern 4096 = true ∧ timesOk aPattern 1500 = true ∧ scheduleOk aPattern = true ∧ contentsOk aPattern = true := by
    decide +kernel
  have k3 : aPattern.dieRevision = 1 ∧ aPattern.role = 4 ∧ aPattern.memMode = 1 := by decide +kernel
  simp [State.imageChecks, h1, h2, h3, h4, h5, h6, k1, k2.1, k2.2.1, k2.2.2.1, k2.2.2.2, k3.1, k3.2.1, k3.2.2, image_digest h, b2n]

/-- The images as the lockhouse reads them. -/
def adapterRead : RawImage := { head := nums adapterHead, wraps := [], body := [], poison := false }
def ingotRead : RawImage := { head := (nums ingotHead).take 384, wraps := (nums ingotHead).drop 384, body := [], poison := false }

set_option maxRecDepth 20000 in
theorem images_read (held : Bool) : ((verifying held).readImage 0x10000000000 4096).2 = adapterRead ∧
    ((verifying held).readImage 0x10000010000 4096).2 = ingotRead := by
  cases held <;> decide +kernel

theorem emptyDigest_is : shake256 [] 64 = nums emptyDigest := by decide +kernel

theorem adapter_authentic (held : Bool) : (verifying held).imageAuthentic ['A', 'D', 'A', 'P', 'T', 'E', 'R'] adapterRead = true := by
  have h1 : (verifying held).publisherOk adapterRead.publisher = true := by cases held <;> decide +kernel
  have h2 : (tfind (verifying held).lock.fuses.publishers adapterRead.publisher).getD 0 = 1 := by cases held <;> decide +kernel
  have h3 : adapterRead.signature = nums idSig := by decide +kernel
  have h4 : slice adapterRead.head 48 64 = nums emptyDigest := by decide +kernel
  have h5 : adapterRead.dieRevision = (verifying held).pkg.dieRevision := by cases held <;> decide +kernel
  have h6 : adapterRead.body = [] := rfl
  simp only [State.imageAuthentic, h1, h2, h3, h4, h5, h6, idSig_signed, emptyDigest_is, Bool.true_and, beq_self_eq_true]

theorem ingot_authentic (held : Bool) : (verifying held).imageAuthentic ['I', 'N', 'G', 'O', 'T'] ingotRead = true := by
  have h1 : (verifying held).publisherOk ingotRead.publisher = true := by cases held <;> decide +kernel
  have h2 : (tfind (verifying held).lock.fuses.publishers ingotRead.publisher).getD 0 = 1 := by cases held <;> decide +kernel
  have h3 : ingotRead.signature = nums idSig := by decide +kernel
  have h4 : slice ingotRead.head 48 64 = nums emptyDigest := by decide +kernel
  have h5 : ingotRead.dieRevision = (verifying held).pkg.dieRevision := by cases held <;> decide +kernel
  have h6 : ingotRead.body = [] := rfl
  simp only [State.imageAuthentic, h1, h2, h3, h4, h5, h6, idSig_signed, emptyDigest_is, Bool.true_and, beq_self_eq_true]

/-- The wrap opens for the device whose secret is zero (R523). -/
theorem ingot_unwraps : (({} : Fuses).unwrap ingotRead).isSome = true := by decide +kernel

set_option maxRecDepth 20000 in
theorem witness_VerificationsEndOrStage :
    ((verifying false).serve.adapterCmds.find? (fun c => c.handle == 6 && !c.drop && c.image.isNone)).map (fun c => (c.addr, c.len)) =
      some (0x10000000000, 4096) ∧
    (adapterRead.poison = false ∧ adapterRead.lengthOk 4096 = true ∧ adapterRead.wrapCount = 0 ∧ 1 ≤ adapterRead.rank ∧ adapterRead.rank ≤ 64 ∧
      adapterRead.tenant ≤ 4095 ∧ anAdapterImage.shapesMatch = true ∧
      ceilDiv adapterRead.bodyLength Config.pageBytes ≤ (verifying false).poolFree 0) ∧
    { anAdapterImage with shapesMatch := false }.shapesMatch = false ∧
    ((verifying false).pkg.gen.staging.map (fun c => (c.addr, c.len)) = [(0x10000010000, 4096)] ∧ bodyOk ingotRead.vocab { anIngotImage.body with w4 := [8] } = false) ∧
    (ingotRead.poison = false ∧ ingotRead.lengthOk 4096 = true ∧ (verifying false).lock.debugOpen = false ∧
      bodyOk ingotRead.vocab anIngotImage.body = true ∧ tablePatterns ≠ [] ∧
      (((verifying false).readImage 0x10000010000 4096).1.hostRead 0x10000030000 128).2.poison = false) ∧
    ((verifying false).pkg.gen.switch = none ∧
      ({ verifying false with pkg := { (verifying false).pkg with gen := { (verifying false).pkg.gen with switch := some { window := 0, seq := 1, cookie := 0, generation := 2, phase := .waiting, toLoad := [] } } } } : State).pkg.gen.switch.isSome = true) ∧
    (verifying true).pkg.gen.inService.isSome = true ∧
    ((verifying false).pkg.gen.inService = none ∧ (verifying false).resident 1 ingotRead.digest = true) := by decide +kernel

theorem verified_patterns_pass : ∀ e ∈ tablePatterns,
    ((verifying false).readImage 0x10000010000 4096).1.imageChecks e.die e.image e.base e.len4k false = none := by
  intro e he
  have : e = { die := 0, base := 0x10000020000, len4k := 1, image := aPattern } := by simpa [tablePatterns] using he
  subst this
  exact image_checks (by decide +kernel) (by decide +kernel) (by decide +kernel) (by decide +kernel) (by decide +kernel) (by decide +kernel)
    (by decide +kernel)

theorem error_of_isError {r : Except Code (Option IngotRec × Contents)} {e : Code}
    (h : (match r with | .error c => decide (c = e) | .ok _ => false) = true) : r = .error e := by
  cases r with
  | error c => exact congrArg Except.error (of_decide_eq_true h)
  | ok a => cases h

set_option maxRecDepth 20000 in
theorem witness_IntakeRefusesHoldsAndRejects :
    intakeOf (.stop 0 cmdHead 0) = some (0, cmdHead, .stop 0) ∧ accepting.pkg.phase = .service ∧ 0 ∉ accepting.pkg.hubFaulty ∧
    ({ accepting with serve := { accepting.serve with debugScope := some 1 } } : State).serve.debugScope.isSome = true ∧
    ((windowOf fun x => { x with spent := true }).portOpen 0 ∧ ((windowOf fun x => { x with spent := true }).win 0).spent = true) ∧
    256 ≤ ((windowOf fun x => { x with queue := List.replicate 256 (cmdHead, .stop 0) }).win 0).queue.length ∧
    ((windowOf fun x => { x with rings := [] }).respFree 0 = false ∧ ((windowOf fun x => { x with rings := [] }).win 0).queue.length < 256) ∧
    (accepting.intakeOpen 0 ∧ { cmdHead with seq := 1 }.seq ≠ (accepting.win 0).nextSeq) ∧
    ((windowOf fun x => { x with nextSeq := 2 }).intakeOpen 0 ∧ cmdHead.seq < ((windowOf fun x => { x with nextSeq := 2 }).win 0).nextSeq) ∧
    (cmdHead.seq = (accepting.win 0).nextSeq ∧ ((accepting.arrived 0 cmdHead (.stop 2)).check 0 cmdHead (.stop 2)).2 = .error .state) := by
  refine ⟨rfl, by decide, by decide, by decide, ?_, by decide, by decide, ?_, ?_, by decide, error_of_isError (by decide +kernel)⟩ <;>
    ((try unfold State.intakeOpen); unfold State.portOpen; decide)

set_option maxRecDepth 20000 in
theorem witness_RingAndSequenceRegisters :
    accepting.answers = true ∧
    ((0x0000010000000002 : Word).field 0 4 ≤ 10 ∧
      accepting.inPartition (64 * (0x0000010000000002 : Word).field 6 42) (64 * 2 ^ (6 + (0x0000010000000002 : Word).field 0 4)) = true ∧
      accepting.ringInUse 0 0 = false ∧ accepting.ringInUse 0 1 = true) ∧
    10 < (0x000001000000000B : Word).field 0 4 ∧
    accepting.inPartition (64 * (0 : Word).field 6 42) (64 * 2 ^ (6 + (0 : Word).field 0 4)) = false ∧
    (((accepting.win 0).ring 0).released ≤ (64 : Word).toNat ∧
      (64 : Word).toNat ≤ ((accepting.win 0).ring 0).produced + ((accepting.win 0).ring 0).size ∧ (accepting.win 0).queue = [] ∧
      (accepting.win 0).heldOutcomes = []) ∧
    ((accepting.win 0).ring 0).produced + ((accepting.win 0).ring 0).size < (65 : Word).toNat ∧
    (0 : Word).toNat < (((windowOf fun x => { x with rings := [(0, { cfg := 0x0000010000000000, released := 1 })] }).win 0).ring 0).released ∧
    (accepting.win 0).decided = false ∧ ((windowOf fun x => { x with spent := true }).win 0).spent = true ∧
    (((windowOf fun x => { x with decided := true }).win 0).decided = true ∧ ((windowOf fun x => { x with decided := true }).win 0).spent = false) :=
  ⟨by decide, by decide, by decide, by decide, by decide, by decide⟩
/-! ### Patterns, fences, recasts, quench, bell -/

/-- Die 0 may take a pattern (its epoch is at the end of its count and a lease is held), die 1 runs one under a step, die 2 has one loading,
die 3 has lane 0 and a context to quench. -/
def patterned : State :=
  let lane0 : LaneRows := { lane := 0, stage := 0, row := 0, lcol := 0, act := [251], ps := [123], lines := [383], gran := [(63, 1983)] }
  { accepting with
    crofts := [(6144, { actPad := [(512 * 251, 1)], psPad := [(512 * 123 + 511, 2)], store := [(256 * 383, 3)] }), (6145, { actPad := [(0, 1)] })]
    dies := [(0, { epoch := 0xFFFFFFFF, leases := [(63, { held := true })] }),
             (2, { loading := some aPattern, granary := [(5, 6)], powerGran := [(0, 0xFF)] }),
             (3, { pattern := some { aPattern with laneMap := [lane0] }, quenchLanes := [(0, 0)], quenchCrofts := [6145], quenchCasts := [(6146, 1)], granary := [(512 * (2048 * 63 + 1983), 4)] })]
    serve := { accepting.serve with steps := [{ aStep with dies := [(1, 1)] }] } }

set_option maxRecDepth 20000 in
theorem witness_PatternLoadsAreCheckedAndComplete :
    (patterned.answers = true ∧ (0x0001010000020001 : Word).bit 0 = true ∧ (0x0001010000020001 : Word).bit 1 = false) ∧
    (patterned.stepOnDie 0 = false ∧ (patterned.die 0).patchBusy = false ∧ (patterned.die 0).spareJobs = [] ∧ (patterned.die 0).loading = none ∧
      (0x0001010000020001 : Word).field 48 16 ≠ 0 ∧
      patterned.checkRange ((0x0001010000020001 : Word).field 12 36 * 4096) (4096 * (0x0001010000020001 : Word).field 48 16) = none ∧
      patterned.poisonIn ((0x0001010000020001 : Word).field 12 36 * 4096) (4096 * (0x0001010000020001 : Word).field 48 16) = false ∧ headerOk aPattern 0 = true ∧ aPattern.dieRevision = patterned.pkg.dieRevision ∧
      aPattern.role = patterned.pkg.role ∧ patterned.pkg.role = 4 ∧ aPattern.memMode = b2n (patterned.die 0).mapMode ∧
      (∀ n ∈ patterned.usedCrofts 0 aPattern, (patterned.croft n).digest = aPattern.ingotDigest ∧
        (patterned.croft n).generation = aPattern.generation) ∧
      regionsOk aPattern (4096 * (0x0001010000020001 : Word).field 48 16) = true ∧ timesOk aPattern patterned.pkg.bellNs = true ∧
      scheduleOk aPattern = true ∧ contentsOk aPattern = true ∧ patterned.positionsOk 0 aPattern = true) ∧
    patterned.loadCheck 1 aPattern ((0x0001010000020001 : Word).field 12 36 * 4096) ((0x0001010000020001 : Word).field 48 16) = some .busy ∧
    patterned.loadCheck 0 (patterned.patternNamed 0x0000010000020001 (some blankPattern)) ((0x0000010000020001 : Word).field 12 36 * 4096)
      ((0x0000010000020001 : Word).field 48 16) = some .length ∧
    ((3 : Word).bit 0 = true ∧ (3 : Word).bit 1 = true) ∧ ((2 : Word).bit 0 = false ∧ (2 : Word).bit 1 = true ∧ patterned.stepOnDie 1 = true ∧
      patterned.stepOnDie 0 = false) ∧
    (patterned.die 2).loading = some aPattern ∧ (∀ h ∈ aPattern.hot, 0x18000 ≤ h.copies) ∧ (patterned.die 0).loading = none := by decide +kernel

theorem patterned_named : patterned.patternNamed 0x0001010000020001 (some blankPattern) = aPattern := header_reads rfl

theorem patterned_digest : patterned.imageDigestAt ((0x0001010000020001 : Word).field 12 36 * 4096) (4096 * (0x0001010000020001 : Word).field 48 16) =
    aPattern.imageDigest := image_digest rfl

/-- Croft (0, 0, 31) in service, croft (0, 31, 33) out of service and its row without a free spare, croft (0, 1, 0) fenced, croft (0, 2, 0)
casting. -/
def fencing : State :=
  { up with crofts := [(31, { service := some .inService }), (2017, { service := some .outOfService }), (1992, { service := some .fenced }),
                       (2009, { service := some .fenced }), (64, { service := some .fenced }),
                       (128, { service := some .inService, recasts := [3] })] }

/-- A package in the store role. -/
def storing : State := { up with pkg := { up.pkg with role := 3 } }

/-- Spare croft (0, 0, 25) holds logical column 3. -/
def spareHeld : State := { up with crofts := [(25, { service := some .inService, spareColumn := some 3 })] }

theorem witness_FencesRecastsQuench_spare :
    25 = 2048 * 0 + 64 * (25 : Word).field 8 5 + (25 : Word).field 0 6 ∧ spareHeld.service 25 ≠ .fenced ∧ isSpareColumn 25 = true ∧
      (spareHeld.croft 25).spareColumn = some 3 := by decide

theorem witness_FencesRecastsQuench :
    fencing.answers = true ∧ 33 < (34 : Word).field 0 6 ∧
    (64 = 2048 * 0 + 64 * (0x100 : Word).field 8 5 + (0x100 : Word).field 0 6 ∧ fencing.service 64 = .fenced) ∧
    (31 = 2048 * 0 + 64 * (31 : Word).field 8 5 + (31 : Word).field 0 6 ∧ fencing.service 31 ≠ .fenced ∧ isSpareColumn 31 = false ∧
      nearerSpare ((fencing.freeSpareCrofts 0 0).filter fun k => k != 31) 31 = some 25) ∧
    (2017 = 2048 * 0 + 64 * (0x1F21 : Word).field 8 5 + (0x1F21 : Word).field 0 6 ∧ nearerSpare ((fencing.freeSpareCrofts 0 31).filter fun k => k != 2017) 33 = none) ∧
    (25 = 2048 * 0 + 64 * (25 : Word).field 8 5 + (25 : Word).field 0 6 ∧ fencing.service 25 ≠ .fenced ∧ isSpareColumn 25 = true ∧
      (fencing.croft 25).spareColumn = none ∧ (fencing.die 0).spareJobs = []) ∧
    33 < (0x220000 : Word).field 16 6 ∧ (fencing.pkg.role ≠ 3 ∧ storing.pkg.role = 3) ∧ fencing.service 2017 ≠ .inService ∧
    (128 = 2048 * 0 + 64 * (0x200 : Word).field 8 5 + (0x200 : Word).field 16 6 ∧ fencing.service 128 = .inService ∧
      (fencing.croft 128).castBusy = true) ∧
    (31 = 2048 * 0 + 64 * (0x1F0005 : Word).field 8 5 + (0x1F0005 : Word).field 16 6 ∧ fencing.service 31 = .inService ∧
      (fencing.croft 31).castBusy = false ∧ (0x1F0005 : Word).bit 4 = false) ∧
    (((patterned.finishTransfers 3).quenchSet 3).act = [(6144, 251)] ∧ ((patterned.finishTransfers 3).quenchSet 3).ps = [(6144, 123)] ∧ ((patterned.finishTransfers 3).quenchSet 3).lines = [(6144, 383)] ∧
      ((patterned.finishTransfers 3).quenchSet 3).gran = [2048 * 63 + 1983] ∧ ((patterned.finishTransfers 3).die 3).quenchCrofts = [6145]) := by decide

theorem witness_BellOpensTheRound :
    ((inPhase .starting).pkg.phase ≠ .service ∧ (inPhase .starting).pkg.phase ≠ .entering ∧ (inPhase .starting).pkg.phase ≠ .powerFail) ∧
    up.pkg.phase = .service ∧ (inPhase .entering).pkg.phase = .entering ∧ (inPhase .powerFail).pkg.phase = .powerFail ∧
    up.serve.sessions = [] ∧ up.serve.steps = [] := by decide
/-! ### The machine as a whole -/

/-- `up` with two commands in its queue. -/
def waiting : State := { up with pending := [.joinTimeout, .dormancyAck] }

theorem witness_StepRunsFrontCommand :
    waiting.pending = .joinTimeout :: [.dormancyAck] ∧ (up.pending = [] ∧ up.answers = true) ∧ (State.reset.pending = [] ∧ State.reset.answers = false) :=
  ⟨rfl, ⟨rfl, rfl⟩, rfl, rfl⟩

theorem witness_CommandsLeaveTheQueue : ∃ t, exec .joinTimeout up = .next t := ⟨_, rfl⟩

/-- All rollback steps but one, all owner settings but the last and every debug opening are burnt; the last owner setting is being burnt. -/
def nearlyBurnt : State :=
  { up with lock := { up.lock with fuses := { up.lock.fuses with rollback := 127, ownerUsed := 7, debugUsed := 4, pubRevoked := [0], publishers := [(0, 77)] }
                                   burn := some { kind := 1 } } }

theorem witness_FusesStayWithinTheirCounts : nearlyBurnt.fusesOk ∧ ∃ t, step nearlyBurnt = .next t := by
  refine ⟨⟨by decide, by decide, by decide, fun b hb => ?_⟩, _, rfl⟩
  cases hb
  decide

theorem witness_MemoryReadsBackWhatIsWritten :
    Memory.wf [(3, 1), (5, 2)] = true ∧ (List.replicate 64 (7 : Byte)).length = 64 ∧ (up.stack (4294967295 / 2147483648)).out = false ∧
    up.unclean (pageOf (64 * 4294967295)) = false ∧ up.hbm.mem.wf = true := by decide
/-! ### Ill-formed operands -/

def aWindowIn : WindowIn := { croft := c0, mould := 0, step := 7, firstRow := 0, rows := 1024, actRow := 255, noise := [] }
def aTransposed : TransposedIn := { croft := c0, mould := 0, step := 7, actRow := 255, spanT := 64, noise := [] }
def aPromotion : PromotionIn := { croft := c0, run := [0], transposed := false, acc := 0, span := 8192, partials := [], d8 := [], embed := none, rescale := none,
                                   gradient := none }
def aGroup : RowGroupIn := { croft := c0, mould := 0, span := 65536, image := [], failed := [], poisoned := false }
def castClosing : CastCloseIn := { croft := c0, mould := 0, spareFailed := [], verifyFailed := [], stats := [], firstSet := {}, castDate := 0 }
def aReadUnit : UnitHead := UnitHead.make 0x01 1 0x118
def unitOf (kind : Nat) : UnitHead := UnitHead.make kind 1 0x118
def migrateInBody : MigrateInBody := { context := 2, package := 3, tag := 1, outRing := 7 }
def migrateOutBody : MigrateOutBody := { context := 0, package := 3, tag := 1 }
def aStage : IngotStageBody := { generation := 2, ingotAddr := 0x10000000000, ingotLen := 4096, patternTable := 0x10000000000 }
def anAdapter : AdapterLoadBody := { handle := 6, length := 8192, imageAddr := 0x10000000000 }
def aStepOut : StepOut := { step := 7, outputs := [] }
def aReading : ColumnProbe := { column := 0, readings := List.replicate 32 (0, 0) }
def aNoise : Noise := { pass := 3, line := 1023, delta := 0 }
def aCtrlIn : CtrlFlit := { port := 0, bytes := List.replicate 16 0 }

/-- Operands of a die's commands that fit no carrier. -/
theorem test_wf_refuses_dies : ∀ i ∈ [
    Instr.bell { outs := List.replicate 4097 aStepOut, selfCheckFailed := [], quick := [] },
    .forwardWindow { aWindowIn with firstRow := 32 }, .forwardWindow { aWindowIn with rows := 96 }, .forwardWindow { aWindowIn with rows := 0 },
    .forwardWindow { aWindowIn with firstRow := 64 }, .forwardWindow { aWindowIn with actRow := 256 }, .transposedWindow { aTransposed with actRow := 256 },
    .runPromotion { aPromotion with run := List.replicate 17 0 }, .forwardWindow { aWindowIn with noise := [{ aNoise with pass := 4 }] },
    .transposedWindow { aTransposed with spanT := 96 }, .runPromotion { aPromotion with acc := 16129 }, .runPromotion { aPromotion with span := 100 },
    .runPromotion { aPromotion with transposed := true, acc := 15361 }, .runPromotion { aPromotion with partials := [⟨256, c0, 0⟩] },
    .runPromotion { aPromotion with d8 := [⟨0, 131072, 0⟩] }, .microBatchUpdate 65536 [] 0, .microBatchUpdate 0 [] (2 ^ 48),
    .microBatchUpdate 0 [{ croft := c0, line := 0, byte := 0, gradient := 262141, omega := 0 }] 0, .checkpointDone 65536,
    .probeVerdict c0 0 [{ aReading with readings := [] }] [], .probeVerdict c0 0 [] [{ entry := 4096, again := false, codes := [] }], .standinCopyArrive c0 0 0 [(1024, 0)] false, .standinCopyArrive c0 0 0 [(0, 1024)] false,
    .gaugeConverterPass c0 0 false false [(278, 0)], .gaugeConverterPass c0 0 false false [(0, 32768)], .castRowGroupEnd { aGroup with span := 96 },
    .castClose { castClosing with castDate := 2 ^ 64 }, .castClose { castClosing with stats := [⟨0, 128, 0⟩] }, .castClose { castClosing with firstSet := { g45 := 32768 } }, .barrier 0 16 [] c0, .narrowRead 0 (2 ^ 48) 8 0 .reeve false, .narrowRead 0 0 65536 0 .reeve false,
    .narrowRead 0 0 8 (2 ^ 32) .reeve false, .narrowWrite 0 (2 ^ 48) 0 [] .reeve none, .narrowWrite 0 0 (2 ^ 32) [] .reeve none, .narrowWrite 0 0 0 [] .reeve (some 65536),
    .leaseRequest (.slice 0 0) .reeve 65536, .leaseRequest (.slice 0 0) (.core 0) 1, .leaseRequest (.engine 0 0) .reeve 1,
    .leaseRenewal (.tableLock 0) (.core 0) 1001, .leaseRenewal (.slice 0 0) .reeve 0, .leaseRelease .commonsLock (.dma 0)], i.wf = false := by decide +kernel

/-- Operands of the commands of attention and storage. -/
theorem test_wf_refuses_storage : ∀ i ∈ [
    Instr.attnExchangeArrival { anExchange with queries := [{ aQueryIn with elements := [] }] },
    .attnExchangeArrival { anExchange with kv := [{ head := 0, position := 0, key := [], value := List.replicate 128 0 }] },
    .attnExchangeArrival { anExchange with kv := [{ head := 0, position := 0, key := List.replicate 128 0, value := [] }] },
    .attnReq { anAttnReq with tag := 2 ^ 32 }, .attnReq { anAttnReq with source := 256 }, .attnReq { anAttnReq with queries := [{ aQuery with codes := [] }] },
    .attnRsp 0 (2 ^ 32) 0 [], .attnRsp 0 0 0 [aPartial], .attnBusy 0 (2 ^ 32), .leaseRenew 0 0 (List.replicate 47 0), .commonsLookup 65536,
    .migManifest { aManifest with context := 65536 }, .migManifest { aManifest with tag := 2 ^ 32 }, .migManifest { aManifest with tenant := 4096 },
    .migManifest { aManifest with cls := 4 }, .migManifest { aManifest with capacity := 258049 }, .migManifest { aManifest with committed := 258049 },
    .migConfirm 65536 0, .migAbort 65536 0 .busy, .migrationTimeout 65536, .blankPage 0 2097152], i.wf = false := by decide +kernel

/-- Operands of the commands of the intake windows. -/
theorem test_wf_refuses_intake : ∀ i ∈ [
    Instr.stop 0 { cmdHead with seq := 2 ^ 64 } 0, .stop 0 { cmdHead with cookie := 2 ^ 32 } 0, .stop 0 cmdHead 65536, .cancel 0 cmdHead 65536, .close 0 cmdHead 65536,
    .openSession 0 cmdHead { anOpen with context := 65536 }, .openSession 0 cmdHead { anOpen with tenant := 65536 }, .openSession 0 cmdHead { anOpen with cls := 256 },
    .openSession 0 cmdHead { anOpen with kvFormat := 256 }, .openSession 0 cmdHead { anOpen with share := 256 }, .openSession 0 cmdHead { anOpen with outRing := 256 },
    .openSession 0 cmdHead { anOpen with capacity := 2 ^ 32 }, .openSession 0 cmdHead { anOpen with topK := 65536 }, .openSession 0 cmdHead { anOpen with seed := 2 ^ 64 },
    .openSession 0 cmdHead { anOpen with stopAddr := 2 ^ 48 }, .prompt 0 cmdHead { aPrompt with context := 65536 }, .prompt 0 cmdHead { aPrompt with flags := 256 },
    .prompt 0 cmdHead { aPrompt with adapter := 65536 }, .prompt 0 cmdHead { aPrompt with tokenCount := 2 ^ 32 },
    .prompt 0 cmdHead { aPrompt with tokenAddr := 2 ^ 48 }, .prompt 0 cmdHead { aPrompt with floor := 2 ^ 32 },
    .prompt 0 cmdHead { aPrompt with deadline := 2 ^ 64 }, .generate 0 cmdHead { aGenerate with context := 65536 },
    .generate 0 cmdHead { aGenerate with adapter := 65536 }, .generate 0 cmdHead { aGenerate with maxNew := 2 ^ 32 },
    .generate 0 cmdHead { aGenerate with floor := 2 ^ 32 }, .generate 0 cmdHead { aGenerate with deadline := 2 ^ 64 },
    .draft 0 cmdHead { aDraft with context := 65536 }, .draft 0 cmdHead { aDraft with adapter := 65536 }, .draft 0 cmdHead { aDraft with draftCount := 256 },
    .draft 0 cmdHead { aDraft with draftAddr := 2 ^ 48 }, .draft 0 cmdHead { aDraft with floor := 2 ^ 32 }, .draft 0 cmdHead { aDraft with deadline := 2 ^ 64 },
    .adapterLoad 0 cmdHead { anAdapter with handle := 65536 }, .adapterLoad 0 cmdHead { anAdapter with length := 2 ^ 32 },
    .adapterLoad 0 cmdHead { anAdapter with imageAddr := 2 ^ 48 }, .adapterVerified 4096 anAdapterImage, .adapterDrop 0 cmdHead 65536,
    .ingotStage 0 cmdHead { aStage with generation := 2 ^ 32 }, .ingotStage 0 cmdHead { aStage with ingotAddr := 2 ^ 48 },
    .ingotStage 0 cmdHead { aStage with ingotLen := 2 ^ 64 }, .ingotStage 0 cmdHead { aStage with patternTable := 2 ^ 48 }, .genSwitch 0 cmdHead (2 ^ 32),
    .migrateOut 0 cmdHead { migrateOutBody with context := 65536 }, .migrateOut 0 cmdHead { migrateOutBody with package := 65536 },
    .migrateOut 0 cmdHead { migrateOutBody with tag := 2 ^ 32 }, .migrateIn 0 cmdHead { migrateInBody with context := 65536 },
    .migrateIn 0 cmdHead { migrateInBody with package := 65536 }, .migrateIn 0 cmdHead { migrateInBody with tag := 2 ^ 32 },
    .migrateIn 0 cmdHead { migrateInBody with outRing := 256 }], i.wf = false := by decide +kernel

theorem test_wf_refuses_temper : ∀ b ∈ [
    { aTemper with context := 65536 }, { aTemper with handle := 65536 }, { aTemper with tenant := 65536 }, { aTemper with cls := 256 },
    { aTemper with microBatches := 2 ^ 32 }, { aTemper with dataAddr := 2 ^ 48 }, { aTemper with batch := 65536 }, { aTemper with dataLen := 2 ^ 32 },
    { aTemper with seed := 2 ^ 32 }, { aTemper with interval := 2 ^ 32 }], (Instr.temper 0 cmdHead b).wf = false := by decide +kernel

/-- Operands of the commands of links and modules. -/
theorem test_wf_refuses_links : ∀ i ∈ [
    Instr.errStatusClear (2 ^ 48) 0, .intrFifoRead 65536, .registerWrite (2 ^ 56) 8 0, .registerWrite 0 65 0, .rd8 (unitOf 0x02),
    .wr8 (unitOf 0x01), .rd64 (unitOf 0x04), .wr64 (unitOf 0x03) (fill 64), .wr64 (unitOf 0x04) [], .pw64 (unitOf 0x04) (fill 64), .pw64 (unitOf 0x05) [],
    .rsp 0 (unitOf 0x09), .rspd 0 (unitOf 0x08) (fill 64), .rspd 0 (unitOf 0x09) [], .snoop 0 (2 ^ 34) false, .snoopRsp 0 (2 ^ 34) none,
    .snoopRsp 0 0 (some []), .crd (.steward 0) .hub 65536 0, .crd (.steward 0) .hub 0 65536,
    .completionTimeout 0 65536, .ucieRetrain (.steward 0) 69 0 [] [], .ucieRetrain (.steward 0) 0 69 [] [], .ucieRetrain (.steward 0) 0 0 [65536] [],
    .ucieRetrain (.steward 0) 0 0 [] [65536], .kyrokFlitReceive { aFlit with payload := [] }, .kyrokCtrlFlit { aCtrlIn with bytes := [] },
    .xfer (.die 0 0) 7 65536 0 false, .xfer (.die 0 0) 7 0 (2 ^ 32) false, .loadComplete 0 (2 ^ 32),
    .bootDoorbell { aBundle with addr := 2 ^ 48 }, .bootDoorbell { aBundle with length := 2 ^ 32 },
    .rreadReq 0 (2 ^ 32) 0 0 0 0, .rreadRsp 0 0 (2 ^ 32) 0 [] false, .rreadRsp 0 0 0 256 [] false, .rreadTimeout (2 ^ 32),
    .dmaPoisonHalt 0 0 (2 ^ 48) 0 0, .dmaPoisonHalt 0 0 0 (2 ^ 48) 0, .timeAlign [] (List.replicate 16 0), .timeAlign [0, 0, 0] [],
    .timeAlign [0, 0, 3] (List.replicate 16 0), .kyrokPortTrained 0 256 0 0], i.wf = false := by decide +kernel

/-- The operands that the lists above change are well formed. -/
theorem test_wf_admits : ∀ i ∈ [
    Instr.forwardWindow aWindowIn, .transposedWindow aTransposed, .runPromotion aPromotion, .castRowGroupEnd aGroup, .castClose castClosing,
    .attnExchangeArrival anExchange, .attnReq anAttnReq, .migManifest aManifest, .openSession 0 cmdHead anOpen, .prompt 0 cmdHead aPrompt,
    .generate 0 cmdHead aGenerate, .draft 0 cmdHead aDraft, .adapterLoad 0 cmdHead anAdapter, .ingotStage 0 cmdHead aStage, .migrateOut 0 cmdHead migrateOutBody,
    .migrateIn 0 cmdHead migrateInBody, .temper 0 cmdHead aTemper, .rd8 aReadUnit], i.wf = true := by decide +kernel

/-! ### Worked figures of the manual -/

/-- Worked address of chapter 01: the CROFT page of die 5, row 12, physical column 33; its first block register at offset 0x100. -/
theorem test_worked_croft_address : target 0x25421100 = .reg (.croft (2048 * 5 + 64 * 12 + 33)) 0x100 := by decide

/-- Worked read of chapter 14: LENGTH of session 7,014. -/
theorem test_worked_session_address : target 0x11B66108 = .reg (.sess 7014) 0x108 := by decide

/-- A slot that names no page (R38): physical column 34 of the same row. -/
theorem test_croft_column_34_names_no_page : target 0x25422100 = .noPage (.die 5) := by decide

/-- Worked A8 column of chapter 04: d_high = 192 at span 8,192 gives q = 3, d_low = 128 at span 16,384 gives q = 1. -/
theorem test_worked_a8_column : convert 8 8192 192 0 = 3 ∧ convert 8 16384 128 0 = 1 ∧ 16 * scale8 8 3 * 8 + 2 * scale8 8 1 * 8 = 400 := by decide +kernel

/-- A code that would pass the bound stays at it (R55), and a half rounds away from zero (R100). -/
theorem test_conversion_corners : convert 6 64 1000 0 = 31 ∧ convert 6 64 (-1000) 0 = -31 ∧ convert 6 64 1 0 = 1 ∧ convert 6 64 (-1) 0 = -1 := by
  decide +kernel

/-- Worked reading of chapter 14: a DMA channel that used an ended epoch at element 5 of row 1,234 in slice 9 of die 5. -/
theorem test_worked_granary_error : ∃ t, exec (.narrowRead 5 0x99A4A0 32 1 (.dma 7) false) { up with dies := [(5, { powerGran := [(9, 0xFF)] })] } = .next t ∧
    t.reg (.gran 5) 0x020 = 0x0000000C00000001 ∧ t.reg (.gran 5) 0x028 = 0x99A4A0 ∧ t.reg (.gran 5) 0x030 = 0x00030007 :=
  ⟨_, rfl, by decide, by decide, by decide⟩

/-- Worked account of chapter 09: a window of 6,000 µJ that measured 5,600 µJ, with 1,630.4 µJ in its ledger and 350 µJ of debt. -/
theorem test_worked_tally_window : ∃ t,
    exec (.tallyWindowEnd 5600000) { up with tally := { up.tally with gross := 6000000, debt := 350000, ledger := [(0, 1630400)] } } = .next t ∧
    t.tally.unpred = 3969600 ∧ t.tally.debt = 0 ∧ t.tally.window = 1 :=
  ⟨_, rfl, by decide +kernel, by decide +kernel, by decide +kernel⟩

/-- The window before it: m = 6,350 µJ, p = 2,650 µJ. -/
theorem test_worked_tally_debt : ∃ t,
    exec (.tallyWindowEnd 6350000) { up with tally := { up.tally with gross := 6000000, ledger := [(0, 2650000)] } } = .next t ∧
    t.tally.unpred = 3700000 ∧ t.tally.debt = 350000 :=
  ⟨_, rfl, by decide +kernel, by decide +kernel⟩

/-- The first command of a window has number 0; the same number again is a DUPLICATE record, kind 3 (R331, R342). -/
theorem test_duplicate_number : ∃ t u, exec (.stop 0 cmdHead 0) accepting = .next t ∧ (t.win 0).nextSeq = 1 ∧ exec (.stop 0 cmdHead 0) t = .next u ∧
    (u.win 0).nextSeq = 1 ∧ u.reg (.intake 0) 0x210 = 1 ∧ (u.sess 0).queue.length = 1 :=
  ⟨_, _, rfl, by decide +kernel, rfl, by decide +kernel, by decide +kernel, by decide +kernel⟩

/-- An access to a slot that names no page is logged in DIE without reg_access, as steward module 1's (R38, R548). -/
theorem test_nameless_slot_is_logged : ∃ t, exec (.registerWrite 0x0080000025422100 8 0) up = .next t ∧ t.reg (.die 5) 0x020 = 0x0000000300000001 ∧
    t.reg (.die 5) 0x028 = 0x25422100 ∧ t.reg (.die 5) 0x030 = 0x00010001 :=
  ⟨_, rfl, by decide, by decide, by decide⟩

/-- The shadow table after reset names the inputs of the active table (R391; the model's choice, log entry 36). -/
theorem test_shadow_after_reset : State.reset.shadow 0 48 = (List.range 48).map fun i => (i, false) := by decide +kernel

end Sys2Proof.Tests
end

section
/-!
What a bell brings into force before its actions, and the check of SYS.ROLE (R22). `State.beat` is the projection of the settings a bell
replaces (Sys2Proof/Laws/Bell.lean); the operations it has no lemma for yet come first.
-/
namespace Sys2Proof.Machine

/-! ### Operations of a bell that leave the settings alone -/

@[simp] theorem State.resumeMould_beat (s : State) (n m : Nat) : (s.resumeMould n m).beat = s.beat := by
  simp [State.resumeMould]

@[simp] theorem State.resumeSpares_beat (s : State) : s.resumeSpares.beat = s.beat := by
  simp [State.resumeSpares]

@[simp] theorem State.gateCrofts_beat (s : State) : s.gateCrofts.beat = s.beat :=
  s.stopCasts_beat

@[simp] theorem State.writePlace_beat (s : State) (d : Nat) (p : RowPlace) (bytes : List (BitVec 8)) (sigma : BitVec 16) :
    (s.writePlace d p bytes sigma).beat = s.beat := by
  cases p <;> simp [State.writePlace, State.writePadRow]

@[simp] theorem State.carryMarks_beat (s : State) (d : Nat) (p : RowPlace) (marks : List Nat) : (s.carryMarks d p marks).beat = s.beat := by
  cases p <;> simp [State.carryMarks]

@[simp] theorem State.transfer_beat (s before : State) (d : Nat) (t : TransferPlan) : (s.transfer before d t).beat = s.beat := by
  simp [State.transfer]

@[simp] theorem State.transferAll_beat (s : State) (d : Nat) (l : List TransferPlan) : (s.transferAll d l).beat = s.beat :=
  foldl1_beat _ _ _ fun _ _ => State.transfer_beat ..

@[simp] theorem State.transfersTo_beat (s : State) (d now : Nat) : (s.transfersTo d now).beat = s.beat := by
  cases h : (s.die d).pattern <;> simp [State.transfersTo, h]

@[simp] theorem State.allTransfers_beat (s : State) (now : Nat) : (s.allTransfers now).beat = s.beat := by
  simp [State.allTransfers]

/-! ### The settings of a bell -/

/-- Of the settings, the start of a bell moves the clock and the bell period alone (R241). -/
theorem State.ringBell_beat (s : State) (now : Nat) :
    (s.ringBell now).beat =
      ({ s.clock with time := max s.clock.time now, lastBell := now },
        (s.pkg.role, s.pkg.rolePending, s.pkg.pack, s.pkg.packPending, s.pkg.packClear, (s.ringBell now).pkg.bellNs, s.pkg.phase),
        s.tally.limits, s.tally.limitsNext) := by
  have h : ((s.advanceTo now).allTransfers now).beat = (s.advanceTo now).beat := State.allTransfers_beat ..
  simp only [State.beat, State.advanceTo, Prod.mk.injEq] at h
  simp [State.beat, State.ringBell, State.advanceTo, h]

/-- A waiting role comes into force, with whatever it does to dies and crofts (R22). -/
theorem State.roleAtBell_beat (s : State) (b : BellIn) :
    (s.roleAtBell b).beat =
      (s.clock, (s.pkg.rolePending.getD s.pkg.role, none, s.pkg.pack, s.pkg.packPending, s.pkg.packClear, s.pkg.bellNs, s.pkg.phase),
        s.tally.limits, s.tally.limitsNext) := by
  cases h : s.pkg.rolePending with
  | none => simp only [State.roleAtBell, State.beat, h, Option.getD_none]
  | some r => simp [State.roleAtBell, h] -- what the new role does to dies and crofts leaves the settings alone in every branch

/-- Role, probe pack and class limits that wait come into force (R22, R382, R494). -/
theorem State.packageAtBell_beat (s : State) (b : BellIn) :
    (s.packageAtBell b).beat =
      (s.clock, (s.pkg.rolePending.getD s.pkg.role, none, if s.pkg.packClear then none else s.pkg.packPending.or s.pkg.pack, none, false,
        s.pkg.bellNs, s.pkg.phase), s.tally.limitsNext.getD s.tally.limits, none) := by
  have h := s.roleAtBell_beat b
  simp only [State.beat, Prod.mk.injEq] at h
  simp only [State.packageAtBell, State.leaveAtBell_beat, State.debugAtBell_beat, State.revokeAtBell_beat, State.commonsAtBell_beat]
  cases hp : s.pkg.packPending <;> simp only [State.beat, h, hp, Option.none_or, Option.some_or]

/-- What comes into force depends on the settings alone. -/
theorem State.packageAtBell_beat_congr {s t : State} (b : BellIn) (h : s.beat = t.beat) :
    (s.packageAtBell b).beat = (t.packageAtBell b).beat := by
  simp only [State.beat, Prod.mk.injEq] at h
  simp only [State.packageAtBell_beat, h]

/-- A bell is its opening, the settings that come into force, ten actions that leave them alone, and the date of the next bell (R349). -/
theorem State.bellAt_settings (s : State) (b : BellIn) (now : Nat) :
    ∃ u : State, s.bellAt b now = u.scheduleBell now ∧ u.beat = ((s.ringBell now).packageAtBell b).beat := by
  refine ⟨_, rfl, ?_⟩
  simp only [State.snapAttest_beat, State.snapshot_beat, State.keepLanes_beat, State.admission_beat, State.action9_beat,
    State.chargeLeak_beat, State.action8_beat, State.action7_beat, State.action6_beat, State.action5_beat, State.eachSession_beat,
    State.controls_beat, State.deadlineOf_beat, State.action2_beat, State.action1_beat, State.writeHeld_beat, implies_true]
  exact State.packageAtBell_beat_congr b (by simp)

/-- Where bells ring, BELL is the bell of a state whose settings are those before it (R349, R401). -/
theorem exec_bell_rings (s : State) (b : BellIn) (h : s.pkg.phase = .service ∨ s.pkg.phase = .entering ∨ s.pkg.phase = .powerFail) :
    ∃ u : State, exec (.bell b) s = .next (u.bellAt b s.clock.nextBell) ∧ u.beat = s.beat := by
  refine ⟨_, if_pos h, ?_⟩
  have hs : (if s.pkg.phase = .service then s else s.stopCasts).beat = s.beat := by simp
  rw [ite_beat]
  split <;> exact hs

/-- The waiting role is in force after a bell, and none waits any more (R22). -/
theorem State.bellAt_role (s : State) (b : BellIn) (now : Nat) :
    (s.bellAt b now).pkg.role = s.pkg.rolePending.getD s.pkg.role ∧ (s.bellAt b now).pkg.rolePending = none := by
  obtain ⟨u, hu, hb⟩ := s.bellAt_settings b now
  have hr := s.ringBell_beat now
  rw [State.packageAtBell_beat] at hb
  simp only [State.beat, Prod.mk.injEq] at hb hr
  simp [hu, State.scheduleBell, hb, hr]

/-! ### The check of SYS.ROLE -/

/-- A command that does no more than refuse a write is refused with the write's code (R41). -/
theorem refused_of_exec_refuse {c : Instr} {s : State} {p : Page} {off : Nat} {e : Code}
    (h : exec c s = .next (s.refuse p off e).1) : Refused c s p e :=
  ⟨_, h, (s.refuse_logged p off e).1⟩

theorem exec_sysRole_answers (s : State) (v : Word) (h : s.answers = true) : exec (.sysRole v) s = .next (s.writeRole v).1 :=
  s.access_answers (.sysRole v) (fun t => (t.writeRole v).1) h

/-- What makes the package too busy for another role (R22). -/
def State.RoleBusy (s : State) : Prop := s.serve.steps ≠ [] ∨ s.contextsInUse = true ∨ s.pkg.gen.switch ≠ none

theorem State.writeRole_undefined (s : State) (v : Word) (h : 4 < v.field 0 3) : s.writeRole v = s.refuse .sys 0x100 .format :=
  if_pos h

theorem State.writeRole_busy (s : State) (v : Word) (h : v.field 0 3 ≤ 4) (hb : s.RoleBusy) :
    s.writeRole v = s.refuse .sys 0x100 .busy := by
  have hb' : (!s.serve.steps.isEmpty) = true ∨ s.contextsInUse = true ∨ s.pkg.gen.switch.isSome = true := by
    simpa [State.RoleBusy, Option.isSome_iff_ne_none] using hb
  rw [State.writeRole, if_neg (by omega), if_pos hb']

theorem State.writeRole_waits (s : State) (v : Word) (h : v.field 0 3 ≤ 4) (hb : ¬ s.RoleBusy) :
    s.writeRole v = ok { s with pkg := { s.pkg with rolePending := some (v.field 0 3) } } := by
  have hb' : ¬ ((!s.serve.steps.isEmpty) = true ∨ s.contextsInUse = true ∨ s.pkg.gen.switch.isSome = true) := by
    simpa [State.RoleBusy, Option.isSome_iff_ne_none] using hb
  rw [State.writeRole, if_neg (by omega), if_neg hb']

/-- Settles O7: a write of SYS.ROLE is one of the three cases of its check, and of a bell's actions none touches the settings that come into
force before them. -/
theorem roleWaitsForTheBell : Obligations.RoleWaitsForTheBell := by
  intro s v
  refine ⟨fun hs hv hsteps hctx hsw => ?_, fun hs hv => ?_, fun hs hv hb => ?_, fun b hp => ?_⟩
  · have hb : ¬ s.RoleBusy := by simp [State.RoleBusy, hsteps, hctx, hsw]
    rw [exec_sysRole_answers s v hs, s.writeRole_waits v hv hb, ok]
  · exact refused_of_exec_refuse (by rw [exec_sysRole_answers s v hs, s.writeRole_undefined v hv])
  · exact refused_of_exec_refuse (by rw [exec_sysRole_answers s v hs, s.writeRole_busy v hv hb])
  · obtain ⟨u, hu, hbeat⟩ := exec_bell_rings s b hp
    simp only [State.beat, Prod.mk.injEq] at hbeat
    refine ⟨_, hu, ?_⟩
    simpa only [hbeat] using u.bellAt_role b s.clock.nextBell

end Sys2Proof.Machine
end

section
/-!
The period of the bells (R241): the check of SYS.BELL_NS, and the bell that takes the period written there. A bell reads the register after
the transfers of the round that ends and, on the way into dormancy, after casts have stopped; neither touches the register file, which the
lemmas of the first part say.
-/
namespace Sys2Proof.Machine

/-! ### What runs before a bell reads SYS.BELL_NS leaves the register file alone -/

/-- What every step of a fold leaves alone, the fold leaves alone. -/
theorem foldl_keeps {α β γ : Type} (g : β → γ) (f : β → α → β) (l : List α) (b : β) (h : ∀ c x, g (f c x) = g c) :
    g (l.foldl f b) = g b :=
  l.foldlRecOn f (motive := fun c => g c = g b) rfl fun c hc x _ => (h c x).trans hc

@[simp] theorem State.writePlace_regs (s : State) (d : Nat) (p : RowPlace) (bytes : List (BitVec 8)) (sigma : BitVec 16) :
    (s.writePlace d p bytes sigma).regs = s.regs := by
  cases p with
  | act r j p | ps r j p => simp only [State.writePlace, State.writePadRow, apply_ite State.regs, State.modCroft_regs, ite_self]
  | gran k a | column k b e => rfl

@[simp] theorem State.carryMarks_regs (s : State) (d : Nat) (p : RowPlace) (marks : List Nat) :
    (s.carryMarks d p marks).regs = s.regs := by
  cases p <;> rfl

@[simp] theorem State.transfer_regs (s before : State) (d : Nat) (t : TransferPlan) : (s.transfer before d t).regs = s.regs := by
  unfold State.transfer
  split <;> simp

@[simp] theorem State.transferAll_regs (s : State) (d : Nat) (l : List TransferPlan) : (s.transferAll d l).regs = s.regs :=
  foldl_keeps (fun a : State × State × Nat => a.1.regs) _ _ _ fun _ _ => State.transfer_regs ..

@[simp] theorem State.transfersTo_regs (s : State) (d now : Nat) : (s.transfersTo d now).regs = s.regs := by
  cases h : (s.die d).pattern with
  | none => simp only [State.transfersTo, h]
  | some p =>
    simp only [State.transfersTo, h]
    split <;> simp

@[simp] theorem State.allTransfers_regs (s : State) (now : Nat) : (s.allTransfers now).regs = s.regs :=
  foldl_keeps State.regs _ _ _ fun _ _ => State.transfersTo_regs ..

@[simp] theorem State.noteCast_regs (s : State) (n m : Nat) : (s.noteCast n m).regs = s.regs := by
  unfold State.noteCast
  split <;> simp

@[simp] theorem State.abandonCast_regs (s : State) (n m : Nat) : (s.abandonCast n m).regs = s.regs := by
  unfold State.abandonCast
  split <;> simp

@[simp] theorem State.stopCasts_regs (s : State) : s.stopCasts.regs = s.regs :=
  foldl_keeps State.regs _ _ _ fun _ _ => foldl_keeps State.regs _ _ _ fun _ _ => State.abandonCast_regs ..

/-- A register reads the same in states of one register file. -/
theorem State.reg_congr {s t : State} (h : s.regs = t.regs) (p : Page) (off : Nat) : s.reg p off = t.reg p off := by
  simp only [State.reg, State.regAt, h]

/-! ### The bell takes the period -/

/-- The start of a bell takes the period from SYS.BELL_NS as it stood before (R241). -/
theorem State.ringBell_bellNs (s : State) (now : Nat) : (s.ringBell now).pkg.bellNs = (s.reg .sys 0x118).field 0 14 := by
  have h : ((s.advanceTo now).allTransfers now).reg .sys 0x118 = s.reg .sys 0x118 := State.reg_congr (by simp) _ _
  simp only [State.ringBell, h]

/-- After a bell the period in force is that of SYS.BELL_NS, and the next bell is one such period away (R241). -/
theorem State.bellAt_period (s : State) (b : BellIn) (now : Nat) :
    (s.bellAt b now).pkg.bellNs = (s.reg .sys 0x118).field 0 14 ∧
      (s.bellAt b now).clock.nextBell = now + (s.bellAt b now).pkg.bellNs := by
  obtain ⟨u, hu, hb⟩ := s.bellAt_settings b now
  rw [State.packageAtBell_beat] at hb
  simp only [State.beat, Prod.mk.injEq] at hb
  simp [hu, State.scheduleBell, hb, s.ringBell_bellNs now]

/-- Where bells ring, BELL is the bell of a state whose settings and registers are those before it (R349, R401). -/
theorem exec_bell_rings_regs (s : State) (b : BellIn) (h : s.pkg.phase = .service ∨ s.pkg.phase = .entering ∨ s.pkg.phase = .powerFail) :
    ∃ u : State, exec (.bell b) s = .next (u.bellAt b s.clock.nextBell) ∧ u.regs = s.regs := by
  refine ⟨_, if_pos h, ?_⟩
  have hs : (if s.pkg.phase = .service then s else s.stopCasts).regs = s.regs := by split <;> simp
  split <;> exact hs

/-! ### The check of SYS.BELL_NS -/

theorem exec_bellNs_answers (s : State) (v : Word) (h : s.answers = true) : exec (.bellNs v) s = .next (s.writeBellNs v).1 :=
  s.access_answers (.bellNs v) (fun t => (t.writeBellNs v).1) h

/-- A loaded pattern needs a longer bell period than `p` (R241). -/
def State.PatternNeedsMore (s : State) (p : Nat) : Prop := ∃ d < 16, ∃ i ∈ (s.die d).pattern, p < i.minBell

theorem State.patternNeedsMore_iff (s : State) (p : Nat) :
    (((List.range 16).any fun d => (s.die d).pattern.any fun i => decide (p < i.minBell)) = true) ↔ s.PatternNeedsMore p := by
  simp [State.PatternNeedsMore, Option.any_eq_true]

theorem State.writeBellNs_outside (s : State) (v : Word) (h : v.field 0 14 < 1000 ∨ 16000 < v.field 0 14) :
    s.writeBellNs v = s.refuse .sys 0x118 .length :=
  if_pos h

section Inside
variable (s : State) (v : Word) (h : 1000 ≤ v.field 0 14 ∧ v.field 0 14 ≤ 16000)
include h

theorem State.writeBellNs_busy (hb : s.serve.steps ≠ []) : s.writeBellNs v = s.refuse .sys 0x118 .busy := by
  rw [State.writeBellNs, if_neg (by omega), if_pos (by simpa using hb)]

theorem State.writeBellNs_below (hb : s.serve.steps = []) (hp : s.PatternNeedsMore (v.field 0 14)) :
    s.writeBellNs v = s.refuse .sys 0x118 .format := by
  rw [State.writeBellNs, if_neg (by omega), if_neg (by simp [hb]), if_pos ((s.patternNeedsMore_iff _).mpr hp)]

theorem State.writeBellNs_stores (hb : s.serve.steps = []) (hp : ¬ s.PatternNeedsMore (v.field 0 14)) :
    s.writeBellNs v = s.storeReg .sys 0x118 v := by
  rw [State.writeBellNs, if_neg (by omega), if_neg (by simp [hb]), if_neg (mt (s.patternNeedsMore_iff _).mp hp)]

end Inside

/-- SYS.BELL_NS has one field, P in [13:0], which resets to 1,500 (R241). -/
theorem regFields_bellNs : regFields .sys 0x118 = some [⟨0, 14, .rw, 1500⟩] := by decide

/-- Storing SYS.BELL_NS sets P to that of the write, and nothing else moves. -/
theorem State.storeReg_bellNs (s : State) (v : Word) :
    OnlyRegs s (s.storeReg .sys 0x118 v).1 [Page.sys.base + 0x118] ∧
      ((s.storeReg .sys 0x118 v).1.reg .sys 0x118).field 0 14 = v.field 0 14 := by
  obtain ⟨hregs, hval⟩ := s.storeReg_only .sys 0x118 v _ regFields_bellNs
  refine ⟨hregs, ?_⟩
  rw [hval, fieldsWrite, List.foldl_cons, List.foldl_nil, fieldWrite, Word.field_setField _ _ _ _ (by decide), Word.field_mod]

/-- Settles O8: a write of SYS.BELL_NS is one of the four cases of its check, and a bell reads the register with the register file as it
stood before the bell. -/
theorem bellPeriodIsChecked : Obligations.BellPeriodIsChecked := by
  refine ⟨by decide, fun s v => ⟨fun hs hlo hhi hsteps hpat => ?_, fun hs hv => ?_, fun hs hlo hhi hsteps => ?_,
    fun hs hlo hhi hsteps hpat => ?_, fun b hp => ?_⟩⟩
  · have hp : ¬ s.PatternNeedsMore (v.field 0 14) := fun ⟨d, hd, i, hi, hlt⟩ => absurd (hpat d hd i hi) (by omega)
    refine ⟨_, exec_bellNs_answers s v hs, ?_⟩
    rw [s.writeBellNs_stores v ⟨hlo, hhi⟩ hsteps hp]
    exact s.storeReg_bellNs v
  · exact refused_of_exec_refuse (by rw [exec_bellNs_answers s v hs, s.writeBellNs_outside v hv])
  · exact refused_of_exec_refuse (by rw [exec_bellNs_answers s v hs, s.writeBellNs_busy v ⟨hlo, hhi⟩ hsteps])
  · exact refused_of_exec_refuse (by rw [exec_bellNs_answers s v hs, s.writeBellNs_below v ⟨hlo, hhi⟩ hsteps hpat])
  · obtain ⟨u, hu, hregs⟩ := exec_bell_rings_regs s b hp
    obtain ⟨hperiod, hnext⟩ := u.bellAt_period b s.clock.nextBell
    exact ⟨_, hu, by rw [hperiod, State.reg_congr hregs], hnext⟩

end Sys2Proof.Machine
end

section
/-!
The end of a tally window (R368, R372, R373). TALLY_WINDOW_END brings device time to the window's end, reconciles the ledger, applies the
heat rules and the storm rule, and opens the next window. What the middle stages may move is said once (`State.KeepsCap`); what each does
to the account follows, one lemma per stage.
-/
namespace Sys2Proof.Machine

/-! ### What the stages leave alone -/

/-- `t` is `s` but for counters, the steward's interrupts and the tally, and TALLY.CAP reads the same (R369). -/
structure State.KeepsCap (s t : State) : Prop where
  frame : t = { s with regs := t.regs, stew := t.stew, tally := t.tally }
  cap : t.capWatts = s.capWatts

theorem State.KeepsCap.refl (s : State) : s.KeepsCap s := ⟨rfl, rfl⟩

theorem State.KeepsCap.trans {s t u : State} (h : s.KeepsCap t) (k : t.KeepsCap u) : s.KeepsCap u :=
  ⟨k.frame.trans (by rw [h.frame]), k.cap.trans h.cap⟩

theorem State.keepsCap_tally (s : State) (y : Tally) : s.KeepsCap { s with tally := y } := ⟨rfl, rfl⟩

theorem State.keepsCap_bump (s : State) (off n : Nat) (h : 0x100 ≠ off) : s.KeepsCap (s.bump .tally off n) :=
  ⟨rfl, by simp only [State.capWatts, State.bump, State.reg_setReg_off _ _ _ _ _ h]⟩

theorem State.keepsCap_logEvent (s : State) (c : Code) (addr : Nat) : s.KeepsCap (s.logEvent .tally c addr) := by
  obtain ⟨hframe, hregs, -⟩ := s.logError_logged .tally c addr 0 0 false (base_ne_lost _ (base_aligned _))
  have hcap : (s.logEvent .tally c addr).reg .tally 0x100 = s.reg .tally 0x100 := hregs _ (by decide)
  refine ⟨?_, by simp only [State.capWatts, hcap]⟩
  rw [State.logEvent, hframe]

@[simp] theorem State.logEvent_tally (s : State) (p : Page) (c : Code) (addr : Nat) : (s.logEvent p c addr).tally = s.tally := by
  obtain ⟨hframe, -⟩ := s.logError_logged p c addr 0 0 false (base_ne_lost _ (base_aligned _))
  rw [State.logEvent, hframe]

/-! ### Reconciling -/

theorem State.reconcile_keepsCap (s : State) (m : Nat) : s.KeepsCap (s.reconcile m) := by
  unfold State.reconcile
  extract_lets t p debt s1 s2
  have hcount : s.KeepsCap s2 := (s.keepsCap_tally _).trans (s1.keepsCap_bump 0x148 _ (by decide))
  split
  · exact hcount.trans (s2.keepsCap_bump 0x158 1 (by decide))
  · exact hcount

/-- The account of the window that ends: what was not predicted, the debt, and the ledger without the window's entry (R373, R374, R377,
R554). -/
theorem State.reconcile_tally (s : State) (m : Nat) :
    (s.reconcile m).tally = { s.tally with
      unpred := max 0 ((m : Rat) - (tget (fun _ => 0) s.tally.ledger s.tally.window + (s.tally.leakNj + 180 * s.tally.castSeen : Nat)))
      debt := if s.tally.debtClear then 0 else min (max 0 (s.tally.debt + m - s.tally.gross)) (10 * s.tally.gross)
      debtClear := false, lastM := m, energyNj := s.tally.energyNj + m
      ledger := tput (fun _ => 0) s.tally.ledger s.tally.window 0 } := by
  unfold State.reconcile
  extract_lets t p debt s1 s2
  rw [apply_ite State.tally, State.bump_tally, ite_self]
  rfl

/-! ### The heat rules -/

theorem State.raiseStep_keepsCap (s : State) (n : Nat) : s.KeepsCap (s.raiseStep n) := by
  unfold State.raiseStep
  split
  · exact .refl s
  · exact (s.keepsCap_tally _).trans (State.keepsCap_bump _ 0x160 1 (by decide))

theorem State.raiseStep_tally (s : State) (n : Nat) :
    (s.raiseStep n).tally = if n ≤ s.tally.step then s.tally else { s.tally with step := n, cool := 0 } := by
  unfold State.raiseStep
  split <;> rfl

/-- The age test of a window's end: the converters that are stale are named, the window counted, and step 0 raised to 1 (R388). -/
def State.ageTest (s : State) (old : List Nat) : State :=
  let s1 : State := { s with tally := { s.tally with staleConv := old } }
  let s2 := if old.isEmpty then s1 else s1.bump .tally 0x168 1
  if !old.isEmpty ∧ s2.tally.step = 0 then s2.raiseStep 1 else s2

/-- The cool windows in a row, the one that ends included: none when a result reached 3 °C below the step's threshold, or when a stale
converter holds step 1 (R387, R388). -/
def Tally.coolRun (t : Tally) (old : List Nat) : Nat :=
  if decide (t.hotSeen < stepThreshold t.step - 192) && !(t.step == 1 && !old.isEmpty) then t.cool + 1 else 0

/-- The fall of a window's end: the tenth cool window in a row lowers the step (R387). -/
def State.coolTest (s : State) (old : List Nat) : State :=
  if s.tally.step = 0 then s
  else if s.tally.coolRun old < 10 then { s with tally := { s.tally with cool := s.tally.coolRun old } }
  else { s with tally := { s.tally with cool := 0, step := s.tally.step - 1 } }

theorem State.heatWindow_eq (s : State) (now : Nat) :
    s.heatWindow now = (s.ageTest ((List.range 20).filter fun c => (s.conv c).stale now)).coolTest
      ((List.range 20).filter fun c => (s.conv c).stale now) := rfl

theorem State.ageTest_keepsCap (s : State) (old : List Nat) : s.KeepsCap (s.ageTest old) := by
  have hname : s.KeepsCap { s with tally := { s.tally with staleConv := old } } := s.keepsCap_tally _
  have hcount := hname.trans (State.keepsCap_bump _ 0x168 1 (by decide))
  cases h : old.isEmpty
  · simp only [State.ageTest, h, Bool.false_eq_true, ↓reduceIte]
    split
    · exact hcount.trans (State.raiseStep_keepsCap _ 1)
    · exact hcount
  · simpa [State.ageTest, h] using hname

/-- The fall is of one step at most, and touches no more than the step and its span of cool windows (R387). -/
theorem State.coolTest_moves_step (s : State) (old : List Nat) :
    ∃ n c, s.coolTest old = { s with tally := { s.tally with step := n, cool := c } } ∧ (n = s.tally.step ∨ n = s.tally.step - 1) := by
  unfold State.coolTest
  split
  · exact ⟨_, _, rfl, .inl rfl⟩
  · split
    · exact ⟨_, _, rfl, .inl rfl⟩
    · exact ⟨_, _, rfl, .inr rfl⟩

theorem State.coolTest_keepsCap (s : State) (old : List Nat) : s.KeepsCap (s.coolTest old) := by
  obtain ⟨n, c, h, -⟩ := s.coolTest_moves_step old
  exact h ▸ s.keepsCap_tally _

theorem State.heatWindow_keepsCap (s : State) (now : Nat) : s.KeepsCap (s.heatWindow now) := by
  rw [State.heatWindow_eq]
  exact (s.ageTest_keepsCap _).trans (State.coolTest_keepsCap _ _)

/-- The age test can raise step 0 to 1, and touches no more of the tally than the step and its span (R388). -/
theorem State.ageTest_tally (s : State) (old : List Nat) :
    ∃ n c, (s.ageTest old).tally = { s.tally with staleConv := old, step := n, cool := c } ∧
      (n = s.tally.step ∨ s.tally.step = 0 ∧ n = 1) := by
  cases h : old.isEmpty
  · by_cases h0 : s.tally.step = 0
    · exact ⟨1, 0, by simp [State.ageTest, h, h0, State.raiseStep_tally], .inr ⟨h0, rfl⟩⟩
    · exact ⟨s.tally.step, s.tally.cool, by simp [State.ageTest, h, h0], .inl rfl⟩
  · exact ⟨s.tally.step, s.tally.cool, by simp [State.ageTest, h], .inl rfl⟩

/-- The heat rules move the thermal step by one at most and leave the account alone (R387, R388). -/
theorem State.heatWindow_tally (s : State) (now : Nat) :
    ∃ l n c, (s.heatWindow now).tally = { s.tally with staleConv := l, step := n, cool := c } ∧
      n ≤ s.tally.step + 1 ∧ s.tally.step ≤ n + 1 := by
  rw [State.heatWindow_eq]
  generalize (List.range 20).filter (fun c => (s.conv c).stale now) = old
  obtain ⟨a, c, hage, ha⟩ := s.ageTest_tally old
  obtain ⟨n, d, hcool, hn⟩ := (s.ageTest old).coolTest_moves_step old
  simp only [hage] at hcool hn
  exact ⟨old, n, d, by rw [hcool], by omega, by omega⟩

/-! ### The storm rule -/

/-- The storm rule can count and log a storm; of the tally it moves the storm and its quiet span alone (R173). -/
theorem State.stormWindow_keepsCap_storm (s : State) :
    s.KeepsCap s.stormWindow ∧ ∃ b q, s.stormWindow.tally = { s.tally with storm := b, stormQuiet := q } := by
  unfold State.stormWindow
  extract_lets t pct quiet n
  split
  · split
    · exact ⟨((s.keepsCap_tally _).trans (State.keepsCap_bump _ 0x170 1 (by decide))).trans (State.keepsCap_logEvent _ _ _),
        _, _, State.logEvent_tally ..⟩
    · exact ⟨.refl s, _, _, rfl⟩
  · split <;> exact ⟨s.keepsCap_tally _, _, _, rfl⟩

/-! ### The window's end as a whole -/

/-- The gross allowance is the cap in W times 10,000 ns times 1, 3/4 or 1/4 by the thermal step (R371, R372). -/
theorem State.grossAllowance_by_step (s : State) :
    (s.tally.step = 0 → s.grossAllowance = s.capWatts * 10000) ∧
      (s.tally.step = 1 → s.grossAllowance = s.capWatts * 10000 * 3 / 4) ∧
      (2 ≤ s.tally.step → s.grossAllowance = s.capWatts * 10000 / 4) := by
  refine ⟨fun h => ?_, fun h => ?_, fun h => ?_⟩
  · simp [State.grossAllowance, h]
  · simp [State.grossAllowance, h]
  · simp [State.grossAllowance, show s.tally.step ≠ 0 by omega, show s.tally.step ≠ 1 by omega]

/-- With the hubs ready, TALLY_WINDOW_END opens the next window on a state `u` that has reconciled: device time has reached the window's
end (R368), the account is that of `State.reconcile`, and the step is the old one or a neighbour of it. -/
theorem exec_tallyWindowEnd_ready (s : State) (m : Nat) (h : s.pkg.phase.ready = true) :
    ∃ u : State, exec (.tallyWindowEnd m) s = .next u.nextWindow ∧
      (s.advanceTo (Config.tallyNs * (s.tally.window + 1))).KeepsCap u ∧
      ∃ l n c b q, u.tally = { (s.reconcile m).tally with staleConv := l, step := n, cool := c, storm := b, stormQuiet := q } ∧
        n ≤ s.tally.step + 1 ∧ s.tally.step ≤ n + 1 := by
  let now := Config.tallyNs * (s.tally.window + 1)
  obtain ⟨l, n, c, hheat, hup, hdown⟩ := ((s.advanceTo now).reconcile m).heatWindow_tally now
  obtain ⟨hcap, b, q, hstorm⟩ := (((s.advanceTo now).reconcile m).heatWindow now).stormWindow_keepsCap_storm
  have hrec : ((s.advanceTo now).reconcile m).tally = (s.reconcile m).tally := by
    simp only [State.reconcile_tally, State.advanceTo]
  have hstep : (s.reconcile m).tally.step = s.tally.step := by rw [State.reconcile_tally]
  rw [hheat, hrec] at hstorm
  rw [hrec, hstep] at hup hdown
  refine ⟨_, if_neg (by simp [h]), ?_, l, n, c, b, q, hstorm, hup, hdown⟩
  exact ((State.reconcile_keepsCap _ m).trans (State.heatWindow_keepsCap _ now)).trans hcap

/-- Settles O11: the window's end reconciles before the heat rules and the storm rule, which leave the account alone, and the allowance of
the next window is taken after them, from a cap that none of them writes. -/
theorem tallyWindowReconciles : Obligations.TallyWindowReconciles := by
  intro s m hready
  obtain ⟨u, hu, ⟨hframe, hcap⟩, l, n, c, b, q, htally, hup, hdown⟩ := exec_tallyWindowEnd_ready s m hready
  rw [State.reconcile_tally] at htally
  have hgross := u.grossAllowance_by_step
  rw [show u.capWatts = s.capWatts from hcap] at hgross
  obtain ⟨h0, h1, h2⟩ := hgross
  refine ⟨_, hu, ?debt, ?unpred, ?lastM, ?window, ?debtClear, h0, h1, h2, ?step, ?time, ?frame⟩
  case step => simpa only [State.nextWindow, htally] using ⟨hup, hdown⟩
  case time => exact congrArg (fun v : State => v.clock.time) hframe
  case frame =>
    rw [State.nextWindow, hframe]
    rfl
  all_goals simp only [State.nextWindow, htally]

end Sys2Proof.Machine
end

section
/-!
The rollback count (R517 to R519): the check of FUSE.ROLLBACK, and the boot ROM's refusal of a bundle older than the fused count. The boot
ROM compares with the count as it stands after the bundle was read, and the reads leave the lockhouse and the package alone.
-/
namespace Sys2Proof.Machine

/-! ### The check of FUSE.ROLLBACK -/

theorem exec_fuseRollback_answers (s : State) (v : Word) (h : s.answers = true) :
    exec (.fuseRollback v) s = .next (s.writeRollback v).1 :=
  s.access_answers (.fuseRollback v) (fun t => (t.writeRollback v).1) h

theorem State.writeRollback_full (s : State) (v : Word) (h : 128 ≤ s.lock.fuses.rollback) :
    s.writeRollback v = s.refuse .fuse 0x100 .locked :=
  if_pos h

theorem State.writeRollback_unfit (s : State) (v : Word) (h : s.lock.fuses.rollback < 128)
    (hv : v.field 0 8 ≠ s.lock.fuses.rollback + 1 ∨ s.lock.securityVersion < v.field 0 8) :
    s.writeRollback v = s.refuse .fuse 0x100 .auth := by
  rw [State.writeRollback, if_neg (by omega), if_pos hv]

theorem State.writeRollback_burns (s : State) (v : Word) (h : s.lock.fuses.rollback < 128)
    (hv : v.field 0 8 = s.lock.fuses.rollback + 1) (hle : v.field 0 8 ≤ s.lock.securityVersion) :
    s.writeRollback v =
      ok { s with lock := { s.lock with fuses := { s.lock.fuses with rollback := s.lock.fuses.rollback + 1 } } } := by
  rw [State.writeRollback, if_neg (by omega), if_neg (by omega)]

/-! ### The boot ROM reads a bundle -/

theorem State.readBundle_mem (s : State) (addr len : Nat) : MemStep s (s.readBundle addr len).1 :=
  (s.hostRead_mem _ _).trans (State.hostRead_mem _ _ _)

theorem State.bundleImages_mem (s : State) (addr : Nat) (h : FwHead) : MemStep s (s.bundleImages addr h).1 :=
  List.foldlRecOn h.images _ (motive := fun a : State × Bool => MemStep s a.1) (.refl s)
    fun _ ha _ _ => ha.trans (State.hostRead_mem _ _ _)

/-- The state once the boot ROM has read header and images of a bundle, and whether each image matches its digest (R517, orders 4 and 5). -/
def State.checkedBundle (s : State) (b : Bundle) : State × Bool :=
  (s.readBundle b.addr b.length).1.bundleImages b.addr (s.readBundle b.addr b.length).2

theorem State.checkedBundle_mem (s : State) (b : Bundle) : MemStep s (s.checkedBundle b).1 :=
  (s.readBundle_mem _ _).trans (State.bundleImages_mem _ _ _)

/-! ### The boot ROM refuses a bundle -/

/-- No code is zero, the status of an access without fault (R41, R549). -/
theorem code_num_ne_zero (c : Code) : c.num ≠ 0 := by
  cases c <;> decide

/-- A bundle older than the fused count has a fault, whatever the checks before that of the count find (R519). -/
theorem State.bundleFault_of_older (s : State) (h : FwHead) (len : Nat) (imagesOk : Bool)
    (hold : h.securityVersion < s.lock.fuses.rollback) : ∃ c, s.bundleFault h len imagesOk = some c := by
  unfold State.bundleFault
  split_ifs with hlen hsig hform hcount
  · exact ⟨_, rfl⟩
  · exact ⟨_, rfl⟩
  · exact ⟨_, rfl⟩
  · exact ⟨_, rfl⟩
  · exact absurd (.inl hold) hcount

/-- A bundle with a fault leaves the boot ROM waiting: beyond what the reads of the bundle move, only the last code is set (R518). -/
theorem exec_bootDoorbell_fault (s : State) (b : Bundle) (c : Code) (hp : s.pkg.phase = .starting)
    (hc : (s.checkedBundle b).1.bundleFault (s.readBundle b.addr b.length).2 b.length (s.checkedBundle b).2 = some c) :
    exec (.bootDoorbell b) s =
      .next { (s.checkedBundle b).1 with lock := { (s.checkedBundle b).1.lock with lastCode := c.num } } := by
  change execBootDoorbell b s = _
  rw [State.checkedBundle] at hc
  rw [execBootDoorbell, if_neg (by simp [hp])]
  simp only [hc, State.checkedBundle]

/-- Settles O10: a write of FUSE.ROLLBACK is one of the three cases of its check; reading a bundle moves neither the fused count nor the
phase, so that the check of the count finds an older bundle at fault. -/
theorem rollbackBurnsOneStep : Obligations.RollbackBurnsOneStep := by
  intro s v
  refine ⟨fun hs hlt hv hle => ?_, fun hs hlt hv => ?_, fun hs hfull => ?_, fun b hp hold => ?_⟩
  · exact ⟨_, by rw [exec_fuseRollback_answers s v hs, s.writeRollback_burns v hlt hv hle, ok], rfl, rfl⟩
  · exact refused_of_exec_refuse (by rw [exec_fuseRollback_answers s v hs, s.writeRollback_unfit v hlt hv])
  · exact refused_of_exec_refuse (by rw [exec_fuseRollback_answers s v hs, s.writeRollback_full v hfull])
  · have hm := s.checkedBundle_mem b
    obtain ⟨c, hc⟩ := (s.checkedBundle b).1.bundleFault_of_older (s.readBundle b.addr b.length).2 b.length (s.checkedBundle b).2
      (by rwa [hm.lock])
    exact ⟨_, exec_bootDoorbell_fault s b c hp hc, by rw [hm.pkg, hp], code_num_ne_zero c, by rw [hm.lock]⟩

end Sys2Proof.Machine
end

section
/-!
The partition size (R558): the check of SYS.PART_SIZE, the stops that keep it in hub 0's mark cells, and the start that brings it into force.
Every stop goes through `State.dark`, and every start through `State.begin`, so what these two do to the register is said once.
-/
namespace Sys2Proof.Machine

/-! ### The check of SYS.PART_SIZE -/

theorem exec_partSize_answers (s : State) (v : Word) (h : s.answers = true) : exec (.partSize v) s = .next (s.writePartSize v).1 :=
  s.access_answers (.partSize v) (fun t => (t.writePartSize v).1) h

theorem State.writePartSize_outside (s : State) (v : Word) (h : v.field 0 4 = 0 ∨ 8 < v.field 0 4) :
    s.writePartSize v = s.refuse .sys 0x120 .length :=
  if_pos h

theorem State.writePartSize_busy (s : State) (v : Word) (hlo : 1 ≤ v.field 0 4) (hhi : v.field 0 4 ≤ 8) (hr : s.pkg.role ≠ 0) :
    s.writePartSize v = s.refuse .sys 0x120 .busy := by
  rw [State.writePartSize, if_neg (by omega), if_pos hr]

theorem State.writePartSize_stores (s : State) (v : Word) (hlo : 1 ≤ v.field 0 4) (hhi : v.field 0 4 ≤ 8) (hr : s.pkg.role = 0) :
    s.writePartSize v = s.storeReg .sys 0x120 v := by
  rw [State.writePartSize, if_neg (by omega), if_neg (not_not_intro hr)]

/-- Storing a register of one RW field at bit 0 sets that field to the write's, and nothing else moves (R11). -/
theorem State.storeReg_lowField (s : State) (p : Page) (off n r : Nat) (v : Word) (h : regFields p off = some [⟨0, n, .rw, r⟩])
    (hn : 0 + n ≤ 64) :
    OnlyRegs s (s.storeReg p off v).1 [p.base + off] ∧ ((s.storeReg p off v).1.reg p off).field 0 n = v.field 0 n := by
  obtain ⟨hregs, hval⟩ := s.storeReg_only p off v _ h
  refine ⟨hregs, ?_⟩
  rw [hval, fieldsWrite, List.foldl_cons, List.foldl_nil, fieldWrite, Word.field_setField _ _ _ _ hn, Word.field_mod]

/-- SYS.PART_SIZE has one field, [3:0], which resets to 4. -/
theorem regFields_partSize : regFields .sys 0x120 = some [⟨0, 4, .rw, 4⟩] := by decide

/-! ### A stop keeps the register and the size in force -/

/-- SYS.PART_SIZE and the partition size in force are those of `s`. -/
structure State.KeepsPartSize (s t : State) : Prop where
  reg : t.reg .sys 0x120 = s.reg .sys 0x120
  gib : t.pkg.partGib = s.pkg.partGib

/-- Of the register file, the package without clocks keeps SYS.PART_SIZE (R558). -/
theorem State.dark_keepsPartSize (s : State) (ph : Phase) : s.KeepsPartSize (s.dark ph) :=
  ⟨tget_tput_self _ _ _ _, rfl⟩

/-- It does so whether or not the marks were written before (R566). -/
theorem State.darkMarked_keepsPartSize (s : State) (c : Prop) [Decidable c] (ph : Phase) :
    s.KeepsPartSize ((if c then s.writeMarks else s).dark ph) := by
  split
  · have hdark := s.writeMarks.dark_keepsPartSize ph
    exact ⟨hdark.reg, hdark.gib⟩
  · exact s.dark_keepsPartSize ph

theorem exec_rstFall_keepsPartSize (s : State) (b : Bool) (h : s.pkg.phase ∉ [.off, .dormant, .tripped]) :
    ∃ t, exec (.rstFall b) s = .next t ∧ s.KeepsPartSize t := by
  have hdark := s.darkMarked_keepsPartSize (s.pkg.phase = .powerFail ∧ b = true) .inReset
  change ∃ t, execRstFall b s = .next t ∧ _
  unfold execRstFall
  split
  next hp => simp [hp] at h
  next hp => simp [hp] at h
  next hp => simp [hp] at h
  next => exact ⟨_, rfl, hdark.reg, hdark.gib⟩

theorem exec_railsRemoved_keepsPartSize (s : State) (h : s.pkg.phase = .sleepAck) :
    ∃ t, exec (.railsRemoved true) s = .next t ∧ s.KeepsPartSize t := by
  have hdark := s.dark_keepsPartSize .dormant
  refine ⟨_, if_pos ⟨h, rfl⟩, ?_⟩
  split <;> exact ⟨hdark.reg, hdark.gib⟩

theorem exec_railLoss_keepsPartSize (s : State) : ∃ t, exec (.railLoss true) s = .next t ∧ s.KeepsPartSize t := by
  have hdark := s.darkMarked_keepsPartSize (s.pkg.phase = .powerFail) .off
  exact ⟨_, if_neg (by simp), hdark.reg, hdark.gib⟩

/-! ### A start takes the register's value -/

/-- Training a module touches neither the register file nor the package's settings (R407 to R409). -/
theorem State.trainModule_regs_pkg (s : State) (t : Training) :
    ((s.trainModule t).regs, (s.trainModule t).pkg) = (s.regs, s.pkg) := by
  unfold State.trainModule
  extract_lets x tx rx fits s1
  split
  · rfl
  · split <;> rfl

theorem State.trainModules_regs_pkg (s : State) (l : List Training) :
    ((s.trainModules l).regs, (s.trainModules l).pkg) = (s.regs, s.pkg) :=
  foldl_keeps (fun t : State => (t.regs, t.pkg)) _ _ _ State.trainModule_regs_pkg

theorem State.renewKeys_regs_pkg (s : State) (l : List Nat) :
    ((l.foldl (fun (t : State) k => t.renewKey k) s).drawNonce.regs, (l.foldl (fun (t : State) k => t.renewKey k) s).drawNonce.pkg) =
      (s.regs, s.pkg) :=
  foldl_keeps (fun t : State => (t.regs, t.pkg)) _ l s fun _ _ => rfl

theorem State.setWins_regs_pkg (s : State) (f : Nat → Window) (l : List Nat) :
    ((l.foldl (fun (t : State) w => t.setWin w (f w)) s).regs, (l.foldl (fun (t : State) w => t.setWin w (f w)) s).pkg) = (s.regs, s.pkg) :=
  foldl_keeps (fun t : State => (t.regs, t.pkg)) _ l s fun _ _ => rfl

/-- The start takes the size in force from the register, and what it does after that to windows, keys and modules touches neither (R558). -/
theorem State.begin_partSize (s : State) (wake rc sound : Bool) (l : List Training) :
    (s.begin wake rc sound l).pkg.partGib = (s.reg .sys 0x120).field 0 4 ∧
      (s.begin wake rc sound l).reg .sys 0x120 = s.reg .sys 0x120 := by
  obtain ⟨hregs, hpkg⟩ := Prod.mk.inj
    (((State.trainModules_regs_pkg _ l).trans (State.renewKeys_regs_pkg _ _)).trans (State.setWins_regs_pkg _ _ _))
  have hdark := (s.dark_keepsPartSize .starting).reg
  unfold State.begin
  exact ⟨by rw [hpkg, ← hdark], (State.reg_congr hregs _ _).trans hdark⟩

/-- START after a low of 1 µs begins a start (R562). -/
theorem exec_start_begins (s : State) (ns : Nat) (rc sound : Bool) (l : List Training)
    (hp : s.pkg.phase ∈ [.inReset, .off, .dormant]) (hlow : s.pkg.rstLow = true) (hns : 1000 ≤ ns) :
    exec (.start ns rc sound l) s = .next (s.begin (s.pkg.phase == .dormant && s.pkg.pwrreqLow) rc sound l) :=
  (if_pos ⟨hp, hlow⟩).trans (if_pos hns)

/-- Settles O9: a write of SYS.PART_SIZE is one of the three cases of its check, every stop keeps the register through `State.dark`, and a
start reads it there. -/
theorem partSizeWaitsForTheNextStart : Obligations.PartSizeWaitsForTheNextStart := by
  intro s v ns b e l
  refine ⟨fun hs hlo hhi hr => ?stores, fun hs hv => ?outside, fun hs hlo hhi hr => ?busy, fun hp => ?reset, fun hp => ?dormant, ?loss,
    fun hp hlow hns => ?start⟩
  case stores =>
    refine ⟨_, exec_partSize_answers s v hs, ?_⟩
    rw [s.writePartSize_stores v hlo hhi hr]
    exact s.storeReg_lowField .sys 0x120 4 4 v regFields_partSize (by decide)
  case outside => exact refused_of_exec_refuse (by rw [exec_partSize_answers s v hs, s.writePartSize_outside v hv])
  case busy => exact refused_of_exec_refuse (by rw [exec_partSize_answers s v hs, s.writePartSize_busy v hlo hhi hr])
  case reset =>
    obtain ⟨t, ht, hkeeps⟩ := exec_rstFall_keepsPartSize s b hp
    exact ⟨t, ht, hkeeps.reg, hkeeps.gib⟩
  case dormant =>
    obtain ⟨t, ht, hkeeps⟩ := exec_railsRemoved_keepsPartSize s hp
    exact ⟨t, ht, hkeeps.reg, hkeeps.gib⟩
  case loss =>
    obtain ⟨t, ht, hkeeps⟩ := exec_railLoss_keepsPartSize s
    exact ⟨t, ht, hkeeps.reg, hkeeps.gib⟩
  case start => exact ⟨_, exec_start_begins s ns b e l hp hlow hns, s.begin_partSize _ b e l⟩

end Sys2Proof.Machine
end

section
/-!
The steward's interrupts (R559): what a raised interrupt does in each state of the queue, and a read of STEW.INTR_FIFO, from the header of its
unit through the register's view to the answer.
-/
namespace Sys2Proof.Machine

/-! ### A raised interrupt -/

/-- The register of STEW that routes the group of an identity. -/
def State.intrRoute (s : State) (id : BitVec 16) : Word := s.reg .stew (0x100 + 8 * (id.toNat / 0x1000 - 1))

/-- The group's interrupt on its target hart: the hart and the number that the route gives. -/
def State.intrTarget (s : State) (id : BitVec 16) : Nat × Nat := ((s.intrRoute id).field 48 4, (s.intrRoute id).field 0 11)

/-- The interrupts raised on the harts, that of the identity's group among them. -/
def State.raisedBy (s : State) (id : BitVec 16) : List (Nat × Nat) :=
  if s.intrTarget id ∈ s.stew.raised then s.stew.raised else s.stew.raised ++ [s.intrTarget id]

theorem State.intrTarget_mem_raisedBy (s : State) (id : BitVec 16) : s.intrTarget id ∈ s.raisedBy id := by
  unfold State.raisedBy
  split
  · assumption
  · simp

theorem State.raiseIntr_disabled (s : State) (id : BitVec 16) (h : (s.intrRoute id).bit 63 = false) : s.raiseIntr id.toNat = s :=
  if_pos h

section Enabled
variable (s : State) (id : BitVec 16) (h : (s.intrRoute id).bit 63 = true)
include h

/-- With the group enabled, the queue decides. -/
theorem State.raiseIntr_enabled :
    s.raiseIntr id.toNat =
      if id ∈ s.stew.fifo then { s with stew := { s.stew with raised := s.raisedBy id } }
      else if s.stew.fifo.length < Config.intrQueue then { s with stew := { fifo := s.stew.fifo ++ [id], raised := s.raisedBy id } }
      else ({ s with stew := { s.stew with raised := s.raisedBy id } } : State).bump .stew 0x148 1 := by
  have hon : ¬ (s.intrRoute id).bit 63 = false := by simp [h]
  have hid : BitVec.ofNat 16 id.toNat = id := by simp
  exact (if_neg hon).trans (by rw [hid]; rfl)

theorem State.raiseIntr_again (hmem : id ∈ s.stew.fifo) :
    s.raiseIntr id.toNat = { s with stew := { s.stew with raised := s.raisedBy id } } := by
  rw [s.raiseIntr_enabled id h, if_pos hmem]

theorem State.raiseIntr_enters (hmem : id ∉ s.stew.fifo) (hroom : s.stew.fifo.length < 256) :
    s.raiseIntr id.toNat = { s with stew := { fifo := s.stew.fifo ++ [id], raised := s.raisedBy id } } := by
  rw [s.raiseIntr_enabled id h, if_neg hmem, if_pos (show s.stew.fifo.length < Config.intrQueue from hroom)]

theorem State.raiseIntr_lost (hmem : id ∉ s.stew.fifo) (hfull : 256 ≤ s.stew.fifo.length) :
    s.raiseIntr id.toNat = ({ s with stew := { s.stew with raised := s.raisedBy id } } : State).bump .stew 0x148 1 := by
  rw [s.raiseIntr_enabled id h, if_neg hmem, if_neg (show ¬ s.stew.fifo.length < Config.intrQueue from not_lt.mpr hfull)]

end Enabled

theorem exec_intr (s : State) (m : HubId) (id : BitVec 16) (h : m.val ∉ s.pkg.hubFaulty) :
    exec (.intr m id) s = .next (s.raiseIntr id.toNat) :=
  if_neg h

/-! ### The unit of an RD8 -/

section Rd8
variable (tag a : Nat) (ht : tag < 2 ^ 16) (ha : a < 2 ^ 48)
include ht ha

/-- An RD8's header is its kind, its tag in bytes 2 and 3 and its address in bytes 8 to 13 (R413, R414). -/
theorem UnitHead.make_rd8_bytes (o n : Nat) :
    (UnitHead.make 0x01 tag a).bytes o n = (1 + 2 ^ 16 * tag + 2 ^ 64 * a) / 2 ^ (8 * o) % 2 ^ (8 * n) := by
  have hheader : (UnitHead.make 0x01 tag a).header = BitVec.ofNat 512 (1 + 2 ^ 16 * (tag % 2 ^ 16) + 2 ^ 64 * (a % 2 ^ 48)) := by
    simp [UnitHead.make]
  have hshort : 1 + 2 ^ 16 * tag + 2 ^ 64 * a < 2 ^ 112 := by omega
  have hfits (w : Nat) (hw : 112 ≤ w) : (BitVec.ofNat w (1 + 2 ^ 16 * tag + 2 ^ 64 * a)).toNat = 1 + 2 ^ 16 * tag + 2 ^ 64 * a := by
    rw [BitVec.toNat_ofNat, Nat.mod_eq_of_lt (hshort.trans_le (Nat.pow_le_pow_right Nat.two_pos hw))]
  rw [UnitHead.bytes, hheader, Nat.mod_eq_of_lt ht, Nat.mod_eq_of_lt ha, hfits 512 (by decide)]

theorem UnitHead.make_rd8_tag : (UnitHead.make 0x01 tag a).tag = tag := by
  rw [UnitHead.tag, make_rd8_bytes tag a ht ha]
  omega

theorem UnitHead.make_rd8_addr : (UnitHead.make 0x01 tag a).addr = a := by
  rw [UnitHead.addr, make_rd8_bytes tag a ht ha]
  omega

theorem UnitHead.make_rd8_reservedSet : (UnitHead.make 0x01 tag a).reservedSet = false := by
  simp only [UnitHead.reservedSet, make_rd8_bytes tag a ht ha, Bool.or_eq_false_iff, bne_eq_false_iff_eq]
  refine ⟨⟨⟨?_, ?_⟩, ?_⟩, ?_⟩ <;> omega

end Rd8

/-- A request with a credit, a tag the hub can answer and no reserved byte set is carried out and answered (R413 to R415). -/
theorem State.request_answered (s : State) (i : Instr) (u : UnitHead) (f : Nat → State → State × Answer) (hs : s.answers = true)
    (hc : 0 < (s.umod (s.moduleOf u.addr)).npCredits) (ht : u.tag ≤ 255) (hr : u.reservedSet = false) :
    s.request i u f = .next ((f (s.moduleOf u.addr) (s.lessCredit (s.moduleOf u.addr))).1.answer (s.moduleOf u.addr) u.tag
      (f (s.moduleOf u.addr) (s.lessCredit (s.moduleOf u.addr))).2) := by
  have hcredit : s.takeCredit (s.moduleOf u.addr) u.addr false = (s.lessCredit (s.moduleOf u.addr), true) := if_neg (by simp; omega)
  rw [State.request, State.access_answers _ _ _ hs]
  simp [hcredit, hr, Nat.not_lt.mpr ht]

/-! ### What INTR_FIFO shows -/

/-- INTR_FIFO with identity `i` at the front of the queue. -/
def intrEntry (i : BitVec 16) : Word := Word.put 63 1 1 ||| Word.put 0 16 i.toNat

theorem intrEntry_toNat (i : BitVec 16) : (intrEntry i).toNat = 2 ^ 63 + i.toNat := by
  have hi : i.toNat < 2 ^ 63 := by omega
  have hput : (Word.put 0 16 i.toNat).toNat = i.toNat := by
    simp [Word.put]
    omega
  have hadd := Nat.two_pow_add_eq_or_of_lt hi 1
  rw [Nat.mul_one] at hadd
  rw [intrEntry, BitVec.toNat_or, hput, hadd]
  rfl

/-- The fields of INTR_FIFO. -/
def intrFifoFields : List Field := [⟨63, 1, .rc, 0⟩, ⟨0, 16, .rc, 0⟩]

/-- INTR_FIFO has no bits beside those of its two fields. -/
theorem fieldsRead_intrEntry (i : BitVec 16) : fieldsRead intrFifoFields (intrEntry i) = intrEntry i := by
  have hvalid : (intrEntry i).field 63 1 = 1 := by
    rw [Word.field, intrEntry_toNat, Nat.shiftRight_eq_div_pow]
    omega
  have hid : (intrEntry i).field 0 16 = i.toNat := by
    rw [Word.field, intrEntry_toNat, Nat.shiftRight_eq_div_pow]
    omega
  simp only [fieldsRead, intrFifoFields, List.foldl_cons, List.foldl_nil, reduceCtorEq, if_false, hvalid, hid]
  rfl

/-- The word a read of INTR_FIFO returns: the oldest identity, or zero when the queue is empty. -/
def State.intrFifoWord (s : State) : Word :=
  match s.stew.fifo with
  | i :: _ => intrEntry i
  | [] => 0

theorem State.regView_intrFifo (s : State) : s.regView .stew 0x140 intrFifoFields = s.intrFifoWord := by
  have hview : s.regView .stew 0x140 intrFifoFields = fieldsRead intrFifoFields s.intrFifoWord := rfl
  rw [hview, State.intrFifoWord]
  split
  · exact fieldsRead_intrEntry _
  · rfl

/-- `s` after its INTR_FIFO was read: the oldest identity is gone. -/
def State.popIntr (s : State) : State := { s with stew := { s.stew with fifo := s.stew.fifo.tail } }

/-- An 8-byte read of INTR_FIFO takes the oldest identity (R11, R559). -/
theorem State.busRead_intrFifo (s : State) (m : Nat) : s.busRead m (Page.stew.base + 0x140) 8 = (s.popIntr, 0, s.intrFifoWord) := by
  have hfault : regAccessFault (Page.stew.base + 0x140) 8 = none := by decide
  have htarget : target (Page.stew.base + 0x140) = .reg .stew 0x140 := by decide
  have hfields : regFields .stew 0x140 = some intrFifoFields := by decide
  simp only [State.busRead, hfault, htarget, hfields, Option.getD_some, State.readReg, State.regView_intrFifo, and_self, if_true,
    List.drop_one, State.popIntr]

/-- An RD8 of INTR_FIFO takes a credit and the oldest identity, and answers with the word of INTR_FIFO (R414, R559). -/
theorem State.request_intrFifo (s : State) (i : Instr) (u : UnitHead) (hs : s.answers = true) (hc : 0 < (s.umod 0).npCredits)
    (haddr : u.addr = Page.stew.base + 0x140) (ht : u.tag ≤ 255) (hr : u.reservedSet = false) :
    s.request i u (fun m t => ((t.busRead m u.addr 8).1,
        { status := (t.busRead m u.addr 8).2.1, data := leBytes 8 (t.busRead m u.addr 8).2.2.toNat })) =
      .next ((s.lessCredit 0).popIntr.answer 0 u.tag { data := leBytes 8 s.intrFifoWord.toNat }) := by
  have hmodule : s.moduleOf u.addr = 0 := by rw [haddr]; rfl
  have hword : (s.lessCredit 0).intrFifoWord = s.intrFifoWord := rfl
  rw [s.request_answered i u _ hs (by rwa [hmodule]) ht hr, hmodule]
  simp only [haddr, State.busRead_intrFifo, hword]

theorem exec_intrFifoRead (s : State) (tag : Nat) (hs : s.answers = true) (hc : 0 < (s.umod 0).npCredits) (ht : tag ≤ 255) :
    exec (.intrFifoRead tag) s = .next ((s.lessCredit 0).popIntr.answer 0 tag { data := leBytes 8 s.intrFifoWord.toNat }) := by
  have htag := UnitHead.make_rd8_tag tag (Page.stew.base + 0x140) (by omega) (by decide)
  have hread := s.request_intrFifo (.intrFifoRead tag) (UnitHead.make 0x01 tag (Page.stew.base + 0x140)) hs hc
    (UnitHead.make_rd8_addr tag _ (by omega) (by decide)) (by rwa [htag])
    (UnitHead.make_rd8_reservedSet tag _ (by omega) (by decide))
  rw [htag] at hread
  exact hread

theorem State.intrFifoWord_cons (s : State) (i : BitVec 16) (rest : List (BitVec 16)) (h : s.stew.fifo = i :: rest) :
    s.intrFifoWord.toNat = 2 ^ 63 + i.toNat := by
  rw [State.intrFifoWord, h]
  exact intrEntry_toNat i

theorem State.intrFifoWord_nil (s : State) (h : s.stew.fifo = []) : s.intrFifoWord.toNat = 0 := by
  rw [State.intrFifoWord, h]
  rfl

/-- Settles O12: a raised interrupt is one of the four cases of its route and its queue, and a read answers with the word of INTR_FIFO as it
stood before. -/
theorem interruptsQueueAndAreRead : Obligations.InterruptsQueueAndAreRead := by
  rintro s m id tag _ rfl
  refine ⟨fun hm hon hmem hroom => ?enters, fun hm hon hmem => ?again, fun hm hon hmem hfull => ?lost, fun hm hoff => ?disabled,
    fun hs hc ht => ?read⟩
  case enters =>
    exact ⟨_, (exec_intr s m id hm).trans (congrArg _ (s.raiseIntr_enters id hon hmem hroom)), rfl, s.intrTarget_mem_raisedBy id, rfl⟩
  case again => exact ⟨_, (exec_intr s m id hm).trans (congrArg _ (s.raiseIntr_again id hon hmem)), rfl, rfl⟩
  case lost =>
    exact ⟨_, (exec_intr s m id hm).trans (congrArg _ (s.raiseIntr_lost id hon hmem hfull)), rfl, State.reg_setReg_self ..⟩
  case disabled => rw [exec_intr s m id hm, s.raiseIntr_disabled id hoff]
  case read =>
    refine ⟨_, exec_intrFifoRead s tag hs hc ht, rfl, rfl, fun i rest h => ?_, fun h => ?_, rfl⟩
    · rw [s.intrFifoWord_cons i rest h]
      rfl
    · rw [s.intrFifoWord_nil h]
      rfl

end Sys2Proof.Machine
end

section
/-!
What a command can do to the queue and to the fuses, and the idle step: from the laws of the seal (Sys2Proof/Laws/Seal.lean) and of the commands
that move fuses (Sys2Proof/Laws/Fuses.lean).
-/
namespace Sys2Proof.Machine

/-- Every command leaves the queue, keeps fuses within their counts and restores none (R509, R519, R535). -/
theorem exec_grows {c : Instr} {s t : State} (h : exec c s = .next t) : Grows s t := by
  cases c with
  | bell _ => exact .of_seal (execBell_seal _ _ h)
  | quenchInterval _ => exact .of_seal (execQuenchInterval_seal _ _ h)
  | forwardWindow _ => exact .of_seal (execForwardWindow_seal _ _ h)
  | windowDelivery _ _ => exact .of_seal (execWindowDelivery_seal _ _ _ h)
  | runPromotion _ => exact .of_seal (execRunPromotion_seal _ _ h)
  | transposedWindow _ => exact .of_seal (execTransposedWindow_seal _ _ h)
  | microBatchUpdate _ _ _ => exact .of_seal (execMicroBatchUpdate_seal _ _ _ _ h)
  | checkpointDone _ => exact .of_seal (execCheckpointDone_seal _ _ h)
  | probeVerdict _ _ _ _ => exact .of_seal (execProbeVerdict_seal _ _ _ _ _ h)
  | standinCopyArrive _ _ _ _ _ => exact .of_seal (execStandinCopyArrive_seal _ _ _ _ _ _ h)
  | gaugeConverterPass _ _ _ _ _ => exact .of_seal (execGaugeConverterPass_seal _ _ _ _ _ _ h)
  | gaugeRunEnd _ _ => exact .of_seal (execGaugeRunEnd_seal _ _ _ h)
  | castRowGroupEnd _ => exact .of_seal (execCastRowGroupEnd_seal _ _ h)
  | castClose _ => exact .of_seal (execCastClose_seal _ _ h)
  | padParityError _ _ => exact .of_seal (execPadParityError_seal _ _ _ h)
  | storeParityError _ _ _ _ => exact .of_seal (execStoreParityError_seal _ _ _ _ _ h)
  | flitParityError _ _ _ => exact .of_seal (execFlitParityError_seal _ _ _ _ h)
  | footpathParityError _ _ => exact .of_seal (execFootpathParityError_seal _ _ _ h)
  | detourFit _ _ => exact .of_seal (execDetourFit_seal _ _ _ h)
  | mark _ => exact .of_seal (execMark_seal _ _ h)
  | barrier _ _ _ _ => exact .of_seal (execBarrier_seal _ _ _ _ _ h)
  | narrowRead _ _ _ _ _ _ => exact .of_seal (execNarrowRead_seal _ _ _ _ _ _ _ h)
  | narrowWrite _ _ _ _ _ _ => exact .of_seal (execNarrowWrite_seal _ _ _ _ _ _ _ h)
  | gatherWriteback _ _ => exact .of_seal (execGatherWriteback_seal _ _ _ h)
  | leaseRequest _ _ _ => exact .of_seal (execLeaseRequest_seal _ _ _ _ h)
  | leaseRenewal _ _ _ => exact .of_seal (execLeaseRenewal_seal _ _ _ _ h)
  | leaseRelease _ _ => exact .of_seal (execLeaseRelease_seal _ _ _ h)
  | leaseExpiry _ => exact .of_seal (execLeaseExpiry_seal _ _ h)
  | attnExchangeArrival _ => exact .of_seal (execAttnExchangeArrival_seal _ _ h)
  | kvWriteAck _ _ => exact .of_seal (execKvWriteAck_seal _ _ _ h)
  | descriptorRun _ _ => exact .of_seal (execDescriptorRun_seal _ _ _ h)
  | partialMerge _ _ => exact .of_seal (execPartialMerge_seal _ _ _ h)
  | releaseTime _ _ => exact .of_seal (execReleaseTime_seal _ _ _ h)
  | attnReq _ => exact .of_seal (execAttnReq_seal _ _ h)
  | attnRsp _ _ _ _ => exact .of_seal (execAttnRsp_seal _ _ _ _ _ h)
  | attnBusy _ _ => exact .of_seal (execAttnBusy_seal _ _ _ h)
  | leaseRenew _ _ _ => exact .of_seal (execLeaseRenew_seal _ _ _ _ h)
  | remoteRenewTimer _ => exact .of_seal (execRemoteRenewTimer_seal _ _ h)
  | remoteRefExpiry _ => exact .of_seal (execRemoteRefExpiry_seal _ _ h)
  | commonsLookup _ => exact .of_seal (execCommonsLookup_seal _ _ h)
  | commonsEvict => exact .of_seal (execCommonsEvict_seal _ h)
  | openSession _ _ _ => exact .of_seal (execOpenSession_seal _ _ _ _ h)
  | prompt _ _ _ => exact .of_seal (execPrompt_seal _ _ _ _ h)
  | generate _ _ _ => exact .of_seal (execGenerate_seal _ _ _ _ h)
  | draft _ _ _ => exact .of_seal (execDraft_seal _ _ _ _ h)
  | stop _ _ _ => exact .of_seal (execStop_seal _ _ _ _ h)
  | cancel _ _ _ => exact .of_seal (execCancel_seal _ _ _ _ h)
  | close _ _ _ => exact .of_seal (execClose_seal _ _ _ _ h)
  | adapterLoad _ _ _ => exact .of_seal (execAdapterLoad_seal _ _ _ _ h)
  | adapterVerified _ _ => exact .of_seal (execAdapterVerified_seal _ _ _ h)
  | adapterDrop _ _ _ => exact .of_seal (execAdapterDrop_seal _ _ _ _ h)
  | ingotStage _ _ _ => exact .of_seal (execIngotStage_seal _ _ _ _ h)
  | ingotStageVerified _ => exact .of_seal (execIngotStageVerified_seal _ _ h)
  | genSwitch _ _ _ => exact .of_seal (execGenSwitch_seal _ _ _ _ h)
  | migrateOut _ _ _ => exact .of_seal (execMigrateOut_seal _ _ _ _ h)
  | migrateIn _ _ _ => exact .of_seal (execMigrateIn_seal _ _ _ _ h)
  | temper _ _ _ => exact .of_seal (execTemper_seal _ _ _ _ h)
  | respRelease _ _ _ => exact .of_seal (execRespRelease_seal _ _ _ _ h)
  | respCfg _ _ _ => exact .of_seal (execRespCfg_seal _ _ _ _ h)
  | nextSeq _ _ => exact .of_seal (execNextSeq_seal _ _ _ h)
  | sysRole _ => exact .of_seal (execSysRole_seal _ _ h)
  | bellNs _ => exact .of_seal (execBellNs_seal _ _ h)
  | partSize _ => exact .of_seal (execPartSize_seal _ _ h)
  | dormantEnter _ => exact .of_seal (execDormantEnter_seal _ _ h)
  | dormancyAck => exact .of_seal (execDormancyAck_seal _ h)
  | warmReset _ => exact .of_seal (execWarmReset_seal _ _ h)
  | warmResetReady => exact execWarmResetReady_grows h
  | packLoadGo _ => exact .of_seal (execPackLoadGo_seal _ _ h)
  | packLoadClear _ => exact .of_seal (execPackLoadClear_seal _ _ h)
  | memMode _ _ => exact .of_seal (execMemMode_seal _ _ _ h)
  | patLoadGo _ _ _ => exact .of_seal (execPatLoadGo_seal _ _ _ _ h)
  | patLoadUnload _ _ => exact .of_seal (execPatLoadUnload_seal _ _ _ h)
  | loadComplete _ _ => exact .of_seal (execLoadComplete_seal _ _ _ h)
  | fenceReq _ _ => exact .of_seal (execFenceReq_seal _ _ _ h)
  | recastMould _ _ => exact .of_seal (execRecastMould_seal _ _ _ h)
  | recastAll _ _ => exact .of_seal (execRecastAll_seal _ _ _ h)
  | gaugeForce _ _ => exact .of_seal (execGaugeForce_seal _ _ _ h)
  | histSel _ _ => exact .of_seal (execHistSel_seal _ _ _ h)
  | leaseRevoke _ _ => exact .of_seal (execLeaseRevoke_seal _ _ _ h)
  | tenantBudget _ _ => exact .of_seal (execTenantBudget_seal _ _ _ h)
  | classLimit _ => exact .of_seal (execClassLimit_seal _ _ h)
  | debtClear _ => exact .of_seal (execDebtClear_seal _ _ h)
  | senseApply _ _ => exact .of_seal (execSenseApply_seal _ _ _ h)
  | senseUrgent _ _ => exact .of_seal (execSenseUrgent_seal _ _ _ h)
  | ringCfg _ _ => exact .of_seal (execRingCfg_seal _ _ _ h)
  | ringRd _ _ => exact .of_seal (execRingRd_seal _ _ _ h)
  | commonsPool _ => exact .of_seal (execCommonsPool_seal _ _ h)
  | stackStage _ _ _ => exact .of_seal (execStackStage_seal _ _ _ _ h)
  | stackInject _ _ => exact .of_seal (execStackInject_seal _ _ _ h)
  | fuseRollback _ => exact execFuseRollback_grows h
  | lockAttest _ _ => exact .of_seal (execLockAttest_seal _ _ _ h)
  | attestReportDone _ => exact .of_seal (execAttestReportDone_seal _ _ h)
  | ownerTransfer _ _ => exact execOwnerTransfer_grows h
  | pubWrite _ _ => exact execPubWrite_grows h
  | pubRevoke _ _ => exact execPubRevoke_grows h
  | debugAuth _ _ => exact execDebugAuth_grows h
  | tokenBurnDone => exact execTokenBurnDone_grows h
  | domainJoin _ _ => exact .of_seal (execDomainJoin_seal _ _ _ h)
  | domainLeave _ _ => exact .of_seal (execDomainLeave_seal _ _ _ h)
  | tmuxSelect _ _ => exact .of_seal (execTmuxSelect_seal _ _ _ h)
  | errStatusClear _ _ => exact .of_seal (execErrStatusClear_seal _ _ _ h)
  | intrFifoRead _ => exact .of_seal (execIntrFifoRead_seal _ _ h)
  | registerWrite _ _ _ => exact execRegisterWrite_grows h
  | rd8 _ => exact .of_seal (execRd8_seal _ _ h)
  | wr8 _ => exact execWr8_grows h
  | rd64 _ => exact .of_seal (execRd64_seal _ _ h)
  | wr64 _ _ => exact .of_seal (execWr64_seal _ _ _ h)
  | pw64 _ _ => exact .of_seal (execPw64_seal _ _ _ h)
  | rsp _ _ => exact .of_seal (execRsp_seal _ _ _ h)
  | rspd _ _ _ => exact .of_seal (execRspd_seal _ _ _ _ h)
  | intr _ _ => exact .of_seal (execIntr_seal _ _ _ h)
  | snoop _ _ _ => exact .of_seal (execSnoop_seal _ _ _ _ h)
  | snoopRsp _ _ _ => exact .of_seal (execSnoopRsp_seal _ _ _ _ h)
  | crd _ _ _ _ => exact .of_seal (execCrd_seal _ _ _ _ _ h)
  | xfer _ _ _ _ _ => exact .of_seal (execXfer_seal _ _ _ _ _ _ h)
  | completionTimeout _ _ => exact .of_seal (execCompletionTimeout_seal _ _ _ h)
  | ucieRetrain _ _ _ _ _ => exact .of_seal (execUcieRetrain_seal _ _ _ _ _ _ h)
  | bootDoorbell _ => exact execBootDoorbell_grows h
  | kyrokFlitReceive _ => exact .of_seal (execKyrokFlitReceive_seal _ _ h)
  | kyrokCtrlFlit _ => exact .of_seal (execKyrokCtrlFlit_seal _ _ h)
  | ctrlFlitSend _ => exact .of_seal (execCtrlFlitSend_seal _ _ h)
  | laneRetire _ _ => exact .of_seal (execLaneRetire_seal _ _ _ h)
  | kyrokForward _ _ _ _ => exact .of_seal (execKyrokForward_seal _ _ _ _ _ h)
  | kyrokAuthDiscard _ _ => exact .of_seal (execKyrokAuthDiscard_seal _ _ _ h)
  | joinHello _ _ => exact .of_seal (execJoinHello_seal _ _ _ h)
  | joinReply _ _ => exact .of_seal (execJoinReply_seal _ _ _ h)
  | domain newMember leaver newKey => exact .of_seal (execDomain_seal (m := newMember) (k := leaver) (n := newKey) h)
  | joinTimeout => exact .of_seal (execJoinTimeout_seal _ h)
  | keyEpochSwitch => exact .of_seal (execKeyEpochSwitch_seal _ h)
  | kyrokBarrier _ _ _ => exact .of_seal (execKyrokBarrier_seal _ _ _ _ h)
  | rreadReq _ _ _ _ _ _ => exact .of_seal (execRreadReq_seal _ _ _ _ _ _ _ h)
  | rreadRsp _ _ _ _ _ _ => exact .of_seal (execRreadRsp_seal _ _ _ _ _ _ _ h)
  | rreadTimeout _ => exact .of_seal (execRreadTimeout_seal _ _ h)
  | migManifest _ => exact .of_seal (execMigManifest_seal _ _ h)
  | migConfirm _ _ => exact .of_seal (execMigConfirm_seal _ _ _ h)
  | migAbort _ _ _ => exact .of_seal (execMigAbort_seal _ _ _ _ h)
  | migrationTimeout _ => exact .of_seal (execMigrationTimeout_seal _ _ h)
  | blankPage _ _ => exact .of_seal (execBlankPage_seal _ _ _ h)
  | sweepLine _ => exact .of_seal (execSweepLine_seal _ _ h)
  | sweepLapAlarm _ => exact .of_seal (execSweepLapAlarm_seal _ _ h)
  | stackFault _ => exact .of_seal (execStackFault_seal _ _ h)
  | hubFault _ => exact .of_seal (execHubFault_seal _ _ h)
  | coreFetchPoison _ _ _ _ => exact .of_seal (execCoreFetchPoison_seal _ _ _ _ _ h)
  | dmaPoisonHalt _ _ _ _ _ => exact .of_seal (execDmaPoisonHalt_seal _ _ _ _ _ _ h)
  | tallyWindowEnd _ => exact .of_seal (execTallyWindowEnd_seal _ _ h)
  | sensorConversion _ _ => exact .of_seal (execSensorConversion_seal _ _ _ h)
  | urgentResult _ _ => exact execUrgentResult_grows h
  | timeAlign _ _ => exact .of_seal (execTimeAlign_seal _ _ _ h)
  | serviceStateEval => exact .of_seal (execServiceStateEval_seal _ h)
  | pfailWarning _ => exact .of_seal (execPfailWarning_seal _ _ h)
  | rstFall _ => exact execRstFall_grows h
  | start _ _ _ _ => exact execStart_grows h
  | railLoss _ => exact execRailLoss_grows h
  | railsRemoved _ => exact execRailsRemoved_grows h
  | wake _ => exact .of_seal (execWake_seal _ _ h)
  | slotTableParityError _ => exact .of_seal (execSlotTableParityError_seal _ _ h)
  | kyrokPortTrained _ _ _ _ => exact .of_seal (execKyrokPortTrained_seal _ _ _ _ _ h)

theorem State.idle_seal (s : State) : s.idle.seal = s.seal := by
  unfold State.idle
  split <;> simp

/-- A step keeps the fuses within their counts and restores none: it idles, or its command runs with the queue's rest. -/
theorem step_keeps_fuses {s t : State} (hs : s.fusesOk) (h : step s = .next t) : t.fusesOk ∧ s.lock.fuses.keeps t.lock.fuses := by
  unfold step at h
  split at h
  next =>
    obtain rfl := Host.Outcome.next.inj h
    exact (Grows.of_seal s.idle_seal).2 hs
  next c rest _ => exact (exec_grows h).2 hs

/-- Settles O3: no command moves the queue it was taken from. -/
theorem commandsLeaveTheQueue : Obligations.CommandsLeaveTheQueue :=
  fun _ _ _ h => (exec_grows h).1

/-- Settles O4: every command and the idle step keep the fuses within their counts and restore none. -/
theorem fusesStayWithinTheirCounts : Obligations.FusesStayWithinTheirCounts :=
  fun _ _ hs h => step_keeps_fuses hs h

end Sys2Proof.Machine
end

section
/-!
Stack memory: a run of writes byte by byte, and a line read back under the key it was written under (R461).
-/
namespace Sys2Proof.Machine

/-- A run of writes, byte by byte. -/
theorem Memory.get_setBytes (m : Memory) (a b : Nat) (bs : List Byte) :
    (m.setBytes a bs).get b = if b < a then m.get b else (bs[b - a]?).getD (m.get b) := by
  split
  next h => exact Memory.get_setBytes_out m a b bs (.inl h)
  next h =>
    by_cases hin : b - a < bs.length
    · have := Memory.get_setBytes_in m a (b - a) bs hin
      rw [show a + (b - a) = b by omega] at this
      simp [this, hin]
    · rw [Memory.get_setBytes_out m a b bs (by omega), List.getElem?_eq_none (by omega), Option.getD_none]

/-- What was written is what the same range reads. -/
theorem Memory.getBytes_setBytes (m : Memory) (a : Nat) (bs : List Byte) : (m.setBytes a bs).getBytes a bs.length = bs := by
  refine List.ext_getElem (by simp [Memory.getBytes]) fun i hi hj => ?_
  simp [Memory.getBytes, Memory.get_setBytes_in m a i bs hj]

/-- The code of a line written last. -/
def State.writtenCode (s : State) (key : Nat) (poison : Bool) : LineCode :=
  { marker := if poison then .poison else .clean, flips := 0, key := key, version := s.keyVersion key }

/-- A line of a stack in service outside unclean pages takes its bytes and a fresh code (R461). -/
theorem State.writeLine_open (s : State) (l key : Nat) (bs : List (BitVec 8)) (poison : Bool)
    (hout : (s.stack (l / 2147483648)).out = false) (hclean : s.unclean (pageOf (64 * l)) = false) :
    s.writeLine l key bs poison =
      ({ s with hbm := { s.hbm with mem := Memory.setBytes s.hbm.mem (64 * l) (bs.take 64) } } : State).setLineCode l
        (s.writtenCode key poison) := by
  simp [State.writeLine, hout, hclean, State.writtenCode]

@[simp] theorem State.lineCode_setLineCode_self (s : State) (l : Nat) (c : LineCode) : (s.setLineCode l c).lineCode l = c :=
  tget_tput_self ..

theorem State.lineCode_setLineCode_ne (s : State) {l j : Nat} (c : LineCode) (h : j ≠ l) : (s.setLineCode l c).lineCode j = s.lineCode j :=
  tget_tput_ne _ _ _ h

theorem LineCode.errors_of_no_flips {c : LineCode} (h : c.flips = 0) : c.errors = 0 := by
  simp [LineCode.errors, h]

/-- A line without symbols in error and without a marker decodes as data. -/
theorem LineCode.decode_clean {c : LineCode} (hf : c.flips = 0) (hm : c.marker = .clean) (d : Nat) : c.decode d = .data := by
  simp [LineCode.decode, LineCode.errors_of_no_flips hf, hm]

/-- A read of a sound line under the key and version that it was written under gives its bytes (R455, R457). -/
theorem State.readLine_sound (s : State) (l key : Nat) (hout : (s.stack (l / 2147483648)).out = false)
    (hclean : s.unclean (pageOf (64 * l)) = false) (hf : (s.lineCode l).flips = 0) (hm : (s.lineCode l).marker = .clean)
    (hk : (s.lineCode l).key = key) (hv : (s.lineCode l).version = s.keyVersion key) :
    s.readLine l key = (s, ⟨Memory.getBytes s.hbm.mem (64 * l) 64, false⟩) := by
  simp [State.readLine, hout, hclean, LineCode.decode_clean hf hm, LineCode.errors_of_no_flips hf, State.decrypted, hk, hv]

/-- A line reads back what was last written to it. -/
theorem State.readLine_writeLine (s : State) (l key : Nat) (bs : List (BitVec 8)) (hlen : bs.length = 64)
    (hout : (s.stack (l / 2147483648)).out = false) (hclean : s.unclean (pageOf (64 * l)) = false) :
    ((s.writeLine l key bs false).readLine l key).2 = ⟨bs, false⟩ := by
  have hcode : (s.writeLine l key bs false).lineCode l = s.writtenCode key false := by
    rw [s.writeLine_open l key bs false hout hclean, State.lineCode_setLineCode_self]
  have hmem : (s.writeLine l key bs false).hbm.mem = Memory.setBytes s.hbm.mem (64 * l) bs := by
    rw [s.writeLine_open l key bs false hout hclean]
    simp [State.setLineCode, List.take_of_length_le hlen.le]
  have hframe := s.writeLine_mem l key bs false
  have hout' : ((s.writeLine l key bs false).stack (l / 2147483648)).out = false := by rw [hframe.out, hout]
  have hclean' : (s.writeLine l key bs false).unclean (pageOf (64 * l)) = false := by
    rw [State.unclean, hframe.unclean]
    exact hclean
  have hversion : (s.writeLine l key bs false).keyVersion key = s.keyVersion key := by simp only [State.keyVersion, hframe.lock]
  rw [State.readLine_sound _ l key hout' hclean' (by rw [hcode]; rfl) (by rw [hcode]; rfl) (by rw [hcode]; rfl)
    (by rw [hcode, hversion]; rfl), hmem, ← hlen, Memory.getBytes_setBytes]

/-- Settles O6: a run of writes is read byte by byte, and a line is read under the code its write leaves. -/
theorem memoryReadsBackWhatIsWritten : Obligations.MemoryReadsBackWhatIsWritten := by
  refine ⟨fun m a bs h => ⟨m.wf_setBytes a bs h, m.wf_clear a _ h⟩, fun m a b bs => m.get_setBytes a b bs, fun m a n b => m.get_clear a n b,
    fun s l key bs hlen hout hclean => ⟨s.readLine_writeLine l key bs hlen hout hclean, fun x hx => ?_, fun hwf => ?_⟩⟩
  · rw [s.writeLine_open l key bs false hout hclean]
    exact Memory.get_setBytes_out _ _ _ _ (by rw [List.length_take]; omega)
  · rw [s.writeLine_open l key bs false hout hclean]
    exact Memory.wf_setBytes _ _ _ hwf

end Sys2Proof.Machine
end

section
/-!
One step of the block, and the block right after reset.
-/
namespace Sys2Proof.Machine

/-- Without patterns no scheduled transfer falls due (R228). -/
theorem State.allTransfers_of_no_pattern (s : State) (now : Nat) (h : ∀ d < 16, (s.die d).pattern = none) : s.allTransfers now = s := by
  suffices ∀ l : List Nat, (∀ d ∈ l, d < 16) → l.foldl (fun (t : State) d => t.transfersTo d now) s = s from
    this _ fun d hd => List.mem_range.1 hd
  intro l
  induction l with
  | nil => exact fun _ => rfl
  | cons d l ih =>
    intro hl
    have hd : s.transfersTo d now = s := by simp [State.transfersTo, h d (hl d (by simp))]
    rw [List.foldl_cons, hd]
    exact ih fun e he => hl e (by simp [he])

theorem State.idle_counting (s : State) (h : s.counting = true) :
    s.idle = (s.advanceTo (s.clock.time + 1)).allTransfers (s.clock.time + 1) := if_pos h

theorem State.idle_still (s : State) (h : s.counting = false) : s.idle = s := if_neg (by simp [h])

theorem step_cons {s : State} {c : Instr} {rest : List Instr} (h : s.pending = c :: rest) : step s = exec c { s with pending := rest } := by
  simp [step, h]

theorem step_nil {s : State} (h : s.pending = []) : step s = .next s.idle := by
  simp [step, h]

/-- Settles O1: a step runs the front command, and an idle block's transfers are none without patterns. -/
theorem stepRunsFrontCommand : Obligations.StepRunsFrontCommand := by
  intro s c rest
  refine ⟨fun h => step_cons h, fun h hc => ⟨?_, fun hp => ?_⟩, fun h hc => ?_⟩
  · rw [step_nil h, s.idle_counting hc]
  · rw [step_nil h, s.idle_counting hc, State.allTransfers_of_no_pattern _ _ (by simpa using hp)]
    simp [State.advanceTo]
  · rw [step_nil h, s.idle_still hc]

theorem Die.gatherOk_of_empty {x : Die} (h : x.gather = []) : x.gatherOk := by simp [Die.gatherOk, h]

theorem State.reset_fusesOk : State.reset.fusesOk := by simp [State.fusesOk, State.reset]

/-- Settles O2: every table of the state after reset is empty, so every unit is at its default. -/
theorem resetState : Obligations.ResetState := by
  have hregs : (State.reset.reg .sys 0x118).field 0 14 = 1500 ∧ (State.reset.reg .sys 0x120).field 0 4 = 4 ∧
      (State.reset.reg .tally 0x108).field 0 8 = 0x5A ∧ (State.reset.reg .tally 0x108).field 8 8 = 0x50 ∧
      (State.reset.reg .tally 0x108).field 16 8 = 0x46 := by decide
  obtain ⟨hbell, hpart, hclassR, hclassS, hclassP⟩ := hregs
  exact ⟨rfl, rfl, rfl, rfl, hbell, hpart, hclassR, hclassS, hclassP, fun _ => rfl, fun _ => rfl, fun _ => rfl, fun _ _ => ⟨rfl, rfl⟩,
    fun _ => rfl, rfl, State.reset_fusesOk, fun _ => Die.gatherOk_of_empty rfl⟩

end Sys2Proof.Machine
end

section
/-!
What a write leaves in the fields of a layout (R11).
-/
namespace Sys2Proof.Machine

/-- A field that keeps clear of another one and lies within the register. -/
def Field.clearOf (f g : Field) : Bool := decide (f.lo + f.width ≤ 64) && (decide (f.lo + f.width ≤ g.lo) || decide (g.lo + g.width ≤ f.lo))

/-- A write of one field leaves every field that keeps clear of it. -/
theorem fieldWrite_clear (old v : Word) (f g : Field) (h : f.clearOf g = true) :
    (fieldWrite old v g).field f.lo f.width = old.field f.lo f.width := by
  simp only [Field.clearOf, Bool.and_eq_true, Bool.or_eq_true, decide_eq_true_eq] at h
  obtain ⟨hfits, happart⟩ := h
  have hset (x : Nat) : (old.setField g.lo g.width x).field f.lo f.width = old.field f.lo f.width :=
    Word.field_setField_ne _ _ _ _ _ _ (by omega) hfits
  unfold fieldWrite
  split
  · exact hset _
  · exact hset _
  · exact hset _
  · split
    · exact hset _
    · rfl
  · rfl

/-- A write of a layout leaves every field that keeps clear of the layout's. -/
theorem fieldsWrite_clear (fs : List Field) (old v : Word) (f : Field) (h : ∀ g ∈ fs, f.clearOf g = true) :
    (fieldsWrite fs old v).field f.lo f.width = old.field f.lo f.width := by
  induction fs generalizing old with
  | nil => rfl
  | cons g fs ih =>
    have hrest := ih (fieldWrite old v g) fun k hk => h k (by simp [hk])
    exact hrest.trans (fieldWrite_clear old v f g (h g (by simp)))

/-- A read-write field takes what is written to it when the layout's other fields keep clear of it (R11). -/
theorem fieldsWrite_rw (before after : List Field) (old v : Word) (f : Field) (hrw : f.acc = .rw) (hfits : f.lo + f.width ≤ 64)
    (h : ∀ g ∈ after, f.clearOf g = true) :
    (fieldsWrite (before ++ f :: after) old v).field f.lo f.width = v.field f.lo f.width := by
  have hsplit : fieldsWrite (before ++ f :: after) old v = fieldsWrite after (fieldWrite (fieldsWrite before old v) v f) v := by
    simp [fieldsWrite]
  rw [hsplit, fieldsWrite_clear after _ v f h]
  simp only [fieldWrite, hrw]
  rw [Word.field_setField _ _ _ _ hfits, Word.field_mod]

theorem Word.bit_eq_of_field {w v : Word} {i : Nat} (h : w.field i 1 = v.field i 1) : w.bit i = v.bit i := by
  rw [Word.bit_eq_field, Word.bit_eq_field, h]

/-- Storing the fields of a register moves that register alone. -/
theorem State.storeFields_eq (s : State) (p : Page) (off : Nat) (v : Word) (fs : List Field) (h : regFields p off = some fs) :
    s.storeFields p off v = s.setReg p off (fieldsWrite fs (s.reg p off) v) := by
  simp [State.storeFields, h]

theorem State.storeFields_regAt_ne (s : State) (p : Page) (off : Nat) (v : Word) {a : Nat} (ha : a ≠ p.base + off) :
    (s.storeFields p off v).regAt a = s.regAt a := by
  unfold State.storeFields
  split
  · rw [State.regAt_setReg, if_neg ha]
  · rfl

/-- Beside the register file storing fields moves nothing. -/
theorem State.storeFields_frame (s : State) (p : Page) (off : Nat) (v : Word) :
    s.storeFields p off v = { s with regs := (s.storeFields p off v).regs } := by
  unfold State.storeFields
  split <;> rfl

end Sys2Proof.Machine
end

section
/-!
SYS.PACK_LOAD (R493, R494), TENANT.BUDGET (R350, R511), TALLY.CLASS_LIMIT (R382) and TALLY.DEBT_CLEAR (R554).
-/
namespace Sys2Proof.Machine

/-! ### What a register write comes to -/

theorem exec_of_written {c : Instr} {s t : State} {r : Written} (h : exec c s = .next r.1) (hr : r = ok t) : exec c s = .next t := by
  rw [h, hr, ok]

theorem refused_of_written {c : Instr} {s : State} {r : Written} {p : Page} {off : Nat} {e : Code} (h : exec c s = .next r.1)
    (hr : r = s.refuse p off e) : Refused c s p e :=
  refused_of_exec_refuse (by rw [h, hr])

/-! ### Reading and copying a pack -/

theorem State.readPack_mem (s : State) (a : Nat) : MemStep s (s.readPack a).1 := (s.hostRead_mem _ _).trans (State.hostRead_mem _ _ _)

theorem State.copyPack_mem (s : State) (i : PackImage) : MemStep s (s.copyPack i) :=
  .foldl _ _ _ fun _ _ => State.writeBytes_mem _ _ _ _

/-! ### The checks of PACK_LOAD -/

theorem exec_packLoadGo_answers (s : State) (v : Word) (h : s.answers = true) : exec (.packLoadGo v) s = .next (s.writePackLoad v).1 :=
  s.access_answers (.packLoadGo v) (fun t => (t.writePackLoad v).1) h

theorem exec_packLoadClear_answers (s : State) (v : Word) (h : s.answers = true) :
    exec (.packLoadClear v) s = .next (s.writePackLoad v).1 :=
  s.access_answers (.packLoadClear v) (fun t => (t.writePackLoad v).1) h

theorem State.writePackLoad_both (s : State) (v : Word) (hgo : v.bit 0 = true) (hclear : v.bit 1 = true) :
    s.writePackLoad v = s.refuse .sys 0x130 .format :=
  if_pos ⟨hgo, hclear⟩

/-- A go reads the pack at its base; the first failing check refuses it. -/
theorem State.writePackLoad_fault (s : State) (v : Word) (e : Code) (hgo : v.bit 0 = true) (hclear : v.bit 1 = false)
    (h : s.packFault (v.field 12 36 * 4096) (v.field 48 16) (s.readPack (v.field 12 36 * 4096)).2 = some e) :
    s.writePackLoad v =
      (if s.packUnread (v.field 12 36 * 4096) (v.field 48 16) = true then s else (s.readPack (v.field 12 36 * 4096)).1).refuse
        .sys 0x130 e := by
  rw [State.writePackLoad, if_neg (by simp [hclear]), if_pos hgo]
  simp only [h]

/-- The state with a pack read, copied and its write stored, before the pack is installed. -/
def State.copiedPack (s : State) (v : Word) : State :=
  ((s.readPack (v.field 12 36 * 4096)).1.copyPack (s.readPack (v.field 12 36 * 4096)).2).storeFields .sys 0x130 v

/-- The state with the pack at the write's base installed. -/
def State.installedPack (s : State) (v : Word) : State :=
  { s.copiedPack v with pkg := { (s.copiedPack v).pkg with
      packPending := some { version := (s.readPack (v.field 12 36 * 4096)).2.version, entries := (s.readPack (v.field 12 36 * 4096)).2.entries }
      packVersion := (s.readPack (v.field 12 36 * 4096)).2.version, packClear := false } }

theorem State.writePackLoad_installs (s : State) (v : Word) (hgo : v.bit 0 = true) (hclear : v.bit 1 = false)
    (h : s.packFault (v.field 12 36 * 4096) (v.field 48 16) (s.readPack (v.field 12 36 * 4096)).2 = none) :
    s.writePackLoad v = ok (s.installedPack v) := by
  rw [State.writePackLoad, if_neg (by simp [hclear]), if_pos hgo]
  simp only [h]
  rfl

/-- What was read and copied is all that an installation moves beside the register and the package. -/
theorem State.installedPack_frame (s : State) (v : Word) :
    s.installedPack v = { (s.readPack (v.field 12 36 * 4096)).1.copyPack (s.readPack (v.field 12 36 * 4096)).2 with
      regs := (s.installedPack v).regs, pkg := (s.installedPack v).pkg } := by
  rw [State.installedPack, State.copiedPack, State.storeFields_frame]

theorem State.installedPack_regAt (s : State) (v : Word) {a : Nat} (ha : a ≠ Page.sys.base + 0x130) :
    (s.installedPack v).regAt a = ((s.readPack (v.field 12 36 * 4096)).1.copyPack (s.readPack (v.field 12 36 * 4096)).2).regAt a := by
  have hregs : (s.installedPack v).regs = (s.copiedPack v).regs := rfl
  rw [State.regAt, hregs]
  exact State.storeFields_regAt_ne _ .sys 0x130 v ha

theorem State.installedPack_pack (s : State) (v : Word) : (s.installedPack v).pkg.pack = s.pkg.pack := by
  have hpkg := ((s.readPack_mem (v.field 12 36 * 4096)).trans (State.copyPack_mem _ (s.readPack (v.field 12 36 * 4096)).2)).pkg
  rw [← hpkg, State.installedPack, State.copiedPack, State.storeFields_frame]

/-- The state with a clear remembered for the next bell. -/
def State.clearedPack (s : State) (v : Word) : State :=
  { s.storeFields .sys 0x130 v with pkg := { (s.storeFields .sys 0x130 v).pkg with packClear := true, packPending := none } }

theorem State.writePackLoad_clears (s : State) (v : Word) (hgo : v.bit 0 = false) (hclear : v.bit 1 = true) :
    s.writePackLoad v = ok (s.clearedPack v) := by
  rw [State.writePackLoad, if_neg (by simp [hgo]), if_neg (by simp [hgo])]
  simp only [hclear, if_true]
  rfl

theorem State.clearedPack_frame (s : State) (v : Word) :
    s.clearedPack v = { s with regs := (s.clearedPack v).regs, pkg := { s.pkg with packClear := true, packPending := none } } := by
  rw [State.clearedPack, State.storeFields_frame]

/-- What PACK_LOAD does to the pack in force and what it leaves (R493, R494). -/
theorem packLoad_writes (s : State) (v : Word) (hs : s.answers = true) :
    (v.bit 0 = true → v.bit 1 = false →
       s.packFault (v.field 12 36 * 4096) (v.field 48 16) (s.readPack (v.field 12 36 * 4096)).2 = none →
       ∃ t, exec (.packLoadGo v) s = .next t ∧
         t.pkg.packPending = some {
           version := (s.readPack (v.field 12 36 * 4096)).2.version, entries := (s.readPack (v.field 12 36 * 4096)).2.entries } ∧
         t.pkg.packVersion = (s.readPack (v.field 12 36 * 4096)).2.version ∧
         t.pkg.packClear = false ∧ t.pkg.pack = s.pkg.pack ∧
         (∀ c, c = (s.readPack (v.field 12 36 * 4096)).1.copyPack (s.readPack (v.field 12 36 * 4096)).2 →
           t = { c with regs := t.regs, pkg := t.pkg } ∧ ∀ a, a ≠ Page.sys.base + 0x130 → t.regAt a = c.regAt a)) ∧
    (∀ e, v.bit 0 = true → v.bit 1 = false →
       s.packFault (v.field 12 36 * 4096) (v.field 48 16) (s.readPack (v.field 12 36 * 4096)).2 = some e →
       ∃ t, exec (.packLoadGo v) s = .next t ∧
         LoggedIn (if s.packUnread (v.field 12 36 * 4096) (v.field 48 16) = true then s else (s.readPack (v.field 12 36 * 4096)).1) t .sys e) ∧
    (v.bit 0 = true → v.bit 1 = true → Refused (.packLoadGo v) s .sys .format ∧ Refused (.packLoadClear v) s .sys .format) ∧
    (v.bit 0 = false → v.bit 1 = true →
       ∃ t, exec (.packLoadClear v) s = .next t ∧ t.pkg.packClear = true ∧ t.pkg.packPending = none ∧
         t.pkg.pack = s.pkg.pack ∧ t = { s with regs := t.regs, pkg := t.pkg } ∧
         (∀ a, a ≠ Page.sys.base + 0x130 → t.regAt a = s.regAt a)) := by
  refine ⟨fun hgo hclear h => ?installs, fun e hgo hclear h => ?fault, fun hgo hclear => ⟨?_, ?_⟩, fun hgo hclear => ?clears⟩
  case installs =>
    have hexec := exec_of_written (exec_packLoadGo_answers s v hs) (s.writePackLoad_installs v hgo hclear h)
    refine ⟨s.installedPack v, hexec, rfl, rfl, rfl, s.installedPack_pack v, ?_⟩
    rintro c rfl
    exact ⟨s.installedPack_frame v, fun a ha => s.installedPack_regAt v ha⟩
  case fault =>
    exact ⟨_, by rw [exec_packLoadGo_answers s v hs, s.writePackLoad_fault v e hgo hclear h], (State.refuse_logged _ .sys 0x130 e).1⟩
  · exact refused_of_written (exec_packLoadGo_answers s v hs) (s.writePackLoad_both v hgo hclear)
  · exact refused_of_written (exec_packLoadClear_answers s v hs) (s.writePackLoad_both v hgo hclear)
  case clears =>
    have hexec := exec_of_written (exec_packLoadClear_answers s v hs) (s.writePackLoad_clears v hgo hclear)
    have hframe := s.clearedPack_frame v
    exact ⟨s.clearedPack v, hexec, by rw [hframe], by rw [hframe], by rw [hframe], by rw [hframe],
      fun a ha => State.storeFields_regAt_ne s .sys 0x130 v ha⟩

/-! ### A tenant's budget -/

theorem exec_tenantBudget_answers (s : State) (tn : Fin 4096) (v : Word) (h : s.answers = true) :
    exec (.tenantBudget tn v) s = .next (s.writeBudget tn.val v).1 :=
  s.access_answers (.tenantBudget tn v) (fun t => (t.writeBudget tn.val v).1) h

/-- The fields of TENANT.BUDGET. -/
def budgetFields : List Field := [⟨63, 1, .rw, 0⟩, ⟨48, 8, .rw, 0x10⟩, ⟨40, 8, .rw, 0x10⟩, ⟨20, 20, .rw, 0⟩, ⟨0, 20, .rw, 0⟩]

theorem regFields_budget (t : Nat) : regFields (.tenant t) 0x100 = some budgetFields := rfl

/-- What a write of TENANT.BUDGET leaves to come into force. -/
def State.nextBudget (s : State) (t : Nat) (v : Word) : Word := fieldsWrite budgetFields ((s.tenant t).next.getD (s.tenant t).budget) v

theorem State.nextBudget_fields (s : State) (t : Nat) (v : Word) :
    (s.nextBudget t v).bit 63 = v.bit 63 ∧ (s.nextBudget t v).field 48 8 = v.field 48 8 ∧ (s.nextBudget t v).field 40 8 = v.field 40 8 ∧
      (s.nextBudget t v).field 20 20 = v.field 20 20 ∧ (s.nextBudget t v).field 0 20 = v.field 0 20 :=
  ⟨Word.bit_eq_of_field (fieldsWrite_rw [] _ _ v ⟨63, 1, .rw, 0⟩ rfl (by decide) (by decide)),
    fieldsWrite_rw [⟨63, 1, .rw, 0⟩] _ _ v ⟨48, 8, .rw, 0x10⟩ rfl (by decide) (by decide),
    fieldsWrite_rw [⟨63, 1, .rw, 0⟩, ⟨48, 8, .rw, 0x10⟩] _ _ v ⟨40, 8, .rw, 0x10⟩ rfl (by decide) (by decide),
    fieldsWrite_rw [⟨63, 1, .rw, 0⟩, ⟨48, 8, .rw, 0x10⟩, ⟨40, 8, .rw, 0x10⟩] _ _ v ⟨20, 20, .rw, 0⟩ rfl (by decide) (by decide),
    fieldsWrite_rw [⟨63, 1, .rw, 0⟩, ⟨48, 8, .rw, 0x10⟩, ⟨40, 8, .rw, 0x10⟩, ⟨20, 20, .rw, 0⟩] _ _ v ⟨0, 20, .rw, 0⟩ rfl (by decide)
      (by decide)⟩

/-- The first enable of a tenant draws its key (R511). -/
def State.keyedTenant (s : State) (t : Nat) (v : Word) : State :=
  if (s.nextBudget t v).bit 63 = true ∧ (s.tenant t).keyed = false then s.renewKey (keyTenant t) else s

/-- The state with a tenant's budget waiting for the next bell. -/
def State.budgeted (s : State) (t : Nat) (v : Word) : State :=
  (s.keyedTenant t v).modTenant t fun y => { y with next := some (s.nextBudget t v), keyed := y.keyed || (s.nextBudget t v).bit 63 }

theorem State.writeBudget_eq (s : State) (t : Nat) (v : Word) : s.writeBudget t v = ok (s.budgeted t v) := rfl

/-- Drawing a key moves the lockhouse alone. -/
theorem State.keyedTenant_frame (s : State) (t : Nat) (v : Word) : s.keyedTenant t v = { s with lock := (s.keyedTenant t v).lock } := by
  unfold State.keyedTenant
  split <;> rfl

theorem State.budgeted_frame (s : State) (t : Nat) (v : Word) :
    s.budgeted t v = { s with serve := { s.serve with tenants := (s.budgeted t v).serve.tenants }, lock := (s.keyedTenant t v).lock } := by
  rw [State.budgeted, State.keyedTenant_frame]
  rfl

theorem State.budgeted_tenant (s : State) (t k : Nat) (v : Word) :
    (s.budgeted t v).tenant k =
      if k = t then { s.tenant t with next := some (s.nextBudget t v), keyed := (s.tenant t).keyed || (s.nextBudget t v).bit 63 }
      else s.tenant k := by
  have hsame (j : Nat) : (s.keyedTenant t v).tenant j = s.tenant j := by
    rw [State.keyedTenant_frame]
    rfl
  rw [State.budgeted, State.tenant_modTenant, hsame, hsame]

/-- What a write of TENANT.BUDGET leaves waiting, and when it draws a key (R350, R511). -/
theorem tenantBudget_writes (s : State) (tn : Fin 4096) (v : Word) (hs : s.answers = true) :
    ∃ t, exec (.tenantBudget tn v) s = .next t ∧
      (t.tenant tn.val).budget = (s.tenant tn.val).budget ∧ (t.tenant tn.val).balance = (s.tenant tn.val).balance ∧
      (∃ w, (t.tenant tn.val).next = some w ∧ w.bit 63 = v.bit 63 ∧ w.field 48 8 = v.field 48 8 ∧ w.field 40 8 = v.field 40 8 ∧
        w.field 20 20 = v.field 20 20 ∧ w.field 0 20 = v.field 0 20) ∧
      (∀ k, k ≠ tn.val → t.tenant k = s.tenant k) ∧
      (v.bit 63 = false ∨ (s.tenant tn.val).keyed = true → t.lock = s.lock) ∧
      (v.bit 63 = true → (s.tenant tn.val).keyed = false → t.lock = (s.renewKey (keyTenant tn.val)).lock) ∧
      (t.tenant tn.val).keyed = ((s.tenant tn.val).keyed || v.bit 63) ∧
      t = { s with serve := { s.serve with tenants := t.serve.tenants }, lock := t.lock } := by
  have hbit := (s.nextBudget_fields tn.val v).1
  have htenant : (s.budgeted tn.val v).tenant tn.val = { s.tenant tn.val with
      next := some (s.nextBudget tn.val v), keyed := (s.tenant tn.val).keyed || v.bit 63 } := by
    rw [State.budgeted_tenant, if_pos rfl, hbit]
  have hlock : (s.budgeted tn.val v).lock = (s.keyedTenant tn.val v).lock := by rw [State.budgeted_frame]
  refine ⟨_, exec_tenantBudget_answers s tn v hs, ?_⟩
  rw [s.writeBudget_eq, ok]
  refine ⟨by rw [htenant], by rw [htenant], ⟨_, by rw [htenant], s.nextBudget_fields tn.val v⟩, fun k hk => ?others, fun h => ?undrawn,
    fun hen hkey => ?drawn, by rw [htenant], by rw [hlock]; exact s.budgeted_frame tn.val v⟩
  case others => rw [State.budgeted_tenant, if_neg hk]
  case undrawn =>
    rw [hlock, State.keyedTenant, hbit, if_neg]
    rcases h with h | h <;> simp [h]
  case drawn => rw [hlock, State.keyedTenant, hbit, if_pos ⟨hen, hkey⟩]

/-! ### Class limits and the debt -/

theorem exec_classLimit_answers (s : State) (v : Word) (h : s.answers = true) : exec (.classLimit v) s = .next (s.writeClassLimit v).1 :=
  s.access_answers (.classLimit v) (fun t => (t.writeClassLimit v).1) h

theorem exec_debtClear_answers (s : State) (v : Word) (h : s.answers = true) : exec (.debtClear v) s = .next (s.writeDebtClear v).1 :=
  s.access_answers (.debtClear v) (fun t => (t.writeDebtClear v).1) h

/-- The fields of TALLY.CLASS_LIMIT. -/
def classLimitFields : List Field := [⟨16, 8, .rw, 0x46⟩, ⟨8, 8, .rw, 0x50⟩, ⟨0, 8, .rw, 0x5A⟩]

theorem regFields_classLimit : regFields .tally 0x108 = some classLimitFields := by decide

theorem classLimitFields_written (old v : Word) :
    (fieldsWrite classLimitFields old v).field 0 8 = v.field 0 8 ∧ (fieldsWrite classLimitFields old v).field 8 8 = v.field 8 8 ∧
      (fieldsWrite classLimitFields old v).field 16 8 = v.field 16 8 :=
  ⟨fieldsWrite_rw [⟨16, 8, .rw, 0x46⟩, ⟨8, 8, .rw, 0x50⟩] _ old v ⟨0, 8, .rw, 0x5A⟩ rfl (by decide) (by decide),
    fieldsWrite_rw [⟨16, 8, .rw, 0x46⟩] _ old v ⟨8, 8, .rw, 0x50⟩ rfl (by decide) (by decide),
    fieldsWrite_rw [] _ old v ⟨16, 8, .rw, 0x46⟩ rfl (by decide) (by decide)⟩

/-- The state with class limits waiting for the next bell. -/
def State.limited (s : State) (v : Word) : State :=
  { s.storeFields .tally 0x108 v with
    tally := { s.tally with limitsNext := some (v.field 0 8, v.field 8 8, v.field 16 8) } }

theorem State.writeClassLimit_waits (s : State) (v : Word) (hR : v.field 0 8 ≤ 100) (hS : v.field 8 8 ≤ v.field 0 8)
    (hP : v.field 16 8 ≤ v.field 8 8) : s.writeClassLimit v = ok (s.limited v) := by
  rw [State.writeClassLimit, if_neg (by omega), if_neg (by omega), State.limited, State.storeFields_frame]

theorem State.writeClassLimit_length (s : State) (v : Word) (h : 100 < v.field 0 8 ∨ 100 < v.field 8 8 ∨ 100 < v.field 16 8) :
    s.writeClassLimit v = s.refuse .tally 0x108 .length :=
  if_pos h

theorem State.writeClassLimit_format (s : State) (v : Word) (hR : v.field 0 8 ≤ 100) (hS : v.field 8 8 ≤ 100) (hP : v.field 16 8 ≤ 100)
    (h : v.field 0 8 < v.field 8 8 ∨ v.field 8 8 < v.field 16 8) : s.writeClassLimit v = s.refuse .tally 0x108 .format := by
  rw [State.writeClassLimit, if_neg (by omega), if_pos h]

/-- Settles O14: PACK_LOAD by the outcome of its check, the others by the one thing that they leave waiting. -/
theorem packAndBudgetWrites : Obligations.PackAndBudgetWrites := by
  refine ⟨packLoad_writes, fun s tn v hs => ⟨tenantBudget_writes s tn v hs, fun hR hS hP => ?limits, fun hv => ?length,
    fun hR hS hP hv => ?format, fun hv => ?clear, fun hv => ?keep⟩⟩
  case limits =>
    have hexec := exec_of_written (exec_classLimit_answers s v hs) (s.writeClassLimit_waits v hR hS hP)
    have hreg : (s.limited v).reg .tally 0x108 = fieldsWrite classLimitFields (s.reg .tally 0x108) v :=
      (s.storeReg_only .tally 0x108 v _ regFields_classLimit).2
    obtain ⟨hfieldR, hfieldS, hfieldP⟩ := classLimitFields_written (s.reg .tally 0x108) v
    refine ⟨s.limited v, hexec, rfl, ?_, by rw [hreg, hfieldR], by rw [hreg, hfieldS], by rw [hreg, hfieldP],
      fun a ha => s.storeFields_regAt_ne .tally 0x108 v ha⟩
    rw [State.limited, State.storeFields_frame]
  case length => exact refused_of_written (exec_classLimit_answers s v hs) (s.writeClassLimit_length v hv)
  case format => exact refused_of_written (exec_classLimit_answers s v hs) (s.writeClassLimit_format v hR hS hP hv)
  case clear => rw [exec_debtClear_answers s v hs, State.writeDebtClear, if_pos hv, ok]
  case keep => rw [exec_debtClear_answers s v hs, State.writeDebtClear, if_neg (by simp [hv]), ok]

end Sys2Proof.Machine
end

section
/-!
The sensor converters (R389 to R396, R405, R568): what the operations on one converter can move, the checks of its registers, and the end of a
conversion.
-/
namespace Sys2Proof.Machine

/-! ### What an operation on one converter moves -/

/-- From `s` to `t` nothing has moved but the register file, there in the page of converter `c` at the offsets listed alone, converter `c`, the
steward's interrupts and the tally. -/
structure SenseStep (c : Nat) (offs : List Nat) (s t : State) : Prop where
  frame : t = { s with regs := t.regs, sense := t.sense, stew := t.stew, tally := t.tally }
  others : ∀ k, k ≠ c → t.conv k = s.conv k
  regs : ∀ o, o < 0x1000 → o ∉ offs → t.reg (.sense c) o = s.reg (.sense c) o

theorem SenseStep.refl (c : Nat) (offs : List Nat) (s : State) : SenseStep c offs s s := ⟨rfl, fun _ _ => rfl, fun _ _ _ => rfl⟩

theorem SenseStep.trans {c : Nat} {offs : List Nat} {s t u : State} (a : SenseStep c offs s t) (b : SenseStep c offs t u) :
    SenseStep c offs s u where
  frame := by
    rw [b.frame, a.frame]
  others k hk := (b.others k hk).trans (a.others k hk)
  regs o ho hl := (b.regs o ho hl).trans (a.regs o ho hl)

theorem SenseStep.frame_of_tally {c : Nat} {offs : List Nat} {s t : State} (h : SenseStep c offs s t) (ht : t.tally = s.tally) :
    t = { s with regs := t.regs, sense := t.sense, stew := t.stew } := by
  have hframe := h.frame
  rwa [ht] at hframe

theorem SenseStep.ite {c : Nat} {offs : List Nat} {p : Prop} [Decidable p] {s a b : State} (ha : SenseStep c offs s a)
    (hb : SenseStep c offs s b) : SenseStep c offs s (if p then a else b) := by
  split <;> assumption

/-- No converter's page is that of the steward's interrupts (R37). -/
theorem sense_base_ne_stew (c : Nat) : (Page.sense c).base ≠ 0x4000 := by
  simp only [Page.base, dieBase]
  split <;> omega

theorem State.setReg_senseStep (s : State) {c off : Nat} {offs : List Nat} (h : off ∈ offs) (v : Word) :
    SenseStep c offs s (s.setReg (.sense c) off v) where
  frame := rfl
  others _ _ := rfl
  regs _ _ hl := State.reg_setReg_off s _ _ _ _ fun e => hl (e ▸ h)

theorem State.bump_senseStep (s : State) {c off : Nat} {offs : List Nat} (h : off ∈ offs) (n : Nat) :
    SenseStep c offs s (s.bump (.sense c) off n) :=
  s.setReg_senseStep h _

theorem State.modConv_senseStep (s : State) (c : Nat) (offs : List Nat) (f : Converter → Converter) : SenseStep c offs s (s.modConv c f) where
  frame := rfl
  others _ hk := s.conv_modConv_ne f hk
  regs _ _ _ := rfl

theorem State.raiseIntr_senseStep (s : State) (c : Nat) (offs : List Nat) (id : Nat) : SenseStep c offs s (s.raiseIntr id) := by
  obtain ⟨r, st, h, hr⟩ := s.raiseIntr_frame id
  rw [h]
  have haligned := base_aligned (.sense c)
  have hpage := sense_base_ne_stew c
  exact ⟨rfl, fun _ _ => rfl, fun o ho _ => hr _ (by omega)⟩

theorem State.tally_senseStep (s : State) (c : Nat) (offs : List Nat) (x : Tally) : SenseStep c offs s { s with tally := x } :=
  ⟨rfl, fun _ _ => rfl, fun _ _ _ => rfl⟩

/-- No converter's page is that of the tally (R37). -/
theorem sense_base_ne_tally (c : Nat) : (Page.sense c).base ≠ Page.tally.base := by
  simp only [Page.base, dieBase]
  split <;> omega

theorem State.bumpTally_senseStep (s : State) (c : Nat) (offs : List Nat) {off : Nat} (ho : off < 0x1000) (n : Nat) :
    SenseStep c offs s (s.bump .tally off n) where
  frame := rfl
  others _ _ := rfl
  regs o ho' _ := State.reg_setReg_ne s _ _ _ _ _ (by
    have haligned := base_aligned (.sense c)
    have hpage := sense_base_ne_tally c
    have htally : Page.tally.base = 0x1000 := rfl
    omega)

theorem State.storeFields_senseStep (s : State) {c off : Nat} {offs : List Nat} (h : off ∈ offs) (v : Word) :
    SenseStep c offs s (s.storeFields (.sense c) off v) := by
  unfold State.storeFields
  split
  · exact s.setReg_senseStep h _
  · exact .refl ..

theorem State.noteWatermark_senseStep (s : State) (c : Nat) (offs : List Nat) : SenseStep c offs s (s.noteWatermark c) :=
  .ite ((s.modConv_senseStep c offs _).trans (State.raiseIntr_senseStep _ c offs _)) (s.modConv_senseStep c offs _)

/-- Beside its watermark condition noting the watermark leaves a converter. -/
theorem State.noteWatermark_conv (s : State) (c : Nat) : (s.noteWatermark c).conv c = { s.conv c with watermark := s.watermarkMet c } := by
  have hraise (t : State) (id : Nat) : (t.raiseIntr id).conv c = t.conv c := by rw [State.conv, (t.raiseIntr_mem id).sense, State.conv]
  unfold State.noteWatermark
  extract_lets now rose t
  split
  · rw [hraise, State.conv_modConv_self]
  · exact s.conv_modConv_self c _

theorem State.noteWatermark_tally (s : State) (c : Nat) : (s.noteWatermark c).tally = s.tally := by
  unfold State.noteWatermark
  extract_lets now rose t
  split
  · exact (t.raiseIntr_mem _).tally
  · rfl

/-! ### SENSE.CTL -/

theorem exec_senseApply_answers (s : State) (c : Fin 20) (v : Word) (h : s.answers = true) :
    exec (.senseApply c v) s = .next (s.writeSenseCtl c.val v).1 :=
  s.access_answers (.senseApply c v) (fun t => (t.writeSenseCtl c.val v).1) h

/-- The fields of SENSE.CTL. -/
def senseCtlFields : List Field := [⟨4, 7, .rw, 0x30⟩, ⟨2, 1, .wo, 0⟩, ⟨1, 1, .rw, 0⟩, ⟨0, 1, .rw, 1⟩]

theorem regFields_senseCtl (c : Nat) : regFields (.sense c) 0x010 = some senseCtlFields := rfl

theorem senseCtlFields_written (old v : Word) :
    (fieldsWrite senseCtlFields old v).field 4 7 = v.field 4 7 ∧ (fieldsWrite senseCtlFields old v).bit 1 = v.bit 1 ∧
      (fieldsWrite senseCtlFields old v).bit 0 = v.bit 0 :=
  ⟨fieldsWrite_rw [] _ old v ⟨4, 7, .rw, 0x30⟩ rfl (by decide) (by decide),
    Word.bit_eq_of_field (fieldsWrite_rw [⟨4, 7, .rw, 0x30⟩, ⟨2, 1, .wo, 0⟩] _ old v ⟨1, 1, .rw, 0⟩ rfl (by decide) (by decide)),
    Word.bit_eq_of_field (fieldsWrite_rw [⟨4, 7, .rw, 0x30⟩, ⟨2, 1, .wo, 0⟩, ⟨1, 1, .rw, 0⟩] _ old v ⟨0, 1, .rw, 1⟩ rfl (by decide)
      (by decide))⟩

/-- Every input from 0 to 31 has an entry in the table (R391). -/
def coversInputs (table : List (Nat × Bool)) : Prop := ∀ i < 32, ∃ e ∈ table, e.1 = i

theorem coversInputs_iff (table : List (Nat × Bool)) :
    coversInputs table ↔ ((List.range 32).all fun i => table.any fun e => e.1 == i) = true := by
  simp only [coversInputs, List.all_eq_true, List.any_eq_true, List.mem_range, beq_iff_eq]

theorem State.writeSenseCtl_length (s : State) (c : Nat) (v : Word) (h : v.field 4 7 = 0 ∨ 64 < v.field 4 7) :
    s.writeSenseCtl c v = s.refuse (.sense c) 0x010 .length :=
  if_pos h

theorem State.writeSenseCtl_format (s : State) (c : Nat) (v : Word) (hlo : 1 ≤ v.field 4 7) (hhi : v.field 4 7 ≤ 64) (happly : v.bit 2 = true)
    (h : ¬ coversInputs (s.shadow c (v.field 4 7))) : s.writeSenseCtl c v = s.refuse (.sense c) 0x010 .format := by
  rw [coversInputs_iff] at h
  rw [State.writeSenseCtl, if_neg (by omega)]
  exact if_pos ⟨happly, by simpa using h⟩

/-- The state with an apply of SENSE.CTL noted (R391). -/
def State.notedApply (s : State) (c : Nat) (v : Word) : State :=
  (s.storeFields (.sense c) 0x010 v).modConv c fun (x : Converter) => { x with applied := true }

/-- On a stopped converter the noted apply takes effect at once. -/
def State.appliedCtl (s : State) (c : Nat) (v : Word) : State :=
  if ((s.notedApply c v).conv c).stopped = true ∧ ((s.notedApply c v).conv c).running.isNone = true then (s.notedApply c v).startSequence c
  else s.notedApply c v

theorem State.writeSenseCtl_applies (s : State) (c : Nat) (v : Word) (hlo : 1 ≤ v.field 4 7) (hhi : v.field 4 7 ≤ 64) (happly : v.bit 2 = true)
    (h : coversInputs (s.shadow c (v.field 4 7))) : s.writeSenseCtl c v = ok (s.appliedCtl c v) := by
  rw [coversInputs_iff] at h
  rw [State.writeSenseCtl, if_neg (by omega), if_neg (by simp [h])]
  simp only [happly, if_true]
  rfl

theorem State.notedApply_senseStep (s : State) (c : Nat) (v : Word) : SenseStep c [0x010] s (s.notedApply c v) :=
  (s.storeFields_senseStep (List.mem_singleton.2 rfl) v).trans (State.modConv_senseStep _ c _ _)

theorem State.notedApply_conv (s : State) (c : Nat) (v : Word) : (s.notedApply c v).conv c = { s.conv c with applied := true } := by
  rw [State.notedApply, State.conv_modConv_self, s.storeFields_frame (.sense c) 0x010 v]
  rfl

theorem State.startSequence_senseStep (s : State) (c : Nat) (offs : List Nat) : SenseStep c offs s (s.startSequence c) :=
  s.modConv_senseStep c offs _

theorem State.appliedCtl_senseStep (s : State) (c : Nat) (v : Word) : SenseStep c [0x010] s (s.appliedCtl c v) :=
  .ite ((s.notedApply_senseStep c v).trans (State.startSequence_senseStep _ c _)) (s.notedApply_senseStep c v)

theorem State.appliedCtl_frame (s : State) (c : Nat) (v : Word) :
    s.appliedCtl c v = { s with regs := (s.storeFields (.sense c) 0x010 v).regs, sense := (s.appliedCtl c v).sense } := by
  unfold State.appliedCtl
  split <;> rw [State.notedApply, State.storeFields_frame] <;> rfl

theorem State.appliedCtl_running (s : State) (c : Nat) (v : Word)
    (h : (s.conv c).stopped = false ∨ (s.conv c).running.isSome = true) : (s.appliedCtl c v).conv c = { s.conv c with applied := true } := by
  rw [State.appliedCtl, if_neg, s.notedApply_conv]
  rw [s.notedApply_conv]
  rcases h with h | h
  · simp [h]
  · simp [Option.isSome_iff_ne_none.1 h]

/-- The shadow table is that of the registers SEQ_n. -/
theorem State.shadow_congr {s t : State} {c : Nat} (h : ∀ o, 0x100 ≤ o → o < 0x1000 → t.reg (.sense c) o = s.reg (.sense c) o) (n : Nat)
    (hn : n ≤ 64) : t.shadow c n = s.shadow c n := by
  refine List.map_congr_left fun i hi => ?_
  have hi := List.mem_range.1 hi
  simp only [h (0x100 + 8 * (i / 4)) (by omega) (by omega)]

theorem State.appliedCtl_stopped (s : State) (c : Nat) (v : Word) (hhi : v.field 4 7 ≤ 64) (hstop : (s.conv c).stopped = true)
    (hrun : (s.conv c).running = none) :
    (s.appliedCtl c v).conv c = { s.conv c with
      applied := false, active := s.shadow c (v.field 4 7), position := 0, stopped := !v.bit 0, lowPower := v.bit 1 } := by
  obtain ⟨hn, hlow, hgo⟩ := senseCtlFields_written (s.reg (.sense c) 0x010) v
  have hctl : (s.notedApply c v).reg (.sense c) 0x010 = fieldsWrite senseCtlFields (s.reg (.sense c) 0x010) v :=
    (s.storeReg_only (.sense c) 0x010 v _ (regFields_senseCtl c)).2
  have hshadow : (s.notedApply c v).shadow c (v.field 4 7) = s.shadow c (v.field 4 7) :=
    State.shadow_congr (fun o hlo hhi => (s.notedApply_senseStep c v).regs o hhi (by simp; omega)) _ hhi
  rw [State.appliedCtl, if_pos (by simp [s.notedApply_conv, hstop, hrun]), State.startSequence, State.conv_modConv_self, s.notedApply_conv, hctl]
  simp only [if_true, hn, hlow, hgo, hshadow]

/-! ### SENSE.URGENT -/

theorem exec_senseUrgent_answers (s : State) (c : Fin 20) (v : Word) (h : s.answers = true) :
    exec (.senseUrgent c v) s = .next (s.writeUrgent c.val v).1 :=
  s.access_answers (.senseUrgent c v) (fun t => (t.writeUrgent c.val v).1) h

/-- Requests of software that wait (R392). -/
def Converter.asked (x : Converter) : List Urgent := x.urgent.filter fun e => !e.confirm

theorem State.writeUrgent_length (s : State) (c : Nat) (v : Word) (h : 47 < v.field 0 6) :
    s.writeUrgent c v = (s.bump (.sense c) 0x1B8 1).refuse (.sense c) 0x180 .length :=
  if_pos h

theorem State.writeUrgent_busy (s : State) (c : Nat) (v : Word) (h : v.field 0 6 ≤ 47) (hfull : 4 ≤ (s.conv c).asked.length) :
    s.writeUrgent c v = (s.bump (.sense c) 0x1B8 1).refuse (.sense c) 0x180 .busy := by
  rw [State.writeUrgent, if_neg (by omega)]
  exact if_pos hfull

theorem State.writeUrgent_joins (s : State) (c : Nat) (v : Word) (h : v.field 0 6 ≤ 47) (hroom : (s.conv c).asked.length < 4) :
    s.writeUrgent c v =
      ok (s.modConv c fun x => ({ x with urgent := x.urgent ++ [{ input := v.field 0 6 }] } : Converter).takeUrgent) := by
  rw [State.writeUrgent, if_neg (by omega)]
  exact if_neg (not_le.2 hroom)

/-- Taking the oldest request keeps the order of requests (R393). -/
theorem Converter.takeUrgent_queue (x : Converter) : x.takeUrgent.running.toList ++ x.takeUrgent.urgent = x.running.toList ++ x.urgent := by
  unfold Converter.takeUrgent
  split
  next hrun hq => simp [hrun, hq]
  next => rfl

theorem Converter.takeUrgent_running (x : Converter) (h : x.urgent ≠ []) : x.takeUrgent.running.isSome = true := by
  unfold Converter.takeUrgent
  split
  next => rfl
  next hno =>
    cases hr : x.running with
    | some r => rfl
    | none =>
      cases hu : x.urgent with
      | nil => exact absurd hu h
      | cons r rest => exact (hno r rest hr hu).elim

/-! ### SENSE.RING_CFG and RING_RD -/

theorem exec_ringCfg_answers (s : State) (c : Fin 20) (v : Word) (h : s.answers = true) :
    exec (.ringCfg c v) s = .next (s.writeRingCfg c.val v).1 :=
  s.access_answers (.ringCfg c v) (fun t => (t.writeRingCfg c.val v).1) h

theorem exec_ringRd_answers (s : State) (c : Fin 20) (v : Word) (h : s.answers = true) :
    exec (.ringRd c v) s = .next (s.writeRingRd c.val v).1 :=
  s.access_answers (.ringRd c v) (fun t => (t.writeRingRd c.val v).1) h

/-- The fields of SENSE.RING_CFG. -/
def ringCfgFields : List Field := [⟨28, 4, .rw, 0⟩, ⟨3, 21, .rw, 0⟩, ⟨0, 1, .rw, 0⟩]

theorem regFields_ringCfg (c : Nat) : regFields (.sense c) 0x188 = some ringCfgFields := rfl

theorem ringCfgFields_written (old v : Word) :
    (fieldsWrite ringCfgFields old v).field 28 4 = v.field 28 4 ∧ (fieldsWrite ringCfgFields old v).field 3 21 = v.field 3 21 ∧
      (fieldsWrite ringCfgFields old v).bit 0 = v.bit 0 :=
  ⟨fieldsWrite_rw [] _ old v ⟨28, 4, .rw, 0⟩ rfl (by decide) (by decide),
    fieldsWrite_rw [⟨28, 4, .rw, 0⟩] _ old v ⟨3, 21, .rw, 0⟩ rfl (by decide) (by decide),
    Word.bit_eq_of_field (fieldsWrite_rw [⟨28, 4, .rw, 0⟩, ⟨3, 21, .rw, 0⟩] _ old v ⟨0, 1, .rw, 0⟩ rfl (by decide) (by decide))⟩

theorem State.writeRingCfg_length (s : State) (c : Nat) (v : Word)
    (h : 12 < v.field 28 4 ∨ (8 * v.field 3 21) % (8 * 2 ^ (4 + v.field 28 4)) ≠ 0) :
    s.writeRingCfg c v = s.refuse (.sense c) 0x188 .length :=
  if_pos h

/-- The ring of a converter as its new setting leaves it: empty (R394). -/
def State.emptiedRing (s : State) (c : Nat) (v : Word) : State :=
  (s.storeFields (.sense c) 0x188 v).modConv c fun x => { x with ringWr := 0, ringRd := 0, ring := [] }

theorem State.writeRingCfg_sets (s : State) (c : Nat) (v : Word) (hlen : v.field 28 4 ≤ 12)
    (halign : (8 * v.field 3 21) % (8 * 2 ^ (4 + v.field 28 4)) = 0) :
    s.writeRingCfg c v = ok ((s.emptiedRing c v).noteWatermark c) :=
  if_neg (by omega)

theorem State.emptiedRing_senseStep (s : State) (c : Nat) (v : Word) : SenseStep c [0x188] s (s.emptiedRing c v) :=
  (s.storeFields_senseStep (List.mem_singleton.2 rfl) v).trans (State.modConv_senseStep _ c _ _)

theorem State.emptiedRing_tally (s : State) (c : Nat) (v : Word) : (s.emptiedRing c v).tally = s.tally := by
  rw [State.emptiedRing, s.storeFields_frame (.sense c) 0x188 v]
  rfl

theorem State.emptiedRing_conv (s : State) (c : Nat) (v : Word) :
    (s.emptiedRing c v).conv c = { s.conv c with ringWr := 0, ringRd := 0, ring := [] } := by
  rw [State.emptiedRing, State.conv_modConv_self, s.storeFields_frame (.sense c) 0x188 v]
  rfl

theorem State.writeRingRd_unfilled (s : State) (c : Nat) (v : Word) (h : (s.conv c).ringWr < v.toNat) :
    s.writeRingRd c v = s.refuse (.sense c) 0x198 .unfilled :=
  if_pos h

theorem State.writeRingRd_length (s : State) (c : Nat) (v : Word) (h : v.toNat ≤ (s.conv c).ringWr) (hback : v.toNat < (s.conv c).ringRd) :
    s.writeRingRd c v = s.refuse (.sense c) 0x198 .length := by
  rw [State.writeRingRd, if_neg (by omega), if_pos hback]

theorem State.writeRingRd_takes (s : State) (c : Nat) (v : Word) (hlo : (s.conv c).ringRd ≤ v.toNat) (hhi : v.toNat ≤ (s.conv c).ringWr) :
    s.writeRingRd c v = ok ((s.modConv c fun x => { x with ringRd := v.toNat }).noteWatermark c) := by
  rw [State.writeRingRd, if_neg (by omega), if_neg (by omega)]

/-- Settles O15: each register's write is one of the cases of its check. -/
theorem sensorWritesTakeEffect : Obligations.SensorWritesTakeEffect := by
  intro s c v hs
  refine ⟨fun hlo hhi happly hcover => ?applies, fun h => ?ctlLength, fun hlo hhi happly hmiss => ?ctlFormat, fun h hroom => ?joins,
    fun h => ?urgentLength, fun h hfull => ?urgentBusy, fun hlen halign => ?ringSet, fun h => ?ringLength, fun hlo hhi => ?released,
    fun h => ?unfilled, fun h hback => ?releaseLength⟩
  case applies =>
    have hstep := s.appliedCtl_senseStep c.val v
    have hframe := s.appliedCtl_frame c.val v
    refine ⟨_, exec_of_written (exec_senseApply_answers s c v hs) (s.writeSenseCtl_applies c.val v hlo hhi happly hcover),
      s.appliedCtl_running c.val v, s.appliedCtl_stopped c.val v hhi, hstep.others, ?_, fun a ha => ?_⟩
    · rw [hframe]
    · rw [hframe]
      exact s.storeFields_regAt_ne _ _ v ha
  case ctlLength => exact refused_of_written (exec_senseApply_answers s c v hs) (s.writeSenseCtl_length c.val v h)
  case ctlFormat =>
    obtain ⟨i, hi, hno⟩ := hmiss
    refine refused_of_written (exec_senseApply_answers s c v hs) (s.writeSenseCtl_format c.val v hlo hhi happly fun hcover => ?_)
    obtain ⟨e, he, heq⟩ := hcover i hi
    exact hno e he heq
  case joins =>
    refine ⟨_, exec_of_written (exec_senseUrgent_answers s c v hs) (s.writeUrgent_joins c.val v h hroom), ?_, ?_,
      fun k hk => s.conv_modConv_ne _ hk, rfl⟩
    · rw [State.conv_modConv_self]
      exact Converter.takeUrgent_running _ (by simp)
    · rw [State.conv_modConv_self, Converter.takeUrgent_queue, List.append_assoc]
  case urgentLength =>
    exact ⟨_, by rw [exec_senseUrgent_answers s c v hs, s.writeUrgent_length c.val v h], (State.refuse_logged _ _ _ _).1⟩
  case urgentBusy =>
    exact ⟨_, by rw [exec_senseUrgent_answers s c v hs, s.writeUrgent_busy c.val v h hfull], (State.refuse_logged _ _ _ _).1⟩
  case ringSet =>
    have hwater := (s.emptiedRing c.val v).noteWatermark_senseStep c.val [0x188]
    have hstep := (s.emptiedRing_senseStep c.val v).trans hwater
    have hconv := ((s.emptiedRing c.val v).noteWatermark_conv c.val).trans (by rw [s.emptiedRing_conv c.val v])
    have hreg : ((s.emptiedRing c.val v).noteWatermark c.val).reg (.sense c.val) 0x188 =
        fieldsWrite ringCfgFields (s.reg (.sense c.val) 0x188) v :=
      (((s.emptiedRing c.val v).noteWatermark_senseStep c.val []).regs 0x188 (by decide) (by simp)).trans
        (s.storeReg_only (.sense c.val) 0x188 v _ (regFields_ringCfg c.val)).2
    obtain ⟨hlenW, haddrW, honW⟩ := ringCfgFields_written (s.reg (.sense c.val) 0x188) v
    refine ⟨_, exec_of_written (exec_ringCfg_answers s c v hs) (s.writeRingCfg_sets c.val v hlen halign), ?_, ?_, ?_, ?_, ?_, ?_,
      hstep.others, ?_⟩
    · rw [hconv]
    · rw [hconv]
    · rw [hconv]
    · rw [hreg, hlenW]
    · rw [hreg, haddrW]
    · rw [hreg, honW]
    · exact hstep.frame_of_tally (by rw [State.noteWatermark_tally, s.emptiedRing_tally])
  case ringLength => exact refused_of_written (exec_ringCfg_answers s c v hs) (s.writeRingCfg_length c.val v h)
  case released =>
    have hstep := (s.modConv_senseStep c.val [] fun x => { x with ringRd := v.toNat }).trans (State.noteWatermark_senseStep _ c.val [])
    have hconv := ((s.modConv c.val fun x => { x with ringRd := v.toNat }).noteWatermark_conv c.val).trans (by rw [State.conv_modConv_self])
    refine ⟨_, exec_of_written (exec_ringRd_answers s c v hs) (s.writeRingRd_takes c.val v hlo hhi), ?_, ?_, ?_, hstep.others, ?_⟩
    · rw [hconv]
    · rw [hconv]
    · rw [hconv]
    · exact hstep.frame_of_tally (State.noteWatermark_tally ..)
  case unfilled => exact refused_of_written (exec_ringRd_answers s c v hs) (s.writeRingRd_unfilled c.val v h)
  case releaseLength => exact refused_of_written (exec_ringRd_answers s c v hs) (s.writeRingRd_length c.val v h hback)

end Sys2Proof.Machine
end

section
/-!
The end of a conversion (R386, R389, R390, R393, R397, R568): what latching a result leaves, and what follows it.
-/
namespace Sys2Proof.Machine

/-! ### Fields of words that are put together -/

theorem Word.field_or (a b : Word) (lo n : Nat) : Word.field (a ||| b) lo n = a.field lo n ||| b.field lo n := by
  apply Nat.eq_of_testBit_eq
  intro i
  simp only [Word.field_testBit, BitVec.toNat_or, Nat.testBit_or]
  cases decide (i < n) <;> simp

theorem Word.field_put_ne (lo n v lo' n' : Nat) (h : lo' + n' ≤ lo ∨ lo + n ≤ lo') : (Word.put lo n v).field lo' n' = 0 := by
  apply Nat.eq_of_testBit_eq
  intro i
  rw [Word.field_testBit, Nat.zero_testBit]
  simp only [Word.put, BitVec.toNat_ofNat, Nat.testBit_mod_two_pow, Nat.testBit_shiftLeft, Bool.and_eq_false_imp, decide_eq_true_eq]
  intro hi _ _ hn
  omega

theorem sensorRecord_fields (time input : Nat) (urgent low : Bool) (value : BitVec 16) (hi : input < 48) :
    (sensorRecord time input urgent low value).field 0 16 = value.toNat ∧ (sensorRecord time input urgent low value).field 18 6 = input ∧
      (sensorRecord time input urgent low value).field 17 1 = b2n urgent := by
  have hvalue : value.toNat % 2 ^ 16 = value.toNat := Nat.mod_eq_of_lt value.isLt
  have hinput : input % 2 ^ 6 = input := Nat.mod_eq_of_lt (by omega)
  have hurgent : b2n urgent % 2 ^ 1 = b2n urgent := by cases urgent <;> rfl
  refine ⟨?_, ?_, ?_⟩
  · simp only [sensorRecord, Word.field_or, Word.field_put_ne 24 40 _ 0 16 (.inl (by decide)), Word.field_put_ne 18 6 _ 0 16 (.inl (by decide)),
      Word.field_put_ne 17 1 _ 0 16 (.inl (by decide)), Word.field_put_ne 16 1 _ 0 16 (.inl (by decide)), Word.field_put 0 16 _ (by decide),
      hvalue, Nat.zero_or]
  · simp only [sensorRecord, Word.field_or, Word.field_put_ne 24 40 _ 18 6 (.inl (by decide)), Word.field_put 18 6 _ (by decide),
      Word.field_put_ne 17 1 _ 18 6 (.inr (by decide)), Word.field_put_ne 16 1 _ 18 6 (.inr (by decide)),
      Word.field_put_ne 0 16 _ 18 6 (.inr (by decide)), hinput, Nat.zero_or, Nat.or_zero]
  · simp only [sensorRecord, Word.field_or, Word.field_put_ne 24 40 _ 17 1 (.inl (by decide)), Word.field_put_ne 18 6 _ 17 1 (.inl (by decide)),
      Word.field_put 17 1 _ (by decide), Word.field_put_ne 16 1 _ 17 1 (.inr (by decide)), Word.field_put_ne 0 16 _ 17 1 (.inr (by decide)),
      hurgent, Nat.zero_or, Nat.or_zero]

/-! ### Latching -/

/-- A converter keeps its urgent requests, the one in progress and those that wait. -/
def SameQueue (c : Nat) (s t : State) : Prop := (t.conv c).running = (s.conv c).running ∧ (t.conv c).urgent = (s.conv c).urgent

theorem SameQueue.trans {c : Nat} {s t u : State} (a : SameQueue c s t) (b : SameQueue c t u) : SameQueue c s u :=
  ⟨b.1.trans a.1, b.2.trans a.2⟩

/-- The first step of latching a result: LATEST_n is written and the result counted (R390, R393). -/
def State.notedResult (s : State) (c input : Nat) (urgent low : Bool) (value : BitVec 16) : State :=
  ((s.setReg (.sense c) (0x200 + 8 * input) (sensorRecord (s.pageTime (.sense c)) input urgent low value)).bump (.sense c) 0x1A8 1).modConv c
    fun x => { x with latestAt := tset x.latestAt input s.clock.time }

/-- The tally notes the highest diode result (R387). -/
def State.notedHeat (s : State) (input : Nat) (value : BitVec 16) : State :=
  if input < 32 then { s with tally := { s.tally with hotSeen := max s.tally.hotSeen (toSigned 16 value.toNat) } } else s

/-- A latched result, before a quick gauging check that waits for it goes on. -/
def State.latched (s : State) (c input : Nat) (urgent ring low : Bool) (value : BitVec 16) : State :=
  if (s.reg (.sense c) 0x188).bit 0 = true ∧ (urgent || ring) = true then
    ((s.notedResult c input urgent low value).notedHeat input value).ringRecord c
      (sensorRecord (s.pageTime (.sense c)) input urgent low value)
  else (s.notedResult c input urgent low value).notedHeat input value

theorem State.latchResult_eq (s : State) (c input : Nat) (urgent ring low : Bool) (value : BitVec 16) :
    s.latchResult c input urgent ring low value =
      if c < 16 then (s.latched c input urgent ring low value).runQuick c else s.latched c input urgent ring low value := rfl

/-- The registers that latching a result of an input writes. -/
def latchRegs (input : Nat) : List Nat := [0x200 + 8 * input, 0x1A8, 0x1C0]

theorem State.notedResult_senseStep (s : State) (c input : Nat) (urgent low : Bool) (value : BitVec 16) :
    SenseStep c (latchRegs input) s (s.notedResult c input urgent low value) :=
  ((s.setReg_senseStep (by simp [latchRegs]) _).trans (State.bump_senseStep _ (by simp [latchRegs]) 1)).trans
    (State.modConv_senseStep _ c _ _)

theorem State.notedHeat_senseStep (s : State) (c : Nat) (offs : List Nat) (input : Nat) (value : BitVec 16) :
    SenseStep c offs s (s.notedHeat input value) :=
  .ite (s.tally_senseStep c offs _) (.refl ..)

theorem State.ringRecord_senseStep (s : State) (c : Nat) (offs : List Nat) (h : 0x1C0 ∈ offs) (w : Word) :
    SenseStep c offs s (s.ringRecord c w) :=
  .ite (s.bump_senseStep h 1) ((s.modConv_senseStep c offs _).trans (State.noteWatermark_senseStep _ c offs))

theorem State.latched_senseStep (s : State) (c input : Nat) (urgent ring low : Bool) (value : BitVec 16) :
    SenseStep c (latchRegs input) s (s.latched c input urgent ring low value) := by
  have hnoted := (s.notedResult_senseStep c input urgent low value).trans (State.notedHeat_senseStep _ c _ input value)
  exact .ite (hnoted.trans (State.ringRecord_senseStep _ c _ (by simp [latchRegs]) _)) hnoted

theorem State.notedHeat_tally (s : State) (input : Nat) (value : BitVec 16) :
    (s.notedHeat input value).tally = { s.tally with hotSeen := (s.notedHeat input value).tally.hotSeen } := by
  unfold State.notedHeat
  split <;> rfl

theorem State.ringRecord_tally (s : State) (c : Nat) (w : Word) : (s.ringRecord c w).tally = s.tally := by
  unfold State.ringRecord
  extract_lets x size
  split
  · rfl
  · exact State.noteWatermark_tally ..

theorem State.latched_tally (s : State) (c input : Nat) (urgent ring low : Bool) (value : BitVec 16) :
    (s.latched c input urgent ring low value).tally =
      { s.tally with hotSeen := (s.latched c input urgent ring low value).tally.hotSeen } := by
  have hnoted := (s.notedResult c input urgent low value).notedHeat_tally input value
  unfold State.latched
  split
  · rw [State.ringRecord_tally]
    exact hnoted
  · exact hnoted

theorem State.ringRecord_sameQueue (s : State) (c : Nat) (w : Word) : SameQueue c s (s.ringRecord c w) := by
  unfold State.ringRecord
  extract_lets x size
  split
  · exact ⟨rfl, rfl⟩
  · simp [SameQueue, State.noteWatermark_conv]

theorem State.notedHeat_conv (s : State) (input : Nat) (value : BitVec 16) (k : Nat) : (s.notedHeat input value).conv k = s.conv k := by
  unfold State.notedHeat
  split <;> rfl

theorem State.notedHeat_reg (s : State) (input : Nat) (value : BitVec 16) (p : Page) (o : Nat) :
    (s.notedHeat input value).reg p o = s.reg p o := by
  unfold State.notedHeat
  split <;> rfl

theorem State.latched_sameQueue (s : State) (c input : Nat) (urgent ring low : Bool) (value : BitVec 16) :
    SameQueue c s (s.latched c input urgent ring low value) := by
  have hnoted : SameQueue c s ((s.notedResult c input urgent low value).notedHeat input value) := by
    simp [SameQueue, State.notedHeat_conv, State.notedResult]
  unfold State.latched
  split
  · exact hnoted.trans (State.ringRecord_sameQueue ..)
  · exact hnoted

/-- LATEST_n takes the record of the result, and the result is counted (R390, R393). -/
theorem State.latched_regs (s : State) (c input : Nat) (urgent ring low : Bool) (value : BitVec 16) (hi : input < 48) :
    (s.latched c input urgent ring low value).reg (.sense c) (0x200 + 8 * input) =
        sensorRecord (s.pageTime (.sense c)) input urgent low value ∧
      (s.latched c input urgent ring low value).reg (.sense c) 0x1A8 = satAdd (s.reg (.sense c) 0x1A8) 1 := by
  have hlatest : ((s.notedResult c input urgent low value).notedHeat input value).reg (.sense c) (0x200 + 8 * input) =
      sensorRecord (s.pageTime (.sense c)) input urgent low value := by
    rw [State.notedHeat_reg, State.notedResult, State.modConv_reg, State.bump, State.reg_setReg_off _ _ _ _ _ (by omega), State.reg_setReg_self]
  have hcount : ((s.notedResult c input urgent low value).notedHeat input value).reg (.sense c) 0x1A8 = satAdd (s.reg (.sense c) 0x1A8) 1 := by
    rw [State.notedHeat_reg, State.notedResult, State.modConv_reg, State.bump, State.reg_setReg_self,
      State.reg_setReg_off _ _ _ _ _ (by omega)]
  have hring := (State.ringRecord_senseStep ((s.notedResult c input urgent low value).notedHeat input value) c [0x1C0] (by simp)
    (sensorRecord (s.pageTime (.sense c)) input urgent low value)).regs
  unfold State.latched
  split
  · exact ⟨(hring _ (by omega) (by simp; omega)).trans hlatest, (hring _ (by omega) (by simp)).trans hcount⟩
  · exact ⟨hlatest, hcount⟩

/-- Where no mould of the die awaits its quick check, latching ends there (R397). -/
theorem State.latchResult_settled (s : State) (c input : Nat) (urgent ring low : Bool) (value : BitVec 16) (h : (s.die c).quickDue = []) :
    s.latchResult c input urgent ring low value = s.latched c input urgent ring low value := by
  have hdie : (s.latched c input urgent ring low value).die c = s.die c := by
    rw [(s.latched_senseStep c input urgent ring low value).frame]
    rfl
  rw [State.latchResult_eq, State.runQuick, hdie]
  simp [h]

theorem SenseStep.clock {c : Nat} {offs : List Nat} {s t : State} (h : SenseStep c offs s t) : t.clock = s.clock := by
  rw [h.frame]

/-- Latching a result, with the quick check that it lets go on, leaves device time (R397). -/
theorem State.latchResult_clock (s : State) (c input : Nat) (urgent ring low : Bool) (value : BitVec 16) :
    (s.latchResult c input urgent ring low value).clock = s.clock := by
  have hlatched := (s.latched_senseStep c input urgent ring low value).clock
  rw [State.latchResult_eq]
  split
  · exact (congrArg (fun b => b.1) (State.runQuick_beat _ c)).trans hlatched
  · exact hlatched

/-! ### After a result -/

theorem State.watchResult_senseStep (s : State) (c : Nat) (offs : List Nat) (input : Nat) (value : BitVec 16) :
    SenseStep c offs s (s.watchResult c input value) := by
  unfold State.watchResult
  exact .ite (.refl ..) (s.modConv_senseStep c offs _)

theorem State.watchResult_tally (s : State) (c input : Nat) (value : BitVec 16) : (s.watchResult c input value).tally = s.tally := by
  unfold State.watchResult
  extract_lets v trip rise
  split <;> rfl

/-- What follows a conversion of the sequence: the next entry, or none once converters stop for dormancy (R390, R401). -/
def State.nextEntry (s : State) (c : Nat) (halting : Bool) : State :=
  if halting = true then
    (s.modConv c fun y => { y with position := (y.position + 1) % max 1 y.active.length }).modConv c fun y => { y with stopped := true }
  else (s.modConv c fun y => { y with position := (y.position + 1) % max 1 y.active.length }).startSequence c

theorem State.nextEntry_senseStep (s : State) (c : Nat) (offs : List Nat) (halting : Bool) : SenseStep c offs s (s.nextEntry c halting) :=
  .ite ((s.modConv_senseStep c offs _).trans (State.modConv_senseStep _ c offs _))
    ((s.modConv_senseStep c offs _).trans (State.startSequence_senseStep _ c offs))

theorem State.nextEntry_tally (s : State) (c : Nat) (halting : Bool) : (s.nextEntry c halting).tally = s.tally := by
  unfold State.nextEntry
  split <;> rfl

/-- A conversion of the sequence latches its result for its entry; the next begins (R389 to R391). -/
theorem exec_sensorConversion_latches (s : State) (c : Fin 20) (x : BitVec 16) (e : Nat × Bool) (hp : s.pkg.phase.converts = true)
    (hstop : (s.conv c.val).stopped = false) (hrun : (s.conv c.val).running = none)
    (he : (s.conv c.val).active[(s.conv c.val).position]? = some e) :
    exec (.sensorConversion c x) s = .next (((s.latchResult c.val e.1 false e.2 (s.conv c.val).lowPower (s.calibrated c.val e.1 x)).nextEntry
      c.val s.pkg.halting).watchResult c.val e.1 (s.calibrated c.val e.1 x)) := by
  change execSensorConversion c x s = _
  unfold execSensorConversion
  dsimp only
  rw [if_neg (by simp [hp, hstop, hrun]), he]
  rfl

theorem State.raiseStep_step (s : State) (n : Nat) : (s.raiseStep n).tally.step = max s.tally.step n := by
  unfold State.raiseStep
  split
  next h => exact (max_eq_left h).symm
  next h => exact (max_eq_right (not_le.1 h).le).symm

theorem State.raiseStep_senseStep (s : State) (c : Nat) (offs : List Nat) (n : Nat) : SenseStep c offs s (s.raiseStep n) :=
  .ite (.refl ..) ((s.tally_senseStep c offs _).trans (State.bumpTally_senseStep _ c offs (by decide) 1))

theorem State.raiseStep_sense (s : State) (n : Nat) : (s.raiseStep n).sense = s.sense := by
  unfold State.raiseStep
  split <;> rfl

theorem State.confirmResult_senseStep (s : State) (c : Nat) (offs : List Nat) (v : BitVec 16) : SenseStep c offs s (s.confirmResult v) := by
  unfold State.confirmResult
  exact .ite (s.raiseStep_senseStep ..) (.ite (s.raiseStep_senseStep ..) (.refl ..))

theorem State.confirmResult_sense (s : State) (v : BitVec 16) : (s.confirmResult v).sense = s.sense := by
  unfold State.confirmResult
  dsimp only
  split
  · exact s.raiseStep_sense 2
  · split
    · exact s.raiseStep_sense 1
    · rfl

/-- A confirming result of 105.0 °C raises the step to 2, one of 95.0 °C to 1 (R386). -/
theorem State.confirmResult_high (s : State) (v : BitVec 16) (h : 6720 ≤ toSigned 16 v.toNat) :
    (s.confirmResult v).tally.step = max s.tally.step 2 := by
  rw [State.confirmResult, if_pos h, State.raiseStep_step]

theorem State.confirmResult_warm (s : State) (v : BitVec 16) (hlo : 6080 ≤ toSigned 16 v.toNat) (hhi : toSigned 16 v.toNat < 6720) :
    (s.confirmResult v).tally.step = max s.tally.step 1 := by
  rw [State.confirmResult, if_neg (by omega)]
  split
  · exact s.raiseStep_step 1
  · exact (max_eq_left (by omega)).symm

/-- An urgent result that is latched and, when it confirms one, has decided the step. -/
def State.decided (s : State) (c : Nat) (u : Urgent) (v : BitVec 16) : State :=
  if u.confirm = true then ((s.latchResult c u.input true true false v).bump (.sense c) 0x1B0 1).confirmResult v
  else (s.latchResult c u.input true true false v).bump (.sense c) 0x1B0 1

/-- A confirmed result of 112.0 °C or more stops the clocks (R568). -/
def State.thermtrip (s : State) : State :=
  { s.dark .tripped with pkg := { (s.dark .tripped).pkg with thermtripLow := true, sleepAckLow := false, wakeLow := false } }

/-- An urgent result ends its conversion, unless it trips (R386, R393, R568). -/
theorem exec_urgentResult_eq (s : State) (c : Fin 20) (x : BitVec 16) (u : Urgent) (hp : s.pkg.phase.converts = true)
    (hrun : (s.conv c.val).running = some u) (v : BitVec 16) (hv : v = s.calibrated c.val u.input x) :
    exec (.urgentResult c x) s = .next (
      if (u.confirm && u.trip && decide (7168 ≤ toSigned 16 v.toNat)) = true then (s.decided c.val u v).thermtrip
      else if u.confirm = false ∨ decide (7168 ≤ toSigned 16 v.toNat) = true then
        ((s.decided c.val u v).endUrgent c.val).watchResult c.val u.input v
      else (s.decided c.val u v).endUrgent c.val) := by
  change execUrgentResult c x s = _
  unfold execUrgentResult
  simp only [hrun, ← hv]
  rw [if_neg (by simp [hp])]
  split <;> rfl

theorem State.endUrgent_senseStep (s : State) (c : Nat) (offs : List Nat) : SenseStep c offs s (s.endUrgent c) := by
  unfold State.endUrgent
  have htake := s.modConv_senseStep c offs fun x => ({ x with running := none } : Converter).takeUrgent
  exact .ite (htake.trans (State.modConv_senseStep _ c offs _)) (.ite htake (htake.trans (State.startSequence_senseStep _ c offs)))

theorem State.endUrgent_tally (s : State) (c : Nat) : (s.endUrgent c).tally = s.tally := by
  unfold State.endUrgent
  extract_lets t
  split
  · rfl
  · split <;> rfl

theorem Converter.takeUrgent_of_idle (x : Converter) :
    ({ x with running := none } : Converter).takeUrgent.running = x.urgent.head? ∧
      ({ x with running := none } : Converter).takeUrgent.urgent = x.urgent.tail := by
  unfold Converter.takeUrgent
  cases x.urgent <;> simp

/-- Where converters do not stop for dormancy the oldest urgent request follows (R391, R393). -/
theorem State.endUrgent_queue (s : State) (c : Nat) (h : s.pkg.halting = false) :
    ((s.endUrgent c).conv c).running = (s.conv c).urgent.head? ∧ ((s.endUrgent c).conv c).urgent = (s.conv c).urgent.tail := by
  have htake := (s.conv c).takeUrgent_of_idle
  unfold State.endUrgent
  dsimp only
  rw [if_neg (by simp [h])]
  split
  · rw [State.conv_modConv_self]
    exact htake
  · simp only [State.startSequence, State.conv_modConv_self]
    split <;> exact htake

theorem State.decided_senseStep (s : State) (c : Nat) (u : Urgent) (v : BitVec 16) (h : (s.die c).quickDue = []) :
    SenseStep c (0x1B0 :: latchRegs u.input) s (s.decided c u v) := by
  have hlatch : SenseStep c (0x1B0 :: latchRegs u.input) s (s.latchResult c u.input true true false v) := by
    rw [s.latchResult_settled c _ _ _ _ _ h]
    have hstep := s.latched_senseStep c u.input true true false v
    exact ⟨hstep.frame, hstep.others, fun o ho hl => hstep.regs o ho fun hm => hl (List.mem_cons_of_mem _ hm)⟩
  have hbump := hlatch.trans (State.bump_senseStep _ (List.mem_cons_self ..) 1)
  exact .ite (hbump.trans (State.confirmResult_senseStep ..)) hbump

theorem State.decided_clock (s : State) (c : Nat) (u : Urgent) (v : BitVec 16) : (s.decided c u v).clock = s.clock := by
  have hlatch := s.latchResult_clock c u.input true true false v
  unfold State.decided
  split
  · exact (State.confirmResult_senseStep _ c [] v).clock.trans hlatch
  · exact hlatch

/-- The registers of an urgent result: its LATEST_n, and the counts of results and of urgent ones (R390, R393). -/
theorem State.decided_regs (s : State) (c : Nat) (u : Urgent) (v : BitVec 16) (hi : u.input < 48) (h : (s.die c).quickDue = []) :
    (s.decided c u v).reg (.sense c) (0x200 + 8 * u.input) = sensorRecord (s.pageTime (.sense c)) u.input true false v ∧
      (s.decided c u v).reg (.sense c) 0x1B0 = satAdd (s.reg (.sense c) 0x1B0) 1 := by
  have hlatched := s.latched_senseStep c u.input true true false v
  have hconfirm (t : State) (o : Nat) (ho : o < 0x1000) : (t.confirmResult v).reg (.sense c) o = t.reg (.sense c) o :=
    (t.confirmResult_senseStep c [] v).regs o ho (by simp)
  have hlatest : ((s.latchResult c u.input true true false v).bump (.sense c) 0x1B0 1).reg (.sense c) (0x200 + 8 * u.input) =
      sensorRecord (s.pageTime (.sense c)) u.input true false v := by
    rw [State.bump, State.reg_setReg_off _ _ _ _ _ (by omega), s.latchResult_settled c _ _ _ _ _ h]
    exact (s.latched_regs c u.input true true false v hi).1
  have hcount : ((s.latchResult c u.input true true false v).bump (.sense c) 0x1B0 1).reg (.sense c) 0x1B0 =
      satAdd (s.reg (.sense c) 0x1B0) 1 := by
    rw [State.bump, State.reg_setReg_self, s.latchResult_settled c _ _ _ _ _ h,
      hlatched.regs 0x1B0 (by decide) (by simp [latchRegs]; omega)]
  unfold State.decided
  split
  · exact ⟨(hconfirm _ _ (by omega)).trans hlatest, (hconfirm _ _ (by decide)).trans hcount⟩
  · exact ⟨hlatest, hcount⟩

/-- The thermal step after an urgent result: only a confirming one moves it (R386). -/
theorem State.decided_step (s : State) (c : Nat) (u : Urgent) (v : BitVec 16) (h : (s.die c).quickDue = []) :
    (u.confirm = false → (s.decided c u v).tally.step = s.tally.step) ∧
    (u.confirm = true → 6720 ≤ toSigned 16 v.toNat → (s.decided c u v).tally.step = max s.tally.step 2) ∧
    (u.confirm = true → 6080 ≤ toSigned 16 v.toNat → toSigned 16 v.toNat < 6720 → (s.decided c u v).tally.step = max s.tally.step 1) := by
  have hstep : ((s.latchResult c u.input true true false v).bump (.sense c) 0x1B0 1).tally.step = s.tally.step := by
    rw [State.bump_tally, s.latchResult_settled c _ _ _ _ _ h, State.latched_tally]
  refine ⟨fun hc => ?_, fun hc hhi => ?_, fun hc hlo hhi => ?_⟩
  · rw [State.decided, if_neg (by simp [hc]), hstep]
  · rw [State.decided, if_pos hc, State.confirmResult_high _ v hhi, hstep]
  · rw [State.decided, if_pos hc, State.confirmResult_warm _ v hlo hhi, hstep]

theorem State.decided_sameQueue (s : State) (c : Nat) (u : Urgent) (v : BitVec 16) (h : (s.die c).quickDue = []) :
    SameQueue c s (s.decided c u v) := by
  have hlatched : SameQueue c s (s.latchResult c u.input true true false v) := by
    rw [s.latchResult_settled c _ _ _ _ _ h]
    exact s.latched_sameQueue ..
  unfold State.decided
  split
  · rw [SameQueue, State.conv, State.confirmResult_sense]
    exact hlatched
  · exact hlatched

/-- The state in which an urgent conversion ends: one of 112.0 °C or more, and one that confirms nothing, is watched (R386, R392). -/
def State.urgentEnd (s : State) (c : Nat) (u : Urgent) (v : BitVec 16) : State :=
  if u.confirm = false ∨ decide (7168 ≤ toSigned 16 v.toNat) = true then ((s.decided c u v).endUrgent c).watchResult c u.input v
  else (s.decided c u v).endUrgent c

theorem State.urgentEnd_after (s : State) (c : Nat) (offs : List Nat) (u : Urgent) (v : BitVec 16) :
    SenseStep c offs (s.decided c u v) (s.urgentEnd c u v) := by
  have hend := (s.decided c u v).endUrgent_senseStep c offs
  exact .ite (hend.trans (State.watchResult_senseStep ..)) hend

theorem State.urgentEnd_tally (s : State) (c : Nat) (u : Urgent) (v : BitVec 16) : (s.urgentEnd c u v).tally = (s.decided c u v).tally := by
  unfold State.urgentEnd
  split
  · rw [State.watchResult_tally, State.endUrgent_tally]
  · exact State.endUrgent_tally ..

/-- Settles O16: a conversion ends in its latched result, which leaves everything but the page, the converter and the tally alone where no quick
check waits for it. -/
theorem conversionsLatchTheirResult : Obligations.ConversionsLatchTheirResult := by
  intro s c x hp
  refine ⟨fun e v he hi hstop hrun hv => ?sequence, fun u v hrun hi hv hno => ?urgent, fun u v hrun hv hconfirm htrip hhot => ?trip⟩
  case sequence =>
    subst hv
    have hexec := exec_sensorConversion_latches s c x e hp hstop hrun he
    have hafter (t : State) (offs : List Nat) : SenseStep c.val offs t ((t.nextEntry c.val s.pkg.halting).watchResult c.val e.1
        (s.calibrated c.val e.1 x)) :=
      (t.nextEntry_senseStep c.val offs _).trans (State.watchResult_senseStep ..)
    refine ⟨⟨_, hexec, (hafter _ []).clock.trans (State.latchResult_clock ..)⟩, fun hquick => ⟨_, hexec, ?_⟩⟩
    rw [s.latchResult_settled c.val _ _ _ _ _ hquick]
    generalize hlow : (s.conv c.val).lowPower = low
    generalize s.calibrated c.val e.1 x = v at hafter ⊢
    have hlatched := s.latched_senseStep c.val e.1 false e.2 low v
    have hall := hlatched.trans (hafter _ _)
    obtain ⟨hlatest, hcount⟩ := s.latched_regs c.val e.1 false e.2 low v hi
    have hreg := (hafter (s.latched c.val e.1 false e.2 low v) []).regs
    obtain ⟨hvalue, hinput, hurgent⟩ := sensorRecord_fields (s.pageTime (.sense c.val)) e.1 false low v hi
    refine ⟨?_, ?_, ?_, ?_, fun i hne hi' => hall.regs _ (by omega) (by simp [latchRegs]; omega), hall.others, ?_⟩
    · rw [hreg _ (by omega) (by simp), hlatest, hvalue]
    · rw [hreg _ (by omega) (by simp), hlatest, hinput]
    · rw [hreg _ (by omega) (by simp), hlatest, hurgent]
      rfl
    · rw [hreg _ (by decide) (by simp), hcount]
    · have htally := s.latched_tally c.val e.1 false e.2 low v
      have hframe := hall.frame
      rw [State.watchResult_tally, State.nextEntry_tally, htally] at hframe
      rw [hframe]
  case urgent =>
    have hexec : exec (.urgentResult c x) s = .next (s.urgentEnd c.val u v) := by
      rw [exec_urgentResult_eq s c x u hp hrun v hv, if_neg (by simpa [and_assoc] using hno)]
      rfl
    have hclock : (s.urgentEnd c.val u v).clock = s.clock := (s.urgentEnd_after c.val [] u v).clock.trans (s.decided_clock c.val u v)
    refine ⟨⟨_, hexec, hclock⟩, fun hquick => ⟨_, hexec, ?_⟩⟩
    have hdecided := s.decided_senseStep c.val u v hquick
    have hall := hdecided.trans (s.urgentEnd_after c.val _ u v)
    have hreg := (s.urgentEnd_after c.val [] u v).regs
    obtain ⟨hlatest, hcount⟩ := s.decided_regs c.val u v hi hquick
    obtain ⟨hvalue, -, hurgent⟩ := sensorRecord_fields (s.pageTime (.sense c.val)) u.input true false v hi
    obtain ⟨hsame, hhigh, hwarm⟩ := s.decided_step c.val u v hquick
    rw [State.urgentEnd_tally]
    refine ⟨?_, ?_, ?_, hsame, hhigh, hwarm, fun hc hcold hhalt => ?_, hall.others, ?_⟩
    · rw [hreg _ (by omega) (by simp), hlatest, hvalue]
    · rw [hreg _ (by omega) (by simp), hlatest, hurgent]
      rfl
    · rw [hreg _ (by decide) (by simp), hcount]
    · have hhalt' : (s.decided c.val u v).pkg.halting = false := by rw [hdecided.frame]; exact hhalt
      obtain ⟨hrunning, hwaiting⟩ := (s.decided c.val u v).endUrgent_queue c.val hhalt'
      have hqueue := (s.decided_sameQueue c.val u v hquick).2
      rw [State.urgentEnd, if_neg (by simp [hc, hcold]), hrunning, hwaiting, hqueue]
      exact ⟨rfl, rfl⟩
    · rw [← s.urgentEnd_tally c.val u v]
      exact hall.frame
  case trip =>
    have hexec : exec (.urgentResult c x) s = .next (s.decided c.val u v).thermtrip := by
      rw [exec_urgentResult_eq s c x u hp hrun v hv, if_pos (by simp [hconfirm, htrip, hhot])]
    refine ⟨_, hexec, rfl, rfl, fun hquick => ?_⟩
    have hframe := (s.decided_senseStep c.val u v hquick).frame
    have hmarks : (s.decided c.val u v).serve.marks = s.serve.marks := by rw [hframe]
    have hlanes : (s.decided c.val u v).links.laneRetirements = s.links.laneRetirements := by rw [hframe]
    exact ⟨hmarks, hlanes⟩

end Sys2Proof.Machine
end

section
/-!
COMMONS.POOL (R314), STACK.STAGE_n (R453, R454) and STACK.INJECT (R472).
-/
namespace Sys2Proof.Machine

/-! ### COMMONS.POOL -/

theorem exec_commonsPool_answers (s : State) (v : Word) (h : s.answers = true) : exec (.commonsPool v) s = .next (s.writePool v).1 :=
  s.access_answers (.commonsPool v) (fun t => (t.writePool v).1) h

theorem State.writePool_length (s : State) (v : Word) (h : s.poolPages < 4 * v.field 0 24) :
    s.writePool v = s.refuse .commons 0x100 .length :=
  if_pos h

theorem State.writePool_busy (s : State) (v : Word) (h : 4 * v.field 0 24 ≤ s.poolPages) (hn : s.store.nodes ≠ []) :
    s.writePool v = s.refuse .commons 0x100 .busy := by
  rw [State.writePool, if_neg (by omega), if_pos (by simpa using hn)]

theorem State.writePool_waits (s : State) (v : Word) (h : 4 * v.field 0 24 ≤ s.poolPages) (hn : s.store.nodes = []) :
    s.writePool v = ok { s with
      regs := (s.storeFields .commons 0x100 v).regs, store := { s.store with commonsNext := some (v.field 0 24) } } := by
  rw [State.writePool, if_neg (by omega), if_neg (by simp [hn]), State.storeFields_frame]

/-! ### STACK.STAGE_n -/

theorem exec_stackStage_answers (s : State) (k : StackId) (n : Fin 4) (v : Word) (h : s.answers = true) :
    exec (.stackStage k n v) s = .next (s.writeStage k.val n.val v).1 :=
  s.access_answers (.stackStage k n v) (fun t => (t.writeStage k.val n.val v).1) h

theorem State.writeStage_fault (s : State) (k n : Nat) (v : Word) (e : Code) (h : s.stageFault k n v = some e) :
    s.writeStage k n v = s.refuse (.stack k) (0x100 + 8 * n) e := by
  simp [State.writeStage, h]

/-- A declared region: its pages are taken from the pool unclean (R453, R454). -/
def StackSt.declare (x : StackSt) (n first pages : Nat) : StackSt :=
  { x with staging := tset x.staging n (first, pages), unclean := x.unclean ++ [(first, first + pages - 1)] }

/-- A withdrawn region: its pages go back to the pool unclean (R453, R454). -/
def StackSt.withdraw (x : StackSt) (n first pages : Nat) : StackSt :=
  { x with
    staging := tdrop x.staging n, stageReady := x.stageReady.filter fun i => i != n
    unclean := x.unclean ++ [(first, first + pages - 1)] }

theorem State.writeStage_declares (s : State) (k n : Nat) (v : Word) (hv : v.bit 63 = true) (hf : s.stageFault k n v = none)
    (hn : tfind (s.stack k).staging n = none) :
    s.writeStage k n v = ok ((s.storeFields (.stack k) (0x100 + 8 * n) v).modStack k fun x => x.declare n (v.field 0 21) (v.field 32 24)) := by
  simp only [State.writeStage, hf, hn, hv]
  rfl

theorem State.writeStage_withdraws (s : State) (k n : Nat) (v : Word) (c : Nat × Nat) (hv : v.bit 63 = false) (hf : s.stageFault k n v = none)
    (hn : tfind (s.stack k).staging n = some c) :
    s.writeStage k n v = ok ((s.storeFields (.stack k) (0x100 + 8 * n) v).modStack k fun x => x.withdraw n c.1 c.2) := by
  simp only [State.writeStage, hf, hn, hv]
  rfl

/-- Naming the region that is declared, or withdrawing one that is not, moves the register alone. -/
theorem State.writeStage_same (s : State) (k n : Nat) (v : Word) (hf : s.stageFault k n v = none)
    (h : (tfind (s.stack k).staging n).isSome = v.bit 63) : s.writeStage k n v = ok (s.storeFields (.stack k) (0x100 + 8 * n) v) := by
  simp only [State.writeStage, hf]
  split
  next hn hv => simp [hn, hv] at h
  next hn hv => simp [hn, hv] at h
  next => rfl

theorem inIntervals_append_range (l : List (Nat × Nat)) (first pages p : Nat) (hlo : first ≤ p) (hhi : p < first + pages) :
    inIntervals (l ++ [(first, first + pages - 1)]) p = true := by
  simp [inIntervals, hlo]
  omega

/-- Storing a register of a stack's page and changing the stack moves nothing else. -/
theorem State.stackWrite_frame (s : State) (p : Page) (off k : Nat) (v : Word) (f : StackSt → StackSt) :
    (s.storeFields p off v).modStack k f = { s with
      regs := ((s.storeFields p off v).modStack k f).regs
      hbm := { s.hbm with units := ((s.storeFields p off v).modStack k f).hbm.units } } := by
  rw [State.storeFields_frame]
  rfl

theorem State.stackWrite_stack (s : State) (p : Page) (off k j : Nat) (v : Word) (f : StackSt → StackSt) :
    ((s.storeFields p off v).modStack k f).stack j = if j = k then f (s.stack k) else s.stack j := by
  rw [State.storeFields_frame, State.stack_modStack]
  rfl

/-! ### STACK.INJECT -/

theorem exec_stackInject_answers (s : State) (k : StackId) (v : Word) (h : s.answers = true) :
    exec (.stackInject k v) s = .next (s.writeInject k.val v).1 :=
  s.access_answers (.stackInject k v) (fun t => (t.writeInject k.val v).1) h

theorem State.writeInject_length (s : State) (k : Nat) (v : Word) (h : v.field 0 4 = 0 ∨ 8 < v.field 0 4) :
    s.writeInject k v = s.refuse (.stack k) 0x120 .length :=
  if_pos h

/-- An address that is no byte of the stack that INJECT reaches (R472). -/
theorem State.writeInject_auth (s : State) (k : Nat) (v : Word) (hlo : 1 ≤ v.field 0 4) (hhi : v.field 0 4 ≤ 8)
    (h : ∀ b, target (v.field 6 42 * 64) = .aperture k b → s.apertureOk k b = false) :
    s.writeInject k v = s.refuse (.stack k) 0x120 .auth := by
  rw [State.writeInject, if_neg (by omega)]
  split
  next j b hb =>
    rw [if_pos]
    by_cases hj : j = k
    · subst hj
      exact .inr (h b hb)
    · exact .inl hj
  next => rfl

/-- The line that INJECT reaches with the low bits of its first `n` data symbols inverted (R472). -/
def State.injected (s : State) (l n : Nat) : State :=
  s.setLineCode l { s.lineCode l with flips := (s.lineCode l).flips ^^^ BitVec.ofNat 8 (2 ^ n - 1) }

theorem State.writeInject_open (s : State) (k b : Nat) (v : Word) (hlo : 1 ≤ v.field 0 4) (hhi : v.field 0 4 ≤ 8)
    (hb : target (v.field 6 42 * 64) = .aperture k b) (hok : s.apertureOk k b = true) :
    s.writeInject k v = ok (if v.bit 4 = false then s else s.injected ((k * Config.stackBytes + b) / 64) (v.field 0 4)) := by
  rw [State.writeInject, if_neg (by omega)]
  simp only [hb]
  rw [if_neg (by simp [hok]), apply_ite ok]
  rfl

/-- Inverting the low bits of the first symbols: symbol `i` is inverted when it is below `n`. -/
theorem flips_injected (f : BitVec 8) (n i : Nat) (hn : n ≤ 8) :
    (f ^^^ BitVec.ofNat 8 (2 ^ n - 1)).getLsbD i = (f.getLsbD i ^^ decide (i < n)) := by
  rw [BitVec.getLsbD_xor, BitVec.getLsbD_ofNat, Nat.testBit_two_pow_sub_one]
  by_cases hi : i < n
  · simp [hi, show i < 8 by omega]
  · simp [hi]

/-- Settles O17: each register's write is one of the cases of its check. -/
theorem storageWritesTakeEffect : Obligations.StorageWritesTakeEffect := by
  intro s k n v hs
  have hstage {t : State} (h : s.writeStage k.val n.val v = ok t) : exec (.stackStage k n v) s = .next t :=
    exec_of_written (exec_stackStage_answers s k n v hs) h
  have hinject {t : State} (h : s.writeInject k.val v = ok t) : exec (.stackInject k v) s = .next t :=
    exec_of_written (exec_stackInject_answers s k v hs) h
  refine ⟨fun hroom hn => ?poolWaits, fun h => ?poolLength, fun h hn => ?poolBusy, fun hv hf hn => ?declares, fun c hv hf hn hc => ?withdraws,
    fun c hf hn hv => ?again, fun hf hn hv => ?absent, fun e hf => ?stageFault, fun b hlo hhi hgo hb hok => ?injects,
    fun b hlo hhi hgo hb hok => ?noGo, fun h => ?injectLength, fun hlo hhi h => ?injectAuth⟩
  case poolWaits =>
    exact ⟨_, exec_of_written (exec_commonsPool_answers s v hs) (s.writePool_waits v hroom hn), rfl, rfl, rfl⟩
  case poolLength => exact refused_of_written (exec_commonsPool_answers s v hs) (s.writePool_length v h)
  case poolBusy => exact refused_of_written (exec_commonsPool_answers s v hs) (s.writePool_busy v h hn)
  case declares =>
    have hstack := s.stackWrite_stack (.stack k.val) (0x100 + 8 * n.val) k.val k.val v fun x => x.declare n.val (v.field 0 21) (v.field 32 24)
    rw [if_pos rfl] at hstack
    refine ⟨_, hstage (s.writeStage_declares k.val n.val v hv hf hn), ?_, fun p hlo hhi => ?_, ?_, fun j hj => ?_, State.stackWrite_frame ..⟩
    · rw [hstack, StackSt.declare, tfind_tset_self]
    · rw [hstack]
      exact inIntervals_append_range _ _ _ _ hlo hhi
    · rw [hstack, StackSt.declare]
    · rw [State.stackWrite_stack, if_neg hj]
  case withdraws =>
    have hstack := s.stackWrite_stack (.stack k.val) (0x100 + 8 * n.val) k.val k.val v fun x => x.withdraw n.val c.1 c.2
    rw [if_pos rfl] at hstack
    refine ⟨_, hstage (s.writeStage_withdraws k.val n.val v c hv hf hn), ?_, ?_, fun p hlo hhi => ?_, fun j hj => ?_,
      State.stackWrite_frame ..⟩
    · rw [hstack, StackSt.withdraw, tfind_tdrop, if_pos rfl]
    · rw [hstack]
      simp [StackSt.withdraw]
    · rw [hstack]
      exact inIntervals_append_range _ _ _ _ hlo hhi
    · rw [State.stackWrite_stack, if_neg hj]
  case again => exact ⟨_, hstage (s.writeStage_same k.val n.val v hf (by simp [hn, hv])), State.storeFields_frame ..⟩
  case absent => exact ⟨_, hstage (s.writeStage_same k.val n.val v hf (by simp [hn, hv])), State.storeFields_frame ..⟩
  case stageFault => exact refused_of_written (exec_stackStage_answers s k n v hs) (s.writeStage_fault k.val n.val v e hf)
  case injects =>
    have hw := s.writeInject_open k.val b v hlo hhi hb hok
    rw [if_neg (by simp [hgo])] at hw
    refine ⟨_, hinject hw, fun i => ?_, ?_, fun l hl => State.lineCode_setLineCode_ne s _ hl, rfl⟩
    · rw [State.injected, State.lineCode_setLineCode_self]
      exact flips_injected _ _ i hhi
    · rw [State.injected, State.lineCode_setLineCode_self]
  case noGo =>
    have hw := s.writeInject_open k.val b v hlo hhi hb hok
    rw [if_pos hgo] at hw
    exact hinject hw
  case injectLength => exact refused_of_written (exec_stackInject_answers s k v hs) (s.writeInject_length k.val v h)
  case injectAuth => exact refused_of_written (exec_stackInject_answers s k v hs) (s.writeInject_auth k.val v hlo hhi h)

end Sys2Proof.Machine
end

section
/-!
Blanking (R462, R464) and the sweep (R313, R465, R469 to R471).
-/
namespace Sys2Proof.Machine

/-! ### Intervals of unclean pages -/

/-- Taking a number out of intervals takes out that number alone. -/
theorem inIntervals_cutInterval (l : List (Nat × Nat)) (x y : Nat) : inIntervals (cutInterval l x) y = (inIntervals l y && decide (y ≠ x)) := by
  induction l with
  | nil => rfl
  | cons e l ih =>
    have hcons : cutInterval (e :: l) x = (if e.1 ≤ x ∧ x ≤ e.2 then
        (if e.1 < x then [(e.1, x - 1)] else []) ++ (if x < e.2 then [(x + 1, e.2)] else []) else [e]) ++ cutInterval l x := rfl
    have happend (a b : List (Nat × Nat)) : inIntervals (a ++ b) y = (inIntervals a y || inIntervals b y) := List.any_append
    have hhead : inIntervals (if e.1 ≤ x ∧ x ≤ e.2 then
        (if e.1 < x then [(e.1, x - 1)] else []) ++ (if x < e.2 then [(x + 1, e.2)] else []) else [e]) y =
        (decide (e.1 ≤ y) && decide (y ≤ e.2) && decide (y ≠ x)) := by
      rw [Bool.eq_iff_iff]
      split
      · simp only [happend, Bool.or_eq_true]
        split <;> split <;> simp [inIntervals] <;> omega
      · simp [inIntervals]
        omega
    rw [hcons, happend, hhead, ih]
    simp only [inIntervals, List.any_cons]
    cases decide (y ≠ x) <;> simp

/-! ### Blanking -/

theorem stackOfPage_local {k page : Nat} (h : page < Config.stackPages) : stackOfPage (k * Config.stackPages + page) = k := by
  have hpos : 0 < Config.stackPages := by decide
  rw [stackOfPage, Nat.mul_comm, Nat.mul_add_div hpos, Nat.div_eq_of_lt h, Nat.add_zero]

theorem localPage_local {k page : Nat} (h : page < Config.stackPages) : localPage (k * Config.stackPages + page) = page := by
  rw [localPage, Nat.mul_comm, Nat.mul_add_mod, Nat.mod_eq_of_lt h]

/-- A page is given by its stack and its number within the stack. -/
theorem page_eq_iff {p k page : Nat} (h : page < Config.stackPages) :
    p = k * Config.stackPages + page ↔ stackOfPage p = k ∧ localPage p = page := by
  constructor
  · rintro rfl
    exact ⟨stackOfPage_local h, localPage_local h⟩
  · rintro ⟨rfl, rfl⟩
    exact (Nat.div_add_mod' p Config.stackPages).symm

/-- A blanked page as the command leaves it: regions that have no unclean page any more are ready (R454, R462). -/
def State.blanked (s : State) (k page : Nat) : State := (s.blankPage (k * Config.stackPages + page)).modStack k StackSt.noteReady

theorem exec_blankPage_blanks (s : State) (k : StackId) (page : Nat) (hp : page < Config.stackPages) (hout : (s.stack k.val).out = false)
    (hu : s.unclean (k.val * Config.stackPages + page) = true) : exec (.blankPage k page) s = .next (s.blanked k.val page) := by
  change execBlankPage k page s = _
  simp only [execBlankPage, hp, hout, hu, and_self, if_true, State.blanked]

theorem exec_blankPage_idle (s : State) (k : StackId) (page : Nat)
    (h : Config.stackPages ≤ page ∨ (s.stack k.val).out = true ∨ s.unclean (k.val * Config.stackPages + page) = false) :
    exec (.blankPage k page) s = .next s := by
  change execBlankPage k page s = _
  rcases h with h | h | h
  · simp only [execBlankPage, Nat.not_lt.2 h, false_and, if_false]
  · simp only [execBlankPage, h, Bool.true_eq_false, false_and, and_false, if_false]
  · simp only [execBlankPage, h, Bool.false_eq_true, and_false, if_false]

theorem State.blankPage_frame (s : State) (p : Nat) :
    s.blankPage p = { s with regs := (s.blankPage p).regs, hbm := (s.blankPage p).hbm } := rfl

theorem State.blanked_frame (s : State) (k page : Nat) :
    s.blanked k page = { s with regs := (s.blanked k page).regs, hbm := (s.blanked k page).hbm } := by
  unfold State.blanked
  generalize k * Config.stackPages + page = p
  rw [s.blankPage_frame p]
  rfl

theorem State.blanked_mem (s : State) (k page : Nat) :
    (s.blanked k page).hbm.mem = Memory.clear s.hbm.mem ((k * Config.stackPages + page) * Config.pageBytes) Config.pageBytes := by
  unfold State.blanked
  generalize k * Config.stackPages + page = p
  rfl

theorem tget_filter {α : Type} (d : Nat → α) (m : Table α) (f : Nat → Bool) (k : Nat) :
    tget d (m.filter fun e => f e.1) k = if f k = true then tget d m k else d k := by
  induction m with
  | nil => simp
  | cons e m ih =>
    obtain ⟨i, w⟩ := e
    rw [List.filter_cons, tget_cons]
    by_cases hi : k = i
    · subst hi
      by_cases hf : f k = true <;> simp [hf, tget_cons, ih]
    · by_cases hf : f i = true <;> simp [hf, tget_cons, hi, ih]

theorem State.blanked_lineCode (s : State) (k page l : Nat) :
    (s.blanked k page).lineCode l = if l / 1024 = k * Config.stackPages + page then {} else s.lineCode l := by
  have hlines : (s.blanked k page).hbm.lines = s.hbm.lines.filter fun e => e.1 / 1024 != k * Config.stackPages + page := by
    unfold State.blanked
    generalize k * Config.stackPages + page = p
    rfl
  rw [State.lineCode, hlines, tget_filter (fun _ => ({} : LineCode)) s.hbm.lines fun i => i / 1024 != k * Config.stackPages + page]
  by_cases hl : l / 1024 = k * Config.stackPages + page <;> simp [hl, State.lineCode]

/-- A line without a code decodes as blank (R460). -/
theorem LineCode.decode_default (d : Nat) : ({} : LineCode).decode d = .blank := rfl

theorem State.blanked_unclean (s : State) (k page p : Nat) (hp : page < Config.stackPages) :
    (s.blanked k page).unclean p = (s.unclean p && decide (p ≠ k * Config.stackPages + page)) := by
  have hstack (j : Nat) : ((s.blanked k page).stack j).unclean =
      if j = k then cutInterval (s.stack k).unclean page else (s.stack j).unclean := by
    rw [State.blanked, State.stack_modStack, State.blankPage, stackOfPage_local hp, localPage_local hp]
    split
    next h =>
      rw [State.bump_stack, State.stack_modStack_self]
      rfl
    next h =>
      rw [State.bump_stack, State.stack_modStack_ne _ _ h]
      rfl
  rw [State.unclean, hstack]
  split
  next h =>
    rw [inIntervals_cutInterval, State.unclean, h]
    congr 1
    rw [decide_eq_decide, ne_eq, ne_eq, page_eq_iff hp]
    simp [h]
  next h =>
    have hne : p ≠ k * Config.stackPages + page := fun e => h ((page_eq_iff hp).1 e).1
    simp [hne, State.unclean]

/-! ### What the sweep can move -/

/-- Where each stack's sweep stands: its position and its laps. -/
def State.sweepAts (s : State) : Nat → Nat × Nat := fun k => ((s.stack k).sweepPos, (s.stack k).laps)

/-- From `s` to `t` only error records, free values and the books of stacks have moved: no byte, no line, no sweep. -/
structure StackBooks (s t : State) : Prop where
  frame : t = { s with fresh := t.fresh, regs := t.regs, stew := t.stew, hbm := { s.hbm with units := t.hbm.units } }
  sweeps : t.sweepAts = s.sweepAts

theorem StackBooks.refl (s : State) : StackBooks s s := ⟨rfl, rfl⟩

theorem StackBooks.trans {s t u : State} (a : StackBooks s t) (b : StackBooks t u) : StackBooks s u where
  frame := by rw [b.frame, a.frame]
  sweeps := b.sweeps.trans a.sweeps

theorem StackBooks.ite {c : Prop} [Decidable c] {s a b : State} (ha : StackBooks s a) (hb : StackBooks s b) :
    StackBooks s (if c then a else b) := by
  split <;> assumption

theorem StackBooks.lineCode {s t : State} (h : StackBooks s t) (l : Nat) : t.lineCode l = s.lineCode l := by
  rw [h.frame]
  rfl

theorem State.bump_books (s : State) (p : Page) (off n : Nat) : StackBooks s (s.bump p off n) := ⟨rfl, rfl⟩

theorem State.tick_books (s : State) : StackBooks s s.tick := ⟨rfl, rfl⟩

theorem State.logEvent_books (s : State) (p : Page) (c : Code) (a : Nat) : StackBooks s (s.logEvent p c a) := by
  have hlog := (s.logError_logged p c a 0 0 false (base_ne_lost p (base_aligned p))).1
  rw [State.logEvent, hlog]
  exact ⟨rfl, rfl⟩

/-- A change of a stack that leaves its sweep. -/
theorem State.modStack_sweepAts (s : State) (k : Nat) (f : StackSt → StackSt)
    (h : ∀ x, (f x).sweepPos = x.sweepPos ∧ (f x).laps = x.laps) : (s.modStack k f).sweepAts = s.sweepAts := by
  funext j
  simp only [State.sweepAts, State.stack_modStack]
  split
  next hj => rw [hj, (h _).1, (h _).2]
  next => rfl

theorem State.modStack_books (s : State) (k : Nat) (f : StackSt → StackSt) (h : ∀ x, (f x).sweepPos = x.sweepPos ∧ (f x).laps = x.laps) :
    StackBooks s (s.modStack k f) :=
  ⟨rfl, s.modStack_sweepAts k f h⟩

theorem State.listRow_books (s : State) (l : Nat) : StackBooks s (s.listRow l) := by
  unfold State.listRow
  exact .ite (.refl s) (.ite (s.modStack_books _ _ fun _ => ⟨rfl, rfl⟩) (s.logEvent_books ..))

theorem State.noteCorrected_books (s : State) (k l : Nat) : StackBooks s (s.noteCorrected k l) := by
  have hnote := s.modStack_books k (fun x => { x with correctedNow := if l ∈ x.correctedNow then x.correctedNow else x.correctedNow ++ [l] })
    fun _ => ⟨rfl, rfl⟩
  exact .ite (hnote.trans (State.listRow_books ..)) hnote

/-- From `s` to `t` of the memory the code of line `l` alone has moved. -/
structure LineStep (l : Nat) (s t : State) : Prop where
  frame : t = { s with fresh := t.fresh, regs := t.regs, stew := t.stew, hbm := { t.hbm with mem := s.hbm.mem } }
  sweeps : t.sweepAts = s.sweepAts
  others : ∀ j, j ≠ l → t.lineCode j = s.lineCode j

theorem StackBooks.lineStep {s t : State} (h : StackBooks s t) (l : Nat) : LineStep l s t where
  frame := by rw [h.frame]
  sweeps := h.sweeps
  others j _ := h.lineCode j

theorem LineStep.trans {l : Nat} {s t u : State} (a : LineStep l s t) (b : LineStep l t u) : LineStep l s u where
  frame := by rw [b.frame, a.frame]
  sweeps := b.sweeps.trans a.sweeps
  others j hj := (b.others j hj).trans (a.others j hj)

theorem State.setLineCode_lineStep (s : State) (l : Nat) (c : LineCode) : LineStep l s (s.setLineCode l c) :=
  ⟨rfl, rfl, fun _ hj => s.lineCode_setLineCode_ne c hj⟩

/-- Poisoning a line puts the marker over its check symbols and books the error (R465). -/
theorem State.poisonLine_lineStep (s : State) (l : Nat) :
    LineStep l s (s.poisonLine l) ∧ (s.poisonLine l).lineCode l = { s.lineCode l with marker := .poison, flips := 0 } := by
  have hbooks : StackBooks (s.setLineCode l { s.lineCode l with marker := .poison, flips := 0 }) (s.poisonLine l) :=
    ((State.bump_books _ _ _ _).trans (State.logEvent_books ..)).trans (State.listRow_books ..)
  exact ⟨(s.setLineCode_lineStep l _).trans (hbooks.lineStep l), (hbooks.lineCode l).trans (State.lineCode_setLineCode_self ..)⟩

/-! ### Eviction -/

theorem State.markUnclean_sweepAts (s : State) (p : Nat) : (s.markUnclean p).sweepAts = s.sweepAts := by
  unfold State.markUnclean
  split
  · rfl
  · exact s.modStack_sweepAts _ _ fun _ => ⟨rfl, rfl⟩

theorem State.dropRefs_sweepAts (s : State) (ps : List Nat) : (s.dropRefs ps).sweepAts = s.sweepAts := by
  refine foldl_keeps State.sweepAts _ ps s fun t p => ?_
  unfold State.dropRef
  split
  · rfl
  · split
    · exact State.markUnclean_sweepAts _ _
    · rfl

theorem State.dropRefs_nodes (s : State) (ps : List Nat) : (s.dropRefs ps).store.nodes = s.store.nodes := by
  refine foldl_keeps (fun t : State => t.store.nodes) _ ps s fun t p => ?_
  unfold State.dropRef State.markUnclean
  repeat' split
  all_goals rfl

theorem State.writeLine_sweepAts (s : State) (l key : Nat) (bs : List (BitVec 8)) (p : Bool) : (s.writeLine l key bs p).sweepAts = s.sweepAts := by
  unfold State.writeLine
  dsimp only
  split_ifs
  · exact s.modStack_sweepAts _ _ fun _ => ⟨rfl, rfl⟩
  all_goals rfl

theorem State.writePart_sweepAts (s : State) (l o key : Nat) (bs : List (BitVec 8)) : (s.writePart l o key bs).sweepAts = s.sweepAts := by
  have hread : (if 7 ≤ (s.lineCode l).errors then s.tick else s).sweepAts = s.sweepAts := by split <;> rfl
  unfold State.writePart
  extract_lets k merge t keep
  split
  · exact s.modStack_sweepAts _ _ fun _ => ⟨rfl, rfl⟩
  split
  · rfl
  have ht : t.sweepAts = s.sweepAts := hread
  have hkeep (u : State) : (keep u).sweepAts = u.sweepAts := State.writeLine_sweepAts _ _ _ _ _
  split
  case h_4 => exact (hkeep _).trans ht
  case h_5 => exact (hkeep _).trans ((State.poisonLine_lineStep t l).1.sweeps.trans ht)
  all_goals exact (State.writeLine_sweepAts _ _ _ _ _).trans ht

theorem State.writeBytes_sweepAts (s : State) (a key : Nat) (bs : List (BitVec 8)) : (s.writeBytes a key bs).sweepAts = s.sweepAts := by
  refine foldl_keeps State.sweepAts _ _ s fun t i => ?_
  extract_lets l lo skip part
  split
  · exact State.writeLine_sweepAts _ _ _ _ _
  · exact State.writePart_sweepAts _ _ _ _ _

/-- What an eviction leaves: where the sweep stands, and every node that is gone. -/
structure Evicts (s t : State) : Prop where
  sweeps : t.sweepAts = s.sweepAts
  gone : ∀ i, tfind s.store.nodes i = none → tfind t.store.nodes i = none

theorem Evicts.refl (s : State) : Evicts s s := ⟨rfl, fun _ h => h⟩

theorem Evicts.trans {s t u : State} (a : Evicts s t) (b : Evicts t u) : Evicts s u :=
  ⟨b.sweeps.trans a.sweeps, fun i h => b.gone i (a.gone i h)⟩

theorem State.setNode_nodes (s : State) (i : Nat) (n : Node) : (s.setNode i n).store.nodes = tset s.store.nodes i n := by
  unfold State.setNode
  split
  · rw [(State.writeBytes_mem _ _ _ _).store]
  · rfl

/-- Writing a node that stands brings none back. -/
theorem State.setNode_evicts (s : State) (i : Nat) (n : Node) (h : tfind s.store.nodes i ≠ none) : Evicts s (s.setNode i n) where
  sweeps := by
    unfold State.setNode
    split
    · exact State.writeBytes_sweepAts _ _ _ _
    · rfl
  gone j hj := by
    rw [s.setNode_nodes, tfind_tset, if_neg fun e : j = i => h (e ▸ hj)]
    exact hj

theorem State.modNode_evicts (s : State) (i : Nat) (f : Node → Node) : Evicts s (s.modNode i f) := by
  unfold State.modNode
  split
  next n hn => exact s.setNode_evicts i _ (by simp [hn])
  next => exact .refl s

/-- A chain runs over nodes that stand. -/
theorem followChain_stands (nodes : Table Node) (fuel : Nat) (first : Option Nat) :
    ∀ e ∈ followChain nodes fuel first, tfind nodes e.1 = some e.2 := by
  induction fuel generalizing first with
  | zero => simp [followChain]
  | succ fuel ih =>
    cases first with
    | none => simp [followChain]
    | some i =>
      rw [followChain]
      split
      next => simp
      next x hx =>
        intro e he
        rcases List.mem_cons.1 he with rfl | he
        · exact hx
        · exact ih _ e he

theorem State.unlinkNode_evicts (s : State) (i : Nat) (n : Node) : Evicts s (s.unlinkNode i n) := by
  unfold State.unlinkNode
  dsimp only
  split
  · exact ⟨rfl, fun _ h => h⟩
  · split
    next e he => exact s.setNode_evicts _ _ (by simp [followChain_stands _ _ _ e (List.mem_of_find?_eq_some he)])
    next => exact .refl s

theorem State.dropPrefix_evicts (s : State) (i : Nat) : Evicts s (s.dropPrefix i) := by
  unfold State.dropPrefix
  split
  · exact .refl s
  · split
    next => exact .refl s
    next pt _ => exact ⟨s.dropRefs_sweepAts _, fun j h => by
      have := s.dropRefs_nodes pt.pages
      simpa [this] using h⟩

/-- An evicted node is gone, and stays so (R312). -/
theorem State.evictNode_evicts (s : State) (i : Nat) : Evicts s (s.evictNode i) ∧ tfind (s.evictNode i).store.nodes i = none := by
  unfold State.evictNode
  split
  next hn => exact ⟨.refl s, hn⟩
  next n _ =>
    extract_lets t st s1 s2
    have hdrop : Evicts s s1 := (s.unlinkNode_evicts i n).trans
      ⟨rfl, fun j h => by
        simp only [s1, tfind_tdrop]
        split
        · rfl
        · exact h⟩
    have hgone : tfind s1.store.nodes i = none := by simp [s1, tfind_tdrop]
    have hrest : Evicts s1 ((s2.dropPrefix n.prefixTable).bump .commons 0x128 1) := by
      have hs2 : Evicts s1 s2 := by
        simp only [s2]
        split
        · exact s1.modNode_evicts _ _
        · exact .refl s1
      exact (hs2.trans (s2.dropPrefix_evicts _)).trans ⟨rfl, fun _ h => h⟩
    exact ⟨hdrop.trans hrest, hrest.gone i hgone⟩

theorem State.evictNodes_evicts (s : State) (l : List Nat) :
    Evicts s (l.foldl (fun (t : State) i => t.evictNode i) s) ∧
      ∀ i ∈ l, tfind (l.foldl (fun (t : State) i => t.evictNode i) s).store.nodes i = none := by
  induction l generalizing s with
  | nil => exact ⟨.refl s, by simp⟩
  | cons j l ih =>
    obtain ⟨hrest, hmem⟩ := ih (s.evictNode j)
    obtain ⟨hfirst, hj⟩ := s.evictNode_evicts j
    refine ⟨hfirst.trans hrest, fun i hi => ?_⟩
    rcases List.mem_cons.1 hi with rfl | hi
    · exact hrest.gone _ hj
    · exact hmem i hi

theorem mem_of_tfind {α : Type} {m : Table α} {k : Nat} {v : α} (h : tfind m k = some v) : (k, v) ∈ m := by
  induction m with
  | nil => simp at h
  | cons e m ih =>
    obtain ⟨j, w⟩ := e
    rw [tfind_cons] at h
    split at h
    next hj =>
      cases h
      simp [hj]
    next => exact List.mem_cons_of_mem _ (ih h)

/-- A page that no table of prefixes references evicts nothing (R313). -/
theorem State.evictPoisoned_unreferenced (s : State) (page : Nat)
    (h : ∀ p ∈ s.store.prefixes, ∀ e ∈ p.2.entries, e.2 ≠ .page page) : s.evictPoisoned page = s := by
  unfold State.evictPoisoned
  extract_lets tables direct grow all
  have htables : tables = [] := List.map_eq_nil_iff.2 <| List.filter_eq_nil_iff.2 fun p hp => by
    simpa using fun a b hm => h p hp ((a, b), _) hm rfl
  have hdirect : direct = [] := List.map_eq_nil_iff.2 <| List.filter_eq_nil_iff.2 fun e _ => by simp [htables]
  have hgrow : grow [] = [] := List.map_eq_nil_iff.2 <| List.filter_eq_nil_iff.2 fun e _ => by cases e.2.parent <;> simp
  have hall : all = [] := List.foldlRecOn _ _ (motive := fun l : List Nat => l = []) hdirect fun l hl _ _ => by
    rw [hl, hgrow]
    rfl
  rw [hall]
  rfl

/-- Every node whose table of prefixes references the poisoned page goes (R313). -/
theorem State.evictPoisoned_evicts (s : State) (page : Nat) : Evicts s (s.evictPoisoned page) ∧
    ∀ i n p, tfind s.store.nodes i = some n → tfind s.store.prefixes n.prefixTable = some p → (∃ e ∈ p.entries, e.2 = .page page) →
      tfind (s.evictPoisoned page).store.nodes i = none := by
  unfold State.evictPoisoned
  extract_lets tables direct grow all
  obtain ⟨hev, hgone⟩ := s.evictNodes_evicts (all.reverse ++ all)
  refine ⟨hev, fun i n p hn hp he => hgone i ?_⟩
  have htable : n.prefixTable ∈ tables :=
    List.mem_map.2 ⟨_, List.mem_filter.2 ⟨mem_of_tfind hp, by simpa using he⟩, rfl⟩
  have hdirect : i ∈ direct := List.mem_map.2 ⟨_, List.mem_filter.2 ⟨mem_of_tfind hn, by simpa using htable⟩, rfl⟩
  have hall : i ∈ all := List.foldlRecOn _ _ (motive := fun l : List Nat => i ∈ l) hdirect
    fun l hl _ _ => List.mem_eraseDups.2 (List.mem_append_left _ hl)
  simp [hall]

/-! ### The sweep of one line -/

theorem LineCode.no_flips_of_errors {c : LineCode} (h : c.errors = 0) : c.flips = 0 := by
  have hall : ∀ f : BitVec 8, ((List.range 8).filter fun i => f.toNat.testBit i).length = 0 → f = 0 := by decide
  exact hall c.flips h

/-- The state in which the sweep has read a line: the read is counted, and an open outcome has taken its draw (log 10). -/
def State.sweepRead (s : State) (k l : Nat) : State :=
  if 7 ≤ (s.lineCode l).errors then (s.bump (.sweep k) 0x110 1).tick else s.bump (.sweep k) 0x110 1

theorem State.sweepRead_books (s : State) (k l : Nat) : StackBooks s (s.sweepRead k l) := .ite ⟨rfl, rfl⟩ ⟨rfl, rfl⟩

/-- A line that the sweep has read with its corrections written back (R469). -/
def State.sweepFixed (s : State) (k l : Nat) (c : LineCode) : State :=
  ((s.setLineCode l { c with flips := 0 }).bump (.sweep k) 0x118 1).noteCorrected k l

theorem State.sweepAt_eq (s : State) (k l : Nat) : s.sweepAt k l = match (s.lineCode l).decode s.fresh with
    | .corrected _ => (s.sweepRead k l).sweepFixed k l (s.lineCode l)
    | .uncorrectable => ((s.sweepRead k l).poisonLine l).evictPoisoned (l / 1024)
    | _ => s.sweepRead k l := by
  unfold State.sweepAt State.sweepRead State.sweepFixed
  rfl

theorem State.sweepFixed_lineStep (s : State) (k l : Nat) (c : LineCode) :
    LineStep l s (s.sweepFixed k l c) ∧ (s.sweepFixed k l c).lineCode l = { c with flips := 0 } := by
  have hbooks : StackBooks (s.setLineCode l { c with flips := 0 }) (s.sweepFixed k l c) :=
    (State.bump_books _ _ _ _).trans (State.noteCorrected_books ..)
  exact ⟨(s.setLineCode_lineStep l _).trans (hbooks.lineStep l), (hbooks.lineCode l).trans (State.lineCode_setLineCode_self ..)⟩

theorem LineCode.decode_marked {c : LineCode} (he : c.errors ≤ 2) (hm : c.marker ≠ .clean) (d : Nat) :
    c.decode d = .blank ∨ c.decode d = .poisoned := by
  rw [LineCode.decode, if_pos he]
  split
  next => exact .inl rfl
  next => exact .inr rfl
  next h => exact absurd h hm

theorem LineCode.decode_wrong {c : LineCode} (hlo : 3 ≤ c.errors) (hhi : c.errors ≤ 6) (d : Nat) : c.decode d = .uncorrectable := by
  rw [LineCode.decode, if_neg (by omega), if_pos hhi]

theorem LineCode.decode_corrects {c : LineCode} (he : c.errors ≤ 2) (hm : c.marker = .clean) (d : Nat) :
    c.decode d = if c.errors = 0 then .data else .corrected c.errors := by
  rw [LineCode.decode, if_pos he, hm]

/-- A line that decodes to nothing uncorrectable has a correction written back or keeps its code. -/
theorem State.sweepAt_lineStep (s : State) (k l : Nat) (h : (s.lineCode l).decode s.fresh ≠ .uncorrectable) : LineStep l s (s.sweepAt k l) := by
  have hread := (s.sweepRead_books k l).lineStep l
  rw [s.sweepAt_eq]
  split
  next => exact hread.trans (State.sweepFixed_lineStep ..).1
  next hd => exact absurd hd h
  next => exact hread

/-- One or two symbols in error and no marker: the line is written back without them (R469). -/
theorem State.sweepAt_corrects (s : State) (k l : Nat) (he : (s.lineCode l).errors ≤ 2) (hm : (s.lineCode l).marker = .clean) :
    (s.sweepAt k l).lineCode l = { s.lineCode l with flips := 0 } := by
  rw [s.sweepAt_eq, LineCode.decode_corrects he hm]
  by_cases h0 : (s.lineCode l).errors = 0
  · rw [if_pos h0, ← LineCode.no_flips_of_errors h0]
    exact (s.sweepRead_books k l).lineCode l
  · rw [if_neg h0]
    exact (State.sweepFixed_lineStep ..).2

/-- A blank or poisoned line keeps its code (R469). -/
theorem State.sweepAt_keeps (s : State) (k l : Nat) (he : (s.lineCode l).errors ≤ 2) (hm : (s.lineCode l).marker ≠ .clean) :
    (s.sweepAt k l).lineCode l = s.lineCode l := by
  rw [s.sweepAt_eq]
  rcases LineCode.decode_marked he hm s.fresh with hd | hd <;> rw [hd] <;> exact (s.sweepRead_books k l).lineCode l

theorem State.sweepAt_poisons (s : State) (k l : Nat) (hd : (s.lineCode l).decode s.fresh = .uncorrectable) :
    s.sweepAt k l = ((s.sweepRead k l).poisonLine l).evictPoisoned (l / 1024) := by
  rw [s.sweepAt_eq, hd]

/-- The read and the poisoning of a line keep what is stored of prefixes. -/
theorem State.poisonLine_sweepRead_store (s : State) (k l : Nat) : ((s.sweepRead k l).poisonLine l).store = s.store := by
  rw [(State.poisonLine_mem _ _).store, (s.sweepRead_books k l).frame]

/-- With no shared entries on its page, a line that is poisoned is the only one to move. -/
theorem State.sweepAt_poisons_lineStep (s : State) (k l : Nat) (hd : (s.lineCode l).decode s.fresh = .uncorrectable)
    (h : ∀ p ∈ s.store.prefixes, ∀ e ∈ p.2.entries, e.2 ≠ .page (l / 1024)) :
    LineStep l s (s.sweepAt k l) ∧ ((s.sweepAt k l).lineCode l).marker = .poison := by
  obtain ⟨hstep, hcode⟩ := (s.sweepRead k l).poisonLine_lineStep l
  rw [s.sweepAt_poisons k l hd, State.evictPoisoned_unreferenced _ _ (by rwa [s.poisonLine_sweepRead_store k l])]
  exact ⟨((s.sweepRead_books k l).lineStep l).trans hstep, by rw [hcode]⟩

theorem State.sweepAt_sweepAts (s : State) (k l : Nat) : (s.sweepAt k l).sweepAts = s.sweepAts := by
  by_cases hd : (s.lineCode l).decode s.fresh = .uncorrectable
  · rw [s.sweepAt_poisons k l hd, (State.evictPoisoned_evicts _ _).1.sweeps, (State.poisonLine_lineStep _ l).1.sweeps,
      (s.sweepRead_books k l).sweeps]
  · exact (s.sweepAt_lineStep k l hd).sweeps

/-- What SWEEP_LINE does to the line at the position, before the position moves on (R469). -/
def State.sweptLine (s : State) (k : Nat) : State :=
  if s.unclean (pageOf (k * Config.stackBytes + (s.stack k).sweepPos)) then s
  else s.sweepAt k ((k * Config.stackBytes + (s.stack k).sweepPos) / 64)

theorem exec_sweepLine_sweeps (s : State) (k : StackId) (h : s.sweeping k.val = true) :
    exec (.sweepLine k) s = .next ((s.sweptLine k.val).sweepNext k.val) := by
  change execSweepLine k s = _
  unfold execSweepLine State.sweptLine
  dsimp only
  rw [if_neg (by simp [h])]

theorem exec_sweepLine_idle (s : State) (k : StackId) (h : s.sweeping k.val = false) : exec (.sweepLine k) s = .next s := if_pos h

theorem State.sweptLine_sweepAts (s : State) (k : Nat) : (s.sweptLine k).sweepAts = s.sweepAts := by
  unfold State.sweptLine
  split
  · rfl
  · exact s.sweepAt_sweepAts _ _

theorem State.sweepNext_frame (s : State) (k : Nat) : s.sweepNext k = { s with hbm := { s.hbm with units := (s.sweepNext k).hbm.units } } := rfl

theorem State.sweepNext_lineCode (s : State) (k l : Nat) : (s.sweepNext k).lineCode l = s.lineCode l := rfl

theorem State.sweepNext_nodes (s : State) (k : Nat) : (s.sweepNext k).store = s.store := rfl

/-- The position moves on by a line; past the last one the lap counts (R470, R471). -/
theorem State.sweepNext_sweepAts (s : State) (k : Nat) : (s.sweepNext k).sweepAts k =
    if (s.sweepAts k).1 + 64 < Config.stackBytes then ((s.sweepAts k).1 + 64, (s.sweepAts k).2) else (0, min 0xFFFF ((s.sweepAts k).2 + 1)) := by
  simp only [State.sweepAts, State.sweepNext, State.stack_modStack_self]
  by_cases h : (s.stack k).sweepPos + 64 < Config.stackBytes <;> simp only [h, if_true, if_false]

/-- Settles O18: an unclean page is cleared, and the sweep does to its line what the line's code decodes to. -/
theorem blankingAndSweeping : Obligations.BlankingAndSweeping := by
  refine ⟨fun s k page => ⟨fun hp hout hu => ?blanks, fun h => exec_blankPage_idle s k page h⟩,
    fun s k l hl => ⟨fun h => ?sweeps, fun h => exec_sweepLine_idle s k h⟩⟩
  case blanks =>
    refine ⟨_, exec_blankPage_blanks s k page hp hout hu, fun i hi => ?_, fun i hi d => ?_, ?_, fun a ha => ?_, fun x hx => ?_, fun p hne => ?_,
      s.blanked_frame k.val page⟩
    · rw [s.blanked_mem, Memory.get_clear, if_pos ⟨Nat.le_add_right .., Nat.add_lt_add_left hi _⟩]
    · rw [s.blanked_lineCode, if_pos (by omega)]
      exact LineCode.decode_default d
    · rw [s.blanked_unclean _ _ _ hp]
      simp
    · rw [s.blanked_mem, Memory.get_clear, if_neg]
      change ¬(_ * 65536 ≤ a ∧ a < _ * 65536 + 65536)
      omega
    · rw [s.blanked_lineCode, if_neg hx]
    · rw [s.blanked_unclean _ _ _ hp]
      simp [hne]
  case sweeps =>
    have hline (hclean : s.unclean (pageOf (k.val * Config.stackBytes + (s.stack k.val).sweepPos)) = false) :
        s.sweptLine k.val = s.sweepAt k.val l := by
      rw [State.sweptLine, hclean, hl]
      rfl
    refine ⟨_, exec_sweepLine_sweeps s k h, fun hu => ?unclean, fun hclean => ⟨fun he hm => ?corrects, fun he hm => ?keeps,
      fun hlo hhi i n p hn hp he => ?evicts⟩, fun hcase => ?moves, fun hpos => ?on, fun hpos => ?lap⟩
    case unclean =>
      rw [State.sweepNext_lineCode, State.sweptLine, if_pos hu]
    case corrects =>
      rw [State.sweepNext_lineCode, hline hclean]
      exact s.sweepAt_corrects k.val l he hm
    case keeps =>
      rw [State.sweepNext_lineCode, hline hclean]
      exact s.sweepAt_keeps k.val l he hm
    case evicts =>
      have hstore := s.poisonLine_sweepRead_store k.val l
      rw [State.sweepNext_nodes, hline hclean, s.sweepAt_poisons k.val l (LineCode.decode_wrong hlo hhi _)]
      exact (State.evictPoisoned_evicts _ _).2 i n p (by rwa [hstore]) (by rwa [hstore]) he
    case moves =>
      have hstep : LineStep l s (s.sweptLine k.val) := by
        by_cases hclean : s.unclean (pageOf (k.val * Config.stackBytes + (s.stack k.val).sweepPos)) = true
        · rw [State.sweptLine, if_pos hclean]
          exact (StackBooks.refl s).lineStep l
        rw [hline (by simpa using hclean)]
        by_cases hd : (s.lineCode l).decode s.fresh = .uncorrectable
        · refine (s.sweepAt_poisons_lineStep k.val l hd (hcase.resolve_left fun he => ?_)).1
          by_cases hm : (s.lineCode l).marker = .clean
          · rw [LineCode.decode_corrects he hm] at hd
            split at hd <;> cases hd
          · rcases LineCode.decode_marked he hm s.fresh with h' | h' <;> rw [h'] at hd <;> cases hd
        · exact s.sweepAt_lineStep k.val l hd
      refine ⟨hstep.others, fun hclean hlo hhi => ?_, ?_⟩
      · rw [State.sweepNext_lineCode, hline hclean]
        exact (s.sweepAt_poisons_lineStep k.val l (LineCode.decode_wrong hlo hhi _) (hcase.resolve_left (by omega))).2
      · rw [State.sweepNext_frame, hstep.frame]
    case on =>
      have hat := (s.sweptLine k.val).sweepNext_sweepAts k.val
      rw [s.sweptLine_sweepAts, if_pos (show (s.sweepAts k.val).1 + 64 < _ from hpos)] at hat
      exact Prod.ext_iff.1 hat
    case lap =>
      have hat := (s.sweptLine k.val).sweepNext_sweepAts k.val
      rw [s.sweptLine_sweepAts, if_neg (show ¬(s.sweepAts k.val).1 + 64 < _ from Nat.not_lt.2 hpos)] at hat
      exact Prod.mk.inj hat

end Sys2Proof.Machine
end

section
/-!
Faults of a hub (R481, R585): what HUB_FAULT does to a session table that lists an entry twice.
-/
namespace Sys2Proof.Machine

/-- A package in service whose session table lists entry 0 twice, free where reads of the table look and in use in the line behind it. -/
def State.entryListedTwice : State :=
  { pkg := { phase := .service }, serve := { sessions := [(0, {}), (0, { st := .openS })] } }

theorem State.entryListedTwice_free : State.entryListedTwice.sess 0 = {} := rfl

/-- HUB_FAULT goes over the lines of the table, so that the line behind marks the free entry for its end. -/
theorem State.entryListedTwice_faulted : ((State.entryListedTwice.faultHub 0).sess 0).fenceDue = true := by decide

/-- Refutes O19: that a hub's fault leaves every free session entry fails where the session table lists an entry twice, a form that the statement does
not exclude: HUB_FAULT marks each entry that some line has in use, and reads find the first line. -/
theorem not_alarmsFaultsAndPoison : ¬ Obligations.AlarmsFaultsAndPoison := by
  intro h
  obtain ⟨_, _, _, hfault, _⟩ := h.1 State.entryListedTwice rfl
  obtain ⟨t, hexec, _, _, hfree, _⟩ := hfault 0 rfl (by decide)
  have ht : t = State.entryListedTwice.faultHub 0 := (Host.Outcome.next.inj hexec).symm
  have hkept := hfree 0 (.inl rfl)
  have hmarked := State.entryListedTwice_faulted
  rw [← ht, hkept, State.entryListedTwice_free] at hmarked
  cases hmarked

end Sys2Proof.Machine
end

section
/-!
Fuse tokens (R508, R535 to R538): the order of the checks, and what LOCK.TOKEN_LOAD leaves.
-/
namespace Sys2Proof.Machine

/-! ### The checks in their order (R538) -/

theorem State.tokenFault_busy (s : State) (a n : Nat) (k : Token) (hn : n = 370 ∨ n = 484) (hbusy : s.lockBusy = true) :
    s.tokenFault a n k = some .busy := by
  rw [State.tokenFault, if_neg (by omega), if_pos hbusy]

/-- Past the checks of the lockhouse and of the partition, those of the token itself are left. -/
theorem State.tokenFault_read (s : State) (a n : Nat) (k : Token) (hn : n = 370 ∨ n = 484) (hbusy : s.lockBusy = false)
    (hpart : s.inPartition a n = true) :
    s.tokenFault a n k =
      if s.tokenFormatOk k n = false then some .format
      else if s.tokenFresh k = false ∨ s.tokenSigned k n = false then some .auth
      else if s.tokenStateOk k = false then some .state
      else if s.tokenCountOk k = false then some .locked
      else none := by
  rw [State.tokenFault, if_neg (by omega), if_neg (by simp [hbusy]), if_neg (by simp [hpart])]

/-- Past format, freshness and signatures, the state and the count of the setting are left. -/
theorem State.tokenFault_sound (s : State) (a n : Nat) (k : Token) (hn : n = 370 ∨ n = 484) (hbusy : s.lockBusy = false)
    (hpart : s.inPartition a n = true) (hformat : s.tokenFormatOk k n = true) (hfresh : s.tokenFresh k = true)
    (hsigned : s.tokenSigned k n = true) :
    s.tokenFault a n k =
      if s.tokenStateOk k = false then some .state else if s.tokenCountOk k = false then some .locked else none := by
  rw [s.tokenFault_read a n k hn hbusy hpart, if_neg (by simp [hformat]), if_neg (by simp [hfresh, hsigned])]

/-- A token in another format, with a reserved byte set, or of another length than its kind and the owner state ask, is not in form. -/
theorem State.tokenFormatOk_false (s : State) (k : Token) (n : Nat)
    (h : k.format ≠ 1 ∨ k.reservedZero = false ∨ (k.kind ≠ 4 ∨ s.lock.fuses.ownerUsed = 0) ∧ n = 484 ∨
      k.kind = 4 ∧ 0 < s.lock.fuses.ownerUsed ∧ n = 370) : s.tokenFormatOk k n = false := by
  rcases h with h | h | ⟨h, rfl⟩ | ⟨hkind, howner, rfl⟩
  · simp [State.tokenFormatOk, h]
  · simp [State.tokenFormatOk, h]
  · have hshort : ¬(k.kind = 4 ∧ 0 < s.lock.fuses.ownerUsed) := by omega
    simp [State.tokenFormatOk, hshort]
  · simp [State.tokenFormatOk, hkind, howner]

/-- A token of another device, nonce or sequence is not fresh. -/
theorem State.tokenFresh_false (s : State) (k : Token)
    (h : k.device ≠ s.lock.fuses.deviceDigest ∨ k.nonce ≠ s.lock.nonce.toNat ∨ k.kind = 1 ∧ k.sequence ≠ s.lock.fuses.ownerUsed ∨
      k.kind = 4 ∧ k.sequence ≠ s.lock.fuses.debugUsed) : s.tokenFresh k = false := by
  rcases h with h | h | ⟨hkind, h⟩ | ⟨hkind, h⟩
  · simp [State.tokenFresh, h]
  · simp [State.tokenFresh, h]
  · simp [State.tokenFresh, hkind, h]
  · simp [State.tokenFresh, hkind, h]

/-- What a token's signatures fail by (R537). -/
def State.TokenUnsigned (s : State) (k : Token) (n : Nat) : Prop :=
  k.kind = 1 ∧ s.lock.fuses.ownerUsed = 0 ∧ signed s.pkg.rom.ownerRoot ['T', 'O', 'K', 'E', 'N'] k.region k.signature1 = false ∨
  (k.kind = 2 ∨ k.kind = 3) ∧ natOf (shake256 k.ownerKey 32) ≠ s.lock.fuses.ownerDigest ∨
  (k.kind = 2 ∨ k.kind = 3) ∧ signed (natOf k.ownerKey) ['T', 'O', 'K', 'E', 'N'] k.region k.signature1 = false ∨
  k.kind = 4 ∧ signed s.pkg.rom.debug ['T', 'O', 'K', 'E', 'N'] k.region k.signature1 = false ∨
  n = 484 ∧ signed (natOf k.ownerKey) ['T', 'O', 'K', 'E', 'N'] k.region k.signature2 = false

theorem State.tokenSigned_false (s : State) (k : Token) (n : Nat) (h : s.TokenUnsigned k n) : s.tokenSigned k n = false := by
  rcases h with ⟨hkind, howner, h⟩ | ⟨hkind, h⟩ | ⟨hkind, h⟩ | ⟨hkind, h⟩ | ⟨hn, h⟩
  · simp [State.tokenSigned, hkind, howner, h]
  · simp [State.tokenSigned, hkind, h]
  · have hne : k.kind ≠ 4 := by omega
    simp [State.tokenSigned, hkind, hne, h]
  · simp [State.tokenSigned, hkind, h]
  · simp [State.tokenSigned, hn, h]

/-! ### LOCK.TOKEN_LOAD -/

theorem State.readToken_mem (s : State) (a n : Nat) : MemStep s (s.readToken a n).1 := s.hostRead_mem a n

theorem State.writeToken_other (s : State) (h : Nat) (v : Word) (hh : h ≠ 0) : s.writeToken h v = s.refuse (.lock h) 0x110 .auth := if_pos hh

/-- The commands that write LOCK.TOKEN_LOAD of a hub (R508, R536). -/
def tokenLoads (h : HubId) (v : Word) : List Instr := [.ownerTransfer h v, .pubWrite h v, .pubRevoke h v, .debugAuth h v]

theorem exec_tokenLoads_answers (s : State) (h : HubId) (v : Word) (hans : s.answers = true) :
    ∀ c ∈ tokenLoads h v, exec c s = .next (s.writeToken h.val v).1 := by
  intro c hc
  simp only [tokenLoads, List.mem_cons, List.not_mem_nil, or_false] at hc
  rcases hc with rfl | rfl | rfl | rfl
  · exact s.access_answers (.ownerTransfer h v) (fun t => (t.writeToken h.val v).1) hans
  · exact s.access_answers (.pubWrite h v) (fun t => (t.writeToken h.val v).1) hans
  · exact s.access_answers (.pubRevoke h v) (fun t => (t.writeToken h.val v).1) hans
  · exact s.access_answers (.debugAuth h v) (fun t => (t.writeToken h.val v).1) hans

/-- The burn that a token begins (R535). -/
def Token.burn (k : Token) : Burn := { kind := k.kind, slot := k.slot, key := k.publisherKey, owner := k.newOwner, scope := k.scope }

/-- `s` with a burn in progress, the register of the token stored. -/
def State.burning (s : State) (v : Word) (b : Burn) : State :=
  { s with regs := (s.storeFields (.lock 0) 0x110 v).regs, lock := { s.lock with burn := some b } }

theorem State.writeToken_burns (s : State) (v : Word) (hgo : v.bit 0 = true)
    (h : s.tokenFault (v.field 6 42 * 64) (v.field 48 16) (s.readToken (v.field 6 42 * 64) (v.field 48 16)).2 = none) :
    s.writeToken 0 v = ok ((s.readToken (v.field 6 42 * 64) (v.field 48 16)).1.burning v
      (s.readToken (v.field 6 42 * 64) (v.field 48 16)).2.burn) := by
  simp only [State.writeToken, hgo, h, ne_eq, not_true_eq_false, Bool.true_eq_false, if_false]
  rw [State.storeFields_frame]
  rfl

theorem State.burning_regAt (s : State) (v : Word) (b : Burn) {a : Nat} (ha : a ≠ (Page.lock 0).base + 0x110) :
    (s.burning v b).regAt a = s.regAt a :=
  s.storeFields_regAt_ne (.lock 0) 0x110 v ha

theorem State.writeToken_refuses (s : State) (v : Word) (e : Code) (hgo : v.bit 0 = true)
    (h : s.tokenFault (v.field 6 42 * 64) (v.field 48 16) (s.readToken (v.field 6 42 * 64) (v.field 48 16)).2 = some e) :
    s.writeToken 0 v = (if s.tokenUnread (v.field 6 42 * 64) (v.field 48 16) then s
      else (s.readToken (v.field 6 42 * 64) (v.field 48 16)).1).lockRefuse 0x110 e := by
  simp only [State.writeToken, hgo, h, ne_eq, not_true_eq_false, Bool.true_eq_false, if_false]

/-- A refusal of the lockhouse is logged, and last_code takes its number (R538, R544). -/
theorem State.lockRefuse_logged (s : State) (off : Nat) (e : Code) :
    (s.lockRefuse off e).1.lock = { s.lock with lastCode := e.num } ∧
      LoggedIn { s with lock := (s.lockRefuse off e).1.lock } (s.lockRefuse off e).1 (.lock 0) e := by
  have hlog := (State.refuse_logged { s with lock := { s.lock with lastCode := e.num } } (.lock 0) off e).1
  have hlock : (s.lockRefuse off e).1.lock = { s.lock with lastCode := e.num } := congrArg State.lock hlog.1
  exact ⟨hlock, hlock ▸ hlog⟩

/-- Settles O20: the checks in the order of R538, and a token's burn or refusal by what the first failing one says. -/
theorem tokensBeginTheirBurnInOrder : Obligations.TokensBeginTheirBurnInOrder := by
  refine ⟨fun s v hans hgo => ⟨fun c hc => ⟨fun hnone => ?burns, fun e he => ?refuses⟩, fun h hh => ?others⟩,
    fun s a n k hn => ⟨s.tokenFault_busy a n k hn, fun hbusy hpart => ?partition, fun hbusy hpart h => ?format, fun hbusy hpart hform h => ?auth,
      fun hbusy hpart hform hfresh hsigned => ?setting⟩⟩
  case burns =>
    have hexec := exec_of_written (exec_tokenLoads_answers s 0 v hans c hc) (s.writeToken_burns v hgo hnone)
    refine ⟨_, hexec, fun k hk => by rw [hk]; rfl, ?_, fun x hx => State.burning_regAt _ _ _ hx⟩
    rw [← (s.readToken_mem (v.field 6 42 * 64) (v.field 48 16)).lock]
    rfl
  case refuses =>
    obtain ⟨hlock, hlog⟩ := State.lockRefuse_logged (if s.tokenUnread (v.field 6 42 * 64) (v.field 48 16) = true then s
      else (s.readToken (v.field 6 42 * 64) (v.field 48 16)).1) 0x110 e
    rw [← s.writeToken_refuses v e hgo he] at hlock hlog
    refine ⟨_, exec_tokenLoads_answers s 0 v hans c hc, hlock.trans ?_, hlog⟩
    rw [apply_ite State.lock, (s.readToken_mem (v.field 6 42 * 64) (v.field 48 16)).lock, ite_self]
  case others =>
    have hne : h.val ≠ 0 := fun e => hh (Fin.ext e)
    have hrefused (c : Instr) (hc : c ∈ tokenLoads h v) : Refused c s (.lock h.val) .auth :=
      refused_of_written (exec_tokenLoads_answers s h v hans c hc) (s.writeToken_other h.val v hne)
    exact ⟨hrefused _ (by simp [tokenLoads]), hrefused _ (by simp [tokenLoads]), hrefused _ (by simp [tokenLoads]),
      hrefused _ (by simp [tokenLoads])⟩
  case partition =>
    rw [State.tokenFault, if_neg (by omega), if_neg (by simp [hbusy]), if_pos hpart]
  case format =>
    rw [s.tokenFault_read a n k hn hbusy hpart, if_pos (s.tokenFormatOk_false k n h)]
  case auth =>
    rw [s.tokenFault_read a n k hn hbusy hpart, if_neg (by simp [hform]), if_pos]
    rcases h with h | h | h | h | h
    · exact .inl (s.tokenFresh_false k (.inl h))
    · exact .inl (s.tokenFresh_false k (.inr (.inl h)))
    · exact .inl (s.tokenFresh_false k (.inr (.inr (.inl h))))
    · exact .inl (s.tokenFresh_false k (.inr (.inr (.inr h))))
    · exact .inr (s.tokenSigned_false k n h)
  case setting =>
    rw [s.tokenFault_sound a n k hn hbusy hpart hform hfresh hsigned]
    refine ⟨fun hk h => ?_, fun hk h => ?_, fun hk h => ?_, fun hk h => ?_, fun hk hrole hctx h => ?_, fun hk h => ?_⟩
    · rw [if_pos (by simpa [State.tokenStateOk, hk, Option.isSome_iff_ne_none] using h)]
    · rw [if_pos]
      rcases h with h | h <;> simp [State.tokenStateOk, hk, h]
    · rw [if_pos]
      rcases h with h | h <;> simp [State.tokenStateOk, hk, h]
    · simp [State.tokenStateOk, State.tokenCountOk, hk, Nat.not_lt.2 h]
    · simp [State.tokenStateOk, State.tokenCountOk, hk, hrole, hctx, Nat.not_lt.2 h]
    · simp [State.tokenStateOk, State.tokenCountOk, hk, h]

end Sys2Proof.Machine
end

section
/-!
The end of a burn (R529, R535, R537) and attestation (R530, R531).
-/
namespace Sys2Proof.Machine

/-! ### The end of a burn -/

/-- The state in which a burn has ended, before its interrupt (R529, R537). -/
def State.burnt (s : State) (b : Burn) : State :=
  { s with
    lock := { s.lock with
      fuses := s.lock.fuses.burn b, burn := none, nonce := Config.randomWord s.lock.draws, draws := s.lock.draws + 1 }
    serve := { s.serve with
      revoked := if b.kind = 3 then s.serve.revoked ++ [b.slot] else s.serve.revoked
      debugScope := if b.kind = 4 then some b.scope else s.serve.debugScope } }

theorem exec_tokenBurnDone_burns (s : State) (b : Burn) (h : s.lock.burn = some b) :
    exec .tokenBurnDone s = .next ((s.burnt b).raiseIntr 0x4001) := by
  change execTokenBurnDone s = _
  unfold execTokenBurnDone
  rw [h]
  rfl

theorem exec_tokenBurnDone_idle (s : State) (h : s.lock.burn = none) : exec .tokenBurnDone s = .next s := by
  change execTokenBurnDone s = _
  unfold execTokenBurnDone
  rw [h]

theorem Fuses.burn_other (f : Fuses) (b : Burn) (h : b.kind = 0 ∨ 4 < b.kind) : f.burn b = f := by
  unfold Fuses.burn
  split
  case h_5 => rfl
  all_goals omega

theorem Fuses.burn_publisher (f : Fuses) (b : Burn) (h : b.kind = 2) : f.burn b = { f with publishers := tset f.publishers b.slot b.key } := by
  simp [Fuses.burn, h]

theorem Fuses.burn_revokes (f : Fuses) (b : Burn) (h : b.kind = 3) : f.burn b = { f with pubRevoked := f.pubRevoked ++ [b.slot] } := by
  simp [Fuses.burn, h]

/-- Settles O21: the burn's own setting joins the fuses, the nonce is drawn, and the interrupt follows. -/
theorem burnDoneSetsTheFuses : Obligations.BurnDoneSetsTheFuses := by
  refine fun s => ⟨fun b hb => ?burns, fun h => exec_tokenBurnDone_idle s h⟩
  obtain ⟨r, st, hintr, -⟩ := (s.burnt b).raiseIntr_frame 0x4001
  refine ⟨_, (exec_tokenBurnDone_burns s b hb).trans (by rw [hintr]), Fuses.keeps_burn _ _, fun hk => ?owner, fun hk => ?publisher,
    fun hk => ?revoked, fun hk => ?debug, fun hk => Fuses.burn_other _ _ hk, fun i => ?noted, rfl, rfl, rfl⟩
  case owner => simp [State.burnt, Fuses.burn, hk]
  case debug => simp [State.burnt, Fuses.burn, hk]
  case publisher =>
    simp only [State.burnt, Fuses.burn_publisher _ _ hk, tfind_tset]
    exact ⟨trivial, fun _ => trivial⟩
  case revoked =>
    simp only [State.burnt, Fuses.burn_revokes _ _ hk, List.mem_append, List.mem_singleton]
    exact ⟨trivial, fun _ => Or.comm⟩
  case noted =>
    simp only [State.burnt]
    split
    next h3 => simp [h3, or_comm]
    next h3 => simp [h3]

/-! ### LOCK.ATTEST -/

theorem exec_lockAttest_answers (s : State) (h : HubId) (v : Word) (hans : s.answers = true) :
    exec (.lockAttest h v) s = .next (s.writeAttest h.val v).1 :=
  s.access_answers (.lockAttest h v) (fun t => (t.writeAttest h.val v).1) hans

theorem State.writeAttest_other (s : State) (h : Nat) (v : Word) (hh : h ≠ 0) : s.writeAttest h v = s.refuse (.lock h) 0x100 .auth := if_pos hh

/-- The request that a write of LOCK.ATTEST names (R530). -/
def attestRequest (v : Word) : AttestReq := { chain := v.bit 62, addr := v.field 12 36 * 4096, len := v.field 48 14 * 4096 }

/-- `s` with an attestation request waiting for its snapshot, its register stored and done cleared (R530). -/
def State.attesting (s : State) (v : Word) : State :=
  { s with
    regs := ((s.storeFields (.lock 0) 0x100 v).setReg (.lock 0) 0x108 ((s.reg (.lock 0) 0x108).setField 63 1 0)).regs
    lock := { s.lock with attest := some (attestRequest v) } }

theorem State.writeAttest_waits (s : State) (v : Word) (hgo : v.bit 0 = true) (hlen : v.field 48 14 ≠ 0) (hkind : v.field 62 2 ≤ 1)
    (hpart : s.inPartition (v.field 12 36 * 4096) (v.field 48 14 * 4096) = true) (hbusy : s.lockBusy = false) :
    s.writeAttest 0 v = ok (s.attesting v) := by
  have hlen' : v.field 48 14 * 4096 ≠ 0 := by omega
  have hkind' : ¬1 < v.field 62 2 := by omega
  simp only [State.writeAttest, hgo, hlen', hkind', hpart, hbusy, ne_eq, not_true_eq_false, Bool.true_eq_false, Bool.false_eq_true, if_false]
  rw [State.storeFields_frame]
  rfl

theorem State.attesting_status (s : State) (v : Word) : ((s.attesting v).reg (.lock 0) 0x108).bit 63 = false := by
  have hreg : (s.attesting v).reg (.lock 0) 0x108 = (s.reg (.lock 0) 0x108).setField 63 1 0 := State.reg_setReg_self ..
  rw [hreg, Word.bit_eq_field, Word.field_setField _ _ _ _ (by omega)]
  rfl

/-! ### The end of a report -/

/-- `s` with no attestation request. -/
def State.noAttest (s : State) : State := { s with lock := { s.lock with attest := none } }

@[simp] theorem State.noAttest_stack (s : State) (k : Nat) : s.noAttest.stack k = s.stack k := rfl
@[simp] theorem State.noAttest_unclean (s : State) (p : Nat) : s.noAttest.unclean p = s.unclean p := rfl
@[simp] theorem State.noAttest_lineCode (s : State) (l : Nat) : s.noAttest.lineCode l = s.lineCode l := rfl
@[simp] theorem State.noAttest_fresh (s : State) : s.noAttest.fresh = s.fresh := rfl
@[simp] theorem State.noAttest_decrypted (s : State) (l key : Nat) : s.noAttest.decrypted l key = s.decrypted l key := rfl
@[simp] theorem State.noAttest_regionRun (s : State) (a : Nat) : s.noAttest.regionRun a = s.regionRun a := rfl

theorem State.raiseIntr_noAttest (s : State) (id : Nat) : s.noAttest.raiseIntr id = (s.raiseIntr id).noAttest := by
  simp only [State.raiseIntr, apply_ite State.noAttest]
  rfl

theorem State.logEvent_noAttest (s : State) (p : Page) (c : Code) (a : Nat) : s.noAttest.logEvent p c a = (s.logEvent p c a).noAttest := by
  simp only [State.logEvent, State.logError, apply_ite State.noAttest, ← State.raiseIntr_noAttest]
  rfl

theorem State.listRow_noAttest (s : State) (l : Nat) : s.noAttest.listRow l = (s.listRow l).noAttest := by
  simp only [State.listRow, apply_ite State.noAttest, ← State.logEvent_noAttest]
  rfl

theorem State.poisonLine_noAttest (s : State) (l : Nat) : s.noAttest.poisonLine l = (s.poisonLine l).noAttest := by
  simp only [State.poisonLine, ← State.listRow_noAttest, ← State.logEvent_noAttest]
  rfl

theorem State.bump_noAttest (s : State) (p : Page) (off n : Nat) : s.noAttest.bump p off n = (s.bump p off n).noAttest := rfl

theorem State.readLine_noAttest (s : State) (l key : Nat) :
    s.noAttest.readLine l key = ((s.readLine l key).1.noAttest, (s.readLine l key).2) := by
  have htick : (if 7 ≤ (s.noAttest.lineCode l).errors then s.noAttest.tick else s.noAttest) =
      (if 7 ≤ (s.lineCode l).errors then s.tick else s).noAttest := by
    rw [apply_ite State.noAttest]
    rfl
  unfold State.readLine
  dsimp only
  rw [htick]
  simp only [State.noAttest_stack, State.noAttest_unclean, State.noAttest_lineCode, State.noAttest_fresh,
    State.noAttest_decrypted, State.bump_noAttest, State.poisonLine_noAttest]
  by_cases hout : (s.stack (l / 2147483648)).out = true
  · simp only [hout, if_true]
  by_cases hu : s.unclean (pageOf (64 * l)) = true
  · simp only [hout, hu, if_true, Bool.false_eq_true, if_false]
  simp only [hout, hu, Bool.false_eq_true, if_false]
  cases (s.lineCode l).decode s.fresh <;> rfl

/-- One line more of a read that goes over lines. -/
def readOn (key first : Nat) (acc : State × LineData) (i : Nat) : State × LineData :=
  ((acc.1.readLine (first + i) key).1, ⟨acc.2.bytes ++ (acc.1.readLine (first + i) key).2.bytes, acc.2.poison || (acc.1.readLine (first + i) key).2.poison⟩)

/-- The lines that a read of `n` bytes at `a` covers, read in ascending order. -/
def State.readOver (s : State) (a n key : Nat) : State × LineData :=
  (List.range (if n = 0 then 0 else (a + n - 1) / 64 - a / 64 + 1)).foldl (readOn key (a / 64)) (s, ⟨[], false⟩)

theorem State.readBytes_eq (s : State) (a n key : Nat) :
    s.readBytes a n key = ((s.readOver a n key).1, ⟨((s.readOver a n key).2.bytes.drop (a % 64)).take n, (s.readOver a n key).2.poison⟩) := rfl

theorem State.readBytes_noAttest (s : State) (a n key : Nat) :
    s.noAttest.readBytes a n key = ((s.readBytes a n key).1.noAttest, (s.readBytes a n key).2) := by
  have hover : s.noAttest.readOver a n key = ((s.readOver a n key).1.noAttest, (s.readOver a n key).2) :=
    List.foldl_hom (g₁ := readOn key (a / 64)) (g₂ := readOn key (a / 64)) (init := (s, ⟨[], false⟩))
      (fun acc : State × LineData => (acc.1.noAttest, acc.2)) fun acc i => by simp only [readOn, State.readLine_noAttest]
  rw [State.readBytes_eq, State.readBytes_eq, hover]

theorem State.hostRead_noAttest (s : State) (a n : Nat) :
    s.noAttest.hostRead a n = ((s.hostRead a n).1.noAttest, (s.hostRead a n).2) := by
  simp only [State.hostRead, State.noAttest_regionRun, State.readBytes_noAttest]
  cases s.regionRun a <;> rfl

theorem State.writeLine_noAttest (s : State) (l key : Nat) (bs : List (BitVec 8)) (p : Bool) :
    s.noAttest.writeLine l key bs p = (s.writeLine l key bs p).noAttest := by
  simp only [State.writeLine, apply_ite State.noAttest]
  rfl

theorem State.hostWriteLine_noAttest (s : State) (a : Nat) (bs : List (BitVec 8)) :
    s.noAttest.hostWriteLine a bs = (s.hostWriteLine a bs).noAttest := by
  simp only [State.hostWriteLine, State.noAttest_regionRun]
  cases s.regionRun a with
  | none => rfl
  | some r => exact State.writeLine_noAttest { s with links := { s.links with dirtyLines := tdrop s.links.dirtyLines (r.1 / 64) } } _ _ _ _

/-- What the lockhouse writes to host memory does not depend on its request (R421, R531). -/
theorem State.hostWrite_noAttest (s : State) (a : Nat) (bs : List (BitVec 8)) : s.noAttest.hostWrite a bs = (s.hostWrite a bs).noAttest := by
  unfold State.hostWrite
  extract_lets first count
  generalize List.range count = l
  induction l generalizing s with
  | nil => rfl
  | cons i l ih =>
    simp only [List.foldl_cons, State.hostRead_noAttest, State.hostWriteLine_noAttest]
    exact ih _

/-- The end of a report: ATTEST_STATUS takes the code and the length, and the interrupt follows (R531). -/
def State.reported (s : State) (c n : Nat) : State :=
  (s.setReg (.lock 0) 0x108 (Word.put 63 1 1 ||| Word.put 48 8 c ||| Word.put 0 32 n)).raiseIntr 0x4000

theorem exec_attestReportDone_fits (s : State) (r : ReportIn) (a : AttestReq) (body out : List (BitVec 8)) (ha : s.lock.attest = some a)
    (hsnap : a.snap = some body) (hout : out = if a.chain then r.bytes else s.signReport body) (hlen : 64 + out.length ≤ a.len) :
    exec (.attestReportDone r) s = .next ((s.noAttest.hostWrite (a.addr + 64) out).reported 0 out.length) := by
  subst hout
  change execAttestReportDone r s = _
  unfold execAttestReportDone
  rw [ha]
  dsimp only
  rw [hsnap]
  dsimp only
  rw [if_neg (Nat.not_lt.2 hlen)]
  rfl

theorem exec_attestReportDone_long (s : State) (r : ReportIn) (a : AttestReq) (body out : List (BitVec 8)) (ha : s.lock.attest = some a)
    (hsnap : a.snap = some body) (hout : out = if a.chain then r.bytes else s.signReport body) (hlen : a.len < 64 + out.length) :
    exec (.attestReportDone r) s = .next
      (({ s with lock := { s.lock with attest := none, lastCode := Code.length.num } } : State).reported Code.length.num out.length) := by
  subst hout
  change execAttestReportDone r s = _
  unfold execAttestReportDone
  rw [ha]
  dsimp only
  rw [hsnap]
  dsimp only
  rw [if_pos hlen]
  rfl

/-- ATTEST_STATUS as the end of a report leaves it. -/
theorem State.reported_status (s : State) (c n : Nat) (hc : c < 256) :
    ((s.reported c n).reg (.lock 0) 0x108).field 63 1 = 1 ∧ ((s.reported c n).reg (.lock 0) 0x108).field 48 8 = c ∧
      ((s.reported c n).reg (.lock 0) 0x108).field 0 32 = n % 2 ^ 32 := by
  obtain ⟨rg, st, hintr, hregs⟩ := (s.setReg (.lock 0) 0x108 (Word.put 63 1 1 ||| Word.put 48 8 c ||| Word.put 0 32 n)).raiseIntr_frame 0x4000
  have hstatus : (s.reported c n).reg (.lock 0) 0x108 = Word.put 63 1 1 ||| Word.put 48 8 c ||| Word.put 0 32 n := by
    rw [State.reported, hintr]
    exact (hregs _ (by decide)).trans (State.reg_setReg_self ..)
  have hc' : c % 2 ^ 8 = c := Nat.mod_eq_of_lt hc
  rw [hstatus]
  refine ⟨?_, ?_, ?_⟩
  · simp only [Word.field_or, Word.field_put 63 1 _ (by decide), Word.field_put_ne 48 8 _ 63 1 (.inr (by decide)),
      Word.field_put_ne 0 32 _ 63 1 (.inr (by decide)), Nat.or_zero]
    rfl
  · simp only [Word.field_or, Word.field_put_ne 63 1 _ 48 8 (.inl (by decide)), Word.field_put 48 8 _ (by decide),
      Word.field_put_ne 0 32 _ 48 8 (.inr (by decide)), hc', Nat.zero_or, Nat.or_zero]
  · simp only [Word.field_or, Word.field_put_ne 63 1 _ 0 32 (.inl (by decide)), Word.field_put_ne 48 8 _ 0 32 (.inl (by decide)),
      Word.field_put 0 32 _ (by decide), Nat.zero_or]

/-- Settles O22: the request waits with its buffer, and the report goes behind the nonce or ends with LENGTH. -/
theorem attestationWritesItsReport : Obligations.AttestationWritesItsReport := by
  refine fun s v r => ⟨fun hans hgo hlen hkind hpart hbusy => ?waits, fun hans h hh => ?others, fun a body out ha hsnap hout hlen => ?fits,
    fun a body out ha hsnap hout hlen => ?long, fun h => ?idle⟩
  case waits =>
    exact ⟨_, exec_of_written (exec_lockAttest_answers s 0 v hans) (s.writeAttest_waits v hgo hlen hkind hpart hbusy), rfl,
      s.attesting_status v, rfl⟩
  case others =>
    exact refused_of_written (exec_lockAttest_answers s h v hans) (s.writeAttest_other h.val v fun e => hh (Fin.ext e))
  case fits =>
    obtain ⟨hdone, hcode, hlength⟩ := (s.noAttest.hostWrite (a.addr + 64) out).reported_status 0 out.length (by omega)
    obtain ⟨rg, st, hintr, -⟩ := ((s.noAttest.hostWrite (a.addr + 64) out).setReg (.lock 0) 0x108
      (Word.put 63 1 1 ||| Word.put 48 8 0 ||| Word.put 0 32 out.length)).raiseIntr_frame 0x4000
    refine ⟨_, exec_attestReportDone_fits s r a body out ha hsnap hout hlen, ?_, ?_, hdone, hcode, hlength⟩
    · rw [State.reported, hintr, s.hostWrite_noAttest]
      rfl
    · rw [State.reported, hintr, s.hostWrite_noAttest]
      rfl
  case long =>
    obtain ⟨-, hcode, -⟩ := State.reported_status { s with lock := { s.lock with attest := none, lastCode := Code.length.num } }
      Code.length.num out.length (by decide)
    obtain ⟨rg, st, hintr, -⟩ := (({ s with lock := { s.lock with attest := none, lastCode := Code.length.num } } : State).setReg (.lock 0) 0x108
      (Word.put 63 1 1 ||| Word.put 48 8 Code.length.num ||| Word.put 0 32 out.length)).raiseIntr_frame 0x4000
    refine ⟨_, exec_attestReportDone_long s r a body out ha hsnap hout hlen, ?_, ?_, hcode, ?_, ?_⟩ <;> rw [State.reported, hintr] <;> rfl
  case idle =>
    change execAttestReportDone r s = _
    unfold execAttestReportDone
    rw [h]

end Sys2Proof.Machine
end

section
/-!
LOCK.DOMAIN (R443, R444, R508, R541).
-/
namespace Sys2Proof.Machine

theorem exec_domainJoin_answers (s : State) (h : HubId) (v : Word) (hans : s.answers = true) :
    exec (.domainJoin h v) s = .next (s.writeDomain h.val v).1 :=
  s.access_answers (.domainJoin h v) (fun t => (t.writeDomain h.val v).1) hans

theorem exec_domainLeave_answers (s : State) (h : HubId) (v : Word) (hans : s.answers = true) :
    exec (.domainLeave h v) s = .next (s.writeDomain h.val v).1 :=
  s.access_answers (.domainLeave h v) (fun t => (t.writeDomain h.val v).1) hans

theorem State.writeDomain_other (s : State) (h : Nat) (v : Word) (hh : h ≠ 0) : s.writeDomain h v = s.refuse (.lock h) 0x120 .auth := if_pos hh

theorem State.writeDomain_length (s : State) (v : Word) (h : 128 < v.field 16 8) : s.writeDomain 0 v = s.lockRefuse 0x120 .length := by
  rw [State.writeDomain, if_neg (by simp), if_pos h]

theorem State.writeDomain_busy (s : State) (v : Word) (h : v.field 16 8 ≤ 128) (hjoin : v.bit 24 = true)
    (hst : s.lock.domainState = 1 ∨ s.lock.domainState = 4) : s.writeDomain 0 v = s.lockRefuse 0x120 .busy := by
  rw [State.writeDomain, if_neg (by simp), if_neg (by omega), if_pos ⟨hjoin, hst⟩]

/-- What an accepted write does with its join bit set, from the stored register on: it founds the domain, renews its key, or asks the root (R443, R444). -/
def State.joining (s : State) (v : Word) : State :=
  if v.field 0 8 = v.field 8 8 then
    if s.lock.domainState = 3 then s.rekey []
    else s.drawDomainKey.setDomain fun l => { l with
      domainState := 3, members := [v.field 0 8], shared := [], keyEpoch := Config.firstEpoch % 2 ^ 32 }
  else
    ({ s with lock := { (s.lock.drawBytes 7).2 with domainState := 1, joinAt := s.clock.time, joinSecret := (s.lock.drawBytes 7).1 } } : State).send
      { destination := v.field 8 8, type := 0x10, body := [v.field 0 8], data := s.joinData (s.lock.drawBytes 7).1 [] [] }

/-- `s` with the register of the domain stored. -/
def State.domainStored (s : State) (v : Word) : State := { s with regs := (s.storeFields (.lock 0) 0x120 v).regs }

theorem State.writeDomain_joins (s : State) (v : Word) (h : v.field 16 8 ≤ 128) (hjoin : v.bit 24 = true) (hleave : v.bit 25 = false)
    (h1 : s.lock.domainState ≠ 1) (h4 : s.lock.domainState ≠ 4) : s.writeDomain 0 v = ok ((s.domainStored v).joining v) := by
  have hst : s.storeFields (.lock 0) 0x120 v = s.domainStored v := s.storeFields_frame ..
  rw [State.writeDomain, if_neg (by simp), if_neg (by omega), if_neg (by simp [h1, h4])]
  simp only [hjoin, hleave, Bool.true_eq_false, Bool.false_eq_true, if_false, hst, State.joining]
  rfl

theorem State.writeDomain_leaves (s : State) (v : Word) (h : v.field 16 8 ≤ 128) (hjoin : v.bit 24 = false) (hleave : v.bit 25 = true) :
    s.writeDomain 0 v = ok { s with regs := (s.domainStored v).regs, lock := { s.lock with domainState := 4 } } := by
  have hst : s.storeFields (.lock 0) 0x120 v = s.domainStored v := s.storeFields_frame ..
  rw [State.writeDomain, if_neg (by simp), if_neg (by omega), if_neg (by simp [hjoin])]
  simp only [hjoin, hleave, if_true, hst]
  rfl

theorem State.settlePorts_frame (s : State) : s.settlePorts = { s with links := { s.links with ports := s.settlePorts.links.ports } } := by
  refine List.foldlRecOn _ _ (motive := fun t : State => t = { s with links := { s.links with ports := t.links.ports } }) rfl fun t ht p _ => ?_
  rw [ht]
  rfl

theorem State.tellMembers_frame (s : State) (body : List Nat) (key : Option Nat) :
    s.tellMembers body key = { s with links := { s.links with outbox := (s.tellMembers body key).links.outbox } } := by
  refine List.foldlRecOn _ _ (motive := fun t : State => t = { s with links := { s.links with outbox := t.links.outbox } }) rfl fun t ht m _ => ?_
  rw [ht]
  rfl

/-- The lockhouse of a root after it has made a new key under the next epoch (R444, R510). -/
def Lockhouse.rekeyed (l : Lockhouse) (now : Nat) : Lockhouse :=
  { l with
    domainKey := natOf (l.drawBytes 4).1, keyEpoch := (l.keyEpoch + 1) % 2 ^ 32, oldEpoch := some l.keyEpoch
    oldKey := l.domainKey, epochAt := now, draws := l.draws + 4 }

theorem State.rekey_frame (s : State) (notice : List Nat) :
    s.rekey notice = { s with lock := s.lock.rekeyed s.clock.time, links := { s.links with outbox := (s.rekey notice).links.outbox } } := by
  unfold State.rekey
  dsimp only
  rw [State.tellMembers_frame]
  rfl

/-- The lockhouse of a root once it has founded its domain (R443, R510). -/
def Lockhouse.founded (l : Lockhouse) (own : Nat) : Lockhouse :=
  { l with
    domainState := 3, members := [own], shared := [], keyEpoch := Config.firstEpoch % 2 ^ 32, domainKey := natOf (l.drawBytes 4).1
    draws := l.draws + 4 }

/-- `s` once it has founded its domain: the ports settle under the new lockhouse. -/
def State.domainFounded (s : State) (own : Nat) : State :=
  { s with
    lock := s.lock.founded own
    links := { s.links with ports := ({ s with lock := s.lock.founded own } : State).settlePorts.links.ports } }

theorem State.joining_founds (s : State) (v : Word) (h : v.field 0 8 = v.field 8 8) (h3 : s.lock.domainState ≠ 3) :
    s.joining v = s.domainFounded (v.field 0 8) := by
  rw [State.joining, if_pos h, if_neg h3, State.domainFounded]
  exact State.settlePorts_frame { s with lock := s.lock.founded (v.field 0 8) }

/-- The message that asks a root for its domain (R443). -/
def State.joinHello (s : State) (v : Word) : OutMsg :=
  { destination := v.field 8 8, type := 0x10, body := [v.field 0 8], data := s.joinData (s.lock.drawBytes 7).1 [] [] }

/-- `s` once it has asked a root for its domain (R443). -/
def State.joinAsked (s : State) (v : Word) : State :=
  { s with
    lock := { s.lock with domainState := 1, joinAt := s.clock.time, joinSecret := (s.lock.drawBytes 7).1, draws := s.lock.draws + 7 }
    links := { s.links with outbox := s.links.outbox ++ [s.joinHello v] } }

theorem State.joinHello_data (s : State) (v : Word) : (s.joinHello v).data = s.joinData (s.lock.drawBytes 7).1 [] [] := by
  simp only [State.joinHello]

theorem State.joining_asks (s : State) (v : Word) (h : v.field 0 8 ≠ v.field 8 8) : s.joining v = s.joinAsked v := by
  rw [State.joining, if_neg h]
  rfl

/-- Settles O23: one case of LOCK.DOMAIN after the other, through what an accepted write leaves. -/
theorem domainRegisterStartsJoinAndLeave : Obligations.DomainRegisterStartsJoinAndLeave := by
  refine fun s v hans => ⟨fun h hjoin hleave hne h1 h4 => ?asks, fun h hjoin hleave heq h1 h3 h4 => ?founds,
    fun h hjoin hleave heq h3 => ?renews, fun h hjoin hleave => ?leaves, fun h => ?length, fun h hjoin hst => ?busy, fun h hh => ?others⟩
  case asks =>
    have hexec := exec_of_written (exec_domainJoin_answers s 0 v hans) (s.writeDomain_joins v h hjoin hleave h1 h4)
    rw [State.joining_asks _ v hne] at hexec
    have hstored : { s with regs := ((s.domainStored v).joinAsked v).regs } = s.domainStored v := rfl
    refine ⟨(s.domainStored v).joinAsked v, (s.domainStored v).joinHello v, hexec, rfl, rfl, rfl, rfl, ?_, rfl, rfl⟩
    rw [hstored]
    exact State.joinHello_data (s.domainStored v) v
  case founds =>
    have hexec := exec_of_written (exec_domainJoin_answers s 0 v hans) (s.writeDomain_joins v h hjoin hleave h1 h4)
    rw [(s.domainStored v).joining_founds v heq h3] at hexec
    exact ⟨(s.domainStored v).domainFounded (v.field 0 8), hexec, by simp only [State.domainFounded, State.domainStored, Lockhouse.founded],
      by simp only [State.domainFounded, State.domainStored]⟩
  case renews =>
    have hexec := exec_of_written (exec_domainJoin_answers s 0 v hans) (s.writeDomain_joins v h hjoin hleave (by omega) (by omega))
    rw [State.joining, if_pos heq, if_pos (show (s.domainStored v).lock.domainState = 3 from h3), State.rekey_frame] at hexec
    exact ⟨_, hexec, rfl, rfl⟩
  case leaves =>
    exact ⟨_, exec_of_written (exec_domainLeave_answers s 0 v hans) (s.writeDomain_leaves v h hjoin hleave), rfl, rfl⟩
  case length =>
    have hlock := (s.lockRefuse_logged 0x120 .length).1
    exact ⟨_, (exec_domainJoin_answers s 0 v hans).trans (congrArg (fun r : Written => Host.Outcome.next r.1) (s.writeDomain_length v h)), by rw [hlock], by rw [hlock]⟩
  case busy =>
    have hlock := (s.lockRefuse_logged 0x120 .busy).1
    exact ⟨_, (exec_domainJoin_answers s 0 v hans).trans (congrArg (fun r : Written => Host.Outcome.next r.1) (s.writeDomain_busy v h hjoin hst)), by rw [hlock], by rw [hlock]⟩
  case others =>
    have hne : h.val ≠ 0 := fun e => hh (Fin.ext e)
    exact ⟨refused_of_written (exec_domainJoin_answers s h v hans) (s.writeDomain_other h.val v hne),
      refused_of_written (exec_domainLeave_answers s h v hans) (s.writeDomain_other h.val v hne)⟩

end Sys2Proof.Machine
end

section
/-!
Joining a domain, membership and key epochs (R443, R444, R541, R543).
-/
namespace Sys2Proof.Machine

/-! ### What a change of the lockhouse's domain moves -/

theorem State.setDomain_frame (s : State) (f : Lockhouse → Lockhouse) :
    s.setDomain f = { s with lock := f s.lock, links := { s.links with ports := (s.setDomain f).links.ports } } :=
  State.settlePorts_frame { s with lock := f s.lock }

theorem State.setDomain_lock (s : State) (f : Lockhouse → Lockhouse) : (s.setDomain f).lock = f s.lock := by
  rw [s.setDomain_frame f]

/-- Telling the members sends messages behind those that wait. -/
theorem State.tellMembers_outbox (s : State) (body : List Nat) (key : Option Nat) :
    ∀ o ∈ s.links.outbox, o ∈ (s.tellMembers body key).links.outbox := by
  intro o ho
  exact List.foldlRecOn _ _ (motive := fun t : State => o ∈ t.links.outbox) ho fun t ht m _ => List.mem_append_left _ ht

/-- An interrupt after a change of the domain: the registers of interrupts, the lockhouse and the ports move (R443). -/
theorem State.setDomain_raiseIntr (s : State) (f : Lockhouse → Lockhouse) (id : Nat) :
    ∃ r st ports, (s.setDomain f).raiseIntr id =
      { s with regs := r, stew := st, lock := f s.lock, links := { s.links with ports := ports } } := by
  obtain ⟨r, st, hintr, -⟩ := (s.setDomain f).raiseIntr_frame id
  refine ⟨r, st, (s.setDomain f).links.ports, ?_⟩
  rw [hintr, s.setDomain_frame f]

theorem State.joinFailed_logged (s : State) (index : Nat) :
    (s.joinFailed index).lock = { s.lock with lastCode := Code.auth.num } ∧
      LoggedIn { s with lock := (s.joinFailed index).lock } (s.joinFailed index) (.lock 0) .auth := by
  have hlog := State.logError_logged { s with lock := { s.lock with lastCode := Code.auth.num } } (.lock 0) .auth 0 8 index false
    (base_ne_lost _ (base_aligned _))
  have hlock : (s.joinFailed index).lock = { s.lock with lastCode := Code.auth.num } := congrArg State.lock hlog.1
  exact ⟨hlock, hlock ▸ hlog⟩

/-- A join that ends with AUTH (R443). -/
theorem State.joinFailed_ends (s : State) (index : Nat) :
    ∃ r st ports, ((s.joinFailed index).setDomain fun l => { l with domainState := 0 }).raiseIntr 0x4002 =
      { s with
        regs := r, stew := st, lock := { s.lock with domainState := 0, lastCode := Code.auth.num }, links := { s.links with ports := ports } } := by
  obtain ⟨r, st, ports, h⟩ := (s.joinFailed index).setDomain_raiseIntr (fun l => { l with domainState := 0 }) 0x4002
  obtain ⟨hlock, hlog⟩ := s.joinFailed_logged index
  refine ⟨r, st, ports, ?_⟩
  rw [h, hlock, hlog.1]

/-! ### The policy (R443, R541, R543) -/

theorem State.admits_iff (s : State) (r : JoinReport) :
    s.admits r = true ↔ r.certified = true ∧ reportVerifies (nums r.report) = true ∧ fieldAt (nums r.report) 224 32 = s.lock.fuses.ownerDigest ∧
      (fieldAt (nums r.report) 11 1).testBit 0 = false ∧ (s.reg (.lock 0) 0x120).field 16 8 ≤ fieldAt (nums r.report) 148 4 := by
  simp only [State.admits, Bool.and_eq_true, decide_eq_true_eq, Bool.not_eq_true', and_assoc]

theorem State.admits_false (s : State) (r : JoinReport)
    (h : r.certified = false ∨ reportVerifies (nums r.report) = false ∨ fieldAt (nums r.report) 224 32 ≠ s.lock.fuses.ownerDigest ∨
      (fieldAt (nums r.report) 11 1).testBit 0 = true ∨ fieldAt (nums r.report) 148 4 < (s.reg (.lock 0) 0x120).field 16 8) :
    s.admits r = false := by
  rw [Bool.eq_false_iff, ne_eq, s.admits_iff]
  rintro ⟨hcert, hver, howner, hdebug, hsec⟩
  rcases h with h | h | h | h | h
  · simp [h] at hcert
  · simp [h] at hver
  · exact h howner
  · simp [h] at hdebug
  · omega

/-! ### JOIN_HELLO -/

/-- The members of a root's domain with one more (R443). -/
def Lockhouse.withMember (l : Lockhouse) (m : Nat) : List Nat := if m ∈ l.members then l.members else l.members ++ [m]

theorem Lockhouse.mem_withMember (l : Lockhouse) (m i : Nat) : i ∈ l.withMember m ↔ i = m ∨ i ∈ l.members := by
  unfold Lockhouse.withMember
  split
  next h => exact ⟨.inr, fun hi => hi.elim (fun e => e ▸ h) id⟩
  next => simp [or_comm]

/-- The reply of a root to a package that it admits (R443). -/
def State.joinReply (s : State) (r : JoinReport) : OutMsg :=
  { destination := r.package.val, type := 0x11, body := [s.ownNumber, s.lock.keyEpoch]
    data := s.joinData (s.lock.drawBytes 7).1 (wrapKey (x448 (s.lock.drawBytes 7).1 (nums r.share)) s.lock.domainKey)
      (s.lock.withMember r.package.val) }

/-- `s` with the reply sent and the members told of the newcomer (R443, R444). -/
def State.joinAnswered (s : State) (r : JoinReport) : State :=
  (({ s with lock := (s.lock.drawBytes 7).2 } : State).send (s.joinReply r)).tellMembers [1, r.package.val]

/-- The lockhouse of a root that has made a package a member (R443). -/
def Lockhouse.admitted (l : Lockhouse) (r : JoinReport) (z : List Nat) : Lockhouse :=
  { l with members := l.withMember r.package.val, shared := tset l.shared r.package.val z, draws := l.draws + 7 }

theorem State.joinAnswered_frame (s : State) (r : JoinReport) :
    s.joinAnswered r = { s with
      lock := { s.lock with draws := s.lock.draws + 7 }, links := { s.links with outbox := (s.joinAnswered r).links.outbox } } := by
  unfold State.joinAnswered
  rw [State.tellMembers_frame]
  simp only [State.send, Lockhouse.drawBytes]

theorem State.joinAnswered_outbox (s : State) (r : JoinReport) :
    s.joinReply r ∈ (s.joinAnswered r).links.outbox ∧ ∀ o ∈ s.links.outbox, o ∈ (s.joinAnswered r).links.outbox :=
  ⟨State.tellMembers_outbox _ _ _ _ (by simp [State.send]), fun o ho => State.tellMembers_outbox _ _ _ _ (by simp [State.send, ho])⟩

/-- `s` with another number of random words drawn. -/
def State.drawn (s : State) (n : Nat) : State := { s with lock := { s.lock with draws := n } }

@[simp] theorem State.drawn_lifeView (s : State) (n : Nat) (p : Page) : (s.drawn n).lifeView p = s.lifeView p := by cases p <;> rfl
@[simp] theorem State.drawn_packView (s : State) (n : Nat) : (s.drawn n).packView = s.packView := rfl
@[simp] theorem State.drawn_patternEntries (s : State) (n : Nat) : (s.drawn n).patternEntries = s.patternEntries := rfl
@[simp] theorem State.drawn_generationEntries (s : State) (n : Nat) : (s.drawn n).generationEntries = s.generationEntries := rfl
@[simp] theorem State.drawn_adapterEntries (s : State) (n : Nat) : (s.drawn n).adapterEntries = s.adapterEntries := rfl
@[simp] theorem State.drawn_aliasBlock (s : State) (n : Nat) : (s.drawn n).aliasBlock = s.aliasBlock := by
  simp only [State.aliasBlock, State.drawn]

/-- What a report says does not depend on the random words drawn. -/
theorem State.drawn_reportBody (s : State) (n now : Nat) (nonce : List (BitVec 8)) : (s.drawn n).reportBody now nonce = s.reportBody now nonce := by
  have hpkg : (s.drawn n).pkg = s.pkg := rfl
  have hfuses : (s.drawn n).lock.fuses = s.lock.fuses := rfl
  have hdebug : (s.drawn n).lock.debugOpen = s.lock.debugOpen := rfl
  have hversion : (s.drawn n).lock.securityVersion = s.lock.securityVersion := rfl
  have hdigest : (s.drawn n).lock.firmwareDigest = s.lock.firmwareDigest := rfl
  unfold State.reportBody
  rw [s.drawn_packView, s.drawn_patternEntries, s.drawn_generationEntries, s.drawn_adapterEntries, hpkg, hfuses, hdebug, hversion, hdigest]
  simp only [State.drawn_lifeView]

theorem State.drawn_signReport (s : State) (n : Nat) (body : List (BitVec 8)) : (s.drawn n).signReport body = s.signReport body := by
  simp only [State.signReport, State.drawn_aliasBlock]
  simp only [State.drawn]

theorem State.drawn_joinData (s : State) (n : Nat) (secret wrapped members : List Nat) :
    (s.drawn n).joinData secret wrapped members = s.joinData secret wrapped members := by
  simp only [State.joinData, State.drawn_reportBody, State.drawn_signReport]
  simp only [State.drawn]

theorem State.joinReply_fields (s : State) (r : JoinReport) :
    (s.joinReply r).destination = r.package.val ∧ (s.joinReply r).type = 0x11 ∧ (s.joinReply r).body = [s.ownNumber, s.lock.keyEpoch] ∧
      (s.joinReply r).data = ({ s with lock := (s.lock.drawBytes 7).2 } : State).joinData (s.lock.drawBytes 7).1
        (wrapKey (x448 (s.lock.drawBytes 7).1 (nums r.share)) s.lock.domainKey) (s.lock.withMember r.package.val) := by
  have hdrawn : ({ s with lock := (s.lock.drawBytes 7).2 } : State) = s.drawn (s.lock.draws + 7) := rfl
  rw [hdrawn, s.drawn_joinData]
  simp only [State.joinReply, and_self]

theorem exec_joinHello_admits (s : State) (p : PortId) (r : JoinReport) (hroot : s.lock.domainState = 3) (hport : 2 ≤ (s.port p.val).state)
    (h : s.admits r = true) :
    exec (.joinHello p r) s = .next ((s.joinAnswered r).setDomain fun l => { l with
      members := s.lock.withMember r.package.val, shared := tset l.shared r.package.val (x448 (s.lock.drawBytes 7).1 (nums r.share)) }) := by
  change execJoinHello p r s = _
  unfold execJoinHello
  rw [if_neg (by omega), if_neg (by simp [h])]
  rfl

theorem exec_joinHello_refuses (s : State) (p : PortId) (r : JoinReport) (hroot : s.lock.domainState = 3) (hport : 2 ≤ (s.port p.val).state)
    (h : s.admits r = false) : exec (.joinHello p r) s = .next (s.joinFailed r.package.val) := by
  change execJoinHello p r s = _
  unfold execJoinHello
  rw [if_neg (by omega), if_pos h]

/-! ### JOIN_REPLY -/

theorem exec_joinReply_opens (s : State) (r : JoinReport) (ep k : Nat) (hst : s.lock.domainState = 1) (h : s.admits r = true)
    (hopen : openKey (x448 s.lock.joinSecret (nums r.share)) (nums r.wrapped) = some k) :
    exec (.joinReply r ep) s = .next ((s.setDomain fun l => { l with
        domainState := 2, domainKey := k, keyEpoch := ep, oldEpoch := none, oldKey := 0, joinSecret := []
        shared := [(r.package.val, x448 s.lock.joinSecret (nums r.share))]
        members := (r.package.val :: s.ownNumber :: r.members.map (·.val)).eraseDups }).raiseIntr 0x4002) := by
  change execJoinReply r ep s = _
  unfold execJoinReply
  rw [if_neg (by omega), if_pos h, Lockhouse.joinZ, hopen]

theorem exec_joinReply_fails (s : State) (r : JoinReport) (ep : Nat) (hst : s.lock.domainState = 1)
    (h : (if s.admits r = true then openKey (x448 s.lock.joinSecret (nums r.share)) (nums r.wrapped) else none) = none) :
    exec (.joinReply r ep) s = .next (((s.joinFailed r.package.val).setDomain fun l => { l with domainState := 0 }).raiseIntr 0x4002) := by
  change execJoinReply r ep s = _
  unfold execJoinReply
  rw [if_neg (by omega), Lockhouse.joinZ, h]

/-! ### DOMAIN -/

/-- The lockhouse of a member or a root when a package has left (R444). -/
def Lockhouse.without (l : Lockhouse) (m : Nat) : Lockhouse := { l with members := l.members.filter fun k => k != m }

theorem Lockhouse.mem_without (l : Lockhouse) (m i : Nat) : i ∈ (l.without m).members ↔ i ≠ m ∧ i ∈ l.members := by
  simp [Lockhouse.without, and_comm]

theorem Lockhouse.rekeyed_without (l : Lockhouse) (m now : Nat) :
    (l.without m).rekeyed now = { l.rekeyed now with members := (l.without m).members } := by
  simp only [Lockhouse.rekeyed, Lockhouse.without, Lockhouse.drawBytes]

theorem execDomain_past (s : State) (a b : Option (Fin 256)) (c : Option (List (BitVec 8) × Nat)) (h2 : s.lock.domainState ≠ 2)
    (h3 : s.lock.domainState ≠ 3) : execDomain a b c s = .next s :=
  if_pos ⟨h2, h3⟩

theorem exec_domain_joins (s : State) (m : Fin 256) (h : s.lock.domainState = 2 ∨ s.lock.domainState = 3) :
    exec (.domain (some m) none none) s = .next (s.setDomain fun l => { l with members := l.withMember m.val }) := by
  change execDomain (some m) none none s = _
  unfold execDomain
  rw [if_neg (by omega)]
  rfl

theorem exec_domain_leaves (s : State) (m : Fin 256) (h : s.lock.domainState = 2 ∨ s.lock.domainState = 3) :
    exec (.domain none (some m) none) s = .next (if s.lock.domainState = 3 then (s.setDomain fun l => l.without m.val).rekey [m.val]
      else s.setDomain fun l => l.without m.val) := by
  change execDomain none (some m) none s = _
  unfold execDomain
  rw [if_neg (by omega)]
  rfl

theorem exec_domain_opens (s : State) (k : List (BitVec 8) × Nat) (v : Nat) (h : s.lock.domainState = 2)
    (hopen : openKey ((tfind s.lock.shared s.rootNumber).getD []) (nums k.1) = some v) :
    exec (.domain none none (some k)) s = .next { s with lock := s.lock.newKey (v, k.2) s.clock.time } := by
  change execDomain none none (some k) s = _
  unfold execDomain
  rw [if_neg (by omega)]
  dsimp only
  rw [if_neg (by omega), hopen]

theorem exec_domain_shut (s : State) (k : List (BitVec 8) × Nat) (h : s.lock.domainState = 2)
    (hopen : openKey ((tfind s.lock.shared s.rootNumber).getD []) (nums k.1) = none) :
    exec (.domain none none (some k)) s = .next (s.joinFailed s.rootNumber) := by
  change execDomain none none (some k) s = _
  unfold execDomain
  rw [if_neg (by omega)]
  dsimp only
  rw [if_neg (by omega), hopen]

/-- Settles O24: a report meets the policy by its five conditions, and each command of joining leaves the lockhouse that R443 and R444 say. -/
theorem joiningAndMembership : Obligations.JoiningAndMembership := by
  refine ⟨fun s p r ep => ⟨fun hcert hver howner hdebug hsec => ?meets, fun h => ?fails, fun h => if_pos h, fun h => if_pos h,
    fun hst hlate => ?timeout, fun h => ?waiting⟩,
    fun s m k => ⟨fun h => ⟨?joins, ?leaves⟩, fun hst => ?renews, fun h2 h3 a b c => execDomain_past s a b c h2 h3, fun h => ?switch, fun h => if_pos h⟩⟩
  case meets =>
    have hadmits : s.admits r = true := (s.admits_iff r).2 ⟨hcert, hver, howner, hdebug, hsec⟩
    refine ⟨fun hroot hport z hz => ?_, fun hst z hz => ⟨fun k hk => ?_, fun hnone => ?_⟩⟩
    · subst hz
      have hexec := exec_joinHello_admits s p r hroot hport hadmits
      obtain ⟨hto, htype, hbody, hdata⟩ := s.joinReply_fields r
      obtain ⟨hreply, hkept⟩ := s.joinAnswered_outbox r
      rw [State.setDomain_frame] at hexec
      generalize (((s.joinAnswered r).setDomain _).links.ports) = ports at hexec
      have hlock : (s.joinAnswered r).lock = { s.lock with draws := s.lock.draws + 7 } := by rw [s.joinAnswered_frame r]
      refine ⟨_, s.joinReply r, hexec, hreply, hto, htype, hbody, hdata, hkept, s.lock.mem_withMember r.package.val, ?_, ?_⟩
      · simp only [hlock]
      · rw [s.joinAnswered_frame r]
    · subst hz
      obtain ⟨rg, st, ports, hset⟩ := s.setDomain_raiseIntr (fun l => { l with
        domainState := 2, domainKey := k, keyEpoch := ep, oldEpoch := none, oldKey := 0, joinSecret := []
        shared := [(r.package.val, x448 s.lock.joinSecret (nums r.share))]
        members := (r.package.val :: s.ownNumber :: r.members.map (·.val)).eraseDups }) 0x4002
      refine ⟨_, (exec_joinReply_opens s r ep k hst hadmits hk).trans (by rw [hset]), fun i => ?_, ?_, ?_⟩
      · simp only [List.mem_eraseDups, List.mem_cons, List.mem_map]
      · simp only
      · simp only
    · subst hz
      obtain ⟨rg, st, ports, hset⟩ := s.joinFailed_ends r.package.val
      have hexec := exec_joinReply_fails s r ep hst (by rw [if_pos hadmits, hnone])
      rw [hset] at hexec
      exact ⟨_, hexec, rfl, rfl, rfl⟩
  case fails =>
    have hadmits := s.admits_false r h
    refine ⟨fun hroot hport => ?_, fun hst => ?_⟩
    · exact ⟨_, exec_joinHello_refuses s p r hroot hport hadmits, s.joinFailed_logged _⟩
    · obtain ⟨rg, st, ports, hset⟩ := s.joinFailed_ends r.package.val
      have hexec := exec_joinReply_fails s r ep hst (by rw [hadmits]; rfl)
      rw [hset] at hexec
      exact ⟨_, hexec, rfl, rfl, rfl⟩
  case timeout =>
    obtain ⟨rg, st, ports, hset⟩ := s.joinFailed_ends s.rootNumber
    have hexec : exec .joinTimeout s = .next (((s.joinFailed s.rootNumber).setDomain fun l => { l with domainState := 0 }).raiseIntr 0x4002) :=
      if_pos ⟨hst, hlate⟩
    rw [hset] at hexec
    exact ⟨_, hexec, rfl, rfl⟩
  case waiting => exact if_neg (by omega)
  case joins =>
    have hexec := exec_domain_joins s m h
    rw [State.setDomain_frame] at hexec
    exact ⟨_, hexec, s.lock.mem_withMember m.val, by simp only, by simp only⟩
  case leaves =>
    have hexec := exec_domain_leaves s m h
    by_cases h3 : s.lock.domainState = 3
    · rw [if_pos h3, State.rekey_frame, State.setDomain_frame] at hexec
      simp only [Lockhouse.rekeyed_without] at hexec
      refine ⟨_, hexec, ?_, ?_, ?_, ?_⟩
      · exact s.lock.mem_without m.val
      · intro _
        simp only [Lockhouse.rekeyed]
      · intro h2
        omega
      · simp only
    · rw [if_neg h3, State.setDomain_frame] at hexec
      exact ⟨_, hexec, s.lock.mem_without m.val, fun h => absurd h h3, fun _ => by simp only [Lockhouse.without], by simp only⟩
  case renews =>
    exact ⟨fun d hd => exec_domain_opens s k d hst hd, fun hnone => ⟨_, exec_domain_shut s k hst hnone, s.joinFailed_logged _⟩⟩
  case switch => exact if_neg (by omega)

end Sys2Proof.Machine
end

section
/-!
Flits at a Kyrok port (R430 to R434).
-/
namespace Sys2Proof.Machine

/-! ### What waits at a port and is sent -/

/-- Taking flits into the window moves the window, the credits and the queues (R432, R434). -/
theorem Port.take_frame (x : Port) (vl : Bool) :
    x.take vl = { x with
      kept := (x.take vl).kept, sent := (x.take vl).sent, creditsVl0 := (x.take vl).creditsVl0, creditsVl1 := (x.take vl).creditsVl1
      queueVl0 := (x.take vl).queueVl0, queueVl1 := (x.take vl).queueVl1 } := by
  cases vl <;> rfl

theorem Port.take_vl0_idle (x : Port) (h : x.queueVl0 = []) : x.take false = x := by
  simp [Port.take, h]
  cases x
  simp_all

theorem Port.take_vl1_idle (x : Port) (h : x.queueVl1 = []) : x.take true = x := by
  simp [Port.take, h]
  cases x
  simp_all

/-- The window holds at most 128 flits (R432). -/
theorem Port.take_kept (x : Port) (vl : Bool) (h : x.kept.length ≤ 128) : (x.take vl).kept.length ≤ 128 := by
  have hlen : (x.take vl).kept = x.kept ++ (((if vl then x.queueVl1 else x.queueVl0).take (min (if vl then x.queueVl1 else x.queueVl0).length
      (min (if vl then x.creditsVl1 else x.creditsVl0) (128 - x.kept.length)))).zipIdx.map fun (e : Flit × Nat) => (e.1, x.sent + e.2)) := by
    cases vl <;> rfl
  rw [hlen, List.length_append, List.length_map, List.length_zipIdx, List.length_take]
  omega

theorem Port.take_credits (x : Port) (vl : Bool) : (x.take vl).creditsVl0 ≤ x.creditsVl0 ∧ (x.take vl).creditsVl1 ≤ x.creditsVl1 := by
  cases vl
  · exact ⟨Nat.sub_le _ _, le_refl _⟩
  · exact ⟨le_refl _, Nat.sub_le _ _⟩

theorem Port.take_ctrlDue (x : Port) (vl : Bool) (now : Nat) : (x.take vl).ctrlDue now = x.ctrlDue now := by cases vl <;> rfl

theorem Port.pump_eq (now : Nat) (x : Port) :
    Port.pump now x = if x.ctrlDue now then ((x.take true).sendCtrl).take false else (x.take true).take false := by
  unfold Port.pump
  simp only [Port.take_ctrlDue]
  split <;> rfl

/-- Sending moves nothing that receiving has written. -/
theorem Port.pump_frame (now : Nat) (x : Port) :
    Port.pump now x = { x with
      kept := (Port.pump now x).kept, sent := (Port.pump now x).sent, creditsVl0 := (Port.pump now x).creditsVl0
      creditsVl1 := (Port.pump now x).creditsVl1, queueVl0 := (Port.pump now x).queueVl0, queueVl1 := (Port.pump now x).queueVl1
      ctrlSent := (Port.pump now x).ctrlSent, unacked := (Port.pump now x).unacked, owedVl0 := (Port.pump now x).owedVl0
      owedVl1 := (Port.pump now x).owedVl1, nakDue := (Port.pump now x).nakDue, waitSince := (Port.pump now x).waitSince } := by
  rw [Port.pump_eq]
  split <;> rfl

/-- Without a CTRL flit due, what is owed stays owed. -/
theorem Port.pump_quiet (now : Nat) (x : Port) (h : x.ctrlDue now = false) :
    (Port.pump now x).unacked = x.unacked ∧ (Port.pump now x).owedVl0 = x.owedVl0 ∧ (Port.pump now x).owedVl1 = x.owedVl1 := by
  rw [Port.pump_eq, if_neg (by simp [h])]
  exact ⟨rfl, rfl, rfl⟩

/-- A CTRL flit that is due tells what was received and what is owed (R432). -/
theorem Port.pump_tells (now : Nat) (x : Port) (h : x.ctrlDue now = true) :
    (Port.pump now x).unacked = 0 ∧ (Port.pump now x).owedVl0 = 0 ∧ (Port.pump now x).owedVl1 = 0 ∧ (Port.pump now x).nakDue = false ∧
      (Port.pump now x).ctrlSent.take 4 = leBytes 4 x.received := by
  rw [Port.pump_eq, if_pos h]
  exact ⟨rfl, rfl, rfl, rfl, rfl⟩

theorem Port.ctrlDue_iff (x : Port) (now : Nat) :
    x.ctrlDue now = true ↔ x.nakDue = true ∨ 16 ≤ x.unacked ∨ 16 ≤ x.owedVl0 + x.owedVl1 ∨ ∃ t0, x.waitSince = some t0 ∧ t0 + 64 ≤ now := by
  simp only [Port.ctrlDue, Bool.or_eq_true, decide_eq_true_eq, Option.any_eq_true, or_assoc]

/-- Nothing waits: what was sent and acknowledged is all there is to say. -/
theorem Port.pump_idle (now : Nat) (x : Port) (h0 : x.queueVl0 = []) (h1 : x.queueVl1 = []) :
    (Port.pump now x).kept = x.kept ∧ (Port.pump now x).sent = x.sent ∧ (Port.pump now x).creditsVl0 = x.creditsVl0 ∧
      (Port.pump now x).creditsVl1 = x.creditsVl1 := by
  rw [Port.pump_eq, x.take_vl1_idle h1]
  split
  · rw [Port.take_vl0_idle x.sendCtrl h0]
    exact ⟨rfl, rfl, rfl, rfl⟩
  · rw [Port.take_vl0_idle x h0]
    exact ⟨rfl, rfl, rfl, rfl⟩

theorem Port.pump_limits (now : Nat) (x : Port) :
    (x.kept.length ≤ 128 → (Port.pump now x).kept.length ≤ 128) ∧ (Port.pump now x).creditsVl0 ≤ x.creditsVl0 ∧
      (Port.pump now x).creditsVl1 ≤ x.creditsVl1 := by
  obtain ⟨h0, h1⟩ := x.take_credits true
  rw [Port.pump_eq]
  split
  · obtain ⟨h2, h3⟩ := (x.take true).sendCtrl.take_credits false
    exact ⟨fun h => Port.take_kept _ _ (x.take_kept true h), h2.trans h0, h3.trans h1⟩
  · obtain ⟨h2, h3⟩ := (x.take true).take_credits false
    exact ⟨fun h => Port.take_kept _ _ (x.take_kept true h), h2.trans h0, h3.trans h1⟩

/-! ### A flit that arrives -/

/-- What a flit says when its symbols can be corrected (R431). -/
def flitSaid (f : FlitIn) : Flit := { vl := f.header.toNat.testBit 7, kind := f.header.toNat / 16 % 8, payload := f.payload }

theorem errorsIn_one (f : FlitIn) (b : Fin 256) (second : Bool) (h : f.errors = [b]) : (errorsIn f second).length ≤ 1 := by
  have hdup : f.errors.eraseDups = [b] := by simp [h, List.eraseDups_cons]
  rw [errorsIn, hdup]
  exact List.length_filter_le _ _

theorem errorsIn_none (f : FlitIn) (second : Bool) (h : f.errors = []) : errorsIn f second = [] := by
  simp [errorsIn, h]

/-- Two different bytes of one codeword in error are two errors of that codeword (R431). -/
theorem errorsIn_two (f : FlitIn) (a b : Fin 256) (h : f.errors = [a, b]) (hne : a ≠ b) (hsame : 128 ≤ a.val ↔ 128 ≤ b.val) :
    (errorsIn f (decide (128 ≤ a.val))).length = 2 := by
  have hdup : f.errors.eraseDups = [a, b] := by simp [h, List.eraseDups_cons, hne.symm]
  simp [errorsIn, hdup, hsame]

/-- At most one symbol in error in each codeword: the flit is what was sent, and its errors are counted (R431). -/
theorem decodeFlit_single (f : FlitIn) (draw : Nat) (h : ∀ second, (errorsIn f second).length ≤ 1) : decodeFlit f draw = some (flitSaid f) := by
  have h0 := h false
  have h1 := h true
  unfold decodeFlit
  extract_lets read a b
  rw [if_neg (by omega), if_pos ⟨h0, h1⟩]
  rfl

theorem decodeFlit_double (f : FlitIn) (draw : Nat) (second : Bool) (h : (errorsIn f second).length = 2) : decodeFlit f draw = none := by
  unfold decodeFlit
  extract_lets read a b
  rw [if_pos]
  cases second
  · exact .inl h
  · exact .inr h

theorem exec_kyrokFlitReceive_past (s : State) (f : FlitIn)
    (h : (s.port f.port.val).alive = false ∨ ((s.port f.port.val).discarding = true ∧ f.replay = false)) :
    exec (.kyrokFlitReceive f) s = .next s :=
  if_pos h

theorem exec_kyrokFlitReceive_discards (s : State) (f : FlitIn) (halive : (s.port f.port.val).alive = true)
    (hopen : (s.port f.port.val).discarding = false ∨ f.replay = true) (hdec : decodeFlit f s.fresh = none) :
    exec (.kyrokFlitReceive f) s = .next (s.tick.modPort f.port.val fun y => { y with discarding := true, nakDue := true }) := by
  change execKyrokFlitReceive f s = _
  unfold execKyrokFlitReceive
  dsimp only
  rw [if_neg (by rcases hopen with h | h <;> simp [halive, h]), hdec]

/-- A port that has corrected the single errors of a flit (R431). -/
def Port.corrected (x : Port) (lanes : List Nat) : Port :=
  { x with discarding := false, laneCorrected := lanes.foldl (fun t l => tput (fun _ => 0) t l (tget (fun _ => 0) t l + 1)) x.laneCorrected }

/-- A port whose inbox takes a flit, which it owes an acknowledgement and a credit (R432, R433). -/
def Port.takes (now : Nat) (g : Flit) (x : Port) : Port :=
  { x with
    received := x.received + 1, unacked := x.unacked + 1, waitSince := x.waitSince.or (some now), inbox := x.inbox ++ [g]
    owedVl0 := x.owedVl0 + b2n !g.vl, owedVl1 := x.owedVl1 + b2n g.vl }

/-- `s` with the single errors of a flit corrected and counted (R431). -/
def State.flitCorrected (s : State) (p : Nat) (lanes : List Nat) : State :=
  (s.tick.bump (.kyrok p) 0x120 lanes.length).modPort p fun y => y.corrected lanes

theorem exec_kyrokFlitReceive_reads (s : State) (f : FlitIn) (halive : (s.port f.port.val).alive = true)
    (hopen : (s.port f.port.val).discarding = false ∨ f.replay = true) (hdec : decodeFlit f s.fresh = some (flitSaid f)) :
    exec (.kyrokFlitReceive f) s = .next
      (if (flitSaid f).kind = 0 ∨ 5 ≤ (flitSaid f).kind then s.flitCorrected f.port.val (correctedLanes f (s.port f.port.val))
       else (s.flitCorrected f.port.val (correctedLanes f (s.port f.port.val))).modPort f.port.val
         fun y => Port.pump s.clock.time (y.takes s.clock.time (flitSaid f))) := by
  change execKyrokFlitReceive f s = _
  unfold execKyrokFlitReceive
  dsimp only
  rw [if_neg (by rcases hopen with h | h <;> simp [halive, h]), hdec, apply_ite Host.Outcome.next]
  rfl

theorem State.flitCorrected_frame (s : State) (p : Nat) (lanes : List Nat) :
    s.flitCorrected p lanes = { s with
      fresh := s.fresh + 1, regs := (s.flitCorrected p lanes).regs, links := { s.links with ports := (s.flitCorrected p lanes).links.ports } } := rfl

theorem State.flitCorrected_port (s : State) (p q : Nat) (lanes : List Nat) :
    (s.flitCorrected p lanes).port q = if q = p then (s.port p).corrected lanes else s.port q :=
  State.port_modPort _ p q fun y => y.corrected lanes

theorem State.flitCorrected_count (s : State) (p : Nat) (lanes : List Nat) :
    (s.flitCorrected p lanes).reg (.kyrok p) 0x120 = satAdd (s.reg (.kyrok p) 0x120) lanes.length :=
  State.reg_setReg_self ..

theorem Port.ctrlDue_false (x : Port) (now : Nat) (hnak : x.nakDue = false) (hun : x.unacked < 16) (howed : x.owedVl0 + x.owedVl1 < 16)
    (hwait : ∀ t0, x.waitSince = some t0 → now < t0 + 64) : x.ctrlDue now = false := by
  rw [Bool.eq_false_iff, ne_eq, x.ctrlDue_iff]
  rintro (h | h | h | ⟨t0, h, hle⟩)
  · simp [hnak] at h
  · omega
  · omega
  · exact absurd hle (Nat.not_le.2 (hwait t0 h))

/-- One flit more, and still no CTRL flit due. -/
theorem Port.takes_quiet (x : Port) (g : Flit) (now : Nat) (hnak : x.nakDue = false) (hun : x.unacked < 15) (howed : x.owedVl0 + x.owedVl1 < 15)
    (hwait : ∀ t0, x.waitSince = some t0 → now < t0 + 64) : (x.takes now g).ctrlDue now = false := by
  refine Port.ctrlDue_false _ _ hnak (Nat.succ_lt_succ hun) ?_ fun t0 h => ?_
  · change x.owedVl0 + b2n (!g.vl) + (x.owedVl1 + b2n g.vl) < 16
    cases g.vl <;> simp only [b2n, Bool.not_false, Bool.not_true, if_true, Bool.false_eq_true, if_false] <;> omega
  · change x.waitSince.or (some now) = some t0 at h
    cases hs : x.waitSince with
    | none => simp [hs] at h; omega
    | some t1 => exact hwait t0 (by simpa [hs] using h)

/-! ### CTRL flits -/

theorem exec_ctrlFlitSend_sends (s : State) (p : PortId) (halive : (s.port p.val).alive = true)
    (hdue : (s.port p.val).ctrlDue s.clock.time = true) : exec (.ctrlFlitSend p) s = .next (s.modPort p.val fun y => y.sendCtrl) :=
  if_pos ⟨halive, hdue⟩

theorem exec_ctrlFlitSend_idle (s : State) (p : PortId)
    (h : (s.port p.val).alive = false ∨ (s.port p.val).ctrlDue s.clock.time = false) : exec (.ctrlFlitSend p) s = .next s :=
  if_neg (by rcases h with h | h <;> simp [h])

theorem leBytes_length (n v : Nat) : (leBytes n v).length = n := by
  induction n generalizing v with
  | zero => rfl
  | succ n ih => simp [leBytes, ih]

/-- Little-endian bytes read back as the number they were made of. -/
theorem natOf_leBytes (n v : Nat) : natOf (nums (leBytes n v)) = v % 256 ^ n := by
  induction n generalizing v with
  | zero => simp [leBytes, nums, natOf, Nat.mod_one]
  | succ n ih =>
    have hcons : natOf (nums (leBytes (n + 1) v)) = v % 256 + 256 * natOf (nums (leBytes n (v / 256))) := by
      simp [leBytes, nums, natOf]
    rw [hcons, ih, Nat.pow_succ, Nat.mul_comm (256 ^ n), Nat.mod_mul]

theorem nums_append (a b : List (BitVec 8)) : nums (a ++ b) = nums a ++ nums b := List.map_append

theorem nums_leBytes_length (n v : Nat) : (nums (leBytes n v)).length = n := by
  rw [nums, List.length_map, leBytes_length]

/-- The bytes of half a CTRL flit (R430). -/
def ctrlHalf (count nak vl0 vl1 : Nat) : List (BitVec 8) := leBytes 4 count ++ leBytes 1 nak ++ leBytes 2 vl0 ++ leBytes 1 vl1

theorem ctrlHalf_length (count nak vl0 vl1 : Nat) : (ctrlHalf count nak vl0 vl1).length = 8 := by
  simp [ctrlHalf, leBytes_length]

/-- A field of a CTRL flit whose bytes stand between others. -/
theorem CtrlFlit.field_of_bytes (f : CtrlFlit) (before after : List (BitVec 8)) (n v : Nat) (h : f.bytes = before ++ (leBytes n v ++ after))
    (hv : v < 256 ^ n) : CtrlFlit.field f (before.length + 1) n = v := by
  have hslice : slice (nums f.bytes) before.length n = nums (leBytes n v) := by
    have hb : (nums before).length = before.length := List.length_map ..
    rw [h, nums_append, nums_append, slice, ← hb, List.drop_left, List.take_left' (nums_leBytes_length n v)]
  rw [CtrlFlit.field, Nat.add_sub_cancel, fieldAt, hslice, natOf_leBytes, Nat.mod_eq_of_lt hv]

/-- A CTRL flit of two equal halves says its count, NAK and credits (R430). -/
theorem CtrlFlit.fields_of_halves (f : CtrlFlit) (count nak vl0 vl1 : Nat) (hcount : count < 2 ^ 32) (hnak : nak < 2 ^ 8) (hvl0 : vl0 < 2 ^ 16)
    (hvl1 : vl1 < 2 ^ 8) (h : f.bytes = ctrlHalf count nak vl0 vl1 ++ ctrlHalf count nak vl0 vl1) :
    CtrlFlit.copiesAgree f = true ∧ CtrlFlit.field f 1 4 = count ∧ CtrlFlit.field f 5 1 = nak ∧ CtrlFlit.field f 6 2 = vl0 ∧
      CtrlFlit.field f 8 1 = vl1 := by
  have hlen := ctrlHalf_length count nak vl0 vl1
  refine ⟨?_, ?_, ?_, ?_, ?_⟩
  · rw [CtrlFlit.copiesAgree, h, List.take_left' hlen, List.drop_left' hlen]
    simp [hlen]
  · exact CtrlFlit.field_of_bytes f [] (leBytes 1 nak ++ leBytes 2 vl0 ++ leBytes 1 vl1 ++ ctrlHalf count nak vl0 vl1) 4 count
      (by simp [h, ctrlHalf]) hcount
  · exact CtrlFlit.field_of_bytes f (leBytes 4 count) (leBytes 2 vl0 ++ leBytes 1 vl1 ++ ctrlHalf count nak vl0 vl1) 1 nak (by simp [h, ctrlHalf]) hnak
  · exact CtrlFlit.field_of_bytes f (leBytes 4 count ++ leBytes 1 nak) (leBytes 1 vl1 ++ ctrlHalf count nak vl0 vl1) 2 vl0 (by simp [h, ctrlHalf]) hvl0
  · exact CtrlFlit.field_of_bytes f (leBytes 4 count ++ leBytes 1 nak ++ leBytes 2 vl0) (ctrlHalf count nak vl0 vl1) 1 vl1 (by simp [h, ctrlHalf]) hvl1

/-- What a CTRL flit acknowledges: the flits counted since the last one, as far as they were sent (R432). -/
def Port.ackedTo (x : Port) (count : Nat) : Nat :=
  if x.acked + (count + 2 ^ 32 - x.acked % 2 ^ 32) % 2 ^ 32 ≤ x.sent then x.acked + (count + 2 ^ 32 - x.acked % 2 ^ 32) % 2 ^ 32 else x.acked

theorem Port.ackedTo_count (x : Port) (count : Nat) (hcount : count < 2 ^ 32) (hlo : x.acked ≤ count) (hhi : count ≤ x.sent) :
    x.ackedTo count = count := by
  have hmod : x.acked % 2 ^ 32 = x.acked := Nat.mod_eq_of_lt (by omega)
  have hstep : (count + 2 ^ 32 - x.acked % 2 ^ 32) % 2 ^ 32 = count - x.acked := by rw [hmod]; omega
  rw [Port.ackedTo, hstep, if_pos (by omega)]
  omega

/-- A port that a CTRL flit has reached: counted flits go, credits come back (R432, R434). -/
def Port.acknowledged (x : Port) (acked vl0 vl1 : Nat) : Port :=
  { x with
    acked := acked, kept := x.kept.filter fun e => decide (acked ≤ e.2)
    creditsVl0 := min 224 (x.creditsVl0 + vl0), creditsVl1 := min 32 (x.creditsVl1 + vl1) }

/-- The state after a CTRL flit that leaves port `y`: a replay is counted when it asks for one and flits are kept (R432). -/
def State.ctrlTaken (s : State) (p : Nat) (y : Port) (nak : Bool) : State :=
  if nak = true ∧ y.kept.isEmpty = false then (s.modPort p fun _ => Port.pump s.clock.time y).bump (.kyrok p) 0x128 1
  else s.modPort p fun _ => Port.pump s.clock.time y

theorem State.ctrlTaken_port (s : State) (p q : Nat) (y : Port) (nak : Bool) :
    (s.ctrlTaken p y nak).port q = if q = p then Port.pump s.clock.time y else s.port q := by
  have hmod := s.port_modPort p q fun _ => Port.pump s.clock.time y
  unfold State.ctrlTaken
  split <;> exact hmod

theorem State.ctrlTaken_frame (s : State) (p : Nat) (y : Port) (nak : Bool) :
    s.ctrlTaken p y nak = { s with regs := (s.ctrlTaken p y nak).regs, links := { s.links with ports := (s.ctrlTaken p y nak).links.ports } } := by
  unfold State.ctrlTaken
  split <;> rfl

theorem State.ctrlTaken_count (s : State) (p : Nat) (y : Port) (nak : Bool) :
    (s.ctrlTaken p y nak).reg (.kyrok p) 0x128 =
      if nak = true ∧ y.kept ≠ [] then satAdd (s.reg (.kyrok p) 0x128) 1 else s.reg (.kyrok p) 0x128 := by
  have hempty : y.kept.isEmpty = false ↔ y.kept ≠ [] := by cases y.kept <;> simp
  unfold State.ctrlTaken
  simp only [hempty]
  split
  · exact State.reg_setReg_self ..
  · rfl

theorem exec_kyrokCtrlFlit_takes (s : State) (f : CtrlFlit) (nak : Bool) (y : Port) (halive : (s.port f.port.val).alive = true)
    (hopen : (s.port f.port.val).discarding = false) (hcopies : CtrlFlit.copiesAgree f = true) (hnak : CtrlFlit.field f 5 1 = b2n nak)
    (hy : y = (s.port f.port.val).acknowledged ((s.port f.port.val).ackedTo (CtrlFlit.field f 1 4)) (CtrlFlit.field f 6 2) (CtrlFlit.field f 8 1)) :
    exec (.kyrokCtrlFlit f) s = .next (s.ctrlTaken f.port.val y nak) := by
  subst hy
  have hbit : CtrlFlit.field f 5 1 % 2 = 1 ↔ nak = true := by rw [hnak]; cases nak <;> decide
  change execKyrokCtrlFlit f s = _
  unfold execKyrokCtrlFlit State.ctrlTaken
  dsimp only
  rw [if_neg (by simp [halive, hopen, hcopies])]
  simp only [hbit]
  rfl

theorem exec_kyrokCtrlFlit_past (s : State) (f : CtrlFlit)
    (h : (s.port f.port.val).alive = false ∨ (s.port f.port.val).discarding = true ∨ f.bytes.take 8 ≠ f.bytes.drop 8) :
    exec (.kyrokCtrlFlit f) s = .next s := by
  refine if_pos ?_
  rcases h with h | h | h
  · exact .inl h
  · exact .inr (.inl h)
  · exact .inr (.inr (by simp [CtrlFlit.copiesAgree, h]))

/-- Settles O25: what a flit, a CTRL flit due and a CTRL flit that arrives leave at the port. -/
theorem flitsAtAPort : Obligations.FlitsAtAPort := by
  refine ⟨fun s f x hx => ⟨fun halive hopen herr hlo hhi => ?sound, fun halive hopen b herr => ?single, fun halive hopen a b herr hne hsame => ?double,
      fun h => exec_kyrokFlitReceive_past s f (hx ▸ h)⟩,
    fun s p x hx => ⟨fun halive h => ?sends, fun h => ?quiet⟩,
    fun s f count vl0 vl1 nak hcount hvl0 hvl1 => ⟨fun hbytes halive hopen => ?taken, fun h => exec_kyrokCtrlFlit_past s f h⟩⟩
  case sound =>
    subst hx
    have hlanes : correctedLanes f (s.port f.port.val) = [] := by simp [correctedLanes, errorsIn_none f _ herr, herr]
    have hexec := exec_kyrokFlitReceive_reads s f halive hopen (decodeFlit_single f s.fresh fun b => by simp [errorsIn_none f b herr])
    have hkind : ¬((flitSaid f).kind = 0 ∨ 5 ≤ (flitSaid f).kind) := by
      change ¬(f.header.toNat / 16 % 8 = 0 ∨ 5 ≤ f.header.toNat / 16 % 8)
      omega
    rw [if_neg hkind, hlanes] at hexec
    have hport := State.port_modPort_self (s := s.flitCorrected f.port.val []) f.port.val
      fun y => Port.pump s.clock.time (y.takes s.clock.time (flitSaid f))
    rw [s.flitCorrected_port, if_pos rfl] at hport
    refine ⟨_, hexec, ?_, ?_, ?_, fun hnak hun howed hwait => ?_, fun h => ?_, fun q hq => ?_, rfl⟩
    · rw [hport, Port.pump_frame]
      rfl
    · rw [hport, Port.pump_frame]
      rfl
    · rw [hport, Port.pump_frame]
      rfl
    · rw [hport]
      exact Port.pump_quiet _ _ (Port.takes_quiet _ _ _ hnak hun howed hwait)
    · rw [hport]
      refine Port.pump_tells _ _ ((Port.ctrlDue_iff _ _).2 ?_)
      rcases h with h | h
      · exact .inl h
      · exact .inr (.inl (Nat.succ_le_succ h))
    · rw [State.port_modPort_ne _ _ hq, s.flitCorrected_port, if_neg hq]
  case single =>
    subst hx
    have hlanes : correctedLanes f (s.port f.port.val) = [(s.port f.port.val).laneOf b.val] := by
      simp [correctedLanes, errorsIn_one f b _ herr, herr, List.eraseDups_cons]
    have hexec := exec_kyrokFlitReceive_reads s f halive hopen (decodeFlit_single f s.fresh fun _ => errorsIn_one f b _ herr)
    rw [hlanes] at hexec
    have hcorrected := s.flitCorrected_port f.port.val f.port.val [(s.port f.port.val).laneOf b.val]
    rw [if_pos rfl] at hcorrected
    have hcount := s.flitCorrected_count f.port.val [(s.port f.port.val).laneOf b.val]
    have hlane : tget (fun _ => 0) ((s.port f.port.val).corrected [(s.port f.port.val).laneOf b.val]).laneCorrected
        ((s.port f.port.val).laneOf b.val) = tget (fun _ => 0) (s.port f.port.val).laneCorrected ((s.port f.port.val).laneOf b.val) + 1 := by
      simp only [Port.corrected, List.foldl_cons, List.foldl_nil, tget_tput_self]
    by_cases hkind : (flitSaid f).kind = 0 ∨ 5 ≤ (flitSaid f).kind
    · rw [if_pos hkind] at hexec
      refine ⟨_, hexec, by rw [hcorrected, hlane], hcount, fun _ => by rw [hcorrected]; exact ⟨rfl, rfl⟩, fun hlo hhi => ?_⟩
      change f.header.toNat / 16 % 8 = 0 ∨ 5 ≤ f.header.toNat / 16 % 8 at hkind
      omega
    · rw [if_neg hkind] at hexec
      have hport := State.port_modPort_self (s := s.flitCorrected f.port.val [(s.port f.port.val).laneOf b.val]) f.port.val
        fun y => Port.pump s.clock.time (y.takes s.clock.time (flitSaid f))
      rw [hcorrected] at hport
      refine ⟨_, hexec, ?_, hcount, fun h => absurd h hkind, fun _ _ => ?_⟩
      · rw [hport, Port.pump_frame]
        exact hlane
      · rw [hport, Port.pump_frame]
        rfl
  case double =>
    subst hx
    refine ⟨_, exec_kyrokFlitReceive_discards s f halive hopen (decodeFlit_double f _ _ (errorsIn_two f a b herr hne hsame)), ?_, fun q hq => ?_, rfl⟩
    · exact State.port_modPort_self (s := s.tick) _ _
    · exact State.port_modPort_ne s.tick _ hq
  case sends =>
    subst hx
    refine ⟨_, exec_ctrlFlitSend_sends s p halive ((Port.ctrlDue_iff _ _).2 h), ?_, ?_, ?_, fun q hq => State.port_modPort_ne _ _ hq, rfl⟩
    · rw [State.port_modPort_self]
      rfl
    · rw [State.port_modPort_self]
      rfl
    · rw [State.port_modPort_self]
      rfl
  case quiet =>
    subst hx
    exact exec_ctrlFlitSend_idle s p (h.imp_right fun ⟨hnak, hun, howed, hwait⟩ => Port.ctrlDue_false _ _ hnak hun howed hwait)
  case taken =>
    obtain ⟨hcopies, hcountf, hnakf, hvl0f, hvl1f⟩ := CtrlFlit.fields_of_halves f count (b2n nak) vl0 vl1 hcount (by cases nak <;> decide) hvl0 hvl1 hbytes
    have hexec := exec_kyrokCtrlFlit_takes s f nak _ halive hopen hcopies hnakf rfl
    rw [hcountf, hvl0f, hvl1f] at hexec
    have hport := s.ctrlTaken_port f.port.val f.port.val
      ((s.port f.port.val).acknowledged ((s.port f.port.val).ackedTo count) vl0 vl1) nak
    rw [if_pos rfl] at hport
    refine ⟨fun hq0 hq1 hlo hhi => ⟨_, hexec, ?_⟩, fun hkept => ⟨_, hexec, ?_⟩⟩
    · have hacked := (s.port f.port.val).ackedTo_count count hcount hlo hhi
      obtain ⟨hk, hsent, hc0, hc1⟩ := Port.pump_idle s.clock.time
        ((s.port f.port.val).acknowledged ((s.port f.port.val).ackedTo count) vl0 vl1) (List.length_eq_zero_iff.1 hq0) (List.length_eq_zero_iff.1 hq1)
      have hcounted := s.ctrlTaken_count f.port.val
        ((s.port f.port.val).acknowledged ((s.port f.port.val).ackedTo count) vl0 vl1) nak
      rw [hport, hk, hsent, hc0, hc1, hcounted]
      refine ⟨?_, by rw [hacked]; rfl, rfl, rfl, rfl, fun h => if_neg ?_, fun h hne => if_pos ⟨h, hne⟩, fun q hq => ?_⟩
      · rw [Port.pump_frame]
        exact hacked
      · rcases h with h | h <;> simp [h]
      · rw [s.ctrlTaken_port, if_neg hq]
    · obtain ⟨hk, hc0, hc1⟩ := Port.pump_limits s.clock.time ((s.port f.port.val).acknowledged ((s.port f.port.val).ackedTo count) vl0 vl1)
      rw [hport]
      exact ⟨hk ((List.length_filter_le _ _).trans hkept), hc0.trans (Nat.min_le_left _ _), hc1.trans (Nat.min_le_left _ _), s.ctrlTaken_frame ..⟩

end Sys2Proof.Machine
end

section
/-!
Lanes that retire and ports that train (R428, R429, R443).
-/
namespace Sys2Proof.Machine

/-! ### Ports and the domain -/

/-- A port as the domain of a lockhouse has it: in service while this package and the far one are members, else for joins alone (R443). -/
def Port.settled (l : Lockhouse) (x : Port) : Port :=
  let joined := decide (2 ≤ l.domainState) && decide (l.domainState ≤ 3) && decide (x.peerPackage ∈ l.members)
  if x.state = 2 ∧ joined then { x with state := 3 } else if x.state = 3 ∧ !joined then { x with state := 2 } else x

/-- Settling goes over the 16 ports, each once. -/
theorem State.settlePorts_port (s : State) {q : Nat} (hq : q < 16) : s.settlePorts.port q = (s.port q).settled s.lock := by
  have hfold (l : List Nat) (hl : l.Nodup) (t : State) :
      (l.foldl (fun (t : State) p => t.modPort p fun x => x.settled t.lock) t).port q =
        if q ∈ l then (t.port q).settled t.lock else t.port q := by
    induction l generalizing t with
    | nil => rfl
    | cons p l ih =>
      obtain ⟨hp, hl⟩ := List.nodup_cons.1 hl
      rw [List.foldl_cons, ih hl, State.port_modPort]
      by_cases h : q = p
      · subst h
        simp [hp]
      · simp [h]
  have := hfold (List.range 16) List.nodup_range s
  rw [if_pos (List.mem_range.2 hq)] at this
  exact this

/-! ### LANE_RETIRE -/

theorem exec_laneRetire_past (s : State) (p : PortId) (lane : Fin 8) (h : lane.val ∉ (s.port p.val).lanes) :
    exec (.laneRetire p lane) s = .next s :=
  if_pos h

/-- The lanes of a port less one. -/
def Port.otherLanes (x : Port) (lane : Nat) : List Nat := x.lanes.filter fun l => l != lane

/-- A port that has lost a lane and goes on with those left (R428, R429). -/
def Port.lessLane (lane : Nat) (left : List Nat) (x : Port) : Port :=
  { x with
    lanes := left, retired := x.retired ++ [lane], discarding := false, nakDue := false
    state := if left.length < 6 then 0 else x.state, outOfService := decide (left.length < 6) }

/-- `s` with a lane of port `p` retired, before its replay is counted: the retirement is recorded (R429). -/
def State.laneRetired (s : State) (p lane : Nat) : State :=
  let counts := tput (fun _ => 0) s.links.laneRetirements (8 * p + lane) (tget (fun _ => 0) s.links.laneRetirements (8 * p + lane) + 1)
  ({ s with links := { s.links with laneRetirements := counts } } : State).modPort p fun x => x.lessLane lane ((s.port p).otherLanes lane)

theorem exec_laneRetire_retires (s : State) (p : PortId) (lane : Fin 8) (h : lane.val ∈ (s.port p.val).lanes) :
    exec (.laneRetire p lane) s = .next
      (if (s.port p.val).kept.isEmpty ∨ ((s.port p.val).otherLanes lane.val).length < 6 then s.laneRetired p.val lane.val
       else (s.laneRetired p.val lane.val).bump (.kyrok p.val) 0x128 1) := by
  change execLaneRetire p lane s = _
  unfold execLaneRetire
  dsimp only
  rw [if_neg (not_not.2 h)]
  rfl

theorem State.laneRetired_port (s : State) (p q lane : Nat) :
    (s.laneRetired p lane).port q = if q = p then (s.port p).lessLane lane ((s.port p).otherLanes lane) else s.port q :=
  State.port_modPort { s with links := { s.links with laneRetirements := (s.laneRetired p lane).links.laneRetirements } } p q _

/-! ### KYROK_PORT_TRAINED -/

/-- The lanes that come into service: those that trained, less those retired twice (R429). -/
def State.lanesUp (s : State) (p n : Nat) : List Nat :=
  (List.range 8).filter fun l => n.testBit l && decide (tget (fun _ => 0) s.links.laneRetirements (8 * p + l) < 2)

/-- A port that has trained with some lanes to a far port, before the domain has it (R428, R429). -/
def State.portTrained (s : State) (p : Nat) (up : List Nat) (peer far : Nat) : Port :=
  { state := if up.length < 6 then 0 else 2, lanes := up,
    retired := (List.range 8).filter fun l => decide (0 < tget (fun _ => 0) s.links.laneRetirements (8 * p + l)) && !decide (l ∈ up),
    peerPort := far, peerPackage := peer, outOfService := decide (up.length < 6), startFailed := decide (up.length < 6) }

theorem exec_kyrokPortTrained_trains (s : State) (p : PortId) (n : Nat) (peer : Fin 256) (far : PortId) (h : s.answers = true) :
    exec (.kyrokPortTrained p n peer far) s =
      .next (s.modPort p.val fun _ => s.portTrained p.val (s.lanesUp p.val n) peer.val far.val).settlePorts :=
  if_neg (by simp [h])

theorem exec_kyrokPortTrained_dark (s : State) (p : PortId) (n : Nat) (peer : Fin 256) (far : PortId) (h : s.answers = false) :
    exec (.kyrokPortTrained p n peer far) s = .next s :=
  if_pos h

theorem Port.settled_frame (l : Lockhouse) (x : Port) : x.settled l = { x with state := (x.settled l).state } := by
  unfold Port.settled
  dsimp only
  split
  · rfl
  split <;> rfl

theorem Port.settled_state (l : Lockhouse) (x : Port) (h : x.state = 2) :
    (x.settled l).state = if 2 ≤ l.domainState ∧ l.domainState ≤ 3 ∧ x.peerPackage ∈ l.members then 3 else 2 := by
  unfold Port.settled
  simp only [h, true_and, Bool.and_eq_true, decide_eq_true_eq, and_assoc]
  split
  · rfl
  · simp [h]

theorem Port.settled_down (l : Lockhouse) (x : Port) (h : x.state = 0) : x.settled l = x := by
  simp [Port.settled, h]

/-- Settles O26: the record, the lanes and the state of a port after a retirement and after a training. -/
theorem lanesRetireAndPortsTrain : Obligations.LanesRetireAndPortsTrain := by
  refine fun s p lane n peer far => ⟨fun h => ?retires, fun h => exec_laneRetire_past s p lane h, fun h => ?trains,
    fun h => exec_kyrokPortTrained_dark s p n peer far h⟩
  case retires =>
    have hexec := exec_laneRetire_retires s p lane h
    generalize ht : (if (s.port p.val).kept.isEmpty ∨ ((s.port p.val).otherLanes lane.val).length < 6 then s.laneRetired p.val lane.val
       else (s.laneRetired p.val lane.val).bump (.kyrok p.val) 0x128 1) = t at hexec
    have hport (q : Nat) : t.port q =
        if q = p.val then (s.port p.val).lessLane lane.val ((s.port p.val).otherLanes lane.val) else s.port q := by
      rw [← ht, ← s.laneRetired_port]
      split <;> rfl
    have hcounts : t.links.laneRetirements = (s.laneRetired p.val lane.val).links.laneRetirements := by
      rw [← ht]
      split <;> rfl
    have hself := hport p.val
    rw [if_pos rfl] at hself
    refine ⟨t, hexec, ?_, ?_, ?_, ?_, fun q hq => ?_, fun hlen hkept => ?_, ?_⟩
    · simp [hself, Port.lessLane, Port.otherLanes]
    · intro l hl hne
      simp [hself, Port.lessLane, Port.otherLanes, hl, hne]
    · simp only [hcounts, State.laneRetired, State.modPort_links_laneRetirements, tget_tput_self]
    · simp [hself, Port.lessLane]
    · rw [hport, if_neg hq]
    · rw [hself] at hlen
      change 6 ≤ ((s.port p.val).otherLanes lane.val).length at hlen
      rw [if_neg (by simp [hkept, hlen])] at ht
      rw [← ht]
      exact State.reg_setReg_self ..
    · rw [← ht]
      split <;> rfl
  case trains =>
    have hexec := exec_kyrokPortTrained_trains s p n peer far h
    have hport := (s.modPort p.val fun _ => s.portTrained p.val (s.lanesUp p.val n) peer.val far.val).settlePorts_port p.isLt
    rw [State.port_modPort_self] at hport
    have hframe := hport
    rw [Port.settled_frame] at hframe
    refine ⟨_, hexec, fun l hl => ?_, ?_, ?_, ?_, ?_, fun hlen => ?_, fun hlen => ?_, ?_⟩
    · rw [hframe]
      simp [State.portTrained, State.lanesUp, hl]
    · rw [hframe]
      rfl
    · rw [hframe]
      rfl
    · rw [hframe]
      exact decide_eq_true_iff
    · rw [hframe]
      exact decide_eq_true_iff
    · rw [hframe] at hlen
      have hdown : (s.portTrained p.val (s.lanesUp p.val n) peer.val far.val).state = 0 := if_pos hlen
      rw [hport, Port.settled_down _ _ hdown, hdown]
    · rw [hframe] at hlen
      have hup : (s.portTrained p.val (s.lanesUp p.val n) peer.val far.val).state = 2 := if_neg (Nat.not_lt.2 hlen)
      rw [hport, Port.settled_state _ _ hup]
      rfl
    · exact State.settlePorts_frame _

end Sys2Proof.Machine
end

section
/-!
Messages at a Kyrok port (R430, R433, R435, R437, R439, R441 to R444).
-/
namespace Sys2Proof.Machine

/-! ### The epoch of a message (R442, R444) -/

/-- The tag of a message holds under a domain key and epoch. -/
def TagHolds (b : List Nat) (key epoch : Nat) : Prop := messageTag (pairKey key epoch (fieldAt b 7 1) (fieldAt b 6 1)) b = slice b 48 16

theorem Lockhouse.messageEpoch_present (l : Lockhouse) (now : Nat) (b : List Nat) (h : TagHolds b l.domainKey l.keyEpoch) :
    l.messageEpoch now b = some (l.keyEpoch, l.domainKey) := by
  rw [Lockhouse.messageEpoch, Lockhouse.epochs, List.find?_cons_of_pos]
  exact beq_iff_eq.2 h

theorem Lockhouse.messageEpoch_old (l : Lockhouse) (now e : Nat) (b : List Nat) (hnot : ¬TagHolds b l.domainKey l.keyEpoch)
    (hold : l.oldEpoch = some e) (hnow : now < l.epochAt + 10000000) (h : TagHolds b l.oldKey e) :
    l.messageEpoch now b = some (e, l.oldKey) := by
  rw [Lockhouse.messageEpoch, Lockhouse.epochs, List.find?_cons_of_neg (by simpa only [TagHolds, beq_iff_eq] using hnot), hold]
  dsimp only
  rw [if_pos hnow, List.find?_cons_of_pos]
  exact beq_iff_eq.2 h

theorem Lockhouse.messageEpoch_none (l : Lockhouse) (now : Nat) (b : List Nat) (hnot : ¬TagHolds b l.domainKey l.keyEpoch)
    (hold : ∀ e, l.oldEpoch = some e → l.epochAt + 10000000 ≤ now ∨ ¬TagHolds b l.oldKey e) : l.messageEpoch now b = none := by
  rw [Lockhouse.messageEpoch, Lockhouse.epochs, List.find?_cons_of_neg (by simpa only [TagHolds, beq_iff_eq] using hnot)]
  cases ho : l.oldEpoch with
  | none => rfl
  | some e =>
    dsimp only
    split
    next hnow =>
      have htag := (hold e ho).resolve_left (by omega)
      rw [List.find?_cons_of_neg (by simpa only [TagHolds, beq_iff_eq] using htag), List.find?_nil]
    next => rfl

/-! ### Counters (R441, R442) -/

/-- The accepted counters with that of a source, VL and epoch set. -/
def withCounter (l : List (Nat × Bool × Nat × Nat)) (src : Nat) (vl : Bool) (e n : Nat) : List (Nat × Bool × Nat × Nat) :=
  (l.filter fun c => !(c.1 == src && c.2.1 == vl && c.2.2.1 == e)) ++ [(src, vl, e, n)]

theorem lastAcceptedCounter_withCounter (l : List (Nat × Bool × Nat × Nat)) (src : Nat) (vl : Bool) (e n src' : Nat) (vl' : Bool) (e' : Nat) :
    lastAcceptedCounter (withCounter l src vl e n) src' vl' e' =
      if (src', vl', e') = (src, vl, e) then n else lastAcceptedCounter l src' vl' e' := by
  have hfind (k : List (Nat × Bool × Nat × Nat)) :
      (k.filter fun c => !(c.1 == src && c.2.1 == vl && c.2.2.1 == e)).find? (fun c => c.1 == src' && c.2.1 == vl' && c.2.2.1 == e') =
        if (src', vl', e') = (src, vl, e) then none else k.find? fun c => c.1 == src' && c.2.1 == vl' && c.2.2.1 == e' := by
    split
    next h =>
      cases h
      exact List.find?_eq_none.2 fun c hc => by
        simpa [imp_iff_not_or, or_assoc] using (List.mem_filter.1 hc).2
    next h =>
      rw [List.find?_filter]
      congr 1
      funext c
      rw [Bool.eq_iff_iff, decide_eq_true_eq]
      refine ⟨And.right, fun hc => ⟨?_, hc⟩⟩
      simp only [Bool.and_eq_true, beq_iff_eq] at hc
      obtain ⟨⟨hsrc, hvl⟩, he⟩ := hc
      rw [Bool.not_eq_true', Bool.eq_false_iff, ne_eq]
      simp only [Bool.and_eq_true, beq_iff_eq, hsrc, hvl, he]
      rintro ⟨⟨rfl, rfl⟩, rfl⟩
      exact h rfl
  unfold lastAcceptedCounter withCounter
  rw [List.find?_append, hfind]
  split
  next h =>
    cases h
    simp
  next h =>
    have hlast : ¬((src == src' && vl == vl' && e == e') = true) := by
      simp only [Bool.and_eq_true, beq_iff_eq]
      rintro ⟨⟨rfl, rfl⟩, rfl⟩
      exact h rfl
    simp [hlast]

/-! ### KYROK_AUTH_DISCARD, one branch after the other -/

section
variable (s : State) (p : PortId) (vl : Bool) (l : List Flit) (b : List Nat) (hfirst : (s.port p.val).firstMessage vl = some l)
  (hb : b = messageBytes l) (hown : fieldAt b 6 1 = s.ownNumber)
include hfirst hb hown

theorem exec_kyrokAuthDiscard_length (hbad : badLength l vl = true) :
    exec (.kyrokAuthDiscard p vl) s = .next ((s.takeMessage p.val vl l).logError (.kyrok p.val) .length 0 0 0) := by
  subst hb
  change execKyrokAuthDiscard p vl s = _
  unfold execKyrokAuthDiscard
  dsimp only
  rw [hfirst]
  dsimp only
  rw [if_neg (not_not.2 hown), if_pos hbad]

theorem exec_kyrokAuthDiscard_format (hbad : badLength l vl = false) (hvl : (fieldAt b 1 1).testBit 0 ≠ vl) :
    exec (.kyrokAuthDiscard p vl) s = .next ((s.takeMessage p.val vl l).logError (.kyrok p.val) .format 0 0 0) := by
  subst hb
  change execKyrokAuthDiscard p vl s = _
  unfold execKyrokAuthDiscard
  dsimp only
  rw [hfirst]
  dsimp only
  rw [if_neg (not_not.2 hown), if_neg (by simp [hbad]), if_pos hvl]

theorem exec_kyrokAuthDiscard_join (hbad : badLength l vl = false) (hvl : (fieldAt b 1 1).testBit 0 = vl)
    (hjoin : joinType (fieldAt b 0 1) = true) :
    exec (.kyrokAuthDiscard p vl) s = .next ((s.takeMessage p.val vl l).openMessage p.val b) := by
  subst hb
  change execKyrokAuthDiscard p vl s = _
  unfold execKyrokAuthDiscard
  dsimp only
  rw [hfirst]
  dsimp only
  rw [if_neg (not_not.2 hown), if_neg (by simp [hbad]), if_neg (not_not.2 hvl), if_pos hjoin]

theorem exec_kyrokAuthDiscard_untagged (hbad : badLength l vl = false) (hvl : (fieldAt b 1 1).testBit 0 = vl)
    (hjoin : joinType (fieldAt b 0 1) = false) (hepoch : s.lock.messageEpoch s.clock.time b = none) :
    exec (.kyrokAuthDiscard p vl) s = .next ((s.takeMessage p.val vl l).authDiscard p.val (fieldAt b 7 1)) := by
  subst hb
  change execKyrokAuthDiscard p vl s = _
  unfold execKyrokAuthDiscard
  dsimp only
  rw [hfirst]
  dsimp only
  rw [if_neg (not_not.2 hown), if_neg (by simp [hbad]), if_neg (not_not.2 hvl), if_neg (by simp [hjoin]), hepoch]

theorem exec_kyrokAuthDiscard_stale (e : Nat × Nat) (hbad : badLength l vl = false) (hvl : (fieldAt b 1 1).testBit 0 = vl)
    (hjoin : joinType (fieldAt b 0 1) = false) (hepoch : s.lock.messageEpoch s.clock.time b = some e)
    (h : fieldAt b 8 8 ≤ lastAcceptedCounter s.links.lastCounter (fieldAt b 7 1) vl e.1 ∨ (s.port p.val).state = 2) :
    exec (.kyrokAuthDiscard p vl) s = .next ((s.takeMessage p.val vl l).authDiscard p.val (fieldAt b 7 1)) := by
  subst hb
  change execKyrokAuthDiscard p vl s = _
  unfold execKyrokAuthDiscard
  dsimp only
  rw [hfirst]
  dsimp only
  rw [if_neg (not_not.2 hown), if_neg (by simp [hbad]), if_neg (not_not.2 hvl), if_neg (by simp [hjoin]), hepoch]
  dsimp only
  rw [if_pos h]

theorem exec_kyrokAuthDiscard_accepts (e : Nat × Nat) (u : State) (hu : u = s.takeMessage p.val vl l) (hbad : badLength l vl = false)
    (hvl : (fieldAt b 1 1).testBit 0 = vl) (hjoin : joinType (fieldAt b 0 1) = false)
    (hepoch : s.lock.messageEpoch s.clock.time b = some e)
    (hlast : lastAcceptedCounter s.links.lastCounter (fieldAt b 7 1) vl e.1 < fieldAt b 8 8) (hst : (s.port p.val).state ≠ 2) :
    exec (.kyrokAuthDiscard p vl) s = .next { u with links := { u.links with
      lastCounter := withCounter s.links.lastCounter (fieldAt b 7 1) vl e.1 (fieldAt b 8 8)
      opened := some (p.val, unsealMessage (pairKey e.2 e.1 (fieldAt b 7 1) s.ownNumber) b) } } := by
  subst hb hu
  change execKyrokAuthDiscard p vl s = _
  unfold execKyrokAuthDiscard
  dsimp only
  rw [hfirst]
  dsimp only
  rw [if_neg (not_not.2 hown), if_neg (by simp [hbad]), if_neg (not_not.2 hvl), if_neg (by simp [hjoin]), hepoch]
  dsimp only
  rw [if_neg (by omega), hown]
  rfl

end

theorem State.authDiscard_logged (s : State) (p : PortId) (src : Nat) :
    LoggedIn (s.bump (.kyrok p.val) 0x110 1) (s.authDiscard p.val src) (.kyrok p.val) .auth :=
  State.logError_logged _ _ _ _ _ _ _ (base_ne_lost _ (base_aligned _))

theorem State.kyrokLog (s : State) (p : PortId) (c : Code) : LoggedIn s (s.logError (.kyrok p.val) c 0 0 0) (.kyrok p.val) c :=
  s.logError_logged _ _ _ _ _ _ (base_ne_lost _ (base_aligned _))

/-! ### KYROK_FORWARD -/

section
variable (s : State) (p : PortId) (vl : Bool) (d : Fin 256) (l : List Flit) (b : List Nat)
  (hfirst : (s.port p.val).firstMessage vl = some l) (hb : b = flitBytes l)
include hfirst hb

theorem exec_kyrokForward_own (hown : fieldAt b 6 1 = s.ownNumber) : exec (.kyrokForward p false d vl) s = .next s := by
  subst hb
  change execKyrokForward p false d vl s = _
  unfold execKyrokForward
  simp only [Bool.false_eq_true, if_false, hfirst, hown, if_true]

theorem exec_kyrokForward_length (hown : fieldAt b 6 1 ≠ s.ownNumber) (hbad : badLength l vl = true) :
    exec (.kyrokForward p false d vl) s = .next ((s.takeMessage p.val vl l).logError (.kyrok p.val) .length 0 0 0) := by
  subst hb
  change execKyrokForward p false d vl s = _
  unfold execKyrokForward
  simp only [Bool.false_eq_true, if_false, hfirst, hown, hbad, if_true]

theorem exec_kyrokForward_unjoined (hown : fieldAt b 6 1 ≠ s.ownNumber) (hbad : badLength l vl = false) (hst : (s.port p.val).state = 2)
    (hjoin : joinType (fieldAt b 0 1) = false) :
    exec (.kyrokForward p false d vl) s = .next ((s.takeMessage p.val vl l).authDiscard p.val (fieldAt b 7 1)) := by
  subst hb
  change execKyrokForward p false d vl s = _
  unfold execKyrokForward
  simp only [Bool.false_eq_true, if_false, hfirst, hown, hbad, hst, hjoin, and_self, if_true]

theorem exec_kyrokForward_routes (r : Option Nat) (hown : fieldAt b 6 1 ≠ s.ownNumber) (hbad : badLength l vl = false)
    (hopen : (s.port p.val).state ≠ 2 ∨ joinType (fieldAt b 0 1) = true)
    (hr : r = s.routeFor (joinType (fieldAt b 0 1)) (s.reg (.kyrok p.val) (0x400 + 8 * (fieldAt b 6 1 / 4))) (fieldAt b 6 1)) :
    (r = none → exec (.kyrokForward p false d vl) s = .next ((s.takeMessage p.val vl l).bump (.kyrok p.val) 0x130 1)) ∧
    ∀ q, r = some q → exec (.kyrokForward p false d vl) s = .next ((s.takeMessage p.val vl l).modPort q (Port.push s.clock.time l)) := by
  subst hb
  have hclosed : ¬((s.port p.val).state = 2 ∧ joinType (fieldAt (flitBytes l) 0 1) = false) := by
    rcases hopen with h | h <;> simp [h]
  refine ⟨fun hnone => ?_, fun q hq => ?_⟩
  · change execKyrokForward p false d vl s = _
    unfold execKyrokForward
    rw [hnone] at hr
    simp only [Bool.false_eq_true, if_false, hfirst, hown, hbad, hclosed, ← hr]
  · change execKyrokForward p false d vl s = _
    unfold execKyrokForward
    rw [hq] at hr
    simp only [Bool.false_eq_true, if_false, hfirst, hown, hbad, hclosed, ← hr]

end

theorem Port.pump_sum (now : Nat) (x : Port) :
    (Port.pump now x).sent + (Port.pump now x).waitVl0 + (Port.pump now x).waitVl1 = x.sent + x.waitVl0 + x.waitVl1 := by
  have htake (y : Port) (vl : Bool) : (y.take vl).sent + (y.take vl).waitVl0 + (y.take vl).waitVl1 = y.sent + y.waitVl0 + y.waitVl1 := by
    cases vl <;> simp only [Port.take, Port.waitVl0, Port.waitVl1, Bool.false_eq_true, if_true, if_false, List.length_drop] <;> omega
  rw [Port.pump_eq]
  split
  · rw [htake]
    exact htake x true
  · rw [htake, htake]

/-- Flits pushed at a port are sent or wait (R433, R437). -/
theorem Port.push_sum (now : Nat) (l : List Flit) (x : Port) :
    (Port.push now l x).sent + (Port.push now l x).waitVl0 + (Port.push now l x).waitVl1 = x.sent + x.waitVl0 + x.waitVl1 + l.length := by
  have hsplit : (l.filter (!·.vl)).length + (l.filter (·.vl)).length = l.length := by
    rw [Nat.add_comm]
    exact (List.length_eq_length_filter_add (fun f : Flit => f.vl)).symm
  rw [Port.push, Port.pump_sum]
  simp only [Port.waitVl0, Port.waitVl1, List.length_append]
  omega

theorem exec_kyrokForward_empty (s : State) (p : PortId) (vl : Bool) (d : Fin 256) (h : (s.port p.val).firstMessage vl = none) :
    exec (.kyrokForward p false d vl) s = .next s ∧ exec (.kyrokAuthDiscard p vl) s = .next s := by
  constructor
  · change execKyrokForward p false d vl s = _
    unfold execKyrokForward
    simp only [Bool.false_eq_true, if_false, h]
  · change execKyrokAuthDiscard p vl s = _
    unfold execKyrokAuthDiscard
    simp only [h]

/-- `s` without the first message to a destination on a VL. -/
def State.withoutMsg (s : State) (d : Nat) (vl : Bool) : State := { s with links := { s.links with outbox := dropMsg d vl s.links.outbox } }

theorem exec_kyrokForward_departs (s : State) (p : PortId) (vl : Bool) (d : Fin 256) (m : OutMsg)
    (h : s.links.outbox.find? (fun m => m.destination == d.val && typeVl1 m.type == vl) = some m) :
    exec (.kyrokForward p true d vl) s = .next ((s.withoutMsg d.val vl).depart m) := by
  change execKyrokForward p true d vl s = _
  unfold execKyrokForward
  simp only [if_true, h]
  rfl

theorem exec_kyrokForward_nothing (s : State) (p : PortId) (vl : Bool) (d : Fin 256)
    (h : ∀ m ∈ s.links.outbox, ¬(m.destination = d.val ∧ typeVl1 m.type = vl)) : exec (.kyrokForward p true d vl) s = .next s := by
  have hfind : s.links.outbox.find? (fun m => m.destination == d.val && typeVl1 m.type == vl) = none :=
    List.find?_eq_none.2 fun m hm => by simpa using h m hm
  change execKyrokForward p true d vl s = _
  unfold execKyrokForward
  simp only [if_true, hfind]

theorem State.depart_unrouted (s : State) (m : OutMsg) (h : s.routeFor (joinType m.type) (s.originWord m.destination) m.destination = none) :
    s.depart m = s.bump (.kyrok 0) 0x130 1 := by
  unfold State.depart
  simp only [h]

/-- The counters of sent messages with one message more (R441). -/
def State.countsWith (s : State) (m : OutMsg) : List (Nat × Bool × Nat × Nat) :=
  countSent s.links.sentCounter m.destination (typeVl1 m.type) s.lock.keyEpoch

/-- The flits that a message leaves in, with its counter (R430, R441). -/
def State.departing (s : State) (m : OutMsg) : List Flit :=
  flitsOf (typeVl1 m.type) (s.wire m (counterOf (s.countsWith m) m.destination (typeVl1 m.type) s.lock.keyEpoch))

theorem State.depart_routed (s : State) (m : OutMsg) (q : Nat)
    (h : s.routeFor (joinType m.type) (s.originWord m.destination) m.destination = some q) :
    s.depart m = ({ s with links := { s.links with sentCounter := s.countsWith m } } : State).modPort q
      (Port.push s.clock.time (s.departing m)) := by
  unfold State.depart
  simp only [h]
  rfl

/-- The bytes of a message do not depend on what else waits. -/
theorem State.withoutMsg_wire (s : State) (d : Nat) (vl : Bool) (m : OutMsg) (c : Nat) : (s.withoutMsg d vl).wire m c = s.wire m c := by
  have hown : (s.withoutMsg d vl).ownNumber = s.ownNumber := rfl
  have hlock : (s.withoutMsg d vl).lock = s.lock := rfl
  unfold State.wire
  rw [hown, hlock]

/-- Settles O27: the checks of KYROK_AUTH_DISCARD and the ways of KYROK_FORWARD one after another. -/
theorem messagesAreCheckedAndRouted : Obligations.MessagesAreCheckedAndRouted := by
  refine ⟨fun s p vl l b u hfirst hb hown hu => ⟨fun hbad => ?length, fun hbad hvl => ?format, fun hbad hvl hjoin => ?join,
      fun hbad hvl hjoin src hsrc => ⟨fun e k hepoch htag => ⟨fun hlast hst => ?accepts, fun h => ?stale⟩, fun hnot hold => ?untagged⟩⟩,
    fun s p vl d l b u hfirst hb hu => ⟨fun hown => exec_kyrokForward_own s p vl d l b hfirst hb hown, fun hown hbad => ?long, fun hown hbad hst hjoin => ?unjoined,
      fun hown hbad hopen r hr => ⟨fun hnone => ?unrouted, fun q hq => ?routed⟩⟩,
    fun s p vl d => ⟨fun h => exec_kyrokForward_empty s p vl d h, fun h => exec_kyrokForward_nothing s p vl d h, fun m hm => ⟨fun hnone => ?lost, fun q hq => ?sent⟩⟩,
    fun s bn rel d => ?barrier⟩
  case length => exact ⟨_, exec_kyrokAuthDiscard_length s p vl l b hfirst hb hown hbad, hu ▸ State.kyrokLog _ p .length⟩
  case format => exact ⟨_, exec_kyrokAuthDiscard_format s p vl l b hfirst hb hown hbad hvl, hu ▸ State.kyrokLog _ p .format⟩
  case join =>
    rw [exec_kyrokAuthDiscard_join s p vl l b hfirst hb hown hbad hvl hjoin, hu]
    rfl
  case accepts =>
    subst hsrc
    have hep : s.lock.messageEpoch s.clock.time b = some (e, k) := by
      rw [← hown] at hepoch htag
      rcases hepoch with ⟨rfl, rfl⟩ | ⟨hold, rfl, hnow, hnot⟩
      · exact Lockhouse.messageEpoch_present _ _ _ htag
      · exact Lockhouse.messageEpoch_old _ _ _ _ hnot hold hnow htag
    refine ⟨_, exec_kyrokAuthDiscard_accepts s p vl l b hfirst hb hown (e, k) u hu hbad hvl hjoin hep hlast hst, ?_, fun src' x' e' hne => ?_, rfl, rfl⟩
    · exact (lastAcceptedCounter_withCounter _ _ _ _ _ _ _ _).trans (if_pos rfl)
    · exact (lastAcceptedCounter_withCounter _ _ _ _ _ _ _ _).trans (if_neg hne)
  case stale =>
    subst hsrc
    have hep : s.lock.messageEpoch s.clock.time b = some (e, k) := by
      rw [← hown] at hepoch htag
      rcases hepoch with ⟨rfl, rfl⟩ | ⟨hold, rfl, hnow, hnot⟩
      · exact Lockhouse.messageEpoch_present _ _ _ htag
      · exact Lockhouse.messageEpoch_old _ _ _ _ hnot hold hnow htag
    exact ⟨_, exec_kyrokAuthDiscard_stale s p vl l b hfirst hb hown (e, k) hbad hvl hjoin hep h, hu ▸ State.authDiscard_logged _ p _⟩
  case untagged =>
    subst hsrc
    rw [← hown] at hnot hold
    exact ⟨_, exec_kyrokAuthDiscard_untagged s p vl l b hfirst hb hown hbad hvl hjoin (Lockhouse.messageEpoch_none _ _ _ hnot hold),
      hu ▸ State.authDiscard_logged _ p _⟩
  case long => exact ⟨_, exec_kyrokForward_length s p vl d l b hfirst hb hown hbad, hu ▸ State.kyrokLog _ p .length⟩
  case unjoined =>
    exact ⟨_, exec_kyrokForward_unjoined s p vl d l b hfirst hb hown hbad hst hjoin, hu ▸ State.authDiscard_logged _ p _⟩
  case unrouted =>
    rw [hu]
    exact (exec_kyrokForward_routes s p vl d l b hfirst hb r hown hbad hopen hr).1 hnone
  case routed =>
    have htaken (i : Nat) : (s.takeMessage p.val vl l).port i =
        if i = p.val then { s.port p.val with inbox := dropFlits vl l.length (s.port p.val).inbox } else s.port i :=
      State.port_modPort _ _ _ _
    refine ⟨_, (exec_kyrokForward_routes s p vl d l b hfirst hb r hown hbad hopen hr).2 q hq, ?_, fun i hi hip => ?_, rfl⟩
    · rw [State.port_modPort_self, Port.push_sum, htaken]
      split
      next h =>
        subst h
        rfl
      next => rfl
    · rw [State.port_modPort_ne _ _ hi, htaken, if_neg hip]
  case lost =>
    obtain ⟨hto, -⟩ : m.destination = d.val ∧ typeVl1 m.type = vl := by simpa using List.find?_some hm
    have hexec := exec_kyrokForward_departs s p vl d m hm
    rw [State.depart_unrouted _ _ (by rw [hto]; exact hnone)] at hexec
    exact ⟨_, hexec, rfl, State.reg_setReg_self .., rfl⟩
  case sent =>
    obtain ⟨hto, hty⟩ : m.destination = d.val ∧ typeVl1 m.type = vl := by simpa using List.find?_some hm
    have hexec := exec_kyrokForward_departs s p vl d m hm
    rw [State.depart_routed _ _ q (by rw [hto]; exact hq)] at hexec
    have hcounts : (s.withoutMsg d.val vl).countsWith m = countSent s.links.sentCounter d.val vl s.lock.keyEpoch := by
      rw [State.countsWith, hto, hty]
      rfl
    refine ⟨_, hexec, rfl, hcounts, ?_, fun i hi => State.port_modPort_ne _ _ hi, rfl⟩
    rw [State.port_modPort_self, State.departing, State.withoutMsg_wire, hto, hty]
    rfl
  case barrier =>
    by_cases h : (bn, d.val, rel) ∈ s.links.kyrokBarriers
    · exact ⟨s, if_pos h, h, fun e he => he, rfl⟩
    · exact ⟨_, if_neg h, by simp, fun e he => by simp [he], rfl⟩

end Sys2Proof.Machine
end

section
/-!
Remote reads (R293, R445 to R448).
-/
namespace Sys2Proof.Machine

/-! ### Reading and writing runs of lines -/

theorem State.poisonLine_hbm_mem (s : State) (l : Nat) : (s.poisonLine l).hbm.mem = s.hbm.mem := by
  rw [(s.poisonLine_lineStep l).1.frame]

/-- A read moves no byte. -/
theorem State.readLine_hbm_mem (s : State) (l key : Nat) : (s.readLine l key).1.hbm.mem = s.hbm.mem := by
  have htick : (if 7 ≤ (s.lineCode l).errors then s.tick else s).hbm.mem = s.hbm.mem := by split <;> rfl
  unfold State.readLine
  extract_lets k t
  split
  · rfl
  split
  · rfl
  split
  case h_5 => exact (State.poisonLine_hbm_mem t l).trans htick
  all_goals exact htick

theorem State.readBytes_hbm_mem (s : State) (a n key : Nat) : (s.readBytes a n key).1.hbm.mem = s.hbm.mem := by
  rw [State.readBytes_eq]
  exact foldl_keeps (fun acc : State × LineData => acc.1.hbm.mem) _ _ (s, ⟨[], false⟩) fun acc i => State.readLine_hbm_mem _ _ _

/-- The first `n` lines of some bytes written one by one from line `l` on. -/
def State.writeLines (s : State) (l key : Nat) (data : List (BitVec 8)) (n : Nat) : State :=
  (List.range n).foldl (fun (t : State) i => t.writeLine (l + i) key ((data.drop (64 * i)).take 64) false) s

theorem State.writeLines_succ (s : State) (l key : Nat) (data : List (BitVec 8)) (n : Nat) :
    s.writeLines l key data (n + 1) = (s.writeLines l key data n).writeLine (l + n) key ((data.drop (64 * n)).take 64) false := by
  simp only [State.writeLines, List.range_succ, List.foldl_append, List.foldl_cons, List.foldl_nil]

/-- Whole lines from the start of a line on are written one by one. -/
theorem State.writeBytes_lines (s : State) (l key n : Nat) (data : List (BitVec 8)) (hn : 0 < n) (hlen : data.length = 64 * n) :
    s.writeBytes (64 * l) key data = s.writeLines l key data n := by
  have hdata : data ≠ [] := by
    rintro rfl
    simp at hlen
    omega
  have hfirst : 64 * l / 64 = l := by omega
  have hcount : (64 * l + data.length - 1) / 64 - l + 1 = n := by omega
  unfold State.writeBytes
  dsimp only
  rw [if_neg hdata, hfirst, hcount]
  refine List.foldl_ext _ _ _ fun t i hi => ?_
  have hi' := List.mem_range.1 hi
  have hlo : (if i = 0 then 64 * l % 64 else 0) = 0 := by split <;> omega
  have hskip : (if i = 0 then 0 else 64 * i - 64 * l % 64) = 64 * i := by split <;> omega
  rw [hlo, hskip, Nat.sub_zero, if_pos (by rw [List.length_take, List.length_drop]; omega)]

/-- Lines of stacks in service outside unclean pages take their bytes, and nothing beside memory moves (R461). -/
theorem State.writeLines_open (s : State) (l key : Nat) (data : List (BitVec 8)) (n : Nat) (hlen : 64 * n ≤ data.length)
    (hout : ∀ i < n, (s.stack ((l + i) / 2147483648)).out = false) (hclean : ∀ i < n, s.unclean (pageOf (64 * (l + i))) = false) :
    s.writeLines l key data n =
        { s with hbm := { s.hbm with mem := (s.writeLines l key data n).hbm.mem, lines := (s.writeLines l key data n).hbm.lines } } ∧
      ∀ a, (s.writeLines l key data n).hbm.mem.get a =
        if 64 * l ≤ a ∧ a < 64 * (l + n) then data.getD (a - 64 * l) 0 else s.hbm.mem.get a := by
  induction n with
  | zero => exact ⟨rfl, fun a => (if_neg (by omega)).symm⟩
  | succ n ih =>
    obtain ⟨hframe, hmem⟩ := ih (by omega) (fun i hi => hout i (by omega)) (fun i hi => hclean i (by omega))
    rw [State.writeLines_succ]
    generalize s.writeLines l key data n = u at hframe hmem ⊢
    have hout' : (u.stack ((l + n) / 2147483648)).out = false := by rw [hframe]; exact hout n (by omega)
    have hclean' : u.unclean (pageOf (64 * (l + n))) = false := by rw [hframe]; exact hclean n (by omega)
    rw [u.writeLine_open _ _ _ _ hout' hclean']
    refine ⟨?_, fun a => ?_⟩
    · rw [hframe]
      rfl
    · change (Memory.setBytes u.hbm.mem (64 * (l + n)) (((data.drop (64 * n)).take 64).take 64)).get a = _
      rw [Memory.get_setBytes, hmem, List.take_take, Nat.min_self]
      by_cases hlo : a < 64 * (l + n)
      · rw [if_pos hlo]
        by_cases h : 64 * l ≤ a
        · rw [if_pos ⟨h, hlo⟩, if_pos ⟨h, by omega⟩]
        · rw [if_neg (by omega), if_neg (by omega)]
      · rw [if_neg hlo, if_neg (show ¬(64 * l ≤ a ∧ a < 64 * (l + n)) by omega)]
        by_cases hhi : a < 64 * (l + (n + 1))
        · rw [if_pos (by omega), List.getElem?_take_of_lt (by omega), List.getElem?_drop, List.getD_eq_getElem?_getD,
            show 64 * n + (a - 64 * (l + n)) = a - 64 * l by omega, List.getElem?_eq_getElem (by omega)]
          rfl
        · rw [if_neg (by omega), List.getElem?_eq_none (by rw [List.length_take]; omega)]
          rfl

/-- A whole page of a stack in service is written as it comes (R446, R461). -/
theorem State.writeBytes_page (s : State) (page key : Nat) (data : List (BitVec 8)) (hlen : data.length = 65536)
    (hout : (s.stack (stackOfPage page)).out = false) (hclean : s.unclean page = false) :
    let t := s.writeBytes (page * 65536) key data
    t = { s with hbm := t.hbm } ∧ (∀ i < 65536, t.hbm.mem.get (page * 65536 + i) = data.getD i 0) ∧
      ∀ a, a / 65536 ≠ page → t.hbm.mem.get a = s.hbm.mem.get a := by
  have hline (i : Nat) (hi : i < 1024) : (page * 1024 + i) / 2147483648 = stackOfPage page ∧ pageOf (64 * (page * 1024 + i)) = page := by
    change _ = page / 2097152 ∧ _ / 65536 = page
    omega
  have haddr : page * 65536 = 64 * (page * 1024) := by omega
  obtain ⟨hframe, hmem⟩ := s.writeLines_open (page * 1024) key data 1024 (by omega) (fun i hi => by rw [(hline i hi).1, hout])
    fun i hi => by rw [(hline i hi).2, hclean]
  intro t
  have ht : t = s.writeLines (page * 1024) key data 1024 := by
    rw [← s.writeBytes_lines (page * 1024) key 1024 data (by omega) (by omega), ← haddr]
  rw [ht]
  refine ⟨?_, fun i hi => ?_, fun a ha => ?_⟩
  · rw [hframe]
  · rw [hmem, if_pos (by omega), haddr, Nat.add_sub_cancel_left]
  · rw [hmem, if_neg (by omega)]

/-! ### What an eviction keeps -/

/-- What an eviction of prefixes leaves beside storage and memory. -/
def State.evictRest (s : State) : Serving × Lockhouse × Clock × List OutMsg := (s.serve, s.lock, s.clock, s.links.outbox)

theorem MemStep.evictRest {s t : State} (h : MemStep s t) : t.evictRest = s.evictRest := by
  rw [State.evictRest, State.evictRest, h.serve, h.lock, h.clock, h.links]

theorem State.setNode_evictRest (s : State) (i : Nat) (n : Node) : (s.setNode i n).evictRest = s.evictRest := by
  unfold State.setNode
  split
  · exact (State.writeBytes_mem _ _ _ _).evictRest
  · rfl

theorem State.modNode_evictRest (s : State) (i : Nat) (f : Node → Node) : (s.modNode i f).evictRest = s.evictRest := by
  unfold State.modNode
  split
  · exact s.setNode_evictRest _ _
  · rfl

theorem State.unlinkNode_evictRest (s : State) (i : Nat) (n : Node) : (s.unlinkNode i n).evictRest = s.evictRest := by
  unfold State.unlinkNode
  dsimp only
  split
  · rfl
  · split
    · exact s.setNode_evictRest _ _
    · rfl

theorem State.dropRefs_evictRest (s : State) (ps : List Nat) : (s.dropRefs ps).evictRest = s.evictRest := by
  refine foldl_keeps State.evictRest _ ps s fun t p => ?_
  unfold State.dropRef State.markUnclean
  repeat' split
  all_goals rfl

theorem State.dropPrefix_evictRest (s : State) (i : Nat) : (s.dropPrefix i).evictRest = s.evictRest := by
  unfold State.dropPrefix
  split
  · rfl
  · split
    · rfl
    · exact s.dropRefs_evictRest _

theorem State.evictNode_evictRest (s : State) (i : Nat) : (s.evictNode i).evictRest = s.evictRest := by
  unfold State.evictNode
  split
  next => rfl
  next n _ =>
    extract_lets t st s1 s2
    have hs1 : s1.evictRest = s.evictRest := s.unlinkNode_evictRest i n
    have hs2 : s2.evictRest = s1.evictRest := by
      simp only [s2]
      split
      · exact s1.modNode_evictRest _ _
      · rfl
    exact (s2.dropPrefix_evictRest _).trans (hs2.trans hs1)

theorem State.evictPoisoned_evictRest (s : State) (page : Nat) : (s.evictPoisoned page).evictRest = s.evictRest := by
  unfold State.evictPoisoned
  exact foldl_keeps State.evictRest _ _ s fun t i => State.evictNode_evictRest t i

/-! ### RREAD_REQ -/

/-- What a remote read finds: its bytes, and whether a line of them is poisoned (R446). -/
def State.remoteBytes (s : State) (page first len : Nat) : State × LineData := s.readBytes (page * 65536 + first) len (s.pageKey page)

/-- The answer of a remote read. -/
def readAnswer (src tag : Nat) (d : LineData) : OutMsg :=
  { destination := src, type := 0x06, body := [tag, if d.poison then Code.poison.num else 0], poison := d.poison, data := d.bytes }

theorem exec_rreadReq_answers (s : State) (src : Fin 256) (tag ep page first len : Nat)
    (hep : ep % 65536 = s.store.storeEpoch % 65536) (hlen : 0 < len) (hfits : first + len ≤ 65536) (hpage : page < 8 * Config.stackPages) :
    exec (.rreadReq src tag ep page first len) s = .next ((if (s.remoteBytes page first len).2.poison then
      (s.remoteBytes page first len).1.evictPoisoned page else (s.remoteBytes page first len).1).send
        (readAnswer src.val tag (s.remoteBytes page first len).2)) := by
  have hbad : ¬(len = 0 ∨ Config.pageBytes < first + len ∨ 8 * Config.stackPages ≤ page) := by
    change ¬(len = 0 ∨ 65536 < first + len ∨ _)
    omega
  change execRreadReq src tag ep page first len s = _
  unfold execRreadReq
  dsimp only
  rw [if_neg (not_not.2 hep), if_neg hbad]
  rfl

theorem exec_rreadReq_epoch (s : State) (src : Fin 256) (tag ep page first len : Nat) (hep : ep % 65536 ≠ s.store.storeEpoch % 65536) :
    exec (.rreadReq src tag ep page first len) s =
      .next (s.send { destination := src.val, type := 0x06, body := [tag, Code.epoch.num] }) :=
  if_pos hep

theorem exec_rreadReq_length (s : State) (src : Fin 256) (tag ep page first len : Nat) (hep : ep % 65536 = s.store.storeEpoch % 65536)
    (h : len = 0 ∨ 65536 < first + len ∨ 8 * Config.stackPages ≤ page) :
    exec (.rreadReq src tag ep page first len) s =
      .next (s.send { destination := src.val, type := 0x06, body := [tag, Code.length.num] }) := by
  change execRreadReq src tag ep page first len s = _
  unfold execRreadReq
  dsimp only
  rw [if_neg (not_not.2 hep), if_pos (show len = 0 ∨ Config.pageBytes < first + len ∨ _ from h)]

/-! ### Migrations that fail -/

theorem State.failMigration_sess (s : State) (x : Nat) (c : Code) : ((s.failMigration x c).sess x).migFailed = some c := by
  rw [State.failMigration, State.sess_modSess_self]

/-- An abort fails the migration here, with its reads gone (R367, R447). -/
theorem State.abortMigration_fails (s : State) (x : Nat) (c : Code) (h : (s.sess x).migration.isSome = true) :
    ((s.abortMigration x c).sess x).migFailed = some c ∧
      (s.abortMigration x c).links.rreads = s.links.rreads.filter fun r => r.context != x := by
  unfold State.abortMigration
  split
  next hn => simp [hn] at h
  next => exact ⟨State.failMigration_sess _ _ _, rfl⟩

/-! ### Timeouts of reads and their answers -/

/-- Poison that a fetch brings moves the codes of lines alone. -/
theorem State.storeFetched_mem (s : State) (a key : Nat) (data : List (BitVec 8)) (poison : Bool) : MemStep s (s.storeFetched a key data poison) := by
  unfold State.storeFetched
  dsimp only
  refine .ite ((s.writeBytes_mem _ _ _).trans (.foldl _ _ _ fun t i => ?_)) (s.writeBytes_mem _ _ _)
  exact t.setLineCode_mem _ _

/-- `s` without an outstanding read. -/
def State.withoutRead (s : State) (r : RRead) : State := { s with links := { s.links with rreads := s.links.rreads.erase r } }

/-- A read as it is issued again: with the next tag of its hub and the cycle of its port (R445, R448). -/
def State.reissued (s : State) (r : RRead) : RRead :=
  { tag := s.nextRread ((s.sess r.context).window / 4), package := r.package, port := (s.originPort r.package).getD 0, page := r.page
    first := r.first, len := r.len, dest := r.dest, hub := (s.sess r.context).window / 4
    limit := 1000 * (s.reg (.kyrok ((s.originPort r.package).getD 0)) 0x108).field 0 20, sent := s.clock.time, context := r.context
    epoch := r.epoch }

theorem State.readRemote_reissues (s : State) (r : RRead) :
    (s.readRemote r.package r.epoch r.page r.first r.len r.dest r.context).links.rreads = s.links.rreads ++ [s.reissued r] ∧
      (s.readRemote r.package r.epoch r.page r.first r.len r.dest r.context).links.outbox = s.links.outbox ++ [{
        destination := r.package, type := 0x05, body := [(s.reissued r).tag, r.epoch, r.page, r.first, r.len] }] ∧
      s.readRemote r.package r.epoch r.page r.first r.len r.dest r.context =
        { s with links := (s.readRemote r.package r.epoch r.page r.first r.len r.dest r.context).links } :=
  ⟨rfl, rfl, rfl⟩

theorem exec_rreadTimeout_late (s : State) (tag : Nat) (r : RRead) (pk mt at_ : Nat) (hr : s.links.rreads.find? (fun x => x.tag == tag) = some r)
    (hm : (s.sess r.context).migration = some (pk, mt, at_)) (hlate : r.sent + r.limit < s.clock.time) :
    exec (.rreadTimeout tag) s = .next (if s.clock.time < at_ + 100000000 then
      (s.withoutRead r).readRemote r.package r.epoch r.page r.first r.len r.dest r.context else (s.withoutRead r).abortMigration r.context .timeout) := by
  change execRreadTimeout tag s = _
  unfold execRreadTimeout
  simp only [hr, Nat.not_le.2 hlate, if_false, hm]
  rfl

theorem exec_rreadTimeout_early (s : State) (tag : Nat) (r : RRead) (hr : s.links.rreads.find? (fun x => x.tag == tag) = some r)
    (h : s.clock.time ≤ r.sent + r.limit) : exec (.rreadTimeout tag) s = .next s := by
  change execRreadTimeout tag s = _
  unfold execRreadTimeout
  simp only [hr, h, if_true]

section
variable (s : State) (p : PortId) (src : Fin 256) (tag st : Nat) (data : List (BitVec 8)) (poison : Bool)

theorem exec_rreadRsp_unmatched (h : ∀ r ∈ s.links.rreads, ¬(r.package = src.val ∧ r.tag = tag)) :
    exec (.rreadRsp p src tag st data poison) s = .next (s.bump (.kyrok p.val) 0x118 1) := by
  have hfind : s.links.rreads.find? (fun x => x.package == src.val && x.tag == tag) = none :=
    List.find?_eq_none.2 fun r hr => by simpa using h r hr
  change execRreadRsp p src tag st data poison s = _
  unfold execRreadRsp
  simp only [hfind]

theorem exec_rreadRsp_late (r : RRead) (hr : s.links.rreads.find? (fun x => x.package == src.val && x.tag == tag) = some r)
    (hlate : r.sent + r.limit < s.clock.time) :
    exec (.rreadRsp p src tag st data poison) s = .next (s.bump (.kyrok p.val) 0x118 1) := by
  change execRreadRsp p src tag st data poison s = _
  unfold execRreadRsp
  simp only [hr, hlate, if_true]

theorem exec_rreadRsp_data (r : RRead) (hr : s.links.rreads.find? (fun x => x.package == src.val && x.tag == tag) = some r)
    (htime : s.clock.time ≤ r.sent + r.limit) (u : State)
    (hu : u = (s.withoutRead r).storeFetched (r.dest * Config.pageBytes + r.first) (s.sess r.context).kvKey data poison) :
    (∀ n, tfind s.links.fetching r.context = some n → poison = true →
      exec (.rreadRsp p src tag 0 data poison) s = .next (u.abortMigration r.context .poison)) ∧
    (∀ n, tfind s.links.fetching r.context = some n → poison = false → exec (.rreadRsp p src tag 0 data poison) s =
      .next { u with links := { u.links with fetching := tset u.links.fetching r.context (n - 1) } }) ∧
    (tfind s.links.fetching r.context = none → exec (.rreadRsp p src tag 0 data poison) s = .next (u.endCopy r.context)) := by
  have hbad : (poison || (0 : Nat) == Code.poison.num) = poison := by cases poison <;> rfl
  have hexec : exec (.rreadRsp p src tag 0 data poison) s = .next (match tfind s.links.fetching r.context with
      | some n => if poison then u.abortMigration r.context .poison
        else { u with links := { u.links with fetching := tset u.links.fetching r.context (n - 1) } }
      | none => u.endCopy r.context) := by
    subst hu
    change execRreadRsp p src tag 0 data poison s = _
    unfold execRreadRsp
    simp only [hr, Nat.not_lt.2 htime, if_false, true_or, if_true, hbad]
    rfl
  refine ⟨fun n hn hp => ?_, fun n hn hp => ?_, fun hn => ?_⟩
  · rw [hexec, hn, hp]
    rfl
  · rw [hexec, hn, hp]
    rfl
  · rw [hexec, hn]

theorem exec_rreadRsp_epoch (r : RRead) (n : Nat) (hr : s.links.rreads.find? (fun x => x.package == src.val && x.tag == tag) = some r)
    (htime : s.clock.time ≤ r.sent + r.limit) (hn : tfind s.links.fetching r.context = some n) :
    exec (.rreadRsp p src tag Code.epoch.num data false) s = .next ((s.withoutRead r).abortMigration r.context .epoch) := by
  have hst : ¬(Code.epoch.num = 0 ∨ Code.epoch.num = Code.poison.num) := by decide
  change execRreadRsp p src tag Code.epoch.num data false s = _
  unfold execRreadRsp
  simp only [hr, Nat.not_lt.2 htime, if_false, hst, hn, if_true]
  rfl

end

/-- Settles O28: a request by what it names, a timeout by its migration's time, and a response by what it matches. -/
theorem remoteReads : Obligations.RemoteReads := by
  refine ⟨fun s src tag ep page first len => ⟨fun hep hlen hfits hpage => ?answers, fun hep => ?epoch, fun hep h => ?length,
      fun r pk mt at_ hr htag hm hlate => ⟨fun hnow => ?again, fun hover => ?ended⟩, fun r hr h => exec_rreadTimeout_early s tag r hr h⟩,
    fun s p src tag data => ⟨fun h st poison => exec_rreadRsp_unmatched s p src tag st data poison h,
      fun r hr => ⟨fun hlate st poison => exec_rreadRsp_late s p src tag st data poison r hr hlate, fun htime hfirst hlen hout hclean => ?page,
        fun htime n hn hm => ⟨?poison, ?lost⟩⟩⟩⟩
  case answers =>
    have hmem := s.readBytes_mem (page * 65536 + first) len (s.pageKey page)
    have hrest : (if (s.remoteBytes page first len).2.poison then (s.remoteBytes page first len).1.evictPoisoned page
        else (s.remoteBytes page first len).1).evictRest = s.evictRest := by
      split
      · exact (State.evictPoisoned_evictRest _ _).trans hmem.evictRest
      · exact hmem.evictRest
    obtain ⟨hserve, hlock, hclock, hout⟩ : _ = _ ∧ _ = _ ∧ _ = _ ∧ _ = _ := by simpa [State.evictRest] using hrest
    refine ⟨_, readAnswer src.val tag (s.remoteBytes page first len).2, exec_rreadReq_answers s src tag ep page first len hep hlen hfits hpage,
      congrArg (· ++ [_]) hout, rfl, rfl, rfl, rfl, hserve, hlock, hclock, fun hp => ?_⟩
    have hp' : ¬(s.remoteBytes page first len).2.poison = true := by simpa [readAnswer] using hp
    rw [if_neg hp']
    exact ⟨s.readBytes_hbm_mem _ _ _, hmem.store⟩
  case epoch => exact ⟨_, exec_rreadReq_epoch s src tag ep page first len hep, rfl, rfl⟩
  case length => exact ⟨_, exec_rreadReq_length s src tag ep page first len hep h, rfl, rfl⟩
  case again =>
    have hexec := exec_rreadTimeout_late s tag r pk mt at_ (by simp [hr, htag]) hm hlate
    rw [if_pos hnow] at hexec
    have hgone : (s.withoutRead r).links.rreads = [] := by simp [State.withoutRead, hr]
    obtain ⟨hreads, hsent, hframe⟩ := (s.withoutRead r).readRemote_reissues r
    rw [hgone] at hreads
    exact ⟨_, (s.withoutRead r).reissued r, hexec, hreads, rfl, rfl, rfl, rfl, rfl, rfl, rfl, hsent, hframe⟩
  case ended =>
    have hexec := exec_rreadTimeout_late s tag r pk mt at_ (by simp [hr, htag]) hm hlate
    rw [if_neg (Nat.not_lt.2 hover)] at hexec
    have hgone : (s.withoutRead r).links.rreads = [] := by simp [State.withoutRead, hr]
    obtain ⟨hfailed, hreads⟩ := (s.withoutRead r).abortMigration_fails r.context .timeout (show ((s.sess r.context).migration).isSome = true by simp [hm])
    exact ⟨_, hexec, by rw [hreads, hgone]; rfl, hfailed⟩
  case page =>
    have haddr : r.dest * Config.pageBytes + r.first = r.dest * 65536 := by
      change r.dest * 65536 + r.first = _
      omega
    obtain ⟨hframe, hin, hout'⟩ := (s.withoutRead r).writeBytes_page r.dest (s.sess r.context).kvKey data hlen hout hclean
    have hu : (s.withoutRead r).storeFetched (r.dest * Config.pageBytes + r.first) (s.sess r.context).kvKey data false =
        (s.withoutRead r).writeBytes (r.dest * 65536) (s.sess r.context).kvKey data := by rw [haddr]; rfl
    obtain ⟨-, hmoving, hcopy⟩ := exec_rreadRsp_data s p src tag data false r hr htime _ rfl
    rw [hu] at hmoving hcopy
    generalize (s.withoutRead r).writeBytes (r.dest * 65536) (s.sess r.context).kvKey data = u at hframe hin hout' hmoving hcopy
    cases hn : tfind s.links.fetching r.context with
    | some n =>
      refine ⟨_, hmoving n hn rfl, hin, hout', ?_, fun k hk => ⟨?_, ?_⟩, fun h => (nomatch h)⟩
      · rw [hframe]
        rfl
      · cases hk
        exact tfind_tset_self ..
      · rw [hframe]
        rfl
    | none =>
      refine ⟨_, hcopy hn, hin, hout', ?_, fun k hk => (nomatch hk), fun _ => ⟨?_, ?_⟩⟩
      · rw [hframe]
        rfl
      · rw [State.endCopy, State.sess_modSess_self, hframe]
        rfl
      · rw [hframe]
        rfl
  case poison =>
    have hsess : (((s.withoutRead r).storeFetched (r.dest * Config.pageBytes + r.first) (s.sess r.context).kvKey data true).sess r.context).migration.isSome = true := by
      rw [State.sess, (State.storeFetched_mem _ _ _ _ _).serve]
      exact hm
    exact ⟨_, (exec_rreadRsp_data s p src tag data true r hr htime _ rfl).1 n hn rfl, (State.abortMigration_fails _ _ _ hsess).1⟩
  case lost =>
    exact ⟨_, exec_rreadRsp_epoch s p src tag data r n hr htime hn, ((s.withoutRead r).abortMigration_fails _ _ hm).1⟩

end Sys2Proof.Machine
end

section
/-!
TMUX.DSEL_i and ASEL_j (R543, R576, R578) and ERR_STATUS.clear (R547).
-/
namespace Sys2Proof.Machine

theorem exec_tmuxSelect_answers (s : State) (pin : Fin 10) (v : Word) (h : s.answers = true) :
    exec (.tmuxSelect pin v) s = .next (s.writeTmux pin.val v).1 :=
  s.access_answers (.tmuxSelect pin v) (fun t => (t.writeTmux pin.val v).1) h

/-- The other analogue pin carries a signal of the same column and another one (R578). -/
abbrev State.tmuxConflict (s : State) (pin : Nat) (v : Word) : Prop :=
  8 ≤ pin ∧ (s.reg .tmux (tmuxOff (if pin = 8 then 9 else 8))).bit 63 = true ∧
    (s.reg .tmux (tmuxOff (if pin = 8 then 9 else 8))).field 4 4 = v.field 4 4 ∧
    (s.reg .tmux (tmuxOff (if pin = 8 then 9 else 8))).field 0 8 ≠ v.field 0 8

/-- Debug is open for the scope of the pin (R543). -/
def State.tmuxUnlocked (s : State) (pin : Nat) : Prop :=
  s.lock.debugOpen = true ∧ s.lock.debugScope.testBit (if pin < 8 then 0 else 1) = true

theorem State.writeTmux_off (s : State) (pin : Nat) (v : Word) (h : v.bit 63 = false) :
    s.writeTmux pin v = s.storeReg .tmux (tmuxOff pin) v :=
  if_pos h

theorem State.writeTmux_auth (s : State) (pin : Nat) (v : Word) (hv : v.bit 63 = true)
    (h : s.lock.debugOpen = false ∨ s.lock.debugScope.testBit (if pin < 8 then 0 else 1) = false) :
    s.writeTmux pin v = s.refuse .tmux (tmuxOff pin) .auth :=
  (if_neg (by simp [hv])).trans (if_pos h)

/-- With the unlock of its scope a selection is decided by the two checks that remain. -/
theorem State.writeTmux_unlocked (s : State) (pin : Nat) (v : Word) (hv : v.bit 63 = true) (h : s.tmuxUnlocked pin) :
    s.writeTmux pin v =
      if pin < 8 ∧ digitalCode (v.field 0 8) = false then s.refuse .tmux (tmuxOff pin) .format
      else if s.tmuxConflict pin v then s.refuse .tmux (tmuxOff pin) .busy else s.storeReg .tmux (tmuxOff pin) v :=
  (if_neg (by simp [hv])).trans (if_neg (by simp [h.1, h.2]))

theorem State.writeTmux_format (s : State) (pin : Nat) (v : Word) (hv : v.bit 63 = true) (h : s.tmuxUnlocked pin)
    (hpin : pin < 8) (hc : digitalCode (v.field 0 8) = false) : s.writeTmux pin v = s.refuse .tmux (tmuxOff pin) .format :=
  (s.writeTmux_unlocked pin v hv h).trans (if_pos ⟨hpin, hc⟩)

theorem State.writeTmux_busy (s : State) (pin : Nat) (v : Word) (hv : v.bit 63 = true) (h : s.tmuxUnlocked pin)
    (hc : s.tmuxConflict pin v) : s.writeTmux pin v = s.refuse .tmux (tmuxOff pin) .busy :=
  (s.writeTmux_unlocked pin v hv h).trans ((if_neg fun hd => absurd hc.1 (by omega)).trans (if_pos hc))

theorem State.writeTmux_selects (s : State) (pin : Nat) (v : Word) (hv : v.bit 63 = true) (h : s.tmuxUnlocked pin)
    (hd : pin < 8 → digitalCode (v.field 0 8) = true) (hc : ¬ s.tmuxConflict pin v) :
    s.writeTmux pin v = s.storeReg .tmux (tmuxOff pin) v := by
  rw [s.writeTmux_unlocked pin v hv h, if_neg, if_neg hc]
  rintro ⟨hpin, hbad⟩
  simp [hd hpin] at hbad

theorem regFields_tmux : ∀ pin : Fin 10, regFields .tmux (tmuxOff pin.val) = some tmuxFields := by
  decide +kernel

/-- Both fields of a selection register take what is written. -/
theorem tmuxFields_written (old v : Word) :
    (fieldsWrite tmuxFields old v).bit 63 = v.bit 63 ∧ (fieldsWrite tmuxFields old v).field 0 8 = v.field 0 8 :=
  ⟨Word.bit_eq_of_field (fieldsWrite_rw [] _ old v ⟨63, 1, .rw, 0⟩ rfl (by decide) (by decide)),
    fieldsWrite_rw [⟨63, 1, .rw, 0⟩] _ old v ⟨0, 8, .rw, 0⟩ rfl (by decide) (by decide)⟩

theorem State.clearError_frame (s : State) (p : Page) : s.clearError p = { s with regs := (s.clearError p).regs } := by
  simp only [State.clearError, State.setReg]

theorem State.clearError_only (s : State) (p : Page) :
    OnlyRegs s (s.clearError p) [p.base + 0x020, p.base + 0x028, p.base + 0x030, p.base + 0x050] := by
  refine ⟨s.clearError_frame p, fun a ha => ?_⟩
  simp only [List.mem_cons, not_or] at ha
  obtain ⟨hstatus, haddr, hsrc, hstamp, -⟩ := ha
  simp only [State.clearError, State.regAt_setReg, if_neg hstatus, if_neg haddr, if_neg hsrc, if_neg hstamp]

theorem State.clearError_zero (s : State) (p : Page) :
    (s.clearError p).reg p 0x020 = 0 ∧ (s.clearError p).reg p 0x028 = 0 ∧ (s.clearError p).reg p 0x030 = 0 ∧
      (s.clearError p).reg p 0x050 = 0 := by
  simp [State.clearError]

theorem exec_errStatusClear_answers (s : State) (page : Nat) (v : Word) (p : Page) (off : Nat) (hp : target page = .reg p off)
    (h : s.answers = true) : exec (.errStatusClear page v) s = .next (if v.bit 63 then s.clearError p else s) := by
  change execErrStatusClear page v s = _
  rw [execErrStatusClear, State.access_answers _ _ _ h, hp]
  rfl

/-- Settles O31: a selection is a plain register write behind the debug unlock and two checks, and the clear zeroes four registers. -/
theorem testPinsAndErrorRecords : Obligations.TestPinsAndErrorRecords := by
  intro s pin v hs
  refine ⟨fun h => ?select, fun hv h => ?auth, fun hv hopen hscope hpin hc => ?format,
    fun hv hopen hscope hpin hbit hcol hcode => ?busy, fun page p off hp => ⟨fun hv => ?clear, fun hv => ?keep⟩⟩
  case select =>
    have hw : s.writeTmux pin.val v = s.storeReg .tmux (tmuxOff pin.val) v := by
      rcases hv : v.bit 63
      · exact s.writeTmux_off pin.val v hv
      · obtain hno | ⟨hopen, hscope, hdigital, hfree⟩ := h
        · simp [hv] at hno
        · refine s.writeTmux_selects pin.val v hv ⟨hopen, hscope⟩ hdigital fun ⟨hpin, hbit, hcol, hcode⟩ => ?_
          simp [hbit, hcol, hcode] at hfree
          omega
    obtain ⟨honly, hreg⟩ := s.storeReg_only .tmux (tmuxOff pin.val) v tmuxFields (regFields_tmux pin)
    refine ⟨_, exec_tmuxSelect_answers s pin v hs, ?_, ?_, ?_⟩
    · rwa [hw]
    · rw [hw, hreg, (tmuxFields_written _ v).1]
    · rw [hw, hreg, (tmuxFields_written _ v).2]
  case auth => exact refused_of_written (exec_tmuxSelect_answers s pin v hs) (s.writeTmux_auth pin.val v hv h)
  case format =>
    exact refused_of_written (exec_tmuxSelect_answers s pin v hs)
      (s.writeTmux_format pin.val v hv ⟨hopen, by rwa [if_pos hpin]⟩ hpin hc)
  case busy =>
    exact refused_of_written (exec_tmuxSelect_answers s pin v hs)
      (s.writeTmux_busy pin.val v hv ⟨hopen, by rwa [if_neg (by omega)]⟩ ⟨hpin, hbit, hcol, hcode⟩)
  case clear =>
    obtain ⟨hstatus, haddr, hsrc, hstamp⟩ := s.clearError_zero p
    exact ⟨_, (exec_errStatusClear_answers s page v p off hp hs).trans (by rw [if_pos hv]), hstatus, haddr, hsrc, hstamp,
      s.clearError_only p⟩
  case keep => rw [exec_errStatusClear_answers s page v p off hp hs, if_neg (by simp [hv])]

end Sys2Proof.Machine
end

section
/-!
DIE.MEM_MODE (R199, R200), GAUGE.FORCE (R555), RISER.HIST_SEL (R556) and GRAN.LEASE_REVOKE (R259).
-/
namespace Sys2Proof.Machine

/-! ### DIE.MEM_MODE -/

/-- A change that a second time does nothing, made in every croft of a list. -/
theorem State.croft_foldl_modCroft (f : Croft → Croft) (hf : ∀ c, f (f c) = f c) (l : List Nat) (s : State) (n : Nat) :
    (l.foldl (fun (t : State) k => t.modCroft k f) s).croft n = if n ∈ l then f (s.croft n) else s.croft n := by
  induction l generalizing s with
  | nil => rfl
  | cons k l ih =>
    rw [List.foldl_cons, ih, State.croft_modCroft]
    by_cases hk : n = k <;> by_cases hl : n ∈ l <;> simp [hk, hl, hf]

theorem State.foldl_modCroft_frame (f : Croft → Croft) (l : List Nat) (s : State) :
    l.foldl (fun (t : State) k => t.modCroft k f) s = { s with crofts := (l.foldl (fun (t : State) k => t.modCroft k f) s).crofts } := by
  induction l generalizing s with
  | nil => rfl
  | cons k l ih =>
    rw [List.foldl_cons, ih]
    rfl

theorem Croft.clearPads_idem (c : Croft) : c.clearPads.clearPads = c.clearPads := rfl

/-- The crofts of a die with every pad powered down. -/
def State.padsCleared (s : State) (d : Nat) : State := (s.croftsOf d).foldl (fun (t : State) n => t.modCroft n Croft.clearPads) s

theorem State.padsCleared_frame (s : State) (d : Nat) : s.padsCleared d = { s with crofts := (s.padsCleared d).crofts } :=
  State.foldl_modCroft_frame _ _ _

/-- A die in a memory mode, pads and granary powered down (R199, R200). -/
def Die.inMode (x : Die) (m : Bool) : Die := { x.clearGranary with mapMode := m, powerAct := 0, powerPs := 0, powerGran := [] }

/-- Pads and registers once the write is stored: the dies are as they were. -/
def State.modeStored (s : State) (d : Nat) (v : Word) : State := (s.padsCleared d).storeFields (.die d) 0x100 v

/-- The state with the memory mode of a die set. -/
def State.modeSet (s : State) (d : Nat) (v : Word) : State := (s.modeStored d v).modDie d fun y => y.inMode (v.bit 0)

theorem State.writeMemMode_busy (s : State) (d : Nat) (v : Word)
    (h : (s.die d).pattern.isSome = true ∨ (s.die d).loading.isSome = true) : s.writeMemMode d v = s.refuse (.die d) 0x100 .busy :=
  if_pos h

theorem State.writeMemMode_locked (s : State) (d : Nat) (v : Word) (hp : (s.die d).pattern = none) (hl : (s.die d).loading = none)
    (hv : v.bit 0 = false) (h : (s.die d).mapLocked = true) : s.writeMemMode d v = s.refuse (.die d) 0x100 .locked :=
  (if_neg (by simp [hp, hl])).trans (if_pos ⟨hv, h⟩)

theorem State.writeMemMode_sets (s : State) (d : Nat) (v : Word) (hp : (s.die d).pattern = none) (hl : (s.die d).loading = none)
    (h : v.bit 0 = true ∨ (s.die d).mapLocked = false) : s.writeMemMode d v = ok (s.modeSet d v) :=
  (if_neg (by simp [hp, hl])).trans (if_neg (by rintro ⟨hv, hm⟩; simp [hv, hm] at h))

theorem State.modeStored_frame (s : State) (d : Nat) (v : Word) :
    s.modeStored d v = { s with regs := (s.modeStored d v).regs, crofts := (s.padsCleared d).crofts } := by
  rw [State.modeStored, State.storeFields_frame, State.padsCleared_frame]

theorem State.modeStored_die (s : State) (d k : Nat) (v : Word) : (s.modeStored d v).die k = s.die k := by
  rw [State.modeStored_frame, State.die, State.die]

theorem State.modeSet_eq (s : State) (d : Nat) (v : Word) :
    s.modeSet d v = { s with regs := (s.modeStored d v).regs, crofts := (s.padsCleared d).crofts }.modDie d fun y => y.inMode (v.bit 0) := by
  rw [← State.modeStored_frame, State.modeSet]

theorem State.modeSet_frame (s : State) (d : Nat) (v : Word) :
    s.modeSet d v = { s with regs := (s.modeSet d v).regs, dies := (s.modeSet d v).dies, crofts := (s.modeSet d v).crofts } := by
  rw [State.modeSet_eq]
  rfl

theorem State.modeSet_die (s : State) (d k : Nat) (v : Word) :
    (s.modeSet d v).die k = if k = d then (s.die d).inMode (v.bit 0) else s.die k := by
  rw [State.modeSet, State.die_modDie, State.modeStored_die, State.modeStored_die]

theorem State.modeSet_croft (s : State) (d n : Nat) (v : Word) :
    (s.modeSet d v).croft n = if n ∈ s.croftsOf d then (s.croft n).clearPads else s.croft n := by
  rw [State.modeSet_eq]
  exact State.croft_foldl_modCroft _ Croft.clearPads_idem _ _ _

def memModeFields : List Field := [⟨1, 2, .ro, 0⟩, ⟨0, 1, .rw, 1⟩]

theorem regFields_memMode (d : Nat) : regFields (.die d) 0x100 = some memModeFields := rfl

theorem State.modeSet_bit (s : State) (d : Nat) (v : Word) : ((s.modeSet d v).reg (.die d) 0x100).bit 0 = v.bit 0 := by
  have hreg : (s.modeStored d v).reg (.die d) 0x100 = fieldsWrite memModeFields ((s.padsCleared d).reg (.die d) 0x100) v :=
    ((s.padsCleared d).storeReg_only (.die d) 0x100 v _ (regFields_memMode d)).2
  have hdie : (s.modeSet d v).reg (.die d) 0x100 = (s.modeStored d v).reg (.die d) 0x100 := (s.modeStored d v).modDie_reg _ _ _ _
  rw [hdie, hreg]
  exact Word.bit_eq_of_field (fieldsWrite_rw [⟨1, 2, .ro, 0⟩] _ _ v ⟨0, 1, .rw, 1⟩ rfl (by decide) (by decide))

theorem exec_memMode_answers (s : State) (d : DieId) (v : Word) (h : s.answers = true) :
    exec (.memMode d v) s = .next (s.writeMemMode d.val v).1 :=
  s.access_answers (.memMode d v) (fun t => (t.writeMemMode d.val v).1) h

/-! ### GAUGE.FORCE -/

theorem exec_gaugeForce_answers (s : State) (d : DieId) (v : Word) (h : s.answers = true) :
    exec (.gaugeForce d v) s = .next (s.writeGaugeForce d.val v).1 :=
  s.access_answers (.gaugeForce d v) (fun t => (t.writeGaugeForce d.val v).1) h

/-- The croft that a value of GAUGE.FORCE names. -/
def forceCroft (d : Nat) (v : Word) : Nat := 2048 * d + 64 * v.field 16 5 + v.field 8 6

/-- A mould at the head of its croft's gauging order (R555). -/
def Croft.force (c : Croft) (m : Nat) : Croft := { c with forced := m :: c.forced.filter fun k => k != m }

theorem State.writeGaugeForce_length (s : State) (d : Nat) (v : Word) (h : 33 < v.field 8 6 ∨ 17 < v.field 0 5) :
    s.writeGaugeForce d v = s.refuse (.gauge d) 0x108 .length :=
  if_pos h

theorem State.writeGaugeForce_state (s : State) (d : Nat) (v : Word) (hrow : v.field 8 6 ≤ 33) (hm : v.field 0 5 ≤ 17)
    (h : s.service (forceCroft d v) ≠ .inService ∨ (s.mould (forceCroft d v) (v.field 0 5)).slot = none ∨
      (s.mould (forceCroft d v) (v.field 0 5)).state ≠ .cast) : s.writeGaugeForce d v = s.refuse (.gauge d) 0x108 .state := by
  refine (if_neg (by omega)).trans (if_pos ?_)
  rwa [Option.isNone_iff_eq_none]

theorem State.writeGaugeForce_forces (s : State) (d : Nat) (v : Word) (hrow : v.field 8 6 ≤ 33) (hm : v.field 0 5 ≤ 17)
    (hserve : s.service (forceCroft d v) = .inService) (hslot : (s.mould (forceCroft d v) (v.field 0 5)).slot ≠ none)
    (hcast : (s.mould (forceCroft d v) (v.field 0 5)).state = .cast) :
    s.writeGaugeForce d v = ok (s.modCroft (forceCroft d v) fun c => c.force (v.field 0 5)) := by
  refine (if_neg (by omega)).trans (if_neg ?_)
  rw [Option.isNone_iff_eq_none]
  rintro (h | h | h) <;> contradiction

/-! ### RISER.HIST_SEL -/

def histSelFields : List Field := [⟨63, 1, .rw, 0⟩, ⟨16, 5, .rw, 0⟩, ⟨8, 5, .rw, 0⟩, ⟨0, 4, .rw, 0⟩]

theorem regFields_histSel (d : Nat) : regFields (.riser d) 0x100 = some histSelFields := rfl

theorem histSelFields_written (old v : Word) :
    (fieldsWrite histSelFields old v).bit 63 = v.bit 63 ∧ (fieldsWrite histSelFields old v).field 16 5 = v.field 16 5 ∧
      (fieldsWrite histSelFields old v).field 8 5 = v.field 8 5 ∧ (fieldsWrite histSelFields old v).field 0 4 = v.field 0 4 :=
  ⟨Word.bit_eq_of_field (fieldsWrite_rw [] _ old v ⟨63, 1, .rw, 0⟩ rfl (by decide) (by decide)),
    fieldsWrite_rw [⟨63, 1, .rw, 0⟩] _ old v ⟨16, 5, .rw, 0⟩ rfl (by decide) (by decide),
    fieldsWrite_rw [⟨63, 1, .rw, 0⟩, ⟨16, 5, .rw, 0⟩] _ old v ⟨8, 5, .rw, 0⟩ rfl (by decide) (by decide),
    fieldsWrite_rw [⟨63, 1, .rw, 0⟩, ⟨16, 5, .rw, 0⟩, ⟨8, 5, .rw, 0⟩] _ old v ⟨0, 4, .rw, 0⟩ rfl (by decide) (by decide)⟩

theorem exec_histSel_answers (s : State) (d : DieId) (v : Word) (h : s.answers = true) :
    exec (.histSel d v) s = .next (s.storeReg (.riser d.val) 0x100 v).1 :=
  s.access_answers (.histSel d v) (fun t => t.storeFields (.riser d.val) 0x100 v) h

/-! ### GRAN.LEASE_REVOKE -/

theorem exec_leaseRevoke_answers (s : State) (d : DieId) (v : Word) (h : s.answers = true) :
    exec (.leaseRevoke d v) s = .next (s.writeLeaseRevoke d.val v) :=
  s.access_answers (.leaseRevoke d v) (fun t => t.writeLeaseRevoke d.val v) h

theorem Die.lease_modLease (x : Die) (i k : Nat) (f : Lease → Lease) :
    (x.modLease i f).lease k = if k = i then f (x.lease i) else x.lease k :=
  tget_tmod _ _ _ _ _

theorem State.writeLeaseRevoke_frame (s : State) (d : Nat) (v : Word) :
    s.writeLeaseRevoke d v = { s with regs := (s.writeLeaseRevoke d v).regs, dies := (s.writeLeaseRevoke d v).dies } := by
  simp only [State.writeLeaseRevoke, State.modDie, State.setDie, State.bump, State.setReg]

theorem State.writeLeaseRevoke_die (s : State) (d k : Nat) (v : Word) :
    (s.writeLeaseRevoke d v).die k = if k = d then (s.die d).modLease (v.field 0 6) Lease.finish else s.die k := by
  rw [State.writeLeaseRevoke, State.bump_die, State.die_modDie]

theorem State.writeLeaseRevoke_regAt (s : State) (d a : Nat) (v : Word) :
    (s.writeLeaseRevoke d v).regAt a = if a = (Page.foot d).base + 0x100 then satAdd (s.reg (.foot d) 0x100) 1 else s.regAt a :=
  State.regAt_bump _ _ _ _ _

theorem Lease.finish_held (l : Lease) : l.finish.held = false := by
  unfold Lease.finish
  split
  next => rfl
  next h => exact Bool.eq_false_iff.mpr h

theorem Lease.finish_epoch (l : Lease) : l.finish.epoch = if l.held then l.epoch + 1 else l.epoch := by
  unfold Lease.finish
  split <;> rfl

/-! ### The statement -/

/-- Settles O30: each write is one change of its die or croft behind its checks. -/
theorem dieRegistersTakeTheirWrites : Obligations.DieRegistersTakeTheirWrites := by
  intro s d v hs
  refine ⟨fun hp hl h => ?mode, fun h => ?busy, fun hp hl hv hm => ?locked, fun n hn hrow hm => ?force, fun h => ?length, ?hist, ?revoke⟩
  case mode =>
    have hdie := s.modeSet_die d.val d.val v
    rw [if_pos rfl] at hdie
    refine ⟨s.modeSet d.val v, exec_of_written (exec_memMode_answers s d v hs) (s.writeMemMode_sets d.val v hp hl h), ?_, ?_, ?_, ?_,
      ?_, ?_, fun n hn => ?_, s.modeSet_bit d.val v, fun k hk => ?_, s.modeSet_frame d.val v⟩
    iterate 6
      rw [hdie]
      rfl
    · rw [State.modeSet_croft, if_pos hn]
      exact ⟨rfl, rfl, rfl⟩
    · rw [State.modeSet_die, if_neg hk]
  case busy => exact refused_of_written (exec_memMode_answers s d v hs) (s.writeMemMode_busy d.val v h)
  case locked => exact refused_of_written (exec_memMode_answers s d v hs) (s.writeMemMode_locked d.val v hp hl hv hm)
  case force =>
    subst hn
    refine ⟨fun hserve hslot hcast => ?_, fun h =>
      refused_of_written (exec_gaugeForce_answers s d v hs) (s.writeGaugeForce_state d.val v hrow hm h)⟩
    refine ⟨_, exec_of_written (exec_gaugeForce_answers s d v hs) (s.writeGaugeForce_forces d.val v hrow hm hserve hslot hcast), ?_,
      fun k hk => ?_, fun k hk => State.croft_modCroft_ne _ _ hk, rfl⟩
    · exact congrArg (fun c : Croft => c.forced.head?) (s.croft_modCroft_self (forceCroft d.val v) _)
    · have hcroft := congrArg Croft.forced (s.croft_modCroft_self (forceCroft d.val v) fun c => c.force (v.field 0 5))
      change k ∈ Croft.forced (State.croft _ (forceCroft d.val v)) ↔ k ∈ Croft.forced (s.croft (forceCroft d.val v))
      rw [hcroft]
      simp [Croft.force, hk]
  case length => exact refused_of_written (exec_gaugeForce_answers s d v hs) (s.writeGaugeForce_length d.val v h)
  case hist =>
    obtain ⟨honly, hreg⟩ := s.storeReg_only (.riser d.val) 0x100 v _ (regFields_histSel d.val)
    refine ⟨_, exec_histSel_answers s d v hs, honly, ?_⟩
    rw [hreg]
    exact histSelFields_written _ v
  case revoke =>
    have hdie := s.writeLeaseRevoke_die d.val d.val v
    rw [if_pos rfl] at hdie
    refine ⟨_, exec_leaseRevoke_answers s d v hs, ?_, ?_, fun k hk => ?_, fun k hk => ?_, s.writeLeaseRevoke_frame d.val v, ?_, fun a ha => ?_⟩
    · rw [hdie, Die.lease_modLease, if_pos rfl, Lease.finish_held]
    · rw [hdie, Die.lease_modLease, if_pos rfl, Lease.finish_epoch]
    · rw [hdie, Die.lease_modLease, if_neg hk]
    · rw [State.writeLeaseRevoke_die, if_neg hk]
    · exact (s.writeLeaseRevoke_regAt d.val _ v).trans (if_pos rfl)
    · rw [State.writeLeaseRevoke_regAt, if_neg ha]

end Sys2Proof.Machine
end

section
/-!
The units of a steward module that reach registers and main memory: REGISTER_WRITE, RD8 and WR8 (R9 to R11, R41, R415, R420, R421).
-/
namespace Sys2Proof.Machine

/-! ### What a read of host memory leaves -/

theorem State.poisonLine_links (s : State) (l : Nat) : (s.poisonLine l).links = s.links := by
  rw [(s.poisonLine_lineStep l).1.frame]

theorem State.readLine_links (s : State) (l key : Nat) : (s.readLine l key).1.links = s.links := by
  have htick : (if 7 ≤ (s.lineCode l).errors then s.tick else s).links = s.links := by split <;> rfl
  unfold State.readLine
  extract_lets k t
  split
  · rfl
  split
  · rfl
  split
  case h_5 => exact (State.poisonLine_links t l).trans htick
  all_goals exact htick

theorem State.readBytes_links (s : State) (a n key : Nat) : (s.readBytes a n key).1.links = s.links := by
  rw [State.readBytes_eq]
  exact foldl_keeps (fun acc : State × LineData => acc.1.links) _ _ (s, ⟨[], false⟩) fun acc i => State.readLine_links _ _ _

theorem State.hostRead_links (s : State) (a n : Nat) : (s.hostRead a n).1.links = s.links := by
  unfold State.hostRead
  split
  next => rfl
  next => exact State.readBytes_links _ _ _ _

theorem State.hostRead_hbm_mem (s : State) (a n : Nat) : (s.hostRead a n).1.hbm.mem = s.hbm.mem := by
  unfold State.hostRead
  split
  next => rfl
  next => exact State.readBytes_hbm_mem _ _ _ _

/-! ### REGISTER_WRITE -/

theorem State.stewardTarget_engine (s : State) (hp : s.pkg.partGib ≤ 16) (a : Nat) (ha : a < 2 ^ 48) :
    s.stewardTarget (0x0080000000000000 + a) = .engine a := by
  rw [State.stewardTarget, if_neg (by omega), if_pos (by omega), Nat.add_sub_cancel_left]

/-- The state with the steward's response of module `m`. -/
def State.responded (s : State) (m status : Nat) : State := { s with links := { s.links with response := some (m, status) } }

theorem exec_registerWrite_nowhere (s : State) (phys width : Nat) (v : Word) (hs : s.answers = true) (h : s.stewardTarget phys = .none) :
    exec (.registerWrite phys width v) s = .next s := by
  change execRegisterWrite phys width v s = _
  rw [execRegisterWrite, State.access_answers _ _ _ hs, h]

theorem exec_registerWrite_engine (s : State) (phys width a : Nat) (v : Word) (hs : s.answers = true) (h : s.stewardTarget phys = .engine a) :
    exec (.registerWrite phys width v) s =
      .next ((s.busWrite (s.moduleOf a) a width v).1.responded (s.moduleOf a) (s.busWrite (s.moduleOf a) a width v).2) := by
  change execRegisterWrite phys width v s = _
  rw [execRegisterWrite, State.access_answers _ _ _ hs, h]
  rfl

theorem exec_registerWrite_byte (s : State) (phys a : Nat) (v : Word) (hs : s.answers = true) (h : s.stewardTarget phys = .memory a) :
    exec (.registerWrite phys 1 v) s = .next (s.coreStore a (BitVec.ofNat 8 (v.field 0 8))) := by
  change execRegisterWrite phys 1 v s = _
  rw [execRegisterWrite, State.access_answers _ _ _ hs, h]
  simp only [List.range_one, List.foldl_cons, List.foldl_nil, Nat.add_zero, Nat.mul_zero, h]

theorem State.coreStore_sound (s : State) (a : Nat) (b : BitVec 8) (h : (s.hostRead (a - a % 64) 64).2.poison = false) :
    s.coreStore a b = { (s.hostRead (a - a % 64) 64).1 with links := { (s.hostRead (a - a % 64) 64).1.links with
      dirtyLines := tset (s.hostRead (a - a % 64) 64).1.links.dirtyLines (lineOf a)
        ((s.hostRead (a - a % 64) 64).2.bytes.set (a % 64) b) } } :=
  if_neg (by simp [h])

/-! ### Accesses that reach a register, and those that do not -/

section Register
variable {a : Nat} {p : Page} {off : Nat} (hp : target a = .reg p off)
include hp

theorem regAccessFault_length (width : Nat) (h : width ≠ 8 ∨ a % 8 ≠ 0 ∨ isPort p off = true) : regAccessFault a width = some .length := by
  simp only [regAccessFault, hp]
  exact if_pos h

theorem regAccessFault_auth (ha : a % 8 = 0) (hport : isPort p off = false) (h : regFields p off = none) :
    regAccessFault a 8 = some .auth := by
  simp [regAccessFault, hp, ha, hport, h]

theorem regAccessFault_register (ha : a % 8 = 0) (hport : isPort p off = false) (h : (regFields p off).isSome = true) :
    regAccessFault a 8 = none := by
  obtain ⟨fs, hfs⟩ := Option.isSome_iff_exists.mp h
  simp [regAccessFault, hp, ha, hport, hfs]

theorem State.refuseAt_register (s : State) (m : Nat) (c : Code) : s.refuseAt m a c = s.logAccess p c a m := by
  simp only [State.refuseAt, hp]

theorem State.refuseAt_logged (s : State) (m : Nat) (c : Code) : LoggedIn s (s.refuseAt m a c) p c := by
  rw [State.refuseAt_register hp]
  exact s.logError_logged p c _ _ _ _ (base_ne_lost p (base_aligned p))

theorem State.busWrite_register (s : State) (m : Nat) (v : Word) (ha : a % 8 = 0) (hport : isPort p off = false)
    (h : (regFields p off).isSome = true) (hok : (s.writeReg p off v).2 = 0) : s.busWrite m a 8 v = s.writeReg p off v := by
  simp only [State.busWrite, regAccessFault_register hp ha hport h, hp]
  exact if_pos hok

theorem State.busRead_register (s : State) (m : Nat) (fs : List Field) (ha : a % 8 = 0) (hport : isPort p off = false)
    (h : regFields p off = some fs) : s.busRead m a 8 = ((s.readReg p off fs).1, 0, (s.readReg p off fs).2) := by
  simp only [State.busRead, regAccessFault_register hp ha hport (by simp [h]), hp, h, Option.getD_some]

end Register

theorem State.busWrite_fault (s : State) (m a width : Nat) (v : Word) (c : Code) (h : regAccessFault a width = some c) :
    s.busWrite m a width v = (s.refuseAt m a c, c.num) := by
  simp only [State.busWrite, h]

theorem State.busRead_fault (s : State) (m a width : Nat) (c : Code) (h : regAccessFault a width = some c) :
    s.busRead m a width = (s.refuseAt m a c, c.num, 0) := by
  simp only [State.busRead, h]

/-- A log beside a change of the links. -/
theorem LoggedIn.with_links {s t : State} {p : Page} {c : Code} (h : LoggedIn s t p c) (x : Links) :
    LoggedIn { s with links := x } { t with links := x } p c := by
  obtain ⟨hframe, hregs, hrecord⟩ := h
  refine ⟨?_, hregs, hrecord⟩
  rw [hframe]

theorem LoggedIn.links {s t : State} {p : Page} {c : Code} (h : LoggedIn s t p c) : t.links = s.links := by rw [h.1]

theorem LoggedIn.clock {s t : State} {p : Page} {c : Code} (h : LoggedIn s t p c) : t.clock = s.clock := by rw [h.1]

/-- A refused write of the steward leaves its response and one more entry of the page's error record. -/
theorem exec_registerWrite_refused (s : State) (phys width a : Nat) (v : Word) (p : Page) (off : Nat) (c : Code) (hs : s.answers = true)
    (h : s.stewardTarget phys = .engine a) (hp : target a = .reg p off) (hf : regAccessFault a width = some c) :
    ∃ t, exec (.registerWrite phys width v) s = .next t ∧ t.links = { s.links with response := some (s.moduleOf a, c.num) } ∧
      LoggedIn { s with links := t.links } t p c := by
  have hlog := State.refuseAt_logged hp s (s.moduleOf a) c
  refine ⟨_, exec_registerWrite_engine s phys width a v hs h, ?_, ?_⟩
  · rw [s.busWrite_fault _ a width v c hf, State.responded, hlog.links]
  · rw [s.busWrite_fault _ a width v c hf]
    exact hlog.with_links _

/-! ### KVMAP's writable register -/

theorem target_kvmap : ∀ h < 4, target ((Page.kvmap h).base + 0x108) = .reg (.kvmap h) 0x108 := by decide +kernel

def kvmapFields : List Field := [⟨0, 24, .rw, 0x4000⟩]

theorem regFields_kvmap (h : Nat) : regFields (.kvmap h) 0x108 = some kvmapFields := rfl

theorem State.writeReg_kvmap (s : State) (h : Nat) (v : Word) : s.writeReg (.kvmap h) 0x108 v = s.storeReg (.kvmap h) 0x108 v := rfl

theorem kvmap_aligned : ∀ h < 4, ((Page.kvmap h).base + 0x108) % 8 = 0 := by decide

/-! ### Answers -/

/-- The answer to a request comes with the time of the state that the request left. -/
theorem answered_of_links {s t : State} {u : UnitHead} {a : Answer} (hl : t.links.outstanding = s.links.outstanding) (hc : t.clock = s.clock) :
    Answered s (t.answer (s.moduleOf u.addr) u.tag a) u a := by
  simp only [Answered, State.answer, hl, State.hubTime, hc]

theorem State.readReg_eq (s : State) (p : Page) (off : Nat) (fs : List Field) :
    (s.readReg p off fs).2 = s.regView p off fs ∧ (s.readReg p off fs).1 = { s with stew := (s.readReg p off fs).1.stew } ∧
      (p ≠ .stew → (s.readReg p off fs).1 = s) := by
  unfold State.readReg
  dsimp only
  split
  next h => exact ⟨rfl, rfl, fun hne => absurd h.1 hne⟩
  next => exact ⟨rfl, rfl, fun _ => rfl⟩

theorem exec_rd8_answered (s : State) (u : UnitHead) (hs : s.answers = true) (hc : 0 < (s.umod (s.moduleOf u.addr)).npCredits)
    (ht : u.tag ≤ 255) (hr : u.reservedSet = false) {r : State × Nat × Word}
    (h : (s.lessCredit (s.moduleOf u.addr)).busRead (s.moduleOf u.addr) u.addr 8 = r) :
    exec (.rd8 u) s = .next (r.1.answer (s.moduleOf u.addr) u.tag { status := r.2.1, data := leBytes 8 r.2.2.toNat }) := by
  subst h
  change execRd8 u s = _
  rw [execRd8, s.request_answered _ u _ hs hc ht hr]

theorem exec_wr8_answered (s : State) (u : UnitHead) (hs : s.answers = true) (hc : 0 < (s.umod (s.moduleOf u.addr)).npCredits)
    (ht : u.tag ≤ 255) (hr : u.reservedSet = false) {r : Written}
    (h : (s.lessCredit (s.moduleOf u.addr)).busWrite (s.moduleOf u.addr) u.addr 8 u.inline = r) :
    exec (.wr8 u) s = .next (r.1.answer (s.moduleOf u.addr) u.tag { status := r.2 }) := by
  subst h
  change execWr8 u s = _
  rw [execWr8, s.request_answered _ u _ hs hc ht hr]

/-- Settles O32: the access checks give the code, and past them the access is the register's own write or view. -/
theorem registerUnitsAnswer : Obligations.RegisterUnitsAnswer := by
  intro s u v width phys p off hs
  refine ⟨fun hp a ha => s.stewardTarget_engine hp a ha, exec_registerWrite_nowhere s phys width v hs, fun a ha hpoison => ?byte,
    fun hp => ⟨fun heng => ⟨fun ha hport hreg hok => ?register, fun h hlt haddr => ?kvmap, fun h => ?length, fun ha hport hreg => ?auth⟩,
      fun hc ht hr => ⟨fun fs ha hport hreg => ⟨?rd8, fun r hrun hok => ?wr8⟩, fun ha hport hreg => ⟨?rd8Auth, ?wr8Auth⟩⟩⟩⟩
  case byte =>
    refine ⟨_, exec_registerWrite_byte s phys a v hs ha, ?_, fun l hl => ?_, ?_⟩
    · rw [s.coreStore_sound a _ hpoison]
      exact (tfind_tset _ _ _ _).trans (if_pos rfl)
    · rw [s.coreStore_sound a _ hpoison, ← s.hostRead_links (a - a % 64) 64]
      exact (tfind_tset _ _ _ _).trans (if_neg hl)
    · rw [s.coreStore_sound a _ hpoison]
      exact s.hostRead_hbm_mem _ _
  case register =>
    rw [exec_registerWrite_engine s phys 8 u.addr v hs heng, State.busWrite_register hp s _ v ha hport hreg hok, hok]
    rfl
  case kvmap =>
    have htarget := target_kvmap h hlt
    rw [← haddr, hp] at htarget
    obtain ⟨rfl, rfl⟩ := Target.reg.inj htarget
    obtain ⟨honly, hreg⟩ := s.storeReg_only (.kvmap h) 0x108 v _ (regFields_kvmap h)
    have hwrite := State.busWrite_register hp s (s.moduleOf u.addr) v (haddr ▸ kvmap_aligned h hlt) rfl rfl rfl
    rw [State.writeReg_kvmap] at hwrite
    refine ⟨_, exec_registerWrite_engine s phys 8 u.addr v hs heng, ⟨?_, fun a hne => ?_⟩, ?_⟩
    · rw [hwrite, honly.1]
      rfl
    · rw [hwrite]
      exact honly.2 a (haddr ▸ hne)
    · rw [hwrite]
      refine Eq.trans ?_ (fieldsWrite_rw [] [] (s.reg (.kvmap h) 0x108) v ⟨0, 24, .rw, 0x4000⟩ rfl (by decide) (by simp))
      rw [haddr]
      exact congrArg (Word.field · 0 24) hreg
  case length =>
    exact exec_registerWrite_refused s phys width u.addr v p off .length hs heng hp (regAccessFault_length hp width h)
  case auth =>
    exact exec_registerWrite_refused s phys 8 u.addr v p off .auth hs heng hp (regAccessFault_auth hp ha hport hreg)
  case rd8 =>
    obtain ⟨hview, hframe, hstew⟩ := (s.lessCredit (s.moduleOf u.addr)).readReg_eq p off fs
    refine ⟨_, exec_rd8_answered s u hs hc ht hr (State.busRead_register hp _ _ fs ha hport hreg), ?_, ?_, ?_, fun hne => ?_⟩
    · rw [hframe]
      rfl
    · rw [hview, hframe]
      rfl
    · rw [hframe]
      rfl
    · rw [hstew hne]
      rfl
  case wr8 =>
    subst hrun
    refine ⟨_, exec_wr8_answered s u hs hc ht hr (State.busWrite_register hp _ _ u.inline ha hport (by simp [hreg]) hok), rfl, ?_⟩
    rw [hok]
    rfl
  case rd8Auth =>
    have hlog := State.refuseAt_logged hp (s.lessCredit (s.moduleOf u.addr)) (s.moduleOf u.addr) .auth
    exact ⟨_, exec_rd8_answered s u hs hc ht hr (State.busRead_fault _ _ _ _ _ (regAccessFault_auth hp ha hport hreg)),
      answered_of_links (s := s) (by rw [hlog.links]; rfl) hlog.clock⟩
  case wr8Auth =>
    have hlog := State.refuseAt_logged hp (s.lessCredit (s.moduleOf u.addr)) (s.moduleOf u.addr) .auth
    exact ⟨_, exec_wr8_answered s u hs hc ht hr (State.busWrite_fault _ _ _ _ _ _ (regAccessFault_auth hp ha hport hreg)),
      answered_of_links (s := s) (by rw [hlog.links]; rfl) hlog.clock⟩

end Sys2Proof.Machine
end

section
/-!
The 64-byte units of a steward module: WR64, PW64 and RD64 at a line of an open region (R45, R414, R417, R421, R456, R461).
-/
namespace Sys2Proof.Machine

/-! ### The line of an address -/

/-- An address of a stack's aperture names a byte within the stack, at the same place of its 64-byte line. -/
theorem target_aperture {a k b : Nat} (h : target a = .aperture k b) : b < Config.stackBytes ∧ a % 64 = b % 64 := by
  unfold target at h
  split at h
  · split at h <;> contradiction
  split at h
  · contradiction
  split at h
  · contradiction
  split at h
  · contradiction
  split at h
  · dsimp only at h
    split at h <;> contradiction
  split at h
  · contradiction
  split at h
  · obtain ⟨-, rfl⟩ := Target.aperture.inj h
    exact ⟨Nat.mod_lt _ (by decide), by omega⟩
  · contradiction

/-- The line at byte `b` of stack `k`: its stack, its address and its page. -/
theorem line_at (k b : Nat) (hb : b < Config.stackBytes) (ha : b % 64 = 0) :
    (k * Config.stackBytes + b) / 64 / 2147483648 = k ∧ 64 * ((k * Config.stackBytes + b) / 64) = k * Config.stackBytes + b := by
  simp only [Config.stackBytes] at *
  omega

section Line
variable {s : State} {u : UnitHead} {k b : Nat} (hp : target u.addr = .aperture k b)
include hp

theorem lineOf_aperture : lineOf u.addr = (k * Config.stackBytes + b) / 64 := by
  simp only [lineOf, hp]

theorem State.lineFault_open (t : State) (hb : b % 64 = 0) (hok : t.apertureOk k b = true) : t.lineFault u.addr = none := by
  simp only [State.lineFault, hp]
  rw [if_neg (by have := (target_aperture hp).2; omega), if_pos hok]

end Line

/-! ### A steward's write of a line -/

/-- The state without the steward's own copy of line `l`. -/
def State.uncached (s : State) (l : Nat) : State := { s with links := { s.links with dirtyLines := tdrop s.links.dirtyLines l } }

/-- The state once the steward has written line `l`. -/
def State.lineStored (s : State) (l : Nat) (data : List (BitVec 8)) (poison : Bool) : State :=
  { s with
    hbm := { s.hbm with
      mem := Memory.setBytes s.hbm.mem (64 * l) data
      lines := tput (fun _ => {}) s.hbm.lines l (s.writtenCode keyPlatform poison) }
    links := { s.links with dirtyLines := tdrop s.links.dirtyLines l } }

theorem State.stewardWrite_open (s : State) (l : Nat) (data : List (BitVec 8)) (poison : Bool) (hlen : data.length = 64)
    (hout : (s.stack (l / 2147483648)).out = false) (hclean : s.unclean (pageOf (64 * l)) = false) :
    s.stewardWrite l data poison = s.lineStored l data poison := by
  have htake : ((data ++ zeroLine).take 64).take 64 = data := by
    rw [List.take_take, Nat.min_self, ← hlen, List.take_left]
  have hwrite := (s.uncached l).writeLine_open l keyPlatform ((data ++ zeroLine).take 64) poison hout hclean
  rw [htake] at hwrite
  exact hwrite

theorem State.lineStored_written (s : State) (a : Nat) (data : List (BitVec 8)) (poison : Bool) (hlen : data.length = 64)
    (ha : 64 * (a / 64) = a) : LineWritten s (s.lineStored (a / 64) data poison) a keyPlatform data poison := by
  have hmem : (s.lineStored (a / 64) data poison).hbm.mem = Memory.setBytes s.hbm.mem a data := by rw [State.lineStored, ha]
  refine ⟨fun i hi => ?_, fun x hx => ?_, tget_tput_self .., fun l hl => tget_tput_ne _ _ _ hl⟩
  · have hin : i < data.length := by omega
    rw [hmem, Memory.get_setBytes_in _ _ _ _ hin, List.getElem?_eq_getElem hin]
    rfl
  · rw [hmem]
    exact Memory.get_setBytes_out _ _ _ _ (by omega)

/-! ### The units -/

theorem exec_wr64_open (s : State) (u : UnitHead) (data : List (BitVec 8)) (hs : s.answers = true)
    (hc : 0 < (s.umod (s.moduleOf u.addr)).npCredits) (ht : u.tag ≤ 255) (hr : u.reservedSet = false) (hf : s.lineFault u.addr = none) :
    exec (.wr64 u data) s = .next (((s.lessCredit (s.moduleOf u.addr)).stewardWrite (lineOf u.addr) data u.poison).answer
      (s.moduleOf u.addr) u.tag {}) := by
  have hf' : (s.lessCredit (s.moduleOf u.addr)).lineFault u.addr = none := hf
  change execWr64 u data s = _
  rw [execWr64, s.request_answered _ u _ hs hc ht hr]
  simp only [hf']

theorem exec_rd64_open (s : State) (u : UnitHead) (hs : s.answers = true) (hc : 0 < (s.umod (s.moduleOf u.addr)).npCredits)
    (ht : u.tag ≤ 255) (hr : u.reservedSet = false) (hf : s.lineFault u.addr = none) {r : State × LineData}
    (h : (s.lessCredit (s.moduleOf u.addr)).readLine (lineOf u.addr) keyPlatform = r) :
    exec (.rd64 u) s = .next (r.1.answer (s.moduleOf u.addr) u.tag
      { status := if r.2.poison then Code.poison.num else 0, data := r.2.bytes, poison := r.2.poison }) := by
  have hf' : (s.lessCredit (s.moduleOf u.addr)).lineFault u.addr = none := hf
  change execRd64 u s = _
  rw [execRd64, s.request_answered _ u _ hs hc ht hr]
  simp only [hf', h]

/-- The state with one posted credit of module `m` taken (R415). -/
def State.lessPosted (s : State) (m : Nat) : State := s.modUmod m fun y => { y with pCredits := y.pCredits - 1 }

theorem State.takeCredit_posted (s : State) (m a : Nat) (h : 0 < (s.umod m).pCredits) : s.takeCredit m a true = (s.lessPosted m, true) :=
  if_neg (by simp; omega)

theorem exec_pw64_open (s : State) (u : UnitHead) (data : List (BitVec 8)) (k b : Nat) (hs : s.answers = true)
    (hc : 0 < (s.umod (s.moduleOf u.addr)).pCredits) (ht : u.tag ≤ 255) (hr : u.reservedSet = false) (hp : target u.addr = .aperture k b)
    (hf : s.lineFault u.addr = none) :
    exec (.pw64 u data) s = .next ((s.lessPosted (s.moduleOf u.addr)).stewardWrite (lineOf u.addr) data u.poison) := by
  have hf' : (s.lessPosted (s.moduleOf u.addr)).lineFault u.addr = none := hf
  have hport : State.toPort u.addr = false := by simp only [State.toPort, hp]
  change execPw64 u data s = _
  rw [execPw64]
  dsimp only
  rw [if_neg (by simp [hport]), State.access_answers _ _ _ hs, s.takeCredit_posted _ _ hc]
  dsimp only
  rw [if_neg (by simp [hr]; omega), State.post]
  simp only [hp, hf']

/-! ### Reads of a sound line -/

section Read
variable (s : State) (l : Nat) (hout : (s.stack (l / 2147483648)).out = false) (hclean : s.unclean (pageOf (64 * l)) = false)
  (hf : (s.lineCode l).flips = 0)
include hout hclean hf

theorem State.readLine_blank (key : Nat) (hm : (s.lineCode l).marker = .blank) : s.readLine l key = (s, ⟨zeroLine, false⟩) := by
  have he := LineCode.errors_of_no_flips hf
  have hd : (s.lineCode l).decode s.fresh = .blank := by simp [LineCode.decode, he, hm]
  simp [State.readLine, hout, hclean, hd, he]

theorem State.readLine_poisoned (key : Nat) (hm : (s.lineCode l).marker = .poison) :
    s.readLine l key = (s.bump (.stack (l / 2147483648)) 0x148 1, ⟨s.decrypted l key, true⟩) := by
  have he := LineCode.errors_of_no_flips hf
  have hd : (s.lineCode l).decode s.fresh = .poisoned := by simp [LineCode.decode, he, hm]
  simp [State.readLine, hout, hclean, hd, he]

end Read

theorem State.decrypted_own (s : State) (l key : Nat) (hk : (s.lineCode l).key = key) (hv : (s.lineCode l).version = s.keyVersion key) :
    s.decrypted l key = Memory.getBytes s.hbm.mem (64 * l) 64 :=
  if_pos ⟨hk, hv⟩

/-- Settles O33: each unit comes to one line write or one line read, behind the credit it takes. -/
theorem lineUnitsReadAndWriteLines : Obligations.LineUnitsReadAndWriteLines := by
  intro s u data k b hs hp hb hok hout hclean hlen ht hr
  obtain ⟨hstack, haddr⟩ := line_at k b (target_aperture hp).1 hb
  have hf : s.lineFault u.addr = none := State.lineFault_open hp s hb hok
  have hl := lineOf_aperture hp
  have hpage : pageOf (k * Config.stackBytes + b) = (k * Config.stackBytes + b) / 65536 := rfl
  have hout' : (s.stack ((k * Config.stackBytes + b) / 64 / 2147483648)).out = false := by rwa [hstack]
  have hclean' : s.unclean (pageOf (64 * ((k * Config.stackBytes + b) / 64))) = false := by rwa [haddr, hpage]
  refine ⟨fun hc => ?wr, fun hc => ?pw, fun hc c hcode hflips hkey hversion => ?rd⟩
  case wr =>
    have hw := (s.lessCredit (s.moduleOf u.addr)).stewardWrite_open _ data u.poison hlen hout' hclean'
    have hexec := exec_wr64_open s u data hs hc ht hr hf
    rw [hl, hw] at hexec
    exact ⟨_, hexec, rfl, s.lineStored_written _ data u.poison hlen haddr, rfl⟩
  case pw =>
    have hw := (s.lessPosted (s.moduleOf u.addr)).stewardWrite_open _ data u.poison hlen hout' hclean'
    have hexec := exec_pw64_open s u data k b hs hc ht hr hp hf
    rw [hl, hw] at hexec
    exact ⟨_, hexec, s.lineStored_written _ data u.poison hlen haddr, rfl⟩
  case rd =>
    subst hcode
    have hexec {r : State × LineData} := exec_rd64_open s u hs hc ht hr hf (r := r)
    rw [hl] at hexec
    have hown := State.decrypted_own (s.lessCredit (s.moduleOf u.addr)) _ _ hkey hversion
    rw [haddr] at hown
    refine ⟨fun hm => ?_, fun hm => ?_, fun hm => ?_⟩
    · have hread := State.readLine_sound (s.lessCredit (s.moduleOf u.addr)) _ keyPlatform hout' hclean' hflips hm hkey hversion
      rw [haddr] at hread
      exact ⟨_, hexec hread, rfl, rfl⟩
    · exact ⟨_, hexec (State.readLine_blank (s.lessCredit (s.moduleOf u.addr)) _ hout' hclean' hflips _ hm), rfl, rfl⟩
    · have hread := State.readLine_poisoned (s.lessCredit (s.moduleOf u.addr)) _ hout' hclean' hflips keyPlatform hm
      rw [hown, hstack] at hread
      exact ⟨_, hexec hread, answered_of_links (s := s) rfl rfl, State.reg_setReg_self _ _ _ _⟩

end Sys2Proof.Machine
end

section
/-!
Completions, their timeout, and credits (R415 to R417).
-/
namespace Sys2Proof.Machine

/-! ### Completions -/

/-- The state with a list of outstanding requests. -/
def State.awaiting (s : State) (l : List Outstanding) : State := { s with links := { s.links with outstanding := l } }

/-- The state with a completion delivered to its request. -/
def State.deliveredTo (s : State) (m tag : Nat) (a : Answer) (rest : List Outstanding) : State :=
  { s with links := { s.links with outstanding := rest, delivered := some { module := m, tag := tag, answer := a } } }

/-- The requests left by a completion that comes too late (R416). -/
def lateRest (o : Outstanding) (rest : List Outstanding) : List Outstanding :=
  if o.timedOut = true then rest else rest ++ [{ o with lost := true }]

/-- The state with a completion discarded and counted (R416). -/
def State.discarded (s : State) (m : Nat) (l : List Outstanding) : State := (s.awaiting l).bump (.ucie m) 0x108 1

section Complete
variable (s : State) (m tag : Nat) (a : Answer)

theorem State.complete_unknown (h : takeOutstanding s.links.outstanding m tag = none) : s.complete m tag a = s.bump (.ucie m) 0x108 1 := by
  simp only [State.complete, h]

variable {o : Outstanding} {rest : List Outstanding} (h : takeOutstanding s.links.outstanding m tag = some (o, rest))
include h

theorem State.complete_inTime (hout : o.timedOut = false) (ht : s.hubTime m ≤ o.sentAt + 50000) :
    s.complete m tag a = s.deliveredTo m tag a rest := by
  have hearly : ¬ o.sentAt + completionTime < s.hubTime m := by
    rw [completionTime]
    omega
  simp only [State.complete, h, hout, if_neg hearly]
  rfl

theorem State.complete_late (hlate : o.timedOut = true ∨ o.sentAt + 50000 < s.hubTime m) :
    s.complete m tag a = s.discarded m (lateRest o rest) := by
  by_cases hout : o.timedOut = true
  · simp only [State.complete, h, if_pos hout, lateRest]
    rfl
  · have hpast : o.sentAt + completionTime < s.hubTime m := hlate.resolve_left hout
    simp only [State.complete, h, if_neg hout, if_pos hpast, lateRest]
    rfl

end Complete

/-- Nothing awaits a response of a tag when every request of it is lost. -/
theorem takeOutstanding_none (l : List Outstanding) (m t : Nat) (h : ∀ o ∈ l, ¬(o.module = m ∧ o.tag = t ∧ o.lost = false)) :
    takeOutstanding l m t = none := by
  induction l with
  | nil => rfl
  | cons o l ih =>
    have hrest := ih fun x hx => h x (List.mem_cons_of_mem o hx)
    rw [takeOutstanding, if_neg (h o List.mem_cons_self), hrest]
    rfl

theorem State.bump_only (s : State) (p : Page) (off n : Nat) :
    OnlyRegs s (s.bump p off n) [p.base + off] ∧ (s.bump p off n).reg p off = satAdd (s.reg p off) n := by
  refine ⟨⟨rfl, fun a ha => ?_⟩, State.reg_setReg_self _ _ _ _⟩
  rw [State.regAt_bump, if_neg (by simpa using ha)]

theorem State.discarded_only (s : State) (m : Nat) (l : List Outstanding) :
    OnlyRegs { s with links := (s.discarded m l).links } (s.discarded m l) [(Page.ucie m).base + 0x108] ∧
      (s.discarded m l).reg (.ucie m) 0x108 = satAdd (s.reg (.ucie m) 0x108) 1 :=
  (s.awaiting l).bump_only (.ucie m) 0x108 1

theorem exec_rsp (s : State) (m : HubId) (u : UnitHead) :
    exec (.rsp m u) s = .next (s.complete m.val u.tag { status := u.status, data := leBytes 8 u.inline.toNat }) := rfl

theorem exec_rspd (s : State) (m : HubId) (u : UnitHead) (data : List (BitVec 8)) :
    exec (.rspd m u data) s = .next (s.complete m.val u.tag { status := u.status, data := data, poison := u.poison }) := rfl

/-! ### The timeout -/

/-- The state with one request of a tag completed with TIMEOUT (R416). -/
def State.timedOutOne (s : State) (m tag : Nat) : State :=
  { s with links := { s.links with
    outstanding := timeOutFirst s.links.outstanding m tag (s.hubTime m)
    delivered := some { module := m, tag := tag, answer := { status := Code.timeout.num } } } }

theorem Outstanding.expires_iff (o : Outstanding) (m t now : Nat) :
    o.expires m t now = true ↔ o.module = m ∧ o.tag = t ∧ o.timedOut = false ∧ o.sentAt + 50000 ≤ now := by
  have hage : (decide (o.sentAt + completionTime ≤ now)) = true ↔ o.sentAt + 50000 ≤ now := decide_eq_true_iff
  simp only [Outstanding.expires, Bool.and_eq_true, hage, and_assoc, beq_iff_eq, Bool.not_eq_eq_eq_not, Bool.not_true]

theorem exec_completionTimeout_due (s : State) (m : HubId) (tag : Nat) (hph : s.pkg.phase ≠ .warmReset)
    (h : ∃ o ∈ s.links.outstanding, o.expires m.val tag (s.hubTime m.val) = true) :
    exec (.completionTimeout m tag) s = .next (s.timedOutOne m.val tag) := by
  change execCompletionTimeout m tag s = _
  rw [execCompletionTimeout]
  dsimp only
  rw [if_neg hph, if_pos (List.any_eq_true.mpr h)]
  rfl

theorem exec_completionTimeout_early (s : State) (m : HubId) (tag : Nat)
    (h : s.pkg.phase = .warmReset ∨ ∀ o ∈ s.links.outstanding, o.expires m.val tag (s.hubTime m.val) = false) :
    exec (.completionTimeout m tag) s = .next s := by
  change execCompletionTimeout m tag s = _
  rw [execCompletionTimeout]
  dsimp only
  by_cases hph : s.pkg.phase = .warmReset
  · rw [if_pos hph]
  · rw [if_neg hph, if_neg]
    rw [List.any_eq_true]
    rintro ⟨o, ho, he⟩
    simp [h.resolve_left hph o ho] at he

section TimeOut
variable (l : List Outstanding) (m t now : Nat) (h : ∃ o ∈ l, o.expires m t now = true)
include h

/-- Where every response is still to come, the request waits on, marked as timed out. -/
theorem timeOutFirst_marks (hlost : ∀ o ∈ l, o.lost = false) :
    (timeOutFirst l m t now).length = l.length ∧
      ((timeOutFirst l m t now).filter (·.timedOut)).length = (l.filter (·.timedOut)).length + 1 := by
  induction l with
  | nil => simp at h
  | cons o l ih =>
    rw [timeOutFirst]
    by_cases he : o.expires m t now = true
    · have hout : o.timedOut = false := ((o.expires_iff m t now).mp he).2.2.1
      rw [if_pos he, if_neg (by simp [hlost o])]
      simp [hout]
    · obtain ⟨hlen, hcount⟩ := ih (by simpa [he] using h) fun x hx => hlost x (List.mem_cons_of_mem o hx)
      rw [if_neg he]
      refine ⟨by simp [hlen], ?_⟩
      rw [List.filter_cons, List.filter_cons]
      split <;> simp [hcount]

/-- Where every response is lost, the request is forgotten. -/
theorem timeOutFirst_forgets (hlost : ∀ o ∈ l, o.lost = true) : (timeOutFirst l m t now).length + 1 = l.length := by
  induction l with
  | nil => simp at h
  | cons o l ih =>
    rw [timeOutFirst]
    by_cases he : o.expires m t now = true
    · rw [if_pos he, if_pos (hlost o List.mem_cons_self)]
      rfl
    · rw [if_neg he, List.length_cons, List.length_cons,
        ih (by simpa [he] using h) fun x hx => hlost x (List.mem_cons_of_mem o hx)]

end TimeOut

/-- Settles O34: a completion is taken, discarded or unknown, a timeout marks or forgets one request, and credits are capped. -/
theorem completionsAndCredits : Obligations.CompletionsAndCredits := by
  refine ⟨fun s m u data => ⟨fun o rest h => ⟨fun hout ht => ?inTime, fun hlate => ?late⟩, fun h => ?unknown⟩,
    fun s m tag => ⟨fun hph h => ?due, fun h => ?early⟩, fun s e np p => ⟨?hub, ?far⟩⟩
  case inTime =>
    rw [exec_rsp, exec_rspd, s.complete_inTime _ _ _ h hout ht, s.complete_inTime _ _ _ h hout ht]
    exact ⟨rfl, rfl⟩
  case late =>
    obtain ⟨honly, hcount⟩ := s.discarded_only m.val (lateRest o rest)
    refine ⟨s.discarded m.val (lateRest o rest), ?_, ?_, rfl, rfl, hcount, honly⟩
    · rw [exec_rsp, s.complete_late _ _ _ h hlate]
    · rw [exec_rspd, s.complete_late _ _ _ h hlate]
  case unknown =>
    have hnone := takeOutstanding_none _ _ _ h
    refine ⟨s.bump (.ucie m.val) 0x108 1, ?_, ?_, s.bump_only _ _ _⟩
    · rw [exec_rsp, s.complete_unknown _ _ _ hnone]
    · rw [exec_rspd, s.complete_unknown _ _ _ hnone]
  case due =>
    have hex : ∃ o ∈ s.links.outstanding, o.expires m.val tag (s.hubTime m.val) = true := by simpa only [Outstanding.expires_iff] using h
    exact ⟨s.timedOutOne m.val tag, exec_completionTimeout_due s m tag hph hex, rfl,
      timeOutFirst_marks _ _ _ _ hex, timeOutFirst_forgets _ _ _ _ hex, rfl⟩
  case early =>
    refine exec_completionTimeout_early s m tag (h.imp_right fun hall o ho => Bool.eq_false_iff.mpr fun he => ?_)
    obtain ⟨hm, ht, hout, hold⟩ := (o.expires_iff _ _ _).mp he
    exact absurd (hall o ho hm ht hout) (not_lt.mpr hold)
  case hub =>
    exact ⟨_, rfl, (s.umod_modUmod _ _ _).trans (if_pos rfl), fun k hk => (s.umod_modUmod _ _ _).trans (if_neg hk), rfl⟩
  case far =>
    exact ⟨_, rfl, (s.umod_modUmod _ _ _).trans (if_pos rfl), fun k hk => (s.umod_modUmod _ _ _).trans (if_neg hk), rfl⟩

end Sys2Proof.Machine
end

section
/-!
Rows and column lines of the granary read back what is written to them (R188 to R191, R208).
-/
namespace Sys2Proof.Machine

/-! ### Bytes of the granary -/

/-- Bytes written one after another at the granary addresses that `f` gives their places. -/
def Die.setGrans (x : Die) (f : Nat → Nat) (l : List (BitVec 8 × Nat)) : Die := l.foldl (fun (y : Die) e => y.setGran (f e.2) e.1) x

theorem Die.setGrans_frame (x : Die) (f : Nat → Nat) (l : List (BitVec 8 × Nat)) :
    x.setGrans f l = { x with granary := (x.setGrans f l).granary, granBad := (x.setGrans f l).granBad } := by
  induction l generalizing x with
  | nil => rfl
  | cons e l ih =>
    change (x.setGran (f e.2) e.1).setGrans f l = _
    rw [ih]
    rfl

theorem Die.granByte_setGran (x : Die) (a c : Nat) (b : BitVec 8) :
    (x.setGran a b).granByte c = if x.granAt c = x.granAt a then b else x.granByte c :=
  Memory.get_set _ _ _ _

/-- Bytes that lie elsewhere are kept. -/
theorem Die.granByte_setGrans_out (x : Die) (f : Nat → Nat) (bs : List (BitVec 8)) (k c : Nat)
    (h : ∀ i, i < bs.length → x.granAt c ≠ x.granAt (f (k + i))) : (x.setGrans f (bs.zipIdx k)).granByte c = x.granByte c := by
  induction bs generalizing x k with
  | nil => rfl
  | cons b bs ih =>
    have hrest (i : Nat) (hi : i < bs.length) : x.granAt c ≠ x.granAt (f (k + 1 + i)) := by
      have hne := h (i + 1) (by simpa using hi)
      rwa [show k + (i + 1) = k + 1 + i by omega] at hne
    have hhead := h 0 (by simp)
    exact (ih (x.setGran (f k) b) (k + 1) hrest).trans ((x.granByte_setGran _ _ _).trans (if_neg hhead))

/-- A byte reads back as written when no two of the places share one. -/
theorem Die.granByte_setGrans (x : Die) (f : Nat → Nat) (bs : List (BitVec 8)) (k : Nat)
    (hinj : ∀ i j, i < bs.length → j < bs.length → x.granAt (f (k + i)) = x.granAt (f (k + j)) → i = j) (i : Nat) (hi : i < bs.length) :
    (x.setGrans f (bs.zipIdx k)).granByte (f (k + i)) = bs[i] := by
  induction bs generalizing x k i with
  | nil => simp at hi
  | cons b bs ih =>
    have hshift (j : Nat) : k + 1 + j = k + (j + 1) := by omega
    have hcons : x.setGrans f ((b :: bs).zipIdx k) = (x.setGran (f k) b).setGrans f (bs.zipIdx (k + 1)) := rfl
    rw [hcons]
    cases i with
    | zero =>
      rw [Die.granByte_setGrans_out, Nat.add_zero, Die.granByte_setGran, if_pos rfl]
      · rfl
      · intro j hj he
        rw [hshift] at he
        have := hinj 0 (j + 1) hi (by simpa using hj) he
        omega
    | succ i =>
      have hlt : i < bs.length := by simpa using hi
      have := ih (x.setGran (f k) b) (k + 1) (fun m j hm hj he => by
        rw [hshift, hshift] at he
        have := hinj (m + 1) (j + 1) (by simpa using hm) (by simpa using hj) he
        omega) i hlt
      rw [hshift] at this
      exact this

/-! ### Rows and columns of a slice -/

theorem Die.granAt_at (x : Die) (k a i : Nat) (ha : a < 2048) (hi : i < 512) :
    x.granAt (2 ^ 20 * k + 512 * a + i) = 512 * x.granRow k a + i := by
  have hslice : (2 ^ 20 * k + 512 * a + i) / 2 ^ 20 = k := by omega
  have hrow : (2 ^ 20 * k + 512 * a + i) / 512 % 2048 = a := by omega
  have hoff : (2 ^ 20 * k + 512 * a + i) % 512 = i := by omega
  rw [Die.granAt, hslice, hrow, hoff]

theorem Die.granRows_le (x : Die) : x.granRows ≤ 2048 := by
  unfold Die.granRows
  split <;> omega

/-- The spare that holds a row of a slice in map mode (R208). -/
def Die.granSpare (x : Die) (slice row : Nat) : Option Nat :=
  (List.range 64).reverse.find? fun e =>
    tfind x.granMap (64 * slice + e) == some row && !decide (64 * slice + e ∈ x.granMapPending)

theorem Die.granRow_plain (x : Die) (slice row : Nat) (h : x.mapMode = false ∨ x.granMap = []) :
    x.granRow slice row = 2048 * slice + row :=
  if_pos h

theorem Die.granRow_mapped (x : Die) (slice row : Nat) (h : ¬(x.mapMode = false ∨ x.granMap = [])) :
    x.granRow slice row = 2048 * slice + (x.granSpare slice row).elim row (1984 + ·) := by
  rw [Die.granRow, if_neg h, Die.granSpare]
  split
  next e he => rw [he, Option.elim_some, Nat.add_assoc]
  next he => rw [he, Option.elim_none]

theorem Die.granSpare_holds {x : Die} {slice row e : Nat} (h : x.granSpare slice row = some e) :
    tfind x.granMap (64 * slice + e) = some row := by
  have := List.find?_some h
  simp only [Bool.and_eq_true, beq_iff_eq] at this
  exact this.1

/-- No two usable rows of a slice are held in one. -/
theorem Die.granRow_inj (x : Die) (k a c : Nat) (ha : a < x.granRows) (hc : c < x.granRows) (h : x.granRow k a = x.granRow k c) : a = c := by
  by_cases hp : x.mapMode = false ∨ x.granMap = []
  · rw [x.granRow_plain k a hp, x.granRow_plain k c hp] at h
    omega
  · have hmode : x.mapMode = true := by
      rw [not_or] at hp
      simpa using hp.1
    have hrows : x.granRows = 1984 := if_pos hmode
    rw [x.granRow_mapped k a hp, x.granRow_mapped k c hp] at h
    rw [hrows] at ha hc
    have h' := Nat.add_left_cancel h
    rcases hsa : x.granSpare k a with _ | e <;> rcases hsc : x.granSpare k c with _ | e' <;>
      simp only [hsa, hsc, Option.elim_some, Option.elim_none] at h'
    · exact h'
    · omega
    · omega
    · have heq : e = e' := by omega
      have hfa := Die.granSpare_holds hsa
      rw [heq, Die.granSpare_holds hsc] at hfa
      exact (Option.some.inj hfa).symm

theorem elementIn_bankOf (a e : Nat) (he : e < 16) : elementIn a (bankOf a e) = e := by
  unfold elementIn bankOf
  omega

/-- Runs of `n` places one after another are all places. -/
theorem flatMap_range_runs (m n : Nat) (f : Nat → BitVec 8) :
    ((List.range m).flatMap fun e => (List.range n).map fun i => f (n * e + i)) = (List.range (n * m)).map f := by
  induction m with
  | zero => rfl
  | succ m ih => rw [List.range_succ, List.flatMap_append, ih, Nat.mul_succ, List.range_add]; simp

/-- A row access gives the bytes of the row in their order (R190). -/
theorem Die.rowAccess_eq (x : Die) (k a : Nat) : x.rowAccess k a = (List.range 512).map fun i => x.granByte (2 ^ 20 * k + 512 * a + i) := by
  have hbank (e : Nat) (he : e ∈ List.range 16) :
      x.bankRead k a (bankOf a e) = (List.range 32).map fun i => x.granByte (2 ^ 20 * k + 512 * a + (32 * e + i)) := by
    rw [Die.bankRead, elementIn_bankOf a e (List.mem_range.mp he)]
    simp only [Nat.add_assoc]
  rw [Die.rowAccess, List.flatMap_congr hbank]
  exact flatMap_range_runs 16 32 fun i => x.granByte (2 ^ 20 * k + 512 * a + i)

/-- A column access gives the element of each row of the block (R190). -/
theorem Die.columnAccess_eq (x : Die) (k b e : Nat) (he : e < 16) :
    x.columnAccess k b e =
      (List.range 512).map fun i => x.granByte (2 ^ 20 * k + 512 * (16 * b + i / 32) + (32 * e + i % 32)) := by
  have hbank (j : Nat) (_ : j ∈ List.range 16) : x.bankRead k (16 * b + j) (bankOf (16 * b + j) e) =
      (List.range 32).map fun i => x.granByte (2 ^ 20 * k + 512 * (16 * b + (32 * j + i) / 32) + (32 * e + (32 * j + i) % 32)) := by
    rw [Die.bankRead, elementIn_bankOf _ e he]
    refine List.map_congr_left fun i hi => ?_
    have hlt := List.mem_range.mp hi
    congr 1
    omega
  rw [Die.columnAccess, List.flatMap_congr hbank]
  exact flatMap_range_runs 16 32 fun i => x.granByte (2 ^ 20 * k + 512 * (16 * b + i / 32) + (32 * e + i % 32))

theorem Die.writeRow_eq (x : Die) (k a : Nat) (bs : List (BitVec 8)) (hlen : bs.length = 512) :
    x.writeRow k a bs = x.setGrans (fun i => 2 ^ 20 * k + 512 * a + i) (bs.zipIdx 0) := by
  rw [Die.writeRow, List.take_of_length_le (by omega)]
  rfl

theorem Die.writeColumn_eq (x : Die) (k b e : Nat) (bs : List (BitVec 8)) (hlen : bs.length = 512) :
    x.writeColumn k b e bs = x.setGrans (fun i => 2 ^ 20 * k + 512 * (16 * b + i / 32) + (32 * e + i % 32)) (bs.zipIdx 0) := by
  rw [Die.writeColumn, List.take_of_length_le (by omega)]
  simp only [Die.setGrans, Nat.add_assoc]

theorem map_range_getElem (bs : List (BitVec 8)) (g : Nat → BitVec 8) (hlen : bs.length = 512) (h : ∀ i, (hi : i < bs.length) → g i = bs[i]) :
    (List.range 512).map g = bs := by
  refine List.ext_getElem (by simp [hlen]) fun i hi hj => ?_
  rw [List.getElem_map, List.getElem_range]
  exact h i hj

/-- A row reads back as written (R190). -/
theorem Die.rowAccess_writeRow (x : Die) (k a : Nat) (bs : List (BitVec 8)) (hlen : bs.length = 512) (ha : a < x.granRows) :
    (x.writeRow k a bs).rowAccess k a = bs := by
  have ha' : a < 2048 := ha.trans_le x.granRows_le
  rw [Die.rowAccess_eq, x.writeRow_eq k a bs hlen]
  refine map_range_getElem bs _ hlen fun i hi => ?_
  have := x.granByte_setGrans (fun i => 2 ^ 20 * k + 512 * a + i) bs 0 (fun m j hm hj he => by
    simp only [Nat.zero_add] at he
    rw [x.granAt_at k a m ha' (by omega), x.granAt_at k a j ha' (by omega)] at he
    omega) i hi
  simpa only [Nat.zero_add] using this

/-- A column line reads back as written (R190). -/
theorem Die.columnAccess_writeColumn (x : Die) (k b e : Nat) (bs : List (BitVec 8)) (hlen : bs.length = 512) (he : e < 16)
    (hrows : ∀ i < 16, 16 * b + i < x.granRows) : (x.writeColumn k b e bs).columnAccess k b e = bs := by
  have hrow (i : Nat) (hi : i < 512) : 16 * b + i / 32 < x.granRows := hrows _ (by omega)
  have hat (i : Nat) (hi : i < 512) : x.granAt (2 ^ 20 * k + 512 * (16 * b + i / 32) + (32 * e + i % 32)) =
      512 * x.granRow k (16 * b + i / 32) + (32 * e + i % 32) :=
    x.granAt_at k _ _ ((hrow i hi).trans_le x.granRows_le) (by omega)
  rw [Die.columnAccess_eq _ k b e he, x.writeColumn_eq k b e bs hlen]
  refine map_range_getElem bs _ hlen fun i hi => ?_
  have := x.granByte_setGrans (fun i => 2 ^ 20 * k + 512 * (16 * b + i / 32) + (32 * e + i % 32)) bs 0 (fun m j hm hj heq => by
    simp only [Nat.zero_add] at heq
    rw [hat m (by omega), hat j (by omega)] at heq
    have hsame := x.granRow_inj k _ _ (hrow m (by omega)) (hrow j (by omega)) (by omega)
    omega) i hi
  simpa only [Nat.zero_add] using this

end Sys2Proof.Machine
end

section
/-!
Places of scheduled transfers (R181, R183), and snoops, step transfers and retrains (R156, R244, R407 to R410, R415, R418, R421).
-/
namespace Sys2Proof.Machine

/-! ### Places -/

theorem physColumn_le (j : Nat) (hj : j < 32) : physColumn j ≤ 33 := by
  unfold physColumn
  split <;> [skip; split] <;> omega

/-- A coordinate of a die is held by a croft of it (R227). -/
theorem State.croftDie_physOf (s : State) (d : Nat) (r j : Fin 32) : croftDie (s.physOf d r.val j.val) = d := by
  have hcol := physColumn_le j.val j.isLt
  have hr := r.isLt
  unfold State.physOf croftDie
  dsimp only
  split <;> [skip; split] <;> omega

/-- The coordinate map hangs on service and coordinates of crofts alone. -/
theorem State.physOf_modCroft (s : State) (n : Nat) (f : Croft → Croft)
    (hf : ∀ c, (f c).service = c.service ∧ (f c).spareColumn = c.spareColumn) (d r j : Nat) :
    (s.modCroft n f).physOf d r j = s.physOf d r j := by
  have hheld (m : Nat) : (s.modCroft n f).holdsColumn m j = s.holdsColumn m j := by
    have hcroft : ((s.modCroft n f).croft m).service = (s.croft m).service ∧
        ((s.modCroft n f).croft m).spareColumn = (s.croft m).spareColumn := by
      rw [State.croft_modCroft]
      split
      next h =>
        subst h
        exact hf _
      next => exact ⟨rfl, rfl⟩
    simp only [State.holdsColumn, State.service, hcroft.1, hcroft.2]
  simp only [State.physOf, hheld]

/-- A pad row with its new bytes (R156, R163). -/
def Croft.withPadRow (c : Croft) (ps : Bool) (p row : Nat) (bytes : List (BitVec 8)) (sigma : BitVec 16) : Croft :=
  if ps then { c.clearPs p row with psPad := Memory.setBytes (c.clearPs p row).psPad (512 * p) (bytes.take 512) }
  else { c.clearAct p with actPad := Memory.setBytes (c.clearAct p).actPad (512 * p) (bytes.take 512)
                           sigmas := tput (fun _ => 0) c.sigmas row sigma }

theorem State.writePadRow_eq (s : State) (n : Nat) (ps : Bool) (row : Nat) (bytes : List (BitVec 8)) (sigma : BitVec 16) :
    s.writePadRow n ps row bytes sigma =
      s.modCroft n fun c => c.withPadRow ps ((s.die (croftDie n)).padRow n ps row) row bytes sigma := rfl

theorem Croft.withPadRow_coordinate (c : Croft) (ps : Bool) (p row : Nat) (bytes : List (BitVec 8)) (sigma : BitVec 16) :
    (c.withPadRow ps p row bytes sigma).service = c.service ∧ (c.withPadRow ps p row bytes sigma).spareColumn = c.spareColumn := by
  cases ps <;> exact ⟨rfl, rfl⟩

/-- A row of a pad holds what was written to it. -/
theorem Croft.withPadRow_bytes (c : Croft) (ps : Bool) (p row : Nat) (bytes : List (BitVec 8)) (sigma : BitVec 16) (hlen : bytes.length = 512) :
    Memory.getBytes (if ps then (c.withPadRow ps p row bytes sigma).psPad else (c.withPadRow ps p row bytes sigma).actPad) (512 * p) 512 =
      bytes := by
  have hread (m : Memory) : (m.setBytes (512 * p) bytes).getBytes (512 * p) 512 = bytes := by
    have := Memory.getBytes_setBytes m (512 * p) bytes
    rwa [hlen] at this
  have htake : bytes.take 512 = bytes := List.take_of_length_le (by omega)
  cases ps <;> simp only [Croft.withPadRow, htake] <;> exact hread _

theorem State.readPadRow_eq (s : State) (n : Nat) (ps : Bool) (p : Nat) (h : p < (s.die (croftDie n)).padRows ps) :
    s.readPadRow n ps p = Memory.getBytes (if ps then (s.croft n).psPad else (s.croft n).actPad)
      (512 * (s.die (croftDie n)).padRow n ps p) 512 := by
  have hat : (s.die (croftDie n)).padAt n ps (512 * p) = 512 * (s.die (croftDie n)).padRow n ps p := by
    rw [Die.padAt, Nat.mul_div_cancel_left p (by decide), Nat.mul_mod_right, Nat.add_zero]
  rw [State.readPadRow, if_pos h, hat]

theorem State.readPadRow_writePadRow (s : State) (n : Nat) (ps : Bool) (row : Nat) (bytes : List (BitVec 8)) (sigma : BitVec 16)
    (hlen : bytes.length = 512) (h : row < (s.die (croftDie n)).padRows ps) :
    (s.writePadRow n ps row bytes sigma).readPadRow n ps row = bytes := by
  have h' : row < ((s.writePadRow n ps row bytes sigma).die (croftDie n)).padRows ps := by rwa [State.writePadRow_eq, State.modCroft_die]
  rw [State.readPadRow_eq _ n ps row h', State.writePadRow_eq, State.croft_modCroft_self, State.modCroft_die]
  exact Croft.withPadRow_bytes _ _ _ _ _ _ hlen

/-- The croft whose pad a place is a row of. -/
def State.placeCroft (s : State) (d : Nat) : RowPlace → Option Nat
  | .act r j _ => some (s.physOf d r.val j.val)
  | .ps r j _ => some (s.physOf d r.val j.val)
  | _ => none

/-- A row written to a place with its σ and its saturated marks. -/
def State.landed (s : State) (d : Nat) (p : RowPlace) (row : List (BitVec 8)) (sigma : BitVec 16) (marks : List Nat) : State :=
  (s.writePlace d p row sigma).carryMarks d p marks

/-- What a row that lands at a place does. -/
structure Lands (s t : State) (d : Nat) (p : RowPlace) (row : List (BitVec 8)) (sigma : BitVec 16) : Prop where
  reads : t.readPlace d p = row
  sigma : (∀ r j k, p ≠ .ps r j k) → t.placeSigma d p = sigma
  dies : ∀ n, n ≠ d → t.die n = s.die n
  xfers : (t.die d).xfers = (s.die d).xfers
  crofts : ∀ n, s.placeCroft d p ≠ some n → t.croft n = s.croft n
  slice : s.placeCroft d p = none → t = { s with dies := t.dies }
  frame : t = { s with crofts := t.crofts, dies := t.dies }

/-- A saturated mark joins the croft of a partial-sum row. -/
def Croft.marked (c : Croft) (p : Nat) (marks : List Nat) : Croft := { c with satMarks := c.satMarks ++ marks.map (128 * p + ·) }

theorem State.landed_act (s : State) (d : Nat) (r j : Fin 32) (p : Nat) (row : List (BitVec 8)) (sigma : BitVec 16) (marks : List Nat)
    (hlen : row.length = 512) (h : (s.die d).reaches (.act r j p) = true) :
    Lands s (s.landed d (.act r j p) row sigma marks) d (.act r j p) row sigma := by
  have hp : p < (s.die d).padRows false := of_decide_eq_true h
  have hdie := s.croftDie_physOf d r j
  have ht : s.landed d (.act r j p) row sigma marks = s.writePadRow (s.physOf d r.val j.val) false p row sigma := if_pos hp
  have hphys : (s.writePadRow (s.physOf d r.val j.val) false p row sigma).physOf d r.val j.val = s.physOf d r.val j.val :=
    s.physOf_modCroft _ _ (fun c => c.withPadRow_coordinate _ _ _ _ _) d r.val j.val
  rw [ht]
  refine ⟨?_, fun _ => ?_, fun n _ => rfl, rfl, fun n hn => ?_, fun hn => absurd hn (Option.some_ne_none _), rfl⟩
  · rw [State.readPlace, hphys]
    exact s.readPadRow_writePadRow _ false p row sigma hlen (by rwa [hdie])
  · rw [State.placeSigma, hphys, State.writePadRow_eq, State.croft_modCroft_self]
    exact tget_tput_self ..
  · exact State.croft_modCroft_ne _ _ fun he => hn (he ▸ rfl)

theorem Croft.marked_coordinate (c : Croft) (p : Nat) (marks : List Nat) :
    (c.marked p marks).service = c.service ∧ (c.marked p marks).spareColumn = c.spareColumn := ⟨rfl, rfl⟩

/-- A partial-sum row with the marks that it carries. -/
def State.withSums (s : State) (n p : Nat) (row : List (BitVec 8)) (marks : List Nat) : State :=
  (s.writePadRow n true p row 0).modCroft n fun c => c.marked p marks

theorem State.withSums_physOf (s : State) (n p : Nat) (row : List (BitVec 8)) (marks : List Nat) (d r j : Nat) :
    (s.withSums n p row marks).physOf d r j = s.physOf d r j := by
  rw [State.withSums, State.physOf_modCroft _ _ _ fun c => c.marked_coordinate p marks, State.writePadRow_eq,
    State.physOf_modCroft _ _ _ fun c => c.withPadRow_coordinate _ _ _ _ _]

theorem State.withSums_reads (s : State) (n p : Nat) (row : List (BitVec 8)) (marks : List Nat) (hlen : row.length = 512)
    (h : p < (s.die (croftDie n)).padRows true) : (s.withSums n p row marks).readPadRow n true p = row := by
  have hdie : (s.withSums n p row marks).die (croftDie n) = s.die (croftDie n) := by
    rw [State.withSums, State.modCroft_die, State.writePadRow_eq, State.modCroft_die]
  have hpad : ((s.withSums n p row marks).croft n).psPad =
      ((s.croft n).withPadRow true ((s.die (croftDie n)).padRow n true p) p row 0).psPad := by
    rw [State.withSums, State.croft_modCroft_self, State.writePadRow_eq, State.croft_modCroft_self, Croft.marked]
  rw [State.readPadRow_eq _ n true p (by rwa [hdie]), hdie, if_pos rfl, hpad]
  exact (s.croft n).withPadRow_bytes true _ p row 0 hlen

theorem State.withSums_croft_ne (s : State) (n p k : Nat) (row : List (BitVec 8)) (marks : List Nat) (hk : k ≠ n) :
    (s.withSums n p row marks).croft k = s.croft k :=
  (State.croft_modCroft_ne _ _ hk).trans (State.croft_modCroft_ne _ _ hk)

theorem State.landed_ps_eq (s : State) (d : Nat) (r j : Fin 32) (p : Nat) (row : List (BitVec 8)) (sigma : BitVec 16) (marks : List Nat)
    (hp : p < (s.die d).padRows true) :
    s.landed d (.ps r j p) row sigma marks = s.withSums (s.physOf d r.val j.val) p row marks := by
  have hw : s.writePlace d (.ps r j p) row sigma = s.writePadRow (s.physOf d r.val j.val) true p row 0 := if_pos hp
  have hphys : (s.writePadRow (s.physOf d r.val j.val) true p row 0).physOf d r.val j.val = s.physOf d r.val j.val :=
    s.physOf_modCroft _ _ (fun c => c.withPadRow_coordinate _ _ _ _ _) d r.val j.val
  rw [State.landed, hw, State.carryMarks, hphys]
  rfl

theorem State.landed_ps (s : State) (d : Nat) (r j : Fin 32) (p : Nat) (row : List (BitVec 8)) (sigma : BitVec 16) (marks : List Nat)
    (hlen : row.length = 512) (h : (s.die d).reaches (.ps r j p) = true) :
    Lands s (s.landed d (.ps r j p) row sigma marks) d (.ps r j p) row sigma := by
  have hp : p < (s.die d).padRows true := of_decide_eq_true h
  rw [s.landed_ps_eq d r j p row sigma marks hp]
  refine ⟨?_, fun hne => absurd rfl (hne r j p), fun n _ => rfl, rfl, fun n hn => ?_, fun hn => absurd hn (Option.some_ne_none _), rfl⟩
  · rw [State.readPlace, State.withSums_physOf]
    exact s.withSums_reads _ p row marks hlen (by rwa [s.croftDie_physOf d r j])
  · exact s.withSums_croft_ne _ p n row marks fun he => hn (he ▸ rfl)

theorem State.landed_gran (s : State) (d : Nat) (k : SliceId) (a : Nat) (row : List (BitVec 8)) (sigma : BitVec 16) (marks : List Nat)
    (hlen : row.length = 512) (h : (s.die d).reaches (.gran k a) = true) :
    Lands s (s.landed d (.gran k a) row sigma marks) d (.gran k a) row sigma := by
  obtain ⟨ha, -⟩ := Bool.and_eq_true_iff.mp h
  have ht : s.landed d (.gran k a) row sigma marks = s.modDie d fun x => { x.writeRow k.val a row with
      granSigmas := tput (fun _ => 0) x.granSigmas (2048 * k.val + a) sigma } := rfl
  rw [ht]
  refine ⟨?_, fun _ => ?_, fun n hn => State.die_modDie_ne _ _ hn, ?_, fun _ _ => rfl, fun _ => rfl, rfl⟩
  · rw [State.readPlace, State.die_modDie_self]
    exact (s.die d).rowAccess_writeRow k.val a row hlen (of_decide_eq_true ha)
  · rw [State.placeSigma, State.die_modDie_self]
    exact tget_tput_self ..
  · rw [State.die_modDie_self, Die.writeRow_eq _ _ _ _ hlen, Die.setGrans_frame]

/-- The σ of a block's first row is that of the column line. -/
theorem tget_blockSigmas (t : Table (BitVec 16)) (b : Nat) (sigma : BitVec 16) :
    tget (fun _ => 0) ((List.range 16).foldl (fun t i => tput (fun _ => 0) t (b + i) sigma) t) b = sigma := by
  have hkeep (l : List Nat) (t : Table (BitVec 16)) (ht : tget (fun _ => 0) t b = sigma) :
      tget (fun _ => 0) (l.foldl (fun t i => tput (fun _ => 0) t (b + i) sigma) t) b = sigma := by
    refine List.foldlRecOn l _ (motive := fun t => tget (fun _ => 0) t b = sigma) ht fun t ht i _ => ?_
    rw [tget_tput]
    split
    · rfl
    · exact ht
  rw [List.range_succ_eq_map, List.foldl_cons]
  exact hkeep _ _ (tget_tput_self ..)

theorem State.landed_column (s : State) (d : Nat) (k : SliceId) (b e : Nat) (row : List (BitVec 8)) (sigma : BitVec 16) (marks : List Nat)
    (hlen : row.length = 512) (h : (s.die d).reaches (.column k b e) = true) :
    Lands s (s.landed d (.column k b e) row sigma marks) d (.column k b e) row sigma := by
  obtain ⟨he, hrows⟩ := Bool.and_eq_true_iff.mp h
  have hrow (i : Nat) (hi : i < 16) : 16 * b + i < (s.die d).granRows := by
    have := List.all_eq_true.mp hrows i (List.mem_range.mpr hi)
    exact of_decide_eq_true (Bool.and_eq_true_iff.mp this).1
  have ht : s.landed d (.column k b e) row sigma marks = s.modDie d fun x => { x.writeColumn k.val b e row with
      granSigmas := (List.range 16).foldl (fun t i => tput (fun _ => 0) t (2048 * k.val + 16 * b + i) sigma) x.granSigmas } := rfl
  rw [ht]
  refine ⟨?_, fun _ => ?_, fun n hn => State.die_modDie_ne _ _ hn, ?_, fun _ _ => rfl, fun _ => rfl, rfl⟩
  · rw [State.readPlace, State.die_modDie_self]
    exact (s.die d).columnAccess_writeColumn k.val b e row hlen (of_decide_eq_true he) hrow
  · rw [State.placeSigma, State.die_modDie_self]
    exact tget_blockSigmas _ _ _
  · rw [State.die_modDie_self, Die.writeColumn_eq _ _ _ _ _ hlen, Die.setGrans_frame]

/-- A row that lands at a place the die reaches reads back, with its σ, and moves nothing else (R156, R181). -/
theorem State.landed_lands (s : State) (d : Nat) (p : RowPlace) (row : List (BitVec 8)) (sigma : BitVec 16) (marks : List Nat)
    (hlen : row.length = 512) (h : (s.die d).reaches p = true) : Lands s (s.landed d p row sigma marks) d p row sigma := by
  cases p with
  | act r j p => exact s.landed_act d r j p row sigma marks hlen h
  | ps r j p => exact s.landed_ps d r j p row sigma marks hlen h
  | gran k a => exact s.landed_gran d k a row sigma marks hlen h
  | column k b e => exact s.landed_column d k b e row sigma marks hlen h

end Sys2Proof.Machine
end

section
/-!
Snoops (R415, R421), the data units of step transfers (R244, R418) and retrains of modules (R407 to R410).
-/
namespace Sys2Proof.Machine

/-! ### Snoops -/

/-- The state with a snoop on its way, for one credit (R415, R421). -/
def State.snooping (s : State) (h line : Nat) (forWrite : Bool) : State :=
  ({ s with links := { s.links with snoops := s.links.snoops ++ [(h, line, forWrite)] } } : State).modUmod h fun x =>
    { x with hubNp := x.hubNp - 1 }

theorem exec_snoop_asks (s : State) (h : HubId) (line : Nat) (w : Bool) (hl : s.partitionLine line = true) (hc : 0 < (s.umod h.val).hubNp) :
    exec (.snoop h line w) s = .next (s.snooping h.val line w) :=
  if_pos ⟨hl, hc⟩

theorem exec_snoop_waits (s : State) (h : HubId) (line : Nat) (w : Bool)
    (hn : s.partitionLine line = false ∨ (s.umod h.val).hubNp = 0) : exec (.snoop h line w) s = .next s :=
  if_neg (by rintro ⟨hl, hc⟩; simp [hl] at hn; omega)

/-- The state once snoop `q` of a line is answered: the steward holds no copy of the line. -/
def State.snooped (s : State) (q : Nat × Nat × Bool) (line : Nat) : State :=
  { s with links := { s.links with snoops := s.links.snoops.erase q, dirtyLines := tdrop s.links.dirtyLines line } }

section Response
variable {s : State} {h : HubId} {line : Nat} {q : Nat × Nat × Bool}
  (hq : (s.links.snoops.find? fun e => e.1 == h.val && e.2.1 == line) = some q)
include hq

theorem exec_snoopRsp_clean : exec (.snoopRsp h line none) s = .next (s.snooped q line) := by
  change execSnoopRsp h line none s = _
  simp only [execSnoopRsp, hq]
  rfl

theorem exec_snoopRsp_read (data : List (BitVec 8)) (hw : q.2.2 = false) (hlen : data.length = 64) :
    exec (.snoopRsp h line (some data)) s = .next { s.snooped q line with links := { (s.snooped q line).links with
      dirtyLines := tset (tdrop s.links.dirtyLines line) line data } } := by
  have htake : (data ++ zeroLine).take 64 = data := by rw [← hlen, List.take_left]
  change execSnoopRsp h line (some data) s = _
  simp only [execSnoopRsp, hq, hw, htake]
  rfl

theorem exec_snoopRsp_write (data : List (BitVec 8)) (hw : q.2.2 = true) (hlen : data.length = 64)
    (hout : (s.stack (line / 2147483648)).out = false) (hclean : s.unclean (pageOf (64 * line)) = false) :
    exec (.snoopRsp h line (some data)) s =
      .next (({ s with links := { s.links with snoops := s.links.snoops.erase q } } : State).lineStored line data false) := by
  have hstored := State.stewardWrite_open { s with links := { s.links with snoops := s.links.snoops.erase q } } line data false hlen hout hclean
  rw [← hstored]
  change execSnoopRsp h line (some data) s = _
  simp only [execSnoopRsp, hq, hw]
  rfl

end Response

/-! ### Data units -/

/-- The parts of a transfer that a die has gathered once a unit has arrived. -/
def State.gathered (s : State) (d k o : Nat) (c : CrossPlan) : List (Nat × List (BitVec 8)) :=
  (o / 64, s.sentPart c o) :: ((tfind (s.die d).xfers k).getD []).filter fun e => e.1 != o / 64

/-- The row that the gathered parts of a transfer make. -/
def gatheredRow (parts : List (Nat × List (BitVec 8))) : List (BitVec 8) :=
  (List.range 512).map fun i => (((tfind parts (i / 64)).getD [])[i % 64]?).getD 0

theorem gatheredRow_length (parts : List (Nat × List (BitVec 8))) : (gatheredRow parts).length = 512 := by
  rw [gatheredRow, List.length_map, List.length_range]

/-- The state with a transfer's parts kept for its last unit. -/
def State.unitKept (s : State) (d k o : Nat) (c : CrossPlan) : State :=
  s.modDie d fun x => { x with xfers := tset x.xfers k (s.gathered d k o c) }

/-- The state with nothing gathered of a transfer. -/
def State.unitsTaken (s : State) (d k : Nat) : State := s.modDie d fun x => { x with xfers := tdrop x.xfers k }

/-- The state with the whole row of a transfer written (R156, R163, R181). -/
def State.unitLanded (s : State) (d k o : Nat) (c : CrossPlan) : State :=
  (s.unitsTaken d k).landed d c.place (gatheredRow (s.gathered d k o c)) (s.placeSigma c.peer c.far) (s.rowMarks c.peer c.far)

theorem State.takeUnit_keeps (s : State) (d k o : Nat) (c : CrossPlan) (h : (s.gathered d k o c).length < c.bytes / 64) :
    s.takeUnit d k o c = s.unitKept d k o c :=
  if_pos h

theorem State.takeUnit_lands (s : State) (d k o : Nat) (c : CrossPlan) (h : c.bytes / 64 ≤ (s.gathered d k o c).length) :
    s.takeUnit d k o c = s.unitLanded d k o c :=
  if_neg (not_lt.mpr h)

section Unit
variable {s : State} {d : DieId} {m : Fin 2} {entry off : Nat} {x : PatternImage} {c : CrossPlan}

theorem exec_xfer_planned (hx : (s.die d.val).pattern = some x) (hc : x.crossDie[entry]? = some c) (hsends : c.sends = false)
    (hm : c.module = m.val) (ho : off % 64 = 0) (hlo : off + 64 ≤ c.bytes) (hhi : c.bytes ≤ 512)
    (hplace : s.placeServes d.val c.place = true) (hfar : s.placeServes c.peer c.far = true) (step : Nat) (bad : Bool) :
    exec (.xfer (.die d m) step entry off bad) s =
      .next (if bad then (s.takeUnit d.val entry off c).markStep step .parity else s.takeUnit d.val entry off c) := by
  have hreceives : ((s.die d.val).pattern.bind fun p => PatternImage.receives p entry m.val) = some c := by
    simp [hx, PatternImage.receives, hc, hsends, hm]
  have hslot : off % unitBytes = 0 ∧ off + unitBytes ≤ c.bytes ∧ c.bytes ≤ 512 ∧ s.placeServes d.val c.place = true ∧
      s.placeServes c.peer c.far = true := ⟨ho, hlo, hhi, hplace, hfar⟩
  change execXfer (.die d m) step entry off bad s = _
  simp only [execXfer, hreceives, if_pos hslot]

theorem exec_xfer_unplanned (h : (s.die d.val).pattern = none ∨ off % 64 ≠ 0) (step : Nat) (bad : Bool) :
    exec (.xfer (.die d m) step entry off bad) s = .next (if bad then s.markStep step .parity else s) := by
  change execXfer (.die d m) step entry off bad s = _
  rcases hr : ((s.die d.val).pattern.bind fun p => PatternImage.receives p entry m.val) with _ | c
  · simp only [execXfer, hr]
  · have hslot : ¬(off % unitBytes = 0 ∧ off + unitBytes ≤ c.bytes ∧ c.bytes ≤ 512 ∧ s.placeServes d.val c.place = true ∧
        s.placeServes c.peer c.far = true) := by
      rintro ⟨ho, -⟩
      obtain hn | hn := h
      · simp [hn] at hr
      · exact hn ho
    simp only [execXfer, hr, if_neg hslot]

end Unit

theorem exec_xfer_steward (s : State) (m : HubId) (step entry off : Nat) (bad : Bool) :
    exec (.xfer (.steward m) step entry off bad) s = .next s := rfl

/-- The croft of a place of a die is one of its crofts. -/
theorem State.placeCroft_die {s : State} {d n : Nat} {p : RowPlace} (h : s.placeCroft d p = some n) : croftDie n = d := by
  cases p with
  | act r j k => exact Option.some.inj h ▸ s.croftDie_physOf d r j
  | ps r j k => exact Option.some.inj h ▸ s.croftDie_physOf d r j
  | gran k a => cases h
  | column k b e => cases h

/-- What the last unit of a transfer does. -/
theorem State.unitLanded_lands (s : State) (d k o : Nat) (c : CrossPlan) (h : s.placeServes d c.place = true) :
    Lands (s.unitsTaken d k) (s.unitLanded d k o c) d c.place (gatheredRow (s.gathered d k o c)) (s.placeSigma c.peer c.far) := by
  have hreach : (s.die d).reaches c.place = true := (Bool.and_eq_true_iff.mp h).2
  refine State.landed_lands _ _ _ _ _ _ (gatheredRow_length _) ?_
  rw [State.unitsTaken, State.die_modDie_self]
  exact hreach

theorem State.unitLanded_dies (s : State) (d k o : Nat) (c : CrossPlan) (h : s.placeServes d c.place = true) :
    tfind ((s.unitLanded d k o c).die d).xfers k = none ∧ ∀ n, n ≠ d → (s.unitLanded d k o c).die n = s.die n := by
  have hl := s.unitLanded_lands d k o c h
  refine ⟨?_, fun n hn => (hl.dies n hn).trans (State.die_modDie_ne _ _ hn)⟩
  rw [hl.xfers, State.unitsTaken, State.die_modDie_self]
  exact (tfind_tdrop _ _ _).trans (if_pos rfl)

/-! ### Retrains -/

/-- A module after training with so many failing lanes (R407 to R409). -/
def UModule.trained (x : UModule) (e : ModuleAt) (tx rx : Nat) : UModule :=
  { x with
    repairedTx := min 4 (x.repairedTx + tx), repairedRx := min 4 (x.repairedRx + rx)
    state := if (decide (x.repairedTx + tx ≤ 4) && decide (x.repairedRx + rx ≤ 4)) then 2 else (match e with | .steward _ => 4 | .die _ _ => 0)
    width := if (decide (x.repairedTx + tx ≤ 4) && decide (x.repairedRx + rx ≤ 4)) then 64 else (match e with | .steward _ => 32 | .die _ _ => 0)
    startFailed := !(decide (x.repairedTx + tx ≤ 4) && decide (x.repairedRx + rx ≤ 4)) &&
      (match e with | .steward _ => false | .die _ _ => true) }

/-- The failing lanes of a module fit its redundant ones (R408). -/
def UModule.fits (x : UModule) (tx rx : Nat) : Bool := decide (x.repairedTx + tx ≤ 4) && decide (x.repairedRx + rx ≤ 4)

theorem UModule.trained_fits (x : UModule) (e : ModuleAt) (tx rx : Nat) (h : x.fits tx rx = true) :
    (x.trained e tx rx).state = 2 ∧ (x.trained e tx rx).width = 64 :=
  ⟨if_pos h, if_pos h⟩

theorem UModule.trained_worn (x : UModule) (e : ModuleAt) (tx rx : Nat) (h : x.fits tx rx = false) :
    (∀ m, e = .steward m → (x.trained e tx rx).state = 4 ∧ (x.trained e tx rx).width = 32) ∧
      ∀ d m, e = .die d m → (x.trained e tx rx).state = 0 ∧ (x.trained e tx rx).width = 0 := by
  have hn : ¬(decide (x.repairedTx + tx ≤ 4) && decide (x.repairedRx + rx ≤ 4)) = true := Bool.eq_false_iff.mp h
  refine ⟨?_, ?_⟩
  · rintro m rfl
    exact ⟨if_neg hn, if_neg hn⟩
  · rintro d m rfl
    exact ⟨if_neg hn, if_neg hn⟩

/-- The module of a training, before what it means for the die. -/
def State.trainedModule (s : State) (e : ModuleAt) (tx rx : Nat) : State := s.modUmod e.num fun y => UModule.trained (s.umod e.num) e tx rx |> fun z =>
  { y with repairedTx := z.repairedTx, repairedRx := z.repairedRx, state := z.state, width := z.width, startFailed := z.startFailed }

theorem State.trainModule_steward (s : State) (m : HubId) (tx rx : Nat) :
    s.trainModule ⟨.steward m, tx, rx⟩ = s.trainedModule (.steward m) tx rx := rfl

theorem State.trainModule_die (s : State) (d : DieId) (m : Fin 2) (tx rx : Nat) :
    s.trainModule ⟨.die d m, tx, rx⟩ =
      if (s.umod (ModuleAt.num (.die d m))).fits tx rx then s.trainedModule (.die d m) tx rx
      else (s.trainedModule (.die d m) tx rx).degrade d.val := rfl

/-- A module with one more retrain. -/
def UModule.counted (x : UModule) : UModule := { x with retrains := min 255 (x.retrains + 1) }

/-- The state after a retrain, before what it has lost. -/
def State.retrained (s : State) (e : ModuleAt) (tx rx : Nat) : State :=
  (s.trainModule ⟨e, tx, rx⟩).modUmod e.num UModule.counted

theorem exec_ucieRetrain_steward (s : State) (m : HubId) (tx rx : Nat) (rq rp : List Nat) :
    exec (.ucieRetrain (.steward m) tx rx rq rp) s = .next ((s.retrained (.steward m) tx rx).loseUnits m.val rq rp) := rfl

theorem exec_ucieRetrain_die (s : State) (d : DieId) (m : Fin 2) (tx rx : Nat) (rq rp : List Nat) :
    exec (.ucieRetrain (.die d m) tx rx rq rp) s = .next (s.retrained (.die d m) tx rx) := rfl

theorem State.trainModule_modules (s : State) (e : ModuleAt) (tx rx : Nat) :
    (s.trainModule ⟨e, tx, rx⟩).links = (s.trainedModule e tx rx).links := by
  cases e with
  | steward m => rfl
  | die d m =>
    rw [State.trainModule_die]
    split <;> rfl

theorem State.retrained_umod (s : State) (e : ModuleAt) (tx rx k : Nat) :
    (s.retrained e tx rx).umod k = if k = e.num then ((s.umod e.num).trained e tx rx).counted else s.umod k := by
  have hlinks (k : Nat) : (s.trainModule ⟨e, tx, rx⟩).umod k = (s.trainedModule e tx rx).umod k := by
    rw [State.umod, State.trainModule_modules, State.umod]
  rw [State.retrained, State.umod_modUmod, hlinks, hlinks, State.trainedModule, State.umod_modUmod, State.umod_modUmod, if_pos rfl]
  split <;> rfl

theorem State.retrained_fits (s : State) (e : ModuleAt) (tx rx : Nat) (h : (s.umod e.num).fits tx rx = true) :
    s.retrained e tx rx = { s with links := { s.links with modules := (s.retrained e tx rx).links.modules } } := by
  cases e with
  | steward m => rfl
  | die d m =>
    rw [State.retrained, State.trainModule_die, if_pos h]
    rfl

theorem State.retrained_degraded (s : State) (d : DieId) (m : Fin 2) (tx rx : Nat)
    (h : (s.umod (ModuleAt.num (.die d m))).fits tx rx = false) : ((s.retrained (.die d m) tx rx).die d.val).degraded = true := by
  have hdie : (s.retrained (.die d m) tx rx).die d.val = ((s.trainedModule (.die d m) tx rx).degrade d.val).die d.val := by
    rw [State.retrained, State.trainModule_die, if_neg (by simp [h])]
    rfl
  rw [hdie, State.degrade, State.die_modDie_self]

theorem State.retrained_outstanding (s : State) (e : ModuleAt) (tx rx : Nat) :
    (s.retrained e tx rx).links.outstanding = s.links.outstanding := by
  rw [State.retrained, State.modUmod_links_outstanding, State.trainModule_modules]
  rfl

/-! ### The statement -/

theorem State.loseUnits_outstanding (s : State) (m : Nat) (rq rp : List Nat) :
    (∀ o ∈ s.links.outstanding, (o.module = m ∧ o.tag ∈ rp → { o with lost := true } ∈ (s.loseUnits m rq rp).links.outstanding) ∧
      (¬(o.module = m ∧ o.tag ∈ rp) → o ∈ (s.loseUnits m rq rp).links.outstanding)) ∧
    ∀ g ∈ rq, { module := m, tag := g, sentAt := s.hubTime m, lost := true } ∈ (s.loseUnits m rq rp).links.outstanding := by
  have hkept (o : Outstanding) (ho : o ∈ s.links.outstanding) :
      (if o.module = m ∧ o.tag ∈ rp then { o with lost := true } else o) ∈ (s.loseUnits m rq rp).links.outstanding :=
    List.mem_append_left _ (List.mem_map_of_mem ho)
  refine ⟨fun o ho => ⟨fun h => ?_, fun h => ?_⟩, fun g hg => List.mem_append_right _ (List.mem_map.mpr ⟨g, hg, rfl⟩)⟩
  · have := hkept o ho
    rwa [if_pos h] at this
  · have := hkept o ho
    rwa [if_neg h] at this

theorem snoops_answered (s : State) (h : HubId) (line : Nat) (w : Bool) (data : List (BitVec 8)) :
    (s.partitionLine line = true → 0 < (s.umod h.val).hubNp → ∃ t, exec (.snoop h line w) s = .next t ∧
      t.links.snoops = s.links.snoops ++ [(h.val, line, w)] ∧ t.umod h.val = { s.umod h.val with hubNp := (s.umod h.val).hubNp - 1 } ∧
      (∀ k, k ≠ h.val → t.umod k = s.umod k) ∧
      t = { s with links := { s.links with snoops := t.links.snoops, modules := t.links.modules } }) ∧
    (s.partitionLine line = false ∨ (s.umod h.val).hubNp = 0 → exec (.snoop h line w) s = .next s) ∧
    ((∃ q ∈ s.links.snoops, q.1 = h.val ∧ q.2.1 = line) → ∃ q, q ∈ s.links.snoops ∧ q.1 = h.val ∧ q.2.1 = line ∧
      (∃ t, exec (.snoopRsp h line none) s = .next t ∧ t.links.snoops = s.links.snoops.erase q ∧
        tfind t.links.dirtyLines line = none ∧
        t = { s with links := { s.links with snoops := t.links.snoops, dirtyLines := t.links.dirtyLines } }) ∧
      (q.2.2 = false → data.length = 64 → ∃ t, exec (.snoopRsp h line (some data)) s = .next t ∧
        tfind t.links.dirtyLines line = some data ∧ (∀ k, k ≠ line → tfind t.links.dirtyLines k = tfind s.links.dirtyLines k) ∧
        t = { s with links := { s.links with snoops := t.links.snoops, dirtyLines := t.links.dirtyLines } }) ∧
      (q.2.2 = true → data.length = 64 → (s.stack (64 * line / Config.stackBytes)).out = false → s.unclean (64 * line / 65536) = false →
        ∃ t, exec (.snoopRsp h line (some data)) s = .next t ∧ LineWritten s t (64 * line) keyPlatform data false)) := by
  refine ⟨fun hl hc => ?asks, fun hn => exec_snoop_waits s h line w hn, fun hex => ?answers⟩
  case asks =>
    exact ⟨_, exec_snoop_asks s h line w hl hc, rfl, State.umod_modUmod_self _ _ _, fun k hk => State.umod_modUmod_ne _ _ hk, rfl⟩
  case answers =>
    obtain ⟨q, hq⟩ : ∃ q, (s.links.snoops.find? fun e => e.1 == h.val && e.2.1 == line) = some q := by
      rw [← Option.isSome_iff_exists, List.find?_isSome]
      simpa using hex
    have hmatch := List.find?_some hq
    simp only [Bool.and_eq_true, beq_iff_eq] at hmatch
    refine ⟨q, List.mem_of_find?_eq_some hq, hmatch.1, hmatch.2, ?_, fun hw hlen => ?_, fun hw hlen hout hclean => ?_⟩
    · exact ⟨_, exec_snoopRsp_clean hq, rfl, (tfind_tdrop _ _ _).trans (if_pos rfl), rfl⟩
    · refine ⟨_, exec_snoopRsp_read hq data hw hlen, tfind_tset_self _ _ _, fun k hk => ?_, rfl⟩
      exact ((tfind_tset _ _ _ _).trans (if_neg hk)).trans ((tfind_tdrop _ _ _).trans (if_neg hk))
    · have hstack : 64 * line / Config.stackBytes = line / 2147483648 := by
        simp only [Config.stackBytes]
        omega
      have hline : 64 * line / 64 = line := Nat.mul_div_cancel_left line (by decide)
      have hwritten := State.lineStored_written { s with links := { s.links with snoops := s.links.snoops.erase q } } (64 * line) data false hlen
        (by rw [hline])
      rw [hline] at hwritten
      exact ⟨_, exec_snoopRsp_write hq data hw hlen (by rwa [← hstack]) hclean, hwritten⟩

/-- Settles O35: a unit is kept or lands its row, and a retrain is one change of its module with the units it has lost. -/
theorem snoopsTransfersRetrains : Obligations.SnoopsTransfersRetrains := by
  refine ⟨snoops_answered, fun s d m step entry off x c hx hc hsends hm ho hlo hhi hplace hfar parts hparts => ⟨fun hmore => ?kept, fun hlast => ?landed⟩,
    fun s step entry off => ⟨fun d m h => ?unplanned, fun m b => exec_xfer_steward s m step entry off b⟩, fun s e tx rx rq rp => ?retrain⟩
  case kept =>
    subst hparts
    have hexec := exec_xfer_planned hx hc hsends hm ho hlo hhi hplace hfar step
    rw [s.takeUnit_keeps d.val entry off c hmore] at hexec
    have hdie : (s.unitKept d.val entry off c).die d.val =
        { s.die d.val with xfers := tset (s.die d.val).xfers entry (s.gathered d.val entry off c) } := State.die_modDie_self _ _ _
    refine ⟨s.unitKept d.val entry off c, hexec false, ?_, fun k hk => ?_, fun n hn => State.die_modDie_ne _ _ hn, rfl, hexec true⟩
    · rw [hdie]
      exact tfind_tset_self _ _ _
    · rw [hdie]
      exact (tfind_tset _ _ _ _).trans (if_neg hk)
  case landed =>
    subst hparts
    have hexec := exec_xfer_planned hx hc hsends hm ho hlo hhi hplace hfar step
    rw [s.takeUnit_lands d.val entry off c hlast] at hexec
    have hl := s.unitLanded_lands d.val entry off c hplace
    obtain ⟨hgone, hdies⟩ := s.unitLanded_dies d.val entry off c hplace
    refine ⟨s.unitLanded d.val entry off c, hexec false, hgone, hl.reads, hl.sigma, hdies, fun n hn => ?_, fun hslice => ?_, fun r j k hpad n hn => ?_, ?_, hexec true⟩
    · exact hl.crofts n fun he => hn (State.placeCroft_die he)
    · have hnone : (s.unitsTaken d.val entry).placeCroft d.val c.place = none := by
        obtain ⟨k, a, hp⟩ | ⟨k, b, e, hp⟩ := hslice <;> rw [hp] <;> rfl
      exact hl.slice hnone
    · refine hl.crofts n fun he => hn ?_
      obtain hp | hp := hpad <;> rw [hp] at he <;> exact (Option.some.inj he).symm
    · exact hl.frame
  case unplanned => exact ⟨exec_xfer_unplanned h step true, exec_xfer_unplanned h step false⟩
  case retrain =>
    have humod := s.retrained_umod e tx rx
    have hworn (h : 4 < (s.umod e.num).repairedTx + tx ∨ 4 < (s.umod e.num).repairedRx + rx) : (s.umod e.num).fits tx rx = false := by
      simp [UModule.fits]
      omega
    have hsound (htx : (s.umod e.num).repairedTx + tx ≤ 4) (hrx : (s.umod e.num).repairedRx + rx ≤ 4) : (s.umod e.num).fits tx rx = true := by
      simp [UModule.fits, htx, hrx]
    cases e with
    | steward m =>
      have hself := (humod (ModuleAt.num (.steward m))).trans (if_pos rfl)
      have hlost := (s.retrained (.steward m) tx rx).loseUnits_outstanding m.val rq rp
      rw [s.retrained_outstanding] at hlost
      have hkeep (k : Nat) : ((s.retrained (.steward m) tx rx).loseUnits m.val rq rp).umod k = (s.retrained (.steward m) tx rx).umod k := rfl
      refine ⟨_, exec_ucieRetrain_steward s m tx rx rq rp, ?_, ?_, ?_, fun htx hrx => ⟨?_, ?_, rfl⟩, fun h => ⟨?_, (by rintro d k ⟨⟩)⟩, ?_,
        (by rintro d k ⟨⟩), fun k hk => (hkeep k).trans ((humod k).trans (if_neg hk))⟩
      · rw [hkeep, hself]
        rfl
      · rw [hkeep, hself]
        rfl
      · rw [hkeep, hself]
        rfl
      · rw [hkeep, hself]
        exact (UModule.trained_fits _ (.steward m) _ _ (hsound htx hrx)).1
      · rw [hkeep, hself]
        exact (UModule.trained_fits _ (.steward m) _ _ (hsound htx hrx)).2
      · rw [hkeep, hself]
        exact (UModule.trained_worn _ (.steward m) _ _ (hworn h)).1
      · rintro k ⟨⟩
        exact hlost
    | die d m =>
      have hself := (humod (ModuleAt.num (.die d m))).trans (if_pos rfl)
      refine ⟨_, exec_ucieRetrain_die s d m tx rx rq rp, ?_, ?_, ?_, fun htx hrx => ⟨?_, ?_, ?_⟩, fun h => ⟨(by rintro k ⟨⟩), ?_⟩,
        (by rintro k ⟨⟩), fun _ _ _ => s.retrained_outstanding _ _ _, fun k hk => (humod k).trans (if_neg hk)⟩
      · rw [hself]
        rfl
      · rw [hself]
        rfl
      · rw [hself]
        rfl
      · rw [hself]
        exact (UModule.trained_fits _ (.die d m) _ _ (hsound htx hrx)).1
      · rw [hself]
        exact (UModule.trained_fits _ (.die d m) _ _ (hsound htx hrx)).2
      · rw [s.retrained_fits _ _ _ (hsound htx hrx)]
      · rintro d' m' ⟨⟩
        have := (UModule.trained_worn _ (.die d m) _ _ (hworn h)).2 d m rfl
        rw [hself]
        exact ⟨this.1, this.2, s.retrained_degraded d m tx rx (hworn h)⟩

end Sys2Proof.Machine
end

section
/-!
Stops that keep what is not volatile (R402, R403, R564, R566, R567), dormancy and power failing (R401, R585).
-/
namespace Sys2Proof.Machine

/-! ### Tables -/

/-- An entry that a table does not list is the default. -/
theorem tget_cases {α : Type} (d : Nat → α) (t : Table α) (k : Nat) : tget d t k = d k ∨ (k, tget d t k) ∈ t := by
  induction t with
  | nil => exact .inl rfl
  | cons e t ih =>
    obtain ⟨j, v⟩ := e
    rw [tget]
    split
    next h =>
      subst h
      exact .inr List.mem_cons_self
    next => exact ih.imp_right (List.mem_cons_of_mem _)

/-- A mapped table's entry is the mapped entry, or the default where the table lists none. -/
theorem tget_tmap {α : Type} [DecidableEq α] (d : Nat → α) (f : Nat → α → α) (t : Table α) (k : Nat) :
    tget d (tmap d f t) k = f k (tget d t k) ∨ tget d (tmap d f t) k = d k ∧ tget d t k = d k := by
  induction t with
  | nil => exact .inr ⟨rfl, rfl⟩
  | cons e t ih =>
    obtain ⟨j, v⟩ := e
    have hcons : tmap d f ((j, v) :: t) = tput d (tmap d f t) j (f j v) := rfl
    rw [hcons, tget_tput, tget]
    split
    next h =>
      subst h
      exact .inl rfl
    next => exact ih

/-- The entries of a table filled from a list of keys. -/
theorem tget_foldl_tput {α : Type} [DecidableEq α] (d : Nat → α) (g : Nat → α) (l : List Nat) (t : Table α) (k : Nat) :
    tget d (l.foldl (fun t h => tput d t h (g h)) t) k = if k ∈ l then g k else tget d t k := by
  induction l generalizing t with
  | nil => rfl
  | cons j l ih =>
    rw [List.foldl_cons, ih, tget_tput]
    by_cases hj : k = j <;> by_cases hl : k ∈ l <;> simp [hj, hl]

theorem tfind_foldl_tset {α : Type} (g : Nat → α) (f : Nat → Nat) (l : List Nat) (t : Table α) (k : Nat) (h : k ∈ l.map f) :
    ∃ i ∈ l, f i = k ∧ tfind (l.foldl (fun t i => tset t (f i) (g (f i))) t) k = some (g k) := by
  have hkeep (l : List Nat) (t : Table α) (ht : tfind t k = some (g k)) : tfind (l.foldl (fun t i => tset t (f i) (g (f i))) t) k = some (g k) := by
    refine List.foldlRecOn l _ (motive := fun t => tfind t k = some (g k)) ht fun t ht i _ => ?_
    rw [tfind_tset]
    split
    next he => rw [he]
    next => exact ht
  induction l generalizing t with
  | nil => simp at h
  | cons j l ih =>
    rw [List.map_cons, List.mem_cons] at h
    obtain rfl | h := h
    · exact ⟨j, List.mem_cons_self, rfl, hkeep l _ (tfind_tset_self _ _ _)⟩
    · obtain ⟨i, hi, he, hfind⟩ := ih (tset t (f j) (g (f j))) h
      exact ⟨i, List.mem_cons_of_mem _ hi, he, hfind⟩

/-! ### The marks -/

/-- The mark cells that hub `h` writes. -/
def State.marksOf (s : State) (h : Nat) : Marks :=
  { written := true, valid := true
    seqs := (List.range 4).foldl (fun l i => tset l (4 * h + i) (s.win (4 * h + i)).accepted) [] }

theorem State.writeMarks_eq (s : State) : s.writeMarks = { s with serve := { s.serve with
    marks := (List.range 4).foldl (fun t h => tput (fun _ => {}) t h (s.marksOf h)) s.serve.marks } } := rfl

theorem State.marksOf_seq (s : State) (w : Nat) : tfind (s.marksOf (w / 4)).seqs w = some (s.win w).accepted := by
  have hmem : w ∈ (List.range 4).map (4 * (w / 4) + ·) := List.mem_map.mpr ⟨w % 4, List.mem_range.mpr (by omega), by omega⟩
  obtain ⟨-, -, -, h⟩ := tfind_foldl_tset (fun k => (s.win k).accepted) (4 * (w / 4) + ·) (List.range 4) [] w hmem
  exact h

theorem State.marks_taken {s t : State} (h : t.serve.marks = s.writeMarks.serve.marks) : MarksTaken s t := by
  intro w hw
  refine ⟨_, rfl, ?_⟩
  rw [h, s.writeMarks_eq]
  dsimp only
  rw [tget_foldl_tput, if_pos (List.mem_range.mpr (by omega))]
  exact ⟨rfl, s.marksOf_seq w⟩

/-! ### What a stop keeps -/

theorem Mould.SameRecord.refl (a : Mould) : a.SameRecord a := ⟨rfl, rfl, rfl, rfl, rfl, rfl, rfl, rfl, rfl, rfl, rfl⟩

theorem Mould.dark_record (m : Mould) (b : Bool) : m.SameRecord (m.dark b) := ⟨rfl, rfl, rfl, rfl, rfl, rfl, rfl, rfl, rfl, rfl, rfl⟩

theorem freshMould_idle (m : Nat) : (freshMould m).cast = none ∧ (freshMould m).standins = [] := ⟨rfl, rfl⟩

theorem Croft.dark_mould (c : Croft) (n m : Nat) :
    (c.mould m).SameRecord ((c.dark n).mould m) ∧ ((c.dark n).mould m).cast = none ∧ ((c.dark n).mould m).standins = [] := by
  unfold Croft.mould Croft.dark
  obtain h | ⟨h, h'⟩ := tget_tmap freshMould (fun _ x => x.dark (isSpareColumn (croftCol n))) c.moulds m
  · rw [h]
    exact ⟨Mould.dark_record _ _, rfl, rfl⟩
  · rw [h, h']
    exact ⟨.refl _, freshMould_idle m⟩

theorem State.dark_croft (s : State) (ph : Phase) (n : Nat) :
    (s.dark ph).croft n = (s.croft n).dark n ∨ (s.dark ph).croft n = {} ∧ s.croft n = {} :=
  tget_tmap (fun _ => ({} : Croft)) (fun n (c : Croft) => c.dark n) s.crofts n

theorem State.dark_die (s : State) (ph : Phase) (d : Nat) : (s.dark ph).die d = (s.die d).dark ∨ (s.dark ph).die d = {} ∧ s.die d = {} :=
  tget_tmap (fun _ => ({} : Die)) (fun _ (x : Die) => x.dark) s.dies d

theorem State.dark_mould (s : State) (ph : Phase) (n m : Nat) :
    (s.mould n m).SameRecord ((s.dark ph).mould n m) ∧ ((s.dark ph).mould n m).cast = none ∧ ((s.dark ph).mould n m).standins = [] := by
  unfold State.mould
  obtain h | ⟨h, h'⟩ := s.dark_croft ph n
  · rw [h]
    exact Croft.dark_mould _ _ _
  · rw [h, h']
    exact ⟨.refl _, freshMould_idle m⟩

/-- The package without clocks keeps the array layer and the records, and nothing of what is volatile (R403, R586). -/
theorem State.dark_stopped (s : State) (ph : Phase) : Stopped s (s.dark ph) := by
  refine ⟨s.dark_mould ph, fun n => ?crofts, fun d => ?dies, rfl, rfl, rfl, fun hb => ?fuses, rfl, rfl, rfl, rfl, rfl, rfl, rfl, rfl, rfl,
    (s.dark_keepsPartSize ph).reg, fun a ha => ?regs⟩
  case crofts =>
    obtain h | ⟨h, h'⟩ := s.dark_croft ph n
    · rw [h]
      exact ⟨rfl, rfl, rfl, rfl, rfl, rfl, rfl, rfl⟩
    · rw [h, h']
      exact ⟨rfl, rfl, rfl, rfl, rfl, rfl, rfl, rfl⟩
  case dies =>
    obtain h | ⟨h, h'⟩ := s.dark_die ph d
    · rw [h]
      exact ⟨rfl, rfl, rfl, rfl⟩
    · rw [h, h']
      exact ⟨rfl, rfl, rfl, rfl⟩
  case fuses => simp only [State.dark, hb]
  case regs => exact tget_tput_ne _ _ _ ha

/-- What a stop does to the package's own state beside what it loses is not its concern. -/
theorem Stopped.with_pkg {s t : State} (h : Stopped s t) (p : Package)
    (hp : p.timeBase = t.pkg.timeBase ∧ p.role = t.pkg.role ∧ p.gen = t.pkg.gen) : Stopped s { t with pkg := p } := by
  obtain ⟨hmould, hcroft, hdie, htime, hstore, hlanes, hfuses, hrole, hgen, hrest⟩ := h
  exact ⟨hmould, hcroft, hdie, hp.1.trans htime, hstore, hlanes, hfuses, hp.2.1.trans hrole, hp.2.2.trans hgen, hrest⟩

/-- The state as a stop finds it: a counted warning has had its marks written (R566). -/
def State.warned (s : State) (c : Prop) [Decidable c] : State := if c then s.writeMarks else s

theorem State.warned_stopped (s : State) (c : Prop) [Decidable c] (ph : Phase) : Stopped s ((s.warned c).dark ph) := by
  unfold State.warned
  split
  · exact s.writeMarks.dark_stopped ph
  · exact s.dark_stopped ph

theorem State.warned_pkg (s : State) (c : Prop) [Decidable c] : (s.warned c).pkg = s.pkg := by
  unfold State.warned
  split <;> rfl

theorem State.warned_marks (s : State) (c : Prop) [Decidable c] :
    (c → (s.warned c).serve.marks = s.writeMarks.serve.marks) ∧ (¬c → (s.warned c).serve.marks = s.serve.marks) :=
  ⟨fun h => by rw [State.warned, if_pos h], fun h => by rw [State.warned, if_neg h]⟩

/-! ### The stops -/

/-- A package whose clocks RST_N has stopped. -/
def Package.resetLow (p : Package) : Package := { p with rstLow := true, sleepAckLow := false, wakeLow := false }

/-- A package whose rails are gone, with the standby rail or without it. -/
def Package.railsDown (p : Package) (standby : Bool) : Package :=
  if standby then { p with wakeLow := false } else { p with wakeLow := false, sleepAckLow := false, pwrreqLow := false, thermtripLow := false }

/-- The state off, its warning's marks written. -/
def State.railsOff (s : State) (standby : Bool) : State :=
  { (s.warned (s.pkg.phase = .powerFail)).dark .off with pkg := ((s.warned (s.pkg.phase = .powerFail)).dark .off).pkg.railsDown standby }

theorem State.railsOff_stopped (s : State) (standby : Bool) : Stopped s (s.railsOff standby) ∧ (s.railsOff standby).pkg.phase = .off := by
  have hdark := s.warned_stopped (s.pkg.phase = .powerFail) .off
  cases standby
  · exact ⟨hdark.with_pkg _ ⟨rfl, rfl, rfl⟩, rfl⟩
  · exact ⟨hdark.with_pkg _ ⟨rfl, rfl, rfl⟩, rfl⟩

theorem State.railsOff_marks (s : State) (standby : Bool) :
    (s.pkg.phase = .powerFail → MarksTaken s (s.railsOff standby)) ∧
      (s.pkg.phase ≠ .powerFail → (s.railsOff standby).serve.marks = s.serve.marks) :=
  ⟨fun h => State.marks_taken ((s.warned_marks _).1 h), fun h => (s.warned_marks _).2 h⟩

theorem exec_rstFall_stops (s : State) (b : Bool) (h : s.pkg.phase ∉ [.off, .dormant, .tripped]) :
    exec (.rstFall b) s = .next { (s.warned (s.pkg.phase = .powerFail ∧ b = true)).dark .inReset with
      pkg := ((s.warned (s.pkg.phase = .powerFail ∧ b = true)).dark .inReset).pkg.resetLow } := by
  change execRstFall b s = _
  unfold execRstFall
  split
  next hp => simp [hp] at h
  next hp => simp [hp] at h
  next hp => simp [hp] at h
  next => rfl

theorem exec_rstFall_unpowered (s : State) (b : Bool) (h : s.pkg.phase ∈ [.off, .tripped]) :
    exec (.rstFall b) s = .next { s with pkg := { s.pkg with rstLow := true } } := by
  change execRstFall b s = _
  unfold execRstFall
  simp only [List.mem_cons, List.not_mem_nil, or_false] at h
  obtain h | h := h <;> rw [h]

theorem exec_rstFall_dormant (s : State) (b : Bool) (h : s.pkg.phase = .dormant) :
    exec (.rstFall b) s = .next { s with pkg := { s.pkg with rstLow := true, sleepAckLow := false } } := by
  change execRstFall b s = _
  unfold execRstFall
  rw [h]

theorem exec_railLoss_stops (s : State) (b : Bool) (h : s.pkg.phase ≠ .dormant ∨ b = true) :
    exec (.railLoss b) s = .next (s.railsOff !b) := by
  change execRailLoss b s = _
  rw [execRailLoss, if_neg (by rintro ⟨hp, hb⟩; simp [hp, hb] at h)]
  cases b <;> rfl

theorem exec_railsRemoved_stops (s : State) (b : Bool) (h : s.pkg.phase ∉ [.sleepAck, .dormant] ∨ b = false) :
    exec (.railsRemoved b) s = .next (s.railsOff b) := by
  change execRailsRemoved b s = _
  rw [execRailsRemoved, if_neg (by rintro ⟨hp, hb⟩; simp [hp, hb] at h), if_neg (by rintro ⟨hp, hb⟩; simp [hp, hb] at h)]
  cases b <;> rfl

theorem exec_railsRemoved_sleeps (s : State) (h : s.pkg.phase = .sleepAck) :
    exec (.railsRemoved true) s = .next (if s.pkg.wakeLow then (s.dark .dormant).requestPower else s.dark .dormant) :=
  if_pos ⟨h, rfl⟩

/-- Settles O36: every stop is the package without clocks, with the marks of a counted warning and the levels of its own. -/
theorem stopsKeepTheNonVolatileState : Obligations.StopsKeepTheNonVolatileState := by
  intro s b
  refine ⟨fun h => ?reset, exec_rstFall_unpowered s b, exec_rstFall_dormant s b, fun h => ?loss, fun h => ?sleeps, fun h => ?removed⟩
  case reset =>
    have hmarks := s.warned_marks (s.pkg.phase = .powerFail ∧ b = true)
    refine ⟨_, exec_rstFall_stops s b h, (s.warned_stopped _ .inReset).with_pkg _ ⟨rfl, rfl, rfl⟩, rfl, rfl, rfl,
      fun hp hb => State.marks_taken (hmarks.1 ⟨hp, hb⟩), fun hn => hmarks.2 ?_⟩
    rintro ⟨hp, hb⟩
    simp [hp, hb] at hn
  case loss =>
    obtain ⟨hstop, hoff⟩ := s.railsOff_stopped !b
    obtain ⟨htaken, hkept⟩ := s.railsOff_marks !b
    refine ⟨_, exec_railLoss_stops s b h, hstop, hoff, htaken, hkept, fun hb => ?_, fun hb => ?_⟩
    · subst hb
      exact ⟨rfl, rfl, rfl⟩
    · subst hb
      have hlow : (s.railsOff true).pkg.thermtripLow = (s.warned (s.pkg.phase = .powerFail)).pkg.thermtripLow := rfl
      exact hlow.trans (by rw [State.warned_pkg])
  case sleeps =>
    have hstop := s.dark_stopped .dormant
    rcases hw : s.pkg.wakeLow
    · exact ⟨_, by rw [exec_railsRemoved_sleeps s h, hw, if_neg (by simp)], hstop, rfl, rfl, by simp, fun _ => ⟨rfl, rfl⟩⟩
    · exact ⟨(s.dark .dormant).requestPower, by rw [exec_railsRemoved_sleeps s h, hw, if_pos rfl], hstop.with_pkg _ ⟨rfl, rfl, rfl⟩, rfl, rfl, fun _ => ⟨rfl, rfl⟩, by simp⟩
  case removed =>
    obtain ⟨hstop, hoff⟩ := s.railsOff_stopped b
    obtain ⟨htaken, hkept⟩ := s.railsOff_marks b
    exact ⟨_, exec_railsRemoved_stops s b h, hstop, hoff, htaken, hkept⟩

end Sys2Proof.Machine
end

section
/-!
Dormancy (R401 to R403) and power-fail warnings (R566, R585).
-/
namespace Sys2Proof.Machine

/-! ### Undecided commands -/

theorem State.foldl_modWin_win (f : Window → Window) (hf : ∀ x, f (f x) = f x) (l : List Nat) (s : State) (w : Nat) :
    (l.foldl (fun (t : State) k => t.modWin k f) s).win w = if w ∈ l then f (s.win w) else s.win w := by
  induction l generalizing s with
  | nil => rfl
  | cons k l ih =>
    rw [List.foldl_cons, ih, State.win_modWin]
    by_cases hk : w = k <;> by_cases hl : w ∈ l <;> simp [hk, hl, hf]

theorem State.foldl_modWin_frame (f : Window → Window) (l : List Nat) (s : State) :
    l.foldl (fun (t : State) k => t.modWin k f) s =
      { s with serve := { s.serve with windows := (l.foldl (fun (t : State) k => t.modWin k f) s).serve.windows } } := by
  induction l generalizing s with
  | nil => rfl
  | cons k l ih =>
    rw [List.foldl_cons, ih]
    rfl

/-- From `s` to `t` the commands that no window has decided have been dropped (R585). -/
structure Drops (s t : State) : Prop where
  frame : t = { s with serve := { s.serve with windows := t.serve.windows } }
  wins : ∀ w, w < 16 → t.win w = { s.win w with queue := [] }

theorem State.dropUndecided_drops (s : State) : Drops s s.dropUndecided where
  frame := State.foldl_modWin_frame _ _ _
  wins w hw := by
    have hwin := State.foldl_modWin_win (fun x => { x with queue := [] }) (fun _ => rfl) (List.range 16) s w
    rwa [if_pos (List.mem_range.mpr hw)] at hwin

theorem Drops.pkg {s t : State} (h : Drops s t) : t.pkg = s.pkg := by rw [h.frame]

theorem Drops.die {s t : State} (h : Drops s t) (d : Nat) : t.die d = s.die d := by
  rw [h.frame]
  rfl

theorem Drops.mould {s t : State} (h : Drops s t) (n m : Nat) : t.mould n m = s.mould n m := by
  rw [h.frame]
  rfl

/-! ### Stopping the casts -/

theorem Mould.SameRecord.trans {a b c : Mould} (h : a.SameRecord b) (h' : b.SameRecord c) : a.SameRecord c := by
  obtain ⟨h1, h2, h3, h4, h5, h6, h7, h8, h9, h10, h11⟩ := h
  obtain ⟨g1, g2, g3, g4, g5, g6, g7, g8, g9, g10, g11⟩ := h'
  exact ⟨g1.trans h1, g2.trans h2, g3.trans h3, g4.trans h4, g5.trans h5, g6.trans h6, g7.trans h7, g8.trans h8, g9.trans h9,
    g10.trans h10, g11.trans h11⟩

/-- From `s` to `t` casts have been stopped: records stay, and beside the casts only what is to be quenched is noted (R222, R401). -/
structure CastsStop (s t : State) : Prop where
  frame : t = { s with crofts := t.crofts, dies := t.dies }
  dies : ∀ d, t.die d = { s.die d with quenchCasts := (t.die d).quenchCasts }
  records : ∀ n m, (s.mould n m).SameRecord (t.mould n m)
  idle : ∀ n m, (s.mould n m).cast = none → (t.mould n m).cast = none

theorem CastsStop.refl (s : State) : CastsStop s s := ⟨rfl, fun _ => rfl, fun _ _ => .refl _, fun _ _ h => h⟩

theorem CastsStop.trans {s t u : State} (a : CastsStop s t) (b : CastsStop t u) : CastsStop s u where
  frame := by rw [b.frame, a.frame]
  dies d := by rw [b.dies d, a.dies d]
  records n m := (a.records n m).trans (b.records n m)
  idle n m h := b.idle n m (a.idle n m h)

theorem State.noteCast_stop (s : State) (n m : Nat) : CastsStop s (s.noteCast n m) := by
  unfold State.noteCast
  split
  next =>
    refine ⟨rfl, fun d => ?_, fun _ _ => .refl _, fun _ _ h => h⟩
    rw [State.die_modDie]
    split
    next h => rw [h]
    next => rfl
  next => exact .refl s

theorem State.endCast_stop (s : State) (n m : Nat) : CastsStop s (s.modMould n m fun x => { x with cast := none }) := by
  refine ⟨rfl, fun _ => rfl, fun i j => ?_, fun i j h => ?_⟩
  · rw [State.mould_modMould]
    split
    next h =>
      obtain ⟨rfl, rfl⟩ := h
      exact ⟨rfl, rfl, rfl, rfl, rfl, rfl, rfl, rfl, rfl, rfl, rfl⟩
    next => exact .refl _
  · rw [State.mould_modMould]
    split
    next => rfl
    next => exact h

theorem State.abandonCast_stop (s : State) (n m : Nat) : CastsStop s (s.abandonCast n m) ∧ ((s.abandonCast n m).mould n m).cast = none := by
  unfold State.abandonCast
  split
  next =>
    refine ⟨(s.noteCast_stop n m).trans (State.endCast_stop _ n m), ?_⟩
    rw [State.mould_modMould_self]
  next h => exact ⟨.refl s, by simpa using h⟩

/-- The moulds that the state lists. -/
def State.listedMoulds (s : State) : List (Nat × Nat) := s.crofts.flatMap fun e => e.2.moulds.map fun m => (e.1, m.1)

/-- A mould that the state does not list is as made, in no cast. -/
theorem State.unlisted_idle (s : State) (n m : Nat) (h : (n, m) ∉ s.listedMoulds) : (s.mould n m).cast = none := by
  have hmould : s.mould n m = freshMould m := by
    obtain hc | hc := tget_cases (fun _ => ({} : Croft)) s.crofts n
    · change (tget (fun _ => ({} : Croft)) s.crofts n).mould m = _
      rw [hc]
      rfl
    · obtain hm | hm := tget_cases freshMould (s.croft n).moulds m
      · exact hm
      · exact absurd (List.mem_flatMap.mpr ⟨_, hc, List.mem_map.mpr ⟨_, hm, rfl⟩⟩) h
  rw [hmould]
  exact (freshMould_idle m).1

theorem State.stopCasts_eq (s : State) : s.stopCasts = s.listedMoulds.foldl (fun (u : State) p => u.abandonCast p.1 p.2) s := by
  simp only [State.stopCasts, State.listedMoulds, List.foldl_flatMap, List.foldl_map]

theorem abandonCasts_stop (l : List (Nat × Nat)) (s : State) :
    CastsStop s (l.foldl (fun (u : State) p => u.abandonCast p.1 p.2) s) ∧
      ∀ p ∈ l, ((l.foldl (fun (u : State) p => u.abandonCast p.1 p.2) s).mould p.1 p.2).cast = none := by
  induction l generalizing s with
  | nil => exact ⟨.refl s, by simp⟩
  | cons q l ih =>
    obtain ⟨hstep, hcast⟩ := s.abandonCast_stop q.1 q.2
    obtain ⟨hrest, hlisted⟩ := ih (s.abandonCast q.1 q.2)
    refine ⟨hstep.trans hrest, fun p hp => ?_⟩
    rw [List.mem_cons] at hp
    obtain rfl | hp := hp
    · exact hrest.idle _ _ hcast
    · exact hlisted p hp

/-- Casting stops: no mould is in a cast any more (R401). -/
theorem State.stopCasts_stop (s : State) : CastsStop s s.stopCasts ∧ ∀ n m, (s.stopCasts.mould n m).cast = none := by
  obtain ⟨hstop, hlisted⟩ := abandonCasts_stop s.listedMoulds s
  rw [← s.stopCasts_eq] at hstop hlisted
  refine ⟨hstop, fun n m => ?_⟩
  by_cases h : (n, m) ∈ s.listedMoulds
  · exact hlisted _ h
  · exact hstop.idle n m (s.unlisted_idle n m h)

/-! ### The commands -/

theorem Phase.answers_entry {p : Phase} (h : p ∈ [.service, .starting, .entering, .powerFail]) : p.answers = true := by
  simp only [List.mem_cons, List.not_mem_nil, or_false] at h
  obtain rfl | rfl | rfl | rfl := h <;> rfl

theorem exec_dormantEnter_answers (s : State) (v : Word) (h : s.answers = true) :
    exec (.dormantEnter v) s = .next (s.writeDormant v).1 :=
  s.access_answers (.dormantEnter v) (fun t => (t.writeDormant v).1) h

theorem State.writeDormant_busy (s : State) (v : Word) (hv : v.bit 0 = true) (h : s.dormantBusy = true ∨ s.pkg.phase ≠ .service) :
    s.writeDormant v = s.refuse .sys 0x128 .busy :=
  (if_neg (by simp [hv])).trans (if_pos h)

/-- A state on its way into dormancy. -/
def State.entering (s : State) : State := { s with pkg := { s.pkg with phase := .entering } }

theorem State.writeDormant_enters (s : State) (v : Word) (hp : s.pkg.phase = .service) (hv : v.bit 0 = true) (hb : s.dormantBusy = false) :
    s.writeDormant v = ok s.dropUndecided.entering := by
  rw [State.entering, s.dropUndecided_drops.pkg]
  exact (if_neg (by simp [hv])).trans (if_neg (by simp [hp, hb]))

/-- The state with the casts stopped, the marks written and SLEEP_ACK_N low. -/
def State.asleep (s : State) : State :=
  { s.stopCasts.writeMarks with pkg := { s.stopCasts.writeMarks.pkg with phase := .sleepAck, sleepAckLow := true } }

theorem State.asleep_marks (s : State) : s.asleep.serve.marks = s.stopCasts.writeMarks.serve.marks := by
  rw [State.asleep]

theorem exec_dormancyAck_enters (s : State) (h : s.pkg.phase = .entering) : exec .dormancyAck s = .next s.asleep := if_pos h

theorem exec_dormancyAck_idle (s : State) (h : s.pkg.phase ≠ .entering) : exec .dormancyAck s = .next s := if_neg h

/-- A state at a counted power-fail warning: the casts have stopped. -/
def State.failing (s : State) : State := { s.stopCasts with pkg := { s.stopCasts.pkg with phase := .powerFail } }

theorem State.failing_frame (s : State) :
    s.failing = { s with pkg := { s.pkg with phase := .powerFail }, crofts := s.stopCasts.crofts, dies := s.stopCasts.dies } := by
  rw [State.failing, s.stopCasts_stop.1.frame]

theorem exec_pfailWarning_counts (s : State) (ns : Nat) (hp : s.pkg.phase ∈ [.starting, .service, .warmReset, .entering])
    (hns : 1000 ≤ ns) : exec (.pfailWarning ns) s = .next s.dropUndecided.failing :=
  if_pos ⟨hns, hp⟩

theorem exec_pfailWarning_short (s : State) (ns : Nat) (h : ns < 1000) : exec (.pfailWarning ns) s = .next s :=
  if_neg fun hn => absurd hn.1 (by omega)

theorem exec_wake_dormant (s : State) (ns : Nat) (h : s.pkg.phase = .dormant) :
    exec (.wake ns) s = .next (if 10000 ≤ ns then s.requestPower else s) := by
  change execWake ns s = _
  rw [execWake, h]

theorem exec_wake_level (s : State) (ns : Nat) (h : s.pkg.phase ∈ [.starting, .service, .warmReset, .entering, .sleepAck]) :
    exec (.wake ns) s = .next { s with pkg := { s.pkg with wakeLow := decide (0 < ns) } } := by
  change execWake ns s = _
  rw [execWake]
  simp only [List.mem_cons, List.not_mem_nil, or_false] at h
  obtain h | h | h | h | h := h <;> rw [h]

theorem Drops.enter {s u : State} (h : Drops s u) :
    u.entering.pkg = { s.pkg with phase := .entering } ∧ (∀ w, w < 16 → u.entering.win w = { s.win w with queue := [] }) ∧
      u.entering = { s with pkg := u.entering.pkg, serve := { s.serve with windows := u.entering.serve.windows } } := by
  refine ⟨by rw [State.entering, h.pkg], h.wins, ?_⟩
  rw [State.entering, h.frame]

theorem Drops.fail {s u : State} (h : Drops s u) :
    u.failing.pkg = { s.pkg with phase := .powerFail } ∧ (∀ w, w < 16 → u.failing.win w = { s.win w with queue := [] }) ∧
      (∀ n m, (u.failing.mould n m).cast = none ∧ (s.mould n m).SameRecord (u.failing.mould n m)) ∧
      (∀ d, u.failing.die d = { s.die d with quenchCasts := (u.failing.die d).quenchCasts }) ∧
      u.failing = { s with
        pkg := u.failing.pkg, crofts := u.failing.crofts, dies := u.failing.dies, serve := { s.serve with windows := u.failing.serve.windows } } := by
  obtain ⟨hstop, hidle⟩ := u.stopCasts_stop
  refine ⟨?_, fun w hw => ?_, fun n m => ⟨hidle n m, ?_⟩, fun d => ?_, ?_⟩
  · rw [u.failing_frame, h.pkg]
  · rw [← h.wins w hw, u.failing_frame]
    rfl
  · rw [← h.mould]
    exact hstop.records n m
  · rw [← h.die]
    exact hstop.dies d
  · rw [u.failing_frame, h.frame]

/-- Settles O37: entry, acknowledgement and warning are the dropped commands, the stopped casts and the written marks, each as its own rule. -/
theorem dormancyAndPowerFailing : Obligations.DormancyAndPowerFailing := by
  intro s v ns
  refine ⟨fun hp hv hb => ?enters, fun hp hv hb => ?busy, fun hp hv => ?unready, fun hp => ?ack, exec_dormancyAck_idle s,
    fun hp hns => ?request, fun hp hns => ?short, exec_wake_level s ns, fun hp hns => ?warning, exec_pfailWarning_short s ns⟩
  case enters =>
    have hs : s.answers = true := Phase.answers_entry (by simp [hp])
    exact ⟨_, exec_of_written (exec_dormantEnter_answers s v hs) (s.writeDormant_enters v hp hv hb), s.dropUndecided_drops.enter⟩
  case busy =>
    have hs : s.answers = true := Phase.answers_entry (by simp [hp])
    exact refused_of_written (exec_dormantEnter_answers s v hs) (s.writeDormant_busy v hv (.inl hb))
  case unready =>
    have hs : s.answers = true := Phase.answers_entry (List.mem_cons_of_mem _ hp)
    refine refused_of_written (exec_dormantEnter_answers s v hs) (s.writeDormant_busy v hv (.inr fun h => ?_))
    simp [h] at hp
  case ack =>
    obtain ⟨hstop, hidle⟩ := s.stopCasts_stop
    have hpkg : s.stopCasts.pkg = s.pkg := by rw [hstop.frame]
    have hwin (w : Nat) : s.stopCasts.win w = s.win w := by
      rw [hstop.frame]
      rfl
    refine ⟨_, exec_dormancyAck_enters s hp, ?_, fun w hw => ?_, fun n m => ⟨hidle n m, hstop.records n m⟩, hstop.dies, ?_⟩
    · rw [← hpkg]
      rfl
    · have := State.marks_taken (s := s.stopCasts) (t := s.asleep) s.asleep_marks w hw
      rwa [hwin] at this
    · rw [State.asleep, State.writeMarks_eq, hstop.frame]
  case request => rw [exec_wake_dormant s ns hp, if_pos hns, State.requestPower]
  case short => rw [exec_wake_dormant s ns hp, if_neg (by omega)]
  case warning =>
    exact ⟨_, exec_pfailWarning_counts s ns hp hns, s.dropUndecided_drops.fail⟩

end Sys2Proof.Machine
end

section
/-!
What a fence does (R250, R251, R254), and marks of steps (R204, R226, R587).
-/
namespace Sys2Proof.Machine

/-! ### Coordinates of fenced crofts -/

theorem croftDie_num (c : CroftAt) : croftDie c.num = c.die.val := by
  have hrow := c.row.isLt
  have hcol := c.col.isLt
  unfold croftDie CroftAt.num
  omega

/-- From `s` to `t` coordinates of fenced crofts have gone to spares or have degraded their die: a fenced croft is as it was. -/
structure Coordinated (s t : State) : Prop where
  frame : t = { s with crofts := t.crofts, dies := t.dies }
  fenced : ∀ n, (s.croft n).service = some .fenced → t.croft n = s.croft n
  foot : ∀ d, (t.die d).footMarked = (s.die d).footMarked

theorem Coordinated.refl (s : State) : Coordinated s s := ⟨rfl, fun _ _ => rfl, fun _ => rfl⟩

theorem Coordinated.trans {s t u : State} (a : Coordinated s t) (b : Coordinated t u) : Coordinated s u where
  frame := by rw [b.frame, a.frame]
  fenced n h := (b.fenced n (by rwa [a.fenced n h])).trans (a.fenced n h)
  foot d := (b.foot d).trans (a.foot d)

theorem State.degrade_coordinated (s : State) (d : Nat) : Coordinated s (s.degrade d) := by
  refine ⟨rfl, fun _ _ => rfl, fun e => ?_⟩
  rw [State.degrade, State.die_modDie]
  split
  next h => rw [h]
  next => rfl

theorem nearerSpare_mem {free : List Nat} {p q : Nat} (h : nearerSpare free p = some q) : q ∈ free := by
  unfold nearerSpare at h
  split at h
  next a b =>
    dsimp only at h
    split at h <;> simp_all
  next a => simp_all
  next => cases h

theorem State.freeSpare_service {s : State} {d r q : Nat} (h : q ∈ s.freeSpareCrofts d r) : s.service q = .spare := by
  have := (List.mem_filter.mp h).2
  simp only [Bool.and_eq_true, beq_iff_eq] at this
  exact this.1

theorem State.takeCoordinate_coordinated (s : State) (n col : Nat) : Coordinated s (s.takeCoordinate n col) := by
  unfold State.takeCoordinate
  dsimp only
  split
  next => exact s.degrade_coordinated _
  next q hq =>
    have hspare : s.service q = .spare := State.freeSpare_service (nearerSpare_mem hq)
    refine ⟨rfl, fun m hm => ?_, fun e => ?_⟩
    · rw [State.modDie_croft]
      refine State.croft_modCroft_ne _ _ fun he => ?_
      subst he
      simp [State.service, hm] at hspare
    · rw [State.die_modDie]
      split
      next h => rw [h, State.modCroft_die]
      next => rw [State.modCroft_die]

theorem State.takeCoordinates_coordinated (s : State) (n : Nat) (l : List Nat) :
    Coordinated s (l.foldl (fun (t : State) c => t.takeCoordinate n c) s) :=
  List.foldlRecOn l _ (motive := fun t => Coordinated s t) (.refl s) fun t ht c _ => ht.trans (t.takeCoordinate_coordinated n c)

/-! ### Fences -/

/-- A croft that is out of the fabric (R250). -/
def Croft.fencedOff (c : Croft) : Croft := { c.endCasts with service := some .fenced }

/-- From `s` to `t` croft `n` has been fenced, unless it was: nothing but crofts, dies and the croft's error record has moved. -/
structure Fenced (s t : State) (n : Nat) : Prop where
  frame : t = { s with regs := t.regs, stew := t.stew, crofts := t.crofts, dies := t.dies }
  service : t.service n = .fenced
  croft : t.croft n = s.croft n ∨ t.croft n = (s.croft n).fencedOff
  regs : ∀ a, a ∉ errorRegs (.croft n) → t.regAt a = s.regAt a
  foot : ∀ d, (t.die d).footMarked = (s.die d).footMarked

theorem Coordinated.reg {s t : State} (h : Coordinated s t) (a : Nat) : t.regAt a = s.regAt a := by
  rw [h.frame]
  rfl

/-- The crofts and dies as a fence leaves them, before its record. -/
def State.fenceMarked (s : State) (n : Nat) : State :=
  (s.modCroft n Croft.fencedOff).modDie (croftDie n) fun x =>
    { x with quenchCrofts := x.quenchCrofts ++ [n], spareJobs := x.spareJobs.filter fun j => j.spare != n }

theorem State.fenceOnly_logged (s : State) (n : Nat) : LoggedIn (s.fenceMarked n) (s.fenceOnly n) (.croft n) .fenced :=
  State.logError_logged _ _ _ _ _ _ _ (base_ne_lost _ (base_aligned _))

theorem LoggedIn.croft {s t : State} {p : Page} {c : Code} (h : LoggedIn s t p c) (n : Nat) : t.croft n = s.croft n := by
  rw [h.1]
  rfl

theorem LoggedIn.die {s t : State} {p : Page} {c : Code} (h : LoggedIn s t p c) (n : Nat) : t.die n = s.die n := by
  rw [h.1]
  rfl

theorem State.fenceOnly_fenced (s : State) (n : Nat) : Fenced s (s.fenceOnly n) n := by
  have hlog := s.fenceOnly_logged n
  have hcroft : (s.fenceOnly n).croft n = (s.croft n).fencedOff := (hlog.croft n).trans (s.croft_modCroft_self n _)
  refine ⟨?_, ?_, .inr hcroft, hlog.2.1, fun d => ?_⟩
  · rw [hlog.1]
    rfl
  · rw [State.service, hcroft]
    rfl
  · rw [hlog.die, State.fenceMarked, State.die_modDie]
    split
    next h => rw [h, State.modCroft_die]
    next => rw [State.modCroft_die]

theorem Fenced.coordinated {s t u : State} {n : Nat} (a : Fenced s t n) (hs : (t.croft n).service = some .fenced) (b : Coordinated t u) :
    Fenced s u n where
  frame := by rw [b.frame, a.frame]
  service := by rw [State.service, b.fenced n hs]; exact a.service
  croft := by rw [b.fenced n hs]; exact a.croft
  regs x hx := (b.reg x).trans (a.regs x hx)
  foot d := (b.foot d).trans (a.foot d)

/-- A fence leaves its croft fenced (R250). -/
theorem State.fence_fenced (s : State) (n : Nat) : Fenced s (s.fence n) n := by
  unfold State.fence
  split
  next h => exact ⟨rfl, h, .inl rfl, fun _ _ => rfl, fun _ => rfl⟩
  next =>
    have hcroft : (s.fenceOnly n).croft n = (s.croft n).fencedOff := ((s.fenceOnly_logged n).croft n).trans (s.croft_modCroft_self n _)
    exact (s.fenceOnly_fenced n).coordinated (by rw [hcroft]; rfl) ((s.fenceOnly n).takeCoordinates_coordinated n _)

theorem Fenced.serve {s t : State} {n : Nat} (h : Fenced s t n) : t.serve = s.serve := by rw [h.frame]

/-- The registers of a die's own pages are no croft's error record. -/
theorem errorRegs_croft_other (c : CroftAt) (p : Page) (off : Nat)
    (hp : p = .pad c.die.val ∨ p = .foot c.die.val ∨ p = .gran c.die.val) (hoff : off < 0x1000) :
    p.base + off ∉ errorRegs (.croft c.num) := by
  have hrow := c.row.isLt
  have hcol := c.col.isLt
  have hdie : c.num / 2048 = c.die.val := croftDie_num c
  have hbase : (Page.croft c.num).base = dieBase c.die.val + (256 + c.num % 2048) * 0x1000 := by rw [Page.base, hdie]
  simp only [errorRegs, List.mem_cons, List.not_mem_nil, or_false, hbase, dieBase]
  obtain rfl | rfl | rfl := hp <;> simp only [Page.base, dieBase] <;> omega

/-! ### Marks of steps -/

theorem Step.addMark_id (x : Step) (c : Cause) : (x.addMark c).id = x.id := by
  unfold Step.addMark
  split <;> rfl

theorem Step.mem_addMark (x : Step) (c : Cause) : c ∈ (x.addMark c).marks := by
  unfold Step.addMark
  split
  next h => exact h
  next => simp

theorem Step.addMark_keeps (x : Step) (c k : Cause) (h : k ∈ x.marks) : k ∈ (x.addMark c).marks := by
  unfold Step.addMark
  split
  next => exact h
  next => simp [h]

/-- A changed step is found under its number. -/
theorem State.findStep_modStep (s : State) (i : Nat) (f : Step → Step) (hf : ∀ x, (f x).id = x.id) :
    (s.modStep i f).findStep i = (s.findStep i).map f := by
  simp only [State.findStep, State.modStep]
  induction s.serve.steps with
  | nil => rfl
  | cons x l ih =>
    by_cases h : x.id = i
    · simp [h, hf]
    · simp [h, ih]

/-- The step that an error names carries its mark: what marking in flight comes to (R204). -/
def State.Marked (s t : State) (step : Nat) (c : Cause) : Prop :=
  (s.findStep step).isSome = true → ∀ x, t.findStep step = some x → c ∈ x.marks

theorem State.Marked.of_serve {s t u : State} {step : Nat} {c : Cause} (h : State.Marked s t step c) (hu : u.serve = t.serve) :
    State.Marked s u step c := by
  intro hs x hx
  rw [State.findStep, hu] at hx
  exact h hs x hx

theorem State.markStep_marked (s : State) (step : Nat) (c : Cause) : State.Marked s (s.markStep step c) step c := by
  intro _ x hx
  rw [State.markStep, State.findStep_modStep _ _ _ fun x => x.addMark_id c, Option.map_eq_some_iff] at hx
  obtain ⟨y, -, rfl⟩ := hx
  exact y.mem_addMark c

theorem State.markAndCount_marked (s : State) (step : Nat) (c : Cause) (p : Page) (off : Nat) :
    State.Marked s (s.markAndCount step c p off) step c := by
  unfold State.markAndCount
  split
  next x hx =>
    split
    next hc =>
      intro _ y hy
      rw [hx] at hy
      exact Option.some.inj hy ▸ hc
    next => exact (s.markStep_marked step c).of_serve rfl
  next h =>
    intro hs
    simp [h] at hs

/-- Marking and counting moves the steps and one counter. -/
theorem State.markAndCount_frame (s : State) (step : Nat) (c : Cause) (p : Page) (off : Nat) :
    s.markAndCount step c p off = { s with
      regs := (s.markAndCount step c p off).regs, serve := { s.serve with steps := (s.markAndCount step c p off).serve.steps } } := by
  unfold State.markAndCount
  split
  next x hx => split <;> rfl
  next => rfl

theorem State.markAndCount_regAt (s : State) (step : Nat) (c : Cause) (p : Page) (off : Nat) {a : Nat} (ha : a ≠ p.base + off) :
    (s.markAndCount step c p off).regAt a = s.regAt a := by
  unfold State.markAndCount
  split
  next x hx =>
    split
    next => rfl
    next => exact (State.regAt_bump _ _ _ _ _).trans (if_neg ha)
  next => rfl

end Sys2Proof.Machine
end

section
/-!
Parity errors in pads (R204, R207 to R210, R213).
-/
namespace Sys2Proof.Machine

/-! ### The note of an error in a pad row -/

/-- A bad word of a pad is noted in its croft. -/
def Croft.notedBad (c : Croft) (ps : Bool) (at_ : Nat) : Croft :=
  if ps then { c with psBad := at_ :: c.psBad.filter fun w => w != at_ } else { c with actBad := at_ :: c.actBad.filter fun w => w != at_ }

/-- The state with an error in a pad row logged, counted, marked and noted. -/
def State.padNoted (s : State) (n : Nat) (ps : Bool) (row word step : Nat) : State :=
  ((((s.logError (.pad (croftDie n)) .parity (padAddr (b2n ps) (croftRow n) (croftCol n) row word) 5 n).bump
    (.pad (croftDie n)) 0x100 1).markAndCount step .parity (.pad (croftDie n)) 0x110).gatherMark n step .parity).modCroft n fun c =>
      c.notedBad ps (64 * (s.die (croftDie n)).padRow n ps row + word)

/-- What the note of an error in a pad row does. -/
structure PadNoted (s t : State) (n step : Nat) : Prop where
  marked : State.Marked s t step .parity
  dies : t.dies = s.dies
  clock : t.clock = s.clock
  others : ∀ k, k ≠ n → t.croft k = s.croft k
  service : (t.croft n).service = (s.croft n).service
  watchAct : (t.croft n).watchAct = (s.croft n).watchAct
  watchPs : (t.croft n).watchPs = (s.croft n).watchPs
  code : (s.reg (.pad (croftDie n)) 0x020).field 32 8 = 0 → (t.reg (.pad (croftDie n)) 0x020).field 32 8 = Code.parity.num
  count : t.reg (.pad (croftDie n)) 0x100 = satAdd (s.reg (.pad (croftDie n)) 0x100) 1

/-- A log keeps every register of its page outside the error record. -/
theorem LoggedIn.reg_other {s t : State} {p : Page} {c : Code} (h : LoggedIn s t p c) (off : Nat) (hlo : 0x100 ≤ off)
    (hne : p.base + off ≠ 0x4148) : t.reg p off = s.reg p off := by
  refine h.2.1 _ ?_
  simp only [errorRegs, List.mem_cons, List.not_mem_nil, or_false]
  omega

theorem LoggedIn.code {s t : State} {p : Page} {c : Code} (h : LoggedIn s t p c) (h0 : (s.reg p 0x020).field 32 8 = 0) :
    (t.reg p 0x020).field 32 8 = c.num := by
  have := h.2.2
  rw [if_pos h0] at this
  exact this.1

theorem pad_base_ne_lost (d off : Nat) : (Page.pad d).base + off ≠ 0x4148 := by
  simp only [Page.base, dieBase]
  omega

theorem State.gatherMark_croft (s : State) (n step : Nat) (c : Cause) :
    ((s.gatherMark n step c).croft n).service = (s.croft n).service ∧ ((s.gatherMark n step c).croft n).watchAct = (s.croft n).watchAct ∧
      ((s.gatherMark n step c).croft n).watchPs = (s.croft n).watchPs := by
  rw [State.gatherMark, State.croft_modCroft_self]
  split <;> exact ⟨rfl, rfl, rfl⟩

theorem Croft.notedBad_keeps (c : Croft) (ps : Bool) (at_ : Nat) :
    (c.notedBad ps at_).service = c.service ∧ (c.notedBad ps at_).watchAct = c.watchAct ∧ (c.notedBad ps at_).watchPs = c.watchPs := by
  cases ps <;> exact ⟨rfl, rfl, rfl⟩

/-- The state with an error logged, counted and marked, before the croft notes it. -/
def State.padCounted (s : State) (d addr n step : Nat) : State :=
  ((s.logError (.pad d) .parity addr 5 n).bump (.pad d) 0x100 1).markAndCount step .parity (.pad d) 0x110

theorem State.padCounted_logged (s : State) (d addr n : Nat) : LoggedIn s (s.logError (.pad d) .parity addr 5 n) (.pad d) .parity :=
  s.logError_logged _ _ _ _ _ _ (base_ne_lost _ (base_aligned _))

theorem State.padCounted_frame (s : State) (d addr n step : Nat) :
    s.padCounted d addr n step = { s with
      regs := (s.padCounted d addr n step).regs, stew := (s.padCounted d addr n step).stew
      serve := { s.serve with steps := (s.padCounted d addr n step).serve.steps } } := by
  unfold State.padCounted
  rw [State.markAndCount_frame, State.bump, State.setReg, (s.padCounted_logged d addr n).1]

theorem State.padCounted_marked (s : State) (d addr n step : Nat) : State.Marked s (s.padCounted d addr n step) step .parity := by
  have hserve : ((s.logError (.pad d) .parity addr 5 n).bump (.pad d) 0x100 1).serve = s.serve := by
    rw [State.bump, State.setReg, (s.padCounted_logged d addr n).1]
  intro hs x hx
  refine State.markAndCount_marked _ step .parity (.pad d) 0x110 ?_ x hx
  rwa [State.findStep, hserve]

theorem State.padCounted_reg (s : State) (d addr n step off : Nat) (h : off = 0x020 ∨ off = 0x100) :
    (s.padCounted d addr n step).reg (.pad d) off =
      ((s.logError (.pad d) .parity addr 5 n).bump (.pad d) 0x100 1).reg (.pad d) off :=
  State.markAndCount_regAt _ _ _ _ _ (by omega)

theorem State.padNoted_noted (s : State) (n : Nat) (ps : Bool) (row word step : Nat) : PadNoted s (s.padNoted n ps row word step) n step := by
  have hlog := s.padCounted_logged (croftDie n) (padAddr (b2n ps) (croftRow n) (croftCol n) row word) n
  have hframe := s.padCounted_frame (croftDie n) (padAddr (b2n ps) (croftRow n) (croftCol n) row word) n step
  have hmarked := s.padCounted_marked (croftDie n) (padAddr (b2n ps) (croftRow n) (croftCol n) row word) n step
  have hreg := s.padCounted_reg (croftDie n) (padAddr (b2n ps) (croftRow n) (croftCol n) row word) n step
  have ht : s.padNoted n ps row word step =
      ((s.padCounted (croftDie n) (padAddr (b2n ps) (croftRow n) (croftCol n) row word) n step).gatherMark n step .parity).modCroft n fun c =>
        c.notedBad ps (64 * (s.die (croftDie n)).padRow n ps row + word) := rfl
  rw [ht]
  have hcroft (k : Nat) : (s.padCounted (croftDie n) (padAddr (b2n ps) (croftRow n) (croftCol n) row word) n step).croft k = s.croft k := by
    rw [hframe]
    rfl
  generalize s.padCounted (croftDie n) (padAddr (b2n ps) (croftRow n) (croftCol n) row word) n step = u at *
  obtain ⟨hservice, hact, hps⟩ := u.gatherMark_croft n step .parity
  rw [hcroft] at hservice hact hps
  obtain ⟨hbad, hbad', hbad''⟩ := ((u.gatherMark n step .parity).croft n).notedBad_keeps ps (64 * (s.die (croftDie n)).padRow n ps row + word)
  refine ⟨hmarked.of_serve rfl, by rw [hframe]; rfl, by rw [hframe]; rfl, fun k hk => ?_, ?_, ?_, ?_, fun h0 => ?_, ?_⟩
  · rw [State.croft_modCroft_ne _ _ hk, State.gatherMark, State.croft_modCroft_ne _ _ hk, hcroft]
  · rw [State.croft_modCroft_self, hbad, hservice]
  · rw [State.croft_modCroft_self, hbad', hact]
  · rw [State.croft_modCroft_self, hbad'', hps]
  · rw [State.modCroft_reg, State.gatherMark, State.modCroft_reg, hreg 0x020 (.inl rfl), State.bump,
      State.reg_setReg_off _ _ _ _ _ (by decide)]
    exact hlog.code h0
  · rw [State.modCroft_reg, State.gatherMark, State.modCroft_reg, hreg 0x100 (.inr rfl), State.bump, State.reg_setReg_self,
      hlog.reg_other 0x100 (by decide) (pad_base_ne_lost _ _)]

/-! ### What follows the note -/

/-- From `s` to `t` neither steps nor the two registers of a die's pads that an error moves have moved. -/
structure PadKeeps (s t : State) (d : Nat) : Prop where
  serve : t.serve = s.serve
  code : t.reg (.pad d) 0x020 = s.reg (.pad d) 0x020
  count : t.reg (.pad d) 0x100 = s.reg (.pad d) 0x100

theorem Fenced.padKeeps {s t : State} {c : CroftAt} (h : Fenced s t c.num) : PadKeeps s t (croftDie c.num) := by
  rw [croftDie_num]
  exact ⟨h.serve, h.regs _ (errorRegs_croft_other c _ _ (.inl rfl) (by decide)), h.regs _ (errorRegs_croft_other c _ _ (.inl rfl) (by decide))⟩

theorem State.bump_padKeeps (s : State) (d off : Nat) (h : off ≠ 0x020 ∧ off ≠ 0x100) : PadKeeps s (s.bump (.pad d) off 1) d :=
  ⟨State.bump_serve _ _ _ _, State.reg_setReg_off _ _ _ _ _ (Ne.symm h.1), State.reg_setReg_off _ _ _ _ _ (Ne.symm h.2)⟩

theorem PadKeeps.trans {s t u : State} {d : Nat} (a : PadKeeps s t d) (b : PadKeeps t u d) : PadKeeps s u d :=
  ⟨b.serve.trans a.serve, b.code.trans a.code, b.count.trans a.count⟩

theorem State.modCroft_padKeeps (s : State) (n d : Nat) (f : Croft → Croft) : PadKeeps s (s.modCroft n f) d := ⟨rfl, rfl, rfl⟩

theorem State.modDie_padKeeps (s : State) (n d : Nat) (f : Die → Die) : PadKeeps s (s.modDie n f) d := ⟨rfl, rfl, rfl⟩

theorem PadKeeps.refl (s : State) (d : Nat) : PadKeeps s s d := ⟨rfl, rfl, rfl⟩

/-- A row is watched no longer. -/
def Croft.unwatch (c : Croft) (ps : Bool) (row : Nat) : Croft :=
  if ps then { c with watchPs := c.watchPs.filter fun w => w.row != row } else { c with watchAct := c.watchAct.filter fun w => w.row != row }

/-- The die with a pad row mapped to a spare (R208). -/
def Die.mapPadRow (x : Die) (n e row : Nat) : Die :=
  { x with padMap := tset x.padMap (padMapKey n e) row, padMapPending := x.padMapPending ++ [(n, e)], mapLocked := true, fieldMapped := true }

/-- The state with a row of a pad mapped out. -/
def State.padMapped (s : State) (n e : Nat) (ps : Bool) (row : Nat) : State :=
  ((((s.bump (.pad (croftDie n)) 0x118 1).bump (.pad (croftDie n)) 0x120 1).modCroft n fun c => c.unwatch ps row).modDie (croftDie n)
    fun x => x.mapPadRow n e row)

theorem State.padSecond_maps (s : State) (n : Nat) (ps : Bool) (row e : Nat) (h : (s.die (croftDie n)).freePadEntry n ps = some e) :
    s.padSecond n ps row = s.padMapped n e ps row := by
  simp only [State.padSecond, h]
  rfl

theorem State.padSecond_fences (s : State) (n : Nat) (ps : Bool) (row : Nat) (h : (s.die (croftDie n)).freePadEntry n ps = none) :
    s.padSecond n ps row = (s.bump (.pad (croftDie n)) 0x118 1).fence n := by
  simp only [State.padSecond, h]

theorem State.padMapped_keeps (s : State) (n e : Nat) (ps : Bool) (row : Nat) : PadKeeps s (s.padMapped n e ps row) (croftDie n) :=
  (((s.bump_padKeeps (croftDie n) 0x118 (by decide)).trans (State.bump_padKeeps _ (croftDie n) 0x120 (by decide))).trans
    (State.modCroft_padKeeps _ _ _ _)).trans (State.modDie_padKeeps _ _ _ _)

theorem State.padSecond_keeps (s : State) (c : CroftAt) (ps : Bool) (row : Nat) :
    PadKeeps s (s.padSecond c.num ps row) (croftDie c.num) := by
  rcases h : (s.die (croftDie c.num)).freePadEntry c.num ps with _ | e
  · rw [s.padSecond_fences _ _ _ h]
    exact (s.bump_padKeeps (croftDie c.num) 0x118 (by decide)).trans (State.fence_fenced _ _).padKeeps
  · rw [s.padSecond_maps _ _ _ _ h]
    exact s.padMapped_keeps _ _ _ _

/-- The watch list of a pad. -/
def Croft.watch (c : Croft) (ps : Bool) : List Watch := if ps then c.watchPs else c.watchAct

def Croft.setWatch (c : Croft) (ps : Bool) (l : List Watch) : Croft := if ps then { c with watchPs := l } else { c with watchAct := l }

/-- An error of a pad row in map mode: a watched row fails again, another is watched from now on (R207). -/
theorem State.padError_map (s : State) (n : Nat) (ps : Bool) (row word step : Nat) (h : (s.die (croftDie n)).mapMode = true) :
    s.padError n ps row word step =
      if watched ((s.croft n).watch ps) row (s.reeveTime (croftDie n)) then (s.padNoted n ps row word step).padSecond n ps row
      else (s.padNoted n ps row word step).modCroft n fun c =>
        c.setWatch ps (watchAdd ((s.croft n).watch ps) 2 row (s.reeveTime (croftDie n))) :=
  if_pos h

/-- The bells at which a croft's pads have shown errors, with the next one (R213). -/
def State.parityBells (s : State) (n : Nat) : List Nat :=
  if s.clock.nextBell ∈ (s.croft n).parityBells.filter fun t => decide (s.clock.nextBell ≤ t + oneSecond) then
    (s.croft n).parityBells.filter fun t => decide (s.clock.nextBell ≤ t + oneSecond)
  else ((s.croft n).parityBells.filter fun t => decide (s.clock.nextBell ≤ t + oneSecond)) ++ [s.clock.nextBell]

/-- An error of a pad row in detect mode (R213). -/
theorem State.padError_detect (s : State) (n : Nat) (ps : Bool) (row word step : Nat) (h : (s.die (croftDie n)).mapMode = false) :
    s.padError n ps row word step =
      if s.marks step = false then s.padNoted n ps row word step
      else if 3 ≤ (s.parityBells n).length then
        ((s.padNoted n ps row word step).modCroft n fun c => { c with parityBells := s.parityBells n }).fence n
      else (s.padNoted n ps row word step).modCroft n fun c => { c with parityBells := s.parityBells n } :=
  if_neg (by simp [h])

theorem State.padError_keeps (s : State) (c : CroftAt) (ps : Bool) (row word step : Nat) :
    PadKeeps (s.padNoted c.num ps row word step) (s.padError c.num ps row word step) (croftDie c.num) := by
  rcases hmode : (s.die (croftDie c.num)).mapMode
  · rw [s.padError_detect _ _ _ _ _ hmode]
    split
    next => exact .refl _ _
    next =>
      split
      next => exact (State.modCroft_padKeeps _ _ _ _).trans (State.fence_fenced _ _).padKeeps
      next => exact State.modCroft_padKeeps _ _ _ _
  · rw [s.padError_map _ _ _ _ _ hmode]
    split
    next => exact State.padSecond_keeps _ _ _ _
    next => exact State.modCroft_padKeeps _ _ _ _

/-- A step that an error in a pad row names is marked; the error is counted, and logged where none was (R204). -/
theorem State.padError_noted (s : State) (c : CroftAt) (ps : Bool) (row word step : Nat) :
    State.Marked s (s.padError c.num ps row word step) step .parity ∧
      ((s.reg (.pad c.die.val) 0x020).field 32 8 = 0 →
        ((s.padError c.num ps row word step).reg (.pad c.die.val) 0x020).field 32 8 = Code.parity.num) ∧
      (s.padError c.num ps row word step).reg (.pad c.die.val) 0x100 = satAdd (s.reg (.pad c.die.val) 0x100) 1 := by
  have hnote := s.padNoted_noted c.num ps row word step
  have hkeep := s.padError_keeps c ps row word step
  rw [← croftDie_num]
  exact ⟨hnote.marked.of_serve hkeep.serve, fun h0 => by rw [hkeep.code]; exact hnote.code h0, hkeep.count.trans hnote.count⟩

theorem PadNoted.die {s t : State} {n step : Nat} (h : PadNoted s t n step) (d : Nat) : t.die d = s.die d := by
  rw [State.die, h.dies, State.die]

/-- A second error of a watched row maps it out, or without a spare row fences its croft (R207 to R209). -/
theorem State.padError_watched (s : State) (c : CroftAt) (ps : Bool) (row word step : Nat) (hmode : (s.die c.die.val).mapMode = true)
    (hw : watched ((s.croft c.num).watch ps) row (s.reeveTime c.die.val) = true) :
    (∀ e, (s.die c.die.val).freePadEntry c.num ps = some e →
      tfind ((s.padError c.num ps row word step).die c.die.val).padMap (padMapKey c.num e) = some row ∧
      ((s.padError c.num ps row word step).die c.die.val).mapLocked = true ∧
      ∀ v ∈ ((s.padError c.num ps row word step).croft c.num).watch ps, v.row ≠ row) ∧
    ((s.die c.die.val).freePadEntry c.num ps = none → (s.padError c.num ps row word step).service c.num = .fenced) := by
  have hnote := s.padNoted_noted c.num ps row word step
  have hdie := hnote.die (croftDie c.num)
  rw [← croftDie_num] at hmode hw ⊢
  rw [s.padError_map _ _ _ _ _ hmode, if_pos hw]
  refine ⟨fun e he => ?_, fun he => ?_⟩
  · rw [State.padSecond_maps _ _ _ _ e (by rwa [hdie]), State.padMapped, State.die_modDie_self]
    refine ⟨tfind_tset_self _ _ _, rfl, fun v hv => ?_⟩
    rw [State.modDie_croft, State.croft_modCroft_self] at hv
    cases ps <;> simpa using (List.mem_filter.mp hv).2
  · rw [State.padSecond_fences _ _ _ _ (by rwa [hdie])]
    exact (State.fence_fenced _ _).service

end Sys2Proof.Machine
end

section
/-!
Parity errors in the granary and in weight stores (R204, R207 to R210, R212).
-/
namespace Sys2Proof.Machine

/-! ### The granary -/

/-- The state with an error in a granary row logged, counted and marked. -/
def State.granCounted (s : State) (d addr step : Nat) : State :=
  ((s.logError (.gran d) .parity addr 4 d).bump (.gran d) 0x108 1).markAndCount step .parity (.gran d) 0x110

/-- The state with an error in a granary row noted. -/
def State.granNoted (s : State) (d slice row word step : Nat) : State :=
  (s.granCounted d (slice * 2 ^ 20 + row * 512 + word * 8) step).modDie d fun x =>
    { x with granBad := (64 * (s.die d).granRow slice row + word) :: x.granBad.filter fun w => w != 64 * (s.die d).granRow slice row + word }

theorem State.granCounted_logged (s : State) (d addr : Nat) : LoggedIn s (s.logError (.gran d) .parity addr 4 d) (.gran d) .parity :=
  s.logError_logged _ _ _ _ _ _ (base_ne_lost _ (base_aligned _))

theorem State.granCounted_frame (s : State) (d addr step : Nat) :
    s.granCounted d addr step = { s with
      regs := (s.granCounted d addr step).regs, stew := (s.granCounted d addr step).stew
      serve := { s.serve with steps := (s.granCounted d addr step).serve.steps } } := by
  unfold State.granCounted
  rw [State.markAndCount_frame, State.bump, State.setReg, (s.granCounted_logged d addr).1]

theorem State.granNoted_marked (s : State) (d slice row word step : Nat) : State.Marked s (s.granNoted d slice row word step) step .parity := by
  have hserve (addr : Nat) : ((s.logError (.gran d) .parity addr 4 d).bump (.gran d) 0x108 1).serve = s.serve := by
    rw [State.bump, State.setReg, (s.granCounted_logged d addr).1]
  intro hs x hx
  refine State.markAndCount_marked _ step .parity (.gran d) 0x110 ?_ x hx
  rwa [State.findStep, hserve]

/-- The note leaves the free spare rows of its die. -/
theorem State.granNoted_freeEntry (s : State) (d slice row word step : Nat) :
    ((s.granNoted d slice row word step).die d).freeGranEntry slice = (s.die d).freeGranEntry slice := by
  have hdie : (s.granCounted d (slice * 2 ^ 20 + row * 512 + word * 8) step).die d = s.die d := by
    rw [State.granCounted_frame]
    rfl
  rw [State.granNoted, State.die_modDie_self, hdie]
  unfold Die.freeGranEntry
  rfl

/-- The die with a granary row mapped to a spare (R208). -/
def Die.mapGranRow (x : Die) (slice e row : Nat) : Die :=
  { x with
    granWatch := x.granWatch.filter fun w => !(w.1 == slice && w.2.row == row)
    granMap := tset x.granMap (64 * slice + e) row, granMapPending := x.granMapPending ++ [64 * slice + e]
    mapLocked := true, fieldMapped := true }

theorem Die.mapGranRow_maps (x : Die) (slice e row : Nat) :
    tfind (x.mapGranRow slice e row).granMap (64 * slice + e) = some row ∧ (x.mapGranRow slice e row).mapLocked = true :=
  ⟨tfind_tset_self _ _ _, rfl⟩

theorem State.granSecond_maps (s : State) (d slice row e : Nat) (h : (s.die d).freeGranEntry slice = some e) :
    s.granSecond d slice row = ((s.bump (.gran d) 0x118 1).bump (.gran d) 0x120 1).modDie d fun x => x.mapGranRow slice e row := by
  simp only [State.granSecond, h]
  rfl

theorem State.granSecond_refuses (s : State) (d slice row : Nat) (h : (s.die d).freeGranEntry slice = none) :
    s.granSecond d slice row = (s.bump (.gran d) 0x118 1).refuseRows d [2048 * slice + row] := by
  simp only [State.granSecond, h]

theorem State.refuseRows_serve (s : State) (d : Nat) (rows : List Nat) : (s.refuseRows d rows).serve = s.serve := by
  rw [State.refuseRows, State.degrade, State.modDie_serve, State.modDie_serve]

theorem State.refuseRows_refuses (s : State) (d row : Nat) :
    row ∈ ((s.refuseRows d [row]).die d).refusedRows ∧ ((s.refuseRows d [row]).die d).degraded = true := by
  rw [State.refuseRows, State.degrade, State.die_modDie_self, State.die_modDie_self]
  refine ⟨?_, rfl⟩
  rw [List.mem_eraseDups]
  simp

theorem State.granSecond_serve (s : State) (d slice row : Nat) : (s.granSecond d slice row).serve = s.serve := by
  rcases h : (s.die d).freeGranEntry slice with _ | e
  · rw [s.granSecond_refuses _ _ _ h, State.refuseRows_serve, State.bump_serve]
  · rw [s.granSecond_maps _ _ _ e h, State.modDie_serve, State.bump_serve, State.bump_serve]

/-- The rows that a slice's watch list holds. -/
def Die.granWatched (x : Die) (slice : Nat) : List Watch := (x.granWatch.filter fun e => e.1 == slice).map (·.2)

/-- The die with a slice's watch list set. -/
def Die.setGranWatch (x : Die) (slice : Nat) (l : List Watch) : Die :=
  { x with granWatch := (x.granWatch.filter fun e => e.1 != slice) ++ l.map fun w => (slice, w) }

/-- An error of a granary row in map mode (R207). -/
theorem State.granError_map (s : State) (d slice row word step : Nat) (h : (s.die d).mapMode = true) :
    s.granError d slice row word step =
      if watched ((s.die d).granWatched slice) row (s.reeveTime d) then (s.granNoted d slice row word step).granSecond d slice row
      else (s.granNoted d slice row word step).modDie d fun x =>
        x.setGranWatch slice (watchAdd ((s.die d).granWatched slice) 16 row (s.reeveTime d)) :=
  if_pos h

/-- The errors of a granary's rows at the bells of a second, with this one (R213). -/
def State.granBells (s : State) (d slice row : Nat) : List (Nat × Nat × Nat) :=
  ((s.die d).granParityBells.filter fun e => decide (s.clock.nextBell ≤ e.2.1 + oneSecond)) ++ [(slice, s.clock.nextBell, row)]

/-- An error of a granary row in detect mode (R213). -/
theorem State.granError_detect (s : State) (d slice row word step : Nat) (h : (s.die d).mapMode = false) :
    s.granError d slice row word step =
      if s.marks step = false then s.granNoted d slice row word step
      else if 3 ≤ ((((s.granBells d slice row).filter fun e => e.1 == slice)).map (·.2.1)).eraseDups.length then
        ((s.granNoted d slice row word step).modDie d fun x => { x with granParityBells := s.granBells d slice row }).refuseRows d
          (((s.granBells d slice row).filter fun e => e.1 == slice).map fun e => 2048 * slice + e.2.2)
      else (s.granNoted d slice row word step).modDie d fun x => { x with granParityBells := s.granBells d slice row } :=
  if_neg (by simp [h])

theorem State.granError_serve_map (s : State) (d slice row word step : Nat) (h : (s.die d).mapMode = true) :
    (s.granError d slice row word step).serve = (s.granNoted d slice row word step).serve := by
  rw [s.granError_map _ _ _ _ _ h]
  split
  next => exact State.granSecond_serve _ _ _ _
  next => exact State.modDie_serve _ _ _

/-- What follows the note of an error in detect mode leaves the steps. -/
theorem State.granBells_serve (s u : State) (d slice row step : Nat) :
    (if s.marks step = false then u
      else if 3 ≤ ((((s.granBells d slice row).filter fun e => e.1 == slice)).map (·.2.1)).eraseDups.length then
        (u.modDie d fun x => { x with granParityBells := s.granBells d slice row }).refuseRows d
          (((s.granBells d slice row).filter fun e => e.1 == slice).map fun e => 2048 * slice + e.2.2)
      else u.modDie d fun x => { x with granParityBells := s.granBells d slice row }).serve = u.serve := by
  rw [apply_ite State.serve, apply_ite State.serve, State.refuseRows_serve, State.modDie_serve, ite_self, ite_self]

theorem State.granError_serve_detect (s : State) (d slice row word step : Nat) (h : (s.die d).mapMode = false) :
    (s.granError d slice row word step).serve = (s.granNoted d slice row word step).serve :=
  (congrArg State.serve (s.granError_detect d slice row word step h)).trans
    (s.granBells_serve (s.granNoted d slice row word step) d slice row step)

theorem State.granError_marked (s : State) (d slice row word step : Nat) : State.Marked s (s.granError d slice row word step) step .parity := by
  refine (s.granNoted_marked d slice row word step).of_serve ?_
  cases hmode : (s.die d).mapMode
  · exact s.granError_serve_detect _ _ _ _ _ hmode
  · exact s.granError_serve_map _ _ _ _ _ hmode

/-- A second error of a watched granary row maps it out, or without a spare row has it refused and degrades the die (R207 to R210). -/
theorem State.granError_watched (s : State) (d slice row word step : Nat) (hmode : (s.die d).mapMode = true)
    (hw : watched ((s.die d).granWatched slice) row (s.reeveTime d) = true) :
    (∀ e, (s.die d).freeGranEntry slice = some e →
      tfind ((s.granError d slice row word step).die d).granMap (64 * slice + e) = some row ∧
      ((s.granError d slice row word step).die d).mapLocked = true) ∧
    ((s.die d).freeGranEntry slice = none →
      2048 * slice + row ∈ ((s.granError d slice row word step).die d).refusedRows ∧
      ((s.granError d slice row word step).die d).degraded = true) := by
  have hfree := s.granNoted_freeEntry d slice row word step
  rw [s.granError_map _ _ _ _ _ hmode, if_pos hw]
  refine ⟨fun e he => ?_, fun he => ?_⟩
  · rw [State.granSecond_maps _ _ _ _ e (hfree.trans he), State.die_modDie_self]
    exact Die.mapGranRow_maps _ _ _ _
  · rw [State.granSecond_refuses _ _ _ _ (hfree.trans he)]
    exact State.refuseRows_refuses _ _ _

/-! ### Weight stores -/

/-- The state with an error in a weight store logged and counted. -/
def State.storeNoted (s : State) (c : CroftAt) (line word : Nat) : State :=
  (s.logError (.pad c.die.val) .parity (padAddr 2 (croftRow c.num) (croftCol c.num) line word) 5 c.num).bump (.pad c.die.val) 0x108 1

theorem State.storeNoted_logged (s : State) (c : CroftAt) (line word : Nat) :
    LoggedIn s (s.logError (.pad c.die.val) .parity (padAddr 2 (croftRow c.num) (croftCol c.num) line word) 5 c.num)
      (.pad c.die.val) .parity :=
  s.logError_logged _ _ _ _ _ _ (base_ne_lost _ (base_aligned _))

theorem State.storeNoted_frame (s : State) (c : CroftAt) (line word : Nat) :
    s.storeNoted c line word = { s with regs := (s.storeNoted c line word).regs, stew := (s.storeNoted c line word).stew } := by
  unfold State.storeNoted
  rw [State.bump, State.setReg, (s.storeNoted_logged c line word).1]

theorem State.storeNoted_count (s : State) (c : CroftAt) (line word : Nat) :
    (s.storeNoted c line word).reg (.pad c.die.val) 0x108 = satAdd (s.reg (.pad c.die.val) 0x108) 1 := by
  rw [State.storeNoted, State.bump, State.reg_setReg_self,
    (s.storeNoted_logged c line word).reg_other 0x108 (by decide) (pad_base_ne_lost _ _)]

theorem State.storeNoted_serve (s : State) (c : CroftAt) (line word : Nat) : (s.storeNoted c line word).serve = s.serve := by
  rw [State.storeNoted_frame]

theorem State.storeNoted_crofts (s : State) (c : CroftAt) (line word : Nat) : (s.storeNoted c line word).crofts = s.crofts := by
  rw [State.storeNoted_frame]

theorem State.storeNoted_croft (s : State) (c : CroftAt) (line word n : Nat) : (s.storeNoted c line word).croft n = s.croft n := by
  rw [State.croft, State.storeNoted_crofts, State.croft]

theorem State.storeNoted_mould (s : State) (c : CroftAt) (line word n m : Nat) : (s.storeNoted c line word).mould n m = s.mould n m := by
  rw [State.mould, State.storeNoted_croft, State.mould]

theorem State.storeNoted_die (s : State) (c : CroftAt) (line word d : Nat) : (s.storeNoted c line word).die d = s.die d := by
  rw [State.die, State.storeNoted_frame, State.die]

/-- Byte of a weight store at which a word lies (R184). -/
def storeByte (line word : Nat) : Nat := 256 * line + 8 * word

section Regions
variable (s : State) (c : CroftAt) (line : Fin 1024) (word : Fin 32) (step : Nat)

theorem exec_storeParity_set (h : storeByte line.val word.val < 0xB400) :
    exec (.storeParityError c line word step) s = .next ((s.storeNoted c line.val word.val).setError c.num
      (storeByte line.val word.val / 1280 / 2) (storeByte line.val word.val / 1280 % 2 == 1) (storeByte line.val word.val % 1280)) :=
  if_pos h

theorem exec_storeParity_table (hlo : 0xB400 ≤ storeByte line.val word.val) (hhi : storeByte line.val word.val < 0xB500) :
    exec (.storeParityError c line word step) s =
      .next ((s.storeNoted c line.val word.val).modCroft c.num fun k => { k with tableLostAt := some (s.reeveTime c.die.val) }) :=
  (if_neg (not_lt.mpr hlo)).trans (if_pos hhi)

theorem exec_storeParity_baseline (hlo : 0xC000 ≤ storeByte line.val word.val) (hhi : storeByte line.val word.val < 0x10000) {m : Nat}
    (hm : (s.croft c.num).holding ((storeByte line.val word.val - 0xC000) / 1024) = some m) :
    exec (.storeParityError c line word step) s =
      .next ((s.storeNoted c line.val word.val).modMould c.num m fun x => { x with gauging := { x.gauging with baseline := none } }) := by
  simp only [storeByte] at hlo hhi hm
  refine (if_neg (by omega)).trans ((if_neg (by omega)).trans ((if_neg (by omega)).trans ((if_pos hhi).trans ?_)))
  simp only [hm]
  rfl

/-- A croft with the live stand-ins of a slot to be fetched again (R212). -/
def Croft.refetched (c : Croft) (slot : Nat) : Croft :=
  { c with moulds := c.moulds.map fun e => (e.1, { e.2 with standins := e.2.standins.map fun x =>
      if x.slot = slot ∧ x.live = true then { x with refetch := true } else x }) }

theorem exec_storeParity_standin (hlo : 0x10000 ≤ storeByte line.val word.val) (hhi : storeByte line.val word.val < 0x14000) :
    exec (.storeParityError c line word step) s =
      .next (((s.storeNoted c line.val word.val).markAndCount step .parity (.pad c.die.val) 0x110).modCroft c.num fun k =>
        k.refetched ((storeByte line.val word.val - 0x10000) / 512)) := by
  simp only [storeByte] at hlo hhi
  exact (if_neg (by omega)).trans ((if_neg (by omega)).trans ((if_neg (by omega)).trans ((if_neg (by omega)).trans (if_pos hhi))))

theorem exec_storeParity_unused (h : 0xB500 ≤ storeByte line.val word.val ∧ storeByte line.val word.val < 0xC000 ∨
      0x14000 ≤ storeByte line.val word.val ∧ storeByte line.val word.val < 0x18000) :
    exec (.storeParityError c line word step) s = .next (s.storeNoted c line.val word.val) := by
  simp only [storeByte] at h
  obtain ⟨hlo, hhi⟩ | ⟨hlo, hhi⟩ := h
  · exact (if_neg (by omega)).trans ((if_neg (by omega)).trans (if_pos hhi))
  · exact (if_neg (by omega)).trans ((if_neg (by omega)).trans ((if_neg (by omega)).trans ((if_neg (by omega)).trans
      ((if_neg (by omega)).trans (if_pos hhi)))))

theorem exec_storeParity_region (h : 0x18000 ≤ storeByte line.val word.val) :
    exec (.storeParityError c line word step) s = .next ((s.storeNoted c line.val word.val).regionError c.num line.val step) := by
  simp only [storeByte] at h
  exact (if_neg (by omega)).trans ((if_neg (by omega)).trans ((if_neg (by omega)).trans ((if_neg (by omega)).trans
    ((if_neg (by omega)).trans (if_neg (by omega))))))

end Regions

/-! ### Coefficient sets -/

theorem State.rejectAttempt_serve (s : State) (n m : Nat) : (s.rejectAttempt n m).serve = s.serve := by
  unfold State.rejectAttempt
  dsimp only
  split
  · rw [State.startProbe, State.modMould_serve, State.bump_serve, State.bumpCroft, State.bump_serve, State.modMould_serve]
  · rw [State.bump_serve, State.bumpCroft, State.bump_serve, State.modMould_serve]

theorem State.setError_serve (s : State) (n m : Nat) (b : Bool) (o : Nat) : (s.setError n m b o).serve = s.serve := by
  unfold State.setError
  dsimp only
  split
  · exact State.modMould_serve _ _ _ _
  split
  · exact (State.rejectAttempt_serve _ _ _).trans (State.modMould_serve _ _ _ _)
  · rfl

theorem Mould.activeSet_setActive (x : Mould) (c : CoefSet) : (x.setActive c).activeSet = c := by
  by_cases h : x.bank = true <;> simp [Mould.setActive, Mould.activeSet, h]

/-- An error in the active set takes its word's terms to their neutral value (R212). -/
theorem State.setError_active (s : State) (n m : Nat) (b : Bool) (o : Nat) (h : (s.mould n m).bank = b) :
    ((s.setError n m b o).mould n m).neutralised = true ∧
      ((s.setError n m b o).mould n m).activeSet = neutralise (s.mould n m).activeSet o := by
  have hset : s.setError n m b o = s.modMould n m fun y =>
      { y.setActive (neutralise (s.mould n m).activeSet o) with latched := neutralise y.latched o, neutralised := true } := if_pos h
  rw [hset, State.mould_modMould_self]
  exact ⟨rfl, Mould.activeSet_setActive _ _⟩

/-! ### Stand-ins -/

/-- Every live stand-in of the slot is to be fetched again. -/
theorem Croft.refetched_standins (c : Croft) (slot m : Nat) (x : StandIn) (hx : x ∈ ((c.refetched slot).mould m).standins)
    (hslot : x.slot = slot) (hlive : x.live = true) : x.refetch = true := by
  have hlist (l : Table Mould) : ∀ x ∈ (tget freshMould (l.map fun e => (e.1, { e.2 with standins := e.2.standins.map fun x =>
      if x.slot = slot ∧ x.live = true then { x with refetch := true } else x })) m).standins, x.slot = slot → x.live = true → x.refetch = true := by
    induction l with
    | nil => exact fun x hx => absurd hx (by rw [List.map_nil, tget, (freshMould_idle m).2]; simp)
    | cons e l ih =>
      intro x hx hslot hlive
      rw [List.map_cons, tget] at hx
      split at hx
      next =>
        obtain ⟨y, -, rfl⟩ := List.mem_map.mp hx
        split at hslot
        next h => rw [if_pos h]
        next h => exact absurd ⟨hslot, by rwa [if_neg h] at hlive⟩ h
      next => exact ih x hx hslot hlive
  exact hlist c.moulds x hx hslot hlive

/-! ### Lines of the pattern region -/

theorem State.imageLine_unloaded (s : State) (n line : Nat) (h : (s.die (croftDie n)).pattern = none) : s.imageLine n line = some [] := by
  simp only [State.imageLine, h]

/-- The state with a line of the pattern region in error marked and noted. -/
def State.regionNoted (s : State) (n line step : Nat) : State :=
  ((s.markAndCount step .parity (.pad (croftDie n)) 0x110).gatherMark n step .parity).modCroft n fun c => { c with
    lineErrors := ((s.croft n).lineErrors.filter fun e => decide (s.reeveTime (croftDie n) ≤ e.2 + oneSecond)) ++ [(line, s.reeveTime (croftDie n))] }

theorem State.regionNoted_die (s : State) (n line step d : Nat) : (s.regionNoted n line step).die d = s.die d := by
  rw [State.regionNoted, State.modCroft_die, State.gatherMark, State.modCroft_die, State.markAndCount_frame]
  rfl

theorem State.regionNoted_store (s : State) (n line step : Nat) : ((s.regionNoted n line step).croft n).store = (s.croft n).store := by
  have hcroft : (s.markAndCount step .parity (.pad (croftDie n)) 0x110).croft n = s.croft n := by
    rw [State.markAndCount_frame]
    rfl
  rw [State.regionNoted, State.croft_modCroft_self, State.gatherMark, State.croft_modCroft_self, hcroft]
  split <;> rfl

/-- Without a pattern a line in error reads zero (R212). -/
theorem State.regionError_unloaded (s : State) (n line step : Nat) (hp : (s.die (croftDie n)).pattern = none)
    (hl : (s.croft n).lineErrors = []) :
    s.regionError n line step = (s.regionNoted n line step).modCroft n fun c => { c with store := Memory.clear c.store (256 * line) 256 } := by
  have hold : ¬ 2 ≤ (((s.croft n).lineErrors.filter fun e => decide (s.reeveTime (croftDie n) ≤ e.2 + oneSecond)).filter
      fun e => e.1 == line).length := by
    rw [hl, List.filter_nil, List.filter_nil]
    exact (by decide : ¬ 2 ≤ 0)
  refine Eq.trans (if_neg hold) ?_
  rw [s.imageLine_unloaded n line hp]
  simp only [hp, List.foldl_nil]
  rfl

theorem State.regionNoted_marked (s : State) (n line step : Nat) : State.Marked s (s.regionNoted n line step) step .parity :=
  (s.markAndCount_marked step .parity (.pad (croftDie n)) 0x110).of_serve
    ((State.modCroft_serve _ _ _).trans (State.modCroft_serve _ _ _))

end Sys2Proof.Machine
end

section
/-!
The statement about parity errors.
-/
namespace Sys2Proof.Machine

/-- The first error of a pad row in map mode puts the row on the watch list and moves nothing else of the dies and crofts (R207). -/
theorem State.padError_unwatched (s : State) (c : CroftAt) (row word step : Nat) (hmode : (s.die c.die.val).mapMode = true)
    (hw : watched (s.croft c.num).watchAct row (s.reeveTime c.die.val) = false) :
    ((s.padError c.num false row word step).croft c.num).watchAct = watchAdd (s.croft c.num).watchAct 2 row (s.reeveTime c.die.val) ∧
      (s.padError c.num false row word step).dies = s.dies ∧
      ∀ k, k ≠ c.num → (s.padError c.num false row word step).croft k = s.croft k := by
  have hnote := s.padNoted_noted c.num false row word step
  rw [← croftDie_num] at hmode hw ⊢
  rw [s.padError_map _ _ _ _ _ hmode, if_neg (by simp [Croft.watch, hw])]
  refine ⟨?_, (State.modCroft_dies _ _ _).trans hnote.dies, fun k hk => ?_⟩
  · rw [State.croft_modCroft_self]
    rfl
  · rw [State.croft_modCroft_ne _ _ hk, hnote.others k hk]

/-- A line of the pattern region reads zero after its error in a die without a pattern. -/
theorem Memory.get_clear_line (m : Memory) (line a : Nat) :
    (m.clear (256 * line) 256).get a = if a / 256 = line then 0 else m.get a := by
  rw [Memory.get_clear]
  congr 1
  simp only [eq_iff_iff]
  omega

theorem State.regionError_store (s : State) (n line step : Nat) (hp : (s.die (croftDie n)).pattern = none)
    (hl : (s.croft n).lineErrors = []) :
    ((s.regionError n line step).croft n).store = (s.croft n).store.clear (256 * line) 256 := by
  rw [s.regionError_unloaded _ _ _ hp hl, State.croft_modCroft_self]
  exact congrArg (fun m => Memory.clear m (256 * line) 256) (s.regionNoted_store n line step)

theorem State.regionError_marked (s : State) (n line step : Nat) (hp : (s.die (croftDie n)).pattern = none)
    (hl : (s.croft n).lineErrors = []) : State.Marked s (s.regionError n line step) step .parity := by
  rw [s.regionError_unloaded _ _ _ hp hl]
  exact (s.regionNoted_marked n line step).of_serve (State.modCroft_serve _ _ _)

theorem State.storeNoted_findStep (s : State) (c : CroftAt) (line word i : Nat) : (s.storeNoted c line word).findStep i = s.findStep i := by
  rw [State.findStep, State.storeNoted_serve, State.findStep]

/-- Settles O39: each error is followed from its note to what its place and its die's mode make of it. -/
theorem parityErrorsMarkAndMapOut : Obligations.ParityErrorsMarkAndMapOut := by
  intro s c row word line w32 step d slice g
  refine ⟨⟨_, rfl, ?actMarked, ?actLogged, fun hmode hw => s.padError_unwatched c _ _ step hmode hw, ?actSecond⟩,
    fun prow => ⟨_, rfl, ?psMarked, ?psCount, ?psSecond⟩, ⟨_, rfl, ?granMarked, ?granSecond⟩, fun h => ⟨_, exec_storeParity_set _ _ _ _ _ h, ?set⟩,
    fun hlo hhi m hm => ⟨_, exec_storeParity_baseline _ _ _ _ _ hlo hhi hm, ?baseline⟩,
    fun hlo hhi => ⟨_, exec_storeParity_table _ _ _ _ _ hlo hhi, ?table⟩,
    fun hlo hhi => ⟨_, exec_storeParity_standin _ _ _ _ _ hlo hhi, ?standinMarked, ?standin⟩,
    fun hlo hp hl => ⟨_, exec_storeParity_region _ _ _ _ _ hlo, ?region⟩,
    fun h => ⟨_, exec_storeParity_unused _ _ _ _ _ h, s.storeNoted_count .., s.storeNoted_serve .., s.storeNoted_crofts ..⟩⟩
  case actMarked => exact (s.padError_noted c false _ _ step).1
  case actLogged => exact (s.padError_noted c false _ _ step).2.1
  case actSecond =>
    intro hmode hw
    exact s.padError_watched c false _ _ step hmode hw
  case psMarked => exact (s.padError_noted c true _ _ step).1
  case psCount => exact (s.padError_noted c true _ _ step).2.2
  case psSecond =>
    intro hmode hw
    obtain ⟨hmap, hfence⟩ := s.padError_watched c true _ word.val step hmode hw
    exact ⟨fun e he => (hmap e he).1, hfence⟩
  case granMarked => exact s.granError_marked _ _ _ _ _
  case granSecond => exact s.granError_watched _ _ _ _ _
  case set =>
    refine ⟨fun hb => ?_, (State.setError_serve _ _ _ _ _).trans (s.storeNoted_serve ..)⟩
    have hset := (s.storeNoted c line.val w32.val).setError_active c.num _ _ (storeByte line.val w32.val % 1280)
      ((congrArg Mould.bank (s.storeNoted_mould ..)).trans hb)
    rwa [s.storeNoted_mould] at hset
  case baseline =>
    rw [State.mould_modMould_self]
    exact ⟨rfl, (State.modMould_serve _ _ _ _).trans (s.storeNoted_serve ..)⟩
  case table =>
    rw [State.croft_modCroft_self]
    exact ⟨rfl, (State.modCroft_serve _ _ _).trans (s.storeNoted_serve ..)⟩
  case standinMarked =>
    have hmark := State.markAndCount_marked (s.storeNoted c line.val w32.val) step .parity (.pad c.die.val) 0x110
    intro hs
    exact hmark (by rwa [s.storeNoted_findStep])
  case standin =>
    intro m e he
    rw [State.mould, State.croft_modCroft_self] at he
    exact Croft.refetched_standins _ _ m e he
  case region =>
    have hp' : ((s.storeNoted c line.val w32.val).die (croftDie c.num)).pattern = none := by rwa [s.storeNoted_die, croftDie_num]
    have hl' : ((s.storeNoted c line.val w32.val).croft c.num).lineErrors = [] := by rwa [s.storeNoted_croft]
    have hstore := State.regionError_store _ _ line.val step hp' hl'
    have hmark := State.regionError_marked _ _ line.val step hp' hl'
    refine ⟨fun hs => hmark (by rwa [s.storeNoted_findStep]), fun a ha => ?_, fun a ha => ?_⟩
    · rw [hstore, Memory.get_clear_line, if_pos ha]
    · rw [hstore, Memory.get_clear_line, if_neg ha, s.storeNoted_croft]

end Sys2Proof.Machine
end

section
/-!
Errors of links, detours, marks and barriers (R230, R246 to R248, R252, R254, R483).
-/
namespace Sys2Proof.Machine

/-! ### Router faults -/

theorem State.service_congr {s t : State} {n : Nat} (h : (t.croft n).service = (s.croft n).service) : t.service n = s.service n := by
  rw [State.service, h, State.service]

theorem Croft.fencedOff_keeps (c : Croft) :
    c.fencedOff.routerErrors = c.routerErrors ∧ c.fencedOff.routerFault = c.routerFault := ⟨rfl, rfl⟩

/-- A router fault fences its croft and degrades its die (R254). -/
structure Faulted (s t : State) (c : CroftAt) : Prop where
  serve : t.serve = s.serve
  fault : (t.croft c.num).routerFault = true
  errors : (t.croft c.num).routerErrors = (s.croft c.num).routerErrors
  service : t.service c.num = .fenced
  degraded : (t.die c.die.val).degraded = true
  foot : ∀ d, (t.die d).footMarked = (s.die d).footMarked
  regs : ∀ a, a ∉ errorRegs (.croft c.num) → t.regAt a = s.regAt a

theorem State.routerFault_faulted (s : State) (c : CroftAt) : Faulted s (s.routerFault c.num) c := by
  have hfence := (s.modCroft c.num fun x => { x with routerFault := true }).fence_fenced c.num
  have hself := s.croft_modCroft_self c.num fun x => { x with routerFault := true }
  have hcroft : (s.routerFault c.num).croft c.num =
      ((s.modCroft c.num fun x => { x with routerFault := true }).fence c.num).croft c.num := rfl
  refine ⟨?_, ?_, ?_, ?_, ?_, fun d => ?_, fun a ha => ?_⟩
  · rw [State.routerFault, State.degrade, State.modDie_serve, hfence.serve, State.modCroft_serve]
  · rw [hcroft]
    obtain h | h := hfence.croft <;> rw [h, hself]
    rfl
  · rw [hcroft]
    obtain h | h := hfence.croft <;> rw [h, hself]
    rfl
  · exact (State.service_congr (congrArg Croft.service hcroft)).trans hfence.service
  · rw [State.routerFault, State.degrade, croftDie_num, State.die_modDie_self]
  · have hdie := hfence.foot d
    rw [State.modCroft_die] at hdie
    rw [State.routerFault, State.degrade, State.die_modDie]
    split
    next h => rw [← h]; exact hdie
    next => exact hdie
  · exact hfence.regs a ha

/-- A link of a croft that has shown an error within 1 ms (R230). -/
theorem recentErrors_any (l : List (Nat × Nat)) (now i : Nat) :
    ((recentErrors l now).any fun e => e.1 == i) = true ↔ ∃ e ∈ l, e.1 = i ∧ now ≤ e.2 + 1000000 := by
  simp only [recentErrors, List.any_eq_true, List.mem_filter, beq_iff_eq, decide_eq_true_eq]
  exact ⟨fun ⟨e, ⟨he, ht⟩, hi⟩ => ⟨e, he, hi, ht⟩, fun ⟨e, he, hi, ht⟩ => ⟨e, ⟨he, ht⟩, hi⟩⟩

theorem recentErrors_none {l : List (Nat × Nat)} {now i : Nat} (h : ∀ e ∈ l, ¬(e.1 = i ∧ now ≤ e.2 + 1000000)) :
    ¬ ((recentErrors l now).any fun e => e.1 == i) = true := by
  rw [recentErrors_any]
  exact fun ⟨e, he, hi⟩ => h e he hi

/-! ### Flits and messages in error -/

theorem State.gatherMark_serve (s : State) (n step : Nat) (c : Cause) : (s.gatherMark n step c).serve = s.serve := rfl

theorem State.gatherMark_dies (s : State) (n step : Nat) (c : Cause) : (s.gatherMark n step c).dies = s.dies := rfl

/-- Gathering a mark moves nothing else of its croft. -/
theorem State.gatherMark_keeps (s : State) (n step : Nat) (c : Cause) :
    ((s.gatherMark n step c).croft n).service = (s.croft n).service ∧
      ((s.gatherMark n step c).croft n).routerErrors = (s.croft n).routerErrors ∧
      ((s.gatherMark n step c).croft n).routerFault = (s.croft n).routerFault := by
  rw [State.gatherMark, State.croft_modCroft_self]
  split <;> exact ⟨rfl, rfl, rfl⟩

/-- A croft with an error of a link noted. -/
def Croft.flitNoted (c : Croft) (l : List (Nat × Nat)) : Croft := { c with routerErrors := c.routerErrors + 1, flitErrors := l }

/-- The state with a flit error noted, before a fault. -/
def State.flitNoted (s : State) (r : CroftAt) (link : LinkDir) (step : Nat) : State :=
  (s.markStep step .parity).modCroft r.num fun c =>
    c.flitNoted (recentErrors (s.croft r.num).flitErrors (s.reeveTime r.die.val) ++ [(LinkDir.num link, s.reeveTime r.die.val)])

theorem exec_flitParity (s : State) (r : CroftAt) (link : LinkDir) (step : Nat) :
    exec (.flitParityError r link step) s = .next
      ((if (recentErrors (s.croft r.num).flitErrors (s.reeveTime r.die.val)).any (fun e => e.1 == LinkDir.num link) then
        (s.flitNoted r link step).routerFault r.num else s.flitNoted r link step).gatherMark r.num step .parity) := rfl

theorem State.flitNoted_croft (s : State) (r : CroftAt) (link : LinkDir) (step : Nat) :
    ((s.flitNoted r link step).croft r.num).routerErrors = (s.croft r.num).routerErrors + 1 ∧
      ((s.flitNoted r link step).croft r.num).service = (s.croft r.num).service := by
  rw [State.flitNoted, State.croft_modCroft_self]
  exact ⟨rfl, rfl⟩

theorem State.flitNoted_dies (s : State) (r : CroftAt) (link : LinkDir) (step : Nat) : (s.flitNoted r link step).dies = s.dies := rfl

theorem State.flitNoted_marked (s : State) (r : CroftAt) (link : LinkDir) (step : Nat) :
    State.Marked s (s.flitNoted r link step) step .parity :=
  (s.markStep_marked step .parity).of_serve (State.modCroft_serve _ _ _)

/-- A flit error marks its step, is counted, and is a fault when it is the second one within 1 ms (R230). -/
theorem exec_flitParity_spec (s : State) (r : CroftAt) (link : LinkDir) (step : Nat) :
    ∃ t, exec (.flitParityError r link step) s = .next t ∧ State.Marked s t step .parity ∧
      (t.croft r.num).routerErrors = (s.croft r.num).routerErrors + 1 ∧
      ((∃ e ∈ (s.croft r.num).flitErrors, e.1 = LinkDir.num link ∧ s.reeveTime r.die.val ≤ e.2 + 1000000) →
        (t.croft r.num).routerFault = true ∧ t.service r.num = .fenced ∧ (t.die r.die.val).degraded = true) ∧
      ((∀ e ∈ (s.croft r.num).flitErrors, ¬(e.1 = LinkDir.num link ∧ s.reeveTime r.die.val ≤ e.2 + 1000000)) →
        t.dies = s.dies ∧ t.service r.num = s.service r.num) := by
  obtain ⟨herrors, hservice⟩ := s.flitNoted_croft r link step
  have hmarked := s.flitNoted_marked r link step
  rw [exec_flitParity]
  by_cases h : ((recentErrors (s.croft r.num).flitErrors (s.reeveTime r.die.val)).any fun e => e.1 == LinkDir.num link) = true
  · have hfault := (s.flitNoted r link step).routerFault_faulted r
    obtain ⟨gservice, gerrors, gfault⟩ := ((s.flitNoted r link step).routerFault r.num).gatherMark_keeps r.num step .parity
    rw [if_pos h]
    refine ⟨_, rfl, hmarked.of_serve hfault.serve, ?_, fun _ => ⟨?_, ?_, ?_⟩, fun hno => absurd h (recentErrors_none hno)⟩
    · rw [gerrors, hfault.errors, herrors]
    · rw [gfault, hfault.fault]
    · exact (State.service_congr gservice).trans hfault.service
    · rw [State.die, State.gatherMark_dies, ← State.die, hfault.degraded]
  · obtain ⟨gservice, gerrors, -⟩ := (s.flitNoted r link step).gatherMark_keeps r.num step .parity
    rw [if_neg h]
    refine ⟨_, rfl, hmarked.of_serve (State.gatherMark_serve _ _ _ _), gerrors.trans herrors, fun hyes => absurd ((recentErrors_any _ _ _).mpr hyes) h,
      fun _ => ⟨(State.gatherMark_dies _ _ _ _).trans (s.flitNoted_dies r link step), ?_⟩⟩
    exact State.service_congr (gservice.trans hservice)

/-- The state with an error of a footpath message noted, before a fault. -/
def State.footNoted (s : State) (r : CroftAt) (link : LinkDir) : State :=
  ((s.bump (.foot r.die.val) 0x110 1).modDie r.die.val fun x => { x with footMarked := true }).modCroft r.num fun c =>
    { c with footErrors := recentErrors (s.croft r.num).footErrors (s.reeveTime r.die.val) ++ [(LinkDir.num link, s.reeveTime r.die.val)] }

theorem exec_footpathParity (s : State) (r : CroftAt) (link : LinkDir) :
    exec (.footpathParityError r link) s = .next
      (if (recentErrors (s.croft r.num).footErrors (s.reeveTime r.die.val)).any (fun e => e.1 == LinkDir.num link) then
        (s.footNoted r link).routerFault r.num else s.footNoted r link) := rfl

theorem State.footNoted_die (s : State) (r : CroftAt) (link : LinkDir) :
    (s.footNoted r link).die r.die.val = { s.die r.die.val with footMarked := true } := by
  rw [State.footNoted, State.modCroft_die, State.die_modDie_self, State.bump_die]

theorem State.footNoted_reg (s : State) (r : CroftAt) (link : LinkDir) :
    (s.footNoted r link).reg (.foot r.die.val) 0x110 = satAdd (s.reg (.foot r.die.val) 0x110) 1 := by
  rw [State.footNoted, State.modCroft_reg, State.modDie_reg, State.bump, State.reg_setReg_self]

theorem State.footNoted_serve (s : State) (r : CroftAt) (link : LinkDir) : (s.footNoted r link).serve = s.serve := by
  rw [State.footNoted, State.modCroft_serve, State.modDie_serve, State.bump_serve]

theorem State.footNoted_service (s : State) (r : CroftAt) (link : LinkDir) : (s.footNoted r link).service r.num = s.service r.num := by
  have hcroft : ((s.footNoted r link).croft r.num).service = (s.croft r.num).service := by
    rw [State.footNoted, State.croft_modCroft_self, State.modDie_croft, State.bump_croft]
  exact State.service_congr hcroft

/-- A footpath error marks its die's steps at the round's end, and is a fault when it is the second one within 1 ms (R230, R483). -/
theorem exec_footpathParity_spec (s : State) (r : CroftAt) (link : LinkDir) :
    ∃ t, exec (.footpathParityError r link) s = .next t ∧ (t.die r.die.val).footMarked = true ∧
      t.reg (.foot r.die.val) 0x110 = satAdd (s.reg (.foot r.die.val) 0x110) 1 ∧ t.serve = s.serve ∧
      ((∃ e ∈ (s.croft r.num).footErrors, e.1 = LinkDir.num link ∧ s.reeveTime r.die.val ≤ e.2 + 1000000) →
        t.service r.num = .fenced ∧ (t.die r.die.val).degraded = true) ∧
      ((∀ e ∈ (s.croft r.num).footErrors, ¬(e.1 = LinkDir.num link ∧ s.reeveTime r.die.val ≤ e.2 + 1000000)) →
        t.service r.num = s.service r.num ∧ (t.die r.die.val).degraded = (s.die r.die.val).degraded) := by
  have hdie := s.footNoted_die r link
  rw [exec_footpathParity]
  by_cases h : ((recentErrors (s.croft r.num).footErrors (s.reeveTime r.die.val)).any fun e => e.1 == LinkDir.num link) = true
  · have hfault := (s.footNoted r link).routerFault_faulted r
    rw [if_pos h]
    refine ⟨_, rfl, by rw [hfault.foot, hdie], ?_, hfault.serve.trans (s.footNoted_serve r link),
      fun _ => ⟨hfault.service, hfault.degraded⟩, fun hno => absurd h (recentErrors_none hno)⟩
    exact (hfault.regs _ (errorRegs_croft_other r _ _ (.inr (.inl rfl)) (by decide))).trans (s.footNoted_reg r link)
  · rw [if_neg h]
    exact ⟨_, rfl, by rw [hdie], s.footNoted_reg r link, s.footNoted_serve r link,
      fun hyes => absurd ((recentErrors_any _ _ _).mpr hyes) h, fun _ => ⟨s.footNoted_service r link, by rw [hdie]⟩⟩

/-! ### Detours -/

/-- A spare's job waits for the run of its row's patches. -/
def SpareJob.due (j : SpareJob) (row : Nat) : Bool := j.row == row && j.patchFits.isNone

theorem SpareJob.due_iff (j : SpareJob) (row : Nat) : j.due row = true ↔ j.row = row ∧ j.patchFits = none := by
  simp [SpareJob.due]

theorem exec_detourFit_due (s : State) (d : DieId) (row : Fin 32) (h : ∃ j ∈ (s.die d.val).spareJobs, j.row = row.val ∧ j.patchFits = none) :
    exec (.detourFit d row) s = .next (s.patchDecided d.val row.val (s.rowFits d.val row.val)) := by
  obtain ⟨j, hj, hdue⟩ := h
  exact if_pos (List.any_eq_true.mpr ⟨j, hj, (j.due_iff _).mpr hdue⟩)

theorem exec_detourFit_idle (s : State) (d : DieId) (row : Fin 32)
    (h : ∀ j ∈ (s.die d.val).spareJobs, ¬(j.row = row.val ∧ j.patchFits = none)) : exec (.detourFit d row) s = .next s := by
  refine if_neg fun hany => ?_
  obtain ⟨j, hj, hdue⟩ := List.any_eq_true.mp hany
  exact h j hj ((j.due_iff _).mp hdue)

/-- The row's patches fit when each of its waiting spares' runs keeps within the limits of R252. -/
theorem State.rowFits_iff (s : State) (d : Nat) (row : Nat) :
    s.rowFits d row = true ↔ ∀ p, (s.die d).pattern = some p → ∀ j ∈ (s.die d).spareJobs, j.row = row → j.patchFits = none →
      (detourRun p row (physColumn j.column) (croftCol j.spare)).late ≤ 2 * p.detourHops ∧
      (detourRun p row (physColumn j.column) (croftCol j.spare)).buffered ≤ 4 := by
  unfold State.rowFits
  cases (s.die d).pattern with
  | none => simp
  | some p =>
    simp only [Option.all_some, List.all_eq_true, List.mem_filter, detourFits, Bool.and_eq_true, beq_iff_eq, Option.isNone_iff_eq_none,
      decide_eq_true_eq, Option.some.injEq, forall_eq']
    exact ⟨fun h j hj hr hf => h j ⟨hj, hr, hf⟩, fun h j ⟨hj, hr, hf⟩ => h j hj hr hf⟩

/-- A die whose patches of a row are written. -/
def Die.patched (x : Die) (row : Nat) : Die :=
  { x with spareJobs := x.spareJobs.map fun j => if j.due row then { j with patchFits := some true, writing := true } else j }

theorem State.patchDecided_fits (s : State) (d row : Nat) : s.patchDecided d row true = s.modDie d fun x => x.patched row := rfl

theorem Die.patched_done (x : Die) (row : Nat) : ∀ j ∈ (x.patched row).spareJobs, j.row = row → j.patchFits ≠ none := by
  intro j hj hrow hnone
  obtain ⟨i, -, rfl⟩ := List.mem_map.mp hj
  split at hnone
  next => cases hnone
  next h =>
    rw [if_neg h] at hrow
    exact h ((i.due_iff _).mpr ⟨hrow, hnone⟩)

theorem Die.patched_busy (x : Die) (row : Nat) {j : SpareJob} (hj : j ∈ x.spareJobs) (hdue : j.due row = true) :
    (x.patched row).patchBusy = true := by
  refine List.any_eq_true.mpr ⟨_, List.mem_map_of_mem hj, ?_⟩
  rw [if_pos hdue]

/-- A die whose spares of a row have gone back to the stock (R254). -/
def Die.unpatched (x : Die) (row : Nat) : Die :=
  { x with spareJobs := x.spareJobs.filter fun j => !j.due row, degraded := true, loadClean := false }

/-- A croft without casts that wait for a patch. -/
def Croft.castsForgotten (c : Croft) : Croft := { c with moulds := tmap freshMould (fun _ m => { m with castWaiting := false }) c.moulds }

/-- The casts that waited for a spare's patch are forgotten. -/
def State.castsForgotten (s : State) (d row : Nat) : State :=
  ((s.die d).spareJobs.filter fun j => j.due row).foldl (fun (t : State) j => t.modCroft j.spare Croft.castsForgotten) s

theorem State.patchDecided_late (s : State) (d row : Nat) :
    s.patchDecided d row false = ((s.castsForgotten d row).modDie d fun x =>
      { x with spareJobs := x.spareJobs.filter fun j => !j.due row }).degrade d := rfl

theorem State.castsForgotten_frame (s : State) (d row : Nat) :
    s.castsForgotten d row = { s with crofts := (s.castsForgotten d row).crofts } := by
  have hmap : s.castsForgotten d row = (((s.die d).spareJobs.filter fun j => j.due row).map SpareJob.spare).foldl
      (fun (t : State) k => t.modCroft k Croft.castsForgotten) s := by
    rw [List.foldl_map]
    rfl
  rw [hmap]
  exact State.foldl_modCroft_frame _ _ _

theorem State.castsForgotten_die (s : State) (d row e : Nat) : (s.castsForgotten d row).die e = s.die e := by
  rw [State.die, s.castsForgotten_frame, State.die]

theorem State.patchDecided_late_die (s : State) (d row : Nat) : (s.patchDecided d row false).die d = (s.die d).unpatched row := by
  rw [s.patchDecided_late, State.degrade, State.die_modDie_self, State.die_modDie_self, s.castsForgotten_die]
  rfl

theorem State.patchDecided_late_die_ne (s : State) {d row e : Nat} (h : e ≠ d) : (s.patchDecided d row false).die e = s.die e := by
  rw [s.patchDecided_late, State.degrade, State.die_modDie_ne _ _ h, State.die_modDie_ne _ _ h, s.castsForgotten_die]

theorem State.patchDecided_late_frame (s : State) (d row : Nat) :
    s.patchDecided d row false =
      { s with dies := (s.patchDecided d row false).dies, crofts := (s.patchDecided d row false).crofts } := by
  rw [s.patchDecided_late, State.degrade, State.modDie, State.modDie, State.setDie, State.setDie, s.castsForgotten_frame]

end Sys2Proof.Machine
end

section
/-!
Marks and barriers (R246 to R248), and the statement about links, detours and marks.
-/
namespace Sys2Proof.Machine

/-! ### Marks of a croft that reach the hub -/

/-- A step that carries a mark its croft has gathered. -/
def Step.taken (x : Step) (n : Nat) (c : Cause) : Step :=
  if c = .suspect then
    (if x.rerun then { x with disagreed := x.disagreed ++ [(n, 18)], suspect := true }
    else { x with disagreed := x.disagreed ++ [(n, 18)] }.addMark .suspect)
  else x.addMark c

/-- A step carries a mark: SUSPECT of a re-run is kept in its own field (R587). -/
def Step.Carries (x : Step) (c : Cause) : Prop :=
  (c ≠ .suspect → c ∈ x.marks) ∧ (c = .suspect → (x.rerun = false → Cause.suspect ∈ x.marks) ∧ (x.rerun = true → x.suspect = true))

/-- Marks of a step stay as others join. -/
structure Step.Grows (x y : Step) : Prop where
  id : y.id = x.id
  rerun : y.rerun = x.rerun
  marks : ∀ c ∈ x.marks, c ∈ y.marks
  suspect : x.suspect = true → y.suspect = true

theorem Step.Grows.refl (x : Step) : x.Grows x := ⟨rfl, rfl, fun _ h => h, fun h => h⟩

theorem Step.Grows.trans {x y z : Step} (a : x.Grows y) (b : y.Grows z) : x.Grows z :=
  ⟨b.id.trans a.id, b.rerun.trans a.rerun, fun c h => b.marks c (a.marks c h), fun h => b.suspect (a.suspect h)⟩

theorem Step.Carries.grows {x y : Step} {c : Cause} (h : x.Carries c) (g : x.Grows y) : y.Carries c := by
  obtain ⟨hmark, hsuspect⟩ := h
  exact ⟨fun hc => g.marks _ (hmark hc), fun hc => ⟨fun hr => g.marks _ ((hsuspect hc).1 (g.rerun ▸ hr)),
    fun hr => g.suspect ((hsuspect hc).2 (g.rerun ▸ hr))⟩⟩

theorem Step.addMark_grows (x : Step) (c : Cause) : x.Grows (x.addMark c) := by
  refine ⟨x.addMark_id c, ?_, fun k => x.addMark_keeps c k, fun h => ?_⟩ <;> unfold Step.addMark <;> split
  · rfl
  · rfl
  · exact h
  · exact h

theorem Step.taken_grows (x : Step) (n : Nat) (c : Cause) : x.Grows (x.taken n c) := by
  unfold Step.taken
  split
  next =>
    split
    next => exact ⟨rfl, rfl, fun _ h => h, fun _ => rfl⟩
    next =>
      have hpre : x.Grows { x with disagreed := x.disagreed ++ [(n, 18)] } := ⟨rfl, rfl, fun _ h => h, fun h => h⟩
      exact hpre.trans (Step.addMark_grows _ _)
  next => exact x.addMark_grows c

theorem Step.taken_carries (x : Step) (n : Nat) (c : Cause) : (x.taken n c).Carries c := by
  have hrerun := (x.taken_grows n c).rerun
  refine ⟨fun hc => ?_, fun hc => ⟨fun hr => ?_, fun hr => ?_⟩⟩
  · rw [Step.taken, if_neg hc]
    exact x.mem_addMark c
  · have hx : ¬x.rerun = true := by rw [← hrerun, hr]; decide
    rw [Step.taken, if_pos hc, if_neg hx]
    exact Step.mem_addMark _ _
  · rw [hrerun] at hr
    rw [Step.taken, if_pos hc, if_pos hr]

/-- From `s` to `t` the steps that the marks of `l` name have taken them from croft `n`, and no other step has moved. -/
structure MarksSent (s t : State) (n : Nat) (l : List (Nat × Cause)) : Prop where
  frame : t = { s with regs := t.regs, crofts := t.crofts, serve := { s.serve with steps := t.serve.steps } }
  steps : ∃ f : Step → Step, t.serve.steps = s.serve.steps.map f ∧ (∀ x : Step, x.Grows (f x)) ∧ (∀ x : Step, (∀ k ∈ l, k.1 ≠ x.id) → f x = x) ∧
    ∀ k ∈ l, ∀ x : Step, x.id = k.1 → (f x).Carries k.2
  regs : ∀ a, a ≠ (Page.croft n).base + 0x108 → t.regAt a = s.regAt a

theorem MarksSent.refl (s : State) (n : Nat) : MarksSent s s n [] :=
  ⟨rfl, ⟨id, (List.map_id _).symm, Step.Grows.refl, fun _ _ => rfl, fun _ h => absurd h List.not_mem_nil⟩, fun _ _ => rfl⟩

theorem MarksSent.trans {s t u : State} {n : Nat} {l m : List (Nat × Cause)} (a : MarksSent s t n l) (b : MarksSent t u n m) :
    MarksSent s u n (l ++ m) := by
  obtain ⟨f, hf, hgrow, hkeep, hcarry⟩ := a.steps
  obtain ⟨g, hg, ggrow, gkeep, gcarry⟩ := b.steps
  refine ⟨by rw [b.frame, a.frame], ⟨g ∘ f, by rw [hg, hf, List.map_map], fun x => (hgrow x).trans (ggrow _), fun x hx => ?_, ?_⟩,
    fun r hr => (b.regs r hr).trans (a.regs r hr)⟩
  · have hfx : f x = x := hkeep x fun k hk => hx k (List.mem_append_left _ hk)
    rw [Function.comp, hfx, gkeep x fun k hk => hx k (List.mem_append_right _ hk)]
  · intro k hk x hx
    obtain hk | hk := List.mem_append.mp hk
    · exact (hcarry k hk x hx).grows (ggrow _)
    · exact gcarry k hk _ ((hgrow x).id.trans hx)

/-- Taking a mark in the steps of its number. -/
def Step.takenIf (n : Nat) (k : Nat × Cause) (x : Step) : Step := if x.id = k.1 then x.taken n k.2 else x

theorem MarksSent.of_map {s t : State} {n : Nat} {k : Nat × Cause}
    (frame : t = { s with regs := t.regs, crofts := t.crofts, serve := { s.serve with steps := t.serve.steps } })
    (steps : t.serve.steps = s.serve.steps.map (Step.takenIf n k)) (regs : ∀ a, a ≠ (Page.croft n).base + 0x108 → t.regAt a = s.regAt a) :
    MarksSent s t n [k] := by
  refine ⟨frame, ⟨Step.takenIf n k, steps, fun x => ?_, fun x hx => ?_, fun j hj x hx => ?_⟩, regs⟩
  · unfold Step.takenIf
    split
    next => exact x.taken_grows n k.2
    next => exact .refl x
  · exact if_neg (Ne.symm (hx k List.mem_cons_self))
  · obtain rfl := List.mem_singleton.mp hj
    rw [Step.takenIf, if_pos hx]
    exact x.taken_carries n j.2

theorem State.markStep_sent (s : State) (n : Nat) (k : Nat × Cause) (h : k.2 ≠ .suspect) : MarksSent s (s.markStep k.1 k.2) n [k] := by
  refine .of_map rfl (List.map_congr_left fun x _ => ?_) fun _ _ => rfl
  rw [Step.takenIf, Step.taken, if_neg h]

/-- The counters and the croft that SUSPECT of a step moves. -/
def State.suspectCounted (s : State) (x : Step) (n i : Nat) : State :=
  (if x.disagreed.any fun e => e.1 == n then s else s.bumpCroft n 0x108).gatherMark n i .suspect

theorem State.suspectCounted_frame (s : State) (x : Step) (n i : Nat) :
    s.suspectCounted x n i = { s with regs := (s.suspectCounted x n i).regs, crofts := (s.suspectCounted x n i).crofts } := by
  have hgather (u : State) (hu : u = { s with regs := u.regs }) : u.gatherMark n i .suspect =
      { s with regs := (u.gatherMark n i .suspect).regs, crofts := (u.gatherMark n i .suspect).crofts } := by
    rw [State.gatherMark, State.modCroft, State.setCroft, hu]
  unfold State.suspectCounted
  split
  next => exact hgather s rfl
  next => exact hgather _ (by rw [State.bumpCroft, State.bump, State.setReg])

theorem State.suspectCounted_regAt (s : State) (x : Step) (n i : Nat) {a : Nat} (ha : a ≠ (Page.croft n).base + 0x108) :
    (s.suspectCounted x n i).regAt a = s.regAt a := by
  unfold State.suspectCounted
  rw [State.gatherMark, State.modCroft_regAt]
  split
  next => rfl
  next => exact (State.regAt_bump _ _ _ _ _).trans (if_neg ha)

theorem State.findStep_none {s : State} {i : Nat} (h : s.findStep i = none) : ∀ x ∈ s.serve.steps, x.id ≠ i := by
  intro x hx he
  exact List.find?_eq_none.mp h x hx (beq_iff_eq.mpr he)

theorem State.markSuspect_some {s : State} {i n : Nat} {x : Step} (h : s.findStep i = some x) :
    s.markSuspect i n none = (s.suspectCounted x n i).modStep i fun y => y.taken n .suspect := by
  have hstep : (fun y : Step => if y.rerun then { y with disagreed := y.disagreed ++ [(n, 18)], suspect := true }
      else { y with disagreed := y.disagreed ++ [(n, 18)] }.addMark .suspect) = fun y => y.taken n .suspect := by
    funext y
    exact (if_pos rfl).symm
  rw [← hstep]
  simp only [State.markSuspect, h]
  rfl

theorem State.markSuspect_sent (s : State) (n i : Nat) : MarksSent s (s.markSuspect i n none) n [(i, .suspect)] := by
  rcases h : s.findStep i with _ | x
  · have hnone : s.markSuspect i n none = s := by simp only [State.markSuspect, h]
    rw [hnone]
    refine .of_map rfl ?_ fun _ _ => rfl
    refine ((List.map_congr_left fun x hx => ?_).trans (List.map_id _)).symm
    exact if_neg (State.findStep_none h x hx)
  · rw [State.markSuspect_some h]
    refine .of_map ?_ ?_ fun a ha => s.suspectCounted_regAt x n i ha
    · rw [State.modStep, s.suspectCounted_frame]
    · rw [State.modStep, s.suspectCounted_frame]
      rfl

theorem State.takeMark_sent (s : State) (n : Nat) (k : Nat × Cause) : MarksSent s (s.takeMark n k) n [k] := by
  obtain ⟨i, c⟩ := k
  by_cases h : c = .suspect
  · subst h
    exact s.markSuspect_sent n i
  · have hmark : s.takeMark n (i, c) = s.markStep i c := by
      unfold State.takeMark
      split
      next he => exact absurd he h
      next => rfl
    rw [hmark]
    exact s.markStep_sent n (i, c) h

theorem State.takeMarks_sent (s : State) (n : Nat) (l : List (Nat × Cause)) :
    MarksSent s (l.foldl (fun (t : State) k => t.takeMark n k) s) n l := by
  induction l generalizing s with
  | nil => exact .refl s n
  | cons k l ih => exact (s.takeMark_sent n k).trans (ih (s.takeMark n k))

/-! ### MARK -/

/-- The state with a croft's marks taken and its message sent, before the message counts. -/
def State.marksTaken (s : State) (n : Nat) : State :=
  ((s.croft n).gathered.foldl (fun (t : State) k => t.takeMark n k) s).modCroft n fun c => { c with markSent := true }

theorem State.marksTaken_sent (s : State) (n : Nat) : MarksSent s (s.marksTaken n) n (s.croft n).gathered := by
  have hsent := s.takeMarks_sent n (s.croft n).gathered
  unfold State.marksTaken
  generalize (s.croft n).gathered.foldl (fun (t : State) k => t.takeMark n k) s = u at hsent ⊢
  refine ⟨?_, hsent.steps, hsent.regs⟩
  rw [State.modCroft, State.setCroft, hsent.frame]

theorem State.sendMark_idle (s : State) (n : Nat) (h : (s.croft n).gathered = []) : s.sendMark n = s :=
  if_pos (by rw [h]; rfl)

theorem State.sendMark_sends (s : State) (n : Nat) (h : (s.croft n).gathered ≠ []) :
    s.sendMark n = if (s.croft n).markSent then s.marksTaken n else (s.marksTaken n).bump (.foot (croftDie n)) 0x100 1 :=
  if_neg (by simpa using h)

theorem State.sendMark_frame (s : State) (n : Nat) : s.sendMark n =
    { s with regs := (s.sendMark n).regs, crofts := (s.sendMark n).crofts, serve := { s.serve with steps := (s.sendMark n).serve.steps } } := by
  by_cases h : (s.croft n).gathered = []
  · rw [s.sendMark_idle n h]
  · have hframe := (s.marksTaken_sent n).frame
    rw [s.sendMark_sends n h]
    split
    next => exact hframe
    next =>
      rw [State.bump, State.setReg, hframe]

end Sys2Proof.Machine
end

section
/-!
The statement about links, detours, marks and barriers.
-/
namespace Sys2Proof.Machine

/-! ### MARK, as the statement has it -/

theorem exec_mark (s : State) (c : CroftAt) : exec (.mark c) s = .next (s.sendMark c.num) := rfl

theorem State.sendMark_serve (s : State) (n : Nat) (h : (s.croft n).gathered ≠ []) : (s.sendMark n).serve = (s.marksTaken n).serve := by
  rw [s.sendMark_sends n h]
  split
  next => rfl
  next => exact State.bump_serve _ _ _ _

theorem State.sendMark_croft (s : State) (n : Nat) (h : (s.croft n).gathered ≠ []) :
    ((s.sendMark n).croft n).markSent = true := by
  have htaken : ((s.marksTaken n).croft n).markSent = true := by rw [State.marksTaken, State.croft_modCroft_self]
  rw [s.sendMark_sends n h]
  split
  next => exact htaken
  next => rwa [State.bump_croft]

theorem State.sendMark_reg (s : State) (c : CroftAt) (h : (s.croft c.num).gathered ≠ []) :
    (s.sendMark c.num).reg (.foot c.die.val) 0x100 =
      if (s.croft c.num).markSent then s.reg (.foot c.die.val) 0x100 else satAdd (s.reg (.foot c.die.val) 0x100) 1 := by
  have hreg : (s.marksTaken c.num).reg (.foot c.die.val) 0x100 = s.reg (.foot c.die.val) 0x100 := by
    refine (s.marksTaken_sent c.num).regs _ ?_
    simp only [Page.base, dieBase]
    omega
  rw [s.sendMark_sends _ h, croftDie_num]
  split
  next => exact hreg
  next => rw [State.bump, State.reg_setReg_self, hreg]

/-- A croft without marks of another step keeps that step; a step carries each mark that names it. -/
theorem State.sendMark_steps (s : State) (n : Nat) (h : (s.croft n).gathered ≠ []) :
    (∀ x ∈ s.serve.steps, (∀ k ∈ (s.croft n).gathered, k.1 ≠ x.id) → x ∈ (s.sendMark n).serve.steps) ∧
      (∀ k ∈ (s.croft n).gathered, ∀ x ∈ (s.sendMark n).serve.steps, x.id = k.1 → x.Carries k.2) ∧
      (s.sendMark n).serve.steps.length = s.serve.steps.length := by
  obtain ⟨f, hf, hgrow, hkeep, hcarry⟩ := (s.marksTaken_sent n).steps
  rw [s.sendMark_serve n h, hf]
  refine ⟨fun x hx hk => ?_, fun k hk y hy hid => ?_, List.length_map _⟩
  · exact List.mem_map.mpr ⟨x, hx, hkeep x hk⟩
  · obtain ⟨x, -, rfl⟩ := List.mem_map.mp hy
    exact hcarry k hk x ((hgrow x).id.symm.trans hid)

/-! ### BARRIER -/

/-- The members that have arrived at a barrier before this arrival: none when it was released (R248). -/
def Die.arrivedAt (x : Die) (number : Nat) : List Nat :=
  match tfind x.barriers number with
  | some b => if b.released then [] else b.arrived
  | none => []

/-- The arrivals with this one. -/
def withArrival (arrived all : List Nat) (m : Nat) : List Nat := if m ∈ arrived ∨ m ∉ all then arrived else arrived ++ [m]

theorem withArrival_mem {arrived all : List Nat} {m : Nat} (h : m ∈ all) : m ∈ withArrival arrived all m := by
  unfold withArrival
  split
  next ha => exact ha.resolve_right (not_not.mpr h)
  next => exact List.mem_append_right _ (List.mem_singleton.mpr rfl)

theorem withArrival_keeps {arrived all : List Nat} {m k : Nat} (h : k ∈ arrived) : k ∈ withArrival arrived all m := by
  unfold withArrival
  split
  next => exact h
  next => exact List.mem_append_left _ h

theorem withArrival_first {all : List Nat} {m : Nat} (h : m ∈ all) : withArrival [] all m = [m] :=
  if_neg (by simp [h])

/-- The members a barrier waits for. -/
def members (ms : List CroftAt) : List Nat := (ms.map CroftAt.num).eraseDups

theorem mem_members (ms : List CroftAt) (n : Nat) : n ∈ members ms ↔ ∃ c ∈ ms, c.num = n := by
  rw [members, List.mem_eraseDups, List.mem_map]

/-- A barrier after an arrival. -/
def Die.barrierNow (x : Die) (number : Nat) (all : List Nat) (m : Nat) : BarrierState :=
  { members := all, arrived := withArrival (x.arrivedAt number) all m
    released := all.all fun n => decide (n ∈ withArrival (x.arrivedAt number) all m) }

theorem Die.barrierNow_released (x : Die) (number : Nat) (ms : List CroftAt) (m : Nat) :
    (x.barrierNow number (members ms) m).released = true ↔
      ∀ c ∈ ms, c.num ∈ (x.barrierNow number (members ms) m).arrived := by
  simp only [Die.barrierNow, List.all_eq_true, mem_members, decide_eq_true_eq]
  exact ⟨fun h c hc => h _ ⟨c, hc, rfl⟩, fun h _ ⟨c, hc, he⟩ => he ▸ h c hc⟩

/-- The state with an arrival at a barrier, before its messages count. -/
def State.barrierSet (s : State) (d number : Nat) (all : List Nat) (m : Nat) : State :=
  s.modDie d fun x => { x with barriers := tset x.barriers number ((s.die d).barrierNow number all m) }

/-- The state with the messages of an arrival counted. -/
def State.arrivalCounted (s : State) (d : Nat) (b : BarrierState) : State :=
  if b.released then (s.bump (.foot d) 0x100 (1 + if b.released then b.members.length else 0)).bump (.foot d) 0x118 1
  else s.bump (.foot d) 0x100 (1 + if b.released then b.members.length else 0)

theorem State.arrivalCounted_frame (s : State) (d : Nat) (b : BarrierState) :
    s.arrivalCounted d b = { s with regs := (s.arrivalCounted d b).regs } := by
  unfold State.arrivalCounted
  split
  next => rw [State.bump, State.setReg, State.bump, State.setReg]
  next => rw [State.bump, State.setReg]

theorem State.arrivalCounted_die (s : State) (d : Nat) (b : BarrierState) (e : Nat) : (s.arrivalCounted d b).die e = s.die e := by
  rw [State.die, s.arrivalCounted_frame, State.die]

theorem exec_barrier (s u : State) (d : DieId) (number : Nat) (ms : List CroftAt) (m : CroftAt)
    (hu : u = if (s.croft m.num).markSent then s else s.sendMark m.num) :
    exec (.barrier d number ms m) s = .next
      ((u.barrierSet d.val number (members ms) m.num).arrivalCounted d.val
        ((u.die d.val).barrierNow number (members ms) m.num)) := by
  subst hu
  rfl

/-- An arrival at a barrier: it is released when its last member has arrived (R248). -/
theorem exec_barrier_spec (s : State) (d : DieId) (n : Nat) (ms : List CroftAt) (m : CroftAt) (hm : m ∈ ms) (u : State)
    (hu : u = if (s.croft m.num).markSent then s else s.sendMark m.num) :
    ∃ t b, exec (.barrier d n ms m) s = .next t ∧ tfind (t.die d.val).barriers n = some b ∧ m.num ∈ b.arrived ∧
      (∀ o, tfind (s.die d.val).barriers n = some o → o.released = false → ∀ x ∈ o.arrived, x ∈ b.arrived) ∧
      (∀ o, tfind (s.die d.val).barriers n = some o → o.released = true → b.arrived = [m.num]) ∧
      (b.released = true ↔ ∀ x ∈ ms, x.num ∈ b.arrived) ∧ (∀ q, q ≠ n → tfind (t.die d.val).barriers q = tfind (s.die d.val).barriers q) ∧
      (∀ e, e ≠ d.val → t.die e = s.die e) ∧ t = { u with regs := t.regs, dies := t.dies } := by
  have hdie (e : Nat) : u.die e = s.die e := by
    rw [hu]
    split
    next => rfl
    next => rw [State.die, s.sendMark_frame, State.die]
  have hall : m.num ∈ (members ms) := (mem_members _ _).mpr ⟨m, hm, rfl⟩
  have hframe := (u.barrierSet d.val n (members ms) m.num).arrivalCounted_frame d.val
    ((u.die d.val).barrierNow n (members ms) m.num)
  have htdie (e : Nat) : ((u.barrierSet d.val n (members ms) m.num).arrivalCounted d.val
      ((u.die d.val).barrierNow n (members ms) m.num)).die e = (u.barrierSet d.val n (members ms) m.num).die e :=
    State.arrivalCounted_die _ _ _ _
  have hself : (u.barrierSet d.val n (members ms) m.num).die d.val =
      { s.die d.val with barriers := tset (s.die d.val).barriers n ((u.die d.val).barrierNow n (members ms) m.num) } := by
    rw [State.barrierSet, State.die_modDie_self, hdie]
  refine ⟨_, (u.die d.val).barrierNow n (members ms) m.num, exec_barrier s u d n ms m hu, ?found, withArrival_mem hall, ?kept, ?anew, Die.barrierNow_released _ _ _ _, ?others, ?dies, ?frame⟩
  case found =>
    rw [htdie]
    exact (congrArg (fun x : Die => tfind x.barriers n) hself).trans (tfind_tset_self _ _ _)
  case kept =>
    intro o ho hr x hx
    refine withArrival_keeps ?_
    rw [hdie, Die.arrivedAt, ho]
    simpa [hr] using hx
  case anew =>
    intro o ho hr
    have hnone : (s.die d.val).arrivedAt n = [] := by
      rw [Die.arrivedAt, ho]
      exact if_pos hr
    rw [hdie, Die.barrierNow, hnone]
    exact withArrival_first hall
  case others =>
    intro q hq
    rw [htdie]
    refine (congrArg (fun x : Die => tfind x.barriers q) hself).trans ?_
    rw [tfind_tset, if_neg hq]
  case dies =>
    intro e he
    rw [htdie]
    exact (State.die_modDie_ne u _ he).trans (hdie e)
  case frame =>
    rw [hframe]
    rfl

/-- Settles O40: faults fence and degrade, a row's patches are written or given up together, and marks and arrivals are taken one by one. -/
theorem linkErrorsDetoursMarks : Obligations.LinkErrorsDetoursMarks := by
  refine ⟨fun s r link step => ⟨exec_flitParity_spec s r link step, exec_footpathParity_spec s r link, ⟨_, rfl, ?slot⟩⟩,
    fun s d row c n ms m => ⟨fun hdue => ⟨?fits, ?late⟩, exec_detourFit_idle s d row, ?unmarked, ?marked, ?barrier⟩⟩
  case slot =>
    have hfault := s.routerFault_faulted r
    exact ⟨hfault.fault, hfault.service, hfault.degraded, hfault.serve⟩
  case fits =>
    intro hfits
    have hexec : exec (.detourFit d row) s = .next (s.modDie d.val fun x => x.patched row.val) := by
      rw [exec_detourFit_due s d row hdue, (s.rowFits_iff d.val row.val).mpr hfits, State.patchDecided_fits]
    obtain ⟨j, hj, hjdue⟩ := hdue
    refine ⟨_, hexec, fun e he => State.die_modDie_ne _ _ he, rfl, ?_⟩
    rw [State.die_modDie_self]
    exact ⟨Die.patched_done _ _, List.length_map _, Die.patched_busy _ _ hj ((j.due_iff _).mpr hjdue), rfl⟩
  case late =>
    rintro ⟨p, hp, j, hj, hrow, hnone, hlate⟩
    have hno : s.rowFits d.val row.val = false := by
      refine Bool.eq_false_iff.mpr fun hfits => ?_
      obtain ⟨hl, hb⟩ := (s.rowFits_iff d.val row.val).mp hfits p hp j hj hrow hnone
      omega
    have hexec : exec (.detourFit d row) s = .next (s.patchDecided d.val row.val false) := by
      rw [exec_detourFit_due s d row hdue, hno]
    refine ⟨_, hexec, ?_, ?_, ?_, fun e he => s.patchDecided_late_die_ne he, s.patchDecided_late_frame _ _⟩ <;> rw [s.patchDecided_late_die]
    · rfl
    · intro i hi
      obtain ⟨hmem, hdue⟩ := List.mem_filter.mp hi
      exact ⟨hmem, fun h => by simp [(i.due_iff _).mpr h] at hdue⟩
    · intro i hi hother
      refine List.mem_filter.mpr ⟨hi, ?_⟩
      rw [Bool.not_eq_true', Bool.eq_false_iff, ne_eq, SpareJob.due_iff]
      exact fun h => hother.elim (fun hr => hr h.1) fun hf => hf h.2
  case unmarked =>
    intro h
    rw [exec_mark, s.sendMark_idle _ h]
  case marked =>
    intro h
    obtain ⟨hkeep, hcarry, hlen⟩ := s.sendMark_steps c.num h
    refine ⟨_, exec_mark s c, hkeep, fun k hk => ⟨fun hc x hx hid => (hcarry k hk x hx hid).1 hc, fun hc y hy hid => (hcarry k hk y hy hid).2 hc⟩,
      hlen, s.sendMark_croft _ h, s.sendMark_reg c h, s.sendMark_frame _⟩
  case barrier =>
    intro hm u hu
    refine exec_barrier_spec s d n ms m hm u ?_
    split at hu
    next hsent => rw [hu, if_pos hsent]
    next hsent =>
      rw [exec_mark] at hu
      rw [if_neg hsent]
      exact (Host.Outcome.next.inj hu).symm

end Sys2Proof.Machine
end

section
/-!
The gather buffer of a die (R194 to R197).
-/
namespace Sys2Proof.Machine

/-! ### Where usable rows lie -/

/-- A slice-row that can be reached: in map mode the spare rows are reached only through the row map (R188). -/
abbrev Die.Usable (x : Die) (row : Nat) : Prop := x.mapMode = false ∨ row % 2048 < 1984

theorem Die.usable_rows {x : Die} {row : Nat} (h : x.Usable row) : row % 2048 < x.granRows := by
  unfold Die.granRows
  obtain h | h := h
  · rw [if_neg (by simp [h])]
    omega
  · split <;> omega

/-- A row of a slice lies among the rows of its slice. -/
theorem Die.granRow_slice (x : Die) (k r : Nat) (hr : r < 2048) : ∃ q < 2048, x.granRow k r = 2048 * k + q := by
  by_cases hp : x.mapMode = false ∨ x.granMap = []
  · exact ⟨r, hr, x.granRow_plain k r hp⟩
  · rw [x.granRow_mapped k r hp]
    refine ⟨_, ?_, rfl⟩
    rcases he : x.granSpare k r with _ | e
    · simpa using hr
    · have hmem : e ∈ (List.range 64).reverse := List.mem_of_find?_eq_some he
      rw [List.mem_reverse, List.mem_range] at hmem
      rw [Option.elim_some]
      omega

/-- No two addresses of usable rows share a byte. -/
theorem Die.granAt_inj (x : Die) {a c : Nat} (ha : x.Usable (a / 512)) (hc : x.Usable (c / 512)) (h : x.granAt a = x.granAt c) : a = c := by
  obtain ⟨q, hq, hrow⟩ := x.granRow_slice (a / 2 ^ 20) (a / 512 % 2048) (by omega)
  obtain ⟨p, hp, hrow'⟩ := x.granRow_slice (c / 2 ^ 20) (c / 512 % 2048) (by omega)
  unfold Die.granAt at h
  have hsame : x.granRow (a / 2 ^ 20) (a / 512 % 2048) = x.granRow (c / 2 ^ 20) (c / 512 % 2048) := by omega
  have hslice : a / 2 ^ 20 = c / 2 ^ 20 := by omega
  have hoff : a % 512 = c % 512 := by omega
  rw [hslice] at hsame
  have := x.granRow_inj (c / 2 ^ 20) _ _ (usable_rows ha) (usable_rows hc) hsame
  omega

/-! ### Bytes of one row -/

/-- The granary with bytes of a row written at their offsets. -/
def Die.setRow (x : Die) (row : Nat) (l : List (Nat × BitVec 8)) : Die :=
  l.foldl (fun (y : Die) b => y.setGran (512 * row + b.1) b.2) x

theorem Die.setRow_frame (x : Die) (row : Nat) (l : List (Nat × BitVec 8)) :
    x.setRow row l = { x with granary := (x.setRow row l).granary, granBad := (x.setRow row l).granBad } := by
  induction l generalizing x with
  | nil => rfl
  | cons b l ih =>
    change (x.setGran (512 * row + b.1) b.2).setRow row l = _
    rw [ih]
    rfl

theorem Die.setRow_granary (x : Die) (row : Nat) (l : List (Nat × BitVec 8)) :
    (x.setRow row l).granary = l.foldl (fun m b => Memory.set m (x.granAt (512 * row + b.1)) b.2) x.granary := by
  induction l generalizing x with
  | nil => rfl
  | cons b l ih => exact ih (x.setGran (512 * row + b.1) b.2)

theorem tfind_none_of_key {α : Type} {l : Table α} {k : Nat} (h : k ∉ l.map (·.1)) : tfind l k = none := by
  rw [tfind, Option.map_eq_none_iff, List.find?_eq_none]
  intro e he hk
  exact h (List.mem_map.mpr ⟨e, he, beq_iff_eq.mp hk⟩)

/-- A byte of the row reads as written, every other usable byte as before. -/
theorem Die.granByte_setRow (x : Die) (row : Nat) (l : List (Nat × BitVec 8)) (hnodup : (l.map (·.1)).Nodup) (hoff : ∀ b ∈ l, b.1 < 512)
    (hrow : x.Usable row) (c : Nat) (hc : x.Usable (c / 512)) :
    (x.setRow row l).granByte c = if c / 512 = row then (tfind l (c % 512)).getD (x.granByte c) else x.granByte c := by
  induction l generalizing x with
  | nil => exact (ite_self (x.granByte c)).symm
  | cons b l ih =>
    obtain ⟨o, v⟩ := b
    have hlt : o < 512 := hoff (o, v) List.mem_cons_self
    rw [List.map_cons, List.nodup_cons] at hnodup
    obtain ⟨hnew, hnodup⟩ := hnodup
    have hcons : x.setRow row ((o, v) :: l) = (x.setGran (512 * row + o) v).setRow row l := rfl
    rw [hcons, ih (x.setGran (512 * row + o) v) hnodup (fun b hb => hoff b (List.mem_cons_of_mem _ hb)) hrow hc, x.granByte_setGran]
    have hat : x.granAt c = x.granAt (512 * row + o) ↔ c / 512 = row ∧ c % 512 = o := by
      constructor
      · intro h
        have := x.granAt_inj hc (c := 512 * row + o) (by rwa [show (512 * row + o) / 512 = row by omega]) h
        omega
      · rintro ⟨h1, h2⟩
        rw [show c = 512 * row + o by omega]
    by_cases hr : c / 512 = row
    · by_cases ho : c % 512 = o
      · rw [if_pos hr, if_pos (hat.mpr ⟨hr, ho⟩), if_pos hr, ho, tfind_none_of_key hnew, tfind_cons, if_pos rfl]
        rfl
      · rw [if_pos hr, if_neg (fun h => ho (hat.mp h).2), if_pos hr, tfind_cons, if_neg (Ne.symm ho)]
    · rw [if_neg hr, if_neg (fun h => hr (hat.mp h).1), if_neg hr]

/-! ### Entries -/

theorem Die.narrowByte_eq (x : Die) (a : Nat) :
    x.narrowByte a = ((x.entryOf (a / 512)).bind fun e => tfind e.bytes (a % 512)).getD (x.granByte a) := by
  unfold Die.narrowByte
  split
  next b h => rw [h, Option.getD_some]
  next h => rw [h, Option.getD_none]

theorem Die.entryOf_row {x : Die} {row : Nat} {e : GatherEntry} (h : x.entryOf row = some e) : e.row = row := by
  simpa using List.find?_some h

theorem Die.entryOf_mem {x : Die} {row : Nat} {e : GatherEntry} (h : x.entryOf row = some e) : e ∈ x.gather := List.mem_of_find?_eq_some h

theorem find_row_of_mem {l : List GatherEntry} {e : GatherEntry} (h : (l.map (·.row)).Nodup) (he : e ∈ l) :
    l.find? (fun k => k.row == e.row) = some e := by
  induction l with
  | nil => simp at he
  | cons k l ih =>
    rw [List.map_cons, List.nodup_cons] at h
    obtain ⟨hk, h⟩ := h
    obtain rfl | he := List.mem_cons.mp he
    · simp
    · have hne : k.row ≠ e.row := fun heq => hk (List.mem_map.mpr ⟨e, he, heq.symm⟩)
      rw [List.find?_cons_of_neg (by simpa using hne)]
      exact ih h he

/-- With one entry for a row, that one is found (R197). -/
theorem Die.entryOf_of_mem {x : Die} (h : x.gatherOk) {e : GatherEntry} (he : e ∈ x.gather) : x.entryOf e.row = some e :=
  find_row_of_mem h.1 he

theorem Die.entryOf_filter (x : Die) (row r : Nat) :
    (x.gather.filter fun k => k.row != row).find? (fun e => e.row == r) = if r = row then none else x.entryOf r := by
  rw [List.find?_filter]
  split
  next h =>
    rw [List.find?_eq_none]
    intro k _
    simp [h]
  next h =>
    unfold Die.entryOf
    congr 1
    funext k
    by_cases hk : k.row = r
    · simp [hk, h]
    · simp [hk]

/-! ### The write-back of an entry -/

theorem Die.writeBack_eq (x : Die) (e : GatherEntry) :
    x.writeBack e = { x.setRow e.row e.bytes with gather := x.gather.filter fun k => k.row != e.row } := rfl

theorem Die.writeBack_gatherOk (x : Die) (e : GatherEntry) (h : x.gatherOk) : (x.writeBack e).gatherOk := by
  obtain ⟨hrows, hbytes⟩ := h
  exact ⟨(List.filter_sublist.map _).nodup hrows, fun k hk => hbytes k (List.mem_filter.mp hk).1⟩

theorem Die.writeBack_entryOf (x : Die) (e : GatherEntry) (r : Nat) :
    (x.writeBack e).entryOf r = if r = e.row then none else x.entryOf r := x.entryOf_filter e.row r

theorem Die.writeBack_frame (x : Die) (e : GatherEntry) : x.writeBack e =
    { x with granary := (x.writeBack e).granary, granBad := (x.writeBack e).granBad, gather := (x.writeBack e).gather } := by
  rw [Die.writeBack_eq, Die.setRow_frame]

theorem Die.writeBack_granByte (x : Die) (e : GatherEntry) (h : (e.bytes.map (·.1)).Nodup ∧ ∀ b ∈ e.bytes, b.1 < 512)
    (hrow : x.Usable e.row) (c : Nat) (hc : x.Usable (c / 512)) :
    (x.writeBack e).granByte c = if c / 512 = e.row then (tfind e.bytes (c % 512)).getD (x.granByte c) else x.granByte c :=
  x.granByte_setRow e.row e.bytes h.1 h.2 hrow c hc

/-- A write-back changes nothing that a read returns (R196, R197). -/
theorem Die.writeBack_narrowByte (x : Die) (e : GatherEntry) (hok : x.gatherOk) (he : e ∈ x.gather) (hrow : x.Usable e.row) (c : Nat)
    (hc : x.Usable (c / 512)) : (x.writeBack e).narrowByte c = x.narrowByte c := by
  rw [Die.narrowByte_eq, Die.narrowByte_eq, Die.writeBack_entryOf, x.writeBack_granByte e (hok.2 e he) hrow c hc]
  by_cases h : c / 512 = e.row
  · rw [if_pos h, if_pos h, h, Die.entryOf_of_mem hok he]
    rfl
  · rw [if_neg h, if_neg h]

/-! ### An entry that takes bytes -/

/-- The bytes of an entry with the data of a write from address `a` on (R197). -/
def gatherBytes (old : List (Nat × BitVec 8)) (a : Nat) (data : List (BitVec 8)) (n : Nat) : List (Nat × BitVec 8) :=
  (List.range n).foldl (fun m i => tset m ((a + i) % 512) ((data[i]?).getD 0)) old

theorem gatherBytes_succ (old : List (Nat × BitVec 8)) (a : Nat) (data : List (BitVec 8)) (n : Nat) :
    gatherBytes old a data (n + 1) = tset (gatherBytes old a data n) ((a + n) % 512) ((data[n]?).getD 0) := by
  simp only [gatherBytes, List.range_succ, List.foldl_append, List.foldl_cons, List.foldl_nil]

theorem tfind_gatherBytes (old : List (Nat × BitVec 8)) (a : Nat) (data : List (BitVec 8)) (n : Nat) (h : a % 512 + n ≤ 512) (o : Nat) :
    tfind (gatherBytes old a data n) o = if a % 512 ≤ o ∧ o < a % 512 + n then some ((data[o - a % 512]?).getD 0) else tfind old o := by
  induction n with
  | zero =>
    rw [if_neg (by omega)]
    rfl
  | succ n ih =>
    rw [gatherBytes_succ, tfind_tset, ih (by omega), show (a + n) % 512 = a % 512 + n by omega]
    by_cases ho : o = a % 512 + n
    · rw [if_pos ho, if_pos (by omega), show o - a % 512 = n by omega]
    · rw [if_neg ho]
      exact if_congr (by omega) rfl rfl

theorem tinsert_perm {α : Type} (m : Table α) (k : Nat) (v : α) : (tinsert m k v).Perm ((k, v) :: m) := by
  induction m with
  | nil => exact .refl _
  | cons e m ih =>
    unfold tinsert
    split
    next => exact .refl _
    next => exact (ih.cons e).trans (.swap _ _ _)

theorem nodup_tset {α : Type} (m : Table α) (k : Nat) (v : α) (h : (m.map (·.1)).Nodup) : ((tset m k v).map (·.1)).Nodup := by
  unfold tset
  rw [((tinsert_perm (tdrop m k) k v).map _).nodup_iff, List.map_cons, List.nodup_cons]
  exact ⟨fun hk => ((mem_tdrop_keys m k k).mp hk).1 rfl, (List.filter_sublist.map _).nodup h⟩

/-- At most one byte for each offset of a row. -/
def OffsetsOk (l : List (Nat × BitVec 8)) : Prop := (l.map (·.1)).Nodup ∧ ∀ b ∈ l, b.1 < 512

theorem gatherBytes_ok (old : List (Nat × BitVec 8)) (a : Nat) (data : List (BitVec 8)) (n : Nat) (h : OffsetsOk old) :
    OffsetsOk (gatherBytes old a data n) := by
  induction n with
  | zero => exact h
  | succ n ih =>
    obtain ⟨hnodup, hoff⟩ := ih
    rw [gatherBytes_succ]
    refine ⟨nodup_tset _ _ _ hnodup, fun b hb => ?_⟩
    obtain rfl | hb := (mem_tinsert _ _ _ _).mp hb
    · exact Nat.mod_lt _ (by decide)
    · exact hoff b (List.mem_filter.mp hb).1

/-- A die with an entry put in its gather buffer, in the place of the row's old one. -/
def Die.putEntry (x : Die) (e : GatherEntry) : Die :=
  { x with gather := if (x.entryOf e.row).isNone then x.gather ++ [e] else x.gather.map fun k => if k.row = e.row then e else k }

theorem Die.putEntry_mem {x : Die} {e k : GatherEntry} (h : k ∈ (x.putEntry e).gather) : k = e ∨ k ∈ x.gather := by
  unfold Die.putEntry at h
  dsimp only at h
  split at h
  next =>
    obtain h | h := List.mem_append.mp h
    · exact .inr h
    · exact .inl (List.mem_singleton.mp h)
  next =>
    obtain ⟨j, hj, rfl⟩ := List.mem_map.mp h
    split
    next => exact .inl rfl
    next => exact .inr hj

theorem Die.entryOf_none {x : Die} {row : Nat} (h : x.entryOf row = none) : ∀ k ∈ x.gather, k.row ≠ row := by
  intro k hk he
  exact List.find?_eq_none.mp h k hk (beq_iff_eq.mpr he)

theorem Die.putEntry_entryOf (x : Die) (e : GatherEntry) (r : Nat) : (x.putEntry e).entryOf r = if r = e.row then some e else x.entryOf r := by
  rcases hold : x.entryOf e.row with _ | k
  · have hput : (x.putEntry e).gather = x.gather ++ [e] := if_pos (by rw [hold]; rfl)
    rw [Die.entryOf, hput, List.find?_append]
    split
    next h =>
      subst h
      have : x.gather.find? (fun k => k.row == e.row) = none := hold
      simp [this]
    next h =>
      have hne : (e.row == r) = false := by simpa using Ne.symm h
      simp [Die.entryOf, hne]
  · have hput : (x.putEntry e).gather = x.gather.map fun k => if k.row = e.row then e else k := if_neg (by rw [hold]; simp)
    have hpred : ((fun k : GatherEntry => k.row == r) ∘ fun k => if k.row = e.row then e else k) = fun k => k.row == r := by
      funext k
      rw [Function.comp]
      split
      next h => rw [h]
      next => rfl
    rw [Die.entryOf, hput, List.find?_map, hpred]
    change (x.entryOf r).map _ = _
    split
    next h =>
      rw [h, hold, Option.map_some, if_pos (Die.entryOf_row hold)]
    next h =>
      rcases hr : x.entryOf r with _ | j
      · rfl
      · rw [Option.map_some, if_neg (by rw [Die.entryOf_row hr]; exact h)]

theorem Die.putEntry_gatherOk (x : Die) (e : GatherEntry) (h : x.gatherOk) (he : OffsetsOk e.bytes) : (x.putEntry e).gatherOk := by
  obtain ⟨hrows, hbytes⟩ := h
  refine ⟨?_, fun k hk => ?_⟩
  · rcases hold : x.entryOf e.row with _ | k
    · have hput : (x.putEntry e).gather = x.gather ++ [e] := if_pos (by rw [hold]; rfl)
      rw [hput, List.map_append, List.nodup_append]
      refine ⟨hrows, by simp, ?_⟩
      intro a ha b hb
      obtain ⟨k, hk, rfl⟩ := List.mem_map.mp ha
      rw [List.map_singleton, List.mem_singleton] at hb
      exact hb ▸ Die.entryOf_none hold k hk
    · have hput : (x.putEntry e).gather = x.gather.map fun k => if k.row = e.row then e else k := if_neg (by rw [hold]; simp)
      have hsame : (x.putEntry e).gather.map (·.row) = x.gather.map (·.row) := by
        rw [hput, List.map_map]
        refine List.map_congr_left fun k _ => ?_
        rw [Function.comp]
        split
        next h => exact h.symm
        next => rfl
      rwa [hsame]
  · obtain rfl | hk := Die.putEntry_mem hk
    · exact he
    · exact hbytes k hk

end Sys2Proof.Machine
end

section
/-!
Narrow accesses (R188, R194 to R197, R211).
-/
namespace Sys2Proof.Machine

/-! ### Dies that read alike -/

theorem Die.granRow_congr {x y : Die} (hmode : y.mapMode = x.mapMode) (hmap : y.granMap = x.granMap)
    (hpending : y.granMapPending = x.granMapPending) (k r : Nat) : y.granRow k r = x.granRow k r := by
  unfold Die.granRow
  rw [hmode, hmap, hpending]

theorem Die.granAt_congr {x y : Die} (hmode : y.mapMode = x.mapMode) (hmap : y.granMap = x.granMap)
    (hpending : y.granMapPending = x.granMapPending) (a : Nat) : y.granAt a = x.granAt a := by
  rw [Die.granAt, Die.granRow_congr hmode hmap hpending, Die.granAt]

/-- A die reads as another when their granaries, row maps and gather buffers are the same. -/
theorem Die.narrowByte_congr {x y : Die} (hmode : y.mapMode = x.mapMode) (hmap : y.granMap = x.granMap)
    (hpending : y.granMapPending = x.granMapPending) (hgran : y.granary = x.granary) (hgather : y.gather = x.gather) (a : Nat) :
    y.narrowByte a = x.narrowByte a := by
  rw [Die.narrowByte_eq, Die.narrowByte_eq, Die.entryOf, hgather, Die.entryOf, Die.granByte, Die.granByte, hgran,
    Die.granAt_congr hmode hmap hpending]

/-- From `x` to `y` entries have gone back to their rows: reads return what they returned. -/
structure Die.Gathers (x y : Die) : Prop where
  frame : y = { x with granary := y.granary, granBad := y.granBad, gather := y.gather }
  ok : x.gatherOk → y.gatherOk
  fewer : ∀ e ∈ y.gather, e ∈ x.gather
  bytes : x.gatherOk → (∀ e ∈ x.gather, x.Usable e.row) → ∀ c, x.Usable (c / 512) → y.narrowByte c = x.narrowByte c

theorem Die.Gathers.refl (x : Die) : x.Gathers x := ⟨rfl, fun h => h, fun _ h => h, fun _ _ _ _ => rfl⟩

theorem Die.writeBack_gathers (x : Die) (e : GatherEntry) (he : e ∈ x.gather) : x.Gathers (x.writeBack e) :=
  ⟨x.writeBack_frame e, x.writeBack_gatherOk e, fun _ hk => (List.mem_filter.mp hk).1,
    fun hok hrows c hc => x.writeBack_narrowByte e hok he (hrows e he) c hc⟩

theorem Die.Gathers.usable {x y : Die} (h : x.Gathers y) (row : Nat) : y.Usable row ↔ x.Usable row := by
  have hmode : y.mapMode = x.mapMode := by rw [h.frame]
  rw [Die.Usable, hmode]

theorem Die.Gathers.granAt {x y : Die} (h : x.Gathers y) (a : Nat) : y.granAt a = x.granAt a :=
  Die.granAt_congr (by rw [h.frame]) (by rw [h.frame]) (by rw [h.frame]) a

/-! ### What a narrow write does to its die -/

/-- From `x` to `y` the data are the newest bytes from `a` on, and every other usable byte reads as before. -/
structure Die.Written (x y : Die) (a : Nat) (data : List (BitVec 8)) : Prop where
  frame : y = { x with granary := y.granary, granBad := y.granBad, gather := y.gather }
  ok : x.gatherOk → y.gatherOk
  rows : ∀ e ∈ y.gather, e ∈ x.gather ∨ e.row = a / 512
  bytes : x.gatherOk → (∀ e ∈ x.gather, x.Usable e.row) → x.Usable (a / 512) →
    (∀ j, j < data.length → y.narrowByte (a + j) = data.getD j 0) ∧
      ∀ c, c < a ∨ a + data.length ≤ c → x.Usable (c / 512) → y.narrowByte c = x.narrowByte c

theorem Die.Gathers.written {x y z : Die} {a : Nat} {data : List (BitVec 8)} (h : x.Gathers y) (w : y.Written z a data) : x.Written z a data where
  frame := by rw [w.frame, h.frame]
  ok hok := w.ok (h.ok hok)
  rows e he := (w.rows e he).imp_left (h.fewer e)
  bytes hok hrows ha := by
    have hrows' : ∀ e ∈ y.gather, y.Usable e.row := fun e he => (h.usable _).mpr (hrows e (h.fewer e he))
    obtain ⟨hin, hout⟩ := w.bytes (h.ok hok) hrows' ((h.usable _).mpr ha)
    exact ⟨hin, fun c hc hu => (hout c hc ((h.usable _).mpr hu)).trans (h.bytes hok hrows c hu)⟩

theorem Die.Written.gathers {x y z : Die} {a : Nat} {data : List (BitVec 8)} (w : x.Written y a data) (h : y.Gathers z)
    (hlen : a % 512 + data.length ≤ 512) : x.Written z a data where
  frame := by rw [h.frame, w.frame]
  ok hok := h.ok (w.ok hok)
  rows e he := w.rows e (h.fewer e he)
  bytes hok hrows ha := by
    have hmode (r : Nat) : y.Usable r ↔ x.Usable r := by
      have hm : y.mapMode = x.mapMode := by rw [w.frame]
      rw [Die.Usable, hm]
    have hrows' : ∀ e ∈ y.gather, y.Usable e.row := fun e he =>
      (hmode _).mpr ((w.rows e he).elim (hrows e) fun h => h ▸ ha)
    obtain ⟨hin, hout⟩ := w.bytes hok hrows ha
    refine ⟨fun j hj => ?_, fun c hc hu => ?_⟩
    · rw [h.bytes (w.ok hok) hrows' _ ((hmode _).mpr (by rwa [show (a + j) / 512 = a / 512 by omega])), hin j hj]
    · rw [h.bytes (w.ok hok) hrows' c ((hmode _).mpr hu), hout c hc hu]

/-- The entry of a row with the data of a write. -/
def Die.entryWith (x : Die) (a : Nat) (data : List (BitVec 8)) (now : Nat) : GatherEntry :=
  { row := a / 512, bytes := gatherBytes (((x.entryOf (a / 512)).map (·.bytes)).getD []) a data data.length, last := now }

theorem Die.entryWith_ok (x : Die) (a : Nat) (data : List (BitVec 8)) (now : Nat) (h : x.gatherOk) :
    OffsetsOk (x.entryWith a data now).bytes := by
  refine gatherBytes_ok _ a data _ ?_
  rcases he : x.entryOf (a / 512) with _ | e
  · exact ⟨List.nodup_nil, fun b hb => absurd hb List.not_mem_nil⟩
  · exact h.2 e (Die.entryOf_mem he)

/-- An entry that takes data: they are the newest bytes (R196, R197). -/
theorem Die.putEntry_written (x : Die) (a : Nat) (data : List (BitVec 8)) (now : Nat) (hlen : a % 512 + data.length ≤ 512) :
    x.Written (x.putEntry (x.entryWith a data now)) a data where
  frame := rfl
  ok hok := x.putEntry_gatherOk _ hok (x.entryWith_ok a data now hok)
  rows e he := (Die.putEntry_mem he).symm.imp_right fun h => by rw [h]; rfl
  bytes _ _ _ := by
    have hrow : (x.entryWith a data now).row = a / 512 := rfl
    have hbyte (c : Nat) (hc : c / 512 = a / 512) : (x.putEntry (x.entryWith a data now)).narrowByte c =
        (if a % 512 ≤ c % 512 ∧ c % 512 < a % 512 + data.length then some ((data[c % 512 - a % 512]?).getD 0)
          else tfind (((x.entryOf (a / 512)).map (·.bytes)).getD []) (c % 512)).getD (x.granByte c) := by
      rw [Die.narrowByte_eq, Die.putEntry_entryOf, hrow, if_pos hc, Option.bind_some, ← tfind_gatherBytes _ a data _ hlen]
      rfl
    refine ⟨fun j hj => ?_, fun c hc _ => ?_⟩
    · rw [hbyte _ (by omega), if_pos (by omega), show (a + j) % 512 - a % 512 = j by omega, Option.getD_some, List.getD_eq_getElem?_getD]
    · by_cases hr : c / 512 = a / 512
      · rw [hbyte c hr, if_neg (by omega), Die.narrowByte_eq, hr]
        cases x.entryOf (a / 512) <;> rfl
      · rw [Die.narrowByte_eq, Die.putEntry_entryOf, hrow, if_neg hr, Die.narrowByte_eq]
        rfl

/-- The fifth row takes the place of the oldest entry (R197). -/
def Die.makeRoom (x : Die) (row : Nat) : Die :=
  if (x.entryOf row).isNone ∧ 4 ≤ x.gather.length then
    match x.gather with
    | e :: _ => x.writeBack e
    | [] => x
  else x

theorem Die.makeRoom_gathers (x : Die) (row : Nat) : x.Gathers (x.makeRoom row) := by
  unfold Die.makeRoom
  split
  next =>
    split
    next e l h => exact x.writeBack_gathers e (by rw [h]; exact List.mem_cons_self)
    next => exact .refl x
  next => exact .refl x

theorem Die.makeRoom_entryOf (x : Die) (row : Nat) : (x.makeRoom row).entryOf row = x.entryOf row := by
  unfold Die.makeRoom
  split
  next h =>
    have hnone : x.entryOf row = none := by simpa using h.1
    split
    next e l _ => rw [Die.writeBack_entryOf, hnone, ite_self]
    next => rfl
  next => rfl

/-- The entry of a row goes back to it. -/
def Die.settleRow (x : Die) (row : Nat) : Die :=
  match x.entryOf row with
  | some e => x.writeBack e
  | none => x

theorem Die.settleRow_gathers (x : Die) (row : Nat) : x.Gathers (x.settleRow row) := by
  unfold Die.settleRow
  split
  next e h => exact x.writeBack_gathers e (Die.entryOf_mem h)
  next => exact .refl x

theorem Die.settleRow_entryOf (x : Die) (row : Nat) : (x.settleRow row).entryOf row = none := by
  unfold Die.settleRow
  split
  next e h => rw [Die.writeBack_entryOf, if_pos (Die.entryOf_row h).symm]
  next h => exact h

theorem Die.writeRow_frame (x : Die) (k r : Nat) (bs : List (BitVec 8)) : x.writeRow k r bs =
    { x with granary := (x.writeRow k r bs).granary, granBad := (x.writeRow k r bs).granBad } :=
  x.setGrans_frame (fun i => 2 ^ 20 * k + 512 * r + i) (bs.take 512).zipIdx

/-- A whole row is written byte by byte from its address on. -/
theorem Die.writeRow_at (x : Die) (a : Nat) (data : List (BitVec 8)) (hlen : data.length = 512) (ha : a % 512 = 0) :
    x.writeRow (a / 2 ^ 20) (a / 512 % 2048) data = x.setGrans (a + ·) (data.zipIdx 0) := by
  rw [x.writeRow_eq _ _ data hlen]
  congr 1
  funext i
  omega

/-- A whole row without an entry takes the data. -/
theorem Die.writeRow_written (x : Die) (a : Nat) (data : List (BitVec 8)) (hlen : data.length = 512) (ha : a % 512 = 0)
    (hnone : x.entryOf (a / 512) = none) : x.Written (x.writeRow (a / 2 ^ 20) (a / 512 % 2048) data) a data := by
  have hframe := x.writeRow_frame (a / 2 ^ 20) (a / 512 % 2048) data
  have hgather : (x.writeRow (a / 2 ^ 20) (a / 512 % 2048) data).gather = x.gather := by rw [hframe]
  have hentry (r : Nat) : (x.writeRow (a / 2 ^ 20) (a / 512 % 2048) data).entryOf r = x.entryOf r := by
    rw [Die.entryOf, hgather, Die.entryOf]
  refine ⟨by rw [hframe], fun hok => ?_, fun e he => .inl (by rwa [hgather] at he), fun _ _ hrow => ⟨fun j hj => ?_, fun c hc hu => ?_⟩⟩
  · unfold Die.gatherOk
    rwa [hgather]
  · have hu (i : Nat) (hi : i < data.length) : x.Usable ((a + (0 + i)) / 512) := by rwa [show (a + (0 + i)) / 512 = a / 512 by omega]
    have hbyte := x.granByte_setGrans (a + ·) data 0 (fun i k hi hk he => by
      have := x.granAt_inj (hu i hi) (hu k hk) he
      omega) j hj
    rw [Nat.zero_add] at hbyte
    rw [Die.narrowByte_eq, hentry, show (a + j) / 512 = a / 512 by omega, hnone, Option.bind_none, Option.getD_none,
      x.writeRow_at a data hlen ha, hbyte, List.getD_eq_getElem _ _ hj]
  · have hout : (x.writeRow (a / 2 ^ 20) (a / 512 % 2048) data).granByte c = x.granByte c := by
      rw [x.writeRow_at a data hlen ha]
      refine x.granByte_setGrans_out _ data 0 c fun i hi he => ?_
      have := x.granAt_inj hu (by rwa [show (a + (0 + i)) / 512 = a / 512 by omega]) he
      omega
    rw [Die.narrowByte_eq, hentry, hout, Die.narrowByte_eq]

/-- A narrow write's effect on the granary and the gather buffer (R197). -/
def Die.narrowWritten (x : Die) (a : Nat) (data : List (BitVec 8)) (now : Nat) : Die :=
  if data.length = 512 then (x.settleRow (a / 512)).writeRow (a / 2 ^ 20) (a / 512 % 2048) data
  else if (x.entryWith a data now).bytes.length = 512 then
    ((x.makeRoom (a / 512)).putEntry (x.entryWith a data now)).writeBack (x.entryWith a data now)
  else (x.makeRoom (a / 512)).putEntry (x.entryWith a data now)

/-- Lengths and alignments that a narrow access may have keep it within its row (R194). -/
theorem narrowOk_row {a len : Nat} (h : narrowOk a len = true) : a % 512 + len ≤ 512 ∧ (len = 512 → a % 512 = 0) := by
  simp only [narrowOk, Bool.and_eq_true, decide_eq_true_eq, beq_iff_eq, List.mem_cons, List.not_mem_nil, or_false] at h
  obtain ⟨hlen, hmod⟩ := h
  rcases hlen with rfl | rfl | rfl | rfl | rfl | rfl | rfl <;> omega

theorem Die.narrowWritten_written (x : Die) (a : Nat) (data : List (BitVec 8)) (now : Nat) (h : narrowOk a data.length = true) :
    x.Written (x.narrowWritten a data now) a data := by
  obtain ⟨hlen, hwhole⟩ := narrowOk_row h
  have hroom := x.makeRoom_gathers (a / 512)
  have hentry : x.entryWith a data now = (x.makeRoom (a / 512)).entryWith a data now := by
    rw [Die.entryWith, Die.entryWith, x.makeRoom_entryOf]
  have hput := hroom.written ((x.makeRoom (a / 512)).putEntry_written a data now hlen)
  rw [← hentry] at hput
  unfold Die.narrowWritten
  split
  next hfull => exact (x.settleRow_gathers _).written (Die.writeRow_written _ a data hfull (hwhole hfull) (x.settleRow_entryOf _))
  next =>
    split
    next => exact hput.gathers (Die.writeBack_gathers _ _ (Die.entryOf_mem (by rw [Die.putEntry_entryOf, if_pos rfl]))) hlen
    next => exact hput

end Sys2Proof.Machine
end

section
/-!
The statement about narrow accesses.
-/
namespace Sys2Proof.Machine

/-! ### States that differ in one die and in registers -/

/-- From `s` to `t` die `d` has become `x`, and nothing but it and registers has moved. -/
structure OnDie (s t : State) (d : Nat) (x : Die) : Prop where
  frame : t = { s with regs := t.regs, dies := t.dies }
  self : t.die d = x
  others : ∀ e, e ≠ d → t.die e = s.die e

theorem OnDie.refl (s : State) (d : Nat) : OnDie s s d (s.die d) := ⟨rfl, rfl, fun _ _ => rfl⟩

theorem OnDie.bump {s t : State} {d : Nat} {x : Die} (h : OnDie s t d x) (p : Page) (off n : Nat) : OnDie s (t.bump p off n) d x where
  frame := by rw [State.bump, State.setReg, h.frame]
  self := (State.bump_die _ _ _ _ _).trans h.self
  others e he := (State.bump_die _ _ _ _ _).trans (h.others e he)

theorem OnDie.modDie {s t : State} {d : Nat} {x : Die} (h : OnDie s t d x) (f : Die → Die) : OnDie s (t.modDie d f) d (f x) where
  frame := by rw [State.modDie, State.setDie, h.frame]
  self := by rw [State.die_modDie_self, h.self]
  others e he := (State.die_modDie_ne _ _ he).trans (h.others e he)

theorem OnDie.writeBack {s t : State} {d : Nat} {x : Die} (h : OnDie s t d x) (e : GatherEntry) :
    OnDie s (t.writeBack d e) d (x.writeBack e) := by
  unfold State.writeBack
  dsimp only
  split
  next => exact (h.modDie _).bump _ _ _
  next => exact h.modDie _

/-! ### NARROW_READ -/

/-- The answer to an accepted read whose bytes meet no parity error. -/
def State.narrowAnswered (s : State) (d a len : Nat) : State :=
  (s.bump (.gran d) 0x130 1).reply d { data := (List.range len).map fun i => (s.die d).narrowByte (a + i) }

theorem State.narrowAnswered_onDie (s : State) (d a len : Nat) : OnDie s (s.narrowAnswered d a len) d
    { s.die d with reply := { data := (List.range len).map fun i => (s.die d).narrowByte (a + i) } } :=
  ((OnDie.refl s d).bump (.gran d) 0x130 1).modDie fun x =>
    { x with reply := { data := (List.range len).map fun i => (s.die d).narrowByte (a + i) } }

section Read
variable {s : State} {d : DieId} {a len epoch : Nat} (h : Holder)

theorem exec_narrowRead_answers (hok : (s.die d.val).narrowRefusal a len epoch = none) :
    exec (.narrowRead d a len epoch h false) s = .next (s.narrowAnswered d.val a len) := by
  change execNarrowRead d a len epoch h false s = _
  simp only [execNarrowRead, hok]
  rfl

/-- The answer to a read that meets a parity error outside the gather buffer (R211). -/
def State.narrowParity (s : State) (d a len : Nat) (h : Holder) : State :=
  ((s.logError (.gran d) .parity a (holderSrc d h).1 (holderSrc d h).2).bump (.gran d) 0x108 1).reply d
    { code := some .parity, data := if h = .reeve then [] else (List.range len).map fun i => (s.die d).narrowByte (a + i)
      poison := h ≠ .reeve }

theorem exec_narrowRead_parity (hok : (s.die d.val).narrowRefusal a len epoch = none) (hnone : (s.die d.val).entryOf (a / 512) = none) :
    exec (.narrowRead d a len epoch h true) s = .next (s.narrowParity d.val a len h) := by
  change execNarrowRead d a len epoch h true s = _
  simp only [execNarrowRead, hok, hnone]
  rfl

theorem exec_narrowRead_refuses {c : Code} (b : Bool) (hno : (s.die d.val).narrowRefusal a len epoch = some c) :
    exec (.narrowRead d a len epoch h b) s = .next (s.refuseNarrow d.val a c h) := by
  change execNarrowRead d a len epoch h b s = _
  simp only [execNarrowRead, hno]

end Read

theorem State.reply_die (s : State) (d : Nat) (r : Reply) : (s.reply d r).die d = { s.die d with reply := r } :=
  State.die_modDie_self _ _ _

theorem State.logError_gran_die (s : State) (d a i j e : Nat) (c : Code) : (s.logError (.gran d) c a i j).die e = s.die e :=
  (s.logError_logged _ _ _ _ _ _ (base_ne_lost _ (base_aligned _))).die e

theorem State.refuseNarrow_die (s : State) (d a : Nat) (c : Code) (h : Holder) :
    (s.refuseNarrow d a c h).die d = { s.die d with reply := { code := some c } } := by
  rw [State.refuseNarrow, State.reply_die, State.logError_gran_die]

theorem State.narrowParity_die (s : State) (d a len : Nat) (h : Holder) : ∃ r : Reply, r.code = some .parity ∧
    (h = .reeve → r.data = []) ∧ (h ≠ .reeve → r.poison = true) ∧ (s.narrowParity d a len h).die d = { s.die d with reply := r } := by
  refine ⟨_, ?_, ?_, ?_, by rw [State.narrowParity, State.reply_die, State.bump_die, State.logError_gran_die]⟩
  · rfl
  · exact fun he => if_pos he
  · exact fun he => decide_eq_true he

theorem Die.narrowByte_reply (x : Die) (r : Reply) (c : Nat) : ({ x with reply := r } : Die).narrowByte c = x.narrowByte c :=
  Die.narrowByte_congr rfl rfl rfl rfl rfl c

/-! ### NARROW_WRITE -/

theorem Die.assignRow_some (x : Die) (row c : Nat) :
    x.assignRow row (some c) = if (c, row) ∈ x.openRows then x else { x with openRows := x.openRows ++ [(c, row)] } := rfl

theorem Die.assignRow_frame (x : Die) (row : Nat) (o : Option Nat) :
    x.assignRow row o = { x with openRows := (x.assignRow row o).openRows } := by
  cases o with
  | none => rfl
  | some c =>
    rw [Die.assignRow_some]
    split <;> rfl

theorem Die.assignRow_mem (x : Die) (row c : Nat) : (c, row) ∈ (x.assignRow row (some c)).openRows := by
  rw [Die.assignRow_some]
  split
  next h => exact h
  next => simp

/-- A die that has answered a write and assigned its row, before the write itself. -/
def Die.accepted (x : Die) (row : Nat) (o : Option Nat) : Die := ({ x with reply := {} } : Die).assignRow row o

theorem Die.accepted_frame (x : Die) (row : Nat) (o : Option Nat) :
    x.accepted row o = { x with reply := {}, openRows := (x.accepted row o).openRows } :=
  Die.assignRow_frame _ row o

theorem Die.accepted_gather (x : Die) (row : Nat) (o : Option Nat) : (x.accepted row o).gather = x.gather := by
  rw [Die.accepted_frame]

theorem Die.accepted_entryOf (x : Die) (row : Nat) (o : Option Nat) (r : Nat) : (x.accepted row o).entryOf r = x.entryOf r := by
  rw [Die.entryOf, Die.accepted_gather, Die.entryOf]

theorem Die.accepted_narrowByte (x : Die) (row : Nat) (o : Option Nat) (c : Nat) : (x.accepted row o).narrowByte c = x.narrowByte c := by
  have hframe := x.accepted_frame row o
  exact Die.narrowByte_congr (by rw [hframe]) (by rw [hframe]) (by rw [hframe]) (by rw [hframe]) (by rw [hframe]) c

/-- The state with a write answered and its row assigned. -/
def State.narrowAccepted (s : State) (d a : Nat) (o : Option Nat) : State :=
  ((s.bump (.gran d) 0x138 1).reply d {}).modDie d fun y => y.assignRow (a / 512) o

theorem State.narrowAccepted_onDie (s : State) (d a : Nat) (o : Option Nat) :
    OnDie s (s.narrowAccepted d a o) d ((s.die d).accepted (a / 512) o) :=
  (((OnDie.refl s d).bump _ _ _).modDie _).modDie _

/-- The state with room made for a row in the gather buffer. -/
def State.roomMade (t : State) (d row : Nat) (x : Die) : State :=
  if (x.entryOf row).isNone ∧ 4 ≤ x.gather.length then
    match x.gather with
    | e :: _ => t.writeBack d e
    | [] => t
  else t

theorem OnDie.roomMade {s t : State} {d : Nat} {y : Die} (h : OnDie s t d y) (row : Nat) : OnDie s (t.roomMade d row y) d (y.makeRoom row) := by
  unfold State.roomMade Die.makeRoom
  split
  next =>
    cases y.gather with
    | nil => exact h
    | cons e l => exact h.writeBack e
  next => exact h

theorem State.roomMade_accepted (t : State) (d row : Nat) (x : Die) (o : Option Nat) :
    t.roomMade d row (x.accepted row o) = t.roomMade d row x := by
  unfold State.roomMade
  rw [Die.accepted_entryOf, Die.accepted_gather]

/-- The state with an entry put in the gather buffer. -/
def State.entryPut (t : State) (d : Nat) (e : GatherEntry) (fresh : Bool) : State :=
  t.modDie d fun y => { y with gather := if fresh then y.gather ++ [e] else y.gather.map fun k => if k.row = e.row then e else k }

theorem OnDie.entryPut {s t : State} {d : Nat} {y : Die} (h : OnDie s t d y) (e : GatherEntry) (fresh : Bool)
    (hf : fresh = (y.entryOf e.row).isNone) : OnDie s (t.entryPut d e fresh) d (y.putEntry e) := by
  subst hf
  exact h.modDie _

/-- The state with the row's entry back in its row. -/
def State.rowSettled (t : State) (d row : Nat) (x : Die) : State :=
  match x.entryOf row with
  | some e => t.writeBack d e
  | none => t

theorem OnDie.rowSettled {s t : State} {d : Nat} {y : Die} (h : OnDie s t d y) (row : Nat) :
    OnDie s (t.rowSettled d row y) d (y.settleRow row) := by
  unfold State.rowSettled Die.settleRow
  cases y.entryOf row with
  | none => exact h
  | some e => exact h.writeBack e

theorem State.rowSettled_accepted (t : State) (d row : Nat) (x : Die) (o : Option Nat) :
    t.rowSettled d row (x.accepted row o) = t.rowSettled d row x := by
  unfold State.rowSettled
  rw [Die.accepted_entryOf]

section Write
variable {s : State} {d : DieId} {a epoch : Nat} {data : List (BitVec 8)} (h : Holder) (o : Option Nat)

theorem exec_narrowWrite_refuses {c : Code} (hno : (s.die d.val).narrowRefusal a data.length epoch = some c) :
    exec (.narrowWrite d a epoch data h o) s = .next (s.refuseNarrow d.val a c h) := by
  change execNarrowWrite d a epoch data h o s = _
  simp only [execNarrowWrite, hno]

theorem exec_narrowWrite_whole (hok : (s.die d.val).narrowRefusal a data.length epoch = none) (hlen : data.length = 512) :
    exec (.narrowWrite d a epoch data h o) s = .next (((s.narrowAccepted d.val a o).rowSettled d.val (a / 512) (s.die d.val)).modDie d.val
      fun y => y.writeRow (a / 2 ^ 20) (a / 512 % 2048) data) := by
  change execNarrowWrite d a epoch data h o s = _
  simp only [execNarrowWrite, hok]
  rw [if_pos hlen]
  rfl

theorem exec_narrowWrite_part (hok : (s.die d.val).narrowRefusal a data.length epoch = none) (hlen : data.length ≠ 512) :
    exec (.narrowWrite d a epoch data h o) s = .next
      (if ((s.die d.val).entryWith a data (s.reeveTime d.val)).bytes.length = 512 then
        (((s.narrowAccepted d.val a o).roomMade d.val (a / 512) (s.die d.val)).entryPut d.val
          ((s.die d.val).entryWith a data (s.reeveTime d.val)) ((s.die d.val).entryOf (a / 512)).isNone).writeBack d.val
            ((s.die d.val).entryWith a data (s.reeveTime d.val))
      else ((s.narrowAccepted d.val a o).roomMade d.val (a / 512) (s.die d.val)).entryPut d.val
        ((s.die d.val).entryWith a data (s.reeveTime d.val)) ((s.die d.val).entryOf (a / 512)).isNone) := by
  change execNarrowWrite d a epoch data h o s = _
  simp only [execNarrowWrite, hok]
  rw [if_neg hlen]
  rfl

/-- An accepted write leaves its die with the data taken, and nothing else moves (R197). -/
theorem exec_narrowWrite_onDie (hok : (s.die d.val).narrowRefusal a data.length epoch = none) :
    ∃ t, exec (.narrowWrite d a epoch data h o) s = .next t ∧
      OnDie s t d.val (((s.die d.val).accepted (a / 512) o).narrowWritten a data (s.reeveTime d.val)) := by
  have haccepted := s.narrowAccepted_onDie d.val a o
  have hwith : ((s.die d.val).accepted (a / 512) o).entryWith a data (s.reeveTime d.val) =
      (s.die d.val).entryWith a data (s.reeveTime d.val) := by rw [Die.entryWith, Die.accepted_entryOf, Die.entryWith]
  by_cases hlen : data.length = 512
  · refine ⟨_, exec_narrowWrite_whole h o hok hlen, ?_⟩
    rw [← State.rowSettled_accepted _ _ _ _ o, Die.narrowWritten, if_pos hlen]
    exact (haccepted.rowSettled _).modDie _
  · have hroom := haccepted.roomMade (a / 512)
    rw [State.roomMade_accepted] at hroom
    have hput := hroom.entryPut ((s.die d.val).entryWith a data (s.reeveTime d.val)) ((s.die d.val).entryOf (a / 512)).isNone
      (by rw [← Die.accepted_entryOf _ (a / 512) o, ← Die.makeRoom_entryOf]; rfl)
    refine ⟨_, exec_narrowWrite_part h o hok hlen, ?_⟩
    rw [Die.narrowWritten, if_neg hlen, hwith]
    split
    next => exact hput.writeBack _
    next => exact hput

end Write

/-! ### GATHER_WRITEBACK -/

theorem exec_gatherWriteback_due {s : State} {d : DieId} {i : Fin 4} {e : GatherEntry} (he : (s.die d.val).gather[i.val]? = some e)
    (hdue : e.last + 128 ≤ s.reeveTime d.val) : exec (.gatherWriteback d i) s = .next (s.writeBack d.val e) := by
  change execGatherWriteback d i s = _
  simp only [execGatherWriteback, he]
  rw [if_pos hdue]

theorem exec_gatherWriteback_early {s : State} {d : DieId} {i : Fin 4} {e : GatherEntry} (he : (s.die d.val).gather[i.val]? = some e)
    (hdue : s.reeveTime d.val < e.last + 128) : exec (.gatherWriteback d i) s = .next s := by
  change execGatherWriteback d i s = _
  simp only [execGatherWriteback, he]
  rw [if_neg (by omega)]

/-! ### What an accepted access has passed -/

theorem Die.usable_of {x : Die} {row : Nat} (h : x.mapMode = true → row % 2048 < 1984) : x.Usable row :=
  (Bool.eq_false_or_eq_true x.mapMode).symm.imp_right h

theorem Die.narrowRefusal_none {x : Die} {a len epoch : Nat} (h : x.narrowRefusal a len epoch = none) :
    narrowOk a len = true ∧ x.Usable (a / 512) := by
  unfold Die.narrowRefusal at h
  dsimp only at h
  split at h
  next => cases h
  next hlen =>
    simp only [not_or, not_and, Nat.not_lt, Bool.not_eq_false, not_le] at hlen
    refine ⟨hlen.1, ?_⟩
    rcases hmode : x.mapMode
    · exact .inl hmode
    · exact .inr (by have := hlen.2.2 hmode; omega)

/-- Settles O41: reads return what entry and row hold, an accepted write is followed from its entry to its row, and a write-back only moves
bytes. -/
theorem narrowAccessesSeeTheNewestBytes : Obligations.NarrowAccessesSeeTheNewestBytes := by
  intro s d a len epoch h o data i
  refine ⟨fun hok => ?read, fun hok hnone => ?parity, fun c hno => ?readRefused, fun hok => ?write, fun c hno => ?writeRefused,
    fun e he hdue => ?writeback, fun e he hdue => exec_gatherWriteback_early he hdue⟩
  case read =>
    have hon := s.narrowAnswered_onDie d.val a len
    refine ⟨_, exec_narrowRead_answers h hok, by rw [hon.self], ?_, fun x => by rw [hon.self, Die.narrowByte_reply], hon.others, hon.frame⟩
    rw [State.narrowAnswered, State.reply, State.modDie_reg, State.bump, State.reg_setReg_self]
  case parity =>
    obtain ⟨r, hcode, hdata, hpoison, hdie⟩ := s.narrowParity_die d.val a len h
    refine ⟨_, exec_narrowRead_parity h hok hnone, ?_⟩
    rw [hdie]
    exact ⟨hcode, hdata, hpoison, Die.narrowByte_reply _ _⟩
  case readRefused =>
    refine ⟨_, exec_narrowRead_refuses h false hno, ?_⟩
    rw [s.refuseNarrow_die]
    exact ⟨rfl, Die.narrowByte_reply _ _⟩
  case writeRefused =>
    refine ⟨_, exec_narrowWrite_refuses h o hno, ?_⟩
    rw [s.refuseNarrow_die]
    exact ⟨rfl, Die.narrowByte_reply _ _⟩
  case write =>
    obtain ⟨t, ht, hon⟩ := exec_narrowWrite_onDie h o hok
    obtain ⟨hform, husable⟩ := Die.narrowRefusal_none hok
    have hframe := (s.die d.val).accepted_frame (a / 512) o
    have hw := ((s.die d.val).accepted (a / 512) o).narrowWritten_written a data (s.reeveTime d.val) hform
    have hgather := (s.die d.val).accepted_gather (a / 512) o
    have hmode : ((s.die d.val).accepted (a / 512) o).mapMode = (s.die d.val).mapMode := by rw [hframe]
    have hok' (hg : (s.die d.val).gatherOk) : ((s.die d.val).accepted (a / 512) o).gatherOk := by
      unfold Die.gatherOk
      rwa [hgather]
    have hopen : (t.die d.val).openRows = ((s.die d.val).accepted (a / 512) o).openRows := by rw [hon.self, hw.frame]
    refine ⟨t, ht, ?_, fun hg => ?_, fun hg hrows => ?_, fun c hc => ?_, fun ho => ?_, hon.others, hon.frame⟩
    · rw [hon.self, hw.frame, hframe]
    · rw [hon.self]
      exact hw.ok (hok' hg)
    · have hrows' : ∀ e ∈ ((s.die d.val).accepted (a / 512) o).gather, ((s.die d.val).accepted (a / 512) o).Usable e.row := by
        rw [hgather]
        intro e he
        rw [Die.Usable, hmode]
        exact Die.usable_of fun hm => hrows hm e he
      obtain ⟨hin, hout⟩ := hw.bytes (hok' hg) hrows' (by rwa [Die.Usable, hmode])
      rw [hon.self]
      refine ⟨hin, fun x hx hu => ?_⟩
      rw [hout x hx (by rwa [Die.Usable, hmode]), Die.accepted_narrowByte]
    · rw [hopen, hc]
      exact Die.assignRow_mem _ _ _
    · rw [hopen, ho]
      rfl
  case writeback =>
    have hon := (OnDie.refl s d.val).writeBack e
    have hmem : e ∈ (s.die d.val).gather := List.mem_of_getElem? he
    refine ⟨_, exec_gatherWriteback_due he hdue, ?_, ?_, fun hok hrow x hx => ?_, hon.others, hon.frame⟩
    · rw [hon.self]
      exact fun k hk => by simpa using (List.mem_filter.mp hk).2
    · rw [hon.self, Die.writeBack_eq]
      exact (s.die d.val).setRow_granary e.row e.bytes
    · rw [hon.self]
      refine (s.die d.val).writeBack_narrowByte e hok hmem ?_ x hx
      exact Die.usable_of hrow

end Sys2Proof.Machine
end

section
/-!
Leases (R258, R259, R266, R484 to R486).
-/
namespace Sys2Proof.Machine

/-! ### The lease of a resource -/

theorem State.leaseOf_congr {s t : State} (hdie : ∀ d, t.die d = s.die d) (hstore : t.store = s.store) (q : Leased) :
    t.leaseOf q = s.leaseOf q := by
  cases q <;> simp only [State.leaseOf, State.hub, hdie, hstore]

/-- A change of one resource's lease leaves every other one's. -/
theorem State.leaseOf_modLeaseOf (s : State) (r q : Leased) (f : Lease → Lease) :
    (s.modLeaseOf r f).leaseOf q = if q = r then f (s.leaseOf r) else s.leaseOf q := by
  cases r with
  | slice d k =>
    cases q with
    | slice e j =>
      by_cases hd : e = d
      · subst hd
        simp [State.modLeaseOf, State.leaseOf, Die.lease_modLease, Fin.val_inj]
      · have hv : e.val ≠ d.val := fun h => hd (Fin.ext h)
        simp [State.modLeaseOf, State.leaseOf, State.die_modDie_ne _ _ hv, hd]
    | _ => exact (if_neg (by simp)).symm
  | engine b e =>
    cases q with
    | engine c i =>
      by_cases hb : c = b
      · subst hb
        by_cases he : i = e <;> simp [State.modLeaseOf, State.leaseOf, HubAttn.engine_modEngine, Fin.val_inj, he]
      · have hv : c.val ≠ b.val := fun h => hb (Fin.ext h)
        simp [State.modLeaseOf, State.leaseOf, State.hub_modHub_ne _ _ hv, hb]
    | channel c i =>
      by_cases hb : c.val = b.val <;> simp [State.modLeaseOf, State.leaseOf, State.hub_modHub, hb, HubAttn.modEngine]
    | tableLock c =>
      by_cases hb : c.val = b.val <;> simp [State.modLeaseOf, State.leaseOf, State.hub_modHub, hb, HubAttn.modEngine]
    | _ => exact (if_neg (by simp)).symm
  | channel b e =>
    cases q with
    | channel c i =>
      by_cases hb : c = b
      · subst hb
        by_cases he : i = e <;> simp [State.modLeaseOf, State.leaseOf, tmod, tget_tput, he]
      · have hv : c.val ≠ b.val := fun h => hb (Fin.ext h)
        simp [State.modLeaseOf, State.leaseOf, State.hub_modHub_ne _ _ hv, hb]
    | engine c i =>
      by_cases hb : c.val = b.val <;> simp [State.modLeaseOf, State.leaseOf, State.hub_modHub, hb, HubAttn.engine]
    | tableLock c =>
      by_cases hb : c.val = b.val <;> simp [State.modLeaseOf, State.leaseOf, State.hub_modHub, hb]
    | _ => exact (if_neg (by simp)).symm
  | tableLock b =>
    cases q with
    | tableLock c =>
      by_cases hb : c = b
      · subst hb
        simp [State.modLeaseOf, State.leaseOf]
      · have hv : c.val ≠ b.val := fun h => hb (Fin.ext h)
        simp [State.modLeaseOf, State.leaseOf, State.hub_modHub_ne _ _ hv, hb]
    | engine c i =>
      by_cases hb : c.val = b.val <;> simp [State.modLeaseOf, State.leaseOf, State.hub_modHub, hb, HubAttn.engine]
    | channel c i =>
      by_cases hb : c.val = b.val <;> simp [State.modLeaseOf, State.leaseOf, State.hub_modHub, hb]
    | _ => exact (if_neg (by simp)).symm
  | commonsLock =>
    cases q with
    | commonsLock => exact (if_pos rfl).symm
    | _ => exact (if_neg (by simp)).symm
/-- A change of a hub that keeps its engines' and channels' leases and its table lock's keeps every lease. -/
theorem State.leaseOf_modHub (s : State) (b : Nat) (f : HubAttn → HubAttn) (he : ∀ x e, ((f x).engine e).lease = (x.engine e).lease)
    (hc : ∀ x, (f x).dmaLeases = x.dmaLeases) (hl : ∀ x, (f x).lockLease = x.lockLease) (q : Leased) :
    (s.modHub b f).leaseOf q = s.leaseOf q := by
  cases q with
  | engine c e => by_cases h : c.val = b <;> simp [State.leaseOf, State.hub_modHub, h, he]
  | channel c e => by_cases h : c.val = b <;> simp [State.leaseOf, State.hub_modHub, h, hc]
  | tableLock c => by_cases h : c.val = b <;> simp [State.leaseOf, State.hub_modHub, h, hl]
  | _ => rfl

theorem State.modLeaseOf_frame (s : State) (r : Leased) (f : Lease → Lease) :
    s.modLeaseOf r f = { s with dies := (s.modLeaseOf r f).dies, store := (s.modLeaseOf r f).store } := by
  cases r <;> rfl

/-! ### Answers of the grantor -/

theorem State.answerLease_frame (s : State) (r : Leased) (a : Reply) :
    s.answerLease r a = { s with dies := (s.answerLease r a).dies, store := (s.answerLease r a).store } := by
  cases r <;> rfl

theorem State.answerLease_answer (s : State) (r : Leased) (a : Reply) : (s.answerLease r a).leaseAnswer r = a := by
  cases r <;> simp [State.answerLease, State.leaseAnswer, State.reply]

/-- An answer moves no lease. -/
theorem State.leaseOf_answerLease (s : State) (r q : Leased) (a : Reply) : (s.answerLease r a).leaseOf q = s.leaseOf q := by
  have hhub (b : Nat) : (s.modHub b fun x => { x with grant := a }).leaseOf q = s.leaseOf q :=
    s.leaseOf_modHub b (fun x => { x with grant := a }) (fun _ _ => rfl) (fun _ => rfl) (fun _ => rfl) q
  cases r with
  | slice d k =>
    cases q with
    | slice e j => by_cases h : e.val = d.val <;> simp [State.answerLease, State.leaseOf, State.reply, State.die_modDie, h, Die.lease]
    | _ => rfl
  | engine b e => exact hhub _
  | channel b c => exact hhub _
  | tableLock b => exact hhub _
  | commonsLock => exact hhub _

theorem State.leaseTraffic_frame (s : State) (r : Leased) (n : Nat) : s.leaseTraffic r n = { s with regs := (s.leaseTraffic r n).regs } := by
  cases r with
  | slice d k => rw [State.leaseTraffic, State.bump, State.setReg]
  | _ => rfl

theorem State.leaseOf_leaseTraffic (s : State) (r q : Leased) (n : Nat) : (s.leaseTraffic r n).leaseOf q = s.leaseOf q := by
  cases r with
  | slice d k => exact State.leaseOf_congr (State.bump_die _ _ _ _) (State.bump_store _ _ _ _) q
  | _ => rfl

/-- A refusal answers its code and moves no lease. -/
theorem State.refuseLease_refuses (s : State) (r : Leased) (c : Code) :
    (s.refuseLease r c).leaseAnswer r = { code := some c } ∧ ∀ q, (s.refuseLease r c).leaseOf q = s.leaseOf q := by
  refine ⟨State.answerLease_answer _ _ _, fun q => (State.leaseOf_answerLease _ _ _ _).trans ?_⟩
  cases r with
  | engine b e =>
    have hlog : LoggedIn s (s.attnError b.val e.val 0 c) (.attn b.val) c := s.logError_logged _ _ _ _ _ _ (base_ne_lost _ (base_aligned _))
    exact State.leaseOf_congr hlog.die (by rw [hlog.1]) q
  | _ => rfl

/-! ### Terms -/

theorem termOk_iff (r : Leased) (us : Nat) :
    termOk r us = true ↔ 1 ≤ us ∧ us ≤ 65535 ∧ (us ≤ 1000 ∨ ((∀ b, r ≠ .tableLock b) ∧ r ≠ .commonsLock)) := by
  cases r <;> simp [termOk] <;> omega

theorem termOk_false (r : Leased) (us : Nat)
    (h : us = 0 ∨ 65535 < us ∨ (1000 < us ∧ ((∃ b, r = .tableLock b) ∨ r = .commonsLock))) : termOk r us = false := by
  rw [Bool.eq_false_iff, ne_eq, termOk_iff]
  rintro ⟨hlo, hhi, hlock⟩
  obtain rfl | h | ⟨h, hr⟩ := h
  · omega
  · omega
  · obtain hus | ⟨htab, hcom⟩ := hlock
    · omega
    · exact hr.elim (fun ⟨b, hb⟩ => htab b hb) hcom

/-! ### The tables of a lock's new holder -/

/-- The sessions of a hub that are open. -/
def State.openOf (s : State) (b : Nat) : List Nat := (s.serve.sessions.filter fun e => e.2.st == .openS && s.ownerHub e.1 == b).map (·.1)

/-- A session with its tentative entries rebuilt. -/
def Session.rebuilt (y : Session) (busy : Bool) : Session :=
  { y with
    tentative := if busy then y.tentative else y.committed
    toFree := y.toFree ++ (y.table.map (·.1)).filter fun i => !decide (i ∈ y.toFree) }

/-- The sessions after a rebuilding. -/
def State.sessionsRebuilt (s : State) (l : List Nat) (t : State) : State :=
  l.foldl (fun (t : State) x => t.modSess x fun y => y.rebuilt (s.stepOf x).isSome) t

theorem State.rebuildTables_fault (s : State) (b : HubId) (h : (s.hub b.val).lockFault = true) :
    s.rebuildTables (.tableLock b) = (s.sessionsRebuilt (s.openOf b.val) s).modHub b.val fun x => { x with lockFault := false } :=
  if_neg (by simp [h])

theorem State.rebuildTables_idle (s : State) (r : Leased) (h : ∀ b, r = .tableLock b → (s.hub b.val).lockFault = false) :
    s.rebuildTables r = s := by
  cases r with
  | tableLock b => exact if_pos (h b rfl)
  | _ => rfl

theorem State.sessionsRebuilt_frame (s : State) (l : List Nat) (t : State) :
    s.sessionsRebuilt l t = { t with serve := { t.serve with sessions := (s.sessionsRebuilt l t).serve.sessions } } := by
  unfold State.sessionsRebuilt
  induction l generalizing t with
  | nil => rfl
  | cons x l ih =>
    rw [List.foldl_cons, ih]
    rfl

/-- A rebuilt session without a step in flight starts again from its committed length; the rebuilding of others does not move it. -/
theorem State.sessionsRebuilt_tentative (s : State) (l : List Nat) (t : State) (x : Nat) (hstep : s.stepOf x = none)
    (h : x ∈ l ∨ (t.sess x).tentative = (t.sess x).committed) :
    ((s.sessionsRebuilt l t).sess x).tentative = ((s.sessionsRebuilt l t).sess x).committed ∧
      ((s.sessionsRebuilt l t).sess x).committed = (t.sess x).committed := by
  unfold State.sessionsRebuilt
  induction l generalizing t with
  | nil => exact ⟨h.resolve_left List.not_mem_nil, rfl⟩
  | cons y l ih =>
    rw [List.foldl_cons]
    by_cases hy : x = y
    · subst hy
      have hself : (t.modSess x fun z => z.rebuilt (s.stepOf x).isSome).sess x = (t.sess x).rebuilt false := by
        rw [State.sess_modSess_self, hstep]
        rfl
      obtain ⟨h1, h2⟩ := ih (t.modSess x fun z => z.rebuilt (s.stepOf x).isSome) (.inr (by rw [hself]; rfl))
      exact ⟨h1, h2.trans (by rw [hself]; rfl)⟩
    · have hother := t.sess_modSess_ne (fun z => z.rebuilt (s.stepOf y).isSome) hy
      obtain ⟨h1, h2⟩ := ih (t.modSess y fun z => z.rebuilt (s.stepOf y).isSome) (by
        rw [hother]
        exact h.imp_left fun hmem => (List.mem_cons.mp hmem).resolve_left hy)
      exact ⟨h1, h2.trans (by rw [hother])⟩

/-- An open session of the hub is listed. -/
theorem State.mem_openOf (s : State) (x : Nat) (h : (s.sess x).st = .openS) : x ∈ s.openOf (s.ownerHub x) := by
  obtain hfree | hlisted := tget_cases (fun _ => ({} : Session)) s.serve.sessions x
  · have : s.sess x = {} := hfree
    rw [this] at h
    cases h
  · have hopen : ((s.sess x).st == .openS && s.ownerHub x == s.ownerHub x) = true := by simpa using h
    exact List.mem_map.mpr ⟨_, List.mem_filter.mpr ⟨hlisted, hopen⟩, rfl⟩

theorem State.leaseOf_rebuildTables (s : State) (r q : Leased) : (s.rebuildTables r).leaseOf q = s.leaseOf q := by
  by_cases h : ∀ b, r = .tableLock b → (s.hub b.val).lockFault = false
  · rw [s.rebuildTables_idle r h]
  · push Not at h
    obtain ⟨b, rfl, hfault⟩ := h
    rw [s.rebuildTables_fault b (by simpa using hfault)]
    refine (State.leaseOf_modHub _ _ (fun x => { x with lockFault := false }) (fun _ _ => rfl) (fun _ => rfl) (fun _ => rfl) q).trans (State.leaseOf_congr ?_ ?_ q)
    · intro d
      rw [s.sessionsRebuilt_frame, State.die, State.die]
    · rw [s.sessionsRebuilt_frame]

end Sys2Proof.Machine
end

section
/-!
The statement about leases.
-/
namespace Sys2Proof.Machine

/-! ### Ends -/

theorem Lease.finish_of_held {l : Lease} (h : l.held = true) : l.finish = { l with held := false, epoch := l.epoch + 1, ends := 0 } :=
  (if_pos h).trans rfl

theorem State.markQueue_frame (s : State) (b e : Nat) (c : Cause) :
    s.markQueue b e c = { s with serve := { s.serve with steps := (s.markQueue b e c).serve.steps } } := by
  unfold State.markQueue
  exact List.foldlRecOn ((s.hub b).engine e).slots _
    (motive := fun (t : State) => t = { s with serve := { s.serve with steps := t.serve.steps } }) rfl
    fun t ht d _ => by rw [State.markStep, State.modStep, ht]

theorem State.markQueue_hub (s : State) (b e j : Nat) (c : Cause) : (s.markQueue b e c).hub j = s.hub j := by
  rw [State.hub, s.markQueue_frame, State.hub]

theorem State.leaseOf_markQueue (s : State) (b e : Nat) (c : Cause) (q : Leased) : (s.markQueue b e c).leaseOf q = s.leaseOf q := by
  refine State.leaseOf_congr (fun d => ?_) (by rw [s.markQueue_frame]) q
  rw [State.die, s.markQueue_frame, State.die]

/-- An engine with its lease ended and its queue empty. -/
def Engine.emptied (y : Engine) : Engine := { y with slots := [], expected := y.produced, halted := false }

/-- The end of an engine's lease is its lease's change, with the queue marked and emptied. -/
theorem State.endEngine_lease (s : State) (b : HubId) (e : Fin 64) (q : Leased) :
    (s.endEngine b.val e.val).leaseOf q = ((s.markQueue b.val e.val .epoch).modLeaseOf (.engine b e) Lease.finish).leaseOf q := by
  cases q with
  | engine c i =>
    by_cases hb : c.val = b.val
    · by_cases he : i.val = e.val <;>
        simp [State.endEngine, State.modLeaseOf, State.leaseOf, hb, he, HubAttn.engine_modEngine]
    · simp [State.endEngine, State.modLeaseOf, State.leaseOf, State.hub_modHub, hb]
  | channel c i =>
    by_cases hb : c.val = b.val <;> simp [State.endEngine, State.modLeaseOf, State.leaseOf, State.hub_modHub, hb, HubAttn.modEngine]
  | tableLock c =>
    by_cases hb : c.val = b.val <;> simp [State.endEngine, State.modLeaseOf, State.leaseOf, State.hub_modHub, hb, HubAttn.modEngine]
  | _ => rfl

theorem State.endLease_leaseOf (s : State) (r q : Leased) (h : (s.leaseOf r).held = true) :
    (s.endLease r).leaseOf q = if q = r then (s.leaseOf r).finish else s.leaseOf q := by
  have hplain (hr : s.endLease r = s.modLeaseOf r Lease.finish) :
      (s.endLease r).leaseOf q = if q = r then (s.leaseOf r).finish else s.leaseOf q := by
    rw [hr, s.leaseOf_modLeaseOf]
  cases r with
  | engine b e =>
    have hend : s.endLease (.engine b e) = s.endEngine b.val e.val := if_neg (by simp [h])
    rw [hend, s.endEngine_lease, State.leaseOf_modLeaseOf, s.leaseOf_markQueue, s.leaseOf_markQueue]
  | _ => exact hplain (if_neg (by simp [h]))

theorem State.endLease_frame (s : State) (r : Leased) (hr : ∀ b e, r ≠ .engine b e) :
    s.endLease r = { s with dies := (s.endLease r).dies, store := (s.endLease r).store } := by
  unfold State.endLease
  split
  next => rfl
  next =>
    cases r with
    | engine b e => exact absurd rfl (hr b e)
    | _ => exact s.modLeaseOf_frame _ _

theorem State.endLease_slots (s : State) (b : HubId) (e : Fin 64) (h : (s.leaseOf (.engine b e)).held = true) :
    (((s.endLease (.engine b e)).hub b.val).engine e.val).slots = [] := by
  have hend : s.endLease (.engine b e) = s.endEngine b.val e.val := if_neg (by simp [h])
  rw [hend, State.endEngine, State.hub_modHub_self, HubAttn.engine_modEngine, if_pos rfl]

theorem State.endFaulty_lock (s : State) (b : HubId) : s.endFaulty (.tableLock b) =
    (s.endLease (.tableLock b)).modHub b.val fun x => { x with lockFault := x.lockFault || (s.leaseOf (.tableLock b)).held } := rfl

theorem State.endFaulty_plain (s : State) (r : Leased) (h : ∀ b, r ≠ .tableLock b) : s.endFaulty r = s.endLease r := by
  cases r with
  | tableLock b => exact absurd rfl (h b)
  | _ => rfl

theorem State.endFaulty_leaseOf (s : State) (r q : Leased) : (s.endFaulty r).leaseOf q = (s.endLease r).leaseOf q := by
  cases r with
  | tableLock b =>
    rw [s.endFaulty_lock]
    exact State.leaseOf_modHub _ _ (fun x => { x with lockFault := x.lockFault || (s.leaseOf (.tableLock b)).held })
      (fun _ _ => rfl) (fun _ => rfl) (fun _ => rfl) q
  | _ => rfl

/-! ### Commands -/

/-- The state with a free resource granted, and the answer with its epoch. -/
def State.granted (s : State) (r : Leased) (l : Lease) : State :=
  (s.modLeaseOf r fun _ => l).answerLease r { data := leBytes 4 l.epoch.toNat }

theorem State.granted_leaseOf (s : State) (r q : Leased) (l : Lease) : (s.granted r l).leaseOf q = if q = r then l else s.leaseOf q := by
  rw [State.granted, State.leaseOf_answerLease, s.leaseOf_modLeaseOf]

theorem State.granted_answer (s : State) (r : Leased) (l : Lease) : (s.granted r l).leaseAnswer r = { data := leBytes 4 l.epoch.toNat } :=
  State.answerLease_answer _ _ _

theorem State.granted_frame (s : State) (r : Leased) (l : Lease) :
    s.granted r l = { s with dies := (s.granted r l).dies, store := (s.granted r l).store } := by
  unfold State.granted
  rw [State.answerLease_frame, s.modLeaseOf_frame]

/-- A lease's change that its lease before decides is its setting. -/
theorem State.modLeaseOf_const (s : State) (r : Leased) (f : Lease → Lease) : s.modLeaseOf r f = s.modLeaseOf r fun _ => f (s.leaseOf r) := by
  cases r with
  | engine b e => simp only [State.modLeaseOf, State.modHub, HubAttn.modEngine, tmod]; rfl
  | channel b c => simp only [State.modLeaseOf, State.modHub, tmod]; rfl
  | tableLock b => simp only [State.modLeaseOf, State.modHub, tmod]; rfl
  | slice d k => simp only [State.modLeaseOf, State.modDie, Die.modLease, tmod]; rfl
  | commonsLock => rfl

section Commands
variable {s : State} {r : Leased} (h : Holder) {us : Nat}

theorem exec_leaseRequest_term (hus : termOk r us = false) :
    exec (.leaseRequest r h us) s = .next ((s.leaseTraffic r 2).refuseLease r .length) := if_pos hus

theorem exec_leaseRenewal_term (hus : termOk r us = false) :
    exec (.leaseRenewal r h us) s = .next ((s.leaseTraffic r 2).refuseLease r .length) := if_pos hus

theorem exec_leaseRequest_busy (hus : termOk r us = true) (hheld : (s.leaseOf r).held = true) :
    exec (.leaseRequest r h us) s = .next ((s.leaseTraffic r 2).refuseLease r .busy) :=
  (if_neg (by simp [hus])).trans (if_pos hheld)

theorem exec_leaseRequest_grants (hus : termOk r us = true) (hheld : (s.leaseOf r).held = false) :
    exec (.leaseRequest r h us) s = .next (((s.leaseTraffic r 2).rebuildTables r).granted r
      { s.leaseOf r with held := true, holder := h, ends := s.grantorTime r + 1000 * us }) := by
  refine (if_neg (by simp [hus])).trans ((if_neg (by simp [hheld])).trans ?_)
  rw [State.modLeaseOf_const, State.leaseOf_rebuildTables, State.leaseOf_leaseTraffic]
  rfl

theorem exec_leaseRenewal_renews (hus : termOk r us = true) (hheld : (s.leaseOf r).held = true) (hholder : (s.leaseOf r).holder = h)
    (hends : s.grantorTime r < (s.leaseOf r).ends) :
    exec (.leaseRenewal r h us) s = .next ((s.leaseTraffic r 2).granted r { s.leaseOf r with ends := s.grantorTime r + 1000 * us }) := by
  refine (if_neg (by simp [hus])).trans ((if_pos ⟨hheld, hholder, hends⟩).trans ?_)
  rw [State.modLeaseOf_const, State.leaseOf_leaseTraffic]
  rfl

theorem exec_leaseRenewal_epoch (hus : termOk r us = true)
    (hno : (s.leaseOf r).held = false ∨ (s.leaseOf r).holder ≠ h ∨ (s.leaseOf r).ends ≤ s.grantorTime r) :
    exec (.leaseRenewal r h us) s = .next ((s.leaseTraffic r 2).refuseLease r .epoch) := by
  refine (if_neg (by simp [hus])).trans (if_neg ?_)
  rintro ⟨hheld, hholder, hends⟩
  obtain hno | hno | hno := hno
  · simp [hheld] at hno
  · exact hno hholder
  · exact absurd hends (not_lt.mpr hno)

theorem exec_leaseRelease_ends (hheld : (s.leaseOf r).held = true) (hholder : (s.leaseOf r).holder = h) :
    exec (.leaseRelease r h) s = .next ((s.leaseTraffic r 1).endLease r) := if_pos ⟨hheld, hholder⟩

end Commands

theorem exec_leaseExpiry_ends {s : State} {r : Leased} (hheld : (s.leaseOf r).held = true) (hends : (s.leaseOf r).ends ≤ s.grantorTime r) :
    exec (.leaseExpiry r) s = .next (s.endFaulty r) := if_pos ⟨hheld, hends⟩

theorem exec_leaseExpiry_waits {s : State} {r : Leased} (h : (s.leaseOf r).held = false ∨ s.grantorTime r < (s.leaseOf r).ends) :
    exec (.leaseExpiry r) s = .next s := by
  refine if_neg ?_
  rintro ⟨hheld, hends⟩
  obtain h | h := h
  · simp [hheld] at h
  · omega

theorem State.refusedInTraffic (s : State) (r : Leased) (c : Code) (n : Nat) :
    ((s.leaseTraffic r n).refuseLease r c).leaseAnswer r = { code := some c } ∧
      ∀ q, ((s.leaseTraffic r n).refuseLease r c).leaseOf q = s.leaseOf q := by
  obtain ⟨hanswer, hkeep⟩ := (s.leaseTraffic r n).refuseLease_refuses r c
  exact ⟨hanswer, fun q => (hkeep q).trans (s.leaseOf_leaseTraffic r q n)⟩

/-- The next holder of a table lock whose holder failed finds its hub's open sessions rebuilt (R301, R485). -/
theorem State.granted_rebuilds (s : State) (b : HubId) (l : Lease) (hfault : (s.hub b.val).lockFault = true) :
    (((s.rebuildTables (.tableLock b)).granted (.tableLock b) l).hub b.val).lockFault = false ∧
      (∀ x, (s.sess x).st = .openS → s.ownerHub x = b.val → s.stepOf x = none →
        (((s.rebuildTables (.tableLock b)).granted (.tableLock b) l).sess x).tentative = (s.sess x).committed) ∧
      (s.rebuildTables (.tableLock b)).granted (.tableLock b) l = { s with
        store := ((s.rebuildTables (.tableLock b)).granted (.tableLock b) l).store
        serve := { s.serve with sessions := ((s.rebuildTables (.tableLock b)).granted (.tableLock b) l).serve.sessions } } := by
  rw [s.rebuildTables_fault b hfault]
  refine ⟨?_, fun x hopen howner hstep => ?_, ?_⟩
  · rw [State.granted, State.answerLease, State.hub_modHub_self, State.modLeaseOf, State.hub_modHub_self, State.hub_modHub_self]
  · have hmem : x ∈ s.openOf b.val := howner ▸ s.mem_openOf x hopen
    obtain ⟨h1, h2⟩ := s.sessionsRebuilt_tentative (s.openOf b.val) s x hstep (.inl hmem)
    exact h1.trans h2
  · rw [State.granted, State.answerLease, State.modHub, State.modLeaseOf, State.modHub, State.modHub, s.sessionsRebuilt_frame]

/-- Settles O42: each command is a refusal, a grant or an end, and each of these moves the lease it names and no other. -/
theorem sliceLeasesAreGrantedAndEnd : Obligations.SliceLeasesAreGrantedAndEnd := by
  intro s r h us
  refine ⟨fun hterm => ?term, fun hlo hhi hlock => ?inTerm, fun hheld hholder => ?release, fun hheld hends => ?expiry,
    fun hno => exec_leaseExpiry_waits hno⟩
  case term =>
    have hus := termOk_false r us hterm
    exact ⟨⟨_, exec_leaseRequest_term h hus, s.refusedInTraffic r .length 2⟩, ⟨_, exec_leaseRenewal_term h hus, s.refusedInTraffic r .length 2⟩⟩
  case inTerm =>
    have hus := (termOk_iff r us).mpr ⟨hlo, hhi, hlock⟩
    refine ⟨fun hfree => ⟨_, exec_leaseRequest_grants h hus hfree, ?_, State.granted_answer _ _ _, fun q hq => ?_, fun hnofault => ?_, ?_⟩,
      fun hheld => ⟨_, exec_leaseRequest_busy h hus hheld, s.refusedInTraffic r .busy 2⟩,
      fun hheld hholder hends => ⟨_, exec_leaseRenewal_renews h hus hheld hholder hends, ?_, State.granted_answer _ _ _, fun q hq => ?_, ?_⟩,
      fun hno => ⟨_, exec_leaseRenewal_epoch h hus hno, s.refusedInTraffic r .epoch 2⟩⟩
    · rw [State.granted_leaseOf, if_pos rfl]
    · rw [State.granted_leaseOf, if_neg hq, State.leaseOf_rebuildTables, State.leaseOf_leaseTraffic]
    · have hidle : (s.leaseTraffic r 2).rebuildTables r = s.leaseTraffic r 2 :=
        State.rebuildTables_idle _ _ fun b hb => by
          subst hb
          exact hnofault b rfl
      rw [hidle, State.granted_frame, s.leaseTraffic_frame]
    · rintro b rfl hfault
      exact s.granted_rebuilds b _ hfault
    · rw [State.granted_leaseOf, if_pos rfl]
    · rw [State.granted_leaseOf, if_neg hq, State.leaseOf_leaseTraffic]
    · rw [State.granted_frame, s.leaseTraffic_frame]
  case release =>
    have hheld' : ((s.leaseTraffic r 1).leaseOf r).held = true := by rwa [s.leaseOf_leaseTraffic]
    refine ⟨_, exec_leaseRelease_ends h hheld hholder, ?_, fun q hq => ?_, fun hr => ?_, ?_⟩
    · rw [State.endLease_leaseOf _ _ _ hheld', if_pos rfl, s.leaseOf_leaseTraffic, Lease.finish_of_held hheld]
    · rw [State.endLease_leaseOf _ _ _ hheld', if_neg hq, s.leaseOf_leaseTraffic]
    · rw [State.endLease_frame _ _ hr, s.leaseTraffic_frame]
    · rintro b e rfl
      exact State.endLease_slots _ b e hheld'
  case expiry =>
    refine ⟨_, exec_leaseExpiry_ends hheld hends, ?_, fun q hq => ?_, fun hr => ?_, ?_, ?_⟩
    · rw [s.endFaulty_leaseOf, State.endLease_leaseOf _ _ _ hheld, if_pos rfl, Lease.finish_of_held hheld]
    · rw [s.endFaulty_leaseOf, State.endLease_leaseOf _ _ _ hheld, if_neg hq]
    · by_cases hlock : ∃ b, r = .tableLock b
      · obtain ⟨b, rfl⟩ := hlock
        rw [s.endFaulty_lock, State.modHub, s.endLease_frame _ hr]
      · rw [s.endFaulty_plain r fun b hb => hlock ⟨b, hb⟩]
        exact s.endLease_frame r hr
    · rintro b rfl
      rw [s.endFaulty_lock, State.hub_modHub_self, hheld, Bool.or_true]
    · rintro b e rfl
      rw [s.endFaulty_plain _ fun b hb => by cases hb]
      exact s.endLease_slots b e hheld

end Sys2Proof.Machine
end

section
/-!
What follows a pass of a window: counts, marks, probes and moulds that leave service (R129, R130, R139, R140, R142).
-/
namespace Sys2Proof.Machine

/-! ### Steps that only grow -/

/-- Steps marked, counted stale or suspect: none is lost, and none loses a mark. -/
def StepsGrow (s t : State) : Prop :=
  ∃ f : Step → Step, t.serve.steps = s.serve.steps.map f ∧ ∀ x : Step, x.Grows (f x) ∧ (x.stale = true → (f x).stale = true)

theorem StepsGrow.refl (s : State) : StepsGrow s s := ⟨id, (List.map_id _).symm, fun x => ⟨.refl x, fun h => h⟩⟩

theorem StepsGrow.of_serve {s t : State} (h : t.serve = s.serve) : StepsGrow s t := by
  refine ⟨id, ?_, fun x => ⟨.refl x, fun h => h⟩⟩
  rw [h, List.map_id]

theorem StepsGrow.trans {s t u : State} (a : StepsGrow s t) (b : StepsGrow t u) : StepsGrow s u := by
  obtain ⟨f, hf, fgrow⟩ := a
  obtain ⟨g, hg, ggrow⟩ := b
  exact ⟨g ∘ f, by rw [hg, hf, List.map_map], fun x => ⟨(fgrow x).1.trans (ggrow _).1, fun h => (ggrow _).2 ((fgrow x).2 h)⟩⟩

/-- A step is found where it was found, grown. -/
theorem StepsGrow.find {s t : State} (h : StepsGrow s t) (i : Nat) : ∃ f : Step → Step, t.findStep i = (s.findStep i).map f ∧
    ∀ x : Step, x.Grows (f x) ∧ (x.stale = true → (f x).stale = true) := by
  obtain ⟨f, hf, hgrow⟩ := h
  refine ⟨f, ?_, hgrow⟩
  have hid : ((fun x : Step => x.id == i) ∘ f) = fun x => x.id == i := by
    funext x
    rw [Function.comp, (hgrow x).1.id]
  rw [State.findStep, hf, List.find?_map, hid, State.findStep]

theorem StepsGrow.rerun {s t : State} (h : StepsGrow s t) (i : Nat) : (t.findStep i).any (·.rerun) = (s.findStep i).any (·.rerun) := by
  obtain ⟨f, hf, hgrow⟩ := h.find i
  rw [hf, Option.any_map]
  congr 1
  funext x
  exact (hgrow x).1.rerun

/-- The step of a number is suspect, if it is in flight. -/
def State.SuspectAt (s : State) (i : Nat) : Prop := ∀ x, s.findStep i = some x → x.suspect = true

theorem State.SuspectAt.grow {s t : State} {i : Nat} (h : s.SuspectAt i) (g : StepsGrow s t) : t.SuspectAt i := by
  obtain ⟨f, hf, hgrow⟩ := g.find i
  intro x hx
  rw [hf, Option.map_eq_some_iff] at hx
  obtain ⟨y, hy, rfl⟩ := hx
  exact (hgrow y).1.suspect (h y hy)

/-- The step of a number is stale, if it is in flight. -/
def State.StaleAt (s : State) (i : Nat) : Prop := ∀ x, s.findStep i = some x → x.stale = true

theorem State.StaleAt.grow {s t : State} {i : Nat} (h : s.StaleAt i) (g : StepsGrow s t) : t.StaleAt i := by
  obtain ⟨f, hf, hgrow⟩ := g.find i
  intro x hx
  rw [hf, Option.map_eq_some_iff] at hx
  obtain ⟨y, hy, rfl⟩ := hx
  exact (hgrow y).2 (h y hy)

/-! ### What follows a window -/

/-- From `s` to `t` what follows a window has happened: no energy and no count of the tally moves, steps only grow, and windows of croft `n`
are as they were or gone. -/
structure Follows (s t : State) (n : Nat) : Prop where
  tally : t.tally = s.tally
  steps : StepsGrow s t
  windows : ∀ k, tfind (t.croft n).windows k = tfind (s.croft n).windows k ∨ tfind (t.croft n).windows k = none

/-- Windows of croft `n`, and the slots of its moulds, are as they were. -/
structure KeepsWindows (s t : State) (n : Nat) : Prop where
  windows : (t.croft n).windows = (s.croft n).windows
  slots : ∀ m, ((t.croft n).mould m).slot = ((s.croft n).mould m).slot

theorem Follows.refl (s : State) (n : Nat) : Follows s s n := ⟨rfl, .refl s, fun _ => .inl rfl⟩

theorem Follows.trans {s t u : State} {n : Nat} (a : Follows s t n) (b : Follows t u n) : Follows s u n where
  tally := b.tally.trans a.tally
  steps := a.steps.trans b.steps
  windows k := by
    obtain h | h := b.windows k
    · exact (a.windows k).imp (h.trans ·) (h.trans ·)
    · exact .inr h

theorem Follows.gone {s t : State} {n k : Nat} (h : Follows s t n) (hk : tfind (s.croft n).windows k = none) : tfind (t.croft n).windows k = none :=
  (h.windows k).elim (fun he => he.trans hk) fun he => he

theorem KeepsWindows.refl (s : State) (n : Nat) : KeepsWindows s s n := ⟨rfl, fun _ => rfl⟩

theorem KeepsWindows.trans {s t u : State} {n : Nat} (a : KeepsWindows s t n) (b : KeepsWindows t u n) : KeepsWindows s u n :=
  ⟨b.windows.trans a.windows, fun m => (b.slots m).trans (a.slots m)⟩

theorem KeepsWindows.of_croft {s t : State} {n : Nat} (h : t.croft n = s.croft n) : KeepsWindows s t n := by
  constructor <;> rw [h]
  exact fun _ => rfl

theorem KeepsWindows.holding {s t : State} {n : Nat} (h : KeepsWindows s t n) (slot : Nat) :
    (t.croft n).holding slot = (s.croft n).holding slot := by
  simp only [Croft.holding, h.slots]

theorem Follows.of_kept {s t : State} {n : Nat} (h : KeepsWindows s t n) (htally : t.tally = s.tally) (hsteps : StepsGrow s t) : Follows s t n :=
  ⟨htally, hsteps, fun k => .inl (by rw [h.windows])⟩

/-- Both at once, for the parts of the model that only count and mark. -/
def Quiet (s t : State) (n : Nat) : Prop := Follows s t n ∧ KeepsWindows s t n

theorem Quiet.refl (s : State) (n : Nat) : Quiet s s n := ⟨.refl s n, .refl s n⟩

theorem Quiet.trans {s t u : State} {n : Nat} (a : Quiet s t n) (b : Quiet t u n) : Quiet s u n := ⟨a.1.trans b.1, a.2.trans b.2⟩

theorem Quiet.of_same {s t : State} {n : Nat} (hcroft : t.croft n = s.croft n) (htally : t.tally = s.tally) (hserve : t.serve = s.serve) :
    Quiet s t n :=
  ⟨.of_kept (.of_croft hcroft) htally (.of_serve hserve), .of_croft hcroft⟩

theorem State.bump_quiet (s : State) (p : Page) (off k n : Nat) : Quiet s (s.bump p off k) n :=
  .of_same (State.bump_croft _ _ _ _ _) (State.bump_tally _ _ _ _) (State.bump_serve _ _ _ _)

theorem State.bumpCroft_quiet (s : State) (c off k n : Nat) : Quiet s (s.bumpCroft c off k) n := s.bump_quiet _ _ _ _

theorem State.modCroft_quiet (s : State) (c n : Nat) (f : Croft → Croft) (hw : ∀ x, (f x).windows = x.windows)
    (hm : ∀ x m, ((f x).mould m).slot = (x.mould m).slot) : Quiet s (s.modCroft c f) n := by
  have hkeep : KeepsWindows s (s.modCroft c f) n := by
    by_cases h : n = c
    · subst h
      constructor <;> rw [State.croft_modCroft_self]
      · exact hw _
      · exact hm _
    · exact .of_croft (State.croft_modCroft_ne _ _ h)
  exact ⟨.of_kept hkeep rfl (.of_serve rfl), hkeep⟩

theorem State.gatherMark_quiet (s : State) (c step : Nat) (k : Cause) (n : Nat) : Quiet s (s.gatherMark c step k) n := by
  refine s.modCroft_quiet c n _ (fun x => ?_) fun x m => ?_ <;> split <;> rfl

theorem State.modMould_quiet (s : State) (c m n : Nat) (f : Mould → Mould) (hf : ∀ x, (f x).slot = x.slot) : Quiet s (s.modMould c m f) n := by
  refine s.modCroft_quiet c n _ (fun _ => rfl) fun x k => ?_
  rw [Croft.mould_modMould]
  split
  next h => rw [hf, h]
  next => rfl

theorem State.startProbe_quiet (s : State) (c m : Nat) (step : Option Nat) (n : Nat) : Quiet s (s.startProbe c m step) n := by
  refine s.modMould_quiet c m n _ fun x => ?_
  split <;> rfl

theorem State.logError_quiet (s : State) (c addr i j n : Nat) (k : Code) : Quiet s (s.logError (.croft c) k addr i j) n := by
  have hlog : LoggedIn s (s.logError (.croft c) k addr i j) (.croft c) k := s.logError_logged _ _ _ _ _ _ (base_ne_lost _ (base_aligned _))
  exact .of_same (hlog.croft n) (by rw [hlog.1]) (by rw [hlog.1])

/-! ### SUSPECT -/

/-- A step that a witness of croft `n` disagrees with, or that a window out of service names. -/
def Step.suspected (x : Step) (n k : Nat) : Step :=
  if x.rerun then { x with disagreed := x.disagreed ++ [(n, k)], suspect := true }
  else ({ x with disagreed := x.disagreed ++ [(n, k)] } : Step).addMark .suspect

theorem Step.suspected_grows (x : Step) (n k : Nat) : x.Grows (x.suspected n k) ∧ (x.stale = true → (x.suspected n k).stale = true) := by
  unfold Step.suspected
  split
  next => exact ⟨⟨rfl, rfl, fun _ h => h, fun _ => rfl⟩, fun h => h⟩
  next =>
    have hpre : x.Grows { x with disagreed := x.disagreed ++ [(n, k)] } := ⟨rfl, rfl, fun _ h => h, fun h => h⟩
    refine ⟨hpre.trans (Step.addMark_grows _ _), fun h => ?_⟩
    unfold Step.addMark
    split <;> exact h

theorem State.markSuspect_found {s : State} {i : Nat} {x : Step} (h : s.findStep i = some x) (n : Nat) (m : Option Nat) :
    s.markSuspect i n m = (s.suspectCounted x n i).modStep i fun y => y.suspected n (m.getD 18) := by
  simp only [State.markSuspect, h]
  rfl

theorem State.markSuspect_none {s : State} {i : Nat} (h : s.findStep i = none) (n : Nat) (m : Option Nat) : s.markSuspect i n m = s := by
  simp only [State.markSuspect, h]

theorem State.suspectCounted_quiet (s : State) (x : Step) (c i n : Nat) : Quiet s (s.suspectCounted x c i) n := by
  unfold State.suspectCounted
  split
  next => exact s.gatherMark_quiet c i .suspect n
  next => exact (s.bumpCroft_quiet c 0x108 1 n).trans (State.gatherMark_quiet _ c i .suspect n)

theorem State.modStep_quiet (s : State) (i n : Nat) (f : Step → Step)
    (hf : ∀ x, x.Grows (f x) ∧ (x.stale = true → (f x).stale = true)) : Quiet s (s.modStep i f) n := by
  have hsteps : StepsGrow s (s.modStep i f) := by
    refine ⟨fun x => if x.id = i then f x else x, rfl, fun x => ?_⟩
    dsimp only
    split
    next => exact hf x
    next => exact ⟨.refl x, fun h => h⟩
  exact ⟨.of_kept (.of_croft rfl) rfl hsteps, .of_croft rfl⟩

theorem State.markSuspect_quiet (s : State) (i c n : Nat) (m : Option Nat) : Quiet s (s.markSuspect i c m) n := by
  rcases h : s.findStep i with _ | x
  · rw [State.markSuspect_none h]
    exact .refl s n
  · rw [State.markSuspect_found h]
    exact (s.suspectCounted_quiet x c i n).trans (State.modStep_quiet _ i n _ fun y => y.suspected_grows c _)

/-- A step that SUSPECT reaches carries the mark, or in a re-run the field of its own (R587). -/
theorem State.markSuspect_carries (s : State) (i n : Nat) (m : Option Nat) (x : Step) (hx : s.findStep i = some x) (y : Step)
    (hy : (s.markSuspect i n m).findStep i = some y) :
    (x.rerun = false → Cause.suspect ∈ y.marks) ∧ (x.rerun = true → y.suspect = true) := by
  have hserve : (s.suspectCounted x n i).findStep i = s.findStep i := by rw [State.findStep, s.suspectCounted_frame, State.findStep]
  rw [State.markSuspect_found hx, State.findStep_modStep _ _ _ fun z => (z.suspected_grows n _).1.id, hserve, hx, Option.map_some,
    Option.some_inj] at hy
  subst hy
  refine ⟨fun hr => ?_, fun hr => ?_⟩
  · rw [Step.suspected, if_neg (by simp [hr])]
    exact Step.mem_addMark _ _
  · rw [Step.suspected, if_pos hr]

/-! ### A mould that leaves service -/

theorem tfind_tdrop_self {α : Type} (t : Table α) (k : Nat) : tfind (tdrop t k) k = none := by rw [tfind_tdrop, if_pos rfl]

/-- A change of crofts that may drop windows. -/
theorem State.modCroft_follows (s : State) (c n : Nat) (f : Croft → Croft)
    (hw : ∀ x k, tfind (f x).windows k = tfind x.windows k ∨ tfind (f x).windows k = none) : Follows s (s.modCroft c f) n := by
  refine ⟨rfl, .of_serve rfl, fun k => ?_⟩
  by_cases h : n = c
  · subst h
    rw [State.croft_modCroft_self]
    exact hw _ k
  · exact .inl (by rw [State.croft_modCroft_ne _ _ h])

theorem State.dropWindow_follows (s : State) (n slot : Nat) : Follows s (s.dropWindow n slot) n := by
  unfold State.dropWindow
  split
  next w hw =>
    split
    next => exact .refl s n
    next =>
      refine (s.modCroft_follows n n (fun c => { c with windows := tdrop c.windows slot }) fun x k => ?_).trans
        (State.markSuspect_quiet _ _ _ _ _).1
      rw [tfind_tdrop]
      exact (em (k = slot)).symm.imp (if_neg ·) (if_pos ·)
  next => exact .refl s n

/-- A window that has not been delivered is dropped with its mould (R140). -/
theorem State.dropWindow_gone (s : State) (n slot : Nat) (h : ∀ w, tfind (s.croft n).windows slot = some w → w.delivered = false) :
    tfind ((s.dropWindow n slot).croft n).windows slot = none := by
  unfold State.dropWindow
  split
  next w hw =>
    rw [if_neg (by simp [h w hw])]
    refine (State.markSuspect_quiet _ _ _ _ _).1.gone ?_
    rw [State.croft_modCroft_self]
    exact tfind_tdrop_self _ _
  next hw => exact hw

theorem Fenced.follows {s t : State} {n : Nat} (h : Fenced s t n) : Follows s t n := by
  refine ⟨by rw [h.frame], .of_serve h.serve, fun k => .inl ?_⟩
  obtain hc | hc := h.croft <;> rw [hc]
  rfl

theorem State.mapReserve_follows (s : State) (n slot : Nat) : Follows s (s.mapReserve n slot) n := by
  unfold State.mapReserve
  split
  next => exact s.modCroft_follows n n _ fun _ _ => .inl rfl
  next => exact (s.fence_fenced n).follows

/-- The croft after its window and mould have gone and before a reserve takes the slot. -/
def State.slotLeft (s : State) (n slot m : Nat) (retired : Bool) : State :=
  (((s.dropWindow n slot).modMould n m fun x => { x with
    slot := none, probe := none, gauging := {}, standins := [], refPending := [], refReady := [], spareWaiting := [],
    castWaiting := false, state := if retired then .retired else x.state }).modCroft n (·.clearSlots)).holdSlot n slot

theorem State.leaveService_holding (s : State) (n slot : Nat) (retired : Bool) (m : Nat) (h : (s.croft n).holding slot = some m) :
    s.leaveService n slot retired = (s.slotLeft n slot m retired).mapReserve n slot := by
  simp only [State.leaveService, h]
  rfl

theorem State.modMould_follows (s : State) (c m n : Nat) (f : Mould → Mould) : Follows s (s.modMould c m f) n :=
  s.modCroft_follows c n (fun x => x.modMould m f) fun _ _ => .inl rfl

theorem State.clearSlots_follows (s : State) (c n : Nat) : Follows s (s.modCroft c (·.clearSlots)) n :=
  s.modCroft_follows c n Croft.clearSlots fun _ _ => .inl rfl

theorem State.holdSlot_follows (s : State) (c slot n : Nat) : Follows s (s.holdSlot c slot) n := by
  refine s.modCroft_follows c n _ fun _ _ => .inl ?_
  split <;> rfl

theorem State.slotLeft_follows (s : State) (n slot m : Nat) (retired : Bool) : Follows (s.dropWindow n slot) (s.slotLeft n slot m retired) n :=
  (State.modMould_follows _ _ _ _ _).trans ((State.clearSlots_follows _ _ _).trans (State.holdSlot_follows _ _ _ _))

theorem State.leaveService_follows (s : State) (n slot : Nat) (retired : Bool) : Follows s (s.leaveService n slot retired) n := by
  rcases h : (s.croft n).holding slot with _ | m
  · have hnone : s.leaveService n slot retired = s := by simp only [State.leaveService, h]
    rw [hnone]
    exact .refl s n
  · rw [s.leaveService_holding n slot retired m h]
    exact (s.dropWindow_follows n slot).trans ((s.slotLeft_follows n slot m retired).trans (State.mapReserve_follows _ n slot))

theorem State.leaveService_gone (s : State) (n slot : Nat) (retired : Bool) (m : Nat) (hm : (s.croft n).holding slot = some m)
    (h : ∀ w, tfind (s.croft n).windows slot = some w → w.delivered = false) :
    tfind ((s.leaveService n slot retired).croft n).windows slot = none := by
  rw [s.leaveService_holding n slot retired m hm]
  exact ((s.slotLeft_follows n slot m retired).trans (State.mapReserve_follows _ n slot)).gone (s.dropWindow_gone n slot h)

/-! ### What follows a pass -/

/-- The comparisons that a pass skipped are counted. -/
def State.skipsCounted (s : State) (n : Nat) (p : PassOut) : State :=
  if p.repeated then (s.countSkips n p.w1).countSkips n p.w2 else s.countSkips n p.w1

theorem State.countSkips_quiet (s : State) (c n : Nat) (ws : List Witness) : Quiet s (s.countSkips c ws) n :=
  (s.bumpCroft_quiet c _ _ n).trans (State.bumpCroft_quiet _ c _ _ n)

theorem State.skipsCounted_quiet (s : State) (c n : Nat) (p : PassOut) : Quiet s (s.skipsCounted c p) n := by
  unfold State.skipsCounted
  split
  next => exact (s.countSkips_quiet c n _).trans (State.countSkips_quiet _ c n _)
  next => exact s.countSkips_quiet c n _

/-- The state with a persisting disagreement marked, before a probe starts. -/
def State.disagreed (s : State) (n m step : Nat) (p : PassOut) : State := (s.skipsCounted n p).markSuspect step n (some m)

theorem State.disagreed_quiet (s : State) (n m step : Nat) (p : PassOut) (k : Nat) : Quiet s (s.disagreed n m step p) k :=
  (s.skipsCounted_quiet n k p).trans (State.markSuspect_quiet _ _ _ _ _)

/-- The state with a disagreement in a re-run entered and its mould out of service. -/
def State.mouldLeft (s : State) (n slot m step : Nat) : State :=
  ((s.startProbe n m (some step)).logError (.croft n) .suspect (Page.croft n).base 5 n).leaveService n slot false

theorem State.afterPass_agrees (s : State) (n slot m step : Nat) (p : PassOut) (h : p.w2.contains .disagree = false) :
    s.afterPass n slot m step p = if p.repeated then (s.skipsCounted n p).bumpCroft n 0x100 1 else s.skipsCounted n p :=
  if_neg (by rw [h]; exact Bool.false_ne_true)

theorem State.countSkips_serve (s : State) (n : Nat) (ws : List Witness) : (s.countSkips n ws).serve = s.serve := by
  rw [State.countSkips, State.bumpCroft, State.bump_serve, State.bumpCroft, State.bump_serve]

theorem State.skipsCounted_serve (s : State) (n : Nat) (p : PassOut) : (s.skipsCounted n p).serve = s.serve := by
  unfold State.skipsCounted
  split <;> simp only [State.countSkips_serve]

theorem State.skipsCounted_rerun (s : State) (n step : Nat) (p : PassOut) :
    (((s.skipsCounted n p).findStep step).map (·.rerun)).getD false = (s.findStep step).any (·.rerun) := by
  have hserve : (s.skipsCounted n p).findStep step = s.findStep step := by rw [State.findStep, s.skipsCounted_serve, State.findStep]
  rw [hserve]
  cases s.findStep step <;> rfl

theorem State.afterPass_disagrees (s : State) (n slot m step : Nat) (p : PassOut) (h : p.w2.contains .disagree = true) :
    s.afterPass n slot m step p = if (s.croft n).holding slot ≠ some m then s.disagreed n m step p
      else if (s.findStep step).any (·.rerun) then (s.disagreed n m step p).mouldLeft n slot m step
      else (s.disagreed n m step p).startProbe n m (some step) := by
  have hholding := (s.disagreed_quiet n m step p n).2.holding slot
  rw [← hholding, ← s.skipsCounted_rerun n step p]
  exact if_pos h

theorem State.mouldLeft_follows (s : State) (n slot m step : Nat) : Follows s (s.mouldLeft n slot m step) n :=
  (s.startProbe_quiet n m _ n).1.trans ((State.logError_quiet _ _ _ _ _ _ _).1.trans (State.leaveService_follows _ _ _ _))

theorem State.afterPass_follows (s : State) (n slot m step : Nat) (p : PassOut) : Follows s (s.afterPass n slot m step p) n := by
  rcases h : p.w2.contains .disagree
  · rw [s.afterPass_agrees _ _ _ _ _ h]
    split
    next => exact ((s.skipsCounted_quiet n n p).trans (State.bumpCroft_quiet _ _ _ _ _)).1
    next => exact (s.skipsCounted_quiet n n p).1
  · rw [s.afterPass_disagrees _ _ _ _ _ h]
    have hquiet := (s.disagreed_quiet n m step p n).1
    split
    next => exact hquiet
    next =>
      split
      next => exact hquiet.trans (State.mouldLeft_follows _ _ _ _ _)
      next => exact hquiet.trans (State.startProbe_quiet _ _ _ _ _).1

/-- A pass whose step is no re-run, or whose witness agrees, leaves the window. -/
theorem State.afterPass_keeps (s : State) (n slot m step : Nat) (p : PassOut)
    (h : ((s.findStep step).any (·.rerun) && p.w2.contains .disagree) = false) : KeepsWindows s (s.afterPass n slot m step p) n := by
  rcases hd : p.w2.contains .disagree
  · rw [s.afterPass_agrees _ _ _ _ _ hd]
    split
    next => exact ((s.skipsCounted_quiet n n p).trans (State.bumpCroft_quiet _ _ _ _ _)).2
    next => exact (s.skipsCounted_quiet n n p).2
  · rw [hd, Bool.and_true] at h
    rw [s.afterPass_disagrees _ _ _ _ _ hd, h]
    have hquiet := (s.disagreed_quiet n m step p n).2
    split
    next => exact hquiet
    next => exact hquiet.trans (State.startProbe_quiet _ _ _ _ _).2

/-- A disagreement that persists in a re-run drops the window, and its step is SUSPECT (R142). -/
theorem State.afterPass_leaves (s : State) (n slot m step : Nat) (p : PassOut) (hd : p.w2.contains .disagree = true)
    (hr : (s.findStep step).any (·.rerun) = true) : (s.afterPass n slot m step p).SuspectAt step ∧
      ((s.croft n).holding slot = some m → (∀ w, tfind (s.croft n).windows slot = some w → w.delivered = false) →
        tfind ((s.afterPass n slot m step p).croft n).windows slot = none) := by
  have hsuspect : (s.disagreed n m step p).SuspectAt step := by
    intro y hy
    have hrerun : (((s.skipsCounted n p).findStep step).map (·.rerun)).getD false = true := by rw [s.skipsCounted_rerun, hr]
    rcases hx : (s.skipsCounted n p).findStep step with _ | x
    · simp [hx] at hrerun
    · rw [hx] at hrerun
      exact ((s.skipsCounted n p).markSuspect_carries step n (some m) x hx y hy).2 hrerun
  rw [s.afterPass_disagrees _ _ _ _ _ hd, if_pos hr]
  refine ⟨?_, fun hm hw => ?_⟩
  · split
    next => exact hsuspect
    next => exact hsuspect.grow (State.mouldLeft_follows _ _ _ _ _).steps
  · have hkeep : KeepsWindows s (((s.disagreed n m step p).startProbe n m (some step)).logError (.croft n) .suspect (Page.croft n).base 5 n) n :=
      (s.disagreed_quiet n m step p n).2.trans ((State.startProbe_quiet _ _ _ _ _).2.trans (State.logError_quiet _ _ _ _ _ _ _).2)
    rw [if_neg (not_not.mpr hm)]
    exact State.leaveService_gone _ n slot false m ((hkeep.holding slot).trans hm) fun w hw' => hw w (by rw [← hkeep.windows]; exact hw')

end Sys2Proof.Machine
end

section
/-!
Forward windows and their delivery (R51, R55, R61, R64, R98, R135, R140, R142, R165, R173, R250).
-/
namespace Sys2Proof.Machine

/-! ### States that differ in registers -/

/-- From `s` to `t` only registers have moved. -/
def RegsMoved (s t : State) : Prop := t = { s with regs := t.regs }

theorem RegsMoved.refl (s : State) : RegsMoved s s := rfl

theorem RegsMoved.trans {s t u : State} (a : RegsMoved s t) (b : RegsMoved t u) : RegsMoved s u := by
  unfold RegsMoved at *
  rw [b, a]

theorem State.bump_moved (s : State) (p : Page) (off k : Nat) : RegsMoved s (s.bump p off k) := by
  unfold RegsMoved
  rw [State.bump, State.setReg]

theorem RegsMoved.croft {s t : State} (h : RegsMoved s t) (n : Nat) : t.croft n = s.croft n := by
  rw [State.croft, h, State.croft]

theorem RegsMoved.tally {s t : State} (h : RegsMoved s t) : t.tally = s.tally := by rw [h]

theorem RegsMoved.serve {s t : State} (h : RegsMoved s t) : t.serve = s.serve := by rw [h]

theorem RegsMoved.quiet {s t : State} (h : RegsMoved s t) (n : Nat) : Quiet s t n := .of_same (h.croft n) h.tally h.serve

theorem State.countHistogram_moved (s : State) (n slot : Nat) (hot : List (Nat × Nat)) (res : List (Nat × Int)) :
    RegsMoved s (s.countHistogram n slot hot res) := by
  unfold State.countHistogram
  dsimp only
  split
  next =>
    refine List.foldlRecOn res _ (motive := fun t => RegsMoved s t) (.refl s) fun t ht e _ => ?_
    split
    next => exact ht.trans (t.bump_moved _ _ _)
    next => exact ht
  next => exact .refl s

/-! ### A window on a mould in service -/

/-- The rung of a window (R164). -/
def State.windowRung (s : State) (w : WindowIn) : Rung :=
  choose ((s.hotRows w.croft.num w.mould.val).map (·.1)) (s.actCodes w.croft.num w.actRow w.firstRow w.rows)

/-- The mould of a window with the reference sample of its pass. -/
def State.windowSampled (s : State) (w : WindowIn) (m : Nat) (a8 : Bool) (codes : List (Nat × Int)) (p : PassOut × PassOut) : Mould :=
  (s.mould w.croft.num m).addSample (resolution w.rows) p.1.first
    ((s.mould w.croft.num m).sample (s.croft w.croft.num).theta (s.reeveTime (croftDie w.croft.num)) (resolution w.rows) w.rows
      (mapCodes (if a8 then high4 else clip4) codes) p.1)

/-- The residuals that a window's riser adds. -/
def windowResiduals (a8 : Bool) (codes : List (Nat × Int)) : List (Nat × Int) := if a8 then [] else residuals codes

/-- A croft with the result of a window on a mould. -/
def Croft.windowed (c : Croft) (m slot : Nat) (x : Mould) (win : OpenWindow) : Croft :=
  { c.setMould m x with windows := tset c.windows slot win }

/-- The state with a window's result, its counts of the tally and its energy. -/
def State.windowRun (s : State) (w : WindowIn) (m : Nat) (a8 : Bool) (codes : List (Nat × Int)) (p : PassOut × PassOut) : State :=
  let s1 := s.modCroft w.croft.num fun c => c.windowed m w.mould.val (s.windowSampled w m a8 codes p) (s.windowResult w m a8 codes p)
  ({ s1 with tally := { s1.tally with forward := s1.tally.forward + 1, a8 := s1.tally.a8 + b2n a8 } } : State).spend
    (windowEnergy w.rows ((s.mould w.croft.num m).standins.filter (·.live)).length (windowResiduals a8 codes).length a8 p)

/-- The state with a window's counters. -/
def State.windowCounted (u : State) (n slot b : Nat) (a8 : Bool) (rung : Rung) (hot : List (Nat × Nat)) (res : List (Nat × Int))
    (p : PassOut × PassOut) : State :=
  ((((((u.bumpCroft n 0x168 (b2n a8)).bumpCroft n 0x158 res.length).bump (.riser (croftDie n)) 0x108 res.length).bump
    (.riser (croftDie n)) 0x110 (b2n (rung == .a8Overflow))).bump (.riser (croftDie n)) 0x118 (b2n (rung == .a8Cold))).countHistogram
      n slot hot res).bumpCroft n 0x178 (satCount b a8 p)

theorem State.windowCounted_moved (u : State) (n slot b : Nat) (a8 : Bool) (rung : Rung) (hot : List (Nat × Nat)) (res : List (Nat × Int))
    (p : PassOut × PassOut) : RegsMoved u (u.windowCounted n slot b a8 rung hot res p) :=
  (((((((u.bump_moved _ _ _).trans (State.bump_moved _ _ _ _)).trans (State.bump_moved _ _ _ _)).trans (State.bump_moved _ _ _ _)).trans
    (State.bump_moved _ _ _ _)).trans (State.countHistogram_moved _ _ _ _ _)).trans (State.bump_moved _ _ _ _))

/-- The state of a window before the witness decisions take effect. -/
def State.windowReady (s : State) (w : WindowIn) (m : Nat) (a8 : Bool) (codes : List (Nat × Int)) (p : PassOut × PassOut) : State :=
  let u := (s.windowRun w m a8 codes p).windowCounted w.croft.num w.mould.val (resolution w.rows) a8 (s.windowRung w)
    (s.hotRows w.croft.num w.mould.val) (windowResiduals a8 codes) p
  if s.isStale w.croft.num (s.mould w.croft.num m) then u.countStale w.croft.num w.step else u

/-- The state of a window after the witness decisions of its passes. -/
def State.windowDecided (s : State) (w : WindowIn) (m : Nat) (a8 : Bool) (codes : List (Nat × Int)) (p : PassOut × PassOut) : State :=
  if a8 then
    ((s.windowReady w m a8 codes p).afterPass w.croft.num w.mould.val m w.step p.1).afterPass w.croft.num w.mould.val m w.step p.2
  else (s.windowReady w m a8 codes p).afterPass w.croft.num w.mould.val m w.step p.1

theorem State.openWindow_eq (s : State) (w : WindowIn) (m : Nat) :
    s.openWindow w m = s.windowDecided w m (s.windowRung w != .a4) (s.actCodes w.croft.num w.actRow w.firstRow w.rows)
      (s.windowPasses w m (s.windowRung w != .a4) (s.actCodes w.croft.num w.actRow w.firstRow w.rows)) := rfl

theorem Mould.addSample_slot (m : Mould) (b : Nat) (q : List Int) (x : Option RefSample) : (m.addSample b q x).slot = m.slot := by
  unfold Mould.addSample
  split
  next =>
    split
    next => rfl
    next => rfl
  next => rfl

/-- A stale step (R116). -/
def Step.staled (x : Step) : Step := { x with stale := true }

theorem State.countStale_quiet (s : State) (c step n : Nat) : Quiet s (s.countStale c step) n :=
  (s.modStep_quiet step n Step.staled fun _ => ⟨⟨rfl, rfl, fun _ h => h, fun h => h⟩, fun _ => rfl⟩).trans
    ((State.bumpCroft_quiet _ _ _ _ _).trans (State.bump_quiet _ _ _ _ _))

theorem State.countStale_stale (s : State) (c step : Nat) : (s.countStale c step).StaleAt step := by
  have hmod : (s.modStep step Step.staled).StaleAt step := by
    intro x hx
    rw [State.findStep_modStep _ _ Step.staled fun _ => rfl, Option.map_eq_some_iff] at hx
    obtain ⟨y, -, rfl⟩ := hx
    rfl
  exact hmod.grow ((State.bumpCroft_quiet _ c _ _ 0).trans (State.bump_quiet _ _ _ _ 0)).1.steps

section Window
variable (s : State) (w : WindowIn) (m : Nat) (a8 : Bool) (codes : List (Nat × Int)) (p : PassOut × PassOut)

theorem State.windowRun_croft : (s.windowRun w m a8 codes p).croft w.croft.num =
    (s.croft w.croft.num).windowed m w.mould.val (s.windowSampled w m a8 codes p) (s.windowResult w m a8 codes p) :=
  s.croft_modCroft_self _ fun c => c.windowed m w.mould.val (s.windowSampled w m a8 codes p) (s.windowResult w m a8 codes p)

theorem State.windowRun_tally : (s.windowRun w m a8 codes p).tally = { s.tally with
    forward := s.tally.forward + 1, a8 := s.tally.a8 + b2n a8
    arrayFj := s.tally.arrayFj + windowEnergy w.rows ((s.mould w.croft.num m).standins.filter (·.live)).length
      (windowResiduals a8 codes).length a8 p } := rfl

theorem State.windowRun_serve : (s.windowRun w m a8 codes p).serve = s.serve := rfl

/-- Counts and stale flags leave a run window's croft and tally. -/
theorem State.windowReady_quiet (n : Nat) : Quiet (s.windowRun w m a8 codes p) (s.windowReady w m a8 codes p) n := by
  unfold State.windowReady
  dsimp only
  split
  next => exact ((State.windowCounted_moved _ _ _ _ _ _ _ _ _).quiet n).trans (State.countStale_quiet _ _ _ _)
  next => exact (State.windowCounted_moved _ _ _ _ _ _ _ _ _).quiet n

theorem State.windowReady_stale (h : s.isStale w.croft.num (s.mould w.croft.num m) = true) :
    (s.windowReady w m a8 codes p).StaleAt w.step := by
  unfold State.windowReady
  dsimp only
  rw [if_pos h]
  exact State.countStale_stale _ _ _

theorem State.windowReady_window :
    tfind ((s.windowReady w m a8 codes p).croft w.croft.num).windows w.mould.val = some (s.windowResult w m a8 codes p) := by
  rw [(s.windowReady_quiet w m a8 codes p w.croft.num).2.windows, s.windowRun_croft]
  exact tfind_tset_self _ _ _

theorem State.windowReady_rerun :
    ((s.windowReady w m a8 codes p).findStep w.step).any (·.rerun) = (s.findStep w.step).any (·.rerun) :=
  (s.windowReady_quiet w m a8 codes p 0).1.steps.rerun _

theorem State.windowReady_holding (hm : (s.croft w.croft.num).holding w.mould.val = some m) :
    ((s.windowReady w m a8 codes p).croft w.croft.num).holding w.mould.val = some m := by
  rw [(s.windowReady_quiet w m a8 codes p w.croft.num).2.holding, s.windowRun_croft, ← hm]
  have hslot (k : Nat) : (((s.croft w.croft.num).setMould m (s.windowSampled w m a8 codes p)).mould k).slot =
      ((s.croft w.croft.num).mould k).slot := by
    rw [Croft.mould, Croft.setMould, tget_tput]
    split
    next h => rw [h]; exact Mould.addSample_slot _ _ _ _
    next => rfl
  simp only [Croft.holding]
  congr 1
  funext k
  exact congrArg (· == some w.mould.val) (hslot k)

theorem State.windowDecided_follows : Follows (s.windowReady w m a8 codes p) (s.windowDecided w m a8 codes p) w.croft.num := by
  unfold State.windowDecided
  split
  next => exact (State.afterPass_follows _ _ _ _ _ _).trans (State.afterPass_follows _ _ _ _ _ _)
  next => exact State.afterPass_follows _ _ _ _ _ _

/-- A disagreement that persists in the re-run of a window's step. -/
def State.windowLeaves (s : State) (w : WindowIn) (a8 : Bool) (p : PassOut × PassOut) : Bool :=
  ((s.findStep w.step).any fun x => x.rerun) && (p.1.w2.contains .disagree || (a8 && p.2.w2.contains .disagree))

theorem State.windowDecided_leaves (hm : (s.croft w.croft.num).holding w.mould.val = some m) (h : s.windowLeaves w a8 p = true) :
    tfind ((s.windowDecided w m a8 codes p).croft w.croft.num).windows w.mould.val = none ∧
      (s.windowDecided w m a8 codes p).SuspectAt w.step := by
  obtain ⟨hrerun, hd⟩ := Bool.and_eq_true_iff.mp h
  have hholding := s.windowReady_holding w m a8 codes p hm
  have hrerun' := (s.windowReady_rerun w m a8 codes p).trans hrerun
  have hopen : ∀ x, tfind ((s.windowReady w m a8 codes p).croft w.croft.num).windows w.mould.val = some x → x.delivered = false := by
    rw [s.windowReady_window]
    rintro x ⟨⟩
    rfl
  unfold State.windowDecided
  rcases hfirst : p.1.w2.contains .disagree
  · rw [hfirst, Bool.false_or] at hd
    obtain ⟨rfl, hsecond⟩ := Bool.and_eq_true_iff.mp hd
    have hfollow := State.afterPass_follows (s.windowReady w m true codes p) w.croft.num w.mould.val m w.step p.1
    have hkeep := State.afterPass_keeps (s.windowReady w m true codes p) w.croft.num w.mould.val m w.step p.1
      (by rw [hfirst, Bool.and_false])
    obtain ⟨hsuspect, hgone⟩ := State.afterPass_leaves _ w.croft.num w.mould.val m w.step p.2 hsecond
      ((hfollow.steps.rerun _).trans hrerun')
    rw [if_pos rfl]
    exact ⟨hgone ((hkeep.holding _).trans hholding) (by rw [hkeep.windows]; exact hopen), hsuspect⟩
  · obtain ⟨hsuspect, hgone⟩ := State.afterPass_leaves _ w.croft.num w.mould.val m w.step p.1 hfirst hrerun'
    split
    next =>
      have hfollow := State.afterPass_follows ((s.windowReady w m a8 codes p).afterPass w.croft.num w.mould.val m w.step p.1)
        w.croft.num w.mould.val m w.step p.2
      exact ⟨hfollow.gone (hgone hholding hopen), hsuspect.grow hfollow.steps⟩
    next => exact ⟨hgone hholding hopen, hsuspect⟩

theorem State.windowDecided_stays (h : s.windowLeaves w a8 p = false) :
    tfind ((s.windowDecided w m a8 codes p).croft w.croft.num).windows w.mould.val = some (s.windowResult w m a8 codes p) := by
  have hrerun := s.windowReady_rerun w m a8 codes p
  have hno (q : PassOut) (hq : q.w2.contains .disagree = true → p.1.w2.contains .disagree = true ∨ a8 = true ∧ p.2.w2.contains .disagree = true)
      (u : State) (hu : (u.findStep w.step).any (·.rerun) = (s.findStep w.step).any (·.rerun)) :
      ((u.findStep w.step).any (·.rerun) && q.w2.contains .disagree) = false := by
    rw [Bool.eq_false_iff, ne_eq, Bool.and_eq_true, hu]
    rintro ⟨hr, hd⟩
    rw [State.windowLeaves, hr, Bool.true_and, Bool.or_eq_false_iff] at h
    obtain ⟨h1, h2⟩ := h
    obtain hd | ⟨ha, hd⟩ := hq hd
    · rw [h1] at hd
      cases hd
    · rw [ha, hd] at h2
      cases h2
  have hfirst := State.afterPass_keeps (s.windowReady w m a8 codes p) w.croft.num w.mould.val m w.step p.1 (hno p.1 .inl _ hrerun)
  rw [← s.windowReady_window w m a8 codes p, State.windowDecided]
  split
  next ha =>
    have hfollow := State.afterPass_follows (s.windowReady w m a8 codes p) w.croft.num w.mould.val m w.step p.1
    have hsecond := State.afterPass_keeps ((s.windowReady w m a8 codes p).afterPass w.croft.num w.mould.val m w.step p.1) w.croft.num
      w.mould.val m w.step p.2 (hno p.2 (fun hd => .inr ⟨ha, hd⟩) _ ((hfollow.steps.rerun _).trans hrerun))
    rw [hsecond.windows, hfirst.windows]
  next => rw [hfirst.windows]

end Window

/-! ### Values of a window -/

/-- Sums listed without zeros read as they were listed. -/
theorem tget_listed (f : Nat → Int) (l : List Nat) (k : Nat) (h : k ∈ l) :
    tget (fun _ => 0) ((l.map fun i => (i, f i)).filter fun e => e.2 ≠ 0) k = f k := by
  have hnot (l : List Nat) (hz : f k = 0) : tget (fun _ => 0) ((l.map fun i => (i, f i)).filter fun e => e.2 ≠ 0) k = 0 := by
    induction l with
    | nil => rfl
    | cons i l ih =>
      rw [List.map_cons, List.filter_cons]
      split
      next hi =>
        rw [tget]
        split
        next he =>
          subst he
          simp [hz] at hi
        next => exact ih
      next => exact ih
  by_cases hz : f k = 0
  · rw [hnot l hz, hz]
  · induction l with
    | nil => simp at h
    | cons i l ih =>
      by_cases hi : k = i
      · subst hi
        rw [List.map_cons, List.filter_cons_of_pos (by simpa using hz), tget, if_pos rfl]
      · have hrest := ih ((List.mem_cons.mp h).resolve_left hi)
        rw [List.map_cons, List.filter_cons]
        split
        next => rw [tget, if_neg hi, hrest]
        next => exact hrest

/-- The codes of a pass, repeated or not, begin with its own conversions (R55). -/
theorem passWithRepeat_first (m : Mould) (theta : Int) (fresh : Bool) (b span : Nat) (unsigned : Bool) (stood : List Nat)
    (codes : List (Nat × Int)) (noise : List Noise) (k : Nat) :
    (passWithRepeat m theta fresh b span unsigned stood codes noise k).first = m.pass theta fresh b span codes noise k := by
  unfold passWithRepeat
  dsimp only
  split <;> rfl

theorem Mould.pass_getD (m : Mould) (theta : Int) (bounded : Bool) (b span : Nat) (codes : List (Nat × Int)) (noise : List Noise) (k c : Nat)
    (h : c < 262) : (m.pass theta bounded b span codes noise k).getD c 0 = convert b span (m.dot codes c)
      (roundHA (rawCode (m.columnGain theta c) (m.columnOffset theta c) b (m.dot codes c * 1024 / span)
        (lineResiduals (noiseOf noise k c) theta bounded)) - roundHA (m.dot codes c * (2 ^ (b - 1) : Nat) / span) + (noiseOf noise k c).delta) := by
  rw [List.getD_eq_getElem?_getD, Mould.pass, List.getElem?_map, List.getElem?_range h]
  rfl

end Sys2Proof.Machine
end

section
/-!
The statement about forward windows.
-/
namespace Sys2Proof.Machine

/-! ### The result of a window -/

section Result
variable (s : State) (w : WindowIn) (m : Nat) (codes : List (Nat × Int)) (p : PassOut × PassOut)

theorem State.windowResult_narrow : (s.windowResult w m false codes p).wide = [] ∧
    ∀ col < 256, col ∉ ((s.mould w.croft.num m).standins.filter (·.live)).map (·.column) →
      tget (fun _ => 0) (s.windowResult w m false codes p).narrow col =
        (s.mould w.croft.num m).correct (s.croft w.croft.num).theta (resolution w.rows) col (p.1.final.getD col 0) := by
  refine ⟨rfl, fun col hcol hfree => ?_⟩
  rw [List.getD_eq_getElem?_getD]
  exact tget_listed (fun k => (s.mould w.croft.num m).correct (s.croft w.croft.num).theta (resolution w.rows) k ((p.1.final[k]?).getD 0)) _ _
    (List.mem_filter.mpr ⟨List.mem_range.mpr hcol, by simpa [State.mould] using hfree⟩)

theorem State.windowResult_wide : (s.windowResult w m true codes p).narrow = [] ∧
    ∀ col < 256, col ∉ ((s.mould w.croft.num m).standins.filter (·.live)).map (·.column) →
      tget (fun _ => 0) (s.windowResult w m true codes p).wide col =
        16 * (s.mould w.croft.num m).correct (s.croft w.croft.num).theta (resolution w.rows) col (p.1.final.getD col 0) +
        2 * (s.mould w.croft.num m).correct (s.croft w.croft.num).theta (resolution w.rows) col (p.2.final.getD col 0) := by
  refine ⟨rfl, fun col hcol hfree => ?_⟩
  rw [List.getD_eq_getElem?_getD, List.getD_eq_getElem?_getD]
  exact tget_listed (fun k => 16 * (s.mould w.croft.num m).correct (s.croft w.croft.num).theta (resolution w.rows) k ((p.1.final[k]?).getD 0) +
    2 * (s.mould w.croft.num m).correct (s.croft w.croft.num).theta (resolution w.rows) k ((p.2.final[k]?).getD 0)) _ _
    (List.mem_filter.mpr ⟨List.mem_range.mpr hcol, by simpa [State.mould] using hfree⟩)

end Result

/-- The rung's A8 as the statement has it. -/
theorem State.windowRung_a8 (s : State) (w : WindowIn) : (s.windowRung w != .a4) = decide (s.windowRung w ≠ .a4) := by
  cases s.windowRung w <;> rfl

/-! ### Which windows run -/

theorem exec_forwardWindow_bad (s : State) (w : WindowIn) (h : activeOk w.firstRow w.rows = false) :
    exec (.forwardWindow w) s = .fault .noSuchEvent := if_pos h

section Window
variable {s : State} {w : WindowIn} (hok : activeOk w.firstRow w.rows = true)
include hok

theorem exec_forwardWindow_none (h : (s.croft w.croft.num).holding w.mould.val = none) :
    exec (.forwardWindow w) s = .next (s.zeroWindow w.croft.num w.mould.val w.step) := by
  refine (if_neg (by simp [hok])).trans ?_
  rw [h]

theorem exec_forwardWindow_some {m : Nat} (h : (s.croft w.croft.num).holding w.mould.val = some m) :
    exec (.forwardWindow w) s = if (s.croft w.croft.num).stopped then .next s
      else if (s.croft w.croft.num).serves w.mould.val m then .next (s.openWindow w m)
      else .next (s.zeroWindow w.croft.num w.mould.val w.step) := by
  refine (if_neg (by simp [hok])).trans ?_
  rw [h]

theorem exec_forwardWindow_stopped (h : ((s.croft w.croft.num).holding w.mould.val).isSome = true)
    (hstop : (s.croft w.croft.num).stopped = true) : exec (.forwardWindow w) s = .next s := by
  obtain ⟨m, hm⟩ := Option.isSome_iff_exists.mp h
  rw [exec_forwardWindow_some hok hm, if_pos hstop]

theorem exec_forwardWindow_zero (h : (s.croft w.croft.num).holding w.mould.val = none ∨ ((s.croft w.croft.num).stopped = false ∧
      ∀ m, (s.croft w.croft.num).holding w.mould.val = some m → (s.croft w.croft.num).serves w.mould.val m = false)) :
    exec (.forwardWindow w) s = .next (s.zeroWindow w.croft.num w.mould.val w.step) := by
  obtain h | ⟨hstop, h⟩ := h
  · exact exec_forwardWindow_none hok h
  · rcases hm : (s.croft w.croft.num).holding w.mould.val with _ | m
    · exact exec_forwardWindow_none hok hm
    · rw [exec_forwardWindow_some hok hm, if_neg (by simp [hstop]), if_neg (by simp [h m hm])]

theorem exec_forwardWindow_opens {m : Nat} (hm : (s.croft w.croft.num).holding w.mould.val = some m)
    (hstop : (s.croft w.croft.num).stopped = false) (hcast : (s.mould w.croft.num m).state = .cast)
    (hfull : ∀ k, (s.mould w.croft.num m).cast = some k → k.full = false) (hheld : w.mould.val ∉ (s.croft w.croft.num).held) :
    exec (.forwardWindow w) s = .next (s.openWindow w m) := by
  have hserves : (s.croft w.croft.num).serves w.mould.val m = true := by
    have hall : ((s.croft w.croft.num).mould m).cast.all (fun k => !k.full) = true := by
      rcases hc : ((s.croft w.croft.num).mould m).cast with _ | k
      · rfl
      · simp [hfull k hc]
    have hstate : ((s.croft w.croft.num).mould m).state = .cast := hcast
    simp [Croft.serves, hall, hstate, hheld]
  rw [exec_forwardWindow_some hok hm, if_neg (by simp [hstop]), if_pos hserves]

end Window

/-! ### A window of a slot out of service -/

theorem State.zeroWindow_spec (s : State) (n slot step : Nat) : tfind ((s.zeroWindow n slot step).croft n).windows slot = none ∧
    (∀ x, s.findStep step = some x → x.rerun = false → ∀ y, (s.zeroWindow n slot step).findStep step = some y → Cause.suspect ∈ y.marks) ∧
    (∀ x, s.findStep step = some x → x.rerun = true → ∀ y, (s.zeroWindow n slot step).findStep step = some y → y.suspect = true) ∧
    (s.zeroWindow n slot step).tally = s.tally := by
  have hfollow := (State.markSuspect_quiet (s.modCroft n fun c => { c with windows := tdrop c.windows slot }) step n n none).1
  have hcarries := State.markSuspect_carries (s.modCroft n fun c => { c with windows := tdrop c.windows slot }) step n none
  refine ⟨hfollow.gone ?_, fun x hx hr y hy => (hcarries x hx y hy).1 hr, fun x hx hr y hy => (hcarries x hx y hy).2 hr, hfollow.tally⟩
  rw [State.croft_modCroft_self]
  exact tfind_tdrop_self _ _

/-! ### Delivery -/

/-- A croft with a window of it delivered. -/
def Croft.delivers (c : Croft) (slot : Nat) : Croft :=
  match tfind c.windows slot with
  | some w => { c with windows := tset c.windows slot w.deliver }
  | none => c

theorem exec_windowDelivery (s : State) (c : CroftAt) (m : LogMould) :
    exec (.windowDelivery c m) s = .next (s.modCroft c.num fun x => x.delivers m.val) := rfl

theorem Croft.delivers_windows (c : Croft) (slot : Nat) {w : OpenWindow} (h : tfind c.windows slot = some w) :
    (c.delivers slot).windows = tset c.windows slot w.deliver := by
  simp only [Croft.delivers, h]

/-- A column that no stand-in holds keeps its sum. -/
theorem addStood_other (l : List (Nat × Int × Bool)) (t : Table Int) (col : Nat) (h : ∀ e ∈ l, e.1 ≠ col) :
    tget (fun _ => 0) (l.foldl (fun t e => addTo t e.1 e.2.1) t) col = tget (fun _ => 0) t col := by
  induction l generalizing t with
  | nil => rfl
  | cons e l ih =>
    rw [List.foldl_cons, ih _ fun k hk => h k (List.mem_cons_of_mem _ hk), addTo, tget_tput,
      if_neg (Ne.symm (h e List.mem_cons_self))]

/-- A stood-in column takes its value once (R135). -/
theorem addStood_self (l : List (Nat × Int × Bool)) (t : Table Int) (h : (l.map (·.1)).Nodup) (e : Nat × Int × Bool) (he : e ∈ l) :
    tget (fun _ => 0) (l.foldl (fun t e => addTo t e.1 e.2.1) t) e.1 = tget (fun _ => 0) t e.1 + e.2.1 := by
  induction l generalizing t with
  | nil => simp at he
  | cons k l ih =>
    rw [List.map_cons, List.nodup_cons] at h
    obtain ⟨hk, h⟩ := h
    rw [List.foldl_cons]
    obtain rfl | he := List.mem_cons.mp he
    · rw [addStood_other l _ _ fun j hj heq => hk (List.mem_map.mpr ⟨j, hj, heq⟩), addTo, tget_tput, if_pos rfl]
    · have hne : e.1 ≠ k.1 := fun heq => hk (List.mem_map.mpr ⟨e, he, heq⟩)
      rw [ih _ h he, addTo, tget_tput, if_neg hne]

theorem OpenWindow.deliver_keeps (w : OpenWindow) : w.deliver.delivered = true ∧ w.deliver.codes = w.codes ∧ w.deliver.narrow = w.narrow ∧
    (w.delivered = true → w.deliver = w) := by
  unfold OpenWindow.deliver
  split
  next h => exact ⟨h, rfl, rfl, fun _ => rfl⟩
  next h => exact ⟨rfl, rfl, rfl, fun hd => absurd hd h⟩

theorem OpenWindow.deliver_wide (w : OpenWindow) (h : w.delivered = false) :
    w.deliver.wide = w.stood.foldl (fun t e => addTo t e.1 e.2.1) w.wide := by
  rw [OpenWindow.deliver, if_neg (by simp [h])]

/-- Settles O43: a window on a mould in service is its result and what its witnesses decide, any other one is zero, and a delivery adds the
stood-in columns of a window that has not been delivered. -/
theorem forwardWindowsEvaluateAndDeliver : Obligations.ForwardWindowsEvaluateAndDeliver := by
  rintro s w n slot rfl rfl
  refine ⟨exec_forwardWindow_bad s w, ?opens, fun hok h => ⟨_, exec_forwardWindow_zero hok h, s.zeroWindow_spec _ _ _⟩,
    fun hok h hstop => exec_forwardWindow_stopped hok h hstop, ?delivery⟩
  case opens =>
    intro m hok hm hstop hcast hfull hheld codes a8 p leaves hcodes ha8 hp hleaves
    have ha8' : a8 = (s.windowRung w != .a4) := by rw [s.windowRung_a8, ha8, hcodes]; rfl
    have hrun : s.openWindow w m = s.windowDecided w m a8 codes p := by
      rw [s.openWindow_eq, ha8', hp, ha8', hcodes]
    have hleaves' : leaves = s.windowLeaves w a8 p := hleaves
    have hfollow := s.windowDecided_follows w m a8 codes p
    have htally : (s.windowDecided w m a8 codes p).tally = (s.windowRun w m a8 codes p).tally :=
      hfollow.tally.trans (s.windowReady_quiet w m a8 codes p w.croft.num).1.tally
    refine ⟨s.openWindow w m, exec_forwardWindow_opens hok hm hstop hcast hfull hheld, ?_⟩
    rw [hrun]
    refine ⟨fun hl => ?leave, fun hl => ?stay, fun c hc e he => ?codes, ?energy, fun hs => ?stale, ?forward, ?a8⟩
    case leave => exact s.windowDecided_leaves w m a8 codes p hm (hleaves'.symm.trans hl)
    case stay =>
      refine ⟨_, s.windowDecided_stays w m a8 codes p (hleaves'.symm.trans hl), rfl, rfl, rfl, rfl, rfl, ?_, ?_⟩
      · rintro rfl
        exact s.windowResult_narrow w m codes p
      · rintro rfl
        exact s.windowResult_wide w m codes p
    case codes =>
      rw [hp, he, State.windowPasses]
      dsimp only
      rw [passWithRepeat_first, Mould.pass_getD _ _ _ _ _ _ _ _ _ hc]
      rfl
    case energy =>
      rw [htally]
      rfl
    case stale => exact (s.windowReady_stale w m a8 codes p hs).grow hfollow.steps
    case forward =>
      rw [htally]
      rfl
    case a8 =>
      rw [htally]
      rfl
  case delivery =>
    intro win hwin
    have hwindows : ((s.modCroft w.croft.num fun x => x.delivers w.mould.val).croft w.croft.num).windows =
        tset (s.croft w.croft.num).windows w.mould.val win.deliver := by
      rw [State.croft_modCroft_self, Croft.delivers_windows _ _ hwin]
    obtain ⟨hdone, hcodes, hnarrow, hsame⟩ := win.deliver_keeps
    refine ⟨_, win.deliver, exec_windowDelivery s w.croft w.mould, ?_, hdone, hcodes, hnarrow, hsame, fun col hcol => ?_, fun hd hnodup e he => ?_,
      fun k hk => ?_, fun k hk => State.croft_modCroft_ne _ _ hk, rfl⟩
    · rw [hwindows, tfind_tset_self]
    · rcases hd : win.delivered
      · rw [win.deliver_wide hd, addStood_other _ _ _ hcol]
      · rw [hsame hd]
    · rw [win.deliver_wide hd, addStood_self _ _ hnodup e he]
    · rw [hwindows, tfind_tset, if_neg hk]

end Sys2Proof.Machine
end

section
/-!
Wide accumulators (R160 to R163, R183).
-/
namespace Sys2Proof.Machine

/-! ### Rows of a pad -/

/-- The spare that holds a row of a pad in map mode (R208). -/
def Die.padSpare (x : Die) (n : Nat) (ps : Bool) (row : Nat) : Option Nat :=
  [3, 2, 1, 0].find? fun e =>
    tfind x.padMap (padMapKey n (if ps then e + 4 else e)) == some row && !decide ((n, if ps then e + 4 else e) ∈ x.padMapPending)

theorem Die.padRow_plain (x : Die) (n : Nat) (ps : Bool) (row : Nat) (h : x.mapMode = false ∨ x.padMap = []) : x.padRow n ps row = row :=
  if_pos h

theorem Die.padRow_mapped (x : Die) (n : Nat) (ps : Bool) (row : Nat) (h : ¬(x.mapMode = false ∨ x.padMap = [])) :
    x.padRow n ps row = (x.padSpare n ps row).elim row ((if ps then 124 else 252) + ·) := by
  rw [Die.padRow, if_neg h, Die.padSpare]
  split
  next e he => rw [he, Option.elim_some]
  next he => rw [he, Option.elim_none]

theorem Die.padSpare_holds {x : Die} {n row e : Nat} {ps : Bool} (h : x.padSpare n ps row = some e) :
    tfind x.padMap (padMapKey n (if ps then e + 4 else e)) = some row := by
  have := List.find?_some h
  simp only [Bool.and_eq_true, beq_iff_eq] at this
  exact this.1

/-- No two usable rows of a pad are held in one. -/
theorem Die.padRow_inj (x : Die) (n : Nat) (ps : Bool) {a c : Nat} (ha : a < x.padRows ps) (hc : c < x.padRows ps)
    (h : x.padRow n ps a = x.padRow n ps c) : a = c := by
  by_cases hp : x.mapMode = false ∨ x.padMap = []
  · rwa [x.padRow_plain n ps a hp, x.padRow_plain n ps c hp] at h
  · have hmode : x.mapMode = true := by
      rw [not_or] at hp
      simpa using hp.1
    have hrows : x.padRows ps = if ps then 124 else 252 := if_pos hmode
    rw [x.padRow_mapped n ps a hp, x.padRow_mapped n ps c hp] at h
    rw [hrows] at ha hc
    rcases hsa : x.padSpare n ps a with _ | e <;> rcases hsc : x.padSpare n ps c with _ | e' <;>
      simp only [hsa, hsc, Option.elim_some, Option.elim_none] at h
    · exact h
    · omega
    · omega
    · have heq : e = e' := by omega
      have hfa := Die.padSpare_holds hsa
      rw [heq, Die.padSpare_holds hsc] at hfa
      exact (Option.some.inj hfa).symm

/-- Two usable addresses that a row holds apart lie apart by as much. -/
theorem Die.padAt_inj (x : Die) (n : Nat) (ps : Bool) {a c : Nat} (ha : x.padHas ps a = true) (hc : x.padHas ps c = true)
    (h : x.padAt n ps a = x.padAt n ps c) : a = c := by
  unfold Die.padAt at h
  have hrow : x.padRow n ps (a / 512) = x.padRow n ps (c / 512) := by omega
  have := x.padRow_inj n ps (of_decide_eq_true ha) (of_decide_eq_true hc) hrow
  omega

/-! ### Numbers in memory -/

theorem leNat_leBytes (n v : Nat) : leNat (leBytes n v) = v % 256 ^ n := by
  induction n generalizing v with
  | zero => simp [leBytes, leNat, Nat.mod_one]
  | succ n ih =>
    rw [leBytes, leNat, ih, BitVec.toNat_ofNat, show 256 ^ (n + 1) = 256 * 256 ^ n from Nat.pow_succ', Nat.mod_mul]

theorem Memory.getLe_setLe (m : Memory) (a n v : Nat) : (m.setLe a n v).getLe a n = v % 256 ^ n := by
  have h := m.getBytes_setBytes a (leBytes n v)
  rw [leBytes_length] at h
  rw [Memory.getLe, Memory.setLe, h, leNat_leBytes]

theorem Memory.getLe_setLe_out (m : Memory) (a b n v : Nat) (h : b + n ≤ a ∨ a + n ≤ b) : (m.setLe a n v).getLe b n = m.getLe b n := by
  refine congrArg leNat (List.map_congr_left fun i hi => ?_)
  have hi := List.mem_range.mp hi
  exact Memory.get_setBytes_out m a (b + i) _ (by rw [leBytes_length]; omega)

/-- A number within a half of the range reads back with its sign. -/
theorem toSigned_ofSigned (v : Int) (hlo : -(2 ^ 31) ≤ v) (hhi : v < 2 ^ 31) : toSigned 32 (ofSigned 32 v % 256 ^ 4) = v := by
  unfold toSigned ofSigned
  split <;> omega

theorem clampSym_bounds (v : Int) : -(2 ^ 31 - 1) ≤ clampSym (2 ^ 31 - 1) v ∧ clampSym (2 ^ 31 - 1) v ≤ 2 ^ 31 - 1 := by
  unfold clampSym
  omega

/-! ### Accumulators -/

/-- From `s` to `t` croft `n` is `f` of what it was, and nothing else has moved. -/
structure OnCroft (s t : State) (n : Nat) (x : Croft) : Prop where
  frame : t = { s with crofts := t.crofts }
  self : t.croft n = x
  others : ∀ k, k ≠ n → t.croft k = s.croft k

theorem OnCroft.refl (s : State) (n : Nat) : OnCroft s s n (s.croft n) := ⟨rfl, rfl, fun _ _ => rfl⟩

theorem OnCroft.modCroft {s t : State} {n : Nat} {x : Croft} (h : OnCroft s t n x) (f : Croft → Croft) : OnCroft s (t.modCroft n f) n (f x) where
  frame := by rw [State.modCroft, State.setCroft, h.frame]
  self := by rw [State.croft_modCroft_self, h.self]
  others k hk := (State.croft_modCroft_ne _ _ hk).trans (h.others k hk)

/-- From `s` to `t` only partial-sum pads and the marks of their accumulators have moved. -/
structure SumsMoved (s t : State) : Prop where
  frame : t = { s with crofts := t.crofts }
  crofts : ∀ k, t.croft k = { s.croft k with psPad := (t.croft k).psPad, psBad := (t.croft k).psBad, satMarks := (t.croft k).satMarks }

theorem SumsMoved.refl (s : State) : SumsMoved s s := ⟨rfl, fun _ => rfl⟩

theorem SumsMoved.trans {s t u : State} (a : SumsMoved s t) (b : SumsMoved t u) : SumsMoved s u where
  frame := by rw [b.frame, a.frame]
  crofts k := by rw [b.crofts k, a.crofts k]

theorem SumsMoved.die {s t : State} (h : SumsMoved s t) (d : Nat) : t.die d = s.die d := by
  rw [State.die, h.frame, State.die]

theorem SumsMoved.hasAcc {s t : State} (h : SumsMoved s t) (n a : Nat) : t.hasAcc n a = s.hasAcc n a := by
  rw [State.hasAcc, h.die, State.hasAcc]

theorem SumsMoved.accAddr {s t : State} (h : SumsMoved s t) (n a : Nat) : t.accAddr n a = s.accAddr n a := by
  rw [State.accAddr, h.die, State.accAddr]

/-- A croft with an accumulator added to. -/
def Croft.accAdded (c : Croft) (at_ a : Nat) (sum : Int) (mark : Bool) : Croft :=
  { c with
    psPad := c.psPad.setLe at_ 4 (ofSigned 32 (clampSym (2 ^ 31 - 1) sum)), psBad := c.psBad.filter fun w => w != at_ / 8
    satMarks := if (mark || clampSym (2 ^ 31 - 1) sum != sum) && !decide (a ∈ c.satMarks) then c.satMarks ++ [a] else c.satMarks }

theorem State.accAdd_has (s : State) (n a : Nat) (v : Int) (mark : Bool) (h : s.hasAcc n a = true) :
    s.accAdd n a v mark = s.modCroft n fun c => c.accAdded (s.accAddr n a) a (s.acc n a + v) mark :=
  if_neg (by simp [h])

theorem State.accAdd_none (s : State) (n a : Nat) (v : Int) (mark : Bool) (h : s.hasAcc n a = false) : s.accAdd n a v mark = s := if_pos h

/-- A croft with an accumulator started again. -/
def Croft.accCleared (c : Croft) (at_ a : Nat) : Croft :=
  { c with psPad := c.psPad.setLe at_ 4 0, satMarks := c.satMarks.filter fun b => b != a }

theorem State.accClear_has (s : State) (n a : Nat) (h : s.hasAcc n a = true) :
    s.accClear n a = s.modCroft n fun c => c.accCleared (s.accAddr n a) a :=
  if_neg (by simp [h])

theorem State.accClear_none (s : State) (n a : Nat) (h : s.hasAcc n a = false) : s.accClear n a = s := if_pos h

theorem State.modCroft_sums (s : State) (n : Nat) (f : Croft → Croft)
    (hf : ∀ c, f c = { c with psPad := (f c).psPad, psBad := (f c).psBad, satMarks := (f c).satMarks }) : SumsMoved s (s.modCroft n f) := by
  refine ⟨rfl, fun k => ?_⟩
  by_cases h : k = n
  · subst h
    rw [State.croft_modCroft_self]
    exact hf _
  · rw [State.croft_modCroft_ne _ _ h]

theorem State.accAdd_sums (s : State) (n a : Nat) (v : Int) (mark : Bool) : SumsMoved s (s.accAdd n a v mark) := by
  rcases h : s.hasAcc n a
  · rw [s.accAdd_none n a v mark h]
    exact .refl s
  · rw [s.accAdd_has n a v mark h]
    exact s.modCroft_sums n _ fun _ => rfl

theorem State.accClear_sums (s : State) (n a : Nat) : SumsMoved s (s.accClear n a) := by
  rcases h : s.hasAcc n a
  · rw [s.accClear_none n a h]
    exact .refl s
  · rw [s.accClear_has n a h]
    exact s.modCroft_sums n _ fun _ => rfl

theorem State.accAdd_croft_ne (s : State) {n k : Nat} (a : Nat) (v : Int) (mark : Bool) (h : k ≠ n) : (s.accAdd n a v mark).croft k = s.croft k := by
  rcases hacc : s.hasAcc n a
  · rw [s.accAdd_none n a v mark hacc]
  · rw [s.accAdd_has n a v mark hacc, State.croft_modCroft_ne _ _ h]

theorem State.accClear_croft_ne (s : State) {n k : Nat} (a : Nat) (h : k ≠ n) : (s.accClear n a).croft k = s.croft k := by
  rcases hacc : s.hasAcc n a
  · rw [s.accClear_none n a hacc]
  · rw [s.accClear_has n a hacc, State.croft_modCroft_ne _ _ h]

/-- No two accumulators share a byte. -/
theorem State.accAddr_apart (s : State) (n : Nat) {a b : Nat} (ha : s.hasAcc n a = true) (hb : s.hasAcc n b = true) (h : b ≠ a) :
    s.accAddr n b + 4 ≤ s.accAddr n a ∨ s.accAddr n a + 4 ≤ s.accAddr n b := by
  have hinj := (s.die (croftDie n)).padRow_inj n true (of_decide_eq_true ha) (of_decide_eq_true hb)
  unfold State.accAddr Die.padAt
  by_cases hrow : (s.die (croftDie n)).padRow n true (4 * a / 512) = (s.die (croftDie n)).padRow n true (4 * b / 512)
  · have := hinj hrow
    omega
  · omega

theorem State.acc_of_pad {s t : State} (h : SumsMoved s t) (n a : Nat) :
    t.acc n a = toSigned 32 ((t.croft n).psPad.getLe (s.accAddr n a) 4) := by
  rw [State.acc, h.accAddr]

/-- An addition reads back in its accumulator, held within its bounds (R162). -/
theorem State.acc_accAdd_self (s : State) (n a : Nat) (v : Int) (mark : Bool) (h : s.hasAcc n a = true) :
    (s.accAdd n a v mark).acc n a = clampSym (2 ^ 31 - 1) (s.acc n a + v) := by
  obtain ⟨hlo, hhi⟩ := clampSym_bounds (s.acc n a + v)
  rw [State.acc_of_pad (s.accAdd_sums n a v mark), s.accAdd_has n a v mark h, State.croft_modCroft_self, Croft.accAdded, Memory.getLe_setLe]
  exact toSigned_ofSigned _ (by omega) (by omega)

/-- An addition leaves every other accumulator. -/
theorem State.acc_accAdd_other (s : State) (n a : Nat) (v : Int) (mark : Bool) (k b : Nat) (hb : s.hasAcc k b = true) (h : ¬(k = n ∧ b = a)) :
    (s.accAdd n a v mark).acc k b = s.acc k b := by
  rcases hacc : s.hasAcc n a
  · rw [s.accAdd_none n a v mark hacc]
  · rw [State.acc_of_pad (s.accAdd_sums n a v mark), s.accAdd_has n a v mark hacc]
    by_cases hk : k = n
    · subst hk
      rw [State.croft_modCroft_self, Croft.accAdded, Memory.getLe_setLe_out _ _ _ _ _ (s.accAddr_apart k hacc hb fun he => h ⟨rfl, he⟩), State.acc]
    · rw [State.croft_modCroft_ne _ _ hk, State.acc]

theorem State.acc_accClear_self (s : State) (n a : Nat) (h : s.hasAcc n a = true) :
    (s.accClear n a).acc n a = 0 ∧ a ∉ ((s.accClear n a).croft n).satMarks := by
  rw [State.acc_of_pad (s.accClear_sums n a), s.accClear_has n a h, State.croft_modCroft_self, Croft.accCleared, Memory.getLe_setLe]
  exact ⟨rfl, by simp⟩

theorem State.acc_accClear_other (s : State) (n a k b : Nat) (hb : s.hasAcc k b = true) (h : ¬(k = n ∧ b = a)) :
    (s.accClear n a).acc k b = s.acc k b := by
  rcases hacc : s.hasAcc n a
  · rw [s.accClear_none n a hacc]
  · rw [State.acc_of_pad (s.accClear_sums n a), s.accClear_has n a hacc]
    by_cases hk : k = n
    · subst hk
      rw [State.croft_modCroft_self, Croft.accCleared, Memory.getLe_setLe_out _ _ _ _ _ (s.accAddr_apart k hacc hb fun he => h ⟨rfl, he⟩), State.acc]
    · rw [State.croft_modCroft_ne _ _ hk, State.acc]

/-- An addition that carries a mark leaves its accumulator marked (R163). -/
theorem State.satMarks_accAdd (s : State) (n a : Nat) (v : Int) (h : s.hasAcc n a = true) : a ∈ ((s.accAdd n a v true).croft n).satMarks := by
  rw [s.accAdd_has n a v true h, State.croft_modCroft_self, Croft.accAdded]
  dsimp only
  split
  next => exact List.mem_append_right _ (List.mem_singleton.mpr rfl)
  next hno =>
    by_contra hmem
    simp [hmem] at hno

theorem State.satMarks_accClear_other (s : State) (n a k b : Nat) (hb : b ∈ (s.croft k).satMarks) (h : ¬(k = n ∧ b = a)) :
    b ∈ ((s.accClear n a).croft k).satMarks := by
  rcases hacc : s.hasAcc n a
  · rwa [s.accClear_none n a hacc]
  · rw [s.accClear_has n a hacc]
    by_cases hk : k = n
    · subst hk
      rw [State.croft_modCroft_self, Croft.accCleared]
      exact List.mem_filter.mpr ⟨hb, by simpa using fun he => h ⟨rfl, he⟩⟩
    · rwa [State.croft_modCroft_ne _ _ hk]

/-! ### A run of additions -/

/-- A run enters the accumulators from `a` on. -/
def State.runAdded (s : State) (n a : Nat) (f : Nat → RunSum) (len : Nat) : State :=
  (List.range len).foldl (fun (t : State) i =>
    if (f i).total + (f i).joins = 0 ∧ (f i).mark = false then t else t.accAdd n (a + i) ((f i).total + (f i).joins) (f i).mark) s

theorem State.runAdded_succ (s : State) (n a : Nat) (f : Nat → RunSum) (len : Nat) : s.runAdded n a f (len + 1) =
    if (f len).total + (f len).joins = 0 ∧ (f len).mark = false then s.runAdded n a f len
    else (s.runAdded n a f len).accAdd n (a + len) ((f len).total + (f len).joins) (f len).mark := by
  simp only [State.runAdded, List.range_succ, List.foldl_append, List.foldl_cons, List.foldl_nil]

theorem State.runAdded_sums (s : State) (n a : Nat) (f : Nat → RunSum) (len : Nat) : SumsMoved s (s.runAdded n a f len) := by
  induction len with
  | zero => exact .refl s
  | succ len ih =>
    rw [s.runAdded_succ]
    split
    next => exact ih
    next => exact ih.trans (State.accAdd_sums _ _ _ _ _)

theorem State.runAdded_croft_ne (s : State) {n k : Nat} (a : Nat) (f : Nat → RunSum) (len : Nat) (h : k ≠ n) :
    (s.runAdded n a f len).croft k = s.croft k := by
  induction len with
  | zero => rfl
  | succ len ih =>
    rw [s.runAdded_succ]
    split
    next => exact ih
    next => exact (State.accAdd_croft_ne _ _ _ _ h).trans ih

theorem State.runAdded_idle (s : State) (n a : Nat) (f : Nat → RunSum) (len : Nat)
    (h : ∀ i < len, (f i).total + (f i).joins = 0 ∧ (f i).mark = false) : s.runAdded n a f len = s := by
  induction len with
  | zero => rfl
  | succ len ih => rw [s.runAdded_succ, if_pos (h len (Nat.lt_succ_self _)), ih fun i hi => h i (by omega)]

/-- What a run of additions leaves in an accumulator. -/
theorem State.acc_runAdded (s : State) (n a : Nat) (f : Nat → RunSum) (len b : Nat) (hb : s.hasAcc n b = true) :
    (s.runAdded n a f len).acc n b =
      if a ≤ b ∧ b < a + len ∧ ¬((f (b - a)).total + (f (b - a)).joins = 0 ∧ (f (b - a)).mark = false) then
        clampSym (2 ^ 31 - 1) (s.acc n b + ((f (b - a)).total + (f (b - a)).joins))
      else s.acc n b := by
  induction len with
  | zero =>
    rw [if_neg (by omega)]
    rfl
  | succ len ih =>
    have hhas := (s.runAdded_sums n a f len).hasAcc n b
    rw [s.runAdded_succ]
    by_cases hlast : b = a + len
    · have hbefore : (s.runAdded n a f len).acc n b = s.acc n b := by
        rw [ih, if_neg (by omega)]
      subst hlast
      rw [Nat.add_sub_cancel_left]
      split
      next hskip => rw [if_neg fun h => h.2.2 hskip, hbefore]
      next hno => rw [if_pos ⟨by omega, by omega, hno⟩, State.acc_accAdd_self _ _ _ _ _ (hhas.trans hb), hbefore]
    · have hiff : (a ≤ b ∧ b < a + (len + 1) ∧ ¬((f (b - a)).total + (f (b - a)).joins = 0 ∧ (f (b - a)).mark = false)) =
          (a ≤ b ∧ b < a + len ∧ ¬((f (b - a)).total + (f (b - a)).joins = 0 ∧ (f (b - a)).mark = false)) := by
        rw [eq_iff_iff]
        constructor
        · rintro ⟨h1, h2, h3⟩
          exact ⟨h1, by omega, h3⟩
        · rintro ⟨h1, h2, h3⟩
          exact ⟨h1, by omega, h3⟩
      simp only [hiff]
      rw [← ih]
      split
      next => rfl
      next => exact State.acc_accAdd_other _ _ _ _ _ _ _ (hhas.trans hb) fun h => hlast h.2

end Sys2Proof.Machine
end

section
/-!
What a promotion reads: states that differ in the windows and spans of their crofts (R155 to R177).
-/
namespace Sys2Proof.Machine

/-- States whose crofts differ at most in their windows, their row results and the spans of their accumulators. -/
structure Alike (s t : State) : Prop where
  dies : t.dies = s.dies
  serve : t.serve = s.serve
  crofts : ∀ k, t.croft k =
    { s.croft k with windows := (t.croft k).windows, rowResults := (t.croft k).rowResults, accSpans := (t.croft k).accSpans }

namespace Alike
variable {s t : State}

theorem refl (s : State) : Alike s s := ⟨rfl, rfl, fun _ => rfl⟩

theorem trans {u : State} (a : Alike s t) (b : Alike t u) : Alike s u where
  dies := b.dies.trans a.dies
  serve := b.serve.trans a.serve
  crofts k := by rw [b.crofts k, a.crofts k]

theorem modCroft (n : Nat) (f : Croft → Croft)
    (hf : ∀ c, f c = { c with windows := (f c).windows, rowResults := (f c).rowResults, accSpans := (f c).accSpans }) :
    Alike s (s.modCroft n f) := by
  refine ⟨rfl, rfl, fun k => ?_⟩
  by_cases h : k = n
  · subst h
    rw [State.croft_modCroft_self]
    exact hf _
  · rw [State.croft_modCroft_ne _ _ h]

theorem of_same (hdies : t.dies = s.dies) (hserve : t.serve = s.serve) (hcroft : ∀ k, t.croft k = s.croft k) : Alike s t :=
  ⟨hdies, hserve, fun k => by rw [hcroft k]⟩

variable (h : Alike s t)
include h

theorem die (d : Nat) : t.die d = s.die d := by rw [State.die, h.dies, State.die]
theorem psPad (k : Nat) : (t.croft k).psPad = (s.croft k).psPad := by rw [h.crofts k]
theorem actPad (k : Nat) : (t.croft k).actPad = (s.croft k).actPad := by rw [h.crofts k]
theorem store (k : Nat) : (t.croft k).store = (s.croft k).store := by rw [h.crofts k]
theorem sigmas (k : Nat) : (t.croft k).sigmas = (s.croft k).sigmas := by rw [h.crofts k]
theorem outputs (k : Nat) : (t.croft k).outputs = (s.croft k).outputs := by rw [h.crofts k]
theorem spareColumn (k : Nat) : (t.croft k).spareColumn = (s.croft k).spareColumn := by rw [h.crofts k]
theorem serviceOf (k : Nat) : (t.croft k).service = (s.croft k).service := by rw [h.crofts k]
theorem satMarks (k : Nat) : (t.croft k).satMarks = (s.croft k).satMarks := by rw [h.crofts k]

theorem hasAcc (n a : Nat) : t.hasAcc n a = s.hasAcc n a := by rw [State.hasAcc, h.die, State.hasAcc]

theorem accAddr (n a : Nat) : t.accAddr n a = s.accAddr n a := by rw [State.accAddr, h.die, State.accAddr]

theorem acc (n a : Nat) : t.acc n a = s.acc n a := by rw [State.acc, h.psPad, h.accAddr, State.acc]

theorem sigmaOf (n row : Nat) : (t.croft n).sigmaOf row = (s.croft n).sigmaOf row := by rw [Croft.sigmaOf, h.sigmas, Croft.sigmaOf]

theorem output (n i : Nat) : (t.croft n).output i = (s.croft n).output i := by rw [Croft.output, h.outputs, Croft.output]

theorem weight8 (n a : Nat) : (t.croft n).weight8 a = (s.croft n).weight8 a := by rw [Croft.weight8, h.store, Croft.weight8]

theorem actCode (n a : Nat) : t.actCode n a = s.actCode n a := by
  rw [State.actCode, State.actByte, h.die, h.actPad, State.actCode, State.actByte]

theorem product (n : Nat) (e : D8Term) : t.product n e = s.product n e := by rw [State.product, h.actCode, h.weight8, State.product]

theorem columnOf (n : Nat) : t.columnOf n = s.columnOf n := by rw [State.columnOf, h.spareColumn, State.columnOf]

theorem hotRows (n slot : Nat) : t.hotRows n slot = s.hotRows n slot := by
  unfold State.hotRows
  rw [h.die, h.columnOf]

theorem omegaOf (n : Nat) (p : PromotionIn) (e : Nat × BitVec 16) : t.omegaOf n p e = s.omegaOf n p e := by
  unfold State.omegaOf
  rw [h.die, h.columnOf]

theorem plannedScale (n : Nat) (g : StageIn) : t.plannedScale n g = s.plannedScale n g := by
  unfold State.plannedScale
  rw [h.die, h.columnOf]

theorem physOf (d r j : Nat) : t.physOf d r j = s.physOf d r j := by
  have hheld (m : Nat) : t.holdsColumn m j = s.holdsColumn m j := by
    rw [State.holdsColumn, h.spareColumn, State.service_congr (h.serviceOf m), State.holdsColumn]
  simp only [State.physOf, hheld]

/-- The scale of a fixed staging, as the pattern or the command sets it. -/
theorem stageSigma_fixed (n : Nat) (v : BitVec 16) (first count row : Nat) :
    t.stageSigma n ⟨.fixed v, first, count, row⟩ = s.stageSigma n ⟨.fixed v, first, count, row⟩ := by
  unfold State.stageSigma
  rw [h.plannedScale]
  cases s.plannedScale n ⟨.fixed v, first, count, row⟩ with
  | none => rfl
  | some plan =>
    cases plan with
    | fixed w => rfl
    | reduced k parts =>
      dsimp only
      simp only [h.physOf, h.output]

theorem temperRuns (x : Nat) : t.temperRuns x = s.temperRuns x := by rw [State.temperRuns, h.serve, State.temperRuns]

end Alike

/-! ### The parts of a promotion -/

theorem State.spend_zero (s : State) : s.spend 0 = s := rfl

theorem State.addProducts_nil (s : State) (n a : Nat) : s.addProducts n a [] = s := s.spend_zero

/-- A span noted for the accumulators from `a` on. -/
def State.spanNoted (s : State) (n a v : Nat) : State := s.modCroft n fun c => { c with accSpans := tset c.accSpans a v }

theorem State.noteSpan_some {s : State} {n : Nat} {p : PromotionIn} {v : Nat} (h : s.runSpan n p = some v) :
    s.noteSpan n p = s.spanNoted n p.acc v := by
  simp only [State.noteSpan, h]
  rfl

theorem State.noteSpan_none {s : State} {n : Nat} {p : PromotionIn} (h : s.runSpan n p = none) : s.noteSpan n p = s := by
  simp only [State.noteSpan, h]

theorem State.spanNoted_alike (s : State) (n a v : Nat) : Alike s (s.spanNoted n a v) := .modCroft n _ fun _ => rfl

/-- What a run adds to its outputs. -/
def State.runSums (s : State) (n : Nat) (p : PromotionIn) (i : Nat) : RunSum :=
  if p.transposed then rowSum ((s.croft n).runRows p.run) i else s.runColumn n ((s.croft n).runWindows p.run) i

/-- A croft whose run has been used up. -/
def Croft.runUsed (c : Croft) (p : PromotionIn) (ws : List (Nat × OpenWindow)) : Croft :=
  if p.transposed then { c with rowResults := p.run.foldl (fun t k => tdrop t k.val) c.rowResults }
  else { c with windows := ws.foldl (fun t e => tdrop t e.1) c.windows }

theorem State.promoteRun_eq (s : State) (n : Nat) (p : PromotionIn) :
    s.promoteRun n p = (s.runAdded n p.acc (s.runSums n p) (if p.transposed then 1024 else 256)).modCroft n fun c =>
      c.runUsed p ((s.croft n).runWindows p.run) := rfl

theorem State.runUsed_alike (s : State) (n : Nat) (p : PromotionIn) (ws : List (Nat × OpenWindow)) :
    Alike s (s.modCroft n fun c => c.runUsed p ws) := by
  refine .modCroft n _ fun c => ?_
  unfold Croft.runUsed
  split <;> rfl

/-- A run of no mould leaves every croft. -/
theorem State.promoteRun_empty (s : State) (n : Nat) (p : PromotionIn) (h : p.run = []) :
    (s.promoteRun n p) = { s with crofts := (s.promoteRun n p).crofts } ∧ ∀ k, (s.promoteRun n p).croft k = s.croft k := by
  have hsums (i : Nat) : (s.runSums n p i).total + (s.runSums n p i).joins = 0 ∧ (s.runSums n p i).mark = false := by
    unfold State.runSums
    rw [h]
    split <;> exact ⟨rfl, rfl⟩
  rw [s.promoteRun_eq, State.runAdded_idle _ _ _ _ _ fun i _ => hsums i]
  refine ⟨rfl, fun k => ?_⟩
  by_cases hk : k = n
  · subst hk
    rw [State.croft_modCroft_self, Croft.runUsed, h]
    split <;> rfl
  · exact State.croft_modCroft_ne _ _ hk

end Sys2Proof.Machine
end

section
/-!
Promotions of runs, partial sums and products (R155, R157, R160, R161, R170, R171, R176).
-/
namespace Sys2Proof.Machine

/-- From `s` to `t` only crofts have moved. -/
def CroftsOnly (s t : State) : Prop := t = { s with crofts := t.crofts }

theorem CroftsOnly.refl (s : State) : CroftsOnly s s := rfl

theorem CroftsOnly.trans {s t u : State} (a : CroftsOnly s t) (b : CroftsOnly t u) : CroftsOnly s u := by
  unfold CroftsOnly at *
  rw [b, a]

theorem State.modCroft_only (s : State) (n : Nat) (f : Croft → Croft) : CroftsOnly s (s.modCroft n f) := rfl

/-- What a promotion leaves before it embeds, rescales or adds gradients. -/
def State.summed (s : State) (p : PromotionIn) : State :=
  (((s.noteSpan p.croft.num p).promoteRun p.croft.num p).addPartials p.croft.num p.acc p.partials).addProducts p.croft.num p.acc p.d8

/-- What follows the sums of a promotion. -/
def State.outputsOf (s : State) (p : PromotionIn) : State :=
  let s2 := match p.embed with
    | some e => s.embed p.croft.num p.acc e
    | none => s
  let s3 := match p.rescale with
    | some r => s2.rescale p.croft.num p r
    | none => s2
  match p.gradient with
    | some g => s3.addGradients p.croft.num g
    | none => s3

theorem exec_runPromotion (s : State) (p : PromotionIn)
    (h : p.transposed = true → oneSpan (((s.croft p.croft.num).runRows p.run).map (·.span)) = true) :
    exec (.runPromotion p) s = .next ((s.summed p).outputsOf p) := by
  refine if_neg ?_
  rw [Bool.and_eq_true, Bool.not_eq_true']
  rintro ⟨ht, hspan⟩
  rw [h ht] at hspan
  cases hspan

theorem exec_runPromotion_spans (s : State) (p : PromotionIn) (ht : p.transposed = true)
    (h : oneSpan (((s.croft p.croft.num).runRows p.run).map (·.span)) = false) : exec (.runPromotion p) s = .fault .noSuchEvent :=
  if_pos (by rw [ht, h]; rfl)

/-- A promotion of results alone. -/
def runOf (c : CroftAt) (run : List LogMould) (tr : Bool) (a sp : Nat) : PromotionIn := ⟨c, run, tr, a, sp, [], [], none, none, none⟩

theorem State.summed_run (s : State) (c : CroftAt) (run : List LogMould) (tr : Bool) (a sp : Nat) :
    (s.summed (runOf c run tr a sp)).outputsOf (runOf c run tr a sp) =
      (s.noteSpan c.num (runOf c run tr a sp)).promoteRun c.num (runOf c run tr a sp) :=
  State.addProducts_nil _ _ _

/-- What a run of sums leaves, with its span noted. -/
theorem State.promoteRun_spec (s : State) (c : CroftAt) (run : List LogMould) (tr : Bool) (a sp v : Nat)
    (hspan : s.runSpan c.num (runOf c run tr a sp) = some v) (f : Nat → RunSum)
    (hf : ∀ i, (s.spanNoted c.num a v).runSums c.num (runOf c run tr a sp) i = f i) :
    ∃ t, s.noteSpan c.num (runOf c run tr a sp) = s.spanNoted c.num a v ∧
      t = (s.spanNoted c.num a v).promoteRun c.num (runOf c run tr a sp) ∧
      (∀ b, s.hasAcc c.num b = true → t.acc c.num b =
        if a ≤ b ∧ b < a + (if tr then 1024 else 256) ∧ ¬((f (b - a)).total + (f (b - a)).joins = 0 ∧ (f (b - a)).mark = false) then
          clampSym (2 ^ 31 - 1) (s.acc c.num b + ((f (b - a)).total + (f (b - a)).joins))
        else s.acc c.num b) ∧
      tfind (t.croft c.num).accSpans a = some v ∧ (∀ k, k ≠ c.num → t.croft k = s.croft k) ∧ t = { s with crofts := t.crofts } := by
  have hnote := s.spanNoted_alike c.num a v
  have hsums := (s.spanNoted c.num a v).runAdded_sums c.num a ((s.spanNoted c.num a v).runSums c.num (runOf c run tr a sp))
    (if tr then 1024 else 256)
  have hused := State.runUsed_alike ((s.spanNoted c.num a v).runAdded c.num a
    ((s.spanNoted c.num a v).runSums c.num (runOf c run tr a sp)) (if tr then 1024 else 256)) c.num (runOf c run tr a sp)
    (((s.spanNoted c.num a v).croft c.num).runWindows run)
  have hacc := (s.spanNoted c.num a v).acc_runAdded c.num a ((s.spanNoted c.num a v).runSums c.num (runOf c run tr a sp))
    (if tr then 1024 else 256)
  refine ⟨_, State.noteSpan_some hspan, rfl, fun b hb => ?acc, ?spans, fun k hk => ?others, ?frame⟩
  case acc =>
    rw [State.promoteRun_eq]
    refine (hused.acc c.num b).trans ((hacc b ((hnote.hasAcc c.num b).trans hb)).trans ?_)
    rw [hf, hnote.acc]
  case spans =>
    rw [State.promoteRun_eq, State.croft_modCroft_self]
    have hkeep : ∀ x : Croft, (x.runUsed (runOf c run tr a sp) (((s.spanNoted c.num a v).croft c.num).runWindows run)).accSpans = x.accSpans := by
      intro x
      unfold Croft.runUsed
      split <;> rfl
    refine (congrArg (tfind · a) ((hkeep _).trans (congrArg Croft.accSpans (hsums.crofts c.num)))).trans ?_
    rw [State.spanNoted, State.croft_modCroft_self]
    exact tfind_tset_self _ _ _
  case others =>
    rw [State.promoteRun_eq, State.croft_modCroft_ne _ _ hk]
    exact (State.runAdded_croft_ne _ _ _ _ hk).trans (State.croft_modCroft_ne _ _ hk)
  case frame =>
    rw [State.promoteRun_eq]
    exact ((s.modCroft_only _ _).trans hsums.frame).trans (State.modCroft_only _ _ _)

/-! ### Runs -/

theorem Croft.runWindows_one {c : Croft} {slot : LogMould} {win : OpenWindow} (h : tfind c.windows slot.val = some win)
    (hd : win.delivered = true) : c.runWindows [slot] = [(slot.val, win)] := by
  simp only [Croft.runWindows, List.filterMap_cons, h, hd, List.filterMap_nil, if_true]

theorem Croft.runRows_one {c : Croft} {slot : LogMould} {r : RowResult} (h : tfind c.rowResults slot.val = some r) :
    c.runRows [slot] = [r] := by
  simp only [Croft.runRows, List.filterMap_cons, h, List.filterMap_nil]

theorem Croft.runUsed_windows (c : Croft) (p : PromotionIn) (ws : List (Nat × OpenWindow)) (h : p.transposed = false) :
    (c.runUsed p ws).windows = ws.foldl (fun t e => tdrop t e.1) c.windows := by
  rw [Croft.runUsed, if_neg (by simp [h])]

theorem Croft.runUsed_slot (x : Croft) (c : CroftAt) (slot : LogMould) (a sp : Nat) (ws : List (Nat × OpenWindow)) :
    (x.runUsed (runOf c [slot] true a sp) ws).rowResults = tdrop x.rowResults slot.val := rfl

/-- The run of one delivered window enters its column sums (R159, R160). -/
theorem promotes_window (s : State) (c : CroftAt) (slot : LogMould) (a sp : Nat) (win : OpenWindow)
    (hwin : tfind (s.croft c.num).windows slot.val = some win) (hd : win.delivered = true) :
    ∃ t, exec (.runPromotion (runOf c [slot] false a sp)) s = .next t ∧
      (∀ col < 256, s.hasAcc c.num (a + col) = true → ∀ v, v = tget (fun _ => 0) win.narrow col + tget (fun _ => 0) win.wide col +
          (if win.a8 then 0 else riserTerm (s.croft c.num).store (s.hotRows c.num slot.val) win.span (residuals win.codes) col) →
        (v ≠ 0 ∨ col ∈ win.marks) → t.acc c.num (a + col) = clampSym (2 ^ 31 - 1) (s.acc c.num (a + col) + v)) ∧
      (∀ col, 256 ≤ col → s.hasAcc c.num (a + col) = true → t.acc c.num (a + col) = s.acc c.num (a + col)) ∧
      tfind (t.croft c.num).accSpans a = some win.span ∧
      tfind (t.croft c.num).windows slot.val = none ∧ (∀ k, k ≠ c.num → t.croft k = s.croft k) ∧ t = { s with crofts := t.crofts } := by
  have hnote := s.spanNoted_alike c.num a win.span
  have hws : ((s.spanNoted c.num a win.span).croft c.num).runWindows [slot] = [(slot.val, win)] := by
    refine Croft.runWindows_one ?_ hd
    rw [State.spanNoted, State.croft_modCroft_self]
    exact hwin
  have hspan : s.runSpan c.num (runOf c [slot] false a sp) = some win.span := by
    have := Croft.runWindows_one hwin hd
    simp [State.runSpan, runOf, this]
  have hsums (i : Nat) : (s.spanNoted c.num a win.span).runSums c.num (runOf c [slot] false a sp) i =
      s.runColumn c.num [(slot.val, win)] i := by
    have hrun : (s.spanNoted c.num a win.span).runSums c.num (runOf c [slot] false a sp) i =
        (s.spanNoted c.num a win.span).runColumn c.num (((s.spanNoted c.num a win.span).croft c.num).runWindows [slot]) i := if_neg (by simp [runOf])
    rw [hrun, hws]
    simp only [State.runColumn, List.foldl_cons, List.foldl_nil, hnote.hotRows, hnote.store]
  obtain ⟨t, hspanned, ht, hacc, hspans, hothers, hframe⟩ := s.promoteRun_spec c [slot] false a sp win.span hspan _ hsums
  refine ⟨t, ?exec, fun col hcol hhas v hv hne => ?sum, fun col hcol hhas => ?rest, hspans, ?used, hothers, hframe⟩
  case exec =>
    rw [exec_runPromotion _ _ (fun h => by cases h), State.summed_run, hspanned, ht]
  case sum =>
    have hval : (s.runColumn c.num [(slot.val, win)] col).total + (s.runColumn c.num [(slot.val, win)] col).joins = v := by
      rw [hv]
      simp only [State.runColumn, List.foldl_cons, List.foldl_nil]
      omega
    have hmark : (s.runColumn c.num [(slot.val, win)] col).mark = decide (col ∈ win.marks) := Bool.false_or _
    rw [hacc _ hhas, Nat.add_sub_cancel_left, hval, hmark, if_pos]
    refine ⟨by omega, Nat.add_lt_add_left hcol a, fun hzero => ?_⟩
    exact hne.elim (fun h => h hzero.1) fun h => of_decide_eq_false hzero.2 h
  case rest =>
    rw [hacc _ hhas, if_neg]
    rintro ⟨-, hlt, -⟩
    exact absurd (Nat.lt_of_add_lt_add_left hlt) (not_lt.mpr hcol)
  case used =>
    rw [ht, State.promoteRun_eq, State.croft_modCroft_self, Croft.runUsed_windows _ _ _ rfl]
    have hrun : ((s.spanNoted c.num a win.span).croft c.num).runWindows (runOf c [slot] false a sp).run = [(slot.val, win)] := hws
    rw [hrun]
    exact tfind_tdrop_self _ _

/-- A transposed run enters row by row (R176). -/
theorem promotes_rows (s : State) (c : CroftAt) (slot : LogMould) (a sp : Nat) (r : RowResult)
    (hr : tfind (s.croft c.num).rowResults slot.val = some r) :
    ∃ t, exec (.runPromotion (runOf c [slot] true a sp)) s = .next t ∧
      (∀ i < 1024, s.hasAcc c.num (a + i) = true → tget (fun _ => 0) r.values i ≠ 0 →
        t.acc c.num (a + i) = clampSym (2 ^ 31 - 1) (s.acc c.num (a + i) + tget (fun _ => 0) r.values i)) ∧
      tfind (t.croft c.num).accSpans a = some r.span ∧
      tfind (t.croft c.num).rowResults slot.val = none ∧ (∀ k, k ≠ c.num → t.croft k = s.croft k) ∧ t = { s with crofts := t.crofts } := by
  have hrows := Croft.runRows_one hr
  have hrs : ((s.spanNoted c.num a r.span).croft c.num).runRows [slot] = [r] := by
    refine Croft.runRows_one ?_
    rw [State.spanNoted, State.croft_modCroft_self]
    exact hr
  have hspan : s.runSpan c.num (runOf c [slot] true a sp) = some r.span := by simp [State.runSpan, runOf, hrows]
  have hsums (i : Nat) : (s.spanNoted c.num a r.span).runSums c.num (runOf c [slot] true a sp) i = rowSum [r] i := by
    have hrun : (s.spanNoted c.num a r.span).runSums c.num (runOf c [slot] true a sp) i =
        rowSum (((s.spanNoted c.num a r.span).croft c.num).runRows [slot]) i := if_pos rfl
    rw [hrun, hrs]
  obtain ⟨t, hspanned, ht, hacc, hspans, hothers, hframe⟩ := s.promoteRun_spec c [slot] true a sp r.span hspan _ hsums
  refine ⟨t, ?exec, fun i hi hhas hne => ?sum, hspans, ?used, hothers, hframe⟩
  case exec =>
    have hone : oneSpan (((s.croft c.num).runRows [slot]).map (·.span)) = true := by rw [hrows]; rfl
    rw [exec_runPromotion s (runOf c [slot] true a sp) (fun _ => hone), State.summed_run, hspanned, ht]
  case sum =>
    have hval : (rowSum [r] i).total + (rowSum [r] i).joins = tget (fun _ => 0) r.values i := by
      simp only [rowSum, List.foldl_cons, List.foldl_nil]
      cases r.a8 with
      | true => exact (Int.zero_add _).trans (Int.zero_add _)
      | false => exact (Int.add_zero _).trans (Int.zero_add _)
    rw [hacc _ hhas, Nat.add_sub_cancel_left, hval, if_pos]
    exact ⟨by omega, Nat.add_lt_add_left hi a, fun hzero => hne hzero.1⟩
  case used =>
    rw [ht, State.promoteRun_eq, State.croft_modCroft_self, Croft.runUsed_slot]
    exact tfind_tdrop_self _ _

/-- Results of two spans are no run (R176). -/
theorem promotes_noSpans (s : State) (c : CroftAt) (slot other : LogMould) (a sp : Nat) (r q : RowResult)
    (hr : tfind (s.croft c.num).rowResults slot.val = some r) (hq : tfind (s.croft c.num).rowResults other.val = some q)
    (hne : r.span ≠ q.span) : exec (.runPromotion (runOf c [slot, other] true a sp)) s = .fault .noSuchEvent := by
  have hrows : (s.croft c.num).runRows [slot, other] = [r, q] := by
    simp only [Croft.runRows, List.filterMap_cons, hr, hq, List.filterMap_nil]
  refine exec_runPromotion_spans s _ rfl ?_
  change oneSpan (((s.croft c.num).runRows [slot, other]).map (·.span)) = false
  rw [hrows]
  simpa [oneSpan] using Ne.symm hne

/-! ### Promotions without a run -/

theorem State.outputsOf_none (s : State) (p : PromotionIn) (he : p.embed = none) (hr : p.rescale = none) (hg : p.gradient = none) :
    s.outputsOf p = s := by
  simp only [State.outputsOf, he, hr, hg]

theorem State.addPartials_one (s : State) (n a : Nat) (e : PartialSum) : s.addPartials n a [e] =
    (s.accAdd n (a + e.column) (s.acc e.croft.num e.acc) (decide (e.acc ∈ (s.croft e.croft.num).satMarks))).accClear e.croft.num e.acc := rfl

theorem State.addProducts_one (s : State) (n a : Nat) (d : D8Term) :
    s.addProducts n a [d] = (s.accAdd n (a + d.column) (s.product n d) false).spend 180 := rfl

/-- What an empty run leaves: every croft as it was. -/
structure Unmoved (s t : State) : Prop where
  frame : CroftsOnly s t
  crofts : ∀ k, t.croft k = s.croft k

theorem Unmoved.alike {s t : State} (h : Unmoved s t) : Alike s t := by
  have hframe := h.frame
  unfold CroftsOnly at hframe
  exact .of_same (by rw [hframe]) (by rw [hframe]) h.crofts

theorem State.noteSpan_empty (s : State) (p : PromotionIn) (hrun : p.run = []) (hd8 : p.d8 = []) : s.noteSpan p.croft.num p = s := by
  refine State.noteSpan_none ?_
  unfold State.runSpan
  rw [hrun, hd8]
  split
  next => rfl
  next => rw [if_neg (by simp)]; rfl

theorem State.summed_empty (s : State) (p : PromotionIn) (hrun : p.run = []) (hpartials : p.partials = []) (hd8 : p.d8 = []) :
    Unmoved s (s.summed p) := by
  obtain ⟨hframe, hcrofts⟩ := s.promoteRun_empty p.croft.num p hrun
  have hsummed : s.summed p = s.promoteRun p.croft.num p := by
    rw [State.summed, s.noteSpan_empty p hrun hd8, hpartials, hd8]
    exact State.addProducts_nil _ _ _
  rw [hsummed]
  exact ⟨hframe, hcrofts⟩

/-- A partial sum of another croft enters its accumulator, and is sent (R161, R163). -/
theorem promotes_partial (s : State) (c : CroftAt) (a sp : Nat) (e : PartialSum) (hhas : s.hasAcc c.num (a + e.column) = true)
    (hne : e.croft.num ≠ c.num ∨ e.acc ≠ a + e.column) :
    ∃ t, exec (.runPromotion ⟨c, [], false, a, sp, [e], [], none, none, none⟩) s = .next t ∧
      t.acc c.num (a + e.column) = clampSym (2 ^ 31 - 1) (s.acc c.num (a + e.column) + s.acc e.croft.num e.acc) ∧
      (e.acc ∈ (s.croft e.croft.num).satMarks → a + e.column ∈ (t.croft c.num).satMarks) ∧
      (s.hasAcc e.croft.num e.acc = true → t.acc e.croft.num e.acc = 0 ∧ e.acc ∉ (t.croft e.croft.num).satMarks) ∧
      (∀ k j, s.hasAcc k j = true → ¬(k = c.num ∧ j = a + e.column) → ¬(k = e.croft.num ∧ j = e.acc) → t.acc k j = s.acc k j) ∧
      (∀ k, k ≠ c.num → k ≠ e.croft.num → t.croft k = s.croft k) ∧ t = { s with crofts := t.crofts } := by
  obtain ⟨hframe, hcrofts⟩ := s.promoteRun_empty c.num ⟨c, [], false, a, sp, [e], [], none, none, none⟩ rfl
  generalize hu : s.promoteRun c.num ⟨c, [], false, a, sp, [e], [], none, none, none⟩ = u at hframe hcrofts
  have hun : Unmoved s u := ⟨hframe, hcrofts⟩
  have hu' := hun.alike
  have hsums := u.accAdd_sums c.num (a + e.column) (u.acc e.croft.num e.acc) (decide (e.acc ∈ (u.croft e.croft.num).satMarks))
  have hclear := (u.accAdd c.num (a + e.column) (u.acc e.croft.num e.acc) (decide (e.acc ∈ (u.croft e.croft.num).satMarks))).accClear_sums
    e.croft.num e.acc
  have hsent : ¬(c.num = e.croft.num ∧ a + e.column = e.acc) := fun h => hne.elim (fun hn => hn h.1.symm) fun ha => ha h.2.symm
  have hexec : exec (.runPromotion ⟨c, [], false, a, sp, [e], [], none, none, none⟩) s = .next
      ((u.accAdd c.num (a + e.column) (u.acc e.croft.num e.acc) (decide (e.acc ∈ (u.croft e.croft.num).satMarks))).accClear
        e.croft.num e.acc) := by
    rw [exec_runPromotion _ _ (fun h => by cases h), State.outputsOf_none _ _ rfl rfl rfl, State.summed, State.noteSpan_empty _ _ rfl rfl]
    dsimp only
    rw [hu, State.addPartials_one, State.addProducts_nil]
  have hhasu (k j : Nat) (hk : s.hasAcc k j = true) : u.hasAcc k j = true := (hu'.hasAcc k j).trans hk
  refine ⟨_, hexec, ?sum, fun hmark => ?mark, fun hsrc => ?sent, fun k j hk h1 h2 => ?rest, fun k h1 h2 => ?others, ?frame⟩
  case sum =>
    rw [State.acc_accClear_other _ _ _ _ _ ((hsums.hasAcc _ _).trans (hhasu _ _ hhas)) hsent,
      State.acc_accAdd_self _ _ _ _ _ (hhasu _ _ hhas), hu'.acc, hu'.acc]
  case mark =>
    have hmark' : decide (e.acc ∈ (u.croft e.croft.num).satMarks) = true := by
      rw [hcrofts]
      exact decide_eq_true hmark
    refine State.satMarks_accClear_other _ _ _ _ _ ?_ hsent
    rw [hmark']
    exact u.satMarks_accAdd _ _ _ (hhasu _ _ hhas)
  case sent => exact State.acc_accClear_self _ _ _ ((hsums.hasAcc _ _).trans (hhasu _ _ hsrc))
  case rest =>
    rw [State.acc_accClear_other _ _ _ _ _ ((hsums.hasAcc _ _).trans (hhasu _ _ hk)) h2,
      State.acc_accAdd_other _ _ _ _ _ _ _ (hhasu _ _ hk) h1, hu'.acc]
  case others => rw [State.accClear_croft_ne _ _ h2, State.accAdd_croft_ne _ _ _ _ h1, hcrofts]
  case frame => exact (hun.frame.trans hsums.frame).trans hclear.frame

/-- An exact product of a digitally placed layer enters its accumulator (R170, R171). -/
theorem promotes_product (s : State) (c : CroftAt) (a sp : Nat) (d : D8Term) (hhas : s.hasAcc c.num (a + d.column) = true) :
    ∃ t, exec (.runPromotion ⟨c, [], false, a, sp, [], [d], none, none, none⟩) s = .next t ∧
      t.acc c.num (a + d.column) = clampSym (2 ^ 31 - 1)
        (s.acc c.num (a + d.column) + s.actCode c.num d.act * (s.croft c.num).store.getS8 d.weight) ∧
      tfind (t.croft c.num).accSpans a = some 1024 ∧ t.tally = { s.tally with arrayFj := s.tally.arrayFj + 180 } := by
  obtain ⟨hframe, hcrofts⟩ := (s.spanNoted c.num a 1024).promoteRun_empty c.num ⟨c, [], false, a, sp, [], [d], none, none, none⟩ rfl
  have hnoted := s.spanNoted_alike c.num a 1024
  have hspan : s.noteSpan c.num ⟨c, [], false, a, sp, [], [d], none, none, none⟩ = s.spanNoted c.num a 1024 := State.noteSpan_some rfl
  generalize hu : (s.spanNoted c.num a 1024).promoteRun c.num ⟨c, [], false, a, sp, [], [d], none, none, none⟩ = u at hframe hcrofts
  have hun : Unmoved (s.spanNoted c.num a 1024) u := ⟨hframe, hcrofts⟩
  have hu' := hnoted.trans hun.alike
  have hexec : exec (.runPromotion ⟨c, [], false, a, sp, [], [d], none, none, none⟩) s = .next
      ((u.accAdd c.num (a + d.column) (u.product c.num d) false).spend 180) := by
    rw [exec_runPromotion _ _ (fun h => by cases h), State.outputsOf_none _ _ rfl rfl rfl, State.summed]
    dsimp only
    rw [hspan, hu, State.addProducts_one]
    rfl
  have hsums := u.accAdd_sums c.num (a + d.column) (u.product c.num d) false
  refine ⟨_, hexec, ?_, ?_, ?_⟩
  · refine (State.acc_accAdd_self u _ _ _ _ ((hu'.hasAcc _ _).trans hhas)).trans ?_
    rw [hu'.acc, hu'.product]
    rfl
  · refine (congrArg (fun x : Croft => tfind x.accSpans a) (hsums.crofts c.num)).trans ?_
    rw [hcrofts, State.spanNoted, State.croft_modCroft_self]
    exact tfind_tset_self _ _ _
  · have htally : (u.accAdd c.num (a + d.column) (u.product c.num d) false).tally = s.tally := by
      rw [hsums.frame, hun.frame]
      rfl
    rw [State.spend, htally]

end Sys2Proof.Machine
end

section
/-!
What follows the sums of a promotion: rescaled outputs, staging, embedding rows and gradient sums (R155 to R158, R170, R171, R177).
-/
namespace Sys2Proof.Machine

/-- A promotion without a run, partial sums or products runs on what it leaves of its crofts. -/
theorem exec_runPromotion_empty (s : State) (p : PromotionIn) (hrun : p.run = []) (hpartials : p.partials = []) (hd8 : p.d8 = []) :
    ∃ u, Unmoved s u ∧ exec (.runPromotion p) s = .next (u.outputsOf p) := by
  refine ⟨s.summed p, s.summed_empty p hrun hpartials hd8, exec_runPromotion s p fun _ => ?_⟩
  rw [hrun]
  rfl

theorem Alike.bump (s : State) (pg : Page) (off k : Nat) : Alike s (s.bump pg off k) := .of_same rfl rfl fun _ => rfl

theorem Alike.spend (s : State) (fj : Nat) : Alike s (s.spend fj) := .of_same rfl rfl fun _ => rfl

theorem tget_tset_self {α : Type} (d : Nat → α) (m : Table α) (k : Nat) (v : α) : tget d (tset m k v) k = v := by
  rw [tset, tget_tinsert _ _ _ _ _ (tdrop_ne m k), if_pos rfl]

theorem State.spend_croft (s : State) (fj k : Nat) : (s.spend fj).croft k = s.croft k := rfl

/-! ### Rescaling -/

/-- A croft with an output rescaled; its accumulators have no span left. -/
def Croft.rescaled (c : Croft) (a : Nat) (y : B32) : Croft := { c with outputs := tset c.outputs a y, accSpans := tdrop c.accSpans a }

theorem State.rescale_one (s : State) (n : Nat) (p : PromotionIn) (row : Nat) (w16 : BitVec 16) :
    s.rescale n p ⟨row, [(0, w16)], none, none⟩ =
      ((((s.modCroft n fun c => c.rescaled p.acc (rescaleOne ((s.croft n).sigmaOf row) (s.omegaOf n p (0, w16))
        ((tfind (s.croft n).accSpans p.acc).getD p.span) (s.acc n p.acc))).accClear n p.acc).spend (macEnergy 0)).bumpCroft n 0x170 0) := rfl

/-- Reading accumulators does not see a croft's outputs and spans. -/
theorem State.acc_rescaled (s : State) (n a : Nat) (y : B32) (k b : Nat) :
    (s.modCroft n fun c => c.rescaled a y).acc k b = s.acc k b ∧ (s.modCroft n fun c => c.rescaled a y).hasAcc k b = s.hasAcc k b := by
  refine ⟨?_, rfl⟩
  have hpad : ((s.modCroft n fun c => c.rescaled a y).croft k).psPad = (s.croft k).psPad := by
    rw [State.croft_modCroft]
    split
    next h => rw [h]; rfl
    next => rfl
  rw [State.acc, hpad]
  rfl

/-- The last promotion rescales its output and starts its accumulator again (R157, R158; log 109). -/
theorem promotes_rescale (s : State) (c : CroftAt) (a sp row : Nat) (w16 : BitVec 16) (tr : Bool) (p : PromotionIn)
    (hp : p = ⟨c, [], tr, a, sp, [], [], none, some ⟨row, [(0, w16)], none, none⟩, none⟩) :
    ∃ t, exec (.runPromotion p) s = .next t ∧
      tfind (t.croft c.num).outputs a = some (F32.mul (F32.ofInt (s.acc c.num a)) (F32.div (F32.mul (F32.mul
        (F32.of16 ((s.croft c.num).sigmaOf row)) (F32.of16 (s.omegaOf c.num p (0, w16))))
        (F32.ofInt ((tfind (s.croft c.num).accSpans a).getD sp))) (F32.ofInt 1024))) ∧
      (tr = true → s.omegaOf c.num p (0, w16) = 0x3C00#16) ∧
      (tr = false → (s.die (croftDie c.num)).pattern = none → s.omegaOf c.num p (0, w16) = w16) ∧
      (s.hasAcc c.num a = true → t.acc c.num a = 0 ∧ a ∉ (t.croft c.num).satMarks) ∧
      (∀ k, k ≠ a → s.hasAcc c.num k = true → t.acc c.num k = s.acc c.num k) ∧ (∀ k, k ≠ c.num → t.croft k = s.croft k) := by
  subst hp
  obtain ⟨u, hu, hexec⟩ := exec_runPromotion_empty s ⟨c, [], tr, a, sp, [], [], none, some ⟨row, [(0, w16)], none, none⟩, none⟩ rfl rfl rfl
  have hlike := hu.alike
  have hout : u.outputsOf ⟨c, [], tr, a, sp, [], [], none, some ⟨row, [(0, w16)], none, none⟩, none⟩ =
      u.rescale c.num ⟨c, [], tr, a, sp, [], [], none, some ⟨row, [(0, w16)], none, none⟩, none⟩ ⟨row, [(0, w16)], none, none⟩ := rfl
  rw [hout, State.rescale_one, hlike.sigmaOf, hlike.omegaOf, hu.crofts, hlike.acc] at hexec
  dsimp only at hexec
  generalize hy : rescaleOne ((s.croft c.num).sigmaOf row) (s.omegaOf c.num ⟨c, [], tr, a, sp, [], [], none,
    some ⟨row, [(0, w16)], none, none⟩, none⟩ (0, w16)) ((tfind (s.croft c.num).accSpans a).getD sp) (s.acc c.num a) = y at hexec
  have hread := u.acc_rescaled c.num a y
  generalize hv : (u.modCroft c.num fun x => x.rescaled a y) = v at hexec hread
  have hsums := v.accClear_sums c.num a
  have hafter := (Alike.spend (v.accClear c.num a) (macEnergy 0)).trans (.bump _ (.croft c.num) 0x170 0)
  have hhas (k : Nat) (h : s.hasAcc c.num k = true) : v.hasAcc c.num k = true := (hread _ _).2.trans ((hlike.hasAcc _ _).trans h)
  refine ⟨_, hexec, ?output, fun htr => if_pos htr, fun htr hpat => ?omega, fun h => ?again, fun k hk h => ?rest, fun k hk => ?others⟩
  case output =>
    have houtputs : (v.croft c.num).outputs = tset (u.croft c.num).outputs a y := by
      rw [← hv, State.croft_modCroft_self]
      rfl
    have hclear : ((v.accClear c.num a).croft c.num).outputs = (v.croft c.num).outputs := by rw [hsums.crofts c.num]
    rw [State.bumpCroft, State.bump_croft, State.spend_croft, hclear, houtputs, tfind_tset_self, ← hy, rescaleOne, rescaleFactor]
  case omega =>
    subst htr
    unfold State.omegaOf
    rw [hpat]
    rfl
  case again =>
    obtain ⟨hzero, hmark⟩ := v.acc_accClear_self c.num a (hhas a h)
    exact ⟨(hafter.acc _ _).trans hzero, fun hmem => hmark (hafter.satMarks c.num ▸ hmem)⟩
  case rest =>
    exact (hafter.acc _ _).trans ((v.acc_accClear_other c.num a c.num k (hhas k h) fun he => hk he.2).trans
      ((hread _ _).1.trans (hlike.acc _ _)))
  case others =>
    rw [State.bumpCroft, State.bump_croft, State.spend_croft, v.accClear_croft_ne a hk, ← hv, State.croft_modCroft_ne _ _ hk, hu.crofts]

/-! ### Staging -/

/-- A staged code reads back from the activation pad. -/
theorem State.actCode_setAct (s : State) (n a : Nat) (v : Int) (h : (s.die (croftDie n)).padHas false a = true) :
    (s.setAct n a (BitVec.ofInt 8 (clampTo (-128) 127 v))).actCode n a = clampTo (-128) 127 v := by
  have hset : s.setAct n a (BitVec.ofInt 8 (clampTo (-128) 127 v)) = s.modCroft n fun c =>
      { c with actPad := c.actPad.set ((s.die (croftDie n)).padAt n false a) (BitVec.ofInt 8 (clampTo (-128) 127 v)),
               actBad := c.actBad.filter fun w => w != (s.die (croftDie n)).padAt n false a / 8 } := if_pos h
  have hbyte : (s.setAct n a (BitVec.ofInt 8 (clampTo (-128) 127 v))).actByte n a = BitVec.ofInt 8 (clampTo (-128) 127 v) := by
    rw [hset]
    refine (if_pos h).trans ?_
    rw [State.croft_modCroft_self]
    exact (Memory.get_set _ _ _ _).trans (if_pos rfl)
  rw [State.actCode, hbyte, BitVec.toNat_ofInt]
  unfold toSigned clampTo
  split <;> omega

theorem State.setAct_croft_ne (s : State) {n k : Nat} (a : Nat) (b : Byte) (h : k ≠ n) : (s.setAct n a b).croft k = s.croft k := by
  unfold State.setAct
  split
  · exact State.croft_modCroft_ne _ _ h
  · rfl

theorem State.setAct_dies (s : State) (n a : Nat) (b : Byte) : (s.setAct n a b).dies = s.dies := by
  unfold State.setAct
  split <;> rfl

/-- A croft whose row of the activation pad takes a scale. -/
def Croft.rowScaled (c : Croft) (row : Nat) (sigma : BitVec 16) : Croft := { c with sigmas := tset c.sigmas row sigma }

theorem State.actCode_rowScaled (s : State) (n row : Nat) (sigma : BitVec 16) (k a : Nat) :
    ((s.modCroft n fun c => c.rowScaled row sigma).bumpCroft n 0x170 k).actCode n a = s.actCode n a := by
  rw [State.actCode, State.actByte, State.bumpCroft, State.bump_croft, State.bump_die, State.croft_modCroft_self, State.modCroft_die]
  rfl

theorem State.stage_one (s : State) (n : Nat) (sg : BitVec 16) (a row : Nat) : ∃ k : Nat,
    s.stage n ⟨.fixed sg, a, 1, row⟩ =
      ((s.setAct n (512 * row) (BitVec.ofInt 8 (clampTo (-128) 127 (stageCode (s.stageSigma n ⟨.fixed sg, a, 1, row⟩)
        ((s.croft n).output a))))).modCroft n fun c => c.rowScaled row (s.stageSigma n ⟨.fixed sg, a, 1, row⟩)).bumpCroft n 0x170 k := by
  have hsigmas (t : Table (BitVec 16)) (v : BitVec 16) :
      (List.range ((1 + 511) / 512)).foldl (fun t i => tset t (row + i) v) t = tset t row v := rfl
  have hcodes (code : Int) : ([code].zipIdx).foldl (fun (t : State) e => t.setAct n (512 * row + e.2) (BitVec.ofInt 8 e.1)) s =
      s.setAct n (512 * row) (BitVec.ofInt 8 code) := rfl
  unfold State.stage
  simp only [List.range_one, List.map_cons, List.map_nil, hsigmas, hcodes, Nat.add_zero]
  exact ⟨_, rfl⟩

/-- What a rescale of no output leaves before it stages. -/
def State.unscaled (s : State) (n a : Nat) : State :=
  ((s.modCroft n fun c => { c with accSpans := tdrop c.accSpans a }).spend (macEnergy 0)).bumpCroft n 0x170 0

theorem State.rescale_stage (s : State) (n : Nat) (p : PromotionIn) (row : Nat) (g : StageIn) :
    s.rescale n p ⟨row, [], none, some g⟩ = (s.unscaled n p.acc).stage n g := rfl

theorem State.unscaled_alike (s : State) (n a : Nat) : Alike s (s.unscaled n a) :=
  ((Alike.modCroft n _ fun _ => rfl).trans (.spend _ _)).trans (.bump _ _ _ _)

theorem State.unscaled_croft_ne (s : State) {n k : Nat} (a : Nat) (h : k ≠ n) : (s.unscaled n a).croft k = s.croft k := by
  rw [State.unscaled, State.bumpCroft, State.bump_croft, State.spend_croft, State.croft_modCroft_ne _ _ h]

theorem State.stageSigma_unplanned {s : State} {n : Nat} {g : StageIn} {sg : BitVec 16} (hg : g.mode = .fixed sg)
    (h : s.plannedScale n g = none) : s.stageSigma n g = boundSigma sg := by
  unfold State.stageSigma
  rw [hg, h]
  rfl

theorem State.stageSigma_planned {s : State} {n : Nat} {g : StageIn} {sg v : BitVec 16} (hg : g.mode = .fixed sg)
    (h : s.plannedScale n g = some (.fixed v)) : s.stageSigma n g = boundSigma v := by
  unfold State.stageSigma
  rw [hg, h]

/-- Outputs are staged as A8 codes with their scale (R155, R156). -/
theorem promotes_stage (s : State) (c : CroftAt) (a sp row : Nat) (sg : BitVec 16) (hrow : row < (s.die (croftDie c.num)).padRows false)
    (g : StageIn) (sigma : BitVec 16) (hg : g = ⟨.fixed sg, a, 1, row⟩) (hsigma : sigma = s.stageSigma c.num g) :
    (s.plannedScale c.num g = none → sigma = boundSigma sg) ∧ (∀ v, s.plannedScale c.num g = some (.fixed v) → sigma = boundSigma v) ∧
    ∃ t, exec (.runPromotion ⟨c, [], false, a, sp, [], [], none, some ⟨row, [], none, some g⟩, none⟩) s = .next t ∧
      t.actCode c.num (512 * row) = clampTo (-128) 127 (stageCode sigma (((tfind (s.croft c.num).outputs a).getD 0))) ∧
      (t.croft c.num).sigmaOf row = sigma ∧ (∀ k, k ≠ c.num → t.croft k = s.croft k) := by
  subst hg
  refine ⟨fun h => hsigma.trans (State.stageSigma_unplanned rfl h), fun v h => hsigma.trans (State.stageSigma_planned rfl h), ?_⟩
  obtain ⟨u, hu, hexec⟩ := exec_runPromotion_empty s
    ⟨c, [], false, a, sp, [], [], none, some ⟨row, [], none, some ⟨.fixed sg, a, 1, row⟩⟩, none⟩ rfl rfl rfl
  have hout : u.outputsOf ⟨c, [], false, a, sp, [], [], none, some ⟨row, [], none, some ⟨.fixed sg, a, 1, row⟩⟩, none⟩ =
      (u.unscaled c.num a).stage c.num ⟨.fixed sg, a, 1, row⟩ := u.rescale_stage c.num _ row _
  have hlike := hu.alike.trans (u.unscaled_alike c.num a)
  have hothers (k : Nat) (hk : k ≠ c.num) : (u.unscaled c.num a).croft k = s.croft k := (u.unscaled_croft_ne a hk).trans (hu.crofts k)
  generalize u.unscaled c.num a = v at hout hlike hothers
  obtain ⟨k, hstage⟩ := v.stage_one c.num sg a row
  rw [hout, hstage, hlike.stageSigma_fixed, ← hsigma, hlike.output] at hexec
  have hhas : (v.die (croftDie c.num)).padHas false (512 * row) = true := by
    rw [hlike.die]
    exact decide_eq_true (by rwa [Nat.mul_div_cancel_left _ (by decide)])
  have hcode := v.actCode_setAct c.num (512 * row) (stageCode sigma ((s.croft c.num).output a)) hhas
  have hne (b : Byte) (k : Nat) (hk : k ≠ c.num) := (v.setAct_croft_ne (512 * row) b hk).trans (hothers k hk)
  generalize hw : v.setAct c.num (512 * row) (BitVec.ofInt 8 (clampTo (-128) 127 (stageCode sigma ((s.croft c.num).output a)))) = w
    at hexec hcode
  refine ⟨_, hexec, ?code, ?scale, fun k hk => ?others⟩
  case code =>
    rw [← Croft.output, ← hcode, State.actCode_rowScaled]
  case scale =>
    rw [State.bumpCroft, State.bump_croft, State.croft_modCroft_self, Croft.sigmaOf, Croft.rowScaled, tget_tset_self]
  case others =>
    rw [State.bumpCroft, State.bump_croft, State.croft_modCroft_ne _ _ hk, ← hw, hne _ k hk]

/-! ### Embedding rows and gradient sums -/

/-- An embedding row is read out (R170, R171). -/
theorem promotes_embed (s : State) (c : CroftAt) (a sp weight : Nat) (w16 : BitVec 16) :
    ∃ t, exec (.runPromotion ⟨c, [], false, a, sp, [], [], some ⟨weight, [(0, w16)]⟩, none, none⟩) s = .next t ∧
      tfind (t.croft c.num).outputs a = some (F32.mul (F32.ofInt ((s.croft c.num).store.getS8 weight)) (F32.of16 w16)) ∧
      t.tally = { s.tally with arrayFj := s.tally.arrayFj + 2000 } := by
  obtain ⟨u, hu, hexec⟩ := exec_runPromotion_empty s ⟨c, [], false, a, sp, [], [], some ⟨weight, [(0, w16)]⟩, none, none⟩ rfl rfl rfl
  have hout : u.outputsOf ⟨c, [], false, a, sp, [], [], some ⟨weight, [(0, w16)]⟩, none, none⟩ =
      u.embed c.num a ⟨weight, [(0, w16)]⟩ := rfl
  have hembed : u.embed c.num a ⟨weight, [(0, w16)]⟩ = (u.modCroft c.num fun x =>
      { x with outputs := tset x.outputs a (F32.mul (F32.ofInt ((u.croft c.num).store.getS8 weight)) (F32.of16 w16)) }).spend 2000 := rfl
  have htally : u.tally = s.tally := by rw [hu.frame]
  refine ⟨_, hexec, ?_⟩
  rw [hout, hembed, hu.crofts]
  refine ⟨?_, ?_⟩
  · rw [State.spend_croft, State.croft_modCroft_self]
    exact tfind_tset_self _ _ _
  · rw [← htally]
    rfl

theorem Croft.setSum32_in (c : Croft) (a : Nat) (v : B32) (h : a + 4 ≤ 262144) :
    c.setSum32 a v = { c with store := c.store.setLe a 4 v.toNat } := if_pos h

theorem Croft.sum32_setSum32 (c : Croft) (a : Nat) (v : B32) (h : a + 4 ≤ 262144) : (c.setSum32 a v).sum32 a = v := by
  rw [c.setSum32_in a v h, Croft.sum32, Memory.getLe_setLe]
  refine BitVec.eq_of_toNat_eq ?_
  rw [BitVec.toNat_ofNat]
  exact (Nat.mod_mod _ _).trans (Nat.mod_eq_of_lt v.isLt)

theorem Job.addGradLines_one (j : Job) (n a : Nat) : (n, a / 256) ∈ (j.addGradLines n [a]).gradLines := by
  unfold Job.addGradLines
  rw [List.foldl_cons, List.foldl_nil]
  split
  next h => exact h
  next => exact List.mem_append_right _ (List.mem_singleton.mpr rfl)

/-- A token's outer products are added to its gradient sums while its step is in flight (R177). -/
theorem promotes_gradient (s : State) (c : CroftAt) (a sp x act : Nat) (j : Job) (hjob : (s.sess x).job = some j) (ha : a + 4 ≤ 262144) :
    ∃ t, exec (.runPromotion ⟨c, [], false, 0, sp, [], [], none, none, some ⟨x, [], [⟨a, .staged act, .staged act⟩]⟩⟩) s = .next t ∧
      (∀ k, k ≠ c.num → t.croft k = s.croft k) ∧
      (s.temperRuns x = false → (t.croft c.num).store = (s.croft c.num).store ∧ t.serve = s.serve) ∧
      (s.temperRuns x = true → (∃ j', (t.sess x).job = some j' ∧ (c.num, a / 256) ∈ j'.gradLines) ∧
        ∀ f, f = F32.mul (F32.ofInt (s.actCode c.num act)) (F32.of16 ((s.croft c.num).sigmaOf (act / 512))) →
          BitVec.ofNat 32 ((t.croft c.num).store.getLe a 4) =
            F32.add (BitVec.ofNat 32 ((s.croft c.num).store.getLe a 4)) (F32.mul f f)) := by
  obtain ⟨u, hu, hexec⟩ := exec_runPromotion_empty s
    ⟨c, [], false, 0, sp, [], [], none, none, some ⟨x, [], [⟨a, .staged act, .staged act⟩]⟩⟩ rfl rfl rfl
  have hlike := hu.alike
  have hout : u.outputsOf ⟨c, [], false, 0, sp, [], [], none, none, some ⟨x, [], [⟨a, .staged act, .staged act⟩]⟩⟩ =
      u.addGradients c.num ⟨x, [], [⟨a, .staged act, .staged act⟩]⟩ := rfl
  rw [hout] at hexec
  rcases hruns : s.temperRuns x
  case false =>
    have hidle : u.addGradients c.num ⟨x, [], [⟨a, .staged act, .staged act⟩]⟩ = u := if_pos ((hlike.temperRuns x).trans hruns)
    refine ⟨_, hexec, fun k _ => ?_, fun _ => ?_, nofun⟩ <;> rw [hidle]
    · exact hu.crofts k
    · exact ⟨hlike.store _, hlike.serve⟩
  case true =>
    have hadd : u.addGradients c.num ⟨x, [], [⟨a, .staged act, .staged act⟩]⟩ =
        ((u.modCroft c.num fun k => k.setSum32 a (F32.add (k.sum32 a) (F32.mul
          (F32.mul (F32.ofInt (u.actCode c.num act)) (F32.of16 ((u.croft c.num).sigmaOf (act / 512))))
          (F32.mul (F32.ofInt (u.actCode c.num act)) (F32.of16 ((u.croft c.num).sigmaOf (act / 512))))))).spend (macEnergy 0)).modSess x
            fun y => { y with job := y.job.map fun j => j.addGradLines c.num [a] } := by
      refine (if_neg ?_).trans rfl
      rw [hlike.temperRuns x, hruns]
      simp
    rw [hadd, hlike.actCode, hlike.sigmaOf] at hexec
    refine ⟨_, hexec, fun k hk => ?others, nofun, fun _ => ⟨?lines, fun f hf => ?sum⟩⟩
    case others => exact (u.croft_modCroft_ne _ hk).trans (hu.crofts k)
    case lines =>
      have hsess : (u.sess x).job = some j := by
        rw [State.sess, hlike.serve]
        exact hjob
      rw [State.sess_modSess_self]
      exact ⟨j.addGradLines c.num [a], congrArg (Option.map fun j => j.addGradLines c.num [a]) hsess, j.addGradLines_one c.num a⟩
    case sum =>
      rw [← hf]
      rw [State.modSess_croft, State.spend_croft, State.croft_modCroft_self, ← Croft.sum32, Croft.sum32_setSum32 _ _ _ ha, Croft.sum32, hlike.store]

/-- Settles O44: each part of a promotion enters its accumulators, outputs or sums as the rules give it. -/
theorem promotionsAccumulateAndRescale : Obligations.PromotionsAccumulateAndRescale := by
  unfold Obligations.PromotionsAccumulateAndRescale
  intro s c n slot other a sp e d row w16 sg tr hn
  subst hn
  exact ⟨fun win hwin hd => promotes_window s c slot a sp win hwin hd, fun r hr => promotes_rows s c slot a sp r hr,
    fun r q hr hq hne => promotes_noSpans s c slot other a sp r q hr hq hne, fun hhas hne => promotes_partial s c a sp e hhas hne,
    fun hhas => promotes_product s c a sp d hhas, fun p hp => promotes_rescale s c a sp row w16 tr p hp,
    fun hrow g sigma hg hsigma => promotes_stage s c a sp row sg hrow g sigma hg hsigma, promotes_embed s c a sp d.weight w16,
    fun x j hjob ha => promotes_gradient s c a sp x d.act j hjob ha⟩

end Sys2Proof.Machine
end

section
/-!
Transposed windows, micro-batch updates and checkpoints (R69 to R73, R176 to R178, R497, R498).
-/
namespace Sys2Proof.Machine

/-! ### Transposed windows -/

theorem exec_transposedWindow_bad (s : State) (w : TransposedIn) (h : spanOk w.spanT = false) :
    exec (.transposedWindow w) s = .fault .noSuchEvent := if_pos h

section Transposed
variable {s : State} {w : TransposedIn} (hok : spanOk w.spanT = true)
include hok

theorem exec_transposedWindow_none (h : (s.croft w.croft.num).holding w.mould.val = none) :
    exec (.transposedWindow w) s = .next (s.zeroRows w.croft.num w.mould.val) := by
  refine (if_neg (by simp [hok])).trans ?_
  rw [h]

theorem exec_transposedWindow_some {m : Nat} (h : (s.croft w.croft.num).holding w.mould.val = some m)
    (hstop : (s.croft w.croft.num).stopped = false) :
    exec (.transposedWindow w) s = if (s.croft w.croft.num).serves w.mould.val m then .next (s.openTransposed w m)
      else .next (s.zeroRows w.croft.num w.mould.val) := by
  refine (if_neg (by simp [hok])).trans ?_
  rw [h]
  exact if_neg (by simp [hstop])

theorem exec_transposedWindow_zero (h : (s.croft w.croft.num).holding w.mould.val = none ∨ ((s.croft w.croft.num).stopped = false ∧
      ∀ m, (s.croft w.croft.num).holding w.mould.val = some m → (s.croft w.croft.num).serves w.mould.val m = false)) :
    exec (.transposedWindow w) s = .next (s.zeroRows w.croft.num w.mould.val) := by
  obtain h | ⟨hstop, h⟩ := h
  · exact exec_transposedWindow_none hok h
  · rcases hm : (s.croft w.croft.num).holding w.mould.val with _ | m
    · exact exec_transposedWindow_none hok hm
    · rw [exec_transposedWindow_some hok hm hstop, if_neg (by simp [h m hm])]

end Transposed

/-- A row of a transposed result takes its corrected value, in two passes when a code needs them (R69, R176). -/
theorem Mould.transposedResult_value (m : Mould) (theta : Int) (codes : List (Nat × Int)) (spanT : Nat) (noise : List Noise) {y : Nat}
    (hy : y < 1024) : tget (fun _ => 0) (m.transposedResult theta codes spanT noise).values y =
      if (m.transposedResult theta codes spanT noise).a8 then
        16 * (m.transposedRow theta (mapCodes high4 codes) ((m.standins.filter (·.live)).map (·.column)) spanT spanT 1024
          (noiseOf noise 0 y) y).1 +
        2 * (m.transposedRow theta (mapCodes low4 codes) ((m.standins.filter (·.live)).map (·.column)) (2 * spanT) spanT 512
          (noiseOf noise 1 y) y).1
      else (m.transposedRow theta codes ((m.standins.filter (·.live)).map (·.column)) spanT spanT 1024 (noiseOf noise 0 y) y).1 := by
  unfold Mould.transposedResult
  dsimp only
  rw [List.map_map]
  cases transposedA8 codes with
  | true => exact tget_listed _ _ y (List.mem_range.mpr hy)
  | false => exact tget_listed _ _ y (List.mem_range.mpr hy)

theorem transposedA8_iff (codes : List (Nat × Int)) : transposedA8 codes = true ↔ ∃ e ∈ codes, e.2 < -8 ∨ 7 < e.2 := by
  simp [transposedA8]

/-- A state with a transposed window's rows and energy. -/
def State.rowsRun (s : State) (n slot : Nat) (r : RowResult) (fj : Nat) : State :=
  (s.modCroft n fun c => { c with rowResults := tset c.rowResults slot r }).spend fj

theorem State.countStale_croft (s : State) (n step k : Nat) : (s.countStale n step).croft k = s.croft k := by
  rw [State.countStale, State.bump_croft, State.bumpCroft, State.bump_croft]
  rfl

theorem State.countStale_tally (s : State) (n step : Nat) : (s.countStale n step).tally = s.tally := by
  rw [State.countStale, State.bump_tally, State.bumpCroft, State.bump_tally]
  rfl

/-- A window in service leaves its rows and draws its energy (R69, R137). -/
theorem State.openTransposed_rows (s : State) (w : TransposedIn) (m : Nat) :
    ∃ r, r = (s.mould w.croft.num m).transposedResult (s.croft w.croft.num).theta (s.actCodes w.croft.num w.actRow 0 256) w.spanT w.noise ∧
      tfind ((s.openTransposed w m).croft w.croft.num).rowResults w.mould.val = some r ∧
      (s.openTransposed w m).tally = { s.tally with arrayFj := s.tally.arrayFj + ((1 + b2n r.a8) * 11000000 +
        160000 * ((s.mould w.croft.num m).standins.filter (·.live)).length) } := by
  refine ⟨_, rfl, ?_⟩
  generalize hr : (s.mould w.croft.num m).transposedResult (s.croft w.croft.num).theta (s.actCodes w.croft.num w.actRow 0 256) w.spanT
    w.noise = r
  have hopen : s.openTransposed w m =
      if s.isStale w.croft.num (s.mould w.croft.num m) then
        (s.rowsRun w.croft.num w.mould.val r ((1 + b2n r.a8) * 11000000 +
          160000 * ((s.mould w.croft.num m).standins.filter (·.live)).length)).countStale w.croft.num w.step
      else s.rowsRun w.croft.num w.mould.val r ((1 + b2n r.a8) * 11000000 +
        160000 * ((s.mould w.croft.num m).standins.filter (·.live)).length) := by
    rw [← hr]
    rfl
  have hrun (fj : Nat) : tfind ((s.rowsRun w.croft.num w.mould.val r fj).croft w.croft.num).rowResults w.mould.val = some r := by
    rw [State.rowsRun, State.spend_croft, State.croft_modCroft_self]
    exact tfind_tset_self _ _ _
  rw [hopen]
  split
  · rw [State.countStale_croft, State.countStale_tally]
    exact ⟨hrun _, rfl⟩
  · exact ⟨hrun _, rfl⟩

/-- A transposed window on a mould in service (R69 to R73, R116, R137, R176). -/
theorem transposedWindow_serves (s : State) (w : TransposedIn) (m : Nat) (hok : spanOk w.spanT = true)
    (hm : (s.croft w.croft.num).holding w.mould.val = some m) (hstop : (s.croft w.croft.num).stopped = false)
    (hstate : (s.mould w.croft.num m).state = .cast) (hcast : ∀ k, (s.mould w.croft.num m).cast = some k → k.full = false)
    (hheld : w.mould.val ∉ (s.croft w.croft.num).held) :
    ∃ t r, exec (.transposedWindow w) s = .next t ∧ tfind (t.croft w.croft.num).rowResults w.mould.val = some r ∧ r.span = w.spanT ∧
      (r.a8 = true ↔ ∃ e ∈ s.actCodes w.croft.num w.actRow 0 256, e.2 < -8 ∨ 7 < e.2) ∧
      (∀ q, q = (fun codes k sp sc y => (s.mould w.croft.num m).transposedRow (s.croft w.croft.num).theta codes
          (((s.mould w.croft.num m).standins.filter (·.live)).map (·.column)) sp w.spanT sc (noiseOf w.noise k y) y) →
        ∀ y < 1024, tget (fun _ => 0) r.values y =
          if r.a8 then 16 * (q (mapCodes high4 (s.actCodes w.croft.num w.actRow 0 256)) 0 w.spanT 1024 y).1 +
            2 * (q (mapCodes low4 (s.actCodes w.croft.num w.actRow 0 256)) 1 (2 * w.spanT) 512 y).1
          else (q (s.actCodes w.croft.num w.actRow 0 256) 0 w.spanT 1024 y).1) ∧
      t.tally = { s.tally with arrayFj := s.tally.arrayFj + ((if r.a8 then 22000000 else 11000000) +
        160000 * ((s.mould w.croft.num m).standins.filter (·.live)).length) } := by
  have hserves : (s.croft w.croft.num).serves w.mould.val m = true := by
    have hall : (s.mould w.croft.num m).cast.all (fun k => !k.full) = true := by
      simpa [Option.all_eq_true] using hcast
    have hbool : (s.croft w.croft.num).serves w.mould.val m = ((s.mould w.croft.num m).state == .cast &&
      (s.mould w.croft.num m).cast.all (fun k => !k.full) && !decide (w.mould.val ∈ (s.croft w.croft.num).held)) := rfl
    rw [hbool, hstate, hall]
    simp [hheld]
  obtain ⟨r, hr, hrows, htally⟩ := s.openTransposed_rows w m
  refine ⟨_, r, (exec_transposedWindow_some hok hm hstop).trans (if_pos hserves), hrows, ?_, ?_, fun q hq y hy => ?_, ?_⟩
  · rw [hr]
    rfl
  · rw [hr]
    exact transposedA8_iff _
  · rw [hq, hr]
    exact Mould.transposedResult_value _ _ _ _ _ hy
  · rw [htally]
    cases r.a8 <;> rfl

/-! ### Micro-batch updates -/

theorem exec_microBatchUpdate_none (s : State) (x : Nat) (items : List UpdateItem) (off : Nat) (h : (s.sess x).job = none) :
    exec (.microBatchUpdate x items off) s = .next s := by
  change execMicroBatchUpdate x items off s = _
  simp only [execMicroBatchUpdate, h]

theorem exec_microBatchUpdate_copying (s : State) (x : Nat) (items : List UpdateItem) (off : Nat) (j : Job) (hj : (s.sess x).job = some j)
    (h : j.copying = true) : exec (.microBatchUpdate x items off) s = .next s := by
  change execMicroBatchUpdate x items off s = _
  simp [execMicroBatchUpdate, hj, h]

/-- A job with a micro-batch counted. -/
def Job.counted (j : Job) (done off : Nat) (due : Bool) : Job := { j with done := done, dataOffset := off, copying := due }

theorem exec_microBatchUpdate_some (s : State) (x : Nat) (items : List UpdateItem) (off : Nat) (j : Job) (hj : (s.sess x).job = some j)
    (hruns : s.temperRuns x = true) (hcopy : j.copying = false) (hleft : j.microBatches = 0xFFFFFFFF ∨ j.done < j.microBatches) :
    exec (.microBatchUpdate x items off) s = .next ((clearSums items (items.foldl updateOne (s, j))).1.modSess x fun v =>
      { v with job := some ((clearSums items (items.foldl updateOne (s, j))).2.counted (j.done + 1) off
        (decide (j.interval ≠ 0xFFFFFFFF ∧ (j.done + 1) % j.interval = 0))) }) := by
  have hgo : ¬(j.copying = true ∨ (j.microBatches ≠ 0xFFFFFFFF ∧ j.microBatches ≤ j.done)) := by
    rw [hcopy]
    rintro (h | ⟨hne, hle⟩)
    · cases h
    · exact hleft.elim hne fun hlt => absurd hle (not_le.mpr hlt)
  change execMicroBatchUpdate x items off s = _
  simp only [execMicroBatchUpdate, hj]
  rw [if_neg (by simp [hruns]), if_neg hgo]
  rfl

/-- The register of a croft at an update: seeded by the job's first (R178; log 29). -/
def State.lfsrFor (s : State) (j : Job) (n : Nat) : BitVec 32 :=
  if n ∈ j.crofts then (s.croft n).lfsr else BitVec.ofNat 32 j.seed ^^^ Config.coordinateWord
    (1024 * croftDie n + 32 * croftRow n + (s.columnOf n).getD 0)

theorem State.seedCroft_onCroft (s : State) (j : Job) (n : Nat) :
    OnCroft s (s.seedCroft j n) n { s.croft n with lfsr := s.lfsrFor j n } := by
  unfold State.seedCroft State.lfsrFor
  split
  · exact .refl s n
  · exact (OnCroft.refl s n).modCroft _

/-- A croft with one weight updated and its gradient sum started again. -/
def Croft.weightUpdated (c : Croft) (rate : B32) (i : UpdateItem) : Croft := (c.update rate i).setSum32 i.gradient 0

theorem Croft.weightUpdated_lfsr (c : Croft) (rate : B32) (i : UpdateItem) : (c.weightUpdated rate i).lfsr = lfsrAdvance c.lfsr := by
  unfold Croft.weightUpdated Croft.setSum32
  split <;> rfl

section Update
variable (c : Croft) (rate : B32) (i : UpdateItem) (hsum : i.gradient + 4 ≤ 262144)
include hsum

theorem Croft.weightUpdated_store : (c.weightUpdated rate i).store =
    (c.store.set (256 * i.line.val + i.byte.val) (BitVec.ofInt 8 (updateWeight rate (c.sum32 i.gradient) i.omega
      ((lfsrAdvance c.lfsr).toNat % 65536) (c.store.getS8 (256 * i.line.val + i.byte.val))))).setLe i.gradient 4 0 := by
  rw [Croft.weightUpdated, Croft.setSum32_in _ _ _ hsum]
  rfl

theorem Croft.weightUpdated_sum : (c.weightUpdated rate i).store.getLe i.gradient 4 = 0 := by
  rw [c.weightUpdated_store rate i hsum, Memory.getLe_setLe, Nat.zero_mod]

theorem Croft.weightUpdated_other {b : Nat} (hb : b ≠ 256 * i.line.val + i.byte.val) (hout : b < i.gradient ∨ i.gradient + 4 ≤ b) :
    (c.weightUpdated rate i).store.get b = c.store.get b := by
  rw [c.weightUpdated_store rate i hsum, Memory.setLe, Memory.get_setBytes_out _ _ _ _ (by rwa [leBytes_length]), Memory.get_set, if_neg hb]

theorem Croft.weightUpdated_weight (hout : 256 * i.line.val + i.byte.val < i.gradient ∨ i.gradient + 4 ≤ 256 * i.line.val + i.byte.val) :
    (c.weightUpdated rate i).store.getS8 (256 * i.line.val + i.byte.val) = updateWeight rate (c.sum32 i.gradient) i.omega
      ((lfsrAdvance c.lfsr).toNat % 65536) (c.store.getS8 (256 * i.line.val + i.byte.val)) := by
  rw [Memory.getS8, c.weightUpdated_store rate i hsum, Memory.setLe, Memory.get_setBytes_out _ _ _ _ (by rwa [leBytes_length]),
    Memory.get_set, if_pos rfl, BitVec.toNat_ofInt]
  generalize hw : updateWeight rate (c.sum32 i.gradient) i.omega ((lfsrAdvance c.lfsr).toNat % 65536)
    (c.store.getS8 (256 * i.line.val + i.byte.val)) = w
  have hbounds : -127 ≤ w ∧ w ≤ 127 := by
    rw [← hw, updateWeight]
    unfold clampSym
    omega
  unfold toSigned
  split <;> omega

end Update

theorem Job.addLine_mem (j : Job) (c : Croft) (n line : Nat) : (n, line) ∈ (j.addLine c n line).lines := by
  unfold Job.addLine
  split
  next h => exact h
  next => exact List.mem_append_right _ (List.mem_singleton.mpr rfl)

/-- What one update leaves of its crofts and of its job. -/
theorem clearSums_one (s : State) (j : Job) (i : UpdateItem) :
    OnCroft s (clearSums [i] ([i].foldl updateOne (s, j))).1 i.croft.num
        (({ s.croft i.croft.num with lfsr := s.lfsrFor j i.croft.num } : Croft).weightUpdated j.rate i) ∧
      (i.croft.num, i.line.val) ∈ (clearSums [i] ([i].foldl updateOne (s, j))).2.lines := by
  have hupdate := ((s.seedCroft_onCroft j i.croft.num).modCroft fun c => c.update j.rate i).modCroft fun c => c.setSum32 i.gradient 0
  have hjob : (clearSums [i] ([i].foldl updateOne (s, j))).2 =
    (j.addLine ((s.seedCroft j i.croft.num).croft i.croft.num) i.croft.num i.line.val).addGradLines i.croft.num [i.gradient] := rfl
  refine ⟨hupdate, ?_⟩
  rw [hjob, Job.addGradLines]
  exact j.addLine_mem _ _ _

/-- A micro-batch of one update (R177, R178, R498). -/
theorem microBatchUpdate_one (s : State) (x : Nat) (i : UpdateItem) (off : Nat) (j : Job) (hj : (s.sess x).job = some j)
    (hruns : s.temperRuns x = true) (hcopy : j.copying = false) (hleft : j.microBatches = 0xFFFFFFFF ∨ j.done < j.microBatches)
    (a : Nat) (ha : a = 256 * i.line.val + i.byte.val) (hsum : i.gradient + 4 ≤ 262144) (hout : a < i.gradient ∨ i.gradient + 4 ≤ a)
    (r : BitVec 32) (hr : r = s.lfsrFor j i.croft.num) :
    ∃ t j', exec (.microBatchUpdate x [i] off) s = .next t ∧ (t.sess x).job = some j' ∧
      j'.done = j.done + 1 ∧ j'.dataOffset = off ∧
      (j'.copying = true ↔ j.interval ≠ 0xFFFFFFFF ∧ (j.done + 1) % j.interval = 0) ∧
      (t.croft i.croft.num).lfsr = lfsrAdvance r ∧
      Memory.getS8 (t.croft i.croft.num).store a =
        updateWeight j.rate (BitVec.ofNat 32 ((s.croft i.croft.num).store.getLe i.gradient 4)) i.omega
          ((lfsrAdvance r).toNat % 65536) (Memory.getS8 (s.croft i.croft.num).store a) ∧
      (t.croft i.croft.num).store.getLe i.gradient 4 = 0 ∧ (i.croft.num, i.line.val) ∈ j'.lines ∧
      (∀ b, b ≠ a → b < i.gradient ∨ i.gradient + 4 ≤ b → (t.croft i.croft.num).store.get b = (s.croft i.croft.num).store.get b) ∧
      (∀ k, k ≠ i.croft.num → t.croft k = s.croft k) ∧ (∀ k, k ≠ x → t.sess k = s.sess k) ∧
      t = { s with crofts := t.crofts, serve := { s.serve with sessions := t.serve.sessions } } := by
  subst ha hr
  have hexec := exec_microBatchUpdate_some s x [i] off j hj hruns hcopy hleft
  obtain ⟨⟨hframe, hself, hothers⟩, hlines⟩ := clearSums_one s j i
  generalize clearSums [i] ([i].foldl updateOne (s, j)) = u at hexec hframe hself hothers hlines
  obtain ⟨u, j'⟩ := u
  dsimp only at hexec hframe hself hothers hlines
  refine ⟨_, _, hexec, congrArg Session.job (u.sess_modSess_self x _), rfl, rfl, decide_eq_true_iff, ?lfsr, ?weight, ?sum, hlines,
    fun b hb hbout => ?byte, fun k hk => hothers k hk, fun k hk => ?sess, ?frame⟩
  case lfsr => rw [State.modSess_croft, hself, Croft.weightUpdated_lfsr]
  case weight =>
    rw [State.modSess_croft, hself, Croft.weightUpdated_weight _ _ _ hsum hout]
    rfl
  case sum => rw [State.modSess_croft, hself, Croft.weightUpdated_sum _ _ _ hsum]
  case byte => rw [State.modSess_croft, hself, Croft.weightUpdated_other _ _ _ hsum hb hbout]
  case sess =>
    rw [State.sess_modSess_ne _ _ hk, State.sess, hframe]
    rfl
  case frame =>
    rw [State.modSess, State.setSess, hframe]

/-! ### Checkpoints -/

theorem State.writeLine_links (s : State) (l key : Nat) (bytes : List (BitVec 8)) (p : Bool) : (s.writeLine l key bytes p).links = s.links := by
  unfold State.writeLine
  dsimp only
  split
  · rfl
  split <;> rfl

theorem State.writePart_links (s : State) (l o key : Nat) (bytes : List (BitVec 8)) : (s.writePart l o key bytes).links = s.links := by
  have htick : (if 7 ≤ (s.lineCode l).errors then s.tick else s).links = s.links := by split <;> rfl
  unfold State.writePart
  extract_lets k merge t keep
  have hkeep (u : State) : (keep u).links = u.links := State.writeLine_links _ _ _ _ _
  split
  · rfl
  split
  · rfl
  split
  case h_4 => exact (hkeep t).trans htick
  case h_5 => exact (hkeep _).trans ((State.poisonLine_links t l).trans htick)
  all_goals exact (State.writeLine_links _ _ _ _ _).trans htick

theorem State.writeBytes_links (s : State) (a key : Nat) (bytes : List (BitVec 8)) : (s.writeBytes a key bytes).links = s.links := by
  unfold State.writeBytes
  have hpart (t : State) (l lo : Nat) (part : List (BitVec 8)) :
      (if part.length = 64 then t.writeLine l key part false else t.writePart l lo key part).links = t.links := by
    split
    · exact State.writeLine_links _ _ _ _ _
    · exact State.writePart_links _ _ _ _ _
  exact foldl_keeps State.links _ _ s fun t i => hpart t _ _ _

/-- From `s` to `t` only the stacks, registers and interrupts have moved. -/
structure StacksOnly (s t : State) : Prop where
  mem : MemStep s t
  links : t.links = s.links

theorem StacksOnly.refl (s : State) : StacksOnly s s := ⟨.refl s, rfl⟩

theorem StacksOnly.trans {s t u : State} (a : StacksOnly s t) (b : StacksOnly t u) : StacksOnly s u :=
  ⟨a.mem.trans b.mem, b.links.trans a.links⟩

theorem StacksOnly.frame {s t : State} (h : StacksOnly s t) : t = { s with regs := t.regs, stew := t.stew, fresh := t.fresh, hbm := t.hbm } := by
  have hmem := h.mem.eq
  rw [← h.mem.links, h.links] at hmem
  exact hmem

theorem StacksOnly.foldl {α β : Type} (p : β → State) (f : β → α → β) (l : List α) (b : β) (h : ∀ c x, StacksOnly (p c) (p (f c x))) :
    StacksOnly (p b) (p (l.foldl f b)) := by
  induction l generalizing b with
  | nil => exact .refl _
  | cons x l ih => exact (h b x).trans (ih _)

theorem State.writePages_stacks (s : State) (pages : List Nat) (key : Nat) (bytes : List (BitVec 8)) :
    StacksOnly s (s.writePages pages key bytes) :=
  StacksOnly.foldl id _ _ s fun t _ => ⟨State.writeBytes_mem t _ _ _, State.writeBytes_links t _ _ _⟩

theorem State.readPages_stacks (s : State) (pages : List Nat) (key : Nat) : StacksOnly s (s.readPages pages key).1 :=
  StacksOnly.foldl Prod.fst _ _ (s, (⟨[], false⟩ : LineData)) fun a _ => ⟨State.readBytes_mem a.1 _ _ _, State.readBytes_links a.1 _ _ _⟩

theorem State.writeCkpt_stacks (s : State) (key : Nat) (k : CkptSlot) (lines : List (Nat × Nat)) : StacksOnly s (s.writeCkpt key k lines) :=
  (((s.writePages_stacks _ _ _).trans (State.writePages_stacks _ _ _ _)).trans (State.readPages_stacks _ _ _)).trans
    (State.writePages_stacks _ _ _ _)

/-- What a checkpoint of a job holds of its crofts (R497). -/
def State.ckptCrofts (s : State) (j : Job) : List CroftCkpt :=
  j.crofts.map fun n =>
    { croft := n, lfsr := (s.croft n).lfsr
      bytes := (s.croft n).store.filter fun c => (j.lines.filter fun e => e.1 == n).any fun e => c.1 / 256 == e.2 }

/-- A checkpoint slot with a job's newest checkpoint. -/
def State.ckptFilled (s : State) (j : Job) (k : CkptSlot) : CkptSlot :=
  { k with sequence := j.sequence + 1, microBatch := j.done, dataOffset := j.dataOffset, crofts := s.ckptCrofts j }

/-- The checkpoint goes into slot 1. -/
def Job.into1 (j : Job) : Bool := decide (j.slot1.sequence ≤ j.slot0.sequence) && decide (0 < j.slot0.sequence)

/-- A job whose checkpoint is complete. -/
def State.ckptJob (s : State) (j : Job) : Job :=
  { j with
    copying := false, sequence := j.sequence + 1, restarts := 0
    slot0 := if j.into1 then j.slot0 else s.ckptFilled j j.slot0, slot1 := if j.into1 then s.ckptFilled j j.slot1 else j.slot1 }

theorem exec_checkpointDone_none (s : State) (x : Nat) (h : (s.sess x).job = none) : exec (.checkpointDone x) s = .next s := by
  change execCheckpointDone x s = _
  simp only [execCheckpointDone, h]

theorem exec_checkpointDone_some (s : State) (x : Nat) (j : Job) (hj : (s.sess x).job = some j) (hcopy : j.copying = true) :
    exec (.checkpointDone x) s = .next ((s.writeCkpt (keyTenant (s.sess x).tenant)
      (s.ckptFilled j (if j.into1 then j.slot1 else j.slot0)) j.lines).modSess x fun v =>
        { v with readySince := if j.sequence = 0 then s.hubTime (v.window / 4) else v.readySince, job := some (s.ckptJob j) }) := by
  change execCheckpointDone x s = _
  simp only [execCheckpointDone, hj]
  exact if_neg (by simp [hcopy])

theorem State.mem_ckptCrofts (s : State) (j : Job) (e : CroftCkpt) (he : e ∈ s.ckptCrofts j) :
    e.lfsr = (s.croft e.croft).lfsr ∧ ∀ c ∈ (s.croft e.croft).store, c ∈ e.bytes ↔ (e.croft, c.1 / 256) ∈ j.lines := by
  obtain ⟨n, -, rfl⟩ := List.mem_map.mp he
  refine ⟨rfl, fun c hc => ?_⟩
  have hline : ((j.lines.filter fun e => e.1 == n).any fun e => c.1 / 256 == e.2) = true ↔ (n, c.1 / 256) ∈ j.lines := by
    rw [List.any_eq_true]
    constructor
    · rintro ⟨⟨m, l⟩, hmem, hl⟩
      obtain ⟨hmem, hm⟩ := List.mem_filter.mp hmem
      rw [← beq_iff_eq.mp hm, beq_iff_eq.mp hl]
      exact hmem
    · exact fun hmem => ⟨_, List.mem_filter.mpr ⟨hmem, beq_self_eq_true _⟩, beq_self_eq_true _⟩
  rw [List.mem_filter, hline]
  exact and_iff_right hc

/-- A finished checkpoint is in the slot that does not hold the newest one (R497, R498). -/
theorem checkpointDone_copies (s : State) (x : Nat) (j : Job) (hj : (s.sess x).job = some j) (hcopy : j.copying = true) :
    ∃ t j', exec (.checkpointDone x) s = .next t ∧ (t.sess x).job = some j' ∧
      j'.copying = false ∧ j'.sequence = j.sequence + 1 ∧
      (∃ k, (k = j'.slot0 ∧ j'.slot1 = j.slot1 ∨ k = j'.slot1 ∧ j'.slot0 = j.slot0) ∧ k.sequence = j.sequence + 1 ∧
        k.microBatch = j.done ∧ k.dataOffset = j.dataOffset ∧ k.crofts.map (·.croft) = j.crofts ∧
        ∀ e ∈ k.crofts, e.lfsr = (s.croft e.croft).lfsr ∧
          ∀ c ∈ (s.croft e.croft).store, c ∈ e.bytes ↔ (e.croft, c.1 / 256) ∈ j.lines) ∧
      (j.slot1.sequence < j.slot0.sequence → j'.slot0 = j.slot0) ∧ (j.slot0.sequence < j.slot1.sequence → j'.slot1 = j.slot1) ∧
      (∀ k, k ≠ x → t.sess k = s.sess k) ∧
      t = { s with regs := t.regs, hbm := t.hbm, stew := t.stew, fresh := t.fresh, serve := { s.serve with sessions := t.serve.sessions } } := by
  have hexec := exec_checkpointDone_some s x j hj hcopy
  have hframe := (s.writeCkpt_stacks (keyTenant (s.sess x).tenant) (s.ckptFilled j (if j.into1 then j.slot1 else j.slot0)) j.lines).frame
  generalize s.writeCkpt (keyTenant (s.sess x).tenant) (s.ckptFilled j (if j.into1 then j.slot1 else j.slot0)) j.lines = u at hexec hframe
  refine ⟨_, s.ckptJob j, hexec, congrArg Session.job (u.sess_modSess_self x _), rfl, rfl, ?slot, fun h => if_pos ?_, fun h => if_neg ?_,
    fun k hk => ?sess, ?frame⟩
  case slot =>
    refine ⟨s.ckptFilled j (if j.into1 then j.slot1 else j.slot0), ?_, rfl, rfl, rfl, ?_, fun e he => s.mem_ckptCrofts j e he⟩
    · cases h : j.into1 with
      | true => exact .inr ⟨(if_pos h).symm, if_pos h⟩
      | false => exact .inl ⟨(if_neg (by simp [h])).symm, if_neg (by simp [h])⟩
    · exact List.map_map.trans (List.map_id _)
  case sess =>
    rw [State.sess_modSess_ne _ _ hk, State.sess, hframe]
    rfl
  case frame => rw [State.modSess, State.setSess, hframe]
  · simp [Job.into1]
    omega
  · simp [Job.into1]
    omega

/-- Settles O45: transposed windows row by row, one update through its croft and its job, and a checkpoint by its slots. -/
theorem transposedWindowsAndUpdates : Obligations.TransposedWindowsAndUpdates := by
  unfold Obligations.TransposedWindowsAndUpdates
  intro s w n slot x i off hn hslot
  subst hn hslot
  refine ⟨fun h => exec_transposedWindow_bad s w h, fun m hok hm hstop hstate hcast hheld => ?serves, fun hok h => ?zero,
    fun j hj hruns hcopy hleft a ha hsum hout r hr => ?update, fun j hj h => exec_microBatchUpdate_copying s x _ off j hj h,
    fun j hj h => checkpointDone_copies s x j hj h, fun h => ⟨exec_checkpointDone_none s x h, exec_microBatchUpdate_none s x _ off h⟩⟩
  case serves => exact transposedWindow_serves s w m hok hm hstop hstate hcast hheld
  case zero =>
    refine ⟨_, exec_transposedWindow_zero hok h, ?_, rfl⟩
    rw [State.zeroRows, State.croft_modCroft_self]
    exact tfind_tdrop_self _ _
  case update => exact microBatchUpdate_one s x i off j hj hruns hcopy hleft a ha hsum hout r hr

end Sys2Proof.Machine
end

section
/-!
What a mould that leaves service leaves behind: its slot is held, its stand-ins are gone, and few registers move (R139, R140).
-/
namespace Sys2Proof.Machine

theorem Croft.fencedOff_mould (c : Croft) (m : Nat) :
    c.fencedOff.mould m = { c.mould m with cast := none, castWaiting := false, spareWaiting := [] } := by
  obtain h | ⟨h, h'⟩ := tget_tmap freshMould (fun _ x => { x with cast := none, castWaiting := false, spareWaiting := [] }) c.moulds m
  · exact h
  · refine h.trans ?_
    have hfresh : c.mould m = freshMould m := h'
    rw [hfresh]
    rfl

/-- From `s` to `t` croft `n` may have lost windows and slots of moulds, its casts and its service: what it holds, and the states and
stand-ins of its moulds, are as they were, and of the registers only its error record and its count of suspect steps have moved. -/
structure SlotTaken (s t : State) (n : Nat) : Prop where
  held : ∀ k ∈ (s.croft n).held, k ∈ (t.croft n).held
  state : ∀ m, (t.mould n m).state = (s.mould n m).state
  standins : ∀ m, (t.mould n m).standins = (s.mould n m).standins
  regs : ∀ a, a ∉ errorRegs (.croft n) → a ≠ (Page.croft n).base + 0x108 → t.regAt a = s.regAt a

theorem SlotTaken.refl (s : State) (n : Nat) : SlotTaken s s n := ⟨fun _ h => h, fun _ => rfl, fun _ => rfl, fun _ _ _ => rfl⟩

theorem SlotTaken.trans {s t u : State} {n : Nat} (a : SlotTaken s t n) (b : SlotTaken t u n) : SlotTaken s u n where
  held k h := b.held k (a.held k h)
  state m := (b.state m).trans (a.state m)
  standins m := (b.standins m).trans (a.standins m)
  regs x h h' := (b.regs x h h').trans (a.regs x h h')

/-- A change of the croft that leaves what it holds and its moulds' states and stand-ins. -/
theorem State.modCroft_slotTaken (s : State) (n : Nat) (f : Croft → Croft) (hheld : ∀ c : Croft, ∀ k ∈ c.held, k ∈ (f c).held)
    (hmould : ∀ c m, ((f c).mould m).state = (c.mould m).state ∧ ((f c).mould m).standins = (c.mould m).standins) :
    SlotTaken s (s.modCroft n f) n := by
  refine ⟨fun k h => ?_, fun m => ?_, fun m => ?_, fun _ _ _ => rfl⟩
  · rw [State.croft_modCroft_self]
    exact hheld _ k h
  · rw [State.mould, State.croft_modCroft_self]
    exact (hmould _ m).1
  · rw [State.mould, State.croft_modCroft_self]
    exact (hmould _ m).2

theorem SlotTaken.of_crofts {s t : State} {n : Nat} (hcroft : t.croft n = s.croft n)
    (hregs : ∀ a, a ∉ errorRegs (.croft n) → a ≠ (Page.croft n).base + 0x108 → t.regAt a = s.regAt a) : SlotTaken s t n := by
  refine ⟨fun k h => by rwa [hcroft], fun m => ?_, fun m => ?_, hregs⟩ <;> rw [State.mould, hcroft, State.mould]

theorem State.suspectCounted_slotTaken (s : State) (x : Step) (n i : Nat) : SlotTaken s (s.suspectCounted x n i) n := by
  have hgather (u : State) : SlotTaken u (u.gatherMark n i .suspect) n := by
    refine u.modCroft_slotTaken n _ (fun c k h => ?_) fun c m => ?_
    · split <;> exact h
    · split <;> exact ⟨rfl, rfl⟩
  unfold State.suspectCounted
  split
  · exact hgather s
  · refine SlotTaken.trans (.of_crofts (State.bump_croft _ _ _ _ _) fun a _ h => ?_) (hgather _)
    exact (State.regAt_bump _ _ _ _ _).trans (if_neg h)

theorem State.markSuspect_slotTaken (s : State) (i n : Nat) (m : Option Nat) : SlotTaken s (s.markSuspect i n m) n := by
  rcases h : s.findStep i with _ | x
  · rw [State.markSuspect_none h]
    exact .refl s n
  · rw [State.markSuspect_found h]
    exact (s.suspectCounted_slotTaken x n i).trans (.of_crofts rfl fun _ _ _ => rfl)

theorem State.dropWindow_slotTaken (s : State) (n slot : Nat) : SlotTaken s (s.dropWindow n slot) n := by
  unfold State.dropWindow
  split
  next w hw =>
    split
    next => exact .refl s n
    next =>
      exact (s.modCroft_slotTaken n (fun c => { c with windows := tdrop c.windows slot }) (fun _ _ h => h) fun _ _ => ⟨rfl, rfl⟩).trans
        (State.markSuspect_slotTaken _ _ _ _)
  next => exact .refl s n

theorem Fenced.slotTaken {s t : State} {n : Nat} (h : Fenced s t n) : SlotTaken s t n := by
  obtain hc | hc := h.croft
  · exact .of_crofts hc fun a ha _ => h.regs a ha
  · refine ⟨fun k hk => ?_, fun m => ?_, fun m => ?_, fun a ha _ => h.regs a ha⟩
    · rw [hc]
      exact hk
    · rw [State.mould, hc, Croft.fencedOff_mould, State.mould]
    · rw [State.mould, hc, Croft.fencedOff_mould, State.mould]

/-- A mould that takes a slot as a reserve (R79, R86). -/
def Mould.reserved (x : Mould) (slot : Nat) : Mould := { x with slot := some slot, castWaiting := true, castRestores := true, reserveOk := false }

theorem State.mapReserve_slotTaken (s : State) (n slot : Nat) : SlotTaken s (s.mapReserve n slot) n := by
  unfold State.mapReserve
  split
  next m hm =>
    refine s.modCroft_slotTaken n (fun c => c.modMould m fun x => x.reserved slot) (fun _ _ h => h) fun c k => ?_
    rw [Croft.mould_modMould]
    split
    next h => subst h; exact ⟨rfl, rfl⟩
    next => exact ⟨rfl, rfl⟩
  next => exact (s.fence_fenced n).slotTaken

/-- The fields of a mould that leaves service (R139, R489). -/
def Mould.left (x : Mould) (retired : Bool) : Mould :=
  { x with
    slot := none, probe := none, gauging := {}, standins := [], refPending := [], refReady := [], spareWaiting := []
    castWaiting := false, state := if retired then .retired else x.state }

theorem State.slotLeft_eq (s : State) (n slot m : Nat) (retired : Bool) : s.slotLeft n slot m retired =
    (((s.dropWindow n slot).modMould n m (·.left retired)).modCroft n (·.clearSlots)).holdSlot n slot := rfl

theorem State.mem_holdSlot (s : State) (n slot : Nat) : slot ∈ ((s.holdSlot n slot).croft n).held := by
  rw [State.holdSlot, State.croft_modCroft_self]
  split
  next h => exact h
  next => exact List.mem_append_right _ (List.mem_singleton.mpr rfl)

theorem State.holdSlot_mould (s : State) (n slot m : Nat) : (s.holdSlot n slot).mould n m = s.mould n m := by
  rw [State.mould, State.holdSlot, State.croft_modCroft_self]
  split <;> rfl

/-- A mould that leaves service has its slot held, has no stand-ins, and is RETIRED where it is to be. -/
theorem State.leaveService_left (s : State) (n slot m : Nat) (retired : Bool) (h : (s.croft n).holding slot = some m) :
    slot ∈ ((s.leaveService n slot retired).croft n).held ∧ ((s.leaveService n slot retired).mould n m).standins = [] ∧
      ((s.leaveService n slot retired).mould n m).state = if retired then .retired else (s.mould n m).state := by
  have hreserve := (s.slotLeft n slot m retired).mapReserve_slotTaken n slot
  have hmould : (s.slotLeft n slot m retired).mould n m = ((s.dropWindow n slot).mould n m).left retired := by
    rw [s.slotLeft_eq n slot m retired, State.holdSlot_mould, State.mould, State.croft_modCroft_self]
    exact State.mould_modMould_self _ n m _
  rw [s.leaveService_holding n slot retired m h]
  refine ⟨hreserve.held slot (State.mem_holdSlot _ n slot), ?_, ?_⟩
  · rw [hreserve.standins, hmould]
    rfl
  · rw [hreserve.state, hmould, Mould.left, (s.dropWindow_slotTaken n slot).state]

/-- Of the registers, leaving service moves the croft's error record and its count of suspect steps. -/
theorem State.leaveService_regAt (s : State) (n slot : Nat) (retired : Bool) (a : Nat) (ha : a ∉ errorRegs (.croft n))
    (ha' : a ≠ (Page.croft n).base + 0x108) : (s.leaveService n slot retired).regAt a = s.regAt a := by
  rcases h : (s.croft n).holding slot with _ | m
  · simp only [State.leaveService, h]
  · rw [s.leaveService_holding n slot retired m h]
    exact ((State.mapReserve_slotTaken _ n slot).regs a ha ha').trans ((s.dropWindow_slotTaken n slot).regs a ha ha')

end Sys2Proof.Machine
end

section
/-!
Verdicts of probes (R131, R133, R139, R495, R496).
-/
namespace Sys2Proof.Machine

/-! ### What a probe runs -/

/-- A state whose array and probe area a probe has used (R184, R495). -/
def State.probed (s : State) (n : Nat) (vectors : List (Nat × PackEntry)) : State :=
  (s.spend ((64 + 2 * vectors.length) * passEnergy 1024)).modCroft n fun c => c.probeArea vectors

theorem exec_probeVerdict (s : State) (c : CroftAt) (m : PhysMould) (cols : List ColumnProbe) (packs : List PackPass) (p : Probe)
    (hp : (s.mould c.num m.val).probe = some p) (hd : p.decided = false) :
    exec (.probeVerdict c m cols packs) s = .next
      ((s.probed c.num (packVectors p.pack (s.mould c.num m.val) c.num m.val (s.croft c.num).theta)).verdict c.num m.val
        ((s.mould c.num m.val).located (s.croft c.num).theta cols)
        ((s.mould c.num m.val).packFail (s.croft c.num).theta
          (packVectors p.pack (s.mould c.num m.val) c.num m.val (s.croft c.num).theta) packs)) := by
  change execProbeVerdict c m cols packs s = _
  simp only [execProbeVerdict, hp]
  exact if_neg (by simp [hd])

/-- From `s` to `u` the croft's moulds, what it holds, the registers, the lockhouse and the clock have stayed. -/
structure ProbeKeeps (s u : State) (n : Nat) : Prop where
  moulds : (u.croft n).moulds = (s.croft n).moulds
  held : (u.croft n).held = (s.croft n).held
  lock : u.lock = s.lock
  clock : u.clock = s.clock

theorem State.probeArea_keeps (s : State) (n fj : Nat) (vectors : List (Nat × PackEntry)) :
    ProbeKeeps s ((s.spend fj).modCroft n fun c => c.probeArea vectors) n := by
  refine ⟨?_, ?_, rfl, rfl⟩ <;> rw [State.croft_modCroft_self] <;> rfl

theorem State.probeArea_regAt (s : State) (n fj : Nat) (vectors : List (Nat × PackEntry)) (a : Nat) :
    ((s.spend fj).modCroft n fun c => c.probeArea vectors).regAt a = s.regAt a := rfl

theorem State.probed_keeps (s : State) (n : Nat) (vectors : List (Nat × PackEntry)) : ProbeKeeps s (s.probed n vectors) n :=
  s.probeArea_keeps n _ vectors

theorem State.probed_reg (s : State) (n : Nat) (vectors : List (Nat × PackEntry)) (p : Page) (off : Nat) :
    (s.probed n vectors).reg p off = s.reg p off := s.probeArea_regAt n _ vectors _

theorem ProbeKeeps.trans {s t u : State} {n : Nat} (a : ProbeKeeps s t n) (b : ProbeKeeps t u n) : ProbeKeeps s u n :=
  ⟨b.moulds.trans a.moulds, b.held.trans a.held, b.lock.trans a.lock, b.clock.trans a.clock⟩

theorem State.setReg_keeps (s : State) (p : Page) (off : Nat) (v : Word) (n : Nat) : ProbeKeeps s (s.setReg p off v) n :=
  ⟨rfl, rfl, rfl, rfl⟩

theorem State.bumpCroft_keeps (s : State) (c off k n : Nat) : ProbeKeeps s (s.bumpCroft c off k) n := s.setReg_keeps _ _ _ n

section Keeps
variable {s u : State} {n : Nat} (h : ProbeKeeps s u n)
include h

theorem ProbeKeeps.mould (m : Nat) : u.mould n m = s.mould n m := by rw [State.mould, Croft.mould, h.moulds, State.mould, Croft.mould]

theorem ProbeKeeps.holding (k : Nat) : (u.croft n).holding k = (s.croft n).holding k := by
  simp only [Croft.holding, Croft.mould, h.moulds]

theorem ProbeKeeps.reeveTime (d : Nat) : u.reeveTime d = s.reeveTime d := by rw [State.reeveTime, h.clock, State.reeveTime]

theorem ProbeKeeps.standinCount : (u.croft n).standinCount = (s.croft n).standinCount := by
  rw [Croft.standinCount, h.moulds, Croft.standinCount]

end Keeps

/-! ### Counted verdicts -/

/-- The verdicts of the last 10 s before this one (R139). -/
def State.recentVerdicts (s : State) (n m : Nat) : List Nat :=
  (s.mould n m).verdicts.filter fun t => decide (s.reeveTime (croftDie n) ≤ t + 10000000000)

/-- A mould whose probe has ended with a verdict at `now`. -/
def Mould.judged (x : Mould) (recent : List Nat) : Mould := { x with verdicts := recent, probe := none }

theorem State.countVerdict_eq (s : State) (n m k : Nat) (hk : (s.mould n m).slot = some k) :
    s.countVerdict n m =
      if 3 ≤ (s.recentVerdicts n m ++ [s.reeveTime (croftDie n)]).length then
        (s.modMould n m (·.judged (s.recentVerdicts n m ++ [s.reeveTime (croftDie n)]))).leaveService n k false
      else s.modMould n m (·.judged (s.recentVerdicts n m ++ [s.reeveTime (croftDie n)])) := by
  simp only [State.countVerdict, hk]
  rfl

theorem State.countVerdict_regAt (s : State) (n m a : Nat) (ha : a ∉ errorRegs (.croft n)) (ha' : a ≠ (Page.croft n).base + 0x108) :
    (s.countVerdict n m).regAt a = s.regAt a := by
  rcases hk : (s.mould n m).slot with _ | k
  · simp only [State.countVerdict, hk]
    rfl
  · rw [s.countVerdict_eq n m k hk]
    split
    · exact State.leaveService_regAt _ n k false a ha ha'
    · rfl

/-- A verdict that is not the third ends the probe alone. -/
theorem State.countVerdict_few (s : State) (n m k : Nat) (hk : (s.mould n m).slot = some k) (h : (s.recentVerdicts n m).length < 2) :
    ((s.countVerdict n m).mould n m).probe = none ∧ ((s.countVerdict n m).mould n m).slot = some k ∧
      ((s.countVerdict n m).croft n).held = (s.croft n).held := by
  rw [s.countVerdict_eq n m k hk, if_neg (by rw [List.length_append, List.length_singleton]; omega), State.mould_modMould_self]
  refine ⟨rfl, hk, ?_⟩
  rw [State.modMould, State.croft_modCroft_self]
  rfl

/-- The third within 10 s takes the mould out of service (R139). -/
theorem State.countVerdict_third (s : State) (n m k : Nat) (hk : (s.mould n m).slot = some k) (h : 2 ≤ (s.recentVerdicts n m).length)
    (hm : (s.croft n).holding k = some m) : k ∈ ((s.countVerdict n m).croft n).held := by
  rw [s.countVerdict_eq n m k hk, if_pos (by rw [List.length_append, List.length_singleton]; omega)]
  refine (State.leaveService_left _ n k m false ?_).1
  have hslots := (s.modMould_quiet n m n (·.judged (s.recentVerdicts n m ++ [s.reeveTime (croftDie n)])) fun _ => rfl).2.holding k
  exact hslots.trans hm

/-! ### Registers -/

/-- The counters of verdicts are neither the croft's error record nor its count of suspect steps. -/
theorem verdictReg_apart (c : CroftAt) (off : Nat) (hoff : off < 0x1000) (h : 0x108 < off) :
    (Page.croft c.num).base + off ∉ errorRegs (.croft c.num) ∧ (Page.croft c.num).base + off ≠ (Page.croft c.num).base + 0x108 := by
  simp only [errorRegs, List.mem_cons, List.not_mem_nil, or_false, Page.base, dieBase]
  omega

theorem dieReg_apart (c : CroftAt) (off : Nat) (hoff : off < 0x1000) :
    (Page.die c.die.val).base + 0x120 ∉ errorRegs (.croft c.num) ∧ (Page.die c.die.val).base + 0x120 ≠ (Page.croft c.num).base + off := by
  have hdie : c.num / 2048 = c.die.val := croftDie_num c
  have hbase : (Page.croft c.num).base = dieBase c.die.val + (256 + c.num % 2048) * 0x1000 := by rw [Page.base, hdie]
  simp only [errorRegs, List.mem_cons, List.not_mem_nil, or_false, hbase]
  simp only [Page.base, dieBase]
  omega

/-! ### Verdicts without a located column -/

/-- The register that a pack's failing check leaves (R496). -/
def packFailWord (n m i : Nat) : Word := Word.put 0 12 i ||| Word.put 16 5 m ||| Word.put 24 6 (croftCol n) ||| Word.put 32 5 (croftRow n)

theorem packFailWord_fields (n m i : Nat) (hm : m < 32) (hi : i < 4096) :
    (packFailWord n m i).field 0 12 = i ∧ (packFailWord n m i).field 16 5 = m := by
  unfold packFailWord
  constructor
  · simp only [Word.field_or, Word.field_put 0 12 _ (by decide), Word.field_put_ne 16 5 _ 0 12 (.inl (by decide)),
      Word.field_put_ne 24 6 _ 0 12 (.inl (by decide)), Word.field_put_ne 32 5 _ 0 12 (.inl (by decide)), Nat.or_zero]
    omega
  · simp only [Word.field_or, Word.field_put_ne 0 12 _ 16 5 (.inr (by decide)), Word.field_put 16 5 _ (by decide),
      Word.field_put_ne 24 6 _ 16 5 (.inl (by decide)), Word.field_put_ne 32 5 _ 16 5 (.inl (by decide)), Nat.or_zero, Nat.zero_or]
    omega

theorem State.verdict_clear (s : State) (n m : Nat) : s.verdict n m [] none = (s.bumpCroft n 0x120).countVerdict n m := rfl

theorem State.verdict_unlocated (s : State) (n m i : Nat) :
    s.verdict n m [] (some i) = ((s.bumpCroft n 0x128).setReg (.die (croftDie n)) 0x120 (packFailWord n m i)).countVerdict n m := rfl

/-- What a verdict without a located column does to its mould. -/
theorem State.verdict_counts (s : State) (n m : Nat) (pack : Option Nat) (hn : (Page.die (croftDie n)).base + 0x120 ≠ (Page.croft n).base + 0x130) :
    ∃ u, ProbeKeeps s u n ∧ s.verdict n m [] pack = u.countVerdict n m ∧
      u.regAt ((Page.croft n).base + 0x130) = s.regAt ((Page.croft n).base + 0x130) := by
  cases pack with
  | none => exact ⟨_, s.bumpCroft_keeps n 0x120 1 n, s.verdict_clear n m, (State.regAt_bump _ _ _ _ _).trans (if_neg (by omega))⟩
  | some i =>
    refine ⟨_, (s.bumpCroft_keeps n 0x128 1 n).trans (State.setReg_keeps _ _ _ _ n), s.verdict_unlocated n m i, ?_⟩
    rw [State.regAt_setReg, if_neg (Ne.symm hn)]
    exact (State.regAt_bump _ _ _ _ _).trans (if_neg (by omega))

section Probe
variable (s : State) (c : CroftAt) (m : PhysMould) (cols : List ColumnProbe) (packs : List PackPass) (p : Probe)
  (hp : (s.mould c.num m.val).probe = some p) (hd : p.decided = false)
include hp hd

/-- A CLEAR verdict is counted (R133). -/
theorem probe_clear : ∃ t, exec (.probeVerdict c m [] []) s = .next t ∧
    t.reg (.croft c.num) 0x120 = satAdd (s.reg (.croft c.num) 0x120) 1 ∧
    t.reg (.croft c.num) 0x128 = s.reg (.croft c.num) 0x128 ∧ t.reg (.croft c.num) 0x130 = s.reg (.croft c.num) 0x130 := by
  have hexec := exec_probeVerdict s c m [] [] p hp hd
  have hnone (theta : Int) (vs : List (Nat × PackEntry)) : (s.mould c.num m.val).packFail theta vs [] = none := by
    simp [Mould.packFail]
  rw [hnone] at hexec
  have hverdict (off : Nat) (hoff : off < 0x1000) (h : 0x108 < off) (u : State) :
      ((u.bumpCroft c.num 0x120).countVerdict c.num m.val).reg (.croft c.num) off = (u.bumpCroft c.num 0x120).reg (.croft c.num) off :=
    State.countVerdict_regAt _ _ _ _ (verdictReg_apart c off hoff h).1 (verdictReg_apart c off hoff h).2
  refine ⟨_, hexec, (hverdict 0x120 (by decide) (by decide) _).trans ?_, (hverdict 0x128 (by decide) (by decide) _).trans ?_,
    (hverdict 0x130 (by decide) (by decide) _).trans ?_⟩
  · rw [State.bumpCroft, State.bump, State.reg_setReg_self, State.probed_reg]
  · rw [State.bumpCroft, State.bump, State.reg_setReg_off _ _ _ _ _ (by decide), State.probed_reg]
  · rw [State.bumpCroft, State.bump, State.reg_setReg_off _ _ _ _ _ (by decide), State.probed_reg]

/-- A verdict that locates no column ends the probe; the third within 10 s takes the mould out of service (R139). -/
theorem probe_unlocated (hnone : (s.mould c.num m.val).located (s.croft c.num).theta cols = []) :
    ∃ t, exec (.probeVerdict c m cols packs) s = .next t ∧
      t.reg (.croft c.num) 0x130 = s.reg (.croft c.num) 0x130 ∧ ∀ k, (s.mould c.num m.val).slot = some k →
        (((s.mould c.num m.val).verdicts.filter fun x => decide (s.reeveTime c.die.val ≤ x + 10000000000)).length < 2 →
          (t.mould c.num m.val).probe = none ∧ (t.mould c.num m.val).slot = some k ∧ (t.croft c.num).held = (s.croft c.num).held) ∧
        (2 ≤ ((s.mould c.num m.val).verdicts.filter fun x => decide (s.reeveTime c.die.val ≤ x + 10000000000)).length →
          (s.croft c.num).holding k = some m.val → k ∈ (t.croft c.num).held) := by
  have hexec := exec_probeVerdict s c m cols packs p hp hd
  generalize packVectors p.pack (s.mould c.num m.val) c.num m.val (s.croft c.num).theta = vectors at hexec
  rw [hnone] at hexec
  have hprobed := s.probed_keeps c.num vectors
  obtain ⟨u, hu, hverdict, hreg⟩ := (s.probed c.num vectors).verdict_counts c.num m.val
    ((s.mould c.num m.val).packFail (s.croft c.num).theta vectors packs) (by
      rw [croftDie_num]
      exact (dieReg_apart c 0x130 (by decide)).2)
  have hkeep := hprobed.trans hu
  have hrecent : u.recentVerdicts c.num m.val =
      (s.mould c.num m.val).verdicts.filter fun x => decide (s.reeveTime c.die.val ≤ x + 10000000000) := by
    rw [State.recentVerdicts, hkeep.mould, hkeep.reeveTime, croftDie_num]
  rw [hverdict] at hexec
  refine ⟨_, hexec, ?_, fun k hk => ⟨fun h => ?_, fun h hm => ?_⟩⟩
  · exact (State.countVerdict_regAt _ _ _ _ (verdictReg_apart c 0x130 (by decide) (by decide)).1 (by omega)).trans
      (hreg.trans (s.probed_reg c.num vectors (.croft c.num) 0x130))
  · rw [← hkeep.held]
    exact u.countVerdict_few c.num m.val k (by rw [hkeep.mould, hk]) (by rw [hrecent]; exact h)
  · exact u.countVerdict_third c.num m.val k (by rw [hkeep.mould, hk]) (by rw [hrecent]; exact h) (by rw [hkeep.holding, hm])

/-- A check of the pack that fails twice is counted with its entry and mould (R131, R496). -/
theorem probe_packFails (hnone : (s.mould c.num m.val).located (s.croft c.num).theta cols = []) (i : Nat)
    (hpack : (s.mould c.num m.val).packFail (s.croft c.num).theta
      (packVectors p.pack (s.mould c.num m.val) c.num m.val (s.croft c.num).theta) packs = some i) (hi : i < 4096) :
    ∃ t, exec (.probeVerdict c m cols packs) s = .next t ∧ t.reg (.croft c.num) 0x128 = satAdd (s.reg (.croft c.num) 0x128) 1 ∧
      t.reg (.croft c.num) 0x120 = s.reg (.croft c.num) 0x120 ∧
      (t.reg (.die c.die.val) 0x120).field 0 12 = i ∧ (t.reg (.die c.die.val) 0x120).field 16 5 = m.val := by
  have hexec := exec_probeVerdict s c m cols packs p hp hd
  rw [hnone, hpack, State.verdict_unlocated, croftDie_num] at hexec
  generalize packVectors p.pack (s.mould c.num m.val) c.num m.val (s.croft c.num).theta = vectors at hexec
  have hverdict (off : Nat) (hoff : off < 0x1000) (h : 0x108 < off) (u : State) :
      (u.countVerdict c.num m.val).reg (.croft c.num) off = u.reg (.croft c.num) off :=
    State.countVerdict_regAt _ _ _ _ (verdictReg_apart c off hoff h).1 (verdictReg_apart c off hoff h).2
  have hdie (u : State) : (u.countVerdict c.num m.val).reg (.die c.die.val) 0x120 = u.reg (.die c.die.val) 0x120 :=
    State.countVerdict_regAt _ _ _ _ (dieReg_apart c 0x108 (by decide)).1 (dieReg_apart c 0x108 (by decide)).2
  obtain ⟨h12, h5⟩ := packFailWord_fields c.num m.val i (by omega) hi
  refine ⟨_, hexec, (hverdict 0x128 (by decide) (by decide) _).trans ?_, (hverdict 0x120 (by decide) (by decide) _).trans ?_, ?_, ?_⟩
  · rw [State.reg_setReg_ne _ _ _ _ _ _ (dieReg_apart c 0x128 (by decide)).2.symm, State.bumpCroft, State.bump, State.reg_setReg_self,
      State.probed_reg]
  · rw [State.reg_setReg_ne _ _ _ _ _ _ (dieReg_apart c 0x120 (by decide)).2.symm, State.bumpCroft, State.bump,
      State.reg_setReg_off _ _ _ _ _ (by decide), State.probed_reg]
  · rw [hdie, State.reg_setReg_self, h12]
  · rw [hdie, State.reg_setReg_self, h5]

end Probe

end Sys2Proof.Machine
end

section
/-!
Columns that a probe locates, and stand-in copies that arrive (R114, R132 to R139, R466, R543).
-/
namespace Sys2Proof.Machine

/-! ### Spares and slots -/

theorem tfind_foldl_zip_out {a : Nat} (spares cols : List Nat) (t : Table Nat) (ha : a ∉ spares) :
    tfind ((spares.zip cols).foldl (fun t e => tset t e.1 e.2) t) a = tfind t a := by
  refine List.foldlRecOn (spares.zip cols) _ (motive := fun u => tfind u a = tfind t a) rfl fun u hu e he => ?_
  rw [tfind_tset, if_neg, hu]
  rintro rfl
  exact ha (List.of_mem_zip (a := e.1) (b := e.2) he).1

/-- Each column has the spare it stands beside. -/
theorem tfind_foldl_zip (spares cols : List Nat) (t : Table Nat) (hn : spares.Nodup) (hlen : cols.length ≤ spares.length) (k : Nat)
    (hk : k ∈ cols) : ∃ j ∈ spares, tfind ((spares.zip cols).foldl (fun t e => tset t e.1 e.2) t) j = some k := by
  induction cols generalizing spares t with
  | nil => cases hk
  | cons c cols ih =>
    cases spares with
    | nil => cases hlen
    | cons a spares =>
      obtain ⟨ha, hn⟩ := List.nodup_cons.mp hn
      rw [List.zip_cons_cons, List.foldl_cons]
      obtain rfl | hk := List.mem_cons.mp hk
      · exact ⟨a, List.mem_cons_self, (tfind_foldl_zip_out spares cols _ ha).trans (tfind_tset_self _ _ _)⟩
      · obtain ⟨j, hj, h⟩ := ih spares _ hn (Nat.le_of_succ_le_succ hlen) hk
        exact ⟨j, List.mem_cons_of_mem _ hj, h⟩

theorem Mould.freeSpares_nodup (m : Mould) : m.freeSpares.Nodup := List.nodup_range.filter _

/-- The slots that a croft's stand-ins use. -/
def Croft.usedSlots (c : Croft) : List Nat := c.moulds.flatMap fun e => e.2.standins.map (·.slot)

theorem Croft.usedSlots_length (c : Croft) : c.usedSlots.length = c.standinCount := by
  rw [Croft.usedSlots, List.length_flatMap, Croft.standinCount, ← List.sum_eq_foldl_nat]
  simp only [List.length_map]

/-- The slots that no stand-in uses are the rest of 32, at least (R136). -/
theorem Croft.freeSlots_length (c : Croft) : 32 ≤ c.freeSlots.length + c.standinCount := by
  have hsplit := List.length_eq_length_filter_add (l := List.range 32) fun i => c.moulds.any fun e => e.2.standins.any fun x => x.slot == i
  have hused : ((List.range 32).filter fun i => c.moulds.any fun e => e.2.standins.any fun x => x.slot == i).length ≤ c.usedSlots.length := by
    refine ((List.nodup_range.filter _).subperm fun i hi => ?_).length_le
    have hany := (List.mem_filter.mp hi).2
    simp only [List.any_eq_true, beq_iff_eq] at hany
    obtain ⟨e, he, x, hx, rfl⟩ := hany
    exact List.mem_flatMap.mpr ⟨e, he, List.mem_map_of_mem hx⟩
  rw [List.length_range] at hsplit
  rw [← c.usedSlots_length]
  have hfree : c.freeSlots = (List.range 32).filter fun i => !(c.moulds.any fun e => e.2.standins.any fun x => x.slot == i) := rfl
  rw [hfree]
  omega

/-! ### LOCATED -/

/-- A mould with columns located: their spares and stand-ins, its run discarded (R114, R133). -/
def Mould.stoodIn (y : Mould) (spares cols : List Nat) (standins : List StandIn) (refs : List Nat) (ends : Prop) [Decidable ends] : Mould :=
  let y1 : Mould := { y with
    spareMap := (spares.zip cols).foldl (fun t e => tset t e.1 e.2) y.spareMap
    standins := y.standins ++ standins
    refPending := y.refPending ++ refs
    probe := if ends then none else y.probe.map fun p => { p with decided := true } }
  if cols = [] then y1 else y1.restartRun

section StoodIn
variable (y : Mould) (spares cols : List Nat) (standins : List StandIn) (refs : List Nat) (ends : Prop) [Decidable ends]

theorem Mould.stoodIn_spareMap : (y.stoodIn spares cols standins refs ends).spareMap =
    (spares.zip cols).foldl (fun t e => tset t e.1 e.2) y.spareMap := by
  unfold Mould.stoodIn
  dsimp only
  split <;> rfl

theorem Mould.stoodIn_standins : (y.stoodIn spares cols standins refs ends).standins = y.standins ++ standins := by
  unfold Mould.stoodIn
  dsimp only
  split <;> rfl

theorem Mould.stoodIn_slot : (y.stoodIn spares cols standins refs ends).slot = y.slot := by
  unfold Mould.stoodIn
  dsimp only
  split <;> rfl

end StoodIn

/-- The located columns that a stand-in serves, and the reference columns among them. -/
def standCols (cols : List Nat) : List Nat := cols.filter fun k => decide (k < 258)
def refCols (cols : List Nat) : List Nat := cols.filter fun k => decide (258 ≤ k)

/-- The stand-ins of located columns: each in a free slot of the store (R134). -/
def Croft.newStandIns (c : Croft) (cols : List Nat) : List StandIn :=
  ((standCols cols).zip c.freeSlots).map fun e => { column := e.1, slot := e.2 }

/-- The state with the mould's columns located. -/
def State.stoodIn (s : State) (n m : Nat) (cols : List Nat) : State :=
  s.modMould n m fun y => y.stoodIn (s.mould n m).freeSpares cols ((s.croft n).newStandIns cols) (refCols cols) (standCols cols = [])

theorem State.locate_stands (s : State) (n m : Nat) (cols : List Nat) (hspares : cols.length ≤ (s.mould n m).freeSpares.length)
    (hdebug : s.lock.debugOpen = false) (h8 : (s.mould n m).standins.length + (standCols cols).length ≤ 8)
    (h32 : (s.croft n).standinCount + (standCols cols).length ≤ 32) :
    s.locate n m cols = if standCols cols = [] then
        (s.stoodIn n m cols).wantSpares n m (((s.mould n m).freeSpares.zip cols).map (·.1)) else s.stoodIn n m cols := by
  have hfew : ¬((s.croft n).mould m).freeSpares.length < cols.length := not_lt.mpr hspares
  have hroom : ¬(8 < ((s.croft n).mould m).standins.length + (standCols cols).length ∨
      32 < (s.croft n).standinCount + (standCols cols).length) := not_or.mpr ⟨not_lt.mpr h8, not_lt.mpr h32⟩
  have hopen : ¬(s.lock.debugOpen = true ∧ standCols cols ≠ []) := by simp [hdebug]
  exact (if_neg hfew).trans ((if_neg hopen).trans ((if_neg hroom).trans rfl))

theorem State.locate_retires (s : State) (n m : Nat) (cols : List Nat) (hspares : (s.mould n m).freeSpares.length < cols.length) :
    s.locate n m cols = s.dropMould n m true := if_pos hspares

theorem State.dropMould_regAt (s : State) (n m : Nat) (retired : Bool) (a : Nat) (ha : a ∉ errorRegs (.croft n))
    (ha' : a ≠ (Page.croft n).base + 0x108) : (s.dropMould n m retired).regAt a = s.regAt a := by
  unfold State.dropMould
  split
  · exact s.leaveService_regAt n _ retired a ha ha'
  · rfl

theorem State.wantSpares_regAt (s : State) (n m : Nat) (spares : List Nat) (a : Nat) : (s.wantSpares n m spares).regAt a = s.regAt a := by
  unfold State.wantSpares
  split <;> rfl

theorem State.stoodIn_regAt (s : State) (n m : Nat) (cols : List Nat) (a : Nat) : (s.stoodIn n m cols).regAt a = s.regAt a := rfl

/-- Of the registers, acting on LOCATED moves the croft's error record and its count of suspect steps. -/
theorem State.locate_regAt (s : State) (n m : Nat) (cols : List Nat) (a : Nat) (ha : a ∉ errorRegs (.croft n))
    (ha' : a ≠ (Page.croft n).base + 0x108) : (s.locate n m cols).regAt a = s.regAt a := by
  have hdrop (retired : Bool) := s.dropMould_regAt n m retired a ha ha'
  unfold State.locate
  extract_lets c x stand refs spares standins s1
  split
  · exact hdrop true
  split
  · exact hdrop false
  split
  · exact hdrop false
  split
  · exact State.wantSpares_regAt _ _ _ _ a
  · rfl

/-- A mould whose spares wait to be cast. -/
def Mould.wanting (x : Mould) (spares : List Nat) : Mould := { x with spareWaiting := x.spareWaiting ++ spares, castRestores := true }

theorem State.wantSpares_mould (s : State) (n m : Nat) (spares : List Nat) :
    (s.wantSpares n m spares).mould n m = s.mould n m ∨ (s.wantSpares n m spares).mould n m = (s.mould n m).wanting spares := by
  unfold State.wantSpares
  split
  · exact .inl rfl
  · exact .inr (s.mould_modMould_self n m (·.wanting spares))

/-- The mould after its columns are located, where spares, stand-ins and slots last. -/
theorem State.locate_mould (s : State) (n m : Nat) (cols : List Nat) (hspares : cols.length ≤ (s.mould n m).freeSpares.length)
    (hdebug : s.lock.debugOpen = false) (h8 : (s.mould n m).standins.length + (standCols cols).length ≤ 8)
    (h32 : (s.croft n).standinCount + (standCols cols).length ≤ 32) :
    (∀ k ∈ cols, ∃ j ∈ (s.mould n m).freeSpares, tfind ((s.locate n m cols).mould n m).spareMap j = some k) ∧
      (∀ k ∈ cols, k < 258 → ∃ e ∈ ((s.locate n m cols).mould n m).standins, e.column = k ∧ e.live = false) ∧
      ((s.locate n m cols).mould n m).slot = (s.mould n m).slot := by
  obtain ⟨y, hy, hyspares, hystandins, hyslot⟩ : ∃ y, (s.locate n m cols).mould n m = y ∧
      y.spareMap = ((s.mould n m).freeSpares.zip cols).foldl (fun t e => tset t e.1 e.2) (s.mould n m).spareMap ∧
      y.standins = (s.mould n m).standins ++ (s.croft n).newStandIns cols ∧ y.slot = (s.mould n m).slot := by
    have hmould : (s.stoodIn n m cols).mould n m = (s.mould n m).stoodIn (s.mould n m).freeSpares cols ((s.croft n).newStandIns cols)
        (refCols cols) (standCols cols = []) := s.mould_modMould_self n m _
    refine ⟨_, rfl, ?_⟩
    rw [s.locate_stands n m cols hspares hdebug h8 h32]
    split
    · obtain h | h := (s.stoodIn n m cols).wantSpares_mould n m (((s.mould n m).freeSpares.zip cols).map (·.1)) <;> rw [h, hmould]
      · exact ⟨Mould.stoodIn_spareMap _ _ _ _ _ _, Mould.stoodIn_standins _ _ _ _ _ _, Mould.stoodIn_slot _ _ _ _ _ _⟩
      · exact ⟨Mould.stoodIn_spareMap _ _ _ _ _ _, Mould.stoodIn_standins _ _ _ _ _ _, Mould.stoodIn_slot _ _ _ _ _ _⟩
    · rw [hmould]
      exact ⟨Mould.stoodIn_spareMap _ _ _ _ _ _, Mould.stoodIn_standins _ _ _ _ _ _, Mould.stoodIn_slot _ _ _ _ _ _⟩
  rw [hy]
  refine ⟨fun k hk => ?_, fun k hk hlt => ?_, hyslot⟩
  · rw [hyspares]
    exact tfind_foldl_zip _ _ _ (s.mould n m).freeSpares_nodup hspares k hk
  · have hfree := (s.croft n).freeSlots_length
    have hzip : ((standCols cols).zip (s.croft n).freeSlots).map Prod.fst = standCols cols := List.map_fst_zip (by omega)
    have hstand : k ∈ standCols cols := List.mem_filter.mpr ⟨hk, decide_eq_true hlt⟩
    rw [← hzip] at hstand
    obtain ⟨e, he, rfl⟩ := List.mem_map.mp hstand
    refine ⟨{ column := e.1, slot := e.2 }, ?_, rfl, rfl⟩
    rw [hystandins]
    exact List.mem_append_right _ (List.mem_map_of_mem he)

theorem State.verdict_located (s : State) (n m : Nat) (cols : List Nat) (pack : Option Nat) (h : cols ≠ []) :
    s.verdict n m cols pack = (s.bumpCroft n 0x130 cols.length).locate n m ((s.mould n m).newlyLocated cols) := if_pos h

/-- A LOCATED verdict is counted, and acted on (R133, R139). -/
theorem probe_located (s : State) (c : CroftAt) (m : PhysMould) (cols : List ColumnProbe) (packs : List PackPass) (p : Probe)
    (hp : (s.mould c.num m.val).probe = some p) (hd : p.decided = false)
    (hsome : (s.mould c.num m.val).located (s.croft c.num).theta cols ≠ []) :
    ∃ t, exec (.probeVerdict c m cols packs) s = .next t ∧
      t.reg (.croft c.num) 0x130 =
        satAdd (s.reg (.croft c.num) 0x130) ((s.mould c.num m.val).located (s.croft c.num).theta cols).length ∧
      ∀ new, new = (s.mould c.num m.val).newlyLocated ((s.mould c.num m.val).located (s.croft c.num).theta cols) →
        (new.length ≤ (s.mould c.num m.val).freeSpares.length → s.lock.debugOpen = false →
          (s.mould c.num m.val).standins.length + (new.filter fun k => decide (k < 258)).length ≤ 8 →
          (s.croft c.num).standinCount + (new.filter fun k => decide (k < 258)).length ≤ 32 →
          (∀ k ∈ new, ∃ j ∈ (s.mould c.num m.val).freeSpares, tfind (t.mould c.num m.val).spareMap j = some k) ∧
          (∀ k ∈ new, k < 258 → ∃ e ∈ (t.mould c.num m.val).standins, e.column = k ∧ e.live = false) ∧
          (t.mould c.num m.val).slot = (s.mould c.num m.val).slot) ∧
        ((s.mould c.num m.val).freeSpares.length < new.length → ∀ k,
          (s.croft c.num).holding k = some m.val → (s.mould c.num m.val).slot = some k →
          (t.mould c.num m.val).state = .retired ∧ k ∈ (t.croft c.num).held) := by
  have hexec := exec_probeVerdict s c m cols packs p hp hd
  generalize packVectors p.pack (s.mould c.num m.val) c.num m.val (s.croft c.num).theta = vectors at hexec
  have hprobed := s.probed_keeps c.num vectors
  have hregs := s.probed_reg c.num vectors
  generalize s.probed c.num vectors = u at hexec hprobed hregs
  rw [State.verdict_located _ _ _ _ _ hsome, hprobed.mould] at hexec
  generalize (s.mould c.num m.val).located (s.croft c.num).theta cols = found at hexec
  have hkeep := hprobed.trans (u.bumpCroft_keeps c.num 0x130 found.length c.num)
  have hcount : (u.bumpCroft c.num 0x130 found.length).reg (.croft c.num) 0x130 = satAdd (s.reg (.croft c.num) 0x130) found.length := by
    rw [State.bumpCroft, State.bump, State.reg_setReg_self, hregs]
  generalize u.bumpCroft c.num 0x130 found.length = v at hexec hkeep hcount
  refine ⟨_, hexec, ?_, fun new hnew => ⟨fun hspares hdebug h8 h32 => ?_, fun hspares k hk hslot => ?_⟩⟩
  · exact (State.locate_regAt _ _ _ _ _ (verdictReg_apart c 0x130 (by decide) (by decide)).1 (by omega)).trans hcount
  · subst hnew
    rw [← hkeep.mould]
    refine v.locate_mould c.num m.val _ ?_ ?_ ?_ ?_
    · rwa [hkeep.mould]
    · rwa [hkeep.lock]
    · rwa [hkeep.mould]
    · rwa [hkeep.standinCount, hkeep.mould]
  · subst hnew
    have hretires := v.locate_retires c.num m.val ((s.mould c.num m.val).newlyLocated found) (by rwa [hkeep.mould])
    have hdrop : v.dropMould c.num m.val true = v.leaveService c.num k true := by
      simp only [State.dropMould, hkeep.mould, hslot]
    obtain ⟨hheld, -, hstate⟩ := v.leaveService_left c.num k m.val true ((hkeep.holding k).trans hk)
    rw [hretires, hdrop]
    exact ⟨hstate, hheld⟩

/-! ### Copies that arrive -/

/-- A stand-in whose copy has arrived. -/
def StandIn.arrived (e : StandIn) (held : List (Nat × Int)) : StandIn := { e with live := true, refetch := false, copy := held }

/-- A mould with a column's copy arrived; a run begun before it starts again (R114, R134). -/
def Mould.copied (x : Mould) (col : Nat) (held : List (Nat × Int)) (again : Bool) : Mould :=
  let y : Mould := { x with standins := x.standins.map fun e => if e.column = col then e.arrived held else e }
  if again then y else y.restartRun

/-- With the last copy the probe ends (R132). -/
def Mould.copiesDone (y : Mould) : Mould :=
  if y.standins.all (·.live) then { y with probe := if (y.probe.map (·.decided)).getD false then none else y.probe } else y

/-- A state with a copy in its slot. -/
def State.copied (s : State) (n m : Nat) (y : Mould) (slot : Nat) (held : List (Nat × Int)) : State :=
  s.modCroft n fun c => (c.setMould m y.copiesDone).writeSlot slot held

section Copy
variable (s : State) (c : CroftAt) (m : PhysMould) (col : Fin 262) (copy : List (Nat × Int)) (e : StandIn)
  (he : (s.mould c.num m.val).standins.find? (fun e => e.column == col.val && (!e.live || e.refetch)) = some e) (hgen : s.castGen ≠ none)
include he hgen

theorem exec_standinCopyArrive_poisoned : exec (.standinCopyArrive c m col copy true) s = .next (s.dropMould c.num m.val false) := by
  change execStandinCopyArrive c m col copy true s = _
  simp only [execStandinCopyArrive, he]
  rw [if_neg hgen, if_pos (.inl trivial)]

theorem exec_standinCopyArrive (hdebug : s.lock.debugOpen = false) :
    exec (.standinCopyArrive c m col copy false) s = .next
      (let y := (s.mould c.num m.val).copied col.val (standinCopy col.val copy) e.live
       let s1 := s.copied c.num m.val y e.slot (standinCopy col.val copy)
       if y.standins.all (·.live) then s1.wantSpares c.num m.val y.pendingSpares else s1) := by
  change execStandinCopyArrive c m col copy false s = _
  simp only [execStandinCopyArrive, he]
  rw [if_neg hgen, if_neg (by simp [hdebug])]
  rfl

end Copy

theorem Mould.copied_standins (x : Mould) (col : Nat) (held : List (Nat × Int)) (again : Bool) :
    (x.copied col held again).standins = x.standins.map fun e => if e.column = col then e.arrived held else e := by
  cases again <;> rfl

theorem Mould.copied_probe (x : Mould) (col : Nat) (held : List (Nat × Int)) (again : Bool) : (x.copied col held again).probe = x.probe := by
  cases again <;> rfl

theorem Mould.copiesDone_standins (y : Mould) : y.copiesDone.standins = y.standins := by
  unfold Mould.copiesDone
  split <;> rfl

theorem Mould.copiesDone_run (y : Mould) : y.copiesDone.gauging = y.gauging := by
  unfold Mould.copiesDone
  split <;> rfl

theorem Croft.writeSlot_store (c : Croft) (m : Nat) (y : Mould) (slot : Nat) (held : List (Nat × Int)) :
    ((c.setMould m y).writeSlot slot held).store = Memory.setBytes c.store (0x10000 + 512 * slot) (copyBytes held) := by
  rw [Croft.writeSlot, Croft.setMould]

theorem State.wantSpares_only (s : State) (n m : Nat) (spares : List Nat) :
    CroftsOnly s (s.wantSpares n m spares) ∧ (∀ k, k ≠ n → (s.wantSpares n m spares).croft k = s.croft k) ∧
      ((s.wantSpares n m spares).croft n).store = (s.croft n).store := by
  unfold State.wantSpares
  split
  · exact ⟨.refl s, fun _ _ => rfl, rfl⟩
  · refine ⟨s.modCroft_only _ _, fun k hk => State.croft_modCroft_ne _ _ hk, ?_⟩
    rw [State.modMould, State.croft_modCroft_self]
    rfl

/-- A copy that arrives is in its slot and live; with the last one the probe ends (R114, R132, R134). -/
theorem standinCopy_arrives (s : State) (c : CroftAt) (m : PhysMould) (col : Fin 262) (copy : List (Nat × Int)) (e : StandIn)
    (he : (s.mould c.num m.val).standins.find? (fun e => e.column == col.val && (!e.live || e.refetch)) = some e) (hgen : s.castGen ≠ none)
    (hdebug : s.lock.debugOpen = false) :
    ∃ t, exec (.standinCopyArrive c m col copy false) s = .next t ∧
      (∀ x ∈ (t.mould c.num m.val).standins, x.column = col.val →
        x.live = true ∧ x.refetch = false ∧ x.copy = standinCopy col.val copy) ∧
      (∀ x ∈ (s.mould c.num m.val).standins, x.column ≠ col.val → x ∈ (t.mould c.num m.val).standins) ∧
      (e.live = false → (t.mould c.num m.val).gauging.run = {}) ∧
      (t.mould c.num m.val).standins.map (·.column) = (s.mould c.num m.val).standins.map (·.column) ∧
      (t.croft c.num).store = Memory.setBytes (s.croft c.num).store (0x10000 + 512 * e.slot) (copyBytes (standinCopy col.val copy)) ∧
      ((∀ x ∈ (s.mould c.num m.val).standins, x.live = true ∨ x.column = col.val) → (s.mould c.num m.val).probe.map (·.decided) = some true →
        (t.mould c.num m.val).probe = none) ∧
      (∀ k, k ≠ c.num → t.croft k = s.croft k) ∧ t = { s with crofts := t.crofts } := by
  have hexec := exec_standinCopyArrive s c m col copy e he hgen hdebug
  dsimp only at hexec
  generalize hx : s.mould c.num m.val = x at hexec
  generalize hheld : standinCopy col.val copy = held at hexec
  generalize hy : x.copied col.val held e.live = y at hexec
  have hcroft : (s.copied c.num m.val y e.slot held).croft c.num = ((s.croft c.num).setMould m.val y.copiesDone).writeSlot e.slot held :=
    s.croft_modCroft_self _ _
  have hmould : (s.copied c.num m.val y e.slot held).mould c.num m.val = y.copiesDone := by
    rw [State.mould, hcroft]
    exact tget_tput_self _ _ _ _
  obtain ⟨t, ht, hstandins, hrun, hprobe, hstore, hothers, hframe⟩ : ∃ t,
      t = (if y.standins.all (·.live) then (s.copied c.num m.val y e.slot held).wantSpares c.num m.val y.pendingSpares
        else s.copied c.num m.val y e.slot held) ∧
      (t.mould c.num m.val).standins = y.standins ∧ (t.mould c.num m.val).gauging = y.gauging ∧
      (t.mould c.num m.val).probe = y.copiesDone.probe ∧
      (t.croft c.num).store = Memory.setBytes (s.croft c.num).store (0x10000 + 512 * e.slot) (copyBytes held) ∧
      (∀ k, k ≠ c.num → t.croft k = s.croft k) ∧ CroftsOnly s t := by
    refine ⟨_, rfl, ?_⟩
    split
    · obtain ⟨honly, hne, hstore⟩ := (s.copied c.num m.val y e.slot held).wantSpares_only c.num m.val y.pendingSpares
      have hkept : (((s.copied c.num m.val y e.slot held).wantSpares c.num m.val y.pendingSpares).mould c.num m.val).standins = y.standins ∧
          (((s.copied c.num m.val y e.slot held).wantSpares c.num m.val y.pendingSpares).mould c.num m.val).gauging = y.gauging ∧
          (((s.copied c.num m.val y e.slot held).wantSpares c.num m.val y.pendingSpares).mould c.num m.val).probe = y.copiesDone.probe := by
        obtain h | h := (s.copied c.num m.val y e.slot held).wantSpares_mould c.num m.val y.pendingSpares <;> rw [h, hmould]
        · exact ⟨y.copiesDone_standins, y.copiesDone_run, rfl⟩
        · exact ⟨y.copiesDone_standins, y.copiesDone_run, rfl⟩
      refine ⟨hkept.1, hkept.2.1, hkept.2.2, hstore.trans ?_, fun k hk => (hne k hk).trans (State.croft_modCroft_ne _ _ hk),
        (s.modCroft_only _ _).trans honly⟩
      rw [hcroft, Croft.writeSlot_store]
    · rw [hmould, hcroft, Croft.writeSlot_store]
      exact ⟨y.copiesDone_standins, y.copiesDone_run, rfl, rfl, fun k hk => State.croft_modCroft_ne _ _ hk, s.modCroft_only _ _⟩
  rw [← ht] at hexec
  have hystandins : y.standins = x.standins.map fun e => if e.column = col.val then e.arrived held else e := by
    rw [← hy, Mould.copied_standins]
  refine ⟨t, hexec, fun z hz hcol => ?live, fun z hz hcol => ?kept, fun hlive => ?run, ?columns, hstore, fun hall hdecided => ?probe,
    hothers, hframe⟩
  case live =>
    rw [hstandins, hystandins] at hz
    obtain ⟨w, -, rfl⟩ := List.mem_map.mp hz
    split at hcol
    next h =>
      rw [if_pos h]
      exact ⟨rfl, rfl, rfl⟩
    next h => exact absurd hcol h
  case kept =>
    rw [hstandins, hystandins]
    exact List.mem_map.mpr ⟨z, hz, if_neg hcol⟩
  case run =>
    rw [hrun, ← hy, hlive]
    rfl
  case columns =>
    rw [hstandins, hystandins, List.map_map]
    refine List.map_congr_left fun w _ => ?_
    dsimp only [Function.comp]
    split <;> rfl
  case probe =>
    have hlive : y.standins.all (·.live) = true := by
      rw [hystandins, List.all_map, List.all_eq_true]
      intro w hw
      dsimp only [Function.comp]
      split
      next => rfl
      next h => exact (hall w hw).resolve_right h
    rw [hprobe, Mould.copiesDone, if_pos hlive]
    refine if_pos ?_
    rw [← hy, Mould.copied_probe, hdecided]
    rfl

/-- A poisoned copy takes the mould out of service (R466). -/
theorem standinCopy_poisoned (s : State) (c : CroftAt) (m : PhysMould) (col : Fin 262) (copy : List (Nat × Int)) (e : StandIn)
    (he : (s.mould c.num m.val).standins.find? (fun e => e.column == col.val && (!e.live || e.refetch)) = some e) (hgen : s.castGen ≠ none)
    (k : Nat) (hk : (s.croft c.num).holding k = some m.val) (hslot : (s.mould c.num m.val).slot = some k) :
    ∃ t, exec (.standinCopyArrive c m col copy true) s = .next t ∧ k ∈ (t.croft c.num).held ∧
      (t.mould c.num m.val).standins = [] ∧ (t.mould c.num m.val).state = (s.mould c.num m.val).state := by
  have hdrop : s.dropMould c.num m.val false = s.leaveService c.num k false := by simp only [State.dropMould, hslot]
  exact ⟨_, (exec_standinCopyArrive_poisoned s c m col copy e he hgen).trans (congrArg _ hdrop), s.leaveService_left c.num k m.val false hk⟩

/-- Settles O46: each verdict by its kind, and each copy by whether it came poisoned. -/
theorem probesDecideAndStandInsGoLive : Obligations.ProbesDecideAndStandInsGoLive := by
  unfold Obligations.ProbesDecideAndStandInsGoLive
  intro s c m cols packs i col copy p
  refine ⟨fun hp hd => ⟨probe_clear s c m p hp hd, fun hnone => ⟨probe_unlocated s c m cols packs p hp hd hnone,
    fun hpack hi => probe_packFails s c m cols packs p hp hd hnone i hpack hi⟩, fun hsome => probe_located s c m cols packs p hp hd hsome⟩,
    fun e he hgen => ⟨fun hdebug => standinCopy_arrives s c m col copy e he hgen hdebug,
      fun k hk hslot => standinCopy_poisoned s c m col copy e he hgen k hk hslot⟩⟩

end Sys2Proof.Machine
end

section
/-!
Gauging passes and the ends of gauging runs (R106 to R114).
-/
namespace Sys2Proof.Machine

/-! ### Converter passes -/

/-- A mould whose attempt begins (R106). -/
def Mould.begun (x : Mould) : Mould := { x with gauging := { x.gauging with active := true, run := {}, first := none } }

theorem Croft.pickGauged_busy {c : Croft} (h : ∃ e ∈ c.moulds, e.2.gauging.active = true) : c.pickGauged = c :=
  if_pos (List.any_eq_true.mpr h)

theorem Croft.pickGauged_next {c : Croft} {m : Nat} (h : ∀ e ∈ c.moulds, e.2.gauging.active = false) (hm : c.nextGauged = some m) :
    c.pickGauged = { c.modMould m (·.begun) with forced := c.forced.filter fun k => k != m } := by
  unfold Croft.pickGauged
  rw [if_neg (by simpa using h), hm]
  rfl

/-- The next mould begins at most; no other is touched. -/
theorem Croft.pickGauged_mould (c : Croft) (k : Nat) : c.pickGauged.mould k = c.mould k ∨ c.pickGauged.mould k = (c.mould k).begun := by
  unfold Croft.pickGauged
  split
  · exact .inl rfl
  split
  · exact .inl rfl
  next m _ =>
    refine (em (k = m)).symm.imp (fun h => ?_) fun h => ?_
    · exact (c.mould_modMould m k (·.begun)).trans (if_neg h)
    · subst h
      exact c.mould_modMould_self k (·.begun)

/-- A mould that gauges is in its croft's table. -/
theorem Croft.active_listed {c : Croft} {m : Nat} (h : (c.mould m).gauging.active = true) : ∃ e ∈ c.moulds, e.2.gauging.active = true := by
  obtain hd | hmem := tget_cases freshMould c.moulds m
  · rw [Croft.mould, hd] at h
    cases h
  · exact ⟨_, hmem, h⟩

/-- The state after a converter pass. -/
def State.passed (s : State) (n m : Nat) (rowC high : Bool) (rd : List (Nat × Int)) : State :=
  s.modCroft n fun c => (c.pickGauged).modMould m fun x => x.addPass rowC high rd c.theta (s.reeveTime (croftDie n))

theorem exec_gaugeConverterPass (s : State) (c : CroftAt) (m : PhysMould) (rowC high : Bool) (rd : List (Nat × Int)) :
    exec (.gaugeConverterPass c m rowC high rd) s = .next ((s.passed c.num m.val rowC high rd).spend (converterEnergy rowC)) := rfl

theorem State.passed_mould (s : State) (n m : Nat) (rowC high : Bool) (rd : List (Nat × Int)) :
    (s.passed n m rowC high rd).mould n m =
      ((s.croft n).pickGauged.mould m).addPass rowC high rd (s.croft n).theta (s.reeveTime (croftDie n)) := by
  rw [State.passed, State.mould, State.croft_modCroft_self, Croft.mould_modMould_self]

theorem Mould.addPass_run {x : Mould} (rowC high : Bool) (rd : List (Nat × Int)) (theta : Int) (time : Nat)
    (ha : x.gauging.active = true) (hp : x.probe = none) :
    x.addPass rowC high rd theta time = { x with gauging := { x.gauging with run := GaugeRun.addPass x.gauging.run rowC high rd theta time } } :=
  if_pos ⟨ha, hp⟩

theorem State.spend_mould (s : State) (fj n m : Nat) : (s.spend fj).mould n m = s.mould n m := rfl

section Pass
variable (s : State) (c : CroftAt) (m : PhysMould) (high : Bool) (rd : List (Nat × Int))
  (ha : (s.mould c.num m.val).gauging.active = true) (hp : (s.mould c.num m.val).probe = none)
include ha hp

/-- A pass on the mould that gauges joins its run. -/
theorem State.passed_run (rowC : Bool) : ((s.passed c.num m.val rowC high rd).mould c.num m.val).gauging.run =
    GaugeRun.addPass (s.mould c.num m.val).gauging.run rowC high rd (s.croft c.num).theta (s.reeveTime c.die.val) := by
  rw [State.passed_mould, Croft.pickGauged_busy (Croft.active_listed ha), croftDie_num]
  exact congrArg (fun x : Mould => x.gauging.run) (Mould.addPass_run rowC high rd _ _ ha hp)

/-- A pass of the column converters (R107, R108). -/
theorem gaugePass_columns : ∃ t, exec (.gaugeConverterPass c m false high rd) s = .next t ∧
    (high = false → (s.mould c.num m.val).gauging.run.colLow.length < 8 →
      (t.mould c.num m.val).gauging.run = { (s.mould c.num m.val).gauging.run with
        colLow := (s.mould c.num m.val).gauging.run.colLow ++ [rd], lastTime := s.reeveTime c.die.val
        firstTheta := some ((s.mould c.num m.val).gauging.run.firstTheta.getD (s.croft c.num).theta) }) ∧
    (high = true → (s.mould c.num m.val).gauging.run.colHigh.length < 8 →
      (t.mould c.num m.val).gauging.run = { (s.mould c.num m.val).gauging.run with
        colHigh := (s.mould c.num m.val).gauging.run.colHigh ++ [rd], lastTime := s.reeveTime c.die.val
        firstTheta := some ((s.mould c.num m.val).gauging.run.firstTheta.getD (s.croft c.num).theta) }) ∧
    t.tally = { s.tally with arrayFj := s.tally.arrayFj + 1500000 } ∧ (∀ k, k ≠ c.num → t.croft k = s.croft k) ∧
    t = { s with crofts := t.crofts, tally := t.tally } := by
  have hrun := s.passed_run c m high rd ha hp false
  refine ⟨_, exec_gaugeConverterPass s c m false high rd, fun hh hlen => ?_, fun hh hlen => ?_, rfl,
    fun k hk => ?_, rfl⟩
  · rw [State.spend_mould, hrun, hh]
    exact if_pos hlen
  · rw [State.spend_mould, hrun, hh]
    exact if_pos hlen
  · rw [State.spend_croft, State.passed, State.croft_modCroft_ne _ _ hk]

/-- A pass of the row converters (R107, R108). -/
theorem gaugePass_rows : ∃ t, exec (.gaugeConverterPass c m true high rd) s = .next t ∧
    (high = true → (s.mould c.num m.val).gauging.run.rowHigh.length < 4 →
      (t.mould c.num m.val).gauging.run = { (s.mould c.num m.val).gauging.run with
        rowHigh := (s.mould c.num m.val).gauging.run.rowHigh ++ [rd], lastTime := s.reeveTime c.die.val
        firstTheta := some ((s.mould c.num m.val).gauging.run.firstTheta.getD (s.croft c.num).theta) }) ∧
    (high = false → (s.mould c.num m.val).gauging.run.rowLow.length < 4 →
      (t.mould c.num m.val).gauging.run = { (s.mould c.num m.val).gauging.run with
        rowLow := (s.mould c.num m.val).gauging.run.rowLow ++ [rd], lastTime := s.reeveTime c.die.val
        firstTheta := some ((s.mould c.num m.val).gauging.run.firstTheta.getD (s.croft c.num).theta) }) ∧
    t.tally = { s.tally with arrayFj := s.tally.arrayFj + 1600000 } := by
  have hrun := s.passed_run c m high rd ha hp true
  refine ⟨_, exec_gaugeConverterPass s c m true high rd, fun hh hlen => ?_, fun hh hlen => ?_, rfl⟩
  · rw [State.spend_mould, hrun, hh]
    exact if_pos hlen
  · rw [State.spend_mould, hrun, hh]
    exact if_pos hlen

end Pass

/-- A croft that gauges nothing begins with the mould that is next (R106; log 47). -/
theorem gaugePass_begins (s : State) (c : CroftAt) (m : PhysMould) (rd : List (Nat × Int))
    (hidle : ∀ e ∈ (s.croft c.num).moulds, e.2.gauging.active = false) (hm : (s.croft c.num).nextGauged = some m.val)
    (hp : (s.mould c.num m.val).probe = none) :
    ∃ t, exec (.gaugeConverterPass c m false true rd) s = .next t ∧ (t.mould c.num m.val).gauging.active = true ∧
      (t.mould c.num m.val).gauging.first = none ∧
      (t.mould c.num m.val).gauging.run =
        { colHigh := [rd], lastTime := s.reeveTime c.die.val, firstTheta := some (s.croft c.num).theta } := by
  have hpick : (s.croft c.num).pickGauged.mould m.val = (s.mould c.num m.val).begun := by
    rw [Croft.pickGauged_next hidle hm]
    exact (s.croft c.num).mould_modMould_self m.val (·.begun)
  have hmould : (s.passed c.num m.val false true rd).mould c.num m.val =
      { (s.mould c.num m.val).begun with gauging := { (s.mould c.num m.val).begun.gauging with
        run := GaugeRun.addPass {} false true rd (s.croft c.num).theta (s.reeveTime c.die.val) } } := by
    rw [State.passed_mould, hpick, croftDie_num]
    exact Mould.addPass_run (x := (s.mould c.num m.val).begun) false true rd _ _ rfl hp
  refine ⟨_, exec_gaugeConverterPass s c m false true rd, ?_⟩
  rw [State.spend_mould, hmould]
  exact ⟨rfl, rfl, rfl⟩

/-! ### The ends of runs -/

/-- The terms of the run in hand. -/
def Mould.terms (x : Mould) : RunTerms := deriveTerms x x.gauging.run

section RunEnd
variable (s : State) (c : CroftAt) (m : PhysMould) (ha : (s.mould c.num m.val).gauging.active = true)
  (hcomplete : GaugeRun.complete (s.mould c.num m.val).gauging.run = true)
include ha hcomplete

theorem exec_gaugeRunEnd : exec (.gaugeRunEnd c m) s =
    if (s.mould c.num m.val).terms.unhealthy then .next ((s.endAttempt c.num m.val).screenProbe c.num m.val)
    else match (s.mould c.num m.val).gauging.first with
      | none => .next (s.modMould c.num m.val fun y =>
          { y with gauging := { y.gauging with run := {}, first := some (s.mould c.num m.val).terms } })
      | some a => .next (if a.agree (s.mould c.num m.val).terms then s.acceptAttempt c.num m.val a (s.mould c.num m.val).terms
          else s.rejectAttempt c.num m.val) :=
  if_neg (by simp [ha, hcomplete])

theorem exec_gaugeRunEnd_unhealthy (h : (s.mould c.num m.val).terms.unhealthy = true) :
    exec (.gaugeRunEnd c m) s = .next ((s.endAttempt c.num m.val).screenProbe c.num m.val) :=
  (exec_gaugeRunEnd s c m ha hcomplete).trans (if_pos h)

theorem exec_gaugeRunEnd_first (h : (s.mould c.num m.val).terms.unhealthy = false) (hf : (s.mould c.num m.val).gauging.first = none) :
    exec (.gaugeRunEnd c m) s = .next (s.modMould c.num m.val fun y =>
      { y with gauging := { y.gauging with run := {}, first := some (s.mould c.num m.val).terms } }) := by
  rw [exec_gaugeRunEnd s c m ha hcomplete, if_neg (by simp [h]), hf]

theorem exec_gaugeRunEnd_second (h : (s.mould c.num m.val).terms.unhealthy = false) (a : RunTerms)
    (hf : (s.mould c.num m.val).gauging.first = some a) :
    exec (.gaugeRunEnd c m) s = .next (if a.agree (s.mould c.num m.val).terms then
      s.acceptAttempt c.num m.val a (s.mould c.num m.val).terms else s.rejectAttempt c.num m.val) := by
  rw [exec_gaugeRunEnd s c m ha hcomplete, if_neg (by simp [h]), hf]

end RunEnd

/-- A mould whose attempt has ended. -/
def Mould.attemptEnded (x : Mould) : Mould := { x with gauging := { x.gauging with active := false, run := {}, first := none } }

/-- The mould after its attempt ends: the next attempt may be on it again. -/
theorem State.endAttempt_mould (s : State) (n m : Nat) : (s.endAttempt n m).mould n m = (s.mould n m).attemptEnded ∨
    (s.endAttempt n m).mould n m = (s.mould n m).attemptEnded.begun := by
  have hcroft : (s.endAttempt n m).croft n = ((s.croft n).modMould m (·.attemptEnded)).pickGauged := s.croft_modCroft_self n _
  have hended : ((s.croft n).modMould m (·.attemptEnded)).mould m = (s.mould n m).attemptEnded :=
    Croft.mould_modMould_self (s.croft n) m (·.attemptEnded)
  rw [State.mould, hcroft, ← hended]
  exact Croft.pickGauged_mould _ m

/-- A mould with a probe started, or tied. -/
def Mould.probing (x : Mould) (p : Probe) : Mould := { x with probe := some p }

theorem State.startProbe_mould (s : State) (n m : Nat) (step : Option Nat) :
    ∃ p, (s.startProbe n m step).mould n m = (s.mould n m).probing p := by
  rw [State.startProbe, State.mould_modMould_self]
  split <;> exact ⟨_, rfl⟩

theorem State.startProbe_reg (s : State) (n m : Nat) (step : Option Nat) (p : Page) (off : Nat) :
    (s.startProbe n m step).reg p off = s.reg p off := rfl

/-- The state whose SCREEN_TRIPS counts a probe that is to start. -/
def State.tripCounted (s : State) (n m : Nat) : State := if (s.mould n m).probe.isSome then s else s.bumpCroft n 0x160

theorem State.screenProbe_eq (s : State) (n m : Nat) : s.screenProbe n m = (s.tripCounted n m).startProbe n m none := rfl

theorem State.tripCounted_mould (s : State) (n m : Nat) : (s.tripCounted n m).mould n m = s.mould n m := by
  unfold State.tripCounted
  split
  · rfl
  · rw [State.mould, State.bumpCroft, State.bump_croft, State.mould]

theorem State.screenProbe_mould (s : State) (n m : Nat) : ∃ p, (s.screenProbe n m).mould n m = (s.mould n m).probing p := by
  obtain ⟨p, h⟩ := (s.tripCounted n m).startProbe_mould n m none
  exact ⟨p, by rw [s.screenProbe_eq, h, s.tripCounted_mould]⟩

theorem State.screenProbe_reg (s : State) (n m : Nat) (p : Page) (off : Nat) (h : p.base + off ≠ (Page.croft n).base + 0x160) :
    (s.screenProbe n m).reg p off = s.reg p off := by
  rw [s.screenProbe_eq, State.startProbe_reg, State.tripCounted]
  split
  · rfl
  · exact State.reg_setReg_ne _ _ _ _ _ _ h

theorem State.screenProbe_trips (s : State) (n m : Nat) : (s.screenProbe n m).reg (.croft n) 0x160 =
    if (s.mould n m).probe.isSome then s.reg (.croft n) 0x160 else satAdd (s.reg (.croft n) 0x160) 1 := by
  rw [s.screenProbe_eq, State.startProbe_reg, State.tripCounted]
  split
  · rfl
  · exact State.reg_setReg_self _ _ _ _

theorem State.endAttempt_reg (s : State) (n m : Nat) (p : Page) (off : Nat) : (s.endAttempt n m).reg p off = s.reg p off := rfl

/-- An unhealthy run ends the attempt with a probe (R110). -/
theorem gaugeRun_unhealthy (s : State) (c : CroftAt) (m : PhysMould) (ha : (s.mould c.num m.val).gauging.active = true)
    (hcomplete : GaugeRun.complete (s.mould c.num m.val).gauging.run = true) (h : (s.mould c.num m.val).terms.unhealthy = true) :
    ∃ t, exec (.gaugeRunEnd c m) s = .next t ∧ (t.mould c.num m.val).probe.isSome = true ∧
      (t.mould c.num m.val).gauging.first = none ∧ (t.mould c.num m.val).gauging.run = {} ∧
      (t.mould c.num m.val).pendingSet = (s.mould c.num m.val).pendingSet ∧
      t.reg (.croft c.num) 0x160 =
        (if (s.mould c.num m.val).probe.isSome then s.reg (.croft c.num) 0x160 else satAdd (s.reg (.croft c.num) 0x160) 1) := by
  obtain ⟨p, hp⟩ := (s.endAttempt c.num m.val).screenProbe_mould c.num m.val
  refine ⟨_, exec_gaugeRunEnd_unhealthy s c m ha hcomplete h, ?_⟩
  rw [State.screenProbe_trips, State.endAttempt_reg, hp]
  obtain he | he := s.endAttempt_mould c.num m.val <;> rw [he] <;> exact ⟨rfl, rfl, rfl, rfl, rfl⟩

/-! ### Second runs -/

/-- A mould with its pending set from an accepted attempt (R112, R115, R119). -/
def Mould.accepted (y : Mould) (set : CoefSet) (ratios : Table Rat) : Mould :=
  { y.setPending set with
    neutralised := false
    recastDue := y.recastDue || drifted set.g45 y.gauging.castG45
    gauging := { y.gauging with rejects := 0, baseline := some (y.gauging.baseline.getD ratios) } }

theorem Mould.accepted_set (y : Mould) (set : CoefSet) (ratios : Table Rat) :
    (y.accepted set ratios).pendingSet = true ∧ (y.accepted set ratios).bank = y.bank ∧
      (if y.bank then (y.accepted set ratios).bank0 else (y.accepted set ratios).bank1) = set := by
  unfold Mould.accepted Mould.setPending
  cases y.bank <;> simp

/-- The counters of an accepted and of a rejected attempt (R148). -/
def State.attemptCounted (s : State) (n off off' : Nat) : State := (s.bumpCroft n off).bump (.gauge (croftDie n)) off' 1

theorem gaugeReg_apart (c : CroftAt) (off off' : Nat) (hoff : off < 0x1000) (hoff' : off' < 0x1000) :
    (Page.gauge c.die.val).base + off ≠ (Page.croft c.num).base + off' := by
  have hbase : (Page.croft c.num).base = dieBase c.die.val + (256 + c.num % 2048) * 0x1000 := by
    rw [Page.base, show c.num / 2048 = c.die.val from croftDie_num c]
  rw [hbase]
  simp only [Page.base, dieBase]
  omega

theorem State.attemptCounted_croft (s : State) (c : CroftAt) (off off' : Nat) (hoff : off < 0x1000) (hoff' : off' < 0x1000) :
    (s.attemptCounted c.num off off').reg (.croft c.num) off = satAdd (s.reg (.croft c.num) off) 1 := by
  rw [State.attemptCounted, croftDie_num, State.bump, State.reg_setReg_ne _ _ _ _ _ _ (gaugeReg_apart c off' off hoff' hoff).symm,
    State.bumpCroft, State.bump, State.reg_setReg_self]

theorem State.attemptCounted_gauge (s : State) (c : CroftAt) (off off' : Nat) (hoff : off < 0x1000) (hoff' : off' < 0x1000) :
    (s.attemptCounted c.num off off').reg (.gauge c.die.val) off' = satAdd (s.reg (.gauge c.die.val) off') 1 := by
  rw [State.attemptCounted, croftDie_num, State.bump, State.reg_setReg_self, State.bumpCroft, State.bump,
    State.reg_setReg_ne _ _ _ _ _ _ (gaugeReg_apart c off' off hoff' hoff)]

theorem State.attemptCounted_mould (s : State) (n off off' m : Nat) : (s.attemptCounted n off off').mould n m = s.mould n m := by
  rw [State.mould, State.attemptCounted, State.bump_croft, State.bumpCroft, State.bump_croft, State.mould]

/-- The state with an accepted attempt counted and ended. -/
def State.attemptAccepted (s : State) (n m : Nat) (a b : RunTerms) : State :=
  ((s.modMould n m (·.accepted (a.meanSet b) (a.ratios b))).attemptCounted n 0x140 0x120).endAttempt n m

theorem State.acceptAttempt_cases (s : State) (n m : Nat) (a b : RunTerms) : s.acceptAttempt n m a b = s.attemptAccepted n m a b ∨
    s.acceptAttempt n m a b = (s.attemptAccepted n m a b).screenProbe n m := by
  unfold State.acceptAttempt
  extract_lets x set ratios trips s1 s2
  split
  · exact .inr rfl
  · exact .inl rfl

/-- What an accepted attempt leaves of its mould, whether a mould begins again or a probe starts. -/
theorem State.acceptAttempt_mould (s : State) (n m : Nat) (a b : RunTerms) : ∃ y : Mould,
    (s.acceptAttempt n m a b).mould n m = y ∧ y.pendingSet = true ∧ y.bank = (s.mould n m).bank ∧
      (if (s.mould n m).bank then y.bank0 else y.bank1) = a.meanSet b ∧
      y.gauging.rejects = 0 ∧ y.gauging.first = none ∧ y.gauging.run = {} := by
  obtain ⟨hpending, hbank, hset⟩ := (s.mould n m).accepted_set (a.meanSet b) (a.ratios b)
  have hmould : ((s.modMould n m (·.accepted (a.meanSet b) (a.ratios b))).attemptCounted n 0x140 0x120).mould n m =
      (s.mould n m).accepted (a.meanSet b) (a.ratios b) := by
    rw [State.attemptCounted_mould, State.mould_modMould_self]
  have hended : ∃ y : Mould, (s.attemptAccepted n m a b).mould n m = y ∧ y.pendingSet = true ∧ y.bank = (s.mould n m).bank ∧
      (if (s.mould n m).bank then y.bank0 else y.bank1) = a.meanSet b ∧
      y.gauging.rejects = 0 ∧ y.gauging.first = none ∧ y.gauging.run = {} := by
    refine ⟨_, rfl, ?_⟩
    obtain h | h := State.endAttempt_mould ((s.modMould n m (·.accepted (a.meanSet b) (a.ratios b))).attemptCounted n 0x140 0x120) n m
    · rw [State.attemptAccepted, h, hmould]
      exact ⟨hpending, hbank, hset, rfl, rfl, rfl⟩
    · rw [State.attemptAccepted, h, hmould]
      exact ⟨hpending, hbank, hset, rfl, rfl, rfl⟩
  obtain h | h := s.acceptAttempt_cases n m a b
  · rw [h]
    exact hended
  · obtain ⟨p, hp⟩ := (s.attemptAccepted n m a b).screenProbe_mould n m
    obtain ⟨y, hy, hrest⟩ := hended
    exact ⟨y.probing p, by rw [h, hp, hy], hrest⟩

theorem State.acceptAttempt_reg (s : State) (n m : Nat) (a b : RunTerms) (p : Page) (off : Nat)
    (h : p.base + off ≠ (Page.croft n).base + 0x160) :
    (s.acceptAttempt n m a b).reg p off =
      ((s.modMould n m (·.accepted (a.meanSet b) (a.ratios b))).attemptCounted n 0x140 0x120).reg p off := by
  obtain he | he := s.acceptAttempt_cases n m a b <;> rw [he]
  · exact State.endAttempt_reg _ _ _ _ _
  · exact (State.screenProbe_reg _ _ _ _ _ h).trans (State.endAttempt_reg _ _ _ _ _)

/-- A second run that agrees leaves the mean of both as the pending set (R111, R112). -/
theorem gaugeRun_agrees (s : State) (c : CroftAt) (m : PhysMould) (ha : (s.mould c.num m.val).gauging.active = true)
    (hcomplete : GaugeRun.complete (s.mould c.num m.val).gauging.run = true) (h : (s.mould c.num m.val).terms.unhealthy = false)
    (a : RunTerms) (hf : (s.mould c.num m.val).gauging.first = some a) (hagree : a.agree (s.mould c.num m.val).terms = true) :
    ∃ t, exec (.gaugeRunEnd c m) s = .next t ∧ (t.mould c.num m.val).pendingSet = true ∧
      (t.mould c.num m.val).bank = (s.mould c.num m.val).bank ∧
      (if (s.mould c.num m.val).bank then (t.mould c.num m.val).bank0 else (t.mould c.num m.val).bank1) =
        a.meanSet (s.mould c.num m.val).terms ∧
      (t.mould c.num m.val).gauging.rejects = 0 ∧ (t.mould c.num m.val).gauging.first = none ∧
      (t.mould c.num m.val).gauging.run = {} ∧ t.reg (.croft c.num) 0x140 = satAdd (s.reg (.croft c.num) 0x140) 1 ∧
      t.reg (.gauge c.die.val) 0x120 = satAdd (s.reg (.gauge c.die.val) 0x120) 1 := by
  have hexec := (exec_gaugeRunEnd_second s c m ha hcomplete h a hf).trans (congrArg _ (if_pos hagree))
  obtain ⟨y, hy, hpending, hbank, hset, hrejects, hfirst, hrun⟩ := s.acceptAttempt_mould c.num m.val a (s.mould c.num m.val).terms
  refine ⟨_, hexec, ?_⟩
  rw [hy, State.acceptAttempt_reg _ _ _ _ _ _ _ (by omega),
    State.acceptAttempt_reg _ _ _ _ _ _ _ (gaugeReg_apart c 0x120 0x160 (by decide) (by decide)),
    State.attemptCounted_croft _ c 0x140 0x120 (by decide) (by decide), State.attemptCounted_gauge _ c 0x140 0x120 (by decide) (by decide),
    State.modMould_reg, State.modMould_reg]
  exact ⟨hpending, hbank, hset, hrejects, hfirst, hrun, rfl, rfl⟩

/-- A mould with a rejected attempt (R113; log 51). -/
def Mould.rejected (y : Mould) (fourth : Prop) [Decidable fourth] : Mould :=
  { y with gauging := { y.gauging with run := {}, first := none, rejects := if fourth then 0 else y.gauging.rejects + 1 } }

/-- The state with a rejected attempt counted. -/
def State.attemptRejected (s : State) (n m : Nat) : State :=
  (s.modMould n m fun y => y.rejected ((s.mould n m).gauging.rejects = 3)).attemptCounted n 0x148 0x128

theorem State.rejectAttempt_eq (s : State) (n m : Nat) : s.rejectAttempt n m =
    if (s.mould n m).gauging.rejects = 3 then (s.attemptRejected n m).startProbe n m none else s.attemptRejected n m := rfl

theorem State.attemptRejected_mould (s : State) (n m : Nat) :
    (s.attemptRejected n m).mould n m = (s.mould n m).rejected ((s.mould n m).gauging.rejects = 3) := by
  rw [State.attemptRejected, State.attemptCounted_mould, State.mould_modMould_self]

theorem State.rejectAttempt_reg (s : State) (n m : Nat) (p : Page) (off : Nat) :
    (s.rejectAttempt n m).reg p off = (s.attemptRejected n m).reg p off := by
  rw [s.rejectAttempt_eq]
  split
  · exact State.startProbe_reg _ _ _ _ _ _
  · rfl

/-- A second run that does not agree costs an attempt; the fourth in a row starts a probe (R113). -/
theorem gaugeRun_disagrees (s : State) (c : CroftAt) (m : PhysMould) (ha : (s.mould c.num m.val).gauging.active = true)
    (hcomplete : GaugeRun.complete (s.mould c.num m.val).gauging.run = true) (h : (s.mould c.num m.val).terms.unhealthy = false)
    (a : RunTerms) (hf : (s.mould c.num m.val).gauging.first = some a) (hagree : a.agree (s.mould c.num m.val).terms = false) :
    ∃ t, exec (.gaugeRunEnd c m) s = .next t ∧ (t.mould c.num m.val).pendingSet = (s.mould c.num m.val).pendingSet ∧
      (t.mould c.num m.val).gauging.active = true ∧ (t.mould c.num m.val).gauging.run = {} ∧
      (t.mould c.num m.val).gauging.first = none ∧ t.reg (.croft c.num) 0x148 = satAdd (s.reg (.croft c.num) 0x148) 1 ∧
      t.reg (.gauge c.die.val) 0x128 = satAdd (s.reg (.gauge c.die.val) 0x128) 1 ∧
      ((s.mould c.num m.val).gauging.rejects = 3 → (t.mould c.num m.val).gauging.rejects = 0 ∧
        (t.mould c.num m.val).probe.isSome = true) ∧
      ((s.mould c.num m.val).gauging.rejects ≠ 3 →
        (t.mould c.num m.val).gauging.rejects = (s.mould c.num m.val).gauging.rejects + 1 ∧
        (t.mould c.num m.val).probe = (s.mould c.num m.val).probe) := by
  have hexec := (exec_gaugeRunEnd_second s c m ha hcomplete h a hf).trans (congrArg _ (if_neg (by simp [hagree])))
  refine ⟨_, hexec, ?_⟩
  rw [State.rejectAttempt_reg, State.rejectAttempt_reg, State.attemptRejected,
    State.attemptCounted_croft _ c 0x148 0x128 (by decide) (by decide), State.attemptCounted_gauge _ c 0x148 0x128 (by decide) (by decide),
    State.modMould_reg, State.modMould_reg]
  by_cases h3 : (s.mould c.num m.val).gauging.rejects = 3
  · obtain ⟨p, hp⟩ := (s.attemptRejected c.num m.val).startProbe_mould c.num m.val none
    rw [s.rejectAttempt_eq, if_pos h3, hp, s.attemptRejected_mould]
    exact ⟨rfl, ha, rfl, rfl, rfl, rfl, fun _ => ⟨if_pos h3, rfl⟩, fun hne => absurd h3 hne⟩
  · rw [s.rejectAttempt_eq, if_neg h3, s.attemptRejected_mould]
    exact ⟨rfl, ha, rfl, rfl, rfl, rfl, fun heq => absurd heq h3, fun _ => ⟨if_neg h3, rfl⟩⟩

/-- Settles O47: passes join the run in hand, and a run's end is judged by its terms. -/
theorem gaugingRunsAcceptOrReject : Obligations.GaugingRunsAcceptOrReject := by
  unfold Obligations.GaugingRunsAcceptOrReject
  intro s c m high rd
  refine ⟨fun ha hp => ⟨gaugePass_columns s c m high rd ha hp, gaugePass_rows s c m high rd ha hp⟩,
    fun hidle hm hp => gaugePass_begins s c m rd hidle hm hp, fun ha hcomplete h => ⟨fun hf => ?first, fun a hf hagree => ?agrees,
      fun a hf hagree => ?disagrees⟩, fun ha hcomplete h => gaugeRun_unhealthy s c m ha hcomplete h⟩
  case first =>
    refine ⟨_, exec_gaugeRunEnd_first s c m ha hcomplete h hf, ?_⟩
    rw [State.mould_modMould_self]
    exact ⟨rfl, rfl, rfl⟩
  case agrees => exact gaugeRun_agrees s c m ha hcomplete h a hf hagree
  case disagrees => exact gaugeRun_disagrees s c m ha hcomplete h a hf hagree

end Sys2Proof.Machine
end

section
/-!
Row groups of a cast and the closes of casts (R47, R48, R76 to R79, R85, R88, R466).
-/
namespace Sys2Proof.Machine

/-! ### Tables filled with pairs -/

theorem tget_foldl_pairs_out {α : Type} [DecidableEq α] (d : Nat → α) (l : List (Nat × α)) (t : Table α) (k : Nat) (h : ∀ e ∈ l, e.1 ≠ k) :
    tget d (l.foldl (fun t e => tput d t e.1 e.2) t) k = tget d t k := by
  refine List.foldlRecOn l _ (motive := fun u => tget d u k = tget d t k) rfl fun u hu e he => ?_
  rw [tget_tput_ne _ _ _ (Ne.symm (h e he)), hu]

/-- A key that is listed, each time with one value, has it. -/
theorem tget_foldl_pairs {α : Type} [DecidableEq α] (d : Nat → α) (l : List (Nat × α)) (t : Table α) (k : Nat) (v : α)
    (hsome : ∃ e ∈ l, e.1 = k) (hall : ∀ e ∈ l, e.1 = k → e.2 = v) : tget d (l.foldl (fun t e => tput d t e.1 e.2) t) k = v := by
  induction l generalizing t with
  | nil => simp at hsome
  | cons a l ih =>
    rw [List.foldl_cons]
    by_cases hl : ∃ e ∈ l, e.1 = k
    · exact ih _ hl fun e he => hall e (List.mem_cons_of_mem _ he)
    · rw [tget_foldl_pairs_out d l _ k fun e he hek => hl ⟨e, he, hek⟩]
      obtain ⟨e, he, hek⟩ := hsome
      obtain rfl | he := List.mem_cons.mp he
      · rw [← hek, tget_tput_self, hall e List.mem_cons_self hek]
      · exact absurd ⟨e, he, hek⟩ hl

/-! ### Row groups -/

/-- A mould with a row group programmed (R76, R77). -/
def Mould.programmed (x : Mould) (k : Cast) (g : RowGroupIn) : Mould :=
  { x with
    span := legalSpan g.span
    weights := ((g.image.filter fun e => decide (e.1.val < 8192)).flatMap (imageWeights k.groups)).foldl
      (fun t e => tput (fun _ => 0) t e.1 e.2) x.weights
    witness := (imageSums k.groups g).foldl (fun t e => tput (fun _ => 0) t e.1 e.2) x.witness
    cast := some { k with groups := k.groups + 1, failed := k.failed ++ g.failed.map (·.val) } }

/-- A state whose switch has a poisoned cast, if one is under way (R466). -/
def State.castPoisoned (s : State) : State := { s with pkg := { s.pkg with gen := { s.pkg.gen with castPoison := s.pkg.gen.switch.isSome } } }

section RowGroup
variable (s : State) (g : RowGroupIn) (k : Cast) (hk : (s.mould g.croft.num g.mould.val).cast = some k) (hfull : k.full = true)
  (hgroups : k.groups < 16)
include hk hfull hgroups

theorem exec_castRowGroupEnd (hgood : g.poisoned = false) : exec (.castRowGroupEnd g) s = .next
    ((s.stageImage g.croft.num (((s.mould g.croft.num g.mould.val).slot).getD 0) (g.image.map fun e => (e.1.val, e.2))).modMould
      g.croft.num g.mould.val fun x => x.programmed k g) := by
  change execCastRowGroupEnd g s = _
  simp only [execCastRowGroupEnd, hk]
  rw [if_neg (by simp [hfull, hgroups]), if_neg (by simp [hgood])]
  rfl

theorem exec_castRowGroupEnd_poisoned (hbad : g.poisoned = true) : exec (.castRowGroupEnd g) s =
    .next (s.abandonCast g.croft.num g.mould.val).castPoisoned := by
  change execCastRowGroupEnd g s = _
  simp only [execCastRowGroupEnd, hk]
  rw [if_neg (by simp [hfull, hgroups]), if_pos hbad]
  rfl

end RowGroup

theorem State.castPoisoned_mould (s : State) (n m : Nat) : s.castPoisoned.mould n m = s.mould n m := rfl

theorem State.castPoisoned_die (s : State) (d : Nat) : s.castPoisoned.die d = s.die d := rfl

theorem imageWeights_key (k : Nat) (e : Fin 8448 × BitVec 8) (w : Nat × Int) (hw : w ∈ imageWeights k e) :
    w = (2048 * (e.1.val % 128) + 64 * k + e.1.val / 128, clampSym 7 (signed4 (e.2.toNat % 16))) ∨
      w = (2048 * (e.1.val % 128) + 1024 + 64 * k + e.1.val / 128, clampSym 7 (signed4 (e.2.toNat / 16))) := by
  simp only [imageWeights, List.mem_cons, List.not_mem_nil, or_false] at hw
  refine hw.imp (fun h => h.trans ?_) fun h => h.trans ?_ <;> rw [Prod.mk.injEq] <;> refine ⟨?_, rfl⟩ <;> omega

theorem imageWeights_mem (k : Nat) (e : Fin 8448 × BitVec 8) :
    (2048 * (e.1.val % 128) + 64 * k + e.1.val / 128, clampSym 7 (signed4 (e.2.toNat % 16))) ∈ imageWeights k e ∧
      (2048 * (e.1.val % 128) + 1024 + 64 * k + e.1.val / 128, clampSym 7 (signed4 (e.2.toNat / 16))) ∈ imageWeights k e := by
  simp only [imageWeights, List.mem_cons, List.not_mem_nil, or_false, Prod.mk.injEq]
  exact ⟨.inl ⟨by omega, trivial⟩, .inr ⟨by omega, trivial⟩⟩

/-- The weights of a row group stand in its own rows. -/
theorem Mould.programmed_other (x : Mould) (k : Cast) (g : RowGroupIn) (hgroups : k.groups < 16) (a : Nat) (ha : a % 1024 / 64 ≠ k.groups) :
    tget (fun _ => 0) (x.programmed k g).weights a = tget (fun _ => 0) x.weights a := by
  refine tget_foldl_pairs_out _ _ _ _ fun w hw => ?_
  obtain ⟨e, he, hw⟩ := List.mem_flatMap.mp hw
  have hlt : e.1.val < 8192 := of_decide_eq_true (List.mem_filter.mp he).2
  have hrow : e.1.val / 128 < 64 := by omega
  rintro rfl
  obtain rfl | rfl := imageWeights_key _ _ _ hw <;> dsimp only at ha <;>
    generalize e.1.val % 128 = col at ha <;> generalize e.1.val / 128 = row at ha hrow <;> omega

/-- Each image byte leaves its two weights (R47, R149). -/
theorem Mould.programmed_weights (x : Mould) (k : Cast) (g : RowGroupIn)
    (hnodup : (g.image.map fun e => e.1).Nodup) (e : Fin 8448 × BitVec 8) (he : e ∈ g.image) (hlt : e.1.val < 8192) :
    tget (fun _ => 0) (x.programmed k g).weights (2048 * (e.1.val % 128) + 64 * k.groups + e.1.val / 128) =
        clampSym 7 (signed4 (e.2.toNat % 16)) ∧
      tget (fun _ => 0) (x.programmed k g).weights (2048 * (e.1.val % 128) + 1024 + 64 * k.groups + e.1.val / 128) =
        clampSym 7 (signed4 (e.2.toNat / 16)) := by
  have hdata : e ∈ g.image.filter fun e => decide (e.1.val < 8192) := List.mem_filter.mpr ⟨he, decide_eq_true hlt⟩
  obtain ⟨hlow, hhigh⟩ := imageWeights_mem k.groups e
  have hsame (f : Fin 8448 × BitVec 8) (hf : f ∈ g.image) (hval : f.1.val = e.1.val) : f = e :=
    List.inj_on_of_nodup_map hnodup hf he (Fin.ext hval)
  refine ⟨tget_foldl_pairs _ _ _ _ _ ⟨_, List.mem_flatMap.mpr ⟨e, hdata, hlow⟩, rfl⟩ fun w hw hkey => ?_,
    tget_foldl_pairs _ _ _ _ _ ⟨_, List.mem_flatMap.mpr ⟨e, hdata, hhigh⟩, rfl⟩ fun w hw hkey => ?_⟩
  all_goals
    obtain ⟨f, hf, hw⟩ := List.mem_flatMap.mp hw
    obtain ⟨hf, hflt⟩ := List.mem_filter.mp hf
    have hflt : f.1.val < 8192 := of_decide_eq_true hflt
    obtain rfl | rfl := imageWeights_key _ _ _ hw
  · rw [hsame f hf (by dsimp only at hkey; omega)]
  · dsimp only at hkey
    omega
  · dsimp only at hkey
    omega
  · rw [hsame f hf (by dsimp only at hkey; omega)]

/-- Each row leaves the sums of both halves (R48). -/
theorem Mould.programmed_witness (x : Mould) (k : Cast) (g : RowGroupIn) (r : Fin 64) (h : Fin 2) :
    tget (fun _ => 0) (x.programmed k g).witness (1024 * h.val + 64 * k.groups + r.val) =
      clampSym 896 (toSigned 16 ((RowGroupIn.byte g (8192 + 4 * r.val + 2 * h.val)).toNat +
        256 * (RowGroupIn.byte g (8193 + 4 * r.val + 2 * h.val)).toNat)) := by
  have hr := r.isLt
  have hh := h.isLt
  have hmem : (1024 * ((2 * r.val + h.val) % 2) + 64 * k.groups + (2 * r.val + h.val) / 2, clampSym 896 (toSigned 16
      ((RowGroupIn.byte g (8192 + 2 * (2 * r.val + h.val))).toNat + 256 * (RowGroupIn.byte g (8193 + 2 * (2 * r.val + h.val))).toNat))) ∈
        imageSums k.groups g := List.mem_map.mpr ⟨2 * r.val + h.val, List.mem_range.mpr (by omega), rfl⟩
  refine tget_foldl_pairs _ _ _ _ _ ⟨_, hmem, by dsimp only; omega⟩ fun w hw hkey => ?_
  obtain ⟨i, hi, rfl⟩ := List.mem_map.mp hw
  have hi := List.mem_range.mp hi
  obtain rfl : i = 2 * r.val + h.val := by dsimp only at hkey; omega
  rw [show 8192 + 4 * r.val + 2 * h.val = 8192 + 2 * (2 * r.val + h.val) by omega,
    show 8193 + 4 * r.val + 2 * h.val = 8193 + 2 * (2 * r.val + h.val) by omega]

theorem legalSpan_pow (j : Fin 11) : legalSpan (2 ^ (6 + j.val)) = 2 ^ (6 + j.val) := by
  have hj := j.isLt
  rw [legalSpan, Nat.log2_two_pow]
  congr 1
  omega

/-- Staging an image moves pads or the store of its croft. -/
theorem State.stageImage_moulds (s : State) (n slot : Nat) (bytes : List (Nat × BitVec 8)) :
    CroftsOnly s (s.stageImage n slot bytes) ∧ (∀ m, (s.stageImage n slot bytes).mould n m = s.mould n m) ∧
      ∀ k, k ≠ n → (s.stageImage n slot bytes).croft k = s.croft k := by
  unfold State.stageImage
  dsimp only
  split
  all_goals
    refine ⟨s.modCroft_only _ _, fun m => ?_, fun k hk => State.croft_modCroft_ne _ _ hk⟩
    rw [State.mould, State.croft_modCroft_self]
    rfl

/-- A row group writes its rows and no other (R76, R77). -/
theorem rowGroup_programs (s : State) (g : RowGroupIn) (k : Cast) (hk : (s.mould g.croft.num g.mould.val).cast = some k)
    (hfull : k.full = true) (hgroups : k.groups < 16) (hgood : g.poisoned = false) :
    ∃ t, exec (.castRowGroupEnd g) s = .next t ∧
      (t.mould g.croft.num g.mould.val).cast = some { k with groups := k.groups + 1, failed := k.failed ++ g.failed.map (·.val) } ∧
      (∀ j : Fin 11, g.span = 2 ^ (6 + j.val) → (t.mould g.croft.num g.mould.val).span = g.span) ∧
      (∀ a, a % 1024 / 64 ≠ k.groups → tget (fun _ => 0) (t.mould g.croft.num g.mould.val).weights a =
        tget (fun _ => 0) (s.mould g.croft.num g.mould.val).weights a) ∧
      ((g.image.map fun e => e.1).Nodup → ∀ e ∈ g.image, e.1.val < 8192 →
        tget (fun _ => 0) (t.mould g.croft.num g.mould.val).weights (2048 * (e.1.val % 128) + 64 * k.groups + e.1.val / 128) =
          clampSym 7 (signed4 (e.2.toNat % 16)) ∧
        tget (fun _ => 0) (t.mould g.croft.num g.mould.val).weights (2048 * (e.1.val % 128) + 1024 + 64 * k.groups + e.1.val / 128) =
          clampSym 7 (signed4 (e.2.toNat / 16))) ∧
      (∀ (r : Fin 64) (h : Fin 2),
        tget (fun _ => 0) (t.mould g.croft.num g.mould.val).witness (1024 * h.val + 64 * k.groups + r.val) =
          clampSym 896 (toSigned 16 ((RowGroupIn.byte g (8192 + 4 * r.val + 2 * h.val)).toNat +
            256 * (RowGroupIn.byte g (8193 + 4 * r.val + 2 * h.val)).toNat))) ∧
      (∀ n, n ≠ g.croft.num → t.croft n = s.croft n) ∧ t = { s with crofts := t.crofts } := by
  have hexec := exec_castRowGroupEnd s g k hk hfull hgroups hgood
  obtain ⟨honly, hmoulds, hothers⟩ := s.stageImage_moulds g.croft.num (((s.mould g.croft.num g.mould.val).slot).getD 0)
    (g.image.map fun e => (e.1.val, e.2))
  generalize s.stageImage g.croft.num (((s.mould g.croft.num g.mould.val).slot).getD 0) (g.image.map fun e => (e.1.val, e.2)) = u
    at hexec honly hmoulds hothers
  have hmould : (u.modMould g.croft.num g.mould.val fun x => x.programmed k g).mould g.croft.num g.mould.val =
      (s.mould g.croft.num g.mould.val).programmed k g := by rw [State.mould_modMould_self, hmoulds]
  refine ⟨_, hexec, ?_⟩
  rw [hmould]
  refine ⟨rfl, fun j hj => ?_, fun a ha => Mould.programmed_other _ k g hgroups a ha,
    fun hnodup e he hlt => Mould.programmed_weights _ k g hnodup e he hlt, fun r h => Mould.programmed_witness _ k g r h,
    fun n hn => (State.croft_modCroft_ne _ _ hn).trans (hothers n hn), honly.trans (u.modCroft_only _ _)⟩
  rw [Mould.programmed, hj]
  exact legalSpan_pow j

/-- A poisoned image stops the mould (R466). -/
theorem rowGroup_poisoned (s : State) (g : RowGroupIn) (k : Cast) (hk : (s.mould g.croft.num g.mould.val).cast = some k)
    (hfull : k.full = true) (hgroups : k.groups < 16) (hbad : g.poisoned = true) :
    ∃ t, exec (.castRowGroupEnd g) s = .next t ∧ (t.mould g.croft.num g.mould.val).cast = none ∧
      (t.mould g.croft.num g.mould.val).state = (s.mould g.croft.num g.mould.val).state ∧
      (t.mould g.croft.num g.mould.val).weights = (s.mould g.croft.num g.mould.val).weights ∧
      (g.croft.num, ((s.mould g.croft.num g.mould.val).slot).getD 0, s.service g.croft.num == .inService) ∈
        (t.die (croftDie g.croft.num)).quenchCasts ∧
      (t.pkg.gen.castPoison = true ↔ s.pkg.gen.switch.isSome = true) := by
  have hexec := exec_castRowGroupEnd_poisoned s g k hk hfull hgroups hbad
  have hcast : (s.mould g.croft.num g.mould.val).cast.isSome = true := by rw [hk]; rfl
  have hnote : s.noteCast g.croft.num g.mould.val = s.modDie (croftDie g.croft.num) fun x =>
      { x with quenchCasts := if (g.croft.num, ((s.mould g.croft.num g.mould.val).slot).getD 0, s.service g.croft.num == .inService) ∈ x.quenchCasts
        then x.quenchCasts
        else x.quenchCasts ++ [(g.croft.num, ((s.mould g.croft.num g.mould.val).slot).getD 0, s.service g.croft.num == .inService)] } := if_pos hcast
  have habandon : s.abandonCast g.croft.num g.mould.val =
      (s.noteCast g.croft.num g.mould.val).modMould g.croft.num g.mould.val fun x => { x with cast := none } := if_pos hcast
  have hmould : (s.abandonCast g.croft.num g.mould.val).mould g.croft.num g.mould.val =
      { s.mould g.croft.num g.mould.val with cast := none } := by
    rw [habandon, hnote, State.mould_modMould_self]
    rfl
  refine ⟨_, hexec, ?_⟩
  rw [State.castPoisoned_mould, hmould, State.castPoisoned_die]
  refine ⟨rfl, rfl, rfl, ?_, ?_⟩
  · have hdie : (s.abandonCast g.croft.num g.mould.val).die (croftDie g.croft.num) =
        (s.noteCast g.croft.num g.mould.val).die (croftDie g.croft.num) := by rw [habandon]; rfl
    refine (congrArg (fun x : Die => _ ∈ x.quenchCasts) (hdie.trans (congrArg (State.die · _) hnote))).mpr ?_
    rw [State.die_modDie_self]
    dsimp only
    split
    next h => exact h
    next => exact List.mem_append_right _ (List.mem_singleton.mpr rfl)
  · rw [habandon, hnote]
    exact Iff.rfl

end Sys2Proof.Machine
end

section
/-!
Closes of casts: records, moved columns, spent moulds and spare columns (R55, R78, R79, R85, R88, R89).
-/
namespace Sys2Proof.Machine

/-! ### Moved columns -/

/-- `y` is `x` with more columns failed, `ps` among them, and spares assigned. -/
structure Mould.Moved (x y : Mould) (ps : List Nat) : Prop where
  frame : y = { x with failed := y.failed, spareMap := y.spareMap }
  kept : ∀ p ∈ x.failed, p ∈ y.failed
  failed : ∀ p ∈ ps, p ∈ y.failed

theorem Mould.moveColumn_moved {x y : Mould} {p : Nat} (h : x.moveColumn p = some y) : x.Moved y [p] := by
  have hlast (q : Nat) (l : List Nat) (hq : q ∈ [p]) : q ∈ l ++ [p] := List.mem_append_right _ hq
  have hmore : Mould.Moved x { x with failed := x.failed ++ [p] } [p] := ⟨rfl, fun _ hq => List.mem_append_left _ hq, fun q hq => hlast q _ hq⟩
  unfold Mould.moveColumn at h
  dsimp only at h
  split at h
  next hp =>
    cases h
    exact ⟨rfl, fun _ hq => hq, fun q hq => by rwa [List.mem_singleton.mp hq]⟩
  next =>
    split at h
    next =>
      cases h
      exact hmore
    next =>
      split at h
      next => cases h
      next =>
        cases h
        exact ⟨rfl, hmore.kept, hmore.failed⟩

theorem Mould.Moved.trans {x y z : Mould} {ps qs : List Nat} (a : x.Moved y ps) (b : y.Moved z qs) : x.Moved z (ps ++ qs) where
  frame := by rw [b.frame, a.frame]
  kept p hp := b.kept p (a.kept p hp)
  failed p hp := (List.mem_append.mp hp).elim (fun h => b.kept p (a.failed p h)) (b.failed p)

theorem Mould.moveColumns_moved {x y : Mould} {ps : List Nat} (h : x.moveColumns ps = some y) : x.Moved y ps := by
  induction ps generalizing x with
  | nil =>
    cases h
    exact ⟨rfl, fun _ hp => hp, nofun⟩
  | cons p ps ih =>
    rw [Mould.moveColumns, Option.bind_eq_some_iff] at h
    obtain ⟨z, hz, h⟩ := h
    exact (Mould.moveColumn_moved hz).trans (ih h)

theorem Mould.markReplaced_frame (m : Mould) (cols : List Nat) :
    m.markReplaced cols = { m with failed := (m.markReplaced cols).failed } ∧ ∀ p ∈ m.failed, p ∈ (m.markReplaced cols).failed := by
  unfold Mould.markReplaced
  refine List.foldlRecOn cols _ (motive := fun x : Mould => x = { m with failed := x.failed } ∧ ∀ p ∈ m.failed, p ∈ x.failed)
    ⟨rfl, fun _ h => h⟩ fun x hx c _ => ?_
  split
  next =>
    refine ⟨?_, fun p hp => List.mem_append_left _ (hx.2 p hp)⟩
    rw [hx.1]
  next => exact hx

/-! ### Full casts that close -/

section Closed
variable (s : State) (c : CastCloseIn) (gen : Nat) (y : Mould)

theorem State.closedMould_fields :
    (s.closedMould c gen y).state = .cast ∧ (s.closedMould c gen y).cast = none ∧ (s.closedMould c gen y).generation = gen ∧
      (s.closedMould c gen y).gauging = { castG45 := c.firstSet.held.g45 } := ⟨rfl, rfl, rfl, rfl⟩

theorem State.closedMould_columns :
    (s.closedMould c gen y).spareMap = y.spareMap ∧ (s.closedMould c gen y).standins = [] ∧
      (∀ p ∈ y.failed, p ∈ (s.closedMould c gen y).failed) ∧ (s.closedMould c gen y).weights = y.weights := by
  obtain ⟨hframe, hfailed⟩ := y.markReplaced_frame y.pendingColumns
  have hset (x : Mould) (set : CoefSet) : (x.setActive set).spareMap = x.spareMap ∧ (x.setActive set).standins = x.standins ∧
      (x.setActive set).failed = x.failed ∧ (x.setActive set).weights = x.weights := by
    unfold Mould.setActive
    split <;> exact ⟨rfl, rfl, rfl, rfl⟩
  obtain ⟨hspare, hstand, hfail, hweights⟩ := hset y.settlePending
    { c.firstSet.held with thetaG := (max 0 (s.rowTemp c.croft.num)).toNat, tG := s.reeveTime c.croft.die.val }
  refine ⟨hspare.trans ?_, hstand, fun p hp => ?_, hweights.trans ?_⟩
  · rw [Mould.settlePending, hframe]
  · exact (congrArg (p ∈ ·) hfail).mpr (hfailed p hp)
  · rw [Mould.settlePending, hframe]

theorem State.closedMould_activeSet : (s.closedMould c gen y).activeSet =
    { c.firstSet.held with thetaG := (max 0 (s.rowTemp c.croft.num)).toNat, tG := s.reeveTime c.croft.die.val } :=
  y.settlePending.activeSet_setActive _

end Closed

/-- From `s` to `t` croft `n` may differ, but not in its moulds, and nothing else has moved. -/
structure MouldsStay (s t : State) (n : Nat) : Prop where
  frame : CroftsOnly s t
  moulds : (t.croft n).moulds = (s.croft n).moulds
  others : ∀ k, k ≠ n → t.croft k = s.croft k

theorem MouldsStay.refl (s : State) (n : Nat) : MouldsStay s s n := ⟨.refl s, rfl, fun _ _ => rfl⟩

theorem MouldsStay.trans {s t u : State} {n : Nat} (a : MouldsStay s t n) (b : MouldsStay t u n) : MouldsStay s u n :=
  ⟨a.frame.trans b.frame, b.moulds.trans a.moulds, fun k hk => (b.others k hk).trans (a.others k hk)⟩

theorem MouldsStay.modCroft (s : State) (n : Nat) (f : Croft → Croft) (hf : (f (s.croft n)).moulds = (s.croft n).moulds) :
    MouldsStay s (s.modCroft n f) n :=
  ⟨s.modCroft_only n f, by rw [State.croft_modCroft_self, hf], fun _ hk => State.croft_modCroft_ne _ _ hk⟩

theorem MouldsStay.mould {s t : State} {n : Nat} (h : MouldsStay s t n) (m : Nat) : t.mould n m = s.mould n m := by
  rw [State.mould, Croft.mould, h.moulds, State.mould, Croft.mould]

theorem Croft.writeHot_moulds (c : Croft) (p : PatternImage) (row col : Nat) (src : Croft) (slots : Nat → Bool) :
    (c.writeHot p row col src slots).moulds = c.moulds := by
  unfold Croft.writeHot
  refine List.foldlRecOn _ _ (motive := fun k : Croft => k.moulds = c.moulds) rfl fun k hk h _ => ?_
  split <;> exact hk

theorem State.rewriteHot_stays (s : State) (n m : Nat) : MouldsStay s (s.rewriteHot n m) n := by
  unfold State.rewriteHot
  split
  · exact .modCroft s n _ (Croft.writeHot_moulds _ _ _ _ _ _)
  · exact .refl s n

theorem State.writeCroftRecord_stays (s : State) (n g date : Nat) : MouldsStay s (s.writeCroftRecord n g date) n := by
  unfold State.writeCroftRecord
  dsimp only
  split
  · exact .refl s n
  · exact .modCroft s n _ rfl

section Close
variable (s : State) (x : CastCloseIn) (k : Cast) (hk : (s.mould x.croft.num x.mould.val).cast = some k)
include hk

/-- The columns that a close finds failed, in the order in which they move (R78). -/
def badColumns (k : Cast) (x : CastCloseIn) : List Nat :=
  k.failed ++ (x.spareFailed.map (·.val)).map (262 + ·) ++ x.verifyFailed.map (·.val)

theorem exec_castClose_closes (hfull : k.full = true) (hgroups : k.groups = 16) (y : Mould)
    (hy : (s.mould x.croft.num x.mould.val).moveColumns (badColumns k x) = some y) :
    exec (.castClose x) s = .next (((s.modMould x.croft.num x.mould.val fun _ => s.closedMould x k.generation y).rewriteHot
      x.croft.num x.mould.val).writeCroftRecord x.croft.num k.generation x.castDate) := by
  change execCastClose x s = _
  rw [badColumns] at hy
  simp only [execCastClose, hk]
  rw [if_pos hfull, if_neg (by omega), hy]

/-- A mould with more columns failed. -/
def Mould.withFailed (z : Mould) (failed : List Nat) : Mould := { z with failed := failed }

theorem exec_castClose_fails (hfull : k.full = true) (hgroups : k.groups = 16)
    (hy : (s.mould x.croft.num x.mould.val).moveColumns (badColumns k x) = none) :
    exec (.castClose x) s = .next ((s.modMould x.croft.num x.mould.val (·.withFailed ((s.mould x.croft.num x.mould.val).failed ++
      (badColumns k x).filter fun p => !decide (p ∈ (s.mould x.croft.num x.mould.val).failed)))).spendMould
        x.croft.num x.mould.val .failed) := by
  change execCastClose x s = _
  rw [badColumns] at hy
  simp only [execCastClose, hk]
  rw [if_pos hfull, if_neg (by omega), hy]
  rfl

theorem exec_castClose_spares (hfull : k.full = false) (hspare : x.spareFailed = []) (hverify : x.verifyFailed = []) :
    exec (.castClose x) s = .next (s.closeSpares x.croft.num x.mould.val k []) := by
  change execCastClose x s = _
  simp only [execCastClose, hk]
  rw [if_neg (by simp [hfull]), hspare, hverify]
  rfl

/-- A full cast whose failed columns all have spares closes CAST (R55, R76, R78, R88). -/
theorem castClose_closes (hfull : k.full = true) (hgroups : k.groups = 16) (y : Mould)
    (hy : (s.mould x.croft.num x.mould.val).moveColumns (badColumns k x) = some y) :
    ∃ t, exec (.castClose x) s = .next t ∧ (t.mould x.croft.num x.mould.val).state = .cast ∧
      (t.mould x.croft.num x.mould.val).cast = none ∧ (t.mould x.croft.num x.mould.val).generation = k.generation ∧
      (t.mould x.croft.num x.mould.val).spareMap = y.spareMap ∧ (t.mould x.croft.num x.mould.val).standins = [] ∧
      (∀ p ∈ badColumns k x, p ∈ (t.mould x.croft.num x.mould.val).failed) ∧
      (t.mould x.croft.num x.mould.val).activeSet =
        { x.firstSet.held with thetaG := (max 0 (s.rowTemp x.croft.num)).toNat, tG := s.reeveTime x.croft.die.val } ∧
      (t.mould x.croft.num x.mould.val).gauging = { castG45 := x.firstSet.held.g45 } ∧
      (t.mould x.croft.num x.mould.val).weights = (s.mould x.croft.num x.mould.val).weights ∧
      (∀ n, n ≠ x.croft.num → t.croft n = s.croft n) ∧ t = { s with crofts := t.crofts } := by
  have hexec := exec_castClose_closes s x k hk hfull hgroups y hy
  have hmould : (s.modMould x.croft.num x.mould.val fun _ => s.closedMould x k.generation y).mould x.croft.num x.mould.val =
      s.closedMould x k.generation y := State.mould_modMould_self _ _ _ _
  have hothers (n : Nat) (hn : n ≠ x.croft.num) : (s.modMould x.croft.num x.mould.val fun _ => s.closedMould x k.generation y).croft n = s.croft n :=
    State.croft_modCroft_ne _ _ hn
  have honly : CroftsOnly s (s.modMould x.croft.num x.mould.val fun _ => s.closedMould x k.generation y) := s.modCroft_only _ _
  generalize (s.modMould x.croft.num x.mould.val fun _ => s.closedMould x k.generation y) = u at hexec hmould hothers honly
  have hstay := (u.rewriteHot_stays x.croft.num x.mould.val).trans (State.writeCroftRecord_stays _ x.croft.num k.generation x.castDate)
  obtain ⟨hstate, hcast, hgen, hgauging⟩ := s.closedMould_fields x k.generation y
  obtain ⟨hspare, hstand, hfailed, hweights⟩ := s.closedMould_columns x k.generation y
  have hmoved := Mould.moveColumns_moved hy
  refine ⟨_, hexec, ?_⟩
  rw [hstay.mould, hmould]
  refine ⟨hstate, hcast, hgen, hspare, hstand, fun p hp => hfailed p (hmoved.failed p hp), s.closedMould_activeSet x k.generation y,
    hgauging, hweights.trans ?_, fun n hn => (hstay.others n hn).trans (hothers n hn), honly.trans hstay.frame⟩
  rw [hmoved.frame]

end Close

/-! ### Moulds that are spent -/

/-- A mould written FAILED or RETIRED (R79, R91). -/
def Mould.spent (x : Mould) (st : MouldState) : Mould :=
  { x with
    state := st, slot := none, cast := none, castWaiting := false, standins := [], refPending := [], refReady := [], spareWaiting := []
    gauging := {}, probe := none }

theorem State.mapReserve_mould (s : State) (n slot m : Nat) : (s.mapReserve n slot).mould n m = s.mould n m ∨
    (s.mapReserve n slot).mould n m = (s.mould n m).reserved slot ∨
    (s.mapReserve n slot).mould n m = { s.mould n m with cast := none, castWaiting := false, spareWaiting := [] } := by
  unfold State.mapReserve
  split
  next j _ =>
    by_cases h : m = j
    · subst h
      exact .inr (.inl (s.mould_modMould_self n m (·.reserved slot)))
    · exact .inl ((s.mould_modMould n j n m (·.reserved slot)).trans (if_neg fun he => h he.2))
  next =>
    obtain hc | hc := (s.fence_fenced n).croft
    · exact .inl (by rw [State.mould, hc, State.mould])
    · exact .inr (.inr (by rw [State.mould, hc, Croft.fencedOff_mould, State.mould]))

/-- What a spent mould leaves: its state, its failed columns, no cast, and its slot held. -/
theorem State.spendMould_left (s : State) (n m : Nat) (st : MouldState) :
    ((s.spendMould n m st).mould n m).state = st ∧ ((s.spendMould n m st).mould n m).cast = none ∧
      ((s.spendMould n m st).mould n m).failed = (s.mould n m).failed ∧
      ∀ q, (s.mould n m).slot = some q → q ∈ ((s.spendMould n m st).croft n).held := by
  have hspent : ((s.modMould n m (·.spent st)).modCroft n (·.clearSlots)).mould n m = (s.mould n m).spent st := by
    rw [State.mould, State.croft_modCroft_self]
    exact State.mould_modMould_self s n m (·.spent st)
  rcases hslot : (s.mould n m).slot with _ | q
  · have heq : s.spendMould n m st = (s.modMould n m (·.spent st)).modCroft n (·.clearSlots) := by
      simp only [State.spendMould, hslot]
      rfl
    rw [heq, hspent]
    exact ⟨rfl, rfl, rfl, nofun⟩
  · have heq : s.spendMould n m st =
        (((s.modMould n m (·.spent st)).modCroft n (·.clearSlots)).holdSlot n q).mapReserve n q := by
      simp only [State.spendMould, hslot]
      rfl
    rw [heq]
    have hheld := (State.mapReserve_slotTaken (((s.modMould n m (·.spent st)).modCroft n (·.clearSlots)).holdSlot n q) n q).held q
      (State.mem_holdSlot _ n q)
    have hcase := State.mapReserve_mould (((s.modMould n m (·.spent st)).modCroft n (·.clearSlots)).holdSlot n q) n q m
    rw [State.holdSlot_mould, hspent] at hcase
    obtain h | h | h := hcase <;> rw [h] <;> exact ⟨rfl, rfl, rfl, fun p hp => Option.some.inj hp ▸ hheld⟩

/-- A full cast with a failed column without a spare closes FAILED (R79). -/
theorem castClose_fails (s : State) (x : CastCloseIn) (k : Cast) (hk : (s.mould x.croft.num x.mould.val).cast = some k)
    (hfull : k.full = true) (hgroups : k.groups = 16)
    (hy : (s.mould x.croft.num x.mould.val).moveColumns (badColumns k x) = none) :
    ∃ t, exec (.castClose x) s = .next t ∧ (t.mould x.croft.num x.mould.val).state = .failed ∧
      (t.mould x.croft.num x.mould.val).cast = none ∧
      (∀ p ∈ badColumns k x, p ∈ (t.mould x.croft.num x.mould.val).failed) ∧
      (∀ q, (s.mould x.croft.num x.mould.val).slot = some q → q ∈ (t.croft x.croft.num).held) := by
  have hexec := exec_castClose_fails s x k hk hfull hgroups hy
  generalize hall : (s.mould x.croft.num x.mould.val).failed ++
    (badColumns k x).filter (fun p => !decide (p ∈ (s.mould x.croft.num x.mould.val).failed)) = all at hexec
  obtain ⟨hstate, hcast, hfailed, hheld⟩ := (s.modMould x.croft.num x.mould.val (·.withFailed all)).spendMould_left x.croft.num x.mould.val .failed
  rw [State.mould_modMould_self] at hfailed hheld
  refine ⟨_, hexec, hstate, hcast, fun p hp => ?_, fun q hq => hheld q hq⟩
  rw [hfailed, Mould.withFailed, ← hall, List.mem_append, List.mem_filter]
  by_cases h : p ∈ (s.mould x.croft.num x.mould.val).failed
  · exact .inl h
  · exact .inr ⟨hp, by simp [h]⟩

/-! ### Spare columns that close -/

/-- A mould whose spare cast has closed without a failure (R85). -/
def Mould.sparesClosed (x : Mould) (k : Cast) : Mould :=
  { x with
    cast := none
    standins := x.standins.map fun e => if e.column ∈ k.spares.filterMap (fun i => tfind x.spareMap i) then { e with spareReady := true } else e
    refReady := x.refReady ++ x.refPending.filter fun c => decide (c ∈ k.spares.filterMap fun i => tfind x.spareMap i) }

theorem State.closeSpares_good (s : State) (n m : Nat) (k : Cast) :
    s.closeSpares n m k [] = s.modMould n m fun _ => (s.mould n m).sparesClosed k := by
  have hgood : (k.spares.filter fun i => !decide (i ∈ ([] : List Nat))) = k.spares := by simp
  have hlost : (k.spares.filter fun i => decide (i ∈ ([] : List Nat))) = [] := by simp
  unfold State.closeSpares
  simp only [hgood, hlost, List.filterMap_nil, List.map_nil, List.append_nil, List.zip_nil_right, List.foldl_nil, List.length_nil,
    Nat.not_lt_zero, if_false]
  rfl

/-- A spare-column cast makes its spares ready (R85). -/
theorem castClose_spares (s : State) (x : CastCloseIn) (k : Cast) (hk : (s.mould x.croft.num x.mould.val).cast = some k)
    (hfull : k.full = false) (hspare : x.spareFailed = []) (hverify : x.verifyFailed = []) :
    ∃ t, exec (.castClose x) s = .next t ∧ (t.mould x.croft.num x.mould.val).cast = none ∧
      (∀ e ∈ (t.mould x.croft.num x.mould.val).standins,
        (∃ i ∈ k.spares, tfind (s.mould x.croft.num x.mould.val).spareMap i = some e.column) → e.spareReady = true) ∧
      (t.mould x.croft.num x.mould.val).spareMap = (s.mould x.croft.num x.mould.val).spareMap ∧
      (∀ n, n ≠ x.croft.num → t.croft n = s.croft n) ∧ t = { s with crofts := t.crofts } := by
  have hexec := (exec_castClose_spares s x k hk hfull hspare hverify).trans (congrArg _ (s.closeSpares_good x.croft.num x.mould.val k))
  refine ⟨_, hexec, ?_⟩
  rw [State.mould_modMould_self]
  refine ⟨rfl, fun e he hready => ?_, rfl, fun n hn => State.croft_modCroft_ne _ _ hn, rfl⟩
  obtain ⟨e, -, rfl⟩ := List.mem_map.mp he
  split at hready
  next h => rw [if_pos h]
  next h => exact absurd (List.mem_filterMap.mpr hready) h

/-- Settles O48: row groups by their image, and closes by the columns that failed. -/
theorem castsProgramAndClose : Obligations.CastsProgramAndClose := by
  unfold Obligations.CastsProgramAndClose
  intro s g x
  exact ⟨fun k hk hfull hgroups hgood => rowGroup_programs s g k hk hfull hgroups hgood,
    fun k hk hfull hgroups hbad => rowGroup_poisoned s g k hk hfull hgroups hbad,
    fun k y hk hfull hgroups hy => castClose_closes s x k hk hfull hgroups y hy,
    fun k hk hfull hgroups hy => castClose_fails s x k hk hfull hgroups hy,
    fun k hk hfull hspare hverify => castClose_spares s x k hk hfull hspare hverify⟩

end Sys2Proof.Machine
end

section
/-!
Attention exchanges: query sets, descriptors and acknowledged writes (R268, R272, R274, R283, R294, R295).
-/
namespace Sys2Proof.Machine

/-! ### Queues of engines -/

/-- From `s` to `t` engines of hubs may have moved, and registers and interrupts; nothing else of the block, and no query set. -/
structure Issued (s t : State) : Prop where
  frame : t = { s with regs := t.regs, stew := t.stew, store := { s.store with hubs := t.store.hubs } }
  qsets : ∀ k, (t.hub k).qsets = (s.hub k).qsets

theorem Issued.refl (s : State) : Issued s s := ⟨rfl, fun _ => rfl⟩

theorem Issued.trans {s t u : State} (a : Issued s t) (b : Issued t u) : Issued s u :=
  ⟨by rw [b.frame, a.frame], fun k => (b.qsets k).trans (a.qsets k)⟩

theorem State.modHub_issued (s : State) (h : Nat) (f : HubAttn → HubAttn) (hf : ∀ x, (f x).qsets = x.qsets) : Issued s (s.modHub h f) := by
  refine ⟨rfl, fun k => ?_⟩
  rw [State.hub_modHub]
  split
  next he => rw [hf, he]
  next => rfl

theorem LoggedIn.hub {s t : State} {p : Page} {c : Code} (h : LoggedIn s t p c) (k : Nat) : t.hub k = s.hub k := by
  rw [h.1]
  rfl

theorem State.attnError_logged (s : State) (h e slot : Nat) (c : Code) : LoggedIn s (s.attnError h e slot c) (.attn h) c :=
  s.logError_logged _ _ _ _ _ _ (base_ne_lost _ (base_aligned _))

theorem State.attnError_issued (s : State) (h e slot : Nat) (c : Code) : Issued s (s.attnError h e slot c) := by
  refine ⟨?_, fun k => by rw [(s.attnError_logged h e slot c).hub]⟩
  have hframe := (s.attnError_logged h e slot c).1
  rw [hframe]

/-- A queue that starts again under the next epoch (R275). -/
def Engine.restarted (y : Engine) : Engine :=
  if y.halted then { y with lease := { y.lease with epoch := y.lease.epoch + 1 }, slots := [], expected := y.produced, halted := false } else y

/-- An engine whose lease is granted where nobody holds it (R266). -/
def Engine.leased (z : Engine) (core : Fin 16) (ends : Nat) : Engine :=
  if z.lease.held then z else { z with lease := { z.lease with held := true, holder := .core core, ends := ends } }

/-- An engine before its next use (R266, R275). -/
def Engine.readied (y : Engine) (core : Fin 16) (ends : Nat) : Engine := y.restarted.leased core ends

theorem Engine.leased_keeps (z : Engine) (core : Fin 16) (ends : Nat) :
    (z.leased core ends).slots = z.slots ∧ (z.leased core ends).produced = z.produced ∧ (z.leased core ends).expected = z.expected ∧
      (z.leased core ends).halted = z.halted ∧ (z.leased core ends).lease.epoch = z.lease.epoch ∧ (z.leased core ends).lease.held = true := by
  unfold Engine.leased
  split
  next hheld => exact ⟨rfl, rfl, rfl, rfl, rfl, hheld⟩
  next => exact ⟨rfl, rfl, rfl, rfl, rfl, rfl⟩

theorem Engine.readied_running (y : Engine) (core : Fin 16) (ends : Nat) (h : y.halted = false) :
    (y.readied core ends).slots = y.slots ∧ (y.readied core ends).produced = y.produced ∧
      (y.readied core ends).lease.epoch = y.lease.epoch ∧ (y.readied core ends).lease.held = true := by
  have hsame : y.restarted = y := if_neg (by simp [h])
  obtain ⟨hslots, hproduced, -, -, hepoch, hheld⟩ := y.leased_keeps core ends
  rw [Engine.readied, hsame]
  exact ⟨hslots, hproduced, hepoch, hheld⟩

theorem Engine.readied_halted (y : Engine) (core : Fin 16) (ends : Nat) (h : y.halted = true) :
    (y.readied core ends).halted = false ∧ (y.readied core ends).slots = [] ∧ (y.readied core ends).expected = y.produced ∧
      (y.readied core ends).lease.epoch = y.lease.epoch + 1 := by
  have hnew : y.restarted =
    { y with lease := { y.lease with epoch := y.lease.epoch + 1 }, slots := [], expected := y.produced, halted := false } := if_pos h
  obtain ⟨hslots, -, hexpected, hhalted, hepoch, -⟩ := y.restarted.leased_keeps core ends
  rw [hnew] at hslots hexpected hhalted hepoch
  rw [Engine.readied, hnew]
  exact ⟨hhalted, hslots, hexpected, hepoch⟩

theorem State.readyEngine_eq (s : State) (h e : Nat) : s.readyEngine h e = s.modHub h fun x => x.modEngine e fun y =>
    y.readied ((s.hub h).leaseCore h e) (s.hubTime h + 1000 * (Config.leaseTerm h e).toNat) := rfl

theorem State.readyEngine_issued (s : State) (h e : Nat) : Issued s (s.readyEngine h e) := s.modHub_issued h _ fun _ => rfl

theorem State.readyEngine_engine (s : State) (h e : Nat) : ((s.readyEngine h e).hub h).engine e =
    ((s.hub h).engine e).readied ((s.hub h).leaseCore h e) (s.hubTime h + 1000 * (Config.leaseTerm h e).toNat) := by
  rw [s.readyEngine_eq, State.hub_modHub_self, HubAttn.engine_modEngine, if_pos rfl]

/-- A descriptor in its slot, under its sequence and the lease's epoch (R272). -/
def Engine.queued (y : Engine) (d : Descriptor) : Engine :=
  { y with
    slots := tset y.slots (y.produced % 64) { d with seq := y.produced, epoch := y.lease.epoch.toNat }.bytes, produced := y.produced + 1 }

theorem State.issue_full (s : State) (h : Nat) (d : Descriptor)
    (hf : (tfind (((s.readyEngine h (s.hub h).pick).hub h).engine (s.hub h).pick).slots
      ((((s.readyEngine h (s.hub h).pick).hub h).engine (s.hub h).pick).produced % 64)).isSome = true) :
    s.issue h d = (s.readyEngine h (s.hub h).pick).attnError h (s.hub h).pick
      ((((s.readyEngine h (s.hub h).pick).hub h).engine (s.hub h).pick).produced % 64) .undrained := if_pos hf

theorem State.issue_free (s : State) (h : Nat) (d : Descriptor)
    (hf : (tfind (((s.readyEngine h (s.hub h).pick).hub h).engine (s.hub h).pick).slots
      ((((s.readyEngine h (s.hub h).pick).hub h).engine (s.hub h).pick).produced % 64)).isSome = false) :
    s.issue h d = (s.readyEngine h (s.hub h).pick).modHub h fun x => x.modEngine (s.hub h).pick (·.queued d) :=
  if_neg (by rw [hf]; exact Bool.false_ne_true)

theorem State.issue_issued (s : State) (h : Nat) (d : Descriptor) : Issued s (s.issue h d) := by
  have hready := s.readyEngine_issued h (s.hub h).pick
  rcases hf : (tfind (((s.readyEngine h (s.hub h).pick).hub h).engine (s.hub h).pick).slots
      ((((s.readyEngine h (s.hub h).pick).hub h).engine (s.hub h).pick).produced % 64)).isSome
  · rw [s.issue_free h d hf]
    exact hready.trans (State.modHub_issued _ _ _ fun _ => rfl)
  · rw [s.issue_full h d hf]
    exact hready.trans (State.attnError_issued _ _ _ _ _)

/-- A descriptor issued to a running queue with a free slot is in it (R272, R274). -/
theorem State.issue_queues (s : State) (h : Nat) (d : Descriptor) (g : Engine) (hg : g = (s.hub h).engine (s.hub h).pick)
    (hrun : g.halted = false) (hfree : tfind g.slots (g.produced % 64) = none) :
    tfind (((s.issue h d).hub h).engine (s.hub h).pick).slots (g.produced % 64) =
        some { d with seq := g.produced, epoch := g.lease.epoch.toNat }.bytes ∧
      (((s.issue h d).hub h).engine (s.hub h).pick).produced = g.produced + 1 ∧
      (((s.issue h d).hub h).engine (s.hub h).pick).lease.held = true := by
  have hready := s.readyEngine_engine h (s.hub h).pick
  rw [← hg] at hready
  obtain ⟨hslots, hproduced, hepoch, hheld⟩ := g.readied_running ((s.hub h).leaseCore h (s.hub h).pick)
    (s.hubTime h + 1000 * (Config.leaseTerm h (s.hub h).pick).toNat) hrun
  have hissue := s.issue_free h d (by rw [hready, hslots, hproduced, hfree]; rfl)
  have hengine : ((s.issue h d).hub h).engine (s.hub h).pick = (g.readied ((s.hub h).leaseCore h (s.hub h).pick)
      (s.hubTime h + 1000 * (Config.leaseTerm h (s.hub h).pick).toNat)).queued d := by
    rw [hissue, State.hub_modHub_self, HubAttn.engine_modEngine, if_pos rfl, hready]
  rw [hengine, Engine.queued, hproduced, hepoch]
  exact ⟨tfind_tset_self _ _ _, rfl, hheld⟩

/-! ### Query sets -/

/-- The record of a new query set (R294). -/
def newSet (e : ExchangeIn) (ins : List QueryIn) (n : Nat) : QSet :=
  { step := e.step, layer := e.layer, queries := ins.map stageQuery, die := e.die.val, outs := ins.map (·.out), partials := n
    running := (ins.map stageQuery).map fun _ => SoftState.start }

/-- A state with a query set in a record of a hub. -/
def State.withSet (s : State) (h q : Nat) (x : QSet) : State := s.modHub h fun y => { y with qsets := tset y.qsets q x }

theorem State.withSet_qset (s : State) (h q : Nat) (x : QSet) : ((s.withSet h q x).hub h).qset q = x := by
  rw [State.withSet, State.hub_modHub_self]
  exact tget_tset_self _ _ _ _

theorem State.withSet_engine (s : State) (h q : Nat) (x : QSet) (k e : Nat) : ((s.withSet h q x).hub k).engine e = (s.hub k).engine e := by
  rw [State.withSet, State.hub_modHub]
  split
  next he => rw [he]; rfl
  next => rfl

theorem HubAttn.pick_congr {x y : HubAttn} (h : ∀ e, x.engine e = y.engine e) : x.pick = y.pick := by
  simp only [HubAttn.pick, h]

/-- The descriptor of a piece of a walk (R272). -/
def State.descOf (s : State) (x : Nat) (e : ExchangeIn) (head count part q p first n pos : Nat) : Descriptor :=
  { seq := 0, context := x, layer := e.layer, kv8 := (s.sess x).kv8, head := head, queryCount := count, keyFirst := first, keyCount := n
    partIndex := part, firstPosition := pos, qset := q, tau := e.tau, window := ((s.sessShape x).windowOf e.layer).getD 0
    floor := (s.sess x).floor, epoch := 0, page := p }

/-- A walk depends on the session and its generation's shape. -/
theorem State.walk_congr {s t : State} (hserve : t.serve = s.serve) (hpkg : t.pkg = s.pkg) (x layer head : Nat) (qs : List Query) :
    t.walk x layer head qs = s.walk x layer head qs := by
  have hsess (k : Nat) : t.sess k = s.sess k := by rw [State.sess, hserve, State.sess]
  have hshape (k : Nat) : t.sessShape k = s.sessShape k := by
    unfold State.sessShape State.sessIngot
    rw [hsess, hpkg]
  unfold State.walk State.blockIndex
  rw [hsess, hshape]

theorem State.walkErrors_frame (s : State) (x layer head : Nat) :
    s.walkErrors x layer head = { s with regs := (s.walkErrors x layer head).regs, stew := (s.walkErrors x layer head).stew } ∧
      ∀ k off, off < 0x1000 → off ∉ [0x020, 0x028, 0x030, 0x050] →
        (s.walkErrors x layer head).reg (.attn k) off = s.reg (.attn k) off := by
  unfold State.walkErrors
  refine List.foldlRecOn _ _ (motive := fun t : State => t = { s with regs := t.regs, stew := t.stew } ∧ ∀ k off, off < 0x1000 →
    off ∉ [0x020, 0x028, 0x030, 0x050] → t.reg (.attn k) off = s.reg (.attn k) off) ⟨rfl, fun _ _ _ _ => rfl⟩ fun t ht e _ => ?_
  have hlog : LoggedIn t (t.logEvent (.kvmap (s.ownerHub x)) .format (engineAddr ((s.pteAddr x e.1).getD 0))) (.kvmap (s.ownerHub x)) .format :=
    t.logError_logged _ _ _ _ _ _ (base_ne_lost _ (base_aligned _))
  obtain ⟨hframe, hregs⟩ := ht
  refine ⟨?_, fun k off hoff hno => ?_⟩
  · rw [hlog.1, hframe]
  · refine (hlog.2.1 _ ?_).trans (hregs k off hoff hno)
    simp only [List.mem_cons, List.not_mem_nil, or_false, not_or] at hno
    simp only [errorRegs, List.mem_cons, List.not_mem_nil, or_false, Page.base]
    omega

section Open
variable (s : State) (h x : Nat) (e : ExchangeIn) (head : Nat) (ins : List QueryIn)

/-- The state with a new set's record, before its pieces go out. -/
def State.setOpened (n : Nat) : State :=
  (s.walkErrors x e.layer head).withSet h ((s.walkErrors x e.layer head).freeQset h) (newSet e ins n)

theorem State.openSet_empty (hwalk : (s.walkErrors x e.layer head).walk x e.layer head (ins.map stageQuery) = []) :
    s.openSet h x e head ins = (s.setOpened h x e head ins 0).finishSet h ((s.walkErrors x e.layer head).freeQset h) := by
  unfold State.openSet
  simp only [hwalk]
  rfl

theorem State.openSet_page (hkv : e.kv = []) (p first n pos : Nat)
    (hwalk : (s.walkErrors x e.layer head).walk x e.layer head (ins.map stageQuery) = [.page p first n pos]) :
    s.openSet h x e head ins = (s.setOpened h x e head ins 1).issue (stackOfPage p / 2)
      ((s.walkErrors x e.layer head).descOf x e head (ins.map stageQuery).length 0 ((s.walkErrors x e.layer head).freeQset h) p first n pos) := by
  unfold State.openSet
  simp only [hwalk, hkv, List.zipIdx_cons, List.zipIdx_nil, List.foldl_cons, List.foldl_nil, List.any_nil, Bool.false_eq_true, if_false,
    List.isEmpty_cons]
  rfl

/-- From `s` to `t` no step, session or query set has moved. -/
structure SetsKept (s t : State) : Prop where
  serve : t.serve = s.serve
  qsets : ∀ k, (t.hub k).qsets = (s.hub k).qsets

theorem Issued.kept {s t : State} (a : Issued s t) : SetsKept s t := ⟨by rw [a.frame], a.qsets⟩

theorem SetsKept.trans {s t u : State} (a : SetsKept s t) (b : SetsKept t u) : SetsKept s u :=
  ⟨b.serve.trans a.serve, fun k => (b.qsets k).trans (a.qsets k)⟩

/-- Pieces that go out leave the records of query sets, while no write of the step is to be awaited. -/
theorem State.openSet_kept (hkv : e.kv = []) (i : WalkItem) (items : List WalkItem)
    (hwalk : (s.walkErrors x e.layer head).walk x e.layer head (ins.map stageQuery) = i :: items) :
    SetsKept (s.setOpened h x e head ins (i :: items).length) (s.openSet h x e head ins) := by
  unfold State.openSet
  simp only [hwalk, hkv, List.any_nil, Bool.false_eq_true, if_false, List.isEmpty_cons]
  refine List.foldlRecOn _ _ (motive := fun t => SetsKept (s.setOpened h x e head ins (i :: items).length) t) ⟨rfl, fun _ => rfl⟩
    fun t ht it _ => ?_
  split
  · exact ht.trans (State.issue_issued _ _ _).kept
  · exact ht.trans ⟨rfl, fun k => (t.modHub_issued h (fun y => { y with
      remote := y.remote ++ [_], nextTag := ((t.hub h).nextTag + 1) % 2 ^ 32 }) fun _ => rfl).qsets k⟩

end Open

/-- The queries that a set without a key leaves: all EMPTY (R282). -/
theorem newSet_empties (e : ExchangeIn) (ins : List QueryIn) :
    (newSet e ins 0).running.map SoftState.output = ins.map fun _ => (List.replicate 128 (F32.ofInt 0), true) := by
  rw [newSet, List.map_map, List.map_map]
  exact List.map_congr_left fun _ _ => rfl

end Sys2Proof.Machine
end

section
/-!
Attention exchanges: the sets that an exchange opens, its writes, and acknowledgements (R283, R294, R295).
-/
namespace Sys2Proof.Machine

/-! ### The free record -/

theorem State.walkErrors_hub (s : State) (x layer head k : Nat) : (s.walkErrors x layer head).hub k = s.hub k := by
  rw [(s.walkErrors_frame x layer head).1]
  rfl

theorem State.freeQset_congr {s t : State} (hserve : t.serve = s.serve) (hhub : ∀ k, t.hub k = s.hub k) (h : Nat) :
    t.freeQset h = s.freeQset h := by
  simp only [State.freeQset, State.qsetNamed, State.ownerHub, State.sess, hserve, hhub]

theorem State.walkErrors_freeQset (s : State) (x layer head h : Nat) : (s.walkErrors x layer head).freeQset h = s.freeQset h :=
  State.freeQset_congr (by rw [(s.walkErrors_frame x layer head).1]) (s.walkErrors_hub x layer head) h

theorem State.walkErrors_walk (s : State) (x layer head l k : Nat) (qs : List Query) :
    (s.walkErrors x layer head).walk x l k qs = s.walk x l k qs :=
  State.walk_congr (by rw [(s.walkErrors_frame x layer head).1]) (by rw [(s.walkErrors_frame x layer head).1]) x l k qs

/-! ### The final step of a set without poison -/

/-- A step some of whose queries met no key (R282). -/
def Step.emptied (y : Step) : Step := { y with empty := true }

/-- A state in which a set has its outputs (R283). -/
def State.withOutputs (s : State) (h q : Nat) : State :=
  s.modHub h fun y => y.modQset q fun z => { z with
    outputs := some (((s.hub h).qset q).running.map SoftState.output), poison := ((s.hub h).qset q).running.any (·.poison) }

theorem State.finishSet_clean (s : State) (h q n : Nat) (hpoison : ((s.hub h).qset q).running.any (·.poison) = false)
    (hempties : ((((s.hub h).qset q).running.map SoftState.output).filter (·.2)).length = n + 1) :
    s.finishSet h q =
      (((s.withOutputs h q).modStep ((s.hub h).qset q).step Step.emptied).bump (.attn h) 0x120 (n + 1)) := by
  unfold State.finishSet
  simp only [hempties, hpoison, Bool.false_eq_true, if_false, Nat.succ_ne_zero]
  rw [State.withOutputs, hpoison]
  rfl

theorem newSet_clean (e : ExchangeIn) (ins : List QueryIn) (n : Nat) : (newSet e ins n).running.any (·.poison) = false := by
  rw [newSet]
  simp only [List.any_map, List.any_eq_false, Function.comp]
  exact fun _ _ => Bool.false_ne_true

section Open
variable (s : State) (h x : Nat) (e : ExchangeIn) (ins : List QueryIn)

theorem State.setOpened_qset (n : Nat) : ((s.setOpened h x e 0 ins n).hub h).qset (s.freeQset h) = newSet e ins n := by
  rw [State.setOpened, s.walkErrors_freeQset]
  exact State.withSet_qset _ _ _ _

theorem State.setOpened_engine (n k g : Nat) : ((s.setOpened h x e 0 ins n).hub k).engine g = (s.hub k).engine g := by
  rw [State.setOpened, State.withSet_engine, s.walkErrors_hub]

/-- A walk over no key leaves each query EMPTY (R282). -/
theorem State.openSet_nothing (hne : ins ≠ []) (hwalk : s.walk x e.layer 0 (ins.map stageQuery) = []) :
    ((s.openSet h x e 0 ins).hub h).qset (s.freeQset h) =
        { newSet e ins 0 with outputs := some (ins.map fun _ => (List.replicate 128 (F32.ofInt 0), true)), poison := false } ∧
      (s.openSet h x e 0 ins).reg (.attn h) 0x120 = satAdd (s.reg (.attn h) 0x120) ins.length ∧
      ∀ y, (s.openSet h x e 0 ins).findStep e.step = some y → y.empty = true := by
  have hopen := s.openSet_empty h x e 0 ins (by rw [s.walkErrors_walk, hwalk])
  have hset := s.setOpened_qset h x e ins 0
  have hreg : (s.setOpened h x e 0 ins 0).reg (.attn h) 0x120 = s.reg (.attn h) 0x120 :=
    (s.walkErrors_frame x e.layer 0).2 h 0x120 (by decide) (by decide)
  rw [s.walkErrors_freeQset] at hopen
  rw [hopen]
  generalize s.setOpened h x e 0 ins 0 = u at hset hreg
  have hempties : ((((u.hub h).qset (s.freeQset h)).running.map SoftState.output).filter (·.2)).length = (ins.length - 1) + 1 := by
    rw [hset, newSet_empties, List.filter_eq_self.2 fun a ha => by
      obtain ⟨_, -, rfl⟩ := List.mem_map.1 ha
      rfl, List.length_map, Nat.sub_add_cancel (List.length_pos_iff.2 hne)]
  rw [u.finishSet_clean h _ _ (by rw [hset]; exact newSet_clean e ins 0) hempties, Nat.sub_add_cancel (List.length_pos_iff.2 hne)]
  refine ⟨?_, ?_, fun y hy => ?_⟩
  · rw [State.bump_hub, State.withOutputs]
    refine (congrArg (HubAttn.qset · (s.freeQset h)) (State.hub_modHub_self u h _)).trans ?_
    rw [HubAttn.qset_modQset, if_pos rfl, hset, newSet_empties, newSet_clean]
  · rw [State.bump, State.reg_setReg_self]
    exact congrArg (satAdd · ins.length) hreg
  · rw [hset] at hy
    have hfound : ((u.withOutputs h (s.freeQset h)).modStep e.step Step.emptied).findStep e.step = some y := hy
    rw [State.findStep_modStep _ _ Step.emptied fun _ => rfl] at hfound
    obtain ⟨z, -, rfl⟩ := Option.map_eq_some_iff.1 hfound
    rfl

/-- What a new set's record holds, whatever its walk meets (R268, R294). -/
theorem State.openSet_record (hkv : e.kv = []) (hne : ins ≠ []) :
    ∃ y, ((s.openSet h x e 0 ins).hub h).qset (s.freeQset h) = y ∧ y.step = e.step ∧ y.layer = e.layer ∧
      y.queries = ins.map stageQuery ∧ y.outs = ins.map (·.out) ∧ y.die = e.die.val ∧
      y.partials = (s.walk x e.layer 0 (ins.map stageQuery)).length := by
  cases hwalk : s.walk x e.layer 0 (ins.map stageQuery) with
  | nil => exact ⟨_, (s.openSet_nothing h x e ins hne hwalk).1, rfl, rfl, rfl, rfl, rfl, rfl⟩
  | cons i items =>
    have hkept := (s.openSet_kept h x e 0 ins hkv i items (by rw [s.walkErrors_walk, hwalk])).qsets h
    have hset : ((s.openSet h x e 0 ins).hub h).qset (s.freeQset h) = newSet e ins (i :: items).length := by
      rw [HubAttn.qset, hkept]
      exact s.setOpened_qset h x e ins _
    exact ⟨_, hset, rfl, rfl, rfl, rfl, rfl, rfl⟩

/-- A walk of one local page gives one descriptor, in the shortest queue of the page's hub (R272, R274). -/
theorem State.openSet_queues (hkv : e.kv = []) (p f n pos : Nat) (hwalk : s.walk x e.layer 0 (ins.map stageQuery) = [.page p f n pos])
    (k : Nat) (hk : k = (s.hub (stackOfPage p / 2)).pick) (g : Engine) (hg : g = (s.hub (stackOfPage p / 2)).engine k)
    (hrun : g.halted = false) (hfree : tfind g.slots (g.produced % 64) = none) :
    tfind (((s.openSet h x e 0 ins).hub (stackOfPage p / 2)).engine k).slots (g.produced % 64) =
        some { s.descOf x e 0 ins.length 0 (s.freeQset h) p f n pos with seq := g.produced, epoch := g.lease.epoch.toNat }.bytes ∧
      (((s.openSet h x e 0 ins).hub (stackOfPage p / 2)).engine k).produced = g.produced + 1 ∧
      (((s.openSet h x e 0 ins).hub (stackOfPage p / 2)).engine k).lease.held = true := by
  have hopen := s.openSet_page h x e 0 ins hkv p f n pos (by rw [s.walkErrors_walk, hwalk])
  have hengine := s.setOpened_engine h x e ins 1 (stackOfPage p / 2)
  have hdesc : (s.walkErrors x e.layer 0).descOf x e 0 (ins.map stageQuery).length 0 (s.freeQset h) p f n pos =
      s.descOf x e 0 ins.length 0 (s.freeQset h) p f n pos := by
    rw [List.length_map, (s.walkErrors_frame x e.layer 0).1]
    rfl
  rw [s.walkErrors_freeQset, hdesc] at hopen
  rw [hopen]
  generalize s.setOpened h x e 0 ins 1 = u at hengine
  have hpick : (u.hub (stackOfPage p / 2)).pick = k := (HubAttn.pick_congr hengine).trans hk.symm
  have hqueues := u.issue_queues (stackOfPage p / 2) (s.descOf x e 0 ins.length 0 (s.freeQset h) p f n pos) g
    (by rw [hpick, hengine, hg]) hrun hfree
  rw [hpick] at hqueues
  exact hqueues

end Open

/-! ### ATTN_EXCHANGE_ARRIVAL -/

theorem exec_exchange_gone (s : State) (x : ExchangeIn) (h : s.findStep x.step = none) : exec (.attnExchangeArrival x) s = .next s := by
  change execAttnExchangeArrival x s = _
  simp only [execAttnExchangeArrival, h]

theorem batches_short {α : Type} (l : List α) (hne : l ≠ []) (hlen : l.length ≤ 32) : batches (l.length / 32 + 1) l = [l] := by
  have hdrop : l.drop 32 = [] := List.drop_eq_nil_of_le hlen
  cases l with
  | nil => exact absurd rfl hne
  | cons a r =>
    rw [batches, List.take_of_length_le hlen, hdrop]
    cases (a :: r).length / 32 with
    | zero => rfl
    | succ n => rfl

/-- Queries of one head and no more than a batch open one set (R262, R294). -/
theorem exec_exchange_queries (s : State) (x : ExchangeIn) (st : Step) (h : s.findStep x.step = some st) (hkv : x.kv = [])
    (hheads : (s.sessShape st.context).kvHeads = 1) (hhead : ∀ y ∈ x.queries, y.head = 0) (hne : x.queries ≠ [])
    (hlen : x.queries.length ≤ 32) :
    exec (.attnExchangeArrival x) s = .next (s.openSet (s.ownerHub st.context) st.context x 0 x.queries) := by
  have hall : x.queries.filter (fun q => q.head == 0) = x.queries := List.filter_eq_self.2 fun q hq => by simp [hhead q hq]
  change execAttnExchangeArrival x s = _
  simp only [execAttnExchangeArrival, h, hkv, hheads, List.foldl_nil, List.range_one, List.foldl_cons, hall, batches_short _ hne hlen]

/-- A new key and value without a query are written, and no set is opened (R295). -/
theorem exec_exchange_writes (s : State) (x : ExchangeIn) (st : Step) (kv : NewKV) (h : s.findStep x.step = some st) (hkv : x.kv = [kv])
    (hqueries : x.queries = []) : exec (.attnExchangeArrival x) s = .next (s.writeKv st.context x.layer kv) := by
  change execAttnExchangeArrival x s = _
  simp only [execAttnExchangeArrival, h, hkv, hqueries, List.foldl_cons, List.foldl_nil]
  exact congrArg Host.Outcome.next (List.foldl_fixed' (fun _ => rfl) _)

/-- A page that no other entry shares takes the write in place (R291). -/
theorem State.pageForWrite_own (s : State) (x layer head pos p : Nat)
    (hpte : (s.sess x).pte (s.blockIndex x layer head (pos / slotsPerPage (s.sess x).kv8)) = .page p) (hrefs : s.refsOf p ≤ 1) :
    s.pageForWrite x layer head pos = (s, some p) := by
  unfold State.pageForWrite
  simp only [hpte]
  exact if_neg (by omega)

/-! ### KV_WRITE_ACK -/

/-- A set whose descriptors wait no more. -/
def QSet.unwaited (z : QSet) : QSet := { z with waiting := [] }

/-- What an acknowledgement does for a set: of the step's layer, its waiting descriptors are issued (R295). -/
def State.ackSet (u : State) (step layer h : Nat) (e : Nat × QSet) : State :=
  if e.2.step = step ∧ e.2.layer = layer ∧ !e.2.released then
    e.2.waiting.foldl (fun (z : State) d => z.issue d.1 d.2) (u.modHub h fun y => y.modQset e.1 QSet.unwaited)
  else u

/-- What an acknowledgement does at a hub. -/
def State.ackHub (t : State) (step layer h : Nat) : State := (t.hub h).qsets.foldl (fun u e => u.ackSet step layer h e) t

theorem exec_kvWriteAck (s : State) (step layer : Nat) :
    exec (.kvWriteAck step layer) s = .next ((List.range 4).foldl (fun t h => t.ackHub step layer h) s) := rfl

/-- From `s` to `t` hubs, registers and interrupts may have moved, and query sets at most to wait for nothing. -/
structure Acked (s t : State) : Prop where
  frame : t = { s with regs := t.regs, stew := t.stew, store := { s.store with hubs := t.store.hubs } }
  qset : ∀ k q, (t.hub k).qset q = (s.hub k).qset q ∨ (t.hub k).qset q = ((s.hub k).qset q).unwaited

theorem Acked.refl (s : State) : Acked s s := ⟨rfl, fun _ _ => .inl rfl⟩

theorem Acked.trans {s t u : State} (a : Acked s t) (b : Acked t u) : Acked s u := by
  refine ⟨by rw [b.frame, a.frame], fun k q => ?_⟩
  rcases a.qset k q with ha | ha <;> rcases b.qset k q with hb | hb <;> rw [hb, ha]
  · exact .inl rfl
  · exact .inr rfl
  · exact .inr rfl
  · exact .inr rfl

theorem Acked.waiting {s t : State} (a : Acked s t) (k q : Nat) (h : ((s.hub k).qset q).waiting = []) : ((t.hub k).qset q).waiting = [] := by
  rcases a.qset k q with ha | ha
  · rw [ha, h]
  · rw [ha]
    rfl

theorem State.issueAll_issued (s : State) (l : List (Nat × Descriptor)) : Issued s (l.foldl (fun (z : State) d => z.issue d.1 d.2) s) := by
  induction l generalizing s with
  | nil => exact .refl s
  | cons d l ih => exact (s.issue_issued d.1 d.2).trans (ih _)

theorem Issued.acked {s t : State} (a : Issued s t) : Acked s t := ⟨a.frame, fun k q => .inl (by rw [HubAttn.qset, a.qsets, HubAttn.qset])⟩

theorem State.unwait_acked (s : State) (h q : Nat) : Acked s (s.modHub h fun y => y.modQset q QSet.unwaited) := by
  refine ⟨rfl, fun k j => ?_⟩
  rw [State.hub_modHub]
  split
  next hk =>
    rw [HubAttn.qset_modQset, hk]
    split
    next hj => exact .inr (by rw [hj])
    next => exact .inl rfl
  next => exact .inl rfl

theorem State.ackSet_acked (u : State) (step layer h : Nat) (e : Nat × QSet) : Acked u (u.ackSet step layer h e) := by
  unfold State.ackSet
  split
  · exact (u.unwait_acked h e.1).trans (State.issueAll_issued _ _).acked
  · exact .refl u

theorem State.ackSet_unwaits (u : State) (step layer h : Nat) (e : Nat × QSet) (hstep : e.2.step = step) (hlayer : e.2.layer = layer)
    (hreleased : e.2.released = false) : (((u.ackSet step layer h e).hub h).qset e.1).waiting = [] := by
  rw [State.ackSet, if_pos ⟨hstep, hlayer, by rw [hreleased]; rfl⟩]
  refine (State.issueAll_issued _ _).acked.waiting h e.1 ?_
  rw [State.hub_modHub_self, HubAttn.qset_modQset, if_pos rfl]
  rfl

theorem State.ackSets_acked (u : State) (step layer h : Nat) (l : List (Nat × QSet)) :
    Acked u (l.foldl (fun u e => u.ackSet step layer h e) u) := by
  induction l generalizing u with
  | nil => exact .refl u
  | cons e l ih => exact (u.ackSet_acked step layer h e).trans (ih _)

theorem State.ackSets_unwait (u : State) (step layer h : Nat) (l : List (Nat × QSet)) (e : Nat × QSet) (he : e ∈ l)
    (hstep : e.2.step = step) (hlayer : e.2.layer = layer) (hreleased : e.2.released = false) :
    (((l.foldl (fun u e => u.ackSet step layer h e) u).hub h).qset e.1).waiting = [] := by
  induction l generalizing u with
  | nil => exact absurd he List.not_mem_nil
  | cons a l ih =>
    rcases List.mem_cons.1 he with rfl | hl
    · exact (State.ackSets_acked _ step layer h l).waiting h e.1 (u.ackSet_unwaits step layer h e hstep hlayer hreleased)
    · exact ih _ hl

theorem State.ackHub_acked (t : State) (step layer h : Nat) : Acked t (t.ackHub step layer h) := State.ackSets_acked t step layer h _

/-- At its hub no descriptor of the step's layer waits any more. -/
theorem State.ackHub_unwaits (t : State) (step layer h q : Nat) (hstep : ((t.hub h).qset q).step = step)
    (hlayer : ((t.hub h).qset q).layer = layer) (hreleased : ((t.hub h).qset q).released = false) :
    (((t.ackHub step layer h).hub h).qset q).waiting = [] := by
  rcases tget_cases (fun _ => ({} : QSet)) (t.hub h).qsets q with hd | hm
  · exact (t.ackHub_acked step layer h).waiting h q (by rw [HubAttn.qset, hd])
  · exact t.ackSets_unwait step layer h (t.hub h).qsets (q, (t.hub h).qset q) hm hstep hlayer hreleased

theorem State.ackHubs_acked (s : State) (step layer : Nat) (l : List Nat) : Acked s (l.foldl (fun t h => t.ackHub step layer h) s) := by
  induction l generalizing s with
  | nil => exact .refl s
  | cons h l ih => exact (s.ackHub_acked step layer h).trans (ih _)

theorem State.ackHubs_unwait (s : State) (step layer k q : Nat) (l : List Nat) (hk : k ∈ l) (hstep : ((s.hub k).qset q).step = step)
    (hlayer : ((s.hub k).qset q).layer = layer) (hreleased : ((s.hub k).qset q).released = false) :
    (((l.foldl (fun t h => t.ackHub step layer h) s).hub k).qset q).waiting = [] := by
  induction l generalizing s with
  | nil => exact absurd hk List.not_mem_nil
  | cons h l ih =>
    rcases List.mem_cons.1 hk with rfl | hl
    · exact (State.ackHubs_acked _ step layer l).waiting k q (s.ackHub_unwaits step layer k q hstep hlayer hreleased)
    · rcases (s.ackHub_acked step layer h).qset k q with hq | hq
      · exact ih _ hl (by rw [hq, hstep]) (by rw [hq, hlayer]) (by rw [hq, hreleased])
      · exact ih _ hl (by rw [hq]; exact hstep) (by rw [hq]; exact hlayer) (by rw [hq]; exact hreleased)

end Sys2Proof.Machine
end

section
open Sys2Proof.Machine

/-- Settles O49: queries of one head open one set by `openSet`, whose record the pieces that go out leave; an acknowledgement visits the
record of each set of each hub. -/
theorem exchangesOpenQuerySets : Obligations.ExchangesOpenQuerySets := by
  unfold Obligations.ExchangesOpenQuerySets
  intro s x st h q kv
  refine ⟨exec_exchange_gone s x, ?queries, ?writes, ?acks⟩
  case queries =>
    intro hst hh hq hkv hheads hhead hne hlen
    subst hh hq
    obtain ⟨y, hset, hstep, hlayer, hqueries, houts, hdie, hpartials⟩ := s.openSet_record (s.ownerHub st.context) st.context x x.queries hkv hne
    refine ⟨_, exec_exchange_queries s x st hst hkv hheads hhead hne hlen, ?_⟩
    rw [hset]
    refine ⟨hstep, hlayer, hqueries, houts, hdie, hpartials, fun hwalk => ?_, fun p f n pos hwalk e he g hg hrun hfree => ?_⟩
    · obtain ⟨hrecord, hcount, hempty⟩ := s.openSet_nothing (s.ownerHub st.context) st.context x x.queries hne hwalk
      exact ⟨by rw [← hset, hrecord], hcount, hempty⟩
    · exact s.openSet_queues (s.ownerHub st.context) st.context x x.queries hkv p f n pos hwalk e he g (hg.trans (by rw [he])) hrun hfree
  case writes =>
    intro hst hkv hqueries p hpte hrefs
    rw [exec_exchange_writes s x st kv hst hkv hqueries, State.writeKv, s.pageForWrite_own _ _ _ _ _ hpte hrefs]
  case acks =>
    exact ⟨_, exec_kvWriteAck s x.step x.layer, fun k q' hk => State.ackHubs_unwait s x.step x.layer k q' _ (List.mem_range.2 hk),
      (State.ackHubs_acked s x.step x.layer _).frame⟩

end

section
/-!
What reading and writing stack memory leaves of the attention blocks, and how it stands to their hubs (R262, R276, R313).
-/
namespace Sys2Proof.Machine

/-! ### Registers of the package pages below the stacks' -/

/-- The registers of the pages from the commons to the key-value maps, which an access of memory does not reach. -/
def State.nearRegs (s : State) : Nat → Word := fun a => if 0x5000 ≤ a ∧ a < 0x18000 then s.regAt a else 0

theorem State.nearRegs_of {s t : State} (h : ∀ a, 0x5000 ≤ a → a < 0x18000 → t.regAt a = s.regAt a) : t.nearRegs = s.nearRegs := by
  refine funext fun a => ?_
  change (if _ then _ else _) = (if _ then _ else _)
  split
  next ha => exact h a ha.1 ha.2
  next => rfl

theorem State.nearRegs_regAt {s t : State} (h : t.nearRegs = s.nearRegs) (a : Nat) (hlow : 0x5000 ≤ a) (hhigh : a < 0x18000) :
    t.regAt a = s.regAt a := by
  have hreg := congrFun h a
  change (if _ then _ else _) = (if _ then _ else _) at hreg
  rw [if_pos ⟨hlow, hhigh⟩, if_pos ⟨hlow, hhigh⟩] at hreg
  exact hreg

theorem State.bump_stack_nearRegs (s : State) (k off n : Nat) : (s.bump (.stack k) off n).nearRegs = s.nearRegs :=
  State.nearRegs_of fun a _ hhigh => (State.regAt_bump _ _ _ _ _).trans (if_neg (by
    change ¬a = (24 + k) * 0x1000 + off
    omega))

theorem LoggedIn.nearRegs {s t : State} {k : Nat} {c : Code} (h : LoggedIn s t (.stack k) c) : t.nearRegs = s.nearRegs := by
  refine State.nearRegs_of fun a hlow hhigh => h.2.1 a ?_
  simp only [errorRegs, List.mem_cons, List.not_mem_nil, or_false, Page.base]
  omega

theorem State.listRow_nearRegs (s : State) (l : Nat) : (s.listRow l).nearRegs = s.nearRegs := by
  unfold State.listRow
  extract_lets k row
  split
  · rfl
  split
  · rfl
  · exact (s.logError_logged (.stack k) .busy _ _ _ _ (base_ne_lost _ (base_aligned _))).nearRegs

theorem State.poisonLine_nearRegs (s : State) (l : Nat) : (s.poisonLine l).nearRegs = s.nearRegs := by
  unfold State.poisonLine
  extract_lets k c
  rw [State.listRow_nearRegs]
  refine (State.logError_logged _ (.stack k) .poison _ _ _ _ (base_ne_lost _ (base_aligned _))).nearRegs.trans ?_
  rw [State.bump_stack_nearRegs]
  rfl

theorem State.readLine_nearRegs (s : State) (l key : Nat) : (s.readLine l key).1.nearRegs = s.nearRegs := by
  have htick : (if 7 ≤ (s.lineCode l).errors then s.tick else s).nearRegs = s.nearRegs := by
    split
    · rfl
    · rfl
  unfold State.readLine
  dsimp only
  split
  · exact s.bump_stack_nearRegs _ _ _
  split
  · rfl
  · split
    · exact htick
    · exact (State.bump_stack_nearRegs _ _ _ _).trans htick
    · exact htick
    · exact (State.bump_stack_nearRegs _ _ _ _).trans htick
    · exact (State.bump_stack_nearRegs _ _ _ _).trans ((State.poisonLine_nearRegs _ _).trans htick)
    · exact htick

theorem State.writeLine_nearRegs (s : State) (l key : Nat) (bs : List (BitVec 8)) (p : Bool) :
    (s.writeLine l key bs p).nearRegs = s.nearRegs := by
  unfold State.writeLine
  dsimp only
  split
  · rfl
  split
  · rfl
  · rfl

theorem State.writePart_nearRegs (s : State) (l o key : Nat) (bs : List (BitVec 8)) : (s.writePart l o key bs).nearRegs = s.nearRegs := by
  have htick : (if 7 ≤ (s.lineCode l).errors then s.tick else s).nearRegs = s.nearRegs := by
    split
    · rfl
    · rfl
  unfold State.writePart
  dsimp only
  split
  · rfl
  split
  · rfl
  · split
    · exact (State.writeLine_nearRegs _ _ _ _ _).trans htick
    · exact (State.writeLine_nearRegs _ _ _ _ _).trans htick
    · exact (State.writeLine_nearRegs _ _ _ _ _).trans htick
    · exact (State.bump_stack_nearRegs _ _ _ _).trans ((State.writeLine_nearRegs _ _ _ _ _).trans htick)
    · exact (State.bump_stack_nearRegs _ _ _ _).trans
        ((State.writeLine_nearRegs _ _ _ _ _).trans ((State.poisonLine_nearRegs _ _).trans htick))
    · exact (State.writeLine_nearRegs _ _ _ _ _).trans htick

theorem State.writeBytes_nearRegs (s : State) (a key : Nat) (bs : List (BitVec 8)) : (s.writeBytes a key bs).nearRegs = s.nearRegs := by
  unfold State.writeBytes
  refine foldl_keeps State.nearRegs _ _ s fun t i => ?_
  extract_lets l lo skip part
  by_cases hpart : part.length = 64
  · rw [if_pos hpart]
    exact t.writeLine_nearRegs _ _ _ _
  · rw [if_neg hpart]
    exact t.writePart_nearRegs _ _ _ _

theorem State.readBytes_nearRegs (s : State) (a n key : Nat) : (s.readBytes a n key).1.nearRegs = s.nearRegs := by
  rw [State.readBytes_eq]
  exact foldl_keeps (fun x : State × LineData => x.1.nearRegs) (readOn key (a / 64)) _ (s, ⟨[], false⟩) fun x i =>
    x.1.readLine_nearRegs _ _

/-! ### The attention blocks beside memory -/

/-- The hubs and the registers of their attention pages. -/
def State.attnSide (s : State) : Table HubAttn × (Nat → Word) :=
  (s.store.hubs, fun a => if 0x10000 ≤ a ∧ a < 0x14000 then s.regAt a else 0)

theorem State.attnSide_reg {s t : State} (h : t.attnSide = s.attnSide) (k : HubId) (off : Nat) (hoff : off < 0x1000) :
    t.reg (.attn k.val) off = s.reg (.attn k.val) off := by
  have hin : 0x10000 ≤ (Page.attn k.val).base + off ∧ (Page.attn k.val).base + off < 0x14000 := by
    have hk := k.isLt
    change 0x10000 ≤ (16 + k.val) * 0x1000 + off ∧ (16 + k.val) * 0x1000 + off < 0x14000
    omega
  have hreg := congrFun (congrArg Prod.snd h) ((Page.attn k.val).base + off)
  change (if _ then _ else _) = (if _ then _ else _) at hreg
  rw [if_pos hin, if_pos hin] at hreg
  exact hreg

theorem State.attnSide_hub {s t : State} (h : t.attnSide = s.attnSide) (k : Nat) : t.hub k = s.hub k := by
  have hhubs : t.store.hubs = s.store.hubs := congrArg Prod.fst h
  rw [State.hub, hhubs, State.hub]

theorem State.attnSide_of {s t : State} (hhubs : t.store.hubs = s.store.hubs)
    (hregs : ∀ a, 0x10000 ≤ a → a < 0x14000 → t.regAt a = s.regAt a) : t.attnSide = s.attnSide := by
  refine Prod.ext hhubs (funext fun a => ?_)
  change (if _ then _ else _) = (if _ then _ else _)
  split
  next ha => exact hregs a ha.1 ha.2
  next => rfl

theorem State.bump_attnSide (s : State) (p : Page) (off n : Nat) (h : p.base + off < 0x10000 ∨ 0x14000 ≤ p.base + off) :
    (s.bump p off n).attnSide = s.attnSide :=
  State.attnSide_of rfl fun a hlow hhigh => (State.regAt_bump _ _ _ _ _).trans (if_neg (by omega))

/-- The hubs and the registers of the pages from the commons to the key-value maps. -/
def State.nearSide (s : State) : Table HubAttn × (Nat → Word) := (s.store.hubs, s.nearRegs)

theorem MemStep.nearSide {s t : State} (h : MemStep s t) (hnear : t.nearRegs = s.nearRegs) : t.nearSide = s.nearSide :=
  Prod.ext (by rw [State.nearSide, h.store, State.nearSide]) hnear

theorem State.attnSide_of_near {s t : State} (h : t.nearSide = s.nearSide) : t.attnSide = s.attnSide :=
  State.attnSide_of (congrArg Prod.fst h) fun a hlow hhigh => State.nearRegs_regAt (congrArg Prod.snd h) a (by omega) (by omega)

theorem State.readBytes_attnSide (s : State) (a n key : Nat) : (s.readBytes a n key).1.attnSide = s.attnSide :=
  State.attnSide_of_near ((s.readBytes_mem a n key).nearSide (s.readBytes_nearRegs a n key))

/-! ### Evictions -/

theorem State.setNode_nearSide (s : State) (i : Nat) (n : Node) : (s.setNode i n).nearSide = s.nearSide := by
  unfold State.setNode
  split
  · exact ((State.writeBytes_mem _ _ _ _).nearSide (State.writeBytes_nearRegs _ _ _ _)).trans rfl
  · rfl

theorem State.modNode_nearSide (s : State) (i : Nat) (f : Node → Node) : (s.modNode i f).nearSide = s.nearSide := by
  unfold State.modNode
  split
  · exact s.setNode_nearSide _ _
  · rfl

theorem State.unlinkNode_nearSide (s : State) (i : Nat) (n : Node) : (s.unlinkNode i n).nearSide = s.nearSide := by
  unfold State.unlinkNode
  dsimp only
  split
  · rfl
  · split
    · exact s.setNode_nearSide _ _
    · rfl

theorem State.dropRef_nearSide (s : State) (p : Nat) : (s.dropRef p).nearSide = s.nearSide := by
  unfold State.dropRef State.markUnclean
  repeat' split
  all_goals rfl

theorem State.dropRefs_nearSide (s : State) (ps : List Nat) : (s.dropRefs ps).nearSide = s.nearSide :=
  foldl_keeps State.nearSide _ ps s fun t p => t.dropRef_nearSide p

theorem State.dropPrefix_nearSide (s : State) (i : Nat) : (s.dropPrefix i).nearSide = s.nearSide := by
  unfold State.dropPrefix
  split
  · rfl
  · split
    · rfl
    · exact Eq.trans rfl (s.dropRefs_nearSide _)

/-- What an eviction does before it is counted (R312). -/
def State.evictBody (s : State) (i : Nat) (n : Node) : State :=
  let t := s.unlinkNode i n
  let s1 : State := { t with store := { t.store with nodes := tdrop t.store.nodes i } }
  let s2 := match n.parent with
    | some p => s1.modNode p fun k => { k with children := k.children - 1 }
    | none => s1
  s2.dropPrefix n.prefixTable

theorem State.evictNode_eq (s : State) (i : Nat) (n : Node) (h : tfind s.store.nodes i = some n) :
    s.evictNode i = (s.evictBody i n).bump .commons 0x128 1 := by
  unfold State.evictNode
  rw [h]
  rfl

theorem State.evictBody_nearSide (s : State) (i : Nat) (n : Node) : (s.evictBody i n).nearSide = s.nearSide := by
  unfold State.evictBody
  extract_lets t st s1 s2
  have hs1 : s1.nearSide = s.nearSide := s.unlinkNode_nearSide i n
  have hs2 : s2.nearSide = s1.nearSide := by
    simp only [s2]
    split
    · exact s1.modNode_nearSide _ _
    · rfl
  exact (s2.dropPrefix_nearSide _).trans (hs2.trans hs1)

theorem State.evictNode_attnSide (s : State) (i : Nat) : (s.evictNode i).attnSide = s.attnSide := by
  cases h : tfind s.store.nodes i with
  | none =>
    unfold State.evictNode
    rw [h]
  | some n =>
    rw [s.evictNode_eq i n h, State.bump_attnSide _ .commons 0x128 1 (.inl (by decide))]
    exact State.attnSide_of_near (s.evictBody_nearSide i n)

theorem State.evictPoisoned_attnSide (s : State) (page : Nat) : (s.evictPoisoned page).attnSide = s.attnSide := by
  unfold State.evictPoisoned
  exact foldl_keeps State.attnSide _ _ s fun t i => t.evictNode_attnSide i

/-! ### Memory as it is read beside other hubs -/

/-- The state with other hubs. -/
def State.withHubs (s : State) (hs : Table HubAttn) : State := { s with store := { s.store with hubs := hs } }

section Hubs
variable (s : State) (hs : Table HubAttn)

theorem State.raiseIntr_withHubs (id : Nat) : (s.withHubs hs).raiseIntr id = (s.raiseIntr id).withHubs hs := by
  simp only [State.raiseIntr, apply_ite (State.withHubs · hs)]
  rfl

theorem State.logEvent_withHubs (p : Page) (c : Code) (a : Nat) : (s.withHubs hs).logEvent p c a = (s.logEvent p c a).withHubs hs := by
  simp only [State.logEvent, State.logError, apply_ite (State.withHubs · hs), ← State.raiseIntr_withHubs]
  rfl

theorem State.listRow_withHubs (l : Nat) : (s.withHubs hs).listRow l = (s.listRow l).withHubs hs := by
  simp only [State.listRow, apply_ite (State.withHubs · hs), ← State.logEvent_withHubs]
  rfl

theorem State.poisonLine_withHubs (l : Nat) : (s.withHubs hs).poisonLine l = (s.poisonLine l).withHubs hs := by
  simp only [State.poisonLine, ← State.listRow_withHubs, ← State.logEvent_withHubs]
  rfl

theorem State.bump_withHubs (p : Page) (off n : Nat) : (s.withHubs hs).bump p off n = (s.bump p off n).withHubs hs := rfl

theorem State.readLine_withHubs (l key : Nat) :
    (s.withHubs hs).readLine l key = ((s.readLine l key).1.withHubs hs, (s.readLine l key).2) := by
  have htick : (if 7 ≤ ((s.withHubs hs).lineCode l).errors then (s.withHubs hs).tick else s.withHubs hs) =
      (if 7 ≤ (s.lineCode l).errors then s.tick else s).withHubs hs := by
    rw [apply_ite (State.withHubs · hs)]
    rfl
  have hstack (k : Nat) : (s.withHubs hs).stack k = s.stack k := rfl
  have hunclean (p : Nat) : (s.withHubs hs).unclean p = s.unclean p := rfl
  have hcode : (s.withHubs hs).lineCode l = s.lineCode l := rfl
  have hdecrypted : (s.withHubs hs).decrypted l key = s.decrypted l key := rfl
  have hfresh : (s.withHubs hs).fresh = s.fresh := rfl
  unfold State.readLine
  dsimp only
  rw [htick, hstack, hunclean, hcode, hdecrypted, hfresh]
  by_cases hout : (s.stack (l / 2147483648)).out = true
  · simp only [hout, if_true, State.bump_withHubs]
  by_cases hu : s.unclean (pageOf (64 * l)) = true
  · simp only [hout, hu, if_true, Bool.false_eq_true, if_false]
  simp only [hout, hu, Bool.false_eq_true, if_false]
  cases (s.lineCode l).decode s.fresh with
  | uncorrectable => simp only [State.poisonLine_withHubs, State.bump_withHubs]
  | _ => rfl

theorem State.readBytes_withHubs (a n key : Nat) :
    (s.withHubs hs).readBytes a n key = ((s.readBytes a n key).1.withHubs hs, (s.readBytes a n key).2) := by
  have hover : (s.withHubs hs).readOver a n key = ((s.readOver a n key).1.withHubs hs, (s.readOver a n key).2) :=
    List.foldl_hom (g₁ := readOn key (a / 64)) (g₂ := readOn key (a / 64)) (init := (s, ⟨[], false⟩))
      (fun acc : State × LineData => (acc.1.withHubs hs, acc.2)) fun acc i => by simp only [readOn, State.readLine_withHubs]
  rw [State.readBytes_eq, State.readBytes_eq, hover]

theorem State.readKeys_withHubs (d : Descriptor) (key : Nat) :
    (s.withHubs hs).readKeys d key = ((s.readKeys d key).1.withHubs hs, (s.readKeys d key).2) := by
  simp only [State.readKeys, State.readBytes_withHubs]

end Hubs

theorem State.readKeys_attnSide (s : State) (d : Descriptor) (key : Nat) : (s.readKeys d key).1.attnSide = s.attnSide := by
  simp only [State.readKeys, State.readBytes_attnSide]

theorem State.readKeys_mem (s : State) (d : Descriptor) (key : Nat) : MemStep s (s.readKeys d key).1 :=
  (((s.readBytes_mem _ _ _).trans (State.readBytes_mem _ _ _ _)).trans (State.readBytes_mem _ _ _ _)).trans (State.readBytes_mem _ _ _ _)

end Sys2Proof.Machine
end

section
/-!
DESCRIPTOR_RUN (R262 to R280).
-/
namespace Sys2Proof.Machine

/-! ### Marks of a queue's steps -/

theorem State.markStep_mem (s : State) (i : Nat) (c : Cause) (y : Step) (hy : y ∈ (s.markStep i c).serve.steps) :
    ∃ x ∈ s.serve.steps, x.id = y.id ∧ (∀ k ∈ x.marks, k ∈ y.marks) ∧ (y.id = i → c ∈ y.marks) := by
  obtain ⟨x, hx, rfl⟩ := List.mem_map.1 hy
  refine ⟨x, hx, ?_⟩
  by_cases h : x.id = i
  · rw [if_pos h]
    exact ⟨(x.addMark_id c).symm, x.addMark_keeps c, fun _ => x.mem_addMark c⟩
  · rw [if_neg h]
    exact ⟨rfl, fun _ hk => hk, fun hi => absurd hi h⟩

/-- The step of each descriptor of a list is marked. -/
def State.markDescs (s : State) (l : List (Nat × List (BitVec 8))) (c : Cause) : State :=
  l.foldl (fun (t : State) d => t.markStep (t.stepOfDesc (Descriptor.ofBytes d.2)) c) s

theorem State.markDescs_grow (s : State) (l : List (Nat × List (BitVec 8))) (c : Cause) (y : Step)
    (hy : y ∈ (s.markDescs l c).serve.steps) : ∃ x ∈ s.serve.steps, x.id = y.id ∧ ∀ k ∈ x.marks, k ∈ y.marks := by
  induction l generalizing s with
  | nil => exact ⟨y, hy, rfl, fun _ hk => hk⟩
  | cons d l ih =>
    obtain ⟨x, hx, hid, hmarks⟩ := ih _ hy
    obtain ⟨w, hw, hwid, hwmarks, -⟩ := s.markStep_mem _ _ x hx
    exact ⟨w, hw, hwid.trans hid, fun k hk => hmarks k (hwmarks k hk)⟩

theorem State.markDescs_marks (s : State) (l : List (Nat × List (BitVec 8))) (c : Cause) (y : Step)
    (hy : y ∈ (s.markDescs l c).serve.steps) (z : Nat × List (BitVec 8)) (hz : z ∈ l)
    (hid : s.stepOfDesc (Descriptor.ofBytes z.2) = y.id) : c ∈ y.marks := by
  induction l generalizing s with
  | nil => exact absurd hz List.not_mem_nil
  | cons d l ih =>
    rcases List.mem_cons.1 hz with rfl | hl
    · obtain ⟨x, hx, hxid, hmarks⟩ := State.markDescs_grow (s.markStep (s.stepOfDesc (Descriptor.ofBytes z.2)) c) l c y hy
      obtain ⟨-, -, -, -, hmarked⟩ := s.markStep_mem _ _ x hx
      exact hmarks c (hmarked (hxid.trans hid.symm))
    · exact ih (s.markStep (s.stepOfDesc (Descriptor.ofBytes d.2)) c) hy hl hid

/-! ### What a run ends in -/

section Run
variable (s : State) (hub : HubId) (e : Fin 64)

/-- An engine that met a slot which nobody filled (R275). -/
def Engine.unfilled (y : Engine) (stored : List (BitVec 8)) : Engine :=
  { y with halted := true, slotRead := { code := some .unfilled, data := stored, poison := true } }

/-- An engine that has read the slot it expects (R274). -/
def Engine.drained (y : Engine) (slot : Nat) (stored : List (BitVec 8)) : Engine :=
  { y with slots := tdrop y.slots slot, expected := y.expected + 1, slotRead := { data := stored } }

theorem exec_run_halted (h : ((s.hub hub.val).engine e.val).halted = true) :
    exec (.descriptorRun hub e) s = .next (s.readyEngine hub.val e.val) := by
  change execDescriptorRun hub e s = _
  unfold execDescriptorRun
  exact if_pos h

/-- The state after a slot that nobody filled. -/
def State.ranUnfilled (h e slot : Nat) : State :=
  ((s.attnError h e slot .unfilled).markQueue h e .unfilled).modHub h fun x =>
    x.modEngine e fun y => y.unfilled (List.replicate 64 0)

theorem exec_run_unfilled (g : Engine) (hg : g = (s.hub hub.val).engine e.val) (h : g.halted = false)
    (hslot : tfind g.slots (g.expected % 64) = none) :
    exec (.descriptorRun hub e) s = .next (s.ranUnfilled hub.val e.val (g.expected % 64)) := by
  subst hg
  change execDescriptorRun hub e s = _
  unfold execDescriptorRun
  extract_lets hb k g slot stored d
  have hstored : stored = List.replicate 64 0 := by
    change (tfind g.slots slot).getD _ = _
    rw [hslot]
    rfl
  rw [if_neg (by rw [h]; exact Bool.false_ne_true), if_pos (.inl (by rw [hslot]; rfl)), hstored]
  rfl

theorem State.ranUnfilled_engine (slot : Nat) (h j : Nat) :
    ((s.ranUnfilled h j slot).hub h).engine j = ((s.hub h).engine j).unfilled (List.replicate 64 0) := by
  rw [State.ranUnfilled, State.hub_modHub_self, HubAttn.engine_modEngine, if_pos rfl, State.markQueue_hub,
    (s.attnError_logged h j slot .unfilled).hub]

theorem State.ranUnfilled_marks (slot : Nat) (h j : Nat) (y : Step) (hy : y ∈ (s.ranUnfilled h j slot).serve.steps)
    (z : Nat × List (BitVec 8)) (hz : z ∈ ((s.hub h).engine j).slots) (hid : s.stepOfDesc (Descriptor.ofBytes z.2) = y.id) :
    Cause.unfilled ∈ y.marks := by
  have hlog := s.attnError_logged h j slot .unfilled
  refine State.markDescs_marks (s.attnError h j slot .unfilled) (((s.attnError h j slot .unfilled).hub h).engine j).slots .unfilled y hy z
    (by rw [hlog.hub]; exact hz) ?_
  rw [hlog.1]
  exact hid

theorem State.ranUnfilled_code (slot : Nat) (h j : Nat) (h0 : (s.reg (.attn h) 0x020).field 32 8 = 0) :
    ((s.ranUnfilled h j slot).reg (.attn h) 0x020).field 32 8 = Code.unfilled.num := by
  have hregs : (s.ranUnfilled h j slot).reg (.attn h) 0x020 = (s.attnError h j slot .unfilled).reg (.attn h) 0x020 := by
    change ((s.attnError h j slot .unfilled).markQueue h j .unfilled).reg (.attn h) 0x020 = _
    rw [State.markQueue_frame]
    rfl
  rw [hregs]
  exact (s.attnError_logged h j slot .unfilled).code h0

/-- The state after the slot that an engine expects is drained. -/
def State.slotDrained (h e slot : Nat) (stored : List (BitVec 8)) : State :=
  s.modHub h fun x => x.modEngine e fun y => y.drained slot stored

theorem State.slotDrained_engine (h j slot : Nat) (stored : List (BitVec 8)) :
    ((s.slotDrained h j slot stored).hub h).engine j = ((s.hub h).engine j).drained slot stored := by
  rw [State.slotDrained, State.hub_modHub_self, HubAttn.engine_modEngine, if_pos rfl]

theorem State.slotDrained_hubs (h j slot : Nat) (stored : List (BitVec 8)) :
    s.slotDrained h j slot stored = s.withHubs (s.slotDrained h j slot stored).store.hubs := rfl

section Filled
variable (g : Engine) (b : List (BitVec 8)) (hg : g = (s.hub hub.val).engine e.val) (h : g.halted = false)
  (hslot : tfind g.slots (g.expected % 64) = some b) (hseq : (Descriptor.ofBytes b).seq = g.expected % 2 ^ 64)
include hg h hslot hseq

omit hg in
/-- The first checks of a run pass where the descriptor is the one that is due. -/
theorem run_due : ¬g.halted = true ∧ ¬((tfind g.slots (g.expected % 64)).isNone = true ∨
    (Descriptor.ofBytes ((tfind g.slots (g.expected % 64)).getD (List.replicate 64 0))).seq ≠ g.expected % 2 ^ 64) := by
  rw [hslot]
  refine ⟨by rw [h]; exact Bool.false_ne_true, ?_⟩
  rintro (hn | hn)
  · exact Bool.false_ne_true hn
  · exact hn hseq

theorem exec_run_epoch (hepoch : (Descriptor.ofBytes b).epoch ≠ g.lease.epoch.toNat) :
    exec (.descriptorRun hub e) s = .next ((s.slotDrained hub.val e.val (g.expected % 64) b).attnError hub.val e.val (g.expected % 64) .epoch) := by
  obtain ⟨hrun, hdue⟩ := run_due g b h hslot hseq
  subst hg
  change execDescriptorRun hub e s = _
  unfold execDescriptorRun
  dsimp only
  rw [if_neg hrun, if_neg hdue, hslot]
  exact if_pos hepoch

theorem exec_run_refused (c : Code) (hepoch : (Descriptor.ofBytes b).epoch = g.lease.epoch.toNat)
    (hcheck : (Descriptor.ofBytes b).check = some c) :
    exec (.descriptorRun hub e) s = .next ((s.slotDrained hub.val e.val (g.expected % 64) b).attnError hub.val e.val (g.expected % 64) c) := by
  obtain ⟨hrun, hdue⟩ := run_due g b h hslot hseq
  subst hg
  change execDescriptorRun hub e s = _
  unfold execDescriptorRun
  dsimp only
  rw [if_neg hrun, if_neg hdue, hslot]
  dsimp only [Option.getD_some]
  rw [if_neg (not_not.2 hepoch), hcheck]
  rfl

/-- The queries that a descriptor names. -/
def State.queriesOf (s : State) (d : Descriptor) : List Query :=
  ((s.hub (s.ownerHub d.context)).qset d.qset).queries.take d.queryCount

/-- A descriptor's partial states at their place in the merge order (R281). -/
def State.delivered (u : State) (o : Nat) (d : Descriptor) (parts : List SoftState) : State :=
  u.modHub o fun y => y.modQset d.qset fun z => { z with arrived := tset z.arrived d.partIndex parts }

theorem exec_run_delivers (u : State) (parts : List SoftState) (hepoch : (Descriptor.ofBytes b).epoch = g.lease.epoch.toNat)
    (hcheck : (Descriptor.ofBytes b).check = none)
    (hdone : (s.slotDrained hub.val e.val (g.expected % 64) b).processDesc hub.val (Descriptor.ofBytes b)
      (s.queriesOf (Descriptor.ofBytes b)) (s.sess (Descriptor.ofBytes b).context).kvKey = (u, some parts)) :
    exec (.descriptorRun hub e) s =
      .next (u.delivered (s.ownerHub (Descriptor.ofBytes b).context) (Descriptor.ofBytes b) parts) := by
  obtain ⟨hrun, hdue⟩ := run_due g b h hslot hseq
  subst hg
  unfold State.slotDrained Engine.drained State.queriesOf at hdone
  change execDescriptorRun hub e s = _
  unfold execDescriptorRun
  dsimp only
  rw [if_neg hrun, if_neg hdue, hslot]
  dsimp only [Option.getD_some]
  rw [if_neg (not_not.2 hepoch), hcheck]
  dsimp only
  rw [hdone]
  rfl

end Filled
end Run

/-! ### Processing a descriptor -/

/-- What a processed descriptor counts and draws (R262, R280). -/
def State.runCounted (u : State) (h keys clips flushes fj : Nat) : State :=
  ((((u.bump (.attn h) 0x100 1).bump (.attn h) 0x108 keys).bump (.attn h) 0x110 clips).bump (.attn h) 0x118 flushes).spend fj

theorem State.spend_regAt (u : State) (fj a : Nat) : (u.spend fj).regAt a = u.regAt a := rfl

theorem State.runCounted_regAt (u : State) (h keys clips flushes fj a : Nat)
    (ha : a ∉ [0x110, 0x118].map ((Page.attn h).base + ·)) :
    (u.runCounted h keys clips flushes fj).regAt a = ((u.bump (.attn h) 0x100 1).bump (.attn h) 0x108 keys).regAt a := by
  simp only [List.map_cons, List.map_nil, List.mem_cons, List.not_mem_nil, or_false, not_or] at ha
  rw [State.runCounted, State.spend_regAt, State.regAt_bump, if_neg ha.2, State.regAt_bump, if_neg ha.1]

theorem State.runCounted_regs (u : State) (h keys clips flushes fj : Nat) :
    (u.runCounted h keys clips flushes fj).reg (.attn h) 0x100 = satAdd (u.reg (.attn h) 0x100) 1 ∧
      (u.runCounted h keys clips flushes fj).reg (.attn h) 0x108 = satAdd (u.reg (.attn h) 0x108) keys := by
  have hoff (o : Nat) (ho : o ≠ 0x110 ∧ o ≠ 0x118) : (Page.attn h).base + o ∉ [0x110, 0x118].map ((Page.attn h).base + ·) := by
    simpa using ho
  constructor
  · rw [State.reg, State.runCounted_regAt _ _ _ _ _ _ _ (hoff 0x100 (by decide)), State.regAt_bump,
      if_neg (Nat.add_left_cancel_iff.not.2 (by decide)), State.regAt_bump, if_pos rfl]
  · rw [State.reg, State.runCounted_regAt _ _ _ _ _ _ _ (hoff 0x108 (by decide)), State.regAt_bump, if_pos rfl, State.bump,
      State.reg_setReg_off (h := by decide)]

/-- The partial states of queries over keys, each with the poison that the read met (R276, R278). -/
def partsOf (d : Descriptor) (qs : List Query) (keys : List KeyVal) (poison : Bool) : List SoftState :=
  qs.map fun q => { (softRun q d.tau d.window d.floor keys).1 with poison := poison }

/-- A page whose head agrees is processed: the counts move, and beside them only memory and the commons (R262, R273). -/
theorem State.processDesc_agrees (s : State) (h : Nat) (d : Descriptor) (qs : List Query) (key : Nat)
    (hhead : headAgrees (s.readBytes (d.page * Config.pageBytes) 16 key).2.bytes d = true) :
    ∃ (u : State) (clips flushes fj : Nat) (poison : Bool), u.attnSide = s.attnSide ∧ u.evictRest = s.evictRest ∧
      s.processDesc h d qs key = (u.runCounted h d.keyCount clips flushes fj,
        some (partsOf d qs ((s.readBytes (d.page * Config.pageBytes) 16 key).1.readKeys d key).2.1 poison)) := by
  unfold State.processDesc
  extract_lets hd r poison parts cnt s1 s2
  have hside : r.1.attnSide = s.attnSide := (State.readKeys_attnSide _ _ _).trans (s.readBytes_attnSide _ _ _)
  have hrest : r.1.evictRest = s.evictRest := ((s.readBytes_mem _ _ _).trans (State.readKeys_mem _ _ _)).evictRest
  have hs1 : s1.attnSide = s.attnSide ∧ s1.evictRest = s.evictRest := by
    simp only [s1]
    split
    · exact ⟨(State.evictPoisoned_attnSide _ _).trans hside, (State.evictPoisoned_evictRest _ _).trans hrest⟩
    · exact ⟨hside, hrest⟩
  refine ⟨s1, cnt.clips, cnt.flushes, 500000 + 800 * (2 * d.keyCount * slotBytes d.kv8), poison, hs1.1, hs1.2, ?_⟩
  rw [if_neg (by simp only [hd, hhead]; decide)]
  refine Prod.ext rfl (congrArg some ?_)
  rw [partsOf, List.map_map]
  rfl

theorem Descriptor.check_good (d : Descriptor) (hq : 1 ≤ d.queryCount) (hq' : d.queryCount ≤ 32) (hk : 1 ≤ d.keyCount)
    (hfits : d.keyFirst + d.keyCount ≤ slotsPerPage d.kv8) (hpart : d.partIndex ≤ 1023) (htau : F16.isPositiveNormal d.tau = true) :
    d.check = none := by
  unfold Descriptor.check
  rw [if_neg (by omega), if_neg (by omega), if_neg (by omega), if_neg (by rw [htau]; decide)]

end Sys2Proof.Machine
end

section
/-!
PARTIAL_MERGE and RELEASE_TIME (R281 to R283, R298, R318).
-/
namespace Sys2Proof.Machine

/-! ### A delivered partial -/

section Delivered
variable (u : State) (o : Nat) (d : Descriptor) (parts : List SoftState)

theorem State.delivered_arrived : tfind (((u.delivered o d parts).hub o).qset d.qset).arrived d.partIndex = some parts := by
  rw [State.delivered, State.hub_modHub_self, HubAttn.qset_modQset, if_pos rfl]
  exact tfind_tset_self _ _ _

theorem State.delivered_engine (k j : Nat) : ((u.delivered o d parts).hub k).engine j = (u.hub k).engine j := by
  rw [State.delivered, State.hub_modHub]
  split
  next hk => rw [hk]; rfl
  next => rfl

theorem State.delivered_reg (p : Page) (off : Nat) : (u.delivered o d parts).reg p off = u.reg p off := rfl

omit o d parts in
theorem State.spend_hub (fj k : Nat) : (u.spend fj).hub k = u.hub k := rfl

theorem State.runCounted_hub (h keys clips flushes fj k : Nat) : (u.runCounted h keys clips flushes fj).hub k = u.hub k := by
  rw [State.runCounted, State.spend_hub, State.bump_hub, State.bump_hub, State.bump_hub, State.bump_hub]

end Delivered

/-! ### PARTIAL_MERGE -/

section Merge
variable (s : State) (hub : HubId) (q : Nat) (x : QSet) (hx : tfind (s.hub hub.val).qsets q = some x)

theorem tget_of_tfind {α : Type} (d : Nat → α) (m : Table α) (k : Nat) (v : α) (h : tfind m k = some v) : tget d m k = v := by
  induction m with
  | nil => exact absurd h (by simp [tfind])
  | cons a m ih =>
    rw [tfind_cons] at h
    rw [tget]
    split at h
    next hk => rw [if_pos hk.symm]; exact Option.some.inj h
    next hk => rw [if_neg (Ne.symm hk)]; exact ih h

theorem HubAttn.qset_of_tfind {y : HubAttn} {k : Nat} {z : QSet} (h : tfind y.qsets k = some z) : y.qset k = z :=
  tget_of_tfind _ _ _ _ h

/-- The running states once the next partial is folded in, with the flushes of each (R281). -/
def QSet.folded (x : QSet) (parts : List SoftState) : List (SoftState × SoftCount) :=
  if x.merged = 0 then parts.map fun p => (p, ({} : SoftCount)) else List.zipWith softMerge x.running parts

theorem QSet.folded_first (x : QSet) (parts : List SoftState) (h : x.merged = 0) : (x.folded parts).map (·.1) = parts := by
  rw [QSet.folded, if_pos h, List.map_map]
  exact List.map_id _

theorem QSet.folded_later (x : QSet) (parts : List SoftState) (h : x.merged ≠ 0) :
    (x.folded parts).map (·.1) = (List.zipWith softMerge x.running parts).map (·.1) := by
  rw [QSet.folded, if_neg h]

/-- The record once the next partial is folded in. -/
def QSet.mergedWith (z : QSet) (running : List SoftState) (n : Nat) : QSet :=
  { z with running := running, merged := n + 1, arrived := tdrop z.arrived n }

/-- The state once the next partial is folded in (R281). -/
def State.merged (s : State) (h q : Nat) (x : QSet) (parts : List SoftState) : State :=
  (s.modHub h fun y => y.modQset q fun z => z.mergedWith ((x.folded parts).map (·.1)) x.merged).bump (.attn h) 0x118
    ((x.folded parts).foldl (fun n p => n + p.2.flushes) 0)

include hx in
theorem exec_merge (houtputs : x.outputs = none) (hreleased : x.released = false) (parts : List SoftState)
    (hparts : tfind x.arrived x.merged = some parts) :
    exec (.partialMerge hub q) s = .next (if x.merged + 1 = x.partials then (s.merged hub.val q x parts).finishSet hub.val q
      else s.merged hub.val q x parts) := by
  change execPartialMerge hub q s = _
  unfold execPartialMerge
  dsimp only
  rw [HubAttn.qset_of_tfind hx, if_neg (by rw [houtputs, hreleased]; simp), hparts]
  rfl

include hx in
theorem State.merged_qset (parts : List SoftState) :
    ((s.merged hub.val q x parts).hub hub.val).qset q = x.mergedWith ((x.folded parts).map (·.1)) x.merged := by
  rw [State.merged, State.bump_hub, State.hub_modHub_self, HubAttn.qset_modQset, if_pos rfl, HubAttn.qset_of_tfind hx]

theorem State.merged_qset_other (parts : List SoftState) (k : Nat) (hk : k ≠ q) :
    ((s.merged hub.val q x parts).hub hub.val).qset k = (s.hub hub.val).qset k := by
  rw [State.merged, State.bump_hub, State.hub_modHub_self, HubAttn.qset_modQset, if_neg hk]

theorem State.merged_hub (parts : List SoftState) (k : Nat) (hk : k ≠ hub.val) : (s.merged hub.val q x parts).hub k = s.hub k := by
  rw [State.merged, State.bump_hub, State.hub_modHub, if_neg hk]

end Merge

/-- A finished set has its outputs, and its running states as before. -/
def QSet.finished (z : QSet) (r : List SoftState) : QSet := { z with outputs := some (r.map SoftState.output), poison := r.any (·.poison) }

/-- The final step of a set reaches the hubs only at the set's record (R283). -/
theorem State.finishSet_hubs (s : State) (h q : Nat) :
    (s.finishSet h q).store.hubs = (s.modHub h fun y => y.modQset q (·.finished ((s.hub h).qset q).running)).store.hubs := by
  unfold State.finishSet
  extract_lets x outs empties s1 s2
  have hs2 : s2.store.hubs = s1.store.hubs := by
    simp only [s2]
    split
    · rfl
    · rfl
  split
  · exact hs2
  · exact hs2

theorem State.finishSet_hub (s : State) (h q k : Nat) :
    (s.finishSet h q).hub k = (s.modHub h fun y => y.modQset q (·.finished ((s.hub h).qset q).running)).hub k := by
  rw [State.hub, s.finishSet_hubs]
  rfl

theorem State.finishSet_qset (s : State) (h q : Nat) :
    ((s.finishSet h q).hub h).qset q = ((s.hub h).qset q).finished ((s.hub h).qset q).running := by
  rw [s.finishSet_hub, State.hub_modHub_self, HubAttn.qset_modQset, if_pos rfl]

theorem State.finishSet_qset_other (s : State) (h q k : Nat) (hk : k ≠ q) : ((s.finishSet h q).hub h).qset k = (s.hub h).qset k := by
  rw [s.finishSet_hub, State.hub_modHub_self, HubAttn.qset_modQset, if_neg hk]

theorem State.finishSet_hub_other (s : State) (h q k : Nat) (hk : k ≠ h) : (s.finishSet h q).hub k = s.hub k := by
  rw [s.finishSet_hub, State.hub_modHub, if_neg hk]

/-! ### Outputs that go to a die -/

/-- From `s` to `t` crofts and dies may have moved, and nothing else. -/
def Placed (s t : State) : Prop := t = { s with crofts := t.crofts, dies := t.dies }

theorem Placed.refl (s : State) : Placed s s := rfl

theorem Placed.trans {s t u : State} (a : Placed s t) (b : Placed t u) : Placed s u := by
  unfold Placed at *
  rw [b, a]

theorem Placed.reg {s t : State} (h : Placed s t) (p : Page) (off : Nat) : t.reg p off = s.reg p off := by
  rw [h]
  rfl

theorem Placed.hub {s t : State} (h : Placed s t) (k : Nat) : t.hub k = s.hub k := by
  rw [h]
  rfl

theorem Placed.serve {s t : State} (h : Placed s t) : t.serve = s.serve := by rw [h]

theorem State.writePlace_placed (s : State) (d : Nat) (p : RowPlace) (bytes : List (BitVec 8)) (sigma : BitVec 16) :
    Placed s (s.writePlace d p bytes sigma) := by
  cases p with
  | act r j p =>
    simp only [State.writePlace]
    split
    · rfl
    · rfl
  | ps r j p =>
    simp only [State.writePlace]
    split
    · rfl
    · rfl
  | gran k a => rfl
  | column k b e => rfl

theorem State.sendOutputs_placed (s : State) (d : Nat) (rows : List RowPlace) (outs : List (List B32)) :
    Placed s (s.sendOutputs d rows outs) := by
  unfold State.sendOutputs
  exact List.foldlRecOn _ _ (motive := fun t => Placed s t) (.refl s) fun t ht e _ => ht.trans (t.writePlace_placed _ _ _ _)

theorem State.writePlace_withHubs (s : State) (hs : Table HubAttn) (d : Nat) (p : RowPlace) (bytes : List (BitVec 8)) (sigma : BitVec 16) :
    (s.withHubs hs).writePlace d p bytes sigma = (s.writePlace d p bytes sigma).withHubs hs := by
  cases p with
  | act r j p =>
    simp only [State.writePlace, apply_ite (State.withHubs · hs)]
    rfl
  | ps r j p =>
    simp only [State.writePlace, apply_ite (State.withHubs · hs)]
    rfl
  | gran k a => rfl
  | column k b e => rfl

/-- What a die takes of the outputs does not depend on the hubs. -/
theorem State.sendOutputs_withHubs (s : State) (hs : Table HubAttn) (d : Nat) (rows : List RowPlace) (outs : List (List B32)) :
    (s.withHubs hs).sendOutputs d rows outs = (s.sendOutputs d rows outs).withHubs hs := by
  unfold State.sendOutputs
  exact List.foldl_hom (init := s) (State.withHubs · hs) fun t e => t.writePlace_withHubs _ _ _ _ _

theorem State.withHubs_hub (s t : State) (k : Nat) : (s.withHubs t.store.hubs).hub k = t.hub k := rfl

/-! ### RELEASE_TIME -/

/-- From `s` to `t` hubs and registers may have moved, and no query set. -/
structure TimedOut (s t : State) (h q : Nat) : Prop where
  frame : t = { s with regs := t.regs, store := { s.store with hubs := t.store.hubs } }
  qset : ∀ j k, (t.hub j).qset k = (s.hub j).qset k
  remote : ∀ r ∈ (t.hub h).remote, r.qset = q → r.timedOut = true
  regs : ∀ a, a ≠ (Page.attn h).base + 0x138 → t.regAt a = s.regAt a

/-- The remote requests of a set, timed out (R318). -/
def HubAttn.requestsOut (y : HubAttn) (q : Nat) : HubAttn :=
  { y with remote := y.remote.map fun r => if r.qset = q then { r with timedOut := true } else r }

theorem HubAttn.requestsOut_out (y : HubAttn) (q : Nat) (r : RemoteReq) (hr : r ∈ (y.requestsOut q).remote) (hq : r.qset = q) :
    r.timedOut = true := by
  obtain ⟨w, -, rfl⟩ := List.mem_map.1 hr
  by_cases hw : w.qset = q
  · rw [if_pos hw]
  · rw [if_neg hw] at hq
    exact absurd hq hw

/-- A set's remote requests time out (R318). -/
theorem State.timeoutSet_out (s : State) (h q : Nat) : TimedOut s (s.timeoutSet h q) h q := by
  unfold State.timeoutSet
  extract_lets n
  split
  next hn =>
    refine ⟨rfl, fun _ _ => rfl, fun r hr hq => ?_, fun _ _ => rfl⟩
    have hnone := List.filter_eq_nil_iff.1 (List.eq_nil_of_length_eq_zero hn) r hr
    simpa [hq] using hnone
  next =>
    refine ⟨rfl, fun j k => ?_, fun r hr hq => ?_, fun a ha => (State.regAt_bump _ _ _ _ _).trans (if_neg ha)⟩
    · rw [State.bump_hub, State.hub_modHub]
      split
      next hj => rw [hj]; rfl
      next => rfl
    · rw [State.bump_hub, State.hub_modHub_self] at hr
      exact ((s.hub h).requestsOut_out q r hr hq)

section Release
variable (s : State) (hub : HubId) (q : Nat) (x : QSet) (hx : tfind (s.hub hub.val).qsets q = some x)
include hx

theorem exec_release_again (h : x.released = true) : exec (.releaseTime hub q) s = .next (s.timeoutSet hub.val q) := by
  change execReleaseTime hub q s = _
  unfold execReleaseTime
  dsimp only
  rw [hx]
  exact if_pos h

/-- The state once a set's record is released. -/
def State.setReleased (s : State) (h q : Nat) : State := s.modHub h fun y => y.modQset q fun z => { z with released := true }

theorem exec_release_complete (h : x.released = false) (outs : List (List B32 × Bool)) (houts : x.outputs = some outs) :
    exec (.releaseTime hub q) s = .next ((s.setReleased hub.val q).sendOutputs x.die x.outs (outs.map (·.1))) := by
  change execReleaseTime hub q s = _
  unfold execReleaseTime
  dsimp only
  rw [hx]
  dsimp only
  rw [if_neg (by rw [h]; exact Bool.false_ne_true), houts]
  rfl

/-- The zero vector of each query. -/
def QSet.zeros (x : QSet) : List (List B32) := x.queries.map fun _ => List.replicate 128 (F32.ofInt 0)

/-- A record released before its set was complete (R298). -/
def QSet.zeroed (z : QSet) (zeros : List (List B32)) : QSet :=
  { z with released := true, outputs := some (zeros.map fun v => (v, false)), waiting := [] }

/-- The state once an incomplete set is released, before its zeros go out. -/
def State.setZeroed (s : State) (h q : Nat) (x : QSet) : State :=
  (s.modHub h fun y => y.modQset q (·.zeroed x.zeros)).timeoutSet h q

theorem exec_release_incomplete (h : x.released = false) (houts : x.outputs = none) :
    exec (.releaseTime hub q) s = .next ((((s.setZeroed hub.val q x).markStep x.step .timeout).bump (.attn hub.val) 0x128 1).sendOutputs
      x.die x.outs x.zeros) := by
  change execReleaseTime hub q s = _
  unfold execReleaseTime
  dsimp only
  rw [hx]
  dsimp only
  rw [if_neg (by rw [h]; exact Bool.false_ne_true), houts]
  rfl

theorem State.setZeroed_qset : ((s.setZeroed hub.val q x).hub hub.val).qset q = x.zeroed x.zeros := by
  rw [State.setZeroed, (State.timeoutSet_out _ _ _).qset, State.hub_modHub_self, HubAttn.qset_modQset, if_pos rfl, HubAttn.qset_of_tfind hx]

omit hx in
theorem State.setZeroed_reg : (s.setZeroed hub.val q x).reg (.attn hub.val) 0x128 = s.reg (.attn hub.val) 0x128 :=
  (State.timeoutSet_out _ _ _).regs _ (Nat.add_left_cancel_iff.not.2 (by decide))

end Release

end Sys2Proof.Machine
end

section
open Sys2Proof Sys2Proof.Machine

/-- Settles O50: a lemma for each end of a run, of a merge and of a release; what memory and the commons do beside a run leaves the hubs and
their attention pages. -/
theorem enginesRunMergeAndRelease : Obligations.EnginesRunMergeAndRelease := by
  unfold Obligations.EnginesRunMergeAndRelease
  intro s hub e g b d q x hg hd
  subst hd
  refine ⟨fun h => ?halted, fun h hslot => ?unfilled, fun h hslot hseq => ⟨fun hepoch => ?epoch, fun c hepoch hcheck => ?refused,
    fun hepoch hq hq' hk hfits hpart htau hhead keys hkeys => ?delivers⟩, fun hx houts hrel parts hparts => ?merge,
    fun hx hrel => ⟨fun outs houts => ?complete, fun houts => ?incomplete⟩, fun hx hrel => ?again⟩
  case halted =>
    obtain ⟨hhalted, hslots, hexpected, hlease⟩ := g.readied_halted ((s.hub hub.val).leaseCore hub.val e.val)
      (s.hubTime hub.val + 1000 * (Config.leaseTerm hub.val e.val).toNat) h
    have hengine := s.readyEngine_engine hub.val e.val
    rw [← hg] at hengine
    refine ⟨_, exec_run_halted s hub e (hg ▸ h), by rw [hengine, hhalted], by rw [hengine, hslots], by rw [hengine, hexpected],
      by rw [hengine, hlease], fun k hk => ?_, rfl⟩
    rw [State.readyEngine_eq, State.hub_modHub, if_neg hk]
  case unfilled =>
    refine ⟨_, exec_run_unfilled s hub e g hg h hslot, ?_, fun y hy z hz => ?_, s.ranUnfilled_code _ _ _⟩
    · rw [State.ranUnfilled_engine, ← hg]
      rfl
    · exact s.ranUnfilled_marks _ _ _ y hy z (hg ▸ hz)
  case epoch =>
    have hlog := (s.slotDrained hub.val e.val (g.expected % 64) b).attnError_logged hub.val e.val (g.expected % 64) .epoch
    refine ⟨_, exec_run_epoch s hub e g b hg h hslot hseq hepoch, ?_, ?_, hlog.code⟩
    · rw [hlog.hub, State.slotDrained_engine]
      exact tfind_tdrop_self _ _
    · rw [hlog.hub, State.slotDrained_engine, ← hg]
      rfl
  case refused =>
    have hlog := (s.slotDrained hub.val e.val (g.expected % 64) b).attnError_logged hub.val e.val (g.expected % 64) c
    refine ⟨_, exec_run_refused s hub e g b hg h hslot hseq c hepoch hcheck, ?_, hlog.code⟩
    rw [hlog.hub, State.slotDrained_engine, ← hg]
    rfl
  case delivers =>
    generalize hd : Descriptor.ofBytes b = d at *
    have hdrained := s.slotDrained_hubs hub.val e.val (g.expected % 64) b
    have hbytes := s.readBytes_withHubs (s.slotDrained hub.val e.val (g.expected % 64) b).store.hubs (d.page * Config.pageBytes) 16
      (s.sess d.context).kvKey
    rw [← hdrained] at hbytes
    obtain ⟨u, clips, flushes, fj, poison, hside, -, hdone⟩ := (s.slotDrained hub.val e.val (g.expected % 64) b).processDesc_agrees hub.val d
      (s.queriesOf d) (s.sess d.context).kvKey (by rw [hbytes]; exact hhead)
    rw [hbytes, State.readKeys_withHubs] at hdone
    have hcheck := d.check_good hq hq' hk hfits hpart htau
    have hregs := u.runCounted_regs hub.val d.keyCount clips flushes fj
    have hexec := exec_run_delivers s hub e g b hg h hslot (by rw [hd]; exact hseq) _ _ (by rw [hd]; exact hepoch) (by rw [hd]; exact hcheck)
      (by rw [hd]; exact hdone)
    rw [hd] at hexec
    refine ⟨_, hexec, ?_, ?_, ?_, ?_⟩
    · rw [State.delivered_arrived, Option.map_some, partsOf, List.map_map, hkeys]
      rfl
    · rw [State.delivered_reg, hregs.1, State.attnSide_reg hside hub 0x100 (by decide)]
      rfl
    · rw [State.delivered_reg, hregs.2, State.attnSide_reg hside hub 0x108 (by decide)]
      rfl
    · rw [State.delivered_engine, State.runCounted_hub, State.attnSide_hub hside, State.slotDrained_engine, ← hg]
      rfl
  case merge =>
    have hset := s.merged_qset hub q x hx parts
    refine ⟨_, exec_merge s hub q x hx houts hrel parts hparts, ?_⟩
    by_cases hlast : x.merged + 1 = x.partials
    · rw [if_pos hlast, State.finishSet_qset, hset]
      refine ⟨rfl, x.folded_first parts, x.folded_later parts, fun hn => absurd hlast hn, fun _ => rfl, fun k hk => ?_, fun k hk => ?_⟩
      · rw [State.finishSet_qset_other _ _ _ _ hk, s.merged_qset_other hub q x parts k hk]
      · rw [State.finishSet_hub_other _ _ _ _ hk, s.merged_hub hub q x parts k hk]
    · rw [if_neg hlast, hset]
      exact ⟨rfl, x.folded_first parts, x.folded_later parts, fun _ => houts, fun hn => absurd hn hlast, s.merged_qset_other hub q x parts,
        s.merged_hub hub q x parts⟩
  case complete =>
    have hsent := s.sendOutputs_withHubs (s.setReleased hub.val q).store.hubs x.die x.outs (outs.map (·.1))
    have hplaced := s.sendOutputs_placed x.die x.outs (outs.map (·.1))
    refine ⟨_, (exec_release_complete s hub q x hx hrel outs houts).trans (congrArg _ hsent), ?_, fun k hk => ?_, rfl, ?_⟩
    · rw [State.withHubs_hub, State.setReleased, State.hub_modHub_self, HubAttn.qset_modQset, if_pos rfl, HubAttn.qset_of_tfind hx]
    · rw [State.withHubs_hub, State.setReleased, State.hub_modHub, if_neg hk]
    · rw [hplaced]
      rfl
  case incomplete =>
    have hout := State.timeoutSet_out (s.modHub hub.val fun y => y.modQset q (·.zeroed x.zeros)) hub.val q
    have hset := s.setZeroed_qset hub q x hx
    have hreg := s.setZeroed_reg hub q x
    have hremote : ∀ r ∈ ((s.setZeroed hub.val q x).hub hub.val).remote, r.qset = q → r.timedOut = true := hout.remote
    refine ⟨_, exec_release_incomplete s hub q x hx hrel houts, ?_⟩
    generalize s.setZeroed hub.val q x = u at hset hreg hremote
    have hplaced := ((u.markStep x.step .timeout).bump (.attn hub.val) 0x128 1).sendOutputs_placed x.die x.outs x.zeros
    have hhub := hplaced.hub hub.val
    rw [State.bump_hub] at hhub
    refine ⟨?_, ?_, fun y hy hid => ?_, ?_, fun r hr => hremote r (by rw [hhub] at hr; exact hr)⟩
    · rw [hhub]
      exact congrArg QSet.released hset
    · rw [hhub]
      exact (congrArg QSet.outputs hset).trans (by rw [QSet.zeroed, QSet.zeros, List.map_map]; rfl)
    · rw [hplaced.serve, State.bump_serve] at hy
      obtain ⟨w, -, -, -, hmark⟩ := u.markStep_mem x.step .timeout y hy
      exact hmark hid
    · rw [hplaced.reg, State.bump, State.reg_setReg_self, ← hreg]
      rfl
  case again =>
    have hout := s.timeoutSet_out hub.val q
    exact ⟨_, exec_release_again s hub q x hx hrel, hout.remote, hout.qset hub.val, hout.frame⟩

end

section
/-!
Attend-at-store: ATTN_REQ, ATTN_RSP and ATTN_BUSY (R316 to R320).
-/
namespace Sys2Proof.Machine

/-! ### ATTN_REQ -/

section Request
variable (s : State) (r : AttnReqIn)

theorem exec_attnReq_epoch (h : r.storeEpoch % 65536 ≠ s.store.storeEpoch % 65536) :
    exec (.attnReq r) s = .next (s.send { destination := r.source, type := 0x02, body := [r.tag, Code.epoch.num] }) := by
  change execAttnReq r s = _
  unfold execAttnReq
  exact if_pos h

theorem exec_attnReq_role (h : r.storeEpoch % 65536 = s.store.storeEpoch % 65536) (hrole : s.pkg.role ≠ 3) :
    exec (.attnReq r) s = .next (s.send { destination := r.source, type := 0x02, body := [r.tag, Code.role.num] }) := by
  change execAttnReq r s = _
  unfold execAttnReq
  dsimp only
  rw [if_neg (not_not.2 h), if_pos hrole]

theorem exec_attnReq_busy (h : r.storeEpoch % 65536 = s.store.storeEpoch % 65536) (hrole : s.pkg.role = 3) (hqueue : r.canQueue = false) :
    exec (.attnReq r) s = .next (s.send { destination := r.source, type := 0x03, body := [r.tag] }) := by
  change execAttnReq r s = _
  unfold execAttnReq
  dsimp only
  rw [if_neg (not_not.2 h), if_neg (not_not.2 hrole), if_pos (by rw [hqueue]; rfl)]

/-- The answer of a served request (R316). -/
def servedMsg (r : AttnReqIn) (parts : List SoftState) : OutMsg :=
  { destination := r.source, type := 0x02, body := [r.tag, 0], poison := parts.any (·.poison), data := parts.flatMap softBytes }

/-- A request of one page is answered with the partials that its processing gives (R316). -/
theorem exec_attnReq_serves (h : r.storeEpoch % 65536 = s.store.storeEpoch % 65536) (hrole : s.pkg.role = 3) (hqueue : r.canQueue = true)
    (p : RemotePage) (hpages : r.pages = [p]) (d : Descriptor) (hd : d = Descriptor.mk 0 0 r.layer r.kv8 r.head r.queries.length p.keyFirst
      p.keyCount 0 p.firstPosition 0 r.tau r.window r.floor 0 p.page) (hcheck : d.check = none) (u : State) (parts : List SoftState)
    (hdone : s.processDesc (stackOfPage d.page % 8 / 2) d r.queries (s.pageKey d.page) = (u, some parts)) :
    exec (.attnReq r) s =
      .next (((u.bump (.attn r.hub.val) 0x118 0).bump (.attn r.hub.val) 0x148 1).send (servedMsg r parts)) := by
  subst hd
  change execAttnReq r s = _
  unfold execAttnReq
  dsimp only
  rw [if_neg (not_not.2 h), if_neg (not_not.2 hrole), if_neg (by rw [hqueue]; decide), hpages]
  simp only [List.zipIdx_cons, List.zipIdx_nil, List.foldl_cons, List.foldl_nil, hcheck, hdone]
  rfl

end Request

theorem State.send_outbox (s : State) (m : OutMsg) : (s.send m).links.outbox = s.links.outbox ++ [m] := rfl

theorem State.send_reg (s : State) (m : OutMsg) (p : Page) (off : Nat) : (s.send m).reg p off = s.reg p off := rfl

theorem State.runCounted_outbox (u : State) (h keys clips flushes fj : Nat) :
    (u.runCounted h keys clips flushes fj).links.outbox = u.links.outbox := by
  change (State.spend _ fj).links.outbox = _
  rw [show ∀ v : State, (v.spend fj).links = v.links from fun _ => rfl, State.bump_links, State.bump_links, State.bump_links,
    State.bump_links]

/-- Processing at a hub leaves the count of requests served, at whichever hub it stands. -/
theorem State.runCounted_served (u : State) (h k keys clips flushes fj : Nat) :
    (u.runCounted h keys clips flushes fj).reg (.attn k) 0x148 = u.reg (.attn k) 0x148 := by
  have hoff (o : Nat) (ho : o < 0x148) : (Page.attn k).base + 0x148 ≠ (Page.attn h).base + o := by
    change (16 + k) * 0x1000 + 0x148 ≠ (16 + h) * 0x1000 + o
    omega
  have hlast : (Page.attn k).base + 0x148 ∉ [0x110, 0x118].map ((Page.attn h).base + ·) := by
    simp only [List.map_cons, List.map_nil, List.mem_cons, List.not_mem_nil, or_false, not_or]
    exact ⟨hoff 0x110 (by decide), hoff 0x118 (by decide)⟩
  rw [State.reg, State.runCounted_regAt _ _ _ _ _ _ _ hlast, State.regAt_bump,
    if_neg (hoff 0x108 (by decide)), State.regAt_bump, if_neg (hoff 0x100 (by decide)), State.reg]

theorem partsOf_bytes (d : Descriptor) (qs : List Query) (keys : List KeyVal) (poison : Bool) :
    (partsOf d qs keys poison).flatMap softBytes = qs.flatMap fun y => softBytes (softRun y d.tau d.window d.floor keys).1 := by
  rw [partsOf, List.flatMap_map]
  rfl

/-! ### Remote requests -/

section Response
variable (s : State) (hub : HubId) (tag : Nat) (ps : List SoftState)

/-- A hub without the requests of a tag. -/
def HubAttn.answered (y : HubAttn) (tag : Nat) : HubAttn := { y with remote := y.remote.filter fun r => r.tag != tag }

/-- The state without a hub's requests of a tag. -/
def State.answered (s : State) (h tag : Nat) : State := s.modHub h (·.answered tag)

theorem State.answered_remote (h : Nat) (y : RemoteReq) (hy : y ∈ ((s.answered h tag).hub h).remote) : y.tag ≠ tag := by
  rw [State.answered, State.hub_modHub_self] at hy
  simpa using (List.mem_filter.1 hy).2

theorem State.answered_qset (h k j : Nat) : ((s.answered h tag).hub k).qset j = (s.hub k).qset j := by
  rw [State.answered, State.hub_modHub]
  split
  next hk => rw [hk]; rfl
  next => rfl

theorem exec_attnRsp_unknown (status : Nat) (h : ∀ y ∈ (s.hub hub.val).remote, y.tag ≠ tag) :
    exec (.attnRsp hub tag status ps) s = .next (s.bump (.attn hub.val) 0x140 1) := by
  have hnone : (s.hub hub.val).remote.find? (fun r => r.tag == tag) = none := List.find?_eq_none.2 fun y hy => by simpa using h y hy
  change execAttnRsp hub tag status ps s = _
  simp only [execAttnRsp, hnone]

theorem exec_attnBusy_unknown (h : ∀ y ∈ (s.hub hub.val).remote, y.tag ≠ tag) : exec (.attnBusy hub tag) s = .next s := by
  have hnone : (s.hub hub.val).remote.find? (fun r => r.tag == tag && !r.timedOut) = none :=
    List.find?_eq_none.2 fun y hy => by simp [h y hy]
  change Host.Outcome.next (s.timeoutRemote hub.val tag) = _
  simp only [State.timeoutRemote, hnone]

section Found
variable (m : RemoteReq) (hm : (s.hub hub.val).remote.find? (fun y => y.tag == tag) = some m)
include hm

theorem exec_attnRsp_late (status : Nat) (hlate : m.timedOut = true) :
    exec (.attnRsp hub tag status ps) s = .next ((s.answered hub.val tag).bump (.attn hub.val) 0x140 1) := by
  change execAttnRsp hub tag status ps s = _
  unfold execAttnRsp
  dsimp only
  rw [hm]
  exact if_pos hlate

theorem exec_attnRsp_merges (hopen : m.timedOut = false) :
    exec (.attnRsp hub tag 0 ps) s = .next ((s.answered hub.val tag).modHub hub.val fun y => y.modQset m.qset fun z =>
      { z with arrived := tset z.arrived m.part ps }) := by
  change execAttnRsp hub tag 0 ps s = _
  unfold execAttnRsp
  dsimp only
  rw [hm]
  dsimp only
  rw [if_neg (by rw [hopen]; exact Bool.false_ne_true), if_neg (by decide), if_neg (not_not.2 rfl)]
  rfl

theorem exec_attnRsp_epoch (hopen : m.timedOut = false) (st : Step) (hst : s.findStep ((s.hub hub.val).qset m.qset).step = some st) :
    exec (.attnRsp hub tag Code.epoch.num ps) s =
      .next (((s.answered hub.val tag).failStep ((s.hub hub.val).qset m.qset).step .epoch).loseRemote st.context m.package) := by
  change execAttnRsp hub tag Code.epoch.num ps s = _
  unfold execAttnRsp
  dsimp only
  rw [hm]
  dsimp only
  rw [if_neg (by rw [hopen]; exact Bool.false_ne_true), if_pos rfl, hst]
  rfl

theorem exec_attnRsp_refused (hopen : m.timedOut = false) (code : Nat) (h0 : code ≠ 0) (hepoch : code ≠ Code.epoch.num) :
    exec (.attnRsp hub tag code ps) s = .next (s.timeoutRemote hub.val tag) := by
  change execAttnRsp hub tag code ps s = _
  unfold execAttnRsp
  dsimp only
  rw [hm]
  dsimp only
  rw [if_neg (by rw [hopen]; exact Bool.false_ne_true), if_neg hepoch, if_pos h0]

/-- A hub whose requests of a tag have timed out. -/
def HubAttn.tagOut (y : HubAttn) (tag : Nat) : HubAttn :=
  { y with remote := y.remote.map fun r => if r.tag = tag then { r with timedOut := true } else r }

omit hm in
theorem HubAttn.tagOut_out (y : HubAttn) (r : RemoteReq) (hr : r ∈ (y.tagOut tag).remote) (htag : r.tag = tag) : r.timedOut = true := by
  obtain ⟨w, -, rfl⟩ := List.mem_map.1 hr
  by_cases hw : w.tag = tag
  · rw [if_pos hw]
  · rw [if_neg hw] at htag
    exact absurd htag hw

/-- A request that is open times out, and is counted (R318, R319). -/
theorem State.timeoutRemote_open (hopen : m.timedOut = false) :
    s.timeoutRemote hub.val tag = (s.modHub hub.val (·.tagOut tag)).bump (.attn hub.val) 0x138 1 := by
  have hsome : ((s.hub hub.val).remote.find? fun r => r.tag == tag && !r.timedOut).isSome = true := by
    rw [List.find?_isSome]
    have htag : (m.tag == tag) = true := by simpa using List.find?_some hm
    exact ⟨m, List.mem_of_find?_eq_some hm, by rw [htag, hopen]; rfl⟩
  obtain ⟨w, hw⟩ := Option.isSome_iff_exists.1 hsome
  simp only [State.timeoutRemote, hw]
  rfl

/-- What the timeout of a request leaves. -/
theorem State.timeoutRemote_out (hopen : m.timedOut = false) :
    (∀ y ∈ ((s.timeoutRemote hub.val tag).hub hub.val).remote, y.tag = tag → y.timedOut = true) ∧
      (s.timeoutRemote hub.val tag).reg (.attn hub.val) 0x138 = satAdd (s.reg (.attn hub.val) 0x138) 1 ∧
      s.timeoutRemote hub.val tag = { s with
        regs := (s.timeoutRemote hub.val tag).regs, store := { s.store with hubs := (s.timeoutRemote hub.val tag).store.hubs } } := by
  rw [s.timeoutRemote_open hub tag m hm hopen]
  refine ⟨fun y hy htag => ?_, ?_, rfl⟩
  · rw [State.bump_hub, State.hub_modHub_self] at hy
    exact HubAttn.tagOut_out _ _ y hy htag
  · rw [State.bump, State.reg_setReg_self]
    rfl

end Found
end Response

/-! ### References lost -/

theorem State.enterPte_empty_sess (s : State) (x i : Nat) :
    (s.enterPte x i .empty).sess x = { s.sess x with table := tdrop (s.sess x).table i } := by
  have hmod : (s.modSess x fun y => y.setPte i .empty).sess x = { s.sess x with table := tdrop (s.sess x).table i } := by
    rw [State.sess_modSess_self, Session.setPte, tput, if_pos rfl]
  unfold State.enterPte
  dsimp only
  split
  next a _ =>
    rw [State.sess, (State.writeBytes_mem _ _ _ _).serve]
    exact hmod
  next => exact hmod

theorem State.enterPte_steps (s : State) (x i : Nat) (e : Pte) : (s.enterPte x i e).serve.steps = s.serve.steps := by
  unfold State.enterPte
  dsimp only
  split
  · rw [(State.writeBytes_mem _ _ _ _).serve]
    rfl
  · rfl

/-- Emptied entries leave the table, and no entry comes. -/
theorem State.emptyAll_table (s : State) (x : Nat) (l : List (Nat × Pte)) (e : Nat × Pte)
    (he : e ∈ ((l.foldl (fun (t : State) k => t.enterPte x k.1 .empty) s).sess x).table) : e ∈ (s.sess x).table ∧ e ∉ l := by
  induction l generalizing s with
  | nil => exact ⟨he, List.not_mem_nil⟩
  | cons k l ih =>
    obtain ⟨hmem, hl⟩ := ih _ he
    rw [s.enterPte_empty_sess] at hmem
    obtain ⟨hin, hkey⟩ := List.mem_filter.1 hmem
    refine ⟨hin, fun h => ?_⟩
    rcases List.mem_cons.1 h with rfl | h
    · simp at hkey
    · exact hl h

/-- The entries of a session on a store package (R320). -/
def Session.entriesOn (y : Session) (package : Nat) : List (Nat × Pte) :=
  y.table.filter fun e => match e.2 with
    | .remote p _ _ => p == package
    | _ => false

theorem State.loseRemote_eq (s : State) (x package : Nat) : s.loseRemote x package =
    (((s.sess x).entriesOn package).foldl (fun (t : State) k => t.enterPte x k.1 .empty) s).modSess x
      fun y => { y with remoteLost := true } := rfl

theorem State.loseRemote_sess (s : State) (x package : Nat) : ((s.loseRemote x package).sess x).remoteLost = true ∧
    ∀ i pk ep p, (i, Pte.remote pk ep p) ∈ ((s.loseRemote x package).sess x).table → pk ≠ package := by
  rw [s.loseRemote_eq, State.sess_modSess_self]
  refine ⟨rfl, fun i pk ep p hin hpk => ?_⟩
  obtain ⟨hold, hgone⟩ := s.emptyAll_table x _ _ hin
  exact hgone (List.mem_filter.2 ⟨hold, by simpa using hpk⟩)

theorem State.loseRemote_steps (s : State) (x package : Nat) : (s.loseRemote x package).serve.steps = s.serve.steps := by
  rw [s.loseRemote_eq]
  exact foldl_keeps (fun t : State => t.serve.steps) _ _ s fun t k => t.enterPte_steps x k.1 .empty

/-- A step whose references are lost fails with EPOCH, unless it has failed before (R320). -/
theorem State.lost_failed (s : State) (h tag x package : Nat) (st : Step) (id : Nat) (hst : s.findStep id = some st) (y : Step)
    (hy : (((s.answered h tag).failStep id .epoch).loseRemote x package).findStep st.id = some y) :
    y.failed = some (st.failed.getD .epoch) := by
  have hid : st.id = id := by simpa using List.find?_some hst
  have hfound : ((s.answered h tag).failStep id .epoch).findStep id = some y := by
    rw [← hy, hid, State.findStep, State.findStep, State.loseRemote_steps]
  rw [State.failStep, State.findStep_modStep _ _ (fun x => { x with failed := some (x.failed.getD .epoch) }) fun _ => rfl] at hfound
  obtain ⟨z, hz, rfl⟩ := Option.map_eq_some_iff.1 hfound
  have hsame : z = st := Option.some.inj (hz.symm.trans hst)
  rw [hsame]

end Sys2Proof.Machine
end

section
open Sys2Proof Sys2Proof.Machine

/-- Settles O51: a lemma for each answer of a store package and for each way a response ends. -/
theorem remoteAttentionIsServedAndAnswered : Obligations.RemoteAttentionIsServedAndAnswered := by
  unfold Obligations.RemoteAttentionIsServedAndAnswered
  intro s r hub tag ps m
  refine ⟨fun h => ⟨_, exec_attnReq_epoch s r h, rfl, rfl⟩, fun h hrole => ⟨_, exec_attnReq_role s r h hrole, rfl⟩,
    fun h hrole hqueue => ⟨_, exec_attnReq_busy s r h hrole hqueue, rfl⟩, ?serves, ?unknown, ?late, fun hm hopen => ⟨?merges, ?epoch, ?refused, ?busy⟩⟩
  case serves =>
    intro p d h hrole hqueue hpages hq hq' hk hfits htau hd hhead keys hkeys
    have hpage : d.page = p.page := by rw [hd]
    have hcheck : d.check = none := by
      rw [hd]
      exact Descriptor.check_good _ hq hq' hk hfits (Nat.zero_le _) htau
    obtain ⟨u, clips, flushes, fj, poison, hside, hrest, hdone⟩ := s.processDesc_agrees (stackOfPage d.page % 8 / 2) d r.queries
      (s.pageKey d.page) (by rw [hpage]; exact hhead)
    have hexec := exec_attnReq_serves s r h hrole hqueue p hpages d hd hcheck _ _ hdone
    have houtbox : u.links.outbox = s.links.outbox := congrArg (fun x => x.2.2.2) hrest
    refine ⟨_, hexec, ?_, ?_⟩
    · rw [State.send_outbox, State.bump_links, State.bump_links, State.runCounted_outbox, houtbox, List.drop_left, List.map_singleton,
        servedMsg, partsOf_bytes, hpage, ← hkeys, hd]
    · rw [State.send_reg, State.bump, State.reg_setReg_self, State.bump, State.reg_setReg_off (h := by decide), State.runCounted_served,
        State.attnSide_reg hside r.hub 0x148 (by decide)]
  case unknown =>
    intro h
    refine ⟨⟨_, exec_attnRsp_unknown s hub tag ps 0 h, ⟨rfl, fun a ha => ?_⟩, State.reg_setReg_self _ _ _ _⟩, exec_attnBusy_unknown s hub tag h⟩
    rw [State.regAt_bump, if_neg (by simpa using ha)]
  case late =>
    intro hm hlate
    refine ⟨_, exec_attnRsp_late s hub tag ps m hm 0 hlate, ?_, fun y hy => ?_, fun k => ?_⟩
    · rw [State.bump, State.reg_setReg_self]
      rfl
    · exact s.answered_remote tag hub.val y hy
    · exact s.answered_qset tag hub.val hub.val k
  case merges =>
    refine ⟨_, exec_attnRsp_merges s hub tag ps m hm hopen, ?_, fun y hy => ?_, fun k hk => ?_, rfl⟩
    · rw [State.hub_modHub_self, HubAttn.qset_modQset, if_pos rfl]
      exact tfind_tset_self _ _ _
    · rw [State.hub_modHub_self] at hy
      exact s.answered_remote tag hub.val y hy
    · rw [State.hub_modHub, if_neg hk, State.answered, State.hub_modHub, if_neg hk]
  case epoch =>
    intro st hst
    obtain ⟨hlost, hgone⟩ := ((s.answered hub.val tag).failStep ((s.hub hub.val).qset m.qset).step .epoch).loseRemote_sess st.context m.package
    exact ⟨_, exec_attnRsp_epoch s hub tag ps m hm hopen st hst, s.lost_failed _ _ _ _ st _ hst, hlost, hgone⟩
  case refused =>
    intro code h0 hepoch
    obtain ⟨hremote, hcount, -⟩ := s.timeoutRemote_out hub tag m hm hopen
    exact ⟨_, exec_attnRsp_refused s hub tag ps m hm hopen code h0 hepoch, hremote, hcount⟩
  case busy => exact ⟨_, rfl, s.timeoutRemote_out hub tag m hm hopen⟩

end

section
/-!
Remote page references: LEASE_RENEW, REMOTE_RENEW_TIMER and REMOTE_REF_EXPIRY (R320, R435).
-/
namespace Sys2Proof.Machine

/-! ### References served to a package -/

theorem State.servedBy_setServed (s : State) (k : Nat) (t : Table Nat) : (s.setServed k t).servedBy k = t := by
  have hrest : (s.store.served.filter fun r => r.package != k).find? (fun r => r.package == k) = none :=
    List.find?_eq_none.2 fun r hr => by simpa using (List.mem_filter.1 hr).2
  unfold State.setServed State.servedBy
  dsimp only
  split
  next ht => rw [hrest, List.isEmpty_iff.1 ht]; rfl
  next => rw [List.find?_append, hrest]; simp

theorem State.refsOf_setServed (s : State) (k : Nat) (t : Table Nat) (j : Nat) : (s.setServed k t).refsOf j = s.refsOf j := rfl

theorem State.servedBy_addRef (s : State) (p k : Nat) : (s.addRef p).servedBy k = s.servedBy k := rfl

theorem State.refsOf_addRef (s : State) (p j : Nat) : (s.addRef p).refsOf j = if j = p then min 65534 (s.refsOf p + 1) else s.refsOf j := by
  change (tfind (tset s.store.refs p _) j).getD 0 = _
  rw [tfind_tset]
  split
  · rfl
  · rfl

theorem State.refsOf_markUnclean (s : State) (p j : Nat) : (s.markUnclean p).refsOf j = s.refsOf j := by
  unfold State.markUnclean
  split
  · rfl
  · rfl

theorem State.refsOf_dropRef (s : State) (p j : Nat) : (s.dropRef p).refsOf j = if j = p then s.refsOf p - 1 else s.refsOf j := by
  unfold State.dropRef
  split
  next =>
    change (tfind (tset s.store.refs p _) j).getD 0 = _
    rw [tfind_tset]
    split
    · rfl
    · rfl
  split
  next h1 =>
    rw [State.refsOf_markUnclean]
    change (tfind (tdrop s.store.refs p) j).getD 0 = _
    rw [tfind_tdrop, h1]
    split
    · rfl
    · rfl
  next h1 h2 =>
    split
    next hj => rw [hj]; omega
    next => rfl

theorem State.refsOf_dropRefs_out (s : State) (l : List Nat) (j : Nat) (hj : j ∉ l) : (s.dropRefs l).refsOf j = s.refsOf j := by
  induction l generalizing s with
  | nil => rfl
  | cons p l ih =>
    rw [List.mem_cons, not_or] at hj
    exact (ih _ hj.2).trans ((s.refsOf_dropRef p j).trans (if_neg hj.1))

theorem State.refsOf_dropRefs_in (s : State) (l : List Nat) (hl : l.Nodup) (j : Nat) (hj : j ∈ l) :
    (s.dropRefs l).refsOf j = s.refsOf j - 1 := by
  induction l generalizing s with
  | nil => exact absurd hj List.not_mem_nil
  | cons p l ih =>
    obtain ⟨hp, hl⟩ := List.nodup_cons.1 hl
    change ((s.dropRef p).dropRefs l).refsOf j = _
    by_cases h : j = p
    · rw [State.refsOf_dropRefs_out _ l j (by rw [h]; exact hp), State.refsOf_dropRef, if_pos h, h]
    · rw [ih _ hl ((List.mem_cons.1 hj).resolve_left h), State.refsOf_dropRef, if_neg h]

/-! ### LEASE_RENEW -/

/-- What a renewal does for a page it names (R320). -/
def State.renewRef (t : State) (k p : Nat) : State :=
  if t.refsOf p = 0 ∨ ((tfind (t.servedBy k) p).isNone = true ∧ t.refsOf p = 65534) then t
  else (if (tfind (t.servedBy k) p).isNone then t.addRef p else t).setServed k (tset (t.servedBy k) p t.clock.time)

theorem exec_leaseRenew_stale (s : State) (k : Fin 256) (ep : Nat) (pages : List Nat) (h : ep % 65536 ≠ s.store.storeEpoch % 65536) :
    exec (.leaseRenew k ep pages) s = .next s := if_pos h

theorem exec_leaseRenew (s : State) (k : Fin 256) (ep : Nat) (pages : List Nat) (h : ep % 65536 = s.store.storeEpoch % 65536) :
    exec (.leaseRenew k ep pages) s = .next (pages.foldl (fun t p => t.renewRef k.val p) s) := if_neg (not_not.2 h)

/-- From `s` to `t` counts of pages and what is served may have moved, and nothing else. -/
def Lent (s t : State) : Prop := t = { s with store := { s.store with refs := t.store.refs, served := t.store.served } }

theorem Lent.trans {s t u : State} (a : Lent s t) (b : Lent t u) : Lent s u := by
  unfold Lent at *
  rw [b, a]

theorem Lent.clock {s t : State} (a : Lent s t) : t.clock = s.clock := by rw [a]

theorem State.renewRef_lent (t : State) (k p : Nat) : Lent t (t.renewRef k p) := by
  unfold State.renewRef
  split
  · rfl
  split
  · rfl
  · rfl

theorem State.renewRef_other (t : State) (k p j : Nat) (h : j ≠ p) :
    tfind ((t.renewRef k p).servedBy k) j = tfind (t.servedBy k) j ∧ (t.renewRef k p).refsOf j = t.refsOf j := by
  unfold State.renewRef
  split
  · exact ⟨rfl, rfl⟩
  · rw [State.servedBy_setServed, tfind_tset, if_neg h, State.refsOf_setServed]
    refine ⟨rfl, ?_⟩
    split
    · exact (t.refsOf_addRef p j).trans (if_neg h)
    · rfl

theorem State.renewRef_free (t : State) (k p : Nat) (h : t.refsOf p = 0) : t.renewRef k p = t := if_pos (.inl h)

/-- A page that is listed is renewed without another reference. -/
theorem State.renewRef_listed (t : State) (k p : Nat) (h : t.refsOf p ≠ 0) (hlisted : (tfind (t.servedBy k) p).isSome = true) :
    tfind ((t.renewRef k p).servedBy k) p = some t.clock.time ∧ (t.renewRef k p).refsOf p = t.refsOf p := by
  have hnone : (tfind (t.servedBy k) p).isNone = false := by
    rw [← Option.not_isSome, hlisted]
    rfl
  rw [State.renewRef, if_neg (by rw [hnone]; simpa using h), hnone, State.servedBy_setServed]
  exact ⟨tfind_tset_self _ _ _, rfl⟩

/-- A page that is not listed yet is referenced from now on. -/
theorem State.renewRef_fresh (t : State) (k p : Nat) (h : t.refsOf p ≠ 0) (hroom : t.refsOf p < 65534) (hfresh : tfind (t.servedBy k) p = none) :
    tfind ((t.renewRef k p).servedBy k) p = some t.clock.time ∧ (t.renewRef k p).refsOf p = t.refsOf p + 1 := by
  have hnone : (tfind (t.servedBy k) p).isNone = true := by rw [hfresh]; rfl
  rw [State.renewRef, if_neg (by rw [hnone]; omega), hnone, State.servedBy_setServed, State.refsOf_setServed]
  refine ⟨tfind_tset_self _ _ _, (t.refsOf_addRef p p).trans ?_⟩
  rw [if_pos rfl]
  omega

/-- What a renewal comes to at a page that it names. -/
structure Renewed (s t : State) (k p : Nat) : Prop where
  listed : tfind (t.servedBy k) p = some s.clock.time
  fresh : tfind (s.servedBy k) p = none → t.refsOf p = s.refsOf p + 1
  known : (tfind (s.servedBy k) p).isSome = true → t.refsOf p = s.refsOf p

theorem Renewed.refs_ne_zero {s t : State} {k p : Nat} (a : Renewed s t k p) (h : s.refsOf p ≠ 0) : t.refsOf p ≠ 0 := by
  cases hp : tfind (s.servedBy k) p with
  | none => rw [a.fresh hp]; omega
  | some v => rw [a.known (by rw [hp]; rfl)]; exact h

theorem Renewed.step {s t : State} {k p : Nat} (a : Renewed s t k p) (h : s.refsOf p ≠ 0) (hclock : t.clock = s.clock) (q : Nat) :
    Renewed s (t.renewRef k q) k p := by
  by_cases hq : p = q
  · subst hq
    obtain ⟨hlisted, hrefs⟩ := t.renewRef_listed k p (a.refs_ne_zero h) (by rw [a.listed]; rfl)
    exact ⟨by rw [hlisted, hclock], fun hf => by rw [hrefs, a.fresh hf], fun hk => by rw [hrefs, a.known hk]⟩
  · obtain ⟨hserved, hrefs⟩ := t.renewRef_other k q p hq
    exact ⟨by rw [hserved, a.listed], fun hf => by rw [hrefs, a.fresh hf], fun hk => by rw [hrefs, a.known hk]⟩

theorem State.renewRef_renewed (s t : State) (k p : Nat) (hserved : tfind (t.servedBy k) p = tfind (s.servedBy k) p)
    (hrefs : t.refsOf p = s.refsOf p) (hclock : t.clock = s.clock) (h : s.refsOf p ≠ 0) (hroom : s.refsOf p < 65534) :
    Renewed s (t.renewRef k p) k p := by
  cases hp : tfind (s.servedBy k) p with
  | none =>
    obtain ⟨hl, hr⟩ := t.renewRef_fresh k p (by rw [hrefs]; exact h) (by rw [hrefs]; exact hroom) (by rw [hserved, hp])
    exact ⟨by rw [hl, hclock], fun _ => by rw [hr, hrefs], fun hk => absurd hk (by rw [hp]; exact Bool.false_ne_true)⟩
  | some v =>
    obtain ⟨hl, hr⟩ := t.renewRef_listed k p (by rw [hrefs]; exact h) (by rw [hserved, hp]; rfl)
    exact ⟨by rw [hl, hclock], fun hf => absurd hf (by rw [hp]; exact Option.some_ne_none _), fun _ => by rw [hr, hrefs]⟩

section Pages
variable (s : State) (k : Nat) (l : List Nat)

theorem State.renewRefs_lent : Lent s (l.foldl (fun t p => t.renewRef k p) s) :=
  List.foldlRecOn l _ (motive := fun t => Lent s t) rfl fun t ht p _ => ht.trans (t.renewRef_lent k p)

theorem State.renewRefs_out (j : Nat) (hj : j ∉ l) :
    tfind ((l.foldl (fun t p => t.renewRef k p) s).servedBy k) j = tfind (s.servedBy k) j ∧
      (l.foldl (fun t p => t.renewRef k p) s).refsOf j = s.refsOf j := by
  refine List.foldlRecOn l _ (motive := fun t : State => tfind (t.servedBy k) j = tfind (s.servedBy k) j ∧ t.refsOf j = s.refsOf j)
    ⟨rfl, rfl⟩ fun t ht p hp => ?_
  obtain ⟨hserved, hrefs⟩ := t.renewRef_other k p j fun h => hj (h ▸ hp)
  exact ⟨hserved.trans ht.1, hrefs.trans ht.2⟩

theorem State.renewRefs_free (j : Nat) (hj : s.refsOf j = 0) :
    tfind ((l.foldl (fun t p => t.renewRef k p) s).servedBy k) j = tfind (s.servedBy k) j := by
  refine (List.foldlRecOn l _ (motive := fun t : State => tfind (t.servedBy k) j = tfind (s.servedBy k) j ∧ t.refsOf j = 0)
    ⟨rfl, hj⟩ fun t ht p _ => ?_).1
  by_cases h : j = p
  · rw [t.renewRef_free k p (by rw [← h]; exact ht.2)]
    exact ht
  · obtain ⟨hserved, hrefs⟩ := t.renewRef_other k p j h
    exact ⟨hserved.trans ht.1, hrefs.trans ht.2⟩

theorem State.renewRefs_in (p : Nat) (hp : p ∈ l) (h : s.refsOf p ≠ 0) (hroom : s.refsOf p < 65534) :
    Renewed s (l.foldl (fun t p => t.renewRef k p) s) k p := by
  obtain ⟨l1, l2, rfl, hfirst⟩ := List.eq_append_cons_of_mem hp
  obtain ⟨hserved, hrefs⟩ := s.renewRefs_out k l1 p hfirst
  have hlent := s.renewRefs_lent k l1
  rw [List.foldl_append, List.foldl_cons]
  generalize l1.foldl (fun t p => t.renewRef k p) s = t at hserved hrefs hlent
  have hstart := State.renewRef_renewed s t k p hserved hrefs hlent.clock h hroom
  exact (List.foldlRecOn l2 _ (motive := fun u : State => Renewed s u k p ∧ u.clock = s.clock)
    ⟨hstart, (t.renewRef_lent k p).clock.trans hlent.clock⟩ fun u hu q _ =>
      ⟨hu.1.step h hu.2 q, (u.renewRef_lent k q).clock.trans hu.2⟩).1

end Pages

/-! ### REMOTE_RENEW_TIMER -/

theorem groups46_covers (n : Nat) (l : List Nat) (hn : l.length ≤ 46 * n) (x : Nat) (hx : x ∈ l) : ∃ g ∈ groups46 n l, x ∈ g := by
  induction n generalizing l with
  | zero =>
    rw [List.eq_nil_of_length_eq_zero (by omega : l.length = 0)] at hx
    exact absurd hx List.not_mem_nil
  | succ n ih =>
    have hne : ¬l.isEmpty = true := by
      rw [List.isEmpty_iff]
      exact List.ne_nil_of_mem hx
    rw [groups46, if_neg hne]
    rw [← List.take_append_drop 46 l, List.mem_append] at hx
    rcases hx with hx | hx
    · exact ⟨_, List.mem_cons_self, hx⟩
    · obtain ⟨g, hg, hxg⟩ := ih (l.drop 46) (by rw [List.length_drop]; omega) hx
      exact ⟨g, List.mem_cons_of_mem _ hg, hxg⟩

theorem groups46_short (n : Nat) (l g : List Nat) (hg : g ∈ groups46 n l) : g.length ≤ 46 := by
  induction n generalizing l with
  | zero => exact absurd hg List.not_mem_nil
  | succ n ih =>
    rw [groups46] at hg
    split at hg
    · exact absurd hg List.not_mem_nil
    · rcases List.mem_cons.1 hg with rfl | hg
      · rw [List.length_take]
        omega
      · exact ih _ hg

/-- The state with messages more in its outbox. -/
def State.sendAll (s : State) (l : List OutMsg) : State := { s with links := { s.links with outbox := s.links.outbox ++ l } }

theorem State.sendAll_nil (s : State) : s.sendAll [] = s := by
  rw [State.sendAll, List.append_nil]

theorem State.foldl_sendAll {α : Type} (f : α → List OutMsg) (l : List α) (s : State) :
    l.foldl (fun t x => t.sendAll (f x)) s = s.sendAll (l.flatMap f) := by
  induction l generalizing s with
  | nil => exact s.sendAll_nil.symm
  | cons x l ih =>
    rw [List.foldl_cons, ih, List.flatMap_cons]
    simp only [State.sendAll, List.append_assoc]

theorem State.foldl_send {α : Type} (f : α → OutMsg) (l : List α) (s : State) : l.foldl (fun t x => t.send (f x)) s = s.sendAll (l.map f) := by
  rw [List.map_eq_flatMap]
  exact State.foldl_sendAll (fun x => [f x]) l s

/-- The renewals of one store epoch, up to 46 pages to a message (R435). -/
def renewMsgs (store ep : Nat) (all : List (Nat × Nat)) : List OutMsg :=
  (groups46 (((all.filter fun e => e.1 == ep).map (·.2)).length / 46 + 1) ((all.filter fun e => e.1 == ep).map (·.2))).map fun g =>
    { destination := store, type := 0x04, body := ep :: g }

theorem exec_remoteRenewTimer (s : State) (k : Fin 256) : exec (.remoteRenewTimer k) s =
    .next (s.sendAll ((((s.remotePages k.val).map (·.1)).eraseDups).flatMap fun ep => renewMsgs k.val ep (s.remotePages k.val))) := by
  change execRemoteRenewTimer k s = _
  unfold execRemoteRenewTimer
  dsimp only
  rw [← State.foldl_sendAll]
  refine congrArg Host.Outcome.next (congrFun (congrArg (fun f => List.foldl f s) (funext fun t => funext fun ep => ?_)) _)
  exact State.foldl_send (fun g => { destination := k.val, type := 0x04, body := ep :: g }) _ t

theorem renewMsgs_covers (store : Nat) (all : List (Nat × Nat)) (e : Nat × Nat) (he : e ∈ all) :
    ∃ m ∈ ((all.map (·.1)).eraseDups).flatMap fun ep => renewMsgs store ep all, m.destination = store ∧ m.type = 0x04 ∧
      ∃ g, m.body = e.1 :: g ∧ e.2 ∈ g := by
  have hpage : e.2 ∈ (all.filter fun x => x.1 == e.1).map (·.2) := List.mem_map_of_mem (List.mem_filter.2 ⟨he, by simp⟩)
  obtain ⟨g, hg, hin⟩ := groups46_covers _ _ (by omega : _ ≤ 46 * (((all.filter fun x => x.1 == e.1).map (·.2)).length / 46 + 1)) e.2 hpage
  exact ⟨_, List.mem_flatMap.2 ⟨e.1, List.mem_eraseDups.2 (List.mem_map_of_mem he), List.mem_map_of_mem hg⟩, rfl, rfl, g, rfl, hin⟩

theorem renewMsgs_short (store ep : Nat) (all : List (Nat × Nat)) (m : OutMsg) (hm : m ∈ renewMsgs store ep all) : m.body.length ≤ 47 := by
  obtain ⟨g, hg, rfl⟩ := List.mem_map.1 hm
  exact Nat.succ_le_succ (groups46_short _ _ g hg)

/-! ### REMOTE_REF_EXPIRY -/

/-- The references of a package that went 30 ms without renewal (R320). -/
def State.dueRefs (s : State) (k : Nat) : List Nat :=
  ((s.servedBy k).filter fun e => decide (e.2 + 30000000 ≤ s.clock.time)).map (·.1)

theorem exec_remoteRefExpiry (s : State) (k : Fin 256) : exec (.remoteRefExpiry k) s = .next ((s.dropRefs (s.dueRefs k.val)).setServed k.val
    ((s.servedBy k.val).filter fun e => decide (s.clock.time < e.2 + 30000000))) := rfl

end Sys2Proof.Machine
end

section
/-!
The commons: COMMONS_LOOKUP and COMMONS_EVICT (R307, R312).
-/
namespace Sys2Proof.Machine

/-! ### Nodes -/

theorem State.setNode_serve (s : State) (i : Nat) (n : Node) : (s.setNode i n).serve = s.serve := by
  unfold State.setNode
  split
  · rw [(State.writeBytes_mem _ _ _ _).serve]
  · rfl

theorem State.modNode_serve (s : State) (i : Nat) (f : Node → Node) : (s.modNode i f).serve = s.serve := by
  unfold State.modNode
  split
  · exact s.setNode_serve _ _
  · rfl

theorem State.modNode_find (s : State) (i : Nat) (f : Node → Node) (j : Nat) :
    tfind (s.modNode i f).store.nodes j = if j = i then (tfind s.store.nodes i).map f else tfind s.store.nodes j := by
  unfold State.modNode
  split
  next n hn =>
    rw [State.setNode_nodes, tfind_tset, hn]
    rfl
  next hn =>
    split
    next hj => rw [hj, hn]; rfl
    next => rfl

theorem State.nearSide_reg {s t : State} (h : t.nearSide = s.nearSide) (off : Nat) (hoff : off < 0x1000) :
    t.reg .commons off = s.reg .commons off :=
  State.nearRegs_regAt (congrArg Prod.snd h) _ (by change 0x5000 ≤ 0x5000 + off; omega) (by change 0x5000 + off < 0x18000; omega)

/-! ### COMMONS_LOOKUP -/

/-- A node used at a time. -/
def Node.usedAt (n : Node) (now : Nat) : Node := { n with lastUse := now }

/-- A list of nodes, used at a time. -/
def State.useNodes (s : State) (now : Nat) (l : List Nat) : State := l.foldl (fun (u : State) i => u.modNode i (·.usedAt now)) s

section Use
variable (s : State) (now : Nat) (l : List Nat)

theorem State.useNodes_nearSide : (s.useNodes now l).nearSide = s.nearSide := foldl_keeps State.nearSide _ l s fun u i => u.modNode_nearSide i _

theorem State.useNodes_serve : (s.useNodes now l).serve = s.serve := foldl_keeps (fun u : State => u.serve) _ l s fun u i => u.modNode_serve i _

/-- A node that has been used at a time stays so. -/
theorem State.useNodes_later (j : Nat) (h : ∀ m, tfind s.store.nodes j = some m → m.lastUse = now) (m : Node)
    (hm : tfind (s.useNodes now l).store.nodes j = some m) : m.lastUse = now := by
  induction l generalizing s with
  | nil => exact h m hm
  | cons i l ih =>
    refine ih (s.modNode i (·.usedAt now)) (fun w hw => ?_) hm
    rw [State.modNode_find] at hw
    split at hw
    · obtain ⟨v, -, rfl⟩ := Option.map_eq_some_iff.1 hw
      rfl
    · exact h w hw

/-- Each node of the list that stands has been used at the time. -/
theorem State.useNodes_used (j : Nat) (hj : j ∈ l) (m : Node) (hm : tfind (s.useNodes now l).store.nodes j = some m) : m.lastUse = now := by
  induction l generalizing s with
  | nil => exact absurd hj List.not_mem_nil
  | cons i l ih =>
    rcases List.mem_cons.1 hj with rfl | hj
    · refine (s.modNode j (·.usedAt now)).useNodes_later now l j (fun w hw => ?_) m hm
      rw [State.modNode_find, if_pos rfl] at hw
      obtain ⟨v, -, rfl⟩ := Option.map_eq_some_iff.1 hw
      rfl
    · exact ih _ hj hm

end Use

section Lookup
variable (s : State) (x : Nat) (t0 : Turn) (hits : List Nat × Nat)

/-- The state once the walk of a turn is known, before its nodes are used (R307). -/
def State.turnWalked : State := s.modSess x fun y => { y with
  readySince := s.hubTime (s.ownerHub x)
  turn := some { t0 with walkDone := true, hits := hits.1.length, shared := 16 * min hits.1.length ((t0.tokens.length - 1) / 16) } }

/-- The counts of a lookup. -/
def State.lookupCounted (u : State) (n c : Nat) : State := ((u.bump .commons 0x108 1).bump .commons 0x110 n).bump .commons 0x118 c

theorem State.lookupCounted_regs (u : State) (n c : Nat) :
    (u.lookupCounted n c).reg .commons 0x108 = satAdd (u.reg .commons 0x108) 1 ∧
      (u.lookupCounted n c).reg .commons 0x110 = satAdd (u.reg .commons 0x110) n ∧
      (u.lookupCounted n c).reg .commons 0x118 = satAdd (u.reg .commons 0x118) c := by
  unfold State.lookupCounted State.bump
  refine ⟨?_, ?_, ?_⟩
  · rw [State.reg_setReg_off (h := by decide), State.reg_setReg_off (h := by decide), State.reg_setReg_self]
  · rw [State.reg_setReg_off (h := by decide), State.reg_setReg_self, State.reg_setReg_off (h := by decide)]
  · rw [State.reg_setReg_self, State.reg_setReg_off (h := by decide), State.reg_setReg_off (h := by decide)]

theorem State.lookupCounted_rest (u : State) (n c : Nat) : (u.lookupCounted n c).serve = u.serve ∧ (u.lookupCounted n c).store = u.store := by
  unfold State.lookupCounted
  exact ⟨by rw [State.bump_serve, State.bump_serve, State.bump_serve], by rw [State.bump_store, State.bump_store, State.bump_store]⟩

theorem exec_commonsLookup (hturn : (s.sess x).turn = some t0) (hdone : t0.walkDone = false)
    (hhits : hits = walkBlocks s.store (s.rootOf x (s.adapterTag (s.turnImage t0))) t0.tokens (t0.tokens.length / 16) 1
      (rootHash (s.rootOf x (s.adapterTag (s.turnImage t0)))) none) :
    exec (.commonsLookup x) s =
      .next (((s.turnWalked x t0 hits).useNodes (s.hubTime 0) hits.1).lookupCounted hits.1.length hits.2) := by
  subst hhits
  change execCommonsLookup x s = _
  unfold execCommonsLookup
  dsimp only
  rw [hturn]
  dsimp only
  rw [if_neg (by rw [hdone]; exact Bool.false_ne_true)]
  rfl

end Lookup

/-! ### COMMONS_EVICT -/

/-- The one of two nodes that was used longer ago. -/
def older (best : Option (Nat × Node)) (e : Nat × Node) : Option (Nat × Node) :=
  match best with
  | none => some e
  | some b => if e.2.lastUse < b.2.lastUse then some e else best

/-- What is left of a list is one of it, used as long ago as any. -/
theorem foldl_older (l : List (Nat × Node)) (b : Nat × Node) :
    ∃ r, l.foldl older (some b) = some r ∧ (r = b ∨ r ∈ l) ∧ r.2.lastUse ≤ b.2.lastUse ∧ ∀ e ∈ l, r.2.lastUse ≤ e.2.lastUse := by
  induction l generalizing b with
  | nil => exact ⟨b, rfl, .inl rfl, le_rfl, fun e he => absurd he List.not_mem_nil⟩
  | cons a l ih =>
    by_cases h : a.2.lastUse < b.2.lastUse
    · obtain ⟨r, hr, hin, hle, hall⟩ := ih a
      refine ⟨r, by rw [List.foldl_cons, older, if_pos h, hr], .inr ?_, by omega, fun e he => ?_⟩
      · rcases hin with rfl | hin
        · exact List.mem_cons_self
        · exact List.mem_cons_of_mem _ hin
      · rcases List.mem_cons.1 he with rfl | he
        · exact hle
        · exact hall e he
    · obtain ⟨r, hr, hin, hle, hall⟩ := ih b
      refine ⟨r, by rw [List.foldl_cons, older, if_neg h, hr], hin.imp_right (List.mem_cons_of_mem _), hle, fun e he => ?_⟩
      rcases List.mem_cons.1 he with rfl | he
      · omega
      · exact hall e he

theorem State.oldestLeaf_eq (s : State) :
    s.oldestLeaf = ((s.store.nodes.filter fun e => e.2.children == 0).foldl older none).map (·.1) := rfl

/-- A childless node used longer ago than every other one is the oldest leaf. -/
theorem State.oldestLeaf_is (s : State) (i : Nat) (n : Node) (hn : tfind s.store.nodes i = some n) (hleaf : n.children = 0)
    (hold : ∀ e ∈ s.store.nodes, e.1 ≠ i → e.2.children = 0 → n.lastUse < e.2.lastUse) : s.oldestLeaf = some i := by
  have hin : (i, n) ∈ s.store.nodes.filter fun e => e.2.children == 0 :=
    List.mem_filter.2 ⟨mem_of_tfind hn, by rw [hleaf]; rfl⟩
  rw [s.oldestLeaf_eq]
  cases hl : s.store.nodes.filter fun e => e.2.children == 0 with
  | nil => exact absurd (hl ▸ hin) List.not_mem_nil
  | cons a l =>
    rw [hl] at hin
    obtain ⟨r, hr, hmem, hle, hall⟩ := foldl_older l a
    have hrin : r ∈ s.store.nodes.filter fun e => e.2.children == 0 := by
      rw [hl]
      rcases hmem with rfl | hmem
      · exact List.mem_cons_self
      · exact List.mem_cons_of_mem _ hmem
    obtain ⟨hnode, hchildless⟩ := List.mem_filter.1 hrin
    have holdest : r.2.lastUse ≤ n.lastUse := by
      rcases List.mem_cons.1 hin with rfl | hin
      · exact hle
      · exact hall _ hin
    have hkey : r.1 = i := by
      by_contra hne
      have hlater := hold r hnode hne (by simpa using hchildless)
      omega
    change Option.map _ (l.foldl older (some a)) = _
    rw [hr, Option.map_some, hkey]

theorem followChain_find (nodes : Table Node) (k : Nat) (o : Option Nat) (e : Nat × Node) (he : e ∈ followChain nodes k o) :
    tfind nodes e.1 = some e.2 := by
  induction k generalizing o with
  | zero => exact absurd he (by simp [followChain])
  | succ k ih =>
    cases o with
    | none => exact absurd he (by simp [followChain])
    | some i =>
      rw [followChain] at he
      split at he
      · exact absurd he List.not_mem_nil
      next x hx =>
        rcases List.mem_cons.1 he with rfl | he
        · exact hx
        · exact ih _ he

/-- The same nodes stand in both states. -/
def SameNodes (s t : State) : Prop := ∀ j, (tfind t.store.nodes j).isSome = (tfind s.store.nodes j).isSome

theorem State.unlinkNode_same (s : State) (i : Nat) (n : Node) : SameNodes s (s.unlinkNode i n) := by
  unfold State.unlinkNode
  dsimp only
  split
  · exact fun _ => rfl
  · split
    next e he =>
      intro j
      have hstands := followChain_find _ _ _ e (List.mem_of_find?_eq_some he)
      rw [State.setNode_nodes, tfind_tset]
      split
      next hj => rw [hj, hstands]; rfl
      next => rfl
    next => exact fun _ => rfl

theorem State.modNode_same (s : State) (i : Nat) (f : Node → Node) : SameNodes s (s.modNode i f) := by
  intro j
  rw [State.modNode_find]
  split
  next hj => rw [hj, Option.isSome_map]
  next => rfl

theorem State.dropPrefix_nodes (s : State) (i : Nat) : (s.dropPrefix i).store.nodes = s.store.nodes := by
  unfold State.dropPrefix
  split
  · rfl
  · split
    · rfl
    · exact s.dropRefs_nodes _

/-- Of the nodes, an eviction takes its own and no other (R312). -/
theorem State.evictBody_others (s : State) (i : Nat) (n : Node) (j : Nat) (hj : j ≠ i) :
    (tfind (s.evictBody i n).store.nodes j).isSome = (tfind s.store.nodes j).isSome := by
  unfold State.evictBody
  extract_lets t st s1 s2
  have hs1 : (tfind s1.store.nodes j).isSome = (tfind s.store.nodes j).isSome := by
    change (tfind (tdrop t.store.nodes i) j).isSome = _
    rw [tfind_tdrop, if_neg hj]
    exact s.unlinkNode_same i n j
  have hs2 : (tfind s2.store.nodes j).isSome = (tfind s1.store.nodes j).isSome := by
    simp only [s2]
    split
    · exact s1.modNode_same _ _ j
    · rfl
  rw [State.dropPrefix_nodes]
  exact hs2.trans hs1

theorem exec_commonsEvict_due (s : State) (i : Nat) (hdue : s.evictDue = true) (hleaf : s.oldestLeaf = some i) :
    exec .commonsEvict s = .next (s.evictNode i) := by
  change execCommonsEvict s = _
  unfold execCommonsEvict
  rw [if_pos hdue, hleaf]

theorem exec_commonsEvict_idle (s : State) (hdue : s.evictDue = false) : exec .commonsEvict s = .next s :=
  if_neg (by rw [hdue]; exact Bool.false_ne_true)

end Sys2Proof.Machine
end

section
open Sys2Proof Sys2Proof.Machine

/-- Settles O52: renewals page by page, renewals in groups, references that are dropped once each, the walk of a turn, and the eviction of the
oldest leaf. -/
theorem remoteReferencesAndCommons : Obligations.RemoteReferencesAndCommons := by
  unfold Obligations.RemoteReferencesAndCommons
  refine ⟨fun s k ep pages => ⟨exec_leaseRenew_stale s k ep pages, ?renew, ?timer, ?expiry⟩, fun s x t0 hits i n => ⟨?lookup, ?evict,
    exec_commonsEvict_idle s⟩⟩
  case renew =>
    intro hep
    refine ⟨_, exec_leaseRenew s k ep pages hep, fun p hp h hroom => ?_, fun p _ => s.renewRefs_free k.val pages p,
      s.renewRefs_out k.val pages, s.renewRefs_lent k.val pages⟩
    obtain ⟨hlisted, hfresh, hknown⟩ := s.renewRefs_in k.val pages p hp h hroom
    exact ⟨hlisted, hfresh, hknown⟩
  case timer =>
    refine ⟨_, _, exec_remoteRenewTimer s k, rfl, renewMsgs_covers k.val (s.remotePages k.val), fun m hm => ?_, rfl⟩
    obtain ⟨ep, -, hm⟩ := List.mem_flatMap.1 hm
    exact renewMsgs_short k.val ep _ m hm
  case expiry =>
    refine ⟨_, exec_remoteRefExpiry s k, State.servedBy_setServed _ _ _, fun hnodup e he hdue => ?_, fun j hj => ?_⟩
    · refine State.refsOf_dropRefs_in s _ (hnodup.sublist (List.filter_sublist.map _)) e.1 (List.mem_map_of_mem (List.mem_filter.2 ⟨he, ?_⟩))
      exact decide_eq_true hdue
    · refine State.refsOf_dropRefs_out s _ j fun hin => ?_
      obtain ⟨e, he, rfl⟩ := List.mem_map.1 hin
      obtain ⟨hmem, hdue⟩ := List.mem_filter.1 he
      have hlive := hj e hmem rfl
      have hold := of_decide_eq_true hdue
      omega
  case lookup =>
    intro hturn hdone hhits
    refine ⟨_, exec_commonsLookup s x t0 hits hturn hdone hhits, ?_⟩
    have hnear := (s.turnWalked x t0 hits).useNodes_nearSide (s.hubTime 0) hits.1
    have hserve := (s.turnWalked x t0 hits).useNodes_serve (s.hubTime 0) hits.1
    have hused := (s.turnWalked x t0 hits).useNodes_used (s.hubTime 0) hits.1
    generalize (s.turnWalked x t0 hits).useNodes (s.hubTime 0) hits.1 = u at hnear hserve hused
    obtain ⟨hlookups, hhit, hcollide⟩ := u.lookupCounted_regs hits.1.length hits.2
    obtain ⟨hrest, hstore⟩ := u.lookupCounted_rest hits.1.length hits.2
    have hsess (k : Nat) : (u.lookupCounted hits.1.length hits.2).sess k = (s.turnWalked x t0 hits).sess k := by
      rw [State.sess, hrest, hserve, State.sess]
    refine ⟨?_, ?_, ?_, ?_, fun j m hm hj => ?_, fun k hk => ?_⟩
    · rw [hsess, State.turnWalked, State.sess_modSess_self]
    · rw [hlookups, State.nearSide_reg hnear 0x108 (by decide)]
      rfl
    · rw [hhit, State.nearSide_reg hnear 0x110 (by decide)]
      rfl
    · rw [hcollide, State.nearSide_reg hnear 0x118 (by decide)]
      rfl
    · rw [hstore] at hm
      exact hused j hj m hm
    · rw [hsess, State.turnWalked, State.sess_modSess_ne (h := hk)]
  case evict =>
    intro hdue hn hleaf hold
    refine ⟨_, exec_commonsEvict_due s i hdue (s.oldestLeaf_is i n hn hleaf hold), (s.evictNode_evicts i).2, fun j hj => ?_, ?_⟩
    · rw [s.evictNode_eq i n hn, State.bump_store]
      exact s.evictBody_others i n j hj
    · rw [s.evictNode_eq i n hn, State.bump, State.reg_setReg_self, State.nearSide_reg (s.evictBody_nearSide i n) 0x128 (by decide)]

end

section
/-!
Accepted session commands and openings (R341, R342, R345, R364, R366, R497).
-/
namespace Sys2Proof.Machine

/-! ### A command in its session's queue -/

/-- An accepted command as its session's queue holds it (R342). -/
def State.queuedAs (s : State) (w : Nat) (h : CmdHead) (b : Body) (pin : Option IngotRec) (cont : Contents) : Queued :=
  { window := w, seq := h.seq, cookie := h.cookie, body := b, generation := (pin.map (·.generation)).getD 0, tokens := cont.tokens
    accepted := s.clock.time }

section Joins
variable (s j : State) (w : Nat) (h : CmdHead) (b : Body) (pin : Option IngotRec) (cont : Contents) (x : Nat)

/-- A command joins the queue of its context and leaves every other context, whatever its acceptance has changed of that context before. -/
theorem enqueue_joined (u : State) (hsess : ∀ y, j.sess y = s.sess y) (hqueue : (u.sess x).queue = (j.sess x).queue)
    (hother : ∀ y, y ≠ x → u.sess y = j.sess y) : Joined s (u.enqueue x (j.queuedAs w h b pin cont)) w h b cont x := by
  refine ⟨⟨j.queuedAs w h b pin cont, ?_, rfl, rfl, rfl, rfl, rfl, rfl⟩, fun y hy => ?_⟩
  · obtain ⟨v, r, hv⟩ := u.enqueue_sess x x (j.queuedAs w h b pin cont)
    rw [hv, if_pos rfl]
    change (u.sess x).queue ++ _ = _
    rw [hqueue, hsess]
  · obtain ⟨v, r, hv⟩ := u.enqueue_sess x y (j.queuedAs w h b pin cont)
    rw [hv, if_neg hy, hother y hy, hsess]

end Joins

/-- What an enqueued command keeps of its context: everything but the queue and the turn. -/
theorem State.enqueue_keeps (s : State) (x : Nat) (q : Queued) :
    ((s.enqueue x q).sess x).st = (s.sess x).st ∧ ((s.enqueue x q).sess x).generation = (s.sess x).generation ∧
      ((s.enqueue x q).sess x).cancelling = (s.sess x).cancelling := by
  obtain ⟨u, r, hu⟩ := s.enqueue_sess x x q
  rw [hu, if_pos rfl]
  exact ⟨rfl, rfl, rfl⟩

section Begin
variable (s : State) (x : Nat) (q : Queued) (hturn : (s.sess x).turn = none) (hqueue : (s.sess x).queue = []) (hout : q.out = none)
include hturn hqueue hout

/-- With nothing ahead, the turn of an enqueued PROMPT begins (R345). -/
theorem State.enqueue_prompt (b : PromptBody) (hb : q.body = .prompt b) : ∃ u, ((s.enqueue x q).sess x).turn = some u ∧
    u.kind = .prompt ∧ u.seq = q.seq ∧ u.tokens = q.tokens ∧ u.started = false := by
  unfold State.enqueue State.startHead
  simp only [State.sess_modSess_self, hturn, hqueue, List.nil_append, hout, hb, Option.isSome_none, Bool.false_eq_true, if_false]
  exact ⟨_, rfl, rfl, rfl, rfl, rfl⟩

theorem State.enqueue_generate (b : GenerateBody) (hb : q.body = .generate b) : ∃ u, ((s.enqueue x q).sess x).turn = some u ∧
    u.kind = .generate ∧ u.seq = q.seq ∧ u.started = false := by
  unfold State.enqueue State.startHead
  simp only [State.sess_modSess_self, hturn, hqueue, List.nil_append, hout, hb, Option.isSome_none, Bool.false_eq_true, if_false]
  exact ⟨_, rfl, rfl, rfl, rfl⟩

theorem State.enqueue_draft (b : DraftBody) (hb : q.body = .draft b) : ∃ u, ((s.enqueue x q).sess x).turn = some u ∧
    u.kind = .draft ∧ u.seq = q.seq ∧ u.tokens = q.tokens ∧ u.started = false := by
  unfold State.enqueue State.startHead
  simp only [State.sess_modSess_self, hturn, hqueue, List.nil_append, hout, hb, Option.isSome_none, Bool.false_eq_true, if_false]
  exact ⟨_, rfl, rfl, rfl, rfl, rfl⟩

theorem State.enqueue_stop (k : Nat) (hb : q.body = .stop k) : ((s.enqueue x q).sess x).turn = none := by
  unfold State.enqueue State.startHead
  simp only [State.sess_modSess_self, hturn, hqueue, List.nil_append, hout, hb, Option.isSome_none, Bool.false_eq_true, if_false]

end Begin

/-! ### Where an accepted command takes effect -/

section Journalled
variable (s : State) (w : Nat) (h : CmdHead) (b : Body) (pin : Option IngotRec)

theorem State.journalled_sess (x : Nat) : (s.journalled w h b pin).sess x = s.sess x := (s.journalled_step w h b pin).sess x

theorem State.journalled_clock : (s.journalled w h b pin).clock = s.clock := (s.journalled_step w h b pin).mem.clock

theorem State.journalled_lock : (s.journalled w h b pin).lock = s.lock := (s.journalled_step w h b pin).mem.lock

theorem State.journalled_slotPages (n : Nat) : (s.journalled w h b pin).slotPages n = s.slotPages n := by
  unfold State.slotPages
  rw [(s.journalled_step w h b pin).serve]

end Journalled

/-- The context of a command that is repinned, with its queue and turn as they were (R364). -/
theorem State.repin_keeps (s : State) (x : Nat) (pin : Option IngotRec) :
    ((s.repin x pin).sess x).queue = (s.sess x).queue ∧ ((s.repin x pin).sess x).turn = (s.sess x).turn ∧
      ((s.repin x pin).sess x).st = (s.sess x).st ∧ ((s.repin x pin).sess x).generation =
        (pin.map (·.generation)).getD (s.sess x).generation := by
  rw [State.repin_sess, if_pos rfl]
  exact ⟨rfl, rfl, rfl, rfl⟩

theorem State.repin_other (s : State) (x : Nat) (pin : Option IngotRec) (y : Nat) (h : y ≠ x) : (s.repin x pin).sess y = s.sess y := by
  rw [State.repin_sess, if_neg h]

/-! ### Openings -/

/-- A fresh context under a fresh key, with its command in its queue. -/
def State.opened (s : State) (x : Nat) (ss : Session) (q : Queued) : State := ((s.setSess x ss).renewKey (keySession x)).enqueue x q

section Opened
variable (s : State) (x : Nat) (ss : Session) (q : Queued)

theorem State.opened_sess : ∃ u r, (s.opened x ss q).sess x =
    { ss with queue := ss.queue ++ [q], changed := true, turn := u, readySince := r } := by
  obtain ⟨u, r, hu⟩ := ((s.setSess x ss).renewKey (keySession x)).enqueue_sess x x q
  refine ⟨u, r, hu.trans ?_⟩
  rw [if_pos rfl, State.sess_renewKey, State.sess_setSess, if_pos rfl]

theorem State.opened_other (y : Nat) (h : y ≠ x) : (s.opened x ss q).sess y = s.sess y := by
  obtain ⟨u, r, hu⟩ := ((s.setSess x ss).renewKey (keySession x)).enqueue_sess x y q
  refine hu.trans ?_
  rw [if_neg h, State.sess_renewKey, State.sess_setSess, if_neg h]

theorem State.opened_lock : (s.opened x ss q).lock = ((s.setSess x ss).renewKey (keySession x)).lock := by
  rw [State.opened, State.enqueue_rest]

/-- The key of the context is the next draw (R514). -/
theorem State.opened_key : (s.opened x ss q).lock.keyDraws = s.lock.keyDraws + 1 ∧
    (s.opened x ss q).keyVersion (keySession x) = s.lock.keyDraws + 1 := by
  rw [State.keyVersion, s.opened_lock x ss q]
  exact ⟨rfl, tget_tput_self (fun _ => 0) (s.setSess x ss).lock.keys (keySession x) (s.lock.keyDraws + 1)⟩

end Opened

/-- The session of an accepted OPEN (R340). -/
def State.openedAs (s : State) (w : Nat) (b : OpenBody) (pin : Option IngotRec) (cont : Contents) (pages : List Nat) : Session :=
  { st := .openS, window := w, tenant := b.tenant, cls := b.cls, kv8 := b.kvFormat = 1
    pub := b.share = 1 ∧ (s.reg .commons 0x100).bit 31, outRing := b.outRing, capacity := b.capacity
    temperature := b.temperature, topK := b.topK, seed := b.seed, stop := cont.stop
    generation := (pin.map (·.generation)).getD 0, kvTag := (pin.map (·.kvTag)).getD 0
    rootPage := pages.headD 0, logPages := pages.drop 1, openedAt := s.clock.time, opened := true }

theorem State.accept_open (s : State) (w : Nat) (h : CmdHead) (b : OpenBody) (pin : Option IngotRec) (cont : Contents) (a : State × List Nat)
    (ha : s.allocPages (w / 4) (logPageCount b.capacity + 1) = some a) : s.accept w h (.openS b) pin cont =
      a.1.opened b.context (s.openedAs w b pin cont a.2) (s.queuedAs w h (.openS b) pin cont) := by
  unfold State.accept
  dsimp only
  rw [ha]
  rfl

/-- The session of an accepted MIGRATE_IN (R366). -/
def State.awaitedAs (s : State) (w : Nat) (b : MigrateInBody) (pin : Option IngotRec) (pages : List Nat) : Session :=
  { st := .awaitingIn, window := w, outRing := b.outRing, rootPage := pages.headD 0, openedAt := s.clock.time, opened := true
    generation := (pin.map (·.generation)).getD 0, kvTag := (pin.map (·.kvTag)).getD 0, migration := some (b.package, b.tag, s.clock.time) }

theorem State.accept_migrateIn (s : State) (w : Nat) (h : CmdHead) (b : MigrateInBody) (pin : Option IngotRec) (cont : Contents)
    (a : State × List Nat) (ha : s.allocPages (w / 4) 1 = some a) : s.accept w h (.migrateIn b) pin cont =
      a.1.opened b.context (s.awaitedAs w b pin a.2) (s.queuedAs w h (.migrateIn b) pin cont) := by
  unfold State.accept
  dsimp only
  rw [ha]
  rfl

/-- The job of an accepted TEMPER, with the pages of its two checkpoint slots (R497). -/
def jobOf (b : TemperBody) (slot0 slot1 : List Nat) : Job :=
  { handle := b.handle, microBatches := b.microBatches, batch := b.batch, rate := b.rate, interval := b.interval
    dataAddr := b.dataAddr, dataLen := b.dataLen, seed := b.seed
    slot0 := { pages := slot0 }, slot1 := { pages := slot1 }, copying := true }

/-- The session of an accepted TEMPER. -/
def State.jobAs (s : State) (w : Nat) (b : TemperBody) (pin : Option IngotRec) (j : Job) : Session :=
  { st := .job, window := w, tenant := b.tenant, cls := b.cls, openedAt := s.clock.time, opened := true, readySince := s.hubTime (w / 4)
    generation := (pin.map (·.generation)).getD 0, kvTag := (pin.map (·.kvTag)).getD 0, job := some j }

theorem State.accept_temper (s : State) (w : Nat) (h : CmdHead) (b : TemperBody) (pin : Option IngotRec) (cont : Contents)
    (a : State × List Nat) (ha : s.allocPages (w / 4) (2 * s.slotPages b.handle) = some a) : s.accept w h (.temper b) pin cont =
      a.1.opened b.context (s.jobAs w b pin (jobOf b (a.2.take (s.slotPages b.handle)) (a.2.drop (s.slotPages b.handle))))
        (s.queuedAs w h (.temper b) pin cont) := by
  unfold State.accept State.takeSlots
  dsimp only
  rw [ha]
  rfl

/-- Pages taken leave contexts and keys as they were. -/
theorem State.allocPages_rest {s : State} {n k : Nat} {a : State × List Nat} (ha : s.allocPages n k = some a) :
    (∀ y, a.1.sess y = s.sess y) ∧ a.1.lock = s.lock := by
  have hframe := (State.allocPages_spec ha).2
  exact ⟨fun y => by rw [hframe]; rfl, by rw [hframe]⟩

end Sys2Proof.Machine
end

section
open Sys2Proof Sys2Proof.Machine

/-- Settles O53: each command takes effect where it has been journalled, with its context as it was, and joins the queue there. -/
theorem sessionCommandsJoinTheirQueue : Obligations.SessionCommandsJoinTheirQueue := by
  unfold Obligations.SessionCommandsJoinTheirQueue
  intro s w h pin cont
  refine ⟨fun b a => ?prompt, fun b a => ?generate, fun b a => ?draft, fun x a => ?stop, fun x a => ?cancel, fun x a => ?close,
    fun b a => ?migrateOut⟩
  case prompt =>
    have hj := s.journalled_sess w.val h (.prompt b) pin
    have hpending := (s.journalled_step w.val h (.prompt b) pin).mem.pending
    refine ⟨_, rfl, State.accepts_accepted a, ?_⟩
    rw [State.submit_accepts a]
    generalize s.journalled w.val h (.prompt b) pin = j at hj hpending
    obtain ⟨hqueue, hturn, hst, hgen⟩ := j.repin_keeps b.context pin
    obtain ⟨hst', hgen', -⟩ := (j.repin b.context pin).enqueue_keeps b.context (j.queuedAs w.val h (.prompt b) pin cont)
    refine ⟨enqueue_joined s j _ _ _ _ _ _ _ hj hqueue (j.repin_other _ _), fun r hr => ?_, ?_, fun ht hq => ?_, fun u hu => ?_, ?_⟩
    · exact hgen'.trans (by rw [hgen, hr]; rfl)
    · exact hst'.trans (by rw [hst, hj, State.accepts_prompt a])
    · exact State.enqueue_prompt _ _ _ (by rw [hturn, hj, ht]) (by rw [hqueue, hj, hq]) rfl b rfl
    · exact State.enqueue_turn _ _ _ u (by rw [hturn, hj, hu])
    · change ((j.repin b.context pin).enqueue b.context (j.queuedAs w.val h (.prompt b) pin cont)).pending = _
      rw [State.enqueue_rest]
      cases pin with
      | none => exact hpending
      | some r => exact hpending
  case generate =>
    have hj := s.journalled_sess w.val h (.generate b) pin
    refine ⟨_, rfl, State.accepts_accepted a, ?_⟩
    rw [State.submit_accepts a]
    generalize s.journalled w.val h (.generate b) pin = j at hj
    obtain ⟨hqueue, hturn, hst, -⟩ := j.repin_keeps b.context pin
    obtain ⟨hst', -, -⟩ := (j.repin b.context pin).enqueue_keeps b.context (j.queuedAs w.val h (.generate b) pin cont)
    refine ⟨enqueue_joined s j _ _ _ _ _ _ _ hj hqueue (j.repin_other _ _), ?_, fun ht hq => ?_⟩
    · exact hst'.trans (by rw [hst, hj, State.accepts_generate a])
    · exact State.enqueue_generate _ _ _ (by rw [hturn, hj, ht]) (by rw [hqueue, hj, hq]) rfl b rfl
  case draft =>
    have hj := s.journalled_sess w.val h (.draft b) pin
    refine ⟨_, rfl, State.accepts_accepted a, ?_⟩
    rw [State.submit_accepts a]
    generalize s.journalled w.val h (.draft b) pin = j at hj
    obtain ⟨hqueue, hturn, hst, -⟩ := j.repin_keeps b.context pin
    obtain ⟨hst', -, -⟩ := (j.repin b.context pin).enqueue_keeps b.context (j.queuedAs w.val h (.draft b) pin cont)
    refine ⟨enqueue_joined s j _ _ _ _ _ _ _ hj hqueue (j.repin_other _ _), ?_, fun ht hq => ?_⟩
    · exact hst'.trans (by rw [hst, hj, State.accepts_draft a])
    · exact State.enqueue_draft _ _ _ (by rw [hturn, hj, ht]) (by rw [hqueue, hj, hq]) rfl b rfl
  case stop =>
    have hj := s.journalled_sess w.val h (.stop x) pin
    refine ⟨_, rfl, State.accepts_accepted a, ?_⟩
    rw [State.submit_accepts a]
    generalize s.journalled w.val h (.stop x) pin = j at hj
    obtain ⟨hst', -, -⟩ := j.enqueue_keeps x (j.queuedAs w.val h (.stop x) pin cont)
    refine ⟨enqueue_joined s j _ _ _ _ _ _ _ hj rfl fun _ _ => rfl, ?_, fun hahead => ?_⟩
    · exact hst'.trans (by rw [hj, State.accepts_stop a])
    · cases ht : (s.sess x).turn with
      | some u => exact State.enqueue_turn _ _ _ u (by rw [hj, ht])
      | none => exact State.enqueue_stop _ _ _ (by rw [hj, ht]) (by rw [hj, hahead.resolve_left (not_not.2 ht)]) rfl x rfl
  case cancel =>
    have hj := s.journalled_sess w.val h (.cancel x) pin
    refine ⟨_, rfl, State.accepts_accepted a, ?_⟩
    rw [State.submit_accepts a]
    generalize s.journalled w.val h (.cancel x) pin = j at hj
    obtain ⟨hst', -, hcancel'⟩ := (j.modSess x fun y => { y with st := if y.st = .job then .job else .leaving, cancelling := true }).enqueue_keeps x
      (j.queuedAs w.val h (.cancel x) pin cont)
    rw [State.sess_modSess_self] at hst' hcancel'
    refine ⟨enqueue_joined s j _ _ _ _ _ _ _ hj (by rw [State.sess_modSess_self]) fun y hy => State.sess_modSess_ne _ _ hy, hcancel',
      fun hjob => hst'.trans (if_pos ?_), fun hjob => hst'.trans (if_neg ?_)⟩
    · rw [hj, hjob]
    · rw [hj]
      exact hjob
  case close =>
    have hj := s.journalled_sess w.val h (.close x) pin
    refine ⟨_, rfl, State.accepts_accepted a, ?_⟩
    rw [State.submit_accepts a]
    generalize s.journalled w.val h (.close x) pin = j at hj
    obtain ⟨hst', -, -⟩ := (j.modSess x fun y => { y with st := .leaving }).enqueue_keeps x (j.queuedAs w.val h (.close x) pin cont)
    rw [State.sess_modSess_self] at hst'
    exact ⟨enqueue_joined s j _ _ _ _ _ _ _ hj (by rw [State.sess_modSess_self]) fun y hy => State.sess_modSess_ne _ _ hy, hst'⟩
  case migrateOut =>
    have hj := s.journalled_sess w.val h (.migrateOut b) pin
    refine ⟨_, rfl, State.accepts_accepted a, ?_⟩
    rw [State.submit_accepts a]
    generalize s.journalled w.val h (.migrateOut b) pin = j at hj
    obtain ⟨hqueue, -, -, -⟩ := j.repin_keeps b.context pin
    obtain ⟨hst', -, -⟩ := ((j.repin b.context pin).modSess b.context fun y => { y with st := .leaving }).enqueue_keeps b.context
      (j.queuedAs w.val h (.migrateOut b) pin cont)
    rw [State.sess_modSess_self] at hst'
    refine ⟨enqueue_joined s j _ _ _ _ _ _ _ hj (by rw [State.sess_modSess_self]; exact hqueue) fun y hy => ?_, hst'⟩
    rw [State.sess_modSess_ne _ _ hy, j.repin_other _ _ _ hy]

/-- Settles O54: each opening takes the pages that the checks found and sets its context there, under the next key. -/
theorem openingsTakeTheirEntry : Obligations.OpeningsTakeTheirEntry := by
  unfold Obligations.OpeningsTakeTheirEntry
  intro s w h pin cont
  refine ⟨fun b a => ?opens, fun b a => ?migrates, fun b a => ?tempers⟩
  case opens =>
    obtain ⟨r, hr⟩ := State.accepts_open a
    obtain ⟨hsess, hlock⟩ := State.allocPages_rest hr
    have hpages := (State.allocPages_spec hr).1
    refine ⟨_, rfl, State.accepts_accepted a, ?_⟩
    rw [State.submit_accepts a, State.accept_open _ _ _ _ _ _ r hr]
    obtain ⟨u, t, hu⟩ := r.1.opened_sess b.context ((s.journalled w.val h (.openS b) pin).openedAs w.val b pin cont r.2)
      ((s.journalled w.val h (.openS b) pin).queuedAs w.val h (.openS b) pin cont)
    obtain ⟨hdraws, hkey⟩ := r.1.opened_key b.context ((s.journalled w.val h (.openS b) pin).openedAs w.val b pin cont r.2)
      ((s.journalled w.val h (.openS b) pin).queuedAs w.val h (.openS b) pin cont)
    rw [hu, hdraws, hkey, hlock, s.journalled_lock]
    refine ⟨rfl, rfl, rfl, rfl, rfl, rfl, rfl, rfl, rfl, rfl, rfl, ?_, fun p hp => ?_, ⟨_, rfl, rfl, rfl⟩, rfl, rfl, fun k hk => ?_⟩
    · change (r.2.drop 1).length = _
      rw [List.length_drop, hpages, Nat.add_sub_cancel]
    · rw [hp]
      rfl
    · rw [State.opened_other _ _ _ _ _ hk, hsess, s.journalled_sess]
  case migrates =>
    obtain ⟨r, hr⟩ := State.accepts_migrateIn a
    obtain ⟨hsess, hlock⟩ := State.allocPages_rest hr
    refine ⟨_, rfl, State.accepts_accepted a, ?_⟩
    rw [State.submit_accepts a, State.accept_migrateIn _ _ _ _ _ _ r hr]
    obtain ⟨u, t, hu⟩ := r.1.opened_sess b.context ((s.journalled w.val h (.migrateIn b) pin).awaitedAs w.val b pin r.2)
      ((s.journalled w.val h (.migrateIn b) pin).queuedAs w.val h (.migrateIn b) pin cont)
    obtain ⟨-, hkey⟩ := r.1.opened_key b.context ((s.journalled w.val h (.migrateIn b) pin).awaitedAs w.val b pin r.2)
      ((s.journalled w.val h (.migrateIn b) pin).queuedAs w.val h (.migrateIn b) pin cont)
    rw [hu, hkey, hlock, s.journalled_lock]
    refine ⟨rfl, rfl, rfl, ?_, ⟨_, rfl, rfl, rfl⟩, rfl, fun k hk => ?_⟩
    · rw [State.awaitedAs, s.journalled_clock]
    · rw [State.opened_other _ _ _ _ _ hk, hsess, s.journalled_sess]
  case tempers =>
    obtain ⟨r, hr⟩ := State.accepts_temper a
    obtain ⟨hsess, hlock⟩ := State.allocPages_rest hr
    have hpages := (State.allocPages_spec hr).1
    have hslots := s.journalled_slotPages w.val h (.temper b) pin b.handle
    have hclock := s.journalled_lock w.val h (.temper b) pin
    have hjournal := s.journalled_sess w.val h (.temper b) pin
    refine ⟨_, jobOf b (r.2.take (s.slotPages b.handle)) (r.2.drop (s.slotPages b.handle)), rfl, State.accepts_accepted a, ?_⟩
    rw [State.submit_accepts a]
    generalize s.journalled w.val h (.temper b) pin = j at hr hsess hlock hslots hclock hjournal
    rw [State.accept_temper _ _ _ _ _ _ r (by rw [hslots]; exact hr), hslots]
    obtain ⟨u, t, hu⟩ := r.1.opened_sess b.context (j.jobAs w.val b pin
      (jobOf b (r.2.take (s.slotPages b.handle)) (r.2.drop (s.slotPages b.handle)))) (j.queuedAs w.val h (.temper b) pin cont)
    obtain ⟨-, hkey⟩ := r.1.opened_key b.context (j.jobAs w.val b pin
      (jobOf b (r.2.take (s.slotPages b.handle)) (r.2.drop (s.slotPages b.handle)))) (j.queuedAs w.val h (.temper b) pin cont)
    rw [hu, hkey, hlock, hclock]
    refine ⟨rfl, rfl, rfl, rfl, rfl, rfl, rfl, rfl, rfl, ?_, ?_, rfl, rfl, rfl, fun k hk => ?_⟩
    · change (r.2.take _).length = _
      rw [List.length_take, hpages]
      omega
    · change (r.2.drop _).length = _
      rw [List.length_drop, hpages]
      omega
    · rw [State.opened_other _ _ _ _ _ hk, hsess, hjournal]

end

section
/-!
Registers of intake windows: RESP_CFG, RESP_RELEASE and NEXT_SEQ (R331, R335, R336).
-/
namespace Sys2Proof.Machine

section Rings
variable (s : State) (w : WinId) (n : Fin 9) (v : Word)

/-- A ring as a write of its configuration leaves it (R335). -/
def ringOf (v : Word) : Ring := { cfg := fieldsWrite cfgFields 0 v }

theorem ringOf_size : (ringOf v).size = 2 ^ (6 + v.field 0 4) :=
  congrArg (fun k => 2 ^ (6 + k)) (fieldsWrite_rw [⟨6, 42, .rw, 0⟩] [] 0 v ⟨0, 4, .rw, 0⟩ rfl (by decide) fun _ h => absurd h List.not_mem_nil)

theorem ringOf_base : (ringOf v).base = 64 * v.field 6 42 :=
  congrArg (64 * ·) (fieldsWrite_rw [] [⟨0, 4, .rw, 0⟩] 0 v ⟨6, 42, .rw, 0⟩ rfl (by decide) fun g hg => by
    rw [List.mem_singleton.1 hg]
    decide)

/-- The partition check of a ring's region. -/
theorem ringOf_inPartition : s.inPartition (ringOf v).base (64 * (ringOf v).size) = s.inPartition (64 * v.field 6 42) (64 * 2 ^ (6 + v.field 0 4)) := by
  rw [ringOf_base, ringOf_size]

theorem exec_respCfg_answers (h : s.answers = true) : exec (.respCfg w n v) s = .next (s.writeCfg w.val n.val v).1 :=
  s.access_answers (.respCfg w n v) (fun t => (t.writeCfg w.val n.val v).1) h

theorem State.writeCfg_long (k j : Nat) (h : 10 < v.field 0 4) : s.writeCfg k j v = s.refuse (.intake k) (cfgOff j) .length := if_pos h

theorem State.writeCfg_outside (k j : Nat) (h : v.field 0 4 ≤ 10) (hp : s.inPartition (64 * v.field 6 42) (64 * 2 ^ (6 + v.field 0 4)) = false) :
    s.writeCfg k j v = s.refuse (.intake k) (cfgOff j) .auth :=
  (if_neg (by omega)).trans (if_pos ((ringOf_inPartition s v).trans hp))

theorem State.writeCfg_inside (k j : Nat) (h : v.field 0 4 ≤ 10) (hp : s.inPartition (64 * v.field 6 42) (64 * 2 ^ (6 + v.field 0 4)) = true) :
    s.writeCfg k j v =
      if s.ringInUse k j then s.refuse (.intake k) (cfgOff j) .busy else ok (s.modWin k fun x => x.setRing j (ringOf v)) :=
  (if_neg (by omega)).trans (if_neg (by
    change ¬s.inPartition (ringOf v).base (64 * (ringOf v).size) = false
    rw [ringOf_inPartition, hp]
    decide))

/-- Setting a ring of a window reaches no other ring and no other window. -/
theorem State.setRing_only (k j : Nat) (g : Ring) :
    ((s.modWin k fun x => x.setRing j g).win k).ring j = g ∧
      (∀ i, i ≠ j → ((s.modWin k fun x => x.setRing j g).win k).ring i = (s.win k).ring i) ∧
      (s.modWin k fun x => x.setRing j g).win k = { s.win k with rings := ((s.modWin k fun x => x.setRing j g).win k).rings } ∧
      (∀ i, i ≠ k → (s.modWin k fun x => x.setRing j g).win i = s.win i) ∧
      (s.modWin k fun x => x.setRing j g) =
        { s with serve := { s.serve with windows := (s.modWin k fun x => x.setRing j g).serve.windows } } := by
  have hwin : (s.modWin k fun x => x.setRing j g).win k = (s.win k).setRing j g := by rw [State.win_modWin, if_pos rfl]
  refine ⟨?_, fun i hi => ?_, ?_, fun i hi => ?_, rfl⟩
  · rw [hwin, Window.ring_setRing_self]
  · rw [hwin, Window.ring_setRing, if_neg hi]
  · rw [hwin]
    rfl
  · rw [State.win_modWin, if_neg hi]

theorem exec_respRelease_answers (h : s.answers = true) : exec (.respRelease w n v) s = .next (s.writeRelease w.val n.val v).1 :=
  s.access_answers (.respRelease w n v) (fun t => (t.writeRelease w.val n.val v).1) h

theorem State.writeRelease_beyond (k j : Nat) (h : ((s.win k).ring j).produced + ((s.win k).ring j).size < v.toNat) :
    s.writeRelease k j v = s.refuse (.intake k) (releaseOff j) .unfilled := if_pos h

theorem State.writeRelease_falls (k j : Nat) (h : v.toNat ≤ ((s.win k).ring j).produced + ((s.win k).ring j).size)
    (hf : v.toNat < ((s.win k).ring j).released) : s.writeRelease k j v = s.refuse (.intake k) (releaseOff j) .length :=
  (if_neg (Nat.not_lt.2 h)).trans (if_pos hf)

/-- A ring with a released count. -/
def Ring.releasedTo (g : Ring) (n : Nat) : Ring := { g with released := n }

/-- With nothing to decide, a release moves the count alone. -/
theorem State.writeRelease_counts (k j : Nat) (h : v.toNat ≤ ((s.win k).ring j).produced + ((s.win k).ring j).size)
    (hr : ((s.win k).ring j).released ≤ v.toNat) (hidle : j ≠ 0 ∨ (s.win k).queue = [] ∧ (s.win k).heldOutcomes = []) :
    (s.writeRelease k j v).1 = s.modWin k fun x => x.setRing j (((s.win k).ring j).releasedTo v.toNat) := by
  have hwrite : (s.writeRelease k j v).1 = (s.modWin k fun x => x.setRing j (((s.win k).ring j).releasedTo v.toNat)).resumeRing k j :=
    congrArg Prod.fst ((if_neg (Nat.not_lt.2 h)).trans (if_neg (Nat.not_lt.2 hr)))
  rw [hwrite, State.resumeRing]
  split
  next hj =>
    obtain ⟨hq, hh⟩ := hidle.resolve_left (not_not.2 hj)
    have hwin : (s.modWin k fun x => x.setRing j (((s.win k).ring j).releasedTo v.toNat)).win k =
        (s.win k).setRing j (((s.win k).ring j).releasedTo v.toNat) := by rw [State.win_modWin, if_pos rfl]
    exact State.decideAll_idle _ _ _ (by rw [hwin]; exact hq) (by rw [hwin]; exact hh)
  next => rfl

theorem exec_nextSeq_answers (h : s.answers = true) : exec (.nextSeq w v) s = .next (s.writeNextSeq w.val v).1 :=
  s.access_answers (.nextSeq w v) (fun t => (t.writeNextSeq w.val v).1) h

end Rings

end Sys2Proof.Machine
end

section
open Sys2Proof Sys2Proof.Machine

/-- Settles O57: each check of a write in turn; what is taken sets one ring, or the number, of its window. -/
theorem ringAndSequenceRegisters : Obligations.RingAndSequenceRegisters := by
  unfold Obligations.RingAndSequenceRegisters
  intro s w n v hs
  have hcfg := exec_respCfg_answers s w n v hs
  have hrelease := exec_respRelease_answers s w n v hs
  have hseq := exec_nextSeq_answers s w v hs
  refine ⟨fun h hp hu => ?sets, fun h => ?long, fun h hp => ?outside, fun h hp hu => ?inUse, fun hr h hidle => ?counts, fun h => ?beyond,
    fun h hf => ?falls, fun h => ?numbers, fun hd hp => ?decided⟩
  case sets =>
    have hwrite : s.writeCfg w.val n.val v = ok (s.modWin w.val fun x => x.setRing n.val (ringOf v)) :=
      (s.writeCfg_inside v w.val n.val h hp).trans (if_neg (by rw [hu]; exact Bool.false_ne_true))
    obtain ⟨hring, hrings, hwin, hwins, hframe⟩ := s.setRing_only w.val n.val (ringOf v)
    refine ⟨_, hcfg.trans (by rw [hwrite]; rfl), ?_, ?_, ?_, ?_, hrings, hwin, hwins, hframe⟩
    · rw [hring, ringOf_size]
    · rw [hring, ringOf_base]
    · rw [hring]
      rfl
    · rw [hring]
      rfl
  case long => exact refused_of_exec_refuse (hcfg.trans (by rw [s.writeCfg_long v _ _ h]))
  case outside => exact refused_of_exec_refuse (hcfg.trans (by rw [s.writeCfg_outside v _ _ h hp]))
  case inUse => exact refused_of_exec_refuse (hcfg.trans (by rw [s.writeCfg_inside v _ _ h hp, if_pos hu]))
  case counts =>
    obtain ⟨hring, hrings, hwin, hwins, hframe⟩ := s.setRing_only w.val n.val (((s.win w.val).ring n.val).releasedTo v.toNat)
    exact ⟨_, hrelease.trans (by rw [s.writeRelease_counts v _ _ h hr hidle]), hring, hrings, hwin, hwins, hframe⟩
  case beyond => exact refused_of_exec_refuse (hrelease.trans (by rw [s.writeRelease_beyond v _ _ h]))
  case falls => exact refused_of_exec_refuse (hrelease.trans (by rw [s.writeRelease_falls v _ _ h hf]))
  case numbers =>
    have hopen : ¬((s.win w.val).decided = true ∧ (s.win w.val).spent = false) := by
      rintro ⟨hd, hp⟩
      rcases h with h | h
      · exact Bool.false_ne_true (h.symm.trans hd)
      · exact Bool.false_ne_true (hp.symm.trans h)
    refine ⟨_, hseq.trans (congrArg (fun x : Written => Host.Outcome.next x.1) (if_neg hopen)), ?_, fun k hk => ?_, rfl⟩
    · exact (State.win_modWin _ _ _ _).trans (if_pos rfl)
    · exact (State.win_modWin _ _ _ _).trans (if_neg hk)
  case decided => exact refused_of_exec_refuse (hseq.trans (congrArg (fun x : Written => Host.Outcome.next x.1) (if_pos ⟨hd, hp⟩)))

end

section
/-!
What intake refuses, holds and rejects (R328 to R331, R340, R341).
-/
namespace Sys2Proof.Machine

/-! ### Records and registers -/

theorem State.hostWriteLine_regs (s : State) (a : Nat) (bs : List (BitVec 8)) : (s.hostWriteLine a bs).regs = s.regs := by
  unfold State.hostWriteLine
  split
  · rfl
  · unfold State.writeLine
    dsimp only
    split
    · rfl
    split
    · rfl
    · rfl

theorem State.raiseIntr_intake (s : State) (id w off : Nat) : (s.raiseIntr id).reg (.intake w) off = s.reg (.intake w) off := by
  have hbase : (Page.intake w).base + off ≠ Page.stew.base + 0x148 := by
    change (64 + w) * 0x1000 + off ≠ 0x4000 + 0x148
    omega
  unfold State.raiseIntr
  extract_lets route entry raised i
  split
  · rfl
  split
  · rfl
  split
  · rfl
  · exact (tget_tput _ _ _ _ _).trans (if_neg hbase)

/-- Of a window's registers a record moves the counter of its kind (R559). -/
theorem State.writeRecord_reg (s : State) (w n : Nat) (r : Record) (off : Nat) :
    (s.writeRecord w n r).reg (.intake w) off =
      if kindCounter r.kind = some off then satAdd (s.reg (.intake w) off) 1 else s.reg (.intake w) off := by
  have hwritten (a : Nat) (bs : List (BitVec 8)) (f : Window → Window) (o : Nat) :
      ((s.hostWriteLine a bs).modWin w f).reg (.intake w) o = s.reg (.intake w) o := by
    change tget regReset (s.hostWriteLine a bs).regs _ = _
    rw [State.hostWriteLine_regs]
    rfl
  unfold State.writeRecord
  extract_lets g s1 s2 s3
  have hs2 (o : Nat) : s2.reg (.intake w) o = s.reg (.intake w) o := hwritten _ _ _ o
  rw [State.raiseIntr_intake]
  simp only [s3]
  cases kindCounter r.kind with
  | none =>
    rw [if_neg (by simp)]
    exact hs2 off
  | some o =>
    by_cases ho : o = off
    · rw [if_pos (by rw [ho]), ho]
      exact (State.reg_setReg_self _ _ _ _).trans (by rw [hs2])
    · rw [if_neg (by simpa using ho)]
      exact (State.reg_setReg_off _ _ _ _ _ (Ne.symm ho)).trans (hs2 off)

/-- A record in the response ring of a window (R336). -/
theorem State.writeRecord_one (s : State) (w : Nat) (r : Record) : OneRecord s (s.writeRecord w 0 r) w ∧
    (s.writeRecord w 0 r).win w = { s.win w with rings := ((s.writeRecord w 0 r).win w).rings } ∧
    (s.writeRecord w 0 r).serve = { s.serve with windows := (s.writeRecord w 0 r).serve.windows } := by
  have hwin := s.writeRecord_win w 0 r w
  rw [if_pos rfl] at hwin
  have hring (k : Nat) := Window.ring_setRing (s.win w) 0 k { (s.win w).ring 0 with produced := ((s.win w).ring 0).produced + 1 }
  refine ⟨⟨?_, ?_, ?_, fun k hk => ?_, fun k hk => ?_⟩, ?_, ?_⟩
  · rw [hwin, hring, if_pos rfl]
  · rw [hwin, hring, if_pos rfl]
  · rw [hwin, hring, if_pos rfl]
  · rw [hwin, hring, if_neg hk]
  · rw [s.writeRecord_win, if_neg hk]
  · rw [hwin]
    rfl
  · have hmarks : (s.writeRecord w 0 r).serve.marks = s.serve.marks := by
      unfold State.writeRecord
      dsimp only
      rw [(State.raiseIntr_mem _ _).serve]
      cases kindCounter r.kind with
      | none => simp [(State.hostWriteLine_mem _ _ _).serve]
      | some o => simp [(State.hostWriteLine_mem _ _ _).serve]
    have hserve := (RecordStep.writeRecord s w 0 r).serve
    rw [hmarks] at hserve
    exact hserve

/-- Windows alike before a record are alike in what it leaves of others. -/
theorem OneRecord.of_win {s t u : State} {w : Nat} (h : OneRecord t u w) (hring : ∀ k, (t.win w).ring k = (s.win w).ring k)
    (hwins : ∀ k, k ≠ w → t.win k = s.win k) : OneRecord s u w := by
  obtain ⟨hproduced, hreleased, hcfg, hrings, hother⟩ := h
  refine ⟨by rw [hproduced, hring], by rw [hreleased, hring], by rw [hcfg, hring], fun k hk => by rw [hrings k hk, hring], fun k hk => ?_⟩
  rw [hother k hk, hwins k hk]

/-! ### Which instruction a command is -/

theorem exec_intake (s : State) (c : Instr) (w : Nat) (h : CmdHead) (b : Body) (hc : intakeOf c = some (w, h, b)) :
    exec c s = .next (s.submit w h b) := by
  cases c <;> simp only [intakeOf, Option.some.injEq, Prod.mk.injEq, reduceCtorEq] at hc
  all_goals
    obtain ⟨rfl, rfl, rfl⟩ := hc
    rfl

/-! ### Refused writes -/

section Submit
variable (s : State) (w : Nat) (h : CmdHead) (b : Body) (hphase : s.pkg.phase = .service) (hhub : w / 4 ∉ s.pkg.hubFaulty)
include hphase hhub

theorem State.submit_opening (hd : s.serve.debugScope.isSome = true) : s.submit w h b = s.refuseWrite w h .busy := by
  unfold State.submit
  rw [if_neg hhub, hphase]
  exact if_pos (.inl hd)

/-- What a write comes to at an open port. -/
theorem State.submit_port (hport : s.portOpen w) : s.submit w h b =
    if (s.win w).spent then s.refuseWrite w h .locked
    else if 256 ≤ (s.win w).queue.length then s.refuseWrite w h .undrained
    else (s.modWin w fun x => { x with queue := x.queue ++ [(h, b)] }).pump w := by
  obtain ⟨-, -, hdebug, hburn⟩ := hport
  unfold State.submit
  rw [if_neg hhub, hphase]
  exact if_neg (by rw [hdebug, hburn]; simp)

end Submit

/-- A refused write before its record: the error and its count (R328). -/
def State.refusedAt (s : State) (w : Nat) (c : Code) : State := (s.logError (.intake w) c 0x800 9 w).bump (.intake w) 0x218 1

theorem State.refusedAt_serve (s : State) (w : Nat) (c : Code) : (s.refusedAt w c).serve = s.serve := by
  have hlog := (s.logError_logged (.intake w) c 0x800 9 w false (base_ne_lost _ (base_aligned _))).1
  rw [State.refusedAt, State.bump_serve, hlog]

theorem State.refusedAt_regs (s : State) (w : Nat) (c : Code) :
    (s.refusedAt w c).reg (.intake w) 0x218 = satAdd (s.reg (.intake w) 0x218) 1 ∧
      ((s.reg (.intake w) 0x020).field 32 8 = 0 → ((s.refusedAt w c).reg (.intake w) 0x020).field 32 8 = c.num) := by
  have hlog := s.logError_logged (.intake w) c 0x800 9 w false (base_ne_lost _ (base_aligned _))
  have hcount : (s.logError (.intake w) c 0x800 9 w).reg (.intake w) 0x218 = s.reg (.intake w) 0x218 := by
    refine hlog.2.1 _ ?_
    simp only [errorRegs, List.mem_cons, List.not_mem_nil, or_false, Page.base]
    omega
  unfold State.refusedAt State.bump
  refine ⟨?_, fun h0 => ?_⟩
  · rw [State.reg_setReg_self, hcount]
  · rw [State.reg_setReg_off (h := by decide)]
    exact hlog.code h0

/-- What a refused write leaves (R328). -/
theorem State.refuseWrite_spec (s : State) (w : Nat) (h : CmdHead) (c : Code) :
    (s.refuseWrite w h c).reg (.intake w) 0x218 = satAdd (s.reg (.intake w) 0x218) 1 ∧
      ((s.refuseWrite w h c).win w).queue = (s.win w).queue ∧ ((s.refuseWrite w h c).win w).nextSeq = (s.win w).nextSeq ∧
      (s.refuseWrite w h c).serve.sessions = s.serve.sessions ∧
      ((s.reg (.intake w) 0x020).field 32 8 = 0 → ((s.refuseWrite w h c).reg (.intake w) 0x020).field 32 8 = c.num) ∧
      (s.respFree w = true → OneRecord s (s.refuseWrite w h c) w) ∧ (s.respFree w = false → (s.refuseWrite w h c).serve = s.serve) := by
  obtain ⟨hcount, hcode⟩ := s.refusedAt_regs w c
  have hserve := s.refusedAt_serve w c
  have hwin (k : Nat) : (s.refusedAt w c).win k = s.win k := by rw [State.win, hserve, State.win]
  have hfree : (s.refusedAt w c).respFree w = s.respFree w := State.respFree_of_win (hwin w)
  have heq : s.refuseWrite w h c = if (s.refusedAt w c).respFree w then (s.refusedAt w c).writeRecord w 0 {
      kind := 0x06, code := c.num, cookie := h.cookie, head := h.seq, time := (s.refusedAt w c).hubTime (w / 4)
      body := [(32, 8, ((s.refusedAt w c).win w).shownSeq)] } else s.refusedAt w c := rfl
  rw [heq, hfree]
  generalize s.refusedAt w c = u at hcount hcode hserve hwin
  by_cases hf : s.respFree w = true
  · rw [if_pos hf]
    obtain ⟨hone, hsame, hrest⟩ := u.writeRecord_one w { kind := 0x06, code := c.num, cookie := h.cookie, head := h.seq, time := u.hubTime (w / 4)
                                                         body := [(32, 8, (u.win w).shownSeq)] }
    have huncounted : kindCounter 0x06 = none := by decide
    rw [State.writeRecord_reg, State.writeRecord_reg]
    simp only [huncounted, reduceCtorEq, if_false]
    refine ⟨hcount, ?_, ?_, ?_, hcode, fun _ => hone.of_win (fun k => by rw [hwin]) fun k _ => hwin k, fun hn => absurd (hf.symm.trans hn) (by decide)⟩
    · rw [hsame, hwin]
    · rw [hsame, hwin]
    · rw [hrest, hserve]
  · rw [if_neg hf]
    exact ⟨hcount, by rw [hwin], by rw [hwin], by rw [hserve], hcode, fun hn => absurd hn hf, fun _ => hserve⟩

/-! ### Decisions that refuse -/

section Decide
variable (s : State) (w : Nat) (h : CmdHead) (b : Body)

theorem State.arrived_serve (hq : (s.win w).queue = []) :
    (∀ k, (s.arrived w h b).win k = s.win k) ∧ (s.arrived w h b).serve = { s.serve with windows := (s.arrived w h b).serve.windows } :=
  ⟨fun k => s.arrived_win w h b k hq, rfl⟩

/-- A command of another number than the next is decided by a record alone (R331, R340). -/
theorem State.decideOne_misses (hspent : (s.win w).spent = false) (hne : h.seq ≠ (s.win w).nextSeq) : s.decideOne w h b =
    s.decision w h (if h.seq < (s.win w).nextSeq then 0x03 else 0x02) (if h.seq < (s.win w).nextSeq then 0 else Code.sequence.num)
      [(32, 8, (s.win w).shownSeq)] := by
  unfold State.decideOne
  dsimp only
  by_cases hlt : h.seq < (s.win w).nextSeq
  · rw [if_pos (.inr hlt), if_pos hlt, if_pos hlt]
  · rw [if_neg (by rw [hspent]; simpa using hlt), if_pos (by omega), if_neg hlt, if_neg hlt]

/-- A command that a check refuses consumes its number and leaves a record (R341). -/
theorem State.decideOne_rejects (hspent : (s.win w).spent = false) (heq : h.seq = (s.win w).nextSeq) (e : Code)
    (hcheck : (s.check w h b).2 = .error e) : s.decideOne w h b =
      ((s.check w h b).1.consume w).decision w h 0x02 e.num [(32, 8, (((s.check w h b).1.consume w).win w).shownSeq)] := by
  unfold State.decideOne
  dsimp only
  rw [if_neg (by rw [hspent, heq]; simp), if_neg (by omega), hcheck]

end Decide

theorem State.consume_serve (s : State) (w : Nat) : (s.consume w).serve = { s.serve with windows := (s.consume w).serve.windows } := rfl

theorem State.decision_eq (s : State) (w : Nat) (h : CmdHead) (kind code : Nat) (body : List (Nat × Nat × Nat)) :
    s.decision w h kind code body =
      s.writeRecord w 0 { kind := kind, code := code, cookie := h.cookie, head := h.seq, time := s.hubTime (w / 4), body := body } := rfl

end Sys2Proof.Machine
end

section
open Sys2Proof Sys2Proof.Machine

/-- Settles O56: each refusal of a write, the wait for a released slot, and the decisions that leave a record alone. -/
theorem intakeRefusesHoldsAndRejects : Obligations.IntakeRefusesHoldsAndRejects := by
  unfold Obligations.IntakeRefusesHoldsAndRejects
  intro s c w h b hc hphase hhub
  have hexec := exec_intake s c w h b hc
  refine ⟨fun e he => ?refuses, fun hport hspent hlen hheld hfree => ?holds, fun hopen hne => ?misses, fun e hopen hseq hcheck => ?rejects⟩
  case refuses =>
    have hrefused : s.submit w h b = s.refuseWrite w h e := by
      rcases he with ⟨hd, rfl⟩ | ⟨hport, hspent, rfl⟩ | ⟨hport, hspent, hlen, rfl⟩
      · exact s.submit_opening w h b hphase hhub hd
      · rw [s.submit_port w h b hphase hhub hport, if_pos hspent]
      · rw [s.submit_port w h b hphase hhub hport, if_neg (by rw [hspent]; exact Bool.false_ne_true), if_pos hlen]
    rw [hrefused] at hexec
    exact ⟨_, hexec, s.refuseWrite_spec w h e⟩
  case holds =>
    have hwin : (s.modWin w fun x => { x with queue := x.queue ++ [(h, b)] }).win w =
        { s.win w with queue := (s.win w).queue ++ [(h, b)] } := by rw [State.win_modWin, if_pos rfl]
    have hwait : (s.modWin w fun x => { x with queue := x.queue ++ [(h, b)] }).pump w =
        s.modWin w fun x => { x with queue := x.queue ++ [(h, b)] } := by
      have hnone : (s.modWin w fun x => { x with queue := x.queue ++ [(h, b)] }).respFree w = false := by
        unfold State.respFree at hfree ⊢
        rw [hwin]
        exact hfree
      unfold State.pump
      rw [State.decideAll, hwin]
      dsimp only
      rw [hheld]
      exact if_neg (by rw [List.length_nil, State.flushResp, hnone]; simp)
    rw [s.submit_port w h b hphase hhub hport, if_neg (by rw [hspent]; exact Bool.false_ne_true), if_neg (by omega), hwait] at hexec
    refine ⟨_, hexec, hwin, fun k hk => ?_, rfl⟩
    rw [State.win_modWin, if_neg hk]
  case misses =>
    obtain ⟨hwins, hserve⟩ := s.arrived_serve w h b hopen.2.2.1
    have hdecide := (s.arrived w h b).decideOne_misses w h b (by rw [hwins]; exact hopen.2.1) (by rw [hwins]; exact hne)
    rw [State.decision_eq, hwins] at hdecide
    obtain ⟨hone, hsame, hrest⟩ := (s.arrived w h b).writeRecord_one w {
      kind := if h.seq < (s.win w).nextSeq then 0x03 else 0x02, code := if h.seq < (s.win w).nextSeq then 0 else Code.sequence.num
      cookie := h.cookie, head := h.seq, time := (s.arrived w h b).hubTime (w / 4), body := [(32, 8, (s.win w).shownSeq)] }
    have hreg := (s.arrived w h b).writeRecord_reg w 0 {
      kind := if h.seq < (s.win w).nextSeq then 0x03 else 0x02, code := if h.seq < (s.win w).nextSeq then 0 else Code.sequence.num
      cookie := h.cookie, head := h.seq, time := (s.arrived w h b).hubTime (w / 4), body := [(32, 8, (s.win w).shownSeq)] }
    rw [← hdecide] at hone hsame hrest
    simp only [← hdecide] at hreg
    rw [hwins] at hsame
    have hsubmit := State.submit_open h b hopen (by rw [hsame]; exact hopen.2.2.1) (by rw [hsame]; exact hopen.2.2.2.1)
    rw [hsubmit] at hexec
    refine ⟨_, hexec, hone.of_win (fun k => by rw [hwins]) fun k _ => hwins k, hsame, by rw [hrest, hserve], ?_⟩
    rw [hreg, if_pos]
    · rfl
    · by_cases hlt : h.seq < (s.win w).nextSeq
      · rw [if_pos hlt, if_pos hlt]
        rfl
      · rw [if_neg hlt, if_neg hlt]
        rfl
  case rejects =>
    obtain ⟨hwins, hserve⟩ := s.arrived_serve w h b hopen.2.2.1
    have hmem := (s.arrived w h b).check_mem w h b
    have hcheckwin (k : Nat) : ((s.arrived w h b).check w h b).1.win k = s.win k := by
      rw [State.win, hmem.serve]
      exact hwins k
    have hdecide := (s.arrived w h b).decideOne_rejects w h b (by rw [hwins]; exact hopen.2.1) (by rw [hwins]; exact hseq) e hcheck
    rw [State.decision_eq] at hdecide
    generalize hu : ((s.arrived w h b).check w h b).1.consume w = u at hdecide
    have huwin : u.win w = { s.win w with
        decided := true, spent := decide (2 ^ 64 - 1 ≤ h.seq), nextSeq := min (h.seq + 1) (2 ^ 64 - 1) } := by
      rw [← hu, State.consume, State.win_modWin, if_pos rfl, hcheckwin, hseq]
    have huother (k : Nat) (hk : k ≠ w) : u.win k = s.win k := by rw [← hu, State.consume, State.win_modWin, if_neg hk, hcheckwin]
    have huserve : u.serve = { s.serve with windows := u.serve.windows } := by
      rw [← hu, State.consume_serve, hmem.serve, hserve]
    have hrecord := RecordStep.writeRecord u w 0 { kind := 0x02, code := e.num, cookie := h.cookie, head := h.seq, time := u.hubTime (w / 4)
                                                   body := [(32, 8, (u.win w).shownSeq)] }
    obtain ⟨hone, hsame, hrest⟩ := u.writeRecord_one w { kind := 0x02, code := e.num, cookie := h.cookie, head := h.seq, time := u.hubTime (w / 4)
                                                         body := [(32, 8, (u.win w).shownSeq)] }
    rw [← hdecide] at hone hsame hrest hrecord
    rw [huwin] at hsame
    have hsubmit := State.submit_open h b hopen (by rw [hsame]; exact hopen.2.2.1) (by rw [hsame]; exact hopen.2.2.2.1)
    rw [hsubmit] at hexec
    refine ⟨_, hexec, hone.of_win (fun k => by rw [huwin]; rfl) huother, hsame, ?_, ?_, ?_⟩
    · rw [hrest, huserve]
    · rw [hrecord.mem.pkg, ← hu]
      exact hmem.pkg
    · rw [hrecord.mem.store, ← hu]
      exact hmem.store

end

section
/-!
Package commands, and the verification of adapter images and ingots (R330, R342, R360, R363, R524, R527).
-/
namespace Sys2Proof.Machine

/-! ### Outcomes of package commands -/

section Outcome
variable (s : State) (w seq cookie : Nat) (code : Option Code) (value : Nat)

/-- The record of a package command's outcome (R330, R338). -/
def State.outcomeOf : Record :=
  { kind := if code.isSome then 0x05 else 0x04, code := (code.map Code.num).getD 0, cookie := cookie, head := seq
    time := s.hubTime (w / 4), body := [(32, 4, value)] }

/-- The window once a command awaits no more. -/
def State.awaited : State := s.modWin w fun x => { x with
  awaiting := x.awaiting - 1, journal := s.putJournal w (·.filter fun j => j.1 != seq) x.journal }

theorem State.awaited_win : (s.awaited w seq).win w = { s.win w with
    awaiting := (s.win w).awaiting - 1, journal := s.putJournal w (·.filter fun j => j.1 != seq) (s.win w).journal } := by
  rw [State.awaited, State.win_modWin, if_pos rfl]

theorem State.awaited_respFree : (s.awaited w seq).respFree w = s.respFree w := by
  unfold State.respFree
  rw [State.awaited_win]
  rfl

theorem State.packageOutcome_writes (hheld : (s.win w).heldOutcomes = []) (hfree : s.respFree w = true) :
    s.packageOutcome w seq cookie code value = (s.awaited w seq).writeRecord w 0 (s.outcomeOf w seq cookie code value) :=
  if_pos ⟨by
    change ((s.awaited w seq).win w).heldOutcomes.isEmpty = true
    rw [State.awaited_win, hheld]
    rfl, (s.awaited_respFree w seq).trans hfree⟩

theorem State.packageOutcome_holds (h : (s.win w).heldOutcomes ≠ [] ∨ s.respFree w = false) : s.packageOutcome w seq cookie code value =
    (s.awaited w seq).modWin w fun x => { x with heldOutcomes := x.heldOutcomes ++ [s.outcomeOf w seq cookie code value] } := by
  refine if_neg ?_
  rintro ⟨hempty, hfree⟩
  have hfree' : s.respFree w = true := (s.awaited_respFree w seq).symm.trans hfree
  have hheld : (s.win w).heldOutcomes = [] := by
    have hwin : ((s.awaited w seq).win w).heldOutcomes.isEmpty = true := hempty
    rw [State.awaited_win] at hwin
    exact List.isEmpty_iff.1 hwin
  rcases h with h | h
  · exact h hheld
  · rw [h] at hfree'
    exact Bool.false_ne_true hfree'

/-- What the outcome of a package command leaves: in its window one command awaits less, and the record is written or held. -/
structure Ended (s t : State) (w seq : Nat) (r : Record) : Prop where
  step : RecordStep s t
  awaiting : (t.win w).awaiting = (s.win w).awaiting - 1
  journal : (t.win w).journal = s.putJournal w (·.filter fun j => j.1 != seq) (s.win w).journal
  written : (s.win w).heldOutcomes = [] → s.respFree w = true → ((t.win w).ring 0).produced = ((s.win w).ring 0).produced + 1
  held : s.respFree w = false → (t.win w).heldOutcomes = (s.win w).heldOutcomes ++ [r]

theorem State.packageOutcome_ended :
    Ended s (s.packageOutcome w seq cookie code value) w seq (s.outcomeOf w seq cookie code value) := by
  have hwin := s.awaited_win w seq
  by_cases h : (s.win w).heldOutcomes = [] ∧ s.respFree w = true
  · rw [s.packageOutcome_writes w seq cookie code value h.1 h.2]
    obtain ⟨hone, hsame, -⟩ := (s.awaited w seq).writeRecord_one w (s.outcomeOf w seq cookie code value)
    rw [hwin] at hsame
    refine ⟨(RecordStep.modWin s w _).trans (RecordStep.writeRecord _ _ _ _), by rw [hsame], by rw [hsame], fun _ _ => ?_,
      fun hn => absurd (h.2.symm.trans hn) (by decide)⟩
    rw [hone.1, hwin]
    rfl
  · have hor : (s.win w).heldOutcomes ≠ [] ∨ s.respFree w = false := by
      by_cases hheld : (s.win w).heldOutcomes = []
      · exact .inr (by simpa using fun hf => h ⟨hheld, hf⟩)
      · exact .inl hheld
    rw [s.packageOutcome_holds w seq cookie code value hor]
    generalize s.outcomeOf w seq cookie code value = r
    have hset : ((s.awaited w seq).modWin w fun x => { x with heldOutcomes := x.heldOutcomes ++ [r] }).win w =
        { (s.awaited w seq).win w with heldOutcomes := ((s.awaited w seq).win w).heldOutcomes ++ [r] } :=
      (State.win_modWin _ _ _ _).trans (if_pos rfl)
    rw [hwin] at hset
    exact ⟨(RecordStep.modWin s w _).trans (RecordStep.modWin _ w _), by rw [hset], by rw [hset],
      fun hheld hfree => absurd ⟨hheld, hfree⟩ h, fun _ => by rw [hset]⟩

end Outcome

/-! ### Pages that are short -/

/-- An allocation takes its pages from what the pool counts free. -/
theorem State.allocPages_counts {s : State} {h n : Nat} {r : State × List Nat} (e : s.allocPages h n = some r) :
    r.1.poolFree h + n = s.poolFree h := by
  unfold State.allocPages at e
  induction n generalizing r with
  | zero =>
    obtain rfl := Option.some.inj e
    rfl
  | succ n ih =>
    rw [List.range_succ, List.foldl_append, List.foldl_cons, List.foldl_nil] at e
    obtain ⟨a, ha, hr⟩ := Option.bind_eq_some_iff.mp e
    have hfree := ih ha
    have hpage := a.1.allocPage_free h
    rcases hp : a.1.allocPage h with ⟨t, o⟩
    rw [hp] at hr hpage
    cases o with
    | none => cases hr
    | some p =>
      obtain rfl := Option.some.inj hr
      dsimp only at hpage ⊢
      omega

theorem State.allocPages_short (s : State) (h n : Nat) (hn : s.poolFree h < n) : s.allocPages h n = none := by
  cases e : s.allocPages h n with
  | none => rfl
  | some r =>
    have := State.allocPages_counts e
    omega

/-! ### Images -/

theorem State.readImage_mem (s : State) (a n : Nat) : MemStep s (s.readImage a n).1 := by
  unfold State.readImage
  dsimp only
  have hhead := (s.hostRead_mem a 384).trans (State.hostRead_mem _ (a + 384) (128 * fieldAt (nums (s.hostRead a 384).2.bytes) 40 2))
  split
  · exact hhead.trans (State.hostRead_mem _ _ _)
  · exact hhead

theorem MemStep.imageAuthentic {s t : State} (h : MemStep s t) (kind : List Char) (r : RawImage) :
    t.imageAuthentic kind r = s.imageAuthentic kind r := by
  unfold State.imageAuthentic State.publisherOk
  rw [h.lock, h.serve, h.pkg]

theorem MemStep.poolFree {s t : State} (h : MemStep s t) (k : Nat) : t.poolFree k = s.poolFree k := (RecordStep.of_mem h).poolFree k

section Adapter
variable (s : State) (hd : Nat) (i : AdapterImage) (c : AdapterCmd)
  (hc : (s.serve.adapterCmds.find? fun c => c.handle == hd && !c.drop && c.image.isNone) = some c)

/-- The first failing check of an adapter image, or BUSY when its pages are short (R360). -/
def State.adapterEnd (s : State) (c : AdapterCmd) (i : AdapterImage) : Option Code :=
  match (s.readImage c.addr c.len).1.adapterFault c.len (s.readImage c.addr c.len).2 i with
  | some e => some e
  | none => if s.poolFree (c.window / 4) < ceilDiv (s.readImage c.addr c.len).2.bodyLength Config.pageBytes then some .busy else none

/-- The state once a load has ended with a code. -/
def State.adapterFailed (s : State) (hd : Nat) (c : AdapterCmd) (e : Code) : State :=
  (((s.readImage c.addr c.len).1).dropAdapterCmd c).packageOutcome c.window c.seq c.cookie (some e) hd

include hc in
theorem exec_adapterVerified_fails (e : Code) (he : s.adapterEnd c i = some e) :
    exec (.adapterVerified hd i) s = .next (s.adapterFailed hd c e) := by
  change execAdapterVerified hd i s = _
  unfold execAdapterVerified
  rw [hc]
  dsimp only
  unfold State.adapterEnd at he
  cases hf : (s.readImage c.addr c.len).1.adapterFault c.len (s.readImage c.addr c.len).2 i with
  | some k =>
    rw [hf] at he
    obtain rfl := Option.some.inj he
    rfl
  | none =>
    rw [hf] at he
    dsimp only at he ⊢
    split at he
    next hshort =>
      obtain rfl := Option.some.inj he
      rw [State.allocPages_short _ _ _ (by rw [(s.readImage_mem _ _).poolFree]; exact hshort)]
      rfl
    next => exact absurd he (by simp)

/-- The record of a verified image (R360). -/
def State.adapterRec (s : State) (hd : Nat) (r : RawImage) (i : AdapterImage) (pages : List Nat) : AdapterRec :=
  { id := s.serve.nextImage, handle := hd, digest := r.digest, baseDigest := r.baseDigest, tenant := r.tenant
    rank := r.rank, publisher := r.publisher, bytes := r.bodyLength, modifiesKV := i.modifiesKV
    slot := s.freeSlot, pages := pages }

/-- The commands once one of them has its image. -/
def withImage (l : List AdapterCmd) (c : AdapterCmd) (id : Nat) : List AdapterCmd :=
  l.map fun d => if d.window = c.window ∧ d.seq = c.seq then { d with image := some id } else d

theorem withImage_has (l : List AdapterCmd) (id : Nat) (d : AdapterCmd) (hd : d ∈ withImage l c id) (hw : d.window = c.window)
    (hs : d.seq = c.seq) : d.image = some id := by
  obtain ⟨x, -, rfl⟩ := List.mem_map.1 hd
  by_cases hx : x.window = c.window ∧ x.seq = c.seq
  · rw [if_pos hx]
  · rw [if_neg hx] at hw hs
    exact absurd ⟨hw, hs⟩ hx

/-- The state with a verified image in the pages it was given (R360). -/
def State.adapterStored (s : State) (hd : Nat) (c : AdapterCmd) (r : RawImage) (i : AdapterImage) (a : State × List Nat) : State :=
  { a.1.writePages a.2 (keyTenant r.tenant) (bits8 (s.lock.fuses.clearBody r)) with
    serve := { a.1.serve with
      images := a.1.serve.images ++ [s.adapterRec hd r i a.2], nextImage := s.serve.nextImage + 1
      adapterCmds := withImage a.1.serve.adapterCmds c s.serve.nextImage } }

include hc in
theorem exec_adapterVerified_stores (hf : (s.readImage c.addr c.len).1.adapterFault c.len (s.readImage c.addr c.len).2 i = none)
    (a : State × List Nat)
    (ha : (s.readImage c.addr c.len).1.allocPages (c.window / 4) (ceilDiv (s.readImage c.addr c.len).2.bodyLength Config.pageBytes) = some a) :
    exec (.adapterVerified hd i) s = .next (s.adapterStored hd c (s.readImage c.addr c.len).2 i a) := by
  change execAdapterVerified hd i s = _
  unfold execAdapterVerified
  rw [hc]
  dsimp only
  rw [hf]
  dsimp only
  rw [ha]
  rfl

/-- The code of the first failing check, as the checks stand in R360 and R527. -/
theorem State.adapterFault_eq (u : State) (hu : MemStep s u) (r : RawImage) : u.adapterFault c.len r i =
    if r.poison = true then some .poison else if r.lengthOk c.len = false then some .length
    else if s.imageAuthentic ['A', 'D', 'A', 'P', 'T', 'E', 'R'] r = false ∨
      (r.wrapCount ≠ 0 ∧ (s.lock.fuses.unwrap r = none ∨ s.lock.debugOpen = true)) then some .auth
    else if r.rank = 0 ∨ 64 < r.rank ∨ 4095 < r.tenant ∨ i.shapesMatch = false then some .format
    else none := by
  unfold State.adapterFault
  rw [hu.imageAuthentic, hu.lock]
  simp only [Option.isNone_iff_eq_none]

end Adapter

end Sys2Proof.Machine
end

section
/-!
Package commands that wait, and INGOT_STAGE_VERIFIED (R342, R363, R524, R582).
-/
namespace Sys2Proof.Machine

/-! ### How an adapter's verification ends -/

theorem State.adapterEnd_eq (s : State) (c : AdapterCmd) (i : AdapterImage) (r : RawImage) (hr : r = (s.readImage c.addr c.len).2) :
    s.adapterEnd c i =
      if r.poison = true then some .poison else if r.lengthOk c.len = false then some .length
      else if s.imageAuthentic ['A', 'D', 'A', 'P', 'T', 'E', 'R'] r = false ∨
        (r.wrapCount ≠ 0 ∧ (s.lock.fuses.unwrap r = none ∨ s.lock.debugOpen = true)) then some .auth
      else if r.rank = 0 ∨ 64 < r.rank ∨ 4095 < r.tenant ∨ i.shapesMatch = false then some .format
      else if s.poolFree (c.window / 4) < ceilDiv r.bodyLength Config.pageBytes then some .busy else none := by
  subst hr
  rw [State.adapterEnd, s.adapterFault_eq i c _ (s.readImage_mem _ _)]
  split_ifs <;> rfl

/-- What a failed load leaves (R330, R360). -/
theorem State.adapterFailed_ended (s : State) (hd : Nat) (c : AdapterCmd) (e : Code) :
    ∃ u, MemStep s u ∧ Ended (u.dropAdapterCmd c) (s.adapterFailed hd c e) c.window c.seq
      ((u.dropAdapterCmd c).outcomeOf c.window c.seq c.cookie (some e) hd) :=
  ⟨_, s.readImage_mem _ _, State.packageOutcome_ended _ _ _ _ _ _⟩

theorem State.dropAdapterCmd_win (u : State) (c : AdapterCmd) (k : Nat) : (u.dropAdapterCmd c).win k = u.win k := rfl

/-! ### Package commands -/

section Package
variable (s : State) (w : Nat) (h : CmdHead) (b : Body) (pin : Option IngotRec)

/-- Where a package command takes effect nothing but windows and mark cells of serving, and nothing of the package, has moved. -/
theorem State.journalled_package : (s.journalled w h b pin).serve.sessions = s.serve.sessions ∧
    (s.journalled w h b pin).serve.adapterCmds = s.serve.adapterCmds ∧ (s.journalled w h b pin).pkg = s.pkg := by
  have hstep := s.journalled_step w h b pin
  exact ⟨by rw [hstep.serve], by rw [hstep.serve], hstep.mem.pkg⟩

end Package

/-! ### INGOT_STAGE_VERIFIED -/

section Ingot
variable (s : State) (g : IngotImage) (c : Staging) (rest : List Staging)

theorem exec_ingotStage_waits (h : s.pkg.gen.switch.isSome = true) : exec (.ingotStageVerified g) s = .next s := by
  change execIngotStageVerified g s = _
  unfold execIngotStageVerified
  split
  · rfl
  · exact if_pos h

/-- The state once a verification has taken its command. -/
def State.unstaged (u : State) (rest : List Staging) : State := u.modGen fun x => { x with staging := rest }

/-- The ingot that a verification keeps (R524). -/
def State.ingotRec (s u : State) (r : RawImage) (g : IngotImage) (c : Staging) : IngotRec :=
  { generation := c.generation, digest := r.digest, kvTag := r.kvTag, vocab := r.vocab
    publisher := r.publisher, shape := g.shape, patterns := u.patternTable c.table g.patterns, addr := c.addr, len := c.len
    contentKey := (s.lock.fuses.unwrap r).getD [] }

/-- The generations once an ingot is kept (R363, R582). -/
def Generations.keeping (x : Generations) (resident : Bool) (r : IngotRec) : Generations :=
  if x.inService.isNone ∧ resident then { x with inService := some r } else { x with staged := some r }

variable (hstaging : s.pkg.gen.staging = c :: rest) (hswitch : s.pkg.gen.switch = none)
  (u : State) (r : RawImage) (hu : u = (s.readImage c.addr c.len).1) (hr : r = (s.readImage c.addr c.len).2)
include hstaging hswitch hu hr

theorem exec_ingotStage_fails (e : Code) (he : u.ingotFault c.len r g c.table = some e) : exec (.ingotStageVerified g) s =
    .next ((u.unstaged rest).packageOutcome c.window c.seq c.cookie (some e) c.generation) := by
  subst hu hr
  change execIngotStageVerified g s = _
  unfold execIngotStageVerified
  rw [hstaging]
  dsimp only
  rw [if_neg (by rw [hswitch]; exact Bool.false_ne_true), he]
  rfl

theorem exec_ingotStage_keeps (he : u.ingotFault c.len r g c.table = none) : exec (.ingotStageVerified g) s =
    .next (((u.unstaged rest).modGen fun x => Generations.keeping x (s.resident c.generation r.digest) (s.ingotRec u r g c)).packageOutcome
      c.window c.seq c.cookie none c.generation) := by
  subst hu hr
  change execIngotStageVerified g s = _
  unfold execIngotStageVerified
  rw [hstaging]
  dsimp only
  rw [if_neg (by rw [hswitch]; exact Bool.false_ne_true), he]
  rfl

end Ingot

/-- The code of an ingot's first failing check, as the checks stand in R524 and R363. -/
theorem State.ingotFault_eq (s u : State) (hu : MemStep s u) (c : Staging) (g : IngotImage) (r : RawImage) (l : List PatternRef)
    (hl : l = u.patternTable c.table g.patterns) : u.ingotFault c.len r g c.table =
      if r.poison = true ∨ (u.hostRead c.table 128).2.poison = true then some .poison
      else if r.lengthOk c.len = false then some .length
      else if s.imageAuthentic ['I', 'N', 'G', 'O', 'T'] r = false ∨ s.lock.fuses.unwrap r = none ∨ s.lock.debugOpen = true then some .auth
      else if bodyOk r.vocab g.body = false ∨ l = [] then some .format
      else l.findSome? fun e => u.imageChecks e.die e.image e.base e.len4k false := by
  subst hl
  unfold State.ingotFault State.patternsFault
  rw [hu.imageAuthentic, hu.lock]
  simp only [Option.isNone_iff_eq_none, List.isEmpty_iff]
  by_cases hbody : bodyOk r.vocab g.body = false
  · simp only [hbody, if_true, true_or]
  · simp only [if_neg hbody, or_iff_right hbody]

/-- A check that fails for an entry fails for the list. -/
theorem findSome_of_ne_none {α β : Type} (f : α → Option β) (l : List α) (h : ∃ e ∈ l, f e ≠ none) : ∃ b, l.findSome? f = some b := by
  rw [← Option.isSome_iff_exists, List.findSome?_isSome_iff]
  obtain ⟨e, he, hne⟩ := h
  exact ⟨e, he, Option.isSome_iff_ne_none.2 hne⟩

/-- An ingot that passes every check. -/
theorem ingotFault_none (s u : State) (hu : MemStep s u) (c : Staging) (g : IngotImage) (r : RawImage) (l : List PatternRef)
    (hl : l = u.patternTable c.table g.patterns) (hpoison : r.poison = false) (htable : (u.hostRead c.table 128).2.poison = false)
    (hlength : r.lengthOk c.len = true) (hauth : s.imageAuthentic ['I', 'N', 'G', 'O', 'T'] r = true) (hdebug : s.lock.debugOpen = false)
    (hbody : bodyOk r.vocab g.body = true) (hne : l ≠ []) (hchecks : ∀ e ∈ l, u.imageChecks e.die e.image e.base e.len4k false = none)
    (key : List Nat) (hkey : s.lock.fuses.unwrap r = some key) : u.ingotFault c.len r g c.table = none := by
  rw [State.ingotFault_eq s u hu c g r l hl, if_neg (by rw [hpoison, htable]; decide), if_neg (by rw [hlength]; decide),
    if_neg (by rw [hauth, hkey, hdebug]; simp), if_neg (by rw [hbody]; simpa using hne)]
  exact List.findSome?_eq_none_iff.2 hchecks

/-- What a kept ingot leaves of the generations, and of its command (R330, R363). -/
theorem ingotKept_ended (s u : State) (hu : MemStep s u) (c : Staging) (rest : List Staging) (resident : Bool) (x : IngotRec) :
    (((u.unstaged rest).modGen fun y => Generations.keeping y resident x).packageOutcome c.window c.seq c.cookie none c.generation).pkg.gen =
        Generations.keeping { s.pkg.gen with staging := rest } resident x ∧
      ((((u.unstaged rest).modGen fun y => Generations.keeping y resident x).packageOutcome c.window c.seq c.cookie none
        c.generation).win c.window).awaiting = (s.win c.window).awaiting - 1 := by
  have hended := ((u.unstaged rest).modGen fun y => Generations.keeping y resident x).packageOutcome_ended c.window c.seq c.cookie none
    c.generation
  refine ⟨?_, ?_⟩
  · rw [hended.step.mem.pkg]
    exact congrArg (fun y : Package => Generations.keeping { y.gen with staging := rest } resident x) hu.pkg
  · rw [hended.awaiting]
    exact congrArg (fun y : Serving => (tget (fun _ => ({} : Window)) y.windows c.window).awaiting - 1) hu.serve

end Sys2Proof.Machine
end

section
open Sys2Proof Sys2Proof.Machine

/-- Settles O55: package commands take effect where they have been journalled; a verification ends with its first failing check, and the
record of its outcome is written or held. -/
theorem packageCommandsAndVerifications : Obligations.PackageCommandsAndVerifications := by
  unfold Obligations.PackageCommandsAndVerifications
  refine ⟨fun s w h pin cont => ⟨fun b a => ?load, fun x a => ?drop, fun b a => ?stage, fun g a => ?switch⟩,
    fun s hd i g => ⟨fun c hc r hr => ⟨fun hfail => ?adapterFails, fun hpoison hlength hauth hwrap hrank hrank' htenant hshapes hroom => ?adapterStores⟩,
      exec_ingotStage_waits s g, fun c rest hstaging hswitch u r l hu hr hl => ⟨fun hfail => ?ingotFails,
        fun hpoison htable hlength hauth hdebug hbody hne hchecks key hkey => ⟨fun hkept => ?staged, fun hnone hresident => ?resident⟩⟩⟩⟩
  case load =>
    obtain ⟨hsessions, hcmds, hpkg⟩ := s.journalled_package w.val h (.adapterLoad b) pin
    refine ⟨_, rfl, State.accepts_accepted a, ?_⟩
    rw [State.submit_accepts a]
    exact ⟨hsessions, hpkg, _, congrArg (· ++ _) hcmds, rfl, rfl, rfl, rfl, rfl, rfl, rfl⟩
  case drop =>
    obtain ⟨hsessions, hcmds, hpkg⟩ := s.journalled_package w.val h (.adapterDrop x) pin
    refine ⟨_, rfl, State.accepts_accepted a, ?_⟩
    rw [State.submit_accepts a]
    exact ⟨hsessions, hpkg, _, congrArg (· ++ _) hcmds, rfl, rfl, rfl, rfl⟩
  case stage =>
    obtain ⟨hsessions, hcmds, hpkg⟩ := s.journalled_package w.val h (.ingotStage b) pin
    refine ⟨_, rfl, State.accepts_accepted a, ?_⟩
    rw [State.submit_accepts a]
    generalize s.journalled w.val h (.ingotStage b) pin = j at hsessions hcmds hpkg
    rw [← hpkg]
    exact ⟨hsessions, hcmds, rfl, rfl, _, rfl, rfl, rfl, rfl, rfl, rfl, rfl⟩
  case switch =>
    obtain ⟨hsessions, hcmds, hpkg⟩ := s.journalled_package w.val h (.genSwitch g) pin
    refine ⟨_, ⟨w.val, h.seq, h.cookie, g, .waiting, []⟩, rfl, State.accepts_accepted a, ?_⟩
    rw [State.submit_accepts a]
    generalize s.journalled w.val h (.genSwitch g) pin = j at hsessions hcmds hpkg
    rw [← hpkg]
    exact ⟨hsessions, hcmds, rfl, rfl, rfl, rfl, rfl⟩
  case adapterFails =>
    have hend := s.adapterEnd_eq c i r hr
    obtain ⟨e, he, hcode⟩ : ∃ e, s.adapterEnd c i = some e ∧ e.num =
        (if r.poison = true then Code.poison.num else if r.lengthOk c.len = false then Code.length.num
          else if s.imageAuthentic ['A', 'D', 'A', 'P', 'T', 'E', 'R'] r = false ∨
            (r.wrapCount ≠ 0 ∧ (s.lock.fuses.unwrap r = none ∨ s.lock.debugOpen = true)) then Code.auth.num
          else if r.rank = 0 ∨ 64 < r.rank ∨ 4095 < r.tenant ∨ i.shapesMatch = false then Code.format.num else Code.busy.num) := by
      rw [hend]
      by_cases h1 : r.poison = true
      · exact ⟨_, if_pos h1, (if_pos h1).symm⟩
      rw [if_neg h1, if_neg h1]
      by_cases h2 : r.lengthOk c.len = false
      · exact ⟨_, if_pos h2, (if_pos h2).symm⟩
      rw [if_neg h2, if_neg h2]
      by_cases h3 : s.imageAuthentic ['A', 'D', 'A', 'P', 'T', 'E', 'R'] r = false ∨
          (r.wrapCount ≠ 0 ∧ (s.lock.fuses.unwrap r = none ∨ s.lock.debugOpen = true))
      · exact ⟨_, if_pos h3, (if_pos h3).symm⟩
      rw [if_neg h3, if_neg h3]
      by_cases h4 : r.rank = 0 ∨ 64 < r.rank ∨ 4095 < r.tenant ∨ i.shapesMatch = false
      · exact ⟨_, if_pos h4, (if_pos h4).symm⟩
      rw [if_neg h4, if_neg h4]
      exact ⟨_, if_pos (by tauto), rfl⟩
    obtain ⟨u, hmem, hended⟩ := s.adapterFailed_ended hd c e
    have hwin (k : Nat) : (u.dropAdapterCmd c).win k = s.win k := by
      rw [State.dropAdapterCmd_win, State.win, hmem.serve, State.win]
    have hfree : (u.dropAdapterCmd c).respFree c.window = s.respFree c.window := State.respFree_of_win (hwin _)
    refine ⟨_, exec_adapterVerified_fails s hd i c hc e he, ?_, ?_, ?_, fun hheld hf => ?_,
      fun hf => ⟨(u.dropAdapterCmd c).outcomeOf c.window c.seq c.cookie (some e) hd, ?_, rfl, hcode⟩, ?_, ?_⟩
    · rw [hended.step.serve]
      exact congrArg (fun x : Serving => x.adapterCmds.filter _) hmem.serve
    · rw [hended.awaiting, hwin]
    · rw [hended.journal, hwin]
      exact State.putJournal_of_out (fun k => hmem.out k) _ _ _
    · rw [hended.written (by rw [hwin, hheld]) (by rw [hfree, hf]), hwin]
    · exact (hended.held (by rw [hfree, hf])).trans (by rw [hwin])
    · rw [hended.step.serve]
      exact (congrArg Serving.images hmem.serve : u.serve.images = _)
    · rw [hended.step.serve]
      exact (congrArg Serving.handles hmem.serve : u.serve.handles = _)
  case adapterStores =>
    have hmem := s.readImage_mem c.addr c.len
    obtain ⟨p, hp⟩ := State.allocPages_some (s.readImage c.addr c.len).1 (c.window / 4) (ceilDiv r.bodyLength Config.pageBytes)
      (by rw [hmem.poolFree]; exact hroom)
    have hpages := State.allocPages_spec hp
    have hserve : p.1.serve = s.serve := by rw [hpages.2, hmem.serve]
    have hfault : (s.readImage c.addr c.len).1.adapterFault c.len (s.readImage c.addr c.len).2 i = none := by
      rw [← hr, s.adapterFault_eq i c _ hmem, if_neg (by rw [hpoison]; decide), if_neg (by rw [hlength]; decide), if_neg ?_, if_neg ?_]
      · simp only [hshapes, Bool.true_eq_false, or_false]
        omega
      · rw [hauth]
        rintro (h | ⟨hwraps, hkey⟩)
        · exact absurd h (by decide)
        · rcases hwrap with hwrap | ⟨hsome, hdebug⟩
          · exact hwraps hwrap
          · rcases hkey with hkey | hkey
            · rw [hkey] at hsome
              exact absurd hsome (by decide)
            · rw [hdebug] at hkey
              exact absurd hkey (by decide)
    have hexec := exec_adapterVerified_stores s hd i c hc hfault p (by rw [← hr]; exact hp)
    rw [← hr] at hexec
    refine ⟨_, s.adapterRec hd r i p.2, hexec, ?_, rfl, rfl, rfl, rfl, rfl, rfl, rfl, hpages.1, rfl, ?_, ?_,
      fun d hmemb hw hs => withImage_has _ _ _ d hmemb hw hs⟩
    · exact congrArg (fun x : Serving => x.images ++ _) hserve
    · exact (congrArg Serving.handles hserve : p.1.serve.handles = _)
    · exact (congrArg Serving.windows hserve : p.1.serve.windows = _)
  case ingotFails =>
    have hmem : MemStep s u := by
      rw [hu]
      exact s.readImage_mem _ _
    have hfault := State.ingotFault_eq s u hmem c g r l hl
    obtain ⟨e, he, hcode⟩ : ∃ e, u.ingotFault c.len r g c.table = some e ∧ e.num =
        (if r.poison = true ∨ (u.hostRead c.table 128).2.poison = true then Code.poison.num
          else if r.lengthOk c.len = false then Code.length.num
          else if s.imageAuthentic ['I', 'N', 'G', 'O', 'T'] r = false ∨ s.lock.fuses.unwrap r = none ∨ s.lock.debugOpen = true
          then Code.auth.num
          else if bodyOk r.vocab g.body = false ∨ l = [] then Code.format.num
          else ((l.findSome? fun e => u.imageChecks e.die e.image e.base e.len4k false).getD .format).num) := by
      rw [hfault]
      by_cases h1 : r.poison = true ∨ (u.hostRead c.table 128).2.poison = true
      · exact ⟨_, if_pos h1, (if_pos h1).symm⟩
      rw [if_neg h1, if_neg h1]
      by_cases h2 : r.lengthOk c.len = false
      · exact ⟨_, if_pos h2, (if_pos h2).symm⟩
      rw [if_neg h2, if_neg h2]
      by_cases h3 : s.imageAuthentic ['I', 'N', 'G', 'O', 'T'] r = false ∨ s.lock.fuses.unwrap r = none ∨ s.lock.debugOpen = true
      · exact ⟨_, if_pos h3, (if_pos h3).symm⟩
      rw [if_neg h3, if_neg h3]
      by_cases h4 : bodyOk r.vocab g.body = false ∨ l = []
      · exact ⟨_, if_pos h4, (if_pos h4).symm⟩
      rw [if_neg h4, if_neg h4]
      obtain ⟨e, he⟩ := findSome_of_ne_none (fun e : PatternRef => u.imageChecks e.die e.image e.base e.len4k false) l (by tauto)
      exact ⟨e, he, by rw [he]; rfl⟩
    have hexec := exec_ingotStage_fails s g c rest hstaging hswitch u r hu hr e he
    have hended := (u.unstaged rest).packageOutcome_ended c.window c.seq c.cookie (some e) c.generation
    have hwin (k : Nat) : (u.unstaged rest).win k = s.win k := congrArg (fun x : Serving => tget _ x.windows k) hmem.serve
    refine ⟨_, hexec, ?_, ?_,
      fun hf => ⟨(u.unstaged rest).outcomeOf c.window c.seq c.cookie (some e) c.generation, ?_, rfl, hcode⟩⟩
    · rw [hended.step.mem.pkg]
      exact congrArg (fun x : Package => { x.gen with staging := rest }) hmem.pkg
    · rw [hended.awaiting, hwin]
    · exact (hended.held (by rw [State.respFree_of_win (hwin _), hf])).trans (by rw [hwin])
  case staged =>
    have hmem : MemStep s u := by
      rw [hu]
      exact s.readImage_mem _ _
    have hpass := ingotFault_none s u hmem c g r l hl hpoison htable hlength hauth hdebug hbody hne hchecks key hkey
    obtain ⟨hpkg, hawaiting⟩ := ingotKept_ended s u hmem c rest (s.resident c.generation r.digest) (s.ingotRec u r g c)
    refine ⟨_, s.ingotRec u r g c, exec_ingotStage_keeps s g c rest hstaging hswitch u r hu hr hpass, ?_, rfl, rfl, rfl, rfl, hl.symm,
      by rw [State.ingotRec, hkey]; rfl, hawaiting⟩
    rw [hpkg, Generations.keeping, if_neg]
    rintro ⟨hnone, hres⟩
    rcases hkept with hsome | hres'
    · rw [Option.isNone_iff_eq_none] at hnone
      exact absurd hsome (by rw [show s.pkg.gen.inService = none from hnone]; decide)
    · exact absurd (hres.symm.trans hres') (by decide)
  case resident =>
    have hmem : MemStep s u := by
      rw [hu]
      exact s.readImage_mem _ _
    have hpass := ingotFault_none s u hmem c g r l hl hpoison htable hlength hauth hdebug hbody hne hchecks key hkey
    obtain ⟨hpkg, -⟩ := ingotKept_ended s u hmem c rest (s.resident c.generation r.digest) (s.ingotRec u r g c)
    refine ⟨_, s.ingotRec u r g c, exec_ingotStage_keeps s g c rest hstaging hswitch u r hu hr hpass, ?_, rfl, rfl,
      by rw [State.ingotRec, hkey]; rfl⟩
    rw [hpkg, Generations.keeping, if_pos ⟨by rw [hnone]; rfl, hresident⟩]

end

section
/-!
DIE.PAT_LOAD and LOAD_COMPLETE (R216, R235 to R240): what the completion of a load writes, croft by croft.
-/
namespace Sys2Proof.Machine

/-! ### The pattern region of a croft -/

theorem Croft.writeRegion_store (c : Croft) (p : PatternImage) (row col : Nat) :
    c.writeRegion p row col = { c with store := (c.writeRegion p row col).store } := by
  unfold Croft.writeRegion
  split <;> rfl

theorem Croft.writeHot_store (c : Croft) (p : PatternImage) (row col : Nat) (src : Croft) (slots : Nat → Bool) :
    c.writeHot p row col src slots = { c with store := (c.writeHot p row col src slots).store } := by
  have hsome : ∃ store, c.writeHot p row col src slots = { c with store := store } := by
    unfold Croft.writeHot
    refine List.foldlRecOn _ _ (motive := fun k : Croft => ∃ store, k = { c with store := store }) ⟨_, rfl⟩ fun k hk h _ => ?_
    obtain ⟨store, rfl⟩ := hk
    split
    · exact ⟨store, rfl⟩
    · exact ⟨_, rfl⟩
  obtain ⟨store, h⟩ := hsome
  rw [h]

/-- A croft with its pattern region and hot-row copies written (R238). -/
def Croft.regionLoaded (c : Croft) (p : PatternImage) (e : Nat × Nat) : Croft := (c.writeRegion p e.1 e.2).writeHot p e.1 e.2 c

theorem Croft.regionLoaded_store (c : Croft) (p : PatternImage) (e : Nat × Nat) :
    c.regionLoaded p e = { c with store := (c.regionLoaded p e).store } := by
  rw [Croft.regionLoaded, Croft.writeHot_store, Croft.writeRegion_store]

theorem Croft.regionLoaded_coordinate (c : Croft) (p : PatternImage) (e : Nat × Nat) :
    (c.regionLoaded p e).service = c.service ∧ (c.regionLoaded p e).spareColumn = c.spareColumn := by
  rw [Croft.regionLoaded_store]
  exact ⟨rfl, rfl⟩

/-- Lines written behind one another leave what lies below them. -/
theorem Memory.get_foldl_set_below (lines : List (Nat × BitVec 8)) (m : Memory) (base b : Nat) (hb : b < base) :
    (lines.foldl (fun m e => Memory.set m (base + e.1) e.2) m).get b = m.get b :=
  foldl_keeps (fun m : Memory => m.get b) _ lines m fun m e => by
    rw [Memory.get_set, if_neg (by omega)]

/-- Each line written once is read back. -/
theorem Memory.get_foldl_set (lines : List (Nat × BitVec 8)) (m : Memory) (base : Nat) (hdistinct : (lines.map (·.1)).Nodup)
    (e : Nat × BitVec 8) (he : e ∈ lines) : (lines.foldl (fun m e => Memory.set m (base + e.1) e.2) m).get (base + e.1) = e.2 := by
  induction lines generalizing m with
  | nil => cases he
  | cons x xs ih =>
    obtain ⟨hx, hxs⟩ := List.nodup_cons.1 hdistinct
    rw [List.foldl_cons]
    cases he with
    | tail _ he => exact ih _ hxs he
    | head =>
      have hother : ∀ (ys : List (Nat × BitVec 8)) (m : Memory), e.1 ∉ ys.map (·.1) →
          (ys.foldl (fun m e => Memory.set m (base + e.1) e.2) m).get (base + e.1) = m.get (base + e.1) := by
        intro ys m hys
        refine List.foldlRecOn ys _ (motive := fun k : Memory => k.get (base + e.1) = m.get (base + e.1)) rfl fun k hk y hy => ?_
        have hne : e.1 ≠ y.1 := fun h => hys (h ▸ List.mem_map_of_mem hy)
        rw [Memory.get_set, if_neg (by omega), hk]
      rw [hother xs _ hx, Memory.get_set, if_pos rfl]

theorem Croft.writeRegion_below (c : Croft) (p : PatternImage) (row col b : Nat) (hb : b < 0x18000) :
    (c.writeRegion p row col).store.get b = c.store.get b := by
  unfold Croft.writeRegion
  split
  · exact (Memory.get_foldl_set_below _ _ _ _ hb).trans ((Memory.get_clear _ _ _ _).trans (if_neg (by omega)))
  · rfl

theorem Croft.writeHot_below (c : Croft) (p : PatternImage) (row col b : Nat) (src : Croft) (slots : Nat → Bool) (hb : b < 0x18000)
    (hhot : ∀ h ∈ p.hot, 0x18000 ≤ h.copies) : (c.writeHot p row col src slots).store.get b = c.store.get b := by
  unfold Croft.writeHot
  refine List.foldlRecOn _ _ (motive := fun k : Croft => k.store.get b = c.store.get b) rfl fun k hk h hh => ?_
  have hcopies := hhot h (List.mem_of_mem_filter hh)
  split
  · exact hk
  · refine Eq.trans ?_ hk
    refine foldl_keeps (fun m : Memory => m.get b) _ _ _ fun m x => ?_
    rw [Memory.get_setBytes, if_pos (by omega)]

theorem Croft.regionLoaded_below (c : Croft) (p : PatternImage) (e : Nat × Nat) (b : Nat) (hb : b < 0x18000)
    (hhot : ∀ h ∈ p.hot, 0x18000 ≤ h.copies) : (c.regionLoaded p e).store.get b = c.store.get b := by
  rw [Croft.regionLoaded, Croft.writeHot_below _ _ _ _ _ _ _ hb hhot, Croft.writeRegion_below _ _ _ _ _ hb]

/-- Without hot rows the region alone is written. -/
theorem Croft.regionLoaded_cold (c : Croft) (p : PatternImage) (e : Nat × Nat) (hhot : p.hot = []) :
    c.regionLoaded p e = c.writeRegion p e.1 e.2 := by
  simp [Croft.regionLoaded, Croft.writeHot, hhot]

theorem Croft.writeRegion_own (c : Croft) (p : PatternImage) (r : RegionImage) (hr : p.regions = [r])
    (hdistinct : (r.lines.map (·.1)).Nodup) (e : Nat × BitVec 8) (he : e ∈ r.lines) :
    (c.writeRegion p r.row.val r.lcol.val).store.get (0x18000 + e.1) = e.2 := by
  have hfind : p.regions.find? (fun x => x.row.val == r.row.val && x.lcol.val == r.lcol.val) = some r := by simp [hr]
  rw [Croft.writeRegion, hfind]
  exact Memory.get_foldl_set _ _ _ hdistinct e he

theorem Croft.writeRegion_other (c : Croft) (p : PatternImage) (r : RegionImage) (hr : p.regions = [r]) (e : Nat × Nat)
    (he : e ≠ (r.row.val, r.lcol.val)) : c.writeRegion p e.1 e.2 = c := by
  have hfind : p.regions.find? (fun x => x.row.val == e.1 && x.lcol.val == e.2) = none := by
    rw [hr, List.find?_eq_none]
    intro x hx
    rw [List.mem_singleton.1 hx]
    simpa using fun h1 h2 => he (Prod.ext h1.symm h2.symm)
  rw [Croft.writeRegion, hfind]

/-! ### The coordinates that a pattern uses -/

theorem placeCroft_fin {q : RowPlace} {e : Nat × Nat} (h : placeCroft q = some e) : ∃ r j : Fin 32, e = (r.val, j.val) := by
  cases q with
  | act r j _ | ps r j _ => exact ⟨r, j, (Option.some.inj h).symm⟩
  | gran _ _ | column _ _ _ => cases h

theorem patternCrofts_fin (p : PatternImage) {e : Nat × Nat} (he : e ∈ patternCrofts p) : ∃ r j : Fin 32, e = (r.val, j.val) := by
  simp only [patternCrofts, List.mem_eraseDups, List.mem_append, List.mem_map, List.mem_flatMap, Option.mem_toList,
    List.mem_filterMap] at he
  obtain (((((((⟨w, -, rfl⟩ | ⟨w, -, rfl⟩) | ⟨w, -, rfl⟩) | ⟨w, -, rfl⟩) | ⟨w, -, rfl⟩) | ⟨w, -, rfl⟩) | ⟨w, -, h | h⟩) | ⟨w, -, h⟩) |
    ⟨w, -, rfl⟩ := he
  case inl.inl.inr.inl | inl.inl.inr.inr | inl.inr => exact placeCroft_fin h
  all_goals exact ⟨w.row, w.lcol, rfl⟩

theorem region_mem_patternCrofts (p : PatternImage) (r : RegionImage) (hr : p.regions = [r]) :
    (r.row.val, r.lcol.val) ∈ patternCrofts p := by
  simp only [patternCrofts, List.mem_eraseDups, List.mem_append, List.mem_map]
  simp [hr]

/-! ### All regions of a pattern -/

theorem State.loadRegion_eq (s : State) (d : Nat) (p : PatternImage) (e : Nat × Nat) :
    s.loadRegion d p e = s.modCroft (s.physOf d e.1 e.2) fun c => c.regionLoaded p e := rfl

theorem State.loadRegion_croft (s : State) (d n : Nat) (p : PatternImage) (e : Nat × Nat) :
    (s.loadRegion d p e).croft n = if n = s.physOf d e.1 e.2 then (s.croft n).regionLoaded p e else s.croft n := by
  rw [State.loadRegion_eq, State.croft_modCroft]
  split
  next h => rw [h]
  next => rfl

theorem State.loadRegion_physOf (s : State) (d : Nat) (p : PatternImage) (e : Nat × Nat) (k r j : Nat) :
    (s.loadRegion d p e).physOf k r j = s.physOf k r j :=
  s.physOf_modCroft _ _ (fun c => c.regionLoaded_coordinate p e) k r j

/-- The regions of a list of coordinates, written one after the other. -/
def State.regionsLoaded (s : State) (d : Nat) (p : PatternImage) (l : List (Nat × Nat)) : State :=
  l.foldl (fun (t : State) e => t.loadRegion d p e) s

theorem State.regionsLoaded_cons (s : State) (d : Nat) (p : PatternImage) (e : Nat × Nat) (l : List (Nat × Nat)) :
    s.regionsLoaded d p (e :: l) = (s.loadRegion d p e).regionsLoaded d p l := rfl

theorem State.regionsLoaded_frame (s : State) (d : Nat) (p : PatternImage) (l : List (Nat × Nat)) :
    s.regionsLoaded d p l = { s with crofts := (s.regionsLoaded d p l).crofts } := by
  induction l generalizing s with
  | nil => rfl
  | cons e l ih =>
    rw [State.regionsLoaded_cons, ih]
    rfl

/-- What every croft keeps while regions are written: all but its store. -/
theorem State.regionsLoaded_croft (s : State) (d n : Nat) (p : PatternImage) (l : List (Nat × Nat)) :
    (s.regionsLoaded d p l).croft n = { s.croft n with store := ((s.regionsLoaded d p l).croft n).store } := by
  induction l generalizing s with
  | nil => rfl
  | cons e l ih =>
    have hone : (s.loadRegion d p e).croft n = { s.croft n with store := ((s.loadRegion d p e).croft n).store } := by
      rw [State.loadRegion_croft]
      split
      · exact Croft.regionLoaded_store _ _ _
      · rfl
    rw [State.regionsLoaded_cons, ih, hone]

theorem State.regionsLoaded_below (s : State) (d n : Nat) (p : PatternImage) (l : List (Nat × Nat)) (b : Nat) (hb : b < 0x18000)
    (hhot : ∀ h ∈ p.hot, 0x18000 ≤ h.copies) : ((s.regionsLoaded d p l).croft n).store.get b = (s.croft n).store.get b := by
  induction l generalizing s with
  | nil => rfl
  | cons e l ih =>
    rw [State.regionsLoaded_cons, ih, State.loadRegion_croft]
    split
    · exact Croft.regionLoaded_below _ _ _ _ hb hhot
    · rfl

theorem State.regionsLoaded_off (s : State) (d n : Nat) (p : PatternImage) (l : List (Nat × Nat)) (hn : croftDie n ≠ d)
    (hl : ∀ e ∈ l, ∃ r j : Fin 32, e = (r.val, j.val)) : (s.regionsLoaded d p l).croft n = s.croft n := by
  induction l generalizing s with
  | nil => rfl
  | cons e l ih =>
    obtain ⟨r, j, rfl⟩ := hl e (.head _)
    rw [State.regionsLoaded_cons, ih _ fun e he => hl e (.tail _ he), State.loadRegion_croft, if_neg]
    intro h
    exact hn (h ▸ s.croftDie_physOf d r j)

/-- The single region of a pattern without hot rows is in its croft once it was written, whatever else is loaded. -/
theorem State.regionsLoaded_own (s : State) (d : Nat) (p : PatternImage) (l : List (Nat × Nat)) (r : RegionImage) (hhot : p.hot = [])
    (hr : p.regions = [r]) (hdistinct : (r.lines.map (·.1)).Nodup) (e : Nat × BitVec 8) (he : e ∈ r.lines)
    (h : (r.row.val, r.lcol.val) ∈ l ∨ (s.croft (s.physOf d r.row.val r.lcol.val)).store.get (0x18000 + e.1) = e.2) :
    ((s.regionsLoaded d p l).croft (s.physOf d r.row.val r.lcol.val)).store.get (0x18000 + e.1) = e.2 := by
  induction l generalizing s with
  | nil => exact h.resolve_left List.not_mem_nil
  | cons x l ih =>
    rw [State.regionsLoaded_cons, ← s.loadRegion_physOf d p x d r.row.val r.lcol.val]
    refine ih _ ?_
    rw [State.loadRegion_physOf, State.loadRegion_croft, Croft.regionLoaded_cold _ _ _ hhot]
    by_cases hx : x = (r.row.val, r.lcol.val)
    · rw [hx, if_pos rfl]
      exact .inr (Croft.writeRegion_own _ p r hr hdistinct e he)
    · rw [Croft.writeRegion_other _ p r hr x hx, ite_self]
      exact h.imp_left fun h => (List.mem_cons.1 h).resolve_left (Ne.symm hx)

/-! ### LOAD_COMPLETE -/

/-- The crofts of a die as a completed load of a pattern leaves them. -/
def State.croftsLoaded (s : State) (d : Nat) (p : PatternImage) : State := (s.padsCleared d).regionsLoaded d p (patternCrofts p)

theorem State.croftsLoaded_frame (s : State) (d : Nat) (p : PatternImage) :
    s.croftsLoaded d p = { s with crofts := (s.croftsLoaded d p).crofts } := by
  rw [State.croftsLoaded, State.regionsLoaded_frame, State.padsCleared_frame]

theorem State.padsCleared_croft (s : State) (d n : Nat) :
    (s.padsCleared d).croft n = if n ∈ s.croftsOf d then (s.croft n).clearPads else s.croft n :=
  State.croft_foldl_modCroft _ Croft.clearPads_idem _ _ _

theorem tget_unlisted {α : Type} (d : Nat → α) (t : Table α) (k : Nat) (h : k ∉ t.map (·.1)) : tget d t k = d k := by
  induction t with
  | nil => rfl
  | cons e t ih =>
    obtain ⟨j, v⟩ := e
    rw [List.map_cons, List.mem_cons, not_or] at h
    rw [tget, if_neg h.1, ih h.2]

/-- Once the pads of a die are cleared, those of every croft of it are empty. -/
theorem State.padsCleared_pads (s : State) (d n : Nat) (hn : croftDie n = d) :
    ((s.padsCleared d).croft n).actPad = [] ∧ ((s.padsCleared d).croft n).psPad = [] := by
  rw [State.padsCleared_croft]
  by_cases h : n ∈ s.croftsOf d
  · rw [if_pos h]
    exact ⟨rfl, rfl⟩
  · have hlist : n ∉ s.crofts.map (·.1) := fun hl => h (List.mem_filter.2 ⟨hl, by simpa using hn⟩)
    rw [if_neg h, State.croft, tget_unlisted _ _ _ hlist]
    exact ⟨rfl, rfl⟩

theorem State.padsCleared_store (s : State) (d n : Nat) : ((s.padsCleared d).croft n).store = (s.croft n).store := by
  rw [State.padsCleared_croft]
  split <;> rfl

theorem State.padsCleared_off (s : State) (d n : Nat) (hn : croftDie n ≠ d) : (s.padsCleared d).croft n = s.croft n := by
  rw [State.padsCleared_croft, if_neg]
  intro h
  exact hn (by simpa using (List.mem_filter.1 h).2)

theorem State.padsCleared_physOf (s : State) (d k r j : Nat) : (s.padsCleared d).physOf k r j = s.physOf k r j :=
  foldl_keeps (fun t : State => t.physOf k r j) _ _ _ fun t n => t.physOf_modCroft n Croft.clearPads (fun _ => ⟨rfl, rfl⟩) k r j

/-- A die whose load of a pattern is complete (R216, R238). -/
def Die.loaded (x : Die) (p : PatternImage) (patches : List (Nat × Nat × Nat)) : Die :=
  { x.clearGranary with
    powerAct := p.powerAct, powerPs := p.powerPs
    powerGran := p.powerGran.foldl (fun t e => tput (fun _ => 0) t e.1 e.2) []
    patches := patches, loadDone := true }

/-- A state whose sessions hold no lanes on a die. -/
def State.lanesDropped (s : State) (d : Nat) : State :=
  { s with serve := { s.serve with sessions := tmap (fun _ => {}) (fun _ x => x.dropLanes d) s.serve.sessions } }

theorem State.lanesDropped_sess (s : State) (d x : Nat) : (s.lanesDropped d).sess x = (s.sess x).dropLanes d := by
  obtain h | ⟨h, h'⟩ := tget_tmap (fun _ : Nat => ({} : Session)) (fun _ x => x.dropLanes d) s.serve.sessions x
  · exact h
  · exact h.trans (congrArg (Session.dropLanes · d) h').symm

/-- The state once a load of a pattern is complete. -/
def State.loadCompleted (s : State) (d : Nat) (p : PatternImage) : State :=
  ((s.croftsLoaded d p).lanesDropped d).modDie d fun x => x.loaded p (s.mapPatches d)

theorem exec_loadComplete_none (s : State) (d : DieId) (e : Nat) (h : (s.die d.val).loading = none) :
    exec (.loadComplete d e) s = .next s := by
  change execLoadComplete d e s = _
  unfold execLoadComplete
  dsimp only
  rw [h]

theorem exec_loadComplete_stale (s : State) (d : DieId) (e : Nat) (p : PatternImage) (h : (s.die d.val).loading = some p)
    (he : e ≠ (s.die d.val).epoch.toNat) : exec (.loadComplete d e) s = .next s := by
  change execLoadComplete d e s = _
  unfold execLoadComplete
  dsimp only
  rw [h]
  exact if_pos he.symm

theorem exec_loadComplete (s : State) (d : DieId) (p : PatternImage) (h : (s.die d.val).loading = some p) :
    exec (.loadComplete d (s.die d.val).epoch.toNat) s = .next (s.loadCompleted d.val p) := by
  change execLoadComplete d _ s = _
  unfold execLoadComplete
  dsimp only
  rw [h]
  exact if_neg (not_not.2 rfl)

theorem State.loadCompleted_die (s : State) (d e : Nat) (p : PatternImage) :
    (s.loadCompleted d p).die e = if e = d then (s.die d).loaded p (s.mapPatches d) else s.die e := by
  rw [State.loadCompleted, State.die_modDie, State.croftsLoaded_frame]
  rfl

theorem State.loadCompleted_sess (s : State) (d x : Nat) (p : PatternImage) :
    (s.loadCompleted d p).sess x = (s.sess x).dropLanes d := by
  have h : (s.loadCompleted d p).sess x = ((s.croftsLoaded d p).lanesDropped d).sess x := rfl
  rw [h, State.lanesDropped_sess, State.croftsLoaded_frame]
  rfl

theorem State.modDie_frame (u : State) (d : Nat) (f : Die → Die) : u.modDie d f = { u with dies := (u.modDie d f).dies } := rfl

theorem State.loadCompleted_croft (s : State) (d n : Nat) (p : PatternImage) :
    (s.loadCompleted d p).croft n = (s.croftsLoaded d p).croft n := by
  rw [State.loadCompleted, State.modDie_frame, State.lanesDropped, State.croft, State.croft]

theorem State.loadCompleted_frame (s : State) (d : Nat) (p : PatternImage) :
    s.loadCompleted d p = { s with dies := (s.loadCompleted d p).dies, crofts := (s.loadCompleted d p).crofts,
                                   serve := { s.serve with sessions := (s.loadCompleted d p).serve.sessions } } := by
  unfold State.loadCompleted
  rw [State.croftsLoaded_frame]
  rfl

theorem State.croftsLoaded_pads (s : State) (d n : Nat) (p : PatternImage) (hn : croftDie n = d) :
    ((s.croftsLoaded d p).croft n).actPad = [] ∧ ((s.croftsLoaded d p).croft n).psPad = [] := by
  rw [State.croftsLoaded, State.regionsLoaded_croft]
  exact s.padsCleared_pads d n hn

/-! ### Writes of DIE.PAT_LOAD -/

theorem State.storeFields_die (s : State) (p : Page) (off : Nat) (v : Word) (e : Nat) : (s.storeFields p off v).die e = s.die e := by
  rw [State.storeFields_frame, State.die, State.die]

theorem exec_patLoadGo_answers (s : State) (d : DieId) (v : Word) (i : PatternImage) (h : s.answers = true) :
    exec (.patLoadGo d v i) s = .next (s.writePatLoad d.val v (s.patternNamed v (some i))).1 :=
  s.access_answers (.patLoadGo d v i) (fun t => (t.writePatLoad d.val v (t.patternNamed v (some i))).1) h

theorem exec_patLoadUnload_answers (s : State) (d : DieId) (v : Word) (h : s.answers = true) :
    exec (.patLoadUnload d v) s = .next (s.writePatLoad d.val v (s.patternNamed v)).1 :=
  s.access_answers (.patLoadUnload d v) (fun t => (t.writePatLoad d.val v (t.patternNamed v)).1) h

theorem State.writePatLoad_both (s : State) (d : Nat) (v : Word) (p : PatternImage) (hgo : v.bit 0 = true) (hun : v.bit 1 = true) :
    s.writePatLoad d v p = s.refuse (.die d) 0x108 .format :=
  if_pos ⟨hgo, hun⟩

theorem State.writePatLoad_begins (s : State) (d : Nat) (v : Word) (p : PatternImage) (hgo : v.bit 0 = true) (hun : v.bit 1 = false)
    (hcheck : s.loadCheck d p (v.field 12 36 * 4096) (v.field 48 16) = none) :
    s.writePatLoad d v p = ok ((s.storeFields (.die d) 0x108 v).beginLoad d p false) := by
  unfold State.writePatLoad
  dsimp only
  rw [if_neg (by simp [hun]), if_pos hgo, hcheck]

theorem State.writePatLoad_fails (s : State) (d : Nat) (v : Word) (p : PatternImage) (hgo : v.bit 0 = true) (hun : v.bit 1 = false)
    (c : Code) (hcheck : s.loadCheck d p (v.field 12 36 * 4096) (v.field 48 16) = some c) :
    s.writePatLoad d v p = ok ((s.storeFields (.die d) 0x108 v).logError (.die d) c ((Page.die d).base + 0x108) 4 d) := by
  unfold State.writePatLoad
  dsimp only
  rw [if_neg (by simp [hun]), if_pos hgo, hcheck]

theorem State.writePatLoad_busy (s : State) (d : Nat) (v : Word) (p : PatternImage) (hgo : v.bit 0 = false) (hun : v.bit 1 = true)
    (hstep : s.stepOnDie d = true) : s.writePatLoad d v p = s.refuse (.die d) 0x108 .busy := by
  unfold State.writePatLoad
  dsimp only
  rw [if_neg (by simp [hgo]), if_neg (by simp [hgo]), if_pos hun, if_pos hstep]

/-- A die that was asked to unload its pattern (R240). -/
def Die.unloading (x : Die) : Die := { x with unloadAsked := true, unloadLoad := x.loading.isSome }

theorem State.writePatLoad_unloads (s : State) (d : Nat) (v : Word) (p : PatternImage) (hgo : v.bit 0 = false) (hun : v.bit 1 = true)
    (hstep : s.stepOnDie d = false) :
    s.writePatLoad d v p = ok ((s.storeFields (.die d) 0x108 v).modDie d Die.unloading) := by
  unfold State.writePatLoad
  dsimp only
  rw [if_neg (by simp [hgo]), if_neg (by simp [hgo]), if_pos hun, if_neg (by simp [hstep])]
  rfl

/-- Every slice lease of a die has ended. -/
theorem Die.revokeAll_lease (x : Die) (k : Nat) : (x.revokeAll.lease k).held = false := by
  have hfind : ∀ t : Table Lease, (tget (fun _ => {}) (t.map fun e : Nat × Lease => (e.1, e.2.finish)) k).held = false := by
    intro t
    induction t with
    | nil => rfl
    | cons e t ih =>
      obtain ⟨j, l⟩ := e
      rw [List.map_cons, tget]
      split
      · exact l.finish_held
      · exact ih
  exact hfind x.leases

/-- What a load that begins leaves in its die. -/
theorem State.beginLoad_die (u : State) (d : Nat) (p : PatternImage) :
    (u.beginLoad d p false).die d = { (u.die d).revokeAll with
      loading := some p, loadingSwitch := false, loadDone := false, loadClean := true, unloadLoad := false, epoch := (u.die d).epoch + 1 } :=
  u.die_modDie_self d _

theorem State.beginLoad_die_ne (u : State) (d e : Nat) (p : PatternImage) (h : e ≠ d) : (u.beginLoad d p false).die e = u.die e :=
  u.die_modDie_ne _ h

theorem State.beginLoad_frame (u : State) (d : Nat) (p : PatternImage) :
    u.beginLoad d p false = { u with dies := (u.beginLoad d p false).dies } := rfl

theorem State.beginLoad_regAt (u : State) (d a : Nat) (p : PatternImage) : (u.beginLoad d p false).regAt a = u.regAt a := rfl

/-- The checks of R236 that a load passes. -/
theorem State.loadCheck_passes (s : State) (d : Nat) (p : PatternImage) (base len4k : Nat) (hstep : s.stepOnDie d = false)
    (hpatch : (s.die d).patchBusy = false) (hjobs : (s.die d).spareJobs = []) (hload : (s.die d).loading = none) (hlen : len4k ≠ 0)
    (hrange : s.checkRange base (4096 * len4k) = none) (hpoison : s.poisonIn base (4096 * len4k) = false)
    (hdigest : s.imageDigestAt base (4096 * len4k) = p.imageDigest) (hheader : headerOk p d = true)
    (hrev : p.dieRevision = s.pkg.dieRevision) (hrole : p.role = s.pkg.role) (hroles : s.pkg.role = 1 ∨ s.pkg.role = 2 ∨ s.pkg.role = 4)
    (hmode : p.memMode = b2n (s.die d).mapMode)
    (hrecords : ∀ n ∈ s.usedCrofts d p, (s.croft n).digest = p.ingotDigest ∧ (s.croft n).generation = p.generation)
    (hregions : regionsOk p (4096 * len4k) = true) (htimes : timesOk p s.pkg.bellNs = true) (hschedule : scheduleOk p = true)
    (hcontents : contentsOk p = true) (hpos : s.positionsOk d p = true) : s.loadCheck d p base len4k = none := by
  have hone : max (4096 * len4k) 1 = 4096 * len4k := by omega
  have hall : ((s.usedCrofts d p).all fun n => (s.croft n).digest == p.ingotDigest && (s.croft n).generation == p.generation) = true := by
    simpa using hrecords
  have himage : s.imageChecks d p base len4k true = none := by
    unfold State.imageChecks
    dsimp only
    rw [hone, hrange, if_neg (by simp), if_neg (by simp [hlen]), if_neg (by simp [hpoison]), if_neg (by simp [hdigest, hheader]),
      if_neg (by simp [hrev]), if_neg (by simpa [hrole] using fun h1 h2 => (hroles.resolve_left h1).resolve_left h2),
      if_neg (by simp [hmode]), if_neg (by simp [hall]), if_neg (by simp [hregions]), if_neg (by simp [htimes, hschedule, hcontents])]
  unfold State.loadCheck
  dsimp only
  rw [if_neg (by simp [hstep, hpatch, hjobs, hload]), himage]
  exact if_pos hpos

end Sys2Proof.Machine
end

section
open Sys2Proof Sys2Proof.Machine

/-- Settles O58: the checks of a load one by one, and what its completion writes croft by croft. -/
theorem patternLoadsAreCheckedAndComplete : Obligations.PatternLoadsAreCheckedAndComplete := by
  unfold Obligations.PatternLoadsAreCheckedAndComplete
  rintro s d v i p rfl
  have hstored (e : Nat) : (s.storeFields (.die d.val) 0x108 v).die e = s.die e := s.storeFields_die _ _ v e
  refine ⟨fun hs => ⟨?begins, ?fails, ?both, ?busy, ?unloads⟩, fun p hp => ⟨?completes, fun e he => exec_loadComplete_stale s d e p hp he⟩,
    fun e h => exec_loadComplete_none s d e h⟩
  case begins =>
    intro hgo hun hstep hpatch hjobs hload hlen hrange hpoison hdigest hheader hrev hrole hroles hmode hrecords hregions htimes hschedule
      hcontents hpos
    have hcheck := s.loadCheck_passes d.val _ _ _ hstep hpatch hjobs hload hlen hrange hpoison hdigest hheader hrev hrole hroles hmode
      hrecords hregions htimes hschedule hcontents hpos
    have hexec := exec_patLoadGo_answers s d v i hs
    rw [s.writePatLoad_begins d.val v _ hgo hun hcheck] at hexec
    have hdie := (s.storeFields (.die d.val) 0x108 v).beginLoad_die d.val (s.patternNamed v (some i))
    rw [hstored] at hdie
    refine ⟨_, hexec, ?_, ?_, ?_, ?_, fun k => ?_, fun e he => ?_, ?_, fun a ha => ?_⟩
    · rw [ok, hdie]
    · rw [ok, hdie]
    · rw [ok, hdie]
    · rw [ok, hdie]
      rfl
    · rw [ok, hdie]
      exact Die.revokeAll_lease _ k
    · rw [ok, State.beginLoad_die_ne _ _ _ _ he, hstored]
    · rw [ok, State.beginLoad_frame, State.storeFields_frame]
    · rw [ok, State.beginLoad_regAt, State.storeFields_regAt_ne _ _ _ _ ha]
  case fails =>
    intro e hgo hun hcheck
    have hexec := exec_patLoadGo_answers s d v i hs
    rw [s.writePatLoad_fails d.val v _ hgo hun e hcheck] at hexec
    exact ⟨_, hexec, State.logError_logged _ _ _ _ _ _ _ (base_ne_lost _ (base_aligned _))⟩
  case both =>
    intro hgo hun
    exact ⟨refused_of_written (exec_patLoadGo_answers s d v i hs) (s.writePatLoad_both d.val v _ hgo hun),
      refused_of_written (exec_patLoadUnload_answers s d v hs) (s.writePatLoad_both d.val v _ hgo hun)⟩
  case busy =>
    intro hgo hun hstep
    exact refused_of_written (exec_patLoadUnload_answers s d v hs) (s.writePatLoad_busy d.val v _ hgo hun hstep)
  case unloads =>
    intro hgo hun hstep
    have hexec := exec_patLoadUnload_answers s d v hs
    rw [s.writePatLoad_unloads d.val v _ hgo hun hstep] at hexec
    refine ⟨_, hexec, ?_, fun e he => ?_, ?_⟩
    · rw [ok, State.die_modDie_self, hstored]
      rfl
    · rw [ok, State.die_modDie_ne _ _ he, hstored]
    · rw [ok, State.modDie_frame, State.storeFields_frame]
  case completes =>
    have hdie := s.loadCompleted_die d.val d.val p
    rw [if_pos rfl] at hdie
    refine ⟨_, exec_loadComplete s d p hp, ?_, ?_, ?_, ?_, fun b => ?_, fun n hn b => ?_, fun hhot n b hb => ?_, fun r hhot hr hdistinct e he => ?_,
      fun n hn => ?_, fun x => s.loadCompleted_sess d.val x p, fun e he => ?_, s.loadCompleted_frame d.val p⟩
    · rw [hdie]
      rfl
    · rw [hdie]
      exact hp
    · rw [hdie]
      rfl
    · rw [hdie]
      rfl
    · rw [hdie]
      rfl
    · obtain ⟨hact, hps⟩ := s.croftsLoaded_pads d.val n p hn
      rw [State.loadCompleted_croft, hact, hps]
      exact ⟨rfl, rfl⟩
    · rw [State.loadCompleted_croft, State.croftsLoaded, State.regionsLoaded_below _ _ _ _ _ _ hb hhot, State.padsCleared_store]
    · rw [State.loadCompleted_croft, State.croftsLoaded, ← s.padsCleared_physOf d.val]
      exact State.regionsLoaded_own _ _ p _ r hhot hr hdistinct e he (.inl (region_mem_patternCrofts p r hr))
    · rw [State.loadCompleted_croft, State.croftsLoaded, State.regionsLoaded_off _ _ _ _ _ hn fun e he => patternCrofts_fin p he,
        State.padsCleared_off _ _ _ hn]
    · rw [State.loadCompleted_die, if_neg he]

end

section
/-!
DIE.FENCE_REQ and DIE.RECAST_REQ (R74, R250, R251, R254, R256, R503, R504): the croft that a request names, its coordinate and its
successor.
-/
namespace Sys2Proof.Machine

/-! ### A fence croft by croft -/

/-- The croft that a fence request names. -/
def fenceCroft (d : Nat) (v : Word) : Nat := 2048 * d + 64 * v.field 8 5 + v.field 0 6

theorem fenceCroft_place (d : Nat) (v : Word) (h : v.field 0 6 ≤ 33) :
    croftDie (fenceCroft d v) = d ∧ croftRow (fenceCroft d v) = v.field 8 5 ∧ croftCol (fenceCroft d v) = v.field 0 6 := by
  have hrow := v.field_lt 8 5
  unfold fenceCroft croftDie croftRow croftCol
  omega

theorem State.fenceOnly_frame (s : State) (n : Nat) :
    s.fenceOnly n = { s with regs := (s.fenceOnly n).regs, stew := (s.fenceOnly n).stew, dies := (s.fenceOnly n).dies,
                             crofts := (s.fenceOnly n).crofts } :=
  (s.fenceOnly_fenced n).frame

theorem State.fenceOnly_croft (s : State) (n k : Nat) :
    (s.fenceOnly n).croft k = if k = n then (s.croft n).fencedOff else s.croft k :=
  ((s.fenceOnly_logged n).croft k).trans (s.croft_modCroft n k _)

theorem State.fenceOnly_die (s : State) (n e : Nat) : (s.fenceOnly n).die e = if e = croftDie n then
    { s.die e with quenchCrofts := (s.die e).quenchCrofts ++ [n], spareJobs := (s.die e).spareJobs.filter fun j => j.spare != n }
    else s.die e := by
  rw [(s.fenceOnly_logged n).die, State.fenceMarked, State.die_modDie]
  split
  next h => rw [h, State.modCroft_die]
  next => rw [State.modCroft_die]

theorem State.fenceOnly_service (s : State) (n k : Nat) : (s.fenceOnly n).service k = if k = n then .fenced else s.service k := by
  by_cases hk : k = n
  · rw [if_pos hk, State.service, State.fenceOnly_croft, if_pos hk]
    rfl
  · rw [if_neg hk, State.service, State.fenceOnly_croft, if_neg hk, State.service]

/-- The fenced croft itself is no spare of its row any more; the others are as before (R251, R256). -/
theorem State.fenceOnly_freeSpares (s : State) (n row : Nat) :
    (s.fenceOnly n).freeSpareCrofts (croftDie n) row = (s.freeSpareCrofts (croftDie n) row).filter fun k => k != n := by
  unfold State.freeSpareCrofts
  rw [List.filter_filter]
  refine List.filter_congr fun k _ => ?_
  rw [State.fenceOnly_service, State.fenceOnly_die, if_pos rfl]
  by_cases hk : k = n
  · simp [hk]
  · rw [if_neg hk, List.any_filter]
    have hjob (j : SpareJob) : (j.spare != n && j.spare == k) = (j.spare == k) := by
      by_cases hj : j.spare = k <;> simp [hj, hk]
    simp [hjob, hk]

/-! ### The coordinate of a fenced croft -/

/-- The spare that a coordinate goes to: powered, zero-filled, and with the pattern region of the coordinate (R251). -/
def State.spareFilled (s : State) (n row col : Nat) (c : Croft) : Croft :=
  match (s.die (croftDie n)).pattern with
  | some q => (c.zeroFilled.writeRegion q row col).copyHot q row col (s.croft n)
  | none => c.zeroFilled

theorem Croft.copyHot_store (c : Croft) (p : PatternImage) (row col : Nat) (src : Croft) :
    c.copyHot p row col src = { c with store := (c.copyHot p row col src).store } := by
  have hsome : ∃ store, c.copyHot p row col src = { c with store := store } := by
    unfold Croft.copyHot
    refine List.foldlRecOn _ _ (motive := fun k : Croft => ∃ store, k = { c with store := store }) ⟨_, rfl⟩ fun k hk h _ => ?_
    obtain ⟨store, rfl⟩ := hk
    exact ⟨_, rfl⟩
  obtain ⟨store, h⟩ := hsome
  rw [h]

theorem State.spareFilled_pads (s : State) (n row col : Nat) (c : Croft) :
    (s.spareFilled n row col c).actPad = [] ∧ (s.spareFilled n row col c).psPad = [] := by
  unfold State.spareFilled
  split
  · rw [Croft.copyHot_store, Croft.writeRegion_store]
    exact ⟨rfl, rfl⟩
  · exact ⟨rfl, rfl⟩

theorem State.spareFilled_store (s : State) (n row col : Nat) (c : Croft) (h : (s.die (croftDie n)).pattern = none) :
    (s.spareFilled n row col c).store = [] := by
  rw [State.spareFilled, h]
  rfl

theorem State.takeCoordinate_none (s : State) (n col : Nat)
    (h : nearerSpare (s.freeSpareCrofts (croftDie n) (croftRow n)) (croftCol n) = none) : s.takeCoordinate n col = s.degrade (croftDie n) := by
  unfold State.takeCoordinate
  dsimp only
  rw [h]

/-- The spare a coordinate goes to and its job (R251). -/
def State.coordinateTaken (s : State) (n col p : Nat) : State :=
  (s.modCroft p (s.spareFilled n (croftRow n) col)).modDie (croftDie n) fun x =>
    { x with spareJobs := x.spareJobs ++ [{ row := croftRow n, column := col, spare := p, fenced := n }] }

theorem State.takeCoordinate_some (s : State) (n col p : Nat)
    (h : nearerSpare (s.freeSpareCrofts (croftDie n) (croftRow n)) (croftCol n) = some p) :
    s.takeCoordinate n col = s.coordinateTaken n col p := by
  unfold State.takeCoordinate
  dsimp only
  rw [h]
  rfl

theorem State.coordinateTaken_croft (s : State) (n col p k : Nat) :
    (s.coordinateTaken n col p).croft k = if k = p then s.spareFilled n (croftRow n) col (s.croft p) else s.croft k := by
  rw [State.coordinateTaken, State.modDie_croft, State.croft_modCroft]

theorem State.coordinateTaken_die (s : State) (n col p e : Nat) : (s.coordinateTaken n col p).die e = if e = croftDie n then
    { s.die e with spareJobs := (s.die e).spareJobs ++ [{ row := croftRow n, column := col, spare := p, fenced := n }] } else s.die e := by
  rw [State.coordinateTaken, State.die_modDie, State.modCroft_die, State.modCroft_die]
  split
  next h => rw [h]
  next => rfl

/-! ### Fence requests -/

theorem exec_fenceReq_answers (s : State) (d : DieId) (v : Word) (h : s.answers = true) :
    exec (.fenceReq d v) s = .next (s.writeFenceReq d.val v).1 :=
  s.access_answers (.fenceReq d v) (fun t => (t.writeFenceReq d.val v).1) h

theorem State.writeFenceReq_length (s : State) (d : Nat) (v : Word) (h : 33 < v.field 0 6) :
    s.writeFenceReq d v = s.refuse (.die d) 0x110 .length :=
  if_pos h

theorem exec_fenceReq_fences (s : State) (d : DieId) (v : Word) (hs : s.answers = true) (h : v.field 0 6 ≤ 33) :
    exec (.fenceReq d v) s = .next (s.fence (fenceCroft d.val v)) :=
  (exec_fenceReq_answers s d v hs).trans (congrArg (fun w : Written => Host.Outcome.next w.1) (if_neg (by omega)))

theorem State.fence_already (s : State) (n : Nat) (h : s.service n = .fenced) : s.fence n = s := if_pos h

/-- A croft whose coordinate goes on. -/
theorem State.fence_coordinate (s : State) (n col : Nat) (h : s.service n ≠ .fenced) (hcol : s.columnOf n = some col) :
    s.fence n = (s.fenceOnly n).takeCoordinate n col := by
  have horphan : s.orphaned n = [col] := by
    unfold State.orphaned
    rw [State.columnOf] at hcol
    rw [hcol]
  rw [State.fence, if_neg h, horphan]
  rfl

/-- A spare that neither holds nor awaits a coordinate only leaves the stock (R256). -/
theorem State.fence_spare (s : State) (n : Nat) (h : s.service n ≠ .fenced) (hspare : isSpareColumn (croftCol n) = true)
    (hcol : (s.croft n).spareColumn = none) (hjobs : ∀ j ∈ (s.die (croftDie n)).spareJobs, j.spare ≠ n) : s.fence n = s.fenceOnly n := by
  have hnone : ((s.die (croftDie n)).spareJobs.filter fun j => j.spare == n) = [] :=
    List.filter_eq_nil_iff.2 fun j hj => by simpa using hjobs j hj
  have horphan : s.orphaned n = [] := by
    unfold State.orphaned
    rw [if_pos hspare, hcol]
    exact congrArg (List.map SpareJob.column) hnone
  rw [State.fence, if_neg h, horphan]
  rfl

/-! ### Recast requests -/

/-- The croft that a recast request names. -/
def recastNamed (d : Nat) (v : Word) : Nat := 2048 * d + 64 * v.field 8 5 + v.field 16 6

/-- A write of every due mould names the croft that the value names, with bit 4 set. -/
theorem recastAll_word (v : Word) : (v ||| 16).field 8 5 = v.field 8 5 ∧ (v ||| 16).field 16 6 = v.field 16 6 ∧ (v ||| 16).bit 4 = true := by
  have h8 : (16 : Word).field 8 5 = 0 := by decide
  have h16 : (16 : Word).field 16 6 = 0 := by decide
  have hbit : (16 : Word).bit 4 = true := by decide
  refine ⟨?_, ?_, ?_⟩
  · rw [Word.field_or, h8, Nat.or_zero]
  · rw [Word.field_or, h16, Nat.or_zero]
  · rw [Word.bit] at hbit ⊢
    rw [BitVec.toNat_or, Nat.testBit_or, hbit, Bool.or_true]

theorem recastNamed_all (d : Nat) (v : Word) : recastNamed d (v ||| 16) = recastNamed d v := by
  obtain ⟨h8, h16, -⟩ := recastAll_word v
  rw [recastNamed, h8, h16, recastNamed]

theorem exec_recastMould_answers (s : State) (d : DieId) (v : Word) (h : s.answers = true) :
    exec (.recastMould d v) s = .next (s.writeRecastReq d.val v).1 :=
  s.access_answers (.recastMould d v) (fun t => (t.writeRecastReq d.val v).1) h

theorem exec_recastAll_answers (s : State) (d : DieId) (v : Word) (h : s.answers = true) :
    exec (.recastAll d v) s = .next (s.writeRecastReq d.val (v ||| 16)).1 :=
  s.access_answers (.recastAll d v) (fun t => (t.writeRecastReq d.val (v ||| 16)).1) h

theorem State.writeRecastReq_length (s : State) (d : Nat) (v : Word) (h : 33 < v.field 16 6) :
    s.writeRecastReq d v = s.refuse (.die d) 0x118 .length :=
  if_pos h

theorem State.writeRecastReq_role (s : State) (d : Nat) (v : Word) (h : v.field 16 6 ≤ 33) (hrole : s.pkg.role = 3) :
    s.writeRecastReq d v = s.refuse (.die d) 0x118 .role :=
  (if_neg (by omega)).trans (if_pos hrole)

theorem State.writeRecastReq_state (s : State) (d : Nat) (v : Word) (h : v.field 16 6 ≤ 33) (hrole : s.pkg.role ≠ 3)
    (hserve : s.service (recastNamed d v) ≠ .inService) : s.writeRecastReq d v = s.refuse (.die d) 0x118 .state :=
  (if_neg (by omega)).trans ((if_neg hrole).trans (if_pos hserve))

theorem State.writeRecastReq_busy (s : State) (d : Nat) (v : Word) (h : v.field 16 6 ≤ 33) (hrole : s.pkg.role ≠ 3)
    (hserve : s.service (recastNamed d v) = .inService) (hbusy : (s.croft (recastNamed d v)).castBusy = true) :
    s.writeRecastReq d v = s.refuse (.die d) 0x118 .busy :=
  (if_neg (by omega)).trans ((if_neg hrole).trans ((if_neg (not_not.2 hserve)).trans (if_pos hbusy)))

theorem State.writeRecastReq_queues (s : State) (d : Nat) (v : Word) (h : v.field 16 6 ≤ 33) (hrole : s.pkg.role ≠ 3)
    (hserve : s.service (recastNamed d v) = .inService) (hbusy : (s.croft (recastNamed d v)).castBusy = false) :
    s.writeRecastReq d v =
      ok (s.modCroft (recastNamed d v) fun c => { c with recasts := if v.bit 4 then c.dueMoulds else [v.field 0 4] }) :=
  (if_neg (by omega)).trans ((if_neg hrole).trans ((if_neg (not_not.2 hserve)).trans (if_neg (ne_true_of_eq_false hbusy))))

/-- What a recast request that is refused with a code answers for every due mould too. -/
theorem recasts_refused (s : State) (d : DieId) (v : Word) (e : Code) (hs : s.answers = true)
    (hone : s.writeRecastReq d.val v = s.refuse (.die d.val) 0x118 e) (hall : s.writeRecastReq d.val (v ||| 16) = s.refuse (.die d.val) 0x118 e) :
    Refused (.recastMould d v) s (.die d.val) e ∧ Refused (.recastAll d v) s (.die d.val) e :=
  ⟨refused_of_written (exec_recastMould_answers s d v hs) hone, refused_of_written (exec_recastAll_answers s d v hs) hall⟩

end Sys2Proof.Machine
end

section
/-!
QUENCH_INTERVAL (R220 to R223, R250): a quench only zeroes; what it names is zero at its end, and what it does not name stays.
-/
namespace Sys2Proof.Machine

/-! ### Zeroing -/

/-- What one element of a list brings about, and no element undoes, holds after all of them. -/
theorem foldl_reaches {α β : Type} (P : β → Prop) (f : β → α → β) (l : List α) (b : β) (x : α) (hx : x ∈ l) (hreach : ∀ c, P (f c x))
    (hkeep : ∀ c y, P c → P (f c y)) : P (l.foldl f b) := by
  induction l generalizing b with
  | nil => cases hx
  | cons y l ih =>
    cases hx with
    | head => exact l.foldlRecOn f (hreach b) fun c hc y _ => hkeep c y hc
    | tail _ hx => exact ih (f b y) hx

/-- A byte that is zero in a memory is zero in the other. -/
def Memory.Zeroed (m k : Memory) : Prop := ∀ b, m.get b = 0 → k.get b = 0

theorem Memory.Zeroed.refl (m : Memory) : m.Zeroed m := fun _ h => h

theorem Memory.zeroed_nil (m : Memory) : m.Zeroed [] := fun _ _ => rfl

theorem Memory.clear_zeroed (m : Memory) (a n : Nat) : m.Zeroed (m.clear a n) := fun b h => by
  rw [Memory.get_clear, h, ite_self]

theorem Memory.get_clear_in (m : Memory) (a n i : Nat) (h : i < n) : (m.clear a n).get (a + i) = 0 := by
  rw [Memory.get_clear, if_pos ⟨Nat.le_add_right a i, by omega⟩]

/-- Dropping the listed bytes of some addresses zeroes them and no others. -/
theorem Memory.filter_zeroed (m : Memory) (f : Nat → Bool) : m.Zeroed (m.filter fun e => f e.1) := fun b h => by
  rw [Memory.get, tget_filter (fun _ => (0 : Byte)) m f b]
  split
  · exact h
  · rfl

/-- Pads and store of a croft are as they were, or zeroed in places. -/
structure Croft.Zeroed (c k : Croft) : Prop where
  act : c.actPad.Zeroed k.actPad
  ps : c.psPad.Zeroed k.psPad
  store : c.store.Zeroed k.store

theorem Croft.Zeroed.refl (c : Croft) : c.Zeroed c := ⟨.refl _, .refl _, .refl _⟩

theorem Croft.clearAct_zeroed (c : Croft) (row : Nat) : c.Zeroed (c.clearAct row) := ⟨Memory.clear_zeroed _ _ _, .refl _, .refl _⟩

theorem Croft.clearPs_zeroed (c : Croft) (phys row : Nat) : c.Zeroed (c.clearPs phys row) := ⟨.refl _, Memory.clear_zeroed _ _ _, .refl _⟩

/-- A croft with bytes of its store dropped (R223). -/
def Croft.clearStore (c : Croft) (a n : Nat) : Croft := { c with store := Memory.clear c.store a n }

theorem Croft.clearStore_zeroed (c : Croft) (a n : Nat) : c.Zeroed (c.clearStore a n) := ⟨.refl _, .refl _, Memory.clear_zeroed _ _ _⟩

theorem Croft.zeroFilled_zeroed (c : Croft) : c.Zeroed c.zeroFilled := ⟨Memory.zeroed_nil _, Memory.zeroed_nil _, Memory.zeroed_nil _⟩

/-- A step of the quench: it touches registers and crofts, and there it only zeroes. -/
structure State.Zeroed (s t : State) : Prop where
  frame : t = { s with regs := t.regs, crofts := t.crofts }
  croft : ∀ n, (s.croft n).Zeroed (t.croft n)

theorem State.Zeroed.die {s t : State} (h : s.Zeroed t) (d : Nat) : t.die d = s.die d := by
  rw [h.frame, State.die, State.die]

theorem State.Zeroed.trans {s t u : State} (a : s.Zeroed t) (b : t.Zeroed u) : s.Zeroed u where
  frame := by rw [b.frame, a.frame]
  croft n := ⟨fun i h => (b.croft n).act i ((a.croft n).act i h), fun i h => (b.croft n).ps i ((a.croft n).ps i h),
    fun i h => (b.croft n).store i ((a.croft n).store i h)⟩

theorem State.modCroft_zeroed (s : State) (n : Nat) (f : Croft → Croft) (hf : ∀ c : Croft, c.Zeroed (f c)) : s.Zeroed (s.modCroft n f) := by
  refine ⟨rfl, fun k => ?_⟩
  rw [State.croft_modCroft]
  split
  next h => exact h ▸ hf _
  next => exact .refl _

theorem State.bump_zeroed (s : State) (p : Page) (o k : Nat) : s.Zeroed (s.bump p o k) := ⟨rfl, fun _ => .refl _⟩

/-- What a list of steps keeps zero, step by step. -/
def State.KeepsZero (P : State → Prop) : Prop := ∀ s t : State, s.Zeroed t → P s → P t

theorem State.keepsZero_act (n b : Nat) : State.KeepsZero fun t => (t.croft n).actPad.get b = 0 := fun _ _ h => (h.croft n).act b

theorem State.keepsZero_ps (n b : Nat) : State.KeepsZero fun t => (t.croft n).psPad.get b = 0 := fun _ _ h => (h.croft n).ps b

theorem State.keepsZero_store (n b : Nat) : State.KeepsZero fun t => (t.croft n).store.get b = 0 := fun _ _ h => (h.croft n).store b

theorem State.KeepsZero.foldl {P : State → Prop} (hP : State.KeepsZero P) {α : Type} (f : State → α → State) (hf : ∀ (t : State) (x : α), t.Zeroed (f t x))
    (l : List α) (s : State) (h : P s) : P (l.foldl f s) :=
  l.foldlRecOn f h fun t ht x _ => hP t _ (hf t x) ht

theorem State.zeroed_foldl_frame {α : Type} (f : State → α → State) (hf : ∀ (t : State) (x : α), t.Zeroed (f t x)) (l : List α) (s : State) :
    l.foldl f s = { s with regs := (l.foldl f s).regs, crofts := (l.foldl f s).crofts } := by
  induction l generalizing s with
  | nil => rfl
  | cons x l ih => rw [List.foldl_cons, ih, (hf s x).frame]

theorem State.foldl_croft_off {α : Type} (f : State → α → State) (key : α → Nat) (n : Nat)
    (hf : ∀ t x, key x ≠ n → (f t x).croft n = t.croft n) (l : List α) (s : State) (h : ∀ x ∈ l, key x ≠ n) :
    (l.foldl f s).croft n = s.croft n :=
  l.foldlRecOn f (motive := fun t => t.croft n = s.croft n) rfl fun t ht x hx => (hf t x (h x hx)).trans ht

/-! ### The rows and lines of a set -/

/-- A pad row or store line of a croft zeroed. -/
def State.actRow (x : Die) (t : State) (e : Nat × Nat) : State := t.modCroft e.1 fun c => c.clearAct (x.padRow e.1 false e.2)

def State.psRow (x : Die) (t : State) (e : Nat × Nat) : State := t.modCroft e.1 fun c => c.clearPs (x.padRow e.1 true e.2) e.2

def State.storeLine (t : State) (e : Nat × Nat) : State := t.modCroft e.1 fun c => c.clearStore (256 * e.2) 256

theorem State.actRow_zeroed (x : Die) (t : State) (e : Nat × Nat) : t.Zeroed (State.actRow x t e) :=
  t.modCroft_zeroed _ _ fun c => c.clearAct_zeroed _

theorem State.psRow_zeroed (x : Die) (t : State) (e : Nat × Nat) : t.Zeroed (State.psRow x t e) :=
  t.modCroft_zeroed _ _ fun c => c.clearPs_zeroed _ _

theorem State.storeLine_zeroed (t : State) (e : Nat × Nat) : t.Zeroed (State.storeLine t e) :=
  t.modCroft_zeroed _ _ fun c => c.clearStore_zeroed _ _

/-- The crofts' part of a set, zeroed. -/
def State.rowsZeroed (s : State) (x : Die) (q : QuenchSet) : State :=
  q.lines.foldl State.storeLine (q.ps.foldl (State.psRow x) (q.act.foldl (State.actRow x) s))

theorem State.rowsZeroed_frame (s : State) (x : Die) (q : QuenchSet) : s.rowsZeroed x q = { s with crofts := (s.rowsZeroed x q).crofts } := by
  have hcroft {f : State → Nat × Nat → State} (hf : ∀ t e, f t e = { t with crofts := (f t e).crofts }) (l : List (Nat × Nat)) (s : State) :
      l.foldl f s = { s with crofts := (l.foldl f s).crofts } := by
    induction l generalizing s with
    | nil => rfl
    | cons e l ih => rw [List.foldl_cons, ih, hf]
  rw [State.rowsZeroed, hcroft (f := State.storeLine) (fun _ _ => rfl), hcroft (f := State.psRow x) (fun _ _ => rfl),
    hcroft (f := State.actRow x) fun _ _ => rfl]

theorem State.rowsZeroed_act (s : State) (x : Die) (q : QuenchSet) (e : Nat × Nat) (he : e ∈ q.act) (i : Nat) (hi : i < 512) :
    ((s.rowsZeroed x q).croft e.1).actPad.get (512 * x.padRow e.1 false e.2 + i) = 0 := by
  have hkeep := State.keepsZero_act e.1 (512 * x.padRow e.1 false e.2 + i)
  refine hkeep.foldl _ State.storeLine_zeroed _ _ (hkeep.foldl _ (State.psRow_zeroed x) _ _ ?_)
  refine foldl_reaches (fun t : State => (t.croft e.1).actPad.get _ = 0) _ _ _ e he (fun t => ?_) fun t y => hkeep _ _ (State.actRow_zeroed x t y)
  rw [State.actRow, State.croft_modCroft_self]
  exact Memory.get_clear_in _ _ _ _ hi

theorem State.rowsZeroed_ps (s : State) (x : Die) (q : QuenchSet) (e : Nat × Nat) (he : e ∈ q.ps) (i : Nat) (hi : i < 512) :
    ((s.rowsZeroed x q).croft e.1).psPad.get (512 * x.padRow e.1 true e.2 + i) = 0 := by
  have hkeep := State.keepsZero_ps e.1 (512 * x.padRow e.1 true e.2 + i)
  refine hkeep.foldl _ State.storeLine_zeroed _ _ ?_
  refine foldl_reaches (fun t : State => (t.croft e.1).psPad.get _ = 0) _ _ _ e he (fun t => ?_) fun t y => hkeep _ _ (State.psRow_zeroed x t y)
  rw [State.psRow, State.croft_modCroft_self]
  exact Memory.get_clear_in _ _ _ _ hi

theorem State.rowsZeroed_line (s : State) (x : Die) (q : QuenchSet) (e : Nat × Nat) (he : e ∈ q.lines) (i : Nat) (hi : i < 256) :
    ((s.rowsZeroed x q).croft e.1).store.get (256 * e.2 + i) = 0 := by
  have hkeep := State.keepsZero_store e.1 (256 * e.2 + i)
  refine foldl_reaches (fun t : State => (t.croft e.1).store.get _ = 0) _ _ _ e he (fun t => ?_) fun t y => hkeep _ _ (State.storeLine_zeroed t y)
  rw [State.storeLine, State.croft_modCroft_self]
  exact Memory.get_clear_in _ _ _ _ hi

theorem State.rowsZeroed_off (s : State) (x : Die) (q : QuenchSet) (n : Nat) (hact : ∀ e ∈ q.act, e.1 ≠ n) (hps : ∀ e ∈ q.ps, e.1 ≠ n)
    (hlines : ∀ e ∈ q.lines, e.1 ≠ n) : (s.rowsZeroed x q).croft n = s.croft n := by
  have hoff {f : State → Nat × Nat → State} (hf : ∀ t e, e.1 ≠ n → (f t e).croft n = t.croft n) (l : List (Nat × Nat)) (s : State)
      (h : ∀ e ∈ l, e.1 ≠ n) : (l.foldl f s).croft n = s.croft n := State.foldl_croft_off f (·.1) n hf l s h
  rw [State.rowsZeroed, hoff (f := State.storeLine) (fun t e he => t.croft_modCroft_ne _ (Ne.symm he)) _ _ hlines,
    hoff (f := State.psRow x) (fun t e he => t.croft_modCroft_ne _ (Ne.symm he)) _ _ hps,
    hoff (f := State.actRow x) (fun t e he => t.croft_modCroft_ne _ (Ne.symm he)) _ _ hact]

/-! ### Granary rows -/

/-- The granary rows of a list zeroed (R223). -/
def Die.rowsCleared (x : Die) (l : List Nat) : Die := l.foldl (fun (y : Die) r => y.clearRow (r / 2048) (r % 2048)) x

theorem Die.clearRow_granRow (x : Die) (slice row i r : Nat) : (x.clearRow slice row).granRow i r = x.granRow i r := rfl

theorem Die.rowsCleared_granRow (x : Die) (l : List Nat) (i r : Nat) : (x.rowsCleared l).granRow i r = x.granRow i r :=
  foldl_keeps (fun y : Die => y.granRow i r) _ l x fun _ _ => rfl

theorem Die.rowsCleared_frame (x : Die) (l : List Nat) :
    x.rowsCleared l = { x with granary := (x.rowsCleared l).granary, granBad := (x.rowsCleared l).granBad } := by
  have hsome : ∃ g b, x.rowsCleared l = { x with granary := g, granBad := b } := by
    unfold Die.rowsCleared
    refine List.foldlRecOn l _ (motive := fun y : Die => ∃ g b, y = { x with granary := g, granBad := b }) ⟨_, _, rfl⟩ fun y hy r _ => ?_
    obtain ⟨g, b, rfl⟩ := hy
    exact ⟨_, _, rfl⟩
  obtain ⟨g, b, h⟩ := hsome
  rw [h]

theorem Die.rowsCleared_zero (x : Die) (l : List Nat) (r : Nat) (hr : r ∈ l) (i : Nat) (hi : i < 512) :
    (x.rowsCleared l).granary.get (512 * x.granRow (r / 2048) (r % 2048) + i) = 0 := by
  have hall : (x.rowsCleared l).granRow (r / 2048) (r % 2048) = x.granRow (r / 2048) (r % 2048) ∧
      (x.rowsCleared l).granary.get (512 * (x.rowsCleared l).granRow (r / 2048) (r % 2048) + i) = 0 := by
    refine ⟨x.rowsCleared_granRow l _ _, ?_⟩
    refine foldl_reaches (fun y : Die => y.granary.get (512 * y.granRow (r / 2048) (r % 2048) + i) = 0) _ l x r hr (fun y => ?_)
      fun y k hy => Memory.clear_zeroed _ _ _ _ hy
    exact Memory.get_clear_in _ _ _ _ hi
  rw [← hall.1]
  exact hall.2

theorem Die.rowsCleared_off (x : Die) (l : List Nat) (b : Nat) (h : ∀ r ∈ l, x.granRow (r / 2048) (r % 2048) ≠ b / 512) :
    (x.rowsCleared l).granary.get b = x.granary.get b := by
  induction l generalizing x with
  | nil => rfl
  | cons r l ih =>
    have hr := h r (.head _)
    have hrest : ∀ k ∈ l, (x.clearRow (r / 2048) (r % 2048)).granRow (k / 2048) (k % 2048) ≠ b / 512 := fun k hk => h k (.tail _ hk)
    refine (ih _ hrest).trans ((Memory.get_clear _ _ _ _).trans (if_neg ?_))
    omega

/-- A die once the granary part of a set has been zeroed (R198, R220). -/
def Die.quenched (x : Die) (l : List Nat) : Die :=
  { x.rowsCleared l with
    gather := x.gather.filter fun e => !decide (e.row ∈ l)
    openRows := x.openRows.filter fun e => !(x.quenchAll || decide (e.1 ∈ x.quenchContexts)) }

/-- The byte of a granary address lies in the row of its slice-row (R188). -/
theorem Die.granByte_row (x : Die) (r i : Nat) (hi : i < 512) :
    x.granByte (512 * r + i) = x.granary.get (512 * x.granRow (r / 2048) (r % 2048) + i) := by
  have hslice : (512 * r + i) / 2 ^ 20 = r / 2048 := by omega
  have hrow : (512 * r + i) / 512 % 2048 = r % 2048 := by omega
  have hbyte : (512 * r + i) % 512 = i := by omega
  rw [Die.granByte, Die.granAt, hslice, hrow, hbyte]

/-! ### Abandoned casts and fenced crofts -/

theorem State.quenchCast_zeroed (s : State) (n slot : Nat) (area : Bool) : s.Zeroed (s.quenchCast n slot area) := by
  unfold State.quenchCast
  split
  · exact s.modCroft_zeroed _ _ fun c => c.clearStore_zeroed _ _
  · dsimp only
    refine s.modCroft_zeroed _ _ fun c => ?_
    have hpad (m : Memory) (ps : Bool) (a len : Nat) : m.Zeroed ((s.die (croftDie n)).clearPad n ps m a len) :=
      m.filter_zeroed fun p => !(s.die (croftDie n)).inPad n ps a len p
    split
    · exact ⟨hpad _ _ _ _, hpad _ _ _ _, .refl _⟩
    · exact ⟨hpad _ _ _ _, .refl _, .refl _⟩

theorem State.quenchCast_off (s : State) (n slot : Nat) (area : Bool) (k : Nat) (h : n ≠ k) : (s.quenchCast n slot area).croft k = s.croft k := by
  unfold State.quenchCast
  split
  · exact s.croft_modCroft_ne _ (Ne.symm h)
  · exact s.croft_modCroft_ne _ (Ne.symm h)

theorem State.quenchCroft_zeroed (s : State) (n : Nat) : s.Zeroed (s.quenchCroft n) := by
  have hfill := s.modCroft_zeroed n Croft.zeroFilled Croft.zeroFilled_zeroed
  exact hfill.trans (State.bump_zeroed _ _ _ _)

theorem State.quenchCroft_off (s : State) (n k : Nat) (h : n ≠ k) : (s.quenchCroft n).croft k = s.croft k := by
  rw [State.quenchCroft, State.bump_croft, State.croft_modCroft_ne _ _ (Ne.symm h)]

theorem State.quenchCroft_self (s : State) (n b : Nat) : ((s.quenchCroft n).croft n).actPad.get b = 0 ∧
    ((s.quenchCroft n).croft n).psPad.get b = 0 ∧ ((s.quenchCroft n).croft n).store.get b = 0 := by
  rw [State.quenchCroft, State.bump_croft, State.croft_modCroft_self]
  exact ⟨rfl, rfl, rfl⟩

/-- Abandoned casts zeroed, one after the other. -/
def State.castsZeroed (s : State) (l : List (Nat × Nat × Bool)) : State :=
  l.foldl (fun (t : State) e => t.quenchCast e.1 e.2.1 e.2.2) s

/-- Fenced crofts zeroed, one after the other. -/
def State.croftsZeroed (s : State) (l : List Nat) : State := l.foldl (fun (t : State) n => t.quenchCroft n) s

theorem State.quenchCasts_eq (s : State) (d : Nat) (l : List (Nat × Nat × Bool)) :
    s.quenchCasts d l = (s.castsZeroed l).bump (.pad d) 0x128 ((l.flatMap castRows).eraseDups).length := rfl

/-! ### The whole quench -/

theorem State.applyQuench_eq (s : State) (d : Nat) (q : QuenchSet) : s.applyQuench d q =
    (((s.rowsZeroed (s.die d) q).modDie d fun x => x.quenched q.gran).bump (.pad d) 0x128
      (q.act.length + q.ps.length + q.lines.length)).bump (.gran d) 0x128 q.gran.length := rfl

theorem State.applyQuench_croft (s : State) (d : Nat) (q : QuenchSet) (n : Nat) :
    (s.applyQuench d q).croft n = (s.rowsZeroed (s.die d) q).croft n := by
  rw [State.applyQuench_eq, State.bump_croft, State.bump_croft, State.modDie_croft]

theorem State.applyQuench_die (s : State) (d : Nat) (q : QuenchSet) (e : Nat) :
    (s.applyQuench d q).die e = if e = d then (s.die d).quenched q.gran else s.die e := by
  rw [State.applyQuench_eq, State.bump_die, State.bump_die, State.die_modDie, State.rowsZeroed_frame]
  rfl

theorem State.applyQuench_frame (s : State) (d : Nat) (q : QuenchSet) : s.applyQuench d q =
    { s with regs := (s.applyQuench d q).regs, dies := (s.applyQuench d q).dies, crofts := (s.applyQuench d q).crofts } := by
  have hbumps (u : State) (p q : Page) (i j k m : Nat) : (u.bump p i j).bump q k m = { u with regs := ((u.bump p i j).bump q k m).regs } := rfl
  rw [State.applyQuench_eq, hbumps, State.modDie_frame, State.rowsZeroed_frame]

/-- The die of a quench with nothing left to be zeroed. -/
def Die.quenchDone (x : Die) : Die :=
  { x with quenchLanes := [], quenchContexts := [], quenchLines := [], quenchCrofts := [], quenchCasts := [], quenchAll := false }

/-- Crofts and granary of a die after its quench; its lists are still as they were. -/
def State.quenched (u : State) (d : Nat) : State :=
  ((u.applyQuench d (u.quenchSet d)).quenchCasts d (u.die d).quenchCasts).croftsZeroed (u.die d).quenchCrofts

theorem exec_quenchInterval (s : State) (d : DieId) :
    exec (.quenchInterval d) s = .next (((s.finishTransfers d.val).quenched d.val).modDie d.val Die.quenchDone) := by
  change execQuenchInterval d s = _
  rw [execQuenchInterval, State.quenched, State.croftsZeroed]
  rfl

/-- What is zero once the set has been applied stays zero. -/
theorem State.quenched_keepsZero {P : State → Prop} (hP : State.KeepsZero P) (u : State) (d : Nat)
    (h : P (u.applyQuench d (u.quenchSet d))) : P (u.quenched d) := by
  refine hP.foldl _ State.quenchCroft_zeroed _ _ ?_
  rw [State.quenchCasts_eq]
  exact hP _ _ (State.bump_zeroed _ _ _ _) (hP.foldl _ (fun t e => t.quenchCast_zeroed _ _ _) _ _ h)

theorem State.quenched_frame (u : State) (d : Nat) : u.quenched d =
    { u.applyQuench d (u.quenchSet d) with regs := (u.quenched d).regs, crofts := (u.quenched d).crofts } := by
  rw [State.quenched, State.croftsZeroed, State.zeroed_foldl_frame _ State.quenchCroft_zeroed, State.quenchCasts_eq, State.castsZeroed,
    (State.bump_zeroed _ _ _ _).frame, State.zeroed_foldl_frame _ fun t e => t.quenchCast_zeroed _ _ _]

theorem State.quenched_die (u : State) (d e : Nat) :
    (u.quenched d).die e = if e = d then (u.die d).quenched (u.quenchSet d).gran else u.die e := by
  rw [← State.applyQuench_die, State.quenched_frame, State.die, State.die]

theorem State.quenched_croft_off (u : State) (d n : Nat) (hact : ∀ e ∈ (u.quenchSet d).act, e.1 ≠ n)
    (hps : ∀ e ∈ (u.quenchSet d).ps, e.1 ≠ n) (hlines : ∀ e ∈ (u.quenchSet d).lines, e.1 ≠ n) (hcrofts : n ∉ (u.die d).quenchCrofts)
    (hcasts : n ∉ (u.die d).quenchCasts.map (·.1)) : (u.quenched d).croft n = u.croft n := by
  have hcrofts' : (u.quenched d).croft n = ((u.applyQuench d (u.quenchSet d)).quenchCasts d (u.die d).quenchCasts).croft n :=
    State.foldl_croft_off _ id n (fun t k hk => t.quenchCroft_off k n hk) _ _ fun k hk h => hcrofts (h ▸ hk)
  have hcasts' : ((u.applyQuench d (u.quenchSet d)).castsZeroed (u.die d).quenchCasts).croft n = (u.applyQuench d (u.quenchSet d)).croft n :=
    State.foldl_croft_off (fun (t : State) (e : Nat × Nat × Bool) => t.quenchCast e.1 e.2.1 e.2.2) (·.1) n (fun t e he => t.quenchCast_off _ _ _ _ he) _ _ fun e he h => hcasts (h ▸ List.mem_map_of_mem he)
  rw [hcrofts', State.quenchCasts_eq, State.bump_croft, hcasts', State.applyQuench_croft, State.rowsZeroed_off _ _ _ _ hact hps hlines]

theorem State.quenched_croft_fenced (u : State) (d n b : Nat) (hn : n ∈ (u.die d).quenchCrofts) :
    ((u.quenched d).croft n).actPad.get b = 0 ∧ ((u.quenched d).croft n).psPad.get b = 0 ∧ ((u.quenched d).croft n).store.get b = 0 := by
  refine foldl_reaches (fun t : State => (t.croft n).actPad.get b = 0 ∧ (t.croft n).psPad.get b = 0 ∧ (t.croft n).store.get b = 0) _ _ _ n hn
    (fun t => t.quenchCroft_self n b) fun t k ht => ?_
  have hz := (t.quenchCroft_zeroed k).croft n
  exact ⟨hz.act b ht.1, hz.ps b ht.2.1, hz.store b ht.2.2⟩

theorem Die.quenched_granAt (x : Die) (l : List Nat) (i r : Nat) : ((x.quenched l).quenchDone).granRow i r = x.granRow i r :=
  x.rowsCleared_granRow l i r

end Sys2Proof.Machine
end

section
open Sys2Proof Sys2Proof.Machine

/-- Settles O59: a fence by its croft and by the spare it finds, a recast by its checks, a quench as a run of steps that only zero. -/
theorem fencesRecastsQuench : Obligations.FencesRecastsQuench := by
  unfold Obligations.FencesRecastsQuench
  refine fun s d v => ⟨fun hs => ⟨?length, ?already, ?passes, ?leaves, ?recastLength, ?recasts⟩, ?quench⟩
  case length => exact fun h => refused_of_written (exec_fenceReq_answers s d v hs) (s.writeFenceReq_length d.val v h)
  case already =>
    rintro n hcol rfl hfenced
    exact (exec_fenceReq_fences s d v hs hcol).trans (congrArg Host.Outcome.next (s.fence_already _ hfenced))
  case passes =>
    intro n col free hle hn hserve hcol hfree
    obtain ⟨hdie, hrow, hc⟩ := fenceCroft_place d.val v hle
    have hexec := exec_fenceReq_fences s d v hs hle
    rw [fenceCroft, ← hn] at hdie hrow hc hexec
    have hcolumn : s.columnOf n = some col := by
      rw [State.columnOf, hc]
      obtain ⟨h, rfl⟩ | ⟨h, hsome⟩ := hcol
      · rw [if_neg (by simp [h])]
      · rw [if_pos h, hsome]
    rw [s.fence_coordinate n col hserve hcolumn] at hexec
    have hspares : nearerSpare ((s.fenceOnly n).freeSpareCrofts (croftDie n) (croftRow n)) (croftCol n) = nearerSpare free (v.field 0 6) := by
      rw [State.fenceOnly_freeSpares, hdie, hrow, hc, hfree]
    have hfenced : (s.fenceOnly n).croft n = (s.croft n).fencedOff := (s.fenceOnly_croft n n).trans (if_pos rfl)
    have hdies (e : Nat) := s.fenceOnly_die n e
    rw [hdie] at hdies
    cases hq : nearerSpare free (v.field 0 6) with
    | none =>
      rw [State.takeCoordinate_none _ _ _ (hspares.trans hq), hdie] at hexec
      refine ⟨_, hexec, hfenced, ?_, fun e he => ?_, nofun, fun _ => ⟨?_, fun k hk => ?_⟩, ?_⟩
      · rw [State.degrade, State.die_modDie_self, hdies, if_pos rfl]
        exact List.mem_append_right _ (.head _)
      · rw [State.degrade, State.die_modDie_ne _ _ he, hdies, if_neg he]
      · rw [State.degrade, State.die_modDie_self]
      · exact (s.fenceOnly_croft n k).trans (if_neg hk)
      · rw [State.degrade, State.modDie_frame, State.fenceOnly_frame]
    | some p =>
      have hp : p ≠ n := by
        have := (List.mem_filter.1 (hfree ▸ nearerSpare_mem hq)).2
        simpa using this
      rw [State.takeCoordinate_some _ _ _ p (hspares.trans hq)] at hexec
      have htaken (e : Nat) := (s.fenceOnly n).coordinateTaken_die n col p e
      rw [hdie, hrow] at htaken
      have hcrofts (k : Nat) := (s.fenceOnly n).coordinateTaken_croft n col p k
      have hpads := (s.fenceOnly n).spareFilled_pads n (croftRow n) col ((s.fenceOnly n).croft p)
      refine ⟨_, hexec, ?_, ?_, fun e he => ?_, fun q hsome => ?_, nofun, ?_⟩
      · rw [hcrofts, if_neg hp.symm, hfenced, Croft.fencedOff]
      · rw [htaken, if_pos rfl, hdies, if_pos rfl]
        exact List.mem_append_right _ (.head _)
      · rw [htaken, if_neg he, hdies, if_neg he]
      · obtain rfl := Option.some.inj hsome
        refine ⟨⟨{ row := v.field 8 5, column := col, spare := p, fenced := n }, ?_, rfl, rfl, rfl, rfl⟩, ?_, ?_, fun hpattern => ?_, fun k hk hkp => ?_⟩
        · rw [htaken, if_pos rfl]
          exact List.mem_append_right _ (.head _)
        · rw [hcrofts, if_pos rfl]
          exact hpads.1
        · rw [hcrofts, if_pos rfl]
          exact hpads.2
        · rw [hcrofts, if_pos rfl]
          refine State.spareFilled_store _ _ _ _ _ ?_
          rw [hdie, hdies, if_pos rfl]
          exact hpattern
        · rw [hcrofts, if_neg hkp, State.fenceOnly_croft, if_neg hk]
      · rw [State.coordinateTaken, State.modDie_frame, State.modCroft, State.setCroft, State.fenceOnly_frame]
  case leaves =>
    intro n hle hn hserve hspare hcol hjobs
    obtain ⟨hdie, -, hc⟩ := fenceCroft_place d.val v hle
    have hexec := exec_fenceReq_fences s d v hs hle
    rw [fenceCroft, ← hn] at hdie hc hexec
    rw [s.fence_spare n hserve (by rw [hc]; exact hspare) hcol (by rw [hdie]; exact hjobs)] at hexec
    have hdies := s.fenceOnly_die n d.val
    rw [if_pos hdie.symm] at hdies
    refine ⟨_, hexec, (s.fenceOnly_croft n n).trans (if_pos rfl), ?_, ?_, fun k hk => (s.fenceOnly_croft n k).trans (if_neg hk),
      s.fenceOnly_frame n⟩
    · rw [hdies]
    · rw [hdies]
      exact List.filter_eq_self.2 fun j hj => by simpa using hjobs j hj
  case recastLength =>
    intro h
    obtain ⟨-, h16, -⟩ := recastAll_word v
    exact recasts_refused s d v .length hs (s.writeRecastReq_length d.val v h) (s.writeRecastReq_length d.val _ (by rw [h16]; exact h))
  case recasts =>
    intro n hle hn
    obtain ⟨-, h16, hbit⟩ := recastAll_word v
    have hone : recastNamed d.val v = n := hn.symm
    have hall : recastNamed d.val (v ||| 16) = n := (recastNamed_all d.val v).trans hone
    have hle' : (v ||| 16).field 16 6 ≤ 33 := by rw [h16]; exact hle
    refine ⟨fun hrole => ?_, fun hrole hserve => ?_, fun hrole hserve hbusy => ?_, fun hrole hserve hbusy => ⟨?_, fun h4 => ?_⟩⟩
    · exact recasts_refused s d v .role hs (s.writeRecastReq_role d.val v hle hrole) (s.writeRecastReq_role d.val _ hle' hrole)
    · exact recasts_refused s d v .state hs (s.writeRecastReq_state d.val v hle hrole (by rw [hone]; exact hserve))
        (s.writeRecastReq_state d.val _ hle' hrole (by rw [hall]; exact hserve))
    · exact recasts_refused s d v .busy hs (s.writeRecastReq_busy d.val v hle hrole (by rw [hone]; exact hserve) (by rw [hone]; exact hbusy))
        (s.writeRecastReq_busy d.val _ hle' hrole (by rw [hall]; exact hserve) (by rw [hall]; exact hbusy))
    · rw [exec_recastAll_answers s d v hs,
        s.writeRecastReq_queues d.val _ hle' hrole (by rw [hall]; exact hserve) (by rw [hall]; exact hbusy), hall, hbit]
      rfl
    · rw [exec_recastMould_answers s d v hs,
        s.writeRecastReq_queues d.val v hle hrole (by rw [hone]; exact hserve) (by rw [hone]; exact hbusy), hone, h4]
      rfl
  case quench =>
    rintro u rfl
    generalize hu : s.finishTransfers d.val = u
    have hexec := exec_quenchInterval s d
    rw [hu] at hexec
    have hdie : ((u.quenched d.val).modDie d.val Die.quenchDone).die d.val = ((u.die d.val).quenched (u.quenchSet d.val).gran).quenchDone := by
      rw [State.die_modDie_self, State.quenched_die, if_pos rfl]
    refine ⟨_, hexec, fun e he i hi => ?_, fun e he i hi => ?_, fun e he i hi => ?_, fun r hr i hi => ?_, fun n hn b => ?_,
      fun n hact hps hlines hcrofts hcasts => ?_, fun b hb => ?_, ?_, ?_, ?_, ?_, fun e he => ?_, ?_⟩
    · rw [State.modDie_croft]
      refine State.quenched_keepsZero (State.keepsZero_act _ _) u d.val ?_
      rw [State.applyQuench_croft]
      exact u.rowsZeroed_act _ _ e he i hi
    · rw [State.modDie_croft]
      refine State.quenched_keepsZero (State.keepsZero_ps _ _) u d.val ?_
      rw [State.applyQuench_croft]
      exact u.rowsZeroed_ps _ _ e he i hi
    · rw [State.modDie_croft]
      refine State.quenched_keepsZero (State.keepsZero_store _ _) u d.val ?_
      rw [State.applyQuench_croft]
      exact u.rowsZeroed_line _ _ e he i hi
    · rw [hdie, Die.granByte_row _ _ _ hi, Die.quenched_granAt]
      exact (u.die d.val).rowsCleared_zero _ r hr i hi
    · rw [State.modDie_croft]
      exact u.quenched_croft_fenced d.val n b hn
    · rw [State.modDie_croft]
      exact u.quenched_croft_off d.val n hact hps hlines hcrofts hcasts
    · rw [hdie]
      exact (u.die d.val).rowsCleared_off _ b hb
    · rw [hdie, Die.quenchDone]
    · rw [hdie, Die.quenchDone]
    · rw [hdie, Die.quenchDone]
    · rw [hdie, Die.quenchDone]
    · rw [State.die_modDie_ne _ _ he, State.quenched_die, if_neg he]
    · rw [State.modDie_frame, State.quenched_frame, State.applyQuench_frame]

end

section
/-!
BELL (R22, R241, R349, R350, R382, R494): a bell with no context in use changes no tenant but by the refill of action 8. What a bell brings
into force is said by `State.bellAt_settings`.
-/
namespace Sys2Proof.Machine

/-! ### A bell with no context in use -/

/-- No context is in use and no step in flight; the tenants are those of `tn`. -/
def State.Idle (s : State) (tn : Table Tenant) : Prop := s.calm = ([], 0, tn)

theorem State.idle_iff (s : State) (tn : Table Tenant) :
    s.Idle tn ↔ s.serve.sessions = [] ∧ s.serve.steps = [] ∧ s.serve.tenants = tn := by
  rw [State.Idle, State.calm, Prod.mk.injEq, Prod.mk.injEq, List.length_eq_zero_iff]

theorem State.Idle.of_calm {s t : State} {tn : Table Tenant} (h : s.Idle tn) (ht : t.calm = s.calm) : t.Idle tn := ht.trans h

theorem State.Idle.action1 {s : State} {tn : Table Tenant} (h : s.Idle tn) (now : Nat) : s.action1 now = s := by
  obtain ⟨hsess, hsteps, -⟩ := (s.idle_iff tn).1 h
  simp only [State.action1, hsess, hsteps, List.filter_nil, List.map_nil, List.foldl_nil]

theorem State.Idle.action2 {s : State} {tn : Table Tenant} (h : s.Idle tn) (b : BellIn) (now : Nat) : (s.action2 b now).Idle tn := by
  obtain ⟨-, hsteps, -⟩ := (s.idle_iff tn).1 h
  rw [State.action2, hsteps]
  exact h.of_calm (s.mapSteps_calm _)

theorem State.Idle.eachSession {s : State} {tn : Table Tenant} (h : s.Idle tn) (f : State → Nat → State) : s.eachSession f = s :=
  s.eachSession_nil f ((s.idle_iff tn).1 h).1

theorem State.Idle.action8 {s : State} {tn : Table Tenant} (h : s.Idle tn) :
    s.action8.Idle (tmap (fun _ => {}) (fun _ t => t.refill s.pkg.bellNs) tn) := by
  obtain ⟨hsess, hsteps, rfl⟩ := (s.idle_iff tn).1 h
  exact (s.action8.idle_iff _).2 ⟨hsess, hsteps, rfl⟩

/-- Without a session nothing is admitted. -/
theorem State.Idle.admission {s : State} {tn : Table Tenant} (h : s.Idle tn) (now : Nat) : s.admission now = s := by
  obtain ⟨hsess, -, -⟩ := (s.idle_iff tn).1 h
  have hnone : s.candidates now = [] := by simp [State.candidates, hsess]
  unfold State.admission
  split
  · rfl
  · simp only [hsess, List.map_nil, List.foldl_nil, hnone]

/-- The tenants after a bell of an idle package: each one refilled (R350). -/
theorem State.Idle.bellAt {s : State} {tn : Table Tenant} (h : s.Idle tn) (b : BellIn) (now : Nat) :
    ∃ k, (s.bellAt b now).Idle (tmap (fun _ => {}) (fun _ t => t.refill k) tn) ∧ k = (s.bellAt b now).pkg.bellNs := by
  obtain ⟨hsess, -, -⟩ := (s.idle_iff tn).1 h
  have hdue : s.dueFrees = [] := by simp [State.dueFrees, hsess]
  have hopen : ((((s.ringBell now).clearFrees s.dueFrees).bellMarks.diesAtBell now b.selfCheckFailed).packageAtBell b).Idle tn := by
    refine h.of_calm ?_
    rw [hdue, State.packageAtBell_calm, State.diesAtBell_calm, State.bellMarks_calm, State.clearFrees, List.foldl_nil, State.ringBell_calm]
  have hsteps : (((((s.ringBell now).clearFrees s.dueFrees).bellMarks.diesAtBell now b.selfCheckFailed).packageAtBell b).writeHeld now).Idle tn :=
    hopen.of_calm (State.writeHeld_calm _ now ((State.idle_iff _ tn).1 hopen).1)
  unfold State.bellAt
  dsimp only
  generalize ((((s.ringBell now).clearFrees s.dueFrees).bellMarks.diesAtBell now b.selfCheckFailed).packageAtBell b).writeHeld now = u at *
  have hcommit := hsteps.action2 b now
  rw [hsteps.action1, hcommit.eachSession, hcommit.eachSession, hdue, State.action5, List.foldl_nil]
  generalize u.action2 b now = w at *
  have hmapped : w.action6.action7.Idle tn := hcommit.of_calm (by rw [State.action7_calm, State.action6_calm])
  have hrefilled := hmapped.action8
  generalize w.action6.action7 = x at *
  have hcast : ((x.action8.chargeLeak).action9 now).Idle _ := hrefilled.of_calm (by rw [State.action9_calm, State.chargeLeak_calm])
  refine ⟨x.pkg.bellNs, ?_, ?_⟩
  · rw [hcast.admission]
    refine hcast.of_calm ?_
    rw [State.scheduleBell_calm, State.snapAttest_calm, State.snapshot_calm, State.keepLanes_calm]
  · have hbeat : (((((x.action8.chargeLeak).action9 now).admission now).keepLanes.snapshot now (s.serve.sessions.map (·.1))).snapAttest now).beat =
        x.beat := by
      rw [State.snapAttest_beat, State.snapshot_beat, State.keepLanes_beat, State.admission_beat, State.action9_beat, State.chargeLeak_beat,
        State.action8_beat]
    exact (congrArg (fun e => e.2.1.2.2.2.2.2.1) hbeat).symm

/-- The refill leaves alone a tenant without a rate, a cap and a written budget (R350). -/
theorem Tenant.refill_unused (t : Tenant) (k : Nat) (hnext : t.next = none) (hrate : t.budget.field 0 20 = 0)
    (hcap : t.budget.field 20 20 = 0) (hbalance : t.balance = 0) (hrest : t.remainder = 0) : t.refill k = t := by
  obtain ⟨budget, next, balance, remainder, keyed⟩ := t
  subst hnext hbalance hrest
  simp only [Tenant.refill, Option.getD_none, hrate, hcap]
  simp

theorem Tenant.refill_default (k : Nat) : ({} : Tenant).refill k = {} :=
  Tenant.refill_unused {} k rfl (by decide) (by decide) rfl rfl

theorem State.bellAt_tenant (s : State) (b : BellIn) (now : Nat) (hsess : s.serve.sessions = []) (hsteps : s.serve.steps = []) (k : Nat) :
    (s.bellAt b now).tenant k = (s.tenant k).refill (s.bellAt b now).pkg.bellNs := by
  obtain ⟨n, hidle, hn⟩ := State.Idle.bellAt ((s.idle_iff _).2 ⟨hsess, hsteps, rfl⟩) b now
  rw [State.tenant, ((State.idle_iff _ _).1 hidle).2.2, hn, State.tenant]
  obtain h | ⟨h, h'⟩ := tget_tmap (fun _ : Nat => ({} : Tenant)) (fun _ t => t.refill (s.bellAt b now).pkg.bellNs) s.serve.tenants k
  · exact h
  · rw [h, h', Tenant.refill_default]

/-! ### What a bell brings into force -/

theorem exec_bell_silent (s : State) (b : BellIn) (h : ¬(s.pkg.phase = .service ∨ s.pkg.phase = .entering ∨ s.pkg.phase = .powerFail)) :
    exec (.bell b) s = .next s :=
  if_neg h

/-- Where bells ring, BELL is the bell of a state with the settings, registers, queue, contexts and tenants of the one before. -/
theorem exec_bell_from (s : State) (b : BellIn) (h : s.pkg.phase = .service ∨ s.pkg.phase = .entering ∨ s.pkg.phase = .powerFail) :
    ∃ u : State, exec (.bell b) s = .next (u.bellAt b s.clock.nextBell) ∧ u.beat = s.beat ∧ u.regs = s.regs ∧ u.pending = s.pending ∧
      u.calm = s.calm := by
  have hstop : (if s.pkg.phase = .service then s else s.stopCasts).beat = s.beat ∧
      (if s.pkg.phase = .service then s else s.stopCasts).regs = s.regs ∧
      (if s.pkg.phase = .service then s else s.stopCasts).pending = s.pending ∧
      (if s.pkg.phase = .service then s else s.stopCasts).calm = s.calm := by
    split
    · exact ⟨rfl, rfl, rfl, rfl⟩
    · exact ⟨s.stopCasts_beat, s.stopCasts_regs, congrArg (fun e => e.1) s.stopCasts_seal, s.stopCasts_calm⟩
  refine ⟨_, if_pos h, ?_⟩
  split <;> exact hstop

/-- The settings after a bell (R22, R241, R382, R494). -/
theorem State.bellAt_beat (s : State) (b : BellIn) (now : Nat) :
    (s.bellAt b now).beat =
      ({ s.clock with time := max s.clock.time now, lastBell := now, nextBell := now + (s.reg .sys 0x118).field 0 14 },
        (s.pkg.rolePending.getD s.pkg.role, none, if s.pkg.packClear then none else s.pkg.packPending.or s.pkg.pack, none, false,
          (s.reg .sys 0x118).field 0 14, s.pkg.phase), s.tally.limitsNext.getD s.tally.limits, none) := by
  obtain ⟨u, hu, hb⟩ := s.bellAt_settings b now
  have hring := s.ringBell_beat now
  have hperiod := s.ringBell_bellNs now
  rw [State.packageAtBell_beat] at hb
  simp only [State.beat, Prod.mk.injEq] at hring hb ⊢
  simp [hu, State.scheduleBell, hb, hring, hperiod]

end Sys2Proof.Machine
end

section
open Sys2Proof Sys2Proof.Machine

/-- Settles O60: the settings, the queue and, with no context in use, the tenants after the bell of a state that agrees with the one before. -/
theorem bellOpensTheRound : Obligations.BellOpensTheRound := by
  unfold Obligations.BellOpensTheRound
  refine fun s b => ⟨fun h1 h2 h3 => exec_bell_silent s b ?_, fun h => ?_⟩
  · rintro (h | h | h) <;> contradiction
  · obtain ⟨u, hexec, hbeat, hregs, hpending, hcalm⟩ := exec_bell_from s b h
    have hafter := u.bellAt_beat b s.clock.nextBell
    have hqueue : (u.bellAt b s.clock.nextBell).pending = u.pending := congrArg (fun e => e.1) (u.bellAt_seal b s.clock.nextBell)
    have htenant := u.bellAt_tenant b s.clock.nextBell
    rw [State.reg_congr hregs] at hafter
    rw [hpending] at hqueue
    simp only [State.beat, State.calm, Prod.mk.injEq] at hbeat hafter hcalm
    obtain ⟨hclock, ⟨hrole, hroleNext, hpack, hpackNext, hclear, -, hphase⟩, hlimits, hlimitsNext⟩ := hbeat
    obtain ⟨hclock', ⟨hrole', hroleNext', hpack', hpackNext', hclear', hperiod, hphase'⟩, hlimits', hlimitsNext'⟩ := hafter
    obtain ⟨hsess, hsteps, htenants⟩ := hcalm
    refine ⟨_, hexec, ?_, ?_, hperiod, ?_, ?_, hroleNext', ?_, hpackNext', hclear', ?_, hlimitsNext', ?_, hqueue, fun h1 h2 k => ?_⟩
    · rw [hclock']
    · rw [hclock', hclock]
    · rw [hclock', hperiod]
    · rw [hrole', hroleNext, hrole]
    · rw [hpack', hclear, hpackNext, hpack]
    · rw [hlimits', hlimitsNext, hlimits]
    · rw [hphase', hphase]
    · have hidle := htenant (hsess.trans h1) (List.eq_nil_of_length_eq_zero (hsteps.trans (by rw [h2]; rfl))) k
      rw [hidle, State.tenant, htenants, State.tenant]

end

section
/-!
Migration (R349, R366, R367, R447): manifests, confirmations, aborts and timeouts, and what action 4 does with a failed migration.
-/
namespace Sys2Proof.Machine

/-! ### The only session -/

theorem State.sess_only (s : State) (x : Nat) (v : Session) (h : s.serve.sessions = [(x, v)]) : s.sess x = v := by
  rw [State.sess, h, tget_cons, if_pos rfl]

/-- A migration that has failed with a code (R367). -/
def Session.migrationFailed (y : Session) (c : Code) : Session := { y with migration := none, confirmed := false, migFailed := some c }

theorem State.failMigration_self (s : State) (x : Nat) (c : Code) : (s.failMigration x c).sess x = (s.sess x).migrationFailed c := by
  rw [State.failMigration, State.sess_modSess_self]
  rfl

theorem State.failMigration_outbox (s : State) (x : Nat) (c : Code) : (s.failMigration x c).links.outbox = s.links.outbox := rfl

theorem State.failMigration_fetching (s : State) (x : Nat) (c : Code) : tfind (s.failMigration x c).links.fetching x = none :=
  (tfind_tdrop _ _ _).trans (if_pos rfl)

/-- The MIG_ABORT that tells the partner (R447). -/
def abortMsg (pk context tag : Nat) (c : Code) : OutMsg := { destination := pk, type := 0x09, body := [context, tag, c.num] }

theorem State.abortMigration_some (s : State) (x pk tag at_ : Nat) (c : Code) (h : (s.sess x).migration = some (pk, tag, at_)) :
    s.abortMigration x c =
      (s.send (abortMsg pk (if (s.sess x).st = .awaitingIn then (s.sess x).partner else x) tag c)).failMigration x c := by
  unfold State.abortMigration
  split
  next hn => simp [hn] at h
  next pk' tag' at' hsome =>
    obtain ⟨rfl, rfl, -⟩ : pk' = pk ∧ tag' = tag ∧ at' = at_ := by simpa using hsome.symm.trans h
    rfl

theorem State.abortMigration_self (s : State) (x pk tag at_ : Nat) (c : Code) (h : (s.sess x).migration = some (pk, tag, at_)) :
    (s.abortMigration x c).sess x = (s.sess x).migrationFailed c ∧ (s.abortMigration x c).links.outbox =
      s.links.outbox ++ [abortMsg pk (if (s.sess x).st = .awaitingIn then (s.sess x).partner else x) tag c] := by
  rw [s.abortMigration_some x pk tag at_ c h, State.failMigration_self, State.failMigration_outbox, State.send_outbox]
  exact ⟨rfl, rfl⟩

/-! ### Manifests -/

/-- A manifest that has come, beside those of the last 100 ms (R367). -/
def State.manifestKept (s : State) (m : Manifest) : State :=
  { s with links := { s.links with
    manifests := (s.links.manifests.filter fun e => decide (s.clock.time < e.2 + 100000000)) ++ [(m, s.clock.time)] } }

theorem exec_migManifest (s : State) (m : Manifest) : exec (.migManifest m) s =
    .next ((s.serve.sessions.map (·.1)).foldl (fun (u : State) x => u.takeManifest x) (s.manifestKept m)) := rfl

theorem State.takeManifest_idle (s : State) (x : Nat) (h : (s.sess x).st ≠ .awaitingIn) : s.takeManifest x = s := by
  unfold State.takeManifest
  dsimp only
  split
  next hst _ _ => exact absurd hst h
  next => rfl

/-- With no MIGRATE_IN that waits, a manifest is kept. -/
theorem exec_migManifest_kept (s : State) (m : Manifest) (h : ∀ e ∈ s.serve.sessions, (s.sess e.1).st ≠ .awaitingIn) :
    exec (.migManifest m) s = .next (s.manifestKept m) := by
  rw [exec_migManifest]
  refine congrArg Host.Outcome.next ?_
  refine List.foldlRecOn _ _ (motive := fun t => t = s.manifestKept m) rfl fun t ht x hx => ?_
  obtain ⟨e, he, rfl⟩ := List.mem_map.1 hx
  rw [ht]
  exact State.takeManifest_idle _ _ (h e he)

/-- The state as a manifest is taken from those that wait. -/
def State.manifestTaken (s : State) : State := { s with links := { s.links with manifests := [] } }

theorem State.takeManifest_takes (s : State) (x : Nat) (m : Manifest) (at_ time : Nat) (hst : (s.sess x).st = .awaitingIn)
    (hmig : (s.sess x).migration = some (m.source.val, m.tag, at_)) (hfetch : s.links.fetching = [])
    (hmanifests : s.links.manifests = [(m, time)]) (htime : s.clock.time < time + 100000000) :
    s.takeManifest x = s.manifestTaken.receiveManifest x m := by
  have hnone : tfind s.links.fetching x = none := by rw [hfetch]; rfl
  unfold State.takeManifest
  dsimp only
  rw [hst, hmig, hnone]
  simp [hmanifests, htime, State.manifestTaken]

/-- A single session that waits for the manifest takes it. -/
theorem exec_migManifest_taken (s : State) (m : Manifest) (x at_ : Nat) (v : Session) (hsess : s.serve.sessions = [(x, v)])
    (hst : v.st = .awaitingIn) (hmig : v.migration = some (m.source.val, m.tag, at_)) (hfetch : s.links.fetching = [])
    (hmanifests : s.links.manifests = []) : exec (.migManifest m) s = .next ((s.manifestKept m).manifestTaken.receiveManifest x m) := by
  have hx := s.sess_only x v hsess
  have hkept : (s.manifestKept m).links.manifests = [(m, s.clock.time)] := by rw [State.manifestKept, hmanifests]; rfl
  rw [exec_migManifest, hsess]
  exact congrArg Host.Outcome.next ((s.manifestKept m).takeManifest_takes x m at_ s.clock.time (hx ▸ hst) (hx ▸ hmig) hfetch hkept
    (Nat.lt_add_of_pos_right (by decide)))

/-- A session that a manifest describes (R447). -/
def Session.described (y : Session) (m : Manifest) (pages : List Nat) : Session :=
  { y with
    tenant := m.tenant, cls := m.cls, kv8 := m.kv8, pub := m.pub, capacity := m.capacity, temperature := m.temperature
    topK := m.topK, seed := m.seed, stop := { endTokens := m.endTokens, seqs := m.stopSeqs }, committed := m.committed
    tentative := m.committed, pending := m.pendingToken, generation := m.generation, kvTag := m.kvTag, floor := m.floor
    tokenLog := m.tokenLog, firstTag := m.firstTag, mixed := m.mixed, remoteLost := m.remoteLost, logPages := pages }

/-- The entry knows the source's entry (R447). -/
def State.partnered (s : State) (x : Nat) (m : Manifest) : State := s.modSess x fun y => { y with partner := m.context }

/-- The session described, with nothing left to fetch of an empty table. -/
def State.sessionTaken (s : State) (x : Nat) (m : Manifest) (pages : List Nat) : State :=
  let t := s.modSess x fun y => y.described m pages
  { t with links := { t.links with fetching := tset t.links.fetching x 0 } }

/-- An ingot of the generation, or with its kv_tag, is in service. -/
theorem State.held_ingots (s : State) (r : IngotRec) (hswitch : s.pkg.gen.switch = none) (hserve : s.pkg.gen.inService = some r) :
    s.pkg.gen.inService.toList ++ s.targetIngot.toList = [r, r] := by
  rw [State.targetIngot, hswitch, hserve]
  rfl

theorem State.receiveManifest_gone (s : State) (x : Nat) (m : Manifest) (r : IngotRec) (hswitch : s.pkg.gen.switch = none)
    (hserve : s.pkg.gen.inService = some r) (hgen : r.generation ≠ m.generation) (htag : r.kvTag ≠ m.kvTag) :
    s.receiveManifest x m = (s.partnered x m).abortMigration x .generationGone := by
  unfold State.receiveManifest
  dsimp only
  rw [s.held_ingots r hswitch hserve]
  exact if_pos (by simp [hgen, htag])

/-- No page table of an empty table is missing. -/
theorem State.missingTables_empty (s : State) (x : Nat) (h : (s.sess x).table = []) : s.missingTables x [] = [] := by
  simp [State.missingTables, h]

/-- What a manifest's table brings (R293, R447). -/
def State.tableTaken (s : State) (x : Nat) (m : Manifest) : State :=
  let ks := s.missingTables x (m.table.map (·.1))
  match s.allocPages (s.ownerHub x) ks.length with
  | none => s.abortMigration x .busy
  | some b =>
    let r := m.table.foldl (fun (acc : State × Bool) e => if acc.2 then acc.1.takeEntry x m e else acc) (b.1.enterTables x (ks.zip b.2), true)
    if r.2 then r.1 else r.1.abortMigration x .busy

theorem State.allocPages_zero (s : State) (h : Nat) : s.allocPages h 0 = some (s, []) := rfl

theorem State.tableTaken_empty (s : State) (x : Nat) (m : Manifest) (hm : m.table = []) (h : (s.sess x).table = []) :
    s.tableTaken x m = s := by
  unfold State.tableTaken
  dsimp only
  rw [hm, List.map_nil, s.missingTables_empty x h, List.length_nil, State.allocPages_zero]
  rfl

theorem State.sessionTaken_self (s : State) (x : Nat) (m : Manifest) (pages : List Nat) :
    (s.sessionTaken x m pages).sess x = (s.sess x).described m pages :=
  s.sess_modSess_self x fun y => y.described m pages

theorem State.sessionTaken_ne (s : State) (x y : Nat) (m : Manifest) (pages : List Nat) (h : y ≠ x) :
    (s.sessionTaken x m pages).sess y = s.sess y :=
  s.sess_modSess_ne (fun y => y.described m pages) h

theorem State.receiveManifest_takes (s : State) (x : Nat) (m : Manifest) (r : IngotRec) (hswitch : s.pkg.gen.switch = none)
    (hserve : s.pkg.gen.inService = some r) (hheld : r.generation = m.generation ∨ r.kvTag = m.kvTag) (htable : m.table = [])
    (hempty : (s.sess x).table = []) (a : State × List Nat)
    (ha : (s.partnered x m).allocPages ((s.partnered x m).ownerHub x) (logPageCount m.capacity) = some a) :
    s.receiveManifest x m = a.1.sessionTaken x m a.2 := by
  have htaken : (a.1.sessionTaken x m a.2).tableTaken x m = a.1.sessionTaken x m a.2 := by
    refine State.tableTaken_empty _ x m htable ?_
    rw [State.sessionTaken_self, (State.allocPages_rest ha).1, State.partnered, State.sess_modSess_self]
    exact hempty
  unfold State.receiveManifest
  dsimp only
  rw [s.held_ingots r hswitch hserve, if_neg (by simpa using fun h => hheld.resolve_left h)]
  rw [State.partnered] at ha
  rw [ha]
  exact htaken

/-- Pages that a pool gives, it gives whatever the sessions and links are. -/
theorem State.allocPages_same_pool {s t : State} {h n : Nat} (hs : (s.allocPages h n).isSome = true) (ht : t.poolFree h = s.poolFree h) :
    ∃ a, t.allocPages h n = some a := by
  refine t.allocPages_some h n ?_
  rw [ht]
  by_contra hless
  rw [s.allocPages_short h n (by omega)] at hs
  cases hs

/-! ### Confirmations, aborts and timeouts -/

theorem exec_migConfirm (s : State) (x tag pk at_ : Nat) (hst : (s.sess x).st = .leaving) (hmig : (s.sess x).migration = some (pk, tag, at_)) :
    exec (.migConfirm x tag) s = .next (s.modSess x fun y => { y with confirmed := true }) := by
  change execMigConfirm x tag s = _
  unfold execMigConfirm
  rw [hst, hmig]
  dsimp only
  rw [if_pos rfl]

/-- The session that a MIG_ABORT names fails its migration. -/
theorem exec_migAbort_only (s : State) (x tag context : Nat) (c : Code) (v : Session) (hsess : s.serve.sessions = [(x, v)])
    (hmig : ∃ pk at_, v.migration = some (pk, tag, at_)) (hnames : v.st = .leaving ∧ context = x ∨ v.st = .awaitingIn ∧ context = v.partner) :
    exec (.migAbort context tag c) s = .next (s.failMigration x c) := by
  obtain ⟨pk, at_, hmig⟩ := hmig
  have hfind : s.serve.sessions.find? (fun e => (e.2.migration.any fun m => m.2.1 == tag) &&
      ((e.2.st == .leaving && e.1 == context) || (e.2.st == .awaitingIn && (e.2.partner == context || (tfind s.links.fetching e.1).isNone)))) =
      some (x, v) := by
    rw [hsess, List.find?_cons_of_pos]
    obtain ⟨hst, rfl⟩ | ⟨hst, rfl⟩ := hnames <;> simp [hmig, hst]
  change execMigAbort context tag c s = _
  unfold execMigAbort
  rw [hfind]

theorem exec_migrationTimeout_ends (s : State) (x pk tag at_ : Nat) (hmig : (s.sess x).migration = some (pk, tag, at_))
    (hopen : (s.sess x).confirmed = false) (h : at_ + 100000000 ≤ s.clock.time) :
    exec (.migrationTimeout x) s = .next (s.abortMigration x .timeout) := by
  change execMigrationTimeout x s = _
  unfold execMigrationTimeout
  rw [hmig]
  exact if_pos ⟨h, hopen⟩

theorem exec_migrationTimeout_early (s : State) (x pk tag at_ : Nat) (hmig : (s.sess x).migration = some (pk, tag, at_))
    (h : s.clock.time < at_ + 100000000) : exec (.migrationTimeout x) s = .next s := by
  change execMigrationTimeout x s = _
  unfold execMigrationTimeout
  rw [hmig]
  exact if_neg fun hle => absurd hle.1 (by omega)

/-! ### Action 4 on a failed migration -/

/-- A record changes no session but by what it may hold (R338, R339). -/
theorem State.emit_self (s : State) (x : Nat) (r : Record) : ∃ held, (s.emit x r).sess x = { s.sess x with held := held } := by
  unfold State.emit
  dsimp only
  split
  · refine ⟨(s.sess x).held, ?_⟩
    rw [State.sess, State.sessions_of_calm (State.writeRecord_calm s _ _ _)]
    rfl
  · exact ⟨(s.sess x).held ++ [r], State.sess_modSess_self _ _ _⟩

/-- A session whose one command has its outcome has an empty queue once that is written (R338). -/
theorem State.flushSession_one (s : State) (x now : Nat) (q : Queued) (hq : (s.sess x).queue = [q]) (hout : q.out.isSome = true) :
    ∃ held, (s.flushSession x now).sess x = { s.sess x with queue := [], held := held } := by
  obtain ⟨r, hr⟩ := Option.isSome_iff_exists.1 hout
  have hlast (u : State) (hu : (u.sess x).queue = []) : u.flushOuts x now 1 = u := by
    rw [State.flushOuts]
    dsimp only
    rw [hu]
  rw [State.flushSession, hq, List.length_singleton, State.flushOuts]
  dsimp only
  rw [hq]
  dsimp only
  rw [hr]
  dsimp only
  generalize hs1 : s.modSess x (fun y => { y with queue := [] }) = s1
  have hself : s1.sess x = { s.sess x with queue := [] } := by rw [← hs1, State.sess_modSess_self]
  generalize hs2 : s1.modWin q.window _ = s2
  have hself2 : s2.sess x = { s.sess x with queue := [] } := by rw [← hs2, State.modWin_sess, hself]
  obtain ⟨held, hemit⟩ := s2.emit_self x { r with head := outHead x (s.sess x).committed, time := now }
  rw [hself2] at hemit
  exact ⟨held, by rw [hlast _ (by rw [hemit]), hemit]⟩

/-- The commands of a failed migration that get their outcome. -/
def migrationDue (q : Queued) : Bool := q.out.isNone && match q.body with
  | .migrateOut _ => true
  | .migrateIn _ => true
  | _ => false

/-- The outcomes of a failed migration's commands decided (R349). -/
def State.migrationAnswered (s : State) (x : Nat) (c : Code) : State :=
  (((s.sess x).queue.filter migrationDue).foldl (fun (t : State) q => t.setOut x q.seq fun q => failedOf q c 0) s).modSess x fun y =>
    { y with migFailed := none }

theorem State.failedMigration_target (s : State) (x now : Nat) (c : Code) (hfail : (s.sess x).migFailed = some c)
    (hst : (s.sess x).st = .awaitingIn) : s.failedMigration x now = ((s.migrationAnswered x c).flushSession x now).release x := by
  unfold State.failedMigration
  rw [hfail]
  exact if_pos hst

theorem State.failedMigration_source (s : State) (x now : Nat) (c : Code) (hfail : (s.sess x).migFailed = some c)
    (hst : (s.sess x).st ≠ .awaitingIn) : s.failedMigration x now =
      ((s.migrationAnswered x c).modSess x fun y => { y with st := if y.st = .leaving then .openS else y.st }).flushSession x now := by
  unfold State.failedMigration
  rw [hfail]
  exact if_neg hst

theorem State.release_free (s : State) (x : Nat) : ((s.release x).sess x).st = .free := by
  rw [State.release, State.sess_setSess_self]

/-- The only command of a session, a MIGRATE_OUT or MIGRATE_IN, has its outcome. -/
theorem State.migrationAnswered_self (s : State) (x : Nat) (c : Code) (q : Queued) (hq : (s.sess x).queue = [q])
    (hbody : (∃ b, q.body = .migrateOut b) ∨ ∃ b, q.body = .migrateIn b) :
    ∃ k, (s.migrationAnswered x c).sess x = { s.sess x with queue := [k], migFailed := none } ∧ k.out.isSome = true := by
  have hdue : migrationDue q = q.out.isNone := by
    obtain ⟨b, hb⟩ | ⟨b, hb⟩ := hbody <;> simp [migrationDue, hb]
  rw [State.migrationAnswered, State.sess_modSess_self, hq]
  cases hout : q.out with
  | some r =>
    have hnone : [q].filter migrationDue = [] := by simp [hdue, hout]
    rw [hnone, List.foldl_nil]
    exact ⟨q, by rw [← hq], by rw [hout]; rfl⟩
  | none =>
    have hone : [q].filter migrationDue = [q] := by simp [hdue, hout]
    refine ⟨{ q with out := some (failedOf q c 0) }, ?_, rfl⟩
    rw [hone, List.foldl_cons, List.foldl_nil, State.setOut, State.sess_modSess_self, hq]
    simp [hout]

end Sys2Proof.Machine
end

section
open Sys2Proof Sys2Proof.Machine

/-- Settles O29: a manifest kept and one taken, the three ends of a migration on either side, and action 4 on a failed one. -/
theorem migrationEndsOnBothSides : Obligations.MigrationEndsOnBothSides := by
  unfold Obligations.MigrationEndsOnBothSides
  intro s m x tag c
  refine ⟨fun h => ?kept, fun v r at_ hsess hst hmig hfetch hmanifests hswitch hserve => ⟨?takes, ?gone⟩, ?confirms,
    fun v hsess hmig => ⟨fun hst => ?abortsOut, fun hst => ?abortsIn⟩, ?times, fun v now hsess hfail => ⟨?source, ?target⟩,
    fun pk mt at_ hmig h => exec_migrationTimeout_early s x pk mt at_ hmig h⟩
  case kept =>
    refine ⟨_, exec_migManifest_kept s m h, List.mem_append_right _ (.head _), fun e he hlive => ?_, rfl⟩
    exact List.mem_append_left _ (List.mem_filter.2 ⟨he, decide_eq_true hlive⟩)
  case takes =>
    intro hheld htable _ hempty hpool
    have hexec := exec_migManifest_taken s m x at_ v hsess hst hmig hfetch hmanifests
    generalize hu : (s.manifestKept m).manifestTaken = u at hexec
    have hsame (y : Nat) : u.sess y = s.sess y := by rw [← hu]; rfl
    have hown : (u.partnered x m).ownerHub x = s.ownerHub x := by
      rw [State.ownerHub, State.partnered, State.sess_modSess_self, hsame, State.ownerHub]
    obtain ⟨a, ha⟩ := State.allocPages_same_pool (t := u.partnered x m) hpool (by rw [← hu]; rfl)
    rw [← hown] at ha
    have hself : (a.1.sessionTaken x m a.2).sess x = { (v.described m a.2) with partner := m.context } := by
      rw [State.sessionTaken_self, (State.allocPages_rest ha).1, State.partnered, State.sess_modSess_self, hsame, s.sess_only x v hsess]
      rfl
    rw [u.receiveManifest_takes x m r (by rw [← hu]; exact hswitch) (by rw [← hu]; exact hserve) hheld htable
      (by rw [hsame, s.sess_only x v hsess]; exact hempty) a ha] at hexec
    refine ⟨_, hexec, ?_, ?_, ?_, ?_, ?_, ?_, ?_, ?_, ?_, ?_, ?_, ?_, ?_, ?_, ?_, tfind_tset_self _ _ _, fun y hy => ?_⟩
    case refine_1 =>
      rw [hself]
      exact hst
    case refine_16 => rw [State.sessionTaken_ne _ _ _ _ _ hy, (State.allocPages_rest ha).1, State.partnered, State.sess_modSess_ne _ _ hy, hsame]
    all_goals rw [hself, Session.described]
  case gone =>
    intro hgen htag
    have hexec := exec_migManifest_taken s m x at_ v hsess hst hmig hfetch hmanifests
    generalize hu : (s.manifestKept m).manifestTaken = u at hexec
    have hpartner : (u.partnered x m).sess x = { v with partner := m.context } := by
      have hsame : u.sess x = s.sess x := by rw [← hu]; rfl
      rw [State.partnered, State.sess_modSess_self, hsame, s.sess_only x v hsess]
    rw [u.receiveManifest_gone x m r (by rw [← hu]; exact hswitch) (by rw [← hu]; exact hserve) hgen htag] at hexec
    obtain ⟨hself, hout⟩ := (u.partnered x m).abortMigration_self x m.source.val m.tag at_ .generationGone (by rw [hpartner]; exact hmig)
    refine ⟨_, hexec, ?_, ?_, ?_⟩
    · rw [hself, Session.migrationFailed]
    · rw [hself, Session.migrationFailed]
    · rw [hout, hpartner, if_pos hst]
      exact List.mem_append_right _ (.head _)
  case confirms =>
    intro pk at_ hst hmig
    refine ⟨_, exec_migConfirm s x tag pk at_ hst hmig, ?_, fun y hy => s.sess_modSess_ne _ hy, rfl⟩
    rw [State.sess_modSess_self]
  case abortsOut =>
    refine ⟨_, exec_migAbort_only s x tag x c v hsess hmig (.inl ⟨hst, rfl⟩), ?_, s.failMigration_outbox x c⟩
    rw [State.failMigration_self, s.sess_only x v hsess, Session.migrationFailed]
  case abortsIn =>
    refine ⟨_, exec_migAbort_only s x tag v.partner c v hsess hmig (.inr ⟨hst, rfl⟩), ?_, s.failMigration_fetching x c⟩
    rw [State.failMigration_self, s.sess_only x v hsess, Session.migrationFailed]
  case times =>
    intro v pk mt at_ hsess hopen hmig htime
    have hx := s.sess_only x v hsess
    obtain ⟨hself, hout⟩ := s.abortMigration_self x pk mt at_ .timeout (hx ▸ hmig)
    refine ⟨_, exec_migrationTimeout_ends s x pk mt at_ (hx ▸ hmig) (hx ▸ hopen) htime, ?_, ?_⟩
    · rw [hself, hx, Session.migrationFailed]
    · rw [hout, hx, abortMsg]
  case source =>
    rintro hst ⟨q, hq, b, hb⟩
    have hx := s.sess_only x v hsess
    obtain ⟨k, hk, hout⟩ := s.migrationAnswered_self x c q (hx ▸ hq) (.inl ⟨b, hb⟩)
    rw [s.failedMigration_source x now c (hx ▸ hfail) (by rw [hx, hst]; decide)]
    generalize hu : (s.migrationAnswered x c).modSess x _ = u
    have hself : u.sess x = { v with queue := [k], migFailed := none, st := .openS } := by
      rw [← hu, State.sess_modSess_self, hk, hx]
      simp [hst]
    obtain ⟨held, hend⟩ := u.flushSession_one x now k (by rw [hself]) hout
    rw [hend, hself]
    exact ⟨rfl, rfl, rfl, rfl, rfl⟩
  case target =>
    rintro hst -
    have hx := s.sess_only x v hsess
    rw [s.failedMigration_target x now c (hx ▸ hfail) (hx ▸ hst)]
    exact State.release_free _ x

end

section
/-!
TIME_ALIGN, START and BOOT_DOORBELL (R34, R35, R404, R517, R562, R569): what a start sets, and that what brings the hubs up leaves the clock,
the lockhouse and the stacks alone.
-/
namespace Sys2Proof.Machine

/-! ### Copies of device time -/

/-- The copies as TIME_ALIGN sets them. -/
def State.timeAligned (s : State) (a b : List Int) : State := { s with clock := { s.clock with skew := a, reeveSkew := b } }

/-- No copy in a hub is more than 2 ns away (R34). -/
theorem State.hubTime_near (s : State) (h : Nat) : s.clock.time ≤ s.hubTime h + 2 ∧ s.hubTime h ≤ s.clock.time + 2 := by
  unfold State.hubTime
  split <;> omega

/-- No copy in a reeve is more than 20 ns away (R35). -/
theorem State.reeveTime_near (s : State) (d : Nat) : s.clock.time ≤ s.reeveTime d + 20 ∧ s.reeveTime d ≤ s.clock.time + 20 := by
  unfold State.reeveTime
  omega

/-! ### A start -/

/-- The package as steps 3 to 5 of a start find it, without windows and keys (R404, R569). -/
def State.startBegun (s : State) (wake rc sound : Bool) : State :=
  let s0 := s.dark .starting
  let part := (s0.reg .sys 0x120).field 0 4
  { s0 with
    pkg := { s0.pkg with
      wake := wake, timeBase := s0.pkg.timeBase + 1, partGib := part, pcieEndpoint := rc
      rstLow := false, sleepAckLow := false, pwrreqLow := false, wakeLow := false }
    hbm := { units := (List.range 8).foldl (fun t k =>
      tput (fun _ => {}) t k ((s0.stack k).started k (16384 * part))) [] }
    store := { storeEpoch := s0.store.storeEpoch + 1 }
    lock := { s0.lock with entropyOk := sound }
    links := { s0.links with modules := (List.range 36).foldl (fun t n => tput (fun _ => {}) t n { state := 2, width := 64 }) [] } }

/-- The windows of a list, one after the other. -/
def State.winsSet (s : State) (f : Nat → Window) (l : List Nat) : State := l.foldl (fun (t : State) w => t.setWin w (f w)) s

theorem State.winsSet_eq (s : State) (f : Nat → Window) (l : List Nat) :
    s.winsSet f l = { s with serve := { s.serve with windows := l.foldl (fun t w => tput (fun _ => {}) t w (f w)) s.serve.windows } } := by
  induction l generalizing s with
  | nil => rfl
  | cons w l ih =>
    rw [State.winsSet, List.foldl_cons]
    exact ih _

theorem State.winsSet_win (s : State) (f : Nat → Window) (l : List Nat) (w : Nat) (h : w ∈ l) : (s.winsSet f l).win w = f w := by
  rw [State.winsSet_eq, State.win]
  exact (tget_foldl_tput _ f l _ w).trans (if_pos h)

/-- Keys and nonce drawn (R510, R511). -/
def State.keysDrawn (s : State) (l : List Nat) : State := (l.foldl (fun (t : State) k => t.renewKey k) s).drawNonce

theorem State.keysDrawn_frame (s : State) (l : List Nat) : s.keysDrawn l = { s with lock := (s.keysDrawn l).lock } := by
  have hkeys : l.foldl (fun (t : State) k => t.renewKey k) s =
      { s with lock := (l.foldl (fun (t : State) k => t.renewKey k) s).lock } := by
    induction l generalizing s with
    | nil => rfl
    | cons k l ih =>
      rw [List.foldl_cons, ih]
      rfl
  rw [State.keysDrawn, State.drawNonce, hkeys]

theorem State.keysDrawn_lock (s : State) (l : List Nat) :
    (s.keysDrawn l).lock.fuses = s.lock.fuses ∧ (s.keysDrawn l).lock.entropyOk = s.lock.entropyOk :=
  ⟨foldl_keeps (fun t : State => t.lock.fuses) _ l s fun _ _ => rfl, foldl_keeps (fun t : State => t.lock.entropyOk) _ l s fun _ _ => rfl⟩

/-- Training touches links and, by a module that stays out of service, the die's pattern (R407 to R409). -/
theorem State.trainModules_frame (s : State) (l : List Training) :
    s.trainModules l = { s with links := (s.trainModules l).links, dies := (s.trainModules l).dies } := by
  have hone (t : State) (e : Training) : t.trainModule e = { t with links := (t.trainModule e).links, dies := (t.trainModule e).dies } := by
    unfold State.trainModule
    extract_lets x tx rx fits s1
    split
    · rfl
    · split <;> rfl
  unfold State.trainModules
  induction l generalizing s with
  | nil => rfl
  | cons e l ih =>
    rw [List.foldl_cons, ih, hone s e]

/-- The windows as the marks give them at a start (R348). -/
def State.markedWindow (s : State) (w : Nat) : Window := (tget (fun _ => ({} : Marks)) s.serve.marks (w / 4)).window w

theorem State.begin_eq (s : State) (wake rc sound : Bool) (l : List Training) : s.begin wake rc sound l =
    ((((s.startBegun wake rc sound).winsSet s.markedWindow (List.range 16)).keysDrawn [keyDevice, keyPlatform, keyPublic]).trainModules l) :=
  rfl

/-- A start is its package, the windows and the drawn keys; training moves links and dies. -/
theorem State.begin_frame (s : State) (wake rc sound : Bool) (l : List Training) : s.begin wake rc sound l =
    { (s.startBegun wake rc sound).winsSet s.markedWindow (List.range 16) with
      lock := (s.begin wake rc sound l).lock, links := (s.begin wake rc sound l).links, dies := (s.begin wake rc sound l).dies } := by
  rw [State.begin_eq, State.trainModules_frame, State.keysDrawn_frame]

theorem State.begin_lock (s : State) (wake rc sound : Bool) (l : List Training) :
    (s.begin wake rc sound l).lock.fuses = (s.dark .starting).lock.fuses ∧ (s.begin wake rc sound l).lock.entropyOk = sound := by
  rw [State.begin_eq, State.trainModules_frame]
  obtain ⟨hfuses, hsound⟩ := ((s.startBegun wake rc sound).winsSet s.markedWindow (List.range 16)).keysDrawn_lock [keyDevice, keyPlatform, keyPublic]
  rw [State.winsSet_eq] at hfuses hsound ⊢
  exact ⟨hfuses, hsound⟩

theorem State.begin_mould (s : State) (wake rc sound : Bool) (l : List Training) (n m : Nat) :
    (s.begin wake rc sound l).mould n m = (s.dark .starting).mould n m := by
  rw [State.begin_frame, State.winsSet_eq]
  rfl

theorem State.begin_win (s : State) (wake rc sound : Bool) (l : List Training) (w : Nat) (h : w < 16) :
    (s.begin wake rc sound l).win w = s.markedWindow w := by
  have hserve : (s.begin wake rc sound l).serve = ((s.startBegun wake rc sound).winsSet s.markedWindow (List.range 16)).serve := by
    rw [State.begin_frame]
  rw [State.win, hserve, ← State.win, State.winsSet_win _ _ _ _ (List.mem_range.2 h)]

/-- START after too short a low of RST_N (R562). -/
theorem exec_start_short (s : State) (ns : Nat) (rc sound : Bool) (l : List Training)
    (hp : s.pkg.phase ∈ [.inReset, .off, .dormant]) (hlow : s.pkg.rstLow = true) (hns : ns < 1000) :
    exec (.start ns rc sound l) s =
      .next { s.dark .inReset with pkg := { (s.dark .inReset).pkg with rstLow := false, wakeLow := false } } :=
  (if_pos ⟨hp, hlow⟩).trans (if_neg (by omega))

end Sys2Proof.Machine
end

section
/-!
The end of a start (R255, R397 to R399, R404, R475, R517): repairs, coordinates and the quick check move crofts, dies, registers, marks and the
tally alone; clock, settings, lockhouse and stacks are those that the boot ROM left.
-/
namespace Sys2Proof.Machine

/-! ### What the end of a start leaves alone -/

/-- Clock, settings, lockhouse and stacks. -/
def State.spine (s : State) : Clock × Package × Lockhouse × Stacks := (s.clock, s.pkg, s.lock, s.hbm)

theorem State.foldl_spine {α : Type} (f : State → α → State) (hf : ∀ t x, (f t x).spine = t.spine) (l : List α) (s : State) :
    (l.foldl f s).spine = s.spine := foldl_keeps State.spine f l s hf

@[simp] theorem State.bump_spine (s : State) (p : Page) (o k : Nat) : (s.bump p o k).spine = s.spine := by
  rw [State.spine, State.bump_clock, State.bump_pkg, State.bump_lock, State.bump_hbm, State.spine]

@[simp] theorem State.modDie_spine (s : State) (d : Nat) (f : Die → Die) : (s.modDie d f).spine = s.spine := by
  rw [State.spine, State.modDie_clock, State.modDie_pkg, State.modDie_lock, State.modDie_hbm, State.spine]

@[simp] theorem State.modCroft_spine (s : State) (n : Nat) (f : Croft → Croft) : (s.modCroft n f).spine = s.spine := by
  rw [State.spine, State.modCroft_clock, State.modCroft_pkg, State.modCroft_lock, State.modCroft_hbm, State.spine]

@[simp] theorem State.modMould_spine (s : State) (n m : Nat) (f : Mould → Mould) : (s.modMould n m f).spine = s.spine := by
  rw [State.spine, State.modMould_clock, State.modMould_pkg, State.modMould_lock, State.modMould_hbm, State.spine]

@[simp] theorem State.modStep_spine (s : State) (i : Nat) (f : Step → Step) : (s.modStep i f).spine = s.spine := by
  rw [State.spine, State.modStep_clock, State.modStep_pkg, State.modStep_lock, State.modStep_hbm, State.spine]

@[simp] theorem State.spend_spine (s : State) (fj : Nat) : (s.spend fj).spine = s.spine := by
  rw [State.spine, State.spend, State.spine]

theorem Fenced.spine {s t : State} {n : Nat} (h : Fenced s t n) : t.spine = s.spine := by
  rw [State.spine, h.frame, State.spine]

@[simp] theorem State.degrade_spine (s : State) (d : Nat) : (s.degrade d).spine = s.spine := State.modDie_spine _ _ _

@[simp] theorem State.holdSlot_spine (s : State) (n k : Nat) : (s.holdSlot n k).spine = s.spine := State.modCroft_spine _ _ _

@[simp] theorem State.refuseRows_spine (s : State) (d : Nat) (rows : List Nat) : (s.refuseRows d rows).spine = s.spine := by
  simp [State.refuseRows]

@[simp] theorem State.markSuspect_spine (s : State) (i n : Nat) (m : Option Nat) : (s.markSuspect i n m).spine = s.spine := by
  unfold State.markSuspect
  split
  · rfl
  · dsimp only
    split <;> simp [State.gatherMark, State.bumpCroft]

@[simp] theorem State.dropWindow_spine (s : State) (n slot : Nat) : (s.dropWindow n slot).spine = s.spine := by
  unfold State.dropWindow
  split
  · split <;> simp
  · rfl

@[simp] theorem State.fence_spine (s : State) (n : Nat) : (s.fence n).spine = s.spine := (s.fence_fenced n).spine

@[simp] theorem State.mapReserve_spine (s : State) (n slot : Nat) : (s.mapReserve n slot).spine = s.spine := by
  unfold State.mapReserve
  split <;> simp

@[simp] theorem State.leaveService_spine (s : State) (n slot : Nat) (retired : Bool) : (s.leaveService n slot retired).spine = s.spine := by
  unfold State.leaveService
  split <;> simp

@[simp] theorem State.dropMould_spine (s : State) (n m : Nat) (retired : Bool) : (s.dropMould n m retired).spine = s.spine := by
  unfold State.dropMould
  split <;> simp

@[simp] theorem State.wantSpares_spine (s : State) (n m : Nat) (l : List Nat) : (s.wantSpares n m l).spine = s.spine := by
  unfold State.wantSpares
  split <;> simp

@[simp] theorem State.locate_spine (s : State) (n m : Nat) (cols : List Nat) : (s.locate n m cols).spine = s.spine := by
  unfold State.locate
  dsimp only
  split
  · exact s.dropMould_spine n m true
  · split
    · exact s.dropMould_spine n m false
    · split
      · exact s.dropMould_spine n m false
      · split <;> simp

theorem State.quickAttempts_spine (s : State) (n m : Nat) (l : List (GaugeRun × GaugeRun)) (k : Nat) :
    (s.quickAttempts n m l k).1.spine = s.spine := by
  induction l generalizing s k with
  | nil => rfl
  | cons a l ih =>
    rw [State.quickAttempts]
    dsimp only
    split
    · rfl
    · split
      · simp
      · split
        · simp
        · rw [ih]
          simp

theorem State.quickOne_spine (s : State) (n m : Nat) (q : QuickCheck) : (s.quickOne n m q).1.spine = s.spine := by
  have hattempts := s.quickAttempts_spine n m q.attempts 0
  unfold State.quickOne
  dsimp only
  split
  · exact hattempts
  · simp [State.bumpCroft, hattempts]

@[simp] theorem State.runQuick_spine (s : State) (d : Nat) : (s.runQuick d).spine = s.spine := by
  unfold State.runQuick
  dsimp only
  split
  · rfl
  · rw [State.modDie_spine]
    refine foldl_keeps (fun a : State × List (Nat × Nat) => a.1.spine) _ _ _ fun a e => ?_
    split
    · rfl
    · exact a.1.quickOne_spine _ _ _

theorem State.quickCheck_spine (s : State) (qs : List QuickCheck) : (s.quickCheck qs).spine = s.spine :=
  State.foldl_spine _ (fun _ d => (State.runQuick_spine _ d).trans (State.modDie_spine _ _ _)) _ s

theorem State.padSecond_spine (s : State) (n : Nat) (ps : Bool) (row : Nat) : (s.padSecond n ps row).spine = s.spine := by
  unfold State.padSecond
  dsimp only
  split <;> simp

theorem State.granSecond_spine (s : State) (d slice row : Nat) : (s.granSecond d slice row).spine = s.spine := by
  unfold State.granSecond
  dsimp only
  split <;> simp

theorem State.badRow_spine (s : State) (p : ParityPlace) : (s.badRow p).spine = s.spine := by
  cases p with
  | actPad c row _ => exact s.padSecond_spine _ _ _
  | psPad c row _ => exact s.padSecond_spine _ _ _
  | granary d slice row _ => exact s.granSecond_spine _ _ _

theorem State.placeCrofts_spine (s : State) : s.placeCrofts.spine = s.spine :=
  State.foldl_spine _ (fun t e => by split <;> simp) _ s

theorem State.probeLeft_spine (s : State) (clear : List (Nat × Nat)) : (s.probeLeft clear).spine = s.spine :=
  State.foldl_spine _ (fun t e => State.foldl_spine _ (fun u m => by split <;> simp) _ t) _ s

theorem State.fillSlot_spine (s : State) (n k : Nat) : (s.fillSlot n k).spine = s.spine := by
  unfold State.fillSlot
  split
  · split <;> simp
  · rfl

theorem State.fillSlots_spine (s : State) : s.fillSlots.spine = s.spine :=
  State.foldl_spine _ (fun t _ => State.foldl_spine _ (fun u k => u.fillSlot_spine _ k) _ t) _ s

theorem State.startFence_spine (s : State) (router : Bool) (n : Nat) : (s.startFence router n).spine = s.spine := by
  have hfence : (if s.service n = .fenced then s else s.fenceOnly n).spine = s.spine := by
    split
    · rfl
    · exact (s.fenceOnly_fenced n).spine
  unfold State.startFence
  dsimp only
  split <;> simp [hfence]

theorem State.takeCoordinate_spine (s : State) (n col : Nat) : (s.takeCoordinate n col).spine = s.spine := by
  rw [State.spine, (s.takeCoordinate_coordinated n col).frame, State.spine]

theorem State.mapAfresh_spine (s : State) : s.mapAfresh.spine = s.spine :=
  (State.foldl_spine _ (fun t n => t.takeCoordinate_spine n _) _ _).trans (State.foldl_spine _ (fun _ _ => State.modDie_spine _ _ _) _ s)

theorem State.resumeSpares_spine (s : State) : s.resumeSpares.spine = s.spine := by
  refine State.foldl_spine _ (fun t e => State.foldl_spine _ (fun u m => ?_) _ t) _ s
  unfold State.resumeMould
  dsimp only
  split
  · rfl
  · split <;> simp

theorem State.fitPatches_spine (s : State) : s.fitPatches.spine = s.spine :=
  State.foldl_spine _ (fun t d => by split <;> simp) _ s

/-- Steps 6 to 8 of a start (R255, R397, R489). -/
def State.startRepaired (s : State) (b : Bundle) : State :=
  let s1 := if s.pkg.wake then s else b.badRows.foldl (fun (t : State) p => t.badRow p) s
  let s2 := (s1.placeCrofts.probeLeft (b.clearMoulds.map fun e => (e.1.num, e.2.val))).fillSlots
  let routers := b.badRouters.map CroftAt.num
  let bad := ((b.badCrofts.map CroftAt.num) ++ routers ++ s2.slotless).eraseDups
  ((bad.foldl (fun (t : State) n => t.startFence (decide (n ∈ routers)) n) s2).mapAfresh).resumeSpares.fitPatches.quickCheck b.quick

theorem State.startRepaired_spine (s : State) (b : Bundle) : (s.startRepaired b).spine = s.spine := by
  have hrows : (if s.pkg.wake then s else b.badRows.foldl (fun (t : State) p => t.badRow p) s).spine = s.spine := by
    split
    · rfl
    · exact State.foldl_spine _ (fun t p => t.badRow_spine p) _ s
  unfold State.startRepaired
  dsimp only
  rw [State.quickCheck_spine, State.fitPatches_spine, State.resumeSpares_spine, State.mapAfresh_spine,
    State.foldl_spine _ (fun t n => t.startFence_spine _ n), State.fillSlots_spine, State.probeLeft_spine, State.placeCrofts_spine, hrows]

theorem State.finishStart_eq (s : State) (b : Bundle) : s.finishStart b = (s.startRepaired b).cleanPool.reportReady.evalService := rfl

/-! ### The pool and the report -/

/-- Blanking leaves no unclean page in the eight stacks, and touches neither clock nor settings nor lockhouse (R475). -/
theorem State.cleanPool_clean (s : State) : (∀ k < 8, (s.cleanPool.stack k).unclean = []) ∧ s.cleanPool.clock = s.clock ∧
    s.cleanPool.pkg = s.pkg ∧ s.cleanPool.lock = s.lock := by
  refine ⟨fun k hk => ?_, foldl_keeps State.clock _ _ s fun t k => ?_, foldl_keeps State.pkg _ _ s fun t k => ?_,
    foldl_keeps State.lock _ _ s fun t k => ?_⟩
  · refine foldl_reaches (fun t : State => (t.stack k).unclean = []) _ _ s k (List.mem_range.2 hk) (fun t => ?_) fun t j ht => ?_
    · rw [State.stack_modStack_self]
      rfl
    · rw [State.stack_modStack]
      split
      · rfl
      · exact ht
  · rw [State.modStack_clock, State.bump_clock]
  · rw [State.modStack_pkg, State.bump_pkg]
  · rw [State.modStack_lock, State.bump_lock]

theorem State.reportReady_reports (s : State) : s.reportReady.pkg.phase = .service ∧
    s.reportReady.tally.window = windowOfTime s.clock.time ∧ s.reportReady.lock = s.lock ∧ s.reportReady.hbm = s.hbm := by
  unfold State.reportReady State.alignBell
  split <;> exact ⟨rfl, rfl, rfl, rfl⟩

theorem State.evalService_frame (s : State) : s.evalService = { s with regs := s.evalService.regs, stew := s.evalService.stew } := by
  unfold State.evalService
  dsimp only
  split
  · rfl
  · obtain ⟨r, st, h, -⟩ := (s.setReg .sys 0x040 _).raiseIntr_frame 0x5000
    rw [h]
    rfl

/-- Package, lockhouse, stacks and tally of the evaluation are those before it (R505). -/
theorem State.evalService_keeps (s : State) : s.evalService.pkg = s.pkg ∧ s.evalService.lock = s.lock ∧ s.evalService.hbm = s.hbm ∧
    s.evalService.tally = s.tally := by
  rw [State.evalService_frame]
  exact ⟨rfl, rfl, rfl, rfl⟩

/-- Once a start is finished the hubs have reported (R404, R581). -/
theorem State.finishStart_reports (s : State) (b : Bundle) : (s.finishStart b).pkg.phase = .service ∧ (s.finishStart b).lock = s.lock ∧
    (∀ k < 8, ((s.finishStart b).stack k).unclean = []) ∧ (s.finishStart b).tally.window = windowOfTime s.clock.time := by
  have hspine := s.startRepaired_spine b
  obtain ⟨hclean, hclock, hpkg, hlock⟩ := (s.startRepaired b).cleanPool_clean
  obtain ⟨hphase, hwindow, hlock', hhbm⟩ := (s.startRepaired b).cleanPool.reportReady_reports
  simp only [State.spine, Prod.mk.injEq] at hspine
  obtain ⟨hclock0, -, hlock0, -⟩ := hspine
  obtain ⟨hpkg', hlock'', hhbm', htally⟩ := (s.startRepaired b).cleanPool.reportReady.evalService_keeps
  rw [State.finishStart_eq]
  refine ⟨?_, ?_, fun k hk => ?_, ?_⟩
  · rw [hpkg', hphase]
  · rw [hlock'', hlock', hlock, hlock0]
  · rw [State.stack, hhbm', hhbm, ← State.stack, hclean k hk]
  · rw [htally, hwindow, hclock, hclock0]

/-! ### The boot ROM accepts a bundle -/

/-- Copying the images moves neither clock nor settings (R517). -/
theorem State.copyImages_clock_pkg (s : State) (addr : Nat) (h : FwHead) :
    ((s.copyImages addr h).clock, (s.copyImages addr h).pkg) = (s.clock, s.pkg) := by
  refine foldl_keeps (fun t : State => (t.clock, t.pkg)) _ _ s fun t i => ?_
  dsimp only
  split
  · rfl
  · next o _ =>
    have hread := t.hostRead_mem (addr + i.offset) i.length
    have hwrite (u : State) (bytes : List (BitVec 8)) : MemStep u (u.writeFirmware o bytes) :=
      .foldl _ _ _ fun v k => v.writeBytes_mem _ _ _
    have hall := hread.trans (hwrite _ (t.hostRead (addr + i.offset) i.length).2.bytes)
    exact Prod.ext hall.clock hall.pkg

/-- The faults of a bundle in their order (R517 to R519), of a state with the package's settings and fuses. -/
theorem State.bundleFault_congr {s t : State} (hp : t.pkg = s.pkg) (hl : t.lock = s.lock) (h : FwHead) (len : Nat) (ok : Bool) :
    t.bundleFault h len ok = s.bundleFault h len ok := by
  unfold State.bundleFault
  rw [hp, hl]

section Faults
variable (s : State) (h : FwHead) (len : Nat) (ok : Bool)

theorem State.bundleFault_length (hlen : len < h.needed) : s.bundleFault h len ok = some .length := if_pos hlen

theorem State.bundleFault_unsigned (hlen : h.needed ≤ len) (hsig : signed s.pkg.rom.firmware ['F', 'W'] h.bytes h.signature = false) :
    s.bundleFault h len ok = some .auth :=
  (if_neg (by omega)).trans (if_pos hsig)

variable (hlen : h.needed ≤ len) (hsig : signed s.pkg.rom.firmware ['F', 'W'] h.bytes h.signature = true)
include hlen hsig

theorem State.bundleFault_format (hform : h.wellFormed s.pkg.dieRevision = false) : s.bundleFault h len ok = some .format :=
  (if_neg (by omega)).trans ((if_neg (ne_false_of_eq_true hsig)).trans (if_pos hform))

theorem State.bundleFault_older (hform : h.wellFormed s.pkg.dieRevision = true)
    (hbad : h.securityVersion < s.lock.fuses.rollback ∨ ok = false) : s.bundleFault h len ok = some .auth :=
  (if_neg (by omega)).trans ((if_neg (ne_false_of_eq_true hsig)).trans ((if_neg (ne_false_of_eq_true hform)).trans (if_pos hbad)))

theorem State.bundleFault_none (hform : h.wellFormed s.pkg.dieRevision = true) (hver : s.lock.fuses.rollback ≤ h.securityVersion)
    (hok : ok = true) : s.bundleFault h len ok = none :=
  (if_neg (by omega)).trans ((if_neg (ne_false_of_eq_true hsig)).trans ((if_neg (ne_false_of_eq_true hform)).trans
    (if_neg (by simp [hok, hver]))))

end Faults

/-- The lockhouse of a bundle that has passed (R517). -/
def State.firmwareRuns (s : State) (h : FwHead) : State :=
  { s with lock := { s.lock with fwVerified := true, ready := true, securityVersion := h.securityVersion, firmwareDigest := h.digest } }

/-- Stacks that fail step 4 of a start (R476). -/
def State.stacksOut (s : State) (l : List (StackId × Nat)) : State :=
  l.foldl (fun (t : State) e => t.modStack e.1.val fun x => { x with out := true, failedStep := e.2 }) s

theorem State.stacksOut_frame (s : State) (l : List (StackId × Nat)) :
    s.stacksOut l = { s with hbm := { s.hbm with units := (s.stacksOut l).hbm.units } } := by
  unfold State.stacksOut
  induction l generalizing s with
  | nil => rfl
  | cons e l ih =>
    rw [List.foldl_cons, ih]
    rfl

/-- A stack that is out stays out. -/
theorem State.stacksOut_out (s : State) (l : List (StackId × Nat)) (k : Nat) (h : (s.stack k).out = true) :
    ((s.stacksOut l).stack k).out = true := by
  refine l.foldlRecOn _ (motive := fun t : State => (t.stack k).out = true) h fun t ht e _ => ?_
  rw [State.stack_modStack]
  split
  · rfl
  · exact ht

theorem State.firmwareRuns_stack (s : State) (h : FwHead) (k : Nat) : (s.firmwareRuns h).stack k = s.stack k := rfl

/-- The state of a bundle that has passed, its stacks tested (R476, R517). -/
def State.bundleRuns (s : State) (b : Bundle) (h : FwHead) : State := ((s.copyImages b.addr h).firmwareRuns h).stacksOut b.badStacks

theorem exec_bootDoorbell_good (s : State) (b : Bundle) (hp : s.pkg.phase = .starting)
    (hc : (s.checkedBundle b).1.bundleFault (s.readBundle b.addr b.length).2 b.length (s.checkedBundle b).2 = none) :
    exec (.bootDoorbell b) s = .next
      (if ((List.range 8).any fun k => (((s.checkedBundle b).1.bundleRuns b (s.readBundle b.addr b.length).2).stack k).out) ||
          !((s.checkedBundle b).1.bundleRuns b (s.readBundle b.addr b.length).2).lock.entropyOk
        then (s.checkedBundle b).1.bundleRuns b (s.readBundle b.addr b.length).2
        else ((s.checkedBundle b).1.bundleRuns b (s.readBundle b.addr b.length).2).finishStart b) := by
  change execBootDoorbell b s = _
  rw [State.checkedBundle] at hc
  unfold execBootDoorbell
  rw [if_neg (by simp [hp])]
  dsimp only
  rw [hc, if_neg (by simp [hp]), State.checkedBundle]
  generalize ((s.readBundle b.addr b.length).1.bundleImages b.addr (s.readBundle b.addr b.length).2).1 = u
  rw [State.bundleRuns, State.firmwareRuns, State.stacksOut]

theorem exec_bootDoorbell_silent (s : State) (b : Bundle) (h1 : s.pkg.phase ≠ .starting) (h2 : s.pkg.phase ≠ .warmReset) :
    exec (.bootDoorbell b) s = .next s :=
  if_pos ⟨h1, h2⟩

/-- The lockhouse and the settings of a bundle that has passed. -/
theorem State.bundleRuns_lock (s : State) (b : Bundle) (h : FwHead) :
    (s.bundleRuns b h).lock = { (s.copyImages b.addr h).lock with
      fwVerified := true, ready := true, securityVersion := h.securityVersion, firmwareDigest := h.digest } := by
  rw [State.bundleRuns, State.stacksOut_frame, State.firmwareRuns]

theorem State.bundleRuns_clock_pkg (s : State) (b : Bundle) (h : FwHead) :
    (s.bundleRuns b h).clock = s.clock ∧ (s.bundleRuns b h).pkg = s.pkg := by
  obtain ⟨hclock, hpkg⟩ := Prod.mk.inj (s.copyImages_clock_pkg b.addr h)
  rw [State.bundleRuns, State.stacksOut_frame, State.firmwareRuns]
  exact ⟨hclock, hpkg⟩

end Sys2Proof.Machine
end

section
open Sys2Proof Sys2Proof.Machine

/-- Settles O13: the bounds of the copies, the parts of a start, and the boot ROM's checks one by one. -/
theorem timeAndStarts : Obligations.TimeAndStarts := by
  unfold Obligations.TimeAndStarts
  refine ⟨fun s a b => ⟨s.timeAligned a b, rfl, rfl, rfl, (s.timeAligned a b).hubTime_near, (s.timeAligned a b).reeveTime_near⟩,
    fun s ns rc sound l b => ⟨?starts, ?short, ?boots, exec_bootDoorbell_silent s b⟩⟩
  case starts =>
    intro hp hlow hns
    have hexec := exec_start_begins s ns rc sound l hp hlow hns
    generalize hwake : (s.pkg.phase == .dormant && s.pkg.pwrreqLow) = wake at hexec
    have hbegun := s.begin_frame wake rc sound l
    rw [State.winsSet_eq] at hbegun
    have hpkg : (s.begin wake rc sound l).pkg = (s.startBegun wake rc sound).pkg := by rw [hbegun]
    have hserve : (s.begin wake rc sound l).serve.sessions = [] ∧ (s.begin wake rc sound l).serve.steps = [] := by
      rw [hbegun]
      exact ⟨rfl, rfl⟩
    obtain ⟨hfuses, hsound⟩ := s.begin_lock wake rc sound l
    refine ⟨_, hexec, ?_, ?_, ?_, ?_, ?_, ?_, ?_, (s.begin_partSize wake rc sound l).1, ?_, hsound, fun n m => ?_, hserve.1, hserve.2, ?_, fun hb => ?_,
      fun w hw => s.begin_win wake rc sound l w hw⟩
    · rw [hpkg]
      rfl
    · rw [hbegun]
      rfl
    · rw [hpkg]
      rfl
    · rw [hpkg]
      rfl
    · rw [hpkg]
      rfl
    · rw [hpkg]
      rfl
    · rw [hpkg]
      change wake = true ↔ _
      rw [← hwake, Bool.and_eq_true, beq_iff_eq]
    · rw [hbegun]
      rfl
    · rw [State.begin_mould]
      exact (s.dark_mould .starting n m).1
    · rw [hbegun]
      rfl
    · rw [hfuses, State.dark, hb]
  case short =>
    intro hp hlow hns
    exact ⟨_, exec_start_short s ns rc sound l hp hlow hns, rfl, rfl, (s.dark_stopped .inReset).with_pkg _ ⟨rfl, rfl, rfl⟩⟩
  case boots =>
    rintro hp h rfl m hm
    change m = s.checkedBundle b at hm
    subst hm
    have hmem := s.checkedBundle_mem b
    have hfault := State.bundleFault_congr hmem.pkg hmem.lock (s.readBundle b.addr b.length).2 b.length (s.checkedBundle b).2
    refine ⟨fun hlen => ?_, fun hlen hsig => ?_, fun hlen hsig => ⟨fun hform => ?_, fun hform hbad => ?_, fun hform hver hok c hc => ?good⟩⟩
    · exact exec_bootDoorbell_fault s b _ hp (hfault.trans (s.bundleFault_length _ _ _ hlen))
    · exact exec_bootDoorbell_fault s b _ hp (hfault.trans (s.bundleFault_unsigned _ _ _ hlen hsig))
    · exact exec_bootDoorbell_fault s b _ hp (hfault.trans (s.bundleFault_format _ _ _ hlen hsig hform))
    · exact exec_bootDoorbell_fault s b _ hp (hfault.trans (s.bundleFault_older _ _ _ hlen hsig hform hbad))
    case good =>
      have hexec := exec_bootDoorbell_good s b hp (hfault.trans (s.bundleFault_none _ _ _ hlen hsig hform hver hok))
      generalize hh : (s.readBundle b.addr b.length).2 = h at *
      have hlock := (s.checkedBundle b).1.bundleRuns_lock b h
      obtain ⟨hclock, hpkg⟩ := (s.checkedBundle b).1.bundleRuns_clock_pkg b h
      rw [hmem.clock] at hclock
      rw [hmem.pkg] at hpkg
      have hrun : (s.checkedBundle b).1.bundleRuns b h = (c.firmwareRuns h).stacksOut b.badStacks := by rw [hc]; rfl
      rw [← hc] at hlock
      generalize (s.checkedBundle b).1.bundleRuns b h = u at *
      refine ⟨fun hbad => ?_, fun hnone hin hsound => ?_⟩
      · rw [if_pos] at hexec
        · refine ⟨u, hexec, by rw [hpkg, hp], by rw [hlock], by rw [hlock], ?_⟩
          rw [hrun, State.stacksOut_frame, State.firmwareRuns]
        · rw [Bool.or_eq_true, hlock]
          refine hbad.imp (fun ⟨k, hk, hout⟩ => ?_) fun hsound => by rw [hsound]; rfl
          refine List.any_eq_true.2 ⟨k, List.mem_range.2 hk, ?_⟩
          rw [hrun]
          exact State.stacksOut_out _ _ _ hout
      · rw [if_neg] at hexec
        · obtain ⟨hphase, hlock', hclean, hwindow⟩ := u.finishStart_reports b
          refine ⟨_, hexec, hphase, ?_, ?_, ?_, ?_, hclean, by rw [hwindow, hclock]⟩
          all_goals rw [hlock', hlock]
        · rw [Bool.or_eq_true, hlock, not_or, List.any_eq_true]
          refine ⟨fun ⟨k, hk, hout⟩ => ?_, by simp [hsound]⟩
          rw [hrun, hnone] at hout
          exact absurd (hin k (List.mem_range.1 hk)) (ne_false_of_eq_true hout)

end

section
/-!
Gather buffers (R197) of the dies, and what leaves them as they are: the state's own operations, memory, pages, casts and tables of prefixes.
-/
namespace Sys2Proof.Machine

/-- The gather buffer of each die of a table. -/
def dieGathers (t : Table Die) (d : Nat) : List GatherEntry := (tget (fun _ => {}) t d).gather

/-- The gather buffer of each die. -/
def State.gathers (s : State) : Nat → List GatherEntry := dieGathers s.dies

@[simp] theorem State.gathers_mk (a : List Instr) (b : Nat) (c : Clock) (d : Table Word) (e : Package) (f : Table Die) (g : Table Croft)
    (h : Serving) (i : Storage) (j : Stacks) (k : Tally) (l : Table Converter) (m : Links) (n : Lockhouse) (o : Steward) :
    (State.mk a b c d e f g h i j k l m n o).gathers = dieGathers f := (fun _ => rfl) ()

@[simp] theorem State.gathers_fold (s : State) : dieGathers s.dies = s.gathers := (fun _ => rfl) ()

theorem State.gathers_die (s : State) (d : Nat) : s.gathers d = (s.die d).gather := rfl

@[simp] theorem State.setDie_gathers (s : State) (d : Nat) (x : Die) (h : x.gather = (s.die d).gather) : (s.setDie d x).gathers = s.gathers := by
  funext e
  rw [State.gathers_die, State.gathers_die, State.setDie, State.die, tget_tput]
  split
  next he => rw [he, h]
  next => rfl

@[simp] theorem State.modDie_gathers (s : State) (d : Nat) (f : Die → Die) (h : ∀ x, (f x).gather = x.gather) :
    (s.modDie d f).gathers = s.gathers :=
  s.setDie_gathers d _ (h _)

@[simp] theorem Die.modLease_gather (x : Die) (i : Nat) (f : Lease → Lease) : (x.modLease i f).gather = x.gather := rfl
@[simp] theorem Die.revokeAll_gather (x : Die) : x.revokeAll.gather = x.gather := rfl
@[simp] theorem Die.dropPattern_gather (x : Die) : x.dropPattern.gather = x.gather := rfl
@[simp] theorem Die.degradePattern_gather (x : Die) : x.degradePattern.gather = x.gather := rfl
@[simp] theorem Die.writeRow_gather (x : Die) (i a : Nat) (b : List (BitVec 8)) : (x.writeRow i a b).gather = x.gather :=
  foldl_keeps Die.gather _ _ _ fun _ _ => rfl
@[simp] theorem Die.writeColumn_gather (x : Die) (i a e : Nat) (b : List (BitVec 8)) : (x.writeColumn i a e b).gather = x.gather :=
  foldl_keeps Die.gather _ _ _ fun _ _ => rfl
@[simp] theorem Die.patternAtBell_gather (x : Die) (ends : Bool) : (x.patternAtBell ends).gather = x.gather := by
  unfold Die.patternAtBell
  (repeat' split) <;> simp

theorem next_gathers {s t post : State} (h : (.next t : Host.Outcome State Fault Refusal) = .next post) (e : t.gathers = s.gathers) :
    post.gathers = s.gathers := by
  cases h
  exact e

@[simp] theorem ite_gathers {c : Prop} [Decidable c] (a b : State) : (if c then a else b).gathers = if c then a.gathers else b.gathers :=
  apply_ite (fun s : State => s.gathers) c a b

@[simp] theorem ite1_gathers {c : Prop} [Decidable c] {α : Type} (a b : State × α) :
    (if c then a else b).1.gathers = if c then a.1.gathers else b.1.gathers := apply_ite (fun s : State × α => s.1.gathers) c a b

@[simp] theorem foldl_gathers {α : Type} (f : State → α → State) (l : List α) (s : State) (h : ∀ t x, (f t x).gathers = t.gathers) :
    (l.foldl f s).gathers = s.gathers :=
  foldl_keeps State.gathers f l s h

theorem foldl1_gathers {α β : Type} (f : State × β → α → State × β) (l : List α) (s : State × β)
    (h : ∀ t x, (f t x).1.gathers = t.1.gathers) : (l.foldl f s).1.gathers = s.1.gathers :=
  foldl_keeps (fun r : State × β => r.1.gathers) f l s h

/-- A run that may give up, and keeps every gather buffer where it does not. -/
def MayKeep {β : Type} (s : State) (o : Option (State × β)) : Prop := ∀ r, o = some r → r.1.gathers = s.gathers

section
variable {α β γ : Type} {s : State}

theorem MayKeep.of_some {r : State × β} (h : r.1.gathers = s.gathers) : MayKeep s (some r) := fun _ e => Option.some.inj e ▸ h

theorem MayKeep.of_none : MayKeep s (none : Option (State × β)) :=
  fun _ e => (Option.some_ne_none _ e.symm).elim

theorem MayKeep.bind {o : Option (State × β)} {f : State × β → Option (State × γ)} (h : MayKeep s o)
    (hf : ∀ a, a.1.gathers = s.gathers → MayKeep s (f a)) : MayKeep s (o.bind f) := fun r e => by
  obtain ⟨a, ha, hr⟩ := Option.bind_eq_some_iff.mp e
  exact hf a (h a ha) r hr

theorem MayKeep.foldl {f : Option (State × β) → α → Option (State × β)} {o : Option (State × β)} (l : List α) (h : MayKeep s o)
    (hf : ∀ a x, MayKeep s a → MayKeep s (f a x)) : MayKeep s (l.foldl f o) :=
  l.foldlRecOn f (motive := MayKeep s) h fun a ha x _ => hf a x ha

theorem gathers_of_fst {r : State × β} {t : State} {o : β} (e : r = (t, o)) (h : r.1.gathers = s.gathers) : t.gathers = s.gathers := by
  subst e
  exact h
end

@[simp] theorem State.setCroft_gathers (s : State) (n : Nat) (x : Croft) : (s.setCroft n x).gathers = s.gathers := by simp [State.setCroft]

@[simp] theorem State.modCroft_gathers (s : State) (n : Nat) (f : Croft → Croft) : (s.modCroft n f).gathers = s.gathers := by
  simp [State.modCroft]

@[simp] theorem State.modMould_gathers (s : State) (c m : Nat) (f : Mould → Mould) : (s.modMould c m f).gathers = s.gathers := by
  simp [State.modMould]

@[simp] theorem State.setWin_gathers (s : State) (w : Nat) (x : Window) : (s.setWin w x).gathers = s.gathers := by simp [State.setWin]
@[simp] theorem State.modWin_gathers (s : State) (w : Nat) (f : Window → Window) : (s.modWin w f).gathers = s.gathers := by simp [State.modWin]
@[simp] theorem State.setSess_gathers (s : State) (x : Nat) (v : Session) : (s.setSess x v).gathers = s.gathers := by simp [State.setSess]

@[simp] theorem State.modSess_gathers (s : State) (x : Nat) (f : Session → Session) : (s.modSess x f).gathers = s.gathers := by
  simp [State.modSess]

@[simp] theorem State.modTenant_gathers (s : State) (t : Nat) (f : Tenant → Tenant) : (s.modTenant t f).gathers = s.gathers := by
  simp [State.modTenant]

@[simp] theorem State.modHub_gathers (s : State) (h : Nat) (f : HubAttn → HubAttn) : (s.modHub h f).gathers = s.gathers := by simp [State.modHub]

@[simp] theorem State.modStack_gathers (s : State) (k : Nat) (f : StackSt → StackSt) : (s.modStack k f).gathers = s.gathers := by
  simp [State.modStack]

@[simp] theorem State.modConv_gathers (s : State) (n : Nat) (f : Converter → Converter) : (s.modConv n f).gathers = s.gathers := by
  simp [State.modConv]

@[simp] theorem State.modPort_gathers (s : State) (p : Nat) (f : Port → Port) : (s.modPort p f).gathers = s.gathers := by simp [State.modPort]

@[simp] theorem State.modUmod_gathers (s : State) (n : Nat) (f : UModule → UModule) : (s.modUmod n f).gathers = s.gathers := by
  simp [State.modUmod]

@[simp] theorem State.advanceTo_gathers (s : State) (t : Nat) : (s.advanceTo t).gathers = s.gathers := by simp [State.advanceTo]
@[simp] theorem State.tick_gathers (s : State) : s.tick.gathers = s.gathers := by simp [State.tick]
@[simp] theorem State.setAct_gathers (s : State) (n a : Nat) (b : Byte) : (s.setAct n a b).gathers = s.gathers := by simp [State.setAct]
@[simp] theorem State.modStep_gathers (s : State) (id : Nat) (f : Step → Step) : (s.modStep id f).gathers = s.gathers := by simp [State.modStep]
@[simp] theorem State.mapSteps_gathers (s : State) (f : Step → Step) : (s.mapSteps f).gathers = s.gathers := by simp [State.mapSteps]

@[simp] theorem State.mapImages_gathers (s : State) (f : AdapterRec → AdapterRec) : (s.mapImages f).gathers = s.gathers := by
  simp [State.mapImages]

@[simp] theorem State.markStep_gathers (s : State) (id : Nat) (c : Cause) : (s.markStep id c).gathers = s.gathers := by simp [State.markStep]
@[simp] theorem State.failStep_gathers (s : State) (id : Nat) (c : Code) : (s.failStep id c).gathers = s.gathers := by simp [State.failStep]

@[simp] theorem State.setReg_gathers (s : State) (p : Page) (off : Nat) (v : Word) : (s.setReg p off v).gathers = s.gathers := by
  simp [State.setReg]

@[simp] theorem State.storeFields_gathers (s : State) (p : Page) (off : Nat) (v : Word) : (s.storeFields p off v).gathers = s.gathers := by
  unfold State.storeFields
  split <;> simp

@[simp] theorem State.bump_gathers (s : State) (p : Page) (off n : Nat) : (s.bump p off n).gathers = s.gathers := by simp [State.bump]
@[simp] theorem State.raiseIntr_gathers (s : State) (id : Nat) : (s.raiseIntr id).gathers = s.gathers := by simp [State.raiseIntr]

@[simp] theorem State.logError_gathers (s : State) (p : Page) (c : Code) (addr kind index : Nat) (reg : Bool) :
    (s.logError p c addr kind index reg).gathers = s.gathers := by
  simp [State.logError]

@[simp] theorem State.logEvent_gathers (s : State) (p : Page) (c : Code) (addr : Nat) : (s.logEvent p c addr).gathers = s.gathers := by
  simp [State.logEvent]

@[simp] theorem State.logAccess_gathers (s : State) (p : Page) (c : Code) (addr m : Nat) : (s.logAccess p c addr m).gathers = s.gathers := by
  simp [State.logAccess]

@[simp] theorem State.clearError_gathers (s : State) (p : Page) : (s.clearError p).gathers = s.gathers := by simp [State.clearError]

@[simp] theorem State.bumpCroft_gathers (s : State) (n off k : Nat) : (s.bumpCroft n off k).gathers = s.gathers := by
  simp [State.bumpCroft]

@[simp] theorem State.renewKey_gathers (s : State) (key : Nat) : (s.renewKey key).gathers = s.gathers := by simp [State.renewKey]
@[simp] theorem State.markUnclean_gathers (s : State) (p : Nat) : (s.markUnclean p).gathers = s.gathers := by simp [State.markUnclean]

@[simp] theorem State.setLineCode_gathers (s : State) (l : Nat) (c : LineCode) : (s.setLineCode l c).gathers = s.gathers := by
  simp [State.setLineCode]

@[simp] theorem State.listRow_gathers (s : State) (l : Nat) : (s.listRow l).gathers = s.gathers := by simp [State.listRow]
@[simp] theorem State.poisonLine_gathers (s : State) (l : Nat) : (s.poisonLine l).gathers = s.gathers := by simp [State.poisonLine]

@[simp] theorem State.readLine_gathers (s : State) (l key : Nat) : (s.readLine l key).1.gathers = s.gathers := by
  unfold State.readLine
  (repeat' split) <;> simp

@[simp] theorem State.writeLine_gathers (s : State) (l key : Nat) (bytes : List (BitVec 8)) (poison : Bool) :
    (s.writeLine l key bytes poison).gathers = s.gathers := by
  simp [State.writeLine]

@[simp] theorem State.writePart_gathers (s : State) (l o key : Nat) (bytes : List (BitVec 8)) : (s.writePart l o key bytes).gathers = s.gathers := by
  unfold State.writePart
  (repeat' split) <;> simp

@[simp] theorem State.readBytes_gathers (s : State) (a n key : Nat) : (s.readBytes a n key).1.gathers = s.gathers := by
  unfold State.readBytes
  exact foldl1_gathers _ _ _ (fun t x => by simp)

@[simp] theorem State.writeBytes_gathers (s : State) (a key : Nat) (bytes : List (BitVec 8)) : (s.writeBytes a key bytes).gathers = s.gathers := by
  simp [State.writeBytes]

@[simp] theorem State.writePages_gathers (s : State) (pages : List Nat) (key : Nat) (bytes : List (BitVec 8)) :
    (s.writePages pages key bytes).gathers = s.gathers := by
  simp [State.writePages]

@[simp] theorem State.readPages_gathers (s : State) (pages : List Nat) (key : Nat) : (s.readPages pages key).1.gathers = s.gathers :=
  foldl1_gathers _ _ _ (fun _ _ => by simp)

@[simp] theorem State.blankPage_gathers (s : State) (p : Nat) : (s.blankPage p).gathers = s.gathers := by simp [State.blankPage]

@[simp] theorem State.writeFirmware_gathers (s : State) (o : Nat) (bytes : List (BitVec 8)) : (s.writeFirmware o bytes).gathers = s.gathers := by
  simp [State.writeFirmware]

@[simp] theorem State.allocPage_gathers (s : State) (h : Nat) : (s.allocPage h).1.gathers = s.gathers := by
  unfold State.allocPage
  dsimp only
  split <;> simp

@[simp] theorem State.addRef_gathers (s : State) (p : Nat) : (s.addRef p).gathers = s.gathers := by simp [State.addRef]
@[simp] theorem State.dropRef_gathers (s : State) (p : Nat) : (s.dropRef p).gathers = s.gathers := by simp [State.dropRef]
@[simp] theorem State.dropRefs_gathers (s : State) (ps : List Nat) : (s.dropRefs ps).gathers = s.gathers := by simp [State.dropRefs]

theorem State.allocPages_mayKeep (s : State) (h n : Nat) : MayKeep s (s.allocPages h n) := by
  refine MayKeep.foldl _ (.of_some rfl) fun _ _ ho => ho.bind fun a ha => ?_
  split
  next t p ht => exact .of_some ((gathers_of_fst ht (a.1.allocPage_gathers h)).trans ha)
  next => exact .of_none

@[simp] theorem State.degrade_gathers (s : State) (d : Nat) : (s.degrade d).gathers = s.gathers := by simp [State.degrade]
@[simp] theorem State.fenceOnly_gathers (s : State) (n : Nat) : (s.fenceOnly n).gathers = s.gathers := by simp [State.fenceOnly]

@[simp] theorem State.takeCoordinate_gathers (s : State) (n col : Nat) : (s.takeCoordinate n col).gathers = s.gathers := by
  unfold State.takeCoordinate
  dsimp only
  split <;> simp

@[simp] theorem State.fence_gathers (s : State) (n : Nat) : (s.fence n).gathers = s.gathers := by simp [State.fence]
@[simp] theorem State.routerFault_gathers (s : State) (n : Nat) : (s.routerFault n).gathers = s.gathers := by simp [State.routerFault]

@[simp] theorem State.gatherMark_gathers (s : State) (n step : Nat) (c : Cause) : (s.gatherMark n step c).gathers = s.gathers := by
  simp [State.gatherMark]

@[simp] theorem State.startProbe_gathers (s : State) (n m : Nat) (step : Option Nat) : (s.startProbe n m step).gathers = s.gathers := by
  simp [State.startProbe]

@[simp] theorem State.markSuspect_gathers (s : State) (step n : Nat) (m : Option Nat) : (s.markSuspect step n m).gathers = s.gathers := by
  unfold State.markSuspect
  split <;> simp

@[simp] theorem State.mapReserve_gathers (s : State) (n slot : Nat) : (s.mapReserve n slot).gathers = s.gathers := by
  unfold State.mapReserve
  split <;> simp

@[simp] theorem State.holdSlot_gathers (s : State) (n slot : Nat) : (s.holdSlot n slot).gathers = s.gathers := by simp [State.holdSlot]

@[simp] theorem State.dropWindow_gathers (s : State) (n slot : Nat) : (s.dropWindow n slot).gathers = s.gathers := by
  unfold State.dropWindow
  split <;> simp

@[simp] theorem State.leaveService_gathers (s : State) (n slot : Nat) (retired : Bool) : (s.leaveService n slot retired).gathers = s.gathers := by
  unfold State.leaveService
  split <;> simp

@[simp] theorem State.spendMould_gathers (s : State) (n m : Nat) (st : MouldState) : (s.spendMould n m st).gathers = s.gathers := by
  unfold State.spendMould
  dsimp only
  split <;> simp

@[simp] theorem State.openCast_gathers (s : State) (n m gen : Nat) : (s.openCast n m gen).gathers = s.gathers := by
  simp [State.openCast]

@[simp] theorem State.openSpareCast_gathers (s : State) (n m : Nat) (spares : List Nat) : (s.openSpareCast n m spares).gathers = s.gathers := by
  simp [State.openSpareCast]

@[simp] theorem State.wantSpares_gathers (s : State) (n m : Nat) (spares : List Nat) : (s.wantSpares n m spares).gathers = s.gathers := by
  simp [State.wantSpares]

@[simp] theorem State.noteCast_gathers (s : State) (n m : Nat) : (s.noteCast n m).gathers = s.gathers := by simp [State.noteCast]
@[simp] theorem State.abandonCast_gathers (s : State) (n m : Nat) : (s.abandonCast n m).gathers = s.gathers := by simp [State.abandonCast]
@[simp] theorem State.stopCasts_gathers (s : State) : s.stopCasts.gathers = s.gathers := by simp [State.stopCasts]
@[simp] theorem State.send_gathers (s : State) (m : OutMsg) : (s.send m).gathers = s.gathers := by simp [State.send]

@[simp] theorem State.depart_gathers (s : State) (m : OutMsg) : (s.depart m).gathers = s.gathers := by
  unfold State.depart
  split <;> simp

@[simp] theorem State.readRemote_gathers (s : State) (package storeEpoch page first len dest context : Nat) :
    (s.readRemote package storeEpoch page first len dest context).gathers = s.gathers := by
  simp [State.readRemote]

@[simp] theorem State.fetchSlots_gathers (s : State) (x package storeEpoch src dest slots : Nat) :
    (s.fetchSlots x package storeEpoch src dest slots).gathers = s.gathers := by
  simp [State.fetchSlots]

@[simp] theorem State.enterPte_gathers (s : State) (x i : Nat) (e : Pte) : (s.enterPte x i e).gathers = s.gathers := by
  unfold State.enterPte
  split <;> simp

@[simp] theorem State.enterTables_gathers (s : State) (x : Nat) (l : List (Nat × Nat)) : (s.enterTables x l).gathers = s.gathers := by
  simp [State.enterTables]

@[simp] theorem State.newKvPage_gathers (s : State) (x layer head : Nat) : (s.newKvPage x layer head).1.gathers = s.gathers := by
  unfold State.newKvPage
  dsimp only
  split
  next t ht => exact gathers_of_fst ht (s.allocPage_gathers _)
  next t p ht => exact (t.writeBytes_gathers _ _ _).trans (gathers_of_fst ht (s.allocPage_gathers _))

@[simp] theorem State.pageForWrite_gathers (s : State) (x layer head pos : Nat) : (s.pageForWrite x layer head pos).1.gathers = s.gathers := by
  have hnew := s.newKvPage_gathers x layer head
  generalize hr : s.newKvPage x layer head = r at *
  obtain ⟨u, _ | p⟩ := r
  · unfold State.pageForWrite
    simp only [hr]
    (repeat' split) <;> simp_all
  · unfold State.pageForWrite
    simp only [hr]
    (repeat' split) <;> simp_all

@[simp] theorem State.writeKv_gathers (s : State) (x layer : Nat) (k : NewKV) : (s.writeKv x layer k).gathers = s.gathers := by
  unfold State.writeKv
  split
  next t ht => exact gathers_of_fst ht (s.pageForWrite_gathers _ _ _ _)
  next t p ht => simpa using gathers_of_fst ht (s.pageForWrite_gathers _ _ _ _)

theorem State.reservePages_mayKeep (s : State) (x first n : Nat) : MayKeep s (s.reservePages x first n) := by
  unfold State.reservePages
  dsimp only
  split
  · exact MayKeep.of_none
  · refine (State.allocPages_mayKeep _ _ _).bind fun a ha => MayKeep.foldl _ (.of_some (by simpa using ha)) fun _ e hb => hb.bind fun b hb => ?_
    split
    next t p ht => exact .of_some ((t.enterPte_gathers _ _ _).trans ((gathers_of_fst ht (b.1.newKvPage_gathers _ _ _)).trans hb))
    next => exact .of_none

@[simp] theorem State.freeRolledBack_gathers (s : State) (x : Nat) (due : List Nat) : (s.freeRolledBack x due).gathers = s.gathers := by
  unfold State.freeRolledBack
  refine foldl_gathers _ _ _ fun t i => ?_
  split <;> simp

@[simp] theorem State.freeBelowFloor_gathers (s : State) (x floor : Nat) : (s.freeBelowFloor x floor).gathers = s.gathers := by
  unfold State.freeBelowFloor
  refine foldl_gathers _ _ _ fun t i => ?_
  split <;> simp

@[simp] theorem State.dropSessionPages_gathers (s : State) (x : Nat) : (s.dropSessionPages x).gathers = s.gathers := by
  simp [State.dropSessionPages]

@[simp] theorem State.setNode_gathers (s : State) (i : Nat) (n : Node) : (s.setNode i n).gathers = s.gathers := by
  unfold State.setNode
  split <;> simp

@[simp] theorem State.modNode_gathers (s : State) (i : Nat) (f : Node → Node) : (s.modNode i f).gathers = s.gathers := by
  unfold State.modNode
  split <;> simp

theorem execCommonsLookup_gathers (context : Nat) (s : State) {post : State}
    (h : execCommonsLookup context s = .next post) : post.gathers = s.gathers := by
  unfold execCommonsLookup at h
  dsimp only at h
  (repeat' split at h) <;> obtain rfl := Host.Outcome.next.inj h <;> simp

@[simp] theorem State.copyPage_gathers (s : State) (src dst slots srcKey dstKey : Nat) (kv8 : Bool) :
    (s.copyPage src dst slots srcKey dstKey kv8).gathers = s.gathers := by
  simp [State.copyPage]

@[simp] theorem State.sharePage_gathers (s : State) (x layer head p : Nat) : (s.sharePage x layer head p).1.gathers = s.gathers := by
  unfold State.sharePage
  split
  · simp
  · dsimp only
    split
    next t r ht => exact (t.copyPage_gathers _ _ _ _ _ _).trans (gathers_of_fst ht (s.newKvPage_gathers _ _ _))
    next t ht => exact gathers_of_fst ht (s.newKvPage_gathers _ _ _)

@[simp] theorem State.dropPrefix_gathers (s : State) (i : Nat) : (s.dropPrefix i).gathers = s.gathers := by
  unfold State.dropPrefix
  (repeat' split) <;> simp

@[simp] theorem State.linkNode_gathers (s : State) (i : Nat) (n : Node) : (s.linkNode i n).gathers = s.gathers := by simp [State.linkNode]

@[simp] theorem State.unlinkNode_gathers (s : State) (i : Nat) (n : Node) : (s.unlinkNode i n).gathers = s.gathers := by
  unfold State.unlinkNode
  (repeat' split) <;> simp

@[simp] theorem State.evictNode_gathers (s : State) (i : Nat) : (s.evictNode i).gathers = s.gathers := by
  unfold State.evictNode
  (repeat' split) <;> simp

theorem execCommonsEvict_gathers (s : State) {post : State}
    (h : execCommonsEvict s = .next post) : post.gathers = s.gathers := by
  unfold execCommonsEvict at h
  (repeat' split at h) <;> obtain rfl := Host.Outcome.next.inj h <;> simp

@[simp] theorem State.evictPoisoned_gathers (s : State) (page : Nat) : (s.evictPoisoned page).gathers = s.gathers :=
  foldl_gathers _ _ _ fun _ _ => by simp

@[simp] theorem State.adoptPrefix_gathers (s : State) (x node p : Nat) : (s.adoptPrefix x node p).gathers = s.gathers := by
  unfold State.adoptPrefix
  dsimp only
  split
  · rfl
  rw [State.modSess_gathers, foldl_gathers _ _ _ fun t q => t.evictPoisoned_gathers q]
  refine foldl_gathers _ _ _ fun u lh => ?_
  generalize hw : List.foldl _ u _ = w
  have whole : w.gathers = u.gathers := by
    subst hw
    refine foldl_gathers _ _ _ fun v e => ?_
    split
    · split
      next z r hz => exact (z.enterPte_gathers _ _ _).trans (gathers_of_fst hz (v.sharePage_gathers _ _ _ _))
      next z hz => exact gathers_of_fst hz (v.sharePage_gathers _ _ _ _)
    · simp
    · rfl
  rw [← whole]
  split
  · rfl
  split
  · split
    next z r hz => simpa using gathers_of_fst hz (w.newKvPage_gathers _ _ _)
    next z hz => exact gathers_of_fst hz (w.newKvPage_gathers _ _ _)
  · split
    next z r hz => simpa using gathers_of_fst hz (w.newKvPage_gathers _ _ _)
    next z hz => exact gathers_of_fst hz (w.newKvPage_gathers _ _ _)
  · rfl

@[simp] theorem State.makeRoom_gathers (s : State) (n : Nat) : (s.makeRoom n).gathers = s.gathers := by
  unfold State.makeRoom
  refine foldl_gathers _ _ _ fun t i => ?_
  (repeat' split) <;> simp

theorem State.prefixEntries_mayKeep (s : State) (x len : Nat) : MayKeep s (s.prefixEntries x len) := by
  refine MayKeep.foldl _ (.of_some rfl) fun o lh ho => ?_
  dsimp only
  generalize hw : List.foldl _ o _ = w
  have whole : MayKeep s w := by
    subst hw
    refine MayKeep.foldl _ ho fun a e ha => ?_
    split
    · refine ha.bind fun a ha => ?_
      split
      next z r hz => exact .of_some (gathers_of_fst hz ((a.1.sharePage_gathers _ _ _ _).trans ha))
      next => exact .of_none
    · exact ha.bind fun a ha => .of_some ha
    · exact ha
  split
  · exact whole
  split
  · refine whole.bind fun a ha => ?_
    split
    next z r hz =>
      refine .of_some (gathers_of_fst hz (Eq.trans ?_ ha))
      split
      next u p hu => exact (u.copyPage_gathers _ _ _ _ _ _).trans (gathers_of_fst hu (a.1.newKvPage_gathers _ _ _))
      next u hu => exact gathers_of_fst hu (a.1.newKvPage_gathers _ _ _)
    next => exact .of_none
  · exact MayKeep.of_none
  · exact whole

@[simp] theorem State.insertPrefix_gathers (s : State) (x tag : Nat) : (s.insertPrefix x tag).gathers = s.gathers := by
  unfold State.insertPrefix
  dsimp only
  split
  · simp
  split
  · rfl
  split
  · simp
  split
  · simp
  next r hr =>
    rw [foldl_gathers _ _ _ fun t q => t.evictPoisoned_gathers q, State.bump_gathers, foldl1_gathers]
    · simpa using State.prefixEntries_mayKeep _ _ _ r hr
    · intro a i
      dsimp only
      split <;> simp

end Sys2Proof.Machine
end

section
/-!
What leaves every gather buffer as it is, continued: windows, promotions, gauging, casts, parity errors and transfers.
-/
namespace Sys2Proof.Machine

@[simp] theorem State.countStale_gathers (s : State) (n step : Nat) : (s.countStale n step).gathers = s.gathers := by
  simp [State.countStale]

@[simp] theorem State.spend_gathers (s : State) (fj : Nat) : (s.spend fj).gathers = s.gathers := by simp [State.spend]

@[simp] theorem State.countSkips_gathers (s : State) (n : Nat) (ws : List Witness) : (s.countSkips n ws).gathers = s.gathers := by
  simp [State.countSkips]

@[simp] theorem State.afterPass_gathers (s : State) (n slot m step : Nat) (p : PassOut) : (s.afterPass n slot m step p).gathers = s.gathers := by
  simp [State.afterPass]

@[simp] theorem State.zeroWindow_gathers (s : State) (n slot step : Nat) : (s.zeroWindow n slot step).gathers = s.gathers := by
  simp [State.zeroWindow]

@[simp] theorem State.countHistogram_gathers (s : State) (n slot : Nat) (hot : List (Nat × Nat)) (res : List (Nat × Int)) :
    (s.countHistogram n slot hot res).gathers = s.gathers := by
  unfold State.countHistogram
  dsimp only
  split
  · refine foldl_gathers _ _ _ fun t e => ?_
    split <;> simp
  · rfl

@[simp] theorem State.openWindow_gathers (s : State) (w : WindowIn) (m : Nat) : (s.openWindow w m).gathers = s.gathers := by
  simp [State.openWindow]

theorem execForwardWindow_gathers (w : WindowIn) (s : State) {post : State}
    (h : execForwardWindow w s = .next post) : post.gathers = s.gathers := by
  unfold execForwardWindow at h
  dsimp only at h
  (repeat' split at h) <;> cases h <;> simp

@[simp] theorem State.accAdd_gathers (s : State) (n a : Nat) (v : Int) (mark : Bool) : (s.accAdd n a v mark).gathers = s.gathers := by
  simp [State.accAdd]

@[simp] theorem State.noteSpan_gathers (s : State) (n : Nat) (p : PromotionIn) : (s.noteSpan n p).gathers = s.gathers := by
  unfold State.noteSpan
  split <;> simp

@[simp] theorem State.promoteRun_gathers (s : State) (n : Nat) (p : PromotionIn) : (s.promoteRun n p).gathers = s.gathers := by
  simp [State.promoteRun]

@[simp] theorem State.accClear_gathers (s : State) (n a : Nat) : (s.accClear n a).gathers = s.gathers := by simp [State.accClear]

@[simp] theorem State.addPartials_gathers (s : State) (n acc : Nat) (ps : List PartialSum) : (s.addPartials n acc ps).gathers = s.gathers := by
  simp [State.addPartials]

@[simp] theorem State.addProducts_gathers (s : State) (n acc : Nat) (ts : List D8Term) : (s.addProducts n acc ts).gathers = s.gathers := by
  simp [State.addProducts]

@[simp] theorem State.stage_gathers (s : State) (n : Nat) (g : StageIn) : (s.stage n g).gathers = s.gathers := by simp [State.stage]

@[simp] theorem State.rescale_gathers (s : State) (n : Nat) (p : PromotionIn) (r : RescaleIn) : (s.rescale n p r).gathers = s.gathers := by
  unfold State.rescale
  dsimp only
  split <;> simp

@[simp] theorem State.embed_gathers (s : State) (n acc : Nat) (e : EmbedIn) : (s.embed n acc e).gathers = s.gathers := by simp [State.embed]

@[simp] theorem State.addGradients_gathers (s : State) (n : Nat) (g : GradientIn) : (s.addGradients n g).gathers = s.gathers := by
  simp [State.addGradients]

theorem execRunPromotion_gathers (p : PromotionIn) (s : State) {post : State}
    (h : execRunPromotion p s = .next post) : post.gathers = s.gathers := by
  unfold execRunPromotion at h
  dsimp only at h
  (repeat' split at h) <;> cases h <;> simp

@[simp] theorem State.zeroRows_gathers (s : State) (n slot : Nat) : (s.zeroRows n slot).gathers = s.gathers := by simp [State.zeroRows]

@[simp] theorem State.openTransposed_gathers (s : State) (t : TransposedIn) (m : Nat) : (s.openTransposed t m).gathers = s.gathers := by
  simp [State.openTransposed]

theorem execTransposedWindow_gathers (t : TransposedIn) (s : State) {post : State}
    (h : execTransposedWindow t s = .next post) : post.gathers = s.gathers := by
  unfold execTransposedWindow at h
  (repeat' split at h) <;> cases h <;> simp

@[simp] theorem State.seedCroft_gathers (s : State) (j : Job) (n : Nat) : (s.seedCroft j n).gathers = s.gathers := by simp [State.seedCroft]
@[simp] theorem updateOne_gathers (a : State × Job) (i : UpdateItem) : (updateOne a i).1.gathers = a.1.gathers := by simp [updateOne]

@[simp] theorem clearSums_gathers (l : List UpdateItem) (a : State × Job) : (clearSums l a).1.gathers = a.1.gathers := by simp [clearSums]

theorem execMicroBatchUpdate_gathers (context : Nat) (items : List UpdateItem) (nextOffset : Nat) (s : State) {post : State}
    (h : execMicroBatchUpdate context items nextOffset s = .next post) : post.gathers = s.gathers := by
  have hu (j : Job) : (items.foldl updateOne (s, j)).1.gathers = s.gathers := foldl1_gathers _ _ _ fun a i => updateOne_gathers a i
  unfold execMicroBatchUpdate at h
  dsimp only at h
  (repeat' split at h) <;> obtain rfl := Host.Outcome.next.inj h <;> simp [hu]

@[simp] theorem State.countVerdict_gathers (s : State) (n m : Nat) : (s.countVerdict n m).gathers = s.gathers := by
  unfold State.countVerdict
  split <;> simp

@[simp] theorem State.dropMould_gathers (s : State) (n m : Nat) (retired : Bool) : (s.dropMould n m retired).gathers = s.gathers := by
  unfold State.dropMould
  split <;> simp

@[simp] theorem State.locate_gathers (s : State) (n m : Nat) (cols : List Nat) : (s.locate n m cols).gathers = s.gathers := by
  simp [State.locate]

@[simp] theorem State.verdict_gathers (s : State) (n m : Nat) (cols : List Nat) (packFail : Option Nat) :
    (s.verdict n m cols packFail).gathers = s.gathers := by
  unfold State.verdict
  (repeat' split) <;> simp

theorem execProbeVerdict_gathers (croft : CroftAt) (mould : PhysMould) (columns : List ColumnProbe) (packs : List PackPass) (s : State) {post : State}
    (h : execProbeVerdict croft mould columns packs s = .next post) : post.gathers = s.gathers := by
  unfold execProbeVerdict at h
  dsimp only at h
  (repeat' split at h) <;> obtain rfl := Host.Outcome.next.inj h <;> simp

theorem execStandinCopyArrive_gathers (croft : CroftAt) (mould : PhysMould) (column : Fin 262) (copy : List (Nat × Int))
    (poisoned : Bool) (s : State) {post : State}
    (h : execStandinCopyArrive croft mould column copy poisoned s = .next post) : post.gathers = s.gathers := by
  unfold execStandinCopyArrive at h
  dsimp only at h
  (repeat' split at h) <;> obtain rfl := Host.Outcome.next.inj h <;> simp

@[simp] theorem State.endAttempt_gathers (s : State) (n m : Nat) : (s.endAttempt n m).gathers = s.gathers := by simp [State.endAttempt]
@[simp] theorem State.screenProbe_gathers (s : State) (n m : Nat) : (s.screenProbe n m).gathers = s.gathers := by simp [State.screenProbe]

@[simp] theorem State.acceptAttempt_gathers (s : State) (n m : Nat) (a b : RunTerms) : (s.acceptAttempt n m a b).gathers = s.gathers := by
  simp [State.acceptAttempt]

@[simp] theorem State.rejectAttempt_gathers (s : State) (n m : Nat) : (s.rejectAttempt n m).gathers = s.gathers := by
  simp [State.rejectAttempt]

theorem execGaugeRunEnd_gathers (croft : CroftAt) (mould : PhysMould) (s : State) {post : State}
    (h : execGaugeRunEnd croft mould s = .next post) : post.gathers = s.gathers := by
  unfold execGaugeRunEnd at h
  dsimp only at h
  (repeat' split at h) <;> obtain rfl := Host.Outcome.next.inj h <;> simp

@[simp] theorem State.quickAttempts_gathers (s : State) (n m : Nat) (l : List (GaugeRun × GaugeRun)) (k : Nat) :
    (s.quickAttempts n m l k).1.gathers = s.gathers := by
  induction l generalizing s k with
  | nil => simp [State.quickAttempts]
  | cons a l ih =>
    unfold State.quickAttempts
    dsimp only
    split
    · simp
    · split
      · simp
      · split <;> simp [ih]

@[simp] theorem State.quickOne_gathers (s : State) (n m : Nat) (q : QuickCheck) : (s.quickOne n m q).1.gathers = s.gathers := by simp [State.quickOne]

@[simp] theorem State.runQuick_gathers (s : State) (d : Nat) : (s.runQuick d).gathers = s.gathers := by
  unfold State.runQuick
  dsimp only
  split
  · rfl
  · refine (State.modDie_gathers _ _ _ ?_).trans (foldl1_gathers _ _ _ fun a e => ?_)
    · exact fun _ => rfl
    · split <;> simp

@[simp] theorem State.quickCheck_gathers (s : State) (qs : List QuickCheck) : (s.quickCheck qs).gathers = s.gathers := by
  simp [State.quickCheck]

@[simp] theorem State.resumeMould_gathers (s : State) (n m : Nat) : (s.resumeMould n m).gathers = s.gathers := by simp [State.resumeMould]
@[simp] theorem State.resumeSpares_gathers (s : State) : s.resumeSpares.gathers = s.gathers := by simp [State.resumeSpares]

@[simp] theorem State.stageImage_gathers (s : State) (n slot : Nat) (bytes : List (Nat × BitVec 8)) :
    (s.stageImage n slot bytes).gathers = s.gathers := by
  simp [State.stageImage]

theorem execCastRowGroupEnd_gathers (g : RowGroupIn) (s : State) {post : State}
    (h : execCastRowGroupEnd g s = .next post) : post.gathers = s.gathers := by
  unfold execCastRowGroupEnd at h
  dsimp only at h
  (repeat' split at h) <;> obtain rfl := Host.Outcome.next.inj h <;> simp

@[simp] theorem State.writeCroftRecord_gathers (s : State) (n g castDate : Nat) : (s.writeCroftRecord n g castDate).gathers = s.gathers := by
  simp [State.writeCroftRecord]

@[simp] theorem State.closeSpares_gathers (s : State) (n m : Nat) (k : Cast) (bad : List Nat) : (s.closeSpares n m k bad).gathers = s.gathers := by
  unfold State.closeSpares
  dsimp only
  (repeat' split) <;> simp

@[simp] theorem State.rewriteHot_gathers (s : State) (n m : Nat) : (s.rewriteHot n m).gathers = s.gathers := by
  unfold State.rewriteHot
  split <;> simp

theorem execCastClose_gathers (c : CastCloseIn) (s : State) {post : State}
    (h : execCastClose c s = .next post) : post.gathers = s.gathers := by
  unfold execCastClose at h
  dsimp only at h
  (repeat' split at h) <;> obtain rfl := Host.Outcome.next.inj h <;> simp

@[simp] theorem State.markAndCount_gathers (s : State) (step : Nat) (c : Cause) (p : Page) (off : Nat) :
    (s.markAndCount step c p off).gathers = s.gathers := by
  unfold State.markAndCount
  split <;> simp

@[simp] theorem State.padSecond_gathers (s : State) (n : Nat) (ps : Bool) (row : Nat) : (s.padSecond n ps row).gathers = s.gathers := by
  unfold State.padSecond
  split <;> simp

@[simp] theorem State.padError_gathers (s : State) (n : Nat) (ps : Bool) (row word step : Nat) :
    (s.padError n ps row word step).gathers = s.gathers := by
  simp [State.padError]

@[simp] theorem State.refuseRows_gathers (s : State) (d : Nat) (rows : List Nat) : (s.refuseRows d rows).gathers = s.gathers := by
  simp [State.refuseRows]

@[simp] theorem State.granSecond_gathers (s : State) (d slice row : Nat) : (s.granSecond d slice row).gathers = s.gathers := by
  unfold State.granSecond
  split <;> simp

@[simp] theorem State.granError_gathers (s : State) (d slice row word step : Nat) : (s.granError d slice row word step).gathers = s.gathers := by
  simp [State.granError]

theorem execPadParityError_gathers (place : ParityPlace) (step : Nat) (s : State) {post : State}
    (h : execPadParityError place step s = .next post) : post.gathers = s.gathers := by
  unfold execPadParityError at h
  split at h <;> obtain rfl := Host.Outcome.next.inj h <;> simp

@[simp] theorem State.setError_gathers (s : State) (n m : Nat) (bank1 : Bool) (o : Nat) : (s.setError n m bank1 o).gathers = s.gathers := by
  simp [State.setError]

@[simp] theorem State.regionError_gathers (s : State) (n line step : Nat) : (s.regionError n line step).gathers = s.gathers := by
  unfold State.regionError
  split <;> simp

theorem execStoreParityError_gathers (croft : CroftAt) (line : Fin 1024) (word : Fin 32) (step : Nat) (s : State) {post : State}
    (h : execStoreParityError croft line word step s = .next post) : post.gathers = s.gathers := by
  unfold execStoreParityError at h
  dsimp only at h
  (repeat' split at h) <;> obtain rfl := Host.Outcome.next.inj h <;> simp

@[simp] theorem State.patchDecided_gathers (s : State) (d row : Nat) (fits : Bool) : (s.patchDecided d row fits).gathers = s.gathers := by
  simp [State.patchDecided]

theorem execDetourFit_gathers (die : DieId) (row : Fin 32) (s : State) {post : State}
    (h : execDetourFit die row s = .next post) : post.gathers = s.gathers := by
  unfold execDetourFit at h
  dsimp only at h
  split at h <;> obtain rfl := Host.Outcome.next.inj h <;> simp

@[simp] theorem State.takeMark_gathers (s : State) (n : Nat) (k : Nat × Cause) : (s.takeMark n k).gathers = s.gathers := by
  unfold State.takeMark
  split <;> simp

@[simp] theorem State.sendMark_gathers (s : State) (n : Nat) : (s.sendMark n).gathers = s.gathers := by simp [State.sendMark]
@[simp] theorem State.reply_gathers (s : State) (d : Nat) (r : Reply) : (s.reply d r).gathers = s.gathers := by simp [State.reply]

@[simp] theorem State.refuseNarrow_gathers (s : State) (d addr : Nat) (c : Code) (h : Holder) : (s.refuseNarrow d addr c h).gathers = s.gathers := by
  simp [State.refuseNarrow]

theorem execNarrowRead_gathers (die : DieId) (addr len epoch : Nat) (requester : Holder) (parityError : Bool) (s : State) {post : State}
    (h : execNarrowRead die addr len epoch requester parityError s = .next post) : post.gathers = s.gathers := by
  unfold execNarrowRead at h
  dsimp only at h
  (repeat' split at h) <;> obtain rfl := Host.Outcome.next.inj h <;> simp

@[simp] theorem State.revokeDma_gathers (s : State) (h : Nat) (channels : Option (List Nat)) : (s.revokeDma h channels).gathers = s.gathers := by
  simp [State.revokeDma]

@[simp] theorem State.writeLeaseRevoke_gathers (s : State) (d : Nat) (v : Word) : (s.writeLeaseRevoke d v).gathers = s.gathers := by
  rw [State.writeLeaseRevoke, State.bump_gathers]
  exact s.modDie_gathers _ _ fun x => x.modLease_gather _ _

@[simp] theorem State.writePadRow_gathers (s : State) (n : Nat) (ps : Bool) (row : Nat) (bytes : List (BitVec 8)) (sigma : BitVec 16) :
    (s.writePadRow n ps row bytes sigma).gathers = s.gathers := by
  simp [State.writePadRow]

@[simp] theorem State.writePlace_gathers (s : State) (d : Nat) (at_ : RowPlace) (bytes : List (BitVec 8)) (sigma : BitVec 16) :
    (s.writePlace d at_ bytes sigma).gathers = s.gathers := by
  unfold State.writePlace
  split <;> simp

@[simp] theorem State.carryMarks_gathers (s : State) (d : Nat) (at_ : RowPlace) (marks : List Nat) :
    (s.carryMarks d at_ marks).gathers = s.gathers := by
  unfold State.carryMarks
  split <;> simp

@[simp] theorem State.transfer_gathers (s before : State) (d : Nat) (t : TransferPlan) :
    (State.transfer s before d t).gathers = s.gathers := by simp [State.transfer]

@[simp] theorem State.transferAll_gathers (s : State) (d : Nat) (l : List TransferPlan) : (s.transferAll d l).gathers = s.gathers := by
  unfold State.transferAll
  rw [foldl1_gathers _ _ _ fun _ _ => by simp]

@[simp] theorem State.transfersTo_gathers (s : State) (d now : Nat) : (s.transfersTo d now).gathers = s.gathers := by
  unfold State.transfersTo
  dsimp only
  split <;> simp

@[simp] theorem State.finishTransfers_gathers (s : State) (d : Nat) : (s.finishTransfers d).gathers = s.gathers := by
  unfold State.finishTransfers
  split <;> simp

@[simp] theorem State.allTransfers_gathers (s : State) (now : Nat) : (s.allTransfers now).gathers = s.gathers := by simp [State.allTransfers]

@[simp] theorem State.quenchCast_gathers (s : State) (n slot : Nat) (area : Bool) : (s.quenchCast n slot area).gathers = s.gathers := by
  simp [State.quenchCast]

@[simp] theorem State.quenchCasts_gathers (s : State) (d : Nat) (l : List (Nat × Nat × Bool)) : (s.quenchCasts d l).gathers = s.gathers := by
  simp [State.quenchCasts]

@[simp] theorem State.quenchCroft_gathers (s : State) (n : Nat) : (s.quenchCroft n).gathers = s.gathers := by simp [State.quenchCroft]

end Sys2Proof.Machine
end

section
/-!
What leaves every gather buffer as it is, continued: attention, the rings, intake and the registers of a die.
-/
namespace Sys2Proof.Machine

@[simp] theorem State.attnError_gathers (s : State) (h e slot : Nat) (c : Code) : (s.attnError h e slot c).gathers = s.gathers := by
  simp [State.attnError]

@[simp] theorem State.readyEngine_gathers (s : State) (h e : Nat) : (s.readyEngine h e).gathers = s.gathers := by simp [State.readyEngine]
@[simp] theorem State.issue_gathers (s : State) (h : Nat) (d : Descriptor) : (s.issue h d).gathers = s.gathers := by simp [State.issue]

@[simp] theorem State.markQueue_gathers (s : State) (h e : Nat) (c : Cause) : (s.markQueue h e c).gathers = s.gathers := by
  simp [State.markQueue]

@[simp] theorem State.endEngine_gathers (s : State) (h e : Nat) : (s.endEngine h e).gathers = s.gathers := by simp [State.endEngine]
@[simp] theorem State.finishSet_gathers (s : State) (h q : Nat) : (s.finishSet h q).gathers = s.gathers := by simp [State.finishSet]

@[simp] theorem State.walkErrors_gathers (s : State) (x layer head : Nat) : (s.walkErrors x layer head).gathers = s.gathers := by
  simp [State.walkErrors]

@[simp] theorem State.openSet_gathers (s : State) (h x : Nat) (e : ExchangeIn) (head : Nat) (ins : List QueryIn) :
    (s.openSet h x e head ins).gathers = s.gathers := by
  unfold State.openSet
  dsimp only
  rw [ite_gathers, State.finishSet_gathers, ite_self, foldl_gathers]
  · simp
  · intro t it
    split
    · split <;> simp
    · simp

theorem execAttnExchangeArrival_gathers (x : ExchangeIn) (s : State) {post : State}
    (h : execAttnExchangeArrival x s = .next post) : post.gathers = s.gathers := by
  unfold execAttnExchangeArrival at h
  split at h <;> obtain rfl := Host.Outcome.next.inj h <;> simp

theorem execKvWriteAck_gathers (step layer : Nat) (s : State) {post : State}
    (h : execKvWriteAck step layer s = .next post) : post.gathers = s.gathers := by
  refine next_gathers h (foldl_gathers _ _ _ fun t h => foldl_gathers _ _ _ fun u e => ?_)
  split <;> simp

@[simp] theorem State.readKeys_gathers (s : State) (d : Descriptor) (key : Nat) : (s.readKeys d key).1.gathers = s.gathers := by
  simp [State.readKeys]

@[simp] theorem State.processDesc_gathers (s : State) (h : Nat) (d : Descriptor) (qs : List Query) (key : Nat) :
    (s.processDesc h d qs key).1.gathers = s.gathers := by
  simp [State.processDesc]

theorem execDescriptorRun_gathers (hub : HubId) (engine : Fin 64) (s : State) {post : State}
    (h : execDescriptorRun hub engine s = .next post) : post.gathers = s.gathers := by
  unfold execDescriptorRun at h
  dsimp only at h
  (repeat' split at h) <;> obtain rfl := Host.Outcome.next.inj h <;> simp

theorem execPartialMerge_gathers (hub : HubId) (qset : Nat) (s : State) {post : State}
    (h : execPartialMerge hub qset s = .next post) : post.gathers = s.gathers := by
  unfold execPartialMerge at h
  dsimp only at h
  (repeat' split at h) <;> obtain rfl := Host.Outcome.next.inj h <;> simp

@[simp] theorem State.sendOutputs_gathers (s : State) (d : Nat) (rows : List RowPlace) (outs : List (List B32)) :
    (s.sendOutputs d rows outs).gathers = s.gathers := by
  simp [State.sendOutputs]

@[simp] theorem State.timeoutSet_gathers (s : State) (h q : Nat) : (s.timeoutSet h q).gathers = s.gathers := by simp [State.timeoutSet]

theorem execReleaseTime_gathers (hub : HubId) (qset : Nat) (s : State) {post : State}
    (h : execReleaseTime hub qset s = .next post) : post.gathers = s.gathers := by
  unfold execReleaseTime at h
  dsimp only at h
  (repeat' split at h) <;> obtain rfl := Host.Outcome.next.inj h <;> simp

theorem execAttnReq_gathers (r : AttnReqIn) (s : State) {post : State} (h : execAttnReq r s = .next post) : post.gathers = s.gathers := by
  unfold execAttnReq at h
  dsimp only at h
  split at h
  · exact next_gathers h (by simp)
  split at h
  · exact next_gathers h (by simp)
  split at h
  · exact next_gathers h (by simp)
  generalize hr : List.foldl _ (s, _) _ = run at h
  have hrun : run.1.gathers = s.gathers := by
    rw [← hr, foldl1_gathers]
    intro a p
    (repeat' split) <;> simp
  split at h <;> exact next_gathers h (by simpa using hrun)

@[simp] theorem State.timeoutRemote_gathers (s : State) (h tag : Nat) : (s.timeoutRemote h tag).gathers = s.gathers := by
  unfold State.timeoutRemote
  split <;> simp

@[simp] theorem State.loseRemote_gathers (s : State) (x package : Nat) : (s.loseRemote x package).gathers = s.gathers := by
  simp [State.loseRemote]

theorem execAttnRsp_gathers (hub : HubId) (tag status : Nat) (partials : List SoftState) (s : State) {post : State}
    (h : execAttnRsp hub tag status partials s = .next post) : post.gathers = s.gathers := by
  unfold execAttnRsp at h
  dsimp only at h
  (repeat' split at h) <;> obtain rfl := Host.Outcome.next.inj h <;> simp

@[simp] theorem State.setServed_gathers (s : State) (p : Nat) (t : Table Nat) : (s.setServed p t).gathers = s.gathers := by simp [State.setServed]

theorem execLeaseRenew_gathers (source : Fin 256) (storeEpoch : Nat) (pages : List Nat) (s : State) {post : State}
    (h : execLeaseRenew source storeEpoch pages s = .next post) : post.gathers = s.gathers := by
  unfold execLeaseRenew at h
  split at h <;> obtain rfl := Host.Outcome.next.inj h <;> simp

@[simp] theorem State.hostRead_gathers (s : State) (addr n : Nat) : (s.hostRead addr n).1.gathers = s.gathers := by
  unfold State.hostRead
  split <;> simp

@[simp] theorem State.hostWriteLine_gathers (s : State) (addr : Nat) (bytes : List (BitVec 8)) :
    (s.hostWriteLine addr bytes).gathers = s.gathers := by
  unfold State.hostWriteLine
  split <;> simp

@[simp] theorem State.readTokens_gathers (s : State) (addr count : Nat) : (s.readTokens addr count).1.gathers = s.gathers := by
  simp [State.readTokens]

@[simp] theorem State.writeRecord_gathers (s : State) (w n : Nat) (r : Record) : (s.writeRecord w n r).gathers = s.gathers := by
  unfold State.writeRecord
  split <;> simp

@[simp] theorem State.flushResp_gathers (s : State) (w n : Nat) : (s.flushResp w n).gathers = s.gathers := by
  induction n generalizing s with
  | zero => rfl
  | succ n ih =>
    unfold State.flushResp
    split
    · rfl
    · split
      · simp [ih]
      · rfl

@[simp] theorem State.packageOutcome_gathers (s : State) (w seq cookie : Nat) (code : Option Code) (value : Nat) :
    (s.packageOutcome w seq cookie code value).gathers = s.gathers := by
  simp [State.packageOutcome]

@[simp] theorem State.refuseWrite_gathers (s : State) (w : Nat) (h : CmdHead) (c : Code) : (s.refuseWrite w h c).gathers = s.gathers := by
  simp [State.refuseWrite]

@[simp] theorem State.emit_gathers (s : State) (x : Nat) (r : Record) : (s.emit x r).gathers = s.gathers := by simp [State.emit]

@[simp] theorem State.flushHeld_gathers (s : State) (x now n : Nat) : (s.flushHeld x now n).gathers = s.gathers := by
  induction n generalizing s with
  | zero => rfl
  | succ n ih =>
    unfold State.flushHeld
    dsimp only
    split
    · rfl
    · split
      · simp [ih]
      · rfl

@[simp] theorem State.flushOut_gathers (s : State) (now w : Nat) : (s.flushOut now w).gathers = s.gathers := by simp [State.flushOut]

@[simp] theorem State.readContents_gathers (s : State) (b : Body) (vocab : Nat) : (s.readContents b vocab).1.gathers = s.gathers := by
  unfold State.readContents
  split <;> simp

@[simp] theorem State.check_gathers (s : State) (w : Nat) (h : CmdHead) (b : Body) : (s.check w h b).1.gathers = s.gathers := by
  unfold State.check
  dsimp only
  (repeat' split) <;> simp

@[simp] theorem State.startHead_gathers (s : State) (x : Nat) : (s.startHead x).gathers = s.gathers := by
  unfold State.startHead
  dsimp only
  (repeat' split) <;> simp

@[simp] theorem State.enqueue_gathers (s : State) (x : Nat) (q : Queued) : (s.enqueue x q).gathers = s.gathers := by simp [State.enqueue]

@[simp] theorem State.repin_gathers (s : State) (x : Nat) (pin : Option IngotRec) : (s.repin x pin).gathers = s.gathers := by
  unfold State.repin
  split <;> simp

@[simp] theorem State.takeSlots_gathers (s : State) (w n : Nat) : (s.takeSlots w n).1.gathers = s.gathers := by
  unfold State.takeSlots
  split
  next a ha => exact State.allocPages_mayKeep _ _ _ a ha
  · rfl

@[simp] theorem State.modGen_gathers (s : State) (f : Generations → Generations) : (s.modGen f).gathers = s.gathers := by simp [State.modGen]

@[simp] theorem State.addAdapterCmd_gathers (s : State) (c : AdapterCmd) : (s.addAdapterCmd c).gathers = s.gathers := by
  simp [State.addAdapterCmd]

@[simp] theorem State.accept_gathers (s : State) (w : Nat) (h : CmdHead) (b : Body) (pin : Option IngotRec) (cont : Contents) :
    (s.accept w h b pin cont).gathers = s.gathers := by
  cases b
  case openS b =>
    simp only [State.accept]
    split
    · rfl
    next a ha => simpa using State.allocPages_mayKeep _ _ _ a ha
  case migrateIn b =>
    simp only [State.accept]
    split
    · rfl
    next a ha => simpa using State.allocPages_mayKeep _ _ _ a ha
  all_goals simp [State.accept]

@[simp] theorem State.clearMarks_gathers (s : State) (h : Nat) : (s.clearMarks h).gathers = s.gathers := by simp [State.clearMarks]
@[simp] theorem State.consume_gathers (s : State) (w : Nat) : (s.consume w).gathers = s.gathers := by simp [State.consume]

@[simp] theorem State.decision_gathers (s : State) (w : Nat) (h : CmdHead) (kind code : Nat) (body : List (Nat × Nat × Nat)) :
    (s.decision w h kind code body).gathers = s.gathers := by
  simp [State.decision]

@[simp] theorem State.decideOne_gathers (s : State) (w : Nat) (h : CmdHead) (b : Body) : (s.decideOne w h b).gathers = s.gathers := by
  unfold State.decideOne
  dsimp only
  (repeat' split) <;> simp

@[simp] theorem State.decideAll_gathers (s : State) (w n : Nat) : (s.decideAll w n).gathers = s.gathers := by
  induction n generalizing s with
  | zero => rfl
  | succ n ih =>
    unfold State.decideAll
    dsimp only
    split
    · split
      · simp
      · simp [ih]
    · simp

@[simp] theorem State.pump_gathers (s : State) (w : Nat) : (s.pump w).gathers = s.gathers := by simp [State.pump]

@[simp] theorem State.submit_gathers (s : State) (w : Nat) (h : CmdHead) (b : Body) : (s.submit w h b).gathers = s.gathers := by
  unfold State.submit
  (repeat' split) <;> simp

@[simp] theorem ok_gathers (s : State) : (ok s).1.gathers = s.gathers := by simp [ok]

@[simp] theorem State.refuse_gathers (s : State) (p : Page) (off : Nat) (c : Code) : (s.refuse p off c).1.gathers = s.gathers := by
  simp [State.refuse]

@[simp] theorem State.storeReg_gathers (s : State) (p : Page) (off : Nat) (v : Word) : (s.storeReg p off v).1.gathers = s.gathers := by
  simp [State.storeReg]

theorem State.access_gathers (s : State) (i : Instr) (f : State → State) (hf : ∀ u, (f u).gathers = u.gathers) {post : State}
    (h : s.access i f = .next post) : post.gathers = s.gathers := by
  unfold State.access at h
  split at h
  · cases h; exact hf s
  · split at h <;> (cases h; rfl)

@[simp] theorem State.beginLoad_gathers (s : State) (d : Nat) (p : PatternImage) (ofSwitch : Bool) :
    (s.beginLoad d p ofSwitch).gathers = s.gathers := by
  simp [State.beginLoad]

@[simp] theorem State.loadRegion_gathers (s : State) (d : Nat) (p : PatternImage) (at_ : Nat × Nat) : (s.loadRegion d p at_).gathers = s.gathers := by
  simp [State.loadRegion]

@[simp] theorem State.writePatLoad_gathers (s : State) (d : Nat) (v : Word) (image : PatternImage) :
    (s.writePatLoad d v image).1.gathers = s.gathers := by
  unfold State.writePatLoad
  split <;> simp

theorem execPatLoadGo_gathers (die : DieId) (v : Word) (image : PatternImage) (s : State) {post : State}
    (h : execPatLoadGo die v image s = .next post) : post.gathers = s.gathers :=
  State.access_gathers _ _ _ (fun _ => by simp) h

theorem execPatLoadUnload_gathers (die : DieId) (v : Word) (s : State) {post : State}
    (h : execPatLoadUnload die v s = .next post) : post.gathers = s.gathers :=
  State.access_gathers _ _ _ (fun _ => by simp) h

@[simp] theorem State.writeFenceReq_gathers (s : State) (d : Nat) (v : Word) : (s.writeFenceReq d v).1.gathers = s.gathers := by
  simp [State.writeFenceReq]

theorem execFenceReq_gathers (die : DieId) (v : Word) (s : State) {post : State}
    (h : execFenceReq die v s = .next post) : post.gathers = s.gathers :=
  State.access_gathers _ _ _ (fun _ => by simp) h

@[simp] theorem State.writeRecastReq_gathers (s : State) (d : Nat) (v : Word) : (s.writeRecastReq d v).1.gathers = s.gathers := by
  simp [State.writeRecastReq]

theorem execRecastMould_gathers (die : DieId) (v : Word) (s : State) {post : State}
    (h : execRecastMould die v s = .next post) : post.gathers = s.gathers :=
  State.access_gathers _ _ _ (fun _ => by simp) h

theorem execRecastAll_gathers (die : DieId) (v : Word) (s : State) {post : State}
    (h : execRecastAll die v s = .next post) : post.gathers = s.gathers :=
  State.access_gathers _ _ _ (fun _ => by simp) h

@[simp] theorem State.writeGaugeForce_gathers (s : State) (d : Nat) (v : Word) : (s.writeGaugeForce d v).1.gathers = s.gathers := by
  simp [State.writeGaugeForce]

theorem execGaugeForce_gathers (die : DieId) (v : Word) (s : State) {post : State}
    (h : execGaugeForce die v s = .next post) : post.gathers = s.gathers :=
  State.access_gathers _ _ _ (fun _ => by simp) h

theorem execHistSel_gathers (die : DieId) (v : Word) (s : State) {post : State}
    (h : execHistSel die v s = .next post) : post.gathers = s.gathers :=
  State.access_gathers _ _ _ (fun _ => by simp) h

theorem execLeaseRevoke_gathers (die : DieId) (v : Word) (s : State) {post : State}
    (h : execLeaseRevoke die v s = .next post) : post.gathers = s.gathers :=
  State.access_gathers _ _ _ (fun _ => by simp) h

end Sys2Proof.Machine
end

section
/-!
What leaves every gather buffer as it is, continued: turns, steps and commits, dies and casts at a bell, admission, images, the lockhouse and migration.
-/
namespace Sys2Proof.Machine

@[simp] theorem State.charge_gathers (s : State) (l : List (Nat × ℚ)) : (s.charge l).gathers = s.gathers := by simp [State.charge]

@[simp] theorem State.discharge_gathers (s : State) (now : Nat) (l : List (Nat × ℚ)) : (s.discharge now l).gathers = s.gathers := by
  simp [State.discharge]

@[simp] theorem State.setOut_gathers (s : State) (x seq : Nat) (f : Queued → Record) : (s.setOut x seq f).gathers = s.gathers := by
  simp [State.setOut]

@[simp] theorem State.flushOuts_gathers (s : State) (x now n : Nat) : (s.flushOuts x now n).gathers = s.gathers := by
  induction n generalizing s with
  | zero => rfl
  | succ n ih =>
    unfold State.flushOuts
    dsimp only
    split
    · rfl
    · split
      · simp
      · simp [ih]

@[simp] theorem State.flushSession_gathers (s : State) (x now : Nat) : (s.flushSession x now).gathers = s.gathers := by
  simp [State.flushSession]

@[simp] theorem State.dropSets_gathers (s : State) (step : Nat) : (s.dropSets step).gathers = s.gathers := by simp [State.dropSets]
@[simp] theorem State.unreserve_gathers (s : State) (x n : Nat) : (s.unreserve x n).gathers = s.gathers := by simp [State.unreserve]

@[simp] theorem State.leaveFlight_gathers (s : State) (x : Nat) (st : Step) : (s.leaveFlight x st).gathers = s.gathers := by
  simp [State.leaveFlight]

@[simp] theorem State.quenchLanesOf_gathers (s : State) (lanes : List (Nat × Nat × Nat)) : (s.quenchLanesOf lanes).gathers = s.gathers := by
  simp [State.quenchLanesOf]

@[simp] theorem State.quenchRowsOf_gathers (s : State) (x : Nat) (lines : List (Nat × Nat)) : (s.quenchRowsOf x lines).gathers = s.gathers := by
  simp [State.quenchRowsOf]

@[simp] theorem State.dropStep_gathers (s : State) (x now : Nat) : (s.dropStep x now).gathers = s.gathers := by
  unfold State.dropStep
  split <;> simp

@[simp] theorem State.withdraw_gathers (s : State) (st : Step) (now : Nat) : (s.withdraw st now).gathers = s.gathers := by simp [State.withdraw]

@[simp] theorem State.unbind_gathers (s : State) (image : Option Nat) : (s.unbind image).gathers = s.gathers := by
  unfold State.unbind
  split <;> simp

@[simp] theorem State.endTurn_gathers (s : State) (x kind code detail flags : Nat) (more : List (Nat × Nat × Nat)) :
    (s.endTurn x kind code detail flags more).gathers = s.gathers := by
  unfold State.endTurn
  split <;> simp

@[simp] theorem State.failTurn_gathers (s : State) (x : Nat) (c : Code) : (s.failTurn x c).gathers = s.gathers := by simp [State.failTurn]

@[simp] theorem State.failBefore_gathers (s : State) (x seq : Nat) (c : Code) : (s.failBefore x seq c).gathers = s.gathers := by
  simp [State.failBefore]

@[simp] theorem State.release_gathers (s : State) (x : Nat) : (s.release x).gathers = s.gathers := by simp [State.release]

@[simp] theorem State.endJob_gathers (s : State) (x now kind code detail : Nat) : (s.endJob x now kind code detail).gathers = s.gathers := by
  unfold State.endJob
  dsimp only
  split <;> simp

@[simp] theorem State.releaseEnded_gathers (s : State) (x now : Nat) : (s.releaseEnded x now).gathers = s.gathers := by
  simp [State.releaseEnded]

@[simp] theorem State.writeCkpt_gathers (s : State) (key : Nat) (k : CkptSlot) (lines : List (Nat × Nat)) :
    (s.writeCkpt key k lines).gathers = s.gathers := by
  simp [State.writeCkpt]

@[simp] theorem State.checkCkpt_gathers (s : State) (key : Nat) (k : CkptSlot) : (s.checkCkpt key k).1.gathers = s.gathers := by
  simp [State.checkCkpt]

@[simp] theorem State.usableCkpt_gathers (s : State) (key : Nat) (j : Job) : (s.usableCkpt key j).1.gathers = s.gathers := by
  simp [State.usableCkpt]

theorem execCheckpointDone_gathers (context : Nat) (s : State) {post : State}
    (h : execCheckpointDone context s = .next post) : post.gathers = s.gathers := by
  unfold execCheckpointDone at h
  (repeat' split at h) <;> obtain rfl := Host.Outcome.next.inj h <;> simp

@[simp] theorem State.reload_gathers (s : State) (j : Job) (k : CkptSlot) : (s.reload j k).gathers = s.gathers := by simp [State.reload]

@[simp] theorem State.restartJob_gathers (s : State) (x now : Nat) (c : Code) : (s.restartJob x now c).gathers = s.gathers := by
  unfold State.restartJob
  dsimp only
  (repeat' split) <;> simp

@[simp] theorem State.failWork_gathers (s : State) (st : Step) (now : Nat) (c : Code) : (s.failWork st now c).gathers = s.gathers := by
  simp [State.failWork]

@[simp] theorem State.sampleAt_gathers (s : State) (b : BellIn) (st : Step) (i : Nat) : (s.sampleAt b st i).1.gathers = s.gathers := by
  unfold State.sampleAt
  split <;> simp

@[simp] theorem State.samples_gathers (s : State) (b : BellIn) (st : Step) (n : Nat) : (s.samples b st n).1.gathers = s.gathers := by
  unfold State.samples
  exact foldl1_gathers _ _ _ (fun t x => by simp)

@[simp] theorem State.chargeTenant_gathers (s : State) (t amount : Nat) : (s.chargeTenant t amount).gathers = s.gathers := by
  simp [State.chargeTenant]

@[simp] theorem State.emitTokens_gathers (s : State) (x cookie flags now pos n : Nat) (l : List Nat) :
    (s.emitTokens x cookie flags now pos n l).gathers = s.gathers := by
  induction n generalizing s pos l with
  | zero => rfl
  | succ n ih =>
    unfold State.emitTokens
    dsimp only
    split
    · rfl
    · simp [ih]

@[simp] theorem State.noteProgress_gathers (s : State) (x n : Nat) : (s.noteProgress x n).gathers = s.gathers := by
  unfold State.noteProgress
  split <;> simp

@[simp] theorem State.commitTo_gathers (s : State) (x : Nat) (st : Step) (j tag : Nat) : (s.commitTo x st j tag).gathers = s.gathers := by
  simp [State.commitTo]

@[simp] theorem State.floorCommitted_gathers (s : State) (x : Nat) (t : Turn) : (s.floorCommitted x t).gathers = s.gathers := by
  simp [State.floorCommitted]

@[simp] theorem State.commitPrompt_gathers (s : State) (b : BellIn) (st : Step) (t : Turn) (now : Nat) :
    (s.commitPrompt b st t now).gathers = s.gathers := by
  simp [State.commitPrompt]

@[simp] theorem State.commitTokens_gathers (s : State) (b : BellIn) (st : Step) (t : Turn) (now : Nat) :
    (s.commitTokens b st t now).gathers = s.gathers := by
  unfold State.commitTokens
  dsimp only
  split <;> simp

@[simp] theorem State.trainImage_gathers (s : State) (x : Nat) (j : Job) : (s.trainImage x j).gathers = s.gathers := by
  have hk (n : Nat) : ((s.allocPages (s.ownerHub x) n).getD (s, [])).1.gathers = s.gathers := by
    cases hr : s.allocPages (s.ownerHub x) n with
    | none => rfl
    | some r => exact State.allocPages_mayKeep _ _ _ r hr
  unfold State.trainImage
  split
  · rfl
  · exact (State.tick_gathers _).trans (hk _)

@[simp] theorem State.commitTemper_gathers (s : State) (st : Step) (now : Nat) : (s.commitTemper st now).gathers = s.gathers := by
  unfold State.commitTemper
  dsimp only
  split <;> simp

@[simp] theorem State.commitStep_gathers (s : State) (b : BellIn) (st : Step) (now : Nat) : (s.commitStep b st now).gathers = s.gathers := by
  unfold State.commitStep
  dsimp only
  split <;> simp

@[simp] theorem State.footpathMarks_gathers (s : State) (d : Nat) : (s.footpathMarks d).gathers = s.gathers := by simp [State.footpathMarks]
@[simp] theorem State.fenceMarks_gathers (s : State) (d : Nat) : (s.fenceMarks d).gathers = s.gathers := by simp [State.fenceMarks]
@[simp] theorem State.bellMarks_gathers (s : State) : s.bellMarks.gathers = s.gathers := by simp [State.bellMarks]

@[simp] theorem State.mapRows_gathers (s : State) (d : Nat) : (s.mapRows d).gathers = s.gathers := by
  unfold State.mapRows
  dsimp only
  split
  · rfl
  · refine (State.modDie_gathers _ _ _ ?_).trans (foldl_gathers _ _ _ fun t e => ?_)
    · exact fun _ => rfl
    · split <;> simp

@[simp] theorem State.spareLive_gathers (s : State) (d : Nat) (j : SpareJob) : (s.spareLive d j).gathers = s.gathers := by simp [State.spareLive]
@[simp] theorem State.latchHist_gathers (s : State) (d : Nat) : (s.latchHist d).gathers = s.gathers := by simp [State.latchHist]
@[simp] theorem State.recordPattern_gathers (s : State) (d : Nat) : (s.recordPattern d).gathers = s.gathers := by simp [State.recordPattern]
@[simp] theorem State.dieAtBell_gathers (s : State) (now d : Nat) : (s.dieAtBell now d).gathers = s.gathers := by simp [State.dieAtBell]

@[simp] theorem State.diesAtBell_gathers (s : State) (now : Nat) (failed : List CroftAt) : (s.diesAtBell now failed).gathers = s.gathers := by
  simp [State.diesAtBell]

@[simp] theorem State.spareCast_gathers (s : State) (p k : Nat) : (s.spareCast p k).gathers = s.gathers := by
  unfold State.spareCast
  split <;> simp

@[simp] theorem State.spareCasts_gathers (s : State) (d : Nat) : (s.spareCasts d).gathers = s.gathers := by simp [State.spareCasts]

@[simp] theorem State.recastTurn_gathers (s : State) (n : Nat) : (s.recastTurn n).gathers = s.gathers := by
  unfold State.recastTurn
  dsimp only
  (repeat' split) <;> simp

@[simp] theorem State.tryCast_gathers (s : State) (now g : Nat) (w : WantedCast) : (s.tryCast now g w).gathers = s.gathers := by
  simp [State.tryCast]

@[simp] theorem State.startCasts_gathers (s : State) (now : Nat) : (s.startCasts now).gathers = s.gathers := by
  unfold State.startCasts
  have h : ∀ l : List Nat, (l.foldl (fun (t : State) n => t.recastTurn n)
      ((List.range 16).foldl (fun (t : State) d => t.spareCasts d) s)).gathers = s.gathers :=
    fun l => by simp
  dsimp only
  split
  · exact h _
  · split
    · rw [foldl_gathers _ _ _ fun t w => t.tryCast_gathers now _ w]
      exact h _
    · exact h _

@[simp] theorem State.preflight_gathers (s : State) (x now n : Nat) : (s.preflight x now n).gathers = s.gathers := by
  induction n generalizing s with
  | zero => rfl
  | succ n ih =>
    unfold State.preflight
    split
    · simp [ih]
    · rfl

@[simp] theorem State.adopt_gathers (s : State) (x : Nat) : (s.adopt x).gathers = s.gathers := by
  unfold State.adopt
  dsimp only
  (repeat' split) <;> simp

@[simp] theorem State.failAdmission_gathers (s : State) (x now : Nat) (c : Code) : (s.failAdmission x now c).gathers = s.gathers := by
  simp [State.failAdmission]

@[simp] theorem State.newFloor_gathers (s : State) (x : Nat) : (s.newFloor x).gathers = s.gathers := by
  unfold State.newFloor
  split <;> simp

@[simp] theorem State.enter_gathers (s : State) (x now lane : Nat) (c : Copy) (p : StepPlan) (rerun : Bool)
    (image : Option AdapterRec) (charges : List (Nat × Rat)) (records : Nat) :
    (s.enter x now lane c p rerun image charges records).gathers = s.gathers := by
  simp [State.enter]

theorem Adm.tryCopy_gathers (a : Adm) (now : Nat) (k : Candidate) (c : Copy) (image : Option AdapterRec) :
    (a.tryCopy now k c image).s.gathers = a.s.gathers := by
  unfold Adm.tryCopy
  dsimp only
  split
  · exact State.adopt_gathers _ _
  split
  · rfl
  split
  · simp
  next s2 l hr =>
    have h1 : s2.gathers = a.s.gathers := by simpa using State.reservePages_mayKeep _ _ _ _ _ hr
    (repeat' split) <;> simp [h1]

theorem Adm.try_gathers (now : Nat) (copies : List Copy) (a : Adm) (k : Candidate) : (Adm.try now copies a k).s.gathers = a.s.gathers := by
  unfold Adm.try
  dsimp only
  (repeat' split) <;> simp [Adm.tryCopy_gathers]

@[simp] theorem State.admission_gathers (s : State) (now : Nat) : (s.admission now).gathers = s.gathers := by
  unfold State.admission
  dsimp only
  split
  · rfl
  · refine (foldl_keeps (fun a : Adm => a.s.gathers) _ _ _ fun a k => Adm.try_gathers now _ a k).trans (foldl_gathers _ _ _ fun t x => ?_)
    split <;> simp

@[simp] theorem State.readReg_gathers (s : State) (p : Page) (off : Nat) (fs : List Field) : (s.readReg p off fs).1.gathers = s.gathers := by
  simp [State.readReg]

@[simp] theorem State.readImage_gathers (s : State) (addr len : Nat) : (s.readImage addr len).1.gathers = s.gathers := by simp [State.readImage]
@[simp] theorem State.readPack_gathers (s : State) (addr : Nat) : (s.readPack addr).1.gathers = s.gathers := by simp [State.readPack]

@[simp] theorem State.dropAdapterCmd_gathers (s : State) (c : AdapterCmd) : (s.dropAdapterCmd c).gathers = s.gathers := by
  simp [State.dropAdapterCmd]

theorem execAdapterVerified_gathers (handle : Nat) (image : AdapterImage) (s : State) {post : State}
    (h : execAdapterVerified handle image s = .next post) : post.gathers = s.gathers := by
  unfold execAdapterVerified at h
  dsimp only at h
  split at h
  · exact next_gathers h rfl
  split at h
  · exact next_gathers h (by simp)
  split at h
  · exact next_gathers h (by simp)
  next a ha => exact next_gathers h (by simpa using State.allocPages_mayKeep _ _ _ a ha)

theorem execIngotStageVerified_gathers (image : IngotImage) (s : State) {post : State}
    (h : execIngotStageVerified image s = .next post) : post.gathers = s.gathers := by
  unfold execIngotStageVerified at h
  dsimp only at h
  (repeat' split at h) <;> obtain rfl := Host.Outcome.next.inj h <;> simp

@[simp] theorem State.lockRefuse_gathers (s : State) (off : Nat) (c : Code) : (s.lockRefuse off c).1.gathers = s.gathers := by
  simp [State.lockRefuse]

@[simp] theorem State.writeAttest_gathers (s : State) (h : Nat) (v : Word) : (s.writeAttest h v).1.gathers = s.gathers := by
  simp [State.writeAttest]

theorem execLockAttest_gathers (hub : HubId) (v : Word) (s : State) {post : State}
    (h : execLockAttest hub v s = .next post) : post.gathers = s.gathers :=
  State.access_gathers _ _ _ (fun _ => by simp) h

@[simp] theorem State.snapAttest_gathers (s : State) (now : Nat) : (s.snapAttest now).gathers = s.gathers := by
  unfold State.snapAttest
  split <;> simp

@[simp] theorem State.hostWrite_gathers (s : State) (addr : Nat) (bytes : List (BitVec 8)) : (s.hostWrite addr bytes).gathers = s.gathers := by
  simp [State.hostWrite]

theorem execAttestReportDone_gathers (r : ReportIn) (s : State) {post : State}
    (h : execAttestReportDone r s = .next post) : post.gathers = s.gathers := by
  unfold execAttestReportDone at h
  dsimp only at h
  (repeat' split at h) <;> obtain rfl := Host.Outcome.next.inj h <;> simp

@[simp] theorem State.drawNonce_gathers (s : State) : s.drawNonce.gathers = s.gathers := by simp [State.drawNonce]
@[simp] theorem State.settlePorts_gathers (s : State) : s.settlePorts.gathers = s.gathers := by simp [State.settlePorts]

@[simp] theorem State.setDomain_gathers (s : State) (f : Lockhouse → Lockhouse) :
    (s.setDomain f).gathers = s.gathers := by simp [State.setDomain]

@[simp] theorem State.drawDomainKey_gathers (s : State) : s.drawDomainKey.gathers = s.gathers := (fun _ => rfl) ()

@[simp] theorem State.tellMembers_gathers (s : State) (body : List Nat) (key : Option Nat) : (s.tellMembers body key).gathers = s.gathers := by
  simp [State.tellMembers]

@[simp] theorem State.rekey_gathers (s : State) (notice : List Nat) : (s.rekey notice).gathers = s.gathers := by simp [State.rekey]

@[simp] theorem State.writeDomain_gathers (s : State) (h : Nat) (v : Word) : (s.writeDomain h v).1.gathers = s.gathers := by
  unfold State.writeDomain ok
  dsimp only
  (repeat' split) <;> simp

theorem execDomainJoin_gathers (hub : HubId) (v : Word) (s : State) {post : State}
    (h : execDomainJoin hub v s = .next post) : post.gathers = s.gathers :=
  State.access_gathers _ _ _ (fun _ => by simp) h

theorem execDomainLeave_gathers (hub : HubId) (v : Word) (s : State) {post : State}
    (h : execDomainLeave hub v s = .next post) : post.gathers = s.gathers :=
  State.access_gathers _ _ _ (fun _ => by simp) h

@[simp] theorem State.leaveAtBell_gathers (s : State) : s.leaveAtBell.gathers = s.gathers := by simp [State.leaveAtBell]
@[simp] theorem State.joinFailed_gathers (s : State) (index : Nat) : (s.joinFailed index).gathers = s.gathers := by simp [State.joinFailed]

theorem execJoinHello_gathers (port : PortId) (r : JoinReport) (s : State) {post : State}
    (h : execJoinHello port r s = .next post) : post.gathers = s.gathers := by
  unfold execJoinHello at h
  (repeat' split at h) <;> obtain rfl := Host.Outcome.next.inj h <;> simp

theorem execJoinReply_gathers (r : JoinReport) (keyEpoch : Nat) (s : State) {post : State}
    (h : execJoinReply r keyEpoch s = .next post) : post.gathers = s.gathers := by
  unfold execJoinReply at h
  (repeat' split at h) <;> obtain rfl := Host.Outcome.next.inj h <;> simp

theorem execJoinTimeout_gathers (s : State) {post : State}
    (h : execJoinTimeout s = .next post) : post.gathers = s.gathers := by
  unfold execJoinTimeout at h
  split at h <;> obtain rfl := Host.Outcome.next.inj h <;> simp

theorem execKeyEpochSwitch_gathers (s : State) {post : State}
    (h : execKeyEpochSwitch s = .next post) : post.gathers = s.gathers := by
  unfold execKeyEpochSwitch at h
  split at h <;> obtain rfl := Host.Outcome.next.inj h <;> simp

@[simp] theorem State.sendManifest_gathers (s : State) (x package tag : Nat) : (s.sendManifest x package tag).gathers = s.gathers := by
  simp [State.sendManifest]

@[simp] theorem State.failMigration_gathers (s : State) (x : Nat) (c : Code) : (s.failMigration x c).gathers = s.gathers := by
  simp [State.failMigration]

@[simp] theorem State.abortMigration_gathers (s : State) (x : Nat) (c : Code) : (s.abortMigration x c).gathers = s.gathers := by
  unfold State.abortMigration
  split <;> simp

@[simp] theorem State.failedMigration_gathers (s : State) (x now : Nat) : (s.failedMigration x now).gathers = s.gathers := by
  unfold State.failedMigration
  split <;> simp

@[simp] theorem State.takeEntry_gathers (s : State) (x : Nat) (m : Manifest) (e : Nat × Nat × Nat × Nat) :
    (s.takeEntry x m e).1.gathers = s.gathers := by
  unfold State.takeEntry
  split
  · split
    next t ht => exact gathers_of_fst ht (s.allocPage_gathers _)
    next t p ht => simpa using gathers_of_fst ht (s.allocPage_gathers _)
  · split <;> simp

@[simp] theorem State.receiveManifest_gathers (s : State) (x : Nat) (m : Manifest) : (s.receiveManifest x m).gathers = s.gathers := by
  unfold State.receiveManifest
  dsimp only
  split
  · simp
  split
  · simp
  next a ha =>
    have h1 : a.1.gathers = s.gathers := by simpa using State.allocPages_mayKeep _ _ _ a ha
    split
    · simpa using h1
    next b hb =>
      have h2 : b.1.gathers = s.gathers := by
        refine (State.allocPages_mayKeep _ _ _ b hb).trans ?_
        simpa using h1
      generalize hr : List.foldl _ (State.enterTables _ _ _, true) _ = r
      have h3 : r.1.gathers = s.gathers := by
        rw [← hr, foldl1_gathers]
        · simpa using h2
        · intro a e
          split <;> simp
      split <;> simp [h3]

@[simp] theorem State.takeManifest_gathers (s : State) (x : Nat) : (s.takeManifest x).gathers = s.gathers := by
  unfold State.takeManifest
  dsimp only
  (repeat' split) <;> simp

@[simp] theorem State.takeOver_gathers (s : State) (x now : Nat) : (s.takeOver x now).gathers = s.gathers := by
  unfold State.takeOver
  dsimp only
  (repeat' split) <;> simp

theorem execRreadReq_gathers (source : Fin 256) (tag storeEpoch page first len : Nat) (s : State) {post : State}
    (h : execRreadReq source tag storeEpoch page first len s = .next post) : post.gathers = s.gathers := by
  unfold execRreadReq at h
  (repeat' split at h) <;> obtain rfl := Host.Outcome.next.inj h <;> simp

@[simp] theorem State.storeFetched_gathers (s : State) (a key : Nat) (data : List (BitVec 8)) (poison : Bool) :
    (s.storeFetched a key data poison).gathers = s.gathers := by
  simp [State.storeFetched]

@[simp] theorem State.endCopy_gathers (s : State) (x : Nat) : (s.endCopy x).gathers = s.gathers := by simp [State.endCopy]

theorem execRreadRsp_gathers (port : PortId) (source : Fin 256) (tag status : Nat) (data : List (BitVec 8)) (poison : Bool) (s : State) {post : State}
    (h : execRreadRsp port source tag status data poison s = .next post) : post.gathers = s.gathers := by
  unfold execRreadRsp at h
  dsimp only at h
  (repeat' split at h) <;> obtain rfl := Host.Outcome.next.inj h <;> simp

theorem execRreadTimeout_gathers (tag : Nat) (s : State) {post : State}
    (h : execRreadTimeout tag s = .next post) : post.gathers = s.gathers := by
  unfold execRreadTimeout at h
  (repeat' split at h) <;> obtain rfl := Host.Outcome.next.inj h <;> simp

theorem execMigConfirm_gathers (context tag : Nat) (s : State) {post : State}
    (h : execMigConfirm context tag s = .next post) : post.gathers = s.gathers := by
  unfold execMigConfirm at h
  split at h <;> obtain rfl := Host.Outcome.next.inj h <;> simp

theorem execMigAbort_gathers (context tag : Nat) (code : Code) (s : State) {post : State}
    (h : execMigAbort context tag code s = .next post) : post.gathers = s.gathers := by
  unfold execMigAbort at h
  split at h <;> obtain rfl := Host.Outcome.next.inj h <;> simp

theorem execMigrationTimeout_gathers (context : Nat) (s : State) {post : State}
    (h : execMigrationTimeout context s = .next post) : post.gathers = s.gathers := by
  unfold execMigrationTimeout at h
  (repeat' split at h) <;> obtain rfl := Host.Outcome.next.inj h <;> simp

end Sys2Proof.Machine
end

section
/-!
What leaves every gather buffer as it is, continued: the actions of a bell, the registers of a package and messages.
-/
namespace Sys2Proof.Machine

@[simp] theorem State.gateCrofts_gathers (s : State) : s.gateCrofts.gathers = s.gathers := by simp [State.gateCrofts]

@[simp] theorem State.roleAtBell_gathers (s : State) (b : BellIn) : (s.roleAtBell b).gathers = s.gathers := by
  unfold State.roleAtBell
  split <;> simp

@[simp] theorem State.commonsAtBell_gathers (s : State) : s.commonsAtBell.gathers = s.gathers := by
  unfold State.commonsAtBell
  split
  · rfl
  · refine (foldl1_gathers _ _ _ fun t i => ?_).trans (by simp)
    split
    next u p hu => simpa using gathers_of_fst hu (t.1.allocPage_gathers _)
    next u hu => exact gathers_of_fst hu (t.1.allocPage_gathers _)

@[simp] theorem State.unmapHandles_gathers (s : State) (f : AdapterRec → Bool) : (s.unmapHandles f).gathers = s.gathers := by
  simp [State.unmapHandles]

@[simp] theorem State.endSwitch_gathers (s : State) (w : Switch) (c : Option Code) (f : Generations → Generations) :
    (s.endSwitch w c f).gathers = s.gathers := by
  simp [State.endSwitch]

@[simp] theorem State.revokeAtBell_gathers (s : State) : s.revokeAtBell.gathers = s.gathers := by
  unfold State.revokeAtBell
  (repeat' split) <;> simp

@[simp] theorem State.countPackageQuench_gathers (s : State) (d : Nat) : (s.countPackageQuench d).gathers = s.gathers := by
  simp [State.countPackageQuench]

@[simp] theorem State.fenceSession_gathers (s : State) (x now : Nat) : (s.fenceSession x now).gathers = s.gathers := by
  simp [State.fenceSession]

@[simp] theorem State.judgeStep_gathers (s : State) (now : Nat) (st : Step) : (s.judgeStep now st).gathers = s.gathers := by
  unfold State.judgeStep
  (repeat' split) <;> simp

@[simp] theorem State.action1_gathers (s : State) (now : Nat) : (s.action1 now).gathers = s.gathers := by simp [State.action1]
@[simp] theorem State.action2_gathers (s : State) (b : BellIn) (now : Nat) : (s.action2 b now).gathers = s.gathers := by simp [State.action2]

@[simp] theorem State.deadlineOf_gathers (s : State) (x now : Nat) : (s.deadlineOf x now).gathers = s.gathers := by
  unfold State.deadlineOf
  dsimp only
  split
  · rfl
  · rw [State.flushSession_gathers, foldl_gathers]
    intro t q
    generalize (match q.body with
      | .generate _ => true
      | _ => false) = gen
    split
    · split <;> simp
    · simp

@[simp] theorem State.openDone_gathers (s : State) (x now : Nat) : (s.openDone x now).gathers = s.gathers := by
  unfold State.openDone
  (repeat' split) <;> simp

@[simp] theorem State.stopOne_gathers (s : State) (x now : Nat) (stop : Queued) : (s.stopOne x now stop).gathers = s.gathers := by
  unfold State.stopOne
  dsimp only
  rw [State.modSess_gathers, foldl_gathers]
  intro t q
  split <;> simp

@[simp] theorem State.stops_gathers (s : State) (x now : Nat) : (s.stops x now).gathers = s.gathers := by simp [State.stops]

@[simp] theorem State.cancelOne_gathers (s : State) (x now : Nat) : (s.cancelOne x now).gathers = s.gathers := by
  unfold State.cancelOne
  dsimp only
  split <;> simp

@[simp] theorem State.headOne_gathers (s : State) (x now : Nat) : (s.headOne x now).gathers = s.gathers := by
  unfold State.headOne
  (repeat' split) <;> simp

@[simp] theorem State.endedJob_gathers (s : State) (x now : Nat) : (s.endedJob x now).gathers = s.gathers := by simp [State.endedJob]
@[simp] theorem State.controls_gathers (s : State) (x now : Nat) : (s.controls x now).gathers = s.gathers := by simp [State.controls]

@[simp] theorem State.clearFrees_gathers (s : State) (due : List (Nat × List Nat × Option Nat)) : (s.clearFrees due).gathers = s.gathers := by
  simp [State.clearFrees]

@[simp] theorem State.action5_gathers (s : State) (due : List (Nat × List Nat × Option Nat)) : (s.action5 due).gathers = s.gathers := by
  unfold State.action5
  refine foldl_gathers _ _ _ fun t e => ?_
  (repeat' split) <;> simp

@[simp] theorem State.action6_gathers (s : State) : s.action6.gathers = s.gathers := by simp [State.action6]
@[simp] theorem State.recastCroft_gathers (s : State) (n : Nat) : (s.recastCroft n).gathers = s.gathers := by simp [State.recastCroft]
@[simp] theorem State.beginRecast_gathers (s : State) : s.beginRecast.gathers = s.gathers := by simp [State.beginRecast]

@[simp] theorem State.loadAll_gathers (s : State) (l : List PatternRef) : (s.loadAll l).1.gathers = s.gathers := by
  induction l generalizing s with
  | nil => rfl
  | cons r rest ih =>
    unfold State.loadAll
    split
    · rfl
    · simp [ih]

@[simp] theorem State.action7_gathers (s : State) : s.action7.gathers = s.gathers := by
  unfold State.action7
  dsimp only
  (repeat' split) <;> simp

@[simp] theorem State.action8_gathers (s : State) : s.action8.gathers = s.gathers := by simp [State.action8]
@[simp] theorem State.action9_gathers (s : State) (now : Nat) : (s.action9 now).gathers = s.gathers := by simp [State.action9]
@[simp] theorem State.keepLanes_gathers (s : State) : s.keepLanes.gathers = s.gathers := by simp [State.keepLanes]

@[simp] theorem State.snapshot_gathers (s : State) (now : Nat) (old : List Nat) : (s.snapshot now old).gathers = s.gathers := by
  simp [State.snapshot]

@[simp] theorem State.eachSession_gathers (s : State) (f : State → Nat → State) (h : ∀ t x, (f t x).gathers = t.gathers) :
    (s.eachSession f).gathers = s.gathers := foldl_gathers f _ s h

@[simp] theorem State.writeHeld_gathers (s : State) (now : Nat) : (s.writeHeld now).gathers = s.gathers := by simp [State.writeHeld]
@[simp] theorem State.ringBell_gathers (s : State) (now : Nat) : (s.ringBell now).gathers = s.gathers := by simp [State.ringBell]
@[simp] theorem State.scheduleBell_gathers (s : State) (now : Nat) : (s.scheduleBell now).gathers = s.gathers := by simp [State.scheduleBell]
@[simp] theorem State.chargeLeak_gathers (s : State) : s.chargeLeak.gathers = s.gathers := by simp [State.chargeLeak]

@[simp] theorem State.writeCfg_gathers (s : State) (w n : Nat) (v : Word) : (s.writeCfg w n v).1.gathers = s.gathers := by
  simp [State.writeCfg]

theorem execRespCfg_gathers (w : WinId) (ring : Fin 9) (v : Word) (s : State) {post : State}
    (h : execRespCfg w ring v s = .next post) : post.gathers = s.gathers :=
  State.access_gathers _ _ _ (fun _ => by simp) h

@[simp] theorem State.resumeRing_gathers (s : State) (w n : Nat) : (s.resumeRing w n).gathers = s.gathers := by simp [State.resumeRing]

@[simp] theorem State.writeRelease_gathers (s : State) (w n : Nat) (v : Word) : (s.writeRelease w n v).1.gathers = s.gathers := by
  simp [State.writeRelease]

theorem execRespRelease_gathers (w : WinId) (ring : Fin 9) (v : Word) (s : State) {post : State}
    (h : execRespRelease w ring v s = .next post) : post.gathers = s.gathers :=
  State.access_gathers _ _ _ (fun _ => by simp) h

@[simp] theorem State.writeNextSeq_gathers (s : State) (w : Nat) (v : Word) : (s.writeNextSeq w v).1.gathers = s.gathers := by
  simp [State.writeNextSeq]

theorem execNextSeq_gathers (w : WinId) (v : Word) (s : State) {post : State}
    (h : execNextSeq w v s = .next post) : post.gathers = s.gathers :=
  State.access_gathers _ _ _ (fun _ => by simp) h

@[simp] theorem State.writeRole_gathers (s : State) (v : Word) : (s.writeRole v).1.gathers = s.gathers := by simp [State.writeRole]

theorem execSysRole_gathers (v : Word) (s : State) {post : State}
    (h : execSysRole v s = .next post) : post.gathers = s.gathers :=
  State.access_gathers _ _ _ (fun _ => by simp) h

@[simp] theorem State.writeBellNs_gathers (s : State) (v : Word) : (s.writeBellNs v).1.gathers = s.gathers := by simp [State.writeBellNs]

theorem execBellNs_gathers (v : Word) (s : State) {post : State}
    (h : execBellNs v s = .next post) : post.gathers = s.gathers :=
  State.access_gathers _ _ _ (fun _ => by simp) h

@[simp] theorem State.writePartSize_gathers (s : State) (v : Word) : (s.writePartSize v).1.gathers = s.gathers := by simp [State.writePartSize]

theorem execPartSize_gathers (v : Word) (s : State) {post : State}
    (h : execPartSize v s = .next post) : post.gathers = s.gathers :=
  State.access_gathers _ _ _ (fun _ => by simp) h

@[simp] theorem State.copyPack_gathers (s : State) (i : PackImage) : (s.copyPack i).gathers = s.gathers := by simp [State.copyPack]

@[simp] theorem State.writePackLoad_gathers (s : State) (v : Word) : (s.writePackLoad v).1.gathers = s.gathers := by
  unfold State.writePackLoad
  dsimp only
  (repeat' split) <;> simp

theorem execPackLoadGo_gathers (v : Word) (s : State) {post : State} (h : execPackLoadGo v s = .next post) : post.gathers = s.gathers :=
  State.access_gathers _ _ _ (fun _ => by simp) h

theorem execPackLoadClear_gathers (v : Word) (s : State) {post : State} (h : execPackLoadClear v s = .next post) : post.gathers = s.gathers :=
  State.access_gathers _ _ _ (fun _ => by simp) h

@[simp] theorem State.writeBudget_gathers (s : State) (t : Nat) (v : Word) : (s.writeBudget t v).1.gathers = s.gathers := by
  simp [State.writeBudget]

theorem execTenantBudget_gathers (tenant : Fin 4096) (v : Word) (s : State) {post : State}
    (h : execTenantBudget tenant v s = .next post) : post.gathers = s.gathers :=
  State.access_gathers _ _ _ (fun _ => by simp) h

@[simp] theorem State.writeClassLimit_gathers (s : State) (v : Word) : (s.writeClassLimit v).1.gathers = s.gathers := by
  simp [State.writeClassLimit]

theorem execClassLimit_gathers (v : Word) (s : State) {post : State}
    (h : execClassLimit v s = .next post) : post.gathers = s.gathers :=
  State.access_gathers _ _ _ (fun _ => by simp) h

@[simp] theorem State.writeDebtClear_gathers (s : State) (v : Word) : (s.writeDebtClear v).1.gathers = s.gathers := by
  simp [State.writeDebtClear]

theorem execDebtClear_gathers (v : Word) (s : State) {post : State}
    (h : execDebtClear v s = .next post) : post.gathers = s.gathers :=
  State.access_gathers _ _ _ (fun _ => by simp) h

@[simp] theorem State.writeCap_gathers (s : State) (v : Word) : (s.writeCap v).1.gathers = s.gathers := by simp [State.writeCap]
@[simp] theorem State.noteWatermark_gathers (s : State) (c : Nat) : (s.noteWatermark c).gathers = s.gathers := by simp [State.noteWatermark]
@[simp] theorem State.startSequence_gathers (s : State) (c : Nat) : (s.startSequence c).gathers = s.gathers := by simp [State.startSequence]

@[simp] theorem State.writeSenseCtl_gathers (s : State) (c : Nat) (v : Word) : (s.writeSenseCtl c v).1.gathers = s.gathers := by
  simp [State.writeSenseCtl]

theorem execSenseApply_gathers (conv : Fin 20) (v : Word) (s : State) {post : State}
    (h : execSenseApply conv v s = .next post) : post.gathers = s.gathers :=
  State.access_gathers _ _ _ (fun _ => by simp) h

@[simp] theorem State.writeSeq_gathers (s : State) (c off : Nat) (v : Word) : (s.writeSeq c off v).1.gathers = s.gathers := by
  simp [State.writeSeq]

@[simp] theorem State.writeUrgent_gathers (s : State) (c : Nat) (v : Word) : (s.writeUrgent c v).1.gathers = s.gathers := by
  simp [State.writeUrgent]

theorem execSenseUrgent_gathers (conv : Fin 20) (v : Word) (s : State) {post : State}
    (h : execSenseUrgent conv v s = .next post) : post.gathers = s.gathers :=
  State.access_gathers _ _ _ (fun _ => by simp) h

@[simp] theorem State.writeRingCfg_gathers (s : State) (c : Nat) (v : Word) : (s.writeRingCfg c v).1.gathers = s.gathers := by
  simp [State.writeRingCfg]

theorem execRingCfg_gathers (conv : Fin 20) (v : Word) (s : State) {post : State}
    (h : execRingCfg conv v s = .next post) : post.gathers = s.gathers :=
  State.access_gathers _ _ _ (fun _ => by simp) h

@[simp] theorem State.writeRingRd_gathers (s : State) (c : Nat) (v : Word) : (s.writeRingRd c v).1.gathers = s.gathers := by
  simp [State.writeRingRd]

theorem execRingRd_gathers (conv : Fin 20) (v : Word) (s : State) {post : State}
    (h : execRingRd conv v s = .next post) : post.gathers = s.gathers :=
  State.access_gathers _ _ _ (fun _ => by simp) h

@[simp] theorem State.writePool_gathers (s : State) (v : Word) : (s.writePool v).1.gathers = s.gathers := by simp [State.writePool]

theorem execCommonsPool_gathers (v : Word) (s : State) {post : State}
    (h : execCommonsPool v s = .next post) : post.gathers = s.gathers :=
  State.access_gathers _ _ _ (fun _ => by simp) h

@[simp] theorem State.writeStage_gathers (s : State) (k n : Nat) (v : Word) : (s.writeStage k n v).1.gathers = s.gathers := by
  unfold State.writeStage
  (repeat' split) <;> simp

theorem execStackStage_gathers (stack : StackId) (n : Fin 4) (v : Word) (s : State) {post : State}
    (h : execStackStage stack n v s = .next post) : post.gathers = s.gathers :=
  State.access_gathers _ _ _ (fun _ => by simp) h

@[simp] theorem State.writeInject_gathers (s : State) (k : Nat) (v : Word) : (s.writeInject k v).1.gathers = s.gathers := by
  unfold State.writeInject
  dsimp only
  (repeat' split) <;> simp

theorem execStackInject_gathers (stack : StackId) (v : Word) (s : State) {post : State}
    (h : execStackInject stack v s = .next post) : post.gathers = s.gathers :=
  State.access_gathers _ _ _ (fun _ => by simp) h

@[simp] theorem State.writeRreadTo_gathers (s : State) (p : Nat) (v : Word) : (s.writeRreadTo p v).1.gathers = s.gathers := by
  simp [State.writeRreadTo]

@[simp] theorem State.writeTmux_gathers (s : State) (pin : Nat) (v : Word) : (s.writeTmux pin v).1.gathers = s.gathers := by
  simp [State.writeTmux]

theorem execTmuxSelect_gathers (pin : Fin 10) (v : Word) (s : State) {post : State}
    (h : execTmuxSelect pin v s = .next post) : post.gathers = s.gathers :=
  State.access_gathers _ _ _ (fun _ => by simp) h

@[simp] theorem State.writeErrStatus_gathers (s : State) (p : Page) (v : Word) : (s.writeErrStatus p v).1.gathers = s.gathers := by
  simp [State.writeErrStatus]

theorem execErrStatusClear_gathers (page : Nat) (v : Word) (s : State) {post : State}
    (h : execErrStatusClear page v s = .next post) : post.gathers = s.gathers := by
  refine State.access_gathers _ _ _ (fun u => ?_) h
  split <;> simp

theorem execKyrokFlitReceive_gathers (f : FlitIn) (s : State) {post : State}
    (h : execKyrokFlitReceive f s = .next post) : post.gathers = s.gathers := by
  unfold execKyrokFlitReceive at h
  dsimp only at h
  (repeat' split at h) <;> obtain rfl := Host.Outcome.next.inj h <;> simp

theorem execKyrokCtrlFlit_gathers (f : CtrlFlit) (s : State) {post : State}
    (h : execKyrokCtrlFlit f s = .next post) : post.gathers = s.gathers := by
  unfold execKyrokCtrlFlit at h
  dsimp only at h
  split at h <;> obtain rfl := Host.Outcome.next.inj h <;> simp

theorem execCtrlFlitSend_gathers (port : PortId) (s : State) {post : State}
    (h : execCtrlFlitSend port s = .next post) : post.gathers = s.gathers := by
  unfold execCtrlFlitSend at h
  dsimp only at h
  split at h <;> obtain rfl := Host.Outcome.next.inj h <;> simp

theorem execLaneRetire_gathers (port : PortId) (lane : Fin 8) (s : State) {post : State}
    (h : execLaneRetire port lane s = .next post) : post.gathers = s.gathers := by
  unfold execLaneRetire at h
  dsimp only at h
  split at h <;> obtain rfl := Host.Outcome.next.inj h <;> simp

theorem execKyrokPortTrained_gathers (port : PortId) (lanes : Nat) (peerPackage : Fin 256) (peerPort : PortId) (s : State) {post : State}
    (h : execKyrokPortTrained port lanes peerPackage peerPort s = .next post) : post.gathers = s.gathers := by
  unfold execKyrokPortTrained at h
  split at h <;> obtain rfl := Host.Outcome.next.inj h <;> simp

@[simp] theorem State.authDiscard_gathers (s : State) (p src : Nat) : (s.authDiscard p src).gathers = s.gathers := by simp [State.authDiscard]

@[simp] theorem State.takeMessage_gathers (s : State) (p : Nat) (vl : Bool) (l : List Flit) : (s.takeMessage p vl l).gathers = s.gathers := by
  simp [State.takeMessage]

theorem execKyrokForward_gathers (port : PortId) (originated : Bool) (destination : Fin 256) (vl : Bool) (s : State) {post : State}
    (h : execKyrokForward port originated destination vl s = .next post) : post.gathers = s.gathers := by
  unfold execKyrokForward at h
  dsimp only at h
  (repeat' split at h) <;> obtain rfl := Host.Outcome.next.inj h <;> simp

@[simp] theorem State.openMessage_gathers (s : State) (p : Nat) (b : List Nat) : (s.openMessage p b).gathers = s.gathers := by
  simp [State.openMessage]

theorem execKyrokAuthDiscard_gathers (port : PortId) (vl : Bool) (s : State) {post : State}
    (h : execKyrokAuthDiscard port vl s = .next post) : post.gathers = s.gathers := by
  unfold execKyrokAuthDiscard at h
  dsimp only at h
  (repeat' split at h) <;> obtain rfl := Host.Outcome.next.inj h <;> simp

theorem execKyrokBarrier_gathers (number : Nat) (release : Bool) (source : Fin 256) (s : State) {post : State}
    (h : execKyrokBarrier number release source s = .next post) : post.gathers = s.gathers := by
  unfold execKyrokBarrier at h
  dsimp only at h
  split at h <;> obtain rfl := Host.Outcome.next.inj h <;> simp

end Sys2Proof.Machine
end

section
/-!
What leaves every gather buffer as it is, concluded: leases, dormancy, starts, the units of a bus, stacks, the tally and images.
-/
namespace Sys2Proof.Machine

@[simp] theorem State.modLeaseOf_gathers (s : State) (r : Leased) (f : Lease → Lease) : (s.modLeaseOf r f).gathers = s.gathers := by
  unfold State.modLeaseOf
  split
  case h_1 d k => exact s.modDie_gathers _ _ fun _ => Die.modLease_gather _ _ _
  all_goals simp

@[simp] theorem State.answerLease_gathers (s : State) (r : Leased) (a : Reply) : (s.answerLease r a).gathers = s.gathers := by
  unfold State.answerLease
  split <;> simp

@[simp] theorem State.refuseLease_gathers (s : State) (r : Leased) (c : Code) : (s.refuseLease r c).gathers = s.gathers := by
  unfold State.refuseLease
  split <;> simp

@[simp] theorem State.leaseTraffic_gathers (s : State) (r : Leased) (n : Nat) : (s.leaseTraffic r n).gathers = s.gathers := by
  unfold State.leaseTraffic
  split <;> simp

@[simp] theorem State.endLease_gathers (s : State) (r : Leased) : (s.endLease r).gathers = s.gathers := by
  unfold State.endLease
  (repeat' split) <;> simp

@[simp] theorem State.endFaulty_gathers (s : State) (r : Leased) : (s.endFaulty r).gathers = s.gathers := by
  unfold State.endFaulty
  split <;> simp

@[simp] theorem State.rebuildTables_gathers (s : State) (r : Leased) : (s.rebuildTables r).gathers = s.gathers := by
  unfold State.rebuildTables
  split <;> simp

theorem execLeaseRequest_gathers (resource : Leased) (holder : Holder) (termUs : Nat) (s : State) {post : State}
    (h : execLeaseRequest resource holder termUs s = .next post) : post.gathers = s.gathers := by
  unfold execLeaseRequest at h
  dsimp only at h
  (repeat' split at h) <;> obtain rfl := Host.Outcome.next.inj h <;> simp

theorem execLeaseRenewal_gathers (resource : Leased) (holder : Holder) (termUs : Nat) (s : State) {post : State}
    (h : execLeaseRenewal resource holder termUs s = .next post) : post.gathers = s.gathers := by
  unfold execLeaseRenewal at h
  dsimp only at h
  (repeat' split at h) <;> obtain rfl := Host.Outcome.next.inj h <;> simp

theorem execLeaseRelease_gathers (resource : Leased) (holder : Holder) (s : State) {post : State}
    (h : execLeaseRelease resource holder s = .next post) : post.gathers = s.gathers := by
  unfold execLeaseRelease at h
  dsimp only at h
  split at h <;> obtain rfl := Host.Outcome.next.inj h <;> simp

theorem execLeaseExpiry_gathers (resource : Leased) (s : State) {post : State}
    (h : execLeaseExpiry resource s = .next post) : post.gathers = s.gathers := by
  unfold execLeaseExpiry at h
  dsimp only at h
  split at h <;> obtain rfl := Host.Outcome.next.inj h <;> simp

@[simp] theorem State.restartChannel_gathers (s : State) (h : HubId) (c : Nat) : (s.restartChannel h c).gathers = s.gathers := by
  simp [State.restartChannel]

@[simp] theorem State.haltCore_gathers (s : State) (h : HubId) (core : Fin 16) : (s.haltCore h core).gathers = s.gathers := by
  simp [State.haltCore]

@[simp] theorem State.writeMarks_gathers (s : State) : s.writeMarks.gathers = s.gathers := by simp [State.writeMarks]
@[simp] theorem State.dropUndecided_gathers (s : State) : s.dropUndecided.gathers = s.gathers := by simp [State.dropUndecided]
@[simp] theorem State.writeDormant_gathers (s : State) (v : Word) : (s.writeDormant v).1.gathers = s.gathers := by simp [State.writeDormant]

theorem execDormantEnter_gathers (v : Word) (s : State) {post : State}
    (h : execDormantEnter v s = .next post) : post.gathers = s.gathers :=
  State.access_gathers _ _ _ (fun _ => by simp) h

theorem execDormancyAck_gathers (s : State) {post : State}
    (h : execDormancyAck s = .next post) : post.gathers = s.gathers := by
  unfold execDormancyAck at h
  split at h <;> obtain rfl := Host.Outcome.next.inj h <;> simp

@[simp] theorem State.requestPower_gathers (s : State) : s.requestPower.gathers = s.gathers := by simp [State.requestPower]

theorem execWake_gathers (lowNs : Nat) (s : State) {post : State}
    (h : execWake lowNs s = .next post) : post.gathers = s.gathers := by
  unfold execWake at h
  split at h <;> obtain rfl := Host.Outcome.next.inj h <;> simp

theorem execPfailWarning_gathers (lowNs : Nat) (s : State) {post : State}
    (h : execPfailWarning lowNs s = .next post) : post.gathers = s.gathers := by
  unfold execPfailWarning at h
  split at h <;> obtain rfl := Host.Outcome.next.inj h <;> simp

@[simp] theorem State.trainModule_gathers (s : State) (t : Training) : (s.trainModule t).gathers = s.gathers := by
  unfold State.trainModule
  split <;> simp

@[simp] theorem State.badRow_gathers (s : State) (p : ParityPlace) : (s.badRow p).gathers = s.gathers := by
  unfold State.badRow
  split <;> simp

@[simp] theorem State.placeCrofts_gathers (s : State) : s.placeCrofts.gathers = s.gathers := by simp [State.placeCrofts]

@[simp] theorem State.probeLeft_gathers (s : State) (clear : List (Nat × Nat)) : (s.probeLeft clear).gathers = s.gathers := by
  simp [State.probeLeft]

@[simp] theorem State.fillSlot_gathers (s : State) (n k : Nat) : (s.fillSlot n k).gathers = s.gathers := by
  unfold State.fillSlot
  split <;> simp

@[simp] theorem State.fillSlots_gathers (s : State) : s.fillSlots.gathers = s.gathers := by simp [State.fillSlots]

@[simp] theorem State.startFence_gathers (s : State) (router : Bool) (n : Nat) : (s.startFence router n).gathers = s.gathers := by
  simp [State.startFence]

@[simp] theorem State.mapAfresh_gathers (s : State) : s.mapAfresh.gathers = s.gathers := by simp [State.mapAfresh]
@[simp] theorem State.fitPatches_gathers (s : State) : s.fitPatches.gathers = s.gathers := by simp [State.fitPatches]
@[simp] theorem State.cleanPool_gathers (s : State) : s.cleanPool.gathers = s.gathers := by simp [State.cleanPool]
@[simp] theorem State.evalService_gathers (s : State) : s.evalService.gathers = s.gathers := by simp [State.evalService]

theorem execServiceStateEval_gathers (s : State) {post : State}
    (h : execServiceStateEval s = .next post) : post.gathers = s.gathers := by
  unfold execServiceStateEval at h
  split at h <;> obtain rfl := Host.Outcome.next.inj h <;> simp

@[simp] theorem State.alignBell_gathers (s : State) : s.alignBell.gathers = s.gathers := by simp [State.alignBell]
@[simp] theorem State.reportReady_gathers (s : State) : s.reportReady.gathers = s.gathers := by simp [State.reportReady]
@[simp] theorem State.finishStart_gathers (s : State) (b : Bundle) : (s.finishStart b).gathers = s.gathers := by simp [State.finishStart]

@[simp] theorem State.refuseAt_gathers (s : State) (m a : Nat) (c : Code) : (s.refuseAt m a c).gathers = s.gathers := by
  unfold State.refuseAt
  split <;> simp

@[simp] theorem State.sourceModule_gathers (s t : State) (p : Page) (m : Nat) : (s.sourceModule t p m).gathers = t.gathers := by
  simp [State.sourceModule]

@[simp] theorem State.busRead_gathers (s : State) (m a width : Nat) : (s.busRead m a width).1.gathers = s.gathers := by
  unfold State.busRead
  (repeat' split) <;> simp

@[simp] theorem State.takeCredit_gathers (s : State) (m a : Nat) (posted : Bool) : (s.takeCredit m a posted).1.gathers = s.gathers := by
  simp [State.takeCredit]

@[simp] theorem State.answer_gathers (s : State) (m tag : Nat) (a : Answer) : (s.answer m tag a).gathers = s.gathers := by simp [State.answer]

theorem State.request_gathers (s : State) (i : Instr) (u : UnitHead) (f : Nat → State → State × Answer)
    (hf : ∀ m v, (f m v).1.gathers = v.gathers) {post : State} (h : s.request i u f = .next post) : post.gathers = s.gathers := by
  refine State.access_gathers _ _ _ (fun v => ?_) h
  dsimp only
  (repeat' split) <;> simp [hf]

theorem execRd8_gathers (u : UnitHead) (s : State) {post : State} (h : execRd8 u s = .next post) : post.gathers = s.gathers := by
  refine State.request_gathers _ _ _ _ (fun m v => ?_) h
  simp

theorem request_bus_gathers (s : State) (i : Instr) (u : UnitHead) (n : Nat) (g : Word → List (BitVec 8)) {post : State}
    (h : s.request i u (fun m t => ((t.busRead m u.addr n).1,
      { status := (t.busRead m u.addr n).2.1, data := g (t.busRead m u.addr n).2.2 })) = .next post) : post.gathers = s.gathers :=
  State.request_gathers _ _ _ _ (fun m v => State.busRead_gathers v m _ n) h

theorem execIntrFifoRead_gathers (tag : Nat) (s : State) {post : State} (h : execIntrFifoRead tag s = .next post) : post.gathers = s.gathers :=
  request_bus_gathers s (.intrFifoRead tag) (UnitHead.make 0x01 tag (Page.stew.base + 0x140)) 8 (fun w => leBytes 8 w.toNat) h

theorem execRd64_gathers (u : UnitHead) (s : State) {post : State} (h : execRd64 u s = .next post) : post.gathers = s.gathers := by
  refine State.request_gathers _ _ _ _ (fun m v => ?_) h
  (repeat' split) <;> simp

@[simp] theorem State.stewardWrite_gathers (s : State) (l : Nat) (data : List (BitVec 8)) (poison : Bool) :
    (s.stewardWrite l data poison).gathers = s.gathers := by
  simp [State.stewardWrite]

theorem execWr64_gathers (u : UnitHead) (data : List (BitVec 8)) (s : State) {post : State} (h : execWr64 u data s = .next post) :
    post.gathers = s.gathers := by
  refine State.request_gathers _ _ _ _ (fun m v => ?_) h
  (repeat' split) <;> simp

@[simp] theorem State.post_gathers (s : State) (m a : Nat) (data : List (BitVec 8)) (poison : Bool) :
    (s.post m a data poison).gathers = s.gathers := by
  unfold State.post
  (repeat' split) <;> simp

theorem execPw64_gathers (u : UnitHead) (data : List (BitVec 8)) (s : State) {post : State}
    (h : execPw64 u data s = .next post) : post.gathers = s.gathers := by
  have hr : ∀ t : State, (let m := t.moduleOf u.addr
      let c := t.takeCredit m u.addr true
      if c.2 = false ∨ 255 < u.tag ∨ u.reservedSet = true then c.1 else c.1.post m u.addr data u.poison).gathers = t.gathers := by
    intro t
    dsimp only
    split <;> simp
  unfold execPw64 at h
  dsimp only at h
  split at h
  · have h := Host.Outcome.next.inj h
    rw [← h]
    exact hr s
  · exact State.access_gathers _ _ _ hr h

@[simp] theorem State.complete_gathers (s : State) (m tag : Nat) (a : Answer) : (s.complete m tag a).gathers = s.gathers := by
  unfold State.complete
  split <;> simp

theorem execCompletionTimeout_gathers (module : HubId) (tag : Nat) (s : State) {post : State}
    (h : execCompletionTimeout module tag s = .next post) : post.gathers = s.gathers := by
  unfold execCompletionTimeout at h
  dsimp only at h
  (repeat' split at h) <;> obtain rfl := Host.Outcome.next.inj h <;> simp

theorem execIntr_gathers (hub : HubId) (identity : BitVec 16) (s : State) {post : State}
    (h : execIntr hub identity s = .next post) : post.gathers = s.gathers := by
  unfold execIntr at h
  split at h <;> obtain rfl := Host.Outcome.next.inj h <;> simp

theorem execSnoop_gathers (hub : HubId) (line : Nat) (forWrite : Bool) (s : State) {post : State}
    (h : execSnoop hub line forWrite s = .next post) : post.gathers = s.gathers := by
  unfold execSnoop at h
  split at h <;> obtain rfl := Host.Outcome.next.inj h <;> simp

theorem execSnoopRsp_gathers (hub : HubId) (line : Nat) (dirty : Option (List (BitVec 8))) (s : State) {post : State}
    (h : execSnoopRsp hub line dirty s = .next post) : post.gathers = s.gathers := by
  unfold execSnoopRsp at h
  (repeat' split at h) <;> obtain rfl := Host.Outcome.next.inj h <;> simp

@[simp] theorem State.takeUnit_gathers (s : State) (d k o : Nat) (c : CrossPlan) : (s.takeUnit d k o c).gathers = s.gathers := by
  simp [State.takeUnit]

theorem execXfer_gathers (mod : ModuleAt) (step entry offset : Nat) (parityBad : Bool) (s : State) {post : State}
    (h : execXfer mod step entry offset parityBad s = .next post) : post.gathers = s.gathers := by
  unfold execXfer at h
  (repeat' split at h) <;> obtain rfl := Host.Outcome.next.inj h <;> simp

@[simp] theorem State.loseUnits_gathers (s : State) (m : Nat) (requests responses : List Nat) :
    (s.loseUnits m requests responses).gathers = s.gathers := by
  simp [State.loseUnits]

theorem execUcieRetrain_gathers (mod : ModuleAt) (txFailed rxFailed : Nat) (lostRequests lostResponses : List Nat) (s : State) {post : State}
    (h : execUcieRetrain mod txFailed rxFailed lostRequests lostResponses s = .next post) : post.gathers = s.gathers := by
  unfold execUcieRetrain at h
  split at h <;> obtain rfl := Host.Outcome.next.inj h <;> simp

@[simp] theorem State.recordRefused_gathers (s : State) : s.recordRefused.gathers = s.gathers := by simp [State.recordRefused]

theorem execBlankPage_gathers (stack : StackId) (page : Nat) (s : State) {post : State}
    (h : execBlankPage stack page s = .next post) : post.gathers = s.gathers := by
  unfold execBlankPage at h
  dsimp only at h
  split at h <;> obtain rfl := Host.Outcome.next.inj h <;> simp

@[simp] theorem State.noteCorrected_gathers (s : State) (k l : Nat) : (s.noteCorrected k l).gathers = s.gathers := by
  simp [State.noteCorrected]

@[simp] theorem State.sweepAt_gathers (s : State) (k l : Nat) : (s.sweepAt k l).gathers = s.gathers := by
  unfold State.sweepAt
  dsimp only
  split <;> simp

@[simp] theorem State.sweepNext_gathers (s : State) (k : Nat) : (s.sweepNext k).gathers = s.gathers := by simp [State.sweepNext]

theorem execSweepLine_gathers (stack : StackId) (s : State) {post : State}
    (h : execSweepLine stack s = .next post) : post.gathers = s.gathers := by
  unfold execSweepLine at h
  dsimp only at h
  split at h <;> obtain rfl := Host.Outcome.next.inj h <;> simp

theorem execSweepLapAlarm_gathers (stack : StackId) (s : State) {post : State}
    (h : execSweepLapAlarm stack s = .next post) : post.gathers = s.gathers := by
  unfold execSweepLapAlarm at h
  dsimp only at h
  (repeat' split at h) <;> obtain rfl := Host.Outcome.next.inj h <;> simp

theorem execStackFault_gathers (stack : StackId) (s : State) {post : State}
    (h : execStackFault stack s = .next post) : post.gathers = s.gathers := by
  unfold execStackFault at h
  split at h <;> obtain rfl := Host.Outcome.next.inj h <;> simp

@[simp] theorem State.faultHub_gathers (s : State) (h : Nat) : (s.faultHub h).gathers = s.gathers := by simp [State.faultHub]

theorem execHubFault_gathers (hub : HubId) (s : State) {post : State}
    (h : execHubFault hub s = .next post) : post.gathers = s.gathers := by
  unfold execHubFault at h
  split at h <;> obtain rfl := Host.Outcome.next.inj h <;> simp

theorem execCoreFetchPoison_gathers (stack : StackId) (die : DieId) (core : Option (Fin 16)) (line : Nat) (s : State) {post : State}
    (h : execCoreFetchPoison stack die core line s = .next post) : post.gathers = s.gathers := by
  unfold execCoreFetchPoison at h
  dsimp only at h
  (repeat' split at h) <;> obtain rfl := Host.Outcome.next.inj h <;> simp

theorem execDmaPoisonHalt_gathers (hub : HubId) (channel sourcePage sourceAddr step : Nat) (s : State) {post : State}
    (h : execDmaPoisonHalt hub channel sourcePage sourceAddr step s = .next post) : post.gathers = s.gathers := by
  unfold execDmaPoisonHalt at h
  (repeat' split at h) <;> obtain rfl := Host.Outcome.next.inj h <;> simp

@[simp] theorem State.ringRecord_gathers (s : State) (c : Nat) (w : Word) : (s.ringRecord c w).gathers = s.gathers := by simp [State.ringRecord]

@[simp] theorem State.latchResult_gathers (s : State) (c input : Nat) (urgent ring lowPower : Bool) (value : BitVec 16) :
    (s.latchResult c input urgent ring lowPower value).gathers = s.gathers := by
  simp [State.latchResult]

@[simp] theorem State.watchResult_gathers (s : State) (c input : Nat) (value : BitVec 16) : (s.watchResult c input value).gathers = s.gathers := by
  simp [State.watchResult]

@[simp] theorem State.raiseStep_gathers (s : State) (n : Nat) : (s.raiseStep n).gathers = s.gathers := by simp [State.raiseStep]

@[simp] theorem State.confirmResult_gathers (s : State) (value : BitVec 16) : (s.confirmResult value).gathers = s.gathers := by
  simp [State.confirmResult]

theorem execSensorConversion_gathers (conv : Fin 20) (value : BitVec 16) (s : State) {post : State}
    (h : execSensorConversion conv value s = .next post) : post.gathers = s.gathers := by
  unfold execSensorConversion at h
  dsimp only at h
  split at h <;> obtain rfl := Host.Outcome.next.inj h <;> simp

@[simp] theorem State.endUrgent_gathers (s : State) (c : Nat) : (s.endUrgent c).gathers = s.gathers := by simp [State.endUrgent]
@[simp] theorem State.heatWindow_gathers (s : State) (now : Nat) : (s.heatWindow now).gathers = s.gathers := by simp [State.heatWindow]
@[simp] theorem State.stormWindow_gathers (s : State) : s.stormWindow.gathers = s.gathers := by simp [State.stormWindow]
@[simp] theorem State.reconcile_gathers (s : State) (m : Nat) : (s.reconcile m).gathers = s.gathers := by simp [State.reconcile]
@[simp] theorem State.nextWindow_gathers (s : State) : s.nextWindow.gathers = s.gathers := by simp [State.nextWindow]

theorem execTallyWindowEnd_gathers (measuredNj : Nat) (s : State) {post : State}
    (h : execTallyWindowEnd measuredNj s = .next post) : post.gathers = s.gathers := by
  unfold execTallyWindowEnd at h
  split at h <;> obtain rfl := Host.Outcome.next.inj h <;> simp

theorem State.coreStore_gathers (s : State) (a : Nat) (b : BitVec 8) : (s.coreStore a b).gathers = s.gathers := by simp [State.coreStore]
@[simp] theorem State.readBundle_gathers (s : State) (addr len : Nat) : (s.readBundle addr len).1.gathers = s.gathers := by simp [State.readBundle]

@[simp] theorem State.bundleImages_gathers (s : State) (addr : Nat) (h : FwHead) : (s.bundleImages addr h).1.gathers = s.gathers := by
  unfold State.bundleImages
  rw [foldl1_gathers]
  intro a i
  simp

@[simp] theorem State.copyImages_gathers (s : State) (addr : Nat) (h : FwHead) : (s.copyImages addr h).gathers = s.gathers := by
  unfold State.copyImages
  refine foldl_gathers _ _ _ fun t i => ?_
  split <;> simp

theorem execDomain_gathers {s t : State} {m k : Option (Fin 256)} {n : Option (List (BitVec 8) × Nat)}
    (h : execDomain m k n s = .next t) : t.gathers = s.gathers := by
  unfold execDomain at h
  (repeat' split at h) <;> obtain rfl := Host.Outcome.next.inj h <;> simp

@[simp] theorem State.trainModules_gathers (s : State) (l : List Training) : (s.trainModules l).gathers = s.gathers := by simp [State.trainModules]

end Sys2Proof.Machine
end

section
/-!
What keeps every gather buffer in order (R197): whatever leaves it as it is, empties it or takes entries from it, and a narrow write. Clearing a granary
(R198, R200, R225), a quench (R220), debug at a bell (R543), a loss of power and a start empty it.
-/
namespace Sys2Proof.Machine

/-- From `s` to `t` each gather buffer that is in order stays in order. -/
def KeepsBuffers (s t : State) : Prop := ∀ d, (s.die d).gatherOk → (t.die d).gatherOk

theorem Die.gatherOk_congr {x y : Die} (h : y.gather = x.gather) (hx : x.gatherOk) : y.gatherOk := by
  unfold Die.gatherOk
  rw [h]
  exact hx

theorem Die.gatherOk_filter {x y : Die} {p : GatherEntry → Bool} (h : y.gather = x.gather.filter p) (hx : x.gatherOk) : y.gatherOk := by
  obtain ⟨hrows, hbytes⟩ := hx
  unfold Die.gatherOk
  rw [h]
  exact ⟨hrows.sublist (List.filter_sublist.map _), fun e he => hbytes e (List.mem_of_mem_filter he)⟩

theorem KeepsBuffers.refl (s : State) : KeepsBuffers s s := fun _ h => h

theorem KeepsBuffers.trans {s t u : State} (a : KeepsBuffers s t) (b : KeepsBuffers t u) : KeepsBuffers s u := fun d h => b d (a d h)

theorem KeepsBuffers.of_gathers {s t : State} (h : t.gathers = s.gathers) : KeepsBuffers s t :=
  fun d => Die.gatherOk_congr (congrFun h d)

theorem KeepsBuffers.right {s t u : State} (a : KeepsBuffers s t) (h : u.gathers = t.gathers) : KeepsBuffers s u := a.trans (.of_gathers h)

theorem KeepsBuffers.left {s t u : State} (h : t.gathers = s.gathers) (a : KeepsBuffers t u) : KeepsBuffers s u := (of_gathers h).trans a

theorem KeepsBuffers.next {s t post : State} (h : (.next t : Host.Outcome State Fault Refusal) = .next post) (a : KeepsBuffers s t) :
    KeepsBuffers s post := by
  cases h
  exact a

theorem KeepsBuffers.foldl {α : Type} (f : State → α → State) (l : List α) (s : State) (h : ∀ t x, KeepsBuffers t (f t x)) :
    KeepsBuffers s (l.foldl f s) :=
  l.foldlRecOn f (motive := KeepsBuffers s) (.refl s) fun t ht x _ => ht.trans (h t x)

theorem State.modDie_keepsBuffers (s : State) (d : Nat) (f : Die → Die) (h : ∀ x : Die, x.gatherOk → (f x).gatherOk) :
    KeepsBuffers s (s.modDie d f) := fun e he => by
  rw [State.die_modDie]
  split
  next hd => exact h _ (hd ▸ he)
  next => exact he

theorem State.access_keepsBuffers {s t : State} {i : Instr} {f : State → State} (h : s.access i f = .next t) (hf : KeepsBuffers s (f s)) :
    KeepsBuffers s t := by
  unfold State.access at h
  split at h
  · exact .next h hf
  · split at h
    · exact .next h (.of_gathers (by simp))
    · exact .next h (.refl s)

/-! ### Granaries and narrow writes -/

theorem Die.clearGranary_gatherOk (x : Die) : x.clearGranary.gatherOk := Die.gatherOk_of_empty rfl

theorem State.writeMemMode_keepsBuffers (s : State) (d : Nat) (v : Word) : KeepsBuffers s (s.writeMemMode d v).1 := by
  unfold State.writeMemMode
  dsimp only
  split
  · exact .of_gathers (by simp)
  split
  · exact .of_gathers (by simp)
  · refine .left ?_ (State.modDie_keepsBuffers _ d _ fun x _ => Die.gatherOk_of_empty rfl)
    simp

theorem execMemMode_keepsBuffers {d : DieId} {v : Word} {s t : State} (h : execMemMode d v s = .next t) : KeepsBuffers s t :=
  State.access_keepsBuffers h (s.writeMemMode_keepsBuffers _ _)

theorem execLoadComplete_keepsBuffers {d : DieId} {epoch : Nat} {s t : State} (h : execLoadComplete d epoch s = .next t) : KeepsBuffers s t := by
  unfold execLoadComplete at h
  dsimp only at h
  split at h
  · exact .next h (.refl s)
  split at h
  · exact .next h (.refl s)
  · refine .next h (.left ?_ (State.modDie_keepsBuffers _ d.val _ fun x _ => Die.gatherOk_of_empty rfl))
    simp

theorem State.writeBack_keepsBuffers (s : State) (d : Nat) (e : GatherEntry) : KeepsBuffers s (s.writeBack d e) := by
  have h := s.modDie_keepsBuffers d (fun x => x.writeBack e) fun x => x.writeBack_gatherOk e
  unfold State.writeBack
  dsimp only
  split
  · exact h.right (by simp)
  · exact h

theorem execGatherWriteback_keepsBuffers {d : DieId} {i : Fin 4} {s t : State} (h : execGatherWriteback d i s = .next t) : KeepsBuffers s t := by
  unfold execGatherWriteback at h
  split at h
  next e _ =>
    refine .next h ?_
    split
    · exact s.writeBack_keepsBuffers d.val e
    · exact .refl s
  next => exact .next h (.refl s)

theorem execNarrowWrite_keepsBuffers {d : DieId} {a epoch : Nat} {data : List (BitVec 8)} {r : Holder} {o : Option Nat} {s t : State}
    (h : execNarrowWrite d a epoch data r o s = .next t) : KeepsBuffers s t := by
  have hexec : exec (.narrowWrite d a epoch data r o) s = .next t := h
  cases hno : (s.die d.val).narrowRefusal a data.length epoch with
  | some c =>
    rw [exec_narrowWrite_refuses r o hno] at hexec
    exact .next hexec (.of_gathers (by simp))
  | none =>
    obtain ⟨u, hu, hon⟩ := exec_narrowWrite_onDie r o hno
    rw [hu] at hexec
    refine .next hexec fun e he => ?_
    by_cases hd : e = d.val
    · subst hd
      rw [hon.self]
      refine (Die.narrowWritten_written _ a data _ (Die.narrowRefusal_none hno).1).ok ?_
      exact Die.gatherOk_congr (Die.accepted_gather _ _ _) he
    · rw [hon.others e hd]
      exact he

theorem State.applyQuench_keepsBuffers (s : State) (d : Nat) (q : QuenchSet) : KeepsBuffers s (s.applyQuench d q) := fun e he => by
  rw [State.applyQuench_die]
  split
  next hd => exact Die.gatherOk_filter rfl (hd ▸ he)
  next => exact he

theorem execQuenchInterval_keepsBuffers {d : DieId} {s t : State} (h : execQuenchInterval d s = .next t) : KeepsBuffers s t :=
  .next h (((State.applyQuench_keepsBuffers (s.finishTransfers d.val) d.val _).left (State.finishTransfers_gathers _ _)).right (by simp; rfl))

/-! ### Bells and warm resets -/

theorem State.debugAtBell_keepsBuffers (s : State) : KeepsBuffers s s.debugAtBell := by
  unfold State.debugAtBell
  split
  · exact .refl s
  extract_lets s0 s1 needy s1' s2 keys used lock s3 store s3' s4 s5
  have hleft : s1'.gathers = s.gathers := by simp [s1', s1, s0]
  have hclear : KeepsBuffers s1' s2 := .foldl _ _ s1' fun t d => t.modDie_keepsBuffers d _ fun x _ => x.clearGranary_gatherOk
  have hright : s5.gathers = s2.gathers := by simp [s5, s4, s3', s3]
  clear_value s5
  exact (hclear.left hleft).right (by simpa using hright)

theorem State.packageAtBell_keepsBuffers (s : State) (b : BellIn) : KeepsBuffers s (s.packageAtBell b) := by
  unfold State.packageAtBell
  exact ((State.debugAtBell_keepsBuffers _).left (by simp)).right (State.leaveAtBell_gathers _)

theorem State.bellAt_keepsBuffers (s : State) (b : BellIn) (now : Nat) : KeepsBuffers s (s.bellAt b now) := by
  unfold State.bellAt
  extract_lets due old s0 s2 s3 s4 s8 s10
  have hbell : KeepsBuffers s s0 := (State.packageAtBell_keepsBuffers _ b).left (by simp)
  exact hbell.right (by simp [s10, s8, s4, s3, s2])

theorem execBell_keepsBuffers {b : BellIn} {s t : State} (h : execBell b s = .next t) : KeepsBuffers s t := by
  unfold execBell at h
  dsimp only at h
  split at h
  · refine .next h ((State.bellAt_keepsBuffers _ b _).left ?_)
    split <;> split <;> simp
  · exact .next h (.refl s)

theorem Die.warm_gatherOk (x : Die) : x.warm.gatherOk := by
  unfold Die.warm
  dsimp only
  split <;> exact Die.gatherOk_of_empty rfl

theorem State.writeWarmReset_keepsBuffers (s : State) (v : Word) : KeepsBuffers s (s.writeWarmReset v).1 := by
  unfold State.writeWarmReset
  split
  · exact .of_gathers (by simp)
  split
  · exact .of_gathers (by simp)
  extract_lets lost s0 s1
  intro d _
  obtain h | ⟨h, _⟩ := tget_tmap (fun _ => ({} : Die)) (fun _ (x : Die) => x.warm) s1.dies d
  · exact (congrArg Die.gatherOk h).mpr (Die.warm_gatherOk _)
  · exact (congrArg Die.gatherOk h).mpr (Die.gatherOk_of_empty rfl)

theorem execWarmReset_keepsBuffers {v : Word} {s t : State} (h : execWarmReset v s = .next t) : KeepsBuffers s t := by
  unfold execWarmReset at h
  split at h
  · exact .next h (s.writeWarmReset_keepsBuffers v)
  · exact State.access_keepsBuffers h (s.writeWarmReset_keepsBuffers v)

end Sys2Proof.Machine
end

section
/-!
What keeps every gather buffer in order, concluded: losses of power and starts, writes of any register, the accesses a warm reset held, and with them
every command and every step.
-/
namespace Sys2Proof.Machine

/-! ### Losses of power and starts -/

theorem State.dark_keepsBuffers (s : State) (ph : Phase) : KeepsBuffers s (s.dark ph) := fun d _ => by
  obtain h | ⟨h, _⟩ := s.dark_die ph d
  · exact h ▸ Die.gatherOk_of_empty rfl
  · exact h ▸ Die.gatherOk_of_empty rfl

/-- It does so whether or not the marks were written before (R566). -/
theorem State.darkMarked_keepsBuffers (s : State) (c : Prop) [Decidable c] (ph : Phase) :
    KeepsBuffers s ((if c then s.writeMarks else s).dark ph) := by
  split
  · exact (State.dark_keepsBuffers _ _).left (s.writeMarks_gathers)
  · exact s.dark_keepsBuffers ph

theorem State.begin_keepsBuffers (s : State) (wake rc e : Bool) (l : List Training) : KeepsBuffers s (s.begin wake rc e l) := by
  unfold State.begin
  exact (s.dark_keepsBuffers .starting).right (by simp)

theorem execStart_keepsBuffers {n : Nat} {rc e : Bool} {l : List Training} {s t : State} (h : execStart n rc e l s = .next t) :
    KeepsBuffers s t := by
  unfold execStart at h
  dsimp only at h
  split at h
  · split at h
    · exact .next h (s.begin_keepsBuffers _ _ _ _)
    · exact .next h ((s.dark_keepsBuffers .inReset).right (by simp))
  · exact .next h (.refl s)

theorem execRailsRemoved_keepsBuffers {k : Bool} {s t : State} (h : execRailsRemoved k s = .next t) : KeepsBuffers s t := by
  unfold execRailsRemoved at h
  dsimp only at h
  split at h
  · refine .next h ((s.dark_keepsBuffers .dormant).right ?_)
    split <;> simp
  split at h
  · exact .next h (.refl s)
  · refine .next h ((s.darkMarked_keepsBuffers (s.pkg.phase = .powerFail) .off).right ?_)
    split <;> simp

theorem execRailLoss_keepsBuffers {k : Bool} {s t : State} (h : execRailLoss k s = .next t) : KeepsBuffers s t := by
  unfold execRailLoss at h
  dsimp only at h
  split at h
  · exact .next h (.refl s)
  · refine .next h ((s.darkMarked_keepsBuffers (s.pkg.phase = .powerFail) .off).right ?_)
    split <;> simp

theorem execRstFall_keepsBuffers {k : Bool} {s t : State} (h : execRstFall k s = .next t) : KeepsBuffers s t := by
  unfold execRstFall at h
  dsimp only at h
  split at h
  · exact .next h (.of_gathers (by simp))
  · exact .next h (.of_gathers (by simp))
  · exact .next h (.of_gathers (by simp))
  · exact .next h ((s.darkMarked_keepsBuffers (s.pkg.phase = .powerFail ∧ k = true) .inReset).right (by simp))

theorem execUrgentResult_keepsBuffers {c : Fin 20} {v : BitVec 16} {s t : State} (h : execUrgentResult c v s = .next t) : KeepsBuffers s t := by
  unfold execUrgentResult at h
  dsimp only at h
  split at h
  · exact .next h (.refl s)
  split at h
  · exact .next h (.refl s)
  split at h
  · refine .next h (((State.dark_keepsBuffers _ .tripped).left ?_).right (State.gathers_fold _))
    split <;> simp
  · refine .next h (.of_gathers ?_)
    (repeat' split) <;> simp

/-! ### Fuse tokens and writes of any register -/

@[simp] theorem State.readToken_gathers (s : State) (a n : Nat) : (s.readToken a n).1.gathers = s.gathers := by simp [State.readToken]

@[simp] theorem State.writeToken_gathers (s : State) (h : Nat) (v : Word) : (s.writeToken h v).1.gathers = s.gathers := by
  unfold State.writeToken
  dsimp only
  split
  · simp
  split
  · simp
  split
  · rw [State.lockRefuse_gathers]
    split <;> simp
  · simp

@[simp] theorem State.writeRollback_gathers (s : State) (v : Word) : (s.writeRollback v).1.gathers = s.gathers := by
  unfold State.writeRollback
  dsimp only
  (repeat' split) <;> simp

theorem execOwnerTransfer_gathers {hub : HubId} {v : Word} {s t : State} (h : execOwnerTransfer hub v s = .next t) : t.gathers = s.gathers :=
  State.access_gathers _ _ _ (fun _ => by simp) h

theorem execPubWrite_gathers {hub : HubId} {v : Word} {s t : State} (h : execPubWrite hub v s = .next t) : t.gathers = s.gathers :=
  State.access_gathers _ _ _ (fun _ => by simp) h

theorem execPubRevoke_gathers {hub : HubId} {v : Word} {s t : State} (h : execPubRevoke hub v s = .next t) : t.gathers = s.gathers :=
  State.access_gathers _ _ _ (fun _ => by simp) h

theorem execDebugAuth_gathers {hub : HubId} {v : Word} {s t : State} (h : execDebugAuth hub v s = .next t) : t.gathers = s.gathers :=
  State.access_gathers _ _ _ (fun _ => by simp) h

theorem execFuseRollback_gathers {v : Word} {s t : State} (h : execFuseRollback v s = .next t) : t.gathers = s.gathers :=
  State.access_gathers _ _ _ (fun _ => by simp) h

theorem execTokenBurnDone_gathers {s t : State} (h : execTokenBurnDone s = .next t) : t.gathers = s.gathers := by
  unfold execTokenBurnDone at h
  split at h
  · exact next_gathers h rfl
  · exact next_gathers h (by simp)

theorem State.writeReg_keepsBuffers (s : State) (p : Page) (off : Nat) (v : Word) : KeepsBuffers s (s.writeReg p off v).1 := by
  unfold State.writeReg
  dsimp only
  split
  · exact .of_gathers (by simp)
  split
  · refine .of_gathers ?_
    split <;> simp
  cases p
  case sys =>
    dsimp only
    split
    case h_6 => exact s.writeWarmReset_keepsBuffers v
    all_goals exact .of_gathers (by simp)
  case die d =>
    dsimp only
    split
    case h_1 => exact s.writeMemMode_keepsBuffers d v
    all_goals exact .of_gathers (by simp)
  all_goals
    refine .of_gathers ?_
    dsimp only
    (repeat' split) <;> simp

theorem State.busWrite_keepsBuffers (s : State) (m a width : Nat) (v : Word) : KeepsBuffers s (s.busWrite m a width v).1 := by
  unfold State.busWrite
  split
  · exact .of_gathers (by simp)
  split
  next p off _ =>
    dsimp only
    split
    · exact s.writeReg_keepsBuffers p off v
    · exact (s.writeReg_keepsBuffers p off v).right (by simp)
  · exact .refl s

theorem execRegisterWrite_keepsBuffers {a n : Nat} {v : Word} {s t : State} (h : execRegisterWrite a n v s = .next t) : KeepsBuffers s t := by
  refine State.access_keepsBuffers h ?_
  dsimp only
  split
  next a _ => exact (s.busWrite_keepsBuffers (s.moduleOf a) a n v).right (by simp)
  · refine .of_gathers (foldl_gathers _ _ _ fun u i => ?_)
    split
    · exact u.coreStore_gathers _ _
    · rfl
  · exact .refl s

theorem execWr8_keepsBuffers {u : UnitHead} {s t : State} (h : execWr8 u s = .next t) : KeepsBuffers s t := by
  unfold execWr8 State.request at h
  refine State.access_keepsBuffers h ?_
  dsimp only
  split
  · exact .of_gathers (by simp)
  split
  · exact .of_gathers (by simp)
  split
  · exact .of_gathers (by simp)
  · exact ((State.busWrite_keepsBuffers (s.takeCredit (s.moduleOf u.addr) u.addr false).1 (s.moduleOf u.addr) u.addr 8 u.inline).left
      (by simp)).right (by simp)

/-! ### Accesses that a warm reset held -/

theorem runHeld_keepsBuffers {s t : State} (i : Instr) (h : runHeld i s = .next t) : KeepsBuffers s t := by
  unfold runHeld at h
  split at h
  · exact .of_gathers (execRespCfg_gathers _ _ _ _ h)
  · exact .of_gathers (execRespRelease_gathers _ _ _ _ h)
  · exact .of_gathers (execNextSeq_gathers _ _ _ h)
  · exact .of_gathers (execSysRole_gathers _ _ h)
  · exact .of_gathers (execBellNs_gathers _ _ h)
  · exact .of_gathers (execPartSize_gathers _ _ h)
  · exact .of_gathers (execPackLoadGo_gathers _ _ h)
  · exact .of_gathers (execPackLoadClear_gathers _ _ h)
  · exact .of_gathers (execTenantBudget_gathers _ _ _ h)
  · exact .of_gathers (execClassLimit_gathers _ _ h)
  · exact .of_gathers (execDebtClear_gathers _ _ h)
  · exact .of_gathers (execSenseApply_gathers _ _ _ h)
  · exact .of_gathers (execSenseUrgent_gathers _ _ _ h)
  · exact .of_gathers (execRingCfg_gathers _ _ _ h)
  · exact .of_gathers (execRingRd_gathers _ _ _ h)
  · exact .of_gathers (execCommonsPool_gathers _ _ h)
  · exact .of_gathers (execStackStage_gathers _ _ _ _ h)
  · exact .of_gathers (execStackInject_gathers _ _ _ h)
  · exact .of_gathers (execTmuxSelect_gathers _ _ _ h)
  · exact .of_gathers (execErrStatusClear_gathers _ _ _ h)
  · exact .of_gathers (execPatLoadGo_gathers _ _ _ _ h)
  · exact .of_gathers (execPatLoadUnload_gathers _ _ _ h)
  · exact execMemMode_keepsBuffers h
  · exact .of_gathers (execFenceReq_gathers _ _ _ h)
  · exact .of_gathers (execRecastMould_gathers _ _ _ h)
  · exact .of_gathers (execRecastAll_gathers _ _ _ h)
  · exact .of_gathers (execGaugeForce_gathers _ _ _ h)
  · exact .of_gathers (execHistSel_gathers _ _ _ h)
  · exact .of_gathers (execLeaseRevoke_gathers _ _ _ h)
  · exact .of_gathers (execDormantEnter_gathers _ _ h)
  · exact execWarmReset_keepsBuffers h
  · exact .of_gathers (execLockAttest_gathers _ _ _ h)
  · exact .of_gathers (execOwnerTransfer_gathers h)
  · exact .of_gathers (execPubWrite_gathers h)
  · exact .of_gathers (execPubRevoke_gathers h)
  · exact .of_gathers (execDebugAuth_gathers h)
  · exact .of_gathers (execFuseRollback_gathers h)
  · exact .of_gathers (execDomainJoin_gathers _ _ _ h)
  · exact .of_gathers (execDomainLeave_gathers _ _ _ h)
  · exact execRegisterWrite_keepsBuffers h
  · exact .of_gathers (execRd8_gathers _ _ h)
  · exact execWr8_keepsBuffers h
  · exact .of_gathers (execIntrFifoRead_gathers _ _ h)
  · exact .of_gathers (execRd64_gathers _ _ h)
  · exact .of_gathers (execWr64_gathers _ _ _ h)
  · exact .of_gathers (execPw64_gathers _ _ _ h)
  · exact .next h (.refl s)

theorem State.runAllHeld_keepsBuffers (s : State) : KeepsBuffers s s.runAllHeld := by
  unfold State.runAllHeld
  refine .left ?_ (.foldl _ _ _ fun u i => ?_)
  · simp
  · split
    next h => exact runHeld_keepsBuffers i h
    next => exact .refl u

theorem State.finishWarm_keepsBuffers (s : State) : KeepsBuffers s s.finishWarm := by
  unfold State.finishWarm
  exact s.runAllHeld_keepsBuffers.right (by simp)

theorem execWarmResetReady_keepsBuffers {s t : State} (h : execWarmResetReady s = .next t) : KeepsBuffers s t := by
  unfold execWarmResetReady at h
  split at h
  · exact .next h s.finishWarm_keepsBuffers
  · exact .next h (.refl s)

theorem execBootDoorbell_keepsBuffers {b : Bundle} {s t : State} (h : execBootDoorbell b s = .next t) : KeepsBuffers s t := by
  unfold execBootDoorbell at h
  dsimp only at h
  split at h
  · exact .next h (.refl s)
  have hread : ((s.readBundle b.addr b.length).1.bundleImages b.addr (s.readBundle b.addr b.length).2).1.gathers = s.gathers := by simp
  generalize (s.readBundle b.addr b.length).1.bundleImages b.addr (s.readBundle b.addr b.length).2 = m at h hread
  refine .left hread ?_
  split at h
  · exact .next h (.of_gathers (by simp))
  split at h
  · exact .next h ((State.finishWarm_keepsBuffers _).left (by simp))
  · refine .next h (.of_gathers ?_)
    split <;> simp

/-! ### Every command -/

/-- Every command keeps each gather buffer in order (R197). -/
theorem exec_keepsBuffers {c : Instr} {s t : State} (h : exec c s = .next t) : KeepsBuffers s t := by
  cases c with
  | bell _ => exact execBell_keepsBuffers h
  | quenchInterval _ => exact execQuenchInterval_keepsBuffers h
  | forwardWindow _ => exact .of_gathers (execForwardWindow_gathers _ _ h)
  | windowDelivery _ _ => exact .of_gathers (next_gathers h (by simp))
  | runPromotion _ => exact .of_gathers (execRunPromotion_gathers _ _ h)
  | transposedWindow _ => exact .of_gathers (execTransposedWindow_gathers _ _ h)
  | microBatchUpdate _ _ _ => exact .of_gathers (execMicroBatchUpdate_gathers _ _ _ _ h)
  | checkpointDone _ => exact .of_gathers (execCheckpointDone_gathers _ _ h)
  | probeVerdict _ _ _ _ => exact .of_gathers (execProbeVerdict_gathers _ _ _ _ _ h)
  | standinCopyArrive _ _ _ _ _ => exact .of_gathers (execStandinCopyArrive_gathers _ _ _ _ _ _ h)
  | gaugeConverterPass _ _ _ _ _ => exact .of_gathers (next_gathers h (by simp))
  | gaugeRunEnd _ _ => exact .of_gathers (execGaugeRunEnd_gathers _ _ _ h)
  | castRowGroupEnd _ => exact .of_gathers (execCastRowGroupEnd_gathers _ _ h)
  | castClose _ => exact .of_gathers (execCastClose_gathers _ _ h)
  | padParityError _ _ => exact .of_gathers (execPadParityError_gathers _ _ _ h)
  | storeParityError _ _ _ _ => exact .of_gathers (execStoreParityError_gathers _ _ _ _ _ h)
  | flitParityError _ _ _ => exact .of_gathers (next_gathers h (by simp))
  | footpathParityError _ _ => exact .of_gathers (next_gathers h (by simp))
  | detourFit _ _ => exact .of_gathers (execDetourFit_gathers _ _ _ h)
  | mark _ => exact .of_gathers (next_gathers h (by simp))
  | barrier _ _ _ _ => exact .of_gathers (next_gathers h (by simp))
  | narrowRead _ _ _ _ _ _ => exact .of_gathers (execNarrowRead_gathers _ _ _ _ _ _ _ h)
  | narrowWrite _ _ _ _ _ _ => exact execNarrowWrite_keepsBuffers h
  | gatherWriteback _ _ => exact execGatherWriteback_keepsBuffers h
  | leaseRequest _ _ _ => exact .of_gathers (execLeaseRequest_gathers _ _ _ _ h)
  | leaseRenewal _ _ _ => exact .of_gathers (execLeaseRenewal_gathers _ _ _ _ h)
  | leaseRelease _ _ => exact .of_gathers (execLeaseRelease_gathers _ _ _ h)
  | leaseExpiry _ => exact .of_gathers (execLeaseExpiry_gathers _ _ h)
  | attnExchangeArrival _ => exact .of_gathers (execAttnExchangeArrival_gathers _ _ h)
  | kvWriteAck _ _ => exact .of_gathers (execKvWriteAck_gathers _ _ _ h)
  | descriptorRun _ _ => exact .of_gathers (execDescriptorRun_gathers _ _ _ h)
  | partialMerge _ _ => exact .of_gathers (execPartialMerge_gathers _ _ _ h)
  | releaseTime _ _ => exact .of_gathers (execReleaseTime_gathers _ _ _ h)
  | attnReq _ => exact .of_gathers (execAttnReq_gathers _ _ h)
  | attnRsp _ _ _ _ => exact .of_gathers (execAttnRsp_gathers _ _ _ _ _ h)
  | attnBusy _ _ => exact .of_gathers (next_gathers h (by simp))
  | leaseRenew _ _ _ => exact .of_gathers (execLeaseRenew_gathers _ _ _ _ h)
  | remoteRenewTimer _ => exact .of_gathers (next_gathers h (by simp))
  | remoteRefExpiry _ => exact .of_gathers (next_gathers h (by simp))
  | commonsLookup _ => exact .of_gathers (execCommonsLookup_gathers _ _ h)
  | commonsEvict => exact .of_gathers (execCommonsEvict_gathers _ h)
  | openSession _ _ _ => exact .of_gathers (next_gathers h (by simp))
  | prompt _ _ _ => exact .of_gathers (next_gathers h (by simp))
  | generate _ _ _ => exact .of_gathers (next_gathers h (by simp))
  | draft _ _ _ => exact .of_gathers (next_gathers h (by simp))
  | stop _ _ _ => exact .of_gathers (next_gathers h (by simp))
  | cancel _ _ _ => exact .of_gathers (next_gathers h (by simp))
  | close _ _ _ => exact .of_gathers (next_gathers h (by simp))
  | adapterLoad _ _ _ => exact .of_gathers (next_gathers h (by simp))
  | adapterVerified _ _ => exact .of_gathers (execAdapterVerified_gathers _ _ _ h)
  | adapterDrop _ _ _ => exact .of_gathers (next_gathers h (by simp))
  | ingotStage _ _ _ => exact .of_gathers (next_gathers h (by simp))
  | ingotStageVerified _ => exact .of_gathers (execIngotStageVerified_gathers _ _ h)
  | genSwitch _ _ _ => exact .of_gathers (next_gathers h (by simp))
  | migrateOut _ _ _ => exact .of_gathers (next_gathers h (by simp))
  | migrateIn _ _ _ => exact .of_gathers (next_gathers h (by simp))
  | temper _ _ _ => exact .of_gathers (next_gathers h (by simp))
  | respRelease _ _ _ => exact .of_gathers (execRespRelease_gathers _ _ _ _ h)
  | respCfg _ _ _ => exact .of_gathers (execRespCfg_gathers _ _ _ _ h)
  | nextSeq _ _ => exact .of_gathers (execNextSeq_gathers _ _ _ h)
  | sysRole _ => exact .of_gathers (execSysRole_gathers _ _ h)
  | bellNs _ => exact .of_gathers (execBellNs_gathers _ _ h)
  | partSize _ => exact .of_gathers (execPartSize_gathers _ _ h)
  | dormantEnter _ => exact .of_gathers (execDormantEnter_gathers _ _ h)
  | dormancyAck => exact .of_gathers (execDormancyAck_gathers _ h)
  | warmReset _ => exact execWarmReset_keepsBuffers h
  | warmResetReady => exact execWarmResetReady_keepsBuffers h
  | packLoadGo _ => exact .of_gathers (execPackLoadGo_gathers _ _ h)
  | packLoadClear _ => exact .of_gathers (execPackLoadClear_gathers _ _ h)
  | memMode _ _ => exact execMemMode_keepsBuffers h
  | patLoadGo _ _ _ => exact .of_gathers (execPatLoadGo_gathers _ _ _ _ h)
  | patLoadUnload _ _ => exact .of_gathers (execPatLoadUnload_gathers _ _ _ h)
  | loadComplete _ _ => exact execLoadComplete_keepsBuffers h
  | fenceReq _ _ => exact .of_gathers (execFenceReq_gathers _ _ _ h)
  | recastMould _ _ => exact .of_gathers (execRecastMould_gathers _ _ _ h)
  | recastAll _ _ => exact .of_gathers (execRecastAll_gathers _ _ _ h)
  | gaugeForce _ _ => exact .of_gathers (execGaugeForce_gathers _ _ _ h)
  | histSel _ _ => exact .of_gathers (execHistSel_gathers _ _ _ h)
  | leaseRevoke _ _ => exact .of_gathers (execLeaseRevoke_gathers _ _ _ h)
  | tenantBudget _ _ => exact .of_gathers (execTenantBudget_gathers _ _ _ h)
  | classLimit _ => exact .of_gathers (execClassLimit_gathers _ _ h)
  | debtClear _ => exact .of_gathers (execDebtClear_gathers _ _ h)
  | senseApply _ _ => exact .of_gathers (execSenseApply_gathers _ _ _ h)
  | senseUrgent _ _ => exact .of_gathers (execSenseUrgent_gathers _ _ _ h)
  | ringCfg _ _ => exact .of_gathers (execRingCfg_gathers _ _ _ h)
  | ringRd _ _ => exact .of_gathers (execRingRd_gathers _ _ _ h)
  | commonsPool _ => exact .of_gathers (execCommonsPool_gathers _ _ h)
  | stackStage _ _ _ => exact .of_gathers (execStackStage_gathers _ _ _ _ h)
  | stackInject _ _ => exact .of_gathers (execStackInject_gathers _ _ _ h)
  | fuseRollback _ => exact .of_gathers (execFuseRollback_gathers h)
  | lockAttest _ _ => exact .of_gathers (execLockAttest_gathers _ _ _ h)
  | attestReportDone _ => exact .of_gathers (execAttestReportDone_gathers _ _ h)
  | ownerTransfer _ _ => exact .of_gathers (execOwnerTransfer_gathers h)
  | pubWrite _ _ => exact .of_gathers (execPubWrite_gathers h)
  | pubRevoke _ _ => exact .of_gathers (execPubRevoke_gathers h)
  | debugAuth _ _ => exact .of_gathers (execDebugAuth_gathers h)
  | tokenBurnDone => exact .of_gathers (execTokenBurnDone_gathers h)
  | domainJoin _ _ => exact .of_gathers (execDomainJoin_gathers _ _ _ h)
  | domainLeave _ _ => exact .of_gathers (execDomainLeave_gathers _ _ _ h)
  | tmuxSelect _ _ => exact .of_gathers (execTmuxSelect_gathers _ _ _ h)
  | errStatusClear _ _ => exact .of_gathers (execErrStatusClear_gathers _ _ _ h)
  | intrFifoRead _ => exact .of_gathers (execIntrFifoRead_gathers _ _ h)
  | registerWrite _ _ _ => exact execRegisterWrite_keepsBuffers h
  | rd8 _ => exact .of_gathers (execRd8_gathers _ _ h)
  | wr8 _ => exact execWr8_keepsBuffers h
  | rd64 _ => exact .of_gathers (execRd64_gathers _ _ h)
  | wr64 _ _ => exact .of_gathers (execWr64_gathers _ _ _ h)
  | pw64 _ _ => exact .of_gathers (execPw64_gathers _ _ _ h)
  | rsp _ _ => exact .of_gathers (next_gathers h (by simp))
  | rspd _ _ _ => exact .of_gathers (next_gathers h (by simp))
  | intr _ _ => exact .of_gathers (execIntr_gathers _ _ _ h)
  | snoop _ _ _ => exact .of_gathers (execSnoop_gathers _ _ _ _ h)
  | snoopRsp _ _ _ => exact .of_gathers (execSnoopRsp_gathers _ _ _ _ h)
  | crd _ _ _ _ => exact .of_gathers (next_gathers h (by simp))
  | xfer _ _ _ _ _ => exact .of_gathers (execXfer_gathers _ _ _ _ _ _ h)
  | completionTimeout _ _ => exact .of_gathers (execCompletionTimeout_gathers _ _ _ h)
  | ucieRetrain _ _ _ _ _ => exact .of_gathers (execUcieRetrain_gathers _ _ _ _ _ _ h)
  | bootDoorbell _ => exact execBootDoorbell_keepsBuffers h
  | kyrokFlitReceive _ => exact .of_gathers (execKyrokFlitReceive_gathers _ _ h)
  | kyrokCtrlFlit _ => exact .of_gathers (execKyrokCtrlFlit_gathers _ _ h)
  | ctrlFlitSend _ => exact .of_gathers (execCtrlFlitSend_gathers _ _ h)
  | laneRetire _ _ => exact .of_gathers (execLaneRetire_gathers _ _ _ h)
  | kyrokForward _ _ _ _ => exact .of_gathers (execKyrokForward_gathers _ _ _ _ _ h)
  | kyrokAuthDiscard _ _ => exact .of_gathers (execKyrokAuthDiscard_gathers _ _ _ h)
  | joinHello _ _ => exact .of_gathers (execJoinHello_gathers _ _ _ h)
  | joinReply _ _ => exact .of_gathers (execJoinReply_gathers _ _ _ h)
  | domain newMember leaver newKey => exact .of_gathers (execDomain_gathers (m := newMember) (k := leaver) (n := newKey) h)
  | joinTimeout => exact .of_gathers (execJoinTimeout_gathers _ h)
  | keyEpochSwitch => exact .of_gathers (execKeyEpochSwitch_gathers _ h)
  | kyrokBarrier _ _ _ => exact .of_gathers (execKyrokBarrier_gathers _ _ _ _ h)
  | rreadReq _ _ _ _ _ _ => exact .of_gathers (execRreadReq_gathers _ _ _ _ _ _ _ h)
  | rreadRsp _ _ _ _ _ _ => exact .of_gathers (execRreadRsp_gathers _ _ _ _ _ _ _ h)
  | rreadTimeout _ => exact .of_gathers (execRreadTimeout_gathers _ _ h)
  | migManifest _ => exact .of_gathers (next_gathers h (by simp))
  | migConfirm _ _ => exact .of_gathers (execMigConfirm_gathers _ _ _ h)
  | migAbort _ _ _ => exact .of_gathers (execMigAbort_gathers _ _ _ _ h)
  | migrationTimeout _ => exact .of_gathers (execMigrationTimeout_gathers _ _ h)
  | blankPage _ _ => exact .of_gathers (execBlankPage_gathers _ _ _ h)
  | sweepLine _ => exact .of_gathers (execSweepLine_gathers _ _ h)
  | sweepLapAlarm _ => exact .of_gathers (execSweepLapAlarm_gathers _ _ h)
  | stackFault _ => exact .of_gathers (execStackFault_gathers _ _ h)
  | hubFault _ => exact .of_gathers (execHubFault_gathers _ _ h)
  | coreFetchPoison _ _ _ _ => exact .of_gathers (execCoreFetchPoison_gathers _ _ _ _ _ h)
  | dmaPoisonHalt _ _ _ _ _ => exact .of_gathers (execDmaPoisonHalt_gathers _ _ _ _ _ _ h)
  | tallyWindowEnd _ => exact .of_gathers (execTallyWindowEnd_gathers _ _ h)
  | sensorConversion _ _ => exact .of_gathers (execSensorConversion_gathers _ _ _ h)
  | urgentResult _ _ => exact execUrgentResult_keepsBuffers h
  | timeAlign _ _ => exact .of_gathers (next_gathers h (by simp))
  | serviceStateEval => exact .of_gathers (execServiceStateEval_gathers _ h)
  | pfailWarning _ => exact .of_gathers (execPfailWarning_gathers _ _ h)
  | rstFall _ => exact execRstFall_keepsBuffers h
  | start _ _ _ _ => exact execStart_keepsBuffers h
  | railLoss _ => exact execRailLoss_keepsBuffers h
  | railsRemoved _ => exact execRailsRemoved_keepsBuffers h
  | wake _ => exact .of_gathers (execWake_gathers _ _ h)
  | slotTableParityError _ => exact .of_gathers (next_gathers h (by simp))
  | kyrokPortTrained _ _ _ _ => exact .of_gathers (execKyrokPortTrained_gathers _ _ _ _ _ h)

theorem State.idle_gathers (s : State) : s.idle.gathers = s.gathers := by
  unfold State.idle
  split <;> simp

/-- A step keeps the buffers in order: it idles, or its command runs with the queue's rest. -/
theorem step_keepsBuffers {s t : State} (h : step s = .next t) : KeepsBuffers s t := by
  unfold step at h
  split at h
  · exact .next h (.of_gathers s.idle_gathers)
  · exact (exec_keepsBuffers h).left (by simp)

end Sys2Proof.Machine
end

section
open Sys2Proof Sys2Proof.Machine

/-- Settles O5: every command and the idle step leave each gather buffer as it is, empty it, take entries from it, or write one in order. -/
theorem gatherBuffersStayInOrder : Obligations.GatherBuffersStayInOrder :=
  fun _ _ hs h d => step_keepsBuffers h d (hs d)

end
